-- ==== Sys2Proof/Word.lean ====
section
/-! DEFINITION. The word types of the model: bytes, fault codes, tables keyed by number, sparse memory. -/

namespace Sys2Proof

/-- A byte. -/
abbrev Byte := BitVec 8

/-- A fault code (R415) or a 16-bit status. -/
abbrev Code := BitVec 16

/-- A table: entries keyed by number, in strictly rising key order. A missing key holds the default. -/
abbrev Tab (α : Type) := List (Nat × α)

/-- Sparse memory: address and byte pairs, addresses strictly rising, no byte zero. -/
abbrev Mem := List (Nat × BitVec 8)

end Sys2Proof
end

