-- ==== Sys2Proof/Syntax.lean ====
section
/-! DEFINITION. The commands of the block: one constructor of `Instr` for each row of the opcode table, with the operands
the spec gives it. An operand named `now` is the whorl time at which the command comes about (log entry 2). An operand that
stands for a choice the spec leaves to firmware is said to be one (log entry 8). -/

namespace Sys2Proof

/-- A mailbox request as the driver wrote it (Table Mailbox-2, R342), with what the extended buffer holds. -/
structure Msg where
  /-- 0 the PF, n VF n -/
  func : Nat := 0
  /-- it came through the boot mailbox (R337) -/
  boot : Bool := false
  opcode : Nat
  proto : Nat := 3
  flags : Nat := 0
  inlineBytes : Nat := 0
  status : Nat := 0
  tag : Nat := 0
  extAddr : Nat := 0
  extBytes : Nat := 0
  payload : List Byte := []
  counter : Nat := 0
  trailerRsv : Nat := 0
  mac : BitVec 128 := 0
  /-- the extended buffer can be read and written, and its rind tag checks pass (R437) -/
  extOk : Bool := true
  ext : List Byte := []
deriving DecidableEq, Repr

/-- One placement record (Table Placement-1). -/
structure Hint where
  prefer : Nat
  pin : Nat
  first : Nat
  last : Nat
  mode : Nat
deriving DecidableEq, Repr

/-- A skein code operation with its operands (Table Programs-9). Views are indices of the VIEW section. -/
inductive SkInsn where
  | nop
  | fin
  | skipz (s count : Nat)
  | skipnz (s count : Nat)
  | seti (d : Nat) (v : BitVec 32)
  | pred (d : Nat)
  | stat (d : Nat)
  | sst (s off d : Nat)
  | fetch (a d member : Nat)
  | send (a d member : Nat)
  | coll (a d pattern red first count root : Nat)
  | mma (a b bank : Nat) (clear bounded : Bool) (bound : Nat)
  | drain (d bank rnd : Nat) (sat : Bool) (shift : Nat)
  | vld (a v lane rnd : Nat)
  | vst (d v lane rnd : Nat) (sat compress maps : Bool)
  | vop (fn lane x y z d rel : Nat)
  | vfn (fn x d : Nat)
  | vred (fn x d : Nat)
  | mapclr (d : Nat)
  | sort (a idx : Nat)
  | digest (a d : Nat)
deriving DecidableEq, Repr

namespace Upf

/-- REQ section (Table Programs-3). -/
structure Req where
  formats : Nat := 0
  units : Nat := 0
  native : Nat := 0
  maxFootprint : Nat := 0
  hbmBytes : Nat := 0
  bobbinBytes : Nat := 0
  members : Nat := 1
  inputs : Nat := 0
  outputs : Nat := 0
deriving DecidableEq, Repr

/-- Tensor declaration (Table Programs-4). -/
structure Tensor where
  format : Nat := 0
  role : Nat := 0
  kind : Nat := 0
  rank : Nat := 1
  flags : Nat := 0
  binding : Nat := 0
  offset : Nat := 0
  extent : List Nat := [1, 1, 1, 1]
  scale : Nat := 0xFFFF
  meta24 : Nat := 0xFFFF
  zmap : Nat := 0xFFFF
  fmap : Nat := 0xFFFF
  bytes : Nat := 0
deriving DecidableEq, Repr

/-- View (Table Programs-5). -/
structure View where
  tensor : Nat := 0
  start : List Nat := [0, 0, 0, 0]
  extent : List Nat := [1, 1, 1, 1]
deriving DecidableEq, Repr

/-- Skein entry (Table Programs-6) with its decoded code. -/
structure Skein where
  codeOffset : Nat := 0
  codeBytes : Nat := 16
  cost : Nat := 1
  formats : Nat := 0
  units : Nat := 0
  kind : Nat := 0
  layer : Nat := 0
  footprint : Nat := 0
  operator : Nat := 0
  predSort : Nat := 0
  predExpert : Nat := 0
  predChunk : Nat := 0
  predN : Nat := 0
  remoteOps : Nat := 0
  code : List SkInsn := []
deriving DecidableEq, Repr

/-- EDGE entry (R176). -/
structure Edge where
  src : Nat
  dst : Nat
  kind : Nat
deriving DecidableEq, Repr

/-- CHEAP entry (R178). -/
structure Cheap where
  after : Nat
  safe : Bool
  live : Nat
deriving DecidableEq, Repr

/-- LIVE entry (R179). -/
structure Live where
  tensor : Nat
  first : Nat
  last : Nat
deriving DecidableEq, Repr

/-- FALLBACK section (Table Programs-8). -/
structure Fallback where
  program : BitVec 384
  bobbin : BitVec 384
  inMap : List Nat
  outMap : List Nat
deriving DecidableEq, Repr

/-- A decoded program file. -/
structure File where
  req : Req := {}
  tensors : List Tensor := []
  views : List View := []
  skeins : List Skein := []
  edges : List Edge := []
  cheaps : List Cheap := []
  lives : List Live := []
  const : List Byte := []
  fallback : Option Fallback := none
  work : Nat := 0
  span : Nat := 0
  digest : BitVec 384 := 0
deriving DecidableEq, Repr

end Upf

/-- An SPDM request over MCTP on I3C (R497, R491). -/
inductive SpdmReq where
  | getVersion | getCapabilities | negotiateAlgorithms | getDigests | getCertificate (slot : Nat) | challenge
  | getMeasurements (index : Nat) | keyExchange (ownerProof : Bool) | finish | endSession | chunk
  | pskExchange (factoryProof : Bool) | pskFinish | mailboxKey
deriving DecidableEq, Repr

/-- What a debug access through the TAP names (Table Security-4): a register, a byte of a partition's object space, or storage
closed to it (the key store, trust-processor memory, rind key registers, bobbin store parts, firmware areas). -/
inductive DebugTarget where
  | register (off : Nat)
  | object (part off : Nat)
  | closed
deriving DecidableEq, Repr

/-- A TAP instruction (Table Boundary-9). -/
inductive TapIns where
  | idcode | bypass | samplePreload | extest | debugAccess (target : DebugTarget) | scanTest
deriving DecidableEq, Repr

/-- What the audit of the conserved books finds (R470, R471): all in balance, or, outside the moments of Table Reset-7, a book of
the partition or a block-wide one (transport credits, granule ownership) that is not. -/
inductive Audit where
  | balanced | partitionBook | blockBook
deriving DecidableEq, Repr

/-- A checker's report operand of FAULT_REPORT: the code, the engine identifier (0xFFF for a unit-wide report) and the
slots of the steps that had an operation in a shared engine within the detection bound (R430). -/
structure Report where
  code : Code
  engine : Nat := 0xFFF
  slots : List Nat := []
deriving DecidableEq, Repr

/-- What a remote FETCH asks of the member it names: the job's handle, the asker's member number, the window and generation that hold
the data there, its places with their lengths, the queue pair on which it is to come, and the number that stands for the window and
generation at the asker (R193, R194, R385). -/
structure FetchAsk where
  job : Nat
  member : Nat
  window : Nat
  gen : Nat
  ranges : List (Nat × Nat)
  qp : Nat
  back : Nat
deriving DecidableEq, Repr

/-- What a control cell tells the spindle firmware of another package, beside what has a row of its own (an abort notice, a derived
step, a probe, a chunk). The spec says what is told and lays no cell out (log 151). -/
inductive Ctl where
  /-- the answer to a probe: the chunks that the package serves of a bobbin for a partition of the asker, and its rate (R235, R236) -/
  | probeAnswer (part pkg : Nat) (digest : BitVec 384) (chunks : List Nat) (rate : Nat)
  /-- the chunks that a package asks of a serving one, for a partition of its own in a generation (R236, R245) -/
  | request (pkg part gen : Nat) (digest : BitVec 384) (chunks : List Nat)
  /-- member 0 asks a member for a job: handle, the member's number, every member's package and partition, the device sets (R246) -/
  | ask (job member : Nat) (members : List (Nat × Nat)) (sets : List Nat)
  /-- its answer: taken, generation, start number, room of its store, rest of its carve-out (R246, R247, R465) -/
  | answer (job member : Nat) (ok : Bool) (pgen startNo store rest : Nat)
  /-- a member's job route table (R252) -/
  | routes (job : Nat) (table : List (Nat × List Nat))
  /-- the job is deleted (R465) -/
  | gone (job : Nat)
  /-- a member's part of a job step has passed its release gate (R251) -/
  | gate (job jstep member : Nat)
  /-- a skein of a split job step is complete (R204) -/
  | skein (job jstep skein : Nat)
  /-- a sort of a split job step has been evaluated: its experts and the count of each (R149, R204) -/
  | sorted (job jstep idx experts : Nat) (counts : List (Nat × Nat))
  /-- a member asks for the data of a FETCH (R194) -/
  | fetch (x : FetchAsk)
deriving DecidableEq, Repr

/-- What a member has answered to JOB_CREATE (R246, R247, R465). -/
structure Answer where
  /-- member number -/
  member : Nat
  /-- the partition exists and every device set is enrolled -/
  ok : Bool
  pgen : Nat := 0
  startNo : Nat := 0
  /-- store capacity less pinned bytes -/
  store : Nat := 0
  /-- the rest of its carve-out -/
  rest : Nat := 0
deriving DecidableEq, Repr

/-- What member 0 tells with a derived step (R248, R249): each member's part, and the header and tables of the bobbin that is split
(log 151). -/
structure Split where
  parts : List (Nat × Nat × Nat × Nat) := []
  tables : List Byte := []
  share : Bool := false
  set : Nat := 0
deriving DecidableEq, Repr

/-- What comes with a derived step: its descriptor, and what the split of its program makes of it (R251). -/
structure Derived where
  desc : List Byte
  split : Split := {}
deriving DecidableEq, Repr

/-- A falling edge of STOP_IN_N: when, and whether the line stays low (R28). -/
structure StopFall where
  now : Nat
  stays : Bool
deriving DecidableEq, Repr

/-- What was in flight to the host when its link went down: the slots of steps, and partition and index of backing copies (R371,
R372). -/
structure LostTraffic where
  slots : List Nat
  copies : List (Nat × Nat) := []
deriving DecidableEq, Repr

/-- A manifest cell: its source package, the bucket's entries, and the first of them that it carries (Table Sparse-8). -/
structure Manifest where
  src : Nat
  n : Nat
  first : Nat
deriving DecidableEq, Repr

/-- What a chunk brings: the generation of the partition in which it was asked (R245), and its bytes. -/
structure ChunkData where
  gen : Nat
  data : List Byte
deriving DecidableEq, Repr

/-- What a probe asks: for which partition of the asker, which bobbin (for a shard its parent), which chunks (R235, R249). -/
structure Probe where
  asker : Nat
  digest : BitVec 384
  chunks : List Nat
deriving DecidableEq, Repr

/-- A cell as it reaches a receive port (Table Fabric-2), with its queue pair, the rind engine's counter and verdict, the payload
bytes that carry poison (R62), and what a control cell says to spindle firmware. -/
structure Cell where
  qp : Nat
  kind : Nat
  gen : Nat
  window : Nat
  index : Nat
  payload : List Byte
  frameCtr : Nat
  tagOk : Bool := true
  bad : List Nat := []
  ctl : Option Ctl := none
deriving DecidableEq, Repr

/-- A bulk message as it reaches a receive port (Table Fabric-3). -/
structure Bulk where
  qp : Nat
  kind : Nat
  gen : Nat
  window : Nat
  length : Nat
  offset : Nat
  payload : List Byte
  frameCtr : Nat
  tagOk : Bool := true
  bad : List Nat := []
deriving DecidableEq, Repr

/-- A sync message as it arrives (R397), with the neighbour's state that the rules of R398 need. -/
structure SyncMsg where
  seq : Nat
  prevSend : Option Nat
  prevArrival : Nat
  prevSeq : Nat
  nbSynced : Bool
  nbDepth : Nat
  nbPkg : Nat
  nbTime : Nat
deriving DecidableEq, Repr

/-- An abort notice (Table Reset-4). -/
structure Notice where
  origin : Nat
  job : Nat
  jstep : Nat
  cause : Code
  code : Code
  detected : Nat
  lost : Bool
  pgen : Nat
  startNo : Nat
deriving DecidableEq, Repr

/-- The commands (opcode_table.json). -/
inductive Instr where
  /-- REFCLK_LOST. R17: no REFCLK edge for 1 us. -/
  | refclkLost (now : Nat)
  /-- PWR_GOOD_RISE. R24: PWR_GOOD rises. -/
  | pwrGoodRise (now : Nat)
  /-- PWR_GOOD_FALL. R24: PWR_GOOD falls. -/
  | pwrGoodFall (now : Nat)
  /-- AON_RESET_N_FALL. R24: AON_RESET_N falls. -/
  | aonResetNFall
  /-- AON_RESET_N_RELEASE. R21: AON_RESET_N rises. -/
  | aonResetNRelease
  /-- BLK_RESET_N_FALL. R23: BLK_RESET_N falls. -/
  | blkResetNFall (now : Nat)
  /-- BLK_RESET_N_RELEASE. R520: BLK_RESET_N rises. `entryTries`: start-log entries that fail verification before one is written (R518). `warmOk`: the warm start's checks other than the image digest pass (R528). -/
  | blkResetNRelease (now : Nat) (entryTries : Nat) (warmOk : Bool)
  /-- VOLTAGE_MONITOR_TRIP. R24: an always-on voltage monitor trips. -/
  | voltageMonitorTrip (now : Nat)
  /-- THERMAL_TRIP. R452: a thermal trip comparator fires. -/
  | thermalTrip (now : Nat)
  /-- POWER_CYCLE_REQUEST. R452: 100 ms pass with the main domain still in reset. -/
  | powerCycleRequest (now : Nat)
  /-- STOP_IN_N_FALL. R555: a falling edge on STOP_IN_N. -/
  | stopInNFall (x : StopFall)
  /-- WHORL_SYNC_EDGE. R18: a rising edge on WHORL_SYNC, high for `highNs`. -/
  | whorlSyncEdge (now highNs : Nat)
  /-- SYNC_WINDOW_EXPIRY. R396: 500 ns pass for the outstanding sync message. -/
  | syncWindowExpiry (now : Nat)
  /-- TORUS_COORDINATES_WRITE. R378. -/
  | torusCoordinatesWrite (x y z kx ky kz : Nat)
  /-- RAIL_CONFIRM. R20: the tray controller confirms a VDD_TILE level. -/
  | railConfirm (now die mv : Nat)
  /-- RAIL_CONFIRM_TIMEOUT. R33. -/
  | railConfirmTimeout (now die : Nat)
  /-- SPDM_REQUEST. R497. -/
  | spdmRequest (now : Nat) (q : SpdmReq)
  /-- TAP_INSTRUCTION. R36. -/
  | tapInstruction (i : TapIns)
  /-- TRST_N_RESET. R35. -/
  | trstNReset
  /-- HBM_PORT_NOT_READY. R33. -/
  | hbmPortNotReady (now port : Nat)
  /-- HBM_READ_RETURN. R31: read data returns; `slot` and `slotGen` are those of the request (R454), `addr` the port's 64-byte line. -/
  | hbmReadReturn (now port tag slot slotGen addr : Nat) (poison corrected : Bool)
  /-- FLASH_STATUS_TIMEOUT. R33. -/
  | flashStatusTimeout (now : Nat)
  /-- HOST_LINK_DOWN. R370. `writes`: an outbound write was in flight. -/
  | hostLinkDown (now : Nat) (writes : Bool) (lost : LostTraffic)
  /-- FLR. R281. -/
  | flr (now func : Nat)
  /-- CXL_MEM_ACCESS. R360: a load of `len` bytes or a store. -/
  | cxlMemAccess (now addr len : Nat) (write : Option (List Byte))
  /-- APERTURE_ACCESS. R582. -/
  | apertureAccess (now off len : Nat) (write : Option (List Byte))
  /-- HOST_MASTER_READ_TIMEOUT. R377. -/
  | hostMasterReadTimeout (now slot : Nat)
  /-- READ_BACK_COMPLETE. R367. -/
  | readBackComplete (now func : Nat)
  /-- LINK_PORT_UP. R483; `cells` and `bulks` are the credits granted (R391). -/
  | linkPortUp (now port cells bulks : Nat)
  /-- LINK_PORT_DOWN. R394. -/
  | linkPortDown (now port : Nat)
  /-- KEY_EXCHANGE_FRAME. R483, R484. -/
  | keyExchangeFrame (port : Nat) (chainOk sigOk : Bool) (peerState : Nat) (last : Bool)
  /-- CREDIT_RETURN. R391. -/
  | creditReturn (now port : Nat) (bulk : Bool) (n : Nat)
  /-- CELL_ARRIVAL. R382. -/
  | cellArrival (now port : Nat) (c : Cell)
  /-- BULK_MESSAGE_ARRIVAL. R384. -/
  | bulkMessageArrival (now port : Nat) (b : Bulk)
  /-- SYNC_SEND. R396. -/
  | syncSend (now port : Nat)
  /-- SYNC_ARRIVAL. R396. -/
  | syncArrival (now port : Nat) (m : SyncMsg)
  /-- PARENT_TIMEOUT. R401. -/
  | parentTimeout (now : Nat)
  /-- FABRIC_EPOCH_START. R398. -/
  | fabricEpochStart (now : Nat)
  /-- COMPARATOR_FIRE. R403. -/
  | comparatorFire (now n : Nat)
  /-- NOP. R191; `t` is the tile, as in every skein command. -/
  | nop (t : Nat)
  /-- END. R199. -/
  | fin (t : Nat)
  /-- SKIPZ. R197. -/
  | skipz (t sc count : Nat)
  /-- SKIPNZ. R197. -/
  | skipnz (t sc count : Nat)
  /-- SETI. R191. -/
  | seti (t d : Nat) (v : BitVec 32)
  /-- PRED. R196. -/
  | pred (t d : Nat)
  /-- STAT. R196. -/
  | stat (t d : Nat)
  /-- SST. R198. -/
  | sst (t sc off d : Nat)
  /-- FETCH. R194. -/
  | fetch (t a d member : Nat)
  /-- SEND. R195. -/
  | send (t a d member : Nat)
  /-- COLL. R407. -/
  | coll (t a d pattern red first count root : Nat)
  /-- MMA. R43. -/
  | mma (t a b bank : Nat) (clear bounded : Bool) (bound : Nat)
  /-- DRAIN. R118. -/
  | drain (t d bank rnd : Nat) (sat : Bool) (shift : Nat)
  /-- VLD. R53. -/
  | vld (t a v lane rnd : Nat)
  /-- VST. R53. -/
  | vst (t d v lane rnd : Nat) (sat compress maps : Bool)
  /-- VOP. R114. -/
  | vop (t fn lane x y z d rel : Nat)
  /-- VFN. R116. -/
  | vfn (t fn x d : Nat)
  /-- VRED. R117. -/
  | vred (t fn x d : Nat)
  /-- MAPCLR. R131. -/
  | mapclr (t d : Nat)
  /-- SORT. R139. -/
  | sort (t a idx : Nat)
  /-- DIGEST. R198. -/
  | digest (t a d : Nat)
  /-- RESIDUE_WINDOW_COMPARE. R69: the two residues of a column (or lane) at the close of a window. -/
  | residueWindowCompare (now t : Nat) (vector : Bool) (predicted produced : Nat)
  /-- SKEIN_BOUND_OVERRUN. R68. -/
  | skeinBoundOverrun (now t : Nat)
  /-- SKEIN_COMPLETE. R73. -/
  | skeinComplete (now t skein : Nat)
  /-- CLOCK_GATE. R83: `idle` tile cycles without issue. -/
  | clockGate (t idle : Nat)
  /-- PATROL_SCRUB. R63: `bits` erroneous bits found in a 16-byte word. -/
  | patrolScrub (now t word bits : Nat)
  /-- OSCILLATOR_OUT_OF_LOCK. R82: deviation in thousandths lasting `ns`. -/
  | oscillatorOutOfLock (now t permille ns : Nat)
  /-- SKEIN_PLACE. R213. `t` and the scratchpad base of each buffer are firmware's choice (R202, R215). -/
  | skeinPlace (now slot skein t : Nat) (bases : List (Nat × Nat))
  /-- SORT_START. R156. -/
  | sortStart (now die : Nat)
  /-- SORT_COMPLETE. R149. -/
  | sortComplete (now die : Nat)
  /-- MANIFEST_ARRIVAL. R154: a manifest cell for an expert. -/
  | manifestArrival (now slot idx expert : Nat) (cell : Manifest)
  /-- PLAN_START. R408: the engine identifier of a reducer, or of the tile that takes a lowered plan (R203). -/
  | planStart (now engine : Nat)
  /-- PLAN_COMPLETE. R407: the engine that runs the plan, and the time for which it was at it (R322; log 11). -/
  | planComplete (now engine busy : Nat)
  /-- REMOTE_TIMEOUT. R393. -/
  | remoteTimeout (now op : Nat)
  /-- QUEUE_PAIR_DOWN. R394. -/
  | queuePairDown (now qp : Nat)
  /-- ECHO. R347. -/
  | echo (m : Msg)
  /-- CAP_QUERY. R354. -/
  | capQuery (m : Msg)
  /-- BOOT_STATUS. R347. -/
  | bootStatus (m : Msg)
  /-- PROGRAM_LOAD. R206. -/
  | programLoad (m : Msg)
  /-- PROGRAM_LOAD_DONE. R209. -/
  | programLoadDone (now part prog : Nat)
  /-- PROGRAM_UNLOAD. R348. -/
  | programUnload (m : Msg)
  /-- PLACEMENT_HINT. R216. -/
  | placementHint (m : Msg)
  /-- PLACEMENT_LOG. R221. -/
  | placementLog (m : Msg)
  /-- BOBBIN_INSTALL. R228. -/
  | bobbinInstall (m : Msg)
  /-- BOBBIN_INSTALL_DONE. R496. -/
  | bobbinInstallDone (now part idx : Nat)
  /-- BOBBIN_REMOVE. R229. -/
  | bobbinRemove (m : Msg)
  /-- BOBBIN_PREFETCH. R230. -/
  | bobbinPrefetch (m : Msg)
  /-- BOBBIN_EVICT. R230. -/
  | bobbinEvict (m : Msg)
  /-- BOBBIN_PIN. R244. -/
  | bobbinPin (m : Msg)
  /-- BOBBIN_UNPIN. R244. -/
  | bobbinUnpin (m : Msg)
  /-- BOBBIN_LIST. R223. -/
  | bobbinList (m : Msg)
  /-- BOBBIN_SOURCES. R234. -/
  | bobbinSources (m : Msg)
  /-- BOBBIN_BACKING. R239. -/
  | bobbinBacking (m : Msg)
  /-- JOB_CREATE. R246. `answers`: of the members that have answered; the others may still by a control cell. -/
  | jobCreate (m : Msg) (answers : List Answer)
  /-- JOB_MEMBER_TIMEOUT. R246. -/
  | jobMemberTimeout (now job : Nat)
  /-- JOB_QUERY. R255. -/
  | jobQuery (m : Msg)
  /-- JOB_DESTROY. R465. -/
  | jobDestroy (m : Msg)
  /-- PARTITION_CREATE. R272. -/
  | partitionCreate (m : Msg)
  /-- PARTITION_TABLES_BUILT. R273. -/
  | partitionTablesBuilt (now part : Nat)
  /-- PARTITION_DESTROY. R274. -/
  | partitionDestroy (m : Msg)
  /-- PARTITION_SCRUB_VERIFIED. R500. -/
  | partitionScrubVerified (now part : Nat) (countersOk : Bool)
  /-- CONTEXT_CREATE. R282. -/
  | contextCreate (m : Msg)
  /-- CONTEXT_DESTROY. R285. -/
  | contextDestroy (m : Msg)
  /-- CONTEXT_RESET. R446. -/
  | contextReset (m : Msg)
  /-- PROCESS_END. R467. -/
  | processEnd (m : Msg)
  /-- MEM_ALLOC. R286. -/
  | memAlloc (m : Msg)
  /-- ZERO_FILL_DONE. R349. -/
  | zeroFillDone (now part obj : Nat)
  /-- MEM_FREE. R289. -/
  | memFree (m : Msg)
  /-- FENCE_CREATE. R290. -/
  | fenceCreate (m : Msg)
  /-- FENCE_SIGNAL. R291. -/
  | fenceSignal (m : Msg)
  /-- FENCE_RESET. R294. -/
  | fenceReset (m : Msg)
  /-- FENCE_DESTROY. R294. -/
  | fenceDestroy (m : Msg)
  /-- FENCE_TIMEOUT. R293: wait `j` of the step in `slot`. -/
  | fenceTimeout (now slot j : Nat)
  /-- QUEUE_CREATE. R297. -/
  | queueCreate (m : Msg)
  /-- QUEUE_DESTROY. R329. -/
  | queueDestroy (m : Msg)
  /-- SCHED_SET. R326. -/
  | schedSet (m : Msg)
  /-- ACCOUNT_READ. R325. -/
  | accountRead (m : Msg)
  /-- POWER_LIMIT. R328. -/
  | powerLimit (m : Msg)
  /-- SLEEP_ENTER. R524. -/
  | sleepEnter (m : Msg)
  /-- EVT_RING_SET. R364. -/
  | evtRingSet (m : Msg)
  /-- BIAS_SET. R362. -/
  | biasSet (m : Msg)
  /-- FAULT_READ. R338. -/
  | faultRead (m : Msg)
  /-- FAULT_CLEAR. R421. -/
  | faultClear (m : Msg)
  /-- FAULT_INJECT. R439. -/
  | faultInject (m : Msg)
  /-- ENGINE_RESET. R448. -/
  | engineReset (m : Msg)
  /-- PARTITION_RESET. R450. -/
  | partitionReset (m : Msg)
  /-- BLOCK_RESET. R451. -/
  | blockReset (m : Msg)
  /-- BLOCK_RESET_BEGIN. R451. -/
  | blockResetBegin (now : Nat)
  /-- POWER_CYCLE. R26. -/
  | powerCycle (m : Msg)
  /-- DEBUG_ENABLE. R489. -/
  | debugEnable (m : Msg)
  /-- DEVSET_ENROLL. R493. -/
  | devsetEnroll (m : Msg)
  /-- DEVSET_LEAVE. R494. -/
  | devsetLeave (m : Msg)
  /-- MBX_KEY_EXPORT. R492. -/
  | mbxKeyExport (m : Msg)
  /-- LC_TRANSITION. R515; `eraseOk`: the erases of Table Lifecycle-5 verify. -/
  | lcTransition (m : Msg) (eraseOk : Bool)
  /-- FW_UPDATE. R533. -/
  | fwUpdate (m : Msg)
  /-- FW_RECOVER. R534. -/
  | fwRecover (m : Msg)
  /-- BIST_RUN. R538; `quiesced`: the engine quiesces within 100 us. -/
  | bistRun (m : Msg) (quiesced : Bool)
  /-- COUNTER_SELECT. R543. -/
  | counterSelect (m : Msg)
  /-- COUNTER_READ. R548. -/
  | counterRead (m : Msg)
  /-- COUNTER_FREEZE. R546. -/
  | counterFreeze (m : Msg)
  /-- FREEZE_TICK. R546. -/
  | freezeTick (now : Nat)
  /-- TRACE_CONFIG. R549. -/
  | traceConfig (m : Msg)
  /-- WATCH_SELECT. R559. -/
  | watchSelect (m : Msg)
  /-- HANG_REPORT. R564. -/
  | hangReport (m : Msg)
  /-- MAILBOX_RESPONSE_POST. R334. -/
  | mailboxResponsePost (now func : Nat)
  /-- MBX_ENABLE. R332: `enable` is written 1 with these fields. -/
  | mbxEnable (func log2 vector : Nat)
  /-- MBX_DISABLE. R332: `enable` is written 0. -/
  | mbxDisable (func : Nat)
  /-- MBX_TAIL. R333. -/
  | mbxTail (func tail : Nat)
  /-- MBX_RSP_HEAD. R334. -/
  | mbxRspHead (func head : Nat)
  /-- MBX_BOOT_GO. R337. -/
  | mbxBootGo (func : Nat) (alsoDone : Bool)
  /-- MBX_BOOT_DONE_CLEAR. R337. -/
  | mbxBootDoneClear (func : Nat)
  /-- STEP_QUEUE_DOORBELL. R298. -/
  | stepQueueDoorbell (func index tail : Nat)
  /-- STEP_ADMIT. R303. `slot` and the places of the reservations are firmware's choice. -/
  | stepAdmit (now q slot : Nat) (base fbBase : Nat)
  /-- STEP_READY. R304. -/
  | stepReady (now slot : Nat)
  /-- STEP_BOUNDARY. R307; `audit`: what the audit of the books (R470) finds, some of which lie outside this State. -/
  | stepBoundary (now part : Nat) (audit : Audit)
  /-- QUANTUM_EXPIRY. R308. -/
  | quantumExpiry (now part : Nat)
  /-- STEP_SWITCH. R310; `spill`: the live buffers do not fit beside the next step's footprints (R313). -/
  | stepSwitch (now part : Nat) (spill : Bool)
  /-- SPILL_DONE. R311. -/
  | spillDone (now part : Nat)
  /-- RESTORE_DONE. R314; tensor, tile and base of each restored buffer: firmware's choice. -/
  | restoreDone (now slot : Nat) (places : List (Nat × Nat × Nat))
  /-- FALLBACK_EVALUATE. R320. -/
  | fallbackEvaluate (now slot : Nat)
  /-- HANG_TIME_EXPIRY. R316. -/
  | hangTimeExpiry (now part : Nat)
  /-- DEADLINE_EXPIRY. R318. -/
  | deadlineExpiry (now slot : Nat)
  /-- POWER_MODEL_UPDATE. R328: modelled power averaged over 10 ms, before any change. -/
  | powerModelUpdate (now modelMw : Nat)
  /-- RELEASE_GATE_PASS. R433. -/
  | releaseGatePass (now slot : Nat)
  /-- EVENT_ENTRY_WRITE. R366. -/
  | eventEntryWrite (now func : Nat)
  /-- RING_VECTOR_SEND. R366. -/
  | ringVectorSend (now func : Nat)
  /-- EVT_FLUSH. R368. -/
  | evtFlush (now func : Nat)
  /-- EVT_HEAD. R364. -/
  | evtHead (func head : Nat)
  /-- WHL_TIME_LO. R402. -/
  | whlTimeLo (func : Nat)
  /-- PMC_LOW_HALF_READ. R548; `off` is the BAR0 offset of the low half. -/
  | pmcLowHalfRead (func off : Nat)
  /-- GST_STOP. R555. -/
  | gstStop (now : Nat) (alsoRelease : Bool)
  /-- GST_RELEASE. R557. -/
  | gstRelease (now : Nat)
  /-- GST_HALTED. R556. -/
  | gstHalted (now : Nat)
  /-- GST_SCAN_DATA. R558. -/
  | gstScanData (parityError : Bool)
  /-- GST_SCAN_SEL. R584. -/
  | gstScanSel (tile chain : Nat)
  /-- REGISTER_WRITE. R569: an access of `width` bytes, the lowest byte of `val` at `off`. -/
  | registerWrite (func off width : Nat) (val : BitVec 512)
  /-- FAULT_REPORT. R417. -/
  | faultReport (now : Nat) (r : Report)
  /-- FATAL_BLOCK_RESET. R432. -/
  | fatalBlockReset (now : Nat)
  /-- CHECKER_EXERCISE. R425. -/
  | checkerExercise (now unit engine checker : Nat) (flagged : Bool)
  /-- ERROR_PIN_TEST. R426. -/
  | errorPinTest (now unit : Nat) (answered : Bool)
  /-- ERROR_PIN_TEST_TIMEOUT. R426. -/
  | errorPinTestTimeout (now unit : Nat)
  /-- ANALOGUE_SLICE. R537: `item` 0 oscillators, 1 references, 2 thermal sensors, 3 spare lanes, 4 always-on; `tiles` those found out of tolerance. -/
  | analogueSlice (now die item : Nat) (tiles : List Nat) (inTolerance : Bool)
  /-- ANALOGUE_ROTATION_MISSED. R427. -/
  | analogueRotationMissed (now item : Nat)
  /-- WATCHDOG_EXPIRY. R428. -/
  | watchdogExpiry (now : Nat)
  /-- SELF_TEST_DONE. R536; engine 0xFFFF is the block. -/
  | selfTestDone (now engine : Nat) (pass : Bool)
  /-- RESET_ESCALATION. R453: 0 context, 1 engine, 2 partition, 3 function. -/
  | resetEscalation (now kind id : Nat)
  /-- SLOT_QUARANTINE_END. R455. -/
  | slotQuarantineEnd (now slot : Nat)
  /-- ABORT_NOTICE. R463. -/
  | abortNotice (now : Nat) (n : Notice)
  /-- NOTICE_HOLD_EXPIRY. R463. -/
  | noticeHoldExpiry (now job jstep : Nat)
  /-- DERIVED_STEP. R251: a derived step for the member that partition `part` is in the job with handle `job`; `pgen` and `startNo` are those of member 0; the descriptor of `x` is in the terms of this partition (log 28). -/
  | derivedStep (now job jstep pgen startNo part slot base fbBase : Nat) (x : Derived)
  /-- FILL_START. R240. -/
  | fillStart (now part : Nat)
  /-- PEER_PROBE_TIMEOUT. R235. -/
  | peerProbeTimeout (now part pkg : Nat)
  /-- PEER_PROBE. R235: a probe from package `pkg`; `enrolled`: the asker's trust processor answers for the device set. -/
  | peerProbe (now part pkg : Nat) (x : Probe) (enrolled : Bool)
  /-- CHUNK_ARRIVAL. R227; `pkg` 0x1000 is the host backing copy, whose data are the protected frames that hold the chunk (R478). -/
  | chunkArrival (now part pkg chunk : Nat) (x : ChunkData)
  /-- FILL_COMPLETE. R230. -/
  | fillComplete (now part : Nat)
  /-- IMAGE_AUTHENTICATED. R531. -/
  | imageAuthenticated (now : Nat)
  /-- CALIBRATION_DONE. R324: the factor measured. -/
  | calibrationDone (now factor : Nat)
  /-- MBX_READY. R519. -/
  | mbxReady (now : Nat)
  /-- START_TIMEOUT. R520. -/
  | startTimeout (now : Nat)
  /-- FAILED_START_RESET. R520. -/
  | failedStartReset (now : Nat)
  /-- SLEEP_ENTRY. R525. -/
  | sleepEntry (now : Nat)
  /-- WAKE. R526. -/
  | wake (now : Nat) (i3c : Bool)
  /-- FLASH_OPERATION_DONE. R533: the operation ends; `ok`: its verification passes. -/
  | flashOperationDone (now : Nat) (ok : Bool)
  /-- REFCLK_RETURN. R17. -/
  | refclkReturn (now : Nat)
  /-- RAIL_BACK_IN_TOLERANCE. R24. -/
  | railBackInTolerance (now : Nat)
  /-- VDD_AON_LOST. R530. -/
  | vddAonLost
  /-- THERMAL_THROTTLE_ENGAGED. R503. -/
  | thermalThrottleEngaged (now : Nat)
  /-- THERMAL_THROTTLE_RELEASED. R503. -/
  | thermalThrottleReleased (now : Nat)
  /-- HOST_LINK_UP. R376. -/
  | hostLinkUp (now : Nat)
  /-- FLR_COMPLETE. R281. -/
  | flrComplete (now func : Nat)
  /-- FAULT_COLLECTOR_INITIALISED. R22. -/
  | faultCollectorInitialised (now : Nat)
  /-- START_ENTRY_NOT_WRITTEN. R518. -/
  | startEntryNotWritten (now : Nat)
deriving DecidableEq, Repr

end Sys2Proof
end

