-- ==== Sys2Proof/Decode.lean ====
section
/-! DEFINITION. The commands are events at the block's ports: no row of the opcode table gives its words any bits, so no word
spells a command. -/

namespace Sys2Proof

/-- The command that a word spells by the table's bits: none, for every word. -/
def decodeTableWord (_nbits _w : Nat) : Option Instr := none

end Sys2Proof
end

