-- ==== Sys2Proof/Config.lean ====
section
/-! DEFINITION. What the spec fixes by name only or leaves open: uninterpreted constants without a body (log entries 6, 7, 12). -/

namespace Sys2Proof.Config

/-- DESIGN CHOICE (log 6). A value the spec leaves open, drawn with the counter `State.fresh`. -/
opaque freeNat : Nat → Nat

/-- UNVERIFIED (log 7). AES-CMAC with a 256-bit key (R342). -/
opaque aesCmac : BitVec 256 → List Byte → BitVec 128

/-- UNVERIFIED (log 7). SHA-384 (R189, R226, R342, R512). -/
opaque sha384 : List Byte → BitVec 384

/-- UNVERIFIED (log 7). ECDSA P-384 verification: public key, message, signature (R493, R513, R531). -/
opaque ecdsaVerify : List Byte → List Byte → List Byte → Bool

/-- UNVERIFIED (log 7). AES-KW unwrap of a 40-byte wrapped key (R495). -/
opaque aesKwUnwrap : BitVec 256 → List Byte → Option (BitVec 256)

/-- UNVERIFIED (log 7). Unwrap of a set key under ECDH of an ephemeral key and the identity key (R493). -/
opaque enrolUnwrap : List Byte → List Byte → Option (BitVec 256)

/-- UNVERIFIED (log 7). Ephemeral public key and wrapped key that export a key to a tenant's public key (R492). -/
opaque exportWrap : List Byte → BitVec 256 → List Byte

/-- UNVERIFIED (log 7). AES-256-GCM open: key, nonce, additional data, ciphertext, tag (R495). -/
opaque gcmOpen : BitVec 256 → Nat → List Byte → List Byte → List Byte → Option (List Byte)

/-- UNVERIFIED (log 7). AES-256-GCM seal: key, nonce, additional data, plain text; ciphertext and tag (R477). -/
opaque gcmSeal : BitVec 256 → Nat → List Byte → List Byte → List Byte × BitVec 128

/-- UNVERIFIED (log 7). The Jorari life-cycle key whose digest the ROM holds (R513). -/
opaque jorariLcKey : List Byte

/-- UNVERIFIED (log 7). The Jorari firmware key whose digest the ROM holds (R531). -/
opaque jorariFwKey : List Byte

/-- DESIGN CHOICE (log 29). Patch and minor version of the ROM, which `IDENT_FW_VER` holds before an image has authenticated
(R522). -/
opaque romVersion : Nat

/-- UNVERIFIED (log 7). SHA-384 digest of the ROM (R522). -/
opaque romDigest : BitVec 384

/-- DESIGN CHOICE (log 12). The fixed function of R116 before its stated bound is imposed: function number, input. -/
opaque vfnRaw : Nat → BitVec 32 → BitVec 32

end Sys2Proof.Config
end

