-- ==== Sys2Proof/Machine/Bytes.lean ====
section
/-! DEFINITION. Little-endian fields of byte strings, tables, sparse memory and number helpers (R7). -/

namespace Sys2Proof.Machine

/-- The little-endian number of a byte string (R7). -/
def leNat : List Byte → Nat
  | [] => 0
  | b :: bs => b.toNat + 256 * leNat bs

/-- `n` bytes, little-endian (R7). -/
def toLe : Nat → Nat → List Byte
  | 0, _ => []
  | n + 1, v => BitVec.ofNat 8 v :: toLe n (v / 256)

/-- The field of `len` bytes at byte `off`; bytes past the end read zero. -/
def fld (bs : List Byte) (off len : Nat) : Nat := leNat ((bs.drop off).take len)

/-- The bytes at `off`, `len` of them, padded with zero. -/
def slice (bs : List Byte) (off len : Nat) : List Byte :=
  let p := (bs.drop off).take len
  p ++ List.replicate (len - p.length) 0

/-- Every byte of the range is zero. -/
def zeroRange (bs : List Byte) (off len : Nat) : Bool := ((bs.drop off).take len).all (· == 0)

/-- Bits [hi:lo] of a number. -/
def bits (v hi lo : Nat) : Nat := v / 2 ^ lo % 2 ^ (hi + 1 - lo)

/-- Bit `i` of a number. -/
def bitOf (v i : Nat) : Bool := v / 2 ^ i % 2 == 1

/-- Quotient rounded up. -/
def ceilDiv (a b : Nat) : Nat := (a + b - 1) / b

/-- Round up to a multiple. -/
def roundUp (a m : Nat) : Nat := ceilDiv a m * m

/-- Zero padding to a length. -/
def padTo (n : Nat) (bs : List Byte) : List Byte := bs ++ List.replicate (n - bs.length) 0

/-- The entry of a table, if any. -/
def tfind {α : Type} : Tab α → Nat → Option α
  | [], _ => none
  | (k', v) :: t, k => if k = k' then some v else tfind t k

/-- The entry of a table, or the default. -/
def tget {α : Type} (t : Tab α) (k : Nat) (d : α) : α := (tfind t k).getD d

/-- Set an entry, keeping the keys rising. -/
def tput {α : Type} : Tab α → Nat → α → Tab α
  | [], k, v => [(k, v)]
  | (k', v') :: t, k, v =>
    if k < k' then (k, v) :: (k', v') :: t
    else if k = k' then (k, v) :: t
    else (k', v') :: tput t k v

/-- Remove an entry. -/
def tdel {α : Type} : Tab α → Nat → Tab α
  | [], _ => []
  | (k', v') :: t, k => if k = k' then tdel t k else (k', v') :: tdel t k

/-- Apply a function to every entry. -/
def tmap {α : Type} (t : Tab α) (f : Nat → α → α) : Tab α := t.map fun e => (e.1, f e.1 e.2)

/-- One byte of sparse memory; unlisted bytes read zero. -/
def mread : Mem → Nat → Byte
  | [], _ => 0
  | (k, b) :: m, a => if a = k then b else mread m a

/-- Write one byte, keeping the canonical form: rising addresses, no zero byte listed. -/
def mwrite : Mem → Nat → Byte → Mem
  | [], a, v => if v = 0 then [] else [(a, v)]
  | (k, b) :: m, a, v =>
    if a < k then (if v = 0 then (k, b) :: m else (a, v) :: (k, b) :: m)
    else if a = k then (if v = 0 then m else (k, v) :: m)
    else (k, b) :: mwrite m a v

/-- `n` bytes from `a`. -/
def mreadN (m : Mem) (a : Nat) : Nat → List Byte
  | 0 => []
  | n + 1 => mread m a :: mreadN m (a + 1) n

/-- Write bytes from `a` upward. -/
def mwriteN (m : Mem) (a : Nat) : List Byte → Mem
  | [] => m
  | b :: bs => mwriteN (mwrite m a b) (a + 1) bs

/-- Clear the bytes of [a, a + n). -/
def mclear (m : Mem) (a n : Nat) : Mem := m.filter fun c => !(a ≤ c.1 && c.1 < a + n)

/-- The addresses of [a, a + n) that a list names are dropped from it. -/
def dropRange (l : List Nat) (a n : Nat) : List Nat := l.filter fun x => !(a ≤ x && x < a + n)

/-- Strictly rising keys. -/
def rising : List Nat → Bool
  | [] => true
  | [_] => true
  | a :: b :: t => decide (a < b) && rising (b :: t)

/-- The canonical form of sparse memory. -/
def memWf (m : Mem) : Bool := rising (m.map (·.1)) && m.all fun c => c.2 != 0

/-- Insert into a list without repeats. -/
def addNew (l : List Nat) (x : Nat) : List Nat := if x ∈ l then l else l ++ [x]

/-- Sum of a list. -/
def sumNat (l : List Nat) : Nat := l.foldl (· + ·) 0

/-- Greatest of a list, 0 for none. -/
def maxNat (l : List Nat) : Nat := l.foldl max 0

/-- The `i`-th element or a default. -/
def nth {α : Type} (l : List α) (i : Nat) (d : α) : α := l.getD i d

/-- Floor of the base-2 logarithm, 0 for 0. -/
def log2 (n : Nat) : Nat := Nat.log2 n

/-- The first element least under a key. -/
def minBy {α : Type} (key : α → Nat) : List α → Option α
  | [] => none
  | a :: t => match minBy key t with
    | none => some a
    | some b => if key b < key a then some b else some a

end Sys2Proof.Machine
end

