-- ==== Sys2Proof/Machine/Formats.lean ====
section
/-! DEFINITION. The fifteen formats: exact values, decoding, rounding, conversion, block conversion, the random bits
(R91 to R108), and exact arithmetic (R110 to R117). -/

namespace Sys2Proof.Machine

/-- An exact value: a NaN, an infinity, or (−1)^neg × m × 2^e, zero with its sign. -/
inductive Val where
  | nan
  | inf (neg : Bool)
  | num (neg : Bool) (m : Nat) (e : Int)
deriving DecidableEq, Repr

/-- +0 -/
def Val.zero : Val := .num false 0 0

/-- The value is +0 or −0. -/
def Val.isZero : Val → Bool
  | .num _ m _ => m == 0
  | _ => false

/-- The value is neither NaN nor infinite. -/
def Val.finite : Val → Bool
  | .num .. => true
  | _ => false

/-- 2 to a natural part of an exponent. -/
def pow2 (n : Int) : Nat := 2 ^ n.toNat

/-! ### Formats (Table Formats-1, Table Formats-2) -/

/-- Element bits of a format code. -/
def fmtBits : Nat → Nat
  | 0 => 32
  | 1 => 16
  | 2 => 16
  | 5 => 6
  | 6 => 6
  | 7 => 4
  | 9 => 4
  | 10 => 2
  | 12 => 4
  | 14 => 4
  | _ => 8

/-- A block format. -/
def isBlock (c : Nat) : Bool := decide (11 ≤ c ∧ c ≤ 14)

/-- Elements per block, 1 outside block formats. -/
def blockLen (c : Nat) : Nat := if c = 14 then 16 else if isBlock c then 32 else 1

/-- Integer elements. -/
def isInt (c : Nat) : Bool := decide (8 ≤ c ∧ c ≤ 10)

/-- Parameters of a floating-point element encoding: exponent bits, significand bits, bias, greatest finite magnitude code. -/
structure FpFmt where
  e : Nat
  m : Nat
  bias : Int
  maxMag : Nat
  hasInf : Bool
  nan : Option Nat

/-- Table Formats-2. -/
def fpFmt : Nat → FpFmt
  | 0 => ⟨8, 23, 127, 0x7F7FFFFF, true, some 0x7FC00000⟩
  | 1 => ⟨8, 7, 127, 0x7F7F, true, some 0x7FC0⟩
  | 2 => ⟨5, 10, 15, 0x7BFF, true, some 0x7E00⟩
  | 3 => ⟨4, 3, 7, 0x7E, false, some 0x7F⟩
  | 4 => ⟨5, 2, 15, 0x7B, true, some 0x7E⟩
  | 5 => ⟨3, 2, 3, 0x1F, false, none⟩
  | 6 => ⟨2, 3, 1, 0x1F, false, none⟩
  | _ => ⟨2, 1, 1, 0x7, false, none⟩

/-- Decode a floating-point element (R93). -/
def decFp (f : FpFmt) (b : Nat) : Val :=
  let neg := bitOf b (f.e + f.m)
  let mag := b % 2 ^ (f.e + f.m)
  let ex := mag / 2 ^ f.m
  let mn := mag % 2 ^ f.m
  if f.maxMag < mag then (if f.hasInf ∧ mn = 0 then .inf neg else .nan)
  else if ex = 0 then .num neg mn (1 - f.bias - f.m)
  else .num neg (2 ^ f.m + mn) ((ex : Int) - f.bias - f.m)

/-- Two's complement of `n` bits as an integer. -/
def sgn (n b : Nat) : Int := if 2 ^ (n - 1) ≤ b % 2 ^ n then (b % 2 ^ n : Int) - 2 ^ n else b % 2 ^ n

/-- An integer times 2^e. -/
def ofInt (v e : Int) : Val := .num (decide (v < 0)) v.natAbs e

/-- Scale a value by 2^k. -/
def scaleV (k : Int) : Val → Val
  | .num s m e => .num s m (e + k)
  | v => v

/-- Decode element bits of format `c` with its block's scale byte (R93 to R98). -/
def decElem (c b scale : Nat) : Val :=
  match c with
  | 8 => ofInt (sgn 8 b) 0
  | 9 => ofInt (sgn 4 b) 0
  | 10 => ofInt (sgn 2 b) 0
  | 11 => if scale = 255 then .nan else scaleV ((scale : Int) - 127) (decFp (fpFmt 3) b)
  | 12 => if scale = 255 then .nan else scaleV ((scale : Int) - 127) (decFp (fpFmt 7) b)
  | 13 => if scale = 255 then .nan else scaleV ((scale : Int) - 127) (ofInt (sgn 8 b) (-6))
  | 14 => if scale = 128 then .nan else if b % 8 = 0 then .zero
          else .num (bitOf b 3) 1 ((b % 8 : Nat) - 7 + sgn 8 scale)
  | _ => decFp (fpFmt c) b

/-- Decode FP32 bits. -/
def decF32 (b : BitVec 32) : Val := decFp (fpFmt 0) b.toNat

/-! ### Rounding (R99, R100) -/

/-- Round m × 2^e (m over a denominator `d`) to a multiple of 2^q in a mode: 0 nearest even, 1 toward zero, 2 stochastic with
the random value `r`. -/
def roundQ (mode r m d : Nat) (e q : Int) : Nat :=
  let n := if q ≤ e then m * pow2 (e - q) else m
  let den := if q ≤ e then d else d * pow2 (q - e)
  let lo := n / den
  let rem := n % den
  if rem = 0 then lo
  else match mode with
    | 0 => if den < 2 * rem ∨ (2 * rem = den ∧ lo % 2 = 1) then lo + 1 else lo
    | 1 => lo
    | _ => if r < rem * 65536 / den then lo + 1 else lo

/-- Floor of the base-2 logarithm of m × 2^e, m nonzero. -/
def lg (m : Nat) (e : Int) : Int := (log2 m : Int) + e

/-- Magnitude code of k × 2^q in a floating-point format, the exponent unbounded above. -/
def encMag (f : FpFmt) (k : Nat) (q : Int) : Nat :=
  if k = 0 then 0
  else
    let l := lg k q
    if l < 1 - f.bias then k * pow2 (q - (1 - f.bias - f.m))
    else (l + f.bias).toNat * 2 ^ f.m + (k * 2 ^ f.m / 2 ^ log2 k - 2 ^ f.m)

/-- Bits of the conversion status word (Table Formats-5). -/
def nanLost : Nat := 1
def nanBlock : Nat := 2
def infSat : Nat := 4
def ovfSat : Nat := 8
def ovfInf : Nat := 16
def undZero : Nat := 32
def intWrap : Nat := 64

/-- OR of status words. -/
def orS (a b : Nat) : Nat := a ||| b

/-- Convert into a floating-point element format (R99, R104, R105): bits and status. -/
def convFp (f : FpFmt) (mode r : Nat) (sat : Bool) : Val → Nat × Nat
  | .nan => match f.nan with
    | some b => (b, 0)
    | none => (0, nanLost)
  | .inf neg =>
    let s := if neg then 2 ^ (f.e + f.m) else 0
    if f.hasInf then (s + (2 ^ f.e - 1) * 2 ^ f.m, 0) else (s + f.maxMag, infSat)
  | .num neg m e =>
    let s := if neg then 2 ^ (f.e + f.m) else 0
    if m = 0 then (s, 0)
    else
      let q := max (lg m e - f.m) (1 - f.bias - f.m)
      let c := encMag f (roundQ mode r m 1 e q) q
      if c = 0 then (s, undZero)
      else if c ≤ f.maxMag then (s + c, 0)
      else if f.hasInf ∧ !sat ∧ mode ≠ 1 then (s + (2 ^ f.e - 1) * 2 ^ f.m, ovfInf)
      else (s + f.maxMag, ovfSat)

/-- Two's complement bits of an integer. -/
def intBits (n : Nat) (v : Int) : Nat := (v % 2 ^ n).toNat

/-- Saturate an integer to `n` bits. -/
def satInt (n : Nat) (v : Int) : Int × Bool :=
  let hi : Int := 2 ^ (n - 1) - 1
  let lo : Int := -2 ^ (n - 1)
  if hi < v then (hi, true) else if v < lo then (lo, true) else (v, false)

/-- Convert into an integer format of `n` bits (R104, R105). -/
def convInt (n mode r : Nat) : Val → Nat × Nat
  | .nan => (0, nanLost)
  | .inf neg => (intBits n (if neg then -2 ^ (n - 1) else 2 ^ (n - 1) - 1), infSat)
  | .num neg m e =>
    if m = 0 then (0, 0)
    else
      let k := roundQ mode r m 1 e 0
      let v : Int := if neg then -(k : Int) else k
      let (w, clamped) := satInt n v
      (intBits n w, if clamped then ovfSat else if k = 0 then undZero else 0)

/-- Convert into a format without blocks. -/
def convElem (c mode r : Nat) (sat : Bool) (v : Val) : Nat × Nat :=
  if isInt c then convInt (fmtBits c) mode r v else convFp (fpFmt c) mode r sat v

/-! ### Block conversion (R106, R107) -/

/-- |a| < |b| for finite values. -/
def magLt (m : Nat) (e : Int) (m' : Nat) (e' : Int) : Bool :=
  let q := min e e'
  decide (m * pow2 (e - q) < m' * pow2 (e' - q))

/-- The largest magnitude among the finite elements. -/
def amax (vs : List Val) : Nat × Int :=
  vs.foldl (fun a v => match v with
    | .num _ m e => if magLt a.1 a.2 m e then (m, e) else a
    | _ => a) (0, 0)

/-- Clamp to −127 to 127. -/
def clamp127 (x : Int) : Int := max (-127) (min 127 x)

/-- Convert one MX element from v ÷ 2^ex, clamped; whether it was clamped. -/
def mxElem (c mode r : Nat) (ex : Int) (v : Val) : Nat × Bool × Bool :=
  let w := scaleV (-ex) v
  let (b, st) := match c with
    | 11 => convFp (fpFmt 3) mode r true w
    | 12 => convFp (fpFmt 7) mode r true w
    | _ => convInt 8 mode r (scaleV 6 w)
  (b, bitOf st 3, match v with | .inf _ => true | _ => false)

/-- KL4 code of |v| ÷ 2^S (R107); whether it was clamped. -/
def klCode (mode r m : Nat) (e : Int) : Nat × Bool :=
  if m = 0 then (0, false)
  else if magLt 1 0 m e then (7, true)
  else
    let l := lg m e
    if l < -6 then
      let k := roundQ mode r m 1 e (-6)
      (k, false)
    else
      let c := (l + 7).toNat
      let unit := pow2 (l - min e l)
      let rem := m * pow2 (e - min e l) - unit
      let more : Bool := match mode with
        | 0 => decide (unit < 2 * rem ∨ (2 * rem = unit ∧ c % 2 = 1))
        | 1 => false
        | _ => decide (r < rem * 65536 / unit)
      (if more && decide (c < 7) then c + 1 else c, false)

/-- Convert a whole block: scale byte, elements, status. `rs` are the random values of the elements. -/
def convBlock (c mode : Nat) (rs : List Nat) (vs : List Val) : Nat × List Nat × Nat :=
  if vs.any fun v => v == .nan then (if c = 14 then 128 else 255, vs.map fun _ => 0, nanBlock)
  else
    let (am, ae) := amax vs
    if c = 14 then
      let s0 : Int := if am = 0 then -127 else if am = 2 ^ log2 am then lg am ae else lg am ae + 1
      let s := clamp127 s0
      let es := vs.zipIdx.map fun x => match x.1 with
        | .num neg m e =>
          let (k, cl) := klCode mode (nth rs x.2 0) m (e - s)
          (if k = 0 then 0 else k + (if neg then 8 else 0), if cl then ovfSat else 0)
        | .inf neg => (7 + (if neg then 8 else 0), infSat)
        | .nan => (0, 0)
      (intBits 8 s, es.map (·.1), es.foldl (fun a x => orS a x.2) 0)
    else
      let emax : Int := if c = 11 then 8 else if c = 12 then 2 else 0
      let x0 : Int := if am = 0 then -127 else lg am ae - emax
      let x := clamp127 x0
      let es := vs.zipIdx.map fun v =>
        let (b, cl, inf) := mxElem c mode (nth rs v.2 0) x v.1
        (b, if inf then infSat else if cl ∧ 127 < x0 then ovfSat else 0)
      ((x + 127).toNat, es.map (·.1), es.foldl (fun a x => orS a x.2) 0)

/-! ### Random bits (R101, R102) -/

/-- One bit of the sequence: the next 32 bits, next bit in bit 0. -/
def lfsrNext (x : BitVec 32) : BitVec 32 :=
  (x >>> 1) ||| (((x >>> 22) ^^^ (x >>> 2) ^^^ (x >>> 1) ^^^ x) <<< 31)

/-- `n` bits on. -/
def lfsrSkip (x : BitVec 32) : Nat → BitVec 32
  | 0 => x
  | n + 1 => lfsrSkip (lfsrNext x) n

/-- The 16-bit groups of `n` stochastic conversions, and the generator after them. -/
def lfsrGroups (x : BitVec 32) : Nat → List Nat × BitVec 32
  | 0 => ([], x)
  | n + 1 =>
    let (l, y) := lfsrGroups (lfsrSkip x 16) n
    (x.toNat % 65536 :: l, y)

/-! ### Exact arithmetic (R110 to R114) -/

/-- Signed significand at a lower exponent. -/
def sig (neg : Bool) (m : Nat) (e q : Int) : Int := (if neg then -1 else 1) * ((m * pow2 (e - q) : Nat) : Int)

/-- Exact sum. -/
def vAdd : Val → Val → Val
  | .nan, _ => .nan
  | _, .nan => .nan
  | .inf a, .inf b => if a = b then .inf a else .nan
  | .inf a, _ => .inf a
  | _, .inf b => .inf b
  | .num a m e, .num b n f =>
    let q := min e f
    let v := sig a m e q + sig b n f q
    if v = 0 then .num (if m = 0 ∧ n = 0 then a && b else false) 0 0 else ofInt v q

/-- Negation. -/
def vNeg : Val → Val
  | .nan => .nan
  | .inf a => .inf !a
  | .num a m e => .num (!a) m e

/-- Exact product. -/
def vMul : Val → Val → Val
  | .nan, _ => .nan
  | _, .nan => .nan
  | .inf a, .inf b => .inf (a != b)
  | .inf a, .num b m _ => if m = 0 then .nan else .inf (a != b)
  | .num a m _, .inf b => if m = 0 then .nan else .inf (a != b)
  | .num a m e, .num b n f => .num (a != b) (m * n) (e + f)

/-- Order of two values that are not NaN: −0 below +0. -/
def vLt : Val → Val → Bool
  | .inf a, .inf b => a && !b
  | .inf a, _ => a
  | _, .inf b => !b
  | .num a m e, .num b n f =>
    let q := min e f
    let x := sig a m e q
    let y := sig b n f q
    decide (x < y) || (x == y && m == 0 && a && !b)
  | _, _ => false

/-- Equality of values that are not NaN, signed zeros equal. -/
def vEq : Val → Val → Bool
  | .inf a, .inf b => a == b
  | .num a m e, .num b n f => sig a m e (min e f) == sig b n f (min e f)
  | _, _ => false

/-- IEEE 754-2019 minimum and maximum: NaN when either is NaN (R115). -/
def vMin (a b : Val) : Val := if a = .nan ∨ b = .nan then .nan else if vLt b a then b else a
/-- See `vMin`. -/
def vMax (a b : Val) : Val := if a = .nan ∨ b = .nan then .nan else if vLt a b then b else a

/-- Round an exact result into FP32, BF16 or FP16 to nearest, with its status; `ok`: every operand was finite. -/
def roundArith (c : Nat) (ok : Bool) (v : Val) : Nat × Nat :=
  let (b, st) := convFp (fpFmt c) 0 0 false v
  (b, if ok then (st &&& (ovfInf + undZero)) else 0)

/-- FP32 sum to nearest. -/
def addF32 (a b : BitVec 32) : BitVec 32 × Nat :=
  let x := decF32 a
  let y := decF32 b
  let r := roundArith 0 (x.finite && y.finite) (vAdd x y)
  (BitVec.ofNat 32 r.1, r.2)

/-- An exact value rounded to FP32. -/
def toF32 (v : Val) : BitVec 32 := BitVec.ofNat 32 (convFp (fpFmt 0) 0 0 false v).1

/-! ### Functions within 1 unit in the last place (R116, log entry 12) -/

/-- Unit in the last place of an FP32 magnitude code, as a power of two. -/
def ulpExp (mag : Nat) : Int := if mag / 2 ^ 23 = 0 then -149 else (mag / 2 ^ 23 : Int) - 150

/-- a × 2^p ≤ b × 2^q for natural a, b. -/
def leScaled (a : Nat) (p : Int) (b : Nat) (q : Int) : Bool :=
  decide (a * pow2 (p - min p q) ≤ b * pow2 (q - min p q))

/-- 2^(v) ≤ m × 2^e for the dyadic v = k × 2^-j: compared after raising both sides to 2^j. -/
def pow2Le (k : Int) (j m : Nat) (e : Int) : Bool := leScaled 1 k (m ^ 2 ^ j) (e * 2 ^ j)
/-- m × 2^e ≤ 2^(k × 2^-j). -/
def lePow2 (m : Nat) (e k : Int) (j : Nat) : Bool := leScaled (m ^ 2 ^ j) (e * 2 ^ j) 1 k

/-- y lies within one unit in its last place of the exact result of function `fn` (0 exp2, 1 log2, 2 reciprocal, 3 reciprocal
square root) on x, both finite. -/
def within (fn : Nat) (x y : BitVec 32) : Bool :=
  let u := ulpExp (y.toNat % 2 ^ 31)
  match decF32 x, decF32 y with
  | .num xs xm xe, .num ys ym ye =>
    let n := (ym : Int) * pow2 (ye - u)
    let n := if ys then -n else n
    match fn with
    | 0 =>
      let k := if xs then -(xm : Int) else xm
      let j := (-xe).toNat
      let k := k * pow2 xe
      !ys && (decide (n ≤ 1) || lePow2 (n - 1).toNat u k j) && pow2Le k j (n + 1).toNat u
    | 1 =>
      let j := (-u).toNat
      pow2Le ((n - 1) * pow2 u) j xm xe && lePow2 xm xe ((n + 1) * pow2 u) j
    | 2 =>
      xs == ys && (decide (n.natAbs ≤ 1) || leScaled ((n.natAbs - 1) * xm) (u + xe) 1 0)
        && leScaled 1 0 ((n.natAbs + 1) * xm) (u + xe)
    | _ =>
      !ys && (decide (n ≤ 1) || leScaled ((n - 1).toNat ^ 2 * xm) (2 * u + xe) 1 0)
        && leScaled 1 0 ((n + 1).toNat ^ 2 * xm) (2 * u + xe)
  | _, _ => false

/-- The fixed function: the hardware's own result, any value within the bound (R116). -/
def fnFree (fn : Nat) (x : BitVec 32) : BitVec 32 :=
  let y := Config.vfnRaw fn x
  if within fn x y then y
  else BitVec.ofNat 32 (((List.range (2 ^ 32)).find? fun k => within fn x (BitVec.ofNat 32 k)).getD 0)

/-- ±infinity and ±0 as FP32. -/
def f32Inf (neg : Bool) : BitVec 32 := if neg then 0xFF800000 else 0x7F800000
/-- See `f32Inf`. -/
def f32Zero (neg : Bool) : BitVec 32 := if neg then 0x80000000 else 0

/-- exp2, log2, reciprocal and reciprocal square root with the special cases of R116; the status word's bits. -/
def vecFn (fn : Nat) (x : BitVec 32) : BitVec 32 × Nat :=
  match decF32 x with
  | .nan => (0x7FC00000, 0)
  | .inf neg =>
    (match fn with
     | 0 => if neg then f32Zero false else f32Inf false
     | 1 => if neg then 0x7FC00000 else f32Inf false
     | 2 => f32Zero neg
     | _ => if neg then 0x7FC00000 else f32Zero false, 0)
  | .num neg m e =>
    if m = 0 then
      (match fn with
       | 0 => (0x3F800000, 0)
       | 1 => (f32Inf true, ovfInf)
       | 2 => (f32Inf neg, ovfInf)
       | _ => (f32Inf neg, ovfInf))
    else match fn with
      | 0 =>
        if !neg && !(magLt m e 128 0) then (f32Inf false, ovfInf)
        else if neg && magLt 150 0 m e then (f32Zero false, 0)
        else (fnFree fn x, 0)
      | 1 => if neg then (0x7FC00000, 0) else (fnFree fn x, 0)
      | 2 => if magLt m e 1 (-128) || (m == 2 ^ log2 m && lg m e == -128) then (f32Inf neg, ovfInf) else (fnFree fn x, 0)
      | _ => if neg then (0x7FC00000, 0) else (fnFree fn x, 0)

/-- K elements that a tile takes per cycle of a format's class (Table Tile-2). -/
def classDepth (c : Nat) : Nat := if c = 0xA then 4 else if c = 0x7 ∨ c = 0x9 ∨ c = 0xC ∨ c = 0xE then 2 else 1

end Sys2Proof.Machine
end

