-- ==== Sys2Proof/Machine/State.lean ====
section
/-! DEFINITION. The state of the block as plain data, its faults and refusals, and the state at reset. Each field names the
chapter and rule of the spec that gives it; INVENTORY.md lists them with their reset values. -/

namespace Sys2Proof.Machine

/-- The three variants of R3. -/
inductive Variant where
  | rv9 | rv9h | rv9e
deriving DecidableEq, Repr

/-- The machine stops with a fault. No command of this block raises one: the spec gives every command an effect. -/
inductive Fault where
  /-- A command named a port, tile or die that the variant does not have, so that no such event can come about; raised by
  no meaning at present. Safe. -/
  | absentUnit
deriving DecidableEq, Repr

/-- The machine refuses a command. -/
inductive Refusal where
  /-- The command has no meaning yet; raised by `exec` alone. Safe. -/
  | notModelled (mnemonic : String)
deriving DecidableEq, Repr

/-- One of the 16 whorl comparators (Table Fabric-6). -/
structure Cmp where
  /-- value in whorl ticks (11 R402 Table Fabric-6 WHL_CMP_LO/HI) -/
  value : Nat := 0
  /-- armed (11 R402) -/
  armed : Bool := false
  /-- whorl time has reached the value since arming (11 R402) -/
  fired : Bool := false
  /-- firing asserts WAKE_N (11 R402) -/
  wake : Bool := false
deriving DecidableEq, Repr

/-- Sync state of one link port (R396, R397). -/
structure PortSync where
  /-- this port's sync message count (11 R397) -/
  seq : Nat := 0
  /-- send times of this port's messages by sequence number, newest first (11 R396 R397) -/
  sends : List (Nat × Option Nat) := []
  /-- local arrival time of the neighbour's latest sync message (11 R397) -/
  arrival : Option Nat := none
  /-- sequence number of that message (11 R397) -/
  arrSeq : Nat := 0
  /-- latest local arrival minus the neighbour's send time (11 R396) -/
  tA : Option Int := none
  /-- whorl time of the last valid sync message (11 R401) -/
  lastValid : Nat := 0
  /-- the neighbour is synced (11 R398) -/
  nbSynced : Bool := false
  /-- the neighbour's depth (11 R398) -/
  nbDepth : Nat := 0
  /-- the neighbour's package number (11 R398) -/
  nbPkg : Nat := 0
deriving DecidableEq, Repr

/-- The always-on domain: pins, whorl time base, stop chain, sleep marker. -/
structure Aon where
  /-- VDD_AON and VDD_AON_IO in regulation (01 R16 Table Boundary-2) -/
  railsOk : Bool := true
  /-- REFCLK running (01 R13 R17) -/
  refclk : Bool := true
  /-- PWR_GOOD level (01 R13 Table Boundary-3 column A) -/
  pwrGood : Bool := false
  /-- AON_RESET_N level (01 R13 Table Boundary-3 column A) -/
  aonResetN : Bool := false
  /-- BLK_RESET_N level (01 R13 Table Boundary-3 column A) -/
  blkResetN : Bool := false
  /-- STOP_IN_N level (01 R13) -/
  stopInN : Bool := true
  /-- STOP_OUT_N level (01 R25 Table Boundary-5) -/
  stopOutN : Bool := true
  /-- SECALM_N level (01 R25 Table Boundary-5) -/
  secalmN : Bool := true
  /-- whorl time of the latest failed tag (14 R504) -/
  secalmAt : Option Nat := none
  /-- TRAY_PWR_REQ_N level (01 R26) -/
  trayReqN : Bool := true
  /-- WAKE_N level (15 R526) -/
  wakeN : Bool := true
  /-- whorl time at which REFCLK last started (01 R17) -/
  refclkSince : Nat := 0
  /-- whorl time at which PWR_GOOD last rose (01 R24) -/
  pwrGoodSince : Nat := 0
  /-- whorl time at which a tripped rail last returned to tolerance (01 R24) -/
  railBackSince : Nat := 0
  /-- a monitored rail is out of tolerance (01 R24) -/
  railTripped : Bool := false
  /-- whorl time at which the running block reset's 100 ms starts to count (13 R452) -/
  blkHighSince : Nat := 0
  /-- PWR_GOOD fell while BLK_RESET_N was high: it must have been high for 100 us (01 R24) -/
  pwrHold : Bool := false
  /-- the main domain waits for BLK_RESET_N to be asserted and released (01 R17 R24) -/
  needBlkCycle : Bool := false
  /-- BLK_RESET_N rose while PWR_GOOD was low (01 R24) -/
  pend902 : Bool := false
  /-- whorl count at the release of AON_RESET_N (11 R398) -/
  aonSince : Nat := 0
  /-- whorl time in ns (11 R402 WHL_TIME) -/
  whorl : Nat := 0
  /-- count held until the parent's time reaches it (11 R399) -/
  whorlHold : Option Nat := none
  /-- whorl time has been adopted or the epoch started (11 R399) -/
  adopted : Bool := false
  /-- synced (11 R402 WHL_STATUS) -/
  synced : Bool := false
  /-- this package is the root (11 R402 WHL_STATUS) -/
  root : Bool := false
  /-- in holdover (11 R402 WHL_STATUS) -/
  holdover : Bool := false
  /-- whorl time at which holdover began (11 R401) -/
  holdSince : Nat := 0
  /-- the holdover is one of a REFCLK loss (01 R17) -/
  holdFree : Bool := false
  /-- hops to the root (11 R402 WHL_STATUS) -/
  depth : Nat := 0
  /-- parent port (11 R402 WHL_STATUS) -/
  parentPort : Nat := 7
  /-- last measured offset, 1/16 ns (11 R402 WHL_OFFSET) -/
  offset16 : Int := 0
  /-- growth of the bound in this holdover before `holdSince`, in ns (01 R17, 11 R401) -/
  bound : Nat := 0
  /-- latched high half of whorl time (11 R402 WHL_TIME_HI) -/
  timeHi : Nat := 0
  /-- comparators (11 R402 R403) -/
  cmps : Tab Cmp := []
  /-- sync state of the link ports (11 R396) -/
  sync : Tab PortSync := []
  /-- outstanding sync message: port and hand-over time (01 R19, 11 R396) -/
  outstanding : Option (Nat × Nat) := none
  /-- time of the last accepted WHORL_SYNC edge (01 R18) -/
  lastEdge : Option Nat := none
  /-- torus coordinates and ring sizes (11 R378) -/
  coords : Option (Nat × Nat × Nat × Nat × Nat × Nat) := none
  /-- the sleep marker (15 R525 sleep marker) -/
  asleep : Bool := false
  /-- the retention SRAM holds the sealed keys and block tables (15 R525) -/
  retention : Bool := false
  /-- firmware digest in force at sleep entry (held as the image it is a digest of) (15 R527) -/
  sleepImage : List Byte := []
  /-- an in-band interrupt has been raised and not read; no command reads it (01 R38 R39) -/
  vmonBoot : Bool := false
deriving DecidableEq, Repr

/-- One armed fault injection (R439). -/
structure Inject where
  /-- unit (12 R439) -/
  unit : Nat := 0
  /-- checker number (12 R439) -/
  checker : Nat := 0
  /-- checks left (12 R439) -/
  events : Nat := 0
  /-- engine whose checker took the first event (12 R439) -/
  engine : Option Nat := none
deriving DecidableEq, Repr

/-- A contained fault not yet contained (R421). -/
structure OpenFault where
  /-- unit (12 R421) -/
  unit : Nat := 0
  /-- engine identifier of R322, or 0xFFF (12 R421) -/
  engine : Nat := 0
deriving DecidableEq, Repr

/-- The record of a fault of a tile for one skein there (05 R174). -/
structure FaultRec where
  /-- code (05 R174) -/
  code : BitVec 16 := 0
  /-- tile (02 R42) -/
  engine : Nat := 0
  /-- step slot (05 R174) -/
  slot : Nat := 0
  /-- skein (05 R174) -/
  skein : Nat := 0
  /-- layer identifier (05 R174) -/
  layer : Nat := 0
  /-- operator identifier (05 R174) -/
  operator : Nat := 0
deriving DecidableEq, Repr

/-- The fault collector (Table Faults-3). -/
structure Collector where
  /-- uncleared contained or fatal fault per unit (12 R422 FLT_STATUS) -/
  status : BitVec 64 := 0
  /-- fatal fault per unit (12 R422 FLT_FATAL) -/
  fatal : BitVec 64 := 0
  /-- codes, newest first (12 R419 FLT_LOG) -/
  log : List (BitVec 16) := []
  /-- records of faults of tiles, oldest first (05 R174) -/
  recs : List FaultRec := []
  /-- corrected counts (12 R420 FLT_CORR) -/
  corr : Tab Nat := []
  /-- egress freeze (12 R422 FLT_STATE) -/
  freeze : Bool := false
  /-- block reset counting down (12 R422 FLT_STATE) -/
  resetPending : Bool := false
  /-- whorl time of the first fatal latch (12 R432) -/
  fatalAt : Nat := 0
  /-- its code (12 R432) -/
  fatalCode : BitVec 16 := 0
  /-- last passing check of the exposed item (12 R422 FLT_EXPOSURE) -/
  exposure : Nat := 0
  /-- exp_unit (12 R422) -/
  expUnit : Nat := 0
  /-- exp_engine (12 R422) -/
  expEngine : Nat := 0
  /-- the collector has initialised (01 R22) -/
  init : Bool := false
  /-- whorl time of the newest entry of the log (12 R441) -/
  tickAt : Nat := 0
  /-- entries of the log made in that tick (12 R441) -/
  tickLen : Nat := 0
  /-- reports that came before the collector was ready (12 R441) -/
  early : List Report := []
  /-- whorl time of the last service (12 R428) -/
  watchdog : Nat := 0
  /-- whorl time at which a unit's pin test was asked (12 R426) -/
  pinTest : Tab Nat := []
  /-- whorl time of a unit's last passing pin test (12 R429) -/
  pinPass : Tab Nat := []
  /-- whorl time of a checker's last passing exercise (12 R425) -/
  exercised : Tab Nat := []
  /-- whorl time of an analogue item's last check (12 R427) -/
  analogue : Tab Nat := []
  /-- contained faults not yet contained (12 R421) -/
  openFaults : List OpenFault := []
  /-- armed injections (12 R439) -/
  inject : List Inject := []
  /-- whorl millisecond in which 0x6702 was last recorded (10 R360) -/
  refusedMs : Option Nat := none
deriving DecidableEq, Repr

/-- VDD_TILE of one compute die (R20, R585). -/
structure DieRail where
  /-- confirmed level (02 R585) -/
  level : Option Nat := none
  /-- requested level not yet confirmed (01 R20) -/
  request : Option Nat := none
  /-- whorl time of the request (01 R33) -/
  requestAt : Nat := 0
  /-- the one retry has been made (01 R33) -/
  retried : Bool := false
deriving DecidableEq, Repr

/-- One used slot of the life-cycle record (R508). -/
structure LcSlot where
  /-- state_word (15 R508) -/
  word : List Byte := []
  /-- start_no (15 R508) -/
  startNo : Nat := 0
deriving DecidableEq, Repr

/-- One start-log entry (R517). -/
structure StartEntry where
  /-- start_no (15 R517) -/
  startNo : Nat := 0
  /-- its complement (15 R517) -/
  comp : Nat := 0
  /-- done (15 R517) -/
  done : Nat := 255
  /-- fail_cause (15 R517) -/
  cause : Nat := 255
deriving DecidableEq, Repr

/-- One device-set key slot (R475). -/
structure DevSet where
  /-- set_id (14 R493) -/
  setId : Nat := 0
  /-- set key (14 R475) -/
  key : BitVec 256 := 0
deriving DecidableEq, Repr

/-- A flash operation whose request waits for it (R515, R533, R534). -/
structure FlashJob where
  /-- 0 LC_TRANSITION, 1 FW_UPDATE, 2 FW_RECOVER (15 R515 R533 R534) -/
  kind : Nat := 0
  /-- requesting function (15 R515) -/
  func : Nat := 0
  /-- it came through the boot mailbox (15 R515) -/
  boot : Bool := false
  /-- tag of the request (09 R339) -/
  tag : Nat := 0
  /-- opcode of the request (09 R339) -/
  opcode : Nat := 0
  /-- target state of a transition (15 R513) -/
  target : Nat := 0
  /-- the image to write (15 R533) -/
  image : List Byte := []
  /-- owner credential to write (15 R513) -/
  owner : List Byte := []
deriving DecidableEq, Repr

/-- Flash, life cycle and start-up. -/
structure Life where
  /-- used slots of the life-cycle record (15 R508) -/
  slots : List LcSlot := []
  /-- svn_floor (15 R508) -/
  svnFloor : Nat := 0
  /-- the start log, sectors A and B, oldest entry first (15 R517) -/
  sectors : List (List StartEntry) := [[], []]
  /-- owner credential (15 R507 key region) -/
  ownerCred : List Byte := []
  /-- the identity key is held (15 R514 key region) -/
  hasIdentity : Bool := false
  /-- the identity certificate is installed (15 R514 key region) -/
  hasCert : Bool := false
  /-- device-set keys (14 R475, 15 R507 user region) -/
  devsets : Tab DevSet := []
  /-- firmware image area (15 R507) -/
  image : List Byte := []
  /-- the image that this start authenticated (15 R531) -/
  runImage : List Byte := []
  /-- unit identity (15 R539 LCS_UNIT_ID) -/
  unitId : Nat := 0
  /-- life-cycle state code (15 R505 LCS.state) -/
  lc : Nat := 0
  /-- slot of the last valid state (15 R510) -/
  lastValid : Option Nat := none
  /-- state of the last valid slot (15 R539 prior_state) -/
  priorState : Nat := 0
  /-- cause (15 R523 BOOT_REASON) -/
  cause : Nat := 0
  /-- minimal mode (15 R523 BOOT_REASON) -/
  minimal : Bool := false
  /-- minimal_why (15 R523 BOOT_REASON) -/
  minWhy : Nat := 0
  /-- fault code (15 R523 BOOT_REASON) -/
  code : BitVec 16 := 0
  /-- fails (15 R523 BOOT_FAILS) -/
  fails : Nat := 0
  /-- last_fail (15 R523 BOOT_FAILS) -/
  lastFail : Nat := 0
  /-- this start's number (15 R517) -/
  startNo : Nat := 0
  /-- cause the next start will report (15 R523) -/
  nextCause : Nat := 0
  /-- code the next start will report (15 R523) -/
  nextCode : BitVec 16 := 0
  /-- whorl time of the release of BLK_RESET_N (15 R520) -/
  startAt : Nat := 0
  /-- fail_cause of a start that has failed (15 R520) -/
  startFailed : Option Nat := none
  /-- whorl time of the failure (15 R520) -/
  failedAt : Nat := 0
  /-- a start is under way (15 R520) -/
  starting : Bool := false
  /-- the start under way is a warm start (15 R527) -/
  warm : Bool := false
  /-- the start entry has been written and verified (15 R518) -/
  entryWritten : Bool := false
  /-- the firmware image has authenticated (15 R531) -/
  authOk : Bool := false
  /-- calibration has ended (08 R324) -/
  calibrated : Bool := false
  /-- the start-up self-test has ended (15 R535) -/
  bistDone : Bool := false
  /-- spindle firmware takes requests (09 R331 MBX ready) -/
  ready : Bool := false
  /-- firmware version register (09 R353 IDENT_FW_VER) -/
  fwVer : Nat := 0
  /-- flash operation in progress (15 R515 R533) -/
  flashJob : Option FlashJob := none
  /-- the flash gave no answer (01 R33) -/
  flashTimedOut : Bool := false
  /-- whorl time at which a scheduled block reset begins (13 R451, 15 R515) -/
  resetAt : Option Nat := none
  /-- cause of the scheduled block reset (15 R523) -/
  resetCause : Nat := 0
  /-- function and tag of the block self-test that BIST_RUN asked (15 R538) -/
  bistTag : Option (Nat × Nat) := none
  /-- busy (15 R539 BST_STATUS) -/
  bistBusy : Bool := false
  /-- pass (15 R539 BST_STATUS) -/
  bistPass : Bool := false
  /-- engine (15 R539 BST_STATUS) -/
  bistEngine : Nat := 0
  /-- tiles withdrawn by the start-up test (15 R539 BST_START) -/
  tilesWithdrawn : Nat := 0
  /-- granules made unusable at start (15 R539 BST_START) -/
  granulesBad : Nat := 0
  /-- analogue rotations completed (15 R539 BST_ROTATIONS) -/
  rotations : Nat := 0
  /-- longest rotation in us (15 R539 BST_ROT_MAX) -/
  rotMax : Nat := 0
  /-- whorl time at which a die's running rotation began (15 R537) -/
  rotStart : Tab Nat := []
  /-- slices made of a die's running rotation (15 R537) -/
  rotSlice : Tab Nat := []
  /-- calibration factor of the energy model (08 R324) -/
  energyFactor : Nat := 0
  /-- instruction held by the TAP (01 R35 R36) -/
  tapInstr : Nat := 0
  /-- host key (14 R475) -/
  hostKey : BitVec 256 := 0
  /-- an attestation key exists (14 R475) -/
  attestKey : Bool := false
  /-- the PF mailbox key has been fetched (14 R491) -/
  pfKeyFetched : Bool := false
  /-- SPDM session: 0 none, 1 KEY_EXCHANGE made, 2 PSK_EXCHANGE made, 3 owner session open, 4 factory session open (14 R491, 15 R506) -/
  session : Nat := 0
  /-- used slots of the record as the start decoded it (15 R539) -/
  slotsUsed : Nat := 0
  /-- version counter of protected lines (14 R479) -/
  lineVersion : Nat := 0
deriving DecidableEq, Repr

/-- A response due to a function (Table Mailbox-2). -/
structure Rsp where
  /-- opcode (09 R339) -/
  opcode : Nat := 0
  /-- tag (09 R339) -/
  tag : Nat := 0
  /-- critical bit copied (09 R339) -/
  critical : Bool := false
  /-- status (09 R339) -/
  status : BitVec 16 := 0
  /-- detail (09 R339) -/
  detail : BitVec 64 := 0
  /-- inline payload (09 R339) -/
  payload : List Byte := []
  /-- bytes written to the extended output buffer (09 R341) -/
  ext : List Byte := []
  /-- it answers a boot mailbox message (09 R337) -/
  boot : Bool := false
  /-- a read-back must complete first (10 R367) -/
  waits : Bool := false
deriving DecidableEq, Repr

/-- A request taken and not yet answered (R335). -/
structure Taken where
  /-- tag (09 R335) -/
  tag : Nat := 0
  /-- opcode (09 R335) -/
  opcode : Nat := 0
  /-- critical bit (09 R335) -/
  critical : Bool := false
  /-- boot mailbox message (09 R337) -/
  boot : Bool := false
deriving DecidableEq, Repr

/-- An event entry (Table Host-5). -/
structure Entry where
  /-- cookie (10 R365) -/
  cookie : BitVec 64 := 0
  /-- handle (10 R365) -/
  handle : Nat := 0
  /-- seq (10 R365) -/
  seq : Nat := 0
  /-- queue (10 R365) -/
  queue : Nat := 0
  /-- status (10 R365) -/
  status : BitVec 16 := 0
  /-- conversion status word (10 R365) -/
  conv : BitVec 8 := 0
  /-- wait fence statuses (10 R365) -/
  waits : Nat := 0
  /-- flag late (10 R365) -/
  late : Bool := false
  /-- flag fallback (10 R365) -/
  fallback : Bool := false
  /-- flag held (10 R365) -/
  held : Bool := false
  /-- flag redelivered (10 R365) -/
  redelivered : Bool := false
  /-- 1 step, 2 fence, 3 queue error, 4 hang, 5 attach (10 R365) -/
  kind : Nat := 0
  /-- phase (10 R365) -/
  phase : Bool := false
  /-- whorl time of writing or holding (10 R365) -/
  posted : Nat := 0
  /-- step slot whose completion this entry is (10 R364) -/
  slot : Option Nat := none
  /-- a read-back must complete before it is written (10 R367) -/
  waitsRb : Bool := false
  /-- the fence's own vector (10 R366) -/
  fenceVec : Nat := 0xFFFF
deriving DecidableEq, Repr

/-- A function: the PF (0) or a VF (Tables Mailbox-1 and Host-4). -/
structure Func where
  /-- the function exists (10 R356) -/
  enabled : Bool := false
  /-- function generation (07 R279 func_gen) -/
  gen : Nat := 0
  /-- an FLR is in progress (07 R281) -/
  inFlr : Bool := false
  /-- partitions whose object parts the FLR clears (14 R500) -/
  flrParts : List Nat := []
  /-- MBX_REQ_BASE (09 R331) -/
  reqBase : BitVec 64 := 0
  /-- MBX_RSP_BASE (09 R331) -/
  rspBase : BitVec 64 := 0
  /-- MBX enable (09 R331) -/
  enable : Bool := false
  /-- log2_entries (09 R331) -/
  log2 : Nat := 4
  /-- rsp_vector (09 R331) -/
  rspVector : Nat := 0
  /-- request tail (09 R331) -/
  tail : Nat := 0
  /-- rsp_head (09 R331) -/
  rspHead : Nat := 0
  /-- req_head (09 R331) -/
  reqHead : Nat := 0
  /-- responses written (09 R334) -/
  rspCount : Nat := 0
  /-- enable has been written 0 and responses are due (09 R332) -/
  disabling : Bool := false
  /-- overrun (09 R331) -/
  overrun : Bool := false
  /-- exhausted (09 R331) -/
  exhausted : Bool := false
  /-- auth_fails (09 R331) -/
  authFails : Nat := 0
  /-- last accepted critical counter (09 R331 MBX_CTR_LAST) -/
  ctrLast : Nat := 0
  /-- mailbox key (14 R475) -/
  key : BitVec 256 := 0
  /-- the key before the last export, with the whorl time of that export (14 R504) -/
  oldKey : Option (Nat × BitVec 256) := none
  /-- boot mailbox (missing bytes read 0) (09 R331 MBX_BOOT) -/
  boot : List Byte := []
  /-- busy (09 R331) -/
  bootBusy : Bool := false
  /-- done (09 R331) -/
  bootDone : Bool := false
  /-- requests taken and not answered (09 R335) -/
  taken : List Taken := []
  /-- responses due, oldest first (09 R334) -/
  rsps : List Rsp := []
  /-- event ring base (10 R363 EVT_BASE) -/
  evtBase : BitVec 64 := 0
  /-- ring in use (10 R363) -/
  evtEnable : Bool := false
  /-- log2 of the entry count (10 R363) -/
  evtLog2 : Nat := 0
  /-- ring vector (10 R363) -/
  evtVector : Nat := 0
  /-- detached (10 R363) -/
  detached : Bool := false
  /-- entries written (10 R363 EVT_TAIL) -/
  evtTail : Nat := 0
  /-- entries consumed (10 R363 EVT_HEAD) -/
  evtHead : Nat := 0
  /-- whorl time at which the ring was last set (17 R584) -/
  evtSetAt : Option Nat := none
  /-- entries due, oldest first (10 R364) -/
  evtQueue : List Entry := []
  /-- held list, oldest first (10 R371) -/
  evtHeld : List Entry := []
  /-- entries written and not yet confirmed by a read-back, each with its time of writing (10 R371) -/
  evtRecent : List (Nat × Entry) := []
  /-- the ring vector is due (10 R366) -/
  evtVectorDue : Bool := false
  /-- whorl time of the last ring vector (10 R366) -/
  evtVectorAt : Nat := 0
deriving DecidableEq, Repr

/-- A context number (R282) with its accounting record (Table Scheduling-5). -/
structure Ctx where
  /-- generation (07 R282) -/
  gen : Nat := 0
  /-- partition that holds it (07 R282) -/
  part : Option Nat := none
  /-- a draining destroy is in progress (07 R285) -/
  draining : Bool := false
  /-- function and tag of that destroy (07 R285) -/
  drainTag : Option (Nat × Nat) := none
  /-- steps posted (08 R323) -/
  steps : Nat := 0
  /-- wait_ns (08 R323) -/
  waitNs : Nat := 0
  /-- run_ns (08 R323) -/
  runNs : Nat := 0
  /-- engine_ns (08 R323) -/
  engineNs : Nat := 0
  /-- bytes (08 R323) -/
  bytes : Nat := 0
  /-- energy_pj (08 R323) -/
  energy : Nat := 0
  /-- preemptions (08 R323) -/
  preempt : Nat := 0
  /-- fallbacks (08 R323) -/
  fallbacks : Nat := 0
  /-- late (08 R323) -/
  late : Nat := 0
  /-- placement log enabled (06 R221) -/
  logOn : Bool := false
  /-- log object handle (06 R221) -/
  logObj : Nat := 0
  /-- log capacity (06 R222) -/
  logCap : Nat := 0
  /-- records written (06 R222) -/
  logWritten : Nat := 0
deriving DecidableEq, Repr

/-- An HBM intermediate in its place (R215). -/
structure InterPlace where
  /-- tensor index (06 R215) -/
  tensor : Nat := 0
  /-- object-space offset (06 R215) -/
  base : Nat := 0
  /-- length (06 R215) -/
  bytes : Nat := 0
  /-- where its share of the reservation lay (07 R283) -/
  share : Nat := 0
deriving DecidableEq, Repr

/-- A 64-byte line that a die cache holds (R268). -/
structure CacheLine where
  /-- way of the die (07 R267) -/
  way : Nat
  /-- number of the line of cells (07 R268) -/
  line : Nat
  /-- written since it came from HBM (10 R362) -/
  dirty : Bool := false
deriving DecidableEq, Repr

/-- A read request out on a pseudo-channel port (R31). -/
structure HbmRead where
  /-- port (01 R29 R31) -/
  port : Nat
  /-- 8-bit tag (01 R31) -/
  tag : Nat
  /-- line of the port (01 R31) -/
  line : Nat
deriving DecidableEq, Repr

/-- Object space reserved for a context and program (R283). -/
structure Reservation where
  /-- context number (07 R283) -/
  ctx : Nat := 0
  /-- its generation (07 R283) -/
  ctxGen : Nat := 0
  /-- program index (07 R283) -/
  prog : Nat := 0
  /-- object-space offset (07 R283) -/
  base : Nat := 0
  /-- length (07 R283) -/
  bytes : Nat := 0
  /-- torn down, waiting for quarantine (07 R283) -/
  leaving : Bool := false
  /-- HBM intermediates that have been placed (06 R215) -/
  placed : List InterPlace := []
deriving DecidableEq, Repr

/-- A memory object (R286, R287). -/
structure MemObj where
  /-- allocated (07 R286) -/
  live : Bool := false
  /-- generation of the index (07 R287) -/
  gen : Nat := 0
  /-- creating context number (07 R286) -/
  ctx : Nat := 0
  /-- its generation (07 R286) -/
  ctxGen : Nat := 0
  /-- object-space offset (07 R286) -/
  base : Nat := 0
  /-- length (07 R286) -/
  bytes : Nat := 0
  /-- scope (07 R286) -/
  shared : Bool := false
  /-- host_map (07 R286) -/
  hostMap : Bool := false
  /-- FREEING (07 R289) -/
  freeing : Bool := false
  /-- pages in host bias (10 R361) -/
  pages : List Nat := []
  /-- the trace holds a reference (16 R549) -/
  traceRef : Bool := false
  /-- function and tag of an allocation whose zero-fill runs (09 R349) -/
  zeroTag : Option (Nat × Nat) := none
deriving DecidableEq, Repr

/-- A fence (R290, R291). -/
structure Fence where
  /-- allocated (07 R290) -/
  live : Bool := false
  /-- generation of the index (07 R287) -/
  gen : Nat := 0
  /-- owning context number (07 R290) -/
  ctx : Nat := 0
  /-- its generation (07 R290) -/
  ctxGen : Nat := 0
  /-- cookie (07 R290) -/
  cookie : BitVec 64 := 0
  /-- vector (07 R290) -/
  vector : Nat := 0
  /-- timeout in us (07 R290) -/
  timeout : Nat := 0
  /-- scope (07 R290) -/
  shared : Bool := false
  /-- host (07 R290) -/
  host : Bool := false
  /-- status once SIGNALLED (07 R291) -/
  status : Option Nat := none
  /-- freed once no step waits on it (07 R294) -/
  freeing : Bool := false
deriving DecidableEq, Repr

/-- A loaded program (R206 to R208). -/
structure Program where
  /-- loaded (05 R208) -/
  live : Bool := false
  /-- generation of the index (09 R347) -/
  gen : Nat := 0
  /-- references (05 R208) -/
  refs : Nat := 0
  /-- the validated file (05 R161) -/
  upf : Upf.File := {}
  /-- index of the bound fallback (05 R184) -/
  fallback : Option Nat := none
  /-- save_bytes (07 R283) -/
  saveBytes : Nat := 0
  /-- lowered bytes (05 R202) -/
  lowered : Nat := 0
  /-- job index (06 R247) -/
  job : Option Nat := none
  /-- function and tag of a load in progress (05 R209) -/
  loading : Option (Nat × Nat) := none
  /-- derived cheap points, each as the last skein before it (05 R181, 06 R219) -/
  derived : List Nat := []
  /-- placement records in force (06 R216) -/
  hints : List Hint := []
  /-- staged placement records (06 R219) -/
  staged : Option (List Hint) := none
deriving DecidableEq, Repr

/-- A catalogue entry (R223, R228, R230). -/
structure Bobbin where
  /-- the entry exists (06 R228) -/
  live : Bool := false
  /-- the bobbin image (06 R224) -/
  image : List Byte := []
  /-- digest (06 R226) -/
  digest : BitVec 384 := 0
  /-- size (06 R223) -/
  bytes : Nat := 0
  /-- 0 ABSENT, 1 FETCHING, 2 RESIDENT (06 R230) -/
  state : Nat := 0
  /-- pinned (06 R244) -/
  pinned : Bool := false
  /-- last fill: 0 install, 1 peer, 2 backing copy (06 R223) -/
  source : Nat := 0
  /-- peer_share (06 R228) -/
  peerShare : Bool := false
  /-- backing copy valid (06 R239) -/
  backing : Bool := false
  /-- start number the backing copy carries (06 R239) -/
  backStart : Nat := 0
  /-- device set (14 R495) -/
  setId : Nat := 0
  /-- peers being served (06 R237) -/
  serving : List Nat := []
  /-- last use (06 R241) -/
  lastUse : Nat := 0
  /-- removed once its references drop (14 R494) -/
  removing : Bool := false
  /-- function and tag of the install in progress (06 R228) -/
  installing : Option (Nat × Nat) := none
  /-- arrival order of its fetch request (06 R240) -/
  wanted : Nat := 0
  /-- place of each chunk in the store: the partition's granule and the offset in its store part (06 R214) -/
  places : Tab (Nat × Nat) := []
  /-- digest of the bobbin of which it is a shard (06 R249) -/
  parent : Option (BitVec 384) := none
  /-- chunks of a shard (06 R248) -/
  chunks : List Nat := []
  /-- its maps or metadata failed the check (04 R132) -/
  bad : Bool := false
  /-- first frame of its backing copy (14 R482) -/
  backFrame : Nat := 0
deriving DecidableEq, Repr

/-- The fill a partition runs (R240). -/
structure Fill where
  /-- catalogue index (06 R240) -/
  bobbin : Nat := 0
  /-- chunks come from the backing copy (06 R234) -/
  backing : Bool := false
  /-- peers that have not answered (06 R235) -/
  probing : List Nat := []
  /-- whorl time of the probe (06 R235) -/
  probeAt : Nat := 0
  /-- serving peers (06 R236) -/
  peers : List Nat := []
  /-- rates that the serving peers announced (06 R236) -/
  rates : Tab Nat := []
  /-- source of each chunk dealt: a package, or 0x1000 the backing copy (06 R234 R236) -/
  deal : Tab Nat := []
  /-- chunks written and checked (06 R230) -/
  done : List Nat := []
  /-- chunks that failed their digest once, with the source (06 R227) -/
  failed : Tab Nat := []
deriving DecidableEq, Repr

/-- Staged partition settings (Table Scheduling-6). -/
structure Settings where
  /-- island step n (08 R326) -/
  clock : Nat := 48
  /-- quantum in us (08 R326) -/
  quantum : Nat := 1000
  /-- miss_threshold in us (08 R326) -/
  miss : Nat := 0
  /-- hang_time in ms (08 R326) -/
  hang : Nat := 100
deriving DecidableEq, Repr

/-- Counter window of a partition (Table Observation-2). -/
structure Counters where
  /-- selected event codes (16 R547) -/
  sel : List Nat := []
  /-- live counts (16 R547) -/
  live : List Nat := []
  /-- running per-step bank (16 R544) -/
  run : List Nat := []
  /-- completed bank (16 R547) -/
  done : List Nat := []
  /-- partial (16 R547) -/
  isPartial : Bool := false
  /-- PMC_STEP_CTX (16 R547) -/
  doneCtx : Nat := 0
  /-- PMC_STEP_SEQ (16 R547) -/
  doneSeq : Nat := 0
  /-- a freeze fell inside the running step (16 R546) -/
  frozenIn : Bool := false
  /-- context handle that the running bank counts for (16 R544) -/
  runCtx : Nat := 0
  /-- sequence number of that step (16 R544) -/
  runSeq : Nat := 0
  /-- a step has run since the last swap (16 R544) -/
  runOpen : Bool := false
  /-- staged selection (16 R543) -/
  staged : Option (List Nat) := none
  /-- latched high halves by window offset of the low half (16 R548) -/
  hiLatch : Tab Nat := []
deriving DecidableEq, Repr

/-- Trace of a partition (Tables Registers-6 and Observation-3). -/
structure Trace where
  /-- on (17 R579 TRC_CFG) -/
  on : Bool := false
  /-- mode (17 R579) -/
  mode : Nat := 0
  /-- share (17 R579) -/
  share : Nat := 0
  /-- state (16 R551) -/
  state : Nat := 0
  /-- ring object handle (17 R579 TRC_OBJECT) -/
  obj : Nat := 0xFFFFFFFF
  /-- capacity (17 R579) -/
  capacity : Nat := 0
  /-- records accepted (17 R579) -/
  written : Nat := 0
  /-- records lost (17 R579) -/
  lost : Nat := 0
  /-- record number of the marker (17 R579) -/
  trigger : Option Nat := none
  /-- records were lost just before the next one (16 R554) -/
  gap : Bool := false
deriving DecidableEq, Repr

/-- One tensor watch selection (R559). -/
structure WatchSel where
  /-- program handle (16 R559) -/
  prog : Nat := 0
  /-- tensor index (16 R559) -/
  tensor : Nat := 0
  /-- mode (16 R559) -/
  digest : Bool := false
  /-- trigger (16 R559) -/
  trigger : Bool := false
deriving DecidableEq, Repr

/-- Accumulated watch of one selection for the running step (R560, R561). -/
structure WatchAcc where
  /-- elements or bytes (16 R560) -/
  count : Nat := 0
  /-- NaN elements (16 R560) -/
  nan : Nat := 0
  /-- zero elements (16 R560) -/
  zero : Nat := 0
  /-- minimum (16 R560) -/
  min : BitVec 32 := 0x7FC00000
  /-- maximum (16 R560) -/
  max : BitVec 32 := 0x7FC00000
  /-- sum of finite elements (16 R560) -/
  sum : BitVec 32 := 0
  /-- sum of squares (16 R560) -/
  sumsq : BitVec 32 := 0
  /-- digest so far (16 R561) -/
  digest : BitVec 64 := 0
deriving DecidableEq, Repr

/-- Tensor watch of a partition (R559, R563). -/
structure Watch where
  /-- result object handle (16 R559) -/
  obj : Nat := 0xFFFFFFFF
  /-- selections (16 R559) -/
  sels : List WatchSel := []
  /-- capacity (16 R563) -/
  capacity : Nat := 0
  /-- results written (16 R563) -/
  written : Nat := 0
  /-- staged object and selections (16 R559) -/
  staged : Option (Nat × List WatchSel) := none
deriving DecidableEq, Repr

/-- Hang graph node (Table Observation-7). -/
structure HangNode where
  /-- kind (16 R564) -/
  kind : Nat := 0
  /-- flags (16 R564) -/
  flags : Nat := 0
  /-- state (16 R564) -/
  state : Nat := 0
  /-- id (16 R564) -/
  id : Nat := 0
  /-- id2 (16 R564) -/
  id2 : Nat := 0
  /-- wait_us (16 R564) -/
  waitUs : Nat := 0
deriving DecidableEq, Repr

/-- The latest wait-for graph (R564). -/
structure HangGraph where
  /-- built (16 R564) -/
  built : Nat := 0
  /-- idle_since (16 R564) -/
  idleSince : Nat := 0
  /-- nodes (16 R564) -/
  nodes : List HangNode := []
  /-- edges (16 R564) -/
  edges : List (Nat × Nat) := []
deriving DecidableEq, Repr

/-- A partition (Table Partitions-2 and all it owns). -/
structure Part where
  /-- 0 FREE, 1 CREATING, 2 ACTIVE, 3 DESTROYING (07 R273) -/
  state : Nat := 0
  /-- owner (07 R270) -/
  owner : Nat := 0
  /-- corner column (07 R270) -/
  gx0 : Nat := 0
  /-- corner row (07 R270) -/
  gy0 : Nat := 0
  /-- width (07 R270) -/
  width : Nat := 0
  /-- height (07 R270) -/
  height : Nat := 0
  /-- ways per granule (07 R267) -/
  ways : Nat := 0
  /-- isolated (14 R502) -/
  isolated : Bool := false
  /-- store_bytes (07 R264) -/
  storeBytes : Nat := 0
  /-- contexts quota (07 R270) -/
  qContexts : Nat := 0
  /-- slots quota (07 R270) -/
  qSlots : Nat := 0
  /-- queues quota (07 R270) -/
  qQueues : Nat := 0
  /-- objects quota (07 R270) -/
  qObjects : Nat := 0
  /-- fences quota (07 R270) -/
  qFences : Nat := 0
  /-- function and tag of the create or destroy in progress (07 R273) -/
  reqTag : Option (Nat × Nat) := none
  /-- a partition reset runs: functions and tags answered when it completes, with the engine of an engine reset (13 R450 R472) -/
  resetTags : Option (List (Nat × Nat × Option Nat)) := none
  /-- memory objects by index (07 R286) -/
  objs : Tab MemObj := []
  /-- fences by index (07 R290) -/
  fences : Tab Fence := []
  /-- programs by index (05 R208) -/
  progs : Tab Program := []
  /-- reservations (07 R283) -/
  reservs : List Reservation := []
  /-- catalogue by index (06 R228) -/
  bobbins : Tab Bobbin := []
  /-- fill in progress (06 R240) -/
  fill : Option Fill := none
  /-- peer sources (06 R234) -/
  sources : List Nat := []
  /-- steps queued and fetches asked since creation (06 R240) -/
  arrivals : Nat := 0
  /-- backing region: address and length (06 R239) -/
  backing : Option (Nat × Nat) := none
  /-- settings in force (08 R326) -/
  cur : Settings := {}
  /-- staged settings (08 R326) -/
  staged : Option Settings := none
  /-- granted clock (08 R328) -/
  granted : Nat := 48
  /-- ports whose reducer was withdrawn at the last step boundary: COLLs by them are lowered (13 R449) -/
  lowered : List Nat := []
  /-- clock its islands run at (02 R81) -/
  retuned : Nat := 48
  /-- counter window (16 R547) -/
  counters : Counters := {}
  /-- trace (16 R579) -/
  trace : Trace := {}
  /-- bytes written for trace, watch and placement log in the last 10 us, with their times (16 R554) -/
  obs : List (Nat × Nat) := []
  /-- tensor watch (16 R559) -/
  watch : Watch := {}
  /-- watch accumulators of the steps in flight (16 R560) -/
  watchAcc : Tab (List WatchAcc) := []
  /-- latest hang graph (16 R564) -/
  hang : Option HangGraph := none
  /-- a hang graph was built and nothing has issued since (08 R316) -/
  hangPosted : Bool := false
  /-- whorl time of the last issue or of creation (08 R316) -/
  lastIssue : Nat := 0
  /-- slot of the RUNNING step (08 R305) -/
  running : Option Nat := none
  /-- a switch away is in progress: slot leaving (08 R310) -/
  switchTo : Option Nat := none
  /-- a switch is scheduled: 1 at the next cheap point, 2 at the current skein boundary (08 R310) -/
  switchReq : Nat := 0
deriving DecidableEq, Repr

/-- A step queue (Table Scheduling-1). -/
structure Queue where
  /-- allocated (08 R297) -/
  live : Bool := false
  /-- partition (08 R297) -/
  part : Nat := 0
  /-- local index (08 R297) -/
  j : Nat := 0
  /-- ring object handle (08 R297) -/
  ring : Nat := 0
  /-- entries (08 R297) -/
  entries : Nat := 0
  /-- ordered (08 R297) -/
  ordered : Bool := false
  /-- whorl time at which its QUEUE_CREATE response was posted (08 R299) -/
  openAt : Option Nat := none
  /-- function and tag of its QUEUE_CREATE (08 R299) -/
  crTag : Option (Nat × Nat) := none
  /-- descriptors read (08 R298) -/
  head : Nat := 0
  /-- descriptors written (08 R298) -/
  tail : Nat := 0
  /-- stopped by an overrun (08 R299) -/
  stopped : Bool := false
  /-- destroyed, admitted steps running to completion (08 R329) -/
  destroyed : Bool := false
  /-- next sequence number (08 R301) -/
  seq : Nat := 0
deriving DecidableEq, Repr

/-- A piece of a collective's data that has arrived and waits for its plan to start (R404, R407). -/
structure Chunk where
  /-- byte offset in the collective's window (11 R407) -/
  pos : Nat := 0
  /-- its bytes (11 R407) -/
  bytes : List Byte := []
  /-- poisoned bytes of it (02 R62) -/
  bad : List Nat := []
deriving DecidableEq, Repr

/-- One ring of a collective at this member (R407). -/
structure Flow where
  /-- engine that runs its plan, none while it waits (11 R408) -/
  eng : Option Nat := none
  /-- elements taken (11 R407) -/
  got : Nat := 0
  /-- pieces that came before the plan started (11 R404) -/
  inbox : List Chunk := []
deriving DecidableEq, Repr

/-- A collective at this member (R406, R407). -/
structure Coll where
  /-- partition (11 R408) -/
  part : Nat := 0
  /-- job (11 R408) -/
  job : Nat := 0
  /-- window at the neighbours, and its generation (11 R381) -/
  win : Nat := 0
  /-- See `win`. -/
  winGen : Nat := 0
  /-- pattern (05 R191) -/
  pattern : Nat := 0
  /-- reduction (05 R191) -/
  red : Nat := 0
  /-- first member (05 R191) -/
  first : Nat := 0
  /-- member count (05 R191) -/
  count : Nat := 0
  /-- root offset (05 R191) -/
  root : Nat := 0
  /-- this member's offset (11 R407) -/
  own : Nat := 0
  /-- elements of the vector (11 R407) -/
  els : Nat := 0
  /-- elements between cuts (11 R407) -/
  blk : Nat := 1
  /-- wire format of partial sums, 16 for INT32 (11 R406) -/
  wire : Nat := 0
  /-- format of what is passed round and written (11 R405) -/
  fmt : Nat := 0
  /-- sums are INT32 (03 R120) -/
  int : Bool := false
  /-- the local contribution as accumulator words (11 R407) -/
  words : List (BitVec 32) := []
  /-- its poisoned elements (05 R195) -/
  bad : List Nat := []
  /-- the local contribution as stored units, with their poison (11 R405) -/
  units : List (List Byte × Bool) := []
  /-- the forward ring (11 R407) -/
  fwd : Flow := {}
  /-- the reverse ring (11 R407) -/
  rev : Flow := {}
deriving DecidableEq, Repr

/-- A remote operation in flight (R393). -/
structure RemOp where
  /-- identifier (11 R393) -/
  id : Nat := 0
  /-- step slot (11 R393) -/
  slot : Nat := 0
  /-- tile whose skein issued it (11 R393) -/
  tile : Nat := 0
  /-- skein that issued it (11 R393) -/
  skein : Nat := 0
  /-- 0 FETCH, 1 SEND, 2 COLL, 4 a FETCH whose bytes are discarded (11 R393, 05 R183) -/
  kind : Nat := 0
  /-- job member it addresses (11 R393) -/
  member : Nat := 0
  /-- destination view of a FETCH (11 R393 05 R195) -/
  dst : Nat := 0
  /-- bytes of its data (11 R393) -/
  want : Nat := 0
  /-- data that has arrived (11 R393) -/
  data : List Byte := []
  /-- poisoned bytes of it (02 R62) -/
  bad : List Nat := []
  /-- transport queue pair (11 R386) -/
  qp : Nat := 0
  /-- link port of its first hop (11 R386) -/
  port : Nat := 0
  /-- whorl time of the last progress (11 R393) -/
  last : Nat := 0
  /-- the collective it is at this member (11 R407) -/
  coll : Option Coll := none
  /-- spindle firmware added it for a split (05 R204) -/
  added : Bool := false
deriving DecidableEq, Repr

/-- An admitted step in its slot (R302, R304). -/
structure Step where
  /-- 0 ADMITTED, 1 WAITING, 2 READY, 3 RUNNING, 4 SUSPENDED, 5 RELEASING, 6 DONE (08 R304) -/
  state : Nat := 0
  /-- partition (08 R302) -/
  part : Nat := 0
  /-- queue q (08 R302) -/
  queue : Nat := 0
  /-- sequence number (08 R301) -/
  seq : Nat := 0
  /-- context number (08 R302) -/
  ctx : Nat := 0
  /-- context generation (08 R302) -/
  ctxGen : Nat := 0
  /-- program index (08 R302) -/
  prog : Nat := 0
  /-- fallback program index (08 R302) -/
  fallback : Option Nat := none
  /-- catalogue index of its bobbin (08 R302) -/
  bobbin : Option Nat := none
  /-- catalogue index of the fallback's bobbin (06 R231) -/
  fbBobbin : Option Nat := none
  /-- abort_late (08 R302) -/
  abortLate : Bool := false
  /-- no_fallback (08 R302) -/
  noFallback : Bool := false
  /-- deadline (08 R302) -/
  deadline : Nat := 0
  /-- cookie (08 R302) -/
  cookie : BitVec 64 := 0
  /-- layer_base (08 R302) -/
  layerBase : Nat := 0
  /-- operator_base (08 R302) -/
  opBase : Nat := 0
  /-- input handles (08 R302) -/
  inputs : List Nat := []
  /-- output handles (08 R302) -/
  outputs : List Nat := []
  /-- wait fence handles (08 R302) -/
  waits : List Nat := []
  /-- signal fence handles (08 R302) -/
  signals : List Nat := []
  /-- whorl time of queueing (07 R293) -/
  queuedAt : Nat := 0
  /-- its place in the arrival order (06 R240) -/
  arrival : Nat := 0
  /-- whorl time of the last state change (08 R323) -/
  stateAt : Nat := 0
  /-- whorl time at which it last ran (08 R307) -/
  lastRan : Option Nat := none
  /-- whorl time at which its quantum began (08 R308) -/
  quantumAt : Nat := 0
  /-- it runs its fallback (08 R321) -/
  useFb : Bool := false
  /-- 0 not started, 1 prologue, 2 running, 3 issued, 4 complete, 5 retired (05 R176) -/
  skeins : Tab Nat := []
  /-- skeins placed once already (06 R221) -/
  replaced : List Nat := []
  /-- evaluated bucket counts by sort index x 1024 + expert (04 R149) -/
  sortCounts : Tab Nat := []
  /-- experts of each evaluated sort (04 R149) -/
  sortExperts : Tab Nat := []
  /-- entries of a local expert's bucket by source package, once its last manifest cell has come: key (sort index x 1024 + expert)
  x 4096 + package (04 R154) -/
  manifests : Tab Nat := []
  /-- status with which it has failed (08 R304) -/
  fail : Option (BitVec 16) := none
  /-- conversion status word (03 R109) -/
  conv : BitVec 8 := 0
  /-- status of the wait fences as it saw them (10 R365) -/
  waitView : Nat := 0
  /-- whorl time of its last operation on an engine (12 R433) -/
  lastOp : Nat := 0
  /-- host-memory writes not yet read back (12 R433) -/
  hostWrites : Bool := false
  /-- a poisoned word was written into an output (12 R436) -/
  poisonOut : Bool := false
  /-- its live bytes lie in the save area (08 R313) -/
  spilled : Bool := false
  /-- save area: bytes of the spilled buffers by tensor (08 R310) -/
  saved : Tab Mem := []
  /-- poisoned words of the spilled buffers: tensor x 2^18 + word (02 R62) -/
  savedPoison : List Nat := []
  /-- its completion entry is in the event queue (08 R330) -/
  notedDone : Bool := false
  /-- whorl time at which its release gate passed (12 R433) -/
  passedAt : Option Nat := none
  /-- bytes of the watch object at which its results lie (16 R563) -/
  watchAt : List Nat := []
  /-- job index and jstep (13 R459) -/
  job : Option (Nat × Nat) := none
  /-- outstanding engine requests made for it (13 R455) -/
  requests : Nat := 0
  /-- places at which the fallback has been evaluated: 0 the start, i + 1 the point after skein i (08 R320) -/
  fbDone : List Nat := []
  /-- missed its deadline (08 R317) -/
  late : Bool := false
  /-- tensors whose last write was a drain of INT32 accumulators in accumulator form (03 R118) -/
  intWords : List Nat := []
deriving DecidableEq, Repr

/-- A freed slot in quarantine (R455). -/
structure Quar where
  /-- context whose step held it (07 R283) -/
  ctx : Nat := 0
  /-- that context's generation (07 R283) -/
  ctxGen : Nat := 0
  /-- partition whose quota it counts against (13 R455) -/
  part : Nat := 0
  /-- whorl time at which it was freed (13 R455) -/
  since : Nat := 0
  /-- requests made under the old generation still out (13 R455) -/
  openReqs : Nat := 0
deriving DecidableEq, Repr

/-- A plan of a collective for one ring at this member, as a reducer holds it or as a skein that lowering adds (R203, R408). -/
structure Plan where
  /-- step slot (11 R408) -/
  slot : Nat := 0
  /-- tile whose skein asked (11 R408) -/
  tile : Nat := 0
  /-- skein that asked (11 R408) -/
  skein : Nat := 0
  /-- its remote operation (11 R393) -/
  op : Nat := 0
  /-- deadline of its step (11 R408) -/
  deadline : Nat := 0
  /-- partition (11 R408) -/
  part : Nat := 0
  /-- it serves the reverse ring (11 R407) -/
  rev : Bool := false
  /-- index of the skein that lowering adds for it (06 R221) -/
  added : Nat := 0
deriving DecidableEq, Repr

/-- The skein a tile runs (R65). -/
structure SkeinRun where
  /-- step slot (02 R65) -/
  slot : Nat := 0
  /-- whorl time of its start on the tile (08 R322) -/
  startAt : Nat := 0
  /-- skein index (02 R65) -/
  skein : Nat := 0
  /-- instructions still to issue (05 R190) -/
  code : List SkInsn := []
  /-- its first issue has been made (05 R194) -/
  issued : Bool := false
  /-- END has issued (05 R199) -/
  ended : Bool := false
  /-- s0 to s15 (05 R190) -/
  scalars : Tab (BitVec 32) := []
  /-- v0 to v31 (02 R53, 05 R190) -/
  vregs : Tab (List (BitVec 32)) := []
  /-- accumulator banks (02 R47, 05 R190) -/
  acc : Tab (Tab (BitVec 32)) := []
  /-- banks whose last pass accumulated in INT32 (05 R586) -/
  intForm : Tab Bool := []
  /-- conversion status word (03 R109) -/
  conv : BitVec 8 := 0
  /-- count that PRED writes (05 R196) -/
  tokens : Nat := 0
  /-- SENDs and COLLs not landed (05 R195) -/
  opsOut : Nat := 0
  /-- SORTs not accepted by their sorter (05 R195) -/
  sortsOut : Nat := 0
  /-- remote FETCHes not complete (05 R194) -/
  fetchOut : Nat := 0
  /-- the matrix unit has worked for it since its last window comparison (02 R69 R73) -/
  matWin : Bool := false
  /-- the vector unit has worked for it since its last window comparison (02 R69 R73) -/
  vecWin : Bool := false
  /-- the plan that it runs, a skein that lowering added (05 R203) -/
  plan : Option Plan := none
deriving DecidableEq, Repr

/-- A scratchpad allocation of a tile. -/
structure ScratchBuf where
  /-- step slot (05 R202) -/
  slot : Nat := 0
  /-- tensor index (05 R202) -/
  tensor : Nat := 0
  /-- scratchpad address (05 R202) -/
  base : Nat := 0
  /-- length (05 R202) -/
  bytes : Nat := 0
deriving DecidableEq, Repr

/-- A tile (Table Tile-1). -/
structure Tile where
  /-- 0 in use, 1 until engine reset and self-test, 2 until block reset (02 R75) -/
  withdrawn : Nat := 0
  /-- island step n (02 R78 R585) -/
  clock : Nat := 0
  /-- clock gated (02 R83 R585) -/
  gated : Bool := true
  /-- self-test in progress: functions and tags of the requests it answers (13 R448) -/
  testing : Option (List (Nat × Nat)) := none
  /-- the skein it runs (02 R65) -/
  run : Option SkeinRun := none
  /-- skeins whose END has issued and whose tail is open (02 R73, 05 R195) -/
  tails : List SkeinRun := []
  /-- scratchpad bytes that are not zero (02 R64) -/
  scratch : Mem := []
  /-- poisoned scratchpad words (02 R60 R61) -/
  poison : List Nat := []
  /-- allocations (05 R202) -/
  bufs : List ScratchBuf := []
  /-- the next 32 bits of the generator's sequence, next bit in bit 0 (03 R101) -/
  lfsr : BitVec 32 := 0
  /-- step the generator was seeded for (03 R103) -/
  lfsrSlot : Option Nat := none
deriving DecidableEq, Repr

/-- A sort request (R139, R156). -/
structure SortReq where
  /-- step slot (04 R156) -/
  slot : Nat := 0
  /-- tile whose skein asked (04 R156) -/
  tile : Nat := 0
  /-- skein (04 R156) -/
  skein : Nat := 0
  /-- sort index (04 R156) -/
  idx : Nat := 0
  /-- descriptor (04 R140) -/
  desc : List Byte := []
  /-- deadline of its step (04 R156) -/
  deadline : Nat := 0
  /-- partition (04 R156) -/
  part : Nat := 0
deriving DecidableEq, Repr

/-- A token sorter (R138, R156). -/
structure Sorter where
  /-- requests held, in order of arrival (04 R156) -/
  reqs : List SortReq := []
  /-- the sort running (04 R156) -/
  run : Option SortReq := none
  /-- 0 in use, 1 in reset, 2 until block reset (13 R449) -/
  withdrawn : Nat := 0
  /-- self-test in progress: functions and tags of the requests it answers (13 R448) -/
  testing : Option (List (Nat × Nat)) := none
deriving DecidableEq, Repr

/-- An in-transit reducer (R404, R408). -/
structure Reducer where
  /-- plans held (11 R408) -/
  plans : List Plan := []
  /-- the plan running (11 R408) -/
  run : Option Plan := none
  /-- 0 in use, 1 in reset, 2 until block reset (13 R449) -/
  withdrawn : Nat := 0
  /-- self-test in progress: functions and tags of the requests it answers (13 R448) -/
  testing : Option (List (Nat × Nat)) := none
deriving DecidableEq, Repr

/-- A mover (R227, R449). -/
structure Mover where
  /-- 0 in use, 1 in reset, 2 until block reset (13 R449) -/
  withdrawn : Nat := 0
  /-- self-test in progress: functions and tags of the requests it answers (13 R448) -/
  testing : Option (List (Nat × Nat)) := none
deriving DecidableEq, Repr

/-- An engine accounting record (R322). -/
structure EngRec where
  /-- busy ns (08 R322) -/
  busy : Nat := 0
  /-- bytes moved (08 R322) -/
  bytes : Nat := 0
  /-- energy in pJ (08 R322) -/
  energy : Nat := 0
deriving DecidableEq, Repr

/-- What leaves Kerurn at a port (the model's own record of it, log entry 9). -/
inductive Out where
  /-- a response written to the response ring (or the boot mailbox): function, index, phase, time, response (R334, R337) -/
  | response (func index : Nat) (phase : Bool) (posted : Nat) (r : Rsp)
  /-- an event entry written to ring entry `index`: its fields and its 32 bytes (R364 to R366) -/
  | event (func index : Nat) (e : Entry) (bytes : List Byte)
  /-- an MSI-X vector (R357) -/
  | msix (func vec : Nat)
  /-- the value a register read returned (R569) -/
  | read (func : Nat) (val : BitVec 64)
  /-- a completed device-memory read: data and whether each byte came with poison (R360) -/
  | memRead (data : List Byte) (poison : List Bool)
  /-- a line read on a pseudo-channel port: port, tag, line, poison bit (R31) -/
  | hbmRead (port tag line : Nat) (poison : Bool)
  /-- a byte-masked line write: port, tag, line, 64-bit mask, poison bit (R31) -/
  | hbmWrite (port tag line : Nat) (mask : BitVec 64) (poison : Bool)
  /-- a sync message handed to a port: port, its fields seq, prev_send, prev_arrival, prev_seq, and its 64 bytes (R397) -/
  | sync (port seq : Nat) (prevSend : Option Nat) (prevArrival prevSeq : Nat) (bytes : List Byte)
  /-- a cell handed to a port: port, queue pair on the sideband, 16 header bytes, payload, poisoned bytes (R62, R383, R386) -/
  | cell (port qp : Nat) (header payload : List Byte) (bad : List Nat)
  /-- a bulk message handed to a port: its header has 32 bytes (R62, R384, R386) -/
  | bulk (port qp : Nat) (header payload : List Byte) (bad : List Nat)
  /-- an abort notice sent to a package: its fields, and its 48-byte payload (R460, R461) -/
  | notice (pkg : Nat) (n : Notice) (bytes : List Byte)
  /-- a derived step forwarded to a package (R251) -/
  | derived (pkg jstep : Nat) (desc : List Byte) (split : Split)
  /-- a bobbin probe sent to a package (R235) -/
  | probe (pkg : Nat) (digest : BitVec 384) (chunks : List Nat)
  /-- what else spindle firmware tells a package -/
  | ctl (pkg : Nat) (c : Ctl)
  /-- a key-agreement frame (R483) -/
  | keyFrame (port : Nat)
  /-- an I3C in-band interrupt (R38) -/
  | ibi
  /-- an answer on MCTP: response code 0 answered, 1 not ready, 2 UnsupportedRequest, 3 session refused (R39, R497, R506) -/
  | spdm (code : Nat) (data : List Byte)
  /-- a VDD_TILE level request over I3C: die, mV (R20) -/
  | railRequest (die mv : Nat)
  /-- the request to remove the main rails (R525) -/
  | railsOff
  /-- data shifted out of TDO (R35, R37) -/
  | tdo (val : Nat)
  /-- flash commands: reset enable and reset (R40), erase, program -/
  | flashReset
  | flashWrite (area : Nat)
  /-- the backing copy of a bobbin written to host memory: address and its frames (R239, R478) -/
  | backingCopy (part idx addr : Nat) (frames : List Byte)
deriving DecidableEq, Repr

/-- A cell or bulk message that waits for credit (R391, R392). -/
structure TxMsg where
  /-- a bulk message (11 R391) -/
  bulk : Bool := false
  /-- engine identifier of R322 (11 R392) -/
  eng : Nat := 0
  /-- transport queue pair (11 R386) -/
  qp : Nat := 0
  /-- kind (11 R383) -/
  kind : Nat := 0
  /-- destination window (11 R383) -/
  window : Nat := 0
  /-- its generation (11 R383) -/
  gen : Nat := 0
  /-- index or offset (11 R383 R384) -/
  pos : Nat := 0
  /-- partition it is sent for (11 R391) -/
  part : Nat := 0
  /-- slot of the step it is sent for, none for bobbin chunks and control cells (06 R237) -/
  slot : Option Nat := none
  /-- payload (11 R383) -/
  payload : List Byte := []
  /-- route written into its header (06 R252) -/
  route : List Nat := []
  /-- poisoned bytes of the payload (02 R62) -/
  bad : List Nat := []
  /-- the control message that the cell is (11 R383) -/
  ctl : Option Out := none
deriving DecidableEq, Repr

/-- A link port (R391, R483, R485). -/
structure LinkPort where
  /-- reported up and keyed (11 R388) -/
  up : Bool := false
  /-- key agreement in progress (14 R483) -/
  keying : Bool := false
  /-- link key of the outbound direction (14 R475) -/
  txKey : BitVec 256 := 0
  /-- link key of the inbound direction (14 R475) -/
  rxKey : BitVec 256 := 0
  /-- frames sent (14 R485) -/
  txCtr : Nat := 0
  /-- frames accepted (14 R485) -/
  rxCtr : Nat := 0
  /-- cell credits held (11 R391) -/
  cellHeld : Nat := 0
  /-- cell credits granted (11 R391) -/
  cellGranted : Nat := 0
  /-- bulk credits held (11 R391) -/
  bulkHeld : Nat := 0
  /-- bulk credits granted (11 R391) -/
  bulkGranted : Nat := 0
  /-- messages that wait for credit (11 R392) -/
  txq : List TxMsg := []
  /-- engine whose turn was last (11 R392) -/
  lastEng : Nat := 0
  /-- taken down, or its route checker copies disagree (11 R389) -/
  shut : Bool := false
deriving DecidableEq, Repr

/-- A window (R381). -/
structure Window where
  /-- open (11 R381) -/
  isOpen : Bool := false
  /-- owning partition (11 R381) -/
  part : Nat := 0
  /-- job index (11 R381) -/
  job : Nat := 0
  /-- object-space base (11 R381) -/
  base : Nat := 0
  /-- size (11 R381) -/
  size : Nat := 0
  /-- bit k: kind k accepted (11 R381) -/
  kinds : Nat := 0
  /-- queue pairs that may send to it (11 R381) -/
  qps : List Nat := []
  /-- generation (11 R381) -/
  gen : Nat := 0
  /-- whorl time of its last close (13 R457) -/
  closedAt : Nat := 0
deriving DecidableEq, Repr

/-- A job member (R246, R465). -/
structure Member where
  /-- package (06 R246) -/
  pkg : Nat := 0
  /-- partition (06 R246) -/
  part : Nat := 0
  /-- recorded partition generation (13 R465) -/
  pgen : Nat := 0
  /-- recorded start number (13 R465) -/
  startNo : Nat := 0
  /-- store capacity less pinned bytes (06 R247) -/
  store : Nat := 0
  /-- the rest of its carve-out (06 R247) -/
  rest : Nat := 0
deriving DecidableEq, Repr

/-- A job (R246). -/
structure Job where
  /-- exists (06 R246) -/
  live : Bool := false
  /-- generation of the index (09 R347) -/
  gen : Nat := 0
  /-- members (06 R246) -/
  members : List Member := []
  /-- members that have not answered (06 R246) -/
  waiting : List Nat := []
  /-- whorl time of the request (06 R246) -/
  askedAt : Nat := 0
  /-- function and tag of its JOB_CREATE (06 R246) -/
  crTag : Option (Nat × Nat) := none
  /-- a member is lost (13 R465) -/
  broken : Bool := false
  /-- next job step number (13 R459) -/
  jstep : Nat := 0
  /-- job steps aborted here (13 R461) -/
  aborted : List Nat := []
  /-- notices kept for derived steps not arrived: jstep and time (13 R463) -/
  kept : List (Nat × Nat) := []
  /-- job route table: hop codes to each member (06 R252) -/
  routes : Tab (List Nat) := []
  /-- part of each member: layer_first, layer_last, cut, cuts (06 R255) -/
  parts : List (Nat × Nat × Nat × Nat) := []
  /-- routes of every ordered pair of members, at member 0: key source member x 4096 + destination (06 R252) -/
  pairs : Tab (List Nat) := []
  /-- bytes of its route table in the firmware area (07 R266) -/
  tableBytes : Nat := 0
  /-- gates that members have passed: jstep and member (06 R251) -/
  gates : List (Nat × Nat) := []
deriving DecidableEq, Repr

/-- A scrub record (Table Security-9). -/
structure ScrubRec where
  /-- kind (14 R500) -/
  kind : Nat := 0
  /-- partition (14 R500) -/
  part : Nat := 0
  /-- granules cleared (14 R500) -/
  granules : List Nat := []
  /-- whorl time of verification (14 R500) -/
  done : Nat := 0
  /-- start number (14 R500) -/
  startNo : Nat := 0
deriving DecidableEq, Repr

/-- Global stop (Table Observation-5). -/
structure Gst where
  /-- stopped (16 R556 GST_STATUS) -/
  stopped : Bool := false
  /-- halted (16 R556 GST_STATUS) -/
  halted : Bool := false
  /-- source (16 R556 GST_STATUS) -/
  source : Nat := 0
  /-- GST_TIME (16 R556 GST_TIME) -/
  time : Nat := 0
  /-- tile (16 R558 GST_SCAN_SEL) -/
  selTile : Nat := 0
  /-- chain (16 R558 GST_SCAN_SEL) -/
  selChain : Nat := 0
  /-- byte offset (16 R558 GST_SCAN_ADDR) -/
  addr : Nat := 0
  /-- parity_err (16 R558) -/
  parityErr : Bool := false
  /-- whorl time of the latest parity error (17 R584) -/
  parityAt : Option Nat := none
  /-- abort notices that arrived during the stop (13 R472) -/
  notices : List Notice := []
deriving DecidableEq, Repr

/-- Package counters (Table Observation-2). -/
structure Pmc where
  /-- COUNTER_FREEZE holds the freeze (16 R547 PMC_STATE) -/
  byMessage : Bool := false
  /-- a global stop holds the freeze (16 R547 PMC_STATE) -/
  byStop : Bool := false
  /-- T_f of the latest freeze (16 R547 PMC_FREEZE_TIME) -/
  tf : Nat := 0
  /-- T_f lies ahead (16 R546) -/
  armed : Bool := false
  /-- package counters (16 R547 PMC_GLOBAL) -/
  global : Tab Nat := []
  /-- latched high halves by offset of the low half (16 R548) -/
  hiLatch : Tab Nat := []
  /-- the counts are held (16 R546) -/
  held : Bool := false
deriving DecidableEq, Repr

/-- Debug grants (R489). -/
structure Grants where
  /-- partitions with trace open (14 R489) -/
  trace : List Nat := []
  /-- partitions with scan-out open (14 R489) -/
  scan : List Nat := []
  /-- partitions with memory read open (14 R489) -/
  memRead : List Nat := []
  /-- stop open (14 R489, 16 R555) -/
  stop : Bool := false
deriving DecidableEq, Repr

/-- Power and sleep of the block. -/
structure Power where
  /-- power limit in W (08 R328) -/
  limit : Nat := 4000
  /-- thermal throttle engaged (14 R503) -/
  throttled : Bool := false
  /-- clock grants lowered, latest first (08 R328) -/
  lowered : List Nat := []
  /-- wake time of an accepted SLEEP_ENTER (15 R524) -/
  wakeTime : Nat := 0
  /-- sleep entry is under way (15 R525) -/
  entering : Bool := false
  /-- a wake source arrived during entry (15 R530) -/
  wakePending : Bool := false
  /-- steps are admitted and requests taken (13 R451) -/
  admitting : Bool := true
deriving DecidableEq, Repr

/-- The host port: link and aperture. -/
structure HostPort where
  /-- the host link is up (10 R370) -/
  linkUp : Bool := true
  /-- the ATS cache holds translations (10 R370) -/
  atsValid : Bool := false
  /-- partition (10 R359 APER_BASE) -/
  aperPart : Nat := 0
  /-- enable (10 R359 APER_BASE) -/
  aperEnable : Bool := false
  /-- offset in 256 MiB units (10 R359 APER_BASE) -/
  aperOffset : Nat := 0
deriving DecidableEq, Repr

/-- The block. -/
structure State where
  /-- variant (00 R3) -/
  variant : Variant := .rv9
  /-- always-on domain (01 R13) -/
  aon : Aon := {}
  /-- the main domain is held in reset (01 R23) -/
  mainReset : Bool := true
  /-- fault collector (12 R422) -/
  coll : Collector := {}
  /-- flash, life cycle, start (15 R505) -/
  life : Life := {}
  /-- VDD_TILE of each die (01 R20) -/
  rails : Tab DieRail := []
  /-- functions (10 R356) -/
  funcs : Tab Func := []
  /-- function whose request was taken last from a ring (09 R335) -/
  lastTaken : Nat := 63
  /-- partitions (07 R270) -/
  parts : Tab Part := []
  /-- generation of each partition number (07 R270) -/
  partGen : Tab Nat := []
  /-- ways allocated on each die: way and partition (07 R267) -/
  dieWays : Tab (List (Nat × Nat)) := []
  /-- lines that each die's cache holds (07 R268) -/
  caches : Tab (List CacheLine) := []
  /-- reads out on the pseudo-channel ports (01 R31) -/
  hbmReads : List HbmRead := []
  /-- unusable granules (07 R260) -/
  badGranules : List Nat := []
  /-- contexts (07 R282) -/
  ctxs : Tab Ctx := []
  /-- numbers freed, longest ago first, behind the never-used ones (07 R282) -/
  ctxFree : List Nat := []
  /-- lowest number never used since block reset (07 R282) -/
  ctxNext : Nat := 0
  /-- step queues by q (08 R297) -/
  queues : Tab Queue := []
  /-- steps by slot (08 R300) -/
  steps : Tab Step := []
  /-- slot generations (13 R454) -/
  slotGen : Tab Nat := []
  /-- slots in quarantine (13 R455) -/
  quar : Tab Quar := []
  /-- tiles (02 R41) -/
  tiles : Tab Tile := []
  /-- movers (06 R227) -/
  movers : Tab Mover := []
  /-- token sorters (04 R138) -/
  sorters : Tab Sorter := []
  /-- requests spindle firmware keeps queued (04 R156) -/
  sortWait : List SortReq := []
  /-- in-transit reducers (11 R404) -/
  reducers : Tab Reducer := []
  /-- plans lowered to tile skeins that wait for a tile (05 R203) -/
  addedWork : List Plan := []
  /-- engine records (08 R322) -/
  engRecs : Tab EngRec := []
  /-- remote operations in flight (11 R393) -/
  remOps : List RemOp := []
  /-- next remote operation identifier (11 R393) -/
  opNext : Nat := 0
  /-- link ports (11 R391) -/
  ports : Tab LinkPort := []
  /-- windows (11 R381) -/
  windows : Tab Window := []
  /-- stale arrivals (11 R382) -/
  stale : Tab Nat := []
  /-- jobs (06 R246) -/
  jobs : Tab Job := []
  /-- object-space bytes that are not zero, at partition x 2^40 + offset (07 R265, 10 R358) -/
  hbm : Mem := []
  /-- poisoned object-space lines (01 R31, 12 R436) -/
  hbmPoison : List Nat := []
  /-- scrub records, oldest first (14 R500) -/
  scrubs : List ScrubRec := []
  /-- debug grants (14 R489) -/
  grants : Grants := {}
  /-- global stop (16 R556) -/
  gst : Gst := {}
  /-- package counters (16 R547) -/
  pmc : Pmc := {}
  /-- power and sleep (08 R328) -/
  power : Power := {}
  /-- host port (10 R359) -/
  host : HostPort := {}
  /-- TRC_STAGE_USED (17 R579) -/
  stageUsed : Tab Nat := []
  /-- TRC_STAGE_MAX (17 R579) -/
  stageMax : Tab Nat := []
  /-- TRC_STAGE_FULL (17 R579) -/
  stageFull : Tab Nat := []
  /-- what has left Kerurn's ports, newest first (MODEL'S OWN) -/
  out : List Out := []
  /-- counter of the free values drawn (MODEL'S OWN) -/
  fresh : Nat := 0
  /-- commands waiting, first in first out (MODEL'S OWN) -/
  pending : List Instr := []
deriving DecidableEq, Repr

/-- The machine right after a power-on, at column A of Table Boundary-3: always-on rails up, REFCLK running, AON_RESET_N,
PWR_GOOD and BLK_RESET_N low, every register at the reset value of the register reference. DESIGN CHOICE (log entries 3, 4,
14 and 35) for the variant, the erased flash, the values the spec does not give and the VFs that the host controller enables. -/
def State.reset : State := { funcs := (List.range 64).map fun f => (f, { enabled := true }) }

end Sys2Proof.Machine
end

