-- ==== Sys2Proof/Machine/Ops.lean ====
section
/-! DEFINITION. The operations that every family of commands shares: figures of the variants, access to the tables of the
state, time, free values, what leaves the ports, memory objects, counters, trace. -/

namespace Sys2Proof.Machine

/-- The outcome of a command. -/
abbrev Res := Host.Outcome State Fault Refusal

/-! ### Figures of the variants (Table Scope-1) -/

/-- Compute dies present. -/
def dies : Variant → Nat
  | .rv9h => 16
  | _ => 32

/-- Tiles present. -/
def tileCount (v : Variant) : Nat := 64 * dies v

/-- Granules present. -/
def granuleCount (v : Variant) : Nat := 4 * dies v

/-- Rows of the granule grid (R258). -/
def granuleRows (v : Variant) : Nat := dies v / 4

/-- Link ports present. -/
def portCount : Variant → Nat
  | .rv9h => 3
  | _ => 6

/-- In-transit reducers present. -/
def reducerCount : Variant → Nat
  | .rv9 => 6
  | .rv9h => 3
  | .rv9e => 0

/-- Block-skip decode, digest units: absent on the RV-9E. -/
def fullUnits : Variant → Bool
  | .rv9e => false
  | _ => true

/-- Greatest Kerurn power in W. -/
def maxPower : Variant → Nat
  | .rv9h => 2100
  | _ => 4000

/-- Compute die of a tile (R42). -/
def tileDie (t : Nat) : Nat := t / 64 / 8 * 8 + t % 64 / 8

/-- Granule of a tile (R258). -/
def tileGranule (t : Nat) : Nat := t / 64 / 4 * 16 + t % 64 / 4

/-- Compute die of a granule (R258). -/
def granuleDie (g : Nat) : Nat := g / 16 / 2 * 8 + g % 16 / 2

/-- The 16 tiles of a granule (R258), rows first. -/
def granuleTiles (g : Nat) : List Nat :=
  (List.range 16).map fun k => (g / 16 * 4 + k / 4) * 64 + g % 16 * 4 + k % 4

/-! ### Tables of the state -/

/-- Partition `p`. -/
def State.part (s : State) (p : Nat) : Part := tget s.parts p {}
/-- Change partition `p`. -/
def State.modPart (s : State) (p : Nat) (f : Part → Part) : State := { s with parts := tput s.parts p (f (s.part p)) }
/-- Function `f`. -/
def State.func (s : State) (f : Nat) : Func := tget s.funcs f {}
/-- Change function `f`. -/
def State.modFunc (s : State) (f : Nat) (g : Func → Func) : State := { s with funcs := tput s.funcs f (g (s.func f)) }
/-- Context number `c`. -/
def State.ctx (s : State) (c : Nat) : Ctx := tget s.ctxs c {}
/-- Change context number `c`. -/
def State.modCtx (s : State) (c : Nat) (f : Ctx → Ctx) : State := { s with ctxs := tput s.ctxs c (f (s.ctx c)) }
/-- Change the step in a slot, if there is one. -/
def State.modStep (s : State) (k : Nat) (f : Step → Step) : State :=
  match tfind s.steps k with
  | none => s
  | some st => { s with steps := tput s.steps k (f st) }
/-- Queue `q`. -/
def State.queue (s : State) (q : Nat) : Queue := tget s.queues q {}
/-- Change queue `q`. -/
def State.modQueue (s : State) (q : Nat) (f : Queue → Queue) : State := { s with queues := tput s.queues q (f (s.queue q)) }
/-- Tile `t`. -/
def State.tile (s : State) (t : Nat) : Tile := tget s.tiles t {}
/-- Change tile `t`. -/
def State.modTile (s : State) (t : Nat) (f : Tile → Tile) : State := { s with tiles := tput s.tiles t (f (s.tile t)) }
/-- Sorter of die `d`. -/
def State.sorter (s : State) (d : Nat) : Sorter := tget s.sorters d {}
/-- Change the sorter of die `d`. -/
def State.modSorter (s : State) (d : Nat) (f : Sorter → Sorter) : State := { s with sorters := tput s.sorters d (f (s.sorter d)) }
/-- Mover of die `d`. -/
def State.mover (s : State) (d : Nat) : Mover := tget s.movers d {}
/-- Change the mover of die `d`. -/
def State.modMover (s : State) (d : Nat) (f : Mover → Mover) : State := { s with movers := tput s.movers d (f (s.mover d)) }
/-- Reducer of port `p`. -/
def State.reducer (s : State) (p : Nat) : Reducer := tget s.reducers p {}
/-- Change the reducer of port `p`. -/
def State.modReducer (s : State) (p : Nat) (f : Reducer → Reducer) : State := { s with reducers := tput s.reducers p (f (s.reducer p)) }
/-- Link port `p`. -/
def State.port (s : State) (p : Nat) : LinkPort := tget s.ports p {}
/-- Change link port `p`. -/
def State.modPort (s : State) (p : Nat) (f : LinkPort → LinkPort) : State := { s with ports := tput s.ports p (f (s.port p)) }
/-- Window `w`. -/
def State.window (s : State) (w : Nat) : Window := tget s.windows w {}
/-- Change window `w`. -/
def State.modWindow (s : State) (w : Nat) (f : Window → Window) : State := { s with windows := tput s.windows w (f (s.window w)) }
/-- Job `j`. -/
def State.job (s : State) (j : Nat) : Job := tget s.jobs j {}
/-- Change job `j`. -/
def State.modJob (s : State) (j : Nat) (f : Job → Job) : State := { s with jobs := tput s.jobs j (f (s.job j)) }
/-- The rail of die `d`. -/
def State.rail (s : State) (d : Nat) : DieRail := tget s.rails d {}
/-- Change the rail of die `d`. -/
def State.modRail (s : State) (d : Nat) (f : DieRail → DieRail) : State := { s with rails := tput s.rails d (f (s.rail d)) }
/-- Engine record `e` (R322). -/
def State.engRec (s : State) (e : Nat) : EngRec := tget s.engRecs e {}
/-- Change the always-on domain. -/
def State.modAon (s : State) (f : Aon → Aon) : State := { s with aon := f s.aon }
/-- Change the fault collector. -/
def State.modColl (s : State) (f : Collector → Collector) : State := { s with coll := f s.coll }
/-- Change the life-cycle and start-up state. -/
def State.modLife (s : State) (f : Life → Life) : State := { s with life := f s.life }
/-- Change the power state. -/
def State.modPower (s : State) (f : Power → Power) : State := { s with power := f s.power }

/-- The partition is ACTIVE (R273). -/
def active (s : State) (p : Nat) : Bool := (s.part p).state == 2

/-- Granules of a partition in local order (R262). -/
def partGranules (x : Part) : List Nat :=
  (List.range (x.width * x.height)).map fun i => (x.gy0 + i / x.width) * 16 + x.gx0 + i % x.width

/-- Tiles of a partition. -/
def partTiles (x : Part) : List Nat := (partGranules x).flatMap granuleTiles

/-- The partition that holds granule `g`, if any (R261). -/
def granuleOwner (s : State) (g : Nat) : Option Nat :=
  (s.parts.find? fun e => e.2.state != 0 && (partGranules e.2).contains g).map (·.1)

/-- The partition that holds tile `t`, if any. -/
def tileOwner (s : State) (t : Nat) : Option Nat := granuleOwner s (tileGranule t)

/-- Dies on which a partition holds a granule. -/
def partDies (x : Part) : List Nat := ((partGranules x).map granuleDie).dedup

/-- The package number (R379); coordinates not written read (0, 0, 0) (R378). -/
def myPkg (s : State) : Nat :=
  match s.aon.coords with
  | some (x, y, z, _, _, _) => x + 16 * y + 256 * z
  | none => 0

/-! ### Time, free values, ports -/

/-- The always-on domain works. -/
def aonUp (s : State) : Bool := s.aon.railsOk && s.aon.aonResetN

/-- The main domain is out of reset. -/
def up (s : State) : Bool := !s.mainReset

/-- Spindle firmware works: the main domain is up and a full start has reached `ready`. -/
def ready (s : State) : Bool := up s && s.life.ready

/-- Engines run: firmware is ready and no global stop halts them (R556). -/
def engines (s : State) : Bool := ready s && !s.gst.stopped

/-- Whorl time is at least `now` (log entry 2). -/
def advance (s : State) (now : Nat) : State :=
  if aonUp s && s.aon.whorl < now then s.modAon fun a => { a with whorl := now, whorlHold := none } else s

/-- Whorl time. -/
def time (s : State) : Nat := s.aon.whorl

/-- A command at whorl time `now` whose condition is `c` and whose effect is `f`; without its condition the command names
no event and changes nothing (log entry 1). -/
def timed (s : State) (now : Nat) (c : State → Bool) (f : State → State) : Res :=
  .next (if c (advance s now) then f (advance s now) else s)

/-- A command without a time of its own. -/
def untimed (s : State) (c : State → Bool) (f : State → State) : Res := .next (if c s then f s else s)

/-- Something leaves a port. -/
def emit (s : State) (o : Out) : State := { s with out := o :: s.out }

/-- A value the spec leaves open (log entry 6), and the state with the next counter. -/
def draw (s : State) : Nat × State := (Config.freeNat s.fresh, { s with fresh := s.fresh + 1 })

/-- A fresh 256-bit key (R475). -/
def drawKey (s : State) : BitVec 256 × State := (BitVec.ofNat 256 (draw s).1, (draw s).2)

/-- One of a list, chosen freely. -/
def pickFree (s : State) (l : List Nat) : Option Nat × State :=
  match l with
  | [] => (none, s)
  | _ => (l[(draw s).1 % l.length]?, (draw s).2)

/-- Apply a state change for each of a list. -/
def forAll {α : Type} (l : List α) (f : State → α → State) (s : State) : State := l.foldl f s

/-! ### Handles -/

/-- A context handle (R282). -/
def ctxHandle (c gen : Nat) : Nat := c + 4096 * gen

/-- The context number a 32-bit handle names in partition `p`, if it is current (R282). -/
def ctxOf (s : State) (p h : Nat) : Option Nat :=
  let c := h % 4096
  let x := s.ctx c
  if h / 2 ^ 20 = 0 ∧ x.part = some p ∧ x.gen = h / 4096 then some c else none

/-- The object index a handle names in partition `p`, if it is current and not FREEING (R287). -/
def objOf (s : State) (p h : Nat) : Option Nat :=
  match tfind (s.part p).objs (h % 65536) with
  | some o => if h / 2 ^ 24 = 0 ∧ o.live ∧ o.gen = h / 65536 ∧ !o.freeing then some (h % 65536) else none
  | none => none

/-- The fence index a handle names in partition `p`, if it is current (R290). -/
def fenceOf (s : State) (p h : Nat) : Option Nat :=
  match tfind (s.part p).fences (h % 65536) with
  | some o => if h / 2 ^ 24 = 0 ∧ o.live ∧ o.gen = h / 65536 ∧ !o.freeing then some (h % 65536) else none
  | none => none

/-- The program index a handle names in partition `p`, if it is loaded (R347). -/
def progOf (s : State) (p h : Nat) : Option Nat :=
  match tfind (s.part p).progs (h % 65536) with
  | some g => if h / 2 ^ 30 = 0 ∧ h / 2 ^ 24 % 64 = p ∧ g.live ∧ g.loading = none ∧ g.gen = h / 65536 % 256
              then some (h % 65536) else none
  | none => none

/-- The job index a handle names, if it exists (R347). -/
def jobOf (s : State) (h : Nat) : Option Nat :=
  let j := s.job (h % 256)
  if h / 65536 = 0 ∧ j.live ∧ j.gen = h / 256 then some (h % 256) else none

/-- The handle of job `j`. -/
def jobHandle (s : State) (j : Nat) : Nat := j + 256 * (s.job j).gen

/-! ### Object space (R265, R358) -/

/-- The cell of object-space offset `off` of partition `p`. -/
def hbmAddr (p off : Nat) : Nat := p * 2 ^ 40 + off

/-- A full or partial write: poisoned 64-byte lines keep their poison unless the write covers them whole (Table Faults-7). -/
def healed (poison : List Nat) (unit a n : Nat) : List Nat :=
  poison.filter fun l => !(a ≤ l * unit && l * unit + unit ≤ a + n)

/-- Write bytes into object space. -/
def hbmWrite (s : State) (p off : Nat) (bs : List Byte) : State :=
  { s with hbm := mwriteN s.hbm (hbmAddr p off) bs, hbmPoison := healed s.hbmPoison 64 (hbmAddr p off) bs.length }

/-- Read bytes of object space. -/
def hbmRead (s : State) (p off n : Nat) : List Byte := mreadN s.hbm (hbmAddr p off) n

/-- Some line of the range is poisoned. -/
def hbmPoisoned (s : State) (p off n : Nat) : Bool :=
  s.hbmPoison.any fun l => decide (l * 64 < hbmAddr p off + n ∧ hbmAddr p off < l * 64 + 64)

/-- Clear a range of object space to zero (R499, R281). -/
def hbmClear (s : State) (p off n : Nat) : State :=
  { s with hbm := mclear s.hbm (hbmAddr p off) n, hbmPoison := healed s.hbmPoison 64 (hbmAddr p off) n }

/-- Bytes of the object part of each granule (R263). -/
def objPart (x : Part) : Nat := 4576 * 2 ^ 20 - x.storeBytes / (x.width * x.height)

/-- Bytes of the store part of each granule (R263). -/
def storePart (x : Part) : Nat := x.storeBytes / (x.width * x.height)

/-- The cell of a granule offset that software cannot address: the bobbin store part and the firmware area (R263). -/
def closedCell (g off : Nat) : Nat := 2 ^ 46 + g * 2 ^ 33 + off

/-- The granule offset of a byte of a pseudo-channel port: 4 KiB units rotate over the granule's four ports (R259, R263). -/
def portOffset (port off : Nat) : Nat := (off / 4096 * 4 + port % 4) * 4096 + off % 4096

/-- The port and port offset of a granule offset (R259, R263). -/
def granulePort (g off : Nat) : Nat × Nat := (4 * g + off / 4096 % 4, off / 16384 * 4096 + off % 4096)

/-- The cell of a granule offset: in the object part one of its partition's object space (R263, R265). -/
def granuleCell (s : State) (g off : Nat) : Nat :=
  match granuleOwner s g with
  | none => closedCell g off
  | some p =>
    let x := s.part p
    if storePart x ≤ off ∧ off < 4576 * 2 ^ 20 then
      hbmAddr p ((partGranules x).findIdx (· == g) * objPart x + (off - storePart x))
    else closedCell g off

/-- The 64-byte line of cells that line `l` of a port is (R31). -/
def portLine (s : State) (port l : Nat) : Nat := granuleCell s (port / 4) (portOffset port (64 * l)) / 64

/-- Bytes of a partition's object space (R265). -/
def objSpace (x : Part) : Nat := objPart x * (x.width * x.height)

/-- The object with this index. -/
def memObj (s : State) (p i : Nat) : MemObj := tget (s.part p).objs i {}

/-- Write into an object at a byte offset. -/
def objWrite (s : State) (p i off : Nat) (bs : List Byte) : State := hbmWrite s p ((memObj s p i).base + off) bs

/-! ### Counters (R542 to R546) -/

/-- A freeze holds and its tick has passed: nothing is counted (R546). -/
def frozen (s : State) : Bool := (s.pmc.byMessage || s.pmc.byStop) && (s.pmc.held || decide (s.pmc.tf < time s))

/-- Add to the count at each position whose selected event is `ev`. -/
def bump (sel vals : List Nat) (ev n : Nat) : List Nat :=
  (sel.zip vals).map fun e => if e.1 = ev then (e.2 + n) % 2 ^ 64 else e.2

/-- Count `n` events of code `ev` for partition `p` (Table Observation-1). -/
def count (s : State) (p ev n : Nat) : State :=
  if frozen s then s
  else s.modPart p fun x =>
    { x with counters := { x.counters with
        live := bump x.counters.sel x.counters.live ev n
        run := bump x.counters.sel x.counters.run ev n } }

/-- Count on a package counter (Table Observation-2). -/
def countGlobal (s : State) (j n : Nat) : State :=
  if frozen s then s
  else { s with pmc := { s.pmc with global := tput s.pmc.global j ((tget s.pmc.global j 0 + n) % 2 ^ 64) } }

/-- Charge an engine record and the context's record (R322, R323). `e` is the energy of the model (log entry 11). -/
def charge (s : State) (eng c cgen ns bytes e : Nat) : State :=
  let r := s.engRec eng
  let s := { s with engRecs := tput s.engRecs eng { busy := r.busy + ns, bytes := r.bytes + bytes, energy := r.energy + e } }
  if (s.ctx c).gen = cgen then
    s.modCtx c fun x => { x with engineNs := x.engineNs + ns, bytes := x.bytes + bytes, energy := x.energy + e }
  else s

/-! ### Trace (R549 to R554) -/

/-- The 64-byte ring header (R551). -/
def traceHeader (t : Trace) : List Byte :=
  toLe 8 t.written ++ toLe 8 t.capacity ++ toLe 8 t.lost ++ toLe 8 (t.trigger.getD (2 ^ 64 - 1)) ++ toLe 1 t.state
    ++ List.replicate 31 0

/-- Write the header into the ring object. -/
def traceSync (s : State) (p : Nat) : State := objWrite s p ((s.part p).trace.obj % 65536) 0 (traceHeader (s.part p).trace)

/-- Records kept before the trigger (R552). -/
def tracePre (t : Trace) : Nat := t.capacity * t.share / 16

/-- Bytes that a partition may write for trace, watch results and placement log in any 10 us (R554): 4.608 GB/s a granule. -/
def obsBudget (x : Part) : Nat := 46080 * (x.width * x.height)

/-- What it has written in the last 10 us. -/
def obsRecent (s : State) (p : Nat) : List (Nat × Nat) := (s.part p).obs.filter fun e => decide (time s < e.1 + 10000)

/-- A record of `n` bytes is written on the budget. -/
def obsSpend (s : State) (p n : Nat) : State := s.modPart p fun x => { x with obs := obsRecent s p ++ [(time s, n)] }

/-- The budget has room for a record of `n` bytes. -/
def obsRoom (s : State) (p n : Nat) : Bool := decide (sumNat ((obsRecent s p).map (·.2)) + n ≤ obsBudget (s.part p))

/-- Place one record in the ring and advance `written`. -/
def tracePut (s : State) (p : Nat) (rec : List Byte) : State :=
  let t := (s.part p).trace
  let s := objWrite (obsSpend s p 32) p (t.obj % 65536) (64 + 32 * (t.written % t.capacity)) rec
  let w := t.written + 1
  let st := match t.trigger with
    | some k => if t.state = 2 ∧ w = k + (t.capacity - tracePre t) then 3 else t.state
    | none => if t.mode = 0 ∧ t.capacity ≤ w then 1 else t.state
  traceSync (s.modPart p fun x => { x with trace := { x.trace with written := w, state := st, gap := false } }) p

/-- A record is due (R552, R554): written; counted as lost when the ring has stopped; without room in the budget it stops a
stop-on-full trace and is dropped by the others, whose next record carries `gap`. -/
def traceRec (s : State) (p : Nat) (rec : List Byte) : State :=
  let t := (s.part p).trace
  if !t.on then s
  else if t.state = 3 then s
  else if t.state = 1 ∨ t.capacity = 0 ∨ (t.mode = 0 ∧ !obsRoom s p 32) then
    let s := s.modPart p fun x => { x with trace := { x.trace with state := 1, lost := t.lost + 1 } }
    count (traceSync s p) p 0x11 1
  else if !obsRoom s p 32 then
    let s := s.modPart p fun x => { x with trace := { x.trace with lost := t.lost + 1, gap := true } }
    count (traceSync s p) p 0x11 1
  else tracePut s p rec

/-- The 32 bytes of a trace record (Table Observation-3). -/
def traceBytes (s : State) (p kind flags engine ctx seq skein layer op member status : Nat) : List Byte :=
  toLe 8 (time s) ++ toLe 1 kind ++ toLe 1 (flags / 2 * 2 + (if (s.part p).trace.gap then 1 else 0)) ++ toLe 2 engine
    ++ toLe 3 ctx ++ [0] ++ toLe 2 seq ++ toLe 2 skein ++ toLe 4 layer ++ toLe 4 op ++ toLe 2 member ++ toLe 2 status

/-- The member that a partition is in a job, 0 outside a job (R550). -/
def memberIdx (s : State) (j p : Nat) : Nat := (s.job j).members.findIdx fun m => m.pkg == myPkg s && m.part == p

/-- The member of a step's job, 0 outside a job. -/
def stepMember (s : State) (st : Step) : Nat :=
  match st.job with
  | some (j, _) => memberIdx s j st.part % 4096
  | none => 0

/-- The program a step runs: its own or its fallback (R321). -/
def runProg (st : Step) : Nat := if st.useFb then st.fallback.getD st.prog else st.prog

/-- The file of the program a step runs. -/
def stepFile (s : State) (st : Step) : Upf.File := (tget (s.part st.part).progs (runProg st) {}).upf

/-- A trace record of a step: kind, engine, status; not of a skein. -/
def traceStep (s : State) (slot kind flags engine status : Nat) : State :=
  match tfind s.steps slot with
  | none => s
  | some st => traceRec s st.part (traceBytes s st.part kind flags engine (ctxHandle st.ctx st.ctxGen) st.seq 0xFFFF 0 0
      (stepMember s st) status)

/-- Layer identifier of a skein of a step (R174). -/
def skLayer (s : State) (st : Step) (skein : Nat) : Nat := ((nth (stepFile s st).skeins skein {}).layer + st.layerBase) % 2 ^ 32
/-- Its operator identifier (R174). -/
def skOperator (s : State) (st : Step) (skein : Nat) : Nat := ((nth (stepFile s st).skeins skein {}).operator + st.opBase) % 2 ^ 32

/-- A trace record of a skein on a tile (kinds 1 and 2). -/
def traceSkein (s : State) (slot kind t skein : Nat) (flags status : Nat) : State :=
  match tfind s.steps slot with
  | none => s
  | some st =>
    traceRec s st.part (traceBytes s st.part kind flags t (ctxHandle st.ctx st.ctxGen) st.seq skein
      (skLayer s st skein) (skOperator s st skein) (stepMember s st) status)

/-- The trigger of a trigger-centred trace (R552, R553): the marker is the next record. -/
def traceTrigger (s : State) (p : Nat) : State :=
  let t := (s.part p).trace
  if t.on ∧ t.mode = 2 ∧ t.trigger = none ∧ t.state = 0 ∧ t.capacity ≠ 0 then
    let s := s.modPart p fun x => { x with trace := { x.trace with trigger := some t.written, state := 2 } }
    tracePut s p (traceBytes s p 0x0A 0 0xFFF 0 0 0xFFFF 0 0 0 0)
  else s

/-- Trace off: its entries return to their reset values (R580); its object loses its reference. -/
def traceOff (s : State) (p : Nat) : State :=
  let i := (s.part p).trace.obj % 65536
  if (s.part p).trace.on then
    s.modPart p fun x => { x with trace := {}, objs := tput x.objs i { (tget x.objs i {}) with traceRef := false } }
  else s

end Sys2Proof.Machine
end

