-- ==== Sys2Proof/Machine/Cache.lean ====
section
/-! DEFINITION. The die caches: lines held in a partition's own ways, hits, misses and write-back (R267, R268, R362, R450). -/

namespace Sys2Proof.Machine

/-- The granule that holds a 64-byte line of cells: of object space by its part, else of the closed parts (R263, R265). -/
def lineGranule (s : State) (line : Nat) : Nat :=
  let a := 64 * line
  if 2 ^ 46 ≤ a then (a - 2 ^ 46) / 2 ^ 33
  else
    let x := s.part (a / 2 ^ 40)
    nth (partGranules x) (a % 2 ^ 40 / objPart x) 0

/-- The partition that holds the line. -/
def linePart (s : State) (line : Nat) : Nat :=
  if 2 ^ 46 ≤ 64 * line then (granuleOwner s (lineGranule s line)).getD 0 else 64 * line / 2 ^ 40

/-- The ways of a die that a partition holds (R267). -/
def ownWays (s : State) (p d : Nat) : List Nat := ((tget s.dieWays d []).filter fun e => e.2 == p).map (·.1)

/-- Lines of one way: 4 MiB of 64 bytes. -/
def waySets : Nat := 65536

/-- The line is held in a way of the partition (R268). -/
def cacheHit (s : State) (p d line : Nat) : Bool :=
  (tget s.caches d []).any fun c => c.line == line && (ownWays s p d).contains c.way

/-- Change the lines of a die's cache. -/
def setCache (s : State) (d : Nat) (l : List CacheLine) : State := { s with caches := tput s.caches d l }

/-- Port, and line of the port, of a line of cells (R259, R263). -/
def linePort (s : State) (line : Nat) : Nat × Nat :=
  let a := 64 * line
  let x := s.part (a / 2 ^ 40)
  let q := granulePort (lineGranule s line) (if 2 ^ 46 ≤ a then (a - 2 ^ 46) % 2 ^ 33 else storePart x + a % 2 ^ 40 % objPart x)
  (q.1, q.2 / 64)

/-- A line is read on its pseudo-channel port, with a tag that the spec does not choose (R31). -/
def readLine (s : State) (p line : Nat) : State :=
  let (v, s) := draw (countGlobal (count s p 0x08 64) 0 64)
  let q := linePort s line
  emit { s with hbmReads := s.hbmReads ++ [{ port := q.1, tag := v % 256, line := q.2 }] } (.hbmRead q.1 (v % 256) q.2 false)

/-- A dirty line of a partition goes back to HBM whole, with its poison (R31, R362). -/
def writeBack (p : Nat) (s : State) (c : CacheLine) : State :=
  if !c.dirty then s else
  let (v, s) := draw (countGlobal (count s p 0x09 64) 1 64)
  let q := linePort s c.line
  emit s (.hbmWrite q.1 (v % 256) q.2 (BitVec.allOnes 64) (s.hbmPoison.contains c.line))

/-- A line of a partition enters a way of its set; the line that stood there leaves. -/
def fillWay (s : State) (p d line way : Nat) (write : Bool) : State :=
  let out := fun (c : CacheLine) => c.way == way && c.line % waySets == line % waySets
  let s := forAll ((tget s.caches d []).filter out) (writeBack p) s
  setCache s d ((tget s.caches d []).filter (fun c => !out c) ++ [{ way, line, dirty := write }])

/-- A partition's access to a line: a hit in one of its own ways, else a miss that allocates in one of them, a free one first;
which of full ones gives up its line is drawn (R268; log 20). -/
def touchLine (p : Nat) (write : Bool) (s : State) (line : Nat) : State :=
  let d := granuleDie (lineGranule s line)
  if cacheHit s p d line then
    let s := count s p 0x0A 1
    if write then setCache s d ((tget s.caches d []).map fun c => if c.line = line then { c with dirty := true } else c) else s
  else
    let s := count s p 0x0B 1
    let s := if write then s else readLine s p line
    let ways := ownWays s p d
    match ways.find? fun w => !(tget s.caches d []).any fun c => c.way == w && c.line % waySets == line % waySets with
    | some w => fillWay s p d line w write
    | none =>
      if ways.isEmpty then s else
      let (k, s) := draw s
      fillWay s p d line (nth ways (k % ways.length) 0) write

/-- Its accesses to a list of lines. -/
def touchLines (s : State) (p : Nat) (write : Bool) (lines : List Nat) : State := forAll lines (touchLine p write) s

/-- The lines of `n` bytes of cells from `a` on. -/
def rangeLines (a n : Nat) : List Nat := if n = 0 then [] else (List.range ((a + n - 1) / 64 + 1 - a / 64)).map (· + a / 64)

/-- Lines of a partition leave the caches once they are written back: at its reset, whose zero-fill clears its ways (R450). -/
def flushPart (s : State) (p : Nat) : State :=
  let mine := fun (d : Nat) (c : CacheLine) => (ownWays s p d).contains c.way
  let s' := forAll s.caches (fun s e => forAll (e.2.filter (mine e.1)) (writeBack p) s) s
  { s' with caches := s'.caches.map fun e => (e.1, e.2.filter fun c => !mine e.1 c) }

/-- Lines of a range of a partition's cells are written back and stay clean (R362). -/
def cleanRange (s : State) (p a n : Nat) : State :=
  let here := fun (c : CacheLine) => decide (a / 64 ≤ c.line ∧ 64 * c.line < a + n)
  let s' := forAll s.caches (fun s e => forAll (e.2.filter here) (writeBack p) s) s
  { s' with caches := tmap s'.caches fun _ l => l.map fun c => if here c then { c with dirty := false } else c }

end Sys2Proof.Machine
end

