-- ==== Sys2Proof/Machine/Ports.lean ====
section
/-! DEFINITION. The send side of the transport boundary: routes (R252 to R254, R379, R387, R388), credits and their rotation (R32,
R391, R392), data messages (R383 to R385) and control cells. -/

namespace Sys2Proof.Machine

/-! ### Routes -/

/-- Hops of one dimension: the shorter way round, the positive one between equals (R253). -/
def dimHops (code a b k : Nat) : List Nat :=
  let d := (b + k - a % k) % k
  if 2 * d ≤ k then List.replicate d code else List.replicate (k - d) (code + 1)

/-- The six dimension orders of R253 and R254. -/
def dimOrders : List (List Nat) := [[0, 1, 2], [0, 2, 1], [1, 0, 2], [1, 2, 0], [2, 0, 1], [2, 1, 0]]

/-- Coordinate `d` of a package number (R379). -/
def pkgCoord (pkg d : Nat) : Nat := pkg / 16 ^ d % 16

/-- Ring size of dimension `d`. -/
def ringSize (s : State) (d : Nat) : Nat :=
  match s.aon.coords with
  | some (_, _, _, kx, ky, kz) => if d = 0 then kx else if d = 1 then ky else kz
  | none => 1

/-- The route from one package to another in one dimension order. -/
def routeIn (s : State) (src pkg : Nat) (order : List Nat) : List Nat :=
  order.flatMap fun d => dimHops (2 * d) (pkgCoord src d) (pkgCoord pkg d) (max 1 (ringSize s d))

/-- The port by which a hop leaves (R387, R410). -/
def hopPort (v : Variant) (h : Nat) : Nat := if v = .rv9h ∧ 2 ≤ h then 2 else h

/-- The package that a hop leads to. -/
def nextPkg (s : State) (pkg h : Nat) : Nat :=
  let d := h / 2
  let k := max 1 (ringSize s d)
  let c := pkgCoord pkg d
  pkg - c * 16 ^ d + (if h % 2 = 0 then (c + 1) % k else (c + k - 1) % k) * 16 ^ d

/-- The link that a hop takes from a package is one of this package's that is down; of the links between other packages nothing
is reported here (R254). -/
def linkDown (s : State) (pkg h : Nat) : Bool :=
  (pkg == myPkg s && !(s.port (hopPort s.variant h)).up)
    || (nextPkg s pkg h == myPkg s && !(s.port (hopPort s.variant (if h % 2 = 0 then h + 1 else h - 1))).up)

/-- A route from a package avoids every down link. -/
def routeClear (s : State) : Nat → List Nat → Bool
  | _, [] => true
  | pkg, h :: r => !linkDown s pkg h && routeClear s (nextPkg s pkg h) r

/-- The first order whose route avoids every down link (R253, R254). -/
def routeFrom (s : State) (src pkg : Nat) : Option (List Nat) := (dimOrders.map (routeIn s src pkg)).find? (routeClear s src)

/-- The route from this package. -/
def routeTo (s : State) (pkg : Nat) : Option (List Nat) := routeFrom s (myPkg s) pkg

/-- The port of a route's first hop. -/
def routePort (s : State) (r : List Nat) : Nat := match r with
  | h :: _ => hopPort s.variant h
  | [] => 7

/-! ### Sending -/

/-- Credits that a message takes (R391). -/
def msgCost (m : TxMsg) : Nat := if m.bulk then ceilDiv (32 + m.payload.length) 64 else 1

/-- Bytes on the link. -/
def msgBytes (m : TxMsg) : Nat := if m.bulk then 32 + m.payload.length else 64

/-- The message is an abort notice, which alone leaves during an egress freeze (R432). -/
def isNotice (m : TxMsg) : Bool := match m.ctl with
  | some (.notice ..) => true
  | _ => false

/-- The port can take the message now (R32, R391). -/
def canSend (frozen : Bool) (x : LinkPort) (m : TxMsg) : Bool :=
  x.up && !x.shut && (!frozen || isNotice m) && decide (msgCost m ≤ (if m.bulk then x.bulkHeld else x.cellHeld))

/-- The message whose engine's turn it is: each engine's first, in rotation by engine identifier (R392); firmware's control cells
take the turn of 0xFFF. -/
def nextTx (frozen : Bool) (x : LinkPort) : Option Nat :=
  (minBy (fun e => (4096 + e.1.eng - x.lastEng % 4096 - 1) % 4096)
    (x.txq.zipIdx.filter fun e => canSend frozen x e.1
      && (x.txq.take e.2).all fun m => m.eng != e.1.eng || (frozen && !isNotice m))).map (·.2)

/-- The `route` field: hop j in bits [3j+2:3j] (Table Fabric-2). -/
def routeField (r : List Nat) : Nat := r.foldr (fun h n => h + 8 * n) 0

/-- The 16 header bytes of a cell; `vc` is 0 (Table Fabric-2, R390). -/
def cellHeader (m : TxMsg) : List Byte :=
  toLe 16 (routeField m.route + 2 ^ 72 * m.route.length + 2 ^ 78 * (m.kind % 8) + 2 ^ 81 * (m.gen % 256) + 2 ^ 89 * (m.window % 1024)
    + 2 ^ 99 * m.pos)

/-- The 32 header bytes of a bulk message; `vc` is 0 (Table Fabric-3, R390). -/
def bulkHeader (m : TxMsg) : List Byte :=
  toLe 9 (routeField m.route) ++ toLe 1 m.route.length ++ toLe 1 (m.kind % 8) ++ toLe 1 m.gen ++ toLe 2 (m.window % 1024)
    ++ toLe 2 m.payload.length ++ toLe 5 m.pos ++ List.replicate 11 0

/-- What leaves for a message. -/
def txOut (p : Nat) (m : TxMsg) : Out :=
  match m.ctl with
  | some o => o
  | none => if m.bulk then .bulk p m.qp (bulkHeader m) m.payload m.bad else .cell p m.qp (cellHeader m) m.payload m.bad

/-- Send one message, if one can go. -/
def sendOne (s : State) (p : Nat) : State :=
  match nextTx s.coll.freeze (s.port p) with
  | none => s
  | some i =>
    let m := nth (s.port p).txq i {}
    let s := s.modPort p fun x =>
      { x with
        txq := x.txq.eraseIdx i, lastEng := m.eng, txCtr := (x.txCtr + 1) % 2 ^ 96
        cellHeld := if m.bulk then x.cellHeld else x.cellHeld - 1
        bulkHeld := if m.bulk then x.bulkHeld - msgCost m else x.bulkHeld }
    let s := count (countGlobal s (4 + p) (msgBytes m)) m.part 0x0D (msgBytes m)
    emit s (txOut p m)

/-- Send as much as the credits allow. -/
def drainTx (s : State) (p : Nat) : State := (List.range (s.port p).txq.length).foldl (fun s _ => sendOne s p) s

/-- Hand messages to a port. -/
def sendAll (s : State) (p : Nat) (l : List TxMsg) : State := drainTx (s.modPort p fun x => { x with txq := x.txq ++ l }) p

/-- Cut bytes into pieces. -/
def pieces (n : Nat) : Nat → List Byte → List (List Byte)
  | 0, _ => []
  | k + 1, bs => if bs.isEmpty then [] else bs.take n :: pieces n k (bs.drop n)

/-- A run of bytes at its offset in a window, with the places of its poisoned bytes. -/
structure Run where
  /-- byte offset in the window -/
  pos : Nat
  /-- its bytes -/
  bytes : List Byte
  /-- offsets of poisoned bytes within it -/
  bad : List Nat := []

/-- The messages that carry runs of data: one cell for a transfer of up to 48 bytes that lies where a cell can land, bulk
messages of up to 8 KiB otherwise (R383 to R385). Number and generation of the window at the receiver come from one drawn
value `w` (log 56). -/
def dataMsgs (eng qp kind w part : Nat) (route : List Nat) (l : List Run) (slot : Option Nat := none) : List TxMsg :=
  let window := w % 1023
  let gen := w / 1023 % 256
  let bulks := l.flatMap fun r => (pieces 8192 (ceilDiv r.bytes.length 8192) r.bytes).zipIdx.map fun e =>
    ({ bulk := true, eng, qp, kind, window, gen, part, slot, route, pos := r.pos + 8192 * e.2, payload := e.1
       bad := (r.bad.filter fun b => decide (8192 * e.2 ≤ b ∧ b < 8192 * (e.2 + 1))).map (· - 8192 * e.2) } : TxMsg)
  match l with
  | [r] => if r.bytes.length ≤ 48 ∧ r.pos % 48 = 0
      then [{ eng, qp, kind, window, gen, part, slot, route, pos := r.pos / 48, payload := padTo 48 r.bytes, bad := r.bad }] else bulks
  | _ => bulks

/-- A control cell for spindle firmware of a package goes by a route; with none it cannot go. What is meant for this package never
enters the transport (R388). -/
def sendCtl (s : State) (part pkg : Nat) (route : Option (List Nat)) (o : Out) : State :=
  if pkg = myPkg s then emit s o else
  match route with
  | some (h :: r) => sendAll s (hopPort s.variant h) [{ eng := 0xFFF, kind := 2, window := 0x3FF, part, route := h :: r, ctl := some o }]
  | _ => s

end Sys2Proof.Machine
end

