-- ==== Sys2Proof/Machine/Work.lean ====
section
/-! DEFINITION. Steps and what they hold: entries due to event rings, responses, fences, the failing and finishing of a step,
context teardown, job abort. -/

namespace Sys2Proof.Machine

/-! ### Responses and event entries -/

/-- A request taken and not answered, with this tag; of several with one tag the latest (log 37). -/
def takenOf (s : State) (f tag : Nat) : Option Taken := (s.func f).taken.reverse.find? fun t => t.tag == tag

/-- Queue the response of a taken request (R334, R336). -/
def answerWith (s : State) (f tag status detail : Nat) (payload ext : List Byte) (waits : Bool) : State :=
  match takenOf s f tag with
  | none => s
  | some t =>
    let r : Rsp :=
      { opcode := t.opcode, tag, critical := t.critical, status := BitVec.ofNat 16 status, detail := BitVec.ofNat 64 detail
        payload, ext, boot := t.boot, waits }
    s.modFunc f fun x => { x with taken := x.taken.erase t, rsps := x.rsps ++ [r] }

/-- A response without payload. -/
def answer (s : State) (f tag status detail : Nat) : State := answerWith s f tag status detail [] [] false

/-- Answer a request kept as function and tag, if any. -/
def answerOpt (s : State) (r : Option (Nat × Nat)) (status detail : Nat) : State :=
  match r with
  | none => s
  | some (f, tag) => answer s f tag status detail

/-- An entry becomes due to a function; during its FLR it is discarded (R281). -/
def pushEntry (s : State) (f : Nat) (e : Entry) : State :=
  s.modFunc f fun x => if x.inFlr then x else { x with evtQueue := x.evtQueue ++ [e] }

/-- q on the PF ring, j on a VF ring (Table Host-5). -/
def queueField (s : State) (p q : Nat) : Nat := if (s.part p).owner = 0 then q else (s.queue q).j

/-- The completion entry of a step (R365). -/
def stepEntry (s : State) (slot : Nat) (st : Step) : Entry :=
  { cookie := st.cookie, handle := ctxHandle st.ctx st.ctxGen, seq := st.seq, queue := queueField s st.part st.queue,
    status := st.fail.getD 0, conv := st.conv, waits := st.waitView, fallback := st.useFb, kind := 1, slot := some slot,
    waitsRb := st.hostWrites }

/-! ### Step states (R304, R323) -/

/-- Add the time spent in the present state to the context's record. -/
def accrue (s : State) (slot : Nat) : State :=
  match tfind s.steps slot with
  | none => s
  | some st =>
    let d := time s - st.stateAt
    let s := s.modStep slot fun x => { x with stateAt := time s }
    if (s.ctx st.ctx).gen = st.ctxGen ∧ (s.ctx st.ctx).part.isSome then
      s.modCtx st.ctx fun c =>
        if st.state = 3 then { c with runNs := c.runNs + d }
        else if st.state = 1 ∨ st.state = 2 ∨ st.state = 4 then { c with waitNs := c.waitNs + d }
        else c
    else s

/-- Move a step to a state of Table Scheduling-4. -/
def setState (s : State) (slot n : Nat) : State := (accrue s slot).modStep slot fun x => { x with state := n }

/-! ### Windows -/

/-- Close a window: its generation increments (R381); the control window is never closed (R458). -/
def closeWindow (s : State) (w : Nat) : State :=
  if w = 0x3FF ∨ (s.window w).isOpen = false then s
  else s.modWindow w fun x => { x with isOpen := false, gen := (x.gen + 1) % 256, closedAt := time s }

/-- Close every open window that satisfies a test. -/
def closeWindows (s : State) (c : Window → Bool) : State :=
  forAll (s.windows.filter fun e => e.2.isOpen && c e.2) (fun s e => closeWindow s e.1) s

/-! ### Removing a step's work (R446) -/

/-- Remove the work of a step from every engine; what it still has to send is discarded. -/
def dropWork (s : State) (slot : Nat) : State :=
  let keepRun := fun (r : Option SkeinRun) => r.filter fun x => x.slot != slot
  let s := { s with
    tiles := tmap s.tiles fun _ t => { t with
      run := keepRun t.run
      tails := t.tails.filter fun x => x.slot != slot
      bufs := t.bufs.filter fun b => b.slot != slot }
    sorters := tmap s.sorters fun _ x => { x with
      reqs := x.reqs.filter fun r => r.slot != slot
      run := x.run.filter fun r => r.slot != slot }
    ports := tmap s.ports fun _ x => { x with txq := x.txq.filter fun m => m.slot != some slot }
    sortWait := s.sortWait.filter fun r => r.slot != slot
    addedWork := s.addedWork.filter fun r => r.slot != slot
    reducers := tmap s.reducers fun _ x => { x with
      plans := x.plans.filter fun r => r.slot != slot
      run := x.run.filter fun r => r.slot != slot }
    remOps := s.remOps.filter fun r => r.slot != slot
    parts := tmap s.parts fun _ x => { x with
      running := x.running.filter fun k => k != slot
      switchTo := x.switchTo.filter fun k => k != slot
      switchReq := if x.running = some slot then 0 else x.switchReq } }
  match tfind s.steps slot with
  | some st => match st.job with
    | some (j, _) => closeWindows s fun w => w.job == j && w.part == st.part
    | none => s
  | none => s

/-! ### Tensor watch results (R563) -/

/-- One 64-byte result (Table Observation-6). -/
def watchBytes (st : Step) (i : Nat) (w : WatchSel) (a : WatchAcc) (failed : Bool) : List Byte :=
  toLe 4 (ctxHandle st.ctx st.ctxGen) ++ toLe 4 st.seq ++ toLe 1 i ++ toLe 1 (if w.digest then 1 else 0)
    ++ toLe 1 (if failed then 1 else 0) ++ List.replicate 5 0 ++ toLe 8 a.count
    ++ toLe 8 (if w.digest then 0 else a.nan) ++ toLe 8 (if w.digest then 0 else a.zero)
    ++ toLe 4 (if w.digest then 0 else a.min.toNat) ++ toLe 4 (if w.digest then 0 else a.max.toNat)
    ++ toLe 4 (if w.digest then 0 else a.sum.toNat) ++ toLe 4 (if w.digest then 0 else a.sumsq.toNat)
    ++ toLe 8 (if w.digest then a.digest.toNat else 0)

/-- Write the results of a step's release, one for each selection whose program the step released. -/
def watchRelease (s : State) (slot : Nat) (st : Step) : State :=
  let p := st.part
  let accs := tget (s.part p).watchAcc slot []
  let s := forAll ((s.part p).watch.sels.zipIdx) (fun s e =>
    if e.1.prog % 65536 = runProg st then
      let a := nth accs e.2 {}
      let w := (s.part p).watch
      let s := if w.capacity = 0 then s else
        let s := objWrite (obsSpend s p 64) p (w.obj % 65536) (64 + 64 * (w.written % w.capacity)) (watchBytes st e.2 e.1 a st.fail.isSome)
        let s := objWrite s p (w.obj % 65536) 0 (toLe 8 (w.written + 1))
        let s := s.modStep slot fun x => { x with watchAt := x.watchAt ++ [64 + 64 * (w.written % w.capacity)] }
        s.modPart p fun x => { x with watch := { x.watch with written := w.written + 1 } }
      if e.1.trigger && !e.1.digest && a.nan != 0 then traceTrigger s p else s
    else s) s
  s.modPart p fun x => { x with watchAcc := tdel x.watchAcc slot }

/-! ### Completion (R304, R444) -/

/-- The step's outcome is settled: its watch results are written, and its completion entry is due. A derived step of a
member other than member 0 has no entry of its own (R251). -/
def noteDone (s : State) (slot : Nat) : State :=
  match tfind s.steps slot with
  | none => s
  | some st =>
    if st.notedDone then s else
    let s := if st.passedAt.isSome then s else watchRelease s slot st
    let s := s.modStep slot fun x => { x with notedDone := true }
    match st.job with
    | some (j, _) => if memberIdx s j st.part = 0 then pushEntry s (s.part st.part).owner (stepEntry s slot st) else s
    | none => pushEntry s (s.part st.part).owner (stepEntry s slot st)

/-- The gate passed in this very tick, and the step's entry is not written. -/
def justPassed (s : State) (st : Step) : Bool := st.notedDone && st.fail.isNone && st.passedAt == some (time s)

/-- A fault or an abort notice of the tick in which the gate passed finds the step open: its entry is taken back, and its watch
results show the failure (R434, R464). -/
def reopen (s : State) (slot : Nat) : State :=
  match tfind s.steps slot with
  | none => s
  | some st =>
    if justPassed s st then
      let o := (s.part st.part).watch.obj % 65536
      let s := forAll st.watchAt (fun s a => objWrite s st.part o (a + 10) [1]) s
      let s := s.modStep slot fun x => { x with notedDone := false }
      s.modFunc (s.part st.part).owner fun x => { x with evtQueue := x.evtQueue.filter fun e => e.slot != some slot }
    else s

/-- The step ends as failed with `status`; the first failure stands (Table Reset-8). -/
def failRaw (s : State) (slot : Nat) (status : Code) : State :=
  match tfind s.steps slot with
  | none => s
  | some st =>
    if st.fail.isSome || st.notedDone then s else
    let s := dropWork s slot
    let s := setState s slot (if st.state = 3 ∨ st.state = 4 ∨ st.state = 5 then 5 else 6)
    let s := s.modStep slot fun x => { x with fail := some status, saved := [], savedPoison := [], spilled := false }
    noteDone s slot

/-! ### Job abort (R459 to R466) -/

/-- The 48-byte payload of an abort notice (Table Reset-4). -/
def noticeBytes (n : Notice) : List Byte :=
  toLe 2 1 ++ toLe 2 n.origin ++ toLe 4 n.job ++ toLe 4 n.jstep ++ toLe 2 n.cause.toNat ++ toLe 2 n.code.toNat ++ toLe 8 n.detected
    ++ toLe 1 (if n.lost then 1 else 0) ++ toLe 1 n.pgen ++ toLe 4 n.startNo ++ List.replicate 18 0

/-- A notice for the packages of a list of members. -/
def noticeTo (s : State) (j : Nat) (dest : List Nat) (n : Notice) : State :=
  let ms := (s.job j).members
  forAll dest (fun s m => sendCtl s 0 (ms.getD m {}).pkg (tfind (s.job j).routes m) (.notice (ms.getD m {}).pkg n (noticeBytes n))) s

/-- Send the notice: member 0 to every other member, any other member to member 0, or, with the link to member 0 down, to
its data neighbours (R461, Table Reset-8). -/
def sendNotice (s : State) (j origin : Nat) (n : Notice) : State :=
  let ms := (s.job j).members
  let up0 := match tfind (s.job j).routes 0 with
    | some (h :: _) => (s.port (hopPort s.variant h)).up
    | _ => true
  let dest := if origin = 0 then (List.range ms.length).drop 1
    else if up0 then [0] else ((s.job j).routes.map (·.1)).filter fun m => m ≠ 0 ∧ m ≠ origin
  noticeTo s j dest n

/-- Start the abort of job step `jstep` here (R459); a step already aborted is ignored (R461). -/
def startAbort (s : State) (j jstep p : Nat) (cause code : Code) (lost : Bool) : State :=
  if !(s.job j).live || (s.job j).aborted.contains jstep then s else
  let origin := memberIdx s j p
  let s := s.modJob j fun x => { x with aborted := x.aborted ++ [jstep], broken := x.broken || (lost && origin == 0) }
  let s := closeWindows s fun w => w.job == j
  sendNotice s j origin
    { origin, job := jobHandle s j, jstep, cause, code, detected := time s, lost, pgen := tget s.partGen p 0,
      startNo := s.life.startNo }

/-- A step fails with `status`, the fault code being `code` (or 0); a step of a job starts the job abort (R459). -/
def failWith (s : State) (slot : Nat) (status code : Code) : State :=
  match tfind s.steps slot with
  | none => s
  | some st =>
    if st.fail.isSome || st.notedDone then s else
    let s := failRaw s slot status
    match st.job with
    | some (j, k) => startAbort s j k st.part status code false
    | none => s

/-- A step fails with `status`. -/
def failStep (s : State) (slot : Nat) (status : Code) : State := failWith s slot status 0

/-- Slots of the steps that satisfy a test. -/
def slotsWhere (s : State) (c : Step → Bool) : List Nat := (s.steps.filter fun e => c e.2).map (·.1)

/-- Every step that satisfies a test fails with `status`. -/
def failAll (s : State) (c : Step → Bool) (status : Code) : State :=
  forAll (slotsWhere s c) (fun s k => failStep s k status) s

/-- A job leaves: its steps here end as aborted, its windows close, and its index takes the next generation (Table
Partitions-5). -/
def deleteJob (s : State) (j : Nat) : State :=
  let s := failAll s (fun st => match st.job with
    | some (k, _) => k == j
    | none => false) 0x0D10
  let s := closeWindows s fun w => w.job == j
  { s with jobs := tmap s.jobs fun k x => if k = j then { gen := (x.gen + 1) % 256 } else x }

/-- The pair that a member carries is the one recorded at JOB_CREATE (R465). -/
def pairOk (s : State) (j i pgen startNo : Nat) : Bool :=
  let m := nth (s.job j).members i {}
  m.pgen == pgen && m.startNo == startNo

/-- A member is lost: no step of the job runs any more (R465). -/
def breakJob (s : State) (j : Nat) : State := s.modJob j fun x => { x with broken := true }

/-! ### Fences (R291 to R294) -/

/-- A handle names the fence in its present generation (R287, R291). -/
def namesFence (s : State) (p i h : Nat) : Bool :=
  h != 0xFFFFFF && h % 65536 == i && h / 65536 == (tget (s.part p).fences i {}).gen

/-- Steps of the partition that wait on the fence. -/
def fenceWaiters (s : State) (p i : Nat) : List Nat :=
  slotsWhere s fun st => st.part == p && st.state == 1 && st.waits.any (namesFence s p i)

/-- Put `v` in position `j` of a two-bit view list. -/
def setView (v j x : Nat) : Nat := v - v / 4 ^ j % 4 * 4 ^ j + x * 4 ^ j

/-- Set the view of every wait that names fence `i`. -/
def viewAll (waits : List Nat) (i status v : Nat) : Nat :=
  waits.zipIdx.foldl (fun v e => if e.1 % 65536 = i ∧ e.1 ≠ 0xFFFFFF then setView v e.2 status else v) v

/-- The fence becomes SIGNALLED with a status; its entry is due with its own vector; waiters see the status and, but for OK,
fail with 0x0754. -/
def signalFence (s : State) (p i status : Nat) : State :=
  match tfind (s.part p).fences i with
  | none => s
  | some f =>
    if !f.live || f.status.isSome then s else
    let ws := fenceWaiters s p i
    let s := s.modPart p fun x => { x with fences := tput x.fences i { f with status := some status } }
    let s := pushEntry s (s.part p).owner
      { cookie := f.cookie, handle := i + 65536 * f.gen, seq := ctxHandle f.ctx f.ctxGen, status := BitVec.ofNat 16 status,
        kind := 2, fenceVec := f.vector }
    let s := forAll ws (fun s k => s.modStep k fun x => { x with waitView := viewAll x.waits i status x.waitView }) s
    if status = 0 then s else forAll ws (fun s k => failStep s k 0x0754) s

/-! ### References (R289, R294) -/

/-- A step, the trace, the watch, a placement log or a queue names the object. -/
def objHeld (s : State) (p i : Nat) : Bool :=
  (s.steps.any fun e => e.2.part == p && (e.2.inputs ++ e.2.outputs).any fun h => h != 0xFFFFFF && h % 65536 == i)
    || (memObj s p i).traceRef
    || ((s.part p).watch.obj != 0xFFFFFFFF && (s.part p).watch.obj % 65536 == i)
    || (s.queues.any fun e => e.2.live && e.2.part == p && e.2.ring % 65536 == i && !e.2.destroyed)
    || (s.ctxs.any fun e => e.2.logOn && e.2.part == some p && e.2.logObj % 65536 == i)

/-- Objects and fences that are leaving and no longer named are freed; their indices take the next generation (R287). -/
def reap (s : State) (p : Nat) : State :=
  s.modPart p fun x =>
    { x with
      objs := tmap x.objs fun i o =>
        if o.live && o.freeing && !objHeld s p i then { gen := (o.gen + 1) % 256 } else o
      fences := tmap x.fences fun i f =>
        if f.live && f.freeing && (fenceWaiters s p i).isEmpty then { gen := (f.gen + 1) % 256 } else f }

/-! ### Contexts (R282 to R285, R467 to R469) -/

/-- Tear a context down: its steps end with `status`, its fences are ABANDONED, its objects leave, its log and reservations
end, and its number returns to the free list with the next generation. -/
def teardown (s : State) (p c : Nat) (status : Code) : State :=
  let x := s.ctx c
  let s := failAll s (fun st => st.part == p && st.ctx == c && st.ctxGen == x.gen) status
  let owned := ((s.part p).fences.filter fun e => e.2.live && e.2.ctx == c && e.2.ctxGen == x.gen).map (·.1)
  let s := forAll owned (fun s i => signalFence s p i 2) s
  let tr := (s.part p).trace
  let s := if tr.on && (memObj s p (tr.obj % 65536)).ctx == c && (memObj s p (tr.obj % 65536)).ctxGen == x.gen
    then traceOff s p else s
  let s := s.modPart p fun y =>
    { y with
      fences := tmap y.fences fun i f => if owned.contains i then { f with freeing := true } else f
      objs := tmap y.objs fun _ o => if o.live && o.ctx == c && o.ctxGen == x.gen then { o with freeing := true } else o
      reservs := y.reservs.map fun r => if r.ctx = c ∧ r.ctxGen = x.gen then { r with leaving := true } else r }
  let s := s.modCtx c fun y => { gen := (y.gen + 1) % 256 }
  let s := { s with ctxFree := s.ctxFree ++ [c] }
  let s := s.modPart p fun y =>
    { y with reservs := y.reservs.filter fun r => !(r.leaving && !(s.quar.any fun q => q.2.ctx == r.ctx && q.2.ctxGen == r.ctxGen)
        && !(s.steps.any fun e => e.2.ctx == r.ctx && e.2.ctxGen == r.ctxGen)) }
  answerOpt (reap s p) x.drainTag 0 0

/-- Contexts of a partition. -/
def partCtxs (s : State) (p : Nat) : List Nat := (s.ctxs.filter fun e => e.2.part == some p).map (·.1)

/-! ### Bobbins that leave (R231, R237, R494) -/

/-- References on a bobbin: a step holds one on its bobbin and one on its fallback's (R231). -/
def bobbinRefs (s : State) (p b : Nat) : Nat :=
  (s.steps.filter fun e => e.2.part == p && e.2.bobbin == some b).length
    + (s.steps.filter fun e => e.2.part == p && e.2.fbBobbin == some b).length

/-- The partition still sends chunks of a served bobbin (R237). -/
def serving (s : State) (p : Nat) (b : Bobbin) : Bool :=
  !b.serving.isEmpty && s.ports.any fun e => e.2.txq.any fun m => m.part == p && m.slot.isNone && decide (2048 ≤ m.eng ∧ m.eng < 2080)

/-- Bobbins that are to go once nothing refers to them any more are removed from the catalogue. -/
def sweepBobbins (s : State) (p : Nat) : State :=
  s.modPart p fun x =>
    { x with bobbins := x.bobbins.filter fun e => !(e.2.removing && bobbinRefs s p e.1 == 0 && !serving s p e.2) }

/-! ### The deadline monitor's comparators (Table Mailbox-8) -/

/-- The monitor's 12 earliest expiries: deadlines of admitted steps that have not passed. -/
def expiries (s : State) : List Nat :=
  ((((s.steps.filter fun e => decide (e.2.deadline ≠ 0 ∧ time s ≤ e.2.deadline)).map (·.2.deadline)).dedup).mergeSort
    fun a b => decide (a ≤ b)).take 12

/-- Comparators 0 to 11 are armed with them: one that holds one keeps it, the others take the rest in ascending order. -/
def armMonitor (s : State) : State :=
  let l := expiries s
  let cmp := fun (n : Nat) => tget s.aon.cmps n {}
  let holds := fun (n : Nat) => (cmp n).armed && !(cmp n).fired && l.contains (cmp n).value
  let free := (List.range 12).filter fun n => !holds n
  let rest := l.filter fun v => !(List.range 12).any fun n => holds n && (cmp n).value == v
  let new := free.zipIdx.filterMap fun e => match rest[e.2]? with
    | some v => some (e.1, ({ value := v, armed := true } : Cmp))
    | none => if (cmp e.1).armed && !(cmp e.1).fired then some (e.1, {}) else none
  s.modAon fun a => { a with cmps := new.foldl (fun t e => tput t e.1 e.2) a.cmps }

/-! ### Posting a completion (R291, R300, R317) -/

/-- The completion entry of the step in `slot` is posted: fences signalled, references dropped, the slot freed into
quarantine with the next slot generation (R454, R455). -/
def finishStep (s : State) (slot : Nat) (late : Bool) : State :=
  match tfind s.steps slot with
  | none => s
  | some st =>
    let s := traceStep s slot 0x09 (if late then 8 else 0) 0xFFF (st.fail.getD 0).toNat
    let s := accrue s slot
    let s := if (s.ctx st.ctx).gen = st.ctxGen ∧ (s.ctx st.ctx).part.isSome then
        s.modCtx st.ctx fun c => { c with steps := c.steps + 1, late := c.late + (if late then 1 else 0) } else s
    let s := { s with
      steps := tdel s.steps slot
      slotGen := tput s.slotGen slot ((tget s.slotGen slot 0 + 1) % 256)
      quar := tput s.quar slot { part := st.part, since := time s, openReqs := st.requests, ctx := st.ctx, ctxGen := st.ctxGen } }
    let s := armMonitor s
    let ok := if st.fail.isSome then 1 else 0
    let s := forAll (st.signals.filter fun h => namesFence s st.part (h % 65536) h) (fun s h => signalFence s st.part (h % 65536) ok) s
    let s := reap s st.part
    let s := sweepBobbins s st.part
    let s := if (s.queue st.queue).destroyed ∧ !(s.steps.any fun e => e.2.queue == st.queue)
      then { s with queues := tdel s.queues st.queue } else s
    let c := s.ctx st.ctx
    if c.draining ∧ c.gen = st.ctxGen ∧ !(s.steps.any fun e => e.2.ctx == st.ctx && e.2.ctxGen == st.ctxGen)
    then teardown s st.part st.ctx 0x0D04 else s

end Sys2Proof.Machine
end

