-- ==== Sys2Proof/Machine/Reset.lean ====
section
/-! DEFINITION. Levels of FAULT_N, block reset and the start that follows it (R21 to R25, R451, R508 to R528). -/

namespace Sys2Proof.Machine

/-! ### FAULT_N (R16, R22, R418, R525) -/

/-- The level of FAULT_N: undefined while a rail is out or AON_RESET_N is low; low until the collector has initialised and
during block reset; otherwise, and while asleep, low exactly while `FLT_STATUS` is nonzero. -/
def faultN (s : State) : Bool :=
  if !aonUp s then Config.freeNat s.fresh % 2 == 0
  else if s.mainReset && s.aon.asleep then s.coll.status == 0
  else if s.mainReset || !s.coll.init then false
  else s.coll.status == 0

/-- Raise an I3C in-band interrupt (R38). -/
def raiseIbi (s : State) : State := emit (s.modAon fun a => { a with vmonBoot := true }) .ibi

/-- An in-band interrupt when FAULT_N or TRAY_PWR_REQ_N has fallen between two states (R38). -/
def withIbi (s t : State) : State :=
  if aonUp s && ((faultN s && !faultN t) || (s.aon.trayReqN && !t.aon.trayReqN)) then raiseIbi t else t

/-! ### The life-cycle record and the start log -/

/-- Masks of the states (Table Lifecycle-3). -/
def lcMasks : List (Nat × Nat) := [(1, 0x5A3C), (2, 0xC3A5), (3, 0x3C5A), (4, 0xA5C3), (5, 0x0FF0), (6, 0xF00F)]

/-- The code word of a mask (R509). -/
def stateWord (m : Nat) : List Byte := (List.range 16).map fun i => if bitOf m i then 0x0F else 0xF0

/-- The state a word decodes to (R509). -/
def decodeWord (w : List Byte) : Option Nat := (lcMasks.find? fun e => stateWord e.2 == w).map (·.1)

/-- State code and last valid slot (R510). -/
def decodeRecord (l : List LcSlot) : Nat × Option Nat :=
  l.zipIdx.foldl (fun a e => match decodeWord e.1.word with
    | some c => (c, some e.2)
    | none => (0x0F, a.2)) (0, none)

/-- The state of the last valid slot, BLANK for none (R514). -/
def priorOf (l : List LcSlot) : Nat :=
  match (decodeRecord l).2 with
  | some n => (decodeWord (nth l n {}).word).getD 0
  | none => 0

/-- The index k of the next valid slot (R510). -/
def lcK (l : List LcSlot) : Nat := match (decodeRecord l).2 with | some n => n + 1 | none => 0

/-- The state whose rules hold: LOCKED behaves as FIELD with debug closed (R511). -/
def debugOpen (lc : Nat) : Bool := lc == 0 || lc == 1 || lc == 4 || lc == 5

/-- Factory test and scan open (Table Lifecycle-1). -/
def testOpen (lc : Nat) : Bool := lc == 1 || lc == 5

/-- FAULT_INJECT accepted (Table Lifecycle-1). -/
def injectOpen (lc : Nat) : Bool := lc == 1 || lc == 4 || lc == 5

/-- A start-log entry is valid (R517). -/
def entryValid (e : StartEntry) : Bool := e.startNo + e.comp == 2 ^ 32 - 1

/-- The highest valid start number, 0 for none (R517). -/
def curStart (l : Life) : Nat := maxNat ((l.sectors.flatten.filter entryValid).map (·.startNo))

/-- The sector that holds the current number. -/
def curSector (l : Life) : Nat :=
  match l.sectors.findIdx? fun x => x.any fun e => entryValid e && e.startNo == curStart l with
  | some i => i
  | none => 0

/-- Entries of one sector. -/
def sectorSize : Nat := 256

/-- Append an entry after the current one; a full sector erases the other and goes on there (R517). -/
def logEntry (l : Life) (e : StartEntry) : Life :=
  let i := curSector l
  let sec := nth l.sectors i []
  if sec.length < sectorSize then { l with sectors := l.sectors.set i (sec ++ [e]) }
  else { l with sectors := l.sectors.set (1 - i) [e] }

/-- An entry whose verification fails: its complement does not check (R518). -/
def spoiledEntry : StartEntry := { startNo := 0, comp := 0 }

/-- Write the new entry after `tries` attempts that fail verification; 256 failing attempts and it is not written. -/
def writeEntry (l : Life) (tries : Nat) : Life :=
  let n := (curStart l + 1) % 2 ^ 32
  let l := (List.replicate (min tries 256) spoiledEntry).foldl logEntry l
  if tries < 256 then
    { logEntry l { startNo := n, comp := 2 ^ 32 - 1 - n } with startNo := n, entryWritten := true }
  else { l with startNo := n, entryWritten := false }

/-- Change the entry of this start. -/
def modEntry (l : Life) (f : StartEntry → StartEntry) : Life :=
  { l with sectors := l.sectors.map fun x => x.map fun e => if entryValid e && e.startNo == l.startNo then f e else e }

/-- Valid entries before the current start, newest first, each number once. -/
def pastEntries (l : Life) : List StartEntry :=
  ((l.sectors.flatten.filter fun e => entryValid e && decide (e.startNo < l.startNo)).mergeSort
    fun a b => decide (b.startNo ≤ a.startNo))

/-- Consecutive entries without `done` that precede the current one, saturating at 15 (R521). -/
def countFails (l : Life) : Nat := min 15 ((pastEntries l).takeWhile fun e => e.done == 0xFF).length

/-- `fail_cause` of the newest failed entry; an interrupted start counts as cause 6 (R519). -/
def newestFail (l : Life) : Nat :=
  match pastEntries l with
  | e :: _ => if countFails l = 0 then 0 else if e.cause = 0xFF then 6 else e.cause
  | [] => 0

/-! ### Block reset -/

/-- What a flash operation cut by a reset leaves (R24, Table Lifecycle-13): an image under update is lost; a slot under
programming is untouched, spoiled or whole, freely. -/
def cutFlash (s : State) : State :=
  match s.life.flashJob with
  | none => s
  | some j =>
    if j.kind = 0 then
      let (v, s) := draw s
      s.modLife fun l => { l with slots :=
        if v % 3 = 0 then l.slots
        else if v % 3 = 1 then l.slots ++ [{ word := List.replicate 16 0xFF, startNo := l.startNo }]
        else l.slots ++ [{ word := stateWord (tget lcMasks j.target 0), startNo := l.startNo }] }
    else s.modLife fun l => { l with image := [] }

/-- What the flash and the fuses keep (Table Lifecycle-2, R539). -/
def flashOf (l : Life) : Life :=
  { slots := l.slots, svnFloor := l.svnFloor, sectors := l.sectors, ownerCred := l.ownerCred, hasIdentity := l.hasIdentity,
    hasCert := l.hasCert, devsets := l.devsets, image := l.image, unitId := l.unitId, nextCause := l.nextCause,
    nextCode := l.nextCode }

/-- The collector after a block reset: the log stays, everything else returns to its reset value (R419). -/
def collReset (c : Collector) : Collector := { log := c.log }

/-- The always-on domain at a block reset: outputs as Table Boundary-5. -/
def aonReset (a : Aon) (now : Nat) (first : Bool) : Aon :=
  { a with secalmN := true, stopOutN := a.stopInN, asleep := false, retention := false,
           sleepImage := [], blkHighSince := if first then now else a.blkHighSince }

/-- Enter block reset for a cause of Table Lifecycle-9 (R23, R25, R451): every main-domain register returns to its reset
value; the always-on domain, the log, the flash and what lies outside the block stay. -/
def enterReset (s : State) (cause : Nat) (code : Code) : State :=
  let s := cutFlash s
  let first := !s.mainReset || s.aon.asleep
  { State.reset with
    variant := s.variant
    aon := aonReset s.aon (time s) first
    coll := collReset s.coll
    life := { flashOf s.life with
      nextCause := if first then cause else s.life.nextCause
      nextCode := if first then code else s.life.nextCode }
    funcs := tmap s.funcs fun _ f => { enabled := f.enabled }
    host := { linkUp := s.host.linkUp }
    out := s.out
    fresh := s.fresh
    pending := s.pending }

/-- Fresh host key, mailbox keys and link state at a full start (R343, R451, R475). -/
def drawKeys (s : State) : State :=
  let (k, s) := drawKey s
  let s := s.modLife fun l => { l with hostKey := k }
  forAll (List.range 64) (fun s f =>
    let (k, s) := drawKey s
    s.modFunc f fun x => { x with key := k, ctrLast := 0, exhausted := false }) s

/-- A fault code reaches the collector before it is ready: logged when it initialises (R441). -/
def early (s : State) (c : Code) : State := s.modColl fun x => { x with early := x.early ++ [{ code := c }] }

/-- The full start begins (R517 to R523): the flash is reset, the record decoded, the start entry written, the registers of
the start set; minimal mode is entered under R521. -/
def beginStart (s : State) (tries : Nat) : State :=
  let s := { s with mainReset := false }
  let s := emit s .flashReset
  let l := s.life
  let (lc, last) := decodeRecord l.slots
  let l := writeEntry l tries
  let fails := countFails l
  let why := if lc = 0 then 2 else if lc = 6 then 3 else if 3 ≤ fails then 1 else 0
  let l := { l with
    lc, lastValid := last, slotsUsed := l.slots.length, priorState := priorOf l.slots, cause := l.nextCause
    code := if l.nextCause = 4 ∨ l.nextCause = 5 then l.nextCode else 0
    minimal := why != 0, minWhy := why, fails, lastFail := newestFail l
    startAt := time s, starting := why == 0, nextCause := 1, nextCode := 0
    hasIdentity := l.hasIdentity || lc == 1
    attestKey := why != 0 && (l.hasIdentity || lc == 1) && lc != 0 && lc != 6 && lc != 5 }
  let s := { s with life := l }
  let s := s.modAon fun a => { a with wakeN := true }
  let s := if l.entryWritten then drawKeys s else s
  if lc = 0x0F then early s 0xAA03 else s

/-- Leave an internal block reset: with the pins as a start needs them the start begins at once (R451, R520). -/
def startIfFree (s : State) : State :=
  if aonUp s && s.aon.refclk && s.aon.pwrGood && s.aon.blkResetN && !s.aon.needBlkCycle then beginStart s 0 else s

/-- A block reset that Kerurn starts itself. -/
def selfReset (s : State) (cause : Nat) (code : Code) : State := withIbi s (startIfFree (enterReset s cause code))

end Sys2Proof.Machine
end

