-- ==== Sys2Proof/Machine/Faults.lean ====
section
/-! DEFINITION. The fault collector: latching, the log, containment and the fatal freeze (R414 to R432). -/

namespace Sys2Proof.Machine

/-- Class of a code: 1 corrected, 2 contained, 3 fatal (R415). -/
def codeClass (c : Code) : Nat := bits c.toNat 15 14
/-- Unit of a code (R415). -/
def codeUnit (c : Code) : Nat := bits c.toNat 13 8
/-- Cause of a code (R415). -/
def codeCause (c : Code) : Nat := bits c.toNat 7 0

/-- The code of a class, unit and cause (R415). -/
def mkCode (cls unit cause : Nat) : Code := BitVec.ofNat 16 (cls * 2 ^ 14 + unit * 256 + cause)

/-- Remove the last element that satisfies a test. -/
def dropLast {α : Type} (c : α → Bool) (l : List α) : List α :=
  match l.reverse.findIdx? c with
  | some i => (l.reverse.eraseIdx i).reverse
  | none => l

/-- Put a code among the newest `n` entries: of codes latched in one tick the lower unit's is the older entry (R441). -/
def sortIn (c : Code) : Nat → List Code → List Code
  | n + 1, x :: l => if codeUnit c < codeUnit x then x :: sortIn c n l else c :: x :: l
  | _, l => c :: l

/-- The log with a new code, newest first, `n` entries of it made in this tick (R419). -/
def logPut (n : Nat) (log : List Code) (c : Code) : List Code :=
  if log.length < 32 then sortIn c n log
  else if log.any fun x => codeClass x == 1 then sortIn c n (dropLast (fun x => codeClass x == 1) log)
  else if codeClass c = 1 then log
  else sortIn c n (log.take 31)

/-- The log takes the code: it has a place, a corrected code to displace, or the code is not corrected (R419). -/
def logTakes (log : List Code) (c : Code) : Bool :=
  decide (log.length < 32) || (log.any fun x => codeClass x == 1) || codeClass c != 1

/-- A code enters the log at a whorl time. -/
def logCode (now : Nat) (x : Collector) (c : Code) : Collector :=
  let n := if x.tickAt = now then x.tickLen else 0
  { x with log := logPut n x.log c, tickAt := now, tickLen := if logTakes x.log c then min 31 (n + 1) else n }

/-- The collector latches one code at a whorl time (R417 to R420). -/
def latch (now : Nat) (x : Collector) (c : Code) : Collector :=
  let u := codeUnit c
  let x := logCode now x c
  if codeClass c = 1 then { x with corr := tput x.corr u (min 0xFFFF (tget x.corr u 0 + 1)) }
  else if codeClass c = 2 then { x with status := x.status ||| BitVec.ofNat 64 (2 ^ u) }
  else { x with status := x.status ||| BitVec.ofNat 64 (2 ^ u), fatal := x.fatal ||| BitVec.ofNat 64 (2 ^ u) }

/-- The engine that a contained code of a compute die or reducer names (Table Faults-10, R322); none for a cache, router,
port or unit that no engine reset covers. -/
def faultEngine (r : Report) : Option Nat :=
  let u := codeUnit r.code
  let k := codeCause r.code
  if u < 32 then
    if k ≤ 0x0F then some r.engine
    else if k ≤ 0x13 then some (2048 + u)
    else if 0x20 ≤ k ∧ k ≤ 0x23 then some (2080 + u)
    else none
  else if u = 38 then some r.engine
  else none

/-- Steps with work in an engine (R448). -/
def stepsIn (s : State) (e : Nat) : List Nat :=
  if e < 2048 then (((s.tile e).run.toList ++ (s.tile e).tails).map (·.slot)).dedup
  else if e < 2080 then ((s.remOps.filter fun o => decide (o.kind ≤ 1) && tileDie o.tile == e - 2048).map (·.slot)).dedup
  else if e < 2112 then (((s.sorter (e - 2080)).run.toList ++ (s.sorter (e - 2080)).reqs).map (·.slot)).dedup
  else (((s.reducer (e - 2112)).run.toList ++ (s.reducer (e - 2112)).plans).map (·.slot)).dedup

/-- An engine takes no work: 1 until it has passed an engine reset and self-test, 2 until block reset (R75, R449). -/
def setWithdrawn (s : State) (e w : Nat) : State :=
  let f := fun (old : Nat) => max old w
  if e < 2048 then s.modTile e fun x => { x with withdrawn := f x.withdrawn, clock := 0, gated := true }
  else if e < 2080 then s.modMover (e - 2048) fun x => { x with withdrawn := f x.withdrawn }
  else if e < 2112 then s.modSorter (e - 2080) fun x => { x with withdrawn := f x.withdrawn }
  else s.modReducer (e - 2112) fun x => { x with withdrawn := f x.withdrawn }

/-- How an engine stands. -/
def withdrawnOf (s : State) (e : Nat) : Nat :=
  if e < 2048 then (s.tile e).withdrawn else if e < 2080 then (s.mover (e - 2048)).withdrawn
  else if e < 2112 then (s.sorter (e - 2080)).withdrawn else (s.reducer (e - 2112)).withdrawn

/-- The self-test of an engine, with the request it answers. -/
def testingOf (s : State) (e : Nat) : Option (List (Nat × Nat)) :=
  if e < 2048 then (s.tile e).testing else if e < 2080 then (s.mover (e - 2048)).testing
  else if e < 2112 then (s.sorter (e - 2080)).testing else (s.reducer (e - 2112)).testing

/-- Set it. -/
def setTesting (s : State) (e : Nat) (r : Option (List (Nat × Nat))) : State :=
  if e < 2048 then s.modTile e fun x => { x with testing := r }
  else if e < 2080 then s.modMover (e - 2048) fun x => { x with testing := r }
  else if e < 2112 then s.modSorter (e - 2080) fun x => { x with testing := r }
  else s.modReducer (e - 2112) fun x => { x with testing := r }

/-- Begin an engine reset (R448): steps in the engine fail with 0x0D02; the self-test slice runs, answering the requests `r`
(a reset in progress takes them over, Table Reset-8). -/
def beginEngineReset (s : State) (e : Nat) (r : List (Nat × Nat)) : State :=
  let s := forAll (stepsIn s e) (fun s k => failStep s k 0x0D02) s
  if withdrawnOf s e = 2 then s else setTesting (setWithdrawn s e 1) e (some ((testingOf s e).getD [] ++ r))

/-- Status with which a contained fault fails its steps (R444, R377, R389, R412). -/
def faultStatus (c : Code) : Code :=
  if c = 0xA703 then 0x0A01 else if c = 0xA804 then 0x0B03 else if codeUnit c = 38 then 0x0B02 else 0x0C01

/-- The granules on the two sides of a die-to-die module, none where the edge has no neighbour: module `8 d + 2 e + k` lies on
edge `e` of die `d` (0 west, 1 east, 2 lower rows, 3 higher rows), at its first or second granule row or column `k` (R269; log
155). -/
def moduleGranules (m : Nat) : List Nat :=
  let d := m / 8
  let e := m / 2 % 4
  let k := m % 2
  let gx := d % 8 * 2
  let gy := d / 8 * 2
  match e with
  | 0 => if gx = 0 then [] else [(gy + k) * 16 + gx, (gy + k) * 16 + gx - 1]
  | 1 => if gx = 14 then [] else [(gy + k) * 16 + gx + 1, (gy + k) * 16 + gx + 2]
  | 2 => if gy = 0 then [] else [gy * 16 + gx + k, (gy - 1) * 16 + gx + k]
  | _ => [(gy + 1) * 16 + gx + k, (gy + 2) * 16 + gx + k]

/-- A partition's traffic can pass a die cache, router or die-to-die module: it holds ways on the die, the router's tile, the
granules on both sides of the module's edge (R268, R269). The `engine` of a report numbers the router's tile or the module. -/
def passes (s : State) (r : Report) (p : Nat) : Bool :=
  let u := codeUnit r.code
  if u < 32 then !(decide (0x30 ≤ codeCause r.code)) || !(ownWays s p u).isEmpty
  else if u = 34 then tileOwner s r.engine == some p
  else if u = 35 then
    !(moduleGranules r.engine).isEmpty && (moduleGranules r.engine).all fun g => granuleOwner s g == some p
  else true

/-- The steps a contained fault fails (Table Faults-5): for stored data the steps that consumed the word, for a crossing also the
steps whose transfer it was (R85); for a cache, router or module the steps of partitions whose traffic passes it. -/
def faultSteps (s : State) (r : Report) : List Nat :=
  match faultEngine r with
  | some e =>
    let k := codeCause r.code
    if e < 2048 then
      (if k = 0x02 ∨ k = 0x0F then r.slots else if k = 0x0C then (stepsIn s e ++ r.slots).dedup else stepsIn s e)
    else (stepsIn s e ++ r.slots).dedup
  | none => r.slots.filter fun k => (tfind s.steps k).any fun st => passes s r st.part

/-- Containment (R430, R431): the named steps fail, their gates close and their work is removed; the engine is reset, in a global
stop only once it is released (Table Faults-9). One that is withdrawn until block reset leaves nothing to clear up (R421). -/
def contain (s : State) (r : Report) : State :=
  let ks := faultSteps s r
  let ps := (ks.filterMap fun k => (tfind s.steps k).map (·.part)).dedup
  let s := forAll ps traceTrigger s
  let s := forAll ks (fun s k => failWith (reopen s k) k (faultStatus r.code) r.code) s
  match faultEngine r with
  | none => s
  | some e =>
    let k := codeCause r.code
    if withdrawnOf s e = 2 ∨ e < 2048 ∧ (k = 0x02 ∨ k = 0x0A) then s
    else
      let s := s.modColl fun x => { x with openFaults := x.openFaults ++ [{ unit := codeUnit r.code, engine := e }] }
      if testingOf s e ≠ none then s
      else if s.gst.stopped then setWithdrawn s e 1
      else beginEngineReset s e []

/-- Job steps in flight. -/
def jobSteps (s : State) : List (Nat × Nat × Nat) :=
  (s.steps.filterMap fun e => e.2.job.map fun j => (j.1, j.2, e.2.part)).dedup

/-- Abort notices with `lost` for every job with a step in flight (R432, R451). -/
def lostNotices (s : State) (code : Code) : State :=
  forAll (jobSteps s) (fun s j => startAbort s j.1 j.2.1 j.2.2 0x0C01 code true) s

/-- A fatal fault other than 0xE901 and 0xE902: egress freezes and the block reset counts down from the first latch; one of
unit 41 requests a power cycle (R432, R452, R520). -/
def fatal (s : State) (c : Code) : State :=
  let first := !s.coll.freeze
  let s := if first then
      s.modColl fun x => { x with freeze := true, resetPending := true, fatalAt := time s, fatalCode := c }
    else s
  let s := if first then lostNotices s c else s
  let s := if s.life.starting ∧ !s.life.ready ∧ s.life.startFailed = none then
      s.modLife fun l => modEntry { l with startFailed := some 5 } fun e => { e with cause := 5 }
    else s
  let s := if codeUnit c = 41 then s.modAon fun a => { a with trayReqN := false } else s
  s.modAon fun a => { a with asleep := false }

/-- The boundary's own reaction to 0xE901 and 0xE902 (R17, R24, R432): block reset until BLK_RESET_N has been asserted and
released again. -/
def boundaryHold (s : State) (c : Code) : State :=
  (enterReset s 4 c).modAon fun a => { a with needBlkCycle := true }

/-- The records of a fault of a tile: one for each skein it holds, with the identifiers of R174. -/
def faultRecs (s : State) (r : Report) : List FaultRec :=
  match faultEngine r with
  | some e => if 2048 ≤ e then [] else
    ((s.tile e).run.toList ++ (s.tile e).tails).filterMap fun x => (tfind s.steps x.slot).map fun st =>
      { code := r.code, engine := e, slot := x.slot, skein := x.skein, layer := skLayer s st x.skein, operator := skOperator s st x.skein }
  | none => []

/-- A report reaches the collector (R417). Before the collector is ready only the always-on unit's codes are taken at once
(R441). -/
def report (s : State) (r : Report) : State :=
  let u := codeUnit r.code
  if codeClass r.code = 0 ∨ 44 < u then s
  else if !s.coll.init && u != 41 then s.modColl fun x => { x with early := x.early ++ [r] }
  else
    let t := s.modColl fun x => latch (time s) { x with recs := x.recs ++ faultRecs s r } r.code
    let t := if r.code = 0xA501 ∨ r.code = 0xA502 then t.modAon fun a => { a with secalmN := false, secalmAt := some (time s) } else t
    withIbi s (
      if codeClass r.code = 1 then t
      else if codeClass r.code = 2 then contain t r
      else if r.code = 0xE901 ∨ r.code = 0xE902 then boundaryHold t r.code
      else fatal t r.code)

/-- A report with no engine and no steps. -/
def reportCode (s : State) (c : Code) : State := report s { code := c }

/-- The collector takes the codes that came before it was ready (R441). -/
def initColl (s : State) : State :=
  let l := s.coll.early
  let s := s.modColl fun x => { x with init := true, early := [] }
  forAll l report s

end Sys2Proof.Machine
end

