-- ==== Sys2Proof/Machine/Access.lean ====
section
/-! DEFINITION. Register accesses: the regions of BAR0 and the rules that hold for every access (R567, R568, R573 to R576), and
the capability words that registers and messages share. -/

namespace Sys2Proof.Machine

/-- Regions of BAR0 (Table Registers-1). -/
inductive Region where
  | ident | mbx | evt | whl | flt | pmc | trc | gst | lcs | bst | ptv | doorbell | aperture
deriving DecidableEq, Repr

/-- The regions of the PF with their first and last offset (Table Registers-1). -/
def regions : List (Region × Nat × Nat) :=
  [(.ident, 0, 0xFFF), (.mbx, 0x1000, 0x1FFF), (.evt, 0x2000, 0x2FFF), (.whl, 0x10000, 0x1FFFF), (.flt, 0x20000, 0x2FFFF),
   (.pmc, 0x30000, 0x3FFFF), (.trc, 0x40000, 0x7FFFF), (.gst, 0x80000, 0x8FFFF), (.lcs, 0x90000, 0x9FFFF),
   (.bst, 0xA0000, 0xAFFFF), (.ptv, 0xB0000, 0xBFFFF), (.doorbell, 0x100000, 0x107FFF), (.aperture, 0x10000000, 0x1FFFFFFF)]

/-- The regions of a VF (Table Registers-2). -/
def vfRegions : List (Region × Nat × Nat) :=
  [(.ident, 0, 0xFFF), (.mbx, 0x1000, 0x1FFF), (.evt, 0x2000, 0x2FFF), (.whl, 0x10000, 0x10013), (.pmc, 0x30000, 0x3017F),
   (.doorbell, 0x100000, 0x107FFF)]

/-- The region of an offset in the BAR0 of a function, with the offset within it. -/
def regionOf (func off : Nat) : Option (Region × Nat) :=
  ((if func = 0 then regions else vfRegions).find? fun r => decide (r.2.1 ≤ off ∧ off ≤ r.2.2)).map fun r => (r.1, off - r.2.1)

/-- Regions that answer in minimal mode (R575). -/
def minimalAnswers : Region → Bool
  | .ident => true
  | .mbx => true
  | .whl => true
  | .flt => true
  | .lcs => true
  | .bst => true
  | _ => false

/-- A read that does not answer with the register's value: `true` for all-ones, `false` for zero (R573 to R576). -/
def readForced (s : State) (func : Nat) (r : Region) : Option Bool :=
  if s.mainReset then some true
  else if s.coll.freeze && r != .ident && r != .flt then some true
  else if s.life.minimal && !minimalAnswers r then some false
  else if (s.func func).inFlr && r != .ident && r != .whl then some false
  else none

/-- A write reaches its register (R573 to R576). -/
def writable (s : State) (func : Nat) (r : Region) : Bool :=
  !s.mainReset && !s.coll.freeze && !(s.life.minimal && !minimalAnswers r) && !((s.func func).inFlr && r != .ident && r != .whl)
    && (s.func func).enabled

/-- A 4-byte read of a region: the forced value, or `v` with the read's effect. -/
def readEffect (s : State) (func : Nat) (r : Region) (v : Nat) (t : State) : State :=
  match readForced s func r with
  | some true => emit s (.read func 0xFFFFFFFF)
  | some false => emit s (.read func 0)
  | none => emit t (.read func (BitVec.ofNat 64 v))

/-! ### Words that registers and messages share -/

/-- `IDENT_CAP0` (Table Mailbox-10). -/
def identCap0 : Variant → Nat
  | .rv9e => 0x00000078
  | _ => 0x0000007F

/-- `IDENT_CAP1` (Table Mailbox-10). -/
def identCap1 : Variant → Nat
  | .rv9 => 0x80106620
  | .rv9h => 0x40083310
  | .rv9e => 0x80100620

/-- `IDENT_FW_VER` (Table Mailbox-9): until an image has authenticated, the ROM version, whose `major` is 0 (R522, R523). -/
def identFwVer (s : State) : Nat :=
  0x03000000 + (if s.life.authOk then s.life.fwVer % 2 ^ 24 else Config.romVersion % 2 ^ 16)

/-- `BOOT_REASON` (Table Lifecycle-9). -/
def bootReason (s : State) : Nat :=
  s.life.cause % 16 + (if s.life.minimal then 16 else 0) + s.life.minWhy % 8 * 32 + s.life.lc % 256 * 256 + s.life.code.toNat * 65536

/-- `BOOT_FAILS` (Table Lifecycle-9). -/
def bootFails (s : State) : Nat := s.life.fails % 16 + s.life.lastFail % 16 * 16 + s.life.startNo % 2 ^ 24 * 256

/-- Vectors of a function's MSI-X table (Table Host-1). -/
def vectorCount (f : Nat) : Nat := if f = 0 then 2048 else 64

end Sys2Proof.Machine
end

