-- ==== Sys2Proof/Machine/Mailbox.lean ====
section
/-! DEFINITION. The spindle mailbox: taking a request, the checks of Table Mailbox-3 in order, and its answer
(R331 to R349). Every message row calls `mbx` with its own line of Table Mailbox-5. -/

namespace Sys2Proof.Machine

/-! ### The words of a request -/

/-- The 32 header bytes (Table Mailbox-2). -/
def headerBytes (m : Msg) : List Byte :=
  toLe 2 m.opcode ++ toLe 1 m.proto ++ toLe 1 m.flags ++ toLe 2 m.inlineBytes ++ toLe 2 m.status ++ toLe 8 m.tag
    ++ toLe 8 m.extAddr ++ toLe 8 m.extBytes

/-- The `critical` bit. -/
def isCritical (m : Msg) : Bool := bitOf m.flags 0

/-- Trailer bytes [15:0] (R342). -/
def trailerHead (m : Msg) : List Byte := toLe 8 m.counter ++ toLe 8 m.trailerRsv

/-- A digest as 48 bytes. -/
def digestBytes (d : BitVec 384) : List Byte := toLe 48 d.toNat

/-- The extended buffer as read. -/
def extIn (m : Msg) : List Byte := slice m.ext 0 m.extBytes

/-- Input of the message authentication code (R342). -/
def macInput (m : Msg) : List Byte :=
  headerBytes m ++ m.payload ++ trailerHead m
    ++ (if m.extBytes = 0 then [] else digestBytes (Config.sha384 (extIn m)))

/-- The 64 bytes of a boot mailbox message (R337). -/
def bootBytes (m : Msg) : List Byte :=
  headerBytes m ++ (if isCritical m then trailerHead m ++ toLe 16 m.mac.toNat else slice m.payload 0 32)

/-! ### Lines of Table Mailbox-5 -/

/-- How a message of Table Mailbox-5 is checked before its own checks. -/
structure MsgSpec where
  opcode : Nat
  critical : Bool := false
  /-- only the PF sends it -/
  pfOnly : Bool := false
  /-- one of the messages of R278 -/
  unbound : Bool := false
  /-- payload length before rounding; none: any (ECHO, PROCESS_END) -/
  len : Option Nat := some 0
  /-- the reserved payload ranges, as offset and length -/
  rsv : List (Nat × Nat) := []
  /-- every field within its stated range -/
  ranges : Bool := true
  /-- accepted by the boot mailbox: 0 never, 1 in every mode, 2 in minimal mode, 3 there only -/
  boot : Nat := 0
  /-- check 11 -/
  named : Bool := true

/-- Opcodes of Table Mailbox-5. -/
def opcodes : List Nat :=
  [0x0001, 0x0002, 0x0003, 0x0101, 0x0102] ++ (List.range 15).map (· + 0x0200) |>.append
    ((List.range 13).map (· + 0x0300) ++ (List.range 7).map (· + 0x0400) ++ [0x0501, 0x0502]
      ++ (List.range 8).map (· + 0x0600) ++ (List.range 9).map (· + 0x0700) ++ (List.range 7).map (· + 0x0800))
    |>.filter fun o => o % 256 != 0

/-- The partition a P message names (R346). -/
def namedPart (m : Msg) : Nat := fld m.payload 0 1

/-- Check 11 for "own" (R346): ACTIVE and owned by the sender. -/
def ownPart (s : State) (m : Msg) : Bool := active s (namedPart m) && (s.part (namedPart m)).owner == m.func

/-- Check 11 for "PF, P" (R346). -/
def anyPart (s : State) (m : Msg) : Bool := active s (namedPart m)

/-- The partition a VF is bound to, from the end of its creation until it is FREE (R273, R277; DEDUCED, log 134). -/
def boundPart (s : State) (f : Nat) : Option Nat :=
  if f = 0 then none else (s.parts.find? fun e => decide (2 ≤ e.2.state) && e.2.owner == f).map (·.1)

/-- `inline_bytes` as R340 and R337. -/
def inlineOk (sp : MsgSpec) (m : Msg) : Bool :=
  m.inlineBytes % 8 == 0 && decide (m.inlineBytes ≤ 192)
    && (match sp.len with
        | some n => m.inlineBytes == roundUp n 8
        | none => true)
    && (!m.boot || (decide (m.inlineBytes ≤ 32) && (!isCritical m || m.inlineBytes == 0)))

/-- Order 3 of Table Mailbox-3. -/
def formOk (sp : MsgSpec) (m : Msg) : Bool :=
  decide (m.flags / 2 = 0) && m.status == 0 && inlineOk sp m && sp.rsv.all (fun r => zeroRange m.payload r.1 r.2)
    && (match sp.len with
        | some n => zeroRange m.payload n (roundUp n 8 - n)
        | none => true)
    && (!isCritical m || m.trailerRsv == 0) && sp.ranges

/-- Order 5 of Table Mailbox-3 (R338). -/
def modeOk (s : State) (sp : MsgSpec) (m : Msg) : Bool :=
  if m.boot then sp.boot == 1 || ((sp.boot == 2 || sp.boot == 3) && s.life.minimal) else sp.boot != 3

/-- The extended buffer is misaligned, or cannot be read or written (Table Mailbox-3 order 8). -/
def extBad (m : Msg) : Bool := m.extBytes != 0 && (m.extAddr % 64 != 0 || !m.extOk)

/-- The first failing check of orders 1 to 8, or 0 (Table Mailbox-3). -/
def check8 (s : State) (sp : MsgSpec) (m : Msg) : Nat :=
  if m.proto ≠ 3 then 0x0902
  else if m.opcode ≠ sp.opcode then 0x0901
  else if !formOk sp m then 0x0903
  else if m.func ≠ 0 ∧ boundPart s m.func = none ∧ !sp.unbound then 0x0720
  else if m.func ≠ 0 ∧ sp.pfOnly then 0x0906
  else if !modeOk s sp m then 0x0908
  else if sp.critical ∧ !isCritical m then 0x0910
  else if !sp.critical ∧ isCritical m then 0x0904
  else if sp.critical ∧ (s.func m.func).exhausted then 0x0913
  else if extBad m then 0x0907
  else 0

/-- The key a message of this tick is checked under: in the tick of an export still the old one (R504). -/
def macKey (s : State) (x : Func) : BitVec 256 :=
  match x.oldKey with
  | some (t, k) => if t = time s then k else x.key
  | none => x.key

/-- `mac` verifies under the function's key (R342). -/
def macOk (s : State) (m : Msg) : Bool := m.mac == Config.aesCmac (macKey s (s.func m.func)) (macInput m)

/-! ### Taking -/

/-- Response ring has room (R334). -/
def rspRoom (f : Func) : Bool := decide ((65536 + f.rspCount - f.rspHead) % 65536 < 2 ^ f.log2)

/-- A ring request of function `f` waits to be taken (R333 to R335, R451, R525). -/
def wants (s : State) (f : Nat) : Bool :=
  let x := s.func f
  ready s && !s.coll.freeze && x.enabled && !x.inFlr && x.enable && !x.disabling && !x.overrun && x.tail != x.reqHead
    && decide (x.taken.length + x.rsps.length < 32) && rspRoom x && s.power.admitting && s.host.linkUp

/-- Turns of function `f` after the one that was last taken. -/
def turnOf (s : State) (f : Nat) : Nat := (f + 127 - s.lastTaken % 64) % 64

/-- A ring request of function `f` can be taken now: no other function that has one is before it in the rotation (R335). -/
def canTake (s : State) (f : Nat) : Bool := wants s f && s.funcs.all fun e => !wants s e.1 || decide (turnOf s f ≤ turnOf s e.1)

/-- A boot mailbox message can be processed now (R337, R523). -/
def canBoot (s : State) (m : Msg) : Bool :=
  let x := s.func m.func
  up s && !s.coll.freeze && x.enabled && !x.inFlr && x.bootBusy && slice x.boot 0 64 == bootBytes m
    && !x.taken.any (·.boot) && !x.rsps.any (·.boot)

/-- The request is taken. -/
def take (s : State) (m : Msg) : State :=
  State.modFunc { s with lastTaken := if m.boot then s.lastTaken else m.func } m.func fun x =>
    { x with
      reqHead := if m.boot then x.reqHead else (x.reqHead + 1) % 65536
      taken := x.taken ++ [{ tag := m.tag, opcode := m.opcode, critical := isCritical m, boot := m.boot }] }

/-! ### Answers -/

/-- What a message's own checks and effect come to. -/
inductive Ans where
  /-- refused with a status; nothing else changes -/
  | refuse (status : Nat)
  /-- refused with a status and a `detail` (R206) -/
  | refuseAt (status detail : Nat)
  /-- answered at once: status, detail, payload, extended output, and whether a read-back must come first (R367) -/
  | reply (s : State) (status detail : Nat) (payload ext : List Byte) (waits : Bool)
  /-- accepted; the response comes when the work ends (Table Mailbox-6) -/
  | later (s : State)

/-- Success without payload. -/
def Ans.done (s : State) : Ans := .reply s 0 0 [] [] false
/-- Success with a `detail`. -/
def Ans.detail (s : State) (d : Nat) : Ans := .reply s 0 d [] [] false
/-- Success with an extended output and a `detail`. -/
def Ans.output (s : State) (d : Nat) (ext : List Byte) : Ans := .reply s 0 d [] ext true

/-- The effect of an answer on the state in which the request was taken. -/
def applyAns (s : State) (m : Msg) : Ans → State
  | .refuse st => answer s m.func m.tag st 0
  | .refuseAt st d => answer s m.func m.tag st d
  | .reply t st d pl ext w => answerWith t m.func m.tag st d pl ext w
  | .later t => t

/-- A request passes orders 9 and 10 and spends its counter, or is refused there (R343). -/
def spend (s : State) (m : Msg) : Option State :=
  let f := s.func m.func
  if !macOk s m then none
  else if m.counter ≤ f.ctrLast then none
  else some (s.modFunc m.func fun x =>
    { x with ctrLast := m.counter % 2 ^ 64, exhausted := m.counter % 2 ^ 64 == 2 ^ 64 - 1 })

/-- A request in the state in which it was taken: the checks of Table Mailbox-3, then its own. -/
def process (s : State) (sp : MsgSpec) (m : Msg) (own : State → Ans) : State :=
  let c := check8 s sp m
  if c ≠ 0 then answer s m.func m.tag c 0
  else if !sp.critical then
    if !sp.named then answer s m.func m.tag 0x0905 0 else applyAns s m (own s)
  else match spend s m with
    | none =>
      if !macOk s m then
        answer (s.modFunc m.func fun x => { x with authFails := min 0xFFFF (x.authFails + 1) }) m.func m.tag 0x0911 0
      else answer s m.func m.tag 0x0912 0
    | some s => if !sp.named then answer s m.func m.tag 0x0905 0 else applyAns s m (own s)

/-- A message row: the request at the head of its function's ring, or the boot mailbox message, is `m`, whose opcode is the
row's or no message's. -/
def mbx (sp : MsgSpec) (own : State → Ans) (m : Msg) (s : State) : Res :=
  untimed s (fun s => (m.opcode == sp.opcode || !opcodes.contains m.opcode) && (if m.boot then canBoot s m else canTake s m.func))
    fun s => process (take s m) sp m own

end Sys2Proof.Machine
end

