-- ==== Sys2Proof/Machine/Engines.lean ====
section
/-! DEFINITION. Operations on engines that several families share: die rails and island clocks (R78 to R81, R585), global
stop (R555), armed injections (R439), the firmware image (R531). -/

namespace Sys2Proof.Machine

/-! ### Rails and clocks -/

/-- V_min in mV of island step `n` (R79). -/
def vmin (n : Nat) : Nat := if n ≤ 16 then 600 else 600 + 5 * ceilDiv (25 * n - 400) 20

/-- The clock a partition's tiles should run at: its grant, and its staged clock in isolated power mode (R328, R502). -/
def wantClock (x : Part) : Nat := if x.isolated then x.cur.clock else x.granted

/-- Partitions that hold a granule on a die. -/
def diePartitions (s : State) (d : Nat) : List (Nat × Part) :=
  s.parts.filter fun e => e.2.state != 0 && (partDies e.2).contains d

/-- The level spindle firmware wants on a die: V_min of the fastest running, wanted or staged clock, 0.90 V with an isolated
partition; tiles of no partition count at 0.4 GHz (R79, R502, R585). -/
def dieNeed (s : State) (d : Nat) : Nat :=
  (diePartitions s d).foldl (fun v e =>
    if e.2.isolated then max v 900
    else max v (max (max (vmin (wantClock e.2)) (vmin e.2.retuned)) (vmin (e.2.staged.getD e.2.cur).clock))) 600

/-- The confirmed level of a die carries island step `n`, and no level below V_min of `n` is requested (R20, R79, R80). -/
def railOk (s : State) (n d : Nat) : Bool :=
  (match (s.rail d).level with
    | some v => decide (vmin n ≤ v)
    | none => false) && (match (s.rail d).request with
    | some v => decide (vmin n ≤ v)
    | none => true)

/-- Request a level for a die unless it stands or a request is out (R20). -/
def requestRail (s : State) (d mv : Nat) : State :=
  if (s.rail d).request.isSome ∨ (s.rail d).level = some mv then s
  else emit (s.modRail d fun r => { r with request := some mv, requestAt := time s, retried := false }) (.railRequest d mv)

/-- Request for every die of a list the level it needs. -/
def requestRails (s : State) (ds : List Nat) : State := forAll ds (fun s d => requestRail s d (dieNeed s d)) s

/-- At a step boundary a lowered clock takes effect, and a raise when every die of the partition has its voltage confirmed and
no lower one requested (R80, R81); a thermal throttle holds every clock down (R503). -/
def retune (s : State) (p : Nat) : State :=
  let x := s.part p
  let n := wantClock x
  let ok := (partDies x).all (railOk s n)
  if x.state = 2 ∧ x.running = none ∧ n ≠ x.retuned ∧ (n ≤ x.retuned ∨ (ok ∧ !s.power.throttled)) then
    let s := s.modPart p fun y => { y with retuned := n }
    let s := forAll (partTiles x) (fun s t => if (s.tile t).withdrawn = 0 then s.modTile t fun y => { y with clock := n } else s) s
    requestRails s (partDies x)
  else requestRails s (partDies x)

/-- A tile's clock and its gate. -/
def setClock (s : State) (t n : Nat) (gated : Bool) : State :=
  if (s.tile t).withdrawn = 0 then s.modTile t fun y => { y with clock := n, gated } else s

/-- Every tile of a die. -/
def dieTiles (d : Nat) : List Nat := (List.range 64).map fun k => (d / 8 * 8 + k / 8) * 64 + d % 8 * 8 + k % 8

/-- The clocks of a new partition: 0.4 GHz until its dies' levels allow its clock (R585). -/
def firstTune (s : State) (p : Nat) : State := retune (s.modPart p fun x => { x with retuned := 0 }) p

/-! ### Global stop -/

/-- A global stop leaves its source (R555, R556): STOP_OUT_N falls, the counters freeze at this tick, traces record it. -/
def startStop (s : State) (src : Nat) : State :=
  let s := { s with
    gst := { s.gst with stopped := true, halted := false, source := src, time := time s }
    pmc := { s.pmc with byStop := true, tf := time s, armed := true, held := frozen s } }
  let s := s.modAon fun a => { a with stopOutN := false }
  forAll (s.parts.filter fun e => e.2.trace.on) (fun s e =>
    traceTrigger (traceRec s e.1 (traceBytes s e.1 0x0B 0 0xFFF 0 0 0xFFFF 0 0 0 0)) e.1) s

/-! ### Injections -/

/-- An injection is armed for this unit and checker, and its events belong to no other engine (R439). -/
def armed (s : State) (u k engine : Nat) : Bool :=
  s.coll.inject.any fun i => i.unit == u && i.checker == k && (i.engine == none || i.engine == some engine)

/-- One event of it is consumed; the engine that meets the first one keeps the rest (R439). -/
def consume (s : State) (u k engine : Nat) : State :=
  s.modColl fun x => { x with inject := (x.inject.map fun i =>
    if i.unit = u ∧ i.checker = k then { i with events := i.events - 1, engine := some engine } else i).filter fun i => i.events != 0 }

/-- The code that an injected mismatch reports (Table Faults-8, Table Faults-10, Table Faults-11). -/
def injectCode (u k : Nat) : Code :=
  if u < 32 then
    let c := tget [(0, 0x03), (1, 0x04), (2, 0x05), (3, 0x06), (4, 0x07), (5, 0x01), (6, 0x02), (7, 0x09), (8, 0x0D),
      (9, 0x0C), (10, 0x20), (11, 0x12), (12, 0x31)] k 0
    mkCode (if k = 5 then 1 else 2) u c
  else if u = 34 then 0xA202 else if u = 35 then 0x6302 else if u = 36 then 0xA402 else if u = 37 then 0xA501
  else if u = 38 then (if k = 0 then 0xA602 else 0xA603) else if u = 40 then 0xA804 else 0xAB01

/-- A check that an armed injection may meet: the mismatch is reported as a real fault of the engine and steps (R439). -/
def check (s : State) (u k engine : Nat) (slots : List Nat) : State :=
  if armed s u k engine then report (consume s u k engine) { code := injectCode u k, engine, slots } else s

/-! ### Firmware image -/

/-- Security version of an image. -/
def imageSvn (img : List Byte) : Nat := fld img 12 1

/-- Checks of R531 in the order of Table Lifecycle-8: 0, or the status that refuses the image. -/
def imageStatus (l : Life) (img : List Byte) : Nat :=
  let n := fld img 4 4
  if fld img 0 4 ≠ 0x3157464B ∨ n < 512 ∨ 8388608 < n ∨ img.length < n ∨ fld img 13 1 ≠ 0xB0 then 0x0E01
  else if slice img 16 48 ≠ digestBytes (Config.sha384 (slice img 512 (n - 512)))
      ∨ Config.ecdsaVerify Config.jorariFwKey (slice img 0 64) (slice img 64 96) = false then 0x0E02
  else if imageSvn img < l.svnFloor then 0x0E03
  else 0

end Sys2Proof.Machine
end

