-- ==== Sys2Proof/Machine/Store.lean ====
section
/-! DEFINITION. The bobbin store as memory: image tables (R224 to R226), the chunks of a shard (R248, R249), their places in the
granules' store parts (R214, R263), poison of weight bytes, and the protected frames of a backing copy (R477 to R482). -/

namespace Sys2Proof.Machine

/-! ### Images (Table Placement-4) -/

/-- Chunks, checks and weight bytes of an image. -/
def imgChunks (img : List Byte) : Nat := fld img 4 4
/-- See `imgChunks`. -/
def imgChecks (img : List Byte) : Nat := fld img 8 4
/-- See `imgChunks`. -/
def imgBytes (img : List Byte) : Nat := fld img 12 8
/-- Length of the header and the two tables. -/
def imgTables (img : List Byte) : Nat := 64 + 64 * imgChunks img + 48 * imgChecks img
/-- Entry `i` of the chunk table: offset, length, layer, part, digest. -/
def chunkEntry (img : List Byte) (i : Nat) : List Byte := slice img (64 + 64 * i) 64
/-- Start of chunk `i` in the weight bytes. -/
def chunkOff (img : List Byte) (i : Nat) : Nat := fld (chunkEntry img i) 0 8
/-- Its length. -/
def chunkLen (img : List Byte) (i : Nat) : Nat := fld (chunkEntry img i) 8 4
/-- Its layer identifier offset. -/
def chunkLayer (img : List Byte) (i : Nat) : Nat := fld (chunkEntry img i) 12 2
/-- Its cut index. -/
def chunkPart (img : List Byte) (i : Nat) : Nat := fld (chunkEntry img i) 14 2
/-- Entry `i` of the check table. -/
def checkEntry (img : List Byte) (i : Nat) : List Byte := slice img (64 + 64 * imgChunks img + 48 * i) 48
/-- The weight bytes of a bobbin image (R224). -/
def weightBytes (img : List Byte) : List Byte := img.drop (imgTables img)
/-- Bytes of chunk `i`. -/
def chunkBytes (img : List Byte) (i : Nat) : List Byte := slice (weightBytes img) (chunkOff img i) (chunkLen img i)
/-- Digest of a bobbin (R226). -/
def bobbinDigest (img : List Byte) : BitVec 384 := Config.sha384 (img.take (imgTables img))

/-- The chunks that a catalogue entry holds: all of its image's, or those of a shard (R248). -/
def heldChunks (b : Bobbin) : List Nat := if b.parent.isSome then b.chunks else List.range (imgChunks b.image)

/-- Digest of a shard: the parent's, then each chunk's index and digest in ascending order (R249). -/
def shardDigest (parent : BitVec 384) (img : List Byte) (cs : List Nat) : BitVec 384 :=
  Config.sha384 (digestBytes parent ++ cs.flatMap fun c => toLe 4 c ++ slice (chunkEntry img c) 16 48)

/-- Chunks of a part of a split: the layers from `first` to `last`, or of a cut layer the `cut`-th of `cuts` shares of its values of
`part` (R248). -/
def partChunks (img : List Byte) (q : Nat × Nat × Nat × Nat) : List Nat :=
  let mine := (List.range (imgChunks img)).filter fun c => decide (q.1 ≤ chunkLayer img c ∧ chunkLayer img c ≤ q.2.1)
  if q.2.2.2 ≤ 1 then mine
  else
    let vals := maxNat (mine.map fun c => chunkPart img c + 1)
    mine.filter fun c => chunkPart img c * q.2.2.2 / max 1 vals == q.2.2.1

/-! ### Places (R214) -/

/-- The lowest start in a granule's store part at which `n` bytes meet nothing that is held. -/
def storeFit (held : List (Nat × Nat)) (cap n : Nat) : Option Nat :=
  minBy id ((0 :: held.map fun u => u.1 + u.2).filter fun a => decide (a + n ≤ cap) && held.all fun u => decide (a + n ≤ u.1 ∨ u.1 + u.2 ≤ a))

/-- Deal chunks of the given lengths over `n` granules: each goes whole to the next granule, from granule `g` on, that has
room. What is held: granule, offset, length. -/
def dealChunks (n cap : Nat) (held : List (Nat × Nat × Nat)) : List (Nat × Nat) → Nat → Option (Tab (Nat × Nat))
  | [], _ => some []
  | (c, len) :: l, g =>
    match (List.range n).findSome? fun k =>
        let q := (g + k) % n
        (storeFit ((held.filter fun u => u.1 == q).map (·.2)) cap len).map fun a => (q, a) with
    | none => none
    | some (q, a) => (dealChunks n cap (held ++ [(q, a, len)]) l ((q + 1) % n)).map fun t => tput t c (q, a)

/-- What the catalogue's bobbins hold of the store, but for entry `i`. -/
def storeHeld (x : Part) (i : Nat) : List (Nat × Nat × Nat) :=
  x.bobbins.flatMap fun e => if e.1 = i then [] else e.2.places.map fun q => (q.2.1, q.2.2, chunkLen e.2.image q.1)

/-- Places for the chunks of entry `i`, from the partition's first granule on; none when they do not fit (R214, R242). -/
def placeChunks (x : Part) (i : Nat) (b : Bobbin) : Option (Tab (Nat × Nat)) :=
  dealChunks (x.width * x.height) (storePart x) (storeHeld x i) ((heldChunks b).map fun c => (c, chunkLen b.image c)) 0

/-- The cell of a chunk's first byte. -/
def chunkCell (x : Part) (b : Bobbin) (c : Nat) : Nat :=
  let q := tget b.places c (0, 0)
  closedCell (nth (partGranules x) q.1 0) q.2

/-- A chunk is written into its place: its lines lose their poison (Table Faults-7). -/
def healChunk (s : State) (p : Nat) (b : Bobbin) (c : Nat) : State :=
  { s with hbmPoison := healed s.hbmPoison 64 (chunkCell (s.part p) b c) (chunkLen b.image c) }

/-- Poisoned 64-byte lines of a bobbin's weight bytes. -/
def weightPoison (s : State) (p : Nat) (b : Bobbin) : List Nat :=
  s.hbmPoison.filterMap fun l => b.places.findSome? fun q =>
    let a := chunkCell (s.part p) b q.1
    if a ≤ 64 * l ∧ 64 * l < a + chunkLen b.image q.1 then some ((chunkOff b.image q.1 + (64 * l - a)) / 64) else none

/-! ### Object space in use (R215, R283, R286) -/

/-- Ranges, start and length, less [a, a + n). -/
def cutRange (l : List (Nat × Nat)) (a n : Nat) : List (Nat × Nat) :=
  l.flatMap fun u => [(u.1, min u.2 (a - u.1)), (max u.1 (a + n), u.1 + u.2 - max u.1 (a + n))].filter fun v => v.2 != 0

/-- What a reservation holds: its range, less the shares of the intermediates that were placed elsewhere, and their places. -/
def resvRanges (r : Reservation) : List (Nat × Nat) :=
  let moved := r.placed.filter fun q => q.base != q.share
  moved.foldl (fun l q => cutRange l q.share q.bytes) [(r.base, r.bytes)] ++ moved.map fun q => (q.base, q.bytes)

/-- Ranges of object space in use: objects and reservations (R283, R287, R289). -/
def usedRanges (s : State) (p : Nat) : List (Nat × Nat) :=
  (((s.part p).objs.filter fun e => e.2.live).map fun e => (e.2.base, e.2.bytes)) ++ (s.part p).reservs.flatMap resvRanges

/-- Bytes of [a, a + n) that are free. -/
def freeBytes (used : List (Nat × Nat)) (a n : Nat) : Nat :=
  n - sumNat (used.map fun u => min (u.1 + u.2) (a + n) - max u.1 a)

/-- The first free range of `n` bytes from `start` upward, then from 0 (R286). -/
def findRange (used : List (Nat × Nat)) (space start n : Nat) : Option Nat :=
  let ok := fun (a : Nat) => decide (a + n ≤ space) && used.all fun u => decide (a + n ≤ u.1 ∨ u.1 + u.2 ≤ a)
  let ends := used.map fun u => u.1 + u.2
  match minBy id ((start :: ends).filter fun a => decide (start ≤ a) && ok a) with
  | some a => some a
  | none => minBy id ((0 :: ends).filter fun a => decide (a < start) && ok a)

/-- The granule with the most free object space, the lower one on a tie (R215, R286). -/
def roomiest (s : State) (p : Nat) : Option Nat :=
  let sz := objPart (s.part p)
  minBy (fun i => sz - freeBytes (usedRanges s p) (i * sz) sz) (List.range ((s.part p).width * (s.part p).height))

/-- A place for `n` bytes in the object part of granule `i`: the share it has there, or the lowest free 64-byte line on. -/
def roomIn (s : State) (p share n i : Nat) : Option Nat :=
  let sz := objPart (s.part p)
  if share / sz = i ∧ share + n ≤ (i + 1) * sz then some share
  else
    let used := usedRanges s p
    minBy id ((i * sz :: used.map fun u => roundUp (u.1 + u.2) 64).filter fun a =>
      decide (i * sz ≤ a ∧ a + n ≤ (i + 1) * sz) && used.all fun u => decide (a + n ≤ u.1 ∨ u.1 + u.2 ≤ a))

/-! ### Backing copies (R477 to R482) -/

/-- Frames of a backing copy: 15 data lines of 512 bytes each (R478, R482). -/
def copyFrames (img : List Byte) : Nat := ceilDiv img.length 7680

/-- Bytes [31:0] of a frame's metadata line (Table Security-3). -/
def frameHead (startNo frame : Nat) : List Byte := toLe 4 startNo ++ toLe 4 frame ++ List.replicate 24 0

/-- The nonce of a protected line, a number of 12 bytes: the 32-bit value 1, then the version (R479). -/
def lineNonce (version : Nat) : Nat := 1 + 2 ^ 32 * version

/-- A line's additional data: its host address and the frame's bytes (R479). -/
def lineAad (addr : Nat) (head : List Byte) : List Byte := toLe 8 addr ++ head

/-- One protected frame at a host address, under a key and start number: data lines of the given plain bytes with rising
versions from `v`, then the metadata line. -/
def sealFrame (key : BitVec 256) (startNo addr frame v : Nat) (bs : List Byte) : List Byte :=
  let head := frameHead startNo frame
  let n := ceilDiv bs.length 512
  let lines := (List.range 15).map fun i =>
    if i < n then
      let c := Config.gcmSeal key (lineNonce (v + i)) (lineAad (addr + 512 * i) head) (slice bs (512 * i) 512)
      (slice c.1 0 512, toLe 8 (v + i) ++ toLe 16 c.2.toNat ++ List.replicate 8 0)
    else (List.replicate 512 0, List.replicate 32 0)
  lines.flatMap (·.1) ++ head ++ lines.flatMap (·.2)

/-- The frames of a copy in ascending order; `n` of them are left. -/
def sealFrames (key : BitVec 256) (startNo base : Nat) : Nat → Nat → Nat → List Byte → List Byte
  | 0, _, _, _ => []
  | n + 1, frame, v, bs =>
    sealFrame key startNo (base + 8192 * frame) frame v (bs.take 7680) ++ sealFrames key startNo base n (frame + 1) (v + 15) (bs.drop 7680)

/-- Open data line `i` of a frame that was read from a host address: its start number is the present one and its tag holds
(R480). -/
def openLine (key : BitVec 256) (startNo addr frame : Nat) (fr : List Byte) (i : Nat) : Option (List Byte) :=
  let head := slice fr 7680 32
  let m := slice fr (7712 + 32 * i) 32
  if fld head 0 4 ≠ startNo ∨ fld head 4 4 ≠ frame then none
  else Config.gcmOpen key (lineNonce (fld m 0 8)) (lineAad (addr + 512 * i) head) (slice fr (512 * i) 512) (slice m 8 16)

/-- The bytes [off, off + n) of a copy's image, from the frames that hold them; none when a line's tag fails. -/
def openCopy (key : BitVec 256) (startNo base frame0 : Nat) (frames : List Byte) (off n : Nat) : Option (List Byte) :=
  let lo := off / 512
  let lines := (List.range ((off + n - 1) / 512 + 1 - lo)).map fun k =>
    let l := lo + k
    let f := frame0 + l / 15
    openLine key startNo (base + 8192 * f) f (slice frames (8192 * (l / 15 - off / 7680)) 8192) (l % 15)
  if lines.all (·.isSome) then some (slice (lines.flatMap (·.getD [])) (off - 512 * lo) n) else none

end Sys2Proof.Machine
end

