-- ==== Sys2Proof/Machine/Operands.lean ====
section
/-! DEFINITION. The operands of skein code: where a tensor's bytes lie (R167 to R169, R215), the elements of a view and their
scales, 2:4 metadata and map bits (R92, R97, R123 to R130), reading and writing them with their poison (R59 to R62, R436). -/

namespace Sys2Proof.Machine

/-! ### Tensors and views -/

/-- Tensor `i` of a file. -/
def tensorOf (f : Upf.File) (i : Nat) : Upf.Tensor := nth f.tensors i {}
/-- View `i` of a file. -/
def viewOf (f : Upf.File) (i : Nat) : Upf.View := nth f.views i {}
/-- Extent of a tensor in dimension `d`. -/
def extT (t : Upf.Tensor) (d : Nat) : Nat := nth t.extent d 1
/-- Extent of a view in dimension `d`. -/
def extV (v : Upf.View) (d : Nat) : Nat := nth v.extent d 1
/-- Start of a view in dimension `d`. -/
def startV (v : Upf.View) (d : Nat) : Nat := nth v.start d 0
/-- `sparse24` (R167). -/
def isSparse (t : Upf.Tensor) : Bool := bitOf t.flags 0
/-- `mapped` (R167). -/
def isMapped (t : Upf.Tensor) : Bool := bitOf t.flags 1
/-- `read_only` (R167). -/
def isReadOnly (t : Upf.Tensor) : Bool := bitOf t.flags 2
/-- Elements of a view. -/
def viewCount (v : Upf.View) : Nat := extV v 0 * extV v 1 * extV v 2 * extV v 3

/-- Element coordinates of a view, dimension 0 innermost (R53). -/
def coords (v : Upf.View) : List (Nat × Nat × Nat × Nat) :=
  (List.range (extV v 3)).flatMap fun d => (List.range (extV v 2)).flatMap fun c =>
    (List.range (extV v 1)).flatMap fun b => (List.range (extV v 0)).map fun a =>
      (startV v 0 + a, startV v 1 + b, startV v 2 + c, startV v 3 + d)

/-- Element number within its tensor (R92). -/
def linIdx (t : Upf.Tensor) (c : Nat × Nat × Nat × Nat) : Nat :=
  c.1 + extT t 0 * (c.2.1 + extT t 1 * (c.2.2.1 + extT t 2 * c.2.2.2))

/-- Two-dimensional slice of an element. -/
def sliceOf (t : Upf.Tensor) (c : Nat × Nat × Nat × Nat) : Nat := c.2.2.1 + extT t 2 * c.2.2.2

/-- Slices of a view. -/
def viewSlices (t : Upf.Tensor) (v : Upf.View) : List Nat :=
  (List.range (extV v 3)).flatMap fun d => (List.range (extV v 2)).map fun c =>
    startV v 2 + c + extT t 2 * (startV v 3 + d)

/-- Bytes of `n` packed elements of a format (R92). -/
def packedBytes (c n : Nat) : Nat := if fmtBits c = 6 then ceilDiv n 4 * 3 else ceilDiv (n * fmtBits c) 8

/-- Elements of a tensor. -/
def elemsT (t : Upf.Tensor) : Nat := extT t 0 * extT t 1 * extT t 2 * extT t 3

/-- Stored bytes of a tensor's packed elements, of its scale companion, its metadata companion and one map plane (R168). -/
def primaryBytes (t : Upf.Tensor) : Nat := packedBytes t.format (if isSparse t then elemsT t / 2 else elemsT t)
/-- See `primaryBytes`. -/
def scaleBytes (t : Upf.Tensor) : Nat :=
  if !isBlock t.format then 0
  else if isSparse t then extT t 0 * ceilDiv (extT t 1) (blockLen t.format) * (extT t 2 * extT t 3)
  else ceilDiv (elemsT t) (blockLen t.format)
/-- See `primaryBytes`. -/
def metaBytes (t : Upf.Tensor) : Nat := ceilDiv (extT t 0 * (extT t 1 / 4) * (extT t 2 * extT t 3)) 2
/-- See `primaryBytes`. -/
def planeBytes (t : Upf.Tensor) : Nat := ceilDiv (extT t 0 / 8 * (extT t 1 / 8) * (extT t 2 * extT t 3)) 8

/-- Scale index of an element of a block format (R97, R126). -/
def scaleIdx (t : Upf.Tensor) (c : Nat × Nat × Nat × Nat) : Nat :=
  let b := blockLen t.format
  if isSparse t then (sliceOf t c * extT t 0 + c.1) * (extT t 1 / b) + c.2.1 / b
  else linIdx t c / b

/-- Metadata nibble of the group of a dense element (R125). -/
def metaIdx (t : Upf.Tensor) (slice col g : Nat) : Nat := (slice * extT t 0 + col) * (extT t 1 / 4) + g

/-- Number of kept element `k` of column `col` in the value array (R123). -/
def keptIdx (t : Upf.Tensor) (slice col k : Nat) : Nat := col + extT t 0 * (k + extT t 1 / 2 * slice)

/-- Map bit of an element's 8×8 block (R129). -/
def mapIdx (t : Upf.Tensor) (c : Nat × Nat × Nat × Nat) : Nat :=
  sliceOf t c * (extT t 0 / 8 * (extT t 1 / 8)) + c.2.1 / 8 * (extT t 0 / 8) + c.1 / 8

/-! ### Parts of a view (R195, R562) -/

/-- Bit offsets of the primary elements of a view, as stored. -/
def primaryBits (t : Upf.Tensor) (v : Upf.View) : List Nat :=
  (if isSparse t then
    (viewSlices t v).flatMap fun sl => (List.range (extV v 1 / 2)).flatMap fun k => (List.range (extV v 0)).map fun j =>
      keptIdx t sl (startV v 0 + j) (startV v 1 / 2 + k)
  else (coords v).map (linIdx t)).map (· * fmtBits t.format)

/-- Byte offsets of the scales of a view's blocks, in block order. -/
def scaleOffs (t : Upf.Tensor) (v : Upf.View) : List Nat :=
  if !isBlock t.format then [] else (((coords v).map (scaleIdx t)).dedup).mergeSort (fun a b => decide (a ≤ b))

/-- Bit offsets of the metadata nibbles of a `sparse24` view. -/
def metaBits (t : Upf.Tensor) (v : Upf.View) : List Nat :=
  if !isSparse t then [] else
    (viewSlices t v).flatMap fun sl => (List.range (extV v 0)).flatMap fun j => (List.range (extV v 1 / 4)).map fun g =>
      4 * metaIdx t sl (startV v 0 + j) (startV v 1 / 4 + g)

/-- A run of bits of a tensor: tensor, bit offset, width. -/
structure Bits where
  tensor : Nat
  off : Nat
  width : Nat

/-- The stored bits of a view: elements, then metadata, then scales (R562). -/
def viewBits (f : Upf.File) (vi : Nat) : List Bits :=
  let v := viewOf f vi
  let t := tensorOf f v.tensor
  (primaryBits t v).map (fun o => { tensor := v.tensor, off := o, width := fmtBits t.format })
    ++ (metaBits t v).map (fun o => { tensor := t.meta24, off := o, width := 4 })
    ++ (scaleOffs t v).map (fun o => { tensor := t.scale, off := 8 * o, width := 8 })

/-! ### Places -/

/-- Where a tensor's bytes lie. -/
inductive Place where
  /-- object space of a partition from an offset -/
  | hbm (part base : Nat)
  /-- the scratchpad buffer of a step -/
  | scratch (slot tensor : Nat)
  /-- bytes that skein code only reads, from an offset: weights with their poisoned lines, and constants -/
  | fixed (bytes : List Byte) (base : Nat) (poison : List Nat)

/-- Offset of a companion in its owner's object (R168). -/
def companionOff (f : Upf.File) (i : Nat) : Nat :=
  match (tensorOf f i).role with
  | 1 => match f.tensors.find? fun o => o.scale == i with
    | some o => roundUp o.bytes 64
    | none => 0
  | 2 => match f.tensors.find? fun o => o.meta24 == i with
    | some o => roundUp (if o.scale = 0xFFFF then o.bytes else roundUp o.bytes 64 + (tensorOf f o.scale).bytes) 64
    | none => 0
  | _ => 0

/-- Bytes of the HBM intermediates before tensor `i`: their shares follow one another in the reservation (DESIGN CHOICE, log 17). -/
def interOff (f : Upf.File) (i : Nat) : Nat := sumNat ((f.tensors.take i).map fun t => if t.kind = 3 then t.bytes else 0)

/-- The reservation of a context and program (R283). -/
def resvOf (s : State) (p c cgen prog : Nat) : Option Reservation :=
  (s.part p).reservs.find? fun r => r.ctx == c && r.ctxGen == cgen && r.prog == prog

/-- Its base. -/
def resvBase (s : State) (p c cgen prog : Nat) : Nat :=
  match resvOf s p c cgen prog with
  | some r => r.base
  | none => 0

/-- Where HBM intermediate `i` of a step's running program lies: its place, or before its first write its share of the reservation
(R215). -/
def interBase (s : State) (st : Step) (f : Upf.File) (i : Nat) : Nat :=
  match (resvOf s st.part st.ctx st.ctxGen (runProg st)).bind fun r => r.placed.find? fun q => q.tensor == i with
  | some q => q.base
  | none => resvBase s st.part st.ctx st.ctxGen (runProg st) + interOff f i

/-- An HBM intermediate is placed at its first write: in the granule of the tile that writes it, when that has room, else in
that with most free space; with no room in either it takes its share (R215). -/
def settleInter (s : State) (t : Option Nat) (st : Step) (i : Nat) : State :=
  let f := stepFile s st
  let n := (nth f.tensors i {}).bytes
  let p := st.part
  if (nth f.tensors i {}).kind ≠ 3 then s else
  match resvOf s p st.ctx st.ctxGen (runProg st) with
  | none => s
  | some r =>
    if r.placed.any fun q => q.tensor == i then s else
    let share := r.base + interOff f i
    let near := (t.map fun t => (partGranules (s.part p)).findIdx (· == tileGranule t)).bind fun g =>
      if g < (s.part p).width * (s.part p).height then roomIn s p share n g else none
    let base := (near.or ((roomiest s p).bind (roomIn s p share n))).getD share
    s.modPart p fun x => { x with reservs := x.reservs.map fun y =>
      if y = r then { y with placed := y.placed ++ [{ tensor := i, base, bytes := n, share }] } else y }

/-- The fallback section of a step's own program. -/
def fbSection (s : State) (st : Step) : Option Upf.Fallback := (tget (s.part st.part).progs st.prog {}).upf.fallback

/-- Input handle that a slot of the running program reads (R321). -/
def inputHandle (s : State) (st : Step) (j : Nat) : Nat :=
  if st.useFb then match fbSection s st with
    | some b => nth st.inputs (nth b.inMap j 0xFF) 0xFFFFFF
    | none => 0xFFFFFF
  else nth st.inputs j 0xFFFFFF

/-- Output handle that a slot of the running program writes (R321). -/
def outputHandle (s : State) (st : Step) (j : Nat) : Nat :=
  if st.useFb then match fbSection s st with
    | some b => nth st.outputs (nth b.outMap j 0xFF) 0xFFFFFF
    | none => 0xFFFFFF
  else nth st.outputs j 0xFFFFFF

/-- The catalogue index that the running program's weights come from. -/
def runBobbin (st : Step) : Option Nat := if st.useFb then st.fbBobbin else st.bobbin

/-- Where tensor `i` of a step's running program lies (R167, R168, R187, R215). -/
def tensorPlace (s : State) (slot : Nat) (st : Step) (i : Nat) : Place :=
  let f := stepFile s st
  let t := tensorOf f i
  match t.kind with
  | 0 => .hbm st.part ((memObj s st.part (inputHandle s st t.binding % 65536)).base + companionOff f i)
  | 1 => .hbm st.part ((memObj s st.part (outputHandle s st t.binding % 65536)).base + companionOff f i)
  | 2 => match runBobbin st with
    | some b =>
      let x := tget (s.part st.part).bobbins b {}
      .fixed (weightBytes x.image) t.offset (weightPoison s st.part x)
    | none => .fixed [] 0 []
  | 3 => .hbm st.part (interBase s st f i)
  | 4 => .scratch slot i
  | _ => .fixed f.const t.offset []

/-- Scratchpad address of a step's buffer on a tile. -/
def bufBase (x : Tile) (slot i : Nat) : Option Nat := (x.bufs.find? fun b => b.slot == slot && b.tensor == i).map (·.base)

/-- The tile on which a buffer is read: the reading tile, or the first that holds it. -/
def bufHome (s : State) (t slot i : Nat) : Option (Tile × Nat) :=
  match bufBase (s.tile t) slot i with
  | some b => some (s.tile t, b)
  | none => s.tiles.findSome? fun e => (bufBase e.2 slot i).map fun b => (e.2, b)

/-- Memory, base and poisoned units of a place, as tile `t` reads it. -/
structure Source where
  mem : Mem
  base : Nat
  unit : Nat
  poison : List Nat
  fixed : Option (List Byte)

/-- The source of a place. -/
def sourceOf (s : State) (t : Nat) : Place → Source
  | .hbm p b => ⟨s.hbm, hbmAddr p b, 64, s.hbmPoison, none⟩
  | .scratch slot i => match bufHome s t slot i with
    | some (x, b) => ⟨x.scratch, b, 16, x.poison, none⟩
    | none => ⟨[], 0, 16, [], none⟩
  | .fixed bs b poison => ⟨[], b, 64, poison, some bs⟩

/-- Bits of a source at a bit offset. -/
def readBits (x : Source) (off w : Nat) : Nat :=
  let n := (off % 8 + w + 7) / 8
  let v := match x.fixed with
    | some bs => fld bs (x.base + off / 8) n
    | none => leNat (mreadN x.mem (x.base + off / 8) n)
  v / 2 ^ (off % 8) % 2 ^ w

/-- The bits lie in a poisoned word or line. -/
def poisonedBits (x : Source) (off w : Nat) : Bool :=
  let lo := x.base + off / 8
  let hi := x.base + (off + w - 1) / 8
  x.poison.any fun u => decide (u * x.unit ≤ hi ∧ lo < u * x.unit + x.unit)

/-- Merge bits into sparse memory: each entry a bit offset from the base, a width and a value. -/
def mbits (m : Mem) (base : Nat) (l : List (Nat × Nat × Nat)) : Mem :=
  l.foldl (fun m e =>
    let n := (e.1 % 8 + e.2.1 + 7) / 8
    let sh := 2 ^ (e.1 % 8)
    let old := leNat (mreadN m (base + e.1 / 8) n)
    mwriteN m (base + e.1 / 8) (toLe n (old - old / sh % 2 ^ e.2.1 * sh + e.2.2 % 2 ^ e.2.1 * sh))) m

/-- Bit `i` of memory lies in one of the pieces written from a base. -/
def bitWritten (base : Nat) (l : List (Nat × Nat × Nat)) (i : Nat) : Bool :=
  l.any fun e => decide (base * 8 + e.1 ≤ i ∧ i < base * 8 + e.1 + e.2.1)

/-- Units of which every bit is written lose their poison; merges keep it (R61, R436). -/
def healBits (poison : List Nat) (unit base : Nat) (l : List (Nat × Nat × Nat)) : List Nat :=
  poison.filter fun u => !(List.range (unit * 8)).all fun i => bitWritten base l (u * unit * 8 + i)

/-- Units that hold any of the bits. -/
def unitsOf (unit base : Nat) (l : List (Nat × Nat)) : List Nat :=
  (l.flatMap fun e => [(base + e.1 / 8) / unit, (base + (e.1 + e.2 - 1) / 8) / unit]).dedup

/-- Write bits into a place; a buffer's content is one, wherever copies of it lie (log 18); a tile that the write reaches is
awake (R83). -/
def writeBits (s : State) (pl : Place) (l : List (Nat × Nat × Nat)) : State :=
  match pl with
  | .hbm p b => { s with hbm := mbits s.hbm (hbmAddr p b) l, hbmPoison := healBits s.hbmPoison 64 (hbmAddr p b) l }
  | .scratch slot i => { s with tiles := tmap s.tiles fun _ x => match bufBase x slot i with
      | some b => { x with scratch := mbits x.scratch b l, poison := healBits x.poison 16 b l, gated := false }
      | none => x }
  | .fixed .. => s

/-- Poison the words or lines that hold the bits. -/
def poisonPlace (s : State) (pl : Place) (l : List (Nat × Nat)) : State :=
  if l.isEmpty then s else
  match pl with
  | .hbm p b => { s with hbmPoison := (s.hbmPoison ++ unitsOf 64 (hbmAddr p b) l).dedup }
  | .scratch slot i => { s with tiles := tmap s.tiles fun _ x => match bufBase x slot i with
      | some b => { x with poison := (x.poison ++ unitsOf 16 b l).dedup }
      | none => x }
  | .fixed .. => s

/-- One write of an operation: tensor, bit offset, width, value, and whether its source was poisoned. -/
structure Put where
  tensor : Nat
  off : Nat
  width : Nat
  val : Nat
  bad : Bool := false

/-- Write the results of an operation of the step in `slot`; a poisoned unit in an output object is noted for the release
gate (R62, R436). -/
def putAll (s : State) (t slot : Nat) (l : List Put) : State :=
  match tfind s.steps slot with
  | none => s
  | some st =>
    let s := forAll ((l.map (·.tensor)).dedup) (fun s i =>
      let here := l.filter fun e => e.tensor == i
      let s := settleInter s (some t) st i
      let pl := tensorPlace s slot st i
      let s := writeBits s pl (here.map fun e => (e.off, e.width, e.val))
      let s := poisonPlace s pl ((here.filter (·.bad)).map fun e => (e.off, e.width))
      if (tensorOf (stepFile s st) i).kind = 1 ∧ here.any (fun e => poisonedBits (sourceOf s t pl) e.off e.width)
      then s.modStep slot fun x => { x with poisonOut := true } else s) s
    s

/-- The elements of a dense view: stored bits, scale byte, and poison of either. -/
def readView (s : State) (t slot : Nat) (st : Step) (vi : Nat) : List (Nat × Nat × Bool) :=
  let f := stepFile s st
  let v := viewOf f vi
  let x := tensorOf f v.tensor
  let src := sourceOf s t (tensorPlace s slot st v.tensor)
  let sc := sourceOf s t (tensorPlace s slot st x.scale)
  let w := fmtBits x.format
  (coords v).map fun c =>
    let o := linIdx x c * w
    if isBlock x.format then
      let so := 8 * scaleIdx x c
      (readBits src o w, readBits sc so 8, poisonedBits src o w || poisonedBits sc so 8)
    else (readBits src o w, 0, poisonedBits src o w)

/-- Every stored bit run of a view with its value and poison. -/
def readStored (s : State) (t slot : Nat) (st : Step) (vi : Nat) : List (Nat × Nat × Bool) :=
  (viewBits (stepFile s st) vi).map fun b =>
    let src := sourceOf s t (tensorPlace s slot st b.tensor)
    (b.width, readBits src b.off b.width, poisonedBits src b.off b.width)

/-- Pack values from bit 0 upward into bytes, the last byte padded with zero. -/
def packBits (l : List (Nat × Nat)) : List Byte :=
  let r := l.foldl (fun a e => (a.1 + e.1, a.2 + e.2 * 2 ^ a.1)) (0, 0)
  toLe (ceilDiv r.1 8) r.2

/-- Offsets of the packed bytes that hold a bit of a poisoned piece. -/
def badBytes (l : List (Nat × Nat × Bool)) : List Nat :=
  ((l.foldl (fun (a : Nat × List Nat) e =>
    (a.1 + e.1, if e.2.2 then a.2 ++ (List.range ((a.1 + e.1 - 1) / 8 + 1 - a.1 / 8)).map (· + a.1 / 8) else a.2)) (0, [])).2).dedup

/-- Cut bytes into values of the given widths. -/
def unpackBits (bs : List Byte) : List Nat → Nat → List Nat
  | [], _ => []
  | w :: ws, o => leNat bs / 2 ^ o % 2 ^ w :: unpackBits bs ws (o + w)

/-- A bit of a map plane. -/
def mapBit (s : State) (t slot : Nat) (st : Step) (plane i : Nat) : Bool :=
  readBits (sourceOf s t (tensorPlace s slot st plane)) i 1 == 1

/-! ### Vector registers (R53) -/

/-- Values of a register in value order: 128 of 32 bits, or 256 of 16 bits. -/
def laneVals (lane : Nat) (r : List (BitVec 32)) : List Nat :=
  let r := (List.range 128).map fun i => (nth r i 0).toNat
  if lane = 1 ∨ lane = 2 then r.flatMap fun v => [v % 65536, v / 65536] else r

/-- Pair up 16-bit values. -/
def pairUp : List Nat → List (BitVec 32)
  | a :: b :: t => BitVec.ofNat 32 (a % 65536 + 65536 * (b % 65536)) :: pairUp t
  | [a] => [BitVec.ofNat 32 (a % 65536)]
  | [] => []

/-- A register from values in value order, the missing ones zero. -/
def ofLanes (lane : Nat) (vs : List Nat) : List (BitVec 32) :=
  let r := if lane = 1 ∨ lane = 2 then pairUp vs else vs.map (BitVec.ofNat 32)
  (List.range 128).map fun i => nth r i 0

/-- Format code of a floating-point lane type. -/
def laneFmt (lane : Nat) : Nat := if lane = 1 then 1 else if lane = 2 then 2 else 0

/-- A vector register of a run. -/
def vreg (r : SkeinRun) (i : Nat) : List (BitVec 32) := tget r.vregs i []

/-- A scalar register of a run. -/
def sreg (r : SkeinRun) (i : Nat) : BitVec 32 := tget r.scalars i 0

/-- The writes of data that lands in stored bits of a view, in order; a piece with a poisoned byte lands poisoned (R62, R195). -/
def landPuts (bs : List Bits) (data : List Byte) (bad : List Nat) : List Put :=
  let ends := (bs.foldl (fun (a : Nat × List Nat) b => (a.1 + b.width, a.2 ++ [a.1])) (0, [])).2
  ((bs.zip (unpackBits data (bs.map (·.width)) 0)).zip ends).map fun e =>
    { tensor := e.1.1.tensor, off := e.1.1.off, width := e.1.1.width, val := e.1.2
      bad := bad.any fun x => decide (e.2 / 8 ≤ x ∧ x ≤ (e.2 + e.1.1.width - 1) / 8) }

/-- The first `n` bits of a list of pieces. -/
def takeBits : Nat → List Bits → List Bits
  | _, [] => []
  | n, b :: l => if n = 0 then [] else { b with width := min n b.width } :: takeBits (n - b.width) l

end Sys2Proof.Machine
end

