-- ==== Sys2Proof/Machine/Flags.lean ====
section
/-! DEFINITION. Flag computations: the conversion status word of a running skein and of its step (R105, R109, R114), and the
statistics and digests of tensor watch (R560 to R563). -/

namespace Sys2Proof.Machine

/-- The sticky status word takes more bits (R109). -/
def orConv (r : SkeinRun) (st : Nat) : SkeinRun := { r with conv := r.conv ||| BitVec.ofNat 8 st }

/-- Status of an accumulation from finite products (R110). -/
def accStatus (finite : Bool) (st : Nat) : Nat := if finite then st &&& (ovfInf + undZero) else 0

/-! ### CRC-64/ECMA-182 (R561) -/

/-- One bit of the division. -/
def crcBit (c : BitVec 64) : BitVec 64 := if c.getLsbD 63 then (c <<< 1) ^^^ 0x42F0E1EBA9EA3693 else c <<< 1

/-- One byte, most significant bit first. -/
def crcByte (c : BitVec 64) (b : Byte) : BitVec 64 :=
  (List.range 8).foldl (fun c _ => crcBit c) (c ^^^ (b.setWidth 64 <<< 56))

/-- The digest of a byte string. -/
def crc64 (bs : List Byte) : BitVec 64 := bs.foldl crcByte 0

/-- Zero bytes after a string. -/
def crcZeros (c : BitVec 64) : Nat → BitVec 64
  | 0 => c
  | n + 1 => crcZeros (crcByte c 0) n

/-! ### Tensor watch -/

/-- One element seen by the statistics (R560). -/
def watchElem (a : WatchAcc) (v : Val) : WatchAcc :=
  let b := toF32 v
  let a := { a with count := a.count + 1 }
  match v with
  | .nan => { a with nan := a.nan + 1 }
  | _ =>
    let first := a.count - 1 == a.nan
    let mn := decF32 a.min
    let mx := decF32 a.max
    let a := { a with
      zero := if v.isZero then a.zero + 1 else a.zero
      min := if first || vLt (decF32 b) mn then b else a.min
      max := if first || vLt mx (decF32 b) then b else a.max }
    if v.finite then
      { a with sum := (addF32 a.sum b).1, sumsq := (addF32 a.sumsq (toF32 (vMul (decF32 b) (decF32 b)))).1 }
    else a

/-- Digest of written bits at their place in a string of `len` bytes, the rest of the string zero (R561). -/
def partDigest (len off width val : Nat) : BitVec 64 :=
  let n := (off % 8 + width + 7) / 8
  crcZeros (crc64 (toLe n (val * 2 ^ (off % 8)))) (len - (off / 8 + n))

/-- Bytes that a list of bit runs touches. -/
def bytesOf (l : List (Nat × Nat)) : Nat := ((l.flatMap fun e => [e.1 / 8, (e.1 + e.2 - 1) / 8]).dedup).length

/-- Length of the digested string of a tensor (R562). -/
def watchLen (f : Upf.File) (i : Nat) : Nat :=
  (tensorOf f i).bytes + (if (tensorOf f i).scale = 0xFFFF then 0 else (tensorOf f (tensorOf f i).scale).bytes)

/-- A selection sees the writes of an operation; `vals` are the elements written into tensor `ti`. -/
def watchSel (f : Upf.File) (prog ti : Nat) (vals : List Val) (puts : List Put) (w : WatchSel) (a : WatchAcc) : WatchAcc :=
  if w.prog % 65536 ≠ prog ∨ w.tensor ≠ ti then a
  else if w.digest then
    let t := tensorOf f ti
    let l := puts.filterMap fun p =>
      if p.tensor = ti then some (p.off, p.width, p.val)
      else if p.tensor = t.scale then some (8 * t.bytes + p.off, p.width, p.val) else none
    { a with
      count := a.count + bytesOf (l.map fun e => (e.1, e.2.1))
      digest := l.foldl (fun d e => d ^^^ partDigest (watchLen f ti) e.1 e.2.1 e.2.2) a.digest }
  else vals.foldl watchElem a

/-- The observation port sees a VST or DRAIN of the step in `slot` (R560). -/
def watchOp (s : State) (slot ti : Nat) (vals : List Val) (puts : List Put) : State :=
  match tfind s.steps slot with
  | none => s
  | some st =>
    let sels := (s.part st.part).watch.sels
    if sels.isEmpty then s else
    let old := tget (s.part st.part).watchAcc slot []
    let new := sels.zipIdx.map fun e => watchSel (stepFile s st) (runProg st) ti vals puts e.1 (nth old e.2 {})
    s.modPart st.part fun x => { x with watchAcc := tput x.watchAcc slot new }

/-! ### Lane arithmetic and reductions (R114, R115, R117, R120) -/

/-- All ones or zero of a lane type (R191). -/
def truth (lane : Nat) (b : Bool) : Nat := if b then (if lane = 1 ∨ lane = 2 then 0xFFFF else 0xFFFFFFFF) else 0

/-- A relation from "less", "equal" and "unordered" (R115, R191). -/
def relHolds (rel : Nat) (lt eq un : Bool) : Bool :=
  if un then rel == 1
  else match rel with
    | 0 => eq
    | 1 => !eq
    | 2 => lt
    | 3 => lt || eq
    | 4 => !lt && !eq
    | _ => !lt

/-- One value of a floating-point VOP: bits and status (R114, R115). -/
def vopFloat (fn c lane rel x y z : Nat) : Nat × Nat :=
  let f := fpFmt c
  let vx := decFp f x
  let vy := decFp f y
  let vz := decFp f z
  let un := vx == .nan || vy == .nan
  match fn with
  | 0 => roundArith c (vx.finite && vy.finite) (vAdd vx vy)
  | 1 => roundArith c (vx.finite && vy.finite) (vMul vx vy)
  | 2 => roundArith c (vx.finite && vy.finite && vz.finite) (vAdd (vMul vx vy) vz)
  | 3 => (if un then f.nan.getD 0 else if vLt vy vx then y else x, 0)
  | 4 => (if un then f.nan.getD 0 else if vLt vx vy then y else x, 0)
  | 5 => (truth lane (relHolds rel (vLt vx vy && !vEq vx vy) (vEq vx vy) un), 0)
  | _ => (if bitOf z (fmtBits c - 1) then x else y, 0)

/-- The FP32 reductions of VRED and of collectives (R117, R120): 0 sum, 1 maximum, 2 minimum. -/
def redOp (fn : Nat) (a b : BitVec 32) : BitVec 32 × Nat :=
  match fn with
  | 0 => addF32 a b
  | 1 => (BitVec.ofNat 32 (vopFloat 4 0 0 0 a.toNat b.toNat 0).1, 0)
  | _ => (BitVec.ofNat 32 (vopFloat 3 0 0 0 a.toNat b.toNat 0).1, 0)

end Sys2Proof.Machine
end

