-- ==== Sys2Proof/Machine/Transport.lean ====
section
/-! DEFINITION. The transport boundary as skeins use it: job members (R193, R247) and remote operations (R389, R393). -/

namespace Sys2Proof.Machine

/-! ### Remote members -/

/-- Parts per instance of a job (R247). -/
def jobSplit (s : State) (j members : Nat) : Nat :=
  max 1 (((s.job j).parts.filter fun e => e.1 != 0xFFFF).length / max 1 members)

/-- This member's number of a step's job. -/
def ownMember (s : State) (st : Step) : Nat := stepMember s st

/-- The job member that a FETCH or SEND member field names; none: this package (R193, R247). -/
def memberOf (s : State) (st : Step) (members field : Nat) : Option Nat :=
  match st.job with
  | none => none
  | some (j, _) =>
    if field = 0xFFFF then none else
    let k := jobSplit s j members
    let own := ownMember s st
    let inst := if field / 16384 = 1 then
        (((own / k : Nat) : Int) + (if 2048 ≤ field % 4096 then ((field % 4096 : Nat) : Int) - 4096 else ((field % 4096 : Nat) : Int)))
          % (max 1 members : Nat)
      else ((field % 4096 : Nat) : Int)
    let m := inst.toNat * k + own % k
    if m = own then none else some m

/-- Start a remote operation of a skein: its identifier is the next one; its queue pair is firmware's choice (R386); the die's mover
runs a FETCH or SEND (R252, R550). The windows of
the step's job accept the queue pair of a FETCH, whose data comes back through one of them, and of a COLL (log 19). -/
def newOp (s : State) (slot t skein kind member dst want port : Nat) (added : Bool := false)
    (coll : Option Coll := none) : RemOp × State :=
  let (q, s) := draw s
  let q := q % 65536
  let op : RemOp := { id := s.opNext, slot, tile := t, skein, kind, member, dst, want, qp := q, port, last := time s, added, coll }
  let s := if kind ≤ 1 then traceStep s slot 3 (if added then 2 else 0) (2048 + tileDie t) 0 else s
  let job := ((tfind s.steps slot).bind (·.job)).map (·.1)
  let s := if kind ≠ 1 then
      { s with windows := tmap s.windows fun _ w => if w.isOpen ∧ some w.job = job then { w with qps := addNew w.qps q } else w }
    else s
  (op, { s with remOps := s.remOps ++ [op], opNext := (s.opNext + 1) % 65536 })

/-- The route checker withholds a header: 0xA804, and the work fails with 0x0B03 (R389). -/
def withhold (s : State) (slot : Nat) : State := report s { code := 0xA804, slots := [slot] }

/-- The port of the first hop toward a member. -/
def firstPort (s : State) (j m : Nat) : Option Nat :=
  match tfind (s.job j).routes m with
  | some (h :: _) => some (hopPort s.variant h)
  | _ => none

/-- The port by which traffic to a member leaves, when a legal header can be written (R388). -/
def memberPort (s : State) (j m : Nat) : Option Nat :=
  (firstPort s j m).filter fun p => (s.port p).up && !armed s 40 0 p

/-- The header of a member's traffic is withheld; an armed injection of the port's route checker is consumed. -/
def withholdOp (s : State) (j m slot : Nat) : State :=
  withhold (match firstPort s j m with
    | some p => if armed s 40 0 p then consume s 40 0 p else s
    | none => s) slot

end Sys2Proof.Machine
end

