-- ==== Sys2Proof/Machine/Skein.lean ====
section
/-! DEFINITION. Skein code: issue on a tile, scalar and control operations, copies between places and members, collectives,
sorts and digests (R190 to R199). -/

namespace Sys2Proof.Machine

/-! ### Issue -/

/-- The operation stands in a fetch prologue (R194). -/
def isFetch : SkInsn → Bool
  | .fetch .. => true
  | _ => false

/-- The pages in host bias of the input or output object that a tensor is bound to (R361). -/
def hostPages (s : State) (st : Step) (i : Nat) : List Nat :=
  let t := tensorOf (stepFile s st) i
  if t.kind = 0 then (memObj s st.part (inputHandle s st t.binding % 65536)).pages
  else if t.kind = 1 then (memObj s st.part (outputHandle s st t.binding % 65536)).pages else []

/-- A stored piece lies in a page in host bias (R361). -/
def hostPiece (s : State) (st : Step) (b : Bits) : Bool :=
  let pages := hostPages s st b.tensor
  !pages.isEmpty && pages.contains ((companionOff (stepFile s st) b.tensor + b.off / 8) / 4096)

/-- Some stored bit of a view lies in a page of an input or output object in host bias (R361). -/
def onHostPage (s : State) (st : Step) (vi : Nat) : Bool := (viewBits (stepFile s st) vi).any (hostPiece s st)

/-- The views that an instruction reads or writes here when it issues. -/
def issueViews (s : State) (st : Step) : SkInsn → List Nat
  | .fetch a d m => if (memberOf s st (stepFile s st).req.members m).isSome then [] else [a, d]
  | .send a d m => if (memberOf s st (stepFile s st).req.members m).isSome then [a] else [a, d]
  | .mma a b .. => [a, b]
  | .drain d .. => [d]
  | .vld a .. => [a]
  | .vst d .. => [d]
  | .sst _ _ d => [d]
  | .mapclr d => [d]
  | .sort a _ => [a]
  | .digest a d => [a, d]
  | _ => []

/-- With the host link down an access to a page in host bias waits for it (Table Host-8). -/
def hostReach (s : State) (slot : Nat) (i : SkInsn) : Bool :=
  s.host.linkUp || (match tfind s.steps slot with
    | some st => !(issueViews s st i).any (onHostPage s st)
    | none => true)

/-- Tile `t` issues `i` next: it runs a skein whose next instruction is `i`, and any other operation waits for the remote
FETCHes of its prologue (R194). -/
def issueOk (s : State) (t : Nat) (i : SkInsn) : Bool :=
  engines s && (match (s.tile t).run with
    | some r => !r.ended && r.code.head? == some i && (isFetch i || r.fetchOut == 0) && hostReach s r.slot i
    | none => false)

/-- A contained tile fault of a cause of Table Tile-5 fails the running skein and its step. -/
def skeinFault (s : State) (t slot cause : Nat) : State :=
  report s { code := mkCode 2 (tileDie t) cause, engine := t, slots := [slot] }

/-- The skein on tile `t`. -/
def setRun (s : State) (t : Nat) (r : SkeinRun) : State := s.modTile t fun x => { x with run := some r }

/-- The operation works on the matrix unit (R43, R47). -/
def onMatrix : SkInsn → Bool
  | .mma .. => true
  | .drain .. => true
  | _ => false

/-- The operation works on the vector unit (R53). -/
def onVector : SkInsn → Bool
  | .vld .. => true
  | .vst .. => true
  | .vop .. => true
  | .vfn .. => true
  | .vred .. => true
  | _ => false

/-- A run once it has issued `i`: the instruction is consumed, and the residue window of its unit is open (R69). -/
def stepRun (r : SkeinRun) (i : SkInsn) : SkeinRun :=
  { r with code := r.code.drop 1, issued := r.issued || !isFetch i, matWin := r.matWin || onMatrix i, vecWin := r.vecWin || onVector i }

/-- What every issue does: the first one leaves a trace record, the instruction is consumed, the tile, step and partition note
the operation (R83, R316, R433, R550). -/
def noteIssue (s : State) (t : Nat) (i : SkInsn) (r : SkeinRun) (st : Step) : State :=
  let s := if r.code.length = (nth (stepFile s st).skeins r.skein {}).code.length
    then traceSkein s r.slot 1 t r.skein (if st.replaced.contains r.skein then 4 else 0) 0 else s
  let s := s.modTile t fun x =>
    { x with run := some (stepRun r i), gated := false }
  let s := s.modPart st.part fun x => { x with lastIssue := time s, hangPosted := false }
  s.modStep r.slot fun x =>
    { x with lastOp := time s, skeins := if isFetch i then x.skeins else tput x.skeins r.skein 2 }

/-- The issue of an instruction on a tile. `ks` are the tile's checkers that the operation meets (Table Faults-8), beside
microcode store and lockstep: an armed injection of one fails the skein instead (R439). -/
def issue (t : Nat) (i : SkInsn) (ks : List Nat) (f : State → Nat → Step → SkeinRun → State) (s : State) : State :=
  match (s.tile t).run with
  | none => s
  | some r =>
    match tfind s.steps r.slot with
    | none => s
    | some st =>
      let s := noteIssue s t i r st
      match (7 :: 4 :: ks).find? fun k => armed s (tileDie t) k t with
      | some k => check s (tileDie t) k t [r.slot]
      | none => f s r.slot st (stepRun r i)

/-- A skein code row. -/
def skein (t : Nat) (i : SkInsn) (ks : List Nat) (f : State → Nat → Step → SkeinRun → State) (s : State) : Res :=
  untimed s (fun s => issueOk s t i) (issue t i ks f)

/-! ### Control and scalars -/

/-- NOP (R191). -/
def execNop (t : Nat) (s : State) : Res := skein t .nop [] (fun s _ _ _ => s) s

/-- SKIPZ (R197). -/
def execSkipz (t sc n : Nat) (s : State) : Res :=
  skein t (.skipz sc n) [] (fun s _ _ r => if sreg r sc = 0 then setRun s t { r with code := r.code.drop n } else s) s

/-- SKIPNZ (R197). -/
def execSkipnz (t sc n : Nat) (s : State) : Res :=
  skein t (.skipnz sc n) [] (fun s _ _ r => if sreg r sc ≠ 0 then setRun s t { r with code := r.code.drop n } else s) s

/-- Write a scalar register. -/
def setScalar (s : State) (t : Nat) (r : SkeinRun) (d : Nat) (v : BitVec 32) : State :=
  setRun s t { r with scalars := tput r.scalars d v }

/-- SETI (R191). -/
def execSeti (t d : Nat) (v : BitVec 32) (s : State) : Res :=
  skein t (.seti d v) [] (fun s _ _ r => setScalar s t r d v) s

/-- PRED (R196): the token count of R150. -/
def execPred (t d : Nat) (s : State) : Res :=
  skein t (.pred d) [] (fun s _ _ r => setScalar s t r d (BitVec.ofNat 32 r.tokens)) s

/-- STAT (R196): the conversion status word, left as it is. -/
def execStat (t d : Nat) (s : State) : Res :=
  skein t (.stat d) [] (fun s _ _ r => setScalar s t r d (r.conv.setWidth 32)) s

/-- SST (R198): the scalar's bits at a byte offset of `d`. -/
def execSst (t sc off d : Nat) (s : State) : Res :=
  skein t (.sst sc off d) [] (fun s slot st r =>
    let v := viewOf (stepFile s st) d
    let x := tensorOf (stepFile s st) v.tensor
    putAll s t slot [{ tensor := v.tensor, off := 32 * linIdx x (nth (coords v) (off / 4) (0, 0, 0, 0)), width := 32,
                       val := (sreg r sc).toNat }]) s

/-! ### Traffic counts -/

/-- Bytes of a list of bit runs. -/
def bitsLen (l : List (Nat × Nat × Bool)) : Nat := ceilDiv (sumNat (l.map (·.1))) 8

/-- Whether a view lies in object space or the bobbin store. -/
def inHbm (s : State) (slot : Nat) (st : Step) (vi : Nat) : Bool :=
  match tensorPlace s slot st (viewOf (stepFile s st) vi).tensor with
  | .scratch .. => false
  | _ => true

/-- Whether a view's tensor is a scratchpad buffer. -/
def inScratch (s : State) (slot : Nat) (st : Step) (vi : Nat) : Bool := !inHbm s slot st vi

/-- A double-bit error marks the word of a view's first bits poisoned (R60). -/
def spoilView (s : State) (slot : Nat) (st : Step) (vi : Nat) : State :=
  match viewBits (stepFile s st) vi with
  | b :: _ => poisonPlace s (tensorPlace s slot st b.tensor) [(b.off, 1)]
  | [] => s

/-- The cell of byte `o` of a tensor: of object space, or of the chunk that holds a weight; none in a scratchpad, and none for
a CONST copy, which the spec lays nowhere within the firmware area (log 20). -/
def tensorCell (s : State) (slot : Nat) (st : Step) (i o : Nat) : Option Nat :=
  match tensorPlace s slot st i with
  | .hbm p b => some (hbmAddr p b + o)
  | .scratch .. => none
  | .fixed _ b _ =>
    if (tensorOf (stepFile s st) i).kind ≠ 2 then none else
    (runBobbin st).bind fun k =>
      let x := tget (s.part st.part).bobbins k {}
      (x.places.find? fun q => decide (chunkOff x.image q.1 ≤ b + o ∧ b + o < chunkOff x.image q.1 + chunkLen x.image q.1)).map
        fun q => chunkCell (s.part st.part) x q.1 + (b + o - chunkOff x.image q.1)

/-- The 64-byte lines that hold stored pieces in device bias (R268, R361). -/
def bitLines (s : State) (slot : Nat) (st : Step) (l : List Bits) : List Nat :=
  ((l.filter fun b => !hostPiece s st b).flatMap fun b =>
    ([b.off / 8, (b.off + b.width - 1) / 8].filterMap (tensorCell s slot st b.tensor)).map (· / 64)).dedup

/-- What an armed injection meets on the way to HBM: the router of the tile, and on a read that hits, the die cache (R439, Table
Faults-8). -/
def pathChecks (s : State) (t slot : Nat) (hits : List Nat) : State :=
  let s := check s 34 0 t [slot]
  match hits.find? fun l => armed s (granuleDie (lineGranule s l)) 12 0xFFF with
  | some l => check s (granuleDie (lineGranule s l)) 12 0xFFF [slot]
  | none => s

/-- Count the traffic of an operation that reads or writes a view, and charge its bytes to the tile and context (R322); its
lines pass the mesh and the die caches (R268). -/
def moved (s : State) (t slot : Nat) (st : Step) (vi n : Nat) (write : Bool) : State :=
  let s := charge s t st.ctx st.ctxGen 0 n 0
  if !inHbm s slot st vi then s
  else
    let lines := bitLines s slot st (viewBits (stepFile s st) vi)
    let hits := if write then [] else lines.filter fun l => cacheHit s st.part (granuleDie (lineGranule s l)) l
    let s := pathChecks (touchLines s st.part write lines) t slot hits
    if write && onHostPage s st vi then s.modStep slot fun y => { y with hostWrites := true } else s

/-! ### Copies (R193 to R195) -/

/-- What a copy's read of a scratchpad operand meets (R60, R62, R439): a single-bit error is corrected, a double-bit one marks the
word poisoned, and a poisoned word is recorded as uncorrectable; the skein does not fail for it. -/
def copyRead (s : State) (t slot : Nat) (st : Step) (a : Nat) : State :=
  if !inScratch s slot st a then s else
  let d := tileDie t
  let s := check s d 5 t []
  if armed s d 6 t then check (spoilView s slot st a) d 6 t []
  else if (readStored s t slot st a).any (·.2.2) then report s { code := mkCode 2 d 0x02, engine := t }
  else s

/-- Copy the stored bits of a view with their poison (R195). -/
def copyView (s : State) (t slot : Nat) (st : Step) (a d : Nat) : State :=
  let s := copyRead s t slot st a
  let src := readStored s t slot st a
  let n := bitsLen src
  let puts := ((viewBits (stepFile s st) d).zip src).map fun e =>
    ({ tensor := e.1.tensor, off := e.1.off, width := e.1.width, val := e.2.2.1, bad := e.2.2.2 } : Put)
  moved (moved (putAll s t slot puts) t slot st a n false) t slot st d n true

/-- The job of a step. -/
def jobIdx (st : Step) : Nat := match st.job with
  | some (j, _) => j
  | none => 0

/-- A view's stored bits as runs of whole bytes of its tensor's object, each piece with its value and poison: pieces that follow
one another make one run (R193, R384). -/
def runsOf (f : Upf.File) (l : List (Bits × Nat × Nat × Bool)) : List Run :=
  let at_ := fun (b : Bits) => 8 * companionOff f b.tensor + b.off
  let parts := l.foldl (fun (a : List (Nat × Nat × List (Nat × Nat × Bool))) e =>
    match a with
    | (o, n, vs) :: r => if o + n = at_ e.1 then (o, n + e.1.width, vs ++ [e.2]) :: r else (at_ e.1, e.1.width, [e.2]) :: a
    | [] => [(at_ e.1, e.1.width, [e.2])]) []
  parts.reverse.map fun q =>
    let vs := (q.1 % 8, 0, false) :: q.2.2
    { pos := q.1 / 8, bytes := packBits (vs.map fun e => (e.1, e.2.1)), bad := badBytes vs }

/-- The window places of the bytes that hold a view's stored bits (R193, R384). -/
def askRanges (f : Upf.File) (l : List Bits) : List (Nat × Nat) :=
  (runsOf f (l.map fun b => (b, b.width, 0, false))).map fun r => (r.pos, r.bytes.length)

/-- The cell that asks the member for a FETCH's data; window numbers on either side are firmware's (log 56). -/
def askFetch (s : State) (st : Step) (a m qp : Nat) : State :=
  let j := jobIdx st
  let pkg := ((s.job j).members.getD m {}).pkg
  let (w, s) := draw s
  let (back, s) := draw s
  sendCtl s st.part pkg (tfind (s.job j).routes m) (.ctl pkg (.fetch
    { job := jobHandle s j, member := ownMember s st, window := w % 1023, gen := w / 1023 % 256
      ranges := askRanges (stepFile s st) (viewBits (stepFile s st) a), qp, back }))

/-- FETCH (R194): a local copy, or a remote operation, whose data is asked of the member and comes later. -/
def execFetch (t a d member : Nat) (s : State) : Res :=
  skein t (.fetch a d member) [9] (fun s slot st r =>
    match memberOf s st (stepFile s st).req.members member with
    | none => copyView s t slot st a d
    | some m => match memberPort s (jobIdx st) m with
      | none => withholdOp s (jobIdx st) m slot
      | some p =>
        let (op, s) := newOp s slot t r.skein 0 m d (bitsLen (readStored s t slot st d)) p
        let s := setRun s t { r with fetchOut := r.fetchOut + 1 }
        askFetch (s.modStep slot fun x => { x with requests := x.requests + 1 }) st a m op.qp) s

/-- The tile whose crossing receives a SEND: another tile that holds the destination buffer, or the sender's own (R85). -/
def receiver (s : State) (t slot : Nat) (st : Step) (d : Nat) : Nat :=
  match s.tiles.find? fun e => e.1 != t && (bufBase e.2 slot (viewOf (stepFile s st) d).tensor).isSome with
  | some e => e.1
  | none => t

/-- SEND (R85, R195): a local copy, or data handed to a port, addressed by the places of the destination view (R193), and an
operation that ends with the landing acknowledgement. -/
def execSend (t a d member : Nat) (s : State) : Res :=
  skein t (.send a d member) [] (fun s slot st r =>
    let f := stepFile s st
    match memberOf s st f.req.members member with
    | none =>
      let k := receiver s t slot st d
      if armed s (tileDie k) 9 k then check s (tileDie k) 9 k [slot] else copyView s t slot st a d
    | some m => match memberPort s (jobIdx st) m with
      | none => withholdOp s (jobIdx st) m slot
      | some p =>
        let s := copyRead s t slot st a
        let src := readStored s t slot st a
        let (op, s) := newOp s slot t r.skein 1 m d (bitsLen src) p
        let (w, s) := draw s
        let s := moved s t slot st a (bitsLen src) false
        let s := setRun s t { r with opsOut := r.opsOut + 1 }
        sendAll (s.modStep slot fun x => { x with requests := x.requests + 1 }) p
          (dataMsgs (2048 + tileDie t) op.qp 0 w st.part (tget (s.job (jobIdx st)).routes m []) (runsOf f ((viewBits f d).zip src)) (some slot))) s

/-- The instruction is a COLL. -/
def isColl : SkInsn → Bool
  | .coll .. => true
  | _ => false

/-- Bytes of a unit that a collective copies: an element, or a block with its scale (R405). -/
def fmtUnit (f : Nat) : Nat := blockLen f * fmtBits f / 8 + (if isBlock f then 1 else 0)

/-- Wire format of partial sums for a destination format, 16 for INT32 (R406). -/
def wireFmt (f : Nat) : Nat := if f = 3 ∨ f = 4 then 1 else if f = 8 then 16 else f

/-- Format of what a collective passes round: the destination's of a reduction, else the source's (R405). -/
def collFmt (f : Upf.File) (a d pattern : Nat) : Nat :=
  if pattern ≤ 1 then (tensorOf f (viewOf f d).tensor).format else (tensorOf f (viewOf f a).tensor).format

/-- Elements of a collective's vector: those of the source, of every member's in an all-gather (R407). -/
def collEls (f : Upf.File) (a pattern count : Nat) : Nat := viewCount (viewOf f a) * (if pattern = 2 then count else 1)

/-- Bytes of a collective's window: partial sums, then what is passed round. DESIGN CHOICE (log 150): the spec does not lay it
out. -/
def collBytes (f : Upf.File) (a d pattern count : Nat) : Nat :=
  let n := collEls f a pattern count
  let w := wireFmt (collFmt f a d pattern)
  let c := collFmt f a d pattern
  (if pattern ≤ 1 then n * (if w = 16 then 4 else fmtBits w / 8) else 0) + n / blockLen c * fmtUnit c

/-- The source view in the accumulator's form, and in units as stored: elements, or blocks with their scale (R120, R405). -/
def collOf (s : State) (t slot : Nat) (st : Step) (a d pattern red first count root w : Nat) : Coll :=
  let f := stepFile s st
  let src := (tensorOf f (viewOf f a).tensor).format
  let fmt := collFmt f a d pattern
  let es := readView s t slot st a
  let raw := readStored s t slot st a
  let k := blockLen src
  let n := es.length
  { part := st.part, job := jobIdx st, win := w % 1023, winGen := w / 1023 % 256, pattern, red, first, count, root, own := ownMember s st - first
    els := collEls f a pattern count, blk := k, wire := wireFmt fmt, fmt, int := src == 8
    words := if pattern ≤ 1 then es.map fun e =>
        if src = 8 then BitVec.ofInt 32 (sgn 8 e.1) else toF32 (decElem src e.1 e.2.1) else []
    bad := (es.zipIdx.filter fun e => e.1.2.2).map (·.2)
    units := if pattern ≤ 1 then [] else (List.range (n / k)).map fun j =>
      let u := (raw.drop (j * k)).take k ++ (if isBlock src then (raw.drop (n + j)).take 1 else [])
      (packBits (u.map fun e => (e.1, e.2.1)), u.any (·.2.2)) }

/-- The link port at which what a member sends here arrives (R408). -/
def inPort (s : State) (j m : Nat) : Nat :=
  match routeFrom s ((s.job j).members.getD m {}).pkg (myPkg s) with
  | some r => match r.getLast? with
    | some h => hopPort s.variant (if h % 2 = 0 then h + 1 else h - 1)
    | none => 7
  | none => 7

/-- A plan goes to the reducer of the port at which its ring's data arrives; with no reducer there, or one that was withdrawn until
block reset at the last step boundary, it becomes a skein that spindle firmware adds (R203, R408, R449). -/
def addPlan (s : State) (q : Plan) (port : Nat) : State :=
  if fullUnits s.variant ∧ !(s.part ((tfind s.steps q.slot).elim 0 (·.part))).lowered.contains port then s.modReducer port fun x => { x with plans := x.plans ++ [q] }
  else { s with addedWork := s.addedWork ++ [q] }

/-- Number of a COLL among the program's, in table order, when `left` instructions follow it in its skein. -/
def collNumber (f : Upf.File) (skein left : Nat) : Nat :=
  let code := (nth f.skeins skein {}).code
  sumNat ((f.skeins.take skein).map fun k => (k.code.filter isColl).length)
    + ((code.take (code.length - left - 1)).filter isColl).length

/-- COLL (R195, R407, R408): the source is read, and each ring gets a plan. -/
def execColl (t a d pattern red first count root : Nat) (s : State) : Res :=
  skein t (.coll a d pattern red first count root) [] (fun s slot st r =>
    let f := stepFile s st
    let j := jobIdx st
    let own := ownMember s st - first
    let next := first + (own + 1) % max 1 count
    let prev := first + (own + count - 1) % max 1 count
    match memberPort s j next, memberPort s j prev with
    | some p, some _ =>
      let s := copyRead s t slot st a
      let (w, s) := draw s
      let c := collOf s t slot st a d pattern red first count root w
      let (op, s) := newOp s slot t r.skein 2 next d 0 p (coll := some c)
      let s := moved s t slot st a (bitsLen (readStored s t slot st a)) false
      let s := setRun s t { r with opsOut := r.opsOut + 1 }
      let s := s.modStep slot fun x => { x with requests := x.requests + 1 }
      let k := f.skeins.length + 2 * collNumber f r.skein r.code.length
      let q : Plan := { slot, tile := t, skein := r.skein, op := op.id, deadline := st.deadline, part := st.part, added := k }
      addPlan (addPlan s q (inPort s j prev)) { q with rev := true, added := k + 1 } (inPort s j next)
    | none, _ => withholdOp s j next slot
    | _, none => withholdOp s j prev slot) s

/-! ### Sorts, digests, maps -/

/-- Rank of a deadline: none comes last (R156). -/
def deadlineRank (d : Nat) : Nat := if d = 0 then 2 ^ 64 else d

/-- A sorter takes a request: it holds at most 16 (R156). -/
def sorterRoom (x : Sorter) : Bool := x.withdrawn == 0 && decide (x.reqs.length + x.run.toList.length < 16)

/-- The skein whose request was accepted no longer waits for it (R195). -/
def sortAccepted (s : State) (q : SortReq) : State :=
  let f := fun (r : SkeinRun) => if r.slot = q.slot ∧ r.skein = q.skein then { r with sortsOut := r.sortsOut - 1 } else r
  s.modTile q.tile fun x => { x with run := x.run.map f, tails := x.tails.map f }

/-- Spindle firmware feeds queued requests to a sorter of a die on which their partition holds a granule (R138, R156). -/
def feedSorter (s : State) (d : Nat) : State :=
  (List.range s.sortWait.length).foldl (fun s _ =>
    match s.sortWait.find? fun q => (partDies (s.part q.part)).contains d with
    | some q => if sorterRoom (s.sorter d) then
        sortAccepted ({ s with sortWait := s.sortWait.erase q }.modSorter d fun x => { x with reqs := x.reqs ++ [q] }) q
      else s
    | none => s) s

/-- SORT (R139, R449): the descriptor is read as the operation issues (DESIGN CHOICE, log 149), and the request goes to
spindle firmware, which gives it to a sorter with room; which one is its choice. With every sorter of the partition withdrawn
until block reset the step fails. -/
def execSort (t a idx : Nat) (s : State) : Res :=
  skein t (.sort a idx) [] (fun s slot st r =>
    let src := readStored s t slot st a
    if src.any (·.2.2) then skeinFault s t slot 0x02
    else if (partDies (s.part st.part)).all fun d => (s.sorter d).withdrawn == 2 then failStep s slot 0x0D06 else
    let q : SortReq := { slot, tile := t, skein := r.skein, idx, desc := packBits (src.map fun e => (e.1, e.2.1)),
                         deadline := st.deadline, part := st.part }
    let s := setRun s t { r with sortsOut := r.sortsOut + 1 }
    let s := { s.modStep slot fun x => { x with requests := x.requests + 1 } with sortWait := s.sortWait ++ [q] }
    let (d, s) := pickFree s ((partDies (s.part st.part)).filter fun d => sorterRoom (s.sorter d))
    match d with
    | some d => feedSorter s d
    | none => s) s

/-- DIGEST (R198, R562): the digest of a view's string, into the first 8 bytes of `d`. -/
def execDigest (t a d : Nat) (s : State) : Res :=
  skein t (.digest a d) [] (fun s slot st _ =>
    let src := readStored s t slot st a
    if src.any (·.2.2) then skeinFault s t slot 0x02 else
    let f := stepFile s st
    let va := viewOf f a
    let ta := tensorOf f va.tensor
    let n := (primaryBits ta va).length
    let k := (metaBits ta va).length
    let str := packBits ((src.take n).map fun e => (e.1, e.2.1)) ++ packBits (((src.drop n).take k).map fun e => (e.1, e.2.1))
      ++ packBits ((src.drop (n + k)).map fun e => (e.1, e.2.1))
    let s := moved s t slot st a str.length false
    moved (putAll s t slot (landPuts (takeBits 64 (viewBits f d)) (toLe 8 (crc64 str).toNat) [])) t slot st d 8 true) s

/-- MAPCLR (R131): every bit of both planes of the view's blocks is 1. -/
def execMapclr (t d : Nat) (s : State) : Res :=
  skein t (.mapclr d) [] (fun s slot st _ =>
    let f := stepFile s st
    let v := viewOf f d
    let x := tensorOf f v.tensor
    let is := ((coords v).map (mapIdx x)).dedup
    putAll s t slot (is.flatMap fun i =>
      [{ tensor := x.zmap, off := i, width := 1, val := 1 }, { tensor := x.fmap, off := i, width := 1, val := 1 }])) s

end Sys2Proof.Machine
end

