-- ==== Sys2Proof/Machine/Sched.lean ====
section
/-! DEFINITION. What the scheduling and placement rows share: bobbin eligibility (R232), the order of steps (R306, R307), the
prediction of R319, the step boundary (R305, R326, R327, R544), the skein graph (R149, R150, R176) and the placement log (R221). -/

namespace Sys2Proof.Machine

/-! ### Bobbins of a step -/

/-- A catalogue entry is resident. -/
def resident (s : State) (p b : Nat) : Bool :=
  match tfind (s.part p).bobbins b with
  | some x => x.live && x.state == 2
  | none => false

/-- The step's own bobbin is resident, or it names none (R232). -/
def ownResident (s : State) (st : Step) : Bool :=
  match st.bobbin with
  | none => true
  | some b => resident s st.part b

/-- The step has a fallback whose bobbin is resident or not needed (R232); one that the catalogue did not hold at the step's
admission is not resident for it (R303). -/
def fbResident (s : State) (st : Step) : Bool :=
  st.fallback.isSome && (match st.fbBobbin with
    | none => (tget (s.part st.part).progs st.prog {}).upf.fallback.all fun b => b.bobbin == 0
    | some b => resident s st.part b)

/-- The start of a step sets the last use of its bobbins (R241). -/
def touchBobbins (s : State) (st : Step) : State :=
  s.modPart st.part fun x =>
    { x with bobbins := tmap x.bobbins fun i b =>
        if st.bobbin = some i ∨ st.fbBobbin = some i then { b with lastUse := time s } else b }

/-! ### The skein graph -/

/-- State of a skein of a step. -/
def skState (st : Step) (k : Nat) : Nat := tget st.skeins k 0

/-- A skein counts as complete for the dependency graph (R150, R177). -/
def skDone (st : Step) (k : Nat) : Bool := decide (4 ≤ skState st k)

/-- The skein's issue has ended (R312). -/
def skIssued (st : Step) (k : Nat) : Bool := decide (3 ≤ skState st k)

/-- Views that a skein's code names. -/
def codeViews (k : Upf.Skein) : List Nat :=
  k.code.flatMap fun i => match i with
    | .sst _ _ d => [d] | .fetch a d _ => [a, d] | .send a d _ => [a, d] | .coll a d .. => [a, d] | .mma a b .. => [a, b]
    | .drain d .. => [d] | .vld a .. => [a] | .vst d .. => [d] | .mapclr d => [d] | .sort a _ => [a] | .digest a d => [a, d]
    | _ => []

/-- The share of a cut layer that a skein works on: that of the chunk in which its first weights lie (R204, R248; log 24). -/
def skeinCut (img : List Byte) (f : Upf.File) (k : Upf.Skein) (cuts : Nat) : Nat :=
  match (codeViews k).find? fun v => (tensorOf f (viewOf f v).tensor).kind == 2 with
  | none => 0
  | some v =>
    let off := (tensorOf f (viewOf f v).tensor).offset + (match viewBits f v with
      | b :: _ => b.off / 8
      | [] => 0)
    let vals := maxNat (((List.range (imgChunks img)).filter fun c => chunkLayer img c == k.layer).map fun c => chunkPart img c + 1)
    match (List.range (imgChunks img)).find? fun c => decide (chunkOff img c ≤ off ∧ off < chunkOff img c + chunkLen img c) with
    | some c => chunkPart img c * cuts / max 1 vals
    | none => 0

/-- Member `m` runs this skein of a job step: its layer, and of a cut layer its share, is the member's part; outside a split every
skein is the step's own (R204). -/
def memberRuns (s : State) (st : Step) (m : Nat) (k : Upf.Skein) : Bool :=
  match st.job with
  | none => true
  | some (j, _) => match (s.job j).parts[m]? with
    | none => true
    | some q => q.1 != 0xFFFF && decide (q.1 ≤ k.layer ∧ k.layer ≤ q.2.1)
        && (decide (q.2.2.2 ≤ 1) || (match runBobbin st with
          | some b => skeinCut (tget (s.part st.part).bobbins b {}).image (stepFile s st) k q.2.2.2 == q.2.2.1
          | none => q.2.2.1 == 0))

/-- The step runs skein `k` at this member. -/
def ownSkein (s : State) (st : Step) (k : Nat) : Bool := st.job.isNone || memberRuns s st (stepMember s st) (nth (stepFile s st).skeins k {})

/-- Skein `k` of a file. -/
def skeinOf (f : Upf.File) (k : Nat) : Upf.Skein := nth f.skeins k {}

/-- Sort indices of a skein's code. -/
def sortsOf (k : Upf.Skein) : List Nat := k.code.filterMap fun i => match i with
  | .sort _ x => some x
  | _ => none

/-- Key of an evaluated bucket count. -/
def sortKey (idx e : Nat) : Nat := idx * 1024 + e

/-- The counts of a sort have been evaluated (R149, R154). -/
def sortEvaluated (st : Step) (idx : Nat) : Bool :=
  match tfind st.sortExperts idx with
  | some e => (List.range e).all fun i => (tfind st.sortCounts (sortKey idx i)).isSome
  | none => false

/-- The count a conditional skein's predicate looks at, once it is evaluated; a sort that closed without running has no
experts and every count 0 (DEDUCED, log 21). -/
def predCount (st : Step) (k : Upf.Skein) : Option Nat :=
  match tfind st.sortCounts (sortKey k.predSort k.predExpert) with
  | some n => some n
  | none => match tfind st.sortExperts k.predSort with
    | some e => if e ≤ k.predExpert then some 0 else none
    | none => none

/-- The bucket predicate (R149). -/
def predTrue (k : Upf.Skein) (n : Nat) : Bool := decide (k.predChunk * k.predN < n)

/-- Tokens of a conditional skein's chunk (R150). -/
def predTokens (k : Upf.Skein) (n : Nat) : Nat := min k.predN (n - k.predChunk * k.predN)

/-- Every edge into a skein is satisfied (R176), and a conditional skein's predicate is true (R149). -/
def skeinReady (f : Upf.File) (st : Step) (k : Nat) : Bool :=
  let x := skeinOf f k
  (f.edges.all fun e => e.dst != k || (skDone st e.src
      && (e.kind != 2 || x.kind == 1 || (sortsOf (skeinOf f e.src)).all (sortEvaluated st))))
    && (x.kind == 0 || match predCount st x with
      | some n => predTrue x n
      | none => false)

/-- Longest chain of incomplete skeins under a weight (R319, R312), over the skeins a test keeps. -/
def longest (f : Upf.File) (keep : Nat → Bool) (w : Upf.Skein → Nat) : Nat :=
  maxNat ((f.skeins.zipIdx.foldl (fun (t : Tab Nat) e =>
    if keep e.2 then
      let before := maxNat ((f.edges.filter fun d => d.dst == e.2).map fun d => tget t d.src 0)
      tput t e.2 (before + w e.1)
    else t) []).map (·.2))

/-! ### Placement log (R221, R222) -/

/-- The bits of a placement log record (Table Placement-2). -/
def logBits (s : State) (st : Step) (skein tile : Nat) (retired replaced added : Bool) : Nat :=
  skein % 65536 + 65536 * (if retired then 0 else tile % 2048) + (if retired then 2 ^ 27 else 0)
    + (if replaced then 2 ^ 28 else 0) + (if added then 2 ^ 29 else 0) + 2 ^ 32 * (st.seq % 65536) + 2 ^ 48 * stepMember s st

/-- Write one record, then advance `written`. -/
def logPlace (s : State) (st : Step) (skein tile : Nat) (retired replaced : Bool) (added : Bool := false) : State :=
  let c := s.ctx st.ctx
  if !c.logOn || c.gen != st.ctxGen then s else
  let i := c.logObj % 65536
  let s := objWrite (obsSpend s st.part 8) st.part i (64 + 8 * (c.logWritten % c.logCap)) (toLe 8 (logBits s st skein tile retired replaced added))
  let s := objWrite s st.part i 0 (toLe 8 (c.logWritten + 1))
  s.modCtx st.ctx fun x => { x with logWritten := x.logWritten + 1 }

/-! ### Retiring and evaluating (R149, R150) -/

/-- Retire not-started skeins without issue, and with them the conditional skeins of the sorts they would have issued. -/
def retire : Nat → State → Nat → List Nat → State
  | 0, s, _, _ => s
  | n + 1, s, slot, ks =>
    match ks with
    | [] => s
    | _ => match tfind s.steps slot with
      | none => s
      | some st =>
        let f := stepFile s st
        let here := ks.filter fun k => skState st k == 0
        let s := here.foldl (fun s k =>
          let s := s.modStep slot fun x => { x with skeins := tput x.skeins k 5 }
          if ownSkein s st k then logPlace (count s st.part 0x07 1) st k 0 true false else s) s
        let idx := here.flatMap fun k => sortsOf (skeinOf f k)
        let s := s.modStep slot fun x => { x with sortExperts := idx.foldl (fun t i => tput t i 0) x.sortExperts }
        retire n s slot ((List.range f.skeins.length).filter fun k =>
          (skeinOf f k).kind == 1 && idx.contains (skeinOf f k).predSort)

/-- Retire every conditional skein of sort `idx` whose predicate is now false. -/
def retireFalse (s : State) (slot idx : Nat) : State :=
  match tfind s.steps slot with
  | none => s
  | some st =>
    let f := stepFile s st
    retire (f.skeins.length + 1) s slot ((List.range f.skeins.length).filter fun k =>
      let x := skeinOf f k
      x.kind == 1 && x.predSort == idx && (match predCount st x with
        | some n => !predTrue x n
        | none => false))

/-- A SORT that will not issue any more counts as evaluated with every count 0 (log 21). -/
def closeSort (s : State) (slot idx : Nat) : State :=
  retireFalse (s.modStep slot fun x => { x with sortExperts := tput x.sortExperts idx 0 }) slot idx

/-- Counts of experts are evaluated (R149, R154). -/
def evalCounts (s : State) (slot idx experts : Nat) (l : List (Nat × Nat)) : State :=
  retireFalse (s.modStep slot fun x =>
    { x with
      sortExperts := tput x.sortExperts idx experts
      sortCounts := l.foldl (fun t e => tput t (sortKey idx e.1) e.2) x.sortCounts }) slot idx

/-! ### Order and prediction (R306 to R308, R319) -/

/-- Rank of a step under R307: deadline, then time since it last ran (or was admitted), then queue, then sequence. -/
def ranks (a b : Step) : Bool :=
  let ka := deadlineRank a.deadline
  let kb := deadlineRank b.deadline
  let ta := a.lastRan.getD a.queuedAt
  let tb := b.lastRan.getD b.queuedAt
  decide (ka < kb) || (ka == kb && (decide (ta < tb) || (ta == tb
    && (decide (a.queue < b.queue) || (a.queue == b.queue && decide (a.seq < b.seq))))))

/-- Usable tiles of a partition. -/
def usableTiles (s : State) (p : Nat) : List Nat := (partTiles (s.part p)).filter fun t => (s.tile t).withdrawn == 0

/-- Cycles still to run: `c_rem` of R319. -/
def cRem (s : State) (st : Step) : Nat :=
  let f := stepFile s st
  let done := sumNat ((f.skeins.zipIdx.filter fun e => skDone st e.2).map fun e => e.1.cost)
  let n := (usableTiles s st.part).length
  max (longest f (fun k => !skDone st k) (·.cost)) (ceilDiv (f.work - done) (max 1 n))

/-- Ten times b_drain in bytes per ns (R311). -/
def drainRate (s : State) (p : Nat) : Nat :=
  max 1 (min (320 * (usableTiles s p).length) (346 * 4 * ((s.part p).width * (s.part p).height)))

/-- Buffers live at the present boundary (R179, R311). -/
def liveBufs (f : Upf.File) (st : Step) : List Nat :=
  (f.lives.filter fun l => skIssued st l.first && !skIssued st l.last).map (·.tensor)

/-- Bytes that the step's save area holds. -/
def savedBytes (s : State) (st : Step) : Nat :=
  if st.spilled then sumNat ((liveBufs (stepFile s st) st).map fun i => (tensorOf (stepFile s st) i).bytes) else 0

/-- Steps of the partition that run, are ready or suspended and rank before a step. -/
def ahead (s : State) (slot : Nat) (st : Step) : List Step :=
  (s.steps.filter fun e => e.1 != slot && e.2.part == st.part && (e.2.state == 2 || e.2.state == 3 || e.2.state == 4)
    && ranks e.2 st).map (·.2)

/-- t_pred − now > bound in ns, exactly: the sum of R319 scaled by the clock's and the drain's denominators. -/
def predictAfter (s : State) (slot : Nat) (st : Step) (bound : Nat) : Bool :=
  let n := 16 + (s.part st.part).retuned
  let b := drainRate s st.part
  let c := cRem s st + sumNat ((ahead s slot st).map (cRem s))
  decide (bound * (b * n) < 1500 * (b * n) + 10 * savedBytes s st * n + 40 * c * b)

/-- The predicted miss exceeds the partition's threshold (R319, R320); a best-effort step never misses. -/
def predictMiss (s : State) (slot : Nat) (st : Step) : Bool :=
  st.deadline != 0 && (let due := st.deadline + 1000 * (s.part st.part).cur.miss
    if due < time s then true else predictAfter s slot st (due - time s))

/-- The step would switch to its fallback (R320). -/
def wantsFallback (s : State) (slot : Nat) (st : Step) : Bool :=
  !st.useFb && !st.noFallback && fbResident s st && predictMiss s slot st

/-! ### Derived cheap points (R181, R219) -/

/-- The placement record that applies to a layer (R217). -/
def hintFor (g : Program) (layer : Nat) : Option Hint := g.hints.find? fun h => decide (h.first ≤ layer ∧ layer ≤ h.last)

/-- Usable tiles of a partition's granules that a mask names. -/
def maskTiles (s : State) (p mask : Nat) : Nat :=
  sumNat (((partGranules (s.part p)).zipIdx.filter fun e => bitOf mask e.2).map fun e =>
    ((granuleTiles e.1).filter fun t => (s.tile t).withdrawn == 0).length)

/-- The derived cheap points of a program: inside an interval with more skeins than the partition has tiles, or more under one pin
than its granules have tiles, a point before the skein that would exceed the count. Which sets firmware takes is open; the model
takes sets of the first skeins (DESIGN CHOICE, log 82). -/
def derivePoints (s : State) (p : Nat) (g : Program) : List Nat :=
  let f := g.upf
  let all := max 1 (usableTiles s p).length
  (f.skeins.zipIdx.foldl (fun (a : List Nat × Nat × Tab Nat) e =>
    let pin := match hintFor g e.1.layer with
      | some h => h.pin
      | none => 0
    let full := decide (all ≤ a.2.1) || (pin != 0 && decide (max 1 (maskTiles s p pin) ≤ tget a.2.2 pin 0))
    let a := if full then (a.1 ++ [e.2 - 1], 0, []) else a
    let a := (a.1, a.2.1 + 1, tput a.2.2 pin (tget a.2.2 pin 0 + 1))
    if f.cheaps.any fun c => c.after == e.2 then (a.1, 0, []) else a) ([], 0, [])).1

/-! ### Step boundaries (R305, R326, R327, R543, R544) -/

/-- The running per-step bank becomes the completed bank; no swap while a freeze holds (R544, R546). -/
def swapBank (s : State) (p : Nat) (cut : Bool) : State :=
  if (s.part p).counters.runOpen && !frozen s then
    s.modPart p fun x => { x with counters := { x.counters with
      done := x.counters.run, run := List.replicate x.counters.sel.length 0, isPartial := cut || x.counters.frozenIn
      doneCtx := x.counters.runCtx, doneSeq := x.counters.runSeq, frozenIn := false, runOpen := false } }
  else s

/-- The watch that takes effect: its object's header is written; selections of programs no longer loaded, or with an object no
longer valid, drop (R563, Table Observation-9). -/
def swapWatch (s : State) (p : Nat) : State :=
  match (s.part p).watch.staged with
  | some (o, sels) =>
    let cap := ((memObj s p (o % 65536)).bytes - 64) / 64
    let s := s.modPart p fun x => { x with watch := { obj := o, sels, capacity := cap, written := 0, staged := none } }
    if o = 0xFFFFFFFF then s else objWrite s p (o % 65536) 0 (toLe 8 0 ++ toLe 8 cap ++ List.replicate 48 0)
  | none =>
    let w := (s.part p).watch
    let keep := w.sels.filter fun x => (progOf s p x.prog).isSome
    if w.obj = 0xFFFFFFFF then s
    else if (objOf s p w.obj).isNone then s.modPart p fun x => { x with watch := {} }
    else s.modPart p fun x => { x with watch := { w with sels := keep } }

/-- A partition's clock grant: its setting less the lowerings in force (R328). -/
def grantOf (s : State) (p : Nat) (x : Part) : Nat := x.cur.clock - (s.power.lowered.filter (· == p)).length

/-- All staged settings of a partition take effect together (R327). -/
def swapStaged (s : State) (p : Nat) : State :=
  let s := s.modPart p fun x =>
    { x with
      cur := x.staged.getD x.cur
      staged := none
      counters := match x.counters.staged with
        | some l => { sel := l, live := List.replicate l.length 0, run := List.replicate l.length 0,
                      runCtx := x.counters.runCtx, runSeq := x.counters.runSeq }
        | none => x.counters
      progs := tmap x.progs fun _ g => match g.staged with
        | some h => let g := { g with hints := h, staged := none }
                    { g with derived := derivePoints s p g }
        | none => g }
  let s := swapWatch s p
  let s := s.modPart p fun x =>
    { x with granted := grantOf s p x, lowered := (List.range 6).filter fun i => (s.reducer i).withdrawn == 2 }
  reap (retune s p) p

/-- The partition is at a step boundary (R305). -/
def atBoundary (s : State) (p : Nat) : Bool := (s.part p).running == none

/-- The partition enters a step boundary. -/
def enterBoundary (s : State) (p : Nat) (cut : Bool) : State := swapStaged (swapBank s p cut) p

/-- A setting has been staged: it takes effect at once while the partition is at a boundary (Table Scheduling-7). -/
def staged (s : State) (p : Nat) : State := if atBoundary s p then swapStaged s p else retune s p

/-! ### Leaving a tile -/

/-- The step's buffers that are dead leave the scratchpads: those that no live range keeps and no unfinished skein names. -/
def freeDead (s : State) (slot : Nat) (keep : Nat → Bool) : State :=
  { s with tiles := tmap s.tiles fun _ x => { x with bufs := x.bufs.filter fun b => b.slot != slot || keep b.tensor } }

/-- Scratchpad tensors that a skein's code names, companions among them. -/
def skeinBufs (f : Upf.File) (k : Upf.Skein) : List Nat :=
  (((codeViews k).flatMap fun v =>
    let i := (viewOf f v).tensor
    let t := tensorOf f i
    [i, t.scale, t.meta24, t.zmap, t.fmap]).filter fun i => i != 0xFFFF && (tensorOf f i).kind == 4).dedup

/-- Skeins from `c` on that are in their prologue, or placed and not yet issued, return to the not-started state; their fetched
bytes are discarded, those still to come among them (R183). -/
def unplace (s : State) (slot c : Nat) : State :=
  match tfind s.steps slot with
  | none => s
  | some st =>
    let back := (st.skeins.filter fun e => e.2 == 1 && decide (c ≤ e.1)).map (·.1)
    let drop := fun (o : RemOp) => o.slot == slot && back.contains o.skein && o.kind == 0
    let s' := { s with
      tiles := tmap s.tiles fun _ t => { t with run := t.run.filter fun r => !(r.slot == slot && back.contains r.skein) }
      remOps := s.remOps.map fun o => if drop o then { o with kind := 4 } else o }
    s'.modStep slot fun x => { x with skeins := x.skeins.filter fun e => !back.contains e.1,
                                      replaced := (x.replaced ++ back).dedup
                                      requests := x.requests - (s.remOps.filter drop).length }

/-- A step has stopped issuing: it is RELEASING, and its partition is at a step boundary, the residue tails and the gate of the
step still pending (R304, R305). -/
def lastDone (s : State) (slot : Nat) (st : Step) : State :=
  let s := (setState s slot 5).modStep slot fun x => { x with lastRan := some (time s) }
  if (s.part st.part).running = some slot then
    enterBoundary (s.modPart st.part fun x => { x with running := none, switchReq := 0 }) st.part false
  else s

/-- The skein's issue has ended, or another member runs it (R204, R312). -/
def skPast (s : State) (st : Step) (k : Nat) : Bool := skIssued st k || !ownSkein s st k

/-- A RUNNING step with no skein left to issue has stopped issuing (R150, R305); a SUSPENDED one is seen when it runs again. -/
def settleSkeins (s : State) (slot : Nat) : State :=
  match tfind s.steps slot with
  | none => s
  | some st =>
    if st.state = 3 ∧ (List.range (stepFile s st).skeins.length).all (skPast s st) then lastDone s slot st else s

/-- No skein of the step is in flight: none issues, and every issued one is past its residue tail and waits for a landing or an
acknowledgement alone, which hold no switch (R310, R312). -/
def noneInFlight (s : State) (slot : Nat) (st : Step) : Bool :=
  st.skeins.all (fun e => e.2 != 2)
    && s.tiles.all fun e => e.2.tails.all fun r =>
      r.slot != slot || (!r.matWin && !r.vecWin && decide (0 < r.opsOut + r.sortsOut))

/-- The step is blocked: nothing in flight, and none of its unstarted skeins can start (R315). -/
def isBlocked (s : State) (slot : Nat) (st : Step) : Bool :=
  let f := stepFile s st
  noneInFlight s slot st
    && (s.tiles.all fun e => match e.2.run with
        | some r => r.slot != slot || decide (0 < r.fetchOut) || r.plan.isSome
        | none => true)
    && (List.range f.skeins.length).all (fun k => skState st k != 0 || !ownSkein s st k || !skeinReady f st k)
    && (List.range f.skeins.length).any (fun k => !skDone st k)

/-- Skeins 0 to i are issued to their ends and no later one has started (R178): the point's `after`, if the step stands at one. -/
def cheapAt (f : Upf.File) (st : Step) : Option Nat :=
  (f.cheaps.find? fun c => (List.range f.skeins.length).all fun k =>
    if k ≤ c.after then skIssued st k else decide (skState st k ≤ 1)).map (·.after)

/-- The next cheap point as the count of skeins before it: the least of the step's points, start, end and derived ones among them,
behind which no skein has started (R178, R181, R310). -/
def nextPoint (s : State) (st : Step) : Nat :=
  let f := stepFile s st
  let n := f.skeins.length
  let points := f.cheaps.map (·.after) ++ (tget (s.part st.part).progs (runProg st) {}).derived
  let clear := fun (c : Nat) => (List.range n).all fun k => decide (k < c) || decide (skState st k ≤ 1) || skState st k == 5
  min n ((minBy id ((0 :: points.map (· + 1)).filter clear)).getD n)

/-- The step stands at its next cheap point: every skein before it has been issued and is past its tail (R310, R312). -/
def atPoint (s : State) (slot : Nat) (st : Step) : Bool :=
  noneInFlight s slot st && (List.range (nextPoint s st)).all (skPast s st)

/-- The wait for the next cheap point in ns, scaled by the clock's denominator (R312). -/
def tPoint (s : State) (st : Step) : Nat :=
  let n := 16 + (s.part st.part).retuned
  let c := nextPoint s st
  longest (stepFile s st) (fun k => decide (k < c) && !skPast s st k) fun k => (k.cost + 64) * 40 + 2000 * n

/-- Slack of a step, scaled by the clock's denominator; a best-effort step has infinite slack (R306). -/
def slack (s : State) (st : Step) : Int :=
  let n := 16 + (s.part st.part).retuned
  if st.deadline = 0 then 2 ^ 100 else ((st.deadline : Int) - time s) * n - 40 * cRem s st

/-- A switch of the running step is asked: 1 at its next cheap point, 2 at the current boundary. No skein past that boundary goes
on: those still in their prologue return to the not-started state (R183, R310). -/
def requestSwitch (s : State) (p req : Nat) : State :=
  match (s.part p).running with
  | none => s
  | some k => match tfind s.steps k with
    | none => s
    | some st =>
      let r := max (s.part p).switchReq req
      let c := nextPoint s st
      let s := s.modPart p fun x => { x with switchReq := r }
      if r = 0 then s else unplace s k (if r = 1 then c else 0)

/-- How the arrival of a READY step schedules a switch of the running one (R309, R310): 0 none, 1 cheap point, 2 current
boundary. -/
def arrivalSwitch (s : State) (st : Step) : Nat :=
  match (s.part st.part).running with
  | none => 0
  | some k => match tfind s.steps k with
    | none => 0
    | some r =>
      if deadlineRank st.deadline < deadlineRank r.deadline then
        if r.deadline = 0 ∨ (tPoint s r : Int) ≤ slack s st then 1 else 2
      else 0

end Sys2Proof.Machine
end

