-- ==== Sys2Proof/Machine/Bobbins.lean ====
section
/-! DEFINITION. The bobbin store: images, the catalogue, installs, fills, eviction, pins, serving peers (R223 to R245, R257,
R482, R495, R496). -/

namespace Sys2Proof.Machine

/-! ### Message lines -/

/-- A message that only the function owning the named partition sends (R346). -/
def ownMsg (s : State) (m : Msg) (op len : Nat) (rsv : List (Nat × Nat)) (ranges : Bool) : MsgSpec :=
  { opcode := op, len := some len, rsv := (1, 3) :: rsv, ranges, named := ownPart s m }

/-- A message that the PF sends for any partition (R346). -/
def pfMsg (s : State) (m : Msg) (op len : Nat) (rsv : List (Nat × Nat)) (ranges : Bool) : MsgSpec :=
  { opcode := op, pfOnly := true, len := some len, rsv := (1, 3) :: rsv, ranges, named := anyPart s m }

/-! ### Images (Table Placement-4) -/

/-- A check entry is as Table Placement-4 has it: a known kind and format, its reserved bytes zero (R11, R224). -/
def checkEntryForm (e : List Byte) : Bool :=
  decide (fld e 25 1 ≤ 1 ∧ fld e 24 1 ≤ 14) && zeroRange e 26 6 && zeroRange e 44 4

/-- Header, tables and tiling are as R224 and R225. -/
def imageForm (img : List Byte) : Bool :=
  let n := imgChunks img
  fld img 0 4 == 0x31424F42 && decide (1 ≤ n ∧ n ≤ 1048576 ∧ imgChecks img ≤ 65534) && zeroRange img 20 44
    && img.length == imgTables img + imgBytes img
    && (List.range n).all (fun i =>
      chunkLen img i % 64 == 0 && decide (64 ≤ chunkLen img i ∧ chunkLen img i ≤ 4194304)
        && chunkOff img i == (if i = 0 then 0 else chunkOff img (i - 1) + chunkLen img (i - 1))
        && (i + 1 != n || chunkOff img i + chunkLen img i == imgBytes img))
    && (List.range (imgChecks img)).all fun i => checkEntryForm (checkEntry img i)

/-- Every chunk has its digest. -/
def chunksOk (img : List Byte) : Bool :=
  (List.range (imgChunks img)).all fun i => slice (chunkEntry img i) 16 48 == digestBytes (Config.sha384 (chunkBytes img i))

/-- One check entry as a tensor over the weight bytes (R132). -/
def checkTensor (e : List Byte) : Upf.Tensor :=
  { format := fld e 24 1, flags := if fld e 25 1 = 0 then 1 else 2, extent := [fld e 32 4, fld e 36 4, fld e 40 4, 1] }

/-- The checks of R132 on one entry: metadata nibbles valid, or both planes as the elements say. The entry of a block format
names no scales: its elements are judged as under finite scales, or as NaN, which a NaN scale makes them (DESIGN CHOICE, log
22). -/
def checkEntryOk (w e : List Byte) : Bool :=
  let t := checkTensor e
  let a := w.drop (fld e 0 8)
  let b := w.drop (fld e 8 8)
  let c := w.drop (fld e 16 8)
  if fld e 25 1 = 0 then
    (List.range (extT t 0 * (extT t 1 / 4) * extT t 2)).all fun i =>
      let q := fld b (i / 2) 1 / 16 ^ (i % 2) % 16
      decide (q % 4 < q / 4)
  else
    let v : Upf.View := { extent := t.extent }
    let val := fun (x : Nat × Nat × Nat × Nat) =>
      decElem t.format (readBits ⟨[], 0, 64, [], some a⟩ (linIdx t x * fmtBits t.format) (fmtBits t.format)) 127
    let blocks := (coords v).filter fun x => x.1 % 8 == 0 && x.2.1 % 8 == 0
    blocks.all fun x =>
      let els := ((coords ({ extent := [8, 8, 1, 1] } : Upf.View)).map fun d => val (x.1 + d.1, x.2.1 + d.2.1, x.2.2.1, x.2.2.2))
      let i := mapIdx t x
      let z := bitOf (fld b (i / 8) 1) (i % 8)
      let fin := bitOf (fld c (i / 8) 1) (i % 8)
      (z == els.all Val.isZero && fin == els.all Val.finite) || (isBlock t.format && !z && !fin)

/-- The map and metadata check of R132 on the entries whose tensor lies in the given chunks. -/
def imageChecked (img : List Byte) (cs : List Nat) : Bool :=
  (List.range (imgChecks img)).all fun i =>
    let e := checkEntry img i
    !(cs.any fun c => decide (chunkOff img c ≤ fld e 0 8 ∧ fld e 0 8 < chunkOff img c + chunkLen img c)) || checkEntryOk (weightBytes img) e

/-! ### The store -/

/-- Catalogue entry `i` of a partition. -/
def bobbin (s : State) (p i : Nat) : Bobbin := tget (s.part p).bobbins i {}
/-- Change it. -/
def modBobbin (s : State) (p i : Nat) (f : Bobbin → Bobbin) : State :=
  s.modPart p fun x => { x with bobbins := tput x.bobbins i (f (tget x.bobbins i {})) }
/-- The index holds an entry of the catalogue. -/
def hasBobbin (s : State) (p i : Nat) : Bool :=
  match tfind (s.part p).bobbins i with
  | some b => b.live && b.installing == none
  | none => false

/-- Pinned bytes, other than those of entry `i` (R243, R244). -/
def pinnedBytes (s : State) (p i : Nat) : Nat :=
  sumNat (((s.part p).bobbins.filter fun e => e.2.live && e.2.pinned && e.1 != i).map fun e => e.2.bytes)

/-- Evictable (R241). -/
def evictable (s : State) (p i : Nat) : Bool :=
  let b := bobbin s p i
  b.live && b.state == 2 && !b.pinned && bobbinRefs s p i == 0 && !serving s p b

/-- An entry leaves the store; its space is free at once (Table Placement-5). -/
def leaveStore (s : State) (p i : Nat) : State := modBobbin s p i fun b => { b with state := 0, places := [] }

/-- Entry `i` fits the store as it is. -/
def roomFor (s : State) (p i : Nat) : Bool := (placeChunks (s.part p) i (bobbin s p i)).isSome

/-- Evict, earliest last use first, until entry `i` fits; none when it would not fit with every evictable bobbin gone (R242). -/
def makeRoom (s : State) (p i : Nat) : Option State :=
  let es := ((s.part p).bobbins.filter fun e => evictable s p e.1 && e.1 != i).mergeSort fun a b => decide (a.2.lastUse ≤ b.2.lastUse)
  if !roomFor (forAll es (fun s e => leaveStore s p e.1) s) p i then none
  else some (forAll es (fun s e => if roomFor s p i then s else leaveStore s p e.1) s)

/-- The chunks of entry `i` take their places (R214). -/
def takePlaces (s : State) (p i : Nat) : State :=
  modBobbin s p i fun b => { b with places := (placeChunks (s.part p) i b).getD [] }

/-- An absent bobbin joins the fetch order (R240, Table Placement-5). -/
def wantBobbin (s : State) (p i : Nat) : State :=
  let b := bobbin s p i
  if !b.live || b.state != 0 then s else
  (modBobbin s p i fun b => { b with state := 1, wanted := (s.part p).arrivals }).modPart p fun x => { x with arrivals := x.arrivals + 1 }

/-- Steps that wait for the bobbin: those not started whose own it is; of those whose fallback's it is, those that nothing
else could still start. -/
def waitersOf (s : State) (p i : Nat) : List Nat :=
  slotsWhere s fun st => st.part == p && ((st.bobbin == some i && decide (st.state ≤ 2))
      || (st.fbBobbin == some i && decide (st.state ≤ 1) && !ownResident s st && (match st.bobbin with
          | some b => b == i || (bobbin s p b).state != 1
          | none => true)))

/-- The fill ends without the bobbin; waiting steps fail with the status (Table Placement-5). -/
def failFetch (s : State) (p i : Nat) (status : Code) : State :=
  let ks := waitersOf s p i
  let s := s.modPart p fun x => { x with fill := x.fill.filter fun f => f.bobbin != i }
  forAll ks (fun s k => failStep s k status) (leaveStore s p i)

/-- The entry whose backing copy holds a bobbin's bytes: its own, or for a shard its parent's. -/
def backedBy (s : State) (p : Nat) (b : Bobbin) : Option Bobbin :=
  if b.backing then some b
  else b.parent.bind fun d => ((s.part p).bobbins.find? fun e => e.2.live && e.2.backing && e.2.digest == d).map (·.2)

/-- A valid backing copy: written under this start (R239), with the host link up. -/
def backingOk (s : State) (p : Nat) (b : Bobbin) : Bool :=
  (backedBy s p b).any (fun c => c.backStart == s.life.startNo) && s.host.linkUp

/-- Peer sources of a partition (R234). -/
def peerSources (s : State) (p : Nat) : List Nat :=
  (((s.part p).sources ++ (s.jobs.filter fun e => e.2.live && e.2.members.any fun m => m.pkg == myPkg s && m.part == p).flatMap
    fun e => e.2.members.map (·.pkg)).filter (· != myPkg s)).dedup

/-- Rank of a bobbin in the fetch order (R240): the steps that wait, by deadline and then by arrival, each one's fallback
bobbin ahead of its own; then pins and prefetches by arrival. -/
def fetchRank (s : State) (p i : Nat) : Nat :=
  let ks := (s.steps.filter fun e => e.2.part == p && decide (e.2.state ≤ 2)).map (·.2)
  let rank := fun (st : Step) => (deadlineRank st.deadline * 2 ^ 64 + st.arrival) * 2
  let keys := ks.filterMap fun st =>
    if st.fbBobbin = some i then some (rank st) else if st.bobbin = some i then some (rank st + 1) else none
  keys.foldl min (2 ^ 131 + (bobbin s p i).wanted)

/-- The bobbin that the next fill is for. -/
def nextFetch (s : State) (p : Nat) : Option Nat :=
  (minBy (fun e => fetchRank s p e.1)
    ((s.part p).bobbins.filter fun e => e.2.live && e.2.state == 1 && e.2.installing == none)).map (·.1)

/-! ### Fills -/

/-- The host's backing copy as a source of chunks. -/
def hostSource : Nat := 0x1000

/-- Change a partition's fill. -/
def modFill (s : State) (p : Nat) (f : Fill → Fill) : State := s.modPart p fun x => { x with fill := x.fill.map f }

/-- Chunks of the fill not yet written and checked. -/
def openChunks (b : Bobbin) (f : Fill) : List Nat := (heldChunks b).filter fun c => !f.done.contains c

/-- Digest and chunks by which peers are asked for an entry: a shard is asked by its parent's. -/
def askedDigest (b : Bobbin) : BitVec 384 := b.parent.getD b.digest

/-- Deal chunks to serving peers in proportion to their announced rates: each to the peer that would have finished it first. Equal
ones go to the peer that answered first (R236). -/
def dealTo (img : List Byte) (f : Fill) (cs : List Nat) : Tab Nat :=
  (cs.foldl (fun (a : Tab Nat × Tab Nat) c =>
    match minBy (fun k => (tget a.2 k 0 + chunkLen img c) * 2 ^ 32 / max 1 (tget f.rates k 0)) f.peers with
    | none => a
    | some k => (tput a.1 c k, tput a.2 k (tget a.2 k 0 + chunkLen img c))) (f.deal, [])).1

/-- Ask each serving peer for the chunks among `cs` that are dealt to it. -/
def askChunks (s : State) (p : Nat) (b : Bobbin) (f : Fill) (cs : List Nat) : State :=
  forAll f.peers (fun s k =>
    let mine := cs.filter fun c => tget f.deal c hostSource == k
    if mine.isEmpty then s
    else sendCtl s p k (routeTo s k) (.ctl k (.request (myPkg s) p (tget s.partGen p 0) (askedDigest b) mine))) s

/-- Deal chunks of the fill: to its peers; with no peer left to the backing copy, or the fill fails (R234, R236, Table
Placement-6). -/
def dealFill (s : State) (p : Nat) (cs : List Nat) : State :=
  match (s.part p).fill with
  | none => s
  | some f =>
    let b := bobbin s p f.bobbin
    if !f.peers.isEmpty then
      let f := { f with deal := dealTo b.image f cs }
      askChunks (modFill s p fun _ => f) p b f cs
    else if backingOk s p b then modFill s p fun f => { f with backing := true, deal := cs.foldl (fun t c => tput t c hostSource) f.deal }
    else failFetch s p f.bobbin 0x0602

/-- With every probe answered or expired the fill's chunks are dealt (R235). -/
def probed (s : State) (p : Nat) : State :=
  match (s.part p).fill with
  | some f => if f.probing.isEmpty then dealFill s p (openChunks (bobbin s p f.bobbin) f) else s
  | none => s

/-- Peers of a fill are lost: the chunks that they had not sent go to the others (R236). -/
def losePeers (s : State) (p : Nat) (gone : Nat → Bool) : State :=
  match (s.part p).fill with
  | none => s
  | some f =>
    let g := { f with probing := f.probing.filter fun k => !gone k, peers := f.peers.filter fun k => !gone k }
    let s := modFill s p fun _ => g
    if !f.probing.isEmpty then (if g.probing.isEmpty then probed s p else s)
    else
      let cs := (openChunks (bobbin s p f.bobbin) f).filter fun c => tget f.deal c hostSource != hostSource && gone (tget f.deal c hostSource)
      if cs.isEmpty then s else dealFill s p cs

/-- The host link is down: a fill from the backing copy fails; a chunk that only came from there goes back to the fill's peers
(Table Placement-6). -/
def loseHost (s : State) (p : Nat) : State :=
  match (s.part p).fill with
  | none => s
  | some f =>
    if f.backing then failFetch s p f.bobbin 0x0602
    else
      let cs := (openChunks (bobbin s p f.bobbin) f).filter fun c => tfind f.deal c == some hostSource
      if cs.isEmpty then s else dealFill s p cs

/-- FILL_START (R132, R234, R235, R240 to R243): an image that failed its checks is not fetched again. -/
def execFillStart (now part : Nat) (s : State) : Res :=
  timed s now (fun s => engines s && active s part && (s.part part).fill == none && (nextFetch s part).isSome) fun s =>
    match nextFetch s part with
    | none => s
    | some i =>
      let b := bobbin s part i
      if b.bad then failFetch s part i 0x0402
      else if (s.part part).storeBytes < b.bytes + pinnedBytes s part i then failFetch s part i 0x0603
      else match makeRoom s part i with
        | none => s
        | some s =>
          let ps := peerSources s part
          let s := (takePlaces s part i).modPart part fun x => { x with fill := some { bobbin := i, probing := ps, probeAt := time s } }
          probed (forAll ps (fun s k => sendCtl s part k (routeTo s k) (.probe k (askedDigest b) (heldChunks b))) s) part

/-- PEER_PROBE_TIMEOUT (R235). -/
def execPeerProbeTimeout (now part pkg : Nat) (s : State) : Res :=
  timed s now (fun s => engines s && (match (s.part part).fill with
      | some f => f.probing.contains pkg && decide (50000 + f.probeAt < time s)
      | none => false)) fun s =>
    probed (modFill s part fun f => { f with probing := f.probing.erase pkg }) part

/-- The answer to a probe: the peer serves while fewer than six do, by a link port of its own, when it has every chunk asked (R235,
R236). -/
def probeAnswered (s : State) (p pkg : Nat) (digest : BitVec 384) (chunks : List Nat) (rate : Nat) : State :=
  match (s.part p).fill with
  | none => s
  | some f =>
    let b := bobbin s p f.bobbin
    if !f.probing.contains pkg || askedDigest b != digest then s else
    let port := fun k => (routeTo s k).map (routePort s)
    let serves := !(heldChunks b).isEmpty && (heldChunks b).all chunks.contains && decide (f.peers.length < 6)
      && !f.peers.any (fun k => port k == port pkg)
    probed (modFill s p fun f =>
      let f := { f with probing := f.probing.erase pkg }
      if serves then { f with peers := f.peers ++ [pkg], rates := tput f.rates pkg rate } else f) p

/-- The entry by which a partition can serve chunks of a bobbin: a resident one under `peer_share` that holds them, or, for another
member of a job whose member 0 the partition is, one with a backing copy (R235, R250). -/
def servable (s : State) (p pkg : Nat) (digest : BitVec 384) (chunks : List Nat) : Option (Nat × Bobbin) :=
  let has := fun (b : Bobbin) => (b.digest == digest || b.parent == some digest) && chunks.all (heldChunks b).contains
  let share := (s.part p).bobbins.find? fun e => e.2.live && has e.2 && e.2.state == 2 && e.2.peerShare
  let mine := s.jobs.any fun e => e.2.live && (match e.2.members with
    | m :: l => m.pkg == myPkg s && m.part == p && l.any fun x => x.pkg == pkg
    | [] => false)
  share.or ((s.part p).bobbins.find? fun e => e.2.live && has e.2 && mine && e.2.peerShare && e.2.parent.isNone && backingOk s p e.2)

/-- The rate a serving partition announces, in tenths of GB/s: a quarter of its HBM bandwidth (R237, R259; DEDUCED, log 153). -/
def serveRate (x : Part) : Nat := 384 * (x.width * x.height)

/-- PEER_PROBE (R235): the package answers with the chunks that it serves and its rate. -/
def execPeerProbe (now part pkg : Nat) (x : Probe) (enrolled : Bool) (s : State) : Res :=
  timed s now (fun s => engines s && active s part) fun s =>
    let got := if enrolled && (servable s part pkg x.digest x.chunks).isSome then x.chunks else []
    sendCtl s part pkg (routeTo s pkg) (.ctl pkg (.probeAnswer x.asker (myPkg s) x.digest got (serveRate (s.part part))))

/-- Chunks that a peer asks are sent by the route to it, and the bobbin is held until the last has gone (R236, R237). -/
def serveChunks (s : State) (pkg : Nat) (digest : BitVec 384) (chunks : List Nat) : State :=
  match s.parts.findSome? fun e => if e.2.state = 2 then (servable s e.1 pkg digest chunks).map fun b => (e.1, b) else none with
  | none => s
  | some (p, i, b) => match routeTo s pkg with
    | some (h :: r) =>
      let (q, s) := draw s
      let (w, s) := draw s
      let s := modBobbin s p i fun x => { x with serving := addNew (if serving s p x then x.serving else []) pkg }
      let d := ((partDies (s.part p))[0]?).getD 0
      sendAll s (hopPort s.variant h) (chunks.flatMap fun c =>
        dataMsgs (2048 + d) (q % 65536) 0 w p (h :: r) [{ pos := 0, bytes := chunkBytes b.image c }])
    | _ => s

/-- The bytes of a chunk as they arrive: a peer's, or what the frames of the backing copy open to (R239, R480). -/
def chunkData (s : State) (p : Nat) (b : Bobbin) (pkg chunk : Nat) (data : List Byte) : Option (List Byte) :=
  if pkg ≠ hostSource then some data
  else match (s.part p).backing, backedBy s p b with
    | some (base, _), some c =>
      if armed s 37 0 0xFFF then none
      else openCopy s.life.hostKey s.life.startNo base c.backFrame data (imgTables b.image + chunkOff b.image chunk) (chunkLen b.image chunk)
    | _, _ => none

/-- A mover takes data of a fill: the die is firmware's choice among the partition's (R227, R322). -/
def ingest (s : State) (p n : Nat) : Nat × State :=
  let s := count s p 0x0C n
  let (k, s) := draw s
  let ds := partDies (s.part p)
  let die := nth ds (k % max 1 ds.length) 0
  let (bsy, s) := draw s
  let (en, s) := draw s
  let g := s.engRec (2048 + die)
  let g : EngRec := { busy := g.busy + bsy, bytes := g.bytes + n, energy := g.energy + en }
  (die, { s with engRecs := tput s.engRecs (2048 + die) g })

/-- A chunk failed its digest: it is fetched again, from another peer, from the backing copy when no other peer serves, or from the
same source when there is no other (R227, R234). -/
def refetch (s : State) (p chunk src : Nat) : State :=
  match (s.part p).fill with
  | none => s
  | some f =>
    let b := bobbin s p f.bobbin
    let others := f.peers.filter (· != src)
    let k := if src = hostSource then src
      else match others with
        | k :: _ => k
        | [] => if backingOk s p b then hostSource else src
    let f := { f with failed := tput f.failed chunk src, deal := tput f.deal chunk k }
    askChunks (modFill s p fun _ => f) p b f [chunk]

/-- CHUNK_ARRIVAL (R227, R234, R245, R437): a chunk asked under another generation of the partition, or from another source, is
dropped; one with its digest is written into its place; one without is fetched again once. -/
def execChunkArrival (now part pkg chunk : Nat) (x : ChunkData) (s : State) : Res :=
  timed s now (fun s => engines s && active s part && (s.part part).fill.isSome) fun s =>
    match (s.part part).fill with
    | none => s
    | some f =>
      let b := bobbin s part f.bobbin
      if x.gen != tget s.partGen part 0 || f.done.contains chunk || tfind f.deal chunk != some pkg then s
      else match chunkData s part b pkg chunk x.data with
        | none => failFetch (if armed s 37 0 0xFFF then check s 37 0 0xFFF [] else reportCode s 0xA501) part f.bobbin 0x0602
        | some data =>
          if data.length != chunkLen b.image chunk then s else
          let s := if pkg = hostSource then countGlobal s 3 data.length else s
          let (die, s) := ingest s part data.length
          if slice (chunkEntry b.image chunk) 16 48 = digestBytes (Config.sha384 data) then
            let o := imgTables b.image + chunkOff b.image chunk
            let s := modBobbin s part f.bobbin fun x => { x with image := x.image.take o ++ data ++ x.image.drop (o + data.length) }
            let s := modFill (healChunk s part b chunk) part fun f => { f with done := f.done ++ [chunk] }
            check s die 11 (2048 + die) []
          else if (tfind f.failed chunk).isSome then failFetch s part f.bobbin 0x0604
          else report (refetch s part chunk pkg) { code := mkCode 1 die 0x11, engine := 2048 + die }

/-- FILL_COMPLETE (R132, R230): every chunk written and checked. -/
def execFillComplete (now part : Nat) (s : State) : Res :=
  timed s now (fun s => engines s && active s part && (match (s.part part).fill with
      | some f => (openChunks (bobbin s part f.bobbin) f).isEmpty
      | none => false)) fun s =>
    match (s.part part).fill with
    | none => s
    | some f =>
      let b := bobbin s part f.bobbin
      if !imageChecked b.image (heldChunks b) then failFetch (modBobbin s part f.bobbin fun x => { x with bad := true }) part f.bobbin 0x0402
      else
        let idle := (waitersOf s part f.bobbin).isEmpty
        let s := s.modPart part fun x => { x with fill := none }
        modBobbin s part f.bobbin fun x =>
          { x with state := 2, source := if f.backing then 2 else 1, lastUse := if idle then time s else x.lastUse }

/-! ### Installs (R228, R229, R482, R495, R496) -/

/-- The set key of a device set, if enrolled. -/
def setKey (s : State) (id : Nat) : Option (BitVec 256) := (s.life.devsets.find? fun e => e.2.setId == id).map (·.2.key)

/-- The content key of a package, when its set is enrolled and the key unwraps. -/
def contentKey (s : State) (pkg : List Byte) : Option (BitVec 256) :=
  if fld pkg 0 4 ≠ 0x31504257 ∨ pkg.length < 128 then none
  else (setKey s (fld pkg 4 4)).bind fun k => Config.aesKwUnwrap k (slice pkg 16 40)

/-- Decrypt the segments of a package from segment `n` on. -/
def openSegments (key : BitVec 256) (aad : List Byte) : Nat → Nat → Nat → List Byte → Option (List Byte)
  | 0, _, _, _ => some []
  | f + 1, n, left, bs =>
    if left = 0 then some []
    else
      let k := min left 65536
      if bs.length < k + 16 then none
      else (Config.gcmOpen key n aad (bs.take k) ((bs.drop k).take 16)).bind fun p =>
        (openSegments key aad f (n + 1) (left - k) (bs.drop (k + 16))).map (p ++ ·)

/-- The image of a package, when every tag verifies and its digest is the header's. -/
def openPackage (key : BitVec 256) (pkg : List Byte) : Option (List Byte) :=
  match openSegments key (pkg.take 128) (fld pkg 8 8 / 65536 + 1) 0 (fld pkg 8 8) (pkg.drop 128) with
  | some img => if imageForm img && slice pkg 56 48 == digestBytes (bobbinDigest img) && chunksOk img then some img else none
  | none => none

/-- First fit of `n` frames in ascending frame order (R482). -/
def fitFrames (s : State) (p n : Nat) : Option Nat :=
  match (s.part p).backing with
  | none => none
  | some (_, len) =>
    let used := ((s.part p).bobbins.filter fun e => e.2.live && e.2.backing).map fun e => (e.2.backFrame, copyFrames e.2.image)
    let starts := 0 :: used.map fun u => u.1 + u.2
    let ok := starts.filter fun a => decide (a + n ≤ len / 8192) && used.all fun u => decide (a + n ≤ u.1 ∨ u.1 + u.2 ≤ a)
    minBy id ok

/-- Write a backing copy when it fits: its frames leave sealed under the host key, every line under its own version (R228,
R239, R477 to R482). -/
def writeBacking (s : State) (p i : Nat) : State :=
  let img := (bobbin s p i).image
  match fitFrames s p (copyFrames img), (s.part p).backing with
  | some a, some (base, _) =>
    if !s.host.linkUp then s else
    let frames := sealFrames s.life.hostKey s.life.startNo base (copyFrames img) a (s.life.lineVersion + 1) img
    let s := modBobbin s p i fun b => { b with backing := true, backStart := s.life.startNo, backFrame := a }
    let s := s.modLife fun l => { l with lineVersion := l.lineVersion + ceilDiv img.length 512 }
    emit (countGlobal s 2 img.length) (.backingCopy p i (base + 8192 * a) frames)
  | _, _ => s

/-- BOBBIN_INSTALL (R228, R229, R496). -/
def execBobbinInstall (m : Msg) (s : State) : Res :=
  mbx (ownMsg s m 0x0203 5 [] (decide (fld m.payload 4 1 ≤ 1))) (fun s =>
    let p := namedPart m
    let pkg := extIn m
    let dg := BitVec.ofNat 384 (leNat (slice pkg 56 48))
    if (contentKey s pkg).isNone then .refuse 0x0605
    else match (s.part p).bobbins.find? fun e => e.2.live && e.2.digest == dg && !e.2.removing with
      | some (i, b) => .reply s 0 i (digestBytes b.digest) [] false
      | none =>
        if 1024 ≤ ((s.part p).bobbins.filter (·.2.live)).length then .refuse 0x0608
        else
          let i := ((List.range 1024).find? fun i => !(tget (s.part p).bobbins i {}).live).getD 0
          .later (modBobbin s p i fun _ =>
            { live := true, image := pkg, digest := dg, state := 1, peerShare := fld m.payload 4 1 == 1, setId := fld pkg 4 4,
              installing := some (m.func, m.tag) })) m s

/-- BOBBIN_INSTALL_DONE (R496): the segments are opened and checked; the image is ingested when the store has room for it
(DESIGN CHOICE, log 23: with no room the entry is left absent), and a backing copy is written. -/
def execBobbinInstallDone (now part idx : Nat) (s : State) : Res :=
  timed s now (fun s => ready s && active s part && (bobbin s part idx).installing.isSome) fun s =>
    let b := bobbin s part idx
    let drop := s.modPart part fun x => { x with bobbins := tdel x.bobbins idx }
    match contentKey s b.image with
    | none => answerOpt drop b.installing 0x0605 0
    | some key => match openPackage key b.image with
      | none => answerOpt drop b.installing 0x0604 0
      | some img =>
        let done := fun (s : State) => match b.installing with
          | some (f, t) => answerWith s f t 0 idx (digestBytes b.digest) [] false
          | none => s
        let s := modBobbin s part idx fun x => { x with image := img, bytes := imgBytes img, installing := none, state := 0, source := 0 }
        if !imageChecked img (List.range (imgChunks img)) then done (modBobbin s part idx fun x => { x with bad := true })
        else
          let s := match makeRoom s part idx with
            | some s =>
              let s := modBobbin (takePlaces (count s part 0x0C img.length) part idx) part idx fun x => { x with state := 2, lastUse := time s }
              forAll (List.range (imgChunks img)) (fun s c => healChunk s part (bobbin s part idx) c) s
            | none => s
          done (writeBacking s part idx)

/-! ### Catalogue messages -/

/-- The catalogue index a message names. -/
def catIdx (m : Msg) : Nat := fld m.payload 4 2

/-- Remove an entry; a fetch in progress is abandoned (Table Placement-5). -/
def removeBobbin (s : State) (p i : Nat) : State :=
  s.modPart p fun x => { x with bobbins := tdel x.bobbins i, fill := x.fill.filter fun f => f.bobbin != i }

/-- BOBBIN_REMOVE (R229). -/
def execBobbinRemove (m : Msg) (s : State) : Res :=
  mbx (ownMsg s m 0x0204 6 [] true) (fun s =>
    let p := namedPart m
    if !hasBobbin s p (catIdx m) then .refuse 0x0923
    else if bobbinRefs s p (catIdx m) != 0 || (bobbin s p (catIdx m)).pinned || serving s p (bobbin s p (catIdx m)) then .refuse 0x0607
    else .done (removeBobbin s p (catIdx m))) m s

/-- BOBBIN_PREFETCH (R230). -/
def execBobbinPrefetch (m : Msg) (s : State) : Res :=
  mbx (ownMsg s m 0x0205 6 [] true) (fun s =>
    if !hasBobbin s (namedPart m) (catIdx m) then .refuse 0x0923 else .done (wantBobbin s (namedPart m) (catIdx m))) m s

/-- BOBBIN_EVICT (R230, R241, R256): refused while the bobbin is referenced, pinned or serving; an entry that is not resident is
otherwise left as it is. -/
def execBobbinEvict (m : Msg) (s : State) : Res :=
  mbx (ownMsg s m 0x0206 6 [] true) (fun s =>
    let p := namedPart m
    if !hasBobbin s p (catIdx m) then .refuse 0x0923
    else if bobbinRefs s p (catIdx m) != 0 || (bobbin s p (catIdx m)).pinned || serving s p (bobbin s p (catIdx m)) then .refuse 0x0607
    else if (bobbin s p (catIdx m)).state != 2 then .done s
    else .done (leaveStore s p (catIdx m))) m s

/-- BOBBIN_PIN (R244). -/
def execBobbinPin (m : Msg) (s : State) : Res :=
  mbx (ownMsg s m 0x0207 6 [] true) (fun s =>
    let p := namedPart m
    if !hasBobbin s p (catIdx m) then .refuse 0x0923
    else if (s.part p).storeBytes < pinnedBytes s p (catIdx m) + (bobbin s p (catIdx m)).bytes then .refuse 0x0606
    else .done (wantBobbin (modBobbin s p (catIdx m) fun b => { b with pinned := true }) p (catIdx m))) m s

/-- BOBBIN_UNPIN (R244). -/
def execBobbinUnpin (m : Msg) (s : State) : Res :=
  mbx (ownMsg s m 0x0208 6 [] true) (fun s =>
    if !hasBobbin s (namedPart m) (catIdx m) then .refuse 0x0923
    else .done (modBobbin s (namedPart m) (catIdx m) fun b => { b with pinned := false })) m s

/-- A bobbin list entry (Table Placement-3). -/
def listEntry (s : State) (p i : Nat) (b : Bobbin) : List Byte :=
  digestBytes b.digest ++ toLe 8 b.bytes ++ toLe 1 b.state ++ toLe 1 (if b.pinned then 1 else 0) ++ toLe 2 (bobbinRefs s p i)
    ++ toLe 1 b.source ++ toLe 1 ((if b.peerShare then 1 else 0) + (if b.backing && b.backStart == s.life.startNo then 2 else 0)) ++ toLe 2 i

/-- Resident bobbins, least recently used first, then the others in catalogue order (R223). -/
def listOrder (s : State) (p : Nat) : List (Nat × Bobbin) :=
  let l := (s.part p).bobbins.filter (·.2.live)
  ((l.filter fun e => e.2.state == 2).mergeSort fun a b => decide (a.2.lastUse ≤ b.2.lastUse)) ++ l.filter fun e => e.2.state != 2

/-- BOBBIN_LIST (R223). -/
def execBobbinList (m : Msg) (s : State) : Res :=
  mbx (ownMsg s m 0x0209 6 [] true) (fun s =>
    let l := ((listOrder s (namedPart m)).drop (catIdx m)).take (m.extBytes / 64)
    .output s l.length (l.flatMap fun e => listEntry s (namedPart m) e.1 e.2)) m s

/-- BOBBIN_SOURCES (R234). -/
def execBobbinSources (m : Msg) (s : State) : Res :=
  mbx (pfMsg s m 0x020A 40 [(5, 3)] (decide (fld m.payload 4 1 ≤ 16))) (fun s =>
    .done (s.modPart (namedPart m) fun x =>
      { x with sources := (List.range (fld m.payload 4 1)).map fun i => fld m.payload (8 + 2 * i) 2 })) m s

/-- BOBBIN_BACKING (R239): a region registered or removed; copies in a region that goes are gone. -/
def execBobbinBacking (m : Msg) (s : State) : Res :=
  mbx (pfMsg s m 0x020B 24 [(4, 4)] (fld m.payload 8 8 % 65536 == 0 && fld m.payload 16 8 % 65536 == 0)) (fun s =>
    .done (s.modPart (namedPart m) fun x =>
      { x with
        backing := if fld m.payload 16 8 = 0 then none else some (fld m.payload 8 8, fld m.payload 16 8)
        bobbins := tmap x.bobbins fun _ b => { b with backing := false } })) m s

end Sys2Proof.Machine
end

