-- ==== Sys2Proof/Machine/Boundary.lean ====
section
/-! DEFINITION. Pins, rails, clocks and the test access port (R13 to R40), and the start of the block (R508 to R532). -/

namespace Sys2Proof.Machine

/-! ### Clocks, rails, reset pins -/

/-- What the bound has grown by since `holdSince`: 100 ns a ms of holdover, 5 us a ms of a REFCLK loss (R17, R401). -/
def holdGrowth (s : State) : Nat :=
  if s.aon.holdover then (time s - s.aon.holdSince) / 1000000 * (if s.aon.holdFree then 5000 else 100) else 0

/-- The growth of this holdover is kept and counts on from now, as a loss of REFCLK or not. -/
def keepGrowth (s : State) (free : Bool) : State :=
  let b := if s.aon.holdover then s.aon.bound + holdGrowth s else 0
  s.modAon fun a => { a with holdover := true, holdFree := free, bound := b, holdSince := time s }

/-- REFCLK_LOST (R17): whorl time goes on in holdover; 0xE901 holds the main domain in reset. -/
def execRefclkLost (now : Nat) (s : State) : Res :=
  timed s now (fun s => aonUp s && s.aon.refclk) fun s =>
    report ((keepGrowth s true).modAon fun a => { a with refclk := false, synced := false }) { code := 0xE901 }

/-- REFCLK_RETURN (R17): the time base locks again; a holdover goes on until a valid sync, its bound growing as in any other. -/
def execRefclkReturn (now : Nat) (s : State) : Res :=
  timed s now (fun s => aonUp s && !s.aon.refclk) fun s =>
    let s := if s.aon.holdover then keepGrowth s false else s
    s.modAon fun a => { a with refclk := true, refclkSince := time s, blkHighSince := if s.mainReset then time s else a.blkHighSince }

/-- Record 0xE902 in the log while in block reset; the next start reports it (R24, R432). -/
def note902 (s : State) : State :=
  (s.modColl fun x => logCode (time s) x 0xE902).modLife fun l => { l with nextCause := 4, nextCode := 0xE902 }

/-- PWR_GOOD rises; a BLK_RESET_N release that came while it was low is recorded now (R24). -/
def pwrRise (s : State) : State :=
  let late := s.aon.pend902
  let s := s.modAon fun a => { a with pwrGood := true, pwrGoodSince := time s, pend902 := false,
                                      blkHighSince := if s.mainReset then time s else a.blkHighSince }
  if late then note902 s else s

/-- PWR_GOOD_RISE (R24). -/
def execPwrGoodRise (now : Nat) (s : State) : Res :=
  timed s now (fun s => s.aon.railsOk && !s.aon.pwrGood) pwrRise

/-- PWR_GOOD_FALL (R24, R26): expected while asleep; with BLK_RESET_N high the block resets and waits for another cycle of
BLK_RESET_N. A power-cycle request ends. -/
def execPwrGoodFall (now : Nat) (s : State) : Res :=
  timed s now (fun s => s.aon.railsOk && s.aon.pwrGood) fun s =>
    let s := s.modAon fun a => { a with pwrGood := false, trayReqN := true }
    if s.aon.asleep ∨ s.aon.blkResetN = false then s
    else withIbi s ((enterReset s 2 0).modAon fun a => { a with needBlkCycle := true, pwrHold := true })

/-- The always-on domain at its own reset: pins keep their levels, everything else is lost (R24, R26). -/
def aonCleared (a : Aon) : Aon :=
  { railsOk := a.railsOk, refclk := a.refclk, pwrGood := a.pwrGood, blkResetN := a.blkResetN, stopInN := a.stopInN,
    stopOutN := a.stopInN, aonResetN := false }

/-- The always-on domain and the block reset (R24, R419). -/
def aonDown (s : State) : State :=
  let s := enterReset s 0 0
  { s with aon := aonCleared s.aon, coll := {}, life := { s.life with nextCause := 0, nextCode := 0 } }

/-- AON_RESET_N_FALL (R24, R26). -/
def execAonResetNFall (s : State) : Res := untimed s (fun s => s.aon.aonResetN) aonDown

/-- AON_RESET_N_RELEASE (R21): the rails and REFCLK are stable by the tray controller's duty; whorl time counts from zero.
With BLK_RESET_N already high and PWR_GOOD high the start begins. -/
def execAonResetNRelease (s : State) : Res :=
  untimed s (fun s => !s.aon.aonResetN) fun s =>
    startIfFree (s.modAon fun a => { a with railsOk := true, refclk := true, aonResetN := true })

/-- VDD_AON_LOST (R16, R530): as an always-on reset, with FAULT_N undefined until the rail is back. -/
def execVddAonLost (s : State) : Res :=
  untimed s (fun s => s.aon.railsOk) fun s => (aonDown s).modAon fun a => { a with railsOk := false }

/-- BLK_RESET_N_FALL (R23, R24, R25, R525): while asleep the block keeps its state, its outputs at the levels of Table
Boundary-5; a note of PWR_GOOD low at an earlier release stays. -/
def execBlkResetNFall (now : Nat) (s : State) : Res :=
  timed s now (fun s => s.aon.blkResetN) fun s =>
    let low := fun (s : State) => s.modAon fun a =>
      { a with blkResetN := false, needBlkCycle := false, secalmN := true, stopOutN := a.stopInN }
    if s.aon.asleep then low { s with mainReset := true } else withIbi s (low (enterReset s 1 0))

/-- The conditions under which the main domain leaves reset at a release (R17, R24). DESIGN CHOICE (log 137): a release that
comes before they hold starts nothing later; another cycle of BLK_RESET_N is needed. -/
def releaseOk (s : State) : Bool :=
  s.aon.refclk && (s.aon.refclkSince == 0 || decide (10000 + s.aon.refclkSince ≤ time s)) && !s.aon.railTripped
    && (s.aon.railBackSince == 0 || decide (100000 + s.aon.railBackSince ≤ time s))
    && (!s.aon.pwrHold || decide (100000 + s.aon.pwrGoodSince ≤ time s))

/-- Level of QSPI_CS_N: low only while the trust processor works on the flash, high in block reset (R13, R24, R25). -/
def qspiCsN (s : State) : Bool := s.mainReset || !s.aon.blkResetN || s.life.flashJob.isNone

/-- TDO is driven; otherwise it is at high impedance (R25, Table Boundary-5). -/
def tdoDriven (s : State) : Bool := up s && s.aon.blkResetN

/-- The warm start's own checks (R528) that the state decides: the digest in force at entry is the image's, and the image
authenticates. -/
def warmImageOk (s : State) : Bool := s.life.image == s.aon.sleepImage && imageStatus s.life s.life.image == 0

/-- Counter counts return to zero, selections stay (R529). -/
def zeroCounters (c : Counters) : Counters :=
  { c with live := List.replicate c.sel.length 0, run := List.replicate c.sel.length 0, done := [], isPartial := false,
           doneCtx := 0, doneSeq := 0, frozenIn := false, hiLatch := [] }

/-- The warm start begins (R527, R529): scratchpads, link ports and counts are lost; everything else is restored. -/
def beginWarm (s : State) : State :=
  let s := { s with
    mainReset := false
    tiles := tmap s.tiles fun _ t => { t with scratch := [], poison := [], clock := 0, gated := true }
    ports := []
    pmc := {}
    rails := []
    parts := tmap s.parts fun _ x => { x with counters := zeroCounters x.counters, retuned := 0 } }
  let s := s.modAon fun a => { a with wakeN := true }
  emit (s.modLife fun l =>
    { l with
      warm := true, starting := true, startAt := time s, cause := 10, code := 0, authOk := false, bistDone := false
      calibrated := true, startFailed := none }) .flashReset

/-- BLK_RESET_N_RELEASE (R24, R520, R527): with PWR_GOOD low or another release condition missing the block stays in reset;
with the sleep marker set a warm start begins, or, its checks failing, a full start with cause 11; otherwise a full start. -/
def execBlkResetNRelease (now entryTries : Nat) (warmOk : Bool) (s : State) : Res :=
  timed s now (fun s => !s.aon.blkResetN) fun s =>
    let s := s.modAon fun a => { a with blkResetN := true, blkHighSince := if s.aon.asleep then a.blkHighSince else time s }
    if !aonUp s then s.modAon fun a => { a with needBlkCycle := true }
    else if !s.aon.pwrGood then s.modAon fun a => { a with pend902 := true, needBlkCycle := true }
    else if !releaseOk s then s.modAon fun a => { a with needBlkCycle := true }
    else if s.aon.asleep then
      let s := s.modAon fun a => { a with pwrHold := false }
      if warmOk && warmImageOk s && !s.coll.freeze then beginWarm s else beginStart (enterReset s 11 0) entryTries
    else
      let s := s.modAon fun a => { a with pwrHold := false }
      if s.coll.resetPending then beginStart (enterReset s 4 s.coll.fatalCode) entryTries else beginStart s entryTries

/-- VOLTAGE_MONITOR_TRIP (R24, R34, R38): 0xE902 and block reset until the rail is back; with BLK_RESET_N low the block is in
reset already, and the code is recorded. -/
def execVoltageMonitorTrip (now : Nat) (s : State) : Res :=
  timed s now (fun s => aonUp s && !s.aon.railTripped) fun s =>
    let t := raiseIbi (s.modAon fun a => { a with railTripped := true })
    if s.aon.blkResetN then report t { code := 0xE902 } else note902 t

/-- RAIL_BACK_IN_TOLERANCE (R24). -/
def execRailBackInTolerance (now : Nat) (s : State) : Res :=
  timed s now (fun s => s.aon.railTripped) fun s =>
    s.modAon fun a => { a with railTripped := false, railBackSince := time s, blkHighSince := time s }

/-- THERMAL_TRIP (R38, R452): 0xE907, a fatal fault of unit 41. -/
def execThermalTrip (now : Nat) (s : State) : Res :=
  timed s now aonUp fun s => report (raiseIbi s) { code := 0xE907 }

/-- A hold of R17 or Table Boundary-4 whose 100 ms do not run yet (R452). -/
def holdWaits (s : State) : Bool :=
  s.life.nextCause == 4 && (s.life.nextCode == 0xE901 || s.life.nextCode == 0xE902)
    && (!s.aon.refclk || !s.aon.pwrGood || !s.aon.blkResetN)

/-- POWER_CYCLE_REQUEST (R26, R452): 100 ms in reset without leaving it. -/
def execPowerCycleRequest (now : Nat) (s : State) : Res :=
  timed s now (fun s => aonUp s && s.mainReset && !s.aon.asleep && s.aon.trayReqN && !holdWaits s
      && decide (100000000 + s.aon.blkHighSince ≤ time s)) fun s =>
    raiseIbi (s.modAon fun a => { a with trayReqN := false })

/-- STOP_IN_N_FALL (R25, R27, R28, R555): forwarded at once; with a stop grant open and no stop in force it starts a global stop.
A line that does not stay low is high again, and STOP_OUT_N with it while the block is in reset. -/
def execStopInNFall (x : StopFall) (s : State) : Res :=
  timed s x.now aonUp fun s =>
    let s := s.modAon fun a => { a with stopInN := !x.stays, stopOutN := s.mainReset && !x.stays }
    if up s && s.grants.stop && !s.gst.stopped then startStop s 2 else s

/-- TORUS_COORDINATES_WRITE (R378). -/
def execTorusCoordinatesWrite (x y z kx ky kz : Nat) (s : State) : Res :=
  untimed s (fun s => aonUp s && !s.aon.blkResetN && decide (1 ≤ kx ∧ kx ≤ 16 ∧ 1 ≤ ky ∧ ky ≤ 16 ∧ 1 ≤ kz ∧ kz ≤ 16
      ∧ x < kx ∧ y < ky ∧ z < kz)) fun s => s.modAon fun a => { a with coords := some (x, y, z, kx, ky, kz) }

/-- RAIL_CONFIRM (R20, R80, R585): the level stands; before calibration has ended the die's tiles run at 1.6 GHz for it; after
it a partition at a step boundary takes its waiting clock, and the die's level follows what its clocks need. -/
def execRailConfirm (now die mv : Nat) (s : State) : Res :=
  timed s now (fun s => up s && (s.rail die).request == some mv) fun s =>
    let s := s.modRail die fun r => { r with level := some mv, request := none, retried := false }
    if s.life.calibrated then
      let s := forAll ((diePartitions s die).map (·.1)) retune s
      requestRail s die (dieNeed s die)
    else forAll (dieTiles die) (fun s t => setClock s t 48 false) s

/-- RAIL_CONFIRM_TIMEOUT (R33): the clocks stay; one retry. -/
def execRailConfirmTimeout (now die : Nat) (s : State) : Res :=
  timed s now (fun s => up s && (s.rail die).request.isSome && decide (100000 + (s.rail die).requestAt < time s)) fun s =>
    if (s.rail die).retried then s.modRail die fun r => { r with request := none, retried := false }
    else emit (s.modRail die fun r => { r with requestAt := time s, retried := true }) (.railRequest die ((s.rail die).request.getD 0))

/-! ### Test access port -/

/-- Reachable TAP instructions (Table Boundary-9). -/
def tapOpen (lc : Nat) : TapIns → Bool
  | .idcode => true
  | .bypass => true
  | .samplePreload => decide (lc ≤ 5)
  | .extest => lc == 0 || lc == 1 || lc == 5
  | .debugAccess _ => debugOpen lc
  | .scanTest => testOpen lc

/-- Numbers by which the TAP holds an instruction. -/
def tapNumber : TapIns → Nat
  | .idcode => 0
  | .bypass => 1
  | .samplePreload => 2
  | .extest => 3
  | .debugAccess _ => 4
  | .scanTest => 5

/-- TRST_N_RESET (R35): Test-Logic-Reset. PRESUMED (log 13): IDCODE is then the instruction. -/
def execTrstNReset (s : State) : Res := untimed s (fun _ => true) fun s => s.modLife fun l => { l with tapInstr := 0 }

/-! ### Start -/

/-- The start fails (R520): the code is logged and the cause written. -/
def failStart (s : State) (cause : Nat) (code : Code) : State :=
  let s := s.modLife fun l => modEntry { l with startFailed := some cause, failedAt := time s } fun e => { e with cause }
  if code = 0 then s else reportCode s code

/-- The start is under way and has not failed. -/
def starting (s : State) : Bool := up s && s.life.starting && s.life.startFailed == none && !s.coll.freeze

/-- FAULT_COLLECTOR_INITIALISED (R22, R441). -/
def execFaultCollectorInitialised (now : Nat) (s : State) : Res :=
  timed s now (fun s => up s && !s.coll.init) initColl

/-- START_ENTRY_NOT_WRITTEN (R518). -/
def execStartEntryNotWritten (now : Nat) (s : State) : Res :=
  timed s now (fun s => starting s && !s.life.warm && !s.life.entryWritten && decide (10000000 + s.life.startAt < time s)) fun s =>
    failStart s 2 0xAA01

/-- FLASH_STATUS_TIMEOUT (R33): 0xAA01; a start under way fails. -/
def execFlashStatusTimeout (now : Nat) (s : State) : Res :=
  timed s now (fun s => up s && (starting s || s.life.flashJob.isSome)) fun s =>
    let s := s.modLife fun l => { l with flashTimedOut := true }
    if starting s then failStart s 2 0xAA01 else reportCode s 0xAA01

/-- HBM_PORT_NOT_READY (R33, R260): 0xA401 in any start, 2 ms after the release; the port's granule is unusable. -/
def execHbmPortNotReady (now port : Nat) (s : State) : Res :=
  timed s now (fun s => up s && !s.life.ready && decide (port / 4 < granuleCount s.variant ∧ 2000000 + s.life.startAt < time s)) fun s =>
    let g := port / 4
    let s := if s.badGranules.contains g then s else
      { s with badGranules := s.badGranules ++ [g], life := { s.life with granulesBad := s.life.granulesBad + 1 } }
    reportCode s 0xA401

/-- IMAGE_AUTHENTICATED (R531): the authentication ends; a passing image gives its version and the attestation key, and its
firmware requests 0.80 V for every die (R585); a failing one fails the start with cause 1. -/
def execImageAuthenticated (now : Nat) (s : State) : Res :=
  timed s now (fun s => starting s && (s.life.entryWritten || s.life.warm) && !s.life.authOk) fun s =>
    if imageStatus s.life s.life.image = 0 then
      let s := s.modLife fun l => { l with authOk := true, runImage := l.image, fwVer := fld l.image 8 4, attestKey := l.hasIdentity && l.lc != 5 }
      forAll (List.range (dies s.variant)) (fun s d => requestRail s d 800) s
    else failStart s 1 0xAA02

/-- CALIBRATION_DONE (R324, R585): every die has confirmed 0.80 V or its request has been given up; the factor is set, every
tile goes back to 0.4 GHz with its clock gated, and every die's level is lowered to 0.60 V. -/
def execCalibrationDone (now factor : Nat) (s : State) : Res :=
  timed s now (fun s => starting s && s.life.authOk && s.life.bistDone && !s.life.calibrated
      && s.rails.all fun e => e.2.request.isNone) fun s =>
    let s := s.modLife fun l => { l with calibrated := true, energyFactor := factor }
    let s := { s with tiles := tmap s.tiles fun _ x => if x.withdrawn = 0 then { x with clock := 0, gated := true } else x }
    forAll (List.range (dies s.variant)) (fun s d => requestRail s d 600) s

/-- MBX_READY (R519, R520, R532): `ready` is set and `done` programmed; the floor rises to a new image's `svn`; the
scrub of the block reset is recorded (R500); a warm start
clears the sleep marker. -/
def execMbxReady (now : Nat) (s : State) : Res :=
  timed s now (fun s => starting s && s.life.authOk && s.life.bistDone && s.life.calibrated
      && decide (time s ≤ 2000000000 + s.life.startAt)) fun s =>
    let w := s.life.warm
    let s := if w then s.modAon fun a => { a with asleep := false, retention := false } else
      s.modLife fun l => modEntry { l with svnFloor := max l.svnFloor (imageSvn l.runImage) } fun e => { e with done := 0 }
    let r : ScrubRec := { kind := 3, part := 0xFF, granules := List.range (granuleCount s.variant), done := time s, startNo := s.life.startNo }
    let s := if w then s else { s with scrubs := [r] }
    let s := s.modLife fun l => { l with ready := true, starting := false, warm := false }
    let s := { s with power := { s.power with admitting := true, entering := false, wakePending := false,
                                              limit := if w then s.power.limit else maxPower s.variant } }
    let s := s.modColl fun x => { x with watchdog := time s }
    s.modWindow 0x3FF fun w => { w with isOpen := true, gen := 0, kinds := 4 }

/-- START_TIMEOUT (R520, R12): `ready` not reached within 2 s. -/
def execStartTimeout (now : Nat) (s : State) : Res :=
  timed s now (fun s => starting s && decide (2000000000 + s.life.startAt < time s)) fun s => failStart s 4 0

/-- The code that a failed start's next start reports (Table Lifecycle-6). -/
def failCode : Nat → Code
  | 1 => 0xAA02
  | 2 => 0xAA01
  | 3 => 0xAB01
  | _ => 0

/-- FAILED_START_RESET (R520): 10 ms after the failure. -/
def execFailedStartReset (now : Nat) (s : State) : Res :=
  timed s now (fun s => up s && decide (10000000 + s.life.failedAt ≤ time s) && (match s.life.startFailed with
      | some 5 => false
      | some _ => true
      | none => false)) fun s => selfReset s 5 (failCode (s.life.startFailed.getD 0))

/-- FATAL_BLOCK_RESET (R432): 1 ms after the first latch. -/
def execFatalBlockReset (now : Nat) (s : State) : Res :=
  timed s now (fun s => aonUp s && s.coll.resetPending && decide (1000000 + s.coll.fatalAt ≤ time s)) fun s =>
    selfReset s 4 s.coll.fatalCode

/-- BLOCK_RESET_BEGIN (R451, R515): the scheduled block reset begins. -/
def execBlockResetBegin (now : Nat) (s : State) : Res :=
  timed s now (fun s => up s && (match s.life.resetAt with
      | some t => decide (t ≤ time s)
      | none => false)) fun s => selfReset s s.life.resetCause 0

/-! ### Sleep -/

/-- SLEEP_ENTRY (R525): requests stop, the tables and keys are kept, comparator 12 is armed with the wake time, every link
port goes down, the caches are written back, the marker is set and the main rails are given up. -/
def execSleepEntry (now : Nat) (s : State) : Res :=
  timed s now (fun s => ready s && s.power.entering && (s.func 0).rsps.isEmpty && (s.func 0).taken.isEmpty) fun s =>
    let w := s.power.wakeTime
    let s := forAll (s.parts.map (·.1)) flushPart s
    let s := s.modAon fun a =>
      { a with
        cmps := if w = 0 then a.cmps else tput a.cmps 12 { value := w, armed := true, fired := false, wake := true }
        asleep := true, retention := true, sleepImage := s.life.runImage, wakeN := !s.power.wakePending }
    let s := { s with
      ports := []
      mainReset := true
      life := { s.life with ready := false }
      power := { s.power with admitting := false, entering := false, wakePending := false } }
    emit s .railsOff

/-- A wake source: asleep or in block reset, WAKE_N falls; during entry it is kept until entry completes (R526, R530). -/
def wakeUp (s : State) : State :=
  if s.mainReset then s.modAon fun a => { a with wakeN := false }
  else if s.power.entering then s.modPower fun p => { p with wakePending := true }
  else s

/-- WAKE (R526): an I3C write of 0x57, or a fired wake comparator. -/
def execWake (now : Nat) (i3c : Bool) (s : State) : Res :=
  timed s now (fun s => aonUp s && (i3c || s.aon.cmps.any fun c => c.2.fired && c.2.wake)) wakeUp

end Sys2Proof.Machine
end

