-- ==== Sys2Proof/Machine/Collective.lean ====
section
/-! DEFINITION. Collectives at one member (R405 to R408): the cuts of the vector, partial sums in their wire format, what a piece
that arrives makes the member write and send on. -/

namespace Sys2Proof.Machine

/-! ### The vector and its cuts (R407) -/

/-- Segments of the vector: one for each member, or the whole vector of a broadcast. -/
def Coll.segs (c : Coll) : Nat := if c.pattern = 3 then 1 else c.count

/-- Where segment `i` starts. The spec gives cuts on block boundaries; the model takes the nearest ones below equal shares
(DESIGN CHOICE, log 150). -/
def Coll.cut (c : Coll) (i : Nat) : Nat := c.blk * (i * (c.els / c.blk) / max 1 c.segs)

/-- Elements of segment `i` that go round a ring: the first half forward, the second in reverse. -/
def Coll.half (c : Coll) (rev : Bool) (i : Nat) : Nat × Nat :=
  let a := c.cut i
  let b := c.cut (i + 1)
  let mid := a + c.blk * ceilDiv ((b - a) / c.blk) 2
  if rev then (mid, b) else (a, mid)

/-- Owner of segment `i`. -/
def Coll.owner (c : Coll) (i : Nat) : Nat := if c.pattern = 3 then c.root else i

/-- The next member of a ring, and the one before, as offsets. -/
def Coll.next (c : Coll) (rev : Bool) : Nat := if rev then (c.own + c.count - 1) % max 1 c.count else (c.own + 1) % max 1 c.count
/-- See `Coll.next`. -/
def Coll.prev (c : Coll) (rev : Bool) : Nat := c.next (!rev)

/-- The segment that holds an element. -/
def Coll.segOf (c : Coll) (e : Nat) : Nat := ((List.range c.segs).find? fun i => decide (e < c.cut (i + 1))).getD 0

/-- The ring that an element's half goes round. -/
def Coll.ringOf (c : Coll) (e : Nat) : Bool := decide ((c.half false (c.segOf e)).2 ≤ e)

/-- The state of a ring. -/
def Coll.flow (c : Coll) (rev : Bool) : Flow := if rev then c.rev else c.fwd
/-- Change it. -/
def Coll.setFlow (c : Coll) (rev : Bool) (f : Flow) : Coll := if rev then { c with rev := f } else { c with fwd := f }

/-- Number of elements of a segment's half. -/
def Coll.halfLen (c : Coll) (rev : Bool) (i : Nat) : Nat := (c.half rev i).2 - (c.half rev i).1

/-- Elements that a ring brings to this member: of a reduction every segment but the one that starts here; of a gathering every one
but its own. -/
def Coll.need (c : Coll) (rev : Bool) : Nat :=
  let others := fun (k : Nat) => sumNat (((List.range c.segs).filter (· != k)).map (c.halfLen rev))
  (if c.pattern ≤ 1 then others (c.prev rev) else 0)
    + (if c.pattern = 0 ∨ c.pattern = 2 then others c.own else 0)
    + (if c.pattern = 3 ∧ c.own ≠ c.root then c.halfLen rev 0 else 0)

/-! ### Formats (R120, R405, R406) -/

/-- An accumulator word as a value. -/
def Coll.val (c : Coll) (w : BitVec 32) : Val := if c.int then ofInt w.toInt 0 else decF32 w

/-- A value rounded to the accumulator's form. -/
def Coll.word (c : Coll) (v : Val) : BitVec 32 := if c.int then BitVec.ofNat 32 (convInt 32 0 0 v).1 else toF32 v

/-- An accumulator word in format `f`, 16 for INT32: to nearest even with `sat` = 1 where it narrows (R120). -/
def Coll.into (c : Coll) (f : Nat) (w : BitVec 32) : Nat :=
  if f = (if c.int then 16 else 0) then w.toNat
  else if f = 16 then (convInt 32 0 0 (c.val w)).1
  else (convElem f 0 0 true (c.val w)).1

/-- A partial sum in the wire format as an accumulator word. -/
def Coll.ofWire (c : Coll) (n : Nat) : BitVec 32 :=
  if c.wire = (if c.int then 16 else 0) then BitVec.ofNat 32 n
  else c.word (if c.wire = 16 then ofInt (sgn 32 n) 0 else decElem c.wire n 0)

/-- One addition, maximum or minimum of a reduction (R120). -/
def Coll.combine (c : Coll) (a b : BitVec 32) : BitVec 32 :=
  if c.int then (if c.red = 0 then a + b else if c.red = 1 then (if a.toInt < b.toInt then b else a) else (if b.toInt < a.toInt then b else a))
  else (redOp c.red a b).1

/-- Bytes of a partial sum. -/
def Coll.wireBytes (c : Coll) : Nat := if c.wire = 16 then 4 else fmtBits c.wire / 8

/-- Bytes of the units that are passed round: an element, or a block with its scale. -/
def Coll.unitBytes (c : Coll) : Nat := fmtUnit c.fmt

/-- Elements of such a unit. -/
def Coll.unitEls (c : Coll) : Nat := blockLen c.fmt

/-- Where the units of an element lie in the collective's window; partial sums lie below. -/
def Coll.unitPos (c : Coll) (e : Nat) : Nat := (if c.pattern ≤ 1 then c.els * c.wireBytes else 0) + e / c.unitEls * c.unitBytes

/-- The local contribution to element `e`, and whether it is poisoned. -/
def Coll.contrib (c : Coll) (e : Nat) : BitVec 32 × Bool := (nth c.words e 0, c.bad.contains e)

/-! ### Writing and sending -/

/-- Element `e` of the vector as an element of the destination view. -/
def Coll.dstEl (c : Coll) (e : Nat) : Nat := if c.pattern = 1 then e - c.cut c.own else e

/-- The writes of units from element `e` on into a destination view, with their poison (R120, R195). -/
def unitPuts (f : Upf.File) (d : Nat) (c : Coll) (e : Nat) (us : List (List Byte × Bool)) : List Put :=
  let bs := viewBits f d
  let k := c.unitEls
  let scales := viewCount (viewOf f d)
  us.zipIdx.flatMap fun u =>
    let j := c.dstEl e / k + u.2
    landPuts ((bs.drop (j * k)).take k ++ (if isBlock c.fmt then (bs.drop (scales + j)).take 1 else [])) u.1.1
      (if u.1.2 then List.range u.1.1.length else [])

/-- Write them. -/
def writeUnits (s : State) (o : RemOp) (c : Coll) (e : Nat) (us : List (List Byte × Bool)) : State :=
  match tfind s.steps o.slot with
  | none => s
  | some st =>
    let puts := unitPuts (stepFile s st) o.dst c e us
    let s := putAll s o.tile o.slot puts
    touchLines s c.part true (bitLines s o.slot st (puts.map fun q => { tensor := q.tensor, off := q.off, width := q.width }))

/-- Messages of up to 8 KiB that carry units of `n` bytes from a window offset on (R385). -/
def unitMsgs (eng : Nat) (o : RemOp) (c : Coll) (route : List Nat) (n pos : Nat) : Nat → List (List Byte × Bool) → List TxMsg
  | 0, _ => []
  | k + 1, us =>
    if us.isEmpty then [] else
    let per := max 1 (8192 / max 1 n)
    let here := us.take per
    { bulk := true, eng, qp := o.qp, kind := 1, window := c.win, gen := c.winGen, part := c.part, slot := some o.slot, route, pos
      payload := here.flatMap (·.1)
      bad := here.zipIdx.flatMap fun u => if u.1.2 then (List.range n).map (· + n * u.2) else [] }
      :: unitMsgs eng o c route n (pos + per * n) k (us.drop per)

/-- Pass units of `n` bytes on to the next member of a ring (R406, R407). -/
def sendUnits (s : State) (eng : Nat) (o : RemOp) (c : Coll) (rev : Bool) (n pos : Nat) (us : List (List Byte × Bool)) : State :=
  let m := c.first + c.next rev
  match memberPort s c.job m with
  | none => withholdOp s c.job m o.slot
  | some p => sendAll s p (unitMsgs eng o c (tget (s.job c.job).routes m []) n pos us.length us)

/-- Accumulator words in a format's bytes. -/
def Coll.pack (c : Coll) (f n : Nat) (ws : List (BitVec 32 × Bool)) : List (List Byte × Bool) :=
  ws.map fun w => (toLe n (c.into f w.1), w.2)

/-- Local units of a segment's half. -/
def Coll.localUnits (c : Coll) (rev : Bool) (i : Nat) : List (List Byte × Bool) :=
  let base := if c.pattern = 2 then c.cut c.own else 0
  (c.units.drop (((c.half rev i).1 - base) / c.unitEls)).take (c.halfLen rev i / c.unitEls)

/-- A plan starts: a reduction sends the local part of the segment that starts here, a gathering this member's own segment, a
broadcast the root's vector (R407). -/
def flowStart (s : State) (eng : Nat) (o : RemOp) (c : Coll) (rev : Bool) : State :=
  if c.pattern ≤ 1 then
    let h := c.half rev (c.prev rev)
    sendUnits s eng o c rev c.wireBytes (h.1 * c.wireBytes)
      (c.pack c.wire c.wireBytes ((List.range (h.2 - h.1)).map fun k => c.contrib (h.1 + k)))
  else
    let i := if c.pattern = 3 then 0 else c.own
    if c.own ≠ c.owner i then s else
    let us := c.localUnits rev i
    let e := (c.half rev i).1
    sendUnits (writeUnits s o c e us) eng o c rev c.unitBytes (c.unitPos e) us

/-- Partial sums from element `e` on with the local contribution added, as accumulator words (R407). -/
def Coll.sums (c : Coll) (e : Nat) (vs : List (Nat × Bool)) : List (BitVec 32 × Bool) :=
  vs.zipIdx.map fun v =>
    let l := c.contrib (e + v.2)
    (c.combine (c.ofWire v.1.1) l.1, v.1.2 || l.2)

/-- Partial sums from element `e` on arrive: the local contribution is added; the segment's owner writes the sums, and in an
all-reduce passes the reduced segment round; any other member sends them on (R406, R407). -/
def takeSums (s : State) (eng : Nat) (o : RemOp) (c : Coll) (rev : Bool) (e : Nat) (vs : List (Nat × Bool)) : State :=
  let sums := c.sums e vs
  if c.segOf e = c.own then
    let us := c.pack c.fmt c.unitBytes sums
    let s := writeUnits s o c e us
    if c.pattern = 0 then sendUnits s eng o c rev c.unitBytes (c.unitPos e) us else s
  else sendUnits s eng o c rev c.wireBytes (e * c.wireBytes) (c.pack c.wire c.wireBytes sums)

/-- Units from element `e` on arrive: they are written, and go on unless the next member owns them (R405, R407). -/
def takeUnits (s : State) (eng : Nat) (o : RemOp) (c : Coll) (rev : Bool) (e : Nat) (us : List (List Byte × Bool)) : State :=
  let s := writeUnits s o c e us
  if c.next rev = c.owner (c.segOf e) then s else sendUnits s eng o c rev c.unitBytes (c.unitPos e) us

/-- Cut a piece into units of `n` bytes with their poison. -/
def cutUnits (n : Nat) (x : Chunk) : List (List Byte × Bool) :=
  (List.range (x.bytes.length / max 1 n)).map fun k =>
    ((x.bytes.drop (n * k)).take n, x.bad.any fun b => decide (n * k ≤ b ∧ b < n * (k + 1)))

/-- First element of a piece, and whether it holds partial sums. -/
def Coll.place (c : Coll) (pos : Nat) : Nat × Bool :=
  if c.pattern ≤ 1 ∧ pos < c.els * c.wireBytes then (pos / c.wireBytes, true)
  else ((pos - c.unitPos 0) / max 1 c.unitBytes * c.unitEls, false)

/-- Change the collective of an operation. -/
def modColl' (s : State) (id : Nat) (f : Coll → Coll) : State :=
  { s with remOps := s.remOps.map fun o => if o.id = id then { o with coll := o.coll.map f } else o }

/-- A running plan takes a piece. -/
def takeChunk (s : State) (eng : Nat) (o : RemOp) (c : Coll) (rev : Bool) (x : Chunk) : State :=
  let (e, sums) := c.place x.pos
  let n := if sums then c.wireBytes else c.unitBytes
  let us := cutUnits n x
  let s := if sums then takeSums s eng o c rev e (us.map fun u => (leNat u.1, u.2)) else takeUnits s eng o c rev e us
  modColl' s o.id fun y => y.setFlow rev { y.flow rev with got := (y.flow rev).got + us.length * (if sums then 1 else c.unitEls) }

/-- A piece of a collective's data arrives: the plan of its ring takes it, or it waits in the staging memory (R404, R407). -/
def collArrive (s : State) (o : RemOp) (x : Chunk) : State :=
  match o.coll with
  | none => s
  | some c =>
    let rev := c.ringOf (c.place x.pos).1
    match (c.flow rev).eng with
    | some eng => takeChunk s eng o c rev x
    | none => modColl' s o.id fun y => y.setFlow rev { y.flow rev with inbox := (y.flow rev).inbox ++ [x] }

/-- An engine starts a plan: it sends what starts here, then takes what has come. -/
def planRun (s : State) (eng : Nat) (q : Plan) : State :=
  match s.remOps.find? fun o => o.id == q.op with
  | none => s
  | some o => match o.coll with
    | none => s
    | some c =>
      let s := modColl' s o.id fun y => y.setFlow q.rev { y.flow q.rev with eng := some eng, inbox := [] }
      forAll (c.flow q.rev).inbox (fun s x => takeChunk s eng o c q.rev x) (flowStart s eng o c q.rev)

/-- Everything that a plan's ring brings has come. -/
def planWhole (s : State) (q : Plan) : Bool :=
  match (s.remOps.find? fun o => o.id == q.op).bind (·.coll) with
  | some c => decide (c.need q.rev ≤ (c.flow q.rev).got)
  | none => false

/-- Another plan of the operation is still to end. -/
def planLeft (s : State) (op : Nat) : Bool :=
  (s.reducers.any fun e => (e.2.run.toList ++ e.2.plans).any fun q => q.op == op)
    || (s.tiles.any fun e => e.2.run.any fun r => r.plan.any fun q => q.op == op)
    || s.addedWork.any fun q => q.op == op

/-! ### Lowered plans (R203) -/

/-- What a skein that lowering added writes to the trace and, at its start, to the placement log, with the identifiers of the
skein that asked (R203, R221, R550). -/
def traceAdded (s : State) (q : Plan) (kind t : Nat) : State :=
  match tfind s.steps q.slot with
  | none => s
  | some st =>
    let k := nth (stepFile s st).skeins q.skein {}
    traceRec s st.part (traceBytes s st.part kind 2 t (ctxHandle st.ctx st.ctxGen) st.seq q.added
      ((k.layer + st.layerBase) % 2 ^ 32) ((k.operator + st.opBase) % 2 ^ 32) (stepMember s st) 0)

end Sys2Proof.Machine
end

