-- ==== Sys2Proof/Machine/Control.lean ====
section
/-! DEFINITION. What spindle firmware of one package tells that of another by control cells (R204, R234 to R236, R246, R247, R251,
R252, R465). -/

namespace Sys2Proof.Machine

/-- The first partition here that a job's member list names at a position. -/
def memberHere (s : State) (ms : List (Nat × Nat)) (i : Nat) : Option Nat :=
  let m := nth ms i (0, 0)
  if m.1 = myPkg s then some m.2 else none

/-- A job's rest of the carve-out beside the store (R247). -/
def carveRest (s : State) (p : Nat) : Nat := objSpace (s.part p)

/-- Room of a partition's store for a shard (R247). -/
def storeRoom (s : State) (p : Nat) : Nat := (s.part p).storeBytes - pinnedBytes s p 1024

/-- Every device set is enrolled here (R246). -/
def enrolledAll (s : State) (sets : List Nat) : Bool := sets.all fun i => s.life.devsets.any fun e => e.2.setId == i

/-- A member is asked for a job: it records the job under member 0's handle and answers (R246, R247, R465). -/
def takeAsk (s : State) (h i : Nat) (ms : List (Nat × Nat)) (sets : List Nat) : State :=
  match memberHere s ms i with
  | none => s
  | some p =>
    let j := h % 256
    let free := (tfind s.jobs j).all fun x => !x.live || (x.gen == h / 256 % 256 && x.members.map (fun m => (m.pkg, m.part)) == ms)
    let ok := active s p && free && enrolledAll s sets
    let pkg := (nth ms 0 (0, 0)).1
    let s := if ok && !(s.job j).live then s.modJob j fun _ =>
        { live := true, gen := h / 256 % 256, members := ms.map fun m => { pkg := m.1, part := m.2 } } else s
    sendCtl s p pkg (routeTo s pkg) (.ctl pkg (.answer h i ok (tget s.partGen p 0) s.life.startNo (storeRoom s p) (carveRest s p)))

/-! ### Routes (R252 to R254) -/

/-- Routes between every ordered pair of members on different packages, by source x 4096 + destination; none where no dimension
order avoids the down links. -/
def pairRoutes (s : State) (ms : List Member) : Tab (List Nat) :=
  ms.zipIdx.flatMap fun a => ms.zipIdx.filterMap fun b =>
    if a.1.pkg = b.1.pkg then none else (routeFrom s a.1.pkg b.1.pkg).map fun r => (a.2 * 4096 + b.2, r)

/-- The job route table of member `i`. -/
def tableOf (pairs : Tab (List Nat)) (i : Nat) : Tab (List Nat) :=
  (pairs.filter fun e => e.1 / 4096 == i).map fun e => (e.1 % 4096, e.2)

/-- A job route table takes its place in the firmware area; its size there is open, at most 64 bytes a route (R266; DESIGN CHOICE,
log 154). -/
def setTable (s : State) (j : Nat) (table : Tab (List Nat)) : State :=
  let (x, s) := draw s
  s.modJob j fun y => { y with routes := table, tableBytes := x % (64 * table.length + 1) }

/-- Member 0 computes a job's routes and installs every member's (R252). -/
def installRoutes (s : State) (j : Nat) : State :=
  let ms := (s.job j).members
  let pairs := pairRoutes s ms
  let s := (setTable s j (tableOf pairs 0)).modJob j fun x => { x with pairs }
  forAll (ms.zipIdx.filter fun e => e.1.pkg != myPkg s) (fun s e =>
    sendCtl s (nth ms 0 {}).part e.1.pkg (tfind pairs e.2) (.ctl e.1.pkg (.routes (jobHandle s j) (tableOf pairs e.2)))) s

/-- A job ends here and at every other member. -/
def dropJob (s : State) (j : Nat) : State :=
  let x := s.job j
  deleteJob (forAll (((x.members.map (·.pkg)).filter (· != myPkg s)).dedup) (fun s k =>
    sendCtl s 0 k (routeTo s k) (.ctl k (.gone (jobHandle s j)))) s) j

/-! ### Taking -/

/-- A member answers member 0: the awaited answer is recorded, and with the last one the job is there; a refusal ends it. A later
answer of a member that is gone, or of another generation or start, breaks the job (R246, R465). -/
def takeAnswer (s : State) (h i : Nat) (ok : Bool) (pgen startNo store rest : Nat) : State :=
  match jobOf s h with
  | none => s
  | some j =>
    let x := s.job j
    if !x.waiting.contains i then (if !ok || !pairOk s j i pgen startNo then breakJob s j else s)
    else if !ok then answerOpt (dropJob s j) x.crTag 0x0614 0
    else
      let s := s.modJob j fun x =>
        { x with
          waiting := x.waiting.erase i
          members := x.members.zipIdx.map fun e => if e.2 = i then { e.1 with pgen, startNo, store, rest } else e.1 }
      if (s.job j).waiting.isEmpty then
        installRoutes ((answerOpt s x.crTag 0 (jobHandle s j)).modJob j fun y => { y with crTag := none }) j
      else s

/-- What another member tells of a split job step changes the step here (R204). -/
def takeProgress (s : State) (h jstep : Nat) (f : State → Nat → State) : State :=
  match jobOf s h with
  | none => s
  | some j => forAll (slotsWhere s fun st => st.job == some (j, jstep)) (fun s slot => settleSkeins (f s slot) slot) s

/-- A member's FETCH is served from the window that it names: its bytes leave with their poison by the job's route to the asker; what
names no such window here is dropped (R62, R382, R385). -/
def serveFetch (s : State) (x : FetchAsk) : State :=
  let w := s.window x.window
  match jobOf s x.job with
  | none => s
  | some j =>
    if !w.isOpen || w.gen != x.gen || w.job != j || x.ranges.any (fun r => decide (w.size < r.1 + r.2)) then s
    else match tfind (s.job j).routes x.member with
      | some (h :: r) =>
        let d := ((partDies (s.part w.part))[0]?).getD 0
        let runs := x.ranges.map fun q =>
          ({ pos := q.1, bytes := hbmRead s w.part (w.base + q.1) q.2
             bad := (List.range q.2).filter fun i => hbmPoisoned s w.part (w.base + q.1 + i) 1 } : Run)
        let s := forAll x.ranges (fun s q => touchLines s w.part false (rangeLines (hbmAddr w.part (w.base + q.1)) q.2)) s
        sendAll s (hopPort s.variant h) (dataMsgs (2048 + d) x.qp 0 x.back w.part (h :: r) runs)
      | _ => s

/-- Spindle firmware takes what a control cell says. -/
def takeCtl (s : State) (c : Ctl) : State :=
  match c with
  | .probeAnswer p pkg digest chunks rate => if active s p then probeAnswered s p pkg digest chunks rate else s
  | .request pkg _ _ digest chunks => serveChunks s pkg digest chunks
  | .ask h i ms sets => takeAsk s h i ms sets
  | .answer h i ok pgen startNo store rest => takeAnswer s h i ok pgen startNo store rest
  | .routes h table => match jobOf s h with
    | some j => setTable s j table
    | none => s
  | .gone h => match jobOf s h with
    | some j => deleteJob s j
    | none => s
  | .gate h jstep m => match jobOf s h with
    | some j => s.modJob j fun x => { x with gates := (x.gates ++ [(jstep, m)]).dedup }
    | none => s
  | .skein h jstep k => takeProgress s h jstep fun s slot => s.modStep slot fun x => { x with skeins := tput x.skeins k (max 4 (tget x.skeins k 0)) }
  | .sorted h jstep idx experts counts => takeProgress s h jstep fun s slot => evalCounts s slot idx experts counts
  | .fetch x => serveFetch s x

/-- Spindle firmware tells a package something; what is meant for this package is taken here. -/
def tell (s : State) (part pkg : Nat) (route : Option (List Nat)) (c : Ctl) : State :=
  if pkg = myPkg s then takeCtl s c else sendCtl s part pkg route (.ctl pkg c)

/-- A step tells the other members of its instance (R204). -/
def tellPeers (s : State) (st : Step) (c : Nat → Nat → Ctl) : State :=
  match st.job with
  | none => s
  | some (j, jstep) =>
    let n := jobSplit s j (stepFile s st).req.members
    let own := stepMember s st
    forAll ((s.job j).members.zipIdx.filter fun e => e.2 != own && e.2 / n == own / n && !(s.job j).parts.isEmpty)
      (fun s e => tell s st.part e.1.pkg (tfind (s.job j).routes e.2) (c (jobHandle s j) jstep)) s

end Sys2Proof.Machine
end

