-- ==== Sys2Proof/Machine/Tile.lean ====
section
/-! DEFINITION. Events of a tile: placement and completion of skeins, residue windows, the bound, the clock, the scrubber, the
oscillator (R63, R65, R68 to R76, R82, R83, R210 to R213). -/

namespace Sys2Proof.Machine

/-! ### Placement -/

/-- The granules a skein is pinned to, none for no pin (R218). -/
def pinnedGranules (s : State) (st : Step) (k : Upf.Skein) : List Nat :=
  match hintFor (tget (s.part st.part).progs (runProg st) {}) k.layer with
  | some h => ((partGranules (s.part st.part)).zipIdx.filter fun e => bitOf h.pin e.2).map (·.1)
  | none => []

/-- A tile takes work (R75, R210). -/
def tileUsable (s : State) (t : Nat) : Bool := (s.tile t).withdrawn == 0 && (s.tile t).testing == none

/-- The fallback places that a skein waits behind have been evaluated (R320): the start, and every `fallback_safe` point below
it, while the step could switch. -/
def fbGate (s : State) (st : Step) (k : Nat) : Bool :=
  st.useFb || st.noFallback || !fbResident s st
    || (st.fbDone.contains 0 && (stepFile s st).cheaps.all fun c => !c.safe || decide (k ≤ c.after) || st.fbDone.contains (c.after + 1))

/-- The running step may start a skein now: no switch stops it, which before a cheap point lets the skeins up to it start
(R310), it is restored (R314), and the skein has not started and waits for nothing. -/
def mayStart (s : State) (slot k : Nat) (st : Step) : Bool :=
  let x := s.part st.part
  let f := stepFile s st
  st.state == 3 && x.running == some slot && x.switchTo == none && !st.spilled && decide (k < f.skeins.length) && ownSkein s st k && skState st k == 0
    && skeinReady f st k && (x.switchReq == 0 || (x.switchReq == 1 && decide (k < nextPoint s st))) && fbGate s st k

/-- Ranges [a, a + n) and [b, b + m) do not meet. -/
def apart (a n b m : Nat) : Bool := decide (a + n ≤ b ∨ b + m ≤ a)

/-- A buffer fits a tile's scratchpad at a base beside what lies there. -/
def bufFits (x : Tile) (base n : Nat) : Bool :=
  base % 16 == 0 && decide (base + n ≤ 4194304) && x.bufs.all fun b => apart base n b.base b.bytes

/-- Allocate a buffer of a step on a tile; content that lies on another tile is there too (log 18), and the access to it wakes
that tile (R83). -/
def addBuf (s : State) (t slot i base n : Nat) : State :=
  let old := bufHome s t slot i
  let s := { s with tiles := tmap s.tiles fun _ x => if (bufBase x slot i).isSome then { x with gated := false } else x }
  s.modTile t fun x =>
    let x := { x with bufs := x.bufs ++ [{ slot, tensor := i, base, bytes := n }] }
    match old with
    | some (y, b) =>
      { x with
        scratch := mwriteN x.scratch base (mreadN y.scratch b n)
        poison := dropRange x.poison (base / 16) (ceilDiv n 16)
          ++ ((y.poison.filter fun w => decide (b / 16 ≤ w ∧ w < b / 16 + ceilDiv n 16)).map fun w => w + base / 16 - b / 16) }
    | none => x

/-- Allocate the buffers of a skein that the tile does not hold, at the given bases; none when one does not fit. -/
def addBufs (s : State) (t slot : Nat) (f : Upf.File) (bases : List (Nat × Nat)) (need : List Nat) : Option State :=
  need.foldl (fun o i => o.bind fun s =>
    if (bufBase (s.tile t) slot i).isSome then some s
    else match tfind bases i with
      | some b => if bufFits (s.tile t) b (tensorOf f i).bytes then some (addBuf s t slot i b (tensorOf f i).bytes) else none
      | none => none) (some s)

/-- The generator is seeded before a step's first skein issues on the tile (R103). -/
def seedTile (s : State) (t slot : Nat) : State :=
  if (s.tile t).lfsrSlot = some slot then s
  else
    let (v, s) := draw s
    s.modTile t fun x => { x with lfsr := BitVec.ofNat 32 (v % (2 ^ 32 - 1) + 1), lfsrSlot := some slot }

/-- SKEIN_PLACE (R210 to R213, R218, R220, R221): a permitted idle tile takes a skein that can start; with every granule pinned
for it unusable the step fails. -/
def execSkeinPlace (now slot skein t : Nat) (bases : List (Nat × Nat)) (s : State) : Res :=
  timed s now engines fun s =>
    match tfind s.steps slot with
    | none => s
    | some st =>
      if !mayStart s slot skein st then s else
      let f := stepFile s st
      let k := skeinOf f skein
      let pins := pinnedGranules s st k
      if !pins.isEmpty && pins.all s.badGranules.contains then failStep s slot 0x0611
      else if (!pins.isEmpty && !pins.contains (tileGranule t)) || tileOwner s t != some st.part || !tileUsable s t
          || (s.tile t).run.isSome then s
      else match addBufs s t slot f bases (skeinBufs f k) with
        | none => s
        | some s =>
          let s := seedTile s t slot
          let n := if k.kind = 1 then predTokens k ((predCount st k).getD 0) else 0
          let r : SkeinRun := { slot, startAt := time s, skein, code := k.code, tokens := n }
          let s := s.modTile t fun x => { x with gated := false, run := some r }
          let s := logPlace s st skein t false (st.replaced.contains skein)
          s.modStep slot fun x => { x with skeins := tput x.skeins skein 1 }

/-! ### Completion -/

/-- END (R65, R199, R305): issue ends; the tile is free, and the skein's tail stays open until its completion; with the last
skein's issue the step has stopped issuing. -/
def execFin (t : Nat) (s : State) : Res :=
  skein t .fin [] (fun s slot _ r =>
    settleSkeins ((s.modTile t fun x => { x with run := none, tails := x.tails ++ [{ r with ended := true }] }).modStep slot fun x =>
      { x with skeins := tput x.skeins r.skein 3 }) slot) s

/-- The sorts of a completed skein that it never issued close (log 21). -/
def closeSkipped (s : State) (slot : Nat) (idx : List Nat) : State :=
  forAll idx (fun s i =>
    let held := s.sorters.any fun e => (e.2.reqs ++ e.2.run.toList).any fun q => q.slot == slot && q.idx == i
    match tfind s.steps slot with
    | some st => if held || (tfind st.sortExperts i).isSome then s else closeSort s slot i
    | none => s) s

/-- Views that a skein's code writes at this member. -/
def writtenViews (s : State) (st : Step) (k : Upf.Skein) : List Nat :=
  (k.code.flatMap fun i => match i with
    | .send _ d m => if (memberOf s st (stepFile s st).req.members m).isSome then [] else [d]
    | .sst _ _ d => [d] | .fetch _ d _ => [d] | .coll _ d .. => [d] | .drain d .. => [d] | .vst d .. => [d] | .mapclr d => [d]
    | .digest _ d => [d] | _ => []).dedup

/-- Members that need what a skein wrote through a view: those of its instance whose own skeins name the intermediate; member 0 for
an output (R204; log 24). -/
def splitTargets (s : State) (st : Step) (j v : Nat) : List Nat :=
  let f := stepFile s st
  let i := (viewOf f v).tensor
  let own := stepMember s st
  let n := jobSplit s j f.req.members
  if (s.job j).parts.isEmpty then []
  else if (tensorOf f i).kind = 1 then (if own = 0 then [] else [0])
  else if (tensorOf f i).kind = 3 then
    ((List.range n).map (· + own / n * n)).filter fun m => m != own && f.skeins.any fun k =>
      memberRuns s st m k && (codeViews k).any fun w => (viewOf f w).tensor == i
  else []

/-- A SEND that the split adds: the view's data goes to a member, with the records of an added operation (R204, R252). -/
def splitSend (s : State) (t skein slot : Nat) (st : Step) (j v m : Nat) : State :=
  match memberPort s j m with
  | none => withholdOp s j m slot
  | some p =>
    let f := stepFile s st
    let src := readStored s t slot st v
    let (op, s) := newOp s slot t skein 1 m v (bitsLen src) p true
    let (w, s) := draw s
    sendAll (s.modStep slot fun x => { x with requests := x.requests + 1 }) p
      (dataMsgs (2048 + tileDie t) op.qp 0 w st.part (tget (s.job j).routes m []) (runsOf f ((viewBits f v).zip src)) (some slot))

/-- What a split adds at the completion of a skein: its results go to the members that need them; with nothing to send they learn at
once that it is complete (R204). -/
def splitSkein (s : State) (t skein slot : Nat) : State :=
  match tfind s.steps slot with
  | none => s
  | some st => match st.job with
    | none => s
    | some (j, _) =>
      let l := (writtenViews s st (skeinOf (stepFile s st) skein)).flatMap fun v => (splitTargets s st j v).map fun m => (v, m)
      if l.isEmpty then tellPeers s st fun h k => .skein h k skein
      else forAll l (fun s e => splitSend s t skein slot st j e.1 e.2) s

/-- A skein is complete (R73, R109, R195, R322). -/
def skeinDone (s : State) (t : Nat) (r : SkeinRun) (st : Step) : State :=
  let f := stepFile s st
  let k := skeinOf f r.skein
  let s := s.modTile t fun x => { x with tails := x.tails.erase r }
  let s := s.modStep r.slot fun x => { x with skeins := tput x.skeins r.skein 4, conv := x.conv ||| r.conv }
  let s := traceSkein s r.slot 2 t r.skein (if st.replaced.contains r.skein then 4 else 0) 0
  let (a, s) := draw s
  let (b, s) := draw s
  let (e, s) := draw s
  let s := count (count (count s st.part 0x06 1) st.part 0x01 (a % (k.cost + 1))) st.part 0x02 (b % (k.cost + 1))
  let s := charge s t st.ctx st.ctxGen (time s - r.startAt) 0 e
  settleSkeins (splitSkein (closeSkipped s r.slot (sortsOf k)) t r.skein r.slot) r.slot

/-- SKEIN_COMPLETE (R73, R74, R195): not before the skein's last residue windows have passed their comparison. -/
def execSkeinComplete (now t skein : Nat) (s : State) : Res :=
  timed s now engines fun s =>
    match (s.tile t).tails.find? fun r => r.skein == skein && r.opsOut == 0 && r.sortsOut == 0 && !r.matWin && !r.vecWin with
    | none => s
    | some r => match tfind s.steps r.slot with
      | none => s
      | some st =>
        let s := skeinDone s t r st
        match tfind s.steps r.slot with
        | none => s
        | some st =>
          let f := stepFile s st
          let named := ((f.skeins.zipIdx.filter fun e => !skDone st e.2).flatMap fun e => skeinBufs f e.1)
          freeDead s r.slot fun i => named.contains i

/-! ### Checks of a tile -/

/-- Work of a tile that a check can name. -/
def tileBusy (s : State) (t : Nat) : Bool := (s.tile t).run.isSome || !(s.tile t).tails.isEmpty

/-- A unit's open window has passed: no skein of the tile has work in it that was not compared (R69, R73). -/
def closeWin (s : State) (t : Nat) (vector : Bool) : State :=
  let f := fun (r : SkeinRun) => if vector then { r with vecWin := false } else { r with matWin := false }
  s.modTile t fun x => { x with run := x.run.map f, tails := x.tails.map f }

/-- RESIDUE_WINDOW_COMPARE (R69, R71, R73 to R76): residues are compared modulo 255, in a global stop too; an armed injection
inverts the check. -/
def execResidueWindowCompare (now t : Nat) (vector : Bool) (predicted produced : Nat) (s : State) : Res :=
  timed s now (fun s => ready s && tileBusy s t) fun s =>
    let k := if vector then 2 else 0
    let inj := armed s (tileDie t) k t
    let s := if inj then consume s (tileDie t) k t else s
    if inj || predicted % 255 != produced % 255 then
      report s { code := mkCode 2 (tileDie t) (if vector then 0x05 else 0x03), engine := t }
    else closeWin s t vector

/-- SKEIN_BOUND_OVERRUN (R68): issue still pending at the start of cycle 8,193. -/
def execSkeinBoundOverrun (now t : Nat) (s : State) : Res :=
  timed s now (fun s => engines s && (match (s.tile t).run with
      | some r => r.issued && !r.code.isEmpty
      | none => false)) fun s => report s { code := mkCode 2 (tileDie t) 0x0A, engine := t }

/-- CLOCK_GATE (R83). -/
def execClockGate (t idle : Nat) (s : State) : Res :=
  untimed s (fun s => ready s && decide (64 ≤ idle) && (match (s.tile t).run with
      | some r => decide (0 < r.fetchOut)
      | none => true)) fun s => s.modTile t fun x => { x with gated := true }

/-- PATROL_SCRUB (R60, R63, R83): the tile is awake; a single-bit error is corrected; more bits mark the word poisoned. -/
def execPatrolScrub (now t word bits : Nat) (s : State) : Res :=
  timed s now (fun s => up s && decide (t < tileCount s.variant ∧ word < 262144)) fun s =>
    let s := s.modTile t fun x => { x with gated := false }
    if bits = 0 then s
    else if bits = 1 then report s { code := mkCode 1 (tileDie t) 0x01, engine := t }
    else report (s.modTile t fun x => { x with poison := addNew x.poison word }) { code := mkCode 2 (tileDie t) 0x02, engine := t }

/-- OSCILLATOR_OUT_OF_LOCK (R82). -/
def execOscillatorOutOfLock (now t permille ns : Nat) (s : State) : Res :=
  timed s now (fun s => up s && decide (t < tileCount s.variant ∧ 20 < permille ∧ 2000 < ns)) fun s =>
    report s { code := mkCode 2 (tileDie t) 0x0B, engine := t }

end Sys2Proof.Machine
end

