-- ==== Sys2Proof/Machine/Fabric.lean ====
section
/-! DEFINITION. The fabric boundary as it acts on this package: link ports, keys and frames, credits, arrivals at windows,
remote operations and reducer plans (R381 to R394, R404 to R413, R483 to R486). -/

namespace Sys2Proof.Machine

/-! ### Link ports -/

/-- The variant has this link port, and the package uses link ports (R378, R410). -/
def hasPort (s : State) (p : Nat) : Bool := decide (p < portCount s.variant) && s.aon.coords.isSome

/-- Remote operations that leave by a port; a discarded FETCH fails nothing. -/
def portOps (s : State) (p : Nat) : List RemOp := s.remOps.filter fun o => o.port == p && o.kind != 4

/-- Every operation on a port fails at once with 0x0B04, and fills lose the peers that port reached (R234, R394, R412). -/
def dropPort (s : State) (p : Nat) (code : Code) : State :=
  let s0 := s
  let ks := ((portOps s p).map (·.slot)).dedup
  let s := s.modPort p fun x => { x with up := false, keying := false, txq := [], cellHeld := 0, cellGranted := 0, bulkHeld := 0, bulkGranted := 0 }
  let s := forAll ks (fun s k => failWith s k 0x0B04 code) s
  let gone := fun (k : Nat) => match routeTo s0 k with
    | some r => routePort s0 r == p
    | none => false
  forAll (s.parts.map (·.1)) (fun s q => losePeers s q gone) s

/-- LINK_PORT_UP (R391, R483): the port takes its credits and begins the key agreement; it carries nothing else yet. -/
def execLinkPortUp (now port cells bulks : Nat) (s : State) : Res :=
  timed s now (fun s => up s && hasPort s port && !(s.port port).up && !(s.port port).keying && !(s.port port).shut) fun s =>
    emit (s.modPort port fun x =>
      { x with keying := true, cellHeld := cells, cellGranted := cells, bulkHeld := bulks, bulkGranted := bulks }) (.keyFrame port)

/-- KEY_EXCHANGE_FRAME (R483, R484): a chain, signature or life-cycle state that does not hold ends the exchange with 0xA801; the
last frame brings the port up under new keys. -/
def execKeyExchangeFrame (port : Nat) (chainOk sigOk : Bool) (peerState : Nat) (last : Bool) (s : State) : Res :=
  untimed s (fun s => up s && (s.port port).keying) fun s =>
    if !chainOk || !sigOk || !(peerState == 2 || peerState == 3 || peerState == 4) then
      reportCode (s.modPort port fun x => { x with keying := false }) 0xA801
    else if last then
      let (a, s) := drawKey s
      let (b, s) := drawKey s
      s.modPort port fun x => { x with keying := false, up := true, txKey := a, rxKey := b, txCtr := 0, rxCtr := 0 }
    else emit s (.keyFrame port)

/-- LINK_PORT_DOWN (R33, R394, R412, R504): an exchange under way is abandoned. -/
def execLinkPortDown (now port : Nat) (s : State) : Res :=
  timed s now (fun s => up s && ((s.port port).up || (s.port port).keying)) fun s =>
    dropPort (reportCode s 0xA801) port 0xA801

/-- CREDIT_RETURN (R32, R33, R391, R392, R412): more credits than were issued take the port down with 0xA802; otherwise waiting
messages go. -/
def execCreditReturn (now port : Nat) (bulk : Bool) (n : Nat) (s : State) : Res :=
  timed s now (fun s => up s && (s.port port).up) fun s =>
    let x := s.port port
    let excess := if bulk then decide (x.bulkGranted < x.bulkHeld + n) else decide (x.cellGranted < x.cellHeld + n)
    if excess then dropPort (reportCode s 0xA802) port 0xA802
    else
      let s := s.modPort port fun x =>
        if bulk then { x with bulkHeld := x.bulkHeld + n } else { x with cellHeld := x.cellHeld + n }
      if s.gst.stopped then s else forAll (s.parts.map (·.1)) sweepBobbins (drainTx s port)

/-! ### Frames (R485, R486) -/

/-- The frame's tag holds and its counter is one above the last accepted. -/
def frameOk (s : State) (port ctr : Nat) (tagOk : Bool) : Bool := tagOk && ctr == (s.port port).rxCtr + 1

/-- LINK_FRAME_FAILURE (R486): 0xA501, SECALM_N low, the port down and up again under new keys. -/
def frameFailure (s : State) (port : Nat) : State :=
  let c := (s.port port).cellGranted
  let b := (s.port port).bulkGranted
  let s := dropPort (reportCode s 0xA501) port 0xA501
  emit (s.modPort port fun x =>
    { x with keying := true, cellHeld := c, cellGranted := c, bulkHeld := b, bulkGranted := b }) (.keyFrame port)

/-! ### Windows (R382, R458) -/

/-- What the window checks decide. -/
inductive Landing where
  | land | stale | bad
deriving DecidableEq, Repr

/-- The window checks in order. A window that is closed after having been open, and any in the first 10 ms after the release
of BLK_RESET_N, gives a stale arrival (R382, R458). -/
def landing (s : State) (qp kind gen window pos len : Nat) : Landing :=
  let w := s.window window
  if window = 0x3FF then (if gen = w.gen ∧ kind = 2 then .land else if gen = w.gen then .bad else .stale)
  else if gen ≠ w.gen then .stale
  else if !w.isOpen ∧ (w.gen ≠ 0 ∨ w.closedAt ≠ 0 ∨ time s < 10000000 + s.life.startAt) then .stale
  else if !w.isOpen ∨ !bitOf w.kinds kind ∨ !w.qps.contains qp ∨ w.size < pos + len then .bad
  else .land

/-- A stale arrival is counted for the window's partition (R382). -/
def staleArrival (s : State) (window : Nat) : State :=
  let p := (s.window window).part
  count { s with stale := tput s.stale p (tget s.stale p 0 + 1) } p 0x12 1

/-- Take one from a count of the skein that issued an operation, in the tile's running skein or a tail. -/
def modSkeinRun (s : State) (o : RemOp) (f : SkeinRun → SkeinRun) : State :=
  let g := fun (r : SkeinRun) => if r.slot = o.slot ∧ r.skein = o.skein then f r else r
  s.modTile o.tile fun x => { x with run := x.run.map g, tails := x.tails.map g }

/-- The mover's part of a FETCH or SEND ends: its trace record and its account (R322, R550). -/
def moverDone (s : State) (o : RemOp) : State :=
  match tfind s.steps o.slot with
  | none => s
  | some st =>
    if 2 ≤ o.kind then s else
    let e := 2048 + tileDie o.tile
    let (busy, s) := draw (traceStep s o.slot 4 (if o.added then 2 else 0) e 0)
    let (en, s) := draw s
    charge s e st.ctx st.ctxGen busy o.want en

/-- With the last operation that a split added to a skein landed, the other members learn that the skein is complete (R204). -/
def splitDone (s : State) (o : RemOp) : State :=
  if !o.added || s.remOps.any (fun x => x.slot == o.slot && x.skein == o.skein && x.added) then s
  else match tfind s.steps o.slot with
    | some st => tellPeers s st fun h k => .skein h k o.skein
    | none => s

/-- A remote operation ends well. -/
def endOp (s : State) (o : RemOp) : State :=
  let s := splitDone (moverDone { s with remOps := s.remOps.filter fun x => x.id != o.id } o) o
  let s := modSkeinRun s o fun r => if o.kind = 0 then { r with fetchOut := r.fetchOut - 1 } else { r with opsOut := r.opsOut - 1 }
  s.modStep o.slot fun x => { x with requests := x.requests - 1, lastOp := time s }

/-- The data of a FETCH is whole: it is written into its buffer (R194, R195; log 19). -/
def fetchDone (s : State) (o : RemOp) : State :=
  match tfind s.steps o.slot with
  | none => endOp s o
  | some st =>
    let bs := viewBits (stepFile s st) o.dst
    endOp (putAll s o.tile o.slot (landPuts bs o.data o.bad)) o

/-- Progress of a remote operation (R393): data of a FETCH, the landing acknowledgement of a SEND, a chunk of a COLL; what comes
for a FETCH that returned to the not-started state is discarded (R183). -/
def progress (s : State) (o : RemOp) (kind pos : Nat) (data : List Byte) (bad : List Nat) : State :=
  let o' := { o with
    last := time s, data := if o.kind = 0 ∨ o.kind = 4 then o.data ++ data else o.data
    bad := if o.kind = 0 then o.bad ++ bad.map (· + o.data.length) else o.bad }
  let s := { s with remOps := s.remOps.map fun x => if x.id = o.id then o' else x }
  if o.kind = 0 then (if o.want ≤ o'.data.length then fetchDone s o' else s)
  else if o.kind = 1 then (if kind = 2 then endOp s o' else s)
  else if o.kind = 2 then (if kind = 1 then collArrive s o' { pos, bytes := data, bad } else s)
  else if o.kind = 4 then (if o.want ≤ o'.data.length then { s with remOps := s.remOps.filter fun x => x.id != o.id } else s)
  else s

/-- The lines of object-space bytes hold poison (R62). -/
def poisonLines (s : State) (p : Nat) (l : List Nat) : State :=
  { s with hbmPoison := (s.hbmPoison ++ l.map fun a => hbmAddr p a / 64).dedup }

/-- An accepted frame carries a cell or bulk message: it lands, is dropped as stale, or is dropped with 0xA803. -/
def arrive (s : State) (port qp kind gen window pos bytes : Nat) (data : List Byte) (bad : List Nat) : State :=
  let s := s.modPort port fun x => { x with rxCtr := (x.rxCtr + 1) % 2 ^ 96 }
  let s := countGlobal s (10 + port) bytes
  match landing s qp kind gen window pos data.length with
  | .stale => staleArrival s window
  | .bad => reportCode s 0xA803
  | .land =>
    let s := if window = 0x3FF then s else count s (s.window window).part 0x0E bytes
    match s.remOps.find? fun o => o.qp == qp with
    | some o => progress s o kind pos data bad
    | none =>
      if kind = 0 ∧ window ≠ 0x3FF then
        let p := (s.window window).part
        let a := (s.window window).base + pos
        touchLines (poisonLines (hbmWrite s p a data) p (bad.map (· + a))) p true (rangeLines (hbmAddr p a) data.length)
      else s

/-- CELL_ARRIVAL (R382, R383, R485, R486). -/
def execCellArrival (now port : Nat) (c : Cell) (s : State) : Res :=
  timed s now (fun s => up s && (s.port port).up) fun s =>
    if !frameOk s port c.frameCtr c.tagOk then frameFailure s port
    else
      let ctl := if c.window = 0x3FF ∧ landing s c.qp c.kind c.gen c.window (48 * c.index) 48 = .land then c.ctl else none
      let s := arrive s port c.qp c.kind c.gen c.window (48 * c.index) 64 (padTo 48 (c.payload.take 48)) (c.bad.filter (· < 48))
      match ctl with
      | some x => takeCtl s x
      | none => s

/-- BULK_MESSAGE_ARRIVAL (R382, R384, R485, R486). -/
def execBulkMessageArrival (now port : Nat) (b : Bulk) (s : State) : Res :=
  timed s now (fun s => up s && (s.port port).up && decide (1 ≤ b.length ∧ b.length ≤ 8192)) fun s =>
    if !frameOk s port b.frameCtr b.tagOk then frameFailure s port
    else arrive s port b.qp b.kind b.gen b.window b.offset (32 + b.length) (slice b.payload 0 b.length) (b.bad.filter (· < b.length))

/-! ### Reducers -/

/-- A reducer may start a plan. -/
def reducerFree (s : State) (port : Nat) : Bool :=
  (s.reducer port).withdrawn == 0 && (s.reducer port).testing == none && (s.reducer port).run == none && !(s.reducer port).plans.isEmpty

/-- Lowered plans that tile `t` may take: it is idle, usable, and of their partition (R203, R210). -/
def addedFor (s : State) (t : Nat) : List Plan :=
  if (s.tile t).run.isNone && tileUsable s t then s.addedWork.filter fun q => tileOwner s t == some q.part else []

/-- A tile takes a lowered plan as a skein that spindle firmware added (R203, R221). -/
def startAdded (s : State) (t : Nat) (q : Plan) : State :=
  match tfind s.steps q.slot with
  | none => s
  | some st =>
    let s := { s with addedWork := s.addedWork.erase q }
    let r : SkeinRun := { slot := q.slot, startAt := time s, skein := q.added, issued := true, plan := some q }
    let s := s.modTile t fun x => { x with gated := false, run := some r }
    traceAdded (logPlace s st q.added t false false true) q 1 t

/-- PLAN_START (R156, R203, R408): the reducer of an engine identifier takes the earliest deadline of the eight plans held; a tile
takes that of the plans lowered for its partition. -/
def execPlanStart (now engine : Nat) (s : State) : Res :=
  timed s now (fun s => engines s && (if engine < 2048 then !(addedFor s engine).isEmpty
      else decide (2112 ≤ engine) && reducerFree s (engine - 2112))) fun s =>
    if engine < 2048 then
      match minBy (fun q => deadlineRank q.deadline) (addedFor s engine) with
      | none => s
      | some q => planRun (startAdded s engine q) engine q
    else
      let port := engine - 2112
      match minBy (fun q => deadlineRank q.deadline) ((s.reducer port).plans.take 8) with
      | none => s
      | some q => planRun (traceStep (s.modReducer port fun x => { x with plans := x.plans.erase q, run := some q }) q.slot 3 0 engine 0)
          engine q

/-- The plan that an engine runs. -/
def planOn (s : State) (engine : Nat) : Option Plan :=
  if engine < 2048 then (s.tile engine).run.bind (·.plan) else (s.reducer (engine - 2112)).run

/-- The engine is rid of its plan, which leaves its trace record and account; with its last plan the COLL has landed (R407). -/
def endPlan (s : State) (engine busy : Nat) (q : Plan) (st : Step) (o : RemOp) : State :=
  let s := if engine < 2048 then traceAdded (s.modTile engine fun x => { x with run := none }) q 2 engine
    else traceStep (s.modReducer (engine - 2112) fun x => { x with run := none }) q.slot 4 0 engine 0
  let (e, s) := draw s
  let bytes := (o.coll.map fun c => c.els * c.wireBytes).getD 0
  let s := charge s engine st.ctx st.ctxGen busy bytes e
  if planLeft s q.op then s else endOp s o

/-- PLAN_COMPLETE (R407, R412): the plan's last chunk has been written; an armed reducer check fails the plan instead. -/
def execPlanComplete (now engine busy : Nat) (s : State) : Res :=
  timed s now (fun s => engines s && (planOn s engine).any (planWhole s)) fun s =>
    match planOn s engine with
    | none => s
    | some q =>
      match (tfind s.steps q.slot), (s.remOps.find? fun o => o.id == q.op && o.slot == q.slot) with
      | some st, some o =>
        match (if engine < 2048 then none else [0, 1].find? fun k => armed s 38 k engine) with
        | some k => check s 38 k engine [q.slot]
        | none => endPlan s engine busy q st o
      | _, _ => s

/-! ### Limits -/

/-- REMOTE_TIMEOUT (R393 to R395): 1 ms without progress; the job abort starts. -/
def execRemoteTimeout (now op : Nat) (s : State) : Res :=
  timed s now (fun s => engines s && s.remOps.any fun o => o.id == op && o.kind != 4 && decide (1000000 + o.last < time s)) fun s =>
    match s.remOps.find? fun o => o.id == op && o.kind != 4 && decide (1000000 + o.last < time s) with
    | some o => failWith s o.slot 0x0B01 0
    | none => s

/-- QUEUE_PAIR_DOWN (R394). -/
def execQueuePairDown (now qp : Nat) (s : State) : Res :=
  timed s now up fun s =>
    forAll (((s.remOps.filter fun o => o.qp == qp && o.kind != 4).map (·.slot)).dedup) (fun s k => failWith s k 0x0B04 0) s

end Sys2Proof.Machine
end

