-- ==== Sys2Proof/Machine/Split.lean ====
section
/-! DEFINITION. The split of a program over the members of a job: the number of parts, the layers and cuts of each, and the shards of
its bobbin (R204, R247 to R250, R252 to R255). -/

namespace Sys2Proof.Machine

/-! ### Layers -/

/-- Layers of a program, ascending, with their summed cost. -/
def layerCosts (f : Upf.File) : List (Nat × Nat) :=
  (((f.skeins.map (·.layer)).dedup).mergeSort fun a b => decide (a ≤ b)).map fun l =>
    (l, sumNat ((f.skeins.filter fun k => k.layer == l).map (·.cost)))

/-- The image that a program's split goes by: a load names no bobbin, so it is the partition's first whose weight bytes are
those the program asks for (DESIGN CHOICE, log 24). -/
def splitImage (s : State) (p : Nat) (f : Upf.File) : List Byte :=
  match (s.part p).bobbins.find? fun e => e.2.live && e.2.installing == none && e.2.parent.isNone && e.2.bytes == f.req.bobbinBytes
      && f.req.bobbinBytes != 0 with
  | some e => e.2.image
  | none => []

/-- Bytes of a layer's chunks and the number of its cuts. -/
def layerBytes (img : List Byte) (l : Nat) : Nat × Nat :=
  let cs := (List.range (imgChunks img)).filter fun c => chunkLayer img c == l
  (sumNat (cs.map (chunkLen img)), maxNat (cs.map fun c => chunkPart img c + 1))

/-- Layers that follow one another uncut, or one layer with the number of parts over which it is cut. -/
structure Stretch where
  /-- layers with their cost -/
  layers : List (Nat × Nat)
  /-- parts of a cut layer, 0 for uncut ones -/
  cuts : Nat := 0

/-- The stretches of a program: a layer whose chunks fit no part is cut over as few parts as hold it; none when it has too few cuts
(R248). -/
def stretches (img : List Byte) (room : Nat) : List (Nat × Nat) → Option (List Stretch)
  | [] => some []
  | l :: ls => (stretches img room ls).bind fun rest =>
    let (n, cuts) := layerBytes img l.1
    if n ≤ room then match rest with
      | { layers, cuts := 0 } :: r => some ({ layers := l :: layers } :: r)
      | r => some ({ layers := [l] } :: r)
    else if room = 0 ∨ cuts < ceilDiv n room then none
    else some ({ layers := [l], cuts := ceilDiv n room } :: rest)

/-- Cost of a stretch. -/
def Stretch.cost (x : Stretch) : Nat := sumNat (x.layers.map (·.2))

/-- Parts of each stretch when `n` are left for the uncut ones, near their share of the cost (R248). -/
def shareParts : List Stretch → Nat → List Nat
  | [], _ => []
  | x :: l, n =>
    if x.cuts ≠ 0 then x.cuts :: shareParts l n
    else
      let rest := l.filter (·.cuts == 0)
      let k := if rest.isEmpty then n else max 1 (min (n - rest.length) (x.cost * n / max 1 (x.cost + sumNat (rest.map (·.cost)))))
      k :: shareParts l (n - k)

/-- The parts of one stretch over `n` parts: contiguous ranges of near-equal cost, or near-equal counts when that would leave one
empty; a cut layer takes one part for each share (R248; DESIGN CHOICE, log 24). -/
def stretchParts (x : Stretch) (n : Nat) : List (Nat × Nat × Nat × Nat) :=
  let ls := x.layers
  if x.cuts ≠ 0 then (List.range x.cuts).map fun i => ((nth ls 0 (0, 0)).1, (nth ls 0 (0, 0)).1, i, x.cuts)
  else
    let total := max 1 x.cost
    let byCost := ls.zipIdx.map fun e => (e.1.1, sumNat ((ls.take e.2).map (·.2)) * n / total)
    let at_ := if (List.range n).all fun j => byCost.any fun e => e.2 == j then byCost
      else ls.zipIdx.map fun e => (e.1.1, e.2 * n / max 1 ls.length)
    (List.range n).map fun j =>
      let mine := (at_.filter fun e => e.2 == j).map (·.1)
      (mine.head?.getD 0, mine.getLast?.getD 0, 0, 1)

/-- The parts of a program over `n` parts whose stores have at least `room`: first and last layer, cut and cuts; none when it cannot
be split so (R248, R255). -/
def splitOver (f : Upf.File) (img : List Byte) (room n : Nat) : Option (List (Nat × Nat × Nat × Nat)) :=
  if n = 1 then some [((((layerCosts f).head?).map (·.1)).getD 0, (((layerCosts f).getLast?).map (·.1)).getD 0, 0, 1)]
  else (stretches img room (layerCosts f)).bind fun l =>
    let cut := sumNat (l.map (·.cuts))
    let plain := l.filter (·.cuts == 0)
    if n < cut + plain.length ∨ (plain.isEmpty ∧ n ≠ cut) then none
    else
      let ks := shareParts l (n - cut)
      if (l.zip ks).all fun e => decide (1 ≤ e.2 ∧ (e.1.cuts ≠ 0 ∨ e.2 ≤ e.1.layers.length)) then
        some ((l.zip ks).flatMap fun e => stretchParts e.1 e.2)
      else none

/-- Bytes of the shard of a part; without an image an equal share of the program's weight bytes. -/
def shardBytes (f : Upf.File) (img : List Byte) (n : Nat) (q : Nat × Nat × Nat × Nat) : Nat :=
  if img.isEmpty then ceilDiv f.req.bobbinBytes n else sumNat ((partChunks img q).map (chunkLen img))

/-- Room of a member: of a partition here as it stands, of another package's as it answered (R247). -/
def memberRoom (s : State) (m : Member) : Nat × Nat :=
  if m.pkg = myPkg s then (storeRoom s m.part, carveRest s m.part) else (m.store, m.rest)

/-- Every part of every instance fits its member (R247). -/
def partsFit (s : State) (f : Upf.File) (img : List Byte) (ms : List Member) (n : Nat) (parts : List (Nat × Nat × Nat × Nat)) : Bool :=
  ((ms.take (f.req.members * n)).zipIdx).all fun e =>
    let r := memberRoom s e.1
    decide (shardBytes f img n (nth parts (e.2 % n) (0, 0, 0, 1)) ≤ r.1 ∧ ceilDiv f.req.hbmBytes n ≤ r.2)

/-- The smallest number of parts for which every part fits its member, with the parts (R247, R248). -/
def chooseSplit (s : State) (p : Nat) (f : Upf.File) (ms : List Member) : Option (List (Nat × Nat × Nat × Nat)) :=
  let img := splitImage s p f
  let room := (ms.map fun m => (memberRoom s m).1).foldl min (2 ^ 64)
  ((List.range ms.length).map (· + 1)).findSome? fun n =>
    (splitOver f img room n).filter fun parts => partsFit s f img ms n parts

/-- The job parts of a program with `m` instances of the given parts, member by member; an idle member reads 0xFFFF (R247, R255). -/
def jobParts (parts : List (Nat × Nat × Nat × Nat)) (members m : Nat) : List (Nat × Nat × Nat × Nat) :=
  (List.range members).map fun k =>
    if k < m * parts.length then nth parts (k % parts.length) (0, 0, 0, 1) else (0xFFFF, 0xFFFF, 0, 1)

/-- The parts of a job's program, or none when the job has too few members (R247). -/
def splitParts (s : State) (p : Nat) (f : Upf.File) (ms : List Member) : Option (List (Nat × Nat × Nat × Nat)) :=
  (chooseSplit s p f ms).bind fun parts =>
    if f.req.members * parts.length ≤ ms.length then some (jobParts parts ms.length f.req.members) else none

/-! ### Shards (R248 to R250) -/

/-- The catalogue has the shard that a part makes of a bobbin: its index, after adding the entry when it is new. The whole bobbin is
its own shard. With the catalogue full there is none (DESIGN CHOICE, log 24). -/
def ensureShard (s : State) (p : Nat) (parent : BitVec 384) (img : List Byte) (share : Bool) (set : Nat) (q : Nat × Nat × Nat × Nat) :
    State × Option Nat :=
  let cs := partChunks img q
  let d := if cs = List.range (imgChunks img) then parent else shardDigest parent img cs
  match (s.part p).bobbins.find? fun e => e.2.live && e.2.digest == d with
  | some e => (s, some e.1)
  | none => match (List.range 1024).find? fun i => !(tget (s.part p).bobbins i {}).live with
    | none => (s, none)
    | some i =>
      (modBobbin s p i fun _ =>
        { live := true, image := img.take (imgTables img) ++ List.replicate (imgBytes img) 0, digest := d, parent := some parent
          chunks := cs, bytes := sumNat (cs.map (chunkLen img)), peerShare := share, setId := set }, some i)

/-- The shard of a bobbin that a member's part of a job runs on, after adding it; without a split the bobbin itself (R248, R250). -/
def shardFor (s : State) (p j i : Nat) : State × Nat :=
  match (s.job j).parts[memberIdx s j p]? with
  | none => (s, i)
  | some q =>
    let b := bobbin s p i
    if q.1 = 0xFFFF ∨ b.parent.isSome then (s, i)
    else
      let (s, k) := ensureShard s p b.digest b.image b.peerShare b.setId q
      (s, k.getD i)

/-- A step at a member of a split job runs on its shards. -/
def onShard (s : State) (j : Nat) (st : Step) : State × Step :=
  match st.bobbin with
  | none => (s, st)
  | some i =>
    let (s, k) := shardFor s st.part j i
    (s, { st with bobbin := some k })

/-- What member 0 tells with a derived step of a program on a bobbin. -/
def splitOf (s : State) (p j : Nat) (b : Option Nat) : Split :=
  match b with
  | none => { parts := (s.job j).parts }
  | some i =>
    let x := bobbin s p i
    { parts := (s.job j).parts, tables := x.image.take (imgTables x.image), share := x.peerShare, set := x.setId }

/-- A member takes what came with a derived step: its part, and the shard of the bobbin (R248 to R250). -/
def takeSplit (s : State) (p j : Nat) (x : Split) : State :=
  let s := s.modJob j fun y => { y with parts := if x.parts.isEmpty then y.parts else x.parts }
  match (s.job j).parts[memberIdx s j p]? with
  | none => s
  | some q =>
    if x.tables.isEmpty ∨ q.1 = 0xFFFF then s
    else (ensureShard s p (Config.sha384 x.tables) (x.tables ++ List.replicate (imgBytes x.tables) 0) x.share x.set q).1

end Sys2Proof.Machine
end

