-- ==== Sys2Proof/Machine/Sorter.lean ====
section
/-! DEFINITION. The token sorter: the descriptor's checks, the choice of experts, the outputs, remote rows and manifests, and the
counts that decide conditional skeins (R138 to R160). -/

namespace Sys2Proof.Machine

/-- A sort descriptor (Table Sparse-4). -/
structure SortDesc where
  scores : Nat
  out : Nat
  tokens : Nat
  experts : Nat
  k : Nat
  fmt : Nat
  policy : Nat
  search : Nat
  cf : Nat
  capacity : Nat
  shared : Nat
  sharedCap : Nat
  mask : Nat
  home : Nat
  rows : Nat
  rowBytes : Nat
  /-- a reserved byte or bit is nonzero -/
  rsv : Bool

/-- Read a descriptor. -/
def sortDesc (b : List Byte) : SortDesc :=
  { scores := fld b 0 8, out := fld b 8 8, tokens := fld b 16 2, experts := fld b 18 2, k := fld b 20 1, fmt := fld b 21 1
    policy := fld b 22 1 % 4, search := fld b 23 1, cf := fld b 24 2, capacity := fld b 26 2, shared := fld b 28 2
    sharedCap := fld b 30 2, mask := fld b 32 8, home := fld b 40 8, rows := fld b 48 8, rowBytes := fld b 56 2
    rsv := fld b 22 1 / 4 != 0 || !zeroRange b 58 6 }

/-- A shared expert is named. -/
def hasShared (d : SortDesc) : Bool := d.shared != 0xFFFF

/-- Capacity of a non-shared expert (R144). -/
def sortCap (d : SortDesc) : Nat :=
  if d.capacity ≠ 0 then d.capacity else min d.tokens (ceilDiv (d.cf * d.tokens * d.k) (256 * d.experts))

/-- Capacity of expert `e`. -/
def capOf (d : SortDesc) (e : Nat) : Nat := if d.shared = e then d.sharedCap else sortCap d

/-- Bytes of a score. -/
def scoreBytes (d : SortDesc) : Nat := if d.fmt = 0 then 4 else 2

/-- Offsets of the counts, the combine table and the buckets within the output region (Table Sparse-5). -/
def combineOff (d : SortDesc) : Nat := 64 + roundUp (4 * d.experts) 64
/-- See `combineOff`. -/
def bucketsOff (d : SortDesc) : Nat := combineOff d + roundUp (4 * d.tokens * d.k) 64
/-- First entry of expert `e`'s bucket (R147). -/
def bucketStart (d : SortDesc) (e : Nat) : Nat :=
  if hasShared d ∧ d.shared < e then (e - 1) * sortCap d + d.sharedCap else e * sortCap d
/-- Bytes of the output region. -/
def outBytes (d : SortDesc) : Nat :=
  bucketsOff d + 8 * (if hasShared d then (d.experts - 1) * sortCap d + d.sharedCap else d.experts * sortCap d)

/-- Home-table entry of expert `e`, when there is a table. -/
def homeOf (s : State) (p : Nat) (d : SortDesc) (e : Nat) : Nat := leNat (hbmRead s p (d.home + 8 * e) 8)

/-- Expert `e` lies on another package (R151). -/
def isRemote (s : State) (p : Nat) (d : SortDesc) (e : Nat) : Bool := d.home != 0 && homeOf s p d e / 2 ^ 52 != myPkg s

/-- The job member on a package. -/
def memberOn (s : State) (j pkg : Nat) : Option Nat := (s.job j).members.findIdx? fun m => m.pkg == pkg

/-- A home-table entry is an address that R380 gives a meaning: of this package, or the base of a window of another one. -/
def homeOk (s : State) (p : Nat) (d : SortDesc) (e : Nat) : Bool :=
  let h := homeOf s p d e
  h / 2 ^ 52 == myPkg s || (h / 2 ^ 48 % 16 == 2 && h % 2 ^ 38 == 0)

/-- The status that refuses a descriptor, or 0 (R141, R380, Table Sparse-10). DESIGN CHOICE (log 142): of several broken fields the
first in the table's order counts, and a misaligned `out_base` or `rows` without a home table gets 0x0417. -/
def sortStatus (s : State) (p : Nat) (job : Option (Nat × Nat)) (d : SortDesc) : Nat :=
  let space := objSpace (s.part p)
  let inside := fun (a n : Nat) => decide (a + n ≤ space)
  if d.tokens < 1 ∨ 4096 < d.tokens then 0x0410
  else if d.experts < 1 ∨ 1024 < d.experts then 0x0411
  else if d.k < 1 ∨ 8 < d.k ∨ (d.policy = 1 ∧ (d.search < 1 ∨ 4 < d.search)) then 0x0412
  else if 2 < d.fmt then 0x0413
  else if d.cf < 0x0100 ∨ 0x1000 < d.cf ∨ d.tokens < d.capacity then 0x0414
  else if d.policy = 3 ∨ d.rsv then 0x0415
  else if (hasShared d && decide (d.experts ≤ d.shared)) || (d.policy == 2 && !hasShared d)
      || (if hasShared d then decide (d.sharedCap < 1 ∨ d.tokens < d.sharedCap) else d.sharedCap != 0) then 0x0416
  else if !inside d.scores (d.tokens * d.experts * scoreBytes d) || d.out % 64 != 0 || !inside d.out (outBytes d)
      || (d.mask != 0 && !inside d.mask 128) || (d.home != 0 && !inside d.home (8 * d.experts))
      || (d.home == 0 && d.rows != 0) || (d.home != 0 && !inside d.rows (d.tokens * d.rowBytes))
      || (d.home != 0 && !(List.range d.experts).all (homeOk s p d)) then 0x0417
  else if (if d.home = 0 then d.rowBytes != 0 else decide (d.rowBytes < 16 ∨ 16384 < d.rowBytes ∨ d.rowBytes % 16 ≠ 0))
      || (List.range d.experts).any (fun e => isRemote s p d e && (match job with
        | some (j, _) => match memberOn s j (homeOf s p d e / 2 ^ 52) with
          | some m => (tfind (s.job j).routes m).isNone
          | none => true
        | none => true)) then 0x0418
  else 0

/-- Some line that the sort reads is poisoned. -/
def sortPoisoned (s : State) (p : Nat) (d : SortDesc) : Bool :=
  hbmPoisoned s p d.scores (d.tokens * d.experts * scoreBytes d) || (d.mask != 0 && hbmPoisoned s p d.mask 128)
    || (d.home != 0 && (hbmPoisoned s p d.home (8 * d.experts) || hbmPoisoned s p d.rows (d.tokens * d.rowBytes)))

/-! ### The sort itself -/

/-- One placed assignment: token, original slot, expert, position, rerouted, spilled. -/
structure Placed where
  token : Nat
  slot : Nat
  expert : Nat
  pos : Nat
  rerouted : Bool
  spilled : Bool

/-- Scores of token `t`. -/
def tokenScores (s : State) (p : Nat) (d : SortDesc) (t : Nat) : List Val :=
  let w := scoreBytes d
  (List.range d.experts).map fun e => decFp (fpFmt d.fmt) (leNat (hbmRead s p (d.scores + (t * d.experts + e) * w) w))

/-- The selectable experts of a token in rank order (R142). -/
def rankExperts (d : SortDesc) (mask : List Byte) (vs : List Val) : List Nat :=
  ((vs.zipIdx.filter fun e => e.1 != .nan && e.2 != d.shared && !(d.mask != 0 && bitOf (fld mask (e.2 / 8) 1) (e.2 % 8))).mergeSort
    fun a b => !(vLt a.1 b.1 && !vEq a.1 b.1)).map (·.2)

/-- What the sorter has done so far. -/
structure SortRun where
  placed : List Placed := []
  counts : Tab Nat := []
  overflow : List (Nat × Nat) := []
  dropped : Nat := 0

/-- An assignment joins a bucket. -/
def joinBucket (r : SortRun) (t j e : Nat) (rer sp : Bool) : SortRun :=
  let n := tget r.counts e 0
  { r with placed := r.placed ++ [⟨t, j, e, n, rer, sp⟩], counts := tput r.counts e (n + 1) }

/-- The bucket has room. -/
def bucketRoom (d : SortDesc) (r : SortRun) (e : Nat) : Bool := decide (tget r.counts e 0 < capOf d e)

/-- First pass: slot by slot, token by token (R145). -/
def assignAll (d : SortDesc) (cands : List (List Nat)) : SortRun :=
  (List.range d.k).foldl (fun r j => (List.range d.tokens).foldl (fun (r : SortRun) t =>
    match (nth cands t [])[j]? with
    | none => r
    | some e => if bucketRoom d r e then joinBucket r t j e false false else { r with overflow := r.overflow ++ [(t, j)] }) r) {}

/-- The overflow list under the policy (R146). -/
def settleOverflow (d : SortDesc) (cands : List (List Nat)) (r : SortRun) : SortRun :=
  r.overflow.foldl (fun (r : SortRun) o =>
    let drop := { r with dropped := r.dropped + 1 }
    let holds := fun (e : Nat) => r.placed.any fun x => x.token == o.1 && x.expert == e
    if d.policy = 1 then
      match (((nth cands o.1 []).drop d.k).take d.search).find? fun e => !holds e && bucketRoom d r e with
      | some e => joinBucket r o.1 o.2 e true false
      | none => drop
    else if d.policy = 2 then
      if bucketRoom d r d.shared && !holds d.shared then joinBucket r o.1 o.2 d.shared false true else drop
    else drop) r

/-- Candidates of every token. -/
def sortCands (s : State) (p : Nat) (d : SortDesc) : List (List Nat) :=
  let mask := if d.mask = 0 then [] else hbmRead s p d.mask 128
  (List.range d.tokens).map fun t => rankExperts d mask (tokenScores s p d t)

/-- The finished sort. -/
def runSort (s : State) (p : Nat) (d : SortDesc) : SortRun :=
  let c := sortCands s p d
  settleOverflow d c (assignAll d c)

/-! ### Outputs (R147, R148, R151 to R153) -/

/-- A combine word. -/
def combineWord (x : Placed) : Nat :=
  x.expert + 2 ^ 10 * x.pos + 2 ^ 22 + (if x.rerouted then 2 ^ 23 else 0) + (if x.spilled then 2 ^ 24 else 0)

/-- A bucket entry; its score is that of the original slot's expert. -/
def bucketEntry (s : State) (p : Nat) (d : SortDesc) (cands : List (List Nat)) (x : Placed) : Nat :=
  let e := nth (nth cands x.token []) x.slot 0
  x.token + 2 ^ 12 * x.slot + (if x.rerouted then 2 ^ 15 else 0) + (if x.spilled then 2 ^ 16 else 0)
    + 2 ^ 32 * (toF32 (nth (tokenScores s p d x.token) e .zero)).toNat

/-- The bucket of expert `e`, in arrival order. -/
def bucketOf (r : SortRun) (e : Nat) : List Placed := r.placed.filter fun x => x.expert == e

/-- Cells of one token row. -/
def rowCells (d : SortDesc) : Nat := ceilDiv d.rowBytes 48

/-- Cells sent for a remote bucket (R152). -/
def cellsFor (d : SortDesc) (n : Nat) : Nat := n * rowCells d + ceilDiv (max n 1) 5

/-- The messages of one remote bucket: rows, then manifests, on one queue pair (R152 to R154). -/
def bucketCells (s : State) (p slot die qp gen : Nat) (route : List Nat) (d : SortDesc) (cands : List (List Nat)) (r : SortRun) (e : Nat) :
    List TxMsg :=
  let w := homeOf s p d e / 2 ^ 38 % 1024
  let l := bucketOf r e
  let rows := l.flatMap fun x =>
    let bs := hbmRead s p (d.rows + x.token * d.rowBytes) d.rowBytes
    (List.range (rowCells d)).map fun c =>
      ({ eng := 2080 + die, qp, window := w, gen, pos := x.pos * rowCells d + c, part := p, slot := some slot, route, payload := slice bs (48 * c) 48 } : TxMsg)
  let mans := (List.range (ceilDiv (max l.length 1) 5)).map fun m =>
    ({ eng := 2080 + die, qp, window := w, gen, pos := sortCap d * rowCells d + m, part := p, slot := some slot, route
       payload := padTo 48 (toLe 8 (l.length + 2 ^ 16 * (5 * m) + 2 ^ 32 * myPkg s)
         ++ ((l.drop (5 * m)).take 5).flatMap fun x => toLe 8 (bucketEntry s p d cands x)) } : TxMsg)
  rows ++ mans

/-- The lines that the sorter reads: scores, mask, home table (R141, R268). -/
def sortReads (p : Nat) (d : SortDesc) : List Nat :=
  (rangeLines (hbmAddr p d.scores) (d.tokens * d.experts * scoreBytes d)
    ++ (if d.mask = 0 then [] else rangeLines (hbmAddr p d.mask) 128)
    ++ (if d.home = 0 then [] else rangeLines (hbmAddr p d.home) (8 * d.experts))).dedup

/-- The lines that it writes: the summary and counts, the combine table, `entries` of the buckets. -/
def sortWrites (p : Nat) (d : SortDesc) (entries : List Nat) : List Nat :=
  (rangeLines (hbmAddr p d.out) (64 + 4 * d.experts) ++ rangeLines (hbmAddr p (d.out + combineOff d)) (4 * d.tokens * d.k)
    ++ entries.flatMap fun e => rangeLines (hbmAddr p (d.out + bucketsOff d + 8 * e)) 8).dedup

/-- Write the output region. -/
def writeSort (s : State) (p : Nat) (d : SortDesc) (cands : List (List Nat)) (r : SortRun) (remoteCells : Nat) : State :=
  let unfilled := sumNat (cands.map fun c => d.k - c.length)
  let nans := ((List.range d.tokens).flatMap fun t => (tokenScores s p d t).filter (· == .nan)).length
  let summary := toLe 4 r.placed.length ++ toLe 4 r.dropped ++ toLe 4 (r.placed.filter (·.rerouted)).length
    ++ toLe 4 (r.placed.filter (·.spilled)).length ++ toLe 4 unfilled ++ toLe 4 nans ++ toLe 4 remoteCells ++ toLe 2 (sortCap d)
    ++ List.replicate 34 0
  let counts := (List.range d.experts).flatMap fun e => toLe 4 (tget r.counts e 0)
  let combine := (List.range (d.tokens * d.k)).flatMap fun i =>
    toLe 4 (match r.placed.find? fun x => x.token * d.k + x.slot == i with
      | some x => combineWord x
      | none => 0)
  let entries := r.placed.map fun x => (bucketStart d x.expert + x.pos, bucketEntry s p d cands x)
  let s := hbmWrite (hbmWrite (hbmWrite s p d.out summary) p (d.out + 64) counts) p (d.out + combineOff d) combine
  let s := forAll entries (fun s e => hbmWrite s p (d.out + bucketsOff d + 8 * e.1) (toLe 8 e.2)) s
  touchLines (touchLines s p false (sortReads p d)) p true (sortWrites p d (entries.map (·.1)))

/-- A sort counts no longer among its step's requests. -/
def requestDone (s : State) (slot : Nat) : State := s.modStep slot fun x => { x with requests := x.requests - 1 }

/-! ### Rows -/

/-- SORT_START (R141, R156): the earliest deadline first; a descriptor that fails its checks fails the step. -/
def execSortStart (now die : Nat) (s : State) : Res :=
  timed s now (fun s => engines s && (s.sorter die).withdrawn == 0 && (s.sorter die).testing == none
      && (s.sorter die).run == none && !(s.sorter die).reqs.isEmpty) fun s =>
    match minBy (fun q => deadlineRank q.deadline) (s.sorter die).reqs with
    | none => s
    | some q =>
      let s := s.modSorter die fun x => { x with reqs := x.reqs.erase q }
      match tfind s.steps q.slot with
      | none => s
      | some st =>
        let c := sortStatus s q.part st.job (sortDesc q.desc)
        if c ≠ 0 then feedSorter (if q.skein = 0xFFFF then requestDone s q.slot else failStep s q.slot (BitVec.ofNat 16 c)) die
        else traceStep (s.modSorter die fun x => { x with run := some q }) q.slot 3 0 (2080 + die) 0

/-- Send the remote buckets in expert order; a withheld route fails the step (R152, R389). -/
def sendBuckets (s : State) (q : SortReq) (die : Nat) (d : SortDesc) (cands : List (List Nat)) (r : SortRun) (j : Nat) : State :=
  let remote := (List.range d.experts).filter (isRemote s q.part d)
  remote.foldl (fun s e =>
    let m := (memberOn s j (homeOf s q.part d e / 2 ^ 52)).getD 0xFFFF
    match memberPort s j m with
    | some p =>
      let (qp, s) := draw s
      sendAll s p (bucketCells s q.part q.slot die (qp % 65536) (qp / 65536 % 256) (tget (s.job j).routes m []) d cands r e)
    | none => withholdOp s j m q.slot) s

/-! ### Counts of experts that other packages send to (R154) -/

/-- Key of a bucket's entries from one source package. -/
def manifestKey (idx e pkg : Nat) : Nat := sortKey idx e * 4096 + pkg

/-- The source packages of a local expert: every package of the step's job, this one among them. -/
def sourcePkgs (s : State) (st : Step) : List Nat :=
  match st.job with
  | some (j, _) => (myPkg s :: (s.job j).members.map (·.pkg)).dedup
  | none => [myPkg s]

/-- Once every source's entries for a local expert are known, their sum is its count (R154). -/
def settleExpert (s : State) (slot idx e : Nat) : State :=
  match tfind s.steps slot with
  | none => s
  | some st =>
    let l := (sourcePkgs s st).map fun k => tfind st.manifests (manifestKey idx e k)
    match tfind st.sortExperts idx with
    | some n =>
      if (tfind st.sortCounts (sortKey idx e)).isNone ∧ l.all (·.isSome) then evalCounts s slot idx n [(e, sumNat (l.map (·.getD 0)))]
      else s
    | none => s

/-- The counts of a sort that has ended (R149, R154): with every expert local they decide at once; with a home table this package's
entries of a local expert join those of the other sources. The skeins of an expert that lives elsewhere are decided there, and
here they count 0 (DEDUCED, log 141). -/
def sortCounted (s : State) (q : SortReq) (d : SortDesc) (r : SortRun) : State :=
  let es := List.range d.experts
  if d.home = 0 then evalCounts s q.slot q.idx d.experts (es.map fun e => (e, tget r.counts e 0))
  else
    let here := es.filter fun e => !isRemote s q.part d e
    let away := es.filter (isRemote s q.part d)
    let s := s.modStep q.slot fun x =>
      { x with manifests := here.foldl (fun t e => tput t (manifestKey q.idx e (myPkg s)) (tget r.counts e 0)) x.manifests }
    let s := evalCounts s q.slot q.idx d.experts (away.map fun e => (e, 0))
    forAll here (fun s e => settleExpert s q.slot q.idx e) s

/-- SORT_COMPLETE (R147 to R154): outputs, remote cells, and the counts; a step with no skein left has stopped issuing. -/
def execSortComplete (now die : Nat) (s : State) : Res :=
  timed s now (fun s => engines s && (s.sorter die).run.isSome) fun s =>
    match (s.sorter die).run with
    | none => s
    | some q =>
      match tfind s.steps q.slot with
      | none => s
      | some st =>
        let d := sortDesc q.desc
        if armed s die 10 (2080 + die) then check s die 10 (2080 + die) []
        else if q.skein ≠ 0xFFFF ∧ sortPoisoned s q.part d then report s { code := 0xA402, slots := [q.slot] }
        else
          let s := traceStep s q.slot 4 0 (2080 + die) 0
          let s := requestDone (s.modSorter die fun x => { x with run := none }) q.slot
          let (busy, s) := draw s
          let (e, s) := draw s
          let s := charge s (2080 + die) st.ctx st.ctxGen busy (outBytes d) e
          let s := s.modStep q.slot fun x => { x with lastOp := time s }
          let s := if q.skein = 0xFFFF then s else
            let c := sortCands s q.part d
            let r := runSort s q.part d
            let cells := sumNat (((List.range d.experts).filter (isRemote s q.part d)).map fun e => cellsFor d (bucketOf r e).length)
            let s := writeSort s q.part d c r cells
            let s := match st.job with
              | some (j, _) => sendBuckets s q die d c r j
              | none => s
            let s := settleSkeins (sortCounted s q d r) q.slot
            if d.home = 0 then
              tellPeers s st fun h k => .sorted h k q.idx d.experts ((List.range d.experts).map fun e => (e, tget r.counts e 0))
            else s
          feedSorter s die

/-- MANIFEST_ARRIVAL (R153, R154): a manifest cell of a source package for one expert. With the last cell of every source the
sum decides the expert's skeins. -/
def execManifestArrival (now slot idx expert : Nat) (cell : Manifest) (s : State) : Res :=
  timed s now engines fun s =>
    match tfind s.steps slot with
    | none => s
    | some st =>
      let key := manifestKey idx expert cell.src
      if decide (expert < 1024) && (sourcePkgs s st).contains cell.src && cell.src != myPkg s && decide (max cell.n 1 ≤ cell.first + 5)
          && (tfind st.manifests key).isNone then
        settleSkeins (settleExpert (s.modStep slot fun x => { x with manifests := tput x.manifests key cell.n }) slot idx expert) slot
      else s

end Sys2Proof.Machine
end

