-- ==== Sys2Proof/Machine/Upf.lean ====
section
/-! DEFINITION. The Utnas program format: reading a file (R161 to R191) and validating it in the order of R206, with the codes of
Table Programs-10. A failure is a code and a byte offset (`where`). -/

namespace Sys2Proof.Machine

/-- Failures found so far, in order: code and byte offset. -/
abbrev Bads := List (Nat × Nat)

/-- One check. -/
def bad (ok : Bool) (code at_ : Nat) : Bads := if ok then [] else [(code, at_)]

/-- The later checks run only when the earlier ones hold. -/
def andThen (a : Bads) (b : Unit → Bads) : Bads := if a.isEmpty then b () else a

/-! ### Header and directory (R161 to R164) -/

/-- A directory entry. -/
structure Sec where
  ty : Nat
  off : Nat
  bytes : Nat
  entries : Nat
  /-- byte offset of the entry itself -/
  place : Nat

/-- Number of directory entries. -/
def upfSections (b : List Byte) : Nat := fld b 12 2
/-- `has_fallback`. -/
def upfHasFallback (b : List Byte) : Bool := bitOf (fld b 14 2) 0

/-- The directory (R162). -/
def upfDir (b : List Byte) : List Sec :=
  (List.range (upfSections b)).map fun i =>
    let o := 64 + 16 * i
    { ty := fld b o 2, off := fld b (o + 4) 4, bytes := fld b (o + 8) 4, entries := fld b (o + 12) 4, place := o }

/-- A section, empty when absent. -/
def upfSec (b : List Byte) (ty : Nat) : Sec := ((upfDir b).find? fun s => s.ty == ty).getD ⟨ty, 0, 0, 0, 64⟩

/-- A section is present. -/
def hasSec (b : List Byte) (ty : Nat) : Bool := (upfDir b).any fun s => s.ty == ty

/-- Entry sizes of Table Programs-2; CONST and NAMES have sizes of their own. -/
def entrySizes : List (Nat × Nat) :=
  [(1, 64), (2, 48), (3, 40), (4, 64), (5, 8), (6, 16), (7, 8), (8, 16), (9, 1), (10, 8), (11, 128), (255, 48)]

/-- `entries` and `bytes` agree (R162). -/
def entriesOk (s : Sec) : Bool :=
  (if s.ty = 10 then decide (8 * s.entries ≤ s.bytes) else s.bytes == tget entrySizes s.ty 0 * s.entries)
    && (!(s.ty == 1 || s.ty == 11 || s.ty == 255) || s.entries == 1)

/-- Header checks in byte order. -/
def headerBads (b : List Byte) : Bads :=
  bad (fld b 0 4 == 0x31465055) 0x0301 0
    ++ bad (fld b 4 2 == 1 && fld b 6 2 == 0) 0x0302 4
    ++ bad (fld b 8 4 == b.length && decide (b.length ≤ 2 ^ 28)) 0x0303 8
    ++ bad (decide (6 ≤ upfSections b ∧ upfSections b ≤ 12)) 0x0303 12
    ++ bad (decide (fld b 14 2 < 2)) 0x0306 14
    ++ bad (decide (1 ≤ fld b 16 2 ∧ fld b 16 2 ≤ 65534)) 0x0303 16
    ++ bad (decide (1 ≤ fld b 18 2 ∧ fld b 18 2 ≤ 65534)) 0x0303 18
    ++ bad (decide (1 ≤ fld b 20 2 ∧ fld b 20 2 ≤ 65534)) 0x0303 20
    ++ bad (decide (fld b 22 2 ≤ 65534)) 0x0303 22
    ++ bad (zeroRange b 40 24) 0x0306 40

/-- One directory entry after the previous one, which ended at `prev`. A type repeated next to its first entry is repeated; farther
on it is out of order (DESIGN CHOICE, log 147). -/
def entryBads (b : List Byte) (prevTy : Nat) (prev : Nat) (s : Sec) : Bads :=
  bad ((tfind entrySizes s.ty).isSome) 0x0304 s.place
    ++ bad (zeroRange b (s.place + 2) 2) 0x0306 s.place
    ++ bad (s.ty != prevTy) 0x0304 s.place
    ++ bad (decide (prevTy < s.ty ∧ s.off % 64 = 0 ∧ prev ≤ s.off ∧ s.off + s.bytes ≤ b.length)) 0x0303 s.place
    ++ bad (zeroRange b prev (s.off - prev)) 0x0303 prev
    ++ bad (entriesOk s) 0x0304 s.place

/-- Every directory entry in turn. -/
def dirBads (b : List Byte) : Nat → Nat → List Sec → Bads
  | _, _, [] => []
  | ty, prev, s :: l => entryBads b ty prev s ++ dirBads b s.ty (s.off + s.bytes) l

/-- Required sections and their counts (R163, R164). -/
def presentBads (b : List Byte) : Bads :=
  bad ([1, 2, 3, 4, 8, 255].all (hasSec b) && (hasSec b 5 || decide (fld b 16 2 ≤ 1)) && (hasSec b 6 || fld b 22 2 == 0)
      && hasSec b 11 == upfHasFallback b) 0x0304 64
    ++ [(2, 18), (3, 20), (4, 16), (6, 22)].flatMap (fun e =>
      bad (!hasSec b e.1 || (upfSec b e.1).entries == fld b e.2 2) 0x0304 (upfSec b e.1).place)
    ++ bad (b.length == (upfSec b 255).off + 48) 0x0303 8

/-- Stage 1 of R206. -/
def stage1 (b : List Byte) : Bads :=
  andThen (headerBads b) fun _ => andThen (bad (decide (64 + 16 * upfSections b ≤ b.length)) 0x0303 64
    ++ dirBads b 0 (64 + 16 * upfSections b) (upfDir b)) fun _ => presentBads b

/-! ### Reading the sections -/

/-- Four 32-bit numbers. -/
def quad (b : List Byte) (o : Nat) : List Nat := (List.range 4).map fun i => fld b (o + 4 * i) 4

/-- Table Programs-3. -/
def reqAt (b : List Byte) (o : Nat) : Upf.Req :=
  { formats := fld b o 2, units := fld b (o + 2) 1, native := fld b (o + 3) 1, maxFootprint := fld b (o + 4) 4
    hbmBytes := fld b (o + 8) 8, bobbinBytes := fld b (o + 16) 8, members := fld b (o + 24) 2, inputs := fld b (o + 26) 1
    outputs := fld b (o + 27) 1 }

/-- Table Programs-4. -/
def tensorAt (b : List Byte) (o : Nat) : Upf.Tensor :=
  { format := fld b o 1 % 16, role := fld b o 1 / 16, kind := fld b (o + 1) 1, rank := fld b (o + 2) 1, flags := fld b (o + 3) 1
    binding := fld b (o + 4) 4, offset := fld b (o + 8) 8, extent := quad b (o + 16), scale := fld b (o + 32) 2
    meta24 := fld b (o + 34) 2, zmap := fld b (o + 36) 2, fmap := fld b (o + 38) 2, bytes := fld b (o + 40) 8 }

/-- Table Programs-5. -/
def viewAt (b : List Byte) (o : Nat) : Upf.View := { tensor := fld b o 2, start := quad b (o + 8), extent := quad b (o + 24) }

/-- An instruction of Table Programs-9; an unknown `op` reads as NOP and is rejected by its code. -/
def insnAt (b : List Byte) (o : Nat) : SkInsn :=
  let a := fld b (o + 2) 2
  let y := fld b (o + 4) 2
  let d := fld b (o + 6) 2
  let i := fld b (o + 8) 8
  match fld b o 1 with
  | 0x01 => .fin
  | 0x02 => .skipz (bits i 3 0) (bits i 27 16)
  | 0x03 => .skipnz (bits i 3 0) (bits i 27 16)
  | 0x04 => .seti (bits i 3 0) (BitVec.ofNat 32 (bits i 63 32))
  | 0x05 => .pred (bits i 3 0)
  | 0x06 => .stat (bits i 3 0)
  | 0x07 => .sst (bits i 3 0) (bits i 63 32) d
  | 0x10 => .fetch a d (bits i 15 0)
  | 0x11 => .send a d (bits i 15 0)
  | 0x12 => .coll a d (bits i 1 0) (bits i 3 2) (bits i 27 16) (bits i 44 32) (bits i 59 48)
  | 0x20 => .mma a y (bits i 0 0) (bitOf i 1) (bitOf i 2) (bits i 7 4)
  | 0x21 => .drain d (bits i 0 0) (bits i 2 1) (bitOf i 3) (bits i 8 4)
  | 0x30 => .vld a (bits i 4 0) (bits i 6 5) (bits i 9 8)
  | 0x31 => .vst d (bits i 4 0) (bits i 6 5) (bits i 9 8) (bitOf i 10) (bitOf i 11) (bitOf i 12)
  | 0x32 => .vop (bits i 3 0) (bits i 5 4) (bits i 12 8) (bits i 20 16) (bits i 28 24) (bits i 36 32) (bits i 42 40)
  | 0x33 => .vfn (bits i 1 0) (bits i 12 8) (bits i 36 32)
  | 0x34 => .vred (bits i 1 0) (bits i 12 8) (bits i 36 32)
  | 0x35 => .mapclr d
  | 0x40 => .sort a (bits i 7 0)
  | 0x50 => .digest a d
  | _ => .nop

/-- Opcode, the bits of `imm` it names, and the view operands it uses (bit 0 `a`, bit 1 `b`, bit 2 `d`). -/
def opForms : List (Nat × Nat × Nat) :=
  [(0x00, 0, 0), (0x01, 0, 0), (0x02, 0x0FFF000F, 0), (0x03, 0x0FFF000F, 0), (0x04, 0xFFFFFFFF0000000F, 0), (0x05, 0xF, 0),
   (0x06, 0xF, 0), (0x07, 0xFFFFFFFF0000000F, 4), (0x10, 0xFFFF, 5), (0x11, 0xFFFF, 5), (0x12, 0x0FFF1FFF0FFF000F, 5),
   (0x20, 0xF7, 3), (0x21, 0x1FF, 4), (0x30, 0x37F, 1), (0x31, 0x1F7F, 4), (0x32, 0x71F1F1F1F3F, 0), (0x33, 0x1F00001F03, 0),
   (0x34, 0x1F00001F03, 0), (0x35, 0, 4), (0x40, 0xFF, 1), (0x50, 0, 5)]

/-- Table Programs-6 with the skein's code. -/
def skeinAt (b : List Byte) (code o : Nat) : Upf.Skein :=
  { codeOffset := fld b o 4, codeBytes := fld b (o + 4) 4, cost := fld b (o + 8) 2, formats := fld b (o + 10) 2
    units := fld b (o + 12) 1, kind := fld b (o + 13) 1, layer := fld b (o + 14) 2, footprint := fld b (o + 16) 4
    operator := fld b (o + 20) 2, predSort := fld b (o + 22) 1, predExpert := fld b (o + 24) 2, predChunk := fld b (o + 26) 2
    predN := fld b (o + 28) 2, remoteOps := fld b (o + 30) 2
    code := (List.range (fld b (o + 4) 4 / 16)).map fun k => insnAt b (code + fld b o 4 + 16 * k) }

/-- Entries of a section. -/
def secRows {α : Type} (b : List Byte) (ty n : Nat) (f : Nat → α) : List α :=
  (List.range (upfSec b ty).entries).map fun i => f ((upfSec b ty).off + n * i)

/-- The file as data. -/
def readUpf (b : List Byte) : Upf.File :=
  let c := (upfSec b 8).off
  let o := (upfSec b 11).off
  { req := reqAt b (upfSec b 1).off
    tensors := secRows b 2 48 (tensorAt b)
    views := secRows b 3 40 (viewAt b)
    skeins := secRows b 4 64 (skeinAt b c)
    edges := secRows b 5 8 fun o => { src := fld b o 2, dst := fld b (o + 2) 2, kind := fld b (o + 4) 1 }
    cheaps := secRows b 6 16 fun o => { after := fld b o 2, safe := bitOf (fld b (o + 2) 1) 0, live := fld b (o + 8) 8 }
    lives := secRows b 7 8 fun o => { tensor := fld b o 2, first := fld b (o + 2) 2, last := fld b (o + 4) 2 }
    const := slice b (upfSec b 9).off (upfSec b 9).bytes
    fallback := if !upfHasFallback b then none else some
      { program := BitVec.ofNat 384 (leNat (slice b o 48)), bobbin := BitVec.ofNat 384 (leNat (slice b (o + 48) 48))
        inMap := (List.range 8).map fun i => fld b (o + 96 + i) 1, outMap := (List.range 8).map fun i => fld b (o + 104 + i) 1 }
    work := fld b 24 8, span := fld b 32 8
    digest := BitVec.ofNat 384 (leNat (slice b (upfSec b 255).off 48)) }

/-! ### Sections (R165 to R188) -/

/-- REQ. -/
def reqBads (b : List Byte) (r : Upf.Req) : Bads :=
  let o := (upfSec b 1).off
  bad (decide (r.formats < 2 ^ 15)) 0x0306 o ++ bad (decide (r.units < 32)) 0x0306 (o + 2)
    ++ bad (decide (r.native < 32)) 0x0306 (o + 3) ++ bad (decide (1 ≤ r.members ∧ r.members ≤ 4096)) 0x0303 (o + 24)
    ++ bad (decide (r.inputs ≤ 8)) 0x0303 (o + 26) ++ bad (decide (r.outputs ≤ 8)) 0x0303 (o + 27)
    ++ bad (zeroRange b (o + 28) 36) 0x0306 (o + 28)

/-- A companion is of the role, kind and size that its owner needs (R168, R169). -/
def companionOk (f : Upf.File) (t : Upf.Tensor) (need : Bool) (j role bytes : Nat) : Bool :=
  if !need then j == 0xFFFF
  else match f.tensors[j]? with
    | some c => c.role == role && c.kind == t.kind && c.bytes == bytes
    | none => false

/-- Rank and extents (R167). -/
def extentsOk (t : Upf.Tensor) : Bool :=
  decide (1 ≤ t.rank ∧ t.rank ≤ 4) && (List.range 4).all fun i => if i < t.rank then decide (1 ≤ extT t i) else extT t i == 1

/-- Every tensor that names tensor `i` as a companion has the same binding (R168). -/
def bindingOk (f : Upf.File) (t : Upf.Tensor) (i : Nat) : Bool :=
  f.tensors.all fun x => x.role != 0 || x.binding == t.binding || !([x.scale, x.meta24, x.zmap, x.fmap].contains i)

/-- One tensor declaration. A binding lies below REQ's count of its slots, and a slot has one primary tensor (DESIGN CHOICE,
log 145). -/
def tensorBads (f : Upf.File) (at_ : Nat) (i : Nat) : Bads :=
  let t := tensorOf f i
  let o := at_ + 48 * i
  let prim := t.role == 0
  let blk := blockLen t.format
  let shape := extentsOk t
    && (if t.kind = 0 then decide (t.binding < f.req.inputs) else if t.kind = 1 then decide (t.binding < f.req.outputs)
        else t.binding == 0)
    && (!(prim && decide (t.kind < 2)) || (f.tensors.zipIdx.all fun e => e.2 == i || e.1.role != 0 || e.1.kind != t.kind
        || e.1.binding != t.binding))
    && (if t.kind = 5 then t.offset % 64 == 0 && decide (t.offset + t.bytes ≤ f.const.length) else t.kind == 2 || t.offset == 0)
    && (t.kind != 4 || decide (t.bytes ≤ 4194304))
    && (!isMapped t || (decide (2 ≤ t.rank) && extT t 0 % 8 == 0 && extT t 1 % 8 == 0 && decide (2 ≤ t.kind)))
    && (!prim || t.bytes == primaryBytes t) && (prim || (t.rank == 1 && bindingOk f t i))
  let comps := if prim then
      companionOk f t (isBlock t.format) t.scale 1 (scaleBytes t) && companionOk f t (isSparse t) t.meta24 2 (metaBytes t)
        && companionOk f t (isMapped t) t.zmap 3 (planeBytes t) && companionOk f t (isMapped t) t.fmap 4 (planeBytes t)
    else t.format == 0 && t.scale == 0xFFFF && t.meta24 == 0xFFFF && t.zmap == 0xFFFF && t.fmap == 0xFFFF
  bad (decide (t.flags < 8)) 0x0306 o ++ bad (decide (t.format ≠ 15 ∧ t.role ≤ 4 ∧ t.kind ≤ 5)) 0x0307 o
    ++ bad shape 0x0310 o ++ bad (!(isSparse t && isMapped t)) 0x0312 o
    ++ bad (!isSparse t || (extT t 1 % 4 == 0 && extT t 1 % (2 * classDepth t.format) == 0 && extT t 1 % blk == 0)) 0x0313 o
    ++ bad comps 0x0311 o

/-- One view (R171, R172). A dense view of a block format starts and ends on blocks of the tensor's element order in every row
(R97). -/
def viewBads (b : List Byte) (f : Upf.File) (at_ : Nat) (i : Nat) : Bads :=
  let v := viewOf f i
  let t := tensorOf f v.tensor
  let o := at_ + 40 * i
  let blk := blockLen t.format
  let rowsOn := fun (k : Nat) => extT t 0 % k == 0 || (coords { v with extent := v.extent.set 0 1 }).all fun c => linIdx t c % k == 0
  let onFull := fun (d k : Nat) => startV v d % k == 0 && (startV v d + extV v d) % k == 0
  bad (zeroRange b (o + 2) 6) 0x0306 o
    ++ bad (decide (v.tensor < f.tensors.length) && t.role == 0
      && (List.range 4).all (fun d => decide (1 ≤ extV v d ∧ startV v d + extV v d ≤ extT t d))
      && (!isBlock t.format || (if isSparse t then onFull 1 blk else onFull 0 blk && rowsOn blk))
      && (!isMapped t || (onFull 0 8 && onFull 1 8)) && (!isSparse t || onFull 1 4)) 0x0317 o

/-- One skein entry (R173, R175). -/
def entrySkeinBads (b : List Byte) (f : Upf.File) (at_ : Nat) (i : Nat) : Bads :=
  let k := skeinOf f i
  let o := at_ + 64 * i
  bad (decide (k.units < 32) && zeroRange b (o + 23) 1 && zeroRange b (o + 32) 32 && decide (k.formats < 2 ^ 15)) 0x0306 o
    ++ bad (decide (k.kind ≤ 1)) 0x0307 o
    ++ bad (k.codeOffset % 16 == 0 && k.codeBytes % 16 == 0 && decide (16 ≤ k.codeBytes ∧ k.codeBytes ≤ 65536
      ∧ k.codeOffset + k.codeBytes ≤ (upfSec b 8).bytes)) 0x0320 o
    ++ bad (decide (k.footprint ≤ 4194304)) 0x0321 o
    ++ bad (decide (1 ≤ k.cost ∧ k.cost ≤ 8192)) 0x0323 o
    ++ bad (if k.kind = 0 then k.predSort == 0 && k.predExpert == 0 && k.predChunk == 0 && k.predN == 0
            else decide (1 ≤ k.predN ∧ k.predN ≤ 4096)) 0x0331 o

/-- A byte string is UTF-8: continuation bytes due, and the range of the next one. -/
def utf8Ok : List Byte → Nat → Nat → Nat → Bool
  | [], n, _, _ => n == 0
  | c :: cs, 0, _, _ =>
    let x := c.toNat
    if x < 0x80 then utf8Ok cs 0 0 0
    else if 0xC2 ≤ x ∧ x ≤ 0xDF then utf8Ok cs 1 0x80 0xBF
    else if x = 0xE0 then utf8Ok cs 2 0xA0 0xBF
    else if x = 0xED then utf8Ok cs 2 0x80 0x9F
    else if 0xE1 ≤ x ∧ x ≤ 0xEF then utf8Ok cs 2 0x80 0xBF
    else if x = 0xF0 then utf8Ok cs 3 0x90 0xBF
    else if 0xF1 ≤ x ∧ x ≤ 0xF3 then utf8Ok cs 3 0x80 0xBF
    else if x = 0xF4 then utf8Ok cs 3 0x80 0x8F
    else false
  | c :: cs, n + 1, lo, hi => decide (lo ≤ c.toNat ∧ c.toNat ≤ hi) && utf8Ok cs n 0x80 0xBF

/-- One NAMES entry (R188). -/
def nameBads (b : List Byte) (i : Nat) : Bads :=
  let s := upfSec b 10
  let t := fld b (s.off + 8 * i + 4) 4
  let str := (slice b (s.off + t) (s.bytes - t)).takeWhile (· != 0)
  bad (decide (t + str.length < s.bytes ∧ str.length ≤ 255) && utf8Ok str 0 0 0) 0x0352 (s.off + 8 * i)

/-- Stage 3 of R206: sections in directory order. -/
def stage3 (b : List Byte) (f : Upf.File) : Bads :=
  let each := fun (ty : Nat) (g : Nat → Bads) => (List.range (upfSec b ty).entries).flatMap g
  let o := fun (ty : Nat) => (upfSec b ty).off
  andThen (reqBads b f.req) fun _ =>
  andThen (each 2 (tensorBads f (o 2))) fun _ =>
  andThen (each 3 (viewBads b f (o 3))) fun _ =>
  andThen (each 4 (entrySkeinBads b f (o 4))) fun _ =>
    each 5 (fun i => bad (zeroRange b (o 5 + 8 * i + 5) 3) 0x0306 (o 5 + 8 * i)
        ++ bad (decide (fld b (o 5 + 8 * i + 4) 1 ≤ 2)) 0x0307 (o 5 + 8 * i))
      ++ each 6 (fun i => bad (decide (fld b (o 6 + 16 * i + 2) 1 < 2) && zeroRange b (o 6 + 16 * i + 3) 5) 0x0306 (o 6 + 16 * i))
      ++ each 7 (fun i => bad (zeroRange b (o 7 + 8 * i + 6) 2) 0x0306 (o 7 + 8 * i))
      ++ each 10 (nameBads b)
      ++ (if hasSec b 11 then bad (zeroRange b (o 11 + 112) 16) 0x0306 (o 11 + 112) else [])

/-! ### Skein code (R186 to R201) -/

/-- Views that an instruction names: view, and whether the instruction writes it here. Sources of a remote FETCH and
destinations of a remote SEND lie in another member's instance (R193). -/
def insnViews : SkInsn → List (Nat × Bool)
  | .sst _ _ d => [(d, true)]
  | .fetch a d m => (if m = 0xFFFF then [(a, false)] else []) ++ [(d, true)]
  | .send a d m => (a, false) :: (if m = 0xFFFF then [(d, true)] else [])
  | .coll a d .. => [(a, false), (d, true)]
  | .mma a y .. => [(a, false), (y, false)]
  | .drain d .. => [(d, true)]
  | .vld a .. => [(a, false)]
  | .vst d .. => [(d, true)]
  | .mapclr d => [(d, true)]
  | .sort a _ => [(a, false)]
  | .digest a d => [(a, false), (d, true)]
  | _ => []

/-- Every view an instruction names, remote ones among them, and whether it writes the view. -/
def insnAll : SkInsn → List (Nat × Bool)
  | .fetch a d _ => [(a, false), (d, true)]
  | .send a d _ => [(a, false), (d, true)]
  | i => insnViews i

/-- Every view an instruction names. -/
def insnAllViews (i : SkInsn) : List Nat := (insnAll i).map (·.1)

/-- An instruction's accesses to map planes: passes read them, clears and map-generating stores write them (R129, R131). -/
def usesPlanes : SkInsn → Bool
  | .mma .. => true
  | .mapclr _ => true
  | .vst _ _ _ _ _ _ maps => maps
  | _ => false

/-- An instruction's accesses to the elements themselves: a clear touches the planes alone (R131). -/
def usesElements : SkInsn → Bool
  | .mapclr _ => false
  | _ => true

/-- Tensors that an instruction touches here and whether it writes them: the primaries of its views with their scales and
metadata, and the planes where it uses them (R168, R171, R179). -/
def insnTensors (f : Upf.File) (i : SkInsn) : List (Nat × Bool) :=
  (insnViews i).flatMap fun v =>
    let n := (viewOf f v.1).tensor
    let t := tensorOf f n
    (((if usesElements i then [n, t.scale, t.meta24] else []) ++ (if usesPlanes i then [t.zmap, t.fmap] else [])).filter
      (· != 0xFFFF)).map fun j => (j, v.2)

/-- A remote operation (R173). -/
def isRemoteOp : SkInsn → Bool
  | .fetch _ _ m => m != 0xFFFF
  | .send _ _ m => m != 0xFFFF
  | .coll .. => true
  | _ => false

/-- Tensor of a view. -/
def vt (f : Upf.File) (v : Nat) : Upf.Tensor := tensorOf f (viewOf f v).tensor

/-- Bytes of a view in memory: packed elements, scales, and the metadata of a `sparse24` view (R562, R587). -/
def viewMem (f : Upf.File) (i : Nat) : Nat :=
  let v := viewOf f i
  let t := vt f i
  let n := viewCount v
  let rest := extV v 2 * extV v 3
  let sc := if !isBlock t.format then 0
    else if isSparse t then extV v 0 * ceilDiv (extV v 1) (blockLen t.format) * rest
    else ceilDiv n (blockLen t.format)
  packedBytes t.format (if isSparse t then n / 2 else n) + sc + (if isSparse t then ceilDiv (n / 4) 2 else 0)

/-- Contract cost (Table Programs-9). -/
def insnCost (f : Upf.File) : SkInsn → Nat
  | .fetch .. => 0
  | .mma a y .. =>
    let d := min (classDepth (vt f a).format) (classDepth (vt f y).format) * (if isSparse (vt f y) then 2 else 1)
    max (ceilDiv (extV (viewOf f a) 0) d) 48 + 12
  | .drain .. => 48
  | .vld a .. => ceilDiv (viewMem f a) 256 + 6
  | .vst d .. => ceilDiv (viewMem f d) 256 + 6
  | .vop .. => 4
  | .vfn .. => 12
  | .vred .. => 10
  | .mapclr d =>
    let v := viewOf f d
    ceilDiv (2 * ceilDiv (extV v 0 / 8 * (extV v 1 / 8) * (extV v 2 * extV v 3)) 8) 256 + 6
  | .digest a _ => ceilDiv (viewMem f a) 256 + 16
  | _ => 1

/-- Formats that reducers carry (Table Formats-6). -/
def reducerFmt (c : Nat) : Bool := [0, 1, 2, 3, 4, 8, 11].contains c

/-- Encodings outside their table (0x0307). -/
def encodingOk : SkInsn → Bool
  | .coll _ _ _ red .. => decide (red ≤ 2)
  | .drain _ _ rnd .. => rnd != 3
  | .vld _ _ lane rnd => rnd != 3 && lane != 3
  | .vst _ _ lane rnd .. => rnd != 3 && lane != 3
  | .vop fn lane _ _ _ _ rel => decide (fn ≤ 6 ∧ rel ≤ 5) && (lane != 3 || decide (3 ≤ fn))
  | .vred fn .. => decide (fn ≤ 2)
  | _ => true

/-- Formats that the unit does not accept (0x0314; R44, R119, R192, R195, R198, R405). -/
def formatOk (f : Upf.File) : SkInsn → Bool
  | .mma a y .. => (vt f a).format != 0 && (vt f y).format != 0
  | .drain d .. => decide ((vt f d).format ≤ 10)
  | .fetch a d _ => (vt f a).format == (vt f d).format
  | .send a d _ => (vt f a).format == (vt f d).format
  | .coll a d pat .. => reducerFmt (vt f a).format && reducerFmt (vt f d).format && (decide (2 ≤ pat) || (vt f d).format != 11)
  | .sst _ _ d => (vt f d).format == 0
  | .vld a _ lane _ => (vt f a).format != 0 || lane == 0
  | .vst d _ lane .. => (vt f d).format != 0 || lane == 0
  | .sort a _ => decide ((vt f a).format ≤ 2)
  | _ => true

/-- The K range of a pass starts and ends on a block boundary of each block-format operand (R46, R126). -/
def kOnBlocks (f : Upf.File) (a y : Nat) : Bool :=
  [(vt f a).format, (vt f y).format].all fun c => startV (viewOf f a) 0 % blockLen c == 0 && startV (viewOf f y) 1 % blockLen c == 0
    && extV (viewOf f a) 0 % blockLen c == 0

/-- The K range of a 2:4 pass is a multiple of 4 and of twice the depth of its class (R126). -/
def kOnDepth (f : Upf.File) (a y : Nat) : Bool :=
  !isSparse (vt f y) || (extV (viewOf f a) 0 % 4 == 0
    && extV (viewOf f a) 0 % (2 * min (classDepth (vt f a).format) (classDepth (vt f y).format)) == 0)

/-- Uses of `sparse24` tensors (0x0313; R126, R128). -/
def sparseOk (f : Upf.File) : SkInsn → Bool
  | .mma a y .. => !isSparse (vt f a) && kOnDepth f a y
  | .vst d _ _ _ _ comp _ => isSparse (vt f d) == comp
  | .fetch a d _ => isSparse (vt f a) == isSparse (vt f d)
  | .send a d _ => isSparse (vt f a) == isSparse (vt f d)
  | .digest _ d => !isSparse (vt f d)
  | i => (insnAllViews i).all fun v => !isSparse (vt f v)

/-- Shapes (0x0317; R46, R53, R195, R198, R586). -/
def shapeOk (f : Upf.File) : SkInsn → Bool
  | .fetch a d _ => (viewOf f a).extent == (viewOf f d).extent
  | .send a d _ => (viewOf f a).extent == (viewOf f d).extent
  | .vld a _ lane _ => decide (viewCount (viewOf f a) ≤ if lane = 0 then 128 else 256)
  | .vst d _ lane .. => decide (viewCount (viewOf f d) ≤ if lane = 0 then 128 else 256)
  | .mma a y .. =>
    let va := viewOf f a
    let vb := viewOf f y
    let wide := [(vt f a).format, (vt f y).format].any fun c => c == 1 || c == 2
    extV va 0 == extV vb 1 && decide (extV va 1 ≤ 48 ∧ extV vb 0 ≤ if wide then 24 else 48)
      && extV va 2 == 1 && extV va 3 == 1 && extV vb 2 == 1 && extV vb 3 == 1 && kOnBlocks f a y
  | .sort a _ => viewMem f a == 64
  | .digest _ d => decide (64 ≤ viewCount (viewOf f d) * fmtBits (vt f d).format)
  | _ => true

/-- Member fields (0x0335; R193); a COLL's members are members of the program. -/
def memberOk (members : Nat) : SkInsn → Bool
  | .fetch _ _ m => m == 0xFFFF || (members != 1 && (m / 4096 == 4 || decide (m < members ∧ m < 4096)))
  | .send _ _ m => m == 0xFFFF || (members != 1 && (m / 4096 == 4 || decide (m < members ∧ m < 4096)))
  | .coll _ _ _ _ first n root => decide (2 ≤ n ∧ first + n ≤ members ∧ root < n)
  | _ => true

/-- The bank's accumulator form before instruction `k`: none when no pass has written it. -/
def bankForm (f : Upf.File) (code : List SkInsn) (k bank : Nat) : Option Bool :=
  (code.take k).foldl (fun o i => match i with
    | .mma a y b .. => if b = bank then some (isInt (vt f a).format && isInt (vt f y).format) else o
    | _ => o) none

/-- Malformed code (0x0320; R118, R194, R197, R198, R586). -/
def placedOk (f : Upf.File) (code : List SkInsn) (k : Nat) : SkInsn → Bool
  | .fetch _ d _ => (code.take k).all isFetch && (vt f d).kind == 4
  | .send a _ _ => (vt f a).kind == 4
  | .sst _ off d => off % 4 == 0 && decide (off + 4 ≤ viewMem f d)
  | .skipz _ n => decide (1 ≤ n ∧ k + n + 1 < code.length)
  | .skipnz _ n => decide (1 ≤ n ∧ k + n + 1 < code.length)
  | .mma a y bank clear .. => clear || bankForm f code k bank == none
      || bankForm f code k bank == some (isInt (vt f a).format && isInt (vt f y).format)
  | .drain d bank _ _ sh => sh == 0 || (isInt (vt f d).format && bankForm f code k bank != some false)
  | _ => true

/-- The descriptor that a view of a constant holds. -/
def constDesc (f : Upf.File) (v : Nat) : SortDesc :=
  let t := vt f v
  sortDesc (slice f.const (t.offset + linIdx t (nth (coords (viewOf f v)) 0 (0, 0, 0, 0)) * fmtBits t.format / 8) 64)

/-- Constant sort descriptors (R141, R207): the status of the first broken field, 0 for none or for a descriptor that is no
constant. What a home table holds is seen at the sort. -/
def constSort (s : State) (p : Nat) (f : Upf.File) (v : Nat) : Nat :=
  let t := vt f v
  if t.kind ≠ 5 then 0
  else
    let d := constDesc f v
    if d.home = 0 then sortStatus s p none d
    else
      let inside := fun (a n : Nat) => decide (a + n ≤ objSpace (s.part p))
      let c := sortStatus s p none { d with home := 0, rows := 0, rowBytes := 0 }
      if c ≠ 0 then c
      else if !inside d.home (8 * d.experts) || !inside d.rows (d.tokens * d.rowBytes) then 0x0417
      else if d.rowBytes < 16 ∨ 16384 < d.rowBytes ∨ d.rowBytes % 16 ≠ 0 then 0x0418 else 0

/-- One instruction; `o` is its byte offset. An operand field that the operation does not use holds 0xFFFF, or is a reserved field
that is nonzero (DESIGN CHOICE, log 148). -/
def insnBads (s : State) (p : Nat) (b : List Byte) (f : Upf.File) (kind : Nat) (code : List SkInsn) (o k : Nat) : Bads :=
  let i := nth code k .nop
  match tfind opForms (fld b o 1) with
  | none => [(0x0307, o)]
  | some (mask, uses) =>
    let unused := fun (n off : Nat) => bitOf uses n || fld b (o + off) 2 == 0xFFFF
    andThen (bad (fld b (o + 1) 1 == 0 && fld b (o + 8) 8 &&& mask == fld b (o + 8) 8 && unused 0 2 && unused 1 4 && unused 2 6) 0x0306 o
      ++ bad (encodingOk i) 0x0307 o
      ++ bad ((insnAllViews i).all fun v => decide (v < f.views.length)) 0x0317 o) fun _ =>
    bad (placedOk f code k i) 0x0320 o ++ bad (formatOk f i) 0x0314 o ++ bad (sparseOk f i) 0x0313 o ++ bad (shapeOk f i) 0x0317 o
      ++ (match i with
        | .vst d _ _ _ _ _ maps => bad (viewCount (viewOf f d) % blockLen (vt f d).format == 0) 0x0315 o
            ++ bad (!maps || isMapped (vt f d)) 0x0316 o
        | .mapclr d => bad (isMapped (vt f d)) 0x0316 o
        | .pred _ => bad (kind == 1) 0x0331 o
        | .sort a _ => let c := constSort s p f a; bad (c == 0) c o
        | _ => [])
      ++ bad (memberOk f.req.members i) 0x0335 o

/-- Boxes of two views of one tensor overlap. -/
def overlaps (v w : Upf.View) : Bool :=
  v.tensor == w.tensor && (List.range 4).all fun d =>
    decide (startV v d < startV w d + extV w d ∧ startV w d < startV v d + extV v d)

/-- Scratchpad buffers that a skein's views name. -/
def namedScratch (f : Upf.File) (k : Upf.Skein) : List Nat :=
  (((k.code.flatMap insnAllViews).map fun v => (viewOf f v).tensor).filter fun t => (tensorOf f t).kind == 4).dedup

/-- Format bits of a skein's code. -/
def codeFormats (f : Upf.File) (k : Upf.Skein) : Nat :=
  sumNat ((((k.code.flatMap insnAllViews).map fun v => (vt f v).format).dedup).map fun c => 2 ^ c)

/-- Unit bits of a skein's code (Table Programs-3). -/
def codeUnits (f : Upf.File) (k : Upf.Skein) : Nat :=
  let has := fun (c : SkInsn → Bool) (n : Nat) => if k.code.any c then 2 ^ n else 0
  has (fun i => match i with | .mma a y .. => isMapped (vt f a) || isMapped (vt f y) | _ => false) 0
    + has (fun i => match i with | .coll .. => true | _ => false) 1
    + has (fun i => match i with | .digest .. => true | _ => false) 2
    + has (fun i => match i with | .sort .. => true | _ => false) 3
    + has isRemoteOp 4

/-- The code of one skein (stage 4 of R206). -/
def codeBads (s : State) (p : Nat) (b : List Byte) (f : Upf.File) (n : Nat) : Bads :=
  let k := skeinOf f n
  let base := (upfSec b 8).off + k.codeOffset
  let o := (upfSec b 4).off + 64 * n
  let ends := k.code.zipIdx.filter fun e => e.1 == .fin
  andThen ((List.range k.code.length).flatMap fun i => insnBads s p b f k.kind k.code (base + 16 * i) i) fun _ =>
  bad (ends.map (·.2) == [k.code.length - 1]) 0x0320 base
    ++ bad (decide (sumNat ((namedScratch f k).map fun t => (tensorOf f t).bytes) ≤ k.footprint)) 0x0321 o
    ++ (k.code.zipIdx.flatMap fun e => (insnAll e.1).flatMap fun v =>
      bad (!v.2 || ((vt f v.1).kind != 2 && (vt f v.1).kind != 5 && !isReadOnly (vt f v.1))) 0x0322 (base + 16 * e.2))
    ++ (k.code.zipIdx.flatMap fun e => match e.1 with
      | .send a .. => (k.code.zipIdx.drop (e.2 + 1)).flatMap fun w => (insnViews w.1).flatMap fun v =>
          bad (!(v.2 && overlaps (viewOf f v.1) (viewOf f a))) 0x0322 (base + 16 * w.2)
      | .coll a .. => (k.code.zipIdx.drop (e.2 + 1)).flatMap fun w => (insnViews w.1).flatMap fun v =>
          bad (!(v.2 && overlaps (viewOf f v.1) (viewOf f a))) 0x0322 (base + 16 * w.2)
      | _ => [])
    ++ bad (codeFormats f k == k.formats && codeUnits f k == k.units && (k.code.filter isRemoteOp).length == k.remoteOps) 0x0322 o
    ++ bad (sumNat (k.code.map (insnCost f)) == k.cost) 0x0323 o

/-- Stage 4 of R206: every skein's code, then the unions of REQ (R165). -/
def stage4 (s : State) (p : Nat) (b : List Byte) (f : Upf.File) : Bads :=
  let ors := fun (g : Upf.Skein → Nat) => f.skeins.foldl (fun a k => a ||| g k) 0
  andThen ((List.range f.skeins.length).flatMap (codeBads s p b f)) fun _ =>
    bad (ors (·.formats) == f.req.formats && ors (·.units) == f.req.units) 0x0322 (upfSec b 1).off

/-! ### Graph (R131, R176 to R182) -/

/-- Skeins with a path of edges to each skein, given that edges point forward. -/
def ancestors (f : Upf.File) : Tab (List Nat) :=
  (List.range f.skeins.length).foldl (fun t j =>
    tput t j (((f.edges.filter fun e => e.dst == j).flatMap fun e => e.src :: tget t e.src []).dedup)) []

/-- Views that a skein reads or writes. -/
def accesses (f : Upf.File) (n : Nat) : List (Nat × Bool) := (skeinOf f n).code.flatMap insnViews

/-- Two skeins conflict on a tensor (R177). -/
def conflict (f : Upf.File) (i j : Nat) : Bool :=
  (accesses f i).any fun x => (accesses f j).any fun y => (x.2 || y.2) && overlaps (viewOf f x.1) (viewOf f y.1)

/-- The skein that issues a sort index. -/
def sortSkein (f : Upf.File) (idx : Nat) : Option Nat := f.skeins.findIdx? fun k => (sortsOf k).contains idx

/-- Experts of a sort as far as the file tells: those of a constant descriptor, else the most that Table Sparse-4 allows. -/
def predExperts (f : Upf.File) (idx : Nat) : Nat :=
  (f.skeins.flatMap fun k => k.code.filterMap fun i => match i with
    | .sort a x => if x = idx then some (if (vt f a).kind = 5 then (constDesc f a).experts else 1024) else none
    | _ => none).head?.getD 0

/-- Edges and conditional skeins. A conditional skein has one sort edge, from the skein of its sort, and its expert is one of the
sort's (R173, R175, R177). Two edges between the same skeins are duplicates whatever their kinds (DESIGN CHOICE, log 144). -/
def edgeBads (b : List Byte) (f : Upf.File) : Bads :=
  let n := f.skeins.length
  (f.edges.zipIdx.flatMap fun e =>
    bad (decide (e.1.src < e.1.dst ∧ e.1.dst < n) && (f.edges.take e.2).all fun d => d.src != e.1.src || d.dst != e.1.dst)
      0x0330 ((upfSec b 5).off + 8 * e.2))
    ++ (f.skeins.zipIdx.flatMap fun e =>
      let o := (upfSec b 4).off + 64 * e.2
      bad ((sortsOf e.1).all (fun i => ((f.skeins.flatMap sortsOf).filter (· == i)).length == 1)) 0x0331 o
        ++ bad (e.1.kind == 0 || (match sortSkein f e.1.predSort with
            | some k => ((f.edges.filter fun d => d.dst == e.2 && d.kind == 2).map (·.src)) == [k]
                && decide (e.1.predExpert < predExperts f e.1.predSort)
            | none => false)) 0x0331 o)

/-- Conflicts without a path. -/
def conflictBads (b : List Byte) (f : Upf.File) : Bads :=
  let anc := ancestors f
  (List.range f.skeins.length).flatMap fun j => (List.range j).flatMap fun i =>
    bad (!conflict f i j || (tget anc j []).contains i) 0x0332 ((upfSec b 4).off + 64 * j)

/-- Cheap points and intervals (R178, R180). -/
def cheapBads (b : List Byte) (f : Upf.File) : Bads :=
  let n := f.skeins.length
  let o := (upfSec b 6).off
  andThen (f.cheaps.zipIdx.flatMap fun e =>
    bad (decide (e.1.after + 1 < n) && (e.2 == 0 || decide ((nth f.cheaps (e.2 - 1) ⟨0, false, 0⟩).after < e.1.after))) 0x0340 (o + 16 * e.2)) fun _ =>
  let lows := 0 :: f.cheaps.map (·.after + 1)
  let highs := f.cheaps.map (·.after + 1) ++ [n]
  (lows.zip highs).zipIdx.flatMap fun e =>
    bad (decide (longest f (fun k => decide (e.1.1 ≤ k ∧ k < e.1.2)) (·.cost) ≤ 8192)) 0x0340
      (if e.2 < f.cheaps.length then o + 16 * e.2 else (upfSec b 4).off + 64 * (n - 1))

/-- Skeins that use, write or read a scratchpad buffer, a companion among them. -/
def usersOf (f : Upf.File) (t : Nat) (c : Bool → Bool) : List Nat :=
  (List.range f.skeins.length).filter fun i => ((skeinOf f i).code.flatMap (insnTensors f)).any fun x => x.1 == t && c x.2

/-- Live ranges (R163, R179). A buffer that no skein writes, or none reads, counts all its users there. -/
def liveBads (b : List Byte) (f : Upf.File) : Bads :=
  let o := (upfSec b 7).off
  let bufs := (List.range f.tensors.length).filter fun t => (tensorOf f t).kind == 4
  let used := fun t => usersOf f t fun _ => true
  let orUsed := fun (t : Nat) (l : List Nat) => if l.isEmpty then used t else l
  (f.lives.zipIdx.flatMap fun e =>
    let t := e.1.tensor
    bad ((tensorOf f t).kind == 4 && decide (t < f.tensors.length) && ((f.lives.filter fun x => x.tensor == t).length == 1)
      && some e.1.first == (orUsed t (usersOf f t id)).head? && some e.1.last == (orUsed t (usersOf f t (!·))).getLast?)
      0x0341 (o + 8 * e.2))
    ++ (bufs.flatMap fun t => bad ((used t).length < 2 || f.lives.any fun x => x.tensor == t) 0x0341
      (if hasSec b 7 then o else 64))
    ++ (f.cheaps.zipIdx.flatMap fun e =>
      bad (sumNat ((f.lives.filter fun l => l.first ≤ e.1.after && e.1.after < l.last).map fun l => (tensorOf f l.tensor).bytes)
        == e.1.live) 0x0341 ((upfSec b 6).off + 16 * e.2))

/-- A skein after which a fallback is not safe (R182). -/
def unsafeSkein (f : Upf.File) (k : Nat) : Bool :=
  (accesses f k).any (fun x => x.2 && (vt f x.1).kind == 1)
    || (skeinOf f k).code.any fun i => isRemoteOp i && !isFetch i

/-- `fallback_safe` points. -/
def safeBads (b : List Byte) (f : Upf.File) : Bads :=
  f.cheaps.zipIdx.flatMap fun e =>
    bad (!e.1.safe || (List.range (e.1.after + 1)).all fun k => !unsafeSkein f k) 0x0342 ((upfSec b 6).off + 16 * e.2)

/-- The program's instructions in table order. -/
def allCode (f : Upf.File) : List SkInsn := f.skeins.flatMap (·.code)

/-- In the code before a pass an element was cleared in its map, and stored with maps since its last clear (R131). -/
def mapStored (f : Upf.File) (before : List SkInsn) (v : Upf.View) : Bool :=
  (before.foldl (fun (a : Bool × Bool) i => match i with
    | .mapclr d => if overlaps (viewOf f d) v then (true, false) else a
    | .vst d _ _ _ _ _ true => if overlaps (viewOf f d) v then (a.1, true) else a
    | _ => a) (false, false)) == (true, true)

/-- A map that any pass reads is covered by map-generating stores after its clear (R131); a weight's map comes with its bobbin. -/
def mapBads (b : List Byte) (f : Upf.File) : Bads :=
  let code := allCode f
  (List.range f.tensors.length).flatMap fun t =>
    let x := tensorOf f t
    if !isMapped x || x.kind == 2 || x.kind == 5 then [] else
    let reads := (code.zipIdx.filter fun i => match i.1 with
      | .mma a y .. => (viewOf f a).tensor == t || (viewOf f y).tensor == t
      | _ => false).map (·.2)
    let whole : Upf.View := { tensor := t, extent := x.extent }
    bad ((reads.all fun r => (coords whole).all fun c => mapStored f (code.take r) { tensor := t, start := [c.1, c.2.1, c.2.2.1, c.2.2.2] })) 0x0316
      ((upfSec b 2).off + 48 * t)

/-- Stage 5 of R206. Its inner order, with map coverage first, is the model's, like the stages in which it places the other checks
that the spec gives no stage (DESIGN CHOICE, log 146). -/
def stage5 (b : List Byte) (f : Upf.File) : Bads :=
  andThen (mapBads b f) fun _ => andThen (edgeBads b f) fun _ => andThen (conflictBads b f) fun _ =>
  andThen (cheapBads b f) fun _ => andThen (liveBads b f) fun _ => safeBads b f

/-! ### Fallback and lowering -/

/-- Primary tensors of a kind bound to a slot. -/
def slotTensor (f : Upf.File) (kind j : Nat) : Option Nat := f.tensors.findIdx? fun t => t.role == 0 && t.kind == kind && t.binding == j

/-- A loaded program of the partition with a digest. -/
def loadedDigest (s : State) (p : Nat) (d : BitVec 384) : Option (Nat × Program) :=
  (s.part p).progs.find? fun e => e.2.live && e.2.upf.digest == d

/-- The code reads input slot `j`. -/
def readsSlot (f : Upf.File) (j : Nat) : Bool :=
  (allCode f).any fun i => (insnAll i).any fun v => !v.2 && (vt f v.1).kind == 0 && (vt f v.1).binding == j

/-- Stage 6 of R206: the binding of R185. -/
def stage6 (s : State) (p : Nat) (b : List Byte) (f : Upf.File) : Bads :=
  match f.fallback with
  | none => []
  | some x =>
    bad (match loadedDigest s p x.program with
      | none => false
      | some (_, g) =>
        let h := g.upf
        h.fallback.isNone && g.loading.isNone && (x.bobbin == 0) == (h.req.bobbinBytes == 0)
          && (List.range 8).all (fun j =>
            let m := nth x.inMap j 0xFF
            if m = 0xFF then !readsSlot h j else (slotTensor f 0 m).isSome)
          && (List.range 8).all (fun j => (slotTensor f 1 j).isNone || (x.outMap.filter (· == j)).length == 1)
          && (List.range 8).all (fun j =>
            let m := nth x.outMap j 0xFF
            m == 0xFF || (match slotTensor h 1 j, slotTensor f 1 m with
              | some a, some c => (tensorOf h a).format == (tensorOf f c).format && (tensorOf h a).rank == (tensorOf f c).rank
                  && (tensorOf h a).extent == (tensorOf f c).extent
              | _, _ => false))) 0x0350 (upfSec b 11).off

/-- Units of R165 that a variant lacks. -/
def absentUnits (v : Variant) : Nat := if fullUnits v then 0 else 7

/-- Stage 7 of R206: a unit both absent and `native` (R166). Lowered code stays within its limits (R201, R202). -/
def stage7 (s : State) (b : List Byte) (f : Upf.File) : Bads :=
  bad (f.req.units &&& f.req.native &&& absentUnits s.variant == 0) 0x0351 ((upfSec b 1).off + 3)

/-- The whole validation, in the order of R206. -/
def upfBads (s : State) (p : Nat) (b : List Byte) : Bads :=
  andThen (stage1 b) fun _ =>
  andThen (bad (slice b (upfSec b 255).off 48 == digestBytes (Config.sha384 (b.take (upfSec b 255).off))) 0x0305 (upfSec b 255).off) fun _ =>
  let f := readUpf b
  andThen (stage3 b f) fun _ => andThen (stage4 s p b f) fun _ => andThen (stage5 b f) fun _ =>
  andThen (stage6 s p b f) fun _ => stage7 s b f

/-- `save_bytes` (R283): the largest total of scratchpad buffers whose live ranges all contain one skein. -/
def saveBytesOf (f : Upf.File) : Nat :=
  maxNat ((List.range f.skeins.length).map fun k =>
    sumNat ((f.lives.filter fun l => l.first ≤ k && k ≤ l.last).map fun l => (tensorOf f l.tensor).bytes))

end Sys2Proof.Machine
end

