-- ==== Sys2Proof/Machine/Programs.lean ====
section
/-! DEFINITION. Programs of a partition, their placement hints and logs (R206 to R209, R216 to R222, R247, R248, R348). -/

namespace Sys2Proof.Machine

/-! ### Loading -/

/-- Program `i` of a partition. -/
def prog (s : State) (p i : Nat) : Program := tget (s.part p).progs i {}
/-- Change it. -/
def modProg (s : State) (p i : Nat) (f : Program → Program) : State :=
  s.modPart p fun x => { x with progs := tput x.progs i (f (tget x.progs i {})) }

/-- A program handle (R347). -/
def progHandle (s : State) (p i : Nat) : Nat := i + 2 ^ 16 * (prog s p i).gen + 2 ^ 24 * p

/-- The lowest index free for a new entry. -/
def freeIndex {α : Type} (t : Tab α) (live : α → Bool) (n : Nat) : Option Nat :=
  (List.range (min n (t.length + 1))).find? fun i => match tfind t i with
    | some x => !live x
    | none => true

/-- Bytes of a partition's firmware areas in use: lowered microcode, CONST copies and job route tables (R266). -/
def firmwareUsed (s : State) (p : Nat) : Nat :=
  sumNat (((s.part p).progs.filter fun e => e.2.live).map fun e => e.2.lowered + e.2.upf.const.length)
    + sumNat ((s.jobs.filter fun e => e.2.live && e.2.members.any fun m => m.pkg == myPkg s && m.part == p).map fun e => e.2.tableBytes)

/-- Skeins that lowering adds on a variant without reducers: one for each ring of each COLL (R202, R203). -/
def addedSkeins (s : State) (f : Upf.File) : Nat := if fullUnits s.variant then 0 else 2 * ((allCode f).filter isColl).length

/-- Response of a load (Table Mailbox-5). -/
def loadPayload (g : Program) : List Byte := toLe 8 g.lowered ++ toLe 8 g.saveBytes ++ digestBytes g.upf.digest

/-- The job a load names: 0xFFFFFFFF none; otherwise a job whose member 0 is the partition. -/
def loadJob (s : State) (p h : Nat) : Option (Option Nat) :=
  if h = 0xFFFFFFFF then some none
  else match jobOf s h with
    | some j => if memberIdx s j p = 0 then some (some j) else none
    | none => none

/-- A validated program takes an index, its references and reservation of firmware area, and its load runs. -/
def startLoad (s : State) (p : Nat) (m : Msg) (f : Upf.File) (job : Option Nat) : Ans :=
  let (x, s) := draw s
  let low := x % (65536 * (f.skeins.length + addedSkeins s f) + 1)
  if 32 * 2 ^ 20 * ((s.part p).width * (s.part p).height) < firmwareUsed s p + low + f.const.length then .refuse 0x0713
  else match freeIndex (s.part p).progs (·.live) 65536 with
    | none => .refuse 0x0713
    | some i =>
      let fb := f.fallback.bind fun b => (loadedDigest s p b.program).map (·.1)
      .later (modProg s p i fun g =>
        let g : Program := { live := true, gen := g.gen, refs := 1, upf := f, fallback := fb, saveBytes := saveBytesOf f, lowered := low, job
                             loading := some (m.func, m.tag) }
        { g with derived := derivePoints s p g })

/-- The checks and effect of PROGRAM_LOAD after those of Table Mailbox-3. -/
def loadOwn (m : Msg) (s : State) : Ans :=
  let p := namedPart m
  let b := extIn m
  match loadJob s p (fld m.payload 4 4) with
  | none => .refuse 0x0924
  | some job =>
    let known := if (stage1 b).isEmpty then loadedDigest s p (readUpf b).digest else none
    match known with
    | some (i, g) =>
      .reply (modProg s p i fun g => { g with refs := g.refs + 1 }) 0 (progHandle s p i) (loadPayload g) [] false
    | none => match upfBads s p b with
      | (c, w) :: _ => .refuseAt c (w * 2 ^ 32)
      | [] =>
        let f := readUpf b
        match job with
        | none => startLoad s p m f none
        | some j => match splitParts s p f (s.job j).members with
          | none => .refuse 0x0612
          | some parts => startLoad (s.modJob j fun x => { x with parts }) p m f (some j)

/-- PROGRAM_LOAD (R206 to R209, R247): a second load of a digest whose load still runs waits for it (Table Mailbox-8). -/
def execProgramLoad (m : Msg) (s : State) : Res :=
  let b := extIn m
  let sp := ownMsg s m 0x0101 8 [] true
  if check8 (take s m) sp m == 0 && sp.named
      && (s.part (namedPart m)).progs.any (fun e => e.2.loading.isSome && (stage1 b).isEmpty && e.2.upf.digest == (readUpf b).digest)
  then .next s
  else mbx sp (loadOwn m) m s

/-- PROGRAM_LOAD_DONE (R209). -/
def execProgramLoadDone (now part prog : Nat) (s : State) : Res :=
  timed s now (fun s => ready s && active s part && (Machine.prog s part prog).loading.isSome) fun s =>
    let g := Machine.prog s part prog
    let s := modProg s part prog fun g => { g with loading := none }
    match g.loading with
    | some (f, t) => answerWith s f t 0 (progHandle s part prog) (loadPayload g) [] false
    | none => s

/-- A program leaves: its index takes the next generation, its reservations end; those of torn-down contexts stay until their slots
have left quarantine (R283, R348). -/
def dropProgram (s : State) (p i : Nat) : State :=
  s.modPart p fun x =>
    { x with
      progs := tmap x.progs fun k g => if k = i then { gen := (g.gen + 1) % 256 } else g
      reservs := x.reservs.filter fun r => r.leaving || r.prog != i }

/-- PROGRAM_UNLOAD (R186, R208, R348). -/
def execProgramUnload (m : Msg) (s : State) : Res :=
  mbx (ownMsg s m 0x0102 8 [] true) (fun s =>
    let p := namedPart m
    match progOf s p (fld m.payload 4 4) with
    | none => .refuse 0x0922
    | some i =>
      if (s.part p).progs.any fun e => e.2.live && e.2.fallback == some i then .refuse 0x0920
      else if s.steps.any fun e => e.2.part == p && (e.2.prog == i || e.2.fallback == some i) then .refuse 0x0921
      else if 1 < (prog s p i).refs then .done (modProg s p i fun g => { g with refs := g.refs - 1 })
      else .done (dropProgram s p i)) m s

/-! ### Hints -/

/-- Record `i` of a hint set (Table Placement-1). -/
def hintAt (b : List Byte) (i : Nat) : Hint :=
  { prefer := fld b (48 * i) 16, pin := fld b (48 * i + 16) 16, first := fld b (48 * i + 32) 2, last := fld b (48 * i + 34) 2
    mode := fld b (48 * i + 36) 1 }

/-- The record is as Table Placement-1 and names granules of the partition (R220). -/
def hintOk (x : Part) (b : List Byte) (i : Nat) : Bool :=
  let h := hintAt b i
  let n := x.width * x.height
  decide (h.prefer < 2 ^ n ∧ h.pin < 2 ^ n ∧ h.first ≤ h.last ∧ h.mode ≤ 2) && zeroRange b (48 * i + 37) 11

/-- PLACEMENT_HINT (R216 to R220). -/
def execPlacementHint (m : Msg) (s : State) : Res :=
  let n := fld m.payload 8 1
  mbx (ownMsg s m 0x0201 9 [] (decide (n ≤ 64 ∧ 48 * n ≤ m.extBytes))) (fun s =>
    let p := namedPart m
    match progOf s p (fld m.payload 4 4) with
    | none => .refuse 0x0922
    | some i =>
      if (List.range n).all (hintOk (s.part p) (extIn m)) then
        .done (staged (modProg s p i fun g => { g with staged := some ((List.range n).map (hintAt (extIn m))) }) p)
      else .refuse 0x0610) m s

/-- The object index a handle names for a context: current, not FREEING, and shared or its own (R288). -/
def objFor (s : State) (p c h : Nat) : Option Nat :=
  (objOf s p h).filter fun i =>
    let o := memObj s p i
    o.shared || (o.ctx == c && o.ctxGen == (s.ctx c).gen)

/-- PLACEMENT_LOG (R221, R222). -/
def execPlacementLog (m : Msg) (s : State) : Res :=
  let on := fld m.payload 16 1
  let cap := fld m.payload 12 4
  mbx (ownMsg s m 0x0202 17 [] (decide (on ≤ 1 ∧ (on = 0 ∨ 1 ≤ cap)))) (fun s =>
    let p := namedPart m
    match ctxOf s p (fld m.payload 4 4) with
    | none => .refuse 0x0731
    | some c =>
      if on = 0 then .done (s.modCtx c fun x => { x with logOn := false })
      else match objFor s p c (fld m.payload 8 4) with
        | none => .refuse 0x0741
        | some i =>
          if (memObj s p i).bytes < 64 + 8 * cap then .refuse 0x0742
          else
            let s := s.modCtx c fun x => { x with logOn := true, logObj := fld m.payload 8 4, logCap := cap, logWritten := 0 }
            .done (objWrite s p i 0 (toLe 8 0 ++ toLe 8 cap ++ List.replicate 48 0))) m s

end Sys2Proof.Machine
end

