-- ==== Sys2Proof/Machine/Partitions.lean ====
section
/-! DEFINITION. Partitions (R258 to R281, R490, R499, R500) and jobs (R246, R252 to R255, R459 to R466). -/

namespace Sys2Proof.Machine

/-! ### Jobs -/

/-- Entry `i` of a JOB_CREATE list: package and partition. -/
def jobEntry (b : List Byte) (i : Nat) : Member := { pkg := fld b (4 * i) 2, part := fld b (4 * i + 2) 1 }

/-- Device sets of a partition's bobbins: those in which every member of its jobs is enrolled (R246; DESIGN CHOICE, log 28). -/
def bobbinSets (s : State) (p : Nat) : List Nat := (((s.part p).bobbins.filter fun e => e.2.live).map fun e => e.2.setId).dedup

/-- The answer of one member: none, a refusal, or what is recorded (R246, R465). A member of this package answers itself. -/
def memberAnswer (s : State) (p : Nat) (answers : List Answer) (i : Nat) (m : Member) : Option (Option Member) :=
  if m.pkg = myPkg s then
    some (if active s m.part && enrolledAll s (bobbinSets s p) then
        some { m with pgen := tget s.partGen m.part 0, startNo := s.life.startNo } else none)
  else (answers.find? fun a => a.member == i).map fun a =>
    if a.ok then some { m with pgen := a.pgen % 256, startNo := a.startNo, store := a.store, rest := a.rest } else none

/-- Members of other packages that have not answered are asked (R246). -/
def askMembers (s : State) (j p : Nat) : State :=
  let ms := (s.job j).members
  let l := ms.map fun m => (m.pkg, m.part)
  forAll (ms.zipIdx.filter fun e => (s.job j).waiting.contains e.2) (fun s e =>
    sendCtl s p e.1.pkg (routeTo s e.1.pkg) (.ctl e.1.pkg (.ask (jobHandle s j) e.2 l (bobbinSets s p)))) s

/-- JOB_CREATE (R246, R252, R465): member 0 is the named partition of this package. -/
def execJobCreate (m : Msg) (answers : List Answer) (s : State) : Res :=
  let n := fld m.payload 4 2
  let b := extIn m
  mbx (pfMsg s m 0x020C 6 [] (decide (2 ≤ n ∧ n ≤ 4096 ∧ m.extBytes = 4 * n) && (extBad m || (List.range n).all (fun i => fld b (4 * i + 3) 1 == 0)
      && fld b 0 2 == myPkg s && fld b 2 1 == namedPart m))) (fun s =>
    let p := namedPart m
    let ms := (List.range n).map (jobEntry b)
    let got := ms.zipIdx.map fun e => memberAnswer s p answers e.2 e.1
    match freeIndex s.jobs (·.live) 256 with
    | none => .refuse 0x0614
    | some j =>
      if got.any fun a => a == some none then .refuse 0x0614
      else
        let rec_ := (ms.zip got).map fun e => ((e.2.getD none).getD e.1)
        let waiting := (got.zipIdx.filter fun a => a.1 == none).map (·.2)
        let s := s.modJob j fun x =>
          { live := true, gen := x.gen, members := rec_, waiting, askedAt := time s
            crTag := if waiting.isEmpty then none else some (m.func, m.tag) }
        if waiting.isEmpty then .detail (installRoutes s j) (jobHandle s j) else .later (askMembers s j p)) m s

/-- JOB_MEMBER_TIMEOUT (R246): a member has not answered for 10 ms. -/
def execJobMemberTimeout (now job : Nat) (s : State) : Res :=
  timed s now (fun s => ready s && (s.job job).live && !(s.job job).waiting.isEmpty
      && decide (10000000 + (s.job job).askedAt < time s)) fun s =>
    answerOpt (dropJob s job) (s.job job).crTag 0x0614 0

/-- The job a message names, when the named partition of this package is a member. -/
def jobNamed (s : State) (m : Msg) : Option Nat :=
  (jobOf s (fld m.payload 4 4)).filter fun j => (s.job j).members.any fun x => x.pkg == myPkg s && x.part == namedPart m

/-- A job part record (Table Placement-7). -/
def partRecord (i : Nat) (x : Member) (q : Nat × Nat × Nat × Nat) : List Byte :=
  toLe 2 i ++ toLe 2 x.pkg ++ toLe 2 q.1 ++ toLe 2 q.2.1 ++ toLe 1 q.2.2.1 ++ toLe 1 q.2.2.2 ++ List.replicate 6 0

/-- JOB_QUERY (R255). -/
def execJobQuery (m : Msg) (s : State) : Res :=
  mbx (ownMsg s m 0x020D 8 [] true) (fun s =>
    match jobNamed s m with
    | none => .refuse 0x0924
    | some j =>
      let x := s.job j
      let l := (x.members.zipIdx.map fun e => partRecord e.2 e.1 (nth x.parts e.2 (0xFFFF, 0xFFFF, 0, 1))).take (m.extBytes / 16)
      .output s l.length l.flatten) m s

/-- JOB_DESTROY (R465). -/
def execJobDestroy (m : Msg) (s : State) : Res :=
  mbx (pfMsg s m 0x020E 8 [] true) (fun s =>
    match jobNamed s m with
    | none => .refuse 0x0924
    | some j => .done (dropJob s j)) m s

/-! ### Creation -/

/-- The partition record of a request (Table Partitions-2). -/
def requestedPart (b : List Byte) : Part :=
  { state := 1, owner := fld b 1 1, gx0 := fld b 2 1, gy0 := fld b 3 1, width := fld b 4 1, height := fld b 5 1
    ways := if fld b 6 1 = 0 then 4 else fld b 6 1, isolated := bitOf (fld b 7 1) 0, storeBytes := fld b 8 8
    qContexts := fld b 16 2, qSlots := fld b 18 2, qQueues := fld b 20 2, qObjects := fld b 22 2, qFences := fld b 24 2 }

/-- Partitions that are not FREE. -/
def takenParts (s : State) : List (Nat × Part) := s.parts.filter fun e => e.2.state != 0

/-- Ways of die `d` that a partition needs (R267). -/
def waysOn (x : Part) (d : Nat) : Nat := x.ways * ((partGranules x).filter fun g => granuleDie g == d).length

/-- The quotas are in range and no pool is exceeded (R271). -/
def quotasOk (s : State) (x : Part) : Bool :=
  let fits := fun (q : Part → Nat) (hi pool : Nat) =>
    decide (1 ≤ q x ∧ q x ≤ hi ∧ sumNat ((takenParts s).map fun e => q e.2) + q x ≤ pool)
  fits (·.qContexts) 4096 4096 && fits (·.qSlots) 4096 4096 && fits (·.qQueues) 4096 4096 && fits (·.qObjects) 65535 262144
    && fits (·.qFences) 16384 65536

/-- The status that refuses a creation, or 0, in the order of R272 (Table Partitions-8). -/
def createStatus (s : State) (p : Nat) (x : Part) : Nat :=
  let n := x.width * x.height
  if 63 < p ∨ (s.part p).state ≠ 0 then 0x0701
  else if x.owner ≠ 0 ∧ (63 < x.owner ∨ !(s.func x.owner).enabled ∨ (takenParts s).any fun e => e.2.owner == x.owner) then 0x0702
  else if x.width = 0 ∨ x.height = 0 ∨ 16 < x.gx0 + x.width ∨ granuleRows s.variant < x.gy0 + x.height
      ∨ (partGranules x).any (fun g => (granuleOwner s g).isSome || s.badGranules.contains g) then 0x0703
  else if 16 < x.ways ∨ (partDies x).any (fun d => decide (16 < (tget s.dieWays d []).length + waysOn x d)) then 0x0704
  else if x.storeBytes % (64 * 2 ^ 20 * n) ≠ 0 ∨ 4576 * 2 ^ 20 < x.storeBytes / n + 64 * 2 ^ 20 then 0x0705
  else if !quotasOk s x then 0x0709
  else 0

/-- Allocate the ways of a new partition, lowest first (R267). -/
def takeWays (s : State) (p : Nat) (x : Part) : State :=
  { s with dieWays := (partDies x).foldl (fun t d =>
      let used := tget t d []
      let free := (List.range 16).filter fun w => used.all fun e => e.1 != w
      tput t d (used ++ (free.take (waysOn x d)).map fun w => (w, p))) s.dieWays }

/-- PARTITION_CREATE (R270 to R273). -/
def execPartitionCreate (m : Msg) (s : State) : Res :=
  mbx { opcode := 0x0301, critical := true, pfOnly := true, len := some 32, rsv := [(26, 6)], ranges := decide (fld m.payload 7 1 < 2) }
    (fun s =>
      let p := namedPart m
      let x := requestedPart m.payload
      let c := createStatus s p x
      if c ≠ 0 then .refuse c
      else .later (takeWays (s.modPart p fun _ => { x with reqTag := some (m.func, m.tag) }) p x)) m s

/-- PARTITION_TABLES_BUILT (R273, R585). -/
def execPartitionTablesBuilt (now part : Nat) (s : State) : Res :=
  timed s now (fun s => ready s && (s.part part).state == 1) fun s =>
    let r := (s.part part).reqTag
    let s := firstTune (s.modPart part fun x => { x with state := 2, reqTag := none, lastIssue := time s }) part
    answerOpt s r 0 0

/-! ### Destruction -/

/-- Requests of a partition whose work ends with it: loads with 0x0712, installs and zero-fills with 0x0905 (log 25). -/
def abandonRequests (s : State) (p : Nat) : State :=
  let x := s.part p
  let s := forAll (x.progs.filterMap fun e => e.2.loading) (fun s r => answer s r.1 r.2 0x0712 0) s
  let s := forAll (x.bobbins.filterMap fun e => e.2.installing) (fun s r => answer s r.1 r.2 0x0905 0) s
  forAll (x.objs.filterMap fun e => e.2.zeroTag) (fun s r => answer s r.1 r.2 0x0905 0) s

/-- Debug grants of a partition close (R490). -/
def closeGrants (s : State) (p : Nat) : State :=
  { s with grants := { s.grants with
      trace := s.grants.trace.filter (· != p), scan := s.grants.scan.filter (· != p), memRead := s.grants.memRead.filter (· != p) } }

/-- Jobs of which a partition of this package is a member. -/
def jobsOf (s : State) (p : Nat) : List Nat :=
  (s.jobs.filter fun e => e.2.live && e.2.members.any fun x => x.pkg == myPkg s && x.part == p).map (·.1)

/-- Step queues of a partition go, with the descriptors not admitted. -/
def dropQueues (s : State) (p : Nat) : State := { s with queues := s.queues.filter fun e => e.2.part != p }

/-- Chunk messages that a partition still has to send are dropped (Table Partitions-5). -/
def stopServing (s : State) (p : Nat) : State :=
  { s with ports := tmap s.ports fun _ x => { x with txq := x.txq.filter fun m => !(m.part == p && m.slot.isNone && !m.ctl.isSome
      && decide (2048 ≤ m.eng ∧ m.eng < 2080)) } }

/-- PARTITION_DESTROY is accepted (R273 to R275). -/
def beginDestroy (s : State) (p : Nat) (r : Nat × Nat) : State :=
  let s := { s with partGen := tput s.partGen p ((tget s.partGen p 0 + 1) % 256) }
  let s := closeGrants (traceOff s p) p
  let s := abandonRequests s p
  let s := forAll (partCtxs s p) (fun s c => teardown s p c 0x0D04) s
  let s := forAll (jobsOf s p) dropJob s
  let s := closeWindows (dropQueues s p) fun w => w.part == p
  let s := stopServing s p
  s.modPart p fun x => { x with state := 3, reqTag := some r, fill := none, running := none, switchTo := none, switchReq := 0 }

/-- PARTITION_DESTROY (R274, R346). -/
def execPartitionDestroy (m : Msg) (s : State) : Res :=
  mbx { opcode := 0x0302, critical := true, pfOnly := true, len := some 4, rsv := [(1, 3)], named := (s.part (namedPart m)).state != 0 }
    (fun s =>
      let p := namedPart m
      if (s.part p).state ≠ 2 then .refuse 0x0710 else .later (beginDestroy s p (m.func, m.tag))) m s

/-- A scrub record, the oldest displaced when full (R500). -/
def scrubRecord (s : State) (kind p : Nat) (gs : List Nat) : State :=
  let r : ScrubRec := { kind, part := p, granules := gs, done := time s, startNo := s.life.startNo }
  { s with scrubs := (s.scrubs ++ [r]).drop (s.scrubs.length + 1 - 1024) }

/-- Scratchpads of a partition's tiles are cleared (R499). -/
def clearTiles (s : State) (p : Nat) : State :=
  forAll (partTiles (s.part p)) (fun s t => s.modTile t fun x =>
    { x with scratch := [], poison := [], bufs := [], run := none, tails := [], lfsrSlot := none }) s

/-- The tiles that a partition gives up run at 0.4 GHz with their clocks gated (R585). -/
def idleTiles (s : State) (p : Nat) : State := forAll (partTiles (s.part p)) (fun s t => setClock s t 0 true) s

/-- PARTITION_SCRUB_VERIFIED (R273, R274, R499, R500): the partition is FREE; a scrub that fails starts a block reset. -/
def execPartitionScrubVerified (now part : Nat) (countersOk : Bool) (s : State) : Res :=
  timed s now (fun s => ready s && (s.part part).state == 3) fun s =>
    if !countersOk then selfReset s 7 0
    else
      let r := (s.part part).reqTag
      let rs := (s.part part).resetTags.getD []
      let gs := partGranules (s.part part)
      let ds := partDies (s.part part)
      let s := s.modPower fun x => { x with lowered := x.lowered.filter (· != part) }
      let s := hbmClear (idleTiles (clearTiles s part) part) part 0 (2 ^ 40)
      let s := { s with
        parts := tdel s.parts part
        caches := s.caches.map fun e => (e.1, e.2.filter fun c => !(ownWays s part e.1).contains c.way)
        hbmPoison := s.hbmPoison.filter fun l => linePart s l != part
        dieWays := tmap s.dieWays fun _ l => l.filter fun e => e.2 != part }
      let s := requestRails s ds
      forAll rs (fun s r => answer s r.1 r.2.1 0 0) (answerOpt (scrubRecord s 1 part gs) r 0 0)

end Sys2Proof.Machine
end

