-- ==== Sys2Proof/Machine/Contexts.lean ====
section
/-! DEFINITION. Contexts, memory objects and fences (R282 to R296, R446, R467 to R469). -/

namespace Sys2Proof.Machine

/-! ### Contexts -/

/-- The free context number freed longest ago: never-used numbers first, in ascending order (R282). -/
def nextCtx (s : State) : Option Nat := if s.ctxNext < 4096 then some s.ctxNext else s.ctxFree.head?

/-- CONTEXT_CREATE (R282). -/
def execContextCreate (m : Msg) (s : State) : Res :=
  mbx (ownMsg s m 0x0303 4 [] true) (fun s =>
    let p := namedPart m
    if (s.part p).qContexts ≤ (partCtxs s p).length then .refuse 0x0730
    else match nextCtx s with
      | none => .refuse 0x0730
      | some c =>
        let s := if s.ctxNext < 4096 then { s with ctxNext := s.ctxNext + 1 } else { s with ctxFree := s.ctxFree.drop 1 }
        let s := s.modCtx c fun x => { gen := x.gen, part := some p }
        .detail s (ctxHandle c (s.ctx c).gen)) m s

/-- Steps of a context are admitted. -/
def ctxBusy (s : State) (c : Nat) : Bool := s.steps.any fun e => e.2.ctx == c && e.2.ctxGen == (s.ctx c).gen

/-- CONTEXT_DESTROY (R284, R285). -/
def execContextDestroy (m : Msg) (s : State) : Res :=
  mbx (ownMsg s m 0x0304 9 [] (decide (fld m.payload 8 1 ≤ 1))) (fun s =>
    let p := namedPart m
    match ctxOf s p (fld m.payload 4 4) with
    | none => .refuse 0x0731
    | some c =>
      if fld m.payload 8 1 = 0 then .done (teardown s p c 0x0D04)
      else if (s.ctx c).draining then .refuse 0x0731
      else if ctxBusy s c then .later (s.modCtx c fun x => { x with draining := true, drainTag := some (m.func, m.tag) })
      else .done (teardown s p c 0x0D04)) m s

/-- CONTEXT_RESET (R446, R447); during a partition reset it is answered when that completes (Table Reset-8). -/
def execContextReset (m : Msg) (s : State) : Res :=
  mbx (ownMsg s m 0x0305 8 [] true) (fun s =>
    match ctxOf s (namedPart m) (fld m.payload 4 4) with
    | none => .refuse 0x0731
    | some c =>
      let s := failAll s (fun st => st.ctx == c && st.ctxGen == (s.ctx c).gen) 0x0D01
      match (s.part (namedPart m)).resetTags with
      | some l => .later (s.modPart (namedPart m) fun x => { x with resetTags := some (l ++ [(m.func, m.tag, none)]) })
      | none => .done s) m s

/-- PROCESS_END (R340, R467 to R469). -/
def execProcessEnd (m : Msg) (s : State) : Res :=
  let n := fld m.payload 4 1
  let len := 8 + 4 * n
  mbx { opcode := 0x0306, len := none, rsv := [(1, 3), (5, 3), (len, roundUp len 8 - len)]
        ranges := decide (1 ≤ n ∧ n ≤ 40 ∧ m.inlineBytes = roundUp len 8), named := ownPart s m } (fun s =>
    let p := namedPart m
    let cs := (List.range n).map fun i => ctxOf s p (fld m.payload (8 + 4 * i) 4)
    if cs.any (· == none) then .refuse 0x0731
    else .done (forAll ((cs.filterMap id).dedup) (fun s c => teardown s p c 0x0D04) s)) m s

/-! ### Memory objects -/

/-- The context a message names in bytes [7:4]. -/
def msgCtx (s : State) (m : Msg) : Option Nat := ctxOf s (namedPart m) (fld m.payload 4 4)

/-- The granule at which an allocation starts: the named one, or that with most free bytes (R286). -/
def startGranule (s : State) (p g : Nat) : Option Nat :=
  if g = 0xFF then roomiest s p else if g < (s.part p).width * (s.part p).height then some g else none

/-- An object handle (R287). -/
def objHandle (s : State) (p i : Nat) : Nat := i + 65536 * (memObj s p i).gen

/-- MEM_ALLOC (R286, R349). -/
def execMemAlloc (m : Msg) (s : State) : Res :=
  let flags := fld m.payload 17 1
  let bytes := fld m.payload 8 8
  mbx (ownMsg s m 0x0307 18 [] (decide (flags < 8))) (fun s =>
    let p := namedPart m
    match msgCtx s m with
    | none => .refuse 0x0731
    | some c =>
      let live := ((s.part p).objs.filter fun e => e.2.live).length
      if bytes % 65536 ≠ 0 ∨ bytes < 65536 ∨ objSpace (s.part p) < bytes ∨ (s.part p).qObjects ≤ live then .refuse 0x0740
      else match startGranule s p (fld m.payload 16 1), freeIndex (s.part p).objs (·.live) (s.part p).qObjects with
        | some g, some i =>
          match findRange (usedRanges s p) (objSpace (s.part p)) (g * objPart (s.part p)) bytes with
          | none => .refuse 0x0740
          | some a =>
            let o : MemObj :=
              { live := true, gen := (memObj s p i).gen, ctx := c, ctxGen := (s.ctx c).gen, base := a, bytes := bytes
                shared := bitOf flags 0, hostMap := bitOf flags 2
                zeroTag := if bitOf flags 1 then some (m.func, m.tag) else none }
            let s := s.modPart p fun x => { x with objs := tput x.objs i o }
            if bitOf flags 1 then .later s else .reply s 0 (objHandle s p i) (toLe 8 a) [] false
        | _, _ => .refuse 0x0740) m s

/-- ZERO_FILL_DONE (R286, R349). -/
def execZeroFillDone (now part obj : Nat) (s : State) : Res :=
  timed s now (fun s => ready s && active s part && (memObj s part obj).zeroTag.isSome) fun s =>
    let o := memObj s part obj
    let s := hbmClear s part o.base o.bytes
    let s := s.modPart part fun x => { x with objs := tput x.objs obj { o with zeroTag := none } }
    match o.zeroTag with
    | some (f, t) => answerWith s f t 0 (objHandle s part obj) (toLe 8 o.base) [] false
    | none => s

/-- MEM_FREE (R289). -/
def execMemFree (m : Msg) (s : State) : Res :=
  mbx (ownMsg s m 0x0308 12 [] true) (fun s =>
    let p := namedPart m
    match msgCtx s m with
    | none => .refuse 0x0731
    | some c => match objFor s p c (fld m.payload 8 4) with
      | none => .refuse 0x0741
      | some i => .done (reap (s.modPart p fun x => { x with objs := tput x.objs i { (tget x.objs i {}) with freeing := true } }) p)) m s

/-! ### Fences -/

/-- The fence index a handle names for a context: current, and shared or its own (R291). -/
def fenceFor (s : State) (p c h : Nat) : Option Nat :=
  (fenceOf s p h).filter fun i =>
    let f := tget (s.part p).fences i {}
    f.shared || (f.ctx == c && f.ctxGen == (s.ctx c).gen)

/-- A queued step names the fence as one it signals. -/
def signallerPending (s : State) (p i : Nat) : Bool :=
  s.steps.any fun e => e.2.part == p && e.2.signals.any (namesFence s p i)

/-- A queued step waits on the fence. -/
def waiterPending (s : State) (p i : Nat) : Bool :=
  s.steps.any fun e => e.2.part == p && decide (e.2.state ≤ 1) && e.2.waits.any (namesFence s p i)

/-- FENCE_CREATE (R290). -/
def execFenceCreate (m : Msg) (s : State) : Res :=
  let flags := fld m.payload 24 1
  mbx (ownMsg s m 0x0309 25 [(18, 2)] (decide (flags < 4))) (fun s =>
    let p := namedPart m
    match msgCtx s m with
    | none => .refuse 0x0731
    | some c =>
      let v := fld m.payload 16 2
      if (s.part p).qFences ≤ ((s.part p).fences.filter fun e => e.2.live).length ∨ (v ≠ 0xFFFF ∧ vectorCount m.func ≤ v)
      then .refuse 0x0750
      else match freeIndex (s.part p).fences (·.live) (s.part p).qFences with
        | none => .refuse 0x0750
        | some i =>
          let g := (tget (s.part p).fences i {}).gen
          let f : Fence :=
            { live := true, gen := g, ctx := c, ctxGen := (s.ctx c).gen, cookie := BitVec.ofNat 64 (fld m.payload 8 8)
              vector := v, timeout := fld m.payload 20 4, shared := bitOf flags 0, host := bitOf flags 1 }
          .detail (s.modPart p fun x => { x with fences := tput x.fences i f }) (i + 65536 * g)) m s

/-- A fence message: its context, then its fence. -/
def fenceMsg (s : State) (m : Msg) (f : Nat → Ans) : Ans :=
  match msgCtx s m with
  | none => .refuse 0x0731
  | some c => match fenceFor s (namedPart m) c (fld m.payload 8 4) with
    | none => .refuse 0x0751
    | some i => f i

/-- FENCE_SIGNAL (R291). -/
def execFenceSignal (m : Msg) (s : State) : Res :=
  mbx (ownMsg s m 0x030A 13 [] (decide (fld m.payload 12 1 ≤ 1))) (fun s => fenceMsg s m fun i =>
    let f := tget (s.part (namedPart m)).fences i {}
    if !f.host || f.status.isSome then .refuse 0x0753
    else .done (signalFence s (namedPart m) i (fld m.payload 12 1))) m s

/-- FENCE_RESET (R294). -/
def execFenceReset (m : Msg) (s : State) : Res :=
  mbx (ownMsg s m 0x030B 12 [] true) (fun s => fenceMsg s m fun i =>
    let p := namedPart m
    if waiterPending s p i || signallerPending s p i then .refuse 0x0752
    else .done (s.modPart p fun x => { x with fences := tput x.fences i { (tget x.fences i {}) with status := none } })) m s

/-- FENCE_DESTROY (R294). -/
def execFenceDestroy (m : Msg) (s : State) : Res :=
  mbx (ownMsg s m 0x030C 12 [] true) (fun s => fenceMsg s m fun i =>
    let p := namedPart m
    if signallerPending s p i then .refuse 0x0752
    else
      let s := signalFence s p i 2
      .done (reap (s.modPart p fun x => { x with fences := tput x.fences i { (tget x.fences i {}) with freeing := true } }) p)) m s

/-- FENCE_TIMEOUT (R293): the wait expires for this step alone. -/
def execFenceTimeout (now slot j : Nat) (s : State) : Res :=
  timed s now (fun s => ready s && (match tfind s.steps slot with
      | some st =>
        let h := nth st.waits j 0xFFFFFF
        let f := tget (s.part st.part).fences (h % 65536) {}
        st.state == 1 && h != 0xFFFFFF && decide (j < 4) && f.live && f.status == none && f.timeout != 0
          && decide (st.queuedAt + 1000 * f.timeout < time s)
      | none => false)) fun s =>
    failStep (s.modStep slot fun x => { x with waitView := setView x.waitView j 3 }) slot 0x0755

end Sys2Proof.Machine
end

