-- ==== Sys2Proof/Machine/Resets.lean ====
section
/-! DEFINITION. Engine, partition and block resets, self-tests, quarantine, escalation (R26, R445 to R456, R470 to R473, R535 to
R538). -/

namespace Sys2Proof.Machine

/-! ### Partition reset (R450) -/

/-- The status of a reset taken over by a partition reset (Table Reset-8): that of its engine. -/
def takenStatus (s : State) : Option Nat → Nat
  | some e => if withdrawnOf s e = 2 then 0x0D05 else 0
  | none => 0

/-- A running partition reset ends when none of its tiles is under test (R450). -/
def endPartitionReset (s : State) (p : Nat) : State :=
  match (s.part p).resetTags with
  | some l =>
    if (partTiles (s.part p)).any fun t => (s.tile t).testing.isSome then s
    else
      let s := s.modPart p fun x => { x with resetTags := none }
      forAll l (fun s r => answer s r.1 r.2.1 (takenStatus s r.2.2) 0) s
  | none => s

/-- A reset joins a running partition reset and is answered when that completes (Table Reset-8). -/
def joinReset (s : State) (p : Nat) (l : List (Nat × Nat × Option Nat)) : State :=
  s.modPart p fun x => { x with resetTags := some (x.resetTags.getD [] ++ l) }

/-- A partition reset (R450, Table Reset-1): every admitted step fails with 0x0D03, the scratchpads and cache ways are
zero-filled, the windows close, every tile is reset. -/
def resetPartition (s : State) (p : Nat) (l : List (Nat × Nat × Option Nat)) : State :=
  if (s.part p).resetTags.isSome then joinReset s p l
  else
    let s := failAll s (fun st => st.part == p) 0x0D03
    let s := closeWindows (flushPart (clearTiles s p) p) fun w => w.part == p
    let s := (joinReset s p l).modPart p fun x =>
      { x with hang := none, hangPosted := false, running := none, switchTo := none, switchReq := 0 }
    endPartitionReset (forAll (partTiles (s.part p)) (fun s t => beginEngineReset s t []) s) p

/-! ### Withdrawal and self-test (R448, R449, R453, R536) -/

/-- Sorts that no sorter can take any more fail their steps (R449). -/
def strandedSorts (s : State) : State :=
  forAll (s.sortWait.filter fun q => (partDies (s.part q.part)).all fun d => (s.sorter d).withdrawn == 2)
    (fun s q => failStep s q.slot 0x0D06) s

/-- An engine is withdrawn until block reset; a second tile of one die resets the partitions on that die (Table Reset-2). -/
def withdraw (s : State) (e : Nat) : State :=
  let s := setWithdrawn s e 2
  if e < 2048 then
    let d := tileDie e
    if 2 ≤ (s.tiles.filter fun x => tileDie x.1 == d && x.2.withdrawn == 2).length then
      forAll ((diePartitions s d).map (·.1)) (fun s p => resetPartition s p []) s
    else s
  else if 2080 ≤ e ∧ e < 2112 then strandedSorts s
  else s

/-- A passing engine returns to placement, re-initialised (R448, R536). -/
def reinit (s : State) (e : Nat) : State :=
  let keep := fun (w : Nat) => if w = 1 then 0 else w
  if e < 2048 then
    let (v, s) := draw s
    let n := match tileOwner s e with
      | some p => (s.part p).retuned
      | none => 0
    s.modTile e fun x =>
      { withdrawn := keep x.withdrawn, clock := if x.withdrawn = 2 then 0 else n, gated := true
        lfsr := BitVec.ofNat 32 (v % (2 ^ 32 - 1) + 1) }
  else if e < 2080 then s.modMover (e - 2048) fun x => { x with withdrawn := keep x.withdrawn }
  else if e < 2112 then s.modSorter (e - 2080) fun x => { x with withdrawn := keep x.withdrawn }
  else s.modReducer (e - 2112) fun x => { x with withdrawn := keep x.withdrawn }

/-- The answer of a request that a self-test ends: `detail` and payload of BIST_RUN (R538), or the status of ENGINE_RESET. -/
def answerTest (s : State) (pass : Bool) (r : Nat × Nat) : State :=
  let v := if pass then 0 else 1
  match takenOf s r.1 r.2 with
  | some t =>
    if t.opcode = 0x0708 then answerWith s r.1 r.2 0 v (toLe 8 v) [] false
    else answer s r.1 r.2 (if pass then 0 else 0x0D05) 0
  | none => s

/-- The self-test of an engine ends (R448, R536). -/
def finishTest (s : State) (e : Nat) (pass : Bool) : State :=
  let l := (testingOf s e).getD []
  let s := setTesting s e none
  let s := s.modColl fun x => { x with openFaults := x.openFaults.filter fun f => f.engine != e }
  let s := s.modLife fun x => { x with bistPass := pass, bistEngine := e }
  let s := if pass then reinit s e else withdraw (reportCode s 0xAB01) e
  let s := forAll l (fun s r => answerTest s (pass && withdrawnOf s e == 0) r) s
  match (if e < 2048 then tileOwner s e else none) with
  | some p => endPartitionReset s p
  | none => s

/-- An engine fails the start-up self-test (R260, R520, R536): a tile is withdrawn; other logic of a die makes its granules
unusable. -/
def startupFail (s : State) (e : Nat) : State :=
  let s := setWithdrawn (reportCode s 0xAB01) e 2
  if e < 2048 then s.modLife fun l => { l with tilesWithdrawn := l.tilesWithdrawn + 1 }
  else if e < 2112 then
    let d := if e < 2080 then e - 2048 else e - 2080
    let gs := (List.range (granuleCount s.variant)).filter fun g => granuleDie g == d && !s.badGranules.contains g
    { s with badGranules := s.badGranules ++ gs, life := { s.life with granulesBad := s.life.granulesBad + gs.length } }
  else s

/-- An engine identifier of R322 that the variant has. -/
def engineHere (v : Variant) (e : Nat) : Bool :=
  if e < 2048 then decide (e < tileCount v)
  else if e < 2080 then decide (e - 2048 < dies v)
  else if e < 2112 then decide (e - 2080 < dies v)
  else decide (e - 2112 < reducerCount v)

/-- SELF_TEST_DONE (R448, R535, R536): engine 0xFFFF is the block, whose failing test fails a start with cause 3. An armed
injection of unit 43 makes the signature mismatch. -/
def execSelfTestDone (now engine : Nat) (pass : Bool) (s : State) : Res :=
  timed s now (fun s => up s && !s.gst.stopped && (if engine = 0xFFFF
      then (starting s && !s.life.bistDone) || s.life.bistTag.isSome
      else engineHere s.variant engine && ((testingOf s engine).isSome || (starting s && !s.life.bistDone)))) fun s =>
    let pass := pass && !armed s 43 0 engine
    let s := if armed s 43 0 engine then consume s 43 0 engine else s
    if engine = 0xFFFF then
      let s := s.modLife fun l => { l with bistPass := pass, bistEngine := 0xFFF }
      match s.life.bistTag with
      | some r => answerTest ((if pass then s else reportCode s 0xAB01).modLife fun l => { l with bistTag := none }) pass r
      | none => if pass then s.modLife fun l => { l with bistDone := true } else failStart s 3 0xAB01
    else if (testingOf s engine).isSome then finishTest s engine pass
    else if pass then s else startupFail s engine

/-! ### Messages -/

/-- ENGINE_RESET (R448, R472). -/
def execEngineReset (m : Msg) (s : State) : Res :=
  let e := fld m.payload 4 2
  mbx { opcode := 0x0604, pfOnly := true, len := some 6, rsv := [(0, 4)], ranges := engineHere s.variant e } (fun s =>
    if withdrawnOf s e = 2 then .refuse 0x0D05
    else match (if e < 2048 then (tileOwner s e).filter fun p => (s.part p).resetTags.isSome else none) with
      | some p => .later (joinReset s p [(m.func, m.tag, some e)])
      | none => .later (beginEngineReset s e [(m.func, m.tag)])) m s

/-- PARTITION_RESET (R450). -/
def execPartitionReset (m : Msg) (s : State) : Res :=
  mbx (pfMsg s m 0x0605 4 [] true) (fun s => .later (resetPartition s (namedPart m) [(m.func, m.tag, none)])) m s

/-- A block reset that firmware starts (R451): admission and taking stop; it begins 100 us later. -/
def startBlockReset (s : State) : State :=
  let s := (lostNotices s 0).modPower fun p => { p with admitting := false }
  s.modLife fun l => { l with resetAt := some (100000 + time s), resetCause := 3 }

/-- BLOCK_RESET (R451): no response; admission and taking stop; the block reset begins 100 us later. -/
def execBlockReset (m : Msg) (s : State) : Res :=
  mbx { opcode := 0x0606, pfOnly := true } (fun s => .later (startBlockReset s)) m s

/-- POWER_CYCLE (R26): no response; the request goes to the tray controller. -/
def execPowerCycle (m : Msg) (s : State) : Res :=
  mbx { opcode := 0x0607, pfOnly := true } (fun s => .later (withIbi s (s.modAon fun a => { a with trayReqN := false }))) m s

/-- BIST_RUN (R538): result 3 for an absent engine, 2 for one that does not quiesce, otherwise when the test ends. -/
def execBistRun (m : Msg) (quiesced : Bool) (s : State) : Res :=
  let e := fld m.payload 4 2
  mbx { opcode := 0x0708, pfOnly := true, len := some 6, rsv := [(0, 4)], ranges := decide (e < 2118 ∨ e = 0xFFFF), boot := 2 } (fun s =>
    if s.life.lc = 6 ∨ s.life.lc = 0x0F then .refuse 0x0914
    else if e = 0xFFFF then
      if s.parts.any fun x => x.2.state == 2 then .refuse 0x0E20
      else if s.life.bistTag.isSome then .refuse 0x090A
      else .later (s.modLife fun l => { l with bistTag := some (m.func, m.tag) })
    else if !engineHere s.variant e then .reply s 0 3 (toLe 8 3) [] false
    else
      let s := forAll (stepsIn s e) (fun s k => failStep s k 0x0C01) s
      if quiesced then .later (setTesting (setWithdrawn s e 1) e (some ((testingOf s e).getD [] ++ [(m.func, m.tag)])))
      else .reply (withdraw s e) 0 2 (toLe 8 2) [] false) m s

/-! ### Escalation and quarantine -/

/-- RESET_ESCALATION (R453, Table Reset-2): 0 a context's work held by engines, 1 an engine not quiesced, 2 a partition reset not
complete, 3 an FLR not complete. -/
def execResetEscalation (now kind id : Nat) (s : State) : Res :=
  timed s now (fun s => ready s && !s.gst.stopped) fun s =>
    match kind with
    | 0 =>
      let ks := slotsWhere s fun st => st.ctx == id && st.fail.isSome
      let es := (List.range 2118).filter fun e => (stepsIn s e).any ks.contains
      forAll es (fun s e => beginEngineReset s e []) s
    | 1 =>
      match testingOf s id with
      | some l =>
        let s := withdraw (setTesting s id none) id
        let s := forAll l (fun s r => answerTest s false r) s
        (match (if id < 2048 then tileOwner s id else none) with
          | some p => endPartitionReset s p
          | none => s)
      | none => s
    | 2 => if (s.part id).resetTags.isSome then selfReset s 3 0 else s
    | 3 =>
      if (s.func id).inFlr then
        forAll ((s.parts.filter fun e => e.2.state == 2 && e.2.owner == id).map (·.1)) (fun s p => resetPartition s p []) s
      else s
    | _ => s

/-- Reservations of torn-down contexts whose slots have all left quarantine return to object space (R283). -/
def releaseReservations (s : State) (p : Nat) : State :=
  s.modPart p fun y =>
    { y with reservs := y.reservs.filter fun r => !(r.leaving && !(s.quar.any fun q => q.2.ctx == r.ctx && q.2.ctxGen == r.ctxGen)
        && !(s.steps.any fun e => e.2.ctx == r.ctx && e.2.ctxGen == r.ctxGen)) }

/-- SLOT_QUARANTINE_END (R455): nothing made under the old generation is out, or 50 ms have passed. -/
def execSlotQuarantineEnd (now slot : Nat) (s : State) : Res :=
  timed s now (fun s => ready s && (match tfind s.quar slot with
      | some q => q.openReqs == 0 || decide (50000000 + q.since ≤ time s)
      | none => false)) fun s =>
    match tfind s.quar slot with
    | some q => releaseReservations { s with quar := tdel s.quar slot } q.part
    | none => s

end Sys2Proof.Machine
end

