-- ==== Sys2Proof/Machine/Checks.lean ====
section
/-! DEFINITION. The fault messages, fault reports, the safety clock and the thermal throttle (R417, R421, R425 to R429, R438 to R440,
R503, R537). -/

namespace Sys2Proof.Machine

/-! ### Messages -/

/-- The status word and the newest codes (R338, Table Mailbox-5). -/
def faultBytes (c : Collector) (n : Nat) : List Byte :=
  toLe 8 c.status.toNat ++ toLe 1 c.log.length ++ List.replicate 7 0 ++ (c.log.take n).flatMap fun x => toLe 2 x.toNat

/-- FAULT_READ (R338): 32 codes through the ring, 8 through the boot mailbox. -/
def execFaultRead (m : Msg) (s : State) : Res :=
  mbx { opcode := 0x0601, pfOnly := true, boot := 2 } (fun s =>
    .reply s 0 0 (if m.boot then padTo 32 (faultBytes s.coll 8) else faultBytes s.coll 32) [] false) m s

/-- A contained fault of a unit was latched in this very tick (R421). -/
def latchedNow (now : Nat) (c : Collector) (u : Nat) : Bool :=
  c.tickAt == now && (c.log.take c.tickLen).any fun k => codeUnit k == u && codeClass k != 1

/-- Every contained fault of a unit has been contained, none is new in this tick, and the unit holds no fatal fault (R421). -/
def clearable (now : Nat) (c : Collector) (u : Nat) : Bool :=
  !(c.openFaults.any fun f => f.unit == u) && !c.fatal.getLsbD u && !latchedNow now c u

/-- Clear the named units' status bits and corrected counters (R421). -/
def clearUnits (now : Nat) (c : Collector) (bits : Nat) : Collector :=
  (List.range 45).foldl (fun (c : Collector) u =>
    if bitOf bits u && clearable now c u then
      { c with status := c.status &&& ~~~ (BitVec.ofNat 64 (2 ^ u)), corr := tput c.corr u 0 }
    else c) c

/-- FAULT_CLEAR (R421, R437). -/
def execFaultClear (m : Msg) (s : State) : Res :=
  let u := fld m.payload 8 8
  mbx { opcode := 0x0602, pfOnly := true, len := some 16, rsv := [(0, 8)] } (fun s =>
    let t := s.modColl fun c => clearUnits (time s) c u
    .done (if bitOf u 37 && t.aon.secalmAt != some (time t) then t.modAon fun a => { a with secalmN := true } else t)) m s

/-- Injectable checkers of a unit (Table Faults-8). -/
def checkersOf (u : Nat) : Nat :=
  if u < 32 then 13 else if u = 38 then 2
  else if u = 34 ∨ u = 35 ∨ u = 36 ∨ u = 37 ∨ u = 40 ∨ u = 43 then 1 else 0

/-- FAULT_INJECT (R438 to R440): a second injection replaces the first. -/
def execFaultInject (m : Msg) (s : State) : Res :=
  let u := fld m.payload 4 1
  let k := fld m.payload 5 1
  let n := fld m.payload 6 2
  mbx { opcode := 0x0603, pfOnly := true, len := some 8, rsv := [(0, 4)], ranges := decide (k < checkersOf u) && n != 0 } (fun s =>
    if !injectOpen s.life.lc then .refuse 0x0914
    else .done (s.modColl fun c => { c with
      inject := (c.inject.filter fun i => !(i.unit == u && i.checker == k)) ++ [{ unit := u, checker := k, events := n }] })) m s

/-! ### Reports -/

/-- What a report means beyond the collector: a mover's digest unit fails the fill it served (R257); an uncorrectable
scratchpad word that a skein read is marked poisoned, which one the report does not say (R60, log 140); a port whose route checker
copies disagree takes nothing more (R389). -/
def reportSide (s : State) (r : Report) : State :=
  let u := codeUnit r.code
  if u < 32 ∧ codeClass r.code = 2 ∧ codeCause r.code = 0x10 then
    forAll ((diePartitions s u).filterMap fun e => e.2.fill.map fun f => (e.1, f.bobbin)) (fun s e => failFetch s e.1 e.2 0x0602) s
  else if u < 32 ∧ codeClass r.code = 2 ∧ codeCause r.code = 0x02 ∧ r.engine < 2048 ∧ r.slots ≠ [] then
    let (w, s) := draw s
    s.modTile r.engine fun x => { x with poison := addNew x.poison (w % 262144) }
  else if r.code = 0xA805 ∧ 2112 ≤ r.engine then s.modPort (r.engine - 2112) fun x => { x with shut := true }
  else s

/-- FAULT_REPORT (R417). With the main domain in reset only the always-on unit reports. -/
def execFaultReport (now : Nat) (r : Report) (s : State) : Res :=
  timed s now (fun s => aonUp s && (up s || codeUnit r.code == 41)) fun s => report (reportSide s r) r

/-- The item that has failed a check of the safety clock (R429). -/
def expose (s : State) (code : Code) (u e last : Nat) : State :=
  reportCode (s.modColl fun c => { c with expUnit := u, expEngine := e, exposure := last }) code

/-- The key of a checker in the table of last passing exercises. -/
def checkerKey (u e k : Nat) : Nat := (u * 4096 + e) * 256 + k

/-- CHECKER_EXERCISE (R425, R429): a checker that does not flag its exercise is recorded. -/
def execCheckerExercise (now unit engine checker : Nat) (flagged : Bool) (s : State) : Res :=
  timed s now (fun s => up s && s.coll.init) fun s =>
    if flagged then s.modColl fun c => { c with exercised := tput c.exercised (checkerKey unit engine checker) (time s) }
    else expose s 0xAB04 unit engine (tget s.coll.exercised (checkerKey unit engine checker) 0)

/-- ERROR_PIN_TEST (R426): the unit answers at once, or its answer is due within 10 us. -/
def execErrorPinTest (now unit : Nat) (answered : Bool) (s : State) : Res :=
  timed s now (fun s => up s && s.coll.init && decide (unit < 45)) fun s =>
    if answered then s.modColl fun c => { c with pinTest := tdel c.pinTest unit, pinPass := tput c.pinPass unit (time s) }
    else s.modColl fun c => { c with pinTest := tput c.pinTest unit (time s) }

/-- ERROR_PIN_TEST_TIMEOUT (R426, R429). -/
def execErrorPinTestTimeout (now unit : Nat) (s : State) : Res :=
  timed s now (fun s => up s && (match tfind s.coll.pinTest unit with
      | some t => decide (10000 + t < time s)
      | none => false)) fun s =>
    expose (s.modColl fun c => { c with pinTest := tdel c.pinTest unit }) 0xA909 unit 0xFFF (tget s.coll.pinPass unit 0)

/-- WATCHDOG_EXPIRY (R428). -/
def execWatchdogExpiry (now : Nat) (s : State) : Res :=
  timed s now (fun s => ready s && decide (500000 + s.coll.watchdog < time s)) fun s => reportCode s 0xE005

/-! ### Thermal throttle (R503) -/

/-- A partition's clocks are lowered; how far is open (log 31). -/
def throttlePart (s : State) (p : Nat) : State :=
  let (v, s) := draw s
  let n := v % ((s.part p).retuned + 1)
  let s := s.modPart p fun x => { x with retuned := n }
  forAll (partTiles (s.part p)) (fun s t => if (s.tile t).withdrawn = 0 then s.modTile t fun y => { y with clock := n } else s) s

/-- The package throttle engages: 0x6906, every clock is lowered. -/
def throttle (s : State) : State :=
  if s.power.throttled then s
  else
    let s := (reportCode s 0x6906).modPower fun p => { p with throttled := true }
    forAll ((s.parts.filter fun e => e.2.state == 2).map (·.1)) throttlePart s

/-- THERMAL_THROTTLE_ENGAGED (R503). -/
def execThermalThrottleEngaged (now : Nat) (s : State) : Res := timed s now (fun s => up s && !s.power.throttled) throttle

/-- THERMAL_THROTTLE_RELEASED (R503): clocks return to their grants at each partition's next step boundary. -/
def execThermalThrottleReleased (now : Nat) (s : State) : Res :=
  timed s now (fun s => up s && s.power.throttled) fun s =>
    forAll ((s.parts.filter fun e => e.2.state == 2).map (·.1)) retune (s.modPower fun p => { p with throttled := false })

/-! ### In-service analogue checks (R427, R537) -/

/-- The key of an item of a die; the always-on item has the key of item 4. -/
def itemKey (die item : Nat) : Nat := if item = 4 then 4 else die * 8 + item

/-- Tiles are withdrawn after a check outside the tile found them bad: their steps fail (R75, Table Lifecycle-11). -/
def withdrawTiles (s : State) (ts : List Nat) : State :=
  forAll ts (fun s t =>
    let s := forAll (stepsIn s t) (fun s k => failWith s k 0x0C01 0xAB02) s
    if withdrawnOf s t = 2 then s
    else (setWithdrawn s t 1).modColl fun c => { c with openFaults := c.openFaults ++ [{ unit := 43, engine := t }] }) s

/-- An item found out of tolerance (Table Lifecycle-11). -/
def analogueFail (s : State) (die item : Nat) (tiles : List Nat) : State :=
  let last := tget s.coll.analogue (itemKey die item) 0
  match item with
  | 0 =>
    let ts := tiles.filter fun t => tileDie t == die
    let s := withdrawTiles (expose s 0xAB02 die (ts.headD 0xFFF) last) ts
    forAll ts (fun s t => if testingOf s t = none then beginEngineReset s t [] else s) s
  | 1 => withdrawTiles (expose s 0xAB02 die 0xFFF last) ((List.range (tileCount s.variant)).filter fun t => tileDie t == die)
  | 2 => throttle (expose s 0xAB02 die 0xFFF last)
  | 3 => reportCode s 0x6302
  | _ => expose s 0xAB02 41 0xFFF last

/-- Slices of a rotation of a die (R537). -/
def rotationSlices : Nat := 20

/-- A slice of a die's rotation is done; the twentieth completes it. -/
def rotate (s : State) (die : Nat) : State :=
  let l := s.life
  let n := tget l.rotSlice die 0
  let t0 := if n = 0 then time s else tget l.rotStart die 0
  s.modLife fun l =>
    if n + 1 < rotationSlices then { l with rotSlice := tput l.rotSlice die (n + 1), rotStart := tput l.rotStart die t0 }
    else { l with
      rotSlice := tput l.rotSlice die 0, rotations := (l.rotations + 1) % 2 ^ 32
      rotMax := max l.rotMax (min 0xFFFF ((time s - t0) / 1000)) }

/-- ANALOGUE_SLICE (R427, R537). An armed injection of unit 35 meets the lane check. -/
def execAnalogueSlice (now die item : Nat) (tiles : List Nat) (inTolerance : Bool) (s : State) : Res :=
  timed s now (fun s => up s && s.coll.init && decide (item ≤ 4) && (item == 4 || decide (die < dies s.variant))) fun s =>
    let inj := item == 3 && armed s 35 0 die
    let s := if inj then consume s 35 0 die else s
    let s := if item = 4 then s else rotate s die
    if inTolerance && !inj then s.modColl fun c => { c with analogue := tput c.analogue (itemKey die item) (time s) }
    else analogueFail s die item tiles

/-- ANALOGUE_ROTATION_MISSED (R427): `item` as in `itemKey`. -/
def execAnalogueRotationMissed (now item : Nat) (s : State) : Res :=
  timed s now (fun s => ready s && decide (1000000 + tget s.coll.analogue item s.life.startAt < time s)) fun s => reportCode s 0xAB03

end Sys2Proof.Machine
end

