-- ==== Sys2Proof/Machine/Rings.lean ====
section
/-! DEFINITION. The mailbox rings and the event ring of each function: their registers, responses, entries, vectors, the held list
(R331 to R337, R363 to R368, R371, R375). -/

namespace Sys2Proof.Machine

/-! ### Mailbox registers (R332 to R334, R337) -/

/-- A ring that was written 0 reads 0 once every response of a request taken through it has been posted (R332). -/
def settleDisable (x : Func) : Func :=
  if x.disabling && !x.taken.any (fun t => !t.boot) && !x.rsps.any (fun r => !r.boot)
  then { x with enable := false, disabling := false } else x

/-- `MBX_CTRL` is written (R332): the vector always; the size only while `enable` is 0 and within 4 to 12; `enable` not in
minimal mode. -/
def writeMbxCtrl (minimal en : Bool) (log2 vector : Nat) (x : Func) : Func :=
  let x := { x with rspVector := vector % 2048, log2 := if !x.enable && decide (4 ≤ log2 ∧ log2 ≤ 12) then log2 else x.log2 }
  if minimal then x
  else if en then
    if x.enable then x
    else { x with enable := true, disabling := false, overrun := false, reqHead := 0, tail := 0, rspHead := 0, rspCount := 0 }
  else if x.enable then settleDisable { x with disabling := true }
  else x

/-- MBX_ENABLE (R332). -/
def execMbxEnable (func log2 vector : Nat) (s : State) : Res :=
  untimed s (fun s => writable s func .mbx) fun s => s.modFunc func (writeMbxCtrl s.life.minimal true log2 vector)

/-- MBX_DISABLE (R332): the other fields are written as they stand. -/
def execMbxDisable (func : Nat) (s : State) : Res :=
  untimed s (fun s => writable s func .mbx) fun s =>
    s.modFunc func fun x => writeMbxCtrl s.life.minimal false x.log2 x.rspVector x

/-- `MBX_TAIL` is written (R333, Table Registers-8). -/
def writeMbxTail (tail : Nat) (x : Func) : Func :=
  if !x.enable then x
  else { x with
    tail := tail % 65536, overrun := x.overrun || decide (2 ^ x.log2 < (65536 + tail % 65536 - x.reqHead) % 65536) }

/-- MBX_TAIL (R333). -/
def execMbxTail (func tail : Nat) (s : State) : Res :=
  untimed s (fun s => writable s func .mbx) fun s => s.modFunc func (writeMbxTail tail)

/-- MBX_RSP_HEAD (R334). -/
def execMbxRspHead (func head : Nat) (s : State) : Res :=
  untimed s (fun s => writable s func .mbx) fun s => s.modFunc func fun x => { x with rspHead := head % 65536 }

/-- `MBX_BOOT_CTRL` is written (R337, Table Registers-8): with both bits 1 `done` is cleared, then the message starts; a write of
`go` while `busy` is 1 is ignored. -/
def writeBootCtrl (go done : Bool) (x : Func) : Func :=
  if go && x.bootBusy then x
  else { x with bootDone := x.bootDone && !done, bootBusy := x.bootBusy || go }

/-- MBX_BOOT_GO (R337). -/
def execMbxBootGo (func : Nat) (alsoDone : Bool) (s : State) : Res :=
  untimed s (fun s => writable s func .mbx) fun s => s.modFunc func (writeBootCtrl true alsoDone)

/-- MBX_BOOT_DONE_CLEAR (R337). -/
def execMbxBootDoneClear (func : Nat) (s : State) : Res :=
  untimed s (fun s => writable s func .mbx) fun s => s.modFunc func (writeBootCtrl false true)

/-! ### Responses (R334) -/

/-- The 32 header bytes of a response and its payload, padded to whole 8 bytes (Table Mailbox-2). -/
def rspBytes (r : Rsp) (phase : Bool) (posted : Nat) : List Byte :=
  toLe 2 r.opcode ++ [3] ++ toLe 1 ((if r.critical then 1 else 0) + 2 + (if phase then 4 else 0))
    ++ toLe 2 (roundUp r.payload.length 8) ++ toLe 2 r.status.toNat ++ toLe 8 r.tag ++ toLe 8 posted ++ toLe 8 r.detail.toNat
    ++ padTo (roundUp r.payload.length 8) r.payload

/-- The ring of a function takes a response: it is in use, it has room, and the host link is up. -/
def ringTakes (s : State) (x : Func) : Bool := x.enable && rspRoom x && s.host.linkUp

/-- The response posted next: the oldest one due that waits for no read-back and has a place. -/
def nextRsp (s : State) (x : Func) : Option Rsp := x.rsps.find? fun r => !r.waits && (r.boot || ringTakes s x)

/-- A step queue takes doorbells from the tick after the response to its creation (Table Registers-8). -/
def openQueues (s : State) (c : Nat × Nat → Bool) : State :=
  { s with queues := tmap s.queues fun _ q =>
    match q.crTag with
    | some r => if c r then { q with openAt := some (time s), crTag := none } else q
    | none => q }

/-- The response is written: into `MBX_BOOT`, or into the ring with its vector after it. The phase bit of a boot response is
free (log 30). -/
def postRsp (s : State) (f : Nat) (r : Rsp) : State :=
  let s := s.modFunc f fun x => { x with rsps := x.rsps.erase r }
  if r.boot then
    let (v, s) := draw s
    let s := s.modFunc f fun x =>
      { x with boot := slice (rspBytes r (v % 2 == 1) (time s)) 0 64, bootBusy := false, bootDone := true }
    emit s (.response f 0 (v % 2 == 1) (time s) r)
  else
    let x := s.func f
    let phase := x.rspCount / 2 ^ x.log2 % 2 == 0
    let s := emit s (.response f (x.rspCount % 2 ^ x.log2) phase (time s) r)
    let s := s.modFunc f fun x => settleDisable { x with rspCount := (x.rspCount + 1) % 65536 }
    openQueues (emit s (.msix f x.rspVector)) fun c => c == (f, r.tag) && r.opcode == 0x0401

/-- MAILBOX_RESPONSE_POST (R334, R337). -/
def execMailboxResponsePost (now func : Nat) (s : State) : Res :=
  timed s now (fun s => up s && !s.coll.freeze && !(s.func func).inFlr && (nextRsp s (s.func func)).isSome) fun s =>
    match nextRsp s (s.func func) with
    | some r => postRsp s func r
    | none => s

/-! ### The event ring -/

/-- The attach entry (Table Host-5). -/
def attachEntry (s : State) (held : Nat) : Entry := { kind := 5, handle := bootFails s, seq := held }

/-- The ring is set (R364); on a detached function the attach entry comes before the held entries (R375). -/
def setRing (s : State) (base log2 vector : Nat) (x : Func) : Func :=
  let held := x.evtHeld.filter fun e => e.kind != 5
  { x with
    evtBase := BitVec.ofNat 64 base, evtEnable := true, evtLog2 := log2, evtVector := vector, evtTail := 0, evtHead := 0
    evtSetAt := some (time s), evtRecent := []
    evtHeld := if x.detached then attachEntry s held.length :: held else x.evtHeld }

/-- EVT_RING_SET (R364). -/
def execEvtRingSet (m : Msg) (s : State) : Res :=
  let base := fld m.payload 8 8
  let n := fld m.payload 16 1
  let v := fld m.payload 18 2
  mbx { opcode := 0x0501, unbound := true, len := some 20, rsv := [(0, 8), (17, 1)]
        ranges := base % 4096 == 0 && decide (6 ≤ n ∧ n ≤ 16) && decide (v < vectorCount m.func) }
    (fun s => .done (s.modFunc m.func (setRing s base n v))) m s

/-- Entries written and not consumed (R364). -/
def ringFill (x : Func) : Nat := (2 ^ 32 + x.evtTail - x.evtHead) % 2 ^ 32

/-- The ring has room (R364). -/
def ringRoom (x : Func) : Bool := x.evtEnable && decide (ringFill x < 2 ^ x.evtLog2)

/-- The completion of a step misses its deadline at this time (R317). -/
def isLate (s : State) (e : Entry) : Bool :=
  match e.slot.bind (tfind s.steps) with
  | some st => st.deadline != 0 && decide (st.deadline < time s)
  | none => false

/-- The posting of an entry: a step's slot is freed and its fences are signalled. -/
def posted (s : State) (e : Entry) : State :=
  match e.slot with
  | some k => finishStep s k e.late
  | none => s

/-- The 32 bytes of an event entry (R7, Table Host-5). -/
def entryBytes (e : Entry) : List Byte :=
  let bit := fun (b : Bool) (i : Nat) => if b then 2 ^ i else 0
  toLe 8 e.cookie.toNat ++ toLe 4 e.handle ++ toLe 4 e.seq ++ toLe 2 e.queue ++ toLe 2 e.status.toNat ++ toLe 1 e.conv.toNat
    ++ toLe 1 e.waits ++ toLe 1 (bit e.late 0 + bit e.fallback 1 + bit e.held 2 + bit e.redelivered 3)
    ++ toLe 1 (e.kind + bit e.phase 7) ++ toLe 8 e.posted

/-- Write an entry into the ring; it counts as unconfirmed until a read-back, an attach entry never. -/
def writeEvt (s : State) (f : Nat) (e : Entry) : State :=
  let x := s.func f
  let phase := x.evtTail / 2 ^ x.evtLog2 % 2 == 0
  let e := { e with phase }
  let s := s.modFunc f fun x =>
    { x with
      evtTail := (x.evtTail + 1) % 2 ^ 32, evtVectorDue := true
      evtRecent := (x.evtRecent.filter fun r => decide (time s < 20000 + r.1))
        ++ (if e.kind = 5 then [] else [(time s, { e with slot := none })]) }
  let s := emit { s with host := { s.host with atsValid := true } } (.event f (x.evtTail % 2 ^ x.evtLog2) e (entryBytes e))
  if e.kind = 2 ∧ e.fenceVec ≠ 0xFFFF then emit s (.msix f e.fenceVec) else s

/-- What a step's completion leaves for watch and placement log has found room in the partition's budget (R554, Table
Mailbox-8), and the tick in which its gate passed is over (R434). -/
def budgetMet (s : State) (e : Entry) : Bool :=
  match e.slot.bind (tfind s.steps) with
  | some st => obsRoom s st.part 0 && !justPassed s st
  | none => true

/-- The next entry due that waits for no read-back and no budget. -/
def nextEntry (s : State) (x : Func) : Option Entry := x.evtQueue.find? fun e => !e.waitsRb && budgetMet s e

/-- An entry of the queue as it is posted at this time. -/
def stamped (s : State) (e : Entry) (held : Bool) : Entry := { e with late := e.late || isLate s e, held, posted := time s }

/-- EVENT_ENTRY_WRITE (R364 to R367, R371, R375): the attach and held entries first, then the next one due; on a detached function
without a ring it goes to the held list. -/
def execEventEntryWrite (now func : Nat) (s : State) : Res :=
  timed s now (fun s => up s && !s.coll.freeze && !(s.func func).inFlr
      && (if (s.func func).evtEnable then ringRoom (s.func func) && s.host.linkUp
            && (!(s.func func).evtHeld.isEmpty || (nextEntry s (s.func func)).isSome)
          else (s.func func).detached && (nextEntry s (s.func func)).isSome)) fun s =>
    let x := s.func func
    match x.evtEnable, x.evtHeld, nextEntry s x with
    | true, e :: l, _ =>
      writeEvt (s.modFunc func fun x => { x with evtHeld := l, detached := x.detached && !l.isEmpty }) func e
    | true, [], some e =>
      let t := stamped s e false
      posted (writeEvt (s.modFunc func fun x => { x with evtQueue := x.evtQueue.erase e }) func t) t
    | false, _, some e =>
      let t := stamped s e true
      posted (s.modFunc func fun x =>
        { x with evtQueue := x.evtQueue.erase e, evtHeld := x.evtHeld ++ [{ t with slot := none }] }) t
    | _, _, _ => s

/-- RING_VECTOR_SEND (R366): at most once per microsecond. -/
def execRingVectorSend (now func : Nat) (s : State) : Res :=
  timed s now (fun s => up s && !s.coll.freeze && s.host.linkUp && (s.func func).evtVectorDue && (s.func func).evtEnable
      && ((s.func func).evtVectorAt == 0 || decide (1000 + (s.func func).evtVectorAt ≤ time s))) fun s =>
    emit (s.modFunc func fun x => { x with evtVectorDue := false, evtVectorAt := time s }) (.msix func (s.func func).evtVector)

/-- EVT_FLUSH (R368, R371): every entry of the function written before is confirmed. -/
def execEvtFlush (now func : Nat) (s : State) : Res :=
  timed s now (fun s => s.host.linkUp && (s.func func).enabled) fun s =>
    readEffect s func .evt (s.func func).evtTail (s.modFunc func fun x => { x with evtRecent := [] })

/-- `EVT_HEAD` is written (R364, Table Host-8): beyond `EVT_TAIL` it is ignored, and in the tick in which the ring is set (Table
Registers-8). Counts wrap at 2^32. -/
def writeEvtHead (now head : Nat) (x : Func) : Func :=
  if x.evtSetAt = some now ∨ 2 ^ 31 ≤ (2 ^ 32 + x.evtTail - head % 2 ^ 32) % 2 ^ 32 then x else { x with evtHead := head % 2 ^ 32 }

/-- EVT_HEAD (R364). -/
def execEvtHead (func head : Nat) (s : State) : Res :=
  untimed s (fun s => writable s func .evt) fun s => s.modFunc func (writeEvtHead (time s) head)

/-- READ_BACK_COMPLETE (R367, R371): what waited for it may be written; the entries written before are confirmed. -/
def execReadBackComplete (now func : Nat) (s : State) : Res :=
  timed s now (fun s => up s && !s.coll.freeze && s.host.linkUp && (s.func func).enabled) fun s =>
    let s := s.modFunc func fun x =>
      { x with
        rsps := x.rsps.map fun r => { r with waits := false }
        evtQueue := x.evtQueue.map fun e => { e with waitsRb := false }
        evtRecent := [] }
    { s with steps := tmap s.steps fun _ st => if (s.part st.part).owner = func then { st with hostWrites := false } else st }

end Sys2Proof.Machine
end

