-- ==== Sys2Proof/Machine/Host.lean ====
section
/-! DEFINITION. The host side: device memory over CXL.mem and the aperture, bias, loss of the link, function-level reset, the reads
of HBM and host ports (R31, R280, R281, R345, R356 to R377). -/

namespace Sys2Proof.Machine

/-! ### Device memory (R358 to R360, R582) -/

/-- A byte of a partition's object space lies in a current object that satisfies a test. -/
def inObject (s : State) (p off : Nat) (c : MemObj → Bool) : Bool :=
  (s.part p).objs.any fun e => e.2.live && !e.2.freeing && c e.2 && decide (e.2.base ≤ off ∧ off < e.2.base + e.2.bytes)

/-- A host access to a byte is served (R360); `grant`: through the aperture with memory read open (R489). -/
def served (s : State) (p off : Nat) (grant : Bool) : Bool :=
  active s p && (inObject s p off (·.hostMap) || (grant && s.grants.memRead.contains p && decide (off < objSpace (s.part p))))

/-- Code 0x6702 for the first refused access in each whorl millisecond (R360). -/
def noteRefused (s : State) : State :=
  if s.coll.refusedMs = some (time s / 1000000) then s
  else reportCode (s.modColl fun x => { x with refusedMs := some (time s / 1000000) }) 0x6702

/-- The parts into which 64-byte lines cut `len` bytes at `off`: offset and length. -/
def lines64 : Nat → Nat → Nat → List (Nat × Nat)
  | 0, _, _ => []
  | n + 1, off, len =>
    if len = 0 then [] else
    let k := min len (64 - off % 64)
    (off, k) :: lines64 n (off + k) (len - k)

/-- A device-memory access, line by line: data, poison, and the state after it. -/
def devAccess (s : State) (p off len : Nat) (write : Option (List Byte)) (grant : Bool) : State × List Byte × List Bool :=
  (lines64 (len / 64 + 2) off len).foldl (fun (a : State × List Byte × List Bool) l =>
    let s := a.1
    let ok := (List.range l.2).all fun i => served s p (l.1 + i) grant
    match write with
    | some bs => if ok then (hbmWrite s p l.1 (slice bs (l.1 - off) l.2), a.2) else (noteRefused s, a.2)
    | none =>
      if ok then (s, a.2.1 ++ hbmRead s p l.1 l.2, a.2.2 ++ List.replicate l.2 (hbmPoisoned s p l.1 l.2))
      else (noteRefused s, a.2.1 ++ List.replicate l.2 0xFF, a.2.2 ++ List.replicate l.2 true)) (s, [], [])

/-- The completion of an access: a read returns its data. -/
def devAnswer (write : Option (List Byte)) (r : State × List Byte × List Bool) : State :=
  match write with
  | some _ => r.1
  | none => emit r.1 (.memRead r.2.1 r.2.2)

/-- An access that the block does not serve as a whole: a write is discarded, a read returns one byte value. -/
def devForced (s : State) (len : Nat) (write : Option (List Byte)) (v : Byte) (poison : Bool) : State :=
  devAnswer write (s, List.replicate len v, List.replicate len poison)

/-- CXL_MEM_ACCESS (R358, R360, R573, R574). -/
def execCxlMemAccess (now addr len : Nat) (write : Option (List Byte)) (s : State) : Res :=
  timed s now (fun s => s.host.linkUp && decide (0 < len ∧ addr + len ≤ 2 ^ 46)) fun s =>
    if s.mainReset || s.coll.freeze then devForced s len write 0xFF false
    else devAnswer write (devAccess s (addr / 2 ^ 40) (addr % 2 ^ 40) len write false)

/-- An access to the aperture (R359, R360, R573 to R576, R582). The debug grant of R489 opens reads alone. -/
def aperAccess (s : State) (off len : Nat) (write : Option (List Byte)) : State :=
  if s.mainReset || s.coll.freeze then devForced s len write 0xFF false
  else if s.life.minimal then devForced s len write 0xFF true
  else if (s.func 0).inFlr then devForced s len write 0 false
  else if !s.host.aperEnable then devForced (noteRefused s) len write 0xFF true
  else devAnswer write (devAccess s s.host.aperPart (s.host.aperOffset * 2 ^ 28 + off) len write write.isNone)

/-- APERTURE_ACCESS (R582). -/
def execApertureAccess (now off len : Nat) (write : Option (List Byte)) (s : State) : Res :=
  timed s now (fun s => s.host.linkUp && decide (0 < len ∧ off + len ≤ 2 ^ 28)) fun s => aperAccess s off len write

/-! ### Bias (R361, R362) -/

/-- BIAS_SET (R362): whole pages of one object change their bias; for host bias their lines are written back first. -/
def execBiasSet (m : Msg) (s : State) : Res :=
  let off := fld m.payload 8 8
  let n := fld m.payload 16 8
  let b := fld m.payload 24 1
  let p := namedPart m
  let o := objOf s p (fld m.payload 4 4)
  mbx { opcode := 0x0502, len := some 25, rsv := [(1, 3)], named := ownPart s m
        ranges := off % 4096 == 0 && n % 4096 == 0 && decide (b ≤ 1)
          && (match o with
              | some i => decide (off + n ≤ (memObj s p i).bytes)
              | none => true) } (fun s =>
    match objOf s p (fld m.payload 4 4) with
    | none => .refuse 0x0741
    | some i =>
      let pages := (List.range (n / 4096)).map (· + off / 4096)
      let o := memObj s p i
      let o : MemObj := { o with pages := if b = 1 then pages.foldl addNew o.pages else o.pages.filter fun g => !pages.contains g }
      let s := if b = 1 then cleanRange s p (hbmAddr p (o.base + off)) n else s
      .done (s.modPart p fun x => { x with objs := tput x.objs i o })) m s

/-! ### Requests that no response will answer -/

/-- A tag that no request carries any more. -/
def deadTag : Nat := 2 ^ 64

/-- The tags of a function's ring requests stand for no request any more: what they asked goes on unanswered (R345, R371). -/
def orphan (s : State) (f : Nat) (c : Taken → Bool) : State :=
  let dead := fun (r : Nat × Nat) => r.1 == f && (s.func f).taken.any fun t => t.tag == r.2 && c t
  let g := fun (r : Nat × Nat) => if dead r then (f, deadTag) else r
  let h := fun (r : Option (Nat × Nat)) => r.map g
  let l := fun (r : Option (List (Nat × Nat))) => r.map (·.map g)
  let k3 := fun (t : List (Nat × Nat × Option Nat)) =>
    t.map fun (e : Nat × Nat × Option Nat) => ((g (e.1, e.2.1)).1, (g (e.1, e.2.1)).2, e.2.2)
  let job := fun (j : FlashJob) => if dead (j.func, j.tag) then { j with tag := deadTag } else j
  let life : Life := { s.life with bistTag := h s.life.bistTag, flashJob := s.life.flashJob.map job }
  let s := { s with
    ctxs := tmap s.ctxs fun _ x => { x with drainTag := h x.drainTag }
    parts := tmap s.parts fun _ x => { x with
      reqTag := h x.reqTag
      resetTags := x.resetTags.map k3
      objs := tmap x.objs fun _ o => { o with zeroTag := h o.zeroTag }
      progs := tmap x.progs fun _ o => { o with loading := h o.loading }
      bobbins := tmap x.bobbins fun _ o => { o with installing := h o.installing } }
    tiles := tmap s.tiles fun _ x => { x with testing := l x.testing }
    movers := tmap s.movers fun _ x => { x with testing := l x.testing }
    sorters := tmap s.sorters fun _ x => { x with testing := l x.testing }
    reducers := tmap s.reducers fun _ x => { x with testing := l x.testing }
    jobs := tmap s.jobs fun _ x => { x with crTag := h x.crTag }
    life }
  s.modFunc f fun x => { x with taken := x.taken.filter fun t => !c t }

/-! ### The host link (R370 to R376) -/

/-- The entries that a link-down puts into the held list: those written in the last 20 us and not confirmed, marked. -/
def redeliver (s : State) (x : Func) : List Entry :=
  (x.evtRecent.filter fun r => decide (time s < 20000 + r.1)).map fun r =>
    { r.2 with held := true, redelivered := true, posted := time s }

/-- One function is marked detached (R370, R371). -/
def detach (s : State) (lost : List Nat) (f : Nat) : State :=
  let s := orphan s f fun t => !t.boot
  let s := openQueues s fun r => r.1 == f
  s.modFunc f fun x =>
    { x with
      detached := true, enable := false, disabling := false, evtEnable := false, evtVectorDue := false
      rsps := x.rsps.filter (·.boot)
      evtHeld := redeliver s x ++ x.evtHeld.filter fun e => e.kind != 5
      evtRecent := []
      evtQueue := x.evtQueue.map fun e =>
        if e.waitsRb && (match e.slot with
            | some k => lost.contains k
            | none => false) then { e with waitsRb := false, status := 0x0A01 } else e }

/-- The step has traffic with the host: writes not yet read back, or an object with pages in host bias (R361, R371). -/
def touchesHost (s : State) (st : Step) : Bool :=
  st.hostWrites || (st.inputs ++ st.outputs).any fun h => h != 0xFFFFFF && !(memObj s st.part (h % 65536)).pages.isEmpty

/-- HOST_LINK_DOWN (R245, R370, R371, R372): 0xA701 with outbound writes in flight; the steps whose host traffic was lost fail with
0x0A01, interrupted backing copies are no longer valid, and fills from backing copies fail. -/
def execHostLinkDown (now : Nat) (writes : Bool) (lost : LostTraffic) (s : State) : Res :=
  timed s now (fun s => s.host.linkUp) fun s =>
    let s := { s with host := { s.host with linkUp := false, atsValid := false } }
    if !up s then s
    else
      let lostSlots := lost.slots.filter fun k => (tfind s.steps k).any (touchesHost s)
      let s := if writes then reportCode s 0xA701 else s
      let s := forAll lostSlots (fun s k => failStep s k 0x0A01) s
      let s := { s with steps := tmap s.steps fun k st =>
        if lostSlots.contains k && st.hostWrites && st.fail.isNone then { st with fail := some 0x0A01 } else st }
      let s := forAll lost.copies (fun s c => modBobbin s c.1 c.2 fun b => { b with backing := false }) s
      let s := forAll (s.parts.map (·.1)) loseHost s
      forAll ((s.funcs.filter fun e => e.2.enabled).map (·.1)) (fun s f => detach s lostSlots f) s

/-- HOST_LINK_UP (R376): engine accesses that waited for the link can go on. -/
def execHostLinkUp (now : Nat) (s : State) : Res :=
  timed s now (fun s => !s.host.linkUp) fun s => { s with host := { s.host with linkUp := true } }

/-- HOST_MASTER_READ_TIMEOUT (R377): 0xA703; the work it served fails with 0x0A01. -/
def execHostMasterReadTimeout (now slot : Nat) (s : State) : Res :=
  timed s now up fun s => report s { code := 0xA703, slots := [slot] }

/-! ### HBM (R31, R33, R34) -/

/-- HBM_READ_RETURN, in any order within a port (R31): a corrected error is 0x6401, poison 0xA402; a copy carries the poison,
so the port's report names no step (R62). A read made under an earlier slot generation is dropped (R454, R455). `addr` is the
line of the port (R259, R263). -/
def execHbmReadReturn (now port tag slot slotGen addr : Nat) (poison corrected : Bool) (s : State) : Res :=
  timed s now (fun s => up s && decide (port / 4 < granuleCount s.variant)) fun s =>
    let s := { s with hbmReads := s.hbmReads.filter fun q => !(q.port == port && q.tag == tag && q.line == addr) }
    let inj := armed s 36 0 port
    let s := if inj then consume s 36 0 port else s
    let s := if poison || inj then { s with hbmPoison := addNew s.hbmPoison (portLine s port addr) } else s
    let s := if corrected then reportCode s 0x6401 else s
    let s := if poison || inj then reportCode s 0xA402 else s
    match tfind s.quar slot with
    | some q => if slotGen = tget s.slotGen slot 0 then s else { s with quar := tput s.quar slot { q with openReqs := q.openReqs - 1 } }
    | none => s

/-! ### Function-level reset (R280, R281, R345) -/

/-- Everything a partition's function holds in it is torn down (R281). -/
def flrPart (s : State) (p : Nat) : State :=
  let ks := slotsWhere s fun st => st.part == p
  let s := forAll ks (fun s k => failStep s k 0x0D04) s
  let s := forAll ks (fun s k => finishStep s k false) s
  let s := forAll (partCtxs s p) (fun s c => teardown s p c 0x0D04) s
  let s := traceOff (dropQueues s p) p
  let s := s.modPart p fun x =>
    { x with
      objs := tmap x.objs fun _ o => if o.live then { o with freeing := true, traceRef := false } else o
      fences := tmap x.fences fun _ f => if f.live then { f with freeing := true } else f
      progs := tmap x.progs fun _ g => { g with hints := [], staged := none }
      watch := {} }
  reap s p

/-- The function's own registers and lists after an FLR (R281, R345). -/
def flrFunc (x : Func) (ps : List Nat) : Func :=
  { enabled := x.enabled, gen := (x.gen + 1) % 256, inFlr := true, flrParts := ps, exhausted := x.exhausted
    authFails := x.authFails, ctrLast := x.ctrLast, key := x.key }

/-- FLR (R281). -/
def execFlr (now func : Nat) (s : State) : Res :=
  timed s now (fun s => up s && (s.func func).enabled) fun s =>
    let ps := (s.parts.filter fun e => e.2.state == 2 && e.2.owner == func).map (·.1)
    let s := orphan s func fun _ => true
    let s := s.modFunc func fun x => flrFunc x ps
    forAll ps flrPart s

/-- FLR_COMPLETE (R281, R500): the object parts are clear, the function answers again. -/
def execFlrComplete (now func : Nat) (s : State) : Res :=
  timed s now (fun s => up s && (s.func func).inFlr) fun s =>
    let s := forAll (s.func func).flrParts (fun s p =>
      if active s p then
        scrubRecord (hbmClear s p 0 (objSpace (s.part p))) 2 p (partGranules (s.part p))
      else s) s
    s.modFunc func fun x => { x with inFlr := false, flrParts := [] }

end Sys2Proof.Machine
end

