-- ==== Sys2Proof/Machine/Scheduling.lean ====
section
/-! DEFINITION. Step queues, the admission of steps, their states, switches, fallbacks, deadlines and release (R297 to R330, R433
to R436). -/

namespace Sys2Proof.Machine

/-! ### Queues -/

/-- Queues of a partition. -/
def partQueues (s : State) (p : Nat) : List (Nat × Queue) := s.queues.filter fun e => e.2.live && e.2.part == p

/-- QUEUE_CREATE (R297). -/
def execQueueCreate (m : Msg) (s : State) : Res :=
  let n := fld m.payload 8 2
  mbx (ownMsg s m 0x0401 11 [] (decide (fld m.payload 10 1 ≤ 1))) (fun s =>
    let p := namedPart m
    let h := fld m.payload 4 4
    match objOf s p h with
    | none => .refuse 0x0741
    | some i =>
      if !(decide (16 ≤ n ∧ n ≤ 4096) && 2 ^ log2 n == n) then .refuse 0x0925
      else if (memObj s p i).bytes < 128 * n ∨ !(memObj s p i).hostMap then .refuse 0x0742
      else if (s.part p).qQueues ≤ (partQueues s p).length then .refuse 0x0925
      else match freeIndex s.queues (fun _ => true) 4096, (List.range (s.part p).qQueues).find? fun j => (partQueues s p).all fun e => e.2.j != j with
        | some q, some j =>
          let x : Queue := { live := true, part := p, j, ring := h, entries := n, ordered := fld m.payload 10 1 == 1
                             crTag := some (m.func, m.tag) }
          .detail (s.modQueue q fun _ => x) (q + 65536 * j)
        | _, _ => .refuse 0x0925) m s

/-- The queue that a function calls `n` in a partition: q from the PF, j from a VF. -/
def queueNamed (s : State) (f p n : Nat) : Option Nat :=
  ((partQueues s p).find? fun e => !e.2.destroyed && (if f = 0 then e.1 == n else e.2.j == n)).map (·.1)

/-- QUEUE_DESTROY (R329): admitted steps run to completion. -/
def execQueueDestroy (m : Msg) (s : State) : Res :=
  mbx (ownMsg s m 0x0402 6 [] true) (fun s =>
    match queueNamed s m.func (namedPart m) (fld m.payload 4 2) with
    | none => .refuse 0x0925
    | some q =>
      let s := if s.steps.any fun e => e.2.queue == q then s.modQueue q fun x => { x with destroyed := true }
        else { s with queues := tdel s.queues q }
      .done (reap s (namedPart m))) m s

/-- A doorbell is taken (R299, R525, R574, R581, Table Registers-8). -/
def doorbellOk (s : State) (func index : Nat) : Bool :=
  writable s func .doorbell && (match (if func = 0 then some index else (boundPart s func).bind fun p => queueNamed s func p index) with
      | some q => match tfind s.queues q with
        | some x => x.live && !x.destroyed && !x.stopped && active s x.part && s.power.admitting
            && (match x.openAt with
              | some t => decide (t < time s)
              | none => false)
        | none => false
      | none => false)

/-- A doorbell's effect (R298, R329): index q from the PF, j from a VF. -/
def ringDoorbell (s : State) (func index tail : Nat) : State :=
  match (if func = 0 then some index else (boundPart s func).bind fun p => queueNamed s func p index) with
  | none => s
  | some q =>
    let x := s.queue q
    if x.entries < (65536 + tail % 65536 - x.head) % 65536 then
      pushEntry (s.modQueue q fun y => { y with stopped := true }) (s.part x.part).owner
        { kind := 3, status := 0x0810, queue := queueField s x.part q }
    else s.modQueue q fun y => { y with tail := tail % 65536 }

/-- STEP_QUEUE_DOORBELL (R298, R299, R329). -/
def execStepQueueDoorbell (func index tail : Nat) (s : State) : Res :=
  untimed s (fun s => doorbellOk s func index) fun s => ringDoorbell s func index tail

/-! ### Settings, accounts, power -/

/-- SCHED_SET (R326, R330). -/
def execSchedSet (m : Msg) (s : State) : Res :=
  let k := fld m.payload 4 1
  mbx (ownMsg s m 0x0403 20 [(6, 2)] (decide (k < 16))) (fun s =>
    let p := namedPart m
    let c := fld m.payload 5 1
    let q := fld m.payload 8 4
    let t := fld m.payload 12 4
    let h := fld m.payload 16 4
    if (bitOf k 0 && decide (64 < c)) || (bitOf k 1 && decide (q < 100 ∨ 100000 < q)) || (bitOf k 2 && decide (1000000 < t))
        || (bitOf k 3 && decide (h < 1 ∨ 10000 < h)) then .refuse 0x0811
    else
      let old := (s.part p).staged.getD (s.part p).cur
      let new : Settings := { clock := if bitOf k 0 then c else old.clock, quantum := if bitOf k 1 then q else old.quantum
                              miss := if bitOf k 2 then t else old.miss, hang := if bitOf k 3 then h else old.hang }
      .done (Machine.staged (s.modPart p fun x => { x with staged := some new }) p)) m s

/-- A context accounting record (Table Scheduling-5). -/
def ctxRecord (s : State) (c : Nat) : List Byte :=
  let x := s.ctx c
  toLe 4 (ctxHandle c x.gen) ++ toLe 4 x.steps ++ toLe 8 x.waitNs ++ toLe 8 x.runNs ++ toLe 8 x.engineNs ++ toLe 8 x.bytes
    ++ toLe 8 x.energy ++ toLe 4 x.preempt ++ toLe 4 x.fallbacks ++ toLe 4 x.late ++ toLe 4 0

/-- An engine record as ACCOUNT_READ writes it. DESIGN CHOICE (log 27): the spec gives its counts and no layout. -/
def engBytes (e : Nat) (r : EngRec) : List Byte := toLe 8 e ++ toLe 8 r.busy ++ toLe 8 r.bytes ++ toLe 8 r.energy

/-- The sums of a kind of engine. -/
def sumRecs (s : State) (lo hi : Nat) : EngRec :=
  (s.engRecs.filter fun e => decide (lo ≤ e.1 ∧ e.1 < hi)).foldl
    (fun a e => { busy := a.busy + e.2.busy, bytes := a.bytes + e.2.bytes, energy := a.energy + e.2.energy }) {}

/-- The records of a kind (R325, R355): 0 contexts, 1 tiles of the partition, 2 movers, sorters and reducers, 3 block sums. -/
def accountRecords (s : State) (p kind : Nat) : List (List Byte) :=
  if kind = 0 then (partCtxs s p).map (ctxRecord s)
  else if kind = 1 then (partTiles (s.part p)).map fun t => engBytes t (s.engRec t)
  else if kind = 2 then
    (((List.range (dies s.variant)).map (· + 2048)) ++ ((List.range (dies s.variant)).map (· + 2080))
      ++ ((List.range (reducerCount s.variant)).map (· + 2112))).map fun e => engBytes e (s.engRec e)
  else [engBytes 0 (sumRecs s 0 2048), engBytes 2048 (sumRecs s 2048 2080), engBytes 2080 (sumRecs s 2080 2112),
    engBytes 2112 (sumRecs s 2112 2118)]

/-- ACCOUNT_READ (R325). -/
def execAccountRead (m : Msg) (s : State) : Res :=
  let k := fld m.payload 4 1
  mbx (ownMsg s m 0x0404 8 [(5, 1)] (decide (k ≤ 3))) (fun s =>
    if 2 ≤ k ∧ m.func ≠ 0 then .refuse 0x0906
    else
      let l := (accountRecords s (namedPart m) k).drop (fld m.payload 6 2)
      let n := if k = 0 then 64 else 32
      let l := l.take (m.extBytes / n)
      .output s l.length l.flatten) m s

/-- POWER_LIMIT (R328, R351): the pinned budgets and 0.4 GHz operation that a limit must cover are modelled power (log 11). -/
def execPowerLimit (m : Msg) (s : State) : Res :=
  let w := fld m.payload 4 2
  mbx { opcode := 0x0405, critical := true, pfOnly := true, len := some 6, rsv := [(0, 4)] } (fun s =>
    let (need, s') := draw s
    if w < 400 ∨ maxPower s.variant < w ∨ w < need then .refuse 0x0931
    else .done (s'.modPower fun p => { p with limit := w })) m s

/-- Partitions whose clock R328 may lower, with their grant. -/
def lowerable (s : State) : List (Nat × Nat) :=
  (s.parts.filter fun e => e.2.state == 2 && !e.2.isolated && decide (0 < grantOf s e.1 e.2)).map fun e => (e.1, grantOf s e.1 e.2)

/-- POWER_MODEL_UPDATE (R328): over the limit, the highest grant goes down one step; at least 5% below it, the last one lowered
goes up again. -/
def execPowerModelUpdate (now modelMw : Nat) (s : State) : Res :=
  timed s now ready fun s =>
    if 1000 * s.power.limit < modelMw then
      match minBy (fun e => 65536 * (64 - e.2) + e.1) (lowerable s) with
      | some e => Machine.staged (s.modPower fun p => { p with lowered := e.1 :: p.lowered }) e.1
      | none => s
    else if 100 * modelMw ≤ 95000 * s.power.limit then
      match s.power.lowered with
      | p :: l => Machine.staged (s.modPower fun x => { x with lowered := l }) p
      | [] => s
    else s

/-! ### Admission (R300 to R303) -/

/-- A descriptor as it is read (Table Scheduling-2). -/
def handle3 (d : List Byte) (off : Nat) : List Nat := (List.range 8).map fun j => fld d (off + 3 * j) 3

/-- Wait or signal handles of a descriptor. -/
def fences4 (d : List Byte) (off : Nat) : List Nat := (List.range 4).map fun j => fld d (off + 3 * j) 3

/-- Bytes of a bound tensor with its companions (R168, R288). -/
def boundBytes (f : Upf.File) (i : Nat) : Nat :=
  let t := tensorOf f i
  [t.scale, t.meta24].foldl (fun n c => if c = 0xFFFF then n else roundUp n 64 + (tensorOf f c).bytes) t.bytes

/-- Bytes that slot `j` of a kind must hold: the program's tensor, and every fallback tensor that its map joins to it (R288). -/
def slotBytes (f : Upf.File) (fb : Option Upf.File) (kind j : Nat) : Nat :=
  let own := match slotTensor f kind j with
    | some i => boundBytes f i
    | none => 0
  match fb, f.fallback with
  | some g, some b =>
    let map := if kind = 0 then b.inMap else b.outMap
    (List.range 8).foldl (fun n k => match slotTensor g kind k with
      | some i => if nth map k 0xFF = j then max n (boundBytes g i) else n
      | none => n) own
  | _, _ => own

/-- The object rules of R288 for the slots of a kind, in slot order: 0, 0x0741 or 0x0742. -/
def objStatus (s : State) (p c : Nat) (f : Upf.File) (fb : Option Upf.File) (kind : Nat) (hs : List Nat) : Nat :=
  hs.zipIdx.foldl (fun st e =>
    if st ≠ 0 ∨ e.1 = 0xFFFFFF then st
    else match objFor s p c e.1 with
      | none => 0x0741
      | some i => if (memObj s p i).bytes < slotBytes f fb kind e.2 then 0x0742 else 0) 0

/-- The fence rules of R291: 0, 0x0751 or 0x0753. -/
def fenceStatus (s : State) (p c : Nat) (waits signals : List Nat) : Nat :=
  let live := fun (l : List Nat) => l.filter (· ≠ 0xFFFFFF)
  if (live waits).any fun h => (fenceFor s p c h).isNone then 0x0751
  else (live signals).zipIdx.foldl (fun st e =>
    if st ≠ 0 then st
    else match fenceFor s p c e.1 with
      | none => 0x0751
      | some i =>
        let x := tget (s.part p).fences i {}
        if x.host || x.status.isSome || signallerPending s p i || ((live signals).take e.2).contains e.1 then 0x0753 else 0) 0

/-- Slots bound by the program hold a handle and the others none (Table Scheduling-3 order 6). -/
def slotsBound (f : Upf.File) (kind : Nat) (hs : List Nat) : Bool :=
  hs.zipIdx.all fun e => (e.1 != 0xFFFFFF) == (slotTensor f kind e.2).isSome

/-- The bobbin that a descriptor names (R302): none when it needs none; `some none` when it is absent. -/
def namedBobbin (s : State) (p : Nat) (f : Upf.File) (d : List Byte) : Option (Option Nat) :=
  let i := fld d 12 2
  if i = 0xFFFF then (if f.req.bobbinBytes = 0 then none else some none)
  else if f.req.bobbinBytes ≠ 0 ∧ hasBobbin s p i ∧ !(bobbin s p i).removing ∧ fld (digestBytes (bobbin s p i).digest) 0 8 = fld d 16 8
  then some (some i) else some none

/-- The catalogue index of the bobbin that a fallback binding names (R185, R302). -/
def fallbackBobbin (s : State) (p : Nat) (b : Upf.Fallback) : Option Nat :=
  if b.bobbin = 0 then none
  else ((s.part p).bobbins.find? fun e => e.2.live && e.2.installing == none && e.2.digest == b.bobbin).map (·.1)

/-- The program that a 4-byte field names as fallback (Table Scheduling-3 order 4). -/
def namedFallback (s : State) (p : Nat) (f : Upf.File) (h : Nat) : Option (Option Nat) :=
  if h = 0xFFFFFFFF then some none
  else match progOf s p h, f.fallback with
    | some i, some b => if (prog s p i).upf.digest = b.program then some (some i) else none
    | _, _ => none

/-- The status that refuses a descriptor before its reservation, or 0 (Table Scheduling-3, then R288 and R291). -/
def admitStatus (s : State) (p : Nat) (d : List Byte) : Nat :=
  if bits (fld d 14 2) 15 2 ≠ 0 ∨ !zeroRange d 120 8 then 0x0801
  else match ctxOf s p (fld d 0 4) with
    | none => 0x0731
    | some c =>
      if (s.ctx c).draining then 0x0731
      else match progOf s p (fld d 4 4) with
        | none => 0x0803
        | some g =>
          let f := (prog s p g).upf
          match namedFallback s p f (fld d 8 4) with
          | none => 0x0802
          | some fb =>
            let ff := fb.map fun i => (prog s p i).upf
            if namedBobbin s p f d = some none then 0x0601
            else if !slotsBound f 0 (handle3 d 48) || !slotsBound f 1 (handle3 d 72) then 0x0804
            else
              let a := objStatus s p c f ff 0 (handle3 d 48)
              let b := objStatus s p c f ff 1 (handle3 d 72)
              if a ≠ 0 then a else if b ≠ 0 then b else fenceStatus s p c (fences4 d 96) (fences4 d 108)

/-- The sort descriptors of a program that are constants and name a home table (R141, R151). -/
def remoteSorts (f : Upf.File) : List SortDesc :=
  (f.skeins.flatMap fun k => k.code.filterMap fun i => match i with
    | .sort a _ => if (vt f a).kind = 5 then some (constDesc f a) else none
    | _ => none).filter fun d => d.home != 0

/-- Bytes of a receive buffer: C rows at their stride, then the manifest area (R151 to R153). -/
def recvBytes (d : SortDesc) : Nat := 48 * (sortCap d * rowCells d + ceilDiv (max (sortCap d) 1) 5)

/-- The other packages of a job, the sources of receive buffers here. -/
def recvSources (s : State) (j : Nat) : List Nat := (((s.job j).members.map (·.pkg)).filter (· != myPkg s)).dedup

/-- The receive buffers of a program in a job: sort, expert, source package, and offset from the first; one for each, in the
reservation of the step behind its intermediates and save area (R151; DESIGN CHOICE, log 143). -/
def recvBufs (s : State) (f : Upf.File) (j : Nat) : List (SortDesc × Nat × Nat × Nat) :=
  ((remoteSorts f).foldl (fun (a : Nat × List (SortDesc × Nat × Nat × Nat)) d =>
    let l := (List.range d.experts).flatMap fun e => (recvSources s j).map fun k => (e, k)
    (a.1 + l.length * recvBytes d, a.2 ++ l.zipIdx.map fun e => (d, e.1.1, e.1.2, a.1 + e.2 * recvBytes d))) (0, [])).2

/-- Bytes of them. -/
def recvSpace (s : State) (f : Upf.File) (j : Nat) : Nat :=
  sumNat ((remoteSorts f).map fun d => d.experts * (recvSources s j).length * recvBytes d)

/-- Bytes that a context needs reserved for a program, 0 when it holds them (R151, R283). -/
def needReserve (s : State) (p c g : Nat) : Nat :=
  let x := prog s p g
  if (s.part p).reservs.any fun r => r.ctx == c && r.ctxGen == (s.ctx c).gen && r.prog == g then 0
  else x.upf.req.hbmBytes + x.saveBytes + (match x.job with
    | some j => recvSpace s x.upf j
    | none => 0)

/-- A reservation at a place that firmware chose. `some none`: no place fits. `none`: the place does not fit, though one does, so
firmware did not choose it. -/
def reserveAt (s : State) (p c g base : Nat) : Option (Option State) :=
  let n := needReserve s p c g
  if n = 0 then some (some s)
  else if (findRange (usedRanges s p) (objSpace (s.part p)) 0 n).isNone then some none
  else if base + n ≤ objSpace (s.part p) ∧ (usedRanges s p).all fun u => decide (base + n ≤ u.1 ∨ u.1 + u.2 ≤ base) then
    some (some (s.modPart p fun x => { x with reservs := x.reservs ++ [{ ctx := c, ctxGen := (s.ctx c).gen, prog := g, base, bytes := n }] }))
  else none

/-- The reservations of a step's program and fallback. -/
def reserveBoth (s : State) (p c g base : Nat) (fb : Option Nat) (fbBase : Nat) : Option (Option State) :=
  match reserveAt s p c g base, fb with
  | some (some s), some i => reserveAt s p c i fbBase
  | r, _ => r

/-- The step of a descriptor, in the state ADMITTED. -/
def stepOf (s : State) (p q seq : Nat) (d : List Byte) : Step :=
  { part := p, queue := q, seq, ctx := fld d 0 4 % 4096, ctxGen := fld d 0 4 / 4096, deadline := fld d 24 8
    cookie := BitVec.ofNat 64 (fld d 32 8), layerBase := fld d 40 4, opBase := fld d 44 4, abortLate := bitOf (fld d 14 2) 0
    noFallback := bitOf (fld d 14 2) 1, queuedAt := time s, stateAt := time s }

/-- The fences that a refused step signals ERROR (R303). -/
def refusedSignals (s : State) (p : Nat) (l : List Nat) : List Nat :=
  (l.filter fun h => h != 0xFFFFFF && (match fenceOf s p h with
    | some i =>
      let f := tget (s.part p).fences i {}
      !f.host && f.status.isNone && !signallerPending s p i
    | none => false)).dedup

/-- A refused step: its completion entry is due at once (R303); it released no program, so no watch result is written (R563). -/
def refuseStep (s : State) (slot : Nat) (st : Step) (d : List Byte) (status : Nat) : State :=
  let x := { st with state := 6, fail := some (BitVec.ofNat 16 status), signals := refusedSignals s st.part (fences4 d 108),
                     notedDone := true }
  pushEntry { s with steps := tput s.steps slot x } (s.part st.part).owner (stepEntry s slot x)

/-- The whole step of an accepted descriptor, WAITING. -/
def acceptedStep (s : State) (st : Step) (d : List Byte) (job : Option (Nat × Nat)) : Step :=
  let p := st.part
  let g := (progOf s p (fld d 4 4)).getD 0
  let f := (prog s p g).upf
  let fb := (namedFallback s p f (fld d 8 4)).getD none
  { st with
    state := 1, prog := g, fallback := fb, bobbin := (namedBobbin s p f d).getD none
    fbBobbin := if fb.isSome then f.fallback.bind (fallbackBobbin s p) else none
    inputs := handle3 d 48, outputs := handle3 d 72, waits := fences4 d 96, signals := fences4 d 108, job }

/-- Views that remote operations address at this member (R193, R381). -/
def remoteViews (f : Upf.File) : List Nat :=
  f.skeins.flatMap fun k => k.code.filterMap fun i => match i with
    | .send _ d m => if m = 0xFFFF then none else some d
    | .fetch a _ m => if m = 0xFFFF then none else some a
    | _ => none

/-- Collectives of a program: destination view and bytes of the window (R381, R407). -/
def collWindows (f : Upf.File) : List (Nat × Nat) :=
  f.skeins.flatMap fun k => k.code.filterMap fun i => match i with
    | .coll a d pattern _ _ count _ => some (d, collBytes f a d pattern count)
    | _ => none

/-- Windows that may be opened now, closed longest ago first (R457, R458). -/
def freeWindow (s : State) : Option Nat :=
  if time s < 10000000 + s.life.startAt then none
  else minBy (fun w => (s.window w).closedAt) ((List.range 1023).filter fun w =>
    !(s.window w).isOpen && ((s.window w).gen == 0 && (s.window w).closedAt == 0 || decide (10000000 + (s.window w).closedAt ≤ time s)))

/-- Open a window on a range of object space for the other members of a job; their queue pairs are firmware's choice. -/
def openWindow (s : State) (p j base size kinds : Nat) : State :=
  match freeWindow s with
  | none => s
  | some w =>
    let qps := (List.range (s.job j).members.length).map fun k => Config.freeNat (s.fresh + k) % 65536
    let s := { s with fresh := s.fresh + qps.length }
    s.modWindow w fun x => { x with isOpen := true, part := p, job := j, base, size, kinds, qps }

/-- The windows of a job step's sort receive buffers: one for each local expert and source package (R151, R381). -/
def openRecvWindows (s : State) (st : Step) (j : Nat) : State :=
  let f := stepFile s st
  let p := st.part
  let base := resvBase s p st.ctx st.ctxGen (runProg st) + f.req.hbmBytes + saveBytesOf f
  forAll (recvBufs s f j) (fun s b =>
    if isRemote s p b.1 b.2.1 then s else openWindow s p j (base + b.2.2.2) (recvBytes b.1) 1) s

/-- Object-space place of a tensor, 0 where it lies elsewhere. -/
def hbmBase (s : State) (slot : Nat) (st : Step) (i : Nat) : Nat :=
  match tensorPlace s slot st i with
  | .hbm _ b => b
  | _ => 0

/-- Tensors that other members write here because of the split: intermediates that skeins of both name, and at member 0 the outputs
(R204). -/
def splitTensors (s : State) (st : Step) : List Nat :=
  let f := stepFile s st
  let names := fun (own : Bool) => (f.skeins.zipIdx.filter fun e => ownSkein s st e.2 == own).flatMap fun e =>
    (codeViews e.1).map fun v => (viewOf f v).tensor
  ((names false).filter fun i => ((tensorOf f i).kind == 3 && (names true).contains i)
    || ((tensorOf f i).kind == 1 && stepMember s st == 0)).dedup

/-- The windows of a job step at this member: one for every tensor of object space that a remote view or the split addresses, one
that only reductions may use for every collective, and its sort receive buffers (R381, R407, R465). -/
def openStepWindows (s : State) (slot : Nat) (st : Step) : State :=
  match st.job with
  | none => s
  | some (j, _) =>
    let f := stepFile s st
    let s := forAll ((((remoteViews f).map fun v => (viewOf f v).tensor) ++ splitTensors s st).dedup) (fun s i =>
      let s := settleInter s none st i
      match tensorPlace s slot st i with
      | .hbm p b => openWindow s p j b (boundBytes f i) 1
      | _ => s) s
    let s := forAll (collWindows f) (fun s c =>
      let i := (viewOf f c.1).tensor
      let s := settleInter s none st i
      openWindow s st.part j (hbmBase s slot st i) c.2 2) s
    openRecvWindows s st j

/-- An accepted step takes its references: absent bobbins join the fetch order (its fallback's ahead of its own), the monitor
arms its deadline, the windows of a job step open, and a waited fence that already carries ERROR or ABANDONED fails it (R231,
R240, R292). -/
def settleStep (s : State) (slot : Nat) (st : Step) : State :=
  let st := { st with arrival := (s.part st.part).arrivals }
  let s := armMonitor { s with steps := tput s.steps slot st }
  let s := s.modPart st.part fun x => { x with arrivals := x.arrivals + 1 }
  let s := forAll (st.fbBobbin.toList ++ st.bobbin.toList) (fun s b => wantBobbin s st.part b) s
  let s := openStepWindows s slot st
  let seen := fun (h : Nat) => (tget (s.part st.part).fences (h % 65536) {}).status.getD 0
  let v := st.waits.zipIdx.foldl (fun v e => if e.1 = 0xFFFFFF then v else setView v e.2 (seen e.1)) 0
  let s := s.modStep slot fun x => { x with waitView := v }
  if v = 0 then s else failStep s slot 0x0754

/-- A slot of partition `p` is free (R300, R455). -/
def slotFree (s : State) (p slot : Nat) : Bool :=
  decide (slot < 4096) && (tfind s.steps slot).isNone && (tfind s.quar slot).isNone
    && decide ((s.steps.filter fun e => e.2.part == p).length + (s.quar.filter fun e => e.2.part == p).length < (s.part p).qSlots)

/-- Steps are admitted in partition `p` (R447, R451, R525). -/
def admits (s : State) (p : Nat) : Bool :=
  ready s && s.power.admitting && !s.coll.freeze && active s p && (s.part p).resetTags.isNone

/-- The descriptor at a queue's head (R298). -/
def headDesc (s : State) (x : Queue) : List Byte :=
  hbmRead s x.part ((memObj s x.part (x.ring % 65536)).base + 128 * (x.head % x.entries)) 128

/-- A job step is numbered and forwarded to the other members, with what the split makes of it (R251, R459). -/
def forwardJob (s : State) (j : Nat) (d : List Byte) (x : Split) : State :=
  let k := (s.job j).jstep
  let s := s.modJob j fun x => { x with jstep := (k + 1) % 2 ^ 32 }
  forAll ((s.job j).members.zipIdx.drop 1) (fun s e =>
    sendCtl s e.1.part e.1.pkg (tfind (s.job j).routes e.2) (.derived e.1.pkg k d x)) s

/-- Admit a descriptor into a slot; none when firmware could not have chosen these places. -/
def acceptStep (s : State) (p q slot seq base fbBase : Nat) (d : List Byte) : Option State :=
  let st := stepOf s p q seq d
  let c := admitStatus s p d
  if c ≠ 0 then some (refuseStep s slot st d c)
  else
    let g := (progOf s p (fld d 4 4)).getD 0
    let fb := (namedFallback s p (prog s p g).upf (fld d 8 4)).getD none
    match reserveBoth s p st.ctx g base fb fbBase with
    | none => none
    | some none => some (refuseStep s slot st d 0x0733)
    | some (some t) => match (prog s p g).job with
      | none => some (settleStep t slot (acceptedStep s st d none))
      | some j =>
        if (s.job j).broken || !(s.job j).live then some (refuseStep s slot st d 0x0D11)
        else
          let x := acceptedStep s st d (some (j, (s.job j).jstep))
          let (t, y) := onShard (forwardJob t j d (splitOf s p j x.bobbin)) j x
          some (settleStep t slot y)

/-- STEP_ADMIT (R300, R301, R303). -/
def execStepAdmit (now q slot base fbBase : Nat) (s : State) : Res :=
  timed s now (fun s => match tfind s.queues q with
      | some x => x.live && !x.destroyed && !x.stopped && x.head != x.tail && admits s x.part && slotFree s x.part slot
      | none => false) fun s =>
    let x := s.queue q
    let d := headDesc s x
    let t := s.modQueue q fun y => { y with head := (y.head + 1) % 65536, seq := (y.seq + 1) % 2 ^ 32 }
    (acceptStep t x.part q slot x.seq base fbBase d).getD s

/-! ### Becoming READY (R304) -/

/-- Every waited fence is SIGNALLED OK. -/
def waitsMet (s : State) (st : Step) : Bool :=
  st.waits.all fun h => h == 0xFFFFFF || (tget (s.part st.part).fences (h % 65536) {}).status == some 0

/-- Sequence number `a` was given before `b`, the count wrapping at 2^32 (R301). -/
def seqBefore (a b : Nat) : Bool := a != b && decide ((2 ^ 32 + b - a) % 2 ^ 32 < 2 ^ 31)

/-- The queue's previous steps have posted, where the queue is ordered (R297). -/
def inOrder (s : State) (st : Step) : Bool :=
  !(s.queue st.queue).ordered || !(s.steps.any fun e => e.2.queue == st.queue && seqBefore e.2.seq st.seq)

/-- STEP_READY (R232, R304, R309): an earlier deadline schedules a switch of the running step. -/
def execStepReady (now slot : Nat) (s : State) : Res :=
  timed s now (fun s => ready s && (match tfind s.steps slot with
      | some st => st.state == 1 && waitsMet s st && inOrder s st && (ownResident s st || fbResident s st)
      | none => false)) fun s =>
    let s := setState s slot 2
    match tfind s.steps slot with
    | none => s
    | some st => requestSwitch s st.part (arrivalSwitch s st)

/-! ### The step boundary (R305, R307) -/

/-- A step that the boundary may choose: READY with its own bobbin or a fallback that it would take, or SUSPENDED (R232, R307). -/
def eligible (s : State) (slot : Nat) (st : Step) : Bool :=
  (st.state == 2 && (ownResident s st || wantsFallback s slot st)) || st.state == 4

/-- The step that R307 chooses. -/
def chosen (s : State) (p : Nat) : Option Nat :=
  ((s.steps.filter fun e => e.2.part == p && eligible s e.1 e.2).foldl (fun (b : Option (Nat × Step)) e =>
    match b with
    | none => some e
    | some x => if ranks e.2 x.2 then some e else b) none).map (·.1)

/-- Routes are computed again at a job's step boundary: by member 0 every member's, by another its own, as the links it sees
are (R252, R254). -/
def rerouteJobs (s : State) (p : Nat) : State :=
  forAll (jobsOf s p) (fun s j =>
    let pairs := pairRoutes s (s.job j).members
    let i := memberIdx s j p
    if i = 0 then (if (s.job j).pairs = pairs then s else installRoutes s j)
    else if (s.job j).routes = tableOf pairs i then s else setTable s j (tableOf pairs i)) s

/-- Every member of another package has a route from here; at member 0, every ordered pair has one (R254). -/
def routed (s : State) (p j : Nat) : Bool :=
  let ms := (s.job j).members
  (ms.zipIdx.all fun e => e.1.pkg == myPkg s || (tfind (s.job j).routes e.2).isSome)
    && (memberIdx s j p != 0 || ms.zipIdx.all fun a => ms.zipIdx.all fun b =>
      a.1.pkg == b.1.pkg || (tfind (s.job j).pairs (a.2 * 4096 + b.2)).isSome)

/-- The chosen step runs (R103, R307, R321): first start or resume; either way every tile seeds its generator anew for it. -/
def startStep (s : State) (slot : Nat) (st : Step) : State :=
  let p := st.part
  let first := st.state == 2
  let s := (setState s slot 3).modStep slot fun x => { x with quantumAt := time s, lastOp := time s }
  let s := s.modPart p fun x =>
    { x with running := some slot, switchReq := 0
             counters := { x.counters with runOpen := true, runCtx := ctxHandle st.ctx st.ctxGen, runSeq := st.seq } }
  let s := { s with tiles := tmap s.tiles fun _ t => if t.lfsrSlot = some slot then { t with lfsrSlot := none } else t }
  let s := if first then traceStep (touchBobbins s st) slot 5 0 0xFFF 0 else traceStep s slot 7 0 0xFFF 0
  settleSkeins s slot

/-- No granule is owned by two partitions (Table Reset-7). -/
def granuleBook (s : State) : Bool := decide ((s.parts.filter fun e => e.2.state != 0).flatMap fun e => partGranules e.2).Nodup

/-- The books of Table Reset-7 that the state holds: the partition's slots and scratchpad allocations, then transport credits and
granule ownership. -/
def books (s : State) (p : Nat) : Audit :=
  let slots := (s.steps.filter fun e => e.2.part == p).length + (s.quar.filter fun e => e.2.part == p).length
  if !(granuleBook s) || s.ports.any fun e => decide (e.2.cellGranted < e.2.cellHeld ∨ e.2.bulkGranted < e.2.bulkHeld) then .blockBook
  else if (s.part p).qSlots < slots
    || (partTiles (s.part p)).any fun t => (s.tile t).bufs.any fun b => (tfind s.steps b.slot).all fun st => st.part != p
    then .partitionBook
  else .balanced

/-- What the audit finds: the mesh credits, which no state here holds, as the command tells (R86, log 84), the other books as they
stand. -/
def auditOf (s : State) (p : Nat) (mesh : Audit) : Audit := if mesh = .balanced then books s p else mesh

/-- STEP_BOUNDARY (R305, R307, R449, R470, R471): staged settings swap, the books are audited, and the chosen step starts. -/
def execStepBoundary (now part : Nat) (audit : Audit) (s : State) : Res :=
  timed s now (fun s => engines s && active s part && (s.part part).running == none && (s.part part).switchTo == none
      && (s.part part).resetTags.isNone) fun s =>
    let s := rerouteJobs (enterBoundary s part false) part
    match auditOf s part audit with
    | .partitionBook => resetPartition (reportCode s 0xA004) part []
    | .blockBook => startBlockReset (reportCode s 0xA004)
    | .balanced => match chosen s part with
      | none => s
      | some k => match tfind s.steps k with
        | none => s
        | some st =>
          if st.state = 2 ∧ (partDies (s.part part)).any (fun d => (s.mover d).withdrawn == 2) then failStep s k 0x0D06
          else match st.job with
            | some (j, _) => if st.state = 2 ∧ !routed s part j then failStep s k 0x0613 else startStep s k st
            | none => startStep s k st

/-! ### Switching (R308 to R315) -/

/-- QUANTUM_EXPIRY (R308). -/
def execQuantumExpiry (now part : Nat) (s : State) : Res :=
  timed s now (fun s => ready s && (match (s.part part).running with
      | some k => match tfind s.steps k with
        | some r => decide (r.quantumAt + 1000 * (s.part part).cur.quantum ≤ time s)
            && s.steps.any fun e => e.1 != k && e.2.part == part && (e.2.state == 2 || e.2.state == 4)
                && deadlineRank e.2.deadline == deadlineRank r.deadline
        | none => false
      | none => false)) fun s => requestSwitch s part 1

/-- A fallback could still be chosen at the cheap point where the step stands (Table Scheduling-7). -/
def fallbackPending (s : State) (st : Step) : Bool :=
  let f := stepFile s st
  !st.useFb && !st.noFallback && fbResident s st && (match cheapAt f st with
    | some a => (f.cheaps.any fun c => c.after == a && c.safe) && !st.fbDone.contains (a + 1)
    | none => false)

/-- The running step can be switched away where it stands: at the current boundary, at a cheap point, or blocked while another
step is READY or SUSPENDED (R309, R310, R315). -/
def canSwitch (s : State) (k : Nat) (st : Step) : Bool :=
  let x := s.part st.part
  !fallbackPending s st && ((x.switchReq == 2 && noneInFlight s k st) || (x.switchReq == 1 && atPoint s k st)
    || (isBlocked s k st && s.steps.any fun e => e.1 != k && e.2.part == st.part && (e.2.state == 2 || e.2.state == 4)))

/-- Live bytes in the scratchpads. -/
def hasLive (s : State) (slot : Nat) (st : Step) : Bool :=
  (liveBufs (stepFile s st) st).any fun i => s.tiles.any fun t => (bufBase t.2 slot i).isSome

/-- The resident SUSPENDED step that is spilled to make room: greatest slack, then lower context number (R313, R315). -/
def spillVictim (s : State) (p : Nat) : Option Nat :=
  ((s.steps.filter fun e => e.2.part == p && e.2.state == 4 && !e.2.spilled && hasLive s e.1 e.2).foldl
    (fun (b : Option (Nat × Step)) e => match b with
      | none => some e
      | some x =>
        if slack s x.2 < slack s e.2 ∨ (slack s x.2 = slack s e.2 ∧ e.2.ctx < x.2.ctx) then some e else b) none).map (·.1)

/-- The running step is switched away (R309, R310, R313): SUSPENDED, its live buffers left where they are or to be spilled; at the
current boundary every one is spilled. -/
def switchAway (s : State) (k : Nat) (st : Step) (spill : Bool) : State :=
  let p := st.part
  let spill := spill || (s.part p).switchReq == 2
  let s := unplace s k 0
  let s := (setState s k 4).modStep k fun x => { x with lastRan := some (time s) }
  let s := if (s.ctx st.ctx).gen = st.ctxGen then s.modCtx st.ctx fun c => { c with preempt := c.preempt + 1 } else s
  let s := traceStep (count s p 0x0F 1) k 6 0 0xFFF 0
  let s := s.modPart p fun x =>
    { x with running := none, switchReq := 0, switchTo := if spill && hasLive s k st then some k else none }
  let live := liveBufs (stepFile s st) st
  enterBoundary (freeDead s k fun i => live.contains i) p true

/-- STEP_SWITCH (R309, R310, R313, R315): the running step leaves; or, with nothing to leave, a resident step is spilled to make
room. -/
def execStepSwitch (now part : Nat) (spill : Bool) (s : State) : Res :=
  timed s now (fun s => engines s && active s part && (s.part part).switchTo == none) fun s =>
    let other := if spill then match spillVictim s part with
        | some v => s.modPart part fun x => { x with switchTo := some v }
        | none => s
      else s
    match (s.part part).running with
    | none => other
    | some k => match tfind s.steps k with
      | none => other
      | some st => if canSwitch s k st then switchAway s k st spill else other

/-- Poisoned words of a buffer, as tensor x 2^18 + word. -/
def bufPoison (x : Tile) (i base n : Nat) : List Nat :=
  (x.poison.filter fun w => decide (base / 16 ≤ w ∧ w < base / 16 + ceilDiv n 16)).map fun w => i * 2 ^ 18 + (w - base / 16)

/-- SPILL_DONE (R310, R311): the live buffers lie in the save area. -/
def execSpillDone (now part : Nat) (s : State) : Res :=
  timed s now (fun s => engines s && (s.part part).switchTo.isSome) fun s =>
    let s' := s.modPart part fun x => { x with switchTo := none }
    match (s.part part).switchTo with
    | none => s'
    | some k => match tfind s.steps k with
      | none => s'
      | some st =>
        let f := stepFile s st
        let got := (liveBufs f st).filterMap fun i => (bufHome s 4096 k i).map fun h => (i, h.1, h.2)
        let saved : Tab Mem := got.foldl (fun t e =>
          tput t e.1 (mwriteN [] 0 (mreadN e.2.1.scratch e.2.2 (tensorOf f e.1).bytes))) []
        let bad := got.flatMap fun e => bufPoison e.2.1 e.1 e.2.2 (tensorOf f e.1).bytes
        let s' := s'.modStep k fun x => { x with spilled := true, saved, savedPoison := bad }
        freeDead s' k fun _ => false

/-- The buffer goes back into a scratchpad. -/
def restoreBuf (s : State) (slot : Nat) (f : Upf.File) (st : Step) (pl : Nat × Nat × Nat) : State :=
  let n := (tensorOf f pl.1).bytes
  let b := pl.2.2
  s.modTile pl.2.1 fun x =>
    { x with
      bufs := x.bufs ++ [{ slot, tensor := pl.1, base := b, bytes := n }]
      scratch := mwriteN x.scratch b (mreadN (tget st.saved pl.1 []) 0 n)
      poison := dropRange x.poison (b / 16) (ceilDiv n 16)
        ++ (st.savedPoison.filter fun w => w / 2 ^ 18 == pl.1).map fun w => b / 16 + w % 2 ^ 18 }

/-- The places of restored buffers fit, one after another. -/
def placesFit (s : State) (p : Nat) (f : Upf.File) (slot : Nat) (st : Step) : List (Nat × Nat × Nat) → Bool
  | [] => true
  | pl :: l => tileOwner s pl.2.1 == some p && tileUsable s pl.2.1 && bufFits (s.tile pl.2.1) pl.2.2 (tensorOf f pl.1).bytes
      && placesFit (restoreBuf s slot f st pl) p f slot st l

/-- RESTORE_DONE (R314): every saved buffer lies in a scratchpad again. -/
def execRestoreDone (now slot : Nat) (places : List (Nat × Nat × Nat)) (s : State) : Res :=
  timed s now (fun s => engines s && (match tfind s.steps slot with
      | some st => st.state == 3 && st.spilled && (st.saved.all fun e => places.any fun q => q.1 == e.1)
          && placesFit s st.part (stepFile s st) slot st places
      | none => false)) fun s =>
    match tfind s.steps slot with
    | none => s
    | some st =>
      let s := forAll places (fun s pl => restoreBuf s slot (stepFile s st) st pl) s
      s.modStep slot fun x => { x with spilled := false, saved := [], savedPoison := [] }

/-! ### Fallback, deadlines, hangs (R316 to R321) -/

/-- The place at which the monitor evaluates the step now: 0 its start, a + 1 the `fallback_safe` point after skein a, reached
whole. -/
def evalPoint (s : State) (st : Step) : Option Nat :=
  let f := stepFile s st
  if st.skeins.isEmpty ∧ !st.fbDone.contains 0 then some 0
  else match f.cheaps.find? fun c => c.safe && !st.fbDone.contains (c.after + 1)
      && (List.range f.skeins.length).all fun k => if k ≤ c.after then skDone st k else skState st k == 0 with
    | some c => some (c.after + 1)
    | none => none

/-- The step runs its fallback from its first skein; the original's scratchpad state is discarded (R321). -/
def takeFallback (s : State) (slot : Nat) (st : Step) : State :=
  let lose := fun (r : SortReq) => if r.slot = slot then { r with skein := 0xFFFF } else r
  let s := freeDead (unplace s slot 0) slot fun _ => false
  let s := { s with
    sortWait := s.sortWait.map lose
    sorters := tmap s.sorters fun _ x => { x with reqs := x.reqs.map lose, run := x.run.map lose } }
  let s := s.modStep slot fun x =>
    { x with useFb := true, skeins := [], replaced := [], sortCounts := [], sortExperts := [], manifests := [], saved := [], savedPoison := [],
             spilled := false }
  let s := s.modPart st.part fun x => { x with watchAcc := tdel x.watchAcc slot }
  let s := if (s.ctx st.ctx).gen = st.ctxGen then s.modCtx st.ctx fun c => { c with fallbacks := c.fallbacks + 1 } else s
  traceStep (count s st.part 0x10 1) slot 8 0 0xFFF 0

/-- FALLBACK_EVALUATE (R320, R321). -/
def execFallbackEvaluate (now slot : Nat) (s : State) : Res :=
  timed s now (fun s => engines s && (match tfind s.steps slot with
      | some st => st.state == 3 && !st.useFb && !st.noFallback && fbResident s st && (evalPoint s st).isSome
      | none => false)) fun s =>
    match tfind s.steps slot with
    | none => s
    | some st =>
      let s := s.modStep slot fun x => { x with fbDone := x.fbDone ++ (evalPoint s st).toList }
      if predictMiss s slot st || !ownResident s st then takeFallback s slot st else s

/-- DEADLINE_EXPIRY (R318): also with the entry waiting for room, which then carries 0x0805. -/
def execDeadlineExpiry (now slot : Nat) (s : State) : Res :=
  timed s now (fun s => ready s && (match tfind s.steps slot with
      | some st => st.abortLate && st.deadline != 0 && decide (st.deadline < time s) && st.fail.isNone
      | none => false)) fun s =>
    match tfind s.steps slot with
    | none => s
    | some st =>
      if st.notedDone then
        let s := s.modStep slot fun x => { x with fail := some 0x0805 }
        { s with funcs := tmap s.funcs fun _ x => { x with
            evtQueue := x.evtQueue.map fun e => if e.slot = some slot then { e with status := 0x0805 } else e } }
      else failStep s slot 0x0805

/-! ### The wait-for graph (R316, R564) -/

/-- Time spent waiting, in us, saturating. -/
def waitUs (s : State) (since : Nat) : Nat := min (2 ^ 32 - 1) ((time s - since) / 1000)

/-- The graph under construction: nodes with a key each, and edges between keys. -/
structure Draft where
  nodes : List ((Nat × Nat) × HangNode) := []
  edges : List ((Nat × Nat) × (Nat × Nat)) := []

/-- Add a node once. -/
def Draft.node (g : Draft) (k : Nat × Nat) (n : HangNode) : Draft :=
  if g.nodes.any fun e => e.1 == k then g else { g with nodes := g.nodes ++ [(k, n)] }

/-- Add a waiting edge with the node waited for. -/
def Draft.wait (g : Draft) (a k : Nat × Nat) (n : HangNode) : Draft :=
  let g := g.node k n
  { g with edges := g.edges ++ [(a, k)] }

/-- What one step waits for: its fences and their signallers, a fill, the step that runs before it on an ordered queue, remote
members, sorts, link credit. -/
def draftStep (s : State) (g : Draft) (slot : Nat) (st : Step) : Draft :=
  let me := (1, slot)
  let since := st.stateAt
  let node := fun (x : Step) =>
    ({ kind := 1, state := x.state, id := ctxHandle x.ctx x.ctxGen, id2 := x.seq, waitUs := waitUs s x.stateAt } : HangNode)
  let g := g.node me (node st)
  let open_ := st.waits.filter fun h => h != 0xFFFFFF && (tget (s.part st.part).fences (h % 65536) {}).status.isNone && st.state == 1
  let g := open_.foldl (fun g h =>
    let f := tget (s.part st.part).fences (h % 65536) {}
    let k := (2, h % 65536)
    let g := g.wait me k { kind := 2, flags := if f.host then 2 else 0, id := h, id2 := ctxHandle f.ctx f.ctxGen, waitUs := waitUs s since }
    (s.steps.filter fun e => e.2.part == st.part && e.2.signals.any fun x => x != 0xFFFFFF && x % 65536 == h % 65536).foldl
      (fun g e => g.wait k (1, e.1) (node e.2)) g) g
  let g := if st.state = 1 ∧ (s.queue st.queue).ordered then
      (s.steps.filter fun e => e.2.queue == st.queue && seqBefore e.2.seq st.seq).foldl (fun g e => g.wait me (1, e.1) (node e.2)) g
    else g
  let g := ((st.bobbin.toList ++ st.fbBobbin.toList).filter fun b => st.state == 1 && !resident s st.part b).foldl (fun g b =>
    g.wait me (6, b) { kind := 6, id := b, waitUs := waitUs s since }) g
  let g := (s.remOps.filter fun o => o.slot == slot && o.kind != 4).foldl (fun g o =>
    let h := match st.job with
      | some (j, _) => jobHandle s j
      | none => 0
    g.wait me (3, o.member) { kind := 3, id := o.member, id2 := h, waitUs := waitUs s o.last }) g
  let g := ((s.sorters.flatMap fun e => (e.2.reqs ++ e.2.run.toList).map fun q => (e.1, q)).filter fun e => e.2.slot == slot).foldl
    (fun g e => g.wait me (4, e.1 * 256 + e.2.idx) { kind := 4, id := 2080 + e.1, id2 := e.2.idx, waitUs := waitUs s since }) g
  (s.ports.filter fun e => e.2.txq.any fun m => (stepsIn s m.eng).contains slot
      || s.remOps.any fun o => o.slot == slot && o.qp == m.qp && o.kind != 4).foldl
    (fun g e => g.wait me (5, e.1) { kind := 5, id := e.1, waitUs := waitUs s since }) g

/-- Keys reached from a key by at least one edge. -/
def Draft.reach (g : Draft) (k : Nat × Nat) : List (Nat × Nat) :=
  (List.range g.edges.length).foldl (fun (l : List (Nat × Nat)) _ =>
    (l ++ (g.edges.filter fun e => l.contains e.1).map (·.2)).dedup) ((g.edges.filter fun e => e.1 == k).map (·.2)).dedup

/-- The wait-for graph of a partition. -/
def hangGraph (s : State) (p : Nat) : HangGraph :=
  let g := (s.steps.filter fun e => e.2.part == p && decide (e.2.state ≤ 5)).foldl (fun g e => draftStep s g e.1 e.2) ({} : Draft)
  let idx := fun (k : Nat × Nat) => g.nodes.findIdx fun e => e.1 == k
  { built := time s, idleSince := (s.part p).lastIssue
    nodes := g.nodes.map fun e => if (g.reach e.1).contains e.1 then { e.2 with flags := e.2.flags + 1 } else e.2
    edges := g.edges.map fun e => (idx e.1, idx e.2) }

/-- HANG_TIME_EXPIRY (R316). -/
def execHangTimeExpiry (now part : Nat) (s : State) : Res :=
  timed s now (fun s => ready s && !s.gst.stopped && active s part && !(s.part part).hangPosted
      && decide ((s.part part).lastIssue + 1000000 * (s.part part).cur.hang < time s)
      && s.steps.any fun e => e.2.part == part && (e.2.state == 1 || e.2.state == 2 || e.2.state == 4)) fun s =>
    let s := s.modPart part fun x => { x with hang := some (hangGraph s part), hangPosted := true }
    pushEntry s (s.part part).owner { kind := 4, queue := part }

/-! ### Release (R433 to R436) -/

/-- A derived step of a member other than member 0 has no entry: it is freed when its outcome is settled (R251). -/
def derivedHere (s : State) (st : Step) : Bool :=
  match st.job with
  | some (j, _) => memberIdx s j st.part != 0
  | none => false

/-- Every skein of the step is complete or retired, and none is left on a tile (R433). -/
def skeinsEnded (s : State) (slot : Nat) (st : Step) : Bool :=
  (List.range (stepFile s st).skeins.length).all (fun k => skDone st k || !ownSkein s st k)
    && s.tiles.all fun e => (e.2.run.toList ++ e.2.tails).all fun r => r.slot != slot

/-- At member 0 every other member's part of the job step has passed its gate (R251). -/
def gatesPassed (s : State) (st : Step) : Bool :=
  match st.job with
  | some (j, k) => memberIdx s j st.part != 0 || ((List.range (s.job j).members.length).drop 1).all fun m => (s.job j).gates.contains (k, m)
  | none => true

/-- A part of a job step has passed its gate: another member's tells member 0, and member 0 forgets the gates of the step (R251). -/
def tellGate (s : State) (st : Step) : State :=
  match st.job with
  | some (j, k) =>
    let i := memberIdx s j st.part
    let m := nth (s.job j).members 0 {}
    if i = 0 then s.modJob j fun x => { x with gates := x.gates.filter fun g => g.1 != k }
    else tell s st.part m.pkg (tfind (s.job j).routes 0) (.gate (jobHandle s j) k i)
  | none => s

/-- RELEASE_GATE_PASS (R251, R433, R436): the gate passes 1 us after the step's last operation, with nothing outstanding and
its host writes read back; poison in an output fails it. A derived step whose outcome is settled leaves its slot. -/
def execReleaseGatePass (now slot : Nat) (s : State) : Res :=
  timed s now (fun s => ready s && !s.coll.freeze && (match tfind s.steps slot with
      | some st =>
        if st.notedDone then derivedHere s st
        else st.state == 5 && st.fail.isNone && st.requests == 0 && skeinsEnded s slot st && !st.hostWrites && decide (1000 + st.lastOp ≤ time s)
          && gatesPassed s st
      | none => false)) fun s =>
    match tfind s.steps slot with
    | none => s
    | some st =>
      let s := if st.notedDone then s
        else if st.poisonOut then failStep s slot 0x0C02
        else tellGate ((noteDone s slot).modStep slot fun x => { x with passedAt := some (time s) }) st
      match tfind s.steps slot with
      | some st => if st.notedDone && derivedHere s st then finishStep s slot false else s
      | none => s

end Sys2Proof.Machine
end

