-- ==== Sys2Proof/Machine/Jobs.lean ====
section
/-! DEFINITION. Job steps at the members: derived steps, abort notices and their hold (R251, R459 to R466). -/

namespace Sys2Proof.Machine

/-- A notice for the job step is kept (R463). -/
def noticeKept (s : State) (j jstep : Nat) : Bool := (s.job j).kept.any fun k => k.1 == jstep

/-- DERIVED_STEP (R251, R463, R465): a kept notice fails it with 0x0D10; another generation or start number of member 0 makes the
job broken; a descriptor that fails a check starts the abort with that status. -/
def execDerivedStep (now job jstep pgen startNo part slot base fbBase : Nat) (x : Derived) (s : State) : Res :=
  timed s now (fun s => admits s part && slotFree s part slot && (match jobOf s job with
      | some j => memberIdx s j part != 0 && decide (memberIdx s j part < (s.job j).members.length)
      | none => false)) fun s =>
    match jobOf s job with
    | none => s
    | some j =>
      let d := padTo 128 x.desc
      let s := takeSplit s part j x.split
      let st := stepOf s part 0xFFFF jstep d
      let c := admitStatus s part d
      if noticeKept s j jstep then s.modJob j fun x => { x with kept := x.kept.filter fun k => k.1 != jstep }
      else if !pairOk s j 0 pgen startNo then startAbort (breakJob s j) j jstep part 0x0D11 0 false
      else if (s.job j).broken then startAbort s j jstep part 0x0D11 0 false
      else if c ≠ 0 then startAbort s j jstep part (BitVec.ofNat 16 c) 0 false
      else
        let g := (progOf s part (fld d 4 4)).getD 0
        let fb := (namedFallback s part (prog s part g).upf (fld d 8 4)).getD none
        match reserveBoth s part st.ctx g base fb fbBase with
        | none => s
        | some none => startAbort s j jstep part 0x0733 0 false
        | some (some t) => settleStep t slot (acceptedStep s st d (some (j, jstep)))

/-- The step of a job that a notice names, removed with 0x0D10; a derived step leaves its slot. -/
def removeNoticed (s : State) (slot : Nat) : State :=
  match tfind s.steps slot with
  | none => s
  | some st =>
    let s := failRaw (reopen s slot) slot 0x0D10
    if derivedHere s st then finishStep s slot false else s

/-- A notice goes on: member 0 sends it to every other member; any other member, when it is not the originator's, to member 0
(R461, Table Reset-8; DEDUCED, log 28). -/
def relayNotice (s : State) (j : Nat) (n : Notice) : State :=
  let ms := (s.job j).members
  if (nth ms 0 {}).pkg = myPkg s then noticeTo s j ((List.range ms.length).drop 1) n
  else if n.origin ≠ 0 ∧ (nth ms n.origin {}).pkg ≠ myPkg s then noticeTo s j [0] n
  else s

/-- A notice is acted on; member 0 ignores one for a step whose completion is settled (R464). -/
def takeNotice (s : State) (n : Notice) : State :=
  match jobOf s n.job with
  | none => s
  | some j =>
    let s := if n.lost || !pairOk s j n.origin n.pgen n.startNo then breakJob s j else s
    if (s.job j).aborted.contains n.jstep then s
    else
      let ks := slotsWhere s fun st => st.job == some (j, n.jstep)
      let here0 := (nth (s.job j).members 0 {}).pkg == myPkg s
      if here0 && !(s.steps.any fun e => e.2.job == some (j, n.jstep) && (!e.2.notedDone || justPassed s e.2)) then s else
      let s := s.modJob j fun x =>
        { x with
          aborted := x.aborted ++ [n.jstep]
          kept := if ks.isEmpty && !here0 then x.kept ++ [(n.jstep, time s)] else x.kept }
      let s := closeWindows (forAll ks removeNoticed s) fun w => w.job == j
      relayNotice s j n

/-- ABORT_NOTICE (R461 to R466): during a global stop it is acted on at release. -/
def execAbortNotice (now : Nat) (n : Notice) (s : State) : Res :=
  timed s now (fun s => ready s && (jobOf s n.job).isSome) fun s =>
    if s.gst.stopped then { s with gst := { s.gst with notices := s.gst.notices ++ [n] } } else takeNotice s n

/-- NOTICE_HOLD_EXPIRY (R463): a notice is kept for 10 ms. -/
def execNoticeHoldExpiry (now job jstep : Nat) (s : State) : Res :=
  timed s now (fun s => ready s && (s.job job).kept.any fun k => k.1 == jstep && decide (10000000 + k.2 < time s)) fun s =>
    s.modJob job fun x => { x with kept := x.kept.filter fun k => k.1 != jstep }

end Sys2Proof.Machine
end

