-- ==== Sys2Proof/Machine/Security.lean ====
section
/-! DEFINITION. The trust processor: SPDM, debug grants, device sets, mailbox keys (R474 to R498, R506). -/

namespace Sys2Proof.Machine

/-! ### Records of the partition table and the scrubs -/

/-- The record of a partition (Table Partitions-2); all zero when FREE (Table Partitions-6). -/
def partBytes (s : State) (p : Nat) : List Byte :=
  let x := s.part p
  if x.state = 0 then List.replicate 32 0
  else toLe 1 p ++ toLe 1 x.owner ++ toLe 1 x.gx0 ++ toLe 1 x.gy0 ++ toLe 1 x.width ++ toLe 1 x.height ++ toLe 1 x.ways
    ++ toLe 1 (if x.isolated then 1 else 0) ++ toLe 8 x.storeBytes ++ toLe 2 x.qContexts ++ toLe 2 x.qSlots ++ toLe 2 x.qQueues
    ++ toLe 2 x.qObjects ++ toLe 2 x.qFences ++ toLe 1 x.state ++ toLe 1 (tget s.partGen p 0) ++ toLe 4 0

/-- A scrub record (Table Security-9). -/
def scrubBytes (r : ScrubRec) : List Byte :=
  toLe 1 r.kind ++ toLe 1 r.part ++ toLe 2 0 ++ toLe 16 (sumNat (r.granules.map fun g => 2 ^ g)) ++ toLe 8 r.done ++ toLe 4 r.startNo

/-! ### SPDM (R491, R497, R498, R506) -/

/-- A measurement block (Table Security-8). How its parts follow one another is open (log 32); a shard's digest is followed
by its parent's (R249). -/
def measurement (s : State) (i : Nat) : List Byte :=
  match i with
  | 1 => toLe 4 0x4B455255 ++ toLe 4 0xB0 ++ toLe 4 (identCap0 s.variant) ++ toLe 4 (identCap1 s.variant)
  | 2 => digestBytes (if s.life.minimal then Config.romDigest else Config.sha384 (s.life.runImage.take (fld s.life.runImage 4 4)))
           ++ toLe 4 (identFwVer s)
  | 3 => toLe 1 s.life.lc ++ toLe 1 s.life.slotsUsed
  | 4 => digestBytes (Config.sha384 ((List.range 64).flatMap (partBytes s)))
  | 5 => s.parts.flatMap fun e => (e.2.progs.filter fun g => g.2.live && g.2.loading == none).flatMap fun g =>
      toLe 1 e.1 ++ digestBytes g.2.upf.digest
  | 6 => s.parts.flatMap fun e => (e.2.bobbins.filter fun b => b.2.live && b.2.state != 0).flatMap fun b =>
      toLe 1 e.1 ++ toLe 4 b.2.setId ++ digestBytes b.2.digest ++ (b.2.parent.map digestBytes).getD []
  | 7 => s.scrubs.flatMap scrubBytes
  | 8 => s.life.devsets.flatMap fun d => toLe 1 d.1 ++ toLe 4 d.2.setId
  | _ => []

/-- What GET_MEASUREMENTS answers for an index: 0xFF asks for every block, in order (R498; PRESUMED from SPDM, log 32). -/
def measurements (s : State) (i : Nat) : List Byte :=
  if i = 0xFF then (List.range 8).flatMap fun k => measurement s (k + 1) else measurement s i

/-- Certificate slot 0 is populated (R497). -/
def slotPopulated (s : State) : Bool := s.life.hasIdentity && !(s.life.lc == 1 && !s.life.hasCert)

/-- Sessions open by PSK alone (R506). -/
def pskState (lc : Nat) : Bool := lc == 0 || lc == 1 || lc == 5

/-- The mailbox that carries critical messages answers (R491). -/
def keyAvailable (s : State) : Bool := s.life.ready || s.life.minimal

/-- What a request may do while the responder is limited by the life-cycle state (R506): SCRAP answers two requests; a session
in BLANK or ANALYSIS answers those and the mailbox-key request, and can be finished and ended. -/
def spdmAllowed (s : State) (q : SpdmReq) : Bool :=
  let basic := q == .getVersion || q == .getCapabilities
  if s.life.lc = 6 then basic
  else if (s.life.lc = 0 ∨ s.life.lc = 5) ∧ 2 ≤ s.life.session then
    basic || q == .mailboxKey || q == .pskFinish || q == .endSession || q == .chunk
  else true

/-- An answer on MCTP. -/
def spdmAns (s : State) (code : Nat) (data : List Byte) : State := emit s (.spdm code data)

/-- The session register. -/
def setSession (s : State) (n : Nat) : State := s.modLife fun l => { l with session := n }

/-- The answer to an SPDM request while the trust processor runs. The mailbox key leaves only inside the session, not in clear
(R476), so no byte of it shows here. -/
def spdmReply (s : State) (q : SpdmReq) : State :=
  if !spdmAllowed s q then spdmAns s (match q with
      | .keyExchange _ => 3
      | .pskExchange _ => 3
      | .mailboxKey => 3
      | _ => 2) []
  else match q with
    | .getMeasurements i => if s.life.attestKey then spdmAns s 0 (measurements s i) else spdmAns s 2 []
    | .challenge => if s.life.attestKey then spdmAns s 0 [] else spdmAns s 2 []
    | .getDigests => spdmAns s 0 (if slotPopulated s then [1] else [0])
    | .getCertificate n => spdmAns s 0 (if n = 0 ∧ slotPopulated s then [1] else [0])
    | .keyExchange proof =>
      if pskState s.life.lc || !proof then spdmAns s 3 [] else spdmAns (setSession s 1) 0 []
    | .finish => if s.life.session = 1 then spdmAns (setSession s 3) 0 [] else spdmAns s 3 []
    | .pskExchange proof =>
      if !pskState s.life.lc || !proof then spdmAns s 3 [] else spdmAns (setSession s 2) 0 []
    | .pskFinish => if s.life.session = 2 then spdmAns (setSession s 4) 0 [] else spdmAns s 3 []
    | .endSession => spdmAns (setSession s 0) 0 []
    | .mailboxKey =>
      if s.life.session < 3 then spdmAns s 3 []
      else if !keyAvailable s then spdmAns s 1 []
      else spdmAns (s.modLife fun l => { l with pfKeyFetched := true }) 0 []
    | _ => spdmAns s 0 []

/-- SPDM_REQUEST (R39, R497): "not ready" while BLK_RESET_N is low and in any other block reset. -/
def execSpdmRequest (now : Nat) (q : SpdmReq) (s : State) : Res :=
  timed s now aonUp fun s => if up s then spdmReply s q else spdmAns s 1 []

/-! ### Debug grants (R489, R490) -/

/-- Open or close a grant for some partitions. -/
def setGrant (l ps : List Nat) (on : Bool) : List Nat := if on then ps.foldl addNew l else l.filter fun p => !ps.contains p

/-- DEBUG_ENABLE (R489, R549, R555): 0xFF names every ACTIVE partition; a closed trace grant stops the trace. -/
def execDebugEnable (m : Msg) (s : State) : Res :=
  let p := namedPart m
  let b := fld m.payload 4 1
  let on := fld m.payload 5 1 == 1
  let whole := m.func == 0 && p == 0xFF
  mbx { opcode := 0x0701, critical := true, len := some 6, rsv := [(1, 3)]
        ranges := decide (b < 16 ∧ fld m.payload 5 1 ≤ 1) && (m.func != 0 || !bitOf b 1 || p == 0xFF)
        named := whole || (if m.func = 0 then anyPart s m else ownPart s m) } (fun s =>
    if s.life.lc = 0x0F ∨ s.life.lc = 6 then .refuse 0x0914
    else if m.func ≠ 0 ∧ b / 2 ≠ 0 then .refuse 0x0906
    else
      let ps := if whole then (s.parts.filter fun e => e.2.state == 2).map (·.1) else [p]
      let g := s.grants
      let g : Grants :=
        { trace := if bitOf b 0 then setGrant g.trace ps on else g.trace
          stop := if bitOf b 1 then on else g.stop
          scan := if bitOf b 2 then setGrant g.scan ps on else g.scan
          memRead := if bitOf b 3 then setGrant g.memRead ps on else g.memRead }
      let s := { s with grants := g }
      .done (if bitOf b 0 && !on then forAll ps (fun s p => reap (traceOff s p) p) s else s)) m s

/-! ### Device sets (R493, R494) -/

/-- Every bobbin bound to a set loses its pin and leaves its catalogue; an install for it ends with 0x0605 (Table Security-11). -/
def leaveSet (s : State) (set : Nat) : State :=
  forAll (s.parts.map (·.1)) (fun s p =>
    let stopped := (s.part p).bobbins.filter fun e => e.2.live && e.2.setId == set && e.2.installing.isSome
    let s := forAll stopped (fun s e =>
      answerOpt (s.modPart p fun x => { x with bobbins := tdel x.bobbins e.1 }) e.2.installing 0x0605 0) s
    let s := s.modPart p fun x => { x with bobbins := tmap x.bobbins fun _ b =>
      if b.live && b.setId == set then { b with pinned := false, removing := true } else b }
    let gone := ((s.part p).bobbins.filter fun e => e.2.removing && bobbinRefs s p e.1 == 0 && !serving s p e.2).map (·.1)
    sweepBobbins (s.modPart p fun x => { x with fill := x.fill.filter fun f => !gone.contains f.bobbin }) p) s

/-- DEVSET_ENROLL (R493). -/
def execDevsetEnroll (m : Msg) (s : State) : Res :=
  mbx { opcode := 0x0702, critical := true, pfOnly := true } (fun s =>
    if !(s.life.lc == 2 || s.life.lc == 3 || s.life.lc == 4) then .refuse 0x0914
    else
      let r := extIn m
      let set := fld r 0 4
      let slot := fld r 4 1
      if m.extBytes < 272 ∨ Config.ecdsaVerify s.life.ownerCred (slice r 0 176) (slice r 176 96) = false ∨ fld r 168 8 ≠ s.life.unitId
          ∨ set = 0 ∨ 63 < slot then .refuse 0x0903
      else match Config.enrolUnwrap (slice r 16 97) (slice r 128 40) with
        | none => .refuse 0x0903
        | some k =>
          let s := match tfind s.life.devsets slot with
            | some d => leaveSet s d.setId
            | none => s
          .detail (s.modLife fun l => { l with devsets := tput l.devsets slot { setId := set, key := k } }) set) m s

/-- DEVSET_LEAVE (R494): in the states that accept an enrolment (DEDUCED, log 33). -/
def execDevsetLeave (m : Msg) (s : State) : Res :=
  let set := fld m.payload 4 4
  mbx { opcode := 0x0703, critical := true, pfOnly := true, len := some 8, rsv := [(0, 4)] } (fun s =>
    if !(s.life.lc == 2 || s.life.lc == 3 || s.life.lc == 4) then .refuse 0x0914
    else if !(s.life.devsets.any fun d => d.2.setId == set) then .refuse 0x0903
    else .done ((leaveSet s set).modLife fun l => { l with devsets := l.devsets.filter fun d => d.2.setId != set })) m s

/-! ### Mailbox keys (R492) -/

/-- MBX_KEY_EXPORT (R492, R504): the VF's key is replaced from the next tick on, and leaves wrapped to the tenant's public key. -/
def execMbxKeyExport (m : Msg) (s : State) : Res :=
  let f := fld m.payload 4 1
  mbx { opcode := 0x0704, critical := true, pfOnly := true, len := some 5, rsv := [(0, 4)]
        ranges := f != 0 && decide (f < 64) && (s.func f).enabled } (fun s =>
    if !(s.life.lc == 2 || s.life.lc == 3 || s.life.lc == 4 || s.life.lc == 5) then .refuse 0x0914
    else if m.extBytes < 137 then .refuse 0x0903
    else
      let (k, s) := drawKey s
      let s := s.modFunc f fun x => { x with key := k, oldKey := some (time s, macKey s x) }
      .output s 0 (slice (Config.exportWrap (slice (extIn m) 0 97) k) 0 137)) m s

end Sys2Proof.Machine
end

