-- ==== Sys2Proof/Machine/Lifecycle.lean ====
section
/-! DEFINITION. Life-cycle transitions, firmware update and recovery, sleep, and the messages that every mailbox answers (R338, R354,
R513 to R516, R522 to R525, R533, R534). -/

namespace Sys2Proof.Machine

/-! ### Messages that every mailbox answers -/

/-- ECHO (R340, R347): the same bytes. -/
def execEcho (m : Msg) (s : State) : Res :=
  mbx { opcode := 0x0001, unbound := true, len := none, boot := 1 } (fun s => .reply s 0 0 (slice m.payload 0 m.inlineBytes) [] false) m s

/-- Tiles usable at this start; none before `ready` and in minimal mode (R522, R523). -/
def tilesUsable (s : State) : Nat := if s.life.ready then tileCount s.variant - s.life.tilesWithdrawn else 0

/-- Granules usable at this start. -/
def granulesUsable (s : State) : Nat := if s.life.ready then granuleCount s.variant - s.life.granulesBad else 0

/-- The 64 bytes of a CAP_QUERY response (R354); the highest UPF version is 1.0. -/
def capBytes (s : State) : List Byte :=
  padTo 64 (toLe 4 (identCap0 s.variant) ++ toLe 4 (identCap1 s.variant) ++ toLe 4 (identFwVer s) ++ toLe 2 1 ++ toLe 2 0
    ++ toLe 2 (tileCount s.variant) ++ toLe 2 (tilesUsable s) ++ toLe 1 (granulesUsable s) ++ toLe 1 64 ++ toLe 2 4096
    ++ toLe 2 (myPkg s))

/-- CAP_QUERY (R338, R354): its first 32 bytes through the boot mailbox. -/
def execCapQuery (m : Msg) (s : State) : Res :=
  mbx { opcode := 0x0002, unbound := true, boot := 1 } (fun s =>
    .reply s 0 0 (if m.boot then slice (capBytes s) 0 32 else capBytes s) [] false) m s

/-- BOOT_STATUS (R347). -/
def execBootStatus (m : Msg) (s : State) : Res :=
  mbx { opcode := 0x0003, unbound := true, boot := 1 } (fun s =>
    .reply s 0 0 (toLe 4 (bootReason s) ++ toLe 4 (bootFails s) ++ toLe 4 (identFwVer s) ++ toLe 1 s.life.lc) [] false) m s

/-! ### Transitions (R512 to R516) -/

/-- The transition nonce (R512). -/
def lcNonce (l : Life) (k : Nat) : List Byte :=
  (digestBytes (Config.sha384 ([0x4B, 0x4C, 0x43, 0x31] ++ toLe 8 l.unitId ++ toLe 4 k))).take 16

/-- A permitted transition: from, to, signers, and whether the key region and the user region are erased (Table Lifecycle-5). -/
def lcTable : List (Nat × Nat × Nat × Bool × Bool) :=
  [(0, 1, 2, false, false), (1, 2, 2, false, false), (2, 3, 1, false, false), (3, 4, 1, false, true), (4, 3, 1, false, false),
   (2, 5, 3, true, true), (3, 5, 3, true, true), (4, 5, 3, true, true), (0, 6, 2, true, true), (1, 6, 2, true, true),
   (5, 6, 2, true, true), (2, 6, 1, true, true), (3, 6, 1, true, true), (4, 6, 1, true, true)]

/-- The row of a request. -/
def lcRow (prior target signers : Nat) : Option (Nat × Nat × Nat × Bool × Bool) :=
  lcTable.find? fun r => r.1 == prior && r.2.1 == target && r.2.2.1 == signers

/-- A signature of a request: verified when `signers` names it, zero otherwise (R513). -/
def lcSig (r : List Byte) (key : List Byte) (named : Bool) (off : Nat) : Bool :=
  if named then Config.ecdsaVerify key (slice r 0 160) (slice r off 96) else zeroRange r off 96

/-- The request is well formed and its named signatures verify (R513, Table Lifecycle-4). -/
def lcFormOk (l : Life) (r : List Byte) : Bool :=
  let t := fld r 4 1
  let g := fld r 5 1
  r.length == 352 && fld r 0 4 == 0x31544C4B && decide (1 ≤ t ∧ t ≤ 6) && decide (g < 4) && zeroRange r 6 2
    && (if t = 2 then zeroRange r 129 31 else zeroRange r 32 128)
    && lcSig r l.ownerCred (bitOf g 0) 160 && lcSig r Config.jorariLcKey (bitOf g 1) 256

/-- The statuses of Table Lifecycle-8 in their order, without the erase; 0 when the transition is permitted. -/
def lcStatus (l : Life) (r : List Byte) : Nat :=
  let t := fld r 4 1
  if !lcFormOk l r then 0x0E10
  else if fld r 8 8 ≠ l.unitId then 0x0E11
  else if slice r 16 16 ≠ lcNonce l (lcK l.slots) then 0x0E12
  else if (lcRow (priorOf l.slots) t (fld r 5 1)).isNone ∨ (t = 2 ∧ !l.hasCert) then 0x0E13
  else if 64 ≤ l.slots.length ∧ (t ≠ 6 ∨ 66 ≤ l.slots.length) then 0x0E14
  else 0

/-- The regions that a transition erases. -/
def lcErase (l : Life) (keyRegion userRegion : Bool) : Life :=
  let l := if keyRegion then { l with hasIdentity := false, hasCert := false, ownerCred := [] } else l
  if userRegion then { l with devsets := [] } else l

/-- LC_TRANSITION (R513 to R516): the checks, the actions, then the slot is programmed. What an erase that fails verification
leaves is open (log 34). -/
def execLcTransition (m : Msg) (eraseOk : Bool) (s : State) : Res :=
  mbx { opcode := 0x0705, critical := true, pfOnly := true, boot := 2 } (fun s =>
    let r := slice m.ext 0 m.extBytes
    let st := lcStatus s.life r
    let row := (lcRow (priorOf s.life.slots) (fld r 4 1) (fld r 5 1)).getD (0, 0, 0, false, false)
    if s.life.flashJob.isSome then .refuse 0x090A
    else if st ≠ 0 then .refuse st
    else if !eraseOk && (row.2.2.2.1 || row.2.2.2.2) then
      let (v, s) := draw s
      .reply (if v % 2 = 0 then s else s.modLife fun l => lcErase l row.2.2.2.1 row.2.2.2.2) 0x0E15 0 [] [] false
    else
      let j : FlashJob := { kind := 0, func := m.func, boot := m.boot, tag := m.tag, opcode := 0x0705, target := fld r 4 1 }
      let s := s.modLife fun l =>
        let l := lcErase l row.2.2.2.1 row.2.2.2.2
        { l with flashJob := some j, ownerCred := if fld r 4 1 = 2 then slice r 32 97 else l.ownerCred }
      .later (emit s (.flashWrite 1))) m s

/-! ### Firmware (R531, R533, R534) -/

/-- The image of a request is checked and its writing begins. -/
def writeImage (s : State) (m : Msg) (kind : Nat) : Ans :=
  let img := extIn m
  let st := imageStatus s.life img
  if s.life.flashJob.isSome then .refuse 0x090A
  else if st ≠ 0 then .refuse st
  else
    let j : FlashJob :=
      { kind, func := m.func, boot := m.boot, tag := m.tag, opcode := m.opcode, image := img.take (fld img 4 4) }
    .later (emit (s.modLife fun l => { l with flashJob := some j }) (.flashWrite 0))

/-- FW_UPDATE (R533). -/
def execFwUpdate (m : Msg) (s : State) : Res :=
  mbx { opcode := 0x0706, critical := true, pfOnly := true } (fun s => writeImage s m 1) m s

/-- FW_RECOVER (R338, R534). -/
def execFwRecover (m : Msg) (s : State) : Res :=
  mbx { opcode := 0x0707, critical := true, pfOnly := true, boot := 3 } (fun s => writeImage s m 2) m s

/-- The slot of a transition is written, or left spoiled by a verification that fails, whose status is open (log 34). -/
def slotDone (s : State) (j : FlashJob) (ok : Bool) : State :=
  if ok then
    let s := s.modLife fun l =>
      { l with slots := l.slots ++ [{ word := stateWord (tget lcMasks j.target 0), startNo := l.startNo }]
               resetAt := some (100000 + time s), resetCause := 8 }
    answer s j.func j.tag 0 0
  else
    let (v, s) := draw s
    let s := s.modLife fun l => { l with slots := l.slots ++ [{ word := List.replicate 16 0xFF, startNo := l.startNo }] }
    answer s j.func j.tag (v % 65535 + 1) 0

/-- The image is written and read back; what a failing read-back has left in the area is open (log 34). -/
def imageDone (s : State) (j : FlashJob) (ok : Bool) : State :=
  if ok then
    let s := s.modLife fun l => { l with image := j.image }
    let s := if j.kind = 2 then s.modLife fun l =>
        modEntry { l with resetAt := some (time s), resetCause := 9 } fun e => { e with done := 0 } else s
    answer s j.func j.tag 0 0
  else
    let (v, s) := draw s
    answer (s.modLife fun l => { l with image := toLe 512 v }) j.func j.tag 0x0E04 0

/-- FLASH_OPERATION_DONE (R515, R533, R534). -/
def execFlashOperationDone (now : Nat) (ok : Bool) (s : State) : Res :=
  timed s now (fun s => up s && s.life.flashJob.isSome) fun s =>
    match s.life.flashJob with
    | some j =>
      let s := s.modLife fun l => { l with flashJob := none }
      if j.kind = 0 then slotDone s j ok else imageDone s j ok
    | none => s

/-! ### Sleep (R524) -/

/-- The block is idle as R524 asks; the request itself is the only one taken. -/
def idleForSleep (s : State) (m : Msg) : Bool :=
  s.steps.isEmpty
    && !(s.parts.any fun e => e.2.state == 1 || e.2.state == 3 || e.2.fill.isSome
        || e.2.progs.any (fun g => g.2.live && g.2.loading.isSome) || e.2.bobbins.any (fun b => b.2.live && b.2.installing.isSome))
    && !(s.funcs.any fun f => f.2.inFlr || !f.2.rsps.isEmpty
        || f.2.taken.any fun t => !(f.1 == m.func && t.tag == m.tag && t.opcode == 0x0406))
    && s.life.flashJob.isNone && s.life.bistTag.isNone && !s.gst.stopped

/-- SLEEP_ENTER (R524, R525). -/
def execSleepEnter (m : Msg) (s : State) : Res :=
  let w := fld m.payload 8 8
  mbx { opcode := 0x0406, critical := true, pfOnly := true, len := some 16, rsv := [(0, 8)] } (fun s =>
    if w ≠ 0 ∧ w < 50000000 + time s then .refuse 0x0903
    else if !idleForSleep s m then .refuse 0x0932
    else .done { s with power := { s.power with entering := true, wakeTime := w, wakePending := false, admitting := false } }) m s

end Sys2Proof.Machine
end

