-- ==== Sys2Proof/Machine/Matrix.lean ====
section
/-! DEFINITION. The matrix unit: passes with 2:4 and zero-block skipping (R43 to R52, R110 to R112, R122 to R137, R586), and the
accumulator drain (R47, R118). -/

namespace Sys2Proof.Machine

/-- The 16-bit class. -/
def is16 (c : Nat) : Bool := c == 1 || c == 2

/-- The checks that an operation meets beside those of every issue: `ks`, and for its scratchpad operands among `views` the word
check. An armed single-bit injection of a scratchpad read is corrected; any other fails the skein, and a double-bit one marks the
word poisoned (R60, R439, Table Faults-8). -/
def guarded (s : State) (t slot : Nat) (st : Step) (ks views : List Nat) (f : State → State) : State :=
  let d := tileDie t
  let here := views.filter (inScratch s slot st)
  let s := if here.isEmpty then s else check s d 5 t []
  match (ks ++ if here.isEmpty then [] else [6]).find? fun k => armed s d k t with
  | some k => check (if k = 6 then spoilView s slot st (nth here 0 0) else s) d k t [slot]
  | none => f s

/-- The operands of one pass. -/
structure Pass where
  /-- rows present, columns of the block, columns present, dense depth -/
  m : Nat
  ncols : Nat
  n : Nat
  k : Nat
  /-- products per cell and cycle -/
  d : Nat
  sparse : Bool
  hold : Bool
  int : Bool
  /-- A by row: values in ascending K -/
  a : List (List (Val × Bool))
  /-- B by column: values in ascending K, the kept ones of a 2:4 operand -/
  b : List (List (Val × Bool))
  /-- metadata nibbles by column and group -/
  nib : List (List (Nat × Bool))
  /-- skipped slabs -/
  skip : List Nat
  /-- slabs whose operands are not read: the skipped ones, none on an RV-9E, whose passes are dense (R51, R203) -/
  unread : List Nat
  /-- slabs with a poisoned bit in a map plane that the decoder reads -/
  mapBad : List Nat

/-- Element bits as a value with its poison. -/
def valOf (c : Nat) (e : Nat × Nat × Bool) : Val × Bool := (decElem c e.1 e.2.1, e.2.2)

/-- The kept values of a `sparse24` view by column (R123, R126). -/
def sparseCols (s : State) (t slot : Nat) (st : Step) (vi : Nat) : List (List (Val × Bool)) :=
  let f := stepFile s st
  let v := viewOf f vi
  let x := tensorOf f v.tensor
  let src := sourceOf s t (tensorPlace s slot st v.tensor)
  let sc := sourceOf s t (tensorPlace s slot st x.scale)
  let w := fmtBits x.format
  let sl := sliceOf x (0, 0, startV v 2, startV v 3)
  (List.range (extV v 0)).map fun j => (List.range (extV v 1 / 2)).map fun kk =>
    let o := keptIdx x sl (startV v 0 + j) (startV v 1 / 2 + kk) * w
    if isBlock x.format then
      let so := 8 * scaleIdx x (startV v 0 + j, startV v 1 + 4 * (kk / 2), startV v 2, startV v 3)
      (decElem x.format (readBits src o w) (readBits sc so 8), poisonedBits src o w || poisonedBits sc so 8)
    else (decElem x.format (readBits src o w) 0, poisonedBits src o w)

/-- The metadata nibbles of a `sparse24` view by column (R125). -/
def sparseNibs (s : State) (t slot : Nat) (st : Step) (vi : Nat) : List (List (Nat × Bool)) :=
  let f := stepFile s st
  let v := viewOf f vi
  let x := tensorOf f v.tensor
  let src := sourceOf s t (tensorPlace s slot st x.meta24)
  let sl := sliceOf x (0, 0, startV v 2, startV v 3)
  (List.range (extV v 0)).map fun j => (List.range (extV v 1 / 4)).map fun g =>
    let o := 4 * metaIdx x sl (startV v 0 + j) (startV v 1 / 4 + g)
    (readBits src o 4, poisonedBits src o 4)

/-- Every map bit of one plane of a view's slab of 8 in K is 1; without a map every bit is 0 (R133). `kdim`: the dimension of K. -/
def slabBits (s : State) (t slot : Nat) (st : Step) (vi kdim sl : Nat) (zero : Bool) : Bool :=
  let f := stepFile s st
  let v := viewOf f vi
  let x := tensorOf f v.tensor
  if !isMapped x then false
  else (List.range (ceilDiv (extV v (1 - kdim)) 8)).all fun u =>
    let k := startV v kdim + 8 * sl
    let r := startV v (1 - kdim) + 8 * u
    let c := if kdim = 0 then (k, r, startV v 2, startV v 3) else (r, k, startV v 2, startV v 3)
    mapBit s t slot st (if zero then x.zmap else x.fmap) (mapIdx x c)

/-- A map bit of a view's slab that the decoder reads lies in a poisoned word (R62). -/
def slabPoison (s : State) (t slot : Nat) (st : Step) (vi kdim sl : Nat) : Bool :=
  let f := stepFile s st
  let v := viewOf f vi
  let x := tensorOf f v.tensor
  isMapped x && (List.range (ceilDiv (extV v (1 - kdim)) 8)).any fun u =>
    let k := startV v kdim + 8 * sl
    let r := startV v (1 - kdim) + 8 * u
    let c := if kdim = 0 then (k, r, startV v 2, startV v 3) else (r, k, startV v 2, startV v 3)
    [x.zmap, x.fmap].any fun p => poisonedBits (sourceOf s t (tensorPlace s slot st p)) (mapIdx x c) 1

/-- The slabs that the decoder skips (R133). -/
def skippedSlabs (s : State) (t slot : Nat) (st : Step) (a b k : Nat) : List Nat :=
  (List.range (k / 8)).filter fun sl =>
    (slabBits s t slot st a 0 sl true && slabBits s t slot st b 1 sl false)
      || (slabBits s t slot st b 1 sl true && slabBits s t slot st a 0 sl false)

/-- Gather the operands of a pass; `rows`: the rows of A that count (R196). -/
def passOf (s : State) (t slot : Nat) (st : Step) (a b rows : Nat) : Pass :=
  let f := stepFile s st
  let va := viewOf f a
  let vb := viewOf f b
  let ta := tensorOf f va.tensor
  let tb := tensorOf f vb.tensor
  let k := extV va 0
  let n := extV vb 0
  let ea := readView s t slot st a
  let eb := if isSparse tb then [] else readView s t slot st b
  { m := rows, n, k
    ncols := if is16 ta.format || is16 tb.format then 24 else 48
    d := min (classDepth ta.format) (classDepth tb.format)
    sparse := isSparse tb
    hold := isMapped ta || isMapped tb
    int := isInt ta.format && isInt tb.format
    a := (List.range rows).map fun i => ((ea.drop (i * k)).take k).map (valOf ta.format)
    b := if isSparse tb then sparseCols s t slot st b
         else (List.range n).map fun j => (List.range k).map fun kk => valOf tb.format (nth eb (j + n * kk) (0, 0, false))
    nib := if isSparse tb then sparseNibs s t slot st b else []
    skip := skippedSlabs s t slot st a b k
    unread := if fullUnits s.variant then skippedSlabs s t slot st a b k else []
    mapBad := if fullUnits s.variant then
        (List.range (k / 8)).filter fun sl => slabPoison s t slot st a 0 sl || slabPoison s t slot st b 1 sl
      else [] }

/-- Valid 2:4 nibbles (Table Sparse-1). -/
def nibbleOk (x : Nat) : Bool := decide (x % 4 < x / 4)

/-- The products of column `j`: the K index in A and the index in B's stored column, in ascending K, without those of skipped
slabs. -/
def passPairs (x : Pass) (j : Nat) : List (Nat × Nat) :=
  let all := if x.sparse then (List.range (x.k / 2)).map fun kk =>
      let q := (nth (nth x.nib j []) (kk / 2) (0, false)).1
      (4 * (kk / 2) + (if kk % 2 = 0 then q % 4 else q / 4), kk)
    else (List.range x.k).map fun kk => (kk, kk)
  all.filter fun e => !x.skip.contains (e.1 / 8)

/-- Cut a list into groups of `d`. -/
def groupsOf {α : Type} (d : Nat) : Nat → List α → List (List α)
  | 0, _ => []
  | n + 1, l => if l.isEmpty then [] else l.take d :: groupsOf d n (l.drop d)

/-- One cycle of a floating-point cell (R110, R112, R135). -/
def cellFloat (hold : Bool) (acc : BitVec 32 × Nat) (ps : List Val) : BitVec 32 × Nat :=
  match ps with
  | [] => acc
  | p :: r =>
    if hold && ps.all Val.isZero then acc else
    let a := decF32 acc.1
    let q := convFp (fpFmt 0) 0 0 false (vAdd (r.foldl vAdd p) a)
    (BitVec.ofNat 32 q.1, orS acc.2 (accStatus (ps.all Val.finite && a.finite) q.2))

/-- An integer value. -/
def intOf : Val → Int
  | .num neg m e => (if neg then -1 else 1) * ((m * pow2 e : Nat) : Int)
  | _ => 0

/-- One cycle of an integer cell (R111). -/
def cellInt (acc : BitVec 32 × Nat) (ps : List Val) : BitVec 32 × Nat :=
  let v := acc.1.toInt + (ps.map intOf).foldl (· + ·) 0
  (BitVec.ofInt 32 v, orS acc.2 (if v < -2 ^ 31 ∨ 2 ^ 31 ≤ v then intWrap else 0))

/-- One cell's pass: the accumulator and the status bits. -/
def cellPass (x : Pass) (pairs : List (Nat × Nat)) (i j : Nat) (acc : BitVec 32) : BitVec 32 × Nat :=
  let row := nth x.a i []
  let col := nth x.b j []
  let ps := pairs.map fun e => vMul (nth row e.1 (Val.zero, false)).1 (nth col e.2 (Val.zero, false)).1
  let cyc := groupsOf x.d ps.length ps
  if x.int then cyc.foldl cellInt (acc, 0) else cyc.foldl (cellFloat x.hold) (acc, 0)

/-- Some operand value is not finite. -/
def wild (x : Pass) : Bool := (x.a ++ x.b).any fun l => l.any fun e => !e.1.finite

/-- Set an accumulator; zero words are not listed. -/
def setCell (b : Tab (BitVec 32)) (i : Nat) (v : BitVec 32) : Tab (BitVec 32) := if v = 0 then tdel b i else tput b i v

/-- A whole pass over a bank: cell (i, j) is word 48 i + j. Cells of missing rows and columns stay zero unless a value that is
not finite meets their zeros or they already hold something. -/
def runPass (x : Pass) (bank : Tab (BitVec 32)) : Tab (BitVec 32) × Nat :=
  let full := wild x || !bank.isEmpty
  let rows := if full then 48 else min 48 x.m
  let cols := if full then x.ncols else min x.ncols x.n
  (List.range cols).foldl (fun r j =>
    let pairs := passPairs x j
    (List.range rows).foldl (fun r i =>
      let q := cellPass x pairs i j (tget bank (48 * i + j) 0)
      (setCell r.1 (48 * i + j) q.1, orS r.2 q.2)) r) (bank, 0)

/-- First K index whose operands carry poison, their map bits among them, leaving out slabs that are not read (R62). -/
def firstPoison (x : Pass) : Option Nat :=
  (List.range x.k).find? fun k => x.mapBad.contains (k / 8) || !x.unread.contains (k / 8) &&
    ((x.a.any fun r => (nth r k (Val.zero, false)).2)
      || (x.b.any fun c => (nth c (if x.sparse then k / 2 else k) (Val.zero, false)).2)
      || (x.nib.any fun c => (nth c (k / 4) (0, false)).2))

/-- First K index of a group with an invalid nibble (R127). -/
def firstBadNibble (x : Pass) : Option Nat :=
  ((List.range (x.k / 4)).find? fun g => !x.unread.contains (g / 2) && x.nib.any fun c => !nibbleOk (nth c g (4, false)).1).map (4 * ·)

/-- Slabs that cost no cycle: none on an RV-9E (R51, R134, R136). -/
def slabsSaved (s : State) (x : Pass) : Nat := if fullUnits s.variant then x.skip.length else 0

/-- MMA. -/
def execMma (t a b bank : Nat) (clear bounded : Bool) (bound : Nat) (s : State) : Res :=
  skein t (.mma a b bank clear bounded bound) [1] (fun s slot st r =>
    let f := stepFile s st
    let va := viewOf f a
    let rows := if bounded then min (extV va 1) (sreg r bound).toNat else extV va 1
    let x := passOf s t slot st a b rows
    guarded s t slot st (if x.sparse || x.hold then [8] else []) [a, b] fun s =>
      let poison := match firstPoison x, firstBadNibble x with
        | some p, some n => decide (p < n + 4)
        | some _, none => true
        | none, _ => false
      if poison then skeinFault s t slot 0x02
      else if (firstBadNibble x).isSome then failStep s slot 0x0401
      else
        let old := if clear then [] else tget r.acc bank []
        let q := runPass x old
        let s := setRun s t (orConv { r with acc := tput r.acc bank q.1, intForm := tput r.intForm bank x.int } q.2)
        let s := count s st.part 0x03 (48 * x.ncols * (x.k - 8 * slabsSaved s x))
        let s := count s st.part 0x04 (slabsSaved s x)
        let s := moved s t slot st a (bitsLen (readStored s t slot st a)) false
        moved s t slot st b (bitsLen (readStored s t slot st b)) false) s

/-- One word of a drain (R118): bits and status. -/
def drainWord (fmt rnd g : Nat) (sat int : Bool) (shift : Nat) (w : BitVec 32) : Nat × Nat :=
  if fmt = 0 then (w.toNat, 0)
  else convElem fmt rnd g sat (if int then ofInt w.toInt (if isInt fmt then -(shift : Int) else 0) else decF32 w)

/-- The elements of a drain, row by row: the index within the view, and the accumulator's word number. -/
def drainCells (v : Upf.View) : List (Nat × Nat) :=
  (List.range (min 48 (extV v 1))).flatMap fun i => (List.range (min 48 (extV v 0))).map fun j => (i * extV v 0 + j, 48 * i + j)

/-- The random groups of `n` conversions in a rounding mode, and the generator after them (R102). -/
def drawGroups (s : State) (t rnd n : Nat) : List Nat × State :=
  if rnd = 2 then
    let q := lfsrGroups (s.tile t).lfsr n
    (q.1, s.modTile t fun x => { x with lfsr := q.2 })
  else ([], s)

/-- Note whether a tensor's words are INT32 accumulators (R118). -/
def noteWords (s : State) (slot i : Nat) (int : Bool) : State :=
  s.modStep slot fun x => { x with intWords := if int then addNew x.intWords i else x.intWords.filter (· != i) }

/-- DRAIN (R47, R118, R586). -/
def execDrain (t d bank rnd : Nat) (sat : Bool) (shift : Nat) (s : State) : Res :=
  skein t (.drain d bank rnd sat shift) [0] (fun s slot st r =>
    let f := stepFile s st
    let v := viewOf f d
    let x := tensorOf f v.tensor
    let int := tget r.intForm bank false
    let cs := drainCells v
    let (gs, s) := drawGroups s t (if x.format = 0 then 0 else rnd) cs.length
    let words := cs.map fun c => tget (tget r.acc bank []) c.2 0
    let outs := words.zipIdx.map fun e => drainWord x.format rnd (nth gs e.2 0) sat int shift e.1
    let crd := coords v
    let puts := (cs.zip outs).map fun e =>
      ({ tensor := v.tensor, off := linIdx x (nth crd e.1.1 (0, 0, 0, 0)) * fmtBits x.format, width := fmtBits x.format,
         val := e.2.1 } : Put)
    let vals := if x.format = 0 ∧ int then words.map fun w => ofInt w.toInt 0 else outs.map fun e => decElem x.format e.1 0
    let s := setRun s t (orConv r (outs.foldl (fun a e => orS a e.2) 0))
    let s := watchOp (putAll s t slot puts) slot v.tensor vals puts
    let s := noteWords s slot v.tensor (x.format == 0 && int)
    moved s t slot st d (packedBytes x.format cs.length) true) s

end Sys2Proof.Machine
end

