-- ==== Sys2Proof/Machine/Observation.lean ====
section
/-! DEFINITION. Counters, trace, tensor watch, the hang report, global stop and scan-out (R542 to R566). -/

namespace Sys2Proof.Machine

/-! ### Counters (R543 to R548) -/

/-- A message of a partition from its owner (R346). -/
def ownSpec (s : State) (m : Msg) (op n : Nat) (ranges : Bool) : MsgSpec :=
  { opcode := op, len := some n, rsv := [(1, 3)], ranges, named := ownPart s m }

/-- COUNTER_SELECT (R543): an unknown or repeated code or more than 16 refuse it. A list longer than the buffer is refused too. -/
def execCounterSelect (m : Msg) (s : State) : Res :=
  mbx (ownSpec s m 0x0801 4 true) (fun s =>
    let n := fld m.ext 0 1
    let codes : List Nat := (slice (extIn m) 8 n).map (·.toNat)
    if m.extBytes < 8 ∨ 16 < n ∨ m.extBytes < 8 + n ∨ !zeroRange m.ext 1 7 ∨ codes.any (fun c => c = 0 ∨ 0x12 < c) ∨ !decide codes.Nodup
    then .refuse 0x0903
    else .done (staged (s.modPart (namedPart m) fun x => { x with counters := { x.counters with staged := some codes } })
      (namedPart m))) m s

/-- A freeze holds, as the registers show it (Table Observation-2). -/
def freezeHolds (s : State) : Bool := (s.pmc.byMessage || s.pmc.byStop) && (s.pmc.held || decide (s.pmc.tf ≤ time s))

/-- A 32-bit half of a 64-bit value; the high half as a read of the low half has latched it (R548). -/
def latchedWord (latch : Tab Nat) (base : Nat) (high : Bool) (v : Nat) : Nat :=
  if high then tget latch base (v / 2 ^ 32 % 2 ^ 32) else v % 2 ^ 32

/-- A word of a partition's counter window (Table Observation-2). -/
def windowWord (s : State) (p off : Nat) : Nat :=
  let c := (s.part p).counters
  if off = 0 then c.sel.length + (if freezeHolds s then 256 else 0) + (if c.isPartial then 512 else 0)
  else if off = 4 then c.doneCtx
  else if off = 8 then c.doneSeq
  else if 0x10 ≤ off ∧ off < 0x50 then nth c.sel ((off - 0x10) / 4) 0
  else if 0x80 ≤ off ∧ off < 0x100 then latchedWord c.hiLatch (off / 8 * 8) (off % 8 == 4) (nth c.live ((off - 0x80) / 8) 0)
  else if 0x100 ≤ off ∧ off < 0x180 then latchedWord c.hiLatch (off / 8 * 8) (off % 8 == 4) (nth c.done ((off - 0x100) / 8) 0)
  else 0

/-- The 0x180 bytes of a window, all taken in one tick (R548). -/
def windowBytes (s : State) (p : Nat) : List Byte :=
  let s := s.modPart p fun x => { x with counters := { x.counters with hiLatch := [] } }
  (List.range 96).flatMap fun i => toLe 4 (windowWord s p (4 * i))

/-- COUNTER_READ (R548). -/
def execCounterRead (m : Msg) (s : State) : Res :=
  mbx (ownSpec s m 0x0802 4 true) (fun s =>
    if m.extBytes < 384 then .refuse 0x0903 else .output s 384 (windowBytes s (namedPart m))) m s

/-- The freeze tick has come: the counts are held, and the first bank swapped in after release is partial (R546). -/
def holdCounts (s : State) : State :=
  if s.pmc.armed && decide (s.pmc.tf ≤ time s) then
    { s with
      pmc := { s.pmc with armed := false, held := true }
      parts := tmap s.parts fun _ x => { x with counters := { x.counters with frozenIn := true } } }
  else s

/-- A source releases the freeze; with none left the counts go on (R546). -/
def freeCounts (s : State) (p : Pmc → Pmc) : State :=
  let s := holdCounts s
  let s := { s with pmc := p s.pmc }
  if s.pmc.byMessage || s.pmc.byStop then s else { s with pmc := { s.pmc with held := false, armed := false } }

/-- COUNTER_FREEZE (R546, R553): T_f is 200 ns from now; its acceptance triggers trigger-centred traces. -/
def execCounterFreeze (m : Msg) (s : State) : Res :=
  let b := fld m.payload 0 1
  mbx { opcode := 0x0803, pfOnly := true, len := some 1, ranges := decide (b ≤ 1) } (fun s =>
    if b = 1 then
      let s := { s with pmc := { s.pmc with byMessage := true, tf := 200 + time s, armed := true, held := frozen s } }
      .detail (forAll (s.parts.map (·.1)) traceTrigger s) s.pmc.tf
    else .done (freeCounts s fun p => { p with byMessage := false })) m s

/-- FREEZE_TICK (R546): whorl time reaches T_f. -/
def execFreezeTick (now : Nat) (s : State) : Res :=
  timed s now (fun s => up s && s.pmc.armed && decide (s.pmc.tf ≤ time s)) holdCounts

/-- The count whose low half lies at an offset of the PMC region: the partition of its window, its offset there, its value. -/
def lowCount (s : State) (func off : Nat) : Option (Option Nat × Nat × Nat) :=
  let win := fun (p w : Nat) =>
    if w % 8 = 0 ∧ 0x80 ≤ w ∧ w < 0x100 then some (some p, w, nth (s.part p).counters.live ((w - 0x80) / 8) 0)
    else if w % 8 = 0 ∧ 0x100 ≤ w ∧ w < 0x180 then some (some p, w, nth (s.part p).counters.done ((w - 0x100) / 8) 0)
    else none
  if func ≠ 0 then (boundPart s func).bind fun p => win p off
  else if 0x1000 ≤ off ∧ off < 0x1000 + 0x200 * 64 then win ((off - 0x1000) / 0x200) ((off - 0x1000) % 0x200)
  else if off % 8 = 0 ∧ 0x100 ≤ off ∧ off < 0x180 then some (none, off, tget s.pmc.global ((off - 0x100) / 8) 0)
  else none

/-- PMC_LOW_HALF_READ (R548): a 4-byte read of the low half latches the high half. -/
def execPmcLowHalfRead (func off : Nat) (s : State) : Res :=
  untimed s (fun s => (s.func func).enabled && (match regionOf func off with
      | some (.pmc, o) => (lowCount s func o).isSome
      | _ => false)) fun s =>
    match lowCount s func (off - 0x30000) with
    | none => s
    | some (w, o, v) =>
      let hi := v / 2 ^ 32 % 2 ^ 32
      readEffect s func .pmc (v % 2 ^ 32) (match w with
        | some p => s.modPart p fun x => { x with counters := { x.counters with hiLatch := tput x.counters.hiLatch o hi } }
        | none => { s with pmc := { s.pmc with hiLatch := tput s.pmc.hiLatch o hi } })

/-! ### Trace (R549) -/

/-- TRACE_CONFIG (R549): only with a trace grant; a new configuration ends the one before it. -/
def execTraceConfig (m : Msg) (s : State) : Res :=
  let h := fld m.payload 4 4
  let mode := fld m.payload 8 1
  let share := fld m.payload 9 1
  mbx (ownSpec s m 0x0804 10 (decide (mode ≤ 2 ∧ share ≤ 15))) (fun s =>
    let p := namedPart m
    if !s.grants.trace.contains p then .refuse 0x0906
    else if h = 0xFFFFFFFF then .done (reap (traceOff s p) p)
    else match objOf s p h with
      | none => .refuse 0x0741
      | some i =>
        let s := traceOff s p
        let o := memObj s p i
        let t : Trace := { on := true, mode, share, obj := h, capacity := (min o.bytes (2 ^ 28) - 64) / 32 }
        let s := s.modPart p fun x => { x with trace := t, objs := tput x.objs i { o with traceRef := true } }
        .done (reap (traceSync s p) p)) m s

/-! ### Tensor watch (R559) -/

/-- The selections of a list. -/
def watchSels (l : List Byte) (n : Nat) : List WatchSel :=
  (List.range n).map fun i =>
    { prog := fld l (8 + 8 * i) 4, tensor := fld l (12 + 8 * i) 2, digest := fld l (14 + 8 * i) 1 == 1
      trigger := fld l (15 + 8 * i) 1 % 2 == 1 }

/-- The status of a selection: a stale program, a tensor that cannot be watched, a digest unit that is absent. -/
def watchSelStatus (s : State) (p : Nat) (w : WatchSel) : Nat :=
  match progOf s p w.prog with
  | none => 0x0922
  | some g =>
    let f := (tget (s.part p).progs g {}).upf
    let k := (tensorOf f w.tensor).kind
    if f.tensors.length ≤ w.tensor ∨ !(k == 1 || k == 3 || k == 4) then 0x0903
    else if w.digest && !fullUnits s.variant then 0x0909 else 0

/-- WATCH_SELECT (R559, R563, R565): a staged setting. -/
def execWatchSelect (m : Msg) (s : State) : Res :=
  mbx (ownSpec s m 0x0805 4 true) (fun s =>
    let p := namedPart m
    let l := extIn m
    let n := fld l 4 1
    let sels := watchSels l n
    let o := fld l 0 4
    if m.extBytes < 8 ∨ 16 < n ∨ m.extBytes < 8 + 8 * n ∨ !zeroRange l 5 3
        ∨ (List.range n).any (fun i => 1 < fld l (14 + 8 * i) 1 ∨ 1 < fld l (15 + 8 * i) 1) then .refuse 0x0903
    else match sels.find? fun w => watchSelStatus s p w != 0 with
      | some w => .refuse (watchSelStatus s p w)
      | none =>
        let small : Bool := match objOf s p o with
          | some i => decide ((memObj s p i).bytes < 128)
          | none => true
        if (n ≠ 0 ∨ o ≠ 0xFFFFFFFF) ∧ small then .refuse 0x0741
        else .done (staged (s.modPart p fun x => { x with watch := { x.watch with staged := some (o, sels) } }) p)) m s

/-! ### Hang report (R564) -/

/-- A node of the graph (Table Observation-7). -/
def nodeBytes (n : HangNode) : List Byte :=
  toLe 1 n.kind ++ toLe 1 n.flags ++ toLe 2 n.state ++ toLe 4 n.id ++ toLe 4 n.id2 ++ toLe 4 (min n.waitUs 0xFFFFFFFF)

/-- The graph as far as it fits; the header counts the entries that follow it. -/
def hangBytes (g : HangGraph) (room : Nat) : List Byte :=
  let nodes := g.nodes.take ((room - 32) / 16)
  let edges := g.edges.take ((room - 32 - 16 * nodes.length) / 4)
  let cut := decide (nodes.length < g.nodes.length ∨ edges.length < g.edges.length)
  toLe 8 g.built ++ toLe 8 g.idleSince ++ toLe 4 nodes.length ++ toLe 4 edges.length ++ toLe 1 (if cut then 1 else 0)
    ++ List.replicate 7 0 ++ nodes.flatMap nodeBytes ++ edges.flatMap fun e => toLe 2 e.1 ++ toLe 2 e.2

/-- HANG_REPORT (R564). -/
def execHangReport (m : Msg) (s : State) : Res :=
  mbx (ownSpec s m 0x0806 4 true) (fun s =>
    match (s.part (namedPart m)).hang with
    | none => .refuse 0x0927
    | some g =>
      if m.extBytes < 32 then .refuse 0x0903
      else .output s (hangBytes g m.extBytes).length (hangBytes g m.extBytes)) m s

/-! ### Global stop and scan-out (R555 to R558) -/

/-- `GST_CTRL` is written (R555, R557, Table Registers-8): with both bits, or a stop while one is in force, nothing comes of it. -/
def gstStart (s : State) (alsoRelease : Bool) : State :=
  if alsoRelease || s.gst.stopped || !s.grants.stop then s else startStop s 1

/-- GST_STOP (R555). -/
def execGstStop (now : Nat) (alsoRelease : Bool) (s : State) : Res :=
  timed s now (fun s => writable s 0 .gst) fun s => gstStart s alsoRelease

/-- The stop is released (R28, R395, R472, R546, R557): engines and remote limits go on, the traces record it, the engine resets of
faults contained in the stop begin (Table Faults-9), and the notices that came meanwhile are acted on. STOP_OUT_N rises here; where
STOP_IN_N fell with no stop started, it rises only with a later stop's release, or at a reset that finds STOP_IN_N high (DESIGN
CHOICE, log 137). -/
def gstFree (s : State) : State :=
  if !s.gst.stopped then s
  else
    let d := time s - s.gst.time
    let ns := s.gst.notices
    let s := { s with
      gst := { s.gst with stopped := false, halted := false, source := 0, notices := [] }
      remOps := s.remOps.map fun o => { o with last := o.last + d } }
    let s := freeCounts s fun p => { p with byStop := false }
    let s := s.modAon fun a => { a with stopOutN := true }
    let s := forAll ((s.parts.filter fun e => e.2.trace.on).map (·.1)) (fun s p =>
      traceRec s p (traceBytes s p 0x0C 0 0xFFF 0 0 0xFFFF 0 0 0 0)) s
    let s := forAll (s.ports.map (·.1)) drainTx s
    let s := forAll ((s.coll.openFaults.map (·.engine)).dedup) (fun s e => if testingOf s e = none then beginEngineReset s e [] else s) s
    forAll ns takeNotice s

/-- GST_RELEASE (R557). -/
def execGstRelease (now : Nat) (s : State) : Res := timed s now (fun s => writable s 0 .gst) gstFree

/-- Every residue window of every tile has been closed and compared (R76). -/
def windowsClosed (s : State) : Bool :=
  s.tiles.all fun e => (e.2.run.toList ++ e.2.tails).all fun r => !r.matWin && !r.vecWin

/-- GST_HALTED (R76, R556): the tiles' state is held once their checkers have compared the open windows. -/
def execGstHalted (now : Nat) (s : State) : Res :=
  timed s now (fun s => up s && s.gst.stopped && !s.gst.halted && windowsClosed s) fun s => { s with gst := { s.gst with halted := true } }

/-- `GST_SCAN_SEL` is written (Table Observation-5, Table Registers-8). -/
def gstSelect (s : State) (tile chain : Nat) : State :=
  { s with gst := { s.gst with selTile := tile % 2048, selChain := chain % 8, addr := 0 } }

/-- GST_SCAN_SEL. -/
def execGstScanSel (tile chain : Nat) (s : State) : Res :=
  untimed s (fun s => writable s 0 .gst) fun s => gstSelect s tile chain

/-- Length of a chain in bytes (Table Observation-5). -/
def chainLen : Nat → Nat
  | 0 => 2048
  | 1 => 16384
  | 2 => 18432
  | 3 => 4194304
  | 4 => 17408
  | 5 => 64
  | _ => 0

/-- The selected chain can be read (R558). -/
def scanOpen (s : State) : Bool :=
  s.gst.halted && decide (s.gst.selTile < tileCount s.variant) && decide (s.gst.addr + 4 ≤ chainLen s.gst.selChain)
    && (match tileOwner s s.gst.selTile with
        | some p => s.grants.scan.contains p
        | none => false)

/-- GST_SCAN_DATA (R558): the next 4 bytes, the address advanced; of a chain other than the scratchpad they are open (log 15). -/
def execGstScanData (parityError : Bool) (s : State) : Res :=
  untimed s (fun s => (s.func 0).enabled) fun s =>
    if (readForced s 0 .gst).isSome || !scanOpen s then readEffect s 0 .gst 0 s
    else
      let v := if s.gst.selChain = 3 then leNat (mreadN (s.tile s.gst.selTile).scratch s.gst.addr 4) else (draw s).1 % 2 ^ 32
      let s := if s.gst.selChain = 3 then s else (draw s).2
      let at' := if parityError then some (time s) else s.gst.parityAt
      let s := { s with gst := { s.gst with addr := s.gst.addr + 4, parityErr := s.gst.parityErr || parityError, parityAt := at' } }
      let s := if parityError then reportCode s 0xAC02 else s
      emit s (.read 0 (BitVec.ofNat 64 v))

end Sys2Proof.Machine
end

