-- ==== Sys2Proof/Machine/Whorl.lean ====
section
/-! DEFINITION. The whorl time base: sync messages, steering, holdover and the comparators (R18, R19, R396 to R403). -/

namespace Sys2Proof.Machine

/-- Sync state of a link port. -/
def syncOf (s : State) (p : Nat) : PortSync := tget s.aon.sync p {}

/-- Change it. -/
def modSync (s : State) (p : Nat) (f : PortSync → PortSync) : State :=
  s.modAon fun a => { a with sync := tput a.sync p (f (tget a.sync p {})) }

/-- Comparator `n`. -/
def cmpOf (s : State) (n : Nat) : Cmp := tget s.aon.cmps n {}

/-- A comparator fires (R403); one with `wake` set, and every armed one while asleep, is a wake source (R526, Table
Mailbox-8). -/
def fire (s : State) (n : Nat) : State :=
  let c := cmpOf s n
  let s := s.modAon fun a => { a with cmps := tput a.cmps n { c with fired := true } }
  let s := if c.wake || s.aon.asleep then wakeUp s else s
  if s.aon.asleep then s else armMonitor s

/-- The comparator is due. -/
def due (s : State) (c : Cmp) : Bool := c.armed && !c.fired && decide (c.value ≤ time s)

/-- Every due comparator fires, as at a forward step (R399). -/
def fireDue (s : State) : State := forAll ((s.aon.cmps.filter fun e => due s e.2).map (·.1)) fire s

/-- A mark of local time moves with a step of whorl time that is no passing of time (R398, R399). -/
def shifted (old new t : Nat) : Nat := t + new - old

/-- Whorl time is set in one step; the marks of running local limits keep their distance. -/
def setWhorl (s : State) (w : Nat) : State :=
  let f := shifted (time s) w
  { s with
    aon := { s.aon with
      whorl := w, whorlHold := none, refclkSince := f s.aon.refclkSince, pwrGoodSince := f s.aon.pwrGoodSince
      railBackSince := f s.aon.railBackSince, blkHighSince := f s.aon.blkHighSince, aonSince := f s.aon.aonSince
      lastEdge := s.aon.lastEdge.map f, outstanding := s.aon.outstanding.map fun o => (o.1, f o.2) }
    life := { s.life with startAt := f s.life.startAt, failedAt := f s.life.failedAt, resetAt := s.life.resetAt.map f }
    coll := { s.coll with fatalAt := f s.coll.fatalAt, watchdog := f s.coll.watchdog }
    rails := tmap s.rails fun _ r => { r with requestAt := f r.requestAt } }

/-- A port's neighbour can be a parent: synced, with a valid message in the last 100 µs (R398, R401). -/
def canParent (s : State) (e : Nat × PortSync) : Bool :=
  e.2.nbSynced && decide (time s ≤ 100000 + e.2.lastValid) && (s.port e.1).up

/-- The synced neighbour with the smallest depth, the lower package number between equal depths (R398). -/
def bestParent (s : State) : Option (Nat × PortSync) :=
  minBy (fun e => e.2.nbDepth * 4096 + e.2.nbPkg) (s.aon.sync.filter (canParent s))

/-- Take a parent; package 0 is the root (R398). -/
def takeParent (s : State) (e : Nat × PortSync) : State :=
  if myPkg s = 0 then s.modAon fun a => { a with root := true, synced := true, holdover := false, depth := 0, parentPort := 7 }
  else
    let changed := s.aon.parentPort != 7 && s.aon.parentPort != e.1
    let s := s.modAon fun a =>
      { a with parentPort := e.1, depth := e.2.nbDepth + 1, synced := true, holdover := false, holdFree := false }
    if changed then reportCode s 0x6904 else s

/-- The bound against the root in ns (R400, R401): half a nanosecond rounded up; in holdover it grows by 100 ns, after a loss
of REFCLK by 5 µs, per ms. -/
def whlBound (s : State) : Nat :=
  let base := if s.aon.root then 0 else 2 * s.aon.depth + 1
  min 0xFFFF (base + (if s.aon.holdover then s.aon.bound + holdGrowth s else 0))

/-- WHORL_SYNC_EDGE (R18, R19): an accepted edge gives the outstanding message its send time; one outside its window is
discarded with 0x6901. -/
def execWhorlSyncEdge (now highNs : Nat) (s : State) : Res :=
  timed s now (fun s => aonUp s && decide (4 ≤ highNs) && (match s.aon.lastEdge with
      | some t => decide (250 + t ≤ time s)
      | none => true)) fun s =>
    match s.aon.outstanding with
    | some (p, t) =>
      let s := s.modAon fun a => { a with outstanding := none }
      if time s ≤ 500 + t then
        modSync (s.modAon fun a => { a with lastEdge := some (time s) }) p fun x => { x with sends := match x.sends with
          | (n, _) :: r => (n, some (time s)) :: r
          | [] => [] }
      else reportCode s 0x6901
    | none => reportCode s 0x6901

/-- SYNC_WINDOW_EXPIRY (R396): the message has no send time. -/
def execSyncWindowExpiry (now : Nat) (s : State) : Res :=
  timed s now (fun s => aonUp s && (match s.aon.outstanding with
      | some (_, t) => decide (500 + t < time s)
      | none => false)) fun s => s.modAon fun a => { a with outstanding := none }

/-- The send time of this port's message `n`, if it is known. -/
def sendTime (x : PortSync) (n : Nat) : Option Nat := (x.sends.find? fun e => e.1 == n).bind (·.2)

/-- The 48 payload bytes of a sync message (R397). -/
def syncPayload (seq : Nat) (prevSend : Option Nat) (prevArrival prevSeq : Nat) : List Byte :=
  toLe 2 2 ++ toLe 2 seq ++ toLe 8 (prevSend.getD (2 ^ 64 - 1)) ++ toLe 8 prevArrival ++ toLe 2 prevSeq ++ List.replicate 26 0

/-- The sync cell of a port goes one hop, to window 0x3FF of the neighbour (R397). -/
def syncCell (port seq : Nat) (prevSend : Option Nat) (prevArrival prevSeq : Nat) : List Byte :=
  let m : TxMsg := { route := [port], kind := 2, window := 0x3FF, payload := syncPayload seq prevSend prevArrival prevSeq }
  cellHeader m ++ m.payload

/-- SYNC_SEND (R32, R391, R396, R397): a control cell, which takes a credit; never two outstanding. -/
def execSyncSend (now port : Nat) (s : State) : Res :=
  timed s now (fun s => aonUp s && up s && (s.port port).up && decide (0 < (s.port port).cellHeld) && s.aon.outstanding == none && !s.coll.freeze) fun s =>
    let s := s.modPort port fun q => { q with cellHeld := q.cellHeld - 1 }
    let x := syncOf s port
    let prev := sendTime x ((65535 + x.seq) % 65536)
    let s := modSync s port fun y => { y with seq := (y.seq + 1) % 65536, sends := ((y.seq, none) :: y.sends).take 4 }
    let s := s.modAon fun a => { a with outstanding := some (port, time s) }
    emit s (.sync port x.seq prev (x.arrival.getD 0) x.arrSeq (syncCell port x.seq prev (x.arrival.getD 0) x.arrSeq))

/-- Correct toward the parent (R399): adoption in one step; beyond 10 µs a forward step or a hold, recorded as 0x6905;
smaller offsets are slewed. `o2` is twice the offset in ns, positive when this package is ahead. -/
def correct (s : State) (o2 : Int) : State :=
  if !s.aon.adopted then
    (fireDue (setWhorl s (((time s : Int) - o2 / 2).toNat))).modAon fun a => { a with adopted := true }
  else if o2 < -20000 then
    reportCode (fireDue (s.modAon fun a => { a with whorl := (((a.whorl : Int) - o2 / 2).toNat), whorlHold := none })) 0x6905
  else if 20000 < o2 then reportCode (s.modAon fun a => { a with whorlHold := some ((o2 / 2).toNat) }) 0x6905
  else s

/-- SYNC_ARRIVAL (R396 to R399): an offset comes only from a pair whose four times are valid. -/
def execSyncArrival (now port : Nat) (m : SyncMsg) (s : State) : Res :=
  timed s now (fun s => aonUp s && up s && (s.port port).up) fun s =>
    let x := syncOf s port
    let prevArr := if x.arrSeq = (65535 + m.seq) % 65536 then x.arrival else none
    let tA := match prevArr, m.prevSend with
      | some a, some b => some ((a : Int) - b)
      | _, _ => none
    let tB := (sendTime x m.prevSeq).map fun b => (m.prevArrival : Int) - b
    let s := modSync s port fun y =>
      { y with arrival := some (time s), arrSeq := m.seq, tA, nbSynced := m.nbSynced, nbDepth := m.nbDepth, nbPkg := m.nbPkg }
    match tA, tB with
    | some ta, some tb =>
      let s := modSync s port fun y => { y with lastValid := time s }
      if !m.nbSynced then s
      else if s.aon.root && s.aon.synced then s
      else
        let s := match bestParent s with
          | some e => takeParent s e
          | none => s
        if s.aon.parentPort = port ∨ myPkg s = 0 then
          correct (s.modAon fun a => { a with offset16 := 8 * (ta - tb), holdover := false, holdFree := false, synced := true }) (ta - tb)
        else s
    | _, _ => s

/-- PARENT_TIMEOUT (R401): no valid sync from the parent for 100 µs: a new parent, or holdover. -/
def execParentTimeout (now : Nat) (s : State) : Res :=
  timed s now (fun s => aonUp s && s.aon.synced && !s.aon.root && s.aon.parentPort != 7
      && decide (100000 + (syncOf s s.aon.parentPort).lastValid < time s)) fun s =>
    match bestParent s with
    | some e => takeParent s e
    | none => reportCode (s.modAon fun a =>
        { a with synced := false, holdover := true, holdSince := time s, holdFree := false, bound := 0, parentPort := 7 }) 0x6903

/-- FABRIC_EPOCH_START (R398): package 0 alone, 1 ms after the release of AON_RESET_N with no neighbour synced. -/
def execFabricEpochStart (now : Nat) (s : State) : Res :=
  timed s now (fun s => aonUp s && myPkg s == 0 && !s.aon.adopted && decide (1000000 + s.aon.aonSince ≤ time s)
      && (bestParent s).isNone) fun s =>
    (setWhorl s 0).modAon fun a => { a with adopted := true, root := true, synced := true, depth := 0, parentPort := 7 }

/-- COMPARATOR_FIRE (R403). -/
def execComparatorFire (now n : Nat) (s : State) : Res :=
  timed s now (fun s => aonUp s && due s (cmpOf s n)) fun s => fire s n

/-- WHL_TIME_LO (R402): a read latches the high half. -/
def execWhlTimeLo (func : Nat) (s : State) : Res :=
  untimed s (fun s => (s.func func).enabled) fun s =>
    readEffect s func .whl (time s % 2 ^ 32) (s.modAon fun a => { a with timeHi := time s / 2 ^ 32 % 2 ^ 32 })

end Sys2Proof.Machine
end

