-- ==== Sys2Proof/Machine/Registers.lean ====
section
/-! DEFINITION. What every register of BAR0 reads as, and the write of a register (R567 to R584). -/

namespace Sys2Proof.Machine

/-- A 32-bit half of a 64-bit register at `base`. -/
def half (off base v : Nat) : Nat := if off = base then v % 2 ^ 32 else v / 2 ^ 32 % 2 ^ 32

/-- One bit as a number. -/
def bitN (b : Bool) (i : Nat) : Nat := if b then 2 ^ i else 0

/-! ### Reads -/

/-- `APER_BASE` (Table Host-2). -/
def aperBase (s : State) : Nat := s.host.aperPart + bitN s.host.aperEnable 8 + s.host.aperOffset * 2 ^ 28

/-- `IDENT` (Table Registers-3, Table Partitions-7). -/
def identWord (s : State) (f off : Nat) : Nat :=
  match off with
  | 0x00 => 0x4B455255
  | 0x04 => 0x000000B0
  | 0x08 => identCap0 s.variant
  | 0x0C => identCap1 s.variant
  | 0x10 => identFwVer s
  | 0x14 => bootReason s
  | 0x18 => bootFails s
  | 0x20 => f + 256 * ((boundPart s f).getD 0xFF) + 65536 * (s.func f).gen
  | 0x28 => if f = 0 then half off 0x28 (aperBase s) else 0
  | 0x2C => if f = 0 then half off 0x28 (aperBase s) else 0
  | _ => 0

/-- `MBX` (Table Mailbox-1). -/
def mbxWord (s : State) (f off : Nat) : Nat :=
  let x := s.func f
  if 0x40 ≤ off ∧ off < 0x80 then fld x.boot (off - 0x40) 4
  else match off with
    | 0x00 => half off 0 x.reqBase.toNat
    | 0x04 => half off 0 x.reqBase.toNat
    | 0x08 => half off 8 x.rspBase.toNat
    | 0x0C => half off 8 x.rspBase.toNat
    | 0x10 => bitN x.enable 0 + x.log2 * 2 + x.rspVector * 65536
    | 0x18 => x.rspHead
    | 0x1C => bitN s.life.ready 0 + bitN s.life.minimal 1 + bitN x.overrun 2 + bitN x.exhausted 3 + 3 * 256 + x.authFails * 65536
    | 0x20 => x.reqHead
    | 0x28 => half off 0x28 x.ctrLast
    | 0x2C => half off 0x28 x.ctrLast
    | 0x80 => bitN x.bootBusy 0 + bitN x.bootBusy 1 + bitN x.bootDone 2
    | _ => 0

/-- `EVT` (Table Host-4). -/
def evtWord (s : State) (f off : Nat) : Nat :=
  let x := s.func f
  match off with
  | 0x00 => half off 0 x.evtBase.toNat
  | 0x04 => half off 0 x.evtBase.toNat
  | 0x08 => bitN x.evtEnable 0 + x.evtLog2 * 2 + x.evtVector * 65536
  | 0x0C => bitN x.detached 0
  | 0x10 => x.evtTail
  | 0x14 => x.evtHead
  | 0x18 => x.evtTail
  | 0x1C => (x.evtHeld.filter fun e => e.kind != 5).length
  | _ => 0

/-- `WHL` (Table Fabric-6). -/
def whlWord (s : State) (off : Nat) : Nat :=
  let c := cmpOf s ((off - 0x100) / 16)
  if 0x100 ≤ off ∧ off < 0x200 then
    if off % 16 = 0 then c.value % 2 ^ 32 else if off % 16 = 4 then c.value / 2 ^ 32 % 2 ^ 32
    else if off % 16 = 8 then bitN c.armed 0 + bitN c.fired 1 + bitN c.wake 2 else 0
  else match off with
    | 0x00 => time s % 2 ^ 32
    | 0x04 => s.aon.timeHi
    | 0x08 => bitN s.aon.synced 0 + bitN s.aon.root 1 + bitN s.aon.holdover 2 + s.aon.depth % 256 * 256 + s.aon.parentPort * 65536
    | 0x0C => (s.aon.offset16 % 2 ^ 32).toNat
    | 0x10 => whlBound s
    | _ => 0

/-- `FLT` (Table Faults-3). -/
def fltWord (s : State) (off : Nat) : Nat :=
  let c := s.coll
  if 0x100 ≤ off ∧ off < 0x200 then tget c.corr ((off - 0x100) / 4) 0
  else if 0x200 ≤ off ∧ off < 0x280 then (nth c.log ((off - 0x200) / 4) 0).toNat
  else match off with
    | 0x00 => half off 0 c.status.toNat
    | 0x04 => half off 0 c.status.toNat
    | 0x08 => half off 8 c.fatal.toNat
    | 0x0C => half off 8 c.fatal.toNat
    | 0x10 => (c.log.headD 0).toNat + c.log.length * 65536
    | 0x14 => bitN c.freeze 0 + bitN c.resetPending 1
    | 0x18 => half off 0x18 c.exposure
    | 0x1C => half off 0x18 c.exposure
    | 0x20 => c.expUnit + c.expEngine * 65536
    | _ => 0

/-- `PMC` (Table Observation-2, R547, R568). -/
def pmcWord (s : State) (f off : Nat) : Nat :=
  if f ≠ 0 then (match boundPart s f with
    | some p => windowWord s p off
    | none => 0)
  else if 0x1000 ≤ off then (if off < 0x1000 + 0x200 * 64 then windowWord s ((off - 0x1000) / 0x200) ((off - 0x1000) % 0x200) else 0)
  else if 0x100 ≤ off ∧ off < 0x180 then
    latchedWord s.pmc.hiLatch (off / 8 * 8) (off % 8 == 4) (tget s.pmc.global ((off - 0x100) / 8) 0)
  else match off with
    | 0x00 => bitN (freezeHolds s) 0 + bitN s.pmc.byMessage 1 + bitN s.pmc.byStop 2
    | 0x08 => half off 8 s.pmc.tf
    | 0x0C => half off 8 s.pmc.tf
    | _ => 0

/-- `TRC` (Table Registers-6). -/
def trcWord (s : State) (off : Nat) : Nat :=
  if off < 0x1000 then
    let t := (s.part (off / 0x40)).trace
    let trig := t.trigger.getD (2 ^ 64 - 1)
    match off % 0x40 with
    | 0x00 => bitN t.on 0 + t.mode * 2 + t.share * 8 + t.state * 256
    | 0x04 => t.obj
    | 0x08 => half 8 8 t.capacity
    | 0x0C => half 12 8 t.capacity
    | 0x10 => half 16 16 t.written
    | 0x14 => half 20 16 t.written
    | 0x18 => half 24 24 t.lost
    | 0x1C => half 28 24 t.lost
    | 0x20 => half 32 32 trig
    | 0x24 => half 36 32 trig
    | _ => 0
  else if off < 0x1080 then
    let d := (off - 0x1000) / 16
    match off % 16 with
    | 0 => tget s.stageUsed d 0
    | 4 => tget s.stageMax d 0
    | 8 => tget s.stageFull d 0 % 2 ^ 32
    | _ => 0
  else 0

/-- `GST` (Table Observation-5); the data register has its own command. -/
def gstWord (s : State) (off : Nat) : Nat :=
  match off with
  | 0x04 => bitN s.gst.stopped 0 + bitN s.gst.halted 1 + s.gst.source * 4
  | 0x08 => half off 8 s.gst.time
  | 0x0C => half off 8 s.gst.time
  | 0x10 => s.gst.selTile + s.gst.selChain * 65536
  | 0x14 => s.gst.addr
  | 0x1C => bitN s.gst.parityErr 0
  | _ => 0

/-- `LCS` (Table Lifecycle-12); the nonce is that of the record as the start decoded it (R512). -/
def lcsWord (s : State) (off : Nat) : Nat :=
  let l := s.life
  let k := match l.lastValid with | some n => n + 1 | none => 0
  if 0x10 ≤ off ∧ off < 0x20 then fld (lcNonce l k) (off - 0x10) 4
  else match off with
    | 0x00 => l.lc + l.slotsUsed * 256 + l.priorState * 65536
    | 0x08 => half off 8 l.unitId
    | 0x0C => half off 8 l.unitId
    | 0x20 => l.svnFloor
    | 0x24 => bitN (tapOpen l.lc (.debugAccess .closed)) 0 + bitN (testOpen l.lc) 1 + bitN (injectOpen l.lc) 2 + bitN (tapOpen l.lc .extest) 3
    | _ => 0

/-- A self-test is running. -/
def bistRunning (s : State) : Bool :=
  s.life.bistTag.isSome || (s.life.starting && !s.life.bistDone)
    || (s.tiles.any fun e => e.2.testing.isSome) || (s.movers.any fun e => e.2.testing.isSome)
    || (s.sorters.any fun e => e.2.testing.isSome) || (s.reducers.any fun e => e.2.testing.isSome)

/-- `BST` (Table Lifecycle-12). -/
def bstWord (s : State) (off : Nat) : Nat :=
  let l := s.life
  match off with
  | 0x00 => bitN (bistRunning s) 0 + bitN l.bistPass 1 + l.bistEngine * 256
  | 0x04 => l.tilesWithdrawn + l.granulesBad * 65536
  | 0x08 => l.rotations
  | 0x0C => l.rotMax
  | _ => 0

/-- Owner of a granule as `PTV_GRANULE` shows it. -/
def granuleByte (s : State) (g : Nat) : Nat :=
  if granuleCount s.variant ≤ g ∨ s.badGranules.contains g then 0xFE else (granuleOwner s g).getD 0xFF

/-- Ways of a die allocated, one bit each. -/
def waysWord (s : State) (d : Nat) : Nat :=
  if dies s.variant ≤ d then 0xFFFF else sumNat ((tget s.dieWays d []).map fun e => 2 ^ e.1)

/-- `PTV` (Table Partitions-6). -/
def ptvWord (s : State) (off : Nat) : Nat :=
  if off < 0x800 then fld (partBytes s (off / 32)) (off % 32) 4
  else if off < 0x880 then
    let g := off - 0x800
    granuleByte s g + 256 * granuleByte s (g + 1) + 65536 * granuleByte s (g + 2) + 16777216 * granuleByte s (g + 3)
  else if 0x900 ≤ off ∧ off < 0x980 then waysWord s ((off - 0x900) / 4)
  else 0

/-- The value of the register word at an offset of a region. -/
def regionWord (s : State) (func : Nat) (r : Region) (off : Nat) : Nat :=
  match r with
  | .ident => identWord s func off
  | .mbx => mbxWord s func off
  | .evt => evtWord s func off
  | .whl => if func ≠ 0 ∧ 0x14 ≤ off then 0 else whlWord s off
  | .flt => fltWord s off
  | .pmc => pmcWord s func off
  | .trc => trcWord s off
  | .gst => gstWord s off
  | .lcs => lcsWord s off
  | .bst => bstWord s off
  | .ptv => ptvWord s off
  | .doorbell => 0
  | .aperture => 0

/-- What an aligned 4-byte read of BAR0 returns, its side effects apart (R570, R573 to R576). -/
def regRead (s : State) (func off : Nat) : Nat :=
  if s.mainReset then 0xFFFFFFFF
  else match regionOf func off with
    | none => if s.coll.freeze then 0xFFFFFFFF else 0
    | some (r, o) => match readForced s func r with
      | some true => 0xFFFFFFFF
      | some false => 0
      | none => if off % 4 = 0 then regionWord s func r o else 0

/-- What a debug access of the test access port reads (R37, R488, R489, Table Security-4): a register, a byte of the object space
of a partition with memory read open; zero from every range that is closed to it. -/
def tapReads (s : State) : DebugTarget → Nat
  | .register off => regRead s 0 off
  | .object p off =>
    if s.grants.memRead.contains p && active s p && decide (off < objSpace (s.part p)) then leNat (hbmRead s p off 1) else 0
  | .closed => 0

/-- What an instruction of the test access port shifts out. DESIGN CHOICE (log 138): 0 for those whose data the spec does not
give. -/
def tapOut (s : State) : TapIns → Nat
  | .idcode => 0xB0E25A6F
  | .debugAccess r => tapReads s r
  | _ => 0

/-- TAP_INSTRUCTION (R35 to R37): an instruction that the life-cycle state closes behaves as BYPASS. -/
def execTapInstruction (i : TapIns) (s : State) : Res :=
  untimed s (fun s => up s && s.aon.blkResetN) fun s =>
    let j := if tapOpen s.life.lc i then i else .bypass
    emit (s.modLife fun l => { l with tapInstr := tapNumber j }) (.tdo (tapOut s j))

/-! ### Writes (R569 to R576) -/

/-- Replace a 32-bit half of a 64-bit value. -/
def setHalf (high : Bool) (old v : Nat) : Nat := if high then old % 2 ^ 32 + v * 2 ^ 32 else old / 2 ^ 32 * 2 ^ 32 + v

/-- Overwrite bytes of the boot mailbox. -/
def bootPatch (boot : List Byte) (off : Nat) (bs : List Byte) : List Byte :=
  slice boot 0 off ++ bs ++ slice boot (off + bs.length) (64 - off - bs.length)

/-- A 4-byte write to `MBX` (Table Mailbox-1, R332, R337). -/
def writeMbx (minimal : Bool) (off v : Nat) (x : Func) : Func :=
  if 0x40 ≤ off ∧ off < 0x80 then (if x.bootBusy then x else { x with boot := bootPatch x.boot (off - 0x40) (toLe 4 v) })
  else match off with
    | 0x00 => if x.enable then x else { x with reqBase := BitVec.ofNat 64 (setHalf false x.reqBase.toNat v) }
    | 0x04 => if x.enable then x else { x with reqBase := BitVec.ofNat 64 (setHalf true x.reqBase.toNat v) }
    | 0x08 => if x.enable then x else { x with rspBase := BitVec.ofNat 64 (setHalf false x.rspBase.toNat v) }
    | 0x0C => if x.enable then x else { x with rspBase := BitVec.ofNat 64 (setHalf true x.rspBase.toNat v) }
    | 0x10 => writeMbxCtrl minimal (bitOf v 0) (bits v 4 1) (bits v 26 16) x
    | 0x14 => writeMbxTail (v % 65536) x
    | 0x18 => { x with rspHead := v % 65536 }
    | 0x80 => writeBootCtrl (bitOf v 0) (bitOf v 2) x
    | _ => x

/-- A 4-byte write to `APER_BASE` (Table Host-2, R571). -/
def writeAper (off v : Nat) (h : HostPort) : HostPort :=
  if off = 0x28 then { h with
    aperPart := v % 64, aperEnable := bitOf v 8, aperOffset := h.aperOffset / 16 * 16 + v / 2 ^ 28 % 16 }
  else { h with aperOffset := h.aperOffset % 16 + v % 65536 * 16 }

/-- A 4-byte write to `GST` (Table Observation-5). -/
def writeGst (s : State) (off v : Nat) : State :=
  match off with
  | 0x00 => if bitOf v 0 then gstStart s (bitOf v 1) else if bitOf v 1 then gstFree s else s
  | 0x10 => gstSelect s (v % 2048) (bits v 18 16)
  | 0x14 => { s with gst := { s.gst with addr := v % 2 ^ 32 / 4 * 4 } }
  | 0x1C => if bitOf v 0 && s.gst.parityAt != some (time s) then { s with gst := { s.gst with parityErr := false } } else s
  | _ => s

/-- An aligned 4-byte write. -/
def regWrite4 (s : State) (func off v : Nat) : State :=
  match regionOf func off with
  | none => s
  | some (.aperture, o) => if s.host.linkUp then aperAccess s o 4 (some (toLe 4 v)) else s
  | some (r, o) =>
    if !writable s func r then s
    else match r with
      | .ident => if func = 0 ∧ (o = 0x28 ∨ o = 0x2C) then { s with host := writeAper o v s.host } else s
      | .mbx => s.modFunc func (writeMbx s.life.minimal o v)
      | .evt => if o = 0x14 then s.modFunc func (writeEvtHead (time s) v) else s
      | .gst => writeGst s o v
      | .doorbell => if o % 8 = 0 ∧ doorbellOk s func (o / 8) then ringDoorbell s func (o / 8) (v % 65536) else s
      | _ => s

/-- The access is one that R569 allows. -/
def accessOk (off width : Nat) : Bool :=
  (width == 4 || width == 8
    || ((width == 16 || width == 32 || width == 64) && decide (0x1040 ≤ off ∧ off + width ≤ 0x1080)))
  && off % width == 0

/-- REGISTER_WRITE (R569 to R576, R581, R584): 4-byte parts, lower offset first; an access that breaks R569 or meets no writable
register is ignored. -/
def execRegisterWrite (func off width : Nat) (val : BitVec 512) (s : State) : Res :=
  untimed s (fun s => accessOk off width && !s.mainReset) fun s =>
    (List.range (width / 4)).foldl (fun s i => regWrite4 s func (off + 4 * i) (val.toNat / 2 ^ (32 * i) % 2 ^ 32)) s

end Sys2Proof.Machine
end

