-- ==== Sys2Proof/Machine/Vector.lean ====
section
/-! DEFINITION. The vector unit: loads and stores with conversion, 2:4 compression and map generation, arithmetic, functions
and reductions (R53, R54, R99 to R117, R128, R131). -/

namespace Sys2Proof.Machine

/-- Vector lane operations counted for one operation of a lane type. -/
def laneOps (lane : Nat) : Nat := if lane = 1 ∨ lane = 2 then 256 else 128

/-- Set a vector register of a run. -/
def setVreg (r : SkeinRun) (i : Nat) (v : List (BitVec 32)) : SkeinRun := { r with vregs := tput r.vregs i v }

/-- A value of a load: bits and status. INT32 accumulator words become FP32 by rounding to nearest, ties to even (R118); bits of the
lane's own format go as they are; a load has no `sat` field and converts with `sat` = 0 (DESIGN CHOICE, log 139). -/
def loadWord (fmt lane rnd g : Nat) (int : Bool) (b sc : Nat) : Nat × Nat :=
  if fmt = laneFmt lane then (if int && fmt == 0 then convElem 0 0 0 false (ofInt (BitVec.ofNat 32 b).toInt 0) else (b, 0))
  else convElem (laneFmt lane) rnd g false (decElem fmt b sc)

/-- VLD (R53, R99, R104, R112, R118). -/
def execVld (t a v lane rnd : Nat) (s : State) : Res :=
  skein t (.vld a v lane rnd) [3] (fun s slot st r =>
    guarded s t slot st [] [a] fun s =>
      let f := stepFile s st
      let x := tensorOf f (viewOf f a).tensor
      let es := readView s t slot st a
      if es.any (·.2.2) then skeinFault s t slot 0x02 else
      let same := x.format == laneFmt lane
      let (gs, s) := drawGroups s t (if same then 0 else rnd) es.length
      let int := st.intWords.contains (viewOf f a).tensor
      let outs := es.zipIdx.map fun e => loadWord x.format lane rnd (nth gs e.2 0) int e.1.1 e.1.2.1
      let r := orConv (setVreg r v (ofLanes lane (outs.map (·.1)))) (outs.foldl (fun a e => orS a e.2) 0)
      let s := count (setRun s t r) st.part 0x05 es.length
      moved s t slot st a (bitsLen (readStored s t slot st a)) false) s

/-- What a store writes: the values of the elements, the writes, the status bits. -/
structure Stored where
  vals : List Val
  puts : List Put
  conv : Nat

/-- A store of single elements. -/
def storePlain (x : Upf.Tensor) (v : Upf.View) (lane rnd : Nat) (sat : Bool) (gs : List Nat) (vs : List Nat) : Stored :=
  let outs := vs.zipIdx.map fun e =>
    if x.format = laneFmt lane then (e.1, 0) else convElem x.format rnd (nth gs e.2 0) sat (decFp (fpFmt (laneFmt lane)) e.1)
  { vals := outs.map fun e => decElem x.format e.1 0
    puts := ((coords v).zip outs).map fun e =>
      { tensor := v.tensor, off := linIdx x e.1 * fmtBits x.format, width := fmtBits x.format, val := e.2.1 }
    conv := outs.foldl (fun a e => orS a e.2) 0 }

/-- A store of whole blocks (R106 to R108): `places` are the bit offsets of the elements and the scale index of each, block by
block of `b` elements. -/
def storeBlocks (x : Upf.Tensor) (ti b lane rnd : Nat) (gs : List Nat) (vs : List Nat) (places : List (Nat × Nat)) : Stored :=
  (List.range (vs.length / b)).foldl (fun a j =>
    let vals := ((vs.drop (b * j)).take b).map fun e => decFp (fpFmt (laneFmt lane)) e
    let q := convBlock x.format rnd ((gs.drop (b * j)).take b) vals
    let ps := (places.drop (b * j)).take b
    { vals := a.vals ++ q.2.1.map fun e => decElem x.format e q.1
      puts := a.puts ++ (ps.zip q.2.1).map (fun e => { tensor := ti, off := e.1.1, width := fmtBits x.format, val := e.2 })
        ++ [{ tensor := x.scale, off := 8 * (nth ps 0 (0, 0)).2, width := 8, val := q.1 }]
      conv := orS a.conv q.2.2 }) { vals := [], puts := [], conv := 0 }

/-- Rank of a magnitude in 2:4 compression: a NaN above every number (R128). -/
def magRank (a b : Val) : Bool :=
  match a, b with
  | .nan, .nan => false
  | _, .nan => true
  | .nan, _ => false
  | .inf _, .inf _ => false
  | _, .inf _ => true
  | .inf _, _ => false
  | .num _ m e, .num _ n f => magLt m e n f

/-- The two kept places of a group of four: the largest magnitudes, the lower place between equals, in ascending order. -/
def keepTwo (g : List Val) : Nat × Nat :=
  let best := fun (skip : Option Nat) => (List.range 4).foldl (fun (b : Option Nat) i =>
    if some i = skip then b else match b with
      | none => some i
      | some j => if magRank (nth g j .zero) (nth g i .zero) then some i else b) none
  let i := (best none).getD 0
  let j := (best (some i)).getD 1
  (min i j, max i j)

/-- A compressing store (R126, R128): by column, slice after slice, by group, the two kept elements in ascending K, with their
metadata. -/
def storeSparse (x : Upf.Tensor) (v : Upf.View) (lane rnd : Nat) (sat : Bool) (gs : List Nat) (vs : List Nat) : Stored :=
  let k := extV v 1
  let sls := viewSlices x v
  let col := fun (j : Nat) => startV v 0 + j % extV v 0
  let sl := fun (j : Nat) => nth sls (j / extV v 0) 0
  let groups := (List.range (extV v 0 * sls.length)).flatMap fun j => (List.range (k / 4)).map fun g => (j, g)
  let kept := groups.map fun e =>
    let four := (vs.drop (e.1 * k + 4 * e.2)).take 4
    (e, four, keepTwo (four.map fun w => decFp (fpFmt (laneFmt lane)) w))
  let flat := kept.flatMap fun e => [nth e.2.1 e.2.2.1 0, nth e.2.1 e.2.2.2 0]
  let places := kept.flatMap fun e =>
    let o := fun i => keptIdx x (sl e.1.1) (col e.1.1) (startV v 1 / 2 + 2 * e.1.2 + i) * fmtBits x.format
    let sc := scaleIdx x (col e.1.1, startV v 1 + 4 * e.1.2, sl e.1.1 % extT x 2, sl e.1.1 / extT x 2)
    [(o 0, sc), (o 1, sc)]
  let metas := kept.map fun e =>
    ({ tensor := x.meta24, off := 4 * metaIdx x (sl e.1.1) (col e.1.1) (startV v 1 / 4 + e.1.2), width := 4,
       val := e.2.2.1 + 4 * e.2.2.2 } : Put)
  let body := if isBlock x.format then storeBlocks x v.tensor (blockLen x.format / 2) lane rnd gs flat places
    else
      let outs := flat.zipIdx.map fun e =>
        if x.format = laneFmt lane then (e.1, 0) else convElem x.format rnd (nth gs e.2 0) sat (decFp (fpFmt (laneFmt lane)) e.1)
      { vals := outs.map fun e => decElem x.format e.1 0
        puts := (places.zip outs).map fun e => { tensor := v.tensor, off := e.1.1, width := fmtBits x.format, val := e.2.1 }
        conv := outs.foldl (fun a e => orS a e.2) 0 }
  { body with puts := body.puts ++ metas }

/-- The map bits that a map-generating store clears (R130, R131). -/
def mapPuts (x : Upf.Tensor) (v : Upf.View) (vals : List Val) : List Put :=
  ((coords v).zip vals).flatMap fun e =>
    (if e.2.isZero then [] else [{ tensor := x.zmap, off := mapIdx x e.1, width := 1, val := 0 }])
      ++ (if e.2.finite then [] else [{ tensor := x.fmap, off := mapIdx x e.1, width := 1, val := 0 }])

/-- VST (R53, R99 to R108, R128, R131). -/
def execVst (t d v lane rnd : Nat) (sat compress maps : Bool) (s : State) : Res :=
  skein t (.vst d v lane rnd sat compress maps) [3] (fun s slot st r =>
    let f := stepFile s st
    let w := viewOf f d
    let x := tensorOf f w.tensor
    let vs := (laneVals lane (vreg r v)).take (viewCount w)
    let written := if compress then vs.length / 2 else vs.length
    let (gs, s) := drawGroups s t (if x.format = laneFmt lane then 0 else rnd) written
    let o := if compress then storeSparse x w lane rnd sat gs vs
      else if isBlock x.format then storeBlocks x w.tensor (blockLen x.format) lane rnd gs vs
        ((coords w).map fun c => (linIdx x c * fmtBits x.format, scaleIdx x c))
      else storePlain x w lane rnd sat gs vs
    let s := setRun s t (orConv r o.conv)
    let s := putAll s t slot (o.puts ++ (if maps then mapPuts x w o.vals else []))
    let s := noteWords (watchOp s slot w.tensor o.vals o.puts) slot w.tensor false
    let s := count s st.part 0x05 vs.length
    moved s t slot st d (ceilDiv (sumNat (o.puts.map (·.width))) 8) true) s

/-- One value of an INT32 VOP (Table Tile-3). -/
def vopInt (fn rel x y z : Nat) : Nat :=
  let ix := sgn 32 x
  let iy := sgn 32 y
  match fn with
  | 3 => if iy < ix then y else x
  | 4 => if ix < iy then y else x
  | 5 => truth 3 (relHolds rel (decide (ix < iy)) (ix == iy) false)
  | _ => if bitOf z 31 then x else y

/-- VOP. -/
def execVop (t fn lane x y z d rel : Nat) (s : State) : Res :=
  skein t (.vop fn lane x y z d rel) [3] (fun s _ st r =>
    let xs := laneVals lane (vreg r x)
    let ys := laneVals lane (vreg r y)
    let zs := laneVals lane (vreg r z)
    let outs := xs.zipIdx.map fun e =>
      if lane = 3 then (vopInt fn rel e.1 (nth ys e.2 0) (nth zs e.2 0), 0)
      else vopFloat fn (laneFmt lane) lane rel e.1 (nth ys e.2 0) (nth zs e.2 0)
    count (setRun s t (orConv (setVreg r d (ofLanes lane (outs.map (·.1)))) (outs.foldl (fun a e => orS a e.2) 0)))
      st.part 0x05 (laneOps lane)) s

/-- VFN (R116). -/
def execVfn (t fn x d : Nat) (s : State) : Res :=
  skein t (.vfn fn x d) [3] (fun s _ st r =>
    let outs := (laneVals 0 (vreg r x)).map fun e => vecFn fn (BitVec.ofNat 32 e)
    count (setRun s t (orConv (setVreg r d (outs.map (·.1))) (outs.foldl (fun a e => orS a e.2) 0))) st.part 0x05 128) s

/-- One level of the pairwise tree (R117). -/
def pairLevel (f : BitVec 32 → BitVec 32 → BitVec 32 × Nat) : List (BitVec 32 × Nat) → List (BitVec 32 × Nat)
  | a :: b :: r => ((f a.1 b.1).1, orS (orS a.2 b.2) (f a.1 b.1).2) :: pairLevel f r
  | l => l

/-- The pairwise tree over 128 lanes. -/
def pairTree (f : BitVec 32 → BitVec 32 → BitVec 32 × Nat) : Nat → List (BitVec 32 × Nat) → List (BitVec 32 × Nat)
  | 0, l => l
  | n + 1, l => pairTree f n (pairLevel f l)

/-- VRED (R117, R191): the result in lane 0, +0 in every other. -/
def execVred (t fn x d : Nat) (s : State) : Res :=
  skein t (.vred fn x d) [3] (fun s _ st r =>
    let l := (laneVals 0 (vreg r x)).map fun e => (BitVec.ofNat 32 e, 0)
    let q := nth (pairTree (redOp fn) 7 l) 0 (0, 0)
    count (setRun s t (orConv (setVreg r d (q.1 :: List.replicate 127 0)) q.2)) st.part 0x05 128) s

end Sys2Proof.Machine
end

