-- ==== Sys2Proof/Machine/Dispatch.lean ====
section
/-! DEFINITION. One arm for each command: a direct call of its meaning. -/

namespace Sys2Proof.Machine

/-- The effect of a command on everything but the queue. -/
def exec (i : Instr) (s : State) : Host.Outcome State Fault Refusal :=
  match i with
  | .refclkLost now => Sys2Proof.Machine.execRefclkLost now s
  | .pwrGoodRise now => Sys2Proof.Machine.execPwrGoodRise now s
  | .pwrGoodFall now => Sys2Proof.Machine.execPwrGoodFall now s
  | .aonResetNFall => Sys2Proof.Machine.execAonResetNFall s
  | .aonResetNRelease => Sys2Proof.Machine.execAonResetNRelease s
  | .blkResetNFall now => Sys2Proof.Machine.execBlkResetNFall now s
  | .blkResetNRelease now entryTries warmOk => Sys2Proof.Machine.execBlkResetNRelease now entryTries warmOk s
  | .voltageMonitorTrip now => Sys2Proof.Machine.execVoltageMonitorTrip now s
  | .thermalTrip now => Sys2Proof.Machine.execThermalTrip now s
  | .powerCycleRequest now => Sys2Proof.Machine.execPowerCycleRequest now s
  | .stopInNFall x => Sys2Proof.Machine.execStopInNFall x s
  | .whorlSyncEdge now highNs => Sys2Proof.Machine.execWhorlSyncEdge now highNs s
  | .syncWindowExpiry now => Sys2Proof.Machine.execSyncWindowExpiry now s
  | .torusCoordinatesWrite x y z kx ky kz => Sys2Proof.Machine.execTorusCoordinatesWrite x y z kx ky kz s
  | .railConfirm now die mv => Sys2Proof.Machine.execRailConfirm now die mv s
  | .railConfirmTimeout now die => Sys2Proof.Machine.execRailConfirmTimeout now die s
  | .spdmRequest now q => Sys2Proof.Machine.execSpdmRequest now q s
  | .tapInstruction ti => Sys2Proof.Machine.execTapInstruction ti s
  | .trstNReset => Sys2Proof.Machine.execTrstNReset s
  | .hbmPortNotReady now port => Sys2Proof.Machine.execHbmPortNotReady now port s
  | .hbmReadReturn now port tag slot slotGen addr poison corrected => Sys2Proof.Machine.execHbmReadReturn now port tag slot slotGen addr poison corrected s
  | .flashStatusTimeout now => Sys2Proof.Machine.execFlashStatusTimeout now s
  | .hostLinkDown now writes lost => Sys2Proof.Machine.execHostLinkDown now writes lost s
  | .flr now func => Sys2Proof.Machine.execFlr now func s
  | .cxlMemAccess now addr len write => Sys2Proof.Machine.execCxlMemAccess now addr len write s
  | .apertureAccess now off len write => Sys2Proof.Machine.execApertureAccess now off len write s
  | .hostMasterReadTimeout now slot => Sys2Proof.Machine.execHostMasterReadTimeout now slot s
  | .readBackComplete now func => Sys2Proof.Machine.execReadBackComplete now func s
  | .linkPortUp now port cells bulks => Sys2Proof.Machine.execLinkPortUp now port cells bulks s
  | .linkPortDown now port => Sys2Proof.Machine.execLinkPortDown now port s
  | .keyExchangeFrame port chainOk sigOk peerState last => Sys2Proof.Machine.execKeyExchangeFrame port chainOk sigOk peerState last s
  | .creditReturn now port bulk n => Sys2Proof.Machine.execCreditReturn now port bulk n s
  | .cellArrival now port c => Sys2Proof.Machine.execCellArrival now port c s
  | .bulkMessageArrival now port b => Sys2Proof.Machine.execBulkMessageArrival now port b s
  | .syncSend now port => Sys2Proof.Machine.execSyncSend now port s
  | .syncArrival now port m => Sys2Proof.Machine.execSyncArrival now port m s
  | .parentTimeout now => Sys2Proof.Machine.execParentTimeout now s
  | .fabricEpochStart now => Sys2Proof.Machine.execFabricEpochStart now s
  | .comparatorFire now n => Sys2Proof.Machine.execComparatorFire now n s
  | .nop t => Sys2Proof.Machine.execNop t s
  | .fin t => Sys2Proof.Machine.execFin t s
  | .skipz t sc count => Sys2Proof.Machine.execSkipz t sc count s
  | .skipnz t sc count => Sys2Proof.Machine.execSkipnz t sc count s
  | .seti t d v => Sys2Proof.Machine.execSeti t d v s
  | .pred t d => Sys2Proof.Machine.execPred t d s
  | .stat t d => Sys2Proof.Machine.execStat t d s
  | .sst t sc off d => Sys2Proof.Machine.execSst t sc off d s
  | .fetch t a d member => Sys2Proof.Machine.execFetch t a d member s
  | .send t a d member => Sys2Proof.Machine.execSend t a d member s
  | .coll t a d pattern red first count root => Sys2Proof.Machine.execColl t a d pattern red first count root s
  | .mma t a b bank clear bounded bound => Sys2Proof.Machine.execMma t a b bank clear bounded bound s
  | .drain t d bank rnd sat shift => Sys2Proof.Machine.execDrain t d bank rnd sat shift s
  | .vld t a v lane rnd => Sys2Proof.Machine.execVld t a v lane rnd s
  | .vst t d v lane rnd sat compress maps => Sys2Proof.Machine.execVst t d v lane rnd sat compress maps s
  | .vop t fn lane x y z d rel => Sys2Proof.Machine.execVop t fn lane x y z d rel s
  | .vfn t fn x d => Sys2Proof.Machine.execVfn t fn x d s
  | .vred t fn x d => Sys2Proof.Machine.execVred t fn x d s
  | .mapclr t d => Sys2Proof.Machine.execMapclr t d s
  | .sort t a idx => Sys2Proof.Machine.execSort t a idx s
  | .digest t a d => Sys2Proof.Machine.execDigest t a d s
  | .residueWindowCompare now t vector predicted produced => Sys2Proof.Machine.execResidueWindowCompare now t vector predicted produced s
  | .skeinBoundOverrun now t => Sys2Proof.Machine.execSkeinBoundOverrun now t s
  | .skeinComplete now t skein => Sys2Proof.Machine.execSkeinComplete now t skein s
  | .clockGate t idle => Sys2Proof.Machine.execClockGate t idle s
  | .patrolScrub now t word bits => Sys2Proof.Machine.execPatrolScrub now t word bits s
  | .oscillatorOutOfLock now t permille ns => Sys2Proof.Machine.execOscillatorOutOfLock now t permille ns s
  | .skeinPlace now slot skein t bases => Sys2Proof.Machine.execSkeinPlace now slot skein t bases s
  | .sortStart now die => Sys2Proof.Machine.execSortStart now die s
  | .sortComplete now die => Sys2Proof.Machine.execSortComplete now die s
  | .manifestArrival now slot idx expert cell => Sys2Proof.Machine.execManifestArrival now slot idx expert cell s
  | .planStart now engine => Sys2Proof.Machine.execPlanStart now engine s
  | .planComplete now engine busy => Sys2Proof.Machine.execPlanComplete now engine busy s
  | .remoteTimeout now op => Sys2Proof.Machine.execRemoteTimeout now op s
  | .queuePairDown now qp => Sys2Proof.Machine.execQueuePairDown now qp s
  | .echo m => Sys2Proof.Machine.execEcho m s
  | .capQuery m => Sys2Proof.Machine.execCapQuery m s
  | .bootStatus m => Sys2Proof.Machine.execBootStatus m s
  | .programLoad m => Sys2Proof.Machine.execProgramLoad m s
  | .programLoadDone now part prog => Sys2Proof.Machine.execProgramLoadDone now part prog s
  | .programUnload m => Sys2Proof.Machine.execProgramUnload m s
  | .placementHint m => Sys2Proof.Machine.execPlacementHint m s
  | .placementLog m => Sys2Proof.Machine.execPlacementLog m s
  | .bobbinInstall m => Sys2Proof.Machine.execBobbinInstall m s
  | .bobbinInstallDone now part idx => Sys2Proof.Machine.execBobbinInstallDone now part idx s
  | .bobbinRemove m => Sys2Proof.Machine.execBobbinRemove m s
  | .bobbinPrefetch m => Sys2Proof.Machine.execBobbinPrefetch m s
  | .bobbinEvict m => Sys2Proof.Machine.execBobbinEvict m s
  | .bobbinPin m => Sys2Proof.Machine.execBobbinPin m s
  | .bobbinUnpin m => Sys2Proof.Machine.execBobbinUnpin m s
  | .bobbinList m => Sys2Proof.Machine.execBobbinList m s
  | .bobbinSources m => Sys2Proof.Machine.execBobbinSources m s
  | .bobbinBacking m => Sys2Proof.Machine.execBobbinBacking m s
  | .jobCreate m answers => Sys2Proof.Machine.execJobCreate m answers s
  | .jobMemberTimeout now job => Sys2Proof.Machine.execJobMemberTimeout now job s
  | .jobQuery m => Sys2Proof.Machine.execJobQuery m s
  | .jobDestroy m => Sys2Proof.Machine.execJobDestroy m s
  | .partitionCreate m => Sys2Proof.Machine.execPartitionCreate m s
  | .partitionTablesBuilt now part => Sys2Proof.Machine.execPartitionTablesBuilt now part s
  | .partitionDestroy m => Sys2Proof.Machine.execPartitionDestroy m s
  | .partitionScrubVerified now part countersOk => Sys2Proof.Machine.execPartitionScrubVerified now part countersOk s
  | .contextCreate m => Sys2Proof.Machine.execContextCreate m s
  | .contextDestroy m => Sys2Proof.Machine.execContextDestroy m s
  | .contextReset m => Sys2Proof.Machine.execContextReset m s
  | .processEnd m => Sys2Proof.Machine.execProcessEnd m s
  | .memAlloc m => Sys2Proof.Machine.execMemAlloc m s
  | .zeroFillDone now part obj => Sys2Proof.Machine.execZeroFillDone now part obj s
  | .memFree m => Sys2Proof.Machine.execMemFree m s
  | .fenceCreate m => Sys2Proof.Machine.execFenceCreate m s
  | .fenceSignal m => Sys2Proof.Machine.execFenceSignal m s
  | .fenceReset m => Sys2Proof.Machine.execFenceReset m s
  | .fenceDestroy m => Sys2Proof.Machine.execFenceDestroy m s
  | .fenceTimeout now slot j => Sys2Proof.Machine.execFenceTimeout now slot j s
  | .queueCreate m => Sys2Proof.Machine.execQueueCreate m s
  | .queueDestroy m => Sys2Proof.Machine.execQueueDestroy m s
  | .schedSet m => Sys2Proof.Machine.execSchedSet m s
  | .accountRead m => Sys2Proof.Machine.execAccountRead m s
  | .powerLimit m => Sys2Proof.Machine.execPowerLimit m s
  | .sleepEnter m => Sys2Proof.Machine.execSleepEnter m s
  | .evtRingSet m => Sys2Proof.Machine.execEvtRingSet m s
  | .biasSet m => Sys2Proof.Machine.execBiasSet m s
  | .faultRead m => Sys2Proof.Machine.execFaultRead m s
  | .faultClear m => Sys2Proof.Machine.execFaultClear m s
  | .faultInject m => Sys2Proof.Machine.execFaultInject m s
  | .engineReset m => Sys2Proof.Machine.execEngineReset m s
  | .partitionReset m => Sys2Proof.Machine.execPartitionReset m s
  | .blockReset m => Sys2Proof.Machine.execBlockReset m s
  | .blockResetBegin now => Sys2Proof.Machine.execBlockResetBegin now s
  | .powerCycle m => Sys2Proof.Machine.execPowerCycle m s
  | .debugEnable m => Sys2Proof.Machine.execDebugEnable m s
  | .devsetEnroll m => Sys2Proof.Machine.execDevsetEnroll m s
  | .devsetLeave m => Sys2Proof.Machine.execDevsetLeave m s
  | .mbxKeyExport m => Sys2Proof.Machine.execMbxKeyExport m s
  | .lcTransition m eraseOk => Sys2Proof.Machine.execLcTransition m eraseOk s
  | .fwUpdate m => Sys2Proof.Machine.execFwUpdate m s
  | .fwRecover m => Sys2Proof.Machine.execFwRecover m s
  | .bistRun m quiesced => Sys2Proof.Machine.execBistRun m quiesced s
  | .counterSelect m => Sys2Proof.Machine.execCounterSelect m s
  | .counterRead m => Sys2Proof.Machine.execCounterRead m s
  | .counterFreeze m => Sys2Proof.Machine.execCounterFreeze m s
  | .freezeTick now => Sys2Proof.Machine.execFreezeTick now s
  | .traceConfig m => Sys2Proof.Machine.execTraceConfig m s
  | .watchSelect m => Sys2Proof.Machine.execWatchSelect m s
  | .hangReport m => Sys2Proof.Machine.execHangReport m s
  | .mailboxResponsePost now func => Sys2Proof.Machine.execMailboxResponsePost now func s
  | .mbxEnable func log2 vector => Sys2Proof.Machine.execMbxEnable func log2 vector s
  | .mbxDisable func => Sys2Proof.Machine.execMbxDisable func s
  | .mbxTail func tail => Sys2Proof.Machine.execMbxTail func tail s
  | .mbxRspHead func head => Sys2Proof.Machine.execMbxRspHead func head s
  | .mbxBootGo func alsoDone => Sys2Proof.Machine.execMbxBootGo func alsoDone s
  | .mbxBootDoneClear func => Sys2Proof.Machine.execMbxBootDoneClear func s
  | .stepQueueDoorbell func index tail => Sys2Proof.Machine.execStepQueueDoorbell func index tail s
  | .stepAdmit now q slot base fbBase => Sys2Proof.Machine.execStepAdmit now q slot base fbBase s
  | .stepReady now slot => Sys2Proof.Machine.execStepReady now slot s
  | .stepBoundary now part audit => Sys2Proof.Machine.execStepBoundary now part audit s
  | .quantumExpiry now part => Sys2Proof.Machine.execQuantumExpiry now part s
  | .stepSwitch now part spill => Sys2Proof.Machine.execStepSwitch now part spill s
  | .spillDone now part => Sys2Proof.Machine.execSpillDone now part s
  | .restoreDone now slot places => Sys2Proof.Machine.execRestoreDone now slot places s
  | .fallbackEvaluate now slot => Sys2Proof.Machine.execFallbackEvaluate now slot s
  | .hangTimeExpiry now part => Sys2Proof.Machine.execHangTimeExpiry now part s
  | .deadlineExpiry now slot => Sys2Proof.Machine.execDeadlineExpiry now slot s
  | .powerModelUpdate now modelMw => Sys2Proof.Machine.execPowerModelUpdate now modelMw s
  | .releaseGatePass now slot => Sys2Proof.Machine.execReleaseGatePass now slot s
  | .eventEntryWrite now func => Sys2Proof.Machine.execEventEntryWrite now func s
  | .ringVectorSend now func => Sys2Proof.Machine.execRingVectorSend now func s
  | .evtFlush now func => Sys2Proof.Machine.execEvtFlush now func s
  | .evtHead func head => Sys2Proof.Machine.execEvtHead func head s
  | .whlTimeLo func => Sys2Proof.Machine.execWhlTimeLo func s
  | .pmcLowHalfRead func off => Sys2Proof.Machine.execPmcLowHalfRead func off s
  | .gstStop now alsoRelease => Sys2Proof.Machine.execGstStop now alsoRelease s
  | .gstRelease now => Sys2Proof.Machine.execGstRelease now s
  | .gstHalted now => Sys2Proof.Machine.execGstHalted now s
  | .gstScanData parityError => Sys2Proof.Machine.execGstScanData parityError s
  | .gstScanSel tile chain => Sys2Proof.Machine.execGstScanSel tile chain s
  | .registerWrite func off width val => Sys2Proof.Machine.execRegisterWrite func off width val s
  | .faultReport now r => Sys2Proof.Machine.execFaultReport now r s
  | .fatalBlockReset now => Sys2Proof.Machine.execFatalBlockReset now s
  | .checkerExercise now unit engine checker flagged => Sys2Proof.Machine.execCheckerExercise now unit engine checker flagged s
  | .errorPinTest now unit answered => Sys2Proof.Machine.execErrorPinTest now unit answered s
  | .errorPinTestTimeout now unit => Sys2Proof.Machine.execErrorPinTestTimeout now unit s
  | .analogueSlice now die item tiles inTolerance => Sys2Proof.Machine.execAnalogueSlice now die item tiles inTolerance s
  | .analogueRotationMissed now item => Sys2Proof.Machine.execAnalogueRotationMissed now item s
  | .watchdogExpiry now => Sys2Proof.Machine.execWatchdogExpiry now s
  | .selfTestDone now engine pass => Sys2Proof.Machine.execSelfTestDone now engine pass s
  | .resetEscalation now kind id => Sys2Proof.Machine.execResetEscalation now kind id s
  | .slotQuarantineEnd now slot => Sys2Proof.Machine.execSlotQuarantineEnd now slot s
  | .abortNotice now n => Sys2Proof.Machine.execAbortNotice now n s
  | .noticeHoldExpiry now job jstep => Sys2Proof.Machine.execNoticeHoldExpiry now job jstep s
  | .derivedStep now job jstep pgen startNo part slot base fbBase x => Sys2Proof.Machine.execDerivedStep now job jstep pgen startNo part slot base fbBase x s
  | .fillStart now part => Sys2Proof.Machine.execFillStart now part s
  | .peerProbeTimeout now part pkg => Sys2Proof.Machine.execPeerProbeTimeout now part pkg s
  | .peerProbe now part pkg x enrolled => Sys2Proof.Machine.execPeerProbe now part pkg x enrolled s
  | .chunkArrival now part pkg chunk x => Sys2Proof.Machine.execChunkArrival now part pkg chunk x s
  | .fillComplete now part => Sys2Proof.Machine.execFillComplete now part s
  | .imageAuthenticated now => Sys2Proof.Machine.execImageAuthenticated now s
  | .calibrationDone now factor => Sys2Proof.Machine.execCalibrationDone now factor s
  | .mbxReady now => Sys2Proof.Machine.execMbxReady now s
  | .startTimeout now => Sys2Proof.Machine.execStartTimeout now s
  | .failedStartReset now => Sys2Proof.Machine.execFailedStartReset now s
  | .sleepEntry now => Sys2Proof.Machine.execSleepEntry now s
  | .wake now i3c => Sys2Proof.Machine.execWake now i3c s
  | .flashOperationDone now ok => Sys2Proof.Machine.execFlashOperationDone now ok s
  | .refclkReturn now => Sys2Proof.Machine.execRefclkReturn now s
  | .railBackInTolerance now => Sys2Proof.Machine.execRailBackInTolerance now s
  | .vddAonLost => Sys2Proof.Machine.execVddAonLost s
  | .thermalThrottleEngaged now => Sys2Proof.Machine.execThermalThrottleEngaged now s
  | .thermalThrottleReleased now => Sys2Proof.Machine.execThermalThrottleReleased now s
  | .hostLinkUp now => Sys2Proof.Machine.execHostLinkUp now s
  | .flrComplete now func => Sys2Proof.Machine.execFlrComplete now func s
  | .faultCollectorInitialised now => Sys2Proof.Machine.execFaultCollectorInitialised now s
  | .startEntryNotWritten now => Sys2Proof.Machine.execStartEntryNotWritten now s

end Sys2Proof.Machine
end

