-- ==== Sys2Proof/Machine/Step.lean ====
section
/-! DEFINITION. One step of the block: the command at the front of the queue, or, with none waiting, one tick of whorl time. -/

namespace Sys2Proof.Machine

/-- Whorl time counts one nanosecond while the always-on domain works (R8); a held count waits (R399). DESIGN CHOICE (log 2). -/
def tick (s : State) : State :=
  if aonUp s then
    match s.aon.whorlHold with
    | some (k + 1) => s.modAon fun a => { a with whorlHold := some k }
    | _ => s.modAon fun a => { a with whorl := a.whorl + 1, whorlHold := none }
  else s

/-- Take the command at the front of the queue and run it; an empty queue lets one tick pass. -/
def step (s : State) : Host.Outcome State Fault Refusal :=
  match s.pending with
  | [] => .next (tick s)
  | c :: cs => exec c { s with pending := cs }

/-- `s` with the command that a word spells at the front of its queue; no word spells one. -/
def State.withFetchWord (s : State) (nbits w : Nat) : State :=
  match decodeTableWord nbits w with
  | some c => { s with pending := c :: s.pending }
  | none => s

end Sys2Proof.Machine
end

