-- ==== Sys2Proof/Safety.lean ====
section
/-! DEFINITION. What counts as a safe run, and the terms in which the statements speak of a request and its answer, of a block
reset and of a tile's issue. -/

namespace Sys2Proof

open Sys2Proof.Machine

/-- The canonical form of object space. -/
abbrev Memory.wf (s : Machine.State) : Bool := Machine.memWf s.hbm

/-- The code log holds at most 32 codes (R419) and no counter of corrected faults exceeds 0xFFFF (R420). -/
def collectorBounded (s : Machine.State) : Prop := s.coll.log.length ≤ 32 ∧ ∀ e ∈ s.coll.corr, e.2 ≤ 0xFFFF

namespace Claims

/-- Request `m` waits at its function, can be taken (R333 to R335, R337), and passes orders 1 to 8 and 11 of Table Mailbox-3 for
the line `sp` of Table Mailbox-5. -/
def Passes (s : State) (sp : MsgSpec) (m : Msg) : Prop :=
  (if m.boot then canBoot s m else canTake s m.func) = true ∧ check8 (take s m) sp m = 0 ∧ sp.named = true ∧ m.opcode = sp.opcode

/-- A critical request also passes orders 9 and 10: its code verifies, and its counter is above the last one (R342, R343). -/
def Signed (s : State) (m : Msg) : Prop := macOk (take s m) m = true ∧ (s.func m.func).ctrLast < m.counter

/-- The response to `m` (R339). -/
def rspTo (m : Msg) (status detail : Nat) (payload ext : List Byte) (waits : Bool) : Rsp :=
  { opcode := m.opcode, tag := m.tag, critical := isCritical m, status := BitVec.ofNat 16 status, detail := BitVec.ofNat 64 detail,
    payload, ext, boot := m.boot, waits }

/-- A response of status 0x0000 without payload, with a `detail`. -/
def okTo (m : Msg) (detail : Nat) : Rsp := rspTo m 0 detail [] [] false

/-- Between `s` and `t` request `m` was taken and the response `r` became due to its function. -/
def Answered (s t : State) (m : Msg) (r : Rsp) : Prop :=
  (t.func m.func).rsps = (s.func m.func).rsps ++ [r]
    ∧ (t.func m.func).reqHead = if m.boot then (s.func m.func).reqHead else ((s.func m.func).reqHead + 1) % 65536

/-- Between `s` and `t` request `m` was taken and waits for its response (Table Mailbox-6). -/
def Pends (s t : State) (m : Msg) : Prop :=
  (t.func m.func).rsps = (s.func m.func).rsps
    ∧ (t.func m.func).taken = (s.func m.func).taken ++ [{ tag := m.tag, opcode := m.opcode, critical := isCritical m, boot := m.boot }]

/-- No function but the sender of `m` changed. -/
def OthersKeep (s t : State) (m : Msg) : Prop := ∀ g, g ≠ m.func → t.func g = s.func g

/-- Between `s` and `t` request `m` was taken and answered with `r`, and nothing else changed. -/
def Replies (s t : State) (m : Msg) (r : Rsp) : Prop := Answered s t m r ∧ OthersKeep s t m ∧ t = { s with funcs := t.funcs, lastTaken := t.lastTaken }

/-- Between `s` and `t` the entry `e` became due to function `f`. -/
def Due (s t : State) (f : Nat) (e : Entry) : Prop := (t.func f).evtQueue = (s.func f).evtQueue ++ [e]

/-- What every block reset leaves (R23, R25, R273, R451): the main domain's state is that of reset, the flash and the always-on
time base and comparators are as they were. -/
def BlockReset (s t : State) : Prop :=
  t.mainReset = true ∧ t.parts = [] ∧ t.ctxs = [] ∧ t.queues = [] ∧ t.steps = [] ∧ t.tiles = [] ∧ t.ports = [] ∧ t.windows = []
    ∧ t.jobs = [] ∧ t.hbm = [] ∧ t.gst = {} ∧ t.pmc = {} ∧ t.grants = {} ∧ t.power = {} ∧ t.life.ready = false
    ∧ t.life.sectors = s.life.sectors ∧ t.life.svnFloor = s.life.svnFloor ∧ t.life.devsets = s.life.devsets
    ∧ t.life.ownerCred = s.life.ownerCred ∧ t.variant = s.variant

/-- Tile `t` runs `r` of step `st` and issues `i` next (R190, R194); no injection is armed (R439). -/
def Issues (s : State) (t : Nat) (i : SkInsn) (r : SkeinRun) (st : Step) : Prop :=
  issueOk s t i = true ∧ (s.tile t).run = some r ∧ tfind s.steps r.slot = some st ∧ s.coll.inject = []

/-- The run once its next instruction has been taken. -/
def consumed (r : SkeinRun) : SkeinRun := { r with code := r.code.drop 1, issued := true }

/-- It was one of the vector unit, whose residue window is open then (R69). -/
def vecRun (r : SkeinRun) : SkeinRun := { consumed r with vecWin := true }

/-- It was one of the matrix unit. -/
def matRun (r : SkeinRun) : SkeinRun := { consumed r with matWin := true }

/-- The issue of the run's next instruction writes no trace record: it is not the skein's first, or the trace is off (R550). -/
def Untraced (s : State) (r : SkeinRun) (st : Step) : Prop :=
  (s.part st.part).trace.on = false ∨ r.code.length ≠ (nth (stepFile s st).skeins r.skein {}).code.length

/-- No stored bit of view `a` is poisoned, as tile `t` reads it (R62). -/
def Clean (s : State) (t slot : Nat) (st : Step) (a : Nat) : Prop := (readStored s t slot st a).any (·.2.2) = false

/-- The step once one of its operations other than a FETCH has issued (R183, R433). -/
def stepAfter (s : State) (r : SkeinRun) (st : Step) : Step :=
  { st with lastOp := time s, skeins := tput st.skeins r.skein 2 }

/-- What no issue on a tile changes: other steps and partitions, the objects and programs of its own, and everything outside the
engines. -/
def IssueFrame (s u : State) (slot p : Nat) : Prop :=
  (∀ k, k ≠ slot → tfind u.steps k = tfind s.steps k) ∧ (∀ q, q ≠ p → u.part q = s.part q)
    ∧ (u.part p).objs = (s.part p).objs ∧ (u.part p).progs = (s.part p).progs ∧ (u.part p).running = (s.part p).running
    ∧ u.aon = s.aon ∧ u.coll = s.coll ∧ u.life = s.life ∧ u.power = s.power ∧ u.gst = s.gst ∧ u.grants = s.grants
    ∧ u.rails = s.rails ∧ u.funcs = s.funcs ∧ u.queues = s.queues ∧ u.jobs = s.jobs

/-- The message waits: nothing can leave port `p` with it, in an egress freeze or without credits, and no abort notice stands there
(R391, R432). -/
def Waits (s : State) (p : Nat) : Prop :=
  (s.coll.freeze = true ∨ ((s.port p).cellHeld = 0 ∧ (s.port p).bulkHeld = 0)) ∧ ∀ m ∈ (s.port p).txq, isNotice m = false

/-- The writes that copy stored bits into view `d`, with their poison (R195). -/
def copyPuts (f : Upf.File) (d : Nat) (src : List (Nat × Nat × Bool)) : List Put :=
  ((viewBits f d).zip src).map fun e =>
    { tensor := e.1.tensor, off := e.1.off, width := e.1.width, val := e.2.2.1, bad := e.2.2.2 }

/-- Between `s` and `u` only the run on tile `t` and the counts of its step and partition changed; memory is as it was, but for a
trace of the partition. -/
def OnlyRun (s u : State) (t : Nat) (r : SkeinRun) (st : Step) (r' : SkeinRun) : Prop :=
  u.tile t = { s.tile t with run := some r', gated := false } ∧ (∀ k, k ≠ t → u.tile k = s.tile k)
    ∧ tfind u.steps r.slot = some (stepAfter s r st) ∧ IssueFrame s u r.slot st.part
    ∧ u.remOps = s.remOps ∧ u.ports = s.ports ∧ u.windows = s.windows ∧ u.ctxs = s.ctxs ∧ u.out = s.out
    ∧ ((s.part st.part).trace.on = false → u.hbm = s.hbm ∧ u.hbmPoison = s.hbmPoison)

/-- Object-space byte `a` lies in what a write touches. -/
def Touches (s : State) (slot : Nat) (st : Step) (e : Put) (a : Nat) : Prop :=
  ∃ p b, tensorPlace s slot st e.tensor = .hbm p b ∧ hbmAddr p b + e.off / 8 ≤ a
    ∧ a < hbmAddr p b + e.off / 8 + (e.off % 8 + e.width + 7) / 8

/-- Scratchpad byte `a` of tile `k` lies in what a write touches. -/
def TouchesScratch (s : State) (slot : Nat) (st : Step) (k : Nat) (e : Put) (a : Nat) : Prop :=
  ∃ b, tensorPlace s slot st e.tensor = .scratch slot e.tensor ∧ bufBase (s.tile k) slot e.tensor = some b ∧ b + e.off / 8 ≤ a
    ∧ a < b + e.off / 8 + (e.off % 8 + e.width + 7) / 8

/-- Between `s` and `u` memory outside the writes `l` of a step is as it was: every byte of object space and of every
scratchpad. An intermediate lies where its first write put it (R215), so the places are those of `u`. -/
def StoresOnly (s u : State) (slot : Nat) (st : Step) (l : List Put) : Prop :=
  (∀ a, (∀ e ∈ l, ¬ Touches u slot st e a) → mread u.hbm a = mread s.hbm a)
    ∧ ∀ k a, (∀ e ∈ l, ¬ TouchesScratch u slot st k e a) → mread (u.tile k).scratch a = mread (s.tile k).scratch a

/-- Tensor `i` of a step can be written and read back on tile `t`: object space, or a buffer that the tile holds. -/
def Placed (s : State) (t slot : Nat) (st : Step) (i : Nat) : Prop :=
  (∃ p b, tensorPlace s slot st i = .hbm p b ∧ memWf s.hbm = true)
    ∨ ∃ b, tensorPlace s slot st i = .scratch slot i ∧ bufBase (s.tile t) slot i = some b ∧ memWf (s.tile t).scratch = true

/-- What a place holds where a write went. -/
def bitsAt (s : State) (t slot : Nat) (st : Step) (e : Put) : Nat :=
  readBits (sourceOf s t (tensorPlace s slot st e.tensor)) e.off e.width

/-- Where a write begins: in object space or in tile `t`'s scratchpad, and at which bit of it. -/
def startBit (s : State) (t slot : Nat) (st : Step) (e : Put) : Option (Bool × Nat) :=
  match tensorPlace s slot st e.tensor with
  | .hbm p b => some (true, 8 * hbmAddr p b + e.off)
  | .scratch k i => (bufBase (s.tile t) k i).map fun b => (false, 8 * b + e.off)
  | .fixed .. => none

/-- No two writes meet. -/
def Apart (s : State) (t slot : Nat) (st : Step) (l : List Put) : Prop :=
  l.Pairwise fun x y => ∀ a b c, startBit s t slot st x = some (a, b) → startBit s t slot st y = some (a, c) →
    b + x.width ≤ c ∨ c + y.width ≤ b

/-- Between `s` and `u` the writes `l` of a step were made, and nothing else was written: where they do not meet, each one's
bits are there. -/
def Stores (s u : State) (t slot : Nat) (st : Step) (l : List Put) : Prop :=
  StoresOnly s u slot st l
    ∧ (Apart u t slot st l → ∀ e ∈ l, Placed s t slot st e.tensor → bitsAt u t slot st e = e.val % 2 ^ e.width)

/-- What a cell or a bulk message brings: header fields, payload, and its frame's counter and tag. -/
structure Brought where
  /-- queue pair -/
  qp : Nat
  /-- kind -/
  kind : Nat
  /-- window generation -/
  gen : Nat
  /-- window -/
  window : Nat
  /-- byte offset in the window -/
  pos : Nat
  /-- its bytes -/
  data : List Byte
  /-- those of them that are poisoned -/
  bad : List Nat
  /-- counter of its frame -/
  ctr : Nat
  /-- the tag of its frame holds -/
  tagOk : Bool

/-- What a cell brings: 48 bytes at 48 times its index (R383). -/
def cellBrings (c : Cell) : Brought :=
  { qp := c.qp, kind := c.kind, gen := c.gen, window := c.window, pos := 48 * c.index, data := padTo 48 (c.payload.take 48)
    bad := c.bad.filter (· < 48), ctr := c.frameCtr, tagOk := c.tagOk }

/-- What a bulk message brings (R384). -/
def bulkBrings (b : Bulk) : Brought :=
  { qp := b.qp, kind := b.kind, gen := b.gen, window := b.window, pos := b.offset, data := slice b.payload 0 b.length
    bad := b.bad.filter (· < b.length), ctr := b.frameCtr, tagOk := b.tagOk }

/-- Command `i` is the arrival at port `p` of a cell that is no control message, or of a bulk message of 1 to 8192 bytes. -/
def Arrives (i : Instr) (now p : Nat) (x : Brought) : Prop :=
  (∃ c : Cell, i = .cellArrival now p c ∧ c.ctl = none ∧ x = cellBrings c)
    ∨ ∃ b : Bulk, i = .bulkMessageArrival now p b ∧ 1 ≤ b.length ∧ b.length ≤ 8192 ∧ x = bulkBrings b

/-- The piece of a collective's data that it brings (R407). -/
def pieceOf (x : Brought) : Chunk := { pos := x.pos, bytes := x.data, bad := x.bad }

/-- A message went into port `p`, and has left or waits there (R391). -/
def Handed (t : State) (p : Nat) (m : TxMsg) : Prop := m ∈ (t.port p).txq ∨ txOut p m ∈ t.out

/-- What a tile holds beside its scratchpad. -/
def SameWork (x y : Tile) : Prop :=
  x.run = y.run ∧ x.tails = y.tails ∧ x.bufs = y.bufs ∧ x.withdrawn = y.withdrawn ∧ x.testing = y.testing ∧ x.clock = y.clock

/-- Between `s` and `u` the step in `slot` ended as failed with `c`. -/
def FailsWith (u : State) (slot : Nat) (c : Code) : Prop := ∃ st, tfind u.steps slot = some st ∧ st.fail = some c

/-- The outcome of a step is still open. -/
def Undecided (st : Step) : Prop := st.fail = none ∧ st.notedDone = false

end Claims

end Sys2Proof
end

