-- ==== Sys2Proof/Certificates/Slice0/Obligations.lean ====
section
/-! DEFINITION. The statements for the provers. Each names the rules of the spec that it formalises; where a clause rests on a
choice of the model, it names the log entry. A statement with several clauses speaks of one command in each. -/

open Sys2Proof Sys2Proof.Machine Sys2Proof.Claims

/-! ### The queue and the machine as a whole -/

/-- A step takes the command at the front of the queue and runs it on the state that keeps the rest of the queue. -/
def Obligations.StepRunsTheFrontCommand : Prop :=
  ∀ (s : State) (c : Instr) (cs : List Instr), step { s with pending := c :: cs } = exec c { s with pending := cs }

/-- DESIGN CHOICE (log 2): with no command waiting, a step lets one tick of whorl time pass (R8) while the always-on domain works,
counting down a held count first (R399); nothing else changes. -/
def Obligations.AnEmptyQueueLetsATickPass : Prop :=
  ∀ s : State, s.pending = [] → ∃ t, step s = .next t ∧ t = { s with aon := { s.aon with whorl := t.aon.whorl, whorlHold := t.aon.whorlHold } }
    ∧ t.aon.whorl = s.aon.whorl + (if aonUp s = true ∧ (s.aon.whorlHold = none ∨ s.aon.whorlHold = some 0) then 1 else 0)
    ∧ (∀ k, s.aon.whorlHold = some (k + 1) → aonUp s = true → t.aon.whorlHold = some k)

/-- Every command completes in every state: no meaning faults or refuses. It changes neither the queue of the commands that
wait (the model's own record, log 2) nor the variant (R3). -/
def Obligations.EveryCommandCompletes : Prop :=
  ∀ (c : Instr) (s : State), ∃ t, exec c s = .next t ∧ t.pending = s.pending ∧ t.variant = s.variant

/-- Every step keeps the canonical form of object space (log 5): addresses rise strictly and no listed byte is zero. -/
def Obligations.EveryStepKeepsMemoryCanonical : Prop :=
  ∀ s t : State, Memory.wf s = true → step s = .next t → Memory.wf t = true

/-- Every step keeps the code log at no more than 32 codes (R419) and every counter of corrected faults at no more than 0xFFFF
(R420). -/
def Obligations.EveryStepKeepsTheCollectorBounded : Prop :=
  ∀ s t : State, collectorBounded s → step s = .next t → collectorBounded t

/-- The state at reset meets both invariants. -/
def Obligations.ResetMeetsTheInvariants : Prop := Memory.wf State.reset = true ∧ collectorBounded State.reset

/-- Column A of Table Boundary-3 and the reset values of the register reference: the inputs are low, the outputs released, whorl
time is 0, and every partition is FREE (R273). The variant and the erased flash are the model's choice (log 3, 4) and no part of
this. -/
def Obligations.ResetState : Prop :=
  State.reset.aon.aonResetN = false ∧ State.reset.aon.blkResetN = false ∧ State.reset.aon.pwrGood = false
    ∧ State.reset.aon.railsOk = true ∧ State.reset.aon.refclk = true
    ∧ State.reset.aon.stopOutN = true ∧ State.reset.aon.secalmN = true ∧ State.reset.aon.trayReqN = true ∧ State.reset.aon.wakeN = true
    ∧ State.reset.mainReset = true ∧ time State.reset = 0 ∧ State.reset.aon.coords = none
    ∧ State.reset.coll.status = 0 ∧ State.reset.coll.fatal = 0 ∧ State.reset.coll.log = [] ∧ State.reset.coll.freeze = false
    ∧ State.reset.life.ready = false ∧ State.reset.gst.stopped = false ∧ State.reset.pmc.byMessage = false
    ∧ (∀ p, (State.reset.part p).state = 0) ∧ (∀ f, (State.reset.func f).enable = false ∧ (State.reset.func f).ctrLast = 0)
    ∧ State.reset.pending = [] ∧ State.reset.out = []

/-! ### Clocks, rails and reset pins -/

/-- R17: a loss of REFCLK records 0xE901, puts whorl time into holdover and holds the main domain in reset without a freeze;
its return locks the time base again. Table Boundary-4: PWR_GOOD rising records a late 0xE902; falling with BLK_RESET_N high
it resets the block, and otherwise, or asleep, it does no more than end a power-cycle request (R26). -/
def Obligations.ReferenceClockAndPowerGood : Prop :=
  (∀ (s : State) (now : Nat), aonUp s = true → s.aon.refclk = true →
    ∃ t, exec (.refclkLost now) s = .next t ∧ BlockReset s t ∧ t.aon.refclk = false ∧ t.aon.synced = false ∧ t.aon.holdover = true
      ∧ t.aon.holdFree = true ∧ t.aon.needBlkCycle = true ∧ t.aon.cmps = s.aon.cmps ∧ t.aon.trayReqN = s.aon.trayReqN
      ∧ (0xE901 : Code) ∈ t.coll.log ∧ t.coll.freeze = false ∧ t.coll.resetPending = false)
  ∧ (∀ (s : State) (now : Nat), aonUp s = true → s.aon.refclk = false →
    ∃ t, exec (.refclkReturn now) s = .next t ∧ t = { s with aon := t.aon } ∧ t.aon.refclk = true ∧ t.aon.holdover = s.aon.holdover
      ∧ t.aon.refclkSince = time t ∧ t.aon.needBlkCycle = s.aon.needBlkCycle)
  ∧ (∀ (s : State) (now : Nat), s.aon.railsOk = true → s.aon.pwrGood = false →
    ∃ t, exec (.pwrGoodRise now) s = .next t ∧ t.aon.pwrGood = true ∧ t.aon.pend902 = false ∧ t.mainReset = s.mainReset
      ∧ (s.aon.pend902 = true → (0xE902 : Code) ∈ t.coll.log ∧ t.life.nextCause = 4 ∧ t.life.nextCode = 0xE902)
      ∧ (s.aon.pend902 = false → t = { s with aon := t.aon }))
  ∧ (∀ (s : State) (now : Nat), s.aon.railsOk = true → s.aon.pwrGood = true →
    ∃ t, exec (.pwrGoodFall now) s = .next t ∧ t.aon.pwrGood = false ∧ t.aon.trayReqN = true
      ∧ (s.aon.asleep = true ∨ s.aon.blkResetN = false → t = { s with aon := t.aon })
      ∧ (s.aon.asleep = false ∧ s.aon.blkResetN = true → BlockReset s t ∧ t.aon.needBlkCycle = true))

/-- R21, R24, R26: the always-on reset and the loss of its rail take the whole block with them, the log and whorl time included;
the release lets whorl time count, and starts the block when the other inputs allow it. -/
def Obligations.AlwaysOnReset : Prop :=
  (∀ s : State, s.aon.aonResetN = true →
    ∃ t, exec .aonResetNFall s = .next t ∧ BlockReset s t ∧ t.aon.aonResetN = false ∧ time t = 0 ∧ t.aon.cmps = []
      ∧ t.aon.trayReqN = true ∧ t.coll = {} ∧ t.aon.railsOk = s.aon.railsOk)
  ∧ (∀ s : State, s.aon.aonResetN = false → (s.aon.blkResetN = false ∨ s.aon.pwrGood = false) →
    ∃ t, exec .aonResetNRelease s = .next t ∧ t = { s with aon := { s.aon with railsOk := true, refclk := true, aonResetN := true } })
  ∧ (∀ s : State, s.aon.aonResetN = false → s.aon.blkResetN = true → s.aon.pwrGood = true → s.aon.needBlkCycle = false →
    ∃ t, exec .aonResetNRelease s = .next t ∧ t.mainReset = false ∧ t.aon.aonResetN = true ∧ t.life.starting = !t.life.minimal)
  ∧ (∀ s : State, s.aon.railsOk = true →
    ∃ t, exec .vddAonLost s = .next t ∧ BlockReset s t ∧ t.aon.railsOk = false ∧ t.aon.aonResetN = false ∧ time t = 0
      ∧ t.aon.cmps = [] ∧ t.coll = {})

/-- R23 to R25, R38, R520: BLK_RESET_N low resets the block, keeps the time base and puts the outputs at the levels of Table
Boundary-5; its release starts the block in full when PWR_GOOD, REFCLK and the rails allow it, and leaves it in reset
otherwise. -/
def Obligations.BlockResetPin : Prop :=
  (∀ (s : State) (now : Nat), s.aon.blkResetN = true → s.aon.asleep = false →
    ∃ t, exec (.blkResetNFall now) s = .next t ∧ BlockReset s t ∧ t.aon.blkResetN = false ∧ t.aon.needBlkCycle = false
      ∧ t.aon.cmps = s.aon.cmps ∧ t.aon.coords = s.aon.coords ∧ time t = time (advance s now) ∧ t.coll.log = s.coll.log
      ∧ (s.mainReset = false → t.life.nextCause = 1) ∧ t.aon.secalmN = true ∧ t.aon.stopOutN = s.aon.stopInN
      ∧ t.aon.trayReqN = s.aon.trayReqN ∧ t.aon.pend902 = s.aon.pend902 ∧ (aonUp s = true → faultN t = false)
      ∧ qspiCsN t = true ∧ tdoDriven t = false ∧ (aonUp s = true → faultN s = true → Out.ibi ∈ t.out))
  ∧ (∀ (s : State) (now : Nat), s.aon.blkResetN = true → s.aon.asleep = true →
    ∃ t, exec (.blkResetNFall now) s = .next t ∧ t = { s with aon := t.aon, mainReset := true } ∧ t.aon.blkResetN = false
      ∧ t.aon.secalmN = true ∧ t.aon.stopOutN = s.aon.stopInN ∧ t.aon.asleep = true)
  ∧ (∀ (s : State) (now tries : Nat) (w : Bool), s.aon.blkResetN = false → aonUp s = true → s.aon.pwrGood = false →
    ∃ t, exec (.blkResetNRelease now tries w) s = .next t ∧ t = { s with aon := t.aon } ∧ t.aon.blkResetN = true
      ∧ t.aon.pend902 = true ∧ t.aon.needBlkCycle = true)
  ∧ (∀ (s : State) (now tries : Nat) (w : Bool), s.aon.blkResetN = false → aonUp s = true → s.aon.pwrGood = true →
    s.aon.refclk = true → s.aon.refclkSince = 0 → s.aon.railTripped = false → s.aon.railBackSince = 0 → s.aon.pwrHold = false →
    s.aon.asleep = false →
    ∃ t, exec (.blkResetNRelease now tries w) s = .next t ∧ t.mainReset = false ∧ t.aon.blkResetN = true ∧ t.aon.wakeN = true
      ∧ t.life.startAt = time t ∧ t.life.starting = !t.life.minimal
      ∧ ((t.life.lc = 0 ∨ t.life.lc = 6 ∨ 3 ≤ t.life.fails) → t.life.minimal = true)
      ∧ t.life.devsets = s.life.devsets)

/-- R24, R38, R432, R452: a voltage monitor trip records 0xE902 and holds the block in reset; the rail's return starts the wait of
Table Boundary-4; a thermal trip records 0xE907, freezes egress and asks for a power cycle; 100 ms in reset ask for one too. -/
def Obligations.MonitorsAndPowerCycle : Prop :=
  (∀ (s : State) (now : Nat), aonUp s = true → s.aon.blkResetN = true → s.aon.railTripped = false →
    ∃ t, exec (.voltageMonitorTrip now) s = .next t ∧ BlockReset s t ∧ t.aon.railTripped = true ∧ t.aon.needBlkCycle = true
      ∧ (0xE902 : Code) ∈ t.coll.log ∧ t.coll.freeze = false ∧ Out.ibi ∈ t.out)
  ∧ (∀ (s : State) (now : Nat), s.aon.railTripped = true →
    ∃ t, exec (.railBackInTolerance now) s = .next t ∧ t = { s with aon := t.aon } ∧ t.aon.railTripped = false
      ∧ t.aon.railBackSince = time t ∧ t.aon.needBlkCycle = s.aon.needBlkCycle)
  ∧ (∀ (s : State) (now : Nat), aonUp s = true →
    ∃ t, exec (.thermalTrip now) s = .next t ∧ (0xE907 : Code) ∈ t.coll.log ∧ t.coll.freeze = true ∧ t.aon.trayReqN = false
      ∧ Out.ibi ∈ t.out ∧ t.hbm = s.hbm ∧ t.aon.whorl = (advance s now).aon.whorl
      ∧ (s.coll.freeze = false → t.coll.resetPending = true ∧ t.coll.fatalCode = 0xE907 ∧ t.coll.fatalAt = time t))
  ∧ (∀ (s : State) (now : Nat), aonUp s = true → s.mainReset = true → s.aon.asleep = false → s.aon.trayReqN = true →
    holdWaits s = false → 100000000 + s.aon.blkHighSince ≤ time (advance s now) →
    ∃ t, exec (.powerCycleRequest now) s = .next t ∧ t = { s with aon := t.aon, out := .ibi :: s.out } ∧ t.aon.trayReqN = false)

/-- R25, R27, R28, R378, R35 to R37: a falling STOP_IN_N is forwarded, and STOP_OUT_N goes high with it again only in block
reset; the torus coordinates are written only with BLK_RESET_N low; the test access port takes a reachable instruction, shifts
the identification out, and takes any other as BYPASS; a debug access reads the object space of a partition with memory read
open, and 0 of closed storage. That IDCODE is the instruction after Test-Logic-Reset is PRESUMED (log 13). -/
def Obligations.StopPinCoordinatesAndTap : Prop :=
  (∀ (s : State) (now : Nat) (stays : Bool), aonUp s = true →
    ∃ t, exec (.stopInNFall ⟨now, stays⟩) s = .next t ∧ t.aon.stopInN = !stays ∧ t.aon.stopOutN = (s.mainReset && !stays) ∧ t.coll = s.coll
      ∧ (s.mainReset = true ∨ s.grants.stop = false ∨ s.gst.stopped = true → t = { s with aon := t.aon })
      ∧ (s.mainReset = false → s.grants.stop = true → s.gst.stopped = false →
          t.gst.stopped = true ∧ t.gst.source = 2 ∧ t.gst.time = time t ∧ t.pmc.byStop = true ∧ t.tiles = s.tiles))
  ∧ (∀ (s : State) (x y z kx ky kz : Nat), aonUp s = true → s.aon.blkResetN = false → 1 ≤ kx → kx ≤ 16 → 1 ≤ ky → ky ≤ 16 → 1 ≤ kz →
    kz ≤ 16 → x < kx → y < ky → z < kz →
    exec (.torusCoordinatesWrite x y z kx ky kz) s = .next { s with aon := { s.aon with coords := some (x, y, z, kx, ky, kz) } })
  ∧ (∀ (s : State) (i : TapIns), s.mainReset = false → s.aon.blkResetN = true →
    ∃ t, exec (.tapInstruction i) s = .next t ∧ t = { s with life := { s.life with tapInstr := t.life.tapInstr }, out := t.out }
      ∧ (tapOpen s.life.lc i = true → t.life.tapInstr = tapNumber i) ∧ (tapOpen s.life.lc i = false → t.life.tapInstr = tapNumber .bypass)
      ∧ (i = .idcode → t.out = .tdo 0xB0E25A6F :: s.out)
      ∧ (i = .debugAccess .closed → t.out = .tdo 0 :: s.out)
      ∧ (∀ p off, i = .debugAccess (.object p off) → p ∉ s.grants.memRead → t.out = .tdo 0 :: s.out)
      ∧ (∀ p off, i = .debugAccess (.object p off) → tapOpen s.life.lc i = true → p ∈ s.grants.memRead → (s.part p).state = 2 →
          off < objSpace (s.part p) → t.out = .tdo (leNat (hbmRead s p off 1)) :: s.out))
  ∧ (∀ s : State, exec .trstNReset s = .next { s with life := { s.life with tapInstr := tapNumber .idcode } })

/-- R20, R33, R79, R585: a confirmed level stands; before calibration it puts the die's tiles at 1.6 GHz, and after it, with
no partition there, the die is lowered to 0.60 V; an unconfirmed level is requested once more and then given up, the clocks
staying. -/
def Obligations.RailConfirmation : Prop :=
  (∀ (s : State) (now die mv : Nat), s.mainReset = false → (s.rail die).request = some mv →
    ∃ t, exec (.railConfirm now die mv) s = .next t ∧ (t.rail die).level = some mv
      ∧ (s.life.calibrated = false → (t.rail die).request = none ∧ (∀ d, d ≠ die → t.rail d = s.rail d) ∧ t.out = s.out ∧ t.parts = s.parts
          ∧ (∀ e, e ∈ dieTiles die → (s.tile e).withdrawn = 0 → t.tile e = { s.tile e with clock := 48, gated := false })
          ∧ ∀ e, e ∉ dieTiles die → t.tile e = s.tile e)
      ∧ (s.life.calibrated = true → s.parts = [] → t.tiles = s.tiles ∧ (∀ d, d ≠ die → t.rail d = s.rail d)
          ∧ (mv = 600 → (t.rail die).request = none ∧ t.out = s.out)
          ∧ (mv ≠ 600 → (t.rail die).request = some 600 ∧ t.out = .railRequest die 600 :: s.out)))
  ∧ (∀ (s : State) (now die mv : Nat), s.mainReset = false → (s.rail die).request = some mv → (s.rail die).retried = false →
    100000 + (s.rail die).requestAt < time (advance s now) →
    ∃ t, exec (.railConfirmTimeout now die) s = .next t ∧ t.out = .railRequest die mv :: s.out ∧ (t.rail die).retried = true
      ∧ (t.rail die).level = (s.rail die).level ∧ t.tiles = s.tiles ∧ t.parts = s.parts)
  ∧ (∀ (s : State) (now die : Nat), s.mainReset = false → (s.rail die).request.isSome = true → (s.rail die).retried = true →
    100000 + (s.rail die).requestAt < time (advance s now) →
    ∃ t, exec (.railConfirmTimeout now die) s = .next t ∧ (t.rail die).request = none ∧ (t.rail die).level = (s.rail die).level
      ∧ t.out = s.out ∧ t.tiles = s.tiles ∧ t.parts = s.parts)

/-! ### The start of the block -/

/-- R33, R518 to R520: what fails a start, the code it records, and the block reset 10 ms later with cause 5. -/
def Obligations.FailedStarts : Prop :=
  (∀ (s : State) (now : Nat), starting s = true → s.life.warm = false → s.life.entryWritten = false → s.coll.init = true →
    10000000 + s.life.startAt < time (advance s now) →
    ∃ t, exec (.startEntryNotWritten now) s = .next t ∧ t.life.startFailed = some 2 ∧ t.life.failedAt = time t ∧ (0xAA01 : Code) ∈ t.coll.log)
  ∧ (∀ (s : State) (now : Nat), starting s = true → s.coll.init = true →
    ∃ t, exec (.flashStatusTimeout now) s = .next t ∧ t.life.startFailed = some 2 ∧ t.life.flashTimedOut = true ∧ (0xAA01 : Code) ∈ t.coll.log)
  ∧ (∀ (s : State) (now port : Nat), s.mainReset = false → s.life.ready = false → s.coll.init = true → port / 4 < granuleCount s.variant →
    2000000 + s.life.startAt < time (advance s now) →
    ∃ t, exec (.hbmPortNotReady now port) s = .next t ∧ port / 4 ∈ t.badGranules ∧ (∀ g ∈ s.badGranules, g ∈ t.badGranules)
      ∧ (0xA401 : Code) ∈ t.coll.log ∧ t.life.startFailed = s.life.startFailed)
  ∧ (∀ (s : State) (now : Nat), starting s = true → 2000000000 + s.life.startAt < time (advance s now) →
    ∃ t, exec (.startTimeout now) s = .next t ∧ t.life.startFailed = some 4 ∧ t.life.failedAt = time t ∧ t.coll = s.coll)
  ∧ (∀ (s : State) (now k : Nat), s.mainReset = false → s.life.startFailed = some k → k ≠ 5 →
    10000000 + s.life.failedAt ≤ time (advance s now) → s.aon.blkResetN = false →
    ∃ t, exec (.failedStartReset now) s = .next t ∧ BlockReset s t ∧ t.life.nextCause = 5 ∧ t.life.nextCode = failCode k)

/-- R22, R441, R531, R585, R519, R532: the collector initialises, the image authenticates, calibration ends and `ready` is
set, each in its order; the floor rises to the image's `svn`. -/
def Obligations.StartSequence : Prop :=
  (∀ (s : State) (now : Nat), s.mainReset = false → s.coll.init = false → s.coll.early = [] →
    ∃ t, exec (.faultCollectorInitialised now) s = .next t ∧ t = { s with aon := t.aon, coll := { s.coll with init := true, early := [] } })
  ∧ (∀ (s : State) (now : Nat), starting s = true → s.life.entryWritten = true → s.life.authOk = false →
    imageStatus s.life s.life.image = 0 →
    ∃ t, exec (.imageAuthenticated now) s = .next t ∧ t.coll = s.coll
      ∧ t.life = { s.life with authOk := true, runImage := s.life.image, fwVer := fld s.life.image 8 4, attestKey := s.life.hasIdentity && s.life.lc != 5 }
      ∧ (∀ d, d < dies s.variant → (t.rail d).request.isSome = true ∨ (t.rail d).level = some 800))
  ∧ (∀ (s : State) (now : Nat), starting s = true → s.life.entryWritten = true → s.life.authOk = false → s.coll.init = true →
    imageStatus s.life s.life.image ≠ 0 →
    ∃ t, exec (.imageAuthenticated now) s = .next t ∧ t.life.startFailed = some 1 ∧ (0xAA02 : Code) ∈ t.coll.log ∧ t.life.authOk = false)
  ∧ (∀ (s : State) (now factor : Nat), starting s = true → s.life.authOk = true → s.life.bistDone = true → s.life.calibrated = false →
    (∀ e ∈ s.rails, e.2.request = none) →
    ∃ t, exec (.calibrationDone now factor) s = .next t ∧ t.life = { s.life with calibrated := true, energyFactor := factor }
      ∧ (∀ d, d < dies s.variant → (t.rail d).request = some 600 ∨ (t.rail d).level = some 600)
      ∧ (∀ e, (s.tile e).withdrawn = 0 → (t.tile e).clock = 0))
  ∧ (∀ (s : State) (now : Nat), starting s = true → s.life.authOk = true → s.life.bistDone = true → s.life.calibrated = true →
    time (advance s now) ≤ 2000000000 + s.life.startAt → s.life.warm = false →
    ∃ t, exec (.mbxReady now) s = .next t ∧ ready t = true ∧ t.life.starting = false
      ∧ t.life.svnFloor = max s.life.svnFloor (imageSvn s.life.runImage) ∧ t.power.limit = maxPower s.variant
      ∧ t.power.admitting = true ∧ (t.window 0x3FF).isOpen = true ∧ t.coll.watchdog = time t ∧ t.coll.log = s.coll.log)

/-- R432, R451: the collector's own block reset comes 1 ms after the first latch and reports cause 4 with its code; a scheduled one
comes when it is due and reports its cause. With BLK_RESET_N low the block stays in it. -/
def Obligations.InternalBlockResets : Prop :=
  (∀ (s : State) (now : Nat), aonUp s = true → s.mainReset = false → s.aon.blkResetN = false → s.coll.resetPending = true →
    1000000 + s.coll.fatalAt ≤ time (advance s now) →
    ∃ t, exec (.fatalBlockReset now) s = .next t ∧ BlockReset s t ∧ t.life.nextCause = 4 ∧ t.life.nextCode = s.coll.fatalCode
      ∧ t.coll = { log := s.coll.log })
  ∧ (∀ (s : State) (now at_ : Nat), s.mainReset = false → s.aon.blkResetN = false → s.life.resetAt = some at_ → at_ ≤ time (advance s now) →
    ∃ t, exec (.blockResetBegin now) s = .next t ∧ BlockReset s t ∧ t.life.nextCause = s.life.resetCause ∧ t.coll = { log := s.coll.log })
  ∧ (∀ (s : State) (now : Nat), aonUp s = true → s.mainReset = false → s.aon.blkResetN = true → s.aon.refclk = true → s.aon.pwrGood = true →
    s.aon.needBlkCycle = false → s.coll.resetPending = true → 1000000 + s.coll.fatalAt ≤ time (advance s now) →
    ∃ t, exec (.fatalBlockReset now) s = .next t ∧ t.mainReset = false ∧ t.life.cause = 4 ∧ t.life.code = s.coll.fatalCode
      ∧ t.life.startAt = time t ∧ t.parts = [] ∧ t.steps = [] ∧ t.coll.log = s.coll.log ∧ t.coll.freeze = false)

/-- R525, R526: sleep entry arms comparator 12, marks sleep, takes the link ports down and gives the rails up; a wake source pulls
WAKE_N low while the main domain is down, and is kept during entry. -/
def Obligations.SleepAndWake : Prop :=
  (∀ (s : State) (now : Nat), ready s = true → s.power.entering = true → (s.func 0).rsps = [] → (s.func 0).taken = [] →
    ∃ t, exec (.sleepEntry now) s = .next t ∧ t.aon.asleep = true ∧ t.aon.retention = true ∧ t.mainReset = true ∧ t.life.ready = false
      ∧ t.out = .railsOff :: s.out ∧ (∀ p, (t.port p).up = false) ∧ t.aon.sleepImage = s.life.runImage
      ∧ (s.power.wakeTime ≠ 0 → tget t.aon.cmps 12 {} = { value := s.power.wakeTime, armed := true, fired := false, wake := true })
      ∧ (s.power.wakeTime = 0 → t.aon.cmps = s.aon.cmps)
      ∧ t.parts = s.parts ∧ t.ctxs = s.ctxs ∧ t.queues = s.queues ∧ t.hbm = s.hbm ∧ t.funcs = s.funcs)
  ∧ (∀ (s : State) (now : Nat) (i3c : Bool), aonUp s = true → (i3c = true ∨ s.aon.cmps.any (fun c => c.2.fired && c.2.wake) = true) →
    ∃ t, exec (.wake now i3c) s = .next t
      ∧ (s.mainReset = true → t = { s with aon := t.aon } ∧ t.aon.wakeN = false)
      ∧ (s.mainReset = false → s.power.entering = true → t = { s with aon := t.aon, power := { s.power with wakePending := true } })
      ∧ (s.mainReset = false → s.power.entering = false → t = { s with aon := t.aon }))

/-! ### Skein code on a tile -/

/-- R65, R69, R191, R196, R197, R199, R305: what issue itself does, and the control and scalar operations: NOP changes nothing
else; SKIPZ and SKIPNZ drop the next `n` instructions when the scalar is zero, or is not; SETI, PRED and STAT write one
scalar; END frees the tile and leaves the skein's tail open, and with the last skein's END the step has stopped issuing. -/
def Obligations.ControlAndScalars : Prop :=
  (∀ (s : State) (t : Nat) (i : SkInsn) (r : SkeinRun) (st : Step), isFetch i = false → Issues s t i r st →
    OnlyRun s (noteIssue s t i r st) t r st
      { consumed r with matWin := r.matWin || onMatrix i, vecWin := r.vecWin || onVector i })
  ∧ (∀ (s : State) (t : Nat) (r : SkeinRun) (st : Step), Issues s t .nop r st →
    ∃ u, exec (.nop t) s = .next u ∧ OnlyRun s u t r st (consumed r))
  ∧ (∀ (s : State) (t sc n : Nat) (r : SkeinRun) (st : Step), Issues s t (.skipz sc n) r st →
    ∃ u, exec (.skipz t sc n) s = .next u
      ∧ OnlyRun s u t r st { consumed r with code := if sreg r sc = 0 then r.code.drop (n + 1) else r.code.drop 1 })
  ∧ (∀ (s : State) (t sc n : Nat) (r : SkeinRun) (st : Step), Issues s t (.skipnz sc n) r st →
    ∃ u, exec (.skipnz t sc n) s = .next u
      ∧ OnlyRun s u t r st { consumed r with code := if sreg r sc = 0 then r.code.drop 1 else r.code.drop (n + 1) })
  ∧ (∀ (s : State) (t d : Nat) (v : BitVec 32) (r : SkeinRun) (st : Step), Issues s t (.seti d v) r st →
    ∃ u, exec (.seti t d v) s = .next u ∧ OnlyRun s u t r st { consumed r with scalars := tput r.scalars d v })
  ∧ (∀ (s : State) (t d : Nat) (r : SkeinRun) (st : Step), Issues s t (.pred d) r st →
    ∃ u, exec (.pred t d) s = .next u
      ∧ OnlyRun s u t r st { consumed r with scalars := tput r.scalars d (BitVec.ofNat 32 r.tokens) })
  ∧ (∀ (s : State) (t d : Nat) (r : SkeinRun) (st : Step), Issues s t (.stat d) r st →
    ∃ u, exec (.stat t d) s = .next u ∧ OnlyRun s u t r st { consumed r with scalars := tput r.scalars d (r.conv.setWidth 32) })
  ∧ (∀ (s : State) (t : Nat) (r : SkeinRun) (st : Step), Issues s t .fin r st →
    (st.state ≠ 3 ∨ ∃ k, k < (stepFile s st).skeins.length ∧ k ≠ r.skein ∧ skPast s st k = false) →
    ∃ u, exec (.fin t) s = .next u ∧ (∀ k, k ≠ t → u.tile k = s.tile k) ∧ IssueFrame s u r.slot st.part
      ∧ u.tile t = { s.tile t with run := none, tails := (s.tile t).tails ++ [{ consumed r with ended := true }], gated := false }
      ∧ tfind u.steps r.slot = some { stepAfter s r st with skeins := tput st.skeins r.skein 3 })
  ∧ (∀ (s : State) (t : Nat) (r : SkeinRun) (st : Step), Issues s t .fin r st → st.state = 3 →
    (∀ k, k < (stepFile s st).skeins.length → k ≠ r.skein → skPast s st k = true) →
    ∃ u st', exec (.fin t) s = .next u ∧ (u.tile t).run = none
      ∧ (u.tile t).tails = (s.tile t).tails ++ [{ consumed r with ended := true }] ∧ (u.part st.part).running ≠ some r.slot
      ∧ tfind u.steps r.slot = some st' ∧ st'.state = 5 ∧ st'.lastRan = some (time s) ∧ st'.skeins = tput st.skeins r.skein 3
      ∧ st'.fail = st.fail ∧ u.funcs = s.funcs ∧ ∀ k, k ≠ r.slot → tfind u.steps k = tfind s.steps k)

/-- R53, R69, R114, R115, R191: VOP computes each value of its lane type by itself, 128 of 32 bits or 256 of 16 bits, and writes one
vector register; VFN computes 128 values (the bound of the functions is log 12); VRED leaves the tree's result in lane 0 and +0 in
every other (R117). The sticky conversion status gathers what each value raised (R109). -/
def Obligations.VectorArithmetic : Prop :=
  (∀ (s : State) (t fn x y z d rel : Nat) (r : SkeinRun) (st : Step), Issues s t (.vop fn 0 x y z d rel) r st →
    ∃ u r', exec (.vop t fn 0 x y z d rel) s = .next u ∧ OnlyRun s u t r st r' ∧ (∀ e, e ≠ d → vreg r' e = vreg r e)
      ∧ r' = { vecRun r with vregs := r'.vregs, conv := r'.conv }
      ∧ (∀ k, k < 128 → nth (vreg r' d) k 0 = BitVec.ofNat 32 (vopFloat fn 0 0 rel (nth (vreg r x) k 0).toNat
          (nth (vreg r y) k 0).toNat (nth (vreg r z) k 0).toNat).1)
      ∧ r.conv &&& r'.conv = r.conv)
  ∧ (∀ (s : State) (t fn lane x y z d rel : Nat) (r : SkeinRun) (st : Step), (lane = 1 ∨ lane = 2) →
    Issues s t (.vop fn lane x y z d rel) r st →
    ∃ u r', exec (.vop t fn lane x y z d rel) s = .next u ∧ OnlyRun s u t r st r' ∧ (∀ e, e ≠ d → vreg r' e = vreg r e)
      ∧ r' = { vecRun r with vregs := r'.vregs, conv := r'.conv }
      ∧ (∀ k, k < 128 → nth (vreg r' d) k 0 = BitVec.ofNat 32
          ((vopFloat fn lane lane rel ((nth (vreg r x) k 0).toNat % 65536) ((nth (vreg r y) k 0).toNat % 65536)
              ((nth (vreg r z) k 0).toNat % 65536)).1 % 65536
            + 65536 * ((vopFloat fn lane lane rel ((nth (vreg r x) k 0).toNat / 65536) ((nth (vreg r y) k 0).toNat / 65536)
              ((nth (vreg r z) k 0).toNat / 65536)).1 % 65536))))
  ∧ (∀ (s : State) (t fn x y z d rel : Nat) (r : SkeinRun) (st : Step), Issues s t (.vop fn 3 x y z d rel) r st →
    ∃ u r', exec (.vop t fn 3 x y z d rel) s = .next u ∧ OnlyRun s u t r st r' ∧ (∀ e, e ≠ d → vreg r' e = vreg r e)
      ∧ r' = { vecRun r with vregs := r'.vregs }
      ∧ (∀ k, k < 128 → nth (vreg r' d) k 0 = BitVec.ofNat 32 (vopInt fn rel (nth (vreg r x) k 0).toNat
          (nth (vreg r y) k 0).toNat (nth (vreg r z) k 0).toNat)))
  ∧ (∀ (s : State) (t fn x d : Nat) (r : SkeinRun) (st : Step), Issues s t (.vfn fn x d) r st →
    ∃ u r', exec (.vfn t fn x d) s = .next u ∧ OnlyRun s u t r st r' ∧ (∀ e, e ≠ d → vreg r' e = vreg r e)
      ∧ r' = { vecRun r with vregs := r'.vregs, conv := r'.conv }
      ∧ (∀ k, k < 128 → nth (vreg r' d) k 0 = (vecFn fn (nth (vreg r x) k 0)).1))
  ∧ (∀ (s : State) (t fn x d : Nat) (r : SkeinRun) (st : Step), Issues s t (.vred fn x d) r st →
    ∃ u r', exec (.vred t fn x d) s = .next u ∧ OnlyRun s u t r st r' ∧ (∀ e, e ≠ d → vreg r' e = vreg r e)
      ∧ r' = { vecRun r with vregs := r'.vregs, conv := r'.conv }
      ∧ nth (vreg r' d) 0 0 = (nth (pairTree (redOp fn) 7 ((List.range 128).map fun k => (nth (vreg r x) k 0, 0))) 0 (0, 0)).1
      ∧ (∀ k, 0 < k → nth (vreg r' d) k 0 = 0))

/-- R53, R62, R69, R99, R118, R128, R131: VLD puts the elements of the view into a register, in order from lane 0, and zero
into the values beyond them: unchanged in the lane's own format, INT32 accumulator words as FP32, else converted; a poisoned
operand fails the step instead. VST writes the register's values into the view, as plain elements, as blocks with their
scales, or as 2:4 values with metadata, and the map bits when asked, and nothing else, and leaves every register. Conversion
by VLD with `sat` = 0 is log 139. -/
def Obligations.VectorLoadsAndStores : Prop :=
  (∀ (s : State) (t a v lane rnd : Nat) (r : SkeinRun) (st : Step), Issues s t (.vld a v lane rnd) r st → Untraced s r st →
    let es := readView s t r.slot st a
    let i := (viewOf (stepFile s st) a).tensor
    let c := (tensorOf (stepFile s st) i).format
    es.any (·.2.2) = false →
    ∃ u r', exec (.vld t a v lane rnd) s = .next u ∧ (u.tile t).run = some r' ∧ IssueFrame s u r.slot st.part
      ∧ (∀ k, k ≠ t → u.tile k = s.tile k) ∧ u.hbm = s.hbm ∧ (u.tile t).scratch = (s.tile t).scratch
      ∧ (∀ e, e ≠ v → vreg r' e = vreg r e) ∧ r' = { vecRun r with vregs := r'.vregs, conv := r'.conv }
      ∧ (c = laneFmt lane → ¬ (c = 0 ∧ i ∈ st.intWords) → vreg r' v = ofLanes lane (es.map (·.1)) ∧ r'.conv = r.conv
          ∧ (u.tile t).lfsr = (s.tile t).lfsr)
      ∧ (c = 0 → laneFmt lane = 0 → i ∈ st.intWords → vreg r' v = ofLanes lane (es.map fun e =>
          (convElem 0 0 0 false (ofInt (BitVec.ofNat 32 e.1).toInt 0)).1) ∧ (u.tile t).lfsr = (s.tile t).lfsr)
      ∧ (c ≠ laneFmt lane → rnd ≠ 2 → vreg r' v = ofLanes lane (es.map fun e =>
          (convElem (laneFmt lane) rnd 0 false (decElem c e.1 e.2.1)).1) ∧ (u.tile t).lfsr = (s.tile t).lfsr)
      ∧ (c ≠ laneFmt lane → rnd = 2 → vreg r' v = ofLanes lane (es.zipIdx.map fun e =>
          (convElem (laneFmt lane) 2 (nth (lfsrGroups (s.tile t).lfsr es.length).1 e.2 0) false (decElem c e.1.1 e.1.2.1)).1)
          ∧ (u.tile t).lfsr = (lfsrGroups (s.tile t).lfsr es.length).2))
  ∧ (∀ (s : State) (t a v lane rnd : Nat) (r : SkeinRun) (st : Step), Issues s t (.vld a v lane rnd) r st →
    (readView (noteIssue s t (.vld a v lane rnd) r st) t r.slot st a).any (·.2.2) = false →
    ∃ u r', exec (.vld t a v lane rnd) s = .next u ∧ (u.tile t).run = some r' ∧ IssueFrame s u r.slot st.part
      ∧ (∀ k, k ≠ t → u.tile k = s.tile k) ∧ (u.tile t).scratch = (s.tile t).scratch
      ∧ u.hbm = (noteIssue s t (.vld a v lane rnd) r st).hbm
      ∧ (∀ e, e ≠ v → vreg r' e = vreg r e) ∧ r' = { vecRun r with vregs := r'.vregs, conv := r'.conv })
  ∧ (∀ (s : State) (t a v lane rnd : Nat) (r : SkeinRun) (st : Step), Issues s t (.vld a v lane rnd) r st → Undecided st →
    (readView (noteIssue s t (.vld a v lane rnd) r st) t r.slot st a).any (·.2.2) = true → s.coll.init = true → t < 2048 →
    ∃ u, exec (.vld t a v lane rnd) s = .next u ∧ FailsWith u r.slot 0x0C01 ∧ mkCode 2 (tileDie t) 0x02 ∈ u.coll.log)
  ∧ (∀ (s : State) (t d v lane rnd : Nat) (sat maps : Bool) (r : SkeinRun) (st : Step),
    Issues s t (.vst d v lane rnd sat false maps) r st →
    let w := viewOf (stepFile s st) d
    let x := tensorOf (stepFile s st) w.tensor
    let s1 := noteIssue s t (.vst d v lane rnd sat false maps) r st
    let vs := (laneVals lane (vreg r v)).take (viewCount w)
    isBlock x.format = false →
    let o := storePlain x w lane rnd sat (drawGroups s t (if x.format = laneFmt lane then 0 else rnd) vs.length).1 vs
    ∃ u, exec (.vst t d v lane rnd sat false maps) s = .next u ∧ IssueFrame s u r.slot st.part
      ∧ Stores s1 u t r.slot st (o.puts ++ (if maps then mapPuts x w o.vals else []))
      ∧ (Untraced s r st → Stores s u t r.slot st (o.puts ++ (if maps then mapPuts x w o.vals else [])))
      ∧ (u.tile t).run = some (orConv (vecRun r) o.conv) ∧ (∀ k, k ≠ t → SameWork (u.tile k) (s.tile k))
      ∧ (∀ p b, maps = false → tensorPlace u r.slot st w.tensor = .hbm p b →
          u.hbm = mbits s1.hbm (hbmAddr p b) (o.puts.map fun e => (e.off, e.width, e.val))))
  ∧ (∀ (s : State) (t d v lane rnd : Nat) (sat maps : Bool) (r : SkeinRun) (st : Step),
    Issues s t (.vst d v lane rnd sat true maps) r st →
    let w := viewOf (stepFile s st) d
    let x := tensorOf (stepFile s st) w.tensor
    let vs := (laneVals lane (vreg r v)).take (viewCount w)
    let o := storeSparse x w lane rnd sat (drawGroups s t (if x.format = laneFmt lane then 0 else rnd) (vs.length / 2)).1 vs
    let puts := o.puts ++ (if maps then mapPuts x w o.vals else [])
    ∃ u, exec (.vst t d v lane rnd sat true maps) s = .next u ∧ IssueFrame s u r.slot st.part
      ∧ Stores (noteIssue s t (.vst d v lane rnd sat true maps) r st) u t r.slot st puts
      ∧ (Untraced s r st → Stores s u t r.slot st puts)
      ∧ (u.tile t).run = some (orConv (vecRun r) o.conv) ∧ (∀ k, k ≠ t → SameWork (u.tile k) (s.tile k)))
  ∧ (∀ (s : State) (t d v lane rnd : Nat) (sat maps : Bool) (r : SkeinRun) (st : Step),
    Issues s t (.vst d v lane rnd sat false maps) r st →
    let w := viewOf (stepFile s st) d
    let x := tensorOf (stepFile s st) w.tensor
    let vs := (laneVals lane (vreg r v)).take (viewCount w)
    isBlock x.format = true →
    let o := storeBlocks x w.tensor (blockLen x.format) lane rnd
      (drawGroups s t (if x.format = laneFmt lane then 0 else rnd) vs.length).1 vs
      ((coords w).map fun c => (linIdx x c * fmtBits x.format, scaleIdx x c))
    let puts := o.puts ++ (if maps then mapPuts x w o.vals else [])
    ∃ u, exec (.vst t d v lane rnd sat false maps) s = .next u ∧ IssueFrame s u r.slot st.part
      ∧ Stores (noteIssue s t (.vst d v lane rnd sat false maps) r st) u t r.slot st puts
      ∧ (Untraced s r st → Stores s u t r.slot st puts)
      ∧ (u.tile t).run = some (orConv (vecRun r) o.conv) ∧ (∀ k, k ≠ t → SameWork (u.tile k) (s.tile k)))

/-- R43, R47, R62, R69, R118, R127: a pass writes one accumulator bank and reads memory only; a poisoned operand fails the
step with a fault of the tile and an invalid nibble fails it with 0x0401, whichever comes first in K; a drain writes the
rounded words of its bank into its view and leaves both banks. -/
def Obligations.MatrixPasses : Prop :=
  (∀ (s : State) (t a b bank bound : Nat) (clear bounded : Bool) (r : SkeinRun) (st : Step),
    Issues s t (.mma a b bank clear bounded bound) r st → Untraced s r st →
    let rows := extV (viewOf (stepFile s st) a) 1
    let x := passOf s t r.slot st a b (if bounded then min rows (sreg r bound).toNat else rows)
    let q := runPass x (if clear then [] else tget r.acc bank [])
    firstPoison x = none → firstBadNibble x = none →
      ∃ u r', exec (.mma t a b bank clear bounded bound) s = .next u ∧ (u.tile t).run = some r' ∧ IssueFrame s u r.slot st.part
        ∧ (∀ k, k ≠ t → u.tile k = s.tile k) ∧ u.hbm = s.hbm ∧ (u.tile t).scratch = (s.tile t).scratch
        ∧ tget r'.acc bank [] = q.1 ∧ tget r'.intForm bank false = x.int
        ∧ (∀ k, k ≠ bank → tget r'.acc k [] = tget r.acc k [] ∧ tget r'.intForm k false = tget r.intForm k false)
        ∧ r' = { matRun r with acc := r'.acc, intForm := r'.intForm, conv := r.conv ||| BitVec.ofNat 8 q.2 })
  ∧ (∀ (s : State) (t a b bank bound : Nat) (clear bounded : Bool) (r : SkeinRun) (st : Step),
    Issues s t (.mma a b bank clear bounded bound) r st →
    let s1 := noteIssue s t (.mma a b bank clear bounded bound) r st
    let rows := extV (viewOf (stepFile s st) a) 1
    let x := passOf s1 t r.slot st a b (if bounded then min rows (sreg r bound).toNat else rows)
    let q := runPass x (if clear then [] else tget r.acc bank [])
    (firstPoison x = none → firstBadNibble x = none →
      ∃ u r', exec (.mma t a b bank clear bounded bound) s = .next u ∧ (u.tile t).run = some r' ∧ IssueFrame s u r.slot st.part
        ∧ (∀ k, k ≠ t → u.tile k = s.tile k) ∧ u.hbm = s1.hbm ∧ (u.tile t).scratch = (s.tile t).scratch
        ∧ tget r'.acc bank [] = q.1 ∧ tget r'.intForm bank false = x.int
        ∧ (∀ k, k ≠ bank → tget r'.acc k [] = tget r.acc k [] ∧ tget r'.intForm k false = tget r.intForm k false)
        ∧ r' = { matRun r with acc := r'.acc, intForm := r'.intForm, conv := r.conv ||| BitVec.ofNat 8 q.2 })
    ∧ (∀ k, firstPoison x = some k → (∀ n, firstBadNibble x = some n → k < n + 4) → Undecided st → s.coll.init = true → t < 2048 →
      ∃ u, exec (.mma t a b bank clear bounded bound) s = .next u ∧ FailsWith u r.slot 0x0C01
        ∧ mkCode 2 (tileDie t) 0x02 ∈ u.coll.log)
    ∧ (∀ n, firstBadNibble x = some n → (∀ k, firstPoison x = some k → n + 4 ≤ k) → Undecided st →
      ∃ u, exec (.mma t a b bank clear bounded bound) s = .next u ∧ FailsWith u r.slot 0x0401 ∧ u.coll = s.coll))
  ∧ (∀ (s : State) (t d bank rnd shift : Nat) (sat : Bool) (r : SkeinRun) (st : Step), Issues s t (.drain d bank rnd sat shift) r st →
    let v := viewOf (stepFile s st) d
    let x := tensorOf (stepFile s st) v.tensor
    let int := tget r.intForm bank false
    let gs := (drawGroups s t (if x.format = 0 then 0 else rnd) (drainCells v).length).1
    let puts := (drainCells v).zipIdx.map fun c =>
      ({ tensor := v.tensor, off := linIdx x (nth (coords v) c.1.1 (0, 0, 0, 0)) * fmtBits x.format, width := fmtBits x.format,
         val := (drainWord x.format rnd (nth gs c.2 0) sat int shift (tget (tget r.acc bank []) c.1.2 0)).1 } : Put)
    ∃ u r' st', exec (.drain t d bank rnd sat shift) s = .next u ∧ (u.tile t).run = some r' ∧ r' = { matRun r with conv := r'.conv }
      ∧ IssueFrame s u r.slot st.part ∧ (∀ k, k ≠ t → SameWork (u.tile k) (s.tile k))
      ∧ Stores (noteIssue s t (.drain d bank rnd sat shift) r st) u t r.slot st puts
      ∧ (Untraced s r st → Stores s u t r.slot st puts)
      ∧ tfind u.steps r.slot = some st' ∧ (v.tensor ∈ st'.intWords ↔ x.format = 0 ∧ int = true)
      ∧ (∀ p b, tensorPlace u r.slot st v.tensor = .hbm p b →
          u.hbm = mbits (noteIssue s t (.drain d bank rnd sat shift) r st).hbm (hbmAddr p b) (puts.map fun e => (e.off, e.width, e.val))))

/-- R131, R198, R562: SST stores the scalar's 32 bits, DIGEST the digest of the view's string into the first 8 bytes of `d`,
MAPCLR ones into both planes; each writes nowhere else and leaves the registers. -/
def Obligations.ScalarStoresDigestsAndMaps : Prop :=
  (∀ (s : State) (t sc off d : Nat) (r : SkeinRun) (st : Step), Issues s t (.sst sc off d) r st →
    let v := viewOf (stepFile s st) d
    let x := tensorOf (stepFile s st) v.tensor
    let s1 := noteIssue s t (.sst sc off d) r st
    let e : Put :=
      { tensor := v.tensor, off := 32 * linIdx x (nth (coords v) (off / 4) (0, 0, 0, 0)), width := 32,
        val := (sreg r sc).toNat }
    ∃ u, exec (.sst t sc off d) s = .next u ∧ IssueFrame s u r.slot st.part ∧ Stores s1 u t r.slot st [e]
      ∧ (u.tile t).run = some (consumed r) ∧ (∀ k, k ≠ t → SameWork (u.tile k) (s.tile k))
      ∧ (Placed s1 t r.slot st v.tensor → bitsAt u t r.slot st e = (sreg r sc).toNat))
  ∧ (∀ (s : State) (t a d : Nat) (r : SkeinRun) (st : Step), Issues s t (.digest a d) r st → Untraced s r st →
    Clean s t r.slot st a →
    let f := stepFile s st
    let src := readStored s t r.slot st a
    let n := (primaryBits (tensorOf f (viewOf f a).tensor) (viewOf f a)).length
    let k := (metaBits (tensorOf f (viewOf f a).tensor) (viewOf f a)).length
    let str := packBits ((src.take n).map fun e => (e.1, e.2.1)) ++ packBits (((src.drop n).take k).map fun e => (e.1, e.2.1))
      ++ packBits ((src.drop (n + k)).map fun e => (e.1, e.2.1))
    let puts := landPuts (takeBits 64 (viewBits f d)) (toLe 8 (crc64 str).toNat) []
    ∃ u, exec (.digest t a d) s = .next u ∧ IssueFrame s u r.slot st.part ∧ Stores s u t r.slot st puts
      ∧ (u.tile t).run = some (consumed r) ∧ (∀ k, k ≠ t → SameWork (u.tile k) (s.tile k))
      ∧ (Apart u t r.slot st puts → (∀ e ∈ puts, Placed s t r.slot st e.tensor) → sumNat (puts.map (·.width)) = 64 →
          packBits (puts.map fun e => (e.width, bitsAt u t r.slot st e)) = toLe 8 (crc64 str).toNat))
  ∧ (∀ (s : State) (t a d : Nat) (r : SkeinRun) (st : Step), Issues s t (.digest a d) r st → Undecided st →
    ¬ Clean (noteIssue s t (.digest a d) r st) t r.slot st a → s.coll.init = true → t < 2048 →
    ∃ u, exec (.digest t a d) s = .next u ∧ FailsWith u r.slot 0x0C01 ∧ mkCode 2 (tileDie t) 0x02 ∈ u.coll.log)
  ∧ (∀ (s : State) (t a d : Nat) (r : SkeinRun) (st : Step), Issues s t (.digest a d) r st →
    Clean (noteIssue s t (.digest a d) r st) t r.slot st a →
    ∃ u bs, exec (.digest t a d) s = .next u ∧ IssueFrame s u r.slot st.part
      ∧ Stores (noteIssue s t (.digest a d) r st) u t r.slot st (landPuts (takeBits 64 (viewBits (stepFile s st) d)) bs [])
      ∧ (u.tile t).run = some (consumed r) ∧ (∀ k, k ≠ t → SameWork (u.tile k) (s.tile k)))
  ∧ (∀ (s : State) (t d : Nat) (r : SkeinRun) (st : Step), Issues s t (.mapclr d) r st →
    let v := viewOf (stepFile s st) d
    let x := tensorOf (stepFile s st) v.tensor
    let s1 := noteIssue s t (.mapclr d) r st
    let puts := (((coords v).map (mapIdx x)).dedup).flatMap fun i =>
      [({ tensor := x.zmap, off := i, width := 1, val := 1 } : Put), { tensor := x.fmap, off := i, width := 1, val := 1 }]
    ∃ u, exec (.mapclr t d) s = .next u ∧ IssueFrame s u r.slot st.part ∧ Stores s1 u t r.slot st puts
      ∧ (u.tile t).run = some (consumed r) ∧ (∀ k, k ≠ t → SameWork (u.tile k) (s.tile k))
      ∧ (Placed s1 t r.slot st x.zmap → Placed s1 t r.slot st x.fmap → ∀ e ∈ puts, bitsAt u t r.slot st e = 1))

/-- R139, R156, R193 to R195, R203, R389, R407, R408, R449: a copy within this package writes the stored bits of its source,
with their poison, into the destination at once; one with another member becomes a remote operation that the skein waits for,
a FETCH's request and a SEND's data waiting at the port of the route's first hop. A collective reads its source and gives a plan for each direction
of its ring to the reducer of the port at which that ring's data arrives, or to spindle firmware where no reducer takes it.
With no legal route the step fails. A SORT becomes a request that a sorter of the partition with room takes, and that waits
while none has any; a poisoned descriptor, or every sorter withdrawn until block reset, fails the step. That the descriptor is
read at issue is log 149. -/
def Obligations.CopiesCollectivesAndSorts : Prop :=
  (∀ (s : State) (t a d member : Nat) (r : SkeinRun) (st : Step), Issues s t (.fetch a d member) r st →
    memberOf s st (stepFile s st).req.members member = none →
    let s1 := noteIssue s t (.fetch a d member) r st
    exec (.fetch t a d member) s = .next (copyView s1 t r.slot st a d)
    ∧ (Untraced s r st → Clean s t r.slot st a →
      ∃ u, exec (.fetch t a d member) s = .next u ∧ IssueFrame s u r.slot st.part
        ∧ Stores s u t r.slot st (copyPuts (stepFile s st) d (readStored s t r.slot st a))
        ∧ (u.tile t).run = some { r with code := r.code.drop 1 } ∧ (∀ k, k ≠ t → SameWork (u.tile k) (s.tile k)))
    ∧ (Untraced s r st → ¬ Clean s t r.slot st a → t < 2048 →
      ∃ u st', exec (.fetch t a d member) s = .next u
        ∧ Stores s u t r.slot st (copyPuts (stepFile s st) d (readStored s t r.slot st a))
        ∧ tfind u.steps r.slot = some st' ∧ st'.fail = st.fail ∧ (u.tile t).run = some { r with code := r.code.drop 1 }))
  ∧ (∀ (s : State) (t a d member m p : Nat) (r : SkeinRun) (st : Step), Issues s t (.fetch a d member) r st →
    memberOf s st (stepFile s st).req.members member = some m → memberPort s (jobIdx st) m = some p →
    let pkg := ((s.job (jobIdx st)).members.getD m {}).pkg
    ∃ u qp, exec (.fetch t a d member) s = .next u
      ∧ ((s.part st.part).trace.on = false → u.hbm = s.hbm)
      ∧ (u.tile t).run = some { r with code := r.code.drop 1, fetchOut := r.fetchOut + 1 } ∧ (∀ k, k ≠ t → u.tile k = s.tile k)
      ∧ u.remOps = s.remOps ++
        [{ id := s.opNext, slot := r.slot, tile := t, skein := r.skein, kind := 0, member := m, dst := d,
           want := bitsLen (readStored s t r.slot st d), qp, port := p, last := time s }]
      ∧ (∀ e ∈ u.windows, e.2.isOpen = true → e.2.job = jobIdx st → qp ∈ e.2.qps)
      ∧ (∃ st', tfind u.steps r.slot = some st' ∧ st'.requests = st.requests + 1 ∧ st'.skeins = st.skeins)
      ∧ (Waits s p → pkg ≠ myPkg s → IssueFrame s u r.slot st.part
        ∧ ∃ c x, (u.port p).txq = (s.port p).txq ++ [c] ∧ c.ctl = some (.ctl pkg (.fetch x)) ∧ x.qp = qp
          ∧ x.job = jobHandle s (jobIdx st) ∧ x.member = ownMember s st
          ∧ x.ranges = askRanges (stepFile s st) (viewBits (stepFile s st) a)))
  ∧ (∀ (s : State) (t a d member : Nat) (r : SkeinRun) (st : Step), Issues s t (.send a d member) r st →
    memberOf s st (stepFile s st).req.members member = none →
    let s1 := noteIssue s t (.send a d member) r st
    exec (.send t a d member) s = .next (copyView s1 t r.slot st a d)
    ∧ (Untraced s r st → Clean s t r.slot st a →
      ∃ u, exec (.send t a d member) s = .next u ∧ IssueFrame s u r.slot st.part
        ∧ Stores s u t r.slot st (copyPuts (stepFile s st) d (readStored s t r.slot st a))
        ∧ (u.tile t).run = some (consumed r) ∧ (∀ k, k ≠ t → SameWork (u.tile k) (s.tile k)))
    ∧ (Untraced s r st → ¬ Clean s t r.slot st a → t < 2048 →
      ∃ u st', exec (.send t a d member) s = .next u
        ∧ Stores s u t r.slot st (copyPuts (stepFile s st) d (readStored s t r.slot st a))
        ∧ tfind u.steps r.slot = some st' ∧ st'.fail = st.fail ∧ (u.tile t).run = some (consumed r)))
  ∧ (∀ (s : State) (t a d member m p : Nat) (r : SkeinRun) (st : Step), Issues s t (.send a d member) r st → t < 2048 →
    memberOf s st (stepFile s st).req.members member = some m → memberPort s (jobIdx st) m = some p →
    ∃ u op st', exec (.send t a d member) s = .next u ∧ u.remOps = s.remOps ++ [op] ∧ op.kind = 1 ∧ op.member = m ∧ op.port = p
      ∧ op.dst = d ∧ op.slot = r.slot ∧ op.tile = t ∧ op.skein = r.skein ∧ op.id = s.opNext
      ∧ ((s.part st.part).trace.on = false → u.hbm = s.hbm)
      ∧ (u.tile t).run = some { consumed r with opsOut := r.opsOut + 1 } ∧ (∀ k, k ≠ t → u.tile k = s.tile k)
      ∧ tfind u.steps r.slot = some st' ∧ st'.requests = st.requests + 1
      ∧ (Waits s p → Clean s t r.slot st a → (s.part st.part).trace.on = false → IssueFrame s u r.slot st.part
          ∧ ∃ w, (u.port p).txq = (s.port p).txq ++ dataMsgs (2048 + tileDie t) op.qp 0 w st.part (tget (s.job (jobIdx st)).routes m [])
              (runsOf (stepFile s st) ((viewBits (stepFile s st) d).zip (readStored s t r.slot st a))) (some r.slot)))
  ∧ (∀ (s : State) (t a d member m : Nat) (r : SkeinRun) (st : Step), memberOf s st (stepFile s st).req.members member = some m →
    memberPort s (jobIdx st) m = none → Undecided st → s.coll.init = true →
    (Issues s t (.fetch a d member) r st →
      ∃ u, exec (.fetch t a d member) s = .next u ∧ FailsWith u r.slot 0x0B03 ∧ (0xA804 : Code) ∈ u.coll.log)
    ∧ (Issues s t (.send a d member) r st →
      ∃ u, exec (.send t a d member) s = .next u ∧ FailsWith u r.slot 0x0B03 ∧ (0xA804 : Code) ∈ u.coll.log))
  ∧ (∀ (s : State) (t a d pattern red first count root p p' : Nat) (r : SkeinRun) (st : Step),
    Issues s t (.coll a d pattern red first count root) r st → t < 2048 →
    let f := stepFile s st
    let own := ownMember s st - first
    let next := first + (own + 1) % max 1 count
    let prev := first + (own + count - 1) % max 1 count
    memberPort s (jobIdx st) next = some p → memberPort s (jobIdx st) prev = some p' →
    let i := inPort s (jobIdx st) prev
    let i' := inPort s (jobIdx st) next
    let k := f.skeins.length + 2 * collNumber f r.skein (r.code.drop 1).length
    let q : Plan := { slot := r.slot, tile := t, skein := r.skein, op := s.opNext, deadline := st.deadline, part := st.part, added := k }
    let q' : Plan := { q with rev := true, added := k + 1 }
    let here := fun i => fullUnits s.variant = true ∧ i ∉ (s.part st.part).lowered
    ∃ u op st', exec (.coll t a d pattern red first count root) s = .next u
      ∧ u.remOps = s.remOps ++ [op] ∧ op.kind = 2 ∧ op.member = next ∧ op.port = p ∧ op.id = s.opNext ∧ op.slot = r.slot ∧ op.dst = d
      ∧ (Untraced s r st → ∃ w, op.coll = some (collOf s t r.slot st a d pattern red first count root w))
      ∧ (u.tile t).run = some { consumed r with opsOut := r.opsOut + 1 } ∧ (∀ k, k ≠ t → u.tile k = s.tile k)
      ∧ tfind u.steps r.slot = some st' ∧ st'.requests = st.requests + 1
      ∧ (here i → q ∈ (u.reducer i).plans) ∧ (here i' → q' ∈ (u.reducer i').plans)
      ∧ (¬ here i → q ∈ u.addedWork) ∧ (¬ here i' → q' ∈ u.addedWork)
      ∧ (∀ k, k ≠ i → k ≠ i' → u.reducer k = s.reducer k)
      ∧ (here i → i ≠ i' → (u.reducer i).plans = (s.reducer i).plans ++ [q])
      ∧ (here i' → i ≠ i' → (u.reducer i').plans = (s.reducer i').plans ++ [q'])
      ∧ (Untraced s r st → Clean s t r.slot st a → IssueFrame s u r.slot st.part))
  ∧ (∀ (s : State) (t a d pattern red first count root : Nat) (r : SkeinRun) (st : Step),
    Issues s t (.coll a d pattern red first count root) r st →
    (memberPort s (jobIdx st) (first + (ownMember s st - first + 1) % max 1 count) = none
      ∨ memberPort s (jobIdx st) (first + (ownMember s st - first + count - 1) % max 1 count) = none) → Undecided st → s.coll.init = true →
    ∃ u, exec (.coll t a d pattern red first count root) s = .next u ∧ FailsWith u r.slot 0x0B03 ∧ (0xA804 : Code) ∈ u.coll.log)
  ∧ (∀ (s : State) (t a idx : Nat) (r : SkeinRun) (st : Step), Issues s t (.sort a idx) r st → Untraced s r st → Clean s t r.slot st a →
    let q : SortReq :=
      { slot := r.slot, tile := t, skein := r.skein, idx, desc := packBits ((readStored s t r.slot st a).map fun e => (e.1, e.2.1)),
        deadline := st.deadline, part := st.part }
    ((∃ d ∈ partDies (s.part st.part), (s.sorter d).withdrawn ≠ 2) →
      ∃ u st', exec (.sort t a idx) s = .next u ∧ IssueFrame s u r.slot st.part ∧ u.hbm = s.hbm
        ∧ tfind u.steps r.slot = some st' ∧ st'.requests = st.requests + 1
        ∧ (q ∈ u.sortWait ∨ ∃ d ∈ partDies (s.part st.part), q ∈ (u.sorter d).reqs))
    ∧ ((∃ d ∈ partDies (s.part st.part), sorterRoom (s.sorter d) = true) → s.sortWait = [] →
      ∃ u d, exec (.sort t a idx) s = .next u ∧ d ∈ partDies (s.part st.part) ∧ sorterRoom (s.sorter d) = true
        ∧ (u.sorter d).reqs = (s.sorter d).reqs ++ [q] ∧ (∀ k, k ≠ d → u.sorter k = s.sorter k) ∧ u.sortWait = []
        ∧ (u.tile t).run = some (consumed r) ∧ ∀ k, k ≠ t → u.tile k = s.tile k)
    ∧ ((∀ d ∈ partDies (s.part st.part), sorterRoom (s.sorter d) = false) →
      (∃ d ∈ partDies (s.part st.part), (s.sorter d).withdrawn ≠ 2) →
      ∃ u, exec (.sort t a idx) s = .next u ∧ u.sortWait = s.sortWait ++ [q] ∧ u.sorters = s.sorters
        ∧ (u.tile t).run = some { consumed r with sortsOut := r.sortsOut + 1 }))
  ∧ (∀ (s : State) (t a idx : Nat) (r : SkeinRun) (st : Step), Issues s t (.sort a idx) r st → Undecided st →
    (¬ Clean (noteIssue s t (.sort a idx) r st) t r.slot st a → s.coll.init = true → t < 2048 →
      ∃ u, exec (.sort t a idx) s = .next u ∧ FailsWith u r.slot 0x0C01 ∧ mkCode 2 (tileDie t) 0x02 ∈ u.coll.log)
    ∧ (Clean (noteIssue s t (.sort a idx) r st) t r.slot st a → (∀ d ∈ partDies (s.part st.part), (s.sorter d).withdrawn = 2) →
      ∃ u, exec (.sort t a idx) s = .next u ∧ FailsWith u r.slot 0x0D06))

/-- R73, R149, R150, R154, R156, R195, R211 to R213, R218, R304, R305: an idle usable tile of the partition takes a skein that
may start; with every pinned granule unusable the step fails with 0x0611; a skein's completion, once its residue windows have
passed, marks it, and with no skein left to issue the step is RELEASING; the sorter takes the request of the earliest
deadline, refuses a bad descriptor, and its completion evaluates the local counts; the manifests of every source package
together give an expert's count. -/
def Obligations.SkeinsAndSorts : Prop :=
  (∀ (s : State) (now slot k t : Nat) (bases : List (Nat × Nat)) (st : Step), engines s = true → tfind s.steps slot = some st →
    mayStart s slot k st = true →
    (pinnedGranules s st (skeinOf (stepFile s st) k) = []
      ∨ tileGranule t ∈ pinnedGranules s st (skeinOf (stepFile s st) k)
        ∧ ∃ g ∈ pinnedGranules s st (skeinOf (stepFile s st) k), g ∉ s.badGranules) → tileOwner s t = some st.part →
    tileUsable s t = true → (s.tile t).run = none →
    (addBufs s t slot (stepFile s st) bases (skeinBufs (stepFile s st) (skeinOf (stepFile s st) k))).isSome = true →
    ∃ u r st', exec (.skeinPlace now slot k t bases) s = .next u ∧ (u.tile t).run = some r ∧ r.slot = slot ∧ r.skein = k
      ∧ r.code = (skeinOf (stepFile s st) k).code ∧ r.issued = false ∧ r.startAt = time u ∧ (u.tile t).gated = false
      ∧ (u.tile t).lfsrSlot = some slot ∧ (∀ e, e ≠ t → SameWork (u.tile e) (s.tile e) ∧ (u.tile e).scratch = (s.tile e).scratch)
      ∧ tfind u.steps slot = some st' ∧ st' = { st with skeins := tput st.skeins k 1 }
      ∧ (∀ i ∈ skeinBufs (stepFile s st) (skeinOf (stepFile s st) k), (bufBase (u.tile t) slot i).isSome = true))
  ∧ (∀ (s : State) (now slot k t : Nat) (bases : List (Nat × Nat)) (st : Step), engines s = true → tfind s.steps slot = some st →
    mayStart s slot k st = true → Undecided st → pinnedGranules s st (skeinOf (stepFile s st) k) ≠ [] →
    (∀ g ∈ pinnedGranules s st (skeinOf (stepFile s st) k), g ∈ s.badGranules) →
    ∃ u, exec (.skeinPlace now slot k t bases) s = .next u ∧ FailsWith u slot 0x0611)
  ∧ (∀ (s : State) (now t k : Nat) (r : SkeinRun) (st : Step), engines s = true →
    (s.tile t).tails.find? (fun r => r.skein == k && r.opsOut == 0 && r.sortsOut == 0 && !r.matWin && !r.vecWin) = some r →
    tfind s.steps r.slot = some st →
    ((∀ j n, st.job = some (j, n) → (s.job j).parts = []) →
      ∃ u st', exec (.skeinComplete now t k) s = .next u ∧ tfind u.steps r.slot = some st' ∧ tget st'.skeins k 0 = 4
        ∧ st'.conv = st.conv ||| r.conv ∧ (u.tile t).tails = (s.tile t).tails.erase r ∧ u.funcs = s.funcs
        ∧ (st.state ≠ 3 ∨ (∃ j, j < (stepFile s st).skeins.length ∧ j ≠ k ∧ (skState st j = 1 ∨ skState st j = 2) ∧ ownSkein s st j = true) →
            st'.state = st.state)
        ∧ (st.state = 3 → (∀ j, j ≠ k → j < (stepFile s st).skeins.length → skPast s st j = true) →
            st'.state = 5 ∧ st'.lastRan = some (time u) ∧ (u.part st.part).running ≠ some r.slot))
    ∧ ∃ u st', exec (.skeinComplete now t k) s = .next u ∧ tfind u.steps r.slot = some st' ∧ tget st'.skeins k 0 = 4)
  ∧ (∀ (s : State) (now die : Nat) (q : SortReq) (st : Step), engines s = true → (s.sorter die).withdrawn = 0 →
    (s.sorter die).testing = none → (s.sorter die).run = none →
    minBy (fun q => deadlineRank q.deadline) (s.sorter die).reqs = some q → tfind s.steps q.slot = some st →
    (sortStatus s q.part st.job (sortDesc q.desc) = 0 →
      ∃ u, exec (.sortStart now die) s = .next u ∧ u.steps = s.steps ∧ u.funcs = s.funcs
        ∧ u.sorter die = { s.sorter die with reqs := (s.sorter die).reqs.erase q, run := some q })
    ∧ (sortStatus s q.part st.job (sortDesc q.desc) ≠ 0 → q.skein ≠ 0xFFFF → Undecided st →
      ∃ u, exec (.sortStart now die) s = .next u ∧ (u.sorter die).run = none
        ∧ FailsWith u q.slot (BitVec.ofNat 16 (sortStatus s q.part st.job (sortDesc q.desc)))))
  ∧ (∀ (s : State) (now die : Nat) (q : SortReq) (st : Step), engines s = true → (s.sorter die).run = some q →
    tfind s.steps q.slot = some st → s.coll.inject = [] → q.skein ≠ 0xFFFF →
    let d := sortDesc q.desc
    let run := runSort s q.part d
    (sortPoisoned s q.part d = false → (s.part st.part).trace.on = false → st.job = none → d.home = 0 → d.experts ≤ 1024 →
      (s.ctx st.ctx).logOn = false → (s.part st.part).watch.staged = none → memWf s.hbm = true →
      ∃ u st', exec (.sortComplete now die) s = .next u ∧ (u.sorter die).run = none ∧ tfind u.steps q.slot = some st'
        ∧ (∀ e, e < d.experts → tfind st'.sortCounts (sortKey q.idx e) = some (tget run.counts e 0))
        ∧ hbmRead u q.part d.out 4 = toLe 4 run.placed.length ∧ hbmRead u q.part (d.out + 4) 4 = toLe 4 run.dropped
        ∧ (∀ a, (∀ k, k < bucketsOff d → a ≠ hbmAddr q.part (d.out + k)) → (∀ x ∈ run.placed, ∀ k, k < 8 →
            a ≠ hbmAddr q.part (d.out + bucketsOff d + 8 * (bucketStart d x.expert + x.pos) + k)) → mread u.hbm a = mread s.hbm a))
    ∧ (sortPoisoned s q.part d = false →
      ∃ u st', exec (.sortComplete now die) s = .next u ∧ (u.sorter die).run = none ∧ tfind u.steps q.slot = some st')
    ∧ (sortPoisoned s q.part d = true → Undecided st → s.coll.init = true →
      ∃ u, exec (.sortComplete now die) s = .next u ∧ FailsWith u q.slot 0x0C01 ∧ (0xA402 : Code) ∈ u.coll.log))
  ∧ (∀ (s : State) (now slot idx expert src n first : Nat) (st : Step), engines s = true → tfind s.steps slot = some st →
    let known := fun k => if k = src then some n else tfind st.manifests (manifestKey idx expert k)
    (expert < 1024 → src ∈ sourcePkgs s st → src ≠ myPkg s → max n 1 ≤ first + 5 →
      tfind st.manifests (manifestKey idx expert src) = none →
      ∃ u st', exec (.manifestArrival now slot idx expert ⟨src, n, first⟩) s = .next u ∧ tfind u.steps slot = some st'
        ∧ tfind st'.manifests (manifestKey idx expert src) = some n ∧ st'.fail = st.fail ∧ u.funcs = s.funcs
        ∧ ((∃ k ∈ sourcePkgs s st, known k = none) → st'.sortCounts = st.sortCounts)
        ∧ (∀ m, tfind st.sortExperts idx = some m → tfind st.sortCounts (sortKey idx expert) = none →
            (∀ k ∈ sourcePkgs s st, known k ≠ none) →
            tfind st'.sortCounts (sortKey idx expert) = some (sumNat ((sourcePkgs s st).map fun k => (known k).getD 0))
            ∧ ∀ j, j ≠ sortKey idx expert → tfind st'.sortCounts j = tfind st.sortCounts j))
    ∧ (tfind st.manifests (manifestKey idx expert src) ≠ none ∨ first + 5 < max n 1 →
      exec (.manifestArrival now slot idx expert ⟨src, n, first⟩) s = .next (advance s now)))

/-- R60, R63, R68, R69, R73, R75, R76, R82, R83: a comparison that passes closes its unit's window; a residue mismatch and an
oscillator out of lock each record a contained fault of the tile's die, fail the steps on the tile and reset it, in a global
stop only once it is released; an overrun of the bound fails the step; a single-bit error is counted and corrected, more bits
poison the word and fail nothing, and the scrubber wakes the tile; an idle tile's clock is gated. -/
def Obligations.ChecksOfATile : Prop :=
  (∀ (s : State) (now t a b : Nat) (vector : Bool), ready s = true → tileBusy s t = true → s.coll.inject = [] →
    let shut := fun (r : SkeinRun) => if vector then { r with vecWin := false } else { r with matWin := false }
    (a % 255 = b % 255 →
      ∃ u, exec (.residueWindowCompare now t vector a b) s = .next u ∧ u = { advance s now with tiles := u.tiles }
        ∧ (∀ k, k ≠ t → u.tile k = s.tile k)
        ∧ u.tile t = { s.tile t with run := (s.tile t).run.map shut, tails := (s.tile t).tails.map shut })
    ∧ (a % 255 ≠ b % 255 → s.coll.init = true → t < 2048 → (s.tile t).withdrawn ≠ 2 → (s.tile t).testing = none →
      ∃ u, exec (.residueWindowCompare now t vector a b) s = .next u
        ∧ mkCode 2 (tileDie t) (if vector then 0x05 else 0x03) ∈ u.coll.log ∧ (u.tile t).withdrawn = max 1 (s.tile t).withdrawn
        ∧ (u.tile t).testing = (if s.gst.stopped then none else some []) ∧ u.coll.status.getLsbD (tileDie t) = true
        ∧ (∀ r st, (s.tile t).run = some r → tfind s.steps r.slot = some st → Undecided st → FailsWith u r.slot 0x0C01)
        ∧ (∀ r ∈ (s.tile t).tails, ∀ st, tfind s.steps r.slot = some st → Undecided st → FailsWith u r.slot 0x0C01)))
  ∧ (∀ (s : State) (now t : Nat) (r : SkeinRun) (st : Step), engines s = true → (s.tile t).run = some r → r.issued = true →
    r.code ≠ [] → s.coll.init = true → t < 2048 → tfind s.steps r.slot = some st → Undecided st →
    ∃ u, exec (.skeinBoundOverrun now t) s = .next u ∧ mkCode 2 (tileDie t) 0x0A ∈ u.coll.log ∧ FailsWith u r.slot 0x0C01
      ∧ (u.tile t).withdrawn = (s.tile t).withdrawn)
  ∧ (∀ (s : State) (t idle : Nat), ready s = true → ((s.tile t).run = none ∨ ∃ r, (s.tile t).run = some r ∧ 0 < r.fetchOut) →
    (64 ≤ idle → exec (.clockGate t idle) s = .next { s with tiles := tput s.tiles t { s.tile t with gated := true } })
    ∧ (idle < 64 → exec (.clockGate t idle) s = .next s))
  ∧ (∀ (s : State) (now t w : Nat), s.mainReset = false → s.coll.init = true → t < tileCount s.variant → w < 262144 →
    (∃ u, exec (.patrolScrub now t w 1) s = .next u ∧ tget u.coll.corr (tileDie t) 0 = min 0xFFFF (tget s.coll.corr (tileDie t) 0 + 1)
      ∧ u.coll.status = s.coll.status ∧ u.tile t = { s.tile t with gated := false } ∧ (∀ k, k ≠ t → u.tile k = s.tile k)
      ∧ u.steps = s.steps ∧ u.out = s.out)
    ∧ (∀ n, 2 ≤ n → ∃ u, exec (.patrolScrub now t w n) s = .next u ∧ w ∈ (u.tile t).poison ∧ u.coll.status.getLsbD (tileDie t) = true
      ∧ (u.tile t).withdrawn = (s.tile t).withdrawn ∧ (∀ k, k ≠ t → u.tile k = s.tile k) ∧ u.steps = s.steps))
  ∧ (∀ (s : State) (now t permille ns : Nat), s.mainReset = false → s.coll.init = true → t < tileCount s.variant →
    (20 < permille → 2000 < ns → (s.tile t).withdrawn ≠ 2 → (s.tile t).testing = none →
      ∃ u, exec (.oscillatorOutOfLock now t permille ns) s = .next u ∧ mkCode 2 (tileDie t) 0x0B ∈ u.coll.log
        ∧ (u.tile t).withdrawn = max 1 (s.tile t).withdrawn ∧ (u.tile t).testing = (if s.gst.stopped then none else some []))
    ∧ ((permille ≤ 20 ∨ ns ≤ 2000) → exec (.oscillatorOutOfLock now t permille ns) s = .next s))

/-! ### Queues, settings, admission, switching, release -/

/-- R297 to R299, R329: a step queue is created empty on an object with room and destroyed at once or once its admitted steps have
posted; a doorbell moves the tail, and one that claims more entries than the ring holds stops the queue with 0x0810. -/
def Obligations.StepQueues : Prop :=
  (∀ (s : State) (m : Msg) (i q j : Nat), Passes s (ownMsg s m 0x0401 11 [] (decide (fld m.payload 10 1 ≤ 1))) m →
    objOf s (namedPart m) (fld m.payload 4 4) = some i →
    16 ≤ fld m.payload 8 2 → fld m.payload 8 2 ≤ 4096 → 2 ^ log2 (fld m.payload 8 2) = fld m.payload 8 2 →
    128 * fld m.payload 8 2 ≤ (memObj s (namedPart m) i).bytes → (memObj s (namedPart m) i).hostMap = true →
    (partQueues s (namedPart m)).length < (s.part (namedPart m)).qQueues → freeIndex s.queues (fun _ => true) 4096 = some q →
    (List.range (s.part (namedPart m)).qQueues).find? (fun j => (partQueues s (namedPart m)).all fun e => e.2.j != j) = some j →
    ∃ t, exec (.queueCreate m) s = .next t ∧ Answered s t m (okTo m (q + 65536 * j)) ∧ OthersKeep s t m
      ∧ t = { s with funcs := t.funcs, queues := t.queues, lastTaken := t.lastTaken } ∧ (∀ k, k ≠ q → tfind t.queues k = tfind s.queues k)
      ∧ tfind t.queues q = some { live := true, part := namedPart m, j, ring := fld m.payload 4 4, entries := fld m.payload 8 2
                                  ordered := fld m.payload 10 1 == 1, crTag := some (m.func, m.tag) })
  ∧ (∀ (s : State) (m : Msg), Passes s (ownMsg s m 0x0401 11 [] (decide (fld m.payload 10 1 ≤ 1))) m →
    objOf s (namedPart m) (fld m.payload 4 4) = none →
    ∃ t, exec (.queueCreate m) s = .next t ∧ Replies s t m (rspTo m 0x0741 0 [] [] false))
  ∧ (∀ (s : State) (m : Msg) (q : Nat), Passes s (ownMsg s m 0x0402 6 [] true) m →
    queueNamed s m.func (namedPart m) (fld m.payload 4 2) = some q →
    ∃ t, exec (.queueDestroy m) s = .next t ∧ Answered s t m (okTo m 0) ∧ OthersKeep s t m ∧ t.steps = s.steps
      ∧ ((∀ e ∈ s.steps, e.2.queue ≠ q) → tfind t.queues q = none)
      ∧ ((∃ e ∈ s.steps, e.2.queue = q) → t.queue q = { s.queue q with destroyed := true })
      ∧ (∀ k, k ≠ q → tfind t.queues k = tfind s.queues k))
  ∧ (∀ (s : State) (func index tail q : Nat), doorbellOk s func index = true →
    (if func = 0 then some index else (boundPart s func).bind fun p => queueNamed s func p index) = some q →
    ((65536 + tail % 65536 - (s.queue q).head) % 65536 ≤ (s.queue q).entries →
      exec (.stepQueueDoorbell func index tail) s = .next { s with queues := tput s.queues q { s.queue q with tail := tail % 65536 } })
    ∧ ((s.queue q).entries < (65536 + tail % 65536 - (s.queue q).head) % 65536 →
      (s.func (s.part (s.queue q).part).owner).inFlr = false →
      ∃ t, exec (.stepQueueDoorbell func index tail) s = .next t ∧ t.queue q = { s.queue q with stopped := true }
        ∧ Due s t (s.part (s.queue q).part).owner
          { kind := 3, status := 0x0810, queue := queueField s (s.queue q).part q } ∧ t.steps = s.steps))

/-- R325 to R330: SCHED_SET stages settings, which take effect at a step boundary and at once while the partition is at one;
ACCOUNT_READ writes as many records as the buffer holds; POWER_LIMIT sets a limit that covers the budgets (modelled power, log 11);
over the limit one grant goes down, and 5% below it the last one lowered goes up again. -/
def Obligations.SettingsAccountsAndPower : Prop :=
  (∀ (s : State) (m : Msg) (c : Nat), Passes s (ownMsg s m 0x0403 20 [(6, 2)] (decide (fld m.payload 4 1 < 16))) m →
    fld m.payload 4 1 = 1 → fld m.payload 5 1 = c → c ≤ 64 →
    let p := namedPart m
    let new := { (s.part p).staged.getD (s.part p).cur with clock := c }
    ∃ t, exec (.schedSet m) s = .next t ∧ Answered s t m (okTo m 0) ∧ t.steps = s.steps
      ∧ ((s.part p).running ≠ none → (t.part p).staged = some new ∧ (t.part p).cur = (s.part p).cur)
      ∧ ((s.part p).running = none → (t.part p).staged = none ∧ (t.part p).cur = new))
  ∧ (∀ (s : State) (m : Msg), Passes s (ownMsg s m 0x0403 20 [(6, 2)] (decide (fld m.payload 4 1 < 16))) m →
    bitOf (fld m.payload 4 1) 1 = true → (fld m.payload 8 4 < 100 ∨ 100000 < fld m.payload 8 4) →
    ∃ t, exec (.schedSet m) s = .next t ∧ Replies s t m (rspTo m 0x0811 0 [] [] false))
  ∧ (∀ (s : State) (m : Msg), Passes s (ownMsg s m 0x0404 8 [(5, 1)] (decide (fld m.payload 4 1 ≤ 3))) m → fld m.payload 4 1 = 0 →
    let l := (((partCtxs s (namedPart m)).map (ctxRecord s)).drop (fld m.payload 6 2)).take (m.extBytes / 64)
    ∃ t, exec (.accountRead m) s = .next t ∧ Replies s t m (rspTo m 0 l.length [] l.flatten true) ∧ l.length * 64 ≤ m.extBytes)
  ∧ (∀ (s : State) (m : Msg), Passes s (ownMsg s m 0x0404 8 [(5, 1)] (decide (fld m.payload 4 1 ≤ 3))) m → 2 ≤ fld m.payload 4 1 →
    m.func ≠ 0 → ∃ t, exec (.accountRead m) s = .next t ∧ Replies s t m (rspTo m 0x0906 0 [] [] false))
  ∧ (∀ (s : State) (m : Msg), Passes s { opcode := 0x0405, critical := true, pfOnly := true, len := some 6, rsv := [(0, 4)] } m →
    Signed s m → m.counter < 2 ^ 64 →
    (400 ≤ fld m.payload 4 2 → fld m.payload 4 2 ≤ maxPower s.variant → Config.freeNat s.fresh ≤ fld m.payload 4 2 →
      ∃ t, exec (.powerLimit m) s = .next t ∧ Answered s t m (okTo m 0) ∧ OthersKeep s t m ∧ (t.func m.func).ctrLast = m.counter
        ∧ t.power = { s.power with limit := fld m.payload 4 2 } ∧ t.parts = s.parts)
    ∧ (fld m.payload 4 2 < 400 ∨ maxPower s.variant < fld m.payload 4 2 →
      ∃ t, exec (.powerLimit m) s = .next t ∧ Replies s t m (rspTo m 0x0931 0 [] [] false) ∧ (t.func m.func).ctrLast = m.counter))
  ∧ (∀ (s : State) (now mw : Nat), ready s = true →
    (∀ e, 1000 * s.power.limit < mw → minBy (fun e => 65536 * (64 - e.2) + e.1) (lowerable s) = some e →
      ∃ t, exec (.powerModelUpdate now mw) s = .next t ∧ t.power = { s.power with lowered := e.1 :: s.power.lowered }
        ∧ t.steps = s.steps ∧ t.funcs = s.funcs)
    ∧ (∀ p l, 100 * mw ≤ 95000 * s.power.limit → s.power.lowered = p :: l →
      ∃ t, exec (.powerModelUpdate now mw) s = .next t ∧ t.power = { s.power with lowered := l } ∧ t.steps = s.steps)
    ∧ (mw ≤ 1000 * s.power.limit → 95000 * s.power.limit < 100 * mw →
      exec (.powerModelUpdate now mw) s = .next (advance s now)))

/-- R300, R301, R303, R304, R309: the descriptor at a queue's head is admitted in order into a free slot, WAITING, or refused
with its completion entry due at once; a step whose fences, order and bobbin are met becomes READY, and an earlier deadline
schedules a switch of the running step. -/
def Obligations.AdmissionAndReadiness : Prop :=
  (∀ (s : State) (now q slot base fbBase : Nat) (x : Queue), tfind s.queues q = some x → x.live = true → x.destroyed = false →
    x.stopped = false → x.head ≠ x.tail → admits s x.part = true → slotFree s x.part slot = true →
    let d := headDesc s x
    (admitStatus s x.part d = 0 →
      (∃ r, reserveBoth s x.part (fld d 0 4 % 4096) ((progOf s x.part (fld d 4 4)).getD 0) base
        ((namedFallback s x.part (prog s x.part ((progOf s x.part (fld d 4 4)).getD 0)).upf (fld d 8 4)).getD none) fbBase = some (some r)) →
      (prog s x.part ((progOf s x.part (fld d 4 4)).getD 0)).job = none →
      (∀ h ∈ fences4 d 96, h = 0xFFFFFF ∨ (tget (s.part x.part).fences (h % 65536) {}).status.getD 0 = 0) →
      ∃ t st, exec (.stepAdmit now q slot base fbBase) s = .next t ∧ tfind t.steps slot = some st ∧ st.state = 1 ∧ st.fail = none
        ∧ st.part = x.part ∧ st.queue = q ∧ st.seq = x.seq ∧ ctxHandle st.ctx st.ctxGen = fld d 0 4 ∧ st.deadline = fld d 24 8
        ∧ st.inputs = handle3 d 48 ∧ st.outputs = handle3 d 72 ∧ st.waits = fences4 d 96 ∧ st.signals = fences4 d 108
        ∧ st.queuedAt = time t ∧ st.waitView = 0 ∧ (∀ k, k ≠ slot → tfind t.steps k = tfind s.steps k) ∧ t.funcs = s.funcs
        ∧ t.queue q = { x with head := (x.head + 1) % 65536, seq := (x.seq + 1) % 2 ^ 32 })
    ∧ (admitStatus s x.part d ≠ 0 → (s.func (s.part x.part).owner).inFlr = false →
      ∃ t st, exec (.stepAdmit now q slot base fbBase) s = .next t ∧ tfind t.steps slot = some st ∧ st.state = 6
        ∧ st.fail = some (BitVec.ofNat 16 (admitStatus s x.part d)) ∧ st.notedDone = true
        ∧ (∃ e, Due s t (s.part x.part).owner e ∧ e.kind = 1 ∧ e.status = BitVec.ofNat 16 (admitStatus s x.part d) ∧ e.seq = x.seq
            ∧ e.cookie = BitVec.ofNat 64 (fld d 32 8))
        ∧ t.queue q = { x with head := (x.head + 1) % 65536, seq := (x.seq + 1) % 2 ^ 32 }))
  ∧ (∀ (s : State) (now slot : Nat) (st : Step), ready s = true → tfind s.steps slot = some st → st.state = 1 →
    waitsMet s st = true → inOrder s st = true → (ownResident s st || fbResident s st) = true →
    ∃ t st', exec (.stepReady now slot) s = .next t ∧ tfind t.steps slot = some st' ∧ st'.state = 2 ∧ st'.stateAt = time t
      ∧ ((s.part st.part).running ≠ some slot → st' = { st with state := 2, stateAt := time t })
      ∧ ((s.ctx st.ctx).gen = st.ctxGen → (s.ctx st.ctx).part.isSome = true →
          t.ctx st.ctx = { s.ctx st.ctx with waitNs := (s.ctx st.ctx).waitNs + (time t - st.stateAt) })
      ∧ (s.part st.part).switchReq ≤ (t.part st.part).switchReq
      ∧ (∀ k r, (s.part st.part).running = some k → k ≠ slot → tfind s.steps k = some r → r.deadline = 0 → 0 < st.deadline →
          st.deadline < 2 ^ 64 → 1 ≤ (t.part st.part).switchReq)
      ∧ ((s.part st.part).running = none → (t.part st.part).switchReq = (s.part st.part).switchReq)
      ∧ (∀ k, k ≠ slot → (s.part st.part).running ≠ some k → tfind t.steps k = tfind s.steps k)
      ∧ (∀ k r, (s.part st.part).running = some k → k ≠ slot → tfind s.steps k = some r →
          ∃ r', tfind t.steps k = some r' ∧ r' = { r with skeins := r'.skeins, replaced := r'.replaced, requests := r'.requests }))

/-- R305, R307, R449, R470, R471: at a step boundary the staged settings swap and the step that R307 chooses runs, or stops
issuing at once when it has no skein left; with every mover it needs withdrawn it fails; a book that does not balance records
0xA004 and resets the partition, or, a block-wide book, starts a block reset after 100 us. Which books the state holds is log
84. -/
def Obligations.StepBoundaries : Prop :=
  ∀ (s : State) (now p : Nat) (a : Audit), engines s = true → active s p = true → (s.part p).running = none → (s.part p).switchTo = none →
    (s.part p).resetTags = none →
    let s1 := rerouteJobs (enterBoundary (advance s now) p false) p
    (auditOf s1 p a = .balanced → chosen s1 p = none →
      ∃ t, exec (.stepBoundary now p a) s = .next t ∧ (t.part p).running = none ∧ t.steps = s.steps
        ∧ (t.part p).staged = none ∧ (t.part p).cur = (s.part p).staged.getD (s.part p).cur)
    ∧ (∀ k st, auditOf s1 p a = .balanced → chosen s1 p = some k → tfind s.steps k = some st → st.part = p → st.job = none →
      (∀ d ∈ partDies (s.part p), (s.mover d).withdrawn ≠ 2) →
      ∃ t st', exec (.stepBoundary now p a) s = .next t ∧ tfind t.steps k = some st'
        ∧ st'.quantumAt = time t ∧ st'.skeins = st.skeins ∧ (t.part p).switchReq = 0 ∧ (t.part p).staged = none
        ∧ (∀ j, j ≠ k → tfind t.steps j = tfind s.steps j) ∧ t.funcs = s.funcs
        ∧ ((∃ j, j < (stepFile s st).skeins.length ∧ skIssued st j = false) → (t.part p).running = some k ∧ st'.state = 3)
        ∧ ((∀ j, j < (stepFile s st).skeins.length → skIssued st j = true) → (t.part p).running = none ∧ st'.state = 5))
    ∧ (∀ k st, auditOf s1 p a = .balanced → chosen s1 p = some k → tfind s.steps k = some st → st.state = 2 → Undecided st →
      (∃ d ∈ partDies (s.part p), (s.mover d).withdrawn = 2) →
      ∃ t, exec (.stepBoundary now p a) s = .next t ∧ FailsWith t k 0x0D06 ∧ (t.part p).running = none)
    ∧ (auditOf s1 p a = .partitionBook → s.coll.init = true →
      ∃ t, exec (.stepBoundary now p a) s = .next t ∧ (0xA004 : Code) ∈ t.coll.log ∧ (t.part p).running = none
        ∧ ∀ k st, tfind s.steps k = some st → st.part = p → Undecided st → FailsWith t k 0x0D03)
    ∧ (auditOf s1 p a = .blockBook → s.coll.init = true →
      ∃ t, exec (.stepBoundary now p a) s = .next t ∧ (0xA004 : Code) ∈ t.coll.log ∧ t.power.admitting = false
        ∧ t.life.resetAt = some (100000 + time t) ∧ t.life.resetCause = 3)
    ∧ (a ≠ .balanced → auditOf s1 p a = a)

/-- R183, R308 to R314: a quantum's end asks for a switch at the next cheap point, and skeins placed behind it return to the
not-started state; the running step leaves SUSPENDED, its partition at a boundary; a spill saves the live buffers and frees
them, and a restore puts every saved buffer back. -/
def Obligations.Switching : Prop :=
  (∀ (s : State) (now p k j : Nat) (r x : Step), ready s = true → (s.part p).running = some k → tfind s.steps k = some r →
    r.quantumAt + 1000 * (s.part p).cur.quantum ≤ time (advance s now) → (j, x) ∈ s.steps → j ≠ k → x.part = p → x.state = 2 →
    x.deadline = r.deadline → (r.skeins.map (·.1)).Nodup →
    let c := if (s.part p).switchReq ≤ 1 then nextPoint s r else 0
    ∃ t r', exec (.quantumExpiry now p) s = .next t ∧ (t.part p).switchReq = max (s.part p).switchReq 1
      ∧ (t.part p).running = some k ∧ tfind t.steps k = some r'
      ∧ r' = { r with skeins := r'.skeins, replaced := r'.replaced, requests := r'.requests }
      ∧ (∀ e, tget r'.skeins e 0 = if tget r.skeins e 0 = 1 ∧ c ≤ e then 0 else tget r.skeins e 0)
      ∧ (∀ e, tget r.skeins e 0 = 1 → c ≤ e → e ∈ r'.replaced)
      ∧ (∀ e, t.tile e = { s.tile e with run := (t.tile e).run }) ∧ ∀ j, j ≠ k → tfind t.steps j = tfind s.steps j)
  ∧ (∀ (s : State) (now p k : Nat) (st : Step) (spill : Bool), engines s = true → active s p = true → (s.part p).switchTo = none →
    (s.part p).running = some k → tfind s.steps k = some st → st.part = p → (st.skeins.map (·.1)).Nodup → canSwitch s k st = true →
    ∃ t st', exec (.stepSwitch now p spill) s = .next t ∧ (t.part p).running = none ∧ (t.part p).switchReq = 0
      ∧ tfind t.steps k = some st' ∧ st'.state = 4 ∧ st'.lastRan = some (time t) ∧ st'.fail = st.fail
      ∧ (∀ j, tget st.skeins j 0 ≠ 1 → tget st'.skeins j 0 = tget st.skeins j 0) ∧ (∀ j, tget st'.skeins j 0 ≠ 1)
      ∧ (spill = false → (s.part p).switchReq ≠ 2 → (t.part p).switchTo = none)
      ∧ ((spill = true ∨ (s.part p).switchReq = 2) → hasLive s k st = true → (t.part p).switchTo = some k)
      ∧ ((s.ctx st.ctx).gen = st.ctxGen → (t.ctx st.ctx).preempt = (s.ctx st.ctx).preempt + 1)
      ∧ (∀ j, j ≠ k → tfind t.steps j = tfind s.steps j))
  ∧ (∀ (s : State) (now p k : Nat) (st : Step), engines s = true → (s.part p).switchTo = some k → tfind s.steps k = some st →
    ∃ t st', exec (.spillDone now p) s = .next t ∧ (t.part p).switchTo = none ∧ tfind t.steps k = some st'
      ∧ st' = { st with spilled := true, saved := st'.saved, savedPoison := st'.savedPoison }
      ∧ (∀ e i, bufBase (t.tile e) k i = none)
      ∧ (∀ i x b, i ∈ liveBufs (stepFile s st) st → bufHome s 4096 k i = some (x, b) →
          mreadN (tget st'.saved i []) 0 (tensorOf (stepFile s st) i).bytes = mreadN x.scratch b (tensorOf (stepFile s st) i).bytes)
      ∧ (∀ j, j ≠ k → tfind t.steps j = tfind s.steps j) ∧ t.hbm = s.hbm)
  ∧ (∀ (s : State) (now k : Nat) (pls : List (Nat × Nat × Nat)) (st : Step), engines s = true → tfind s.steps k = some st →
    st.state = 3 → st.spilled = true → (∀ e ∈ st.saved, ∃ q ∈ pls, q.1 = e.1) → placesFit s st.part (stepFile s st) k st pls = true →
    ∃ t, exec (.restoreDone now k pls) s = .next t
      ∧ tfind t.steps k = some { st with spilled := false, saved := [], savedPoison := [] }
      ∧ (∀ q ∈ pls, (bufBase (t.tile q.2.1) k q.1).isSome = true)
      ∧ (∀ e, (∀ q ∈ pls, q.2.1 ≠ e) → t.tile e = s.tile e) ∧ t.hbm = s.hbm)

/-- R316, R318, R320, R321, R433, R434, R436: a step predicted to miss, or whose own bobbin is absent, runs its fallback from its
first skein; a step with `abort_late` past its deadline fails with 0x0805; an idle partition posts the wait-for graph once;
the release gate makes the completion entry due, or fails the step whose output is poisoned with 0x0C02;
a contained fault of the tick in which the gate passed fails the step. -/
def Obligations.FallbacksDeadlinesAndRelease : Prop :=
  (∀ (s : State) (now slot : Nat) (st : Step), engines s = true → tfind s.steps slot = some st → st.state = 3 → st.useFb = false →
    st.noFallback = false → fbResident s st = true → ∀ e, evalPoint s st = some e →
    (∀ st1, st1 = { st with fbDone := st.fbDone ++ [e] } →
      ((predictMiss (advance s now) slot st = true ∨ ownResident s st = false) →
        ∃ t st', exec (.fallbackEvaluate now slot) s = .next t ∧ tfind t.steps slot = some st'
          ∧ st' = { st1 with useFb := true, skeins := [], replaced := [], sortCounts := [], sortExperts := [], manifests := [], saved := []
                             savedPoison := [], spilled := false, requests := st'.requests }
          ∧ (∀ e i, bufBase (t.tile e) slot i = none)
          ∧ ((s.ctx st.ctx).gen = st.ctxGen → (t.ctx st.ctx).fallbacks = (s.ctx st.ctx).fallbacks + 1))
      ∧ (predictMiss (advance s now) slot st = false → ownResident s st = true →
        ∃ t, exec (.fallbackEvaluate now slot) s = .next t ∧ tfind t.steps slot = some st1 ∧ t.tiles = s.tiles ∧ t.ctxs = s.ctxs)))
  ∧ (∀ (s : State) (now slot : Nat) (st : Step), ready s = true → tfind s.steps slot = some st → st.abortLate = true →
    st.deadline ≠ 0 → st.deadline < time (advance s now) → st.fail = none →
    ∃ t, exec (.deadlineExpiry now slot) s = .next t ∧ FailsWith t slot 0x0805
      ∧ (st.notedDone = true → ∀ f, (t.func f).evtQueue =
          (s.func f).evtQueue.map fun e => if e.slot = some slot then { e with status := 0x0805 } else e))
  ∧ (∀ (s : State) (now p : Nat) (j : Nat) (x : Step), ready s = true → s.gst.stopped = false → active s p = true →
    (s.part p).hangPosted = false → (s.part p).lastIssue + 1000000 * (s.part p).cur.hang < time (advance s now) →
    (j, x) ∈ s.steps → x.part = p → x.state = 1 → (s.func (s.part p).owner).inFlr = false →
    ∃ t, exec (.hangTimeExpiry now p) s = .next t ∧ (t.part p).hangPosted = true ∧ (t.part p).hang = some (hangGraph (advance s now) p)
      ∧ Due s t (s.part p).owner { kind := 4, queue := p } ∧ t.steps = s.steps
      ∧ exec (.hangTimeExpiry now p) t = .next t)
  ∧ (∀ (s : State) (now slot : Nat) (st : Step), ready s = true → s.coll.freeze = false → tfind s.steps slot = some st →
    st.notedDone = false → st.state = 5 → st.fail = none → st.requests = 0 → skeinsEnded s slot st = true → st.hostWrites = false →
    1000 + st.lastOp ≤ time (advance s now) → st.job = none → (s.func (s.part st.part).owner).inFlr = false →
    (st.poisonOut = false →
      ∃ t, exec (.releaseGatePass now slot) s = .next t ∧ (∃ st', tfind t.steps slot = some st'
          ∧ st' = { st with notedDone := true, passedAt := some (time t), watchAt := st'.watchAt })
        ∧ Due s t (s.part st.part).owner (stepEntry s slot st) ∧ (stepEntry s slot st).status = 0
        ∧ (∀ k, k ≠ slot → tfind t.steps k = tfind s.steps k))
    ∧ (st.poisonOut = true →
      ∃ t e, exec (.releaseGatePass now slot) s = .next t ∧ FailsWith t slot 0x0C02 ∧ Due s t (s.part st.part).owner e
        ∧ e.status = 0x0C02 ∧ e.slot = some slot))
  ∧ (∀ (s : State) (now slot : Nat) (st : Step) (r : Report), up s = true → s.coll.init = true → tfind s.steps slot = some st →
    st.notedDone = true → st.fail = none → st.passedAt = some (time (advance s now)) → codeUnit r.code = 44 → codeClass r.code = 2 →
    r.slots = [slot] → st.job = none → (s.func (s.part st.part).owner).inFlr = false →
    ∃ t e, exec (.faultReport now r) s = .next t ∧ FailsWith t slot 0x0C01 ∧ e ∈ (t.func (s.part st.part).owner).evtQueue
      ∧ e.slot = some slot ∧ e.status = 0x0C01
      ∧ ∀ e' ∈ (t.func (s.part st.part).owner).evtQueue, e'.slot = some slot → e'.status = 0x0C01)

/-! ### Bobbins, programs, jobs, partitions -/

/-- R214, R227, R230, R234 to R236, R240 to R243, R245, R250, R132: a fill takes the first bobbin of the fetch order, makes room by
evicting nothing pinned or referred to, and probes its peers; once all have answered or expired its chunks are dealt, to the peers,
or with none to the backing copy; a chunk with its digest is written, one without is fetched again once; one that was not asked so
changes nothing; a whole and checked image is resident. -/
def Obligations.BobbinFills : Prop :=
  (∀ (s : State) (now p i : Nat), engines s = true → active s p = true → (s.part p).fill = none → nextFetch s p = some i →
    ((bobbin s p i).bad = true →
      ∃ t, exec (.fillStart now p) s = .next t ∧ (t.part p).fill = none ∧ (bobbin t p i).state = 0
        ∧ ∀ k st, k ∈ waitersOf s p i → tfind s.steps k = some st → Undecided st → FailsWith t k 0x0402)
    ∧ ((bobbin s p i).bad = false → (s.part p).storeBytes < (bobbin s p i).bytes + pinnedBytes s p i →
      ∃ t, exec (.fillStart now p) s = .next t ∧ (t.part p).fill = none ∧ (bobbin t p i).state = 0
        ∧ ∀ k st, k ∈ waitersOf s p i → tfind s.steps k = some st → Undecided st → FailsWith t k 0x0603)
    ∧ ((bobbin s p i).bad = false → (bobbin s p i).bytes + pinnedBytes s p i ≤ (s.part p).storeBytes →
      (makeRoom s p i = none → exec (.fillStart now p) s = .next (advance s now))
      ∧ ∀ s1 s2, makeRoom s p i = some s1 → s2 = takePlaces s1 p i →
        (peerSources s p ≠ [] →
          ∃ t, exec (.fillStart now p) s = .next t
            ∧ (t.part p).fill = some { bobbin := i, probing := peerSources s p, probeAt := time t }
            ∧ placeChunks (s1.part p) i (bobbin s1 p i) = some (bobbin t p i).places
            ∧ (∀ k ∈ peerSources s p, ∀ h r, routeTo s k = some (h :: r) →
                let o := Out.probe k (askedDigest (bobbin s p i)) (heldChunks (bobbin s p i))
                o ∈ t.out ∨ ∃ m ∈ (t.port (hopPort s.variant h)).txq, m.ctl = some o)
            ∧ (∀ j, j ≠ i → evictable s p j = false → bobbin t p j = bobbin s p j) ∧ t.steps = s.steps)
        ∧ (peerSources s p = [] → backingOk s2 p (bobbin s2 p i) = true →
          ∃ t, exec (.fillStart now p) s = .next t ∧ t.steps = s.steps
            ∧ placeChunks (s1.part p) i (bobbin s1 p i) = some (bobbin t p i).places
            ∧ (t.part p).fill = some { bobbin := i, probeAt := time t, backing := true,
                                       deal := (heldChunks (bobbin s p i)).foldl (fun t c => tput t c hostSource) [] })
        ∧ (peerSources s p = [] → backingOk s2 p (bobbin s2 p i) = false →
          ∃ t, exec (.fillStart now p) s = .next t ∧ (t.part p).fill = none ∧ (bobbin t p i).state = 0
            ∧ ∀ k st, tfind s.steps k = some st → st.part = p → st.bobbin = some i → st.state ≤ 2 → Undecided st →
                FailsWith t k 0x0602)))
  ∧ (∀ (s : State) (now p pkg : Nat) (f : Fill), engines s = true → (s.part p).fill = some f → pkg ∈ f.probing →
    50000 + f.probeAt < time (advance s now) →
    let b := bobbin s p f.bobbin
    (f.probing.erase pkg ≠ [] →
      ∃ t, exec (.peerProbeTimeout now p pkg) s = .next t ∧ (t.part p).fill = some { f with probing := f.probing.erase pkg }
        ∧ t.steps = s.steps ∧ t.out = s.out)
    ∧ (f.probing = [pkg] → f.peers ≠ [] →
      ∃ t, exec (.peerProbeTimeout now p pkg) s = .next t ∧ t.steps = s.steps
        ∧ (t.part p).fill = some { f with probing := [], deal := dealTo b.image { f with probing := [] } (openChunks b f) })
    ∧ (f.probing = [pkg] → f.peers = [] → backingOk s p b = true →
      ∃ t, exec (.peerProbeTimeout now p pkg) s = .next t ∧ t.steps = s.steps ∧ t.out = s.out
        ∧ (t.part p).fill = some { f with probing := [], backing := true,
                                          deal := (openChunks b f).foldl (fun t c => tput t c hostSource) f.deal })
    ∧ (f.probing = [pkg] → f.peers = [] → backingOk s p b = false →
      ∃ t, exec (.peerProbeTimeout now p pkg) s = .next t ∧ (t.part p).fill = none ∧ (bobbin t p f.bobbin).state = 0
        ∧ ∀ k st, k ∈ waitersOf s p f.bobbin → tfind s.steps k = some st → Undecided st → FailsWith t k 0x0602))
  ∧ (∀ (s : State) (now p pkg asker : Nat) (digest : BitVec 384) (chunks : List Nat) (enrolled : Bool),
    engines s = true → active s p = true →
    let got := if enrolled = true ∧ (servable s p pkg digest chunks).isSome = true then chunks else []
    let o := Out.ctl pkg (.probeAnswer asker (myPkg s) digest got (serveRate (s.part p)))
    ∃ t, exec (.peerProbe now p pkg ⟨asker, digest, chunks⟩ enrolled) s = .next t ∧ t.steps = s.steps
      ∧ (∀ j, bobbin t p j = bobbin s p j) ∧ (t.part p).fill = (s.part p).fill
      ∧ (pkg = myPkg s → t.out = o :: s.out)
      ∧ ∀ h r, pkg ≠ myPkg s → routeTo s pkg = some (h :: r) →
          o ∈ t.out ∨ ∃ m ∈ (t.port (hopPort s.variant h)).txq, m.ctl = some o)
  ∧ (∀ (s : State) (now p gen pkg chunk : Nat) (data : List Byte) (f : Fill), engines s = true → active s p = true →
    (s.part p).fill = some f →
    (gen ≠ tget s.partGen p 0 ∨ chunk ∈ f.done ∨ tfind f.deal chunk ≠ some pkg →
      exec (.chunkArrival now p pkg chunk ⟨gen, data⟩) s = .next (advance s now))
    ∧ (gen = tget s.partGen p 0 → chunk ∉ f.done → tfind f.deal chunk = some pkg → s.coll.inject = [] →
      (∀ d ∈ partDies (s.part p), d < 32) →
      let b := bobbin s p f.bobbin
      (chunkData s p b pkg chunk data = none →
        ∃ t, exec (.chunkArrival now p pkg chunk ⟨gen, data⟩) s = .next t ∧ (t.part p).fill = none ∧ (bobbin t p f.bobbin).state = 0)
      ∧ ∀ d, chunkData s p b pkg chunk data = some d → d.length = chunkLen b.image chunk →
        let e := chunkEntry b.image chunk
        let o := imgTables b.image + chunkOff b.image chunk
        (slice e 16 48 = digestBytes (Config.sha384 d) →
          ∃ t, exec (.chunkArrival now p pkg chunk ⟨gen, data⟩) s = .next t
            ∧ (t.part p).fill = some { f with done := f.done ++ [chunk] }
            ∧ (bobbin t p f.bobbin).image = b.image.take o ++ d ++ b.image.drop (o + d.length)
            ∧ (bobbin t p f.bobbin).state = b.state ∧ t.coll = s.coll ∧ t.steps = s.steps)
        ∧ (slice e 16 48 ≠ digestBytes (Config.sha384 d) → tfind f.failed chunk = none →
          ∃ t k, exec (.chunkArrival now p pkg chunk ⟨gen, data⟩) s = .next t
            ∧ (t.part p).fill = some { f with failed := tput f.failed chunk pkg, deal := tput f.deal chunk k }
            ∧ (pkg = hostSource → k = pkg)
            ∧ (∀ k0 r, pkg ≠ hostSource → f.peers.filter (· != pkg) = k0 :: r → k = k0)
            ∧ (pkg ≠ hostSource → f.peers.filter (· != pkg) = [] → k = if backingOk s p b = true then hostSource else pkg)
            ∧ (bobbin t p f.bobbin).image = b.image ∧ t.steps = s.steps)
        ∧ (slice e 16 48 ≠ digestBytes (Config.sha384 d) → tfind f.failed chunk ≠ none →
          ∃ t, exec (.chunkArrival now p pkg chunk ⟨gen, data⟩) s = .next t ∧ (t.part p).fill = none
            ∧ (bobbin t p f.bobbin).state = 0
            ∧ ∀ k st, k ∈ waitersOf s p f.bobbin → tfind s.steps k = some st → Undecided st → FailsWith t k 0x0604)))
  ∧ (∀ (s : State) (now p : Nat) (f : Fill), engines s = true → active s p = true → (s.part p).fill = some f →
    openChunks (bobbin s p f.bobbin) f = [] →
    (imageChecked (bobbin s p f.bobbin).image (heldChunks (bobbin s p f.bobbin)) = true →
      ∃ t, exec (.fillComplete now p) s = .next t ∧ (t.part p).fill = none ∧ resident t p f.bobbin = (bobbin s p f.bobbin).live
        ∧ (bobbin t p f.bobbin).source = (if f.backing then 2 else 1)
        ∧ (bobbin t p f.bobbin).image = (bobbin s p f.bobbin).image ∧ t.steps = s.steps ∧ t.funcs = s.funcs)
    ∧ (imageChecked (bobbin s p f.bobbin).image (heldChunks (bobbin s p f.bobbin)) = false →
      ∃ t, exec (.fillComplete now p) s = .next t ∧ (t.part p).fill = none ∧ (bobbin t p f.bobbin).bad = true
        ∧ (bobbin t p f.bobbin).state = 0
        ∧ ∀ k st, k ∈ waitersOf s p f.bobbin → tfind s.steps k = some st → Undecided st → FailsWith t k 0x0402))

/-- R223, R228 to R231, R234, R239, R241, R244, R496: the catalogue messages. An install is answered when its image has been
opened; a bobbin in use or pinned is neither removed nor evicted; an absent one joins the fetch order when pinned or
prefetched. -/
def Obligations.BobbinCatalogue : Prop :=
  (∀ (s : State) (m : Msg), Passes s (ownMsg s m 0x0203 5 [] (decide (fld m.payload 4 1 ≤ 1))) m →
    (contentKey s (extIn m) = none → ∃ t, exec (.bobbinInstall m) s = .next t ∧ Replies s t m (rspTo m 0x0605 0 [] [] false))
    ∧ ((contentKey s (extIn m)).isSome = true →
      (∀ e ∈ (s.part (namedPart m)).bobbins, e.2.digest ≠ BitVec.ofNat 384 (leNat (slice (extIn m) 56 48))) →
      ((s.part (namedPart m)).bobbins.filter (·.2.live)).length < 1024 → ∀ i,
      (List.range 1024).find? (fun i => !(bobbin s (namedPart m) i).live) = some i →
      ∃ t, exec (.bobbinInstall m) s = .next t ∧ Pends s t m ∧ OthersKeep s t m
        ∧ (bobbin t (namedPart m) i).installing = some (m.func, m.tag) ∧ (bobbin t (namedPart m) i).image = extIn m
        ∧ (bobbin t (namedPart m) i).live = true ∧ (bobbin t (namedPart m) i).peerShare = (fld m.payload 4 1 == 1)
        ∧ (∀ j, j ≠ i → bobbin t (namedPart m) j = bobbin s (namedPart m) j)))
  ∧ (∀ (s : State) (now p idx f tag : Nat) (key : BitVec 256) (img : List Byte) (k : Taken), ready s = true → active s p = true →
    (bobbin s p idx).installing = some (f, tag) → takenOf s f tag = some k → contentKey s (bobbin s p idx).image = some key →
    (openPackage key (bobbin s p idx).image = some img → imageChecked img (List.range (imgChunks img)) = true →
      (makeRoom (modBobbin s p idx fun x => { x with image := img, bytes := imgBytes img, installing := none, state := 0, source := 0 })
        p idx).isSome = true →
      ∃ t, exec (.bobbinInstallDone now p idx) s = .next t ∧ (bobbin t p idx).image = img ∧ (bobbin t p idx).installing = none
        ∧ (bobbin t p idx).state = 2 ∧ (bobbin t p idx).bytes = imgBytes img
        ∧ (∃ r, (t.func f).rsps = (s.func f).rsps ++ [r] ∧ r.tag = tag ∧ r.status = 0 ∧ r.detail = BitVec.ofNat 64 idx
            ∧ r.payload = digestBytes (bobbin s p idx).digest))
    ∧ (openPackage key (bobbin s p idx).image = some img → imageChecked img (List.range (imgChunks img)) = false →
      ∃ t, exec (.bobbinInstallDone now p idx) s = .next t ∧ (bobbin t p idx).bad = true ∧ (bobbin t p idx).state = 0
        ∧ (∃ r, (t.func f).rsps = (s.func f).rsps ++ [r] ∧ r.tag = tag ∧ r.status = 0 ∧ r.detail = BitVec.ofNat 64 idx))
    ∧ (openPackage key (bobbin s p idx).image = none →
      ∃ t, exec (.bobbinInstallDone now p idx) s = .next t ∧ tfind (t.part p).bobbins idx = none
        ∧ (∃ r, (t.func f).rsps = (s.func f).rsps ++ [r] ∧ r.tag = tag ∧ r.status = 0x0604)))
  ∧ (∀ (s : State) (m : Msg), let p := namedPart m
    (Passes s (ownMsg s m 0x0204 6 [] true) m → hasBobbin s p (catIdx m) = true →
      (bobbinRefs s p (catIdx m) = 0 → (bobbin s p (catIdx m)).pinned = false → serving s p (bobbin s p (catIdx m)) = false →
        ∃ t, exec (.bobbinRemove m) s = .next t ∧ Answered s t m (okTo m 0) ∧ tfind (t.part p).bobbins (catIdx m) = none
          ∧ (∀ j, j ≠ catIdx m → bobbin t p j = bobbin s p j) ∧ t.steps = s.steps)
      ∧ (bobbinRefs s p (catIdx m) ≠ 0 ∨ (bobbin s p (catIdx m)).pinned = true ∨ serving s p (bobbin s p (catIdx m)) = true →
        ∃ t, exec (.bobbinRemove m) s = .next t ∧ Replies s t m (rspTo m 0x0607 0 [] [] false)))
    ∧ (Passes s (ownMsg s m 0x0205 6 [] true) m → hasBobbin s p (catIdx m) = true →
      ∃ t, exec (.bobbinPrefetch m) s = .next t ∧ Answered s t m (okTo m 0)
        ∧ (bobbin t p (catIdx m)).state = (if (bobbin s p (catIdx m)).state = 0 then 1 else (bobbin s p (catIdx m)).state)
        ∧ (∀ j, j ≠ catIdx m → bobbin t p j = bobbin s p j))
    ∧ (Passes s (ownMsg s m 0x0206 6 [] true) m → hasBobbin s p (catIdx m) = true →
      (evictable s p (catIdx m) = true →
        ∃ t, exec (.bobbinEvict m) s = .next t ∧ Answered s t m (okTo m 0) ∧ (bobbin t p (catIdx m)).state = 0
          ∧ (∀ j, j ≠ catIdx m → bobbin t p j = bobbin s p j))
      ∧ ((bobbin s p (catIdx m)).state ≠ 2 → bobbinRefs s p (catIdx m) = 0 → (bobbin s p (catIdx m)).pinned = false →
        serving s p (bobbin s p (catIdx m)) = false →
        ∃ t, exec (.bobbinEvict m) s = .next t ∧ Replies s t m (okTo m 0))
      ∧ (bobbinRefs s p (catIdx m) ≠ 0 ∨ (bobbin s p (catIdx m)).pinned = true ∨ serving s p (bobbin s p (catIdx m)) = true →
        ∃ t, exec (.bobbinEvict m) s = .next t ∧ Replies s t m (rspTo m 0x0607 0 [] [] false)))
    ∧ (Passes s (ownMsg s m 0x0207 6 [] true) m → hasBobbin s p (catIdx m) = true →
      (pinnedBytes s p (catIdx m) + (bobbin s p (catIdx m)).bytes ≤ (s.part p).storeBytes →
        ∃ t, exec (.bobbinPin m) s = .next t ∧ Answered s t m (okTo m 0) ∧ (bobbin t p (catIdx m)).pinned = true
          ∧ (bobbin t p (catIdx m)).state ≠ 0 ∧ (∀ j, j ≠ catIdx m → bobbin t p j = bobbin s p j))
      ∧ ((s.part p).storeBytes < pinnedBytes s p (catIdx m) + (bobbin s p (catIdx m)).bytes →
        ∃ t, exec (.bobbinPin m) s = .next t ∧ Replies s t m (rspTo m 0x0606 0 [] [] false)))
    ∧ (Passes s (ownMsg s m 0x0208 6 [] true) m → hasBobbin s p (catIdx m) = true →
      ∃ t, exec (.bobbinUnpin m) s = .next t ∧ Answered s t m (okTo m 0)
        ∧ bobbin t p (catIdx m) = { bobbin s p (catIdx m) with pinned := false }
        ∧ (∀ j, j ≠ catIdx m → bobbin t p j = bobbin s p j))
    ∧ (Passes s (ownMsg s m 0x0209 6 [] true) m →
      let l := ((listOrder s p).drop (catIdx m)).take (m.extBytes / 64)
      ∃ t, exec (.bobbinList m) s = .next t
        ∧ Replies s t m (rspTo m 0 l.length [] (l.flatMap fun e => listEntry s p e.1 e.2) true))
    ∧ (Passes s (pfMsg s m 0x020A 40 [(5, 3)] (decide (fld m.payload 4 1 ≤ 16))) m →
      ∃ t, exec (.bobbinSources m) s = .next t ∧ Answered s t m (okTo m 0)
        ∧ t.part p = { s.part p with sources := (List.range (fld m.payload 4 1)).map fun i => fld m.payload (8 + 2 * i) 2 }
        ∧ (∀ q, q ≠ p → t.part q = s.part q))
    ∧ (Passes s (pfMsg s m 0x020B 24 [(4, 4)] (fld m.payload 8 8 % 65536 == 0 && fld m.payload 16 8 % 65536 == 0)) m →
      ∃ t, exec (.bobbinBacking m) s = .next t ∧ Answered s t m (okTo m 0)
        ∧ (t.part p).backing = (if fld m.payload 16 8 = 0 then none else some (fld m.payload 8 8, fld m.payload 16 8))
        ∧ (∀ j, (bobbin t p j).backing = false) ∧ (∀ q, q ≠ p → t.part q = s.part q)))

/-- R206 to R209, R216 to R222, R348: a load is validated, answered with its handle once it has been lowered, and shared by
digest; an unload drops one reference, and the last one the program; hints take effect at a step boundary; the placement log
starts with a fresh header. -/
def Obligations.Programs : Prop :=
  (∀ (s : State) (m : Msg), let p := namedPart m
    Passes s (ownMsg s m 0x0101 8 [] true) m →
    (s.part p).progs.any (fun e => e.2.loading.isSome && (stage1 (extIn m)).isEmpty && e.2.upf.digest == (readUpf (extIn m)).digest)
      = false →
    (loadJob s p (fld m.payload 4 4) = none → ∃ t, exec (.programLoad m) s = .next t ∧ Replies s t m (rspTo m 0x0924 0 [] [] false))
    ∧ (∀ job i g, loadJob s p (fld m.payload 4 4) = some job → stage1 (extIn m) = [] →
      loadedDigest s p (readUpf (extIn m)).digest = some (i, g) →
      ∃ t, exec (.programLoad m) s = .next t ∧ Answered s t m (rspTo m 0 (progHandle s p i) (loadPayload g) [] false)
        ∧ prog t p i = { prog s p i with refs := (prog s p i).refs + 1 } ∧ (∀ j, j ≠ i → prog t p j = prog s p j))
    ∧ (∀ job c w l, loadJob s p (fld m.payload 4 4) = some job →
      (stage1 (extIn m) = [] → loadedDigest s p (readUpf (extIn m)).digest = none) → upfBads s p (extIn m) = (c, w) :: l →
      ∃ t, exec (.programLoad m) s = .next t ∧ Replies s t m (rspTo m c (w * 2 ^ 32) [] [] false))
    ∧ (loadJob s p (fld m.payload 4 4) = some none → stage1 (extIn m) = [] →
      loadedDigest s p (readUpf (extIn m)).digest = none → upfBads s p (extIn m) = [] →
      firmwareUsed s p + 65536 * ((readUpf (extIn m)).skeins.length + addedSkeins s (readUpf (extIn m)))
          + (readUpf (extIn m)).const.length
        ≤ 32 * 2 ^ 20 * ((s.part p).width * (s.part p).height) → ∀ i, freeIndex (s.part p).progs (·.live) 65536 = some i →
      ∃ t, exec (.programLoad m) s = .next t ∧ Pends s t m ∧ (prog t p i).live = true ∧ (prog t p i).refs = 1
        ∧ (prog t p i).upf = readUpf (extIn m) ∧ (prog t p i).loading = some (m.func, m.tag) ∧ t.steps = s.steps
        ∧ (∀ j, j ≠ i → prog t p j = prog s p j))
    ∧ (∀ j, loadJob s p (fld m.payload 4 4) = some (some j) → stage1 (extIn m) = [] →
      loadedDigest s p (readUpf (extIn m)).digest = none → upfBads s p (extIn m) = [] →
      (splitParts s p (readUpf (extIn m)) (s.job j).members = none →
        ∃ t, exec (.programLoad m) s = .next t ∧ Replies s t m (rspTo m 0x0612 0 [] [] false))
      ∧ ∀ parts, splitParts s p (readUpf (extIn m)) (s.job j).members = some parts →
        firmwareUsed (s.modJob j fun x => { x with parts }) p
            + 65536 * ((readUpf (extIn m)).skeins.length + addedSkeins s (readUpf (extIn m))) + (readUpf (extIn m)).const.length
          ≤ 32 * 2 ^ 20 * ((s.part p).width * (s.part p).height) → ∀ i, freeIndex (s.part p).progs (·.live) 65536 = some i →
        ∃ t, exec (.programLoad m) s = .next t ∧ Pends s t m ∧ (prog t p i).upf = readUpf (extIn m) ∧ (prog t p i).job = some j
          ∧ t.job j = { s.job j with parts } ∧ t.steps = s.steps ∧ (∀ k, k ≠ j → t.job k = s.job k)))
  ∧ (∀ (s : State) (m : Msg), let p := namedPart m
    Passes s (ownMsg s m 0x0101 8 [] true) m →
    (s.part p).progs.any (fun e => e.2.loading.isSome && (stage1 (extIn m)).isEmpty && e.2.upf.digest == (readUpf (extIn m)).digest)
      = true →
    exec (.programLoad m) s = .next s)
  ∧ (∀ (s : State) (now p i f tag : Nat) (k : Taken), ready s = true → active s p = true → (prog s p i).loading = some (f, tag) →
    takenOf s f tag = some k →
    ∃ t, exec (.programLoadDone now p i) s = .next t ∧ prog t p i = { prog s p i with loading := none }
      ∧ (∃ r, (t.func f).rsps = (s.func f).rsps ++ [r] ∧ r.tag = tag ∧ r.status = 0
          ∧ r.detail = BitVec.ofNat 64 (progHandle s p i) ∧ r.payload = loadPayload (prog s p i))
      ∧ (∀ j, j ≠ i → prog t p j = prog s p j) ∧ t.steps = s.steps)
  ∧ (∀ (s : State) (m : Msg) (i : Nat), let p := namedPart m
    Passes s (ownMsg s m 0x0102 8 [] true) m → progOf s p (fld m.payload 4 4) = some i →
    ((∃ e ∈ (s.part p).progs, e.2.live = true ∧ e.2.fallback = some i) →
      ∃ t, exec (.programUnload m) s = .next t ∧ Replies s t m (rspTo m 0x0920 0 [] [] false))
    ∧ ((∀ e ∈ (s.part p).progs, e.2.live = false ∨ e.2.fallback ≠ some i) →
      (∃ e ∈ s.steps, e.2.part = p ∧ e.2.prog = i) →
      ∃ t, exec (.programUnload m) s = .next t ∧ Replies s t m (rspTo m 0x0921 0 [] [] false))
    ∧ ((∀ e ∈ (s.part p).progs, e.2.live = false ∨ e.2.fallback ≠ some i) →
      (∀ e ∈ s.steps, e.2.part ≠ p ∨ (e.2.prog ≠ i ∧ e.2.fallback ≠ some i)) →
      ∃ t, exec (.programUnload m) s = .next t ∧ Answered s t m (okTo m 0) ∧ t.steps = s.steps
        ∧ (1 < (prog s p i).refs → prog t p i = { prog s p i with refs := (prog s p i).refs - 1 })
        ∧ ((prog s p i).refs ≤ 1 → (prog t p i).live = false ∧ (prog t p i).gen = ((prog s p i).gen + 1) % 256
            ∧ ∀ r ∈ (t.part p).reservs, r.leaving = true ∨ r.prog ≠ i)))
  ∧ (∀ (s : State) (m : Msg) (i : Nat), let p := namedPart m
    Passes s (ownMsg s m 0x0201 9 [] (decide (fld m.payload 8 1 ≤ 64 ∧ 48 * fld m.payload 8 1 ≤ m.extBytes))) m →
    progOf s p (fld m.payload 4 4) = some i →
    ((∀ k, k < fld m.payload 8 1 → hintOk (s.part p) (extIn m) k = true) → (s.part p).running ≠ none →
      ∃ t, exec (.placementHint m) s = .next t ∧ Answered s t m (okTo m 0)
        ∧ prog t p i = { prog s p i with staged := some ((List.range (fld m.payload 8 1)).map (hintAt (extIn m))) })
    ∧ ((∀ k, k < fld m.payload 8 1 → hintOk (s.part p) (extIn m) k = true) → (s.part p).running = none →
      ∃ t, exec (.placementHint m) s = .next t ∧ Answered s t m (okTo m 0)
        ∧ (prog t p i).hints = (List.range (fld m.payload 8 1)).map (hintAt (extIn m)) ∧ (prog t p i).staged = none
        ∧ (prog t p i).derived
            = derivePoints s p { prog s p i with hints := (List.range (fld m.payload 8 1)).map (hintAt (extIn m)) })
    ∧ ((∃ k, k < fld m.payload 8 1 ∧ hintOk (s.part p) (extIn m) k = false) →
      ∃ t, exec (.placementHint m) s = .next t ∧ Replies s t m (rspTo m 0x0610 0 [] [] false)))
  ∧ (∀ (s : State) (m : Msg) (c : Nat), let p := namedPart m
    Passes s (ownMsg s m 0x0202 17 [] (decide (fld m.payload 16 1 ≤ 1 ∧ (fld m.payload 16 1 = 0 ∨ 1 ≤ fld m.payload 12 4)))) m →
    ctxOf s p (fld m.payload 4 4) = some c →
    (fld m.payload 16 1 = 0 → ∃ t, exec (.placementLog m) s = .next t ∧ Answered s t m (okTo m 0)
      ∧ t.ctx c = { s.ctx c with logOn := false } ∧ t.hbm = s.hbm)
    ∧ (∀ i, fld m.payload 16 1 ≠ 0 → objFor s p c (fld m.payload 8 4) = some i →
      64 + 8 * fld m.payload 12 4 ≤ (memObj s p i).bytes →
      ∃ t, exec (.placementLog m) s = .next t ∧ Answered s t m (okTo m 0)
        ∧ t.ctx c = { s.ctx c with logOn := true, logObj := fld m.payload 8 4, logCap := fld m.payload 12 4, logWritten := 0 }
        ∧ (Memory.wf s = true → hbmRead t p (memObj s p i).base 16 = toLe 8 0 ++ toLe 8 (fld m.payload 12 4))
        ∧ (∀ a, (∀ k, k < 64 → a ≠ hbmAddr p ((memObj s p i).base + k)) → mread t.hbm a = mread s.hbm a)))

/-- R246, R251, R255, R459 to R465: a job whose members have all answered exists under a new handle; a member's refusal or silence
for 10 ms ends it with 0x0614; a derived step is admitted or starts the abort; a notice aborts its job step once and closes the
job's windows. -/
def Obligations.Jobs : Prop :=
  (∀ (s : State) (m : Msg) (answers : List Answer) (j : Nat),
    let n := fld m.payload 4 2
    let b := extIn m
    let got := ((List.range n).map (jobEntry b)).zipIdx.map fun e => memberAnswer s (namedPart m) answers e.2 e.1
    Passes s (pfMsg s m 0x020C 6 [] (decide (2 ≤ n ∧ n ≤ 4096 ∧ m.extBytes = 4 * n)
      && (extBad m || (List.range n).all (fun i => fld b (4 * i + 3) 1 == 0) && fld b 0 2 == myPkg s && fld b 2 1 == namedPart m))) m →
    freeIndex s.jobs (·.live) 256 = some j →
    ((∀ a ∈ got, ∃ x, a = some (some x)) →
      ∃ t, exec (.jobCreate m answers) s = .next t ∧ Answered s t m (okTo m (jobHandle s j)) ∧ (t.job j).live = true
        ∧ (t.job j).members = got.map (fun a => (a.getD none).getD {}) ∧ (t.job j).waiting = [] ∧ (t.job j).jstep = 0
        ∧ (t.job j).broken = false ∧ (t.job j).pairs = pairRoutes s (t.job j).members
        ∧ (t.job j).routes = tableOf (pairRoutes s (t.job j).members) 0 ∧ (∀ k, k ≠ j → t.job k = s.job k))
    ∧ ((some none ∈ got) → ∃ t, exec (.jobCreate m answers) s = .next t ∧ Replies s t m (rspTo m 0x0614 0 [] [] false))
    ∧ (some none ∉ got → none ∈ got →
      ∃ t, exec (.jobCreate m answers) s = .next t ∧ Pends s t m ∧ (t.job j).live = true ∧ (t.job j).waiting ≠ []
        ∧ (t.job j).crTag = some (m.func, m.tag) ∧ (t.job j).askedAt = time s))
  ∧ (∀ (s : State) (now j f tag : Nat) (k : Taken), ready s = true → (s.job j).live = true → (s.job j).waiting ≠ [] →
    10000000 + (s.job j).askedAt < time (advance s now) → (s.job j).crTag = some (f, tag) → takenOf s f tag = some k →
    ∃ t r, exec (.jobMemberTimeout now j) s = .next t ∧ (t.job j).live = false ∧ (t.func f).rsps = (s.func f).rsps ++ [r]
      ∧ r.tag = tag ∧ r.status = 0x0614)
  ∧ (∀ (s : State) (m : Msg) (j : Nat), jobNamed s m = some j →
    (Passes s (ownMsg s m 0x020D 8 [] true) m →
      let l := ((s.job j).members.zipIdx.map fun e => partRecord e.2 e.1 (nth (s.job j).parts e.2 (0xFFFF, 0xFFFF, 0, 1))).take
        (m.extBytes / 16)
      ∃ t, exec (.jobQuery m) s = .next t ∧ Replies s t m (rspTo m 0 l.length [] l.flatten true))
    ∧ (Passes s (pfMsg s m 0x020E 8 [] true) m →
      ∃ t, exec (.jobDestroy m) s = .next t ∧ Answered s t m (okTo m 0) ∧ (t.job j).live = false
        ∧ (t.job j).gen = ((s.job j).gen + 1) % 256
        ∧ (∀ k st n, tfind s.steps k = some st → st.job = some (j, n) → Undecided st → FailsWith t k 0x0D10)
        ∧ (∀ w, w ≠ 0x3FF → (t.window w).isOpen = true → (s.window w).isOpen = true ∧ (t.window w).job ≠ j)))
  ∧ (∀ (s : State) (now h jstep pgen startNo p slot base fbBase : Nat) (desc : List Byte) (split : Split) (j : Nat),
    admits s p = true → slotFree s p slot = true → jobOf s h = some j → memberIdx s j p ≠ 0 →
    memberIdx s j p < (s.job j).members.length →
    let d := padTo 128 desc
    let u := takeSplit s p j split
    let g := (progOf u p (fld d 4 4)).getD 0
    (noticeKept s j jstep = true →
      ∃ t, exec (.derivedStep now h jstep pgen startNo p slot base fbBase ⟨desc, split⟩) s = .next t ∧ t.steps = s.steps
        ∧ noticeKept t j jstep = false)
    ∧ (noticeKept s j jstep = false → pairOk s j 0 pgen startNo = false →
      ∃ t, exec (.derivedStep now h jstep pgen startNo p slot base fbBase ⟨desc, split⟩) s = .next t ∧ t.steps = s.steps
        ∧ (t.job j).broken = true ∧ jstep ∈ (t.job j).aborted)
    ∧ (noticeKept s j jstep = false → pairOk s j 0 pgen startNo = true → (s.job j).broken = false →
      (admitStatus u p d = 0 → (∃ r, reserveBoth u p (fld d 0 4 % 4096) g base
          ((namedFallback u p (prog u p g).upf (fld d 8 4)).getD none) fbBase = some (some r)) →
        (∀ h ∈ fences4 d 96, h = 0xFFFFFF ∨ (tget (s.part p).fences (h % 65536) {}).status.getD 0 = 0) →
        ∃ t st, exec (.derivedStep now h jstep pgen startNo p slot base fbBase ⟨desc, split⟩) s = .next t
          ∧ tfind t.steps slot = some st ∧ st.job = some (j, jstep) ∧ st.seq = jstep ∧ st.part = p ∧ st.state = 1 ∧ st.prog = g
          ∧ st.deadline = fld d 24 8 ∧ st.fail = none ∧ t.funcs = s.funcs)
      ∧ (admitStatus u p d ≠ 0 → jstep ∉ (s.job j).aborted →
        ∃ t, exec (.derivedStep now h jstep pgen startNo p slot base fbBase ⟨desc, split⟩) s = .next t ∧ t.steps = s.steps
          ∧ (t.job j).aborted = (s.job j).aborted ++ [jstep])))
  ∧ (∀ (s : State) (now : Nat) (n : Notice) (j : Nat), ready s = true → s.gst.stopped = true → jobOf s n.job = some j →
    exec (.abortNotice now n) s = .next { advance s now with gst := { s.gst with notices := s.gst.notices ++ [n] } })
  ∧ (∀ (s : State) (now : Nat) (n : Notice) (j : Nat), engines s = true → jobOf s n.job = some j →
    (n.jstep ∈ (s.job j).aborted → ∃ t, exec (.abortNotice now n) s = .next t ∧ t.steps = s.steps ∧ t.windows = s.windows
      ∧ (n.lost = true → (t.job j).broken = true))
    ∧ (n.jstep ∉ (s.job j).aborted →
      ∃ t, exec (.abortNotice now n) s = .next t ∧ n.jstep ∈ (t.job j).aborted
        ∧ (∀ k st, tfind s.steps k = some st → st.job = some (j, n.jstep) → Undecided st →
            tfind t.steps k = none ∨ ∃ c, FailsWith t k c)
        ∧ (∀ w, w ≠ 0x3FF → (t.window w).isOpen = true → (t.window w).job ≠ j)
        ∧ (n.lost = true → (t.job j).broken = true)))
  ∧ (∀ (s : State) (now j jstep at_ : Nat), ready s = true → (jstep, at_) ∈ (s.job j).kept → 10000000 + at_ < time (advance s now) →
    ∃ t, exec (.noticeHoldExpiry now j jstep) s = .next t ∧ noticeKept t j jstep = false
      ∧ t.job j = { s.job j with kept := (s.job j).kept.filter fun k => k.1 != jstep } ∧ (∀ k, k ≠ j → t.job k = s.job k)
      ∧ t.steps = s.steps)

/-- R270 to R275, R490, R499, R500, R585: a partition is created in the order FREE, CREATING, ACTIVE, and destroyed through
SCRUBBING: its contexts, queues, windows and debug grants go at once, and it is FREE again only when its memory and
scratchpads read zero. -/
def Obligations.Partitions : Prop :=
  (∀ (s : State) (m : Msg), Passes s { opcode := 0x0301, critical := true, pfOnly := true, len := some 32, rsv := [(26, 6)],
                                         ranges := decide (fld m.payload 7 1 < 2) } m → Signed s m →
    (createStatus s (namedPart m) (requestedPart m.payload) = 0 →
      ∃ t, exec (.partitionCreate m) s = .next t ∧ Pends s t m ∧ OthersKeep s t m
        ∧ t.part (namedPart m) = { requestedPart m.payload with reqTag := some (m.func, m.tag) }
        ∧ (∀ q, q ≠ namedPart m → t.part q = s.part q)
        ∧ t = { s with funcs := t.funcs, parts := t.parts, dieWays := t.dieWays, lastTaken := t.lastTaken })
    ∧ (createStatus s (namedPart m) (requestedPart m.payload) ≠ 0 →
      ∃ t, exec (.partitionCreate m) s = .next t
        ∧ Replies s t m (rspTo m (createStatus s (namedPart m) (requestedPart m.payload)) 0 [] [] false)))
  ∧ (∀ (s : State) (now p f tag : Nat) (k : Taken), ready s = true → (s.part p).state = 1 → (s.part p).reqTag = some (f, tag) →
    takenOf s f tag = some k →
    ∃ t r, exec (.partitionTablesBuilt now p) s = .next t ∧ (t.part p).state = 2 ∧ (t.part p).reqTag = none
      ∧ (t.part p).lastIssue = time t ∧ (t.func f).rsps = (s.func f).rsps ++ [r] ∧ r.tag = tag ∧ r.status = 0
      ∧ (∀ q, q ≠ p → t.part q = s.part q))
  ∧ (∀ (s : State) (m : Msg), let p := namedPart m
    Passes s { opcode := 0x0302, critical := true, pfOnly := true, len := some 4, rsv := [(1, 3)], named := (s.part p).state != 0 } m →
    Signed s m →
    ((s.part p).state = 2 →
      ∃ t, exec (.partitionDestroy m) s = .next t ∧ (t.part p).state = 3 ∧ (t.part p).reqTag = some (m.func, m.tag)
        ∧ tget t.partGen p 0 = (tget s.partGen p 0 + 1) % 256 ∧ (∀ c, (t.ctx c).part ≠ some p)
        ∧ (∀ e ∈ t.queues, e.2.part ≠ p) ∧ p ∉ t.grants.trace ∧ p ∉ t.grants.scan ∧ p ∉ t.grants.memRead
        ∧ (∀ w, w ≠ 0x3FF → (t.window w).isOpen = true → (t.window w).part ≠ p)
        ∧ (t.part p).running = none ∧ (t.part p).fill = none)
    ∧ ((s.part p).state ≠ 2 → ∃ t, exec (.partitionDestroy m) s = .next t ∧ Replies s t m (rspTo m 0x0710 0 [] [] false)))
  ∧ (∀ (s : State) (now p f tag : Nat) (k : Taken), ready s = true → (s.part p).state = 3 → (s.part p).reqTag = some (f, tag) →
    (s.part p).resetTags = none → takenOf s f tag = some k →
    ∃ t r, exec (.partitionScrubVerified now p true) s = .next t ∧ (t.part p).state = 0
      ∧ (t.func f).rsps = (s.func f).rsps ++ [r] ∧ r.tag = tag ∧ r.status = 0
      ∧ (∀ a, a < 2 ^ 40 → mread t.hbm (hbmAddr p a) = 0)
      ∧ (∀ a, a < hbmAddr p 0 ∨ hbmAddr (p + 1) 0 ≤ a → mread t.hbm a = mread s.hbm a)
      ∧ (∀ e ∈ partTiles (s.part p), (t.tile e).scratch = [] ∧ (t.tile e).bufs = [] ∧ (t.tile e).run = none)
      ∧ (∀ d w, (w, p) ∉ tget t.dieWays d []) ∧ (∀ q, q ≠ p → t.part q = s.part q)
      ∧ (∃ x, t.scrubs.getLast? = some x ∧ x.kind = 1 ∧ x.part = p ∧ x.granules = partGranules (s.part p) ∧ x.done = time t))
  ∧ (∀ (s : State) (now p : Nat), ready s = true → (s.part p).state = 3 → aonUp s = true → s.aon.refclk = true → s.aon.pwrGood = true →
    s.aon.blkResetN = true → s.aon.needBlkCycle = false →
    ∃ t, exec (.partitionScrubVerified now p false) s = .next t ∧ t.parts = [] ∧ t.ctxs = [] ∧ t.steps = [] ∧ t.tiles = [] ∧ t.hbm = []
      ∧ t.life.ready = false ∧ t.life.cause = 7 ∧ t.mainReset = false)

/-! ### Fabric boundary and whorl time -/

/-- R391 to R395, R412, R483, R484: a port that comes up takes its credits and agrees keys before it carries anything; one that goes
down loses its messages and credits and fails every operation on it with 0x0B04; excess credit takes it down with 0xA802; 1 ms
without progress fails an operation's step with 0x0B01. -/
def Obligations.LinkPorts : Prop :=
  (∀ (s : State) (now p cells bulks : Nat), s.mainReset = false → hasPort s p = true → (s.port p).up = false →
    (s.port p).keying = false → (s.port p).shut = false →
    ∃ t, exec (.linkPortUp now p cells bulks) s = .next t ∧ t = { s with aon := t.aon, ports := t.ports, out := .keyFrame p :: s.out }
      ∧ t.port p = { s.port p with keying := true, cellHeld := cells, cellGranted := cells, bulkHeld := bulks, bulkGranted := bulks }
      ∧ (∀ k, k ≠ p → t.port k = s.port k))
  ∧ (∀ (s : State) (p peer : Nat) (chainOk sigOk last : Bool), s.mainReset = false → (s.port p).keying = true →
    (chainOk = false ∨ sigOk = false ∨ (peer ≠ 2 ∧ peer ≠ 3 ∧ peer ≠ 4) → s.coll.init = true →
      ∃ t, exec (.keyExchangeFrame p chainOk sigOk peer last) s = .next t ∧ t.port p = { s.port p with keying := false }
        ∧ (0xA801 : Code) ∈ t.coll.log ∧ t.steps = s.steps)
    ∧ (chainOk = true → sigOk = true → (peer = 2 ∨ peer = 3 ∨ peer = 4) →
      (last = true → ∃ t a b, exec (.keyExchangeFrame p chainOk sigOk peer last) s = .next t ∧ t.coll = s.coll
        ∧ t.port p = { s.port p with keying := false, up := true, txKey := a, rxKey := b, txCtr := 0, rxCtr := 0 })
      ∧ (last = false → exec (.keyExchangeFrame p chainOk sigOk peer last) s = .next { s with out := .keyFrame p :: s.out })))
  ∧ (∀ (s : State) (now p : Nat), s.mainReset = false → ((s.port p).up = true ∨ (s.port p).keying = true) → s.coll.init = true →
    ∃ t, exec (.linkPortDown now p) s = .next t ∧ (0xA801 : Code) ∈ t.coll.log
      ∧ (t.port p).up = false ∧ (t.port p).keying = false ∧ (t.port p).cellHeld = 0 ∧ (t.port p).cellGranted = 0
      ∧ (t.port p).bulkHeld = 0 ∧ (t.port p).bulkGranted = 0 ∧ (∀ m ∈ (t.port p).txq, m.ctl.isSome = true)
      ∧ (∀ k, k ≠ p → (t.port k).up = (s.port k).up)
      ∧ ∀ o ∈ s.remOps, o.port = p → o.kind ≠ 4 → ∀ st, tfind s.steps o.slot = some st → Undecided st → FailsWith t o.slot 0x0B04)
  ∧ (∀ (s : State) (now p n : Nat) (bulk : Bool), s.mainReset = false → (s.port p).up = true →
    ((if bulk then (s.port p).bulkHeld + n ≤ (s.port p).bulkGranted else (s.port p).cellHeld + n ≤ (s.port p).cellGranted) →
      (s.port p).txq = [] →
      ∃ t, exec (.creditReturn now p bulk n) s = .next t ∧ t.coll = s.coll ∧ t.steps = s.steps
        ∧ t.port p = if bulk then { s.port p with bulkHeld := (s.port p).bulkHeld + n }
                     else { s.port p with cellHeld := (s.port p).cellHeld + n })
    ∧ (∀ m, (if bulk then (s.port p).bulkHeld + n ≤ (s.port p).bulkGranted else (s.port p).cellHeld + n ≤ (s.port p).cellGranted) →
      (s.port p).txq = [m] → m.bulk = bulk → (s.port p).shut = false → s.coll.freeze = false → s.gst.stopped = false →
      msgCost m ≤ (if bulk then (s.port p).bulkHeld else (s.port p).cellHeld) + n →
      ∃ t, exec (.creditReturn now p bulk n) s = .next t ∧ txOut p m ∈ t.out ∧ (t.port p).txq = [] ∧ t.steps = s.steps
        ∧ (if bulk then (t.port p).bulkHeld + msgCost m = (s.port p).bulkHeld + n
           else (t.port p).cellHeld + 1 = (s.port p).cellHeld + n))
    ∧ ((if bulk then (s.port p).bulkGranted < (s.port p).bulkHeld + n else (s.port p).cellGranted < (s.port p).cellHeld + n) →
      s.coll.init = true →
      ∃ t, exec (.creditReturn now p bulk n) s = .next t ∧ (0xA802 : Code) ∈ t.coll.log ∧ (t.port p).up = false
        ∧ ∀ m ∈ (t.port p).txq, m.ctl.isSome = true))
  ∧ (∀ (s : State) (now op : Nat) (o : RemOp) (st : Step), engines s = true →
    s.remOps.find? (fun o => o.id == op && o.kind != 4 && decide (1000000 + o.last < time (advance s now))) = some o →
    tfind s.steps o.slot = some st → Undecided st →
    ∃ t, exec (.remoteTimeout now op) s = .next t ∧ FailsWith t o.slot 0x0B01 ∧ (∀ x ∈ t.remOps, x.slot ≠ o.slot)
      ∧ t.coll = s.coll ∧ (∀ k, (t.port k).up = (s.port k).up))
  ∧ (∀ (s : State) (now qp : Nat), s.mainReset = false →
    ∃ t, exec (.queuePairDown now qp) s = .next t ∧ t.coll = s.coll ∧ (∀ k, (t.port k).up = (s.port k).up)
      ∧ ∀ o ∈ s.remOps, o.qp = qp → o.kind ≠ 4 → ∀ st, tfind s.steps o.slot = some st → Undecided st → FailsWith t o.slot 0x0B04)

/-- R204, R234 to R236, R246, R252, R381 to R385, R407, R458, R485, R486: what an accepted frame brings lands in its window, is
dropped as stale and counted, or is dropped with 0xA803; it carries on the operation of its queue pair; a control message is acted
on; a frame whose tag or counter fails lands nowhere, records 0xA501, pulls SECALM_N low and takes the port through a new key
agreement. -/
def Obligations.Arrivals : Prop :=
  (∀ (s : State) (i : Instr) (now p : Nat) (x : Brought), s.mainReset = false → (s.port p).up = true → Arrives i now p x →
    let how := landing (advance s now) x.qp x.kind x.gen x.window x.pos x.data.length
    (frameOk s p x.ctr x.tagOk = true →
      (how = .land → x.window ≠ 0x3FF → x.kind = 0 → (∀ o ∈ s.remOps, o.qp ≠ x.qp) → Memory.wf s = true →
        let off := (s.window x.window).base + x.pos
        ∃ t, exec i s = .next t
          ∧ hbmRead t (s.window x.window).part off x.data.length = x.data
          ∧ (∀ a, (∀ k, k < x.data.length → a ≠ hbmAddr (s.window x.window).part off + k) → mread t.hbm a = mread s.hbm a)
          ∧ (∀ b ∈ x.bad, hbmAddr (s.window x.window).part (b + off) / 64 ∈ t.hbmPoison)
          ∧ t.port p = { s.port p with rxCtr := ((s.port p).rxCtr + 1) % 2 ^ 96 } ∧ t.coll = s.coll ∧ t.steps = s.steps)
      ∧ (how = .stale →
        ∃ t, exec i s = .next t ∧ t.hbm = s.hbm ∧ t.coll = s.coll ∧ t.remOps = s.remOps
          ∧ tget t.stale (s.window x.window).part 0 = tget s.stale (s.window x.window).part 0 + 1)
      ∧ (how = .bad → s.coll.init = true →
        ∃ t, exec i s = .next t ∧ t.hbm = s.hbm ∧ (0xA803 : Code) ∈ t.coll.log ∧ t.remOps = s.remOps ∧ t.steps = s.steps)
      ∧ (∀ o, how = .land → s.remOps.find? (fun o => o.qp == x.qp) = some o →
        let bad := o.bad ++ x.bad.map (· + o.data.length)
        (o.kind = 0 → o.data.length + x.data.length < o.want →
          ∃ t, exec i s = .next t ∧ t.hbm = s.hbm ∧ t.steps = s.steps
            ∧ ∃ y ∈ t.remOps, y.id = o.id ∧ y.data = o.data ++ x.data ∧ y.bad = bad ∧ y.last = time t)
        ∧ (∀ st r, o.kind = 0 → o.want ≤ o.data.length + x.data.length → o.added = false →
          tfind s.steps o.slot = some st → (s.part st.part).trace.on = false →
          (s.tile o.tile).run = some r → r.slot = o.slot → r.skein = o.skein →
          ∃ t, exec i s = .next t
            ∧ Stores s t o.tile o.slot st (landPuts (viewBits (stepFile s st) o.dst) (o.data ++ x.data) bad)
            ∧ (t.tile o.tile).run = some { r with fetchOut := r.fetchOut - 1 } ∧ ∀ y ∈ t.remOps, y.id ≠ o.id)
        ∧ (∀ st r, o.kind = 1 → x.kind = 2 → o.added = false →
          tfind s.steps o.slot = some st → (s.part st.part).trace.on = false →
          (s.tile o.tile).run = some r → r.slot = o.slot → r.skein = o.skein →
          ∃ t, exec i s = .next t ∧ t.hbm = s.hbm ∧ t.remOps = s.remOps.filter (fun y => y.id != o.id)
            ∧ tfind t.steps o.slot = some { st with requests := st.requests - 1, lastOp := time t }
            ∧ (t.tile o.tile).run = some { r with opsOut := r.opsOut - 1 })
        ∧ (∀ c, o.kind = 2 → x.kind = 1 → o.coll = some c →
          let rev := c.ringOf (c.place x.pos).1
          let e := (c.place x.pos).1
          let us := cutUnits c.wireBytes (pieceOf x)
          let sums := c.sums e (us.map fun u => (leNat u.1, u.2))
          ((c.flow rev).eng = none →
            ∃ t, exec i s = .next t ∧ t.hbm = s.hbm ∧ t.steps = s.steps ∧ ∃ y ∈ t.remOps, y.id = o.id
              ∧ y.coll = some (c.setFlow rev { c.flow rev with inbox := (c.flow rev).inbox ++ [pieceOf x] }))
          ∧ (∀ eng st, (c.flow rev).eng = some eng → (c.place x.pos).2 = true → c.segOf e = c.own → c.pattern = 1 →
            tfind s.steps o.slot = some st →
            ∃ t, exec i s = .next t
              ∧ Stores s t o.tile o.slot st (unitPuts (stepFile s st) o.dst c e (c.pack c.fmt c.unitBytes sums))
              ∧ ∃ y ∈ t.remOps, y.id = o.id
                ∧ y.coll = some (c.setFlow rev { c.flow rev with got := (c.flow rev).got + us.length }))
          ∧ (∀ eng q, (c.flow rev).eng = some eng → (c.place x.pos).2 = true → c.segOf e ≠ c.own →
            memberPort s c.job (c.first + c.next rev) = some q →
            let out := c.pack c.wire c.wireBytes sums
            ∃ t, exec i s = .next t ∧ t.hbm = s.hbm ∧ t.steps = s.steps
              ∧ ∀ m ∈ unitMsgs eng o c (tget (s.job c.job).routes (c.first + c.next rev) []) c.wireBytes (e * c.wireBytes) out.length out,
                  Handed t q m))))
    ∧ (frameOk s p x.ctr x.tagOk = false → s.coll.init = true →
      ∃ t, exec i s = .next t ∧ (0xA501 : Code) ∈ t.coll.log ∧ t.aon.secalmN = false
        ∧ (t.port p).up = false ∧ (t.port p).keying = true ∧ (t.port p).rxCtr = (s.port p).rxCtr
        ∧ (t.port p).cellHeld = (s.port p).cellGranted ∧ Out.keyFrame p ∈ t.out))
  ∧ (∀ (s : State) (now p : Nat) (b : Bulk), s.mainReset = false → (s.port p).up = true → 1 ≤ b.length → b.length ≤ 8192 →
    frameOk s p b.frameCtr b.tagOk = true → b.kind = 0 → b.window ≠ 0x3FF → (∀ o ∈ s.remOps, o.qp ≠ b.qp) → Memory.wf s = true →
    let data := slice b.payload 0 b.length
    landing (advance s now) b.qp b.kind b.gen b.window b.offset data.length = .land →
    ∃ t, exec (.bulkMessageArrival now p b) s = .next t ∧ t.steps = s.steps
      ∧ hbmRead t (s.window b.window).part ((s.window b.window).base + b.offset) data.length = data)
  ∧ (∀ (s : State) (now p : Nat) (c : Cell) (x : Ctl), s.mainReset = false → (s.port p).up = true →
    frameOk s p c.frameCtr c.tagOk = true → c.window = 0x3FF → c.gen = (s.window 0x3FF).gen → c.kind = 2 → c.ctl = some x →
    (∀ o ∈ s.remOps, o.qp ≠ c.qp) →
    (∀ q pkg digest chunks rate f, x = .probeAnswer q pkg digest chunks rate → active s q = true → (s.part q).fill = some f →
      pkg ∈ f.probing → f.probing.erase pkg ≠ [] → askedDigest (bobbin s q f.bobbin) = digest →
      let want := heldChunks (bobbin s q f.bobbin)
      let serves : Prop := want ≠ [] ∧ (∀ k ∈ want, k ∈ chunks) ∧ f.peers.length < 6
        ∧ ∀ k ∈ f.peers, (routeTo s k).map (routePort s) ≠ (routeTo s pkg).map (routePort s)
      (serves → ∃ t, exec (.cellArrival now p c) s = .next t ∧ t.steps = s.steps
        ∧ (t.part q).fill = some { f with probing := f.probing.erase pkg, peers := f.peers ++ [pkg], rates := tput f.rates pkg rate })
      ∧ (¬ serves → ∃ t, exec (.cellArrival now p c) s = .next t ∧ t.steps = s.steps
        ∧ (t.part q).fill = some { f with probing := f.probing.erase pkg }))
    ∧ (∀ pkg q gen digest chunks k i b h r, x = .request pkg q gen digest chunks →
      s.parts.findSome? (fun e => if e.2.state = 2 then (servable s e.1 pkg digest chunks).map fun b => (e.1, b) else none)
        = some (k, i, b) → routeTo s pkg = some (h :: r) →
      ∃ t, exec (.cellArrival now p c) s = .next t ∧ pkg ∈ (bobbin t k i).serving ∧ t.steps = s.steps)
    ∧ (∀ h j ms sets q, x = .ask h j ms sets → memberHere s ms j = some q → active s q = true → enrolledAll s sets = true →
      tfind s.jobs (h % 256) = none →
      ∃ t, exec (.cellArrival now p c) s = .next t ∧ t.steps = s.steps
        ∧ t.job (h % 256) = { live := true, gen := h / 256 % 256, members := ms.map fun m => { pkg := m.1, part := m.2 } })
    ∧ (∀ h k pgen startNo store rest j f tag v, x = .answer h k true pgen startNo store rest → jobOf s h = some j →
      (s.job j).waiting = [k] → (s.job j).crTag = some (f, tag) → takenOf s f tag = some v →
      ∃ t r, exec (.cellArrival now p c) s = .next t ∧ (t.job j).waiting = [] ∧ (t.job j).live = true
        ∧ (t.func f).rsps = (s.func f).rsps ++ [r] ∧ r.tag = tag ∧ r.status = 0 ∧ r.detail = BitVec.ofNat 64 (jobHandle s j))
    ∧ (∀ h k pgen startNo store rest j f tag v, x = .answer h k false pgen startNo store rest → jobOf s h = some j →
      k ∈ (s.job j).waiting → (s.job j).crTag = some (f, tag) → takenOf s f tag = some v →
      ∃ t r, exec (.cellArrival now p c) s = .next t ∧ (t.job j).live = false
        ∧ (t.func f).rsps = (s.func f).rsps ++ [r] ∧ r.tag = tag ∧ r.status = 0x0614)
    ∧ (∀ h j table, x = .routes h table → jobOf s h = some j →
      ∃ t, exec (.cellArrival now p c) s = .next t ∧ (t.job j).routes = table ∧ t.steps = s.steps)
    ∧ (∀ h j, x = .gone h → jobOf s h = some j →
      ∃ t, exec (.cellArrival now p c) s = .next t ∧ (t.job j).live = false
        ∧ ∀ k st n, tfind s.steps k = some st → st.job = some (j, n) → Undecided st → FailsWith t k 0x0D10)
    ∧ (∀ h j jstep m, x = .gate h jstep m → jobOf s h = some j →
      ∃ t, exec (.cellArrival now p c) s = .next t ∧ (jstep, m) ∈ (t.job j).gates ∧ t.steps = s.steps)
    ∧ (∀ h j jstep k slot st, x = .skein h jstep k → jobOf s h = some j → tfind s.steps slot = some st →
      st.job = some (j, jstep) →
      ∃ t st', exec (.cellArrival now p c) s = .next t ∧ tfind t.steps slot = some st' ∧ skDone st' k = true)
    ∧ (∀ y j h r, x = .fetch y → jobOf s y.job = some j →
      let w := s.window y.window
      w.isOpen = true → w.gen = y.gen → w.job = j → (∀ q ∈ y.ranges, q.1 + q.2 ≤ w.size) →
      tfind (s.job j).routes y.member = some (h :: r) → Waits s (hopPort s.variant h) →
      ∃ t, exec (.cellArrival now p c) s = .next t ∧ t.hbm = s.hbm ∧ t.steps = s.steps
        ∧ (t.port (hopPort s.variant h)).txq = (s.port (hopPort s.variant h)).txq
          ++ dataMsgs (2048 + ((partDies (s.part w.part))[0]?).getD 0) y.qp 0 y.back w.part (h :: r) (y.ranges.map fun q =>
            { pos := q.1, bytes := hbmRead s w.part (w.base + q.1) q.2
              bad := (List.range q.2).filter fun i => hbmPoisoned s w.part (w.base + q.1 + i) 1 })))

/-- R156, R203, R405 to R408: a reducer runs the plan of the earliest deadline among the eight it holds, a tile one that was lowered
for its partition; a plan that starts sends the partial sums of the segment that starts here; with the last plan of a COLL its
skein's wait ends. -/
def Obligations.Plans : Prop :=
  (∀ (s : State) (now p q' : Nat) (q : Plan) (o : RemOp) (c : Coll), engines s = true → reducerFree s p = true →
    minBy (fun q => deadlineRank q.deadline) ((s.reducer p).plans.take 8) = some q →
    s.remOps.find? (fun o => o.id == q.op) = some o → o.coll = some c → memberPort s c.job (c.first + c.next q.rev) = some q' →
    (∀ st, tfind s.steps q.slot = some st → (s.part st.part).trace.on = false) →
    ∃ t, exec (.planStart now (2112 + p)) s = .next t
      ∧ t.reducer p = { s.reducer p with plans := (s.reducer p).plans.erase q, run := some q }
      ∧ (∀ k, k ≠ p → t.reducer k = s.reducer k)
      ∧ (∃ y c', y ∈ t.remOps ∧ y.id = o.id ∧ y.coll = some c' ∧ (c'.flow q.rev).eng = some (2112 + p) ∧ (c'.flow q.rev).inbox = [])
      ∧ (c.pattern ≤ 1 → (c.flow q.rev).inbox = [] →
          let h := c.half q.rev (c.prev q.rev)
          let us := c.pack c.wire c.wireBytes ((List.range (h.2 - h.1)).map fun k => c.contrib (h.1 + k))
          t.steps = s.steps ∧ t.hbm = s.hbm
            ∧ ∀ m ∈ unitMsgs (2112 + p) o c (tget (s.job c.job).routes (c.first + c.next q.rev) []) c.wireBytes (h.1 * c.wireBytes)
                us.length us, Handed t q' m))
  ∧ (∀ (s : State) (now e q' : Nat) (q : Plan) (st : Step) (o : RemOp) (c : Coll), engines s = true → e < 2048 →
    minBy (fun q => deadlineRank q.deadline) (addedFor s e) = some q → tfind s.steps q.slot = some st →
    s.remOps.find? (fun o => o.id == q.op) = some o → o.coll = some c → memberPort s c.job (c.first + c.next q.rev) = some q' →
    ∃ t, exec (.planStart now e) s = .next t
      ∧ (t.tile e).run = some { slot := q.slot, startAt := time t, skein := q.added, issued := true, plan := some q }
      ∧ t.addedWork = s.addedWork.erase q ∧ t.reducers = s.reducers
      ∧ (∃ y c', y ∈ t.remOps ∧ y.id = o.id ∧ y.coll = some c' ∧ (c'.flow q.rev).eng = some e ∧ (c'.flow q.rev).inbox = []))
  ∧ (∀ (s u : State) (now e busy : Nat) (q : Plan) (st : Step) (o : RemOp), engines s = true → planOn s e = some q →
    planWhole s q = true → tfind s.steps q.slot = some st → s.remOps.find? (fun o => o.id == q.op && o.slot == q.slot) = some o →
    o.kind = 2 → o.added = false → s.coll.inject = [] → (s.part st.part).trace.on = false →
    u = (if e < 2048 then s.modTile e fun x => { x with run := none }
         else s.modReducer (e - 2112) fun x => { x with run := none }) →
    ∃ t st', exec (.planComplete now e busy) s = .next t ∧ planOn t e = none ∧ t.hbm = s.hbm ∧ t.coll = s.coll
      ∧ tfind t.steps q.slot = some st' ∧ st'.skeins = st.skeins
      ∧ (planLeft u q.op = true → t.remOps = s.remOps ∧ st' = st)
      ∧ (planLeft u q.op = false → t.remOps = s.remOps.filter (fun y => y.id != o.id) ∧ st'.requests = st.requests - 1
          ∧ st'.lastOp = time t
          ∧ ∀ r, (u.tile o.tile).run = some r → r.slot = o.slot → r.skein = o.skein →
              (t.tile o.tile).run = some { r with opsOut := r.opsOut - 1 }))

/-- R18, R19, R396, R397: an edge inside the window gives the outstanding message its send time, any other is discarded and counts
0x6901, a pulse shorter than 4 ns or within 250 ns of the last edge is ignored; a message not seen in 500 ns has no send time;
one message is outstanding at a time. -/
def Obligations.SyncMessages : Prop :=
  (∀ (s : State) (now high : Nat), aonUp s = true →
    (∀ p t0 n v r, 4 ≤ high → (∀ e, s.aon.lastEdge = some e → 250 + e ≤ time (advance s now)) → s.aon.outstanding = some (p, t0) →
      time (advance s now) ≤ 500 + t0 → (syncOf s p).sends = (n, v) :: r →
      ∃ t, exec (.whorlSyncEdge now high) s = .next t ∧ t = { s with aon := t.aon } ∧ t.aon.outstanding = none
        ∧ t.aon.lastEdge = some (time t) ∧ (syncOf t p).sends = (n, some (time t)) :: r ∧ (∀ k, k ≠ p → syncOf t k = syncOf s k))
    ∧ (4 ≤ high → (∀ e, s.aon.lastEdge = some e → 250 + e ≤ time (advance s now)) →
      (s.aon.outstanding = none ∨ ∃ p t0, s.aon.outstanding = some (p, t0) ∧ 500 + t0 < time (advance s now)) →
      ∃ t, exec (.whorlSyncEdge now high) s = .next t ∧ t.aon.outstanding = none ∧ t.aon.sync = s.aon.sync
        ∧ t.aon.lastEdge = s.aon.lastEdge
        ∧ tget t.coll.corr 41 0 = min 0xFFFF (tget s.coll.corr 41 0 + 1) ∧ t.coll.status = s.coll.status)
    ∧ (high < 4 ∨ (∃ e, s.aon.lastEdge = some e ∧ time (advance s now) < 250 + e) →
      exec (.whorlSyncEdge now high) s = .next s))
  ∧ (∀ (s : State) (now p t0 : Nat), aonUp s = true → s.aon.outstanding = some (p, t0) → 500 + t0 < time (advance s now) →
    ∃ t, exec (.syncWindowExpiry now) s = .next t ∧ t = { s with aon := t.aon } ∧ t.aon.outstanding = none
      ∧ t.aon.sync = s.aon.sync)
  ∧ (∀ (s : State) (now p : Nat), aonUp s = true → s.mainReset = false → (s.port p).up = true → s.coll.freeze = false →
    (s.aon.outstanding = none → 0 < (s.port p).cellHeld →
      let prev := sendTime (syncOf s p) ((65535 + (syncOf s p).seq) % 65536)
      let arr := (syncOf s p).arrival.getD 0
      ∃ t, exec (.syncSend now p) s = .next t ∧ t.aon.outstanding = some (p, time t)
        ∧ t.out = .sync p (syncOf s p).seq prev arr (syncOf s p).arrSeq
            (syncCell p (syncOf s p).seq prev arr (syncOf s p).arrSeq) :: s.out
        ∧ (syncOf t p).seq = ((syncOf s p).seq + 1) % 65536
        ∧ t.port p = { s.port p with cellHeld := (s.port p).cellHeld - 1 } ∧ (∀ k, k ≠ p → t.port k = s.port k)
        ∧ t = { s with aon := t.aon, ports := t.ports, out := t.out })
    ∧ (s.aon.outstanding ≠ none ∨ (s.port p).cellHeld = 0 → exec (.syncSend now p) s = .next s))

/-- R398 to R403: a valid pair from the parent measures the offset; the first one is adopted in one step, one beyond 10 us is a step
forward or a hold counted as 0x6905, a smaller one leaves the count to the slew; 100 us without the parent is holdover; package 0
starts the epoch; a comparator fires once its value is reached; reading WHL_TIME_LO latches the high half. -/
def Obligations.WhorlTime : Prop :=
  (∀ (s : State) (now p a b b2 : Nat) (m : SyncMsg), aonUp s = true → s.mainReset = false → (s.port p).up = true → m.nbSynced = true →
    (s.aon.root && s.aon.synced) = false → s.aon.parentPort = p → (syncOf s p).arrival = some a →
    (syncOf s p).arrSeq = (65535 + m.seq) % 65536 → (∀ e ∈ s.aon.sync, e.1 ≠ p → canParent (advance s now) e = false) →
    m.prevSend = some b → sendTime (syncOf s p) m.prevSeq = some b2 →
    let o2 : Int := ((a : Int) - b) - ((m.prevArrival : Int) - b2)
    (s.aon.adopted = true → -20000 ≤ o2 → o2 ≤ 20000 →
      ∃ t, exec (.syncArrival now p m) s = .next t ∧ t = { s with aon := t.aon } ∧ t.aon.offset16 = 8 * o2 ∧ t.aon.synced = true
        ∧ t.aon.holdover = false ∧ time t = time (advance s now) ∧ t.aon.whorlHold = (advance s now).aon.whorlHold
        ∧ (syncOf t p).lastValid = time t ∧ (syncOf t p).arrSeq = m.seq ∧ (syncOf t p).arrival = some (time t))
    ∧ (s.aon.adopted = false → ∃ t, exec (.syncArrival now p m) s = .next t ∧ t.aon.adopted = true ∧ t.aon.offset16 = 8 * o2
        ∧ time t = ((time (advance s now) : Int) - o2 / 2).toNat)
    ∧ (s.aon.adopted = true → o2 < -20000 →
      ∃ t, exec (.syncArrival now p m) s = .next t ∧ time t = ((time (advance s now) : Int) - o2 / 2).toNat
        ∧ tget t.coll.corr 41 0 = min 0xFFFF (tget s.coll.corr 41 0 + 1))
    ∧ (s.aon.adopted = true → 20000 < o2 →
      ∃ t, exec (.syncArrival now p m) s = .next t ∧ time t = time (advance s now) ∧ t.aon.whorlHold = some (o2 / 2).toNat
        ∧ tget t.coll.corr 41 0 = min 0xFFFF (tget s.coll.corr 41 0 + 1)))
  ∧ (∀ (s : State) (now : Nat), aonUp s = true → s.aon.synced = true → s.aon.root = false → s.aon.parentPort ≠ 7 →
    100000 + (syncOf s s.aon.parentPort).lastValid < time (advance s now) → bestParent (advance s now) = none →
    ∃ t, exec (.parentTimeout now) s = .next t ∧ t.aon.synced = false ∧ t.aon.holdover = true ∧ t.aon.holdSince = time t
      ∧ t.aon.parentPort = 7 ∧ time t = time (advance s now) ∧ tget t.coll.corr 41 0 = min 0xFFFF (tget s.coll.corr 41 0 + 1))
  ∧ (∀ (s : State) (now : Nat), aonUp s = true → myPkg s = 0 → s.aon.adopted = false → bestParent (advance s now) = none →
    1000000 + s.aon.aonSince ≤ time (advance s now) →
    ∃ t, exec (.fabricEpochStart now) s = .next t ∧ time t = 0 ∧ t.aon.root = true ∧ t.aon.synced = true ∧ t.aon.adopted = true
      ∧ t.aon.depth = 0 ∧ t.coll.log = s.coll.log ∧ t.parts = s.parts ∧ t.steps = s.steps)
  ∧ (∀ (s : State) (now n : Nat), aonUp s = true → due (advance s now) (cmpOf s n) = true →
    (12 ≤ n ∨ s.aon.asleep = true →
      ∃ t, exec (.comparatorFire now n) s = .next t ∧ cmpOf t n = { cmpOf s n with fired := true }
        ∧ (∀ k, k ≠ n → 12 ≤ k ∨ s.aon.asleep = true → cmpOf t k = cmpOf s k) ∧ exec (.comparatorFire now n) t = .next t)
    ∧ (n < 12 → s.aon.asleep = false →
      (∀ i j, i < 12 → j < 12 → (cmpOf s i).armed = true → (cmpOf s j).armed = true → (cmpOf s i).value = (cmpOf s j).value → i = j) →
      ∃ t, exec (.comparatorFire now n) s = .next t
        ∧ ∀ v ∈ expiries t, ∃ k, k < 12 ∧ (cmpOf t k).armed = true ∧ (cmpOf t k).fired = false ∧ (cmpOf t k).value = v))
  ∧ (∀ (s : State) (f : Nat), (s.func f).enabled = true →
    (readForced s f .whl = none →
      exec (.whlTimeLo f) s = .next { s with aon := { s.aon with timeHi := time s / 2 ^ 32 % 2 ^ 32 },
                                             out := .read f (BitVec.ofNat 64 (time s % 2 ^ 32)) :: s.out })
    ∧ (s.mainReset = true → exec (.whlTimeLo f) s = .next { s with out := .read f 0xFFFFFFFF :: s.out }))

/-! ### Host coupling, rings, registers -/

/-- R31, R358 to R362, R454, R573: an access to device memory moves the bytes of the objects mapped for the host; a refused one is
discarded, reads all-ones with poison, and counts 0x6702 once in a millisecond; during a fatal freeze every read is all-ones; a
bias change covers whole pages; a corrected HBM read counts 0x6401, a poisoned one records 0xA402. -/
def Obligations.DeviceMemory : Prop :=
  (∀ (s : State) (now addr len : Nat), s.host.linkUp = true → 0 < len → addr + len ≤ 2 ^ 46 → s.mainReset = false →
    s.coll.freeze = false →
    let p := addr / 2 ^ 40
    let off := addr % 2 ^ 40
    ((∀ i, i < len → served s p (off + i) false = true) →
      (∃ t l, exec (.cxlMemAccess now addr len none) s = .next t ∧ l.length = len
        ∧ t = { s with aon := t.aon, out := .memRead (hbmRead s p off len) l :: s.out })
      ∧ (∀ bs, Memory.wf s = true →
        ∃ t, exec (.cxlMemAccess now addr len (some bs)) s = .next t ∧ hbmRead t p off len = slice bs 0 len
          ∧ (∀ a, (∀ k, k < len → a ≠ hbmAddr p off + k) → mread t.hbm a = mread s.hbm a)
          ∧ t = { s with aon := t.aon, hbm := t.hbm, hbmPoison := t.hbmPoison }))
    ∧ ((∃ i, i < len ∧ served s p (off + i) false = false) → off % 64 + len ≤ 64 → s.coll.init = true →
      (∃ t, exec (.cxlMemAccess now addr len none) s = .next t
        ∧ t.out = .memRead (List.replicate len 0xFF) (List.replicate len true) :: s.out ∧ t.hbm = s.hbm
        ∧ tget t.coll.corr 39 0 = (if s.coll.refusedMs = some (time t / 1000000) then tget s.coll.corr 39 0
            else min 0xFFFF (tget s.coll.corr 39 0 + 1)))
      ∧ ∀ bs, ∃ t, exec (.cxlMemAccess now addr len (some bs)) s = .next t ∧ t.hbm = s.hbm ∧ t.out = s.out
        ∧ tget t.coll.corr 39 0 = (if s.coll.refusedMs = some (time t / 1000000) then tget s.coll.corr 39 0
            else min 0xFFFF (tget s.coll.corr 39 0 + 1))))
  ∧ (∀ (s : State) (now addr len : Nat), s.host.linkUp = true → 0 < len → addr + len ≤ 2 ^ 46 → s.coll.freeze = true →
    (∃ t, exec (.cxlMemAccess now addr len none) s = .next t
      ∧ t = { s with aon := t.aon, out := .memRead (List.replicate len 0xFF) (List.replicate len false) :: s.out })
    ∧ ∀ bs, ∃ t, exec (.cxlMemAccess now addr len (some bs)) s = .next t ∧ t = { s with aon := t.aon })
  ∧ (∀ (s : State) (now off len : Nat), s.host.linkUp = true → 0 < len → off + len ≤ 2 ^ 28 → s.mainReset = false →
    s.coll.freeze = false → s.life.minimal = false → (s.func 0).inFlr = false →
    let p := s.host.aperPart
    let o := s.host.aperOffset * 2 ^ 28 + off
    (s.host.aperEnable = true → (∀ i, i < len → served s p (o + i) true = true) →
      ∃ t l, exec (.apertureAccess now off len none) s = .next t ∧ l.length = len
        ∧ t = { s with aon := t.aon, out := .memRead (hbmRead s p o len) l :: s.out })
    ∧ (∀ bs, s.host.aperEnable = true → (∀ i, i < len → served s p (o + i) false = true) → Memory.wf s = true →
      ∃ t, exec (.apertureAccess now off len (some bs)) s = .next t ∧ hbmRead t p o len = slice bs 0 len
        ∧ (∀ a, (∀ k, k < len → a ≠ hbmAddr p o + k) → mread t.hbm a = mread s.hbm a)
        ∧ t = { s with aon := t.aon, hbm := t.hbm, hbmPoison := t.hbmPoison })
    ∧ (s.host.aperEnable = false →
      ∃ t, exec (.apertureAccess now off len none) s = .next t ∧ t.hbm = s.hbm
        ∧ t.out = .memRead (List.replicate len 0xFF) (List.replicate len true) :: s.out))
  ∧ (∀ (s : State) (m : Msg), let off := fld m.payload 8 8
    let n := fld m.payload 16 8
    let b := fld m.payload 24 1
    let p := namedPart m
    (∀ i, objOf s p (fld m.payload 4 4) = some i → n ≤ (memObj s p i).bytes → off ≤ (memObj s p i).bytes - n →
      Passes s { opcode := 0x0502, len := some 25, rsv := [(1, 3)], named := ownPart s m
                 ranges := off % 4096 == 0 && n % 4096 == 0 && decide (b ≤ 1) } m →
      ∃ t, exec (.biasSet m) s = .next t ∧ Answered s t m (okTo m 0) ∧ OthersKeep s t m
        ∧ (∀ g, g ∈ (memObj t p i).pages ↔ if off / 4096 ≤ g ∧ g < off / 4096 + n / 4096 then b = 1 else g ∈ (memObj s p i).pages)
        ∧ memObj t p i = { memObj s p i with pages := (memObj t p i).pages }
        ∧ (∀ j, j ≠ i → memObj t p j = memObj s p j) ∧ t.hbm = s.hbm)
    ∧ (objOf s p (fld m.payload 4 4) = none →
      Passes s { opcode := 0x0502, len := some 25, rsv := [(1, 3)], named := ownPart s m
                 ranges := off % 4096 == 0 && n % 4096 == 0 && decide (b ≤ 1) } m →
      ∃ t, exec (.biasSet m) s = .next t ∧ Replies s t m (rspTo m 0x0741 0 [] [] false)))
  ∧ (∀ (s : State) (now port tag slot g addr : Nat), s.mainReset = false → port / 4 < granuleCount s.variant → s.coll.inject = [] →
    (g = tget s.slotGen slot 0 → exec (.hbmReadReturn now port tag slot g addr false false) s
      = .next { advance s now with hbmReads := s.hbmReads.filter fun q => !(q.port == port && q.tag == tag && q.line == addr) })
    ∧ (s.coll.init = true → ∃ t, exec (.hbmReadReturn now port tag slot g addr false true) s = .next t
        ∧ tget t.coll.corr 36 0 = min 0xFFFF (tget s.coll.corr 36 0 + 1) ∧ t.hbmPoison = s.hbmPoison ∧ t.steps = s.steps)
    ∧ (s.coll.init = true → ∀ corrected, ∃ t, exec (.hbmReadReturn now port tag slot g addr true corrected) s = .next t
        ∧ (0xA402 : Code) ∈ t.coll.log ∧ portLine s port addr ∈ t.hbmPoison ∧ t.steps = s.steps ∧ t.hbm = s.hbm)
    ∧ (∀ q, tfind s.quar slot = some q → g ≠ tget s.slotGen slot 0 →
        ∃ t, exec (.hbmReadReturn now port tag slot g addr false false) s = .next t
          ∧ tfind t.quar slot = some { q with openReqs := q.openReqs - 1 } ∧ t.steps = s.steps ∧ t.hbm = s.hbm))

/-- R245, R370 to R372, R376, R377: when the host link goes down every enabled function is detached, its rings are out of use
and the entries of the last 20 us that nothing confirmed are held; lost traffic fails its steps with 0x0A01 and lost writes
record 0xA701; fills from backing copies fail; the link comes up with nothing else changed; a host read that does not return
records 0xA703. R279, R281, R345, R500: an FLR takes back everything a function holds in its partitions and leaves it its key,
its last counter and the next function generation; when it completes the object parts read zero. -/
def Obligations.HostLinkAndFunctionReset : Prop :=
  (∀ (s : State) (now : Nat) (writes : Bool) (lost : List Nat) (copies : List (Nat × Nat)), s.host.linkUp = true →
    (s.mainReset = true → ∃ t, exec (.hostLinkDown now writes ⟨lost, copies⟩) s = .next t
      ∧ t = { s with aon := t.aon, host := { s.host with linkUp := false, atsValid := false } })
    ∧ (s.mainReset = false →
      ∃ t, exec (.hostLinkDown now writes ⟨lost, copies⟩) s = .next t ∧ t.host = { s.host with linkUp := false, atsValid := false }
        ∧ (writes = true → s.coll.init = true → (0xA701 : Code) ∈ t.coll.log)
        ∧ (∀ k st, k ∈ lost → tfind s.steps k = some st → touchesHost s st = true → Undecided st → FailsWith t k 0x0A01)
        ∧ (∀ c ∈ copies, (bobbin t c.1 c.2).backing = false)
        ∧ (∀ q f, (s.part q).fill = some f → f.backing = true → (t.part q).fill = none
            ∧ ∀ k st, k ∈ waitersOf s q f.bobbin → k ∉ lost → tfind s.steps k = some st → Undecided st → FailsWith t k 0x0602)
        ∧ (∀ f, (s.func f).enabled = true →
          (t.func f).enabled = true ∧ (t.func f).detached = true ∧ (t.func f).enable = false ∧ (t.func f).disabling = false
            ∧ (t.func f).evtEnable = false ∧ (t.func f).evtRecent = [] ∧ (∀ r ∈ (t.func f).rsps, r.boot = true)
            ∧ (∀ k ∈ (t.func f).taken, k.boot = true) ∧ (t.func f).log2 = (s.func f).log2
            ∧ ((∀ r ∈ (s.func f).evtRecent, r.2.kind ≠ 5) → (t.func f).evtHeld = (((s.func f).evtRecent.filter fun r => decide (time t < 20000 + r.1)).map fun r =>
                { r.2 with held := true, redelivered := true, posted := time t })
              ++ (s.func f).evtHeld.filter fun e => e.kind != 5))))
  ∧ (∀ (s : State) (now : Nat), s.host.linkUp = false →
    ∃ t, exec (.hostLinkUp now) s = .next t ∧ t = { s with aon := t.aon, host := { s.host with linkUp := true } })
  ∧ (∀ (s : State) (now slot : Nat) (st : Step), s.mainReset = false → s.coll.init = true → tfind s.steps slot = some st → Undecided st →
    ∃ t, exec (.hostMasterReadTimeout now slot) s = .next t ∧ (0xA703 : Code) ∈ t.coll.log ∧ FailsWith t slot 0x0A01
      ∧ (∀ k, k ≠ slot → (tfind s.steps k = none ↔ tfind t.steps k = none)))
  ∧ (∀ (s : State) (now f : Nat), s.mainReset = false → (s.func f).enabled = true →
    ∃ t, exec (.flr now f) s = .next t
      ∧ t.func f = { enabled := true, gen := ((s.func f).gen + 1) % 256, inFlr := true, flrParts := (t.func f).flrParts,
                     exhausted := (s.func f).exhausted, authFails := (s.func f).authFails, ctrLast := (s.func f).ctrLast,
                     key := (s.func f).key }
      ∧ (∀ p, active s p = true → (s.part p).owner = f →
        p ∈ (t.func f).flrParts ∧ (∀ k st, tfind t.steps k = some st → st.part ≠ p) ∧ (∀ e ∈ t.queues, e.2.part ≠ p)
          ∧ (∀ c, (t.ctx c).part ≠ some p)))
  ∧ (∀ (s : State) (now f : Nat), s.mainReset = false → (s.func f).inFlr = true →
    ∃ t, exec (.flrComplete now f) s = .next t ∧ t.func f = { s.func f with inFlr := false, flrParts := [] }
      ∧ (∀ p a, p ∈ (s.func f).flrParts → active s p = true → a < objSpace (s.part p) → mread t.hbm (hbmAddr p a) = 0)
      ∧ t.parts = s.parts ∧ t.steps = s.steps ∧ (∀ g, g ≠ f → t.func g = s.func g))

/-- R331 to R334, R337: `enable` starts a ring at zero and stops it once nothing taken is unanswered; a tail that claims more
requests than the ring holds is an overrun; a response is written with its phase bit and then its vector; the boot mailbox is
busy from `go` to its response. The phase bit of a boot response is the model's free value (log 30). -/
def Obligations.MailboxRings : Prop :=
  (∀ (s : State) (f log2 v : Nat), writable s f .mbx = true →
    ((s.func f).enable = false → s.life.minimal = false →
      ∃ t, exec (.mbxEnable f log2 v) s = .next t ∧ t = { s with funcs := t.funcs } ∧ (∀ g, g ≠ f → t.func g = s.func g)
        ∧ t.func f = { s.func f with
            enable := true, disabling := false, overrun := false, reqHead := 0, tail := 0, rspHead := 0, rspCount := 0
            rspVector := v % 2048, log2 := if 4 ≤ log2 ∧ log2 ≤ 12 then log2 else (s.func f).log2 })
    ∧ ((s.func f).enable = true →
      ∃ t, exec (.mbxEnable f log2 v) s = .next t ∧ t = { s with funcs := t.funcs } ∧ (∀ g, g ≠ f → t.func g = s.func g)
        ∧ t.func f = { s.func f with rspVector := v % 2048 })
    ∧ ((s.func f).enable = true → s.life.minimal = false →
      ((∀ k ∈ (s.func f).taken, k.boot = true) → (∀ r ∈ (s.func f).rsps, r.boot = true) →
        ∃ t, exec (.mbxDisable f) s = .next t ∧ t = { s with funcs := t.funcs } ∧ (∀ g, g ≠ f → t.func g = s.func g)
          ∧ (t.func f).enable = false ∧ (t.func f).log2 = (s.func f).log2 ∧ (t.func f).reqHead = (s.func f).reqHead)
      ∧ ((∃ k ∈ (s.func f).taken, k.boot = false) →
        ∃ t, exec (.mbxDisable f) s = .next t ∧ (t.func f).enable = true ∧ (t.func f).disabling = true
          ∧ (t.func f).taken = (s.func f).taken ∧ (t.func f).rsps = (s.func f).rsps ∧ (∀ g, g ≠ f → t.func g = s.func g)))
    ∧ (∀ n, (s.func f).enable = true →
      ∃ t, exec (.mbxTail f n) s = .next t ∧ t = { s with funcs := t.funcs } ∧ (∀ g, g ≠ f → t.func g = s.func g)
        ∧ t.func f = { s.func f with
            tail := n % 65536
            overrun := (s.func f).overrun || decide (2 ^ (s.func f).log2 < (65536 + n % 65536 - (s.func f).reqHead) % 65536) })
    ∧ (∀ n, ∃ t, exec (.mbxRspHead f n) s = .next t ∧ t = { s with funcs := t.funcs }
        ∧ t.func f = { s.func f with rspHead := n % 65536 } ∧ (∀ g, g ≠ f → t.func g = s.func g))
    ∧ (∀ b, (s.func f).bootBusy = false →
      ∃ t, exec (.mbxBootGo f b) s = .next t ∧ t = { s with funcs := t.funcs } ∧ (∀ g, g ≠ f → t.func g = s.func g)
        ∧ t.func f = { s.func f with bootBusy := true, bootDone := (s.func f).bootDone && !b })
    ∧ (∀ b, (s.func f).bootBusy = true → ∃ t, exec (.mbxBootGo f b) s = .next t ∧ t.func f = s.func f
        ∧ (∀ g, g ≠ f → t.func g = s.func g))
    ∧ (∃ t, exec (.mbxBootDoneClear f) s = .next t ∧ t.func f = { s.func f with bootDone := false }
        ∧ t = { s with funcs := t.funcs } ∧ (∀ g, g ≠ f → t.func g = s.func g)))
  ∧ (∀ (s : State) (now f : Nat) (r : Rsp), s.mainReset = false → s.coll.freeze = false → (s.func f).inFlr = false →
    nextRsp s (s.func f) = some r →
    (r.boot = false →
      let n := (s.func f).rspCount
      ∃ t, exec (.mailboxResponsePost now f) s = .next t ∧ (t.func f).rsps = (s.func f).rsps.erase r
        ∧ (t.func f).rspCount = (n + 1) % 65536
        ∧ t.out = .msix f (s.func f).rspVector
            :: .response f (n % 2 ^ (s.func f).log2) (n / 2 ^ (s.func f).log2 % 2 == 0) (time t) r :: s.out
        ∧ (∀ g, g ≠ f → t.func g = s.func g)
        ∧ (∀ q x, tfind s.queues q = some x → x.crTag = some (f, r.tag) → r.opcode = 0x0401 → (t.queue q).openAt = some (time t)))
    ∧ (r.boot = true →
      ∃ t phase, exec (.mailboxResponsePost now f) s = .next t ∧ (t.func f).bootBusy = false ∧ (t.func f).bootDone = true
        ∧ (t.func f).boot = slice (rspBytes r phase (time t)) 0 64 ∧ t.out = .response f 0 phase (time t) r :: s.out
        ∧ (t.func f).rsps = (s.func f).rsps.erase r ∧ (t.func f).rspCount = (s.func f).rspCount
        ∧ (∀ g, g ≠ f → t.func g = s.func g)))

/-- R332 to R336, R338 to R343, R346: whatever its row, a request that fails a check of Table Mailbox-3 is taken and answered
with that check's status, and nothing else changes but the count of failed codes and the spent counter. -/
def Obligations.RefusedRequests : Prop :=
  ∀ (s : State) (sp : MsgSpec) (own : State → Ans) (m : Msg), (if m.boot then canBoot s m else canTake s m.func) = true →
    (m.opcode = sp.opcode ∨ opcodes.contains m.opcode = false) →
    (check8 (take s m) sp m ≠ 0 →
      ∃ t, mbx sp own m s = .next t ∧ Replies s t m (rspTo m (check8 (take s m) sp m) 0 [] [] false))
    ∧ (check8 (take s m) sp m = 0 →
      (sp.critical = false → sp.named = false → ∃ t, mbx sp own m s = .next t ∧ Replies s t m (rspTo m 0x0905 0 [] [] false))
      ∧ (sp.critical = true → macOk (take s m) m = false →
        ∃ t, mbx sp own m s = .next t ∧ Replies s t m (rspTo m 0x0911 0 [] [] false)
          ∧ (t.func m.func).authFails = min 0xFFFF ((s.func m.func).authFails + 1)
          ∧ (t.func m.func).ctrLast = (s.func m.func).ctrLast)
      ∧ (sp.critical = true → macOk (take s m) m = true → m.counter ≤ (s.func m.func).ctrLast →
        ∃ t, mbx sp own m s = .next t ∧ Replies s t m (rspTo m 0x0912 0 [] [] false)
          ∧ (t.func m.func).ctrLast = (s.func m.func).ctrLast)
      ∧ (sp.critical = true → Signed s m → sp.named = false → m.counter < 2 ^ 64 →
        ∃ t, mbx sp own m s = .next t ∧ Replies s t m (rspTo m 0x0905 0 [] [] false) ∧ (t.func m.func).ctrLast = m.counter))

/-- R363 to R368, R371, R375: EVT_RING_SET starts a ring, on a detached function with an attach entry before the held ones; an
entry goes to the ring with its phase, or to the held list of a detached function, and a step's entry frees its slot; the ring
vector is sent once a microsecond; a read of EVT_FLUSH confirms the entries written before it. -/
def Obligations.EventRings : Prop :=
  (∀ (s : State) (m : Msg),
    let n := fld m.payload 16 1
    let v := fld m.payload 18 2
    let x := s.func m.func
    Passes s { opcode := 0x0501, unbound := true, len := some 20, rsv := [(0, 8), (17, 1)]
               ranges := fld m.payload 8 8 % 4096 == 0 && decide (6 ≤ n ∧ n ≤ 16) && decide (v < vectorCount m.func) } m →
    ∃ t, exec (.evtRingSet m) s = .next t ∧ Replies s t m (okTo m 0) ∧ (t.func m.func).evtEnable = true
      ∧ (t.func m.func).evtBase = BitVec.ofNat 64 (fld m.payload 8 8) ∧ (t.func m.func).evtLog2 = n ∧ (t.func m.func).evtVector = v
      ∧ (t.func m.func).evtTail = 0 ∧ (t.func m.func).evtHead = 0 ∧ (t.func m.func).evtQueue = x.evtQueue
      ∧ (x.detached = false → (t.func m.func).evtHeld = x.evtHeld)
      ∧ (x.detached = true → ∃ e, e.kind = 5 ∧ e.seq = (x.evtHeld.filter fun e => e.kind != 5).length
          ∧ (t.func m.func).evtHeld = e :: x.evtHeld.filter fun e => e.kind != 5))
  ∧ (∀ (s : State) (now f : Nat), s.mainReset = false → s.coll.freeze = false → (s.func f).inFlr = false →
    let x := s.func f
    (∀ e l, x.evtEnable = true → ringRoom x = true → s.host.linkUp = true → x.evtHeld = e :: l →
      ∃ t, exec (.eventEntryWrite now f) s = .next t ∧ (t.func f).evtHeld = l ∧ (t.func f).evtTail = (x.evtTail + 1) % 2 ^ 32
        ∧ (t.func f).detached = (x.detached && !l.isEmpty) ∧ (t.func f).evtQueue = x.evtQueue ∧ (t.func f).evtVectorDue = true
        ∧ Out.event f (x.evtTail % 2 ^ x.evtLog2) { e with phase := x.evtTail / 2 ^ x.evtLog2 % 2 == 0 }
            (entryBytes { e with phase := x.evtTail / 2 ^ x.evtLog2 % 2 == 0 }) ∈ t.out
        ∧ t.steps = s.steps ∧ (∀ g, g ≠ f → t.func g = s.func g))
    ∧ (∀ e, x.evtEnable = true → ringRoom x = true → s.host.linkUp = true → x.evtHeld = [] → nextEntry (advance s now) x = some e →
      ∃ t y, exec (.eventEntryWrite now f) s = .next t ∧ Out.event f (x.evtTail % 2 ^ x.evtLog2) y (entryBytes y) ∈ t.out ∧ y.posted = time t
        ∧ y = { e with late := y.late, held := false, posted := y.posted, phase := x.evtTail / 2 ^ x.evtLog2 % 2 == 0 }
        ∧ (t.func f).evtTail = (x.evtTail + 1) % 2 ^ 32 ∧ (t.func f).evtVectorDue = true
        ∧ (∀ k, e.slot = some k → tfind t.steps k = none))
    ∧ (∀ e, x.evtEnable = false → x.detached = true → nextEntry (advance s now) x = some e →
      ∃ t y, exec (.eventEntryWrite now f) s = .next t ∧ (t.func f).evtHeld = x.evtHeld ++ [y] ∧ y.posted = time t
        ∧ y = { e with late := y.late, held := true, posted := y.posted, slot := none } ∧ (t.func f).evtTail = x.evtTail
        ∧ (∀ k, e.slot = some k → tfind t.steps k = none))
    ∧ (s.host.linkUp = true → x.evtVectorDue = true → x.evtEnable = true →
      (x.evtVectorAt = 0 ∨ 1000 + x.evtVectorAt ≤ time (advance s now) →
        ∃ t, exec (.ringVectorSend now f) s = .next t ∧ t.out = .msix f x.evtVector :: s.out
          ∧ t.func f = { x with evtVectorDue := false, evtVectorAt := time t } ∧ (∀ g, g ≠ f → t.func g = s.func g)
          ∧ t = { s with aon := t.aon, funcs := t.funcs, out := t.out })
      ∧ (x.evtVectorAt ≠ 0 → time (advance s now) < 1000 + x.evtVectorAt → exec (.ringVectorSend now f) s = .next s)))
  ∧ (∀ (s : State) (now f : Nat), s.host.linkUp = true → (s.func f).enabled = true →
    (readForced s f .evt = none →
      ∃ t, exec (.evtFlush now f) s = .next t ∧ t.out = .read f (BitVec.ofNat 64 (s.func f).evtTail) :: s.out
        ∧ t.func f = { s.func f with evtRecent := [] } ∧ (∀ g, g ≠ f → t.func g = s.func g)
        ∧ t = { s with aon := t.aon, funcs := t.funcs, out := t.out })
    ∧ (readForced s f .evt = some true →
      ∃ t, exec (.evtFlush now f) s = .next t ∧ t = { s with aon := t.aon, out := .read f 0xFFFFFFFF :: s.out })
    ∧ (readForced s f .evt = some false →
      ∃ t, exec (.evtFlush now f) s = .next t ∧ t = { s with aon := t.aon, out := .read f 0 :: s.out }))
  ∧ (∀ (s : State) (f n : Nat), writable s f .evt = true →
    ((s.func f).evtSetAt ≠ some (time s) → n ≤ (s.func f).evtTail → (s.func f).evtTail < n + 2 ^ 31 → (s.func f).evtTail < 2 ^ 32 →
      ∃ t, exec (.evtHead f n) s = .next t ∧ t = { s with funcs := t.funcs } ∧ t.func f = { s.func f with evtHead := n }
        ∧ (∀ g, g ≠ f → t.func g = s.func g))
    ∧ ((s.func f).evtSetAt = some (time s) →
      ∃ t, exec (.evtHead f n) s = .next t ∧ t.func f = s.func f ∧ (∀ g, g ≠ f → t.func g = s.func g))
    ∧ ((s.func f).evtTail < n → n < (s.func f).evtTail + 2 ^ 31 → n < 2 ^ 32 →
      ∃ t, exec (.evtHead f n) s = .next t ∧ t.func f = s.func f ∧ (∀ g, g ≠ f → t.func g = s.func g)))
  ∧ (∀ (s : State) (now f : Nat), s.mainReset = false → s.coll.freeze = false → s.host.linkUp = true → (s.func f).enabled = true →
    ∃ t, exec (.readBackComplete now f) s = .next t ∧ (∀ r ∈ (t.func f).rsps, r.waits = false)
      ∧ (∀ e ∈ (t.func f).evtQueue, e.waitsRb = false) ∧ (t.func f).evtRecent = []
      ∧ (t.func f).rsps.length = (s.func f).rsps.length ∧ (t.func f).evtQueue.length = (s.func f).evtQueue.length
      ∧ (∀ k st, tfind s.steps k = some st → (s.part st.part).owner = f → tfind t.steps k = some { st with hostWrites := false })
      ∧ (∀ g, g ≠ f → t.func g = s.func g))

/-- R569 to R576, R581, R584: an access of a width or alignment that R569 does not allow, one while the main domain is in
reset, one during a fatal freeze and one to a read-only region change nothing; a register that has a command of its own is
written as by that command; a base is written while `enable` is 0, the boot mailbox while it is not busy; two halves of a
64-bit register can be written at once. -/
def Obligations.RegisterWrites : Prop :=
  ∀ (s : State) (f off width : Nat) (val : BitVec 512),
    (accessOk off width = false ∨ s.mainReset = true → exec (.registerWrite f off width val) s = .next s)
    ∧ (s.coll.freeze = true → exec (.registerWrite f off width val) s = .next s)
    ∧ (∀ r o, s.mainReset = false → off % 4 = 0 → regionOf f off = some (r, o) →
      let v := val.toNat % 2 ^ 32
      (r = .whl ∨ r = .flt ∨ r = .pmc ∨ r = .trc ∨ r = .lcs ∨ r = .bst ∨ r = .ptv → exec (.registerWrite f off 4 val) s = .next s)
      ∧ (r = .mbx → o = 0x14 → exec (.registerWrite f off 4 val) s = exec (.mbxTail f (v % 65536)) s)
      ∧ (r = .mbx → o = 0x18 → exec (.registerWrite f off 4 val) s = exec (.mbxRspHead f (v % 65536)) s)
      ∧ (r = .evt → o = 0x14 → exec (.registerWrite f off 4 val) s = exec (.evtHead f v) s)
      ∧ (r = .doorbell → o % 8 = 0 →
          exec (.registerWrite f off 4 val) s = exec (.stepQueueDoorbell f (o / 8) (v % 65536)) s)
      ∧ (r = .mbx → 0x40 ≤ o → o < 0x80 → writable s f .mbx = true → s.coll.freeze = false →
          (s.func f).bootBusy = false → (s.func f).boot.length = 64 →
          ∃ t, exec (.registerWrite f off 4 val) s = .next t ∧ t = { s with funcs := t.funcs }
            ∧ (∀ g, g ≠ f → t.func g = s.func g) ∧ t.func f = { s.func f with boot := (t.func f).boot }
            ∧ slice (t.func f).boot (o - 0x40) 4 = toLe 4 v
            ∧ ∀ i, i < 64 → (i < o - 0x40 ∨ o - 0x40 + 4 ≤ i) → (t.func f).boot.getD i 0 = (s.func f).boot.getD i 0)
      ∧ (r = .mbx → 0x40 ≤ o → o < 0x80 → writable s f .mbx = true → (s.func f).bootBusy = true →
          ∃ t, exec (.registerWrite f off 4 val) s = .next t ∧ t.func f = s.func f ∧ (∀ g, g ≠ f → t.func g = s.func g))
      ∧ (r = .ident → o = 0x28 → f = 0 → writable s 0 .ident = true →
          ∃ t, exec (.registerWrite f off 4 val) s = .next t ∧ t = { s with host := t.host }
            ∧ t.host.aperPart = v % 64 ∧ t.host.aperEnable = bitOf v 8 ∧ t.host.linkUp = s.host.linkUp))
    ∧ (writable s f .mbx = true → (s.func f).enable = false →
      ∃ t, exec (.registerWrite f 0x1000 8 val) s = .next t ∧ t = { s with funcs := t.funcs }
        ∧ t.func f = { s.func f with reqBase := BitVec.ofNat 64 (val.toNat % 2 ^ 64) } ∧ (∀ g, g ≠ f → t.func g = s.func g))
    ∧ (writable s f .mbx = true → (s.func f).enable = true →
      ∃ t, exec (.registerWrite f 0x1000 8 val) s = .next t ∧ t.func f = s.func f ∧ (∀ g, g ≠ f → t.func g = s.func g))

/-! ### Observation -/

/-- R543, R544, R546, R548: a selection is staged, and takes effect at a step boundary with every count at zero; COUNTER_READ
returns the window; a freeze holds the counts from 200 ns after its acceptance until both sources have released it; a 4-byte
read of a low half latches the high half. -/
def Obligations.Counters : Prop :=
  (∀ (s : State) (m : Msg), Passes s (ownSpec s m 0x0801 4 true) m →
    let p := namedPart m
    let n := fld m.ext 0 1
    let codes : List Nat := (slice (extIn m) 8 n).map (·.toNat)
    (n ≤ 16 → 8 + n ≤ m.extBytes → zeroRange m.ext 1 7 = true → (∀ c ∈ codes, 1 ≤ c ∧ c ≤ 0x12) → codes.Nodup →
      ∃ t, exec (.counterSelect m) s = .next t ∧ Answered s t m (okTo m 0) ∧ t.steps = s.steps
        ∧ ((s.part p).running ≠ none → (t.part p).counters = { (s.part p).counters with staged := some codes })
        ∧ ((s.part p).running = none → (t.part p).counters.sel = codes ∧ (t.part p).counters.staged = none
            ∧ (t.part p).counters.live = List.replicate codes.length 0 ∧ (t.part p).counters.run = List.replicate codes.length 0))
    ∧ (16 < n ∨ m.extBytes < 8 + n ∨ ¬ codes.Nodup ∨ (∃ c ∈ codes, c = 0 ∨ 0x12 < c) →
      ∃ t, exec (.counterSelect m) s = .next t ∧ Replies s t m (rspTo m 0x0903 0 [] [] false)))
  ∧ (∀ (s : State) (m : Msg), Passes s (ownSpec s m 0x0802 4 true) m →
    let x := (s.part (namedPart m)).counters
    (384 ≤ m.extBytes → ∃ t b, exec (.counterRead m) s = .next t ∧ Replies s t m (rspTo m 0 384 [] b true) ∧ b.length = 384
      ∧ slice b 4 8 = toLe 4 x.doneCtx ++ toLe 4 x.doneSeq
      ∧ ∀ i, i < 16 → slice b (0x10 + 4 * i) 4 = toLe 4 (nth x.sel i 0) ∧ slice b (0x80 + 8 * i) 8 = toLe 8 (nth x.live i 0)
        ∧ slice b (0x100 + 8 * i) 8 = toLe 8 (nth x.done i 0))
    ∧ (m.extBytes < 384 → ∃ t, exec (.counterRead m) s = .next t ∧ Replies s t m (rspTo m 0x0903 0 [] [] false)))
  ∧ (∀ (s : State) (m : Msg), let b := fld m.payload 0 1
    Passes s { opcode := 0x0803, pfOnly := true, len := some 1, ranges := decide (b ≤ 1) } m →
    (b = 1 → ∃ t, exec (.counterFreeze m) s = .next t ∧ Answered s t m (okTo m (200 + time s))
      ∧ t.pmc = { s.pmc with byMessage := true, tf := 200 + time s, armed := true, held := frozen s } ∧ t.steps = s.steps)
    ∧ (b ≠ 1 → ∃ t, exec (.counterFreeze m) s = .next t ∧ Answered s t m (okTo m 0) ∧ t.pmc.byMessage = false
      ∧ t.pmc.byStop = s.pmc.byStop ∧ (s.pmc.byStop = false → t.pmc.armed = false ∧ t.pmc.held = false)
      ∧ ∀ p, (t.part p).counters.live = (s.part p).counters.live))
  ∧ (∀ (s : State) (now : Nat), s.mainReset = false → s.pmc.armed = true → s.pmc.tf ≤ time (advance s now) →
    ∃ t, exec (.freezeTick now) s = .next t ∧ t = { s with aon := t.aon, pmc := { s.pmc with armed := false, held := true }, parts := t.parts }
      ∧ ∀ p x, tfind s.parts p = some x → t.part p = { x with counters := { x.counters with frozenIn := true } })
  ∧ (∀ (s : State) (f off o w v : Nat) (q : Option Nat), (s.func f).enabled = true → regionOf f off = some (.pmc, o) →
    lowCount s f o = some (q, w, v) →
    (readForced s f .pmc = none →
      ∃ t, exec (.pmcLowHalfRead f off) s = .next t ∧ t.out = .read f (BitVec.ofNat 64 (v % 2 ^ 32)) :: s.out
        ∧ (∀ p, q = some p → tget (t.part p).counters.hiLatch w 0 = v / 2 ^ 32 % 2 ^ 32 ∧ t.pmc = s.pmc)
        ∧ (q = none → tget t.pmc.hiLatch w 0 = v / 2 ^ 32 % 2 ^ 32 ∧ t.parts = s.parts))
    ∧ (readForced s f .pmc = some true →
      exec (.pmcLowHalfRead f off) s = .next { s with out := .read f 0xFFFFFFFF :: s.out }))

/-- R489, R549 to R551, R559, R563, R564: a trace needs the debug grant and an object of the partition; a watch is staged with
its result object; the hang report is the latest graph. -/
def Obligations.TracesWatchesAndHangs : Prop :=
  (∀ (s : State) (m : Msg), let p := namedPart m
    let h := fld m.payload 4 4
    let mode := fld m.payload 8 1
    let share := fld m.payload 9 1
    Passes s (ownSpec s m 0x0804 10 (decide (mode ≤ 2 ∧ share ≤ 15))) m →
    (p ∉ s.grants.trace → ∃ t, exec (.traceConfig m) s = .next t ∧ Replies s t m (rspTo m 0x0906 0 [] [] false))
    ∧ (p ∈ s.grants.trace →
      (h = 0xFFFFFFFF → ∃ t, exec (.traceConfig m) s = .next t ∧ Answered s t m (okTo m 0) ∧ (t.part p).trace.on = false
        ∧ t.hbm = s.hbm ∧ t.steps = s.steps)
      ∧ (h ≠ 0xFFFFFFFF → objOf s p h = none →
        ∃ t, exec (.traceConfig m) s = .next t ∧ Replies s t m (rspTo m 0x0741 0 [] [] false))
      ∧ (∀ i, h ≠ 0xFFFFFFFF → objOf s p h = some i →
        let c := (min (memObj s p i).bytes (2 ^ 28) - 64) / 32
        ∃ t, exec (.traceConfig m) s = .next t ∧ Answered s t m (okTo m 0)
          ∧ (t.part p).trace = { on := true, mode, share, obj := h, capacity := c } ∧ (memObj t p i).traceRef = true
          ∧ (Memory.wf s = true → hbmRead t p (memObj s p i).base 16 = toLe 8 0 ++ toLe 8 c)
          ∧ (∀ a, (∀ k, k < 64 → a ≠ hbmAddr p ((memObj s p i).base + k)) → mread t.hbm a = mread s.hbm a) ∧ t.steps = s.steps)))
  ∧ (∀ (s : State) (m : Msg), Passes s (ownSpec s m 0x0805 4 true) m →
    let p := namedPart m
    let l := extIn m
    let n := fld l 4 1
    let o := fld l 0 4
    8 + 8 * n ≤ m.extBytes → n ≤ 16 → zeroRange l 5 3 = true →
    (∀ i, i < n → fld l (14 + 8 * i) 1 ≤ 1 ∧ fld l (15 + 8 * i) 1 ≤ 1) →
    (∀ i, objOf s p o = some i → 128 ≤ (memObj s p i).bytes → (∀ w ∈ watchSels l n, watchSelStatus s p w = 0) →
      ∃ t, exec (.watchSelect m) s = .next t ∧ Answered s t m (okTo m 0) ∧ t.steps = s.steps
        ∧ ((s.part p).running ≠ none → (t.part p).watch = { (s.part p).watch with staged := some (o, watchSels l n) } ∧ t.hbm = s.hbm)
        ∧ ((s.part p).running = none →
          (t.part p).watch = { obj := o, sels := watchSels l n, capacity := ((memObj s p i).bytes - 64) / 64, written := 0, staged := none }
            ∧ (Memory.wf s = true → hbmRead t p (memObj s p i).base 16 = toLe 8 0 ++ toLe 8 (((memObj s p i).bytes - 64) / 64))))
    ∧ (objOf s p o = none → n ≠ 0 → (∀ w ∈ watchSels l n, watchSelStatus s p w = 0) →
      ∃ t, exec (.watchSelect m) s = .next t ∧ Replies s t m (rspTo m 0x0741 0 [] [] false))
    ∧ (∀ w, (watchSels l n).head? = some w → progOf s p w.prog = none →
      ∃ t, exec (.watchSelect m) s = .next t ∧ Replies s t m (rspTo m 0x0922 0 [] [] false)))
  ∧ (∀ (s : State) (m : Msg), Passes s (ownSpec s m 0x0806 4 true) m →
    ((s.part (namedPart m)).hang = none → ∃ t, exec (.hangReport m) s = .next t ∧ Replies s t m (rspTo m 0x0927 0 [] [] false))
    ∧ (∀ g, (s.part (namedPart m)).hang = some g → 32 ≤ m.extBytes → g.nodes.length < 2 ^ 32 → g.edges.length < 2 ^ 32 →
      ∃ t b, exec (.hangReport m) s = .next t ∧ Replies s t m (rspTo m 0 b.length [] b true) ∧ b.length ≤ m.extBytes
        ∧ slice b 0 16 = toLe 8 g.built ++ toLe 8 g.idleSince
        ∧ (32 + 16 * g.nodes.length + 4 * g.edges.length ≤ m.extBytes →
          fld b 16 4 = g.nodes.length ∧ fld b 20 4 = g.edges.length ∧ fld b 24 1 = 0
            ∧ b.length = 32 + 16 * g.nodes.length + 4 * g.edges.length)))

/-- R546, R555 to R558: with a stop grant the PF stops every engine, which freezes the counts and pulls STOP_OUT_N low until
the release; a selected chain is read four bytes at a time once everything is halted, under the tile's scan grant, and
otherwise reads zero. -/
def Obligations.GlobalStop : Prop :=
  (∀ (s : State) (now : Nat) (b : Bool), writable s 0 .gst = true →
    (b = false → s.gst.stopped = false → s.grants.stop = true →
      ∃ t, exec (.gstStop now b) s = .next t ∧ t.gst = { s.gst with stopped := true, halted := false, source := 1, time := time t }
        ∧ t.pmc.byStop = true ∧ t.pmc.tf = time t ∧ t.aon.stopOutN = false ∧ t.steps = s.steps ∧ t.tiles = s.tiles
        ∧ t.coll = s.coll)
    ∧ (b = true ∨ s.gst.stopped = true ∨ s.grants.stop = false → exec (.gstStop now b) s = .next (advance s now)))
  ∧ (∀ (s : State) (now : Nat), writable s 0 .gst = true →
    (s.gst.stopped = true →
      ∃ t, exec (.gstRelease now) s = .next t
        ∧ t.gst = { s.gst with stopped := false, halted := false, source := 0, notices := [] }
        ∧ t.pmc.byStop = false ∧ (s.pmc.byMessage = false → t.pmc.held = false) ∧ t.aon.stopOutN = true
        ∧ (s.gst.notices = [] → s.coll.openFaults = [] → t.steps = s.steps ∧ t.tiles = s.tiles
          ∧ t.remOps = s.remOps.map fun o => { o with last := o.last + (time t - s.gst.time) }))
    ∧ (s.gst.stopped = false → exec (.gstRelease now) s = .next (advance s now)))
  ∧ (∀ (s : State) (now : Nat), s.mainReset = false → s.gst.stopped = true → s.gst.halted = false →
    (windowsClosed s = true →
      ∃ t, exec (.gstHalted now) s = .next t ∧ t = { s with aon := t.aon, gst := { s.gst with halted := true } })
    ∧ (windowsClosed s = false → exec (.gstHalted now) s = .next s))
  ∧ (∀ (s : State) (tile chain : Nat), writable s 0 .gst = true →
    exec (.gstScanSel tile chain) s = .next { s with gst := { s.gst with selTile := tile % 2048, selChain := chain % 8, addr := 0 } })
  ∧ (∀ (s : State) (b : Bool), (s.func 0).enabled = true → readForced s 0 .gst = none →
    (∀ p, s.gst.halted = true → s.gst.selTile < tileCount s.variant → s.gst.addr + 4 ≤ chainLen s.gst.selChain →
      tileOwner s s.gst.selTile = some p → p ∈ s.grants.scan →
      ∃ t v, exec (.gstScanData b) s = .next t ∧ Out.read 0 (BitVec.ofNat 64 v) ∈ t.out ∧ v < 2 ^ 32
        ∧ t.gst = { s.gst with addr := s.gst.addr + 4, parityErr := s.gst.parityErr || b
                               parityAt := if b then some (time s) else s.gst.parityAt }
        ∧ (s.gst.selChain = 3 → v = leNat (mreadN (s.tile s.gst.selTile).scratch s.gst.addr 4))
        ∧ (b = true → s.coll.init = true → (0xAC02 : Code) ∈ t.coll.log) ∧ (b = false → t.coll = s.coll)
        ∧ t.tiles = s.tiles ∧ t.steps = s.steps)
    ∧ (s.gst.halted = false ∨ tileOwner s s.gst.selTile = none ∨ (∃ p, tileOwner s s.gst.selTile = some p ∧ p ∉ s.grants.scan) →
      exec (.gstScanData b) s = .next { s with out := .read 0 0 :: s.out }))

/-! ### Faults and checks -/

/-- R338, R415, R417 to R421, R430 to R432, R437 to R440, R444: what FAULT_READ returns, FAULT_CLEAR clears and FAULT_INJECT
arms; a corrected fault counts, a contained one fails the steps it names or resets the tile it lies in, a fatal one freezes
egress. -/
def Obligations.Faults : Prop :=
  (∀ (s : State) (m : Msg), Passes s { opcode := 0x0601, pfOnly := true, boot := 2 } m →
    ∃ t b, exec (.faultRead m) s = .next t ∧ Replies s t m (rspTo m 0 0 b [] false)
      ∧ slice b 0 8 = toLe 8 s.coll.status.toNat ∧ slice b 8 1 = toLe 1 s.coll.log.length
      ∧ (m.boot = true → b.length = 32)
      ∧ ∀ i c, s.coll.log[i]? = some c → i < (if m.boot then 8 else 32) → fld b (16 + 2 * i) 2 = c.toNat)
  ∧ (∀ (s : State) (m : Msg), let u := fld m.payload 8 8
    Passes s { opcode := 0x0602, pfOnly := true, len := some 16, rsv := [(0, 8)] } m →
    ∃ t, exec (.faultClear m) s = .next t ∧ Answered s t m (okTo m 0) ∧ t.coll.log = s.coll.log ∧ t.coll.fatal = s.coll.fatal
      ∧ (∀ k, k < 45 → t.coll.status.getLsbD k = (s.coll.status.getLsbD k && !(bitOf u k && clearable (time s) s.coll k))
          ∧ tget t.coll.corr k 0 = if (bitOf u k && clearable (time s) s.coll k) = true then 0 else tget s.coll.corr k 0)
      ∧ t.aon.secalmN = (s.aon.secalmN || (bitOf u 37 && s.aon.secalmAt != some (time s))) ∧ t.steps = s.steps)
  ∧ (∀ (s : State) (m : Msg), let u := fld m.payload 4 1
    let k := fld m.payload 5 1
    let n := fld m.payload 6 2
    Passes s { opcode := 0x0603, pfOnly := true, len := some 8, rsv := [(0, 4)], ranges := decide (k < checkersOf u) && n != 0 } m →
    (s.life.lc ≠ 1 → s.life.lc ≠ 4 → s.life.lc ≠ 5 →
      ∃ t, exec (.faultInject m) s = .next t ∧ Replies s t m (rspTo m 0x0914 0 [] [] false))
    ∧ (s.life.lc = 1 ∨ s.life.lc = 4 ∨ s.life.lc = 5 →
      ∃ t x, exec (.faultInject m) s = .next t ∧ Answered s t m (okTo m 0) ∧ OthersKeep s t m ∧ x ∈ t.coll.inject ∧ x.unit = u
        ∧ x.checker = k ∧ x.events = n ∧ (∀ y ∈ t.coll.inject, y.unit = u → y.checker = k → y = x)
        ∧ t = { s with lastTaken := t.lastTaken, funcs := t.funcs, coll := { s.coll with inject := t.coll.inject } }))
  ∧ (∀ (s : State) (now : Nat) (r : Report), aonUp s = true → s.mainReset = false → s.coll.init = true → codeUnit r.code ≤ 44 →
    (codeClass r.code = 0 → exec (.faultReport now r) s = .next (advance s now))
    ∧ (codeClass r.code = 1 → ∃ t, exec (.faultReport now r) s = .next t ∧ t.coll.status = s.coll.status ∧ t.steps = s.steps
        ∧ tget t.coll.corr (codeUnit r.code) 0 = min 0xFFFF (tget s.coll.corr (codeUnit r.code) 0 + 1)
        ∧ ∀ u, u ≠ codeUnit r.code → tget t.coll.corr u 0 = tget s.coll.corr u 0)
    ∧ (codeClass r.code = 2 → 32 ≤ codeUnit r.code → codeUnit r.code ≠ 38 → r.code ≠ 0xA703 → r.code ≠ 0xA804 →
        ∃ t, exec (.faultReport now r) s = .next t ∧ r.code ∈ t.coll.log ∧ t.coll.status.getLsbD (codeUnit r.code) = true
          ∧ t.coll.freeze = s.coll.freeze
          ∧ ∀ k st, tfind s.steps k = some st →
            (k ∈ r.slots → passes s r st.part = true → Undecided st → FailsWith t k 0x0C01)
            ∧ (k ∉ r.slots ∨ passes s r st.part = false → tfind t.steps k = some st))
    ∧ (codeClass r.code = 2 → codeUnit r.code < 32 → codeCause r.code ≤ 0x0F → codeCause r.code ≠ 0x02 → codeCause r.code ≠ 0x0A →
        codeCause r.code ≠ 0x0F → r.engine < 2048 → (s.tile r.engine).withdrawn ≤ 1 → (s.tile r.engine).testing = none →
        ∃ t, exec (.faultReport now r) s = .next t ∧ r.code ∈ t.coll.log ∧ t.coll.status.getLsbD (codeUnit r.code) = true
          ∧ (t.tile r.engine).withdrawn = 1 ∧ (t.tile r.engine).testing = (if s.gst.stopped then none else some []) ∧ clearable (time t) t.coll (codeUnit r.code) = false
          ∧ ∀ k st, k ∈ stepsIn s r.engine → tfind s.steps k = some st → Undecided st → FailsWith t k 0x0C01)
    ∧ (codeClass r.code = 3 → r.code ≠ 0xE901 → r.code ≠ 0xE902 → s.coll.freeze = false →
        ∃ t, exec (.faultReport now r) s = .next t ∧ r.code ∈ t.coll.log ∧ t.coll.freeze = true ∧ t.coll.resetPending = true
          ∧ t.coll.fatalCode = r.code ∧ t.coll.fatalAt = time t ∧ t.coll.status.getLsbD (codeUnit r.code) = true
          ∧ t.coll.fatal.getLsbD (codeUnit r.code) = true ∧ (codeUnit r.code = 41 → t.aon.trayReqN = false)))

/-- R425 to R429, R503, R537: the safety clock records every passing check with its time and reports a failing one with the
item; the watchdog's 500 us is fatal; an analogue item out of tolerance withdraws what it covers; the thermal throttle lowers
every clock. How far it lowers them is the model's free value (log 31). -/
def Obligations.SafetyClock : Prop :=
  (∀ (s : State) (now u e k : Nat), s.mainReset = false → s.coll.init = true →
    (∃ t, exec (.checkerExercise now u e k true) s = .next t ∧ t = { s with aon := t.aon, coll := { s.coll with exercised := t.coll.exercised } }
      ∧ tget t.coll.exercised (checkerKey u e k) 0 = time t)
    ∧ (∃ t, exec (.checkerExercise now u e k false) s = .next t ∧ (0xAB04 : Code) ∈ t.coll.log ∧ t.coll.expUnit = u
      ∧ t.coll.expEngine = e ∧ t.coll.exposure = tget s.coll.exercised (checkerKey u e k) 0 ∧ t.steps = s.steps))
  ∧ (∀ (s : State) (now u : Nat), s.mainReset = false → s.coll.init = true → u < 45 →
    (∃ t, exec (.errorPinTest now u true) s = .next t ∧ tfind t.coll.pinTest u = none ∧ tget t.coll.pinPass u 0 = time t
      ∧ t.coll.log = s.coll.log)
    ∧ (∃ t, exec (.errorPinTest now u false) s = .next t ∧ tfind t.coll.pinTest u = some (time t) ∧ t.coll.pinPass = s.coll.pinPass
      ∧ t.coll.log = s.coll.log))
  ∧ (∀ (s : State) (now u a : Nat), s.mainReset = false → tfind s.coll.pinTest u = some a → 10000 + a < time (advance s now) →
    ∃ t, exec (.errorPinTestTimeout now u) s = .next t ∧ (0xA909 : Code) ∈ t.coll.log ∧ t.coll.expUnit = u ∧ t.coll.expEngine = 0xFFF
      ∧ t.coll.exposure = tget s.coll.pinPass u 0 ∧ tfind t.coll.pinTest u = none ∧ t.steps = s.steps)
  ∧ (∀ (s : State) (now : Nat), ready s = true → s.coll.init = true → s.coll.freeze = false →
    500000 + s.coll.watchdog < time (advance s now) →
    ∃ t, exec (.watchdogExpiry now) s = .next t ∧ (0xE005 : Code) ∈ t.coll.log ∧ t.coll.freeze = true ∧ t.coll.fatalCode = 0xE005)
  ∧ (∀ (s : State) (now die item : Nat) (tiles : List Nat), s.mainReset = false → s.coll.init = true → item ≤ 4 →
    (item = 4 ∨ die < dies s.variant) → s.coll.inject = [] →
    (∃ t, exec (.analogueSlice now die item tiles true) s = .next t ∧ tget t.coll.analogue (itemKey die item) 0 = time t
      ∧ t.coll.log = s.coll.log ∧ t.steps = s.steps
      ∧ (item ≠ 4 → tget s.life.rotSlice die 0 + 1 < rotationSlices →
          tget t.life.rotSlice die 0 = tget s.life.rotSlice die 0 + 1 ∧ t.life.rotations = s.life.rotations)
      ∧ (item ≠ 4 → rotationSlices ≤ tget s.life.rotSlice die 0 + 1 →
          tget t.life.rotSlice die 0 = 0 ∧ t.life.rotations = (s.life.rotations + 1) % 2 ^ 32))
    ∧ (∃ t, exec (.analogueSlice now die item tiles false) s = .next t
      ∧ (item ≠ 3 → (0xAB02 : Code) ∈ t.coll.log)
      ∧ (item = 0 → ∀ e ∈ tiles, tileDie e = die → e < 2048 → 1 ≤ (t.tile e).withdrawn)
      ∧ (item = 1 → ∀ e, e < tileCount s.variant → tileDie e = die → 1 ≤ (t.tile e).withdrawn)
      ∧ (item = 2 → t.power.throttled = true)
      ∧ (item = 3 → tget t.coll.corr 35 0 = min 0xFFFF (tget s.coll.corr 35 0 + 1) ∧ t.tiles = s.tiles)))
  ∧ (∀ (s : State) (now item : Nat), ready s = true → s.coll.init = true →
    1000000 + tget s.coll.analogue item s.life.startAt < time (advance s now) →
    ∃ t, exec (.analogueRotationMissed now item) s = .next t ∧ (0xAB03 : Code) ∈ t.coll.log ∧ t.steps = s.steps ∧ t.tiles = s.tiles)
  ∧ (∀ (s : State) (now : Nat), s.mainReset = false →
    (s.power.throttled = false →
      ∃ t, exec (.thermalThrottleEngaged now) s = .next t ∧ t.power = { s.power with throttled := true } ∧ t.steps = s.steps
        ∧ tget t.coll.corr 41 0 = min 0xFFFF (tget s.coll.corr 41 0 + 1)
        ∧ ∀ p, active s p = true → (t.part p).retuned ≤ (s.part p).retuned)
    ∧ (s.power.throttled = true →
      ∃ t, exec (.thermalThrottleReleased now) s = .next t ∧ t.power = { s.power with throttled := false } ∧ t.steps = s.steps
        ∧ t.coll = s.coll ∧ ∀ p, (s.part p).running ≠ none → t.part p = s.part p))

/-! ### Contexts, objects, fences -/

/-- R282, R284, R285, R340, R446, R447, R467 to R469: a context takes the free number freed longest ago and gives it back with
the next generation once its work has ended; a drain waits for its admitted steps; a reset fails them and keeps the context.
-/
def Obligations.Contexts : Prop :=
  (∀ (s : State) (m : Msg), let p := namedPart m
    Passes s (ownMsg s m 0x0303 4 [] true) m →
    (∀ c, (partCtxs s p).length < (s.part p).qContexts →
      (if s.ctxNext < 4096 then c = s.ctxNext else s.ctxFree.head? = some c) →
      ∃ t, exec (.contextCreate m) s = .next t ∧ Answered s t m (okTo m (c + 4096 * (s.ctx c).gen)) ∧ OthersKeep s t m
        ∧ t.ctx c = { gen := (s.ctx c).gen, part := some p } ∧ (∀ d, d ≠ c → t.ctx d = s.ctx d)
        ∧ t = { s with lastTaken := t.lastTaken, funcs := t.funcs, ctxs := t.ctxs, ctxNext := t.ctxNext, ctxFree := t.ctxFree })
    ∧ ((s.part p).qContexts ≤ (partCtxs s p).length →
      ∃ t, exec (.contextCreate m) s = .next t ∧ Replies s t m (rspTo m 0x0730 0 [] [] false)))
  ∧ (∀ (s : State) (m : Msg), let p := namedPart m
    Passes s (ownMsg s m 0x0304 9 [] (decide (fld m.payload 8 1 ≤ 1))) m →
    (ctxOf s p (fld m.payload 4 4) = none →
      ∃ t, exec (.contextDestroy m) s = .next t ∧ Replies s t m (rspTo m 0x0731 0 [] [] false))
    ∧ (∀ c, ctxOf s p (fld m.payload 4 4) = some c → fld m.payload 8 1 = 0 → (s.ctx c).drainTag = none →
      ∃ t, exec (.contextDestroy m) s = .next t ∧ Answered s t m (okTo m 0) ∧ (t.ctx c).part = none
        ∧ (t.ctx c).gen = ((s.ctx c).gen + 1) % 256 ∧ c ∈ t.ctxFree
        ∧ (∀ k st, tfind s.steps k = some st → st.part = p → st.ctx = c → st.ctxGen = (s.ctx c).gen → Undecided st →
            FailsWith t k 0x0D04)
        ∧ (∀ i o, tfind (s.part p).objs i = some o → o.live = true → o.ctx = c → o.ctxGen = (s.ctx c).gen →
            (memObj t p i).live = false ∨ (memObj t p i).freeing = true))
    ∧ (∀ c, ctxOf s p (fld m.payload 4 4) = some c → fld m.payload 8 1 ≠ 0 → (s.ctx c).draining = false → ctxBusy s c = true →
      ∃ t, exec (.contextDestroy m) s = .next t ∧ Pends s t m ∧ OthersKeep s t m
        ∧ t.ctx c = { s.ctx c with draining := true, drainTag := some (m.func, m.tag) } ∧ (∀ d, d ≠ c → t.ctx d = s.ctx d)
        ∧ t.steps = s.steps))
  ∧ (∀ (s : State) (m : Msg) (c : Nat), let p := namedPart m
    Passes s (ownMsg s m 0x0305 8 [] true) m → ctxOf s p (fld m.payload 4 4) = some c →
    ∃ t, exec (.contextReset m) s = .next t ∧ (t.ctx c).part = some p ∧ (t.ctx c).gen = (s.ctx c).gen
      ∧ ((s.part p).resetTags = none → Answered s t m (okTo m 0))
      ∧ (∀ l, (s.part p).resetTags = some l → Pends s t m ∧ (t.part p).resetTags = some (l ++ [(m.func, m.tag, none)]))
      ∧ (∀ k st, tfind s.steps k = some st → st.ctx = c → st.ctxGen = (s.ctx c).gen → Undecided st → FailsWith t k 0x0D01)
      ∧ (t.part p).objs = (s.part p).objs)
  ∧ (∀ (s : State) (m : Msg), let p := namedPart m
    let n := fld m.payload 4 1
    let len := 8 + 4 * n
    Passes s { opcode := 0x0306, len := none, rsv := [(1, 3), (5, 3), (len, roundUp len 8 - len)]
               ranges := decide (1 ≤ n ∧ n ≤ 40 ∧ m.inlineBytes = roundUp len 8), named := ownPart s m } m →
    ((∀ i, i < n → ∃ c, ctxOf s p (fld m.payload (8 + 4 * i) 4) = some c) → (∀ c, (s.ctx c).drainTag ≠ some (m.func, m.tag)) →
      ∃ t, exec (.processEnd m) s = .next t ∧ (t.func m.func).rsps.getLast? = some (okTo m 0)
        ∧ ∀ i c, i < n → ctxOf s p (fld m.payload (8 + 4 * i) 4) = some c →
          (t.ctx c).part = none ∧ (t.ctx c).gen = ((s.ctx c).gen + 1) % 256)
    ∧ ((∃ i, i < n ∧ ctxOf s p (fld m.payload (8 + 4 * i) 4) = none) →
      ∃ t, exec (.processEnd m) s = .next t ∧ Replies s t m (rspTo m 0x0731 0 [] [] false)))

/-- R286 to R289, R349: an object is placed at the first free range from its granule upward, under a handle with its index's
generation; a zero-filled one is answered when its bytes read zero; a free waits for what still names the object, and its
index then takes the next generation. -/
def Obligations.Objects : Prop :=
  (∀ (s : State) (m : Msg) (c : Nat), let p := namedPart m
    let bytes := fld m.payload 8 8
    let flags := fld m.payload 17 1
    Passes s (ownMsg s m 0x0307 18 [] (decide (flags < 8))) m → ctxOf s p (fld m.payload 4 4) = some c →
    (∀ g i a, bytes % 65536 = 0 → 65536 ≤ bytes → bytes ≤ objSpace (s.part p) →
      ((s.part p).objs.filter fun e => e.2.live).length < (s.part p).qObjects →
      startGranule s p (fld m.payload 16 1) = some g → freeIndex (s.part p).objs (·.live) (s.part p).qObjects = some i →
      findRange (usedRanges s p) (objSpace (s.part p)) (g * objPart (s.part p)) bytes = some a →
      a + bytes ≤ objSpace (s.part p) ∧ (∀ u ∈ usedRanges s p, a + bytes ≤ u.1 ∨ u.1 + u.2 ≤ a)
      ∧ ∃ t, exec (.memAlloc m) s = .next t
        ∧ (bitOf flags 1 = false → Answered s t m (rspTo m 0 (i + 65536 * (memObj s p i).gen) (toLe 8 a) [] false))
        ∧ (bitOf flags 1 = true → Pends s t m ∧ (memObj t p i).zeroTag = some (m.func, m.tag))
        ∧ memObj t p i = { live := true, gen := (memObj s p i).gen, ctx := c, ctxGen := (s.ctx c).gen, base := a, bytes
                           shared := bitOf flags 0, hostMap := bitOf flags 2, zeroTag := (memObj t p i).zeroTag }
        ∧ (∀ j, j ≠ i → memObj t p j = memObj s p j) ∧ t.hbm = s.hbm)
    ∧ (bytes % 65536 ≠ 0 ∨ bytes < 65536 ∨ objSpace (s.part p) < bytes
        ∨ (s.part p).qObjects ≤ ((s.part p).objs.filter fun e => e.2.live).length →
      ∃ t, exec (.memAlloc m) s = .next t ∧ Replies s t m (rspTo m 0x0740 0 [] [] false)))
  ∧ (∀ (s : State) (now p i f tag : Nat) (k : Taken), ready s = true → active s p = true → (memObj s p i).zeroTag = some (f, tag) →
    takenOf s f tag = some k →
    ∃ t r, exec (.zeroFillDone now p i) s = .next t ∧ memObj t p i = { memObj s p i with zeroTag := none }
      ∧ (∀ a, a < (memObj s p i).bytes → mread t.hbm (hbmAddr p ((memObj s p i).base + a)) = 0)
      ∧ (∀ a, a < hbmAddr p (memObj s p i).base ∨ hbmAddr p ((memObj s p i).base + (memObj s p i).bytes) ≤ a →
          mread t.hbm a = mread s.hbm a)
      ∧ (t.func f).rsps = (s.func f).rsps ++ [r] ∧ r.tag = tag ∧ r.status = 0
      ∧ r.detail = BitVec.ofNat 64 (i + 65536 * (memObj s p i).gen) ∧ r.payload = toLe 8 (memObj s p i).base)
  ∧ (∀ (s : State) (m : Msg) (c : Nat), let p := namedPart m
    Passes s (ownMsg s m 0x0308 12 [] true) m → ctxOf s p (fld m.payload 4 4) = some c →
    (∀ i, objFor s p c (fld m.payload 8 4) = some i →
      ∃ t, exec (.memFree m) s = .next t ∧ Answered s t m (okTo m 0) ∧ t.hbm = s.hbm ∧ t.steps = s.steps
        ∧ (objHeld s p i = false → memObj t p i = { gen := ((memObj s p i).gen + 1) % 256 })
        ∧ (objHeld s p i = true → memObj t p i = { memObj s p i with freeing := true }))
    ∧ (objFor s p c (fld m.payload 8 4) = none →
      ∃ t, exec (.memFree m) s = .next t ∧ Replies s t m (rspTo m 0x0741 0 [] [] false)))

/-- R290 to R294: a fence is created unsignalled; the host signals its own fences once, which posts an entry and fails the
waiting steps of a status other than OK; it is reset or destroyed only when nothing pending names it; a wait's timeout fails
its step alone. -/
def Obligations.Fences : Prop :=
  (∀ (s : State) (m : Msg) (c : Nat), let p := namedPart m
    let v := fld m.payload 16 2
    let flags := fld m.payload 24 1
    Passes s (ownMsg s m 0x0309 25 [(18, 2)] (decide (flags < 4))) m → ctxOf s p (fld m.payload 4 4) = some c →
    (∀ i, ((s.part p).fences.filter fun e => e.2.live).length < (s.part p).qFences → (v = 0xFFFF ∨ v < vectorCount m.func) →
      freeIndex (s.part p).fences (·.live) (s.part p).qFences = some i →
      let g := (tget (s.part p).fences i {}).gen
      ∃ t, exec (.fenceCreate m) s = .next t ∧ Answered s t m (okTo m (i + 65536 * g)) ∧ OthersKeep s t m
        ∧ tfind (t.part p).fences i = some
            { live := true, gen := g, ctx := c, ctxGen := (s.ctx c).gen, cookie := BitVec.ofNat 64 (fld m.payload 8 8), vector := v
              timeout := fld m.payload 20 4, shared := bitOf flags 0, host := bitOf flags 1 }
        ∧ (∀ j, j ≠ i → tfind (t.part p).fences j = tfind (s.part p).fences j) ∧ t.steps = s.steps)
    ∧ ((s.part p).qFences ≤ ((s.part p).fences.filter fun e => e.2.live).length ∨ (v ≠ 0xFFFF ∧ vectorCount m.func ≤ v) →
      ∃ t, exec (.fenceCreate m) s = .next t ∧ Replies s t m (rspTo m 0x0750 0 [] [] false)))
  ∧ (∀ (s : State) (m : Msg) (c i : Nat), let p := namedPart m
    let f := tget (s.part p).fences i {}
    ctxOf s p (fld m.payload 4 4) = some c → fenceFor s p c (fld m.payload 8 4) = some i →
    (Passes s (ownMsg s m 0x030A 13 [] (decide (fld m.payload 12 1 ≤ 1))) m →
      (f.host = true → f.status = none →
        ∃ t, exec (.fenceSignal m) s = .next t ∧ Answered s t m (okTo m 0)
          ∧ tfind (t.part p).fences i = some { f with status := some (fld m.payload 12 1) }
          ∧ (fld m.payload 12 1 = 0 → ∃ e, Due s t m.func e ∧ e.kind = 2 ∧ e.status = 0 ∧ e.cookie = f.cookie
              ∧ e.handle = i + 65536 * f.gen ∧ e.fenceVec = f.vector)
          ∧ (fld m.payload 12 1 ≠ 0 → ∀ k st, k ∈ fenceWaiters s p i → tfind s.steps k = some st → Undecided st → FailsWith t k 0x0754))
      ∧ (f.host = false ∨ f.status ≠ none →
        ∃ t, exec (.fenceSignal m) s = .next t ∧ Replies s t m (rspTo m 0x0753 0 [] [] false)))
    ∧ (Passes s (ownMsg s m 0x030B 12 [] true) m →
      (waiterPending s p i = false → signallerPending s p i = false →
        ∃ t, exec (.fenceReset m) s = .next t ∧ Answered s t m (okTo m 0) ∧ OthersKeep s t m
          ∧ tfind (t.part p).fences i = some { f with status := none } ∧ t.steps = s.steps)
      ∧ (waiterPending s p i = true ∨ signallerPending s p i = true →
        ∃ t, exec (.fenceReset m) s = .next t ∧ Replies s t m (rspTo m 0x0752 0 [] [] false)))
    ∧ (Passes s (ownMsg s m 0x030C 12 [] true) m →
      (signallerPending s p i = false →
        ∃ t, exec (.fenceDestroy m) s = .next t ∧ Answered s t m (okTo m 0)
          ∧ (fenceWaiters s p i = [] → tfind (t.part p).fences i = some { gen := (f.gen + 1) % 256 })
          ∧ (fenceWaiters s p i ≠ [] → f.status ≠ none → tfind (t.part p).fences i = some { f with freeing := true })
          ∧ ∀ k st, f.status = none → k ∈ fenceWaiters s p i → tfind s.steps k = some st → Undecided st → FailsWith t k 0x0754)
      ∧ (signallerPending s p i = true →
        ∃ t, exec (.fenceDestroy m) s = .next t ∧ Replies s t m (rspTo m 0x0752 0 [] [] false))))
  ∧ (∀ (s : State) (now slot j : Nat) (st : Step), ready s = true → tfind s.steps slot = some st → st.state = 1 → Undecided st → j < 4 →
    let h := nth st.waits j 0xFFFFFF
    let f := tget (s.part st.part).fences (h % 65536) {}
    h ≠ 0xFFFFFF → f.live = true → f.status = none → f.timeout ≠ 0 → st.queuedAt + 1000 * f.timeout < time (advance s now) →
    ∃ t st', exec (.fenceTimeout now slot j) s = .next t ∧ FailsWith t slot 0x0755 ∧ tfind t.steps slot = some st'
      ∧ st'.waitView = setView st.waitView j 3 ∧ (t.part st.part).fences = (s.part st.part).fences
      ∧ ∀ k, k ≠ slot → tfind t.steps k = tfind s.steps k)

/-! ### Start-up, life cycle, security -/

/-- R340, R347, R354, R513 to R516, R524, R525, R533, R534: the messages that every mailbox answers; a permitted transition
erases its regions and programs its slot; a firmware image that passes its checks is written, and answered when it has been
read back; an idle block accepts sleep and admits no more work. -/
def Obligations.LifeCycle : Prop :=
  (∀ (s : State) (m : Msg), Passes s { opcode := 0x0001, unbound := true, len := none, boot := 1 } m →
    ∃ t, exec (.echo m) s = .next t ∧ Replies s t m (rspTo m 0 0 (slice m.payload 0 m.inlineBytes) [] false))
  ∧ (∀ (s : State) (m : Msg), Passes s { opcode := 0x0002, unbound := true, boot := 1 } m →
    ∃ t b, exec (.capQuery m) s = .next t ∧ Replies s t m (rspTo m 0 0 b [] false) ∧ b.length = (if m.boot then 32 else 64)
      ∧ fld b 0 4 = (if s.variant = .rv9e then 0x78 else 0x7F) ∧ fld b 16 2 = tileCount s.variant
      ∧ fld b 18 2 = tilesUsable s ∧ fld b 20 1 = granulesUsable s ∧ fld b 21 1 = 64 ∧ fld b 22 2 = 4096)
  ∧ (∀ (s : State) (m : Msg), Passes s { opcode := 0x0003, unbound := true, boot := 1 } m →
    ∃ t, exec (.bootStatus m) s = .next t ∧ Replies s t m
      (rspTo m 0 0 (toLe 4 (bootReason s) ++ toLe 4 (bootFails s) ++ toLe 4 (identFwVer s) ++ toLe 1 s.life.lc) [] false))
  ∧ (∀ (s : State) (m : Msg), Passes s { opcode := 0x0705, critical := true, pfOnly := true, boot := 2 } m → Signed s m →
    let r := slice m.ext 0 m.extBytes
    (s.life.flashJob.isSome = true → ∀ b, ∃ t, exec (.lcTransition m b) s = .next t ∧ Replies s t m (rspTo m 0x090A 0 [] [] false))
    ∧ (s.life.flashJob = none → lcStatus s.life r ≠ 0 →
      ∀ b, ∃ t, exec (.lcTransition m b) s = .next t ∧ Replies s t m (rspTo m (lcStatus s.life r) 0 [] [] false))
    ∧ (∀ row, s.life.flashJob = none → lcStatus s.life r = 0 → lcRow (priorOf s.life.slots) (fld r 4 1) (fld r 5 1) = some row →
      ∃ t, exec (.lcTransition m true) s = .next t ∧ Pends s t m ∧ OthersKeep s t m
        ∧ t = { s with lastTaken := t.lastTaken, funcs := t.funcs, life := t.life, out := .flashWrite 1 :: s.out }
        ∧ (∃ j, t.life.flashJob = some j ∧ j.kind = 0 ∧ j.target = fld r 4 1 ∧ j.func = m.func ∧ j.tag = m.tag)
        ∧ t.life.slots = s.life.slots ∧ t.life.lc = s.life.lc
        ∧ (row.2.2.2.1 = true → t.life.hasIdentity = false ∧ t.life.hasCert = false)
        ∧ (row.2.2.2.2 = true → t.life.devsets = [])
        ∧ (row.2.2.2.2 = false → t.life.devsets = s.life.devsets)
        ∧ (fld r 4 1 = 2 → t.life.ownerCred = slice r 32 97)))
  ∧ (∀ (s : State) (m : Msg),
    let st := imageStatus s.life (extIn m)
    (Passes s { opcode := 0x0706, critical := true, pfOnly := true } m → Signed s m →
      (s.life.flashJob = none → st = 0 → ∃ t j, exec (.fwUpdate m) s = .next t ∧ Pends s t m ∧ t.life.flashJob = some j ∧ j.kind = 1
        ∧ j.tag = m.tag ∧ j.func = m.func ∧ j.image = (extIn m).take (fld (extIn m) 4 4) ∧ t.life.image = s.life.image
        ∧ t.out = .flashWrite 0 :: s.out)
      ∧ (s.life.flashJob = none → st ≠ 0 → ∃ t, exec (.fwUpdate m) s = .next t ∧ Replies s t m (rspTo m st 0 [] [] false)))
    ∧ (Passes s { opcode := 0x0707, critical := true, pfOnly := true, boot := 3 } m → Signed s m →
      (s.life.flashJob = none → st = 0 → ∃ t j, exec (.fwRecover m) s = .next t ∧ Pends s t m ∧ t.life.flashJob = some j ∧ j.kind = 2
        ∧ j.tag = m.tag ∧ j.func = m.func ∧ j.image = (extIn m).take (fld (extIn m) 4 4) ∧ t.life.image = s.life.image
        ∧ t.out = .flashWrite 0 :: s.out)
      ∧ (s.life.flashJob = none → st ≠ 0 → ∃ t, exec (.fwRecover m) s = .next t ∧ Replies s t m (rspTo m st 0 [] [] false))))
  ∧ (∀ (s : State) (now : Nat) (j : FlashJob) (k : Taken), s.mainReset = false → s.life.flashJob = some j → takenOf s j.func j.tag = some k →
    ∃ t r, exec (.flashOperationDone now true) s = .next t ∧ t.life.flashJob = none
      ∧ (t.func j.func).rsps = (s.func j.func).rsps ++ [r] ∧ r.tag = j.tag ∧ r.status = 0
      ∧ (j.kind = 0 → t.life.slots = s.life.slots ++ [{ word := stateWord (tget lcMasks j.target 0), startNo := s.life.startNo }]
          ∧ t.life.resetAt = some (100000 + time t) ∧ t.life.resetCause = 8)
      ∧ (j.kind ≠ 0 → t.life.image = j.image ∧ t.life.slots = s.life.slots)
      ∧ (j.kind = 2 → t.life.resetAt = some (time t) ∧ t.life.resetCause = 9)
      ∧ ∃ t2 r2, exec (.flashOperationDone now false) s = .next t2 ∧ t2.life.flashJob = none
        ∧ (t2.func j.func).rsps = (s.func j.func).rsps ++ [r2] ∧ r2.tag = j.tag ∧ r2.status ≠ 0
        ∧ (j.kind ≠ 0 → r2.status = 0x0E04))
  ∧ (∀ (s : State) (m : Msg), let w := fld m.payload 8 8
    Passes s { opcode := 0x0406, critical := true, pfOnly := true, len := some 16, rsv := [(0, 8)] } m → Signed s m →
    (w ≠ 0 → w < 50000000 + time s → ∃ t, exec (.sleepEnter m) s = .next t ∧ Replies s t m (rspTo m 0x0903 0 [] [] false))
    ∧ (w = 0 ∨ 50000000 + time s ≤ w →
      (s.steps ≠ [] → ∃ t, exec (.sleepEnter m) s = .next t ∧ Replies s t m (rspTo m 0x0932 0 [] [] false))
      ∧ (s.steps = [] → (∀ e ∈ s.parts, e.2.state ≠ 1 ∧ e.2.state ≠ 3 ∧ e.2.fill = none ∧ (∀ g ∈ e.2.progs, g.2.loading = none)
            ∧ ∀ b ∈ e.2.bobbins, b.2.installing = none) →
        (∀ e ∈ s.funcs, e.2.inFlr = false ∧ e.2.rsps = [] ∧ e.2.taken = []) → s.life.flashJob = none → s.life.bistTag = none →
        s.gst.stopped = false →
        ∃ t, exec (.sleepEnter m) s = .next t ∧ Answered s t m (okTo m 0)
          ∧ t.power = { s.power with entering := true, wakeTime := w, wakePending := false, admitting := false }
          ∧ t = { s with lastTaken := t.lastTaken, funcs := t.funcs, power := t.power })))

/-- R39, R475, R489 to R494, R497, R506: SPDM is not ready in block reset and answers as the life-cycle state allows; a debug
grant opens and closes what its bits name, for the partitions it names, and a closed trace grant stops the trace; an enrolment
is signed by the owner and unwraps to the set's key; leaving a set takes every bobbin bound to it; an exported key replaces
the function's own. The codes of SPDM answers and the data of a measurement are the model's own (log 32). -/
def Obligations.Security : Prop :=
  (∀ (s : State) (now : Nat) (q : SpdmReq), aonUp s = true →
    (s.mainReset = true → ∃ t, exec (.spdmRequest now q) s = .next t ∧ t = { s with aon := t.aon, out := .spdm 1 [] :: s.out })
    ∧ (s.mainReset = false →
      ∃ t code data, exec (.spdmRequest now q) s = .next t ∧ t.out = .spdm code data :: s.out
        ∧ t = { s with aon := t.aon, life := t.life, out := t.out }
        ∧ (s.life.lc = 6 → q ≠ .getVersion → q ≠ .getCapabilities → code ≠ 0 ∧ t.life = s.life)
        ∧ (∀ i, q = .getMeasurements i → spdmAllowed s q = true → s.life.attestKey = true → code = 0
          ∧ data = if i = 0xFF then (List.range 8).flatMap fun k => measurement s (k + 1) else measurement s i)
        ∧ (∀ b, q = .keyExchange b → spdmAllowed s q = true → b = true → pskState s.life.lc = false → code = 0 ∧ t.life.session = 1)
        ∧ (q = .finish → spdmAllowed s q = true → s.life.session = 1 → code = 0 ∧ t.life.session = 3)
        ∧ (∀ b, q = .pskExchange b → spdmAllowed s q = true → b = true → pskState s.life.lc = true → code = 0 ∧ t.life.session = 2)
        ∧ (q = .mailboxKey → s.life.session < 3 → code ≠ 0 ∧ t.life.pfKeyFetched = s.life.pfKeyFetched)
        ∧ (q = .mailboxKey → spdmAllowed s q = true → 3 ≤ s.life.session → keyAvailable s = true →
            code = 0 ∧ data = [] ∧ t.life.pfKeyFetched = true)))
  ∧ (∀ (s : State) (m : Msg), let p := namedPart m
    let b := fld m.payload 4 1
    let on := fld m.payload 5 1 == 1
    let whole := m.func == 0 && p == 0xFF
    Passes s { opcode := 0x0701, critical := true, len := some 6, rsv := [(1, 3)]
               ranges := decide (b < 16 ∧ fld m.payload 5 1 ≤ 1) && (m.func != 0 || !bitOf b 1 || p == 0xFF)
               named := whole || (if m.func = 0 then anyPart s m else ownPart s m) } m → Signed s m →
    (s.life.lc = 0x0F ∨ s.life.lc = 6 → ∃ t, exec (.debugEnable m) s = .next t ∧ Replies s t m (rspTo m 0x0914 0 [] [] false))
    ∧ (s.life.lc ≠ 0x0F → s.life.lc ≠ 6 → m.func ≠ 0 → 2 ≤ b →
      ∃ t, exec (.debugEnable m) s = .next t ∧ Replies s t m (rspTo m 0x0906 0 [] [] false))
    ∧ (s.life.lc ≠ 0x0F → s.life.lc ≠ 6 → (m.func = 0 ∨ b < 2) →
      let hit := fun k => if whole = true then ∃ e ∈ s.parts, e.1 = k ∧ e.2.state = 2 else k = p
      ∃ t, exec (.debugEnable m) s = .next t ∧ Answered s t m (okTo m 0)
        ∧ t.grants.stop = (if bitOf b 1 then on else s.grants.stop)
        ∧ (∀ k, k ∈ t.grants.trace ↔ if bitOf b 0 = true ∧ hit k then on = true else k ∈ s.grants.trace)
        ∧ (∀ k, k ∈ t.grants.scan ↔ if bitOf b 2 = true ∧ hit k then on = true else k ∈ s.grants.scan)
        ∧ (∀ k, k ∈ t.grants.memRead ↔ if bitOf b 3 = true ∧ hit k then on = true else k ∈ s.grants.memRead)
        ∧ (∀ k, bitOf b 0 = true → on = false → hit k → (t.part k).trace.on = false) ∧ t.steps = s.steps))
  ∧ (∀ (s : State) (m : Msg), Passes s { opcode := 0x0702, critical := true, pfOnly := true } m → Signed s m →
    let r := extIn m
    (s.life.lc ≠ 2 → s.life.lc ≠ 3 → s.life.lc ≠ 4 →
      ∃ t, exec (.devsetEnroll m) s = .next t ∧ Replies s t m (rspTo m 0x0914 0 [] [] false))
    ∧ (s.life.lc = 2 ∨ s.life.lc = 3 ∨ s.life.lc = 4 →
      (Config.ecdsaVerify s.life.ownerCred (slice r 0 176) (slice r 176 96) = false ∨ fld r 168 8 ≠ s.life.unitId
          ∨ Config.enrolUnwrap (slice r 16 97) (slice r 128 40) = none →
        ∃ t, exec (.devsetEnroll m) s = .next t ∧ Replies s t m (rspTo m 0x0903 0 [] [] false))
      ∧ (∀ key, 272 ≤ m.extBytes → Config.ecdsaVerify s.life.ownerCred (slice r 0 176) (slice r 176 96) = true →
        fld r 168 8 = s.life.unitId → fld r 0 4 ≠ 0 → fld r 4 1 ≤ 63 → Config.enrolUnwrap (slice r 16 97) (slice r 128 40) = some key →
        (∀ p, ∀ e ∈ (s.part p).bobbins, e.2.installing ≠ some (m.func, m.tag)) →
        ∃ t, exec (.devsetEnroll m) s = .next t ∧ (t.func m.func).rsps.getLast? = some (okTo m (fld r 0 4))
          ∧ tfind t.life.devsets (fld r 4 1) = some { setId := fld r 0 4, key := key }
          ∧ (∀ k, k ≠ fld r 4 1 → tfind t.life.devsets k = tfind s.life.devsets k))))
  ∧ (∀ (s : State) (m : Msg), let set := fld m.payload 4 4
    Passes s { opcode := 0x0703, critical := true, pfOnly := true, len := some 8, rsv := [(0, 4)] } m → Signed s m →
    (s.life.lc = 2 ∨ s.life.lc = 3 ∨ s.life.lc = 4) →
    ((∃ d ∈ s.life.devsets, d.2.setId = set) → (∀ p, ∀ e ∈ (s.part p).bobbins, e.2.installing ≠ some (m.func, m.tag)) →
      ∃ t, exec (.devsetLeave m) s = .next t ∧ (t.func m.func).rsps.getLast? = some (okTo m 0)
        ∧ (∀ d, d ∈ t.life.devsets ↔ d ∈ s.life.devsets ∧ d.2.setId ≠ set)
        ∧ (∀ p i, (bobbin t p i).live = true → (bobbin t p i).setId = set →
            (bobbin t p i).pinned = false ∧ (bobbin t p i).removing = true)
        ∧ t.steps = s.steps)
    ∧ ((∀ d ∈ s.life.devsets, d.2.setId ≠ set) →
      ∃ t, exec (.devsetLeave m) s = .next t ∧ Replies s t m (rspTo m 0x0903 0 [] [] false)))
  ∧ (∀ (s : State) (m : Msg), let f := fld m.payload 4 1
    Passes s { opcode := 0x0704, critical := true, pfOnly := true, len := some 5, rsv := [(0, 4)]
               ranges := f != 0 && decide (f < 64) && (s.func f).enabled } m → Signed s m →
    (s.life.lc = 2 ∨ s.life.lc = 3 ∨ s.life.lc = 4 ∨ s.life.lc = 5 → 137 ≤ m.extBytes →
      ∃ t, exec (.mbxKeyExport m) s = .next t
        ∧ Answered s t m (rspTo m 0 0 [] (slice (Config.exportWrap (slice (extIn m) 0 97) (t.func f).key) 0 137) true)
        ∧ t.func f = { s.func f with key := (t.func f).key, oldKey := some (time s, macKey s (s.func f)) } ∧ (∀ g, g ≠ f → g ≠ m.func → t.func g = s.func g)
        ∧ t = { s with lastTaken := t.lastTaken, funcs := t.funcs, fresh := t.fresh })
    ∧ (s.life.lc ≠ 2 → s.life.lc ≠ 3 → s.life.lc ≠ 4 → s.life.lc ≠ 5 →
      ∃ t, exec (.mbxKeyExport m) s = .next t ∧ Replies s t m (rspTo m 0x0914 0 [] [] false)))

/-! ### Resets -/

/-- R26, R283, R445 to R456, R472, R536, R538: an engine reset fails the steps in it and ends with its self-test, whose pass
brings the engine back initialised and whose failure withdraws it; a partition reset fails its steps, clears its scratchpads
and closes its windows; BLOCK_RESET stops admission and resets 100 us later; what does not end in its time escalates; a slot
leaves quarantine. -/
def Obligations.Resets : Prop :=
  (∀ (s : State) (m : Msg), let e := fld m.payload 4 2
    Passes s { opcode := 0x0604, pfOnly := true, len := some 6, rsv := [(0, 4)], ranges := engineHere s.variant e } m →
    (withdrawnOf s e = 2 → ∃ t, exec (.engineReset m) s = .next t ∧ Replies s t m (rspTo m 0x0D05 0 [] [] false))
    ∧ (withdrawnOf s e ≠ 2 → (∀ p, e < 2048 → tileOwner s e = some p → (s.part p).resetTags = none) →
      ∃ t, exec (.engineReset m) s = .next t ∧ Pends s t m ∧ withdrawnOf t e = max (withdrawnOf s e) 1
        ∧ testingOf t e = some ((testingOf s e).getD [] ++ [(m.func, m.tag)])
        ∧ ∀ k st, k ∈ stepsIn s e → tfind s.steps k = some st → Undecided st → FailsWith t k 0x0D02))
  ∧ (∀ (s : State) (now e f tag : Nat) (k : Taken), s.mainReset = false → s.gst.stopped = false → engineHere s.variant e = true →
    s.coll.inject = [] → testingOf s e = some [(f, tag)] → takenOf s f tag = some k → k.opcode = 0x0604 → withdrawnOf s e ≤ 1 →
    (∃ t, exec (.selfTestDone now e true) s = .next t ∧ testingOf t e = none ∧ withdrawnOf t e = 0
      ∧ (∃ r ∈ (t.func f).rsps, r.tag = tag ∧ r.opcode = 0x0604 ∧ r.status = 0)
      ∧ (e < 2048 → (t.tile e).scratch = [] ∧ (t.tile e).run = none ∧ (t.tile e).bufs = [] ∧ (t.tile e).lfsr ≠ 0)
      ∧ (∀ x ∈ t.coll.openFaults, x.engine ≠ e))
    ∧ (s.coll.init = true →
      ∃ t, exec (.selfTestDone now e false) s = .next t ∧ testingOf t e = none ∧ withdrawnOf t e = 2 ∧ (0xAB01 : Code) ∈ t.coll.log
        ∧ (∃ r ∈ (t.func f).rsps, r.tag = tag ∧ r.opcode = 0x0604 ∧ r.status = 0x0D05)))
  ∧ (∀ (s : State) (now : Nat), starting s = true → s.gst.stopped = false → s.life.bistDone = false → s.life.bistTag = none →
    s.coll.inject = [] →
    ∃ t, exec (.selfTestDone now 0xFFFF true) s = .next t ∧ t = { s with aon := t.aon, life := t.life } ∧ t.life.bistDone = true
      ∧ t.life.bistPass = true)
  ∧ (∀ (s : State) (m : Msg), let p := namedPart m
    Passes s (pfMsg s m 0x0605 4 [] true) m →
    (∀ l, (s.part p).resetTags = some l →
      ∃ t, exec (.partitionReset m) s = .next t ∧ Pends s t m ∧ (t.part p).resetTags = some (l ++ [(m.func, m.tag, none)])
        ∧ t.steps = s.steps)
    ∧ ((s.part p).resetTags = none → (∀ e ∈ partTiles (s.part p), e < 2048) → (∃ e ∈ partTiles (s.part p), (s.tile e).withdrawn ≠ 2) →
      ∃ t, exec (.partitionReset m) s = .next t ∧ Pends s t m ∧ (t.part p).resetTags = some [(m.func, m.tag, none)]
        ∧ (∀ k st, tfind s.steps k = some st → st.part = p → Undecided st → FailsWith t k 0x0D03)
        ∧ (∀ e ∈ partTiles (s.part p), (t.tile e).scratch = [] ∧ (t.tile e).run = none
            ∧ ((s.tile e).withdrawn ≠ 2 → (t.tile e).testing.isSome = true))
        ∧ (∀ w, w ≠ 0x3FF → (t.window w).isOpen = true → (t.window w).part ≠ p) ∧ (t.part p).running = none))
  ∧ (∀ (s : State) (m : Msg), Passes s { opcode := 0x0606, pfOnly := true } m →
    ∃ t, exec (.blockReset m) s = .next t ∧ Pends s t m ∧ t.power = { s.power with admitting := false }
      ∧ t.life.resetAt = some (100000 + time s) ∧ t.life.resetCause = 3 ∧ t.steps = s.steps ∧ (jobSteps s = [] → t.parts = s.parts))
  ∧ (∀ (s : State) (m : Msg), Passes s { opcode := 0x0607, pfOnly := true } m →
    ∃ t, exec (.powerCycle m) s = .next t ∧ Pends s t m ∧ t.aon = { s.aon with trayReqN := false, vmonBoot := t.aon.vmonBoot }
      ∧ t = { s with lastTaken := t.lastTaken, funcs := t.funcs, aon := t.aon, out := t.out }
      ∧ (aonUp s = true → s.aon.trayReqN = true → t.out = .ibi :: s.out))
  ∧ (∀ (s : State) (m : Msg), let e := fld m.payload 4 2
    Passes s { opcode := 0x0708, pfOnly := true, len := some 6, rsv := [(0, 4)], ranges := decide (e < 2118 ∨ e = 0xFFFF), boot := 2 } m →
    (s.life.lc = 6 ∨ s.life.lc = 0x0F → ∀ b, ∃ t, exec (.bistRun m b) s = .next t ∧ Replies s t m (rspTo m 0x0914 0 [] [] false))
    ∧ (s.life.lc ≠ 6 → s.life.lc ≠ 0x0F →
      (e = 0xFFFF → (∃ x ∈ s.parts, x.2.state = 2) →
        ∀ b, ∃ t, exec (.bistRun m b) s = .next t ∧ Replies s t m (rspTo m 0x0E20 0 [] [] false))
      ∧ (e = 0xFFFF → (∀ x ∈ s.parts, x.2.state ≠ 2) → s.life.bistTag = none →
        ∀ b, ∃ t, exec (.bistRun m b) s = .next t ∧ Pends s t m ∧ t.life = { s.life with bistTag := some (m.func, m.tag) })
      ∧ (e ≠ 0xFFFF → engineHere s.variant e = false →
        ∀ b, ∃ t, exec (.bistRun m b) s = .next t ∧ Replies s t m (rspTo m 0 3 (toLe 8 3) [] false))
      ∧ (e ≠ 0xFFFF → engineHere s.variant e = true →
        (∃ t, exec (.bistRun m true) s = .next t ∧ Pends s t m ∧ testingOf t e = some ((testingOf s e).getD [] ++ [(m.func, m.tag)])
          ∧ 1 ≤ withdrawnOf t e
          ∧ ∀ k st, k ∈ stepsIn s e → tfind s.steps k = some st → Undecided st → FailsWith t k 0x0C01)
        ∧ (∃ t, exec (.bistRun m false) s = .next t ∧ Answered s t m (rspTo m 0 2 (toLe 8 2) [] false) ∧ 1 ≤ withdrawnOf t e
          ∧ testingOf t e = testingOf s e))))
  ∧ (∀ (s : State) (now id : Nat), ready s = true → s.gst.stopped = false →
    (∃ t, exec (.resetEscalation now 0 id) s = .next t ∧ ∀ e k st, e < 2118 → k ∈ stepsIn s e → tfind s.steps k = some st → st.ctx = id →
      st.fail.isSome = true → withdrawnOf s e ≠ 2 → (testingOf t e).isSome = true)
    ∧ (withdrawnOf s id ≤ 2 → (testingOf s id).isSome = true →
      ∃ t, exec (.resetEscalation now 1 id) s = .next t ∧ testingOf t id = none ∧ withdrawnOf t id = 2)
    ∧ ((s.part id).resetTags.isSome = true → aonUp s = true → s.aon.refclk = true → s.aon.pwrGood = true → s.aon.blkResetN = true →
      s.aon.needBlkCycle = false →
      ∃ t, exec (.resetEscalation now 2 id) s = .next t ∧ t.parts = [] ∧ t.ctxs = [] ∧ t.queues = [] ∧ t.steps = [] ∧ t.tiles = []
        ∧ t.hbm = [] ∧ t.life.ready = false ∧ t.life.cause = 3 ∧ t.mainReset = false)
    ∧ ((s.func id).inFlr = true →
      ∃ t, exec (.resetEscalation now 3 id) s = .next t ∧ ∀ p k st, active s p = true → (s.part p).owner = id →
        (s.part p).resetTags = none → tfind s.steps k = some st → st.part = p → Undecided st → ∃ c, FailsWith t k c))
  ∧ (∀ (s : State) (now slot : Nat) (q : Quar), ready s = true → tfind s.quar slot = some q →
    (q.openReqs = 0 ∨ 50000000 + q.since ≤ time (advance s now) →
      ∃ t, exec (.slotQuarantineEnd now slot) s = .next t ∧ tfind t.quar slot = none ∧ t.steps = s.steps ∧ t.hbm = s.hbm
        ∧ ∀ k, k ≠ slot → tfind t.quar k = tfind s.quar k)
    ∧ (q.openReqs ≠ 0 → time (advance s now) < 50000000 + q.since → exec (.slotQuarantineEnd now slot) s = .next s))

/-! ### Geometry and identity -/

/-- R35: the identification that the IDCODE instruction shifts out, with its version field. -/
def Obligations.IdentificationCode : Prop :=
  (∀ (s : State), s.mainReset = false → s.aon.blkResetN = true →
    ∃ t, exec (.tapInstruction .idcode) s = .next t ∧ t.out = .tdo 0xB0E25A6F :: s.out)
  ∧ 0xB0E25A6F / 2 ^ 28 = 0xB

/-- R42, R258, R262: the places of tiles, granules and dies, and the order of a partition's granules. -/
def Obligations.TilesAndGranules : Prop :=
  (∀ x y, x < 64 → tileDie (y * 64 + x) = y / 8 * 8 + x / 8)
  ∧ (∀ (gx gy x y : Nat), gx < 16 → x < 64 →
    (y * 64 + x ∈ granuleTiles (gy * 16 + gx) ↔ 4 * gx ≤ x ∧ x ≤ 4 * gx + 3 ∧ 4 * gy ≤ y ∧ y ≤ 4 * gy + 3)
      ∧ (granuleTiles (gy * 16 + gx)).length = 16 ∧ (granuleTiles (gy * 16 + gx)).Nodup
      ∧ granuleDie (gy * 16 + gx) = gy / 2 * 8 + gx / 2)
  ∧ (∀ v gx gy, gx < 16 → (gy * 16 + gx < granuleCount v ↔ gy < (if v = .rv9h then 4 else 8)))
  ∧ (∀ (p : Part) (gx gy : Nat), p.gx0 ≤ gx → gx < p.gx0 + p.width → p.gy0 ≤ gy → gy < p.gy0 + p.height →
    (partGranules p)[(gy - p.gy0) * p.width + (gx - p.gx0)]? = some (gy * 16 + gx) ∧ (partGranules p).length = p.width * p.height)
end

