-- ==== Sys2Proof/Laws/State.lean ====
section
/-! SUPPORT. What each update of the state leaves as it is and what it sets, field by field. -/

namespace Sys2Proof.Machine

variable (s : State)

@[simp] theorem modPart_variant (k : Nat) (f : Part → Part) : (s.modPart k f).variant = s.variant := rfl
@[simp] theorem modPart_aon (k : Nat) (f : Part → Part) : (s.modPart k f).aon = s.aon := rfl
@[simp] theorem modPart_mainReset (k : Nat) (f : Part → Part) : (s.modPart k f).mainReset = s.mainReset := rfl
@[simp] theorem modPart_coll (k : Nat) (f : Part → Part) : (s.modPart k f).coll = s.coll := rfl
@[simp] theorem modPart_life (k : Nat) (f : Part → Part) : (s.modPart k f).life = s.life := rfl
@[simp] theorem modPart_rails (k : Nat) (f : Part → Part) : (s.modPart k f).rails = s.rails := rfl
@[simp] theorem modPart_funcs (k : Nat) (f : Part → Part) : (s.modPart k f).funcs = s.funcs := rfl
@[simp] theorem modPart_lastTaken (k : Nat) (f : Part → Part) : (s.modPart k f).lastTaken = s.lastTaken := rfl
@[simp] theorem modPart_partGen (k : Nat) (f : Part → Part) : (s.modPart k f).partGen = s.partGen := rfl
@[simp] theorem modPart_dieWays (k : Nat) (f : Part → Part) : (s.modPart k f).dieWays = s.dieWays := rfl
@[simp] theorem modPart_caches (k : Nat) (f : Part → Part) : (s.modPart k f).caches = s.caches := rfl
@[simp] theorem modPart_hbmReads (k : Nat) (f : Part → Part) : (s.modPart k f).hbmReads = s.hbmReads := rfl
@[simp] theorem modPart_badGranules (k : Nat) (f : Part → Part) : (s.modPart k f).badGranules = s.badGranules := rfl
@[simp] theorem modPart_ctxs (k : Nat) (f : Part → Part) : (s.modPart k f).ctxs = s.ctxs := rfl
@[simp] theorem modPart_ctxFree (k : Nat) (f : Part → Part) : (s.modPart k f).ctxFree = s.ctxFree := rfl
@[simp] theorem modPart_ctxNext (k : Nat) (f : Part → Part) : (s.modPart k f).ctxNext = s.ctxNext := rfl
@[simp] theorem modPart_queues (k : Nat) (f : Part → Part) : (s.modPart k f).queues = s.queues := rfl
@[simp] theorem modPart_steps (k : Nat) (f : Part → Part) : (s.modPart k f).steps = s.steps := rfl
@[simp] theorem modPart_slotGen (k : Nat) (f : Part → Part) : (s.modPart k f).slotGen = s.slotGen := rfl
@[simp] theorem modPart_quar (k : Nat) (f : Part → Part) : (s.modPart k f).quar = s.quar := rfl
@[simp] theorem modPart_tiles (k : Nat) (f : Part → Part) : (s.modPart k f).tiles = s.tiles := rfl
@[simp] theorem modPart_movers (k : Nat) (f : Part → Part) : (s.modPart k f).movers = s.movers := rfl
@[simp] theorem modPart_sorters (k : Nat) (f : Part → Part) : (s.modPart k f).sorters = s.sorters := rfl
@[simp] theorem modPart_sortWait (k : Nat) (f : Part → Part) : (s.modPart k f).sortWait = s.sortWait := rfl
@[simp] theorem modPart_reducers (k : Nat) (f : Part → Part) : (s.modPart k f).reducers = s.reducers := rfl
@[simp] theorem modPart_addedWork (k : Nat) (f : Part → Part) : (s.modPart k f).addedWork = s.addedWork := rfl
@[simp] theorem modPart_engRecs (k : Nat) (f : Part → Part) : (s.modPart k f).engRecs = s.engRecs := rfl
@[simp] theorem modPart_remOps (k : Nat) (f : Part → Part) : (s.modPart k f).remOps = s.remOps := rfl
@[simp] theorem modPart_opNext (k : Nat) (f : Part → Part) : (s.modPart k f).opNext = s.opNext := rfl
@[simp] theorem modPart_ports (k : Nat) (f : Part → Part) : (s.modPart k f).ports = s.ports := rfl
@[simp] theorem modPart_windows (k : Nat) (f : Part → Part) : (s.modPart k f).windows = s.windows := rfl
@[simp] theorem modPart_stale (k : Nat) (f : Part → Part) : (s.modPart k f).stale = s.stale := rfl
@[simp] theorem modPart_jobs (k : Nat) (f : Part → Part) : (s.modPart k f).jobs = s.jobs := rfl
@[simp] theorem modPart_hbm (k : Nat) (f : Part → Part) : (s.modPart k f).hbm = s.hbm := rfl
@[simp] theorem modPart_hbmPoison (k : Nat) (f : Part → Part) : (s.modPart k f).hbmPoison = s.hbmPoison := rfl
@[simp] theorem modPart_scrubs (k : Nat) (f : Part → Part) : (s.modPart k f).scrubs = s.scrubs := rfl
@[simp] theorem modPart_grants (k : Nat) (f : Part → Part) : (s.modPart k f).grants = s.grants := rfl
@[simp] theorem modPart_gst (k : Nat) (f : Part → Part) : (s.modPart k f).gst = s.gst := rfl
@[simp] theorem modPart_pmc (k : Nat) (f : Part → Part) : (s.modPart k f).pmc = s.pmc := rfl
@[simp] theorem modPart_power (k : Nat) (f : Part → Part) : (s.modPart k f).power = s.power := rfl
@[simp] theorem modPart_host (k : Nat) (f : Part → Part) : (s.modPart k f).host = s.host := rfl
@[simp] theorem modPart_stageUsed (k : Nat) (f : Part → Part) : (s.modPart k f).stageUsed = s.stageUsed := rfl
@[simp] theorem modPart_stageMax (k : Nat) (f : Part → Part) : (s.modPart k f).stageMax = s.stageMax := rfl
@[simp] theorem modPart_stageFull (k : Nat) (f : Part → Part) : (s.modPart k f).stageFull = s.stageFull := rfl
@[simp] theorem modPart_out (k : Nat) (f : Part → Part) : (s.modPart k f).out = s.out := rfl
@[simp] theorem modPart_fresh (k : Nat) (f : Part → Part) : (s.modPart k f).fresh = s.fresh := rfl
@[simp] theorem modPart_pending (k : Nat) (f : Part → Part) : (s.modPart k f).pending = s.pending := rfl
theorem modPart_parts (k : Nat) (f : Part → Part) : (s.modPart k f).parts = tput s.parts k (f (s.part k)) := rfl

@[simp] theorem modFunc_variant (k : Nat) (f : Func → Func) : (s.modFunc k f).variant = s.variant := rfl
@[simp] theorem modFunc_aon (k : Nat) (f : Func → Func) : (s.modFunc k f).aon = s.aon := rfl
@[simp] theorem modFunc_mainReset (k : Nat) (f : Func → Func) : (s.modFunc k f).mainReset = s.mainReset := rfl
@[simp] theorem modFunc_coll (k : Nat) (f : Func → Func) : (s.modFunc k f).coll = s.coll := rfl
@[simp] theorem modFunc_life (k : Nat) (f : Func → Func) : (s.modFunc k f).life = s.life := rfl
@[simp] theorem modFunc_rails (k : Nat) (f : Func → Func) : (s.modFunc k f).rails = s.rails := rfl
@[simp] theorem modFunc_lastTaken (k : Nat) (f : Func → Func) : (s.modFunc k f).lastTaken = s.lastTaken := rfl
@[simp] theorem modFunc_parts (k : Nat) (f : Func → Func) : (s.modFunc k f).parts = s.parts := rfl
@[simp] theorem modFunc_partGen (k : Nat) (f : Func → Func) : (s.modFunc k f).partGen = s.partGen := rfl
@[simp] theorem modFunc_dieWays (k : Nat) (f : Func → Func) : (s.modFunc k f).dieWays = s.dieWays := rfl
@[simp] theorem modFunc_caches (k : Nat) (f : Func → Func) : (s.modFunc k f).caches = s.caches := rfl
@[simp] theorem modFunc_hbmReads (k : Nat) (f : Func → Func) : (s.modFunc k f).hbmReads = s.hbmReads := rfl
@[simp] theorem modFunc_badGranules (k : Nat) (f : Func → Func) : (s.modFunc k f).badGranules = s.badGranules := rfl
@[simp] theorem modFunc_ctxs (k : Nat) (f : Func → Func) : (s.modFunc k f).ctxs = s.ctxs := rfl
@[simp] theorem modFunc_ctxFree (k : Nat) (f : Func → Func) : (s.modFunc k f).ctxFree = s.ctxFree := rfl
@[simp] theorem modFunc_ctxNext (k : Nat) (f : Func → Func) : (s.modFunc k f).ctxNext = s.ctxNext := rfl
@[simp] theorem modFunc_queues (k : Nat) (f : Func → Func) : (s.modFunc k f).queues = s.queues := rfl
@[simp] theorem modFunc_steps (k : Nat) (f : Func → Func) : (s.modFunc k f).steps = s.steps := rfl
@[simp] theorem modFunc_slotGen (k : Nat) (f : Func → Func) : (s.modFunc k f).slotGen = s.slotGen := rfl
@[simp] theorem modFunc_quar (k : Nat) (f : Func → Func) : (s.modFunc k f).quar = s.quar := rfl
@[simp] theorem modFunc_tiles (k : Nat) (f : Func → Func) : (s.modFunc k f).tiles = s.tiles := rfl
@[simp] theorem modFunc_movers (k : Nat) (f : Func → Func) : (s.modFunc k f).movers = s.movers := rfl
@[simp] theorem modFunc_sorters (k : Nat) (f : Func → Func) : (s.modFunc k f).sorters = s.sorters := rfl
@[simp] theorem modFunc_sortWait (k : Nat) (f : Func → Func) : (s.modFunc k f).sortWait = s.sortWait := rfl
@[simp] theorem modFunc_reducers (k : Nat) (f : Func → Func) : (s.modFunc k f).reducers = s.reducers := rfl
@[simp] theorem modFunc_addedWork (k : Nat) (f : Func → Func) : (s.modFunc k f).addedWork = s.addedWork := rfl
@[simp] theorem modFunc_engRecs (k : Nat) (f : Func → Func) : (s.modFunc k f).engRecs = s.engRecs := rfl
@[simp] theorem modFunc_remOps (k : Nat) (f : Func → Func) : (s.modFunc k f).remOps = s.remOps := rfl
@[simp] theorem modFunc_opNext (k : Nat) (f : Func → Func) : (s.modFunc k f).opNext = s.opNext := rfl
@[simp] theorem modFunc_ports (k : Nat) (f : Func → Func) : (s.modFunc k f).ports = s.ports := rfl
@[simp] theorem modFunc_windows (k : Nat) (f : Func → Func) : (s.modFunc k f).windows = s.windows := rfl
@[simp] theorem modFunc_stale (k : Nat) (f : Func → Func) : (s.modFunc k f).stale = s.stale := rfl
@[simp] theorem modFunc_jobs (k : Nat) (f : Func → Func) : (s.modFunc k f).jobs = s.jobs := rfl
@[simp] theorem modFunc_hbm (k : Nat) (f : Func → Func) : (s.modFunc k f).hbm = s.hbm := rfl
@[simp] theorem modFunc_hbmPoison (k : Nat) (f : Func → Func) : (s.modFunc k f).hbmPoison = s.hbmPoison := rfl
@[simp] theorem modFunc_scrubs (k : Nat) (f : Func → Func) : (s.modFunc k f).scrubs = s.scrubs := rfl
@[simp] theorem modFunc_grants (k : Nat) (f : Func → Func) : (s.modFunc k f).grants = s.grants := rfl
@[simp] theorem modFunc_gst (k : Nat) (f : Func → Func) : (s.modFunc k f).gst = s.gst := rfl
@[simp] theorem modFunc_pmc (k : Nat) (f : Func → Func) : (s.modFunc k f).pmc = s.pmc := rfl
@[simp] theorem modFunc_power (k : Nat) (f : Func → Func) : (s.modFunc k f).power = s.power := rfl
@[simp] theorem modFunc_host (k : Nat) (f : Func → Func) : (s.modFunc k f).host = s.host := rfl
@[simp] theorem modFunc_stageUsed (k : Nat) (f : Func → Func) : (s.modFunc k f).stageUsed = s.stageUsed := rfl
@[simp] theorem modFunc_stageMax (k : Nat) (f : Func → Func) : (s.modFunc k f).stageMax = s.stageMax := rfl
@[simp] theorem modFunc_stageFull (k : Nat) (f : Func → Func) : (s.modFunc k f).stageFull = s.stageFull := rfl
@[simp] theorem modFunc_out (k : Nat) (f : Func → Func) : (s.modFunc k f).out = s.out := rfl
@[simp] theorem modFunc_fresh (k : Nat) (f : Func → Func) : (s.modFunc k f).fresh = s.fresh := rfl
@[simp] theorem modFunc_pending (k : Nat) (f : Func → Func) : (s.modFunc k f).pending = s.pending := rfl
theorem modFunc_funcs (k : Nat) (f : Func → Func) : (s.modFunc k f).funcs = tput s.funcs k (f (s.func k)) := rfl

@[simp] theorem modCtx_variant (k : Nat) (f : Ctx → Ctx) : (s.modCtx k f).variant = s.variant := rfl
@[simp] theorem modCtx_aon (k : Nat) (f : Ctx → Ctx) : (s.modCtx k f).aon = s.aon := rfl
@[simp] theorem modCtx_mainReset (k : Nat) (f : Ctx → Ctx) : (s.modCtx k f).mainReset = s.mainReset := rfl
@[simp] theorem modCtx_coll (k : Nat) (f : Ctx → Ctx) : (s.modCtx k f).coll = s.coll := rfl
@[simp] theorem modCtx_life (k : Nat) (f : Ctx → Ctx) : (s.modCtx k f).life = s.life := rfl
@[simp] theorem modCtx_rails (k : Nat) (f : Ctx → Ctx) : (s.modCtx k f).rails = s.rails := rfl
@[simp] theorem modCtx_funcs (k : Nat) (f : Ctx → Ctx) : (s.modCtx k f).funcs = s.funcs := rfl
@[simp] theorem modCtx_lastTaken (k : Nat) (f : Ctx → Ctx) : (s.modCtx k f).lastTaken = s.lastTaken := rfl
@[simp] theorem modCtx_parts (k : Nat) (f : Ctx → Ctx) : (s.modCtx k f).parts = s.parts := rfl
@[simp] theorem modCtx_partGen (k : Nat) (f : Ctx → Ctx) : (s.modCtx k f).partGen = s.partGen := rfl
@[simp] theorem modCtx_dieWays (k : Nat) (f : Ctx → Ctx) : (s.modCtx k f).dieWays = s.dieWays := rfl
@[simp] theorem modCtx_caches (k : Nat) (f : Ctx → Ctx) : (s.modCtx k f).caches = s.caches := rfl
@[simp] theorem modCtx_hbmReads (k : Nat) (f : Ctx → Ctx) : (s.modCtx k f).hbmReads = s.hbmReads := rfl
@[simp] theorem modCtx_badGranules (k : Nat) (f : Ctx → Ctx) : (s.modCtx k f).badGranules = s.badGranules := rfl
@[simp] theorem modCtx_ctxFree (k : Nat) (f : Ctx → Ctx) : (s.modCtx k f).ctxFree = s.ctxFree := rfl
@[simp] theorem modCtx_ctxNext (k : Nat) (f : Ctx → Ctx) : (s.modCtx k f).ctxNext = s.ctxNext := rfl
@[simp] theorem modCtx_queues (k : Nat) (f : Ctx → Ctx) : (s.modCtx k f).queues = s.queues := rfl
@[simp] theorem modCtx_steps (k : Nat) (f : Ctx → Ctx) : (s.modCtx k f).steps = s.steps := rfl
@[simp] theorem modCtx_slotGen (k : Nat) (f : Ctx → Ctx) : (s.modCtx k f).slotGen = s.slotGen := rfl
@[simp] theorem modCtx_quar (k : Nat) (f : Ctx → Ctx) : (s.modCtx k f).quar = s.quar := rfl
@[simp] theorem modCtx_tiles (k : Nat) (f : Ctx → Ctx) : (s.modCtx k f).tiles = s.tiles := rfl
@[simp] theorem modCtx_movers (k : Nat) (f : Ctx → Ctx) : (s.modCtx k f).movers = s.movers := rfl
@[simp] theorem modCtx_sorters (k : Nat) (f : Ctx → Ctx) : (s.modCtx k f).sorters = s.sorters := rfl
@[simp] theorem modCtx_sortWait (k : Nat) (f : Ctx → Ctx) : (s.modCtx k f).sortWait = s.sortWait := rfl
@[simp] theorem modCtx_reducers (k : Nat) (f : Ctx → Ctx) : (s.modCtx k f).reducers = s.reducers := rfl
@[simp] theorem modCtx_addedWork (k : Nat) (f : Ctx → Ctx) : (s.modCtx k f).addedWork = s.addedWork := rfl
@[simp] theorem modCtx_engRecs (k : Nat) (f : Ctx → Ctx) : (s.modCtx k f).engRecs = s.engRecs := rfl
@[simp] theorem modCtx_remOps (k : Nat) (f : Ctx → Ctx) : (s.modCtx k f).remOps = s.remOps := rfl
@[simp] theorem modCtx_opNext (k : Nat) (f : Ctx → Ctx) : (s.modCtx k f).opNext = s.opNext := rfl
@[simp] theorem modCtx_ports (k : Nat) (f : Ctx → Ctx) : (s.modCtx k f).ports = s.ports := rfl
@[simp] theorem modCtx_windows (k : Nat) (f : Ctx → Ctx) : (s.modCtx k f).windows = s.windows := rfl
@[simp] theorem modCtx_stale (k : Nat) (f : Ctx → Ctx) : (s.modCtx k f).stale = s.stale := rfl
@[simp] theorem modCtx_jobs (k : Nat) (f : Ctx → Ctx) : (s.modCtx k f).jobs = s.jobs := rfl
@[simp] theorem modCtx_hbm (k : Nat) (f : Ctx → Ctx) : (s.modCtx k f).hbm = s.hbm := rfl
@[simp] theorem modCtx_hbmPoison (k : Nat) (f : Ctx → Ctx) : (s.modCtx k f).hbmPoison = s.hbmPoison := rfl
@[simp] theorem modCtx_scrubs (k : Nat) (f : Ctx → Ctx) : (s.modCtx k f).scrubs = s.scrubs := rfl
@[simp] theorem modCtx_grants (k : Nat) (f : Ctx → Ctx) : (s.modCtx k f).grants = s.grants := rfl
@[simp] theorem modCtx_gst (k : Nat) (f : Ctx → Ctx) : (s.modCtx k f).gst = s.gst := rfl
@[simp] theorem modCtx_pmc (k : Nat) (f : Ctx → Ctx) : (s.modCtx k f).pmc = s.pmc := rfl
@[simp] theorem modCtx_power (k : Nat) (f : Ctx → Ctx) : (s.modCtx k f).power = s.power := rfl
@[simp] theorem modCtx_host (k : Nat) (f : Ctx → Ctx) : (s.modCtx k f).host = s.host := rfl
@[simp] theorem modCtx_stageUsed (k : Nat) (f : Ctx → Ctx) : (s.modCtx k f).stageUsed = s.stageUsed := rfl
@[simp] theorem modCtx_stageMax (k : Nat) (f : Ctx → Ctx) : (s.modCtx k f).stageMax = s.stageMax := rfl
@[simp] theorem modCtx_stageFull (k : Nat) (f : Ctx → Ctx) : (s.modCtx k f).stageFull = s.stageFull := rfl
@[simp] theorem modCtx_out (k : Nat) (f : Ctx → Ctx) : (s.modCtx k f).out = s.out := rfl
@[simp] theorem modCtx_fresh (k : Nat) (f : Ctx → Ctx) : (s.modCtx k f).fresh = s.fresh := rfl
@[simp] theorem modCtx_pending (k : Nat) (f : Ctx → Ctx) : (s.modCtx k f).pending = s.pending := rfl
theorem modCtx_ctxs (k : Nat) (f : Ctx → Ctx) : (s.modCtx k f).ctxs = tput s.ctxs k (f (s.ctx k)) := rfl

@[simp] theorem modStep_variant (k : Nat) (f : Step → Step) : (s.modStep k f).variant = s.variant := by unfold State.modStep; split <;> rfl
@[simp] theorem modStep_aon (k : Nat) (f : Step → Step) : (s.modStep k f).aon = s.aon := by unfold State.modStep; split <;> rfl
@[simp] theorem modStep_mainReset (k : Nat) (f : Step → Step) : (s.modStep k f).mainReset = s.mainReset := by unfold State.modStep; split <;> rfl
@[simp] theorem modStep_coll (k : Nat) (f : Step → Step) : (s.modStep k f).coll = s.coll := by unfold State.modStep; split <;> rfl
@[simp] theorem modStep_life (k : Nat) (f : Step → Step) : (s.modStep k f).life = s.life := by unfold State.modStep; split <;> rfl
@[simp] theorem modStep_rails (k : Nat) (f : Step → Step) : (s.modStep k f).rails = s.rails := by unfold State.modStep; split <;> rfl
@[simp] theorem modStep_funcs (k : Nat) (f : Step → Step) : (s.modStep k f).funcs = s.funcs := by unfold State.modStep; split <;> rfl
@[simp] theorem modStep_lastTaken (k : Nat) (f : Step → Step) : (s.modStep k f).lastTaken = s.lastTaken := by unfold State.modStep; split <;> rfl
@[simp] theorem modStep_parts (k : Nat) (f : Step → Step) : (s.modStep k f).parts = s.parts := by unfold State.modStep; split <;> rfl
@[simp] theorem modStep_partGen (k : Nat) (f : Step → Step) : (s.modStep k f).partGen = s.partGen := by unfold State.modStep; split <;> rfl
@[simp] theorem modStep_dieWays (k : Nat) (f : Step → Step) : (s.modStep k f).dieWays = s.dieWays := by unfold State.modStep; split <;> rfl
@[simp] theorem modStep_caches (k : Nat) (f : Step → Step) : (s.modStep k f).caches = s.caches := by unfold State.modStep; split <;> rfl
@[simp] theorem modStep_hbmReads (k : Nat) (f : Step → Step) : (s.modStep k f).hbmReads = s.hbmReads := by unfold State.modStep; split <;> rfl
@[simp] theorem modStep_badGranules (k : Nat) (f : Step → Step) : (s.modStep k f).badGranules = s.badGranules := by unfold State.modStep; split <;> rfl
@[simp] theorem modStep_ctxs (k : Nat) (f : Step → Step) : (s.modStep k f).ctxs = s.ctxs := by unfold State.modStep; split <;> rfl
@[simp] theorem modStep_ctxFree (k : Nat) (f : Step → Step) : (s.modStep k f).ctxFree = s.ctxFree := by unfold State.modStep; split <;> rfl
@[simp] theorem modStep_ctxNext (k : Nat) (f : Step → Step) : (s.modStep k f).ctxNext = s.ctxNext := by unfold State.modStep; split <;> rfl
@[simp] theorem modStep_queues (k : Nat) (f : Step → Step) : (s.modStep k f).queues = s.queues := by unfold State.modStep; split <;> rfl
@[simp] theorem modStep_slotGen (k : Nat) (f : Step → Step) : (s.modStep k f).slotGen = s.slotGen := by unfold State.modStep; split <;> rfl
@[simp] theorem modStep_quar (k : Nat) (f : Step → Step) : (s.modStep k f).quar = s.quar := by unfold State.modStep; split <;> rfl
@[simp] theorem modStep_tiles (k : Nat) (f : Step → Step) : (s.modStep k f).tiles = s.tiles := by unfold State.modStep; split <;> rfl
@[simp] theorem modStep_movers (k : Nat) (f : Step → Step) : (s.modStep k f).movers = s.movers := by unfold State.modStep; split <;> rfl
@[simp] theorem modStep_sorters (k : Nat) (f : Step → Step) : (s.modStep k f).sorters = s.sorters := by unfold State.modStep; split <;> rfl
@[simp] theorem modStep_sortWait (k : Nat) (f : Step → Step) : (s.modStep k f).sortWait = s.sortWait := by unfold State.modStep; split <;> rfl
@[simp] theorem modStep_reducers (k : Nat) (f : Step → Step) : (s.modStep k f).reducers = s.reducers := by unfold State.modStep; split <;> rfl
@[simp] theorem modStep_addedWork (k : Nat) (f : Step → Step) : (s.modStep k f).addedWork = s.addedWork := by unfold State.modStep; split <;> rfl
@[simp] theorem modStep_engRecs (k : Nat) (f : Step → Step) : (s.modStep k f).engRecs = s.engRecs := by unfold State.modStep; split <;> rfl
@[simp] theorem modStep_remOps (k : Nat) (f : Step → Step) : (s.modStep k f).remOps = s.remOps := by unfold State.modStep; split <;> rfl
@[simp] theorem modStep_opNext (k : Nat) (f : Step → Step) : (s.modStep k f).opNext = s.opNext := by unfold State.modStep; split <;> rfl
@[simp] theorem modStep_ports (k : Nat) (f : Step → Step) : (s.modStep k f).ports = s.ports := by unfold State.modStep; split <;> rfl
@[simp] theorem modStep_windows (k : Nat) (f : Step → Step) : (s.modStep k f).windows = s.windows := by unfold State.modStep; split <;> rfl
@[simp] theorem modStep_stale (k : Nat) (f : Step → Step) : (s.modStep k f).stale = s.stale := by unfold State.modStep; split <;> rfl
@[simp] theorem modStep_jobs (k : Nat) (f : Step → Step) : (s.modStep k f).jobs = s.jobs := by unfold State.modStep; split <;> rfl
@[simp] theorem modStep_hbm (k : Nat) (f : Step → Step) : (s.modStep k f).hbm = s.hbm := by unfold State.modStep; split <;> rfl
@[simp] theorem modStep_hbmPoison (k : Nat) (f : Step → Step) : (s.modStep k f).hbmPoison = s.hbmPoison := by unfold State.modStep; split <;> rfl
@[simp] theorem modStep_scrubs (k : Nat) (f : Step → Step) : (s.modStep k f).scrubs = s.scrubs := by unfold State.modStep; split <;> rfl
@[simp] theorem modStep_grants (k : Nat) (f : Step → Step) : (s.modStep k f).grants = s.grants := by unfold State.modStep; split <;> rfl
@[simp] theorem modStep_gst (k : Nat) (f : Step → Step) : (s.modStep k f).gst = s.gst := by unfold State.modStep; split <;> rfl
@[simp] theorem modStep_pmc (k : Nat) (f : Step → Step) : (s.modStep k f).pmc = s.pmc := by unfold State.modStep; split <;> rfl
@[simp] theorem modStep_power (k : Nat) (f : Step → Step) : (s.modStep k f).power = s.power := by unfold State.modStep; split <;> rfl
@[simp] theorem modStep_host (k : Nat) (f : Step → Step) : (s.modStep k f).host = s.host := by unfold State.modStep; split <;> rfl
@[simp] theorem modStep_stageUsed (k : Nat) (f : Step → Step) : (s.modStep k f).stageUsed = s.stageUsed := by unfold State.modStep; split <;> rfl
@[simp] theorem modStep_stageMax (k : Nat) (f : Step → Step) : (s.modStep k f).stageMax = s.stageMax := by unfold State.modStep; split <;> rfl
@[simp] theorem modStep_stageFull (k : Nat) (f : Step → Step) : (s.modStep k f).stageFull = s.stageFull := by unfold State.modStep; split <;> rfl
@[simp] theorem modStep_out (k : Nat) (f : Step → Step) : (s.modStep k f).out = s.out := by unfold State.modStep; split <;> rfl
@[simp] theorem modStep_fresh (k : Nat) (f : Step → Step) : (s.modStep k f).fresh = s.fresh := by unfold State.modStep; split <;> rfl
@[simp] theorem modStep_pending (k : Nat) (f : Step → Step) : (s.modStep k f).pending = s.pending := by unfold State.modStep; split <;> rfl

@[simp] theorem modQueue_variant (k : Nat) (f : Queue → Queue) : (s.modQueue k f).variant = s.variant := rfl
@[simp] theorem modQueue_aon (k : Nat) (f : Queue → Queue) : (s.modQueue k f).aon = s.aon := rfl
@[simp] theorem modQueue_mainReset (k : Nat) (f : Queue → Queue) : (s.modQueue k f).mainReset = s.mainReset := rfl
@[simp] theorem modQueue_coll (k : Nat) (f : Queue → Queue) : (s.modQueue k f).coll = s.coll := rfl
@[simp] theorem modQueue_life (k : Nat) (f : Queue → Queue) : (s.modQueue k f).life = s.life := rfl
@[simp] theorem modQueue_rails (k : Nat) (f : Queue → Queue) : (s.modQueue k f).rails = s.rails := rfl
@[simp] theorem modQueue_funcs (k : Nat) (f : Queue → Queue) : (s.modQueue k f).funcs = s.funcs := rfl
@[simp] theorem modQueue_lastTaken (k : Nat) (f : Queue → Queue) : (s.modQueue k f).lastTaken = s.lastTaken := rfl
@[simp] theorem modQueue_parts (k : Nat) (f : Queue → Queue) : (s.modQueue k f).parts = s.parts := rfl
@[simp] theorem modQueue_partGen (k : Nat) (f : Queue → Queue) : (s.modQueue k f).partGen = s.partGen := rfl
@[simp] theorem modQueue_dieWays (k : Nat) (f : Queue → Queue) : (s.modQueue k f).dieWays = s.dieWays := rfl
@[simp] theorem modQueue_caches (k : Nat) (f : Queue → Queue) : (s.modQueue k f).caches = s.caches := rfl
@[simp] theorem modQueue_hbmReads (k : Nat) (f : Queue → Queue) : (s.modQueue k f).hbmReads = s.hbmReads := rfl
@[simp] theorem modQueue_badGranules (k : Nat) (f : Queue → Queue) : (s.modQueue k f).badGranules = s.badGranules := rfl
@[simp] theorem modQueue_ctxs (k : Nat) (f : Queue → Queue) : (s.modQueue k f).ctxs = s.ctxs := rfl
@[simp] theorem modQueue_ctxFree (k : Nat) (f : Queue → Queue) : (s.modQueue k f).ctxFree = s.ctxFree := rfl
@[simp] theorem modQueue_ctxNext (k : Nat) (f : Queue → Queue) : (s.modQueue k f).ctxNext = s.ctxNext := rfl
@[simp] theorem modQueue_steps (k : Nat) (f : Queue → Queue) : (s.modQueue k f).steps = s.steps := rfl
@[simp] theorem modQueue_slotGen (k : Nat) (f : Queue → Queue) : (s.modQueue k f).slotGen = s.slotGen := rfl
@[simp] theorem modQueue_quar (k : Nat) (f : Queue → Queue) : (s.modQueue k f).quar = s.quar := rfl
@[simp] theorem modQueue_tiles (k : Nat) (f : Queue → Queue) : (s.modQueue k f).tiles = s.tiles := rfl
@[simp] theorem modQueue_movers (k : Nat) (f : Queue → Queue) : (s.modQueue k f).movers = s.movers := rfl
@[simp] theorem modQueue_sorters (k : Nat) (f : Queue → Queue) : (s.modQueue k f).sorters = s.sorters := rfl
@[simp] theorem modQueue_sortWait (k : Nat) (f : Queue → Queue) : (s.modQueue k f).sortWait = s.sortWait := rfl
@[simp] theorem modQueue_reducers (k : Nat) (f : Queue → Queue) : (s.modQueue k f).reducers = s.reducers := rfl
@[simp] theorem modQueue_addedWork (k : Nat) (f : Queue → Queue) : (s.modQueue k f).addedWork = s.addedWork := rfl
@[simp] theorem modQueue_engRecs (k : Nat) (f : Queue → Queue) : (s.modQueue k f).engRecs = s.engRecs := rfl
@[simp] theorem modQueue_remOps (k : Nat) (f : Queue → Queue) : (s.modQueue k f).remOps = s.remOps := rfl
@[simp] theorem modQueue_opNext (k : Nat) (f : Queue → Queue) : (s.modQueue k f).opNext = s.opNext := rfl
@[simp] theorem modQueue_ports (k : Nat) (f : Queue → Queue) : (s.modQueue k f).ports = s.ports := rfl
@[simp] theorem modQueue_windows (k : Nat) (f : Queue → Queue) : (s.modQueue k f).windows = s.windows := rfl
@[simp] theorem modQueue_stale (k : Nat) (f : Queue → Queue) : (s.modQueue k f).stale = s.stale := rfl
@[simp] theorem modQueue_jobs (k : Nat) (f : Queue → Queue) : (s.modQueue k f).jobs = s.jobs := rfl
@[simp] theorem modQueue_hbm (k : Nat) (f : Queue → Queue) : (s.modQueue k f).hbm = s.hbm := rfl
@[simp] theorem modQueue_hbmPoison (k : Nat) (f : Queue → Queue) : (s.modQueue k f).hbmPoison = s.hbmPoison := rfl
@[simp] theorem modQueue_scrubs (k : Nat) (f : Queue → Queue) : (s.modQueue k f).scrubs = s.scrubs := rfl
@[simp] theorem modQueue_grants (k : Nat) (f : Queue → Queue) : (s.modQueue k f).grants = s.grants := rfl
@[simp] theorem modQueue_gst (k : Nat) (f : Queue → Queue) : (s.modQueue k f).gst = s.gst := rfl
@[simp] theorem modQueue_pmc (k : Nat) (f : Queue → Queue) : (s.modQueue k f).pmc = s.pmc := rfl
@[simp] theorem modQueue_power (k : Nat) (f : Queue → Queue) : (s.modQueue k f).power = s.power := rfl
@[simp] theorem modQueue_host (k : Nat) (f : Queue → Queue) : (s.modQueue k f).host = s.host := rfl
@[simp] theorem modQueue_stageUsed (k : Nat) (f : Queue → Queue) : (s.modQueue k f).stageUsed = s.stageUsed := rfl
@[simp] theorem modQueue_stageMax (k : Nat) (f : Queue → Queue) : (s.modQueue k f).stageMax = s.stageMax := rfl
@[simp] theorem modQueue_stageFull (k : Nat) (f : Queue → Queue) : (s.modQueue k f).stageFull = s.stageFull := rfl
@[simp] theorem modQueue_out (k : Nat) (f : Queue → Queue) : (s.modQueue k f).out = s.out := rfl
@[simp] theorem modQueue_fresh (k : Nat) (f : Queue → Queue) : (s.modQueue k f).fresh = s.fresh := rfl
@[simp] theorem modQueue_pending (k : Nat) (f : Queue → Queue) : (s.modQueue k f).pending = s.pending := rfl
theorem modQueue_queues (k : Nat) (f : Queue → Queue) : (s.modQueue k f).queues = tput s.queues k (f (s.queue k)) := rfl

@[simp] theorem modTile_variant (k : Nat) (f : Tile → Tile) : (s.modTile k f).variant = s.variant := rfl
@[simp] theorem modTile_aon (k : Nat) (f : Tile → Tile) : (s.modTile k f).aon = s.aon := rfl
@[simp] theorem modTile_mainReset (k : Nat) (f : Tile → Tile) : (s.modTile k f).mainReset = s.mainReset := rfl
@[simp] theorem modTile_coll (k : Nat) (f : Tile → Tile) : (s.modTile k f).coll = s.coll := rfl
@[simp] theorem modTile_life (k : Nat) (f : Tile → Tile) : (s.modTile k f).life = s.life := rfl
@[simp] theorem modTile_rails (k : Nat) (f : Tile → Tile) : (s.modTile k f).rails = s.rails := rfl
@[simp] theorem modTile_funcs (k : Nat) (f : Tile → Tile) : (s.modTile k f).funcs = s.funcs := rfl
@[simp] theorem modTile_lastTaken (k : Nat) (f : Tile → Tile) : (s.modTile k f).lastTaken = s.lastTaken := rfl
@[simp] theorem modTile_parts (k : Nat) (f : Tile → Tile) : (s.modTile k f).parts = s.parts := rfl
@[simp] theorem modTile_partGen (k : Nat) (f : Tile → Tile) : (s.modTile k f).partGen = s.partGen := rfl
@[simp] theorem modTile_dieWays (k : Nat) (f : Tile → Tile) : (s.modTile k f).dieWays = s.dieWays := rfl
@[simp] theorem modTile_caches (k : Nat) (f : Tile → Tile) : (s.modTile k f).caches = s.caches := rfl
@[simp] theorem modTile_hbmReads (k : Nat) (f : Tile → Tile) : (s.modTile k f).hbmReads = s.hbmReads := rfl
@[simp] theorem modTile_badGranules (k : Nat) (f : Tile → Tile) : (s.modTile k f).badGranules = s.badGranules := rfl
@[simp] theorem modTile_ctxs (k : Nat) (f : Tile → Tile) : (s.modTile k f).ctxs = s.ctxs := rfl
@[simp] theorem modTile_ctxFree (k : Nat) (f : Tile → Tile) : (s.modTile k f).ctxFree = s.ctxFree := rfl
@[simp] theorem modTile_ctxNext (k : Nat) (f : Tile → Tile) : (s.modTile k f).ctxNext = s.ctxNext := rfl
@[simp] theorem modTile_queues (k : Nat) (f : Tile → Tile) : (s.modTile k f).queues = s.queues := rfl
@[simp] theorem modTile_steps (k : Nat) (f : Tile → Tile) : (s.modTile k f).steps = s.steps := rfl
@[simp] theorem modTile_slotGen (k : Nat) (f : Tile → Tile) : (s.modTile k f).slotGen = s.slotGen := rfl
@[simp] theorem modTile_quar (k : Nat) (f : Tile → Tile) : (s.modTile k f).quar = s.quar := rfl
@[simp] theorem modTile_movers (k : Nat) (f : Tile → Tile) : (s.modTile k f).movers = s.movers := rfl
@[simp] theorem modTile_sorters (k : Nat) (f : Tile → Tile) : (s.modTile k f).sorters = s.sorters := rfl
@[simp] theorem modTile_sortWait (k : Nat) (f : Tile → Tile) : (s.modTile k f).sortWait = s.sortWait := rfl
@[simp] theorem modTile_reducers (k : Nat) (f : Tile → Tile) : (s.modTile k f).reducers = s.reducers := rfl
@[simp] theorem modTile_addedWork (k : Nat) (f : Tile → Tile) : (s.modTile k f).addedWork = s.addedWork := rfl
@[simp] theorem modTile_engRecs (k : Nat) (f : Tile → Tile) : (s.modTile k f).engRecs = s.engRecs := rfl
@[simp] theorem modTile_remOps (k : Nat) (f : Tile → Tile) : (s.modTile k f).remOps = s.remOps := rfl
@[simp] theorem modTile_opNext (k : Nat) (f : Tile → Tile) : (s.modTile k f).opNext = s.opNext := rfl
@[simp] theorem modTile_ports (k : Nat) (f : Tile → Tile) : (s.modTile k f).ports = s.ports := rfl
@[simp] theorem modTile_windows (k : Nat) (f : Tile → Tile) : (s.modTile k f).windows = s.windows := rfl
@[simp] theorem modTile_stale (k : Nat) (f : Tile → Tile) : (s.modTile k f).stale = s.stale := rfl
@[simp] theorem modTile_jobs (k : Nat) (f : Tile → Tile) : (s.modTile k f).jobs = s.jobs := rfl
@[simp] theorem modTile_hbm (k : Nat) (f : Tile → Tile) : (s.modTile k f).hbm = s.hbm := rfl
@[simp] theorem modTile_hbmPoison (k : Nat) (f : Tile → Tile) : (s.modTile k f).hbmPoison = s.hbmPoison := rfl
@[simp] theorem modTile_scrubs (k : Nat) (f : Tile → Tile) : (s.modTile k f).scrubs = s.scrubs := rfl
@[simp] theorem modTile_grants (k : Nat) (f : Tile → Tile) : (s.modTile k f).grants = s.grants := rfl
@[simp] theorem modTile_gst (k : Nat) (f : Tile → Tile) : (s.modTile k f).gst = s.gst := rfl
@[simp] theorem modTile_pmc (k : Nat) (f : Tile → Tile) : (s.modTile k f).pmc = s.pmc := rfl
@[simp] theorem modTile_power (k : Nat) (f : Tile → Tile) : (s.modTile k f).power = s.power := rfl
@[simp] theorem modTile_host (k : Nat) (f : Tile → Tile) : (s.modTile k f).host = s.host := rfl
@[simp] theorem modTile_stageUsed (k : Nat) (f : Tile → Tile) : (s.modTile k f).stageUsed = s.stageUsed := rfl
@[simp] theorem modTile_stageMax (k : Nat) (f : Tile → Tile) : (s.modTile k f).stageMax = s.stageMax := rfl
@[simp] theorem modTile_stageFull (k : Nat) (f : Tile → Tile) : (s.modTile k f).stageFull = s.stageFull := rfl
@[simp] theorem modTile_out (k : Nat) (f : Tile → Tile) : (s.modTile k f).out = s.out := rfl
@[simp] theorem modTile_fresh (k : Nat) (f : Tile → Tile) : (s.modTile k f).fresh = s.fresh := rfl
@[simp] theorem modTile_pending (k : Nat) (f : Tile → Tile) : (s.modTile k f).pending = s.pending := rfl
theorem modTile_tiles (k : Nat) (f : Tile → Tile) : (s.modTile k f).tiles = tput s.tiles k (f (s.tile k)) := rfl

@[simp] theorem modSorter_variant (k : Nat) (f : Sorter → Sorter) : (s.modSorter k f).variant = s.variant := rfl
@[simp] theorem modSorter_aon (k : Nat) (f : Sorter → Sorter) : (s.modSorter k f).aon = s.aon := rfl
@[simp] theorem modSorter_mainReset (k : Nat) (f : Sorter → Sorter) : (s.modSorter k f).mainReset = s.mainReset := rfl
@[simp] theorem modSorter_coll (k : Nat) (f : Sorter → Sorter) : (s.modSorter k f).coll = s.coll := rfl
@[simp] theorem modSorter_life (k : Nat) (f : Sorter → Sorter) : (s.modSorter k f).life = s.life := rfl
@[simp] theorem modSorter_rails (k : Nat) (f : Sorter → Sorter) : (s.modSorter k f).rails = s.rails := rfl
@[simp] theorem modSorter_funcs (k : Nat) (f : Sorter → Sorter) : (s.modSorter k f).funcs = s.funcs := rfl
@[simp] theorem modSorter_lastTaken (k : Nat) (f : Sorter → Sorter) : (s.modSorter k f).lastTaken = s.lastTaken := rfl
@[simp] theorem modSorter_parts (k : Nat) (f : Sorter → Sorter) : (s.modSorter k f).parts = s.parts := rfl
@[simp] theorem modSorter_partGen (k : Nat) (f : Sorter → Sorter) : (s.modSorter k f).partGen = s.partGen := rfl
@[simp] theorem modSorter_dieWays (k : Nat) (f : Sorter → Sorter) : (s.modSorter k f).dieWays = s.dieWays := rfl
@[simp] theorem modSorter_caches (k : Nat) (f : Sorter → Sorter) : (s.modSorter k f).caches = s.caches := rfl
@[simp] theorem modSorter_hbmReads (k : Nat) (f : Sorter → Sorter) : (s.modSorter k f).hbmReads = s.hbmReads := rfl
@[simp] theorem modSorter_badGranules (k : Nat) (f : Sorter → Sorter) : (s.modSorter k f).badGranules = s.badGranules := rfl
@[simp] theorem modSorter_ctxs (k : Nat) (f : Sorter → Sorter) : (s.modSorter k f).ctxs = s.ctxs := rfl
@[simp] theorem modSorter_ctxFree (k : Nat) (f : Sorter → Sorter) : (s.modSorter k f).ctxFree = s.ctxFree := rfl
@[simp] theorem modSorter_ctxNext (k : Nat) (f : Sorter → Sorter) : (s.modSorter k f).ctxNext = s.ctxNext := rfl
@[simp] theorem modSorter_queues (k : Nat) (f : Sorter → Sorter) : (s.modSorter k f).queues = s.queues := rfl
@[simp] theorem modSorter_steps (k : Nat) (f : Sorter → Sorter) : (s.modSorter k f).steps = s.steps := rfl
@[simp] theorem modSorter_slotGen (k : Nat) (f : Sorter → Sorter) : (s.modSorter k f).slotGen = s.slotGen := rfl
@[simp] theorem modSorter_quar (k : Nat) (f : Sorter → Sorter) : (s.modSorter k f).quar = s.quar := rfl
@[simp] theorem modSorter_tiles (k : Nat) (f : Sorter → Sorter) : (s.modSorter k f).tiles = s.tiles := rfl
@[simp] theorem modSorter_movers (k : Nat) (f : Sorter → Sorter) : (s.modSorter k f).movers = s.movers := rfl
@[simp] theorem modSorter_sortWait (k : Nat) (f : Sorter → Sorter) : (s.modSorter k f).sortWait = s.sortWait := rfl
@[simp] theorem modSorter_reducers (k : Nat) (f : Sorter → Sorter) : (s.modSorter k f).reducers = s.reducers := rfl
@[simp] theorem modSorter_addedWork (k : Nat) (f : Sorter → Sorter) : (s.modSorter k f).addedWork = s.addedWork := rfl
@[simp] theorem modSorter_engRecs (k : Nat) (f : Sorter → Sorter) : (s.modSorter k f).engRecs = s.engRecs := rfl
@[simp] theorem modSorter_remOps (k : Nat) (f : Sorter → Sorter) : (s.modSorter k f).remOps = s.remOps := rfl
@[simp] theorem modSorter_opNext (k : Nat) (f : Sorter → Sorter) : (s.modSorter k f).opNext = s.opNext := rfl
@[simp] theorem modSorter_ports (k : Nat) (f : Sorter → Sorter) : (s.modSorter k f).ports = s.ports := rfl
@[simp] theorem modSorter_windows (k : Nat) (f : Sorter → Sorter) : (s.modSorter k f).windows = s.windows := rfl
@[simp] theorem modSorter_stale (k : Nat) (f : Sorter → Sorter) : (s.modSorter k f).stale = s.stale := rfl
@[simp] theorem modSorter_jobs (k : Nat) (f : Sorter → Sorter) : (s.modSorter k f).jobs = s.jobs := rfl
@[simp] theorem modSorter_hbm (k : Nat) (f : Sorter → Sorter) : (s.modSorter k f).hbm = s.hbm := rfl
@[simp] theorem modSorter_hbmPoison (k : Nat) (f : Sorter → Sorter) : (s.modSorter k f).hbmPoison = s.hbmPoison := rfl
@[simp] theorem modSorter_scrubs (k : Nat) (f : Sorter → Sorter) : (s.modSorter k f).scrubs = s.scrubs := rfl
@[simp] theorem modSorter_grants (k : Nat) (f : Sorter → Sorter) : (s.modSorter k f).grants = s.grants := rfl
@[simp] theorem modSorter_gst (k : Nat) (f : Sorter → Sorter) : (s.modSorter k f).gst = s.gst := rfl
@[simp] theorem modSorter_pmc (k : Nat) (f : Sorter → Sorter) : (s.modSorter k f).pmc = s.pmc := rfl
@[simp] theorem modSorter_power (k : Nat) (f : Sorter → Sorter) : (s.modSorter k f).power = s.power := rfl
@[simp] theorem modSorter_host (k : Nat) (f : Sorter → Sorter) : (s.modSorter k f).host = s.host := rfl
@[simp] theorem modSorter_stageUsed (k : Nat) (f : Sorter → Sorter) : (s.modSorter k f).stageUsed = s.stageUsed := rfl
@[simp] theorem modSorter_stageMax (k : Nat) (f : Sorter → Sorter) : (s.modSorter k f).stageMax = s.stageMax := rfl
@[simp] theorem modSorter_stageFull (k : Nat) (f : Sorter → Sorter) : (s.modSorter k f).stageFull = s.stageFull := rfl
@[simp] theorem modSorter_out (k : Nat) (f : Sorter → Sorter) : (s.modSorter k f).out = s.out := rfl
@[simp] theorem modSorter_fresh (k : Nat) (f : Sorter → Sorter) : (s.modSorter k f).fresh = s.fresh := rfl
@[simp] theorem modSorter_pending (k : Nat) (f : Sorter → Sorter) : (s.modSorter k f).pending = s.pending := rfl
theorem modSorter_sorters (k : Nat) (f : Sorter → Sorter) : (s.modSorter k f).sorters = tput s.sorters k (f (s.sorter k)) := rfl

@[simp] theorem modMover_variant (k : Nat) (f : Mover → Mover) : (s.modMover k f).variant = s.variant := rfl
@[simp] theorem modMover_aon (k : Nat) (f : Mover → Mover) : (s.modMover k f).aon = s.aon := rfl
@[simp] theorem modMover_mainReset (k : Nat) (f : Mover → Mover) : (s.modMover k f).mainReset = s.mainReset := rfl
@[simp] theorem modMover_coll (k : Nat) (f : Mover → Mover) : (s.modMover k f).coll = s.coll := rfl
@[simp] theorem modMover_life (k : Nat) (f : Mover → Mover) : (s.modMover k f).life = s.life := rfl
@[simp] theorem modMover_rails (k : Nat) (f : Mover → Mover) : (s.modMover k f).rails = s.rails := rfl
@[simp] theorem modMover_funcs (k : Nat) (f : Mover → Mover) : (s.modMover k f).funcs = s.funcs := rfl
@[simp] theorem modMover_lastTaken (k : Nat) (f : Mover → Mover) : (s.modMover k f).lastTaken = s.lastTaken := rfl
@[simp] theorem modMover_parts (k : Nat) (f : Mover → Mover) : (s.modMover k f).parts = s.parts := rfl
@[simp] theorem modMover_partGen (k : Nat) (f : Mover → Mover) : (s.modMover k f).partGen = s.partGen := rfl
@[simp] theorem modMover_dieWays (k : Nat) (f : Mover → Mover) : (s.modMover k f).dieWays = s.dieWays := rfl
@[simp] theorem modMover_caches (k : Nat) (f : Mover → Mover) : (s.modMover k f).caches = s.caches := rfl
@[simp] theorem modMover_hbmReads (k : Nat) (f : Mover → Mover) : (s.modMover k f).hbmReads = s.hbmReads := rfl
@[simp] theorem modMover_badGranules (k : Nat) (f : Mover → Mover) : (s.modMover k f).badGranules = s.badGranules := rfl
@[simp] theorem modMover_ctxs (k : Nat) (f : Mover → Mover) : (s.modMover k f).ctxs = s.ctxs := rfl
@[simp] theorem modMover_ctxFree (k : Nat) (f : Mover → Mover) : (s.modMover k f).ctxFree = s.ctxFree := rfl
@[simp] theorem modMover_ctxNext (k : Nat) (f : Mover → Mover) : (s.modMover k f).ctxNext = s.ctxNext := rfl
@[simp] theorem modMover_queues (k : Nat) (f : Mover → Mover) : (s.modMover k f).queues = s.queues := rfl
@[simp] theorem modMover_steps (k : Nat) (f : Mover → Mover) : (s.modMover k f).steps = s.steps := rfl
@[simp] theorem modMover_slotGen (k : Nat) (f : Mover → Mover) : (s.modMover k f).slotGen = s.slotGen := rfl
@[simp] theorem modMover_quar (k : Nat) (f : Mover → Mover) : (s.modMover k f).quar = s.quar := rfl
@[simp] theorem modMover_tiles (k : Nat) (f : Mover → Mover) : (s.modMover k f).tiles = s.tiles := rfl
@[simp] theorem modMover_sorters (k : Nat) (f : Mover → Mover) : (s.modMover k f).sorters = s.sorters := rfl
@[simp] theorem modMover_sortWait (k : Nat) (f : Mover → Mover) : (s.modMover k f).sortWait = s.sortWait := rfl
@[simp] theorem modMover_reducers (k : Nat) (f : Mover → Mover) : (s.modMover k f).reducers = s.reducers := rfl
@[simp] theorem modMover_addedWork (k : Nat) (f : Mover → Mover) : (s.modMover k f).addedWork = s.addedWork := rfl
@[simp] theorem modMover_engRecs (k : Nat) (f : Mover → Mover) : (s.modMover k f).engRecs = s.engRecs := rfl
@[simp] theorem modMover_remOps (k : Nat) (f : Mover → Mover) : (s.modMover k f).remOps = s.remOps := rfl
@[simp] theorem modMover_opNext (k : Nat) (f : Mover → Mover) : (s.modMover k f).opNext = s.opNext := rfl
@[simp] theorem modMover_ports (k : Nat) (f : Mover → Mover) : (s.modMover k f).ports = s.ports := rfl
@[simp] theorem modMover_windows (k : Nat) (f : Mover → Mover) : (s.modMover k f).windows = s.windows := rfl
@[simp] theorem modMover_stale (k : Nat) (f : Mover → Mover) : (s.modMover k f).stale = s.stale := rfl
@[simp] theorem modMover_jobs (k : Nat) (f : Mover → Mover) : (s.modMover k f).jobs = s.jobs := rfl
@[simp] theorem modMover_hbm (k : Nat) (f : Mover → Mover) : (s.modMover k f).hbm = s.hbm := rfl
@[simp] theorem modMover_hbmPoison (k : Nat) (f : Mover → Mover) : (s.modMover k f).hbmPoison = s.hbmPoison := rfl
@[simp] theorem modMover_scrubs (k : Nat) (f : Mover → Mover) : (s.modMover k f).scrubs = s.scrubs := rfl
@[simp] theorem modMover_grants (k : Nat) (f : Mover → Mover) : (s.modMover k f).grants = s.grants := rfl
@[simp] theorem modMover_gst (k : Nat) (f : Mover → Mover) : (s.modMover k f).gst = s.gst := rfl
@[simp] theorem modMover_pmc (k : Nat) (f : Mover → Mover) : (s.modMover k f).pmc = s.pmc := rfl
@[simp] theorem modMover_power (k : Nat) (f : Mover → Mover) : (s.modMover k f).power = s.power := rfl
@[simp] theorem modMover_host (k : Nat) (f : Mover → Mover) : (s.modMover k f).host = s.host := rfl
@[simp] theorem modMover_stageUsed (k : Nat) (f : Mover → Mover) : (s.modMover k f).stageUsed = s.stageUsed := rfl
@[simp] theorem modMover_stageMax (k : Nat) (f : Mover → Mover) : (s.modMover k f).stageMax = s.stageMax := rfl
@[simp] theorem modMover_stageFull (k : Nat) (f : Mover → Mover) : (s.modMover k f).stageFull = s.stageFull := rfl
@[simp] theorem modMover_out (k : Nat) (f : Mover → Mover) : (s.modMover k f).out = s.out := rfl
@[simp] theorem modMover_fresh (k : Nat) (f : Mover → Mover) : (s.modMover k f).fresh = s.fresh := rfl
@[simp] theorem modMover_pending (k : Nat) (f : Mover → Mover) : (s.modMover k f).pending = s.pending := rfl
theorem modMover_movers (k : Nat) (f : Mover → Mover) : (s.modMover k f).movers = tput s.movers k (f (s.mover k)) := rfl

@[simp] theorem modReducer_variant (k : Nat) (f : Reducer → Reducer) : (s.modReducer k f).variant = s.variant := rfl
@[simp] theorem modReducer_aon (k : Nat) (f : Reducer → Reducer) : (s.modReducer k f).aon = s.aon := rfl
@[simp] theorem modReducer_mainReset (k : Nat) (f : Reducer → Reducer) : (s.modReducer k f).mainReset = s.mainReset := rfl
@[simp] theorem modReducer_coll (k : Nat) (f : Reducer → Reducer) : (s.modReducer k f).coll = s.coll := rfl
@[simp] theorem modReducer_life (k : Nat) (f : Reducer → Reducer) : (s.modReducer k f).life = s.life := rfl
@[simp] theorem modReducer_rails (k : Nat) (f : Reducer → Reducer) : (s.modReducer k f).rails = s.rails := rfl
@[simp] theorem modReducer_funcs (k : Nat) (f : Reducer → Reducer) : (s.modReducer k f).funcs = s.funcs := rfl
@[simp] theorem modReducer_lastTaken (k : Nat) (f : Reducer → Reducer) : (s.modReducer k f).lastTaken = s.lastTaken := rfl
@[simp] theorem modReducer_parts (k : Nat) (f : Reducer → Reducer) : (s.modReducer k f).parts = s.parts := rfl
@[simp] theorem modReducer_partGen (k : Nat) (f : Reducer → Reducer) : (s.modReducer k f).partGen = s.partGen := rfl
@[simp] theorem modReducer_dieWays (k : Nat) (f : Reducer → Reducer) : (s.modReducer k f).dieWays = s.dieWays := rfl
@[simp] theorem modReducer_caches (k : Nat) (f : Reducer → Reducer) : (s.modReducer k f).caches = s.caches := rfl
@[simp] theorem modReducer_hbmReads (k : Nat) (f : Reducer → Reducer) : (s.modReducer k f).hbmReads = s.hbmReads := rfl
@[simp] theorem modReducer_badGranules (k : Nat) (f : Reducer → Reducer) : (s.modReducer k f).badGranules = s.badGranules := rfl
@[simp] theorem modReducer_ctxs (k : Nat) (f : Reducer → Reducer) : (s.modReducer k f).ctxs = s.ctxs := rfl
@[simp] theorem modReducer_ctxFree (k : Nat) (f : Reducer → Reducer) : (s.modReducer k f).ctxFree = s.ctxFree := rfl
@[simp] theorem modReducer_ctxNext (k : Nat) (f : Reducer → Reducer) : (s.modReducer k f).ctxNext = s.ctxNext := rfl
@[simp] theorem modReducer_queues (k : Nat) (f : Reducer → Reducer) : (s.modReducer k f).queues = s.queues := rfl
@[simp] theorem modReducer_steps (k : Nat) (f : Reducer → Reducer) : (s.modReducer k f).steps = s.steps := rfl
@[simp] theorem modReducer_slotGen (k : Nat) (f : Reducer → Reducer) : (s.modReducer k f).slotGen = s.slotGen := rfl
@[simp] theorem modReducer_quar (k : Nat) (f : Reducer → Reducer) : (s.modReducer k f).quar = s.quar := rfl
@[simp] theorem modReducer_tiles (k : Nat) (f : Reducer → Reducer) : (s.modReducer k f).tiles = s.tiles := rfl
@[simp] theorem modReducer_movers (k : Nat) (f : Reducer → Reducer) : (s.modReducer k f).movers = s.movers := rfl
@[simp] theorem modReducer_sorters (k : Nat) (f : Reducer → Reducer) : (s.modReducer k f).sorters = s.sorters := rfl
@[simp] theorem modReducer_sortWait (k : Nat) (f : Reducer → Reducer) : (s.modReducer k f).sortWait = s.sortWait := rfl
@[simp] theorem modReducer_addedWork (k : Nat) (f : Reducer → Reducer) : (s.modReducer k f).addedWork = s.addedWork := rfl
@[simp] theorem modReducer_engRecs (k : Nat) (f : Reducer → Reducer) : (s.modReducer k f).engRecs = s.engRecs := rfl
@[simp] theorem modReducer_remOps (k : Nat) (f : Reducer → Reducer) : (s.modReducer k f).remOps = s.remOps := rfl
@[simp] theorem modReducer_opNext (k : Nat) (f : Reducer → Reducer) : (s.modReducer k f).opNext = s.opNext := rfl
@[simp] theorem modReducer_ports (k : Nat) (f : Reducer → Reducer) : (s.modReducer k f).ports = s.ports := rfl
@[simp] theorem modReducer_windows (k : Nat) (f : Reducer → Reducer) : (s.modReducer k f).windows = s.windows := rfl
@[simp] theorem modReducer_stale (k : Nat) (f : Reducer → Reducer) : (s.modReducer k f).stale = s.stale := rfl
@[simp] theorem modReducer_jobs (k : Nat) (f : Reducer → Reducer) : (s.modReducer k f).jobs = s.jobs := rfl
@[simp] theorem modReducer_hbm (k : Nat) (f : Reducer → Reducer) : (s.modReducer k f).hbm = s.hbm := rfl
@[simp] theorem modReducer_hbmPoison (k : Nat) (f : Reducer → Reducer) : (s.modReducer k f).hbmPoison = s.hbmPoison := rfl
@[simp] theorem modReducer_scrubs (k : Nat) (f : Reducer → Reducer) : (s.modReducer k f).scrubs = s.scrubs := rfl
@[simp] theorem modReducer_grants (k : Nat) (f : Reducer → Reducer) : (s.modReducer k f).grants = s.grants := rfl
@[simp] theorem modReducer_gst (k : Nat) (f : Reducer → Reducer) : (s.modReducer k f).gst = s.gst := rfl
@[simp] theorem modReducer_pmc (k : Nat) (f : Reducer → Reducer) : (s.modReducer k f).pmc = s.pmc := rfl
@[simp] theorem modReducer_power (k : Nat) (f : Reducer → Reducer) : (s.modReducer k f).power = s.power := rfl
@[simp] theorem modReducer_host (k : Nat) (f : Reducer → Reducer) : (s.modReducer k f).host = s.host := rfl
@[simp] theorem modReducer_stageUsed (k : Nat) (f : Reducer → Reducer) : (s.modReducer k f).stageUsed = s.stageUsed := rfl
@[simp] theorem modReducer_stageMax (k : Nat) (f : Reducer → Reducer) : (s.modReducer k f).stageMax = s.stageMax := rfl
@[simp] theorem modReducer_stageFull (k : Nat) (f : Reducer → Reducer) : (s.modReducer k f).stageFull = s.stageFull := rfl
@[simp] theorem modReducer_out (k : Nat) (f : Reducer → Reducer) : (s.modReducer k f).out = s.out := rfl
@[simp] theorem modReducer_fresh (k : Nat) (f : Reducer → Reducer) : (s.modReducer k f).fresh = s.fresh := rfl
@[simp] theorem modReducer_pending (k : Nat) (f : Reducer → Reducer) : (s.modReducer k f).pending = s.pending := rfl
theorem modReducer_reducers (k : Nat) (f : Reducer → Reducer) : (s.modReducer k f).reducers = tput s.reducers k (f (s.reducer k)) := rfl

@[simp] theorem modPort_variant (k : Nat) (f : LinkPort → LinkPort) : (s.modPort k f).variant = s.variant := rfl
@[simp] theorem modPort_aon (k : Nat) (f : LinkPort → LinkPort) : (s.modPort k f).aon = s.aon := rfl
@[simp] theorem modPort_mainReset (k : Nat) (f : LinkPort → LinkPort) : (s.modPort k f).mainReset = s.mainReset := rfl
@[simp] theorem modPort_coll (k : Nat) (f : LinkPort → LinkPort) : (s.modPort k f).coll = s.coll := rfl
@[simp] theorem modPort_life (k : Nat) (f : LinkPort → LinkPort) : (s.modPort k f).life = s.life := rfl
@[simp] theorem modPort_rails (k : Nat) (f : LinkPort → LinkPort) : (s.modPort k f).rails = s.rails := rfl
@[simp] theorem modPort_funcs (k : Nat) (f : LinkPort → LinkPort) : (s.modPort k f).funcs = s.funcs := rfl
@[simp] theorem modPort_lastTaken (k : Nat) (f : LinkPort → LinkPort) : (s.modPort k f).lastTaken = s.lastTaken := rfl
@[simp] theorem modPort_parts (k : Nat) (f : LinkPort → LinkPort) : (s.modPort k f).parts = s.parts := rfl
@[simp] theorem modPort_partGen (k : Nat) (f : LinkPort → LinkPort) : (s.modPort k f).partGen = s.partGen := rfl
@[simp] theorem modPort_dieWays (k : Nat) (f : LinkPort → LinkPort) : (s.modPort k f).dieWays = s.dieWays := rfl
@[simp] theorem modPort_caches (k : Nat) (f : LinkPort → LinkPort) : (s.modPort k f).caches = s.caches := rfl
@[simp] theorem modPort_hbmReads (k : Nat) (f : LinkPort → LinkPort) : (s.modPort k f).hbmReads = s.hbmReads := rfl
@[simp] theorem modPort_badGranules (k : Nat) (f : LinkPort → LinkPort) : (s.modPort k f).badGranules = s.badGranules := rfl
@[simp] theorem modPort_ctxs (k : Nat) (f : LinkPort → LinkPort) : (s.modPort k f).ctxs = s.ctxs := rfl
@[simp] theorem modPort_ctxFree (k : Nat) (f : LinkPort → LinkPort) : (s.modPort k f).ctxFree = s.ctxFree := rfl
@[simp] theorem modPort_ctxNext (k : Nat) (f : LinkPort → LinkPort) : (s.modPort k f).ctxNext = s.ctxNext := rfl
@[simp] theorem modPort_queues (k : Nat) (f : LinkPort → LinkPort) : (s.modPort k f).queues = s.queues := rfl
@[simp] theorem modPort_steps (k : Nat) (f : LinkPort → LinkPort) : (s.modPort k f).steps = s.steps := rfl
@[simp] theorem modPort_slotGen (k : Nat) (f : LinkPort → LinkPort) : (s.modPort k f).slotGen = s.slotGen := rfl
@[simp] theorem modPort_quar (k : Nat) (f : LinkPort → LinkPort) : (s.modPort k f).quar = s.quar := rfl
@[simp] theorem modPort_tiles (k : Nat) (f : LinkPort → LinkPort) : (s.modPort k f).tiles = s.tiles := rfl
@[simp] theorem modPort_movers (k : Nat) (f : LinkPort → LinkPort) : (s.modPort k f).movers = s.movers := rfl
@[simp] theorem modPort_sorters (k : Nat) (f : LinkPort → LinkPort) : (s.modPort k f).sorters = s.sorters := rfl
@[simp] theorem modPort_sortWait (k : Nat) (f : LinkPort → LinkPort) : (s.modPort k f).sortWait = s.sortWait := rfl
@[simp] theorem modPort_reducers (k : Nat) (f : LinkPort → LinkPort) : (s.modPort k f).reducers = s.reducers := rfl
@[simp] theorem modPort_addedWork (k : Nat) (f : LinkPort → LinkPort) : (s.modPort k f).addedWork = s.addedWork := rfl
@[simp] theorem modPort_engRecs (k : Nat) (f : LinkPort → LinkPort) : (s.modPort k f).engRecs = s.engRecs := rfl
@[simp] theorem modPort_remOps (k : Nat) (f : LinkPort → LinkPort) : (s.modPort k f).remOps = s.remOps := rfl
@[simp] theorem modPort_opNext (k : Nat) (f : LinkPort → LinkPort) : (s.modPort k f).opNext = s.opNext := rfl
@[simp] theorem modPort_windows (k : Nat) (f : LinkPort → LinkPort) : (s.modPort k f).windows = s.windows := rfl
@[simp] theorem modPort_stale (k : Nat) (f : LinkPort → LinkPort) : (s.modPort k f).stale = s.stale := rfl
@[simp] theorem modPort_jobs (k : Nat) (f : LinkPort → LinkPort) : (s.modPort k f).jobs = s.jobs := rfl
@[simp] theorem modPort_hbm (k : Nat) (f : LinkPort → LinkPort) : (s.modPort k f).hbm = s.hbm := rfl
@[simp] theorem modPort_hbmPoison (k : Nat) (f : LinkPort → LinkPort) : (s.modPort k f).hbmPoison = s.hbmPoison := rfl
@[simp] theorem modPort_scrubs (k : Nat) (f : LinkPort → LinkPort) : (s.modPort k f).scrubs = s.scrubs := rfl
@[simp] theorem modPort_grants (k : Nat) (f : LinkPort → LinkPort) : (s.modPort k f).grants = s.grants := rfl
@[simp] theorem modPort_gst (k : Nat) (f : LinkPort → LinkPort) : (s.modPort k f).gst = s.gst := rfl
@[simp] theorem modPort_pmc (k : Nat) (f : LinkPort → LinkPort) : (s.modPort k f).pmc = s.pmc := rfl
@[simp] theorem modPort_power (k : Nat) (f : LinkPort → LinkPort) : (s.modPort k f).power = s.power := rfl
@[simp] theorem modPort_host (k : Nat) (f : LinkPort → LinkPort) : (s.modPort k f).host = s.host := rfl
@[simp] theorem modPort_stageUsed (k : Nat) (f : LinkPort → LinkPort) : (s.modPort k f).stageUsed = s.stageUsed := rfl
@[simp] theorem modPort_stageMax (k : Nat) (f : LinkPort → LinkPort) : (s.modPort k f).stageMax = s.stageMax := rfl
@[simp] theorem modPort_stageFull (k : Nat) (f : LinkPort → LinkPort) : (s.modPort k f).stageFull = s.stageFull := rfl
@[simp] theorem modPort_out (k : Nat) (f : LinkPort → LinkPort) : (s.modPort k f).out = s.out := rfl
@[simp] theorem modPort_fresh (k : Nat) (f : LinkPort → LinkPort) : (s.modPort k f).fresh = s.fresh := rfl
@[simp] theorem modPort_pending (k : Nat) (f : LinkPort → LinkPort) : (s.modPort k f).pending = s.pending := rfl
theorem modPort_ports (k : Nat) (f : LinkPort → LinkPort) : (s.modPort k f).ports = tput s.ports k (f (s.port k)) := rfl

@[simp] theorem modWindow_variant (k : Nat) (f : Window → Window) : (s.modWindow k f).variant = s.variant := rfl
@[simp] theorem modWindow_aon (k : Nat) (f : Window → Window) : (s.modWindow k f).aon = s.aon := rfl
@[simp] theorem modWindow_mainReset (k : Nat) (f : Window → Window) : (s.modWindow k f).mainReset = s.mainReset := rfl
@[simp] theorem modWindow_coll (k : Nat) (f : Window → Window) : (s.modWindow k f).coll = s.coll := rfl
@[simp] theorem modWindow_life (k : Nat) (f : Window → Window) : (s.modWindow k f).life = s.life := rfl
@[simp] theorem modWindow_rails (k : Nat) (f : Window → Window) : (s.modWindow k f).rails = s.rails := rfl
@[simp] theorem modWindow_funcs (k : Nat) (f : Window → Window) : (s.modWindow k f).funcs = s.funcs := rfl
@[simp] theorem modWindow_lastTaken (k : Nat) (f : Window → Window) : (s.modWindow k f).lastTaken = s.lastTaken := rfl
@[simp] theorem modWindow_parts (k : Nat) (f : Window → Window) : (s.modWindow k f).parts = s.parts := rfl
@[simp] theorem modWindow_partGen (k : Nat) (f : Window → Window) : (s.modWindow k f).partGen = s.partGen := rfl
@[simp] theorem modWindow_dieWays (k : Nat) (f : Window → Window) : (s.modWindow k f).dieWays = s.dieWays := rfl
@[simp] theorem modWindow_caches (k : Nat) (f : Window → Window) : (s.modWindow k f).caches = s.caches := rfl
@[simp] theorem modWindow_hbmReads (k : Nat) (f : Window → Window) : (s.modWindow k f).hbmReads = s.hbmReads := rfl
@[simp] theorem modWindow_badGranules (k : Nat) (f : Window → Window) : (s.modWindow k f).badGranules = s.badGranules := rfl
@[simp] theorem modWindow_ctxs (k : Nat) (f : Window → Window) : (s.modWindow k f).ctxs = s.ctxs := rfl
@[simp] theorem modWindow_ctxFree (k : Nat) (f : Window → Window) : (s.modWindow k f).ctxFree = s.ctxFree := rfl
@[simp] theorem modWindow_ctxNext (k : Nat) (f : Window → Window) : (s.modWindow k f).ctxNext = s.ctxNext := rfl
@[simp] theorem modWindow_queues (k : Nat) (f : Window → Window) : (s.modWindow k f).queues = s.queues := rfl
@[simp] theorem modWindow_steps (k : Nat) (f : Window → Window) : (s.modWindow k f).steps = s.steps := rfl
@[simp] theorem modWindow_slotGen (k : Nat) (f : Window → Window) : (s.modWindow k f).slotGen = s.slotGen := rfl
@[simp] theorem modWindow_quar (k : Nat) (f : Window → Window) : (s.modWindow k f).quar = s.quar := rfl
@[simp] theorem modWindow_tiles (k : Nat) (f : Window → Window) : (s.modWindow k f).tiles = s.tiles := rfl
@[simp] theorem modWindow_movers (k : Nat) (f : Window → Window) : (s.modWindow k f).movers = s.movers := rfl
@[simp] theorem modWindow_sorters (k : Nat) (f : Window → Window) : (s.modWindow k f).sorters = s.sorters := rfl
@[simp] theorem modWindow_sortWait (k : Nat) (f : Window → Window) : (s.modWindow k f).sortWait = s.sortWait := rfl
@[simp] theorem modWindow_reducers (k : Nat) (f : Window → Window) : (s.modWindow k f).reducers = s.reducers := rfl
@[simp] theorem modWindow_addedWork (k : Nat) (f : Window → Window) : (s.modWindow k f).addedWork = s.addedWork := rfl
@[simp] theorem modWindow_engRecs (k : Nat) (f : Window → Window) : (s.modWindow k f).engRecs = s.engRecs := rfl
@[simp] theorem modWindow_remOps (k : Nat) (f : Window → Window) : (s.modWindow k f).remOps = s.remOps := rfl
@[simp] theorem modWindow_opNext (k : Nat) (f : Window → Window) : (s.modWindow k f).opNext = s.opNext := rfl
@[simp] theorem modWindow_ports (k : Nat) (f : Window → Window) : (s.modWindow k f).ports = s.ports := rfl
@[simp] theorem modWindow_stale (k : Nat) (f : Window → Window) : (s.modWindow k f).stale = s.stale := rfl
@[simp] theorem modWindow_jobs (k : Nat) (f : Window → Window) : (s.modWindow k f).jobs = s.jobs := rfl
@[simp] theorem modWindow_hbm (k : Nat) (f : Window → Window) : (s.modWindow k f).hbm = s.hbm := rfl
@[simp] theorem modWindow_hbmPoison (k : Nat) (f : Window → Window) : (s.modWindow k f).hbmPoison = s.hbmPoison := rfl
@[simp] theorem modWindow_scrubs (k : Nat) (f : Window → Window) : (s.modWindow k f).scrubs = s.scrubs := rfl
@[simp] theorem modWindow_grants (k : Nat) (f : Window → Window) : (s.modWindow k f).grants = s.grants := rfl
@[simp] theorem modWindow_gst (k : Nat) (f : Window → Window) : (s.modWindow k f).gst = s.gst := rfl
@[simp] theorem modWindow_pmc (k : Nat) (f : Window → Window) : (s.modWindow k f).pmc = s.pmc := rfl
@[simp] theorem modWindow_power (k : Nat) (f : Window → Window) : (s.modWindow k f).power = s.power := rfl
@[simp] theorem modWindow_host (k : Nat) (f : Window → Window) : (s.modWindow k f).host = s.host := rfl
@[simp] theorem modWindow_stageUsed (k : Nat) (f : Window → Window) : (s.modWindow k f).stageUsed = s.stageUsed := rfl
@[simp] theorem modWindow_stageMax (k : Nat) (f : Window → Window) : (s.modWindow k f).stageMax = s.stageMax := rfl
@[simp] theorem modWindow_stageFull (k : Nat) (f : Window → Window) : (s.modWindow k f).stageFull = s.stageFull := rfl
@[simp] theorem modWindow_out (k : Nat) (f : Window → Window) : (s.modWindow k f).out = s.out := rfl
@[simp] theorem modWindow_fresh (k : Nat) (f : Window → Window) : (s.modWindow k f).fresh = s.fresh := rfl
@[simp] theorem modWindow_pending (k : Nat) (f : Window → Window) : (s.modWindow k f).pending = s.pending := rfl
theorem modWindow_windows (k : Nat) (f : Window → Window) : (s.modWindow k f).windows = tput s.windows k (f (s.window k)) := rfl

@[simp] theorem modJob_variant (k : Nat) (f : Job → Job) : (s.modJob k f).variant = s.variant := rfl
@[simp] theorem modJob_aon (k : Nat) (f : Job → Job) : (s.modJob k f).aon = s.aon := rfl
@[simp] theorem modJob_mainReset (k : Nat) (f : Job → Job) : (s.modJob k f).mainReset = s.mainReset := rfl
@[simp] theorem modJob_coll (k : Nat) (f : Job → Job) : (s.modJob k f).coll = s.coll := rfl
@[simp] theorem modJob_life (k : Nat) (f : Job → Job) : (s.modJob k f).life = s.life := rfl
@[simp] theorem modJob_rails (k : Nat) (f : Job → Job) : (s.modJob k f).rails = s.rails := rfl
@[simp] theorem modJob_funcs (k : Nat) (f : Job → Job) : (s.modJob k f).funcs = s.funcs := rfl
@[simp] theorem modJob_lastTaken (k : Nat) (f : Job → Job) : (s.modJob k f).lastTaken = s.lastTaken := rfl
@[simp] theorem modJob_parts (k : Nat) (f : Job → Job) : (s.modJob k f).parts = s.parts := rfl
@[simp] theorem modJob_partGen (k : Nat) (f : Job → Job) : (s.modJob k f).partGen = s.partGen := rfl
@[simp] theorem modJob_dieWays (k : Nat) (f : Job → Job) : (s.modJob k f).dieWays = s.dieWays := rfl
@[simp] theorem modJob_caches (k : Nat) (f : Job → Job) : (s.modJob k f).caches = s.caches := rfl
@[simp] theorem modJob_hbmReads (k : Nat) (f : Job → Job) : (s.modJob k f).hbmReads = s.hbmReads := rfl
@[simp] theorem modJob_badGranules (k : Nat) (f : Job → Job) : (s.modJob k f).badGranules = s.badGranules := rfl
@[simp] theorem modJob_ctxs (k : Nat) (f : Job → Job) : (s.modJob k f).ctxs = s.ctxs := rfl
@[simp] theorem modJob_ctxFree (k : Nat) (f : Job → Job) : (s.modJob k f).ctxFree = s.ctxFree := rfl
@[simp] theorem modJob_ctxNext (k : Nat) (f : Job → Job) : (s.modJob k f).ctxNext = s.ctxNext := rfl
@[simp] theorem modJob_queues (k : Nat) (f : Job → Job) : (s.modJob k f).queues = s.queues := rfl
@[simp] theorem modJob_steps (k : Nat) (f : Job → Job) : (s.modJob k f).steps = s.steps := rfl
@[simp] theorem modJob_slotGen (k : Nat) (f : Job → Job) : (s.modJob k f).slotGen = s.slotGen := rfl
@[simp] theorem modJob_quar (k : Nat) (f : Job → Job) : (s.modJob k f).quar = s.quar := rfl
@[simp] theorem modJob_tiles (k : Nat) (f : Job → Job) : (s.modJob k f).tiles = s.tiles := rfl
@[simp] theorem modJob_movers (k : Nat) (f : Job → Job) : (s.modJob k f).movers = s.movers := rfl
@[simp] theorem modJob_sorters (k : Nat) (f : Job → Job) : (s.modJob k f).sorters = s.sorters := rfl
@[simp] theorem modJob_sortWait (k : Nat) (f : Job → Job) : (s.modJob k f).sortWait = s.sortWait := rfl
@[simp] theorem modJob_reducers (k : Nat) (f : Job → Job) : (s.modJob k f).reducers = s.reducers := rfl
@[simp] theorem modJob_addedWork (k : Nat) (f : Job → Job) : (s.modJob k f).addedWork = s.addedWork := rfl
@[simp] theorem modJob_engRecs (k : Nat) (f : Job → Job) : (s.modJob k f).engRecs = s.engRecs := rfl
@[simp] theorem modJob_remOps (k : Nat) (f : Job → Job) : (s.modJob k f).remOps = s.remOps := rfl
@[simp] theorem modJob_opNext (k : Nat) (f : Job → Job) : (s.modJob k f).opNext = s.opNext := rfl
@[simp] theorem modJob_ports (k : Nat) (f : Job → Job) : (s.modJob k f).ports = s.ports := rfl
@[simp] theorem modJob_windows (k : Nat) (f : Job → Job) : (s.modJob k f).windows = s.windows := rfl
@[simp] theorem modJob_stale (k : Nat) (f : Job → Job) : (s.modJob k f).stale = s.stale := rfl
@[simp] theorem modJob_hbm (k : Nat) (f : Job → Job) : (s.modJob k f).hbm = s.hbm := rfl
@[simp] theorem modJob_hbmPoison (k : Nat) (f : Job → Job) : (s.modJob k f).hbmPoison = s.hbmPoison := rfl
@[simp] theorem modJob_scrubs (k : Nat) (f : Job → Job) : (s.modJob k f).scrubs = s.scrubs := rfl
@[simp] theorem modJob_grants (k : Nat) (f : Job → Job) : (s.modJob k f).grants = s.grants := rfl
@[simp] theorem modJob_gst (k : Nat) (f : Job → Job) : (s.modJob k f).gst = s.gst := rfl
@[simp] theorem modJob_pmc (k : Nat) (f : Job → Job) : (s.modJob k f).pmc = s.pmc := rfl
@[simp] theorem modJob_power (k : Nat) (f : Job → Job) : (s.modJob k f).power = s.power := rfl
@[simp] theorem modJob_host (k : Nat) (f : Job → Job) : (s.modJob k f).host = s.host := rfl
@[simp] theorem modJob_stageUsed (k : Nat) (f : Job → Job) : (s.modJob k f).stageUsed = s.stageUsed := rfl
@[simp] theorem modJob_stageMax (k : Nat) (f : Job → Job) : (s.modJob k f).stageMax = s.stageMax := rfl
@[simp] theorem modJob_stageFull (k : Nat) (f : Job → Job) : (s.modJob k f).stageFull = s.stageFull := rfl
@[simp] theorem modJob_out (k : Nat) (f : Job → Job) : (s.modJob k f).out = s.out := rfl
@[simp] theorem modJob_fresh (k : Nat) (f : Job → Job) : (s.modJob k f).fresh = s.fresh := rfl
@[simp] theorem modJob_pending (k : Nat) (f : Job → Job) : (s.modJob k f).pending = s.pending := rfl
theorem modJob_jobs (k : Nat) (f : Job → Job) : (s.modJob k f).jobs = tput s.jobs k (f (s.job k)) := rfl

@[simp] theorem modRail_variant (k : Nat) (f : DieRail → DieRail) : (s.modRail k f).variant = s.variant := rfl
@[simp] theorem modRail_aon (k : Nat) (f : DieRail → DieRail) : (s.modRail k f).aon = s.aon := rfl
@[simp] theorem modRail_mainReset (k : Nat) (f : DieRail → DieRail) : (s.modRail k f).mainReset = s.mainReset := rfl
@[simp] theorem modRail_coll (k : Nat) (f : DieRail → DieRail) : (s.modRail k f).coll = s.coll := rfl
@[simp] theorem modRail_life (k : Nat) (f : DieRail → DieRail) : (s.modRail k f).life = s.life := rfl
@[simp] theorem modRail_funcs (k : Nat) (f : DieRail → DieRail) : (s.modRail k f).funcs = s.funcs := rfl
@[simp] theorem modRail_lastTaken (k : Nat) (f : DieRail → DieRail) : (s.modRail k f).lastTaken = s.lastTaken := rfl
@[simp] theorem modRail_parts (k : Nat) (f : DieRail → DieRail) : (s.modRail k f).parts = s.parts := rfl
@[simp] theorem modRail_partGen (k : Nat) (f : DieRail → DieRail) : (s.modRail k f).partGen = s.partGen := rfl
@[simp] theorem modRail_dieWays (k : Nat) (f : DieRail → DieRail) : (s.modRail k f).dieWays = s.dieWays := rfl
@[simp] theorem modRail_caches (k : Nat) (f : DieRail → DieRail) : (s.modRail k f).caches = s.caches := rfl
@[simp] theorem modRail_hbmReads (k : Nat) (f : DieRail → DieRail) : (s.modRail k f).hbmReads = s.hbmReads := rfl
@[simp] theorem modRail_badGranules (k : Nat) (f : DieRail → DieRail) : (s.modRail k f).badGranules = s.badGranules := rfl
@[simp] theorem modRail_ctxs (k : Nat) (f : DieRail → DieRail) : (s.modRail k f).ctxs = s.ctxs := rfl
@[simp] theorem modRail_ctxFree (k : Nat) (f : DieRail → DieRail) : (s.modRail k f).ctxFree = s.ctxFree := rfl
@[simp] theorem modRail_ctxNext (k : Nat) (f : DieRail → DieRail) : (s.modRail k f).ctxNext = s.ctxNext := rfl
@[simp] theorem modRail_queues (k : Nat) (f : DieRail → DieRail) : (s.modRail k f).queues = s.queues := rfl
@[simp] theorem modRail_steps (k : Nat) (f : DieRail → DieRail) : (s.modRail k f).steps = s.steps := rfl
@[simp] theorem modRail_slotGen (k : Nat) (f : DieRail → DieRail) : (s.modRail k f).slotGen = s.slotGen := rfl
@[simp] theorem modRail_quar (k : Nat) (f : DieRail → DieRail) : (s.modRail k f).quar = s.quar := rfl
@[simp] theorem modRail_tiles (k : Nat) (f : DieRail → DieRail) : (s.modRail k f).tiles = s.tiles := rfl
@[simp] theorem modRail_movers (k : Nat) (f : DieRail → DieRail) : (s.modRail k f).movers = s.movers := rfl
@[simp] theorem modRail_sorters (k : Nat) (f : DieRail → DieRail) : (s.modRail k f).sorters = s.sorters := rfl
@[simp] theorem modRail_sortWait (k : Nat) (f : DieRail → DieRail) : (s.modRail k f).sortWait = s.sortWait := rfl
@[simp] theorem modRail_reducers (k : Nat) (f : DieRail → DieRail) : (s.modRail k f).reducers = s.reducers := rfl
@[simp] theorem modRail_addedWork (k : Nat) (f : DieRail → DieRail) : (s.modRail k f).addedWork = s.addedWork := rfl
@[simp] theorem modRail_engRecs (k : Nat) (f : DieRail → DieRail) : (s.modRail k f).engRecs = s.engRecs := rfl
@[simp] theorem modRail_remOps (k : Nat) (f : DieRail → DieRail) : (s.modRail k f).remOps = s.remOps := rfl
@[simp] theorem modRail_opNext (k : Nat) (f : DieRail → DieRail) : (s.modRail k f).opNext = s.opNext := rfl
@[simp] theorem modRail_ports (k : Nat) (f : DieRail → DieRail) : (s.modRail k f).ports = s.ports := rfl
@[simp] theorem modRail_windows (k : Nat) (f : DieRail → DieRail) : (s.modRail k f).windows = s.windows := rfl
@[simp] theorem modRail_stale (k : Nat) (f : DieRail → DieRail) : (s.modRail k f).stale = s.stale := rfl
@[simp] theorem modRail_jobs (k : Nat) (f : DieRail → DieRail) : (s.modRail k f).jobs = s.jobs := rfl
@[simp] theorem modRail_hbm (k : Nat) (f : DieRail → DieRail) : (s.modRail k f).hbm = s.hbm := rfl
@[simp] theorem modRail_hbmPoison (k : Nat) (f : DieRail → DieRail) : (s.modRail k f).hbmPoison = s.hbmPoison := rfl
@[simp] theorem modRail_scrubs (k : Nat) (f : DieRail → DieRail) : (s.modRail k f).scrubs = s.scrubs := rfl
@[simp] theorem modRail_grants (k : Nat) (f : DieRail → DieRail) : (s.modRail k f).grants = s.grants := rfl
@[simp] theorem modRail_gst (k : Nat) (f : DieRail → DieRail) : (s.modRail k f).gst = s.gst := rfl
@[simp] theorem modRail_pmc (k : Nat) (f : DieRail → DieRail) : (s.modRail k f).pmc = s.pmc := rfl
@[simp] theorem modRail_power (k : Nat) (f : DieRail → DieRail) : (s.modRail k f).power = s.power := rfl
@[simp] theorem modRail_host (k : Nat) (f : DieRail → DieRail) : (s.modRail k f).host = s.host := rfl
@[simp] theorem modRail_stageUsed (k : Nat) (f : DieRail → DieRail) : (s.modRail k f).stageUsed = s.stageUsed := rfl
@[simp] theorem modRail_stageMax (k : Nat) (f : DieRail → DieRail) : (s.modRail k f).stageMax = s.stageMax := rfl
@[simp] theorem modRail_stageFull (k : Nat) (f : DieRail → DieRail) : (s.modRail k f).stageFull = s.stageFull := rfl
@[simp] theorem modRail_out (k : Nat) (f : DieRail → DieRail) : (s.modRail k f).out = s.out := rfl
@[simp] theorem modRail_fresh (k : Nat) (f : DieRail → DieRail) : (s.modRail k f).fresh = s.fresh := rfl
@[simp] theorem modRail_pending (k : Nat) (f : DieRail → DieRail) : (s.modRail k f).pending = s.pending := rfl
theorem modRail_rails (k : Nat) (f : DieRail → DieRail) : (s.modRail k f).rails = tput s.rails k (f (s.rail k)) := rfl

@[simp] theorem modAon_variant (f : Aon → Aon) : (s.modAon f).variant = s.variant := rfl
@[simp] theorem modAon_mainReset (f : Aon → Aon) : (s.modAon f).mainReset = s.mainReset := rfl
@[simp] theorem modAon_coll (f : Aon → Aon) : (s.modAon f).coll = s.coll := rfl
@[simp] theorem modAon_life (f : Aon → Aon) : (s.modAon f).life = s.life := rfl
@[simp] theorem modAon_rails (f : Aon → Aon) : (s.modAon f).rails = s.rails := rfl
@[simp] theorem modAon_funcs (f : Aon → Aon) : (s.modAon f).funcs = s.funcs := rfl
@[simp] theorem modAon_lastTaken (f : Aon → Aon) : (s.modAon f).lastTaken = s.lastTaken := rfl
@[simp] theorem modAon_parts (f : Aon → Aon) : (s.modAon f).parts = s.parts := rfl
@[simp] theorem modAon_partGen (f : Aon → Aon) : (s.modAon f).partGen = s.partGen := rfl
@[simp] theorem modAon_dieWays (f : Aon → Aon) : (s.modAon f).dieWays = s.dieWays := rfl
@[simp] theorem modAon_caches (f : Aon → Aon) : (s.modAon f).caches = s.caches := rfl
@[simp] theorem modAon_hbmReads (f : Aon → Aon) : (s.modAon f).hbmReads = s.hbmReads := rfl
@[simp] theorem modAon_badGranules (f : Aon → Aon) : (s.modAon f).badGranules = s.badGranules := rfl
@[simp] theorem modAon_ctxs (f : Aon → Aon) : (s.modAon f).ctxs = s.ctxs := rfl
@[simp] theorem modAon_ctxFree (f : Aon → Aon) : (s.modAon f).ctxFree = s.ctxFree := rfl
@[simp] theorem modAon_ctxNext (f : Aon → Aon) : (s.modAon f).ctxNext = s.ctxNext := rfl
@[simp] theorem modAon_queues (f : Aon → Aon) : (s.modAon f).queues = s.queues := rfl
@[simp] theorem modAon_steps (f : Aon → Aon) : (s.modAon f).steps = s.steps := rfl
@[simp] theorem modAon_slotGen (f : Aon → Aon) : (s.modAon f).slotGen = s.slotGen := rfl
@[simp] theorem modAon_quar (f : Aon → Aon) : (s.modAon f).quar = s.quar := rfl
@[simp] theorem modAon_tiles (f : Aon → Aon) : (s.modAon f).tiles = s.tiles := rfl
@[simp] theorem modAon_movers (f : Aon → Aon) : (s.modAon f).movers = s.movers := rfl
@[simp] theorem modAon_sorters (f : Aon → Aon) : (s.modAon f).sorters = s.sorters := rfl
@[simp] theorem modAon_sortWait (f : Aon → Aon) : (s.modAon f).sortWait = s.sortWait := rfl
@[simp] theorem modAon_reducers (f : Aon → Aon) : (s.modAon f).reducers = s.reducers := rfl
@[simp] theorem modAon_addedWork (f : Aon → Aon) : (s.modAon f).addedWork = s.addedWork := rfl
@[simp] theorem modAon_engRecs (f : Aon → Aon) : (s.modAon f).engRecs = s.engRecs := rfl
@[simp] theorem modAon_remOps (f : Aon → Aon) : (s.modAon f).remOps = s.remOps := rfl
@[simp] theorem modAon_opNext (f : Aon → Aon) : (s.modAon f).opNext = s.opNext := rfl
@[simp] theorem modAon_ports (f : Aon → Aon) : (s.modAon f).ports = s.ports := rfl
@[simp] theorem modAon_windows (f : Aon → Aon) : (s.modAon f).windows = s.windows := rfl
@[simp] theorem modAon_stale (f : Aon → Aon) : (s.modAon f).stale = s.stale := rfl
@[simp] theorem modAon_jobs (f : Aon → Aon) : (s.modAon f).jobs = s.jobs := rfl
@[simp] theorem modAon_hbm (f : Aon → Aon) : (s.modAon f).hbm = s.hbm := rfl
@[simp] theorem modAon_hbmPoison (f : Aon → Aon) : (s.modAon f).hbmPoison = s.hbmPoison := rfl
@[simp] theorem modAon_scrubs (f : Aon → Aon) : (s.modAon f).scrubs = s.scrubs := rfl
@[simp] theorem modAon_grants (f : Aon → Aon) : (s.modAon f).grants = s.grants := rfl
@[simp] theorem modAon_gst (f : Aon → Aon) : (s.modAon f).gst = s.gst := rfl
@[simp] theorem modAon_pmc (f : Aon → Aon) : (s.modAon f).pmc = s.pmc := rfl
@[simp] theorem modAon_power (f : Aon → Aon) : (s.modAon f).power = s.power := rfl
@[simp] theorem modAon_host (f : Aon → Aon) : (s.modAon f).host = s.host := rfl
@[simp] theorem modAon_stageUsed (f : Aon → Aon) : (s.modAon f).stageUsed = s.stageUsed := rfl
@[simp] theorem modAon_stageMax (f : Aon → Aon) : (s.modAon f).stageMax = s.stageMax := rfl
@[simp] theorem modAon_stageFull (f : Aon → Aon) : (s.modAon f).stageFull = s.stageFull := rfl
@[simp] theorem modAon_out (f : Aon → Aon) : (s.modAon f).out = s.out := rfl
@[simp] theorem modAon_fresh (f : Aon → Aon) : (s.modAon f).fresh = s.fresh := rfl
@[simp] theorem modAon_pending (f : Aon → Aon) : (s.modAon f).pending = s.pending := rfl
@[simp] theorem modAon_aon (f : Aon → Aon) : (s.modAon f).aon = f s.aon := rfl

@[simp] theorem modColl_variant (f : Collector → Collector) : (s.modColl f).variant = s.variant := rfl
@[simp] theorem modColl_aon (f : Collector → Collector) : (s.modColl f).aon = s.aon := rfl
@[simp] theorem modColl_mainReset (f : Collector → Collector) : (s.modColl f).mainReset = s.mainReset := rfl
@[simp] theorem modColl_life (f : Collector → Collector) : (s.modColl f).life = s.life := rfl
@[simp] theorem modColl_rails (f : Collector → Collector) : (s.modColl f).rails = s.rails := rfl
@[simp] theorem modColl_funcs (f : Collector → Collector) : (s.modColl f).funcs = s.funcs := rfl
@[simp] theorem modColl_lastTaken (f : Collector → Collector) : (s.modColl f).lastTaken = s.lastTaken := rfl
@[simp] theorem modColl_parts (f : Collector → Collector) : (s.modColl f).parts = s.parts := rfl
@[simp] theorem modColl_partGen (f : Collector → Collector) : (s.modColl f).partGen = s.partGen := rfl
@[simp] theorem modColl_dieWays (f : Collector → Collector) : (s.modColl f).dieWays = s.dieWays := rfl
@[simp] theorem modColl_caches (f : Collector → Collector) : (s.modColl f).caches = s.caches := rfl
@[simp] theorem modColl_hbmReads (f : Collector → Collector) : (s.modColl f).hbmReads = s.hbmReads := rfl
@[simp] theorem modColl_badGranules (f : Collector → Collector) : (s.modColl f).badGranules = s.badGranules := rfl
@[simp] theorem modColl_ctxs (f : Collector → Collector) : (s.modColl f).ctxs = s.ctxs := rfl
@[simp] theorem modColl_ctxFree (f : Collector → Collector) : (s.modColl f).ctxFree = s.ctxFree := rfl
@[simp] theorem modColl_ctxNext (f : Collector → Collector) : (s.modColl f).ctxNext = s.ctxNext := rfl
@[simp] theorem modColl_queues (f : Collector → Collector) : (s.modColl f).queues = s.queues := rfl
@[simp] theorem modColl_steps (f : Collector → Collector) : (s.modColl f).steps = s.steps := rfl
@[simp] theorem modColl_slotGen (f : Collector → Collector) : (s.modColl f).slotGen = s.slotGen := rfl
@[simp] theorem modColl_quar (f : Collector → Collector) : (s.modColl f).quar = s.quar := rfl
@[simp] theorem modColl_tiles (f : Collector → Collector) : (s.modColl f).tiles = s.tiles := rfl
@[simp] theorem modColl_movers (f : Collector → Collector) : (s.modColl f).movers = s.movers := rfl
@[simp] theorem modColl_sorters (f : Collector → Collector) : (s.modColl f).sorters = s.sorters := rfl
@[simp] theorem modColl_sortWait (f : Collector → Collector) : (s.modColl f).sortWait = s.sortWait := rfl
@[simp] theorem modColl_reducers (f : Collector → Collector) : (s.modColl f).reducers = s.reducers := rfl
@[simp] theorem modColl_addedWork (f : Collector → Collector) : (s.modColl f).addedWork = s.addedWork := rfl
@[simp] theorem modColl_engRecs (f : Collector → Collector) : (s.modColl f).engRecs = s.engRecs := rfl
@[simp] theorem modColl_remOps (f : Collector → Collector) : (s.modColl f).remOps = s.remOps := rfl
@[simp] theorem modColl_opNext (f : Collector → Collector) : (s.modColl f).opNext = s.opNext := rfl
@[simp] theorem modColl_ports (f : Collector → Collector) : (s.modColl f).ports = s.ports := rfl
@[simp] theorem modColl_windows (f : Collector → Collector) : (s.modColl f).windows = s.windows := rfl
@[simp] theorem modColl_stale (f : Collector → Collector) : (s.modColl f).stale = s.stale := rfl
@[simp] theorem modColl_jobs (f : Collector → Collector) : (s.modColl f).jobs = s.jobs := rfl
@[simp] theorem modColl_hbm (f : Collector → Collector) : (s.modColl f).hbm = s.hbm := rfl
@[simp] theorem modColl_hbmPoison (f : Collector → Collector) : (s.modColl f).hbmPoison = s.hbmPoison := rfl
@[simp] theorem modColl_scrubs (f : Collector → Collector) : (s.modColl f).scrubs = s.scrubs := rfl
@[simp] theorem modColl_grants (f : Collector → Collector) : (s.modColl f).grants = s.grants := rfl
@[simp] theorem modColl_gst (f : Collector → Collector) : (s.modColl f).gst = s.gst := rfl
@[simp] theorem modColl_pmc (f : Collector → Collector) : (s.modColl f).pmc = s.pmc := rfl
@[simp] theorem modColl_power (f : Collector → Collector) : (s.modColl f).power = s.power := rfl
@[simp] theorem modColl_host (f : Collector → Collector) : (s.modColl f).host = s.host := rfl
@[simp] theorem modColl_stageUsed (f : Collector → Collector) : (s.modColl f).stageUsed = s.stageUsed := rfl
@[simp] theorem modColl_stageMax (f : Collector → Collector) : (s.modColl f).stageMax = s.stageMax := rfl
@[simp] theorem modColl_stageFull (f : Collector → Collector) : (s.modColl f).stageFull = s.stageFull := rfl
@[simp] theorem modColl_out (f : Collector → Collector) : (s.modColl f).out = s.out := rfl
@[simp] theorem modColl_fresh (f : Collector → Collector) : (s.modColl f).fresh = s.fresh := rfl
@[simp] theorem modColl_pending (f : Collector → Collector) : (s.modColl f).pending = s.pending := rfl
@[simp] theorem modColl_coll (f : Collector → Collector) : (s.modColl f).coll = f s.coll := rfl

@[simp] theorem modLife_variant (f : Life → Life) : (s.modLife f).variant = s.variant := rfl
@[simp] theorem modLife_aon (f : Life → Life) : (s.modLife f).aon = s.aon := rfl
@[simp] theorem modLife_mainReset (f : Life → Life) : (s.modLife f).mainReset = s.mainReset := rfl
@[simp] theorem modLife_coll (f : Life → Life) : (s.modLife f).coll = s.coll := rfl
@[simp] theorem modLife_rails (f : Life → Life) : (s.modLife f).rails = s.rails := rfl
@[simp] theorem modLife_funcs (f : Life → Life) : (s.modLife f).funcs = s.funcs := rfl
@[simp] theorem modLife_lastTaken (f : Life → Life) : (s.modLife f).lastTaken = s.lastTaken := rfl
@[simp] theorem modLife_parts (f : Life → Life) : (s.modLife f).parts = s.parts := rfl
@[simp] theorem modLife_partGen (f : Life → Life) : (s.modLife f).partGen = s.partGen := rfl
@[simp] theorem modLife_dieWays (f : Life → Life) : (s.modLife f).dieWays = s.dieWays := rfl
@[simp] theorem modLife_caches (f : Life → Life) : (s.modLife f).caches = s.caches := rfl
@[simp] theorem modLife_hbmReads (f : Life → Life) : (s.modLife f).hbmReads = s.hbmReads := rfl
@[simp] theorem modLife_badGranules (f : Life → Life) : (s.modLife f).badGranules = s.badGranules := rfl
@[simp] theorem modLife_ctxs (f : Life → Life) : (s.modLife f).ctxs = s.ctxs := rfl
@[simp] theorem modLife_ctxFree (f : Life → Life) : (s.modLife f).ctxFree = s.ctxFree := rfl
@[simp] theorem modLife_ctxNext (f : Life → Life) : (s.modLife f).ctxNext = s.ctxNext := rfl
@[simp] theorem modLife_queues (f : Life → Life) : (s.modLife f).queues = s.queues := rfl
@[simp] theorem modLife_steps (f : Life → Life) : (s.modLife f).steps = s.steps := rfl
@[simp] theorem modLife_slotGen (f : Life → Life) : (s.modLife f).slotGen = s.slotGen := rfl
@[simp] theorem modLife_quar (f : Life → Life) : (s.modLife f).quar = s.quar := rfl
@[simp] theorem modLife_tiles (f : Life → Life) : (s.modLife f).tiles = s.tiles := rfl
@[simp] theorem modLife_movers (f : Life → Life) : (s.modLife f).movers = s.movers := rfl
@[simp] theorem modLife_sorters (f : Life → Life) : (s.modLife f).sorters = s.sorters := rfl
@[simp] theorem modLife_sortWait (f : Life → Life) : (s.modLife f).sortWait = s.sortWait := rfl
@[simp] theorem modLife_reducers (f : Life → Life) : (s.modLife f).reducers = s.reducers := rfl
@[simp] theorem modLife_addedWork (f : Life → Life) : (s.modLife f).addedWork = s.addedWork := rfl
@[simp] theorem modLife_engRecs (f : Life → Life) : (s.modLife f).engRecs = s.engRecs := rfl
@[simp] theorem modLife_remOps (f : Life → Life) : (s.modLife f).remOps = s.remOps := rfl
@[simp] theorem modLife_opNext (f : Life → Life) : (s.modLife f).opNext = s.opNext := rfl
@[simp] theorem modLife_ports (f : Life → Life) : (s.modLife f).ports = s.ports := rfl
@[simp] theorem modLife_windows (f : Life → Life) : (s.modLife f).windows = s.windows := rfl
@[simp] theorem modLife_stale (f : Life → Life) : (s.modLife f).stale = s.stale := rfl
@[simp] theorem modLife_jobs (f : Life → Life) : (s.modLife f).jobs = s.jobs := rfl
@[simp] theorem modLife_hbm (f : Life → Life) : (s.modLife f).hbm = s.hbm := rfl
@[simp] theorem modLife_hbmPoison (f : Life → Life) : (s.modLife f).hbmPoison = s.hbmPoison := rfl
@[simp] theorem modLife_scrubs (f : Life → Life) : (s.modLife f).scrubs = s.scrubs := rfl
@[simp] theorem modLife_grants (f : Life → Life) : (s.modLife f).grants = s.grants := rfl
@[simp] theorem modLife_gst (f : Life → Life) : (s.modLife f).gst = s.gst := rfl
@[simp] theorem modLife_pmc (f : Life → Life) : (s.modLife f).pmc = s.pmc := rfl
@[simp] theorem modLife_power (f : Life → Life) : (s.modLife f).power = s.power := rfl
@[simp] theorem modLife_host (f : Life → Life) : (s.modLife f).host = s.host := rfl
@[simp] theorem modLife_stageUsed (f : Life → Life) : (s.modLife f).stageUsed = s.stageUsed := rfl
@[simp] theorem modLife_stageMax (f : Life → Life) : (s.modLife f).stageMax = s.stageMax := rfl
@[simp] theorem modLife_stageFull (f : Life → Life) : (s.modLife f).stageFull = s.stageFull := rfl
@[simp] theorem modLife_out (f : Life → Life) : (s.modLife f).out = s.out := rfl
@[simp] theorem modLife_fresh (f : Life → Life) : (s.modLife f).fresh = s.fresh := rfl
@[simp] theorem modLife_pending (f : Life → Life) : (s.modLife f).pending = s.pending := rfl
@[simp] theorem modLife_life (f : Life → Life) : (s.modLife f).life = f s.life := rfl

@[simp] theorem modPower_variant (f : Power → Power) : (s.modPower f).variant = s.variant := rfl
@[simp] theorem modPower_aon (f : Power → Power) : (s.modPower f).aon = s.aon := rfl
@[simp] theorem modPower_mainReset (f : Power → Power) : (s.modPower f).mainReset = s.mainReset := rfl
@[simp] theorem modPower_coll (f : Power → Power) : (s.modPower f).coll = s.coll := rfl
@[simp] theorem modPower_life (f : Power → Power) : (s.modPower f).life = s.life := rfl
@[simp] theorem modPower_rails (f : Power → Power) : (s.modPower f).rails = s.rails := rfl
@[simp] theorem modPower_funcs (f : Power → Power) : (s.modPower f).funcs = s.funcs := rfl
@[simp] theorem modPower_lastTaken (f : Power → Power) : (s.modPower f).lastTaken = s.lastTaken := rfl
@[simp] theorem modPower_parts (f : Power → Power) : (s.modPower f).parts = s.parts := rfl
@[simp] theorem modPower_partGen (f : Power → Power) : (s.modPower f).partGen = s.partGen := rfl
@[simp] theorem modPower_dieWays (f : Power → Power) : (s.modPower f).dieWays = s.dieWays := rfl
@[simp] theorem modPower_caches (f : Power → Power) : (s.modPower f).caches = s.caches := rfl
@[simp] theorem modPower_hbmReads (f : Power → Power) : (s.modPower f).hbmReads = s.hbmReads := rfl
@[simp] theorem modPower_badGranules (f : Power → Power) : (s.modPower f).badGranules = s.badGranules := rfl
@[simp] theorem modPower_ctxs (f : Power → Power) : (s.modPower f).ctxs = s.ctxs := rfl
@[simp] theorem modPower_ctxFree (f : Power → Power) : (s.modPower f).ctxFree = s.ctxFree := rfl
@[simp] theorem modPower_ctxNext (f : Power → Power) : (s.modPower f).ctxNext = s.ctxNext := rfl
@[simp] theorem modPower_queues (f : Power → Power) : (s.modPower f).queues = s.queues := rfl
@[simp] theorem modPower_steps (f : Power → Power) : (s.modPower f).steps = s.steps := rfl
@[simp] theorem modPower_slotGen (f : Power → Power) : (s.modPower f).slotGen = s.slotGen := rfl
@[simp] theorem modPower_quar (f : Power → Power) : (s.modPower f).quar = s.quar := rfl
@[simp] theorem modPower_tiles (f : Power → Power) : (s.modPower f).tiles = s.tiles := rfl
@[simp] theorem modPower_movers (f : Power → Power) : (s.modPower f).movers = s.movers := rfl
@[simp] theorem modPower_sorters (f : Power → Power) : (s.modPower f).sorters = s.sorters := rfl
@[simp] theorem modPower_sortWait (f : Power → Power) : (s.modPower f).sortWait = s.sortWait := rfl
@[simp] theorem modPower_reducers (f : Power → Power) : (s.modPower f).reducers = s.reducers := rfl
@[simp] theorem modPower_addedWork (f : Power → Power) : (s.modPower f).addedWork = s.addedWork := rfl
@[simp] theorem modPower_engRecs (f : Power → Power) : (s.modPower f).engRecs = s.engRecs := rfl
@[simp] theorem modPower_remOps (f : Power → Power) : (s.modPower f).remOps = s.remOps := rfl
@[simp] theorem modPower_opNext (f : Power → Power) : (s.modPower f).opNext = s.opNext := rfl
@[simp] theorem modPower_ports (f : Power → Power) : (s.modPower f).ports = s.ports := rfl
@[simp] theorem modPower_windows (f : Power → Power) : (s.modPower f).windows = s.windows := rfl
@[simp] theorem modPower_stale (f : Power → Power) : (s.modPower f).stale = s.stale := rfl
@[simp] theorem modPower_jobs (f : Power → Power) : (s.modPower f).jobs = s.jobs := rfl
@[simp] theorem modPower_hbm (f : Power → Power) : (s.modPower f).hbm = s.hbm := rfl
@[simp] theorem modPower_hbmPoison (f : Power → Power) : (s.modPower f).hbmPoison = s.hbmPoison := rfl
@[simp] theorem modPower_scrubs (f : Power → Power) : (s.modPower f).scrubs = s.scrubs := rfl
@[simp] theorem modPower_grants (f : Power → Power) : (s.modPower f).grants = s.grants := rfl
@[simp] theorem modPower_gst (f : Power → Power) : (s.modPower f).gst = s.gst := rfl
@[simp] theorem modPower_pmc (f : Power → Power) : (s.modPower f).pmc = s.pmc := rfl
@[simp] theorem modPower_host (f : Power → Power) : (s.modPower f).host = s.host := rfl
@[simp] theorem modPower_stageUsed (f : Power → Power) : (s.modPower f).stageUsed = s.stageUsed := rfl
@[simp] theorem modPower_stageMax (f : Power → Power) : (s.modPower f).stageMax = s.stageMax := rfl
@[simp] theorem modPower_stageFull (f : Power → Power) : (s.modPower f).stageFull = s.stageFull := rfl
@[simp] theorem modPower_out (f : Power → Power) : (s.modPower f).out = s.out := rfl
@[simp] theorem modPower_fresh (f : Power → Power) : (s.modPower f).fresh = s.fresh := rfl
@[simp] theorem modPower_pending (f : Power → Power) : (s.modPower f).pending = s.pending := rfl
@[simp] theorem modPower_power (f : Power → Power) : (s.modPower f).power = f s.power := rfl

@[simp] theorem emit_variant (o : Out) : (emit s o).variant = s.variant := rfl
@[simp] theorem emit_aon (o : Out) : (emit s o).aon = s.aon := rfl
@[simp] theorem emit_mainReset (o : Out) : (emit s o).mainReset = s.mainReset := rfl
@[simp] theorem emit_coll (o : Out) : (emit s o).coll = s.coll := rfl
@[simp] theorem emit_life (o : Out) : (emit s o).life = s.life := rfl
@[simp] theorem emit_rails (o : Out) : (emit s o).rails = s.rails := rfl
@[simp] theorem emit_funcs (o : Out) : (emit s o).funcs = s.funcs := rfl
@[simp] theorem emit_lastTaken (o : Out) : (emit s o).lastTaken = s.lastTaken := rfl
@[simp] theorem emit_parts (o : Out) : (emit s o).parts = s.parts := rfl
@[simp] theorem emit_partGen (o : Out) : (emit s o).partGen = s.partGen := rfl
@[simp] theorem emit_dieWays (o : Out) : (emit s o).dieWays = s.dieWays := rfl
@[simp] theorem emit_caches (o : Out) : (emit s o).caches = s.caches := rfl
@[simp] theorem emit_hbmReads (o : Out) : (emit s o).hbmReads = s.hbmReads := rfl
@[simp] theorem emit_badGranules (o : Out) : (emit s o).badGranules = s.badGranules := rfl
@[simp] theorem emit_ctxs (o : Out) : (emit s o).ctxs = s.ctxs := rfl
@[simp] theorem emit_ctxFree (o : Out) : (emit s o).ctxFree = s.ctxFree := rfl
@[simp] theorem emit_ctxNext (o : Out) : (emit s o).ctxNext = s.ctxNext := rfl
@[simp] theorem emit_queues (o : Out) : (emit s o).queues = s.queues := rfl
@[simp] theorem emit_steps (o : Out) : (emit s o).steps = s.steps := rfl
@[simp] theorem emit_slotGen (o : Out) : (emit s o).slotGen = s.slotGen := rfl
@[simp] theorem emit_quar (o : Out) : (emit s o).quar = s.quar := rfl
@[simp] theorem emit_tiles (o : Out) : (emit s o).tiles = s.tiles := rfl
@[simp] theorem emit_movers (o : Out) : (emit s o).movers = s.movers := rfl
@[simp] theorem emit_sorters (o : Out) : (emit s o).sorters = s.sorters := rfl
@[simp] theorem emit_sortWait (o : Out) : (emit s o).sortWait = s.sortWait := rfl
@[simp] theorem emit_reducers (o : Out) : (emit s o).reducers = s.reducers := rfl
@[simp] theorem emit_addedWork (o : Out) : (emit s o).addedWork = s.addedWork := rfl
@[simp] theorem emit_engRecs (o : Out) : (emit s o).engRecs = s.engRecs := rfl
@[simp] theorem emit_remOps (o : Out) : (emit s o).remOps = s.remOps := rfl
@[simp] theorem emit_opNext (o : Out) : (emit s o).opNext = s.opNext := rfl
@[simp] theorem emit_ports (o : Out) : (emit s o).ports = s.ports := rfl
@[simp] theorem emit_windows (o : Out) : (emit s o).windows = s.windows := rfl
@[simp] theorem emit_stale (o : Out) : (emit s o).stale = s.stale := rfl
@[simp] theorem emit_jobs (o : Out) : (emit s o).jobs = s.jobs := rfl
@[simp] theorem emit_hbm (o : Out) : (emit s o).hbm = s.hbm := rfl
@[simp] theorem emit_hbmPoison (o : Out) : (emit s o).hbmPoison = s.hbmPoison := rfl
@[simp] theorem emit_scrubs (o : Out) : (emit s o).scrubs = s.scrubs := rfl
@[simp] theorem emit_grants (o : Out) : (emit s o).grants = s.grants := rfl
@[simp] theorem emit_gst (o : Out) : (emit s o).gst = s.gst := rfl
@[simp] theorem emit_pmc (o : Out) : (emit s o).pmc = s.pmc := rfl
@[simp] theorem emit_power (o : Out) : (emit s o).power = s.power := rfl
@[simp] theorem emit_host (o : Out) : (emit s o).host = s.host := rfl
@[simp] theorem emit_stageUsed (o : Out) : (emit s o).stageUsed = s.stageUsed := rfl
@[simp] theorem emit_stageMax (o : Out) : (emit s o).stageMax = s.stageMax := rfl
@[simp] theorem emit_stageFull (o : Out) : (emit s o).stageFull = s.stageFull := rfl
@[simp] theorem emit_out (o : Out) : (emit s o).out = o :: s.out := rfl
@[simp] theorem emit_fresh (o : Out) : (emit s o).fresh = s.fresh := rfl
@[simp] theorem emit_pending (o : Out) : (emit s o).pending = s.pending := rfl

@[simp] theorem draw_variant : (draw s).2.variant = s.variant := rfl
@[simp] theorem draw_aon : (draw s).2.aon = s.aon := rfl
@[simp] theorem draw_mainReset : (draw s).2.mainReset = s.mainReset := rfl
@[simp] theorem draw_coll : (draw s).2.coll = s.coll := rfl
@[simp] theorem draw_life : (draw s).2.life = s.life := rfl
@[simp] theorem draw_rails : (draw s).2.rails = s.rails := rfl
@[simp] theorem draw_funcs : (draw s).2.funcs = s.funcs := rfl
@[simp] theorem draw_lastTaken : (draw s).2.lastTaken = s.lastTaken := rfl
@[simp] theorem draw_parts : (draw s).2.parts = s.parts := rfl
@[simp] theorem draw_partGen : (draw s).2.partGen = s.partGen := rfl
@[simp] theorem draw_dieWays : (draw s).2.dieWays = s.dieWays := rfl
@[simp] theorem draw_caches : (draw s).2.caches = s.caches := rfl
@[simp] theorem draw_hbmReads : (draw s).2.hbmReads = s.hbmReads := rfl
@[simp] theorem draw_badGranules : (draw s).2.badGranules = s.badGranules := rfl
@[simp] theorem draw_ctxs : (draw s).2.ctxs = s.ctxs := rfl
@[simp] theorem draw_ctxFree : (draw s).2.ctxFree = s.ctxFree := rfl
@[simp] theorem draw_ctxNext : (draw s).2.ctxNext = s.ctxNext := rfl
@[simp] theorem draw_queues : (draw s).2.queues = s.queues := rfl
@[simp] theorem draw_steps : (draw s).2.steps = s.steps := rfl
@[simp] theorem draw_slotGen : (draw s).2.slotGen = s.slotGen := rfl
@[simp] theorem draw_quar : (draw s).2.quar = s.quar := rfl
@[simp] theorem draw_tiles : (draw s).2.tiles = s.tiles := rfl
@[simp] theorem draw_movers : (draw s).2.movers = s.movers := rfl
@[simp] theorem draw_sorters : (draw s).2.sorters = s.sorters := rfl
@[simp] theorem draw_sortWait : (draw s).2.sortWait = s.sortWait := rfl
@[simp] theorem draw_reducers : (draw s).2.reducers = s.reducers := rfl
@[simp] theorem draw_addedWork : (draw s).2.addedWork = s.addedWork := rfl
@[simp] theorem draw_engRecs : (draw s).2.engRecs = s.engRecs := rfl
@[simp] theorem draw_remOps : (draw s).2.remOps = s.remOps := rfl
@[simp] theorem draw_opNext : (draw s).2.opNext = s.opNext := rfl
@[simp] theorem draw_ports : (draw s).2.ports = s.ports := rfl
@[simp] theorem draw_windows : (draw s).2.windows = s.windows := rfl
@[simp] theorem draw_stale : (draw s).2.stale = s.stale := rfl
@[simp] theorem draw_jobs : (draw s).2.jobs = s.jobs := rfl
@[simp] theorem draw_hbm : (draw s).2.hbm = s.hbm := rfl
@[simp] theorem draw_hbmPoison : (draw s).2.hbmPoison = s.hbmPoison := rfl
@[simp] theorem draw_scrubs : (draw s).2.scrubs = s.scrubs := rfl
@[simp] theorem draw_grants : (draw s).2.grants = s.grants := rfl
@[simp] theorem draw_gst : (draw s).2.gst = s.gst := rfl
@[simp] theorem draw_pmc : (draw s).2.pmc = s.pmc := rfl
@[simp] theorem draw_power : (draw s).2.power = s.power := rfl
@[simp] theorem draw_host : (draw s).2.host = s.host := rfl
@[simp] theorem draw_stageUsed : (draw s).2.stageUsed = s.stageUsed := rfl
@[simp] theorem draw_stageMax : (draw s).2.stageMax = s.stageMax := rfl
@[simp] theorem draw_stageFull : (draw s).2.stageFull = s.stageFull := rfl
@[simp] theorem draw_out : (draw s).2.out = s.out := rfl
@[simp] theorem draw_pending : (draw s).2.pending = s.pending := rfl
@[simp] theorem draw_fresh : (draw s).2.fresh = s.fresh + 1 := rfl
@[simp] theorem draw_val : (draw s).1 = Config.freeNat s.fresh := rfl

@[simp] theorem advance_variant (now : Nat) : (advance s now).variant = s.variant := by unfold advance; split <;> rfl
@[simp] theorem advance_mainReset (now : Nat) : (advance s now).mainReset = s.mainReset := by unfold advance; split <;> rfl
@[simp] theorem advance_coll (now : Nat) : (advance s now).coll = s.coll := by unfold advance; split <;> rfl
@[simp] theorem advance_life (now : Nat) : (advance s now).life = s.life := by unfold advance; split <;> rfl
@[simp] theorem advance_rails (now : Nat) : (advance s now).rails = s.rails := by unfold advance; split <;> rfl
@[simp] theorem advance_funcs (now : Nat) : (advance s now).funcs = s.funcs := by unfold advance; split <;> rfl
@[simp] theorem advance_lastTaken (now : Nat) : (advance s now).lastTaken = s.lastTaken := by unfold advance; split <;> rfl
@[simp] theorem advance_parts (now : Nat) : (advance s now).parts = s.parts := by unfold advance; split <;> rfl
@[simp] theorem advance_partGen (now : Nat) : (advance s now).partGen = s.partGen := by unfold advance; split <;> rfl
@[simp] theorem advance_dieWays (now : Nat) : (advance s now).dieWays = s.dieWays := by unfold advance; split <;> rfl
@[simp] theorem advance_caches (now : Nat) : (advance s now).caches = s.caches := by unfold advance; split <;> rfl
@[simp] theorem advance_hbmReads (now : Nat) : (advance s now).hbmReads = s.hbmReads := by unfold advance; split <;> rfl
@[simp] theorem advance_badGranules (now : Nat) : (advance s now).badGranules = s.badGranules := by unfold advance; split <;> rfl
@[simp] theorem advance_ctxs (now : Nat) : (advance s now).ctxs = s.ctxs := by unfold advance; split <;> rfl
@[simp] theorem advance_ctxFree (now : Nat) : (advance s now).ctxFree = s.ctxFree := by unfold advance; split <;> rfl
@[simp] theorem advance_ctxNext (now : Nat) : (advance s now).ctxNext = s.ctxNext := by unfold advance; split <;> rfl
@[simp] theorem advance_queues (now : Nat) : (advance s now).queues = s.queues := by unfold advance; split <;> rfl
@[simp] theorem advance_steps (now : Nat) : (advance s now).steps = s.steps := by unfold advance; split <;> rfl
@[simp] theorem advance_slotGen (now : Nat) : (advance s now).slotGen = s.slotGen := by unfold advance; split <;> rfl
@[simp] theorem advance_quar (now : Nat) : (advance s now).quar = s.quar := by unfold advance; split <;> rfl
@[simp] theorem advance_tiles (now : Nat) : (advance s now).tiles = s.tiles := by unfold advance; split <;> rfl
@[simp] theorem advance_movers (now : Nat) : (advance s now).movers = s.movers := by unfold advance; split <;> rfl
@[simp] theorem advance_sorters (now : Nat) : (advance s now).sorters = s.sorters := by unfold advance; split <;> rfl
@[simp] theorem advance_sortWait (now : Nat) : (advance s now).sortWait = s.sortWait := by unfold advance; split <;> rfl
@[simp] theorem advance_reducers (now : Nat) : (advance s now).reducers = s.reducers := by unfold advance; split <;> rfl
@[simp] theorem advance_addedWork (now : Nat) : (advance s now).addedWork = s.addedWork := by unfold advance; split <;> rfl
@[simp] theorem advance_engRecs (now : Nat) : (advance s now).engRecs = s.engRecs := by unfold advance; split <;> rfl
@[simp] theorem advance_remOps (now : Nat) : (advance s now).remOps = s.remOps := by unfold advance; split <;> rfl
@[simp] theorem advance_opNext (now : Nat) : (advance s now).opNext = s.opNext := by unfold advance; split <;> rfl
@[simp] theorem advance_ports (now : Nat) : (advance s now).ports = s.ports := by unfold advance; split <;> rfl
@[simp] theorem advance_windows (now : Nat) : (advance s now).windows = s.windows := by unfold advance; split <;> rfl
@[simp] theorem advance_stale (now : Nat) : (advance s now).stale = s.stale := by unfold advance; split <;> rfl
@[simp] theorem advance_jobs (now : Nat) : (advance s now).jobs = s.jobs := by unfold advance; split <;> rfl
@[simp] theorem advance_hbm (now : Nat) : (advance s now).hbm = s.hbm := by unfold advance; split <;> rfl
@[simp] theorem advance_hbmPoison (now : Nat) : (advance s now).hbmPoison = s.hbmPoison := by unfold advance; split <;> rfl
@[simp] theorem advance_scrubs (now : Nat) : (advance s now).scrubs = s.scrubs := by unfold advance; split <;> rfl
@[simp] theorem advance_grants (now : Nat) : (advance s now).grants = s.grants := by unfold advance; split <;> rfl
@[simp] theorem advance_gst (now : Nat) : (advance s now).gst = s.gst := by unfold advance; split <;> rfl
@[simp] theorem advance_pmc (now : Nat) : (advance s now).pmc = s.pmc := by unfold advance; split <;> rfl
@[simp] theorem advance_power (now : Nat) : (advance s now).power = s.power := by unfold advance; split <;> rfl
@[simp] theorem advance_host (now : Nat) : (advance s now).host = s.host := by unfold advance; split <;> rfl
@[simp] theorem advance_stageUsed (now : Nat) : (advance s now).stageUsed = s.stageUsed := by unfold advance; split <;> rfl
@[simp] theorem advance_stageMax (now : Nat) : (advance s now).stageMax = s.stageMax := by unfold advance; split <;> rfl
@[simp] theorem advance_stageFull (now : Nat) : (advance s now).stageFull = s.stageFull := by unfold advance; split <;> rfl
@[simp] theorem advance_out (now : Nat) : (advance s now).out = s.out := by unfold advance; split <;> rfl
@[simp] theorem advance_fresh (now : Nat) : (advance s now).fresh = s.fresh := by unfold advance; split <;> rfl
@[simp] theorem advance_pending (now : Nat) : (advance s now).pending = s.pending := by unfold advance; split <;> rfl

end Sys2Proof.Machine
end

