-- ==== Sys2Proof/Laws/Tables.lean ====
section
/-! SUPPORT. Tables and sparse memory: what a lookup gives after an update, and that every memory operation keeps the canonical
form. -/

namespace Sys2Proof.Machine

/-! ### Tables -/

theorem tfind_tput_self {α : Type} (t : Tab α) (k : Nat) (v : α) : tfind (tput t k v) k = some v := by
  induction t with
  | nil => simp [tput, tfind]
  | cons e t ih =>
    obtain ⟨k', v'⟩ := e
    unfold tput
    split
    · simp [tfind]
    · split
      · simp [tfind]
      · rename_i h
        simp [tfind, h, ih]

theorem tfind_tput_ne {α : Type} (t : Tab α) {k j : Nat} (v : α) (h : j ≠ k) : tfind (tput t k v) j = tfind t j := by
  induction t with
  | nil => simp [tput, tfind, h]
  | cons e t ih =>
    obtain ⟨k', v'⟩ := e
    unfold tput
    split
    · simp [tfind, h]
    · split
      · subst_vars
        simp [tfind, h]
      · simp only [tfind, ih]

@[simp] theorem tget_tput_self {α : Type} (t : Tab α) (k : Nat) (v d : α) : tget (tput t k v) k d = v := by
  simp [tget, tfind_tput_self]

theorem tget_tput_ne {α : Type} (t : Tab α) {k j : Nat} (v d : α) (h : j ≠ k) : tget (tput t k v) j d = tget t j d := by
  simp [tget, tfind_tput_ne t v h]

theorem tput_tput {α : Type} (t : Tab α) (k : Nat) (v w : α) : tput (tput t k v) k w = tput t k w := by
  induction t with
  | nil => simp [tput]
  | cons e t ih =>
    obtain ⟨k', v'⟩ := e
    by_cases h : k < k'
    · simp [tput, h]
    · by_cases h' : k = k'
      · simp [tput, h']
      · simp [tput, h, h', ih]

theorem tfind_tdel_self {α : Type} (t : Tab α) (k : Nat) : tfind (tdel t k) k = none := by
  induction t with
  | nil => rfl
  | cons e t ih =>
    obtain ⟨k', v'⟩ := e
    by_cases h : k = k'
    · simpa [tdel, h] using h ▸ ih
    · simp [tdel, h, tfind, ih]

theorem tfind_tmap {α : Type} (t : Tab α) (f : Nat → α → α) (k : Nat) : tfind (tmap t f) k = (tfind t k).map (f k) := by
  induction t with
  | nil => rfl
  | cons e t ih =>
    obtain ⟨k', v'⟩ := e
    by_cases h : k = k'
    · simp [tmap, tfind, h]
    · simpa [tmap, tfind, h] using ih

/-! ### Sparse memory -/

/-- Every key of the list lies above `a`. -/
def above (a : Nat) (m : Mem) : Prop := ∀ e ∈ m, a < e.1

theorem memWf_nil : memWf [] = true := rfl

theorem rising_cons (a : Nat) (l : List Nat) : rising (a :: l) = true ↔ (∀ b ∈ l, a < b) ∧ rising l = true := by
  induction l generalizing a with
  | nil => simp [rising]
  | cons b t ih =>
    simp only [rising, Bool.and_eq_true, decide_eq_true_eq, List.mem_cons, forall_eq_or_imp]
    constructor
    · rintro ⟨h, r⟩
      exact ⟨⟨h, fun c hc => lt_trans h (((ih b).1 r).1 c hc)⟩, r⟩
    · rintro ⟨⟨h, _⟩, r⟩
      exact ⟨h, r⟩

theorem memWf_cons (k : Nat) (b : Byte) (m : Mem) : memWf ((k, b) :: m) = true ↔ above k m ∧ b ≠ 0 ∧ memWf m = true := by
  simp only [memWf, List.map_cons, List.all_cons, Bool.and_eq_true, rising_cons, List.mem_map, bne_iff_ne, above]
  constructor
  · rintro ⟨⟨h, r⟩, nz, a⟩
    exact ⟨fun e he => h e.1 ⟨e, he, rfl⟩, nz, r, a⟩
  · rintro ⟨h, nz, r, a⟩
    exact ⟨⟨fun c ⟨e, he, q⟩ => q ▸ h e he, r⟩, nz, a⟩

theorem above_mwrite {c a : Nat} {v : Byte} {m : Mem} (h : above c m) (ha : c < a) : above c (mwrite m a v) := by
  induction m with
  | nil =>
    unfold mwrite
    split <;> simp [above, ha]
  | cons e m ih =>
    obtain ⟨k, b⟩ := e
    have hk : c < k := h (k, b) (by simp)
    have hm : above c m := fun x hx => h x (by simp [hx])
    have hi := ih hm
    have ext : ∀ {j : Nat} {w : Byte} {l : Mem}, c < j → above c l → above c ((j, w) :: l) := by
      intro j w l hj hl x hx
      rcases List.mem_cons.1 hx with rfl | hx
      · exact hj
      · exact hl x hx
    unfold mwrite
    split
    · split
      · exact h
      · exact ext ha h
    · split
      · split
        · exact hm
        · exact ext hk hm
      · exact ext hk hi

/-- A write keeps the canonical form. -/
theorem memWf_mwrite {m : Mem} (a : Nat) (v : Byte) (h : memWf m = true) : memWf (mwrite m a v) = true := by
  induction m with
  | nil =>
    unfold mwrite
    split
    · rfl
    · rename_i hv
      exact (memWf_cons a v []).2 ⟨by simp [above], hv, rfl⟩
  | cons e m ih =>
    obtain ⟨k, b⟩ := e
    obtain ⟨hab, hb, hm⟩ := (memWf_cons k b m).1 h
    unfold mwrite
    split
    · split
      · exact h
      · rename_i hlt hv
        refine (memWf_cons a v _).2 ⟨?_, hv, h⟩
        intro x hx
        rcases List.mem_cons.1 hx with rfl | hx
        · exact hlt
        · exact lt_trans hlt (hab x hx)
    · split
      · split
        · exact hm
        · rename_i hv
          exact (memWf_cons k v m).2 ⟨hab, hv, hm⟩
      · rename_i h1 h2
        exact (memWf_cons k b _).2 ⟨above_mwrite hab (by omega), hb, ih hm⟩

theorem memWf_mwriteN {m : Mem} (a : Nat) (l : List Byte) (h : memWf m = true) : memWf (mwriteN m a l) = true := by
  induction l generalizing m a with
  | nil => exact h
  | cons b l ih => exact ih (a + 1) (memWf_mwrite a b h)

theorem memWf_filter {m : Mem} (p : Nat × BitVec 8 → Bool) (h : memWf m = true) : memWf (m.filter p) = true := by
  induction m with
  | nil => rfl
  | cons e m ih =>
    obtain ⟨k, b⟩ := e
    obtain ⟨hab, hb, hm⟩ := (memWf_cons k b m).1 h
    by_cases hp : p (k, b) = true
    · rw [List.filter_cons_of_pos hp]
      exact (memWf_cons k b _).2 ⟨fun x hx => hab x (List.mem_filter.1 hx).1, hb, ih hm⟩
    · rw [List.filter_cons_of_neg hp]
      exact ih hm

theorem memWf_mclear {m : Mem} (a n : Nat) (h : memWf m = true) : memWf (mclear m a n) = true := memWf_filter _ h

theorem mread_of_above {m : Mem} {a : Nat} (h : above a m) : mread m a = 0 := by
  induction m with
  | nil => rfl
  | cons e m ih =>
    obtain ⟨k, b⟩ := e
    have hk : a < k := h (k, b) (by simp)
    have hn : a ≠ k := by omega
    simp only [mread, hn, if_false]
    exact ih fun x hx => h x (by simp [hx])

/-- Reading the byte just written gives it. -/
theorem mread_mwrite_self {m : Mem} (a : Nat) (v : Byte) (h : memWf m = true) : mread (mwrite m a v) a = v := by
  induction m with
  | nil =>
    unfold mwrite
    split <;> simp_all [mread]
  | cons e m ih =>
    obtain ⟨k, b⟩ := e
    obtain ⟨hab, hb, hm⟩ := (memWf_cons k b m).1 h
    unfold mwrite
    split
    · rename_i hlt
      split
      · rename_i hv
        rw [hv]
        refine mread_of_above fun x hx => ?_
        rcases List.mem_cons.1 hx with rfl | hx
        · exact hlt
        · exact lt_trans hlt (hab x hx)
      · simp [mread]
    · split
      · rename_i hk
        split
        · rename_i hv
          rw [hv, hk]
          exact mread_of_above hab
        · simp [mread, hk]
      · rename_i h1 h2
        simp only [mread, h2, if_false]
        exact ih hm

/-- A write leaves every other byte as it is. -/
theorem mread_mwrite_ne {m : Mem} {a c : Nat} (v : Byte) (h : c ≠ a) : mread (mwrite m a v) c = mread m c := by
  induction m with
  | nil =>
    unfold mwrite
    split <;> simp [mread, h]
  | cons e m ih =>
    obtain ⟨k, b⟩ := e
    unfold mwrite
    split
    · split <;> simp [mread, h]
    · split
      · rename_i hk
        subst hk
        split <;> simp [mread, h]
      · simp only [mread, ih]

/-- Writing a run of bytes leaves every byte outside it as it is. -/
theorem mread_mwriteN_outside {m : Mem} {a c : Nat} (l : List Byte) (h : c < a ∨ a + l.length ≤ c) :
    mread (mwriteN m a l) c = mread m c := by
  induction l generalizing m a with
  | nil => rfl
  | cons b l ih =>
    simp only [List.length_cons] at h
    unfold mwriteN
    rw [ih (by omega), mread_mwrite_ne b (by omega)]

end Sys2Proof.Machine
end

