-- ==== Sys2Proof/Laws/Access.lean ====
section
/-! SUPPORT. What a command's time of its own leaves as it is, and what reading a table gives after one entry of it was changed. -/

namespace Sys2Proof.Machine

variable (s : State)

@[simp] theorem advance_aon_railsOk (now : Nat) : (advance s now).aon.railsOk = s.aon.railsOk := by unfold advance; split <;> rfl
@[simp] theorem advance_aon_refclk (now : Nat) : (advance s now).aon.refclk = s.aon.refclk := by unfold advance; split <;> rfl
@[simp] theorem advance_aon_pwrGood (now : Nat) : (advance s now).aon.pwrGood = s.aon.pwrGood := by unfold advance; split <;> rfl
@[simp] theorem advance_aon_aonResetN (now : Nat) : (advance s now).aon.aonResetN = s.aon.aonResetN := by unfold advance; split <;> rfl
@[simp] theorem advance_aon_blkResetN (now : Nat) : (advance s now).aon.blkResetN = s.aon.blkResetN := by unfold advance; split <;> rfl
@[simp] theorem advance_aon_stopInN (now : Nat) : (advance s now).aon.stopInN = s.aon.stopInN := by unfold advance; split <;> rfl
@[simp] theorem advance_aon_stopOutN (now : Nat) : (advance s now).aon.stopOutN = s.aon.stopOutN := by unfold advance; split <;> rfl
@[simp] theorem advance_aon_secalmN (now : Nat) : (advance s now).aon.secalmN = s.aon.secalmN := by unfold advance; split <;> rfl
@[simp] theorem advance_aon_secalmAt (now : Nat) : (advance s now).aon.secalmAt = s.aon.secalmAt := by unfold advance; split <;> rfl
@[simp] theorem advance_aon_trayReqN (now : Nat) : (advance s now).aon.trayReqN = s.aon.trayReqN := by unfold advance; split <;> rfl
@[simp] theorem advance_aon_wakeN (now : Nat) : (advance s now).aon.wakeN = s.aon.wakeN := by unfold advance; split <;> rfl
@[simp] theorem advance_aon_refclkSince (now : Nat) : (advance s now).aon.refclkSince = s.aon.refclkSince := by unfold advance; split <;> rfl
@[simp] theorem advance_aon_pwrGoodSince (now : Nat) : (advance s now).aon.pwrGoodSince = s.aon.pwrGoodSince := by unfold advance; split <;> rfl
@[simp] theorem advance_aon_railBackSince (now : Nat) : (advance s now).aon.railBackSince = s.aon.railBackSince := by unfold advance; split <;> rfl
@[simp] theorem advance_aon_railTripped (now : Nat) : (advance s now).aon.railTripped = s.aon.railTripped := by unfold advance; split <;> rfl
@[simp] theorem advance_aon_blkHighSince (now : Nat) : (advance s now).aon.blkHighSince = s.aon.blkHighSince := by unfold advance; split <;> rfl
@[simp] theorem advance_aon_pwrHold (now : Nat) : (advance s now).aon.pwrHold = s.aon.pwrHold := by unfold advance; split <;> rfl
@[simp] theorem advance_aon_needBlkCycle (now : Nat) : (advance s now).aon.needBlkCycle = s.aon.needBlkCycle := by unfold advance; split <;> rfl
@[simp] theorem advance_aon_pend902 (now : Nat) : (advance s now).aon.pend902 = s.aon.pend902 := by unfold advance; split <;> rfl
@[simp] theorem advance_aon_aonSince (now : Nat) : (advance s now).aon.aonSince = s.aon.aonSince := by unfold advance; split <;> rfl
@[simp] theorem advance_aon_adopted (now : Nat) : (advance s now).aon.adopted = s.aon.adopted := by unfold advance; split <;> rfl
@[simp] theorem advance_aon_synced (now : Nat) : (advance s now).aon.synced = s.aon.synced := by unfold advance; split <;> rfl
@[simp] theorem advance_aon_root (now : Nat) : (advance s now).aon.root = s.aon.root := by unfold advance; split <;> rfl
@[simp] theorem advance_aon_holdover (now : Nat) : (advance s now).aon.holdover = s.aon.holdover := by unfold advance; split <;> rfl
@[simp] theorem advance_aon_holdSince (now : Nat) : (advance s now).aon.holdSince = s.aon.holdSince := by unfold advance; split <;> rfl
@[simp] theorem advance_aon_holdFree (now : Nat) : (advance s now).aon.holdFree = s.aon.holdFree := by unfold advance; split <;> rfl
@[simp] theorem advance_aon_depth (now : Nat) : (advance s now).aon.depth = s.aon.depth := by unfold advance; split <;> rfl
@[simp] theorem advance_aon_parentPort (now : Nat) : (advance s now).aon.parentPort = s.aon.parentPort := by unfold advance; split <;> rfl
@[simp] theorem advance_aon_offset16 (now : Nat) : (advance s now).aon.offset16 = s.aon.offset16 := by unfold advance; split <;> rfl
@[simp] theorem advance_aon_bound (now : Nat) : (advance s now).aon.bound = s.aon.bound := by unfold advance; split <;> rfl
@[simp] theorem advance_aon_timeHi (now : Nat) : (advance s now).aon.timeHi = s.aon.timeHi := by unfold advance; split <;> rfl
@[simp] theorem advance_aon_cmps (now : Nat) : (advance s now).aon.cmps = s.aon.cmps := by unfold advance; split <;> rfl
@[simp] theorem advance_aon_sync (now : Nat) : (advance s now).aon.sync = s.aon.sync := by unfold advance; split <;> rfl
@[simp] theorem advance_aon_outstanding (now : Nat) : (advance s now).aon.outstanding = s.aon.outstanding := by unfold advance; split <;> rfl
@[simp] theorem advance_aon_lastEdge (now : Nat) : (advance s now).aon.lastEdge = s.aon.lastEdge := by unfold advance; split <;> rfl
@[simp] theorem advance_aon_coords (now : Nat) : (advance s now).aon.coords = s.aon.coords := by unfold advance; split <;> rfl
@[simp] theorem advance_aon_asleep (now : Nat) : (advance s now).aon.asleep = s.aon.asleep := by unfold advance; split <;> rfl
@[simp] theorem advance_aon_retention (now : Nat) : (advance s now).aon.retention = s.aon.retention := by unfold advance; split <;> rfl
@[simp] theorem advance_aon_sleepImage (now : Nat) : (advance s now).aon.sleepImage = s.aon.sleepImage := by unfold advance; split <;> rfl
@[simp] theorem advance_aon_vmonBoot (now : Nat) : (advance s now).aon.vmonBoot = s.aon.vmonBoot := by unfold advance; split <;> rfl

/-- Whorl time never goes back, and reaches the command's time while the always-on domain works. -/
theorem time_advance (now : Nat) : time (advance s now) = if aonUp s then max (time s) now else time s := by
  unfold advance
  by_cases h : aonUp s = true
  · by_cases h' : s.aon.whorl < now
    · simp [h, h', time, State.modAon, Nat.le_of_lt h']
    · simp [h, h', time]
      omega
  · simp [h, time]

theorem time_le_advance (now : Nat) : time s ≤ time (advance s now) := by
  rw [time_advance]
  split
  · exact Nat.le_max_left _ _
  · exact Nat.le_refl _

/-- Only whorl time and its hold move. -/
theorem advance_eq (now : Nat) : advance s now = { s with aon := (advance s now).aon } := by
  unfold advance
  split <;> rfl

@[simp] theorem aonUp_advance (now : Nat) : aonUp (advance s now) = aonUp s := by simp [aonUp]
@[simp] theorem up_advance (now : Nat) : up (advance s now) = up s := by simp [up]
@[simp] theorem ready_advance (now : Nat) : ready (advance s now) = ready s := by simp [ready]
@[simp] theorem engines_advance (now : Nat) : engines (advance s now) = engines s := by simp [engines]

@[simp] theorem advance_part (now k : Nat) : (advance s now).part k = s.part k := by simp [State.part]
@[simp] theorem part_modPart_self (k : Nat) (f : Part → Part) : (s.modPart k f).part k = f (s.part k) := by simp [State.modPart, State.part]
theorem part_modPart_ne {k j : Nat} (f : Part → Part) (h : j ≠ k) : (s.modPart k f).part j = s.part j := tget_tput_ne _ _ _ h
@[simp] theorem advance_func (now k : Nat) : (advance s now).func k = s.func k := by simp [State.func]
@[simp] theorem func_modFunc_self (k : Nat) (f : Func → Func) : (s.modFunc k f).func k = f (s.func k) := by simp [State.modFunc, State.func]
theorem func_modFunc_ne {k j : Nat} (f : Func → Func) (h : j ≠ k) : (s.modFunc k f).func j = s.func j := tget_tput_ne _ _ _ h
@[simp] theorem advance_ctx (now k : Nat) : (advance s now).ctx k = s.ctx k := by simp [State.ctx]
@[simp] theorem ctx_modCtx_self (k : Nat) (f : Ctx → Ctx) : (s.modCtx k f).ctx k = f (s.ctx k) := by simp [State.modCtx, State.ctx]
theorem ctx_modCtx_ne {k j : Nat} (f : Ctx → Ctx) (h : j ≠ k) : (s.modCtx k f).ctx j = s.ctx j := tget_tput_ne _ _ _ h
@[simp] theorem advance_queue (now k : Nat) : (advance s now).queue k = s.queue k := by simp [State.queue]
@[simp] theorem queue_modQueue_self (k : Nat) (f : Queue → Queue) : (s.modQueue k f).queue k = f (s.queue k) := by simp [State.modQueue, State.queue]
theorem queue_modQueue_ne {k j : Nat} (f : Queue → Queue) (h : j ≠ k) : (s.modQueue k f).queue j = s.queue j := tget_tput_ne _ _ _ h
@[simp] theorem advance_tile (now k : Nat) : (advance s now).tile k = s.tile k := by simp [State.tile]
@[simp] theorem tile_modTile_self (k : Nat) (f : Tile → Tile) : (s.modTile k f).tile k = f (s.tile k) := by simp [State.modTile, State.tile]
theorem tile_modTile_ne {k j : Nat} (f : Tile → Tile) (h : j ≠ k) : (s.modTile k f).tile j = s.tile j := tget_tput_ne _ _ _ h
@[simp] theorem advance_sorter (now k : Nat) : (advance s now).sorter k = s.sorter k := by simp [State.sorter]
@[simp] theorem sorter_modSorter_self (k : Nat) (f : Sorter → Sorter) : (s.modSorter k f).sorter k = f (s.sorter k) := by simp [State.modSorter, State.sorter]
theorem sorter_modSorter_ne {k j : Nat} (f : Sorter → Sorter) (h : j ≠ k) : (s.modSorter k f).sorter j = s.sorter j := tget_tput_ne _ _ _ h
@[simp] theorem advance_mover (now k : Nat) : (advance s now).mover k = s.mover k := by simp [State.mover]
@[simp] theorem mover_modMover_self (k : Nat) (f : Mover → Mover) : (s.modMover k f).mover k = f (s.mover k) := by simp [State.modMover, State.mover]
theorem mover_modMover_ne {k j : Nat} (f : Mover → Mover) (h : j ≠ k) : (s.modMover k f).mover j = s.mover j := tget_tput_ne _ _ _ h
@[simp] theorem advance_reducer (now k : Nat) : (advance s now).reducer k = s.reducer k := by simp [State.reducer]
@[simp] theorem reducer_modReducer_self (k : Nat) (f : Reducer → Reducer) : (s.modReducer k f).reducer k = f (s.reducer k) := by simp [State.modReducer, State.reducer]
theorem reducer_modReducer_ne {k j : Nat} (f : Reducer → Reducer) (h : j ≠ k) : (s.modReducer k f).reducer j = s.reducer j := tget_tput_ne _ _ _ h
@[simp] theorem advance_port (now k : Nat) : (advance s now).port k = s.port k := by simp [State.port]
@[simp] theorem port_modPort_self (k : Nat) (f : LinkPort → LinkPort) : (s.modPort k f).port k = f (s.port k) := by simp [State.modPort, State.port]
theorem port_modPort_ne {k j : Nat} (f : LinkPort → LinkPort) (h : j ≠ k) : (s.modPort k f).port j = s.port j := tget_tput_ne _ _ _ h
@[simp] theorem advance_window (now k : Nat) : (advance s now).window k = s.window k := by simp [State.window]
@[simp] theorem window_modWindow_self (k : Nat) (f : Window → Window) : (s.modWindow k f).window k = f (s.window k) := by simp [State.modWindow, State.window]
theorem window_modWindow_ne {k j : Nat} (f : Window → Window) (h : j ≠ k) : (s.modWindow k f).window j = s.window j := tget_tput_ne _ _ _ h
@[simp] theorem advance_job (now k : Nat) : (advance s now).job k = s.job k := by simp [State.job]
@[simp] theorem job_modJob_self (k : Nat) (f : Job → Job) : (s.modJob k f).job k = f (s.job k) := by simp [State.modJob, State.job]
theorem job_modJob_ne {k j : Nat} (f : Job → Job) (h : j ≠ k) : (s.modJob k f).job j = s.job j := tget_tput_ne _ _ _ h
@[simp] theorem advance_rail (now k : Nat) : (advance s now).rail k = s.rail k := by simp [State.rail]
@[simp] theorem rail_modRail_self (k : Nat) (f : DieRail → DieRail) : (s.modRail k f).rail k = f (s.rail k) := by simp [State.modRail, State.rail]
theorem rail_modRail_ne {k j : Nat} (f : DieRail → DieRail) (h : j ≠ k) : (s.modRail k f).rail j = s.rail j := tget_tput_ne _ _ _ h

theorem modStep_of_some {k : Nat} {st : Step} (f : Step → Step) (h : tfind s.steps k = some st) :
    s.modStep k f = { s with steps := tput s.steps k (f st) } := by
  unfold State.modStep
  rw [h]

theorem tfind_modStep_self {k : Nat} {st : Step} (f : Step → Step) (h : tfind s.steps k = some st) :
    tfind (s.modStep k f).steps k = some (f st) := by
  rw [modStep_of_some s f h]
  exact tfind_tput_self _ _ _

theorem tfind_modStep_ne {k j : Nat} (f : Step → Step) (h : j ≠ k) : tfind (s.modStep k f).steps j = tfind s.steps j := by
  unfold State.modStep
  split
  · rfl
  · exact tfind_tput_ne _ _ h

/-- A timed command whose condition holds. -/
theorem timed_of {now : Nat} {c : State → Bool} {f : State → State} (h : c (advance s now) = true) :
    timed s now c f = .next (f (advance s now)) := by simp [timed, h]

/-- An untimed command whose condition holds. -/
theorem untimed_of {c : State → Bool} {f : State → State} (h : c s = true) : untimed s c f = .next (f s) := by simp [untimed, h]

end Sys2Proof.Machine
end

