-- ==== Sys2Proof/Laws/Calm.lean ====
section
/-! SUPPORT. What settling the outcome of a step leaves alone: the always-on domain, the collector, the life cycle, power, the global
stop, grants, rails, the host port. One predicate carries all of it. -/

namespace Sys2Proof.Machine

/-- `s` agrees with `b` on everything that steps, queues, contexts and memory are no part of. -/
def Calm (b s : State) : Prop :=
  s.aon = b.aon ∧ s.coll = b.coll ∧ s.life = b.life ∧ s.power = b.power ∧ s.gst = b.gst ∧ s.grants = b.grants ∧ s.rails = b.rails ∧ s.host = b.host ∧ s.variant = b.variant ∧ s.mainReset = b.mainReset

variable {b s : State}

theorem Calm.refl (s : State) : Calm s s := ⟨rfl, rfl, rfl, rfl, rfl, rfl, rfl, rfl, rfl, rfl⟩

theorem Calm.trans {a : State} (h : Calm a b) (h' : Calm b s) : Calm a s := by
  unfold Calm at *
  obtain ⟨h0, h1, h2, h3, h4, h5, h6, h7, h8, h9⟩ := h
  simp [*]

theorem Calm.always (h : Calm b s) : s.aon = b.aon := h.1
theorem Calm.collector (h : Calm b s) : s.coll = b.coll := h.2.1
theorem Calm.lifecycle (h : Calm b s) : s.life = b.life := h.2.2.1
theorem Calm.power (h : Calm b s) : s.power = b.power := h.2.2.2.1
theorem Calm.stop (h : Calm b s) : s.gst = b.gst := h.2.2.2.2.1
theorem Calm.grants (h : Calm b s) : s.grants = b.grants := h.2.2.2.2.2.1
theorem Calm.rails (h : Calm b s) : s.rails = b.rails := h.2.2.2.2.2.2.1
theorem Calm.host (h : Calm b s) : s.host = b.host := h.2.2.2.2.2.2.2.1
theorem Calm.kind (h : Calm b s) : s.variant = b.variant := h.2.2.2.2.2.2.2.2.1
theorem Calm.domain (h : Calm b s) : s.mainReset = b.mainReset := h.2.2.2.2.2.2.2.2.2

/-- A state written out, or updated field by field, that takes these fields from the state. -/
theorem calm_upd {x_variant : Variant} {x_aon : Aon} {x_mainReset : Bool} {x_coll : Collector} {x_life : Life} {x_rails : Tab DieRail} {x_funcs : Tab Func} {x_lastTaken : Nat} {x_parts : Tab Part} {x_partGen : Tab Nat} {x_dieWays : Tab (List (Nat × Nat))} {x_caches : Tab (List CacheLine)} {x_hbmReads : List HbmRead} {x_badGranules : List Nat} {x_ctxs : Tab Ctx} {x_ctxFree : List Nat} {x_ctxNext : Nat} {x_queues : Tab Queue} {x_steps : Tab Step} {x_slotGen : Tab Nat} {x_quar : Tab Quar} {x_tiles : Tab Tile} {x_movers : Tab Mover} {x_sorters : Tab Sorter} {x_sortWait : List SortReq} {x_reducers : Tab Reducer} {x_addedWork : List Plan} {x_engRecs : Tab EngRec} {x_remOps : List RemOp} {x_opNext : Nat} {x_ports : Tab LinkPort} {x_windows : Tab Window} {x_stale : Tab Nat} {x_jobs : Tab Job} {x_hbm : Mem} {x_hbmPoison : List Nat} {x_scrubs : List ScrubRec} {x_grants : Grants} {x_gst : Gst} {x_pmc : Pmc} {x_power : Power} {x_host : HostPort} {x_stageUsed : Tab Nat} {x_stageMax : Tab Nat} {x_stageFull : Tab Nat} {x_out : List Out} {x_fresh : Nat} {x_pending : List Instr}
    (h : Calm b s) (h_aon : x_aon = s.aon) (h_coll : x_coll = s.coll) (h_life : x_life = s.life) (h_power : x_power = s.power) (h_gst : x_gst = s.gst) (h_grants : x_grants = s.grants) (h_rails : x_rails = s.rails) (h_host : x_host = s.host) (h_variant : x_variant = s.variant) (h_mainReset : x_mainReset = s.mainReset) :
    Calm b ⟨x_variant, x_aon, x_mainReset, x_coll, x_life, x_rails, x_funcs, x_lastTaken, x_parts, x_partGen, x_dieWays, x_caches, x_hbmReads, x_badGranules, x_ctxs, x_ctxFree, x_ctxNext, x_queues, x_steps, x_slotGen, x_quar, x_tiles, x_movers, x_sorters, x_sortWait, x_reducers, x_addedWork, x_engRecs, x_remOps, x_opNext, x_ports, x_windows, x_stale, x_jobs, x_hbm, x_hbmPoison, x_scrubs, x_grants, x_gst, x_pmc, x_power, x_host, x_stageUsed, x_stageMax, x_stageFull, x_out, x_fresh, x_pending⟩ := by
  subst h_aon h_coll h_life h_power h_gst h_grants h_rails h_host h_variant h_mainReset
  exact h

@[simp] theorem calm_modPart (k : Nat) (f : Part → Part) : Calm b (s.modPart k f) ↔ Calm b s := Iff.rfl
@[simp] theorem calm_modFunc (k : Nat) (f : Func → Func) : Calm b (s.modFunc k f) ↔ Calm b s := Iff.rfl
@[simp] theorem calm_modCtx (k : Nat) (f : Ctx → Ctx) : Calm b (s.modCtx k f) ↔ Calm b s := Iff.rfl
@[simp] theorem calm_modQueue (k : Nat) (f : Queue → Queue) : Calm b (s.modQueue k f) ↔ Calm b s := Iff.rfl
@[simp] theorem calm_modTile (k : Nat) (f : Tile → Tile) : Calm b (s.modTile k f) ↔ Calm b s := Iff.rfl
@[simp] theorem calm_modSorter (k : Nat) (f : Sorter → Sorter) : Calm b (s.modSorter k f) ↔ Calm b s := Iff.rfl
@[simp] theorem calm_modMover (k : Nat) (f : Mover → Mover) : Calm b (s.modMover k f) ↔ Calm b s := Iff.rfl
@[simp] theorem calm_modReducer (k : Nat) (f : Reducer → Reducer) : Calm b (s.modReducer k f) ↔ Calm b s := Iff.rfl
@[simp] theorem calm_modWindow (k : Nat) (f : Window → Window) : Calm b (s.modWindow k f) ↔ Calm b s := Iff.rfl
@[simp] theorem calm_modPort (k : Nat) (f : LinkPort → LinkPort) : Calm b (s.modPort k f) ↔ Calm b s := Iff.rfl
@[simp] theorem calm_modJob (k : Nat) (f : Job → Job) : Calm b (s.modJob k f) ↔ Calm b s := Iff.rfl
@[simp] theorem calm_modStep (k : Nat) (f : Step → Step) : Calm b (s.modStep k f) ↔ Calm b s := by
  unfold State.modStep
  split <;> rfl
@[simp] theorem calm_emit (o : Out) : Calm b (emit s o) ↔ Calm b s := Iff.rfl
@[simp] theorem calm_draw : Calm b (draw s).2 ↔ Calm b s := Iff.rfl

theorem calm_ite {c : Prop} [Decidable c] {x y : State} (hx : Calm b x) (hy : Calm b y) : Calm b (if c then x else y) := by
  split <;> assumption

theorem draw_calm_of {x : Nat} {t : State} (e : draw s = (x, t)) (h : Calm b s) : Calm b t := by
  have : t = (draw s).2 := by rw [e]
  subst this
  exact h

theorem forAll_calm {α : Type} {l : List α} {f : State → α → State} (hf : ∀ t x, Calm b t → Calm b (f t x)) (h : Calm b s) :
    Calm b (forAll l f s) := by
  unfold forAll
  induction l generalizing s with
  | nil => exact h
  | cons a l ih => exact ih (hf s a h)

theorem foldl_calm {α : Type} {l : List α} {f : State → α → State} (hf : ∀ t x, Calm b t → Calm b (f t x)) (h : Calm b s) :
    Calm b (l.foldl f s) := forAll_calm hf h

@[simp] theorem hbmWrite_calm (p off : Nat) (bs : List Byte) (h : Calm b s) :
    Calm b (hbmWrite s p off bs) := by
  exact h

@[simp] theorem hbmClear_calm (p off n : Nat) (h : Calm b s) :
    Calm b (hbmClear s p off n) := by
  exact h

@[simp] theorem objWrite_calm (p i off : Nat) (bs : List Byte) (h : Calm b s) :
    Calm b (objWrite s p i off bs) := by
  unfold objWrite
  simp [h]

@[simp] theorem count_calm (p ev n : Nat) (h : Calm b s) :
    Calm b (count s p ev n) := by
  unfold count
  repeat' first
    | with_reducible assumption
    | with_reducible refine calm_ite ?_ ?_
    | with_reducible refine (calm_modPart _ _).2 ?_

@[simp] theorem countGlobal_calm (j n : Nat) (h : Calm b s) :
    Calm b (countGlobal s j n) := by
  unfold countGlobal
  repeat' first
    | with_reducible assumption
    | with_reducible refine calm_ite ?_ ?_
    | with_reducible refine forAll_calm (fun _ _ _ => ?_) ?_
    | with_reducible refine foldl_calm (fun _ _ _ => ?_) ?_
    | extract_lets
    | split
    | fail_if_no_progress with_reducible (conv => arg 3; whnf)
    | refine calm_upd ?_ rfl rfl rfl rfl rfl rfl rfl rfl rfl rfl

@[simp] theorem charge_calm (eng c cgen ns bytes e : Nat) (h : Calm b s) :
    Calm b (charge s eng c cgen ns bytes e) := by
  unfold charge
  repeat' first
    | with_reducible assumption
    | with_reducible refine calm_ite ?_ ?_
    | with_reducible refine (calm_modCtx _ _).2 ?_
    | with_reducible refine forAll_calm (fun _ _ _ => ?_) ?_
    | with_reducible refine foldl_calm (fun _ _ _ => ?_) ?_
    | extract_lets
    | split
    | fail_if_no_progress with_reducible (conv => arg 3; whnf)
    | refine calm_upd ?_ rfl rfl rfl rfl rfl rfl rfl rfl rfl rfl

@[simp] theorem traceSync_calm (p : Nat) (h : Calm b s) :
    Calm b (traceSync s p) := by
  unfold traceSync
  simp [h]

@[simp] theorem obsSpend_calm (p n : Nat) (h : Calm b s) :
    Calm b (obsSpend s p n) := by
  unfold obsSpend
  simp [h]

@[simp] theorem tracePut_calm (p : Nat) (rec : List Byte) (h : Calm b s) :
    Calm b (tracePut s p rec) := by
  unfold tracePut
  repeat' first
    | with_reducible assumption
    | with_reducible refine calm_ite ?_ ?_
    | with_reducible apply objWrite_calm
    | with_reducible apply obsSpend_calm
    | with_reducible apply traceSync_calm
    | with_reducible refine (calm_modPart _ _).2 ?_

@[simp] theorem traceRec_calm (p : Nat) (rec : List Byte) (h : Calm b s) :
    Calm b (traceRec s p rec) := by
  unfold traceRec
  repeat' first
    | with_reducible assumption
    | with_reducible refine calm_ite ?_ ?_
    | with_reducible apply count_calm
    | with_reducible apply tracePut_calm
    | with_reducible apply traceSync_calm
    | with_reducible refine (calm_modPart _ _).2 ?_

@[simp] theorem traceStep_calm (slot kind flags engine status : Nat) (h : Calm b s) :
    Calm b (traceStep s slot kind flags engine status) := by
  unfold traceStep
  repeat' first
    | with_reducible assumption
    | with_reducible refine calm_ite ?_ ?_
    | with_reducible apply traceRec_calm
    | with_reducible refine forAll_calm (fun _ _ _ => ?_) ?_
    | with_reducible refine foldl_calm (fun _ _ _ => ?_) ?_
    | extract_lets
    | split

@[simp] theorem traceSkein_calm (slot kind t skein : Nat) (flags status : Nat) (h : Calm b s) :
    Calm b (traceSkein s slot kind t skein flags status) := by
  unfold traceSkein
  repeat' first
    | with_reducible assumption
    | with_reducible refine calm_ite ?_ ?_
    | with_reducible apply traceRec_calm
    | with_reducible refine forAll_calm (fun _ _ _ => ?_) ?_
    | with_reducible refine foldl_calm (fun _ _ _ => ?_) ?_
    | extract_lets
    | split

@[simp] theorem traceTrigger_calm (p : Nat) (h : Calm b s) :
    Calm b (traceTrigger s p) := by
  unfold traceTrigger
  repeat' first
    | with_reducible assumption
    | with_reducible refine calm_ite ?_ ?_
    | with_reducible apply tracePut_calm
    | with_reducible refine (calm_modPart _ _).2 ?_

@[simp] theorem traceOff_calm (p : Nat) (h : Calm b s) :
    Calm b (traceOff s p) := by
  unfold traceOff
  repeat' first
    | with_reducible assumption
    | with_reducible refine calm_ite ?_ ?_
    | with_reducible refine (calm_modPart _ _).2 ?_



@[simp] theorem setCache_calm (d : Nat) (l : List CacheLine) (h : Calm b s) :
    Calm b (setCache s d l) := by
  unfold setCache
  repeat' first
    | with_reducible assumption
    | with_reducible refine calm_ite ?_ ?_
    | with_reducible refine forAll_calm (fun _ _ _ => ?_) ?_
    | with_reducible refine foldl_calm (fun _ _ _ => ?_) ?_
    | extract_lets
    | split
    | fail_if_no_progress with_reducible (conv => arg 3; whnf)
    | refine calm_upd ?_ rfl rfl rfl rfl rfl rfl rfl rfl rfl rfl

@[simp] theorem readLine_calm (p line : Nat) (h : Calm b s) :
    Calm b (readLine s p line) := by
  unfold readLine
  repeat' first
    | with_reducible assumption
    | with_reducible refine calm_ite ?_ ?_
    | with_reducible apply count_calm
    | with_reducible apply countGlobal_calm
    | with_reducible refine (calm_emit _).2 ?_
    | with_reducible refine draw_calm_of (by assumption) ?_
    | with_reducible refine forAll_calm (fun _ _ _ => ?_) ?_
    | with_reducible refine foldl_calm (fun _ _ _ => ?_) ?_
    | extract_lets
    | split
    | fail_if_no_progress with_reducible (conv => arg 3; whnf)
    | refine calm_upd ?_ rfl rfl rfl rfl rfl rfl rfl rfl rfl rfl

@[simp] theorem writeBack_calm (p : Nat) (c : CacheLine) (h : Calm b s) :
    Calm b (writeBack p s c) := by
  unfold writeBack
  repeat' first
    | with_reducible assumption
    | with_reducible refine calm_ite ?_ ?_
    | with_reducible apply count_calm
    | with_reducible apply countGlobal_calm
    | with_reducible refine (calm_emit _).2 ?_
    | with_reducible refine draw_calm_of (by assumption) ?_
    | with_reducible refine forAll_calm (fun _ _ _ => ?_) ?_
    | with_reducible refine foldl_calm (fun _ _ _ => ?_) ?_
    | extract_lets
    | split
    | fail_if_no_progress with_reducible (conv => arg 3; whnf)
    | refine calm_upd ?_ rfl rfl rfl rfl rfl rfl rfl rfl rfl rfl

@[simp] theorem fillWay_calm (p d line way : Nat) (write : Bool) (h : Calm b s) :
    Calm b (fillWay s p d line way write) := by
  unfold fillWay
  repeat' first
    | with_reducible assumption
    | with_reducible refine calm_ite ?_ ?_
    | with_reducible apply setCache_calm
    | with_reducible apply writeBack_calm
    | with_reducible refine forAll_calm (fun _ _ _ => ?_) ?_

@[simp] theorem touchLine_calm (p : Nat) (write : Bool) (line : Nat) (h : Calm b s) :
    Calm b (touchLine p write s line) := by
  unfold touchLine
  repeat' first
    | with_reducible assumption
    | with_reducible refine calm_ite ?_ ?_
    | with_reducible apply count_calm
    | with_reducible apply fillWay_calm
    | with_reducible apply readLine_calm
    | with_reducible apply setCache_calm
    | with_reducible refine draw_calm_of (by assumption) ?_
    | with_reducible refine forAll_calm (fun _ _ _ => ?_) ?_
    | with_reducible refine foldl_calm (fun _ _ _ => ?_) ?_
    | extract_lets
    | split
    | fail_if_no_progress with_reducible (conv => arg 3; whnf)
    | refine calm_upd ?_ rfl rfl rfl rfl rfl rfl rfl rfl rfl rfl

@[simp] theorem touchLines_calm (p : Nat) (write : Bool) (lines : List Nat) (h : Calm b s) :
    Calm b (touchLines s p write lines) := by
  unfold touchLines
  repeat' first
    | with_reducible assumption
    | with_reducible refine calm_ite ?_ ?_
    | with_reducible apply touchLine_calm
    | with_reducible refine forAll_calm (fun _ _ _ => ?_) ?_

@[simp] theorem flushPart_calm (p : Nat) (h : Calm b s) :
    Calm b (flushPart s p) := by
  unfold flushPart
  repeat' first
    | with_reducible assumption
    | with_reducible refine calm_ite ?_ ?_
    | with_reducible apply writeBack_calm
    | with_reducible refine forAll_calm (fun _ _ _ => ?_) ?_
    | with_reducible refine foldl_calm (fun _ _ _ => ?_) ?_
    | extract_lets
    | split
    | fail_if_no_progress with_reducible (conv => arg 3; whnf)
    | refine calm_upd ?_ rfl rfl rfl rfl rfl rfl rfl rfl rfl rfl

@[simp] theorem cleanRange_calm (p a n : Nat) (h : Calm b s) :
    Calm b (cleanRange s p a n) := by
  unfold cleanRange
  repeat' first
    | with_reducible assumption
    | with_reducible refine calm_ite ?_ ?_
    | with_reducible apply writeBack_calm
    | with_reducible refine forAll_calm (fun _ _ _ => ?_) ?_
    | with_reducible refine foldl_calm (fun _ _ _ => ?_) ?_
    | extract_lets
    | split
    | fail_if_no_progress with_reducible (conv => arg 3; whnf)
    | refine calm_upd ?_ rfl rfl rfl rfl rfl rfl rfl rfl rfl rfl



@[simp] theorem sendOne_calm (p : Nat) (h : Calm b s) :
    Calm b (sendOne s p) := by
  unfold sendOne
  repeat' first
    | with_reducible assumption
    | with_reducible refine calm_ite ?_ ?_
    | with_reducible apply count_calm
    | with_reducible apply countGlobal_calm
    | with_reducible refine (calm_modPort _ _).2 ?_
    | with_reducible refine (calm_emit _).2 ?_
    | with_reducible refine forAll_calm (fun _ _ _ => ?_) ?_
    | with_reducible refine foldl_calm (fun _ _ _ => ?_) ?_
    | extract_lets
    | split

@[simp] theorem drainTx_calm (p : Nat) (h : Calm b s) :
    Calm b (drainTx s p) := by
  unfold drainTx
  repeat' first
    | with_reducible assumption
    | with_reducible refine calm_ite ?_ ?_
    | with_reducible apply sendOne_calm
    | with_reducible refine forAll_calm (fun _ _ _ => ?_) ?_
    | with_reducible refine foldl_calm (fun _ _ _ => ?_) ?_

@[simp] theorem sendAll_calm (p : Nat) (l : List TxMsg) (h : Calm b s) :
    Calm b (sendAll s p l) := by
  unfold sendAll
  simp [h]

@[simp] theorem sendCtl_calm (part pkg : Nat) (route : Option (List Nat)) (o : Out) (h : Calm b s) :
    Calm b (sendCtl s part pkg route o) := by
  unfold sendCtl
  repeat' first
    | with_reducible assumption
    | with_reducible refine calm_ite ?_ ?_
    | with_reducible apply sendAll_calm
    | with_reducible refine (calm_emit _).2 ?_
    | with_reducible refine forAll_calm (fun _ _ _ => ?_) ?_
    | with_reducible refine foldl_calm (fun _ _ _ => ?_) ?_
    | extract_lets
    | split



@[simp] theorem answerWith_calm (f tag status detail : Nat) (payload ext : List Byte) (waits : Bool) (h : Calm b s) :
    Calm b (answerWith s f tag status detail payload ext waits) := by
  unfold answerWith
  repeat' first
    | with_reducible assumption
    | with_reducible refine calm_ite ?_ ?_
    | with_reducible refine (calm_modFunc _ _).2 ?_
    | with_reducible refine forAll_calm (fun _ _ _ => ?_) ?_
    | with_reducible refine foldl_calm (fun _ _ _ => ?_) ?_
    | extract_lets
    | split

@[simp] theorem answer_calm (f tag status detail : Nat) (h : Calm b s) :
    Calm b (answer s f tag status detail) := by
  unfold answer
  simp [h]

@[simp] theorem answerOpt_calm (r : Option (Nat × Nat)) (status detail : Nat) (h : Calm b s) :
    Calm b (answerOpt s r status detail) := by
  unfold answerOpt
  repeat' first
    | with_reducible assumption
    | with_reducible refine calm_ite ?_ ?_
    | with_reducible apply answer_calm
    | with_reducible refine forAll_calm (fun _ _ _ => ?_) ?_
    | with_reducible refine foldl_calm (fun _ _ _ => ?_) ?_
    | extract_lets
    | split

@[simp] theorem pushEntry_calm (f : Nat) (e : Entry) (h : Calm b s) :
    Calm b (pushEntry s f e) := by
  unfold pushEntry
  simp [h]

@[simp] theorem accrue_calm (slot : Nat) (h : Calm b s) :
    Calm b (accrue s slot) := by
  unfold accrue
  repeat' first
    | with_reducible assumption
    | with_reducible refine calm_ite ?_ ?_
    | with_reducible refine (calm_modCtx _ _).2 ?_
    | with_reducible refine (calm_modStep _ _).2 ?_
    | with_reducible refine forAll_calm (fun _ _ _ => ?_) ?_
    | with_reducible refine foldl_calm (fun _ _ _ => ?_) ?_
    | extract_lets
    | split

@[simp] theorem setState_calm (slot n : Nat) (h : Calm b s) :
    Calm b (setState s slot n) := by
  unfold setState
  simp [h]

@[simp] theorem closeWindow_calm (w : Nat) (h : Calm b s) :
    Calm b (closeWindow s w) := by
  unfold closeWindow
  repeat' first
    | with_reducible assumption
    | with_reducible refine calm_ite ?_ ?_
    | with_reducible refine (calm_modWindow _ _).2 ?_

@[simp] theorem closeWindows_calm (c : Window → Bool) (h : Calm b s) :
    Calm b (closeWindows s c) := by
  unfold closeWindows
  repeat' first
    | with_reducible assumption
    | with_reducible refine calm_ite ?_ ?_
    | with_reducible apply closeWindow_calm
    | with_reducible refine forAll_calm (fun _ _ _ => ?_) ?_

@[simp] theorem dropWork_calm (slot : Nat) (h : Calm b s) :
    Calm b (dropWork s slot) := by
  unfold dropWork
  repeat' first
    | with_reducible assumption
    | with_reducible refine calm_ite ?_ ?_
    | with_reducible apply closeWindows_calm
    | with_reducible refine forAll_calm (fun _ _ _ => ?_) ?_
    | with_reducible refine foldl_calm (fun _ _ _ => ?_) ?_
    | extract_lets
    | split
    | fail_if_no_progress with_reducible (conv => arg 3; whnf)
    | refine calm_upd ?_ rfl rfl rfl rfl rfl rfl rfl rfl rfl rfl

@[simp] theorem watchRelease_calm (slot : Nat) (st : Step) (h : Calm b s) :
    Calm b (watchRelease s slot st) := by
  unfold watchRelease
  repeat' first
    | with_reducible assumption
    | with_reducible refine calm_ite ?_ ?_
    | with_reducible apply objWrite_calm
    | with_reducible apply obsSpend_calm
    | with_reducible apply traceTrigger_calm
    | with_reducible refine (calm_modStep _ _).2 ?_
    | with_reducible refine (calm_modPart _ _).2 ?_
    | with_reducible refine forAll_calm (fun _ _ _ => ?_) ?_

@[simp] theorem noteDone_calm (slot : Nat) (h : Calm b s) :
    Calm b (noteDone s slot) := by
  unfold noteDone
  repeat' first
    | with_reducible assumption
    | with_reducible refine calm_ite ?_ ?_
    | with_reducible apply pushEntry_calm
    | with_reducible apply watchRelease_calm
    | with_reducible refine (calm_modStep _ _).2 ?_
    | with_reducible refine forAll_calm (fun _ _ _ => ?_) ?_
    | with_reducible refine foldl_calm (fun _ _ _ => ?_) ?_
    | extract_lets
    | split

@[simp] theorem reopen_calm (slot : Nat) (h : Calm b s) :
    Calm b (reopen s slot) := by
  unfold reopen
  repeat' first
    | with_reducible assumption
    | with_reducible refine calm_ite ?_ ?_
    | with_reducible apply objWrite_calm
    | with_reducible refine (calm_modStep _ _).2 ?_
    | with_reducible refine (calm_modFunc _ _).2 ?_
    | with_reducible refine forAll_calm (fun _ _ _ => ?_) ?_
    | with_reducible refine foldl_calm (fun _ _ _ => ?_) ?_
    | extract_lets
    | split

@[simp] theorem failRaw_calm (slot : Nat) (status : Code) (h : Calm b s) :
    Calm b (failRaw s slot status) := by
  unfold failRaw
  repeat' first
    | with_reducible assumption
    | with_reducible refine calm_ite ?_ ?_
    | with_reducible apply dropWork_calm
    | with_reducible apply noteDone_calm
    | with_reducible apply setState_calm
    | with_reducible refine (calm_modStep _ _).2 ?_
    | with_reducible refine forAll_calm (fun _ _ _ => ?_) ?_
    | with_reducible refine foldl_calm (fun _ _ _ => ?_) ?_
    | extract_lets
    | split

@[simp] theorem noticeTo_calm (j : Nat) (dest : List Nat) (n : Notice) (h : Calm b s) :
    Calm b (noticeTo s j dest n) := by
  unfold noticeTo
  repeat' first
    | with_reducible assumption
    | with_reducible refine calm_ite ?_ ?_
    | with_reducible apply sendCtl_calm
    | with_reducible refine forAll_calm (fun _ _ _ => ?_) ?_

@[simp] theorem sendNotice_calm (j origin : Nat) (n : Notice) (h : Calm b s) :
    Calm b (sendNotice s j origin n) := by
  unfold sendNotice
  repeat' first
    | with_reducible assumption
    | with_reducible refine calm_ite ?_ ?_
    | with_reducible apply noticeTo_calm

@[simp] theorem startAbort_calm (j jstep p : Nat) (cause code : Code) (lost : Bool) (h : Calm b s) :
    Calm b (startAbort s j jstep p cause code lost) := by
  unfold startAbort
  repeat' first
    | with_reducible assumption
    | with_reducible refine calm_ite ?_ ?_
    | with_reducible apply closeWindows_calm
    | with_reducible apply sendNotice_calm
    | with_reducible refine (calm_modJob _ _).2 ?_

@[simp] theorem failWith_calm (slot : Nat) (status code : Code) (h : Calm b s) :
    Calm b (failWith s slot status code) := by
  unfold failWith
  repeat' first
    | with_reducible assumption
    | with_reducible refine calm_ite ?_ ?_
    | with_reducible apply failRaw_calm
    | with_reducible apply startAbort_calm
    | with_reducible refine forAll_calm (fun _ _ _ => ?_) ?_
    | with_reducible refine foldl_calm (fun _ _ _ => ?_) ?_
    | extract_lets
    | split

@[simp] theorem failStep_calm (slot : Nat) (status : Code) (h : Calm b s) :
    Calm b (failStep s slot status) := by
  unfold failStep
  simp [h]

@[simp] theorem failAll_calm (c : Step → Bool) (status : Code) (h : Calm b s) :
    Calm b (failAll s c status) := by
  unfold failAll
  repeat' first
    | with_reducible assumption
    | with_reducible refine calm_ite ?_ ?_
    | with_reducible apply failStep_calm
    | with_reducible refine forAll_calm (fun _ _ _ => ?_) ?_

@[simp] theorem deleteJob_calm (j : Nat) (h : Calm b s) :
    Calm b (deleteJob s j) := by
  unfold deleteJob
  repeat' first
    | with_reducible assumption
    | with_reducible refine calm_ite ?_ ?_
    | with_reducible apply closeWindows_calm
    | with_reducible apply failAll_calm
    | with_reducible refine forAll_calm (fun _ _ _ => ?_) ?_
    | with_reducible refine foldl_calm (fun _ _ _ => ?_) ?_
    | extract_lets
    | split
    | fail_if_no_progress with_reducible (conv => arg 3; whnf)
    | refine calm_upd ?_ rfl rfl rfl rfl rfl rfl rfl rfl rfl rfl

@[simp] theorem breakJob_calm (j : Nat) (h : Calm b s) :
    Calm b (breakJob s j) := by
  unfold breakJob
  simp [h]

@[simp] theorem signalFence_calm (p i status : Nat) (h : Calm b s) :
    Calm b (signalFence s p i status) := by
  unfold signalFence
  repeat' first
    | with_reducible assumption
    | with_reducible refine calm_ite ?_ ?_
    | with_reducible apply failStep_calm
    | with_reducible apply pushEntry_calm
    | with_reducible refine (calm_modPart _ _).2 ?_
    | with_reducible refine (calm_modStep _ _).2 ?_
    | with_reducible refine forAll_calm (fun _ _ _ => ?_) ?_
    | with_reducible refine foldl_calm (fun _ _ _ => ?_) ?_
    | extract_lets
    | split

@[simp] theorem reap_calm (p : Nat) (h : Calm b s) :
    Calm b (reap s p) := by
  unfold reap
  simp [h]

@[simp] theorem teardown_calm (p c : Nat) (status : Code) (h : Calm b s) :
    Calm b (teardown s p c status) := by
  unfold teardown
  extract_lets x s1 owned s2 tr s3 s4 s5 s6 s7
  have h1 : Calm b s1 := failAll_calm _ _ h
  have h2 : Calm b s2 := forAll_calm (fun _ _ => signalFence_calm _ _ _) h1
  have h3 : Calm b s3 := calm_ite (traceOff_calm _ h2) h2
  have h4 : Calm b s4 := (calm_modPart _ _).2 h3
  have h5 : Calm b s5 := (calm_modCtx _ _).2 h4
  have h6 : Calm b s6 := h5
  have h7 : Calm b s7 := (calm_modPart _ _).2 h6
  exact answerOpt_calm _ _ _ (reap_calm _ h7)

@[simp] theorem sweepBobbins_calm (p : Nat) (h : Calm b s) :
    Calm b (sweepBobbins s p) := by
  unfold sweepBobbins
  simp [h]



end Sys2Proof.Machine
end

