-- ==== Sys2Proof/Laws/Kept.lean ====
section
/-! SUPPORT. What every command keeps, whatever it does: the queue of waiting commands, the variant, the canonical form of object
space, the bound of the code log (R419) and of the corrected counters (R420). One predicate carries all of it, so that one
lemma per operation serves every statement about the whole machine. -/

namespace Sys2Proof.Machine

/-- The collector's log holds at most 32 codes and no corrected counter exceeds 0xFFFF (R419, R420). -/
def CollKept (c : Collector) : Prop := c.log.length ≤ 32 ∧ ∀ e ∈ c.corr, e.2 ≤ 0xFFFF

/-- What every command keeps: the queue `qs`, the variant `vr`, canonical object space, the collector's bounds. -/
def Kept (qs : List Instr) (vr : Variant) (s : State) : Prop :=
  s.pending = qs ∧ s.variant = vr ∧ memWf s.hbm = true ∧ CollKept s.coll

/-- What every answer keeps. -/
def AnsKept (qs : List Instr) (vr : Variant) : Ans → Prop
  | .reply t _ _ _ _ _ => Kept qs vr t
  | .later t => Kept qs vr t
  | .refuse _ => True
  | .refuseAt _ _ => True

variable {qs : List Instr} {vr : Variant} {s : State}

theorem Kept.memory (h : Kept qs vr s) : memWf s.hbm = true := h.2.2.1
theorem Kept.collector (h : Kept qs vr s) : CollKept s.coll := h.2.2.2
theorem Kept.queue (h : Kept qs vr s) : s.pending = qs := h.1
theorem Kept.kind (h : Kept qs vr s) : s.variant = vr := h.2.1

/-- A change of any other field keeps all of it. -/
theorem Kept.congr {t : State} (h : Kept qs vr s) (h1 : t.pending = s.pending) (h2 : t.variant = s.variant) (h3 : t.hbm = s.hbm)
    (h4 : t.coll = s.coll) : Kept qs vr t := by
  unfold Kept at *
  rw [h1, h2, h3, h4]
  exact h

/-- A state written out, or updated field by field, keeps what the state keeps from which it takes these four fields. -/
theorem kept_upd {x_variant : Variant} {x_aon : Aon} {x_mainReset : Bool} {x_coll : Collector} {x_life : Life} {x_rails : Tab DieRail}
    {x_funcs : Tab Func} {x_lastTaken : Nat} {x_parts : Tab Part} {x_partGen : Tab Nat} {x_dieWays : Tab (List (Nat × Nat))}
    {x_caches : Tab (List CacheLine)} {x_hbmReads : List HbmRead} {x_badGranules : List Nat} {x_ctxs : Tab Ctx} {x_ctxFree :
    List Nat} {x_ctxNext : Nat} {x_queues : Tab Queue} {x_steps : Tab Step} {x_slotGen : Tab Nat} {x_quar : Tab Quar}
    {x_tiles : Tab Tile} {x_movers : Tab Mover} {x_sorters : Tab Sorter} {x_sortWait : List SortReq} {x_reducers : Tab
    Reducer} {x_addedWork : List Plan} {x_engRecs : Tab EngRec} {x_remOps : List RemOp} {x_opNext : Nat} {x_ports : Tab
    LinkPort} {x_windows : Tab Window} {x_stale : Tab Nat} {x_jobs : Tab Job} {x_hbm : Mem} {x_hbmPoison : List Nat}
    {x_scrubs : List ScrubRec} {x_grants : Grants} {x_gst : Gst} {x_pmc : Pmc} {x_power : Power} {x_host : HostPort}
    {x_stageUsed : Tab Nat} {x_stageMax : Tab Nat} {x_stageFull : Tab Nat} {x_out : List Out} {x_fresh : Nat} {x_pending :
    List Instr}
    (h : Kept qs vr s) (h1 : x_pending = s.pending) (h2 : x_variant = s.variant) (h3 : x_hbm = s.hbm) (h4 : x_coll = s.coll) :
    Kept qs vr ⟨x_variant, x_aon, x_mainReset, x_coll, x_life, x_rails, x_funcs, x_lastTaken, x_parts, x_partGen, x_dieWays, x_caches,
      x_hbmReads, x_badGranules, x_ctxs, x_ctxFree, x_ctxNext, x_queues, x_steps, x_slotGen, x_quar, x_tiles, x_movers,
      x_sorters, x_sortWait, x_reducers, x_addedWork, x_engRecs, x_remOps, x_opNext, x_ports, x_windows, x_stale, x_jobs,
      x_hbm, x_hbmPoison, x_scrubs, x_grants, x_gst, x_pmc, x_power, x_host, x_stageUsed, x_stageMax, x_stageFull, x_out,
      x_fresh, x_pending⟩ := by
  subst h1 h2 h3 h4
  exact h

@[simp] theorem kept_modPart (k : Nat) (f : Part → Part) : Kept qs vr (s.modPart k f) ↔ Kept qs vr s := Iff.rfl
@[simp] theorem kept_modFunc (k : Nat) (f : Func → Func) : Kept qs vr (s.modFunc k f) ↔ Kept qs vr s := Iff.rfl
@[simp] theorem kept_modCtx (k : Nat) (f : Ctx → Ctx) : Kept qs vr (s.modCtx k f) ↔ Kept qs vr s := Iff.rfl
@[simp] theorem kept_modQueue (k : Nat) (f : Queue → Queue) : Kept qs vr (s.modQueue k f) ↔ Kept qs vr s := Iff.rfl
@[simp] theorem kept_modTile (k : Nat) (f : Tile → Tile) : Kept qs vr (s.modTile k f) ↔ Kept qs vr s := Iff.rfl
@[simp] theorem kept_modSorter (k : Nat) (f : Sorter → Sorter) : Kept qs vr (s.modSorter k f) ↔ Kept qs vr s := Iff.rfl
@[simp] theorem kept_modMover (k : Nat) (f : Mover → Mover) : Kept qs vr (s.modMover k f) ↔ Kept qs vr s := Iff.rfl
@[simp] theorem kept_modReducer (k : Nat) (f : Reducer → Reducer) : Kept qs vr (s.modReducer k f) ↔ Kept qs vr s := Iff.rfl
@[simp] theorem kept_modPort (k : Nat) (f : LinkPort → LinkPort) : Kept qs vr (s.modPort k f) ↔ Kept qs vr s := Iff.rfl
@[simp] theorem kept_modWindow (k : Nat) (f : Window → Window) : Kept qs vr (s.modWindow k f) ↔ Kept qs vr s := Iff.rfl
@[simp] theorem kept_modJob (k : Nat) (f : Job → Job) : Kept qs vr (s.modJob k f) ↔ Kept qs vr s := Iff.rfl
@[simp] theorem kept_modRail (k : Nat) (f : DieRail → DieRail) : Kept qs vr (s.modRail k f) ↔ Kept qs vr s := Iff.rfl
@[simp] theorem kept_modAon (f : Aon → Aon) : Kept qs vr (s.modAon f) ↔ Kept qs vr s := Iff.rfl
@[simp] theorem kept_modLife (f : Life → Life) : Kept qs vr (s.modLife f) ↔ Kept qs vr s := Iff.rfl
@[simp] theorem kept_modPower (f : Power → Power) : Kept qs vr (s.modPower f) ↔ Kept qs vr s := Iff.rfl
@[simp] theorem kept_modStep (k : Nat) (f : Step → Step) : Kept qs vr (s.modStep k f) ↔ Kept qs vr s := by
  unfold State.modStep
  split <;> rfl
@[simp] theorem kept_emit (o : Out) : Kept qs vr (emit s o) ↔ Kept qs vr s := Iff.rfl
@[simp] theorem kept_draw : Kept qs vr (draw s).2 ↔ Kept qs vr s := Iff.rfl
@[simp] theorem kept_drawKey : Kept qs vr (drawKey s).2 ↔ Kept qs vr s := Iff.rfl
@[simp] theorem kept_advance (now : Nat) : Kept qs vr (advance s now) ↔ Kept qs vr s := by
  unfold advance
  split <;> rfl

theorem kept_ite {c : Prop} [Decidable c] {a b : State} (ha : Kept qs vr a) (hb : Kept qs vr b) : Kept qs vr (if c then a else b) := by
  split <;> assumption

theorem draw_kept_of {x : Nat} {t : State} (e : draw s = (x, t)) (h : Kept qs vr s) : Kept qs vr t := by
  have : t = (draw s).2 := by rw [e]
  subst this
  exact h

theorem drawKey_kept_of {x : BitVec 256} {t : State} (e : drawKey s = (x, t)) (h : Kept qs vr s) : Kept qs vr t := by
  have : t = (drawKey s).2 := by rw [e]
  subst this
  exact h

theorem modColl_kept {f : Collector → Collector} (hf : CollKept s.coll → CollKept (f s.coll)) (h : Kept qs vr s) :
    Kept qs vr (s.modColl f) := ⟨h.1, h.2.1, h.2.2.1, hf h.2.2.2⟩

theorem forAll_kept {α : Type} {l : List α} {f : State → α → State} (hf : ∀ t x, Kept qs vr t → Kept qs vr (f t x))
    (h : Kept qs vr s) : Kept qs vr (forAll l f s) := by
  unfold forAll
  induction l generalizing s with
  | nil => exact h
  | cons a l ih => exact ih (hf s a h)

theorem foldl_kept {α : Type} {l : List α} {f : State → α → State} (hf : ∀ t x, Kept qs vr t → Kept qs vr (f t x))
    (h : Kept qs vr s) : Kept qs vr (l.foldl f s) := forAll_kept hf h

end Sys2Proof.Machine
end

