-- ==== Sys2Proof/Laws/KeptOps.lean ====
section
/-! SUPPORT. Every operation of Ops, Cache, Ports, Work, Reset, Faults, Access, Mailbox and Engines keeps what `Kept` says. -/

namespace Sys2Proof.Machine

variable {qs : List Instr} {vr : Variant} {s : State}

@[simp] theorem hbmWrite_kept (p off : Nat) (bs : List Byte) (h : Kept qs vr s) :
    Kept qs vr (hbmWrite s p off bs) := by
  exact ⟨h.1, h.2.1, memWf_mwriteN _ _ h.2.2.1, h.2.2.2⟩

@[simp] theorem hbmClear_kept (p off n : Nat) (h : Kept qs vr s) :
    Kept qs vr (hbmClear s p off n) := by
  exact ⟨h.1, h.2.1, memWf_mclear _ _ h.2.2.1, h.2.2.2⟩

@[simp] theorem objWrite_kept (p i off : Nat) (bs : List Byte) (h : Kept qs vr s) :
    Kept qs vr (objWrite s p i off bs) := by
  unfold objWrite
  simp [h]

@[simp] theorem count_kept (p ev n : Nat) (h : Kept qs vr s) :
    Kept qs vr (count s p ev n) := by
  unfold count
  repeat' first
    | with_reducible assumption
    | with_reducible refine kept_ite ?_ ?_
    | with_reducible refine (kept_modPart _ _).2 ?_

@[simp] theorem countGlobal_kept (j n : Nat) (h : Kept qs vr s) :
    Kept qs vr (countGlobal s j n) := by
  unfold countGlobal
  repeat' first
    | with_reducible assumption
    | with_reducible refine kept_ite ?_ ?_
    | with_reducible refine forAll_kept (fun _ _ _ => ?_) ?_
    | with_reducible refine foldl_kept (fun _ _ _ => ?_) ?_
    | extract_lets
    | split
    | fail_if_no_progress with_reducible (conv => arg 3; whnf)
    | refine kept_upd ?_ rfl rfl rfl rfl

@[simp] theorem charge_kept (eng c cgen ns bytes e : Nat) (h : Kept qs vr s) :
    Kept qs vr (charge s eng c cgen ns bytes e) := by
  unfold charge
  repeat' first
    | with_reducible assumption
    | with_reducible refine kept_ite ?_ ?_
    | with_reducible refine (kept_modCtx _ _).2 ?_
    | with_reducible refine forAll_kept (fun _ _ _ => ?_) ?_
    | with_reducible refine foldl_kept (fun _ _ _ => ?_) ?_
    | extract_lets
    | split
    | fail_if_no_progress with_reducible (conv => arg 3; whnf)
    | refine kept_upd ?_ rfl rfl rfl rfl

@[simp] theorem traceSync_kept (p : Nat) (h : Kept qs vr s) :
    Kept qs vr (traceSync s p) := by
  unfold traceSync
  simp [h]

@[simp] theorem obsSpend_kept (p n : Nat) (h : Kept qs vr s) :
    Kept qs vr (obsSpend s p n) := by
  unfold obsSpend
  simp [h]

@[simp] theorem tracePut_kept (p : Nat) (rec : List Byte) (h : Kept qs vr s) :
    Kept qs vr (tracePut s p rec) := by
  unfold tracePut
  repeat' first
    | with_reducible assumption
    | with_reducible refine kept_ite ?_ ?_
    | with_reducible apply objWrite_kept
    | with_reducible apply obsSpend_kept
    | with_reducible apply traceSync_kept
    | with_reducible refine (kept_modPart _ _).2 ?_

@[simp] theorem traceRec_kept (p : Nat) (rec : List Byte) (h : Kept qs vr s) :
    Kept qs vr (traceRec s p rec) := by
  unfold traceRec
  repeat' first
    | with_reducible assumption
    | with_reducible refine kept_ite ?_ ?_
    | with_reducible apply count_kept
    | with_reducible apply tracePut_kept
    | with_reducible apply traceSync_kept
    | with_reducible refine (kept_modPart _ _).2 ?_

@[simp] theorem traceStep_kept (slot kind flags engine status : Nat) (h : Kept qs vr s) :
    Kept qs vr (traceStep s slot kind flags engine status) := by
  unfold traceStep
  repeat' first
    | with_reducible assumption
    | with_reducible refine kept_ite ?_ ?_
    | with_reducible apply traceRec_kept
    | with_reducible refine forAll_kept (fun _ _ _ => ?_) ?_
    | with_reducible refine foldl_kept (fun _ _ _ => ?_) ?_
    | extract_lets
    | split

@[simp] theorem traceSkein_kept (slot kind t skein : Nat) (flags status : Nat) (h : Kept qs vr s) :
    Kept qs vr (traceSkein s slot kind t skein flags status) := by
  unfold traceSkein
  repeat' first
    | with_reducible assumption
    | with_reducible refine kept_ite ?_ ?_
    | with_reducible apply traceRec_kept
    | with_reducible refine forAll_kept (fun _ _ _ => ?_) ?_
    | with_reducible refine foldl_kept (fun _ _ _ => ?_) ?_
    | extract_lets
    | split

@[simp] theorem traceTrigger_kept (p : Nat) (h : Kept qs vr s) :
    Kept qs vr (traceTrigger s p) := by
  unfold traceTrigger
  repeat' first
    | with_reducible assumption
    | with_reducible refine kept_ite ?_ ?_
    | with_reducible apply tracePut_kept
    | with_reducible refine (kept_modPart _ _).2 ?_

@[simp] theorem traceOff_kept (p : Nat) (h : Kept qs vr s) :
    Kept qs vr (traceOff s p) := by
  unfold traceOff
  repeat' first
    | with_reducible assumption
    | with_reducible refine kept_ite ?_ ?_
    | with_reducible refine (kept_modPart _ _).2 ?_

@[simp] theorem setCache_kept (d : Nat) (l : List CacheLine) (h : Kept qs vr s) :
    Kept qs vr (setCache s d l) := by
  unfold setCache
  repeat' first
    | with_reducible assumption
    | with_reducible refine kept_ite ?_ ?_
    | with_reducible refine forAll_kept (fun _ _ _ => ?_) ?_
    | with_reducible refine foldl_kept (fun _ _ _ => ?_) ?_
    | extract_lets
    | split
    | fail_if_no_progress with_reducible (conv => arg 3; whnf)
    | refine kept_upd ?_ rfl rfl rfl rfl

@[simp] theorem readLine_kept (p line : Nat) (h : Kept qs vr s) :
    Kept qs vr (readLine s p line) := by
  unfold readLine
  repeat' first
    | with_reducible assumption
    | with_reducible refine kept_ite ?_ ?_
    | with_reducible apply count_kept
    | with_reducible apply countGlobal_kept
    | with_reducible refine (kept_emit _).2 ?_
    | with_reducible refine draw_kept_of (by assumption) ?_
    | with_reducible refine forAll_kept (fun _ _ _ => ?_) ?_
    | with_reducible refine foldl_kept (fun _ _ _ => ?_) ?_
    | extract_lets
    | split
    | fail_if_no_progress with_reducible (conv => arg 3; whnf)
    | refine kept_upd ?_ rfl rfl rfl rfl

@[simp] theorem writeBack_kept (p : Nat) (c : CacheLine) (h : Kept qs vr s) :
    Kept qs vr (writeBack p s c) := by
  unfold writeBack
  repeat' first
    | with_reducible assumption
    | with_reducible refine kept_ite ?_ ?_
    | with_reducible apply count_kept
    | with_reducible apply countGlobal_kept
    | with_reducible refine (kept_emit _).2 ?_
    | with_reducible refine draw_kept_of (by assumption) ?_
    | with_reducible refine forAll_kept (fun _ _ _ => ?_) ?_
    | with_reducible refine foldl_kept (fun _ _ _ => ?_) ?_
    | extract_lets
    | split
    | fail_if_no_progress with_reducible (conv => arg 3; whnf)
    | refine kept_upd ?_ rfl rfl rfl rfl

@[simp] theorem fillWay_kept (p d line way : Nat) (write : Bool) (h : Kept qs vr s) :
    Kept qs vr (fillWay s p d line way write) := by
  unfold fillWay
  repeat' first
    | with_reducible assumption
    | with_reducible refine kept_ite ?_ ?_
    | with_reducible apply setCache_kept
    | with_reducible apply writeBack_kept
    | with_reducible refine forAll_kept (fun _ _ _ => ?_) ?_

@[simp] theorem touchLine_kept (p : Nat) (write : Bool) (line : Nat) (h : Kept qs vr s) :
    Kept qs vr (touchLine p write s line) := by
  unfold touchLine
  repeat' first
    | with_reducible assumption
    | with_reducible refine kept_ite ?_ ?_
    | with_reducible apply count_kept
    | with_reducible apply fillWay_kept
    | with_reducible apply readLine_kept
    | with_reducible apply setCache_kept
    | with_reducible refine draw_kept_of (by assumption) ?_
    | with_reducible refine forAll_kept (fun _ _ _ => ?_) ?_
    | with_reducible refine foldl_kept (fun _ _ _ => ?_) ?_
    | extract_lets
    | split
    | fail_if_no_progress with_reducible (conv => arg 3; whnf)
    | refine kept_upd ?_ rfl rfl rfl rfl

@[simp] theorem touchLines_kept (p : Nat) (write : Bool) (lines : List Nat) (h : Kept qs vr s) :
    Kept qs vr (touchLines s p write lines) := by
  unfold touchLines
  repeat' first
    | with_reducible assumption
    | with_reducible refine kept_ite ?_ ?_
    | with_reducible apply touchLine_kept
    | with_reducible refine forAll_kept (fun _ _ _ => ?_) ?_

@[simp] theorem flushPart_kept (p : Nat) (h : Kept qs vr s) :
    Kept qs vr (flushPart s p) := by
  unfold flushPart
  repeat' first
    | with_reducible assumption
    | with_reducible refine kept_ite ?_ ?_
    | with_reducible apply writeBack_kept
    | with_reducible refine forAll_kept (fun _ _ _ => ?_) ?_
    | with_reducible refine foldl_kept (fun _ _ _ => ?_) ?_
    | extract_lets
    | split
    | fail_if_no_progress with_reducible (conv => arg 3; whnf)
    | refine kept_upd ?_ rfl rfl rfl rfl

@[simp] theorem cleanRange_kept (p a n : Nat) (h : Kept qs vr s) :
    Kept qs vr (cleanRange s p a n) := by
  unfold cleanRange
  repeat' first
    | with_reducible assumption
    | with_reducible refine kept_ite ?_ ?_
    | with_reducible apply writeBack_kept
    | with_reducible refine forAll_kept (fun _ _ _ => ?_) ?_
    | with_reducible refine foldl_kept (fun _ _ _ => ?_) ?_
    | extract_lets
    | split
    | fail_if_no_progress with_reducible (conv => arg 3; whnf)
    | refine kept_upd ?_ rfl rfl rfl rfl

@[simp] theorem sendOne_kept (p : Nat) (h : Kept qs vr s) :
    Kept qs vr (sendOne s p) := by
  unfold sendOne
  repeat' first
    | with_reducible assumption
    | with_reducible refine kept_ite ?_ ?_
    | with_reducible apply count_kept
    | with_reducible apply countGlobal_kept
    | with_reducible refine (kept_modPort _ _).2 ?_
    | with_reducible refine (kept_emit _).2 ?_
    | with_reducible refine forAll_kept (fun _ _ _ => ?_) ?_
    | with_reducible refine foldl_kept (fun _ _ _ => ?_) ?_
    | extract_lets
    | split

@[simp] theorem drainTx_kept (p : Nat) (h : Kept qs vr s) :
    Kept qs vr (drainTx s p) := by
  unfold drainTx
  repeat' first
    | with_reducible assumption
    | with_reducible refine kept_ite ?_ ?_
    | with_reducible apply sendOne_kept
    | with_reducible refine forAll_kept (fun _ _ _ => ?_) ?_
    | with_reducible refine foldl_kept (fun _ _ _ => ?_) ?_

@[simp] theorem sendAll_kept (p : Nat) (l : List TxMsg) (h : Kept qs vr s) :
    Kept qs vr (sendAll s p l) := by
  unfold sendAll
  simp [h]

@[simp] theorem sendCtl_kept (part pkg : Nat) (route : Option (List Nat)) (o : Out) (h : Kept qs vr s) :
    Kept qs vr (sendCtl s part pkg route o) := by
  unfold sendCtl
  repeat' first
    | with_reducible assumption
    | with_reducible refine kept_ite ?_ ?_
    | with_reducible apply sendAll_kept
    | with_reducible refine (kept_emit _).2 ?_
    | with_reducible refine forAll_kept (fun _ _ _ => ?_) ?_
    | with_reducible refine foldl_kept (fun _ _ _ => ?_) ?_
    | extract_lets
    | split

@[simp] theorem answerWith_kept (f tag status detail : Nat) (payload ext : List Byte) (waits : Bool) (h : Kept qs vr s) :
    Kept qs vr (answerWith s f tag status detail payload ext waits) := by
  unfold answerWith
  repeat' first
    | with_reducible assumption
    | with_reducible refine kept_ite ?_ ?_
    | with_reducible refine (kept_modFunc _ _).2 ?_
    | with_reducible refine forAll_kept (fun _ _ _ => ?_) ?_
    | with_reducible refine foldl_kept (fun _ _ _ => ?_) ?_
    | extract_lets
    | split

@[simp] theorem answer_kept (f tag status detail : Nat) (h : Kept qs vr s) :
    Kept qs vr (answer s f tag status detail) := by
  unfold answer
  simp [h]

@[simp] theorem answerOpt_kept (r : Option (Nat × Nat)) (status detail : Nat) (h : Kept qs vr s) :
    Kept qs vr (answerOpt s r status detail) := by
  unfold answerOpt
  repeat' first
    | with_reducible assumption
    | with_reducible refine kept_ite ?_ ?_
    | with_reducible apply answer_kept
    | with_reducible refine forAll_kept (fun _ _ _ => ?_) ?_
    | with_reducible refine foldl_kept (fun _ _ _ => ?_) ?_
    | extract_lets
    | split

@[simp] theorem pushEntry_kept (f : Nat) (e : Entry) (h : Kept qs vr s) :
    Kept qs vr (pushEntry s f e) := by
  unfold pushEntry
  simp [h]

@[simp] theorem accrue_kept (slot : Nat) (h : Kept qs vr s) :
    Kept qs vr (accrue s slot) := by
  unfold accrue
  repeat' first
    | with_reducible assumption
    | with_reducible refine kept_ite ?_ ?_
    | with_reducible refine (kept_modCtx _ _).2 ?_
    | with_reducible refine (kept_modStep _ _).2 ?_
    | with_reducible refine forAll_kept (fun _ _ _ => ?_) ?_
    | with_reducible refine foldl_kept (fun _ _ _ => ?_) ?_
    | extract_lets
    | split

@[simp] theorem setState_kept (slot n : Nat) (h : Kept qs vr s) :
    Kept qs vr (setState s slot n) := by
  unfold setState
  simp [h]

@[simp] theorem closeWindow_kept (w : Nat) (h : Kept qs vr s) :
    Kept qs vr (closeWindow s w) := by
  unfold closeWindow
  repeat' first
    | with_reducible assumption
    | with_reducible refine kept_ite ?_ ?_
    | with_reducible refine (kept_modWindow _ _).2 ?_

@[simp] theorem closeWindows_kept (c : Window → Bool) (h : Kept qs vr s) :
    Kept qs vr (closeWindows s c) := by
  unfold closeWindows
  repeat' first
    | with_reducible assumption
    | with_reducible refine kept_ite ?_ ?_
    | with_reducible apply closeWindow_kept
    | with_reducible refine forAll_kept (fun _ _ _ => ?_) ?_

@[simp] theorem dropWork_kept (slot : Nat) (h : Kept qs vr s) :
    Kept qs vr (dropWork s slot) := by
  unfold dropWork
  repeat' first
    | with_reducible assumption
    | with_reducible refine kept_ite ?_ ?_
    | with_reducible apply closeWindows_kept
    | with_reducible refine forAll_kept (fun _ _ _ => ?_) ?_
    | with_reducible refine foldl_kept (fun _ _ _ => ?_) ?_
    | extract_lets
    | split
    | fail_if_no_progress with_reducible (conv => arg 3; whnf)
    | refine kept_upd ?_ rfl rfl rfl rfl

@[simp] theorem watchRelease_kept (slot : Nat) (st : Step) (h : Kept qs vr s) :
    Kept qs vr (watchRelease s slot st) := by
  unfold watchRelease
  repeat' first
    | with_reducible assumption
    | with_reducible refine kept_ite ?_ ?_
    | with_reducible apply objWrite_kept
    | with_reducible apply obsSpend_kept
    | with_reducible apply traceTrigger_kept
    | with_reducible refine (kept_modStep _ _).2 ?_
    | with_reducible refine (kept_modPart _ _).2 ?_
    | with_reducible refine forAll_kept (fun _ _ _ => ?_) ?_

@[simp] theorem noteDone_kept (slot : Nat) (h : Kept qs vr s) :
    Kept qs vr (noteDone s slot) := by
  unfold noteDone
  repeat' first
    | with_reducible assumption
    | with_reducible refine kept_ite ?_ ?_
    | with_reducible apply pushEntry_kept
    | with_reducible apply watchRelease_kept
    | with_reducible refine (kept_modStep _ _).2 ?_
    | with_reducible refine forAll_kept (fun _ _ _ => ?_) ?_
    | with_reducible refine foldl_kept (fun _ _ _ => ?_) ?_
    | extract_lets
    | split

@[simp] theorem reopen_kept (slot : Nat) (h : Kept qs vr s) :
    Kept qs vr (reopen s slot) := by
  unfold reopen
  repeat' first
    | with_reducible assumption
    | with_reducible refine kept_ite ?_ ?_
    | with_reducible apply objWrite_kept
    | with_reducible refine (kept_modStep _ _).2 ?_
    | with_reducible refine (kept_modFunc _ _).2 ?_
    | with_reducible refine forAll_kept (fun _ _ _ => ?_) ?_
    | with_reducible refine foldl_kept (fun _ _ _ => ?_) ?_
    | extract_lets
    | split

@[simp] theorem failRaw_kept (slot : Nat) (status : Code) (h : Kept qs vr s) :
    Kept qs vr (failRaw s slot status) := by
  unfold failRaw
  repeat' first
    | with_reducible assumption
    | with_reducible refine kept_ite ?_ ?_
    | with_reducible apply dropWork_kept
    | with_reducible apply noteDone_kept
    | with_reducible apply setState_kept
    | with_reducible refine (kept_modStep _ _).2 ?_
    | with_reducible refine forAll_kept (fun _ _ _ => ?_) ?_
    | with_reducible refine foldl_kept (fun _ _ _ => ?_) ?_
    | extract_lets
    | split

@[simp] theorem noticeTo_kept (j : Nat) (dest : List Nat) (n : Notice) (h : Kept qs vr s) :
    Kept qs vr (noticeTo s j dest n) := by
  unfold noticeTo
  repeat' first
    | with_reducible assumption
    | with_reducible refine kept_ite ?_ ?_
    | with_reducible apply sendCtl_kept
    | with_reducible refine forAll_kept (fun _ _ _ => ?_) ?_

@[simp] theorem sendNotice_kept (j origin : Nat) (n : Notice) (h : Kept qs vr s) :
    Kept qs vr (sendNotice s j origin n) := by
  unfold sendNotice
  repeat' first
    | with_reducible assumption
    | with_reducible refine kept_ite ?_ ?_
    | with_reducible apply noticeTo_kept

@[simp] theorem startAbort_kept (j jstep p : Nat) (cause code : Code) (lost : Bool) (h : Kept qs vr s) :
    Kept qs vr (startAbort s j jstep p cause code lost) := by
  unfold startAbort
  repeat' first
    | with_reducible assumption
    | with_reducible refine kept_ite ?_ ?_
    | with_reducible apply closeWindows_kept
    | with_reducible apply sendNotice_kept
    | with_reducible refine (kept_modJob _ _).2 ?_

@[simp] theorem failWith_kept (slot : Nat) (status code : Code) (h : Kept qs vr s) :
    Kept qs vr (failWith s slot status code) := by
  unfold failWith
  repeat' first
    | with_reducible assumption
    | with_reducible refine kept_ite ?_ ?_
    | with_reducible apply failRaw_kept
    | with_reducible apply startAbort_kept
    | with_reducible refine forAll_kept (fun _ _ _ => ?_) ?_
    | with_reducible refine foldl_kept (fun _ _ _ => ?_) ?_
    | extract_lets
    | split

@[simp] theorem failStep_kept (slot : Nat) (status : Code) (h : Kept qs vr s) :
    Kept qs vr (failStep s slot status) := by
  unfold failStep
  simp [h]

@[simp] theorem failAll_kept (c : Step → Bool) (status : Code) (h : Kept qs vr s) :
    Kept qs vr (failAll s c status) := by
  unfold failAll
  repeat' first
    | with_reducible assumption
    | with_reducible refine kept_ite ?_ ?_
    | with_reducible apply failStep_kept
    | with_reducible refine forAll_kept (fun _ _ _ => ?_) ?_

@[simp] theorem deleteJob_kept (j : Nat) (h : Kept qs vr s) :
    Kept qs vr (deleteJob s j) := by
  unfold deleteJob
  repeat' first
    | with_reducible assumption
    | with_reducible refine kept_ite ?_ ?_
    | with_reducible apply closeWindows_kept
    | with_reducible apply failAll_kept
    | with_reducible refine forAll_kept (fun _ _ _ => ?_) ?_
    | with_reducible refine foldl_kept (fun _ _ _ => ?_) ?_
    | extract_lets
    | split
    | fail_if_no_progress with_reducible (conv => arg 3; whnf)
    | refine kept_upd ?_ rfl rfl rfl rfl

@[simp] theorem breakJob_kept (j : Nat) (h : Kept qs vr s) :
    Kept qs vr (breakJob s j) := by
  unfold breakJob
  simp [h]

@[simp] theorem signalFence_kept (p i status : Nat) (h : Kept qs vr s) :
    Kept qs vr (signalFence s p i status) := by
  unfold signalFence
  repeat' first
    | with_reducible assumption
    | with_reducible refine kept_ite ?_ ?_
    | with_reducible apply failStep_kept
    | with_reducible apply pushEntry_kept
    | with_reducible refine (kept_modPart _ _).2 ?_
    | with_reducible refine (kept_modStep _ _).2 ?_
    | with_reducible refine forAll_kept (fun _ _ _ => ?_) ?_
    | with_reducible refine foldl_kept (fun _ _ _ => ?_) ?_
    | extract_lets
    | split

@[simp] theorem reap_kept (p : Nat) (h : Kept qs vr s) :
    Kept qs vr (reap s p) := by
  unfold reap
  simp [h]

@[simp] theorem teardown_kept (p c : Nat) (status : Code) (h : Kept qs vr s) :
    Kept qs vr (teardown s p c status) := by
  unfold teardown
  extract_lets x s1 owned s2 tr s3 s4 s5 s6 s7
  have h1 : Kept qs vr s1 := failAll_kept _ _ h
  have h2 : Kept qs vr s2 := forAll_kept (fun _ _ => signalFence_kept _ _ _) h1
  have h3 : Kept qs vr s3 := kept_ite (traceOff_kept _ h2) h2
  have h4 : Kept qs vr s4 := (kept_modPart _ _).2 h3
  have h5 : Kept qs vr s5 := (kept_modCtx _ _).2 h4
  have h6 : Kept qs vr s6 := h5.congr rfl rfl rfl rfl
  have h7 : Kept qs vr s7 := (kept_modPart _ _).2 h6
  exact answerOpt_kept _ _ _ (reap_kept _ h7)

@[simp] theorem sweepBobbins_kept (p : Nat) (h : Kept qs vr s) :
    Kept qs vr (sweepBobbins s p) := by
  unfold sweepBobbins
  simp [h]

@[simp] theorem armMonitor_kept (h : Kept qs vr s) :
    Kept qs vr (armMonitor s) := by
  unfold armMonitor
  simp [h]

@[simp] theorem finishStep_kept (slot : Nat) (late : Bool) (h : Kept qs vr s) :
    Kept qs vr (finishStep s slot late) := by
  unfold finishStep
  split
  · exact h
  · rename_i st _
    extract_lets s1 s2 s3 s4 s5 ok s6 s7 s8 s9 c
    have h1 : Kept qs vr s1 := traceStep_kept _ _ _ _ _ h
    have h2 : Kept qs vr s2 := accrue_kept _ h1
    have h3 : Kept qs vr s3 := kept_ite ((kept_modCtx _ _).2 h2) h2
    have h4 : Kept qs vr s4 := h3.congr rfl rfl rfl rfl
    have h5 : Kept qs vr s5 := armMonitor_kept h4
    have h6 : Kept qs vr s6 := forAll_kept (fun _ _ => signalFence_kept _ _ _) h5
    have h7 : Kept qs vr s7 := reap_kept _ h6
    have h8 : Kept qs vr s8 := sweepBobbins_kept _ h7
    have h9 : Kept qs vr s9 := kept_ite (h8.congr rfl rfl rfl rfl) h8
    exact kept_ite (teardown_kept _ _ _ h9) h9

@[simp] theorem raiseIbi_kept (h : Kept qs vr s) :
    Kept qs vr (raiseIbi s) := by
  unfold raiseIbi
  simp [h]

@[simp] theorem withIbi_kept {s : State} {t : State} (h : Kept qs vr t) :
    Kept qs vr (withIbi s t) := by
  unfold withIbi
  repeat' first
    | with_reducible assumption
    | with_reducible refine kept_ite ?_ ?_
    | with_reducible apply raiseIbi_kept

@[simp] theorem cutFlash_kept (h : Kept qs vr s) :
    Kept qs vr (cutFlash s) := by
  unfold cutFlash
  repeat' first
    | with_reducible assumption
    | with_reducible refine kept_ite ?_ ?_
    | with_reducible refine (kept_modLife _ _).2 ?_
    | with_reducible refine draw_kept_of (by assumption) ?_
    | with_reducible refine forAll_kept (fun _ _ _ => ?_) ?_
    | with_reducible refine foldl_kept (fun _ _ _ => ?_) ?_
    | extract_lets
    | split
    | fail_if_no_progress with_reducible (conv => arg 3; whnf)
    | refine kept_upd ?_ rfl rfl rfl rfl

@[simp] theorem enterReset_kept (cause : Nat) (code : Code) (h : Kept qs vr s) :
    Kept qs vr (enterReset s cause code) := by
  unfold enterReset
  extract_lets s1 first
  have h1 : Kept qs vr s1 := cutFlash_kept h
  exact ⟨h1.1, h1.2.1, rfl, h1.2.2.2.1, by simp [collReset]⟩

@[simp] theorem drawKeys_kept (h : Kept qs vr s) :
    Kept qs vr (drawKeys s) := by
  unfold drawKeys
  split
  rename_i k t e
  have ht : Kept qs vr t := drawKey_kept_of e h
  refine forAll_kept (fun u f hu => ?_) ((kept_modLife _).2 ht)
  split
  rename_i k' w e'
  exact (kept_modFunc _ _).2 (drawKey_kept_of e' hu)

@[simp] theorem early_kept (c : Code) (h : Kept qs vr s) :
    Kept qs vr (early s c) := by
  exact modColl_kept id h

@[simp] theorem beginStart_kept (tries : Nat) (h : Kept qs vr s) :
    Kept qs vr (beginStart s tries) := by
  unfold beginStart
  extract_lets s1 s2 l
  have h1 : Kept qs vr s1 := h.congr rfl rfl rfl rfl
  have h2 : Kept qs vr s2 := (kept_emit _).2 h1
  split
  extract_lets _ _ s3 s4 s5
  have h3 : Kept qs vr s3 := h2.congr rfl rfl rfl rfl
  have h4 : Kept qs vr s4 := (kept_modAon _).2 h3
  have h5 : Kept qs vr s5 := kept_ite (drawKeys_kept h4) h4
  exact kept_ite (early_kept _ h5) h5

@[simp] theorem startIfFree_kept (h : Kept qs vr s) :
    Kept qs vr (startIfFree s) := by
  unfold startIfFree
  exact kept_ite (beginStart_kept _ h) h

@[simp] theorem selfReset_kept (cause : Nat) (code : Code) (h : Kept qs vr s) :
    Kept qs vr (selfReset s cause code) := by
  unfold selfReset
  exact withIbi_kept (startIfFree_kept (enterReset_kept _ _ h))

theorem dropLast_length_le {α : Type} (c : α → Bool) (l : List α) : (dropLast c l).length ≤ l.length := by
  unfold dropLast
  split
  · simp only [List.length_reverse]
    exact le_trans (List.length_eraseIdx_le _ _) (by simp)
  · exact le_rfl

theorem dropLast_length_lt {α : Type} (c : α → Bool) (l : List α) (h : l.any c = true) : (dropLast c l).length < l.length := by
  unfold dropLast
  have hr : l.reverse.any c = true := by simpa using h
  split
  · rename_i i hi
    have hlt : i < l.reverse.length := by
      have := List.findIdx?_eq_some_iff_findIdx_eq.1 hi
      exact this.1
    simp only [List.length_reverse] at hlt ⊢
    rw [List.length_eraseIdx_of_lt (by simpa using hlt)]
    simp only [List.length_reverse]
    omega
  · rename_i hn
    rw [List.findIdx?_eq_none_iff] at hn
    obtain ⟨x, hx, hc⟩ := List.any_eq_true.1 hr
    exact absurd (hn x hx) (by simp [hc])

theorem sortIn_length (c : Code) (n : Nat) (l : List Code) : (sortIn c n l).length = l.length + 1 := by
  induction n generalizing l with
  | zero => cases l <;> rfl
  | succ n ih =>
    cases l with
    | nil => rfl
    | cons x l =>
      unfold sortIn
      split
      · simp [ih]
      · simp

/-- The log keeps its bound (R419). -/
theorem logPut_length_le (n : Nat) (log : List Code) (c : Code) (h : log.length ≤ 32) : (logPut n log c).length ≤ 32 := by
  unfold logPut
  split
  · rw [sortIn_length]
    omega
  · split
    · rename_i ha
      rw [sortIn_length]
      have := dropLast_length_lt _ _ ha
      omega
    · split
      · exact h
      · rw [sortIn_length]
        simp only [List.length_take]
        omega

theorem mem_tput {α : Type} {t : Tab α} {k : Nat} {x : α} {e : Nat × α} (h : e ∈ tput t k x) : e = (k, x) ∨ e ∈ t := by
  induction t with
  | nil => simpa [tput] using h
  | cons a t ih =>
    obtain ⟨k', x'⟩ := a
    unfold tput at h
    split at h
    · simpa using h
    · split at h
      · rcases List.mem_cons.1 h with h | h
        · exact .inl h
        · exact .inr (List.mem_cons_of_mem _ h)
      · rcases List.mem_cons.1 h with h | h
        · exact .inr (h ▸ List.mem_cons_self)
        · exact (ih h).imp id (List.mem_cons_of_mem _)

theorem logCode_kept {c : Collector} (now : Nat) (k : Code) (h : CollKept c) : CollKept (logCode now c k) :=
  ⟨logPut_length_le _ _ _ h.1, h.2⟩

/-- Latching a code keeps the collector's bounds (R419, R420). -/
theorem latch_kept {c : Collector} (now : Nat) (k : Code) (h : CollKept c) : CollKept (latch now c k) := by
  have hl := logCode_kept now k h
  unfold latch
  extract_lets u x
  split
  · refine ⟨hl.1, fun e he => ?_⟩
    rcases mem_tput he with rfl | he
    · exact min_le_left _ _
    · exact hl.2 e he
  · split
    · exact ⟨hl.1, hl.2⟩
    · exact ⟨hl.1, hl.2⟩

@[simp] theorem setWithdrawn_kept (e w : Nat) (h : Kept qs vr s) :
    Kept qs vr (setWithdrawn s e w) := by
  unfold setWithdrawn
  repeat' first
    | with_reducible assumption
    | with_reducible refine kept_ite ?_ ?_
    | with_reducible refine (kept_modTile _ _).2 ?_
    | with_reducible refine (kept_modSorter _ _).2 ?_
    | with_reducible refine (kept_modMover _ _).2 ?_
    | with_reducible refine (kept_modReducer _ _).2 ?_

@[simp] theorem setTesting_kept (e : Nat) (r : Option (List (Nat × Nat))) (h : Kept qs vr s) :
    Kept qs vr (setTesting s e r) := by
  unfold setTesting
  repeat' first
    | with_reducible assumption
    | with_reducible refine kept_ite ?_ ?_
    | with_reducible refine (kept_modTile _ _).2 ?_
    | with_reducible refine (kept_modSorter _ _).2 ?_
    | with_reducible refine (kept_modMover _ _).2 ?_
    | with_reducible refine (kept_modReducer _ _).2 ?_

@[simp] theorem beginEngineReset_kept (e : Nat) (r : List (Nat × Nat)) (h : Kept qs vr s) :
    Kept qs vr (beginEngineReset s e r) := by
  unfold beginEngineReset
  repeat' first
    | with_reducible assumption
    | with_reducible refine kept_ite ?_ ?_
    | with_reducible apply failStep_kept
    | with_reducible apply setTesting_kept
    | with_reducible apply setWithdrawn_kept
    | with_reducible refine forAll_kept (fun _ _ _ => ?_) ?_

@[simp] theorem contain_kept (r : Report) (h : Kept qs vr s) :
    Kept qs vr (contain s r) := by
  unfold contain
  repeat' first
    | with_reducible assumption
    | with_reducible refine kept_ite ?_ ?_
    | with_reducible apply beginEngineReset_kept
    | with_reducible apply failWith_kept
    | with_reducible apply reopen_kept
    | with_reducible apply setWithdrawn_kept
    | with_reducible apply traceTrigger_kept
    | with_reducible refine modColl_kept ?_ ?_
    | exact fun h => ⟨h.1, h.2⟩
    | with_reducible refine forAll_kept (fun _ _ _ => ?_) ?_
    | with_reducible refine foldl_kept (fun _ _ _ => ?_) ?_
    | extract_lets
    | split

@[simp] theorem lostNotices_kept (code : Code) (h : Kept qs vr s) :
    Kept qs vr (lostNotices s code) := by
  unfold lostNotices
  repeat' first
    | with_reducible assumption
    | with_reducible refine kept_ite ?_ ?_
    | with_reducible apply startAbort_kept
    | with_reducible refine forAll_kept (fun _ _ _ => ?_) ?_

@[simp] theorem fatal_kept (c : Code) (h : Kept qs vr s) :
    Kept qs vr (fatal s c) := by
  unfold fatal
  extract_lets first s1 s2 s3 s4
  have h1 : Kept qs vr s1 := kept_ite (modColl_kept (fun h => ⟨h.1, h.2⟩) h) h
  have h2 : Kept qs vr s2 := kept_ite (lostNotices_kept _ h1) h1
  have h3 : Kept qs vr s3 := kept_ite ((kept_modLife _).2 h2) h2
  have h4 : Kept qs vr s4 := kept_ite ((kept_modAon _).2 h3) h3
  exact (kept_modAon _).2 h4

@[simp] theorem boundaryHold_kept (c : Code) (h : Kept qs vr s) :
    Kept qs vr (boundaryHold s c) := by
  unfold boundaryHold
  simp [h]

@[simp] theorem report_kept (r : Report) (h : Kept qs vr s) :
    Kept qs vr (report s r) := by
  unfold report
  extract_lets u t1 t2
  have h1 : Kept qs vr t1 := modColl_kept (fun hc => latch_kept (time s) r.code (c := { s.coll with recs := s.coll.recs ++ faultRecs s r }) ⟨hc.1, hc.2⟩) h
  have h2 : Kept qs vr t2 := kept_ite ((kept_modAon _).2 h1) h1
  exact kept_ite h (kept_ite (modColl_kept (fun hc => ⟨hc.1, hc.2⟩) h) (withIbi_kept (kept_ite h2 (kept_ite (contain_kept _ h2)
    (kept_ite (boundaryHold_kept _ h2) (fatal_kept _ h2))))))

@[simp] theorem reportCode_kept (c : Code) (h : Kept qs vr s) :
    Kept qs vr (reportCode s c) := by
  unfold reportCode
  simp [h]

@[simp] theorem initColl_kept (h : Kept qs vr s) :
    Kept qs vr (initColl s) := by
  unfold initColl
  repeat' first
    | with_reducible assumption
    | with_reducible refine kept_ite ?_ ?_
    | with_reducible apply early_kept
    | with_reducible apply report_kept
    | with_reducible refine modColl_kept ?_ ?_
    | exact fun h => ⟨h.1, h.2⟩
    | with_reducible refine forAll_kept (fun _ _ _ => ?_) ?_

@[simp] theorem readEffect_kept (func : Nat) (r : Region) (n : Nat) {t : State} (h : Kept qs vr s) (ht : Kept qs vr t) :
    Kept qs vr (readEffect s func r n t) := by
  unfold readEffect
  split
  · exact h
  · exact h
  · exact ht

@[simp] theorem take_kept (m : Msg) (h : Kept qs vr s) :
    Kept qs vr (take s m) := by
  unfold take
  repeat' first
    | with_reducible assumption
    | with_reducible refine kept_ite ?_ ?_
    | with_reducible refine (kept_modFunc _ _).2 ?_
    | with_reducible refine forAll_kept (fun _ _ _ => ?_) ?_
    | with_reducible refine foldl_kept (fun _ _ _ => ?_) ?_
    | extract_lets
    | split
    | fail_if_no_progress with_reducible (conv => arg 3; whnf)
    | refine kept_upd ?_ rfl rfl rfl rfl

@[simp] theorem requestRail_kept (d mv : Nat) (h : Kept qs vr s) :
    Kept qs vr (requestRail s d mv) := by
  unfold requestRail
  repeat' first
    | with_reducible assumption
    | with_reducible refine kept_ite ?_ ?_
    | with_reducible refine (kept_modRail _ _).2 ?_
    | with_reducible refine (kept_emit _).2 ?_

@[simp] theorem requestRails_kept (ds : List Nat) (h : Kept qs vr s) :
    Kept qs vr (requestRails s ds) := by
  unfold requestRails
  repeat' first
    | with_reducible assumption
    | with_reducible refine kept_ite ?_ ?_
    | with_reducible apply requestRail_kept
    | with_reducible refine forAll_kept (fun _ _ _ => ?_) ?_

@[simp] theorem retune_kept (p : Nat) (h : Kept qs vr s) :
    Kept qs vr (retune s p) := by
  unfold retune
  repeat' first
    | with_reducible assumption
    | with_reducible refine kept_ite ?_ ?_
    | with_reducible apply requestRails_kept
    | with_reducible refine (kept_modPart _ _).2 ?_
    | with_reducible refine (kept_modTile _ _).2 ?_
    | with_reducible refine forAll_kept (fun _ _ _ => ?_) ?_

@[simp] theorem setClock_kept (t n : Nat) (gated : Bool) (h : Kept qs vr s) :
    Kept qs vr (setClock s t n gated) := by
  unfold setClock
  repeat' first
    | with_reducible assumption
    | with_reducible refine kept_ite ?_ ?_
    | with_reducible refine (kept_modTile _ _).2 ?_

@[simp] theorem firstTune_kept (p : Nat) (h : Kept qs vr s) :
    Kept qs vr (firstTune s p) := by
  unfold firstTune
  simp [h]

@[simp] theorem startStop_kept (src : Nat) (h : Kept qs vr s) :
    Kept qs vr (startStop s src) := by
  unfold startStop
  repeat' first
    | with_reducible assumption
    | with_reducible refine kept_ite ?_ ?_
    | with_reducible apply traceRec_kept
    | with_reducible apply traceTrigger_kept
    | with_reducible refine (kept_modAon _ _).2 ?_
    | with_reducible refine forAll_kept (fun _ _ _ => ?_) ?_
    | with_reducible refine foldl_kept (fun _ _ _ => ?_) ?_
    | extract_lets
    | split
    | fail_if_no_progress with_reducible (conv => arg 3; whnf)
    | refine kept_upd ?_ rfl rfl rfl rfl

@[simp] theorem consume_kept (u k engine : Nat) (h : Kept qs vr s) :
    Kept qs vr (consume s u k engine) := by
  unfold consume
  repeat' first
    | with_reducible assumption
    | with_reducible refine kept_ite ?_ ?_
    | with_reducible refine modColl_kept ?_ ?_
    | exact fun h => ⟨h.1, h.2⟩

@[simp] theorem check_kept (u k engine : Nat) (slots : List Nat) (h : Kept qs vr s) :
    Kept qs vr (check s u k engine slots) := by
  unfold check
  repeat' first
    | with_reducible assumption
    | with_reducible refine kept_ite ?_ ?_
    | with_reducible apply consume_kept
    | with_reducible apply report_kept

end Sys2Proof.Machine
end

