-- ==== Sys2Proof/Laws/KeptSkein.lean ====
section
/-! SUPPORT. Every operation of Store, Operands, Flags, Transport, Skein and Sched keeps what `Kept` says. -/

namespace Sys2Proof.Machine

variable {qs : List Instr} {vr : Variant} {s : State}

@[simp] theorem healChunk_kept (p : Nat) (b : Bobbin) (c : Nat) (h : Kept qs vr s) :
    Kept qs vr (healChunk s p b c) := by
  unfold healChunk
  repeat' first
    | with_reducible assumption
    | with_reducible refine kept_ite ?_ ?_
    | with_reducible refine forAll_kept (fun _ _ _ => ?_) ?_
    | with_reducible refine foldl_kept (fun _ _ _ => ?_) ?_
    | extract_lets
    | split
    | fail_if_no_progress with_reducible (conv => arg 3; whnf)
    | refine kept_upd ?_ rfl rfl rfl rfl

/-- Writing bits keeps the canonical form. -/
theorem memWf_mbits {m : Mem} (base : Nat) (l : List (Nat × Nat × Nat)) (h : memWf m = true) : memWf (mbits m base l) = true := by
  unfold mbits
  induction l generalizing m with
  | nil => exact h
  | cons e l ih => exact ih (memWf_mwriteN _ _ h)

@[simp] theorem settleInter_kept (t : Option Nat) (st : Step) (i : Nat) (h : Kept qs vr s) :
    Kept qs vr (settleInter s t st i) := by
  unfold settleInter
  repeat' first
    | with_reducible assumption
    | with_reducible refine kept_ite ?_ ?_
    | with_reducible refine (kept_modPart _ _).2 ?_
    | with_reducible refine forAll_kept (fun _ _ _ => ?_) ?_
    | with_reducible refine foldl_kept (fun _ _ _ => ?_) ?_
    | extract_lets
    | split

@[simp] theorem writeBits_kept (pl : Place) (l : List (Nat × Nat × Nat)) (h : Kept qs vr s) :
    Kept qs vr (writeBits s pl l) := by
  unfold writeBits
  split
  · exact ⟨h.1, h.2.1, memWf_mbits _ _ h.2.2.1, h.2.2.2⟩
  · exact kept_upd h rfl rfl rfl rfl
  · exact h

@[simp] theorem poisonPlace_kept (pl : Place) (l : List (Nat × Nat)) (h : Kept qs vr s) :
    Kept qs vr (poisonPlace s pl l) := by
  unfold poisonPlace
  repeat' first
    | with_reducible assumption
    | with_reducible refine kept_ite ?_ ?_
    | with_reducible refine forAll_kept (fun _ _ _ => ?_) ?_
    | with_reducible refine foldl_kept (fun _ _ _ => ?_) ?_
    | extract_lets
    | split
    | fail_if_no_progress with_reducible (conv => arg 3; whnf)
    | refine kept_upd ?_ rfl rfl rfl rfl

@[simp] theorem putAll_kept (t slot : Nat) (l : List Put) (h : Kept qs vr s) :
    Kept qs vr (putAll s t slot l) := by
  unfold putAll
  repeat' first
    | with_reducible assumption
    | with_reducible refine kept_ite ?_ ?_
    | with_reducible apply poisonPlace_kept
    | with_reducible apply settleInter_kept
    | with_reducible apply writeBits_kept
    | with_reducible refine (kept_modStep _ _).2 ?_
    | with_reducible refine forAll_kept (fun _ _ _ => ?_) ?_
    | with_reducible refine foldl_kept (fun _ _ _ => ?_) ?_
    | extract_lets
    | split

@[simp] theorem watchOp_kept (slot ti : Nat) (vals : List Val) (puts : List Put) (h : Kept qs vr s) :
    Kept qs vr (watchOp s slot ti vals puts) := by
  unfold watchOp
  repeat' first
    | with_reducible assumption
    | with_reducible refine kept_ite ?_ ?_
    | with_reducible refine (kept_modPart _ _).2 ?_
    | with_reducible refine forAll_kept (fun _ _ _ => ?_) ?_
    | with_reducible refine foldl_kept (fun _ _ _ => ?_) ?_
    | extract_lets
    | split

@[simp] theorem withhold_kept (slot : Nat) (h : Kept qs vr s) :
    Kept qs vr (withhold s slot) := by
  unfold withhold
  simp [h]

@[simp] theorem withholdOp_kept (j m slot : Nat) (h : Kept qs vr s) :
    Kept qs vr (withholdOp s j m slot) := by
  unfold withholdOp
  repeat' first
    | with_reducible assumption
    | with_reducible refine kept_ite ?_ ?_
    | with_reducible apply consume_kept
    | with_reducible apply withhold_kept
    | with_reducible refine forAll_kept (fun _ _ _ => ?_) ?_
    | with_reducible refine foldl_kept (fun _ _ _ => ?_) ?_
    | extract_lets
    | split

@[simp] theorem skeinFault_kept (t slot cause : Nat) (h : Kept qs vr s) :
    Kept qs vr (skeinFault s t slot cause) := by
  unfold skeinFault
  simp [h]

@[simp] theorem setRun_kept (t : Nat) (r : SkeinRun) (h : Kept qs vr s) :
    Kept qs vr (setRun s t r) := by
  unfold setRun
  simp [h]

@[simp] theorem noteIssue_kept (t : Nat) (i : SkInsn) (r : SkeinRun) (st : Step) (h : Kept qs vr s) :
    Kept qs vr (noteIssue s t i r st) := by
  unfold noteIssue
  repeat' first
    | with_reducible assumption
    | with_reducible refine kept_ite ?_ ?_
    | with_reducible apply traceSkein_kept
    | with_reducible refine (kept_modPart _ _).2 ?_
    | with_reducible refine (kept_modStep _ _).2 ?_
    | with_reducible refine (kept_modTile _ _).2 ?_

@[simp] theorem setScalar_kept (t : Nat) (r : SkeinRun) (d : Nat) (v : BitVec 32) (h : Kept qs vr s) :
    Kept qs vr (setScalar s t r d v) := by
  unfold setScalar
  simp [h]

@[simp] theorem spoilView_kept (slot : Nat) (st : Step) (vi : Nat) (h : Kept qs vr s) :
    Kept qs vr (spoilView s slot st vi) := by
  unfold spoilView
  repeat' first
    | with_reducible assumption
    | with_reducible refine kept_ite ?_ ?_
    | with_reducible apply poisonPlace_kept
    | with_reducible refine forAll_kept (fun _ _ _ => ?_) ?_
    | with_reducible refine foldl_kept (fun _ _ _ => ?_) ?_
    | extract_lets
    | split

@[simp] theorem pathChecks_kept (t slot : Nat) (hits : List Nat) (h : Kept qs vr s) :
    Kept qs vr (pathChecks s t slot hits) := by
  unfold pathChecks
  repeat' first
    | with_reducible assumption
    | with_reducible refine kept_ite ?_ ?_
    | with_reducible apply check_kept
    | with_reducible refine forAll_kept (fun _ _ _ => ?_) ?_
    | with_reducible refine foldl_kept (fun _ _ _ => ?_) ?_
    | extract_lets
    | split

@[simp] theorem moved_kept (t slot : Nat) (st : Step) (vi n : Nat) (write : Bool) (h : Kept qs vr s) :
    Kept qs vr (moved s t slot st vi n write) := by
  unfold moved
  repeat' first
    | with_reducible assumption
    | with_reducible refine kept_ite ?_ ?_
    | with_reducible apply charge_kept
    | with_reducible apply pathChecks_kept
    | with_reducible apply touchLines_kept
    | with_reducible refine (kept_modStep _ _).2 ?_

@[simp] theorem copyRead_kept (t slot : Nat) (st : Step) (a : Nat) (h : Kept qs vr s) :
    Kept qs vr (copyRead s t slot st a) := by
  unfold copyRead
  repeat' first
    | with_reducible assumption
    | with_reducible refine kept_ite ?_ ?_
    | with_reducible apply check_kept
    | with_reducible apply report_kept
    | with_reducible apply spoilView_kept

@[simp] theorem copyView_kept (t slot : Nat) (st : Step) (a d : Nat) (h : Kept qs vr s) :
    Kept qs vr (copyView s t slot st a d) := by
  unfold copyView
  repeat' first
    | with_reducible assumption
    | with_reducible refine kept_ite ?_ ?_
    | with_reducible apply copyRead_kept
    | with_reducible apply moved_kept
    | with_reducible apply putAll_kept

@[simp] theorem addPlan_kept (q : Plan) (port : Nat) (h : Kept qs vr s) :
    Kept qs vr (addPlan s q port) := by
  unfold addPlan
  repeat' first
    | with_reducible assumption
    | with_reducible refine kept_ite ?_ ?_
    | with_reducible refine (kept_modReducer _ _).2 ?_
    | with_reducible refine forAll_kept (fun _ _ _ => ?_) ?_
    | with_reducible refine foldl_kept (fun _ _ _ => ?_) ?_
    | extract_lets
    | split
    | fail_if_no_progress with_reducible (conv => arg 3; whnf)
    | refine kept_upd ?_ rfl rfl rfl rfl

@[simp] theorem sortAccepted_kept (q : SortReq) (h : Kept qs vr s) :
    Kept qs vr (sortAccepted s q) := by
  unfold sortAccepted
  simp [h]

@[simp] theorem feedSorter_kept (d : Nat) (h : Kept qs vr s) :
    Kept qs vr (feedSorter s d) := by
  unfold feedSorter
  repeat' first
    | with_reducible assumption
    | with_reducible refine kept_ite ?_ ?_
    | with_reducible apply sortAccepted_kept
    | with_reducible refine (kept_modSorter _ _).2 ?_
    | with_reducible refine forAll_kept (fun _ _ _ => ?_) ?_
    | with_reducible refine foldl_kept (fun _ _ _ => ?_) ?_
    | extract_lets
    | split
    | fail_if_no_progress with_reducible (conv => arg 3; whnf)
    | refine kept_upd ?_ rfl rfl rfl rfl

@[simp] theorem touchBobbins_kept (st : Step) (h : Kept qs vr s) :
    Kept qs vr (touchBobbins s st) := by
  unfold touchBobbins
  simp [h]

@[simp] theorem logPlace_kept (st : Step) (skein tile : Nat) (retired replaced : Bool) (added : Bool := false) (h : Kept qs vr s) :
    Kept qs vr (logPlace s st skein tile retired replaced added) := by
  unfold logPlace
  repeat' first
    | with_reducible assumption
    | with_reducible refine kept_ite ?_ ?_
    | with_reducible apply objWrite_kept
    | with_reducible apply obsSpend_kept
    | with_reducible refine (kept_modCtx _ _).2 ?_

theorem retire_kept (n : Nat) (slot : Nat) (ks : List Nat) (h : Kept qs vr s) : Kept qs vr (retire n s slot ks) := by
  induction n generalizing s ks with
  | zero => exact h
  | succ n ih =>
    unfold retire
    split
    · exact h
    · split
      · exact h
      · extract_lets f here s1 idx s2
        have h1 : Kept qs vr s1 :=
          foldl_kept (fun _ _ hu => kept_ite (logPlace_kept _ _ _ _ _ _ (count_kept _ _ _ ((kept_modStep _ _).2 hu))) ((kept_modStep _ _).2 hu)) h
        exact ih _ ((kept_modStep _ _).2 h1)

@[simp] theorem retireFalse_kept (slot idx : Nat) (h : Kept qs vr s) : Kept qs vr (retireFalse s slot idx) := by
  unfold retireFalse
  split
  · exact h
  · exact retire_kept _ _ _ h

@[simp] theorem closeSort_kept (slot idx : Nat) (h : Kept qs vr s) :
    Kept qs vr (closeSort s slot idx) := by
  unfold closeSort
  simp [h]

@[simp] theorem evalCounts_kept (slot idx experts : Nat) (l : List (Nat × Nat)) (h : Kept qs vr s) :
    Kept qs vr (evalCounts s slot idx experts l) := by
  unfold evalCounts
  simp [h]

@[simp] theorem swapBank_kept (p : Nat) (cut : Bool) (h : Kept qs vr s) :
    Kept qs vr (swapBank s p cut) := by
  unfold swapBank
  repeat' first
    | with_reducible assumption
    | with_reducible refine kept_ite ?_ ?_
    | with_reducible refine (kept_modPart _ _).2 ?_

@[simp] theorem swapWatch_kept (p : Nat) (h : Kept qs vr s) :
    Kept qs vr (swapWatch s p) := by
  unfold swapWatch
  repeat' first
    | with_reducible assumption
    | with_reducible refine kept_ite ?_ ?_
    | with_reducible apply objWrite_kept
    | with_reducible apply staged_kept
    | with_reducible refine (kept_modPart _ _).2 ?_
    | with_reducible refine forAll_kept (fun _ _ _ => ?_) ?_
    | with_reducible refine foldl_kept (fun _ _ _ => ?_) ?_
    | extract_lets
    | split

@[simp] theorem swapStaged_kept (p : Nat) (h : Kept qs vr s) :
    Kept qs vr (swapStaged s p) := by
  unfold swapStaged
  repeat' first
    | with_reducible assumption
    | with_reducible refine kept_ite ?_ ?_
    | with_reducible apply reap_kept
    | with_reducible apply retune_kept
    | with_reducible apply staged_kept
    | with_reducible apply swapWatch_kept
    | with_reducible refine (kept_modPart _ _).2 ?_

@[simp] theorem enterBoundary_kept (p : Nat) (cut : Bool) (h : Kept qs vr s) :
    Kept qs vr (enterBoundary s p cut) := by
  unfold enterBoundary
  simp [h]

@[simp] theorem staged_kept (p : Nat) (h : Kept qs vr s) :
    Kept qs vr (staged s p) := by
  unfold staged
  repeat' first
    | with_reducible assumption
    | with_reducible refine kept_ite ?_ ?_
    | with_reducible apply retune_kept
    | with_reducible apply swapStaged_kept

@[simp] theorem freeDead_kept (slot : Nat) (keep : Nat → Bool) (h : Kept qs vr s) :
    Kept qs vr (freeDead s slot keep) := by
  unfold freeDead
  repeat' first
    | with_reducible assumption
    | with_reducible refine kept_ite ?_ ?_
    | with_reducible refine forAll_kept (fun _ _ _ => ?_) ?_
    | with_reducible refine foldl_kept (fun _ _ _ => ?_) ?_
    | extract_lets
    | split
    | fail_if_no_progress with_reducible (conv => arg 3; whnf)
    | refine kept_upd ?_ rfl rfl rfl rfl

@[simp] theorem unplace_kept (slot c : Nat) (h : Kept qs vr s) :
    Kept qs vr (unplace s slot c) := by
  unfold unplace
  repeat' first
    | with_reducible assumption
    | with_reducible refine kept_ite ?_ ?_
    | with_reducible refine (kept_modStep _ _).2 ?_
    | with_reducible refine forAll_kept (fun _ _ _ => ?_) ?_
    | with_reducible refine foldl_kept (fun _ _ _ => ?_) ?_
    | extract_lets
    | split
    | fail_if_no_progress with_reducible (conv => arg 3; whnf)
    | refine kept_upd ?_ rfl rfl rfl rfl

@[simp] theorem lastDone_kept (slot : Nat) (st : Step) (h : Kept qs vr s) :
    Kept qs vr (lastDone s slot st) := by
  unfold lastDone
  repeat' first
    | with_reducible assumption
    | with_reducible refine kept_ite ?_ ?_
    | with_reducible apply enterBoundary_kept
    | with_reducible apply setState_kept
    | with_reducible refine (kept_modPart _ _).2 ?_
    | with_reducible refine (kept_modStep _ _).2 ?_

@[simp] theorem settleSkeins_kept (slot : Nat) (h : Kept qs vr s) :
    Kept qs vr (settleSkeins s slot) := by
  unfold settleSkeins
  repeat' first
    | with_reducible assumption
    | with_reducible refine kept_ite ?_ ?_
    | with_reducible apply lastDone_kept
    | with_reducible refine forAll_kept (fun _ _ _ => ?_) ?_
    | with_reducible refine foldl_kept (fun _ _ _ => ?_) ?_
    | extract_lets
    | split

@[simp] theorem requestSwitch_kept (p req : Nat) (h : Kept qs vr s) :
    Kept qs vr (requestSwitch s p req) := by
  unfold requestSwitch
  repeat' first
    | with_reducible assumption
    | with_reducible refine kept_ite ?_ ?_
    | with_reducible apply unplace_kept
    | with_reducible refine (kept_modPart _ _).2 ?_
    | with_reducible refine forAll_kept (fun _ _ _ => ?_) ?_
    | with_reducible refine foldl_kept (fun _ _ _ => ?_) ?_
    | extract_lets
    | split

end Sys2Proof.Machine
end

