-- ==== Sys2Proof/Laws/KeptObjects.lean ====
section
/-! SUPPORT. Every operation of Bobbins, Boundary, Control, Sorter, Collective, Tile, Fabric, Split, Programs and Partitions keeps what
`Kept` says. -/

namespace Sys2Proof.Machine

variable {qs : List Instr} {vr : Variant} {s : State}

@[simp] theorem modBobbin_kept (p i : Nat) (f : Bobbin → Bobbin) (h : Kept qs vr s) :
    Kept qs vr (modBobbin s p i f) := by
  unfold modBobbin
  simp [h]

@[simp] theorem leaveStore_kept (p i : Nat) (h : Kept qs vr s) :
    Kept qs vr (leaveStore s p i) := by
  unfold leaveStore
  simp [h]

@[simp] theorem takePlaces_kept (p i : Nat) (h : Kept qs vr s) :
    Kept qs vr (takePlaces s p i) := by
  unfold takePlaces
  simp [h]

@[simp] theorem wantBobbin_kept (p i : Nat) (h : Kept qs vr s) :
    Kept qs vr (wantBobbin s p i) := by
  unfold wantBobbin
  repeat' first
    | with_reducible assumption
    | with_reducible refine kept_ite ?_ ?_
    | with_reducible apply modBobbin_kept
    | with_reducible refine (kept_modPart _ _).2 ?_

@[simp] theorem failFetch_kept (p i : Nat) (status : Code) (h : Kept qs vr s) :
    Kept qs vr (failFetch s p i status) := by
  unfold failFetch
  repeat' first
    | with_reducible assumption
    | with_reducible refine kept_ite ?_ ?_
    | with_reducible apply failStep_kept
    | with_reducible apply leaveStore_kept
    | with_reducible refine (kept_modPart _ _).2 ?_
    | with_reducible refine forAll_kept (fun _ _ _ => ?_) ?_

@[simp] theorem modFill_kept (p : Nat) (f : Fill → Fill) (h : Kept qs vr s) :
    Kept qs vr (modFill s p f) := by
  unfold modFill
  simp [h]

@[simp] theorem askChunks_kept (p : Nat) (b : Bobbin) (f : Fill) (cs : List Nat) (h : Kept qs vr s) :
    Kept qs vr (askChunks s p b f cs) := by
  unfold askChunks
  repeat' first
    | with_reducible assumption
    | with_reducible refine kept_ite ?_ ?_
    | with_reducible apply sendCtl_kept
    | with_reducible refine forAll_kept (fun _ _ _ => ?_) ?_

@[simp] theorem dealFill_kept (p : Nat) (cs : List Nat) (h : Kept qs vr s) :
    Kept qs vr (dealFill s p cs) := by
  unfold dealFill
  repeat' first
    | with_reducible assumption
    | with_reducible refine kept_ite ?_ ?_
    | with_reducible apply askChunks_kept
    | with_reducible apply failFetch_kept
    | with_reducible apply modFill_kept
    | with_reducible refine forAll_kept (fun _ _ _ => ?_) ?_
    | with_reducible refine foldl_kept (fun _ _ _ => ?_) ?_
    | extract_lets
    | split

@[simp] theorem probed_kept (p : Nat) (h : Kept qs vr s) :
    Kept qs vr (probed s p) := by
  unfold probed
  repeat' first
    | with_reducible assumption
    | with_reducible refine kept_ite ?_ ?_
    | with_reducible apply dealFill_kept
    | with_reducible refine forAll_kept (fun _ _ _ => ?_) ?_
    | with_reducible refine foldl_kept (fun _ _ _ => ?_) ?_
    | extract_lets
    | split

@[simp] theorem losePeers_kept (p : Nat) (gone : Nat → Bool) (h : Kept qs vr s) :
    Kept qs vr (losePeers s p gone) := by
  unfold losePeers
  repeat' first
    | with_reducible assumption
    | with_reducible refine kept_ite ?_ ?_
    | with_reducible apply dealFill_kept
    | with_reducible apply modFill_kept
    | with_reducible apply probed_kept
    | with_reducible refine forAll_kept (fun _ _ _ => ?_) ?_
    | with_reducible refine foldl_kept (fun _ _ _ => ?_) ?_
    | extract_lets
    | split

@[simp] theorem loseHost_kept (p : Nat) (h : Kept qs vr s) :
    Kept qs vr (loseHost s p) := by
  unfold loseHost
  repeat' first
    | with_reducible assumption
    | with_reducible refine kept_ite ?_ ?_
    | with_reducible apply dealFill_kept
    | with_reducible apply failFetch_kept
    | with_reducible refine forAll_kept (fun _ _ _ => ?_) ?_
    | with_reducible refine foldl_kept (fun _ _ _ => ?_) ?_
    | extract_lets
    | split

@[simp] theorem probeAnswered_kept (p pkg : Nat) (digest : BitVec 384) (chunks : List Nat) (rate : Nat) (h : Kept qs vr s) :
    Kept qs vr (probeAnswered s p pkg digest chunks rate) := by
  unfold probeAnswered
  repeat' first
    | with_reducible assumption
    | with_reducible refine kept_ite ?_ ?_
    | with_reducible apply modFill_kept
    | with_reducible apply probed_kept
    | with_reducible refine forAll_kept (fun _ _ _ => ?_) ?_
    | with_reducible refine foldl_kept (fun _ _ _ => ?_) ?_
    | extract_lets
    | split

@[simp] theorem serveChunks_kept (pkg : Nat) (digest : BitVec 384) (chunks : List Nat) (h : Kept qs vr s) :
    Kept qs vr (serveChunks s pkg digest chunks) := by
  unfold serveChunks
  repeat' first
    | with_reducible assumption
    | with_reducible refine kept_ite ?_ ?_
    | with_reducible apply modBobbin_kept
    | with_reducible apply sendAll_kept
    | with_reducible refine draw_kept_of (by assumption) ?_
    | with_reducible refine forAll_kept (fun _ _ _ => ?_) ?_
    | with_reducible refine foldl_kept (fun _ _ _ => ?_) ?_
    | extract_lets
    | split
    | fail_if_no_progress with_reducible (conv => arg 3; whnf)
    | refine kept_upd ?_ rfl rfl rfl rfl

@[simp] theorem refetch_kept (p chunk src : Nat) (h : Kept qs vr s) :
    Kept qs vr (refetch s p chunk src) := by
  unfold refetch
  repeat' first
    | with_reducible assumption
    | with_reducible refine kept_ite ?_ ?_
    | with_reducible apply askChunks_kept
    | with_reducible apply modFill_kept
    | with_reducible refine forAll_kept (fun _ _ _ => ?_) ?_
    | with_reducible refine foldl_kept (fun _ _ _ => ?_) ?_
    | extract_lets
    | split

@[simp] theorem writeBacking_kept (p i : Nat) (h : Kept qs vr s) :
    Kept qs vr (writeBacking s p i) := by
  unfold writeBacking
  repeat' first
    | with_reducible assumption
    | with_reducible refine kept_ite ?_ ?_
    | with_reducible apply countGlobal_kept
    | with_reducible apply modBobbin_kept
    | with_reducible refine (kept_modLife _ _).2 ?_
    | with_reducible refine (kept_emit _).2 ?_
    | with_reducible refine forAll_kept (fun _ _ _ => ?_) ?_
    | with_reducible refine foldl_kept (fun _ _ _ => ?_) ?_
    | extract_lets
    | split
    | fail_if_no_progress with_reducible (conv => arg 3; whnf)
    | refine kept_upd ?_ rfl rfl rfl rfl

@[simp] theorem removeBobbin_kept (p i : Nat) (h : Kept qs vr s) :
    Kept qs vr (removeBobbin s p i) := by
  unfold removeBobbin
  simp [h]

@[simp] theorem keepGrowth_kept (free : Bool) (h : Kept qs vr s) :
    Kept qs vr (keepGrowth s free) := by
  unfold keepGrowth
  simp [h]

@[simp] theorem note902_kept (h : Kept qs vr s) :
    Kept qs vr (note902 s) := by
  exact (kept_modLife _).2 (modColl_kept (logCode_kept _ _) h)

@[simp] theorem pwrRise_kept (h : Kept qs vr s) :
    Kept qs vr (pwrRise s) := by
  unfold pwrRise
  repeat' first
    | with_reducible assumption
    | with_reducible refine kept_ite ?_ ?_
    | with_reducible apply note902_kept
    | with_reducible refine (kept_modAon _ _).2 ?_
    | with_reducible refine forAll_kept (fun _ _ _ => ?_) ?_
    | with_reducible refine foldl_kept (fun _ _ _ => ?_) ?_
    | extract_lets
    | split
    | fail_if_no_progress with_reducible (conv => arg 3; whnf)
    | refine kept_upd ?_ rfl rfl rfl rfl

@[simp] theorem aonDown_kept (h : Kept qs vr s) :
    Kept qs vr (aonDown s) := by
  unfold aonDown
  have h1 : Kept qs vr (enterReset s 0 0) := enterReset_kept _ _ h
  exact ⟨h1.1, h1.2.1, h1.2.2.1, by simp [CollKept]⟩

@[simp] theorem beginWarm_kept (h : Kept qs vr s) :
    Kept qs vr (beginWarm s) := by
  unfold beginWarm
  repeat' first
    | with_reducible assumption
    | with_reducible refine kept_ite ?_ ?_
    | with_reducible refine (kept_modAon _ _).2 ?_
    | with_reducible refine (kept_modLife _ _).2 ?_
    | with_reducible refine (kept_emit _).2 ?_
    | with_reducible refine forAll_kept (fun _ _ _ => ?_) ?_
    | with_reducible refine foldl_kept (fun _ _ _ => ?_) ?_
    | extract_lets
    | split
    | fail_if_no_progress with_reducible (conv => arg 3; whnf)
    | refine kept_upd ?_ rfl rfl rfl rfl

@[simp] theorem failStart_kept (cause : Nat) (code : Code) (h : Kept qs vr s) :
    Kept qs vr (failStart s cause code) := by
  unfold failStart
  repeat' first
    | with_reducible assumption
    | with_reducible refine kept_ite ?_ ?_
    | with_reducible apply reportCode_kept
    | with_reducible refine (kept_modLife _ _).2 ?_
    | with_reducible refine forAll_kept (fun _ _ _ => ?_) ?_
    | with_reducible refine foldl_kept (fun _ _ _ => ?_) ?_
    | extract_lets
    | split
    | fail_if_no_progress with_reducible (conv => arg 3; whnf)
    | refine kept_upd ?_ rfl rfl rfl rfl

@[simp] theorem wakeUp_kept (h : Kept qs vr s) :
    Kept qs vr (wakeUp s) := by
  unfold wakeUp
  repeat' first
    | with_reducible assumption
    | with_reducible refine kept_ite ?_ ?_
    | with_reducible refine (kept_modAon _ _).2 ?_
    | with_reducible refine (kept_modPower _ _).2 ?_
    | with_reducible refine forAll_kept (fun _ _ _ => ?_) ?_
    | with_reducible refine foldl_kept (fun _ _ _ => ?_) ?_
    | extract_lets
    | split
    | fail_if_no_progress with_reducible (conv => arg 3; whnf)
    | refine kept_upd ?_ rfl rfl rfl rfl

@[simp] theorem takeAsk_kept (h i : Nat) (ms : List (Nat × Nat)) (sets : List Nat) (hs : Kept qs vr s) :
    Kept qs vr (takeAsk s h i ms sets) := by
  unfold takeAsk
  repeat' first
    | with_reducible assumption
    | with_reducible refine kept_ite ?_ ?_
    | with_reducible apply sendCtl_kept
    | with_reducible refine (kept_modJob _ _).2 ?_
    | with_reducible refine forAll_kept (fun _ _ _ => ?_) ?_
    | with_reducible refine foldl_kept (fun _ _ _ => ?_) ?_
    | extract_lets
    | split

@[simp] theorem setTable_kept (j : Nat) (table : Tab (List Nat)) (h : Kept qs vr s) :
    Kept qs vr (setTable s j table) := by
  unfold setTable
  simp [h]

@[simp] theorem installRoutes_kept (j : Nat) (h : Kept qs vr s) :
    Kept qs vr (installRoutes s j) := by
  unfold installRoutes
  repeat' first
    | with_reducible assumption
    | with_reducible refine kept_ite ?_ ?_
    | with_reducible apply sendCtl_kept
    | with_reducible apply setTable_kept
    | with_reducible refine (kept_modJob _ _).2 ?_
    | with_reducible refine forAll_kept (fun _ _ _ => ?_) ?_

@[simp] theorem dropJob_kept (j : Nat) (h : Kept qs vr s) :
    Kept qs vr (dropJob s j) := by
  unfold dropJob
  repeat' first
    | with_reducible assumption
    | with_reducible refine kept_ite ?_ ?_
    | with_reducible apply deleteJob_kept
    | with_reducible apply sendCtl_kept
    | with_reducible refine forAll_kept (fun _ _ _ => ?_) ?_

@[simp] theorem takeAnswer_kept (h i : Nat) (ok : Bool) (pgen startNo store rest : Nat) (hs : Kept qs vr s) :
    Kept qs vr (takeAnswer s h i ok pgen startNo store rest) := by
  unfold takeAnswer
  repeat' first
    | with_reducible assumption
    | with_reducible refine kept_ite ?_ ?_
    | with_reducible apply answerOpt_kept
    | with_reducible apply breakJob_kept
    | with_reducible apply dropJob_kept
    | with_reducible apply installRoutes_kept
    | with_reducible refine (kept_modJob _ _).2 ?_
    | with_reducible refine forAll_kept (fun _ _ _ => ?_) ?_
    | with_reducible refine foldl_kept (fun _ _ _ => ?_) ?_
    | extract_lets
    | split

theorem takeProgress_kept {h jstep : Nat} {f : State → Nat → State} (hf : ∀ t k, Kept qs vr t → Kept qs vr (f t k))
    (hs : Kept qs vr s) : Kept qs vr (takeProgress s h jstep f) := by
  unfold takeProgress
  split
  · exact hs
  · exact forAll_kept (fun _ _ hu => settleSkeins_kept _ (hf _ _ hu)) hs

@[simp] theorem serveFetch_kept (x : FetchAsk) (h : Kept qs vr s) : Kept qs vr (serveFetch s x) := by
  unfold serveFetch
  repeat' first
    | with_reducible assumption
    | with_reducible refine kept_ite ?_ ?_
    | with_reducible apply sendAll_kept
    | with_reducible apply touchLines_kept
    | with_reducible refine forAll_kept (fun _ _ _ => ?_) ?_
    | extract_lets
    | split

@[simp] theorem takeCtl_kept (c : Ctl) (h : Kept qs vr s) : Kept qs vr (takeCtl s c) := by
  unfold takeCtl
  split
  · exact kept_ite (probeAnswered_kept _ _ _ _ _ h) h
  · exact serveChunks_kept _ _ _ h
  · exact takeAsk_kept _ _ _ _ h
  · exact takeAnswer_kept _ _ _ _ _ _ _ h
  · split
    · exact setTable_kept _ _ h
    · exact h
  · split
    · exact deleteJob_kept _ h
    · exact h
  · split
    · exact (kept_modJob _ _).2 h
    · exact h
  · exact takeProgress_kept (fun _ _ hu => (kept_modStep _ _).2 hu) h
  · exact takeProgress_kept (fun _ _ hu => evalCounts_kept _ _ _ _ hu) h
  · exact serveFetch_kept _ h

@[simp] theorem tell_kept (part pkg : Nat) (route : Option (List Nat)) (c : Ctl) (h : Kept qs vr s) :
    Kept qs vr (tell s part pkg route c) := by
  unfold tell
  repeat' first
    | with_reducible assumption
    | with_reducible refine kept_ite ?_ ?_
    | with_reducible apply sendCtl_kept
    | with_reducible apply takeCtl_kept

@[simp] theorem tellPeers_kept (st : Step) (c : Nat → Nat → Ctl) (h : Kept qs vr s) :
    Kept qs vr (tellPeers s st c) := by
  unfold tellPeers
  repeat' first
    | with_reducible assumption
    | with_reducible refine kept_ite ?_ ?_
    | with_reducible apply tell_kept
    | with_reducible refine forAll_kept (fun _ _ _ => ?_) ?_
    | with_reducible refine foldl_kept (fun _ _ _ => ?_) ?_
    | extract_lets
    | split

@[simp] theorem writeSort_kept (p : Nat) (d : SortDesc) (cands : List (List Nat)) (r : SortRun) (remoteCells : Nat) (h : Kept qs vr s) :
    Kept qs vr (writeSort s p d cands r remoteCells) := by
  unfold writeSort
  repeat' first
    | with_reducible assumption
    | with_reducible refine kept_ite ?_ ?_
    | with_reducible apply hbmWrite_kept
    | with_reducible apply touchLines_kept
    | with_reducible refine forAll_kept (fun _ _ _ => ?_) ?_

@[simp] theorem requestDone_kept (slot : Nat) (h : Kept qs vr s) :
    Kept qs vr (requestDone s slot) := by
  unfold requestDone
  simp [h]

@[simp] theorem sendBuckets_kept (q : SortReq) (die : Nat) (d : SortDesc) (cands : List (List Nat)) (r : SortRun) (j : Nat) (h : Kept qs vr s) :
    Kept qs vr (sendBuckets s q die d cands r j) := by
  unfold sendBuckets
  repeat' first
    | with_reducible assumption
    | with_reducible refine kept_ite ?_ ?_
    | with_reducible apply sendAll_kept
    | with_reducible apply withholdOp_kept
    | with_reducible refine draw_kept_of (by assumption) ?_
    | with_reducible refine forAll_kept (fun _ _ _ => ?_) ?_
    | with_reducible refine foldl_kept (fun _ _ _ => ?_) ?_
    | extract_lets
    | split
    | fail_if_no_progress with_reducible (conv => arg 3; whnf)
    | refine kept_upd ?_ rfl rfl rfl rfl

@[simp] theorem settleExpert_kept (slot idx e : Nat) (h : Kept qs vr s) :
    Kept qs vr (settleExpert s slot idx e) := by
  unfold settleExpert
  repeat' first
    | with_reducible assumption
    | with_reducible refine kept_ite ?_ ?_
    | with_reducible apply evalCounts_kept
    | with_reducible refine forAll_kept (fun _ _ _ => ?_) ?_
    | with_reducible refine foldl_kept (fun _ _ _ => ?_) ?_
    | extract_lets
    | split

@[simp] theorem sortCounted_kept (q : SortReq) (d : SortDesc) (r : SortRun) (h : Kept qs vr s) :
    Kept qs vr (sortCounted s q d r) := by
  unfold sortCounted
  repeat' first
    | with_reducible assumption
    | with_reducible refine kept_ite ?_ ?_
    | with_reducible apply evalCounts_kept
    | with_reducible apply settleExpert_kept
    | with_reducible refine (kept_modStep _ _).2 ?_
    | with_reducible refine forAll_kept (fun _ _ _ => ?_) ?_

@[simp] theorem writeUnits_kept (o : RemOp) (c : Coll) (e : Nat) (us : List (List Byte × Bool)) (h : Kept qs vr s) :
    Kept qs vr (writeUnits s o c e us) := by
  unfold writeUnits
  repeat' first
    | with_reducible assumption
    | with_reducible refine kept_ite ?_ ?_
    | with_reducible apply putAll_kept
    | with_reducible apply touchLines_kept
    | with_reducible refine forAll_kept (fun _ _ _ => ?_) ?_
    | with_reducible refine foldl_kept (fun _ _ _ => ?_) ?_
    | extract_lets
    | split

@[simp] theorem sendUnits_kept (eng : Nat) (o : RemOp) (c : Coll) (rev : Bool) (n pos : Nat) (us : List (List Byte × Bool)) (h : Kept qs vr s) :
    Kept qs vr (sendUnits s eng o c rev n pos us) := by
  unfold sendUnits
  repeat' first
    | with_reducible assumption
    | with_reducible refine kept_ite ?_ ?_
    | with_reducible apply sendAll_kept
    | with_reducible apply withholdOp_kept
    | with_reducible refine forAll_kept (fun _ _ _ => ?_) ?_
    | with_reducible refine foldl_kept (fun _ _ _ => ?_) ?_
    | extract_lets
    | split

@[simp] theorem flowStart_kept (eng : Nat) (o : RemOp) (c : Coll) (rev : Bool) (h : Kept qs vr s) :
    Kept qs vr (flowStart s eng o c rev) := by
  unfold flowStart
  repeat' first
    | with_reducible assumption
    | with_reducible refine kept_ite ?_ ?_
    | with_reducible apply sendUnits_kept
    | with_reducible apply writeUnits_kept

@[simp] theorem takeSums_kept (eng : Nat) (o : RemOp) (c : Coll) (rev : Bool) (e : Nat) (vs : List (Nat × Bool)) (h : Kept qs vr s) :
    Kept qs vr (takeSums s eng o c rev e vs) := by
  unfold takeSums
  repeat' first
    | with_reducible assumption
    | with_reducible refine kept_ite ?_ ?_
    | with_reducible apply sendUnits_kept
    | with_reducible apply writeUnits_kept

@[simp] theorem takeUnits_kept (eng : Nat) (o : RemOp) (c : Coll) (rev : Bool) (e : Nat) (us : List (List Byte × Bool)) (h : Kept qs vr s) :
    Kept qs vr (takeUnits s eng o c rev e us) := by
  unfold takeUnits
  repeat' first
    | with_reducible assumption
    | with_reducible refine kept_ite ?_ ?_
    | with_reducible apply sendUnits_kept
    | with_reducible apply writeUnits_kept

@[simp] theorem takeChunk_kept (eng : Nat) (o : RemOp) (c : Coll) (rev : Bool) (x : Chunk) (h : Kept qs vr s) :
    Kept qs vr (takeChunk s eng o c rev x) := by
  unfold takeChunk
  repeat' first
    | with_reducible assumption
    | with_reducible refine kept_ite ?_ ?_
    | with_reducible apply takeSums_kept
    | with_reducible apply takeUnits_kept
    | with_reducible refine forAll_kept (fun _ _ _ => ?_) ?_
    | with_reducible refine foldl_kept (fun _ _ _ => ?_) ?_
    | extract_lets
    | split
    | fail_if_no_progress with_reducible (conv => arg 3; whnf)
    | refine kept_upd ?_ rfl rfl rfl rfl

@[simp] theorem collArrive_kept (o : RemOp) (x : Chunk) (h : Kept qs vr s) :
    Kept qs vr (collArrive s o x) := by
  unfold collArrive
  repeat' first
    | with_reducible assumption
    | with_reducible refine kept_ite ?_ ?_
    | with_reducible apply takeChunk_kept
    | with_reducible refine forAll_kept (fun _ _ _ => ?_) ?_
    | with_reducible refine foldl_kept (fun _ _ _ => ?_) ?_
    | extract_lets
    | split
    | fail_if_no_progress with_reducible (conv => arg 3; whnf)
    | refine kept_upd ?_ rfl rfl rfl rfl

@[simp] theorem planRun_kept (eng : Nat) (q : Plan) (h : Kept qs vr s) :
    Kept qs vr (planRun s eng q) := by
  unfold planRun
  repeat' first
    | with_reducible assumption
    | with_reducible refine kept_ite ?_ ?_
    | with_reducible apply flowStart_kept
    | with_reducible apply takeChunk_kept
    | with_reducible refine forAll_kept (fun _ _ _ => ?_) ?_
    | with_reducible refine foldl_kept (fun _ _ _ => ?_) ?_
    | extract_lets
    | split
    | fail_if_no_progress with_reducible (conv => arg 3; whnf)
    | refine kept_upd ?_ rfl rfl rfl rfl

@[simp] theorem traceAdded_kept (q : Plan) (kind t : Nat) (h : Kept qs vr s) :
    Kept qs vr (traceAdded s q kind t) := by
  unfold traceAdded
  repeat' first
    | with_reducible assumption
    | with_reducible refine kept_ite ?_ ?_
    | with_reducible apply traceRec_kept
    | with_reducible refine forAll_kept (fun _ _ _ => ?_) ?_
    | with_reducible refine foldl_kept (fun _ _ _ => ?_) ?_
    | extract_lets
    | split

theorem newOp_kept (slot t skein kind member dst want port : Nat) (added : Bool) (coll : Option Coll) (h : Kept qs vr s) :
    Kept qs vr (newOp s slot t skein kind member dst want port added coll).2 := by
  unfold newOp
  dsimp only [draw]
  refine kept_upd (s := ite _ _ _) ?_ rfl rfl rfl rfl
  refine kept_ite (kept_upd (s := ite _ _ _) ?_ rfl rfl rfl rfl) ?_
  all_goals exact kept_ite (traceStep_kept _ _ _ _ _ (kept_draw.2 h)) (kept_draw.2 h)

theorem newOp_kept_of {slot t skein kind member dst want port : Nat} {added : Bool} {coll : Option Coll} {x : RemOp} {u : State}
    (e : newOp s slot t skein kind member dst want port added coll = (x, u)) (h : Kept qs vr s) : Kept qs vr u := by
  have : u = (newOp s slot t skein kind member dst want port added coll).2 := by rw [e]
  subst this
  exact newOp_kept _ _ _ _ _ _ _ _ _ _ h

@[simp] theorem addBuf_kept (t slot i base n : Nat) (h : Kept qs vr s) :
    Kept qs vr (addBuf s t slot i base n) := by
  unfold addBuf
  repeat' first
    | with_reducible assumption
    | with_reducible refine kept_ite ?_ ?_
    | with_reducible refine (kept_modTile _ _).2 ?_
    | with_reducible refine forAll_kept (fun _ _ _ => ?_) ?_
    | with_reducible refine foldl_kept (fun _ _ _ => ?_) ?_
    | extract_lets
    | split
    | fail_if_no_progress with_reducible (conv => arg 3; whnf)
    | refine kept_upd ?_ rfl rfl rfl rfl

@[simp] theorem seedTile_kept (t slot : Nat) (h : Kept qs vr s) :
    Kept qs vr (seedTile s t slot) := by
  unfold seedTile
  repeat' first
    | with_reducible assumption
    | with_reducible refine kept_ite ?_ ?_
    | with_reducible refine (kept_modTile _ _).2 ?_
    | with_reducible refine draw_kept_of (by assumption) ?_
    | with_reducible refine forAll_kept (fun _ _ _ => ?_) ?_
    | with_reducible refine foldl_kept (fun _ _ _ => ?_) ?_
    | extract_lets
    | split
    | fail_if_no_progress with_reducible (conv => arg 3; whnf)
    | refine kept_upd ?_ rfl rfl rfl rfl

@[simp] theorem closeSkipped_kept (slot : Nat) (idx : List Nat) (h : Kept qs vr s) :
    Kept qs vr (closeSkipped s slot idx) := by
  unfold closeSkipped
  repeat' first
    | with_reducible assumption
    | with_reducible refine kept_ite ?_ ?_
    | with_reducible apply closeSort_kept
    | with_reducible refine forAll_kept (fun _ _ _ => ?_) ?_
    | with_reducible refine foldl_kept (fun _ _ _ => ?_) ?_
    | extract_lets
    | split

@[simp] theorem splitSend_kept (t skein slot : Nat) (st : Step) (j v m : Nat) (h : Kept qs vr s) :
    Kept qs vr (splitSend s t skein slot st j v m) := by
  unfold splitSend
  split
  · exact withholdOp_kept _ _ _ h
  · extract_lets f src
    split
    rename_i e
    split
    rename_i e'
    exact sendAll_kept _ _ ((kept_modStep _ _).2 (draw_kept_of e' (newOp_kept_of e h)))

@[simp] theorem splitSkein_kept (t skein slot : Nat) (h : Kept qs vr s) :
    Kept qs vr (splitSkein s t skein slot) := by
  unfold splitSkein
  repeat' first
    | with_reducible assumption
    | with_reducible refine kept_ite ?_ ?_
    | with_reducible apply splitSend_kept
    | with_reducible apply tellPeers_kept
    | with_reducible refine forAll_kept (fun _ _ _ => ?_) ?_
    | with_reducible refine foldl_kept (fun _ _ _ => ?_) ?_
    | extract_lets
    | split

@[simp] theorem skeinDone_kept (t : Nat) (r : SkeinRun) (st : Step) (h : Kept qs vr s) :
    Kept qs vr (skeinDone s t r st) := by
  unfold skeinDone
  extract_lets f k s1 s2 s3
  have h3 : Kept qs vr s3 := traceSkein_kept _ _ _ _ _ _ ((kept_modStep _ _).2 ((kept_modTile _ _).2 h))
  clear_value s3
  exact settleSkeins_kept _ (splitSkein_kept _ _ _ (closeSkipped_kept _ _ (charge_kept _ _ _ _ _ _ (count_kept _ _ _
    (count_kept _ _ _ (count_kept _ _ _ (kept_draw.2 (kept_draw.2 (kept_draw.2 h3)))))))))

@[simp] theorem closeWin_kept (t : Nat) (vector : Bool) (h : Kept qs vr s) :
    Kept qs vr (closeWin s t vector) := by
  unfold closeWin
  simp [h]

@[simp] theorem dropPort_kept (p : Nat) (code : Code) (h : Kept qs vr s) :
    Kept qs vr (dropPort s p code) := by
  unfold dropPort
  repeat' first
    | with_reducible assumption
    | with_reducible refine kept_ite ?_ ?_
    | with_reducible apply failWith_kept
    | with_reducible apply losePeers_kept
    | with_reducible refine (kept_modPort _ _).2 ?_
    | with_reducible refine forAll_kept (fun _ _ _ => ?_) ?_

@[simp] theorem frameFailure_kept (port : Nat) (h : Kept qs vr s) :
    Kept qs vr (frameFailure s port) := by
  unfold frameFailure
  simp [h]

@[simp] theorem staleArrival_kept (window : Nat) (h : Kept qs vr s) :
    Kept qs vr (staleArrival s window) := by
  unfold staleArrival
  repeat' first
    | with_reducible assumption
    | with_reducible refine kept_ite ?_ ?_
    | with_reducible apply count_kept
    | with_reducible refine forAll_kept (fun _ _ _ => ?_) ?_
    | with_reducible refine foldl_kept (fun _ _ _ => ?_) ?_
    | extract_lets
    | split
    | fail_if_no_progress with_reducible (conv => arg 3; whnf)
    | refine kept_upd ?_ rfl rfl rfl rfl

@[simp] theorem modSkeinRun_kept (o : RemOp) (f : SkeinRun → SkeinRun) (h : Kept qs vr s) :
    Kept qs vr (modSkeinRun s o f) := by
  unfold modSkeinRun
  simp [h]

@[simp] theorem moverDone_kept (o : RemOp) (h : Kept qs vr s) :
    Kept qs vr (moverDone s o) := by
  unfold moverDone
  repeat' first
    | with_reducible assumption
    | with_reducible refine kept_ite ?_ ?_
    | with_reducible apply charge_kept
    | with_reducible apply traceStep_kept
    | with_reducible refine draw_kept_of (by assumption) ?_
    | with_reducible refine forAll_kept (fun _ _ _ => ?_) ?_
    | with_reducible refine foldl_kept (fun _ _ _ => ?_) ?_
    | extract_lets
    | split
    | fail_if_no_progress with_reducible (conv => arg 3; whnf)
    | refine kept_upd ?_ rfl rfl rfl rfl

@[simp] theorem splitDone_kept (o : RemOp) (h : Kept qs vr s) :
    Kept qs vr (splitDone s o) := by
  unfold splitDone
  repeat' first
    | with_reducible assumption
    | with_reducible refine kept_ite ?_ ?_
    | with_reducible apply tellPeers_kept
    | with_reducible refine forAll_kept (fun _ _ _ => ?_) ?_
    | with_reducible refine foldl_kept (fun _ _ _ => ?_) ?_
    | extract_lets
    | split

@[simp] theorem endOp_kept (o : RemOp) (h : Kept qs vr s) :
    Kept qs vr (endOp s o) := by
  unfold endOp
  repeat' first
    | with_reducible assumption
    | with_reducible refine kept_ite ?_ ?_
    | with_reducible apply modSkeinRun_kept
    | with_reducible apply moverDone_kept
    | with_reducible apply splitDone_kept
    | with_reducible refine (kept_modStep _ _).2 ?_
    | with_reducible refine forAll_kept (fun _ _ _ => ?_) ?_
    | with_reducible refine foldl_kept (fun _ _ _ => ?_) ?_
    | extract_lets
    | split
    | fail_if_no_progress with_reducible (conv => arg 3; whnf)
    | refine kept_upd ?_ rfl rfl rfl rfl

@[simp] theorem fetchDone_kept (o : RemOp) (h : Kept qs vr s) :
    Kept qs vr (fetchDone s o) := by
  unfold fetchDone
  repeat' first
    | with_reducible assumption
    | with_reducible refine kept_ite ?_ ?_
    | with_reducible apply endOp_kept
    | with_reducible apply putAll_kept
    | with_reducible refine forAll_kept (fun _ _ _ => ?_) ?_
    | with_reducible refine foldl_kept (fun _ _ _ => ?_) ?_
    | extract_lets
    | split

@[simp] theorem progress_kept (o : RemOp) (kind pos : Nat) (data : List Byte) (bad : List Nat) (h : Kept qs vr s) :
    Kept qs vr (progress s o kind pos data bad) := by
  unfold progress
  repeat' first
    | with_reducible assumption
    | with_reducible refine kept_ite ?_ ?_
    | with_reducible apply collArrive_kept
    | with_reducible apply endOp_kept
    | with_reducible apply fetchDone_kept
    | with_reducible refine forAll_kept (fun _ _ _ => ?_) ?_
    | with_reducible refine foldl_kept (fun _ _ _ => ?_) ?_
    | extract_lets
    | split
    | fail_if_no_progress with_reducible (conv => arg 3; whnf)
    | refine kept_upd ?_ rfl rfl rfl rfl

@[simp] theorem poisonLines_kept (p : Nat) (l : List Nat) (h : Kept qs vr s) :
    Kept qs vr (poisonLines s p l) := by
  unfold poisonLines
  repeat' first
    | with_reducible assumption
    | with_reducible refine kept_ite ?_ ?_
    | with_reducible refine forAll_kept (fun _ _ _ => ?_) ?_
    | with_reducible refine foldl_kept (fun _ _ _ => ?_) ?_
    | extract_lets
    | split
    | fail_if_no_progress with_reducible (conv => arg 3; whnf)
    | refine kept_upd ?_ rfl rfl rfl rfl

@[simp] theorem arrive_kept (port qp kind gen window pos bytes : Nat) (data : List Byte) (bad : List Nat) (h : Kept qs vr s) :
    Kept qs vr (arrive s port qp kind gen window pos bytes data bad) := by
  unfold arrive
  repeat' first
    | with_reducible assumption
    | with_reducible refine kept_ite ?_ ?_
    | with_reducible apply count_kept
    | with_reducible apply countGlobal_kept
    | with_reducible apply hbmWrite_kept
    | with_reducible apply poisonLines_kept
    | with_reducible apply progress_kept
    | with_reducible apply reportCode_kept
    | with_reducible apply staleArrival_kept
    | with_reducible apply touchLines_kept
    | with_reducible refine (kept_modPort _ _).2 ?_
    | with_reducible refine forAll_kept (fun _ _ _ => ?_) ?_
    | with_reducible refine foldl_kept (fun _ _ _ => ?_) ?_
    | extract_lets
    | split

@[simp] theorem startAdded_kept (t : Nat) (q : Plan) (h : Kept qs vr s) :
    Kept qs vr (startAdded s t q) := by
  unfold startAdded
  repeat' first
    | with_reducible assumption
    | with_reducible refine kept_ite ?_ ?_
    | with_reducible apply logPlace_kept
    | with_reducible apply traceAdded_kept
    | with_reducible refine (kept_modTile _ _).2 ?_
    | with_reducible refine forAll_kept (fun _ _ _ => ?_) ?_
    | with_reducible refine foldl_kept (fun _ _ _ => ?_) ?_
    | extract_lets
    | split
    | fail_if_no_progress with_reducible (conv => arg 3; whnf)
    | refine kept_upd ?_ rfl rfl rfl rfl

@[simp] theorem endPlan_kept (engine busy : Nat) (q : Plan) (st : Step) (o : RemOp) (h : Kept qs vr s) :
    Kept qs vr (endPlan s engine busy q st o) := by
  unfold endPlan
  repeat' first
    | with_reducible assumption
    | with_reducible refine kept_ite ?_ ?_
    | with_reducible apply charge_kept
    | with_reducible apply endOp_kept
    | with_reducible apply traceAdded_kept
    | with_reducible apply traceStep_kept
    | with_reducible refine (kept_modTile _ _).2 ?_
    | with_reducible refine (kept_modReducer _ _).2 ?_
    | with_reducible refine draw_kept_of (by assumption) ?_
    | with_reducible refine forAll_kept (fun _ _ _ => ?_) ?_
    | with_reducible refine foldl_kept (fun _ _ _ => ?_) ?_
    | extract_lets
    | split
    | fail_if_no_progress with_reducible (conv => arg 3; whnf)
    | refine kept_upd ?_ rfl rfl rfl rfl

theorem ensureShard_kept {p : Nat} {parent : BitVec 384} {img : List Byte} {share : Bool} {set : Nat} {q : Nat × Nat × Nat × Nat}
    (h : Kept qs vr s) : Kept qs vr (ensureShard s p parent img share set q).1 := by
  unfold ensureShard
  extract_lets cs d
  split
  · exact h
  · split
    · exact h
    · exact modBobbin_kept _ _ _ h

theorem shardFor_kept {p j i : Nat} (h : Kept qs vr s) : Kept qs vr (shardFor s p j i).1 := by
  unfold shardFor
  split
  · exact h
  · extract_lets b
    split
    · exact h
    · exact ensureShard_kept h

theorem onShard_kept {j : Nat} {st : Step} (h : Kept qs vr s) : Kept qs vr (onShard s j st).1 := by
  unfold onShard
  split
  · exact h
  · exact shardFor_kept h

theorem onShard_kept_of {j : Nat} {st : Step} {x : State × Step} (e : onShard s j st = x) (h : Kept qs vr s) : Kept qs vr x.1 := by
  subst e
  exact onShard_kept h

@[simp] theorem takeSplit_kept (p j : Nat) (x : Split) (h : Kept qs vr s) :
    Kept qs vr (takeSplit s p j x) := by
  unfold takeSplit
  extract_lets s1
  have h1 : Kept qs vr s1 := (kept_modJob _ _).2 h
  clear_value s1
  split
  · exact h1
  · split
    · exact h1
    · exact ensureShard_kept h1

@[simp] theorem modProg_kept (p i : Nat) (f : Program → Program) (h : Kept qs vr s) :
    Kept qs vr (modProg s p i f) := by
  unfold modProg
  simp [h]

@[simp] theorem dropProgram_kept (p i : Nat) (h : Kept qs vr s) :
    Kept qs vr (dropProgram s p i) := by
  unfold dropProgram
  simp [h]

@[simp] theorem askMembers_kept (j p : Nat) (h : Kept qs vr s) :
    Kept qs vr (askMembers s j p) := by
  unfold askMembers
  repeat' first
    | with_reducible assumption
    | with_reducible refine kept_ite ?_ ?_
    | with_reducible apply sendCtl_kept
    | with_reducible refine forAll_kept (fun _ _ _ => ?_) ?_

@[simp] theorem takeWays_kept (p : Nat) (x : Part) (h : Kept qs vr s) :
    Kept qs vr (takeWays s p x) := by
  unfold takeWays
  repeat' first
    | with_reducible assumption
    | with_reducible refine kept_ite ?_ ?_
    | with_reducible refine forAll_kept (fun _ _ _ => ?_) ?_
    | with_reducible refine foldl_kept (fun _ _ _ => ?_) ?_
    | extract_lets
    | split
    | fail_if_no_progress with_reducible (conv => arg 3; whnf)
    | refine kept_upd ?_ rfl rfl rfl rfl

@[simp] theorem abandonRequests_kept (p : Nat) (h : Kept qs vr s) :
    Kept qs vr (abandonRequests s p) := by
  unfold abandonRequests
  repeat' first
    | with_reducible assumption
    | with_reducible refine kept_ite ?_ ?_
    | with_reducible apply answer_kept
    | with_reducible refine forAll_kept (fun _ _ _ => ?_) ?_

@[simp] theorem closeGrants_kept (p : Nat) (h : Kept qs vr s) :
    Kept qs vr (closeGrants s p) := by
  unfold closeGrants
  repeat' first
    | with_reducible assumption
    | with_reducible refine kept_ite ?_ ?_
    | with_reducible refine forAll_kept (fun _ _ _ => ?_) ?_
    | with_reducible refine foldl_kept (fun _ _ _ => ?_) ?_
    | extract_lets
    | split
    | fail_if_no_progress with_reducible (conv => arg 3; whnf)
    | refine kept_upd ?_ rfl rfl rfl rfl

@[simp] theorem dropQueues_kept (p : Nat) (h : Kept qs vr s) :
    Kept qs vr (dropQueues s p) := by
  unfold dropQueues
  repeat' first
    | with_reducible assumption
    | with_reducible refine kept_ite ?_ ?_
    | with_reducible refine forAll_kept (fun _ _ _ => ?_) ?_
    | with_reducible refine foldl_kept (fun _ _ _ => ?_) ?_
    | extract_lets
    | split
    | fail_if_no_progress with_reducible (conv => arg 3; whnf)
    | refine kept_upd ?_ rfl rfl rfl rfl

@[simp] theorem stopServing_kept (p : Nat) (h : Kept qs vr s) :
    Kept qs vr (stopServing s p) := by
  unfold stopServing
  repeat' first
    | with_reducible assumption
    | with_reducible refine kept_ite ?_ ?_
    | with_reducible refine forAll_kept (fun _ _ _ => ?_) ?_
    | with_reducible refine foldl_kept (fun _ _ _ => ?_) ?_
    | extract_lets
    | split
    | fail_if_no_progress with_reducible (conv => arg 3; whnf)
    | refine kept_upd ?_ rfl rfl rfl rfl

@[simp] theorem beginDestroy_kept (p : Nat) (r : Nat × Nat) (h : Kept qs vr s) :
    Kept qs vr (beginDestroy s p r) := by
  unfold beginDestroy
  repeat' first
    | with_reducible assumption
    | with_reducible refine kept_ite ?_ ?_
    | with_reducible apply abandonRequests_kept
    | with_reducible apply closeGrants_kept
    | with_reducible apply closeWindows_kept
    | with_reducible apply dropJob_kept
    | with_reducible apply dropQueues_kept
    | with_reducible apply stopServing_kept
    | with_reducible apply teardown_kept
    | with_reducible apply traceOff_kept
    | with_reducible refine (kept_modPart _ _).2 ?_
    | with_reducible refine forAll_kept (fun _ _ _ => ?_) ?_
    | with_reducible refine foldl_kept (fun _ _ _ => ?_) ?_
    | extract_lets
    | split
    | fail_if_no_progress with_reducible (conv => arg 3; whnf)
    | refine kept_upd ?_ rfl rfl rfl rfl

@[simp] theorem scrubRecord_kept (kind p : Nat) (gs : List Nat) (h : Kept qs vr s) :
    Kept qs vr (scrubRecord s kind p gs) := by
  unfold scrubRecord
  repeat' first
    | with_reducible assumption
    | with_reducible refine kept_ite ?_ ?_
    | with_reducible refine forAll_kept (fun _ _ _ => ?_) ?_
    | with_reducible refine foldl_kept (fun _ _ _ => ?_) ?_
    | extract_lets
    | split
    | fail_if_no_progress with_reducible (conv => arg 3; whnf)
    | refine kept_upd ?_ rfl rfl rfl rfl

@[simp] theorem clearTiles_kept (p : Nat) (h : Kept qs vr s) :
    Kept qs vr (clearTiles s p) := by
  unfold clearTiles
  repeat' first
    | with_reducible assumption
    | with_reducible refine kept_ite ?_ ?_
    | with_reducible refine (kept_modTile _ _).2 ?_
    | with_reducible refine forAll_kept (fun _ _ _ => ?_) ?_

@[simp] theorem idleTiles_kept (p : Nat) (h : Kept qs vr s) :
    Kept qs vr (idleTiles s p) := by
  unfold idleTiles
  repeat' first
    | with_reducible assumption
    | with_reducible refine kept_ite ?_ ?_
    | with_reducible apply setClock_kept
    | with_reducible refine forAll_kept (fun _ _ _ => ?_) ?_

end Sys2Proof.Machine
end

