-- ==== Sys2Proof/Laws/KeptRecovery.lean ====
section
/-! SUPPORT. Every operation of Resets, Checks, Rings and Host keeps what `Kept` says. -/

namespace Sys2Proof.Machine

variable {qs : List Instr} {vr : Variant} {s : State}

@[simp] theorem endPartitionReset_kept (p : Nat) (h : Kept qs vr s) :
    Kept qs vr (endPartitionReset s p) := by
  unfold endPartitionReset
  repeat' first
    | with_reducible assumption
    | with_reducible refine kept_ite ?_ ?_
    | with_reducible apply answer_kept
    | with_reducible refine (kept_modPart _ _).2 ?_
    | with_reducible refine forAll_kept (fun _ _ _ => ?_) ?_
    | with_reducible refine foldl_kept (fun _ _ _ => ?_) ?_
    | extract_lets
    | split

@[simp] theorem joinReset_kept (p : Nat) (l : List (Nat × Nat × Option Nat)) (h : Kept qs vr s) :
    Kept qs vr (joinReset s p l) := by
  unfold joinReset
  simp [h]

@[simp] theorem resetPartition_kept (p : Nat) (l : List (Nat × Nat × Option Nat)) (h : Kept qs vr s) :
    Kept qs vr (resetPartition s p l) := by
  unfold resetPartition
  repeat' first
    | with_reducible assumption
    | with_reducible refine kept_ite ?_ ?_
    | with_reducible apply beginEngineReset_kept
    | with_reducible apply clearTiles_kept
    | with_reducible apply closeWindows_kept
    | with_reducible apply endPartitionReset_kept
    | with_reducible apply failAll_kept
    | with_reducible apply flushPart_kept
    | with_reducible apply joinReset_kept
    | with_reducible refine (kept_modPart _ _).2 ?_
    | with_reducible refine forAll_kept (fun _ _ _ => ?_) ?_

@[simp] theorem strandedSorts_kept (h : Kept qs vr s) :
    Kept qs vr (strandedSorts s) := by
  unfold strandedSorts
  repeat' first
    | with_reducible assumption
    | with_reducible refine kept_ite ?_ ?_
    | with_reducible apply failStep_kept
    | with_reducible refine forAll_kept (fun _ _ _ => ?_) ?_

@[simp] theorem withdraw_kept (e : Nat) (h : Kept qs vr s) :
    Kept qs vr (withdraw s e) := by
  unfold withdraw
  repeat' first
    | with_reducible assumption
    | with_reducible refine kept_ite ?_ ?_
    | with_reducible apply resetPartition_kept
    | with_reducible apply setWithdrawn_kept
    | with_reducible apply strandedSorts_kept
    | with_reducible refine forAll_kept (fun _ _ _ => ?_) ?_

@[simp] theorem reinit_kept (e : Nat) (h : Kept qs vr s) :
    Kept qs vr (reinit s e) := by
  unfold reinit
  repeat' first
    | with_reducible assumption
    | with_reducible refine kept_ite ?_ ?_
    | with_reducible refine (kept_modTile _ _).2 ?_
    | with_reducible refine (kept_modSorter _ _).2 ?_
    | with_reducible refine (kept_modMover _ _).2 ?_
    | with_reducible refine (kept_modReducer _ _).2 ?_
    | with_reducible refine draw_kept_of (by assumption) ?_
    | with_reducible refine forAll_kept (fun _ _ _ => ?_) ?_
    | with_reducible refine foldl_kept (fun _ _ _ => ?_) ?_
    | extract_lets
    | split
    | fail_if_no_progress with_reducible (conv => arg 3; whnf)
    | refine kept_upd ?_ rfl rfl rfl rfl

@[simp] theorem answerTest_kept (pass : Bool) (r : Nat × Nat) (h : Kept qs vr s) :
    Kept qs vr (answerTest s pass r) := by
  unfold answerTest
  repeat' first
    | with_reducible assumption
    | with_reducible refine kept_ite ?_ ?_
    | with_reducible apply answer_kept
    | with_reducible apply answerWith_kept
    | with_reducible refine forAll_kept (fun _ _ _ => ?_) ?_
    | with_reducible refine foldl_kept (fun _ _ _ => ?_) ?_
    | extract_lets
    | split

@[simp] theorem finishTest_kept (e : Nat) (pass : Bool) (h : Kept qs vr s) :
    Kept qs vr (finishTest s e pass) := by
  unfold finishTest
  repeat' first
    | with_reducible assumption
    | with_reducible refine kept_ite ?_ ?_
    | with_reducible apply answerTest_kept
    | with_reducible apply endPartitionReset_kept
    | with_reducible apply reinit_kept
    | with_reducible apply reportCode_kept
    | with_reducible apply setTesting_kept
    | with_reducible apply withdraw_kept
    | with_reducible refine (kept_modLife _ _).2 ?_
    | with_reducible refine modColl_kept ?_ ?_
    | exact fun h => ⟨h.1, h.2⟩
    | with_reducible refine forAll_kept (fun _ _ _ => ?_) ?_
    | with_reducible refine foldl_kept (fun _ _ _ => ?_) ?_
    | extract_lets
    | split
    | fail_if_no_progress with_reducible (conv => arg 3; whnf)
    | refine kept_upd ?_ rfl rfl rfl rfl

@[simp] theorem startupFail_kept (e : Nat) (h : Kept qs vr s) :
    Kept qs vr (startupFail s e) := by
  unfold startupFail
  repeat' first
    | with_reducible assumption
    | with_reducible refine kept_ite ?_ ?_
    | with_reducible apply reportCode_kept
    | with_reducible apply setWithdrawn_kept
    | with_reducible refine (kept_modLife _ _).2 ?_
    | with_reducible refine forAll_kept (fun _ _ _ => ?_) ?_
    | with_reducible refine foldl_kept (fun _ _ _ => ?_) ?_
    | extract_lets
    | split
    | fail_if_no_progress with_reducible (conv => arg 3; whnf)
    | refine kept_upd ?_ rfl rfl rfl rfl

@[simp] theorem startBlockReset_kept (h : Kept qs vr s) :
    Kept qs vr (startBlockReset s) := by
  unfold startBlockReset
  simp [h]

@[simp] theorem releaseReservations_kept (p : Nat) (h : Kept qs vr s) :
    Kept qs vr (releaseReservations s p) := by
  unfold releaseReservations
  simp [h]

@[simp] theorem reportSide_kept (r : Report) (h : Kept qs vr s) :
    Kept qs vr (reportSide s r) := by
  unfold reportSide
  repeat' first
    | with_reducible assumption
    | with_reducible refine kept_ite ?_ ?_
    | with_reducible apply failFetch_kept
    | with_reducible refine (kept_modTile _ _).2 ?_
    | with_reducible refine (kept_modPort _ _).2 ?_
    | with_reducible refine draw_kept_of (by assumption) ?_
    | with_reducible refine forAll_kept (fun _ _ _ => ?_) ?_
    | with_reducible refine foldl_kept (fun _ _ _ => ?_) ?_
    | extract_lets
    | split
    | fail_if_no_progress with_reducible (conv => arg 3; whnf)
    | refine kept_upd ?_ rfl rfl rfl rfl

@[simp] theorem expose_kept (code : Code) (u e last : Nat) (h : Kept qs vr s) :
    Kept qs vr (expose s code u e last) := by
  unfold expose
  repeat' first
    | with_reducible assumption
    | with_reducible refine kept_ite ?_ ?_
    | with_reducible apply reportCode_kept
    | with_reducible refine modColl_kept ?_ ?_
    | exact fun h => ⟨h.1, h.2⟩

@[simp] theorem throttlePart_kept (p : Nat) (h : Kept qs vr s) :
    Kept qs vr (throttlePart s p) := by
  unfold throttlePart
  repeat' first
    | with_reducible assumption
    | with_reducible refine kept_ite ?_ ?_
    | with_reducible refine (kept_modPart _ _).2 ?_
    | with_reducible refine (kept_modTile _ _).2 ?_
    | with_reducible refine draw_kept_of (by assumption) ?_
    | with_reducible refine forAll_kept (fun _ _ _ => ?_) ?_
    | with_reducible refine foldl_kept (fun _ _ _ => ?_) ?_
    | extract_lets
    | split
    | fail_if_no_progress with_reducible (conv => arg 3; whnf)
    | refine kept_upd ?_ rfl rfl rfl rfl

@[simp] theorem throttle_kept (h : Kept qs vr s) :
    Kept qs vr (throttle s) := by
  unfold throttle
  repeat' first
    | with_reducible assumption
    | with_reducible refine kept_ite ?_ ?_
    | with_reducible apply reportCode_kept
    | with_reducible apply throttlePart_kept
    | with_reducible refine (kept_modPower _ _).2 ?_
    | with_reducible refine forAll_kept (fun _ _ _ => ?_) ?_
    | with_reducible refine foldl_kept (fun _ _ _ => ?_) ?_
    | extract_lets
    | split
    | fail_if_no_progress with_reducible (conv => arg 3; whnf)
    | refine kept_upd ?_ rfl rfl rfl rfl

@[simp] theorem withdrawTiles_kept (ts : List Nat) (h : Kept qs vr s) :
    Kept qs vr (withdrawTiles s ts) := by
  unfold withdrawTiles
  repeat' first
    | with_reducible assumption
    | with_reducible refine kept_ite ?_ ?_
    | with_reducible apply failWith_kept
    | with_reducible apply setWithdrawn_kept
    | with_reducible refine modColl_kept ?_ ?_
    | exact fun h => ⟨h.1, h.2⟩
    | with_reducible refine forAll_kept (fun _ _ _ => ?_) ?_

@[simp] theorem analogueFail_kept (die item : Nat) (tiles : List Nat) (h : Kept qs vr s) :
    Kept qs vr (analogueFail s die item tiles) := by
  unfold analogueFail
  repeat' first
    | with_reducible assumption
    | with_reducible refine kept_ite ?_ ?_
    | with_reducible apply beginEngineReset_kept
    | with_reducible apply expose_kept
    | with_reducible apply reportCode_kept
    | with_reducible apply throttle_kept
    | with_reducible apply withdrawTiles_kept
    | with_reducible refine forAll_kept (fun _ _ _ => ?_) ?_
    | with_reducible refine foldl_kept (fun _ _ _ => ?_) ?_
    | extract_lets
    | split

@[simp] theorem rotate_kept (die : Nat) (h : Kept qs vr s) :
    Kept qs vr (rotate s die) := by
  unfold rotate
  simp [h]

@[simp] theorem openQueues_kept (c : Nat × Nat → Bool) (h : Kept qs vr s) :
    Kept qs vr (openQueues s c) := by
  unfold openQueues
  repeat' first
    | with_reducible assumption
    | with_reducible refine kept_ite ?_ ?_
    | with_reducible refine forAll_kept (fun _ _ _ => ?_) ?_
    | with_reducible refine foldl_kept (fun _ _ _ => ?_) ?_
    | extract_lets
    | split
    | fail_if_no_progress with_reducible (conv => arg 3; whnf)
    | refine kept_upd ?_ rfl rfl rfl rfl

@[simp] theorem postRsp_kept (f : Nat) (r : Rsp) (h : Kept qs vr s) :
    Kept qs vr (postRsp s f r) := by
  unfold postRsp
  repeat' first
    | with_reducible assumption
    | with_reducible refine kept_ite ?_ ?_
    | with_reducible apply openQueues_kept
    | with_reducible refine (kept_modFunc _ _).2 ?_
    | with_reducible refine (kept_emit _).2 ?_
    | with_reducible refine draw_kept_of (by assumption) ?_
    | with_reducible refine forAll_kept (fun _ _ _ => ?_) ?_
    | with_reducible refine foldl_kept (fun _ _ _ => ?_) ?_
    | extract_lets
    | split
    | fail_if_no_progress with_reducible (conv => arg 3; whnf)
    | refine kept_upd ?_ rfl rfl rfl rfl

@[simp] theorem posted_kept (e : Entry) (h : Kept qs vr s) :
    Kept qs vr (posted s e) := by
  unfold posted
  repeat' first
    | with_reducible assumption
    | with_reducible refine kept_ite ?_ ?_
    | with_reducible apply finishStep_kept
    | with_reducible refine forAll_kept (fun _ _ _ => ?_) ?_
    | with_reducible refine foldl_kept (fun _ _ _ => ?_) ?_
    | extract_lets
    | split

@[simp] theorem writeEvt_kept (f : Nat) (e : Entry) (h : Kept qs vr s) :
    Kept qs vr (writeEvt s f e) := by
  unfold writeEvt
  repeat' first
    | with_reducible assumption
    | with_reducible refine kept_ite ?_ ?_
    | with_reducible refine (kept_modFunc _ _).2 ?_
    | with_reducible refine (kept_emit _).2 ?_
    | with_reducible refine forAll_kept (fun _ _ _ => ?_) ?_
    | with_reducible refine foldl_kept (fun _ _ _ => ?_) ?_
    | extract_lets
    | split
    | fail_if_no_progress with_reducible (conv => arg 3; whnf)
    | refine kept_upd ?_ rfl rfl rfl rfl

@[simp] theorem noteRefused_kept (h : Kept qs vr s) :
    Kept qs vr (noteRefused s) := by
  unfold noteRefused
  repeat' first
    | with_reducible assumption
    | with_reducible refine kept_ite ?_ ?_
    | with_reducible apply reportCode_kept
    | with_reducible refine modColl_kept ?_ ?_
    | exact fun h => ⟨h.1, h.2⟩

theorem devAccess_kept (p off len : Nat) (write : Option (List Byte)) (grant : Bool) (h : Kept qs vr s) :
    Kept qs vr (devAccess s p off len write grant).1 := by
  unfold devAccess
  suffices H : ∀ (l : List (Nat × Nat)) (a : State × List Byte × List Bool), Kept qs vr a.1 → Kept qs vr (l.foldl (fun a l =>
      let s := a.1
      let ok := (List.range l.2).all fun i => served s p (l.1 + i) grant
      match write with
      | some bs => if ok then (hbmWrite s p l.1 (slice bs (l.1 - off) l.2), a.2) else (noteRefused s, a.2)
      | none =>
        if ok then (s, a.2.1 ++ hbmRead s p l.1 l.2, a.2.2 ++ List.replicate l.2 (hbmPoisoned s p l.1 l.2))
        else (noteRefused s, a.2.1 ++ List.replicate l.2 0xFF, a.2.2 ++ List.replicate l.2 true)) a).1 from H _ _ h
  intro l
  induction l with
  | nil => exact fun _ ha => ha
  | cons x l ih =>
    intro a ha
    refine ih _ ?_
    dsimp only
    split
    · split
      · exact hbmWrite_kept _ _ _ ha
      · exact noteRefused_kept ha
    · split
      · exact ha
      · exact noteRefused_kept ha

theorem devAnswer_kept (write : Option (List Byte)) {r : State × List Byte × List Bool} (h : Kept qs vr r.1) :
    Kept qs vr (devAnswer write r) := by
  unfold devAnswer
  split
  · exact h
  · exact (kept_emit _).2 h

@[simp] theorem devForced_kept (len : Nat) (write : Option (List Byte)) (v : Byte) (poison : Bool) (h : Kept qs vr s) :
    Kept qs vr (devForced s len write v poison) := by
  exact devAnswer_kept _ h

@[simp] theorem aperAccess_kept (off len : Nat) (write : Option (List Byte)) (h : Kept qs vr s) :
    Kept qs vr (aperAccess s off len write) := by
  unfold aperAccess
  exact kept_ite (devForced_kept _ _ _ _ h) (kept_ite (devForced_kept _ _ _ _ h) (kept_ite (devForced_kept _ _ _ _ h)
    (kept_ite (devForced_kept _ _ _ _ (noteRefused_kept h)) (devAnswer_kept _ (devAccess_kept _ _ _ _ _ h)))))

@[simp] theorem orphan_kept (f : Nat) (c : Taken → Bool) (h : Kept qs vr s) :
    Kept qs vr (orphan s f c) := by
  unfold orphan
  repeat' first
    | with_reducible assumption
    | with_reducible refine kept_ite ?_ ?_
    | with_reducible refine (kept_modFunc _ _).2 ?_
    | with_reducible refine forAll_kept (fun _ _ _ => ?_) ?_
    | with_reducible refine foldl_kept (fun _ _ _ => ?_) ?_
    | extract_lets
    | split
    | fail_if_no_progress with_reducible (conv => arg 3; whnf)
    | refine kept_upd ?_ rfl rfl rfl rfl

@[simp] theorem detach_kept (lost : List Nat) (f : Nat) (h : Kept qs vr s) :
    Kept qs vr (detach s lost f) := by
  unfold detach
  simp [h]

@[simp] theorem flrPart_kept (p : Nat) (h : Kept qs vr s) :
    Kept qs vr (flrPart s p) := by
  unfold flrPart
  repeat' first
    | with_reducible assumption
    | with_reducible refine kept_ite ?_ ?_
    | with_reducible apply dropQueues_kept
    | with_reducible apply failStep_kept
    | with_reducible apply finishStep_kept
    | with_reducible apply reap_kept
    | with_reducible apply staged_kept
    | with_reducible apply teardown_kept
    | with_reducible apply traceOff_kept
    | with_reducible refine (kept_modPart _ _).2 ?_
    | with_reducible refine forAll_kept (fun _ _ _ => ?_) ?_

end Sys2Proof.Machine
end

