-- ==== Sys2Proof/Laws/KeptSched.lean ====
section
/-! SUPPORT. Every operation of Scheduling, Jobs, Security, Lifecycle, Matrix, Observation, Whorl and Registers keeps what `Kept` says. -/

namespace Sys2Proof.Machine

variable {qs : List Instr} {vr : Variant} {s : State}

@[simp] theorem ringDoorbell_kept (func index tail : Nat) (h : Kept qs vr s) :
    Kept qs vr (ringDoorbell s func index tail) := by
  unfold ringDoorbell
  repeat' first
    | with_reducible assumption
    | with_reducible refine kept_ite ?_ ?_
    | with_reducible apply pushEntry_kept
    | with_reducible refine (kept_modQueue _ _).2 ?_
    | with_reducible refine forAll_kept (fun _ _ _ => ?_) ?_
    | with_reducible refine foldl_kept (fun _ _ _ => ?_) ?_
    | extract_lets
    | split

@[simp] theorem refuseStep_kept (slot : Nat) (st : Step) (d : List Byte) (status : Nat) (h : Kept qs vr s) :
    Kept qs vr (refuseStep s slot st d status) := by
  unfold refuseStep
  repeat' first
    | with_reducible assumption
    | with_reducible refine kept_ite ?_ ?_
    | with_reducible apply pushEntry_kept
    | with_reducible refine forAll_kept (fun _ _ _ => ?_) ?_
    | with_reducible refine foldl_kept (fun _ _ _ => ?_) ?_
    | extract_lets
    | split
    | fail_if_no_progress with_reducible (conv => arg 3; whnf)
    | refine kept_upd ?_ rfl rfl rfl rfl

@[simp] theorem openWindow_kept (p j base size kinds : Nat) (h : Kept qs vr s) :
    Kept qs vr (openWindow s p j base size kinds) := by
  unfold openWindow
  generalize freeWindow s = o
  cases o with
  | none => exact h
  | some w =>
    exact (kept_modWindow _ _).2 (kept_upd h rfl rfl rfl rfl)

@[simp] theorem openRecvWindows_kept (st : Step) (j : Nat) (h : Kept qs vr s) :
    Kept qs vr (openRecvWindows s st j) := by
  unfold openRecvWindows
  repeat' first
    | with_reducible assumption
    | with_reducible refine kept_ite ?_ ?_
    | with_reducible apply openWindow_kept
    | with_reducible refine forAll_kept (fun _ _ _ => ?_) ?_

@[simp] theorem openStepWindows_kept (slot : Nat) (st : Step) (h : Kept qs vr s) :
    Kept qs vr (openStepWindows s slot st) := by
  unfold openStepWindows
  split
  · exact h
  · refine openRecvWindows_kept _ _ (forAll_kept (fun t i ht => openWindow_kept _ _ _ _ _ (settleInter_kept _ _ _ ht)) ?_)
    refine forAll_kept (fun t i ht => ?_) h
    have h1 := settleInter_kept none st i ht
    extract_lets u
    split
    · exact openWindow_kept _ _ _ _ _ h1
    · exact h1

@[simp] theorem settleStep_kept (slot : Nat) (st : Step) (h : Kept qs vr s) :
    Kept qs vr (settleStep s slot st) := by
  unfold settleStep
  extract_lets st' s1 s2 s3 s4 seen n s5
  have h1 : Kept qs vr s1 := armMonitor_kept (kept_upd h rfl rfl rfl rfl)
  have h2 : Kept qs vr s2 := (kept_modPart _ _).2 h1
  have h3 : Kept qs vr s3 := forAll_kept (fun _ _ ht => wantBobbin_kept _ _ ht) h2
  have h4 : Kept qs vr s4 := openStepWindows_kept _ _ h3
  have h5 : Kept qs vr s5 := (kept_modStep _ _).2 h4
  exact kept_ite h5 (failStep_kept _ _ h5)

@[simp] theorem forwardJob_kept (j : Nat) (d : List Byte) (x : Split) (h : Kept qs vr s) :
    Kept qs vr (forwardJob s j d x) := by
  unfold forwardJob
  repeat' first
    | with_reducible assumption
    | with_reducible refine kept_ite ?_ ?_
    | with_reducible apply sendCtl_kept
    | with_reducible refine (kept_modJob _ _).2 ?_
    | with_reducible refine forAll_kept (fun _ _ _ => ?_) ?_

@[simp] theorem rerouteJobs_kept (p : Nat) (h : Kept qs vr s) :
    Kept qs vr (rerouteJobs s p) := by
  unfold rerouteJobs
  repeat' first
    | with_reducible assumption
    | with_reducible refine kept_ite ?_ ?_
    | with_reducible apply installRoutes_kept
    | with_reducible apply setTable_kept
    | with_reducible refine forAll_kept (fun _ _ _ => ?_) ?_

@[simp] theorem startStep_kept (slot : Nat) (st : Step) (h : Kept qs vr s) :
    Kept qs vr (startStep s slot st) := by
  unfold startStep
  repeat' first
    | with_reducible assumption
    | with_reducible refine kept_ite ?_ ?_
    | with_reducible apply setState_kept
    | with_reducible apply settleSkeins_kept
    | with_reducible apply touchBobbins_kept
    | with_reducible apply traceStep_kept
    | with_reducible refine (kept_modPart _ _).2 ?_
    | with_reducible refine (kept_modStep _ _).2 ?_
    | with_reducible refine forAll_kept (fun _ _ _ => ?_) ?_
    | with_reducible refine foldl_kept (fun _ _ _ => ?_) ?_
    | extract_lets
    | split
    | fail_if_no_progress with_reducible (conv => arg 3; whnf)
    | refine kept_upd ?_ rfl rfl rfl rfl

@[simp] theorem switchAway_kept (k : Nat) (st : Step) (spill : Bool) (h : Kept qs vr s) :
    Kept qs vr (switchAway s k st spill) := by
  unfold switchAway
  repeat' first
    | with_reducible assumption
    | with_reducible refine kept_ite ?_ ?_
    | with_reducible apply count_kept
    | with_reducible apply enterBoundary_kept
    | with_reducible apply freeDead_kept
    | with_reducible apply setState_kept
    | with_reducible apply traceStep_kept
    | with_reducible apply unplace_kept
    | with_reducible refine (kept_modPart _ _).2 ?_
    | with_reducible refine (kept_modCtx _ _).2 ?_
    | with_reducible refine (kept_modStep _ _).2 ?_

@[simp] theorem restoreBuf_kept (slot : Nat) (f : Upf.File) (st : Step) (pl : Nat × Nat × Nat) (h : Kept qs vr s) :
    Kept qs vr (restoreBuf s slot f st pl) := by
  unfold restoreBuf
  simp [h]

@[simp] theorem takeFallback_kept (slot : Nat) (st : Step) (h : Kept qs vr s) :
    Kept qs vr (takeFallback s slot st) := by
  unfold takeFallback
  repeat' first
    | with_reducible assumption
    | with_reducible refine kept_ite ?_ ?_
    | with_reducible apply count_kept
    | with_reducible apply freeDead_kept
    | with_reducible apply traceStep_kept
    | with_reducible apply unplace_kept
    | with_reducible refine (kept_modPart _ _).2 ?_
    | with_reducible refine (kept_modCtx _ _).2 ?_
    | with_reducible refine (kept_modStep _ _).2 ?_
    | with_reducible refine forAll_kept (fun _ _ _ => ?_) ?_
    | with_reducible refine foldl_kept (fun _ _ _ => ?_) ?_
    | extract_lets
    | split
    | fail_if_no_progress with_reducible (conv => arg 3; whnf)
    | refine kept_upd ?_ rfl rfl rfl rfl

@[simp] theorem tellGate_kept (st : Step) (h : Kept qs vr s) :
    Kept qs vr (tellGate s st) := by
  unfold tellGate
  repeat' first
    | with_reducible assumption
    | with_reducible refine kept_ite ?_ ?_
    | with_reducible apply tell_kept
    | with_reducible refine (kept_modJob _ _).2 ?_
    | with_reducible refine forAll_kept (fun _ _ _ => ?_) ?_
    | with_reducible refine foldl_kept (fun _ _ _ => ?_) ?_
    | extract_lets
    | split

@[simp] theorem removeNoticed_kept (slot : Nat) (h : Kept qs vr s) :
    Kept qs vr (removeNoticed s slot) := by
  unfold removeNoticed
  repeat' first
    | with_reducible assumption
    | with_reducible refine kept_ite ?_ ?_
    | with_reducible apply failRaw_kept
    | with_reducible apply reopen_kept
    | with_reducible apply finishStep_kept
    | with_reducible refine forAll_kept (fun _ _ _ => ?_) ?_
    | with_reducible refine foldl_kept (fun _ _ _ => ?_) ?_
    | extract_lets
    | split

@[simp] theorem relayNotice_kept (j : Nat) (n : Notice) (h : Kept qs vr s) :
    Kept qs vr (relayNotice s j n) := by
  unfold relayNotice
  repeat' first
    | with_reducible assumption
    | with_reducible refine kept_ite ?_ ?_
    | with_reducible apply noticeTo_kept

@[simp] theorem takeNotice_kept (n : Notice) (h : Kept qs vr s) :
    Kept qs vr (takeNotice s n) := by
  unfold takeNotice
  repeat' first
    | with_reducible assumption
    | with_reducible refine kept_ite ?_ ?_
    | with_reducible apply breakJob_kept
    | with_reducible apply closeWindows_kept
    | with_reducible apply relayNotice_kept
    | with_reducible apply removeNoticed_kept
    | with_reducible refine (kept_modJob _ _).2 ?_
    | with_reducible refine forAll_kept (fun _ _ _ => ?_) ?_
    | with_reducible refine foldl_kept (fun _ _ _ => ?_) ?_
    | extract_lets
    | split

@[simp] theorem spdmAns_kept (code : Nat) (data : List Byte) (h : Kept qs vr s) :
    Kept qs vr (spdmAns s code data) := by
  unfold spdmAns
  simp [h]

@[simp] theorem setSession_kept (n : Nat) (h : Kept qs vr s) :
    Kept qs vr (setSession s n) := by
  unfold setSession
  simp [h]

@[simp] theorem spdmReply_kept (q : SpdmReq) (h : Kept qs vr s) :
    Kept qs vr (spdmReply s q) := by
  unfold spdmReply
  repeat' first
    | with_reducible assumption
    | with_reducible refine kept_ite ?_ ?_
    | with_reducible apply setSession_kept
    | with_reducible apply spdmAns_kept
    | with_reducible refine (kept_modLife _ _).2 ?_
    | with_reducible refine forAll_kept (fun _ _ _ => ?_) ?_
    | with_reducible refine foldl_kept (fun _ _ _ => ?_) ?_
    | extract_lets
    | split
    | fail_if_no_progress with_reducible (conv => arg 3; whnf)
    | refine kept_upd ?_ rfl rfl rfl rfl

@[simp] theorem leaveSet_kept (set : Nat) (h : Kept qs vr s) :
    Kept qs vr (leaveSet s set) := by
  unfold leaveSet
  repeat' first
    | with_reducible assumption
    | with_reducible refine kept_ite ?_ ?_
    | with_reducible apply answerOpt_kept
    | with_reducible apply sweepBobbins_kept
    | with_reducible refine (kept_modPart _ _).2 ?_
    | with_reducible refine forAll_kept (fun _ _ _ => ?_) ?_

@[simp] theorem slotDone_kept (j : FlashJob) (ok : Bool) (h : Kept qs vr s) :
    Kept qs vr (slotDone s j ok) := by
  unfold slotDone
  repeat' first
    | with_reducible assumption
    | with_reducible refine kept_ite ?_ ?_
    | with_reducible apply answer_kept
    | with_reducible refine (kept_modLife _ _).2 ?_
    | with_reducible refine draw_kept_of (by assumption) ?_
    | with_reducible refine forAll_kept (fun _ _ _ => ?_) ?_
    | with_reducible refine foldl_kept (fun _ _ _ => ?_) ?_
    | extract_lets
    | split
    | fail_if_no_progress with_reducible (conv => arg 3; whnf)
    | refine kept_upd ?_ rfl rfl rfl rfl

@[simp] theorem imageDone_kept (j : FlashJob) (ok : Bool) (h : Kept qs vr s) :
    Kept qs vr (imageDone s j ok) := by
  unfold imageDone
  repeat' first
    | with_reducible assumption
    | with_reducible refine kept_ite ?_ ?_
    | with_reducible apply answer_kept
    | with_reducible refine (kept_modLife _ _).2 ?_
    | with_reducible refine draw_kept_of (by assumption) ?_
    | with_reducible refine forAll_kept (fun _ _ _ => ?_) ?_
    | with_reducible refine foldl_kept (fun _ _ _ => ?_) ?_
    | extract_lets
    | split
    | fail_if_no_progress with_reducible (conv => arg 3; whnf)
    | refine kept_upd ?_ rfl rfl rfl rfl

theorem guarded_kept (t slot : Nat) (st : Step) (ks views : List Nat) {f : State → State} (hf : ∀ u, Kept qs vr u → Kept qs vr (f u))
    (h : Kept qs vr s) : Kept qs vr (guarded s t slot st ks views f) := by
  unfold guarded
  extract_lets d l s1
  have h1 : Kept qs vr s1 := kept_ite h (check_kept _ _ _ _ h)
  split
  · exact check_kept _ _ _ _ (kept_ite (spoilView_kept _ _ _ h1) h1)
  · exact hf _ h1

@[simp] theorem noteWords_kept (slot i : Nat) (int : Bool) (h : Kept qs vr s) :
    Kept qs vr (noteWords s slot i int) := by
  unfold noteWords
  simp [h]

@[simp] theorem holdCounts_kept (h : Kept qs vr s) :
    Kept qs vr (holdCounts s) := by
  unfold holdCounts
  repeat' first
    | with_reducible assumption
    | with_reducible refine kept_ite ?_ ?_
    | with_reducible refine forAll_kept (fun _ _ _ => ?_) ?_
    | with_reducible refine foldl_kept (fun _ _ _ => ?_) ?_
    | extract_lets
    | split
    | fail_if_no_progress with_reducible (conv => arg 3; whnf)
    | refine kept_upd ?_ rfl rfl rfl rfl

@[simp] theorem freeCounts_kept (p : Pmc → Pmc) (h : Kept qs vr s) :
    Kept qs vr (freeCounts s p) := by
  unfold freeCounts
  repeat' first
    | with_reducible assumption
    | with_reducible refine kept_ite ?_ ?_
    | with_reducible apply holdCounts_kept
    | with_reducible refine forAll_kept (fun _ _ _ => ?_) ?_
    | with_reducible refine foldl_kept (fun _ _ _ => ?_) ?_
    | extract_lets
    | split
    | fail_if_no_progress with_reducible (conv => arg 3; whnf)
    | refine kept_upd ?_ rfl rfl rfl rfl

@[simp] theorem gstStart_kept (alsoRelease : Bool) (h : Kept qs vr s) :
    Kept qs vr (gstStart s alsoRelease) := by
  unfold gstStart
  repeat' first
    | with_reducible assumption
    | with_reducible refine kept_ite ?_ ?_
    | with_reducible apply startStop_kept

@[simp] theorem gstFree_kept (h : Kept qs vr s) :
    Kept qs vr (gstFree s) := by
  unfold gstFree
  repeat' first
    | with_reducible assumption
    | with_reducible refine kept_ite ?_ ?_
    | with_reducible apply beginEngineReset_kept
    | with_reducible apply drainTx_kept
    | with_reducible apply freeCounts_kept
    | with_reducible apply takeNotice_kept
    | with_reducible apply traceRec_kept
    | with_reducible refine (kept_modAon _ _).2 ?_
    | with_reducible refine forAll_kept (fun _ _ _ => ?_) ?_
    | with_reducible refine foldl_kept (fun _ _ _ => ?_) ?_
    | extract_lets
    | split
    | fail_if_no_progress with_reducible (conv => arg 3; whnf)
    | refine kept_upd ?_ rfl rfl rfl rfl

@[simp] theorem gstSelect_kept (tile chain : Nat) (h : Kept qs vr s) :
    Kept qs vr (gstSelect s tile chain) := by
  unfold gstSelect
  repeat' first
    | with_reducible assumption
    | with_reducible refine kept_ite ?_ ?_
    | with_reducible refine forAll_kept (fun _ _ _ => ?_) ?_
    | with_reducible refine foldl_kept (fun _ _ _ => ?_) ?_
    | extract_lets
    | split
    | fail_if_no_progress with_reducible (conv => arg 3; whnf)
    | refine kept_upd ?_ rfl rfl rfl rfl

@[simp] theorem modSync_kept (p : Nat) (f : PortSync → PortSync) (h : Kept qs vr s) :
    Kept qs vr (modSync s p f) := by
  unfold modSync
  simp [h]

@[simp] theorem fire_kept (n : Nat) (h : Kept qs vr s) :
    Kept qs vr (fire s n) := by
  unfold fire
  repeat' first
    | with_reducible assumption
    | with_reducible refine kept_ite ?_ ?_
    | with_reducible apply armMonitor_kept
    | with_reducible apply wakeUp_kept
    | with_reducible refine (kept_modAon _ _).2 ?_
    | with_reducible refine forAll_kept (fun _ _ _ => ?_) ?_
    | with_reducible refine foldl_kept (fun _ _ _ => ?_) ?_
    | extract_lets
    | split
    | fail_if_no_progress with_reducible (conv => arg 3; whnf)
    | refine kept_upd ?_ rfl rfl rfl rfl

@[simp] theorem fireDue_kept (h : Kept qs vr s) :
    Kept qs vr (fireDue s) := by
  unfold fireDue
  repeat' first
    | with_reducible assumption
    | with_reducible refine kept_ite ?_ ?_
    | with_reducible apply fire_kept
    | with_reducible refine forAll_kept (fun _ _ _ => ?_) ?_

@[simp] theorem setWhorl_kept (w : Nat) (h : Kept qs vr s) :
    Kept qs vr (setWhorl s w) := by
  exact ⟨h.1, h.2.1, h.2.2.1, h.2.2.2.1, h.2.2.2.2⟩

@[simp] theorem takeParent_kept (e : Nat × PortSync) (h : Kept qs vr s) :
    Kept qs vr (takeParent s e) := by
  unfold takeParent
  repeat' first
    | with_reducible assumption
    | with_reducible refine kept_ite ?_ ?_
    | with_reducible apply reportCode_kept
    | with_reducible refine (kept_modAon _ _).2 ?_
    | with_reducible refine forAll_kept (fun _ _ _ => ?_) ?_
    | with_reducible refine foldl_kept (fun _ _ _ => ?_) ?_
    | extract_lets
    | split
    | fail_if_no_progress with_reducible (conv => arg 3; whnf)
    | refine kept_upd ?_ rfl rfl rfl rfl

@[simp] theorem correct_kept (o2 : Int) (h : Kept qs vr s) :
    Kept qs vr (correct s o2) := by
  unfold correct
  repeat' first
    | with_reducible assumption
    | with_reducible refine kept_ite ?_ ?_
    | with_reducible apply fireDue_kept
    | with_reducible apply reportCode_kept
    | with_reducible apply setWhorl_kept
    | with_reducible refine (kept_modAon _ _).2 ?_
    | with_reducible refine forAll_kept (fun _ _ _ => ?_) ?_
    | with_reducible refine foldl_kept (fun _ _ _ => ?_) ?_
    | extract_lets
    | split
    | fail_if_no_progress with_reducible (conv => arg 3; whnf)
    | refine kept_upd ?_ rfl rfl rfl rfl

@[simp] theorem writeGst_kept (off v : Nat) (h : Kept qs vr s) :
    Kept qs vr (writeGst s off v) := by
  unfold writeGst
  repeat' first
    | with_reducible assumption
    | with_reducible refine kept_ite ?_ ?_
    | with_reducible apply gstFree_kept
    | with_reducible apply gstSelect_kept
    | with_reducible apply gstStart_kept
    | with_reducible refine forAll_kept (fun _ _ _ => ?_) ?_
    | with_reducible refine foldl_kept (fun _ _ _ => ?_) ?_
    | extract_lets
    | split
    | fail_if_no_progress with_reducible (conv => arg 3; whnf)
    | refine kept_upd ?_ rfl rfl rfl rfl

@[simp] theorem regWrite4_kept (func off v : Nat) (h : Kept qs vr s) :
    Kept qs vr (regWrite4 s func off v) := by
  unfold regWrite4
  repeat' first
    | with_reducible assumption
    | with_reducible refine kept_ite ?_ ?_
    | with_reducible apply aperAccess_kept
    | with_reducible apply ringDoorbell_kept
    | with_reducible apply writeGst_kept
    | with_reducible refine (kept_modFunc _ _).2 ?_
    | with_reducible refine forAll_kept (fun _ _ _ => ?_) ?_
    | with_reducible refine foldl_kept (fun _ _ _ => ?_) ?_
    | extract_lets
    | split
    | fail_if_no_progress with_reducible (conv => arg 3; whnf)
    | refine kept_upd ?_ rfl rfl rfl rfl

end Sys2Proof.Machine
end

