-- ==== Sys2Proof/Laws/KeptForms.lean ====
section
/-! SUPPORT. The forms of a meaning (a timed or untimed event, a mailbox request, an issue of a tile) keep what `Kept` says when what they
run keeps it; and the operations that answer an option or a pair. -/

namespace Sys2Proof.Machine

variable {qs : List Instr} {vr : Variant} {s : State}

/-- The outcome of a command keeps what every command keeps. -/
def ResKept (qs : List Instr) (vr : Variant) : Res → Prop
  | .next t => Kept qs vr t
  | _ => True

theorem timed_kept {now : Nat} {c : State → Bool} {f : State → State} (hf : ∀ t, Kept qs vr t → Kept qs vr (f t))
    (h : Kept qs vr s) : ResKept qs vr (timed s now c f) := by
  unfold timed
  exact kept_ite (hf _ ((kept_advance now).2 h)) h

theorem untimed_kept {c : State → Bool} {f : State → State} (hf : ∀ t, Kept qs vr t → Kept qs vr (f t))
    (h : Kept qs vr s) : ResKept qs vr (untimed s c f) := by
  unfold untimed
  exact kept_ite (hf _ h) h

theorem ans_done_kept (h : Kept qs vr s) : AnsKept qs vr (.done s) := h
theorem ans_detail_kept {d : Nat} (h : Kept qs vr s) : AnsKept qs vr (.detail s d) := h
theorem ans_output_kept {d : Nat} {ext : List Byte} (h : Kept qs vr s) : AnsKept qs vr (.output s d ext) := h
theorem ans_later_kept (h : Kept qs vr s) : AnsKept qs vr (.later s) := h
theorem ans_reply_kept {a b : Nat} {p e : List Byte} {w : Bool} (h : Kept qs vr s) : AnsKept qs vr (.reply s a b p e w) := h
theorem ans_refuse_kept {a : Nat} : AnsKept qs vr (.refuse a) := True.intro
theorem ans_refuseAt_kept {a b : Nat} : AnsKept qs vr (.refuseAt a b) := True.intro
theorem ans_ite_kept {c : Prop} [Decidable c] {a b : Ans} (ha : AnsKept qs vr a) (hb : AnsKept qs vr b) :
    AnsKept qs vr (if c then a else b) := by
  split <;> assumption

theorem applyAns_kept {m : Msg} {a : Ans} (h : Kept qs vr s) (ha : AnsKept qs vr a) : Kept qs vr (applyAns s m a) := by
  cases a with
  | refuse st => exact answer_kept _ _ _ _ h
  | refuseAt st d => exact answer_kept _ _ _ _ h
  | reply t st d pl ext w => exact answerWith_kept _ _ _ _ _ _ _ ha
  | later t => exact ha

theorem spend_kept {m : Msg} {t : State} (h : Kept qs vr s) (e : spend s m = some t) : Kept qs vr t := by
  unfold spend at e
  extract_lets f at e
  split at e
  · cases e
  · split at e
    · cases e
    · cases e
      exact (kept_modFunc _ _).2 h

theorem process_kept {sp : MsgSpec} {m : Msg} {own : State → Ans} (ho : ∀ t, Kept qs vr t → AnsKept qs vr (own t))
    (h : Kept qs vr s) : Kept qs vr (process s sp m own) := by
  unfold process
  extract_lets c
  refine kept_ite (answer_kept _ _ _ _ h) (kept_ite (kept_ite (answer_kept _ _ _ _ h) (applyAns_kept h (ho s h))) ?_)
  split
  · exact kept_ite (answer_kept _ _ _ _ ((kept_modFunc _ _).2 h)) (answer_kept _ _ _ _ h)
  · rename_i t e
    have ht : Kept qs vr t := spend_kept h e
    exact kept_ite (answer_kept _ _ _ _ ht) (applyAns_kept ht (ho t ht))

theorem mbx_kept {sp : MsgSpec} {m : Msg} {own : State → Ans} (ho : ∀ t, Kept qs vr t → AnsKept qs vr (own t))
    (h : Kept qs vr s) : ResKept qs vr (mbx sp own m s) :=
  untimed_kept (fun _ ht => process_kept ho (take_kept _ ht)) h

theorem issue_kept {t : Nat} {i : SkInsn} {ks : List Nat} {f : State → Nat → Step → SkeinRun → State}
    (hf : ∀ u k st r, Kept qs vr u → Kept qs vr (f u k st r)) (h : Kept qs vr s) : Kept qs vr (issue t i ks f s) := by
  unfold issue
  split
  · exact h
  · split
    · exact h
    · extract_lets s1
      have h1 : Kept qs vr s1 := noteIssue_kept _ _ _ _ h
      split
      · exact check_kept _ _ _ _ h1
      · exact hf _ _ _ _ h1

theorem skein_kept {t : Nat} {i : SkInsn} {ks : List Nat} {f : State → Nat → Step → SkeinRun → State}
    (hf : ∀ u k st r, Kept qs vr u → Kept qs vr (f u k st r)) (h : Kept qs vr s) : ResKept qs vr (skein t i ks f s) :=
  untimed_kept (fun _ ht => issue_kept hf ht) h

theorem pickFree_kept_of {l : List Nat} {x : Option Nat} {t : State} (e : pickFree s l = (x, t)) (h : Kept qs vr s) :
    Kept qs vr t := by
  unfold pickFree at e
  split at e
  · cases e
    exact h
  · cases e
    exact h

theorem drawGroups_kept_of {t rnd n : Nat} {x : List Nat} {u : State} (e : drawGroups s t rnd n = (x, u)) (h : Kept qs vr s) :
    Kept qs vr u := by
  have : u = (drawGroups s t rnd n).2 := by rw [e]
  subst this
  unfold drawGroups
  split
  · exact (kept_modTile _ _).2 h
  · exact h

theorem makeRoom_kept {p i : Nat} {t : State} (e : makeRoom s p i = some t) (h : Kept qs vr s) : Kept qs vr t := by
  unfold makeRoom at e
  extract_lets es at e
  split at e
  · cases e
  · cases e
    exact forAll_kept (fun _ _ hu => kept_ite hu (leaveStore_kept _ _ hu)) h

theorem ingest_kept {p n : Nat} (h : Kept qs vr s) : Kept qs vr (ingest s p n).2 := by
  unfold ingest
  extract_lets s1
  have h1 : Kept qs vr s1 := count_kept _ _ _ h
  clear_value s1
  exact kept_upd (kept_draw.2 (kept_draw.2 (kept_draw.2 h1))) rfl rfl rfl rfl

theorem ingest_kept_of {p n : Nat} {x : Nat} {u : State} (e : ingest s p n = (x, u)) (h : Kept qs vr s) : Kept qs vr u := by
  have : u = (ingest s p n).2 := by rw [e]
  subst this
  exact ingest_kept h

theorem reserveAt_kept {p c g base : Nat} {t : State} (e : reserveAt s p c g base = some (some t)) (h : Kept qs vr s) :
    Kept qs vr t := by
  unfold reserveAt at e
  extract_lets n at e
  split at e
  · cases e
    exact h
  · split at e
    · cases e
    · split at e
      · cases e
        exact (kept_modPart _ _).2 h
      · cases e

theorem reserveBoth_kept {p c g base fbBase : Nat} {fb : Option Nat} {t : State}
    (e : reserveBoth s p c g base fb fbBase = some (some t)) (h : Kept qs vr s) : Kept qs vr t := by
  unfold reserveBoth at e
  split at e
  · exact reserveAt_kept e (reserveAt_kept (by assumption) h)
  · exact reserveAt_kept e h

theorem acceptStep_kept {p q slot seq base fbBase : Nat} {d : List Byte} {t : State}
    (e : acceptStep s p q slot seq base fbBase d = some t) (h : Kept qs vr s) : Kept qs vr t := by
  unfold acceptStep at e
  extract_lets st c g fb at e
  split at e
  · cases e
    exact refuseStep_kept _ _ _ _ h
  · split at e
    · cases e
    · cases e
      exact refuseStep_kept _ _ _ _ h
    · rename_i u e'
      have hu : Kept qs vr u := reserveBoth_kept e' h
      split at e
      · cases e
        exact settleStep_kept _ _ hu
      · split at e
        · cases e
          exact refuseStep_kept _ _ _ _ h
        · extract_lets y at e
          split at e
          rename_i e2
          cases e
          exact settleStep_kept _ _ (onShard_kept_of e2 (forwardJob_kept _ _ _ hu))

theorem addBufs_kept {t slot : Nat} {f : Upf.File} {bases : List (Nat × Nat)} {need : List Nat} {u : State}
    (e : addBufs s t slot f bases need = some u) (h : Kept qs vr s) : Kept qs vr u := by
  unfold addBufs at e
  suffices H : ∀ (l : List Nat) (o : Option State), (∀ v, o = some v → Kept qs vr v) → ∀ v,
      l.foldl (fun o i => o.bind fun s =>
        if (bufBase (s.tile t) slot i).isSome then some s
        else match tfind bases i with
          | some b => if bufFits (s.tile t) b (tensorOf f i).bytes then some (addBuf s t slot i b (tensorOf f i).bytes) else none
          | none => none) o = some v → Kept qs vr v from
    H need (some s) (fun v hv => by cases hv; exact h) u e
  intro l
  induction l with
  | nil => exact fun o ho v hv => ho v hv
  | cons i l ih =>
    intro o ho v hv
    refine ih _ ?_ v hv
    intro w hw
    cases o with
    | none => cases hw
    | some x =>
      have hx := ho x rfl
      simp only [Option.bind_some] at hw
      split at hw
      · cases hw
        exact hx
      · split at hw
        · split at hw
          · cases hw
            exact addBuf_kept _ _ _ _ _ hx
          · cases hw
        · cases hw

theorem startLoad_kept {p : Nat} {m : Msg} {f : Upf.File} {job : Option Nat} (h : Kept qs vr s) :
    AnsKept qs vr (startLoad s p m f job) := by
  unfold startLoad
  split
  rename_i x u e
  have hu : Kept qs vr u := draw_kept_of e h
  extract_lets
  refine ans_ite_kept ans_refuse_kept ?_
  split
  · exact ans_refuse_kept
  · exact ans_later_kept (modProg_kept _ _ _ hu)

theorem loadOwn_kept {m : Msg} (h : Kept qs vr s) : AnsKept qs vr (loadOwn m s) := by
  unfold loadOwn
  extract_lets p b
  generalize upfBads s p b = bads
  generalize readUpf b = f
  split
  · exact ans_refuse_kept
  · rename_i known _ _ _ _
    clear_value known
    rcases known with _ | ⟨i, g⟩
    · cases bads with
      | cons c l => exact True.intro
      | nil =>
        dsimp only
        split
        · exact startLoad_kept h
        · split
          · exact ans_refuse_kept
          · exact startLoad_kept ((kept_modJob _ _).2 h)
    · exact ans_reply_kept (modProg_kept _ _ _ h)

theorem writeImage_kept {m : Msg} {kind : Nat} (h : Kept qs vr s) : AnsKept qs vr (writeImage s m kind) := by
  unfold writeImage
  extract_lets img st
  refine ans_ite_kept ans_refuse_kept (ans_ite_kept ans_refuse_kept ?_)
  exact ans_later_kept ((kept_emit _).2 ((kept_modLife _).2 h))

theorem fenceMsg_kept {m : Msg} {f : Nat → Ans} (hf : ∀ i, AnsKept qs vr (f i)) : AnsKept qs vr (fenceMsg s m f) := by
  unfold fenceMsg
  split
  · exact ans_refuse_kept
  · split
    · exact ans_refuse_kept
    · exact hf _

theorem clearUnits_collKept {c : Collector} (now bits : Nat) (h : CollKept c) : CollKept (clearUnits now c bits) := by
  unfold clearUnits
  generalize List.range 45 = l
  induction l generalizing c with
  | nil => exact h
  | cons u l ih =>
    refine ih ?_
    dsimp only
    split
    · refine ⟨h.1, fun e he => ?_⟩
      rcases mem_tput he with rfl | he
      · exact Nat.zero_le _
      · exact h.2 e he
    · exact h

end Sys2Proof.Machine
end

