-- ==== Sys2Proof/Laws/KeptEvents.lean ====
section
/-! SUPPORT. The commands of Boundary, Resets, Tile, Whorl, Registers, Host and Rings keep what `Kept` says. -/

namespace Sys2Proof.Machine

variable {qs : List Instr} {vr : Variant} {s : State}

theorem execRefclkLost_kept {now : Nat} (h : Kept qs vr s) :
    ResKept qs vr (execRefclkLost now s) := by
  unfold execRefclkLost
  refine timed_kept (fun _ _ => ?_) h
  repeat' first
    | with_reducible assumption
    | with_reducible refine kept_ite ?_ ?_
    | with_reducible refine ans_ite_kept ?_ ?_
    | with_reducible apply keepGrowth_kept
    | with_reducible apply report_kept
    | with_reducible refine (kept_modAon _ _).2 ?_
    | extract_lets
    | split
    | fail_if_no_progress with_reducible (conv => arg 3; whnf)
    | refine kept_upd ?_ rfl rfl rfl rfl

theorem execRefclkReturn_kept {now : Nat} (h : Kept qs vr s) :
    ResKept qs vr (execRefclkReturn now s) := by
  unfold execRefclkReturn
  refine timed_kept (fun _ _ => ?_) h
  repeat' first
    | with_reducible assumption
    | with_reducible refine kept_ite ?_ ?_
    | with_reducible refine ans_ite_kept ?_ ?_
    | with_reducible apply keepGrowth_kept
    | with_reducible refine (kept_modAon _ _).2 ?_
    | extract_lets
    | split
    | fail_if_no_progress with_reducible (conv => arg 3; whnf)
    | refine kept_upd ?_ rfl rfl rfl rfl

theorem execPwrGoodRise_kept {now : Nat} (h : Kept qs vr s) :
    ResKept qs vr (execPwrGoodRise now s) := by
  unfold execPwrGoodRise
  refine timed_kept (fun _ _ => ?_) h
  repeat' first
    | with_reducible assumption
    | with_reducible refine kept_ite ?_ ?_
    | with_reducible refine ans_ite_kept ?_ ?_
    | with_reducible apply pwrRise_kept

theorem execPwrGoodFall_kept {now : Nat} (h : Kept qs vr s) :
    ResKept qs vr (execPwrGoodFall now s) := by
  unfold execPwrGoodFall
  refine timed_kept (fun _ _ => ?_) h
  repeat' first
    | with_reducible assumption
    | with_reducible refine kept_ite ?_ ?_
    | with_reducible refine ans_ite_kept ?_ ?_
    | with_reducible apply enterReset_kept
    | with_reducible apply withIbi_kept
    | with_reducible refine (kept_modAon _ _).2 ?_
    | extract_lets
    | split
    | fail_if_no_progress with_reducible (conv => arg 3; whnf)
    | refine kept_upd ?_ rfl rfl rfl rfl

theorem execAonResetNFall_kept (h : Kept qs vr s) :
    ResKept qs vr (execAonResetNFall s) := by
  unfold execAonResetNFall
  refine untimed_kept (fun _ _ => ?_) h
  repeat' first
    | with_reducible assumption
    | with_reducible refine kept_ite ?_ ?_
    | with_reducible refine ans_ite_kept ?_ ?_
    | with_reducible apply aonDown_kept

theorem execAonResetNRelease_kept (h : Kept qs vr s) :
    ResKept qs vr (execAonResetNRelease s) := by
  unfold execAonResetNRelease
  refine untimed_kept (fun _ _ => ?_) h
  repeat' first
    | with_reducible assumption
    | with_reducible refine kept_ite ?_ ?_
    | with_reducible refine ans_ite_kept ?_ ?_
    | with_reducible apply startIfFree_kept
    | with_reducible refine (kept_modAon _ _).2 ?_
    | extract_lets
    | split
    | fail_if_no_progress with_reducible (conv => arg 3; whnf)
    | refine kept_upd ?_ rfl rfl rfl rfl

theorem execVddAonLost_kept (h : Kept qs vr s) :
    ResKept qs vr (execVddAonLost s) := by
  unfold execVddAonLost
  refine untimed_kept (fun _ _ => ?_) h
  repeat' first
    | with_reducible assumption
    | with_reducible refine kept_ite ?_ ?_
    | with_reducible refine ans_ite_kept ?_ ?_
    | with_reducible apply aonDown_kept
    | with_reducible refine (kept_modAon _ _).2 ?_
    | extract_lets
    | split
    | fail_if_no_progress with_reducible (conv => arg 3; whnf)
    | refine kept_upd ?_ rfl rfl rfl rfl

theorem execBlkResetNFall_kept {now : Nat} (h : Kept qs vr s) :
    ResKept qs vr (execBlkResetNFall now s) := by
  unfold execBlkResetNFall
  refine timed_kept (fun _ _ => ?_) h
  repeat' first
    | with_reducible assumption
    | with_reducible refine kept_ite ?_ ?_
    | with_reducible refine ans_ite_kept ?_ ?_
    | with_reducible apply enterReset_kept
    | with_reducible apply withIbi_kept
    | with_reducible refine (kept_modAon _ _).2 ?_
    | extract_lets
    | split
    | fail_if_no_progress with_reducible (conv => arg 3; whnf)
    | refine kept_upd ?_ rfl rfl rfl rfl

theorem execBlkResetNRelease_kept {now entryTries : Nat} {warmOk : Bool} (h : Kept qs vr s) :
    ResKept qs vr (execBlkResetNRelease now entryTries warmOk s) := by
  unfold execBlkResetNRelease
  refine timed_kept (fun _ _ => ?_) h
  repeat' first
    | with_reducible assumption
    | with_reducible refine kept_ite ?_ ?_
    | with_reducible refine ans_ite_kept ?_ ?_
    | with_reducible apply beginStart_kept
    | with_reducible apply beginWarm_kept
    | with_reducible apply enterReset_kept
    | with_reducible refine (kept_modAon _ _).2 ?_
    | extract_lets
    | split
    | fail_if_no_progress with_reducible (conv => arg 3; whnf)
    | refine kept_upd ?_ rfl rfl rfl rfl

theorem execVoltageMonitorTrip_kept {now : Nat} (h : Kept qs vr s) :
    ResKept qs vr (execVoltageMonitorTrip now s) := by
  unfold execVoltageMonitorTrip
  refine timed_kept (fun _ _ => ?_) h
  repeat' first
    | with_reducible assumption
    | with_reducible refine kept_ite ?_ ?_
    | with_reducible refine ans_ite_kept ?_ ?_
    | with_reducible apply note902_kept
    | with_reducible apply raiseIbi_kept
    | with_reducible apply report_kept
    | with_reducible refine (kept_modAon _ _).2 ?_
    | extract_lets
    | split
    | fail_if_no_progress with_reducible (conv => arg 3; whnf)
    | refine kept_upd ?_ rfl rfl rfl rfl

theorem execRailBackInTolerance_kept {now : Nat} (h : Kept qs vr s) :
    ResKept qs vr (execRailBackInTolerance now s) := by
  unfold execRailBackInTolerance
  refine timed_kept (fun _ _ => ?_) h
  repeat' first
    | with_reducible assumption
    | with_reducible refine kept_ite ?_ ?_
    | with_reducible refine ans_ite_kept ?_ ?_
    | with_reducible refine (kept_modAon _ _).2 ?_
    | extract_lets
    | split
    | fail_if_no_progress with_reducible (conv => arg 3; whnf)
    | refine kept_upd ?_ rfl rfl rfl rfl

theorem execThermalTrip_kept {now : Nat} (h : Kept qs vr s) :
    ResKept qs vr (execThermalTrip now s) := by
  unfold execThermalTrip
  refine timed_kept (fun _ _ => ?_) h
  repeat' first
    | with_reducible assumption
    | with_reducible refine kept_ite ?_ ?_
    | with_reducible refine ans_ite_kept ?_ ?_
    | with_reducible apply raiseIbi_kept
    | with_reducible apply report_kept

theorem execPowerCycleRequest_kept {now : Nat} (h : Kept qs vr s) :
    ResKept qs vr (execPowerCycleRequest now s) := by
  unfold execPowerCycleRequest
  refine timed_kept (fun _ _ => ?_) h
  repeat' first
    | with_reducible assumption
    | with_reducible refine kept_ite ?_ ?_
    | with_reducible refine ans_ite_kept ?_ ?_
    | with_reducible apply raiseIbi_kept
    | with_reducible refine (kept_modAon _ _).2 ?_
    | extract_lets
    | split
    | fail_if_no_progress with_reducible (conv => arg 3; whnf)
    | refine kept_upd ?_ rfl rfl rfl rfl

theorem execStopInNFall_kept {x : StopFall} (h : Kept qs vr s) :
    ResKept qs vr (execStopInNFall x s) := by
  unfold execStopInNFall
  refine timed_kept (fun _ _ => ?_) h
  repeat' first
    | with_reducible assumption
    | with_reducible refine kept_ite ?_ ?_
    | with_reducible refine ans_ite_kept ?_ ?_
    | with_reducible apply startStop_kept
    | with_reducible refine (kept_modAon _ _).2 ?_
    | extract_lets
    | split
    | fail_if_no_progress with_reducible (conv => arg 3; whnf)
    | refine kept_upd ?_ rfl rfl rfl rfl

theorem execTorusCoordinatesWrite_kept {x y z kx ky kz : Nat} (h : Kept qs vr s) :
    ResKept qs vr (execTorusCoordinatesWrite x y z kx ky kz s) := by
  unfold execTorusCoordinatesWrite
  refine untimed_kept (fun _ _ => ?_) h
  repeat' first
    | with_reducible assumption
    | with_reducible refine kept_ite ?_ ?_
    | with_reducible refine ans_ite_kept ?_ ?_
    | with_reducible refine (kept_modAon _ _).2 ?_
    | extract_lets
    | split
    | fail_if_no_progress with_reducible (conv => arg 3; whnf)
    | refine kept_upd ?_ rfl rfl rfl rfl

theorem execRailConfirm_kept {now die mv : Nat} (h : Kept qs vr s) :
    ResKept qs vr (execRailConfirm now die mv s) := by
  unfold execRailConfirm
  refine timed_kept (fun _ _ => ?_) h
  repeat' first
    | with_reducible assumption
    | with_reducible refine kept_ite ?_ ?_
    | with_reducible refine ans_ite_kept ?_ ?_
    | with_reducible apply requestRail_kept
    | with_reducible apply retune_kept
    | with_reducible apply setClock_kept
    | with_reducible refine (kept_modRail _ _).2 ?_
    | with_reducible refine forAll_kept (fun _ _ _ => ?_) ?_

theorem execRailConfirmTimeout_kept {now die : Nat} (h : Kept qs vr s) :
    ResKept qs vr (execRailConfirmTimeout now die s) := by
  unfold execRailConfirmTimeout
  refine timed_kept (fun _ _ => ?_) h
  repeat' first
    | with_reducible assumption
    | with_reducible refine kept_ite ?_ ?_
    | with_reducible refine ans_ite_kept ?_ ?_
    | with_reducible refine (kept_modRail _ _).2 ?_
    | with_reducible refine (kept_emit _).2 ?_

theorem execTrstNReset_kept (h : Kept qs vr s) :
    ResKept qs vr (execTrstNReset s) := by
  unfold execTrstNReset
  refine untimed_kept (fun _ _ => ?_) h
  repeat' first
    | with_reducible assumption
    | with_reducible refine kept_ite ?_ ?_
    | with_reducible refine ans_ite_kept ?_ ?_
    | with_reducible refine (kept_modLife _ _).2 ?_
    | extract_lets
    | split
    | fail_if_no_progress with_reducible (conv => arg 3; whnf)
    | refine kept_upd ?_ rfl rfl rfl rfl

theorem execFaultCollectorInitialised_kept {now : Nat} (h : Kept qs vr s) :
    ResKept qs vr (execFaultCollectorInitialised now s) := by
  unfold execFaultCollectorInitialised
  refine timed_kept (fun _ _ => ?_) h
  repeat' first
    | with_reducible assumption
    | with_reducible refine kept_ite ?_ ?_
    | with_reducible refine ans_ite_kept ?_ ?_
    | with_reducible apply initColl_kept

theorem execStartEntryNotWritten_kept {now : Nat} (h : Kept qs vr s) :
    ResKept qs vr (execStartEntryNotWritten now s) := by
  unfold execStartEntryNotWritten
  refine timed_kept (fun _ _ => ?_) h
  repeat' first
    | with_reducible assumption
    | with_reducible refine kept_ite ?_ ?_
    | with_reducible refine ans_ite_kept ?_ ?_
    | with_reducible apply failStart_kept

theorem execFlashStatusTimeout_kept {now : Nat} (h : Kept qs vr s) :
    ResKept qs vr (execFlashStatusTimeout now s) := by
  unfold execFlashStatusTimeout
  refine timed_kept (fun _ _ => ?_) h
  repeat' first
    | with_reducible assumption
    | with_reducible refine kept_ite ?_ ?_
    | with_reducible refine ans_ite_kept ?_ ?_
    | with_reducible apply failStart_kept
    | with_reducible apply reportCode_kept
    | with_reducible refine (kept_modLife _ _).2 ?_
    | extract_lets
    | split
    | fail_if_no_progress with_reducible (conv => arg 3; whnf)
    | refine kept_upd ?_ rfl rfl rfl rfl

theorem execHbmPortNotReady_kept {now port : Nat} (h : Kept qs vr s) :
    ResKept qs vr (execHbmPortNotReady now port s) := by
  unfold execHbmPortNotReady
  refine timed_kept (fun _ _ => ?_) h
  repeat' first
    | with_reducible assumption
    | with_reducible refine kept_ite ?_ ?_
    | with_reducible refine ans_ite_kept ?_ ?_
    | with_reducible apply reportCode_kept
    | extract_lets
    | split
    | fail_if_no_progress with_reducible (conv => arg 3; whnf)
    | refine kept_upd ?_ rfl rfl rfl rfl

theorem execImageAuthenticated_kept {now : Nat} (h : Kept qs vr s) :
    ResKept qs vr (execImageAuthenticated now s) := by
  unfold execImageAuthenticated
  refine timed_kept (fun _ _ => ?_) h
  repeat' first
    | with_reducible assumption
    | with_reducible refine kept_ite ?_ ?_
    | with_reducible refine ans_ite_kept ?_ ?_
    | with_reducible apply failStart_kept
    | with_reducible apply requestRail_kept
    | with_reducible refine (kept_modLife _ _).2 ?_
    | with_reducible refine forAll_kept (fun _ _ _ => ?_) ?_
    | extract_lets
    | split
    | fail_if_no_progress with_reducible (conv => arg 3; whnf)
    | refine kept_upd ?_ rfl rfl rfl rfl

theorem execCalibrationDone_kept {now factor : Nat} (h : Kept qs vr s) :
    ResKept qs vr (execCalibrationDone now factor s) := by
  unfold execCalibrationDone
  refine timed_kept (fun _ _ => ?_) h
  repeat' first
    | with_reducible assumption
    | with_reducible refine kept_ite ?_ ?_
    | with_reducible refine ans_ite_kept ?_ ?_
    | with_reducible apply requestRail_kept
    | with_reducible refine (kept_modLife _ _).2 ?_
    | with_reducible refine forAll_kept (fun _ _ _ => ?_) ?_
    | extract_lets
    | split
    | fail_if_no_progress with_reducible (conv => arg 3; whnf)
    | refine kept_upd ?_ rfl rfl rfl rfl

theorem execMbxReady_kept {now : Nat} (h : Kept qs vr s) :
    ResKept qs vr (execMbxReady now s) := by
  unfold execMbxReady
  refine timed_kept (fun _ _ => ?_) h
  repeat' first
    | with_reducible assumption
    | with_reducible refine kept_ite ?_ ?_
    | with_reducible refine ans_ite_kept ?_ ?_
    | with_reducible refine (kept_modWindow _ _).2 ?_
    | with_reducible refine (kept_modAon _ _).2 ?_
    | with_reducible refine (kept_modLife _ _).2 ?_
    | with_reducible refine modColl_kept ?_ ?_
    | exact fun h => ⟨h.1, h.2⟩
    | extract_lets
    | split
    | fail_if_no_progress with_reducible (conv => arg 3; whnf)
    | refine kept_upd ?_ rfl rfl rfl rfl

theorem execStartTimeout_kept {now : Nat} (h : Kept qs vr s) :
    ResKept qs vr (execStartTimeout now s) := by
  unfold execStartTimeout
  refine timed_kept (fun _ _ => ?_) h
  repeat' first
    | with_reducible assumption
    | with_reducible refine kept_ite ?_ ?_
    | with_reducible refine ans_ite_kept ?_ ?_
    | with_reducible apply failStart_kept

theorem execFailedStartReset_kept {now : Nat} (h : Kept qs vr s) :
    ResKept qs vr (execFailedStartReset now s) := by
  unfold execFailedStartReset
  refine timed_kept (fun _ _ => ?_) h
  repeat' first
    | with_reducible assumption
    | with_reducible refine kept_ite ?_ ?_
    | with_reducible refine ans_ite_kept ?_ ?_
    | with_reducible apply selfReset_kept

theorem execFatalBlockReset_kept {now : Nat} (h : Kept qs vr s) :
    ResKept qs vr (execFatalBlockReset now s) := by
  unfold execFatalBlockReset
  refine timed_kept (fun _ _ => ?_) h
  repeat' first
    | with_reducible assumption
    | with_reducible refine kept_ite ?_ ?_
    | with_reducible refine ans_ite_kept ?_ ?_
    | with_reducible apply selfReset_kept

theorem execBlockResetBegin_kept {now : Nat} (h : Kept qs vr s) :
    ResKept qs vr (execBlockResetBegin now s) := by
  unfold execBlockResetBegin
  refine timed_kept (fun _ _ => ?_) h
  repeat' first
    | with_reducible assumption
    | with_reducible refine kept_ite ?_ ?_
    | with_reducible refine ans_ite_kept ?_ ?_
    | with_reducible apply selfReset_kept

theorem execSleepEntry_kept {now : Nat} (h : Kept qs vr s) :
    ResKept qs vr (execSleepEntry now s) := by
  unfold execSleepEntry
  refine timed_kept (fun _ _ => ?_) h
  repeat' first
    | with_reducible assumption
    | with_reducible refine kept_ite ?_ ?_
    | with_reducible refine ans_ite_kept ?_ ?_
    | with_reducible apply flushPart_kept
    | with_reducible refine (kept_modAon _ _).2 ?_
    | with_reducible refine (kept_emit _).2 ?_
    | with_reducible refine forAll_kept (fun _ _ _ => ?_) ?_
    | extract_lets
    | split
    | fail_if_no_progress with_reducible (conv => arg 3; whnf)
    | refine kept_upd ?_ rfl rfl rfl rfl

theorem execWake_kept {now : Nat} {i3c : Bool} (h : Kept qs vr s) :
    ResKept qs vr (execWake now i3c s) := by
  unfold execWake
  refine timed_kept (fun _ _ => ?_) h
  repeat' first
    | with_reducible assumption
    | with_reducible refine kept_ite ?_ ?_
    | with_reducible refine ans_ite_kept ?_ ?_
    | with_reducible apply wakeUp_kept

theorem execSelfTestDone_kept {now engine : Nat} {pass : Bool} (h : Kept qs vr s) :
    ResKept qs vr (execSelfTestDone now engine pass s) := by
  unfold execSelfTestDone
  refine timed_kept (fun _ _ => ?_) h
  repeat' first
    | with_reducible assumption
    | with_reducible refine kept_ite ?_ ?_
    | with_reducible refine ans_ite_kept ?_ ?_
    | with_reducible apply answerTest_kept
    | with_reducible apply consume_kept
    | with_reducible apply failStart_kept
    | with_reducible apply finishTest_kept
    | with_reducible apply reportCode_kept
    | with_reducible apply startupFail_kept
    | with_reducible refine (kept_modLife _ _).2 ?_
    | extract_lets
    | split
    | fail_if_no_progress with_reducible (conv => arg 3; whnf)
    | refine kept_upd ?_ rfl rfl rfl rfl

theorem execEngineReset_kept {m : Msg} (h : Kept qs vr s) :
    ResKept qs vr (execEngineReset m s) := by
  unfold execEngineReset
  refine mbx_kept (fun _ _ => ?_) h
  repeat' first
    | with_reducible assumption
    | with_reducible refine kept_ite ?_ ?_
    | with_reducible refine ans_ite_kept ?_ ?_
    | with_reducible refine ans_later_kept ?_
    | with_reducible exact ans_refuse_kept
    | with_reducible apply beginEngineReset_kept
    | with_reducible apply joinReset_kept
    | extract_lets
    | split

theorem execPartitionReset_kept {m : Msg} (h : Kept qs vr s) :
    ResKept qs vr (execPartitionReset m s) := by
  unfold execPartitionReset
  refine mbx_kept (fun _ _ => ?_) h
  repeat' first
    | with_reducible assumption
    | with_reducible refine kept_ite ?_ ?_
    | with_reducible refine ans_ite_kept ?_ ?_
    | with_reducible refine ans_later_kept ?_
    | with_reducible apply resetPartition_kept

theorem execBlockReset_kept {m : Msg} (h : Kept qs vr s) :
    ResKept qs vr (execBlockReset m s) := by
  unfold execBlockReset
  refine mbx_kept (fun _ _ => ?_) h
  repeat' first
    | with_reducible assumption
    | with_reducible refine kept_ite ?_ ?_
    | with_reducible refine ans_ite_kept ?_ ?_
    | with_reducible refine ans_later_kept ?_
    | with_reducible apply startBlockReset_kept

theorem execPowerCycle_kept {m : Msg} (h : Kept qs vr s) :
    ResKept qs vr (execPowerCycle m s) := by
  unfold execPowerCycle
  refine mbx_kept (fun _ _ => ?_) h
  repeat' first
    | with_reducible assumption
    | with_reducible refine kept_ite ?_ ?_
    | with_reducible refine ans_ite_kept ?_ ?_
    | with_reducible refine ans_later_kept ?_
    | with_reducible apply withIbi_kept
    | with_reducible refine (kept_modAon _ _).2 ?_
    | extract_lets
    | split
    | fail_if_no_progress with_reducible (conv => arg 3; whnf)
    | refine kept_upd ?_ rfl rfl rfl rfl

theorem execBistRun_kept {m : Msg} {quiesced : Bool} (h : Kept qs vr s) :
    ResKept qs vr (execBistRun m quiesced s) := by
  unfold execBistRun
  refine mbx_kept (fun _ _ => ?_) h
  repeat' first
    | with_reducible assumption
    | with_reducible refine kept_ite ?_ ?_
    | with_reducible refine ans_ite_kept ?_ ?_
    | with_reducible refine ans_later_kept ?_
    | with_reducible refine ans_reply_kept ?_
    | with_reducible exact ans_refuse_kept
    | with_reducible apply failStep_kept
    | with_reducible apply setTesting_kept
    | with_reducible apply setWithdrawn_kept
    | with_reducible apply withdraw_kept
    | with_reducible refine (kept_modLife _ _).2 ?_
    | with_reducible refine forAll_kept (fun _ _ _ => ?_) ?_
    | extract_lets
    | split
    | fail_if_no_progress with_reducible (conv => arg 3; whnf)
    | refine kept_upd ?_ rfl rfl rfl rfl

theorem execResetEscalation_kept {now kind id : Nat} (h : Kept qs vr s) :
    ResKept qs vr (execResetEscalation now kind id s) := by
  unfold execResetEscalation
  refine timed_kept (fun _ _ => ?_) h
  repeat' first
    | with_reducible assumption
    | with_reducible refine kept_ite ?_ ?_
    | with_reducible refine ans_ite_kept ?_ ?_
    | with_reducible apply answerTest_kept
    | with_reducible apply beginEngineReset_kept
    | with_reducible apply endPartitionReset_kept
    | with_reducible apply resetPartition_kept
    | with_reducible apply selfReset_kept
    | with_reducible apply setTesting_kept
    | with_reducible apply withdraw_kept
    | with_reducible refine forAll_kept (fun _ _ _ => ?_) ?_
    | extract_lets
    | split

theorem execSlotQuarantineEnd_kept {now slot : Nat} (h : Kept qs vr s) :
    ResKept qs vr (execSlotQuarantineEnd now slot s) := by
  unfold execSlotQuarantineEnd
  refine timed_kept (fun _ _ => ?_) h
  repeat' first
    | with_reducible assumption
    | with_reducible refine kept_ite ?_ ?_
    | with_reducible refine ans_ite_kept ?_ ?_
    | with_reducible apply releaseReservations_kept
    | extract_lets
    | split
    | fail_if_no_progress with_reducible (conv => arg 3; whnf)
    | refine kept_upd ?_ rfl rfl rfl rfl

theorem execSkeinPlace_kept {now slot skein t : Nat} {bases : List (Nat × Nat)} (h : Kept qs vr s) :
    ResKept qs vr (execSkeinPlace now slot skein t bases s) := by
  unfold execSkeinPlace
  refine timed_kept (fun _ _ => ?_) h
  repeat' first
    | with_reducible assumption
    | with_reducible refine kept_ite ?_ ?_
    | with_reducible refine ans_ite_kept ?_ ?_
    | with_reducible refine addBufs_kept (by assumption) ?_
    | with_reducible apply failStep_kept
    | with_reducible apply logPlace_kept
    | with_reducible apply seedTile_kept
    | with_reducible refine (kept_modStep _ _).2 ?_
    | with_reducible refine (kept_modTile _ _).2 ?_
    | extract_lets
    | split

theorem execFin_kept {t : Nat} (h : Kept qs vr s) :
    ResKept qs vr (execFin t s) := by
  unfold execFin
  refine skein_kept (fun _ _ _ _ _ => ?_) h
  repeat' first
    | with_reducible assumption
    | with_reducible refine kept_ite ?_ ?_
    | with_reducible refine ans_ite_kept ?_ ?_
    | with_reducible apply settleSkeins_kept
    | with_reducible refine (kept_modStep _ _).2 ?_
    | with_reducible refine (kept_modTile _ _).2 ?_

theorem execSkeinComplete_kept {now t skein : Nat} (h : Kept qs vr s) :
    ResKept qs vr (execSkeinComplete now t skein s) := by
  unfold execSkeinComplete
  refine timed_kept (fun _ _ => ?_) h
  repeat' first
    | with_reducible assumption
    | with_reducible refine kept_ite ?_ ?_
    | with_reducible refine ans_ite_kept ?_ ?_
    | with_reducible apply freeDead_kept
    | with_reducible apply skeinDone_kept
    | extract_lets
    | split

theorem execResidueWindowCompare_kept {now t : Nat} {vector : Bool} {predicted produced : Nat} (h : Kept qs vr s) :
    ResKept qs vr (execResidueWindowCompare now t vector predicted produced s) := by
  unfold execResidueWindowCompare
  refine timed_kept (fun _ _ => ?_) h
  repeat' first
    | with_reducible assumption
    | with_reducible refine kept_ite ?_ ?_
    | with_reducible refine ans_ite_kept ?_ ?_
    | with_reducible apply closeWin_kept
    | with_reducible apply consume_kept
    | with_reducible apply report_kept

theorem execSkeinBoundOverrun_kept {now t : Nat} (h : Kept qs vr s) :
    ResKept qs vr (execSkeinBoundOverrun now t s) := by
  unfold execSkeinBoundOverrun
  refine timed_kept (fun _ _ => ?_) h
  repeat' first
    | with_reducible assumption
    | with_reducible refine kept_ite ?_ ?_
    | with_reducible refine ans_ite_kept ?_ ?_
    | with_reducible apply report_kept

theorem execClockGate_kept {t idle : Nat} (h : Kept qs vr s) :
    ResKept qs vr (execClockGate t idle s) := by
  unfold execClockGate
  refine untimed_kept (fun _ _ => ?_) h
  repeat' first
    | with_reducible assumption
    | with_reducible refine kept_ite ?_ ?_
    | with_reducible refine ans_ite_kept ?_ ?_
    | with_reducible refine (kept_modTile _ _).2 ?_

theorem execPatrolScrub_kept {now t word bits : Nat} (h : Kept qs vr s) :
    ResKept qs vr (execPatrolScrub now t word bits s) := by
  unfold execPatrolScrub
  refine timed_kept (fun _ _ => ?_) h
  repeat' first
    | with_reducible assumption
    | with_reducible refine kept_ite ?_ ?_
    | with_reducible refine ans_ite_kept ?_ ?_
    | with_reducible apply report_kept
    | with_reducible refine (kept_modTile _ _).2 ?_

theorem execOscillatorOutOfLock_kept {now t permille ns : Nat} (h : Kept qs vr s) :
    ResKept qs vr (execOscillatorOutOfLock now t permille ns s) := by
  unfold execOscillatorOutOfLock
  refine timed_kept (fun _ _ => ?_) h
  repeat' first
    | with_reducible assumption
    | with_reducible refine kept_ite ?_ ?_
    | with_reducible refine ans_ite_kept ?_ ?_
    | with_reducible apply report_kept

theorem execWhorlSyncEdge_kept {now highNs : Nat} (h : Kept qs vr s) :
    ResKept qs vr (execWhorlSyncEdge now highNs s) := by
  unfold execWhorlSyncEdge
  refine timed_kept (fun _ _ => ?_) h
  repeat' first
    | with_reducible assumption
    | with_reducible refine kept_ite ?_ ?_
    | with_reducible refine ans_ite_kept ?_ ?_
    | with_reducible apply modSync_kept
    | with_reducible apply reportCode_kept
    | with_reducible refine (kept_modAon _ _).2 ?_
    | extract_lets
    | split
    | fail_if_no_progress with_reducible (conv => arg 3; whnf)
    | refine kept_upd ?_ rfl rfl rfl rfl

theorem execSyncWindowExpiry_kept {now : Nat} (h : Kept qs vr s) :
    ResKept qs vr (execSyncWindowExpiry now s) := by
  unfold execSyncWindowExpiry
  refine timed_kept (fun _ _ => ?_) h
  repeat' first
    | with_reducible assumption
    | with_reducible refine kept_ite ?_ ?_
    | with_reducible refine ans_ite_kept ?_ ?_
    | with_reducible refine (kept_modAon _ _).2 ?_
    | extract_lets
    | split
    | fail_if_no_progress with_reducible (conv => arg 3; whnf)
    | refine kept_upd ?_ rfl rfl rfl rfl

theorem execSyncSend_kept {now port : Nat} (h : Kept qs vr s) :
    ResKept qs vr (execSyncSend now port s) := by
  unfold execSyncSend
  refine timed_kept (fun _ _ => ?_) h
  repeat' first
    | with_reducible assumption
    | with_reducible refine kept_ite ?_ ?_
    | with_reducible refine ans_ite_kept ?_ ?_
    | with_reducible apply modSync_kept
    | with_reducible refine (kept_modPort _ _).2 ?_
    | with_reducible refine (kept_modAon _ _).2 ?_
    | with_reducible refine (kept_emit _).2 ?_
    | extract_lets
    | split
    | fail_if_no_progress with_reducible (conv => arg 3; whnf)
    | refine kept_upd ?_ rfl rfl rfl rfl

theorem execSyncArrival_kept {now port : Nat} {m : SyncMsg} (h : Kept qs vr s) :
    ResKept qs vr (execSyncArrival now port m s) := by
  unfold execSyncArrival
  refine timed_kept (fun t ht => ?_) h
  extract_lets x prevArr tA tB s1 s2 s3
  have h1 : Kept qs vr s1 := modSync_kept _ _ ht
  have h2 : Kept qs vr s2 := modSync_kept _ _ h1
  have h3 : Kept qs vr s3 := by
    dsimp only [s3]
    split
    · exact takeParent_kept _ h2
    · exact h2
  clear_value s3 s2 s1 tA tB
  split
  · exact kept_ite h2 (kept_ite h2 (kept_ite (correct_kept _ ((kept_modAon _).2 h3)) h3))
  · exact h1

theorem execParentTimeout_kept {now : Nat} (h : Kept qs vr s) :
    ResKept qs vr (execParentTimeout now s) := by
  unfold execParentTimeout
  refine timed_kept (fun _ _ => ?_) h
  repeat' first
    | with_reducible assumption
    | with_reducible refine kept_ite ?_ ?_
    | with_reducible refine ans_ite_kept ?_ ?_
    | with_reducible apply reportCode_kept
    | with_reducible apply takeParent_kept
    | with_reducible refine (kept_modAon _ _).2 ?_
    | extract_lets
    | split
    | fail_if_no_progress with_reducible (conv => arg 3; whnf)
    | refine kept_upd ?_ rfl rfl rfl rfl

theorem execFabricEpochStart_kept {now : Nat} (h : Kept qs vr s) :
    ResKept qs vr (execFabricEpochStart now s) := by
  unfold execFabricEpochStart
  refine timed_kept (fun _ _ => ?_) h
  repeat' first
    | with_reducible assumption
    | with_reducible refine kept_ite ?_ ?_
    | with_reducible refine ans_ite_kept ?_ ?_
    | with_reducible apply setWhorl_kept
    | with_reducible refine (kept_modAon _ _).2 ?_
    | extract_lets
    | split
    | fail_if_no_progress with_reducible (conv => arg 3; whnf)
    | refine kept_upd ?_ rfl rfl rfl rfl

theorem execComparatorFire_kept {now n : Nat} (h : Kept qs vr s) :
    ResKept qs vr (execComparatorFire now n s) := by
  unfold execComparatorFire
  refine timed_kept (fun _ _ => ?_) h
  repeat' first
    | with_reducible assumption
    | with_reducible refine kept_ite ?_ ?_
    | with_reducible refine ans_ite_kept ?_ ?_
    | with_reducible apply fire_kept

theorem execWhlTimeLo_kept {func : Nat} (h : Kept qs vr s) :
    ResKept qs vr (execWhlTimeLo func s) := by
  unfold execWhlTimeLo
  refine untimed_kept (fun _ _ => ?_) h
  repeat' first
    | with_reducible assumption
    | with_reducible refine kept_ite ?_ ?_
    | with_reducible refine ans_ite_kept ?_ ?_
    | with_reducible apply readEffect_kept
    | with_reducible refine (kept_modAon _ _).2 ?_
    | extract_lets
    | split
    | fail_if_no_progress with_reducible (conv => arg 3; whnf)
    | refine kept_upd ?_ rfl rfl rfl rfl

theorem execTapInstruction_kept {i : TapIns} (h : Kept qs vr s) :
    ResKept qs vr (execTapInstruction i s) := by
  unfold execTapInstruction
  refine untimed_kept (fun _ _ => ?_) h
  repeat' first
    | with_reducible assumption
    | with_reducible refine kept_ite ?_ ?_
    | with_reducible refine ans_ite_kept ?_ ?_
    | with_reducible refine (kept_modLife _ _).2 ?_
    | with_reducible refine (kept_emit _).2 ?_
    | extract_lets
    | split
    | fail_if_no_progress with_reducible (conv => arg 3; whnf)
    | refine kept_upd ?_ rfl rfl rfl rfl

theorem execRegisterWrite_kept {func off width : Nat} {val : BitVec 512} (h : Kept qs vr s) :
    ResKept qs vr (execRegisterWrite func off width val s) := by
  unfold execRegisterWrite
  refine untimed_kept (fun _ _ => ?_) h
  repeat' first
    | with_reducible assumption
    | with_reducible refine kept_ite ?_ ?_
    | with_reducible refine ans_ite_kept ?_ ?_
    | with_reducible apply regWrite4_kept
    | with_reducible refine foldl_kept (fun _ _ _ => ?_) ?_

theorem execCxlMemAccess_kept {now addr len : Nat} {write : Option (List Byte)} (h : Kept qs vr s) :
    ResKept qs vr (execCxlMemAccess now addr len write s) := by
  unfold execCxlMemAccess
  refine timed_kept (fun _ _ => ?_) h
  repeat' first
    | with_reducible assumption
    | with_reducible refine kept_ite ?_ ?_
    | with_reducible refine ans_ite_kept ?_ ?_
    | with_reducible apply devAccess_kept
    | with_reducible apply devAnswer_kept
    | with_reducible apply devForced_kept

theorem execApertureAccess_kept {now off len : Nat} {write : Option (List Byte)} (h : Kept qs vr s) :
    ResKept qs vr (execApertureAccess now off len write s) := by
  unfold execApertureAccess
  refine timed_kept (fun _ _ => ?_) h
  repeat' first
    | with_reducible assumption
    | with_reducible refine kept_ite ?_ ?_
    | with_reducible refine ans_ite_kept ?_ ?_
    | with_reducible apply aperAccess_kept

theorem execBiasSet_kept {m : Msg} (h : Kept qs vr s) :
    ResKept qs vr (execBiasSet m s) := by
  unfold execBiasSet
  refine mbx_kept (fun _ _ => ?_) h
  repeat' first
    | with_reducible assumption
    | with_reducible refine kept_ite ?_ ?_
    | with_reducible refine ans_ite_kept ?_ ?_
    | with_reducible refine ans_done_kept ?_
    | with_reducible exact ans_refuse_kept
    | with_reducible apply cleanRange_kept
    | with_reducible refine (kept_modPart _ _).2 ?_
    | with_reducible refine foldl_kept (fun _ _ _ => ?_) ?_
    | extract_lets
    | split

theorem execHostLinkDown_kept {now : Nat} {writes : Bool} {lost : LostTraffic} (h : Kept qs vr s) :
    ResKept qs vr (execHostLinkDown now writes lost s) := by
  unfold execHostLinkDown
  refine timed_kept (fun _ _ => ?_) h
  repeat' first
    | with_reducible assumption
    | with_reducible refine kept_ite ?_ ?_
    | with_reducible refine ans_ite_kept ?_ ?_
    | with_reducible apply detach_kept
    | with_reducible apply failStep_kept
    | with_reducible apply loseHost_kept
    | with_reducible apply modBobbin_kept
    | with_reducible apply reportCode_kept
    | with_reducible refine forAll_kept (fun _ _ _ => ?_) ?_
    | extract_lets
    | split
    | fail_if_no_progress with_reducible (conv => arg 3; whnf)
    | refine kept_upd ?_ rfl rfl rfl rfl

theorem execHostLinkUp_kept {now : Nat} (h : Kept qs vr s) :
    ResKept qs vr (execHostLinkUp now s) := by
  unfold execHostLinkUp
  refine timed_kept (fun _ _ => ?_) h
  repeat' first
    | with_reducible assumption
    | with_reducible refine kept_ite ?_ ?_
    | with_reducible refine ans_ite_kept ?_ ?_
    | extract_lets
    | split
    | fail_if_no_progress with_reducible (conv => arg 3; whnf)
    | refine kept_upd ?_ rfl rfl rfl rfl

theorem execHostMasterReadTimeout_kept {now slot : Nat} (h : Kept qs vr s) :
    ResKept qs vr (execHostMasterReadTimeout now slot s) := by
  unfold execHostMasterReadTimeout
  refine timed_kept (fun _ _ => ?_) h
  repeat' first
    | with_reducible assumption
    | with_reducible refine kept_ite ?_ ?_
    | with_reducible refine ans_ite_kept ?_ ?_
    | with_reducible apply report_kept

theorem execHbmReadReturn_kept {now port tag slot slotGen addr : Nat} {poison corrected : Bool} (h : Kept qs vr s) :
    ResKept qs vr (execHbmReadReturn now port tag slot slotGen addr poison corrected s) := by
  unfold execHbmReadReturn
  refine timed_kept (fun _ _ => ?_) h
  repeat' first
    | with_reducible assumption
    | with_reducible refine kept_ite ?_ ?_
    | with_reducible refine ans_ite_kept ?_ ?_
    | with_reducible apply consume_kept
    | with_reducible apply reportCode_kept
    | extract_lets
    | split
    | fail_if_no_progress with_reducible (conv => arg 3; whnf)
    | refine kept_upd ?_ rfl rfl rfl rfl

theorem execFlr_kept {now func : Nat} (h : Kept qs vr s) :
    ResKept qs vr (execFlr now func s) := by
  unfold execFlr
  refine timed_kept (fun _ _ => ?_) h
  repeat' first
    | with_reducible assumption
    | with_reducible refine kept_ite ?_ ?_
    | with_reducible refine ans_ite_kept ?_ ?_
    | with_reducible apply flrPart_kept
    | with_reducible apply orphan_kept
    | with_reducible refine (kept_modFunc _ _).2 ?_
    | with_reducible refine forAll_kept (fun _ _ _ => ?_) ?_

theorem execFlrComplete_kept {now func : Nat} (h : Kept qs vr s) :
    ResKept qs vr (execFlrComplete now func s) := by
  unfold execFlrComplete
  refine timed_kept (fun _ _ => ?_) h
  repeat' first
    | with_reducible assumption
    | with_reducible refine kept_ite ?_ ?_
    | with_reducible refine ans_ite_kept ?_ ?_
    | with_reducible apply hbmClear_kept
    | with_reducible apply scrubRecord_kept
    | with_reducible refine (kept_modFunc _ _).2 ?_
    | with_reducible refine forAll_kept (fun _ _ _ => ?_) ?_

theorem execMbxEnable_kept {func log2 vector : Nat} (h : Kept qs vr s) :
    ResKept qs vr (execMbxEnable func log2 vector s) := by
  unfold execMbxEnable
  refine untimed_kept (fun _ _ => ?_) h
  repeat' first
    | with_reducible assumption
    | with_reducible refine kept_ite ?_ ?_
    | with_reducible refine ans_ite_kept ?_ ?_
    | with_reducible refine (kept_modFunc _ _).2 ?_

theorem execMbxDisable_kept {func : Nat} (h : Kept qs vr s) :
    ResKept qs vr (execMbxDisable func s) := by
  unfold execMbxDisable
  refine untimed_kept (fun _ _ => ?_) h
  repeat' first
    | with_reducible assumption
    | with_reducible refine kept_ite ?_ ?_
    | with_reducible refine ans_ite_kept ?_ ?_
    | with_reducible refine (kept_modFunc _ _).2 ?_

theorem execMbxTail_kept {func tail : Nat} (h : Kept qs vr s) :
    ResKept qs vr (execMbxTail func tail s) := by
  unfold execMbxTail
  refine untimed_kept (fun _ _ => ?_) h
  repeat' first
    | with_reducible assumption
    | with_reducible refine kept_ite ?_ ?_
    | with_reducible refine ans_ite_kept ?_ ?_
    | with_reducible refine (kept_modFunc _ _).2 ?_

theorem execMbxRspHead_kept {func head : Nat} (h : Kept qs vr s) :
    ResKept qs vr (execMbxRspHead func head s) := by
  unfold execMbxRspHead
  refine untimed_kept (fun _ _ => ?_) h
  repeat' first
    | with_reducible assumption
    | with_reducible refine kept_ite ?_ ?_
    | with_reducible refine ans_ite_kept ?_ ?_
    | with_reducible refine (kept_modFunc _ _).2 ?_

theorem execMbxBootGo_kept {func : Nat} {alsoDone : Bool} (h : Kept qs vr s) :
    ResKept qs vr (execMbxBootGo func alsoDone s) := by
  unfold execMbxBootGo
  refine untimed_kept (fun _ _ => ?_) h
  repeat' first
    | with_reducible assumption
    | with_reducible refine kept_ite ?_ ?_
    | with_reducible refine ans_ite_kept ?_ ?_
    | with_reducible refine (kept_modFunc _ _).2 ?_

theorem execMbxBootDoneClear_kept {func : Nat} (h : Kept qs vr s) :
    ResKept qs vr (execMbxBootDoneClear func s) := by
  unfold execMbxBootDoneClear
  refine untimed_kept (fun _ _ => ?_) h
  repeat' first
    | with_reducible assumption
    | with_reducible refine kept_ite ?_ ?_
    | with_reducible refine ans_ite_kept ?_ ?_
    | with_reducible refine (kept_modFunc _ _).2 ?_

theorem execMailboxResponsePost_kept {now func : Nat} (h : Kept qs vr s) :
    ResKept qs vr (execMailboxResponsePost now func s) := by
  unfold execMailboxResponsePost
  refine timed_kept (fun _ _ => ?_) h
  repeat' first
    | with_reducible assumption
    | with_reducible refine kept_ite ?_ ?_
    | with_reducible refine ans_ite_kept ?_ ?_
    | with_reducible apply postRsp_kept
    | extract_lets
    | split

theorem execEvtRingSet_kept {m : Msg} (h : Kept qs vr s) :
    ResKept qs vr (execEvtRingSet m s) := by
  unfold execEvtRingSet
  refine mbx_kept (fun _ _ => ?_) h
  repeat' first
    | with_reducible assumption
    | with_reducible refine kept_ite ?_ ?_
    | with_reducible refine ans_ite_kept ?_ ?_
    | with_reducible refine ans_done_kept ?_
    | with_reducible refine (kept_modFunc _ _).2 ?_

theorem execEventEntryWrite_kept {now func : Nat} (h : Kept qs vr s) :
    ResKept qs vr (execEventEntryWrite now func s) := by
  unfold execEventEntryWrite
  refine timed_kept (fun _ _ => ?_) h
  repeat' first
    | with_reducible assumption
    | with_reducible refine kept_ite ?_ ?_
    | with_reducible refine ans_ite_kept ?_ ?_
    | with_reducible apply posted_kept
    | with_reducible apply writeEvt_kept
    | with_reducible refine (kept_modFunc _ _).2 ?_
    | extract_lets
    | split

theorem execRingVectorSend_kept {now func : Nat} (h : Kept qs vr s) :
    ResKept qs vr (execRingVectorSend now func s) := by
  unfold execRingVectorSend
  refine timed_kept (fun _ _ => ?_) h
  repeat' first
    | with_reducible assumption
    | with_reducible refine kept_ite ?_ ?_
    | with_reducible refine ans_ite_kept ?_ ?_
    | with_reducible refine (kept_modFunc _ _).2 ?_
    | with_reducible refine (kept_emit _).2 ?_

theorem execEvtFlush_kept {now func : Nat} (h : Kept qs vr s) :
    ResKept qs vr (execEvtFlush now func s) := by
  unfold execEvtFlush
  refine timed_kept (fun _ _ => ?_) h
  repeat' first
    | with_reducible assumption
    | with_reducible refine kept_ite ?_ ?_
    | with_reducible refine ans_ite_kept ?_ ?_
    | with_reducible apply readEffect_kept
    | with_reducible refine (kept_modFunc _ _).2 ?_

theorem execEvtHead_kept {func head : Nat} (h : Kept qs vr s) :
    ResKept qs vr (execEvtHead func head s) := by
  unfold execEvtHead
  refine untimed_kept (fun _ _ => ?_) h
  repeat' first
    | with_reducible assumption
    | with_reducible refine kept_ite ?_ ?_
    | with_reducible refine ans_ite_kept ?_ ?_
    | with_reducible refine (kept_modFunc _ _).2 ?_

theorem execReadBackComplete_kept {now func : Nat} (h : Kept qs vr s) :
    ResKept qs vr (execReadBackComplete now func s) := by
  unfold execReadBackComplete
  refine timed_kept (fun _ _ => ?_) h
  repeat' first
    | with_reducible assumption
    | with_reducible refine kept_ite ?_ ?_
    | with_reducible refine ans_ite_kept ?_ ?_
    | with_reducible refine (kept_modFunc _ _).2 ?_
    | extract_lets
    | split
    | fail_if_no_progress with_reducible (conv => arg 3; whnf)
    | refine kept_upd ?_ rfl rfl rfl rfl

end Sys2Proof.Machine
end

