-- ==== Sys2Proof/Laws/KeptMessages.lean ====
section
/-! SUPPORT. The commands of Bobbins, Checks, Contexts, Lifecycle, Observation, Partitions, Programs and Security keep what `Kept` says. -/

namespace Sys2Proof.Machine

variable {qs : List Instr} {vr : Variant} {s : State}

theorem execFillStart_kept {now part : Nat} (h : Kept qs vr s) :
    ResKept qs vr (execFillStart now part s) := by
  unfold execFillStart
  refine timed_kept (fun _ _ => ?_) h
  repeat' first
    | with_reducible assumption
    | with_reducible refine kept_ite ?_ ?_
    | with_reducible refine ans_ite_kept ?_ ?_
    | with_reducible apply failFetch_kept
    | with_reducible refine makeRoom_kept (by assumption) ?_
    | with_reducible apply probed_kept
    | with_reducible apply sendCtl_kept
    | with_reducible apply takePlaces_kept
    | with_reducible refine (kept_modPart _ _).2 ?_
    | with_reducible refine forAll_kept (fun _ _ _ => ?_) ?_
    | extract_lets
    | split

theorem execPeerProbeTimeout_kept {now part pkg : Nat} (h : Kept qs vr s) :
    ResKept qs vr (execPeerProbeTimeout now part pkg s) := by
  unfold execPeerProbeTimeout
  refine timed_kept (fun _ _ => ?_) h
  repeat' first
    | with_reducible assumption
    | with_reducible refine kept_ite ?_ ?_
    | with_reducible refine ans_ite_kept ?_ ?_
    | with_reducible apply modFill_kept
    | with_reducible apply probed_kept

theorem execPeerProbe_kept {now part pkg : Nat} {x : Probe} {enrolled : Bool} (h : Kept qs vr s) :
    ResKept qs vr (execPeerProbe now part pkg x enrolled s) := by
  unfold execPeerProbe
  refine timed_kept (fun _ _ => ?_) h
  repeat' first
    | with_reducible assumption
    | with_reducible refine kept_ite ?_ ?_
    | with_reducible refine ans_ite_kept ?_ ?_
    | with_reducible apply sendCtl_kept

theorem execChunkArrival_kept {now part pkg chunk : Nat} {x : ChunkData} (h : Kept qs vr s) :
    ResKept qs vr (execChunkArrival now part pkg chunk x s) := by
  unfold execChunkArrival
  refine timed_kept (fun u hu => ?_) h
  split
  · exact hu
  · extract_lets b
    refine kept_ite hu ?_
    split
    · exact failFetch_kept _ _ _ (kept_ite (check_kept _ _ _ _ hu) (reportCode_kept _ hu))
    · refine kept_ite hu ?_
      extract_lets s1
      have h1 : Kept qs vr s1 := kept_ite (countGlobal_kept _ _ hu) hu
      clear_value s1
      split
      rename_i e
      have h2 := ingest_kept_of e h1
      refine kept_ite ?_ (kept_ite (failFetch_kept _ _ _ h2) (report_kept _ (refetch_kept _ _ _ h2)))
      exact check_kept _ _ _ _ (modFill_kept _ _ (healChunk_kept _ _ _ (modBobbin_kept _ _ _ h2)))

theorem execFillComplete_kept {now part : Nat} (h : Kept qs vr s) :
    ResKept qs vr (execFillComplete now part s) := by
  unfold execFillComplete
  refine timed_kept (fun _ _ => ?_) h
  repeat' first
    | with_reducible assumption
    | with_reducible refine kept_ite ?_ ?_
    | with_reducible refine ans_ite_kept ?_ ?_
    | with_reducible apply failFetch_kept
    | with_reducible apply modBobbin_kept
    | with_reducible refine (kept_modPart _ _).2 ?_
    | extract_lets
    | split

theorem execBobbinInstall_kept {m : Msg} (h : Kept qs vr s) :
    ResKept qs vr (execBobbinInstall m s) := by
  unfold execBobbinInstall
  refine mbx_kept (fun _ _ => ?_) h
  repeat' first
    | with_reducible assumption
    | with_reducible refine kept_ite ?_ ?_
    | with_reducible refine ans_ite_kept ?_ ?_
    | with_reducible refine ans_later_kept ?_
    | with_reducible refine ans_reply_kept ?_
    | with_reducible exact ans_refuse_kept
    | with_reducible apply modBobbin_kept
    | extract_lets
    | split

theorem execBobbinInstallDone_kept {now part idx : Nat} (h : Kept qs vr s) :
    ResKept qs vr (execBobbinInstallDone now part idx s) := by
  unfold execBobbinInstallDone
  refine timed_kept (fun _ _ => ?_) h
  repeat' first
    | with_reducible assumption
    | with_reducible refine kept_ite ?_ ?_
    | with_reducible refine ans_ite_kept ?_ ?_
    | with_reducible apply answerOpt_kept
    | with_reducible apply answerWith_kept
    | with_reducible apply count_kept
    | with_reducible apply healChunk_kept
    | with_reducible refine makeRoom_kept (by assumption) ?_
    | with_reducible apply modBobbin_kept
    | with_reducible apply takePlaces_kept
    | with_reducible apply writeBacking_kept
    | with_reducible refine (kept_modPart _ _).2 ?_
    | with_reducible refine forAll_kept (fun _ _ _ => ?_) ?_
    | extract_lets
    | split
    | fail_if_no_progress with_reducible (conv => arg 3; whnf)
    | refine kept_upd ?_ rfl rfl rfl rfl

theorem execBobbinRemove_kept {m : Msg} (h : Kept qs vr s) :
    ResKept qs vr (execBobbinRemove m s) := by
  unfold execBobbinRemove
  refine mbx_kept (fun _ _ => ?_) h
  repeat' first
    | with_reducible assumption
    | with_reducible refine kept_ite ?_ ?_
    | with_reducible refine ans_ite_kept ?_ ?_
    | with_reducible refine ans_done_kept ?_
    | with_reducible exact ans_refuse_kept
    | with_reducible apply removeBobbin_kept

theorem execBobbinPrefetch_kept {m : Msg} (h : Kept qs vr s) :
    ResKept qs vr (execBobbinPrefetch m s) := by
  unfold execBobbinPrefetch
  refine mbx_kept (fun _ _ => ?_) h
  repeat' first
    | with_reducible assumption
    | with_reducible refine kept_ite ?_ ?_
    | with_reducible refine ans_ite_kept ?_ ?_
    | with_reducible refine ans_done_kept ?_
    | with_reducible exact ans_refuse_kept
    | with_reducible apply wantBobbin_kept

theorem execBobbinEvict_kept {m : Msg} (h : Kept qs vr s) :
    ResKept qs vr (execBobbinEvict m s) := by
  unfold execBobbinEvict
  refine mbx_kept (fun _ _ => ?_) h
  repeat' first
    | with_reducible assumption
    | with_reducible refine kept_ite ?_ ?_
    | with_reducible refine ans_ite_kept ?_ ?_
    | with_reducible refine ans_done_kept ?_
    | with_reducible exact ans_refuse_kept
    | with_reducible apply leaveStore_kept

theorem execBobbinPin_kept {m : Msg} (h : Kept qs vr s) :
    ResKept qs vr (execBobbinPin m s) := by
  unfold execBobbinPin
  refine mbx_kept (fun _ _ => ?_) h
  repeat' first
    | with_reducible assumption
    | with_reducible refine kept_ite ?_ ?_
    | with_reducible refine ans_ite_kept ?_ ?_
    | with_reducible refine ans_done_kept ?_
    | with_reducible exact ans_refuse_kept
    | with_reducible apply modBobbin_kept
    | with_reducible apply wantBobbin_kept

theorem execBobbinUnpin_kept {m : Msg} (h : Kept qs vr s) :
    ResKept qs vr (execBobbinUnpin m s) := by
  unfold execBobbinUnpin
  refine mbx_kept (fun _ _ => ?_) h
  repeat' first
    | with_reducible assumption
    | with_reducible refine kept_ite ?_ ?_
    | with_reducible refine ans_ite_kept ?_ ?_
    | with_reducible refine ans_done_kept ?_
    | with_reducible exact ans_refuse_kept
    | with_reducible apply modBobbin_kept

theorem execBobbinList_kept {m : Msg} (h : Kept qs vr s) :
    ResKept qs vr (execBobbinList m s) := by
  unfold execBobbinList
  refine mbx_kept (fun _ _ => ?_) h
  repeat' first
    | with_reducible assumption
    | with_reducible refine kept_ite ?_ ?_
    | with_reducible refine ans_ite_kept ?_ ?_
    | with_reducible refine ans_output_kept ?_

theorem execBobbinSources_kept {m : Msg} (h : Kept qs vr s) :
    ResKept qs vr (execBobbinSources m s) := by
  unfold execBobbinSources
  refine mbx_kept (fun _ _ => ?_) h
  repeat' first
    | with_reducible assumption
    | with_reducible refine kept_ite ?_ ?_
    | with_reducible refine ans_ite_kept ?_ ?_
    | with_reducible refine ans_done_kept ?_
    | with_reducible refine (kept_modPart _ _).2 ?_

theorem execBobbinBacking_kept {m : Msg} (h : Kept qs vr s) :
    ResKept qs vr (execBobbinBacking m s) := by
  unfold execBobbinBacking
  refine mbx_kept (fun _ _ => ?_) h
  repeat' first
    | with_reducible assumption
    | with_reducible refine kept_ite ?_ ?_
    | with_reducible refine ans_ite_kept ?_ ?_
    | with_reducible refine ans_done_kept ?_
    | with_reducible refine (kept_modPart _ _).2 ?_

theorem execFaultRead_kept {m : Msg} (h : Kept qs vr s) :
    ResKept qs vr (execFaultRead m s) := by
  unfold execFaultRead
  refine mbx_kept (fun _ _ => ?_) h
  repeat' first
    | with_reducible assumption
    | with_reducible refine kept_ite ?_ ?_
    | with_reducible refine ans_ite_kept ?_ ?_
    | with_reducible refine ans_reply_kept ?_

theorem execFaultClear_kept {m : Msg} (h : Kept qs vr s) :
    ResKept qs vr (execFaultClear m s) := by
  unfold execFaultClear
  refine mbx_kept (fun t ht => ?_) h
  have hc : Kept qs vr (t.modColl fun c => clearUnits (time t) c (fld m.payload 8 8)) := modColl_kept (clearUnits_collKept _ _) ht
  exact ans_done_kept (kept_ite ((kept_modAon _).2 hc) hc)

theorem execFaultInject_kept {m : Msg} (h : Kept qs vr s) :
    ResKept qs vr (execFaultInject m s) := by
  unfold execFaultInject
  refine mbx_kept (fun _ _ => ?_) h
  repeat' first
    | with_reducible assumption
    | with_reducible refine kept_ite ?_ ?_
    | with_reducible refine ans_ite_kept ?_ ?_
    | with_reducible refine ans_done_kept ?_
    | with_reducible exact ans_refuse_kept
    | with_reducible refine modColl_kept ?_ ?_
    | exact fun h => ⟨h.1, h.2⟩

theorem execFaultReport_kept {now : Nat} {r : Report} (h : Kept qs vr s) :
    ResKept qs vr (execFaultReport now r s) := by
  unfold execFaultReport
  refine timed_kept (fun _ _ => ?_) h
  repeat' first
    | with_reducible assumption
    | with_reducible refine kept_ite ?_ ?_
    | with_reducible refine ans_ite_kept ?_ ?_
    | with_reducible apply report_kept
    | with_reducible apply reportSide_kept

theorem execCheckerExercise_kept {now unit engine checker : Nat} {flagged : Bool} (h : Kept qs vr s) :
    ResKept qs vr (execCheckerExercise now unit engine checker flagged s) := by
  unfold execCheckerExercise
  refine timed_kept (fun _ _ => ?_) h
  repeat' first
    | with_reducible assumption
    | with_reducible refine kept_ite ?_ ?_
    | with_reducible refine ans_ite_kept ?_ ?_
    | with_reducible apply expose_kept
    | with_reducible refine modColl_kept ?_ ?_
    | exact fun h => ⟨h.1, h.2⟩

theorem execErrorPinTest_kept {now unit : Nat} {answered : Bool} (h : Kept qs vr s) :
    ResKept qs vr (execErrorPinTest now unit answered s) := by
  unfold execErrorPinTest
  refine timed_kept (fun _ _ => ?_) h
  repeat' first
    | with_reducible assumption
    | with_reducible refine kept_ite ?_ ?_
    | with_reducible refine ans_ite_kept ?_ ?_
    | with_reducible refine modColl_kept ?_ ?_
    | exact fun h => ⟨h.1, h.2⟩

theorem execErrorPinTestTimeout_kept {now unit : Nat} (h : Kept qs vr s) :
    ResKept qs vr (execErrorPinTestTimeout now unit s) := by
  unfold execErrorPinTestTimeout
  refine timed_kept (fun _ _ => ?_) h
  repeat' first
    | with_reducible assumption
    | with_reducible refine kept_ite ?_ ?_
    | with_reducible refine ans_ite_kept ?_ ?_
    | with_reducible apply expose_kept
    | with_reducible refine modColl_kept ?_ ?_
    | exact fun h => ⟨h.1, h.2⟩

theorem execWatchdogExpiry_kept {now : Nat} (h : Kept qs vr s) :
    ResKept qs vr (execWatchdogExpiry now s) := by
  unfold execWatchdogExpiry
  refine timed_kept (fun _ _ => ?_) h
  repeat' first
    | with_reducible assumption
    | with_reducible refine kept_ite ?_ ?_
    | with_reducible refine ans_ite_kept ?_ ?_
    | with_reducible apply reportCode_kept

theorem execThermalThrottleEngaged_kept {now : Nat} (h : Kept qs vr s) :
    ResKept qs vr (execThermalThrottleEngaged now s) := by
  unfold execThermalThrottleEngaged
  refine timed_kept (fun _ _ => ?_) h
  repeat' first
    | with_reducible assumption
    | with_reducible refine kept_ite ?_ ?_
    | with_reducible refine ans_ite_kept ?_ ?_
    | with_reducible apply throttle_kept

theorem execThermalThrottleReleased_kept {now : Nat} (h : Kept qs vr s) :
    ResKept qs vr (execThermalThrottleReleased now s) := by
  unfold execThermalThrottleReleased
  refine timed_kept (fun _ _ => ?_) h
  repeat' first
    | with_reducible assumption
    | with_reducible refine kept_ite ?_ ?_
    | with_reducible refine ans_ite_kept ?_ ?_
    | with_reducible apply retune_kept
    | with_reducible refine (kept_modPower _ _).2 ?_
    | with_reducible refine forAll_kept (fun _ _ _ => ?_) ?_
    | extract_lets
    | split
    | fail_if_no_progress with_reducible (conv => arg 3; whnf)
    | refine kept_upd ?_ rfl rfl rfl rfl

theorem execAnalogueSlice_kept {now die item : Nat} {tiles : List Nat} {inTolerance : Bool} (h : Kept qs vr s) :
    ResKept qs vr (execAnalogueSlice now die item tiles inTolerance s) := by
  unfold execAnalogueSlice
  refine timed_kept (fun _ _ => ?_) h
  repeat' first
    | with_reducible assumption
    | with_reducible refine kept_ite ?_ ?_
    | with_reducible refine ans_ite_kept ?_ ?_
    | with_reducible apply analogueFail_kept
    | with_reducible apply consume_kept
    | with_reducible apply rotate_kept
    | with_reducible refine modColl_kept ?_ ?_
    | exact fun h => ⟨h.1, h.2⟩

theorem execAnalogueRotationMissed_kept {now item : Nat} (h : Kept qs vr s) :
    ResKept qs vr (execAnalogueRotationMissed now item s) := by
  unfold execAnalogueRotationMissed
  refine timed_kept (fun _ _ => ?_) h
  repeat' first
    | with_reducible assumption
    | with_reducible refine kept_ite ?_ ?_
    | with_reducible refine ans_ite_kept ?_ ?_
    | with_reducible apply reportCode_kept

theorem execContextCreate_kept {m : Msg} (h : Kept qs vr s) :
    ResKept qs vr (execContextCreate m s) := by
  unfold execContextCreate
  refine mbx_kept (fun _ _ => ?_) h
  repeat' first
    | with_reducible assumption
    | with_reducible refine kept_ite ?_ ?_
    | with_reducible refine ans_ite_kept ?_ ?_
    | with_reducible refine ans_detail_kept ?_
    | with_reducible exact ans_refuse_kept
    | with_reducible refine (kept_modCtx _ _).2 ?_
    | extract_lets
    | split
    | fail_if_no_progress with_reducible (conv => arg 3; whnf)
    | refine kept_upd ?_ rfl rfl rfl rfl

theorem execContextDestroy_kept {m : Msg} (h : Kept qs vr s) :
    ResKept qs vr (execContextDestroy m s) := by
  unfold execContextDestroy
  refine mbx_kept (fun _ _ => ?_) h
  repeat' first
    | with_reducible assumption
    | with_reducible refine kept_ite ?_ ?_
    | with_reducible refine ans_ite_kept ?_ ?_
    | with_reducible refine ans_done_kept ?_
    | with_reducible refine ans_later_kept ?_
    | with_reducible exact ans_refuse_kept
    | with_reducible apply teardown_kept
    | with_reducible refine (kept_modCtx _ _).2 ?_
    | extract_lets
    | split

theorem execContextReset_kept {m : Msg} (h : Kept qs vr s) :
    ResKept qs vr (execContextReset m s) := by
  unfold execContextReset
  refine mbx_kept (fun _ _ => ?_) h
  repeat' first
    | with_reducible assumption
    | with_reducible refine kept_ite ?_ ?_
    | with_reducible refine ans_ite_kept ?_ ?_
    | with_reducible refine ans_done_kept ?_
    | with_reducible refine ans_later_kept ?_
    | with_reducible exact ans_refuse_kept
    | with_reducible apply failAll_kept
    | with_reducible refine (kept_modPart _ _).2 ?_
    | extract_lets
    | split

theorem execProcessEnd_kept {m : Msg} (h : Kept qs vr s) :
    ResKept qs vr (execProcessEnd m s) := by
  unfold execProcessEnd
  refine mbx_kept (fun _ _ => ?_) h
  repeat' first
    | with_reducible assumption
    | with_reducible refine kept_ite ?_ ?_
    | with_reducible refine ans_ite_kept ?_ ?_
    | with_reducible refine ans_done_kept ?_
    | with_reducible exact ans_refuse_kept
    | with_reducible apply teardown_kept
    | with_reducible refine forAll_kept (fun _ _ _ => ?_) ?_

theorem execMemAlloc_kept {m : Msg} (h : Kept qs vr s) :
    ResKept qs vr (execMemAlloc m s) := by
  unfold execMemAlloc
  refine mbx_kept (fun _ _ => ?_) h
  repeat' first
    | with_reducible assumption
    | with_reducible refine kept_ite ?_ ?_
    | with_reducible refine ans_ite_kept ?_ ?_
    | with_reducible refine ans_later_kept ?_
    | with_reducible refine ans_reply_kept ?_
    | with_reducible exact ans_refuse_kept
    | with_reducible refine (kept_modPart _ _).2 ?_
    | extract_lets
    | split

theorem execZeroFillDone_kept {now part obj : Nat} (h : Kept qs vr s) :
    ResKept qs vr (execZeroFillDone now part obj s) := by
  unfold execZeroFillDone
  refine timed_kept (fun _ _ => ?_) h
  repeat' first
    | with_reducible assumption
    | with_reducible refine kept_ite ?_ ?_
    | with_reducible refine ans_ite_kept ?_ ?_
    | with_reducible apply answerWith_kept
    | with_reducible apply hbmClear_kept
    | with_reducible refine (kept_modPart _ _).2 ?_
    | extract_lets
    | split

theorem execMemFree_kept {m : Msg} (h : Kept qs vr s) :
    ResKept qs vr (execMemFree m s) := by
  unfold execMemFree
  refine mbx_kept (fun _ _ => ?_) h
  repeat' first
    | with_reducible assumption
    | with_reducible refine kept_ite ?_ ?_
    | with_reducible refine ans_ite_kept ?_ ?_
    | with_reducible refine ans_done_kept ?_
    | with_reducible exact ans_refuse_kept
    | with_reducible apply reap_kept
    | with_reducible refine (kept_modPart _ _).2 ?_
    | extract_lets
    | split

theorem execFenceCreate_kept {m : Msg} (h : Kept qs vr s) :
    ResKept qs vr (execFenceCreate m s) := by
  unfold execFenceCreate
  refine mbx_kept (fun _ _ => ?_) h
  repeat' first
    | with_reducible assumption
    | with_reducible refine kept_ite ?_ ?_
    | with_reducible refine ans_ite_kept ?_ ?_
    | with_reducible refine ans_detail_kept ?_
    | with_reducible exact ans_refuse_kept
    | with_reducible refine (kept_modPart _ _).2 ?_
    | extract_lets
    | split

theorem execFenceSignal_kept {m : Msg} (h : Kept qs vr s) :
    ResKept qs vr (execFenceSignal m s) := by
  unfold execFenceSignal
  refine mbx_kept (fun _ _ => ?_) h
  repeat' first
    | with_reducible assumption
    | with_reducible refine kept_ite ?_ ?_
    | with_reducible refine ans_ite_kept ?_ ?_
    | with_reducible refine ans_done_kept ?_
    | with_reducible exact ans_refuse_kept
    | with_reducible refine fenceMsg_kept (fun _ => ?_)
    | with_reducible apply signalFence_kept

theorem execFenceReset_kept {m : Msg} (h : Kept qs vr s) :
    ResKept qs vr (execFenceReset m s) := by
  unfold execFenceReset
  refine mbx_kept (fun _ _ => ?_) h
  repeat' first
    | with_reducible assumption
    | with_reducible refine kept_ite ?_ ?_
    | with_reducible refine ans_ite_kept ?_ ?_
    | with_reducible refine ans_done_kept ?_
    | with_reducible exact ans_refuse_kept
    | with_reducible refine fenceMsg_kept (fun _ => ?_)
    | with_reducible refine (kept_modPart _ _).2 ?_

theorem execFenceDestroy_kept {m : Msg} (h : Kept qs vr s) :
    ResKept qs vr (execFenceDestroy m s) := by
  unfold execFenceDestroy
  refine mbx_kept (fun _ _ => ?_) h
  repeat' first
    | with_reducible assumption
    | with_reducible refine kept_ite ?_ ?_
    | with_reducible refine ans_ite_kept ?_ ?_
    | with_reducible refine ans_done_kept ?_
    | with_reducible exact ans_refuse_kept
    | with_reducible refine fenceMsg_kept (fun _ => ?_)
    | with_reducible apply reap_kept
    | with_reducible apply signalFence_kept
    | with_reducible refine (kept_modPart _ _).2 ?_

theorem execFenceTimeout_kept {now slot j : Nat} (h : Kept qs vr s) :
    ResKept qs vr (execFenceTimeout now slot j s) := by
  unfold execFenceTimeout
  refine timed_kept (fun _ _ => ?_) h
  repeat' first
    | with_reducible assumption
    | with_reducible refine kept_ite ?_ ?_
    | with_reducible refine ans_ite_kept ?_ ?_
    | with_reducible apply failStep_kept
    | with_reducible refine (kept_modStep _ _).2 ?_

theorem execEcho_kept {m : Msg} (h : Kept qs vr s) :
    ResKept qs vr (execEcho m s) := by
  unfold execEcho
  refine mbx_kept (fun _ _ => ?_) h
  repeat' first
    | with_reducible assumption
    | with_reducible refine kept_ite ?_ ?_
    | with_reducible refine ans_ite_kept ?_ ?_
    | with_reducible refine ans_reply_kept ?_

theorem execCapQuery_kept {m : Msg} (h : Kept qs vr s) :
    ResKept qs vr (execCapQuery m s) := by
  unfold execCapQuery
  refine mbx_kept (fun _ _ => ?_) h
  repeat' first
    | with_reducible assumption
    | with_reducible refine kept_ite ?_ ?_
    | with_reducible refine ans_ite_kept ?_ ?_
    | with_reducible refine ans_reply_kept ?_

theorem execBootStatus_kept {m : Msg} (h : Kept qs vr s) :
    ResKept qs vr (execBootStatus m s) := by
  unfold execBootStatus
  refine mbx_kept (fun _ _ => ?_) h
  repeat' first
    | with_reducible assumption
    | with_reducible refine kept_ite ?_ ?_
    | with_reducible refine ans_ite_kept ?_ ?_
    | with_reducible refine ans_reply_kept ?_

theorem execLcTransition_kept {m : Msg} {eraseOk : Bool} (h : Kept qs vr s) :
    ResKept qs vr (execLcTransition m eraseOk s) := by
  unfold execLcTransition
  refine mbx_kept (fun _ _ => ?_) h
  repeat' first
    | with_reducible assumption
    | with_reducible refine kept_ite ?_ ?_
    | with_reducible refine ans_ite_kept ?_ ?_
    | with_reducible refine ans_later_kept ?_
    | with_reducible refine ans_reply_kept ?_
    | with_reducible exact ans_refuse_kept
    | with_reducible refine draw_kept_of (by assumption) ?_
    | with_reducible refine (kept_modLife _ _).2 ?_
    | with_reducible refine (kept_emit _).2 ?_
    | extract_lets
    | split
    | fail_if_no_progress with_reducible (conv => arg 3; whnf)
    | refine kept_upd ?_ rfl rfl rfl rfl

theorem execFwUpdate_kept {m : Msg} (h : Kept qs vr s) :
    ResKept qs vr (execFwUpdate m s) := by
  unfold execFwUpdate
  refine mbx_kept (fun _ _ => ?_) h
  repeat' first
    | with_reducible assumption
    | with_reducible refine kept_ite ?_ ?_
    | with_reducible refine ans_ite_kept ?_ ?_
    | with_reducible refine writeImage_kept ?_

theorem execFwRecover_kept {m : Msg} (h : Kept qs vr s) :
    ResKept qs vr (execFwRecover m s) := by
  unfold execFwRecover
  refine mbx_kept (fun _ _ => ?_) h
  repeat' first
    | with_reducible assumption
    | with_reducible refine kept_ite ?_ ?_
    | with_reducible refine ans_ite_kept ?_ ?_
    | with_reducible refine writeImage_kept ?_

theorem execFlashOperationDone_kept {now : Nat} {ok : Bool} (h : Kept qs vr s) :
    ResKept qs vr (execFlashOperationDone now ok s) := by
  unfold execFlashOperationDone
  refine timed_kept (fun _ _ => ?_) h
  repeat' first
    | with_reducible assumption
    | with_reducible refine kept_ite ?_ ?_
    | with_reducible refine ans_ite_kept ?_ ?_
    | with_reducible apply imageDone_kept
    | with_reducible apply slotDone_kept
    | with_reducible refine (kept_modLife _ _).2 ?_
    | extract_lets
    | split
    | fail_if_no_progress with_reducible (conv => arg 3; whnf)
    | refine kept_upd ?_ rfl rfl rfl rfl

theorem execSleepEnter_kept {m : Msg} (h : Kept qs vr s) :
    ResKept qs vr (execSleepEnter m s) := by
  unfold execSleepEnter
  refine mbx_kept (fun _ _ => ?_) h
  repeat' first
    | with_reducible assumption
    | with_reducible refine kept_ite ?_ ?_
    | with_reducible refine ans_ite_kept ?_ ?_
    | with_reducible refine ans_done_kept ?_
    | with_reducible exact ans_refuse_kept
    | extract_lets
    | split
    | fail_if_no_progress with_reducible (conv => arg 3; whnf)
    | refine kept_upd ?_ rfl rfl rfl rfl

theorem execCounterSelect_kept {m : Msg} (h : Kept qs vr s) :
    ResKept qs vr (execCounterSelect m s) := by
  unfold execCounterSelect
  refine mbx_kept (fun _ _ => ?_) h
  repeat' first
    | with_reducible assumption
    | with_reducible refine kept_ite ?_ ?_
    | with_reducible refine ans_ite_kept ?_ ?_
    | with_reducible refine ans_done_kept ?_
    | with_reducible exact ans_refuse_kept
    | with_reducible apply staged_kept
    | with_reducible refine (kept_modPart _ _).2 ?_

theorem execCounterRead_kept {m : Msg} (h : Kept qs vr s) :
    ResKept qs vr (execCounterRead m s) := by
  unfold execCounterRead
  refine mbx_kept (fun _ _ => ?_) h
  repeat' first
    | with_reducible assumption
    | with_reducible refine kept_ite ?_ ?_
    | with_reducible refine ans_ite_kept ?_ ?_
    | with_reducible refine ans_output_kept ?_
    | with_reducible exact ans_refuse_kept

theorem execCounterFreeze_kept {m : Msg} (h : Kept qs vr s) :
    ResKept qs vr (execCounterFreeze m s) := by
  unfold execCounterFreeze
  refine mbx_kept (fun _ _ => ?_) h
  repeat' first
    | with_reducible assumption
    | with_reducible refine kept_ite ?_ ?_
    | with_reducible refine ans_ite_kept ?_ ?_
    | with_reducible refine ans_done_kept ?_
    | with_reducible refine ans_detail_kept ?_
    | with_reducible apply freeCounts_kept
    | with_reducible apply traceTrigger_kept
    | with_reducible refine forAll_kept (fun _ _ _ => ?_) ?_
    | extract_lets
    | split
    | fail_if_no_progress with_reducible (conv => arg 3; whnf)
    | refine kept_upd ?_ rfl rfl rfl rfl

theorem execFreezeTick_kept {now : Nat} (h : Kept qs vr s) :
    ResKept qs vr (execFreezeTick now s) := by
  unfold execFreezeTick
  refine timed_kept (fun _ _ => ?_) h
  repeat' first
    | with_reducible assumption
    | with_reducible refine kept_ite ?_ ?_
    | with_reducible refine ans_ite_kept ?_ ?_
    | with_reducible apply holdCounts_kept

theorem execPmcLowHalfRead_kept {func off : Nat} (h : Kept qs vr s) :
    ResKept qs vr (execPmcLowHalfRead func off s) := by
  unfold execPmcLowHalfRead
  refine untimed_kept (fun _ _ => ?_) h
  repeat' first
    | with_reducible assumption
    | with_reducible refine kept_ite ?_ ?_
    | with_reducible refine ans_ite_kept ?_ ?_
    | with_reducible apply readEffect_kept
    | with_reducible refine (kept_modPart _ _).2 ?_
    | extract_lets
    | split
    | fail_if_no_progress with_reducible (conv => arg 3; whnf)
    | refine kept_upd ?_ rfl rfl rfl rfl

theorem execTraceConfig_kept {m : Msg} (h : Kept qs vr s) :
    ResKept qs vr (execTraceConfig m s) := by
  unfold execTraceConfig
  refine mbx_kept (fun _ _ => ?_) h
  repeat' first
    | with_reducible assumption
    | with_reducible refine kept_ite ?_ ?_
    | with_reducible refine ans_ite_kept ?_ ?_
    | with_reducible refine ans_done_kept ?_
    | with_reducible exact ans_refuse_kept
    | with_reducible apply reap_kept
    | with_reducible apply traceOff_kept
    | with_reducible apply traceSync_kept
    | with_reducible refine (kept_modPart _ _).2 ?_
    | extract_lets
    | split

theorem execWatchSelect_kept {m : Msg} (h : Kept qs vr s) :
    ResKept qs vr (execWatchSelect m s) := by
  unfold execWatchSelect
  refine mbx_kept (fun _ _ => ?_) h
  repeat' first
    | with_reducible assumption
    | with_reducible refine kept_ite ?_ ?_
    | with_reducible refine ans_ite_kept ?_ ?_
    | with_reducible refine ans_done_kept ?_
    | with_reducible exact ans_refuse_kept
    | with_reducible apply staged_kept
    | with_reducible refine (kept_modPart _ _).2 ?_
    | extract_lets
    | split

theorem execHangReport_kept {m : Msg} (h : Kept qs vr s) :
    ResKept qs vr (execHangReport m s) := by
  unfold execHangReport
  refine mbx_kept (fun _ _ => ?_) h
  repeat' first
    | with_reducible assumption
    | with_reducible refine kept_ite ?_ ?_
    | with_reducible refine ans_ite_kept ?_ ?_
    | with_reducible refine ans_output_kept ?_
    | with_reducible exact ans_refuse_kept
    | extract_lets
    | split

theorem execGstStop_kept {now : Nat} {alsoRelease : Bool} (h : Kept qs vr s) :
    ResKept qs vr (execGstStop now alsoRelease s) := by
  unfold execGstStop
  refine timed_kept (fun _ _ => ?_) h
  repeat' first
    | with_reducible assumption
    | with_reducible refine kept_ite ?_ ?_
    | with_reducible refine ans_ite_kept ?_ ?_
    | with_reducible apply gstStart_kept

theorem execGstRelease_kept {now : Nat} (h : Kept qs vr s) :
    ResKept qs vr (execGstRelease now s) := by
  unfold execGstRelease
  refine timed_kept (fun _ _ => ?_) h
  repeat' first
    | with_reducible assumption
    | with_reducible refine kept_ite ?_ ?_
    | with_reducible refine ans_ite_kept ?_ ?_
    | with_reducible apply gstFree_kept

theorem execGstHalted_kept {now : Nat} (h : Kept qs vr s) :
    ResKept qs vr (execGstHalted now s) := by
  unfold execGstHalted
  refine timed_kept (fun _ _ => ?_) h
  repeat' first
    | with_reducible assumption
    | with_reducible refine kept_ite ?_ ?_
    | with_reducible refine ans_ite_kept ?_ ?_
    | extract_lets
    | split
    | fail_if_no_progress with_reducible (conv => arg 3; whnf)
    | refine kept_upd ?_ rfl rfl rfl rfl

theorem execGstScanSel_kept {tile chain : Nat} (h : Kept qs vr s) :
    ResKept qs vr (execGstScanSel tile chain s) := by
  unfold execGstScanSel
  refine untimed_kept (fun _ _ => ?_) h
  repeat' first
    | with_reducible assumption
    | with_reducible refine kept_ite ?_ ?_
    | with_reducible refine ans_ite_kept ?_ ?_
    | with_reducible apply gstSelect_kept

theorem execGstScanData_kept {parityError : Bool} (h : Kept qs vr s) :
    ResKept qs vr (execGstScanData parityError s) := by
  unfold execGstScanData
  refine untimed_kept (fun _ _ => ?_) h
  repeat' first
    | with_reducible assumption
    | with_reducible refine kept_ite ?_ ?_
    | with_reducible refine ans_ite_kept ?_ ?_
    | with_reducible refine draw_kept_of (by assumption) ?_
    | with_reducible apply readEffect_kept
    | with_reducible apply reportCode_kept
    | with_reducible refine (kept_emit _).2 ?_
    | extract_lets
    | split
    | fail_if_no_progress with_reducible (conv => arg 3; whnf)
    | refine kept_upd ?_ rfl rfl rfl rfl

theorem execJobCreate_kept {m : Msg} {answers : List Answer} (h : Kept qs vr s) :
    ResKept qs vr (execJobCreate m answers s) := by
  unfold execJobCreate
  refine mbx_kept (fun _ _ => ?_) h
  repeat' first
    | with_reducible assumption
    | with_reducible refine kept_ite ?_ ?_
    | with_reducible refine ans_ite_kept ?_ ?_
    | with_reducible refine ans_detail_kept ?_
    | with_reducible refine ans_later_kept ?_
    | with_reducible exact ans_refuse_kept
    | with_reducible apply askMembers_kept
    | with_reducible apply installRoutes_kept
    | with_reducible refine (kept_modJob _ _).2 ?_
    | extract_lets
    | split

theorem execJobMemberTimeout_kept {now job : Nat} (h : Kept qs vr s) :
    ResKept qs vr (execJobMemberTimeout now job s) := by
  unfold execJobMemberTimeout
  refine timed_kept (fun _ _ => ?_) h
  repeat' first
    | with_reducible assumption
    | with_reducible refine kept_ite ?_ ?_
    | with_reducible refine ans_ite_kept ?_ ?_
    | with_reducible apply answerOpt_kept
    | with_reducible apply dropJob_kept

theorem execJobQuery_kept {m : Msg} (h : Kept qs vr s) :
    ResKept qs vr (execJobQuery m s) := by
  unfold execJobQuery
  refine mbx_kept (fun _ _ => ?_) h
  repeat' first
    | with_reducible assumption
    | with_reducible refine kept_ite ?_ ?_
    | with_reducible refine ans_ite_kept ?_ ?_
    | with_reducible refine ans_output_kept ?_
    | with_reducible exact ans_refuse_kept
    | extract_lets
    | split

theorem execJobDestroy_kept {m : Msg} (h : Kept qs vr s) :
    ResKept qs vr (execJobDestroy m s) := by
  unfold execJobDestroy
  refine mbx_kept (fun _ _ => ?_) h
  repeat' first
    | with_reducible assumption
    | with_reducible refine kept_ite ?_ ?_
    | with_reducible refine ans_ite_kept ?_ ?_
    | with_reducible refine ans_done_kept ?_
    | with_reducible exact ans_refuse_kept
    | with_reducible apply dropJob_kept
    | extract_lets
    | split

theorem execPartitionCreate_kept {m : Msg} (h : Kept qs vr s) :
    ResKept qs vr (execPartitionCreate m s) := by
  unfold execPartitionCreate
  refine mbx_kept (fun _ _ => ?_) h
  repeat' first
    | with_reducible assumption
    | with_reducible refine kept_ite ?_ ?_
    | with_reducible refine ans_ite_kept ?_ ?_
    | with_reducible refine ans_later_kept ?_
    | with_reducible exact ans_refuse_kept
    | with_reducible apply takeWays_kept
    | with_reducible refine (kept_modPart _ _).2 ?_

theorem execPartitionTablesBuilt_kept {now part : Nat} (h : Kept qs vr s) :
    ResKept qs vr (execPartitionTablesBuilt now part s) := by
  unfold execPartitionTablesBuilt
  refine timed_kept (fun _ _ => ?_) h
  repeat' first
    | with_reducible assumption
    | with_reducible refine kept_ite ?_ ?_
    | with_reducible refine ans_ite_kept ?_ ?_
    | with_reducible apply answerOpt_kept
    | with_reducible apply firstTune_kept
    | with_reducible refine (kept_modPart _ _).2 ?_

theorem execPartitionDestroy_kept {m : Msg} (h : Kept qs vr s) :
    ResKept qs vr (execPartitionDestroy m s) := by
  unfold execPartitionDestroy
  refine mbx_kept (fun _ _ => ?_) h
  repeat' first
    | with_reducible assumption
    | with_reducible refine kept_ite ?_ ?_
    | with_reducible refine ans_ite_kept ?_ ?_
    | with_reducible refine ans_later_kept ?_
    | with_reducible exact ans_refuse_kept
    | with_reducible apply beginDestroy_kept

theorem execPartitionScrubVerified_kept {now part : Nat} {countersOk : Bool} (h : Kept qs vr s) :
    ResKept qs vr (execPartitionScrubVerified now part countersOk s) := by
  unfold execPartitionScrubVerified
  refine timed_kept (fun _ _ => ?_) h
  repeat' first
    | with_reducible assumption
    | with_reducible refine kept_ite ?_ ?_
    | with_reducible refine ans_ite_kept ?_ ?_
    | with_reducible apply answer_kept
    | with_reducible apply answerOpt_kept
    | with_reducible apply clearTiles_kept
    | with_reducible apply hbmClear_kept
    | with_reducible apply idleTiles_kept
    | with_reducible apply requestRails_kept
    | with_reducible apply scrubRecord_kept
    | with_reducible apply selfReset_kept
    | with_reducible refine (kept_modPower _ _).2 ?_
    | with_reducible refine forAll_kept (fun _ _ _ => ?_) ?_
    | extract_lets
    | split
    | fail_if_no_progress with_reducible (conv => arg 3; whnf)
    | refine kept_upd ?_ rfl rfl rfl rfl

theorem execProgramLoad_kept {m : Msg} (h : Kept qs vr s) :
    ResKept qs vr (execProgramLoad m s) := by
  unfold execProgramLoad
  extract_lets b
  split
  · exact h
  · exact mbx_kept (fun _ ht => loadOwn_kept ht) h

theorem execProgramLoadDone_kept {now part prog : Nat} (h : Kept qs vr s) :
    ResKept qs vr (execProgramLoadDone now part prog s) := by
  unfold execProgramLoadDone
  refine timed_kept (fun _ _ => ?_) h
  repeat' first
    | with_reducible assumption
    | with_reducible refine kept_ite ?_ ?_
    | with_reducible refine ans_ite_kept ?_ ?_
    | with_reducible apply answerWith_kept
    | with_reducible apply modProg_kept
    | extract_lets
    | split

theorem execProgramUnload_kept {m : Msg} (h : Kept qs vr s) :
    ResKept qs vr (execProgramUnload m s) := by
  unfold execProgramUnload
  refine mbx_kept (fun _ _ => ?_) h
  repeat' first
    | with_reducible assumption
    | with_reducible refine kept_ite ?_ ?_
    | with_reducible refine ans_ite_kept ?_ ?_
    | with_reducible refine ans_done_kept ?_
    | with_reducible exact ans_refuse_kept
    | with_reducible apply dropProgram_kept
    | with_reducible apply modProg_kept
    | extract_lets
    | split

theorem execPlacementHint_kept {m : Msg} (h : Kept qs vr s) :
    ResKept qs vr (execPlacementHint m s) := by
  unfold execPlacementHint
  refine mbx_kept (fun _ _ => ?_) h
  repeat' first
    | with_reducible assumption
    | with_reducible refine kept_ite ?_ ?_
    | with_reducible refine ans_ite_kept ?_ ?_
    | with_reducible refine ans_done_kept ?_
    | with_reducible exact ans_refuse_kept
    | with_reducible apply modProg_kept
    | with_reducible apply staged_kept
    | extract_lets
    | split

theorem execPlacementLog_kept {m : Msg} (h : Kept qs vr s) :
    ResKept qs vr (execPlacementLog m s) := by
  unfold execPlacementLog
  refine mbx_kept (fun _ _ => ?_) h
  repeat' first
    | with_reducible assumption
    | with_reducible refine kept_ite ?_ ?_
    | with_reducible refine ans_ite_kept ?_ ?_
    | with_reducible refine ans_done_kept ?_
    | with_reducible exact ans_refuse_kept
    | with_reducible apply objWrite_kept
    | with_reducible refine (kept_modCtx _ _).2 ?_
    | extract_lets
    | split

theorem execSpdmRequest_kept {now : Nat} {q : SpdmReq} (h : Kept qs vr s) :
    ResKept qs vr (execSpdmRequest now q s) := by
  unfold execSpdmRequest
  refine timed_kept (fun _ _ => ?_) h
  repeat' first
    | with_reducible assumption
    | with_reducible refine kept_ite ?_ ?_
    | with_reducible refine ans_ite_kept ?_ ?_
    | with_reducible apply spdmAns_kept
    | with_reducible apply spdmReply_kept

theorem execDebugEnable_kept {m : Msg} (h : Kept qs vr s) :
    ResKept qs vr (execDebugEnable m s) := by
  unfold execDebugEnable
  refine mbx_kept (fun _ _ => ?_) h
  repeat' first
    | with_reducible assumption
    | with_reducible refine kept_ite ?_ ?_
    | with_reducible refine ans_ite_kept ?_ ?_
    | with_reducible refine ans_done_kept ?_
    | with_reducible exact ans_refuse_kept
    | with_reducible apply traceOff_kept
    | with_reducible refine forAll_kept (fun _ _ _ => ?_) ?_
    | extract_lets
    | split
    | fail_if_no_progress with_reducible (conv => arg 3; whnf)
    | refine kept_upd ?_ rfl rfl rfl rfl

theorem execDevsetEnroll_kept {m : Msg} (h : Kept qs vr s) :
    ResKept qs vr (execDevsetEnroll m s) := by
  unfold execDevsetEnroll
  refine mbx_kept (fun _ _ => ?_) h
  repeat' first
    | with_reducible assumption
    | with_reducible refine kept_ite ?_ ?_
    | with_reducible refine ans_ite_kept ?_ ?_
    | with_reducible refine ans_detail_kept ?_
    | with_reducible exact ans_refuse_kept
    | with_reducible apply leaveSet_kept
    | with_reducible refine (kept_modLife _ _).2 ?_
    | extract_lets
    | split
    | fail_if_no_progress with_reducible (conv => arg 3; whnf)
    | refine kept_upd ?_ rfl rfl rfl rfl

theorem execDevsetLeave_kept {m : Msg} (h : Kept qs vr s) :
    ResKept qs vr (execDevsetLeave m s) := by
  unfold execDevsetLeave
  refine mbx_kept (fun _ _ => ?_) h
  repeat' first
    | with_reducible assumption
    | with_reducible refine kept_ite ?_ ?_
    | with_reducible refine ans_ite_kept ?_ ?_
    | with_reducible refine ans_done_kept ?_
    | with_reducible exact ans_refuse_kept
    | with_reducible apply leaveSet_kept
    | with_reducible refine (kept_modLife _ _).2 ?_
    | extract_lets
    | split
    | fail_if_no_progress with_reducible (conv => arg 3; whnf)
    | refine kept_upd ?_ rfl rfl rfl rfl

theorem execMbxKeyExport_kept {m : Msg} (h : Kept qs vr s) :
    ResKept qs vr (execMbxKeyExport m s) := by
  unfold execMbxKeyExport
  refine mbx_kept (fun _ _ => ?_) h
  repeat' first
    | with_reducible assumption
    | with_reducible refine kept_ite ?_ ?_
    | with_reducible refine ans_ite_kept ?_ ?_
    | with_reducible refine ans_output_kept ?_
    | with_reducible exact ans_refuse_kept
    | with_reducible refine drawKey_kept_of (by assumption) ?_
    | with_reducible refine (kept_modFunc _ _).2 ?_
    | extract_lets
    | split
    | fail_if_no_progress with_reducible (conv => arg 3; whnf)
    | refine kept_upd ?_ rfl rfl rfl rfl

end Sys2Proof.Machine
end

