-- ==== Sys2Proof/Laws/KeptTiles.lean ====
section
/-! SUPPORT. The commands of Matrix, Vector, Skein, Sorter, Fabric, Scheduling and Jobs keep what `Kept` says. -/

namespace Sys2Proof.Machine

variable {qs : List Instr} {vr : Variant} {s : State}

theorem execMma_kept {t a b bank : Nat} {clear bounded : Bool} {bound : Nat} (h : Kept qs vr s) :
    ResKept qs vr (execMma t a b bank clear bounded bound s) := by
  unfold execMma
  refine skein_kept (fun u k st r hu => ?_) h
  extract_lets va rows x
  refine guarded_kept _ _ _ _ _ (fun v hv => ?_) hu
  extract_lets poison old q w1 w2 w3 w4
  refine kept_ite (skeinFault_kept _ _ _ hv) (kept_ite (failStep_kept _ _ hv) ?_)
  exact moved_kept _ _ _ _ _ _ (moved_kept _ _ _ _ _ _ (count_kept _ _ _ (count_kept _ _ _ (setRun_kept _ _ hv))))

theorem execDrain_kept {t d bank rnd : Nat} {sat : Bool} {shift : Nat} (h : Kept qs vr s) :
    ResKept qs vr (execDrain t d bank rnd sat shift s) := by
  unfold execDrain
  refine skein_kept (fun u k st r hu => ?_) h
  extract_lets f v x int cs
  generalize e : drawGroups u t (if x.format = 0 then 0 else rnd) cs.length = g
  obtain ⟨gs, w⟩ := g
  have hw : Kept qs vr w := drawGroups_kept_of e hu
  exact moved_kept _ _ _ _ _ _ (noteWords_kept _ _ _ (watchOp_kept _ _ _ _ (putAll_kept _ _ _ (setRun_kept _ _ hw))))

theorem execVld_kept {t a v lane rnd : Nat} (h : Kept qs vr s) :
    ResKept qs vr (execVld t a v lane rnd s) := by
  unfold execVld
  refine skein_kept (fun u k st r hu => ?_) h
  refine guarded_kept _ _ _ _ _ (fun v' hv => ?_) hu
  extract_lets f x es same
  refine kept_ite (skeinFault_kept _ _ _ hv) ?_
  generalize e : drawGroups v' t (if same then 0 else rnd) es.length = g
  obtain ⟨gs, w⟩ := g
  have hw : Kept qs vr w := drawGroups_kept_of e hv
  exact moved_kept _ _ _ _ _ _ (count_kept _ _ _ (setRun_kept _ _ hw))

theorem execVst_kept {t d v lane rnd : Nat} {sat compress maps : Bool} (h : Kept qs vr s) :
    ResKept qs vr (execVst t d v lane rnd sat compress maps s) := by
  unfold execVst
  refine skein_kept (fun u k st r' hu => ?_) h
  extract_lets f w x vs written
  generalize e : drawGroups u t (if x.format = laneFmt lane then 0 else rnd) written = g
  obtain ⟨gs, y⟩ := g
  have hy : Kept qs vr y := drawGroups_kept_of e hu
  exact moved_kept _ _ _ _ _ _ (count_kept _ _ _ (noteWords_kept _ _ _ (watchOp_kept _ _ _ _ (putAll_kept _ _ _ (setRun_kept _ _ hy)))))

theorem execVop_kept {t fn lane x y z d rel : Nat} (h : Kept qs vr s) :
    ResKept qs vr (execVop t fn lane x y z d rel s) := by
  unfold execVop
  refine skein_kept (fun _ _ _ _ _ => ?_) h
  repeat' first
    | with_reducible assumption
    | with_reducible refine kept_ite ?_ ?_
    | with_reducible refine ans_ite_kept ?_ ?_
    | with_reducible apply count_kept
    | with_reducible apply setRun_kept

theorem execVfn_kept {t fn x d : Nat} (h : Kept qs vr s) :
    ResKept qs vr (execVfn t fn x d s) := by
  unfold execVfn
  refine skein_kept (fun _ _ _ _ _ => ?_) h
  repeat' first
    | with_reducible assumption
    | with_reducible refine kept_ite ?_ ?_
    | with_reducible refine ans_ite_kept ?_ ?_
    | with_reducible apply count_kept
    | with_reducible apply setRun_kept

theorem execVred_kept {t fn x d : Nat} (h : Kept qs vr s) :
    ResKept qs vr (execVred t fn x d s) := by
  unfold execVred
  refine skein_kept (fun _ _ _ _ _ => ?_) h
  repeat' first
    | with_reducible assumption
    | with_reducible refine kept_ite ?_ ?_
    | with_reducible refine ans_ite_kept ?_ ?_
    | with_reducible apply count_kept
    | with_reducible apply setRun_kept

theorem execNop_kept {t : Nat} (h : Kept qs vr s) :
    ResKept qs vr (execNop t s) := by
  unfold execNop
  refine skein_kept (fun _ _ _ _ _ => ?_) h
  repeat' first
    | with_reducible assumption

theorem execSkipz_kept {t sc n : Nat} (h : Kept qs vr s) :
    ResKept qs vr (execSkipz t sc n s) := by
  unfold execSkipz
  refine skein_kept (fun _ _ _ _ _ => ?_) h
  repeat' first
    | with_reducible assumption
    | with_reducible refine kept_ite ?_ ?_
    | with_reducible refine ans_ite_kept ?_ ?_
    | with_reducible apply setRun_kept

theorem execSkipnz_kept {t sc n : Nat} (h : Kept qs vr s) :
    ResKept qs vr (execSkipnz t sc n s) := by
  unfold execSkipnz
  refine skein_kept (fun _ _ _ _ _ => ?_) h
  repeat' first
    | with_reducible assumption
    | with_reducible refine kept_ite ?_ ?_
    | with_reducible refine ans_ite_kept ?_ ?_
    | with_reducible apply setRun_kept

theorem execSeti_kept {t d : Nat} {v : BitVec 32} (h : Kept qs vr s) :
    ResKept qs vr (execSeti t d v s) := by
  unfold execSeti
  refine skein_kept (fun _ _ _ _ _ => ?_) h
  repeat' first
    | with_reducible assumption
    | with_reducible refine kept_ite ?_ ?_
    | with_reducible refine ans_ite_kept ?_ ?_
    | with_reducible apply setScalar_kept

theorem execPred_kept {t d : Nat} (h : Kept qs vr s) :
    ResKept qs vr (execPred t d s) := by
  unfold execPred
  refine skein_kept (fun _ _ _ _ _ => ?_) h
  repeat' first
    | with_reducible assumption
    | with_reducible refine kept_ite ?_ ?_
    | with_reducible refine ans_ite_kept ?_ ?_
    | with_reducible apply setScalar_kept

theorem execStat_kept {t d : Nat} (h : Kept qs vr s) :
    ResKept qs vr (execStat t d s) := by
  unfold execStat
  refine skein_kept (fun _ _ _ _ _ => ?_) h
  repeat' first
    | with_reducible assumption
    | with_reducible refine kept_ite ?_ ?_
    | with_reducible refine ans_ite_kept ?_ ?_
    | with_reducible apply setScalar_kept

theorem execSst_kept {t sc off d : Nat} (h : Kept qs vr s) :
    ResKept qs vr (execSst t sc off d s) := by
  unfold execSst
  refine skein_kept (fun _ _ _ _ _ => ?_) h
  repeat' first
    | with_reducible assumption
    | with_reducible refine kept_ite ?_ ?_
    | with_reducible refine ans_ite_kept ?_ ?_
    | with_reducible apply putAll_kept

@[simp] theorem askFetch_kept (st : Step) (a m qp : Nat) (h : Kept qs vr s) : Kept qs vr (askFetch s st a m qp) := by
  unfold askFetch
  extract_lets
  split
  rename_i e
  split
  rename_i e'
  exact sendCtl_kept _ _ _ _ (draw_kept_of e' (draw_kept_of e h))

theorem execFetch_kept {t a d member : Nat} (h : Kept qs vr s) :
    ResKept qs vr (execFetch t a d member s) := by
  unfold execFetch
  refine skein_kept (fun u k st r hu => ?_) h
  split
  · exact copyView_kept _ _ _ _ _ hu
  · split
    · exact withholdOp_kept _ _ _ hu
    · split
      rename_i e
      exact askFetch_kept _ _ _ _ ((kept_modStep _ _).2 (setRun_kept _ _ (newOp_kept_of e hu)))

theorem execSend_kept {t a d member : Nat} (h : Kept qs vr s) :
    ResKept qs vr (execSend t a d member s) := by
  unfold execSend
  refine skein_kept (fun u k st r hu => ?_) h
  extract_lets f k' s1 src
  have h1 : Kept qs vr s1 := copyRead_kept _ _ _ _ hu
  split
  · exact kept_ite (check_kept _ _ _ _ hu) (copyView_kept _ _ _ _ _ hu)
  · split
    · exact withholdOp_kept _ _ _ hu
    · split
      rename_i e
      split
      rename_i e'
      exact sendAll_kept _ _ ((kept_modStep _ _).2 (setRun_kept _ _ (moved_kept _ _ _ _ _ _ (draw_kept_of e' (newOp_kept_of e h1)))))

theorem execColl_kept {t a d pattern red first count root : Nat} (h : Kept qs vr s) :
    ResKept qs vr (execColl t a d pattern red first count root s) := by
  unfold execColl
  refine skein_kept (fun u k st r hu => ?_) h
  extract_lets f j own next prev s1 k'
  have h1 : Kept qs vr s1 := copyRead_kept _ _ _ _ hu
  split
  · split
    rename_i e
    have h2 := draw_kept_of e h1
    extract_lets c
    split
    rename_i e'
    have h3 := newOp_kept_of e' h2
    exact addPlan_kept _ _ (addPlan_kept _ _ ((kept_modStep _ _).2 (setRun_kept _ _ (moved_kept _ _ _ _ _ _ h3))))
  · exact withholdOp_kept _ _ _ hu
  · exact withholdOp_kept _ _ _ hu

theorem execSort_kept {t a idx : Nat} (h : Kept qs vr s) :
    ResKept qs vr (execSort t a idx s) := by
  unfold execSort
  refine skein_kept (fun _ _ _ _ _ => ?_) h
  repeat' first
    | with_reducible assumption
    | with_reducible refine kept_ite ?_ ?_
    | with_reducible refine ans_ite_kept ?_ ?_
    | with_reducible apply failStep_kept
    | with_reducible apply feedSorter_kept
    | with_reducible refine pickFree_kept_of (by assumption) ?_
    | with_reducible apply setRun_kept
    | with_reducible apply skeinFault_kept
    | with_reducible refine (kept_modStep _ _).2 ?_
    | extract_lets
    | split
    | fail_if_no_progress with_reducible (conv => arg 3; whnf)
    | refine kept_upd ?_ rfl rfl rfl rfl

theorem execDigest_kept {t a d : Nat} (h : Kept qs vr s) :
    ResKept qs vr (execDigest t a d s) := by
  unfold execDigest
  refine skein_kept (fun _ _ _ _ _ => ?_) h
  repeat' first
    | with_reducible assumption
    | with_reducible refine kept_ite ?_ ?_
    | with_reducible refine ans_ite_kept ?_ ?_
    | with_reducible apply moved_kept
    | with_reducible apply putAll_kept
    | with_reducible apply skeinFault_kept

theorem execMapclr_kept {t d : Nat} (h : Kept qs vr s) :
    ResKept qs vr (execMapclr t d s) := by
  unfold execMapclr
  refine skein_kept (fun _ _ _ _ _ => ?_) h
  repeat' first
    | with_reducible assumption
    | with_reducible refine kept_ite ?_ ?_
    | with_reducible refine ans_ite_kept ?_ ?_
    | with_reducible apply putAll_kept

theorem execSortStart_kept {now die : Nat} (h : Kept qs vr s) :
    ResKept qs vr (execSortStart now die s) := by
  unfold execSortStart
  refine timed_kept (fun _ _ => ?_) h
  repeat' first
    | with_reducible assumption
    | with_reducible refine kept_ite ?_ ?_
    | with_reducible refine ans_ite_kept ?_ ?_
    | with_reducible apply failStep_kept
    | with_reducible apply feedSorter_kept
    | with_reducible apply requestDone_kept
    | with_reducible apply traceStep_kept
    | with_reducible refine (kept_modSorter _ _).2 ?_
    | extract_lets
    | split

theorem execSortComplete_kept {now die : Nat} (h : Kept qs vr s) :
    ResKept qs vr (execSortComplete now die s) := by
  unfold execSortComplete
  refine timed_kept (fun _ _ => ?_) h
  repeat' first
    | with_reducible assumption
    | with_reducible refine kept_ite ?_ ?_
    | with_reducible refine ans_ite_kept ?_ ?_
    | with_reducible apply charge_kept
    | with_reducible apply check_kept
    | with_reducible refine draw_kept_of (by assumption) ?_
    | with_reducible apply feedSorter_kept
    | with_reducible apply report_kept
    | with_reducible apply requestDone_kept
    | with_reducible apply sendBuckets_kept
    | with_reducible apply settleSkeins_kept
    | with_reducible apply sortCounted_kept
    | with_reducible apply tellPeers_kept
    | with_reducible apply traceStep_kept
    | with_reducible apply writeSort_kept
    | with_reducible refine (kept_modStep _ _).2 ?_
    | with_reducible refine (kept_modSorter _ _).2 ?_
    | extract_lets
    | split
    | fail_if_no_progress with_reducible (conv => arg 3; whnf)
    | refine kept_upd ?_ rfl rfl rfl rfl

theorem execManifestArrival_kept {now slot idx expert : Nat} {cell : Manifest} (h : Kept qs vr s) :
    ResKept qs vr (execManifestArrival now slot idx expert cell s) := by
  unfold execManifestArrival
  refine timed_kept (fun _ _ => ?_) h
  repeat' first
    | with_reducible assumption
    | with_reducible refine kept_ite ?_ ?_
    | with_reducible refine ans_ite_kept ?_ ?_
    | with_reducible apply settleExpert_kept
    | with_reducible apply settleSkeins_kept
    | with_reducible refine (kept_modStep _ _).2 ?_
    | extract_lets
    | split

theorem execLinkPortUp_kept {now port cells bulks : Nat} (h : Kept qs vr s) :
    ResKept qs vr (execLinkPortUp now port cells bulks s) := by
  unfold execLinkPortUp
  refine timed_kept (fun _ _ => ?_) h
  repeat' first
    | with_reducible assumption
    | with_reducible refine kept_ite ?_ ?_
    | with_reducible refine ans_ite_kept ?_ ?_
    | with_reducible refine (kept_modPort _ _).2 ?_
    | with_reducible refine (kept_emit _).2 ?_

theorem execKeyExchangeFrame_kept {port : Nat} {chainOk sigOk : Bool} {peerState : Nat} {last : Bool} (h : Kept qs vr s) :
    ResKept qs vr (execKeyExchangeFrame port chainOk sigOk peerState last s) := by
  unfold execKeyExchangeFrame
  refine untimed_kept (fun _ _ => ?_) h
  repeat' first
    | with_reducible assumption
    | with_reducible refine kept_ite ?_ ?_
    | with_reducible refine ans_ite_kept ?_ ?_
    | with_reducible refine drawKey_kept_of (by assumption) ?_
    | with_reducible apply reportCode_kept
    | with_reducible refine (kept_modPort _ _).2 ?_
    | with_reducible refine (kept_emit _).2 ?_
    | extract_lets
    | split
    | fail_if_no_progress with_reducible (conv => arg 3; whnf)
    | refine kept_upd ?_ rfl rfl rfl rfl

theorem execLinkPortDown_kept {now port : Nat} (h : Kept qs vr s) :
    ResKept qs vr (execLinkPortDown now port s) := by
  unfold execLinkPortDown
  refine timed_kept (fun _ _ => ?_) h
  repeat' first
    | with_reducible assumption
    | with_reducible refine kept_ite ?_ ?_
    | with_reducible refine ans_ite_kept ?_ ?_
    | with_reducible apply dropPort_kept
    | with_reducible apply reportCode_kept

theorem execCreditReturn_kept {now port : Nat} {bulk : Bool} {n : Nat} (h : Kept qs vr s) :
    ResKept qs vr (execCreditReturn now port bulk n s) := by
  unfold execCreditReturn
  refine timed_kept (fun _ _ => ?_) h
  repeat' first
    | with_reducible assumption
    | with_reducible refine kept_ite ?_ ?_
    | with_reducible refine ans_ite_kept ?_ ?_
    | with_reducible apply drainTx_kept
    | with_reducible apply dropPort_kept
    | with_reducible apply reportCode_kept
    | with_reducible apply sweepBobbins_kept
    | with_reducible refine (kept_modPort _ _).2 ?_
    | with_reducible refine forAll_kept (fun _ _ _ => ?_) ?_

theorem execCellArrival_kept {now port : Nat} {c : Cell} (h : Kept qs vr s) :
    ResKept qs vr (execCellArrival now port c s) := by
  unfold execCellArrival
  refine timed_kept (fun u hu => ?_) h
  refine kept_ite (frameFailure_kept _ hu) ?_
  extract_lets ctl s1
  have h1 : Kept qs vr s1 := arrive_kept _ _ _ _ _ _ _ _ _ hu
  clear_value s1 ctl
  cases ctl with
  | some x => exact takeCtl_kept _ h1
  | none => exact h1

theorem execBulkMessageArrival_kept {now port : Nat} {b : Bulk} (h : Kept qs vr s) :
    ResKept qs vr (execBulkMessageArrival now port b s) := by
  unfold execBulkMessageArrival
  refine timed_kept (fun _ _ => ?_) h
  repeat' first
    | with_reducible assumption
    | with_reducible refine kept_ite ?_ ?_
    | with_reducible refine ans_ite_kept ?_ ?_
    | with_reducible apply arrive_kept
    | with_reducible apply frameFailure_kept

theorem execPlanStart_kept {now engine : Nat} (h : Kept qs vr s) :
    ResKept qs vr (execPlanStart now engine s) := by
  unfold execPlanStart
  refine timed_kept (fun _ _ => ?_) h
  repeat' first
    | with_reducible assumption
    | with_reducible refine kept_ite ?_ ?_
    | with_reducible refine ans_ite_kept ?_ ?_
    | with_reducible apply planRun_kept
    | with_reducible apply startAdded_kept
    | with_reducible apply traceStep_kept
    | with_reducible refine (kept_modReducer _ _).2 ?_
    | extract_lets
    | split

theorem execPlanComplete_kept {now engine busy : Nat} (h : Kept qs vr s) :
    ResKept qs vr (execPlanComplete now engine busy s) := by
  unfold execPlanComplete
  refine timed_kept (fun _ _ => ?_) h
  repeat' first
    | with_reducible assumption
    | with_reducible refine kept_ite ?_ ?_
    | with_reducible refine ans_ite_kept ?_ ?_
    | with_reducible apply check_kept
    | with_reducible apply endPlan_kept
    | extract_lets
    | split

theorem execRemoteTimeout_kept {now op : Nat} (h : Kept qs vr s) :
    ResKept qs vr (execRemoteTimeout now op s) := by
  unfold execRemoteTimeout
  refine timed_kept (fun _ _ => ?_) h
  repeat' first
    | with_reducible assumption
    | with_reducible refine kept_ite ?_ ?_
    | with_reducible refine ans_ite_kept ?_ ?_
    | with_reducible apply failWith_kept
    | extract_lets
    | split

theorem execQueuePairDown_kept {now qp : Nat} (h : Kept qs vr s) :
    ResKept qs vr (execQueuePairDown now qp s) := by
  unfold execQueuePairDown
  refine timed_kept (fun _ _ => ?_) h
  repeat' first
    | with_reducible assumption
    | with_reducible refine kept_ite ?_ ?_
    | with_reducible refine ans_ite_kept ?_ ?_
    | with_reducible apply failWith_kept
    | with_reducible refine forAll_kept (fun _ _ _ => ?_) ?_

theorem execQueueCreate_kept {m : Msg} (h : Kept qs vr s) :
    ResKept qs vr (execQueueCreate m s) := by
  unfold execQueueCreate
  refine mbx_kept (fun _ _ => ?_) h
  repeat' first
    | with_reducible assumption
    | with_reducible refine kept_ite ?_ ?_
    | with_reducible refine ans_ite_kept ?_ ?_
    | with_reducible refine ans_detail_kept ?_
    | with_reducible exact ans_refuse_kept
    | with_reducible refine (kept_modQueue _ _).2 ?_
    | extract_lets
    | split

theorem execQueueDestroy_kept {m : Msg} (h : Kept qs vr s) :
    ResKept qs vr (execQueueDestroy m s) := by
  unfold execQueueDestroy
  refine mbx_kept (fun _ _ => ?_) h
  repeat' first
    | with_reducible assumption
    | with_reducible refine kept_ite ?_ ?_
    | with_reducible refine ans_ite_kept ?_ ?_
    | with_reducible refine ans_done_kept ?_
    | with_reducible exact ans_refuse_kept
    | with_reducible apply reap_kept
    | with_reducible refine (kept_modQueue _ _).2 ?_
    | extract_lets
    | split
    | fail_if_no_progress with_reducible (conv => arg 3; whnf)
    | refine kept_upd ?_ rfl rfl rfl rfl

theorem execStepQueueDoorbell_kept {func index tail : Nat} (h : Kept qs vr s) :
    ResKept qs vr (execStepQueueDoorbell func index tail s) := by
  unfold execStepQueueDoorbell
  refine untimed_kept (fun _ _ => ?_) h
  repeat' first
    | with_reducible assumption
    | with_reducible refine kept_ite ?_ ?_
    | with_reducible refine ans_ite_kept ?_ ?_
    | with_reducible apply ringDoorbell_kept

theorem execSchedSet_kept {m : Msg} (h : Kept qs vr s) :
    ResKept qs vr (execSchedSet m s) := by
  unfold execSchedSet
  refine mbx_kept (fun _ _ => ?_) h
  repeat' first
    | with_reducible assumption
    | with_reducible refine kept_ite ?_ ?_
    | with_reducible refine ans_ite_kept ?_ ?_
    | with_reducible refine ans_done_kept ?_
    | with_reducible exact ans_refuse_kept
    | with_reducible apply staged_kept
    | with_reducible refine (kept_modPart _ _).2 ?_

theorem execAccountRead_kept {m : Msg} (h : Kept qs vr s) :
    ResKept qs vr (execAccountRead m s) := by
  unfold execAccountRead
  refine mbx_kept (fun _ _ => ?_) h
  repeat' first
    | with_reducible assumption
    | with_reducible refine kept_ite ?_ ?_
    | with_reducible refine ans_ite_kept ?_ ?_
    | with_reducible refine ans_output_kept ?_
    | with_reducible exact ans_refuse_kept

theorem execPowerLimit_kept {m : Msg} (h : Kept qs vr s) :
    ResKept qs vr (execPowerLimit m s) := by
  unfold execPowerLimit
  refine mbx_kept (fun _ _ => ?_) h
  repeat' first
    | with_reducible assumption
    | with_reducible refine kept_ite ?_ ?_
    | with_reducible refine ans_ite_kept ?_ ?_
    | with_reducible refine ans_done_kept ?_
    | with_reducible exact ans_refuse_kept
    | with_reducible refine draw_kept_of (by assumption) ?_
    | with_reducible refine (kept_modPower _ _).2 ?_
    | extract_lets
    | split
    | fail_if_no_progress with_reducible (conv => arg 3; whnf)
    | refine kept_upd ?_ rfl rfl rfl rfl

theorem execPowerModelUpdate_kept {now modelMw : Nat} (h : Kept qs vr s) :
    ResKept qs vr (execPowerModelUpdate now modelMw s) := by
  unfold execPowerModelUpdate
  refine timed_kept (fun t ht => ?_) h
  split
  · split
    · exact staged_kept _ ((kept_modPower _).2 ht)
    · exact ht
  · split
    · split
      · exact staged_kept _ ((kept_modPower _).2 ht)
      · exact ht
    · exact ht

theorem execStepAdmit_kept {now q slot base fbBase : Nat} (h : Kept qs vr s) :
    ResKept qs vr (execStepAdmit now q slot base fbBase s) := by
  unfold execStepAdmit
  refine timed_kept (fun _ _ => ?_) h
  repeat' first
    | with_reducible assumption
    | with_reducible refine kept_ite ?_ ?_
    | with_reducible refine ans_ite_kept ?_ ?_
    | with_reducible refine acceptStep_kept (by assumption) ?_
    | with_reducible refine (kept_modQueue _ _).2 ?_
    | extract_lets
    | split
    | fail_if_no_progress with_reducible (conv => arg 3; whnf)
    | refine kept_upd ?_ rfl rfl rfl rfl

theorem execStepReady_kept {now slot : Nat} (h : Kept qs vr s) :
    ResKept qs vr (execStepReady now slot s) := by
  unfold execStepReady
  refine timed_kept (fun _ _ => ?_) h
  repeat' first
    | with_reducible assumption
    | with_reducible refine kept_ite ?_ ?_
    | with_reducible refine ans_ite_kept ?_ ?_
    | with_reducible apply requestSwitch_kept
    | with_reducible apply setState_kept
    | extract_lets
    | split

theorem execStepBoundary_kept {now part : Nat} {audit : Audit} (h : Kept qs vr s) :
    ResKept qs vr (execStepBoundary now part audit s) := by
  unfold execStepBoundary
  refine timed_kept (fun _ _ => ?_) h
  repeat' first
    | with_reducible assumption
    | with_reducible refine kept_ite ?_ ?_
    | with_reducible refine ans_ite_kept ?_ ?_
    | with_reducible apply enterBoundary_kept
    | with_reducible apply failStep_kept
    | with_reducible apply reportCode_kept
    | with_reducible apply rerouteJobs_kept
    | with_reducible apply resetPartition_kept
    | with_reducible apply startBlockReset_kept
    | with_reducible apply startStep_kept
    | extract_lets
    | split

theorem execQuantumExpiry_kept {now part : Nat} (h : Kept qs vr s) :
    ResKept qs vr (execQuantumExpiry now part s) := by
  unfold execQuantumExpiry
  refine timed_kept (fun _ _ => ?_) h
  repeat' first
    | with_reducible assumption
    | with_reducible refine kept_ite ?_ ?_
    | with_reducible refine ans_ite_kept ?_ ?_
    | with_reducible apply requestSwitch_kept

theorem execStepSwitch_kept {now part : Nat} {spill : Bool} (h : Kept qs vr s) :
    ResKept qs vr (execStepSwitch now part spill s) := by
  unfold execStepSwitch
  refine timed_kept (fun _ _ => ?_) h
  repeat' first
    | with_reducible assumption
    | with_reducible refine kept_ite ?_ ?_
    | with_reducible refine ans_ite_kept ?_ ?_
    | with_reducible apply switchAway_kept
    | with_reducible refine (kept_modPart _ _).2 ?_
    | extract_lets
    | split

theorem execSpillDone_kept {now part : Nat} (h : Kept qs vr s) :
    ResKept qs vr (execSpillDone now part s) := by
  unfold execSpillDone
  refine timed_kept (fun _ _ => ?_) h
  repeat' first
    | with_reducible assumption
    | with_reducible refine kept_ite ?_ ?_
    | with_reducible refine ans_ite_kept ?_ ?_
    | with_reducible apply freeDead_kept
    | with_reducible refine (kept_modPart _ _).2 ?_
    | with_reducible refine (kept_modStep _ _).2 ?_
    | with_reducible refine foldl_kept (fun _ _ _ => ?_) ?_
    | extract_lets
    | split

theorem execRestoreDone_kept {now slot : Nat} {places : List (Nat × Nat × Nat)} (h : Kept qs vr s) :
    ResKept qs vr (execRestoreDone now slot places s) := by
  unfold execRestoreDone
  refine timed_kept (fun _ _ => ?_) h
  repeat' first
    | with_reducible assumption
    | with_reducible refine kept_ite ?_ ?_
    | with_reducible refine ans_ite_kept ?_ ?_
    | with_reducible apply restoreBuf_kept
    | with_reducible refine (kept_modStep _ _).2 ?_
    | with_reducible refine forAll_kept (fun _ _ _ => ?_) ?_
    | extract_lets
    | split

theorem execFallbackEvaluate_kept {now slot : Nat} (h : Kept qs vr s) :
    ResKept qs vr (execFallbackEvaluate now slot s) := by
  unfold execFallbackEvaluate
  refine timed_kept (fun _ _ => ?_) h
  repeat' first
    | with_reducible assumption
    | with_reducible refine kept_ite ?_ ?_
    | with_reducible refine ans_ite_kept ?_ ?_
    | with_reducible apply takeFallback_kept
    | with_reducible refine (kept_modStep _ _).2 ?_
    | extract_lets
    | split

theorem execDeadlineExpiry_kept {now slot : Nat} (h : Kept qs vr s) :
    ResKept qs vr (execDeadlineExpiry now slot s) := by
  unfold execDeadlineExpiry
  refine timed_kept (fun _ _ => ?_) h
  repeat' first
    | with_reducible assumption
    | with_reducible refine kept_ite ?_ ?_
    | with_reducible refine ans_ite_kept ?_ ?_
    | with_reducible apply failStep_kept
    | with_reducible refine (kept_modStep _ _).2 ?_
    | extract_lets
    | split
    | fail_if_no_progress with_reducible (conv => arg 3; whnf)
    | refine kept_upd ?_ rfl rfl rfl rfl

theorem execHangTimeExpiry_kept {now part : Nat} (h : Kept qs vr s) :
    ResKept qs vr (execHangTimeExpiry now part s) := by
  unfold execHangTimeExpiry
  refine timed_kept (fun _ _ => ?_) h
  repeat' first
    | with_reducible assumption
    | with_reducible refine kept_ite ?_ ?_
    | with_reducible refine ans_ite_kept ?_ ?_
    | with_reducible apply pushEntry_kept
    | with_reducible refine (kept_modPart _ _).2 ?_

theorem execReleaseGatePass_kept {now slot : Nat} (h : Kept qs vr s) :
    ResKept qs vr (execReleaseGatePass now slot s) := by
  unfold execReleaseGatePass
  refine timed_kept (fun _ _ => ?_) h
  repeat' first
    | with_reducible assumption
    | with_reducible refine (kept_modStep _ _).2 ?_
    | with_reducible refine kept_ite ?_ ?_
    | with_reducible refine ans_ite_kept ?_ ?_
    | with_reducible apply failStep_kept
    | with_reducible apply finishStep_kept
    | with_reducible apply noteDone_kept
    | with_reducible apply tellGate_kept
    | extract_lets
    | split

theorem execDerivedStep_kept {now job jstep pgen startNo part slot base fbBase : Nat} {x : Derived} (h : Kept qs vr s) :
    ResKept qs vr (execDerivedStep now job jstep pgen startNo part slot base fbBase x s) := by
  unfold execDerivedStep
  refine timed_kept (fun _ _ => ?_) h
  repeat' first
    | with_reducible assumption
    | with_reducible refine kept_ite ?_ ?_
    | with_reducible refine ans_ite_kept ?_ ?_
    | with_reducible apply breakJob_kept
    | with_reducible refine reserveBoth_kept (by assumption) ?_
    | with_reducible apply settleStep_kept
    | with_reducible apply startAbort_kept
    | with_reducible apply takeSplit_kept
    | with_reducible refine (kept_modJob _ _).2 ?_
    | extract_lets
    | split

theorem execAbortNotice_kept {now : Nat} {n : Notice} (h : Kept qs vr s) :
    ResKept qs vr (execAbortNotice now n s) := by
  unfold execAbortNotice
  refine timed_kept (fun _ _ => ?_) h
  repeat' first
    | with_reducible assumption
    | with_reducible refine kept_ite ?_ ?_
    | with_reducible refine ans_ite_kept ?_ ?_
    | with_reducible apply takeNotice_kept
    | extract_lets
    | split
    | fail_if_no_progress with_reducible (conv => arg 3; whnf)
    | refine kept_upd ?_ rfl rfl rfl rfl

theorem execNoticeHoldExpiry_kept {now job jstep : Nat} (h : Kept qs vr s) :
    ResKept qs vr (execNoticeHoldExpiry now job jstep s) := by
  unfold execNoticeHoldExpiry
  refine timed_kept (fun _ _ => ?_) h
  repeat' first
    | with_reducible assumption
    | with_reducible refine kept_ite ?_ ?_
    | with_reducible refine ans_ite_kept ?_ ?_
    | with_reducible refine (kept_modJob _ _).2 ?_

end Sys2Proof.Machine
end

