-- ==== Sys2Proof/WellFormed.lean ====
section
/-! DEFINITION. The operands that can stand at the block's ports and registers: the numbers that name a unit lie in the range
the spec gives the greatest variant, and a byte string has the length its command states. `exec` does not rely on these checks. -/

namespace Sys2Proof

/-- The PF or one of 63 VFs (Table Host-1). -/
def funcOk (f : Nat) : Bool := decide (f ≤ 63)
/-- A partition number (Table Scope-1). -/
def partOk (p : Nat) : Bool := decide (p < 64)
/-- A tile number (Table Scope-1). -/
def tileOk (t : Nat) : Bool := decide (t < 2048)
/-- A step slot (Table Scope-1). -/
def slotOk (k : Nat) : Bool := decide (k < 4096)
/-- A link port (Table Scope-1). -/
def portOk (p : Nat) : Bool := decide (p < 6)
/-- An engine that runs plans: a tile or a reducer (R203, R322). -/
def planEngineOk (e : Nat) : Bool := tileOk e || decide (2112 ≤ e ∧ e < 2118)
/-- A compute die (Table Scope-1). -/
def dieOk (d : Nat) : Bool := decide (d < 32)
/-- An HBM pseudo-channel (Table Scope-1). -/
def stackOk (p : Nat) : Bool := decide (p < 512)
/-- A scalar register (Table Programs-9). -/
def regOk (r : Nat) : Bool := decide (r < 16)
/-- A step queue, by its doorbell or its number (Table Registers-1). -/
def queueOk (q : Nat) : Bool := decide (q < 4096)
/-- An accumulator bank (R43). -/
def bankOk (b : Nat) : Bool := decide (b < 2)
/-- A whorl comparator (Table Fabric-6). -/
def comparatorOk (n : Nat) : Bool := decide (n < 16)
/-- A scan chain (Table Observation-5). -/
def chainOk (c : Nat) : Bool := decide (c < 65536)
/-- A torus coordinate (R378). -/
def coordOk (x : Nat) : Bool := decide (x < 16)
/-- A store carries as many bytes as its length says. -/
def lenOk (n : Nat) (w : Option (List Byte)) : Bool :=
  match w with
  | none => true
  | some bs => bs.length == n

/-- A request's fields fit the fields of Table Mailbox-2. -/
def Msg.wellFormed (m : Msg) : Bool :=
  funcOk m.func && decide (m.opcode < 2 ^ 16) && decide (m.proto < 2 ^ 8) && decide (m.flags < 2 ^ 8) && decide (m.inlineBytes < 2 ^ 16)
    && decide (m.extAddr < 2 ^ 64) && decide (m.extBytes < 2 ^ 32) && decide (m.ext.length ≤ m.extBytes)

/-- A cell's payload is at most 48 bytes (R383). -/
def Cell.wellFormed (c : Cell) : Bool := decide (c.kind < 256) && decide (c.payload.length ≤ 48)

/-- A bulk message carries the bytes its length field states (Table Fabric-3). -/
def Bulk.wellFormed (b : Bulk) : Bool := b.payload.length == b.length

/-- A command's operands can stand at the ports. -/
def Instr.wellFormed : Instr → Bool
  | .refclkLost _ | .pwrGoodRise _ | .pwrGoodFall _ | .aonResetNFall | .aonResetNRelease | .blkResetNFall _
  | .blkResetNRelease _ _ _ | .voltageMonitorTrip _ | .thermalTrip _ | .powerCycleRequest _ | .stopInNFall _
  | .whorlSyncEdge _ _ | .syncWindowExpiry _ | .spdmRequest _ _ | .tapInstruction _ | .trstNReset | .flashStatusTimeout _
  | .hostLinkDown _ _ _ | .parentTimeout _ | .fabricEpochStart _ | .remoteTimeout _ _ | .queuePairDown _ _
  | .jobMemberTimeout _ _ | .blockResetBegin _ | .freezeTick _ | .powerModelUpdate _ _ | .gstStop _ _ | .gstRelease _
  | .gstHalted _ | .gstScanData _ | .faultReport _ _ | .fatalBlockReset _ | .checkerExercise _ _ _ _ _ | .errorPinTest _ _ _
  | .errorPinTestTimeout _ _ | .analogueRotationMissed _ _ | .watchdogExpiry _ | .selfTestDone _ _ _ | .resetEscalation _ _ _
  | .abortNotice _ _ | .noticeHoldExpiry _ _ _ | .imageAuthenticated _ | .calibrationDone _ _ | .mbxReady _ | .startTimeout _
  | .failedStartReset _ | .sleepEntry _ | .wake _ _ | .flashOperationDone _ _ | .refclkReturn _ | .railBackInTolerance _
  | .vddAonLost | .thermalThrottleEngaged _ | .thermalThrottleReleased _ | .hostLinkUp _ | .faultCollectorInitialised _
  | .startEntryNotWritten _ => true
  | .torusCoordinatesWrite x y z _ _ _ => coordOk x && coordOk y && coordOk z
  | .railConfirm _ die _ | .railConfirmTimeout _ die | .sortStart _ die | .sortComplete _ die | .analogueSlice _ die _ _ _ => dieOk die
  | .hbmPortNotReady _ port => stackOk port
  | .hbmReadReturn _ port _ slot _ _ _ _ => stackOk port && slotOk slot
  | .flr _ func | .readBackComplete _ func | .mailboxResponsePost _ func | .mbxEnable func _ _ | .mbxDisable func
  | .mbxTail func _ | .mbxRspHead func _ | .mbxBootGo func _ | .mbxBootDoneClear func | .eventEntryWrite _ func
  | .ringVectorSend _ func | .evtFlush _ func | .evtHead func _ | .whlTimeLo func | .pmcLowHalfRead func _
  | .registerWrite func _ _ _ | .flrComplete _ func => funcOk func
  | .cxlMemAccess _ _ len write | .apertureAccess _ _ len write => lenOk len write
  | .hostMasterReadTimeout _ slot | .manifestArrival _ slot _ _ _ | .fenceTimeout _ slot _ | .stepReady _ slot
  | .restoreDone _ slot _ | .fallbackEvaluate _ slot | .deadlineExpiry _ slot | .releaseGatePass _ slot
  | .slotQuarantineEnd _ slot => slotOk slot
  | .linkPortUp _ port _ _ | .linkPortDown _ port | .keyExchangeFrame port _ _ _ _ | .creditReturn _ port _ _
  | .syncSend _ port | .syncArrival _ port _ => portOk port
  | .planStart _ engine | .planComplete _ engine _ => planEngineOk engine
  | .cellArrival _ port c => portOk port && c.wellFormed
  | .bulkMessageArrival _ port b => portOk port && b.wellFormed
  | .comparatorFire _ n => comparatorOk n
  | .nop t | .fin t | .fetch t _ _ _ | .send t _ _ _ | .coll t _ _ _ _ _ _ _ | .vld t _ _ _ _ | .vst t _ _ _ _ _ _ _
  | .vop t _ _ _ _ _ _ _ | .vfn t _ _ _ | .vred t _ _ _ | .mapclr t _ | .sort t _ _ | .digest t _ _
  | .residueWindowCompare _ t _ _ _ | .skeinBoundOverrun _ t | .skeinComplete _ t _ | .clockGate t _ | .patrolScrub _ t _ _
  | .oscillatorOutOfLock _ t _ _ => tileOk t
  | .skipz t sc _ | .skipnz t sc _ | .sst t sc _ _ => tileOk t && regOk sc
  | .seti t d _ | .pred t d | .stat t d => tileOk t && regOk d
  | .mma t _ _ bank _ _ _ | .drain t _ bank _ _ _ => tileOk t && bankOk bank
  | .skeinPlace _ slot _ t _ => slotOk slot && tileOk t
  | .echo m | .capQuery m | .bootStatus m | .programLoad m | .programUnload m | .placementHint m | .placementLog m
  | .bobbinInstall m | .bobbinRemove m | .bobbinPrefetch m | .bobbinEvict m | .bobbinPin m | .bobbinUnpin m | .bobbinList m
  | .bobbinSources m | .bobbinBacking m | .jobCreate m _ | .jobQuery m | .jobDestroy m | .partitionCreate m
  | .partitionDestroy m | .contextCreate m | .contextDestroy m | .contextReset m | .processEnd m | .memAlloc m | .memFree m
  | .fenceCreate m | .fenceSignal m | .fenceReset m | .fenceDestroy m | .queueCreate m | .queueDestroy m | .schedSet m
  | .accountRead m | .powerLimit m | .sleepEnter m | .evtRingSet m | .biasSet m | .faultRead m | .faultClear m | .faultInject m
  | .engineReset m | .partitionReset m | .blockReset m | .powerCycle m | .debugEnable m | .devsetEnroll m | .devsetLeave m
  | .mbxKeyExport m | .lcTransition m _ | .fwUpdate m | .fwRecover m | .bistRun m _ | .counterSelect m | .counterRead m
  | .counterFreeze m | .traceConfig m | .watchSelect m | .hangReport m => m.wellFormed
  | .programLoadDone _ part _ | .bobbinInstallDone _ part _ | .partitionTablesBuilt _ part | .partitionScrubVerified _ part _
  | .zeroFillDone _ part _ | .stepBoundary _ part _ | .quantumExpiry _ part | .stepSwitch _ part _ | .spillDone _ part
  | .hangTimeExpiry _ part | .fillStart _ part | .peerProbeTimeout _ part _ | .peerProbe _ part _ _ _
  | .chunkArrival _ part _ _ _ | .fillComplete _ part => partOk part
  | .stepQueueDoorbell func index _ => funcOk func && queueOk index
  | .stepAdmit _ q slot _ _ => queueOk q && slotOk slot
  | .gstScanSel tile chain => tileOk tile && chainOk chain
  | .derivedStep _ _ _ _ _ part slot _ _ _ => partOk part && slotOk slot

end Sys2Proof
end

