-- ==== Sys2Proof/Tests/Slice0.lean ====
section
/-! SUPPORT. Small checks of the model: the operand checks refuse what they are to refuse, and for the statements, states and
operands that meet their hypotheses together, with what the command then does. Each looks at one step of one command; the
expected figures come from the rules that the statements name. -/

namespace Sys2Proof.Tests

set_option Elab.async false

open Sys2Proof.Machine Sys2Proof.Claims

/-- The state after a command. -/
def run (c : Instr) (s : State) : State :=
  match exec c s with
  | .next t => t
  | _ => s

/-- The state after a command, function 1 being the next whose ring is served (R335). -/
def own (c : Instr) (s : State) : State := run c { s with lastTaken := 0 }

/-- A request of function `f` with a payload. -/
def msg (f op : Nat) (payload : List Byte) : Msg := { func := f, opcode := op, inlineBytes := payload.length, payload, tag := 7 }

/-- A critical request of the PF. -/
def crit (op : Nat) (payload : List Byte) : Msg := { msg 0 op payload with flags := 1, counter := 1 }

/-- The same request with the code that its function's key gives it (R342). -/
def sign (s : State) (m : Msg) : Msg := { m with mac := Config.aesCmac (macKey s (s.func m.func)) (macInput m) }

/-- The status and detail of the last response due to a function. -/
def lastRsp (s : State) (f : Nat) : Option (Nat × Nat × List Byte) :=
  (s.func f).rsps.getLast?.map fun r => (r.status.toNat, r.detail.toNat, r.payload)

/-- The failure of the step in a slot. -/
def failOf (s : State) (k : Nat) : Option Nat := ((tfind s.steps k).bind (·.fail)).map (·.toNat)

/-- A block in service: partition 3 of function 1 on granule 0, context 5 in it, one request waiting in each ring. -/
def base : State :=
  { mainReset := false
    aon := { pwrGood := true, aonResetN := true, blkResetN := true, whorl := 1000000, adopted := true }
    coll := { init := true }
    life := { ready := true, lc := 4, unitId := 9, startNo := 1 }
    funcs :=
      [(0, { enabled := true, enable := true, tail := 1, evtEnable := true, evtLog2 := 6 }),
        (1, { enabled := true, enable := true, tail := 1, evtEnable := true, evtLog2 := 6 })]
    parts :=
      [(3, { state := 2, owner := 1, width := 1, height := 1, ways := 2, storeBytes := 65536, qContexts := 4, qSlots := 8, qQueues := 4,
             qObjects := 16, qFences := 16 })]
    ctxs := [(5, { gen := 2, part := some 3 })]
    ctxNext := 6 }

/-- `base` with partition 3 changed. -/
def part3 (f : Part → Part) : State := base.modPart 3 f

/-- The handle of context 5. -/
def ctx5 : List Byte := [5, 0x20, 0, 0]

/-! ### Well-formed operands -/

theorem test_wellFormed : Instr.wellFormed (.mbxTail 63 0) = true ∧ Instr.wellFormed (.mma 2047 0 0 1 true false 0) = true
    ∧ Instr.wellFormed (.echo (msg 1 1 [])) = true := by decide
theorem test_illFormed_func : Instr.wellFormed (.mbxTail 64 0) = false := by decide
theorem test_illFormed_part : Instr.wellFormed (.fillStart 0 64) = false := by decide
theorem test_illFormed_tile : Instr.wellFormed (.nop 2048) = false := by decide
theorem test_illFormed_slot : Instr.wellFormed (.stepReady 0 4096) = false := by decide
theorem test_illFormed_port : Instr.wellFormed (.syncSend 0 6) = false := by decide
theorem test_illFormed_die : Instr.wellFormed (.sortStart 0 32) = false := by decide
theorem test_illFormed_channel : Instr.wellFormed (.hbmPortNotReady 0 512) = false := by decide
theorem test_illFormed_scalar : Instr.wellFormed (.seti 0 16 0) = false := by decide
theorem test_illFormed_queue : Instr.wellFormed (.stepQueueDoorbell 0 4096 0) = false := by decide
theorem test_illFormed_bank : Instr.wellFormed (.mma 0 0 0 2 true false 0) = false := by decide
theorem test_illFormed_comparator : Instr.wellFormed (.comparatorFire 0 16) = false := by decide
theorem test_illFormed_chain : Instr.wellFormed (.gstScanSel 0 65536) = false := by decide
theorem test_illFormed_coordinate : Instr.wellFormed (.torusCoordinatesWrite 16 0 0 16 1 1) = false := by decide
theorem test_illFormed_length : Instr.wellFormed (.apertureAccess 0 0 2 (some [1])) = false := by decide
theorem test_illFormed_message : Instr.wellFormed (.echo { msg 0 1 [] with opcode := 65536 }) = false
    ∧ Instr.wellFormed (.echo { msg 0 1 [] with ext := [1] }) = false := by decide
theorem test_illFormed_cell : Instr.wellFormed (.cellArrival 0 0
    { qp := 0, kind := 0, gen := 0, window := 0, index := 0, payload := List.replicate 49 0, frameCtr := 0 }) = false := by decide
theorem test_illFormed_bulk : Instr.wellFormed (.bulkMessageArrival 0 0
    { qp := 0, kind := 0, gen := 0, window := 0, length := 2, offset := 0, payload := [1], frameCtr := 0 }) = false := by decide

/-! ### The queue -/

theorem test_step_front : Machine.step { base with pending := [.mbxRspHead 0 3, .trstNReset] }
    = exec (.mbxRspHead 0 3) { base with pending := [.trstNReset] } := by rfl
theorem test_step_idle : (match Machine.step base with
    | .next t => t.aon.whorl
    | _ => 0) = 1000001 := by decide
theorem test_invariants : Memory.wf { base with hbm := [(0, 1), (5, 2)] } = true
    ∧ Memory.wf { base with hbm := [(5, 1), (0, 2)] } = false ∧ Memory.wf { base with hbm := [(5, 0)] } = false
    ∧ base.coll.log.length ≤ 32 := by decide

/-! ### Host memory, link, function reset -/

/-- Partition 3 with object 1 of 64 KiB at 0, mapped for the host. -/
def withObj : State :=
  part3 fun x => { x with objs := [(1, { live := true, gen := 1, ctx := 5, ctxGen := 2, bytes := 65536, hostMap := true, shared := true })] }

theorem test_cxlMemAccess : withObj.host.linkUp = true ∧ served withObj 3 100 false = true ∧ served withObj 3 101 false = true
    ∧ mread (run (.cxlMemAccess 0 (3 * 2 ^ 40 + 100) 2 (some [7, 8])) withObj).hbm (hbmAddr 3 101) = 8
    ∧ (run (.cxlMemAccess 0 (3 * 2 ^ 40 + 100) 2 none) withObj).out = [.memRead [0, 0] [false, false]] := by decide
theorem test_cxlMemAccess_refused : served withObj 3 65536 false = false
    ∧ (run (.cxlMemAccess 0 (3 * 2 ^ 40 + 65536) 1 none) withObj).out = [.memRead [0xFF] [true]]
    ∧ tget (run (.cxlMemAccess 0 (3 * 2 ^ 40 + 65536) 1 none) withObj).coll.corr 39 0 = 1
    ∧ (run (.cxlMemAccess 0 (3 * 2 ^ 40) 1 none) { withObj with coll := { freeze := true } }).out = [.memRead [0xFF] [false]] := by decide
theorem test_apertureAccess :
    (run (.apertureAccess 0 5 1 (some [9])) { withObj with host := { aperPart := 3, aperEnable := true } }).hbm = [(hbmAddr 3 5, 9)]
    ∧ (run (.apertureAccess 0 5 1 none) { withObj with host := { aperPart := 3 } }).out = [.memRead [0xFF] [true]] := by decide
/-- BIAS_SET of the object's second page. -/
def biasMsg : Msg := { msg 1 0x0502 ([3, 0, 0, 0, 1, 0, 1, 0] ++ toLe 8 4096 ++ toLe 8 4096 ++ [1, 0, 0, 0, 0, 0, 0, 0]) with inlineBytes := 32 }
theorem test_biasSet : objOf withObj 3 0x10001 = some 1
    ∧ (memObj (own (.biasSet biasMsg) withObj) 3 1).pages = [1] ∧ lastRsp (own (.biasSet biasMsg) withObj) 1 = some (0, 0, [])
    ∧ lastRsp (own (.biasSet biasMsg) base) 1 = some (0x0741, 0, []) := by decide
theorem test_hbmReadReturn : base.coll.inject = [] ∧ portLine base 0 256 = 3 * 2 ^ 34
    ∧ (run (.hbmReadReturn 0 0 0 0 0 256 true false) base).hbmPoison = [3 * 2 ^ 34]
    ∧ portLine base 511 5 = (2 ^ 46 + 127 * 2 ^ 33 + 12608) / 64
    ∧ (0xA402 : Code) ∈ (run (.hbmReadReturn 0 511 0 0 0 5 true false) base).coll.log
    ∧ tget (run (.hbmReadReturn 0 511 0 0 0 5 false true) base).coll.corr 36 0 = 1
    ∧ (run (.hbmReadReturn 0 0 0 9 1 5 false false) { base with quar := [(9, { openReqs := 2 })] }).quar = [(9, { openReqs := 1 })] := by
  decide
theorem test_hbmReadReturn_asked :
    (run (.hbmReadReturn 0 0 7 9 0 5 false false) { base with hbmReads := [{ port := 0, tag := 7, line := 5 }, { port := 0, tag := 8, line := 5 }] }).hbmReads
      = [{ port := 0, tag := 8, line := 5 }] := by decide
/-- Function 1 with an entry written 1 us ago that nothing confirmed, and a step of partition 3 with writes to the host. -/
def unconfirmed : State :=
  { base.modFunc 1 fun x => { x with evtRecent := [(999000, { kind := 1, seq := 4 })], rsps := [{ tag := 1 }] } with
    steps := [(8, { state := 5, part := 3, ctx := 5, ctxGen := 2, hostWrites := true })] }
theorem test_hostLinkDown :
    let t := run (.hostLinkDown 0 true { slots := [8] }) unconfirmed
    t.host.linkUp = false ∧ (0xA701 : Code) ∈ t.coll.log ∧ failOf t 8 = some 0x0A01 ∧ (t.func 1).detached = true
      ∧ (t.func 1).enable = false ∧ (t.func 1).rsps = []
      ∧ (t.func 1).evtHeld = [{ kind := 1, seq := 4, held := true, redelivered := true, posted := 1000000 }] := by decide
theorem test_hostLinkUp : (run (.hostLinkUp 0) { base with host := { linkUp := false } }).host.linkUp = true := by decide
theorem test_hostMasterReadTimeout : failOf (run (.hostMasterReadTimeout 0 8) unconfirmed) 8 = some 0x0A01
    ∧ (0xA703 : Code) ∈ (run (.hostMasterReadTimeout 0 8) unconfirmed).coll.log := by decide
theorem test_flr :
    let t := run (.flr 0 1) { unconfirmed with queues := [(2, { live := true, part := 3 })] }
    (t.func 1).inFlr = true ∧ (t.func 1).gen = 1 ∧ (t.func 1).enable = false ∧ (t.func 1).evtQueue = [] ∧ tfind t.steps 8 = none
      ∧ t.queues = [] ∧ (t.ctx 5).part = none ∧ (t.func 1).flrParts = [3] := by decide
theorem test_flrComplete :
    let s := { base.modFunc 1 fun x => { x with inFlr := true, flrParts := [3] } with hbm := [(5, 1), (hbmAddr 3 5, 9)] }
    (run (.flrComplete 0 1) s).hbm = [(5, 1)] ∧ ((run (.flrComplete 0 1) s).func 1).inFlr = false := by decide

/-! ### Rings and registers -/

theorem test_mbxEnable :
    let s := base.modFunc 1 fun _ => { enabled := true, reqHead := 9, overrun := true }
    writable s 1 .mbx = true ∧ ((run (.mbxEnable 1 12 2047) s).func 1).enable = true ∧ ((run (.mbxEnable 1 12 2047) s).func 1).reqHead = 0
      ∧ ((run (.mbxEnable 1 12 2047) s).func 1).log2 = 12 ∧ ((run (.mbxEnable 1 13 2048) s).func 1).log2 = 4
      ∧ ((run (.mbxEnable 1 4 5) base).func 1).rspVector = 5 := by decide
theorem test_mbxDisable : ((run (.mbxDisable 1) base).func 1).enable = false
    ∧ ((run (.mbxDisable 1) (base.modFunc 1 fun x => { x with taken := [{ tag := 1 }] })).func 1).disabling = true := by decide
theorem test_mbxTail : ((run (.mbxTail 1 16) base).func 1).overrun = false ∧ ((run (.mbxTail 1 17) base).func 1).overrun = true := by decide
theorem test_mbxRspHead : ((run (.mbxRspHead 1 65537) base).func 1).rspHead = 1 := by decide
theorem test_mbxBootGo : ((run (.mbxBootGo 1 true) (base.modFunc 1 fun x => { x with bootDone := true })).func 1).bootBusy = true
    ∧ ((run (.mbxBootGo 1 true) (base.modFunc 1 fun x => { x with bootDone := true })).func 1).bootDone = false := by decide
theorem test_mbxBootDoneClear : ((run (.mbxBootDoneClear 1) (base.modFunc 1 fun x => { x with bootDone := true })).func 1).bootDone = false := by
  decide
theorem test_mailboxResponsePost :
    let r : Rsp := { opcode := 0x0401, tag := 4 }
    let s := { base.modFunc 1 fun x => { x with rsps := [r], rspCount := 17, rspHead := 16, rspVector := 3 } with
      queues := [(2, { crTag := some (1, 4) })] }
    let t := run (.mailboxResponsePost 0 1) s
    nextRsp s (s.func 1) = some r ∧ t.out = [.msix 1 3, .response 1 1 false 1000000 r] ∧ (t.func 1).rspCount = 18
      ∧ (t.queue 2).openAt = some 1000000 := by decide
theorem test_mailboxResponsePost_boot :
    let r : Rsp := { opcode := 3, tag := 4, boot := true }
    let t := run (.mailboxResponsePost 0 1) (base.modFunc 1 fun x => { x with rsps := [r], bootBusy := true })
    (t.func 1).bootBusy = false ∧ (t.func 1).bootDone = true ∧ (t.func 1).rsps = [] := by decide
theorem test_refusedRequests : check8 (take base (msg 1 1 [])) { opcode := 1, len := some 8 } (msg 1 1 []) = 0x0903
    ∧ lastRsp (own (.echo { msg 1 1 [] with proto := 2 }) base) 1 = some (0x0902, 0, [])
    ∧ lastRsp (own (.echo (msg 1 0xFFFF [])) base) 1 = some (0x0901, 0, [])
    ∧ lastRsp (own (.faultRead (msg 1 0x0601 [])) base) 1 = some (0x0906, 0, [])
    ∧ lastRsp (own (.contextCreate (msg 1 0x0303 [4, 0, 0, 0, 0, 0, 0, 0])) base) 1 = some (0x0905, 0, []) := by decide
/-- EVT_RING_SET with 64 entries and vector 63. -/
def ringMsg : Msg := { msg 1 0x0501 (List.replicate 8 0 ++ toLe 8 4096 ++ [6, 0, 63, 0, 0, 0, 0, 0]) with inlineBytes := 24 }
theorem test_evtRingSet :
    let t := own (.evtRingSet ringMsg) (base.modFunc 1 fun x => { x with detached := true, evtHeld := [{ kind := 1 }], evtTail := 9 })
    lastRsp t 1 = some (0, 0, []) ∧ (t.func 1).evtVector = 63 ∧ (t.func 1).evtTail = 0 ∧ (t.func 1).evtBase = 4096
      ∧ (t.func 1).evtHeld.map (·.kind) = [5, 1] ∧ (t.func 1).evtHeld.map (·.seq) = [1, 0] := by decide
theorem test_eventEntryWrite :
    let s := { base.modFunc 1 fun x => { x with evtQueue := [{ kind := 1, slot := some 8 }] } with
      steps := [(8, { state := 5, part := 3, ctx := 5, ctxGen := 2 })] }
    let t := run (.eventEntryWrite 0 1) s
    ringRoom (s.func 1) = true ∧ (t.func 1).evtTail = 1 ∧ (t.func 1).evtQueue = [] ∧ tfind t.steps 8 = none
      ∧ (t.func 1).evtVectorDue = true ∧ (tfind t.quar 8).isSome = true := by decide
theorem test_eventEntryWrite_held :
    let s := base.modFunc 1 fun x => { x with evtQueue := [{ kind := 1 }], detached := true, evtEnable := false }
    let u := base.modFunc 1 fun x => { x with evtHeld := [{ kind := 5 }], detached := true }
    ((run (.eventEntryWrite 0 1) s).func 1).evtHeld = [{ kind := 1, held := true, posted := 1000000 }]
      ∧ ((run (.eventEntryWrite 0 1) u).func 1).detached = false
      ∧ (run (.eventEntryWrite 0 1) u).out = [.event 1 0 { kind := 5, phase := true } (entryBytes { kind := 5, phase := true })]
      ∧ leNat (slice (entryBytes { kind := 5, phase := true, seq := 3 }) 12 12) = 3 + 0x85 * 2 ^ 88 := by decide
theorem test_ringVectorSend :
    let s := base.modFunc 1 fun x => { x with evtVectorDue := true, evtVectorAt := 999000, evtVector := 6 }
    (run (.ringVectorSend 0 1) s).out = [.msix 1 6] ∧ ((run (.ringVectorSend 0 1) s).func 1).evtVectorAt = 1000000
      ∧ (run (.ringVectorSend 0 1) (s.modFunc 1 fun x => { x with evtVectorAt := 999001 })).out = [] := by decide
theorem test_evtFlush :
    let s := base.modFunc 1 fun x => { x with evtTail := 3, evtRecent := [(5, {})] }
    readForced s 1 .evt = none ∧ (run (.evtFlush 0 1) s).out = [.read 1 3] ∧ ((run (.evtFlush 0 1) s).func 1).evtRecent = []
      ∧ (run (.evtFlush 0 1) { s with coll := { freeze := true } }).out = [.read 1 0xFFFFFFFF]
      ∧ (run (.evtFlush 0 1) { s with life := { minimal := true } }).out = [.read 1 0] := by decide
theorem test_evtHead :
    let s := base.modFunc 1 fun x => { x with evtTail := 3 }
    ((run (.evtHead 1 3) s).func 1).evtHead = 3
      ∧ ((run (.evtHead 1 3) (s.modFunc 1 fun x => { x with evtSetAt := some (time s) })).func 1).evtHead = 0 ∧ ((run (.evtHead 1 4) s).func 1).evtHead = 0 := by decide
theorem test_readBackComplete :
    let s := unconfirmed.modFunc 1 fun x => { x with rsps := [{ waits := true }], evtQueue := [{ waitsRb := true }] }
    let t := run (.readBackComplete 0 1) s
    (t.func 1).rsps = [{}] ∧ (t.func 1).evtQueue = [{}] ∧ (t.func 1).evtRecent = []
      ∧ (tfind t.steps 8).map (·.hostWrites) = some false := by decide
theorem test_registerWrite :
    let s := base.modFunc 1 fun x => { x with enable := false, boot := List.replicate 64 0 }
    ((run (.registerWrite 1 0x1000 8 0x1122334455667788) s).func 1).reqBase = 0x1122334455667788
      ∧ ((run (.registerWrite 1 0x107C 4 5) s).func 1).boot.drop 60 = [5, 0, 0, 0]
      ∧ ((run (.registerWrite 1 0x1014 4 17) base).func 1).overrun = true
      ∧ (run (.registerWrite 0 0x28 4 0xF0000103) base).host = { aperPart := 3, aperEnable := true, aperOffset := 15 } := by decide +kernel
theorem test_registerWrite_ignored : accessOk 0x1014 8 = false ∧ regionOf 0 0x20000 = some (.flt, 0)
    ∧ ((run (.registerWrite 1 0x1014 8 17) base).func 1).tail = 1
    ∧ (run (.registerWrite 0 0x20000 4 17) base).coll.status = 0
    ∧ ((run (.registerWrite 1 0x1000 8 17) base).func 1).reqBase = 0 := by decide

/-! ### Observation -/

/-- A request with an extended buffer. -/
def extMsg (f op : Nat) (payload ext : List Byte) (n : Nat) : Msg := { msg f op payload with extAddr := 64, extBytes := n, ext }

/-- Partition 3 named alone. -/
def p3 : List Byte := [3, 0, 0, 0, 0, 0, 0, 0]

theorem test_counterSelect :
    let m := extMsg 1 0x0801 p3 [2, 0, 0, 0, 0, 0, 0, 0, 1, 0x12] 10
    ((own (.counterSelect m) base).part 3).counters.sel = [1, 0x12] ∧ ((own (.counterSelect m) base).part 3).counters.live = [0, 0]
      ∧ ((own (.counterSelect m) (part3 fun x => { x with running := some 8 })).part 3).counters.staged = some [1, 0x12]
      ∧ lastRsp (own (.counterSelect { m with ext := [2, 0, 0, 0, 0, 0, 0, 0, 1, 1] }) base) 1 = some (0x0903, 0, [])
      ∧ lastRsp (own (.counterSelect { m with ext := [2, 0, 0, 0, 0, 0, 0, 0, 1, 0x13] }) base) 1 = some (0x0903, 0, []) := by decide
theorem test_counterRead :
    let s := part3 fun x => { x with counters := { sel := [3], live := [2 ^ 33 + 1], done := [6] } }
    let t := own (.counterRead (extMsg 1 0x0802 p3 [] 384)) s
    lastRsp t 1 = some (0, 384, []) ∧ (((t.func 1).rsps.headD {}).ext.drop 0x80).take 8 = [1, 0, 0, 0, 2, 0, 0, 0]
      ∧ (((t.func 1).rsps.headD {}).ext.drop 0x100).take 2 = [6, 0]
      ∧ lastRsp (own (.counterRead (extMsg 1 0x0802 p3 [] 383)) s) 1 = some (0x0903, 0, []) := by decide
theorem test_counterFreeze :
    let t := run (.counterFreeze (msg 0 0x0803 [1, 0, 0, 0, 0, 0, 0, 0])) base
    lastRsp t 0 = some (0, 1000200, []) ∧ t.pmc.tf = 1000200 ∧ t.pmc.armed = true
      ∧ (run (.counterFreeze (msg 0 0x0803 (List.replicate 8 0))) { base with pmc := { byMessage := true, held := true } }).pmc = {} := by decide
theorem test_freezeTick :
    let s := { base with pmc := { byMessage := true, armed := true, tf := 1000000 } }
    (run (.freezeTick 0) s).pmc.held = true ∧ ((run (.freezeTick 0) s).part 3).counters.frozenIn = true
      ∧ (run (.freezeTick 0) { s with pmc := { s.pmc with tf := 1000001 } }).pmc.held = false := by decide
theorem test_pmcLowHalfRead :
    let s := part3 fun x => { x with counters := { live := [2 ^ 33 + 1] } }
    let t := run (.pmcLowHalfRead 1 0x30080) s
    regionOf 1 0x30080 = some (.pmc, 0x80) ∧ lowCount s 1 0x80 = some (some 3, 0x80, 2 ^ 33 + 1) ∧ readForced s 1 .pmc = none
      ∧ t.out = [.read 1 1] ∧ (t.part 3).counters.hiLatch = [(0x80, 2)]
      ∧ lowCount base 0 0x100 = some (none, 0x100, 0) := by decide
/-- TRACE_CONFIG with object 1 of partition 3. -/
def traceMsg : Msg := msg 1 0x0804 [3, 0, 0, 0, 1, 0, 1, 0, 2, 15, 0, 0, 0, 0, 0, 0]
theorem test_traceConfig :
    let t := own (.traceConfig traceMsg) { withObj with grants := { trace := [3] } }
    lastRsp t 1 = some (0, 0, []) ∧ (t.part 3).trace = { on := true, mode := 2, share := 15, obj := 0x10001, capacity := 2046 }
      ∧ (memObj t 3 1).traceRef = true ∧ mread t.hbm (hbmAddr 3 9) = 7
      ∧ lastRsp (own (.traceConfig traceMsg) withObj) 1 = some (0x0906, 0, [])
      ∧ lastRsp (own (.traceConfig traceMsg) { base with grants := { trace := [3] } }) 1 = some (0x0741, 0, []) := by decide
theorem test_watchSelect :
    let m := extMsg 1 0x0805 p3 ([1, 0, 1, 0, 1, 0, 0, 0] ++ toLe 4 (3 * 2 ^ 24) ++ [0, 0, 0, 1]) 16
    let s := withObj.modPart 3 fun x => { x with progs := [(0, { live := true, upf := { tensors := [{ kind := 3 }] } })] }
    let w : WatchSel := { prog := 3 * 2 ^ 24, tensor := 0, digest := false, trigger := true }
    watchSels (extIn m) 1 = [w] ∧ watchSelStatus s 3 w = 0 ∧ ((own (.watchSelect m) s).part 3).watch = { obj := 0x10001, sels := [w], capacity := 1023 }
      ∧ ((own (.watchSelect m) (s.modPart 3 fun x => { x with running := some 8 })).part 3).watch.staged = some (0x10001, [w])
      ∧ lastRsp (own (.watchSelect m) withObj) 1 = some (0x0922, 0, []) := by decide
theorem test_hangReport :
    let g : HangGraph := { built := 5, idleSince := 4, nodes := [{ kind := 1 }], edges := [(0, 0)] }
    let t := own (.hangReport (extMsg 1 0x0806 p3 [] 52)) (part3 fun x => { x with hang := some g })
    lastRsp t 1 = some (0, 52, []) ∧ fld ((t.func 1).rsps.headD {}).ext 24 1 = 0 ∧ fld ((t.func 1).rsps.headD {}).ext 16 4 = 1
      ∧ lastRsp (own (.hangReport (extMsg 1 0x0806 p3 [] 48)) (part3 fun x => { x with hang := some g })) 1 = some (0, 48, [])
      ∧ lastRsp (own (.hangReport (extMsg 1 0x0806 p3 [] 52)) base) 1 = some (0x0927, 0, []) := by decide
theorem test_gstStop :
    let s := { base with grants := { stop := true } }
    writable s 0 .gst = true ∧ (run (.gstStop 0 false) s).gst = { stopped := true, source := 1, time := 1000000 }
      ∧ (run (.gstStop 0 false) s).aon.stopOutN = false ∧ (run (.gstStop 0 true) s).gst = {} ∧ (run (.gstStop 0 false) base).gst = {} := by decide
theorem test_gstRelease :
    let s := { base with gst := { stopped := true, halted := true, source := 2, time := 999000 }, remOps := [{ last := 5 }],
                         pmc := { byStop := true, held := true } }
    (run (.gstRelease 0) s).gst = { time := 999000 } ∧ (run (.gstRelease 0) s).pmc = {} ∧ (run (.gstRelease 0) s).remOps = [{ last := 1005 }] := by
  decide
theorem test_gstHalted : (run (.gstHalted 0) { base with gst := { stopped := true } }).gst.halted = true := by decide
theorem test_gstScanSel : (run (.gstScanSel 2047 3) base).gst = { selTile := 2047, selChain := 3 } := by decide
theorem test_gstScanData :
    let s := { base with gst := { halted := true, selTile := 64, selChain := 3, addr := 4 }, grants := { scan := [3] },
                         tiles := [(64, { scratch := [(5, 2)] })] }
    tileOwner s 64 = some 3 ∧ (run (.gstScanData false) s).out = [.read 0 512] ∧ (run (.gstScanData false) s).gst.addr = 8
      ∧ (0xAC02 : Code) ∈ (run (.gstScanData true) s).coll.log ∧ (run (.gstScanData false) base).out = [.read 0 0] := by decide

/-! ### Faults and checks -/

theorem test_faultRead :
    let t := run (.faultRead (msg 0 0x0601 [])) { base with coll := { init := true, status := 5, log := [0xA402, 0x6401] } }
    lastRsp t 0 = some (0, 0, [5, 0, 0, 0, 0, 0, 0, 0, 2, 0, 0, 0, 0, 0, 0, 0, 0x02, 0xA4, 0x01, 0x64]) := by decide
theorem test_faultClear :
    let m := msg 0 0x0602 (List.replicate 8 0 ++ toLe 8 (2 ^ 37 + 1))
    let c : Collector := { init := true, status := BitVec.ofNat 64 (2 ^ 37 + 3), corr := [(0, 4)], openFaults := [{ unit := 0 }] }
    let t := run (.faultClear m) { base with coll := c, aon := { base.aon with secalmN := false } }
    t.coll.status = 3 ∧ t.coll.corr = [(0, 4), (37, 0)] ∧ t.aon.secalmN = true := by decide
theorem test_faultClear_same_tick :
    let s := run (.faultReport 0 { code := 0xAC01 }) base
    clearable (time s) s.coll 44 = false ∧ clearable (time s + 1) s.coll 44 = true ∧ clearable (time s) s.coll 43 = true := by
  decide +kernel
theorem test_faultInject :
    let m := msg 0 0x0603 [0, 0, 0, 0, 31, 12, 1, 0]
    (run (.faultInject m) base).coll.inject = [{ unit := 31, checker := 12, events := 1 }]
      ∧ lastRsp (run (.faultInject m) { base with life := { base.life with lc := 3 } }) 0 = some (0x0914, 0, [])
      ∧ lastRsp (run (.faultInject (msg 0 0x0603 [0, 0, 0, 0, 31, 13, 1, 0])) base) 0 = some (0x0903, 0, []) := by decide
/-- A step of partition 3 running on tile 1. -/
def busy : State :=
  { base with
    steps := [(8, { state := 3, part := 3, ctx := 5, ctxGen := 2 })]
    tiles := [(1, { run := some { slot := 8, code := [.nop, .fin], issued := true } })] }
theorem test_faultReport : codeClass 0xC303 = 3 ∧ codeClass 0x8003 = 2 ∧ codeUnit 0x8003 = 0
    ∧ failOf (run (.faultReport 0 { code := 0x8003, engine := 1 }) busy) 8 = some 0x0C01
    ∧ ((run (.faultReport 0 { code := 0x8003, engine := 1 }) busy).tile 1).testing = some []
    ∧ (run (.faultReport 0 { code := 0xC303 }) base).coll.freeze = true ∧ (run (.faultReport 0 { code := 0xC303 }) base).coll.fatal = 8 := by
  decide
theorem test_faultReport_counts : tget (run (.faultReport 0 { code := 0x4000 }) { base with coll := { init := true, corr := [(0, 0xFFFF)] } }).coll.corr 0 0
      = 0xFFFF
    ∧ (run (.faultReport 0 { code := 0x4000 }) base).coll.corr = [(0, 1)]
    ∧ failOf (run (.faultReport 0 { code := 0xA202, engine := 1, slots := [8] }) busy) 8 = some 0x0C01
    ∧ passes busy { code := 0xA202, engine := 4, slots := [8] } 3 = false
    ∧ failOf (run (.faultReport 0 { code := 0xA202, engine := 4, slots := [8] }) busy) 8 = none
    ∧ (run (.faultReport 0 { code := 0x0101 }) base).coll = base.coll := by decide
theorem test_checkerExercise : (run (.checkerExercise 0 1 2 3 true) base).coll.exercised = [(checkerKey 1 2 3, 1000000)]
    ∧ (run (.checkerExercise 0 1 2 3 false) base).coll.expUnit = 1
    ∧ (0xAB04 : Code) ∈ (run (.checkerExercise 0 1 2 3 false) base).coll.log := by decide
theorem test_errorPinTest : (run (.errorPinTest 0 44 false) base).coll.pinTest = [(44, 1000000)]
    ∧ (run (.errorPinTest 0 44 true) base).coll.pinPass = [(44, 1000000)] := by decide
theorem test_errorPinTestTimeout :
    let s := { base with coll := { init := true, pinTest := [(44, 989999)] } }
    (0xA909 : Code) ∈ (run (.errorPinTestTimeout 0 44) s).coll.log ∧ (run (.errorPinTestTimeout 0 44) s).coll.pinTest = []
      ∧ (run (.errorPinTestTimeout 0 44) { base with coll := { init := true, pinTest := [(44, 990000)] } }).coll.log = [] := by decide
theorem test_watchdogExpiry : (run (.watchdogExpiry 0) { base with coll := { init := true, watchdog := 499999 } }).coll.fatalCode = 0xE005
    ∧ (run (.watchdogExpiry 0) { base with coll := { init := true, watchdog := 500000 } }).coll.freeze = false := by decide
theorem test_analogueSlice :
    tget (run (.analogueSlice 0 31 4 [] true) base).coll.analogue 4 0 = 1000000
      ∧ (run (.analogueSlice 0 31 1 [] true) { base with life := { base.life with rotSlice := [(31, 19)] } }).life.rotations = 1
      ∧ (run (.analogueSlice 0 31 1 [] true) { base with life := { base.life with rotSlice := [(31, 18)] } }).life.rotSlice = [(31, 19)] := by
  decide
theorem test_analogueSlice_fails : ((run (.analogueSlice 0 0 0 [1] false) busy).tile 1).withdrawn = 1
    ∧ failOf (run (.analogueSlice 0 0 0 [1] false) busy) 8 = some 0x0C01
    ∧ (run (.analogueSlice 0 0 3 [] false) base).coll.corr = [(35, 1)]
    ∧ (run (.analogueSlice 0 0 2 [] false) base).power.throttled = true := by decide
theorem test_analogueRotationMissed : (0xAB03 : Code) ∈ (run (.analogueRotationMissed 1000001 4) base).coll.log
    ∧ (run (.analogueRotationMissed 0 4) base).coll.log = [] := by decide
theorem test_thermalThrottleEngaged : (run (.thermalThrottleEngaged 0) { base with parts := [] }).power.throttled = true
    ∧ (run (.thermalThrottleEngaged 0) { base with parts := [] }).coll.corr = [(41, 1)] := by decide
theorem test_thermalThrottleReleased :
    (run (.thermalThrottleReleased 0) { base with power := { throttled := true }, parts := [(3, { running := some 1, retuned := 7 })] }).power = {}
      := by decide

/-! ### Contexts, objects, fences -/

/-- A message of partition 3 about context 5. -/
def ctxMsg (op : Nat) (rest : List Byte) : Msg := msg 1 op ([3, 0, 0, 0] ++ ctx5 ++ rest)

theorem test_contextCreate :
    let t := own (.contextCreate (msg 1 0x0303 p3)) base
    lastRsp t 1 = some (0, 6, []) ∧ (t.ctx 6).part = some 3 ∧ t.ctxNext = 7
      ∧ lastRsp (own (.contextCreate (msg 1 0x0303 p3)) (part3 fun x => { x with qContexts := 1 })) 1 = some (0x0730, 0, [])
      ∧ lastRsp (own (.contextCreate (msg 1 0x0303 p3)) { base with ctxNext := 4096, ctxFree := [9], ctxs := [(9, { gen := 1 })] }) 1
        = some (0, 4105, []) := by decide
/-- A step of context 5 waits on fence 1, which context 5 owns. -/
def waiting : State :=
  { part3 fun x => { x with fences := [(1, { live := true, ctx := 5, ctxGen := 2, host := true, timeout := 1, cookie := 9 })] } with
    steps := [(8, { state := 1, part := 3, ctx := 5, ctxGen := 2, waits := [1, 0xFFFFFF, 0xFFFFFF, 0xFFFFFF], queuedAt := 999000 })] }
theorem test_contextDestroy :
    let t := own (.contextDestroy (ctxMsg 0x0304 [0, 0, 0, 0, 0, 0, 0, 0])) waiting
    lastRsp t 1 = some (0, 0, []) ∧ t.ctx 5 = { gen := 3 } ∧ t.ctxFree = [5] ∧ failOf t 8 = some 0x0D04 := by decide
theorem test_contextDestroy_drain :
    let t := own (.contextDestroy (ctxMsg 0x0304 [1, 0, 0, 0, 0, 0, 0, 0])) waiting
    t.ctx 5 = { gen := 2, part := some 3, draining := true, drainTag := some (1, 7) } ∧ (t.func 1).rsps = [] ∧ failOf t 8 = none
      ∧ lastRsp (own (.contextDestroy (msg 1 0x0304 [3, 0, 0, 0, 5, 0x10, 0, 0, 1, 0, 0, 0, 0, 0, 0, 0])) waiting) 1 = some (0x0731, 0, []) := by
  decide
theorem test_contextReset :
    let t := own (.contextReset (ctxMsg 0x0305 [])) waiting
    lastRsp t 1 = some (0, 0, []) ∧ (t.ctx 5).gen = 2 ∧ failOf t 8 = some 0x0D01
      ∧ ((own (.contextReset (ctxMsg 0x0305 [])) (waiting.modPart 3 fun x => { x with resetTags := some [] })).part 3).resetTags
        = some [(1, 7, none)] := by decide
theorem test_processEnd :
    let m := msg 1 0x0306 ([3, 0, 0, 0, 1, 0, 0, 0] ++ ctx5 ++ [0, 0, 0, 0])
    lastRsp (own (.processEnd m) waiting) 1 = some (0, 0, []) ∧ (own (.processEnd m) waiting).ctx 5 = { gen := 3 }
      ∧ lastRsp (own (.processEnd m) { waiting with ctxs := [] }) 1 = some (0x0731, 0, []) := by decide
/-- MEM_ALLOC of 64 KiB from granule 0. -/
def allocMsg (flags : Byte) : Msg := ctxMsg 0x0307 (toLe 8 65536 ++ [0, flags, 0, 0, 0, 0, 0, 0])
theorem test_memAlloc :
    let t := own (.memAlloc (allocMsg 5)) withObj
    findRange (usedRanges withObj 3) (objSpace (withObj.part 3)) 0 65536 = some 65536
      ∧ lastRsp t 1 = some (0, 0, toLe 8 65536) ∧ (memObj t 3 0).base = 65536 ∧ (memObj t 3 0).hostMap = true
      ∧ (memObj (own (.memAlloc (allocMsg 2)) withObj) 3 0).zeroTag = some (1, 7)
      ∧ lastRsp (own (.memAlloc (allocMsg 0)) (withObj.modPart 3 fun x => { x with qObjects := 1 })) 1 = some (0x0740, 0, []) := by decide
theorem test_zeroFillDone :
    let s := { part3 fun x => { x with objs := [(1, { live := true, base := 65536, bytes := 65536, zeroTag := some (1, 4) })] } with
      hbm := [(hbmAddr 3 65535, 1), (hbmAddr 3 65536, 2), (hbmAddr 3 131071, 3), (hbmAddr 3 131072, 4)] }
    let t := run (.zeroFillDone 0 3 1) (s.modFunc 1 fun x => { x with taken := [{ tag := 4 }] })
    t.hbm = [(hbmAddr 3 65535, 1), (hbmAddr 3 131072, 4)] ∧ lastRsp t 1 = some (0, 1, toLe 8 65536) := by decide
theorem test_memFree :
    let m := ctxMsg 0x0308 [1, 0, 1, 0, 0, 0, 0, 0]
    objFor withObj 3 5 0x10001 = some 1 ∧ memObj (own (.memFree m) withObj) 3 1 = { gen := 2 }
      ∧ (memObj (own (.memFree m) { withObj with steps := [(8, { part := 3, inputs := [0x10001] })] }) 3 1).freeing = true
      ∧ lastRsp (own (.memFree m) base) 1 = some (0x0741, 0, []) := by decide
theorem test_fenceCreate :
    let m := ctxMsg 0x0309 (toLe 8 9 ++ [63, 0, 0, 0, 1, 0, 0, 0, 3, 0, 0, 0, 0, 0, 0, 0])
    let t := own (.fenceCreate m) base
    lastRsp t 1 = some (0, 0, []) ∧ (t.part 3).fences
        = [(0, { live := true, ctx := 5, ctxGen := 2, cookie := 9, vector := 63, timeout := 1, shared := true, host := true })]
      ∧ lastRsp (own (.fenceCreate (ctxMsg 0x0309 (toLe 8 9 ++ [64, 0, 0, 0, 1, 0, 0, 0, 3, 0, 0, 0, 0, 0, 0, 0]))) base) 1
        = some (0x0750, 0, []) := by decide
theorem test_fenceSignal :
    let m := ctxMsg 0x030A [1, 0, 0, 0, 0, 0, 0, 0]
    fenceFor waiting 3 5 1 = some 1 ∧ ((own (.fenceSignal m) waiting).func 1).evtQueue.map (·.cookie) = [9]
      ∧ failOf (own (.fenceSignal (ctxMsg 0x030A [1, 0, 0, 0, 1, 0, 0, 0])) waiting) 8 = some 0x0754
      ∧ lastRsp (own (.fenceSignal m) (own (.fenceSignal m) waiting |>.modFunc 1 fun x => { x with tail := 2 })) 1 = some (0x0753, 0, []) := by
  decide
theorem test_fenceReset :
    let m := ctxMsg 0x030B [1, 0, 0, 0, 0, 0, 0, 0]
    let s := { waiting.modPart 3 fun x => { x with fences := [(1, { live := true, ctx := 5, ctxGen := 2, status := some 1 })] } with steps := [] }
    ((own (.fenceReset m) s).part 3).fences = [(1, { live := true, ctx := 5, ctxGen := 2 })]
      ∧ lastRsp (own (.fenceReset m) waiting) 1 = some (0x0752, 0, []) := by decide
theorem test_fenceDestroy :
    let m := ctxMsg 0x030C [1, 0, 0, 0, 0, 0, 0, 0]
    ((own (.fenceDestroy m) waiting).part 3).fences = [(1, { gen := 1 })] ∧ failOf (own (.fenceDestroy m) waiting) 8 = some 0x0754
      ∧ lastRsp (own (.fenceDestroy m) { waiting with steps := [(8, { part := 3, signals := [1] })] }) 1 = some (0x0752, 0, []) := by decide
theorem test_fenceTimeout : failOf (run (.fenceTimeout 1000001 8 0) waiting) 8 = some 0x0755
    ∧ (tfind (run (.fenceTimeout 1000001 8 0) waiting).steps 8).map (·.waitView) = some 3
    ∧ failOf (run (.fenceTimeout 1000001 8 1) waiting) 8 = none
    ∧ failOf (run (.fenceTimeout 1000000 8 0) waiting) 8 = none := by decide

/-! ### Life cycle, security, resets -/

/-- The code of a signed request verifies. -/
theorem macOk_sign (s : State) (m : Msg) : macOk (take s (sign s m)) (sign s m) = true := by
  have h : macKey (take s (sign s m)) ((take s (sign s m)).func (sign s m).func) = macKey s (s.func m.func) := by
    simp [sign, take, macKey, State.modFunc, State.func]
    rfl
  simp only [macOk, h, beq_iff_eq]
  rfl

theorem test_echo : lastRsp (own (.echo (msg 1 1 [1, 2, 3, 4, 5, 6, 7, 8])) base) 1 = some (0, 0, [1, 2, 3, 4, 5, 6, 7, 8]) := by decide
theorem test_capQuery : (lastRsp (own (.capQuery (msg 1 2 [])) base) 1).map (fun r => (fld r.2.2 0 4, fld r.2.2 16 2, fld r.2.2 20 1, r.2.2.length))
    = some (0x7F, 2048, 128, 64) := by decide
theorem test_capQuery_half : identCap0 .rv9e = 0x78 ∧ (capBytes { base with variant := .rv9h }).length = 64
    ∧ fld (capBytes { base with variant := .rv9h }) 16 2 = 1024 := by decide
theorem test_bootStatus : (lastRsp (own (.bootStatus (msg 1 3 [])) { base with life := { base.life with cause := 3, authOk := true } }) 1).map (·.2.2)
    = some [3, 4, 0, 0, 0, 1, 0, 0, 0, 0, 0, 3, 4] := by decide
/-- LC_TRANSITION to SCRAP. -/
def lcMsg : Msg := { crit 0x0705 [] with extAddr := 64, extBytes := 352, ext := toLe 4 0x31544C4B ++ [6, 1] }
theorem test_lcTransition : Passes base { opcode := 0x0705, critical := true, pfOnly := true, boot := 2 } (sign base lcMsg)
    ∧ Signed base (sign base lcMsg) ∧ base.life.flashJob = none := by
  refine ⟨by unfold Passes; decide, ⟨macOk_sign _ _, by decide⟩, rfl⟩
theorem test_lcTable : lcRow 2 3 1 = some (2, 3, 1, false, false) ∧ lcRow 3 4 1 = some (3, 4, 1, false, true) ∧ lcRow 6 0 1 = none
    ∧ lcRow 0 2 2 = none ∧ lcTable.length = 14 := by decide
theorem test_fwUpdate : Passes base { opcode := 0x0706, critical := true, pfOnly := true } (sign base (crit 0x0706 []))
    ∧ Signed base (sign base (crit 0x0706 [])) ∧ imageStatus base.life (extIn (sign base (crit 0x0706 []))) = 0x0E01 := by
  refine ⟨by unfold Passes; decide, ⟨macOk_sign _ _, by decide⟩, by decide⟩
/-- The same block in minimal mode, with a message in the boot mailbox (R338). -/
def minimal : State :=
  { base with
    life := { base.life with ready := false, minimal := true }
    funcs := [(0, { enabled := true, bootBusy := true })] }
/-- FW_RECOVER through the boot mailbox. -/
def recoverMsg : Msg := { crit 0x0707 [] with boot := true }
theorem test_fwRecover : modeOk minimal { opcode := 0x0707, boot := 3 } recoverMsg = true ∧ modeOk base { opcode := 0x0707, boot := 3 } recoverMsg = false
    ∧ (recoverMsg.inlineBytes = 0) ∧ (minimal.func 0).bootBusy = true := by decide
theorem test_flashOperationDone :
    let j : FlashJob := { kind := 0, func := 0, tag := 4, target := 6 }
    let s := { base.modFunc 0 fun x => { x with taken := [{ tag := 4 }] } with life := { base.life with flashJob := some j } }
    let t := run (.flashOperationDone 0 true) s
    takenOf s 0 4 = some { tag := 4 } ∧ lastRsp t 0 = some (0, 0, []) ∧ priorOf t.life.slots = 6 ∧ t.life.resetAt = some 1100000
      ∧ t.life.resetCause = 8 := by decide
theorem test_flashOperationDone_image :
    let j : FlashJob := { kind := 2, func := 0, tag := 4, image := [1] }
    let s := { base.modFunc 0 fun x => { x with taken := [{ tag := 4 }] } with life := { base.life with flashJob := some j } }
    (run (.flashOperationDone 0 true) s).life.image = [1] ∧ (run (.flashOperationDone 0 true) s).life.resetAt = some 1000000
      ∧ lastRsp (run (.flashOperationDone 0 false) s) 0 = some (0x0E04, 0, []) := by decide
/-- SLEEP_ENTER with the least wake time that R524 accepts. -/
def sleepMsg : Msg := crit 0x0406 (List.replicate 8 0 ++ toLe 8 51000000)
theorem test_sleepEnter : Passes base { opcode := 0x0406, critical := true, pfOnly := true, len := some 16, rsv := [(0, 8)] } (sign base sleepMsg)
    ∧ Signed base (sign base sleepMsg) ∧ fld (sign base sleepMsg).payload 8 8 = 50000000 + time base ∧ base.steps = []
    ∧ (∀ e ∈ base.funcs, e.2.inFlr = false ∧ e.2.rsps = [] ∧ e.2.taken = []) ∧ base.gst.stopped = false := by
  refine ⟨by unfold Passes; decide, ⟨macOk_sign _ _, by decide⟩, by decide, rfl, by decide, rfl⟩
theorem test_sleepEnter_idle : idleForSleep (take base sleepMsg) sleepMsg = true
    ∧ idleForSleep (take { base with steps := [(8, {})] } sleepMsg) sleepMsg = false := by decide
theorem test_spdmRequest : (run (.spdmRequest 0 .getVersion) base).out = [.spdm 0 []]
    ∧ (run (.spdmRequest 0 .getVersion) { base with mainReset := true }).out = [.spdm 1 []]
    ∧ (run (.spdmRequest 0 .mailboxKey) base).out = [.spdm 3 []]
    ∧ (run (.spdmRequest 0 .mailboxKey) { base with life := { base.life with session := 3 } }).life.pfKeyFetched = true
    ∧ (run (.spdmRequest 0 .finish) { base with life := { base.life with session := 1 } }).life.session = 3 := by decide
theorem test_spdmRequest_limited : (run (.spdmRequest 0 .challenge) { base with life := { lc := 6 } }).out = [.spdm 2 []]
    ∧ (run (.spdmRequest 0 (.keyExchange true)) base).life.session = 1 ∧ (run (.spdmRequest 0 (.pskExchange true)) base).life.session = 0
    ∧ (run (.spdmRequest 0 (.pskExchange true)) { base with life := { lc := 1 } }).life.session = 2
    ∧ (run (.spdmRequest 0 (.getMeasurements 3)) { base with life := { lc := 4, slotsUsed := 5, attestKey := true } }).out = [.spdm 0 [4, 5]] := by
  decide
/-- DEBUG_ENABLE of every bit for partition 3 by the PF, and of the trace bit by function 1. -/
def debugMsg : Msg := crit 0x0701 [3, 0, 0, 0, 13, 1, 0, 0]
theorem test_debugEnable : Passes base { opcode := 0x0701, critical := true, len := some 6, rsv := [(1, 3)] } (sign base debugMsg)
    ∧ Signed base (sign base debugMsg) ∧ anyPart base debugMsg = true ∧ setGrant [4] [3] true = [4, 3] ∧ setGrant [4, 3] [3] false = [4] := by
  refine ⟨by unfold Passes; decide, ⟨macOk_sign _ _, by decide⟩, by decide, by decide, by decide⟩
theorem test_devsetEnroll : Passes base { opcode := 0x0702, critical := true, pfOnly := true }
      (sign base { crit 0x0702 [] with extAddr := 64, extBytes := 272 })
    ∧ Signed base (sign base { crit 0x0702 [] with extAddr := 64, extBytes := 272 }) := by
  refine ⟨by unfold Passes; decide, ⟨macOk_sign _ _, by decide⟩⟩
theorem test_devsetLeave : Passes base { opcode := 0x0703, critical := true, pfOnly := true, len := some 8, rsv := [(0, 4)] }
      (sign base (crit 0x0703 [0, 0, 0, 0, 9, 0, 0, 0]))
    ∧ Signed base (sign base (crit 0x0703 [0, 0, 0, 0, 9, 0, 0, 0]))
    ∧ ((leaveSet (part3 fun x => { x with bobbins := [(1, { live := true, setId := 9, pinned := true })] }) 9).part 3).bobbins = [] := by
  refine ⟨by unfold Passes; decide, ⟨macOk_sign _ _, by decide⟩, by decide⟩
theorem test_mbxKeyExport : Passes base { opcode := 0x0704, critical := true, pfOnly := true, len := some 5, rsv := [(0, 4)]
                                          ranges := (base.func 1).enabled } (sign base { crit 0x0704 [0, 0, 0, 0, 1, 0, 0, 0] with extBytes := 137 })
    ∧ Signed base (sign base { crit 0x0704 [0, 0, 0, 0, 1, 0, 0, 0] with extBytes := 137 }) := by
  refine ⟨by unfold Passes; decide, ⟨macOk_sign _ _, by decide⟩⟩
theorem test_macKey : macKey base { key := 5, oldKey := some (time base, 4) } = 4
    ∧ macKey base { key := 5, oldKey := some (time base - 1, 4) } = 5 := by decide
theorem test_refusedCritical : check8 (take base (crit 0x0001 [])) { opcode := 1 } (crit 0x0001 []) = 0x0904
    ∧ check8 (take base (msg 0 0x0707 [])) { opcode := 0x0707, critical := true } (msg 0 0x0707 []) = 0x0910 := by decide
theorem test_replayed : spend (take base (sign base { crit 0x0606 [] with counter := 0 })) (sign base { crit 0x0606 [] with counter := 0 }) = none := by
  simp only [spend, macOk_sign]
  decide +kernel

/-- Tile 1 under test for the request of tag 4. -/
def testing : State :=
  { base.modFunc 0 fun x => { x with taken := [{ tag := 4, opcode := 0x0604 }] } with
    tiles := [(1, { withdrawn := 1, testing := some [(0, 4)], scratch := [(5, 1)] })] }
theorem test_selfTestDone : engineHere .rv9 1 = true ∧ lastRsp (run (.selfTestDone 0 1 true) testing) 0 = some (0, 0, [])
    ∧ ((run (.selfTestDone 0 1 true) testing).tile 1).scratch = [] ∧ ((run (.selfTestDone 0 1 true) testing).tile 1).withdrawn = 0
    ∧ lastRsp (run (.selfTestDone 0 1 false) testing) 0 = some (0x0D05, 0, [])
    ∧ ((run (.selfTestDone 0 1 false) testing).tile 1).withdrawn = 2 := by decide
/-- A start under way. -/
def startUp : State := { base with life := { starting := true, entryWritten := true, startAt := 500000 } }
theorem test_selfTestDone_block : starting startUp = true ∧ (run (.selfTestDone 0 0xFFFF true) startUp).life.bistDone = true
    ∧ (run (.selfTestDone 0 0xFFFF false) startUp).life.startFailed = some 3 := by decide +kernel
theorem test_engineReset :
    let m := msg 0 0x0604 [0, 0, 0, 0, 1, 0, 0, 0]
    failOf (run (.engineReset m) busy) 8 = some 0x0D02 ∧ ((run (.engineReset m) busy).tile 1).testing = some [(0, 7)]
      ∧ ((run (.engineReset m) busy).func 0).rsps = []
      ∧ lastRsp (run (.engineReset m) { busy with tiles := [(1, { withdrawn := 2 })] }) 0 = some (0x0D05, 0, []) := by decide
theorem test_partitionReset :
    let t := run (.partitionReset (msg 0 0x0605 p3)) { busy with windows := [(4, { isOpen := true, part := 3 })] }
    failOf t 8 = some 0x0D03 ∧ (t.part 3).resetTags = some [(0, 7, none)] ∧ (t.tile 0).testing = some [] ∧ (t.window 4).isOpen = false
      ∧ ((run (.partitionReset (msg 0 0x0605 p3)) (part3 fun x => { x with resetTags := some [] })).part 3).resetTags = some [(0, 7, none)] := by
  decide +kernel
theorem test_blockReset :
    let t := run (.blockReset (msg 0 0x0606 [])) base
    t.power.admitting = false ∧ t.life.resetAt = some 1100000 ∧ t.life.resetCause = 3 ∧ (t.func 0).rsps = []
      ∧ (t.func 0).taken = [{ tag := 7, opcode := 0x0606 }] := by decide
theorem test_powerCycle : (run (.powerCycle (msg 0 0x0607 [])) base).aon.trayReqN = false
    ∧ (run (.powerCycle (msg 0 0x0607 [])) base).out = [.ibi] := by decide
theorem test_bistRun :
    let m := msg 0 0x0708 [0, 0, 0, 0, 1, 0, 0, 0]
    ((run (.bistRun m true) busy).tile 1).testing = some [(0, 7)] ∧ failOf (run (.bistRun m true) busy) 8 = some 0x0C01
      ∧ lastRsp (run (.bistRun m false) busy) 0 = some (0, 2, toLe 8 2)
      ∧ lastRsp (run (.bistRun (msg 0 0x0708 [0, 0, 0, 0, 0x45, 8, 0, 0]) true) { busy with variant := .rv9e }) 0 = some (0, 3, toLe 8 3) := by
  decide
theorem test_bistRun_block :
    let m := msg 0 0x0708 [0, 0, 0, 0, 0xFF, 0xFF, 0, 0]
    lastRsp (run (.bistRun m true) base) 0 = some (0x0E20, 0, []) ∧ (run (.bistRun m true) { base with parts := [] }).life.bistTag = some (0, 7)
      ∧ lastRsp (run (.bistRun m true) { base with life := { base.life with lc := 6 } }) 0 = some (0x0914, 0, []) := by decide
theorem test_resetEscalation : ((run (.resetEscalation 0 1 1) testing).tile 1).withdrawn = 2
    ∧ (run (.resetEscalation 0 2 3) (part3 fun x => { x with resetTags := some [] })).life.cause = 3
    ∧ failOf (run (.resetEscalation 0 3 1) (busy.modFunc 1 fun x => { x with inFlr := true })) 8 = some 0x0D03 := by decide +kernel
theorem test_resetEscalation_context :
    let s := { busy with steps := [(8, { state := 5, part := 3, ctx := 5, fail := some 0x0D01 })] }
    stepsIn s 1 = [8] ∧ (testingOf (beginEngineReset s 1 []) 1).isSome = true := by decide
theorem test_slotQuarantineEnd : (run (.slotQuarantineEnd 50000001 8) { base with quar := [(8, { openReqs := 1, since := 1 })] }).quar = []
    ∧ (run (.slotQuarantineEnd 50000000 8) { base with quar := [(8, { openReqs := 1, since := 1 })] }).quar ≠ []
    ∧ (run (.slotQuarantineEnd 0 8) { base with quar := [(8, {})] }).quar = [] := by decide


/-! ### Clocks, rails, reset pins, and the start -/

/-- `base` with the always-on part changed. -/
def aon (f : Aon → Aon) : State := base.modAon f
/-- `base` held in reset. -/
def down (f : Aon → Aon) : State := { base.modAon f with mainReset := true, life := { base.life with ready := false } }

theorem test_refclk : (run (.refclkLost 0) base).mainReset = true ∧ (run (.refclkLost 0) base).aon.holdover = true
    ∧ (0xE901 : Code) ∈ (run (.refclkLost 0) base).coll.log ∧ (run (.refclkLost 0) base).coll.freeze = false
    ∧ (run (.refclkReturn 0) (down fun a => { a with refclk := false })).aon.refclkSince = 1000000 := by decide
theorem test_pwrGood :
    (run (.pwrGoodRise 0) (down fun a => { a with pwrGood := false, pend902 := true })).life.nextCode = 0xE902
      ∧ (run (.pwrGoodRise 0) (down fun a => { a with pwrGood := false })).life.nextCode = 0
      ∧ (run (.pwrGoodFall 0) base).aon.needBlkCycle = true ∧ (run (.pwrGoodFall 0) base).parts = []
      ∧ (run (.pwrGoodFall 0) (aon fun a => { a with asleep := true })).parts = base.parts := by decide
theorem test_aonReset : time (run .aonResetNFall base) = 0 ∧ (run .aonResetNFall base).coll = {} ∧ (run .aonResetNFall base).aon.railsOk = true
    ∧ (run .vddAonLost base).aon.railsOk = false ∧ (run .vddAonLost base).aon.aonResetN = false
    ∧ (run .aonResetNRelease (down fun a => { a with aonResetN := false })).mainReset = false
    ∧ (run .aonResetNRelease (down fun a => { a with aonResetN := false, blkResetN := false })).mainReset = true
    ∧ (run .aonResetNRelease (down fun a => { a with aonResetN := false, pwrGood := false })).mainReset = true := by decide
theorem test_blkResetNFall : (run (.blkResetNFall 0) base).life.nextCause = 1 ∧ (run (.blkResetNFall 0) base).mainReset = true
    ∧ time (run (.blkResetNFall 1000009) base) = 1000009
    ∧ (run (.blkResetNFall 0) (aon fun a => { a with asleep := true })).parts = base.parts := by decide
theorem test_blkResetNRelease :
    let s := down fun a => { a with blkResetN := false }
    (run (.blkResetNRelease 0 1 true) s).mainReset = false ∧ (run (.blkResetNRelease 0 1 true) s).life.startAt = 1000000
      ∧ (run (.blkResetNRelease 0 1 true) (s.modAon fun a => { a with pwrGood := false })).aon.pend902 = true
      ∧ (run (.blkResetNRelease 0 1 true) (s.modAon fun a => { a with pwrGood := false })).mainReset = true := by decide
theorem test_monitors : (0xE902 : Code) ∈ (run (.voltageMonitorTrip 0) base).coll.log ∧ (run (.voltageMonitorTrip 0) base).aon.needBlkCycle = true
    ∧ (run (.railBackInTolerance 5) (down fun a => { a with railTripped := true })).aon.railBackSince = 1000000
    ∧ (run (.thermalTrip 0) base).coll.fatalCode = 0xE907 ∧ (run (.thermalTrip 0) base).aon.trayReqN = false := by decide
theorem test_powerCycleRequest :
    let s := down fun a => { a with blkHighSince := 0 }
    (run (.powerCycleRequest 100000000) s).aon.trayReqN = false ∧ (run (.powerCycleRequest 99999999) s).aon.trayReqN = true
      ∧ holdWaits s = false := by decide
theorem test_stopInNFall :
    (run (.stopInNFall ⟨0, true⟩) { base with grants := { stop := true } }).gst = { stopped := true, source := 2, time := 1000000 }
      ∧ (run (.stopInNFall ⟨0, true⟩) base).gst = {} ∧ (run (.stopInNFall ⟨0, true⟩) base).aon.stopOutN = false := by decide
theorem test_torusCoordinatesWrite :
    let s := down fun a => { a with blkResetN := false }
    (run (.torusCoordinatesWrite 15 0 3 16 1 4) s).aon.coords = some (15, 0, 3, 16, 1, 4)
      ∧ (run (.torusCoordinatesWrite 15 0 4 16 1 4) s).aon.coords = none
      ∧ (run (.torusCoordinatesWrite 0 0 0 1 1 1) base).aon.coords = none := by decide
theorem test_tapInstruction : (run (.tapInstruction .idcode) base).out = [.tdo 0xB0E25A6F]
    ∧ (run (.tapInstruction .idcode) base).life.tapInstr = tapNumber .idcode ∧ tapOpen 4 .idcode = true
    ∧ (∃ i, tapOpen 4 i = false ∧ (run (.tapInstruction i) base).life.tapInstr = tapNumber .bypass)
    ∧ (run .trstNReset base).life.tapInstr = tapNumber .idcode := by
  refine ⟨by decide, by decide, by decide, ⟨.scanTest, by decide, by decide⟩, by decide⟩
/-- A request for 700 mV on die 1, made at 900000 ns, before `ready`. -/
def railReq (r : Bool) : State :=
  { base with rails := [(1, { request := some 700, requestAt := 900000, retried := r })], parts := [], life := { base.life with ready := false } }
theorem test_rail : (run (.railConfirm 0 1 700) (railReq false)).rail 1 = { level := some 700, requestAt := 900000 }
    ∧ (run (.railConfirm 0 1 710) (railReq false)).rail 1 = (railReq false).rail 1
    ∧ (run (.railConfirmTimeout 1000001 1) (railReq false)).out = [.railRequest 1 700]
    ∧ ((run (.railConfirmTimeout 1000001 1) (railReq true)).rail 1).request = none ∧ ((run (.railConfirmTimeout 1000001 1) (railReq true)).rail 1).level = none
    ∧ (run (.railConfirmTimeout 1000000 1) (railReq false)).out = []
    ∧ ((run (.railConfirm 0 1 700) (railReq false)).tile 8).clock = 48 ∧ ((run (.railConfirm 0 1 700) (railReq false)).tile 0).clock = 0 := by
  decide +kernel
/-- A start under way whose image has authenticated and whose self-test has ended. -/
def lateStart : State := { startUp with life := { startUp.life with ready := false, authOk := true, bistDone := true } }
theorem test_startEntryNotWritten :
    let s := { startUp with life := { startUp.life with entryWritten := false } }
    (run (.startEntryNotWritten 10500001) s).life.startFailed = some 2 ∧ (0xAA01 : Code) ∈ (run (.startEntryNotWritten 10500001) s).coll.log
      ∧ (run (.startEntryNotWritten 10500000) s).life.startFailed = none := by decide
theorem test_flashStatusTimeout : (run (.flashStatusTimeout 0) startUp).life.startFailed = some 2
    ∧ (run (.flashStatusTimeout 0) startUp).life.flashTimedOut = true := by decide
theorem test_hbmPortNotReady : (run (.hbmPortNotReady 2500001 511) startUp).badGranules = [127]
    ∧ (run (.hbmPortNotReady 2500001 512) startUp).badGranules = [] ∧ (run (.hbmPortNotReady 2500000 511) startUp).badGranules = [] := by
  decide +kernel
theorem test_startTimeout : (run (.startTimeout 2000500001) startUp).life.startFailed = some 4
    ∧ (run (.startTimeout 2000500000) startUp).life.startFailed = none := by decide
theorem test_failedStartReset :
    let s := { aon fun a => { a with blkResetN := false } with life := { startUp.life with startFailed := some 3, failedAt := 500000 } }
    (run (.failedStartReset 10500000) s).mainReset = true ∧ (run (.failedStartReset 10500000) s).life.nextCause = 5
      ∧ (run (.failedStartReset 10499999) s).mainReset = false := by decide
theorem test_collectorInitialised : (run (.faultCollectorInitialised 0) { base with coll := {} }).coll = { init := true } := by decide
theorem test_imageAuthenticated : starting startUp = true ∧ startUp.life.authOk = false ∧ startUp.coll.init = true
    ∧ imageStatus startUp.life startUp.life.image = 0x0E01 ∧ (run (.imageAuthenticated 0) startUp).life.startFailed = some 1 := by decide
theorem test_calibrationDone : (run (.calibrationDone 0 12) lateStart).life.energyFactor = 12
    ∧ ((run (.calibrationDone 0 12) lateStart).rail 1).request = some 600 := by decide +kernel
theorem test_mbxReady :
    let s := { lateStart with life := { lateStart.life with calibrated := true } }
    ready (run (.mbxReady 0) s) = true ∧ (run (.mbxReady 0) s).power.limit = 4000 ∧ ((run (.mbxReady 0) s).window 0x3FF).isOpen = true
      ∧ (run (.mbxReady 2000500001) s).life.ready = false := by decide
theorem test_internalResets :
    let s := { base with coll := { init := true, resetPending := true, fatalCode := 0xE005, fatalAt := 500000, log := [0xE005] } }
    let low := s.modAon fun a => { a with blkResetN := false }
    (run (.fatalBlockReset 1500000) s).life.cause = 4 ∧ (run (.fatalBlockReset 1500000) s).mainReset = false
      ∧ (run (.fatalBlockReset 1500000) low).life.nextCode = 0xE005 ∧ (run (.fatalBlockReset 1500000) low).mainReset = true
      ∧ (run (.fatalBlockReset 1499999) s).coll.resetPending = true
      ∧ (run (.blockResetBegin 0) { low with life := { base.life with resetAt := some 1000000, resetCause := 3 } }).life.nextCause = 3 := by
  decide
theorem test_sleepEntry :
    let s := { base with
      power := { entering := true, wakeTime := 60000000 }
      funcs := [(0, { enabled := true })]
      ports := [(0, { up := true })] }
    let t := run (.sleepEntry 0) s
    t.aon.asleep = true ∧ t.mainReset = true ∧ t.out = [.railsOff] ∧ (t.port 0).up = false
      ∧ tget t.aon.cmps 12 {} = { value := 60000000, armed := true, wake := true } := by decide
theorem test_wake : (run (.wake 0 true) (down id)).aon.wakeN = false
    ∧ (run (.wake 0 false) (down fun a => { a with cmps := [(12, { fired := true, wake := true })] })).aon.wakeN = false
    ∧ (run (.wake 0 true) { base with power := { entering := true } }).power.wakePending = true
    ∧ (run (.wake 0 true) base).aon.wakeN = true := by decide

/-! ### Skein code on a tile -/

/-- Tile 1 runs skein 0 of step 8 of a program with these tensors and views, and `i` is its next instruction. Tensor `k` has its
buffer at byte 128 `k`; scratchpad bytes 0 to 15 hold 1.0, 2.0, -1.0 and 0.5. -/
def onTile (ts : List Upf.Tensor) (vs : List Upf.View) (i : SkInsn) (f : SkeinRun → SkeinRun := id) : State :=
  { part3 fun x => { x with running := some 8
                            progs := [(0, { live := true, upf := { tensors := ts, views := vs, skeins := [{ code := [i, .fin] }, {}] } })] } with
    steps := [(8, { state := 3, part := 3, ctx := 5, ctxGen := 2, skeins := [(0, 2)] })]
    tiles := [(1, { run := some (f { slot := 8, code := [i, .nop, .fin], issued := true })
                    bufs := (List.range ts.length).map fun k => { slot := 8, tensor := k, base := 128 * k, bytes := 128 }
                    scratch := [(2, 0x80), (3, 0x3F), (7, 0x40), (10, 0x80), (11, 0xBF), (15, 0x3F)] })] }
/-- The run on tile 1 after its next instruction. -/
def after (c : Instr) (s : State) : SkeinRun := (((run c s).tile 1).run).getD {}
/-- The state meets the hypothesis about issue. -/
def Ready (s : State) (i : SkInsn) : Prop := ∃ r st, Issues s 1 i r st
/-- Four FP32 values in the scratchpad. -/
def quad : Upf.Tensor := { kind := 4, extent := [4, 1, 1, 1], bytes := 16 }
/-- All of tensor `k`, which is such a row. -/
def row (k : Nat) : Upf.View := { tensor := k, extent := [4, 1, 1, 1] }

theorem test_nop : Ready (onTile [] [] .nop) .nop ∧ (after (.nop 1) (onTile [] [] .nop)).code = [.nop, .fin] :=
  ⟨⟨_, _, by decide, rfl, rfl, rfl⟩, by decide⟩
theorem test_skip : Ready (onTile [] [] (.skipz 3 1)) (.skipz 3 1) ∧ Ready (onTile [] [] (.skipnz 3 1)) (.skipnz 3 1)
    ∧ (after (.skipz 1 3 1) (onTile [] [] (.skipz 3 1))).code = [.fin]
    ∧ (after (.skipnz 1 3 1) (onTile [] [] (.skipnz 3 1))).code = [.nop, .fin]
    ∧ (after (.skipz 1 3 1) (onTile [] [] (.skipz 3 1) fun r => { r with scalars := [(3, 1)] })).code = [.nop, .fin] :=
  ⟨⟨_, _, by decide, rfl, rfl, rfl⟩, ⟨_, _, by decide, rfl, rfl, rfl⟩, by decide⟩
theorem test_scalars : Ready (onTile [] [] (.seti 15 7)) (.seti 15 7) ∧ Ready (onTile [] [] (.pred 2)) (.pred 2)
    ∧ Ready (onTile [] [] (.stat 2)) (.stat 2) ∧ sreg (after (.seti 1 15 7) (onTile [] [] (.seti 15 7))) 15 = 7
    ∧ sreg (after (.pred 1 2) (onTile [] [] (.pred 2) fun r => { r with tokens := 33 })) 2 = 33
    ∧ sreg (after (.stat 1 2) (onTile [] [] (.stat 2) fun r => { r with conv := 5 })) 2 = 5 :=
  ⟨⟨_, _, by decide, rfl, rfl, rfl⟩, ⟨_, _, by decide, rfl, rfl, rfl⟩, ⟨_, _, by decide, rfl, rfl, rfl⟩, by decide⟩
theorem test_fin : Ready (onTile [] [] .fin) .fin ∧ ((run (.fin 1) (onTile [] [] .fin)).tile 1).run = none
    ∧ ((run (.fin 1) (onTile [] [] .fin)).tile 1).tails.map (·.ended) = [true]
    ∧ (tfind (run (.fin 1) (onTile [] [] .fin)).steps 8).map (·.skeins) = some [(0, 3)] := ⟨⟨_, _, by decide, rfl, rfl, rfl⟩, by decide⟩

/-- Vector operands: v1 holds 1.0 in every FP32 value, v2 2.0. -/
def vecs (r : SkeinRun) : SkeinRun := { r with vregs := [(1, List.replicate 128 0x3F800000), (2, List.replicate 128 0x40000000)] }
theorem test_vop : Ready (onTile [] [] (.vop 0 0 1 2 0 3 0) vecs) (.vop 0 0 1 2 0 3 0)
    ∧ Ready (onTile [] [] (.vop 1 2 1 2 0 3 0) vecs) (.vop 1 2 1 2 0 3 0) ∧ Ready (onTile [] [] (.vop 3 3 1 2 0 3 0) vecs) (.vop 3 3 1 2 0 3 0)
    ∧ (vopFloat 0 0 0 0 0x3F800000 0x40000000 0).1 = 0x40400000 ∧ (vopFloat 2 0 0 0 0x3F800000 0x40000000 0x3F800000).1 = 0x40400000
    ∧ vopInt 3 0 0xFFFFFFFF 1 0 = 0xFFFFFFFF ∧ vopInt 4 0 0xFFFFFFFF 1 0 = 1 :=
  ⟨⟨_, _, by decide, rfl, rfl, rfl⟩, ⟨_, _, by decide, rfl, rfl, rfl⟩, ⟨_, _, by decide, rfl, rfl, rfl⟩, by decide⟩
theorem test_vfn : Ready (onTile [] [] (.vfn 0 4 3)) (.vfn 0 4 3) ∧ (vecFn 0 0).1 = 0x3F800000 ∧ (vecFn 3 0xFF800000).1 = 0x7FC00000
    ∧ (vecFn 2 0x80000000).1 = 0xFF800000 := ⟨⟨_, _, by decide, rfl, rfl, rfl⟩, by decide⟩
theorem test_vred : Ready (onTile [] [] (.vred 0 1 3) vecs) (.vred 0 1 3)
    ∧ (pairTree (redOp 0) 7 (List.replicate 128 ((0x3F800000 : BitVec 32), 0))).headD (0, 0) = (0x43000000, 0) :=
  ⟨⟨_, _, by decide, rfl, rfl, rfl⟩, by decide +kernel⟩

theorem test_vld :
    let s := onTile [quad] [row 0] (.vld 0 1 0 0)
    Ready s (.vld 0 1 0 0) ∧ (readView s 1 8 ((tfind s.steps 8).getD {}) 0).map (·.1) = [0x3F800000, 0x40000000, 0xBF800000, 0x3F000000]
      ∧ (vreg (after (.vld 1 0 1 0 0) s) 1).take 5 = [0x3F800000, 0x40000000, 0xBF800000, 0x3F000000, 0] :=
  ⟨⟨_, _, by decide, rfl, rfl, rfl⟩, by decide +kernel, by decide +kernel⟩
theorem test_vld_poisoned :
    let s := (onTile [quad] [row 0] (.vld 0 1 0 0)).modTile 1 fun x => { x with poison := [0] }
    Ready s (.vld 0 1 0 0) ∧ failOf (run (.vld 1 0 1 0 0) s) 8 = some 0x0C01 ∧ mkCode 2 (tileDie 1) 0x02 ∈ (run (.vld 1 0 1 0 0) s).coll.log :=
  ⟨⟨_, _, by decide, rfl, rfl, rfl⟩, by decide +kernel⟩
/-- A tensor of the output object at handle 1, and its object. -/
def outputs (s : State) : State :=
  { s.modPart 3 fun x => { x with objs := [(1, { live := true, base := 65536, bytes := 65536 })] } with
    steps := s.steps.map fun e => (e.1, { e.2 with outputs := [1] }) }
theorem test_vst :
    let s := outputs (onTile [quad, { quad with kind := 1 }] [row 0, row 1] (.vst 1 1 0 0 false false false) vecs)
    Ready s (.vst 1 1 0 0 false false false) ∧ mread (run (.vst 1 1 1 0 0 false false false) s).hbm (hbmAddr 3 65539) = 0x3F
      ∧ mread (run (.vst 1 1 1 0 0 false false false) s).hbm (hbmAddr 3 65551) = 0x3F
      ∧ mread (run (.vst 1 1 1 0 0 false false false) s).hbm (hbmAddr 3 65555) = 0 :=
  ⟨⟨_, _, by decide, rfl, rfl, rfl⟩, by decide +kernel⟩
/-- A block format, and a `sparse24` tensor with its metadata. -/
def others : List Upf.Tensor :=
  [{ kind := 4, format := 11, extent := [32, 1, 1, 1], bytes := 32, scale := 1 }, { kind := 4, format := 3, bytes := 1 },
    { kind := 4, flags := 1, extent := [4, 1, 1, 1], bytes := 8, meta24 := 3 }, { kind := 4, format := 9, extent := [2, 1, 1, 1], bytes := 1 }]
theorem test_vst_forms :
    let vs : List Upf.View := [{ tensor := 0, extent := [32, 1, 1, 1] }, { tensor := 2, extent := [4, 1, 1, 1] }]
    Ready (onTile others vs (.vst 0 1 0 0 true false false) vecs) (.vst 0 1 0 0 true false false) ∧ isBlock 11 = true
      ∧ Ready (onTile others vs (.vst 1 1 0 0 true true false) vecs) (.vst 1 1 0 0 true true false) := by
  exact ⟨⟨_, _, by decide, rfl, rfl, rfl⟩, by decide, ⟨_, _, by decide, rfl, rfl, rfl⟩⟩
/-- A 1 × 4 by 4 × 1 product of the four values with themselves: tensor 2 lies where tensor 0 does. -/
def product (i : SkInsn) : State :=
  (onTile [quad, quad, { quad with extent := [1, 4, 1, 1] }] [row 0, { tensor := 2, extent := [1, 4, 1, 1] }, row 1] i).modTile 1
    fun x => { x with bufs := x.bufs.map fun b => { b with base := b.base % 256 } }
theorem test_mma :
    let s := product (.mma 0 1 0 true false 0)
    Ready s (.mma 0 1 0 true false 0) ∧ firstPoison (passOf s 1 8 ((tfind s.steps 8).getD {}) 0 1 1) = none
      ∧ firstBadNibble (passOf s 1 8 ((tfind s.steps 8).getD {}) 0 1 1) = none
      ∧ tget (tget (after (.mma 1 0 1 0 true false 0) s).acc 0 []) 0 0 = 0x40C80000 :=
  ⟨⟨_, _, by decide, rfl, rfl, rfl⟩, by decide +kernel, by decide +kernel, by decide +kernel⟩
theorem test_mma_poisoned :
    let s := (product (.mma 0 1 0 true false 0)).modTile 1 fun x => { x with poison := [0] }
    Ready s (.mma 0 1 0 true false 0) ∧ Undecided ((tfind s.steps 8).getD {})
      ∧ failOf (run (.mma 1 0 1 0 true false 0) s) 8 = some 0x0C01 :=
  ⟨⟨_, _, by decide, rfl, rfl, rfl⟩, by unfold Undecided; decide, by decide +kernel⟩
theorem test_drain :
    let s := (product (.drain 2 0 0 false 0)).modTile 1 fun x => { x with run := x.run.map fun r => { r with acc := [(0, [(0, 0x40C80000)])] } }
    Ready s (.drain 2 0 0 false 0) ∧ mreadN ((run (.drain 1 2 0 0 false 0) s).tile 1).scratch 128 8 = [0, 0, 0xC8, 0x40, 0, 0, 0, 0] :=
  ⟨⟨_, _, by decide, rfl, rfl, rfl⟩, by decide +kernel⟩
theorem test_sst :
    let s := onTile [quad, quad] [row 0, row 1] (.sst 3 8 1) fun r => { r with scalars := [(3, 0x12345678)] }
    Ready s (.sst 3 8 1) ∧ mreadN ((run (.sst 1 3 8 1) s).tile 1).scratch 132 12 = [0, 0, 0, 0, 0x78, 0x56, 0x34, 0x12, 0, 0, 0, 0] :=
  ⟨⟨_, _, by decide, rfl, rfl, rfl⟩, by decide +kernel⟩
theorem test_digest :
    let s := onTile [quad, quad] [row 0, row 1] (.digest 0 1)
    Ready s (.digest 0 1) ∧ mreadN ((run (.digest 1 0 1) s).tile 1).scratch 128 8
      = toLe 8 (crc64 [0, 0, 0x80, 0x3F, 0, 0, 0, 0x40, 0, 0, 0x80, 0xBF, 0, 0, 0, 0x3F]).toNat :=
  ⟨⟨_, _, by decide, rfl, rfl, rfl⟩, by decide +kernel⟩
theorem test_mapclr :
    let s := onTile [{ kind := 4, flags := 2, extent := [16, 8, 1, 1], bytes := 512, zmap := 1, fmap := 2 }, { kind := 4, bytes := 1 },
        { kind := 4, bytes := 1 }] [{ tensor := 0, start := [8, 0, 0, 0], extent := [8, 8, 1, 1] }] (.mapclr 0)
    Ready s (.mapclr 0) ∧ mread ((run (.mapclr 1 0) s).tile 1).scratch 128 = 2 ∧ mread ((run (.mapclr 1 0) s).tile 1).scratch 256 = 2 :=
  ⟨⟨_, _, by decide, rfl, rfl, rfl⟩, by decide +kernel⟩

/-! ### Copies, collectives, sorts, skeins -/

/-- The step of `s` as a step of job 2, which has three members on a ring of three packages, this one the first; ports 0 and 1 lead
to the others. -/
def inJob (s : State) : State :=
  { s with
    aon := { s.aon with coords := some (0, 0, 0, 3, 1, 1) }
    jobs := [(2, { live := true, members := [{ part := 3 }, { pkg := 1 }, { pkg := 2 }], routes := [(1, [0]), (2, [1])] })]
    ports := [(0, { up := true }), (1, { up := true })]
    steps := s.steps.map fun e => (e.1, { e.2 with job := some (2, 0) }) }
theorem test_fetch :
    let s := onTile [quad, quad] [row 0, row 1] (.fetch 0 1 0)
    Ready s (.fetch 0 1 0) ∧ mreadN ((run (.fetch 1 0 1 0) s).tile 1).scratch 128 4 = [0, 0, 0x80, 0x3F]
      ∧ Ready (inJob (onTile [quad, quad] [row 0, row 1] (.fetch 0 1 1))) (.fetch 0 1 1)
      ∧ (run (.fetch 1 0 1 1) (inJob (onTile [quad, quad] [row 0, row 1] (.fetch 0 1 1)))).remOps.map (fun o => (o.kind, o.member, o.want))
        = [(0, 1, 16)]
      ∧ ((run (.fetch 1 0 1 1) (inJob (onTile [quad, quad] [row 0, row 1] (.fetch 0 1 1)))).port 0).txq.map (fun m => m.ctl.isSome) = [true] :=
  ⟨⟨_, _, by decide, rfl, rfl, rfl⟩, by decide +kernel, ⟨_, _, by decide, rfl, rfl, rfl⟩, by decide +kernel, by decide +kernel⟩
theorem test_send :
    let s := onTile [quad, quad] [row 0, row 1] (.send 0 1 0)
    Ready s (.send 0 1 0) ∧ mreadN ((run (.send 1 0 1 0) s).tile 1).scratch 140 4 = [0, 0, 0, 0x3F]
      ∧ Ready (inJob (onTile [quad, quad] [row 0, row 1] (.send 0 1 2))) (.send 0 1 2)
      ∧ (after (.send 1 0 1 2) (inJob (onTile [quad, quad] [row 0, row 1] (.send 0 1 2)))).opsOut = 1 :=
  ⟨⟨_, _, by decide, rfl, rfl, rfl⟩, by decide +kernel, ⟨_, _, by decide, rfl, rfl, rfl⟩, by decide +kernel⟩
theorem test_coll :
    let s := inJob (onTile [quad, quad] [row 0, row 1] (.coll 0 1 2 0 0 3 0))
    let t := run (.coll 1 0 1 2 0 0 3 0) s
    Ready s (.coll 0 1 2 0 0 3 0) ∧ memberPort s 2 1 = some 0 ∧ memberPort s 2 2 = some 1
      ∧ t.remOps.map (fun o => (o.kind, o.member)) = [(2, 1)]
      ∧ t.remOps.map (fun o => o.coll.map fun c => (c.pattern, c.count, c.own, c.els)) = [some (2, 3, 0, 12)]
      ∧ (t.reducer 1).plans.map (fun q => (q.slot, q.rev)) = [(8, false)] ∧ (t.reducer 0).plans.map (·.rev) = [true]
      ∧ Ready { s with ports := [] } (.coll 0 1 2 0 0 3 0) ∧ failOf (run (.coll 1 0 1 2 0 0 3 0) { s with ports := [] }) 8 = some 0x0B03 :=
  ⟨⟨_, _, by decide, rfl, rfl, rfl⟩, by decide +kernel, by decide +kernel, by decide +kernel, by decide +kernel, by decide +kernel, by decide +kernel,
    ⟨_, _, by decide, rfl, rfl, rfl⟩, by decide +kernel⟩
theorem test_sort :
    let s := onTile [{ quad with extent := [16, 1, 1, 1], bytes := 64 }] [{ tensor := 0, extent := [16, 1, 1, 1] }] (.sort 0 3)
    let full : State := { s with sorters := [(0, { reqs := List.replicate 16 {} })] }
    Ready s (.sort 0 3) ∧ partDies (s.part 3) = [0] ∧ sorterRoom (s.sorter 0) = true ∧ sorterRoom (full.sorter 0) = false
      ∧ Ready full (.sort 0 3) ∧ (after (.sort 1 0 3) full).sortsOut = 1
      ∧ (run (.sort 1 0 3) full).sortWait.map (fun q => (q.idx, q.desc.length)) = [(3, 64)] :=
  ⟨⟨_, _, by decide, rfl, rfl, rfl⟩, by decide, by decide, by decide, ⟨_, _, by decide, rfl, rfl, rfl⟩, by decide +kernel, by decide +kernel⟩
/-- Step 8 runs and its skein 0 has not started. -/
def fresh0 : State :=
  let s := onTile [quad] [row 0] (.vld 0 1 0 0)
  { s with tiles := [], steps := [(8, { state := 3, part := 3, ctx := 5, ctxGen := 2, noFallback := true })] }
theorem test_skeinPlace : mayStart fresh0 8 0 ((tfind fresh0.steps 8).getD {}) = true ∧ tileOwner fresh0 1 = some 3
    ∧ ((run (.skeinPlace 0 8 0 1 [(0, 256)]) fresh0).tile 1).run.map (·.skein) = some 0
    ∧ bufBase ((run (.skeinPlace 0 8 0 1 [(0, 256)]) fresh0).tile 1) 8 0 = some 256
    ∧ (run (.skeinPlace 0 8 0 1 []) fresh0).tiles = [] := by decide +kernel
theorem test_skeinPlace_pinned :
    let s := { (fresh0.modPart 3 fun x => { x with progs := x.progs.map fun e => (e.1, { e.2 with hints := [{ prefer := 1, pin := 1, first := 0, last := 0, mode := 0 }] }) }) with
      badGranules := [0] }
    pinnedGranules s ((tfind s.steps 8).getD {}) (skeinOf (stepFile s ((tfind s.steps 8).getD {})) 0) = [0]
      ∧ failOf (run (.skeinPlace 0 8 0 1 []) s) 8 = some 0x0611 := by decide +kernel
theorem test_skeinComplete :
    let st : Step := { state := 3, part := 3, ctx := 5, ctxGen := 2, skeins := [(0, 3), (1, 4)] }
    let s := { fresh0 with steps := [(8, st)], tiles := [(1, { tails := [{ slot := 8, skein := 0, ended := true, conv := 3 }] })] }
    (tfind (run (.skeinComplete 0 1 0) s).steps 8).map (fun st => (st.state, st.skeins, st.conv)) = some (5, [(0, 4), (1, 4)], 3)
      ∧ ((run (.skeinComplete 0 1 0) s).part 3).running = none
      ∧ (tfind (run (.skeinComplete 0 1 0) { s with steps := [(8, { st with skeins := [(0, 3), (1, 2)] })] }).steps 8).map (·.state) = some 3 := by
  decide +kernel
/-- A sort of one token over two experts: scores at byte 4096, output at byte 8192. -/
def sortOf (tokens : Nat) : SortReq :=
  { slot := 8, tile := 1, idx := 3, part := 3
    desc := toLe 8 4096 ++ toLe 8 8192 ++ toLe 2 tokens ++ toLe 2 2 ++ [1, 0, 0, 0] ++ toLe 2 0x0100 ++ toLe 2 0 ++ toLe 2 0xFFFF
      ++ List.replicate 34 0 }
theorem test_sortStart :
    let s := fun n => { fresh0 with sorters := [(0, { reqs := [sortOf n] })] }
    ((run (.sortStart 0 0) (s 1)).sorter 0).run = some (sortOf 1) ∧ ((run (.sortStart 0 0) (s 1)).sorter 0).reqs = []
      ∧ failOf (run (.sortStart 0 0) (s 4097)) 8 = some 0x0410 ∧ failOf (run (.sortStart 0 0) (s 0)) 8 = some 0x0410 := by decide +kernel
theorem test_sortComplete :
    let s := { fresh0 with sorters := [(0, { run := some (sortOf 1) })], hbm := [(hbmAddr 3 4102, 0x80), (hbmAddr 3 4103, 0x3F)] }
    sortPoisoned s 3 (sortDesc (sortOf 1).desc) = false ∧ (sortDesc (sortOf 1).desc).home = 0 ∧ (sortDesc (sortOf 1).desc).experts = 2
      ∧ tokenScores s 3 (sortDesc (sortOf 1).desc) 0 = [decFp (fpFmt 0) 0, decFp (fpFmt 0) 0x3F800000]
      ∧ failOf (run (.sortComplete 0 0) { s with hbmPoison := [hbmAddr 3 4096 / 64] }) 8 = some 0x0C01 := by decide +kernel
/-- R142: the higher score first, equal scores by expert number, NaN nowhere. -/
theorem test_rankExperts :
    rankExperts (sortDesc (sortOf 1).desc) [] ([0x3F800000, 0x40000000, 0x7FC00000, 0x40000000].map (decFp (fpFmt 0))) = [1, 3, 0] := by
  have h : ([0x3F800000, 0x40000000, 0x7FC00000, 0x40000000].map (decFp (fpFmt 0))) =
    [.num false 8388608 (-23), .num false 8388608 (-22), .nan, .num false 8388608 (-22)] := by decide +kernel
  have g : (sortDesc (sortOf 1).desc).shared = 0xFFFF ∧ (sortDesc (sortOf 1).desc).mask = 0 := by decide +kernel
  have c : vLt (.num false 8388608 (-23)) (.num false 8388608 (-22)) = true ∧ vLt (.num false 8388608 (-22)) (.num false 8388608 (-22)) = false
      ∧ vEq (.num false 8388608 (-23)) (.num false 8388608 (-22)) = false := by decide +kernel
  simp [rankExperts, h, g, List.mergeSort, List.MergeSort.Internal.splitInTwo, c]
/-- Step 8 in a job of this package and package 1; this package's entries for expert 3 are known. -/
def split4 : State :=
  { fresh0 with
    jobs := [(2, { live := true, members := [{}, { pkg := 1 }] })]
    steps := [(8, { state := 3, part := 3, job := some (2, 0), sortExperts := [(3, 4)], manifests := [(manifestKey 3 3 0, 5)] })] }
theorem test_manifestArrival :
    (tfind (run (.manifestArrival 0 8 3 3 ⟨1, 9, 5⟩) split4).steps 8).map (·.sortCounts) = some [(sortKey 3 3, 14)]
      ∧ (tfind (run (.manifestArrival 0 8 3 2 ⟨1, 9, 5⟩) split4).steps 8).map (·.sortCounts) = some []
      ∧ run (.manifestArrival 0 8 3 3 ⟨1, 9, 3⟩) split4 = split4 ∧ run (.manifestArrival 0 8 3 1024 ⟨1, 9, 5⟩) split4 = split4
      ∧ run (.manifestArrival 0 8 3 3 ⟨0, 9, 5⟩) split4 = split4 := by decide +kernel

/-! ### Checks of a tile -/

theorem test_residue :
    ((run (.residueWindowCompare 0 1 true 1 256) busy).tile 1).withdrawn = 0
      ∧ mkCode 2 0 0x05 ∈ (run (.residueWindowCompare 0 1 true 1 257) busy).coll.log
      ∧ mkCode 2 0 0x03 ∈ (run (.residueWindowCompare 0 1 false 1 257) busy).coll.log
      ∧ failOf (run (.residueWindowCompare 0 1 false 1 257) busy) 8 = some 0x0C01 := by decide
theorem test_skeinBoundOverrun : mkCode 2 0 0x0A ∈ (run (.skeinBoundOverrun 0 1) busy).coll.log
    ∧ failOf (run (.skeinBoundOverrun 0 1) busy) 8 = some 0x0C01 ∧ ((run (.skeinBoundOverrun 0 1) busy).tile 1).withdrawn = 0 := by decide
theorem test_clockGate : ((run (.clockGate 2 64) base).tile 2).gated = true ∧ run (.clockGate 2 63) base = base
    ∧ run (.clockGate 1 64) busy = busy := by decide
theorem test_patrolScrub : tget (run (.patrolScrub 0 2047 262143 1) base).coll.corr 31 0 = 1
    ∧ ((run (.patrolScrub 0 2047 262143 2) base).tile 2047).poison = [262143] ∧ (run (.patrolScrub 0 2048 0 1) base).coll.corr = [] := by decide
theorem test_oscillator : ((run (.oscillatorOutOfLock 0 1 21 2001) base).tile 1).withdrawn = 1
    ∧ run (.oscillatorOutOfLock 0 1 20 2001) base = base ∧ run (.oscillatorOutOfLock 0 1 21 2000) base = base := by decide

/-! ### Queues, settings, admission, switching, release -/

/-- QUEUE_CREATE of 16 entries in object 1 of partition 3. -/
def queueMsg : Msg := msg 1 0x0401 ([3, 0, 0, 0, 1, 0, 1, 0] ++ [16, 0, 1, 0, 0, 0, 0, 0])
/-- Partition 3 with queue 7 in object 1 and room for a step, its ring at the start of the object. -/
def queued (f : Queue → Queue) : State :=
  { withObj with queues := [(7, f { live := true, part := 3, j := 0, ring := 0x10001, entries := 16, openAt := some 0, seq := 4 })] }
theorem test_queueCreate :
    let t := own (.queueCreate queueMsg) withObj
    lastRsp t 1 = some (0, 0, []) ∧ tfind t.queues 0 = some { live := true, part := 3, ring := 0x10001, entries := 16, ordered := true
                                                              crTag := some (1, 7) }
      ∧ lastRsp (own (.queueCreate queueMsg) base) 1 = some (0x0741, 0, [])
      ∧ lastRsp (own (.queueCreate (msg 1 0x0401 ([3, 0, 0, 0, 1, 0, 1, 0] ++ [15, 0, 1, 0, 0, 0, 0, 0]))) withObj) 1 = some (0x0925, 0, []) := by
  decide +kernel
theorem test_queueDestroy :
    let m := msg 1 0x0402 [3, 0, 0, 0, 0, 0, 0, 0]
    lastRsp (own (.queueDestroy m) (queued id)) 1 = some (0, 0, []) ∧ (own (.queueDestroy m) (queued id)).queues = []
      ∧ ((own (.queueDestroy m) { queued id with steps := [(8, { part := 3, queue := 7 })] }).queue 7).destroyed = true := by decide +kernel
theorem test_stepQueueDoorbell : doorbellOk (queued id) 0 7 = true ∧ ((run (.stepQueueDoorbell 0 7 16) (queued id)).queue 7).tail = 16
    ∧ ((run (.stepQueueDoorbell 0 7 17) (queued id)).queue 7).stopped = true
    ∧ ((run (.stepQueueDoorbell 0 7 17) (queued id)).func 1).evtQueue.map (fun e => (e.kind, e.status)) = [(3, 0x0810)]
    ∧ ((run (.stepQueueDoorbell 0 7 5) (queued fun x => { x with head := 65530, tail := 65530 })).queue 7).tail = 5 := by decide +kernel
/-- SCHED_SET of the clock alone. -/
def schedMsg (mask c : Byte) : Msg := msg 1 0x0403 ([3, 0, 0, 0, mask, c] ++ List.replicate 18 0)
theorem test_schedSet : ((own (.schedSet (schedMsg 1 64)) base).part 3).cur.clock = 64
    ∧ ((own (.schedSet (schedMsg 1 64)) busy).part 3).cur.clock = 64
    ∧ ((own (.schedSet (schedMsg 1 64)) (part3 fun x => { x with running := some 8 })).part 3).staged.map (·.clock) = some 64
    ∧ lastRsp (own (.schedSet (schedMsg 1 65)) base) 1 = some (0x0811, 0, []) ∧ lastRsp (own (.schedSet (schedMsg 2 0)) base) 1 = some (0x0811, 0, []) := by
  decide +kernel
theorem test_accountRead :
    let m := fun (k : Byte) (n : Nat) => extMsg 1 0x0404 [3, 0, 0, 0, k, 0, 0, 0] [] n
    (lastRsp (own (.accountRead (m 0 64)) base) 1).map (fun r => (r.1, r.2.1)) = some (0, 1)
      ∧ (lastRsp (own (.accountRead (m 0 63)) base) 1).map (fun r => (r.1, r.2.1)) = some (0, 0)
      ∧ lastRsp (own (.accountRead (m 2 64)) base) 1 = some (0x0906, 0, []) := by decide +kernel
/-- POWER_LIMIT. -/
def limitMsg (w : Nat) : Msg := crit 0x0405 ([0, 0, 0, 0] ++ toLe 4 w)
theorem test_powerLimit : Passes base { opcode := 0x0405, critical := true, pfOnly := true, len := some 6, rsv := [(0, 4)] }
      (sign base (limitMsg 400)) ∧ Signed base (sign base (limitMsg 400)) ∧ maxPower base.variant = 4000
    ∧ Passes base { opcode := 0x0405, critical := true, pfOnly := true, len := some 6, rsv := [(0, 4)] } (sign base (limitMsg 4001))
    ∧ Signed base (sign base (limitMsg 4001)) := by
  refine ⟨by unfold Passes; decide, ⟨macOk_sign _ _, by decide⟩, rfl, by unfold Passes; decide, ⟨macOk_sign _ _, by decide⟩⟩
theorem test_powerModelUpdate :
    let s := { base with power := { limit := 1000 } }
    (run (.powerModelUpdate 0 1000001) s).power.lowered = [3] ∧ (run (.powerModelUpdate 0 1000000) s).power.lowered = []
      ∧ (run (.powerModelUpdate 0 950000) { s with power := { limit := 1000, lowered := [3] } }).power.lowered = []
      ∧ (run (.powerModelUpdate 0 950001) { s with power := { limit := 1000, lowered := [3] } }).power.lowered = [3] := by decide +kernel

/-- A descriptor of context 5 and program 0 with cookie 9, and its bytes at the start of object 1. -/
def desc (deadline : Nat) : List Byte :=
  ctx5 ++ [0, 0, 0, 3] ++ toLe 4 0xFFFFFFFF ++ toLe 2 0xFFFF ++ toLe 2 0 ++ List.replicate 8 0 ++ toLe 8 deadline ++ toLe 8 9
    ++ List.replicate 8 0 ++ List.replicate 48 0xFF ++ List.replicate 24 0xFF ++ List.replicate 8 0
theorem test_desc : (desc 5).length = 128 ∧ fences4 (desc 5) 96 = [0xFFFFFF, 0xFFFFFF, 0xFFFFFF, 0xFFFFFF] := by decide +kernel
/-- Queue 7 holds one descriptor; program 0 is loaded. -/
def toAdmit (h : Nat) : State :=
  let s := (queued fun x => { x with tail := 1 }).modPart 3 fun x => { x with progs := [(0, { live := true, upf := { skeins := [{}] } })] }
  hbmWrite s 3 0 ((desc 7).set 4 (BitVec.ofNat 8 h))
theorem test_stepAdmit :
    let s := toAdmit 0
    admits s 3 = true ∧ slotFree s 3 8 = true ∧ admitStatus s 3 (headDesc s (s.queue 7)) = 0
      ∧ (tfind (run (.stepAdmit 0 7 8 0 0) s).steps 8).map (fun x => (x.state, x.seq, x.deadline, x.cookie)) = some (1, 4, 7, 9)
      ∧ ((run (.stepAdmit 0 7 8 0 0) s).queue 7).head = 1 ∧ ((run (.stepAdmit 0 7 8 0 0) s).queue 7).seq = 5 := by decide +kernel
theorem test_stepAdmit_refused :
    let s := toAdmit 1
    admitStatus s 3 (headDesc s (s.queue 7)) = 0x0803 ∧ failOf (run (.stepAdmit 0 7 8 0 0) s) 8 = some 0x0803
      ∧ ((run (.stepAdmit 0 7 8 0 0) s).func 1).evtQueue.map (fun e => (e.kind, e.status, e.seq, e.cookie)) = [(1, 0x0803, 4, 9)] := by
  decide +kernel
/-- A step of partition 3 in each of the slots 8 and 9. -/
def two (a b : Step) : State := { base with steps := [(8, { a with part := 3, ctx := 5, ctxGen := 2 }), (9, { b with part := 3, ctx := 5, ctxGen := 2, seq := 1 })] }
theorem test_stepReady :
    let s := two { state := 3 } { state := 1, deadline := 5 }
    let r := s.modPart 3 fun x => { x with running := some 8 }
    waitsMet s ((tfind s.steps 9).getD {}) = true ∧ inOrder s ((tfind s.steps 9).getD {}) = true
      ∧ (tfind (run (.stepReady 0 9) s).steps 9).map (fun x => (x.state, x.stateAt)) = some (2, 1000000)
      ∧ ((run (.stepReady 0 9) r).part 3).switchReq = 1 ∧ ((run (.stepReady 0 9) s).part 3).switchReq = 0 := by decide +kernel
theorem test_stepBoundary :
    let s := (two { state := 2 } { state := 2, deadline := 5 }).modPart 3 fun x => { x with progs := [(0, { live := true, upf := { skeins := [{}] } })] }
    chosen s 3 = some 9 ∧ ((run (.stepBoundary 0 3 .balanced) s).part 3).running = some 9
      ∧ ((run (.stepBoundary 0 3 .balanced) { s with steps := [] }).part 3).running = none
      ∧ failOf (run (.stepBoundary 0 3 .balanced) { s with movers := [(0, { withdrawn := 2 })] }) 9 = some 0x0D06
      ∧ (0xA004 : Code) ∈ (run (.stepBoundary 0 3 .partitionBook) s).coll.log ∧ failOf (run (.stepBoundary 0 3 .partitionBook) s) 8 = some 0x0D03
      ∧ (run (.stepBoundary 0 3 .blockBook) s).life.resetAt = some 1100000 := by
  decide +kernel
theorem test_quantumExpiry :
    let s := (two { state := 3, quantumAt := 500000 } { state := 2 }).modPart 3 fun x => { x with running := some 8, cur := { quantum := 500 } }
    ((run (.quantumExpiry 0 3) s).part 3).switchReq = 1
      ∧ ((run (.quantumExpiry 0 3) { s with aon := { s.aon with whorl := 999999 } }).part 3).switchReq = 0 := by decide +kernel
/-- The step of slot 8 runs and may leave at its current skein boundary. -/
def leaving : State :=
  (two { state := 3, skeins := [(0, 4), (1, 1)] } { state := 2 }).modPart 3 fun x =>
    { x with running := some 8, switchReq := 2, progs := [(0, { live := true, upf := { skeins := [{}, {}] } })] }
theorem test_stepSwitch : canSwitch leaving 8 ((tfind leaving.steps 8).getD {}) = true
    ∧ ((run (.stepSwitch 0 3 false) leaving).part 3).running = none
    ∧ (tfind (run (.stepSwitch 0 3 false) leaving).steps 8).map (fun x => (x.state, x.skeins)) = some (4, [(0, 4)])
    ∧ ((run (.stepSwitch 0 3 false) leaving).ctx 5).preempt = 1 := by decide +kernel
theorem test_spillDone :
    let s := (onTile [quad] [row 0] (.vld 0 1 0 0)).modPart 3 fun x => { x with running := none, switchTo := some 8 }
    (tfind (run (.spillDone 0 3) s).steps 8).map (fun x => x.spilled) = some true ∧ ((run (.spillDone 0 3) s).tile 1).bufs = []
      ∧ ((run (.spillDone 0 3) s).part 3).switchTo = none := by decide +kernel
theorem test_restoreDone :
    let s := (onTile [quad] [row 0] (.vld 0 1 0 0)).modStep 8 fun x => { x with spilled := true, saved := [(0, [(3, 7)])] }
    let t := run (.restoreDone 0 8 [(0, 2, 64)]) s
    bufBase (t.tile 2) 8 0 = some 64 ∧ mread (t.tile 2).scratch 67 = 7 ∧ (tfind t.steps 8).map (·.spilled) = some false := by decide +kernel
theorem test_fallbackEvaluate :
    let s := (two { state := 3, fallback := some 1, deadline := 5 } { state := 2 }).modPart 3 fun x => { x with running := some 8 }
    let u := (two { state := 3, fallback := some 1 } { state := 2 }).modPart 3 fun x => { x with running := some 8 }
    evalPoint s ((tfind s.steps 8).getD {}) = some 0 ∧ (tfind (run (.fallbackEvaluate 0 8) s).steps 8).map (·.useFb) = some true
      ∧ (tfind (run (.fallbackEvaluate 0 8) u).steps 8).map (fun x => (x.useFb, x.fbDone)) = some (false, [0]) := by decide +kernel
theorem test_deadlineExpiry :
    let s := two { state := 3, abortLate := true, deadline := 999999 } { state := 3, abortLate := true, deadline := 1000000 }
    failOf (run (.deadlineExpiry 0 8) s) 8 = some 0x0805 ∧ failOf (run (.deadlineExpiry 0 9) s) 9 = none := by decide +kernel
theorem test_hangTimeExpiry :
    let s := { (waiting.modPart 3 fun x => { x with cur := { hang := 1 }, lastIssue := 0 }) with aon := { waiting.aon with whorl := 1000001 } }
    ((run (.hangTimeExpiry 0 3) s).part 3).hangPosted = true ∧ ((run (.hangTimeExpiry 0 3) s).func 1).evtQueue.map (·.kind) = [4]
      ∧ run (.hangTimeExpiry 0 3) (run (.hangTimeExpiry 0 3) s) = run (.hangTimeExpiry 0 3) s := by decide +kernel
theorem test_releaseGatePass :
    let s := two { state := 5, lastOp := 999000, cookie := 6 } { state := 5, lastOp := 999000, poisonOut := true }
    ((run (.releaseGatePass 0 8) s).func 1).evtQueue.map (fun e => (e.status, e.cookie)) = [(0, 6)]
      ∧ ((run (.releaseGatePass 0 9) s).func 1).evtQueue.map (·.status) = [0x0C02]
      ∧ run (.releaseGatePass 0 8) (two { state := 5, lastOp := 999001 } {}) = two { state := 5, lastOp := 999001 } {} := by decide +kernel
theorem test_releaseGatePass_same_tick :
    let s := run (.releaseGatePass 0 8) (two { state := 5, lastOp := 999000, cookie := 6 } {})
    let r : Report := { code := 0xAC01, slots := [8] }
    ((run (.faultReport 0 r) s).func 1).evtQueue.map (fun e => (e.status, e.cookie)) = [(0x0C01, 6)]
      ∧ ((run (.faultReport 1000001 r) s).func 1).evtQueue.map (·.status) = [0]
      ∧ nextEntry s (s.func 1) = none ∧ (nextEntry (advance s 1000001) (s.func 1)).isSome = true := by decide +kernel

/-! ### Bobbins, programs, jobs, partitions -/

/-- An image of one chunk of four bytes, whose digest in the chunk table is that of `data`. -/
def image (data : List Byte) : List Byte :=
  toLe 4 0 ++ toLe 4 1 ++ toLe 4 0 ++ toLe 8 132 ++ List.replicate 44 0 ++ toLe 8 0 ++ toLe 4 4 ++ List.replicate 4 0
    ++ digestBytes (Config.sha384 data) ++ [0, 0, 0, 0]
/-- Partition 3 with bobbin 2 as `f` makes it, and peers 5 and 6 as sources. -/
def stocked (f : Bobbin → Bobbin) : State :=
  { part3 fun x => { x with sources := [5, 6], bobbins := [(2, f { live := true, bytes := 132, image := image [1, 2, 3, 4] })] } with
    aon := { base.aon with coords := some (0, 0, 0, 4, 4, 1) } }
/-- The fill of bobbin 2. -/
def filling (f : Fill) : State := (stocked fun b => { b with state := 1 }).modPart 3 fun x => { x with fill := some f }
theorem test_fillStart :
    let s := stocked fun b => { b with state := 1 }
    nextFetch s 3 = some 2 ∧ peerSources s 3 = [5, 6] ∧ pinnedBytes s 3 2 = 0
      ∧ ((run (.fillStart 0 3) (s.modPart 3 fun x => { x with storeBytes := 131 })).part 3).fill = none
      ∧ (bobbin (run (.fillStart 0 3) (s.modPart 3 fun x => { x with storeBytes := 131 })) 3 2).state = 0 := by decide +kernel
theorem test_fillStart_bad :
    let s := { stocked (fun b => { b with state := 1, bad := true }) with steps := [(8, { state := 1, part := 3, ctx := 5, bobbin := some 2 })] }
    ((run (.fillStart 0 3) s).part 3).fill = none ∧ failOf (run (.fillStart 0 3) s) 8 = some 0x0402 := by decide +kernel
theorem test_makeRoom :
    let s := stocked fun b => { b with state := 1 }
    makeRoom s 3 2 = some s ∧ placeChunks (s.part 3) 2 (bobbin s 3 2) = some [(0, (0, 0))] := by
  have h : (((stocked fun b => { b with state := 1 }).part 3).bobbins.filter fun e =>
        evictable (stocked fun b => { b with state := 1 }) 3 e.1 && e.1 != 2) = []
      ∧ roomFor (stocked fun b => { b with state := 1 }) 3 2 = true
      ∧ placeChunks ((stocked fun b => { b with state := 1 }).part 3) 2 (bobbin (stocked fun b => { b with state := 1 }) 3 2)
        = some [(0, (0, 0))] := by
    decide +kernel
  refine ⟨?_, h.2.2⟩
  simp [makeRoom, h.1, h.2.1, forAll]
/-- R214: chunks go in turn to the granules, each where it has room. -/
theorem test_dealChunks : dealChunks 2 100 [(0, 0, 50)] [(0, 40), (1, 60), (2, 40), (3, 40)] 0
    = none ∧ dealChunks 2 100 [(0, 0, 50)] [(0, 40), (1, 60), (2, 40)] 0 = some [(0, (0, 50)), (1, (1, 0)), (2, (1, 60))] := by
  decide +kernel
/-- A probe has been out for 50 microseconds and more. -/
def probing (f : Fill) : State := filling { f with bobbin := 2, probeAt := 940000 }
theorem test_peerProbeTimeout :
    let late := fun s => run (.peerProbeTimeout 0 3 5) s
    ((late (probing { probing := [5, 6] })).part 3).fill.map (·.probing) = some [6]
      ∧ ((late (filling { bobbin := 2, probing := [5, 6], probeAt := 950000 })).part 3).fill.map (·.probing) = some [5, 6]
      ∧ ((late (probing { probing := [5] })).part 3).fill = none
      ∧ ((late (probing { probing := [5], peers := [6] })).part 3).fill.map (·.deal) = some [(0, 6)]
      ∧ ((late ((probing { probing := [5] }).modPart 3 fun x =>
          { x with bobbins := x.bobbins.map fun e => (e.1, { e.2 with backing := true, backStart := 1 }) })).part 3).fill.map (·.backing)
        = some true := by decide +kernel
theorem test_peerProbe :
    let s := { (stocked fun b => { b with state := 2, peerShare := true }) with ports := (List.range 6).map fun k => (k, { up := true, cellHeld := 1 }) }
    (run (.peerProbe 0 3 1 ⟨7, 0, [0]⟩ true) s).out = [.ctl 1 (.probeAnswer 7 0 0 [0] 384)] ∧ routeTo s 1 = some [0]
      ∧ (run (.peerProbe 0 3 1 ⟨7, 0, [0]⟩ false) s).out = [.ctl 1 (.probeAnswer 7 0 0 [] 384)]
      ∧ (run (.peerProbe 0 3 1 ⟨7, 1, [0]⟩ true) s).out = [.ctl 1 (.probeAnswer 7 0 1 [] 384)] := by decide +kernel
theorem test_chunkArrival :
    let f : Fill := { bobbin := 2, peers := [5], deal := [(0, 5)] }
    let s := filling f
    tfind f.deal 0 = some 5 ∧ tget s.partGen 3 0 = 0 ∧ chunkData s 3 (bobbin s 3 2) 5 0 [1, 2, 3, 4] = some [1, 2, 3, 4]
      ∧ chunkLen (bobbin s 3 2).image 0 = 4 ∧ partDies (s.part 3) = [0]
      ∧ chunkData s 3 (bobbin s 3 2) hostSource 0 [] = none ∧ ((run (.chunkArrival 0 3 6 0 ⟨0, [1, 2, 3, 4]⟩) s).part 3).fill = some f
      ∧ slice (chunkEntry (bobbin s 3 2).image 0) 16 48 = digestBytes (Config.sha384 [1, 2, 3, 4]) :=
  ⟨by decide +kernel, by decide +kernel, by decide +kernel, by decide +kernel, by decide +kernel, by decide +kernel, by decide +kernel, by rfl⟩
theorem test_fillComplete :
    let s := filling { bobbin := 2, peers := [5], done := [0] }
    imageChecked (bobbin s 3 2).image [0] = true ∧ openChunks (bobbin s 3 2) { bobbin := 2, done := [0] } = []
      ∧ (bobbin (run (.fillComplete 0 3) s) 3 2).state = 2
      ∧ (bobbin (run (.fillComplete 0 3) s) 3 2).source = 1 ∧ ((run (.fillComplete 0 3) s).part 3).fill = none := by decide +kernel
/-- A message of partition 3 about bobbin 2. -/
def bobMsg (op : Nat) : Msg := msg 1 op [3, 0, 0, 0, 2, 0, 0, 0]
theorem test_bobbinInstall :
    let m := extMsg 1 0x0203 [3, 0, 0, 0, 1, 0, 0, 0] (toLe 4 0x31504257 ++ List.replicate 124 0) 128
    contentKey base (extIn m) = none ∧ lastRsp (own (.bobbinInstall m) base) 1 = some (0x0605, 0, []) := by decide +kernel
/-- R224: a package whose device-set key unwraps its content key can be opened. -/
theorem test_contentKey (pkg : List Byte) (k key : BitVec 256) (a : fld pkg 0 4 = 0x31504257) (b : 128 ≤ pkg.length)
    (c : setKey base (fld pkg 4 4) = some k) (d : Config.aesKwUnwrap k (slice pkg 16 40) = some key) : contentKey base pkg = some key := by
  simp [contentKey, a, c, d, Nat.not_lt.2 b]
theorem test_bobbinRemove : (own (.bobbinRemove (bobMsg 0x0204)) (stocked id)).parts.map (fun e => e.2.bobbins) = [[]]
    ∧ lastRsp (own (.bobbinRemove (bobMsg 0x0204)) (stocked fun b => { b with pinned := true })) 1 = some (0x0607, 0, [])
    ∧ lastRsp (own (.bobbinRemove (bobMsg 0x0204)) { stocked id with steps := [(8, { part := 3, bobbin := some 2 })] }) 1 = some (0x0607, 0, []) := by
  decide +kernel
theorem test_bobbinPrefetch : (bobbin (own (.bobbinPrefetch (bobMsg 0x0205)) (stocked id)) 3 2).state = 1
    ∧ (bobbin (own (.bobbinPrefetch (bobMsg 0x0205)) (stocked fun b => { b with state := 2 })) 3 2).state = 2 := by decide +kernel
theorem test_bobbinEvict : (bobbin (own (.bobbinEvict (bobMsg 0x0206)) (stocked fun b => { b with state := 2 })) 3 2).state = 0
    ∧ lastRsp (own (.bobbinEvict (bobMsg 0x0206)) (stocked fun b => { b with state := 2, pinned := true })) 1 = some (0x0607, 0, []) := by
  decide +kernel
theorem test_bobbinPin : (bobbin (own (.bobbinPin (bobMsg 0x0207)) (stocked id)) 3 2).pinned = true
    ∧ (bobbin (own (.bobbinPin (bobMsg 0x0207)) (stocked id)) 3 2).state = 1
    ∧ lastRsp (own (.bobbinPin (bobMsg 0x0207)) ((stocked id).modPart 3 fun x => { x with storeBytes := 131 })) 1 = some (0x0606, 0, [])
    ∧ (bobbin (own (.bobbinUnpin (bobMsg 0x0208)) (stocked fun b => { b with pinned := true })) 3 2).pinned = false := by decide +kernel
theorem test_bobbinList : hasBobbin (stocked id) 3 2 = true
    ∧ ((run (.bobbinSources (msg 0 0x020A ([3, 0, 0, 0, 2, 0, 0, 0, 9, 0, 10, 0] ++ List.replicate 28 0))) base).part 3).sources = [9, 10]
    ∧ ((run (.bobbinBacking (msg 0 0x020B ([3, 0, 0, 0, 0, 0, 0, 0] ++ toLe 8 65536 ++ toLe 8 131072))) base).part 3).backing = some (65536, 131072)
    ∧ ((run (.bobbinBacking (msg 0 0x020B ([3, 0, 0, 0, 0, 0, 0, 0] ++ toLe 8 0 ++ toLe 8 0))) base).part 3).backing = none := by decide +kernel

/-- Partition 3 with program 0. -/
def loaded (f : Program → Program) : State := part3 fun x => { x with progs := [(0, f { live := true, refs := 1, upf := { digest := 5 } })] }
/-- A message of partition 3 about program 0. -/
def progMsg (op : Nat) : Msg := msg 1 op [3, 0, 0, 0, 0, 0, 0, 3]
theorem test_programLoad :
    let m := extMsg 1 0x0101 [3, 0, 0, 0, 0xFF, 0xFF, 0xFF, 0xFF] (List.replicate 64 0) 64
    (upfBads base 3 (extIn m)).map (·.1) = [0x0301, 0x0302, 0x0303, 0x0303, 0x0303, 0x0303, 0x0303]
      ∧ lastRsp (own (.programLoad m) base) 1 = some (0x0301, 0, [])
      ∧ lastRsp (own (.programLoad { m with payload := [3, 0, 0, 0, 9, 0, 0, 0] }) base) 1 = some (0x0924, 0, []) := by decide +kernel
/-- An entry of the section directory (R162). -/
def sec (ty off bytes n : Nat) : List Byte := toLe 2 ty ++ [0, 0] ++ toLe 4 off ++ toLe 4 bytes ++ toLe 4 n
/-- A program of one END instruction, one scratch tensor and one view, up to its digest (R161 to R171). -/
def upfBody : List Byte :=
  toLe 4 0x31465055 ++ [1, 0, 0, 0] ++ toLe 4 560 ++ [6, 0, 0, 0] ++ [1, 0, 1, 0, 1, 0, 0, 0] ++ toLe 8 1 ++ toLe 8 1 ++ List.replicate 24 0
    ++ sec 1 192 64 1 ++ sec 2 256 48 1 ++ sec 3 320 40 1 ++ sec 4 384 64 1 ++ sec 8 448 16 1 ++ sec 255 512 48 1 ++ List.replicate 32 0
    ++ List.replicate 24 0 ++ [1, 0] ++ List.replicate 38 0
    ++ [0, 4, 1, 0] ++ toLe 4 0 ++ toLe 8 0 ++ [1, 0, 0, 0, 1, 0, 0, 0, 1, 0, 0, 0, 1, 0, 0, 0] ++ List.replicate 8 0xFF
    ++ toLe 8 4 ++ List.replicate 16 0
    ++ [0, 0, 0, 0, 0, 0, 0, 0] ++ List.replicate 16 0 ++ [1, 0, 0, 0, 1, 0, 0, 0, 1, 0, 0, 0, 1, 0, 0, 0] ++ List.replicate 24 0
    ++ toLe 4 0 ++ toLe 4 16 ++ toLe 2 1 ++ List.replicate 54 0
    ++ [0x01, 0] ++ List.replicate 6 0xFF ++ List.replicate 56 0
/-- The file. -/
def upfFile : List Byte := upfBody ++ digestBytes (Config.sha384 upfBody)
theorem toLe_length (n x : Nat) : (toLe n x).length = n := by
  induction n generalizing x with
  | zero => rfl
  | succ n ih => simp [toLe, ih]
/-- Its digest being that of its bytes, the file has no defect. -/
theorem test_upf : upfBads base 3 upfFile = [] := by
  have h : (slice upfFile (upfSec upfFile 255).off 48 == digestBytes (Config.sha384 (upfFile.take (upfSec upfFile 255).off))) = true := by
    have o : (upfSec upfFile 255).off = 512 := by decide +kernel
    have a : upfFile.take 512 = upfBody := by
      simp only [upfFile]; exact List.take_left' (by decide +kernel)
    rw [o, a]
    have b : slice upfFile 512 48 = digestBytes (Config.sha384 upfBody) := by
      have m : upfBody.length = 512 := by decide +kernel
      have d : upfFile.drop 512 = digestBytes (Config.sha384 upfBody) := by rw [upfFile, List.drop_left' m]
      have l : (digestBytes (Config.sha384 upfBody)).length = 48 := toLe_length _ _
      simp [slice, d, l, List.take_of_length_le]
    rw [b]; exact beq_self_eq_true _
  unfold upfBads
  rw [h]
  decide +kernel
theorem test_programLoad_accepted :
    let m := extMsg 1 0x0101 [3, 0, 0, 0, 0xFF, 0xFF, 0xFF, 0xFF] upfFile 560
    upfFile.length = 560 ∧ loadJob base 3 (fld m.payload 4 4) = some none ∧ stage1 upfFile = []
      ∧ loadedDigest base 3 (readUpf upfFile).digest = none ∧ freeIndex (base.part 3).progs (·.live) 65536 = some 0
      ∧ (readUpf upfFile).skeins.map (·.code) = [[.fin]] ∧ firmwareUsed base 3 = 0 := by
  refine ⟨by decide +kernel, by decide +kernel, by decide +kernel, by rfl, by decide +kernel, by decide +kernel, by decide +kernel⟩
theorem test_programLoadDone :
    let s := (loaded fun g => { g with loading := some (1, 4) }).modFunc 1 fun x => { x with taken := [{ tag := 4 }] }
    (prog (run (.programLoadDone 0 3 0) s) 3 0).loading = none
      ∧ (lastRsp (run (.programLoadDone 0 3 0) s) 1).map (fun r => (r.1, r.2.1)) = some (0, 0x03000000) := by decide +kernel
theorem test_programUnload :
    (prog (own (.programUnload (progMsg 0x0102)) (loaded id)) 3 0).live = false
      ∧ (prog (own (.programUnload (progMsg 0x0102)) (loaded fun g => { g with gen := 0 })) 3 0).gen = 1
      ∧ (prog (own (.programUnload (progMsg 0x0102)) (loaded fun g => { g with refs := 2 })) 3 0).refs = 1
      ∧ lastRsp (own (.programUnload (progMsg 0x0102)) { loaded id with steps := [(8, { part := 3, prog := 0 })] }) 1 = some (0x0921, 0, [])
      ∧ lastRsp (own (.programUnload (progMsg 0x0102)) ((loaded id).modPart 3 fun x =>
          { x with progs := x.progs ++ [(1, { live := true, fallback := some 0 })] })) 1 = some (0x0920, 0, []) := by decide +kernel
/-- PLACEMENT_HINT of one record of layers 0 to `last`. -/
def hintMsg (first last : Nat) : Msg :=
  extMsg 1 0x0201 [3, 0, 0, 0, 0, 0, 0, 3, 1, 0, 0, 0, 0, 0, 0, 0]
    (toLe 16 1 ++ toLe 16 1 ++ toLe 2 first ++ toLe 2 last ++ [0] ++ List.replicate 11 0) 48
theorem test_placementHint :
    hintOk (base.part 3) (extIn (hintMsg 0 4)) 0 = true ∧ (prog (own (.placementHint (hintMsg 0 4)) (loaded id)) 3 0).hints.length = 1
      ∧ (prog (own (.placementHint (hintMsg 0 4)) ((loaded id).modPart 3 fun x => { x with running := some 8 })) 3 0).staged.isSome = true
      ∧ lastRsp (own (.placementHint (hintMsg 5 4)) (loaded id)) 1 = some (0x0610, 0, []) := by decide +kernel
/-- PLACEMENT_LOG of context 5 into object 1. -/
def logMsg (on : Byte) : Msg := ctxMsg 0x0202 ([1, 0, 1, 0] ++ toLe 4 8184 ++ [on, 0, 0, 0, 0, 0, 0, 0])
theorem test_placementLog : ((own (.placementLog (logMsg 1)) withObj).ctx 5).logOn = true
    ∧ mreadN (own (.placementLog (logMsg 1)) withObj).hbm (hbmAddr 3 8) 4 = toLe 4 8184
    ∧ ((own (.placementLog (logMsg 0)) { withObj with ctxs := [(5, { gen := 2, part := some 3, logOn := true })] }).ctx 5).logOn = false
    ∧ 64 + 8 * 8184 = 65536 := by decide +kernel

/-- Job 2 of this partition and two others. -/
def joined (f : Job → Job) : State :=
  { base with
    aon := { base.aon with coords := some (0, 0, 0, 4, 4, 1) }
    jobs := [(2, f { live := true, members := [{ pkg := 0, part := 3, startNo := 1 }, { pkg := 1, part := 4, pgen := 6, startNo := 2 }] })] }
/-- JOB_CREATE of partition 3 here and partition 4 of package 1. -/
def jobMsg : Msg := extMsg 0 0x020C [3, 0, 0, 0, 2, 0, 0, 0] [0, 0, 3, 0, 1, 0, 4, 0] 8
theorem test_jobCreate :
    let s := joined fun x => { x with live := false }
    freeIndex s.jobs (·.live) 256 = some 0 ∧ lastRsp (run (.jobCreate jobMsg [{ member := 1, ok := true, pgen := 6, startNo := 2 }]) s) 0 = some (0, 0, [])
      ∧ ((run (.jobCreate jobMsg [{ member := 1, ok := true, pgen := 6, startNo := 2 }]) s).job 0).members
        = [{ pkg := 0, part := 3, startNo := 1 }, { pkg := 1, part := 4, pgen := 6, startNo := 2 }]
      ∧ lastRsp (run (.jobCreate jobMsg [{ member := 1, ok := false }]) s) 0 = some (0x0614, 0, [])
      ∧ ((run (.jobCreate jobMsg []) s).job 0).waiting = [1] ∧ ((run (.jobCreate jobMsg []) s).func 0).rsps = [] := by decide +kernel
theorem test_jobMemberTimeout :
    let s := (joined fun x => { x with waiting := [1], askedAt := 1000000, crTag := some (0, 4) }).modFunc 0 fun x => { x with taken := [{ tag := 4 }] }
    lastRsp (run (.jobMemberTimeout 11000001 2) s) 0 = some (0x0614, 0, []) ∧ ((run (.jobMemberTimeout 11000001 2) s).job 2).live = false
      ∧ ((run (.jobMemberTimeout 11000000 2) s).job 2).live = true := by decide +kernel
theorem test_jobQuery :
    let m := extMsg 1 0x020D [3, 0, 0, 0, 2, 0, 0, 0] [] 32
    jobNamed (joined id) m = some 2 ∧ (lastRsp (own (.jobQuery m) (joined id)) 1).map (fun r => (r.1, r.2.1)) = some (0, 2)
      ∧ (lastRsp (own (.jobQuery { m with extBytes := 31 }) (joined id)) 1).map (fun r => (r.1, r.2.1)) = some (0, 1) := by decide +kernel
theorem test_jobDestroy :
    let m := msg 0 0x020E [3, 0, 0, 0, 2, 0, 0, 0]
    let s := { joined id with steps := [(8, { state := 3, part := 3, ctx := 5, ctxGen := 2, job := some (2, 0) })], windows := [(4, { isOpen := true, part := 3, job := 2 })] }
    ((run (.jobDestroy m) s).job 2).live = false ∧ ((run (.jobDestroy m) s).job 2).gen = 1 ∧ failOf (run (.jobDestroy m) s) 8 = some 0x0D10
      ∧ ((run (.jobDestroy m) s).window 4).isOpen = false := by decide +kernel
/-- A member that is not the first. -/
def second : State :=
  { ((joined fun x => { x with members := [{ pkg := 1, part := 4, pgen := 6, startNo := 2 }, { pkg := 0, part := 3, startNo := 1 }] }).modPart 3 fun x =>
      { x with progs := [(0, { live := true, upf := { skeins := [{}] } })] }) with ports := [] }
theorem test_derivedStep :
    admits second 3 = true ∧ jobOf second 2 = some 2 ∧ memberIdx second 2 3 = 1 ∧ pairOk second 2 0 6 2 = true ∧ admitStatus second 3 (desc 0) = 0
      ∧ (tfind (run (.derivedStep 0 2 5 6 2 3 8 0 0 { desc := desc 0 }) second).steps 8).map (fun x => (x.state, x.seq, x.job)) = some (1, 5, some (2, 5))
      ∧ ((run (.derivedStep 0 2 5 6 2 3 8 0 0 { desc := (desc 0).set 4 1 }) second).job 2).aborted = [5] := by decide +kernel
/-- A notice of job step 5. -/
def notice (lost : Bool) : Notice := { origin := 1, job := 2, jstep := 5, cause := 0x0D10, code := 0, detected := 0, lost, pgen := 6, startNo := 2 }
theorem test_abortNotice :
    let s := { joined id with steps := [(8, { state := 3, part := 3, ctx := 5, ctxGen := 2, job := some (2, 5) })] }
    ((run (.abortNotice 0 (notice true)) s).job 2).aborted = [5] ∧ ((run (.abortNotice 0 (notice true)) s).job 2).broken = true
      ∧ (failOf (run (.abortNotice 0 (notice false)) s) 8).isSome = true
      ∧ (run (.abortNotice 0 (notice false)) (run (.abortNotice 0 (notice false)) s)).steps = (run (.abortNotice 0 (notice false)) s).steps := by
  decide +kernel
theorem test_noticeHoldExpiry :
    ((run (.noticeHoldExpiry 11000001 2 5) (joined fun x => { x with kept := [(5, 1000000)] })).job 2).kept = []
      ∧ ((run (.noticeHoldExpiry 11000000 2 5) (joined fun x => { x with kept := [(5, 1000000)] })).job 2).kept = [(5, 1000000)] := by
  decide +kernel
/-- PARTITION_CREATE of partition 7 over granule 1. -/
def createMsg (owner : Byte) : Msg := crit 0x0301 ([7, owner, 1, 0, 1, 1, 2, 0] ++ toLe 8 (64 * 2 ^ 20) ++ toLe 2 1 ++ toLe 2 1 ++ toLe 2 1 ++ toLe 2 1 ++ toLe 2 1 ++ List.replicate 6 0)
theorem test_partitionCreate : Passes base { opcode := 0x0301, critical := true, pfOnly := true, len := some 32, rsv := [(26, 6)], ranges := true }
      (sign base (createMsg 0)) ∧ Signed base (sign base (createMsg 0)) ∧ createStatus base 7 (requestedPart (createMsg 0).payload) = 0
    ∧ createStatus base 7 (requestedPart (createMsg 1).payload) = 0x0702 ∧ createStatus base 3 (requestedPart (createMsg 0).payload) = 0x0701
    ∧ createStatus base 64 (requestedPart (createMsg 0).payload) = 0x0701 := by
  refine ⟨by unfold Passes; decide +kernel, ⟨macOk_sign _ _, by decide⟩, by decide +kernel, by decide +kernel, by decide +kernel, by decide +kernel⟩
theorem test_partitionTablesBuilt :
    let s := (part3 fun x => { x with state := 1, reqTag := some (0, 4) }).modFunc 0 fun x => { x with taken := [{ tag := 4 }] }
    ((run (.partitionTablesBuilt 0 3) s).part 3).state = 2 ∧ lastRsp (run (.partitionTablesBuilt 0 3) s) 0 = some (0, 0, []) := by decide +kernel
/-- PARTITION_DESTROY of partition 3. -/
def destroyMsg : Msg := crit 0x0302 [3, 0, 0, 0, 0, 0, 0, 0]
theorem test_partitionDestroy :
    Passes base { opcode := 0x0302, critical := true, pfOnly := true, len := some 4, rsv := [(1, 3)], named := (base.part 3).state != 0 } (sign base destroyMsg)
      ∧ Signed base (sign base destroyMsg) ∧ (base.part 3).state = 2 := by
  refine ⟨by unfold Passes; decide +kernel, ⟨macOk_sign _ _, by decide⟩, by decide⟩
theorem test_partitionScrubVerified :
    let s := { (part3 fun x => { x with state := 3, reqTag := some (0, 4) }).modFunc 0 (fun x => { x with taken := [{ tag := 4 }] }) with
      hbm := [(hbmAddr 3 0, 1), (hbmAddr 3 (2 ^ 40 - 1), 2), (hbmAddr 4 0, 3)], tiles := [(1, { scratch := [(5, 1)] })] }
    (run (.partitionScrubVerified 0 3 true) s).hbm = [(hbmAddr 4 0, 3)] ∧ ((run (.partitionScrubVerified 0 3 true) s).part 3).state = 0
      ∧ ((run (.partitionScrubVerified 0 3 true) s).tile 1).scratch = [] ∧ lastRsp (run (.partitionScrubVerified 0 3 true) s) 0 = some (0, 0, [])
      ∧ (run (.partitionScrubVerified 0 3 false) s).life.cause = 7 ∧ (run (.partitionScrubVerified 0 3 false) s).parts = [] := by decide +kernel

/-! ### Fabric boundary and whorl time -/

/-- `base` with port 0 as given. -/
def link (f : LinkPort → LinkPort) : State := { base with ports := [(0, f { up := true })] }
theorem test_linkPortUp :
    let s := { link (fun x => { x with up := false }) with aon := { base.aon with coords := some (0, 0, 0, 4, 4, 1) } }
    let t := run (.linkPortUp 0 0 9 4) s
    t.out = [.keyFrame 0] ∧ (t.port 0).keying = true ∧ (t.port 0).cellHeld = 9 ∧ (t.port 0).bulkGranted = 4
      ∧ run (.linkPortUp 0 6 9 4) s = s := by decide +kernel
theorem test_keyExchangeFrame :
    let s := link fun x => { x with up := false, keying := true }
    ((run (.keyExchangeFrame 0 true true 3 true) s).port 0).up = true ∧ (run (.keyExchangeFrame 0 true true 4 false) s).out = [.keyFrame 0]
      ∧ (0xA801 : Code) ∈ (run (.keyExchangeFrame 0 true true 5 true) s).coll.log
      ∧ ((run (.keyExchangeFrame 0 true false 3 true) s).port 0).keying = false := by decide
/-- An operation of step 8 on port 0. -/
def operation (kind : Nat) : State :=
  { busy with ports := [(0, { up := true })], remOps := [{ id := 4, slot := 8, tile := 1, kind, qp := 12, port := 0, last := 0, want := 100 }] }
theorem test_linkPortDown : (0xA801 : Code) ∈ (run (.linkPortDown 0 0) (operation 1)).coll.log
    ∧ failOf (run (.linkPortDown 0 0) (operation 1)) 8 = some 0x0B04 ∧ ((run (.linkPortDown 0 0) (operation 1)).port 0).up = false := by decide
theorem test_creditReturn :
    let s := link fun x => { x with cellHeld := 3, cellGranted := 9, bulkGranted := 2 }
    ((run (.creditReturn 0 0 false 6) s).port 0).cellHeld = 9 ∧ ((run (.creditReturn 0 0 true 2) s).port 0).bulkHeld = 2
      ∧ ((run (.creditReturn 0 0 false 7) s).port 0).up = false ∧ (0xA802 : Code) ∈ (run (.creditReturn 0 0 true 3) s).coll.log := by decide
theorem test_remoteTimeout : failOf (run (.remoteTimeout 1000001 4) (operation 0)) 8 = some 0x0B01
    ∧ (run (.remoteTimeout 0 4) (operation 0)).remOps.length = 1
    ∧ failOf (run (.queuePairDown 0 12) (operation 0)) 8 = some 0x0B04 ∧ failOf (run (.queuePairDown 0 13) (operation 0)) 8 = none := by decide
/-- Window 4 of partition 3: 96 bytes at 4096, data from queue pair 12. -/
def windowed (f : Window → Window) : State :=
  { link id with windows := [(4, f { isOpen := true, part := 3, base := 4096, size := 96, kinds := 1, qps := [12], gen := 2 })] }
/-- A cell for the second half of window 4. -/
def cell (ctr gen : Nat) : Cell := { qp := 12, kind := 0, gen, window := 4, index := 1, payload := [7, 8], frameCtr := ctr }
theorem test_cellArrival :
    let t := run (.cellArrival 0 0 (cell 1 2)) (windowed id)
    frameOk (windowed id) 0 1 true = true ∧ t.hbm = [(hbmAddr 3 4144, 7), (hbmAddr 3 4145, 8)] ∧ (t.port 0).rxCtr = 1
      ∧ tget (run (.cellArrival 0 0 (cell 1 1)) (windowed id)).stale 3 0 = 1
      ∧ (0xA803 : Code) ∈ (run (.cellArrival 0 0 { cell 1 2 with index := 2 }) (windowed id)).coll.log
      ∧ (run (.cellArrival 0 0 { cell 1 2 with index := 2 }) (windowed id)).hbm = [] := by decide +kernel
theorem test_cellArrival_badFrame : frameOk (windowed id) 0 2 true = false
    ∧ (0xA501 : Code) ∈ (run (.cellArrival 0 0 (cell 2 2)) (windowed id)).coll.log
    ∧ (run (.cellArrival 0 0 (cell 2 2)) (windowed id)).aon.secalmN = false ∧ ((run (.cellArrival 0 0 (cell 2 2)) (windowed id)).port 0).keying = true := by
  decide +kernel
/-- A bulk message of five bytes for window 4. -/
def bulk : Bulk := { qp := 12, kind := 0, gen := 2, window := 4, length := 5, offset := 91, payload := [1, 2, 3, 4, 5], frameCtr := 1 }
theorem test_bulkMessageArrival : (run (.bulkMessageArrival 0 0 bulk) (windowed id)).hbm
      = [(hbmAddr 3 4187, 1), (hbmAddr 3 4188, 2), (hbmAddr 3 4189, 3), (hbmAddr 3 4190, 4), (hbmAddr 3 4191, 5)]
    ∧ (run (.bulkMessageArrival 0 0 { bulk with offset := 92 }) (windowed id)).hbm = [] := by decide +kernel
theorem test_cellArrival_operation :
    let s := fun k => { operation k with windows := (windowed fun w => { w with kinds := 5 }).windows }
    (run (.cellArrival 0 0 { cell 1 2 with kind := 2 }) (s 1)).remOps = [] ∧ (run (.cellArrival 0 0 { cell 1 2 with kind := 2 }) (s 1)).hbm = []
      ∧ (run (.cellArrival 0 0 (cell 1 2)) (s 0)).remOps.map (fun o => o.data.length) = [48]
      ∧ (run (.cellArrival 0 0 (cell 1 2)) { s 0 with remOps := [{ id := 4, slot := 8, tile := 1, qp := 12, want := 48 }] }).remOps = [] := by
  decide +kernel
/-- Skein 0 of step 8 has issued a COLL of three members: an all-reduce, or a reduce-scatter. -/
def reducing (pattern : Nat) : State :=
  run (.coll 1 0 1 pattern 0 0 3 0) (inJob (onTile [quad, quad] [row 0, row 1] (.coll 0 1 pattern 0 0 3 0)))
/-- Its collective. -/
def collAt (s : State) : Coll := ((s.remOps.head?).bind (·.coll)).getD {}
theorem test_planStart :
    let s := reducing 0
    let late : Plan := { slot := 8, op := 99, deadline := 7 }
    reducerFree s 1 = true ∧ (s.reducer 1).plans.map (fun q => (q.op, q.rev)) = [(0, false)]
      ∧ (collAt s).els = 4 ∧ memberPort s 2 ((collAt s).first + (collAt s).next false) = some 0
      ∧ ((run (.planStart 0 2113) s).reducer 1).run.map (·.op) = some 0 ∧ ((run (.planStart 0 2113) s).reducer 1).plans = []
      ∧ ((collAt (run (.planStart 0 2113) s)).flow false).eng = some 2113
      ∧ ((run (.planStart 0 2113) s).port 0).txq.map (fun m => (m.eng, m.payload.length)) = [(2113, 4)]
      ∧ ((run (.planStart 0 2113) (s.modReducer 1 fun x => { x with plans := x.plans ++ [late] })).reducer 1).run.map (·.op) = some 99 := by
  decide +kernel
theorem test_planStart_lowered :
    let s := { reducing 0 with reducers := [], addedWork := [{ slot := 8, op := 0, part := 3, added := 5 }] }
    (addedFor s 2).length = 1 ∧ (run (.planStart 0 2) s).addedWork = []
      ∧ ((run (.planStart 0 2) s).tile 2).run.map (fun r => (r.skein, r.issued)) = some (5, true)
      ∧ ((collAt (run (.planStart 0 2) s)).flow false).eng = some 2 ∧ (addedFor s 1) = [] := by decide +kernel
/-- Both plans run and have taken all that their rings bring. -/
def reduced : State :=
  modColl' (run (.planStart 0 2112) (run (.planStart 0 2113) (reducing 1))) 0 fun c =>
    { c with fwd := { c.fwd with got := 9 }, rev := { c.rev with got := 9 } }
theorem test_planComplete :
    let t := run (.planComplete 0 2113 0) reduced
    planWhole reduced { op := 0 } = true ∧ planOn reduced 2113 ≠ none ∧ planLeft t 0 = true ∧ planOn t 2113 = none
      ∧ t.remOps.map (·.id) = [0] ∧ (run (.planComplete 0 2112 0) t).remOps = []
      ∧ (((run (.planComplete 0 2112 0) t).tile 1).run.map (·.opsOut)) = some 0
      ∧ planOn (run (.planComplete 0 2113 0) (run (.planStart 0 2113) (reducing 1))) 2113 ≠ none := by decide +kernel

/-- A sync message is outstanding since 999600 ns. -/
def outstanding (t : Nat) : State :=
  aon fun a => { a with outstanding := some (0, t), sync := [(0, { seq := 4, sends := [(3, none)] })], lastEdge := some 999750 }
theorem test_whorlSyncEdge :
    ((syncOf (run (.whorlSyncEdge 0 4) (outstanding 999500)) 0).sends) = [(3, some 1000000)]
      ∧ tget (run (.whorlSyncEdge 0 4) (outstanding 999499)).coll.corr 41 0 = 1
      ∧ run (.whorlSyncEdge 0 3) (outstanding 999500) = outstanding 999500
      ∧ (run (.whorlSyncEdge 0 4) ((outstanding 999500).modAon fun a => { a with lastEdge := some 999751 })).aon.outstanding.isSome = true := by
  decide +kernel
theorem test_syncWindowExpiry : (run (.syncWindowExpiry 0) (outstanding 999499)).aon.outstanding = none
    ∧ (run (.syncWindowExpiry 0) (outstanding 999500)).aon.outstanding.isSome = true := by decide
theorem test_syncSend :
    let s := { link (fun x => { x with cellHeld := 1 }) with
      aon := { base.aon with sync := [(0, { seq := 4, sends := [(3, some 77)], arrival := some 55, arrSeq := 2 })] } }
    (run (.syncSend 0 0) s).out = [.sync 0 4 (some 77) 55 2 (syncCell 0 4 (some 77) 55 2)] ∧ ((run (.syncSend 0 0) s).port 0).cellHeld = 0
      ∧ run (.syncSend 0 0) { s with ports := [(0, { up := true })] } = { s with ports := [(0, { up := true })] } ∧ (run (.syncSend 0 0) s).aon.outstanding = some (0, 1000000)
      ∧ (syncOf (run (.syncSend 0 0) s) 0).seq = 5 ∧ run (.syncSend 0 0) (run (.syncSend 0 0) s) = run (.syncSend 0 0) s := by decide +kernel
/-- Port 0 leads to the parent; the neighbour's message 2 came at 900000 ns, and this port's message 3 left at 899000 ns. -/
def child (adopted : Bool) : State :=
  { link id with aon := { base.aon with adopted, parentPort := 0
                                        sync := [(0, { seq := 4, sends := [(3, some 899000)], arrival := some 900000, arrSeq := 2 })] } }
/-- The neighbour's message 3: message 2 left at `b`, and message 3 of this port came at 900000 + `d` of the neighbour's time. -/
def sync (b d : Nat) : SyncMsg :=
  { seq := 3, prevSend := some b, prevArrival := 899000 + d, prevSeq := 3, nbSynced := true, nbDepth := 1, nbPkg := 1, nbTime := 0 }
theorem test_syncArrival :
    (run (.syncArrival 0 0 (sync 899980 0)) (child true)).aon.offset16 = 160 ∧ (run (.syncArrival 0 0 (sync 899980 0)) (child true)).aon.synced = true
      ∧ (run (.syncArrival 0 0 (sync 899980 0)) (child true)).aon.whorl = 1000000
      ∧ (run (.syncArrival 0 0 (sync 899980 0)) (child false)).aon.whorl = 999990
      ∧ (run (.syncArrival 0 0 (sync 900000 20000)) (child true)).aon.whorl = 1000000
      ∧ (run (.syncArrival 0 0 (sync 900000 20001)) (child true)).aon.whorl = 1010001
      ∧ (run (.syncArrival 0 0 (sync 879999 0)) (child true)).aon.whorlHold = some 10000
      ∧ tget (run (.syncArrival 0 0 (sync 879999 0)) (child true)).coll.corr 41 0 = 1 := by decide +kernel
theorem test_parentTimeout :
    let s := (child true).modAon fun a => { a with synced := true, sync := [(0, { lastValid := 899999 })] }
    (run (.parentTimeout 0) s).aon.holdover = true ∧ (run (.parentTimeout 0) s).aon.parentPort = 7
      ∧ (run (.parentTimeout 0) (s.modAon fun a => { a with whorl := 999999 })).aon.synced = true := by decide +kernel
theorem test_fabricEpochStart :
    let s := aon fun a => { a with adopted := false, coords := some (0, 0, 0, 4, 4, 4) }
    (run (.fabricEpochStart 0) s).aon.whorl = 0 ∧ (run (.fabricEpochStart 0) s).aon.root = true
      ∧ (run (.fabricEpochStart 0) (s.modAon fun a => { a with aonSince := 1 })).aon.root = false
      ∧ (run (.fabricEpochStart 0) (s.modAon fun a => { a with coords := some (1, 0, 0, 4, 4, 4) })).aon.root = false := by decide +kernel
theorem test_comparatorFire :
    let s := aon fun a => { a with cmps := [(3, { value := 1000000, armed := true })] }
    (cmpOf (run (.comparatorFire 0 3) s) 3).fired = true
      ∧ (cmpOf (run (.comparatorFire 0 3) (s.modAon fun a => { a with whorl := 999999 })) 3).fired = false := by decide +kernel
theorem test_whlTimeLo :
    let s := aon fun a => { a with whorl := 3 * 2 ^ 32 + 5 }
    readForced s 0 .whl = none ∧ (run (.whlTimeLo 0) s).out = [.read 0 5] ∧ (run (.whlTimeLo 0) s).aon.timeHi = 3
      ∧ (run (.whlTimeLo 0) { s with mainReset := true }).out = [.read 0 0xFFFFFFFF] := by decide

/-! ### Control cells, collectives, waiting messages -/

/-- A control cell that says `x`. -/
def told (x : Ctl) : Cell := { qp := 9, kind := 2, gen := 0, window := 0x3FF, index := 0, payload := [], frameCtr := 1, ctl := some x }
/-- Port 0 is up in a state. -/
def plugged (s : State) : State := { s with ports := [(0, { up := true, cellHeld := 9 })] }
theorem test_probeAnswer :
    let s := plugged (filling { bobbin := 2, probing := [1, 6] })
    frameOk s 0 1 true = true ∧ active s 3 = true ∧ askedDigest (bobbin s 3 2) = 0 ∧ heldChunks (bobbin s 3 2) = [0]
      ∧ ((run (.cellArrival 0 0 (told (.probeAnswer 3 1 0 [0] 384))) s).part 3).fill.map (fun f => (f.probing, f.peers, f.rates))
        = some ([6], [1], [(1, 384)])
      ∧ ((run (.cellArrival 0 0 (told (.probeAnswer 3 1 0 [] 384))) s).part 3).fill.map (fun f => (f.probing, f.peers)) = some ([6], []) := by
  decide +kernel
theorem test_request :
    let s := plugged (stocked fun b => { b with state := 2, peerShare := true })
    routeTo s 1 = some [0] ∧ (bobbin (run (.cellArrival 0 0 (told (.request 1 3 0 0 [0]))) s) 3 2).serving = [1]
      ∧ ((run (.cellArrival 0 0 (told (.request 1 3 0 0 [0]))) s).port 0).txq.map (fun m => (m.bulk, m.payload.length)) = [] := by
  decide +kernel
theorem test_ask :
    let s := plugged base
    let ms := [(1, 4), (0, 3)]
    memberHere s ms 1 = some 3 ∧ enrolledAll s [] = true
      ∧ (run (.cellArrival 0 0 (told (.ask 2 1 ms []))) s).job 2 = { live := true, members := [{ pkg := 1, part := 4 }, { part := 3 }] }
      ∧ ((run (.cellArrival 0 0 (told (.ask 2 1 ms [7]))) s).job 2).live = false := by decide +kernel
theorem test_answer :
    let s := (plugged (joined fun x => { x with waiting := [1], crTag := some (0, 4) })).modFunc 0 fun x => { x with taken := [{ tag := 4 }] }
    let t := run (.cellArrival 0 0 (told (.answer 2 1 true 6 2 64 64))) s
    let u := run (.cellArrival 0 0 (told (.answer 2 1 false 0 0 0 0))) s
    jobOf s 2 = some 2 ∧ (t.job 2).waiting = [] ∧ lastRsp t 0 = some (0, 2, []) ∧ (t.job 2).live = true
      ∧ (u.job 2).live = false ∧ lastRsp u 0 = some (0x0614, 0, []) := by decide +kernel
theorem test_jobCells :
    let s := plugged { joined id with steps := [(8, { state := 3, part := 3, ctx := 5, ctxGen := 2, job := some (2, 5) })] }
    ((run (.cellArrival 0 0 (told (.routes 2 [(1, [0])]))) s).job 2).routes = [(1, [0])]
      ∧ ((run (.cellArrival 0 0 (told (.gone 2))) s).job 2).live = false ∧ failOf (run (.cellArrival 0 0 (told (.gone 2))) s) 8 = some 0x0D10
      ∧ ((run (.cellArrival 0 0 (told (.gate 2 5 1))) s).job 2).gates = [(5, 1)]
      ∧ (tfind (run (.cellArrival 0 0 (told (.skein 2 5 0))) s).steps 8).map (fun st => skDone st 0) = some true := by decide +kernel

theorem test_fetchAsk :
    let s := { plugged (joined fun x => { x with routes := [(1, [0])] }) with
      windows := (windowed id).windows.map fun e => (e.1, { e.2 with job := 2 }), hbm := [(hbmAddr 3 4099, 5)] }
    let x : FetchAsk := { job := 2, member := 1, window := 4, gen := 2, ranges := [(2, 4)], qp := 7, back := 0 }
    jobOf s 2 = some 2 ∧ Waits { s with ports := [(0, { up := true })] } 0
      ∧ ((run (.cellArrival 0 0 (told (.fetch x))) { s with ports := [(0, { up := true })] }).port 0).txq.map (fun m => (m.qp, m.payload))
        = [(7, [0, 5, 0, 0])]
      ∧ ((run (.cellArrival 0 0 (told (.fetch { x with gen := 1 }))) { s with ports := [(0, { up := true })] }).port 0).txq = [] :=
  ⟨by decide +kernel, ⟨.inr ⟨by decide, by decide⟩, by decide⟩, by decide +kernel, by decide +kernel⟩

/-- A bulk message of the collective's queue pair: a partial sum of 1.0 at `pos`, window 4 taking operation data. -/
def piece (pos : Nat) : Bulk := { qp := 12, kind := 1, gen := 2, window := 4, length := 4, offset := pos, payload := [0, 0, 0x80, 0x3F], frameCtr := 1 }
/-- The operation's data comes on queue pair 12 by port 0. -/
def joinedIn (s : State) : State :=
  { s with
    windows := (windowed fun w => { w with kinds := 7 }).windows
    remOps := s.remOps.map fun o => { o with qp := 12 } }
theorem test_collArrival_waits :
    let s := joinedIn (reducing 1)
    landing s 12 1 2 4 0 4 = .land ∧ ((collAt s).place 0) = (0, true)
      ∧ ((collAt (run (.bulkMessageArrival 0 0 (piece 0)) s)).flow ((collAt s).ringOf 0)).inbox.map (·.bytes) = [[0, 0, 0x80, 0x3F]] := by
  decide +kernel
theorem test_collArrival_sums :
    let s := joinedIn (run (.planStart 0 2112) (run (.planStart 0 2113) (reducing 1)))
    let t := run (.bulkMessageArrival 0 0 (piece 0)) s
    (collAt s).segOf 0 = (collAt s).own ∧ ((collAt s).flow ((collAt s).ringOf 0)).eng ≠ none ∧ (collAt s).segOf 3 ≠ (collAt s).own
      ∧ mreadN (t.tile 1).scratch 128 4 = [0, 0, 0, 0x40] ∧ ((collAt t).flow ((collAt s).ringOf 0)).got = 1 := by decide +kernel
theorem test_creditReturn_sends :
    let m : TxMsg := { eng := 1, qp := 3 }
    let s := link fun x => { x with cellGranted := 2, txq := [m] }
    msgCost m = 1 ∧ ((run (.creditReturn 0 0 false 2) s).port 0).cellHeld = 1 ∧ ((run (.creditReturn 0 0 false 2) s).port 0).txq = []
      ∧ txOut 0 m ∈ (run (.creditReturn 0 0 false 2) s).out := by decide +kernel
theorem test_gstHalted_open :
    let s := { base with gst := { stopped := true }, tiles := [(1, { run := some { matWin := true } })] }
    windowsClosed s = false ∧ run (.gstHalted 0) s = s := by decide +kernel
theorem test_fenceDestroy_signalled :
    let m := ctxMsg 0x030C [1, 0, 0, 0, 0, 0, 0, 0]
    let s := waiting.modPart 3 fun x => { x with fences := [(1, { live := true, ctx := 5, ctxGen := 2, host := true, status := some 0 })] }
    fenceWaiters s 3 1 = [8] ∧ signallerPending s 3 1 = false
      ∧ (tfind ((own (.fenceDestroy m) s).part 3).fences 1).map (·.freeing) = some true ∧ failOf (own (.fenceDestroy m) s) 8 = none := by
  decide +kernel
theorem test_measurements_all : (run (.spdmRequest 0 (.getMeasurements 0xFF)) { base with life := { lc := 4, attestKey := true } }).out
    = [.spdm 0 ((List.range 8).flatMap fun k => measurement base (k + 1))] := by rfl
theorem test_comparator_assigned :
    let s := aon fun a => { a with cmps := [(3, { value := 1000000, armed := true }), (4, { value := 1000005, armed := true })] }
    due s (cmpOf s 3) = true ∧ 1000000 ∉ expiries (run (.comparatorFire 0 3) s) := by decide +kernel
end Sys2Proof.Tests
end

/-! PROOFS. The test access port (R35 to R37): what an instruction does that the life-cycle state leaves open, and the
identification. -/

namespace Sys2Proof.Machine

/-- TAP_INSTRUCTION gives the command its meaning (R35 to R37). -/
theorem exec_tapInstruction (i : TapIns) (s : State) : exec (.tapInstruction i) s = execTapInstruction i s := rfl

/-- R36: with the port answering, a reachable instruction is taken as itself and shifts out its own data. -/
theorem exec_tapInstruction_of_open {s : State} {i : TapIns} (hup : up s = true) (hblk : s.aon.blkResetN = true)
    (hopen : tapOpen s.life.lc i = true) :
    exec (.tapInstruction i) s = .next (emit (s.modLife fun l => { l with tapInstr := tapNumber i }) (.tdo (tapOut s i))) := by
  have hanswers : (up s && s.aon.blkResetN) = true := by simp [hup, hblk]
  simp [exec_tapInstruction, execTapInstruction, untimed_of, hanswers, hopen]

/-- Table Boundary-9: no life-cycle state closes IDCODE. -/
@[simp] theorem tapOpen_idcode (lc : Nat) : tapOpen lc .idcode = true := rfl

/-- R35: the data of IDCODE depends on nothing in the state. -/
@[simp] theorem tapOut_idcode (s : State) : tapOut s .idcode = 0xB0E25A6F := rfl

/-- Settles O59: IDCODE is open in every life-cycle state, so it is never taken as BYPASS. -/
theorem identificationCode : Obligations.IdentificationCode := by
  unfold Obligations.IdentificationCode
  constructor
  · intro s hreset hblk
    have hup : up s = true := by simp [up, hreset]
    exact ⟨_, exec_tapInstruction_of_open hup hblk (tapOpen_idcode _), by simp⟩
  · norm_num

end Sys2Proof.Machine

/-! PROOFS. Where tiles and granules lie, and the order of a partition's granules (R42, R258, R262). -/

namespace Sys2Proof.Machine

/-- In a grid of `width` columns numbered row by row, the row of the place in row `r` and column `c`. -/
theorem row_of_place {width c : Nat} (r : Nat) (hc : c < width) : (r * width + c) / width = r := by
  rw [Nat.mul_comm, Nat.mul_add_div (by omega), Nat.div_eq_of_lt hc, Nat.add_zero]

/-- R42: the die of the tile in column `x` and row `y`. -/
theorem tileDie_of_column_row {x : Nat} (y : Nat) (hx : x < 64) : tileDie (y * 64 + x) = y / 8 * 8 + x / 8 := by
  rw [tileDie, row_of_place y hx, Nat.mul_add_mod_of_lt hx]

/-- R258: the granule of the tile in column `x` and row `y`. -/
theorem tileGranule_of_column_row {x : Nat} (y : Nat) (hx : x < 64) : tileGranule (y * 64 + x) = y / 4 * 16 + x / 4 := by
  rw [tileGranule, row_of_place y hx, Nat.mul_add_mod_of_lt hx]

/-- R258: the die of granule (gx, gy). -/
theorem granuleDie_of_column_row {gx : Nat} (gy : Nat) (hgx : gx < 16) : granuleDie (gy * 16 + gx) = gy / 2 * 8 + gx / 2 := by
  rw [granuleDie, row_of_place gy hgx, Nat.mul_add_mod_of_lt hgx]

/-- A granule's list of tiles and a tile's granule say the same: tile `t` stands at place `t / 64 % 4 * 4 + t % 4` of its
granule's list. -/
theorem mem_granuleTiles {t g : Nat} : t ∈ granuleTiles g ↔ tileGranule t = g := by
  simp only [granuleTiles, tileGranule, List.mem_map, List.mem_range]
  constructor
  · rintro ⟨k, hk, rfl⟩
    omega
  · rintro rfl
    exact ⟨t / 64 % 4 * 4 + t % 4, by omega, by omega⟩

/-- R258: granule (gx, gy) holds the tiles of its four columns and four rows. -/
theorem mem_granuleTiles_column_row {gx gy x y : Nat} (hgx : gx < 16) (hx : x < 64) :
    y * 64 + x ∈ granuleTiles (gy * 16 + gx) ↔ 4 * gx ≤ x ∧ x ≤ 4 * gx + 3 ∧ 4 * gy ≤ y ∧ y ≤ 4 * gy + 3 := by
  rw [mem_granuleTiles, tileGranule_of_column_row y hx]
  omega

@[simp] theorem length_granuleTiles (g : Nat) : (granuleTiles g).length = 16 := by simp [granuleTiles]

/-- Two places of a granule's list differ in the tile's row or in its column. -/
theorem nodup_granuleTiles (g : Nat) : (granuleTiles g).Nodup := by
  refine List.nodup_range.map fun i j (hij : _ = _) => ?_
  omega

/-- R258: the rows of the granule grid, by variant. -/
theorem granuleRows_eq (v : Variant) : granuleRows v = if v = .rv9h then 4 else 8 := by
  cases v <;> rfl

/-- Granule identifiers fill the grid's rows of 16. -/
theorem granuleCount_eq (v : Variant) : granuleCount v = granuleRows v * 16 := by
  cases v <;> rfl

/-- A granule of the 16 columns is present when its row is. -/
theorem lt_granuleCount_iff (v : Variant) {gx gy : Nat} (hgx : gx < 16) : gy * 16 + gx < granuleCount v ↔ gy < granuleRows v := by
  rw [granuleCount_eq]
  omega

@[simp] theorem length_partGranules (p : Part) : (partGranules p).length = p.width * p.height := by simp [partGranules]

/-- R262: the granule in column `c` and row `r` of a partition has local index `r * width + c`. -/
theorem partGranules_getElem? (p : Part) {c r : Nat} (hc : c < p.width) (hr : r < p.height) :
    (partGranules p)[r * p.width + c]? = some ((p.gy0 + r) * 16 + p.gx0 + c) := by
  have hbound : r * p.width + c < p.width * p.height := by
    calc r * p.width + c < (r + 1) * p.width := by rw [Nat.succ_mul]; omega
      _ ≤ p.height * p.width := Nat.mul_le_mul_right _ hr
      _ = p.width * p.height := Nat.mul_comm _ _
  simp [partGranules, List.getElem?_range hbound, row_of_place r hc, Nat.mul_add_mod_of_lt hc]

/-- Settles O60: each place is the row and column that the identifier splits into. -/
theorem tilesAndGranules : Obligations.TilesAndGranules := by
  unfold Obligations.TilesAndGranules
  refine ⟨fun x y hx => tileDie_of_column_row y hx, fun gx gy x y hgx hx => ?_, fun v gx gy hgx => ?_,
    fun p gx gy hgx0 hgx hgy0 hgy => ?_⟩
  · exact ⟨mem_granuleTiles_column_row hgx hx, length_granuleTiles _, nodup_granuleTiles _, granuleDie_of_column_row gy hgx⟩
  · rw [lt_granuleCount_iff v hgx, granuleRows_eq]
  · have hplace : (p.gy0 + (gy - p.gy0)) * 16 + p.gx0 + (gx - p.gx0) = gy * 16 + gx := by omega
    refine ⟨?_, length_partGranules p⟩
    rw [partGranules_getElem? p (by omega) (by omega), hplace]

end Sys2Proof.Machine

/-! PROOFS. A message that passes the checks of Table Mailbox-3: how it is taken and answered (R333 to R339). -/

namespace Sys2Proof.Machine

open Sys2Proof.Claims

section
variable {s t : State} {sp : MsgSpec} {m : Msg}

/-- A message that is not critical and passes its checks is answered as its own row says. -/
theorem mbx_of_passes {own : State → Ans} (h : Passes s sp m) (hcritical : sp.critical = false) :
    mbx sp own m s = .next (applyAns (take s m) m (own (take s m))) := by
  obtain ⟨htakes, hchecks, hnamed, hop⟩ := h
  have hrow : ((m.opcode == sp.opcode || !opcodes.contains m.opcode) && (if m.boot then canBoot s m else canTake s m.func)) = true := by
    simp [hop, htakes]
  rw [mbx, untimed_of s (c := fun s => (m.opcode == sp.opcode || !opcodes.contains m.opcode) &&
    (if m.boot then canBoot s m else canTake s m.func)) hrow]
  simp [process, hchecks, hcritical, hnamed]

/-- What is kept of a request that was taken. -/
def takenFrom (m : Msg) : Taken := { tag := m.tag, opcode := m.opcode, critical := isCritical m, boot := m.boot }

@[simp] theorem time_take (s : State) (m : Msg) : time (take s m) = time s := rfl
@[simp] theorem take_coll (s : State) (m : Msg) : (take s m).coll = s.coll := rfl
@[simp] theorem take_aon (s : State) (m : Msg) : (take s m).aon = s.aon := rfl
@[simp] theorem take_steps (s : State) (m : Msg) : (take s m).steps = s.steps := rfl
@[simp] theorem take_life (s : State) (m : Msg) : (take s m).life = s.life := rfl

/-- The sender, its request taken. -/
theorem func_take_sender (s : State) (m : Msg) : (take s m).func m.func = { s.func m.func with
    reqHead := if m.boot then (s.func m.func).reqHead else ((s.func m.func).reqHead + 1) % 65536
    taken := (s.func m.func).taken ++ [takenFrom m] } := func_modFunc_self _ _ _

/-- The other functions. -/
theorem func_take_ne (s : State) {m : Msg} {g : Nat} (hg : g ≠ m.func) : (take s m).func g = s.func g := func_modFunc_ne _ _ hg

/-- Of the requests with its tag the one just taken is the latest (log 37). -/
theorem takenOf_take (ht : t.funcs = (take s m).funcs) : takenOf t m.func m.tag = some (takenFrom m) := by
  have hfunc : t.func m.func = (take s m).func m.func := by rw [State.func, State.func, ht]
  simp [takenOf, hfunc, func_take_sender, takenFrom]

/-- The answer to the request just taken. -/
theorem answerWith_take (ht : t.funcs = (take s m).funcs) (status detail : Nat) (payload ext : List Byte) (waits : Bool) :
    answerWith t m.func m.tag status detail payload ext waits = t.modFunc m.func fun x =>
      { x with taken := x.taken.erase (takenFrom m), rsps := x.rsps ++ [rspTo m status detail payload ext waits] } := by
  rw [answerWith, takenOf_take ht]
  rfl

/-- The response becomes due to the sender. -/
theorem answered_answerWith (ht : t.funcs = (take s m).funcs) (status detail : Nat) (payload ext : List Byte) (waits : Bool) :
    Answered s (answerWith t m.func m.tag status detail payload ext waits) m (rspTo m status detail payload ext waits) := by
  have hfunc : t.func m.func = (take s m).func m.func := by rw [State.func, State.func, ht]
  rw [answerWith_take ht]
  simp [Answered, hfunc, func_take_sender]

/-- No other function changes. -/
theorem othersKeep_answerWith (ht : t.funcs = (take s m).funcs) (status detail : Nat) (payload ext : List Byte) (waits : Bool) :
    OthersKeep s (answerWith t m.func m.tag status detail payload ext waits) m := by
  intro g hg
  have hfunc : t.func g = (take s m).func g := by rw [State.func, State.func, ht]
  rw [answerWith_take ht, func_modFunc_ne _ _ hg, hfunc, func_take_ne s hg]

/-- Answered with nothing else done. -/
theorem replies_answerWith (s : State) (m : Msg) (status detail : Nat) (payload ext : List Byte) (waits : Bool) :
    Replies s (answerWith (take s m) m.func m.tag status detail payload ext waits) m (rspTo m status detail payload ext waits) := by
  refine ⟨answered_answerWith rfl .., othersKeep_answerWith rfl _ _ _ _ _, ?_⟩
  rw [answerWith_take rfl]
  rfl

end

end Sys2Proof.Machine

/-! PROOFS. FAULT_READ, FAULT_CLEAR and FAULT_INJECT (R338, R421, R437 to R440). -/

namespace Sys2Proof.Machine

open Sys2Proof.Claims

/-! ### Little-endian fields -/

@[simp] theorem length_toLe (n v : Nat) : (toLe n v).length = n := by
  induction n generalizing v with
  | zero => rfl
  | succ n ih => simp [toLe, ih]

theorem leNat_toLe_two {v : Nat} (h : v < 2 ^ 16) : leNat (toLe 2 v) = v := by
  simp only [toLe, leNat, BitVec.toNat_ofNat]
  omega

/-- In codes written two bytes each, the bytes of the `i`-th. -/
theorem take_drop_codes {l : List Code} {i : Nat} {c : Code} (tail : List Byte) (h : l[i]? = some c) :
    ((l.flatMap (fun x => toLe 2 x.toNat) ++ tail).drop (2 * i)).take 2 = toLe 2 c.toNat := by
  induction l generalizing i with
  | nil => simp at h
  | cons x l ih =>
    cases i with
    | zero =>
      obtain rfl : x = c := by simpa using h
      simp [List.take_left']
    | succ i =>
      have hskip : (toLe 2 x.toNat).length = 2 := length_toLe 2 _
      rw [List.flatMap_cons, List.append_assoc, Nat.mul_succ, Nat.add_comm, ← List.drop_drop, List.drop_left' hskip]
      exact ih (by simpa using h)

/-! ### FAULT_READ -/

theorem exec_faultRead (m : Msg) (s : State) : exec (.faultRead m) s = execFaultRead m s := rfl

/-- The 16 bytes before the codes. -/
def faultHead (c : Collector) : List Byte := toLe 8 c.status.toNat ++ toLe 1 c.log.length ++ List.replicate 7 0

@[simp] theorem length_faultHead (c : Collector) : (faultHead c).length = 16 := by simp [faultHead]

theorem faultBytes_eq (c : Collector) (n : Nat) :
    faultBytes c n = faultHead c ++ (c.log.take n).flatMap fun x => toLe 2 x.toNat := rfl

@[simp] theorem length_faultBytes (c : Collector) (n : Nat) : (faultBytes c n).length = 16 + 2 * (min n c.log.length) := by
  simp [faultBytes_eq, List.length_flatMap]
  omega

theorem slice_faultBytes_status (c : Collector) (n : Nat) (tail : List Byte) :
    slice (faultBytes c n ++ tail) 0 8 = toLe 8 c.status.toNat := by
  simp [slice, faultBytes_eq, faultHead, List.take_left']

theorem slice_faultBytes_count (c : Collector) (n : Nat) (tail : List Byte) :
    slice (faultBytes c n ++ tail) 8 1 = toLe 1 c.log.length := by
  simp [slice, faultBytes_eq, faultHead, List.take_left', List.drop_left']

/-- The `i`-th newest code stands in the `i`-th pair of bytes. -/
theorem fld_faultBytes_code {c : Collector} {n i : Nat} {x : Code} (tail : List Byte) (h : c.log[i]? = some x) (hi : i < n) :
    fld (faultBytes c n ++ tail) (16 + 2 * i) 2 = x.toNat := by
  have htaken : (c.log.take n)[i]? = some x := by simpa [List.getElem?_take, hi] using h
  rw [fld, faultBytes_eq, List.append_assoc, ← List.drop_drop, List.drop_left' (length_faultHead c), take_drop_codes tail htaken]
  exact leNat_toLe_two x.isLt

/-- R338: the payload of FAULT_READ's response, the log's codes in full or the eight that the boot mailbox has room for. -/
def faultReadBytes (c : Collector) (boot : Bool) : List Byte :=
  faultBytes c (if boot then 8 else 32) ++ if boot then List.replicate (32 - (faultBytes c 8).length) 0 else []

theorem length_faultReadBytes_boot (c : Collector) : (faultReadBytes c true).length = 32 := by
  simp [faultReadBytes]
  omega

theorem exec_faultRead_of_passes {s : State} {m : Msg} (h : Passes s { opcode := 0x0601, pfOnly := true, boot := 2 } m) :
    exec (.faultRead m) s = .next (answerWith (take s m) m.func m.tag 0 0 (faultReadBytes s.coll m.boot) [] false) := by
  rw [exec_faultRead, execFaultRead, mbx_of_passes h rfl]
  cases hboot : m.boot <;> simp [applyAns, faultReadBytes, padTo]

/-! ### FAULT_CLEAR -/

theorem exec_faultClear (m : Msg) (s : State) : exec (.faultClear m) s = execFaultClear m s := rfl

/-- A unit's bit of the status word. -/
theorem getLsbD_unit (u : Nat) {k : Nat} (hk : k < 64) : (BitVec.ofNat 64 (2 ^ u)).getLsbD k = decide (k = u) := by
  rw [BitVec.getLsbD_ofNat, Nat.testBit_two_pow]
  simp [hk, eq_comm]

/-- One unit's part of FAULT_CLEAR. -/
def clearUnit (now bits : Nat) (c : Collector) (u : Nat) : Collector :=
  if bitOf bits u && clearable now c u then
    { c with status := c.status &&& ~~~ (BitVec.ofNat 64 (2 ^ u)), corr := tput c.corr u 0 }
  else c

theorem clearUnits_eq (now : Nat) (c : Collector) (bits : Nat) :
    clearUnits now c bits = (List.range 45).foldl (clearUnit now bits) c := rfl

/-- Between `c` and `d` the units of `l` that are named and clearable were cleared, and nothing else changed. -/
structure Cleared (now bits : Nat) (l : List Nat) (c d : Collector) : Prop where
  rest : d = { c with status := d.status, corr := d.corr }
  status : ∀ k, k < 64 → d.status.getLsbD k = (c.status.getLsbD k && !(decide (k ∈ l) && (bitOf bits k && clearable now c k)))
  corr : ∀ k, tget d.corr k 0 = if (decide (k ∈ l) && (bitOf bits k && clearable now c k)) = true then 0 else tget c.corr k 0

/-- Clearing a unit changes nothing that the next unit's clearing rests on. -/
theorem Cleared.clearable {now bits : Nat} {l : List Nat} {c d : Collector} (h : Cleared now bits l c d) (u : Nat) :
    clearable now d u = clearable now c u := by
  rw [h.rest]
  rfl

theorem clearUnit_status (now bits : Nat) (c : Collector) (u : Nat) {k : Nat} (hk : k < 64) :
    (clearUnit now bits c u).status.getLsbD k = (c.status.getLsbD k && !(decide (k = u) && (bitOf bits k && clearable now c k))) := by
  have hmask : (c.status &&& ~~~ (BitVec.ofNat 64 (2 ^ u))).getLsbD k = (c.status.getLsbD k && !decide (k = u)) := by
    rw [BitVec.getLsbD_and, BitVec.getLsbD_not, getLsbD_unit u hk]
    simp [hk]
  unfold clearUnit
  by_cases hku : k = u
  · subst hku
    cases hclears : bitOf bits k && clearable now c k
    · simp
    · simp only [if_true, hmask, decide_true, Bool.and_true]
  · split
    · simp only [hmask, hku, decide_false, Bool.false_and, Bool.not_false]
    · simp [hku]

theorem clearUnit_corr (now bits : Nat) (c : Collector) (u k : Nat) : tget (clearUnit now bits c u).corr k 0
    = if (decide (k = u) && (bitOf bits k && clearable now c k)) = true then 0 else tget c.corr k 0 := by
  unfold clearUnit
  by_cases hku : k = u
  · subst hku
    split <;> simp_all
  · split <;> simp [hku, tget_tput_ne]

theorem cleared_clearUnit (now bits : Nat) (c : Collector) (u : Nat) : Cleared now bits [u] c (clearUnit now bits c u) where
  rest := by
    unfold clearUnit
    split <;> rfl
  status k hk := by simpa using clearUnit_status now bits c u hk
  corr k := by simpa using clearUnit_corr now bits c u k

theorem Cleared.trans {now bits : Nat} {l l' : List Nat} {c d e : Collector} (h : Cleared now bits l c d)
    (h' : Cleared now bits l' d e) : Cleared now bits (l ++ l') c e where
  rest := by
    rw [h'.rest, h.rest]
  status k hk := by
    rw [h'.status k hk, h.status k hk, h.clearable k]
    cases bitOf bits k && Machine.clearable now c k <;> simp [Bool.and_assoc]
  corr k := by
    rw [h'.corr k, h.corr k, h.clearable k]
    cases bitOf bits k && Machine.clearable now c k
    · simp
    · by_cases hl' : k ∈ l' <;> simp [hl']

theorem cleared_foldl (now bits : Nat) (l : List Nat) (c : Collector) : Cleared now bits l c (l.foldl (clearUnit now bits) c) := by
  induction l generalizing c with
  | nil => exact ⟨rfl, by simp, by simp⟩
  | cons u l ih => exact (cleared_clearUnit now bits c u).trans (ih _)

/-- R421: FAULT_CLEAR clears the named units that are clearable, of the 45 that there are. -/
theorem cleared_clearUnits (now bits : Nat) (c : Collector) : Cleared now bits (List.range 45) c (clearUnits now c bits) := by
  rw [clearUnits_eq]
  exact cleared_foldl now bits _ c

/-- The state of FAULT_CLEAR before its answer: units cleared, and SECALM_N raised unless a frame failed in this tick. -/
def faultsCleared (s : State) (u : Nat) : State :=
  let t := s.modColl fun c => clearUnits (time s) c u
  if bitOf u 37 && t.aon.secalmAt != some (time t) then t.modAon fun a => { a with secalmN := true } else t

@[simp] theorem faultsCleared_coll (s : State) (u : Nat) : (faultsCleared s u).coll = clearUnits (time s) s.coll u := by
  unfold faultsCleared
  extract_lets
  split <;> rfl

@[simp] theorem faultsCleared_funcs (s : State) (u : Nat) : (faultsCleared s u).funcs = s.funcs := by
  unfold faultsCleared
  extract_lets
  split <;> rfl

@[simp] theorem faultsCleared_steps (s : State) (u : Nat) : (faultsCleared s u).steps = s.steps := by
  unfold faultsCleared
  extract_lets
  split <;> rfl

theorem faultsCleared_secalmN (s : State) (u : Nat) :
    (faultsCleared s u).aon.secalmN = (s.aon.secalmN || (bitOf u 37 && s.aon.secalmAt != some (time s))) := by
  simp only [faultsCleared, modColl_aon, show time (s.modColl fun c => clearUnits (time s) c u) = time s from rfl]
  split <;> simp_all

theorem exec_faultClear_of_passes {s : State} {m : Msg}
    (h : Passes s { opcode := 0x0602, pfOnly := true, len := some 16, rsv := [(0, 8)] } m) :
    exec (.faultClear m) s
      = .next (answerWith (faultsCleared (take s m) (fld m.payload 8 8)) m.func m.tag 0 0 [] [] false) := by
  rw [exec_faultClear, execFaultClear, mbx_of_passes h rfl]
  rfl

/-! ### FAULT_INJECT -/

theorem exec_faultInject (m : Msg) (s : State) : exec (.faultInject m) s = execFaultInject m s := rfl

/-- The checkers armed once an injection is added: it replaces an earlier one of its checker (R440). -/
def injected (l : List Inject) (x : Inject) : List Inject :=
  (l.filter fun i => !(i.unit == x.unit && i.checker == x.checker)) ++ [x]

theorem mem_injected (l : List Inject) (x : Inject) : x ∈ injected l x := by simp [injected]

theorem eq_of_mem_injected {l : List Inject} {x y : Inject} (h : y ∈ injected l x) (hunit : y.unit = x.unit)
    (hchecker : y.checker = x.checker) : y = x := by
  simpa [injected, hunit, hchecker] using h

/-- The state of FAULT_INJECT before its answer. -/
def faultInjected (s : State) (x : Inject) : State := s.modColl fun c => { c with inject := injected c.inject x }

theorem faultInjected_funcs (s : State) (x : Inject) : (faultInjected s x).funcs = s.funcs := rfl

/-- The injection that a request asks for (R438). -/
def injectionOf (m : Msg) : Inject := { unit := fld m.payload 4 1, checker := fld m.payload 5 1, events := fld m.payload 6 2 }

section
variable {s : State} {m : Msg}

theorem exec_faultInject_of_passes
    (h : Passes s { opcode := 0x0603, pfOnly := true, len := some 8, rsv := [(0, 4)]
                    ranges := decide (fld m.payload 5 1 < checkersOf (fld m.payload 4 1)) && fld m.payload 6 2 != 0 } m) :
    exec (.faultInject m) s = .next (if injectOpen s.life.lc then
        answerWith (faultInjected (take s m) (injectionOf m)) m.func m.tag 0 0 [] [] false
      else answerWith (take s m) m.func m.tag 0x0914 0 [] [] false) := by
  rw [exec_faultInject, execFaultInject, mbx_of_passes h rfl, take_life]
  cases injectOpen s.life.lc <;> rfl

theorem injectOpen_iff (lc : Nat) : injectOpen lc = true ↔ lc = 1 ∨ lc = 4 ∨ lc = 5 := by simp [injectOpen, or_assoc]

end

end Sys2Proof.Machine

/-! PROOFS. What the failing of a step leaves as it is (R444, R446, R459): the other steps, and how every tile stands. -/

namespace Sys2Proof.Machine

open Sys2Proof.Claims

/-! ### Operations that touch no step and no tile -/

/-- `s` has the steps and the tiles of `b`. -/
def WorkStands (b s : State) : Prop := s.steps = b.steps ∧ s.tiles = b.tiles

section
variable {b s : State}

theorem WorkStands.refl (s : State) : WorkStands s s := ⟨rfl, rfl⟩

theorem WorkStands.trans {a : State} (h : WorkStands a b) (h' : WorkStands b s) : WorkStands a s :=
  ⟨h'.1.trans h.1, h'.2.trans h.2⟩

theorem forAll_workStands {α : Type} {f : State → α → State} (l : List α) (s : State) (hf : ∀ t x, WorkStands t (f t x)) :
    WorkStands s (forAll l f s) := by
  induction l generalizing s with
  | nil => exact .refl s
  | cons a l ih => exact (hf s a).trans (ih _)

theorem tracePut_workStands (s : State) (p : Nat) (rec : List Byte) : WorkStands s (tracePut s p rec) := by
  unfold tracePut
  extract_lets t written
  have hwritten : WorkStands s written := ⟨rfl, rfl⟩
  exact hwritten.trans ⟨rfl, rfl⟩

theorem traceTrigger_workStands (s : State) (p : Nat) : WorkStands s (traceTrigger s p) := by
  unfold traceTrigger
  extract_lets t
  split
  · exact WorkStands.trans (b := s.modPart p _) ⟨rfl, rfl⟩ (tracePut_workStands _ p _)
  · exact .refl s

theorem pushEntry_workStands (s : State) (f : Nat) (e : Entry) : WorkStands s (pushEntry s f e) := ⟨rfl, rfl⟩

theorem closeWindow_workStands (s : State) (w : Nat) : WorkStands s (closeWindow s w) := by
  unfold closeWindow
  split <;> exact ⟨rfl, rfl⟩

theorem closeWindows_workStands (s : State) (c : Window → Bool) : WorkStands s (closeWindows s c) :=
  forAll_workStands _ s fun t e => closeWindow_workStands t e.1

theorem count_workStands (s : State) (p ev n : Nat) : WorkStands s (count s p ev n) := by
  unfold count
  split <;> exact ⟨rfl, rfl⟩

theorem countGlobal_workStands (s : State) (j n : Nat) : WorkStands s (countGlobal s j n) := by
  unfold countGlobal
  split <;> exact ⟨rfl, rfl⟩

theorem sendOne_workStands (s : State) (p : Nat) : WorkStands s (sendOne s p) := by
  unfold sendOne
  split
  · exact .refl s
  · extract_lets m sent
    have hsent : WorkStands s sent := ⟨rfl, rfl⟩
    exact (hsent.trans (countGlobal_workStands _ _ _)).trans (count_workStands _ _ _ _)

theorem sendAll_workStands (s : State) (p : Nat) (l : List TxMsg) : WorkStands s (sendAll s p l) :=
  forAll_workStands _ _ fun t _ => sendOne_workStands t p

theorem sendCtl_workStands (s : State) (part pkg : Nat) (route : Option (List Nat)) (o : Out) :
    WorkStands s (sendCtl s part pkg route o) := by
  unfold sendCtl
  split
  · exact ⟨rfl, rfl⟩
  · split
    · exact sendAll_workStands _ _ _
    · exact .refl s

theorem sendNotice_workStands (s : State) (j origin : Nat) (n : Notice) : WorkStands s (sendNotice s j origin n) :=
  forAll_workStands _ s fun t _ => sendCtl_workStands t _ _ _ _

theorem startAbort_workStands (s : State) (j jstep p : Nat) (cause code : Code) (lost : Bool) :
    WorkStands s (startAbort s j jstep p cause code lost) := by
  unfold startAbort
  split
  · exact .refl s
  · exact (closeWindows_workStands (s.modJob j _) _).trans (sendNotice_workStands _ _ _ _)

end

/-! ### Operations on one step -/

/-- Between `b` and `s` no step but the one in `slot` changed, and every tile stands as it stood. -/
structure OnlySlot (slot : Nat) (b s : State) : Prop where
  others : ∀ j, j ≠ slot → tfind s.steps j = tfind b.steps j
  withdrawn : ∀ e, (s.tile e).withdrawn = (b.tile e).withdrawn
  testing : ∀ e, (s.tile e).testing = (b.tile e).testing

/-- Nor did that step's outcome change. -/
structure SameOutcome (slot : Nat) (b s : State) : Prop extends OnlySlot slot b s where
  outcome : (tfind s.steps slot).map (·.fail) = (tfind b.steps slot).map (·.fail)

section
variable {b s : State} {slot : Nat}

theorem OnlySlot.refl (slot : Nat) (s : State) : OnlySlot slot s s := ⟨fun _ _ => rfl, fun _ => rfl, fun _ => rfl⟩

theorem OnlySlot.trans {a : State} (h : OnlySlot slot a b) (h' : OnlySlot slot b s) : OnlySlot slot a s where
  others j hj := (h'.others j hj).trans (h.others j hj)
  withdrawn e := (h'.withdrawn e).trans (h.withdrawn e)
  testing e := (h'.testing e).trans (h.testing e)

theorem SameOutcome.refl (slot : Nat) (s : State) : SameOutcome slot s s := ⟨.refl slot s, rfl⟩

theorem SameOutcome.trans {a : State} (h : SameOutcome slot a b) (h' : SameOutcome slot b s) : SameOutcome slot a s :=
  ⟨h.toOnlySlot.trans h'.toOnlySlot, h'.outcome.trans h.outcome⟩

theorem SameOutcome.of_workStands (h : WorkStands b s) : SameOutcome slot b s := by
  obtain ⟨hsteps, htiles⟩ := h
  have htile : ∀ e, s.tile e = b.tile e := fun e => by rw [State.tile, State.tile, htiles]
  exact ⟨⟨fun j _ => by rw [hsteps], fun e => by rw [htile], fun e => by rw [htile]⟩, by rw [hsteps]⟩

/-- The outcome of a step that ended as failed stands. -/
theorem SameOutcome.failsWith {c : Code} (h : SameOutcome slot b s) (hfails : FailsWith b slot c) : FailsWith s slot c := by
  obtain ⟨st, hst, hfail⟩ := hfails
  have houtcome := h.outcome
  rw [hst] at houtcome
  obtain ⟨st', hst', hfail'⟩ := Option.map_eq_some_iff.1 houtcome
  exact ⟨st', hst', hfail'.trans hfail⟩

@[simp] theorem tile_modStep (s : State) (k e : Nat) (f : Step → Step) : (s.modStep k f).tile e = s.tile e := by
  unfold State.modStep
  split <;> rfl

theorem modStep_onlySlot (s : State) (slot : Nat) (f : Step → Step) : OnlySlot slot s (s.modStep slot f) where
  others _ hj := tfind_modStep_ne s f hj
  withdrawn e := by rw [tile_modStep]
  testing e := by rw [tile_modStep]

theorem modStep_sameOutcome (s : State) (slot : Nat) (f : Step → Step)
    (hf : ∀ x, (f x).fail = x.fail := by exact fun _ => rfl) :
    SameOutcome slot s (s.modStep slot f) := by
  refine ⟨modStep_onlySlot s slot f, ?_⟩
  cases hst : tfind s.steps slot with
  | none => simp [State.modStep, hst]
  | some st => simp [tfind_modStep_self s f hst, hf]

theorem forAll_sameOutcome {α : Type} {f : State → α → State} (hf : ∀ t x, SameOutcome slot t (f t x)) (l : List α) (s : State) :
    SameOutcome slot s (forAll l f s) := by
  induction l generalizing s with
  | nil => exact .refl slot s
  | cons a l ih => exact (hf s a).trans (ih _)

theorem accrue_sameOutcome (s : State) (slot : Nat) : SameOutcome slot s (accrue s slot) := by
  have hstep := modStep_sameOutcome s slot fun x => { x with stateAt := time s }
  unfold accrue
  split
  · exact .refl slot s
  · extract_lets
    split
    · exact hstep.trans (.of_workStands ⟨rfl, rfl⟩)
    · exact hstep

theorem setState_sameOutcome (s : State) (slot n : Nat) : SameOutcome slot s (setState s slot n) :=
  (accrue_sameOutcome s slot).trans (modStep_sameOutcome _ slot _)

/-- A tile without the work of the step in `slot`. -/
def Tile.without (x : Tile) (slot : Nat) : Tile :=
  { x with
    run := x.run.filter fun r => r.slot != slot
    tails := x.tails.filter fun r => r.slot != slot
    bufs := x.bufs.filter fun b => b.slot != slot }

/-- R446: removing work from every tile leaves how each stands. -/
theorem sameOutcome_of_without {k : Nat} (hsteps : s.steps = b.steps) (htiles : s.tiles = tmap b.tiles fun _ x => x.without slot) :
    SameOutcome k b s := by
  have htile : ∀ e, (s.tile e).withdrawn = (b.tile e).withdrawn ∧ (s.tile e).testing = (b.tile e).testing := fun e => by
    rw [State.tile, State.tile, htiles, tget, tget, tfind_tmap]
    cases tfind b.tiles e <;> exact ⟨rfl, rfl⟩
  exact ⟨⟨fun j _ => by rw [hsteps], fun e => (htile e).1, fun e => (htile e).2⟩, by rw [hsteps]⟩

theorem dropWork_sameOutcome (s : State) (slot k : Nat) : SameOutcome k s (dropWork s slot) := by
  unfold dropWork
  extract_lets keepRun t
  have hremoved : SameOutcome k s t := sameOutcome_of_without (slot := slot) rfl rfl
  split
  · split
    · exact hremoved.trans (.of_workStands (closeWindows_workStands _ _))
    · exact hremoved
  · exact hremoved

theorem watchRelease_sameOutcome (s : State) (slot : Nat) (st : Step) : SameOutcome slot s (watchRelease s slot st) := by
  unfold watchRelease
  refine SameOutcome.trans (forAll_sameOutcome (fun t e => ?_) _ _) (.of_workStands ⟨rfl, rfl⟩)
  extract_lets acc watch result counted placed written
  have hplaced : SameOutcome slot t placed := by
    refine SameOutcome.trans (b := counted) (.of_workStands ⟨rfl, rfl⟩) ?_
    exact modStep_sameOutcome counted slot _
  have hwritten : SameOutcome slot t written := by
    unfold written
    split
    · exact .refl slot t
    · exact hplaced.trans (.of_workStands ⟨rfl, rfl⟩)
  split
  · split
    · exact hwritten.trans (.of_workStands (traceTrigger_workStands _ _))
    · exact hwritten
  · exact .refl slot t

theorem noteDone_sameOutcome (s : State) (slot : Nat) : SameOutcome slot s (noteDone s slot) := by
  unfold noteDone
  split
  · exact .refl slot s
  next st hst =>
    split
    · exact .refl slot s
    extract_lets released noted
    have hreleased : SameOutcome slot s released := by
      unfold released
      split
      · exact .refl slot s
      · exact watchRelease_sameOutcome s slot st
    have hnoted : SameOutcome slot s noted := hreleased.trans (modStep_sameOutcome _ slot _)
    split
    · split
      · exact hnoted.trans (.of_workStands (pushEntry_workStands _ _ _))
      · exact hnoted
    · exact hnoted.trans (.of_workStands (pushEntry_workStands _ _ _))

theorem reopen_sameOutcome (s : State) (slot : Nat) : SameOutcome slot s (reopen s slot) := by
  unfold reopen
  split
  · exact .refl slot s
  next st hst =>
    split
    · extract_lets o written opened
      have hwritten : WorkStands s written := forAll_workStands _ s fun _ _ => ⟨rfl, rfl⟩
      exact ((SameOutcome.of_workStands hwritten).trans (modStep_sameOutcome _ slot _)).trans
        (.of_workStands ⟨rfl, rfl⟩)
    · exact .refl slot s

/-- The gate of a step that has not passed in this tick, or has failed, stays as it is. -/
theorem reopen_of_not_justPassed {st : Step} (hst : tfind s.steps slot = some st) (hpassed : justPassed s st = false) :
    reopen s slot = s := by simp [reopen, hst, hpassed]

theorem justPassed_of_undecided {st : Step} (h : Undecided st) : justPassed s st = false := by simp [justPassed, h.2]

theorem justPassed_of_failed {st : Step} {c : Code} (h : st.fail = some c) : justPassed s st = false := by simp [justPassed, h]

/-! ### The failing of a step -/

/-- The step marked as failed, before its entry is made. -/
def markFailed (s : State) (slot : Nat) (status : Code) (st : Step) : State :=
  (setState (dropWork s slot) slot (if st.state = 3 ∨ st.state = 4 ∨ st.state = 5 then 5 else 6)).modStep slot fun x =>
    { x with fail := some status, saved := [], savedPoison := [], spilled := false }

theorem failRaw_of_some {st : Step} {status : Code} (hst : tfind s.steps slot = some st) : failRaw s slot status
    = if st.fail.isSome || st.notedDone then s else noteDone (markFailed s slot status st) slot := by
  rw [failRaw, hst]
  rfl

theorem markFailed_onlySlot (s : State) (slot : Nat) (status : Code) (st : Step) : OnlySlot slot s (markFailed s slot status st) :=
  ((dropWork_sameOutcome s slot slot).trans (setState_sameOutcome _ slot _)).toOnlySlot.trans (modStep_onlySlot _ slot _)

theorem markFailed_failsWith {st : Step} (status : Code) (hst : tfind s.steps slot = some st) :
    FailsWith (markFailed s slot status st) slot status := by
  have hset := (dropWork_sameOutcome s slot slot).trans
    (setState_sameOutcome _ slot (if st.state = 3 ∨ st.state = 4 ∨ st.state = 5 then 5 else 6))
  have houtcome := hset.outcome
  rw [hst] at houtcome
  obtain ⟨st', hst', _⟩ := Option.map_eq_some_iff.1 houtcome
  exact ⟨_, tfind_modStep_self _ _ hst', rfl⟩

theorem failRaw_onlySlot (s : State) (slot : Nat) (status : Code) : OnlySlot slot s (failRaw s slot status) := by
  cases hst : tfind s.steps slot with
  | none => simpa [failRaw, hst] using OnlySlot.refl slot s
  | some st =>
    rw [failRaw_of_some hst]
    split
    · exact .refl slot s
    · exact (markFailed_onlySlot s slot status st).trans (noteDone_sameOutcome _ slot).toOnlySlot

theorem failRaw_failsWith {st : Step} (status : Code) (hst : tfind s.steps slot = some st) (h : Undecided st) :
    FailsWith (failRaw s slot status) slot status := by
  have hopen : ¬ (st.fail.isSome || st.notedDone) = true := by simp [h.1, h.2]
  rw [failRaw_of_some hst, if_neg hopen]
  exact (noteDone_sameOutcome _ slot).failsWith (markFailed_failsWith status hst)

/-- A failing step is failed, and its job, if it has one, begins to abort. -/
theorem failWith_eq_self_or (s : State) (slot : Nat) (status code : Code) :
    failWith s slot status code = s ∨ SameOutcome slot (failRaw s slot status) (failWith s slot status code) := by
  unfold failWith
  split
  · exact .inl rfl
  next st hst =>
    split
    · exact .inl rfl
    · right
      split
      · exact .of_workStands (startAbort_workStands _ _ _ _ _ _ _)
      · exact .refl slot _

theorem failWith_onlySlot (s : State) (slot : Nat) (status code : Code) : OnlySlot slot s (failWith s slot status code) := by
  obtain hself | haborts := failWith_eq_self_or s slot status code
  · rw [hself]
    exact .refl slot s
  · exact (failRaw_onlySlot s slot status).trans haborts.toOnlySlot

theorem failWith_failsWith {st : Step} (status code : Code) (hst : tfind s.steps slot = some st) (h : Undecided st) :
    FailsWith (failWith s slot status code) slot status := by
  have hraw := failRaw_failsWith status hst h
  have hopen : ¬ (st.fail.isSome || st.notedDone) = true := by simp [h.1, h.2]
  simp only [failWith, hst, if_neg hopen]
  split
  · exact (SameOutcome.of_workStands (startAbort_workStands _ _ _ _ _ _ _)).failsWith hraw
  · exact hraw

/-- The first failure stands (Table Reset-8). -/
theorem failWith_of_failed {c : Code} (status code : Code) (h : FailsWith s slot c) : failWith s slot status code = s := by
  obtain ⟨st, hst, hfail⟩ := h
  simp [failWith, hst, hfail]

/-- Reopening a step of this tick and failing it (R434). -/
def failOpen (status code : Code) (s : State) (slot : Nat) : State := failWith (reopen s slot) slot status code

theorem failOpen_onlySlot (status code : Code) (s : State) (slot : Nat) : OnlySlot slot s (failOpen status code s slot) :=
  (reopen_sameOutcome s slot).toOnlySlot.trans (failWith_onlySlot _ slot status code)

theorem failOpen_failsWith {st : Step} (status code : Code) (hst : tfind s.steps slot = some st) (h : Undecided st) :
    FailsWith (failOpen status code s slot) slot status := by
  rw [failOpen, reopen_of_not_justPassed hst (justPassed_of_undecided h)]
  exact failWith_failsWith status code hst h

theorem failOpen_of_failed {c : Code} (status code : Code) (h : FailsWith s slot c) : failOpen status code s slot = s := by
  have hfails := h
  obtain ⟨st, hst, hfail⟩ := h
  rw [failOpen, reopen_of_not_justPassed hst (justPassed_of_failed hfail)]
  exact failWith_of_failed status code hfails

end

/-! ### The failing of a list of steps -/

section
variable {f : State → Nat → State} {l : List Nat} {s : State} {j : Nat}

theorem forAll_other (hf : ∀ t k, OnlySlot k t (f t k)) (hj : j ∉ l) : tfind (forAll l f s).steps j = tfind s.steps j := by
  induction l generalizing s with
  | nil => rfl
  | cons k l ih =>
    obtain ⟨hjk, hjl⟩ := not_or.1 (mt List.mem_cons.2 hj)
    exact (ih hjl).trans ((hf s k).others j hjk)

theorem forAll_tile (hf : ∀ t k, OnlySlot k t (f t k)) (l : List Nat) (s : State) (e : Nat) :
    ((forAll l f s).tile e).withdrawn = (s.tile e).withdrawn ∧ ((forAll l f s).tile e).testing = (s.tile e).testing := by
  induction l generalizing s with
  | nil => exact ⟨rfl, rfl⟩
  | cons k l ih =>
    obtain ⟨hwithdrawn, htesting⟩ := ih (f s k)
    exact ⟨hwithdrawn.trans ((hf s k).withdrawn e), htesting.trans ((hf s k).testing e)⟩

/-- A step that has failed stays so when an operation that leaves failed steps alone is applied to any slot. -/
theorem failsWith_after {c : Code} {k : Nat} (hf : ∀ t k, OnlySlot k t (f t k)) (hfixed : ∀ t k, FailsWith t k c → f t k = t)
    (h : FailsWith s j c) : FailsWith (f s k) j c := by
  by_cases hjk : j = k
  · subst hjk
    rwa [hfixed s j h]
  · obtain ⟨st, hst, hfail⟩ := h
    exact ⟨st, ((hf s k).others j hjk).trans hst, hfail⟩

theorem forAll_failsWith_of_failed {c : Code} (hf : ∀ t k, OnlySlot k t (f t k)) (hfixed : ∀ t k, FailsWith t k c → f t k = t)
    (h : FailsWith s j c) : FailsWith (forAll l f s) j c := by
  induction l generalizing s with
  | nil => exact h
  | cons k l ih => exact ih (failsWith_after hf hfixed h)

/-- Each step of the list whose outcome is open ends as failed. -/
theorem forAll_failsWith {c : Code} {st : Step} (hf : ∀ t k, OnlySlot k t (f t k))
    (hfixed : ∀ t k, FailsWith t k c → f t k = t)
    (hfails : ∀ t, tfind t.steps j = some st → FailsWith (f t j) j c)
    (hj : j ∈ l) (hst : tfind s.steps j = some st) : FailsWith (forAll l f s) j c := by
  induction l generalizing s with
  | nil => simp at hj
  | cons k l ih =>
    by_cases hjk : j = k
    · subst hjk
      exact forAll_failsWith_of_failed (s := f s j) hf hfixed (hfails s hst)
    · exact ih ((List.mem_cons.1 hj).resolve_left hjk) (((hf s k).others j hjk).trans hst)

end

end Sys2Proof.Machine

/-! PROOFS. What a report does to the collector, and what follows from its class (R415 to R421, R430 to R432). -/

namespace Sys2Proof.Machine

open Sys2Proof.Claims

/-! ### Latching a code -/

section
variable {c : Code} {now : Nat} {x : Collector}

theorem mem_sortIn (c : Code) (n : Nat) (l : List Code) : c ∈ sortIn c n l := by
  induction n generalizing l with
  | zero => simp [sortIn]
  | succ n ih =>
    cases l with
    | nil => simp [sortIn]
    | cons x l =>
      unfold sortIn
      split
      · exact List.mem_cons_of_mem _ (ih l)
      · exact List.mem_cons_self

/-- R419: the log has a place for every code that is not corrected. -/
theorem mem_logPut (n : Nat) (log : List Code) (hclass : codeClass c ≠ 1) : c ∈ logPut n log c := by
  unfold logPut
  rw [if_neg hclass]
  split
  · exact mem_sortIn c n _
  · split <;> exact mem_sortIn c n _

theorem mem_latch_log (hclass : codeClass c ≠ 1) : c ∈ (latch now x c).log := by
  have hlogged : c ∈ (logCode now x c).log := mem_logPut _ _ hclass
  unfold latch
  rw [if_neg hclass]
  split <;> exact hlogged

@[simp] theorem latch_freeze (now : Nat) (x : Collector) (c : Code) : (latch now x c).freeze = x.freeze := by
  unfold latch
  extract_lets
  split
  · rfl
  · split <;> rfl

/-- R420: a corrected fault counts, up to 0xFFFF. -/
theorem latch_of_corrected (hclass : codeClass c = 1) : latch now x c = { logCode now x c with
    corr := tput x.corr (codeUnit c) (min 0xFFFF (tget x.corr (codeUnit c) 0 + 1)) } := by
  unfold latch
  rw [if_pos hclass]
  rfl

/-- R418: a fault that is not corrected sets its unit's bit. -/
theorem latch_status (hclass : codeClass c ≠ 1) :
    (latch now x c).status = x.status ||| BitVec.ofNat 64 (2 ^ codeUnit c) := by
  unfold latch
  rw [if_neg hclass]
  split <;> rfl

theorem latch_fatal (hclass : codeClass c = 3) :
    (latch now x c).fatal = x.fatal ||| BitVec.ofNat 64 (2 ^ codeUnit c) := by
  have hcorrected : codeClass c ≠ 1 := by omega
  have hcontained : codeClass c ≠ 2 := by omega
  unfold latch
  rw [if_neg hcorrected, if_neg hcontained]
  rfl

theorem codeUnit_lt (c : Code) : codeUnit c < 64 := Nat.mod_lt _ (by decide)

/-- The bit of the code's unit is set in a word to which it was added. -/
theorem getLsbD_or_unit (w : BitVec 64) (c : Code) : (w ||| BitVec.ofNat 64 (2 ^ codeUnit c)).getLsbD (codeUnit c) = true := by
  rw [BitVec.getLsbD_or, getLsbD_unit _ (codeUnit_lt c)]
  simp

theorem latch_status_unit (hclass : codeClass c ≠ 1) : (latch now x c).status.getLsbD (codeUnit c) = true := by
  rw [latch_status hclass]
  exact getLsbD_or_unit _ c

theorem latch_fatal_unit (hclass : codeClass c = 3) : (latch now x c).fatal.getLsbD (codeUnit c) = true := by
  rw [latch_fatal hclass]
  exact getLsbD_or_unit _ c

end

/-! ### A report -/

section
variable {s : State} {r : Report}

/-- The state in which a report has been latched, before what its class brings. -/
def latched (s : State) (r : Report) : State :=
  let t := s.modColl fun x => latch (time s) { x with recs := x.recs ++ faultRecs s r } r.code
  if r.code = 0xA501 ∨ r.code = 0xA502 then t.modAon fun a => { a with secalmN := false, secalmAt := some (time s) } else t

/-- Latching changes the collector and the alarm pin alone. -/
theorem latched_eq (s : State) (r : Report) : latched s r = { s with
    aon := { s.aon with secalmN := (latched s r).aon.secalmN, secalmAt := (latched s r).aon.secalmAt }
    coll := latch (time s) { s.coll with recs := s.coll.recs ++ faultRecs s r } r.code } := by
  unfold latched
  extract_lets
  split <;> rfl

theorem latched_coll (s : State) (r : Report) :
    (latched s r).coll = latch (time s) { s.coll with recs := s.coll.recs ++ faultRecs s r } r.code := by rw [latched_eq]
@[simp] theorem latched_steps (s : State) (r : Report) : (latched s r).steps = s.steps := by rw [latched_eq]
@[simp] theorem latched_parts (s : State) (r : Report) : (latched s r).parts = s.parts := by rw [latched_eq]
@[simp] theorem latched_gst (s : State) (r : Report) : (latched s r).gst = s.gst := by rw [latched_eq]
@[simp] theorem latched_tile (s : State) (r : Report) (e : Nat) : (latched s r).tile e = s.tile e := by
  rw [latched_eq]
  rfl
@[simp] theorem time_latched (s : State) (r : Report) : time (latched s r) = time s := by
  rw [latched_eq]
  rfl

/-- What the class of a latched fault brings (R430 to R432). -/
def reacted (t : State) (r : Report) : State :=
  if codeClass r.code = 1 then t
  else if codeClass r.code = 2 then contain t r
  else if r.code = 0xE901 ∨ r.code = 0xE902 then boundaryHold t r.code
  else fatal t r.code

theorem report_of_class_zero (hclass : codeClass r.code = 0) : report s r = s := by simp [report, hclass]

/-- R417: the collector, once initialised, latches a report of one of the 45 units and reacts to its class. -/
theorem report_of_init (hclass : codeClass r.code ≠ 0) (hunit : codeUnit r.code ≤ 44) (hinit : s.coll.init = true) :
    report s r = withIbi s (reacted (latched s r) r) := by
  have htaken : ¬ (codeClass r.code = 0 ∨ 44 < codeUnit r.code) := by omega
  simp only [report, if_neg htaken, hinit]
  rfl

section
variable (s t : State)

/-- An in-band interrupt changes nothing that the collector or the work can see. -/
theorem withIbi_eq : withIbi s t
    = { t with aon := { t.aon with vmonBoot := (withIbi s t).aon.vmonBoot }, out := (withIbi s t).out } := by
  unfold withIbi
  split <;> rfl

@[simp] theorem withIbi_coll : (withIbi s t).coll = t.coll := by rw [withIbi_eq]
@[simp] theorem withIbi_steps : (withIbi s t).steps = t.steps := by rw [withIbi_eq]
@[simp] theorem withIbi_trayReqN : (withIbi s t).aon.trayReqN = t.aon.trayReqN := by rw [withIbi_eq]
@[simp] theorem withIbi_tile (e : Nat) : (withIbi s t).tile e = t.tile e := by
  rw [withIbi_eq]
  rfl
@[simp] theorem time_withIbi : time (withIbi s t) = time t := by
  rw [withIbi_eq]
  rfl

end

/-! ### Containment -/

/-- R444: the status with which a fault fails its steps, but for a host read, a remote operation and unit 38. -/
theorem faultStatus_eq {c : Code} (hhost : c ≠ 0xA703) (hfabric : c ≠ 0xA804) (hunit : codeUnit c ≠ 38) :
    faultStatus c = 0x0C01 := by rw [faultStatus, if_neg hhost, if_neg hfabric, if_neg hunit]

/-- The partitions whose steps a fault fails. -/
def faultParts (s : State) (r : Report) : List Nat := ((faultSteps s r).filterMap fun k => (tfind s.steps k).map (·.part)).dedup

/-- The state in which the fault's steps have failed, before an engine is reset. -/
def stepsFailed (s : State) (r : Report) : State :=
  forAll (faultSteps s r) (failOpen (faultStatus r.code) r.code) (forAll (faultParts s r) traceTrigger s)

theorem stepsFailed_calm (s : State) (r : Report) : Calm s (stepsFailed s r) :=
  forAll_calm (fun _ _ h => failWith_calm _ _ _ (reopen_calm _ h)) (forAll_calm (fun _ p h => traceTrigger_calm p h) (.refl s))

theorem tracesTriggered_workStands (s : State) (l : List Nat) : WorkStands s (forAll l traceTrigger s) :=
  forAll_workStands l s traceTrigger_workStands

theorem stepsFailed_other {k : Nat} (hk : k ∉ faultSteps s r) : tfind (stepsFailed s r).steps k = tfind s.steps k := by
  rw [stepsFailed, forAll_other (failOpen_onlySlot _ _) hk, (tracesTriggered_workStands s _).1]

theorem stepsFailed_tile (s : State) (r : Report) (e : Nat) : ((stepsFailed s r).tile e).withdrawn = (s.tile e).withdrawn
    ∧ ((stepsFailed s r).tile e).testing = (s.tile e).testing := by
  have hfailed := forAll_tile (failOpen_onlySlot (faultStatus r.code) r.code) (faultSteps s r) (forAll (faultParts s r) traceTrigger s) e
  have htraced : (forAll (faultParts s r) traceTrigger s).tile e = s.tile e := by
    rw [State.tile, State.tile, (tracesTriggered_workStands s _).2]
  rwa [htraced] at hfailed

theorem stepsFailed_failsWith {k : Nat} {st : Step} (hk : k ∈ faultSteps s r) (hst : tfind s.steps k = some st)
    (hopen : Undecided st) : FailsWith (stepsFailed s r) k (faultStatus r.code) :=
  forAll_failsWith (failOpen_onlySlot _ _) (fun _ _ h => failOpen_of_failed _ _ h)
    (fun _ ht => failOpen_failsWith _ _ ht hopen) hk (by rwa [(tracesTriggered_workStands s _).1])

/-! #### A fault that no engine reset covers -/

theorem contain_of_no_engine (hengine : faultEngine r = none) : contain s r = stepsFailed s r := by
  simp only [contain, hengine]
  rfl

theorem faultEngine_of_unit (hunit : 32 ≤ codeUnit r.code) (hlink : codeUnit r.code ≠ 38) : faultEngine r = none := by
  simp [faultEngine, Nat.not_lt.2 hunit, hlink]

/-- Table Faults-5: such a fault fails the steps it names whose partition's traffic can pass the unit. -/
theorem mem_faultSteps_of_no_engine {k : Nat} {st : Step} (hengine : faultEngine r = none) (hst : tfind s.steps k = some st) :
    k ∈ faultSteps s r ↔ k ∈ r.slots ∧ passes s r st.part = true := by simp [faultSteps, hengine, hst]

/-- Whose traffic can pass a router or a module is a matter of the partitions' granules. -/
theorem passes_congr {t : State} (hparts : t.parts = s.parts) (hunit : 32 ≤ codeUnit r.code) (p : Nat) :
    passes t r p = passes s r p := by
  have howner : ∀ g, granuleOwner t g = granuleOwner s g := fun g => by rw [granuleOwner, granuleOwner, hparts]
  simp [passes, Nat.not_lt.2 hunit, tileOwner, howner]

/-! #### A fault of a tile -/

/-- Causes 0x00 to 0x0F of a compute die name a tile (Table Faults-10). -/
theorem faultEngine_of_tile (hunit : codeUnit r.code < 32) (hcause : codeCause r.code ≤ 0x0F) : faultEngine r = some r.engine := by
  simp [faultEngine, hunit, hcause]

/-- A contained fault in tile `e`, which is in service, neither of stored data nor of a transfer nor of a bound (log 71). -/
structure TileFault (s : State) (r : Report) (e : Nat) : Prop where
  engine : faultEngine r = some e
  tile : e < 2048
  data : codeCause r.code ≠ 0x02
  bound : codeCause r.code ≠ 0x0A
  transfer : codeCause r.code ≠ 0x0F
  withdrawn : (s.tile e).withdrawn ≤ 1
  testing : (s.tile e).testing = none

/-- The steps have failed, and the fault is open until its engine has been reset (R421). -/
def faultOpened (s : State) (r : Report) (e : Nat) : State :=
  (stepsFailed s r).modColl fun x => { x with openFaults := x.openFaults ++ [{ unit := codeUnit r.code, engine := e }] }

theorem faultOpened_tile (s : State) (r : Report) (e' e : Nat) : ((faultOpened s r e').tile e).withdrawn = (s.tile e).withdrawn
    ∧ ((faultOpened s r e').tile e).testing = (s.tile e).testing := stepsFailed_tile s r e

theorem faultOpened_coll (s : State) (r : Report) (e : Nat) : (faultOpened s r e).coll
    = { s.coll with openFaults := s.coll.openFaults ++ [{ unit := codeUnit r.code, engine := e }] } := by
  rw [← (stepsFailed_calm s r).collector]
  rfl

/-- A unit with an open fault is not clearable (R421). -/
theorem clearable_faultOpened (s : State) (r : Report) (e now : Nat) :
    clearable now (faultOpened s r e).coll (codeUnit r.code) = false := by simp [faultOpened_coll, clearable]

section
variable {e : Nat}

theorem withdrawnOf_tile (htile : e < 2048) (s : State) : withdrawnOf s e = (s.tile e).withdrawn := by simp [withdrawnOf, htile]

theorem testingOf_tile (htile : e < 2048) (s : State) : testingOf s e = (s.tile e).testing := by simp [testingOf, htile]

theorem setWithdrawn_tile (htile : e < 2048) (s : State) (w : Nat) : setWithdrawn s e w
    = s.modTile e fun x => { x with withdrawn := max x.withdrawn w, clock := 0, gated := true } := by simp [setWithdrawn, htile]

theorem setTesting_tile (htile : e < 2048) (s : State) (q : Option (List (Nat × Nat))) :
    setTesting s e q = s.modTile e fun x => { x with testing := q } := by simp [setTesting, htile]

/-- R448: the state in which an engine reset has failed the steps with work in the engine. -/
def engineCleared (s : State) (e : Nat) : State := forAll (stepsIn s e) (fun s k => failStep s k 0x0D02) s

theorem engineCleared_calm (s : State) (e : Nat) : Calm s (engineCleared s e) :=
  forAll_calm (fun _ _ h => failStep_calm _ _ h) (.refl s)

theorem engineCleared_tile (s : State) (e' e : Nat) : ((engineCleared s e').tile e).withdrawn = (s.tile e).withdrawn
    ∧ ((engineCleared s e').tile e).testing = (s.tile e).testing :=
  forAll_tile (fun t k => failWith_onlySlot t k 0x0D02 0) _ s e

/-- A step that has failed already keeps its status through the reset. -/
theorem engineCleared_failsWith {k : Nat} {c : Code} (h : FailsWith s k c) : FailsWith (engineCleared s e) k c :=
  forAll_failsWith_of_failed (fun t k => failWith_onlySlot t k 0x0D02 0) (fun _ _ h => failWith_of_failed 0x0D02 0 h) h

/-- R448, R449: a tile in service whose reset begins is withdrawn and runs its self-test. -/
theorem beginEngineReset_tile (htile : e < 2048) (hwithdrawn : (s.tile e).withdrawn ≤ 1) (htesting : (s.tile e).testing = none) :
    beginEngineReset s e [] = setTesting (setWithdrawn (engineCleared s e) e 1) e (some []) := by
  obtain ⟨hwithdrawn', htesting'⟩ := engineCleared_tile s e e
  have hserves : ¬ withdrawnOf (engineCleared s e) e = 2 := by
    rw [withdrawnOf_tile htile]
    omega
  have hrequests : (testingOf (engineCleared s e) e).getD [] ++ [] = [] := by
    rw [testingOf_tile htile, htesting', htesting]
    rfl
  refine (if_neg hserves).trans ?_
  exact congrArg (fun q => setTesting (setWithdrawn (engineCleared s e) e 1) e (some q)) hrequests

/-- Such a fault fails every step with work in the tile. -/
theorem TileFault.mem_faultSteps {k : Nat} (h : TileFault s r e) (hk : k ∈ stepsIn s e) : k ∈ faultSteps s r := by
  simp only [faultSteps, h.engine, if_pos h.tile, h.data, h.transfer, or_self, if_false]
  split
  · exact List.mem_dedup.2 (List.mem_append_left _ hk)
  · exact hk

/-- Table Faults-9: the tile is reset, in a global stop withdrawn until it is released. -/
theorem TileFault.contain_eq (h : TileFault s r e) : contain s r = if s.gst.stopped then setWithdrawn (faultOpened s r e) e 1
    else setTesting (setWithdrawn (engineCleared (faultOpened s r e) e) e 1) e (some []) := by
  obtain ⟨hwithdrawn, htesting⟩ := faultOpened_tile s r e e
  rw [← beginEngineReset_tile h.tile (hwithdrawn ▸ h.withdrawn) (htesting.trans h.testing)]
  have hserves : ¬ (withdrawnOf (stepsFailed s r) e = 2 ∨ e < 2048 ∧ (codeCause r.code = 0x02 ∨ codeCause r.code = 0x0A)) := by
    rw [withdrawnOf_tile h.tile, (stepsFailed_tile s r e).1]
    have := h.withdrawn
    have := h.data
    have := h.bound
    omega
  have hidle : ¬ testingOf (faultOpened s r e) e ≠ none := by
    rw [testingOf_tile h.tile, htesting, h.testing]
    simp
  have hstop : (faultOpened s r e).gst = s.gst := (stepsFailed_calm s r).stop
  rw [← hstop]
  simp only [contain, h.engine]
  exact (if_neg hserves).trans (if_neg hidle)

theorem TileFault.contain_coll (h : TileFault s r e) : (contain s r).coll = (faultOpened s r e).coll := by
  rw [h.contain_eq, setWithdrawn_tile h.tile, setWithdrawn_tile h.tile, setTesting_tile h.tile]
  split
  · rfl
  · exact (engineCleared_calm (faultOpened s r e) e).collector

/-- R449: the tile takes no work; its self-test runs, but in a global stop. -/
theorem TileFault.contain_stands (h : TileFault s r e) : ((contain s r).tile e).withdrawn = 1
    ∧ ((contain s r).tile e).testing = if s.gst.stopped then none else some [] := by
  obtain ⟨hwithdrawn, htesting⟩ := faultOpened_tile s r e e
  obtain ⟨hcleared, -⟩ := engineCleared_tile (faultOpened s r e) e e
  rw [h.contain_eq, setWithdrawn_tile h.tile, setWithdrawn_tile h.tile, setTesting_tile h.tile]
  split <;> simp [hcleared, hwithdrawn, htesting, h.withdrawn, h.testing]

theorem TileFault.contain_failsWith {k : Nat} {st : Step} (h : TileFault s r e) (hk : k ∈ stepsIn s e)
    (hst : tfind s.steps k = some st) (hopen : Undecided st) : FailsWith (contain s r) k (faultStatus r.code) := by
  have hfails : FailsWith (faultOpened s r e) k (faultStatus r.code) := stepsFailed_failsWith (h.mem_faultSteps hk) hst hopen
  rw [h.contain_eq, setWithdrawn_tile h.tile, setWithdrawn_tile h.tile, setTesting_tile h.tile]
  split
  · exact hfails
  · exact engineCleared_failsWith hfails

end

end

end Sys2Proof.Machine

/-! PROOFS. FAULT_REPORT by class of its code, and the statement about the collector's messages and reports (O51). -/

namespace Sys2Proof.Machine

open Sys2Proof.Claims

section
variable {s : State} {r : Report}

/-! ### Fatal faults -/

theorem lostNotices_calm (s : State) (c : Code) : Calm s (lostNotices s c) :=
  forAll_calm (fun _ j h => startAbort_calm j.1 j.2.1 j.2.2 0x0C01 c true h) (.refl s)

/-- The collector at the first fatal fault (R432). -/
def frozenWith (s : State) (c : Code) : Collector :=
  { s.coll with freeze := true, resetPending := true, fatalAt := time s, fatalCode := c }

@[simp] theorem lostNotices_coll (s : State) (c : Code) : (lostNotices s c).coll = s.coll := (lostNotices_calm s c).collector
@[simp] theorem lostNotices_aon (s : State) (c : Code) : (lostNotices s c).aon = s.aon := (lostNotices_calm s c).always

theorem fatal_coll (c : Code) (hfreeze : s.coll.freeze = false) : (fatal s c).coll = frozenWith s c := by
  simp [fatal, hfreeze, frozenWith, apply_ite State.coll]

/-- Beside its request for a power cycle a fatal fault leaves the always-on domain its time. -/
theorem fatal_aon (c : Code) (hfreeze : s.coll.freeze = false) : (fatal s c).aon
    = { s.aon with asleep := false, trayReqN := if codeUnit c = 41 then false else s.aon.trayReqN } := by
  simp only [fatal, hfreeze, modAon_aon, apply_ite State.aon]
  by_cases hunit : codeUnit c = 41 <;> simp [hunit]

theorem time_fatal (c : Code) (hfreeze : s.coll.freeze = false) : time (fatal s c) = time s := by
  rw [time, fatal_aon c hfreeze, time]

theorem fatal_trayReqN {c : Code} (hfreeze : s.coll.freeze = false) (hunit : codeUnit c = 41) :
    (fatal s c).aon.trayReqN = false := by rw [fatal_aon c hfreeze, if_pos hunit]

/-! ### FAULT_REPORT -/

theorem exec_faultReport (now : Nat) (r : Report) (s : State) : exec (.faultReport now r) s = execFaultReport now r s := rfl

/-- With the block out of reset the report reaches the collector. -/
theorem exec_faultReport_of_up (now : Nat) (r : Report) (haon : aonUp s = true) (hup : s.mainReset = false) :
    exec (.faultReport now r) s = .next (report (reportSide (advance s now) r) r) := by
  rw [exec_faultReport, execFaultReport, timed_of]
  simp [haon, up, hup]

/-- What a report means beyond the collector it means for a contained code of a mover or of stored data, and for 0xA805. -/
theorem reportSide_of_class (s : State) (hclass : codeClass r.code ≠ 2) : reportSide s r = s := by
  have hshut : r.code ≠ 0xA805 := fun h => hclass (by rw [h]; rfl)
  unfold reportSide
  simp only [hclass, hshut, false_and, and_false, if_false]

theorem reportSide_of_tile (s : State) (hunit : codeUnit r.code < 32) (hcause : codeCause r.code ≤ 0x0F)
    (hdata : codeCause r.code ≠ 0x02) : reportSide s r = s := by
  have hmover : codeCause r.code ≠ 0x10 := by omega
  have hshut : r.code ≠ 0xA805 := fun h => absurd hunit (by rw [h]; decide)
  unfold reportSide
  simp only [hmover, hdata, hshut, false_and, and_false, if_false]

/-- Of a unit that is no compute die it shuts at most a port. -/
theorem reportSide_of_unit (s : State) (hunit : 32 ≤ codeUnit r.code) :
    reportSide s r = { s with ports := (reportSide s r).ports } := by
  have hdie : ¬ codeUnit r.code < 32 := by omega
  unfold reportSide
  simp only [hdie, false_and, if_false]
  split <;> rfl

/-- A code of class 0 names no fault. -/
theorem faultReport_none (now : Nat) (haon : aonUp s = true) (hup : s.mainReset = false) (hclass : codeClass r.code = 0) :
    exec (.faultReport now r) s = .next (advance s now) := by
  rw [exec_faultReport_of_up now r haon hup, reportSide_of_class _ (by omega), report_of_class_zero hclass]

/-- R420: a corrected fault adds to its unit's count and to no other. -/
theorem faultReport_corrected (now : Nat) (haon : aonUp s = true) (hup : s.mainReset = false) (hinit : s.coll.init = true)
    (hunit : codeUnit r.code ≤ 44) (hclass : codeClass r.code = 1) :
    ∃ t, exec (.faultReport now r) s = .next t ∧ t.coll.status = s.coll.status ∧ t.steps = s.steps
      ∧ tget t.coll.corr (codeUnit r.code) 0 = min 0xFFFF (tget s.coll.corr (codeUnit r.code) 0 + 1)
      ∧ ∀ u, u ≠ codeUnit r.code → tget t.coll.corr u 0 = tget s.coll.corr u 0 := by
  have hexec := exec_faultReport_of_up now r haon hup
  rw [reportSide_of_class _ (by omega), report_of_init (by omega) hunit (by simpa using hinit), reacted, if_pos hclass] at hexec
  refine ⟨_, hexec, ?_⟩
  simp only [withIbi_coll, withIbi_steps, latched_coll, latched_steps, latch_of_corrected hclass, advance_coll, advance_steps,
    tget_tput_self, true_and]
  exact ⟨rfl, fun u hu => tget_tput_ne _ _ _ hu⟩

/-- R430, Table Faults-5: a contained fault that no engine reset covers. -/
theorem faultReport_contained (now : Nat) (haon : aonUp s = true) (hup : s.mainReset = false) (hinit : s.coll.init = true)
    (hunit : codeUnit r.code ≤ 44) (hclass : codeClass r.code = 2) (hdie : 32 ≤ codeUnit r.code) (hlink : codeUnit r.code ≠ 38)
    (hhost : r.code ≠ 0xA703) (hfabric : r.code ≠ 0xA804) :
    ∃ t, exec (.faultReport now r) s = .next t ∧ r.code ∈ t.coll.log ∧ t.coll.status.getLsbD (codeUnit r.code) = true
      ∧ t.coll.freeze = s.coll.freeze
      ∧ ∀ k st, tfind s.steps k = some st →
        (k ∈ r.slots → passes s r st.part = true → Undecided st → FailsWith t k 0x0C01)
        ∧ (k ∉ r.slots ∨ passes s r st.part = false → tfind t.steps k = some st) := by
  have hengine := faultEngine_of_unit hdie hlink
  have hcorrected : codeClass r.code ≠ 1 := by omega
  generalize hb : reportSide (advance s now) r = b
  have hside := reportSide_of_unit (advance s now) hdie
  rw [hb] at hside
  have hcoll : b.coll = s.coll := by rw [hside]; exact advance_coll s now
  have hsteps : b.steps = s.steps := by rw [hside]; exact advance_steps s now
  have hparts : b.parts = s.parts := by rw [hside]; exact advance_parts s now
  have hexec := exec_faultReport_of_up now r haon hup
  rw [hb, report_of_init (by omega) hunit (by rw [hcoll, hinit]), reacted, if_neg hcorrected, if_pos hclass,
    contain_of_no_engine hengine] at hexec
  refine ⟨_, hexec, ?_⟩
  have hfailed := (stepsFailed_calm (latched b r) r).collector
  simp only [withIbi_coll, hfailed, latched_coll, latch_freeze, hcoll]
  refine ⟨mem_latch_log hcorrected, latch_status_unit hcorrected, trivial, fun k st hst => ?_⟩
  have hst' : tfind (latched b r).steps k = some st := by rw [latched_steps, hsteps, hst]
  have hnamed : k ∈ faultSteps (latched b r) r ↔ k ∈ r.slots ∧ passes s r st.part = true := by
    rw [mem_faultSteps_of_no_engine hengine hst', passes_congr ((latched_parts b r).trans hparts) hdie]
  constructor
  · intro hk hpasses hopen
    have hfails := stepsFailed_failsWith (hnamed.2 ⟨hk, hpasses⟩) hst' hopen
    rw [faultStatus_eq hhost hfabric hlink] at hfails
    simpa [FailsWith] using hfails
  · intro hspared
    have hother : k ∉ faultSteps (latched b r) r := by
      rw [hnamed, not_and, Bool.not_eq_true]
      exact fun hk => hspared.resolve_left (not_not_intro hk)
    rw [withIbi_steps, stepsFailed_other hother, hst']

/-- R431, Table Faults-9: a contained fault in a tile that is in service. -/
theorem faultReport_tile (now : Nat) (haon : aonUp s = true) (hup : s.mainReset = false) (hinit : s.coll.init = true)
    (hunit : codeUnit r.code ≤ 44) (hclass : codeClass r.code = 2) (hdie : codeUnit r.code < 32) (hcause : codeCause r.code ≤ 0x0F)
    (hdata : codeCause r.code ≠ 0x02) (hbound : codeCause r.code ≠ 0x0A) (htransfer : codeCause r.code ≠ 0x0F)
    (htile : r.engine < 2048) (hwithdrawn : (s.tile r.engine).withdrawn ≤ 1) (htesting : (s.tile r.engine).testing = none) :
    ∃ t, exec (.faultReport now r) s = .next t ∧ r.code ∈ t.coll.log ∧ t.coll.status.getLsbD (codeUnit r.code) = true
      ∧ (t.tile r.engine).withdrawn = 1 ∧ (t.tile r.engine).testing = (if s.gst.stopped then none else some [])
      ∧ clearable (time t) t.coll (codeUnit r.code) = false
      ∧ ∀ k st, k ∈ stepsIn s r.engine → tfind s.steps k = some st → Undecided st → FailsWith t k 0x0C01 := by
  have hcorrected : codeClass r.code ≠ 1 := by omega
  have hengine := faultEngine_of_tile hdie hcause
  have hstatus : faultStatus r.code = 0x0C01 :=
    faultStatus_eq (fun h => absurd hdie (by rw [h]; decide)) (fun h => absurd hdie (by rw [h]; decide)) (by omega)
  generalize hb : latched (advance s now) r = b
  have hcoll : b.coll = latch (time (advance s now)) { s.coll with recs := s.coll.recs ++ faultRecs (advance s now) r } r.code := by
    rw [← hb, latched_coll, advance_coll]
  have hstands : b.tile r.engine = s.tile r.engine := by simp [← hb]
  have hwork : stepsIn b r.engine = stepsIn s r.engine := by simp [stepsIn, htile, hstands]
  have hsteps : b.steps = s.steps := by simp [← hb]
  have hstop : b.gst = s.gst := by simp [← hb]
  have hexec := exec_faultReport_of_up now r haon hup
  rw [reportSide_of_tile _ hdie hcause hdata, report_of_init (by omega) hunit (by simpa using hinit), reacted, if_neg hcorrected,
    if_pos hclass, hb] at hexec
  have hfault : TileFault b r r.engine :=
    ⟨hengine, htile, hdata, hbound, htransfer, by rwa [hstands], by rwa [hstands]⟩
  obtain ⟨hset, htests⟩ := hfault.contain_stands
  refine ⟨_, hexec, ?_⟩
  rw [withIbi_coll, withIbi_tile, hfault.contain_coll, hset, htests, hstop, clearable_faultOpened, faultOpened_coll, hcoll]
  refine ⟨mem_latch_log hcorrected, latch_status_unit hcorrected, rfl, rfl, rfl, fun k st hk hst hopen => ?_⟩
  have hfails := hfault.contain_failsWith (hwork ▸ hk) (hsteps ▸ hst) hopen
  rw [hstatus] at hfails
  simpa [FailsWith] using hfails

/-- R432: the first fatal fault but for a lost reference clock and a late power good. -/
theorem faultReport_fatal (now : Nat) (haon : aonUp s = true) (hup : s.mainReset = false) (hinit : s.coll.init = true)
    (hunit : codeUnit r.code ≤ 44) (hclass : codeClass r.code = 3) (hclock : r.code ≠ 0xE901) (hpower : r.code ≠ 0xE902)
    (hfreeze : s.coll.freeze = false) :
    ∃ t, exec (.faultReport now r) s = .next t ∧ r.code ∈ t.coll.log ∧ t.coll.freeze = true ∧ t.coll.resetPending = true
      ∧ t.coll.fatalCode = r.code ∧ t.coll.fatalAt = time t ∧ t.coll.status.getLsbD (codeUnit r.code) = true
      ∧ t.coll.fatal.getLsbD (codeUnit r.code) = true ∧ (codeUnit r.code = 41 → t.aon.trayReqN = false) := by
  have hcorrected : codeClass r.code ≠ 1 := by omega
  have hcontained : codeClass r.code ≠ 2 := by omega
  have hexec := exec_faultReport_of_up now r haon hup
  rw [reportSide_of_class _ hcontained, report_of_init (by omega) hunit (by simpa using hinit), reacted, if_neg hcorrected,
    if_neg hcontained, if_neg (not_or.2 ⟨hclock, hpower⟩)] at hexec
  have hthawed : (latched (advance s now) r).coll.freeze = false := by simp [latched_coll, hfreeze]
  refine ⟨_, hexec, ?_⟩
  simp only [withIbi_coll, time_withIbi, withIbi_trayReqN, fatal_coll _ hthawed, time_fatal _ hthawed, frozenWith, latched_coll]
  exact ⟨mem_latch_log hcorrected, trivial, trivial, trivial, trivial, latch_status_unit hcorrected, latch_fatal_unit hclass,
    fatal_trayReqN hthawed⟩

end

/-! ### The messages -/

section
variable {s : State} {m : Msg}

/-- R338, Table Mailbox-5: what FAULT_READ returns. -/
theorem faultRead_replies (h : Passes s { opcode := 0x0601, pfOnly := true, boot := 2 } m) :
    ∃ t b, exec (.faultRead m) s = .next t ∧ Replies s t m (rspTo m 0 0 b [] false)
      ∧ slice b 0 8 = toLe 8 s.coll.status.toNat ∧ slice b 8 1 = toLe 1 s.coll.log.length
      ∧ (m.boot = true → b.length = 32)
      ∧ ∀ i c, s.coll.log[i]? = some c → i < (if m.boot then 8 else 32) → fld b (16 + 2 * i) 2 = c.toNat :=
  ⟨_, faultReadBytes s.coll m.boot, exec_faultRead_of_passes h, replies_answerWith s m .., slice_faultBytes_status _ _ _,
    slice_faultBytes_count _ _ _, fun hboot => by rw [hboot, length_faultReadBytes_boot],
    fun _ _ hc hi => fld_faultBytes_code _ hc hi⟩

/-- R421, R437: what FAULT_CLEAR clears. -/
theorem faultClear_answers (h : Passes s { opcode := 0x0602, pfOnly := true, len := some 16, rsv := [(0, 8)] } m) :
    ∃ t, exec (.faultClear m) s = .next t ∧ Answered s t m (okTo m 0) ∧ t.coll.log = s.coll.log ∧ t.coll.fatal = s.coll.fatal
      ∧ (∀ k, k < 45 →
          t.coll.status.getLsbD k = (s.coll.status.getLsbD k && !(bitOf (fld m.payload 8 8) k && clearable (time s) s.coll k))
          ∧ tget t.coll.corr k 0
            = if (bitOf (fld m.payload 8 8) k && clearable (time s) s.coll k) = true then 0 else tget s.coll.corr k 0)
      ∧ t.aon.secalmN = (s.aon.secalmN || (bitOf (fld m.payload 8 8) 37 && s.aon.secalmAt != some (time s)))
      ∧ t.steps = s.steps := by
  have hfuncs := faultsCleared_funcs (take s m) (fld m.payload 8 8)
  have hcleared := cleared_clearUnits (time s) (fld m.payload 8 8) s.coll
  refine ⟨_, exec_faultClear_of_passes h, answered_answerWith hfuncs .., ?_⟩
  simp only [answerWith_take hfuncs, modFunc_coll, modFunc_aon, modFunc_steps, faultsCleared_coll, faultsCleared_secalmN,
    faultsCleared_steps, take_coll, take_aon, take_steps, time_take]
  refine ⟨by rw [hcleared.rest], by rw [hcleared.rest], fun k hk => ?_, trivial, trivial⟩
  have hstatus := hcleared.status k (by omega)
  have hcorr := hcleared.corr k
  simp only [List.mem_range, hk, decide_true, Bool.true_and] at hstatus hcorr
  exact ⟨hstatus, hcorr⟩

/-- R438: in the other life-cycle states FAULT_INJECT is refused. -/
theorem faultInject_refused
    (h : Passes s { opcode := 0x0603, pfOnly := true, len := some 8, rsv := [(0, 4)]
                    ranges := decide (fld m.payload 5 1 < checkersOf (fld m.payload 4 1)) && fld m.payload 6 2 != 0 } m)
    (hclosed : injectOpen s.life.lc = false) :
    ∃ t, exec (.faultInject m) s = .next t ∧ Replies s t m (rspTo m 0x0914 0 [] [] false) := by
  have hexec := exec_faultInject_of_passes h
  rw [hclosed, if_neg Bool.false_ne_true] at hexec
  exact ⟨_, hexec, replies_answerWith s m ..⟩

/-- R439, R440: FAULT_INJECT arms its checker, in place of an injection that was armed there. -/
theorem faultInject_arms
    (h : Passes s { opcode := 0x0603, pfOnly := true, len := some 8, rsv := [(0, 4)]
                    ranges := decide (fld m.payload 5 1 < checkersOf (fld m.payload 4 1)) && fld m.payload 6 2 != 0 } m)
    (hopen : injectOpen s.life.lc = true) :
    ∃ t x, exec (.faultInject m) s = .next t ∧ Answered s t m (okTo m 0) ∧ OthersKeep s t m ∧ x ∈ t.coll.inject
      ∧ x.unit = fld m.payload 4 1 ∧ x.checker = fld m.payload 5 1 ∧ x.events = fld m.payload 6 2
      ∧ (∀ y ∈ t.coll.inject, y.unit = fld m.payload 4 1 → y.checker = fld m.payload 5 1 → y = x)
      ∧ t = { s with lastTaken := t.lastTaken, funcs := t.funcs, coll := { s.coll with inject := t.coll.inject } } := by
  have hexec := exec_faultInject_of_passes h
  rw [hopen, if_pos rfl] at hexec
  have hfuncs := faultInjected_funcs (take s m) (injectionOf m)
  refine ⟨_, injectionOf m, hexec, answered_answerWith hfuncs .., othersKeep_answerWith hfuncs _ _ _ _ _, ?_⟩
  rw [answerWith_take hfuncs]
  exact ⟨mem_injected s.coll.inject _, rfl, rfl, rfl, fun y hy hunit hchecker => eq_of_mem_injected hy hunit hchecker, rfl⟩

end

/-- Settles O51: the messages by their answers in the state in which the request was taken, the reports by the class of the code.
A contained fault fails its steps one after another, and failing one leaves every other step and every tile's standing alone. -/
theorem faults : Obligations.Faults := by
  unfold Obligations.Faults
  refine ⟨fun s m hpasses => ?_, fun s m hpasses => ?_, fun s m hpasses => ⟨fun hfactory hreturn hopen => ?_, fun hlc => ?_⟩,
    fun s now r haon hup hinit hunit => ⟨faultReport_none now haon hup, faultReport_corrected now haon hup hinit hunit,
      faultReport_contained now haon hup hinit hunit, faultReport_tile now haon hup hinit hunit,
      faultReport_fatal now haon hup hinit hunit⟩⟩
  · exact faultRead_replies hpasses
  · exact faultClear_answers hpasses
  · refine faultInject_refused hpasses (Bool.eq_false_iff.2 fun h => ?_)
    exact ((injectOpen_iff _).1 h).elim hfactory fun h => h.elim hreturn hopen
  · exact faultInject_arms hpasses ((injectOpen_iff _).2 hlc)

end Sys2Proof.Machine

/-! PROOFS. What every command keeps of one part of the state, whatever the other parts hold. The laws of `Kept` ask for canonical
memory and a bounded collector together; the statements ask for one of them, or for neither. Here object space and the collector
each obey a predicate of one's choice that their operations respect. -/

namespace Sys2Proof.Machine

/-- A predicate on object space and one on the collector, each kept by what the operations of the model do to these two. -/
structure Law where
  memory : Mem → Prop
  collector : Collector → Prop
  memory_nil : memory []
  memory_write : ∀ {m : Mem} (a : Nat) (v : Byte), memory m → memory (mwrite m a v)
  memory_clear : ∀ {m : Mem} (a n : Nat), memory m → memory (mclear m a n)
  collector_empty : ∀ {c : Collector}, c.log = [] → c.corr = [] → collector c
  collector_reset : ∀ {c : Collector}, collector c → collector (collReset c)
  collector_same : ∀ {c d : Collector}, collector c → d.log = c.log → d.corr = c.corr → collector d
  collector_log : ∀ {c : Collector} (now : Nat) (k : Code), collector c → collector (logCode now c k)
  collector_count : ∀ {c : Collector} (u : Nat) {n : Nat}, n ≤ 0xFFFF → collector c → collector { c with corr := tput c.corr u n }

namespace Law

/-- Nothing is asked. -/
def free : Law where
  memory _ := True
  collector _ := True
  memory_nil := trivial
  memory_write _ _ _ := trivial
  memory_clear _ _ _ := trivial
  collector_empty _ _ := trivial
  collector_reset h := h
  collector_same _ _ _ := trivial
  collector_log _ _ _ := trivial
  collector_count _ _ _ _ := trivial

/-- Memory is canonical (log 5). -/
def canonical : Law := { free with
  memory := fun m => memWf m = true
  memory_nil := rfl
  memory_write := memWf_mwrite
  memory_clear := memWf_mclear }

/-- The collector is bounded (R419, R420). -/
def bounded : Law := { free with
  collector := CollKept
  collector_empty := fun hlog hcorr => ⟨by simp [hlog], by simp [hcorr]⟩
  collector_reset := fun h => ⟨h.1, by simp [collReset]⟩
  collector_same := fun h hlog hcorr => ⟨hlog ▸ h.1, hcorr ▸ h.2⟩
  collector_log := logCode_kept
  collector_count := fun u _ hn h => ⟨h.1, fun e he => (mem_tput he).elim (fun heq => heq ▸ hn) (h.2 e)⟩ }

end Law

/-- `s` has the queue `qs` and the variant `vr`, and its object space and collector obey `L`. -/
def Obeys (L : Law) (qs : List Instr) (vr : Variant) (s : State) : Prop :=
  s.pending = qs ∧ s.variant = vr ∧ L.memory s.hbm ∧ L.collector s.coll

/-- A state of which an answer speaks obeys `L`. -/
def AnsObeys (L : Law) (qs : List Instr) (vr : Variant) : Ans → Prop
  | .reply t _ _ _ _ _ => Obeys L qs vr t
  | .later t => Obeys L qs vr t
  | .refuse _ => True
  | .refuseAt _ _ => True

/-- The command is completed, by a state that obeys `L`. -/
def ResObeys (L : Law) (qs : List Instr) (vr : Variant) (r : Res) : Prop := ∃ t, r = .next t ∧ Obeys L qs vr t

section
variable {L : Law} {qs : List Instr} {vr : Variant} {s : State}

/-- A change of any other field. -/
theorem Obeys.congr {t : State} (h : Obeys L qs vr s) (h1 : t.pending = s.pending) (h2 : t.variant = s.variant) (h3 : t.hbm = s.hbm)
    (h4 : t.coll = s.coll) : Obeys L qs vr t := by
  unfold Obeys at *
  rw [h1, h2, h3, h4]
  exact h

theorem obeys_self (hmem : L.memory s.hbm) (hcoll : L.collector s.coll) : Obeys L s.pending s.variant s := ⟨rfl, rfl, hmem, hcoll⟩

/-- A state written out, or updated field by field, obeys what the state obeys from which it takes these four fields. -/
theorem obeys_upd {x_variant : Variant} {x_aon : Aon} {x_mainReset : Bool} {x_coll : Collector} {x_life : Life} {x_rails : Tab DieRail}
    {x_funcs : Tab Func} {x_lastTaken : Nat} {x_parts : Tab Part} {x_partGen : Tab Nat} {x_dieWays : Tab (List (Nat × Nat))}
    {x_caches : Tab (List CacheLine)} {x_hbmReads : List HbmRead} {x_badGranules : List Nat} {x_ctxs : Tab Ctx} {x_ctxFree :
    List Nat} {x_ctxNext : Nat} {x_queues : Tab Queue} {x_steps : Tab Step} {x_slotGen : Tab Nat} {x_quar : Tab Quar}
    {x_tiles : Tab Tile} {x_movers : Tab Mover} {x_sorters : Tab Sorter} {x_sortWait : List SortReq} {x_reducers : Tab
    Reducer} {x_addedWork : List Plan} {x_engRecs : Tab EngRec} {x_remOps : List RemOp} {x_opNext : Nat} {x_ports : Tab
    LinkPort} {x_windows : Tab Window} {x_stale : Tab Nat} {x_jobs : Tab Job} {x_hbm : Mem} {x_hbmPoison : List Nat}
    {x_scrubs : List ScrubRec} {x_grants : Grants} {x_gst : Gst} {x_pmc : Pmc} {x_power : Power} {x_host : HostPort}
    {x_stageUsed : Tab Nat} {x_stageMax : Tab Nat} {x_stageFull : Tab Nat} {x_out : List Out} {x_fresh : Nat} {x_pending :
    List Instr}
    (h : Obeys L qs vr s) (h1 : x_pending = s.pending) (h2 : x_variant = s.variant) (h3 : x_hbm = s.hbm) (h4 : x_coll = s.coll) :
    Obeys L qs vr ⟨x_variant, x_aon, x_mainReset, x_coll, x_life, x_rails, x_funcs, x_lastTaken, x_parts, x_partGen, x_dieWays, x_caches,
      x_hbmReads, x_badGranules, x_ctxs, x_ctxFree, x_ctxNext, x_queues, x_steps, x_slotGen, x_quar, x_tiles, x_movers,
      x_sorters, x_sortWait, x_reducers, x_addedWork, x_engRecs, x_remOps, x_opNext, x_ports, x_windows, x_stale, x_jobs,
      x_hbm, x_hbmPoison, x_scrubs, x_grants, x_gst, x_pmc, x_power, x_host, x_stageUsed, x_stageMax, x_stageFull, x_out,
      x_fresh, x_pending⟩ := by
  subst h1 h2 h3 h4
  exact h

/-- The same as a rewrite. -/
@[simp] theorem obeys_with {x_aon : Aon} {x_mainReset : Bool} {x_life : Life} {x_rails : Tab DieRail}
    {x_funcs : Tab Func} {x_lastTaken : Nat} {x_parts : Tab Part} {x_partGen : Tab Nat} {x_dieWays : Tab (List (Nat × Nat))}
    {x_caches : Tab (List CacheLine)} {x_hbmReads : List HbmRead} {x_badGranules : List Nat} {x_ctxs : Tab Ctx} {x_ctxFree :
    List Nat} {x_ctxNext : Nat} {x_queues : Tab Queue} {x_steps : Tab Step} {x_slotGen : Tab Nat} {x_quar : Tab Quar}
    {x_tiles : Tab Tile} {x_movers : Tab Mover} {x_sorters : Tab Sorter} {x_sortWait : List SortReq} {x_reducers : Tab
    Reducer} {x_addedWork : List Plan} {x_engRecs : Tab EngRec} {x_remOps : List RemOp} {x_opNext : Nat} {x_ports : Tab
    LinkPort} {x_windows : Tab Window} {x_stale : Tab Nat} {x_jobs : Tab Job} {x_hbmPoison : List Nat}
    {x_scrubs : List ScrubRec} {x_grants : Grants} {x_gst : Gst} {x_pmc : Pmc} {x_power : Power} {x_host : HostPort}
    {x_stageUsed : Tab Nat} {x_stageMax : Tab Nat} {x_stageFull : Tab Nat} {x_out : List Out} {x_fresh : Nat} :
    Obeys L qs vr ⟨s.variant, x_aon, x_mainReset, s.coll, x_life, x_rails, x_funcs, x_lastTaken, x_parts, x_partGen, x_dieWays, x_caches,
      x_hbmReads, x_badGranules, x_ctxs, x_ctxFree, x_ctxNext, x_queues, x_steps, x_slotGen, x_quar, x_tiles, x_movers,
      x_sorters, x_sortWait, x_reducers, x_addedWork, x_engRecs, x_remOps, x_opNext, x_ports, x_windows, x_stale, x_jobs,
      s.hbm, x_hbmPoison, x_scrubs, x_grants, x_gst, x_pmc, x_power, x_host, x_stageUsed, x_stageMax, x_stageFull, x_out,
      x_fresh, s.pending⟩ ↔ Obeys L qs vr s := Iff.rfl

@[simp] theorem obeys_modPart (k : Nat) (f : Part → Part) : Obeys L qs vr (s.modPart k f) ↔ Obeys L qs vr s := Iff.rfl
@[simp] theorem obeys_modFunc (k : Nat) (f : Func → Func) : Obeys L qs vr (s.modFunc k f) ↔ Obeys L qs vr s := Iff.rfl
@[simp] theorem obeys_modCtx (k : Nat) (f : Ctx → Ctx) : Obeys L qs vr (s.modCtx k f) ↔ Obeys L qs vr s := Iff.rfl
@[simp] theorem obeys_modQueue (k : Nat) (f : Queue → Queue) : Obeys L qs vr (s.modQueue k f) ↔ Obeys L qs vr s := Iff.rfl
@[simp] theorem obeys_modTile (k : Nat) (f : Tile → Tile) : Obeys L qs vr (s.modTile k f) ↔ Obeys L qs vr s := Iff.rfl
@[simp] theorem obeys_modSorter (k : Nat) (f : Sorter → Sorter) : Obeys L qs vr (s.modSorter k f) ↔ Obeys L qs vr s := Iff.rfl
@[simp] theorem obeys_modMover (k : Nat) (f : Mover → Mover) : Obeys L qs vr (s.modMover k f) ↔ Obeys L qs vr s := Iff.rfl
@[simp] theorem obeys_modReducer (k : Nat) (f : Reducer → Reducer) : Obeys L qs vr (s.modReducer k f) ↔ Obeys L qs vr s := Iff.rfl
@[simp] theorem obeys_modPort (k : Nat) (f : LinkPort → LinkPort) : Obeys L qs vr (s.modPort k f) ↔ Obeys L qs vr s := Iff.rfl
@[simp] theorem obeys_modWindow (k : Nat) (f : Window → Window) : Obeys L qs vr (s.modWindow k f) ↔ Obeys L qs vr s := Iff.rfl
@[simp] theorem obeys_modJob (k : Nat) (f : Job → Job) : Obeys L qs vr (s.modJob k f) ↔ Obeys L qs vr s := Iff.rfl
@[simp] theorem obeys_modRail (k : Nat) (f : DieRail → DieRail) : Obeys L qs vr (s.modRail k f) ↔ Obeys L qs vr s := Iff.rfl
@[simp] theorem obeys_modAon (f : Aon → Aon) : Obeys L qs vr (s.modAon f) ↔ Obeys L qs vr s := Iff.rfl
@[simp] theorem obeys_modLife (f : Life → Life) : Obeys L qs vr (s.modLife f) ↔ Obeys L qs vr s := Iff.rfl
@[simp] theorem obeys_modPower (f : Power → Power) : Obeys L qs vr (s.modPower f) ↔ Obeys L qs vr s := Iff.rfl
@[simp] theorem obeys_modStep (k : Nat) (f : Step → Step) : Obeys L qs vr (s.modStep k f) ↔ Obeys L qs vr s := by
  unfold State.modStep
  split <;> rfl
@[simp] theorem obeys_emit (o : Out) : Obeys L qs vr (emit s o) ↔ Obeys L qs vr s := Iff.rfl
@[simp] theorem obeys_draw : Obeys L qs vr (draw s).2 ↔ Obeys L qs vr s := Iff.rfl
@[simp] theorem obeys_drawKey : Obeys L qs vr (drawKey s).2 ↔ Obeys L qs vr s := Iff.rfl
@[simp] theorem obeys_advance (now : Nat) : Obeys L qs vr (advance s now) ↔ Obeys L qs vr s := by
  unfold advance
  split <;> rfl

theorem obeys_ite {c : Prop} [Decidable c] {a b : State} (ha : Obeys L qs vr a) (hb : Obeys L qs vr b) :
    Obeys L qs vr (if c then a else b) := by
  split <;> assumption

@[simp] theorem obeys_ite_iff {c : Prop} [Decidable c] {a b : State} :
    Obeys L qs vr (if c then a else b) ↔ (c → Obeys L qs vr a) ∧ (¬ c → Obeys L qs vr b) := by
  split <;> simp [*]

theorem draw_obeys_of {x : Nat} {t : State} (e : draw s = (x, t)) (h : Obeys L qs vr s) : Obeys L qs vr t := by
  have : t = (draw s).2 := by rw [e]
  subst this
  exact h

theorem drawKey_obeys_of {x : BitVec 256} {t : State} (e : drawKey s = (x, t)) (h : Obeys L qs vr s) : Obeys L qs vr t := by
  have : t = (drawKey s).2 := by rw [e]
  subst this
  exact h

/-- A change of the collector that leaves its log and its counters. -/
theorem modColl_obeys {f : Collector → Collector} (hf : L.collector s.coll → L.collector (f s.coll)) (h : Obeys L qs vr s) :
    Obeys L qs vr (s.modColl f) := ⟨h.1, h.2.1, h.2.2.1, hf h.2.2.2⟩

@[simp] theorem forAll_obeys {α : Type} {l : List α} {f : State → α → State} (hf : ∀ t x, Obeys L qs vr t → Obeys L qs vr (f t x))
    (h : Obeys L qs vr s) : Obeys L qs vr (forAll l f s) := by
  unfold forAll
  induction l generalizing s with
  | nil => exact h
  | cons a l ih => exact ih (hf s a h)

@[simp] theorem foldl_obeys {α : Type} {l : List α} {f : State → α → State} (hf : ∀ t x, Obeys L qs vr t → Obeys L qs vr (f t x))
    (h : Obeys L qs vr s) : Obeys L qs vr (l.foldl f s) := forAll_obeys hf h

theorem memory_writeN {m : Mem} (a : Nat) (l : List Byte) (h : L.memory m) : L.memory (mwriteN m a l) := by
  induction l generalizing m a with
  | nil => exact h
  | cons b l ih => exact ih (a + 1) (L.memory_write a b h)

theorem memory_bits {m : Mem} (base : Nat) (l : List (Nat × Nat × Nat)) (h : L.memory m) : L.memory (mbits m base l) := by
  unfold mbits
  induction l generalizing m with
  | nil => exact h
  | cons e l ih => exact ih (memory_writeN _ _ h)

end

/-! ### The operations on object space and on the collector -/

section
variable {L : Law} {qs : List Instr} {vr : Variant} {s : State}

@[simp] theorem hbmWrite_obeys (p off : Nat) (bs : List Byte) (h : Obeys L qs vr s) : Obeys L qs vr (hbmWrite s p off bs) :=
  ⟨h.1, h.2.1, memory_writeN _ _ h.2.2.1, h.2.2.2⟩

@[simp] theorem hbmClear_obeys (p off n : Nat) (h : Obeys L qs vr s) : Obeys L qs vr (hbmClear s p off n) :=
  ⟨h.1, h.2.1, L.memory_clear _ _ h.2.2.1, h.2.2.2⟩

/-- A change of the collector that leaves its log and its counters. -/
@[simp] theorem obeys_modColl {f : Collector → Collector} (hlog : (f s.coll).log = s.coll.log) (hcorr : (f s.coll).corr = s.coll.corr) :
    Obeys L qs vr (s.modColl f) ↔ Obeys L qs vr s :=
  ⟨fun h => ⟨h.1, h.2.1, h.2.2.1, L.collector_same h.2.2.2 hlog.symm hcorr.symm⟩, modColl_obeys (L.collector_same · hlog hcorr)⟩

/-- Latching a code (R417 to R420). -/
theorem latch_collector {c : Collector} (now : Nat) (k : Code) (h : L.collector c) : L.collector (latch now c k) := by
  have hlog := L.collector_log now k h
  unfold latch
  extract_lets u x
  split
  · exact L.collector_count u (Nat.min_le_left _ _) hlog
  · split <;> exact L.collector_same hlog rfl rfl

/-- Clearing what a message names (R422). -/
theorem clearUnits_collector {c : Collector} (now bits : Nat) (h : L.collector c) : L.collector (clearUnits now c bits) := by
  unfold clearUnits
  generalize List.range 45 = l
  induction l generalizing c with
  | nil => exact h
  | cons u l ih =>
    refine ih ?_
    dsimp only
    split
    · exact L.collector_same (L.collector_count u (Nat.zero_le _) h) rfl rfl
    · exact h

end

end Sys2Proof.Machine

/-! PROOFS. Every operation of the model obeys a law that the operations on object space and on the collector obey. -/

namespace Sys2Proof.Machine

variable {L : Law} {qs : List Instr} {vr : Variant} {s : State}

@[simp] theorem objWrite_obeys (p i off : Nat) (bs : List Byte) (h : Obeys L qs vr s) : Obeys L qs vr (objWrite s p i off bs) := by
  simp [objWrite, h]

@[simp] theorem count_obeys (p ev n : Nat) (h : Obeys L qs vr s) : Obeys L qs vr (count s p ev n) := by
  simp [count, h]

@[simp] theorem countGlobal_obeys (j n : Nat) (h : Obeys L qs vr s) : Obeys L qs vr (countGlobal s j n) := by
  simp [countGlobal, h]

@[simp] theorem charge_obeys (eng c cgen ns bytes e : Nat) (h : Obeys L qs vr s) : Obeys L qs vr (charge s eng c cgen ns bytes e) := by
  simp [charge, h]

@[simp] theorem traceSync_obeys (p : Nat) (h : Obeys L qs vr s) : Obeys L qs vr (traceSync s p) := by
  simp [traceSync, h]

@[simp] theorem obsSpend_obeys (p n : Nat) (h : Obeys L qs vr s) : Obeys L qs vr (obsSpend s p n) := by
  simp [obsSpend, h]

@[simp] theorem tracePut_obeys (p : Nat) (rec : List Byte) (h : Obeys L qs vr s) : Obeys L qs vr (tracePut s p rec) := by
  unfold tracePut
  repeat' first
    | with_reducible assumption
    | with_reducible apply objWrite_obeys
    | with_reducible apply obsSpend_obeys
    | with_reducible apply traceSync_obeys
    | with_reducible refine (obeys_modPart _ _).2 ?_

@[simp] theorem traceRec_obeys (p : Nat) (rec : List Byte) (h : Obeys L qs vr s) : Obeys L qs vr (traceRec s p rec) := by
  simp [traceRec, h]

@[simp] theorem traceStep_obeys (slot kind flags engine status : Nat) (h : Obeys L qs vr s) :
    Obeys L qs vr (traceStep s slot kind flags engine status) := by
  unfold traceStep
  split <;> simp +contextual [h]

@[simp] theorem traceSkein_obeys (slot kind t skein : Nat) (flags status : Nat) (h : Obeys L qs vr s) :
    Obeys L qs vr (traceSkein s slot kind t skein flags status) := by
  unfold traceSkein
  split <;> simp +contextual [h]

@[simp] theorem traceTrigger_obeys (p : Nat) (h : Obeys L qs vr s) : Obeys L qs vr (traceTrigger s p) := by
  simp [traceTrigger, h]

@[simp] theorem traceOff_obeys (p : Nat) (h : Obeys L qs vr s) : Obeys L qs vr (traceOff s p) := by
  simp [traceOff, h]

@[simp] theorem setCache_obeys (d : Nat) (l : List CacheLine) (h : Obeys L qs vr s) : Obeys L qs vr (setCache s d l) := by
  simp [setCache, h]

@[simp] theorem readLine_obeys (p line : Nat) (h : Obeys L qs vr s) : Obeys L qs vr (readLine s p line) := by
  simp [readLine, h]

@[simp] theorem writeBack_obeys (p : Nat) (c : CacheLine) (h : Obeys L qs vr s) : Obeys L qs vr (writeBack p s c) := by
  simp [writeBack, h]

@[simp] theorem fillWay_obeys (p d line way : Nat) (write : Bool) (h : Obeys L qs vr s) :
    Obeys L qs vr (fillWay s p d line way write) := by
  unfold fillWay
  repeat' first
    | with_reducible assumption
    | with_reducible apply setCache_obeys
    | with_reducible apply writeBack_obeys
    | with_reducible refine forAll_obeys (fun _ _ _ => ?_) ?_

@[simp] theorem touchLine_obeys (p : Nat) (write : Bool) (line : Nat) (h : Obeys L qs vr s) :
    Obeys L qs vr (touchLine p write s line) := by
  unfold touchLine
  repeat' first
    | with_reducible assumption
    | with_reducible refine obeys_ite ?_ ?_
    | with_reducible apply count_obeys
    | with_reducible apply fillWay_obeys
    | with_reducible apply readLine_obeys
    | split
    | refine obeys_upd ?_ rfl rfl rfl rfl

@[simp] theorem touchLines_obeys (p : Nat) (write : Bool) (lines : List Nat) (h : Obeys L qs vr s) :
    Obeys L qs vr (touchLines s p write lines) := by
  simp +contextual [touchLines, h]

@[simp] theorem flushPart_obeys (p : Nat) (h : Obeys L qs vr s) : Obeys L qs vr (flushPart s p) := by
  unfold flushPart
  repeat' first
    | with_reducible assumption
    | with_reducible apply writeBack_obeys
    | with_reducible refine foldl_obeys (fun _ _ _ => ?_) ?_
    | refine obeys_upd ?_ rfl rfl rfl rfl

@[simp] theorem cleanRange_obeys (p a n : Nat) (h : Obeys L qs vr s) : Obeys L qs vr (cleanRange s p a n) := by
  unfold cleanRange
  repeat' first
    | with_reducible assumption
    | with_reducible apply writeBack_obeys
    | with_reducible refine foldl_obeys (fun _ _ _ => ?_) ?_
    | refine obeys_upd ?_ rfl rfl rfl rfl

@[simp] theorem sendOne_obeys (p : Nat) (h : Obeys L qs vr s) : Obeys L qs vr (sendOne s p) := by
  unfold sendOne
  split <;> simp +contextual [h]

@[simp] theorem drainTx_obeys (p : Nat) (h : Obeys L qs vr s) : Obeys L qs vr (drainTx s p) := by
  simp +contextual [drainTx, h]

@[simp] theorem sendAll_obeys (p : Nat) (l : List TxMsg) (h : Obeys L qs vr s) : Obeys L qs vr (sendAll s p l) := by
  simp [sendAll, h]

@[simp] theorem sendCtl_obeys (part pkg : Nat) (route : Option (List Nat)) (o : Out) (h : Obeys L qs vr s) :
    Obeys L qs vr (sendCtl s part pkg route o) := by
  unfold sendCtl
  split
  · exact h
  · split <;> simp +contextual [h]

@[simp] theorem answerWith_obeys (f tag status detail : Nat) (payload ext : List Byte) (waits : Bool) (h : Obeys L qs vr s) :
    Obeys L qs vr (answerWith s f tag status detail payload ext waits) := by
  unfold answerWith
  split <;> simp +contextual [h]

@[simp] theorem answer_obeys (f tag status detail : Nat) (h : Obeys L qs vr s) : Obeys L qs vr (answer s f tag status detail) := by
  simp [answer, h]

@[simp] theorem answerOpt_obeys (r : Option (Nat × Nat)) (status detail : Nat) (h : Obeys L qs vr s) :
    Obeys L qs vr (answerOpt s r status detail) := by
  unfold answerOpt
  split <;> simp +contextual [h]

@[simp] theorem pushEntry_obeys (f : Nat) (e : Entry) (h : Obeys L qs vr s) : Obeys L qs vr (pushEntry s f e) := by
  simp [pushEntry, h]

@[simp] theorem accrue_obeys (slot : Nat) (h : Obeys L qs vr s) : Obeys L qs vr (accrue s slot) := by
  unfold accrue
  split <;> simp +contextual [h]

@[simp] theorem setState_obeys (slot n : Nat) (h : Obeys L qs vr s) : Obeys L qs vr (setState s slot n) := by
  simp [setState, h]

@[simp] theorem closeWindow_obeys (w : Nat) (h : Obeys L qs vr s) : Obeys L qs vr (closeWindow s w) := by
  simp [closeWindow, h]

@[simp] theorem closeWindows_obeys (c : Window → Bool) (h : Obeys L qs vr s) : Obeys L qs vr (closeWindows s c) := by
  simp +contextual [closeWindows, h]

@[simp] theorem dropWork_obeys (slot : Nat) (h : Obeys L qs vr s) : Obeys L qs vr (dropWork s slot) := by
  unfold dropWork
  repeat' first
    | with_reducible assumption
    | with_reducible apply closeWindows_obeys
    | split
    | refine obeys_upd ?_ rfl rfl rfl rfl

@[simp] theorem watchRelease_obeys (slot : Nat) (st : Step) (h : Obeys L qs vr s) : Obeys L qs vr (watchRelease s slot st) := by
  unfold watchRelease
  repeat' first
    | with_reducible assumption
    | with_reducible refine obeys_ite ?_ ?_
    | with_reducible apply objWrite_obeys
    | with_reducible apply obsSpend_obeys
    | with_reducible apply traceTrigger_obeys
    | with_reducible refine (obeys_modStep _ _).2 ?_
    | with_reducible refine (obeys_modPart _ _).2 ?_
    | with_reducible refine forAll_obeys (fun _ _ _ => ?_) ?_

@[simp] theorem noteDone_obeys (slot : Nat) (h : Obeys L qs vr s) : Obeys L qs vr (noteDone s slot) := by
  unfold noteDone
  repeat' split
  all_goals simp +contextual [h]

@[simp] theorem reopen_obeys (slot : Nat) (h : Obeys L qs vr s) : Obeys L qs vr (reopen s slot) := by
  unfold reopen
  split <;> simp +contextual [h]

@[simp] theorem failRaw_obeys (slot : Nat) (status : Code) (h : Obeys L qs vr s) : Obeys L qs vr (failRaw s slot status) := by
  unfold failRaw
  repeat' first
    | with_reducible assumption
    | with_reducible apply dropWork_obeys
    | with_reducible apply noteDone_obeys
    | with_reducible apply setState_obeys
    | with_reducible refine (obeys_modStep _ _).2 ?_
    | split

@[simp] theorem noticeTo_obeys (j : Nat) (dest : List Nat) (n : Notice) (h : Obeys L qs vr s) :
    Obeys L qs vr (noticeTo s j dest n) := by
  simp +contextual [noticeTo, h]

@[simp] theorem sendNotice_obeys (j origin : Nat) (n : Notice) (h : Obeys L qs vr s) : Obeys L qs vr (sendNotice s j origin n) := by
  simp [sendNotice, h]

@[simp] theorem startAbort_obeys (j jstep p : Nat) (cause code : Code) (lost : Bool) (h : Obeys L qs vr s) :
    Obeys L qs vr (startAbort s j jstep p cause code lost) := by
  simp [startAbort, h]

@[simp] theorem failWith_obeys (slot : Nat) (status code : Code) (h : Obeys L qs vr s) :
    Obeys L qs vr (failWith s slot status code) := by
  unfold failWith
  repeat' split
  all_goals simp +contextual [h]

@[simp] theorem failStep_obeys (slot : Nat) (status : Code) (h : Obeys L qs vr s) : Obeys L qs vr (failStep s slot status) := by
  simp [failStep, h]

@[simp] theorem failAll_obeys (c : Step → Bool) (status : Code) (h : Obeys L qs vr s) : Obeys L qs vr (failAll s c status) := by
  simp +contextual [failAll, h]

@[simp] theorem deleteJob_obeys (j : Nat) (h : Obeys L qs vr s) : Obeys L qs vr (deleteJob s j) := by
  simp [deleteJob, h]

@[simp] theorem breakJob_obeys (j : Nat) (h : Obeys L qs vr s) : Obeys L qs vr (breakJob s j) := by
  simp [breakJob, h]

@[simp] theorem signalFence_obeys (p i status : Nat) (h : Obeys L qs vr s) : Obeys L qs vr (signalFence s p i status) := by
  unfold signalFence
  repeat' first
    | with_reducible assumption
    | with_reducible apply failStep_obeys
    | with_reducible apply pushEntry_obeys
    | with_reducible refine (obeys_modPart _ _).2 ?_
    | with_reducible refine (obeys_modStep _ _).2 ?_
    | with_reducible refine forAll_obeys (fun _ _ _ => ?_) ?_
    | split

@[simp] theorem reap_obeys (p : Nat) (h : Obeys L qs vr s) : Obeys L qs vr (reap s p) := by
  simp [reap, h]

@[simp] theorem teardown_obeys (p c : Nat) (status : Code) (h : Obeys L qs vr s) : Obeys L qs vr (teardown s p c status) := by
  unfold teardown
  extract_lets x s1 owned s2 tr s3 s4 s5 s6 s7
  have h1 : Obeys L qs vr s1 := failAll_obeys _ _ h
  have h2 : Obeys L qs vr s2 := forAll_obeys (fun _ _ => signalFence_obeys _ _ _) h1
  have h3 : Obeys L qs vr s3 := obeys_ite (traceOff_obeys _ h2) h2
  have h4 : Obeys L qs vr s4 := (obeys_modPart _ _).2 h3
  have h5 : Obeys L qs vr s5 := (obeys_modCtx _ _).2 h4
  have h6 : Obeys L qs vr s6 := h5.congr rfl rfl rfl rfl
  have h7 : Obeys L qs vr s7 := (obeys_modPart _ _).2 h6
  exact answerOpt_obeys _ _ _ (reap_obeys _ h7)

@[simp] theorem sweepBobbins_obeys (p : Nat) (h : Obeys L qs vr s) : Obeys L qs vr (sweepBobbins s p) := by
  simp [sweepBobbins, h]

@[simp] theorem armMonitor_obeys (h : Obeys L qs vr s) : Obeys L qs vr (armMonitor s) := by
  simp [armMonitor, h]

@[simp] theorem finishStep_obeys (slot : Nat) (late : Bool) (h : Obeys L qs vr s) : Obeys L qs vr (finishStep s slot late) := by
  unfold finishStep
  split
  · exact h
  · rename_i st _
    extract_lets s1 s2 s3 s4 s5 ok s6 s7 s8 s9 c
    have h1 : Obeys L qs vr s1 := traceStep_obeys _ _ _ _ _ h
    have h2 : Obeys L qs vr s2 := accrue_obeys _ h1
    have h3 : Obeys L qs vr s3 := obeys_ite ((obeys_modCtx _ _).2 h2) h2
    have h4 : Obeys L qs vr s4 := h3.congr rfl rfl rfl rfl
    have h5 : Obeys L qs vr s5 := armMonitor_obeys h4
    have h6 : Obeys L qs vr s6 := forAll_obeys (fun _ _ => signalFence_obeys _ _ _) h5
    have h7 : Obeys L qs vr s7 := reap_obeys _ h6
    have h8 : Obeys L qs vr s8 := sweepBobbins_obeys _ h7
    have h9 : Obeys L qs vr s9 := obeys_ite (h8.congr rfl rfl rfl rfl) h8
    exact obeys_ite (teardown_obeys _ _ _ h9) h9

@[simp] theorem raiseIbi_obeys (h : Obeys L qs vr s) : Obeys L qs vr (raiseIbi s) := by
  simp [raiseIbi, h]

@[simp] theorem withIbi_obeys {s : State} {t : State} (h : Obeys L qs vr t) : Obeys L qs vr (withIbi s t) := by
  simp [withIbi, h]

@[simp] theorem cutFlash_obeys (h : Obeys L qs vr s) : Obeys L qs vr (cutFlash s) := by
  unfold cutFlash
  split <;> simp +contextual [h]

@[simp] theorem enterReset_obeys (cause : Nat) (code : Code) (h : Obeys L qs vr s) : Obeys L qs vr (enterReset s cause code) := by
  unfold enterReset
  extract_lets s1 first
  have h1 : Obeys L qs vr s1 := cutFlash_obeys h
  exact ⟨h1.1, h1.2.1, L.memory_nil, L.collector_reset h1.2.2.2⟩

@[simp] theorem drawKeys_obeys (h : Obeys L qs vr s) : Obeys L qs vr (drawKeys s) := by
  unfold drawKeys
  split
  rename_i k t e
  have ht : Obeys L qs vr t := drawKey_obeys_of e h
  refine forAll_obeys (fun u f hu => ?_) ((obeys_modLife _).2 ht)
  split
  rename_i k' w e'
  exact (obeys_modFunc _ _).2 (drawKey_obeys_of e' hu)

@[simp] theorem early_obeys (c : Code) (h : Obeys L qs vr s) : Obeys L qs vr (early s c) :=
  (obeys_modColl rfl rfl).2 h

@[simp] theorem beginStart_obeys (tries : Nat) (h : Obeys L qs vr s) : Obeys L qs vr (beginStart s tries) := by
  unfold beginStart
  extract_lets s1 s2 l
  have h1 : Obeys L qs vr s1 := h.congr rfl rfl rfl rfl
  have h2 : Obeys L qs vr s2 := (obeys_emit _).2 h1
  split
  extract_lets _ _ s3 s4 s5
  have h3 : Obeys L qs vr s3 := h2.congr rfl rfl rfl rfl
  have h4 : Obeys L qs vr s4 := (obeys_modAon _).2 h3
  have h5 : Obeys L qs vr s5 := obeys_ite (drawKeys_obeys h4) h4
  exact obeys_ite (early_obeys _ h5) h5

@[simp] theorem startIfFree_obeys (h : Obeys L qs vr s) : Obeys L qs vr (startIfFree s) := by
  unfold startIfFree
  exact obeys_ite (beginStart_obeys _ h) h

@[simp] theorem selfReset_obeys (cause : Nat) (code : Code) (h : Obeys L qs vr s) : Obeys L qs vr (selfReset s cause code) := by
  unfold selfReset
  exact withIbi_obeys (startIfFree_obeys (enterReset_obeys _ _ h))

@[simp] theorem setWithdrawn_obeys (e w : Nat) (h : Obeys L qs vr s) : Obeys L qs vr (setWithdrawn s e w) := by
  simp [setWithdrawn, h]

@[simp] theorem setTesting_obeys (e : Nat) (r : Option (List (Nat × Nat))) (h : Obeys L qs vr s) :
    Obeys L qs vr (setTesting s e r) := by
  simp [setTesting, h]

@[simp] theorem beginEngineReset_obeys (e : Nat) (r : List (Nat × Nat)) (h : Obeys L qs vr s) :
    Obeys L qs vr (beginEngineReset s e r) := by
  unfold beginEngineReset
  repeat' first
    | with_reducible assumption
    | with_reducible refine obeys_ite ?_ ?_
    | with_reducible apply failStep_obeys
    | with_reducible apply setTesting_obeys
    | with_reducible apply setWithdrawn_obeys
    | with_reducible refine forAll_obeys (fun _ _ _ => ?_) ?_

@[simp] theorem contain_obeys (r : Report) (h : Obeys L qs vr s) : Obeys L qs vr (contain s r) := by
  unfold contain
  repeat' first
    | with_reducible assumption
    | with_reducible apply beginEngineReset_obeys
    | with_reducible apply failWith_obeys
    | with_reducible apply reopen_obeys
    | with_reducible apply setWithdrawn_obeys
    | with_reducible apply traceTrigger_obeys
    | with_reducible refine modColl_obeys ?_ ?_
    | exact (L.collector_same · rfl rfl)
    | with_reducible refine forAll_obeys (fun _ _ _ => ?_) ?_
    | extract_lets
    | split

@[simp] theorem lostNotices_obeys (code : Code) (h : Obeys L qs vr s) : Obeys L qs vr (lostNotices s code) := by
  simp +contextual [lostNotices, h]

@[simp] theorem fatal_obeys (c : Code) (h : Obeys L qs vr s) : Obeys L qs vr (fatal s c) := by
  unfold fatal
  extract_lets first s1 s2 s3 s4
  have h1 : Obeys L qs vr s1 := obeys_ite (modColl_obeys (L.collector_same · rfl rfl) h) h
  have h2 : Obeys L qs vr s2 := obeys_ite (lostNotices_obeys _ h1) h1
  have h3 : Obeys L qs vr s3 := obeys_ite ((obeys_modLife _).2 h2) h2
  have h4 : Obeys L qs vr s4 := obeys_ite ((obeys_modAon _).2 h3) h3
  exact (obeys_modAon _).2 h4

@[simp] theorem boundaryHold_obeys (c : Code) (h : Obeys L qs vr s) : Obeys L qs vr (boundaryHold s c) := by
  simp [boundaryHold, h]

@[simp] theorem report_obeys (r : Report) (h : Obeys L qs vr s) : Obeys L qs vr (report s r) := by
  unfold report
  extract_lets u t1 t2
  have h1 : Obeys L qs vr t1 := modColl_obeys (fun hc => latch_collector _ _ (L.collector_same hc rfl rfl)) h
  have h2 : Obeys L qs vr t2 := obeys_ite ((obeys_modAon _).2 h1) h1
  clear_value t1 t2
  simp [h, h2]

@[simp] theorem reportCode_obeys (c : Code) (h : Obeys L qs vr s) : Obeys L qs vr (reportCode s c) := by
  simp [reportCode, h]

@[simp] theorem initColl_obeys (h : Obeys L qs vr s) : Obeys L qs vr (initColl s) := by
  unfold initColl
  repeat' first
    | with_reducible assumption
    | with_reducible apply report_obeys
    | with_reducible refine modColl_obeys ?_ ?_
    | exact (L.collector_same · rfl rfl)
    | with_reducible refine forAll_obeys (fun _ _ _ => ?_) ?_

@[simp] theorem readEffect_obeys (func : Nat) (r : Region) (n : Nat) {t : State} (h : Obeys L qs vr s) (ht : Obeys L qs vr t) :
    Obeys L qs vr (readEffect s func r n t) := by
  unfold readEffect
  split
  · exact h
  · exact h
  · exact ht

@[simp] theorem take_obeys (m : Msg) (h : Obeys L qs vr s) : Obeys L qs vr (take s m) := by
  simp [take, h]

@[simp] theorem requestRail_obeys (d mv : Nat) (h : Obeys L qs vr s) : Obeys L qs vr (requestRail s d mv) := by
  simp [requestRail, h]

@[simp] theorem requestRails_obeys (ds : List Nat) (h : Obeys L qs vr s) : Obeys L qs vr (requestRails s ds) := by
  simp +contextual [requestRails, h]

@[simp] theorem retune_obeys (p : Nat) (h : Obeys L qs vr s) : Obeys L qs vr (retune s p) := by
  simp [retune, h]

@[simp] theorem setClock_obeys (t n : Nat) (gated : Bool) (h : Obeys L qs vr s) : Obeys L qs vr (setClock s t n gated) := by
  simp [setClock, h]

@[simp] theorem firstTune_obeys (p : Nat) (h : Obeys L qs vr s) : Obeys L qs vr (firstTune s p) := by
  simp [firstTune, h]

@[simp] theorem startStop_obeys (src : Nat) (h : Obeys L qs vr s) : Obeys L qs vr (startStop s src) := by
  unfold startStop
  repeat' first
    | with_reducible assumption
    | with_reducible apply traceRec_obeys
    | with_reducible apply traceTrigger_obeys
    | with_reducible refine foldl_obeys (fun _ _ _ => ?_) ?_
    | refine obeys_upd ?_ rfl rfl rfl rfl

@[simp] theorem consume_obeys (u k engine : Nat) (h : Obeys L qs vr s) : Obeys L qs vr (consume s u k engine) := by
  unfold consume
  repeat' first
    | with_reducible assumption
    | with_reducible refine modColl_obeys ?_ ?_
    | exact (L.collector_same · rfl rfl)

@[simp] theorem check_obeys (u k engine : Nat) (slots : List Nat) (h : Obeys L qs vr s) : Obeys L qs vr (check s u k engine slots) := by
  simp [check, h]

@[simp] theorem healChunk_obeys (p : Nat) (b : Bobbin) (c : Nat) (h : Obeys L qs vr s) : Obeys L qs vr (healChunk s p b c) := by
  simp [healChunk, h]

@[simp] theorem settleInter_obeys (t : Option Nat) (st : Step) (i : Nat) (h : Obeys L qs vr s) :
    Obeys L qs vr (settleInter s t st i) := by
  unfold settleInter
  repeat' first
    | with_reducible assumption
    | with_reducible refine (obeys_modPart _ _).2 ?_
    | extract_lets
    | split

@[simp] theorem writeBits_obeys (pl : Place) (l : List (Nat × Nat × Nat)) (h : Obeys L qs vr s) : Obeys L qs vr (writeBits s pl l) := by
  unfold writeBits
  split
  · exact ⟨h.1, h.2.1, memory_bits _ _ h.2.2.1, h.2.2.2⟩
  · exact obeys_upd h rfl rfl rfl rfl
  · exact h

@[simp] theorem poisonPlace_obeys (pl : Place) (l : List (Nat × Nat)) (h : Obeys L qs vr s) : Obeys L qs vr (poisonPlace s pl l) := by
  unfold poisonPlace
  split
  · exact h
  · split <;> simp +contextual [h]

@[simp] theorem putAll_obeys (t slot : Nat) (l : List Put) (h : Obeys L qs vr s) : Obeys L qs vr (putAll s t slot l) := by
  unfold putAll
  repeat' first
    | with_reducible assumption
    | with_reducible apply poisonPlace_obeys
    | with_reducible apply settleInter_obeys
    | with_reducible apply writeBits_obeys
    | with_reducible refine (obeys_modStep _ _).2 ?_
    | with_reducible refine forAll_obeys (fun _ _ _ => ?_) ?_
    | extract_lets
    | split

@[simp] theorem watchOp_obeys (slot ti : Nat) (vals : List Val) (puts : List Put) (h : Obeys L qs vr s) :
    Obeys L qs vr (watchOp s slot ti vals puts) := by
  unfold watchOp
  split <;> simp +contextual [h]

@[simp] theorem withhold_obeys (slot : Nat) (h : Obeys L qs vr s) : Obeys L qs vr (withhold s slot) := by
  simp [withhold, h]

@[simp] theorem withholdOp_obeys (j m slot : Nat) (h : Obeys L qs vr s) : Obeys L qs vr (withholdOp s j m slot) := by
  unfold withholdOp
  split <;> simp +contextual [h]

@[simp] theorem skeinFault_obeys (t slot cause : Nat) (h : Obeys L qs vr s) : Obeys L qs vr (skeinFault s t slot cause) := by
  simp [skeinFault, h]

@[simp] theorem setRun_obeys (t : Nat) (r : SkeinRun) (h : Obeys L qs vr s) : Obeys L qs vr (setRun s t r) := by
  simp [setRun, h]

@[simp] theorem noteIssue_obeys (t : Nat) (i : SkInsn) (r : SkeinRun) (st : Step) (h : Obeys L qs vr s) :
    Obeys L qs vr (noteIssue s t i r st) := by
  simp [noteIssue, h]

@[simp] theorem setScalar_obeys (t : Nat) (r : SkeinRun) (d : Nat) (v : BitVec 32) (h : Obeys L qs vr s) :
    Obeys L qs vr (setScalar s t r d v) := by
  simp [setScalar, h]

@[simp] theorem spoilView_obeys (slot : Nat) (st : Step) (vi : Nat) (h : Obeys L qs vr s) : Obeys L qs vr (spoilView s slot st vi) := by
  unfold spoilView
  split <;> simp +contextual [h]

@[simp] theorem pathChecks_obeys (t slot : Nat) (hits : List Nat) (h : Obeys L qs vr s) : Obeys L qs vr (pathChecks s t slot hits) := by
  unfold pathChecks
  repeat' first
    | with_reducible assumption
    | with_reducible apply check_obeys
    | extract_lets
    | split

@[simp] theorem moved_obeys (t slot : Nat) (st : Step) (vi n : Nat) (write : Bool) (h : Obeys L qs vr s) :
    Obeys L qs vr (moved s t slot st vi n write) := by
  simp [moved, h]

@[simp] theorem copyRead_obeys (t slot : Nat) (st : Step) (a : Nat) (h : Obeys L qs vr s) : Obeys L qs vr (copyRead s t slot st a) := by
  unfold copyRead
  repeat' first
    | with_reducible assumption
    | with_reducible refine obeys_ite ?_ ?_
    | with_reducible apply check_obeys
    | with_reducible apply report_obeys
    | with_reducible apply spoilView_obeys

@[simp] theorem copyView_obeys (t slot : Nat) (st : Step) (a d : Nat) (h : Obeys L qs vr s) :
    Obeys L qs vr (copyView s t slot st a d) := by
  unfold copyView
  repeat' first
    | with_reducible assumption
    | with_reducible apply copyRead_obeys
    | with_reducible apply moved_obeys
    | with_reducible apply putAll_obeys

@[simp] theorem addPlan_obeys (q : Plan) (port : Nat) (h : Obeys L qs vr s) : Obeys L qs vr (addPlan s q port) := by
  simp [addPlan, h]

@[simp] theorem sortAccepted_obeys (q : SortReq) (h : Obeys L qs vr s) : Obeys L qs vr (sortAccepted s q) := by
  simp [sortAccepted, h]

@[simp] theorem feedSorter_obeys (d : Nat) (h : Obeys L qs vr s) : Obeys L qs vr (feedSorter s d) := by
  unfold feedSorter
  repeat' first
    | with_reducible assumption
    | with_reducible refine foldl_obeys (fun _ _ _ => ?_) ?_
    | split
    | refine obeys_upd ?_ rfl rfl rfl rfl

@[simp] theorem touchBobbins_obeys (st : Step) (h : Obeys L qs vr s) : Obeys L qs vr (touchBobbins s st) := by
  simp [touchBobbins, h]

@[simp] theorem logPlace_obeys (st : Step) (skein tile : Nat) (retired replaced : Bool) (added : Bool := false) (h : Obeys L qs vr s) :
    Obeys L qs vr (logPlace s st skein tile retired replaced added) := by
  unfold logPlace
  repeat' first
    | with_reducible assumption
    | with_reducible refine obeys_ite ?_ ?_
    | with_reducible apply objWrite_obeys
    | with_reducible apply obsSpend_obeys
    | with_reducible refine (obeys_modCtx _ _).2 ?_

theorem retire_obeys (n : Nat) (slot : Nat) (ks : List Nat) (h : Obeys L qs vr s) : Obeys L qs vr (retire n s slot ks) := by
  induction n generalizing s ks with
  | zero => exact h
  | succ n ih =>
    unfold retire
    split
    · exact h
    · split
      · exact h
      · extract_lets f here s1 idx s2
        have h1 : Obeys L qs vr s1 :=
          foldl_obeys (fun _ _ hu => obeys_ite (logPlace_obeys _ _ _ _ _ _ (count_obeys _ _ _ ((obeys_modStep _ _).2 hu))) ((obeys_modStep _ _).2 hu)) h
        exact ih _ ((obeys_modStep _ _).2 h1)

@[simp] theorem retireFalse_obeys (slot idx : Nat) (h : Obeys L qs vr s) : Obeys L qs vr (retireFalse s slot idx) := by
  unfold retireFalse
  split
  · exact h
  · exact retire_obeys _ _ _ h

@[simp] theorem closeSort_obeys (slot idx : Nat) (h : Obeys L qs vr s) : Obeys L qs vr (closeSort s slot idx) := by
  simp [closeSort, h]

@[simp] theorem evalCounts_obeys (slot idx experts : Nat) (l : List (Nat × Nat)) (h : Obeys L qs vr s) :
    Obeys L qs vr (evalCounts s slot idx experts l) := by
  simp [evalCounts, h]

@[simp] theorem swapBank_obeys (p : Nat) (cut : Bool) (h : Obeys L qs vr s) : Obeys L qs vr (swapBank s p cut) := by
  simp [swapBank, h]

@[simp] theorem swapWatch_obeys (p : Nat) (h : Obeys L qs vr s) : Obeys L qs vr (swapWatch s p) := by
  unfold swapWatch
  split <;> simp +contextual [h]

@[simp] theorem swapStaged_obeys (p : Nat) (h : Obeys L qs vr s) : Obeys L qs vr (swapStaged s p) := by
  unfold swapStaged
  repeat' first
    | with_reducible assumption
    | with_reducible apply reap_obeys
    | with_reducible apply retune_obeys
    | with_reducible apply swapWatch_obeys
    | with_reducible refine (obeys_modPart _ _).2 ?_

@[simp] theorem enterBoundary_obeys (p : Nat) (cut : Bool) (h : Obeys L qs vr s) : Obeys L qs vr (enterBoundary s p cut) := by
  simp [enterBoundary, h]

@[simp] theorem staged_obeys (p : Nat) (h : Obeys L qs vr s) : Obeys L qs vr (staged s p) := by
  simp [staged, h]

@[simp] theorem freeDead_obeys (slot : Nat) (keep : Nat → Bool) (h : Obeys L qs vr s) : Obeys L qs vr (freeDead s slot keep) := by
  simp [freeDead, h]

@[simp] theorem unplace_obeys (slot c : Nat) (h : Obeys L qs vr s) : Obeys L qs vr (unplace s slot c) := by
  unfold unplace
  split <;> simp +contextual [h]

@[simp] theorem lastDone_obeys (slot : Nat) (st : Step) (h : Obeys L qs vr s) : Obeys L qs vr (lastDone s slot st) := by
  simp [lastDone, h]

@[simp] theorem settleSkeins_obeys (slot : Nat) (h : Obeys L qs vr s) : Obeys L qs vr (settleSkeins s slot) := by
  unfold settleSkeins
  split <;> simp +contextual [h]

@[simp] theorem requestSwitch_obeys (p req : Nat) (h : Obeys L qs vr s) : Obeys L qs vr (requestSwitch s p req) := by
  unfold requestSwitch
  split
  · exact h
  · split <;> simp +contextual [h]

@[simp] theorem modBobbin_obeys (p i : Nat) (f : Bobbin → Bobbin) (h : Obeys L qs vr s) : Obeys L qs vr (modBobbin s p i f) := by
  simp [modBobbin, h]

@[simp] theorem leaveStore_obeys (p i : Nat) (h : Obeys L qs vr s) : Obeys L qs vr (leaveStore s p i) := by
  simp [leaveStore, h]

@[simp] theorem takePlaces_obeys (p i : Nat) (h : Obeys L qs vr s) : Obeys L qs vr (takePlaces s p i) := by
  simp [takePlaces, h]

@[simp] theorem wantBobbin_obeys (p i : Nat) (h : Obeys L qs vr s) : Obeys L qs vr (wantBobbin s p i) := by
  simp [wantBobbin, h]

@[simp] theorem failFetch_obeys (p i : Nat) (status : Code) (h : Obeys L qs vr s) : Obeys L qs vr (failFetch s p i status) := by
  simp +contextual [failFetch, h]

@[simp] theorem modFill_obeys (p : Nat) (f : Fill → Fill) (h : Obeys L qs vr s) : Obeys L qs vr (modFill s p f) := by
  simp [modFill, h]

@[simp] theorem askChunks_obeys (p : Nat) (b : Bobbin) (f : Fill) (cs : List Nat) (h : Obeys L qs vr s) :
    Obeys L qs vr (askChunks s p b f cs) := by
  simp +contextual [askChunks, h]

@[simp] theorem dealFill_obeys (p : Nat) (cs : List Nat) (h : Obeys L qs vr s) : Obeys L qs vr (dealFill s p cs) := by
  unfold dealFill
  split <;> simp +contextual [h]

@[simp] theorem probed_obeys (p : Nat) (h : Obeys L qs vr s) : Obeys L qs vr (probed s p) := by
  unfold probed
  split <;> simp +contextual [h]

@[simp] theorem losePeers_obeys (p : Nat) (gone : Nat → Bool) (h : Obeys L qs vr s) : Obeys L qs vr (losePeers s p gone) := by
  unfold losePeers
  split <;> simp +contextual [h]

@[simp] theorem loseHost_obeys (p : Nat) (h : Obeys L qs vr s) : Obeys L qs vr (loseHost s p) := by
  unfold loseHost
  split <;> simp +contextual [h]

@[simp] theorem probeAnswered_obeys (p pkg : Nat) (digest : BitVec 384) (chunks : List Nat) (rate : Nat) (h : Obeys L qs vr s) :
    Obeys L qs vr (probeAnswered s p pkg digest chunks rate) := by
  unfold probeAnswered
  split <;> simp +contextual [h]

@[simp] theorem serveChunks_obeys (pkg : Nat) (digest : BitVec 384) (chunks : List Nat) (h : Obeys L qs vr s) :
    Obeys L qs vr (serveChunks s pkg digest chunks) := by
  unfold serveChunks
  split
  · exact h
  · split <;> simp +contextual [draw, h]

@[simp] theorem refetch_obeys (p chunk src : Nat) (h : Obeys L qs vr s) : Obeys L qs vr (refetch s p chunk src) := by
  unfold refetch
  split <;> simp +contextual [h]

@[simp] theorem writeBacking_obeys (p i : Nat) (h : Obeys L qs vr s) : Obeys L qs vr (writeBacking s p i) := by
  unfold writeBacking
  extract_lets
  split <;> simp +contextual [h]

@[simp] theorem removeBobbin_obeys (p i : Nat) (h : Obeys L qs vr s) : Obeys L qs vr (removeBobbin s p i) := by
  simp [removeBobbin, h]

@[simp] theorem keepGrowth_obeys (free : Bool) (h : Obeys L qs vr s) : Obeys L qs vr (keepGrowth s free) := by
  simp [keepGrowth, h]

@[simp] theorem note902_obeys (h : Obeys L qs vr s) : Obeys L qs vr (note902 s) :=
  (obeys_modLife _).2 (modColl_obeys (L.collector_log _ _) h)

@[simp] theorem pwrRise_obeys (h : Obeys L qs vr s) : Obeys L qs vr (pwrRise s) := by
  simp [pwrRise, h]

@[simp] theorem aonDown_obeys (h : Obeys L qs vr s) : Obeys L qs vr (aonDown s) := by
  obtain ⟨hqueue, hvariant, hmem, -⟩ := enterReset_obeys 0 0 h
  exact ⟨hqueue, hvariant, hmem, L.collector_empty rfl rfl⟩

@[simp] theorem beginWarm_obeys (h : Obeys L qs vr s) : Obeys L qs vr (beginWarm s) := by
  simp [beginWarm, h]

@[simp] theorem failStart_obeys (cause : Nat) (code : Code) (h : Obeys L qs vr s) : Obeys L qs vr (failStart s cause code) := by
  simp [failStart, h]

@[simp] theorem wakeUp_obeys (h : Obeys L qs vr s) : Obeys L qs vr (wakeUp s) := by
  simp [wakeUp, h]

@[simp] theorem takeAsk_obeys (h i : Nat) (ms : List (Nat × Nat)) (sets : List Nat) (hs : Obeys L qs vr s) :
    Obeys L qs vr (takeAsk s h i ms sets) := by
  unfold takeAsk
  repeat' first
    | with_reducible assumption
    | with_reducible apply sendCtl_obeys
    | with_reducible refine (obeys_modJob _ _).2 ?_
    | split

@[simp] theorem setTable_obeys (j : Nat) (table : Tab (List Nat)) (h : Obeys L qs vr s) : Obeys L qs vr (setTable s j table) := by
  simp [setTable, h]

@[simp] theorem installRoutes_obeys (j : Nat) (h : Obeys L qs vr s) : Obeys L qs vr (installRoutes s j) := by
  simp +contextual [installRoutes, h]

@[simp] theorem dropJob_obeys (j : Nat) (h : Obeys L qs vr s) : Obeys L qs vr (dropJob s j) := by
  unfold dropJob
  repeat' first
    | with_reducible assumption
    | with_reducible apply deleteJob_obeys
    | with_reducible apply sendCtl_obeys
    | with_reducible refine forAll_obeys (fun _ _ _ => ?_) ?_

@[simp] theorem takeAnswer_obeys (h i : Nat) (ok : Bool) (pgen startNo store rest : Nat) (hs : Obeys L qs vr s) :
    Obeys L qs vr (takeAnswer s h i ok pgen startNo store rest) := by
  unfold takeAnswer
  repeat' first
    | with_reducible assumption
    | with_reducible apply answerOpt_obeys
    | with_reducible apply breakJob_obeys
    | with_reducible apply dropJob_obeys
    | with_reducible apply installRoutes_obeys
    | with_reducible refine (obeys_modJob _ _).2 ?_
    | extract_lets
    | split

theorem takeProgress_obeys {h jstep : Nat} {f : State → Nat → State} (hf : ∀ t k, Obeys L qs vr t → Obeys L qs vr (f t k))
    (hs : Obeys L qs vr s) : Obeys L qs vr (takeProgress s h jstep f) := by
  unfold takeProgress
  split
  · exact hs
  · exact forAll_obeys (fun _ _ hu => settleSkeins_obeys _ (hf _ _ hu)) hs

@[simp] theorem serveFetch_obeys (x : FetchAsk) (h : Obeys L qs vr s) : Obeys L qs vr (serveFetch s x) := by
  unfold serveFetch
  repeat' first
    | with_reducible assumption
    | with_reducible apply sendAll_obeys
    | with_reducible apply touchLines_obeys
    | with_reducible refine forAll_obeys (fun _ _ _ => ?_) ?_
    | extract_lets
    | split

@[simp] theorem takeCtl_obeys (c : Ctl) (h : Obeys L qs vr s) : Obeys L qs vr (takeCtl s c) := by
  unfold takeCtl
  split
  · exact obeys_ite (probeAnswered_obeys _ _ _ _ _ h) h
  · exact serveChunks_obeys _ _ _ h
  · exact takeAsk_obeys _ _ _ _ h
  · exact takeAnswer_obeys _ _ _ _ _ _ _ h
  · split
    · exact setTable_obeys _ _ h
    · exact h
  · split
    · exact deleteJob_obeys _ h
    · exact h
  · split
    · exact (obeys_modJob _ _).2 h
    · exact h
  · exact takeProgress_obeys (fun _ _ hu => (obeys_modStep _ _).2 hu) h
  · exact takeProgress_obeys (fun _ _ hu => evalCounts_obeys _ _ _ _ hu) h
  · exact serveFetch_obeys _ h

@[simp] theorem tell_obeys (part pkg : Nat) (route : Option (List Nat)) (c : Ctl) (h : Obeys L qs vr s) :
    Obeys L qs vr (tell s part pkg route c) := by
  simp [tell, h]

@[simp] theorem tellPeers_obeys (st : Step) (c : Nat → Nat → Ctl) (h : Obeys L qs vr s) : Obeys L qs vr (tellPeers s st c) := by
  unfold tellPeers
  split <;> simp +contextual [h]

@[simp] theorem writeSort_obeys (p : Nat) (d : SortDesc) (cands : List (List Nat)) (r : SortRun) (remoteCells : Nat) (h : Obeys L qs vr s) :
    Obeys L qs vr (writeSort s p d cands r remoteCells) := by
  unfold writeSort
  repeat' first
    | with_reducible assumption
    | with_reducible apply hbmWrite_obeys
    | with_reducible apply touchLines_obeys
    | with_reducible refine forAll_obeys (fun _ _ _ => ?_) ?_

@[simp] theorem requestDone_obeys (slot : Nat) (h : Obeys L qs vr s) : Obeys L qs vr (requestDone s slot) := by
  simp [requestDone, h]

@[simp] theorem sendBuckets_obeys (q : SortReq) (die : Nat) (d : SortDesc) (cands : List (List Nat)) (r : SortRun) (j : Nat) (h : Obeys L qs vr s) :
    Obeys L qs vr (sendBuckets s q die d cands r j) := by
  unfold sendBuckets
  repeat' first
    | with_reducible assumption
    | with_reducible apply sendAll_obeys
    | with_reducible apply withholdOp_obeys
    | with_reducible refine foldl_obeys (fun _ _ _ => ?_) ?_
    | extract_lets
    | split
    | refine obeys_upd ?_ rfl rfl rfl rfl

@[simp] theorem settleExpert_obeys (slot idx e : Nat) (h : Obeys L qs vr s) : Obeys L qs vr (settleExpert s slot idx e) := by
  unfold settleExpert
  split
  · exact h
  · split <;> simp +contextual [h]

@[simp] theorem sortCounted_obeys (q : SortReq) (d : SortDesc) (r : SortRun) (h : Obeys L qs vr s) :
    Obeys L qs vr (sortCounted s q d r) := by
  simp +contextual [sortCounted, h]

@[simp] theorem writeUnits_obeys (o : RemOp) (c : Coll) (e : Nat) (us : List (List Byte × Bool)) (h : Obeys L qs vr s) :
    Obeys L qs vr (writeUnits s o c e us) := by
  unfold writeUnits
  split <;> simp +contextual [h]

@[simp] theorem sendUnits_obeys (eng : Nat) (o : RemOp) (c : Coll) (rev : Bool) (n pos : Nat) (us : List (List Byte × Bool)) (h : Obeys L qs vr s) :
    Obeys L qs vr (sendUnits s eng o c rev n pos us) := by
  unfold sendUnits
  extract_lets
  split <;> simp +contextual [h]

@[simp] theorem flowStart_obeys (eng : Nat) (o : RemOp) (c : Coll) (rev : Bool) (h : Obeys L qs vr s) :
    Obeys L qs vr (flowStart s eng o c rev) := by
  simp [flowStart, h]

@[simp] theorem takeSums_obeys (eng : Nat) (o : RemOp) (c : Coll) (rev : Bool) (e : Nat) (vs : List (Nat × Bool)) (h : Obeys L qs vr s) :
    Obeys L qs vr (takeSums s eng o c rev e vs) := by
  simp [takeSums, h]

@[simp] theorem takeUnits_obeys (eng : Nat) (o : RemOp) (c : Coll) (rev : Bool) (e : Nat) (us : List (List Byte × Bool)) (h : Obeys L qs vr s) :
    Obeys L qs vr (takeUnits s eng o c rev e us) := by
  simp [takeUnits, h]

@[simp] theorem takeChunk_obeys (eng : Nat) (o : RemOp) (c : Coll) (rev : Bool) (x : Chunk) (h : Obeys L qs vr s) :
    Obeys L qs vr (takeChunk s eng o c rev x) := by
  unfold takeChunk
  repeat' first
    | with_reducible assumption
    | with_reducible refine obeys_ite ?_ ?_
    | with_reducible apply takeSums_obeys
    | with_reducible apply takeUnits_obeys
    | refine obeys_upd ?_ rfl rfl rfl rfl

@[simp] theorem collArrive_obeys (o : RemOp) (x : Chunk) (h : Obeys L qs vr s) : Obeys L qs vr (collArrive s o x) := by
  unfold collArrive
  repeat' first
    | with_reducible assumption
    | with_reducible refine obeys_ite ?_ ?_
    | with_reducible apply takeChunk_obeys
    | with_reducible refine forAll_obeys (fun _ _ _ => ?_) ?_
    | split
    | refine obeys_upd ?_ rfl rfl rfl rfl

@[simp] theorem planRun_obeys (eng : Nat) (q : Plan) (h : Obeys L qs vr s) : Obeys L qs vr (planRun s eng q) := by
  unfold planRun
  repeat' first
    | with_reducible assumption
    | with_reducible refine obeys_ite ?_ ?_
    | with_reducible apply flowStart_obeys
    | with_reducible apply takeChunk_obeys
    | with_reducible refine foldl_obeys (fun _ _ _ => ?_) ?_
    | split
    | refine obeys_upd ?_ rfl rfl rfl rfl

@[simp] theorem traceAdded_obeys (q : Plan) (kind t : Nat) (h : Obeys L qs vr s) : Obeys L qs vr (traceAdded s q kind t) := by
  unfold traceAdded
  split <;> simp +contextual [h]

theorem newOp_obeys (slot t skein kind member dst want port : Nat) (added : Bool) (coll : Option Coll) (h : Obeys L qs vr s) :
    Obeys L qs vr (newOp s slot t skein kind member dst want port added coll).2 := by
  unfold newOp
  dsimp only [draw]
  refine obeys_upd (s := ite _ _ _) ?_ rfl rfl rfl rfl
  refine obeys_ite (obeys_upd (s := ite _ _ _) ?_ rfl rfl rfl rfl) ?_
  all_goals exact obeys_ite (traceStep_obeys _ _ _ _ _ (obeys_draw.2 h)) (obeys_draw.2 h)

theorem newOp_obeys_of {slot t skein kind member dst want port : Nat} {added : Bool} {coll : Option Coll} {x : RemOp} {u : State}
    (e : newOp s slot t skein kind member dst want port added coll = (x, u)) (h : Obeys L qs vr s) : Obeys L qs vr u := by
  have : u = (newOp s slot t skein kind member dst want port added coll).2 := by rw [e]
  subst this
  exact newOp_obeys _ _ _ _ _ _ _ _ _ _ h

@[simp] theorem addBuf_obeys (t slot i base n : Nat) (h : Obeys L qs vr s) : Obeys L qs vr (addBuf s t slot i base n) := by
  simp [addBuf, h]

@[simp] theorem seedTile_obeys (t slot : Nat) (h : Obeys L qs vr s) : Obeys L qs vr (seedTile s t slot) := by
  simp [seedTile, h]

@[simp] theorem closeSkipped_obeys (slot : Nat) (idx : List Nat) (h : Obeys L qs vr s) : Obeys L qs vr (closeSkipped s slot idx) := by
  unfold closeSkipped
  repeat' first
    | with_reducible assumption
    | with_reducible apply closeSort_obeys
    | with_reducible refine forAll_obeys (fun _ _ _ => ?_) ?_
    | extract_lets
    | split

@[simp] theorem splitSend_obeys (t skein slot : Nat) (st : Step) (j v m : Nat) (h : Obeys L qs vr s) :
    Obeys L qs vr (splitSend s t skein slot st j v m) := by
  unfold splitSend
  split
  · exact withholdOp_obeys _ _ _ h
  · extract_lets f src
    split
    rename_i e
    split
    rename_i e'
    exact sendAll_obeys _ _ ((obeys_modStep _ _).2 (draw_obeys_of e' (newOp_obeys_of e h)))

@[simp] theorem splitSkein_obeys (t skein slot : Nat) (h : Obeys L qs vr s) : Obeys L qs vr (splitSkein s t skein slot) := by
  unfold splitSkein
  split
  · exact h
  · split <;> simp +contextual [h]

@[simp] theorem skeinDone_obeys (t : Nat) (r : SkeinRun) (st : Step) (h : Obeys L qs vr s) : Obeys L qs vr (skeinDone s t r st) := by
  unfold skeinDone
  extract_lets f k s1 s2 s3
  have h3 : Obeys L qs vr s3 := traceSkein_obeys _ _ _ _ _ _ ((obeys_modStep _ _).2 ((obeys_modTile _ _).2 h))
  clear_value s3
  exact settleSkeins_obeys _ (splitSkein_obeys _ _ _ (closeSkipped_obeys _ _ (charge_obeys _ _ _ _ _ _ (count_obeys _ _ _
    (count_obeys _ _ _ (count_obeys _ _ _ (obeys_draw.2 (obeys_draw.2 (obeys_draw.2 h3)))))))))

@[simp] theorem closeWin_obeys (t : Nat) (vector : Bool) (h : Obeys L qs vr s) : Obeys L qs vr (closeWin s t vector) := by
  simp [closeWin, h]

@[simp] theorem dropPort_obeys (p : Nat) (code : Code) (h : Obeys L qs vr s) : Obeys L qs vr (dropPort s p code) := by
  unfold dropPort
  repeat' first
    | with_reducible assumption
    | with_reducible apply failWith_obeys
    | with_reducible apply losePeers_obeys
    | with_reducible refine (obeys_modPort _ _).2 ?_
    | with_reducible refine forAll_obeys (fun _ _ _ => ?_) ?_

@[simp] theorem frameFailure_obeys (port : Nat) (h : Obeys L qs vr s) : Obeys L qs vr (frameFailure s port) := by
  simp [frameFailure, h]

@[simp] theorem staleArrival_obeys (window : Nat) (h : Obeys L qs vr s) : Obeys L qs vr (staleArrival s window) := by
  simp [staleArrival, h]

@[simp] theorem modSkeinRun_obeys (o : RemOp) (f : SkeinRun → SkeinRun) (h : Obeys L qs vr s) : Obeys L qs vr (modSkeinRun s o f) := by
  simp [modSkeinRun, h]

@[simp] theorem moverDone_obeys (o : RemOp) (h : Obeys L qs vr s) : Obeys L qs vr (moverDone s o) := by
  unfold moverDone
  split <;> simp +contextual [h]

@[simp] theorem splitDone_obeys (o : RemOp) (h : Obeys L qs vr s) : Obeys L qs vr (splitDone s o) := by
  unfold splitDone
  split
  · exact h
  · split <;> simp +contextual [h]

@[simp] theorem endOp_obeys (o : RemOp) (h : Obeys L qs vr s) : Obeys L qs vr (endOp s o) := by
  unfold endOp
  repeat' first
    | with_reducible assumption
    | with_reducible apply moverDone_obeys
    | with_reducible apply splitDone_obeys
    | split
    | refine obeys_upd ?_ rfl rfl rfl rfl

@[simp] theorem fetchDone_obeys (o : RemOp) (h : Obeys L qs vr s) : Obeys L qs vr (fetchDone s o) := by
  unfold fetchDone
  split <;> simp +contextual [h]

@[simp] theorem progress_obeys (o : RemOp) (kind pos : Nat) (data : List Byte) (bad : List Nat) (h : Obeys L qs vr s) :
    Obeys L qs vr (progress s o kind pos data bad) := by
  simp [progress, h]

@[simp] theorem poisonLines_obeys (p : Nat) (l : List Nat) (h : Obeys L qs vr s) : Obeys L qs vr (poisonLines s p l) := by
  simp [poisonLines, h]

@[simp] theorem arrive_obeys (port qp kind gen window pos bytes : Nat) (data : List Byte) (bad : List Nat) (h : Obeys L qs vr s) :
    Obeys L qs vr (arrive s port qp kind gen window pos bytes data bad) := by
  unfold arrive
  repeat' first
    | with_reducible assumption
    | with_reducible refine obeys_ite ?_ ?_
    | with_reducible apply count_obeys
    | with_reducible apply countGlobal_obeys
    | with_reducible apply hbmWrite_obeys
    | with_reducible apply poisonLines_obeys
    | with_reducible apply progress_obeys
    | with_reducible apply reportCode_obeys
    | with_reducible apply staleArrival_obeys
    | with_reducible apply touchLines_obeys
    | with_reducible refine (obeys_modPort _ _).2 ?_
    | extract_lets
    | split

@[simp] theorem startAdded_obeys (t : Nat) (q : Plan) (h : Obeys L qs vr s) : Obeys L qs vr (startAdded s t q) := by
  unfold startAdded
  split <;> simp +contextual [h]

@[simp] theorem endPlan_obeys (engine busy : Nat) (q : Plan) (st : Step) (o : RemOp) (h : Obeys L qs vr s) :
    Obeys L qs vr (endPlan s engine busy q st o) := by
  unfold endPlan
  repeat' first
    | with_reducible assumption
    | with_reducible refine obeys_ite ?_ ?_
    | with_reducible apply charge_obeys
    | with_reducible apply endOp_obeys
    | with_reducible apply traceAdded_obeys
    | with_reducible apply traceStep_obeys
    | refine obeys_upd ?_ rfl rfl rfl rfl

theorem ensureShard_obeys {p : Nat} {parent : BitVec 384} {img : List Byte} {share : Bool} {set : Nat} {q : Nat × Nat × Nat × Nat}
    (h : Obeys L qs vr s) : Obeys L qs vr (ensureShard s p parent img share set q).1 := by
  unfold ensureShard
  extract_lets cs d
  split
  · exact h
  · split
    · exact h
    · exact modBobbin_obeys _ _ _ h

theorem shardFor_obeys {p j i : Nat} (h : Obeys L qs vr s) : Obeys L qs vr (shardFor s p j i).1 := by
  unfold shardFor
  split
  · exact h
  · extract_lets b
    split
    · exact h
    · exact ensureShard_obeys h

theorem onShard_obeys {j : Nat} {st : Step} (h : Obeys L qs vr s) : Obeys L qs vr (onShard s j st).1 := by
  unfold onShard
  split
  · exact h
  · exact shardFor_obeys h

theorem onShard_obeys_of {j : Nat} {st : Step} {x : State × Step} (e : onShard s j st = x) (h : Obeys L qs vr s) :
    Obeys L qs vr x.1 := by
  subst e
  exact onShard_obeys h

@[simp] theorem takeSplit_obeys (p j : Nat) (x : Split) (h : Obeys L qs vr s) : Obeys L qs vr (takeSplit s p j x) := by
  unfold takeSplit
  extract_lets s1
  have h1 : Obeys L qs vr s1 := (obeys_modJob _ _).2 h
  clear_value s1
  split
  · exact h1
  · split
    · exact h1
    · exact ensureShard_obeys h1

@[simp] theorem modProg_obeys (p i : Nat) (f : Program → Program) (h : Obeys L qs vr s) : Obeys L qs vr (modProg s p i f) := by
  simp [modProg, h]

@[simp] theorem dropProgram_obeys (p i : Nat) (h : Obeys L qs vr s) : Obeys L qs vr (dropProgram s p i) := by
  simp [dropProgram, h]

@[simp] theorem askMembers_obeys (j p : Nat) (h : Obeys L qs vr s) : Obeys L qs vr (askMembers s j p) := by
  simp +contextual [askMembers, h]

@[simp] theorem takeWays_obeys (p : Nat) (x : Part) (h : Obeys L qs vr s) : Obeys L qs vr (takeWays s p x) := by
  simp [takeWays, h]

@[simp] theorem abandonRequests_obeys (p : Nat) (h : Obeys L qs vr s) : Obeys L qs vr (abandonRequests s p) := by
  unfold abandonRequests
  repeat' first
    | with_reducible assumption
    | with_reducible apply answer_obeys
    | with_reducible refine forAll_obeys (fun _ _ _ => ?_) ?_

@[simp] theorem closeGrants_obeys (p : Nat) (h : Obeys L qs vr s) : Obeys L qs vr (closeGrants s p) := by
  simp [closeGrants, h]

@[simp] theorem dropQueues_obeys (p : Nat) (h : Obeys L qs vr s) : Obeys L qs vr (dropQueues s p) := by
  simp [dropQueues, h]

@[simp] theorem stopServing_obeys (p : Nat) (h : Obeys L qs vr s) : Obeys L qs vr (stopServing s p) := by
  simp [stopServing, h]

@[simp] theorem beginDestroy_obeys (p : Nat) (r : Nat × Nat) (h : Obeys L qs vr s) : Obeys L qs vr (beginDestroy s p r) := by
  unfold beginDestroy
  repeat' first
    | with_reducible assumption
    | with_reducible apply closeWindows_obeys
    | with_reducible apply dropJob_obeys
    | with_reducible apply teardown_obeys
    | with_reducible apply traceOff_obeys
    | with_reducible refine foldl_obeys (fun _ _ _ => ?_) ?_
    | split
    | refine obeys_upd ?_ rfl rfl rfl rfl

@[simp] theorem scrubRecord_obeys (kind p : Nat) (gs : List Nat) (h : Obeys L qs vr s) : Obeys L qs vr (scrubRecord s kind p gs) := by
  simp [scrubRecord, h]

@[simp] theorem clearTiles_obeys (p : Nat) (h : Obeys L qs vr s) : Obeys L qs vr (clearTiles s p) := by
  simp [clearTiles, h]

@[simp] theorem idleTiles_obeys (p : Nat) (h : Obeys L qs vr s) : Obeys L qs vr (idleTiles s p) := by
  simp +contextual [idleTiles, h]

@[simp] theorem endPartitionReset_obeys (p : Nat) (h : Obeys L qs vr s) : Obeys L qs vr (endPartitionReset s p) := by
  unfold endPartitionReset
  split <;> simp +contextual [h]

@[simp] theorem joinReset_obeys (p : Nat) (l : List (Nat × Nat × Option Nat)) (h : Obeys L qs vr s) :
    Obeys L qs vr (joinReset s p l) := by
  simp [joinReset, h]

@[simp] theorem resetPartition_obeys (p : Nat) (l : List (Nat × Nat × Option Nat)) (h : Obeys L qs vr s) :
    Obeys L qs vr (resetPartition s p l) := by
  unfold resetPartition
  repeat' first
    | with_reducible assumption
    | with_reducible refine obeys_ite ?_ ?_
    | with_reducible apply beginEngineReset_obeys
    | with_reducible apply clearTiles_obeys
    | with_reducible apply closeWindows_obeys
    | with_reducible apply endPartitionReset_obeys
    | with_reducible apply failAll_obeys
    | with_reducible apply flushPart_obeys
    | with_reducible apply joinReset_obeys
    | with_reducible refine (obeys_modPart _ _).2 ?_
    | with_reducible refine forAll_obeys (fun _ _ _ => ?_) ?_

@[simp] theorem strandedSorts_obeys (h : Obeys L qs vr s) : Obeys L qs vr (strandedSorts s) := by
  simp +contextual [strandedSorts, h]

@[simp] theorem withdraw_obeys (e : Nat) (h : Obeys L qs vr s) : Obeys L qs vr (withdraw s e) := by
  simp +contextual [withdraw, h]

@[simp] theorem reinit_obeys (e : Nat) (h : Obeys L qs vr s) : Obeys L qs vr (reinit s e) := by
  simp [reinit, h]

@[simp] theorem answerTest_obeys (pass : Bool) (r : Nat × Nat) (h : Obeys L qs vr s) : Obeys L qs vr (answerTest s pass r) := by
  unfold answerTest
  extract_lets
  split <;> simp +contextual [h]

@[simp] theorem finishTest_obeys (e : Nat) (pass : Bool) (h : Obeys L qs vr s) : Obeys L qs vr (finishTest s e pass) := by
  unfold finishTest
  repeat' first
    | with_reducible assumption
    | with_reducible refine obeys_ite ?_ ?_
    | with_reducible apply reinit_obeys
    | with_reducible apply reportCode_obeys
    | with_reducible apply setTesting_obeys
    | with_reducible apply withdraw_obeys
    | with_reducible refine modColl_obeys ?_ ?_
    | exact (L.collector_same · rfl rfl)
    | with_reducible refine foldl_obeys (fun _ _ _ => ?_) ?_
    | split
    | refine obeys_upd ?_ rfl rfl rfl rfl

@[simp] theorem startupFail_obeys (e : Nat) (h : Obeys L qs vr s) : Obeys L qs vr (startupFail s e) := by
  simp [startupFail, h]

@[simp] theorem startBlockReset_obeys (h : Obeys L qs vr s) : Obeys L qs vr (startBlockReset s) := by
  simp [startBlockReset, h]

@[simp] theorem releaseReservations_obeys (p : Nat) (h : Obeys L qs vr s) : Obeys L qs vr (releaseReservations s p) := by
  simp [releaseReservations, h]

@[simp] theorem reportSide_obeys (r : Report) (h : Obeys L qs vr s) : Obeys L qs vr (reportSide s r) := by
  simp +contextual [reportSide, h]

@[simp] theorem expose_obeys (code : Code) (u e last : Nat) (h : Obeys L qs vr s) : Obeys L qs vr (expose s code u e last) := by
  unfold expose
  repeat' first
    | with_reducible assumption
    | with_reducible apply reportCode_obeys
    | with_reducible refine modColl_obeys ?_ ?_
    | exact (L.collector_same · rfl rfl)

@[simp] theorem throttlePart_obeys (p : Nat) (h : Obeys L qs vr s) : Obeys L qs vr (throttlePart s p) := by
  simp [throttlePart, h]

@[simp] theorem throttle_obeys (h : Obeys L qs vr s) : Obeys L qs vr (throttle s) := by
  simp +contextual [throttle, h]

@[simp] theorem withdrawTiles_obeys (ts : List Nat) (h : Obeys L qs vr s) : Obeys L qs vr (withdrawTiles s ts) := by
  unfold withdrawTiles
  repeat' first
    | with_reducible assumption
    | with_reducible refine obeys_ite ?_ ?_
    | with_reducible apply failWith_obeys
    | with_reducible apply setWithdrawn_obeys
    | with_reducible refine modColl_obeys ?_ ?_
    | exact (L.collector_same · rfl rfl)
    | with_reducible refine forAll_obeys (fun _ _ _ => ?_) ?_

@[simp] theorem analogueFail_obeys (die item : Nat) (tiles : List Nat) (h : Obeys L qs vr s) :
    Obeys L qs vr (analogueFail s die item tiles) := by
  unfold analogueFail
  repeat' first
    | with_reducible assumption
    | with_reducible apply beginEngineReset_obeys
    | with_reducible apply expose_obeys
    | with_reducible apply reportCode_obeys
    | with_reducible apply throttle_obeys
    | with_reducible apply withdrawTiles_obeys
    | with_reducible refine forAll_obeys (fun _ _ _ => ?_) ?_
    | split

@[simp] theorem rotate_obeys (die : Nat) (h : Obeys L qs vr s) : Obeys L qs vr (rotate s die) := by
  simp [rotate, h]

@[simp] theorem openQueues_obeys (c : Nat × Nat → Bool) (h : Obeys L qs vr s) : Obeys L qs vr (openQueues s c) := by
  simp [openQueues, h]

@[simp] theorem postRsp_obeys (f : Nat) (r : Rsp) (h : Obeys L qs vr s) : Obeys L qs vr (postRsp s f r) := by
  simp [postRsp, h]

@[simp] theorem posted_obeys (e : Entry) (h : Obeys L qs vr s) : Obeys L qs vr (posted s e) := by
  unfold posted
  split <;> simp +contextual [h]

@[simp] theorem writeEvt_obeys (f : Nat) (e : Entry) (h : Obeys L qs vr s) : Obeys L qs vr (writeEvt s f e) := by
  simp [writeEvt, h]

@[simp] theorem noteRefused_obeys (h : Obeys L qs vr s) : Obeys L qs vr (noteRefused s) := by
  unfold noteRefused
  repeat' first
    | with_reducible assumption
    | with_reducible refine obeys_ite ?_ ?_
    | with_reducible apply reportCode_obeys
    | with_reducible refine modColl_obeys ?_ ?_
    | exact (L.collector_same · rfl rfl)

theorem devAccess_obeys (p off len : Nat) (write : Option (List Byte)) (grant : Bool) (h : Obeys L qs vr s) :
    Obeys L qs vr (devAccess s p off len write grant).1 := by
  unfold devAccess
  suffices H : ∀ (l : List (Nat × Nat)) (a : State × List Byte × List Bool), Obeys L qs vr a.1 → Obeys L qs vr (l.foldl (fun a l =>
      let s := a.1
      let ok := (List.range l.2).all fun i => served s p (l.1 + i) grant
      match write with
      | some bs => if ok then (hbmWrite s p l.1 (slice bs (l.1 - off) l.2), a.2) else (noteRefused s, a.2)
      | none =>
        if ok then (s, a.2.1 ++ hbmRead s p l.1 l.2, a.2.2 ++ List.replicate l.2 (hbmPoisoned s p l.1 l.2))
        else (noteRefused s, a.2.1 ++ List.replicate l.2 0xFF, a.2.2 ++ List.replicate l.2 true)) a).1 from H _ _ h
  intro l
  induction l with
  | nil => exact fun _ ha => ha
  | cons x l ih =>
    intro a ha
    refine ih _ ?_
    dsimp only
    split
    · split
      · exact hbmWrite_obeys _ _ _ ha
      · exact noteRefused_obeys ha
    · split
      · exact ha
      · exact noteRefused_obeys ha

theorem devAnswer_obeys (write : Option (List Byte)) {r : State × List Byte × List Bool} (h : Obeys L qs vr r.1) :
    Obeys L qs vr (devAnswer write r) := by
  unfold devAnswer
  split
  · exact h
  · exact (obeys_emit _).2 h

@[simp] theorem devForced_obeys (len : Nat) (write : Option (List Byte)) (v : Byte) (poison : Bool) (h : Obeys L qs vr s) :
    Obeys L qs vr (devForced s len write v poison) := by
  exact devAnswer_obeys _ h

@[simp] theorem aperAccess_obeys (off len : Nat) (write : Option (List Byte)) (h : Obeys L qs vr s) :
    Obeys L qs vr (aperAccess s off len write) := by
  unfold aperAccess
  exact obeys_ite (devForced_obeys _ _ _ _ h) (obeys_ite (devForced_obeys _ _ _ _ h) (obeys_ite (devForced_obeys _ _ _ _ h)
    (obeys_ite (devForced_obeys _ _ _ _ (noteRefused_obeys h)) (devAnswer_obeys _ (devAccess_obeys _ _ _ _ _ h)))))

@[simp] theorem orphan_obeys (f : Nat) (c : Taken → Bool) (h : Obeys L qs vr s) : Obeys L qs vr (orphan s f c) := by
  simp [orphan, h]

@[simp] theorem detach_obeys (lost : List Nat) (f : Nat) (h : Obeys L qs vr s) : Obeys L qs vr (detach s lost f) := by
  simp [detach, h]

@[simp] theorem flrPart_obeys (p : Nat) (h : Obeys L qs vr s) : Obeys L qs vr (flrPart s p) := by
  unfold flrPart
  repeat' first
    | with_reducible assumption
    | with_reducible apply dropQueues_obeys
    | with_reducible apply failStep_obeys
    | with_reducible apply finishStep_obeys
    | with_reducible apply reap_obeys
    | with_reducible apply teardown_obeys
    | with_reducible apply traceOff_obeys
    | with_reducible refine (obeys_modPart _ _).2 ?_
    | with_reducible refine forAll_obeys (fun _ _ _ => ?_) ?_

@[simp] theorem ringDoorbell_obeys (func index tail : Nat) (h : Obeys L qs vr s) : Obeys L qs vr (ringDoorbell s func index tail) := by
  unfold ringDoorbell
  split <;> simp +contextual [h]

@[simp] theorem refuseStep_obeys (slot : Nat) (st : Step) (d : List Byte) (status : Nat) (h : Obeys L qs vr s) :
    Obeys L qs vr (refuseStep s slot st d status) := by
  simp [refuseStep, h]

@[simp] theorem openWindow_obeys (p j base size kinds : Nat) (h : Obeys L qs vr s) :
    Obeys L qs vr (openWindow s p j base size kinds) := by
  unfold openWindow
  generalize freeWindow s = o
  cases o with
  | none => exact h
  | some w =>
    exact (obeys_modWindow _ _).2 (obeys_upd h rfl rfl rfl rfl)

@[simp] theorem openRecvWindows_obeys (st : Step) (j : Nat) (h : Obeys L qs vr s) : Obeys L qs vr (openRecvWindows s st j) := by
  simp +contextual [openRecvWindows, h]

@[simp] theorem openStepWindows_obeys (slot : Nat) (st : Step) (h : Obeys L qs vr s) : Obeys L qs vr (openStepWindows s slot st) := by
  unfold openStepWindows
  split
  · exact h
  · refine openRecvWindows_obeys _ _ (forAll_obeys (fun t i ht => openWindow_obeys _ _ _ _ _ (settleInter_obeys _ _ _ ht)) ?_)
    refine forAll_obeys (fun t i ht => ?_) h
    have h1 := settleInter_obeys none st i ht
    extract_lets u
    split
    · exact openWindow_obeys _ _ _ _ _ h1
    · exact h1

@[simp] theorem settleStep_obeys (slot : Nat) (st : Step) (h : Obeys L qs vr s) : Obeys L qs vr (settleStep s slot st) := by
  unfold settleStep
  extract_lets st' s1 s2 s3 s4 seen n s5
  have h1 : Obeys L qs vr s1 := armMonitor_obeys (obeys_upd h rfl rfl rfl rfl)
  have h2 : Obeys L qs vr s2 := (obeys_modPart _ _).2 h1
  have h3 : Obeys L qs vr s3 := forAll_obeys (fun _ _ ht => wantBobbin_obeys _ _ ht) h2
  have h4 : Obeys L qs vr s4 := openStepWindows_obeys _ _ h3
  have h5 : Obeys L qs vr s5 := (obeys_modStep _ _).2 h4
  exact obeys_ite h5 (failStep_obeys _ _ h5)

@[simp] theorem forwardJob_obeys (j : Nat) (d : List Byte) (x : Split) (h : Obeys L qs vr s) : Obeys L qs vr (forwardJob s j d x) := by
  simp +contextual [forwardJob, h]

@[simp] theorem rerouteJobs_obeys (p : Nat) (h : Obeys L qs vr s) : Obeys L qs vr (rerouteJobs s p) := by
  simp +contextual [rerouteJobs, h]

@[simp] theorem startStep_obeys (slot : Nat) (st : Step) (h : Obeys L qs vr s) : Obeys L qs vr (startStep s slot st) := by
  unfold startStep
  repeat' first
    | with_reducible assumption
    | with_reducible apply settleSkeins_obeys
    | with_reducible apply traceStep_obeys
    | extract_lets
    | split
    | refine obeys_upd ?_ rfl rfl rfl rfl

@[simp] theorem switchAway_obeys (k : Nat) (st : Step) (spill : Bool) (h : Obeys L qs vr s) :
    Obeys L qs vr (switchAway s k st spill) := by
  unfold switchAway
  repeat' first
    | with_reducible assumption
    | with_reducible refine obeys_ite ?_ ?_
    | with_reducible apply count_obeys
    | with_reducible apply enterBoundary_obeys
    | with_reducible apply freeDead_obeys
    | with_reducible apply setState_obeys
    | with_reducible apply traceStep_obeys
    | with_reducible apply unplace_obeys
    | with_reducible refine (obeys_modPart _ _).2 ?_
    | with_reducible refine (obeys_modCtx _ _).2 ?_
    | with_reducible refine (obeys_modStep _ _).2 ?_

@[simp] theorem restoreBuf_obeys (slot : Nat) (f : Upf.File) (st : Step) (pl : Nat × Nat × Nat) (h : Obeys L qs vr s) :
    Obeys L qs vr (restoreBuf s slot f st pl) := by
  simp [restoreBuf, h]

@[simp] theorem takeFallback_obeys (slot : Nat) (st : Step) (h : Obeys L qs vr s) : Obeys L qs vr (takeFallback s slot st) := by
  unfold takeFallback
  repeat' first
    | with_reducible assumption
    | with_reducible apply count_obeys
    | with_reducible apply traceStep_obeys
    | split
    | refine obeys_upd ?_ rfl rfl rfl rfl

@[simp] theorem tellGate_obeys (st : Step) (h : Obeys L qs vr s) : Obeys L qs vr (tellGate s st) := by
  unfold tellGate
  split <;> simp +contextual [h]

@[simp] theorem removeNoticed_obeys (slot : Nat) (h : Obeys L qs vr s) : Obeys L qs vr (removeNoticed s slot) := by
  unfold removeNoticed
  repeat' first
    | with_reducible assumption
    | with_reducible apply failRaw_obeys
    | with_reducible apply reopen_obeys
    | with_reducible apply finishStep_obeys
    | extract_lets
    | split

@[simp] theorem relayNotice_obeys (j : Nat) (n : Notice) (h : Obeys L qs vr s) : Obeys L qs vr (relayNotice s j n) := by
  simp [relayNotice, h]

@[simp] theorem takeNotice_obeys (n : Notice) (h : Obeys L qs vr s) : Obeys L qs vr (takeNotice s n) := by
  unfold takeNotice
  repeat' first
    | with_reducible assumption
    | with_reducible refine obeys_ite ?_ ?_
    | with_reducible apply breakJob_obeys
    | with_reducible apply closeWindows_obeys
    | with_reducible apply relayNotice_obeys
    | with_reducible apply removeNoticed_obeys
    | with_reducible refine (obeys_modJob _ _).2 ?_
    | with_reducible refine forAll_obeys (fun _ _ _ => ?_) ?_
    | split

@[simp] theorem spdmAns_obeys (code : Nat) (data : List Byte) (h : Obeys L qs vr s) : Obeys L qs vr (spdmAns s code data) := by
  simp [spdmAns, h]

@[simp] theorem setSession_obeys (n : Nat) (h : Obeys L qs vr s) : Obeys L qs vr (setSession s n) := by
  simp [setSession, h]

@[simp] theorem spdmReply_obeys (q : SpdmReq) (h : Obeys L qs vr s) : Obeys L qs vr (spdmReply s q) := by
  unfold spdmReply
  split
  · exact h
  · split <;> simp +contextual [h]

@[simp] theorem leaveSet_obeys (set : Nat) (h : Obeys L qs vr s) : Obeys L qs vr (leaveSet s set) := by
  unfold leaveSet
  repeat' first
    | with_reducible assumption
    | with_reducible apply answerOpt_obeys
    | with_reducible apply sweepBobbins_obeys
    | with_reducible refine (obeys_modPart _ _).2 ?_
    | with_reducible refine forAll_obeys (fun _ _ _ => ?_) ?_

@[simp] theorem slotDone_obeys (j : FlashJob) (ok : Bool) (h : Obeys L qs vr s) : Obeys L qs vr (slotDone s j ok) := by
  simp [slotDone, h]

@[simp] theorem imageDone_obeys (j : FlashJob) (ok : Bool) (h : Obeys L qs vr s) : Obeys L qs vr (imageDone s j ok) := by
  simp [imageDone, h]

theorem guarded_obeys (t slot : Nat) (st : Step) (ks views : List Nat) {f : State → State} (hf : ∀ u, Obeys L qs vr u → Obeys L qs vr (f u))
    (h : Obeys L qs vr s) : Obeys L qs vr (guarded s t slot st ks views f) := by
  unfold guarded
  extract_lets d l s1
  have h1 : Obeys L qs vr s1 := obeys_ite h (check_obeys _ _ _ _ h)
  split
  · exact check_obeys _ _ _ _ (obeys_ite (spoilView_obeys _ _ _ h1) h1)
  · exact hf _ h1

@[simp] theorem noteWords_obeys (slot i : Nat) (int : Bool) (h : Obeys L qs vr s) : Obeys L qs vr (noteWords s slot i int) := by
  simp [noteWords, h]

@[simp] theorem holdCounts_obeys (h : Obeys L qs vr s) : Obeys L qs vr (holdCounts s) := by
  simp [holdCounts, h]

@[simp] theorem freeCounts_obeys (p : Pmc → Pmc) (h : Obeys L qs vr s) : Obeys L qs vr (freeCounts s p) := by
  simp [freeCounts, h]

@[simp] theorem gstStart_obeys (alsoRelease : Bool) (h : Obeys L qs vr s) : Obeys L qs vr (gstStart s alsoRelease) := by
  simp [gstStart, h]

@[simp] theorem gstFree_obeys (h : Obeys L qs vr s) : Obeys L qs vr (gstFree s) := by
  unfold gstFree
  repeat' first
    | with_reducible assumption
    | with_reducible apply beginEngineReset_obeys
    | with_reducible apply drainTx_obeys
    | with_reducible apply freeCounts_obeys
    | with_reducible apply takeNotice_obeys
    | with_reducible apply traceRec_obeys
    | with_reducible refine foldl_obeys (fun _ _ _ => ?_) ?_
    | split
    | refine obeys_upd ?_ rfl rfl rfl rfl

@[simp] theorem gstSelect_obeys (tile chain : Nat) (h : Obeys L qs vr s) : Obeys L qs vr (gstSelect s tile chain) := by
  simp [gstSelect, h]

@[simp] theorem modSync_obeys (p : Nat) (f : PortSync → PortSync) (h : Obeys L qs vr s) : Obeys L qs vr (modSync s p f) := by
  simp [modSync, h]

@[simp] theorem fire_obeys (n : Nat) (h : Obeys L qs vr s) : Obeys L qs vr (fire s n) := by
  simp [fire, h]

@[simp] theorem fireDue_obeys (h : Obeys L qs vr s) : Obeys L qs vr (fireDue s) := by
  simp +contextual [fireDue, h]

@[simp] theorem setWhorl_obeys (w : Nat) (h : Obeys L qs vr s) : Obeys L qs vr (setWhorl s w) :=
  ⟨h.1, h.2.1, h.2.2.1, L.collector_same h.2.2.2 rfl rfl⟩

@[simp] theorem takeParent_obeys (e : Nat × PortSync) (h : Obeys L qs vr s) : Obeys L qs vr (takeParent s e) := by
  simp [takeParent, h]

@[simp] theorem correct_obeys (o2 : Int) (h : Obeys L qs vr s) : Obeys L qs vr (correct s o2) := by
  simp [correct, h]

@[simp] theorem writeGst_obeys (off v : Nat) (h : Obeys L qs vr s) : Obeys L qs vr (writeGst s off v) := by
  unfold writeGst
  split <;> simp +contextual [h]

@[simp] theorem regWrite4_obeys (func off v : Nat) (h : Obeys L qs vr s) : Obeys L qs vr (regWrite4 s func off v) := by
  unfold regWrite4
  repeat' split
  all_goals simp +contextual [h]

end Sys2Proof.Machine

/-! PROOFS. Every command obeys such a law: the forms of a meaning, then each command. -/

namespace Sys2Proof.Machine

section
variable {L : Law} {qs : List Instr} {vr : Variant} {s : State}

theorem timed_obeys {now : Nat} {c : State → Bool} {f : State → State} (hf : ∀ t, Obeys L qs vr t → Obeys L qs vr (f t))
    (h : Obeys L qs vr s) : ResObeys L qs vr (timed s now c f) :=
  ⟨_, rfl, obeys_ite (hf _ ((obeys_advance now).2 h)) h⟩

theorem untimed_obeys {c : State → Bool} {f : State → State} (hf : ∀ t, Obeys L qs vr t → Obeys L qs vr (f t))
    (h : Obeys L qs vr s) : ResObeys L qs vr (untimed s c f) :=
  ⟨_, rfl, obeys_ite (hf _ h) h⟩

@[simp] theorem ansObeys_done : AnsObeys L qs vr (.done s) ↔ Obeys L qs vr s := Iff.rfl
@[simp] theorem ansObeys_detail {d : Nat} : AnsObeys L qs vr (.detail s d) ↔ Obeys L qs vr s := Iff.rfl
@[simp] theorem ansObeys_output {d : Nat} {ext : List Byte} : AnsObeys L qs vr (.output s d ext) ↔ Obeys L qs vr s := Iff.rfl
@[simp] theorem ansObeys_later : AnsObeys L qs vr (.later s) ↔ Obeys L qs vr s := Iff.rfl
@[simp] theorem ansObeys_reply {a b : Nat} {p e : List Byte} {w : Bool} : AnsObeys L qs vr (.reply s a b p e w) ↔ Obeys L qs vr s := Iff.rfl
@[simp] theorem ans_refuse_obeys {a : Nat} : AnsObeys L qs vr (.refuse a) := trivial
@[simp] theorem ans_refuseAt_obeys {a b : Nat} : AnsObeys L qs vr (.refuseAt a b) := trivial
@[simp] theorem ansObeys_ite {c : Prop} [Decidable c] {a b : Ans} :
    AnsObeys L qs vr (if c then a else b) ↔ (c → AnsObeys L qs vr a) ∧ (¬ c → AnsObeys L qs vr b) := by
  split <;> simp [*]
theorem ans_done_obeys (h : Obeys L qs vr s) : AnsObeys L qs vr (.done s) := h
theorem ans_detail_obeys {d : Nat} (h : Obeys L qs vr s) : AnsObeys L qs vr (.detail s d) := h
theorem ans_later_obeys (h : Obeys L qs vr s) : AnsObeys L qs vr (.later s) := h
theorem ans_reply_obeys {a b : Nat} {p e : List Byte} {w : Bool} (h : Obeys L qs vr s) : AnsObeys L qs vr (.reply s a b p e w) := h
theorem ans_ite_obeys {c : Prop} [Decidable c] {a b : Ans} (ha : AnsObeys L qs vr a) (hb : AnsObeys L qs vr b) :
    AnsObeys L qs vr (if c then a else b) := by
  split <;> assumption

end

variable {L : Law} {qs : List Instr} {vr : Variant} {s : State}

theorem applyAns_obeys {m : Msg} {a : Ans} (h : Obeys L qs vr s) (ha : AnsObeys L qs vr a) : Obeys L qs vr (applyAns s m a) := by
  cases a with
  | refuse st => exact answer_obeys _ _ _ _ h
  | refuseAt st d => exact answer_obeys _ _ _ _ h
  | reply t st d pl ext w => exact answerWith_obeys _ _ _ _ _ _ _ ha
  | later t => exact ha

theorem spend_obeys {m : Msg} {t : State} (h : Obeys L qs vr s) (e : spend s m = some t) : Obeys L qs vr t := by
  unfold spend at e
  extract_lets f at e
  split at e
  · cases e
  · split at e
    · cases e
    · cases e
      exact (obeys_modFunc _ _).2 h

theorem process_obeys {sp : MsgSpec} {m : Msg} {own : State → Ans} (ho : ∀ t, Obeys L qs vr t → AnsObeys L qs vr (own t))
    (h : Obeys L qs vr s) : Obeys L qs vr (process s sp m own) := by
  unfold process
  extract_lets c
  refine obeys_ite (answer_obeys _ _ _ _ h) (obeys_ite (obeys_ite (answer_obeys _ _ _ _ h) (applyAns_obeys h (ho s h))) ?_)
  split
  · exact obeys_ite (answer_obeys _ _ _ _ ((obeys_modFunc _ _).2 h)) (answer_obeys _ _ _ _ h)
  · rename_i t e
    have ht : Obeys L qs vr t := spend_obeys h e
    exact obeys_ite (answer_obeys _ _ _ _ ht) (applyAns_obeys ht (ho t ht))

theorem mbx_obeys {sp : MsgSpec} {m : Msg} {own : State → Ans} (ho : ∀ t, Obeys L qs vr t → AnsObeys L qs vr (own t))
    (h : Obeys L qs vr s) : ResObeys L qs vr (mbx sp own m s) :=
  untimed_obeys (fun _ ht => process_obeys ho (take_obeys _ ht)) h

theorem issue_obeys {t : Nat} {i : SkInsn} {ks : List Nat} {f : State → Nat → Step → SkeinRun → State}
    (hf : ∀ u k st r, Obeys L qs vr u → Obeys L qs vr (f u k st r)) (h : Obeys L qs vr s) : Obeys L qs vr (issue t i ks f s) := by
  unfold issue
  split
  · exact h
  · split
    · exact h
    · extract_lets s1
      have h1 : Obeys L qs vr s1 := noteIssue_obeys _ _ _ _ h
      split
      · exact check_obeys _ _ _ _ h1
      · exact hf _ _ _ _ h1

theorem skein_obeys {t : Nat} {i : SkInsn} {ks : List Nat} {f : State → Nat → Step → SkeinRun → State}
    (hf : ∀ u k st r, Obeys L qs vr u → Obeys L qs vr (f u k st r)) (h : Obeys L qs vr s) : ResObeys L qs vr (skein t i ks f s) :=
  untimed_obeys (fun _ ht => issue_obeys hf ht) h

theorem pickFree_obeys_of {l : List Nat} {x : Option Nat} {t : State} (e : pickFree s l = (x, t)) (h : Obeys L qs vr s) :
    Obeys L qs vr t := by
  unfold pickFree at e
  split at e
  · cases e
    exact h
  · cases e
    exact h

theorem drawGroups_obeys_of {t rnd n : Nat} {x : List Nat} {u : State} (e : drawGroups s t rnd n = (x, u)) (h : Obeys L qs vr s) :
    Obeys L qs vr u := by
  have : u = (drawGroups s t rnd n).2 := by rw [e]
  subst this
  unfold drawGroups
  split
  · exact (obeys_modTile _ _).2 h
  · exact h

theorem makeRoom_obeys {p i : Nat} {t : State} (e : makeRoom s p i = some t) (h : Obeys L qs vr s) : Obeys L qs vr t := by
  unfold makeRoom at e
  extract_lets es at e
  split at e
  · cases e
  · cases e
    exact forAll_obeys (fun _ _ hu => obeys_ite hu (leaveStore_obeys _ _ hu)) h

theorem ingest_obeys {p n : Nat} (h : Obeys L qs vr s) : Obeys L qs vr (ingest s p n).2 := by
  unfold ingest
  extract_lets s1
  have h1 : Obeys L qs vr s1 := count_obeys _ _ _ h
  clear_value s1
  exact obeys_upd (obeys_draw.2 (obeys_draw.2 (obeys_draw.2 h1))) rfl rfl rfl rfl

theorem ingest_obeys_of {p n : Nat} {x : Nat} {u : State} (e : ingest s p n = (x, u)) (h : Obeys L qs vr s) : Obeys L qs vr u := by
  have : u = (ingest s p n).2 := by rw [e]
  subst this
  exact ingest_obeys h

theorem reserveAt_obeys {p c g base : Nat} {t : State} (e : reserveAt s p c g base = some (some t)) (h : Obeys L qs vr s) :
    Obeys L qs vr t := by
  unfold reserveAt at e
  extract_lets n at e
  split at e
  · cases e
    exact h
  · split at e
    · cases e
    · split at e
      · cases e
        exact (obeys_modPart _ _).2 h
      · cases e

theorem reserveBoth_obeys {p c g base fbBase : Nat} {fb : Option Nat} {t : State}
    (e : reserveBoth s p c g base fb fbBase = some (some t)) (h : Obeys L qs vr s) : Obeys L qs vr t := by
  unfold reserveBoth at e
  split at e
  · exact reserveAt_obeys e (reserveAt_obeys (by assumption) h)
  · exact reserveAt_obeys e h

theorem acceptStep_obeys {p q slot seq base fbBase : Nat} {d : List Byte} {t : State}
    (e : acceptStep s p q slot seq base fbBase d = some t) (h : Obeys L qs vr s) : Obeys L qs vr t := by
  unfold acceptStep at e
  extract_lets st c g fb at e
  split at e
  · cases e
    exact refuseStep_obeys _ _ _ _ h
  · split at e
    · cases e
    · cases e
      exact refuseStep_obeys _ _ _ _ h
    · rename_i u e'
      have hu : Obeys L qs vr u := reserveBoth_obeys e' h
      split at e
      · cases e
        exact settleStep_obeys _ _ hu
      · split at e
        · cases e
          exact refuseStep_obeys _ _ _ _ h
        · extract_lets y at e
          split at e
          rename_i e2
          cases e
          exact settleStep_obeys _ _ (onShard_obeys_of e2 (forwardJob_obeys _ _ _ hu))

theorem addBufs_obeys {t slot : Nat} {f : Upf.File} {bases : List (Nat × Nat)} {need : List Nat} {u : State}
    (e : addBufs s t slot f bases need = some u) (h : Obeys L qs vr s) : Obeys L qs vr u := by
  unfold addBufs at e
  suffices H : ∀ (l : List Nat) (o : Option State), (∀ v, o = some v → Obeys L qs vr v) → ∀ v,
      l.foldl (fun o i => o.bind fun s =>
        if (bufBase (s.tile t) slot i).isSome then some s
        else match tfind bases i with
          | some b => if bufFits (s.tile t) b (tensorOf f i).bytes then some (addBuf s t slot i b (tensorOf f i).bytes) else none
          | none => none) o = some v → Obeys L qs vr v from
    H need (some s) (fun v hv => by cases hv; exact h) u e
  intro l
  induction l with
  | nil => exact fun o ho v hv => ho v hv
  | cons i l ih =>
    intro o ho v hv
    refine ih _ ?_ v hv
    intro w hw
    cases o with
    | none => cases hw
    | some x =>
      have hx := ho x rfl
      simp only [Option.bind_some] at hw
      split at hw
      · cases hw
        exact hx
      · split at hw
        · split at hw
          · cases hw
            exact addBuf_obeys _ _ _ _ _ hx
          · cases hw
        · cases hw

theorem startLoad_obeys {p : Nat} {m : Msg} {f : Upf.File} {job : Option Nat} (h : Obeys L qs vr s) :
    AnsObeys L qs vr (startLoad s p m f job) := by
  unfold startLoad
  split
  rename_i x u e
  have hu : Obeys L qs vr u := draw_obeys_of e h
  extract_lets
  refine ans_ite_obeys ans_refuse_obeys ?_
  split
  · exact ans_refuse_obeys
  · exact ans_later_obeys (modProg_obeys _ _ _ hu)

theorem loadOwn_obeys {m : Msg} (h : Obeys L qs vr s) : AnsObeys L qs vr (loadOwn m s) := by
  unfold loadOwn
  extract_lets p b
  generalize upfBads s p b = bads
  generalize readUpf b = f
  split
  · exact ans_refuse_obeys
  · rename_i known _ _ _ _
    clear_value known
    rcases known with _ | ⟨i, g⟩
    · cases bads with
      | cons c l => exact True.intro
      | nil =>
        dsimp only
        split
        · exact startLoad_obeys h
        · split
          · exact ans_refuse_obeys
          · exact startLoad_obeys ((obeys_modJob _ _).2 h)
    · exact ans_reply_obeys (modProg_obeys _ _ _ h)

theorem writeImage_obeys {m : Msg} {kind : Nat} (h : Obeys L qs vr s) : AnsObeys L qs vr (writeImage s m kind) := by
  unfold writeImage
  extract_lets img st
  refine ans_ite_obeys ans_refuse_obeys (ans_ite_obeys ans_refuse_obeys ?_)
  exact ans_later_obeys ((obeys_emit _).2 ((obeys_modLife _).2 h))

theorem fenceMsg_obeys {m : Msg} {f : Nat → Ans} (hf : ∀ i, AnsObeys L qs vr (f i)) : AnsObeys L qs vr (fenceMsg s m f) := by
  unfold fenceMsg
  split
  · exact ans_refuse_obeys
  · split
    · exact ans_refuse_obeys
    · exact hf _

theorem execRefclkLost_obeys {now : Nat} (h : Obeys L qs vr s) : ResObeys L qs vr (execRefclkLost now s) :=
  timed_obeys (fun _ h => by simp [h]) h

theorem execRefclkReturn_obeys {now : Nat} (h : Obeys L qs vr s) : ResObeys L qs vr (execRefclkReturn now s) :=
  timed_obeys (fun _ h => by simp [h]) h

theorem execPwrGoodRise_obeys {now : Nat} (h : Obeys L qs vr s) : ResObeys L qs vr (execPwrGoodRise now s) :=
  timed_obeys (fun _ h => by simp [h]) h

theorem execPwrGoodFall_obeys {now : Nat} (h : Obeys L qs vr s) : ResObeys L qs vr (execPwrGoodFall now s) := by
  unfold execPwrGoodFall
  refine timed_obeys (fun _ h => ?_) h
  dsimp only
  split <;> simp +contextual [h]

theorem execAonResetNFall_obeys (h : Obeys L qs vr s) : ResObeys L qs vr (execAonResetNFall s) :=
  untimed_obeys (fun _ h => by simp [h]) h

theorem execAonResetNRelease_obeys (h : Obeys L qs vr s) : ResObeys L qs vr (execAonResetNRelease s) :=
  untimed_obeys (fun _ h => by simp [h]) h

theorem execVddAonLost_obeys (h : Obeys L qs vr s) : ResObeys L qs vr (execVddAonLost s) :=
  untimed_obeys (fun _ h => by simp [h]) h

theorem execBlkResetNFall_obeys {now : Nat} (h : Obeys L qs vr s) : ResObeys L qs vr (execBlkResetNFall now s) :=
  timed_obeys (fun _ h => by simp [h]) h

theorem execBlkResetNRelease_obeys {now entryTries : Nat} {warmOk : Bool} (h : Obeys L qs vr s) :
    ResObeys L qs vr (execBlkResetNRelease now entryTries warmOk s) :=
  timed_obeys (fun _ h => by simp +contextual [h]) h

theorem execVoltageMonitorTrip_obeys {now : Nat} (h : Obeys L qs vr s) : ResObeys L qs vr (execVoltageMonitorTrip now s) :=
  timed_obeys (fun _ h => by simp [h]) h

theorem execRailBackInTolerance_obeys {now : Nat} (h : Obeys L qs vr s) : ResObeys L qs vr (execRailBackInTolerance now s) :=
  timed_obeys (fun _ h => by simp [h]) h

theorem execThermalTrip_obeys {now : Nat} (h : Obeys L qs vr s) : ResObeys L qs vr (execThermalTrip now s) :=
  timed_obeys (fun _ h => by simp [h]) h

theorem execPowerCycleRequest_obeys {now : Nat} (h : Obeys L qs vr s) : ResObeys L qs vr (execPowerCycleRequest now s) :=
  timed_obeys (fun _ h => by simp [h]) h

theorem execStopInNFall_obeys {x : StopFall} (h : Obeys L qs vr s) : ResObeys L qs vr (execStopInNFall x s) :=
  timed_obeys (fun _ h => by simp [h]) h

theorem execTorusCoordinatesWrite_obeys {x y z kx ky kz : Nat} (h : Obeys L qs vr s) :
    ResObeys L qs vr (execTorusCoordinatesWrite x y z kx ky kz s) :=
  untimed_obeys (fun _ h => by simp [h]) h

theorem execRailConfirm_obeys {now die mv : Nat} (h : Obeys L qs vr s) : ResObeys L qs vr (execRailConfirm now die mv s) := by
  unfold execRailConfirm
  refine timed_obeys (fun _ _ => ?_) h
  repeat' first
    | with_reducible assumption
    | with_reducible refine obeys_ite ?_ ?_
    | with_reducible apply requestRail_obeys
    | with_reducible apply retune_obeys
    | with_reducible apply setClock_obeys
    | with_reducible refine (obeys_modRail _ _).2 ?_
    | with_reducible refine forAll_obeys (fun _ _ _ => ?_) ?_

theorem execRailConfirmTimeout_obeys {now die : Nat} (h : Obeys L qs vr s) : ResObeys L qs vr (execRailConfirmTimeout now die s) :=
  timed_obeys (fun _ h => by simp [h]) h

theorem execTrstNReset_obeys (h : Obeys L qs vr s) : ResObeys L qs vr (execTrstNReset s) :=
  untimed_obeys (fun _ h => by simp [h]) h

theorem execFaultCollectorInitialised_obeys {now : Nat} (h : Obeys L qs vr s) :
    ResObeys L qs vr (execFaultCollectorInitialised now s) :=
  timed_obeys (fun _ h => by simp [h]) h

theorem execStartEntryNotWritten_obeys {now : Nat} (h : Obeys L qs vr s) : ResObeys L qs vr (execStartEntryNotWritten now s) :=
  timed_obeys (fun _ h => by simp [h]) h

theorem execFlashStatusTimeout_obeys {now : Nat} (h : Obeys L qs vr s) : ResObeys L qs vr (execFlashStatusTimeout now s) :=
  timed_obeys (fun _ h => by simp [h]) h

theorem execHbmPortNotReady_obeys {now port : Nat} (h : Obeys L qs vr s) : ResObeys L qs vr (execHbmPortNotReady now port s) :=
  timed_obeys (fun _ h => by simp [h]) h

theorem execImageAuthenticated_obeys {now : Nat} (h : Obeys L qs vr s) : ResObeys L qs vr (execImageAuthenticated now s) :=
  timed_obeys (fun _ h => by simp +contextual [h]) h

theorem execCalibrationDone_obeys {now factor : Nat} (h : Obeys L qs vr s) : ResObeys L qs vr (execCalibrationDone now factor s) :=
  timed_obeys (fun _ h => by simp +contextual [h]) h

theorem execMbxReady_obeys {now : Nat} (h : Obeys L qs vr s) : ResObeys L qs vr (execMbxReady now s) :=
  timed_obeys (fun _ h => by simp [h]) h

theorem execStartTimeout_obeys {now : Nat} (h : Obeys L qs vr s) : ResObeys L qs vr (execStartTimeout now s) :=
  timed_obeys (fun _ h => by simp [h]) h

theorem execFailedStartReset_obeys {now : Nat} (h : Obeys L qs vr s) : ResObeys L qs vr (execFailedStartReset now s) :=
  timed_obeys (fun _ h => by simp [h]) h

theorem execFatalBlockReset_obeys {now : Nat} (h : Obeys L qs vr s) : ResObeys L qs vr (execFatalBlockReset now s) :=
  timed_obeys (fun _ h => by simp [h]) h

theorem execBlockResetBegin_obeys {now : Nat} (h : Obeys L qs vr s) : ResObeys L qs vr (execBlockResetBegin now s) :=
  timed_obeys (fun _ h => by simp [h]) h

theorem execSleepEntry_obeys {now : Nat} (h : Obeys L qs vr s) : ResObeys L qs vr (execSleepEntry now s) :=
  timed_obeys (fun _ h => by simp +contextual [h]) h

theorem execWake_obeys {now : Nat} {i3c : Bool} (h : Obeys L qs vr s) : ResObeys L qs vr (execWake now i3c s) :=
  timed_obeys (fun _ h => by simp [h]) h

theorem execSelfTestDone_obeys {now engine : Nat} {pass : Bool} (h : Obeys L qs vr s) :
    ResObeys L qs vr (execSelfTestDone now engine pass s) := by
  unfold execSelfTestDone
  refine timed_obeys (fun _ _ => ?_) h
  repeat' first
    | with_reducible assumption
    | with_reducible refine obeys_ite ?_ ?_
    | with_reducible apply consume_obeys
    | with_reducible apply failStart_obeys
    | with_reducible apply finishTest_obeys
    | with_reducible apply reportCode_obeys
    | with_reducible apply startupFail_obeys
    | split
    | refine obeys_upd ?_ rfl rfl rfl rfl

theorem execEngineReset_obeys {m : Msg} (h : Obeys L qs vr s) : ResObeys L qs vr (execEngineReset m s) := by
  unfold execEngineReset
  refine mbx_obeys (fun _ h => ?_) h
  repeat' split
  all_goals simp +contextual [h]

theorem execPartitionReset_obeys {m : Msg} (h : Obeys L qs vr s) : ResObeys L qs vr (execPartitionReset m s) :=
  mbx_obeys (fun _ h => by simp [h]) h

theorem execBlockReset_obeys {m : Msg} (h : Obeys L qs vr s) : ResObeys L qs vr (execBlockReset m s) :=
  mbx_obeys (fun _ h => by simp [h]) h

theorem execPowerCycle_obeys {m : Msg} (h : Obeys L qs vr s) : ResObeys L qs vr (execPowerCycle m s) :=
  mbx_obeys (fun _ h => by simp [h]) h

theorem execBistRun_obeys {m : Msg} {quiesced : Bool} (h : Obeys L qs vr s) : ResObeys L qs vr (execBistRun m quiesced s) := by
  unfold execBistRun
  refine mbx_obeys (fun _ _ => ?_) h
  repeat' first
    | with_reducible assumption
    | with_reducible refine ans_later_obeys ?_
    | with_reducible refine ans_reply_obeys ?_
    | with_reducible exact ans_refuse_obeys
    | with_reducible apply failStep_obeys
    | with_reducible apply setTesting_obeys
    | with_reducible apply setWithdrawn_obeys
    | with_reducible apply withdraw_obeys
    | with_reducible refine forAll_obeys (fun _ _ _ => ?_) ?_
    | split
    | refine obeys_upd ?_ rfl rfl rfl rfl

theorem execResetEscalation_obeys {now kind id : Nat} (h : Obeys L qs vr s) : ResObeys L qs vr (execResetEscalation now kind id s) := by
  unfold execResetEscalation
  refine timed_obeys (fun _ _ => ?_) h
  repeat' first
    | with_reducible assumption
    | with_reducible apply answerTest_obeys
    | with_reducible apply beginEngineReset_obeys
    | with_reducible apply endPartitionReset_obeys
    | with_reducible apply resetPartition_obeys
    | with_reducible apply selfReset_obeys
    | with_reducible apply setTesting_obeys
    | with_reducible apply withdraw_obeys
    | with_reducible refine forAll_obeys (fun _ _ _ => ?_) ?_
    | extract_lets
    | split

theorem execSlotQuarantineEnd_obeys {now slot : Nat} (h : Obeys L qs vr s) : ResObeys L qs vr (execSlotQuarantineEnd now slot s) := by
  unfold execSlotQuarantineEnd
  refine timed_obeys (fun _ h => ?_) h
  split <;> simp +contextual [h]

theorem execSkeinPlace_obeys {now slot skein t : Nat} {bases : List (Nat × Nat)} (h : Obeys L qs vr s) :
    ResObeys L qs vr (execSkeinPlace now slot skein t bases s) := by
  unfold execSkeinPlace
  refine timed_obeys (fun _ _ => ?_) h
  repeat' first
    | with_reducible assumption
    | with_reducible refine addBufs_obeys (by assumption) ?_
    | with_reducible apply failStep_obeys
    | with_reducible apply logPlace_obeys
    | with_reducible apply seedTile_obeys
    | with_reducible refine (obeys_modStep _ _).2 ?_
    | with_reducible refine (obeys_modTile _ _).2 ?_
    | extract_lets
    | split

theorem execFin_obeys {t : Nat} (h : Obeys L qs vr s) : ResObeys L qs vr (execFin t s) :=
  skein_obeys (fun _ _ _ _ h => by simp [h]) h

theorem execSkeinComplete_obeys {now t skein : Nat} (h : Obeys L qs vr s) : ResObeys L qs vr (execSkeinComplete now t skein s) := by
  unfold execSkeinComplete
  refine timed_obeys (fun _ _ => ?_) h
  repeat' first
    | with_reducible assumption
    | with_reducible apply freeDead_obeys
    | with_reducible apply skeinDone_obeys
    | extract_lets
    | split

theorem execResidueWindowCompare_obeys {now t : Nat} {vector : Bool} {predicted produced : Nat} (h : Obeys L qs vr s) :
    ResObeys L qs vr (execResidueWindowCompare now t vector predicted produced s) :=
  timed_obeys (fun _ h => by simp [h]) h

theorem execSkeinBoundOverrun_obeys {now t : Nat} (h : Obeys L qs vr s) : ResObeys L qs vr (execSkeinBoundOverrun now t s) :=
  timed_obeys (fun _ h => by simp [h]) h

theorem execClockGate_obeys {t idle : Nat} (h : Obeys L qs vr s) : ResObeys L qs vr (execClockGate t idle s) :=
  untimed_obeys (fun _ h => by simp [h]) h

theorem execPatrolScrub_obeys {now t word bits : Nat} (h : Obeys L qs vr s) : ResObeys L qs vr (execPatrolScrub now t word bits s) :=
  timed_obeys (fun _ h => by simp [h]) h

theorem execOscillatorOutOfLock_obeys {now t permille ns : Nat} (h : Obeys L qs vr s) :
    ResObeys L qs vr (execOscillatorOutOfLock now t permille ns s) :=
  timed_obeys (fun _ h => by simp [h]) h

theorem execWhorlSyncEdge_obeys {now highNs : Nat} (h : Obeys L qs vr s) : ResObeys L qs vr (execWhorlSyncEdge now highNs s) := by
  unfold execWhorlSyncEdge
  refine timed_obeys (fun _ h => ?_) h
  split <;> simp +contextual [h]

theorem execSyncWindowExpiry_obeys {now : Nat} (h : Obeys L qs vr s) : ResObeys L qs vr (execSyncWindowExpiry now s) :=
  timed_obeys (fun _ h => by simp [h]) h

theorem execSyncSend_obeys {now port : Nat} (h : Obeys L qs vr s) : ResObeys L qs vr (execSyncSend now port s) :=
  timed_obeys (fun _ h => by simp [h]) h

theorem execSyncArrival_obeys {now port : Nat} {m : SyncMsg} (h : Obeys L qs vr s) :
    ResObeys L qs vr (execSyncArrival now port m s) := by
  unfold execSyncArrival
  refine timed_obeys (fun t ht => ?_) h
  extract_lets x prevArr tA tB s1 s2 s3
  have h1 : Obeys L qs vr s1 := modSync_obeys _ _ ht
  have h2 : Obeys L qs vr s2 := modSync_obeys _ _ h1
  have h3 : Obeys L qs vr s3 := by
    dsimp only [s3]
    split
    · exact takeParent_obeys _ h2
    · exact h2
  clear_value s3 s2 s1 tA tB
  split
  · exact obeys_ite h2 (obeys_ite h2 (obeys_ite (correct_obeys _ ((obeys_modAon _).2 h3)) h3))
  · exact h1

theorem execParentTimeout_obeys {now : Nat} (h : Obeys L qs vr s) : ResObeys L qs vr (execParentTimeout now s) := by
  unfold execParentTimeout
  refine timed_obeys (fun _ h => ?_) h
  split <;> simp +contextual [h]

theorem execFabricEpochStart_obeys {now : Nat} (h : Obeys L qs vr s) : ResObeys L qs vr (execFabricEpochStart now s) :=
  timed_obeys (fun _ h => by simp [h]) h

theorem execComparatorFire_obeys {now n : Nat} (h : Obeys L qs vr s) : ResObeys L qs vr (execComparatorFire now n s) :=
  timed_obeys (fun _ h => by simp [h]) h

theorem execWhlTimeLo_obeys {func : Nat} (h : Obeys L qs vr s) : ResObeys L qs vr (execWhlTimeLo func s) :=
  untimed_obeys (fun _ h => by simp [h]) h

theorem execTapInstruction_obeys {i : TapIns} (h : Obeys L qs vr s) : ResObeys L qs vr (execTapInstruction i s) :=
  untimed_obeys (fun _ h => by simp [h]) h

theorem execRegisterWrite_obeys {func off width : Nat} {val : BitVec 512} (h : Obeys L qs vr s) :
    ResObeys L qs vr (execRegisterWrite func off width val s) :=
  untimed_obeys (fun _ h => by simp +contextual [h]) h

theorem execCxlMemAccess_obeys {now addr len : Nat} {write : Option (List Byte)} (h : Obeys L qs vr s) :
    ResObeys L qs vr (execCxlMemAccess now addr len write s) := by
  unfold execCxlMemAccess
  refine timed_obeys (fun _ _ => ?_) h
  repeat' first
    | with_reducible assumption
    | with_reducible refine obeys_ite ?_ ?_
    | with_reducible apply devAccess_obeys
    | with_reducible apply devAnswer_obeys
    | with_reducible apply devForced_obeys

theorem execApertureAccess_obeys {now off len : Nat} {write : Option (List Byte)} (h : Obeys L qs vr s) :
    ResObeys L qs vr (execApertureAccess now off len write s) :=
  timed_obeys (fun _ h => by simp [h]) h

theorem execBiasSet_obeys {m : Msg} (h : Obeys L qs vr s) : ResObeys L qs vr (execBiasSet m s) := by
  unfold execBiasSet
  refine mbx_obeys (fun _ h => ?_) h
  split <;> simp +contextual [h]

theorem execHostLinkDown_obeys {now : Nat} {writes : Bool} {lost : LostTraffic} (h : Obeys L qs vr s) :
    ResObeys L qs vr (execHostLinkDown now writes lost s) := by
  unfold execHostLinkDown
  refine timed_obeys (fun _ _ => ?_) h
  repeat' first
    | with_reducible assumption
    | with_reducible refine obeys_ite ?_ ?_
    | with_reducible apply failStep_obeys
    | with_reducible apply loseHost_obeys
    | with_reducible apply reportCode_obeys
    | with_reducible refine forAll_obeys (fun _ _ _ => ?_) ?_
    | refine obeys_upd ?_ rfl rfl rfl rfl

theorem execHostLinkUp_obeys {now : Nat} (h : Obeys L qs vr s) : ResObeys L qs vr (execHostLinkUp now s) :=
  timed_obeys (fun _ h => by simp [h]) h

theorem execHostMasterReadTimeout_obeys {now slot : Nat} (h : Obeys L qs vr s) :
    ResObeys L qs vr (execHostMasterReadTimeout now slot s) :=
  timed_obeys (fun _ h => by simp [h]) h

theorem execHbmReadReturn_obeys {now port tag slot slotGen addr : Nat} {poison corrected : Bool} (h : Obeys L qs vr s) :
    ResObeys L qs vr (execHbmReadReturn now port tag slot slotGen addr poison corrected s) := by
  unfold execHbmReadReturn
  refine timed_obeys (fun _ _ => ?_) h
  repeat' first
    | with_reducible assumption
    | with_reducible refine obeys_ite ?_ ?_
    | with_reducible apply consume_obeys
    | with_reducible apply reportCode_obeys
    | split
    | refine obeys_upd ?_ rfl rfl rfl rfl

theorem execFlr_obeys {now func : Nat} (h : Obeys L qs vr s) : ResObeys L qs vr (execFlr now func s) :=
  timed_obeys (fun _ h => by simp +contextual [h]) h

theorem execFlrComplete_obeys {now func : Nat} (h : Obeys L qs vr s) : ResObeys L qs vr (execFlrComplete now func s) := by
  unfold execFlrComplete
  refine timed_obeys (fun _ _ => ?_) h
  repeat' first
    | with_reducible assumption
    | with_reducible refine obeys_ite ?_ ?_
    | with_reducible apply hbmClear_obeys
    | with_reducible apply scrubRecord_obeys
    | with_reducible refine (obeys_modFunc _ _).2 ?_
    | with_reducible refine forAll_obeys (fun _ _ _ => ?_) ?_

theorem execMbxEnable_obeys {func log2 vector : Nat} (h : Obeys L qs vr s) : ResObeys L qs vr (execMbxEnable func log2 vector s) :=
  untimed_obeys (fun _ h => by simp [h]) h

theorem execMbxDisable_obeys {func : Nat} (h : Obeys L qs vr s) : ResObeys L qs vr (execMbxDisable func s) :=
  untimed_obeys (fun _ h => by simp [h]) h

theorem execMbxTail_obeys {func tail : Nat} (h : Obeys L qs vr s) : ResObeys L qs vr (execMbxTail func tail s) :=
  untimed_obeys (fun _ h => by simp [h]) h

theorem execMbxRspHead_obeys {func head : Nat} (h : Obeys L qs vr s) : ResObeys L qs vr (execMbxRspHead func head s) :=
  untimed_obeys (fun _ h => by simp [h]) h

theorem execMbxBootGo_obeys {func : Nat} {alsoDone : Bool} (h : Obeys L qs vr s) :
    ResObeys L qs vr (execMbxBootGo func alsoDone s) :=
  untimed_obeys (fun _ h => by simp [h]) h

theorem execMbxBootDoneClear_obeys {func : Nat} (h : Obeys L qs vr s) : ResObeys L qs vr (execMbxBootDoneClear func s) :=
  untimed_obeys (fun _ h => by simp [h]) h

theorem execMailboxResponsePost_obeys {now func : Nat} (h : Obeys L qs vr s) :
    ResObeys L qs vr (execMailboxResponsePost now func s) := by
  unfold execMailboxResponsePost
  refine timed_obeys (fun _ h => ?_) h
  split <;> simp +contextual [h]

theorem execEvtRingSet_obeys {m : Msg} (h : Obeys L qs vr s) : ResObeys L qs vr (execEvtRingSet m s) :=
  mbx_obeys (fun _ h => by simp [h]) h

theorem execEventEntryWrite_obeys {now func : Nat} (h : Obeys L qs vr s) : ResObeys L qs vr (execEventEntryWrite now func s) := by
  unfold execEventEntryWrite
  refine timed_obeys (fun _ h => ?_) h
  dsimp only
  split <;> simp +contextual [h]

theorem execRingVectorSend_obeys {now func : Nat} (h : Obeys L qs vr s) : ResObeys L qs vr (execRingVectorSend now func s) :=
  timed_obeys (fun _ h => by simp [h]) h

theorem execEvtFlush_obeys {now func : Nat} (h : Obeys L qs vr s) : ResObeys L qs vr (execEvtFlush now func s) :=
  timed_obeys (fun _ h => by simp [h]) h

theorem execEvtHead_obeys {func head : Nat} (h : Obeys L qs vr s) : ResObeys L qs vr (execEvtHead func head s) :=
  untimed_obeys (fun _ h => by simp [h]) h

theorem execReadBackComplete_obeys {now func : Nat} (h : Obeys L qs vr s) : ResObeys L qs vr (execReadBackComplete now func s) :=
  timed_obeys (fun _ h => by simp [h]) h

theorem execFillStart_obeys {now part : Nat} (h : Obeys L qs vr s) : ResObeys L qs vr (execFillStart now part s) := by
  unfold execFillStart
  refine timed_obeys (fun _ _ => ?_) h
  repeat' first
    | with_reducible assumption
    | with_reducible apply failFetch_obeys
    | with_reducible refine makeRoom_obeys (by assumption) ?_
    | with_reducible apply probed_obeys
    | with_reducible apply sendCtl_obeys
    | with_reducible apply takePlaces_obeys
    | with_reducible refine (obeys_modPart _ _).2 ?_
    | with_reducible refine forAll_obeys (fun _ _ _ => ?_) ?_
    | extract_lets
    | split

theorem execPeerProbeTimeout_obeys {now part pkg : Nat} (h : Obeys L qs vr s) :
    ResObeys L qs vr (execPeerProbeTimeout now part pkg s) :=
  timed_obeys (fun _ h => by simp [h]) h

theorem execPeerProbe_obeys {now part pkg : Nat} {x : Probe} {enrolled : Bool} (h : Obeys L qs vr s) :
    ResObeys L qs vr (execPeerProbe now part pkg x enrolled s) :=
  timed_obeys (fun _ h => by simp [h]) h

theorem execChunkArrival_obeys {now part pkg chunk : Nat} {x : ChunkData} (h : Obeys L qs vr s) :
    ResObeys L qs vr (execChunkArrival now part pkg chunk x s) := by
  unfold execChunkArrival
  refine timed_obeys (fun u hu => ?_) h
  split
  · exact hu
  · extract_lets b
    refine obeys_ite hu ?_
    split
    · exact failFetch_obeys _ _ _ (obeys_ite (check_obeys _ _ _ _ hu) (reportCode_obeys _ hu))
    · refine obeys_ite hu ?_
      extract_lets s1
      have h1 : Obeys L qs vr s1 := obeys_ite (countGlobal_obeys _ _ hu) hu
      clear_value s1
      split
      rename_i e
      have h2 := ingest_obeys_of e h1
      refine obeys_ite ?_ (obeys_ite (failFetch_obeys _ _ _ h2) (report_obeys _ (refetch_obeys _ _ _ h2)))
      exact check_obeys _ _ _ _ (modFill_obeys _ _ (healChunk_obeys _ _ _ (modBobbin_obeys _ _ _ h2)))

theorem execFillComplete_obeys {now part : Nat} (h : Obeys L qs vr s) : ResObeys L qs vr (execFillComplete now part s) := by
  unfold execFillComplete
  refine timed_obeys (fun _ h => ?_) h
  split <;> simp +contextual [h]

theorem execBobbinInstall_obeys {m : Msg} (h : Obeys L qs vr s) : ResObeys L qs vr (execBobbinInstall m s) := by
  unfold execBobbinInstall
  refine mbx_obeys (fun _ _ => ?_) h
  repeat' first
    | with_reducible assumption
    | with_reducible refine ans_later_obeys ?_
    | with_reducible refine ans_reply_obeys ?_
    | with_reducible exact ans_refuse_obeys
    | with_reducible apply modBobbin_obeys
    | extract_lets
    | split

theorem execBobbinInstallDone_obeys {now part idx : Nat} (h : Obeys L qs vr s) :
    ResObeys L qs vr (execBobbinInstallDone now part idx s) := by
  unfold execBobbinInstallDone
  refine timed_obeys (fun _ _ => ?_) h
  repeat' first
    | with_reducible assumption
    | with_reducible apply count_obeys
    | with_reducible refine makeRoom_obeys (by assumption) ?_
    | with_reducible apply writeBacking_obeys
    | with_reducible refine forAll_obeys (fun _ _ _ => ?_) ?_
    | split
    | refine obeys_upd ?_ rfl rfl rfl rfl

theorem execBobbinRemove_obeys {m : Msg} (h : Obeys L qs vr s) : ResObeys L qs vr (execBobbinRemove m s) :=
  mbx_obeys (fun _ h => by simp [h]) h

theorem execBobbinPrefetch_obeys {m : Msg} (h : Obeys L qs vr s) : ResObeys L qs vr (execBobbinPrefetch m s) :=
  mbx_obeys (fun _ h => by simp [h]) h

theorem execBobbinEvict_obeys {m : Msg} (h : Obeys L qs vr s) : ResObeys L qs vr (execBobbinEvict m s) :=
  mbx_obeys (fun _ h => by simp [h]) h

theorem execBobbinPin_obeys {m : Msg} (h : Obeys L qs vr s) : ResObeys L qs vr (execBobbinPin m s) :=
  mbx_obeys (fun _ h => by simp [h]) h

theorem execBobbinUnpin_obeys {m : Msg} (h : Obeys L qs vr s) : ResObeys L qs vr (execBobbinUnpin m s) :=
  mbx_obeys (fun _ h => by simp [h]) h

theorem execBobbinList_obeys {m : Msg} (h : Obeys L qs vr s) : ResObeys L qs vr (execBobbinList m s) :=
  mbx_obeys (fun _ h => by simp [h]) h

theorem execBobbinSources_obeys {m : Msg} (h : Obeys L qs vr s) : ResObeys L qs vr (execBobbinSources m s) :=
  mbx_obeys (fun _ h => by simp [h]) h

theorem execBobbinBacking_obeys {m : Msg} (h : Obeys L qs vr s) : ResObeys L qs vr (execBobbinBacking m s) :=
  mbx_obeys (fun _ h => by simp [h]) h

theorem execFaultRead_obeys {m : Msg} (h : Obeys L qs vr s) : ResObeys L qs vr (execFaultRead m s) :=
  mbx_obeys (fun _ h => by simp [h]) h

theorem execFaultClear_obeys {m : Msg} (h : Obeys L qs vr s) : ResObeys L qs vr (execFaultClear m s) := by
  unfold execFaultClear
  refine mbx_obeys (fun t ht => ?_) h
  have hc : Obeys L qs vr (t.modColl fun c => clearUnits (time t) c (fld m.payload 8 8)) := modColl_obeys (clearUnits_collector _ _) ht
  exact ans_done_obeys (obeys_ite ((obeys_modAon _).2 hc) hc)

theorem execFaultInject_obeys {m : Msg} (h : Obeys L qs vr s) : ResObeys L qs vr (execFaultInject m s) :=
  mbx_obeys (fun _ h => by simp [h]) h

theorem execFaultReport_obeys {now : Nat} {r : Report} (h : Obeys L qs vr s) : ResObeys L qs vr (execFaultReport now r s) :=
  timed_obeys (fun _ h => by simp [h]) h

theorem execCheckerExercise_obeys {now unit engine checker : Nat} {flagged : Bool} (h : Obeys L qs vr s) :
    ResObeys L qs vr (execCheckerExercise now unit engine checker flagged s) :=
  timed_obeys (fun _ h => by simp [h]) h

theorem execErrorPinTest_obeys {now unit : Nat} {answered : Bool} (h : Obeys L qs vr s) :
    ResObeys L qs vr (execErrorPinTest now unit answered s) :=
  timed_obeys (fun _ h => by simp [h]) h

theorem execErrorPinTestTimeout_obeys {now unit : Nat} (h : Obeys L qs vr s) :
    ResObeys L qs vr (execErrorPinTestTimeout now unit s) :=
  timed_obeys (fun _ h => by simp [h]) h

theorem execWatchdogExpiry_obeys {now : Nat} (h : Obeys L qs vr s) : ResObeys L qs vr (execWatchdogExpiry now s) :=
  timed_obeys (fun _ h => by simp [h]) h

theorem execThermalThrottleEngaged_obeys {now : Nat} (h : Obeys L qs vr s) : ResObeys L qs vr (execThermalThrottleEngaged now s) :=
  timed_obeys (fun _ h => by simp [h]) h

theorem execThermalThrottleReleased_obeys {now : Nat} (h : Obeys L qs vr s) : ResObeys L qs vr (execThermalThrottleReleased now s) :=
  timed_obeys (fun _ h => by simp +contextual [h]) h

theorem execAnalogueSlice_obeys {now die item : Nat} {tiles : List Nat} {inTolerance : Bool} (h : Obeys L qs vr s) :
    ResObeys L qs vr (execAnalogueSlice now die item tiles inTolerance s) :=
  timed_obeys (fun _ h => by simp [h]) h

theorem execAnalogueRotationMissed_obeys {now item : Nat} (h : Obeys L qs vr s) :
    ResObeys L qs vr (execAnalogueRotationMissed now item s) :=
  timed_obeys (fun _ h => by simp [h]) h

theorem execContextCreate_obeys {m : Msg} (h : Obeys L qs vr s) : ResObeys L qs vr (execContextCreate m s) := by
  unfold execContextCreate
  refine mbx_obeys (fun _ h => ?_) h
  split <;> simp +contextual [h]

theorem execContextDestroy_obeys {m : Msg} (h : Obeys L qs vr s) : ResObeys L qs vr (execContextDestroy m s) := by
  unfold execContextDestroy
  refine mbx_obeys (fun _ h => ?_) h
  dsimp only
  split <;> simp +contextual [h]

theorem execContextReset_obeys {m : Msg} (h : Obeys L qs vr s) : ResObeys L qs vr (execContextReset m s) := by
  unfold execContextReset
  refine mbx_obeys (fun _ _ => ?_) h
  repeat' first
    | with_reducible assumption
    | with_reducible refine ans_done_obeys ?_
    | with_reducible refine ans_later_obeys ?_
    | with_reducible exact ans_refuse_obeys
    | with_reducible apply failAll_obeys
    | with_reducible refine (obeys_modPart _ _).2 ?_
    | extract_lets
    | split

theorem execProcessEnd_obeys {m : Msg} (h : Obeys L qs vr s) : ResObeys L qs vr (execProcessEnd m s) :=
  mbx_obeys (fun _ h => by simp +contextual [h]) h

theorem execMemAlloc_obeys {m : Msg} (h : Obeys L qs vr s) : ResObeys L qs vr (execMemAlloc m s) := by
  unfold execMemAlloc
  refine mbx_obeys (fun _ _ => ?_) h
  repeat' first
    | with_reducible assumption
    | with_reducible refine ans_later_obeys ?_
    | with_reducible refine ans_reply_obeys ?_
    | with_reducible exact ans_refuse_obeys
    | with_reducible refine (obeys_modPart _ _).2 ?_
    | extract_lets
    | split

theorem execZeroFillDone_obeys {now part obj : Nat} (h : Obeys L qs vr s) : ResObeys L qs vr (execZeroFillDone now part obj s) := by
  unfold execZeroFillDone
  refine timed_obeys (fun _ h => ?_) h
  dsimp only
  split <;> simp +contextual [h]

theorem execMemFree_obeys {m : Msg} (h : Obeys L qs vr s) : ResObeys L qs vr (execMemFree m s) := by
  unfold execMemFree
  refine mbx_obeys (fun _ _ => ?_) h
  repeat' first
    | with_reducible assumption
    | with_reducible refine ans_done_obeys ?_
    | with_reducible exact ans_refuse_obeys
    | with_reducible apply reap_obeys
    | with_reducible refine (obeys_modPart _ _).2 ?_
    | extract_lets
    | split

theorem execFenceCreate_obeys {m : Msg} (h : Obeys L qs vr s) : ResObeys L qs vr (execFenceCreate m s) := by
  unfold execFenceCreate
  refine mbx_obeys (fun _ _ => ?_) h
  repeat' first
    | with_reducible assumption
    | with_reducible refine ans_detail_obeys ?_
    | with_reducible exact ans_refuse_obeys
    | with_reducible refine (obeys_modPart _ _).2 ?_
    | extract_lets
    | split

theorem execFenceSignal_obeys {m : Msg} (h : Obeys L qs vr s) : ResObeys L qs vr (execFenceSignal m s) := by
  unfold execFenceSignal
  refine mbx_obeys (fun _ _ => ?_) h
  repeat' first
    | with_reducible assumption
    | with_reducible refine ans_ite_obeys ?_ ?_
    | with_reducible refine ans_done_obeys ?_
    | with_reducible exact ans_refuse_obeys
    | with_reducible refine fenceMsg_obeys (fun _ => ?_)
    | with_reducible apply signalFence_obeys

theorem execFenceReset_obeys {m : Msg} (h : Obeys L qs vr s) : ResObeys L qs vr (execFenceReset m s) := by
  unfold execFenceReset
  refine mbx_obeys (fun _ _ => ?_) h
  repeat' first
    | with_reducible assumption
    | with_reducible refine ans_ite_obeys ?_ ?_
    | with_reducible refine ans_done_obeys ?_
    | with_reducible exact ans_refuse_obeys
    | with_reducible refine fenceMsg_obeys (fun _ => ?_)
    | with_reducible refine (obeys_modPart _ _).2 ?_

theorem execFenceDestroy_obeys {m : Msg} (h : Obeys L qs vr s) : ResObeys L qs vr (execFenceDestroy m s) := by
  unfold execFenceDestroy
  refine mbx_obeys (fun _ _ => ?_) h
  repeat' first
    | with_reducible assumption
    | with_reducible refine ans_ite_obeys ?_ ?_
    | with_reducible refine ans_done_obeys ?_
    | with_reducible exact ans_refuse_obeys
    | with_reducible refine fenceMsg_obeys (fun _ => ?_)
    | with_reducible apply reap_obeys
    | with_reducible apply signalFence_obeys
    | with_reducible refine (obeys_modPart _ _).2 ?_

theorem execFenceTimeout_obeys {now slot j : Nat} (h : Obeys L qs vr s) : ResObeys L qs vr (execFenceTimeout now slot j s) :=
  timed_obeys (fun _ h => by simp [h]) h

theorem execEcho_obeys {m : Msg} (h : Obeys L qs vr s) : ResObeys L qs vr (execEcho m s) :=
  mbx_obeys (fun _ h => by simp [h]) h

theorem execCapQuery_obeys {m : Msg} (h : Obeys L qs vr s) : ResObeys L qs vr (execCapQuery m s) :=
  mbx_obeys (fun _ h => by simp [h]) h

theorem execBootStatus_obeys {m : Msg} (h : Obeys L qs vr s) : ResObeys L qs vr (execBootStatus m s) :=
  mbx_obeys (fun _ h => by simp [h]) h

theorem execLcTransition_obeys {m : Msg} {eraseOk : Bool} (h : Obeys L qs vr s) : ResObeys L qs vr (execLcTransition m eraseOk s) := by
  unfold execLcTransition
  refine mbx_obeys (fun _ _ => ?_) h
  repeat' first
    | with_reducible assumption
    | with_reducible exact ans_refuse_obeys
    | with_reducible refine draw_obeys_of (by assumption) ?_
    | extract_lets
    | split
    | refine obeys_upd ?_ rfl rfl rfl rfl

theorem execFwUpdate_obeys {m : Msg} (h : Obeys L qs vr s) : ResObeys L qs vr (execFwUpdate m s) := by
  unfold execFwUpdate
  refine mbx_obeys (fun _ _ => ?_) h
  repeat' first
    | with_reducible assumption
    | with_reducible refine writeImage_obeys ?_

theorem execFwRecover_obeys {m : Msg} (h : Obeys L qs vr s) : ResObeys L qs vr (execFwRecover m s) := by
  unfold execFwRecover
  refine mbx_obeys (fun _ _ => ?_) h
  repeat' first
    | with_reducible assumption
    | with_reducible refine writeImage_obeys ?_

theorem execFlashOperationDone_obeys {now : Nat} {ok : Bool} (h : Obeys L qs vr s) :
    ResObeys L qs vr (execFlashOperationDone now ok s) := by
  unfold execFlashOperationDone
  refine timed_obeys (fun _ h => ?_) h
  split <;> simp +contextual [h]

theorem execSleepEnter_obeys {m : Msg} (h : Obeys L qs vr s) : ResObeys L qs vr (execSleepEnter m s) :=
  mbx_obeys (fun _ h => by simp [h]) h

theorem execCounterSelect_obeys {m : Msg} (h : Obeys L qs vr s) : ResObeys L qs vr (execCounterSelect m s) :=
  mbx_obeys (fun _ h => by simp [h]) h

theorem execCounterRead_obeys {m : Msg} (h : Obeys L qs vr s) : ResObeys L qs vr (execCounterRead m s) :=
  mbx_obeys (fun _ h => by simp [h]) h

theorem execCounterFreeze_obeys {m : Msg} (h : Obeys L qs vr s) : ResObeys L qs vr (execCounterFreeze m s) :=
  mbx_obeys (fun _ h => by simp +contextual [h]) h

theorem execFreezeTick_obeys {now : Nat} (h : Obeys L qs vr s) : ResObeys L qs vr (execFreezeTick now s) :=
  timed_obeys (fun _ h => by simp [h]) h

theorem execPmcLowHalfRead_obeys {func off : Nat} (h : Obeys L qs vr s) : ResObeys L qs vr (execPmcLowHalfRead func off s) := by
  unfold execPmcLowHalfRead
  refine untimed_obeys (fun _ h => ?_) h
  split
  · exact h
  · split <;> simp +contextual [h]

theorem execTraceConfig_obeys {m : Msg} (h : Obeys L qs vr s) : ResObeys L qs vr (execTraceConfig m s) := by
  unfold execTraceConfig
  refine mbx_obeys (fun _ _ => ?_) h
  repeat' first
    | with_reducible assumption
    | with_reducible refine ans_done_obeys ?_
    | with_reducible exact ans_refuse_obeys
    | with_reducible apply reap_obeys
    | with_reducible apply traceOff_obeys
    | with_reducible apply traceSync_obeys
    | with_reducible refine (obeys_modPart _ _).2 ?_
    | extract_lets
    | split

theorem execWatchSelect_obeys {m : Msg} (h : Obeys L qs vr s) : ResObeys L qs vr (execWatchSelect m s) := by
  unfold execWatchSelect
  refine mbx_obeys (fun _ _ => ?_) h
  repeat' first
    | with_reducible assumption
    | with_reducible refine ans_done_obeys ?_
    | with_reducible exact ans_refuse_obeys
    | with_reducible apply staged_obeys
    | with_reducible refine (obeys_modPart _ _).2 ?_
    | extract_lets
    | split

theorem execHangReport_obeys {m : Msg} (h : Obeys L qs vr s) : ResObeys L qs vr (execHangReport m s) := by
  unfold execHangReport
  refine mbx_obeys (fun _ h => ?_) h
  split <;> simp +contextual [h]

theorem execGstStop_obeys {now : Nat} {alsoRelease : Bool} (h : Obeys L qs vr s) :
    ResObeys L qs vr (execGstStop now alsoRelease s) :=
  timed_obeys (fun _ h => by simp [h]) h

theorem execGstRelease_obeys {now : Nat} (h : Obeys L qs vr s) : ResObeys L qs vr (execGstRelease now s) :=
  timed_obeys (fun _ h => by simp [h]) h

theorem execGstHalted_obeys {now : Nat} (h : Obeys L qs vr s) : ResObeys L qs vr (execGstHalted now s) :=
  timed_obeys (fun _ h => by simp [h]) h

theorem execGstScanSel_obeys {tile chain : Nat} (h : Obeys L qs vr s) : ResObeys L qs vr (execGstScanSel tile chain s) :=
  untimed_obeys (fun _ h => by simp [h]) h

theorem execGstScanData_obeys {parityError : Bool} (h : Obeys L qs vr s) : ResObeys L qs vr (execGstScanData parityError s) :=
  untimed_obeys (fun _ h => by simp [h]) h

theorem execJobCreate_obeys {m : Msg} {answers : List Answer} (h : Obeys L qs vr s) : ResObeys L qs vr (execJobCreate m answers s) := by
  unfold execJobCreate
  refine mbx_obeys (fun _ h => ?_) h
  split <;> simp +contextual [h]

theorem execJobMemberTimeout_obeys {now job : Nat} (h : Obeys L qs vr s) : ResObeys L qs vr (execJobMemberTimeout now job s) :=
  timed_obeys (fun _ h => by simp [h]) h

theorem execJobQuery_obeys {m : Msg} (h : Obeys L qs vr s) : ResObeys L qs vr (execJobQuery m s) := by
  unfold execJobQuery
  refine mbx_obeys (fun _ h => ?_) h
  split <;> simp +contextual [h]

theorem execJobDestroy_obeys {m : Msg} (h : Obeys L qs vr s) : ResObeys L qs vr (execJobDestroy m s) := by
  unfold execJobDestroy
  refine mbx_obeys (fun _ h => ?_) h
  split <;> simp +contextual [h]

theorem execPartitionCreate_obeys {m : Msg} (h : Obeys L qs vr s) : ResObeys L qs vr (execPartitionCreate m s) :=
  mbx_obeys (fun _ h => by simp [h]) h

theorem execPartitionTablesBuilt_obeys {now part : Nat} (h : Obeys L qs vr s) :
    ResObeys L qs vr (execPartitionTablesBuilt now part s) :=
  timed_obeys (fun _ h => by simp [h]) h

theorem execPartitionDestroy_obeys {m : Msg} (h : Obeys L qs vr s) : ResObeys L qs vr (execPartitionDestroy m s) :=
  mbx_obeys (fun _ h => by simp [h]) h

theorem execPartitionScrubVerified_obeys {now part : Nat} {countersOk : Bool} (h : Obeys L qs vr s) :
    ResObeys L qs vr (execPartitionScrubVerified now part countersOk s) := by
  unfold execPartitionScrubVerified
  refine timed_obeys (fun _ _ => ?_) h
  repeat' first
    | with_reducible assumption
    | with_reducible apply answerOpt_obeys
    | with_reducible apply clearTiles_obeys
    | with_reducible apply hbmClear_obeys
    | with_reducible apply idleTiles_obeys
    | with_reducible apply requestRails_obeys
    | with_reducible apply selfReset_obeys
    | with_reducible refine forAll_obeys (fun _ _ _ => ?_) ?_
    | split
    | refine obeys_upd ?_ rfl rfl rfl rfl

theorem execProgramLoad_obeys {m : Msg} (h : Obeys L qs vr s) : ResObeys L qs vr (execProgramLoad m s) := by
  unfold execProgramLoad
  extract_lets b
  split
  · exact ⟨_, rfl, h⟩
  · exact mbx_obeys (fun _ ht => loadOwn_obeys ht) h

theorem execProgramLoadDone_obeys {now part prog : Nat} (h : Obeys L qs vr s) :
    ResObeys L qs vr (execProgramLoadDone now part prog s) := by
  unfold execProgramLoadDone
  refine timed_obeys (fun _ h => ?_) h
  dsimp only
  split <;> simp +contextual [h]

theorem execProgramUnload_obeys {m : Msg} (h : Obeys L qs vr s) : ResObeys L qs vr (execProgramUnload m s) := by
  unfold execProgramUnload
  refine mbx_obeys (fun _ h => ?_) h
  dsimp only
  split <;> simp +contextual [h]

theorem execPlacementHint_obeys {m : Msg} (h : Obeys L qs vr s) : ResObeys L qs vr (execPlacementHint m s) := by
  unfold execPlacementHint
  refine mbx_obeys (fun _ h => ?_) h
  dsimp only
  split <;> simp +contextual [h]

theorem execPlacementLog_obeys {m : Msg} (h : Obeys L qs vr s) : ResObeys L qs vr (execPlacementLog m s) := by
  unfold execPlacementLog
  refine mbx_obeys (fun _ _ => ?_) h
  repeat' first
    | with_reducible assumption
    | with_reducible refine ans_done_obeys ?_
    | with_reducible exact ans_refuse_obeys
    | with_reducible apply objWrite_obeys
    | with_reducible refine (obeys_modCtx _ _).2 ?_
    | extract_lets
    | split

theorem execSpdmRequest_obeys {now : Nat} {q : SpdmReq} (h : Obeys L qs vr s) : ResObeys L qs vr (execSpdmRequest now q s) :=
  timed_obeys (fun _ h => by simp [h]) h

theorem execDebugEnable_obeys {m : Msg} (h : Obeys L qs vr s) : ResObeys L qs vr (execDebugEnable m s) := by
  unfold execDebugEnable
  refine mbx_obeys (fun _ _ => ?_) h
  repeat' first
    | with_reducible assumption
    | with_reducible refine ans_done_obeys ?_
    | with_reducible exact ans_refuse_obeys
    | with_reducible apply traceOff_obeys
    | with_reducible refine forAll_obeys (fun _ _ _ => ?_) ?_
    | split
    | refine obeys_upd ?_ rfl rfl rfl rfl

theorem execDevsetEnroll_obeys {m : Msg} (h : Obeys L qs vr s) : ResObeys L qs vr (execDevsetEnroll m s) := by
  unfold execDevsetEnroll
  refine mbx_obeys (fun _ _ => ?_) h
  repeat' first
    | with_reducible assumption
    | with_reducible exact ans_refuse_obeys
    | with_reducible apply leaveSet_obeys
    | extract_lets
    | split
    | refine obeys_upd ?_ rfl rfl rfl rfl

theorem execDevsetLeave_obeys {m : Msg} (h : Obeys L qs vr s) : ResObeys L qs vr (execDevsetLeave m s) :=
  mbx_obeys (fun _ h => by simp [h]) h

theorem execMbxKeyExport_obeys {m : Msg} (h : Obeys L qs vr s) : ResObeys L qs vr (execMbxKeyExport m s) :=
  mbx_obeys (fun _ h => by simp [h]) h

theorem execMma_obeys {t a b bank : Nat} {clear bounded : Bool} {bound : Nat} (h : Obeys L qs vr s) :
    ResObeys L qs vr (execMma t a b bank clear bounded bound s) := by
  unfold execMma
  refine skein_obeys (fun u k st r hu => ?_) h
  extract_lets va rows x
  refine guarded_obeys _ _ _ _ _ (fun v hv => ?_) hu
  extract_lets poison old q w1 w2 w3 w4
  refine obeys_ite (skeinFault_obeys _ _ _ hv) (obeys_ite (failStep_obeys _ _ hv) ?_)
  exact moved_obeys _ _ _ _ _ _ (moved_obeys _ _ _ _ _ _ (count_obeys _ _ _ (count_obeys _ _ _ (setRun_obeys _ _ hv))))

theorem execDrain_obeys {t d bank rnd : Nat} {sat : Bool} {shift : Nat} (h : Obeys L qs vr s) :
    ResObeys L qs vr (execDrain t d bank rnd sat shift s) := by
  unfold execDrain
  refine skein_obeys (fun u k st r hu => ?_) h
  extract_lets f v x int cs
  generalize e : drawGroups u t (if x.format = 0 then 0 else rnd) cs.length = g
  obtain ⟨gs, w⟩ := g
  have hw : Obeys L qs vr w := drawGroups_obeys_of e hu
  exact moved_obeys _ _ _ _ _ _ (noteWords_obeys _ _ _ (watchOp_obeys _ _ _ _ (putAll_obeys _ _ _ (setRun_obeys _ _ hw))))

theorem execVld_obeys {t a v lane rnd : Nat} (h : Obeys L qs vr s) : ResObeys L qs vr (execVld t a v lane rnd s) := by
  unfold execVld
  refine skein_obeys (fun u k st r hu => ?_) h
  refine guarded_obeys _ _ _ _ _ (fun v' hv => ?_) hu
  extract_lets f x es same
  refine obeys_ite (skeinFault_obeys _ _ _ hv) ?_
  generalize e : drawGroups v' t (if same then 0 else rnd) es.length = g
  obtain ⟨gs, w⟩ := g
  have hw : Obeys L qs vr w := drawGroups_obeys_of e hv
  exact moved_obeys _ _ _ _ _ _ (count_obeys _ _ _ (setRun_obeys _ _ hw))

theorem execVst_obeys {t d v lane rnd : Nat} {sat compress maps : Bool} (h : Obeys L qs vr s) :
    ResObeys L qs vr (execVst t d v lane rnd sat compress maps s) := by
  unfold execVst
  refine skein_obeys (fun u k st r' hu => ?_) h
  extract_lets f w x vs written
  generalize e : drawGroups u t (if x.format = laneFmt lane then 0 else rnd) written = g
  obtain ⟨gs, y⟩ := g
  have hy : Obeys L qs vr y := drawGroups_obeys_of e hu
  exact moved_obeys _ _ _ _ _ _ (count_obeys _ _ _ (noteWords_obeys _ _ _ (watchOp_obeys _ _ _ _ (putAll_obeys _ _ _ (setRun_obeys _ _ hy)))))

theorem execVop_obeys {t fn lane x y z d rel : Nat} (h : Obeys L qs vr s) : ResObeys L qs vr (execVop t fn lane x y z d rel s) :=
  skein_obeys (fun _ _ _ _ h => by simp [h]) h

theorem execVfn_obeys {t fn x d : Nat} (h : Obeys L qs vr s) : ResObeys L qs vr (execVfn t fn x d s) :=
  skein_obeys (fun _ _ _ _ h => by simp [h]) h

theorem execVred_obeys {t fn x d : Nat} (h : Obeys L qs vr s) : ResObeys L qs vr (execVred t fn x d s) :=
  skein_obeys (fun _ _ _ _ h => by simp [h]) h

theorem execNop_obeys {t : Nat} (h : Obeys L qs vr s) : ResObeys L qs vr (execNop t s) :=
  skein_obeys (fun _ _ _ _ h => by simp [h]) h

theorem execSkipz_obeys {t sc n : Nat} (h : Obeys L qs vr s) : ResObeys L qs vr (execSkipz t sc n s) :=
  skein_obeys (fun _ _ _ _ h => by simp [h]) h

theorem execSkipnz_obeys {t sc n : Nat} (h : Obeys L qs vr s) : ResObeys L qs vr (execSkipnz t sc n s) :=
  skein_obeys (fun _ _ _ _ h => by simp [h]) h

theorem execSeti_obeys {t d : Nat} {v : BitVec 32} (h : Obeys L qs vr s) : ResObeys L qs vr (execSeti t d v s) :=
  skein_obeys (fun _ _ _ _ h => by simp [h]) h

theorem execPred_obeys {t d : Nat} (h : Obeys L qs vr s) : ResObeys L qs vr (execPred t d s) :=
  skein_obeys (fun _ _ _ _ h => by simp [h]) h

theorem execStat_obeys {t d : Nat} (h : Obeys L qs vr s) : ResObeys L qs vr (execStat t d s) :=
  skein_obeys (fun _ _ _ _ h => by simp [h]) h

theorem execSst_obeys {t sc off d : Nat} (h : Obeys L qs vr s) : ResObeys L qs vr (execSst t sc off d s) :=
  skein_obeys (fun _ _ _ _ h => by simp [h]) h

@[simp] theorem askFetch_obeys (st : Step) (a m qp : Nat) (h : Obeys L qs vr s) : Obeys L qs vr (askFetch s st a m qp) := by
  unfold askFetch
  extract_lets
  split
  rename_i e
  split
  rename_i e'
  exact sendCtl_obeys _ _ _ _ (draw_obeys_of e' (draw_obeys_of e h))

theorem execFetch_obeys {t a d member : Nat} (h : Obeys L qs vr s) : ResObeys L qs vr (execFetch t a d member s) := by
  unfold execFetch
  refine skein_obeys (fun u k st r hu => ?_) h
  split
  · exact copyView_obeys _ _ _ _ _ hu
  · split
    · exact withholdOp_obeys _ _ _ hu
    · split
      rename_i e
      exact askFetch_obeys _ _ _ _ ((obeys_modStep _ _).2 (setRun_obeys _ _ (newOp_obeys_of e hu)))

theorem execSend_obeys {t a d member : Nat} (h : Obeys L qs vr s) : ResObeys L qs vr (execSend t a d member s) := by
  unfold execSend
  refine skein_obeys (fun u k st r hu => ?_) h
  extract_lets f k' s1 src
  have h1 : Obeys L qs vr s1 := copyRead_obeys _ _ _ _ hu
  split
  · exact obeys_ite (check_obeys _ _ _ _ hu) (copyView_obeys _ _ _ _ _ hu)
  · split
    · exact withholdOp_obeys _ _ _ hu
    · split
      rename_i e
      split
      rename_i e'
      exact sendAll_obeys _ _ ((obeys_modStep _ _).2 (setRun_obeys _ _ (moved_obeys _ _ _ _ _ _ (draw_obeys_of e' (newOp_obeys_of e h1)))))

theorem execColl_obeys {t a d pattern red first count root : Nat} (h : Obeys L qs vr s) :
    ResObeys L qs vr (execColl t a d pattern red first count root s) := by
  unfold execColl
  refine skein_obeys (fun u k st r hu => ?_) h
  extract_lets f j own next prev s1 k'
  have h1 : Obeys L qs vr s1 := copyRead_obeys _ _ _ _ hu
  split
  · split
    rename_i e
    have h2 := draw_obeys_of e h1
    extract_lets c
    split
    rename_i e'
    have h3 := newOp_obeys_of e' h2
    exact addPlan_obeys _ _ (addPlan_obeys _ _ ((obeys_modStep _ _).2 (setRun_obeys _ _ (moved_obeys _ _ _ _ _ _ h3))))
  · exact withholdOp_obeys _ _ _ hu
  · exact withholdOp_obeys _ _ _ hu

theorem execSort_obeys {t a idx : Nat} (h : Obeys L qs vr s) : ResObeys L qs vr (execSort t a idx s) := by
  unfold execSort
  refine skein_obeys (fun _ _ _ _ _ => ?_) h
  repeat' first
    | with_reducible assumption
    | with_reducible apply failStep_obeys
    | with_reducible apply feedSorter_obeys
    | with_reducible refine pickFree_obeys_of (by assumption) ?_
    | with_reducible apply skeinFault_obeys
    | extract_lets
    | split
    | refine obeys_upd ?_ rfl rfl rfl rfl

theorem execDigest_obeys {t a d : Nat} (h : Obeys L qs vr s) : ResObeys L qs vr (execDigest t a d s) := by
  unfold execDigest
  refine skein_obeys (fun _ _ _ _ _ => ?_) h
  repeat' first
    | with_reducible assumption
    | with_reducible refine obeys_ite ?_ ?_
    | with_reducible apply moved_obeys
    | with_reducible apply putAll_obeys
    | with_reducible apply skeinFault_obeys

theorem execMapclr_obeys {t d : Nat} (h : Obeys L qs vr s) : ResObeys L qs vr (execMapclr t d s) :=
  skein_obeys (fun _ _ _ _ h => by simp [h]) h

theorem execSortStart_obeys {now die : Nat} (h : Obeys L qs vr s) : ResObeys L qs vr (execSortStart now die s) := by
  unfold execSortStart
  refine timed_obeys (fun _ _ => ?_) h
  repeat' first
    | with_reducible assumption
    | with_reducible apply failStep_obeys
    | with_reducible apply feedSorter_obeys
    | with_reducible apply requestDone_obeys
    | with_reducible apply traceStep_obeys
    | with_reducible refine (obeys_modSorter _ _).2 ?_
    | extract_lets
    | split

theorem execSortComplete_obeys {now die : Nat} (h : Obeys L qs vr s) : ResObeys L qs vr (execSortComplete now die s) := by
  unfold execSortComplete
  refine timed_obeys (fun _ _ => ?_) h
  repeat' first
    | with_reducible assumption
    | with_reducible apply charge_obeys
    | with_reducible apply check_obeys
    | with_reducible apply feedSorter_obeys
    | with_reducible apply report_obeys
    | with_reducible apply sendBuckets_obeys
    | with_reducible apply settleSkeins_obeys
    | with_reducible apply sortCounted_obeys
    | with_reducible apply tellPeers_obeys
    | with_reducible apply traceStep_obeys
    | with_reducible apply writeSort_obeys
    | extract_lets
    | split
    | refine obeys_upd ?_ rfl rfl rfl rfl

theorem execManifestArrival_obeys {now slot idx expert : Nat} {cell : Manifest} (h : Obeys L qs vr s) :
    ResObeys L qs vr (execManifestArrival now slot idx expert cell s) := by
  unfold execManifestArrival
  refine timed_obeys (fun _ h => ?_) h
  split <;> simp +contextual [h]

theorem execLinkPortUp_obeys {now port cells bulks : Nat} (h : Obeys L qs vr s) :
    ResObeys L qs vr (execLinkPortUp now port cells bulks s) :=
  timed_obeys (fun _ h => by simp [h]) h

theorem execKeyExchangeFrame_obeys {port : Nat} {chainOk sigOk : Bool} {peerState : Nat} {last : Bool} (h : Obeys L qs vr s) :
    ResObeys L qs vr (execKeyExchangeFrame port chainOk sigOk peerState last s) :=
  untimed_obeys (fun _ h => by simp [h]) h

theorem execLinkPortDown_obeys {now port : Nat} (h : Obeys L qs vr s) : ResObeys L qs vr (execLinkPortDown now port s) :=
  timed_obeys (fun _ h => by simp [h]) h

theorem execCreditReturn_obeys {now port : Nat} {bulk : Bool} {n : Nat} (h : Obeys L qs vr s) :
    ResObeys L qs vr (execCreditReturn now port bulk n s) := by
  unfold execCreditReturn
  refine timed_obeys (fun _ _ => ?_) h
  repeat' first
    | with_reducible assumption
    | with_reducible refine obeys_ite ?_ ?_
    | with_reducible apply drainTx_obeys
    | with_reducible apply dropPort_obeys
    | with_reducible apply reportCode_obeys
    | with_reducible apply sweepBobbins_obeys
    | with_reducible refine (obeys_modPort _ _).2 ?_
    | with_reducible refine forAll_obeys (fun _ _ _ => ?_) ?_

theorem execCellArrival_obeys {now port : Nat} {c : Cell} (h : Obeys L qs vr s) : ResObeys L qs vr (execCellArrival now port c s) := by
  unfold execCellArrival
  refine timed_obeys (fun u hu => ?_) h
  refine obeys_ite (frameFailure_obeys _ hu) ?_
  extract_lets ctl s1
  have h1 : Obeys L qs vr s1 := arrive_obeys _ _ _ _ _ _ _ _ _ hu
  clear_value s1 ctl
  cases ctl with
  | some x => exact takeCtl_obeys _ h1
  | none => exact h1

theorem execBulkMessageArrival_obeys {now port : Nat} {b : Bulk} (h : Obeys L qs vr s) :
    ResObeys L qs vr (execBulkMessageArrival now port b s) :=
  timed_obeys (fun _ h => by simp [h]) h

theorem execPlanStart_obeys {now engine : Nat} (h : Obeys L qs vr s) : ResObeys L qs vr (execPlanStart now engine s) := by
  unfold execPlanStart
  refine timed_obeys (fun _ _ => ?_) h
  repeat' first
    | with_reducible assumption
    | with_reducible apply planRun_obeys
    | with_reducible apply startAdded_obeys
    | with_reducible apply traceStep_obeys
    | with_reducible refine (obeys_modReducer _ _).2 ?_
    | extract_lets
    | split

theorem execPlanComplete_obeys {now engine busy : Nat} (h : Obeys L qs vr s) :
    ResObeys L qs vr (execPlanComplete now engine busy s) := by
  unfold execPlanComplete
  refine timed_obeys (fun _ h => ?_) h
  repeat' split
  all_goals simp +contextual [h]

theorem execRemoteTimeout_obeys {now op : Nat} (h : Obeys L qs vr s) : ResObeys L qs vr (execRemoteTimeout now op s) := by
  unfold execRemoteTimeout
  refine timed_obeys (fun _ h => ?_) h
  split <;> simp +contextual [h]

theorem execQueuePairDown_obeys {now qp : Nat} (h : Obeys L qs vr s) : ResObeys L qs vr (execQueuePairDown now qp s) :=
  timed_obeys (fun _ h => by simp +contextual [h]) h

theorem execQueueCreate_obeys {m : Msg} (h : Obeys L qs vr s) : ResObeys L qs vr (execQueueCreate m s) := by
  unfold execQueueCreate
  refine mbx_obeys (fun _ _ => ?_) h
  repeat' first
    | with_reducible assumption
    | with_reducible refine ans_detail_obeys ?_
    | with_reducible exact ans_refuse_obeys
    | with_reducible refine (obeys_modQueue _ _).2 ?_
    | extract_lets
    | split

theorem execQueueDestroy_obeys {m : Msg} (h : Obeys L qs vr s) : ResObeys L qs vr (execQueueDestroy m s) := by
  unfold execQueueDestroy
  refine mbx_obeys (fun _ h => ?_) h
  split <;> simp +contextual [h]

theorem execStepQueueDoorbell_obeys {func index tail : Nat} (h : Obeys L qs vr s) :
    ResObeys L qs vr (execStepQueueDoorbell func index tail s) :=
  untimed_obeys (fun _ h => by simp [h]) h

theorem execSchedSet_obeys {m : Msg} (h : Obeys L qs vr s) : ResObeys L qs vr (execSchedSet m s) :=
  mbx_obeys (fun _ h => by simp [h]) h

theorem execAccountRead_obeys {m : Msg} (h : Obeys L qs vr s) : ResObeys L qs vr (execAccountRead m s) :=
  mbx_obeys (fun _ h => by simp [h]) h

theorem execPowerLimit_obeys {m : Msg} (h : Obeys L qs vr s) : ResObeys L qs vr (execPowerLimit m s) := by
  unfold execPowerLimit
  refine mbx_obeys (fun _ h => ?_) h
  dsimp only
  split <;> simp +contextual [draw, h]

theorem execPowerModelUpdate_obeys {now modelMw : Nat} (h : Obeys L qs vr s) :
    ResObeys L qs vr (execPowerModelUpdate now modelMw s) := by
  unfold execPowerModelUpdate
  refine timed_obeys (fun _ h => ?_) h
  repeat' split
  all_goals simp +contextual [h]

theorem execStepAdmit_obeys {now q slot base fbBase : Nat} (h : Obeys L qs vr s) :
    ResObeys L qs vr (execStepAdmit now q slot base fbBase s) := by
  unfold execStepAdmit
  refine timed_obeys (fun _ _ => ?_) h
  repeat' first
    | with_reducible assumption
    | with_reducible refine acceptStep_obeys (by assumption) ?_
    | split
    | refine obeys_upd ?_ rfl rfl rfl rfl

theorem execStepReady_obeys {now slot : Nat} (h : Obeys L qs vr s) : ResObeys L qs vr (execStepReady now slot s) := by
  unfold execStepReady
  refine timed_obeys (fun _ h => ?_) h
  dsimp only
  split <;> simp +contextual [h]

theorem execStepBoundary_obeys {now part : Nat} {audit : Audit} (h : Obeys L qs vr s) :
    ResObeys L qs vr (execStepBoundary now part audit s) := by
  unfold execStepBoundary
  refine timed_obeys (fun _ _ => ?_) h
  repeat' first
    | with_reducible assumption
    | with_reducible apply enterBoundary_obeys
    | with_reducible apply failStep_obeys
    | with_reducible apply reportCode_obeys
    | with_reducible apply rerouteJobs_obeys
    | with_reducible apply resetPartition_obeys
    | with_reducible apply startBlockReset_obeys
    | with_reducible apply startStep_obeys
    | extract_lets
    | split

theorem execQuantumExpiry_obeys {now part : Nat} (h : Obeys L qs vr s) : ResObeys L qs vr (execQuantumExpiry now part s) :=
  timed_obeys (fun _ h => by simp [h]) h

theorem execStepSwitch_obeys {now part : Nat} {spill : Bool} (h : Obeys L qs vr s) :
    ResObeys L qs vr (execStepSwitch now part spill s) := by
  unfold execStepSwitch
  refine timed_obeys (fun _ h => ?_) h
  repeat' split
  all_goals simp +contextual [h]

theorem execSpillDone_obeys {now part : Nat} (h : Obeys L qs vr s) : ResObeys L qs vr (execSpillDone now part s) := by
  unfold execSpillDone
  refine timed_obeys (fun _ h => ?_) h
  split
  · exact h
  · split <;> simp +contextual [h]

theorem execRestoreDone_obeys {now slot : Nat} {places : List (Nat × Nat × Nat)} (h : Obeys L qs vr s) :
    ResObeys L qs vr (execRestoreDone now slot places s) := by
  unfold execRestoreDone
  refine timed_obeys (fun _ h => ?_) h
  split <;> simp +contextual [h]

theorem execFallbackEvaluate_obeys {now slot : Nat} (h : Obeys L qs vr s) : ResObeys L qs vr (execFallbackEvaluate now slot s) := by
  unfold execFallbackEvaluate
  refine timed_obeys (fun _ h => ?_) h
  split <;> simp +contextual [h]

theorem execDeadlineExpiry_obeys {now slot : Nat} (h : Obeys L qs vr s) : ResObeys L qs vr (execDeadlineExpiry now slot s) := by
  unfold execDeadlineExpiry
  refine timed_obeys (fun _ h => ?_) h
  split <;> simp +contextual [h]

theorem execHangTimeExpiry_obeys {now part : Nat} (h : Obeys L qs vr s) : ResObeys L qs vr (execHangTimeExpiry now part s) :=
  timed_obeys (fun _ h => by simp [h]) h

theorem execReleaseGatePass_obeys {now slot : Nat} (h : Obeys L qs vr s) : ResObeys L qs vr (execReleaseGatePass now slot s) := by
  unfold execReleaseGatePass
  refine timed_obeys (fun _ _ => ?_) h
  repeat' first
    | with_reducible assumption
    | with_reducible refine (obeys_modStep _ _).2 ?_
    | with_reducible refine obeys_ite ?_ ?_
    | with_reducible apply failStep_obeys
    | with_reducible apply finishStep_obeys
    | with_reducible apply noteDone_obeys
    | with_reducible apply tellGate_obeys
    | extract_lets
    | split

theorem execDerivedStep_obeys {now job jstep pgen startNo part slot base fbBase : Nat} {x : Derived} (h : Obeys L qs vr s) :
    ResObeys L qs vr (execDerivedStep now job jstep pgen startNo part slot base fbBase x s) := by
  unfold execDerivedStep
  refine timed_obeys (fun _ _ => ?_) h
  repeat' first
    | with_reducible assumption
    | with_reducible apply breakJob_obeys
    | with_reducible refine reserveBoth_obeys (by assumption) ?_
    | with_reducible apply settleStep_obeys
    | with_reducible apply startAbort_obeys
    | with_reducible apply takeSplit_obeys
    | with_reducible refine (obeys_modJob _ _).2 ?_
    | extract_lets
    | split

theorem execAbortNotice_obeys {now : Nat} {n : Notice} (h : Obeys L qs vr s) : ResObeys L qs vr (execAbortNotice now n s) :=
  timed_obeys (fun _ h => by simp [h]) h

theorem execNoticeHoldExpiry_obeys {now job jstep : Nat} (h : Obeys L qs vr s) :
    ResObeys L qs vr (execNoticeHoldExpiry now job jstep s) :=
  timed_obeys (fun _ h => by simp [h]) h

end Sys2Proof.Machine

/-! PROOFS. Every command completes, and what each step keeps of the queue, the variant, object space and the collector. -/

namespace Sys2Proof.Machine

section
variable {L : Law} {qs : List Instr} {vr : Variant} {s : State}

/-- Every command is completed, by a state that obeys what the state before it obeyed. -/
theorem exec_obeys (c : Instr) (h : Obeys L qs vr s) : ResObeys L qs vr (exec c s) := by
  cases c with
  | refclkLost => exact execRefclkLost_obeys h
  | pwrGoodRise => exact execPwrGoodRise_obeys h
  | pwrGoodFall => exact execPwrGoodFall_obeys h
  | aonResetNFall => exact execAonResetNFall_obeys h
  | aonResetNRelease => exact execAonResetNRelease_obeys h
  | blkResetNFall => exact execBlkResetNFall_obeys h
  | blkResetNRelease => exact execBlkResetNRelease_obeys h
  | voltageMonitorTrip => exact execVoltageMonitorTrip_obeys h
  | thermalTrip => exact execThermalTrip_obeys h
  | powerCycleRequest => exact execPowerCycleRequest_obeys h
  | stopInNFall => exact execStopInNFall_obeys h
  | whorlSyncEdge => exact execWhorlSyncEdge_obeys h
  | syncWindowExpiry => exact execSyncWindowExpiry_obeys h
  | torusCoordinatesWrite => exact execTorusCoordinatesWrite_obeys h
  | railConfirm => exact execRailConfirm_obeys h
  | railConfirmTimeout => exact execRailConfirmTimeout_obeys h
  | spdmRequest => exact execSpdmRequest_obeys h
  | tapInstruction => exact execTapInstruction_obeys h
  | trstNReset => exact execTrstNReset_obeys h
  | hbmPortNotReady => exact execHbmPortNotReady_obeys h
  | hbmReadReturn => exact execHbmReadReturn_obeys h
  | flashStatusTimeout => exact execFlashStatusTimeout_obeys h
  | hostLinkDown => exact execHostLinkDown_obeys h
  | flr => exact execFlr_obeys h
  | cxlMemAccess => exact execCxlMemAccess_obeys h
  | apertureAccess => exact execApertureAccess_obeys h
  | hostMasterReadTimeout => exact execHostMasterReadTimeout_obeys h
  | readBackComplete => exact execReadBackComplete_obeys h
  | linkPortUp => exact execLinkPortUp_obeys h
  | linkPortDown => exact execLinkPortDown_obeys h
  | keyExchangeFrame => exact execKeyExchangeFrame_obeys h
  | creditReturn => exact execCreditReturn_obeys h
  | cellArrival => exact execCellArrival_obeys h
  | bulkMessageArrival => exact execBulkMessageArrival_obeys h
  | syncSend => exact execSyncSend_obeys h
  | syncArrival => exact execSyncArrival_obeys h
  | parentTimeout => exact execParentTimeout_obeys h
  | fabricEpochStart => exact execFabricEpochStart_obeys h
  | comparatorFire => exact execComparatorFire_obeys h
  | nop => exact execNop_obeys h
  | fin => exact execFin_obeys h
  | skipz => exact execSkipz_obeys h
  | skipnz => exact execSkipnz_obeys h
  | seti => exact execSeti_obeys h
  | pred => exact execPred_obeys h
  | stat => exact execStat_obeys h
  | sst => exact execSst_obeys h
  | fetch => exact execFetch_obeys h
  | send => exact execSend_obeys h
  | coll => exact execColl_obeys h
  | mma => exact execMma_obeys h
  | drain => exact execDrain_obeys h
  | vld => exact execVld_obeys h
  | vst => exact execVst_obeys h
  | vop => exact execVop_obeys h
  | vfn => exact execVfn_obeys h
  | vred => exact execVred_obeys h
  | mapclr => exact execMapclr_obeys h
  | sort => exact execSort_obeys h
  | digest => exact execDigest_obeys h
  | residueWindowCompare => exact execResidueWindowCompare_obeys h
  | skeinBoundOverrun => exact execSkeinBoundOverrun_obeys h
  | skeinComplete => exact execSkeinComplete_obeys h
  | clockGate => exact execClockGate_obeys h
  | patrolScrub => exact execPatrolScrub_obeys h
  | oscillatorOutOfLock => exact execOscillatorOutOfLock_obeys h
  | skeinPlace => exact execSkeinPlace_obeys h
  | sortStart => exact execSortStart_obeys h
  | sortComplete => exact execSortComplete_obeys h
  | manifestArrival => exact execManifestArrival_obeys h
  | planStart => exact execPlanStart_obeys h
  | planComplete => exact execPlanComplete_obeys h
  | remoteTimeout => exact execRemoteTimeout_obeys h
  | queuePairDown => exact execQueuePairDown_obeys h
  | echo => exact execEcho_obeys h
  | capQuery => exact execCapQuery_obeys h
  | bootStatus => exact execBootStatus_obeys h
  | programLoad => exact execProgramLoad_obeys h
  | programLoadDone => exact execProgramLoadDone_obeys h
  | programUnload => exact execProgramUnload_obeys h
  | placementHint => exact execPlacementHint_obeys h
  | placementLog => exact execPlacementLog_obeys h
  | bobbinInstall => exact execBobbinInstall_obeys h
  | bobbinInstallDone => exact execBobbinInstallDone_obeys h
  | bobbinRemove => exact execBobbinRemove_obeys h
  | bobbinPrefetch => exact execBobbinPrefetch_obeys h
  | bobbinEvict => exact execBobbinEvict_obeys h
  | bobbinPin => exact execBobbinPin_obeys h
  | bobbinUnpin => exact execBobbinUnpin_obeys h
  | bobbinList => exact execBobbinList_obeys h
  | bobbinSources => exact execBobbinSources_obeys h
  | bobbinBacking => exact execBobbinBacking_obeys h
  | jobCreate => exact execJobCreate_obeys h
  | jobMemberTimeout => exact execJobMemberTimeout_obeys h
  | jobQuery => exact execJobQuery_obeys h
  | jobDestroy => exact execJobDestroy_obeys h
  | partitionCreate => exact execPartitionCreate_obeys h
  | partitionTablesBuilt => exact execPartitionTablesBuilt_obeys h
  | partitionDestroy => exact execPartitionDestroy_obeys h
  | partitionScrubVerified => exact execPartitionScrubVerified_obeys h
  | contextCreate => exact execContextCreate_obeys h
  | contextDestroy => exact execContextDestroy_obeys h
  | contextReset => exact execContextReset_obeys h
  | processEnd => exact execProcessEnd_obeys h
  | memAlloc => exact execMemAlloc_obeys h
  | zeroFillDone => exact execZeroFillDone_obeys h
  | memFree => exact execMemFree_obeys h
  | fenceCreate => exact execFenceCreate_obeys h
  | fenceSignal => exact execFenceSignal_obeys h
  | fenceReset => exact execFenceReset_obeys h
  | fenceDestroy => exact execFenceDestroy_obeys h
  | fenceTimeout => exact execFenceTimeout_obeys h
  | queueCreate => exact execQueueCreate_obeys h
  | queueDestroy => exact execQueueDestroy_obeys h
  | schedSet => exact execSchedSet_obeys h
  | accountRead => exact execAccountRead_obeys h
  | powerLimit => exact execPowerLimit_obeys h
  | sleepEnter => exact execSleepEnter_obeys h
  | evtRingSet => exact execEvtRingSet_obeys h
  | biasSet => exact execBiasSet_obeys h
  | faultRead => exact execFaultRead_obeys h
  | faultClear => exact execFaultClear_obeys h
  | faultInject => exact execFaultInject_obeys h
  | engineReset => exact execEngineReset_obeys h
  | partitionReset => exact execPartitionReset_obeys h
  | blockReset => exact execBlockReset_obeys h
  | blockResetBegin => exact execBlockResetBegin_obeys h
  | powerCycle => exact execPowerCycle_obeys h
  | debugEnable => exact execDebugEnable_obeys h
  | devsetEnroll => exact execDevsetEnroll_obeys h
  | devsetLeave => exact execDevsetLeave_obeys h
  | mbxKeyExport => exact execMbxKeyExport_obeys h
  | lcTransition => exact execLcTransition_obeys h
  | fwUpdate => exact execFwUpdate_obeys h
  | fwRecover => exact execFwRecover_obeys h
  | bistRun => exact execBistRun_obeys h
  | counterSelect => exact execCounterSelect_obeys h
  | counterRead => exact execCounterRead_obeys h
  | counterFreeze => exact execCounterFreeze_obeys h
  | freezeTick => exact execFreezeTick_obeys h
  | traceConfig => exact execTraceConfig_obeys h
  | watchSelect => exact execWatchSelect_obeys h
  | hangReport => exact execHangReport_obeys h
  | mailboxResponsePost => exact execMailboxResponsePost_obeys h
  | mbxEnable => exact execMbxEnable_obeys h
  | mbxDisable => exact execMbxDisable_obeys h
  | mbxTail => exact execMbxTail_obeys h
  | mbxRspHead => exact execMbxRspHead_obeys h
  | mbxBootGo => exact execMbxBootGo_obeys h
  | mbxBootDoneClear => exact execMbxBootDoneClear_obeys h
  | stepQueueDoorbell => exact execStepQueueDoorbell_obeys h
  | stepAdmit => exact execStepAdmit_obeys h
  | stepReady => exact execStepReady_obeys h
  | stepBoundary => exact execStepBoundary_obeys h
  | quantumExpiry => exact execQuantumExpiry_obeys h
  | stepSwitch => exact execStepSwitch_obeys h
  | spillDone => exact execSpillDone_obeys h
  | restoreDone => exact execRestoreDone_obeys h
  | fallbackEvaluate => exact execFallbackEvaluate_obeys h
  | hangTimeExpiry => exact execHangTimeExpiry_obeys h
  | deadlineExpiry => exact execDeadlineExpiry_obeys h
  | powerModelUpdate => exact execPowerModelUpdate_obeys h
  | releaseGatePass => exact execReleaseGatePass_obeys h
  | eventEntryWrite => exact execEventEntryWrite_obeys h
  | ringVectorSend => exact execRingVectorSend_obeys h
  | evtFlush => exact execEvtFlush_obeys h
  | evtHead => exact execEvtHead_obeys h
  | whlTimeLo => exact execWhlTimeLo_obeys h
  | pmcLowHalfRead => exact execPmcLowHalfRead_obeys h
  | gstStop => exact execGstStop_obeys h
  | gstRelease => exact execGstRelease_obeys h
  | gstHalted => exact execGstHalted_obeys h
  | gstScanData => exact execGstScanData_obeys h
  | gstScanSel => exact execGstScanSel_obeys h
  | registerWrite => exact execRegisterWrite_obeys h
  | faultReport => exact execFaultReport_obeys h
  | fatalBlockReset => exact execFatalBlockReset_obeys h
  | checkerExercise => exact execCheckerExercise_obeys h
  | errorPinTest => exact execErrorPinTest_obeys h
  | errorPinTestTimeout => exact execErrorPinTestTimeout_obeys h
  | analogueSlice => exact execAnalogueSlice_obeys h
  | analogueRotationMissed => exact execAnalogueRotationMissed_obeys h
  | watchdogExpiry => exact execWatchdogExpiry_obeys h
  | selfTestDone => exact execSelfTestDone_obeys h
  | resetEscalation => exact execResetEscalation_obeys h
  | slotQuarantineEnd => exact execSlotQuarantineEnd_obeys h
  | abortNotice => exact execAbortNotice_obeys h
  | noticeHoldExpiry => exact execNoticeHoldExpiry_obeys h
  | derivedStep => exact execDerivedStep_obeys h
  | fillStart => exact execFillStart_obeys h
  | peerProbeTimeout => exact execPeerProbeTimeout_obeys h
  | peerProbe => exact execPeerProbe_obeys h
  | chunkArrival => exact execChunkArrival_obeys h
  | fillComplete => exact execFillComplete_obeys h
  | imageAuthenticated => exact execImageAuthenticated_obeys h
  | calibrationDone => exact execCalibrationDone_obeys h
  | mbxReady => exact execMbxReady_obeys h
  | startTimeout => exact execStartTimeout_obeys h
  | failedStartReset => exact execFailedStartReset_obeys h
  | sleepEntry => exact execSleepEntry_obeys h
  | wake => exact execWake_obeys h
  | flashOperationDone => exact execFlashOperationDone_obeys h
  | refclkReturn => exact execRefclkReturn_obeys h
  | railBackInTolerance => exact execRailBackInTolerance_obeys h
  | vddAonLost => exact execVddAonLost_obeys h
  | thermalThrottleEngaged => exact execThermalThrottleEngaged_obeys h
  | thermalThrottleReleased => exact execThermalThrottleReleased_obeys h
  | hostLinkUp => exact execHostLinkUp_obeys h
  | flrComplete => exact execFlrComplete_obeys h
  | faultCollectorInitialised => exact execFaultCollectorInitialised_obeys h
  | startEntryNotWritten => exact execStartEntryNotWritten_obeys h

/-- A tick moves only the always-on time. -/
theorem tick_eq (s : State) : tick s = { s with aon := { s.aon with whorl := (tick s).aon.whorl, whorlHold := (tick s).aon.whorlHold } } := by
  unfold tick
  split
  · split <;> rfl
  · rfl

theorem tick_obeys (h : Obeys L qs vr s) : Obeys L qs vr (tick s) := by
  rw [tick_eq]
  exact obeys_upd h rfl rfl rfl rfl

/-- A step is a tick or a command, so it keeps what the commands keep. -/
theorem step_obeys (hmem : L.memory s.hbm) (hcoll : L.collector s.coll) :
    ∃ qs t, step s = .next t ∧ Obeys L qs s.variant t := by
  unfold step
  split
  next => exact ⟨_, _, rfl, tick_obeys (obeys_self hmem hcoll)⟩
  next c cs _ =>
    obtain ⟨t, ht, hobeys⟩ := exec_obeys (s := { s with pending := cs }) c (obeys_self hmem hcoll)
    exact ⟨cs, t, ht, hobeys⟩

/-- What a step answers obeys the law that the state before it obeyed. -/
theorem step_keeps (L : Law) {t : State} (hmem : L.memory s.hbm) (hcoll : L.collector s.coll) (hstep : step s = .next t) :
    L.memory t.hbm ∧ L.collector t.coll := by
  obtain ⟨qs, u, hu, -, -, hmemory, hcollector⟩ := step_obeys hmem hcoll
  obtain rfl : u = t := by rw [hu] at hstep; injection hstep
  exact ⟨hmemory, hcollector⟩

end

/-- Settles O4: the step lemma, for the law that asks for canonical memory. -/
theorem everyStepKeepsMemoryCanonical : Obligations.EveryStepKeepsMemoryCanonical := by
  unfold Obligations.EveryStepKeepsMemoryCanonical
  exact fun s t hmem hstep => (step_keeps Law.canonical hmem trivial hstep).1

/-- Settles O5: the step lemma, for the law that asks for a bounded collector. -/
theorem everyStepKeepsTheCollectorBounded : Obligations.EveryStepKeepsTheCollectorBounded := by
  unfold Obligations.EveryStepKeepsTheCollectorBounded
  exact fun s t hcoll hstep => (step_keeps Law.bounded trivial hcoll hstep).2

/-- Settles O3: every command obeys the law that asks for nothing; the queue and the variant stay under each law. -/
theorem everyCommandCompletes : Obligations.EveryCommandCompletes := by
  unfold Obligations.EveryCommandCompletes
  intro c s
  obtain ⟨t, ht, hqueue, hvariant, -, -⟩ := exec_obeys (L := Law.free) c (obeys_self (s := s) trivial trivial)
  exact ⟨t, ht, hqueue, hvariant⟩

/-- Settles O1: `step` looks at the front of the queue alone. -/
theorem stepRunsTheFrontCommand : Obligations.StepRunsTheFrontCommand := by
  unfold Obligations.StepRunsTheFrontCommand
  exact fun s c cs => rfl

/-! ### A tick -/

theorem step_of_empty {s : State} (h : s.pending = []) : step s = .next (tick s) := by
  unfold step
  rw [h]

/-- Time passes while the always-on domain works and no count is held. -/
theorem tick_whorl (s : State) :
    (tick s).aon.whorl = s.aon.whorl + (if aonUp s = true ∧ (s.aon.whorlHold = none ∨ s.aon.whorlHold = some 0) then 1 else 0) := by
  unfold tick
  by_cases hup : aonUp s = true
  · rcases hhold : s.aon.whorlHold with _ | _ | k <;> simp [hup]
  · simp [hup]

/-- A held count goes down first (R399). -/
theorem tick_whorlHold {s : State} {k : Nat} (hhold : s.aon.whorlHold = some (k + 1)) (hup : aonUp s = true) :
    (tick s).aon.whorlHold = some k := by
  simp [tick, hup, hhold]

/-- Settles O2: the step is a tick, and a tick counts time or a hold. -/
theorem anEmptyQueueLetsATickPass : Obligations.AnEmptyQueueLetsATickPass := by
  unfold Obligations.AnEmptyQueueLetsATickPass
  exact fun s hempty => ⟨tick s, step_of_empty hempty, tick_eq s, tick_whorl s, fun k hhold hup => tick_whorlHold hhold hup⟩

/-- Settles O6: at reset object space is empty and so are the log and the counters. -/
theorem resetMeetsTheInvariants : Obligations.ResetMeetsTheInvariants := by
  unfold Obligations.ResetMeetsTheInvariants
  exact ⟨memWf_nil, Nat.zero_le _, fun e he => absurd he List.not_mem_nil⟩

/-- In a table with one value for all its keys a lookup gives that value or the default. -/
theorem tget_map_const {α : Type} (l : List Nat) (x d : α) (k : Nat) : tget (l.map fun f => (f, x)) k d = x ∨ tget (l.map fun f => (f, x)) k d = d := by
  induction l with
  | nil => exact .inr rfl
  | cons f l ih =>
    by_cases hk : k = f
    · exact .inl (by simp [tget, tfind, hk])
    · simpa [tget, tfind, hk] using ih

/-- At reset a function's ring is disabled and its last counter 0, whether or not the function is enabled (log 35). -/
theorem func_reset (f : Nat) : (State.reset.func f).enable = false ∧ (State.reset.func f).ctrLast = 0 := by
  rcases tget_map_const (List.range 64) ({ enabled := true } : Func) {} f with h | h <;>
    exact ⟨congrArg Func.enable h, congrArg Func.ctrLast h⟩

/-- Settles O7: the reset state is written out in the model; its tables are empty, so every entry has its default. -/
theorem resetState : Obligations.ResetState := by
  unfold Obligations.ResetState
  refine ⟨rfl, rfl, rfl, rfl, rfl, rfl, rfl, rfl, rfl, rfl, rfl, rfl, rfl, rfl, rfl, rfl, rfl, rfl, rfl,
    fun p => rfl, func_reset, rfl, rfl⟩

end Sys2Proof.Machine

/-! PROOFS. Block reset (R23, R25, R451), and the in-band interrupt (R38). -/

namespace Sys2Proof.Machine

open Sys2Proof.Claims

/-! ### In-band interrupts -/

theorem ibi_mem_raiseIbi (s : State) : Out.ibi ∈ (raiseIbi s).out := List.mem_cons_self

theorem out_subset_withIbi {s t : State} {o : Out} (h : o ∈ t.out) : o ∈ (withIbi s t).out := by
  unfold withIbi
  split
  · exact List.mem_cons_of_mem _ h
  · exact h

/-- FAULT_N has fallen, so an interrupt is raised (R38). -/
theorem ibi_mem_withIbi {s t : State} (hup : aonUp s = true) (hs : faultN s = true) (ht : faultN t = false) :
    Out.ibi ∈ (withIbi s t).out := by
  simp [withIbi, hup, hs, ht, ibi_mem_raiseIbi]

/-! ### Block reset -/

/-- A flash operation cut off changes the record's slots or the image. -/
theorem cutFlash_shape (s : State) : cutFlash s = { s with
    life := { s.life with slots := (cutFlash s).life.slots, image := (cutFlash s).life.image }, fresh := (cutFlash s).fresh } := by
  unfold cutFlash
  split
  · rfl
  · split <;> rfl

@[simp] theorem cutFlash_aon (s : State) : (cutFlash s).aon = s.aon := by rw [cutFlash_shape]
@[simp] theorem cutFlash_mainReset (s : State) : (cutFlash s).mainReset = s.mainReset := by rw [cutFlash_shape]
@[simp] theorem cutFlash_coll (s : State) : (cutFlash s).coll = s.coll := by rw [cutFlash_shape]
@[simp] theorem cutFlash_variant (s : State) : (cutFlash s).variant = s.variant := by rw [cutFlash_shape]
@[simp] theorem cutFlash_out (s : State) : (cutFlash s).out = s.out := by rw [cutFlash_shape]

/-- The flash but for the record's slots and the image is as before. -/
theorem flashOf_cutFlash (s : State) :
    flashOf (cutFlash s).life = { flashOf s.life with slots := (cutFlash s).life.slots, image := (cutFlash s).life.image } := by
  rw [cutFlash_shape]
  rfl

/-- The first reset since the block left the last one, or since it went to sleep (R25, R525). -/
def firstReset (s : State) : Bool := !s.mainReset || s.aon.asleep

theorem enterReset_aon (s : State) (cause : Nat) (code : Code) :
    (enterReset s cause code).aon = aonReset s.aon (time s) (firstReset s) := by
  simp [enterReset, time, firstReset]

@[simp] theorem enterReset_coll (s : State) (cause : Nat) (code : Code) : (enterReset s cause code).coll = { log := s.coll.log } := by
  simp [enterReset, collReset]

@[simp] theorem enterReset_mainReset (s : State) (cause : Nat) (code : Code) : (enterReset s cause code).mainReset = true := rfl

@[simp] theorem enterReset_out (s : State) (cause : Nat) (code : Code) : (enterReset s cause code).out = s.out := by
  simp [enterReset]

/-- The life-cycle part after a block reset: the flash, with the cause of a first reset noted for the next start. -/
theorem enterReset_life (s : State) (cause : Nat) (code : Code) : (enterReset s cause code).life = { flashOf s.life with
    slots := (cutFlash s).life.slots, image := (cutFlash s).life.image
    nextCause := if firstReset s then cause else s.life.nextCause
    nextCode := if firstReset s then code else s.life.nextCode } := by
  have hcause : (cutFlash s).life.nextCause = s.life.nextCause ∧ (cutFlash s).life.nextCode = s.life.nextCode := by
    rw [cutFlash_shape]
    exact ⟨rfl, rfl⟩
  simp [enterReset, flashOf_cutFlash, firstReset, hcause]

/-- R23, R25, R451: entering block reset leaves the state of one. -/
theorem blockReset_enterReset (s : State) (cause : Nat) (code : Code) : BlockReset s (enterReset s cause code) := by
  refine ⟨rfl, rfl, rfl, rfl, rfl, rfl, rfl, rfl, rfl, rfl, rfl, rfl, rfl, rfl, ?_⟩
  simp only [enterReset_life]
  exact ⟨rfl, rfl, rfl, rfl, rfl, cutFlash_variant s⟩

/-- Further changes of the always-on domain, the collector and the log of the ports are none of a block reset's. -/
theorem blockReset_congr {r s t u : State} (h : BlockReset s t) (hlife : r.life = s.life) (hvariant : r.variant = s.variant)
    (hu : u = { t with aon := u.aon, coll := u.coll, out := u.out }) : BlockReset r u := by
  unfold BlockReset at *
  rw [hu, hlife, hvariant]
  exact h

/-! ### Codes that hold the block in reset -/

/-- R441: a code of the always-on unit is taken at once, whether or not the collector is ready. -/
theorem report_of_alwaysOn {s : State} {r : Report} (hclass : codeClass r.code ≠ 0) (hunit : codeUnit r.code = 41) :
    report s r = withIbi s (reacted (latched s r) r) := by
  have htaken : ¬ (codeClass r.code = 0 ∨ 44 < codeUnit r.code) := by omega
  have halways : ¬ (!s.coll.init && codeUnit r.code != 41) = true := by simp [hunit]
  simp only [report, if_neg htaken, if_neg halways]
  rfl

/-- R17, R24, R432: 0xE901 and 0xE902 hold the block in reset. -/
theorem report_boundary (s : State) {c : Code} (hc : c = 0xE901 ∨ c = 0xE902) :
    report s { code := c } = withIbi s (boundaryHold (latched s { code := c }) c) := by
  rw [report_of_alwaysOn (by rcases hc with rfl | rfl <;> decide) (by rcases hc with rfl | rfl <;> rfl)]
  rcases hc with rfl | rfl <;> rfl

theorem latched_boundary (s : State) {c : Code} (hc : c = 0xE901 ∨ c = 0xE902) :
    latched s { code := c } = { s with coll := (latched s { code := c }).coll } := by
  rcases hc with rfl | rfl <;> rfl

theorem withIbi_aon (s t : State) : (withIbi s t).aon = { t.aon with vmonBoot := (withIbi s t).aon.vmonBoot } := by
  conv_lhs => rw [withIbi_eq]

theorem blockReset_withIbi {r s t : State} (h : BlockReset r t) : BlockReset r (withIbi s t) :=
  blockReset_congr h rfl rfl (by rw [withIbi_eq])

theorem blockReset_boundaryHold (t : State) (c : Code) : BlockReset t (boundaryHold t c) :=
  blockReset_congr (blockReset_enterReset t 4 c) rfl rfl rfl

@[simp] theorem boundaryHold_coll (t : State) (c : Code) : (boundaryHold t c).coll = { log := t.coll.log } := enterReset_coll t 4 c

theorem boundaryHold_aon (t : State) (c : Code) :
    (boundaryHold t c).aon = { aonReset t.aon (time t) (firstReset t) with needBlkCycle := true } := by
  simp only [boundaryHold, modAon_aon, enterReset_aon]

/-- The state of a block held in reset by such a code. -/
theorem report_boundary_spec (s : State) {c : Code} (hc : c = 0xE901 ∨ c = 0xE902) :
    BlockReset s (report s { code := c }) ∧ c ∈ (report s { code := c }).coll.log
      ∧ (report s { code := c }).coll = { log := (report s { code := c }).coll.log }
      ∧ (report s { code := c }).aon = { aonReset s.aon (time s) (firstReset s) with
          needBlkCycle := true, vmonBoot := (report s { code := c }).aon.vmonBoot } := by
  have hclass : codeClass c ≠ 1 := by rcases hc with rfl | rfl <;> decide
  have hlatched := latched_boundary s hc
  have hreset := blockReset_boundaryHold (latched s { code := c }) c
  rw [report_boundary s hc]
  refine ⟨blockReset_withIbi (blockReset_congr hreset (by rw [hlatched]) (by rw [hlatched]) rfl), ?_, ?_, ?_⟩
  · simpa [latched_coll] using mem_latch_log hclass
  · simp
  · rw [withIbi_aon, boundaryHold_aon, hlatched]
    rfl

/-! ### Repeated changes -/

/-- What one change of a loop does to the state, the loop does, when it carries over. -/
theorem forAll_rel {α : Type} {R : State → State → Prop} (hrefl : ∀ s, R s s) (htrans : ∀ {a b c}, R a b → R b c → R a c)
    {f : State → α → State} (hf : ∀ t x, R t (f t x)) (l : List α) (s : State) : R s (forAll l f s) := by
  induction l generalizing s with
  | nil => exact hrefl s
  | cons a l ih => exact htrans (hf s a) (ih (f s a))

/-- A loop shows in nothing that `g` reads, when no change of it does. -/
theorem forAll_keeps {α β : Type} (g : State → β) {f : State → α → State} (hf : ∀ t x, g (f t x) = g t) (l : List α) (s : State) :
    g (forAll l f s) = g s :=
  forAll_rel (R := fun s t => g t = g s) (fun _ => rfl) (fun h h' => h'.trans h) hf l s

/-! ### The start -/

/-- Only the flash sectors and this start's entry take part in the start log (R517, R518). -/
theorem logEntry_shape (l : Life) (e : StartEntry) : logEntry l e = { l with sectors := (logEntry l e).sectors } := by
  unfold logEntry
  extract_lets
  split <;> rfl

theorem foldl_logEntry_shape (es : List StartEntry) (l : Life) : es.foldl logEntry l = { l with sectors := (es.foldl logEntry l).sectors } := by
  induction es generalizing l with
  | nil => rfl
  | cons e es ih =>
    rw [List.foldl_cons, ih, logEntry_shape]

theorem writeEntry_shape (l : Life) (tries : Nat) : writeEntry l tries = { l with
    sectors := (writeEntry l tries).sectors, startNo := (writeEntry l tries).startNo, entryWritten := (writeEntry l tries).entryWritten } := by
  unfold writeEntry
  extract_lets n l' src
  have hl : l' = { l with sectors := l'.sectors } := foldl_logEntry_shape _ l
  have hsrc : src = { l' with sectors := src.sectors } := logEntry_shape l' _
  clear_value src l'
  split
  · rw [hsrc, hl]
  · rw [hl]

/-- Fresh keys (R475). -/
theorem drawKeys_shape (s : State) : drawKeys s = { s with
    life := { s.life with hostKey := (drawKeys s).life.hostKey }, funcs := (drawKeys s).funcs, fresh := (drawKeys s).fresh } := by
  unfold drawKeys
  have hloop := forAll_rel (R := fun s t => t = { s with funcs := t.funcs, fresh := t.fresh }) (fun _ => rfl)
    (fun h h' => by rw [h', h]) (f := fun s f => (drawKey s).2.modFunc f fun x => { x with key := (drawKey s).1, ctrLast := 0, exhausted := false })
    (fun t x => rfl) (List.range 64) ((drawKey s).2.modLife fun l => { l with hostKey := (drawKey s).1 })
  exact hloop

/-- The life-cycle part as a full start sets it (R517 to R523), its host key but for. -/
def startLife (s : State) (tries : Nat) : Life :=
  let l := writeEntry s.life tries
  let lc := (decodeRecord s.life.slots).1
  let fails := countFails l
  let why := if lc = 0 then 2 else if lc = 6 then 3 else if 3 ≤ fails then 1 else 0
  { l with
    lc, lastValid := (decodeRecord s.life.slots).2, slotsUsed := l.slots.length, priorState := priorOf l.slots, cause := l.nextCause
    code := if l.nextCause = 4 ∨ l.nextCause = 5 then l.nextCode else 0
    minimal := why != 0, minWhy := why, fails, lastFail := newestFail l
    startAt := time s, starting := why == 0, nextCause := 1, nextCode := 0
    hasIdentity := l.hasIdentity || lc == 1
    attestKey := why != 0 && (l.hasIdentity || lc == 1) && lc != 0 && lc != 6 && lc != 5 }

/-- The start sets the life-cycle part, releases WAKE_N, resets the flash and draws keys. -/
theorem beginStart_shape (s : State) (tries : Nat) : beginStart s tries = { s with
    mainReset := false, aon := { s.aon with wakeN := true }, out := .flashReset :: s.out
    coll := { s.coll with early := (beginStart s tries).coll.early }
    life := { startLife s tries with hostKey := (beginStart s tries).life.hostKey }
    funcs := (beginStart s tries).funcs, fresh := (beginStart s tries).fresh } := by
  unfold beginStart
  extract_lets s1 s2 l l2 fails
  split
  rename_i lc last heq
  extract_lets why l3 s3 s4 s5
  have h3 : l3 = startLife s tries := by
    have hlc : lc = (decodeRecord s.life.slots).1 := (congrArg Prod.fst heq).symm
    have hlast : last = (decodeRecord s.life.slots).2 := (congrArg Prod.snd heq).symm
    simp only [l3, why, fails, hlc, hlast]
    rfl
  have h5 : s5 = { s4 with life := { s4.life with hostKey := s5.life.hostKey }, funcs := s5.funcs, fresh := s5.fresh } := by
    simp only [s5]
    split
    · exact drawKeys_shape s4
    · rfl
  clear_value s5
  rw [h5]
  split
  · simp only [early, State.modColl, s4, s3, s2, s1, h3]
    rfl
  · simp only [s4, s3, s2, s1, h3]
    rfl

end Sys2Proof.Machine

/-! PROOFS. REFCLK, PWR_GOOD and the always-on reset (O8, O9). -/

namespace Sys2Proof.Machine

open Sys2Proof.Claims

/-! ### REFCLK and PWR_GOOD -/

/-- The state in which a loss of REFCLK is recorded. -/
def clockLost (s : State) : State := (keepGrowth s true).modAon fun a => { a with refclk := false, synced := false }

theorem exec_refclkLost {s : State} (now : Nat) (hup : aonUp s = true) (hclock : s.aon.refclk = true) :
    exec (.refclkLost now) s = .next (report (clockLost (advance s now)) { code := 0xE901 }) :=
  (timed_of s (by simp [hup, hclock]) : execRefclkLost now s = _)

/-- R17: the loss of REFCLK holds the block in reset, without a freeze, its time base in holdover. -/
theorem refclkLost_spec {s : State} (now : Nat) (hup : aonUp s = true) (hclock : s.aon.refclk = true) :
    ∃ t, exec (.refclkLost now) s = .next t ∧ BlockReset s t ∧ t.aon.refclk = false ∧ t.aon.synced = false ∧ t.aon.holdover = true
      ∧ t.aon.holdFree = true ∧ t.aon.needBlkCycle = true ∧ t.aon.cmps = s.aon.cmps ∧ t.aon.trayReqN = s.aon.trayReqN
      ∧ (0xE901 : Code) ∈ t.coll.log ∧ t.coll.freeze = false ∧ t.coll.resetPending = false := by
  obtain ⟨hreset, hlog, hcoll, haon⟩ := report_boundary_spec (clockLost (advance s now)) (c := 0xE901) (.inl rfl)
  refine ⟨_, exec_refclkLost now hup hclock, blockReset_congr hreset (advance_life s now).symm (advance_variant s now).symm rfl, ?_⟩
  rw [haon, hcoll]
  refine ⟨rfl, rfl, rfl, rfl, rfl, ?_, ?_, hlog, rfl, rfl⟩
  · exact advance_aon_cmps s now
  · exact advance_aon_trayReqN s now

/-- A command that changes the always-on domain alone, its time included. -/
theorem eq_of_advance_aon {s t : State} {now : Nat} (h : t = { advance s now with aon := t.aon } := by rfl) : t = { s with aon := t.aon } := by
  rw [h, advance_eq]

/-- The growth of a holdover is kept at the return of REFCLK. -/
def clockBack (s : State) : State := if s.aon.holdover then keepGrowth s false else s

theorem clockBack_shape (s : State) : clockBack s = { s with
    aon := { s.aon with holdFree := (clockBack s).aon.holdFree, bound := (clockBack s).aon.bound, holdSince := (clockBack s).aon.holdSince } } := by
  unfold clockBack
  split
  next hhold => simp [keepGrowth, State.modAon, hhold]
  next => rfl

theorem refclkReturn_spec {s : State} (now : Nat) (hup : aonUp s = true) (hclock : s.aon.refclk = false) :
    ∃ t, exec (.refclkReturn now) s = .next t ∧ t = { s with aon := t.aon } ∧ t.aon.refclk = true ∧ t.aon.holdover = s.aon.holdover
      ∧ t.aon.refclkSince = time t ∧ t.aon.needBlkCycle = s.aon.needBlkCycle := by
  refine ⟨(clockBack (advance s now)).modAon _, (timed_of s (by simp [hup, hclock]) : execRefclkReturn now s = _), ?_⟩
  have hshape := clockBack_shape (advance s now)
  have hhold : (clockBack (advance s now)).aon.holdover = s.aon.holdover := by rw [hshape, ← advance_aon_holdover s now]
  have hcycle : (clockBack (advance s now)).aon.needBlkCycle = s.aon.needBlkCycle := by rw [hshape, ← advance_aon_needBlkCycle s now]
  refine ⟨eq_of_advance_aon (now := now) ?_, rfl, hhold, rfl, hcycle⟩
  rw [hshape]
  rfl

/-- R24: a release that came too early is recorded when PWR_GOOD rises. -/
theorem pwrGoodRise_spec {s : State} (now : Nat) (hrails : s.aon.railsOk = true) (hlow : s.aon.pwrGood = false) :
    ∃ t, exec (.pwrGoodRise now) s = .next t ∧ t.aon.pwrGood = true ∧ t.aon.pend902 = false ∧ t.mainReset = s.mainReset
      ∧ (s.aon.pend902 = true → (0xE902 : Code) ∈ t.coll.log ∧ t.life.nextCause = 4 ∧ t.life.nextCode = 0xE902)
      ∧ (s.aon.pend902 = false → t = { s with aon := t.aon }) := by
  refine ⟨pwrRise (advance s now), (timed_of s (by simp [hrails, hlow]) : execPwrGoodRise now s = _), ?_⟩
  cases hlate : s.aon.pend902
  · simp only [pwrRise, advance_aon_pend902, hlate]
    exact ⟨rfl, rfl, advance_mainReset s now, by simp, fun _ => eq_of_advance_aon⟩
  · simp only [pwrRise, advance_aon_pend902, hlate]
    exact ⟨rfl, rfl, advance_mainReset s now, fun _ => ⟨mem_logPut _ _ (by decide), rfl, rfl⟩, by simp⟩

/-- R24, R26: PWR_GOOD falling ends a power-cycle request; awake and with BLK_RESET_N high it resets the block. -/
theorem pwrGoodFall_spec {s : State} (now : Nat) (hrails : s.aon.railsOk = true) (hhigh : s.aon.pwrGood = true) :
    ∃ t, exec (.pwrGoodFall now) s = .next t ∧ t.aon.pwrGood = false ∧ t.aon.trayReqN = true
      ∧ (s.aon.asleep = true ∨ s.aon.blkResetN = false → t = { s with aon := t.aon })
      ∧ (s.aon.asleep = false ∧ s.aon.blkResetN = true → BlockReset s t ∧ t.aon.needBlkCycle = true) := by
  refine ⟨_, (timed_of s (by simp [hrails, hhigh]) : execPwrGoodFall now s = _), ?_⟩
  have hcalm : ∀ f, ((advance s now).modAon f).aon.asleep = (f (advance s now).aon).asleep
      ∧ ((advance s now).modAon f).aon.blkResetN = (f (advance s now).aon).blkResetN := fun _ => ⟨rfl, rfl⟩
  simp only [hcalm, advance_aon_asleep, advance_aon_blkResetN]
  by_cases hstays : s.aon.asleep = true ∨ s.aon.blkResetN = false
  · rw [if_pos hstays]
    refine ⟨rfl, rfl, fun _ => eq_of_advance_aon, fun ⟨hawake, hblk⟩ => ?_⟩
    rcases hstays with h | h <;> simp_all
  · rw [if_neg hstays]
    refine ⟨?_, ?_, fun h => absurd h hstays, fun _ => ⟨blockReset_withIbi ?_, ?_⟩⟩
    · rw [withIbi_aon, modAon_aon, enterReset_aon]
      rfl
    · rw [withIbi_aon, modAon_aon, enterReset_aon]
      rfl
    · exact blockReset_congr (blockReset_enterReset ((advance s now).modAon _) 2 0) (advance_life s now).symm (advance_variant s now).symm rfl
    · rw [withIbi_aon]
      rfl

/-- Settles O8. -/
theorem referenceClockAndPowerGood : Obligations.ReferenceClockAndPowerGood := by
  unfold Obligations.ReferenceClockAndPowerGood
  exact ⟨fun s => refclkLost_spec, fun s => refclkReturn_spec, fun s => pwrGoodRise_spec, fun s => pwrGoodFall_spec⟩

end Sys2Proof.Machine

/-! PROOFS. The always-on reset and the loss of its rail (O9), and BLK_RESET_N (O10). -/

namespace Sys2Proof.Machine

open Sys2Proof.Claims

/-! ### The always-on reset -/

theorem startIfFree_of_free {s : State} (hup : aonUp s = true) (hclock : s.aon.refclk = true) (hgood : s.aon.pwrGood = true)
    (hblk : s.aon.blkResetN = true) (hcycle : s.aon.needBlkCycle = false) : startIfFree s = beginStart s 0 := by
  simp [startIfFree, hup, hclock, hgood, hblk, hcycle]

/-- R24: the always-on domain takes the block with it. -/
theorem blockReset_aonDown (s : State) : BlockReset s (aonDown s) := blockReset_enterReset s 0 0

theorem aonDown_aon (s : State) : (aonDown s).aon = aonCleared s.aon := by
  simp only [aonDown, enterReset_aon]
  rfl

/-- R521: a start is a minimal one or is under way. -/
theorem startLife_starting (s : State) (tries : Nat) : (startLife s tries).starting = !(startLife s tries).minimal := by
  simp [startLife, bne]

theorem beginStart_starting (s : State) (tries : Nat) : (beginStart s tries).life.starting = !(beginStart s tries).life.minimal := by
  rw [beginStart_shape]
  exact startLife_starting s tries

@[simp] theorem beginStart_mainReset (s : State) (tries : Nat) : (beginStart s tries).mainReset = false := by rw [beginStart_shape]
theorem beginStart_aon (s : State) (tries : Nat) : (beginStart s tries).aon = { s.aon with wakeN := true } := by
  conv_lhs => rw [beginStart_shape]
theorem beginStart_life (s : State) (tries : Nat) :
    (beginStart s tries).life = { startLife s tries with hostKey := (beginStart s tries).life.hostKey } := by
  conv_lhs => rw [beginStart_shape]

/-- The inputs as the release of AON_RESET_N finds them (log 38). -/
def aonReleased (s : State) : State := s.modAon fun a => { a with railsOk := true, refclk := true, aonResetN := true }

theorem exec_aonResetNRelease {s : State} (hlow : s.aon.aonResetN = false) :
    exec .aonResetNRelease s = .next (startIfFree (aonReleased s)) :=
  (untimed_of s (by simp [hlow]) : execAonResetNRelease s = _)

/-- Settles O9. -/
theorem alwaysOnReset : Obligations.AlwaysOnReset := by
  unfold Obligations.AlwaysOnReset
  refine ⟨fun s hhigh => ⟨aonDown s, (untimed_of s hhigh : execAonResetNFall s = _), blockReset_aonDown s, ?_⟩,
    fun s hlow hpins => ⟨_, exec_aonResetNRelease hlow, if_neg ?_⟩,
    fun s hlow hblk hgood hcycle => ⟨_, exec_aonResetNRelease hlow, ?_⟩,
    fun s hrails => ⟨_, (untimed_of s hrails : execVddAonLost s = _), ?_⟩⟩
  · rw [aonDown_aon]
    exact ⟨rfl, rfl, rfl, rfl, rfl, rfl⟩
  · rcases hpins with h | h <;> simp [aonReleased, h]
  · rw [startIfFree_of_free (s := aonReleased s) rfl rfl hgood hblk hcycle, beginStart_aon]
    exact ⟨beginStart_mainReset _ _, rfl, beginStart_starting _ _⟩
  · exact ⟨blockReset_congr (blockReset_aonDown s) rfl rfl rfl, rfl, rfl, rfl, rfl, rfl⟩

/-! ### BLK_RESET_N -/

@[simp] theorem faultN_advance (s : State) (now : Nat) : faultN (advance s now) = faultN s := by simp [faultN]

/-- Table Boundary-5: in block reset, awake, FAULT_N is low. -/
theorem faultN_of_reset {s : State} (hup : aonUp s = true) (hreset : s.mainReset = true) (hawake : s.aon.asleep = false) :
    faultN s = false := by simp [faultN, hup, hreset, hawake]

/-- The pins and marks that BLK_RESET_N falling sets (Table Boundary-5). -/
def blkLow (s : State) : State :=
  s.modAon fun a => { a with blkResetN := false, needBlkCycle := false, secalmN := true, stopOutN := a.stopInN }

theorem exec_blkResetNFall_awake {s : State} (now : Nat) (hhigh : s.aon.blkResetN = true) (hawake : s.aon.asleep = false) :
    exec (.blkResetNFall now) s = .next (withIbi (advance s now) (blkLow (enterReset (advance s now) 1 0))) := by
  refine (timed_of s (by simp [hhigh]) : execBlkResetNFall now s = _).trans ?_
  simp only [advance_aon_asleep, hawake]
  rfl

theorem blkResetNFall_awake {s : State} (now : Nat) (hhigh : s.aon.blkResetN = true) (hawake : s.aon.asleep = false) :
    ∃ t, exec (.blkResetNFall now) s = .next t ∧ BlockReset s t ∧ t.aon.blkResetN = false ∧ t.aon.needBlkCycle = false
      ∧ t.aon.cmps = s.aon.cmps ∧ t.aon.coords = s.aon.coords ∧ time t = time (advance s now) ∧ t.coll.log = s.coll.log
      ∧ (s.mainReset = false → t.life.nextCause = 1) ∧ t.aon.secalmN = true ∧ t.aon.stopOutN = s.aon.stopInN
      ∧ t.aon.trayReqN = s.aon.trayReqN ∧ t.aon.pend902 = s.aon.pend902 ∧ (aonUp s = true → faultN t = false)
      ∧ qspiCsN t = true ∧ tdoDriven t = false ∧ (aonUp s = true → faultN s = true → Out.ibi ∈ t.out) := by
  refine ⟨_, exec_blkResetNFall_awake now hhigh hawake, ?_⟩
  have hlow : (blkLow (enterReset (advance s now) 1 0)).aon = { aonReset (advance s now).aon (time (advance s now)) (firstReset s) with
      blkResetN := false, needBlkCycle := false } := by
    simp only [blkLow, modAon_aon, enterReset_aon]
    simp [aonReset, firstReset]
  have haon := withIbi_aon (advance s now) (blkLow (enterReset (advance s now) 1 0))
  rw [hlow] at haon
  have hlife : (withIbi (advance s now) (blkLow (enterReset (advance s now) 1 0))).life = (enterReset (advance s now) 1 0).life := by
    rw [withIbi_eq]
    rfl
  have hreset : (withIbi (advance s now) (blkLow (enterReset (advance s now) 1 0))).mainReset = true := by
    rw [withIbi_eq]
    rfl
  have hpins : aonUp s = true → aonUp (blkLow (enterReset (advance s now) 1 0)) = true := fun hup => by
    rw [aonUp, hlow]
    simpa [aonUp, aonReset] using hup
  have hfault : aonUp s = true → faultN (blkLow (enterReset (advance s now) 1 0)) = false := fun hup =>
    faultN_of_reset (hpins hup) rfl (by rw [hlow]; rfl)
  refine ⟨blockReset_withIbi (blockReset_congr (blockReset_enterReset (advance s now) 1 0) (by simp) (by simp) rfl), ?_⟩
  rw [haon, hlife, time_withIbi, withIbi_coll]
  refine ⟨rfl, rfl, advance_aon_cmps s now, advance_aon_coords s now, ?_, ?_, fun hup => ?_, rfl, advance_aon_stopInN s now,
    advance_aon_trayReqN s now, advance_aon_pend902 s now, fun hup => ?_, ?_, ?_, fun hup hs => ?_⟩
  · rw [time, hlow]
    rfl
  · simp [blkLow]
  · simp [enterReset_life, firstReset, hup]
  · refine faultN_of_reset ?_ hreset (by rw [haon]; rfl)
    rw [aonUp, haon]
    simpa [aonUp, aonReset] using hup
  · rw [qspiCsN, hreset]
    rfl
  · rw [tdoDriven, up, hreset]
    rfl
  · exact ibi_mem_withIbi (by simpa using hup) (by simpa using hs) (hfault hup)

/-- R525: asleep, BLK_RESET_N changes the always-on domain alone. -/
theorem blkResetNFall_asleep {s : State} (now : Nat) (hhigh : s.aon.blkResetN = true) (hasleep : s.aon.asleep = true) :
    ∃ t, exec (.blkResetNFall now) s = .next t ∧ t = { s with aon := t.aon, mainReset := true } ∧ t.aon.blkResetN = false
      ∧ t.aon.secalmN = true ∧ t.aon.stopOutN = s.aon.stopInN ∧ t.aon.asleep = true := by
  refine ⟨blkLow { advance s now with mainReset := true }, ?_, ?_, rfl, rfl, advance_aon_stopInN s now, ?_⟩
  · refine (timed_of s (by simp [hhigh]) : execBlkResetNFall now s = _).trans ?_
    simp only [advance_aon_asleep, hasleep]
    rfl
  · rw [advance_eq]
    rfl
  · exact (advance_aon_asleep s now).trans hasleep

/-- The state in which a release of BLK_RESET_N is judged. -/
def blkReleased (s : State) : State :=
  s.modAon fun a => { a with blkResetN := true, blkHighSince := if s.aon.asleep then a.blkHighSince else time s }

/-- R24: a release with PWR_GOOD low starts nothing. -/
theorem blkResetNRelease_early {s : State} (now tries : Nat) (w : Bool) (hlow : s.aon.blkResetN = false) (hup : aonUp s = true)
    (hgood : s.aon.pwrGood = false) :
    ∃ t, exec (.blkResetNRelease now tries w) s = .next t ∧ t = { s with aon := t.aon } ∧ t.aon.blkResetN = true
      ∧ t.aon.pend902 = true ∧ t.aon.needBlkCycle = true := by
  refine ⟨(blkReleased (advance s now)).modAon fun a => { a with pend902 := true, needBlkCycle := true }, ?_,
    eq_of_advance_aon (now := now), rfl, rfl, rfl⟩
  refine (timed_of s (by simp [hlow]) : execBlkResetNRelease now tries w s = _).trans ?_
  have hup' : aonUp (blkReleased (advance s now)) = true := by simpa [blkReleased, aonUp] using hup
  have hgood' : (blkReleased (advance s now)).aon.pwrGood = false := by simpa [blkReleased] using hgood
  change Host.Outcome.next (if !aonUp (blkReleased (advance s now)) then _ else if !(blkReleased (advance s now)).aon.pwrGood then _ else _) = _
  simp only [hup', hgood', Bool.not_true, Bool.false_eq_true, if_false, Bool.not_false, if_true]
  rfl

/-- R520: with every input good and awake a release starts the block, from the reset that a fatal fault asked for or from the one it
was in. -/
theorem exec_blkResetNRelease_free {s : State} (now tries : Nat) (w : Bool) (hlow : s.aon.blkResetN = false) (hup : aonUp s = true)
    (hgood : s.aon.pwrGood = true) (hclock : s.aon.refclk = true) (hsince : s.aon.refclkSince = 0) (hrail : s.aon.railTripped = false)
    (hback : s.aon.railBackSince = 0) (hhold : s.aon.pwrHold = false) (hawake : s.aon.asleep = false) :
    ∃ u : State, exec (.blkResetNRelease now tries w) s = .next (beginStart u tries) ∧ u.aon.blkResetN = true
      ∧ u.life.devsets = s.life.devsets := by
  have hrelease : execBlkResetNRelease now tries w s = .next _ := timed_of s (by simp [hlow])
  let v := (blkReleased (advance s now)).modAon fun a => { a with pwrHold := false }
  have hup' : aonUp (blkReleased (advance s now)) = true := by simpa [blkReleased, aonUp] using hup
  have hgood' : (blkReleased (advance s now)).aon.pwrGood = true := by simpa [blkReleased] using hgood
  have hok : releaseOk (blkReleased (advance s now)) = true := by simp [releaseOk, blkReleased, hclock, hsince, hrail, hback, hhold]
  have hawake' : (blkReleased (advance s now)).aon.asleep = false := by simpa [blkReleased] using hawake
  have hresult : exec (.blkResetNRelease now tries w) s
      = .next (if v.coll.resetPending then beginStart (enterReset v 4 v.coll.fatalCode) tries else beginStart v tries) := by
    refine hrelease.trans ?_
    change Host.Outcome.next (if !aonUp (blkReleased (advance s now)) then _ else if !(blkReleased (advance s now)).aon.pwrGood then _
      else if !releaseOk (blkReleased (advance s now)) then _ else if (blkReleased (advance s now)).aon.asleep then _ else _) = _
    simp only [hup', hgood', hok, hawake', Bool.not_true, Bool.false_eq_true, if_false]
    rfl
  cases hpending : v.coll.resetPending
  · rw [hpending] at hresult
    exact ⟨v, hresult, rfl, congrArg Life.devsets (advance_life s now)⟩
  · rw [hpending] at hresult
    refine ⟨enterReset v 4 v.coll.fatalCode, hresult, by rw [enterReset_aon]; rfl, ?_⟩
    rw [enterReset_life]
    change v.life.devsets = s.life.devsets
    exact congrArg Life.devsets (advance_life s now)

/-- Table Lifecycle-7: BLANK, KILLED and three failed starts make the start a minimal one. -/
theorem startLife_minimal {s : State} {tries : Nat}
    (h : (startLife s tries).lc = 0 ∨ (startLife s tries).lc = 6 ∨ 3 ≤ (startLife s tries).fails) : (startLife s tries).minimal = true := by
  simp only [startLife] at h ⊢
  split_ifs <;> simp_all

theorem startLife_devsets (s : State) (tries : Nat) : (startLife s tries).devsets = s.life.devsets := by
  simp only [startLife]
  rw [writeEntry_shape]

theorem blkResetNRelease_starts {s : State} (now tries : Nat) (w : Bool) (hlow : s.aon.blkResetN = false) (hup : aonUp s = true)
    (hgood : s.aon.pwrGood = true) (hclock : s.aon.refclk = true) (hsince : s.aon.refclkSince = 0) (hrail : s.aon.railTripped = false)
    (hback : s.aon.railBackSince = 0) (hhold : s.aon.pwrHold = false) (hawake : s.aon.asleep = false) :
    ∃ t, exec (.blkResetNRelease now tries w) s = .next t ∧ t.mainReset = false ∧ t.aon.blkResetN = true ∧ t.aon.wakeN = true
      ∧ t.life.startAt = time t ∧ t.life.starting = !t.life.minimal
      ∧ ((t.life.lc = 0 ∨ t.life.lc = 6 ∨ 3 ≤ t.life.fails) → t.life.minimal = true)
      ∧ t.life.devsets = s.life.devsets := by
  obtain ⟨u, hexec, hblk, hsets⟩ := exec_blkResetNRelease_free now tries w hlow hup hgood hclock hsince hrail hback hhold hawake
  refine ⟨_, hexec, beginStart_mainReset u tries, ?_⟩
  rw [beginStart_life, time, beginStart_aon]
  exact ⟨hblk, rfl, rfl, startLife_starting u tries, startLife_minimal, (startLife_devsets u tries).trans hsets⟩

/-- Settles O10. -/
theorem blockResetPin : Obligations.BlockResetPin := by
  unfold Obligations.BlockResetPin
  exact ⟨fun s => blkResetNFall_awake, fun s => blkResetNFall_asleep, fun s => blkResetNRelease_early, fun s => blkResetNRelease_starts⟩

end Sys2Proof.Machine

/-! PROOFS. What handing messages to the ports and starting the abort of a job step touch (R391, R459, R461). -/

namespace Sys2Proof.Machine

open Sys2Proof.Claims

/-- Between `s` and `t` messages were handed to ports: port state, counts and what has left the ports changed, and nothing else. -/
structure Sends (s t : State) : Prop where
  rest : t = { s with parts := t.parts, ports := t.ports, pmc := t.pmc, out := t.out }
  part : ∀ p, t.part p = { s.part p with counters := (t.part p).counters }
  out : ∀ o ∈ s.out, o ∈ t.out

namespace Sends

theorem refl (s : State) : Sends s s := ⟨rfl, fun _ => rfl, fun _ h => h⟩

theorem trans {a b c : State} (h : Sends a b) (h' : Sends b c) : Sends a c where
  rest := by rw [h'.rest, h.rest]
  part p := by rw [h'.part, h.part]
  out o ho := h'.out o (h.out o ho)

/-- A change of ports and package counts alone. -/
theorem of_eq {s t : State} (h : t = { s with ports := t.ports, pmc := t.pmc }) : Sends s t := by
  refine ⟨by rw [h], fun p => ?_, fun o ho => ?_⟩ <;> rw [h]
  · rfl
  · exact ho

end Sends

theorem count_sends (s : State) (p ev n : Nat) : Sends s (count s p ev n) := by
  unfold count
  split
  · exact .refl s
  · refine ⟨rfl, fun q => ?_, fun _ h => h⟩
    by_cases hq : q = p
    · subst hq
      simp
    · rw [part_modPart_ne _ _ hq]

theorem countGlobal_sends (s : State) (j n : Nat) : Sends s (countGlobal s j n) := by
  unfold countGlobal
  split
  · exact .refl s
  · exact .of_eq rfl

theorem emit_sends (s : State) (o : Out) : Sends s (emit s o) := ⟨rfl, fun _ => rfl, fun _ h => List.mem_cons_of_mem _ h⟩

theorem modPort_sends (s : State) (p : Nat) (f : LinkPort → LinkPort) : Sends s (s.modPort p f) := .of_eq rfl

theorem sendOne_sends (s : State) (p : Nat) : Sends s (sendOne s p) := by
  unfold sendOne
  split
  · exact .refl s
  · extract_lets m sent counted
    exact (((modPort_sends s p _).trans (countGlobal_sends sent _ _)).trans (count_sends _ _ _ _)).trans (emit_sends _ _)

theorem forAll_sends {α : Type} {f : State → α → State} (hf : ∀ t x, Sends t (f t x)) (l : List α) (s : State) :
    Sends s (forAll l f s) := forAll_rel Sends.refl Sends.trans hf l s

theorem drainTx_sends (s : State) (p : Nat) : Sends s (drainTx s p) := forAll_sends (fun t _ => sendOne_sends t p) _ s

theorem sendAll_sends (s : State) (p : Nat) (l : List TxMsg) : Sends s (sendAll s p l) :=
  (modPort_sends s p _).trans (drainTx_sends _ p)

theorem sendCtl_sends (s : State) (part pkg : Nat) (route : Option (List Nat)) (o : Out) : Sends s (sendCtl s part pkg route o) := by
  unfold sendCtl
  split
  · exact emit_sends s o
  · split
    · exact sendAll_sends _ _ _
    · exact .refl s

theorem noticeTo_sends (s : State) (j : Nat) (dest : List Nat) (n : Notice) : Sends s (noticeTo s j dest n) :=
  forAll_sends (fun t _ => sendCtl_sends t _ _ _ _) _ s

theorem sendNotice_sends (s : State) (j origin : Nat) (n : Notice) : Sends s (sendNotice s j origin n) := noticeTo_sends s j _ n

/-- Between `s` and `t` aborts of job steps were started: jobs, their windows and what their notices touch changed. -/
structure Aborts (s t : State) : Prop where
  rest : t = { s with parts := t.parts, ports := t.ports, pmc := t.pmc, out := t.out, windows := t.windows, jobs := t.jobs }
  part : ∀ p, t.part p = { s.part p with counters := (t.part p).counters }
  out : ∀ o ∈ s.out, o ∈ t.out

namespace Aborts

theorem refl (s : State) : Aborts s s := ⟨rfl, fun _ => rfl, fun _ h => h⟩

theorem trans {a b c : State} (h : Aborts a b) (h' : Aborts b c) : Aborts a c where
  rest := by rw [h'.rest, h.rest]
  part p := by rw [h'.part, h.part]
  out o ho := h'.out o (h.out o ho)

theorem of_sends {s t : State} (h : Sends s t) : Aborts s t := ⟨by rw [h.rest], h.part, h.out⟩

/-- A change of windows and jobs alone. -/
theorem of_eq {s t : State} (h : t = { s with windows := t.windows, jobs := t.jobs }) : Aborts s t := by
  refine ⟨by rw [h], fun p => ?_, fun o ho => ?_⟩ <;> rw [h]
  · rfl
  · exact ho

end Aborts

theorem closeWindow_shape (s : State) (w : Nat) : closeWindow s w = { s with windows := (closeWindow s w).windows } := by
  unfold closeWindow
  split <;> rfl

theorem closeWindows_shape (s : State) (c : Window → Bool) : closeWindows s c = { s with windows := (closeWindows s c).windows } :=
  forAll_rel (R := fun s t => t = { s with windows := t.windows }) (fun _ => rfl) (fun h h' => by rw [h', h])
    (fun t e => closeWindow_shape t e.1) _ s

theorem closeWindow_aborts (s : State) (w : Nat) : Aborts s (closeWindow s w) := by
  unfold closeWindow
  split
  · exact .refl s
  · exact .of_eq rfl

theorem closeWindows_aborts (s : State) (c : Window → Bool) : Aborts s (closeWindows s c) :=
  forAll_rel Aborts.refl Aborts.trans (fun t (e : Nat × Window) => closeWindow_aborts t e.1) _ s

theorem startAbort_aborts (s : State) (j jstep p : Nat) (cause code : Code) (lost : Bool) :
    Aborts s (startAbort s j jstep p cause code lost) := by
  unfold startAbort
  split
  · exact .refl s
  · extract_lets origin marked closed
    exact ((Aborts.of_eq (s := s) rfl).trans (closeWindows_aborts marked _)).trans (.of_sends (sendNotice_sends _ _ _ _))

theorem lostNotices_aborts (s : State) (code : Code) : Aborts s (lostNotices s code) :=
  forAll_rel Aborts.refl Aborts.trans (fun t (j : Nat × Nat × Nat) => startAbort_aborts t j.1 j.2.1 j.2.2 0x0C01 code true) _ s

end Sys2Proof.Machine

/-! PROOFS. Voltage monitor, thermal trip and the request for a power cycle (O11). -/

namespace Sys2Proof.Machine

open Sys2Proof.Claims

theorem out_report_boundary (s : State) {c : Code} (hc : c = 0xE901 ∨ c = 0xE902) {o : Out} (ho : o ∈ s.out) :
    o ∈ (report s { code := c }).out := by
  rw [report_boundary s hc, latched_boundary s hc]
  exact out_subset_withIbi (by simpa [boundaryHold] using ho)

/-- R24: the trip is recorded and holds the block in reset. -/
theorem voltageMonitorTrip_spec {s : State} (now : Nat) (hup : aonUp s = true) (hblk : s.aon.blkResetN = true)
    (hrail : s.aon.railTripped = false) :
    ∃ t, exec (.voltageMonitorTrip now) s = .next t ∧ BlockReset s t ∧ t.aon.railTripped = true ∧ t.aon.needBlkCycle = true
      ∧ (0xE902 : Code) ∈ t.coll.log ∧ t.coll.freeze = false ∧ Out.ibi ∈ t.out := by
  let u := raiseIbi ((advance s now).modAon fun a => { a with railTripped := true })
  have hexec : exec (.voltageMonitorTrip now) s = .next (report u { code := 0xE902 }) := by
    refine (timed_of s (by simp [hup, hrail]) : execVoltageMonitorTrip now s = _).trans ?_
    simp only [advance_aon_blkResetN, hblk]
    rfl
  obtain ⟨hreset, hlog, hcoll, haon⟩ := report_boundary_spec u (c := 0xE902) (.inr rfl)
  refine ⟨_, hexec, blockReset_congr hreset (advance_life s now).symm (advance_variant s now).symm rfl, ?_⟩
  rw [haon, hcoll]
  exact ⟨rfl, rfl, hlog, rfl, out_report_boundary u (.inr rfl) (ibi_mem_raiseIbi _)⟩

theorem railBackInTolerance_spec {s : State} (now : Nat) (hrail : s.aon.railTripped = true) :
    ∃ t, exec (.railBackInTolerance now) s = .next t ∧ t = { s with aon := t.aon } ∧ t.aon.railTripped = false
      ∧ t.aon.railBackSince = time t ∧ t.aon.needBlkCycle = s.aon.needBlkCycle :=
  ⟨_, (timed_of s (by simp [hrail]) : execRailBackInTolerance now s = _), eq_of_advance_aon (now := now), rfl, rfl,
    advance_aon_needBlkCycle s now⟩

/-- A fatal fault changes work nowhere: notices, the start's record, the collector and the always-on domain. -/
theorem fatal_hbm (s : State) (c : Code) : (fatal s c).hbm = s.hbm := by
  have hnotices : ∀ u, (lostNotices u c).hbm = u.hbm := fun u => by rw [(lostNotices_aborts u c).rest]
  simp only [fatal, modAon_hbm, modLife_hbm, modColl_hbm, apply_ite State.hbm, hnotices, ite_self]

theorem fatal_out (s : State) (c : Code) {o : Out} (h : o ∈ s.out) : o ∈ (fatal s c).out := by
  have hnotices : ∀ u : State, o ∈ u.out → o ∈ (lostNotices u c).out := fun u => (lostNotices_aborts u c).out o
  simp only [fatal, modAon_out, apply_ite State.out, modLife_out, ite_self]
  split
  · exact hnotices _ h
  · exact h

/-- Beside the request for a power cycle, its mark of sleep and the code's own time, a fatal fault leaves the always-on domain. -/
theorem fatal_aon_of_unit41 (s : State) {c : Code} (hunit : codeUnit c = 41) :
    (fatal s c).aon = { s.aon with asleep := false, trayReqN := false } := by
  simp only [fatal, hunit, modAon_aon, apply_ite State.aon, lostNotices_aon, modColl_aon, modLife_aon, ite_self, if_true]

theorem fatal_freeze (s : State) (c : Code) : (fatal s c).coll.freeze = true := by
  cases hfreeze : s.coll.freeze
  · rw [fatal_coll c hfreeze]
    rfl
  · simp [fatal, hfreeze, apply_ite State.coll]

theorem fatal_log (s : State) (c : Code) : (fatal s c).coll.log = s.coll.log := by
  cases hfreeze : s.coll.freeze
  · rw [fatal_coll c hfreeze]
    rfl
  · simp [fatal, hfreeze, apply_ite State.coll]

theorem latched_trip (s : State) : latched s { code := 0xE907 } = { s with coll := (latched s { code := 0xE907 }).coll } := rfl

theorem exec_thermalTrip {s : State} (now : Nat) (hup : aonUp s = true) : exec (.thermalTrip now) s
    = .next (withIbi (raiseIbi (advance s now)) (fatal (latched (raiseIbi (advance s now)) { code := 0xE907 }) 0xE907)) := by
  refine (timed_of s (by simp [hup]) : execThermalTrip now s = _).trans ?_
  rw [report_of_alwaysOn (by decide) rfl]
  rfl

/-- R38, R432, R452: a thermal trip is a fatal fault of the always-on unit. -/
theorem thermalTrip_spec {s : State} (now : Nat) (hup : aonUp s = true) :
    ∃ t, exec (.thermalTrip now) s = .next t ∧ (0xE907 : Code) ∈ t.coll.log ∧ t.coll.freeze = true ∧ t.aon.trayReqN = false
      ∧ Out.ibi ∈ t.out ∧ t.hbm = s.hbm ∧ t.aon.whorl = (advance s now).aon.whorl
      ∧ (s.coll.freeze = false → t.coll.resetPending = true ∧ t.coll.fatalCode = 0xE907 ∧ t.coll.fatalAt = time t) := by
  refine ⟨_, exec_thermalTrip now hup, ?_⟩
  let u := latched (raiseIbi (advance s now)) { code := 0xE907 }
  have hu : u = { raiseIbi (advance s now) with coll := u.coll } := latched_trip _
  have haon : (fatal u 0xE907).aon = { u.aon with asleep := false, trayReqN := false } := fatal_aon_of_unit41 u rfl
  refine ⟨?_, ?_, ?_, out_subset_withIbi (fatal_out u _ (hu ▸ ibi_mem_raiseIbi _)), ?_, ?_, fun hfreeze => ?_⟩
  · rw [withIbi_coll, fatal_log, latched_coll]
    exact mem_latch_log (by decide)
  · rw [withIbi_coll, fatal_freeze]
  · rw [withIbi_aon, haon]
  · rw [withIbi_eq]
    change (fatal u 0xE907).hbm = s.hbm
    rw [fatal_hbm, hu]
    exact advance_hbm s now
  · rw [withIbi_aon, haon, hu]
    rfl
  · have hfree : u.coll.freeze = false := by
      rw [latched_coll, latch_freeze]
      exact (congrArg Collector.freeze (advance_coll s now)).trans hfreeze
    rw [withIbi_coll, time_withIbi, time_fatal _ hfree, fatal_coll _ hfree]
    exact ⟨rfl, rfl, rfl⟩

@[simp] theorem holdWaits_advance (s : State) (now : Nat) : holdWaits (advance s now) = holdWaits s := by simp [holdWaits]

/-- Settles O11. -/
theorem monitorsAndPowerCycle : Obligations.MonitorsAndPowerCycle := by
  unfold Obligations.MonitorsAndPowerCycle
  refine ⟨fun s => voltageMonitorTrip_spec, fun s => railBackInTolerance_spec, fun s => thermalTrip_spec,
    fun s now hup hreset hawake hreq hwaits hdue => ⟨_, (timed_of s ?_ : execPowerCycleRequest now s = _), ?_, rfl⟩⟩
  · simp [hup, hreset, hawake, hreq, hwaits, hdue]
  · rw [advance_eq]
    rfl

end Sys2Proof.Machine

/-! PROOFS. What the writing of trace records touches (R550 to R554), STOP_IN_N, the torus coordinates and the test access port
(O12). -/

namespace Sys2Proof.Machine

open Sys2Proof.Claims

/-- Between `s` and `t` trace records were written: ring objects, the traces' own registers, their budget and the count of lost
records changed, and nothing else. -/
structure Traces (s t : State) : Prop where
  rest : t = { s with parts := t.parts, hbm := t.hbm, hbmPoison := t.hbmPoison }
  part : ∀ p, t.part p = { s.part p with counters := (t.part p).counters, trace := (t.part p).trace, obs := (t.part p).obs }

namespace Traces

theorem refl (s : State) : Traces s s := ⟨rfl, fun _ => rfl⟩

theorem trans {a b c : State} (h : Traces a b) (h' : Traces b c) : Traces a c where
  rest := by rw [h'.rest, h.rest]
  part p := by rw [h'.part, h.part]

/-- A change of those registers of one partition. -/
theorem of_modPart (s : State) (k : Nat) (f : Part → Part)
    (hf : ∀ x, f x = { x with counters := (f x).counters, trace := (f x).trace, obs := (f x).obs } := by intro _; rfl) :
    Traces s (s.modPart k f) := by
  refine ⟨rfl, fun p => ?_⟩
  by_cases hp : p = k
  · subst hp
    rw [part_modPart_self]
    exact hf _
  · rw [part_modPart_ne _ _ hp]

end Traces

theorem objWrite_traces (s : State) (p i off : Nat) (bs : List Byte) : Traces s (objWrite s p i off bs) := ⟨rfl, fun _ => rfl⟩

theorem traceSync_traces (s : State) (p : Nat) : Traces s (traceSync s p) := objWrite_traces s _ _ _ _

theorem count_traces (s : State) (p ev n : Nat) : Traces s (count s p ev n) := by
  unfold count
  split
  · exact .refl s
  · exact .of_modPart s p _

theorem tracePut_traces (s : State) (p : Nat) (rec : List Byte) : Traces s (tracePut s p rec) :=
  (((Traces.of_modPart s p _).trans (objWrite_traces (obsSpend s p 32) _ _ _ _)).trans (.of_modPart _ p _)).trans (traceSync_traces _ p)

theorem traceRec_traces (s : State) (p : Nat) (rec : List Byte) : Traces s (traceRec s p rec) := by
  unfold traceRec
  extract_lets t
  split
  · exact .refl s
  · split
    · exact .refl s
    · split
      · exact ((Traces.of_modPart s p _).trans (traceSync_traces _ p)).trans (count_traces _ _ _ _)
      · split
        · exact ((Traces.of_modPart s p _).trans (traceSync_traces _ p)).trans (count_traces _ _ _ _)
        · exact tracePut_traces s p rec

theorem traceTrigger_traces (s : State) (p : Nat) : Traces s (traceTrigger s p) := by
  unfold traceTrigger
  extract_lets t
  split
  · exact (Traces.of_modPart s p _).trans (tracePut_traces _ p _)
  · exact .refl s

theorem forAll_traces {α : Type} {f : State → α → State} (hf : ∀ t x, Traces t (f t x)) (l : List α) (s : State) :
    Traces s (forAll l f s) := forAll_rel Traces.refl Traces.trans hf l s

/-! ### STOP_IN_N -/

/-- A global stop before the traces record it: its source, frozen counts and STOP_OUT_N (R555, R556). -/
def stopBegun (s : State) (src : Nat) : State :=
  { s with
    gst := { s.gst with stopped := true, halted := false, source := src, time := time s }
    pmc := { s.pmc with byStop := true, tf := time s, armed := true, held := frozen s }
    aon := { s.aon with stopOutN := false } }

theorem startStop_traces (s : State) (src : Nat) : Traces (stopBegun s src) (startStop s src) := by
  exact forAll_traces (fun t e => (traceRec_traces t e.1 _).trans (traceTrigger_traces _ e.1))
    (s.parts.filter fun e => e.2.trace.on) (stopBegun s src)

/-- The always-on domain with STOP_IN_N as the edge leaves it, forwarded (R27, R28). -/
def stopForwarded (s : State) (stays : Bool) : State :=
  s.modAon fun a => { a with stopInN := !stays, stopOutN := s.mainReset && !stays }

theorem exec_stopInNFall {s : State} (now : Nat) (stays : Bool) (haon : aonUp s = true) : exec (.stopInNFall ⟨now, stays⟩) s = .next
    (if (!s.mainReset && s.grants.stop && !s.gst.stopped) = true then startStop (stopForwarded (advance s now) stays) 2
      else stopForwarded (advance s now) stays) := by
  refine (timed_of s (by simp [haon]) : execStopInNFall ⟨now, stays⟩ s = _).trans ?_
  rw [← advance_mainReset s now, ← advance_grants s now, ← advance_gst s now]
  rfl

theorem stopInNFall_spec {s : State} (now : Nat) (stays : Bool) (haon : aonUp s = true) :
    ∃ t, exec (.stopInNFall ⟨now, stays⟩) s = .next t ∧ t.aon.stopInN = !stays ∧ t.aon.stopOutN = (s.mainReset && !stays) ∧ t.coll = s.coll
      ∧ (s.mainReset = true ∨ s.grants.stop = false ∨ s.gst.stopped = true → t = { s with aon := t.aon })
      ∧ (s.mainReset = false → s.grants.stop = true → s.gst.stopped = false →
          t.gst.stopped = true ∧ t.gst.source = 2 ∧ t.gst.time = time t ∧ t.pmc.byStop = true ∧ t.tiles = s.tiles) := by
  refine ⟨_, exec_stopInNFall now stays haon, ?_⟩
  by_cases hstops : (!s.mainReset && s.grants.stop && !s.gst.stopped) = true
  · rw [if_pos hstops]
    simp only [Bool.and_eq_true, Bool.not_eq_true'] at hstops
    obtain ⟨⟨hup, hgrant⟩, hfree⟩ := hstops
    rw [(startStop_traces (stopForwarded (advance s now) stays) 2).rest]
    refine ⟨rfl, by rw [hup]; rfl, advance_coll s now, ?_, fun _ _ _ => ⟨rfl, rfl, rfl, rfl, advance_tiles s now⟩⟩
    simp [hup, hgrant, hfree]
  · rw [if_neg hstops]
    refine ⟨rfl, congrArg (· && !stays) (advance_mainReset s now), advance_coll s now, fun _ => eq_of_advance_aon (now := now), ?_⟩
    intro hup hgrant hfree
    simp [hup, hgrant, hfree] at hstops

/-! ### The test access port -/

/-- R36: an instruction that the life-cycle state closes is taken as BYPASS. -/
theorem exec_tapInstruction_of_up {s : State} (i : TapIns) (hup : s.mainReset = false) (hblk : s.aon.blkResetN = true) :
    exec (.tapInstruction i) s = .next (emit
      (s.modLife fun l => { l with tapInstr := tapNumber (if tapOpen s.life.lc i then i else .bypass) })
      (.tdo (tapOut s (if tapOpen s.life.lc i then i else .bypass)))) :=
  (untimed_of s (by simp [up, hup, hblk]) : execTapInstruction i s = _)

/-- Table Security-4: what is closed to a debug access reads zero. -/
theorem tapOut_of_zero {s : State} {i : TapIns} (hzero : tapOut s i = 0) :
    tapOut s (if tapOpen s.life.lc i then i else .bypass) = 0 := by
  split
  · exact hzero
  · rfl

theorem tapInstruction_spec {s : State} (i : TapIns) (hup : s.mainReset = false) (hblk : s.aon.blkResetN = true) :
    ∃ t, exec (.tapInstruction i) s = .next t ∧ t = { s with life := { s.life with tapInstr := t.life.tapInstr }, out := t.out }
      ∧ (tapOpen s.life.lc i = true → t.life.tapInstr = tapNumber i) ∧ (tapOpen s.life.lc i = false → t.life.tapInstr = tapNumber .bypass)
      ∧ (i = .idcode → t.out = .tdo 0xB0E25A6F :: s.out)
      ∧ (i = .debugAccess .closed → t.out = .tdo 0 :: s.out)
      ∧ (∀ p off, i = .debugAccess (.object p off) → p ∉ s.grants.memRead → t.out = .tdo 0 :: s.out)
      ∧ (∀ p off, i = .debugAccess (.object p off) → tapOpen s.life.lc i = true → p ∈ s.grants.memRead → (s.part p).state = 2 →
          off < objSpace (s.part p) → t.out = .tdo (leNat (hbmRead s p off 1)) :: s.out) := by
  refine ⟨_, exec_tapInstruction_of_up i hup hblk, rfl, ?_, ?_, ?_, ?_, ?_, ?_⟩
  · intro hopen
    simp [hopen]
  · intro hopen
    simp [hopen]
  · rintro rfl
    rfl
  · rintro rfl
    exact congrArg (fun v => .tdo v :: s.out) (tapOut_of_zero (s := s) (i := .debugAccess .closed) rfl)
  · rintro p off rfl hgrant
    exact congrArg (fun v => .tdo v :: s.out) (tapOut_of_zero (s := s) (i := .debugAccess (.object p off)) (by simp [tapOut, tapReads, hgrant]))
  · rintro p off rfl hopen hgrant hactive hoff
    simp [hopen, tapOut, tapReads, hgrant, active, hactive, hoff]

/-- Settles O12. -/
theorem stopPinCoordinatesAndTap : Obligations.StopPinCoordinatesAndTap := by
  unfold Obligations.StopPinCoordinatesAndTap
  refine ⟨fun s => stopInNFall_spec, fun s x y z kx ky kz haon hlow hx1 hx16 hy1 hy16 hz1 hz16 hx hy hz => ?_,
    fun s => tapInstruction_spec, fun s => rfl⟩
  refine (untimed_of s ?_ : execTorusCoordinatesWrite x y z kx ky kz s = _)
  simp [haon, hlow, hx1, hx16, hy1, hy16, hz1, hz16, hx, hy, hz]

end Sys2Proof.Machine

/-! PROOFS. Rails and clocks. -/

namespace Sys2Proof.Machine

open Sys2Proof.Claims

variable {s : State}

/-! ### A message sent shows in no accessor -/

@[simp] theorem emit_tile (s : State) (o : Out) (k : Nat) : (emit s o).tile k = s.tile k := rfl
@[simp] theorem emit_rail (s : State) (o : Out) (k : Nat) : (emit s o).rail k = s.rail k := rfl
@[simp] theorem emit_part (s : State) (o : Out) (k : Nat) : (emit s o).part k = s.part k := rfl
@[simp] theorem emit_func (s : State) (o : Out) (k : Nat) : (emit s o).func k = s.func k := rfl
@[simp] theorem emit_port (s : State) (o : Out) (k : Nat) : (emit s o).port k = s.port k := rfl

/-! ### Clocks of several tiles -/

/-- A tile that its clock setting reaches: one that is not withdrawn. -/
def clocked (y : Tile) (n : Nat) (gated : Bool) : Tile := if y.withdrawn = 0 then { y with clock := n, gated } else y

theorem clocked_clocked (y : Tile) (n : Nat) (gated : Bool) : clocked (clocked y n gated) n gated = clocked y n gated := by
  unfold clocked
  by_cases h : y.withdrawn = 0 <;> simp [h]

theorem tile_setClock (s : State) (k n e : Nat) (gated : Bool) :
    (setClock s k n gated).tile e = if e = k then clocked (s.tile e) n gated else s.tile e := by
  unfold setClock
  by_cases hek : e = k
  · subst hek
    by_cases hw : (s.tile e).withdrawn = 0 <;> simp [hw, clocked]
  · rw [if_neg hek]
    split
    · exact tile_modTile_ne s _ hek
    · rfl

theorem setClock_shape (s : State) (k n : Nat) (gated : Bool) :
    setClock s k n gated = { s with tiles := (setClock s k n gated).tiles } := by
  unfold setClock
  split <;> rfl

theorem tile_forAll_setClock (n : Nat) (gated : Bool) (l : List Nat) (s : State) (e : Nat) :
    (forAll l (fun s t => setClock s t n gated) s).tile e = if e ∈ l then clocked (s.tile e) n gated else s.tile e := by
  induction l generalizing s with
  | nil => rfl
  | cons k l ih =>
    refine (ih (setClock s k n gated)).trans ?_
    rw [tile_setClock]
    by_cases hek : e = k
    · simp [hek, clocked_clocked]
    · simp [hek]

theorem forAll_setClock_shape (n : Nat) (gated : Bool) (l : List Nat) (s : State) :
    forAll l (fun s t => setClock s t n gated) s = { s with tiles := (forAll l (fun s t => setClock s t n gated) s).tiles } :=
  forAll_rel (R := fun s t => t = { s with tiles := t.tiles }) (fun _ => rfl) (fun h h' => by rw [h', h])
    (fun t k => setClock_shape t k n gated) l s

/-! ### Levels requested -/

theorem requestRail_shape (s : State) (d mv : Nat) :
    requestRail s d mv = { s with rails := (requestRail s d mv).rails, out := (requestRail s d mv).out } := by
  unfold requestRail
  split <;> rfl

theorem rail_requestRail_ne {d k : Nat} (s : State) (mv : Nat) (h : k ≠ d) : (requestRail s d mv).rail k = s.rail k := by
  unfold requestRail
  split
  · rfl
  · rw [emit_rail, rail_modRail_ne s _ h]

/-- A level that stands or is asked for is asked for no more. -/
theorem requestRail_of_stands {d mv : Nat} (h : (s.rail d).request.isSome ∨ (s.rail d).level = some mv) : requestRail s d mv = s :=
  if_pos h

theorem requestRail_of_other {d mv : Nat} (hfree : (s.rail d).request = none) (hlevel : (s.rail d).level ≠ some mv) :
    requestRail s d mv = emit (s.modRail d fun r => { r with request := some mv, requestAt := time s, retried := false }) (.railRequest d mv) :=
  if_neg (by simp [hfree, hlevel])

theorem rail_requestRail_of_other {d mv : Nat} (hfree : (s.rail d).request = none) (hlevel : (s.rail d).level ≠ some mv) :
    (requestRail s d mv).rail d = { s.rail d with request := some mv, requestAt := time s, retried := false } := by
  rw [requestRail_of_other hfree hlevel, emit_rail, rail_modRail_self]

/-! ### RAIL_CONFIRM -/

/-- The rail of a die once its level is confirmed. -/
def railSettled (s : State) (die mv : Nat) : State :=
  s.modRail die fun r => { r with level := some mv, request := none, retried := false }

theorem rail_railSettled (s : State) (die mv : Nat) :
    (railSettled s die mv).rail die = { s.rail die with level := some mv, request := none, retried := false } := rail_modRail_self s die _

theorem rail_railSettled_ne {die d : Nat} (s : State) (mv : Nat) (h : d ≠ die) : (railSettled s die mv).rail d = s.rail d :=
  rail_modRail_ne s _ h

/-- R585: a die that no partition touches needs 0.60 V. -/
theorem dieNeed_of_no_parts (hparts : s.parts = []) (die : Nat) : dieNeed s die = 600 := by
  simp [dieNeed, diePartitions, hparts]

theorem exec_railConfirm {s : State} {now die mv : Nat} (hup : s.mainReset = false) (hreq : (s.rail die).request = some mv) :
    exec (.railConfirm now die mv) s = .next (if s.life.calibrated then
        requestRail (forAll ((diePartitions (railSettled (advance s now) die mv) die).map (·.1)) retune (railSettled (advance s now) die mv)) die
          (dieNeed (forAll ((diePartitions (railSettled (advance s now) die mv) die).map (·.1)) retune (railSettled (advance s now) die mv)) die)
      else forAll (dieTiles die) (fun s t => setClock s t 48 false) (railSettled (advance s now) die mv)) := by
  refine (timed_of s (by simp [up, hup, hreq]) : execRailConfirm now die mv s = _).trans ?_
  rw [← advance_life s now]
  rfl

/-- A request leaves the level of every rail. -/
theorem level_requestRail (s : State) (d mv k : Nat) : ((requestRail s d mv).rail k).level = (s.rail k).level := by
  by_cases hk : k = d
  · subst hk
    unfold requestRail
    split
    · rfl
    · rw [emit_rail, rail_modRail_self]
  · rw [rail_requestRail_ne s mv hk]

theorem level_retune (s : State) (p k : Nat) : ((retune s p).rail k).level = (s.rail k).level := by
  have hrequests (t : State) (ds : List Nat) : ((requestRails t ds).rail k).level = (t.rail k).level :=
    forAll_keeps (fun t : State => (t.rail k).level) (fun t d => level_requestRail t d (dieNeed t d) k) ds t
  unfold retune
  extract_lets x n ok t
  split
  · refine (hrequests _ _).trans (forAll_keeps (fun t : State => (t.rail k).level) (fun t e => ?_) (partTiles x) t)
    split <;> rfl
  · exact hrequests s _

/-- Before calibration (R585): the rail settles and its tiles run at 1.6 GHz. -/
theorem railConfirm_uncalibrated (s : State) (now die mv : Nat) : ∃ t,
    t = forAll (dieTiles die) (fun s t => setClock s t 48 false) (railSettled (advance s now) die mv)
      ∧ (t.rail die).request = none ∧ (t.rail die).level = some mv ∧ (∀ d, d ≠ die → t.rail d = s.rail d) ∧ t.out = s.out ∧ t.parts = s.parts
      ∧ (∀ e, e ∈ dieTiles die → (s.tile e).withdrawn = 0 → t.tile e = { s.tile e with clock := 48, gated := false })
      ∧ ∀ e, e ∉ dieTiles die → t.tile e = s.tile e := by
  have hshape := forAll_setClock_shape 48 false (dieTiles die) (railSettled (advance s now) die mv)
  have hclocked := tile_forAll_setClock 48 false (dieTiles die) (railSettled (advance s now) die mv)
  generalize forAll (dieTiles die) (fun s t => setClock s t 48 false) (railSettled (advance s now) die mv) = t at hshape hclocked ⊢
  have htile (e : Nat) : (railSettled (advance s now) die mv).tile e = s.tile e := advance_tile s now e
  refine ⟨_, rfl, ?_, ?_, fun d hd => ?_, ?_, ?_, fun e he hw => ?_, fun e he => ?_⟩
  · rw [hshape]
    exact congrArg DieRail.request (rail_railSettled (advance s now) die mv)
  · rw [hshape]
    exact congrArg DieRail.level (rail_railSettled (advance s now) die mv)
  · rw [hshape]
    exact (rail_railSettled_ne (advance s now) mv hd).trans (advance_rail s now d)
  · rw [hshape]
    exact advance_out s now
  · rw [hshape]
    exact advance_parts s now
  · rw [hclocked, if_pos he, htile, clocked, if_pos hw]
  · rw [hclocked, if_neg he, htile]

/-- After calibration, on a block without a partition (R585): the die goes to 0.60 V. -/
theorem railConfirm_calibrated (s : State) (now die mv : Nat) : ∃ t, t = requestRail (railSettled (advance s now) die mv) die 600
      ∧ t.tiles = s.tiles ∧ (∀ d, d ≠ die → t.rail d = s.rail d) ∧ (mv = 600 → (t.rail die).request = none ∧ t.out = s.out)
      ∧ (mv ≠ 600 → (t.rail die).request = some 600 ∧ t.out = .railRequest die 600 :: s.out) := by
  have hrail := rail_railSettled (advance s now) die mv
  refine ⟨_, rfl, ?_, fun d hd => ?_, fun hlow => ?_, fun hhigh => ?_⟩
  · rw [requestRail_shape]
    exact advance_tiles s now
  · rw [rail_requestRail_ne _ _ hd]
    exact (rail_railSettled_ne (advance s now) mv hd).trans (advance_rail s now d)
  · rw [requestRail_of_stands (.inr (by rw [hrail, hlow])), hrail]
    exact ⟨rfl, advance_out s now⟩
  · have hfree : ((railSettled (advance s now) die mv).rail die).request = none := by rw [hrail]
    have hother : ((railSettled (advance s now) die mv).rail die).level ≠ some 600 := by simp [hrail, hhigh]
    rw [rail_requestRail_of_other hfree hother, requestRail_of_other hfree hother]
    exact ⟨rfl, congrArg (_ :: ·) (advance_out s now)⟩

theorem railConfirm_spec {s : State} {now die mv : Nat} (hup : s.mainReset = false) (hreq : (s.rail die).request = some mv) :
    ∃ t, exec (.railConfirm now die mv) s = .next t ∧ (t.rail die).level = some mv
      ∧ (s.life.calibrated = false → (t.rail die).request = none ∧ (∀ d, d ≠ die → t.rail d = s.rail d) ∧ t.out = s.out ∧ t.parts = s.parts
          ∧ (∀ e, e ∈ dieTiles die → (s.tile e).withdrawn = 0 → t.tile e = { s.tile e with clock := 48, gated := false })
          ∧ ∀ e, e ∉ dieTiles die → t.tile e = s.tile e)
      ∧ (s.life.calibrated = true → s.parts = [] → t.tiles = s.tiles ∧ (∀ d, d ≠ die → t.rail d = s.rail d)
          ∧ (mv = 600 → (t.rail die).request = none ∧ t.out = s.out)
          ∧ (mv ≠ 600 → (t.rail die).request = some 600 ∧ t.out = .railRequest die 600 :: s.out)) := by
  refine ⟨_, exec_railConfirm hup hreq, ?_⟩
  cases hcal : s.life.calibrated with
  | false =>
    obtain ⟨t, ht, hfree, hlevel, hrest⟩ := railConfirm_uncalibrated s now die mv
    rw [if_neg Bool.false_ne_true, ← ht]
    exact ⟨hlevel, fun _ => ⟨hfree, hrest⟩, nofun⟩
  | true =>
    rw [if_pos rfl]
    refine ⟨?_, nofun, fun _ hparts => ?_⟩
    · rw [level_requestRail, forAll_keeps (fun t : State => (t.rail die).level) (fun t p => level_retune t p die), rail_railSettled]
    · obtain ⟨t, ht, hrest⟩ := railConfirm_calibrated s now die mv
      have hsettled : (railSettled (advance s now) die mv).parts = [] := (advance_parts s now).trans hparts
      have hnone : diePartitions (railSettled (advance s now) die mv) die = [] := by simp [diePartitions, hsettled]
      rw [hnone, List.map_nil, forAll, List.foldl_nil, dieNeed_of_no_parts hsettled, ← ht]
      exact hrest

/-! ### RAIL_CONFIRM_TIMEOUT -/

theorem exec_railConfirmTimeout {s : State} {now die : Nat} (hup : s.mainReset = false) (hreq : (s.rail die).request.isSome = true)
    (hlate : 100000 + (s.rail die).requestAt < time (advance s now)) : exec (.railConfirmTimeout now die) s = .next
      (if (s.rail die).retried then (advance s now).modRail die fun r => { r with request := none, retried := false }
        else emit ((advance s now).modRail die fun r => { r with requestAt := time (advance s now), retried := true })
          (.railRequest die ((s.rail die).request.getD 0))) := by
  refine (timed_of s (by simp [up, hup, hreq, hlate]) : execRailConfirmTimeout now die s = _).trans ?_
  simp only [advance_rail]

/-- Settles O13. -/
theorem railConfirmation : Obligations.RailConfirmation := by
  unfold Obligations.RailConfirmation
  refine ⟨fun s now die mv => railConfirm_spec, fun s now die mv hup hreq hfirst hlate => ?_, fun s now die hup hreq hretried hlate => ?_⟩
  · refine ⟨_, exec_railConfirmTimeout hup (by rw [hreq]; rfl) hlate, ?_⟩
    rw [hfirst, hreq]
    simp
  · refine ⟨_, exec_railConfirmTimeout hup hreq hlate, ?_⟩
    rw [hretried]
    simp

end Sys2Proof.Machine

/-! PROOFS. A report that names no engine and no step. -/

namespace Sys2Proof.Machine

open Sys2Proof.Claims

variable {s : State} {c : Code}

/-- A code that only the collector takes notice of: a corrected one, or a contained one of a shared unit. -/
abbrev QuietCode (c : Code) : Prop :=
  codeUnit c ≤ 44 ∧ (codeClass c = 1 ∨ codeClass c = 2 ∧ 32 ≤ codeUnit c ∧ codeUnit c ≠ 38)

/-- A contained fault of a shared unit, reported alone, fails no step. -/
theorem contain_quiet (s : State) (hunit : 32 ≤ codeUnit c) (hlink : codeUnit c ≠ 38) : contain s { code := c } = s := by
  have hengine : faultEngine { code := c } = none := faultEngine_of_unit hunit hlink
  have hnone : faultSteps s { code := c } = [] := by simp [faultSteps, hengine]
  rw [contain_of_no_engine hengine, stepsFailed, faultParts, hnone]
  rfl

theorem reacted_quiet (h : QuietCode c) (s : State) : reacted s { code := c } = s := by
  obtain ⟨-, hclass | ⟨hclass, hunit, hlink⟩⟩ := h
  · exact if_pos hclass
  · simp [reacted, hclass, contain_quiet s hunit hlink]

theorem reportCode_taken (h : QuietCode c) (s : State) : reportCode s c = if !s.coll.init && codeUnit c != 41 then
      s.modColl fun x => { x with early := x.early ++ [{ code := c }] }
    else withIbi s (latched s { code := c }) := by
  obtain ⟨hunit, hclass⟩ := id h
  have htaken : ¬ (codeClass c = 0 ∨ 44 < codeUnit c) := by omega
  simp only [reportCode, report, if_neg htaken]
  split
  · rfl
  · exact congrArg (withIbi s) (reacted_quiet h (latched s { code := c }))

/-- R441, R417: what the collector takes from such a report, at once when it is ready. -/
theorem reportCode_of_init (h : QuietCode c) (hinit : s.coll.init = true) :
    reportCode s c = withIbi s (latched s { code := c }) := by
  simp [reportCode_taken h, hinit]

theorem coll_reportCode (h : QuietCode c) (hinit : s.coll.init = true) : (reportCode s c).coll
    = latch (time s) { s.coll with recs := s.coll.recs ++ faultRecs s { code := c } } c := by
  rw [reportCode_of_init h hinit, withIbi_coll, latched_coll]

theorem mem_log_reportCode (h : QuietCode c) (hclass : codeClass c = 2) (hinit : s.coll.init = true) : c ∈ (reportCode s c).coll.log := by
  rw [coll_reportCode h hinit]
  exact mem_latch_log (by omega)

/-- A quiet report shows in the collector, the pins and the messages alone. -/
theorem reportCode_shape (h : QuietCode c) (s : State) : reportCode s c = { s with
    aon := { s.aon with vmonBoot := (reportCode s c).aon.vmonBoot, secalmN := (reportCode s c).aon.secalmN
                        secalmAt := (reportCode s c).aon.secalmAt }
    coll := (reportCode s c).coll, out := (reportCode s c).out } := by
  rw [reportCode_taken h]
  split
  · rfl
  · rw [withIbi_eq, latched_eq]

theorem time_reportCode (h : QuietCode c) (s : State) : time (reportCode s c) = time s := by
  rw [reportCode_shape h]
  rfl

@[simp] theorem starting_advance (s : State) (now : Nat) : starting (advance s now) = starting s := by simp [starting]

/-! ### A start that fails -/

/-- The life-cycle part of a start that fails (R520). -/
def failedLife (s : State) (cause : Nat) : Life :=
  modEntry { s.life with startFailed := some cause, failedAt := time s } fun e => { e with cause }

/-- R520: a start that fails records its cause and its code. -/
theorem failStart_shape (s : State) (cause : Nat) (h : QuietCode c) : ∃ t, failStart s cause c = reportCode t c
    ∧ t = { s with life := failedLife s cause } ∧ (failStart s cause c).life = failedLife s cause ∧ time (failStart s cause c) = time s := by
  have hcoded : failStart s cause c = reportCode { s with life := failedLife s cause } c := if_neg (by rintro rfl; revert h; decide)
  refine ⟨_, hcoded, rfl, ?_⟩
  rw [hcoded, time_reportCode h, reportCode_shape h]
  exact ⟨rfl, rfl⟩

theorem startEntryNotWritten_spec {s : State} {now : Nat} (hstart : starting s = true) (hcold : s.life.warm = false)
    (hentry : s.life.entryWritten = false) (hinit : s.coll.init = true) (hlate : 10000000 + s.life.startAt < time (advance s now)) :
    ∃ t, exec (.startEntryNotWritten now) s = .next t ∧ t.life.startFailed = some 2 ∧ t.life.failedAt = time t ∧ (0xAA01 : Code) ∈ t.coll.log := by
  have hquiet : QuietCode 0xAA01 := by decide
  obtain ⟨t, hfails, ht, hlife, htime⟩ := failStart_shape (advance s now) 2 hquiet
  refine ⟨_, (timed_of s (by simp [hstart, hcold, hentry, hlate]) : execStartEntryNotWritten now s = _), ?_⟩
  rw [hlife, htime, hfails]
  exact ⟨rfl, rfl, mem_log_reportCode hquiet rfl (by simp [ht, hinit])⟩

theorem flashStatusTimeout_spec {s : State} (now : Nat) (hstart : starting s = true) (hinit : s.coll.init = true) :
    ∃ t, exec (.flashStatusTimeout now) s = .next t ∧ t.life.startFailed = some 2 ∧ t.life.flashTimedOut = true ∧ (0xAA01 : Code) ∈ t.coll.log := by
  have hquiet : QuietCode 0xAA01 := by decide
  obtain ⟨t, hfails, ht, hlife, -⟩ :=
    failStart_shape ((advance s now).modLife fun l => { l with flashTimedOut := true }) 2 hquiet
  have hup : up s = true := by
    simp only [starting, Bool.and_eq_true] at hstart
    exact hstart.1.1.1
  refine ⟨_, (timed_of s (by simp [hup, hstart]) : execFlashStatusTimeout now s = _), ?_⟩
  have hstarts : starting ((advance s now).modLife fun l => { l with flashTimedOut := true }) = true :=
    (starting_advance s now).trans hstart
  simp only [hstarts, if_true]
  rw [hlife, hfails]
  exact ⟨rfl, rfl, mem_log_reportCode hquiet rfl (by simp [ht, hinit])⟩

/-- R33: the granule of a port that is not ready is unusable, until block reset. -/
def granuleLost (s : State) (g : Nat) : State :=
  if s.badGranules.contains g then s else
    { s with badGranules := s.badGranules ++ [g], life := { s.life with granulesBad := s.life.granulesBad + 1 } }

theorem granuleLost_shape (s : State) (g : Nat) : granuleLost s g = { s with
    badGranules := (granuleLost s g).badGranules, life := { s.life with granulesBad := (granuleLost s g).life.granulesBad } } := by
  unfold granuleLost
  split <;> rfl

theorem mem_granuleLost (s : State) (g : Nat) : g ∈ (granuleLost s g).badGranules ∧ ∀ k ∈ s.badGranules, k ∈ (granuleLost s g).badGranules := by
  unfold granuleLost
  split
  · rename_i hbad
    exact ⟨List.contains_iff_mem.1 hbad, fun _ hk => hk⟩
  · exact ⟨by simp, fun k hk => by simp [hk]⟩

theorem hbmPortNotReady_spec {s : State} {now port : Nat} (hup : s.mainReset = false) (hready : s.life.ready = false)
    (hinit : s.coll.init = true) (hport : port / 4 < granuleCount s.variant) (hlate : 2000000 + s.life.startAt < time (advance s now)) :
    ∃ t, exec (.hbmPortNotReady now port) s = .next t ∧ port / 4 ∈ t.badGranules ∧ (∀ g ∈ s.badGranules, g ∈ t.badGranules)
      ∧ (0xA401 : Code) ∈ t.coll.log ∧ t.life.startFailed = s.life.startFailed := by
  have hquiet : QuietCode 0xA401 := by decide
  obtain ⟨hlost, hkept⟩ := mem_granuleLost (advance s now) (port / 4)
  refine ⟨reportCode (granuleLost (advance s now) (port / 4)) 0xA401,
    (timed_of s (by simp [up, hup, hready, hport, hlate]) : execHbmPortNotReady now port s = _), ?_⟩
  have hlog := mem_log_reportCode (s := granuleLost (advance s now) (port / 4)) hquiet rfl (by rw [granuleLost_shape]; simp [hinit])
  have hlife : (granuleLost (advance s now) (port / 4)).life.startFailed = s.life.startFailed := by rw [granuleLost_shape]; simp
  refine ⟨?_, ?_, hlog, ?_⟩ <;> rw [reportCode_shape hquiet]
  · exact hlost
  · exact fun g hg => hkept g (by simp [hg])
  · exact hlife

/-! ### The block resets that the block itself begins -/

/-- R451: with BLK_RESET_N low the block stays in the reset it began. -/
theorem startIfFree_of_held (hblk : s.aon.blkResetN = false) : startIfFree s = s := if_neg (by simp [hblk])

theorem selfReset_of_held (cause : Nat) (code : Code) (hblk : s.aon.blkResetN = false) :
    selfReset s cause code = withIbi s (enterReset s cause code) :=
  congrArg (withIbi s) (startIfFree_of_held (by rw [enterReset_aon]; exact hblk))

/-- A block reset that the block begins itself while BLK_RESET_N is low (R451): its next start reports it. -/
theorem selfReset_held {s : State} (now cause : Nat) (code : Code) (hup : s.mainReset = false) (hblk : s.aon.blkResetN = false) :
    ∃ t, selfReset (advance s now) cause code = t ∧ BlockReset s t ∧ t.life.nextCause = cause ∧ t.life.nextCode = code
      ∧ t.coll = { log := s.coll.log } := by
  refine ⟨_, selfReset_of_held cause code (by simp [hblk]), ?_⟩
  have hfirst : firstReset (advance s now) = true := by simp [firstReset, hup]
  have hlife := enterReset_life (advance s now) cause code
  rw [hfirst, if_pos rfl, if_pos rfl] at hlife
  refine ⟨blockReset_congr (blockReset_enterReset (advance s now) cause code) (advance_life s now).symm (advance_variant s now).symm (by rw [withIbi_eq]),
    ?_, ?_, ?_⟩
  · rw [withIbi_eq, hlife]
  · rw [withIbi_eq, hlife]
  · rw [withIbi_coll, enterReset_coll, advance_coll]

theorem failedStartReset_spec {s : State} {now k : Nat} (hup : s.mainReset = false) (hfailed : s.life.startFailed = some k) (hk : k ≠ 5)
    (hlate : 10000000 + s.life.failedAt ≤ time (advance s now)) (hblk : s.aon.blkResetN = false) :
    ∃ t, exec (.failedStartReset now) s = .next t ∧ BlockReset s t ∧ t.life.nextCause = 5 ∧ t.life.nextCode = failCode k := by
  obtain ⟨t, ht, hreset, hcause, hcode, -⟩ := selfReset_held now 5 (failCode k) hup hblk
  refine ⟨t, (timed_of s ?_ : execFailedStartReset now s = _).trans ?_, hreset, hcause, hcode⟩
  · simp [up, hup, hlate, hfailed]
  · rw [← ht, advance_life, hfailed]
    rfl

/-- Settles O14. -/
theorem failedStarts : Obligations.FailedStarts := by
  unfold Obligations.FailedStarts
  refine ⟨fun s now => startEntryNotWritten_spec, fun s => flashStatusTimeout_spec, fun s now port => hbmPortNotReady_spec,
    fun s now hstart hlate => ?_, fun s now k => failedStartReset_spec⟩
  refine ⟨_, (timed_of s (by simp [hstart, hlate]) : execStartTimeout now s = _), rfl, rfl, ?_⟩
  exact advance_coll s now

theorem fatalBlockReset_held {s : State} {now : Nat} (haon : aonUp s = true) (hup : s.mainReset = false) (hblk : s.aon.blkResetN = false)
    (hpending : s.coll.resetPending = true) (hdue : 1000000 + s.coll.fatalAt ≤ time (advance s now)) :
    ∃ t, exec (.fatalBlockReset now) s = .next t ∧ BlockReset s t ∧ t.life.nextCause = 4 ∧ t.life.nextCode = s.coll.fatalCode
      ∧ t.coll = { log := s.coll.log } := by
  obtain ⟨t, ht, hreset⟩ := selfReset_held now 4 s.coll.fatalCode hup hblk
  refine ⟨t, (timed_of s (by simp [haon, hpending, hdue]) : execFatalBlockReset now s = _).trans ?_, hreset⟩
  rw [← ht, advance_coll]

theorem blockResetBegin_held {s : State} {now due : Nat} (hup : s.mainReset = false) (hblk : s.aon.blkResetN = false)
    (hscheduled : s.life.resetAt = some due) (hdue : due ≤ time (advance s now)) :
    ∃ t, exec (.blockResetBegin now) s = .next t ∧ BlockReset s t ∧ t.life.nextCause = s.life.resetCause ∧ t.coll = { log := s.coll.log } := by
  obtain ⟨t, ht, hreset, hcause, -, hcoll⟩ := selfReset_held now s.life.resetCause 0 hup hblk
  refine ⟨t, (timed_of s (by simp [up, hup, hscheduled, hdue]) : execBlockResetBegin now s = _).trans ?_, hreset, hcause, hcoll⟩
  rw [← ht, advance_life]

/-- R451, R517: with its inputs good the block starts again and reports the cause. -/
theorem selfReset_free {s : State} (cause : Nat) (code : Code) (haon : aonUp s = true) (hclock : s.aon.refclk = true)
    (hgood : s.aon.pwrGood = true) (hblk : s.aon.blkResetN = true) (hcycle : s.aon.needBlkCycle = false) :
    selfReset s cause code = withIbi s (beginStart (enterReset s cause code) 0) := by
  have haon' := enterReset_aon s cause code
  refine congrArg (withIbi s) (startIfFree_of_free ?_ ?_ ?_ ?_ ?_)
  · exact (congrArg (fun a : Aon => a.railsOk && a.aonResetN) haon').trans haon
  all_goals rw [haon']; assumption

theorem startLife_cause (s : State) (tries : Nat) : (startLife s tries).cause = s.life.nextCause := by
  simp only [startLife]
  rw [writeEntry_shape]

theorem startLife_code (s : State) (tries : Nat) : (startLife s tries).code
    = if s.life.nextCause = 4 ∨ s.life.nextCause = 5 then s.life.nextCode else 0 := by
  simp only [startLife]
  rw [writeEntry_shape]

theorem fatalBlockReset_free {s : State} {now : Nat} (haon : aonUp s = true) (hup : s.mainReset = false) (hblk : s.aon.blkResetN = true)
    (hclock : s.aon.refclk = true) (hgood : s.aon.pwrGood = true) (hcycle : s.aon.needBlkCycle = false)
    (hpending : s.coll.resetPending = true) (hdue : 1000000 + s.coll.fatalAt ≤ time (advance s now)) :
    ∃ t, exec (.fatalBlockReset now) s = .next t ∧ t.mainReset = false ∧ t.life.cause = 4 ∧ t.life.code = s.coll.fatalCode
      ∧ t.life.startAt = time t ∧ t.parts = [] ∧ t.steps = [] ∧ t.coll.log = s.coll.log ∧ t.coll.freeze = false := by
  refine ⟨_, (timed_of s (by simp [haon, hpending, hdue]) : execFatalBlockReset now s = _), ?_⟩
  have hfirst : firstReset (advance s now) = true := by simp [firstReset, hup]
  have hlife := enterReset_life (advance s now) 4 s.coll.fatalCode
  rw [hfirst, if_pos rfl, if_pos rfl] at hlife
  rw [advance_coll, selfReset_free _ _ (by simp [haon]) (by simp [hclock]) (by simp [hgood]) (by simp [hblk]) (by simp [hcycle]),
    time_withIbi, withIbi_coll, withIbi_eq]
  have hcoll := enterReset_coll (advance s now) 4 s.coll.fatalCode
  have hparts : (enterReset (advance s now) 4 s.coll.fatalCode).parts = [] := rfl
  have hsteps : (enterReset (advance s now) 4 s.coll.fatalCode).steps = [] := rfl
  generalize enterReset (advance s now) 4 s.coll.fatalCode = u at hlife hcoll hparts hsteps
  have hcause : u.life.nextCause = 4 := by rw [hlife]
  have hcode : u.life.nextCode = s.coll.fatalCode := by rw [hlife]
  rw [beginStart_shape]
  refine ⟨rfl, ?_, ?_, rfl, hparts, hsteps, ?_, ?_⟩
  · exact (startLife_cause u 0).trans hcause
  · exact (startLife_code u 0).trans (by simp [hcause, hcode])
  · simp [hcoll]
  · simp [hcoll]

/-- Settles O16. -/
theorem internalBlockResets : Obligations.InternalBlockResets := by
  unfold Obligations.InternalBlockResets
  exact ⟨fun s now => fatalBlockReset_held, fun s now due => blockResetBegin_held, fun s now => fatalBlockReset_free⟩

end Sys2Proof.Machine

/-! PROOFS. The start of the block, and sleep. -/

namespace Sys2Proof.Machine

open Sys2Proof.Claims

variable {s : State}

/-! ### Levels requested for several dies -/

/-- A rail once a level has been asked for at a time (R20). -/
def asked (r : DieRail) (mv now : Nat) : DieRail :=
  if r.request.isSome ∨ r.level = some mv then r else { r with request := some mv, requestAt := now, retried := false }

theorem asked_asked (r : DieRail) (mv now : Nat) : asked (asked r mv now) mv now = asked r mv now := by
  unfold asked
  by_cases h : r.request.isSome ∨ r.level = some mv <;> simp [h]

theorem asked_stands (r : DieRail) (mv now : Nat) : (asked r mv now).request.isSome = true ∨ (asked r mv now).level = some mv := by
  unfold asked
  split
  · assumption
  · exact .inl rfl

/-- A rail with no request out is asked for just this level, or has it. -/
theorem asked_of_free {r : DieRail} (mv now : Nat) (hfree : r.request = none) :
    (asked r mv now).request = some mv ∨ (asked r mv now).level = some mv := by
  by_cases h : r.level = some mv <;> simp [asked, hfree, h]

theorem rail_requestRail (s : State) (d mv k : Nat) :
    (requestRail s d mv).rail k = if k = d then asked (s.rail k) mv (time s) else s.rail k := by
  by_cases hk : k = d
  · subst hk
    rw [if_pos rfl]
    unfold requestRail asked
    split
    · rfl
    · rw [emit_rail, rail_modRail_self]
  · rw [if_neg hk, rail_requestRail_ne s mv hk]

theorem time_requestRail (s : State) (d mv : Nat) : time (requestRail s d mv) = time s := by
  rw [requestRail_shape]
  rfl

theorem rail_forAll_requestRail (mv : Nat) (l : List Nat) (s : State) (k : Nat) :
    (forAll l (fun s d => requestRail s d mv) s).rail k = if k ∈ l then asked (s.rail k) mv (time s) else s.rail k := by
  induction l generalizing s with
  | nil => rfl
  | cons d l ih =>
    refine (ih (requestRail s d mv)).trans ?_
    rw [rail_requestRail, time_requestRail]
    by_cases hk : k = d
    · simp [hk, asked_asked]
    · simp [hk]

theorem forAll_requestRail_shape (mv : Nat) (l : List Nat) (s : State) : forAll l (fun s d => requestRail s d mv) s
    = { s with rails := (forAll l (fun s d => requestRail s d mv) s).rails, out := (forAll l (fun s d => requestRail s d mv) s).out } :=
  forAll_rel (R := fun s t => t = { s with rails := t.rails, out := t.out }) (fun _ => rfl) (fun h h' => by rw [h', h])
    (fun t d => requestRail_shape t d mv) l s

/-! ### The start -/

theorem imageAuthenticated_passes {s : State} {now : Nat} (hstart : starting s = true) (hentry : s.life.entryWritten = true)
    (hopen : s.life.authOk = false) (himage : imageStatus s.life s.life.image = 0) :
    ∃ t, exec (.imageAuthenticated now) s = .next t ∧ t.coll = s.coll
      ∧ t.life = { s.life with authOk := true, runImage := s.life.image, fwVer := fld s.life.image 8 4, attestKey := s.life.hasIdentity && s.life.lc != 5 }
      ∧ (∀ d, d < dies s.variant → (t.rail d).request.isSome = true ∨ (t.rail d).level = some 800) := by
  refine ⟨_, (timed_of s (by simp [hstart, hentry, hopen]) : execImageAuthenticated now s = _), ?_⟩
  simp only [advance_life, himage, if_true]
  refine ⟨?_, ?_, fun d hd => ?_⟩
  · rw [forAll_requestRail_shape]
    simp
  · rw [forAll_requestRail_shape]
    simp
  · rw [rail_forAll_requestRail, if_pos (by simpa using hd)]
    exact asked_stands _ _ _

theorem imageAuthenticated_fails {s : State} {now : Nat} (hstart : starting s = true) (hentry : s.life.entryWritten = true)
    (hopen : s.life.authOk = false) (hinit : s.coll.init = true) (himage : imageStatus s.life s.life.image ≠ 0) :
    ∃ t, exec (.imageAuthenticated now) s = .next t ∧ t.life.startFailed = some 1 ∧ (0xAA02 : Code) ∈ t.coll.log ∧ t.life.authOk = false := by
  have hquiet : QuietCode 0xAA02 := by decide
  obtain ⟨t, hfails, ht, hlife, -⟩ := failStart_shape (advance s now) 1 hquiet
  refine ⟨_, (timed_of s (by simp [hstart, hentry, hopen]) : execImageAuthenticated now s = _), ?_⟩
  simp only [advance_life, himage, if_false]
  rw [hlife, hfails]
  exact ⟨rfl, mem_log_reportCode hquiet rfl (by simp [ht, hinit]), (congrArg Life.authOk (advance_life s now)).trans hopen⟩

theorem mem_of_tfind {α : Type} {l : Tab α} {k : Nat} {v : α} (h : tfind l k = some v) : (k, v) ∈ l := by
  induction l with
  | nil => exact absurd h nofun
  | cons e l ih =>
    obtain ⟨k', v'⟩ := e
    by_cases hk : k = k'
    · rw [tfind, if_pos hk] at h
      obtain rfl := Option.some.inj h
      exact hk ▸ .head l
    · rw [tfind, if_neg hk] at h
      exact .tail _ (ih h)

/-- R585: at the end of calibration the clock of every usable tile is gated at 0.4 GHz. -/
theorem clock_of_calibrated {tiles : Tab Tile} {e : Nat} (h : (tget tiles e {}).withdrawn = 0) :
    (tget (tmap tiles fun _ x => if x.withdrawn = 0 then { x with clock := 0, gated := true } else x) e {}).clock = 0 := by
  unfold tget at *
  rw [tfind_tmap]
  cases hfind : tfind tiles e with
  | none => rfl
  | some x =>
    have hw : x.withdrawn = 0 := by simpa [hfind] using h
    simp [hw]

theorem calibrationDone_spec {s : State} {now factor : Nat} (hstart : starting s = true) (hauth : s.life.authOk = true)
    (hbist : s.life.bistDone = true) (hopen : s.life.calibrated = false) (hrails : ∀ e ∈ s.rails, e.2.request = none) :
    ∃ t, exec (.calibrationDone now factor) s = .next t ∧ t.life = { s.life with calibrated := true, energyFactor := factor }
      ∧ (∀ d, d < dies s.variant → (t.rail d).request = some 600 ∨ (t.rail d).level = some 600)
      ∧ (∀ e, (s.tile e).withdrawn = 0 → (t.tile e).clock = 0) := by
  have hall : (s.rails.all fun e => e.2.request.isNone) = true := List.all_eq_true.2 fun e he => by simp [hrails e he]
  refine ⟨_, (timed_of s (by simp [hstart, hauth, hbist, hopen, hall]) : execCalibrationDone now factor s = _), ?_, fun d hd => ?_, fun e he => ?_⟩
  · rw [forAll_requestRail_shape]
    simp
  · have hfree : (s.rail d).request = none := by
      unfold State.rail tget
      cases hfind : tfind s.rails d with
      | none => rfl
      | some r => exact hrails (d, r) (mem_of_tfind hfind)
    rw [rail_forAll_requestRail, if_pos (by simpa using hd)]
    exact asked_of_free _ _ ((congrArg DieRail.request (advance_rail s now d)).trans hfree)
  · rw [forAll_requestRail_shape]
    exact clock_of_calibrated ((congrArg Tile.withdrawn (advance_tile s now e)).trans he)

theorem mbxReady_spec {s : State} {now : Nat} (hstart : starting s = true) (hauth : s.life.authOk = true)
    (hbist : s.life.bistDone = true) (hcalibrated : s.life.calibrated = true) (hintime : time (advance s now) ≤ 2000000000 + s.life.startAt)
    (hcold : s.life.warm = false) :
    ∃ t, exec (.mbxReady now) s = .next t ∧ ready t = true ∧ t.life.starting = false
      ∧ t.life.svnFloor = max s.life.svnFloor (imageSvn s.life.runImage) ∧ t.power.limit = maxPower s.variant
      ∧ t.power.admitting = true ∧ (t.window 0x3FF).isOpen = true ∧ t.coll.watchdog = time t ∧ t.coll.log = s.coll.log := by
  have hup : up s = true := by
    simp only [starting, Bool.and_eq_true] at hstart
    exact hstart.1.1.1
  refine ⟨_, (timed_of s (by simp [hstart, hauth, hbist, hcalibrated, hintime]) : execMbxReady now s = _), ?_⟩
  simp only [advance_life, hcold]
  have hup' : up (advance s now) = true := (up_advance s now).trans hup
  refine ⟨by simpa [ready, up] using hup', rfl, ?_, congrArg maxPower (advance_variant s now), rfl, ?_, rfl, ?_⟩
  · exact congrArg (fun l : Life => max l.svnFloor (imageSvn l.runImage)) (advance_life s now)
  · exact congrArg Window.isOpen (window_modWindow_self _ 0x3FF _)
  · change (advance s now).coll.log = s.coll.log
    rw [advance_coll]

/-- Settles O15. -/
theorem startSequence : Obligations.StartSequence := by
  unfold Obligations.StartSequence
  refine ⟨fun s now hup hinit hearly => ?_, fun s now => imageAuthenticated_passes, fun s now => imageAuthenticated_fails,
    fun s now factor => calibrationDone_spec, fun s now => mbxReady_spec⟩
  refine ⟨_, (timed_of s (by simp [up, hup, hinit]) : execFaultCollectorInitialised now s = _), ?_⟩
  simp only [initColl, advance_coll, hearly, forAll, List.foldl_nil, State.modColl]
  rw [advance_eq]

/-! ### Sleep -/

/-- A block about to sleep with a line in a cache that the host has not got back (R525). -/
def dirtySleeper : State :=
  { State.reset with
    mainReset := false, life := { ready := true }, power := { entering := true }, parts := [(0, { state := 2 })]
    dieWays := [(0, [(0, 0)])], caches := [(0, [{ way := 0, line := 0, dirty := true }])] }

/-- The number of messages sent by a state that a command leads to. -/
def sentBy : Res → Nat
  | .next t => t.out.length
  | _ => 0

/-- Refutes O17: sleep entry writes back the dirty lines of the caches (R525), so the rails' message is not the only one. -/
theorem not_sleepAndWake : ¬ Obligations.SleepAndWake := by
  unfold Obligations.SleepAndWake
  rintro ⟨hsleep, -⟩
  obtain ⟨t, hexec, -, -, -, -, hout, -⟩ := hsleep dirtySleeper 0 rfl rfl rfl rfl
  have hsent : sentBy (exec (.sleepEntry 0) dirtySleeper) = 2 := by decide
  have hone : sentBy (exec (.sleepEntry 0) dirtySleeper) = 1 := by rw [hexec, sentBy, hout]; rfl
  omega

end Sys2Proof.Machine

/-! PROOFS. The issue of a skein's instruction (R190 to R199), and the operations on control and scalars. -/

namespace Sys2Proof.Machine

open Sys2Proof.Claims

variable {s : State} {t : Nat} {i : SkInsn} {r : SkeinRun} {st : Step}

/-! ### The trace of one partition -/

theorem part_objWrite (s : State) (p k off : Nat) (bs : List Byte) (q : Nat) : (objWrite s p k off bs).part q = s.part q := rfl

theorem part_traceSync (s : State) (p q : Nat) : (traceSync s p).part q = s.part q := part_objWrite s p _ _ _ q

theorem part_obsSpend_ne {p q : Nat} (s : State) (n : Nat) (hq : q ≠ p) : (obsSpend s p n).part q = s.part q := part_modPart_ne s _ hq

theorem part_tracePut_ne {p q : Nat} (s : State) (rec : List Byte) (hq : q ≠ p) : (tracePut s p rec).part q = s.part q := by
  simp only [tracePut, part_traceSync, part_modPart_ne _ _ hq, part_objWrite, part_obsSpend_ne _ _ hq]

theorem part_count_ne {p q : Nat} (s : State) (ev n : Nat) (hq : q ≠ p) : (count s p ev n).part q = s.part q := by
  unfold count
  split
  · rfl
  · exact part_modPart_ne s _ hq

theorem part_traceRec_ne {p q : Nat} (s : State) (rec : List Byte) (hq : q ≠ p) : (traceRec s p rec).part q = s.part q := by
  simp only [traceRec]
  split
  · rfl
  · split
    · rfl
    · split
      · rw [part_count_ne _ _ _ hq, part_traceSync, part_modPart_ne _ _ hq]
      · split
        · rw [part_count_ne _ _ _ hq, part_traceSync, part_modPart_ne _ _ hq]
        · exact part_tracePut_ne s rec hq

theorem traceRec_of_off {p : Nat} (rec : List Byte) (hoff : (s.part p).trace.on = false) : traceRec s p rec = s := by
  simp [traceRec, hoff]

/-! ### What issue notes -/

/-- The state once the first issue of a skein has left its trace record (R550). -/
def issueTraced (s : State) (t : Nat) (r : SkeinRun) (st : Step) : State :=
  if r.code.length = (nth (stepFile s st).skeins r.skein {}).code.length
    then traceSkein s r.slot 1 t r.skein (if st.replaced.contains r.skein then 4 else 0) 0 else s

theorem traceSkein_traces (s : State) (slot kind t skein flags status : Nat) : Traces s (traceSkein s slot kind t skein flags status) := by
  unfold traceSkein
  split
  · exact .refl s
  · exact traceRec_traces s _ _

theorem issueTraced_traces (s : State) (t : Nat) (r : SkeinRun) (st : Step) : Traces s (issueTraced s t r st) := by
  unfold issueTraced
  split
  · exact traceSkein_traces s ..
  · exact .refl s

theorem part_issueTraced_ne (hst : tfind s.steps r.slot = some st) {q : Nat} (hq : q ≠ st.part) :
    (issueTraced s t r st).part q = s.part q := by
  unfold issueTraced
  split
  · simp only [traceSkein, hst]
    exact part_traceRec_ne s _ hq
  · rfl

/-- R550: an issue that is not the skein's first, or with the trace off, writes no record. -/
theorem issueTraced_of_untraced (hst : tfind s.steps r.slot = some st) (h : Untraced s r st) : issueTraced s t r st = s := by
  unfold issueTraced
  rcases h with hoff | hlater
  · simp only [traceSkein, hst, traceRec_of_off _ hoff, ite_self]
  · exact if_neg hlater

/-- The step once the operation has issued. -/
def notedStep (s : State) (i : SkInsn) (r : SkeinRun) (st : Step) : Step :=
  { st with lastOp := time s, skeins := if isFetch i then st.skeins else tput st.skeins r.skein 2 }

/-- The tile once the operation has issued. -/
def notedTile (s : State) (t : Nat) (r : SkeinRun) : Tile := { s.tile t with run := some r, gated := false }

/-- The state once tile and partition have noted the operation, before the step has. -/
def runNoted (s : State) (t : Nat) (i : SkInsn) (r : SkeinRun) (st : Step) : State :=
  ((issueTraced s t r st).modTile t fun x => { x with run := some (stepRun r i), gated := false }).modPart st.part
    fun x => { x with lastIssue := time s, hangPosted := false }

theorem noteIssue_eq (t : Nat) (i : SkInsn) (hst : tfind s.steps r.slot = some st) : noteIssue s t i r st
    = { runNoted s t i r st with steps := tput s.steps r.slot (notedStep s i r st) } := by
  have hrest := (issueTraced_traces s t r st).rest
  have htime : time (issueTraced s t r st) = time s := by rw [hrest]; rfl
  have hsteps : (runNoted s t i r st).steps = s.steps := by
    change (issueTraced s t r st).steps = s.steps
    rw [hrest]
  have hnoted : noteIssue s t i r st = (runNoted s t i r st).modStep r.slot fun x =>
      { x with lastOp := time s, skeins := if isFetch i then x.skeins else tput x.skeins r.skein 2 } := by
    unfold runNoted
    rw [← htime]
    rfl
  rw [hnoted, modStep_of_some _ _ (by rw [hsteps]; exact hst), hsteps]
  rfl

theorem noteIssue_shape (t : Nat) (i : SkInsn) (hst : tfind s.steps r.slot = some st) : noteIssue s t i r st = { s with
    parts := (noteIssue s t i r st).parts, tiles := tput s.tiles t (notedTile s t (stepRun r i))
    steps := tput s.steps r.slot (notedStep s i r st), hbm := (issueTraced s t r st).hbm
    hbmPoison := (issueTraced s t r st).hbmPoison } := by
  rw [noteIssue_eq t i hst, runNoted]
  have hrest := (issueTraced_traces s t r st).rest
  generalize issueTraced s t r st = v at hrest
  rw [hrest]
  rfl

theorem part_noteIssue (t : Nat) (i : SkInsn) (hst : tfind s.steps r.slot = some st) (q : Nat) : (noteIssue s t i r st).part q
    = if q = st.part then { (issueTraced s t r st).part q with lastIssue := time s, hangPosted := false } else s.part q := by
  have hpart : (noteIssue s t i r st).part q = (runNoted s t i r st).part q := by
    rw [noteIssue_eq t i hst]
    rfl
  rw [hpart, runNoted]
  by_cases hq : q = st.part
  · rw [if_pos hq, hq, part_modPart_self]
    rfl
  · rw [if_neg hq, part_modPart_ne _ _ hq]
    exact part_issueTraced_ne hst hq

theorem tile_noteIssue_self (t : Nat) (i : SkInsn) (hst : tfind s.steps r.slot = some st) :
    (noteIssue s t i r st).tile t = notedTile s t (stepRun r i) := by
  rw [noteIssue_shape t i hst]
  exact tget_tput_self _ _ _ _

theorem tile_noteIssue_ne {k : Nat} (i : SkInsn) (hst : tfind s.steps r.slot = some st) (hk : k ≠ t) :
    (noteIssue s t i r st).tile k = s.tile k := by
  rw [noteIssue_shape t i hst]
  exact tget_tput_ne _ _ _ hk

theorem tfind_noteIssue_self (t : Nat) (i : SkInsn) (hst : tfind s.steps r.slot = some st) :
    tfind (noteIssue s t i r st).steps r.slot = some (notedStep s i r st) := by
  rw [noteIssue_shape t i hst]
  exact tfind_tput_self _ _ _

theorem tfind_noteIssue_ne {k : Nat} (t : Nat) (i : SkInsn) (hst : tfind s.steps r.slot = some st) (hk : k ≠ r.slot) :
    tfind (noteIssue s t i r st).steps k = tfind s.steps k := by
  rw [noteIssue_shape t i hst]
  exact tfind_tput_ne _ _ hk

/-- The partition whose step issues keeps all but its counts, its trace and its note of the issue. -/
theorem part_noteIssue_self (t : Nat) (i : SkInsn) (hst : tfind s.steps r.slot = some st) : ∃ c tr o,
    (noteIssue s t i r st).part st.part
      = { s.part st.part with counters := c, trace := tr, obs := o, lastIssue := time s, hangPosted := false } := by
  refine ⟨((issueTraced s t r st).part st.part).counters, ((issueTraced s t r st).part st.part).trace,
    ((issueTraced s t r st).part st.part).obs, ?_⟩
  rw [part_noteIssue t i hst, if_pos rfl]
  conv_lhs => rw [(issueTraced_traces s t r st).part]

theorem issueFrame_noteIssue (t : Nat) (i : SkInsn) (hst : tfind s.steps r.slot = some st) :
    IssueFrame s (noteIssue s t i r st) r.slot st.part := by
  obtain ⟨c, tr, o, hpart⟩ := part_noteIssue_self t i hst
  refine ⟨fun k hk => tfind_noteIssue_ne t i hst hk, fun q hq => ?_, by rw [hpart], by rw [hpart], by rw [hpart], ?_⟩
  · rw [part_noteIssue t i hst, if_neg hq]
  · rw [noteIssue_shape t i hst]
    exact ⟨rfl, rfl, rfl, rfl, rfl, rfl, rfl, rfl, rfl, rfl⟩

/-- R183, R433: an issue that is no FETCH shows in the run, the step and the counts alone. -/
theorem onlyRun_noteIssue (t : Nat) (hfetch : isFetch i = false) (hst : tfind s.steps r.slot = some st) :
    OnlyRun s (noteIssue s t i r st) t r st (stepRun r i) := by
  have hstep : notedStep s i r st = stepAfter s r st := by simp [notedStep, stepAfter, hfetch]
  refine ⟨tile_noteIssue_self t i hst, fun k hk => tile_noteIssue_ne i hst hk, hstep ▸ tfind_noteIssue_self t i hst,
    issueFrame_noteIssue t i hst, ?_⟩
  have hoff (h : (s.part st.part).trace.on = false) := issueTraced_of_untraced (t := t) hst (Or.inl h : Untraced s r st)
  rw [noteIssue_shape t i hst]
  exact ⟨rfl, rfl, rfl, rfl, rfl, fun h => by rw [hoff h]; exact ⟨rfl, rfl⟩⟩

/-! ### An instruction issues -/

/-- R439: with no injection armed an instruction does what its row says. -/
theorem skein_of_issues (ks : List Nat) (f : State → Nat → Step → SkeinRun → State) (h : Issues s t i r st) :
    skein t i ks f s = .next (f (noteIssue s t i r st) r.slot st (stepRun r i)) := by
  obtain ⟨hok, hrun, hst, hcalm⟩ := h
  refine (untimed_of s (c := fun s => issueOk s t i) hok).trans ?_
  have hcoll : (noteIssue s t i r st).coll.inject = [] := by
    rw [noteIssue_shape t i hst]
    exact hcalm
  have hunarmed : (7 :: 4 :: ks).find? (fun k => armed (noteIssue s t i r st) (tileDie t) k t) = none :=
    List.find?_eq_none.2 fun k _ => by simp [armed, hcoll]
  simp only [issue, hrun, hst, hunarmed]

/-- A change of the run that follows the issue. -/
theorem onlyRun_setRun {u : State} {r₁ : SkeinRun} (r₂ : SkeinRun) (h : OnlyRun s u t r st r₁) : OnlyRun s (setRun u t r₂) t r st r₂ := by
  obtain ⟨htile, hothers, hrest⟩ := h
  refine ⟨?_, fun k hk => (tile_modTile_ne u _ hk).trans (hothers k hk), hrest⟩
  rw [setRun, tile_modTile_self, htile]

theorem stepRun_control (r : SkeinRun) (hfetch : isFetch i = false) (hmat : onMatrix i = false) (hvec : onVector i = false) :
    stepRun r i = consumed r := by
  simp [stepRun, consumed, hfetch, hmat, hvec]

theorem onlyRun_control (hfetch : isFetch i = false) (hmat : onMatrix i = false) (hvec : onVector i = false) (h : Issues s t i r st) :
    OnlyRun s (noteIssue s t i r st) t r st (consumed r) := by
  obtain ⟨-, -, hst, -⟩ := h
  rw [← stepRun_control r hfetch hmat hvec]
  exact onlyRun_noteIssue t hfetch hst

/-- A control or scalar operation that writes the run `r₂`. -/
theorem control_sets {f : State → Nat → Step → SkeinRun → State} (r₂ : SkeinRun) (hfetch : isFetch i = false) (hmat : onMatrix i = false)
    (hvec : onVector i = false) (h : Issues s t i r st) (hf : ∀ u, f u r.slot st (consumed r) = setRun u t r₂) :
    ∃ u, skein t i [] f s = .next u ∧ OnlyRun s u t r st r₂ := by
  refine ⟨_, skein_of_issues [] f h, ?_⟩
  rw [stepRun_control r hfetch hmat hvec, hf]
  exact onlyRun_setRun r₂ (onlyRun_control hfetch hmat hvec h)

/-! ### NOP, SKIPZ, SKIPNZ, SETI, PRED and STAT -/

theorem skipz_spec {sc n : Nat} (h : Issues s t (.skipz sc n) r st) : ∃ u, exec (.skipz t sc n) s = .next u
    ∧ OnlyRun s u t r st { consumed r with code := if sreg r sc = 0 then r.code.drop (n + 1) else r.code.drop 1 } := by
  have hkeep := onlyRun_control rfl rfl rfl h
  refine ⟨_, (skein_of_issues [] _ h : execSkipz t sc n s = _), ?_⟩
  rw [stepRun_control r rfl rfl rfl]
  by_cases hz : sreg r sc = 0
  · have hz' : sreg (consumed r) sc = 0 := hz
    simp only [hz, hz', if_true]
    have hdrop : (consumed r).code.drop n = r.code.drop (n + 1) := by simp [consumed]
    rw [hdrop]
    exact onlyRun_setRun _ hkeep
  · have hz' : ¬ sreg (consumed r) sc = 0 := hz
    simp only [hz, hz', if_false]
    exact hkeep

theorem skipnz_spec {sc n : Nat} (h : Issues s t (.skipnz sc n) r st) : ∃ u, exec (.skipnz t sc n) s = .next u
    ∧ OnlyRun s u t r st { consumed r with code := if sreg r sc = 0 then r.code.drop 1 else r.code.drop (n + 1) } := by
  have hkeep := onlyRun_control rfl rfl rfl h
  refine ⟨_, (skein_of_issues [] _ h : execSkipnz t sc n s = _), ?_⟩
  rw [stepRun_control r rfl rfl rfl]
  by_cases hz : sreg r sc = 0
  · have hz' : ¬ sreg (consumed r) sc ≠ 0 := not_not.2 hz
    simp only [hz, if_true, if_neg hz']
    exact hkeep
  · have hz' : sreg (consumed r) sc ≠ 0 := hz
    simp only [hz, if_false, if_pos hz']
    have hdrop : (consumed r).code.drop n = r.code.drop (n + 1) := by simp [consumed]
    rw [hdrop]
    exact onlyRun_setRun _ hkeep

theorem nop_spec (h : Issues s t .nop r st) : ∃ u, exec (.nop t) s = .next u ∧ OnlyRun s u t r st (consumed r) :=
  ⟨_, (skein_of_issues [] _ h : execNop t s = _), onlyRun_control rfl rfl rfl h⟩

theorem seti_spec {d : Nat} {v : BitVec 32} (h : Issues s t (.seti d v) r st) :
    ∃ u, exec (.seti t d v) s = .next u ∧ OnlyRun s u t r st { consumed r with scalars := tput r.scalars d v } :=
  control_sets _ rfl rfl rfl h fun _ => rfl

theorem pred_spec {d : Nat} (h : Issues s t (.pred d) r st) : ∃ u, exec (.pred t d) s = .next u
    ∧ OnlyRun s u t r st { consumed r with scalars := tput r.scalars d (BitVec.ofNat 32 r.tokens) } :=
  control_sets _ rfl rfl rfl h fun _ => rfl

theorem stat_spec {d : Nat} (h : Issues s t (.stat d) r st) : ∃ u, exec (.stat t d) s = .next u
    ∧ OnlyRun s u t r st { consumed r with scalars := tput r.scalars d (r.conv.setWidth 32) } :=
  control_sets _ rfl rfl rfl h fun _ => rfl

end Sys2Proof.Machine

/-! PROOFS. What a step boundary changes (R327), and END (O18). -/

namespace Sys2Proof.Machine

open Sys2Proof.Claims

variable {s : State}

/-! ### A step boundary -/

/-- Between `s` and `t` a partition passed a step boundary: staged settings, clocks with their rails, the counter banks, the watch
and what was leaving changed, and nothing else. -/
structure Bounds (s t : State) : Prop where
  rest : t = { s with parts := t.parts, tiles := t.tiles, rails := t.rails, out := t.out, hbm := t.hbm, hbmPoison := t.hbmPoison }
  tile : ∀ e, t.tile e = { s.tile e with clock := (t.tile e).clock }
  part : ∀ p, t.part p = { s.part p with
    objs := (t.part p).objs, fences := (t.part p).fences, progs := (t.part p).progs, cur := (t.part p).cur, staged := (t.part p).staged
    granted := (t.part p).granted, lowered := (t.part p).lowered, retuned := (t.part p).retuned, counters := (t.part p).counters
    watch := (t.part p).watch }

namespace Bounds

theorem refl (s : State) : Bounds s s := ⟨rfl, fun _ => rfl, fun _ => rfl⟩

theorem trans {a b c : State} (h : Bounds a b) (h' : Bounds b c) : Bounds a c where
  rest := by rw [h'.rest, h.rest]
  tile e := by rw [h'.tile, h.tile]
  part p := by rw [h'.part, h.part]

theorem of_modPart (s : State) (k : Nat) (f : Part → Part) (hf : ∀ x, f x = { x with
    objs := (f x).objs, fences := (f x).fences, progs := (f x).progs, cur := (f x).cur, staged := (f x).staged
    granted := (f x).granted, lowered := (f x).lowered, retuned := (f x).retuned, counters := (f x).counters
    watch := (f x).watch } := by intro _; rfl) : Bounds s (s.modPart k f) := by
  refine ⟨rfl, fun _ => rfl, fun p => ?_⟩
  by_cases hp : p = k
  · subst hp
    rw [part_modPart_self]
    exact hf _
  · rw [part_modPart_ne _ _ hp]

theorem of_modTile (s : State) (k : Nat) (f : Tile → Tile) (hf : ∀ x, f x = { x with clock := (f x).clock } := by intro _; rfl) :
    Bounds s (s.modTile k f) := by
  refine ⟨rfl, fun e => ?_, fun _ => rfl⟩
  by_cases he : e = k
  · subst he
    rw [tile_modTile_self]
    exact hf _
  · rw [tile_modTile_ne _ _ he]

theorem of_objWrite (s : State) (p i off : Nat) (bs : List Byte) : Bounds s (objWrite s p i off bs) := ⟨rfl, fun _ => rfl, fun _ => rfl⟩

end Bounds

theorem forAll_bounds {α : Type} {f : State → α → State} (hf : ∀ t x, Bounds t (f t x)) (l : List α) (s : State) :
    Bounds s (forAll l f s) := forAll_rel Bounds.refl Bounds.trans hf l s

theorem requestRail_bounds (s : State) (d mv : Nat) : Bounds s (requestRail s d mv) := by
  unfold requestRail
  split
  · exact .refl s
  · exact ⟨rfl, fun _ => rfl, fun _ => rfl⟩

theorem requestRails_bounds (s : State) (ds : List Nat) : Bounds s (requestRails s ds) :=
  forAll_bounds (fun t d => requestRail_bounds t d _) ds s

theorem retune_bounds (s : State) (p : Nat) : Bounds s (retune s p) := by
  unfold retune
  extract_lets x n ok t
  split
  · refine ((Bounds.of_modPart s p _).trans (forAll_bounds (fun u e => ?_) _ _)).trans (requestRails_bounds _ _)
    split
    · exact .of_modTile u e _
    · exact .refl u
  · exact requestRails_bounds s _

theorem reap_bounds (s : State) (p : Nat) : Bounds s (reap s p) := .of_modPart s p _

theorem swapBank_bounds (s : State) (p : Nat) (cut : Bool) : Bounds s (swapBank s p cut) := by
  unfold swapBank
  split
  · exact .of_modPart s p _
  · exact .refl s

theorem swapWatch_bounds (s : State) (p : Nat) : Bounds s (swapWatch s p) := by
  unfold swapWatch
  split
  · extract_lets cap t
    split
    · exact .of_modPart s p _
    · exact (Bounds.of_modPart s p _).trans (.of_objWrite _ _ _ _ _)
  · extract_lets w keep
    split
    · exact .refl s
    · split
      · exact .of_modPart s p _
      · exact .of_modPart s p _

theorem swapStaged_bounds (s : State) (p : Nat) : Bounds s (swapStaged s p) :=
  ((((Bounds.of_modPart s p _).trans (swapWatch_bounds _ p)).trans (.of_modPart _ p _)).trans (retune_bounds _ p)).trans (reap_bounds _ p)

theorem enterBoundary_bounds (s : State) (p : Nat) (cut : Bool) : Bounds s (enterBoundary s p cut) :=
  (swapBank_bounds s p cut).trans (swapStaged_bounds _ p)

/-! ### A step that has stopped issuing -/

variable {slot : Nat} {st : Step}

theorem accrue_shape (hst : tfind s.steps slot = some st) : accrue s slot = { s with
    ctxs := (accrue s slot).ctxs, steps := tput s.steps slot { st with stateAt := time s } } := by
  simp only [accrue, hst]
  rw [modStep_of_some _ _ hst]
  split <;> rfl

/-- A step moves to a state, at this time (Table Scheduling-4). -/
theorem setState_shape (n : Nat) (hst : tfind s.steps slot = some st) : setState s slot n = { s with
    ctxs := (setState s slot n).ctxs, steps := tput s.steps slot { st with stateAt := time s, state := n } } := by
  have hacc := accrue_shape hst
  have hset : setState s slot n = (accrue s slot).modStep slot fun x => { x with state := n } := rfl
  have hfind : tfind (accrue s slot).steps slot = some { st with stateAt := time s } := by
    rw [hacc]
    exact tfind_tput_self _ _ _
  rw [hset, modStep_of_some _ _ hfind]
  generalize accrue s slot = v at hacc
  rw [hacc]
  simp only [tput_tput]

/-- The step as it is once it is RELEASING (R305). -/
def releasing (s : State) (st : Step) : Step := { st with stateAt := time s, state := 5, lastRan := some (time s) }

/-- R305: the step has stopped issuing, before its partition passes the boundary. -/
def issueEnded (s : State) (slot : Nat) (st : Step) : State :=
  let t := { s with ctxs := (setState s slot 5).ctxs, steps := tput s.steps slot (releasing s st) }
  if (s.part st.part).running = some slot then t.modPart st.part fun x => { x with running := none, switchReq := 0 } else t

theorem lastDone_bounds (hst : tfind s.steps slot = some st) : Bounds (issueEnded s slot st) (lastDone s slot st) := by
  have hset := setState_shape 5 hst
  have hfind : tfind (setState s slot 5).steps slot = some { st with stateAt := time s, state := 5 } := by
    rw [hset]
    exact tfind_tput_self _ _ _
  have hw : ((setState s slot 5).modStep slot fun x => { x with lastRan := some (time s) })
      = { s with ctxs := (setState s slot 5).ctxs, steps := tput s.steps slot (releasing s st) } := by
    rw [modStep_of_some _ _ hfind]
    generalize setState s slot 5 = v at hset
    rw [hset]
    simp only [tput_tput]
    rfl
  simp only [lastDone, hw, issueEnded]
  by_cases hrun : (s.part st.part).running = some slot
  · rw [if_pos hrun]
    exact (if_pos hrun).symm ▸ enterBoundary_bounds _ _ _
  · rw [if_neg hrun]
    exact (if_neg hrun).symm ▸ Bounds.refl _

theorem issueEnded_shape (s : State) (slot : Nat) (st : Step) : issueEnded s slot st = { s with
    ctxs := (issueEnded s slot st).ctxs, parts := (issueEnded s slot st).parts, steps := tput s.steps slot (releasing s st) } := by
  unfold issueEnded
  extract_lets t
  split <;> rfl

theorem running_issueEnded (s : State) (slot : Nat) (st : Step) : ((issueEnded s slot st).part st.part).running ≠ some slot := by
  unfold issueEnded
  extract_lets t
  split
  · rw [part_modPart_self]
    exact nofun
  · assumption

/-- R304, R305: the step is RELEASING and runs no more; no other step and no function has changed, and no tile but in its clock. -/
theorem lastDone_spec (hst : tfind s.steps slot = some st) : ((lastDone s slot st).part st.part).running ≠ some slot
    ∧ (lastDone s slot st).steps = tput s.steps slot (releasing s st) ∧ (lastDone s slot st).funcs = s.funcs
    ∧ ∀ e, (lastDone s slot st).tile e = { s.tile e with clock := ((lastDone s slot st).tile e).clock } := by
  obtain ⟨hrest, htile, hpart⟩ := lastDone_bounds hst
  have hshape := issueEnded_shape s slot st
  refine ⟨?_, ?_, ?_, fun e => ?_⟩
  · rw [hpart]
    exact running_issueEnded s slot st
  · rw [hrest, hshape]
  · rw [hrest, hshape]
  · rw [htile e, hshape]
    rfl

/-! ### END -/

variable {t : Nat} {i : SkInsn} {r : SkeinRun}

/-- What keeps the member of a job, its layers and its programs keeps which skeins it runs. -/
theorem ownSkein_congr {u v : State} {x y : Step} (haon : v.aon = u.aon) (hjobs : v.jobs = u.jobs) (hjob : y.job = x.job)
    (hpart : y.part = x.part) (hprog : runProg y = runProg x) (hbobbin : runBobbin y = runBobbin x)
    (hprogs : (v.part x.part).progs = (u.part x.part).progs) (hbobbins : (v.part x.part).bobbins = (u.part x.part).bobbins) (k : Nat) :
    ownSkein v y k = ownSkein u x k := by
  have hof (j : Nat) : v.job j = u.job j := by simp only [State.job, hjobs]
  have hpkg : myPkg v = myPkg u := by rw [myPkg, myPkg, haon]
  have hfile : stepFile v y = stepFile u x := by rw [stepFile, stepFile, hpart, hprog, hprogs]
  have hmember : stepMember v y = stepMember u x := by
    rw [stepMember, stepMember, hjob]
    cases x.job with
    | none => rfl
    | some j => simp only [memberIdx, hof, hpkg, hpart]
  rw [ownSkein, ownSkein, hjob, hfile, hmember]
  simp only [memberRuns, hjob]
  cases x.job with
  | none => rfl
  | some j => simp only [hof, hbobbin, hfile, hpart, hbobbins]

/-- The tile and the step once END has issued, before the step's last skein is looked for. -/
def finIssued (s : State) (t : Nat) (r : SkeinRun) (st : Step) : State :=
  ((noteIssue s t .fin r st).modTile t fun x => { x with run := none, tails := x.tails ++ [{ consumed r with ended := true }] }).modStep
    r.slot fun x => { x with skeins := tput x.skeins r.skein 3 }

/-- The step once the skein's issue has ended (R312). -/
def finStep (s : State) (r : SkeinRun) (st : Step) : Step := { stepAfter s r st with skeins := tput st.skeins r.skein 3 }

theorem exec_fin (h : Issues s t .fin r st) : exec (.fin t) s = .next (settleSkeins (finIssued s t r st) r.slot) := by
  refine (skein_of_issues [] _ h : execFin t s = _).trans ?_
  rw [stepRun_control r rfl rfl rfl]
  rfl

theorem finIssued_shape (t : Nat) (hst : tfind s.steps r.slot = some st) : finIssued s t r st = { noteIssue s t .fin r st with
    tiles := tput s.tiles t { s.tile t with run := none, tails := (s.tile t).tails ++ [{ consumed r with ended := true }], gated := false }
    steps := tput s.steps r.slot (finStep s r st) } := by
  have hnoted := noteIssue_shape t .fin hst
  have htile := tile_noteIssue_self t .fin hst
  have hfind := tfind_noteIssue_self t .fin hst
  unfold finIssued
  rw [modStep_of_some _ _ (show tfind ((noteIssue s t .fin r st).modTile t _).steps r.slot = _ from hfind), State.modTile, htile]
  generalize noteIssue s t .fin r st = v at hnoted
  rw [hnoted]
  simp only [tput_tput]
  simp [notedTile, notedStep, finStep, stepAfter, isFetch, tput_tput]

theorem part_finIssued (t : Nat) (hst : tfind s.steps r.slot = some st) (p : Nat) :
    (finIssued s t r st).part p = (noteIssue s t .fin r st).part p := by
  rw [finIssued_shape t hst]
  rfl

theorem tfind_finIssued (t : Nat) (hst : tfind s.steps r.slot = some st) :
    tfind (finIssued s t r st).steps r.slot = some (finStep s r st) := by
  rw [finIssued_shape t hst]
  exact tfind_tput_self _ _ _

theorem stepFile_finIssued (t : Nat) (hst : tfind s.steps r.slot = some st) :
    stepFile (finIssued s t r st) (finStep s r st) = stepFile s st := by
  obtain ⟨-, -, -, hprogs, -⟩ := issueFrame_noteIssue t .fin hst
  have hkept : ((finIssued s t r st).part st.part).progs = (s.part st.part).progs := by
    rw [finIssued_shape t hst]
    exact hprogs
  simp only [stepFile]
  exact congrArg (fun l => (tget l (runProg st) {}).upf) hkept

/-- Another skein is as far as it was. -/
theorem skPast_finIssued (t : Nat) (hst : tfind s.steps r.slot = some st) {k : Nat} (hk : k ≠ r.skein) :
    skPast (finIssued s t r st) (finStep s r st) k = skPast s st k := by
  obtain ⟨c, tr, o, hpart⟩ := part_noteIssue_self t .fin hst
  have hpart' : (noteIssue s t .fin r st).part (finStep s r st).part = _ := hpart
  have hown : ownSkein (finIssued s t r st) (finStep s r st) k = ownSkein s st k := by
    refine ownSkein_congr ?_ ?_ rfl rfl rfl rfl ?_ ?_ k
    · rw [finIssued_shape t hst, noteIssue_shape t .fin hst]
    · rw [finIssued_shape t hst, noteIssue_shape t .fin hst]
    · rw [part_finIssued t hst, hpart']; rfl
    · rw [part_finIssued t hst, hpart']; rfl
  have hissued : skIssued (finStep s r st) k = skIssued st k := by
    simp only [skIssued, skState]
    exact congrArg (fun n => decide (3 ≤ n)) (tget_tput_ne _ _ _ hk)
  rw [skPast, skPast, hown, hissued]

/-- The skein of END has ended. -/
theorem skPast_finIssued_self (t : Nat) : skPast (finIssued s t r st) (finStep s r st) r.skein = true := by
  have hstate : skState (finStep s r st) r.skein = 3 := tget_tput_self _ _ _ _
  simp [skPast, skIssued, hstate]

theorem settleSkeins_finIssued (t : Nat) (hst : tfind s.steps r.slot = some st) : settleSkeins (finIssued s t r st) r.slot
    = if st.state = 3 ∧ ∀ k, k < (stepFile s st).skeins.length → k ≠ r.skein → skPast s st k = true
      then lastDone (finIssued s t r st) r.slot (finStep s r st) else finIssued s t r st := by
  simp only [settleSkeins, tfind_finIssued t hst, stepFile_finIssued t hst]
  refine if_congr (and_congr Iff.rfl ?_) rfl rfl
  rw [List.all_eq_true]
  refine ⟨fun h k hlt hk => ?_, fun h k hmem => ?_⟩
  · rw [← skPast_finIssued t hst hk]
    exact h k (List.mem_range.2 hlt)
  · by_cases hk : k = r.skein
    · rw [hk]
      exact skPast_finIssued_self t
    · rw [skPast_finIssued t hst hk]
      exact h k (List.mem_range.1 hmem) hk

theorem tile_finIssued_self (t : Nat) (hst : tfind s.steps r.slot = some st) : (finIssued s t r st).tile t
    = { s.tile t with run := none, tails := (s.tile t).tails ++ [{ consumed r with ended := true }], gated := false } := by
  rw [finIssued_shape t hst]
  exact tget_tput_self _ _ _ _

theorem issueFrame_finIssued (t : Nat) (hst : tfind s.steps r.slot = some st) : IssueFrame s (finIssued s t r st) r.slot st.part := by
  obtain ⟨-, hothers, hrest⟩ := issueFrame_noteIssue t .fin hst
  rw [finIssued_shape t hst]
  exact ⟨fun k hk => tfind_tput_ne _ _ hk, hothers, hrest⟩

theorem fin_leaves {s : State} {t : Nat} {r : SkeinRun} {st : Step} (h : Issues s t .fin r st)
    (hopen : st.state ≠ 3 ∨ ∃ k, k < (stepFile s st).skeins.length ∧ k ≠ r.skein ∧ skPast s st k = false) :
    ∃ u, exec (.fin t) s = .next u ∧ (∀ k, k ≠ t → u.tile k = s.tile k) ∧ IssueFrame s u r.slot st.part
      ∧ u.tile t = { s.tile t with run := none, tails := (s.tile t).tails ++ [{ consumed r with ended := true }], gated := false }
      ∧ tfind u.steps r.slot = some { stepAfter s r st with skeins := tput st.skeins r.skein 3 } := by
  obtain ⟨-, -, hst, -⟩ := id h
  have hmore : ¬ (st.state = 3 ∧ ∀ k, k < (stepFile s st).skeins.length → k ≠ r.skein → skPast s st k = true) := by
    rintro ⟨hstate, hall⟩
    rcases hopen with hne | ⟨k, hlt, hk, hpast⟩
    · exact hne hstate
    · exact Bool.false_ne_true (hpast.symm.trans (hall k hlt hk))
  refine ⟨_, exec_fin h, ?_⟩
  rw [settleSkeins_finIssued t hst, if_neg hmore]
  refine ⟨fun k hk => ?_, issueFrame_finIssued t hst, tile_finIssued_self t hst, tfind_finIssued t hst⟩
  rw [finIssued_shape t hst]
  exact tget_tput_ne _ _ _ hk

theorem fin_ends {s : State} {t : Nat} {r : SkeinRun} {st : Step} (h : Issues s t .fin r st) (hstate : st.state = 3)
    (hall : ∀ k, k < (stepFile s st).skeins.length → k ≠ r.skein → skPast s st k = true) :
    ∃ u st', exec (.fin t) s = .next u ∧ (u.tile t).run = none
      ∧ (u.tile t).tails = (s.tile t).tails ++ [{ consumed r with ended := true }] ∧ (u.part st.part).running ≠ some r.slot
      ∧ tfind u.steps r.slot = some st' ∧ st'.state = 5 ∧ st'.lastRan = some (time s) ∧ st'.skeins = tput st.skeins r.skein 3
      ∧ st'.fail = st.fail ∧ u.funcs = s.funcs ∧ ∀ k, k ≠ r.slot → tfind u.steps k = tfind s.steps k := by
  obtain ⟨-, -, hst, -⟩ := id h
  obtain ⟨hrunning, hsteps, hfuncs, htile⟩ := lastDone_spec (tfind_finIssued t hst)
  obtain ⟨hothers, -, -, -, -, haon, -, -, -, -, -, -, hkept, -⟩ := issueFrame_finIssued t hst
  refine ⟨_, releasing (finIssued s t r st) (finStep s r st), exec_fin h, ?_⟩
  rw [settleSkeins_finIssued t hst, if_pos ⟨hstate, hall⟩, htile, hsteps, tile_finIssued_self t hst]
  refine ⟨rfl, rfl, hrunning, tfind_tput_self _ _ _, rfl, ?_, rfl, rfl, hfuncs.trans hkept, fun k hk => ?_⟩
  · exact congrArg (fun a : Aon => some a.whorl) haon
  · exact (tfind_tput_ne _ _ hk).trans (hothers k hk)

/-- Settles O18. -/
theorem controlAndScalars : Obligations.ControlAndScalars := by
  unfold Obligations.ControlAndScalars
  refine ⟨fun s t i r st hfetch h => ?_, fun s t r st => nop_spec, fun s t sc n r st => skipz_spec, fun s t sc n r st => skipnz_spec,
    fun s t d v r st => seti_spec, fun s t d r st => pred_spec, fun s t d r st => stat_spec, fun s t r st => fin_leaves, fun s t r st => fin_ends⟩
  obtain ⟨-, -, hst, -⟩ := h
  have hrun : stepRun r i = { consumed r with matWin := r.matWin || onMatrix i, vecWin := r.vecWin || onVector i } := by
    simp [stepRun, consumed, hfetch]
  exact hrun ▸ onlyRun_noteIssue t hfetch hst

end Sys2Proof.Machine

/-! PROOFS. The vector unit's arithmetic (R53, R114 to R117). -/

namespace Sys2Proof.Machine

open Sys2Proof.Claims

variable {s : State} {t : Nat} {i : SkInsn} {r : SkeinRun} {st : Step}

/-! ### Elements of lists -/

theorem nth_map_range {α : Type} (f : Nat → α) (d : α) {n k : Nat} (hk : k < n) : nth ((List.range n).map f) k d = f k := by
  simp [nth, hk]

theorem nth_map_zipIdx {α β : Type} (l : List α) (f : α × Nat → β) (d : α) (e : β) {k : Nat} (hk : k < l.length) :
    nth (l.zipIdx.map f) k e = f (nth l k d, k) := by
  simp [nth, hk]

theorem nth_map {α β : Type} (l : List α) (f : α → β) (d : α) (e : β) {k : Nat} (hk : k < l.length) :
    nth (l.map f) k e = f (nth l k d) := by
  simp [nth, hk]

/-- Elements of a list of pairs laid out one after the other. -/
theorem nth_flatMap_pair {α β : Type} (f g : α → β) (l : List α) (d : α) (e : β) {k : Nat} (hk : k < l.length) :
    nth (l.flatMap fun v => [f v, g v]) (2 * k) e = f (nth l k d) ∧ nth (l.flatMap fun v => [f v, g v]) (2 * k + 1) e = g (nth l k d) := by
  induction l generalizing k with
  | nil => exact absurd hk (Nat.not_lt_zero k)
  | cons a l ih =>
    cases k with
    | zero => exact ⟨rfl, rfl⟩
    | succ k => exact ih (Nat.lt_of_succ_lt_succ hk)

theorem nth_pairUp (l : List Nat) {k : Nat} (hk : 2 * k + 1 < l.length) :
    nth (pairUp l) k 0 = BitVec.ofNat 32 (nth l (2 * k) 0 % 65536 + 65536 * (nth l (2 * k + 1) 0 % 65536)) := by
  induction l using pairUp.induct generalizing k with
  | case1 a b l ih =>
    cases k with
    | zero => rfl
    | succ k => exact ih (by simp only [List.length_cons] at hk; omega)
  | case2 a => simp at hk
  | case3 => simp at hk

theorem nth_zeros (n k : Nat) : nth (List.replicate n (0 : BitVec 32)) k 0 = 0 := by
  simp only [nth, List.getD_eq_getElem?_getD, List.getElem?_replicate]
  split <;> rfl

/-! ### Counts of the partition -/

theorem onlyRun_count {u : State} {r' : SkeinRun} (ev n : Nat) (h : OnlyRun s u t r st r') : OnlyRun s (count u st.part ev n) t r st r' := by
  unfold count
  split
  · exact h
  · obtain ⟨htile, htiles, hstep, ⟨hsteps, hparts, hobjs, hprogs, hrun, hrest⟩, hkept⟩ := h
    refine ⟨htile, htiles, hstep, ⟨hsteps, fun q hq => (part_modPart_ne u _ hq).trans (hparts q hq), ?_, ?_, ?_, hrest⟩, hkept⟩ <;>
      rw [part_modPart_self]
    · exact hobjs
    · exact hprogs
    · exact hrun

/-- An operation of the vector unit that leaves the run `r₂` and counts its lanes. -/
theorem vector_sets {f : State → Nat → Step → SkeinRun → State} {ks : List Nat} (r₂ : SkeinRun) (ev n : Nat) (hfetch : isFetch i = false)
    (h : Issues s t i r st) (hf : ∀ u, f u r.slot st (stepRun r i) = count (setRun u t r₂) st.part ev n) :
    ∃ u, skein t i ks f s = .next u ∧ OnlyRun s u t r st r₂ := by
  obtain ⟨-, -, hst, -⟩ := id h
  refine ⟨_, skein_of_issues ks f h, ?_⟩
  rw [hf]
  exact onlyRun_count ev n (onlyRun_setRun r₂ (onlyRun_noteIssue t hfetch hst))

theorem stepRun_vector (r : SkeinRun) (hfetch : isFetch i = false) (hmat : onMatrix i = false) (hvec : onVector i = true) :
    stepRun r i = vecRun r := by
  simp [stepRun, vecRun, consumed, hfetch, hmat, hvec]

theorem vreg_setVreg_self (r : SkeinRun) (d : Nat) (v : List (BitVec 32)) : vreg (setVreg r d v) d = v := tget_tput_self _ _ _ _

theorem vreg_setVreg_ne {d e : Nat} (r : SkeinRun) (v : List (BitVec 32)) (he : e ≠ d) : vreg (setVreg r d v) e = vreg r e :=
  tget_tput_ne _ _ _ he

/-! ### The values of a register -/

theorem length_laneVals_word {lane : Nat} (hlane : ¬ (lane = 1 ∨ lane = 2)) (v : List (BitVec 32)) : (laneVals lane v).length = 128 := by
  simp [laneVals, if_neg hlane]

theorem length_laneVals_half {lane : Nat} (hlane : lane = 1 ∨ lane = 2) (v : List (BitVec 32)) : (laneVals lane v).length = 256 := by
  simp [laneVals, if_pos hlane, List.length_flatMap, Function.comp_def]

theorem nth_laneVals_word {lane : Nat} (hlane : ¬ (lane = 1 ∨ lane = 2)) (v : List (BitVec 32)) {k : Nat} (hk : k < 128) :
    nth (laneVals lane v) k 0 = (nth v k 0).toNat := by
  rw [laneVals, if_neg hlane, nth_map_range _ _ hk]

theorem nth_laneVals_half {lane : Nat} (hlane : lane = 1 ∨ lane = 2) (v : List (BitVec 32)) {k : Nat} (hk : k < 128) :
    nth (laneVals lane v) (2 * k) 0 = (nth v k 0).toNat % 65536 ∧ nth (laneVals lane v) (2 * k + 1) 0 = (nth v k 0).toNat / 65536 := by
  have hlen : k < ((List.range 128).map fun i => (nth v i 0).toNat).length := by simpa using hk
  have hpair := nth_flatMap_pair (fun n : Nat => n % 65536) (fun n => n / 65536) ((List.range 128).map fun i => (nth v i 0).toNat) 0 0 hlen
  rw [nth_map_range _ _ hk] at hpair
  rw [laneVals, if_pos hlane]
  exact hpair

theorem nth_ofLanes_word {lane : Nat} (hlane : ¬ (lane = 1 ∨ lane = 2)) {vs : List Nat} (hlen : vs.length = 128) {k : Nat} (hk : k < 128) :
    nth (ofLanes lane vs) k 0 = BitVec.ofNat 32 (nth vs k 0) := by
  rw [ofLanes, nth_map_range _ _ hk, if_neg hlane, nth_map vs _ 0 0 (hlen ▸ hk)]

theorem nth_ofLanes_half {lane : Nat} (hlane : lane = 1 ∨ lane = 2) {vs : List Nat} (hlen : vs.length = 256) {k : Nat} (hk : k < 128) :
    nth (ofLanes lane vs) k 0 = BitVec.ofNat 32 (nth vs (2 * k) 0 % 65536 + 65536 * (nth vs (2 * k + 1) 0 % 65536)) := by
  rw [ofLanes, nth_map_range _ _ hk, if_pos hlane, nth_pairUp vs (by omega)]

/-! ### VOP -/

/-- One value of VOP, with its status (R114, Table Tile-3). -/
def vopValue (fn lane rel x y z : Nat) : Nat × Nat :=
  if lane = 3 then (vopInt fn rel x y z, 0) else vopFloat fn (laneFmt lane) lane rel x y z

/-- All values of VOP, with their status. -/
def vopOuts (fn lane rel : Nat) (xs ys zs : List Nat) : List (Nat × Nat) :=
  xs.zipIdx.map fun e => vopValue fn lane rel e.1 (nth ys e.2 0) (nth zs e.2 0)

theorem length_vopOuts (fn lane rel : Nat) (xs ys zs : List Nat) : (vopOuts fn lane rel xs ys zs).length = xs.length := by simp [vopOuts]

theorem nth_vopOuts (fn lane rel : Nat) (xs ys zs : List Nat) {k : Nat} (hk : k < xs.length) :
    nth ((vopOuts fn lane rel xs ys zs).map (·.1)) k 0 = (vopValue fn lane rel (nth xs k 0) (nth ys k 0) (nth zs k 0)).1 := by
  rw [nth_map _ _ (0, 0) 0 (by rwa [length_vopOuts]), vopOuts, nth_map_zipIdx xs _ 0 (0, 0) hk]

/-- The run once VOP has written its register and its status. -/
def vopRun (r : SkeinRun) (d lane : Nat) (outs : List (Nat × Nat)) : SkeinRun :=
  orConv (setVreg (vecRun r) d (ofLanes lane (outs.map (·.1)))) (outs.foldl (fun a e => orS a e.2) 0)

theorem vop_issues {s : State} {t fn lane x y z d rel : Nat} {r : SkeinRun} {st : Step} (h : Issues s t (.vop fn lane x y z d rel) r st) :
    ∃ u, exec (.vop t fn lane x y z d rel) s = .next u ∧ OnlyRun s u t r st
      (vopRun r d lane (vopOuts fn lane rel (laneVals lane (vreg r x)) (laneVals lane (vreg r y)) (laneVals lane (vreg r z)))) :=
  vector_sets (ks := [3]) _ 0x05 (laneOps lane) rfl h fun u => by
    rw [stepRun_vector r rfl rfl rfl]
    rfl

theorem vreg_vopRun_self (r : SkeinRun) (d lane : Nat) (outs : List (Nat × Nat)) :
    vreg (vopRun r d lane outs) d = ofLanes lane (outs.map (·.1)) := vreg_setVreg_self (vecRun r) d _

theorem vreg_vopRun_ne {d e : Nat} (r : SkeinRun) (lane : Nat) (outs : List (Nat × Nat)) (he : e ≠ d) :
    vreg (vopRun r d lane outs) e = vreg r e := vreg_setVreg_ne (vecRun r) _ he

/-- The sticky status only gathers (R109). -/
theorem and_or_left (x y : BitVec 8) : x &&& (x ||| y) = x := by
  ext k
  simp only [BitVec.getElem_and, BitVec.getElem_or]
  cases x[k] <;> rfl

theorem vop_float {s : State} {t fn x y z d rel : Nat} {r : SkeinRun} {st : Step} (h : Issues s t (.vop fn 0 x y z d rel) r st) :
    ∃ u r', exec (.vop t fn 0 x y z d rel) s = .next u ∧ OnlyRun s u t r st r' ∧ (∀ e, e ≠ d → vreg r' e = vreg r e)
      ∧ r' = { vecRun r with vregs := r'.vregs, conv := r'.conv }
      ∧ (∀ k, k < 128 → nth (vreg r' d) k 0 = BitVec.ofNat 32 (vopFloat fn 0 0 rel (nth (vreg r x) k 0).toNat
          (nth (vreg r y) k 0).toNat (nth (vreg r z) k 0).toNat).1)
      ∧ r.conv &&& r'.conv = r.conv := by
  obtain ⟨u, hexec, hrun⟩ := vop_issues h
  have hword : ¬ ((0 : Nat) = 1 ∨ (0 : Nat) = 2) := by decide
  refine ⟨u, _, hexec, hrun, fun e he => vreg_vopRun_ne r 0 _ he, rfl, fun k hk => ?_, and_or_left _ _⟩
  have hlen := length_laneVals_word hword (vreg r x)
  rw [vreg_vopRun_self, nth_ofLanes_word hword (by simp [length_vopOuts, hlen]) hk, nth_vopOuts _ _ _ _ _ _ (by rwa [hlen]),
    nth_laneVals_word hword _ hk, nth_laneVals_word hword _ hk, nth_laneVals_word hword _ hk]
  rfl

theorem vop_half {s : State} {t fn lane x y z d rel : Nat} {r : SkeinRun} {st : Step} (hlane : lane = 1 ∨ lane = 2)
    (h : Issues s t (.vop fn lane x y z d rel) r st) :
    ∃ u r', exec (.vop t fn lane x y z d rel) s = .next u ∧ OnlyRun s u t r st r' ∧ (∀ e, e ≠ d → vreg r' e = vreg r e)
      ∧ r' = { vecRun r with vregs := r'.vregs, conv := r'.conv }
      ∧ (∀ k, k < 128 → nth (vreg r' d) k 0 = BitVec.ofNat 32
          ((vopFloat fn lane lane rel ((nth (vreg r x) k 0).toNat % 65536) ((nth (vreg r y) k 0).toNat % 65536)
              ((nth (vreg r z) k 0).toNat % 65536)).1 % 65536
            + 65536 * ((vopFloat fn lane lane rel ((nth (vreg r x) k 0).toNat / 65536) ((nth (vreg r y) k 0).toNat / 65536)
              ((nth (vreg r z) k 0).toNat / 65536)).1 % 65536))) := by
  obtain ⟨u, hexec, hrun⟩ := vop_issues h
  have hvalue (a b c : Nat) : vopValue fn lane rel a b c = vopFloat fn lane lane rel a b c := by
    rcases hlane with rfl | rfl <;> rfl
  refine ⟨u, _, hexec, hrun, fun e he => vreg_vopRun_ne r lane _ he, rfl, fun k hk => ?_⟩
  have hlen := length_laneVals_half hlane (vreg r x)
  obtain ⟨hx, hx'⟩ := nth_laneVals_half hlane (vreg r x) hk
  obtain ⟨hy, hy'⟩ := nth_laneVals_half hlane (vreg r y) hk
  obtain ⟨hz, hz'⟩ := nth_laneVals_half hlane (vreg r z) hk
  rw [vreg_vopRun_self, nth_ofLanes_half hlane (by simp [length_vopOuts, hlen]) hk, nth_vopOuts _ _ _ _ _ _ (by omega),
    nth_vopOuts _ _ _ _ _ _ (by omega), hvalue, hvalue, hx, hx', hy, hy', hz, hz']

/-- Values without a status leave the status word. -/
theorem status_of_vopInt (fn rel : Nat) (xs ys zs : List Nat) : (vopOuts fn 3 rel xs ys zs).foldl (fun a e => orS a e.2) 0 = 0 := by
  have hnone : ∀ e ∈ vopOuts fn 3 rel xs ys zs, e.2 = 0 := by
    simp only [vopOuts, vopValue, if_true, List.mem_map]
    rintro e ⟨a, -, rfl⟩
    rfl
  generalize vopOuts fn 3 rel xs ys zs = l at hnone
  induction l with
  | nil => rfl
  | cons e l ih =>
    rw [List.foldl_cons, hnone e (.head l)]
    exact ih fun e' he' => hnone e' (.tail e he')

theorem vop_int {s : State} {t fn x y z d rel : Nat} {r : SkeinRun} {st : Step} (h : Issues s t (.vop fn 3 x y z d rel) r st) :
    ∃ u r', exec (.vop t fn 3 x y z d rel) s = .next u ∧ OnlyRun s u t r st r' ∧ (∀ e, e ≠ d → vreg r' e = vreg r e)
      ∧ r' = { vecRun r with vregs := r'.vregs }
      ∧ (∀ k, k < 128 → nth (vreg r' d) k 0 = BitVec.ofNat 32 (vopInt fn rel (nth (vreg r x) k 0).toNat
          (nth (vreg r y) k 0).toNat (nth (vreg r z) k 0).toNat)) := by
  obtain ⟨u, hexec, hrun⟩ := vop_issues h
  have hword : ¬ ((3 : Nat) = 1 ∨ (3 : Nat) = 2) := by decide
  refine ⟨u, _, hexec, hrun, fun e he => vreg_vopRun_ne r 3 _ he, ?_, fun k hk => ?_⟩
  · rw [vopRun, status_of_vopInt]
    simp [orConv, setVreg]
  · have hlen := length_laneVals_word hword (vreg r x)
    rw [vreg_vopRun_self, nth_ofLanes_word hword (by simp [length_vopOuts, hlen]) hk, nth_vopOuts _ _ _ _ _ _ (by rwa [hlen]),
      nth_laneVals_word hword _ hk, nth_laneVals_word hword _ hk, nth_laneVals_word hword _ hk]
    rfl

/-! ### VFN and VRED -/

theorem vfn_spec {s : State} {t fn x d : Nat} {r : SkeinRun} {st : Step} (h : Issues s t (.vfn fn x d) r st) :
    ∃ u r', exec (.vfn t fn x d) s = .next u ∧ OnlyRun s u t r st r' ∧ (∀ e, e ≠ d → vreg r' e = vreg r e)
      ∧ r' = { vecRun r with vregs := r'.vregs, conv := r'.conv }
      ∧ (∀ k, k < 128 → nth (vreg r' d) k 0 = (vecFn fn (nth (vreg r x) k 0)).1) := by
  obtain ⟨u, hexec, hrun⟩ := vector_sets (ks := [3]) (f := fun s _ st r =>
      let outs := (laneVals 0 (vreg r x)).map fun e => vecFn fn (BitVec.ofNat 32 e)
      count (setRun s t (orConv (setVreg r d (outs.map (·.1))) (outs.foldl (fun a e => orS a e.2) 0))) st.part 0x05 128)
    _ 0x05 128 rfl h fun u => rfl
  have hword : ¬ ((0 : Nat) = 1 ∨ (0 : Nat) = 2) := by decide
  rw [stepRun_vector r rfl rfl rfl] at hrun
  refine ⟨u, _, hexec, hrun, fun e he => vreg_setVreg_ne (vecRun r) _ he, rfl, fun k hk => ?_⟩
  have hlen : k < (laneVals 0 (vreg r x)).length := by rwa [length_laneVals_word hword]
  refine (congrArg (nth · k 0) (vreg_setVreg_self (vecRun r) d _)).trans ?_
  rw [nth_map _ _ (0, 0) 0 (by rw [List.length_map]; exact hlen)]
  refine (congrArg Prod.fst (nth_map (laneVals 0 (vreg r x)) _ 0 (0, 0) hlen)).trans ?_
  rw [nth_laneVals_word hword _ hk, BitVec.ofNat_toNat, BitVec.setWidth_eq]

theorem vred_spec {s : State} {t fn x d : Nat} {r : SkeinRun} {st : Step} (h : Issues s t (.vred fn x d) r st) :
    ∃ u r', exec (.vred t fn x d) s = .next u ∧ OnlyRun s u t r st r' ∧ (∀ e, e ≠ d → vreg r' e = vreg r e)
      ∧ r' = { vecRun r with vregs := r'.vregs, conv := r'.conv }
      ∧ nth (vreg r' d) 0 0 = (nth (pairTree (redOp fn) 7 ((List.range 128).map fun k => (nth (vreg r x) k 0, 0))) 0 (0, 0)).1
      ∧ (∀ k, 0 < k → nth (vreg r' d) k 0 = 0) := by
  obtain ⟨u, hexec, hrun⟩ := vector_sets (ks := [3]) (f := fun s _ st r =>
      let l := (laneVals 0 (vreg r x)).map fun e => (BitVec.ofNat 32 e, 0)
      let q := nth (pairTree (redOp fn) 7 l) 0 (0, 0)
      count (setRun s t (orConv (setVreg r d (q.1 :: List.replicate 127 0)) q.2)) st.part 0x05 128)
    _ 0x05 128 rfl h fun u => rfl
  have hlanes : ((laneVals 0 (vreg r x)).map fun e => (BitVec.ofNat 32 e, 0)) = (List.range 128).map fun k => (nth (vreg r x) k 0, 0) := by
    simp [laneVals]
  rw [stepRun_vector r rfl rfl rfl] at hrun
  refine ⟨u, _, hexec, hrun, fun e he => vreg_setVreg_ne (vecRun r) _ he, rfl, ?_, fun k hk => ?_⟩
  · rw [← hlanes]
    exact congrArg (nth · 0 0) (vreg_setVreg_self (vecRun r) d _)
  · refine (congrArg (nth · k 0) (vreg_setVreg_self (vecRun r) d _)).trans ?_
    obtain ⟨k, rfl⟩ := Nat.exists_eq_add_of_lt hk
    rw [Nat.zero_add]
    exact nth_zeros 127 k

/-- Settles O19. -/
theorem vectorArithmetic : Obligations.VectorArithmetic := by
  unfold Obligations.VectorArithmetic
  exact ⟨fun s t fn x y z d rel r st => vop_float, fun s t fn lane x y z d rel r st => vop_half, fun s t fn x y z d rel r st => vop_int,
    fun s t fn x d r st => vfn_spec, fun s t fn x d r st => vred_spec⟩

end Sys2Proof.Machine

/-! PROOFS. The bits of sparse memory: what a write of bits changes, and what a read of bits sees. -/

namespace Sys2Proof.Machine

open Sys2Proof.Claims

/-! ### Numbers of byte strings -/

/-- Bit `k` of sparse memory, eight to a byte (R7). -/
def mbit (m : Mem) (k : Nat) : Bool := (mread m (k / 8)).getLsbD (k % 8)

theorem testBit_leNat (l : List Byte) (j : Nat) : (leNat l).testBit j = (nth l (j / 8) 0).getLsbD (j % 8) := by
  induction l generalizing j with
  | nil => simp [leNat, nth]
  | cons b l ih =>
    have hsplit : leNat (b :: l) = 2 ^ 8 * leNat l + b.toNat := by
      simp only [leNat]
      omega
    rw [hsplit, Nat.testBit_two_pow_mul_add _ b.isLt]
    by_cases hj : j < 8
    · rw [if_pos hj, Nat.div_eq_of_lt hj, Nat.mod_eq_of_lt hj]
      rfl
    · rw [if_neg hj, ih]
      have hdiv : j / 8 = (j - 8) / 8 + 1 := by omega
      have hmod : j % 8 = (j - 8) % 8 := by omega
      rw [hdiv, hmod]
      rfl

theorem nth_mreadN (m : Mem) (a n k : Nat) : nth (mreadN m a n) k 0 = if k < n then mread m (a + k) else 0 := by
  induction n generalizing a k with
  | zero => simp [mreadN, nth]
  | succ n ih =>
    cases k with
    | zero => simp [mreadN, nth]
    | succ k =>
      refine (ih (a + 1) k).trans ?_
      rw [Nat.add_right_comm, Nat.add_assoc]
      exact if_congr (by omega) rfl rfl

theorem testBit_mreadN (m : Mem) (a n j : Nat) : (leNat (mreadN m a n)).testBit j = (decide (j < 8 * n) && mbit m (8 * a + j)) := by
  rw [testBit_leNat, nth_mreadN]
  have hdiv : (8 * a + j) / 8 = a + j / 8 := by omega
  have hmod : (8 * a + j) % 8 = j % 8 := by omega
  by_cases hj : j < 8 * n
  · rw [if_pos (by omega), mbit, hdiv, hmod]
    simp [hj]
  · rw [if_neg (by omega)]
    simp [hj]

theorem nth_toLe (n v k : Nat) : nth (toLe n v) k 0 = if k < n then BitVec.ofNat 8 (v / 256 ^ k) else 0 := by
  induction n generalizing v k with
  | zero => simp [toLe, nth]
  | succ n ih =>
    cases k with
    | zero => simp [toLe, nth]
    | succ k =>
      refine (ih (v / 256) k).trans ?_
      rw [Nat.div_div_eq_div_mul, Nat.pow_succ']
      exact if_congr (by omega) rfl rfl

theorem getLsbD_toLe (n v k j : Nat) (hj : j < 8) : (nth (toLe n v) k 0).getLsbD j = (decide (k < n) && v.testBit (8 * k + j)) := by
  rw [nth_toLe]
  by_cases hk : k < n
  · rw [if_pos hk, BitVec.getLsbD_ofNat]
    have hpow : 256 ^ k = 2 ^ (8 * k) := by rw [Nat.pow_mul]
    rw [hpow, Nat.testBit_div_two_pow]
    simp [hk, hj, Nat.add_comm]
  · simp [hk]

/-! ### Bytes written -/

/-- A byte string written shows at its place and nowhere else. -/
theorem mread_mwriteN {m : Mem} (a c : Nat) (l : List Byte) (h : memWf m = true) :
    mread (mwriteN m a l) c = if a ≤ c ∧ c < a + l.length then nth l (c - a) 0 else mread m c := by
  induction l generalizing m a with
  | nil => simp [mwriteN, show ¬ (a ≤ c ∧ c < a) by omega]
  | cons b l ih =>
    rw [mwriteN, ih (a + 1) (memWf_mwrite a b h)]
    by_cases hca : c = a
    · subst hca
      rw [if_neg (by omega), mread_mwrite_self c b h, if_pos (by simp), Nat.sub_self]
      rfl
    · rw [mread_mwrite_ne b hca]
      by_cases hin : a + 1 ≤ c ∧ c < a + 1 + l.length
      · rw [if_pos hin, if_pos (by simp only [List.length_cons]; omega)]
        obtain ⟨k, rfl⟩ : ∃ k, c = a + 1 + k := ⟨c - (a + 1), by omega⟩
        have hleft : a + 1 + k - (a + 1) = k := by omega
        have hright : a + 1 + k - a = k + 1 := by omega
        rw [hleft, hright]
        rfl
      · rw [if_neg hin, if_neg (by simp only [List.length_cons]; omega)]

theorem mbit_mwriteN {m : Mem} (a n v k : Nat) (h : memWf m = true) :
    mbit (mwriteN m a (toLe n v)) k = if 8 * a ≤ k ∧ k < 8 * (a + n) then v.testBit (k - 8 * a) else mbit m k := by
  rw [mbit, mread_mwriteN a _ _ h, length_toLe]
  by_cases hin : 8 * a ≤ k ∧ k < 8 * (a + n)
  · rw [if_pos (by omega), if_pos hin, getLsbD_toLe n v _ _ (Nat.mod_lt k (by decide))]
    have hlt : k / 8 - a < n := by omega
    have hpos : 8 * (k / 8 - a) + k % 8 = k - 8 * a := by omega
    simp [hlt, hpos]
  · rw [if_neg (by omega), if_neg hin]
    rfl

/-! ### Bits written -/

/-- A number with `w` bits from `sh` up replaced. -/
def splice (old sh w v : Nat) : Nat := old - old / 2 ^ sh % 2 ^ w * 2 ^ sh + v % 2 ^ w * 2 ^ sh

theorem splice_eq (old sh w v : Nat) : splice old sh w v
    = 2 ^ sh * (2 ^ w * (old / 2 ^ sh / 2 ^ w) + v % 2 ^ w) + old % 2 ^ sh := by
  have hlow := Nat.div_add_mod old (2 ^ sh)
  have hmid := Nat.div_add_mod (old / 2 ^ sh) (2 ^ w)
  have hold : old = 2 ^ sh * (2 ^ w * (old / 2 ^ sh / 2 ^ w)) + 2 ^ sh * (old / 2 ^ sh % 2 ^ w) + old % 2 ^ sh := by
    rw [← Nat.mul_add, hmid, hlow]
  have hcut : old / 2 ^ sh % 2 ^ w * 2 ^ sh = 2 ^ sh * (old / 2 ^ sh % 2 ^ w) := Nat.mul_comm _ _
  have hput : v % 2 ^ w * 2 ^ sh = 2 ^ sh * (v % 2 ^ w) := Nat.mul_comm _ _
  rw [splice, hcut, hput, Nat.mul_add]
  omega

theorem testBit_splice (old sh w v j : Nat) :
    (splice old sh w v).testBit j = if sh ≤ j ∧ j < sh + w then v.testBit (j - sh) else old.testBit j := by
  rw [splice_eq, Nat.testBit_two_pow_mul_add _ (Nat.mod_lt _ (Nat.two_pow_pos sh))]
  by_cases hlow : j < sh
  · rw [if_pos hlow, if_neg (by omega), Nat.testBit_mod_two_pow]
    simp [hlow]
  · rw [if_neg hlow, Nat.testBit_two_pow_mul_add _ (Nat.mod_lt _ (Nat.two_pow_pos w))]
    by_cases hmid : j - sh < w
    · rw [if_pos hmid, if_pos (by omega), Nat.testBit_mod_two_pow]
      simp [hmid]
    · rw [if_neg hmid, if_neg (by omega), Nat.testBit_div_two_pow, Nat.testBit_div_two_pow]
      congr 1
      omega

/-- The bytes that a write of bits touches. -/
def bitBytes (off w : Nat) : Nat := (off % 8 + w + 7) / 8

/-- One write of bits at a bit offset from a base. -/
def putBits (m : Mem) (base : Nat) (e : Nat × Nat × Nat) : Mem :=
  mwriteN m (base + e.1 / 8) (toLe (bitBytes e.1 e.2.1) (splice (leNat (mreadN m (base + e.1 / 8) (bitBytes e.1 e.2.1))) (e.1 % 8) e.2.1 e.2.2))

theorem mbits_eq (m : Mem) (base : Nat) (l : List (Nat × Nat × Nat)) : mbits m base l = l.foldl (fun m e => putBits m base e) m := rfl

theorem mbits_cons (m : Mem) (base : Nat) (e : Nat × Nat × Nat) (l : List (Nat × Nat × Nat)) :
    mbits m base (e :: l) = mbits (putBits m base e) base l := rfl

theorem memWf_putBits {m : Mem} (base : Nat) (e : Nat × Nat × Nat) (h : memWf m = true) : memWf (putBits m base e) = true :=
  memWf_mwriteN _ _ h

/-- A write of bits shows in just its bits. -/
theorem mbit_putBits {m : Mem} (base off w v k : Nat) (h : memWf m = true) : mbit (putBits m base (off, w, v)) k
    = if 8 * base + off ≤ k ∧ k < 8 * base + off + w then v.testBit (k - (8 * base + off)) else mbit m k := by
  have hlen : bitBytes off w = (off % 8 + w + 7) / 8 := rfl
  refine (mbit_mwriteN (base + off / 8) (bitBytes off w)
    (splice (leNat (mreadN m (base + off / 8) (bitBytes off w))) (off % 8) w v) k h).trans ?_
  by_cases hin : 8 * base + off ≤ k ∧ k < 8 * base + off + w
  · rw [if_pos (by omega), if_pos hin, testBit_splice, if_pos (by omega)]
    congr 1
    omega
  · rw [if_neg hin]
    by_cases hbytes : 8 * (base + off / 8) ≤ k ∧ k < 8 * (base + off / 8 + bitBytes off w)
    · rw [if_pos hbytes, testBit_splice, if_neg (by omega), testBit_mreadN]
      have hlt : k - 8 * (base + off / 8) < 8 * bitBytes off w := by omega
      have hpos : 8 * (base + off / 8) + (k - 8 * (base + off / 8)) = k := by omega
      simp [hlt, hpos]
    · rw [if_neg hbytes]

/-- A bit that no write of a list touches. -/
theorem mbit_mbits_outside {m : Mem} (base k : Nat) (l : List (Nat × Nat × Nat)) (h : memWf m = true)
    (hout : ∀ e ∈ l, k < 8 * base + e.1 ∨ 8 * base + e.1 + e.2.1 ≤ k) : mbit (mbits m base l) k = mbit m k := by
  induction l generalizing m with
  | nil => rfl
  | cons e l ih =>
    obtain ⟨off, w, v⟩ := e
    rw [mbits_cons, ih (memWf_putBits base _ h) fun e he => hout e (.tail _ he), mbit_putBits _ _ _ _ _ h,
      if_neg (by have := hout _ (.head _); simp only [] at this; omega)]

/-- Writes of bits that do not meet leave each its bits. -/
theorem mbit_mbits_of_mem {m : Mem} (base : Nat) (l : List (Nat × Nat × Nat)) (h : memWf m = true)
    (hapart : l.Pairwise fun x y => x.1 + x.2.1 ≤ y.1 ∨ y.1 + y.2.1 ≤ x.1) {off w v j : Nat} (he : (off, w, v) ∈ l) (hj : j < w) :
    mbit (mbits m base l) (8 * base + off + j) = v.testBit j := by
  induction l generalizing m with
  | nil => exact absurd he List.not_mem_nil
  | cons e l ih =>
    obtain ⟨hfirst, hrest⟩ := List.pairwise_cons.1 hapart
    rw [mbits_cons]
    rcases List.mem_cons.1 he with rfl | he
    · rw [mbit_mbits_outside _ _ _ (memWf_putBits base _ h) (fun e' he' => by have := hfirst e' he'; simp only [] at this; omega),
        mbit_putBits _ _ _ _ _ h, if_pos (by omega)]
      congr 1
      omega
    · exact ih (memWf_putBits base _ h) hrest he

/-- A byte that no write of a list reaches; this needs no canonical form. -/
theorem mread_mbits_outside (m : Mem) (base a : Nat) (l : List (Nat × Nat × Nat))
    (hout : ∀ e ∈ l, a < base + e.1 / 8 ∨ base + e.1 / 8 + bitBytes e.1 e.2.1 ≤ a) : mread (mbits m base l) a = mread m a := by
  induction l generalizing m with
  | nil => rfl
  | cons e l ih =>
    rw [mbits_cons, ih _ fun e he => hout e (.tail _ he), putBits,
      mread_mwriteN_outside _ (by rw [length_toLe]; exact hout e (.head l))]

/-! ### Bits read -/

/-- What a read of bits of memory sees. -/
theorem testBit_readBits {x : Source} (hmem : x.fixed = none) (off w j : Nat) :
    (readBits x off w).testBit j = (decide (j < w) && mbit x.mem (8 * x.base + off + j)) := by
  simp only [readBits, hmem]
  rw [Nat.testBit_mod_two_pow, Nat.testBit_div_two_pow, testBit_mreadN]
  by_cases hj : j < w
  · have hlt : j + off % 8 < 8 * ((off % 8 + w + 7) / 8) := by omega
    have hpos : 8 * (x.base + off / 8) + (j + off % 8) = 8 * x.base + off + j := by omega
    simp [hj, hlt, hpos]
  · simp [hj]

/-- Bits of memory that are those of a number read back as that number. -/
theorem readBits_eq {x : Source} (hmem : x.fixed = none) {off w v : Nat}
    (hbits : ∀ j, j < w → mbit x.mem (8 * x.base + off + j) = v.testBit j) : readBits x off w = v % 2 ^ w := by
  refine Nat.eq_of_testBit_eq fun j => ?_
  rw [testBit_readBits hmem, Nat.testBit_mod_two_pow]
  by_cases hj : j < w
  · rw [hbits j hj]
  · simp [hj]

end Sys2Proof.Machine

/-! PROOFS. Where a step's tensors lie, and what the writes of an operation change. -/

namespace Sys2Proof.Machine

open Sys2Proof.Claims

variable {s u v : State} {t slot i j : Nat} {st : Step}

/-! ### What leaves memory as it is -/

/-- Between `s` and `u` memory and the places of tensors stand: object space, scratchpads with their buffers, objects, programs and
reservations. -/
structure SameStore (s u : State) : Prop where
  hbm : u.hbm = s.hbm
  scratch : ∀ k, (u.tile k).scratch = (s.tile k).scratch
  bufs : ∀ k, (u.tile k).bufs = (s.tile k).bufs
  objs : ∀ p, (u.part p).objs = (s.part p).objs
  progs : ∀ p, (u.part p).progs = (s.part p).progs
  reservs : ∀ p, (u.part p).reservs = (s.part p).reservs

namespace SameStore

theorem refl (s : State) : SameStore s s := ⟨rfl, fun _ => rfl, fun _ => rfl, fun _ => rfl, fun _ => rfl, fun _ => rfl⟩

theorem trans (h : SameStore s u) (h' : SameStore u v) : SameStore s v where
  hbm := h'.hbm.trans h.hbm
  scratch k := (h'.scratch k).trans (h.scratch k)
  bufs k := (h'.bufs k).trans (h.bufs k)
  objs p := (h'.objs p).trans (h.objs p)
  progs p := (h'.progs p).trans (h.progs p)
  reservs p := (h'.reservs p).trans (h.reservs p)

theorem symm (h : SameStore s u) : SameStore u s where
  hbm := h.hbm.symm
  scratch k := (h.scratch k).symm
  bufs k := (h.bufs k).symm
  objs p := (h.objs p).symm
  progs p := (h.progs p).symm
  reservs p := (h.reservs p).symm

end SameStore

/-! ### Homes -/

/-- The place of a tensor, but for the bytes that skein code only reads. -/
def home (s : State) (slot : Nat) (st : Step) (i : Nat) : Place :=
  match tensorPlace s slot st i with
  | .fixed .. => .fixed [] 0 []
  | pl => pl

theorem home_eq_hbm {p b : Nat} : home s slot st i = .hbm p b ↔ tensorPlace s slot st i = .hbm p b := by
  unfold home
  split
  · rename_i h
    simp [h]
  · rfl

theorem home_eq_scratch {k e : Nat} : home s slot st i = .scratch k e ↔ tensorPlace s slot st i = .scratch k e := by
  unfold home
  split
  · rename_i h
    simp [h]
  · rfl

/-- Where a tensor lies, by its kind (Table Programs-4). -/
theorem home_eq (s : State) (slot : Nat) (st : Step) (i : Nat) : home s slot st i = match (tensorOf (stepFile s st) i).kind with
    | 0 => .hbm st.part ((memObj s st.part (inputHandle s st (tensorOf (stepFile s st) i).binding % 65536)).base + companionOff (stepFile s st) i)
    | 1 => .hbm st.part ((memObj s st.part (outputHandle s st (tensorOf (stepFile s st) i).binding % 65536)).base + companionOff (stepFile s st) i)
    | 3 => .hbm st.part (interBase s st (stepFile s st) i)
    | 4 => .scratch slot i
    | _ => .fixed [] 0 [] := by
  simp only [home, tensorPlace]
  rcases (tensorOf (stepFile s st) i).kind with _ | _ | _ | _ | _ | k
  case succ.succ.zero => cases runBobbin st <;> rfl
  all_goals rfl

/-- The places of tensors follow from objects, programs and where an intermediate lies. -/
theorem home_congr_inter (hobjs : (u.part st.part).objs = (s.part st.part).objs) (hprogs : (u.part st.part).progs = (s.part st.part).progs)
    (hinter : interBase u st (stepFile s st) i = interBase s st (stepFile s st) i) : home u slot st i = home s slot st i := by
  have hfile : stepFile u st = stepFile s st := by rw [stepFile, stepFile, hprogs]
  have hsection : fbSection u st = fbSection s st := by rw [fbSection, fbSection, hprogs]
  have hin (k : Nat) : inputHandle u st k = inputHandle s st k := by rw [inputHandle, inputHandle, hsection]
  have hout (k : Nat) : outputHandle u st k = outputHandle s st k := by rw [outputHandle, outputHandle, hsection]
  simp only [home_eq, hfile, memObj, hin, hout, hobjs, hinter]

theorem home_of_sameStore (h : SameStore s u) (slot : Nat) (st : Step) (i : Nat) : home u slot st i = home s slot st i := by
  refine home_congr_inter (h.objs st.part) (h.progs st.part) ?_
  simp only [interBase, resvBase, resvOf, h.reservs]

theorem bufBase_congr {x y : Tile} (h : y.bufs = x.bufs) (slot i : Nat) : bufBase y slot i = bufBase x slot i := by
  rw [bufBase, bufBase, h]

/-! ### An intermediate settles -/

/-- A reservation in which an intermediate has its place. -/
def placedIn (r : Reservation) (q : InterPlace) (y : Reservation) : Reservation :=
  if y = r then { y with placed := y.placed ++ [q] } else y

theorem settleInter_cases (s : State) (t : Option Nat) (st : Step) (i : Nat) : settleInter s t st i = s ∨ ∃ r q, q.tensor = i
    ∧ settleInter s t st i = s.modPart st.part fun x => { x with reservs := x.reservs.map (placedIn r q) } := by
  simp only [settleInter]
  split
  · exact .inl rfl
  · split
    · exact .inl rfl
    · rename_i r hr
      split
      · exact .inl rfl
      · exact .inr ⟨r, _, rfl, rfl⟩

/-- The place that one intermediate takes moves no other. -/
theorem interBase_placedIn {r : Reservation} {q : InterPlace} (f : Upf.File)
    (hreservs : (u.part st.part).reservs = (s.part st.part).reservs.map (placedIn r q)) (hj : j ≠ q.tensor) :
    interBase u st f j = interBase s st f j := by
  have hresv : resvOf u st.part st.ctx st.ctxGen (runProg st) = (resvOf s st.part st.ctx st.ctxGen (runProg st)).map (placedIn r q) := by
    rw [resvOf, resvOf, hreservs, List.find?_map]
    congr 1
    refine congrArg (List.find? · _) (funext fun y => ?_)
    simp only [Function.comp, placedIn]
    split <;> rfl
  simp only [interBase, resvBase, hresv]
  cases resvOf s st.part st.ctx st.ctxGen (runProg st) with
  | none => rfl
  | some y =>
    have hbase : (placedIn r q y).base = y.base := by
      unfold placedIn
      split <;> rfl
    have hfind : (placedIn r q y).placed.find? (fun e => e.tensor == j) = y.placed.find? (fun e => e.tensor == j) := by
      unfold placedIn
      split
      · simp [List.find?_append, Ne.symm hj]
      · rfl
    simp only [Option.map_some, Option.bind_some, hbase, hfind]

theorem home_settleInter_ne (s : State) (t : Option Nat) (slot : Nat) (st : Step) {i j : Nat} (hj : j ≠ i) :
    home (settleInter s t st i) slot st j = home s slot st j := by
  rcases settleInter_cases s t st i with hs | ⟨r, q, hq, hs⟩
  · rw [hs]
  · rw [hs]
    refine home_congr_inter ?_ ?_ (interBase_placedIn (r := r) (q := q) _ ?_ (hq ▸ hj)) <;> rw [part_modPart_self]

/-- What an intermediate's settling leaves: everything but the reservations of its partition. -/
theorem settleInter_shape (s : State) (t : Option Nat) (st : Step) (i : Nat) :
    settleInter s t st i = { s with parts := (settleInter s t st i).parts }
      ∧ (∀ p, p ≠ st.part → (settleInter s t st i).part p = s.part p)
      ∧ (settleInter s t st i).part st.part = { s.part st.part with reservs := ((settleInter s t st i).part st.part).reservs } := by
  rcases settleInter_cases s t st i with hs | ⟨r, q, -, hs⟩
  · rw [hs]
    exact ⟨rfl, fun _ _ => rfl, rfl⟩
  · rw [hs]
    exact ⟨rfl, fun p hp => part_modPart_ne s _ hp, by rw [part_modPart_self]⟩

/-! ### Bits written at a place -/

theorem tile_tmap (s : State) (f : Nat → Tile → Tile) (hf : ∀ k, f k {} = {}) (k : Nat) :
    ({ s with tiles := tmap s.tiles f } : State).tile k = f k (s.tile k) := by
  simp only [State.tile, tget, tfind_tmap]
  cases tfind s.tiles k with
  | none => exact (hf k).symm
  | some x => rfl

/-- A tile whose scratchpad takes bits. -/
def tileWritten (x : Tile) (slot i : Nat) (l : List (Nat × Nat × Nat)) : Tile :=
  match bufBase x slot i with
  | some b => { x with scratch := mbits x.scratch b l, poison := healBits x.poison 16 b l, gated := false }
  | none => x

theorem tile_writeBits_scratch (s : State) (slot i : Nat) (l : List (Nat × Nat × Nat)) (k : Nat) :
    (writeBits s (.scratch slot i) l).tile k = tileWritten (s.tile k) slot i l :=
  tile_tmap s (fun _ x => tileWritten x slot i l) (fun _ => rfl) k

/-- The scratchpad of a tile once bits went to a place. -/
def scratchWith (x : Tile) (pl : Place) (l : List (Nat × Nat × Nat)) : Mem :=
  match pl with
  | .scratch slot i => (bufBase x slot i).elim x.scratch fun b => mbits x.scratch b l
  | _ => x.scratch

/-- Object space once bits went to a place. -/
def hbmWith (m : Mem) (pl : Place) (l : List (Nat × Nat × Nat)) : Mem :=
  match pl with
  | .hbm p b => mbits m (hbmAddr p b) l
  | _ => m

theorem sameWork_refl (x : Tile) : SameWork x x := ⟨rfl, rfl, rfl, rfl, rfl, rfl⟩

theorem sameWork_trans {x y z : Tile} (h : SameWork x y) (h' : SameWork y z) : SameWork x z := by
  obtain ⟨hrun, htails, hbufs, hwith, htest, hclock⟩ := h
  obtain ⟨hrun', htails', hbufs', hwith', htest', hclock'⟩ := h'
  exact ⟨hrun.trans hrun', htails.trans htails', hbufs.trans hbufs', hwith.trans hwith', htest.trans htest', hclock.trans hclock'⟩

theorem sameWork_tileWritten (x : Tile) (slot i : Nat) (l : List (Nat × Nat × Nat)) : SameWork (tileWritten x slot i l) x := by
  unfold tileWritten
  split <;> exact ⟨rfl, rfl, rfl, rfl, rfl, rfl⟩

theorem writeBits_shape (s : State) (pl : Place) (l : List (Nat × Nat × Nat)) : writeBits s pl l = { s with
    hbm := hbmWith s.hbm pl l, hbmPoison := (writeBits s pl l).hbmPoison, tiles := (writeBits s pl l).tiles } := by
  cases pl <;> rfl

theorem tile_writeBits (s : State) (pl : Place) (l : List (Nat × Nat × Nat)) (k : Nat) :
    SameWork ((writeBits s pl l).tile k) (s.tile k) ∧ ((writeBits s pl l).tile k).scratch = scratchWith (s.tile k) pl l := by
  cases pl with
  | hbm p b => exact ⟨sameWork_refl _, rfl⟩
  | fixed bs b x => exact ⟨sameWork_refl _, rfl⟩
  | scratch slot i =>
    rw [tile_writeBits_scratch]
    refine ⟨sameWork_tileWritten _ slot i l, ?_⟩
    simp only [tileWritten, scratchWith]
    cases bufBase (s.tile k) slot i <;> rfl

/-- Poison marked shows in the poison of object space and of tiles. -/
theorem poisonPlace_shape (s : State) (pl : Place) (l : List (Nat × Nat)) : poisonPlace s pl l = { s with
    hbmPoison := (poisonPlace s pl l).hbmPoison, tiles := (poisonPlace s pl l).tiles } := by
  unfold poisonPlace
  split
  · rfl
  · cases pl <;> rfl

/-- A tile with words of a buffer marked poisoned. -/
def tilePoisoned (x : Tile) (slot i : Nat) (l : List (Nat × Nat)) : Tile :=
  match bufBase x slot i with
  | some b => { x with poison := (x.poison ++ unitsOf 16 b l).dedup }
  | none => x

theorem tile_poisonPlace (s : State) (pl : Place) (l : List (Nat × Nat)) (k : Nat) :
    SameWork ((poisonPlace s pl l).tile k) (s.tile k) ∧ ((poisonPlace s pl l).tile k).scratch = (s.tile k).scratch := by
  unfold poisonPlace
  split
  · exact ⟨sameWork_refl _, rfl⟩
  · cases pl with
    | hbm p b => exact ⟨sameWork_refl _, rfl⟩
    | fixed bs b x => exact ⟨sameWork_refl _, rfl⟩
    | scratch slot i =>
      change SameWork (({ s with tiles := tmap s.tiles fun _ x => tilePoisoned x slot i l } : State).tile k) _
        ∧ (({ s with tiles := tmap s.tiles fun _ x => tilePoisoned x slot i l } : State).tile k).scratch = _
      rw [tile_tmap s (fun _ x => tilePoisoned x slot i l) (fun _ => rfl) k]
      unfold tilePoisoned
      cases bufBase (s.tile k) slot i with
      | none => exact ⟨sameWork_refl _, rfl⟩
      | some b => exact ⟨⟨rfl, rfl, rfl, rfl, rfl, rfl⟩, rfl⟩

/-! ### The writes of one tensor -/

/-- What the writes of an operation leave: all but memory, the reservations of the partition, and the step's note of poison. -/
structure PutFrame (slot p : Nat) (s u : State) : Prop where
  rest : u = { s with parts := u.parts, hbm := u.hbm, hbmPoison := u.hbmPoison, tiles := u.tiles, steps := u.steps }
  work : ∀ k, SameWork (u.tile k) (s.tile k)
  part : ∀ q, u.part q = { s.part q with reservs := (u.part q).reservs }
  others : ∀ q, q ≠ p → u.part q = s.part q
  steps : ∀ k, k ≠ slot → tfind u.steps k = tfind s.steps k
  step : ∀ x, tfind s.steps slot = some x → ∃ b, tfind u.steps slot = some { x with poisonOut := b }

namespace PutFrame

theorem refl (slot p : Nat) (s : State) : PutFrame slot p s s :=
  ⟨rfl, fun _ => sameWork_refl _, fun _ => rfl, fun _ _ => rfl, fun _ _ => rfl, fun x hx => ⟨x.poisonOut, hx⟩⟩

theorem trans {p : Nat} (h : PutFrame slot p s u) (h' : PutFrame slot p u v) : PutFrame slot p s v where
  rest := by rw [h'.rest, h.rest]
  work k := sameWork_trans (h'.work k) (h.work k)
  part q := by rw [h'.part, h.part]
  others q hq := (h'.others q hq).trans (h.others q hq)
  steps k hk := (h'.steps k hk).trans (h.steps k hk)
  step x hx := by
    obtain ⟨b, hb⟩ := h.step x hx
    obtain ⟨b', hb'⟩ := h'.step _ hb
    exact ⟨b', hb'⟩

end PutFrame

/-- The bits that a list of writes puts into one tensor. -/
def entriesOf (l : List Put) (i : Nat) : List (Nat × Nat × Nat) := (l.filter fun e => e.tensor == i).map fun e => (e.off, e.width, e.val)

/-- The writes into one tensor before the gate's note of poison. -/
def tensorWritten (t slot : Nat) (st : Step) (l : List Put) (s : State) (i : Nat) : State :=
  let s := settleInter s (some t) st i
  poisonPlace (writeBits s (tensorPlace s slot st i) (entriesOf l i)) (tensorPlace s slot st i)
    (((l.filter fun e => e.tensor == i).filter (·.bad)).map fun e => (e.off, e.width))

/-- The writes into one tensor. -/
def putTensor (t slot : Nat) (st : Step) (l : List Put) (s : State) (i : Nat) : State :=
  let here := l.filter fun e => e.tensor == i
  let w := tensorWritten t slot st l s i
  let pl := tensorPlace (settleInter s (some t) st i) slot st i
  if (tensorOf (stepFile w st) i).kind = 1 ∧ here.any (fun e => poisonedBits (sourceOf w t pl) e.off e.width)
    then w.modStep slot fun x => { x with poisonOut := true } else w

theorem putAll_eq (t : Nat) (l : List Put) (hst : tfind s.steps slot = some st) :
    putAll s t slot l = forAll ((l.map (·.tensor)).dedup) (putTensor t slot st l) s := by
  simp only [putAll, hst]
  rfl

/-- What the writes into one tensor do. -/
structure TensorPut (slot : Nat) (st : Step) (i : Nat) (es : List (Nat × Nat × Nat)) (s u : State) : Prop where
  frame : PutFrame slot st.part s u
  hbm : u.hbm = hbmWith s.hbm (home u slot st i) es
  scratch : ∀ k, (u.tile k).scratch = scratchWith (s.tile k) (home u slot st i) es
  homes : ∀ j, j ≠ i → home u slot st j = home s slot st j

theorem hbmWith_home (m : Mem) (l : List (Nat × Nat × Nat)) : hbmWith m (home s slot st i) l = hbmWith m (tensorPlace s slot st i) l := by
  unfold home
  split
  · rename_i h
    rw [h]
    rfl
  · rfl

theorem scratchWith_home (x : Tile) (l : List (Nat × Nat × Nat)) :
    scratchWith x (home s slot st i) l = scratchWith x (tensorPlace s slot st i) l := by
  unfold home
  split
  · rename_i h
    rw [h]
    rfl
  · rfl

/-- A state that has the objects, programs and reservations of another has its places. -/
theorem home_of_parts (h : u.parts = s.parts) (slot : Nat) (st : Step) (i : Nat) : home u slot st i = home s slot st i := by
  have hpart (p : Nat) : u.part p = s.part p := by rw [State.part, h, State.part]
  refine home_congr_inter (by rw [hpart]) (by rw [hpart]) ?_
  simp only [interBase, resvBase, resvOf, hpart]

theorem tensorWritten_put (t slot : Nat) (st : Step) (l : List Put) (s : State) (i : Nat) :
    TensorPut slot st i (entriesOf l i) s (tensorWritten t slot st l s i) := by
  obtain ⟨hset, hothers, hown⟩ := settleInter_shape s (some t) st i
  have hhome (j : Nat) (hj : j ≠ i) := home_settleInter_ne s (some t) slot st hj
  unfold tensorWritten
  extract_lets v
  have hv : v = settleInter s (some t) st i := rfl
  rw [← hv] at hset hothers hown hhome
  clear_value v
  have hw := writeBits_shape v (tensorPlace v slot st i) (entriesOf l i)
  have htile := tile_writeBits v (tensorPlace v slot st i) (entriesOf l i)
  generalize writeBits v (tensorPlace v slot st i) (entriesOf l i) = w at hw htile ⊢
  have hp := poisonPlace_shape w (tensorPlace v slot st i) (((l.filter fun e => e.tensor == i).filter (·.bad)).map fun e => (e.off, e.width))
  have htile' := tile_poisonPlace w (tensorPlace v slot st i) (((l.filter fun e => e.tensor == i).filter (·.bad)).map fun e => (e.off, e.width))
  generalize poisonPlace w (tensorPlace v slot st i) _ = u at hp htile' ⊢
  have hparts : u.parts = v.parts := by rw [hp, hw]
  have htiles (k : Nat) : v.tile k = s.tile k := by rw [hset]; rfl
  have hpart (q : Nat) : u.part q = v.part q := by rw [State.part, hparts, State.part]
  refine ⟨⟨?_, fun k => ?_, fun q => ?_, fun q hq => (hpart q).trans (hothers q hq), ?_, ?_⟩, ?_, fun k => ?_, fun j hj => ?_⟩
  · rw [hp, hw, hset]
  · exact htiles k ▸ sameWork_trans (htile' k).1 (htile k).1
  · rw [hpart]
    by_cases hq : q = st.part
    · rw [hq]
      exact hown
    · rw [hothers q hq]
  · intro k _
    rw [hp, hw, hset]
  · intro x hx
    refine ⟨x.poisonOut, ?_⟩
    rw [hp, hw, hset]
    exact hx
  · rw [home_of_parts hparts, hbmWith_home, hp, hw, hset]
  · rw [home_of_parts hparts, scratchWith_home, (htile' k).2, (htile k).2, htiles]
  · rw [home_of_parts hparts, hhome j hj]

theorem putTensor_put (t slot : Nat) (st : Step) (l : List Put) (s : State) (i : Nat) :
    TensorPut slot st i (entriesOf l i) s (putTensor t slot st l s i) := by
  have hwritten := tensorWritten_put t slot st l s i
  simp only [putTensor]
  generalize tensorWritten t slot st l s i = w at hwritten
  split
  · obtain ⟨⟨hrest, hwork, hpart, hothers, hsteps, hstep⟩, hhbm, hscratch, hhomes⟩ := hwritten
    have hmod : w.modStep slot (fun x => { x with poisonOut := true })
        = { w with steps := (w.modStep slot fun x => { x with poisonOut := true }).steps } := by
      unfold State.modStep
      split <;> rfl
    have hfound (k : Nat) (hk : k ≠ slot) := tfind_modStep_ne w (fun x => { x with poisonOut := true }) hk
    have hself (x : Step) (hx : tfind w.steps slot = some x) := tfind_modStep_self w (fun x => { x with poisonOut := true }) hx
    generalize w.modStep slot (fun x => { x with poisonOut := true }) = u at hmod hfound hself
    have hhome (j : Nat) : home u slot st j = home w slot st j := home_of_parts (by rw [hmod]) slot st j
    refine ⟨⟨?_, fun k => ?_, fun q => ?_, fun q hq => ?_, fun k hk => (hfound k hk).trans (hsteps k hk), fun x hx => ?_⟩, ?_, fun k => ?_, fun j hj => ?_⟩
    · rw [hmod, hrest]
    · rw [hmod]
      exact hwork k
    · rw [hmod]
      exact hpart q
    · rw [hmod]
      exact hothers q hq
    · obtain ⟨b, hb⟩ := hstep x hx
      have hnoted := hself _ hb
      exact ⟨true, hnoted⟩
    · rw [hhome, ← hhbm, hmod]
    · rw [hhome, ← hscratch, hmod]
      rfl
    · rw [hhome, hhomes j hj]
  · exact hwritten

theorem mem_entriesOf {l : List Put} {x : Nat × Nat × Nat} : x ∈ entriesOf l i ↔ ∃ e ∈ l, e.tensor = i ∧ x = (e.off, e.width, e.val) := by
  simp only [entriesOf, List.mem_map, List.mem_filter, beq_iff_eq]
  constructor
  · rintro ⟨e, ⟨he, hi⟩, rfl⟩
    exact ⟨e, he, hi, rfl⟩
  · rintro ⟨e, he, hi, rfl⟩
    exact ⟨e, ⟨he, hi⟩, rfl⟩

/-! ### Cells: object space, and the scratchpad of one tile -/

/-- The memory in which a tile's writes are looked for: object space, or its scratchpad. -/
def cells (s : State) (t : Nat) (c : Bool) : Mem := if c then s.hbm else (s.tile t).scratch

theorem startBit_congr {e : Put} (hhome : home u slot st e.tensor = home s slot st e.tensor) (hbufs : (u.tile t).bufs = (s.tile t).bufs) :
    startBit u t slot st e = startBit s t slot st e := by
  have hof (v : State) : startBit v t slot st e = match home v slot st e.tensor with
      | .hbm p b => some (true, 8 * hbmAddr p b + e.off)
      | .scratch k i => (bufBase (v.tile t) k i).map fun b => (false, 8 * b + e.off)
      | .fixed .. => none := by
    unfold startBit home
    cases tensorPlace v slot st e.tensor <;> rfl
  rw [hof, hof, hhome]
  cases home s slot st e.tensor with
  | hbm p b => rfl
  | fixed bs b x => rfl
  | scratch k i => simp only [bufBase_congr hbufs]

theorem startBit_of_hbm {e : Put} {p b : Nat} (h : home u slot st e.tensor = .hbm p b) :
    startBit u t slot st e = some (true, 8 * hbmAddr p b + e.off) := by
  rw [startBit, home_eq_hbm.1 h]

theorem startBit_of_scratch {e : Put} {k i b : Nat} (h : home u slot st e.tensor = .scratch k i) (hb : bufBase (u.tile t) k i = some b) :
    startBit u t slot st e = some (false, 8 * b + e.off) := by
  rw [startBit, home_eq_scratch.1 h]
  simp [hb]

namespace TensorPut

variable {l : List Put}

theorem bufs {es : List (Nat × Nat × Nat)} (h : TensorPut slot st i es s u) (k : Nat) : (u.tile k).bufs = (s.tile k).bufs := by
  obtain ⟨-, -, hbufs, -⟩ := h.frame.work k
  exact hbufs

/-- The cells of a component after the writes: those before, with the bits at the place of the tensor, when it lies there. -/
theorem cells_eq (h : TensorPut slot st i (entriesOf l i) s u) (t : Nat) (c : Bool) :
    cells u t c = cells s t c ∧ (∀ e : Put, e.tensor = i → ∀ a, startBit u t slot st e ≠ some (c, a))
    ∨ ∃ b, cells u t c = mbits (cells s t c) b (entriesOf l i)
      ∧ ∀ e : Put, e.tensor = i → startBit u t slot st e = some (c, 8 * b + e.off) := by
  have hhbm := h.hbm
  have hscratch := h.scratch t
  cases hhome : home u slot st i with
  | hbm p b =>
    have hstart (e : Put) (he : e.tensor = i) : startBit u t slot st e = some (true, 8 * hbmAddr p b + e.off) :=
      startBit_of_hbm (he ▸ hhome)
    rw [hhome] at hhbm hscratch
    cases c with
    | true => exact .inr ⟨hbmAddr p b, hhbm, hstart⟩
    | false => exact .inl ⟨hscratch, fun e he a => by simp [hstart e he]⟩
  | fixed bs b x =>
    rw [hhome] at hhbm hscratch
    refine .inl ⟨?_, fun e he a => ?_⟩
    · cases c
      · exact hscratch
      · exact hhbm
    · have hnone : startBit u t slot st e = none := by
        unfold home at hhome
        subst he
        unfold startBit
        cases hplace : tensorPlace u slot st e.tensor <;> simp_all
      simp [hnone]
  | scratch k j =>
    have hbase : bufBase (u.tile t) k j = bufBase (s.tile t) k j := bufBase_congr (h.bufs t) k j
    rw [hhome] at hhbm hscratch
    simp only [scratchWith] at hscratch
    cases hb : bufBase (s.tile t) k j with
    | none =>
      rw [hb] at hscratch
      refine .inl ⟨?_, fun e he a => ?_⟩
      · cases c
        · exact hscratch
        · exact hhbm
      · have hnone : startBit u t slot st e = none := by
          rw [startBit, home_eq_scratch.1 (he ▸ hhome)]
          simp [hbase, hb]
        simp [hnone]
    | some b =>
      have hstart (e : Put) (he : e.tensor = i) : startBit u t slot st e = some (false, 8 * b + e.off) :=
        startBit_of_scratch (he ▸ hhome) (hbase.trans hb)
      rw [hb] at hscratch
      cases c with
      | true => exact .inl ⟨hhbm, fun e he a => by simp [hstart e he]⟩
      | false => exact .inr ⟨b, hscratch, hstart⟩

theorem wf (h : TensorPut slot st i (entriesOf l i) s u) {c : Bool} (hwf : memWf (cells s t c) = true) : memWf (cells u t c) = true := by
  rcases h.cells_eq t c with ⟨hc, -⟩ | ⟨b, hc, -⟩ <;> rw [hc]
  · exact hwf
  · exact memWf_mbits _ _ hwf

theorem cellOut (h : TensorPut slot st i (entriesOf l i) s u) {c : Bool} {k : Nat} (hwf : memWf (cells s t c) = true)
    (hout : ∀ e ∈ l, e.tensor = i → ∀ a, startBit u t slot st e = some (c, a) → k < a ∨ a + e.width ≤ k) :
    mbit (cells u t c) k = mbit (cells s t c) k := by
  rcases h.cells_eq t c with ⟨hc, -⟩ | ⟨b, hc, hstart⟩ <;> rw [hc]
  refine mbit_mbits_outside _ _ _ hwf fun x hx => ?_
  obtain ⟨e, he, hi, rfl⟩ := mem_entriesOf.1 hx
  exact hout e he hi _ (hstart e hi)

theorem cellIn (h : TensorPut slot st i (entriesOf l i) s u) {c : Bool} (hwf : memWf (cells s t c) = true)
    (hapart : Apart u t slot st (l.filter fun e => e.tensor == i)) {e : Put} (he : e ∈ l) (hi : e.tensor = i) {a j : Nat} (hstart : startBit u t slot st e = some (c, a)) (hj : j < e.width) :
    mbit (cells u t c) (a + j) = e.val.testBit j := by
  rcases h.cells_eq t c with ⟨-, hnone⟩ | ⟨b, hc, hplace⟩
  · exact absurd hstart (hnone e hi a)
  · have ha : a = 8 * b + e.off := by simpa [hstart] using hplace e hi
    rw [hc, ha]
    refine mbit_mbits_of_mem _ _ hwf ?_ (mem_entriesOf.2 ⟨e, he, hi, rfl⟩) hj
    rw [entriesOf, List.pairwise_map]
    refine hapart.imp_of_mem fun {x y} hx hy hxy => ?_
    have hx' := hplace x (beq_iff_eq.1 (List.mem_filter.1 hx).2)
    have hy' := hplace y (beq_iff_eq.1 (List.mem_filter.1 hy).2)
    have hends := hxy c _ _ hx' hy'
    simp only []
    omega

theorem hbmOut (h : TensorPut slot st i (entriesOf l i) s u) {a : Nat} (hout : ∀ e ∈ l, e.tensor = i → ¬ Touches u slot st e a) :
    mread u.hbm a = mread s.hbm a := by
  rw [h.hbm]
  cases hhome : home u slot st i with
  | fixed bs b x => rfl
  | scratch k j => rfl
  | hbm p b =>
    refine mread_mbits_outside _ _ _ _ fun x hx => ?_
    obtain ⟨e, he, hi, rfl⟩ := mem_entriesOf.1 hx
    have huntouched := hout e he hi
    by_contra hin
    refine huntouched ⟨p, b, home_eq_hbm.1 (hi ▸ hhome), ?_⟩
    simp only [bitBytes] at hin
    omega

theorem scratchOut (h : TensorPut slot st i (entriesOf l i) s u) {k a : Nat}
    (hout : ∀ e ∈ l, e.tensor = i → ¬ TouchesScratch u slot st k e a) : mread (u.tile k).scratch a = mread (s.tile k).scratch a := by
  have hbase (n m : Nat) : bufBase (u.tile k) n m = bufBase (s.tile k) n m := bufBase_congr (h.bufs k) n m
  rw [h.scratch]
  cases hhome : home u slot st i with
  | fixed bs b x => rfl
  | hbm p b => rfl
  | scratch n m =>
    simp only [scratchWith]
    cases hb : bufBase (s.tile k) n m with
    | none => rfl
    | some b =>
      refine mread_mbits_outside _ _ _ _ fun x hx => ?_
      obtain ⟨e, he, hi, rfl⟩ := mem_entriesOf.1 hx
      have huntouched := hout e he hi
      have hplace := home_eq_scratch.1 (hi ▸ hhome)
      obtain ⟨rfl, rfl⟩ : n = slot ∧ m = e.tensor := by
        subst hi
        have hkind := home_eq u slot st e.tensor
        rw [hhome] at hkind
        split at hkind <;> simp_all
      by_contra hin
      refine huntouched ⟨b, hplace, (hbase _ _).trans hb, ?_⟩
      simp only [bitBytes] at hin
      omega

end TensorPut

/-! ### All writes of an operation -/

/-- What the writes `l` of an operation into the tensors `ds` have done. -/
structure PutsLaid (t slot : Nat) (st : Step) (l : List Put) (ds : List Nat) (s u : State) : Prop where
  frame : PutFrame slot st.part s u
  homes : ∀ j, j ∉ ds → home u slot st j = home s slot st j
  hbmOut : ∀ a, (∀ e ∈ l, e.tensor ∈ ds → ¬ Touches u slot st e a) → mread u.hbm a = mread s.hbm a
  scratchOut : ∀ k a, (∀ e ∈ l, e.tensor ∈ ds → ¬ TouchesScratch u slot st k e a) → mread (u.tile k).scratch a = mread (s.tile k).scratch a
  wf : ∀ c, memWf (cells s t c) = true → memWf (cells u t c) = true
  cellOut : ∀ c k, memWf (cells s t c) = true → (∀ e ∈ l, e.tensor ∈ ds → ∀ a, startBit u t slot st e = some (c, a) →
    k < a ∨ a + e.width ≤ k) → mbit (cells u t c) k = mbit (cells s t c) k
  cellIn : Apart u t slot st l → ∀ e ∈ l, e.tensor ∈ ds → ∀ c a, memWf (cells s t c) = true → startBit u t slot st e = some (c, a) →
    ∀ j, j < e.width → mbit (cells u t c) (a + j) = e.val.testBit j

theorem PutsLaid.nil (t slot : Nat) (st : Step) (l : List Put) (s : State) : PutsLaid t slot st l [] s s where
  frame := .refl slot st.part s
  homes _ _ := rfl
  hbmOut _ _ := rfl
  scratchOut _ _ _ := rfl
  wf _ h := h
  cellOut _ _ _ _ := rfl
  cellIn _ _ _ he := absurd he List.not_mem_nil

theorem touches_congr {e : Put} {a : Nat} (hhome : home u slot st e.tensor = home s slot st e.tensor) :
    Touches u slot st e a ↔ Touches s slot st e a := by
  simp only [Touches, ← home_eq_hbm, hhome]

theorem touchesScratch_congr {e : Put} {k a : Nat} (hhome : home u slot st e.tensor = home s slot st e.tensor)
    (hbufs : (u.tile k).bufs = (s.tile k).bufs) : TouchesScratch u slot st k e a ↔ TouchesScratch s slot st k e a := by
  simp only [TouchesScratch, ← home_eq_scratch, hhome, bufBase_congr hbufs]

/-- Of writes that do not meet no two meet, in either order. -/
theorem apart_forall {l : List Put} (h : Apart u t slot st l) {x y : Put} (hx : x ∈ l) (hy : y ∈ l) (hne : x ≠ y) :
    ∀ a b c, startBit u t slot st x = some (a, b) → startBit u t slot st y = some (a, c) → b + x.width ≤ c ∨ c + y.width ≤ b := by
  have hsymm : Std.Symm fun x y : Put => ∀ a b c, startBit u t slot st x = some (a, b) → startBit u t slot st y = some (a, c) →
      b + x.width ≤ c ∨ c + y.width ≤ b := ⟨fun _ _ hxy a b c hb hc => (hxy a c b hc hb).symm⟩
  exact List.Pairwise.forall h hx hy hne

/-- The writes into one tensor, and then into others. -/
theorem PutsLaid.cons {l : List Put} {ds : List Nat} (hi : i ∉ ds) (h : TensorPut slot st i (entriesOf l i) s v)
    (h' : PutsLaid t slot st l ds v u) : PutsLaid t slot st l (i :: ds) s u where
  frame := h.frame.trans h'.frame
  homes j hj := (h'.homes j fun hmem => hj (.tail _ hmem)).trans (h.homes j fun heq => hj (heq ▸ .head ds))
  hbmOut a hout := by
    refine (h'.hbmOut a fun e he hmem => hout e he (.tail _ hmem)).trans (h.hbmOut fun e he hit => ?_)
    rw [← touches_congr (h'.homes e.tensor (hit ▸ hi))]
    exact hout e he (hit ▸ .head ds)
  scratchOut k a hout := by
    obtain ⟨-, -, hbufs, -⟩ := h'.frame.work k
    refine (h'.scratchOut k a fun e he hmem => hout e he (.tail _ hmem)).trans (h.scratchOut fun e he hit => ?_)
    rw [← touchesScratch_congr (h'.homes e.tensor (hit ▸ hi)) hbufs]
    exact hout e he (hit ▸ .head ds)
  wf c hwf := h'.wf c (h.wf hwf)
  cellOut c k hwf hout := by
    obtain ⟨-, -, hbufs, -⟩ := h'.frame.work t
    refine (h'.cellOut c k (h.wf hwf) fun e he hmem => hout e he (.tail _ hmem)).trans (h.cellOut hwf fun e he hit a ha => ?_)
    rw [← startBit_congr (h'.homes e.tensor (hit ▸ hi)) hbufs] at ha
    exact hout e he (hit ▸ .head ds) a ha
  cellIn hapart e he hmem c a hwf ha j hj := by
    obtain ⟨-, -, hbufs, -⟩ := h'.frame.work t
    by_cases hit : e.tensor = i
    · have hsame (x : Put) (hx : x.tensor = i) : startBit v t slot st x = startBit u t slot st x :=
        (startBit_congr (h'.homes x.tensor (hx ▸ hi)) hbufs).symm
      have hhere : Apart v t slot st (l.filter fun e => e.tensor == i) := by
        refine (hapart.filter _).imp_of_mem fun {x y} hx hy hxy => ?_
        rw [hsame x (beq_iff_eq.1 (List.mem_filter.1 hx).2), hsame y (beq_iff_eq.1 (List.mem_filter.1 hy).2)]
        exact hxy
      have hplaced := h.cellIn hwf hhere he hit ((hsame e hit).trans ha) hj
      refine (h'.cellOut c (a + j) (h.wf hwf) fun e' he' hmem' a' ha' => ?_).trans hplaced
      have hne : e ≠ e' := fun heq => hi (hit ▸ heq ▸ hmem')
      have hends := apart_forall hapart he he' hne c a a' ha ha'
      omega
    · exact h'.cellIn hapart e he ((List.mem_cons.1 hmem).resolve_left hit) c a (h.wf hwf) ha j hj

theorem forAll_putsLaid (t slot : Nat) (st : Step) (l : List Put) {ds : List Nat} (hds : ds.Nodup) (s : State) :
    PutsLaid t slot st l ds s (forAll ds (putTensor t slot st l) s) := by
  induction ds generalizing s with
  | nil => exact .nil t slot st l s
  | cons i ds ih =>
    obtain ⟨hi, hds⟩ := List.nodup_cons.1 hds
    exact .cons hi (putTensor_put t slot st l s i) (ih hds _)

theorem putAll_laid (t : Nat) (l : List Put) (hst : tfind s.steps slot = some st) :
    PutsLaid t slot st l ((l.map (·.tensor)).dedup) s (putAll s t slot l) := by
  rw [putAll_eq t l hst]
  exact forAll_putsLaid t slot st l (List.nodup_dedup _) s

theorem mem_dedup_tensor {l : List Put} {e : Put} (he : e ∈ l) : e.tensor ∈ (l.map (·.tensor)).dedup :=
  List.mem_dedup.2 (List.mem_map_of_mem he)

/-- Whether a tensor lies in object space, or in a scratchpad buffer, its kind says (Table Programs-4). -/
theorem home_kind_congr (hprogs : (u.part st.part).progs = (s.part st.part).progs) :
    (∀ p b, home s slot st i = .hbm p b → ∃ b', home u slot st i = .hbm p b')
      ∧ (∀ k e, home s slot st i = .scratch k e → home u slot st i = .scratch k e) := by
  have hfile : stepFile u st = stepFile s st := by rw [stepFile, stepFile, hprogs]
  rw [home_eq, home_eq, hfile]
  rcases (tensorOf (stepFile s st) i).kind with _ | _ | _ | _ | _ | k <;> simp

/-- What a write's bits read back as. -/
theorem bitsAt_eq {e : Put} {c : Bool} {a : Nat} {x : Nat} (hstart : startBit u t slot st e = some (c, a))
    (hbits : ∀ j, j < e.width → mbit (cells u t c) (a + j) = x.testBit j) : bitsAt u t slot st e = x % 2 ^ e.width := by
  unfold startBit at hstart
  unfold bitsAt
  cases hplace : tensorPlace u slot st e.tensor with
  | fixed bs b y => simp [hplace] at hstart
  | hbm p b =>
    rw [hplace] at hstart
    obtain ⟨rfl, rfl⟩ := Prod.mk.inj (Option.some.inj hstart)
    exact readBits_eq rfl hbits
  | scratch k i =>
    rw [hplace] at hstart
    obtain ⟨b, hb, hpair⟩ := Option.map_eq_some_iff.1 hstart
    obtain ⟨rfl, rfl⟩ := Prod.mk.inj hpair
    have hsource : sourceOf u t (.scratch k i) = ⟨(u.tile t).scratch, b, 16, (u.tile t).poison, none⟩ := by
      simp [sourceOf, bufHome, hb]
    rw [hsource]
    exact readBits_eq rfl hbits

theorem PutsLaid.stores {l : List Put} (h : PutsLaid t slot st l ((l.map (·.tensor)).dedup) s u) : Stores s u t slot st l := by
  have hprogs : (u.part st.part).progs = (s.part st.part).progs := by rw [h.frame.part]
  obtain ⟨-, -, hbufs, -⟩ := h.frame.work t
  refine ⟨⟨fun a hout => h.hbmOut a fun e he _ => hout e he, fun k a hout => h.scratchOut k a fun e he _ => hout e he⟩, ?_⟩
  intro hapart e he hplaced
  obtain ⟨hhbm, hscratch⟩ := home_kind_congr (s := s) (u := u) (slot := slot) (st := st) (i := e.tensor) hprogs
  rcases hplaced with ⟨p, b, hplace, hwf⟩ | ⟨b, hplace, hb, hwf⟩
  · obtain ⟨b', hhome⟩ := hhbm p b (home_eq_hbm.2 hplace)
    have hstart := startBit_of_hbm (t := t) hhome
    exact bitsAt_eq hstart fun j hj => h.cellIn hapart e he (mem_dedup_tensor he) true _ hwf hstart j hj
  · have hhome := hscratch _ _ (home_eq_scratch.2 hplace)
    have hstart := startBit_of_scratch hhome ((bufBase_congr hbufs _ _).trans hb)
    exact bitsAt_eq hstart fun j hj => h.cellIn hapart e he (mem_dedup_tensor he) false _ hwf hstart j hj

end Sys2Proof.Machine

/-! PROOFS. What an operation of a skein notes beside its run and memory: traffic, charges and counts (R268, R322). -/

namespace Sys2Proof.Machine

open Sys2Proof.Claims

variable {s u v : State} {t slot i p : Nat} {st : Step}

/-- Between `s` and `u` an operation of the step in `slot` of partition `p` was accounted for: caches, their reads and messages,
engine and context records, counters, and the step's note of a write to a host page. -/
structure Aside (slot p : Nat) (s u : State) : Prop where
  rest : u = { s with
    parts := u.parts, steps := u.steps, ctxs := u.ctxs, engRecs := u.engRecs, caches := u.caches, hbmReads := u.hbmReads
    pmc := u.pmc, out := u.out, fresh := u.fresh }
  part : ∀ q, u.part q = { s.part q with counters := (u.part q).counters }
  others : ∀ q, q ≠ p → u.part q = s.part q
  steps : ∀ k, k ≠ slot → tfind u.steps k = tfind s.steps k
  step : ∀ x, tfind s.steps slot = some x → ∃ b, tfind u.steps slot = some { x with hostWrites := b }

namespace Aside

theorem refl (slot p : Nat) (s : State) : Aside slot p s s :=
  ⟨rfl, fun _ => rfl, fun _ _ => rfl, fun _ _ => rfl, fun x hx => ⟨x.hostWrites, hx⟩⟩

theorem trans (h : Aside slot p s u) (h' : Aside slot p u v) : Aside slot p s v where
  rest := by rw [h'.rest, h.rest]
  part q := by rw [h'.part, h.part]
  others q hq := (h'.others q hq).trans (h.others q hq)
  steps k hk := (h'.steps k hk).trans (h.steps k hk)
  step x hx := by
    obtain ⟨b, hb⟩ := h.step x hx
    obtain ⟨b', hb'⟩ := h'.step _ hb
    exact ⟨b', hb'⟩

/-- A change outside partitions and steps. -/
theorem of_eq (slot p : Nat) (hrest : u = { s with
    ctxs := u.ctxs, engRecs := u.engRecs, caches := u.caches, hbmReads := u.hbmReads, pmc := u.pmc, out := u.out, fresh := u.fresh }) :
    Aside slot p s u := by
  have hparts : u.parts = s.parts := by rw [hrest]
  have hsteps : u.steps = s.steps := by rw [hrest]
  have hpart (q : Nat) : u.part q = s.part q := by rw [State.part, hparts, State.part]
  refine ⟨by rw [hrest], fun q => by rw [hpart], fun q _ => hpart q, fun k _ => by rw [hsteps], fun x hx => ⟨x.hostWrites, ?_⟩⟩
  rw [hsteps]
  exact hx

theorem count (slot p : Nat) (s : State) (ev n : Nat) : Aside slot p s (count s p ev n) := by
  unfold Machine.count
  split
  · exact .refl slot p s
  · refine ⟨rfl, fun q => ?_, fun q hq => part_modPart_ne s _ hq, fun _ _ => rfl, fun x hx => ⟨x.hostWrites, hx⟩⟩
    by_cases hq : q = p
    · subst hq
      rw [part_modPart_self]
    · rw [part_modPart_ne _ _ hq]

theorem countGlobal (slot p : Nat) (s : State) (j n : Nat) : Aside slot p s (countGlobal s j n) := by
  unfold Machine.countGlobal
  split
  · exact .refl slot p s
  · exact .of_eq slot p rfl

theorem charge (slot p : Nat) (s : State) (eng c cgen ns bytes e : Nat) : Aside slot p s (charge s eng c cgen ns bytes e) := by
  unfold Machine.charge
  extract_lets r w
  split
  · exact .of_eq slot p rfl
  · exact .of_eq slot p rfl

theorem foldl {α : Type} {f : State → α → State} (hf : ∀ w x, Aside slot p w (f w x)) (l : List α) (s : State) :
    Aside slot p s (forAll l f s) := forAll_rel (refl slot p) trans hf l s

theorem writeBack (slot p : Nat) (s : State) (c : CacheLine) : Aside slot p s (writeBack p s c) := by
  unfold Machine.writeBack
  split
  · exact .refl slot p s
  · exact ((Aside.count slot p s 0x09 64).trans (.countGlobal slot p _ 1 64)).trans (.of_eq slot p rfl)

theorem fillWay (slot p : Nat) (s : State) (d line way : Nat) (write : Bool) : Aside slot p s (fillWay s p d line way write) :=
  (Aside.foldl (fun w c => .writeBack slot p w c) _ s).trans (.of_eq slot p rfl)

theorem readLine (slot p : Nat) (s : State) (line : Nat) : Aside slot p s (readLine s p line) :=
  ((Aside.count slot p s 0x08 64).trans (.countGlobal slot p _ 0 64)).trans (.of_eq slot p rfl)

theorem touchLine (slot p : Nat) (write : Bool) (s : State) (line : Nat) : Aside slot p s (touchLine p write s line) := by
  have hhit := Aside.count slot p s 0x0A 1
  have hmiss := Aside.count slot p s 0x0B 1
  simp only [Machine.touchLine]
  split
  · split
    · exact hhit.trans (.of_eq slot p rfl)
    · exact hhit
  · have hread : Aside slot p s (if write then Machine.count s p 0x0B 1 else Machine.readLine (Machine.count s p 0x0B 1) p line) := by
      split
      · exact hmiss
      · exact hmiss.trans (.readLine slot p _ line)
    generalize (if write then Machine.count s p 0x0B 1 else Machine.readLine (Machine.count s p 0x0B 1) p line) = w at hread
    split
    · exact hread.trans (.fillWay slot p w _ line _ write)
    · split
      · exact hread
      · exact (hread.trans (.of_eq slot p (u := (draw w).2) rfl)).trans (.fillWay slot p _ _ line _ write)

theorem touchLines (slot p : Nat) (s : State) (write : Bool) (lines : List Nat) : Aside slot p s (touchLines s p write lines) :=
  .foldl (fun w l => .touchLine slot p write w l) lines s

theorem modStep_hostWrites (slot p : Nat) (s : State) (b : Bool) : Aside slot p s (s.modStep slot fun x => { x with hostWrites := b }) := by
  have hself (x : Step) (hx : tfind s.steps slot = some x) := tfind_modStep_self s (fun x => { x with hostWrites := b }) hx
  have hother (k : Nat) (hk : k ≠ slot) := tfind_modStep_ne s (fun x => { x with hostWrites := b }) hk
  have hmod : (s.modStep slot fun x => { x with hostWrites := b }) = { s with steps := (s.modStep slot fun x => { x with hostWrites := b }).steps } := by
    unfold State.modStep
    split <;> rfl
  generalize (s.modStep slot fun x => { x with hostWrites := b }) = w at hself hother hmod
  have hpart (q : Nat) : w.part q = s.part q := by rw [hmod]; rfl
  exact ⟨by rw [hmod], fun q => by rw [hpart], fun q _ => hpart q, hother, fun x hx => ⟨b, hself x hx⟩⟩

end Aside

/-! ### With no injection armed nothing is reported (R439) -/

theorem armed_of_calm (h : s.coll.inject = []) (w k e : Nat) : armed s w k e = false := by simp [armed, h]

theorem check_of_calm (h : s.coll.inject = []) (w k e : Nat) (slots : List Nat) : check s w k e slots = s := by
  simp [check, armed_of_calm h]

theorem pathChecks_of_calm (h : s.coll.inject = []) (t slot : Nat) (hits : List Nat) : pathChecks s t slot hits = s := by
  have hnone : hits.find? (fun l => armed s (granuleDie (lineGranule s l)) 12 0xFFF) = none :=
    List.find?_eq_none.2 fun l _ => by simp [armed_of_calm h]
  simp only [pathChecks, check_of_calm h, hnone]

theorem guarded_of_calm (h : s.coll.inject = []) (t slot : Nat) (st : Step) (ks views : List Nat) (f : State → State) :
    guarded s t slot st ks views f = f s := by
  have hnone (l : List Nat) : l.find? (fun k => armed s (tileDie t) k t) = none :=
    List.find?_eq_none.2 fun k _ => by simp [armed_of_calm h]
  simp only [guarded, check_of_calm h, ite_self, hnone]

theorem moved_aside (h : s.coll.inject = []) (t slot : Nat) (st : Step) (vi n : Nat) (write : Bool) :
    Aside slot st.part s (moved s t slot st vi n write) := by
  have hcharge := Aside.charge slot st.part s t st.ctx st.ctxGen 0 n 0
  simp only [moved]
  generalize charge s t st.ctx st.ctxGen 0 n 0 = w at hcharge
  split
  · exact hcharge
  · have htouch := Aside.touchLines slot st.part w write (bitLines w slot st (viewBits (stepFile w st) vi))
    have hcalm : (touchLines w st.part write (bitLines w slot st (viewBits (stepFile w st) vi))).coll.inject = [] := by
      rw [htouch.rest, hcharge.rest]
      exact h
    rw [pathChecks_of_calm hcalm]
    split
    · exact (hcharge.trans htouch).trans (.modStep_hostWrites slot st.part _ true)
    · exact hcharge.trans htouch

end Sys2Proof.Machine

/-! PROOFS. Operations that read and write views: what their parts have in common (R53, R62). -/

namespace Sys2Proof.Machine

open Sys2Proof.Claims

variable {s u v : State} {t slot p : Nat} {i : SkInsn} {r : SkeinRun} {st : Step}

/-! ### Frames and stores put together -/

theorem issueFrame_trans (h : IssueFrame s u slot p) (h' : IssueFrame u v slot p) : IssueFrame s v slot p := by
  obtain ⟨hsteps, hparts, hobjs, hprogs, hrun, haon, hcoll, hlife, hpower, hgst, hgrants, hrails, hfuncs, hqueues, hjobs⟩ := h
  obtain ⟨hsteps', hparts', hobjs', hprogs', hrun', haon', hcoll', hlife', hpower', hgst', hgrants', hrails', hfuncs', hqueues', hjobs'⟩ := h'
  exact ⟨fun k hk => (hsteps' k hk).trans (hsteps k hk), fun q hq => (hparts' q hq).trans (hparts q hq), hobjs'.trans hobjs,
    hprogs'.trans hprogs, hrun'.trans hrun, haon'.trans haon, hcoll'.trans hcoll, hlife'.trans hlife, hpower'.trans hpower,
    hgst'.trans hgst, hgrants'.trans hgrants, hrails'.trans hrails, hfuncs'.trans hfuncs, hqueues'.trans hqueues, hjobs'.trans hjobs⟩

theorem Aside.issueFrame (h : Aside slot p s u) : IssueFrame s u slot p := by
  obtain ⟨hrest, hpart, hothers, hsteps, -⟩ := h
  refine ⟨hsteps, hothers, by rw [hpart], by rw [hpart], by rw [hpart], ?_⟩
  rw [hrest]
  exact ⟨rfl, rfl, rfl, rfl, rfl, rfl, rfl, rfl, rfl, rfl⟩

theorem PutFrame.issueFrame (h : PutFrame slot p s u) : IssueFrame s u slot p := by
  obtain ⟨hrest, -, hpart, hothers, hsteps, -⟩ := h
  refine ⟨hsteps, hothers, by rw [hpart], by rw [hpart], by rw [hpart], ?_⟩
  rw [hrest]
  exact ⟨rfl, rfl, rfl, rfl, rfl, rfl, rfl, rfl, rfl, rfl⟩

theorem issueFrame_modTile (s : State) (slot p k : Nat) (f : Tile → Tile) : IssueFrame s (s.modTile k f) slot p :=
  ⟨fun _ _ => rfl, fun _ _ => rfl, rfl, rfl, rfl, rfl, rfl, rfl, rfl, rfl, rfl, rfl, rfl, rfl, rfl⟩

theorem Aside.sameStore (h : Aside slot p s u) : SameStore s u := by
  obtain ⟨hrest, hpart, -⟩ := h
  have htile (k : Nat) : u.tile k = s.tile k := by rw [hrest]; rfl
  exact ⟨by rw [hrest], fun k => by rw [htile], fun k => by rw [htile], fun q => by rw [hpart], fun q => by rw [hpart], fun q => by rw [hpart]⟩

theorem Aside.tile (h : Aside slot p s u) (k : Nat) : u.tile k = s.tile k := by
  rw [h.rest]
  rfl

theorem sameStore_modTile (s : State) (k : Nat) (f : Tile → Tile)
    (hf : ∀ x, (f x).scratch = x.scratch ∧ (f x).bufs = x.bufs := by intro _; exact ⟨rfl, rfl⟩) : SameStore s (s.modTile k f) := by
  refine ⟨rfl, fun e => ?_, fun e => ?_, fun _ => rfl, fun _ => rfl, fun _ => rfl⟩ <;> by_cases he : e = k
  · rw [he, tile_modTile_self]
    exact (hf _).1
  · rw [tile_modTile_ne _ _ he]
  · rw [he, tile_modTile_self]
    exact (hf _).2
  · rw [tile_modTile_ne _ _ he]

/-- A change of the parts of a step that no place of a tensor depends on. -/
theorem sameStore_modStep (s : State) (k : Nat) (f : Step → Step) : SameStore s (s.modStep k f) := by
  unfold State.modStep
  split <;> exact ⟨rfl, fun _ => rfl, fun _ => rfl, fun _ => rfl, fun _ => rfl, fun _ => rfl⟩

theorem issueFrame_modStep (s : State) (slot p : Nat) (f : Step → Step) : IssueFrame s (s.modStep slot f) slot p := by
  refine ⟨fun k hk => tfind_modStep_ne s f hk, ?_⟩
  unfold State.modStep
  split <;> exact ⟨fun _ _ => rfl, rfl, rfl, rfl, rfl, rfl, rfl, rfl, rfl, rfl, rfl, rfl, rfl, rfl⟩

theorem tile_modStep' (s : State) (slot : Nat) (f : Step → Step) (k : Nat) : (s.modStep slot f).tile k = s.tile k := by
  unfold State.modStep
  split <;> rfl

/-! ### Stores seen between other states -/

theorem readBits_congr {x y : Source} (hmem : y.mem = x.mem) (hbase : y.base = x.base) (hfixed : y.fixed = x.fixed) (off w : Nat) :
    readBits y off w = readBits x off w := by
  simp only [readBits, hmem, hbase, hfixed]

/-- Bits at a place that can be written read the same where memory is the same. -/
theorem bitsAt_congr (h : SameStore u v) {e : Put} {c : Bool} {a : Nat} (hstart : startBit u t slot st e = some (c, a)) :
    bitsAt v t slot st e = bitsAt u t slot st e := by
  have hhome := home_of_sameStore h slot st e.tensor
  unfold startBit at hstart
  unfold bitsAt
  cases hplace : tensorPlace u slot st e.tensor with
  | fixed bs b y => simp [hplace] at hstart
  | hbm p b =>
    rw [home_eq_hbm.1 (hhome.trans (home_eq_hbm.2 hplace))]
    exact readBits_congr (x := sourceOf u t (.hbm p b)) (y := sourceOf v t (.hbm p b)) h.hbm rfl rfl _ _
  | scratch k i =>
    rw [home_eq_scratch.1 (hhome.trans (home_eq_scratch.2 hplace))]
    rw [hplace] at hstart
    obtain ⟨b, hb, -⟩ := Option.map_eq_some_iff.1 hstart
    have hb' : bufBase (v.tile t) k i = some b := (bufBase_congr (h.bufs t) k i).trans hb
    simp only [sourceOf, bufHome, hb, hb', readBits, h.scratch t]

/-- A tensor that could be written has a place after the writes as well. -/
theorem startBit_of_placed {e : Put} (hprogs : (u.part st.part).progs = (s.part st.part).progs) (hbufs : (u.tile t).bufs = (s.tile t).bufs)
    (h : Claims.Placed s t slot st e.tensor) : ∃ c a, startBit u t slot st e = some (c, a) := by
  obtain ⟨hhbm, hscratch⟩ := home_kind_congr (s := s) (u := u) (slot := slot) (st := st) (i := e.tensor) hprogs
  rcases h with ⟨p, b, hplace, -⟩ | ⟨b, hplace, hb, -⟩
  · obtain ⟨b', hhome⟩ := hhbm p b (home_eq_hbm.2 hplace)
    exact ⟨_, _, startBit_of_hbm hhome⟩
  · exact ⟨_, _, startBit_of_scratch (hscratch _ _ (home_eq_scratch.2 hplace)) ((bufBase_congr hbufs _ _).trans hb)⟩

theorem placed_congr {j : Nat} (h : SameStore s u) : Claims.Placed u t slot st j ↔ Claims.Placed s t slot st j := by
  have hhome := home_of_sameStore h slot st j
  simp only [Claims.Placed, ← home_eq_hbm, ← home_eq_scratch, hhome, h.hbm, h.scratch, bufBase_congr (h.bufs t)]

theorem stores_congr {s' u' : State} {l : List Put} (hs : SameStore s s') (hu : SameStore u u')
    (hprogs : (u.part st.part).progs = (s.part st.part).progs) (hbufs : (u.tile t).bufs = (s.tile t).bufs)
    (h : Stores s u t slot st l) : Stores s' u' t slot st l := by
  have hhome (j : Nat) := home_of_sameStore hu slot st j
  obtain ⟨⟨hhbm, hscratch⟩, hbits⟩ := h
  refine ⟨⟨fun a hout => ?_, fun k a hout => ?_⟩, fun hapart e he hplaced => ?_⟩
  · rw [hu.hbm, hs.hbm]
    exact hhbm a fun e he => (touches_congr (hhome e.tensor)).not.1 (hout e he)
  · rw [hu.scratch, hs.scratch]
    exact hscratch k a fun e he => (touchesScratch_congr (hhome e.tensor) (hu.bufs k)).not.1 (hout e he)
  · have hstart (x : Put) : startBit u' t slot st x = startBit u t slot st x := startBit_congr (hhome x.tensor) (hu.bufs t)
    have hplaced' := (placed_congr hs).1 hplaced
    have hkept := hbits (hapart.imp fun {x y} hxy a b c hb hc => hxy a b c ((hstart x).trans hb) ((hstart y).trans hc)) e he hplaced'
    obtain ⟨c, a, ha⟩ := startBit_of_placed hprogs hbufs hplaced'
    rw [bitsAt_congr hu ha, hkept]

/-! ### What the first issue leaves of memory -/

/-- An issue without a trace record leaves memory (R550). -/
theorem sameStore_noteIssue (t : Nat) (i : SkInsn) (hst : tfind s.steps r.slot = some st) (h : Untraced s r st) :
    SameStore s (noteIssue s t i r st) := by
  have htraced := issueTraced_of_untraced (t := t) hst h
  have hpart (p : Nat) := part_noteIssue t i hst p
  rw [htraced] at hpart
  have hobj (p : Nat) : ((noteIssue s t i r st).part p).objs = (s.part p).objs ∧ ((noteIssue s t i r st).part p).progs = (s.part p).progs
      ∧ ((noteIssue s t i r st).part p).reservs = (s.part p).reservs := by
    rw [hpart]
    split <;> exact ⟨rfl, rfl, rfl⟩
  have htile (k : Nat) : ((noteIssue s t i r st).tile k).scratch = (s.tile k).scratch ∧ ((noteIssue s t i r st).tile k).bufs = (s.tile k).bufs := by
    by_cases hk : k = t
    · rw [hk, tile_noteIssue_self t i hst]
      exact ⟨rfl, rfl⟩
    · rw [tile_noteIssue_ne i hst hk]
      exact ⟨rfl, rfl⟩
  refine ⟨?_, fun k => (htile k).1, fun k => (htile k).2, fun p => (hobj p).1, fun p => (hobj p).2.1, fun p => (hobj p).2.2⟩
  rw [noteIssue_shape t i hst, htraced]

/-! ### A poisoned operand (R62) -/

theorem tileDie_lt (h : t < 2048) : tileDie t < 32 := by
  unfold tileDie
  omega

/-- The code of poisoned stored data of a die (Table Tile-5). -/
theorem code_of_stored {d : Nat} (hd : d < 32) : codeUnit (mkCode 2 d 0x02) = d ∧ codeClass (mkCode 2 d 0x02) = 2 ∧ codeCause (mkCode 2 d 0x02) = 0x02 := by
  have hall : ∀ d : Fin 32, codeUnit (mkCode 2 d 0x02) = d ∧ codeClass (mkCode 2 d 0x02) = 2 ∧ codeCause (mkCode 2 d 0x02) = 0x02 := by decide
  exact hall ⟨d, hd⟩

/-- Poisoned stored data in a tile fails the steps that consumed it and nothing more (Table Faults-5, log 71). -/
theorem contain_stored {c : Code} (s : State) (slots : List Nat) (hunit : codeUnit c < 32) (hcause : codeCause c = 0x02) (ht : t < 2048) :
    contain s { code := c, engine := t, slots } = stepsFailed s { code := c, engine := t, slots } := by
  have hengine : faultEngine { code := c, engine := t, slots } = some t := faultEngine_of_tile hunit (by rw [hcause]; decide)
  have hstays : withdrawnOf (stepsFailed s { code := c, engine := t, slots }) t = 2 ∨ t < 2048 ∧ (codeCause c = 0x02 ∨ codeCause c = 0x0A) :=
    .inr ⟨ht, .inl hcause⟩
  simp only [contain, hengine]
  exact if_pos hstays

/-- R60, R62, R444: a skein that reads a poisoned word fails its step with 0x0C01, and the tile's fault is logged. -/
theorem skeinFault_poisoned {s : State} (hst : tfind s.steps slot = some st) (hopen : Undecided st) (hinit : s.coll.init = true)
    (ht : t < 2048) : FailsWith (skeinFault s t slot 0x02) slot 0x0C01 ∧ mkCode 2 (tileDie t) 0x02 ∈ (skeinFault s t slot 0x02).coll.log := by
  have hdie := tileDie_lt ht
  obtain ⟨hunit, hclass, hcause⟩ := code_of_stored hdie
  have hreport : skeinFault s t slot 0x02 = withIbi s (stepsFailed (latched s { code := mkCode 2 (tileDie t) 0x02, engine := t, slots := [slot] })
      { code := mkCode 2 (tileDie t) 0x02, engine := t, slots := [slot] }) := by
    rw [skeinFault, report_of_init (by simp only [hclass]; decide) (by simp only [hunit]; omega) hinit]
    simp only [reacted, hclass]
    rw [if_neg (by decide), if_true, contain_stored _ _ (by rw [hunit]; exact hdie) hcause ht]
  have hengine : faultEngine { code := mkCode 2 (tileDie t) 0x02, engine := t, slots := [slot] } = some t :=
    faultEngine_of_tile (by simp only [hunit]; exact hdie) (by simp only [hcause]; decide)
  have hmem : slot ∈ faultSteps (latched s { code := mkCode 2 (tileDie t) 0x02, engine := t, slots := [slot] })
      { code := mkCode 2 (tileDie t) 0x02, engine := t, slots := [slot] } := by
    simp [faultSteps, hengine, ht, hcause]
  have hfails := stepsFailed_failsWith hmem (by rw [latched_steps]; exact hst) hopen
  have hcode : faultStatus (mkCode 2 (tileDie t) 0x02) = 0x0C01 := by
    refine faultStatus_eq (fun h => ?_) (fun h => ?_) (by omega)
    · rw [h] at hunit
      have : (39 : Nat) = tileDie t := hunit
      omega
    · rw [h] at hunit
      have : (40 : Nat) = tileDie t := hunit
      omega
  rw [hreport]
  refine ⟨?_, ?_⟩
  · unfold FailsWith
    rw [withIbi_steps, ← hcode]
    exact hfails
  · rw [withIbi_coll, (stepsFailed_calm _ _).collector, latched_coll]
    exact mem_latch_log (by simp only [hclass]; decide)

end Sys2Proof.Machine

/-! PROOFS. VLD and VST (O20). -/

namespace Sys2Proof.Machine

open Sys2Proof.Claims

variable {s u v : State} {t slot p : Nat} {i : SkInsn} {r : SkeinRun} {st : Step}

/-! ### What an issue that writes no record leaves of what is read -/

theorem tensorPlace_congr {n : Nat} {b : Bool} (hpart : u.part st.part = { s.part st.part with lastIssue := n, hangPosted := b })
    (hpoison : u.hbmPoison = s.hbmPoison) (slot j : Nat) : tensorPlace u slot st j = tensorPlace s slot st j := by
  have hfile : stepFile u st = stepFile s st := by rw [stepFile, stepFile, hpart]
  have hsection : fbSection u st = fbSection s st := by rw [fbSection, fbSection, hpart]
  have hin (k : Nat) : inputHandle u st k = inputHandle s st k := by rw [inputHandle, inputHandle, hsection]
  have hout (k : Nat) : outputHandle u st k = outputHandle s st k := by rw [outputHandle, outputHandle, hsection]
  have hinter : interBase u st (stepFile s st) j = interBase s st (stepFile s st) j := by
    simp only [interBase, resvBase, resvOf, hpart]
  have hweights (x : Bobbin) : weightPoison u st.part x = weightPoison s st.part x := by
    rw [weightPoison, weightPoison, hpoison, hpart]
    rfl
  simp only [tensorPlace, hfile, memObj, hin, hout, hinter, hweights, hpart]

/-- A tile that holds no buffer changes nothing for those who look for one elsewhere. -/
theorem findSome?_tput {β : Type} (f : Nat × Tile → Option β) (x : Tile) {k : Nat} (l : Tab Tile) (hnew : f (k, x) = none)
    (hold : f (k, tget l k {}) = none) : (tput l k x).findSome? f = l.findSome? f := by
  induction l with
  | nil => simp [tput, hnew]
  | cons e l ih =>
    obtain ⟨k', y⟩ := e
    unfold tput
    split
    · rw [List.findSome?_cons, hnew]
    · split
      · rename_i heq
        subst heq
        have hy : f (k, y) = none := by simpa only [tget, tfind, if_pos, Option.getD_some] using hold
        rw [List.findSome?_cons, List.findSome?_cons, hnew, hy]
      · rename_i hne
        have hold' : f (k, tget l k {}) = none := by simpa only [tget, tfind, if_neg hne] using hold
        rw [List.findSome?_cons, List.findSome?_cons, ih hold']

/-- What a tile reads of a buffer, its own copy or another's. -/
theorem bufHome_tput {x : Tile} (hbufs : x.bufs = (s.tile t).bufs) (htiles : u.tiles = tput s.tiles t x) (slot j : Nat) :
    bufHome u t slot j = match bufBase (s.tile t) slot j with
      | some b => some (x, b)
      | none => bufHome s t slot j := by
  have hx : u.tile t = x := by rw [State.tile, htiles, tget_tput_self]
  have hbase : bufBase x slot j = bufBase (s.tile t) slot j := bufBase_congr hbufs slot j
  simp only [bufHome, hx, hbase, htiles]
  cases hb : bufBase (s.tile t) slot j with
  | some b => rfl
  | none =>
    refine findSome?_tput _ x s.tiles ?_ ?_
    · rw [hbase, hb]
      rfl
    · exact congrArg (Option.map _) hb

theorem sourceOf_noteIssue (t : Nat) (i : SkInsn) (hst : tfind s.steps r.slot = some st) (h : Untraced s r st) (pl : Place) :
    sourceOf (noteIssue s t i r st) t pl = sourceOf s t pl := by
  have hshape := noteIssue_shape t i hst
  rw [issueTraced_of_untraced (t := t) hst h] at hshape
  generalize noteIssue s t i r st = u at hshape
  cases pl with
  | hbm p b => rw [hshape]; rfl
  | fixed bs b x => rfl
  | scratch slot j =>
    have hhome := bufHome_tput (s := s) (u := u) (t := t) (x := notedTile s t (stepRun r i)) rfl (by rw [hshape]) slot j
    simp only [sourceOf, hhome]
    cases hb : bufBase (s.tile t) slot j with
    | none => rfl
    | some b => simp [bufHome, hb, notedTile]

theorem tensorPlace_noteIssue (t : Nat) (i : SkInsn) (hst : tfind s.steps r.slot = some st) (h : Untraced s r st) (slot j : Nat) :
    tensorPlace (noteIssue s t i r st) slot st j = tensorPlace s slot st j := by
  have htraced := issueTraced_of_untraced (t := t) hst h
  refine tensorPlace_congr (n := time s) (b := false) ?_ ?_ slot j
  · rw [part_noteIssue t i hst, if_pos rfl, htraced]
  · rw [noteIssue_shape t i hst, htraced]

theorem stepFile_noteIssue (t : Nat) (i : SkInsn) (hst : tfind s.steps r.slot = some st) :
    stepFile (noteIssue s t i r st) st = stepFile s st := by
  obtain ⟨-, -, -, hprogs, -⟩ := issueFrame_noteIssue t i hst
  rw [stepFile, stepFile, hprogs]

theorem readView_noteIssue (t : Nat) (i : SkInsn) (hst : tfind s.steps r.slot = some st) (h : Untraced s r st) (slot vi : Nat) :
    readView (noteIssue s t i r st) t slot st vi = readView s t slot st vi := by
  simp only [readView, stepFile_noteIssue t i hst, tensorPlace_noteIssue t i hst h, sourceOf_noteIssue t i hst h]

theorem readStored_noteIssue (t : Nat) (i : SkInsn) (hst : tfind s.steps r.slot = some st) (h : Untraced s r st) (slot vi : Nat) :
    readStored (noteIssue s t i r st) t slot st vi = readStored s t slot st vi := by
  simp only [readStored, stepFile_noteIssue t i hst, tensorPlace_noteIssue t i hst h, sourceOf_noteIssue t i hst h]

/-! ### Random groups -/

/-- The generator of a tile once groups for `n` conversions were drawn in a rounding mode (R102). -/
def lfsrAfter (x : Tile) (rnd n : Nat) : BitVec 32 := if rnd = 2 then (lfsrGroups x.lfsr n).2 else x.lfsr

theorem drawGroups_fst {x : Tile} (hlfsr : x.lfsr = (s.tile t).lfsr) (rnd n : Nat) :
    (drawGroups s t rnd n).1 = if rnd = 2 then (lfsrGroups x.lfsr n).1 else [] := by
  unfold drawGroups
  rw [hlfsr]
  split <;> rfl

theorem drawGroups_shape (s : State) (t rnd n : Nat) :
    (drawGroups s t rnd n).2 = { s with tiles := (drawGroups s t rnd n).2.tiles }
      ∧ (drawGroups s t rnd n).2.tile t = { s.tile t with lfsr := lfsrAfter (s.tile t) rnd n }
      ∧ ∀ k, k ≠ t → (drawGroups s t rnd n).2.tile k = s.tile k := by
  unfold drawGroups lfsrAfter
  split
  · exact ⟨rfl, tile_modTile_self s t _, fun k hk => tile_modTile_ne s _ hk⟩
  · exact ⟨rfl, rfl, fun _ _ => rfl⟩

/-- The tile once its generator has moved on and its run is `r₂`; nothing else has changed. -/
structure RunSet (t : Nat) (r₂ : SkeinRun) (lfsr : BitVec 32) (s u : State) : Prop where
  rest : u = { s with tiles := u.tiles }
  tile : u.tile t = { s.tile t with lfsr, run := some r₂ }
  others : ∀ k, k ≠ t → u.tile k = s.tile k

theorem runSet_draw (s : State) (t rnd n : Nat) (r₂ : SkeinRun) :
    RunSet t r₂ (lfsrAfter (s.tile t) rnd n) s (setRun (drawGroups s t rnd n).2 t r₂) := by
  obtain ⟨hrest, hself, hothers⟩ := drawGroups_shape s t rnd n
  generalize (drawGroups s t rnd n).2 = w at hrest hself hothers
  refine ⟨?_, ?_, fun k hk => (tile_modTile_ne w _ hk).trans (hothers k hk)⟩
  · rw [hrest]
    rfl
  · rw [setRun, tile_modTile_self, hself]

theorem RunSet.sameStore {r₂ : SkeinRun} {l : BitVec 32} (h : RunSet t r₂ l s u) : SameStore s u := by
  obtain ⟨hrest, hself, hothers⟩ := h
  have hpart (p : Nat) : u.part p = s.part p := by rw [hrest]; rfl
  have htile (k : Nat) : (u.tile k).scratch = (s.tile k).scratch ∧ (u.tile k).bufs = (s.tile k).bufs := by
    by_cases hk : k = t
    · rw [hk, hself]
      exact ⟨rfl, rfl⟩
    · rw [hothers k hk]
      exact ⟨rfl, rfl⟩
  exact ⟨by rw [hrest], fun k => (htile k).1, fun k => (htile k).2, fun p => by rw [hpart], fun p => by rw [hpart], fun p => by rw [hpart]⟩

theorem RunSet.issueFrame {r₂ : SkeinRun} {l : BitVec 32} (h : RunSet t r₂ l s u) (slot p : Nat) : IssueFrame s u slot p := by
  have hpart (q : Nat) : u.part q = s.part q := by rw [h.rest]; rfl
  refine ⟨fun k _ => by rw [h.rest], fun q _ => hpart q, by rw [hpart], by rw [hpart], by rw [hpart], ?_⟩
  rw [h.rest]
  exact ⟨rfl, rfl, rfl, rfl, rfl, rfl, rfl, rfl, rfl, rfl⟩

/-! ### VLD -/

/-- The values of a load, with their status (R118). -/
def loadOuts (c lane rnd : Nat) (gs : List Nat) (int : Bool) (es : List (Nat × Nat × Bool)) : List (Nat × Nat) :=
  es.zipIdx.map fun e => loadWord c lane rnd (nth gs e.2 0) int e.1.1 e.1.2.1

/-- The run once a load has written its register. -/
def loadRun (r : SkeinRun) (v lane : Nat) (outs : List (Nat × Nat)) : SkeinRun :=
  orConv (setVreg (vecRun r) v (ofLanes lane (outs.map (·.1)))) (outs.foldl (fun a e => orS a e.2) 0)

/-- The rounding mode for which a conversion between a tensor's format and a lane draws. -/
def drawMode (c lane rnd : Nat) : Nat := if c = laneFmt lane then 0 else rnd

/-- The state once a load has ended (R53, R322). -/
def loadDone (s : State) (t slot : Nat) (st : Step) (r : SkeinRun) (a v lane rnd : Nat) : State :=
  let i := (viewOf (stepFile s st) a).tensor
  let c := (tensorOf (stepFile s st) i).format
  let es := readView s t slot st a
  let q := drawGroups s t (drawMode c lane rnd) es.length
  let u := count (setRun q.2 t (loadRun r v lane (loadOuts c lane rnd q.1 (st.intWords.contains i) es))) st.part 0x05 es.length
  moved u t slot st a (bitsLen (readStored u t slot st a)) false

theorem inject_noteIssue (t : Nat) (i : SkInsn) (hst : tfind s.steps r.slot = some st) (h : s.coll.inject = []) :
    (noteIssue s t i r st).coll.inject = [] := by
  rw [noteIssue_shape t i hst]
  exact h

theorem exec_vld {s : State} {t a v lane rnd : Nat} {r : SkeinRun} {st : Step} (h : Issues s t (.vld a v lane rnd) r st) :
    exec (.vld t a v lane rnd) s = .next
      (if (readView (noteIssue s t (.vld a v lane rnd) r st) t r.slot st a).any (·.2.2)
        then skeinFault (noteIssue s t (.vld a v lane rnd) r st) t r.slot 0x02
        else loadDone (noteIssue s t (.vld a v lane rnd) r st) t r.slot st r a v lane rnd) := by
  obtain ⟨-, -, hst, hcalm⟩ := id h
  refine (skein_of_issues [3] _ h : execVld t a v lane rnd s = _).trans ?_
  rw [guarded_of_calm (inject_noteIssue t _ hst hcalm), stepRun_vector r rfl rfl rfl]
  refine congrArg _ (if_congr Iff.rfl rfl ?_)
  simp only [loadDone, drawMode, beq_iff_eq]
  rfl

/-- What a load does: it writes its register and its status, moves the generator, and leaves memory. -/
theorem loadDone_spec {s : State} (hcalm : s.coll.inject = []) (t slot : Nat) (st : Step) (r : SkeinRun) (a v lane rnd : Nat)
    (es : List (Nat × Nat × Bool)) (hes : readView s t slot st a = es) (i c : Nat) (hi : (viewOf (stepFile s st) a).tensor = i)
    (hc : (tensorOf (stepFile s st) i).format = c) : ∃ gs u, loadDone s t slot st r a v lane rnd = u
      ∧ gs = (if drawMode c lane rnd = 2 then (lfsrGroups (s.tile t).lfsr es.length).1 else [])
      ∧ u.tile t = { s.tile t with lfsr := lfsrAfter (s.tile t) (drawMode c lane rnd) es.length
                                   run := some (loadRun r v lane (loadOuts c lane rnd gs (st.intWords.contains i) es)) }
      ∧ (∀ k, k ≠ t → u.tile k = s.tile k) ∧ u.hbm = s.hbm ∧ IssueFrame s u slot st.part := by
  subst hc hi hes
  refine ⟨_, _, rfl, rfl, ?_⟩
  simp only [loadDone]
  rw [drawGroups_fst (x := s.tile t) rfl]
  have hset := runSet_draw s t (drawMode (tensorOf (stepFile s st) (viewOf (stepFile s st) a).tensor).format lane rnd)
    (readView s t slot st a).length (loadRun r v lane (loadOuts (tensorOf (stepFile s st) (viewOf (stepFile s st) a).tensor).format lane rnd
      (if drawMode (tensorOf (stepFile s st) (viewOf (stepFile s st) a).tensor).format lane rnd = 2
        then (lfsrGroups (s.tile t).lfsr (readView s t slot st a).length).1 else [])
      (st.intWords.contains (viewOf (stepFile s st) a).tensor) (readView s t slot st a)))
  generalize setRun _ t _ = w at hset ⊢
  have hcount := Aside.count slot st.part w 0x05 (readView s t slot st a).length
  generalize count w st.part 0x05 (readView s t slot st a).length = w' at hcount ⊢
  have hcalm' : w'.coll.inject = [] := by
    rw [hcount.rest, hset.rest]
    exact hcalm
  have haside := hcount.trans (moved_aside hcalm' t slot st a (bitsLen (readStored w' t slot st a)) false)
  refine ⟨(haside.tile t).trans hset.tile, fun k hk => (haside.tile k).trans (hset.others k hk), ?_,
    issueFrame_trans (hset.issueFrame slot st.part) haside.issueFrame⟩
  rw [haside.sameStore.hbm, hset.sameStore.hbm]

theorem zipIdx_map_fst {α β : Type} (l : List α) (f : α → β) : (l.zipIdx.map fun e => f e.1) = l.map f := by
  have hfst := congrArg (List.map f) (List.zipIdx_map_fst 0 l)
  rwa [List.map_map] at hfst

theorem status_of_zeros (l : List (Nat × Nat)) (h : ∀ e ∈ l, e.2 = 0) : l.foldl (fun a e => orS a e.2) 0 = 0 := by
  induction l with
  | nil => rfl
  | cons e l ih =>
    rw [List.foldl_cons, h e (.head l)]
    exact ih fun e' he' => h e' (.tail e he')

/-- Bits of the lane's own format go as they are. -/
theorem loadOuts_same {c lane : Nat} (rnd : Nat) (gs : List Nat) {int : Bool} (es : List (Nat × Nat × Bool)) (hc : c = laneFmt lane)
    (hint : ¬ (c = 0 ∧ int = true)) : loadOuts c lane rnd gs int es = es.map fun e => (e.1, 0) := by
  have hword (g b sc : Nat) : loadWord c lane rnd g int b sc = (b, 0) := by
    have hno : ¬ ((int && c == 0) = true) := by simpa [and_comm] using hint
    rw [loadWord, if_pos hc, if_neg hno]
  simp only [loadOuts, hword]
  exact zipIdx_map_fst es fun e => (e.1, 0)

/-- Accumulator words of INT32 become FP32 (R118). -/
theorem loadOuts_int {lane : Nat} (rnd : Nat) (gs : List Nat) (es : List (Nat × Nat × Bool)) (hlane : laneFmt lane = 0) :
    loadOuts 0 lane rnd gs true es = es.map fun e => convElem 0 0 0 false (ofInt (BitVec.ofNat 32 e.1).toInt 0) := by
  have hword (g b sc : Nat) : loadWord 0 lane rnd g true b sc = convElem 0 0 0 false (ofInt (BitVec.ofNat 32 b).toInt 0) := by
    rw [loadWord, if_pos hlane.symm, if_pos (by decide)]
  simp only [loadOuts, hword]
  exact zipIdx_map_fst es fun e => convElem 0 0 0 false (ofInt (BitVec.ofNat 32 e.1).toInt 0)

/-- Another format is converted (R99). -/
theorem loadOuts_conv {c lane : Nat} (rnd : Nat) (gs : List Nat) (int : Bool) (es : List (Nat × Nat × Bool)) (hc : c ≠ laneFmt lane) :
    loadOuts c lane rnd gs int es
      = es.zipIdx.map fun e => convElem (laneFmt lane) rnd (nth gs e.2 0) false (decElem c e.1.1 e.1.2.1) := by
  simp only [loadOuts, loadWord, if_neg hc]

theorem vreg_loadRun_self (r : SkeinRun) (v lane : Nat) (outs : List (Nat × Nat)) :
    vreg (loadRun r v lane outs) v = ofLanes lane (outs.map (·.1)) := vreg_setVreg_self (vecRun r) v _

theorem vreg_loadRun_ne {v e : Nat} (r : SkeinRun) (lane : Nat) (outs : List (Nat × Nat)) (he : e ≠ v) :
    vreg (loadRun r v lane outs) e = vreg r e := vreg_setVreg_ne (vecRun r) _ he

/-- A load whose view holds no poison. -/
theorem vld_clean {s : State} {t a v lane rnd : Nat} {r : SkeinRun} {st : Step} (h : Issues s t (.vld a v lane rnd) r st)
    (es : List (Nat × Nat × Bool)) (hes : readView (noteIssue s t (.vld a v lane rnd) r st) t r.slot st a = es)
    (hclean : es.any (·.2.2) = false) (i c : Nat) (hi : (viewOf (stepFile s st) a).tensor = i) (hc : (tensorOf (stepFile s st) i).format = c) :
    ∃ u gs, exec (.vld t a v lane rnd) s = .next u
      ∧ gs = (if drawMode c lane rnd = 2 then (lfsrGroups (s.tile t).lfsr es.length).1 else [])
      ∧ (u.tile t).run = some (loadRun r v lane (loadOuts c lane rnd gs (st.intWords.contains i) es))
      ∧ (u.tile t).lfsr = lfsrAfter (s.tile t) (drawMode c lane rnd) es.length ∧ (u.tile t).scratch = (s.tile t).scratch
      ∧ (∀ k, k ≠ t → u.tile k = s.tile k) ∧ u.hbm = (noteIssue s t (.vld a v lane rnd) r st).hbm ∧ IssueFrame s u r.slot st.part := by
  obtain ⟨-, -, hst, hcalm⟩ := id h
  have hexec := exec_vld h
  have hframe := issueFrame_noteIssue t (.vld a v lane rnd) hst
  have htile := tile_noteIssue_self t (.vld a v lane rnd) hst
  have htiles (k : Nat) (hk : k ≠ t) := tile_noteIssue_ne (.vld a v lane rnd) hst hk
  have hfile := stepFile_noteIssue t (.vld a v lane rnd) hst
  have hcalm' := inject_noteIssue t (.vld a v lane rnd) hst hcalm
  rw [hes, if_neg (by simp [hclean])] at hexec
  generalize noteIssue s t (.vld a v lane rnd) r st = w at hexec hframe htile htiles hfile hcalm' hes ⊢
  obtain ⟨gs, u, hdone, hgs, hself, hothers, hhbm, hframe'⟩ := loadDone_spec hcalm' t r.slot st r a v lane rnd es hes i c
    (by rw [hfile, hi]) (by rw [hfile, hc])
  rw [htile] at hgs hself
  refine ⟨u, gs, hexec.trans (by rw [hdone]), hgs, by rw [hself], by rw [hself]; rfl, by rw [hself]; rfl,
    fun k hk => (hothers k hk).trans (htiles k hk), hhbm, issueFrame_trans hframe hframe'⟩

/-- R118: what a load leaves in its register, by the formats of the tensor and the lane. -/
theorem vld_values {c lane rnd v i : Nat} {r r' : SkeinRun} {st : Step} {x : Tile} {l : BitVec 32} {gs : List Nat}
    {es : List (Nat × Nat × Bool)} (hgs : gs = if drawMode c lane rnd = 2 then (lfsrGroups x.lfsr es.length).1 else [])
    (hr' : r' = loadRun r v lane (loadOuts c lane rnd gs (st.intWords.contains i) es))
    (hl : l = lfsrAfter x (drawMode c lane rnd) es.length) :
    (c = laneFmt lane → ¬ (c = 0 ∧ i ∈ st.intWords) → vreg r' v = ofLanes lane (es.map (·.1)) ∧ r'.conv = r.conv ∧ l = x.lfsr)
    ∧ (c = 0 → laneFmt lane = 0 → i ∈ st.intWords → vreg r' v = ofLanes lane (es.map fun e =>
        (convElem 0 0 0 false (ofInt (BitVec.ofNat 32 e.1).toInt 0)).1) ∧ l = x.lfsr)
    ∧ (c ≠ laneFmt lane → rnd ≠ 2 → vreg r' v = ofLanes lane (es.map fun e =>
        (convElem (laneFmt lane) rnd 0 false (decElem c e.1 e.2.1)).1) ∧ l = x.lfsr)
    ∧ (c ≠ laneFmt lane → rnd = 2 → vreg r' v = ofLanes lane (es.zipIdx.map fun e =>
        (convElem (laneFmt lane) 2 (nth (lfsrGroups x.lfsr es.length).1 e.2 0) false (decElem c e.1.1 e.1.2.1)).1)
        ∧ l = (lfsrGroups x.lfsr es.length).2) := by
  subst hr' hl
  rw [vreg_loadRun_self]
  refine ⟨fun hc hint => ?_, fun hc hlane hint => ?_, fun hc hrnd => ?_, fun hc hrnd => ?_⟩
  · have hmode : drawMode c lane rnd = 0 := if_pos hc
    have hno : ¬ (c = 0 ∧ st.intWords.contains i = true) := by simpa using hint
    have hzeros : ∀ e ∈ es.map fun e => (e.1, 0), e.2 = 0 := fun e he => by
      obtain ⟨x, -, rfl⟩ := List.mem_map.1 he
      rfl
    rw [loadOuts_same rnd gs es hc hno, hmode, loadRun, status_of_zeros _ hzeros]
    exact ⟨by simp [List.map_map, Function.comp_def], by simp [orConv, setVreg, vecRun, consumed], rfl⟩
  · subst hc
    have hmode : drawMode 0 lane rnd = 0 := if_pos hlane.symm
    have hyes : st.intWords.contains i = true := by simpa using hint
    rw [hyes, loadOuts_int rnd gs es hlane, List.map_map, hmode]
    exact ⟨rfl, rfl⟩
  · have hmode : drawMode c lane rnd = rnd := if_neg hc
    rw [hmode, if_neg hrnd] at hgs
    have hzero (k : Nat) : nth ([] : List Nat) k 0 = 0 := rfl
    rw [loadOuts_conv rnd gs _ es hc, hgs, hmode, List.map_map, lfsrAfter, if_neg hrnd]
    simp only [hzero]
    exact ⟨congrArg _ (zipIdx_map_fst es fun e => (convElem (laneFmt lane) rnd 0 false (decElem c e.1 e.2.1)).1), trivial⟩
  · subst hrnd
    have hmode : drawMode c lane 2 = 2 := if_neg hc
    rw [hmode, if_pos rfl] at hgs
    rw [loadOuts_conv 2 gs _ es hc, hgs, hmode, List.map_map, lfsrAfter, if_pos rfl]
    exact ⟨rfl, rfl⟩

theorem vld_loads {s : State} {t a v lane rnd : Nat} {r : SkeinRun} {st : Step} (h : Issues s t (.vld a v lane rnd) r st)
    (hclean : (readView (noteIssue s t (.vld a v lane rnd) r st) t r.slot st a).any (·.2.2) = false) :
    ∃ u r', exec (.vld t a v lane rnd) s = .next u ∧ (u.tile t).run = some r' ∧ IssueFrame s u r.slot st.part
      ∧ (∀ k, k ≠ t → u.tile k = s.tile k) ∧ (u.tile t).scratch = (s.tile t).scratch
      ∧ u.hbm = (noteIssue s t (.vld a v lane rnd) r st).hbm
      ∧ (∀ e, e ≠ v → vreg r' e = vreg r e) ∧ r' = { vecRun r with vregs := r'.vregs, conv := r'.conv } := by
  obtain ⟨u, gs, hexec, -, hrun, -, hscratch, hothers, hhbm, hframe⟩ := vld_clean h _ rfl hclean _ _ rfl rfl
  exact ⟨u, _, hexec, hrun, hframe, hothers, hscratch, hhbm, fun e he => vreg_loadRun_ne r lane _ he, rfl⟩

theorem vld_untraced {s : State} {t a v lane rnd : Nat} {r : SkeinRun} {st : Step} (h : Issues s t (.vld a v lane rnd) r st)
    (hquiet : Untraced s r st) (es : List (Nat × Nat × Bool)) (hes : readView s t r.slot st a = es)
    (hclean : es.any (·.2.2) = false) (i c : Nat) (hi : (viewOf (stepFile s st) a).tensor = i) (hc : (tensorOf (stepFile s st) i).format = c) :
    ∃ u r', exec (.vld t a v lane rnd) s = .next u ∧ (u.tile t).run = some r' ∧ IssueFrame s u r.slot st.part
      ∧ (∀ k, k ≠ t → u.tile k = s.tile k) ∧ u.hbm = s.hbm ∧ (u.tile t).scratch = (s.tile t).scratch
      ∧ (∀ e, e ≠ v → vreg r' e = vreg r e) ∧ r' = { vecRun r with vregs := r'.vregs, conv := r'.conv }
      ∧ (c = laneFmt lane → ¬ (c = 0 ∧ i ∈ st.intWords) → vreg r' v = ofLanes lane (es.map (·.1)) ∧ r'.conv = r.conv
          ∧ (u.tile t).lfsr = (s.tile t).lfsr)
      ∧ (c = 0 → laneFmt lane = 0 → i ∈ st.intWords → vreg r' v = ofLanes lane (es.map fun e =>
          (convElem 0 0 0 false (ofInt (BitVec.ofNat 32 e.1).toInt 0)).1) ∧ (u.tile t).lfsr = (s.tile t).lfsr)
      ∧ (c ≠ laneFmt lane → rnd ≠ 2 → vreg r' v = ofLanes lane (es.map fun e =>
          (convElem (laneFmt lane) rnd 0 false (decElem c e.1 e.2.1)).1) ∧ (u.tile t).lfsr = (s.tile t).lfsr)
      ∧ (c ≠ laneFmt lane → rnd = 2 → vreg r' v = ofLanes lane (es.zipIdx.map fun e =>
          (convElem (laneFmt lane) 2 (nth (lfsrGroups (s.tile t).lfsr es.length).1 e.2 0) false (decElem c e.1.1 e.1.2.1)).1)
          ∧ (u.tile t).lfsr = (lfsrGroups (s.tile t).lfsr es.length).2) := by
  obtain ⟨-, -, hst, -⟩ := id h
  have hread := (readView_noteIssue t (.vld a v lane rnd) hst hquiet r.slot a).trans hes
  obtain ⟨u, gs, hexec, hgs, hrun, hlfsr, hscratch, hothers, hhbm, hframe⟩ := vld_clean h es hread hclean i c hi hc
  exact ⟨u, _, hexec, hrun, hframe, hothers, hhbm.trans (sameStore_noteIssue t _ hst hquiet).hbm, hscratch,
    fun e he => vreg_loadRun_ne r lane _ he, rfl, vld_values hgs rfl hlfsr⟩

theorem undecided_notedStep (s : State) (i : SkInsn) (r : SkeinRun) (h : Undecided st) : Undecided (notedStep s i r st) := h

theorem vld_poisoned {s : State} {t a v lane rnd : Nat} {r : SkeinRun} {st : Step} (h : Issues s t (.vld a v lane rnd) r st)
    (hopen : Undecided st) (hbad : (readView (noteIssue s t (.vld a v lane rnd) r st) t r.slot st a).any (·.2.2) = true)
    (hinit : s.coll.init = true) (ht : t < 2048) :
    ∃ u, exec (.vld t a v lane rnd) s = .next u ∧ FailsWith u r.slot 0x0C01 ∧ mkCode 2 (tileDie t) 0x02 ∈ u.coll.log := by
  obtain ⟨-, -, hst, -⟩ := id h
  have hinit' : (noteIssue s t (.vld a v lane rnd) r st).coll.init = true := by
    rw [noteIssue_shape t _ hst]
    exact hinit
  exact ⟨_, (exec_vld h).trans (by rw [if_pos hbad]),
    skeinFault_poisoned (tfind_noteIssue_self t _ hst) (undecided_notedStep s _ r hopen) hinit' ht⟩

/-! ### Operations that write views -/

theorem stores_notedStep {l : List Put} : Stores u v t slot (notedStep s i r st) l ↔ Stores u v t slot st l := Iff.rfl

/-- What follows the writes of an operation: the words noted, the watch, the traffic. -/
structure Settled (slot p : Nat) (s u : State) : Prop where
  store : SameStore s u
  frame : IssueFrame s u slot p
  tile : ∀ k, u.tile k = s.tile k

theorem Settled.trans (h : Settled slot p s u) (h' : Settled slot p u v) : Settled slot p s v :=
  ⟨h.store.trans h'.store, issueFrame_trans h.frame h'.frame, fun k => (h'.tile k).trans (h.tile k)⟩

theorem Aside.settled (h : Aside slot p s u) : Settled slot p s u := ⟨h.sameStore, h.issueFrame, h.tile⟩

theorem settled_modStep (s : State) (slot p : Nat) (f : Step → Step) : Settled slot p s (s.modStep slot f) :=
  ⟨sameStore_modStep s slot f, issueFrame_modStep s slot p f, tile_modStep' s slot f⟩

theorem settled_refl (slot p : Nat) (s : State) : Settled slot p s s := (Aside.refl slot p s).settled

theorem settled_watchOp (hst : tfind s.steps slot = some st) (j : Nat) (vals : List Val) (puts : List Put) :
    Settled slot st.part s (watchOp s slot j vals puts) := by
  simp only [watchOp, hst]
  split
  · exact settled_refl slot st.part s
  · have hkept (f : Part → Part) (hf : ∀ x, f x = { x with watchAcc := (f x).watchAcc }) : Settled slot st.part s (s.modPart st.part f) := by
      have hpart (q : Nat) : ((s.modPart st.part f).part q).objs = (s.part q).objs ∧ ((s.modPart st.part f).part q).progs = (s.part q).progs
          ∧ ((s.modPart st.part f).part q).reservs = (s.part q).reservs ∧ ((s.modPart st.part f).part q).running = (s.part q).running := by
        by_cases hq : q = st.part
        · rw [hq, part_modPart_self, hf]
          exact ⟨rfl, rfl, rfl, rfl⟩
        · rw [part_modPart_ne _ _ hq]
          exact ⟨rfl, rfl, rfl, rfl⟩
      obtain ⟨hobjs, hprogs, -, hrun⟩ := hpart st.part
      exact ⟨⟨rfl, fun _ => rfl, fun _ => rfl, fun q => (hpart q).1, fun q => (hpart q).2.1, fun q => (hpart q).2.2.1⟩,
        ⟨fun _ _ => rfl, fun q hq => part_modPart_ne s _ hq, hobjs, hprogs, hrun, rfl, rfl, rfl, rfl, rfl, rfl, rfl, rfl, rfl, rfl⟩, fun _ => rfl⟩
    exact hkept _ fun _ => rfl

/-- The writes of one tensor in object space are one write of bits there. -/
theorem PutsLaid.hbm_of_one {l : List Put} {j b : Nat} (hst : tfind s.steps slot = some st) (hone : ∀ e ∈ l, e.tensor = j)
    (hhome : home (putAll s t slot l) slot st j = .hbm p b) :
    (putAll s t slot l).hbm = mbits s.hbm (hbmAddr p b) (l.map fun e => (e.off, e.width, e.val)) := by
  rw [putAll_eq t l hst] at hhome ⊢
  cases l with
  | nil => rfl
  | cons e l =>
    have hds : ((e :: l).map (·.tensor)).dedup = [j] := by
      have hrep : (e :: l).map (·.tensor) = List.replicate (l.length + 1) j :=
        List.eq_replicate_iff.2 ⟨by simp, fun x hx => by
          obtain ⟨y, hy, rfl⟩ := List.mem_map.1 hx
          exact hone y hy⟩
      rw [hrep]
      exact List.replicate_dedup (Nat.succ_ne_zero _)
    have hall : entriesOf (e :: l) j = (e :: l).map fun e => (e.off, e.width, e.val) := by
      rw [entriesOf, List.filter_eq_self.2 fun x hx => beq_iff_eq.2 (hone x hx)]
    rw [hds] at hhome ⊢
    have hput := (putTensor_put t slot st (e :: l) s j).hbm
    rw [hall] at hput
    exact hput.trans (by rw [show home (putTensor t slot st (e :: l) s j) slot st j = .hbm p b from hhome]; rfl)

/-- A state from which an operation of the step in `slot` on tile `t` makes its writes: the run is `r₂`, and memory, the step's places
and all else are those of `n`. -/
structure Ready (t slot : Nat) (st : Step) (r₂ : SkeinRun) (n w : State) : Prop where
  store : SameStore n w
  frame : IssueFrame n w slot st.part
  run : (w.tile t).run = some r₂
  others : ∀ k, k ≠ t → SameWork (w.tile k) (n.tile k)
  step : ∃ st₁, tfind w.steps slot = some st₁ ∧ (∀ v j, tensorPlace v slot st₁ j = tensorPlace v slot st j) ∧ st₁.part = st.part

/-- What an operation that writes a view comes to: the writes and nothing else, and the run that it leaves (R53). -/
theorem puts_ready {s w u : State} {t : Nat} {i : SkInsn} {r r₂ : SkeinRun} {st : Step} {puts : List Put}
    (hst : tfind s.steps r.slot = some st) (hready : Ready t r.slot st r₂ (noteIssue s t i r st) w)
    (hafter : Settled r.slot st.part (putAll w t r.slot puts) u) :
    IssueFrame s u r.slot st.part ∧ Stores (noteIssue s t i r st) u t r.slot st puts
      ∧ (Untraced s r st → Stores s u t r.slot st puts) ∧ (u.tile t).run = some r₂ ∧ (∀ k, k ≠ t → SameWork (u.tile k) (s.tile k))
      ∧ ∀ j p b, (∀ e ∈ puts, e.tensor = j) → tensorPlace u r.slot st j = .hbm p b →
        u.hbm = mbits (noteIssue s t i r st).hbm (hbmAddr p b) (puts.map fun e => (e.off, e.width, e.val)) := by
  have hnoted := issueFrame_noteIssue t i hst
  have hquiet (h : Untraced s r st) := sameStore_noteIssue t i hst h
  have htiles (k : Nat) (hk : k ≠ t) := tile_noteIssue_ne i hst hk
  generalize noteIssue s t i r st = n at hready hnoted hquiet htiles ⊢
  obtain ⟨hstore, hframe, hrun₂, hothers, st₁, hstep, hplaces, hpart⟩ := hready
  have hlaid := putAll_laid t puts hstep
  have hone (j p b : Nat) (hj : ∀ e ∈ puts, e.tensor = j) := PutsLaid.hbm_of_one (t := t) (p := p) (b := b) hstep hj
  generalize putAll w t r.slot puts = m at hlaid hafter hone
  have hprogs : ∀ q, (m.part q).progs = (n.part q).progs := fun q => by rw [hlaid.frame.part, ← hstore.progs]
  have hbufs : (m.tile t).bufs = (w.tile t).bufs := by
    obtain ⟨-, -, hb, -⟩ := hlaid.frame.work t
    exact hb
  have hnstores : Stores w m t r.slot st puts := by
    have h := hlaid.stores
    simp only [Stores, StoresOnly, Apart, Claims.Placed, Touches, TouchesScratch, bitsAt, startBit, hplaces] at h ⊢
    exact h
  have hmid : Stores n m t r.slot st puts := stores_congr hstore.symm (.refl m) (by rw [hlaid.frame.part]) hbufs hnstores
  have hstores : Stores n u t r.slot st puts :=
    stores_congr (.refl n) hafter.store (hprogs st.part) (hbufs.trans (hstore.bufs t)) hmid
  refine ⟨?_, hstores, fun h => ?_, ?_, fun k hk => ?_, fun j p b hj hplace => ?_⟩
  · exact issueFrame_trans (issueFrame_trans (issueFrame_trans hnoted hframe) (hpart ▸ hlaid.frame.issueFrame)) hafter.frame
  · refine stores_congr (hquiet h).symm (.refl u) ?_ ?_ hstores
    · rw [hafter.store.progs, hprogs]
    · rw [hafter.store.bufs, hbufs, hstore.bufs]
  · obtain ⟨hrun, -⟩ := hlaid.frame.work t
    rw [hafter.tile, hrun, hrun₂]
  · rw [hafter.tile, ← htiles k hk]
    exact sameWork_trans (hlaid.frame.work k) (hothers k hk)
  · have hhome : home m r.slot st₁ j = .hbm p b := by
      rw [home_eq_hbm, hplaces, ← home_eq_hbm, ← home_of_sameStore hafter.store]
      exact home_eq_hbm.2 hplace
    rw [hafter.store.hbm, hone j p b hj hhome, hstore.hbm]

/-- A run set after the issue, and the generator moved on, leave all else to the writes. -/
theorem RunSet.ready {r₂ : SkeinRun} {lfsr : BitVec 32} {w : State} (hst : tfind s.steps r.slot = some st)
    (h : RunSet t r₂ lfsr (noteIssue s t i r st) w) : Ready t r.slot st r₂ (noteIssue s t i r st) w where
  store := h.sameStore
  frame := h.issueFrame r.slot st.part
  run := by rw [h.tile]
  others k hk := by
    rw [h.others k hk]
    exact sameWork_refl _
  step := by
    refine ⟨notedStep s i r st, ?_, fun _ _ => rfl, rfl⟩
    rw [h.rest]
    exact tfind_noteIssue_self t i hst

/-- What is only accounted for leaves all else to the writes. -/
theorem Ready.aside {r₂ : SkeinRun} {n w w' : State} (h : Ready t slot st r₂ n w) (h' : Aside slot st.part w w') : Ready t slot st r₂ n w' where
  store := h.store.trans h'.sameStore
  frame := issueFrame_trans h.frame h'.issueFrame
  run := (congrArg Tile.run (h'.tile t)).trans h.run
  others k hk := (h'.tile k).symm ▸ h.others k hk
  step := by
    obtain ⟨st₁, hstep, hplaces, hpart⟩ := h.step
    obtain ⟨b, hb⟩ := h'.step _ hstep
    exact ⟨_, hb, fun v j => hplaces v j, hpart⟩

/-- The issue itself leaves all else to the writes. -/
theorem ready_noteIssue (t : Nat) (i : SkInsn) (hst : tfind s.steps r.slot = some st) :
    Ready t r.slot st (stepRun r i) (noteIssue s t i r st) (noteIssue s t i r st) where
  store := .refl _
  frame := (Aside.refl r.slot st.part _).issueFrame
  run := by
    rw [tile_noteIssue_self t i hst]
    rfl
  others _ _ := sameWork_refl _
  step := ⟨_, tfind_noteIssue_self t i hst, fun _ _ => rfl, rfl⟩

/-! ### VST -/

/-- What a store writes (R53, R106, R128). -/
def storeOf (x : Upf.Tensor) (w : Upf.View) (lane rnd : Nat) (sat compress : Bool) (gs vs : List Nat) : Stored :=
  if compress then storeSparse x w lane rnd sat gs vs
  else if isBlock x.format then storeBlocks x w.tensor (blockLen x.format) lane rnd gs vs
    ((coords w).map fun c => (linIdx x c * fmtBits x.format, scaleIdx x c))
  else storePlain x w lane rnd sat gs vs

/-- The writes of a store, with those of the maps. -/
def storePuts (x : Upf.Tensor) (w : Upf.View) (maps : Bool) (o : Stored) : List Put := o.puts ++ (if maps then mapPuts x w o.vals else [])

/-- What a store does once the instruction has issued. -/
def storeDone (s : State) (t slot : Nat) (st : Step) (r : SkeinRun) (d v lane rnd : Nat) (sat compress maps : Bool) : State :=
  let f := stepFile s st
  let w := viewOf f d
  let x := tensorOf f w.tensor
  let vs := (laneVals lane (vreg r v)).take (viewCount w)
  let q := drawGroups s t (drawMode x.format lane rnd) (if compress then vs.length / 2 else vs.length)
  let o := storeOf x w lane rnd sat compress q.1 vs
  let s := putAll (setRun q.2 t (orConv r o.conv)) t slot (storePuts x w maps o)
  let s := noteWords (watchOp s slot w.tensor o.vals o.puts) slot w.tensor false
  moved (count s st.part 0x05 vs.length) t slot st d (ceilDiv (sumNat (o.puts.map (·.width))) 8) true

theorem exec_vst {s : State} {t d v lane rnd : Nat} {sat compress maps : Bool} {r : SkeinRun} {st : Step}
    (h : Issues s t (.vst d v lane rnd sat compress maps) r st) : exec (.vst t d v lane rnd sat compress maps) s = .next
      (storeDone (noteIssue s t (.vst d v lane rnd sat compress maps) r st) t r.slot st (vecRun r) d v lane rnd sat compress maps) := by
  refine (skein_of_issues [3] _ h : execVst t d v lane rnd sat compress maps s = _).trans ?_
  rw [stepRun_vector r rfl rfl rfl]
  rfl

/-- The watch of an operation and its note of words change no memory (R118, R560). -/
theorem settled_words {m : State} {st₁ : Step} (hst : tfind m.steps slot = some st₁) (hpart : st₁.part = st.part)
    (j k : Nat) (int : Bool) (vals : List Val) (puts : List Put) :
    Settled slot st.part m (noteWords (watchOp m slot j vals puts) slot k int) := by
  have hwatch := settled_watchOp hst j vals puts
  rw [hpart] at hwatch
  exact hwatch.trans (settled_modStep _ slot st.part _)

/-- What follows the writes of an operation and its note of words. -/
theorem Settled.moved {m w : State} (h : Settled slot st.part m w) (hcalm : m.coll.inject = []) (t d k : Nat) (write : Bool) :
    Settled slot st.part m (moved w t slot st d k write) := by
  have hcalm' : w.coll.inject = [] := by
    obtain ⟨-, -, -, -, -, -, hcoll, -⟩ := h.frame
    rw [hcoll]
    exact hcalm
  exact h.trans (moved_aside hcalm' t slot st d k write).settled

/-- A store is its writes, from a state in which only its run has changed, and what changes no memory. -/
theorem storeDone_settled {n : State} {st₁ : Step} (hst : tfind n.steps slot = some st₁) (hpart : st₁.part = st.part)
    (hcalm : n.coll.inject = []) (t : Nat) (r : SkeinRun) (d v lane rnd : Nat) (sat compress maps : Bool) (w : Upf.View)
    (hw : viewOf (stepFile n st) d = w) (x : Upf.Tensor) (hx : tensorOf (stepFile n st) w.tensor = x) (vs : List Nat)
    (hvs : (laneVals lane (vreg r v)).take (viewCount w) = vs) (o : Stored) (ho : storeOf x w lane rnd sat compress
      (drawGroups n t (drawMode x.format lane rnd) (if compress then vs.length / 2 else vs.length)).1 vs = o) :
    ∃ lfsr m, RunSet t (orConv r o.conv) lfsr n m
      ∧ Settled slot st.part (putAll m t slot (storePuts x w maps o)) (storeDone n t slot st r d v lane rnd sat compress maps) := by
  have hset := runSet_draw n t (drawMode x.format lane rnd) (if compress then vs.length / 2 else vs.length) (orConv r o.conv)
  refine ⟨_, _, hset, ?_⟩
  subst ho hvs hx hw
  simp only [storeDone]
  generalize setRun _ t _ = m at hset ⊢
  have hmstep : tfind m.steps slot = some st₁ := by
    rw [hset.rest]
    exact hst
  generalize storePuts _ _ maps _ = puts
  obtain ⟨hrest, -, -, -, -, hput⟩ := (putAll_laid t puts hmstep).frame
  obtain ⟨b, hb⟩ := hput _ hmstep
  refine Settled.moved ((settled_words hb hpart _ _ false _ _).trans (Aside.count slot st.part _ 0x05 _).settled) ?_ t d _ true
  rw [hrest, hset.rest]
  exact hcalm

theorem drawGroups_noteIssue (t : Nat) (i : SkInsn) (hst : tfind s.steps r.slot = some st) (m n : Nat) :
    (drawGroups (noteIssue s t i r st) t m n).1 = (drawGroups s t m n).1 :=
  (drawGroups_fst (x := s.tile t) (by rw [tile_noteIssue_self t i hst]; rfl) m n).trans (drawGroups_fst (x := s.tile t) rfl m n).symm

theorem vst_spec {s : State} {t d v lane rnd : Nat} {sat compress maps : Bool} {r : SkeinRun} {st : Step}
    (h : Issues s t (.vst d v lane rnd sat compress maps) r st) (w : Upf.View) (hw : viewOf (stepFile s st) d = w) (x : Upf.Tensor)
    (hx : tensorOf (stepFile s st) w.tensor = x) (vs : List Nat) (hvs : (laneVals lane (vreg r v)).take (viewCount w) = vs)
    (o : Stored) (ho : storeOf x w lane rnd sat compress
      (drawGroups s t (drawMode x.format lane rnd) (if compress then vs.length / 2 else vs.length)).1 vs = o) :
    ∃ u, exec (.vst t d v lane rnd sat compress maps) s = .next u ∧ IssueFrame s u r.slot st.part
      ∧ Stores (noteIssue s t (.vst d v lane rnd sat compress maps) r st) u t r.slot st (storePuts x w maps o)
      ∧ (Untraced s r st → Stores s u t r.slot st (storePuts x w maps o))
      ∧ (u.tile t).run = some (orConv (vecRun r) o.conv) ∧ (∀ k, k ≠ t → SameWork (u.tile k) (s.tile k))
      ∧ ∀ j p b, (∀ e ∈ storePuts x w maps o, e.tensor = j) → tensorPlace u r.slot st j = .hbm p b →
        u.hbm = mbits (noteIssue s t (.vst d v lane rnd sat compress maps) r st).hbm (hbmAddr p b)
          ((storePuts x w maps o).map fun e => (e.off, e.width, e.val)) := by
  obtain ⟨-, -, hst, hcalm⟩ := id h
  have hfile := stepFile_noteIssue t (.vst d v lane rnd sat compress maps) hst
  obtain ⟨lfsr, m, hset, hafter⟩ := storeDone_settled (st := st)
    (tfind_noteIssue_self (s := s) t (.vst d v lane rnd sat compress maps) hst) rfl
    (inject_noteIssue t _ hst hcalm) t (vecRun r) d v lane rnd sat compress maps w (by rw [hfile, hw]) x (by rw [hfile, hx]) vs hvs o
    (by rw [drawGroups_noteIssue t _ hst, ho])
  exact ⟨_, exec_vst h, puts_ready hst (hset.ready hst) hafter⟩

/-- Settles O20. -/
theorem vectorLoadsAndStores : Obligations.VectorLoadsAndStores := by
  unfold Obligations.VectorLoadsAndStores
  refine ⟨fun s t a v lane rnd r st h hquiet => ?_, fun s t a v lane rnd r st => vld_loads, fun s t a v lane rnd r st => vld_poisoned,
    fun s t d v lane rnd sat maps r st h => ?_, fun s t d v lane rnd sat maps r st h => ?_, fun s t d v lane rnd sat maps r st h => ?_⟩
  · intro es i c hclean
    exact vld_untraced h hquiet es rfl hclean i c rfl rfl
  · intro w x s1 vs hplain o
    have ho : storeOf x w lane rnd sat false (drawGroups s t (drawMode x.format lane rnd) vs.length).1 vs = o := by
      simp [storeOf, hplain, o, drawMode]
    obtain ⟨u, hexec, hframe, hstores, hquiet, hrun, hothers, hhbm⟩ := vst_spec h w rfl x rfl vs rfl o ho
    refine ⟨u, hexec, hframe, hstores, hquiet, hrun, hothers, fun p b hmaps hplace => ?_⟩
    subst hmaps
    have hputs : storePuts x w false o = o.puts := List.append_nil _
    have hone : ∀ e ∈ o.puts, e.tensor = w.tensor := fun e he => by
      obtain ⟨y, -, rfl⟩ := List.mem_map.1 he
      rfl
    rw [hputs] at hhbm
    exact hhbm w.tensor p b hone hplace
  · intro w x vs o puts
    obtain ⟨u, hexec, hframe, hstores, hquiet, hrun, hothers, -⟩ := vst_spec h w rfl x rfl vs rfl o rfl
    exact ⟨u, hexec, hframe, hstores, hquiet, hrun, hothers⟩
  · intro w x vs hblock o puts
    have ho : storeOf x w lane rnd sat false (drawGroups s t (drawMode x.format lane rnd) vs.length).1 vs = o := by
      simp [storeOf, hblock, o, drawMode]
    obtain ⟨u, hexec, hframe, hstores, hquiet, hrun, hothers, -⟩ := vst_spec h w rfl x rfl vs rfl o ho
    exact ⟨u, hexec, hframe, hstores, hquiet, hrun, hothers⟩

end Sys2Proof.Machine

/-! PROOFS. SST, DIGEST and MAPCLR (O22). -/

namespace Sys2Proof.Machine

open Sys2Proof.Claims

variable {s u v : State} {t slot p : Nat} {i : SkInsn} {r : SkeinRun} {st : Step}

/-! ### Bytes cut into pieces and packed again -/

theorem leNat_toLe (n v : Nat) : leNat (toLe n v) = v % 256 ^ n := by
  induction n generalizing v with
  | zero => simp [toLe, leNat, Nat.mod_one]
  | succ n ih =>
    have hcut : v % 256 ^ (n + 1) = v % 256 + 256 * (v / 256 % 256 ^ n) := by rw [Nat.pow_succ', Nat.mod_mul]
    rw [toLe, leNat, ih, hcut]
    simp

/-- Pieces cut from a number from bit `o` upward make up the number's bits from there. -/
theorem foldl_unpackBits (bs : List Byte) (ws : List Nat) (o x : Nat) :
    (ws.zip (unpackBits bs ws o)).foldl (fun a e => (a.1 + e.1, a.2 + e.2 * 2 ^ a.1)) (o, x)
      = (o + ws.sum, x + leNat bs / 2 ^ o % 2 ^ ws.sum * 2 ^ o) := by
  induction ws generalizing o x with
  | nil => simp [unpackBits, Nat.mod_one]
  | cons w ws ih =>
    have hcut : leNat bs / 2 ^ o % 2 ^ (w + ws.sum) = leNat bs / 2 ^ o % 2 ^ w + 2 ^ w * (leNat bs / 2 ^ (o + w) % 2 ^ ws.sum) := by
      rw [Nat.pow_add, Nat.mod_mul, Nat.div_div_eq_div_mul, ← Nat.pow_add]
    simp only [unpackBits, List.zip_cons_cons, List.foldl_cons, List.sum_cons, ih, Prod.mk.injEq, hcut]
    refine ⟨by omega, ?_⟩
    rw [Nat.pow_add]
    ring

theorem packBits_unpackBits (bs : List Byte) (ws : List Nat) :
    packBits (ws.zip (unpackBits bs ws 0)) = toLe (ceilDiv ws.sum 8) (leNat bs % 2 ^ ws.sum) := by
  simp [packBits, foldl_unpackBits]

theorem lt_of_mem_unpackBits {bs : List Byte} {ws : List Nat} {o : Nat} {e : Nat × Nat} (he : e ∈ ws.zip (unpackBits bs ws o)) :
    e.2 < 2 ^ e.1 := by
  induction ws generalizing o with
  | nil => exact absurd he List.not_mem_nil
  | cons w ws ih =>
    rcases List.mem_cons.1 he with rfl | he
    · exact Nat.mod_lt _ (Nat.two_pow_pos w)
    · exact ih he

theorem length_unpackBits (bs : List Byte) (ws : List Nat) (o : Nat) : (unpackBits bs ws o).length = ws.length := by
  induction ws generalizing o with
  | nil => rfl
  | cons w ws ih => simp [unpackBits, ih]

theorem length_pieceEnds (bs : List Bits) (o : Nat) (l : List Nat) :
    (bs.foldl (fun (a : Nat × List Nat) b => (a.1 + b.width, a.2 ++ [a.1])) (o, l)).2.length = l.length + bs.length := by
  induction bs generalizing o l with
  | nil => rfl
  | cons b bs ih =>
    simp only [List.foldl_cons, ih, List.length_append, List.length_cons, List.length_nil]
    omega

/-- The writes of data in stored bits have the widths of the bits and the pieces of the data. -/
theorem landPuts_pieces (bs : List Bits) (data : List Byte) (bad : List Nat) :
    (landPuts bs data bad).map (fun e => (e.width, e.val)) = (bs.map (·.width)).zip (unpackBits data (bs.map (·.width)) 0) := by
  have hends := length_pieceEnds bs 0 []
  have hpieces := length_unpackBits data (bs.map (·.width)) 0
  simp only [landPuts, List.map_map]
  generalize (List.foldl _ ((0, []) : Nat × List Nat) bs).2 = ends at hends
  generalize unpackBits data (bs.map (·.width)) 0 = ps at hpieces
  rw [List.length_map] at hpieces
  refine List.ext_getElem (by simp at hends; simp; omega) fun k hk hk' => by simp

/-- Data that landed in bits that do not meet reads back as the data. -/
theorem packBits_landPuts {bs : List Bits} {data : List Byte} {bad : List Nat} (read : Put → Nat)
    (hread : ∀ e ∈ landPuts bs data bad, read e = e.val % 2 ^ e.width)
    (hlen : sumNat ((landPuts bs data bad).map (·.width)) = 8 * data.length) :
    packBits ((landPuts bs data bad).map fun e => (e.width, read e)) = toLe data.length (leNat data) := by
  have hpieces := landPuts_pieces bs data bad
  have hsame : (landPuts bs data bad).map (fun e => (e.width, read e)) = (landPuts bs data bad).map fun e => (e.width, e.val) :=
    List.map_congr_left fun e he => by
      have hmem := hpieces ▸ List.mem_map_of_mem (f := fun e : Put => (e.width, e.val)) he
      rw [hread e he, Nat.mod_eq_of_lt (lt_of_mem_unpackBits hmem)]
  have hwidths : (bs.map (·.width)) = (landPuts bs data bad).map (·.width) := by
    have hfst := congrArg (List.map Prod.fst) hpieces
    rw [List.map_fst_zip (by rw [length_unpackBits]), List.map_map] at hfst
    exact hfst.symm
  have hsum : (bs.map (·.width)).sum = 8 * data.length := by
    rw [hwidths, ← hlen, sumNat, List.sum_eq_foldl]
  have hbytes : ceilDiv (8 * data.length) 8 = data.length := by simp only [ceilDiv]; omega
  have hlt : leNat data < 2 ^ (8 * data.length) := by
    clear hpieces hsame hwidths hlen hsum hread hbytes
    induction data with
    | nil => simp [leNat]
    | cons b l ih =>
      have hb := b.isLt
      simp only [leNat, List.length_cons, Nat.mul_add, Nat.pow_add]
      omega
  rw [hsame, hpieces, packBits_unpackBits, hsum, hbytes, Nat.mod_eq_of_lt hlt]

/-! ### One bit for every write -/

theorem mbit_mbits_ones {m : Mem} (base k : Nat) (es : List (Nat × Nat × Nat)) (hwf : memWf m = true) (hones : ∀ e ∈ es, e.2 = (1, 1)) :
    mbit (mbits m base es) k = true ↔ mbit m k = true ∨ ∃ e ∈ es, k = 8 * base + e.1 := by
  induction es generalizing m with
  | nil => simp [mbits_eq]
  | cons e es ih =>
    obtain ⟨off, w, v⟩ := e
    obtain ⟨rfl, rfl⟩ : w = 1 ∧ v = 1 := by simpa using hones _ (.head es)
    rw [mbits_cons, ih (memWf_putBits base _ hwf) fun e he => hones e (.tail _ he), mbit_putBits _ _ _ _ _ hwf]
    by_cases hk : k = 8 * base + off
    · simp [hk]
    · rw [if_neg (by omega)]
      simp [hk]

/-- Writes of single one bits keep every bit that is one and make those that they name one, even where they meet. -/
structure Raised (t slot : Nat) (st : Step) (l : List Put) (ds : List Nat) (s u : State) : Prop where
  kept : ∀ c k, memWf (cells s t c) = true → mbit (cells s t c) k = true → mbit (cells u t c) k = true
  raised : ∀ e ∈ l, e.tensor ∈ ds → ∀ c a, memWf (cells s t c) = true → startBit u t slot st e = some (c, a) → mbit (cells u t c) a = true

theorem TensorPut.raised {l : List Put} {i : Nat} (hones : ∀ e ∈ l, e.width = 1 ∧ e.val = 1) (h : TensorPut slot st i (entriesOf l i) s u) :
    Raised t slot st l [i] s u := by
  have hentries : ∀ x ∈ entriesOf l i, x.2 = (1, 1) := fun x hx => by
    obtain ⟨e, he, -, rfl⟩ := mem_entriesOf.1 hx
    exact Prod.ext (hones e he).1 (hones e he).2
  refine ⟨fun c k hwf hk => ?_, fun e he hi c a hwf hstart => ?_⟩
  · rcases h.cells_eq t c with ⟨hc, -⟩ | ⟨b, hc, -⟩ <;> rw [hc]
    · exact hk
    · exact (mbit_mbits_ones b k _ hwf hentries).2 (.inl hk)
  · have hi := List.mem_singleton.1 hi
    rcases h.cells_eq t c with ⟨-, hnone⟩ | ⟨b, hc, hplace⟩
    · exact absurd hstart (hnone e hi a)
    · have ha : a = 8 * b + e.off := by simpa [hstart] using hplace e hi
      rw [hc]
      exact (mbit_mbits_ones b a _ hwf hentries).2 (.inr ⟨_, mem_entriesOf.2 ⟨e, he, hi, rfl⟩, ha⟩)

theorem forAll_raised (t slot : Nat) (st : Step) {l : List Put} (hones : ∀ e ∈ l, e.width = 1 ∧ e.val = 1) {ds : List Nat}
    (hds : ds.Nodup) (s : State) : Raised t slot st l ds s (forAll ds (putTensor t slot st l) s) := by
  induction ds generalizing s with
  | nil => exact ⟨fun _ _ _ h => h, fun e _ he => absurd he List.not_mem_nil⟩
  | cons i ds ih =>
    obtain ⟨hi, hds⟩ := List.nodup_cons.1 hds
    have hput := putTensor_put t slot st l s i
    have hfirst := hput.raised (t := t) hones
    have hlaid := forAll_putsLaid t slot st l hds (putTensor t slot st l s i)
    have hrest := ih hds (putTensor t slot st l s i)
    refine ⟨fun c k hwf hk => hrest.kept c k (hput.wf hwf) (hfirst.kept c k hwf hk), fun e he hmem c a hwf hstart => ?_⟩
    by_cases hit : e.tensor = i
    · obtain ⟨-, -, hbufs, -⟩ := hlaid.frame.work t
      have hbefore := (startBit_congr (hlaid.homes e.tensor (hit ▸ hi)) hbufs).symm.trans hstart
      exact hrest.kept c a (hput.wf hwf) (hfirst.raised e he (hit ▸ .head []) c a hwf hbefore)
    · exact hrest.raised e he ((List.mem_cons.1 hmem).resolve_left hit) c a (hput.wf hwf) hstart

/-- After writes of single one bits each reads one (R131). -/
theorem bitsAt_putAll_ones {l : List Put} (hst : tfind s.steps slot = some st) (hones : ∀ e ∈ l, e.width = 1 ∧ e.val = 1) {e : Put}
    (he : e ∈ l) (hplaced : Claims.Placed s t slot st e.tensor) : bitsAt (putAll s t slot l) t slot st e = 1 := by
  have hraised : Raised t slot st l ((l.map (·.tensor)).dedup) s (putAll s t slot l) := by
    rw [putAll_eq t l hst]
    exact forAll_raised t slot st hones (List.nodup_dedup _) s
  have hlaid := putAll_laid t l hst
  generalize putAll s t slot l = u at hraised hlaid
  have hprogs : (u.part st.part).progs = (s.part st.part).progs := by rw [hlaid.frame.part]
  obtain ⟨-, -, hbufs, -⟩ := hlaid.frame.work t
  have hread {c : Bool} {a : Nat} (hwf : memWf (cells s t c) = true) (hstart : startBit u t slot st e = some (c, a)) : bitsAt u t slot st e = 1 := by
    obtain ⟨hwidth, -⟩ := hones e he
    refine (bitsAt_eq (x := 1) hstart fun j hj => ?_).trans (by rw [hwidth]; rfl)
    obtain rfl : j = 0 := by omega
    exact hraised.raised e he (mem_dedup_tensor he) c a hwf hstart
  obtain ⟨hhbm, hscratch⟩ := home_kind_congr (s := s) (u := u) (slot := slot) (st := st) (i := e.tensor) hprogs
  rcases hplaced with ⟨p, b, hplace, hwf⟩ | ⟨b, hplace, hb, hwf⟩
  · obtain ⟨b', hhome⟩ := hhbm p b (home_eq_hbm.2 hplace)
    exact hread (c := true) hwf (startBit_of_hbm hhome)
  · exact hread (c := false) hwf (startBit_of_scratch (hscratch _ _ (home_eq_scratch.2 hplace)) ((bufBase_congr hbufs _ _).trans hb))

/-! ### The three instructions -/

theorem exec_sst {t sc off d : Nat} (h : Issues s t (.sst sc off d) r st) : exec (.sst t sc off d) s
    = .next (putAll (noteIssue s t (.sst sc off d) r st) t r.slot
      [{ tensor := (viewOf (stepFile s st) d).tensor
         off := 32 * linIdx (tensorOf (stepFile s st) (viewOf (stepFile s st) d).tensor)
           (nth (coords (viewOf (stepFile s st) d)) (off / 4) (0, 0, 0, 0))
         width := 32, val := (sreg r sc).toNat }]) := by
  obtain ⟨-, -, hst, -⟩ := id h
  refine (skein_of_issues [] _ h : execSst t sc off d s = _).trans ?_
  rw [stepRun_control r rfl rfl rfl]
  simp only [stepFile_noteIssue t _ hst]
  rfl

/-- The single writes of ones that MAPCLR makes (R131). -/
theorem exec_mapclr {t d : Nat} (h : Issues s t (.mapclr d) r st) (x : Upf.Tensor)
    (hx : tensorOf (stepFile s st) (viewOf (stepFile s st) d).tensor = x) : exec (.mapclr t d) s
    = .next (putAll (noteIssue s t (.mapclr d) r st) t r.slot
      ((((coords (viewOf (stepFile s st) d)).map (mapIdx x)).dedup).flatMap fun i =>
        [{ tensor := x.zmap, off := i, width := 1, val := 1 }, { tensor := x.fmap, off := i, width := 1, val := 1 }])) := by
  obtain ⟨-, -, hst, -⟩ := id h
  subst hx
  refine (skein_of_issues [] _ h : execMapclr t d s = _).trans ?_
  simp only [stepFile_noteIssue t _ hst]

/-- The string of a digest (R562). -/
def digestString (f : Upf.File) (a : Nat) (src : List (Nat × Nat × Bool)) : List Byte :=
  let n := (primaryBits (tensorOf f (viewOf f a).tensor) (viewOf f a)).length
  let k := (metaBits (tensorOf f (viewOf f a).tensor) (viewOf f a)).length
  packBits ((src.take n).map fun e => (e.1, e.2.1)) ++ packBits (((src.drop n).take k).map fun e => (e.1, e.2.1))
    ++ packBits ((src.drop (n + k)).map fun e => (e.1, e.2.1))

/-- The writes of a digest. -/
def digestPuts (f : Upf.File) (a d : Nat) (src : List (Nat × Nat × Bool)) : List Put :=
  landPuts (takeBits 64 (viewBits f d)) (toLe 8 (crc64 (digestString f a src)).toNat) []

theorem exec_digest {t a d : Nat} (h : Issues s t (.digest a d) r st) : exec (.digest t a d) s
    = .next (if (readStored (noteIssue s t (.digest a d) r st) t r.slot st a).any (·.2.2) then
        skeinFault (noteIssue s t (.digest a d) r st) t r.slot 0x02
      else moved (putAll (moved (noteIssue s t (.digest a d) r st) t r.slot st a
          (digestString (stepFile s st) a (readStored (noteIssue s t (.digest a d) r st) t r.slot st a)).length false) t r.slot
        (digestPuts (stepFile s st) a d (readStored (noteIssue s t (.digest a d) r st) t r.slot st a))) t r.slot st d 8 true) := by
  obtain ⟨-, -, hst, -⟩ := id h
  refine (skein_of_issues [] _ h : execDigest t a d s = _).trans ?_
  simp only [stepFile_noteIssue t _ hst]
  rfl

theorem digest_spec {t a d : Nat} (h : Issues s t (.digest a d) r st) (hclean : Clean (noteIssue s t (.digest a d) r st) t r.slot st a) :
    ∃ u, exec (.digest t a d) s = .next u ∧ IssueFrame s u r.slot st.part
      ∧ Stores (noteIssue s t (.digest a d) r st) u t r.slot st
        (digestPuts (stepFile s st) a d (readStored (noteIssue s t (.digest a d) r st) t r.slot st a))
      ∧ (Untraced s r st → Stores s u t r.slot st
        (digestPuts (stepFile s st) a d (readStored (noteIssue s t (.digest a d) r st) t r.slot st a)))
      ∧ (u.tile t).run = some (consumed r) ∧ (∀ k, k ≠ t → SameWork (u.tile k) (s.tile k)) := by
  obtain ⟨-, -, hst, hcalm⟩ := id h
  have hexec := exec_digest h
  rw [if_neg (by rw [show _ = false from hclean]; decide)] at hexec
  have hnoted := ready_noteIssue t (.digest a d) hst
  rw [stepRun_control r rfl rfl rfl] at hnoted
  generalize readStored (noteIssue s t (.digest a d) r st) t r.slot st a = src at hexec
  have haside := moved_aside (inject_noteIssue t (.digest a d) hst hcalm) t r.slot st a (digestString (stepFile s st) a src).length false
  have hready := hnoted.aside haside
  have hquiet : (moved (noteIssue s t (.digest a d) r st) t r.slot st a (digestString (stepFile s st) a src).length false).coll.inject = [] := by
    rw [haside.rest]
    exact inject_noteIssue t (.digest a d) hst hcalm
  generalize moved (noteIssue s t (.digest a d) r st) t r.slot st a _ false = w at hexec hready hquiet
  obtain ⟨st₁, hstep, -⟩ := hready.step
  have hput : (putAll w t r.slot (digestPuts (stepFile s st) a d src)).coll.inject = [] := by
    rw [(putAll_laid t _ hstep).frame.rest]
    exact hquiet
  obtain ⟨hframe, hstores, hsame, hrun, hothers, -⟩ := puts_ready hst hready (moved_aside hput t r.slot st d 8 true).settled
  exact ⟨_, hexec, hframe, hstores, hsame, hrun, hothers⟩

/-- Settles O22. -/
theorem scalarStoresDigestsAndMaps : Obligations.ScalarStoresDigestsAndMaps := by
  unfold Obligations.ScalarStoresDigestsAndMaps
  refine ⟨fun s t sc off d r st h => ?_, fun s t a d r st h hquiet hclean => ?_, fun s t a d r st h hopen hpoison hinit ht => ?_,
    fun s t a d r st h hclean => ?_, fun s t d r st h => ?_⟩
  · intro v x s1 e
    obtain ⟨-, -, hst, -⟩ := id h
    have hready := ready_noteIssue t (.sst sc off d) hst
    rw [stepRun_control r rfl rfl rfl] at hready
    obtain ⟨hframe, hstores, -, hrun, hothers, -⟩ := puts_ready (puts := [e]) hst hready (settled_refl _ _ _)
    refine ⟨_, exec_sst h, hframe, hstores, hrun, hothers, fun hplaced => ?_⟩
    have hbits := hstores.2 (List.pairwise_singleton _ _) e (.head _) hplaced
    rw [hbits]
    exact Nat.mod_eq_of_lt (sreg r sc).isLt
  · intro f src n k str puts
    obtain ⟨-, -, hst, -⟩ := id h
    have hsrc := readStored_noteIssue t (.digest a d) hst hquiet r.slot a
    obtain ⟨u, hexec, hframe, -, hstores, hrun, hothers⟩ := digest_spec h (by rw [Clean, hsrc]; exact hclean)
    rw [hsrc] at hstores
    refine ⟨u, hexec, hframe, hstores hquiet, hrun, hothers, fun hapart hplaced hwidth => ?_⟩
    refine (packBits_landPuts _ (fun e he => (hstores hquiet).2 hapart e he (hplaced e he)) (hwidth.trans (by rw [length_toLe]))).trans ?_
    rw [length_toLe, leNat_toLe]
    exact congrArg (toLe 8) (Nat.mod_eq_of_lt (crc64 str).isLt)
  · obtain ⟨-, -, hst, hcalm⟩ := id h
    have hexec := exec_digest h
    rw [if_pos (by simpa [Clean] using hpoison)] at hexec
    have hinit' : (noteIssue s t (.digest a d) r st).coll.init = true := by
      rw [noteIssue_shape t _ hst]
      exact hinit
    obtain ⟨hfails, hlog⟩ := skeinFault_poisoned (tfind_noteIssue_self t (.digest a d) hst) (undecided_notedStep s (.digest a d) r hopen) hinit' ht
    exact ⟨_, hexec, hfails, hlog⟩
  · obtain ⟨u, hexec, hframe, hstores, -, hrun, hothers⟩ := digest_spec h hclean
    exact ⟨u, _, hexec, hframe, hstores, hrun, hothers⟩
  · intro v x s1 puts
    obtain ⟨-, -, hst, -⟩ := id h
    have hready := ready_noteIssue t (.mapclr d) hst
    rw [stepRun_control r rfl rfl rfl] at hready
    obtain ⟨hframe, hstores, -, hrun, hothers, -⟩ := puts_ready (puts := puts) hst hready (settled_refl _ _ _)
    have hwrites : ∀ e ∈ puts, (e.tensor = x.zmap ∨ e.tensor = x.fmap) ∧ e.width = 1 ∧ e.val = 1 := fun e he => by
      obtain ⟨k, -, hk⟩ := List.mem_flatMap.1 he
      rcases List.mem_pair.1 hk with rfl | rfl
      · exact ⟨.inl rfl, rfl, rfl⟩
      · exact ⟨.inr rfl, rfl, rfl⟩
    refine ⟨_, exec_mapclr h x rfl, hframe, hstores, hrun, hothers, fun hzmap hfmap e he => ?_⟩
    have hplaced : Claims.Placed s1 t r.slot st e.tensor := by
      obtain ⟨htensor | htensor, -⟩ := hwrites e he <;> rw [htensor]
      · exact hzmap
      · exact hfmap
    exact bitsAt_putAll_ones (tfind_noteIssue_self t (.mapclr d) hst) (fun e he => (hwrites e he).2) he hplaced

end Sys2Proof.Machine

/-! PROOFS. MMA and DRAIN (O21). -/

namespace Sys2Proof.Machine

open Sys2Proof.Claims

variable {s u v : State} {t slot p : Nat} {i : SkInsn} {r : SkeinRun} {st : Step}

theorem stepRun_matrix (r : SkeinRun) (hfetch : isFetch i = false) (hmat : onMatrix i = true) (hvec : onVector i = false) :
    stepRun r i = matRun r := by
  simp [stepRun, matRun, consumed, hfetch, hmat, hvec]

/-! ### MMA -/

/-- The bank that a pass builds on. -/
def oldBank (r : SkeinRun) (bank : Nat) (clear : Bool) : Tab (BitVec 32) := if clear then [] else tget r.acc bank []

/-- The run once a pass has written its bank (R118). -/
def passRun (r : SkeinRun) (bank : Nat) (clear : Bool) (x : Pass) : SkeinRun :=
  orConv { r with acc := tput r.acc bank (runPass x (oldBank r bank clear)).1, intForm := tput r.intForm bank x.int }
    (runPass x (oldBank r bank clear)).2

/-- The traffic of a pass (R322). -/
def passCounted (s : State) (t slot : Nat) (st : Step) (a b : Nat) (x : Pass) : State :=
  let s := count s st.part 0x03 (48 * x.ncols * (x.k - 8 * slabsSaved s x))
  let s := count s st.part 0x04 (slabsSaved s x)
  let s := moved s t slot st a (bitsLen (readStored s t slot st a)) false
  moved s t slot st b (bitsLen (readStored s t slot st b)) false

theorem passCounted_aside (h : s.coll.inject = []) (t slot : Nat) (st : Step) (a b : Nat) (x : Pass) :
    Aside slot st.part s (passCounted s t slot st a b x) := by
  have hfirst := Aside.count slot st.part s 0x03 (48 * x.ncols * (x.k - 8 * slabsSaved s x))
  simp only [passCounted]
  generalize count s st.part 0x03 _ = w at hfirst ⊢
  have hsecond := hfirst.trans (Aside.count slot st.part w 0x04 (slabsSaved w x))
  generalize count w st.part 0x04 _ = w at hsecond ⊢
  have hcalm : w.coll.inject = [] := by
    rw [hsecond.rest]
    exact h
  have hthird := moved_aside hcalm t slot st a (bitsLen (readStored w t slot st a)) false
  generalize moved w t slot st a _ false = w' at hthird ⊢
  have hcalm' : w'.coll.inject = [] := by
    rw [hthird.rest]
    exact hcalm
  exact (hsecond.trans hthird).trans (moved_aside hcalm' t slot st b _ false)

/-- Whether the poison of a pass comes before its invalid nibble (R62, R127). -/
def poisonFirst (x : Pass) : Bool :=
  match firstPoison x, firstBadNibble x with
  | some p, some n => decide (p < n + 4)
  | some _, none => true
  | none, _ => false

theorem exec_mma {t a b bank bound : Nat} {clear bounded : Bool} (h : Issues s t (.mma a b bank clear bounded bound) r st) (n : State)
    (hn : noteIssue s t (.mma a b bank clear bounded bound) r st = n) (x : Pass)
    (hx : passOf n t r.slot st a b (if bounded then min (extV (viewOf (stepFile s st) a) 1) (sreg r bound).toNat
      else extV (viewOf (stepFile s st) a) 1) = x) : exec (.mma t a b bank clear bounded bound) s
    = .next (if poisonFirst x then skeinFault n t r.slot 0x02
      else if (firstBadNibble x).isSome then failStep n r.slot 0x0401
      else passCounted (setRun n t (passRun (matRun r) bank clear x)) t r.slot st a b x) := by
  obtain ⟨-, -, hst, hcalm⟩ := id h
  refine (skein_of_issues [1] _ h : execMma t a b bank clear bounded bound s = _).trans ?_
  have hrun : stepRun r (.mma a b bank clear bounded bound) = matRun r := stepRun_matrix r rfl rfl rfl
  have hquiet := inject_noteIssue t (.mma a b bank clear bounded bound) hst hcalm
  have hfile := stepFile_noteIssue t (.mma a b bank clear bounded bound) hst
  rw [hn] at hquiet hfile ⊢
  have hrows : sreg (matRun r) bound = sreg r bound := rfl
  simp only [hrun, hrows, hfile, hx, guarded_of_calm hquiet]
  rfl

theorem poisonFirst_iff {x : Pass} : poisonFirst x = true ↔ ∃ k, firstPoison x = some k ∧ ∀ n, firstBadNibble x = some n → k < n + 4 := by
  unfold poisonFirst
  cases firstPoison x <;> cases firstBadNibble x <;> simp

theorem passRun_spec (r : SkeinRun) (bank : Nat) (clear : Bool) (x : Pass) :
    tget (passRun r bank clear x).acc bank [] = (runPass x (oldBank r bank clear)).1 ∧ tget (passRun r bank clear x).intForm bank false = x.int
      ∧ (∀ k, k ≠ bank → tget (passRun r bank clear x).acc k [] = tget r.acc k []
        ∧ tget (passRun r bank clear x).intForm k false = tget r.intForm k false) :=
  ⟨tget_tput_self _ _ _ _, tget_tput_self _ _ _ _, fun _ hk => ⟨tget_tput_ne _ _ _ hk, tget_tput_ne _ _ _ hk⟩⟩

/-- R43, R47, R118: what a pass that reads no poison and no invalid nibble does. -/
theorem mma_spec {t a b bank bound : Nat} {clear bounded : Bool} (h : Issues s t (.mma a b bank clear bounded bound) r st) (n : State)
    (hn : noteIssue s t (.mma a b bank clear bounded bound) r st = n) (x : Pass)
    (hx : passOf n t r.slot st a b (if bounded then min (extV (viewOf (stepFile s st) a) 1) (sreg r bound).toNat
      else extV (viewOf (stepFile s st) a) 1) = x) (hpoison : firstPoison x = none) (hnibble : firstBadNibble x = none) :
    ∃ u r', exec (.mma t a b bank clear bounded bound) s = .next u ∧ (u.tile t).run = some r' ∧ IssueFrame s u r.slot st.part
      ∧ (∀ k, k ≠ t → u.tile k = s.tile k) ∧ u.hbm = n.hbm ∧ (u.tile t).scratch = (s.tile t).scratch
      ∧ tget r'.acc bank [] = (runPass x (oldBank r bank clear)).1 ∧ tget r'.intForm bank false = x.int
      ∧ (∀ k, k ≠ bank → tget r'.acc k [] = tget r.acc k [] ∧ tget r'.intForm k false = tget r.intForm k false)
      ∧ r' = { matRun r with acc := r'.acc, intForm := r'.intForm, conv := r.conv ||| BitVec.ofNat 8 (runPass x (oldBank r bank clear)).2 } := by
  obtain ⟨-, -, hst, hcalm⟩ := id h
  have hexec := exec_mma h n hn x hx
  have hfirst : poisonFirst x ≠ true := fun hp => by
    obtain ⟨k, hk, -⟩ := poisonFirst_iff.1 hp
    rw [hpoison] at hk
    cases hk
  rw [if_neg hfirst, if_neg (by rw [hnibble]; decide)] at hexec
  subst hn
  have hquiet : (setRun (noteIssue s t (.mma a b bank clear bounded bound) r st) t (passRun (matRun r) bank clear x)).coll.inject = [] :=
    inject_noteIssue t (.mma a b bank clear bounded bound) hst hcalm
  have hcounted := passCounted_aside hquiet t r.slot st a b x
  have hframe := issueFrame_trans (issueFrame_noteIssue t (.mma a b bank clear bounded bound) hst)
    (issueFrame_trans (issueFrame_modTile _ r.slot st.part t _) hcounted.issueFrame)
  obtain ⟨hacc, hint, hothers⟩ := passRun_spec (matRun r) bank clear x
  refine ⟨_, passRun (matRun r) bank clear x, hexec, ?_, hframe, fun k hk => ?_, hcounted.sameStore.hbm, ?_, hacc, hint, hothers, rfl⟩
  · rw [hcounted.tile, setRun, tile_modTile_self]
  · rw [hcounted.tile, setRun, tile_modTile_ne _ _ hk, tile_noteIssue_ne _ hst hk]
  · rw [hcounted.tile, setRun, tile_modTile_self, tile_noteIssue_self t _ hst]
    rfl

theorem passOf_noteIssue (t : Nat) (i : SkInsn) (hst : tfind s.steps r.slot = some st) (h : Untraced s r st) (slot a b rows : Nat) :
    passOf (noteIssue s t i r st) t slot st a b rows = passOf s t slot st a b rows := by
  have hvariant : (noteIssue s t i r st).variant = s.variant := by rw [noteIssue_shape t i hst]
  simp only [passOf, sparseCols, sparseNibs, skippedSlabs, slabBits, mapBit, slabPoison, readView_noteIssue t i hst h,
    stepFile_noteIssue t i hst, tensorPlace_noteIssue t i hst h, sourceOf_noteIssue t i hst h, hvariant]

/-! ### DRAIN -/

/-- The words of a drain, with the bits and the status that each becomes (R118). -/
def drainOuts (fmt rnd : Nat) (gs : List Nat) (sat int : Bool) (shift : Nat) (words : List (BitVec 32)) : List (Nat × Nat) :=
  words.zipIdx.map fun e => drainWord fmt rnd (nth gs e.2 0) sat int shift e.1

/-- The writes of a drain: one for each cell of its view. -/
def drainPuts (v : Upf.View) (x : Upf.Tensor) (outs : List (Nat × Nat)) : List Put :=
  ((drainCells v).zip outs).map fun e =>
    { tensor := v.tensor, off := linIdx x (nth (coords v) e.1.1 (0, 0, 0, 0)) * fmtBits x.format, width := fmtBits x.format, val := e.2.1 }

/-- The words of a bank that a drain reads. -/
def drained (v : Upf.View) (r : SkeinRun) (bank : Nat) : List (BitVec 32) := (drainCells v).map fun c => tget (tget r.acc bank []) c.2 0

/-- The writes, cell by cell. -/
theorem drainPuts_cells (v : Upf.View) (x : Upf.Tensor) (r : SkeinRun) (bank rnd : Nat) (gs : List Nat) (sat int : Bool) (shift : Nat) :
    drainPuts v x (drainOuts x.format rnd gs sat int shift (drained v r bank)) = (drainCells v).zipIdx.map fun c =>
      { tensor := v.tensor, off := linIdx x (nth (coords v) c.1.1 (0, 0, 0, 0)) * fmtBits x.format, width := fmtBits x.format,
        val := (drainWord x.format rnd (nth gs c.2 0) sat int shift (tget (tget r.acc bank []) c.1.2 0)).1 } := by
  refine List.ext_getElem (by simp [drainPuts, drainOuts, drained]) fun k hk hk' => by simp [drainPuts, drainOuts, drained]

/-- The values that the observation port sees in a drain (R560). -/
def drainVals (fmt : Nat) (int : Bool) (words : List (BitVec 32)) (outs : List (Nat × Nat)) : List Val :=
  if fmt = 0 ∧ int then words.map fun w => ofInt w.toInt 0 else outs.map fun e => decElem fmt e.1 0

/-- What a drain does once the instruction has issued. -/
def drainDone (s : State) (t slot : Nat) (st : Step) (r : SkeinRun) (v : Upf.View) (x : Upf.Tensor) (d bank rnd : Nat) (sat : Bool)
    (shift : Nat) : State :=
  let q := drawGroups s t (if x.format = 0 then 0 else rnd) (drainCells v).length
  let int := tget r.intForm bank false
  let words := drained v r bank
  let outs := drainOuts x.format rnd q.1 sat int shift words
  let vals := drainVals x.format int words outs
  let s := putAll (setRun q.2 t (orConv r (outs.foldl (fun a e => orS a e.2) 0))) t slot (drainPuts v x outs)
  moved (noteWords (watchOp s slot v.tensor vals (drainPuts v x outs)) slot v.tensor (x.format == 0 && int)) t slot st d
    (packedBytes x.format (drainCells v).length) true

theorem exec_drain {t d bank rnd shift : Nat} {sat : Bool} (h : Issues s t (.drain d bank rnd sat shift) r st) (w : Upf.View)
    (hw : viewOf (stepFile s st) d = w) (x : Upf.Tensor) (hx : tensorOf (stepFile s st) w.tensor = x) :
    exec (.drain t d bank rnd sat shift) s = .next
      (drainDone (noteIssue s t (.drain d bank rnd sat shift) r st) t r.slot st (matRun r) w x d bank rnd sat shift) := by
  obtain ⟨-, -, hst, -⟩ := id h
  refine (skein_of_issues [0] _ h : execDrain t d bank rnd sat shift s = _).trans ?_
  rw [stepRun_matrix r rfl rfl rfl]
  subst hx hw
  simp only [stepFile_noteIssue t _ hst]
  rfl

/-- A tensor is among a step's integer words once a drain has noted it so, and no more once one has noted it otherwise. -/
theorem mem_noteWords {m : State} {y : Step} (hy : tfind m.steps slot = some y) (j : Nat) (int : Bool) :
    ∃ y', tfind (noteWords m slot j int).steps slot = some y' ∧ (j ∈ y'.intWords ↔ int = true) := by
  refine ⟨_, tfind_modStep_self m _ hy, ?_⟩
  cases int
  · simp
  · simp only [if_true, iff_true, addNew]
    split
    · assumption
    · simp

theorem steps_watchOp (s : State) (slot j : Nat) (vals : List Val) (puts : List Put) : (watchOp s slot j vals puts).steps = s.steps := by
  unfold watchOp
  split
  · rfl
  · simp only []
    split <;> rfl

/-- A drain is its writes, from a state in which only its run has changed, and what changes no memory. -/
theorem drainDone_settled {n : State} {st₁ : Step} (hst : tfind n.steps slot = some st₁) (hpart : st₁.part = st.part)
    (hcalm : n.coll.inject = []) (t : Nat) (r : SkeinRun) (w : Upf.View) (x : Upf.Tensor) (d bank rnd : Nat) (sat : Bool) (shift : Nat)
    (outs : List (Nat × Nat)) (houts : drainOuts x.format rnd
      (drawGroups n t (if x.format = 0 then 0 else rnd) (drainCells w).length).1 sat (tget r.intForm bank false) shift (drained w r bank) = outs) :
    ∃ lfsr m, RunSet t (orConv r (outs.foldl (fun a e => orS a e.2) 0)) lfsr n m
      ∧ Settled slot st.part (putAll m t slot (drainPuts w x outs)) (drainDone n t slot st r w x d bank rnd sat shift)
      ∧ ∃ y, tfind (drainDone n t slot st r w x d bank rnd sat shift).steps slot = some y
        ∧ (w.tensor ∈ y.intWords ↔ x.format = 0 ∧ tget r.intForm bank false = true) := by
  have hset := runSet_draw n t (if x.format = 0 then 0 else rnd) (drainCells w).length (orConv r (outs.foldl (fun a e => orS a e.2) 0))
  refine ⟨_, _, hset, ?_⟩
  simp only [drainDone, houts]
  generalize setRun _ t _ = m at hset ⊢
  have hmstep : tfind m.steps slot = some st₁ := by
    rw [hset.rest]
    exact hst
  generalize drainPuts w x outs = puts
  obtain ⟨hrest, -, -, -, -, hput⟩ := (putAll_laid t puts hmstep).frame
  obtain ⟨b, hb⟩ := hput _ hmstep
  have hquiet : (putAll m t slot puts).coll.inject = [] := by
    rw [hrest, hset.rest]
    exact hcalm
  generalize putAll m t slot puts = m' at hb hquiet ⊢
  generalize drainVals x.format _ _ outs = vals
  have hwords := settled_words hb hpart w.tensor w.tensor (x.format == 0 && tget r.intForm bank false) vals puts
  refine ⟨hwords.moved hquiet t d _ true, ?_⟩
  obtain ⟨y, hy, hmem⟩ := mem_noteWords (m := watchOp m' slot w.tensor vals puts) (by rw [steps_watchOp]; exact hb) w.tensor
    (x.format == 0 && tget r.intForm bank false)
  have hcalm' : (noteWords (watchOp m' slot w.tensor vals puts) slot w.tensor (x.format == 0 && tget r.intForm bank false)).coll.inject = [] := by
    obtain ⟨-, -, -, -, -, -, hcoll, -⟩ := hwords.frame
    rw [hcoll]
    exact hquiet
  obtain ⟨c, hc⟩ := (moved_aside hcalm' t slot st d (packedBytes x.format (drainCells w).length) true).step y hy
  exact ⟨_, hc, by simpa using hmem⟩

/-- Settles O21. -/
theorem matrixPasses : Obligations.MatrixPasses := by
  unfold Obligations.MatrixPasses
  refine ⟨fun s t a b bank bound clear bounded r st h hquiet => ?_, fun s t a b bank bound clear bounded r st h => ?_,
    fun s t d bank rnd shift sat r st h => ?_⟩
  · intro rows x q hpoison hnibble
    obtain ⟨-, -, hst, -⟩ := id h
    have hsame := passOf_noteIssue t (.mma a b bank clear bounded bound) hst hquiet r.slot a b
      (if bounded then min rows (sreg r bound).toNat else rows)
    obtain ⟨u, r', hexec, hrun, hframe, htiles, hhbm, hrest⟩ := mma_spec h _ rfl x hsame hpoison hnibble
    exact ⟨u, r', hexec, hrun, hframe, htiles, hhbm.trans (sameStore_noteIssue t _ hst hquiet).hbm, hrest⟩
  · intro s1 rows x q
    obtain ⟨-, -, hst, -⟩ := id h
    have hexec := exec_mma h s1 rfl x rfl
    refine ⟨fun hpoison hnibble => mma_spec h s1 rfl x rfl hpoison hnibble, fun k hk hfirst hopen hinit ht => ?_, fun n hn hfirst hopen => ?_⟩
    · rw [if_pos (poisonFirst_iff.2 ⟨k, hk, hfirst⟩)] at hexec
      have hinit' : s1.coll.init = true := by
        simp only [s1]
        rw [noteIssue_shape t _ hst]
        exact hinit
      obtain ⟨hfails, hlog⟩ := skeinFault_poisoned (tfind_noteIssue_self t (.mma a b bank clear bounded bound) hst)
        (undecided_notedStep s _ r hopen) hinit' ht
      exact ⟨_, hexec, hfails, hlog⟩
    · have hlate : poisonFirst x ≠ true := fun hp => by
        obtain ⟨k, hk, hbefore⟩ := poisonFirst_iff.1 hp
        have := hfirst k hk
        have := hbefore n hn
        omega
      rw [if_neg hlate, if_pos (by rw [hn]; rfl)] at hexec
      refine ⟨_, hexec, failWith_failsWith 0x0401 0 (tfind_noteIssue_self t _ hst) (undecided_notedStep s _ r hopen), ?_⟩
      have hkept := (failStep_calm r.slot 0x0401 (Calm.refl s1)).collector
      rw [hkept]
      simp only [s1]
      rw [noteIssue_shape t _ hst]
  · intro w x int gs puts
    obtain ⟨-, -, hst, hcalm⟩ := id h
    have hputs : drainPuts w x (drainOuts x.format rnd gs sat int shift (drained w (matRun r) bank)) = puts :=
      drainPuts_cells w x (matRun r) bank rnd gs sat int shift
    obtain ⟨lfsr, m, hset, hafter, st', hst', hwords⟩ := drainDone_settled (st := st)
      (tfind_noteIssue_self (s := s) t (.drain d bank rnd sat shift) hst) rfl (inject_noteIssue t _ hst hcalm) t (matRun r) w x d bank rnd sat
      shift _ rfl
    rw [drawGroups_noteIssue t _ hst] at hafter
    replace hafter : Settled r.slot st.part (putAll m t r.slot puts)
        (drainDone (noteIssue s t (.drain d bank rnd sat shift) r st) t r.slot st (matRun r) w x d bank rnd sat shift) := by
      rw [← hputs]
      exact hafter
    obtain ⟨hframe, hstores, hsame, hrun, hothers, hhbm⟩ := puts_ready hst (hset.ready hst) hafter
    refine ⟨_, _, st', exec_drain h w rfl x rfl, hrun, rfl, hframe, hothers, hstores, hsame, hst', hwords, fun p b hplace => ?_⟩
    refine hhbm w.tensor p b (fun e he => ?_) hplace
    obtain ⟨y, -, rfl⟩ := List.mem_map.1 he
    rfl

end Sys2Proof.Machine

/-! PROOFS. The checks of a tile: residues, the bound of a skein, clock gating, scrubbing, the oscillator (O25). -/

namespace Sys2Proof.Machine

open Sys2Proof.Claims

variable {s u v : State} {t slot p : Nat} {r : SkeinRun} {st : Step}

/-! ### Codes of a compute die -/

theorem code_parts {cls unit cause : Nat} (hcls : cls < 4) (hunit : unit < 64) (hcause : cause < 256) :
    codeClass (mkCode cls unit cause) = cls ∧ codeUnit (mkCode cls unit cause) = unit ∧ codeCause (mkCode cls unit cause) = cause := by
  simp only [codeClass, codeUnit, codeCause, mkCode, bits, BitVec.toNat_ofNat]
  omega

/-- R444: a contained fault of a compute die fails its steps with 0x0C01. -/
theorem faultStatus_of_die {d cause : Nat} (hd : d < 32) (hcause : cause < 256) : faultStatus (mkCode 2 d cause) = 0x0C01 := by
  obtain ⟨-, hunit, -⟩ := code_parts (cls := 2) (unit := d) (by decide) (by omega) hcause
  refine faultStatus_eq (fun h => ?_) (fun h => ?_) (by omega)
  · rw [h, show codeUnit 0xA703 = 39 from rfl] at hunit
    omega
  · rw [h, show codeUnit 0xA804 = 40 from rfl] at hunit
    omega

/-- The report of a contained fault of a tile's die is latched and contained. -/
theorem report_of_die {cause : Nat} (slots : List Nat) (ht : t < 2048) (hcause : cause < 256) (hinit : s.coll.init = true) :
    report s { code := mkCode 2 (tileDie t) cause, engine := t, slots }
      = withIbi s (contain (latched s { code := mkCode 2 (tileDie t) cause, engine := t, slots })
          { code := mkCode 2 (tileDie t) cause, engine := t, slots }) := by
  have hdie := tileDie_lt ht
  obtain ⟨hclass, hunit, -⟩ := code_parts (cls := 2) (unit := tileDie t) (by decide) (by omega) hcause
  rw [report_of_init (by simp only [hclass]; decide) (by simp only [hunit]; omega) hinit]
  simp only [reacted, hclass]
  rfl

/-- The collector once such a fault has been latched. -/
theorem latched_of_die {cause : Nat} (slots : List Nat) (ht : t < 2048) (hcause : cause < 256) {c : Code}
    (hc : mkCode 2 (tileDie t) cause = c) : c ∈ (latched s { code := c, engine := t, slots }).coll.log
      ∧ (latched s { code := c, engine := t, slots }).coll.status.getLsbD (tileDie t) = true := by
  obtain ⟨hclass, hunit, -⟩ := code_parts (cls := 2) (unit := tileDie t) (cause := cause) (by decide) (by have := tileDie_lt ht; omega) hcause
  rw [hc] at hclass hunit
  have hcontained : codeClass c ≠ 1 := by omega
  have hbit := latch_status_unit (now := time s)
    (x := { s.coll with recs := s.coll.recs ++ faultRecs s { code := c, engine := t, slots } }) hcontained
  rw [hunit] at hbit
  simp only [latched_coll]
  exact ⟨mem_latch_log hcontained, hbit⟩

/-! ### A tile that is reset for a fault -/

/-- R431, Table Faults-9: how a tile that is not withdrawn until block reset, and is under no self-test, stands after the fault, and its
steps. -/
theorem contain_inService {c : Code} (hd : codeUnit c < 32) (hcause : codeCause c ≤ 0x0B) (hdata : codeCause c ≠ 0x02)
    (hbound : codeCause c ≠ 0x0A) (ht : t < 2048) (hserves : (s.tile t).withdrawn ≠ 2) (htesting : (s.tile t).testing = none) :
    let w := contain s { code := c, engine := t }
    w.coll.log = s.coll.log ∧ w.coll.status = s.coll.status ∧ (w.tile t).withdrawn = max 1 (s.tile t).withdrawn
      ∧ (w.tile t).testing = (if s.gst.stopped then none else some [])
      ∧ ∀ k st, k ∈ stepsIn s t → tfind s.steps k = some st → Undecided st → FailsWith w k (faultStatus c) := by
  have hengine : faultEngine { code := c, engine := t } = some t := faultEngine_of_tile hd (by show codeCause c ≤ _; omega)
  have hsteps : faultSteps s { code := c, engine := t } = stepsIn s t := by
    simp only [faultSteps, hengine, if_pos ht]
    rw [if_neg (by omega), if_neg (by omega)]
  obtain ⟨hwithdrawn, htests⟩ := faultOpened_tile s { code := c, engine := t } t t
  have hcoll := faultOpened_coll s { code := c, engine := t } t
  have hstop : (faultOpened s { code := c, engine := t } t).gst = s.gst := (stepsFailed_calm s _).stop
  have hfails (k : Nat) (st : Step) (hk : k ∈ stepsIn s t) (hst : tfind s.steps k = some st) (hopen : Undecided st) :
      FailsWith (faultOpened s { code := c, engine := t } t) k (faultStatus c) := stepsFailed_failsWith (hsteps ▸ hk) hst hopen
  have hcontain : contain s { code := c, engine := t } = if s.gst.stopped then setWithdrawn (faultOpened s { code := c, engine := t } t) t 1
      else beginEngineReset (faultOpened s { code := c, engine := t } t) t [] := by
    have hstands : ¬ (withdrawnOf (stepsFailed s { code := c, engine := t }) t = 2 ∨ t < 2048 ∧ (codeCause c = 0x02 ∨ codeCause c = 0x0A)) := by
      rw [withdrawnOf_tile ht, (stepsFailed_tile s _ t).1]
      omega
    have hidle : ¬ testingOf (faultOpened s { code := c, engine := t } t) t ≠ none := by
      rw [testingOf_tile ht, htests, htesting]
      simp
    rw [← hstop]
    simp only [contain, hengine]
    exact (if_neg hstands).trans (if_neg hidle)
  generalize faultOpened s { code := c, engine := t } t = f at *
  intro w
  obtain ⟨hclearedSt, hclearedTe⟩ := engineCleared_tile f t t
  have hreset : beginEngineReset f t [] = setTesting (setWithdrawn (engineCleared f t) t 1) t (some []) := by
    have hstands : ¬ withdrawnOf (engineCleared f t) t = 2 := by
      rw [withdrawnOf_tile ht, hclearedSt, hwithdrawn]
      exact hserves
    have hrequests : (testingOf (engineCleared f t) t).getD [] ++ [] = [] := by
      rw [testingOf_tile ht, hclearedTe, htests, htesting]
      rfl
    refine (if_neg hstands).trans ?_
    exact congrArg (fun q => setTesting (setWithdrawn (engineCleared f t) t 1) t (some q)) hrequests
  have hkept := (engineCleared_calm f t).collector
  have hstays (k : Nat) (x : Code) (h : FailsWith f k x) : FailsWith (engineCleared f t) k x := engineCleared_failsWith h
  simp only [w, hcontain, hreset, setWithdrawn_tile ht, setTesting_tile ht]
  generalize engineCleared f t = e at *
  split
  · refine ⟨by simp [hcoll], by simp [hcoll], ?_, ?_, fun k st hk hst hopen => hfails k st hk hst hopen⟩
    · simp [hwithdrawn, Nat.max_comm]
    · simp [htests, htesting]
  · refine ⟨by simp [hkept, hcoll], by simp [hkept, hcoll], ?_, by simp, fun k st hk hst hopen => hstays k _ (hfails k st hk hst hopen)⟩
    simp [hclearedSt, hwithdrawn, Nat.max_comm]

/-- R75, R431: what the report of a fault that resets a tile does. -/
theorem report_inService {cause : Nat} (ht : t < 2048) (hinit : s.coll.init = true) (hcause : cause ≤ 0x0B) (hdata : cause ≠ 0x02)
    (hbound : cause ≠ 0x0A) (hserves : (s.tile t).withdrawn ≠ 2) (htesting : (s.tile t).testing = none) :
    let w := report s { code := mkCode 2 (tileDie t) cause, engine := t }
    mkCode 2 (tileDie t) cause ∈ w.coll.log ∧ w.coll.status.getLsbD (tileDie t) = true ∧ (w.tile t).withdrawn = max 1 (s.tile t).withdrawn
      ∧ (w.tile t).testing = (if s.gst.stopped then none else some [])
      ∧ ∀ k st, k ∈ stepsIn s t → tfind s.steps k = some st → Undecided st → FailsWith w k 0x0C01 := by
  intro w
  have hw : w = _ := report_of_die [] ht (by omega) hinit
  obtain ⟨-, hunit, hcauses⟩ := code_parts (cls := 2) (unit := tileDie t) (cause := cause) (by decide) (by have := tileDie_lt ht; omega) (by omega)
  have hlatch := latched_of_die (s := s) (cause := cause) [] ht (by omega) rfl
  have hstatus := faultStatus_of_die (cause := cause) (tileDie_lt ht) (by omega)
  generalize mkCode 2 (tileDie t) cause = c at *
  have htile : (latched s { code := c, engine := t }).tile t = s.tile t := latched_tile ..
  have hsteps : (latched s { code := c, engine := t }).steps = s.steps := latched_steps ..
  have hstop : (latched s { code := c, engine := t }).gst = s.gst := latched_gst ..
  have hin : stepsIn (latched s { code := c, engine := t }) t = stepsIn s t := by simp only [stepsIn, if_pos ht, htile]
  obtain ⟨hlog, hbits, hwithdrawn, htests, hfails⟩ := contain_inService (s := latched s { code := c, engine := t }) (c := c) (t := t)
    (by have := tileDie_lt ht; omega) (by omega) (by omega) (by omega) ht (by rw [htile]; exact hserves) (by rw [htile]; exact htesting)
  rw [hw, withIbi_coll, withIbi_tile, hlog, hbits, hwithdrawn, htests, htile, hstop]
  refine ⟨hlatch.1, hlatch.2, rfl, rfl, fun k st hk hst hopen => ?_⟩
  have hf := hfails k st (hin ▸ hk) (hsteps ▸ hst) hopen
  rw [hstatus] at hf
  simpa [FailsWith] using hf

/-! ### The commands -/

/-- Work that a tile holds is among the work of the engine (R448). -/
theorem mem_stepsIn_run (ht : t < 2048) (hrun : (s.tile t).run = some r) : r.slot ∈ stepsIn s t := by
  simp only [stepsIn, if_pos ht, hrun]
  exact List.mem_dedup.2 (List.mem_map_of_mem (by simp))

theorem mem_stepsIn_tail (ht : t < 2048) (htail : r ∈ (s.tile t).tails) : r.slot ∈ stepsIn s t := by
  simp only [stepsIn, if_pos ht]
  exact List.mem_dedup.2 (List.mem_map_of_mem (List.mem_append_right _ htail))

theorem stepsIn_advance (now t : Nat) (ht : t < 2048) : stepsIn (advance s now) t = stepsIn s t := by
  simp only [stepsIn, if_pos ht, advance_tile]

theorem exec_residueWindowCompare (now a b : Nat) (vector : Bool) (hready : ready s = true) (hbusy : tileBusy s t = true)
    (hcalm : s.coll.inject = []) : exec (.residueWindowCompare now t vector a b) s = .next (if a % 255 = b % 255 then
      closeWin (advance s now) t vector
      else report (advance s now) { code := mkCode 2 (tileDie t) (if vector then 0x05 else 0x03), engine := t }) := by
  have hguard : (ready (advance s now) && tileBusy (advance s now) t) = true := by
    simp only [tileBusy, advance_tile] at hbusy ⊢
    rw [hbusy, ready_advance, hready]
    rfl
  have hcalm' : (advance s now).coll.inject = [] := by simpa using hcalm
  refine (timed_of s (c := fun s => ready s && tileBusy s t) hguard : execResidueWindowCompare now t vector a b s = _).trans ?_
  by_cases heq : a % 255 = b % 255 <;> simp [armed_of_calm hcalm', heq]

/-- R68: a skein that has issued and has more to issue at the start of cycle 8,193. -/
theorem skeinBoundOverrun_fails (now : Nat) (hengines : engines s = true) (hrun : (s.tile t).run = some r) (hissued : r.issued = true)
    (hcode : r.code ≠ []) (hinit : s.coll.init = true) (ht : t < 2048) (hst : tfind s.steps r.slot = some st) (hopen : Undecided st) :
    ∃ u, exec (.skeinBoundOverrun now t) s = .next u ∧ mkCode 2 (tileDie t) 0x0A ∈ u.coll.log ∧ FailsWith u r.slot 0x0C01
      ∧ (u.tile t).withdrawn = (s.tile t).withdrawn := by
  have hguard : (engines (advance s now) && (match ((advance s now).tile t).run with
      | some r => r.issued && !r.code.isEmpty
      | none => false)) = true := by
    simp only [engines, ready_advance, advance_gst, advance_tile, hrun, hissued]
    simpa [engines, hcode] using hengines
  have hexec : execSkeinBoundOverrun now t s = _ := timed_of s hguard
  refine ⟨_, hexec, ?_⟩
  have hdie := tileDie_lt ht
  obtain ⟨-, hunit, hcause⟩ := code_parts (cls := 2) (unit := tileDie t) (cause := 0x0A) (by decide) (by omega) (by decide)
  have hlatch := latched_of_die (s := advance s now) (cause := 0x0A) [] ht (by decide) rfl
  have hstatus := faultStatus_of_die (cause := 0x0A) hdie (by decide)
  rw [report_of_die [] ht (by decide) (by simpa using hinit)]
  generalize mkCode 2 (tileDie t) 0x0A = c at *
  have hengine : faultEngine { code := c, engine := t } = some t := faultEngine_of_tile (by show codeUnit c < _; omega) (by show codeCause c ≤ _; omega)
  have hsteps : faultSteps (latched (advance s now) { code := c, engine := t }) { code := c, engine := t } = stepsIn s t := by
    simp only [faultSteps, hengine, if_pos ht, hcause, stepsIn, latched_tile, advance_tile]
    rfl
  have hstays : withdrawnOf (stepsFailed (latched (advance s now) { code := c, engine := t }) { code := c, engine := t }) t = 2
      ∨ t < 2048 ∧ (codeCause c = 0x02 ∨ codeCause c = 0x0A) := .inr ⟨ht, .inr hcause⟩
  have hcontain : contain (latched (advance s now) { code := c, engine := t }) { code := c, engine := t }
      = stepsFailed (latched (advance s now) { code := c, engine := t }) { code := c, engine := t } := by
    simp only [contain, hengine]
    exact if_pos hstays
  rw [hcontain]
  have hfails := stepsFailed_failsWith (hsteps ▸ mem_stepsIn_run ht hrun) (by rw [latched_steps, advance_steps]; exact hst) hopen
  have hkept := (stepsFailed_tile (latched (advance s now) { code := c, engine := t }) { code := c, engine := t } t).1
  rw [hstatus] at hfails
  refine ⟨?_, by simpa [FailsWith] using hfails, ?_⟩
  · rw [withIbi_coll, (stepsFailed_calm _ _).collector]
    exact hlatch.1
  · rw [withIbi_tile, hkept, latched_tile, advance_tile]

/-! #### Scrubbing -/

/-- The state in which the scrubber has waked the tile (R83). -/
def awake (s : State) (now t : Nat) : State := (advance s now).modTile t fun x => { x with gated := false }

theorem exec_patrolScrub (now t w n : Nat) (hup : s.mainReset = false) (ht : t < tileCount s.variant) (hw : w < 262144) :
    exec (.patrolScrub now t w n) s = .next (if n = 0 then awake s now t
      else if n = 1 then report (awake s now t) { code := mkCode 1 (tileDie t) 0x01, engine := t }
      else report ((awake s now t).modTile t fun x => { x with poison := addNew x.poison w })
        { code := mkCode 2 (tileDie t) 0x02, engine := t }) :=
  (timed_of s (by simp [up, hup, ht, hw]) : execPatrolScrub now t w n s = _)

/-- R420: a corrected fault of a tile is counted, and shows nowhere else. -/
theorem report_corrected (ht : t < 2048) (hinit : s.coll.init = true) :
    let w := report s { code := mkCode 1 (tileDie t) 0x01, engine := t }
    tget w.coll.corr (tileDie t) 0 = min 0xFFFF (tget s.coll.corr (tileDie t) 0 + 1) ∧ w.coll.status = s.coll.status
      ∧ w.tiles = s.tiles ∧ w.steps = s.steps ∧ w.out = s.out := by
  obtain ⟨hclass, hunit, -⟩ := code_parts (cls := 1) (unit := tileDie t) (cause := 0x01) (by decide) (by have := tileDie_lt ht; omega) (by decide)
  generalize mkCode 1 (tileDie t) 0x01 = c at *
  have hquiet : ¬ (c = 0xA501 ∨ c = 0xA502) := by
    rintro (h | h) <;> rw [h] at hclass <;> exact absurd hclass (by decide)
  have hlatched : latched s { code := c, engine := t }
      = s.modColl fun x => latch (time s) { x with recs := x.recs ++ faultRecs s { code := c, engine := t } } c := by
    simp only [latched, if_neg hquiet]
  have hfault : faultN (latched s { code := c, engine := t }) = faultN s := by
    rw [hlatched]
    simp only [faultN, aonUp, modColl_aon, modColl_mainReset, modColl_coll, modColl_fresh, latch_of_corrected hclass]
    rfl
  have hpin : (latched s { code := c, engine := t }).aon = s.aon := by rw [hlatched]; rfl
  intro w
  have hw : w = latched s { code := c, engine := t } := by
    have hreport := report_of_init (s := s) (r := { code := c, engine := t }) (by show codeClass c ≠ 0; omega)
      (by show codeUnit c ≤ 44; have := tileDie_lt ht; omega) hinit
    rw [reacted, if_pos hclass] at hreport
    refine hreport.trans ?_
    rw [withIbi, hfault, hpin]
    simp
  rw [hw, hlatched]
  simp only [modColl_coll, modColl_steps, latch_of_corrected hclass, hunit, tget_tput_self, true_and]
  exact ⟨rfl, rfl, rfl⟩

/-- A poisoned word of the scratchpad that nothing has consumed fails nothing (R63). -/
theorem report_unread (ht : t < 2048) (hinit : s.coll.init = true) :
    let w := report s { code := mkCode 2 (tileDie t) 0x02, engine := t }
    w.coll.status.getLsbD (tileDie t) = true ∧ w.tiles = s.tiles ∧ w.steps = s.steps := by
  have hdie := tileDie_lt ht
  obtain ⟨hunit, -, hcause⟩ := code_of_stored hdie
  have hlatch := latched_of_die (s := s) (cause := 0x02) [] ht (by decide) rfl
  intro w
  have hw : w = _ := report_of_die [] ht (by decide) hinit
  generalize mkCode 2 (tileDie t) 0x02 = c at *
  have hengine : faultEngine { code := c, engine := t } = some t := faultEngine_of_tile (by show codeUnit c < _; omega) (by show codeCause c ≤ _; omega)
  have hnone : faultSteps (latched s { code := c, engine := t }) { code := c, engine := t } = [] := by
    simp only [faultSteps, hengine, if_pos ht, hcause]
    rfl
  have hfailed : stepsFailed (latched s { code := c, engine := t }) { code := c, engine := t } = latched s { code := c, engine := t } := by
    simp only [stepsFailed, faultParts, hnone]
    rfl
  rw [hw, contain_stored _ _ (by omega) hcause ht, hfailed]
  refine ⟨by simpa using hlatch.2, ?_, by simp⟩
  rw [withIbi_eq, latched_eq]

/-! #### The oscillator -/

theorem exec_oscillatorOutOfLock (now permille ns : Nat) (hup : s.mainReset = false) (ht : t < tileCount s.variant) :
    exec (.oscillatorOutOfLock now t permille ns) s = .next (if 20 < permille ∧ 2000 < ns then
      report (advance s now) { code := mkCode 2 (tileDie t) 0x0B, engine := t } else s) := by
  show execOscillatorOutOfLock now t permille ns s = _
  simp [execOscillatorOutOfLock, timed, up, hup, ht]

theorem tileCount_le (v : Variant) : tileCount v ≤ 2048 := by cases v <;> decide

/-- Settles O25. -/
theorem checksOfATile : Obligations.ChecksOfATile := by
  unfold Obligations.ChecksOfATile
  refine ⟨fun s now t a b vector hready hbusy hcalm => ?_,
    fun s now t r st hengines hrun hissued hcode hinit ht hst hopen =>
      skeinBoundOverrun_fails now hengines hrun hissued hcode hinit ht hst hopen,
    fun s t idle hready hrun => ?_, fun s now t w hup hinit ht hw => ?_, fun s now t permille ns hup hinit ht => ?_⟩
  · intro shut
    have hexec := exec_residueWindowCompare now a b vector hready hbusy hcalm
    refine ⟨fun heq => ?_, fun hne hinit ht hserves htesting => ?_⟩
    · rw [if_pos heq] at hexec
      refine ⟨_, hexec, rfl, fun k hk => ?_, ?_⟩
      · rw [closeWin, tile_modTile_ne _ _ hk, advance_tile]
      · rw [closeWin, tile_modTile_self, advance_tile]
    · rw [if_neg hne] at hexec
      obtain ⟨hlog, hstatus, hwithdrawn, htests, hfails⟩ := report_inService (s := advance s now) (t := t)
        (cause := if vector then 0x05 else 0x03) ht (by simpa using hinit) (by split <;> decide) (by split <;> decide)
        (by split <;> decide) (by simpa using hserves) (by simpa using htesting)
      rw [advance_tile] at hwithdrawn
      rw [advance_gst] at htests
      rw [stepsIn_advance now t ht, advance_steps] at hfails
      exact ⟨_, hexec, hlog, hwithdrawn, htests, hstatus, fun r st hrun => hfails _ st (mem_stepsIn_run ht hrun),
        fun r hr st => hfails _ st (mem_stepsIn_tail ht hr)⟩
  · have hexec : exec (.clockGate t idle) s = .next (if 64 ≤ idle then s.modTile t (fun x => { x with gated := true }) else s) := by
      show execClockGate t idle s = _
      rcases hrun with hrun | ⟨r, hrun, hfetch⟩
      · simp [execClockGate, untimed, hready, hrun]
      · simp [execClockGate, untimed, hready, hrun, hfetch]
    refine ⟨fun hidle => ?_, fun hidle => ?_⟩
    · rw [hexec, if_pos hidle]
      rfl
    · rw [hexec, if_neg (by omega)]
  · have ht' : t < 2048 := Nat.lt_of_lt_of_le ht (tileCount_le s.variant)
    have hexec (n : Nat) := exec_patrolScrub now t w n hup ht hw
    refine ⟨⟨_, hexec 1, ?_⟩, fun n hn => ⟨_, hexec n, ?_⟩⟩
    · obtain ⟨hcorr, hstatus, htiles, hsteps, hout⟩ := report_corrected (s := awake s now t) ht' (by simpa [awake] using hinit)
      rw [if_neg (by decide), if_pos rfl]
      refine ⟨by simpa [awake] using hcorr, by simpa [awake] using hstatus, ?_, fun k hk => ?_, by simpa [awake] using hsteps, by simpa [awake] using hout⟩
      · rw [State.tile, htiles, ← State.tile, awake, tile_modTile_self, advance_tile]
      · rw [State.tile, htiles, ← State.tile, awake, tile_modTile_ne _ _ hk, advance_tile]
    · obtain ⟨hstatus, htiles, hsteps⟩ := report_unread (s := (awake s now t).modTile t fun x => { x with poison := addNew x.poison w })
        ht' (by simpa [awake] using hinit)
      rw [if_neg (by omega), if_neg (by omega)]
      have hcells (k : Nat) : (report ((awake s now t).modTile t fun x => { x with poison := addNew x.poison w })
          { code := mkCode 2 (tileDie t) 0x02, engine := t }).tile k
          = ((awake s now t).modTile t fun x => { x with poison := addNew x.poison w }).tile k := by rw [State.tile, htiles, State.tile]
      simp only [hcells, hsteps]
      refine ⟨?_, hstatus, ?_, fun k hk => ?_, by simp [awake]⟩
      · rw [tile_modTile_self]
        simp only [addNew]
        split
        · assumption
        · simp
      · rw [tile_modTile_self, awake, tile_modTile_self, advance_tile]
      · rw [tile_modTile_ne _ _ hk, awake, tile_modTile_ne _ _ hk, advance_tile]
  · have ht' : t < 2048 := Nat.lt_of_lt_of_le ht (tileCount_le s.variant)
    have hexec := exec_oscillatorOutOfLock now permille ns hup ht
    refine ⟨fun hdrift hlong hserves htesting => ?_, fun hlocked => ?_⟩
    · rw [if_pos ⟨hdrift, hlong⟩] at hexec
      obtain ⟨hlog, -, hwithdrawn, htests, -⟩ := report_inService (s := advance s now) (t := t) (cause := 0x0B) ht' (by simpa using hinit)
        (by decide) (by decide) (by decide) (by simpa using hserves) (by simpa using htesting)
      rw [advance_tile] at hwithdrawn
      rw [advance_gst] at htests
      exact ⟨_, hexec, hlog, hwithdrawn, htests⟩
    · rw [hexec, if_neg (by omega)]

end Sys2Proof.Machine

/-! PROOFS. Answers to messages, and the step queues (O26). -/

namespace Sys2Proof.Machine

open Sys2Proof.Claims

variable {s t u v : State} {m : Msg}

/-! ### Answers -/

theorem answerWith_rest (s : State) (f tag status detail : Nat) (payload ext : List Byte) (waits : Bool) :
    answerWith s f tag status detail payload ext waits
      = { s with funcs := (answerWith s f tag status detail payload ext waits).funcs } := by
  unfold answerWith
  split <;> rfl

/-- A message is refused, and nothing else is done. -/
theorem replies_refuse (s : State) (m : Msg) (status : Nat) :
    Replies s (applyAns (take s m) m (.refuse status)) m (rspTo m status 0 [] [] false) := replies_answerWith s m ..

/-- A message is answered at once, after an effect that changes no function. -/
theorem answered_reply (ht : t.funcs = (take s m).funcs) (status detail : Nat) (payload ext : List Byte) (waits : Bool) :
    ∃ fs, applyAns (take s m) m (.reply t status detail payload ext waits) = { t with funcs := fs }
      ∧ Answered s { t with funcs := fs } m (rspTo m status detail payload ext waits) ∧ OthersKeep s { t with funcs := fs } m := by
  have hrest := answerWith_rest t m.func m.tag status detail payload ext waits
  refine ⟨_, hrest, ?_, ?_⟩ <;> rw [← hrest]
  · exact answered_answerWith ht ..
  · exact othersKeep_answerWith ht _ _ _ _ _

theorem answered_detail (ht : t.funcs = (take s m).funcs) (detail : Nat) :
    ∃ fs, applyAns (take s m) m (.detail t detail) = { t with funcs := fs }
      ∧ Answered s { t with funcs := fs } m (okTo m detail) ∧ OthersKeep s { t with funcs := fs } m := answered_reply ht 0 detail [] [] false

theorem answered_done (ht : t.funcs = (take s m).funcs) :
    ∃ fs, applyAns (take s m) m (.done t) = { t with funcs := fs }
      ∧ Answered s { t with funcs := fs } m (okTo m 0) ∧ OthersKeep s { t with funcs := fs } m := answered_reply ht 0 0 [] [] false

/-- An entry becomes due to a function that is not in its reset (R281). -/
theorem due_pushEntry {f : Nat} (e : Entry) (h : (s.func f).inFlr = false) : Due s (pushEntry s f e) f e := by
  simp [Due, pushEntry, h]

theorem tfind_tdel_ne {α : Type} (t : Tab α) {k j : Nat} (h : j ≠ k) : tfind (tdel t k) j = tfind t j := by
  induction t with
  | nil => rfl
  | cons e t ih =>
    obtain ⟨k', v'⟩ := e
    by_cases hk : k = k'
    · subst hk
      simp [tdel, tfind, h, ih]
    · by_cases hj : j = k'
      · simp [tdel, hk, tfind, hj]
      · simp [tdel, hk, tfind, hj, ih]

/-! ### QUEUE_CREATE -/

/-- The queue that QUEUE_CREATE makes (R297). -/
def createdQueue (m : Msg) (j : Nat) : Queue :=
  { live := true, part := namedPart m, j, ring := fld m.payload 4 4, entries := fld m.payload 8 2
    ordered := fld m.payload 10 1 == 1, crTag := some (m.func, m.tag) }

theorem queueCreate_answers {i q j : Nat} (h : Passes s (ownMsg s m 0x0401 11 [] (decide (fld m.payload 10 1 ≤ 1))) m)
    (hobj : objOf s (namedPart m) (fld m.payload 4 4) = some i) (hlow : 16 ≤ fld m.payload 8 2) (hhigh : fld m.payload 8 2 ≤ 4096)
    (hpow : 2 ^ log2 (fld m.payload 8 2) = fld m.payload 8 2)
    (hroom : 128 * fld m.payload 8 2 ≤ (memObj s (namedPart m) i).bytes) (hmapped : (memObj s (namedPart m) i).hostMap = true)
    (hquota : (partQueues s (namedPart m)).length < (s.part (namedPart m)).qQueues)
    (hq : freeIndex s.queues (fun _ => true) 4096 = some q)
    (hj : (List.range (s.part (namedPart m)).qQueues).find? (fun j => (partQueues s (namedPart m)).all fun e => e.2.j != j) = some j) :
    exec (.queueCreate m) s = .next (applyAns (take s m) m (.detail ((take s m).modQueue q fun _ => createdQueue m j) (q + 65536 * j))) := by
  have hexec : execQueueCreate m s = _ := mbx_of_passes h rfl
  have hobj' : objOf (take s m) (namedPart m) (fld m.payload 4 4) = some i := hobj
  have hroom' : ¬ ((memObj (take s m) (namedPart m) i).bytes < 128 * fld m.payload 8 2 ∨ !(memObj (take s m) (namedPart m) i).hostMap) := by
    have hbytes : ¬ (memObj (take s m) (namedPart m) i).bytes < 128 * fld m.payload 8 2 := Nat.not_lt.2 hroom
    have hmap : (memObj (take s m) (namedPart m) i).hostMap = true := hmapped
    simp [hbytes, hmap]
  have hquota' : ¬ ((take s m).part (namedPart m)).qQueues ≤ (partQueues (take s m) (namedPart m)).length := Nat.not_le.2 hquota
  have hq' : freeIndex (take s m).queues (fun _ => true) 4096 = some q := hq
  have hj' : (List.range ((take s m).part (namedPart m)).qQueues).find?
      (fun j => (partQueues (take s m) (namedPart m)).all fun e => e.2.j != j) = some j := hj
  simp only [hobj', hlow, hhigh, hpow, hroom', hquota', hq', hj', and_self, decide_true, beq_self_eq_true, Bool.and_self, Bool.not_true,
    Bool.false_eq_true, if_false] at hexec
  exact hexec

/-! ### QUEUE_DESTROY -/

/-- What QUEUE_DESTROY does to the queue (R329). -/
def queueLeft (s : State) (q : Nat) : State :=
  if s.steps.any fun e => e.2.queue == q then s.modQueue q fun x => { x with destroyed := true } else { s with queues := tdel s.queues q }

theorem queueLeft_spec (s : State) (q : Nat) : queueLeft s q = { s with queues := (queueLeft s q).queues }
    ∧ ((∀ e ∈ s.steps, e.2.queue ≠ q) → tfind (queueLeft s q).queues q = none)
    ∧ ((∃ e ∈ s.steps, e.2.queue = q) → (queueLeft s q).queue q = { s.queue q with destroyed := true })
    ∧ ∀ k, k ≠ q → tfind (queueLeft s q).queues k = tfind s.queues k := by
  have hany : (s.steps.any fun e => e.2.queue == q) = true ↔ ∃ e ∈ s.steps, e.2.queue = q := by simp
  unfold queueLeft
  by_cases hwork : ∃ e ∈ s.steps, e.2.queue = q
  · obtain ⟨e, he, hqueue⟩ := id hwork
    rw [if_pos (hany.2 hwork)]
    exact ⟨rfl, fun hnone => absurd hqueue (hnone e he), fun _ => tget_tput_self .., fun k hk => tfind_tput_ne _ _ hk⟩
  · rw [if_neg (mt hany.1 hwork)]
    exact ⟨rfl, fun _ => tfind_tdel_self _ q, fun h => absurd h hwork, fun k hk => tfind_tdel_ne _ hk⟩

theorem queueDestroy_answers {q : Nat} (h : Passes s (ownMsg s m 0x0402 6 [] true) m)
    (hq : queueNamed s m.func (namedPart m) (fld m.payload 4 2) = some q) :
    exec (.queueDestroy m) s = .next (applyAns (take s m) m (.done (reap (queueLeft (take s m) q) (namedPart m)))) := by
  have hexec : execQueueDestroy m s = _ := mbx_of_passes h rfl
  have hq' : queueNamed (take s m) m.func (namedPart m) (fld m.payload 4 2) = some q := hq
  simp only [hq'] at hexec
  exact hexec

/-! ### STEP_QUEUE_DOORBELL -/

theorem exec_stepQueueDoorbell {func index q : Nat} (tail : Nat) (hok : doorbellOk s func index = true)
    (hq : (if func = 0 then some index else (boundPart s func).bind fun p => queueNamed s func p index) = some q) :
    exec (.stepQueueDoorbell func index tail) s = .next (if (s.queue q).entries < (65536 + tail % 65536 - (s.queue q).head) % 65536 then
      pushEntry (s.modQueue q fun y => { y with stopped := true }) (s.part (s.queue q).part).owner
        { kind := 3, status := 0x0810, queue := queueField s (s.queue q).part q }
      else s.modQueue q fun y => { y with tail := tail % 65536 }) := by
  refine (untimed_of s (c := fun s => doorbellOk s func index) hok : execStepQueueDoorbell func index tail s = _).trans ?_
  simp only [ringDoorbell, hq]

/-- Settles O26. -/
theorem stepQueues : Obligations.StepQueues := by
  unfold Obligations.StepQueues
  refine ⟨fun s m i q j h hobj hlow hhigh hpow hroom hmapped hquota hq hj => ?_, fun s m h hobj => ?_, fun s m q h hq => ?_,
    fun s func index tail q hok hq => ⟨fun hroom => ?_, fun hover hflr => ?_⟩⟩
  · obtain ⟨fs, hans, hanswered, hothers⟩ := answered_detail (s := s) (m := m) (t := (take s m).modQueue q fun _ => createdQueue m j) rfl
      (q + 65536 * j)
    have hexec := queueCreate_answers h hobj hlow hhigh hpow hroom hmapped hquota hq hj
    rw [hans] at hexec
    exact ⟨_, hexec, hanswered, hothers, rfl, fun k hk => tfind_tput_ne _ _ hk, tfind_tput_self ..⟩
  · have hexec : execQueueCreate m s = _ := mbx_of_passes h rfl
    have hobj' : objOf (take s m) (namedPart m) (fld m.payload 4 4) = none := hobj
    simp only [hobj'] at hexec
    exact ⟨_, hexec, replies_refuse s m _⟩
  · obtain ⟨hleft, hnone, hsome, hothers⟩ := queueLeft_spec (take s m) q
    have hfuncs : (reap (queueLeft (take s m) q) (namedPart m)).funcs = (take s m).funcs := by
      show (queueLeft (take s m) q).funcs = _
      rw [hleft]
    obtain ⟨fs, hans, hanswered, hkeep⟩ := answered_done hfuncs
    have hexec := queueDestroy_answers h hq
    rw [hans] at hexec
    refine ⟨_, hexec, hanswered, hkeep, ?_, hnone, hsome, hothers⟩
    show (queueLeft (take s m) q).steps = _
    rw [hleft]
    rfl
  · rw [exec_stepQueueDoorbell tail hok hq, if_neg (by omega)]
    rfl
  · refine ⟨_, exec_stepQueueDoorbell tail hok hq, ?_⟩
    rw [if_pos hover]
    exact ⟨tget_tput_self .., due_pushEntry (s := s.modQueue q _) _ hflr, rfl⟩

end Sys2Proof.Machine

/-! PROOFS. Signed messages, and settings, accounts and the power limit (O27). -/

namespace Sys2Proof.Machine

open Sys2Proof.Claims

variable {s t u v : State} {m : Msg} {p : Nat}

/-! ### A critical message that verifies -/

/-- The state in which a request has been taken and its counter spent (R343). -/
def spent (s : State) (m : Msg) : State := (take s m).modFunc m.func fun x =>
  { x with ctrLast := m.counter % 2 ^ 64, exhausted := m.counter % 2 ^ 64 == 2 ^ 64 - 1 }

theorem mbx_of_signed {sp : MsgSpec} {own : State → Ans} (h : Passes s sp m) (hcritical : sp.critical = true) (hsigned : Signed s m) :
    mbx sp own m s = .next (applyAns (spent s m) m (own (spent s m))) := by
  obtain ⟨htakes, hchecks, hnamed, hop⟩ := h
  obtain ⟨hmac, hcounter⟩ := hsigned
  have hrow : ((m.opcode == sp.opcode || !opcodes.contains m.opcode) && (if m.boot then canBoot s m else canTake s m.func)) = true := by
    simp [hop, htakes]
  have hspend : spend (take s m) m = some (spent s m) := by
    have hlast : ¬ m.counter ≤ ((take s m).func m.func).ctrLast := by
      rw [func_take_sender]
      exact Nat.not_le.2 hcounter
    simp only [spend, hmac, Bool.not_true, Bool.false_eq_true, if_false, if_neg hlast, spent]
  rw [mbx, untimed_of s (c := fun s => (m.opcode == sp.opcode || !opcodes.contains m.opcode) &&
    (if m.boot then canBoot s m else canTake s m.func)) hrow]
  simp [process, hchecks, hcritical, hnamed, hspend]

/-- The sender, its request taken and its counter spent. -/
theorem func_spent_sender (s : State) (m : Msg) : (spent s m).func m.func = { s.func m.func with
    reqHead := if m.boot then (s.func m.func).reqHead else ((s.func m.func).reqHead + 1) % 65536
    taken := (s.func m.func).taken ++ [takenFrom m], ctrLast := m.counter % 2 ^ 64, exhausted := m.counter % 2 ^ 64 == 2 ^ 64 - 1 } := by
  rw [spent, func_modFunc_self, func_take_sender]

/-- A critical message is answered at once, after an effect that changes no function. -/
theorem signed_reply (ht : t.funcs = (spent s m).funcs) (status detail : Nat) (payload ext : List Byte) (waits : Bool) :
    ∃ fs, applyAns (spent s m) m (.reply t status detail payload ext waits) = { t with funcs := fs }
      ∧ Answered s { t with funcs := fs } m (rspTo m status detail payload ext waits) ∧ OthersKeep s { t with funcs := fs } m
      ∧ (({ t with funcs := fs } : State).func m.func).ctrLast = m.counter % 2 ^ 64 := by
  have hsender : t.func m.func = (spent s m).func m.func := by rw [State.func, State.func, ht]
  have htaken : takenOf t m.func m.tag = some (takenFrom m) := by
    simp [takenOf, hsender, func_spent_sender, takenFrom]
  have hans : answerWith t m.func m.tag status detail payload ext waits = t.modFunc m.func fun x =>
      { x with taken := x.taken.erase (takenFrom m), rsps := x.rsps ++ [rspTo m status detail payload ext waits] } := by
    rw [answerWith, htaken]
    rfl
  have hrest := answerWith_rest t m.func m.tag status detail payload ext waits
  refine ⟨_, hrest, ?_, fun g hg => ?_, ?_⟩ <;> rw [← hrest, hans]
  · simp [Answered, hsender, func_spent_sender]
  · have hother : t.func g = (spent s m).func g := by rw [State.func, State.func, ht]
    rw [func_modFunc_ne _ _ hg, hother, spent, func_modFunc_ne _ _ hg, func_take_ne s hg]
  · simp [hsender, func_spent_sender]

/-- A critical message is refused by its own row: its counter is spent, and nothing else is done. -/
theorem signed_refuse (s : State) (m : Msg) (status : Nat) : ∃ u, applyAns (spent s m) m (.refuse status) = u
    ∧ Replies s u m (rspTo m status 0 [] [] false) ∧ (u.func m.func).ctrLast = m.counter % 2 ^ 64 := by
  obtain ⟨fs, hans, hanswered, hothers, hlast⟩ := signed_reply (s := s) (m := m) rfl status 0 [] [] false
  exact ⟨_, hans, ⟨hanswered, hothers, rfl⟩, hlast⟩

/-! ### Settings at a boundary -/

/-- The settings of a partition, in force and staged, stand. -/
def SettingsStand (p : Nat) (s t : State) : Prop := (t.part p).cur = (s.part p).cur ∧ (t.part p).staged = (s.part p).staged

theorem SettingsStand.trans {s t u : State} (h : SettingsStand p s t) (h' : SettingsStand p t u) : SettingsStand p s u :=
  ⟨h'.1.trans h.1, h'.2.trans h.2⟩

theorem SettingsStand.of_parts (h : t.parts = s.parts) : SettingsStand p s t := by
  simp only [SettingsStand, State.part, h, and_self]

theorem SettingsStand.of_modPart (s : State) (p k : Nat) (f : Part → Part)
    (hf : ∀ x, (f x).cur = x.cur ∧ (f x).staged = x.staged := by exact fun _ => ⟨rfl, rfl⟩) : SettingsStand p s (s.modPart k f) := by
  by_cases hp : p = k
  · subst hp
    rw [SettingsStand, part_modPart_self]
    exact hf _
  · rw [SettingsStand, part_modPart_ne _ _ hp]
    exact ⟨rfl, rfl⟩

theorem parts_requestRail (s : State) (d level : Nat) : (requestRail s d level).parts = s.parts := by rw [requestRail_shape]

theorem retune_settings (s : State) (p k : Nat) : SettingsStand p s (retune s k) := by
  have hrails (w : State) (ds : List Nat) : (requestRails w ds).parts = w.parts :=
    forAll_keeps State.parts (fun _ _ => parts_requestRail _ _ _) ds w
  unfold retune
  extract_lets x n ok w
  split
  · refine (SettingsStand.of_modPart s p k _).trans (.of_parts ((hrails _ _).trans (forAll_keeps State.parts (fun w t => ?_) _ _)))
    split <;> rfl
  · exact .of_parts (hrails s _)

theorem swapWatch_settings (s : State) (p k : Nat) : SettingsStand p s (swapWatch s k) := by
  have hwrite (w : State) (q o a : Nat) (bs : List Byte) : (objWrite w q o a bs).parts = w.parts := by rw [objWrite, hbmWrite]
  unfold swapWatch
  split
  · extract_lets cap t
    split
    · exact .of_modPart s p k _
    · exact (SettingsStand.of_modPart s p k _).trans (.of_parts (hwrite _ _ _ _ _))
  · extract_lets w keep
    split
    · exact .of_parts rfl
    · split
      · exact .of_modPart s p k _
      · exact .of_modPart s p k _

/-- R327: at a boundary the staged settings are in force, and none is staged. -/
theorem swapStaged_settings (s : State) (p : Nat) : ((swapStaged s p).part p).cur = (s.part p).staged.getD (s.part p).cur
    ∧ ((swapStaged s p).part p).staged = none := by
  unfold swapStaged
  extract_lets t w x
  have hset : (t.part p).cur = (s.part p).staged.getD (s.part p).cur ∧ (t.part p).staged = none := by
    simp only [t, part_modPart_self, and_self]
  have hkept : SettingsStand p t (reap (retune x p) p) :=
    (((swapWatch_settings t p p).trans (.of_modPart w p p _)).trans (retune_settings x p p)).trans (.of_modPart _ p p _)
  exact ⟨hkept.1.trans hset.1, hkept.2.trans hset.2⟩

theorem staged_bounds (s : State) (p : Nat) : Bounds s (staged s p) := by
  unfold staged
  split
  · exact swapStaged_bounds s p
  · exact retune_bounds s p

/-! ### The messages -/

/-- SCHED_SET of a clock alone (R326): the clock is staged. -/
theorem schedSet_stages {c : Nat} (h : Passes s (ownMsg s m 0x0403 20 [(6, 2)] (decide (fld m.payload 4 1 < 16))) m)
    (hmask : fld m.payload 4 1 = 1) (hclock : fld m.payload 5 1 = c) (hc : c ≤ 64) :
    exec (.schedSet m) s = .next (applyAns (take s m) m (.done (staged ((take s m).modPart (namedPart m) fun x =>
      { x with staged := some { (s.part (namedPart m)).staged.getD (s.part (namedPart m)).cur with clock := c } }) (namedPart m)))) := by
  have hexec : execSchedSet m s = _ := mbx_of_passes h rfl
  have hbits : bitOf 1 0 = true ∧ bitOf 1 1 = false ∧ bitOf 1 2 = false ∧ bitOf 1 3 = false := by decide
  have hrange : ¬ 64 < c := by omega
  simp only [hmask, hclock, hbits, hrange, Bool.true_and, Bool.false_and, Bool.or_self, decide_false, Bool.false_eq_true, if_false,
    if_true] at hexec
  exact hexec

theorem schedSet_refuses (h : Passes s (ownMsg s m 0x0403 20 [(6, 2)] (decide (fld m.payload 4 1 < 16))) m)
    (hmask : bitOf (fld m.payload 4 1) 1 = true) (hrange : fld m.payload 8 4 < 100 ∨ 100000 < fld m.payload 8 4) :
    exec (.schedSet m) s = .next (applyAns (take s m) m (.refuse 0x0811)) := by
  have hexec : execSchedSet m s = _ := mbx_of_passes h rfl
  simp only [hmask, hrange, decide_true, Bool.and_self, Bool.or_true, Bool.true_or, if_true] at hexec
  exact hexec

theorem accountRead_contexts (h : Passes s (ownMsg s m 0x0404 8 [(5, 1)] (decide (fld m.payload 4 1 ≤ 3))) m) (hkind : fld m.payload 4 1 = 0)
    (l : List (List Byte))
    (hl : (((partCtxs s (namedPart m)).map (ctxRecord s)).drop (fld m.payload 6 2)).take (m.extBytes / 64) = l) :
    exec (.accountRead m) s = .next (applyAns (take s m) m (.output (take s m) l.length l.flatten)) := by
  have hexec : execAccountRead m s = _ := mbx_of_passes h rfl
  have hrecords : accountRecords (take s m) (namedPart m) 0 = (partCtxs s (namedPart m)).map (ctxRecord s) := rfl
  have hopen : ¬ (2 ≤ 0 ∧ m.func ≠ 0) := by omega
  simp only [hkind, hopen, if_false, if_true, hrecords, hl] at hexec
  exact hexec

theorem accountRead_refuses (h : Passes s (ownMsg s m 0x0404 8 [(5, 1)] (decide (fld m.payload 4 1 ≤ 3))) m) (hkind : 2 ≤ fld m.payload 4 1)
    (hfunc : m.func ≠ 0) : exec (.accountRead m) s = .next (applyAns (take s m) m (.refuse 0x0906)) := by
  have hexec : execAccountRead m s = _ := mbx_of_passes h rfl
  have hclosed : 2 ≤ fld m.payload 4 1 ∧ m.func ≠ 0 := ⟨hkind, hfunc⟩
  simp only [hclosed, ne_eq, not_false_eq_true, and_self, if_true] at hexec
  exact hexec

/-- R328: what POWER_LIMIT does, once it has been verified. -/
theorem exec_powerLimit (h : Passes s { opcode := 0x0405, critical := true, pfOnly := true, len := some 6, rsv := [(0, 4)] } m)
    (hsigned : Signed s m) : exec (.powerLimit m) s = .next (applyAns (spent s m) m
      (if fld m.payload 4 2 < 400 ∨ maxPower s.variant < fld m.payload 4 2 ∨ fld m.payload 4 2 < Config.freeNat s.fresh then .refuse 0x0931
        else .done ({ spent s m with fresh := s.fresh + 1 }.modPower fun p => { p with limit := fld m.payload 4 2 }))) :=
  (mbx_of_signed h rfl hsigned : execPowerLimit m s = _)

/-! ### The power model -/

theorem lowerable_advance (s : State) (now : Nat) : lowerable (advance s now) = lowerable s := by
  simp only [lowerable, grantOf, advance_parts, advance_power]
  rfl

theorem exec_powerModelUpdate (now mw : Nat) (hready : ready s = true) : exec (.powerModelUpdate now mw) s = .next (
    if 1000 * s.power.limit < mw then
      match minBy (fun e => 65536 * (64 - e.2) + e.1) (lowerable s) with
      | some e => staged ((advance s now).modPower fun p => { p with lowered := e.1 :: p.lowered }) e.1
      | none => advance s now
    else if 100 * mw ≤ 95000 * s.power.limit then
      match s.power.lowered with
      | p :: l => staged ((advance s now).modPower fun x => { x with lowered := l }) p
      | [] => advance s now
    else advance s now) := by
  refine (timed_of s (by rw [ready_advance, hready]) : execPowerModelUpdate now mw s = _).trans ?_
  simp only [advance_power, lowerable_advance] <;> rfl

/-- Settings of a partition that take effect change no power setting, no step and no function. -/
theorem staged_rest (s : State) (p : Nat) : (staged s p).power = s.power ∧ (staged s p).steps = s.steps ∧ (staged s p).funcs = s.funcs := by
  rw [(staged_bounds s p).rest]
  exact ⟨rfl, rfl, rfl⟩

/-- Settles O27. -/
theorem settingsAccountsAndPower : Obligations.SettingsAccountsAndPower := by
  unfold Obligations.SettingsAccountsAndPower
  refine ⟨fun s m c h hmask hclock hc => ?_, fun s m h hmask hrange => ⟨_, schedSet_refuses h hmask hrange, replies_refuse s m _⟩,
    fun s m h hkind => ?_, fun s m h hkind hfunc => ⟨_, accountRead_refuses h hkind hfunc, replies_refuse s m _⟩,
    fun s m h hsigned hcounter => ?_, fun s now mw hready => ?_⟩
  · intro p new
    have hexec := schedSet_stages h hmask hclock hc
    have hpart : ((take s m).modPart (namedPart m) fun x => { x with staged := some new }).part p = { s.part p with staged := some new } :=
      part_modPart_self _ _ _
    have hold : ((take s m).modPart (namedPart m) fun x => { x with staged := some new }).funcs = (take s m).funcs := rfl
    have hsteps : ((take s m).modPart (namedPart m) fun x => { x with staged := some new }).steps = s.steps := rfl
    change exec (.schedSet m) s = .next (applyAns (take s m) m (.done (staged ((take s m).modPart (namedPart m) fun x =>
      { x with staged := some new }) p))) at hexec
    generalize (take s m).modPart (namedPart m) (fun x => { x with staged := some new }) = w at *
    obtain ⟨-, hsame, hfuncs⟩ := staged_rest w p
    obtain ⟨fs, hans, hanswered, -⟩ := answered_done (s := s) (m := m) (hfuncs.trans hold)
    rw [hans] at hexec
    have hboundary : atBoundary w p = true ↔ (s.part p).running = none := by rw [atBoundary, hpart, beq_iff_eq]
    refine ⟨_, hexec, hanswered, hsame.trans hsteps, fun hrun => ?_, fun hrun => ?_⟩
    · obtain ⟨hcur, hstaged⟩ := retune_settings w p p
      show ((staged w p).part p).staged = _ ∧ ((staged w p).part p).cur = _
      rw [staged, if_neg (mt hboundary.1 hrun), hcur, hstaged, hpart]
      exact ⟨rfl, rfl⟩
    · obtain ⟨hcur, hstaged⟩ := swapStaged_settings w p
      show ((staged w p).part p).staged = _ ∧ ((staged w p).part p).cur = _
      rw [staged, if_pos (hboundary.2 hrun), hcur, hstaged, hpart]
      exact ⟨rfl, rfl⟩
  · intro l
    refine ⟨_, accountRead_contexts h hkind l rfl, replies_answerWith s m .., ?_⟩
    have hlen : l.length ≤ m.extBytes / 64 := List.length_take_le _ _
    omega
  · have hexec := exec_powerLimit h hsigned
    have hctr : m.counter % 2 ^ 64 = m.counter := Nat.mod_eq_of_lt hcounter
    refine ⟨fun hlow hhigh hneed => ?_, fun hrange => ?_⟩
    · rw [if_neg (by omega)] at hexec
      obtain ⟨fs, hans, hanswered, hothers, hlast⟩ := signed_reply (s := s) (m := m)
        (t := { spent s m with fresh := s.fresh + 1 }.modPower fun p => { p with limit := fld m.payload 4 2 }) rfl 0 0 [] [] false
      exact ⟨_, hexec.trans (congrArg _ hans), hanswered, hothers, hlast.trans hctr, rfl, rfl⟩
    · rw [if_pos (by omega)] at hexec
      obtain ⟨u, hu, hreplies, hlast⟩ := signed_refuse s m 0x0931
      exact ⟨u, hexec.trans (congrArg _ hu), hreplies, hlast.trans hctr⟩
  · have hexec := exec_powerModelUpdate now mw hready
    refine ⟨fun e hover he => ?_, fun p l hbelow hl => ?_, fun hmost hleast => ?_⟩
    · rw [if_pos hover, he] at hexec
      obtain ⟨hpower, hsteps, hfuncs⟩ := staged_rest ((advance s now).modPower fun p => { p with lowered := e.1 :: p.lowered }) e.1
      refine ⟨_, hexec, ?_, ?_, ?_⟩
      · simpa using hpower
      · simpa using hsteps
      · simpa using hfuncs
    · rw [if_neg (by omega), if_pos hbelow, hl] at hexec
      obtain ⟨hpower, hsteps, -⟩ := staged_rest ((advance s now).modPower fun x => { x with lowered := l }) p
      refine ⟨_, hexec, ?_, ?_⟩
      · simpa using hpower
      · simpa using hsteps
    · rw [hexec, if_neg (by omega), if_neg (by omega)]

end Sys2Proof.Machine

/-! PROOFS. Admission and readiness of steps (O28). -/

namespace Sys2Proof.Machine

open Sys2Proof.Claims

variable {s t u v w : State} {p slot q : Nat} {st : Step}

/-! ### A switch asked of the running step -/

theorem unplace_shape (c : Nat) (hst : tfind s.steps slot = some st) : ∃ ts os sk rp rq, unplace s slot c
    = { s with tiles := ts, remOps := os, steps := tput s.steps slot { st with skeins := sk, replaced := rp, requests := rq } } := by
  simp only [unplace, State.modStep, hst]
  exact ⟨_, _, _, _, _, rfl⟩

/-- Between `s` and `u` a switch by `req` was asked in partition `p`: what is noted there, and the running step's skeins past the point
(R183, R310). -/
structure Switched (p req : Nat) (s u : State) : Prop where
  rest : u = { s with parts := u.parts, tiles := u.tiles, remOps := u.remOps, steps := u.steps }
  part : u.part p = { s.part p with switchReq := (u.part p).switchReq }
  asked : (s.part p).switchReq ≤ (u.part p).switchReq
  idle : (s.part p).running = none → u = s
  found : ∀ k r, (s.part p).running = some k → tfind s.steps k = some r → req ≤ (u.part p).switchReq
  others : ∀ j, (s.part p).running ≠ some j → tfind u.steps j = tfind s.steps j
  step : ∀ j r, tfind s.steps j = some r → ∃ r', tfind u.steps j = some r'
    ∧ r' = { r with skeins := r'.skeins, replaced := r'.replaced, requests := r'.requests }

theorem Switched.of_none (h : ∀ k, (s.part p).running = some k → tfind s.steps k = none) (req : Nat) : Switched p req s s where
  rest := rfl
  part := rfl
  asked := Nat.le_refl _
  idle _ := rfl
  found k r hk hr := absurd (h k hk) (by simp [hr])
  others _ _ := rfl
  step _ r hr := ⟨r, hr, rfl⟩

theorem requestSwitch_switched (s : State) (p req : Nat) : Switched p req s (requestSwitch s p req) := by
  unfold requestSwitch
  split
  next hrun => exact .of_none (fun k hk => by simp [hrun] at hk) req
  next k hrun =>
    split
    next hnone => exact .of_none (fun j hj => by rwa [Option.some.inj (hrun.symm.trans hj)] at hnone) req
    next r hr =>
      extract_lets n c w
      have hpart : w.part p = { s.part p with switchReq := n } := part_modPart_self _ _ _
      have hbase : Switched p req s w := by
        refine ⟨rfl, by rw [hpart], ?_, fun h => by simp [h] at hrun, fun _ _ _ _ => ?_, fun _ _ => rfl, fun _ r hr => ⟨r, hr, rfl⟩⟩
        · rw [hpart]
          exact Nat.le_max_left _ _
        · rw [hpart]
          exact Nat.le_max_right _ _
      split
      · exact hbase
      · obtain ⟨ts, os, sk, rp, rq, hu⟩ := unplace_shape (s := w) (slot := k) (st := r) (if n = 1 then c else 0) hr
        rw [hu]
        refine ⟨rfl, hbase.part, hbase.asked, fun h => by simp [h] at hrun, hbase.found, fun j hj => ?_, fun j x hx => ?_⟩
        · exact tfind_tput_ne _ _ fun h => hj (h ▸ hrun)
        · by_cases hj : j = k
          · subst hj
            obtain rfl := Option.some.inj (hr.symm.trans hx)
            exact ⟨_, tfind_tput_self _ _ _, rfl⟩
          · exact ⟨x, (tfind_tput_ne _ _ hj).trans hx, rfl⟩

/-! ### STEP_READY -/

/-- The step once it is READY (R304). -/
def readied (s : State) (st : Step) : Step := { st with stateAt := time s, state := 2 }

/-- The time that a WAITING step has waited is charged to its context (R325). -/
theorem ctx_setState (hst : tfind s.steps slot = some st) (n : Nat) (hstate : st.state = 1) (hgen : (s.ctx st.ctx).gen = st.ctxGen)
    (hlive : (s.ctx st.ctx).part.isSome = true) :
    (setState s slot n).ctx st.ctx = { s.ctx st.ctx with waitNs := (s.ctx st.ctx).waitNs + (time s - st.stateAt) } := by
  have hctxs : (setState s slot n).ctx st.ctx = (accrue s slot).ctx st.ctx := by
    unfold setState State.modStep
    split <;> rfl
  rw [hctxs]
  simp only [accrue, hst]
  rw [modStep_of_some _ _ hst]
  have hcharged : ({ s with steps := tput s.steps slot { st with stateAt := time s } } : State).ctx st.ctx = s.ctx st.ctx := rfl
  rw [hcharged, if_pos ⟨hgen, hlive⟩]
  simp [State.modCtx, State.ctx, hstate]

theorem exec_stepReady (now : Nat) (hready : ready s = true) (hst : tfind s.steps slot = some st) (hstate : st.state = 1)
    (hwaits : waitsMet s st = true) (horder : inOrder s st = true) (hres : (ownResident s st || fbResident s st) = true) :
    exec (.stepReady now slot) s = .next (requestSwitch (setState (advance s now) slot 2) st.part
      (arrivalSwitch (setState (advance s now) slot 2) (readied (advance s now) st))) := by
  have hst' : tfind (advance s now).steps slot = some st := by rw [advance_steps]; exact hst
  have hwaits' : waitsMet (advance s now) st = true := by rw [advance_eq]; exact hwaits
  have horder' : inOrder (advance s now) st = true := by rw [advance_eq]; exact horder
  have hres' : (ownResident (advance s now) st || fbResident (advance s now) st) = true := by rw [advance_eq]; exact hres
  have hset : tfind (setState (advance s now) slot 2).steps slot = some (readied (advance s now) st) := by
    rw [setState_shape 2 hst']
    exact tfind_tput_self _ _ _
  refine (timed_of s ?_ : execStepReady now slot s = _).trans ?_
  · simp only [ready_advance, hready, hst', hstate, hwaits', horder', hres']
    rfl
  · simp only [hset]
    rfl

/-- R309: the arrival of a step with a deadline, where the running one has none, asks for a switch. -/
theorem arrivalSwitch_of_none {k : Nat} {r : Step} (hrun : (s.part st.part).running = some k) (hr : tfind s.steps k = some r)
    (hnone : r.deadline = 0) (hpos : 0 < st.deadline) (hlt : st.deadline < 2 ^ 64) : arrivalSwitch s st = 1 := by
  have hbefore : deadlineRank st.deadline < deadlineRank r.deadline := by
    rw [hnone, deadlineRank, if_neg (by omega)]
    exact hlt
  simp only [arrivalSwitch, hrun, hr]
  rw [if_pos hbefore, if_pos (.inl hnone)]

theorem stepReady_spec (now : Nat) (hready : ready s = true) (hst : tfind s.steps slot = some st) (hstate : st.state = 1)
    (hwaits : waitsMet s st = true) (horder : inOrder s st = true) (hres : (ownResident s st || fbResident s st) = true) :
    ∃ t st', exec (.stepReady now slot) s = .next t ∧ tfind t.steps slot = some st' ∧ st'.state = 2 ∧ st'.stateAt = time t
      ∧ ((s.part st.part).running ≠ some slot → st' = { st with state := 2, stateAt := time t })
      ∧ ((s.ctx st.ctx).gen = st.ctxGen → (s.ctx st.ctx).part.isSome = true →
          t.ctx st.ctx = { s.ctx st.ctx with waitNs := (s.ctx st.ctx).waitNs + (time t - st.stateAt) })
      ∧ (s.part st.part).switchReq ≤ (t.part st.part).switchReq
      ∧ (∀ k r, (s.part st.part).running = some k → k ≠ slot → tfind s.steps k = some r → r.deadline = 0 → 0 < st.deadline →
          st.deadline < 2 ^ 64 → 1 ≤ (t.part st.part).switchReq)
      ∧ ((s.part st.part).running = none → (t.part st.part).switchReq = (s.part st.part).switchReq)
      ∧ (∀ k, k ≠ slot → (s.part st.part).running ≠ some k → tfind t.steps k = tfind s.steps k)
      ∧ (∀ k r, (s.part st.part).running = some k → k ≠ slot → tfind s.steps k = some r →
          ∃ r', tfind t.steps k = some r' ∧ r' = { r with skeins := r'.skeins, replaced := r'.replaced, requests := r'.requests }) := by
  have hexec := exec_stepReady now hready hst hstate hwaits horder hres
  have hst' : tfind (advance s now).steps slot = some st := by rw [advance_steps]; exact hst
  have hshape := setState_shape 2 hst'
  have hctx := ctx_setState hst' 2 hstate
  generalize hw : setState (advance s now) slot 2 = w at *
  have hsteps : w.steps = tput s.steps slot (readied (advance s now) st) := by rw [hshape, advance_steps]; rfl
  have hself : tfind w.steps slot = some (readied (advance s now) st) := by rw [hsteps]; exact tfind_tput_self _ _ _
  have hothers (k : Nat) (hk : k ≠ slot) : tfind w.steps k = tfind s.steps k := by rw [hsteps]; exact tfind_tput_ne _ _ hk
  have hpart : w.part st.part = s.part st.part := by rw [hshape]; exact congrArg (fun l => tget l st.part {}) (advance_parts s now)
  have htime : time w = time (advance s now) := by rw [hshape]; rfl
  have hctxs (c : Nat) : (advance s now).ctx c = s.ctx c := by rw [advance_eq]; rfl
  have hswitched := requestSwitch_switched w st.part (arrivalSwitch w (readied (advance s now) st))
  generalize hreq : arrivalSwitch w (readied (advance s now) st) = req at *
  obtain ⟨hrest, -, hasked, hidle, hfound, hkept, hstep⟩ := hswitched
  rw [hpart] at hasked hidle hfound hkept
  have htime' : time (requestSwitch w st.part req) = time (advance s now) := by rw [hrest]; exact htime
  have hctx' : (requestSwitch w st.part req).ctx st.ctx = w.ctx st.ctx := by rw [hrest]; rfl
  obtain ⟨x, hx, hxeq⟩ := hstep slot _ hself
  refine ⟨_, x, hexec, hx, ?_, ?_, fun hrun => ?_, fun hgen hlive => ?_, hasked, fun k r hk hne hr hzero hpos hlt => ?_, fun hrun => ?_,
    fun k hk hrun => ?_, fun k r hk hne hr => hstep k r ((hothers k hne).trans hr)⟩
  · rw [hxeq]
    rfl
  · rw [htime', hxeq]
    rfl
  · rw [htime']
    exact Option.some.inj (hx.symm.trans ((hkept slot hrun).trans hself))
  · rw [hctxs] at hctx
    rw [hctx', htime', hctx hgen hlive]
  · have hone : arrivalSwitch w (readied (advance s now) st) = 1 :=
      arrivalSwitch_of_none (by rw [show (readied (advance s now) st).part = st.part from rfl, hpart]; exact hk) ((hothers k hne).trans hr) hzero hpos hlt
    have hleast := hfound k r hk ((hothers k hne).trans hr)
    omega
  · rw [hidle hrun, hpart]
  · exact (hkept k hrun).trans (hothers k hk)

/-! ### STEP_ADMIT -/

/-- Between `s` and `t` the always-on domain and partitions changed, and no fence did. -/
structure FencesStand (s t : State) : Prop where
  rest : t = { s with aon := t.aon, parts := t.parts }
  time : time t = time s
  fences : ∀ k, (t.part k).fences = (s.part k).fences

theorem FencesStand.refl (s : State) : FencesStand s s := ⟨rfl, rfl, fun _ => rfl⟩

theorem FencesStand.trans (h : FencesStand s t) (h' : FencesStand t u) : FencesStand s u :=
  ⟨by rw [h'.rest, h.rest], h'.time.trans h.time, fun k => (h'.fences k).trans (h.fences k)⟩

theorem FencesStand.of_modPart (s : State) (p : Nat) (f : Part → Part) (hf : ∀ x, (f x).fences = x.fences := by exact fun _ => rfl) :
    FencesStand s (s.modPart p f) := by
  refine ⟨rfl, rfl, fun k => ?_⟩
  by_cases hk : k = p
  · rw [hk, part_modPart_self, hf]
  · rw [part_modPart_ne _ _ hk]

theorem wantBobbin_fences (s : State) (p i : Nat) : FencesStand s (wantBobbin s p i) := by
  unfold wantBobbin
  extract_lets b
  split
  · exact .refl s
  · exact (FencesStand.of_modPart s p _).trans (.of_modPart _ p _)

theorem armMonitor_fences (s : State) : FencesStand s (armMonitor s) := ⟨rfl, rfl, fun _ => rfl⟩

theorem reserveAt_fences {c g base : Nat} {r : State} (h : reserveAt s p c g base = some (some r)) : FencesStand s r := by
  unfold reserveAt at h
  extract_lets n at h
  split at h
  · obtain rfl := Option.some.inj (Option.some.inj h)
    exact .refl s
  · split at h
    · simp at h
    · split at h
      · obtain rfl := Option.some.inj (Option.some.inj h)
        exact .of_modPart s p _
      · simp at h

theorem reserveBoth_fences {c g base fbBase : Nat} {fb : Option Nat} {r : State} (h : reserveBoth s p c g base fb fbBase = some (some r)) :
    FencesStand s r := by
  unfold reserveBoth at h
  split at h
  next a i hfirst => exact (reserveAt_fences hfirst).trans (reserveAt_fences h)
  next => exact reserveAt_fences h

/-- A state with another time and other queues. -/
def retimed (a : Aon) (qs : Tab Queue) (s : State) : State := { s with aon := a, queues := qs }

/-- Reservations read neither the time nor the queues. -/
theorem reserveAt_retimed {a : Aon} (ha : a.coords = s.aon.coords) (qs : Tab Queue) (p c g base : Nat) :
    reserveAt (retimed a qs s) p c g base = (reserveAt s p c g base).map (Option.map (retimed a qs)) := by
  have hpkg : myPkg (retimed a qs s) = myPkg s := by simp only [myPkg, retimed, ha]
  have hspaces (f : Upf.File) (j : Nat) : recvSpace (retimed a qs s) f j = recvSpace s f j := by
    simp only [recvSpace, recvSources, hpkg]
    rfl
  have hneed : needReserve (retimed a qs s) p c g = needReserve s p c g := by
    simp only [needReserve, hspaces]
    rfl
  have hused : usedRanges (retimed a qs s) p = usedRanges s p := rfl
  have hspace : objSpace ((retimed a qs s).part p) = objSpace (s.part p) := rfl
  simp only [reserveAt, hneed, hused, hspace]
  split
  · rfl
  · split
    · rfl
    · split <;> rfl

theorem reserveAt_aon {c g base : Nat} {r : State} (h : reserveAt s p c g base = some (some r)) : r.aon = s.aon := by
  unfold reserveAt at h
  extract_lets n at h
  split at h
  · exact Option.some.inj (Option.some.inj h) ▸ rfl
  · split at h
    · simp at h
    · split at h
      · exact Option.some.inj (Option.some.inj h) ▸ rfl
      · simp at h

theorem reserveBoth_retimed {a : Aon} (ha : a.coords = s.aon.coords) (qs : Tab Queue) (p c g base : Nat) (fb : Option Nat) (fbBase : Nat) :
    reserveBoth (retimed a qs s) p c g base fb fbBase = (reserveBoth s p c g base fb fbBase).map (Option.map (retimed a qs)) := by
  have hfirst (r : State) (h : reserveAt s p c g base = some (some r)) := reserveAt_aon h
  simp only [reserveBoth, reserveAt_retimed ha]
  generalize reserveAt s p c g base = o at hfirst
  rcases o with _ | _ | r
  · rfl
  · rfl
  · cases fb with
    | none => rfl
    | some i => exact reserveAt_retimed (by rw [hfirst r rfl, ha]) qs p c i fbBase

/-- A step that waits on nothing that has failed sees no fence yet. -/
theorem waitView_eq_zero {seen : Nat → Nat} (l : List (Nat × Nat)) (h : ∀ e ∈ l, e.1 = 0xFFFFFF ∨ seen e.1 = 0) :
    l.foldl (fun v e => if e.1 = 0xFFFFFF then v else setView v e.2 (seen e.1)) 0 = 0 := by
  induction l with
  | nil => rfl
  | cons e l ih =>
    have hfirst : (if e.1 = 0xFFFFFF then 0 else setView 0 e.2 (seen e.1)) = 0 := by
      rcases h e (.head l) with hnone | hunseen
      · rw [if_pos hnone]
      · rw [hunseen]
        simp [setView]
    rw [List.foldl_cons, hfirst]
    exact ih fun e he => h e (.tail _ he)

/-- R231, R240, R300: an accepted step of no job whose fences have not failed takes its slot; nothing of another step changes. -/
theorem settleStep_spec (s : State) (slot : Nat) (st : Step) (hjob : st.job = none)
    (hseen : ∀ h ∈ st.waits, h = 0xFFFFFF ∨ (tget (s.part st.part).fences (h % 65536) {}).status.getD 0 = 0) :
    ∃ n, let u := settleStep s slot st
      u = { s with aon := u.aon, parts := u.parts, steps := u.steps } ∧ time u = time s ∧ tfind u.steps slot = some { st with arrival := n, waitView := 0 }
        ∧ ∀ k, k ≠ slot → tfind u.steps k = tfind s.steps k := by
  refine ⟨(s.part st.part).arrivals, ?_⟩
  simp only [settleStep]
  generalize hw : forAll _ _ _ = w
  have hstand : FencesStand { s with steps := tput s.steps slot { st with arrival := (s.part st.part).arrivals } } w := by
    rw [← hw]
    exact ((armMonitor_fences _).trans (.of_modPart _ st.part _)).trans
      (forAll_rel (R := FencesStand) .refl .trans (fun t b => wantBobbin_fences t st.part b) _ _)
  have hopen : openStepWindows w slot { st with arrival := (s.part st.part).arrivals } = w := by
    simp only [openStepWindows, hjob]
  rw [hopen]
  have hview : st.waits.zipIdx.foldl (fun v e => if e.1 = 0xFFFFFF then v
      else setView v e.2 ((tget (w.part st.part).fences (e.1 % 65536) {}).status.getD 0)) 0 = 0 := by
    refine waitView_eq_zero (seen := fun h => (tget (w.part st.part).fences (h % 65536) {}).status.getD 0) _ fun e he => ?_
    rw [hstand.fences]
    exact hseen e.1 (List.fst_mem_of_mem_zipIdx he)
  rw [hview]
  have hfind : tfind w.steps slot = some { st with arrival := (s.part st.part).arrivals } := by
    rw [hstand.rest]
    exact tfind_tput_self _ _ _
  rw [if_pos rfl]
  rw [modStep_of_some _ _ hfind]
  refine ⟨?_, hstand.time, tfind_tput_self _ _ _, fun k hk => ?_⟩
  · rw [hstand.rest]
  · refine (tfind_tput_ne _ _ hk).trans ?_
    rw [hstand.rest]
    exact tfind_tput_ne _ _ hk

/-- The state from which a descriptor is admitted: its queue's head has moved on (R298). -/
def headTaken (s : State) (now q : Nat) (x : Queue) : State :=
  (advance s now).modQueue q fun _ => { x with head := (x.head + 1) % 65536, seq := (x.seq + 1) % 2 ^ 32 }

theorem headTaken_eq (s : State) (now q : Nat) (x : Queue) : headTaken s now q x
    = retimed (advance s now).aon (tput s.queues q { x with head := (x.head + 1) % 65536, seq := (x.seq + 1) % 2 ^ 32 }) s := by
  rw [headTaken, State.modQueue, advance_queues, advance_eq]
  rfl

theorem queue_headTaken (s : State) (now q : Nat) (x : Queue) :
    (headTaken s now q x).queue q = { x with head := (x.head + 1) % 65536, seq := (x.seq + 1) % 2 ^ 32 } := tget_tput_self ..

theorem exec_stepAdmit {x : Queue} (now base fbBase : Nat) (hq : tfind s.queues q = some x) (hlive : x.live = true)
    (hdestroyed : x.destroyed = false) (hstopped : x.stopped = false) (hne : x.head ≠ x.tail) (hadmits : admits s x.part = true)
    (hfree : slotFree s x.part slot = true) : exec (.stepAdmit now q slot base fbBase) s
    = .next ((acceptStep (headTaken s now q x) x.part q slot x.seq base fbBase (headDesc s x)).getD (advance s now)) := by
  have hfound : tfind (advance s now).queues q = some x := by rw [advance_queues, hq]
  have hqueue : (advance s now).queue q = x := by rw [State.queue, tget, hfound]; rfl
  have hadmits' : admits (advance s now) x.part = true := by rw [advance_eq]; exact hadmits
  have hfree' : slotFree (advance s now) x.part slot = true := by rw [advance_eq]; exact hfree
  have hdesc : headDesc (advance s now) x = headDesc s x := by rw [advance_eq]; rfl
  refine (timed_of s ?_ : execStepAdmit now q slot base fbBase s = _).trans ?_
  · simp only [hfound, hlive, hdestroyed, hstopped, hadmits', hfree']
    simpa using hne
  · have htaken : (advance s now).modQueue q (fun y => { y with head := (y.head + 1) % 65536, seq := (y.seq + 1) % 2 ^ 32 })
        = headTaken s now q x := by simp only [headTaken, State.modQueue, hqueue]
    simp only [hqueue, hdesc, htaken]

/-- The fields that a descriptor gives its step (Table Scheduling-2), once it has settled. -/
theorem acceptedStep_fields (s : State) (p q seq : Nat) (d : List Byte) (n : Nat) :
    let st : Step := { acceptedStep s (stepOf s p q seq d) d none with arrival := n, waitView := 0 }
    st.state = 1 ∧ st.fail = none ∧ st.part = p ∧ st.queue = q ∧ st.seq = seq ∧ ctxHandle st.ctx st.ctxGen = fld d 0 4
      ∧ st.deadline = fld d 24 8 ∧ st.inputs = handle3 d 48 ∧ st.outputs = handle3 d 72 ∧ st.waits = fences4 d 96
      ∧ st.signals = fences4 d 108 ∧ st.queuedAt = time s ∧ st.waitView = 0 := by
  refine ⟨rfl, rfl, rfl, rfl, rfl, ?_, rfl, rfl, rfl, rfl, rfl, rfl, rfl⟩
  exact Nat.mod_add_div (fld d 0 4) 4096

theorem acceptStep_of_passes {c g seq base fbBase : Nat} {fb : Option Nat} {d : List Byte} {r : State} (hstatus : admitStatus s p d = 0)
    (hg : (progOf s p (fld d 4 4)).getD 0 = g) (hfb : (namedFallback s p (prog s p g).upf (fld d 8 4)).getD none = fb)
    (hc : fld d 0 4 % 4096 = c) (hr : reserveBoth s p c g base fb fbBase = some (some r)) (hjob : (prog s p g).job = none) :
    acceptStep s p q slot seq base fbBase d = some (settleStep r slot (acceptedStep s (stepOf s p q seq d) d none)) := by
  have hctx : (stepOf s p q seq d).ctx = c := hc
  simp only [acceptStep, hstatus, hg, hfb, hctx, hr, hjob, ne_eq, not_true_eq_false, if_false]

/-- R300, R301: a descriptor without defect whose program belongs to no job. -/
theorem stepAdmit_accepts {x : Queue} {now base fbBase : Nat} {r : State} (hq : tfind s.queues q = some x) (hlive : x.live = true)
    (hdestroyed : x.destroyed = false) (hstopped : x.stopped = false) (hne : x.head ≠ x.tail) (hadmits : admits s x.part = true)
    (hfree : slotFree s x.part slot = true) (d : List Byte) (hd : headDesc s x = d) (hstatus : admitStatus s x.part d = 0)
    (hr : reserveBoth s x.part (fld d 0 4 % 4096) ((progOf s x.part (fld d 4 4)).getD 0) base
      ((namedFallback s x.part (prog s x.part ((progOf s x.part (fld d 4 4)).getD 0)).upf (fld d 8 4)).getD none) fbBase = some (some r))
    (hjob : (prog s x.part ((progOf s x.part (fld d 4 4)).getD 0)).job = none)
    (hfences : ∀ h ∈ fences4 d 96, h = 0xFFFFFF ∨ (tget (s.part x.part).fences (h % 65536) {}).status.getD 0 = 0) :
    ∃ t st, exec (.stepAdmit now q slot base fbBase) s = .next t ∧ tfind t.steps slot = some st ∧ st.state = 1 ∧ st.fail = none
      ∧ st.part = x.part ∧ st.queue = q ∧ st.seq = x.seq ∧ ctxHandle st.ctx st.ctxGen = fld d 0 4 ∧ st.deadline = fld d 24 8
      ∧ st.inputs = handle3 d 48 ∧ st.outputs = handle3 d 72 ∧ st.waits = fences4 d 96 ∧ st.signals = fences4 d 108
      ∧ st.queuedAt = time t ∧ st.waitView = 0 ∧ (∀ k, k ≠ slot → tfind t.steps k = tfind s.steps k) ∧ t.funcs = s.funcs
      ∧ t.queue q = { x with head := (x.head + 1) % 65536, seq := (x.seq + 1) % 2 ^ 32 } := by
  have hexec := exec_stepAdmit now base fbBase hq hlive hdestroyed hstopped hne hadmits hfree
  rw [hd] at hexec
  have hreserved := reserveBoth_retimed (advance_aon_coords s now)
    (tput s.queues q { x with head := (x.head + 1) % 65536, seq := (x.seq + 1) % 2 ^ 32 }) x.part (fld d 0 4 % 4096)
    ((progOf s x.part (fld d 4 4)).getD 0) base
    ((namedFallback s x.part (prog s x.part ((progOf s x.part (fld d 4 4)).getD 0)).upf (fld d 8 4)).getD none) fbBase
  have hqueue := queue_headTaken s now q x
  have heq := headTaken_eq s now q x
  rw [hr] at hreserved
  rw [← heq] at hreserved
  have haccept : acceptStep (headTaken s now q x) x.part q slot x.seq base fbBase d = _ :=
    acceptStep_of_passes (q := q) (slot := slot) (seq := x.seq) (by rw [heq]; exact hstatus) (by rw [heq]; rfl) (by rw [heq]; rfl) rfl hreserved
      (by rw [heq]; exact hjob)
  have hstand := reserveBoth_fences hreserved
  have hsteps : (headTaken s now q x).steps = s.steps := by rw [heq]; rfl
  have hparts : (headTaken s now q x).parts = s.parts := by rw [heq]; rfl
  have hfuncs : (headTaken s now q x).funcs = s.funcs := by rw [heq]; rfl
  rw [haccept] at hexec
  have hrest := hstand.rest
  have htime := hstand.time
  have hstand' := hstand.fences
  generalize retimed _ _ r = w at *
  generalize headTaken s now q x = n at *
  obtain ⟨k, hsettled, hsame, hfind, hothers⟩ := settleStep_spec w slot (acceptedStep n (stepOf n x.part q x.seq d) d none) rfl (fun h hh => by
    have hpart' : (acceptedStep n (stepOf n x.part q x.seq d) d none).part = x.part := rfl
    rw [hpart', hstand', State.part, hparts]
    exact hfences h hh)
  obtain ⟨hstate, hfail, hpart, hqueueIs, hseq, hctx, hdeadline, hins, houts, hwaits, hsignals, hqueued, hview⟩ :=
    acceptedStep_fields n x.part q x.seq d k
  refine ⟨_, _, hexec, hfind, hstate, hfail, hpart, hqueueIs, hseq, hctx, hdeadline, hins, houts, hwaits, hsignals, ?_, hview, fun j hj => ?_,
    ?_, ?_⟩
  · exact hqueued.trans (htime.symm.trans hsame.symm)
  · refine (hothers j hj).trans ?_
    rw [hrest, hsteps]
  · simp only [Option.getD_some]
    rw [hsettled, hrest]
    exact hfuncs
  · simp only [Option.getD_some]
    rw [hsettled, hrest]
    exact hqueue

/-- The step of a descriptor that is refused (R303). -/
def refusedStep (s : State) (st : Step) (d : List Byte) (status : Nat) : Step :=
  { st with state := 6, fail := some (BitVec.ofNat 16 status), signals := refusedSignals s st.part (fences4 d 108), notedDone := true }

/-- R303: a descriptor with a defect; its completion entry is due at once. -/
theorem stepAdmit_refuses {x : Queue} {now base fbBase : Nat} (hq : tfind s.queues q = some x) (hlive : x.live = true)
    (hdestroyed : x.destroyed = false) (hstopped : x.stopped = false) (hne : x.head ≠ x.tail) (hadmits : admits s x.part = true)
    (hfree : slotFree s x.part slot = true) (d : List Byte) (hd : headDesc s x = d) {c : Nat} (hc : admitStatus s x.part d = c)
    (hstatus : c ≠ 0) (hflr : (s.func (s.part x.part).owner).inFlr = false) :
    ∃ t st, exec (.stepAdmit now q slot base fbBase) s = .next t ∧ tfind t.steps slot = some st ∧ st.state = 6
      ∧ st.fail = some (BitVec.ofNat 16 c) ∧ st.notedDone = true
      ∧ (∃ e, Due s t (s.part x.part).owner e ∧ e.kind = 1 ∧ e.status = BitVec.ofNat 16 c ∧ e.seq = x.seq
          ∧ e.cookie = BitVec.ofNat 64 (fld d 32 8))
      ∧ t.queue q = { x with head := (x.head + 1) % 65536, seq := (x.seq + 1) % 2 ^ 32 } := by
  have hexec := exec_stepAdmit now base fbBase hq hlive hdestroyed hstopped hne hadmits hfree
  have hqueue := queue_headTaken s now q x
  have heq := headTaken_eq s now q x
  have hstatus' : admitStatus (headTaken s now q x) x.part d = c := by
    rw [heq]
    exact hc
  have hfuncs : (headTaken s now q x).funcs = s.funcs := by rw [heq]; rfl
  have hparts : (headTaken s now q x).parts = s.parts := by rw [heq]; rfl
  generalize headTaken s now q x = n at *
  have haccept : acceptStep n x.part q slot x.seq base fbBase d = some (refuseStep n slot (stepOf n x.part q x.seq d) d c) := by
    simp only [acceptStep, hstatus', if_pos hstatus]
  rw [hd, haccept] at hexec
  have howner : (n.part x.part).owner = (s.part x.part).owner := by rw [State.part, hparts, State.part]
  have hfunc (f : Nat) : n.func f = s.func f := by rw [State.func, hfuncs, State.func]
  refine ⟨_, _, hexec, tfind_tput_self _ _ _, rfl, rfl, rfl,
    ⟨stepEntry n slot (refusedStep n (stepOf n x.part q x.seq d) d c), ?_, rfl, rfl, rfl, rfl⟩, hqueue⟩
  rw [← howner, Due, ← hfunc]
  exact due_pushEntry (s := { n with steps := tput n.steps slot (refusedStep n (stepOf n x.part q x.seq d) d c) }) _
    ((congrArg Func.inFlr ((hfunc _).trans (congrArg s.func howner))).trans hflr)

/-- Settles O28. -/
theorem admissionAndReadiness : Obligations.AdmissionAndReadiness := by
  unfold Obligations.AdmissionAndReadiness
  refine ⟨fun s now q slot base fbBase x hq hlive hdestroyed hstopped hne hadmits hfree => ?_,
    fun s now slot st hready hst hstate hwaits horder hres => stepReady_spec now hready hst hstate hwaits horder hres⟩
  intro d
  refine ⟨fun hstatus hreserved hjob hfences => ?_, fun hstatus hflr => ?_⟩
  · obtain ⟨r, hr⟩ := hreserved
    exact stepAdmit_accepts hq hlive hdestroyed hstopped hne hadmits hfree d rfl hstatus hr hjob hfences
  · exact stepAdmit_refuses hq hlive hdestroyed hstopped hne hadmits hfree d rfl rfl hstatus hflr

end Sys2Proof.Machine

/-! PROOFS. Quantum, switch, spill and restore (O30). -/

namespace Sys2Proof.Machine

open Sys2Proof.Claims

variable {s t u v w : State} {p slot q k : Nat} {st : Step}

/-! ### Tables as lists -/

theorem tfind_filter {α : Type} (l : Tab α) (f : Nat → Bool) (k : Nat) : tfind (l.filter fun e => f e.1) k = if f k then tfind l k else none := by
  induction l with
  | nil => simp [tfind]
  | cons e l ih =>
    obtain ⟨k', v⟩ := e
    by_cases hk : k = k'
    · subst hk
      by_cases hf : f k
      · simp [hf, tfind]
      · simp [hf, ih]
    · by_cases hf : f k'
      · simp [hf, tfind, hk, ih]
      · simp [hf, tfind, hk, ih]

theorem tfind_of_mem {α : Type} {l : Tab α} {k : Nat} {v : α} (hnodup : (l.map (·.1)).Nodup) (h : (k, v) ∈ l) : tfind l k = some v := by
  induction l with
  | nil => exact absurd h List.not_mem_nil
  | cons e l ih =>
    obtain ⟨k', v'⟩ := e
    obtain ⟨hk', hnodup⟩ := List.nodup_cons.1 hnodup
    rcases List.mem_cons.1 h with heq | h
    · obtain ⟨rfl, rfl⟩ := Prod.mk.inj heq
      simp [tfind]
    · have hne : k ≠ k' := fun heq => hk' (heq ▸ List.mem_map_of_mem (f := (·.1)) h)
      simp [tfind, hne, ih hnodup h]

/-! ### Skeins that return to the not-started state -/

/-- The skeins from `c` on that are in their prologue (R183). -/
def backFrom (st : Step) (c : Nat) : List Nat := (st.skeins.filter fun e => e.2 == 1 && decide (c ≤ e.1)).map (·.1)

/-- The step with those skeins not started. -/
def unplaced (s : State) (slot : Nat) (st : Step) (c : Nat) : Step :=
  { st with
    skeins := st.skeins.filter fun e => !(backFrom st c).contains e.1, replaced := (st.replaced ++ backFrom st c).dedup
    requests := st.requests - (s.remOps.filter fun o => o.slot == slot && (backFrom st c).contains o.skein && o.kind == 0).length }

theorem unplace_eq (c : Nat) (hst : tfind s.steps slot = some st) : ∃ os, unplace s slot c = { s with
    tiles := tmap s.tiles fun _ t => { t with run := t.run.filter fun r => !(r.slot == slot && (backFrom st c).contains r.skein) }
    remOps := os, steps := tput s.steps slot (unplaced s slot st c) } := by
  simp only [unplace, State.modStep, hst]
  exact ⟨_, rfl⟩

/-- A tile loses at most its run (R183). -/
theorem tile_unplace (s : State) (slot c e : Nat) : (unplace s slot c).tile e = { s.tile e with run := ((unplace s slot c).tile e).run } := by
  cases hst : tfind s.steps slot with
  | none => simp [unplace, hst]
  | some st =>
    obtain ⟨os, hu⟩ := unplace_eq c hst
    have htile : (unplace s slot c).tile e = { s.tile e with
        run := (s.tile e).run.filter fun r => !(r.slot == slot && (backFrom st c).contains r.skein) } := by
      rw [hu]
      exact tile_tmap s (fun _ t => { t with run := t.run.filter fun r => !(r.slot == slot && (backFrom st c).contains r.skein) })
        (fun _ => rfl) e
    rw [htile]

theorem mem_backFrom {c e : Nat} (hnodup : (st.skeins.map (·.1)).Nodup) : e ∈ backFrom st c ↔ tget st.skeins e 0 = 1 ∧ c ≤ e := by
  simp only [backFrom, List.mem_map, List.mem_filter, Bool.and_eq_true, beq_iff_eq, decide_eq_true_eq]
  constructor
  · rintro ⟨⟨j, n⟩, ⟨hmem, rfl, hle⟩, rfl⟩
    exact ⟨by simp [tget, tfind_of_mem hnodup hmem], hle⟩
  · rintro ⟨hone, hle⟩
    cases hfind : tfind st.skeins e with
    | none => simp [tget, hfind] at hone
    | some n =>
      obtain rfl : n = 1 := by simpa [tget, hfind] using hone
      exact ⟨(e, 1), ⟨mem_of_tfind hfind, rfl, hle⟩, rfl⟩

theorem skeins_unplaced (s : State) (slot c e : Nat) (hnodup : (st.skeins.map (·.1)).Nodup) :
    tget (unplaced s slot st c).skeins e 0 = if tget st.skeins e 0 = 1 ∧ c ≤ e then 0 else tget st.skeins e 0 := by
  have hfind := tfind_filter st.skeins (fun j => !(backFrom st c).contains j) e
  have hback := mem_backFrom (c := c) (e := e) hnodup
  simp only [unplaced, tget, hfind]
  by_cases hmem : e ∈ backFrom st c
  · have hone := hback.1 hmem
    simp only [tget] at hone
    simp [hmem, hone]
  · have hone := mt hback.2 hmem
    simp only [tget] at hone
    simp [hmem, hone]

theorem mem_replaced_unplaced (s : State) (slot : Nat) {c e : Nat} (hnodup : (st.skeins.map (·.1)).Nodup) (hone : tget st.skeins e 0 = 1)
    (hle : c ≤ e) : e ∈ (unplaced s slot st c).replaced :=
  List.mem_dedup.2 (List.mem_append_right _ ((mem_backFrom hnodup).2 ⟨hone, hle⟩))

/-! ### QUANTUM_EXPIRY -/

theorem nextPoint_advance (s : State) (now : Nat) (r : Step) : nextPoint (advance s now) r = nextPoint s r := by
  rw [advance_eq]
  rfl

theorem exec_quantumExpiry {j : Nat} {r x : Step} (now : Nat) (hready : ready s = true) (hrun : (s.part p).running = some k)
    (hr : tfind s.steps k = some r) (hdue : r.quantumAt + 1000 * (s.part p).cur.quantum ≤ time (advance s now)) (hx : (j, x) ∈ s.steps)
    (hne : j ≠ k) (hpart : x.part = p) (hstate : x.state = 2) (hdeadline : x.deadline = r.deadline) :
    exec (.quantumExpiry now p) s = .next (requestSwitch (advance s now) p 1) := by
  refine (timed_of s ?_ : execQuantumExpiry now p s = _)
  have hpart' : (advance s now).part p = s.part p := by rw [State.part, advance_parts, State.part]
  have hany : (s.steps.any fun e => e.1 != k && e.2.part == p && (e.2.state == 2 || e.2.state == 4)
      && deadlineRank e.2.deadline == deadlineRank r.deadline) = true :=
    List.any_eq_true.2 ⟨(j, x), hx, by simp [hne, hpart, hstate, hdeadline]⟩
  simp only [ready_advance, hready, hpart', hrun, advance_steps, hr, hdue, hany, decide_true, Bool.and_self]

/-- R183, R308, R310: with another step of the deadline READY, the running one is to switch at its next cheap point. -/
theorem quantumExpiry_asks {j : Nat} {r x : Step} (now : Nat) (hready : ready s = true) (hrun : (s.part p).running = some k)
    (hr : tfind s.steps k = some r) (hdue : r.quantumAt + 1000 * (s.part p).cur.quantum ≤ time (advance s now)) (hx : (j, x) ∈ s.steps)
    (hne : j ≠ k) (hpart : x.part = p) (hstate : x.state = 2) (hdeadline : x.deadline = r.deadline) (hnodup : (r.skeins.map (·.1)).Nodup)
    (c : Nat) (hc : (if (s.part p).switchReq ≤ 1 then nextPoint s r else 0) = c) :
    ∃ t r', exec (.quantumExpiry now p) s = .next t ∧ (t.part p).switchReq = max (s.part p).switchReq 1
      ∧ (t.part p).running = some k ∧ tfind t.steps k = some r'
      ∧ r' = { r with skeins := r'.skeins, replaced := r'.replaced, requests := r'.requests }
      ∧ (∀ e, tget r'.skeins e 0 = if tget r.skeins e 0 = 1 ∧ c ≤ e then 0 else tget r.skeins e 0)
      ∧ (∀ e, tget r.skeins e 0 = 1 → c ≤ e → e ∈ r'.replaced)
      ∧ (∀ e, t.tile e = { s.tile e with run := (t.tile e).run }) ∧ ∀ j, j ≠ k → tfind t.steps j = tfind s.steps j := by
  have hexec := exec_quantumExpiry now hready hrun hr hdue hx hne hpart hstate hdeadline
  have hpart' : (advance s now).part p = s.part p := by rw [State.part, advance_parts, State.part]
  have hsteps := advance_steps s now
  have hpoint := nextPoint_advance s now r
  have htiles : ∀ e, (advance s now).tile e = s.tile e := advance_tile s now
  generalize advance s now = a at *
  have hpoints : (if max (s.part p).switchReq 1 = 1 then nextPoint a r else 0) = c := by
    rw [← hc, hpoint]
    by_cases hle : (s.part p).switchReq ≤ 1
    · rw [if_pos hle, if_pos (by omega)]
    · rw [if_neg hle, if_neg (by omega)]
  have hreq : requestSwitch a p 1 = unplace (a.modPart p fun x => { x with switchReq := max (s.part p).switchReq 1 }) k c := by
    simp only [requestSwitch, hpart', hrun, hsteps, hr, hpoints]
    rw [if_neg (by omega)]
  generalize hm : a.modPart p (fun x => { x with switchReq := max (s.part p).switchReq 1 }) = m at *
  have hmpart : m.part p = { s.part p with switchReq := max (s.part p).switchReq 1 } := by rw [← hm, part_modPart_self, hpart']
  have hmsteps : m.steps = s.steps := by rw [← hm]; exact hsteps
  have hmtile (e : Nat) : m.tile e = s.tile e := by rw [← hm]; exact htiles e
  obtain ⟨os, hunplace⟩ := unplace_eq (s := m) (slot := k) (st := r) c (by rw [hmsteps]; exact hr)
  have htile := tile_unplace m k c
  rw [hunplace] at htile
  rw [hreq, hunplace] at hexec
  refine ⟨_, _, hexec, ?_, ?_, tfind_tput_self _ _ _, rfl, fun e => skeins_unplaced m k c e hnodup,
    fun e hone hle => mem_replaced_unplaced m k hnodup hone hle, fun e => ?_, fun j hj => ?_⟩
  · exact congrArg Part.switchReq hmpart
  · exact (congrArg Part.running hmpart).trans hrun
  · rw [← hmtile]
    exact htile e
  · exact (tfind_tput_ne _ _ hj).trans (by rw [hmsteps])

/-! ### STEP_SWITCH -/

theorem myPkg_advance (s : State) (now : Nat) : myPkg (advance s now) = myPkg s := by simp only [myPkg, advance_aon_coords]

/-- Which skeins a member runs does not change with time. -/
theorem ownSkein_advance (s : State) (now : Nat) (st : Step) (j : Nat) : ownSkein (advance s now) st j = ownSkein s st j := by
  have hfile : stepFile (advance s now) st = stepFile s st := by rw [advance_eq]; rfl
  have hruns (m : Nat) (x : Upf.Skein) : memberRuns (advance s now) st m x = memberRuns s st m x := by rw [advance_eq]; rfl
  have hjob (i : Nat) : (advance s now).job i = s.job i := by rw [advance_eq]; rfl
  simp only [ownSkein, stepMember, memberIdx, hfile, hruns, hjob, myPkg_advance]

theorem canSwitch_advance (s : State) (now k : Nat) (st : Step) : canSwitch (advance s now) k st = canSwitch s k st := by
  have hpart : (advance s now).part st.part = s.part st.part := by rw [State.part, advance_parts, State.part]
  have hfile : stepFile (advance s now) st = stepFile s st := by rw [advance_eq]; rfl
  have hflight : noneInFlight (advance s now) k st = noneInFlight s k st := by rw [advance_eq]; rfl
  have hpending : fallbackPending (advance s now) st = fallbackPending s st := by rw [advance_eq]; rfl
  have hpast (j : Nat) : skPast (advance s now) st j = skPast s st j := by simp only [skPast, ownSkein_advance]
  have hpoint : atPoint (advance s now) k st = atPoint s k st := by
    simp only [atPoint, hflight, nextPoint_advance, funext hpast]
  have hblocked : isBlocked (advance s now) k st = isBlocked s k st := by
    simp only [isBlocked, hflight, hfile, advance_tiles, ownSkein_advance]
  simp only [canSwitch, hpart, hpending, hflight, hpoint, hblocked, advance_steps]

/-- What a change of state leaves of a context, its times apart. -/
theorem ctx_setState_kept (s : State) (slot n c : Nat) : ∃ a b, (setState s slot n).ctx c = { s.ctx c with waitNs := a, runNs := b } := by
  have hctxs : (setState s slot n).ctxs = (accrue s slot).ctxs := by
    unfold setState State.modStep
    split <;> rfl
  have haccrue : ∃ a b, (accrue s slot).ctx c = { s.ctx c with waitNs := a, runNs := b } := by
    unfold accrue
    split
    · exact ⟨_, _, rfl⟩
    next st hst =>
      extract_lets d t
      have htctx : t.ctx c = s.ctx c := by
        simp only [t, State.modStep, hst]
        rfl
      split
      · by_cases hc : c = st.ctx
        · rw [hc, ctx_modCtx_self, ← hc, htctx]
          split
          · exact ⟨_, _, rfl⟩
          · split <;> exact ⟨_, _, rfl⟩
        · rw [State.modCtx, State.ctx, tget_tput_ne _ _ _ hc, ← State.ctx, htctx]
          exact ⟨_, _, rfl⟩
      · exact ⟨_, _, htctx⟩
  obtain ⟨a, b, hab⟩ := haccrue
  exact ⟨a, b, by rw [State.ctx, hctxs, ← State.ctx, hab]⟩

theorem any_tmap {α : Type} (l : Tab α) (f : Nat → α → α) (g : Nat × α → Bool) : (tmap l f).any g = l.any fun e => g (e.1, f e.1 e.2) := by
  simp only [tmap, List.any_map]
  rfl

theorem traceStep_traces (s : State) (slot kind flags engine status : Nat) : Traces s (traceStep s slot kind flags engine status) := by
  unfold traceStep
  split
  · exact .refl s
  · exact traceRec_traces s _ _

/-- The step once it has been switched away (R309, R313). -/
def suspended (s : State) (k : Nat) (st : Step) : Step :=
  { unplaced s k st 0 with stateAt := time s, state := 4, lastRan := some (time s) }

/-- The state in which the running step has left, before its partition passes the boundary. -/
def leftAt (s : State) (k : Nat) (st : Step) : State :=
  let s := unplace s k 0
  let s := (setState s k 4).modStep k fun x => { x with lastRan := some (time s) }
  let s := if (s.ctx st.ctx).gen = st.ctxGen then s.modCtx st.ctx fun c => { c with preempt := c.preempt + 1 } else s
  traceStep (count s st.part 0x0F 1) k 6 0 0xFFF 0

theorem leftAt_spec (hst : tfind s.steps k = some st) : time (leftAt s k st) = time s
    ∧ (leftAt s k st).steps = tput s.steps k (suspended s k st)
    ∧ (∃ g : Tile → Option SkeinRun, (leftAt s k st).tiles = tmap s.tiles fun _ x => { x with run := g x })
    ∧ (∀ p, ∃ c t o, (leftAt s k st).part p = { s.part p with counters := c, trace := t, obs := o })
    ∧ ((s.ctx st.ctx).gen = st.ctxGen → ((leftAt s k st).ctx st.ctx).preempt = (s.ctx st.ctx).preempt + 1) := by
  obtain ⟨os, hunplace⟩ := unplace_eq 0 hst
  simp only [leftAt]
  generalize unplace s k 0 = a at hunplace
  have hfind : tfind a.steps k = some (unplaced s k st 0) := by
    rw [hunplace]
    exact tfind_tput_self _ _ _
  have hset := setState_shape 4 hfind
  obtain ⟨x, y, hctx⟩ := ctx_setState_kept a k 4 st.ctx
  have hactx : a.ctx st.ctx = s.ctx st.ctx := by rw [hunplace]; rfl
  rw [hactx] at hctx
  generalize setState a k 4 = b at hset hctx
  have hbfind : tfind b.steps k = some { unplaced s k st 0 with stateAt := time a, state := 4 } := by
    rw [hset]
    exact tfind_tput_self _ _ _
  have htime : time a = time s := by rw [hunplace]; rfl
  rw [modStep_of_some _ _ hbfind]
  generalize hc : ({ b with steps := tput b.steps k _ } : State) = c
  have hcrest : c = { s with tiles := a.tiles, remOps := os, ctxs := b.ctxs, steps := tput s.steps k (suspended s k st) } := by
    rw [← hc, hset, hunplace]
    simp only [tput_tput]
    rfl
  have hcctx : (c.ctx st.ctx) = { s.ctx st.ctx with waitNs := x, runNs := y } := by
    rw [hcrest]
    exact hctx
  have hgen : (c.ctx st.ctx).gen = (s.ctx st.ctx).gen := by rw [hcctx]
  have hpreempt : (c.ctx st.ctx).preempt = (s.ctx st.ctx).preempt := by rw [hcctx]
  rw [hgen]
  generalize hd : (if (s.ctx st.ctx).gen = st.ctxGen then c.modCtx st.ctx fun y => { y with preempt := y.preempt + 1 } else c) = d
  have hdrest : d = { c with ctxs := d.ctxs } := by
    rw [← hd]
    split <;> rfl
  have hdctx (h : (s.ctx st.ctx).gen = st.ctxGen) : (d.ctx st.ctx).preempt = (s.ctx st.ctx).preempt + 1 := by
    rw [← hd, if_pos h, ctx_modCtx_self]
    exact congrArg (· + 1) hpreempt
  obtain ⟨htraced, htracedPart⟩ := (count_traces d st.part 0x0F 1).trans (traceStep_traces _ k 6 0 0xFFF 0)
  generalize traceStep (count d st.part 0x0F 1) k 6 0 0xFFF 0 = e at *
  have hdparts : d.parts = s.parts := by rw [hdrest, hcrest]
  refine ⟨?_, ?_, ⟨fun x => x.run.filter fun r => !(r.slot == k && (backFrom st 0).contains r.skein), ?_⟩, fun p => ?_, fun h => ?_⟩
  · rw [htraced, hdrest, hcrest]
    rfl
  · rw [htraced, hdrest, hcrest]
  · rw [htraced, hdrest, hcrest, hunplace]
  · rw [htracedPart p, State.part, hdparts, ← State.part]
    exact ⟨_, _, _, rfl⟩
  · rw [← hdctx h, htraced]
    rfl

/-- The partition once its running step has left. -/
def vacated (s : State) (p : Nat) (next : Option Nat) : State :=
  s.modPart p fun x => { x with running := none, switchReq := 0, switchTo := next }

theorem switchAway_eq (s : State) (k : Nat) (st : Step) (spill : Bool) : ∃ keep, switchAway s k st spill
    = enterBoundary (freeDead (vacated (leftAt s k st) st.part
        (if (spill || (s.part st.part).switchReq == 2) && hasLive (leftAt s k st) k st then some k else none)) k keep) st.part true := ⟨_, rfl⟩

theorem vacated_boundary (s : State) (p k : Nat) (next : Option Nat) (keep : Nat → Bool) :
    let t := enterBoundary (freeDead (vacated s p next) k keep) p true
    (t.part p).running = none ∧ (t.part p).switchReq = 0 ∧ (t.part p).switchTo = next ∧ time t = time s ∧ t.steps = s.steps ∧ t.ctxs = s.ctxs := by
  intro t
  obtain ⟨hrest, -, hpart⟩ : Bounds (freeDead (vacated s p next) k keep) t := enterBoundary_bounds _ p true
  have hset : (freeDead (vacated s p next) k keep).part p = { s.part p with running := none, switchReq := 0, switchTo := next } :=
    (part_modPart_self s p fun x => { x with running := none, switchReq := 0, switchTo := next } : (vacated s p next).part p = _)
  have hset' := hpart p
  rw [hset] at hset'
  refine ⟨by rw [hset'], by rw [hset'], by rw [hset'], ?_, ?_, ?_⟩ <;> rw [hrest] <;> rfl

/-- R309, R313: the running step has left, and its partition is at a boundary. -/
theorem switchAway_spec (spill : Bool) (hst : tfind s.steps k = some st) :
    let t := switchAway s k st spill
    (t.part st.part).running = none ∧ (t.part st.part).switchReq = 0
      ∧ (t.part st.part).switchTo = (if (spill || (s.part st.part).switchReq == 2) && hasLive s k st then some k else none)
      ∧ time t = time s ∧ t.steps = tput s.steps k (suspended s k st)
      ∧ ((s.ctx st.ctx).gen = st.ctxGen → (t.ctx st.ctx).preempt = (s.ctx st.ctx).preempt + 1) := by
  obtain ⟨htime, hsteps, ⟨g, htiles⟩, hparts, hctx⟩ := leftAt_spec hst
  obtain ⟨keep, ht⟩ := switchAway_eq s k st spill
  have hlive : hasLive (leftAt s k st) k st = hasLive s k st := by
    obtain ⟨c, tr, o, hpart⟩ := hparts st.part
    have hfile : stepFile (leftAt s k st) st = stepFile s st := by rw [stepFile, stepFile, hpart]
    simp only [hasLive, hfile, htiles, any_tmap]
    rfl
  rw [hlive] at ht
  rw [ht]
  generalize leftAt s k st = b at *
  obtain ⟨hrunning, hreq, hto, htime', hsteps', hctxs⟩ := vacated_boundary b st.part k
    (if (spill || (s.part st.part).switchReq == 2) && hasLive s k st then some k else none) keep
  refine ⟨hrunning, hreq, hto, htime'.trans htime, hsteps'.trans hsteps, fun h => ?_⟩
  rw [State.ctx, hctxs]
  exact hctx h

theorem stepSwitch_leaves (now : Nat) (spill : Bool) (hengines : engines s = true) (hactive : active s p = true)
    (hto : (s.part p).switchTo = none) (hrun : (s.part p).running = some k) (hst : tfind s.steps k = some st) (hpart : st.part = p)
    (hnodup : (st.skeins.map (·.1)).Nodup) (hcan : canSwitch s k st = true) :
    ∃ t st', exec (.stepSwitch now p spill) s = .next t ∧ (t.part p).running = none ∧ (t.part p).switchReq = 0
      ∧ tfind t.steps k = some st' ∧ st'.state = 4 ∧ st'.lastRan = some (time t) ∧ st'.fail = st.fail
      ∧ (∀ j, tget st.skeins j 0 ≠ 1 → tget st'.skeins j 0 = tget st.skeins j 0) ∧ (∀ j, tget st'.skeins j 0 ≠ 1)
      ∧ (spill = false → (s.part p).switchReq ≠ 2 → (t.part p).switchTo = none)
      ∧ ((spill = true ∨ (s.part p).switchReq = 2) → hasLive s k st = true → (t.part p).switchTo = some k)
      ∧ ((s.ctx st.ctx).gen = st.ctxGen → (t.ctx st.ctx).preempt = (s.ctx st.ctx).preempt + 1)
      ∧ (∀ j, j ≠ k → tfind t.steps j = tfind s.steps j) := by
  have hpart' : (advance s now).part p = s.part p := by rw [State.part, advance_parts, State.part]
  have hlive : hasLive (advance s now) k st = hasLive s k st := by rw [advance_eq]; rfl
  have hctx : (advance s now).ctx st.ctx = s.ctx st.ctx := by rw [advance_eq]; rfl
  have hexec : exec (.stepSwitch now p spill) s = .next (switchAway (advance s now) k st spill) := by
    refine (timed_of s ?_ : execStepSwitch now p spill s = _).trans ?_
    · have hengines' : engines (advance s now) = true := by simpa [engines] using hengines
      have hactive' : active (advance s now) p = true := by simpa [active, hpart'] using hactive
      simp only [hengines', hactive', hpart', hto, beq_self_eq_true, Bool.and_self]
    · simp only [hpart', hrun, advance_steps, hst, canSwitch_advance, hcan, if_true]
  obtain ⟨hrunning, hreq, hswitch, htime, hsteps, hpreempt⟩ := switchAway_spec (s := advance s now) spill (by rw [advance_steps]; exact hst)
  subst hpart
  rw [hpart', hlive] at hswitch
  rw [hctx] at hpreempt
  have hskeins (j : Nat) : tget (suspended (advance s now) k st).skeins j 0 = if tget st.skeins j 0 = 1 ∧ 0 ≤ j then 0 else tget st.skeins j 0 :=
    skeins_unplaced (advance s now) k 0 j hnodup
  refine ⟨_, suspended (advance s now) k st, hexec, hrunning, hreq, ?_, rfl, congrArg some htime.symm, rfl, fun j hj => ?_, fun j => ?_,
    fun hkeep hne => ?_, fun hspill hbufs => ?_, hpreempt, fun j hj => ?_⟩
  · rw [hsteps]
    exact tfind_tput_self _ _ _
  · rw [hskeins, if_neg fun h => hj h.1]
  · rw [hskeins]
    split
    · decide
    next h => exact fun hone => h ⟨hone, Nat.zero_le j⟩
  · rw [hswitch, hkeep, if_neg (by simp [hne])]
  · rw [hswitch, hbufs, if_pos (by simpa using hspill)]
  · rw [hsteps, advance_steps]
    exact tfind_tput_ne _ _ hj

/-! ### SPILL_DONE -/

theorem mreadN_congr {m m' : Mem} {a a' n : Nat} (h : ∀ k, k < n → mread m (a + k) = mread m' (a' + k)) : mreadN m a n = mreadN m' a' n := by
  induction n generalizing a a' with
  | zero => rfl
  | succ n ih =>
    have hfirst : mread m a = mread m' a' := h 0 (Nat.succ_pos n)
    have hrest : mreadN m (a + 1) n = mreadN m' (a' + 1) n := ih fun k hk => by
      rw [Nat.add_right_comm a 1 k, Nat.add_right_comm a' 1 k]
      exact h (k + 1) (by omega)
    simp only [mreadN, hfirst, hrest]

theorem length_mreadN (m : Mem) (a n : Nat) : (mreadN m a n).length = n := by
  induction n generalizing a with
  | zero => rfl
  | succ n ih => simp [mreadN, ih]

/-- Bytes put into an empty memory read back. -/
theorem mreadN_saved (m : Mem) (b n : Nat) : mreadN (mwriteN [] 0 (mreadN m b n)) 0 n = mreadN m b n :=
  mreadN_congr fun k hk => by
    rw [mread_mwriteN 0 (0 + k) _ memWf_nil, length_mreadN, if_pos (by omega), nth_mreadN, if_pos (by omega)]
    congr 1
    omega

theorem tget_foldl_tput {α β : Type} (key : α → Nat) (val : α → β) (i : Nat) (v d : β) (l : List α) (t : Tab β)
    (hval : ∀ e ∈ l, key e = i → val e = v) (h : (∃ e ∈ l, key e = i) ∨ tget t i d = v) :
    tget (l.foldl (fun t e => tput t (key e) (val e)) t) i d = v := by
  induction l generalizing t with
  | nil => exact h.resolve_left nofun
  | cons e l ih =>
    refine ih _ (fun e he => hval e (.tail _ he)) ?_
    by_cases hi : key e = i
    · refine .inr ?_
      show tget (tput t (key e) (val e)) i d = v
      rw [hi, tget_tput_self]
      exact hval e (.head l) hi
    · rcases h with ⟨e', he', hi'⟩ | h
      · rcases List.mem_cons.1 he' with rfl | he'
        · exact absurd hi' hi
        · exact .inl ⟨e', he', hi'⟩
      · exact .inr ((tget_tput_ne _ _ _ (Ne.symm hi)).trans h)

/-- The live buffers of a step, with where each is read. -/
def liveHomes (s : State) (k : Nat) (st : Step) : List (Nat × Tile × Nat) :=
  (liveBufs (stepFile s st) st).filterMap fun i => (bufHome s 4096 k i).map fun h => (i, h.1, h.2)

/-- The contents of the live buffers (R311). -/
def spilledMem (s : State) (k : Nat) (st : Step) : Tab Mem :=
  (liveHomes s k st).foldl (fun t e => tput t e.1 (mwriteN [] 0 (mreadN e.2.1.scratch e.2.2 (tensorOf (stepFile s st) e.1).bytes))) []

/-- Their poisoned words. -/
def spilledPoison (s : State) (k : Nat) (st : Step) : List Nat :=
  (liveHomes s k st).flatMap fun e => bufPoison e.2.1 e.1 e.2.2 (tensorOf (stepFile s st) e.1).bytes

theorem tget_spilledMem {i b : Nat} {x : Tile} (hi : i ∈ liveBufs (stepFile s st) st) (hhome : bufHome s 4096 k i = some (x, b)) :
    tget (spilledMem s k st) i [] = mwriteN [] 0 (mreadN x.scratch b (tensorOf (stepFile s st) i).bytes) := by
  refine tget_foldl_tput (·.1) _ i _ _ _ _ (fun e he hei => ?_) (.inl ⟨(i, x, b), ?_, rfl⟩)
  · obtain ⟨j, -, hj⟩ := List.mem_filterMap.1 he
    obtain ⟨h, hh, rfl⟩ := Option.map_eq_some_iff.1 hj
    obtain rfl : j = i := hei
    obtain rfl : (x, b) = h := Option.some.inj (hhome.symm.trans hh)
    rfl
  · exact List.mem_filterMap.2 ⟨i, hi, by rw [hhome]; rfl⟩

/-- No buffer of a step is left on a tile. -/
theorem bufBase_freeDead (s : State) (k e i : Nat) : bufBase ((freeDead s k fun _ => false).tile e) k i = none := by
  have htile : (freeDead s k fun _ => false).tile e = { s.tile e with bufs := (s.tile e).bufs.filter fun b => b.slot != k || false } :=
    tile_tmap s (fun _ x => { x with bufs := x.bufs.filter fun b => b.slot != k || false }) (fun _ => rfl) e
  rw [bufBase, htile, Option.map_eq_none_iff, List.find?_eq_none]
  intro b hb
  have hslot := (List.mem_filter.1 hb).2
  simp only [Bool.or_false, bne_iff_ne, ne_eq] at hslot
  simp [hslot]

theorem exec_spillDone (now : Nat) (hengines : engines s = true) (hto : (s.part p).switchTo = some k) (hst : tfind s.steps k = some st) :
    exec (.spillDone now p) s = .next (freeDead { (advance s now).modPart p (fun x => { x with switchTo := none }) with
      steps := tput s.steps k { st with spilled := true, saved := spilledMem s k st, savedPoison := spilledPoison s k st } } k fun _ => false) := by
  have hpart' : (advance s now).part p = s.part p := by rw [State.part, advance_parts, State.part]
  have hfile : stepFile (advance s now) st = stepFile s st := by rw [advance_eq]; rfl
  have hhome (i : Nat) : bufHome (advance s now) 4096 k i = bufHome s 4096 k i := by rw [advance_eq]; rfl
  have hst' : tfind ((advance s now).modPart p fun x => { x with switchTo := none }).steps k = some st := by
    rw [modPart_steps, advance_steps]
    exact hst
  refine (timed_of s ?_ : execSpillDone now p s = _).trans ?_
  · have hengines' : engines (advance s now) = true := by simpa [engines] using hengines
    simp only [hengines', hpart', hto, Option.isSome_some, Bool.and_self]
  · simp only [hpart', hto, advance_steps, hst, hfile, hhome, modStep_of_some _ _ hst']
    simp only [modPart_steps, advance_steps, spilledMem, spilledPoison, liveHomes]

/-! ### RESTORE_DONE -/

/-- Buffers placed again (R314). -/
def restored (s : State) (slot : Nat) (f : Upf.File) (st : Step) (pls : List (Nat × Nat × Nat)) : State :=
  forAll pls (fun s pl => restoreBuf s slot f st pl) s

/-- The step's file is the same while its buffers are placed. -/
theorem forAll_restoreBuf (s : State) (slot : Nat) (st : Step) (pls : List (Nat × Nat × Nat)) :
    forAll pls (fun s pl => restoreBuf s slot (stepFile s st) st pl) s = restored s slot (stepFile s st) st pls := by
  induction pls generalizing s with
  | nil => rfl
  | cons q pls ih => exact ih (restoreBuf s slot (stepFile s st) st q)

theorem restored_rest (s : State) (slot : Nat) (f : Upf.File) (st : Step) (pls : List (Nat × Nat × Nat)) :
    restored s slot f st pls = { s with tiles := (restored s slot f st pls).tiles } := by
  refine forAll_rel (R := fun s t => t = { s with tiles := t.tiles }) (fun _ => rfl) (fun {a b c} h h' => ?_) (fun _ _ => rfl) pls s
  rw [h', h]

/-- A buffer once placed stays where it is while others are placed. -/
theorem bufBase_restored (s : State) (slot : Nat) (f : Upf.File) (st : Step) (pls : List (Nat × Nat × Nat)) (e k i : Nat)
    (h : (bufBase (s.tile e) k i).isSome = true) : (bufBase ((restored s slot f st pls).tile e) k i).isSome = true := by
  refine forAll_rel (R := fun s t => (bufBase (s.tile e) k i).isSome = true → (bufBase (t.tile e) k i).isSome = true) (fun _ h => h)
    (fun h h' hs => h' (h hs)) (fun t pl ht => ?_) pls s h
  by_cases he : e = pl.2.1
  · subst he
    rw [restoreBuf, tile_modTile_self]
    simp only [bufBase, Option.isSome_map, List.find?_isSome] at ht ⊢
    obtain ⟨b, hb, his⟩ := ht
    exact ⟨b, List.mem_append_left _ hb, his⟩
  · rw [restoreBuf, tile_modTile_ne _ _ he]
    exact ht

theorem bufBase_restored_of_mem (s : State) (slot : Nat) (f : Upf.File) (st : Step) {pls : List (Nat × Nat × Nat)} {pl : Nat × Nat × Nat}
    (h : pl ∈ pls) : (bufBase ((restored s slot f st pls).tile pl.2.1) slot pl.1).isSome = true := by
  induction pls generalizing s with
  | nil => exact absurd h List.not_mem_nil
  | cons q pls ih =>
    rcases List.mem_cons.1 h with rfl | h
    · refine bufBase_restored (restoreBuf s slot f st pl) slot f st pls _ _ _ ?_
      rw [restoreBuf, tile_modTile_self]
      simp only [bufBase, Option.isSome_map, List.find?_isSome]
      exact ⟨_, List.mem_append_right _ (.head _), by simp⟩
    · exact ih (restoreBuf s slot f st q) h

theorem tile_restored (s : State) (slot : Nat) (f : Upf.File) (st : Step) {pls : List (Nat × Nat × Nat)} {e : Nat}
    (h : ∀ q ∈ pls, q.2.1 ≠ e) : (restored s slot f st pls).tile e = s.tile e := by
  induction pls generalizing s with
  | nil => rfl
  | cons q pls ih =>
    refine (ih (restoreBuf s slot f st q) fun x hx => h x (.tail _ hx)).trans ?_
    exact tile_modTile_ne s _ (Ne.symm (h q (.head _)))

/-- Whether places fit does not depend on the time. -/
theorem placesFit_congr {a : Aon} (p : Nat) (f : Upf.File) (slot : Nat) (st : Step) (pls : List (Nat × Nat × Nat)) (s : State) :
    placesFit { s with aon := a } p f slot st pls = placesFit s p f slot st pls := by
  induction pls generalizing s with
  | nil => rfl
  | cons q pls ih =>
    have hrest : placesFit (restoreBuf { s with aon := a } slot f st q) p f slot st pls = placesFit (restoreBuf s slot f st q) p f slot st pls :=
      ih (restoreBuf s slot f st q)
    simp only [placesFit, hrest]
    rfl

theorem exec_restoreDone {pls : List (Nat × Nat × Nat)} (now : Nat) (hengines : engines s = true) (hst : tfind s.steps k = some st)
    (hstate : st.state = 3) (hspilled : st.spilled = true) (hsaved : ∀ e ∈ st.saved, ∃ q ∈ pls, q.1 = e.1)
    (hfit : placesFit s st.part (stepFile s st) k st pls = true) : exec (.restoreDone now k pls) s
    = .next { restored (advance s now) k (stepFile s st) st pls with
      steps := tput s.steps k { st with spilled := false, saved := [], savedPoison := [] } } := by
  have hfile : stepFile (advance s now) st = stepFile s st := by rw [advance_eq]; rfl
  have hfit' : placesFit (advance s now) st.part (stepFile s st) k st pls = true := by
    rw [advance_eq, placesFit_congr]
    exact hfit
  have hsteps : (restored (advance s now) k (stepFile s st) st pls).steps = s.steps := by
    rw [restored_rest]
    exact advance_steps s now
  refine (timed_of s ?_ : execRestoreDone now k pls s = _).trans ?_
  · have hengines' : engines (advance s now) = true := by simpa [engines] using hengines
    have hall : (st.saved.all fun e => pls.any fun q => q.1 == e.1) = true := by simpa using hsaved
    simp only [hengines', advance_steps, hst, hstate, hspilled, hall, hfile, hfit', beq_self_eq_true, Bool.and_self]
  · simp only [advance_steps, hst, forAll_restoreBuf, hfile]
    have hset := modStep_of_some (restored (advance s now) k (stepFile s st) st pls)
      (fun x => { x with spilled := false, saved := [], savedPoison := [] }) (by rw [hsteps]; exact hst)
    rw [hsteps] at hset
    exact congrArg _ hset

/-- Settles O30. -/
theorem switching : Obligations.Switching := by
  unfold Obligations.Switching
  refine ⟨fun s now p k j r x hready hrun hr hdue hx hne hpart hstate hdeadline hnodup => ?_,
    fun s now p k st spill hengines hactive hto hrun hst hpart hnodup hcan =>
      stepSwitch_leaves now spill hengines hactive hto hrun hst hpart hnodup hcan,
    fun s now p k st hengines hto hst => ?_, fun s now k pls st hengines hst hstate hspilled hsaved hfit => ?_⟩
  · exact quantumExpiry_asks now hready hrun hr hdue hx hne hpart hstate hdeadline hnodup _ rfl
  · refine ⟨_, _, exec_spillDone now hengines hto hst, ?_, tfind_tput_self _ _ _, rfl, fun e i => bufBase_freeDead _ k e i, fun i x b hi hhome => ?_, fun j hj => ?_, ?_⟩
    · show (((advance s now).modPart p fun x => { x with switchTo := none }).part p).switchTo = none
      rw [part_modPart_self]
    · rw [tget_spilledMem hi hhome]
      exact mreadN_saved _ _ _
    · exact tfind_tput_ne _ _ hj
    · exact advance_hbm s now
  · refine ⟨_, exec_restoreDone now hengines hst hstate hspilled hsaved hfit, tfind_tput_self _ _ _, fun q hq => ?_, fun e he => ?_, ?_⟩
    · exact bufBase_restored_of_mem (advance s now) k (stepFile s st) st hq
    · exact (tile_restored (advance s now) k (stepFile s st) st he).trans (advance_tile s now e)
    · show (restored (advance s now) k (stepFile s st) st pls).hbm = s.hbm
      rw [restored_rest]
      exact advance_hbm s now

end Sys2Proof.Machine

/-! PROOFS. Fallbacks, deadlines, hangs and the release gate: a refutation (O31). -/

namespace Sys2Proof.Machine

open Sys2Proof.Claims

/-- A state whose main domain is out of reset while AON_RESET_N is low, with a step whose gate has passed at whorl time 0. -/
def gateAtReset : State :=
  { State.reset with
    mainReset := false, coll := { State.reset.coll with init := true }, steps := [(0, { notedDone := true, passedAt := some 0 })] }

/-- A contained fault of unit 44 that names the step in slot 0. -/
def faultOfGate : Report := { code := 0xAC00, slots := [0] }

/-- Refutes O31: the last clause asks for the effect of a fault report whenever the main domain is out of reset, but with AON_RESET_N
low the model takes no report, so in `gateAtReset` the step's outcome stands. -/
theorem not_fallbacksDeadlinesAndRelease : ¬ Obligations.FallbacksDeadlinesAndRelease := by
  unfold Obligations.FallbacksDeadlinesAndRelease
  rintro ⟨-, -, -, -, hfault⟩
  obtain ⟨t, e, hexec, ⟨st, hst, hfail⟩, -⟩ := hfault gateAtReset 0 0 { notedDone := true, passedAt := some 0 } faultOfGate rfl rfl rfl rfl rfl
    (by decide) (by decide) (by decide) rfl rfl (by decide)
  have haon : aonUp (advance gateAtReset 0) = false := by decide
  have hstays : exec (.faultReport 0 faultOfGate) gateAtReset = .next gateAtReset := by
    rw [exec_faultReport, execFaultReport, timed, haon]
    rfl
  obtain rfl : gateAtReset = t := by
    rw [hstays] at hexec
    exact Host.Outcome.next.inj hexec
  obtain rfl : ({ notedDone := true, passedAt := some 0 } : Step) = st := Option.some.inj hst
  cases hfail

end Sys2Proof.Machine

/-! PROOFS. Requests that fail a check of Table Mailbox-3 (O45). -/

namespace Sys2Proof.Machine

open Sys2Proof.Claims

variable {s : State} {m : Msg} {sp : MsgSpec} {own : State → Ans}

/-- A request that its row or no row names, and that can be taken, is processed (R333, R335, R337). -/
theorem mbx_of_takes (htakes : (if m.boot then canBoot s m else canTake s m.func) = true)
    (hop : m.opcode = sp.opcode ∨ opcodes.contains m.opcode = false) : mbx sp own m s = .next (process (take s m) sp m own) := by
  have hrow : ((m.opcode == sp.opcode || !opcodes.contains m.opcode) && (if m.boot then canBoot s m else canTake s m.func)) = true := by
    rw [htakes, Bool.and_true, Bool.or_eq_true, beq_iff_eq, Bool.not_eq_true']
    exact hop
  exact untimed_of s (c := fun s => (m.opcode == sp.opcode || !opcodes.contains m.opcode) &&
    (if m.boot then canBoot s m else canTake s m.func)) hrow

/-- An answer after the sender's counters alone have changed (R342, R343). -/
theorem answer_counted (s : State) (m : Msg) (status : Nat) (f : Func → Func)
    (hf : ∀ x, f x = { x with ctrLast := (f x).ctrLast, exhausted := (f x).exhausted, authFails := (f x).authFails }) :
    ∃ u, answer ((take s m).modFunc m.func f) m.func m.tag status 0 = u ∧ Replies s u m (rspTo m status 0 [] [] false)
      ∧ (u.func m.func).ctrLast = (f ((take s m).func m.func)).ctrLast ∧ (u.func m.func).authFails = (f ((take s m).func m.func)).authFails := by
  have hsender : ((take s m).modFunc m.func f).func m.func = f ((take s m).func m.func) := func_modFunc_self _ _ _
  have hkept := hf ((take s m).func m.func)
  generalize hx : f ((take s m).func m.func) = x at *
  have htaken : takenOf ((take s m).modFunc m.func f) m.func m.tag = some (takenFrom m) := by
    rw [takenOf, hsender, hkept, func_take_sender]
    simp [takenFrom]
  have hans : answer ((take s m).modFunc m.func f) m.func m.tag status 0 = ((take s m).modFunc m.func f).modFunc m.func fun x =>
      { x with taken := x.taken.erase (takenFrom m), rsps := x.rsps ++ [rspTo m status 0 [] [] false] } := by
    rw [answer, answerWith, htaken]
    rfl
  refine ⟨_, hans, ⟨?_, fun g hg => ?_, rfl⟩, ?_, ?_⟩
  · rw [Answered, func_modFunc_self, hsender, hkept, func_take_sender]
    exact ⟨rfl, rfl⟩
  · rw [func_modFunc_ne _ _ hg, func_modFunc_ne _ _ hg, func_take_ne s hg]
  · rw [func_modFunc_self, hsender]
  · rw [func_modFunc_self, hsender]

/-- Settles O45. -/
theorem refusedRequests : Obligations.RefusedRequests := by
  unfold Obligations.RefusedRequests
  intro s sp own m htakes hop
  have hexec : mbx sp own m s = _ := mbx_of_takes htakes hop
  refine ⟨fun hfails => ⟨_, hexec, ?_⟩, fun hpasses => ⟨fun hcritical hnamed => ⟨_, hexec, ?_⟩, fun hcritical hmac => ?_,
    fun hcritical hmac hold => ?_, fun hcritical hsigned hnamed hcounter => ?_⟩⟩
  · rw [process, if_pos hfails]
    exact replies_answerWith s m ..
  · have hrefuses : process (take s m) sp m own = answer (take s m) m.func m.tag 0x0905 0 := by
      simp [process, hpasses, hcritical, hnamed]
    rw [hrefuses]
    exact replies_answerWith s m ..
  · have hrefuses : process (take s m) sp m own = answer ((take s m).modFunc m.func fun x =>
        { x with authFails := min 0xFFFF (x.authFails + 1) }) m.func m.tag 0x0911 0 := by
      simp [process, hpasses, hcritical, spend, hmac]
    obtain ⟨u, hu, hreplies, hlast, hauth⟩ := answer_counted s m 0x0911 (fun x => { x with authFails := min 0xFFFF (x.authFails + 1) }) fun _ => rfl
    rw [func_take_sender] at hlast hauth
    exact ⟨u, hexec.trans (congrArg _ (hrefuses.trans hu)), hreplies, hauth, hlast⟩
  · have hspent : m.counter ≤ ((take s m).func m.func).ctrLast := by
      rw [func_take_sender]
      exact hold
    have hrefuses : process (take s m) sp m own = answer (take s m) m.func m.tag 0x0912 0 := by
      simp [process, hpasses, hcritical, spend, hmac, hspent]
    refine ⟨_, hexec.trans (congrArg _ hrefuses), replies_answerWith s m .., ?_⟩
    rw [answer, answerWith_take rfl, func_modFunc_self, func_take_sender]
  · obtain ⟨hmac, hnew⟩ := hsigned
    have hopen : ¬ m.counter ≤ ((take s m).func m.func).ctrLast := by
      rw [func_take_sender]
      exact Nat.not_le.2 hnew
    have hrefuses : process (take s m) sp m own = answer ((take s m).modFunc m.func fun x =>
        { x with ctrLast := m.counter % 2 ^ 64, exhausted := m.counter % 2 ^ 64 == 2 ^ 64 - 1 }) m.func m.tag 0x0905 0 := by
      simp [process, hpasses, hcritical, spend, hmac, hopen, hnamed]
    obtain ⟨u, hu, hreplies, hlast, -⟩ := answer_counted s m 0x0905
      (fun x => { x with ctrLast := m.counter % 2 ^ 64, exhausted := m.counter % 2 ^ 64 == 2 ^ 64 - 1 }) fun _ => rfl
    exact ⟨u, hexec.trans (congrArg _ (hrefuses.trans hu)), hreplies, hlast.trans (Nat.mod_eq_of_lt hcounter)⟩

end Sys2Proof.Machine

/-! PROOFS. Sync messages and the edges that time them (R18, R19, R396, R397). -/

namespace Sys2Proof.Machine

open Sys2Proof.Claims

variable {s : State}

/-! ### A corrected fault of the always-on unit -/

/-- R441: codes of the always-on unit are taken at once, whether or not the collector is ready. -/
theorem coll_reportCode_alwaysOn (h : QuietCode c) (hunit : codeUnit c = 41) (s : State) : (reportCode s c).coll
    = latch (time s) { s.coll with recs := s.coll.recs ++ faultRecs s { code := c } } c := by
  rw [reportCode_taken h, if_neg (by simp [hunit]), withIbi_coll, latched_coll]

/-- R420: a corrected fault of the always-on unit counts once. -/
theorem counted_alwaysOn (h : QuietCode c) (hclass : codeClass c = 1) (hunit : codeUnit c = 41) (s : State) :
    tget (reportCode s c).coll.corr 41 0 = min 0xFFFF (tget s.coll.corr 41 0 + 1)
      ∧ (reportCode s c).coll.status = s.coll.status := by
  rw [coll_reportCode_alwaysOn h hunit, latch_of_corrected hclass, hunit]
  exact ⟨tget_tput_self .., rfl⟩

theorem quiet_6901 : QuietCode 0x6901 := by decide

/-! ### The sync state of a port -/

@[simp] theorem syncOf_modSync_self (s : State) (p : Nat) (f : PortSync → PortSync) : syncOf (modSync s p f) p = f (syncOf s p) :=
  tget_tput_self ..

theorem syncOf_modSync_ne (s : State) (f : PortSync → PortSync) (h : k ≠ p) : syncOf (modSync s p f) k = syncOf s k :=
  tget_tput_ne _ _ _ h

theorem syncOf_congr {s t : State} (h : t.aon.sync = s.aon.sync) (k : Nat) : syncOf t k = syncOf s k := by
  simp only [syncOf, h]

@[simp] theorem syncOf_advance (s : State) (now k : Nat) : syncOf (advance s now) k = syncOf s k := syncOf_congr (advance_aon_sync s now) k

/-- The newest message sent takes its send time from the edge (R18). -/
def edgeSeen (now : Nat) (x : PortSync) : PortSync :=
  { x with sends := match x.sends with
      | (n, _) :: r => (n, some now) :: r
      | [] => [] }

/-! ### Edges -/

/-- R18: an edge is accepted for its width and for its distance from the last one. -/
def edgePasses (s : State) (high : Nat) : Bool :=
  decide (4 ≤ high) && (match s.aon.lastEdge with
    | some t => decide (250 + t ≤ time s)
    | none => true)

theorem edgePasses_of (hhigh : 4 ≤ high) (hlast : ∀ e, s.aon.lastEdge = some e → 250 + e ≤ time s) : edgePasses s high = true := by
  unfold edgePasses
  cases hedge : s.aon.lastEdge with
  | none => simp [hhigh]
  | some e => simp [hhigh, hlast e hedge]

theorem edgePasses_of_not (h : high < 4 ∨ ∃ e, s.aon.lastEdge = some e ∧ time s < 250 + e) : edgePasses s high = false := by
  unfold edgePasses
  obtain hhigh | ⟨e, hedge, hlate⟩ := h
  · simp [Nat.not_le.2 hhigh]
  · simp [hedge, hlate]

/-- What an accepted edge does. -/
def edgeEffect (s : State) : State :=
  match s.aon.outstanding with
  | some (p, t) =>
    let s := s.modAon fun a => { a with outstanding := none }
    if time s ≤ 500 + t then modSync (s.modAon fun a => { a with lastEdge := some (time s) }) p (edgeSeen (time s))
    else reportCode s 0x6901
  | none => reportCode s 0x6901

theorem exec_whorlSyncEdge (haon : aonUp s = true) (now high : Nat) : exec (.whorlSyncEdge now high) s
    = .next (if edgePasses (advance s now) high then edgeEffect (advance s now) else s) := by
  show execWhorlSyncEdge now high s = _
  simp only [execWhorlSyncEdge, timed, aonUp_advance, haon, Bool.true_and]
  rfl

/-- R19: an edge outside its window is discarded. -/
theorem edgeEffect_of_outside (h : s.aon.outstanding = none ∨ ∃ p t0, s.aon.outstanding = some (p, t0) ∧ 500 + t0 < time s) :
    edgeEffect s = reportCode (s.modAon fun a => { a with outstanding := none }) 0x6901 := by
  obtain hnone | ⟨p, t0, hout, hlate⟩ := h
  · have hsame : (s.modAon fun a => { a with outstanding := none }) = s := by
      show { s with aon := { s.aon with outstanding := none } } = s
      rw [← hnone]
    rw [hsame]
    simp only [edgeEffect, hnone]
  · simp only [edgeEffect, hout]
    exact if_neg (Nat.not_le.2 hlate)

theorem edgeEffect_of_inside (hout : s.aon.outstanding = some (p, t0)) (h : time s ≤ 500 + t0) : edgeEffect s
    = modSync (s.modAon fun a => { a with outstanding := none, lastEdge := some (time s) }) p (edgeSeen (time s)) := by
  simp only [edgeEffect, hout]
  exact if_pos h

/-! ### Sends -/

/-- What a send does (R396, R397). -/
def syncSent (s : State) (p : Nat) : State :=
  let x := syncOf s p
  let prev := sendTime x ((65535 + x.seq) % 65536)
  emit ((modSync (s.modPort p fun q => { q with cellHeld := q.cellHeld - 1 }) p
      fun y => { y with seq := (y.seq + 1) % 65536, sends := ((y.seq, none) :: y.sends).take 4 }).modAon
        fun a => { a with outstanding := some (p, time s) })
    (.sync p x.seq prev (x.arrival.getD 0) x.arrSeq (syncCell p x.seq prev (x.arrival.getD 0) x.arrSeq))

theorem exec_syncSend (haon : aonUp s = true) (hmain : s.mainReset = false) (hport : (s.port p).up = true)
    (hfreeze : s.coll.freeze = false) (now : Nat) : exec (.syncSend now p) s
      = .next (if s.aon.outstanding = none ∧ 0 < (s.port p).cellHeld then syncSent (advance s now) p else s) := by
  show execSyncSend now p s = _
  have hup : up s = true := by simp [up, hmain]
  have hguard : (aonUp (advance s now) && up (advance s now) && ((advance s now).port p).up
      && decide (0 < ((advance s now).port p).cellHeld) && (advance s now).aon.outstanding == none && !(advance s now).coll.freeze)
        = decide (s.aon.outstanding = none ∧ 0 < (s.port p).cellHeld) := by
    cases hout : s.aon.outstanding <;> simp [haon, hup, hport, hfreeze, hout]
  simp only [execSyncSend, timed, hguard, decide_eq_true_eq]
  rfl

theorem syncSent_spec (s : State) (p : Nat) :
    let prev := sendTime (syncOf s p) ((65535 + (syncOf s p).seq) % 65536)
    let arr := (syncOf s p).arrival.getD 0
    (syncSent s p).aon.outstanding = some (p, time s)
      ∧ (syncSent s p).out = .sync p (syncOf s p).seq prev arr (syncOf s p).arrSeq
            (syncCell p (syncOf s p).seq prev arr (syncOf s p).arrSeq) :: s.out
      ∧ (syncOf (syncSent s p) p).seq = ((syncOf s p).seq + 1) % 65536
      ∧ (syncSent s p).port p = { s.port p with cellHeld := (s.port p).cellHeld - 1 }
      ∧ (∀ k, k ≠ p → (syncSent s p).port k = s.port k)
      ∧ syncSent s p = { s with aon := (syncSent s p).aon, ports := (syncSent s p).ports, out := (syncSent s p).out } := by
  refine ⟨rfl, rfl, congrArg PortSync.seq (tget_tput_self ..), tget_tput_self .., fun k hk => tget_tput_ne _ _ _ hk, rfl⟩

/-- Settles O40. -/
theorem syncMessages : Obligations.SyncMessages := by
  unfold Obligations.SyncMessages
  refine ⟨fun s now high haon => ⟨?_, ?_, ?_⟩, ?_, ?_⟩
  case refine_1 =>
    intro p t0 n v r hhigh hlast hout hin hsends
    have hexec := exec_whorlSyncEdge haon now high
    rw [if_pos (edgePasses_of hhigh (by simpa using hlast)), edgeEffect_of_inside (by simpa using hout) hin] at hexec
    refine ⟨_, hexec, ?_, rfl, rfl, ?_, fun k hk => ?_⟩
    · rw [advance_eq]
      rfl
    · rw [syncOf_modSync_self]
      have hlist : (syncOf ((advance s now).modAon fun a =>
          { a with outstanding := none, lastEdge := some (time (advance s now)) }) p).sends = (n, v) :: r :=
        (congrArg PortSync.sends (syncOf_advance s now p)).trans hsends
      simp only [edgeSeen, hlist]
      rfl
    · rw [syncOf_modSync_ne _ _ hk]
      exact syncOf_advance s now k
  case refine_2 =>
    intro hhigh hlast hout
    have hexec := exec_whorlSyncEdge haon now high
    rw [if_pos (edgePasses_of hhigh (by simpa using hlast)), edgeEffect_of_outside (by simpa using hout)] at hexec
    have hcount := counted_alwaysOn quiet_6901 (by decide) (by decide) ((advance s now).modAon fun a => { a with outstanding := none })
    refine ⟨_, hexec, ?_, ?_, ?_, by simpa using hcount⟩ <;> rw [reportCode_shape quiet_6901]
    · rfl
    · exact advance_aon_sync s now
    · exact advance_aon_lastEdge s now
  case refine_3 =>
    intro h
    rw [exec_whorlSyncEdge haon, edgePasses_of_not (by simpa using h)]
    rfl
  case refine_4 =>
    intro s now p t0 haon hout hlate
    refine ⟨_, (timed_of s (by simp [haon, hout, hlate]) : execSyncWindowExpiry now s = _), ?_, rfl, advance_aon_sync s now⟩
    rw [advance_eq]
    rfl
  case refine_5 =>
    intro s now p haon hmain hport hfreeze
    have hexec := exec_syncSend haon hmain hport hfreeze now
    refine ⟨fun hout hheld => ?_, fun hno => ?_⟩
    · rw [if_pos ⟨hout, hheld⟩] at hexec
      have hspec := syncSent_spec (advance s now) p
      simp only [syncOf_advance, advance_port, advance_out] at hspec
      obtain ⟨hsent, hemit, hseq, hself, hothers, hrest⟩ := hspec
      refine ⟨_, hexec, hsent, hemit, hseq, hself, hothers, ?_⟩
      rw [hrest, advance_eq]
    · rw [hexec, if_neg]
      rintro ⟨hout, hheld⟩
      exact hno.elim (fun h => h hout) (by omega)

end Sys2Proof.Machine

/-! PROOFS. Whorl time: steering, holdover, comparators (R398 to R403). -/

namespace Sys2Proof.Machine

open Sys2Proof.Claims

variable {s : State}

/-! ### The deadline monitor -/

/-- Comparator `n` holds one of the monitor's expiries. -/
def holder (s : State) (n : Nat) : Bool := (cmpOf s n).armed && !(cmpOf s n).fired && (expiries s).contains (cmpOf s n).value

/-- Comparators that the monitor may arm. -/
def freeCmps (s : State) : List Nat := (List.range 12).filter fun n => !holder s n

/-- Expiries that no comparator holds. -/
def restExpiries (s : State) : List Nat := (expiries s).filter fun v => !(List.range 12).any fun n => holder s n && (cmpOf s n).value == v

/-- What the monitor writes. -/
def newCmps (s : State) : List (Nat × Cmp) :=
  (freeCmps s).zipIdx.filterMap fun e => match (restExpiries s)[e.2]? with
    | some v => some (e.1, ({ value := v, armed := true } : Cmp))
    | none => if (cmpOf s e.1).armed && !(cmpOf s e.1).fired then some (e.1, {}) else none

theorem armMonitor_eq (s : State) :
    armMonitor s = s.modAon fun a => { a with cmps := (newCmps s).foldl (fun t e => tput t e.1 e.2) a.cmps } := rfl

theorem fst_mem_of_newCmps {e : Nat × Cmp} (h : e ∈ newCmps s) : e.1 ∈ freeCmps s := by
  obtain ⟨⟨n, j⟩, hmem, hsome⟩ := List.mem_filterMap.1 h
  have hn : n ∈ freeCmps s := (List.mem_zipIdx' hmem).2 ▸ List.getElem_mem _
  have he : e.1 = n := by
    simp only at hsome
    split at hsome
    · rw [← Option.some.inj hsome]
    · split at hsome
      · rw [← Option.some.inj hsome]
      · exact absurd hsome nofun
  rwa [he]

/-- The monitor leaves what holds an expiry, and the four comparators that are not its own. -/
theorem cmpOf_armMonitor_of_kept (h : n ∉ freeCmps s) : cmpOf (armMonitor s) n = cmpOf s n :=
  tget_foldl_tput Prod.fst Prod.snd n (cmpOf s n) {} (newCmps s) s.aon.cmps
    (fun _ he hn => absurd (hn ▸ fst_mem_of_newCmps he) h) (.inr rfl)

theorem cmpOf_armMonitor_of_ge (h : 12 ≤ n) : cmpOf (armMonitor s) n = cmpOf s n :=
  cmpOf_armMonitor_of_kept fun hn => by
    have := List.mem_range.1 (List.mem_of_mem_filter hn)
    omega

/-- The comparators that are free take the expiries that are left, in order. -/
theorem cmpOf_armMonitor_of_rest {v n j : Nat} (hfree : (freeCmps s)[j]? = some n) (hrest : (restExpiries s)[j]? = some v) :
    cmpOf (armMonitor s) n = { value := v, armed := true } := by
  have hnodup : (freeCmps s).Nodup := List.nodup_range.filter _
  refine tget_foldl_tput Prod.fst Prod.snd n _ {} (newCmps s) s.aon.cmps (fun e he hn => ?_) (.inl ⟨(n, { value := v, armed := true }), ?_, rfl⟩)
  · obtain ⟨⟨n', j'⟩, hmem, hsome⟩ := List.mem_filterMap.1 he
    have hget : (freeCmps s)[j']? = some n' := List.mk_mem_zipIdx_iff_getElem?.1 hmem
    have hsame : n' = n := by
      simp only at hsome
      split at hsome
      · rw [← hn, ← Option.some.inj hsome]
      · split at hsome
        · rw [← hn, ← Option.some.inj hsome]
        · exact absurd hsome nofun
    have hj : j' = j := by
      obtain ⟨hlt, hj'⟩ := List.getElem?_eq_some_iff.1 hget
      obtain ⟨hlt', hj⟩ := List.getElem?_eq_some_iff.1 hfree
      exact (hnodup.getElem_inj_iff).1 (by rw [hj', hj, hsame])
    simp only [hj, hrest] at hsome
    rw [← Option.some.inj hsome]
  · refine List.mem_filterMap.2 ⟨(n, j), List.mk_mem_zipIdx_iff_getElem?.2 hfree, ?_⟩
    simp only [hrest]

theorem length_expiries_le (s : State) : (expiries s).length ≤ 12 := List.length_take_le ..

/-- With different values in the comparators that are armed, enough of them are free for the expiries that are left. -/
theorem length_restExpiries_le (hinj : ∀ i j, i < 12 → j < 12 → (cmpOf s i).armed = true → (cmpOf s j).armed = true →
    (cmpOf s i).value = (cmpOf s j).value → i = j) : (restExpiries s).length ≤ (freeCmps s).length := by
  let held := (List.range 12).filter (holder s)
  let taken := fun v => (List.range 12).any fun n => holder s n && (cmpOf s n).value == v
  have harmed : ∀ n ∈ held, n < 12 ∧ (cmpOf s n).armed = true := fun n hn => by
    obtain ⟨hlt, hholds⟩ := List.mem_filter.1 hn
    simp only [holder, Bool.and_eq_true] at hholds
    exact ⟨List.mem_range.1 hlt, hholds.1.1⟩
  have hnodup : (held.map fun n => (cmpOf s n).value).Nodup :=
    List.Nodup.map_on (fun i hi j hj h => hinj i j (harmed i hi).1 (harmed j hj).1 (harmed i hi).2 (harmed j hj).2 h)
      (List.nodup_range.filter _)
  have hsub : (held.map fun n => (cmpOf s n).value) ⊆ (expiries s).filter taken := fun v hv => by
    obtain ⟨n, hn, rfl⟩ := List.mem_map.1 hv
    obtain ⟨hlt, hholds⟩ := List.mem_filter.1 hn
    refine List.mem_filter.2 ⟨?_, List.any_eq_true.2 ⟨n, hlt, by simp [hholds]⟩⟩
    simp only [holder, Bool.and_eq_true, List.contains_iff_mem] at hholds
    exact hholds.2
  have hheld := (List.subperm_of_subset hnodup hsub).length_le
  have hall : (expiries s).length = ((expiries s).filter taken).length + ((expiries s).filter fun v => !taken v).length :=
    List.length_eq_length_filter_add taken
  have hcmps : (List.range 12).length = held.length + ((List.range 12).filter fun n => !holder s n).length :=
    List.length_eq_length_filter_add (holder s)
  have htwelve := length_expiries_le s
  rw [List.length_map] at hheld
  rw [List.length_range] at hcmps
  show ((expiries s).filter fun v => !taken v).length ≤ ((List.range 12).filter fun n => !holder s n).length
  omega

/-- R403: after the monitor has armed its comparators, each of its expiries is held. -/
theorem armMonitor_holds (hinj : ∀ i j, i < 12 → j < 12 → (cmpOf s i).armed = true → (cmpOf s j).armed = true →
    (cmpOf s i).value = (cmpOf s j).value → i = j) {v : Nat} (hv : v ∈ expiries s) :
    ∃ k, k < 12 ∧ (cmpOf (armMonitor s) k).armed = true ∧ (cmpOf (armMonitor s) k).fired = false
      ∧ (cmpOf (armMonitor s) k).value = v := by
  cases htaken : (List.range 12).any fun n => holder s n && (cmpOf s n).value == v with
  | true =>
    obtain ⟨n, hn, hholds⟩ := List.any_eq_true.1 htaken
    rw [Bool.and_eq_true, beq_iff_eq] at hholds
    obtain ⟨hholds, hvalue⟩ := hholds
    have hkept : n ∉ freeCmps s := fun h => by simp [freeCmps, hholds] at h
    rw [holder, Bool.and_eq_true, Bool.and_eq_true, Bool.not_eq_true'] at hholds
    exact ⟨n, List.mem_range.1 hn, by rw [cmpOf_armMonitor_of_kept hkept]; exact ⟨hholds.1.1, hholds.1.2, hvalue⟩⟩
  | false =>
    have hrest : v ∈ restExpiries s := List.mem_filter.2 ⟨hv, by rw [htaken]; rfl⟩
    obtain ⟨j, hj, hget⟩ := List.mem_iff_getElem.1 hrest
    have hlt : j < (freeCmps s).length := hj.trans_le (length_restExpiries_le hinj)
    have hnew := cmpOf_armMonitor_of_rest (List.getElem?_eq_getElem hlt) (List.getElem?_eq_some_iff.2 ⟨hj, hget⟩)
    refine ⟨(freeCmps s)[j], ?_, by rw [hnew], by rw [hnew], by rw [hnew]⟩
    exact List.mem_range.1 (List.mem_of_mem_filter (List.getElem_mem hlt))

/-! ### A comparator fires -/

theorem wakeUp_shape (s : State) :
    wakeUp s = { s with aon := { s.aon with wakeN := (wakeUp s).aon.wakeN }, power := (wakeUp s).power } := by
  unfold wakeUp
  split
  · rfl
  · split <;> rfl

theorem fire_shape (s : State) (n : Nat) : fire s n
    = { s with aon := { s.aon with cmps := (fire s n).aon.cmps, wakeN := (fire s n).aon.wakeN }, power := (fire s n).power } := by
  unfold fire
  extract_lets c marked woken
  have hwoken : woken = { marked with aon := { marked.aon with wakeN := woken.aon.wakeN }, power := woken.power } := by
    unfold woken
    split
    · exact wakeUp_shape marked
    · rfl
  split
  · rw [hwoken]
    rfl
  · rw [armMonitor_eq, hwoken]
    rfl

theorem time_fire (s : State) (n : Nat) : time (fire s n) = time s := by
  rw [fire_shape]
  rfl

theorem fireDue_shape (s : State) : fireDue s
    = { s with aon := { s.aon with cmps := (fireDue s).aon.cmps, wakeN := (fireDue s).aon.wakeN }, power := (fireDue s).power } :=
  forAll_rel (R := fun s t => t = { s with aon := { s.aon with cmps := t.aon.cmps, wakeN := t.aon.wakeN }, power := t.power })
    (fun _ => rfl) (fun h h' => by rw [h', h]) (fun t n => fire_shape t n) _ s

/-- The state in which comparator `n` is noted as fired. -/
def fired (s : State) (n : Nat) : State :=
  let marked := s.modAon fun a => { a with cmps := tput a.cmps n { cmpOf s n with fired := true } }
  if (cmpOf s n).wake || s.aon.asleep then wakeUp marked else marked

theorem fired_aon (s : State) (n : Nat) : (fired s n).aon = { s.aon with
    cmps := tput s.aon.cmps n { cmpOf s n with fired := true }, wakeN := (fired s n).aon.wakeN } := by
  unfold fired
  extract_lets
  split
  · rw [wakeUp_shape]
    rfl
  · rfl

theorem cmpOf_fired_self (s : State) (n : Nat) : cmpOf (fired s n) n = { cmpOf s n with fired := true } := by
  rw [cmpOf, fired_aon]
  exact tget_tput_self ..

theorem cmpOf_fired_ne (s : State) (h : k ≠ n) : cmpOf (fired s n) k = cmpOf s k := by
  rw [cmpOf, fired_aon]
  exact tget_tput_ne _ _ _ h

theorem fire_eq (s : State) (n : Nat) : fire s n = if s.aon.asleep then fired s n else armMonitor (fired s n) := by
  have hasleep : (fired s n).aon.asleep = s.aon.asleep := by rw [fired_aon]
  rw [← hasleep]
  rfl

/-- R403: outside the monitor, and asleep, firing marks the comparator and leaves every other. -/
theorem cmpOf_fire (h : 12 ≤ k ∨ s.aon.asleep = true) :
    cmpOf (fire s n) k = if k = n then { cmpOf s n with fired := true } else cmpOf s k := by
  have hstands : cmpOf (fire s n) k = cmpOf (fired s n) k := by
    rw [fire_eq]
    split
    · rfl
    · next hawake => exact cmpOf_armMonitor_of_ge (h.resolve_right (by simpa using hawake))
  rw [hstands]
  split
  · next hk => rw [hk, cmpOf_fired_self]
  · next hk => exact cmpOf_fired_ne s hk

/-! ### Whorl time is set -/

/-! ### A pair from the parent -/

theorem quiet_6905 : QuietCode 0x6905 := by decide

theorem quiet_6903 : QuietCode 0x6903 := by decide

/-- R399: adoption sets whorl time in one step. -/
theorem correct_of_fresh (h : s.aon.adopted = false) (o2 : Int) : correct s o2
    = (fireDue (setWhorl s (((time s : Int) - o2 / 2).toNat))).modAon fun a => { a with adopted := true } := by
  simp [correct, h]

theorem correct_of_small (h : s.aon.adopted = true) (hlow : -20000 ≤ o2) (hhigh : o2 ≤ 20000) : correct s o2 = s := by
  simp [correct, h, Int.not_lt.2 hlow, Int.not_lt.2 hhigh]

theorem correct_of_behind (h : s.aon.adopted = true) (hlow : o2 < -20000) : correct s o2
    = reportCode (fireDue (s.modAon fun a => { a with whorl := (((a.whorl : Int) - o2 / 2).toNat), whorlHold := none })) 0x6905 := by
  simp [correct, h, hlow]

theorem correct_of_ahead (h : s.aon.adopted = true) (hhigh : 20000 < o2) : correct s o2
    = reportCode (s.modAon fun a => { a with whorlHold := some ((o2 / 2).toNat) }) 0x6905 := by
  have hlow : ¬ o2 < -20000 := by omega
  simp [correct, h, hlow, hhigh]

/-- The port's state once a message of a valid pair has been noted (R397). -/
def pairNoted (s : State) (p : Nat) (m : SyncMsg) (ta : Int) : State :=
  modSync (modSync s p fun y => { y with
      arrival := some (time s), arrSeq := m.seq, tA := some ta, nbSynced := m.nbSynced, nbDepth := m.nbDepth, nbPkg := m.nbPkg }) p
    fun y => { y with lastValid := time s }

theorem syncOf_pairNoted (s : State) (p : Nat) (m : SyncMsg) (ta : Int) : syncOf (pairNoted s p m ta) p
    = { syncOf s p with arrival := some (time s), arrSeq := m.seq, tA := some ta, nbSynced := m.nbSynced, nbDepth := m.nbDepth
                        nbPkg := m.nbPkg, lastValid := time s } := by
  rw [pairNoted, syncOf_modSync_self, syncOf_modSync_self]

theorem minBy_mem {α : Type} (key : α → Nat) {l : List α} {x : α} (h : minBy key l = some x) : x ∈ l := by
  induction l generalizing x with
  | nil => exact absurd h nofun
  | cons a l ih =>
    cases htail : minBy key l with
    | none =>
      rw [minBy, htail] at h
      exact Option.some.inj h ▸ .head l
    | some b =>
      simp only [minBy, htail] at h
      split at h
      · exact .tail a (ih (htail.trans h))
      · exact Option.some.inj h ▸ .head l

theorem minBy_isSome {α : Type} (key : α → Nat) {l : List α} {x : α} (h : x ∈ l) : ∃ y, minBy key l = some y := by
  cases l with
  | nil => exact absurd h nofun
  | cons a l =>
    unfold minBy
    split
    · exact ⟨a, rfl⟩
    · split
      · exact ⟨_, rfl⟩
      · exact ⟨a, rfl⟩

/-- R398: with no other neighbour that can be a parent, the one whose message came is the best. -/
theorem bestParent_pairNoted {m : SyncMsg} (ta : Int) (hport : (s.port p).up = true) (hsynced : m.nbSynced = true)
    (hothers : ∀ e ∈ s.aon.sync, e.1 ≠ p → canParent s e = false) : ∃ e, bestParent (pairNoted s p m ta) = some e ∧ e.1 = p := by
  have hself : tfind (pairNoted s p m ta).aon.sync p = some (syncOf (pairNoted s p m ta) p) := by
    rw [syncOf, tget, pairNoted, modSync, modAon_aon, tfind_tput_self]
    rfl
  have hcan : canParent (pairNoted s p m ta) (p, syncOf (pairNoted s p m ta) p) = true := by
    have hport' : ((pairNoted s p m ta).port p).up = true := hport
    have htime : time (pairNoted s p m ta) = time s := rfl
    simp [canParent, syncOf_pairNoted, hsynced, hport', htime]
  obtain ⟨e, he⟩ := minBy_isSome (fun e : Nat × PortSync => e.2.nbDepth * 4096 + e.2.nbPkg)
    (List.mem_filter.2 ⟨mem_of_tfind hself, hcan⟩)
  refine ⟨e, he, ?_⟩
  obtain ⟨hmem, hcane⟩ := List.mem_filter.1 (minBy_mem _ he)
  by_contra hne
  have hold : e ∈ s.aon.sync := by
    obtain h | h := mem_tput hmem
    · exact absurd (congrArg Prod.fst h) hne
    · obtain h | h := mem_tput h
      · exact absurd (congrArg Prod.fst h) hne
      · exact h
  exact absurd (show canParent s e = true from hcane) (by simp [hothers e hold hne])

theorem takeParent_of_same {e : Nat × PortSync} (h : s.aon.parentPort = e.1) : takeParent s e
    = { s with aon := (takeParent s e).aon } ∧ (takeParent s e).aon = { s.aon with
        root := (takeParent s e).aon.root, synced := true, holdover := false, holdFree := (takeParent s e).aon.holdFree
        depth := (takeParent s e).aon.depth, parentPort := (takeParent s e).aon.parentPort }
      ∧ ((takeParent s e).aon.parentPort = e.1 ∨ myPkg s = 0) := by
  unfold takeParent
  split
  · next hzero => exact ⟨rfl, rfl, .inr hzero⟩
  · have hsame : (s.aon.parentPort != 7 && s.aon.parentPort != e.1) = false := by simp [h]
    simp only [hsame]
    exact ⟨rfl, rfl, .inl rfl⟩

/-- Before the correction: the offset `o2` / 2 of a valid pair is noted, and whorl time stands. -/
structure Steered (s : State) (p : Nat) (m : SyncMsg) (o2 : Int) (u : State) : Prop where
  rest : u = { s with aon := u.aon }
  offset : u.aon.offset16 = 8 * o2
  synced : u.aon.synced = true
  holdover : u.aon.holdover = false
  whorl : u.aon.whorl = s.aon.whorl
  hold : u.aon.whorlHold = s.aon.whorlHold
  adopted : u.aon.adopted = s.aon.adopted
  valid : (syncOf u p).lastValid = time s
  seq : (syncOf u p).arrSeq = m.seq
  arrival : (syncOf u p).arrival = some (time s)

/-- What follows the message of a pair whose offset is `o2` / 2 (R398, R399). -/
def pairTaken (s : State) (p : Nat) (nbSynced : Bool) (o2 : Int) : State :=
  if !nbSynced then s
  else if s.aon.root && s.aon.synced then s
  else
    let s := match bestParent s with
      | some e => takeParent s e
      | none => s
    if s.aon.parentPort = p ∨ myPkg s = 0 then
      correct (s.modAon fun a => { a with offset16 := 8 * o2, holdover := false, holdFree := false, synced := true }) o2
    else s

theorem myPkg_congr {s t : State} (h : t.aon.coords = s.aon.coords) : myPkg t = myPkg s := by simp only [myPkg, h]

/-- R398, R399: a valid pair from the parent is corrected toward. -/
theorem exec_syncArrival_pair {m : SyncMsg} (now : Nat) (haon : aonUp s = true) (hmain : s.mainReset = false)
    (hport : (s.port p).up = true) (hsynced : m.nbSynced = true) (hroot : (s.aon.root && s.aon.synced) = false)
    (hparent : s.aon.parentPort = p) (harrival : (syncOf s p).arrival = some a) (hseq : (syncOf s p).arrSeq = (65535 + m.seq) % 65536)
    (hothers : ∀ e ∈ s.aon.sync, e.1 ≠ p → canParent (advance s now) e = false) (hprev : m.prevSend = some b)
    (hsent : sendTime (syncOf s p) m.prevSeq = some b2) :
    ∃ u, exec (.syncArrival now p m) s = .next (correct u (((a : Int) - b) - ((m.prevArrival : Int) - b2)))
      ∧ Steered (advance s now) p m (((a : Int) - b) - ((m.prevArrival : Int) - b2)) u := by
  have hexec : execSyncArrival now p m s = _ := timed_of s (by simp [haon, up, hmain, hport])
  have hroot' : ((advance s now).aon.root && (advance s now).aon.synced) = false := by simpa using hroot
  have hparent' : (advance s now).aon.parentPort = p := by simpa using hparent
  have hport' : ((advance s now).port p).up = true := by simpa using hport
  rw [← syncOf_advance s now] at harrival hseq hsent
  rw [← advance_aon_sync s now] at hothers
  generalize advance s now = s1 at *
  let o2 : Int := ((a : Int) - b) - ((m.prevArrival : Int) - b2)
  have htaken : exec (.syncArrival now p m) s = .next (pairTaken (pairNoted s1 p m ((a : Int) - b)) p m.nbSynced o2) := by
    refine hexec.trans ?_
    simp only [hseq, if_true, harrival, hprev, hsent]
    rfl
  obtain ⟨e, hbest, he⟩ := bestParent_pairNoted ((a : Int) - b) hport' hsynced hothers
  obtain ⟨hrest, haon', hwho⟩ := takeParent_of_same (s := pairNoted s1 p m ((a : Int) - b)) (hparent'.trans he.symm)
  have hsync := syncOf_pairNoted s1 p m ((a : Int) - b)
  have hroot'' : ((pairNoted s1 p m ((a : Int) - b)).aon.root && (pairNoted s1 p m ((a : Int) - b)).aon.synced) = false := hroot'
  refine ⟨(takeParent (pairNoted s1 p m ((a : Int) - b)) e).modAon fun x => { x with
    offset16 := 8 * o2, holdover := false, holdFree := false, synced := true }, ?_, ?_⟩
  · have hpkg : myPkg (takeParent (pairNoted s1 p m ((a : Int) - b)) e) = myPkg (pairNoted s1 p m ((a : Int) - b)) :=
      myPkg_congr (by rw [haon'])
    rw [htaken, pairTaken, hsynced, hroot'', hbest]
    simp only [Bool.not_true, Bool.false_eq_true, if_false]
    rw [if_pos (by rw [hpkg]; exact hwho.imp_left fun h => h.trans he)]
  · have hsync' : (takeParent (pairNoted s1 p m ((a : Int) - b)) e).aon.sync = (pairNoted s1 p m ((a : Int) - b)).aon.sync := by
      rw [haon']
    have hport'' := (syncOf_congr hsync' p).trans hsync
    generalize takeParent (pairNoted s1 p m ((a : Int) - b)) e = w at *
    refine ⟨?_, rfl, rfl, rfl, ?_, ?_, ?_, ?_, ?_, ?_⟩
    · rw [hrest]
      rfl
    · exact (congrArg Aon.whorl haon').trans rfl
    · exact (congrArg Aon.whorlHold haon').trans rfl
    · exact (congrArg Aon.adopted haon').trans rfl
    · exact (congrArg PortSync.lastValid hport'').trans rfl
    · exact (congrArg PortSync.arrSeq hport'').trans rfl
    · exact (congrArg PortSync.arrival hport'').trans rfl

/-! ### Reading the time, and the epoch -/

theorem advance_of_reached (h : now ≤ time s) : advance s now = s := by
  unfold advance
  rw [if_neg]
  have : ¬ s.aon.whorl < now := Nat.not_lt.2 h
  simp [this]

theorem le_time_advance (haon : aonUp s = true) (now : Nat) : now ≤ time (advance s now) := by
  rw [time_advance, if_pos haon]
  exact le_max_right ..

/-- Settles O41. -/
theorem whorlTime : Obligations.WhorlTime := by
  unfold Obligations.WhorlTime
  refine ⟨?_, ?_, ?_, ?_, ?_⟩
  case refine_1 =>
    intro s now p a b b2 m haon hmain hport hsynced hroot hparent harrival hseq hothers hprev hsent o2
    obtain ⟨u, hexec, hsteer⟩ := exec_syncArrival_pair now haon hmain hport hsynced hroot hparent harrival hseq hothers hprev hsent
    have hadv := advance_aon_adopted s now
    have htime : time u = time (advance s now) := hsteer.whorl
    have hcoll : u.coll = s.coll := by rw [hsteer.rest]; simp
    refine ⟨fun hadopted hlow hhigh => ?_, fun hfresh => ?_, fun hadopted hlow => ?_, fun hadopted hhigh => ?_⟩
    · rw [correct_of_small (hsteer.adopted.trans (hadv.trans hadopted)) hlow hhigh] at hexec
      refine ⟨u, hexec, ?_, hsteer.offset, hsteer.synced, hsteer.holdover, htime, hsteer.hold, ?_, hsteer.seq, ?_⟩
      · rw [hsteer.rest, advance_eq]
      · rw [hsteer.valid, htime]
      · rw [hsteer.arrival, htime]
    · rw [correct_of_fresh (hsteer.adopted.trans (hadv.trans hfresh)), htime] at hexec
      refine ⟨_, hexec, rfl, ?_, ?_⟩
      · rw [fireDue_shape]
        exact hsteer.offset
      · rw [fireDue_shape]
        rfl
    · rw [correct_of_behind (hsteer.adopted.trans (hadv.trans hadopted)) hlow] at hexec
      refine ⟨_, hexec, ?_, ?_⟩
      · rw [time_reportCode quiet_6905, fireDue_shape, ← htime]
        rfl
      · rw [(counted_alwaysOn quiet_6905 (by decide) (by decide) _).1, fireDue_shape, ← hcoll]
        rfl
    · rw [correct_of_ahead (hsteer.adopted.trans (hadv.trans hadopted)) hhigh] at hexec
      refine ⟨_, hexec, ?_, ?_, ?_⟩
      · rw [time_reportCode quiet_6905]
        exact htime
      · rw [reportCode_shape quiet_6905]
        rfl
      · rw [(counted_alwaysOn quiet_6905 (by decide) (by decide) _).1, ← hcoll]
        rfl
  case refine_2 =>
    intro s now haon hsynced hroot hparent hlate hnone
    have hexec : execParentTimeout now s = _ := timed_of s (by simp [haon, hsynced, hroot, hparent, hlate])
    simp only [hnone] at hexec
    refine ⟨_, hexec, ?_, ?_, ?_, ?_, ?_, ?_⟩
    · rw [reportCode_shape quiet_6903]
      rfl
    · rw [reportCode_shape quiet_6903]
      rfl
    · rw [time_reportCode quiet_6903, reportCode_shape quiet_6903]
      rfl
    · rw [reportCode_shape quiet_6903]
      rfl
    · rw [time_reportCode quiet_6903]
      rfl
    · rw [(counted_alwaysOn quiet_6903 (by decide) (by decide) _).1]
      simp
  case refine_3 =>
    intro s now haon hpkg hadopted hnone hlate
    have hexec : execFabricEpochStart now s = _ := timed_of s (by simp [haon, myPkg_advance, hpkg, hadopted, hlate, hnone])
    refine ⟨_, hexec, rfl, rfl, rfl, rfl, rfl, ?_, ?_, ?_⟩
    · show (advance s now).coll.log = _
      rw [advance_coll]
    · exact advance_parts s now
    · exact advance_steps s now
  case refine_4 =>
    intro s now n haon hdue
    have hcmp : ∀ k, cmpOf (advance s now) k = cmpOf s k := fun k => by simp only [cmpOf, advance_aon_cmps]
    have hasleep := advance_aon_asleep s now
    have hexec : execComparatorFire now n s = _ := timed_of s (by simp [haon, hcmp, hdue])
    have hreached := le_time_advance haon now
    generalize hs1 : advance s now = s1 at *
    refine ⟨fun hout => ?_, fun hn hawake hinj => ?_⟩
    · have hcmps := fun k => cmpOf_fire (s := s1) (n := n) (k := k)
      rw [hasleep] at hcmps
      refine ⟨_, hexec, ?_, fun k hk hkout => ?_, ?_⟩
      · rw [hcmps n hout, if_pos rfl, hcmp]
      · rw [hcmps k hkout, if_neg hk, hcmp]
      · have hfired : (cmpOf (fire s1 n) n).fired = true := by rw [hcmps n hout, if_pos rfl]
        have hstay : advance (fire s1 n) now = fire s1 n := advance_of_reached (by rw [time_fire]; exact hreached)
        show execComparatorFire now n (fire s1 n) = _
        simp [execComparatorFire, timed, hstay, due, hfired]
    · refine ⟨_, hexec, fun v hv => ?_⟩
      have hfire : fire s1 n = armMonitor (fired s1 n) := by rw [fire_eq, hasleep, hawake]; rfl
      rw [hfire] at hv ⊢
      have hsame : ∀ k, (cmpOf (fired s1 n) k).armed = (cmpOf s k).armed ∧ (cmpOf (fired s1 n) k).value = (cmpOf s k).value := by
        intro k
        by_cases hk : k = n
        · rw [hk, cmpOf_fired_self, hcmp]
          exact ⟨rfl, rfl⟩
        · rw [cmpOf_fired_ne s1 hk, hcmp]
          exact ⟨rfl, rfl⟩
      refine armMonitor_holds (fun i j hi hj hai haj hij => hinj i j hi hj ?_ ?_ ?_) hv
      · rw [← (hsame i).1, hai]
      · rw [← (hsame j).1, haj]
      · rw [← (hsame i).2, ← (hsame j).2, hij]
  case refine_5 =>
    intro s f henabled
    have hexec : execWhlTimeLo f s = _ := untimed_of s henabled
    refine ⟨fun hnone => hexec.trans ?_, fun hmain => hexec.trans ?_⟩
    · simp only [readEffect, hnone]
      rfl
    · have hforced : readForced s f .whl = some true := by simp [readForced, hmain]
      simp only [readEffect, hforced]
      rfl

end Sys2Proof.Machine

/-! PROOFS. Writes of registers (R332, R337, R569 to R576). -/

namespace Sys2Proof.Machine

open Sys2Proof.Claims

variable {s : State}

/-- The part of a written value that register word `i` takes (R570). -/
def wordOf (val : BitVec 512) (i : Nat) : Nat := val.toNat / 2 ^ (32 * i) % 2 ^ 32

theorem exec_registerWrite (s : State) (f off width : Nat) (val : BitVec 512) : exec (.registerWrite f off width val) s
    = .next (if accessOk off width && !s.mainReset then
        (List.range (width / 4)).foldl (fun s i => regWrite4 s f (off + 4 * i) (wordOf val i)) s else s) := rfl

/-- A write of one word (R569, R570). -/
theorem exec_registerWrite_word (hmain : s.mainReset = false) (halign : off % 4 = 0) (f : Nat) (val : BitVec 512) :
    exec (.registerWrite f off 4 val) s = .next (regWrite4 s f off (val.toNat % 2 ^ 32)) := by
  rw [exec_registerWrite, if_pos (by simp [accessOk, halign, hmain])]
  simp [List.range_succ, wordOf]

/-! ### Which writes reach a register -/

theorem not_writable_of_freeze (h : s.coll.freeze = true) (f : Nat) (r : Region) : writable s f r = false := by simp [writable, h]

theorem aperAccess_of_freeze (h : s.coll.freeze = true) (off : Nat) (bs : List Byte) : aperAccess s off 4 (some bs) = s := by
  rw [aperAccess, if_pos (by simp [h])]
  rfl

/-- R573: during a fatal freeze no write reaches a register. -/
theorem regWrite4_of_freeze (h : s.coll.freeze = true) (f off v : Nat) : regWrite4 s f off v = s := by
  unfold regWrite4
  split
  · rfl
  · rw [aperAccess_of_freeze h]
    exact ite_self s
  · rw [not_writable_of_freeze h]
    rfl

theorem foldl_of_fixed {α β : Type} {g : β → α → β} {b : β} (l : List α) (h : ∀ x, g b x = b) : l.foldl g b = b := by
  induction l with
  | nil => rfl
  | cons x l ih => rw [List.foldl_cons, h, ih]

/-! ### One word of a region -/

theorem regWrite4_of_region {r : Region} (hregion : regionOf f off = some (r, o)) (haper : r ≠ .aperture) (v : Nat) :
    regWrite4 s f off v = if !writable s f r then s else match r with
      | .ident => if f = 0 ∧ (o = 0x28 ∨ o = 0x2C) then { s with host := writeAper o v s.host } else s
      | .mbx => s.modFunc f (writeMbx s.life.minimal o v)
      | .evt => if o = 0x14 then s.modFunc f (writeEvtHead (time s) v) else s
      | .gst => writeGst s o v
      | .doorbell => if o % 8 = 0 ∧ doorbellOk s f (o / 8) then ringDoorbell s f (o / 8) (v % 65536) else s
      | _ => s := by
  cases r
  case aperture => exact absurd rfl haper
  all_goals simp only [regWrite4, hregion]

theorem regWrite4_mbx (hregion : regionOf f off = some (.mbx, o)) (v : Nat) : regWrite4 s f off v
    = if writable s f .mbx then s.modFunc f (writeMbx s.life.minimal o v) else s := by
  rw [regWrite4_of_region hregion nofun]
  cases writable s f .mbx <;> rfl

theorem doorbellOk_writable (h : doorbellOk s f i = true) : writable s f .doorbell = true := by
  rw [doorbellOk, Bool.and_eq_true] at h
  exact h.1

theorem bootOffset (hregion : regionOf f off = some (.mbx, o)) (halign : off % 4 = 0) : o % 4 = 0 := by
  have hfound : ∀ l : List (Region × Nat × Nat), (∀ e ∈ l, e.2.1 % 4 = 0) →
      ((l.find? fun r => decide (r.2.1 ≤ off ∧ off ≤ r.2.2)).map fun r => (r.1, off - r.2.1)) = some (.mbx, o) → o % 4 = 0 := by
    intro l hl h
    obtain ⟨e, he, heq⟩ := Option.map_eq_some_iff.1 h
    have hmem := hl e (List.mem_of_find?_eq_some he)
    have hin := List.find?_some he
    rw [decide_eq_true_eq] at hin
    have ho : off - e.2.1 = o := congrArg Prod.snd heq
    omega
  exact hfound _ (by split <;> decide) hregion

/-! ### The boot mailbox and the ring bases -/

theorem slice_of_le {l : List Byte} (h : a + n ≤ l.length) : slice l a n = (l.drop a).take n := by
  have hlen : ((l.drop a).take n).length = n := by
    rw [List.length_take, List.length_drop]
    omega
  simp [slice, hlen]

/-- A patch of the boot mailbox stands where it was written, and the rest stands. -/
theorem bootPatch_eq (boot bs : List Byte) (hboot : boot.length = 64) (hfits : o + bs.length ≤ 64) :
    bootPatch boot o bs = boot.take o ++ (bs ++ boot.drop (o + bs.length)) := by
  rw [bootPatch, slice_of_le (by omega), slice_of_le (by omega), List.append_assoc, List.drop_zero]
  congr 2
  exact List.take_of_length_le (by rw [List.length_drop]; omega)

theorem slice_bootPatch (boot bs : List Byte) (hboot : boot.length = 64) (hfits : o + bs.length ≤ 64) :
    slice (bootPatch boot o bs) o bs.length = bs := by
  have htake : (boot.take o).length = o := by rw [List.length_take]; omega
  rw [bootPatch_eq boot bs hboot hfits, slice_of_le (by simp; omega), List.drop_left' htake, List.take_left]

theorem getD_bootPatch (boot bs : List Byte) (hboot : boot.length = 64) (hfits : o + bs.length ≤ 64)
    (hout : i < o ∨ o + bs.length ≤ i) : (bootPatch boot o bs).getD i 0 = boot.getD i 0 := by
  have htake : (boot.take o).length = o := by rw [List.length_take]; omega
  rw [bootPatch_eq boot bs hboot hfits]
  obtain hlow | hhigh := hout
  · rw [List.getD_append _ _ _ _ (by omega), List.getD_eq_getElem?_getD, List.getElem?_take_of_lt hlow, ← List.getD_eq_getElem?_getD]
  · rw [List.getD_append_right _ _ _ _ (by omega), List.getD_append_right _ _ _ _ (by omega), List.getD_eq_getElem?_getD,
      List.getElem?_drop, ← List.getD_eq_getElem?_getD]
    congr 1
    omega

theorem writeMbx_boot (h : (x : Func).bootBusy = false) (hlow : 0x40 ≤ o) (hhigh : o < 0x80) (minimal : Bool) (v : Nat) :
    writeMbx minimal o v x = { x with boot := bootPatch x.boot (o - 0x40) (toLe 4 v) } := by
  unfold writeMbx
  rw [if_pos ⟨hlow, hhigh⟩, h]
  rfl

theorem writeMbx_boot_of_busy (h : (x : Func).bootBusy = true) (hlow : 0x40 ≤ o) (hhigh : o < 0x80) (minimal : Bool) (v : Nat) :
    writeMbx minimal o v x = x := by
  unfold writeMbx
  rw [if_pos ⟨hlow, hhigh⟩, h]
  rfl

/-- R570: the two halves of an 8-byte write make up the value. -/
theorem setHalf_both (old v : Nat) : setHalf true (setHalf false old (v % 2 ^ 32) % 2 ^ 64) (v / 2 ^ 32 % 2 ^ 32) % 2 ^ 64 = v % 2 ^ 64 := by
  simp only [setHalf, if_true, Bool.false_eq_true, if_false]
  omega

theorem writable_modFunc {g : Func → Func} (hflr : (g (s.func f)).inFlr = (s.func f).inFlr)
    (henabled : (g (s.func f)).enabled = (s.func f).enabled) (r : Region) : writable (s.modFunc f g) f r = writable s f r := by
  simp only [writable, func_modFunc_self, hflr, henabled]
  rfl

theorem modFunc_modFunc (s : State) (f : Nat) (g h : Func → Func) : (s.modFunc f g).modFunc f h = s.modFunc f fun x => h (g x) := by
  show { s with funcs := tput (tput s.funcs f (g (s.func f))) f (h ((s.modFunc f g).func f)) } = _
  rw [tput_tput, func_modFunc_self]
  rfl

/-- The request ring's base after a write of 8 bytes (R332). -/
def baseWritten (val : BitVec 512) (x : Func) : Func :=
  if x.enable then x else { x with reqBase := BitVec.ofNat 64 (val.toNat % 2 ^ 64) }

theorem writeMbx_reqBase (minimal : Bool) (val : BitVec 512) (x : Func) :
    writeMbx minimal 4 (wordOf val 1) (writeMbx minimal 0 (wordOf val 0) x) = baseWritten val x := by
  have hzero : ∀ v, writeMbx minimal 0 v x
      = if x.enable then x else { x with reqBase := BitVec.ofNat 64 (setHalf false x.reqBase.toNat v) } := fun _ => rfl
  have hfour : ∀ v y, writeMbx minimal 4 v y
      = if y.enable then y else { y with reqBase := BitVec.ofNat 64 (setHalf true y.reqBase.toNat v) } := fun _ _ => rfl
  rw [hfour, hzero, baseWritten]
  cases henable : x.enable
  · simp only [Bool.false_eq_true, if_false]
    congr 1
    apply BitVec.eq_of_toNat_eq
    have hboth := setHalf_both x.reqBase.toNat val.toNat
    simp only [BitVec.toNat_ofNat, wordOf, Nat.mul_zero, Nat.pow_zero, Nat.div_one, Nat.mul_one] at hboth ⊢
    rw [Nat.mod_mod]
    exact hboth
  · simp [henable]

theorem exec_registerWrite_reqBase (hw : writable s f .mbx = true) (val : BitVec 512) :
    exec (.registerWrite f 0x1000 8 val) s = .next (s.modFunc f (baseWritten val)) := by
  have hmain : s.mainReset = false := by
    simp only [writable, Bool.and_eq_true, Bool.not_eq_true'] at hw
    exact hw.1.1.1.1
  have hlow : regionOf f 0x1000 = some (.mbx, 0) := by by_cases hf : f = 0 <;> simp [regionOf, hf, regions, vfRegions]
  have hhigh : regionOf f 0x1004 = some (.mbx, 4) := by by_cases hf : f = 0 <;> simp [regionOf, hf, regions, vfRegions]
  have hsame : ∀ v x, (writeMbx s.life.minimal 0 v x).inFlr = x.inFlr ∧ (writeMbx s.life.minimal 0 v x).enabled = x.enabled := by
    intro v x
    have hzero : writeMbx s.life.minimal 0 v x
        = if x.enable then x else { x with reqBase := BitVec.ofNat 64 (setHalf false x.reqBase.toNat v) } := rfl
    rw [hzero]
    split <;> exact ⟨rfl, rfl⟩
  have hrange : List.range (8 / 4) = [0, 1] := rfl
  rw [exec_registerWrite, if_pos (by simp [accessOk, hmain]), hrange]
  simp only [List.foldl_cons, List.foldl_nil, Nat.mul_zero, Nat.add_zero, Nat.mul_one]
  rw [regWrite4_mbx hlow, if_pos hw, regWrite4_mbx hhigh,
    writable_modFunc (hsame _ _).1 (hsame _ _).2, if_pos hw, modFunc_modFunc]
  exact congrArg (fun g => Host.Outcome.next (s.modFunc f g)) (funext fun x => writeMbx_reqBase _ val x)

/-- Settles O47. -/
theorem registerWrites : Obligations.RegisterWrites := by
  unfold Obligations.RegisterWrites
  intro s f off width val
  refine ⟨?_, ?_, ?_, ?_, ?_⟩
  case refine_1 =>
    intro h
    rw [exec_registerWrite, if_neg]
    obtain h | h := h <;> simp [h]
  case refine_2 =>
    intro h
    rw [exec_registerWrite, foldl_of_fixed _ fun _ => regWrite4_of_freeze h ..]
    exact congrArg Host.Outcome.next (ite_self s)
  case refine_3 =>
    intro r o hmain halign hregion v
    have hexec := exec_registerWrite_word hmain halign f val
    refine ⟨?_, ?_, ?_, ?_, ?_, ?_, ?_, ?_⟩
    · intro hr
      have hquiet : r ≠ .aperture := by obtain h | h | h | h | h | h | h := hr <;> rw [h] <;> nofun
      rw [hexec, regWrite4_of_region hregion hquiet]
      obtain h | h | h | h | h | h | h := hr <;> subst h <;> exact congrArg Host.Outcome.next (ite_self s)
    · rintro rfl rfl
      rw [hexec, regWrite4_mbx hregion]
      rfl
    · rintro rfl rfl
      have htail : exec (.mbxRspHead f (v % 65536)) s
          = .next (if writable s f .mbx then s.modFunc f fun x => { x with rspHead := v % 65536 % 65536 } else s) := rfl
      rw [hexec, regWrite4_mbx hregion, htail, Nat.mod_mod]
      rfl
    · rintro rfl rfl
      rw [hexec, regWrite4_of_region hregion nofun]
      cases hw : writable s f .evt <;> show _ = Host.Outcome.next (if writable s f .evt = true then _ else s) <;> rw [hw] <;> rfl
    · rintro rfl hindex
      have hbell : exec (.stepQueueDoorbell f (o / 8) (v % 65536)) s
          = .next (if doorbellOk s f (o / 8) then ringDoorbell s f (o / 8) (v % 65536) else s) := rfl
      rw [hexec, regWrite4_of_region hregion nofun, hbell]
      by_cases hok : doorbellOk s f (o / 8) = true
      · simp [doorbellOk_writable hok, hindex, hok, v]
      · simp [hok]
    · rintro rfl hlow hhigh hw - hbusy hboot
      rw [hexec, regWrite4_mbx hregion, if_pos hw]
      have hfits : o - 0x40 + (toLe 4 v).length ≤ 64 := by
        have := bootOffset hregion halign
        rw [length_toLe]
        omega
      have hself : (s.modFunc f (writeMbx s.life.minimal o v)).func f
          = { s.func f with boot := bootPatch (s.func f).boot (o - 0x40) (toLe 4 v) } := by
        rw [func_modFunc_self, writeMbx_boot hbusy hlow hhigh]
      refine ⟨_, rfl, rfl, fun g hg => func_modFunc_ne _ _ hg, ?_, ?_, fun i _ hout => ?_⟩
      · rw [hself]
      · rw [hself]
        have := slice_bootPatch (s.func f).boot (toLe 4 v) hboot hfits
        rwa [length_toLe] at this
      · rw [hself]
        exact getD_bootPatch _ _ hboot hfits (by rwa [length_toLe])
    · rintro rfl hlow hhigh hw hbusy
      rw [hexec, regWrite4_mbx hregion, if_pos hw]
      refine ⟨_, rfl, ?_, fun g hg => func_modFunc_ne _ _ hg⟩
      rw [func_modFunc_self, writeMbx_boot_of_busy hbusy hlow hhigh]
    · rintro rfl rfl rfl hw
      rw [hexec, regWrite4_of_region hregion nofun, hw]
      exact ⟨_, rfl, rfl, rfl, rfl, rfl⟩
  case refine_4 =>
    intro hw henable
    refine ⟨_, exec_registerWrite_reqBase hw val, rfl, ?_, fun g hg => func_modFunc_ne _ _ hg⟩
    rw [func_modFunc_self, baseWritten, if_neg (by simp [henable])]
  case refine_5 =>
    intro hw henable
    refine ⟨_, exec_registerWrite_reqBase hw val, ?_, fun g hg => func_modFunc_ne _ _ hg⟩
    rw [func_modFunc_self, baseWritten, if_pos henable]

end Sys2Proof.Machine

/-! PROOFS. Counters: their selection, their window, their freeze (R543 to R548). -/

namespace Sys2Proof.Machine

open Sys2Proof.Claims

variable {s : State} {m : Msg} {p : Nat}

/-! ### A selection at a boundary -/

/-- A change of clocks writes no field of a partition but the clock it runs at. -/
theorem part_retune (s : State) (k p : Nat) : (retune s k).part p = { s.part p with retuned := ((retune s k).part p).retuned } := by
  have hrails (w : State) (ds : List Nat) : (requestRails w ds).parts = w.parts :=
    forAll_keeps State.parts (fun _ _ => parts_requestRail _ _ _) ds w
  have hpart {w w' : State} (h : w'.parts = w.parts) : w'.part p = w.part p := by rw [State.part, State.part, h]
  unfold retune
  extract_lets x n ok w
  split
  · rw [hpart ((hrails _ _).trans (forAll_keeps State.parts (fun w t => by split <;> rfl) _ w))]
    by_cases hp : p = k
    · subst hp
      rw [part_modPart_self]
    · rw [part_modPart_ne _ _ hp]
  · rw [hpart (hrails s _)]

theorem part_swapWatch (s : State) (k p : Nat) : (swapWatch s k).part p = { s.part p with watch := ((swapWatch s k).part p).watch } := by
  have hset (f : Part → Part) (hf : ∀ x, f x = { x with watch := (f x).watch }) :
      (s.modPart k f).part p = { s.part p with watch := ((s.modPart k f).part p).watch } := by
    by_cases hp : p = k
    · subst hp
      rw [part_modPart_self]
      exact hf _
    · rw [part_modPart_ne _ _ hp]
  have hwrite (w : State) (q o a : Nat) (bs : List Byte) : (objWrite w q o a bs).part p = w.part p := by rw [objWrite, hbmWrite]; rfl
  unfold swapWatch
  split
  · extract_lets cap t
    split
    · exact hset _ fun _ => rfl
    · rw [hwrite]
      exact hset _ fun _ => rfl
  · extract_lets w keep
    split
    · rfl
    · split
      · exact hset _ fun _ => rfl
      · exact hset _ fun _ => rfl

/-- R543: a staged selection is in force after the boundary, every count at zero. -/
theorem counters_swapStaged (s : State) (p : Nat) : ((swapStaged s p).part p).counters = match (s.part p).counters.staged with
    | some l => { sel := l, live := List.replicate l.length 0, run := List.replicate l.length 0,
                  runCtx := (s.part p).counters.runCtx, runSeq := (s.part p).counters.runSeq }
    | none => (s.part p).counters := by
  unfold swapStaged reap
  extract_lets t w x
  rw [part_modPart_self]
  have hx : (x.part p).counters = (t.part p).counters := by
    simp only [x, w, part_modPart_self]
    rw [part_swapWatch t p p]
  refine (congrArg Part.counters (part_retune x p p)).trans (hx.trans ?_)
  simp only [t, part_modPart_self] <;> cases (s.part p).counters.staged <;> rfl

/-! ### The window -/

theorem drop_flatMap {α β : Type} {g : α → List β} (hg : ∀ x, (g x).length = w) (l : List α) (k : Nat) :
    (l.flatMap g).drop (w * k) = (l.drop k).flatMap g := by
  induction l generalizing k with
  | nil => simp
  | cons x l ih =>
    cases k with
    | zero => simp
    | succ k =>
      rw [List.flatMap_cons, List.drop_succ_cons, ← ih k, show w * (k + 1) = (g x).length + w * k by rw [hg]; ring]
      simp [List.drop_append]

theorem take_flatMap {α β : Type} {g : α → List β} (hg : ∀ x, (g x).length = w) (l : List α) (k : Nat) :
    (l.flatMap g).take (w * k) = (l.take k).flatMap g := by
  induction l generalizing k with
  | nil => simp
  | cons x l ih =>
    cases k with
    | zero => simp
    | succ k =>
      rw [List.flatMap_cons, List.take_succ_cons, List.flatMap_cons, ← ih k,
        show w * (k + 1) = (g x).length + w * k by rw [hg]; ring, List.take_append]
      simp

theorem length_windowBytes (s : State) (p : Nat) : (windowBytes s p).length = 384 := by
  simp [windowBytes, List.length_flatMap]

/-- The words of a counter window, the latches of its reader left out. -/
def freshWord (s : State) (p off : Nat) : Nat :=
  windowWord (s.modPart p fun x => { x with counters := { x.counters with hiLatch := [] } }) p off

theorem windowBytes_eq (s : State) (p : Nat) : windowBytes s p = (List.range 96).flatMap fun i => toLe 4 (freshWord s p (4 * i)) := rfl

theorem slice_window_word (s : State) (p : Nat) (hi : i < 96) : slice (windowBytes s p) (4 * i) 4 = toLe 4 (freshWord s p (4 * i)) := by
  have hword : ∀ j : Nat, (toLe 4 (freshWord s p (4 * j))).length = 4 := fun _ => length_toLe ..
  rw [slice_of_le (by rw [length_windowBytes]; omega), windowBytes_eq, drop_flatMap hword]
  refine (take_flatMap hword _ 1).trans ?_
  have hdrop : ((List.range 96).drop i).take 1 = [i] := by
    rw [List.take_one, List.head?_drop]
    simp [hi]
  rw [hdrop, List.flatMap_singleton]

theorem slice_window_pair (s : State) (p : Nat) (hi : i + 1 < 96) :
    slice (windowBytes s p) (4 * i) 8 = toLe 4 (freshWord s p (4 * i)) ++ toLe 4 (freshWord s p (4 * (i + 1))) := by
  have hword : ∀ j : Nat, (toLe 4 (freshWord s p (4 * j))).length = 4 := fun _ => length_toLe ..
  rw [slice_of_le (by rw [length_windowBytes]; omega), windowBytes_eq, drop_flatMap hword]
  refine (take_flatMap hword _ 2).trans ?_
  have hdrop : ((List.range 96).drop i).take 2 = [i, i + 1] := by
    rw [List.drop_eq_getElem_cons (by simp; omega), List.drop_eq_getElem_cons (by simp; omega)]
    simp
  rw [hdrop]
  simp

theorem toLe_halves (v : Nat) : toLe 8 v = toLe 4 (v % 2 ^ 32) ++ toLe 4 (v / 2 ^ 32 % 2 ^ 32) := by
  simp only [toLe, List.cons_append, List.nil_append, List.cons.injEq, and_true]
  refine ⟨?_, ?_, ?_, ?_, ?_, ?_, ?_, ?_⟩ <;> apply BitVec.eq_of_toNat_eq <;> simp only [BitVec.toNat_ofNat] <;> omega

theorem slice_window_value {v : Nat} (hi : i + 1 < 96) (hlow : freshWord s p (4 * i) = v % 2 ^ 32)
    (hhigh : freshWord s p (4 * (i + 1)) = v / 2 ^ 32 % 2 ^ 32) : slice (windowBytes s p) (4 * i) 8 = toLe 8 v := by
  rw [slice_window_pair s p hi, hlow, hhigh, toLe_halves]

theorem freshWord_head (s : State) (p : Nat) :
    freshWord s p 4 = (s.part p).counters.doneCtx ∧ freshWord s p 8 = (s.part p).counters.doneSeq := by
  simp [freshWord, windowWord]

theorem freshWord_sel (s : State) (p : Nat) (hi : i < 16) :
    freshWord s p (0x10 + 4 * i) = nth (s.part p).counters.sel i 0 := by
  have hindex : (0x10 + 4 * i - 0x10) / 4 = i := by omega
  rw [freshWord, windowWord, part_modPart_self, hindex, if_neg (by omega), if_neg (by omega), if_neg (by omega), if_pos (by omega)]

theorem beq_four_of_zero {n : Nat} (h : n % 8 = 0) : (n % 8 == 4) = false := by rw [h]; rfl

theorem beq_four_of_four {n : Nat} (h : n % 8 = 4) : (n % 8 == 4) = true := by rw [h]; rfl

theorem freshWord_live (s : State) (p : Nat) (hi : i < 16) :
    freshWord s p (0x80 + 8 * i) = nth (s.part p).counters.live i 0 % 2 ^ 32
      ∧ freshWord s p (0x80 + 8 * i + 4) = nth (s.part p).counters.live i 0 / 2 ^ 32 % 2 ^ 32 := by
  have hlow : (0x80 + 8 * i - 0x80) / 8 = i := by omega
  have hhigh : (0x80 + 8 * i + 4 - 0x80) / 8 = i := by omega
  refine ⟨?_, ?_⟩ <;>
    rw [freshWord, windowWord, part_modPart_self, if_neg (by omega), if_neg (by omega), if_neg (by omega), if_neg (by omega),
      if_pos (by omega)]
  · rw [hlow, beq_four_of_zero (by omega)]
    rfl
  · rw [hhigh, beq_four_of_four (by omega)]
    rfl

theorem freshWord_done (s : State) (p : Nat) (hi : i < 16) :
    freshWord s p (0x100 + 8 * i) = nth (s.part p).counters.done i 0 % 2 ^ 32
      ∧ freshWord s p (0x100 + 8 * i + 4) = nth (s.part p).counters.done i 0 / 2 ^ 32 % 2 ^ 32 := by
  have hlow : (0x100 + 8 * i - 0x100) / 8 = i := by omega
  have hhigh : (0x100 + 8 * i + 4 - 0x100) / 8 = i := by
    rw [Nat.add_assoc, Nat.add_sub_cancel_left]
    omega
  refine ⟨?_, ?_⟩ <;>
    rw [freshWord, windowWord, part_modPart_self, if_neg (by omega), if_neg (by omega), if_neg (by omega), if_neg (by omega),
      if_neg (by omega), if_pos (by omega)]
  · rw [hlow, beq_four_of_zero (by omega)]
    rfl
  · rw [hhigh, beq_four_of_four (by omega)]
    rfl

/-! ### Selection, freeze and latches -/

theorem counterSelect_stages (h : Passes s (ownSpec s m 0x0801 4 true) m) {codes : List Nat}
    (hcodes : (slice (extIn m) 8 (fld m.ext 0 1)).map (·.toNat) = codes) (hn : fld m.ext 0 1 ≤ 16)
    (hfits : 8 + fld m.ext 0 1 ≤ m.extBytes) (hzero : zeroRange m.ext 1 7 = true) (hrange : ∀ c ∈ codes, 1 ≤ c ∧ c ≤ 0x12)
    (hnodup : codes.Nodup) : exec (.counterSelect m) s = .next (applyAns (take s m) m (.done (staged ((take s m).modPart (namedPart m)
      fun x => { x with counters := { x.counters with staged := some codes } }) (namedPart m)))) := by
  have hexec : execCounterSelect m s = _ := mbx_of_passes h rfl
  have hall : ∀ c ∈ codes, ¬ c = 0 ∧ c ≤ 0x12 := fun c hc => by
    have := hrange c hc
    omega
  have hlong : ¬ m.extBytes < 8 := by omega
  have hshort : ¬ m.extBytes < 8 + fld m.ext 0 1 := by omega
  rw [if_neg (by simpa [hcodes, hzero, hnodup, hn, hlong, hshort] using hall), hcodes] at hexec
  exact hexec

theorem counterSelect_refuses (h : Passes s (ownSpec s m 0x0801 4 true) m) {codes : List Nat}
    (hcodes : (slice (extIn m) 8 (fld m.ext 0 1)).map (·.toNat) = codes)
    (hbad : 16 < fld m.ext 0 1 ∨ m.extBytes < 8 + fld m.ext 0 1 ∨ ¬ codes.Nodup ∨ ∃ c ∈ codes, c = 0 ∨ 0x12 < c) :
    exec (.counterSelect m) s = .next (applyAns (take s m) m (.refuse 0x0903)) := by
  have hexec : execCounterSelect m s = _ := mbx_of_passes h rfl
  rw [if_pos (by
    rw [hcodes]
    obtain h | h | h | ⟨c, hc, h⟩ := hbad
    · exact .inr (.inl h)
    · exact .inr (.inr (.inl h))
    · exact .inr (.inr (.inr (.inr (.inr (by simp [h])))))
    · exact .inr (.inr (.inr (.inr (.inl (List.any_eq_true.2 ⟨c, hc, by simpa using h⟩))))))] at hexec
  exact hexec

theorem part_holdCounts (h : s.pmc.armed = true) (hnow : s.pmc.tf ≤ time s) {x : Part} (hx : tfind s.parts p = some x) :
    (holdCounts s).part p = { x with counters := { x.counters with frozenIn := true } } := by
  rw [holdCounts, if_pos (by simp [h, hnow])]
  simp only [State.part, tget, tfind_tmap, hx, Option.map_some, Option.getD_some]

theorem live_holdCounts (s : State) (p : Nat) : ((holdCounts s).part p).counters.live = (s.part p).counters.live := by
  unfold holdCounts
  split
  · simp only [State.part, tget, tfind_tmap]
    cases tfind s.parts p <;> rfl
  · rfl

theorem pmc_holdCounts (s : State) : (holdCounts s).pmc.byMessage = s.pmc.byMessage ∧ (holdCounts s).pmc.byStop = s.pmc.byStop := by
  unfold holdCounts
  split <;> exact ⟨rfl, rfl⟩

theorem holdCounts_funcs (s : State) : (holdCounts s).funcs = s.funcs := by
  unfold holdCounts
  split <;> rfl

/-- R546: COUNTER_FREEZE gives up its hold of the counts. -/
theorem freeCounts_message (s : State) : let t := freeCounts s fun p => { p with byMessage := false }
    t.pmc.byMessage = false ∧ t.pmc.byStop = s.pmc.byStop ∧ (s.pmc.byStop = false → t.pmc.armed = false ∧ t.pmc.held = false)
      ∧ (∀ p, (t.part p).counters.live = (s.part p).counters.live) ∧ t.funcs = s.funcs := by
  have hfuncs := holdCounts_funcs s
  have hlive := live_holdCounts s
  obtain ⟨-, hstop⟩ := pmc_holdCounts s
  rw [← hfuncs, ← hstop]
  simp only [← hlive]
  unfold freeCounts
  generalize holdCounts s = w
  cases h : w.pmc.byStop <;> simp [h, State.part]

theorem pmcOffset (h : regionOf f off = some (.pmc, o)) : off - 0x30000 = o := by
  obtain ⟨e, he, heq⟩ := Option.map_eq_some_iff.1 h
  have hmem := List.mem_of_find?_eq_some he
  have hregion : e.1 = .pmc := congrArg Prod.fst heq
  have hbase : ∀ l : List (Region × Nat × Nat), (∀ e ∈ l, e.1 = .pmc → e.2.1 = 0x30000) → e ∈ l → off - 0x30000 = o := by
    intro l hl hel
    rw [← hl e hel hregion]
    exact congrArg Prod.snd heq
  exact hbase _ (by split <;> decide) hmem

/-- Settles O48. -/
theorem counters : Obligations.Counters := by
  unfold Obligations.Counters
  refine ⟨fun s m h => ?_, fun s m h => ?_, ?_, ?_, ?_⟩
  · intro p n codes
    refine ⟨fun hn hfits hzero hrange hnodup => ?_, fun hbad => ⟨_, counterSelect_refuses h rfl hbad, replies_refuse s m _⟩⟩
    have hexec := counterSelect_stages h rfl hn hfits hzero hrange hnodup
    have hpart : ((take s m).modPart (namedPart m) fun x => { x with counters := { x.counters with staged := some codes } }).part p
        = { s.part p with counters := { (s.part p).counters with staged := some codes } } := part_modPart_self _ _ _
    have hold : ((take s m).modPart (namedPart m) fun x => { x with counters := { x.counters with staged := some codes } }).funcs
        = (take s m).funcs := rfl
    have hsteps : ((take s m).modPart (namedPart m) fun x => { x with counters := { x.counters with staged := some codes } }).steps
        = s.steps := rfl
    change exec (.counterSelect m) s = .next (applyAns (take s m) m (.done (staged ((take s m).modPart (namedPart m)
      fun x => { x with counters := { x.counters with staged := some codes } }) p))) at hexec
    generalize (take s m).modPart (namedPart m) (fun x => { x with counters := { x.counters with staged := some codes } }) = w at *
    obtain ⟨-, hsame, hfuncs⟩ := staged_rest w p
    obtain ⟨fs, hans, hanswered, -⟩ := answered_done (s := s) (m := m) (hfuncs.trans hold)
    rw [hans] at hexec
    have hboundary : atBoundary w p = true ↔ (s.part p).running = none := by rw [atBoundary, hpart, beq_iff_eq]
    refine ⟨_, hexec, hanswered, hsame.trans hsteps, fun hrun => ?_, fun hrun => ?_⟩
    · show ((staged w p).part p).counters = _
      rw [staged, if_neg (mt hboundary.1 hrun), part_retune, hpart]
    · show ((staged w p).part p).counters.sel = _ ∧ ((staged w p).part p).counters.staged = _ ∧ ((staged w p).part p).counters.live = _
        ∧ ((staged w p).part p).counters.run = _
      rw [staged, if_pos (hboundary.2 hrun), counters_swapStaged, hpart]
      exact ⟨rfl, rfl, rfl, rfl⟩
  · intro x
    have hexec : execCounterRead m s = _ := mbx_of_passes h rfl
    refine ⟨fun hfits => ?_, fun hshort => ?_⟩
    · rw [if_neg (by omega)] at hexec
      refine ⟨_, windowBytes (take s m) (namedPart m), hexec, replies_answerWith s m .., length_windowBytes .., ?_, fun i hi => ⟨?_, ?_, ?_⟩⟩
      · obtain ⟨hctx, hseq⟩ := freshWord_head (take s m) (namedPart m)
        exact (slice_window_pair _ _ (i := 1) (by omega)).trans (by rw [hctx, hseq]; rfl)
      · have hword := slice_window_word (take s m) (namedPart m) (i := 4 + i) (by omega)
        rw [show 4 * (4 + i) = 0x10 + 4 * i by ring, freshWord_sel _ _ hi] at hword
        exact hword
      · obtain ⟨hlow, hhigh⟩ := freshWord_live (take s m) (namedPart m) hi
        have hword := slice_window_value (s := take s m) (p := namedPart m) (i := 32 + 2 * i) (by omega)
          (by rw [show 4 * (32 + 2 * i) = 0x80 + 8 * i by ring, hlow]) (by rw [show 4 * (32 + 2 * i + 1) = 0x80 + 8 * i + 4 by ring, hhigh])
        rw [show 4 * (32 + 2 * i) = 0x80 + 8 * i by ring] at hword
        exact hword
      · obtain ⟨hlow, hhigh⟩ := freshWord_done (take s m) (namedPart m) hi
        have hword := slice_window_value (s := take s m) (p := namedPart m) (i := 64 + 2 * i) (by omega)
          (by rw [show 4 * (64 + 2 * i) = 0x100 + 8 * i by ring, hlow]) (by rw [show 4 * (64 + 2 * i + 1) = 0x100 + 8 * i + 4 by ring, hhigh])
        rw [show 4 * (64 + 2 * i) = 0x100 + 8 * i by ring] at hword
        exact hword
    · rw [if_pos hshort] at hexec
      exact ⟨_, hexec, replies_refuse s m _⟩
  · intro s m b h
    have hexec : execCounterFreeze m s = _ := mbx_of_passes h rfl
    refine ⟨fun hone => ?_, fun hone => ?_⟩
    · rw [if_pos hone] at hexec
      dsimp only at hexec
      have htraces := forAll_traces (fun t p => traceTrigger_traces t p) ((take s m).parts.map (·.1))
        { take s m with pmc := { (take s m).pmc with byMessage := true, tf := 200 + time (take s m), armed := true, held := frozen (take s m) } }
      generalize forAll ((take s m).parts.map (·.1)) traceTrigger _ = w at *
      have hrest := htraces.rest
      obtain ⟨fs, hans, hanswered, -⟩ := answered_detail (s := s) (m := m) (t := w) (by rw [hrest]) (200 + time s)
      have htime : time (take s m) = time s := rfl
      rw [htime, hans] at hexec
      refine ⟨_, hexec, hanswered, ?_, ?_⟩
      · show w.pmc = _
        rw [hrest]
        rfl
      · show w.steps = _
        rw [hrest]
        rfl
    · rw [if_neg hone] at hexec
      obtain ⟨hmessage, hstop, hfree, hlive, hfuncs⟩ := freeCounts_message (take s m)
      obtain ⟨fs, hans, hanswered, -⟩ := answered_done (s := s) (m := m) hfuncs
      rw [hans] at hexec
      exact ⟨_, hexec, hanswered, hmessage, hstop, hfree, hlive⟩
  · intro s now hmain harmed hnow
    have hexec : execFreezeTick now s = _ := timed_of s (by simp [up, hmain, harmed, hnow])
    have harmed' : (advance s now).pmc.armed = true := by simpa using harmed
    have hnow' : (advance s now).pmc.tf ≤ time (advance s now) := by simpa using hnow
    refine ⟨_, hexec, ?_, fun p x hx => part_holdCounts harmed' hnow' (by simpa using hx)⟩
    rw [holdCounts, if_pos (by simp [harmed, hnow]), advance_eq]
  · intro s f off o w v q henabled hregion hlow
    have ho : off - 0x30000 = o := pmcOffset hregion
    have hexec : execPmcLowHalfRead f off s = _ := untimed_of s (by simp [henabled, hregion, hlow])
    simp only [ho, hlow] at hexec
    refine ⟨fun hnone => ?_, fun hforced => ?_⟩
    · simp only [readEffect, hnone] at hexec
      refine ⟨_, hexec, ?_, ?_, ?_⟩
      · cases q <;> rfl
      · rintro p rfl
        exact ⟨by simp, rfl⟩
      · rintro rfl
        exact ⟨tget_tput_self .., rfl⟩
    · simp only [readEffect, hforced] at hexec
      exact hexec

end Sys2Proof.Machine

/-! PROOFS. Traces, watches and the hang report (R549 to R551, R559, R563, R564). -/

namespace Sys2Proof.Machine

open Sys2Proof.Claims

variable {s : State} {m : Msg} {p : Nat}

/-! ### Bytes just written -/

theorem mreadN_mwriteN_take {m : Mem} (a : Nat) {l : List Byte} (hwf : memWf m = true) (hn : n ≤ l.length) :
    mreadN (mwriteN m a l) a n = l.take n := by
  apply List.ext_getElem
  · rw [length_mreadN, List.length_take]
    omega
  · intro k hk hk'
    rw [length_mreadN] at hk
    have hget := nth_mreadN (mwriteN m a l) a n k
    rw [if_pos hk, mread_mwriteN a (a + k) l hwf, if_pos (by omega), Nat.add_sub_cancel_left, nth, nth,
      List.getD_eq_getElem _ _ (by rw [length_mreadN]; exact hk), List.getD_eq_getElem _ _ (by omega)] at hget
    rw [hget, List.getElem_take]

theorem hbmRead_objWrite (s : State) (p i : Nat) {l : List Byte} (hwf : memWf s.hbm = true) (hn : n ≤ l.length) :
    hbmRead (objWrite s p i 0 l) p (memObj s p i).base n = l.take n := mreadN_mwriteN_take _ hwf hn

theorem objWrite_rest (s : State) (p i off : Nat) (l : List Byte) : (objWrite s p i off l).steps = s.steps
    ∧ (objWrite s p i off l).funcs = s.funcs
    ∧ (objWrite s p i off l).hbm = mwriteN s.hbm (hbmAddr p ((memObj s p i).base + off)) l := ⟨rfl, rfl, rfl⟩

theorem memObj_objWrite (s : State) (p i off : Nat) (l : List Byte) (j : Nat) : memObj (objWrite s p i off l) p j = memObj s p j := by
  rw [memObj, part_objWrite, memObj]

/-! ### Objects that leave -/

/-- R287: of an object that leaves and that nothing names any more the generation is left. -/
theorem memObj_reap (s : State) (p i : Nat) : memObj (reap s p) p i
    = if (memObj s p i).live && (memObj s p i).freeing && !objHeld s p i then { gen := ((memObj s p i).gen + 1) % 256 } else memObj s p i := by
  rw [memObj, reap, part_modPart_self, memObj, tget, tfind_tmap, tget]
  cases tfind (s.part p).objs i with
  | none => rfl
  | some o => rfl

theorem memObj_reap_of_kept (h : (memObj s p i).freeing = false) : memObj (reap s p) p i = memObj s p i := by
  rw [memObj_reap, h, Bool.and_false, Bool.false_and]
  rfl

theorem memObj_congr {s t : State} (h : (t.part p).objs = (s.part p).objs) (i : Nat) : memObj t p i = memObj s p i := by
  rw [memObj, memObj, h]

/-- What a current handle names (R287). -/
theorem objOf_some {h : Nat} (hobj : objOf s p h = some i) : i = h % 65536 ∧ (memObj s p i).live = true ∧ (memObj s p i).freeing = false
    ∧ h / 2 ^ 24 = 0 := by
  unfold objOf at hobj
  split at hobj
  · next o ho =>
    split at hobj
    · next hok =>
      obtain ⟨hsmall, hlive, -, hkept⟩ := hok
      obtain rfl := Option.some.inj hobj
      have hmem : memObj s p (h % 65536) = o := by rw [memObj, tget, ho]; rfl
      rw [hmem]
      exact ⟨rfl, hlive, by simpa using hkept, hsmall⟩
    · exact absurd hobj nofun
  · exact absurd hobj nofun

/-! ### A trace -/

theorem traceOff_off (s : State) (p : Nat) : ((traceOff s p).part p).trace.on = false := by
  unfold traceOff
  extract_lets i
  split
  · rw [part_modPart_self]
  · next h => simpa using h

/-- A trace that ends writes no object but its own, and of that the reference alone. -/
theorem memObj_traceOff (s : State) (p i : Nat) :
    memObj (traceOff s p) p i = { memObj s p i with traceRef := (memObj (traceOff s p) p i).traceRef } := by
  unfold traceOff
  extract_lets j
  split
  · rw [memObj, part_modPart_self]
    by_cases hi : i = j
    · subst hi
      rw [tget_tput_self]
      rfl
    · rw [tget_tput_ne _ _ _ hi]
      rfl
  · rfl

theorem traceOff_rest (s : State) (p : Nat) : (traceOff s p).hbm = s.hbm ∧ (traceOff s p).steps = s.steps
    ∧ (traceOff s p).funcs = s.funcs := by
  unfold traceOff
  extract_lets i
  split <;> exact ⟨rfl, rfl, rfl⟩

theorem reap_rest (s : State) (p : Nat) : (reap s p).hbm = s.hbm ∧ (reap s p).steps = s.steps ∧ (reap s p).funcs = s.funcs
    ∧ ((reap s p).part p).trace = (s.part p).trace := ⟨rfl, rfl, rfl, by rw [reap, part_modPart_self]⟩

/-- R549: a trace starts in its ring object. -/
def traceStarted (s : State) (p i : Nat) (t : Trace) : State :=
  reap (traceSync (s.modPart p fun x => { x with trace := t, objs := tput x.objs i { memObj s p i with traceRef := true } }) p) p

theorem length_traceHeader (t : Trace) : (traceHeader t).length = 64 := by
  simp [traceHeader]

theorem traceStarted_spec {t : Trace} (hindex : t.obj % 65536 = i) (hkept : (memObj s p i).freeing = false) :
    ((traceStarted s p i t).part p).trace = t ∧ (memObj (traceStarted s p i t) p i).traceRef = true
      ∧ (traceStarted s p i t).hbm = mwriteN s.hbm (hbmAddr p (memObj s p i).base) (traceHeader t)
      ∧ (traceStarted s p i t).steps = s.steps ∧ (traceStarted s p i t).funcs = s.funcs := by
  unfold traceStarted
  generalize hv : (s.modPart p fun x => { x with trace := t, objs := tput x.objs i { memObj s p i with traceRef := true } }) = v
  have hpart : v.part p = { s.part p with trace := t, objs := tput (s.part p).objs i { memObj s p i with traceRef := true } } := by
    rw [← hv, part_modPart_self]
  have hobj : memObj v p i = { memObj s p i with traceRef := true } := by rw [memObj, hpart, tget_tput_self]
  have hrest : v.hbm = s.hbm ∧ v.steps = s.steps ∧ v.funcs = s.funcs := by
    rw [← hv]
    exact ⟨rfl, rfl, rfl⟩
  have hsync : traceSync v p = objWrite v p i 0 (traceHeader t) := by rw [traceSync, hpart, hindex]
  have hwritten := memObj_objWrite v p i 0 (traceHeader t) i
  obtain ⟨hhbm, hsteps, hfuncs, htrace⟩ := reap_rest (objWrite v p i 0 (traceHeader t)) p
  obtain ⟨hwsteps, hwfuncs, hwhbm⟩ := objWrite_rest v p i 0 (traceHeader t)
  rw [hsync]
  refine ⟨by rw [htrace, part_objWrite, hpart], ?_, ?_, by rw [hsteps, hwsteps, hrest.2.1], by rw [hfuncs, hwfuncs, hrest.2.2]⟩
  · rw [memObj_reap_of_kept (by rw [hwritten, hobj]; exact hkept), hwritten, hobj]
  · rw [hhbm, hwhbm, hobj, hrest.1, Nat.add_zero]

/-- R549: what a trace's configuration does. -/
theorem traceSet_spec {h : Nat} (hobj : objOf s p h = some i) (mode share : Nat) :
    let c := (min (memObj s p i).bytes (2 ^ 28) - 64) / 32
    let t := traceStarted (traceOff s p) p i
      { on := true, mode, share, obj := h, capacity := (min (memObj (traceOff s p) p i).bytes (2 ^ 28) - 64) / 32 }
    (t.part p).trace = { on := true, mode, share, obj := h, capacity := c } ∧ (memObj t p i).traceRef = true
      ∧ (memWf s.hbm = true → hbmRead t p (memObj s p i).base 16 = toLe 8 0 ++ toLe 8 c)
      ∧ (∀ a, (∀ k, k < 64 → a ≠ hbmAddr p ((memObj s p i).base + k)) → mread t.hbm a = mread s.hbm a) ∧ t.steps = s.steps
      ∧ t.funcs = s.funcs := by
  obtain ⟨hindex, -, hkept, -⟩ := objOf_some hobj
  obtain ⟨hhbm, hsteps, hfuncs⟩ := traceOff_rest s p
  have hold := memObj_traceOff s p i
  have hbytes : (memObj (traceOff s p) p i).bytes = (memObj s p i).bytes := by rw [hold]
  have hbase : (memObj (traceOff s p) p i).base = (memObj s p i).base := by rw [hold]
  have hfree : (memObj (traceOff s p) p i).freeing = false := by rw [hold]; exact hkept
  intro c t
  have hspec := traceStarted_spec (t := { on := true, mode, share, obj := h, capacity := c }) hindex.symm hfree
  have ht : t = traceStarted (traceOff s p) p i { on := true, mode, share, obj := h, capacity := c } := by simp only [t, hbytes, c]
  rw [ht]
  generalize traceStarted (traceOff s p) p i { on := true, mode, share, obj := h, capacity := c } = u at hspec ⊢
  rw [hhbm, hbase, hsteps, hfuncs] at hspec
  obtain ⟨htrace, href, hmem, hs, hf⟩ := hspec
  refine ⟨htrace, href, fun hwf => ?_, fun a ha => ?_, hs, hf⟩
  · rw [hbmRead, hmem, mreadN_mwriteN_take _ hwf (by rw [length_traceHeader]; omega)]
    rfl
  · rw [hmem]
    refine mread_mwriteN_outside _ ?_
    rw [length_traceHeader]
    by_contra hin
    refine ha (a - hbmAddr p (memObj s p i).base) (by omega) ?_
    simp only [hbmAddr] at hin ⊢
    omega

/-! ### A watch -/

theorem hbm_retune (s : State) (p : Nat) : (retune s p).hbm = s.hbm := by
  have hrails (w : State) (ds : List Nat) : (requestRails w ds).hbm = w.hbm :=
    forAll_keeps State.hbm (fun w d => by rw [requestRail_shape]) ds w
  unfold retune
  extract_lets x n ok w
  split
  · exact (hrails _ _).trans (forAll_keeps State.hbm (fun w t => by split <;> rfl) _ w)
  · exact hrails s _

/-- R563: the watch that takes effect, its object's header written. -/
theorem swapWatch_staged (hstaged : (s.part p).watch.staged = some (o, sels)) (hobj : o ≠ 0xFFFFFFFF) :
    ((swapWatch s p).part p).watch = { obj := o, sels, capacity := ((memObj s p (o % 65536)).bytes - 64) / 64, written := 0, staged := none }
      ∧ (swapWatch s p).hbm = mwriteN s.hbm (hbmAddr p (memObj s p (o % 65536)).base)
          (toLe 8 0 ++ toLe 8 (((memObj s p (o % 65536)).bytes - 64) / 64) ++ List.replicate 48 0) := by
  simp only [swapWatch, hstaged, if_neg hobj]
  generalize hw : (s.modPart p fun x => { x with watch :=
    { obj := o, sels, capacity := ((memObj s p (o % 65536)).bytes - 64) / 64, written := 0, staged := none } }) = w
  have hpart : w.part p = { s.part p with watch :=
      { obj := o, sels, capacity := ((memObj s p (o % 65536)).bytes - 64) / 64, written := 0, staged := none } } := by
    rw [← hw, part_modPart_self]
  have hmem : memObj w p (o % 65536) = memObj s p (o % 65536) := memObj_congr (by rw [hpart]) _
  have hhbm : w.hbm = s.hbm := by rw [← hw]; rfl
  rw [part_objWrite, (objWrite_rest w p _ _ _).2.2, hpart, hmem, hhbm, Nat.add_zero]
  exact ⟨rfl, rfl⟩

theorem swapStaged_watch (hstaged : (s.part p).watch.staged = some (o, sels)) (hobj : o ≠ 0xFFFFFFFF) :
    ((swapStaged s p).part p).watch
        = { obj := o, sels, capacity := ((memObj s p (o % 65536)).bytes - 64) / 64, written := 0, staged := none }
      ∧ (swapStaged s p).hbm = mwriteN s.hbm (hbmAddr p (memObj s p (o % 65536)).base)
          (toLe 8 0 ++ toLe 8 (((memObj s p (o % 65536)).bytes - 64) / 64) ++ List.replicate 48 0) := by
  unfold swapStaged
  extract_lets t w x
  have hpart : (t.part p).watch = (s.part p).watch ∧ (t.part p).objs = (s.part p).objs := by
    simp only [t, part_modPart_self, and_self]
  have hmem := memObj_congr hpart.2 (o % 65536)
  obtain ⟨hwatch, hhbm⟩ := swapWatch_staged (s := t) (by rw [hpart.1, hstaged]) hobj
  rw [hmem] at hwatch hhbm
  have hx : (x.part p).watch = (w.part p).watch := by rw [part_modPart_self]
  refine ⟨?_, ?_⟩
  · rw [reap, part_modPart_self, part_retune]
    exact hx.trans hwatch
  · exact (hbm_retune x p).trans hhbm

/-! ### The messages -/

theorem exec_traceConfig (h : Passes s (ownSpec s m 0x0804 10 (decide (fld m.payload 8 1 ≤ 2 ∧ fld m.payload 9 1 ≤ 15))) m) :
    exec (.traceConfig m) s = .next (applyAns (take s m) m (
      if !s.grants.trace.contains (namedPart m) then .refuse 0x0906
      else if fld m.payload 4 4 = 0xFFFFFFFF then .done (reap (traceOff (take s m) (namedPart m)) (namedPart m))
      else match objOf s (namedPart m) (fld m.payload 4 4) with
        | none => .refuse 0x0741
        | some i => .done (traceStarted (traceOff (take s m) (namedPart m)) (namedPart m) i
          { on := true, mode := fld m.payload 8 1, share := fld m.payload 9 1, obj := fld m.payload 4 4
            capacity := (min (memObj (traceOff (take s m) (namedPart m)) (namedPart m) i).bytes (2 ^ 28) - 64) / 32 }))) := by
  have hexec : execTraceConfig m s = _ := mbx_of_passes h rfl
  refine hexec.trans ?_
  have hobj : objOf (take s m) (namedPart m) (fld m.payload 4 4) = objOf s (namedPart m) (fld m.payload 4 4) := rfl
  dsimp only
  rw [hobj]
  cases objOf s (namedPart m) (fld m.payload 4 4) <;> rfl

theorem exec_watchSelect (h : Passes s (ownSpec s m 0x0805 4 true) m) (hfits : 8 + 8 * fld (extIn m) 4 1 ≤ m.extBytes)
    (hn : fld (extIn m) 4 1 ≤ 16) (hzero : zeroRange (extIn m) 5 3 = true)
    (hflags : ∀ i, i < fld (extIn m) 4 1 → fld (extIn m) (14 + 8 * i) 1 ≤ 1 ∧ fld (extIn m) (15 + 8 * i) 1 ≤ 1) :
    exec (.watchSelect m) s = .next (applyAns (take s m) m (
      match (watchSels (extIn m) (fld (extIn m) 4 1)).find? fun w => watchSelStatus s (namedPart m) w != 0 with
      | some w => .refuse (watchSelStatus s (namedPart m) w)
      | none =>
        let small : Bool := match objOf s (namedPart m) (fld (extIn m) 0 4) with
          | some i => decide ((memObj s (namedPart m) i).bytes < 128)
          | none => true
        if (fld (extIn m) 4 1 ≠ 0 ∨ fld (extIn m) 0 4 ≠ 0xFFFFFFFF) ∧ small then .refuse 0x0741
        else .done (staged ((take s m).modPart (namedPart m) fun x =>
          { x with watch := { x.watch with staged := some (fld (extIn m) 0 4, watchSels (extIn m) (fld (extIn m) 4 1)) } }) (namedPart m)))) := by
  have hexec : execWatchSelect m s = _ := mbx_of_passes h rfl
  refine hexec.trans ?_
  have hall : ∀ x < fld (extIn m) 4 1, fld (extIn m) (14 + 8 * x) 1 ≤ 1 ∧ fld (extIn m) (15 + 8 * x) 1 ≤ 1 := hflags
  have height : ¬ m.extBytes < 8 := by omega
  have hshort : ¬ m.extBytes < 8 + 8 * fld (extIn m) 4 1 := by omega
  rw [if_neg (by simpa [hn, height, hshort, hzero] using hall)]
  rfl

/-! ### The hang report -/

theorem length_nodeBytes (n : HangNode) : (nodeBytes n).length = 16 := by simp [nodeBytes]

/-- The nodes and edges that a report of a graph holds. -/
def hangCuts (g : HangGraph) (room : Nat) : List HangNode × List (Nat × Nat) :=
  let nodes := g.nodes.take ((room - 32) / 16)
  (nodes, g.edges.take ((room - 32 - 16 * nodes.length) / 4))

theorem length_hangBytes (g : HangGraph) (room : Nat) :
    (hangBytes g room).length = 32 + 16 * (hangCuts g room).1.length + 4 * (hangCuts g room).2.length := by
  simp [hangBytes, hangCuts, List.length_flatMap, length_nodeBytes]
  omega

theorem fld_append_mid {a b c : List Byte} (ha : a.length = off) (hb : b.length = n) : fld (a ++ (b ++ c)) off n = leNat b := by
  rw [fld, List.drop_left' ha, List.take_left' hb]

theorem slice_append_left {a b : List Byte} (ha : a.length = n) : slice (a ++ b) 0 n = a := by
  rw [slice_of_le (by rw [List.length_append]; omega), List.drop_zero, List.take_left' ha]

/-- The flag of a graph that did not fit. -/
def hangFlag (g : HangGraph) (room : Nat) : Nat :=
  if (hangCuts g room).1.length < g.nodes.length ∨ (hangCuts g room).2.length < g.edges.length then 1 else 0

/-- The header of a report, its flag, and its entries (Table Observation-7). -/
theorem hangBytes_eq (g : HangGraph) (room : Nat) : hangBytes g room
      = toLe 8 g.built ++ toLe 8 g.idleSince ++ (toLe 4 (hangCuts g room).1.length ++ (toLe 4 (hangCuts g room).2.length
        ++ (toLe 1 (hangFlag g room) ++ (List.replicate 7 0 ++ ((hangCuts g room).1.flatMap nodeBytes
          ++ (hangCuts g room).2.flatMap fun e => toLe 2 e.1 ++ toLe 2 e.2))))) := by
  simp only [hangBytes, hangCuts, hangFlag, List.append_assoc, decide_eq_true_eq]
  rfl

theorem hangBytes_head (g : HangGraph) (room : Nat) : slice (hangBytes g room) 0 16 = toLe 8 g.built ++ toLe 8 g.idleSince := by
  rw [hangBytes_eq]
  exact slice_append_left (by simp)

theorem length_hangBytes_le (g : HangGraph) (hroom : 32 ≤ room) : (hangBytes g room).length ≤ room := by
  have hnodes : (hangCuts g room).1.length ≤ (room - 32) / 16 := List.length_take_le ..
  have hedges : (hangCuts g room).2.length ≤ (room - 32 - 16 * (hangCuts g room).1.length) / 4 := List.length_take_le ..
  rw [length_hangBytes]
  omega

/-- R564: a graph that fits is there as a whole. -/
theorem hangBytes_whole (g : HangGraph) (hnodes : g.nodes.length < 2 ^ 32) (hedges : g.edges.length < 2 ^ 32)
    (hfits : 32 + 16 * g.nodes.length + 4 * g.edges.length ≤ room) :
    fld (hangBytes g room) 16 4 = g.nodes.length ∧ fld (hangBytes g room) 20 4 = g.edges.length ∧ fld (hangBytes g room) 24 1 = 0
      ∧ (hangBytes g room).length = 32 + 16 * g.nodes.length + 4 * g.edges.length := by
  have hall : (hangCuts g room).1.length = g.nodes.length := by
    simp only [hangCuts, List.length_take]
    omega
  have hall' : (hangCuts g room).2.length = g.edges.length := by
    have hcut : (hangCuts g room).2 = g.edges.take ((room - 32 - 16 * (hangCuts g room).1.length) / 4) := rfl
    rw [hcut, hall, List.length_take]
    omega
  have hflag : hangFlag g room = 0 := by rw [hangFlag, hall, hall', if_neg (by omega)]
  have heq := hangBytes_eq g room
  rw [hall, hall', hflag] at heq
  have hbytes : (256 : Nat) ^ 4 = 2 ^ 32 := by norm_num
  refine ⟨?_, ?_, ?_, by rw [length_hangBytes, hall, hall']⟩
  · rw [heq, fld_append_mid (by simp) (length_toLe ..), leNat_toLe, hbytes, Nat.mod_eq_of_lt hnodes]
  · rw [heq, ← List.append_assoc, fld_append_mid (by simp) (length_toLe ..), leNat_toLe, hbytes, Nat.mod_eq_of_lt hedges]
  · rw [heq, ← List.append_assoc, ← List.append_assoc, fld_append_mid (by simp) (length_toLe ..)]
    rfl

/-- Settles O49. -/
theorem tracesWatchesAndHangs : Obligations.TracesWatchesAndHangs := by
  unfold Obligations.TracesWatchesAndHangs
  refine ⟨?_, ?_, ?_⟩
  case refine_1 =>
    intro s m p h mode share hpasses
    have hexec := exec_traceConfig hpasses
    refine ⟨fun hclosed => ?_, fun hopen => ⟨fun hoff => ?_, fun hon hnone => ?_, fun i hon hobj => ?_⟩⟩
    · rw [if_pos (by simpa using hclosed)] at hexec
      exact ⟨_, hexec, replies_refuse s m _⟩
    · rw [if_neg (by simpa using hopen), if_pos hoff] at hexec
      obtain ⟨hhbm, hsteps, hfuncs⟩ := traceOff_rest (take s m) (namedPart m)
      obtain ⟨hhbm', hsteps', hfuncs', htrace⟩ := reap_rest (traceOff (take s m) (namedPart m)) (namedPart m)
      obtain ⟨fs, hans, hanswered, -⟩ := answered_done (s := s) (m := m) (hfuncs'.trans hfuncs)
      rw [hans] at hexec
      exact ⟨_, hexec, hanswered, (congrArg Trace.on htrace).trans (traceOff_off ..), hhbm'.trans hhbm, hsteps'.trans hsteps⟩
    · rw [if_neg (by simpa using hopen), if_neg hon, hnone] at hexec
      exact ⟨_, hexec, replies_refuse s m _⟩
    · rw [if_neg (by simpa using hopen), if_neg hon, hobj] at hexec
      have hspec := traceSet_spec (s := take s m) (p := namedPart m) hobj (fld m.payload 8 1) (fld m.payload 9 1)
      dsimp only at hexec hspec
      generalize traceStarted _ _ _ _ = w at hexec hspec
      obtain ⟨htrace, href, hread, hmem, hsteps, hfuncs⟩ := hspec
      obtain ⟨fs, hans, hanswered, -⟩ := answered_done (s := s) (m := m) hfuncs
      exact ⟨_, hexec.trans (congrArg _ hans), hanswered, htrace, href, hread, hmem, hsteps⟩
  case refine_2 =>
    intro s m hpasses p l n o hfits hn hzero hflags
    have hexec := exec_watchSelect hpasses hfits hn hzero hflags
    refine ⟨fun i hobj hbytes hgood => ?_, fun hobj hsome hgood => ?_, fun w hw hprog => ?_⟩
    · have hfind : ((watchSels l n).find? fun w => watchSelStatus s p w != 0) = none := by
        rw [List.find?_eq_none]
        exact fun w hw h => bne_iff_ne.1 h (hgood w hw)
      obtain ⟨hindex, -, -, hsmall⟩ := objOf_some hobj
      have hnot : o ≠ 0xFFFFFFFF := by
        rintro ho
        rw [ho] at hsmall
        exact absurd hsmall (by decide)
      change ((watchSels (extIn m) (fld (extIn m) 4 1)).find? fun w => watchSelStatus s (namedPart m) w != 0) = none at hfind
      change objOf s (namedPart m) (fld (extIn m) 0 4) = some i at hobj
      rw [hfind] at hexec
      simp only [hobj] at hexec
      rw [if_neg fun h => absurd (of_decide_eq_true h.2) (Nat.not_lt.2 hbytes)] at hexec
      have hpart : ((take s m).modPart (namedPart m) fun x => { x with watch := { x.watch with staged := some (o, watchSels l n) } }).part p
          = { s.part p with watch := { (s.part p).watch with staged := some (o, watchSels l n) } } := part_modPart_self _ _ _
      have hold : ((take s m).modPart (namedPart m) fun x => { x with watch := { x.watch with staged := some (o, watchSels l n) } }).funcs
          = (take s m).funcs := rfl
      have hrest : ((take s m).modPart (namedPart m) fun x => { x with watch := { x.watch with staged := some (o, watchSels l n) } }).steps
          = s.steps ∧ ((take s m).modPart (namedPart m) fun x => { x with watch := { x.watch with staged := some (o, watchSels l n) } }).hbm
          = s.hbm := ⟨rfl, rfl⟩
      change exec (.watchSelect m) s = .next (applyAns (take s m) m (.done (staged ((take s m).modPart (namedPart m) fun x =>
        { x with watch := { x.watch with staged := some (o, watchSels l n) } }) p))) at hexec
      generalize (take s m).modPart (namedPart m) (fun x => { x with watch := { x.watch with staged := some (o, watchSels l n) } }) = u at *
      obtain ⟨hsteps, hhbm⟩ := hrest
      obtain ⟨-, hsame, hfuncs⟩ := staged_rest u p
      obtain ⟨fs, hans, hanswered, -⟩ := answered_done (s := s) (m := m) (hfuncs.trans hold)
      rw [hans] at hexec
      have hmem : memObj u p (o % 65536) = memObj s p i := by
        rw [hindex]
        exact memObj_congr (by rw [hpart]) _
      have hboundary : atBoundary u p = true ↔ (s.part p).running = none := by rw [atBoundary, hpart, beq_iff_eq]
      refine ⟨_, hexec, hanswered, hsame.trans hsteps, fun hrun => ?_, fun hrun => ?_⟩
      · show ((staged u p).part p).watch = _ ∧ (staged u p).hbm = _
        rw [staged, if_neg (mt hboundary.1 hrun), part_retune, hbm_retune, hpart, hhbm]
        exact ⟨rfl, rfl⟩
      · show ((staged u p).part p).watch = _ ∧ (_ → mreadN (staged u p).hbm _ _ = _)
        obtain ⟨hwatch, hwritten⟩ := swapStaged_watch (s := u) (p := p) (o := o) (sels := watchSels l n) (by rw [hpart]) hnot
        rw [staged, if_pos (hboundary.2 hrun), hwatch, hwritten, hmem, hhbm]
        refine ⟨rfl, fun hwf => (mreadN_mwriteN_take _ hwf (by simp)).trans ?_⟩
        rw [List.append_assoc, ← List.append_assoc]
        exact List.take_left' (by simp)
    · have hfind : ((watchSels (extIn m) (fld (extIn m) 4 1)).find? fun w => watchSelStatus s (namedPart m) w != 0) = none := by
        rw [List.find?_eq_none]
        exact fun w hw h => bne_iff_ne.1 h (hgood w hw)
      change objOf s (namedPart m) (fld (extIn m) 0 4) = none at hobj
      rw [hfind] at hexec
      simp only [hobj] at hexec
      rw [if_pos ⟨.inl hsome, trivial⟩] at hexec
      exact ⟨_, hexec, replies_refuse s m _⟩
    · have hstatus : watchSelStatus s (namedPart m) w = 0x0922 := by
        change progOf s (namedPart m) w.prog = none at hprog
        simp only [watchSelStatus, hprog]
      have hfind : ((watchSels (extIn m) (fld (extIn m) 4 1)).find? fun w => watchSelStatus s (namedPart m) w != 0) = some w := by
        change (watchSels (extIn m) (fld (extIn m) 4 1)).head? = some w at hw
        obtain ⟨tail, htail⟩ := List.head?_eq_some_iff.1 hw
        rw [htail, List.find?_cons_of_pos (by rw [hstatus]; rfl)]
      rw [hfind] at hexec
      simp only [hstatus] at hexec
      exact ⟨_, hexec, replies_refuse s m _⟩
  case refine_3 =>
    intro s m hpasses
    have hexec : execHangReport m s = _ := mbx_of_passes hpasses rfl
    refine ⟨fun hnone => ?_, fun g hg hroom hnodes hedges => ?_⟩
    · have hnone' : ((take s m).part (namedPart m)).hang = none := hnone
      simp only [hnone'] at hexec
      exact ⟨_, hexec, replies_refuse s m _⟩
    · have hg' : ((take s m).part (namedPart m)).hang = some g := hg
      simp only [hg'] at hexec
      rw [if_neg (by omega)] at hexec
      exact ⟨_, hangBytes g m.extBytes, hexec, replies_answerWith s m .., length_hangBytes_le g hroom, hangBytes_head g _,
        fun hfits => hangBytes_whole g hnodes hedges hfits⟩

end Sys2Proof.Machine

/-! PROOFS. What the end of work touches: the failing of steps, the signalling of fences and the abort of jobs (R291, R446, R459). -/

namespace Sys2Proof.Machine

open Sys2Proof.Claims

variable {s t u : State}

/-! ### What may change of each kind of record -/

/-- What a step is, its progress and its outcome left out. -/
def Step.kept (st : Step) : Step :=
  { st with state := 0, stateAt := 0, fail := none, saved := [], savedPoison := [], spilled := false, notedDone := false, watchAt := [] }

/-- What a step is, what it has seen of its fences left out too. -/
def Step.core (st : Step) : Step := { st.kept with waitView := 0 }

/-- A function gained or lost event entries. -/
def FuncEnds (x y : Func) : Prop := y = { x with evtQueue := y.evtQueue }

/-- A context was charged for time. -/
def CtxEnds (x y : Ctx) : Prop := y = { x with runNs := y.runNs, waitNs := y.waitNs }

/-- A partition stopped running a step; its counts, watch and trace went on, and, in the wide sense, its fences were signalled. -/
structure PartEnds (wide : Bool) (x y : Part) : Prop where
  rest : y = { x with running := y.running, switchTo := y.switchTo, switchReq := y.switchReq, counters := y.counters, watch := y.watch
                      watchAcc := y.watchAcc, trace := y.trace, obs := y.obs, fences := y.fences }
  idle : x.running = none → y.running = none
  fences : wide = false → y.fences = x.fences

/-- A tile lost work. -/
structure TileEnds (x y : Tile) : Prop where
  rest : y = { x with run := y.run, tails := y.tails, bufs := y.bufs }
  idle : x.run = none → y.run = none

/-- A port lost messages, gained control messages, and sent some. -/
structure PortEnds (x y : LinkPort) : Prop where
  rest : y = { x with txCtr := y.txCtr, cellHeld := y.cellHeld, bulkHeld := y.bulkHeld, txq := y.txq, lastEng := y.lastEng }
  cells : y.cellHeld ≤ x.cellHeld
  bulks : y.bulkHeld ≤ x.bulkHeld
  queued : ∀ m ∈ y.txq, m ∈ x.txq ∨ m.ctl.isSome = true

/-- A window stands, or was closed. -/
def WindowEnds (x y : Window) : Prop := y.isOpen = true → y = x

/-- An abort of a job's steps began. -/
def JobEnds (x y : Job) : Prop := y = { x with aborted := y.aborted, broken := y.broken }

/-- Between `s` and `t` work ended, and nothing else was done; `core` is what stands of every step. -/
structure EndsAs (core : Step → Step) (wide : Bool) (s t : State) : Prop where
  rest : t = { s with funcs := t.funcs, parts := t.parts, ctxs := t.ctxs, steps := t.steps, tiles := t.tiles, sorters := t.sorters
                      sortWait := t.sortWait, addedWork := t.addedWork, reducers := t.reducers, remOps := t.remOps, ports := t.ports
                      windows := t.windows, jobs := t.jobs, hbm := t.hbm, hbmPoison := t.hbmPoison, pmc := t.pmc, out := t.out }
  func : ∀ k, FuncEnds (s.func k) (t.func k)
  ctx : ∀ k, CtxEnds (s.ctx k) (t.ctx k)
  part : ∀ k, PartEnds wide (s.part k) (t.part k)
  tile : ∀ k, TileEnds (s.tile k) (t.tile k)
  port : ∀ k, PortEnds (s.port k) (t.port k)
  window : ∀ k, WindowEnds (s.window k) (t.window k)
  job : ∀ k, JobEnds (s.job k) (t.job k)
  step : ∀ k, (tfind t.steps k).map core = (tfind s.steps k).map core
  pmc : t.pmc = { s.pmc with global := t.pmc.global }
  remOps : ∀ o ∈ t.remOps, o ∈ s.remOps
  out : ∀ o ∈ s.out, o ∈ t.out

/-- Between `s` and `t` steps failed and jobs began to abort, and nothing else was done. -/
abbrev Fails (s t : State) : Prop := EndsAs Step.kept false s t

/-- Between `s` and `t` steps failed, jobs began to abort and fences were signalled, and nothing else was done. -/
abbrev Ends (s t : State) : Prop := EndsAs Step.core true s t

theorem PartEnds.refl (wide : Bool) (x : Part) : PartEnds wide x x := ⟨rfl, id, fun _ => rfl⟩

theorem PartEnds.trans {wide : Bool} {x y z : Part} (h : PartEnds wide x y) (h' : PartEnds wide y z) : PartEnds wide x z :=
  ⟨by rw [h'.rest, h.rest], fun hx => h'.idle (h.idle hx), fun hw => (h'.fences hw).trans (h.fences hw)⟩

theorem TileEnds.refl (x : Tile) : TileEnds x x := ⟨rfl, id⟩

theorem TileEnds.trans {x y z : Tile} (h : TileEnds x y) (h' : TileEnds y z) : TileEnds x z :=
  ⟨by rw [h'.rest, h.rest], fun hx => h'.idle (h.idle hx)⟩

theorem PortEnds.refl (x : LinkPort) : PortEnds x x := ⟨rfl, le_rfl, le_rfl, fun _ => .inl⟩

theorem PortEnds.trans {x y z : LinkPort} (h : PortEnds x y) (h' : PortEnds y z) : PortEnds x z where
  rest := by rw [h'.rest, h.rest]
  cells := h'.cells.trans h.cells
  bulks := h'.bulks.trans h.bulks
  queued m hm := (h'.queued m hm).elim (h.queued m) .inr

theorem WindowEnds.refl (x : Window) : WindowEnds x x := fun _ => rfl

theorem WindowEnds.trans {x y z : Window} (h : WindowEnds x y) (h' : WindowEnds y z) : WindowEnds x z := fun hz => by
  obtain rfl := h' hz
  exact h hz

namespace EndsAs

variable {core : Step → Step} {wide : Bool}

theorem refl (s : State) : EndsAs core wide s s :=
  ⟨rfl, fun _ => rfl, fun _ => rfl, fun _ => .refl _ _, fun _ => .refl _, fun _ => .refl _, fun _ => .refl _, fun _ => rfl, fun _ => rfl,
    rfl, fun _ => id, fun _ => id⟩

theorem trans (h : EndsAs core wide s t) (h' : EndsAs core wide t u) : EndsAs core wide s u where
  rest := by rw [h'.rest, h.rest]
  func k := by rw [FuncEnds, h'.func k, h.func k]
  ctx k := by rw [CtxEnds, h'.ctx k, h.ctx k]
  part k := (h.part k).trans (h'.part k)
  tile k := (h.tile k).trans (h'.tile k)
  port k := (h.port k).trans (h'.port k)
  window k := (h.window k).trans (h'.window k)
  job k := by rw [JobEnds, h'.job k, h.job k]
  step k := (h'.step k).trans (h.step k)
  pmc := by rw [h'.pmc, h.pmc]
  remOps o ho := h.remOps o (h'.remOps o ho)
  out o ho := h'.out o (h.out o ho)

/-- A change of object space, sorters, reducers and what waits for them alone. -/
theorem of_eq (h : t = { s with hbm := t.hbm, hbmPoison := t.hbmPoison, sorters := t.sorters, sortWait := t.sortWait
                                addedWork := t.addedWork, reducers := t.reducers }) : EndsAs core wide s t := by
  rw [h]
  exact ⟨rfl, fun _ => rfl, fun _ => rfl, fun _ => .refl _ _, fun _ => .refl _, fun _ => .refl _, fun _ => .refl _, fun _ => rfl,
    fun _ => rfl, rfl, fun _ => id, fun _ => id⟩

theorem of_modPart (s : State) (p : Nat) (f : Part → Part) (hf : ∀ x, PartEnds wide x (f x)) : EndsAs core wide s (s.modPart p f) :=
  { (refl s : EndsAs core wide s s) with
    rest := rfl
    part := fun k => by
      by_cases hk : k = p
      · subst hk
        rw [part_modPart_self]
        exact hf _
      · rw [part_modPart_ne _ _ hk]
        exact .refl _ _ }

theorem of_modStep (s : State) (k : Nat) (f : Step → Step) (hf : ∀ x, core (f x) = core x) : EndsAs core wide s (s.modStep k f) := by
  unfold State.modStep
  split
  · exact .refl s
  · next st hst =>
    refine { (refl s : EndsAs core wide s s) with rest := rfl, step := fun j => ?_ }
    by_cases hj : j = k
    · subst hj
      show (tfind (tput s.steps j (f st)) j).map _ = _
      rw [tfind_tput_self, hst, Option.map_some, Option.map_some, hf]
    · show (tfind (tput s.steps k (f st)) j).map _ = _
      rw [tfind_tput_ne _ _ hj]

theorem of_modCtx (s : State) (c : Nat) (f : Ctx → Ctx) (hf : ∀ x, CtxEnds x (f x)) : EndsAs core wide s (s.modCtx c f) :=
  { refl s with
    rest := rfl
    ctx := fun k => by
      by_cases hk : k = c
      · subst hk
        rw [ctx_modCtx_self]
        exact hf _
      · have : (s.modCtx c f).ctx k = s.ctx k := tget_tput_ne _ _ _ hk
        rw [this]
        rfl }

theorem of_modFunc (s : State) (g : Nat) (f : Func → Func) (hf : ∀ x, FuncEnds x (f x)) : EndsAs core wide s (s.modFunc g f) :=
  { refl s with
    rest := rfl
    func := fun k => by
      by_cases hk : k = g
      · subst hk
        rw [func_modFunc_self]
        exact hf _
      · rw [func_modFunc_ne _ _ hk]
        rfl }

theorem of_modPort (s : State) (p : Nat) (f : LinkPort → LinkPort) (hf : PortEnds (s.port p) (f (s.port p))) : EndsAs core wide s (s.modPort p f) :=
  { refl s with
    rest := rfl
    port := fun k => by
      by_cases hk : k = p
      · subst hk
        have : (s.modPort k f).port k = f (s.port k) := tget_tput_self ..
        rw [this]
        exact hf
      · have : (s.modPort p f).port k = s.port k := tget_tput_ne _ _ _ hk
        rw [this]
        exact .refl _ }

theorem of_modJob (s : State) (j : Nat) (f : Job → Job) (hf : ∀ x, JobEnds x (f x)) : EndsAs core wide s (s.modJob j f) :=
  { refl s with
    rest := rfl
    job := fun k => by
      by_cases hk : k = j
      · subst hk
        have : (s.modJob k f).job k = f (s.job k) := tget_tput_self ..
        rw [this]
        exact hf _
      · have : (s.modJob j f).job k = s.job k := tget_tput_ne _ _ _ hk
        rw [this]
        rfl }

end EndsAs

theorem forAll_ends {core : Step → Step} {wide : Bool} {α : Type} {f : State → α → State} (hf : ∀ t x, EndsAs core wide t (f t x)) (l : List α) (s : State) :
    EndsAs core wide s (forAll l f s) := forAll_rel EndsAs.refl EndsAs.trans hf l s

/-- What fails steps ends work. -/
theorem EndsAs.ends (h : Fails s t) : Ends s t := by
  refine { h with step := fun k => ?_, part := fun k => ⟨(h.part k).rest, (h.part k).idle, nofun⟩ }
  have hstep := congrArg (Option.map fun st : Step => { st with waitView := 0 }) (h.step k)
  rw [Option.map_map, Option.map_map] at hstep
  exact hstep

/-! ### Messages handed to ports -/

theorem count_fails (s : State) (p ev n : Nat) : Fails s (count s p ev n) := by
  unfold count
  split
  · exact .refl s
  · exact .of_modPart s p _ fun x => ⟨rfl, id, fun _ => rfl⟩

theorem countGlobal_fails (s : State) (j n : Nat) : Fails s (countGlobal s j n) := by
  unfold countGlobal
  split
  · exact .refl s
  · exact { EndsAs.refl s with rest := rfl, pmc := rfl }

theorem emit_fails (s : State) (o : Out) : Fails s (emit s o) :=
  { EndsAs.refl s with rest := rfl, out := fun _ h => List.mem_cons_of_mem _ h }

theorem sendOne_fails (s : State) (p : Nat) : Fails s (sendOne s p) := by
  unfold sendOne
  split
  · exact .refl s
  · next i hi =>
    extract_lets m sent counted
    have hsent : Fails s sent := by
      refine EndsAs.of_modPort s p _ ⟨rfl, ?_, ?_, fun m hm => .inl (List.mem_of_mem_eraseIdx hm)⟩ <;> dsimp only
      · split <;> omega
      · split <;> omega
    exact ((hsent.trans (countGlobal_fails sent _ _)).trans (count_fails _ _ _ _)).trans (emit_fails _ _)

theorem foldl_fails {α : Type} {f : State → α → State} (hf : ∀ t x, Fails t (f t x)) (l : List α) (s : State) :
    Fails s (l.foldl f s) := by
  induction l generalizing s with
  | nil => exact .refl s
  | cons x l ih => exact (hf s x).trans (ih _)

theorem drainTx_fails (s : State) (p : Nat) : Fails s (drainTx s p) := foldl_fails (fun t _ => sendOne_fails t p) _ s

theorem sendAll_fails (s : State) (p : Nat) (l : List TxMsg) (hl : ∀ m ∈ l, m.ctl.isSome = true) : Fails s (sendAll s p l) := by
  refine (EndsAs.of_modPort s p _ ⟨rfl, le_rfl, le_rfl, fun m hm => ?_⟩).trans (drainTx_fails _ p)
  exact (List.mem_append.1 hm).imp_right (hl m)

theorem sendCtl_fails (s : State) (part pkg : Nat) (route : Option (List Nat)) (o : Out) : Fails s (sendCtl s part pkg route o) := by
  unfold sendCtl
  split
  · exact emit_fails s o
  · split
    · exact sendAll_fails _ _ _ fun m hm => by rw [List.mem_singleton.1 hm]; rfl
    · exact .refl s

theorem noticeTo_fails (s : State) (j : Nat) (dest : List Nat) (n : Notice) : Fails s (noticeTo s j dest n) :=
  forAll_ends (fun t _ => sendCtl_fails t _ _ _ _) _ s

theorem relayNotice_fails (s : State) (j : Nat) (n : Notice) : Fails s (relayNotice s j n) := by
  unfold relayNotice
  extract_lets ms
  split
  · exact noticeTo_fails s j _ n
  · split
    · exact noticeTo_fails s j _ n
    · exact .refl s

/-! ### The abort of a job step -/

theorem closeWindow_fails (s : State) (w : Nat) : Fails s (closeWindow s w) := by
  unfold closeWindow
  split
  · exact .refl s
  · refine { EndsAs.refl s with rest := rfl, window := fun k => ?_ }
    by_cases hk : k = w
    · subst hk
      have : (s.modWindow k fun x => { x with isOpen := false, gen := (x.gen + 1) % 256, closedAt := time s }).window k
          = { s.window k with isOpen := false, gen := ((s.window k).gen + 1) % 256, closedAt := time s } := tget_tput_self ..
      rw [this]
      exact fun h => absurd h nofun
    · have : (s.modWindow w fun x => { x with isOpen := false, gen := (x.gen + 1) % 256, closedAt := time s }).window k
          = s.window k := tget_tput_ne _ _ _ hk
      rw [this]
      exact .refl _

theorem closeWindows_fails (s : State) (c : Window → Bool) : Fails s (closeWindows s c) :=
  forAll_ends (fun t (e : Nat × Window) => closeWindow_fails t e.1) _ s

theorem startAbort_fails (s : State) (j jstep p : Nat) (cause code : Code) (lost : Bool) :
    Fails s (startAbort s j jstep p cause code lost) := by
  unfold startAbort
  split
  · exact .refl s
  · extract_lets origin marked closed
    have hmarked : Fails s marked := .of_modJob s j _ fun _ => rfl
    exact (hmarked.trans (closeWindows_fails marked _)).trans (noticeTo_fails _ _ _ _)

/-! ### The failing of a step -/

theorem accrue_fails (s : State) (slot : Nat) : Fails s (accrue s slot) := by
  unfold accrue
  split
  · exact .refl s
  · next st hst =>
    extract_lets d marked
    have hmarked : Fails s marked := .of_modStep s slot _ fun _ => rfl
    split
    · refine hmarked.trans (.of_modCtx marked _ _ fun x => ?_)
      split
      · rfl
      · split <;> rfl
    · exact hmarked

theorem setState_fails (s : State) (slot n : Nat) : Fails s (setState s slot n) :=
  (accrue_fails s slot).trans (.of_modStep _ slot _ fun _ => rfl)

theorem objWrite_fails (s : State) (p i off : Nat) (l : List Byte) : Fails s (objWrite s p i off l) := .of_eq rfl

theorem obsSpend_fails (s : State) (p n : Nat) : Fails s (obsSpend s p n) := .of_modPart s p _ fun _ => ⟨rfl, id, fun _ => rfl⟩

theorem traces_fails (h : Traces s t) : Fails s t := by
  have hfields := h.rest
  refine ⟨by rw [hfields], ?_, ?_, fun k => ?_, ?_, ?_, ?_, ?_, ?_, ?_, ?_, ?_⟩
  case refine_3 =>
    have hpart := h.part k
    exact ⟨by rw [hpart], fun hx => by rw [hpart]; exact hx, fun _ => by rw [hpart]⟩
  all_goals rw [hfields]
  · exact fun _ => rfl
  · exact fun _ => rfl
  · exact fun _ => .refl _
  · exact fun _ => .refl _
  · exact fun _ => .refl _
  · exact fun _ => rfl
  · exact fun _ => rfl
  · exact fun _ => id
  · exact fun _ => id

theorem watchRelease_fails (s : State) (slot : Nat) (st : Step) : Fails s (watchRelease s slot st) := by
  unfold watchRelease
  refine (forAll_ends (fun t e => ?_) _ s).trans (.of_modPart _ _ _ fun _ => ⟨rfl, id, fun _ => rfl⟩)
  split
  · extract_lets acc watch result counted placed written
    have hwritten : Fails t written := by
      unfold written
      split
      · exact .refl t
      · have hresult : Fails t result := (obsSpend_fails t _ _).trans (objWrite_fails _ _ _ _ _)
        have hplaced : Fails counted placed := .of_modStep counted slot _ fun _ => rfl
        exact ((hresult.trans (objWrite_fails result _ _ _ _)).trans hplaced).trans (.of_modPart placed _ _ fun _ => ⟨rfl, id, fun _ => rfl⟩)
    split
    · exact hwritten.trans (traces_fails (traceTrigger_traces _ _))
    · exact hwritten
  · exact .refl t

theorem pushEntry_fails (s : State) (f : Nat) (e : Entry) : Fails s (pushEntry s f e) :=
  .of_modFunc s f _ fun x => by
    show _ = _
    split <;> rfl

theorem noteDone_fails (s : State) (slot : Nat) : Fails s (noteDone s slot) := by
  unfold noteDone
  split
  · exact .refl s
  next st hst =>
    split
    · exact .refl s
    extract_lets released noted
    have hreleased : Fails s released := by
      unfold released
      split
      · exact .refl s
      · exact watchRelease_fails s slot st
    have hnoted : Fails s noted := hreleased.trans (.of_modStep _ slot _ fun _ => rfl)
    split
    · split
      · exact hnoted.trans (pushEntry_fails _ _ _)
      · exact hnoted
    · exact hnoted.trans (pushEntry_fails _ _ _)

/-- The work of a step leaves every engine. -/
def withoutWork (s : State) (slot : Nat) : State :=
  { s with
    tiles := tmap s.tiles fun _ t => t.without slot
    sorters := tmap s.sorters fun _ x => { x with
      reqs := x.reqs.filter fun r => r.slot != slot
      run := x.run.filter fun r => r.slot != slot }
    ports := tmap s.ports fun _ x => { x with txq := x.txq.filter fun m => m.slot != some slot }
    sortWait := s.sortWait.filter fun r => r.slot != slot
    addedWork := s.addedWork.filter fun r => r.slot != slot
    reducers := tmap s.reducers fun _ x => { x with
      plans := x.plans.filter fun r => r.slot != slot
      run := x.run.filter fun r => r.slot != slot }
    remOps := s.remOps.filter fun r => r.slot != slot
    parts := tmap s.parts fun _ x => { x with
      running := x.running.filter fun k => k != slot
      switchTo := x.switchTo.filter fun k => k != slot
      switchReq := if x.running = some slot then 0 else x.switchReq } }

theorem withoutWork_fails (s : State) (slot : Nat) : Fails s (withoutWork s slot) := by
  refine { (EndsAs.refl s : Fails s s) with rest := rfl, part := fun k => ?_, tile := fun k => ?_, port := fun k => ?_, remOps := fun o ho => ?_ }
  · simp only [State.part, withoutWork, tget, tfind_tmap]
    cases tfind s.parts k with
    | none => exact .refl _ _
    | some x => exact ⟨rfl, fun h => by
        dsimp only [Option.map_some, Option.getD_some] at h ⊢
        rw [h]
        rfl, fun _ => rfl⟩
  · simp only [State.tile, withoutWork, tget, tfind_tmap]
    cases tfind s.tiles k with
    | none => exact .refl _
    | some x => exact ⟨rfl, fun h => by
        dsimp only [Option.map_some, Option.getD_some, Tile.without] at h ⊢
        rw [h]
        rfl⟩
  · simp only [State.port, withoutWork, tget, tfind_tmap]
    cases tfind s.ports k with
    | none => exact .refl _
    | some x => exact ⟨rfl, le_rfl, le_rfl, fun m hm => .inl (List.mem_of_mem_filter hm)⟩
  · exact List.mem_of_mem_filter ho

theorem dropWork_fails (s : State) (slot : Nat) : Fails s (dropWork s slot) := by
  have hdrop : dropWork s slot = match tfind s.steps slot with
      | some st => match st.job with
        | some (j, _) => closeWindows (withoutWork s slot) fun w => w.job == j && w.part == st.part
        | none => withoutWork s slot
      | none => withoutWork s slot := rfl
  rw [hdrop]
  split
  · split
    · exact (withoutWork_fails s slot).trans (closeWindows_fails _ _)
    · exact withoutWork_fails s slot
  · exact withoutWork_fails s slot

theorem failRaw_fails (s : State) (slot : Nat) (status : Code) : Fails s (failRaw s slot status) := by
  cases hst : tfind s.steps slot with
  | none => simpa [failRaw, hst] using EndsAs.refl s
  | some st =>
    rw [failRaw_of_some hst]
    split
    · exact .refl s
    · refine EndsAs.trans ?_ (noteDone_fails _ slot)
      exact ((dropWork_fails s slot).trans (setState_fails _ slot _)).trans (.of_modStep _ slot _ fun _ => rfl)

theorem failWith_fails (s : State) (slot : Nat) (status code : Code) : Fails s (failWith s slot status code) := by
  unfold failWith
  split
  · exact .refl s
  · split
    · exact .refl s
    · extract_lets failed
      split
      · exact (failRaw_fails s slot status).trans (startAbort_fails _ _ _ _ _ _ _)
      · exact failRaw_fails s slot status

theorem failStep_fails (s : State) (slot : Nat) (status : Code) : Fails s (failStep s slot status) := failWith_fails s slot status 0

theorem failAll_fails (s : State) (c : Step → Bool) (status : Code) : Fails s (failAll s c status) :=
  forAll_ends (fun t k => failStep_fails t k status) _ s

theorem reopen_fails (s : State) (slot : Nat) : Fails s (reopen s slot) := by
  unfold reopen
  split
  · exact .refl s
  next st hst =>
    split
    · extract_lets o written opened
      have hwritten : Fails s written := forAll_ends (fun t a => objWrite_fails t _ _ _ _) _ s
      have hopened : Fails written opened := .of_modStep written slot _ fun _ => rfl
      exact (hwritten.trans hopened).trans (.of_modFunc opened _ _ fun _ => rfl)
    · exact .refl s

theorem closeWindows_ends (s : State) (c : Window → Bool) : Ends s (closeWindows s c) := (closeWindows_fails s c).ends

theorem relayNotice_ends (s : State) (j : Nat) (n : Notice) : Ends s (relayNotice s j n) := (relayNotice_fails s j n).ends

theorem drainTx_ends (s : State) (p : Nat) : Ends s (drainTx s p) := (drainTx_fails s p).ends

theorem sendCtl_ends (s : State) (part pkg : Nat) (route : Option (List Nat)) (o : Out) : Ends s (sendCtl s part pkg route o) :=
  (sendCtl_fails s part pkg route o).ends

theorem accrue_ends (s : State) (slot : Nat) : Ends s (accrue s slot) := (accrue_fails s slot).ends

theorem traces_ends (h : Traces s t) : Ends s t := (traces_fails h).ends

theorem failRaw_ends (s : State) (slot : Nat) (status : Code) : Ends s (failRaw s slot status) := (failRaw_fails s slot status).ends

theorem failWith_ends (s : State) (slot : Nat) (status code : Code) : Ends s (failWith s slot status code) :=
  (failWith_fails s slot status code).ends

theorem failStep_ends (s : State) (slot : Nat) (status : Code) : Ends s (failStep s slot status) := (failStep_fails s slot status).ends

theorem failAll_ends (s : State) (c : Step → Bool) (status : Code) : Ends s (failAll s c status) := (failAll_fails s c status).ends

theorem reopen_ends (s : State) (slot : Nat) : Ends s (reopen s slot) := (reopen_fails s slot).ends

/-! ### The signalling of a fence -/

theorem signalFence_ends (s : State) (p i status : Nat) : Ends s (signalFence s p i status) := by
  unfold signalFence
  split
  · exact .refl s
  next f hf =>
    split
    · exact .refl s
    extract_lets ws signalled posted viewed
    have hsignalled : Ends s signalled := .of_modPart s p _ fun _ => ⟨rfl, id, nofun⟩
    have hposted : Ends signalled posted := (pushEntry_fails _ _ _).ends
    have hview : Ends posted viewed := by
      refine forAll_ends (fun t k => ?_) ws posted
      exact .of_modStep t k _ fun _ => rfl
    have hviewed : Ends s viewed := (hsignalled.trans hposted).trans hview
    split
    · exact hviewed
    · exact hviewed.trans (forAll_ends (fun t k => (failStep_fails t k _).ends) _ _)

end Sys2Proof.Machine

/-! PROOFS. The global stop, its release, and scan-out (R546, R555 to R558). -/

namespace Sys2Proof.Machine

open Sys2Proof.Claims

variable {s t u : State}

/-- A timed command whose condition does not hold names no event (log 1). -/
theorem timed_of_not {now : Nat} {c : State → Bool} {f : State → State} (h : c (advance s now) = false) : timed s now c f = .next s := by
  simp [timed, h]

/-! ### What a release does not touch again -/

/-- The stop registers, STOP_OUT_N and the counters' freeze stand. -/
structure StopStands (s t : State) : Prop where
  gst : t.gst = s.gst
  pin : t.aon.stopOutN = s.aon.stopOutN
  pmc : t.pmc = { s.pmc with global := t.pmc.global }

namespace StopStands

theorem refl (s : State) : StopStands s s := ⟨rfl, rfl, rfl⟩

theorem trans (h : StopStands s t) (h' : StopStands t u) : StopStands s u :=
  ⟨h'.gst.trans h.gst, h'.pin.trans h.pin, by rw [h'.pmc, h.pmc]⟩

theorem of_ends (h : Ends s t) : StopStands s t := ⟨by rw [h.rest], by rw [h.rest], h.pmc⟩

theorem of_traces (h : Traces s t) : StopStands s t := ⟨by rw [h.rest], by rw [h.rest], by rw [h.rest]⟩

/-- What changes neither register nor pin. -/
theorem of_eq (hgst : t.gst = s.gst) (haon : t.aon = s.aon) (hpmc : t.pmc = s.pmc) : StopStands s t :=
  ⟨hgst, by rw [haon], by rw [hpmc]⟩

theorem forAll {α : Type} {f : State → α → State} (hf : ∀ t x, StopStands t (f t x)) (l : List α) (s : State) :
    StopStands s (Machine.forAll l f s) := forAll_rel refl trans hf l s

end StopStands

theorem setTesting_stop (s : State) (e : Nat) (r : Option (List (Nat × Nat))) : StopStands s (setTesting s e r) := by
  unfold setTesting
  repeat' split
  all_goals exact .of_eq rfl rfl rfl

theorem setWithdrawn_stop (s : State) (e w : Nat) : StopStands s (setWithdrawn s e w) := by
  unfold setWithdrawn
  extract_lets f
  repeat' split
  all_goals exact .of_eq rfl rfl rfl

theorem beginEngineReset_stop (s : State) (e : Nat) (r : List (Nat × Nat)) : StopStands s (beginEngineReset s e r) := by
  unfold beginEngineReset
  extract_lets failed
  have hfailed : StopStands s failed := .of_ends (forAll_ends (fun t k => failStep_ends t k _) _ s)
  split
  · exact hfailed
  · exact (hfailed.trans (setWithdrawn_stop _ e 1)).trans (setTesting_stop _ e _)

theorem modPart_stop (s : State) (p : Nat) (f : Part → Part) : StopStands s (s.modPart p f) := .of_eq rfl rfl rfl

theorem modCtx_stop (s : State) (c : Nat) (f : Ctx → Ctx) : StopStands s (s.modCtx c f) := .of_eq rfl rfl rfl

theorem ctxFree_stop (s : State) (l : List Nat) : StopStands s { s with ctxFree := l } := .of_eq rfl rfl rfl

theorem answerOpt_stop (s : State) (r : Option (Nat × Nat)) (status detail : Nat) : StopStands s (answerOpt s r status detail) := by
  unfold answerOpt
  split
  · exact .refl s
  · rw [answer, answerWith_rest]
    exact .of_eq rfl rfl rfl

theorem traceOff_stop (s : State) (p : Nat) : StopStands s (traceOff s p) := by
  unfold traceOff
  extract_lets i
  split <;> exact .of_eq rfl rfl rfl

theorem teardown_stop (s : State) (p c : Nat) (status : Code) : StopStands s (teardown s p c status) := by
  unfold teardown
  extract_lets x failed owned signalled tr off left gone freed swept
  have hsignalled : StopStands s signalled :=
    .of_ends ((failAll_ends s _ status).trans (forAll_ends (fun t i => signalFence_ends t p i 2) owned failed))
  have hoff : StopStands signalled off := by
    unfold off
    split
    · exact traceOff_stop _ p
    · exact .refl _
  have hleft : StopStands off left := modPart_stop off p _
  have hgone : StopStands left gone := modCtx_stop left c _
  have hfreed : StopStands gone freed := ctxFree_stop gone _
  have hswept : StopStands freed swept := modPart_stop freed p _
  have hreaped : StopStands swept (reap swept p) := modPart_stop swept p _
  exact ((((((hsignalled.trans hoff).trans hleft).trans hgone).trans hfreed).trans hswept).trans hreaped).trans (answerOpt_stop _ _ _ _)

theorem finishStep_stop (s : State) (slot : Nat) (late : Bool) : StopStands s (finishStep s slot late) := by
  unfold finishStep
  split
  · exact .refl s
  next st hst =>
    extract_lets traced charged counted freed armed ok signalled reaped swept queued c
    have hcharged : StopStands s charged := (StopStands.of_traces (traceStep_traces s slot _ _ _ _)).trans (.of_ends (accrue_ends _ slot))
    have hcounted : StopStands charged counted := by
      unfold counted
      split <;> exact .of_eq rfl rfl rfl
    have harmed : StopStands counted armed := ⟨rfl, rfl, rfl⟩
    have hsignalled : StopStands armed signalled := .of_ends (forAll_ends (fun t h => signalFence_ends t _ _ _) _ armed)
    have hqueued : StopStands signalled queued := by
      unfold queued
      split <;> exact .of_eq rfl rfl rfl
    have hall := (((hcharged.trans hcounted).trans harmed).trans hsignalled).trans hqueued
    split
    · exact hall.trans (teardown_stop _ _ _ _)
    · exact hall

theorem removeNoticed_stop (s : State) (slot : Nat) : StopStands s (removeNoticed s slot) := by
  unfold removeNoticed
  split
  · exact .refl s
  · extract_lets failed
    have hfailed : StopStands s failed := .of_ends ((reopen_ends s slot).trans (failRaw_ends _ slot _))
    split
    · exact hfailed.trans (finishStep_stop _ _ _)
    · exact hfailed

theorem takeNotice_stop (s : State) (n : Notice) : StopStands s (takeNotice s n) := by
  unfold takeNotice
  split
  · exact .refl s
  · next j hj =>
    extract_lets broken ks here0 marked closed
    have hbroken : StopStands s broken := by
      unfold broken breakJob
      split <;> exact .of_eq rfl rfl rfl
    split
    · exact hbroken
    · split
      · exact hbroken
      · have hmarked : StopStands broken marked := .of_eq rfl rfl rfl
        have hremoved : StopStands marked (forAll ks removeNoticed marked) := .forAll (fun t k => removeNoticed_stop t k) ks marked
        exact ((hbroken.trans hmarked).trans hremoved).trans (.of_ends ((closeWindows_ends _ _).trans (relayNotice_ends _ j n)))

/-! ### The release -/

/-- The state in which the registers and STOP_OUT_N show the release (R557). -/
def stopFreed (s : State) : State :=
  let d := time s - s.gst.time
  (freeCounts { s with
    gst := { s.gst with stopped := false, halted := false, source := 0, notices := [] }
    remOps := s.remOps.map fun o => { o with last := o.last + d } } fun p => { p with byStop := false }).modAon
      fun a => { a with stopOutN := true }

/-- The traces record the release, and the ports send again (R395). -/
def stopRecorded (s : State) : State :=
  let s := forAll ((s.parts.filter fun e => e.2.trace.on).map (·.1)) (fun s p =>
    traceRec s p (traceBytes s p 0x0C 0 0xFFF 0 0 0xFFFF 0 0 0 0)) s
  forAll (s.ports.map (·.1)) drainTx s

theorem gstFree_of_stopped (h : s.gst.stopped = true) : gstFree s = forAll s.gst.notices takeNotice
    (forAll (((stopRecorded (stopFreed s)).coll.openFaults.map (·.engine)).dedup)
      (fun s e => if testingOf s e = none then beginEngineReset s e [] else s) (stopRecorded (stopFreed s))) := by
  rw [gstFree, h]
  rfl

theorem stopRecorded_ends (s : State) : Ends s (stopRecorded s) := by
  unfold stopRecorded
  extract_lets traced
  have htraced : Ends s traced := traces_ends (forAll_traces (fun t p => traceRec_traces t p _) _ s)
  exact htraced.trans (forAll_ends (fun t p => drainTx_ends t p) _ traced)

theorem stopRecorded_work (s : State) : (stopRecorded s).steps = s.steps ∧ (stopRecorded s).tiles = s.tiles
    ∧ (stopRecorded s).remOps = s.remOps := by
  unfold stopRecorded
  extract_lets traced
  have htraced : Traces s traced := forAll_traces (fun t p => traceRec_traces t p _) _ s
  have hsent : Sends traced (forAll (traced.ports.map (·.1)) drainTx traced) := forAll_sends (fun t p => drainTx_sends t p) _ traced
  rw [hsent.rest, htraced.rest]
  exact ⟨rfl, rfl, rfl⟩

/-- R546: the stop gives up its hold of the counts. -/
theorem freeCounts_stop (s : State) : let t := freeCounts s fun p => { p with byStop := false }
    t = { s with pmc := t.pmc, parts := t.parts } ∧ t.pmc.byStop = false ∧ (s.pmc.byMessage = false → t.pmc.held = false) := by
  have hrest : holdCounts s = { s with pmc := (holdCounts s).pmc, parts := (holdCounts s).parts } := by
    unfold holdCounts
    split <;> rfl
  rw [← (pmc_holdCounts s).1]
  unfold freeCounts
  generalize holdCounts s = w at hrest
  rw [hrest]
  cases hby : w.pmc.byMessage <;> simp [hby]

/-- R546, R557: what the release leaves of the stop. -/
theorem stopFreed_spec (s : State) : (stopFreed s).gst = { s.gst with stopped := false, halted := false, source := 0, notices := [] }
    ∧ (stopFreed s).pmc.byStop = false ∧ (s.pmc.byMessage = false → (stopFreed s).pmc.held = false) ∧ (stopFreed s).aon.stopOutN = true
    ∧ (stopFreed s).steps = s.steps ∧ (stopFreed s).tiles = s.tiles ∧ (stopFreed s).coll = s.coll ∧ time (stopFreed s) = time s
    ∧ (stopFreed s).remOps = s.remOps.map fun o => { o with last := o.last + (time s - s.gst.time) } := by
  unfold stopFreed
  dsimp only
  obtain ⟨hrest, hstop, hheld⟩ := freeCounts_stop { s with
    gst := { s.gst with stopped := false, halted := false, source := 0, notices := [] }
    remOps := s.remOps.map fun o => { o with last := o.last + (time s - s.gst.time) } }
  generalize freeCounts _ (fun p : Pmc => { p with byStop := false }) = w at hrest hstop hheld
  refine ⟨?_, hstop, hheld, rfl, ?_⟩
  · show w.gst = _
    rw [hrest]
  · show w.steps = _ ∧ w.tiles = _ ∧ w.coll = _ ∧ w.aon.whorl = _ ∧ w.remOps = _
    rw [hrest]
    exact ⟨rfl, rfl, rfl, rfl, rfl⟩

/-! ### Scan-out -/

theorem quiet_AC02 : QuietCode 0xAC02 := by decide

/-- R558: what a read of the selected chain does, once the chain is open. -/
def scanned (s : State) (parityError : Bool) (v : Nat) : State :=
  let s := if s.gst.selChain = 3 then s else (draw s).2
  let at' := if parityError then some (time s) else s.gst.parityAt
  let s := { s with gst := { s.gst with addr := s.gst.addr + 4, parityErr := s.gst.parityErr || parityError, parityAt := at' } }
  let s := if parityError then reportCode s 0xAC02 else s
  emit s (.read 0 (BitVec.ofNat 64 v))

/-- The four bytes of a chain (R558; log 15). -/
def scanWord (s : State) : Nat :=
  if s.gst.selChain = 3 then leNat (mreadN (s.tile s.gst.selTile).scratch s.gst.addr 4) else (draw s).1 % 2 ^ 32

theorem leNat_lt (l : List Byte) : leNat l < 256 ^ l.length := by
  induction l with
  | nil => simp [leNat]
  | cons b l ih =>
    have hb := b.isLt
    rw [leNat, List.length_cons, Nat.pow_succ]
    omega

theorem scanWord_lt (s : State) : scanWord s < 2 ^ 32 := by
  unfold scanWord
  split
  · have h := leNat_lt (mreadN (s.tile s.gst.selTile).scratch s.gst.addr 4)
    rw [length_mreadN] at h
    exact h
  · exact Nat.mod_lt _ (by decide)

theorem exec_gstScanData (henabled : (s.func 0).enabled = true) (hforced : readForced s 0 .gst = none) (b : Bool) :
    exec (.gstScanData b) s = .next (if scanOpen s then scanned s b (scanWord s) else { s with out := .read 0 0 :: s.out }) := by
  refine (untimed_of s henabled : execGstScanData b s = _).trans ?_
  cases hopen : scanOpen s
  · simp [hforced, readEffect, emit]
  · simp only [hforced, Option.isSome_none, Bool.not_true, Bool.or_self, Bool.false_eq_true, if_false, if_true]
    rfl

theorem scanned_spec (s : State) (b : Bool) (v : Nat) :
    Out.read 0 (BitVec.ofNat 64 v) ∈ (scanned s b v).out
      ∧ (scanned s b v).gst = { s.gst with addr := s.gst.addr + 4, parityErr := s.gst.parityErr || b
                                           parityAt := if b then some (time s) else s.gst.parityAt }
      ∧ (b = true → s.coll.init = true → (0xAC02 : Code) ∈ (scanned s b v).coll.log) ∧ (b = false → (scanned s b v).coll = s.coll)
      ∧ (scanned s b v).tiles = s.tiles ∧ (scanned s b v).steps = s.steps := by
  have hdraw (w : State) : w = (if s.gst.selChain = 3 then s else (draw s).2) → w.gst = s.gst ∧ w.coll = s.coll ∧ w.tiles = s.tiles
      ∧ w.steps = s.steps ∧ time w = time s := by
    rintro rfl
    split <;> exact ⟨rfl, rfl, rfl, rfl, rfl⟩
  unfold scanned
  extract_lets w at'
  obtain ⟨hgst, hcoll, htiles, hsteps, htime⟩ := hdraw w rfl
  clear_value w
  have hparity : at' = if b then some (time s) else s.gst.parityAt := by simp only [at', htime, hgst]
  cases b
  · refine ⟨.head _, ?_, nofun, fun _ => hcoll, htiles, hsteps⟩
    show ({ w.gst with addr := w.gst.addr + 4, parityErr := w.gst.parityErr || false, parityAt := at' } : Gst) = _
    rw [hgst, hparity]
  · simp only [if_true]
    refine ⟨.head _, ?_, fun _ hinit => ?_, nofun, ?_, ?_⟩
    · show (reportCode _ 0xAC02).gst = _
      rw [reportCode_shape quiet_AC02]
      show ({ w.gst with addr := w.gst.addr + 4, parityErr := w.gst.parityErr || true, parityAt := at' } : Gst) = _
      rw [hgst, hparity]
      rfl
    · exact mem_log_reportCode quiet_AC02 (by decide) (by show w.coll.init = true; rw [hcoll, hinit])
    · show (reportCode _ 0xAC02).tiles = _
      rw [reportCode_shape quiet_AC02]
      exact htiles
    · show (reportCode _ 0xAC02).steps = _
      rw [reportCode_shape quiet_AC02]
      exact hsteps

/-- Settles O50. -/
theorem globalStop : Obligations.GlobalStop := by
  unfold Obligations.GlobalStop
  have hadvance (s : State) (now : Nat) : writable (advance s now) 0 .gst = writable s 0 .gst := by
    rw [advance_eq]
    rfl
  refine ⟨?_, ?_, ?_, ?_, ?_⟩
  case refine_1 =>
    intro s now b hw
    have hexec : execGstStop now b s = _ := timed_of s (by rw [hadvance, hw])
    refine ⟨fun hb hstopped hgrant => ?_, fun hno => hexec.trans ?_⟩
    · have htraces := startStop_traces (advance s now) 1
      rw [gstStart, if_neg (by simp [hb, hstopped, hgrant])] at hexec
      have hrest := htraces.rest
      generalize startStop (advance s now) 1 = t at hexec hrest
      refine ⟨t, hexec, ?_, ?_, ?_, ?_, ?_, ?_, ?_⟩ <;> rw [hrest]
      · rw [advance_eq]
        rfl
      · rfl
      · rfl
      · rfl
      · exact advance_steps s now
      · exact advance_tiles s now
      · exact advance_coll s now
    · rw [gstStart, if_pos]
      obtain h | h | h := hno <;> simp [h]
  case refine_2 =>
    intro s now hw
    have hexec : execGstRelease now s = _ := timed_of s (by rw [hadvance, hw])
    refine ⟨fun hstopped => ?_, fun hstopped => hexec.trans ?_⟩
    · have hstopped' : (advance s now).gst.stopped = true := by simpa using hstopped
      obtain ⟨hgst, hby, hheld, hpin, hsteps, htiles, hcoll, htime, hops⟩ := stopFreed_spec (advance s now)
      obtain ⟨hrsteps, hrtiles, hrops⟩ := stopRecorded_work (stopFreed (advance s now))
      have hrecorded := stopRecorded_ends (stopFreed (advance s now))
      rw [gstFree_of_stopped hstopped'] at hexec
      generalize stopRecorded (stopFreed (advance s now)) = r at *
      generalize stopFreed (advance s now) = f at *
      have hresets := StopStands.forAll (f := fun s e => if testingOf s e = none then beginEngineReset s e [] else s)
        (fun t e => by
          split
          · exact beginEngineReset_stop t e []
          · exact .refl t) ((r.coll.openFaults.map (·.engine)).dedup) r
      have hnotices := StopStands.forAll (fun t n => takeNotice_stop t n) (advance s now).gst.notices
        (forAll ((r.coll.openFaults.map (·.engine)).dedup) (fun s e => if testingOf s e = none then beginEngineReset s e [] else s) r)
      have hall := ((StopStands.of_ends hrecorded).trans hresets).trans hnotices
      refine ⟨_, hexec, ?_, ?_, fun hmessage => ?_, ?_, fun hquiet hclean => ?_⟩
      · rw [hall.gst, hgst, advance_gst]
      · rw [hall.pmc]
        exact hby
      · rw [hall.pmc]
        exact hheld (by simpa using hmessage)
      · rw [hall.pin, hpin]
      · have hnone : (advance s now).gst.notices = [] := by simpa using hquiet
        have hfaults : r.coll.openFaults = [] := by
          rw [hrecorded.rest]
          show f.coll.openFaults = []
          rw [hcoll]
          simpa using hclean
        have htime' : time r = time f := by
          rw [hrecorded.rest]
          rfl
        rw [hnone, hfaults]
        refine ⟨?_, ?_, ?_⟩
        · exact (hrsteps.trans hsteps).trans (advance_steps s now)
        · exact (hrtiles.trans htiles).trans (advance_tiles s now)
        · show r.remOps = s.remOps.map fun o => { o with last := o.last + (time r - s.gst.time) }
          rw [hrops, hops, htime', htime, advance_remOps, advance_gst]
    · rw [gstFree, if_pos (by simp [hstopped])]
  case refine_3 =>
    intro s now hmain hstopped hhalted
    have hguard : (up (advance s now) && (advance s now).gst.stopped && !(advance s now).gst.halted && windowsClosed (advance s now))
        = windowsClosed s := by
      have hsame : windowsClosed (advance s now) = windowsClosed s := by simp only [windowsClosed, advance_tiles]
      simp [up, hmain, hstopped, hhalted, hsame]
    refine ⟨fun hclosed => ?_, fun hopen => ?_⟩
    · refine ⟨_, (timed_of s (hguard.trans hclosed) : execGstHalted now s = _), ?_⟩
      rw [advance_gst, advance_eq]
    · exact (timed_of_not (hguard.trans hopen) : execGstHalted now s = _)
  case refine_4 =>
    intro s tile chain hw
    exact (untimed_of s hw : execGstScanSel tile chain s = _)
  case refine_5 =>
    intro s b henabled hforced
    have hexec := exec_gstScanData henabled hforced b
    refine ⟨fun p hhalted htile hfits howner hgrant => ?_, fun hno => hexec.trans ?_⟩
    · have hopen : scanOpen s = true := by simp [scanOpen, hhalted, htile, hfits, howner, hgrant]
      rw [if_pos hopen] at hexec
      obtain ⟨hout, hgst, hlog, hcoll, htiles, hsteps⟩ := scanned_spec s b (scanWord s)
      exact ⟨_, scanWord s, hexec, hout, scanWord_lt s, hgst, fun hchain => if_pos hchain, hlog, hcoll, htiles, hsteps⟩
    · rw [if_neg]
      obtain h | h | ⟨p, howner, hgrant⟩ := hno
      · simp [scanOpen, h]
      · simp [scanOpen, h]
      · simp [scanOpen, howner, hgrant]

end Sys2Proof.Machine

/-! PROOFS. Requests answered later, and memory objects (R286 to R289, R336, R349). -/

namespace Sys2Proof.Machine

open Sys2Proof.Claims

variable {s t u : State} {m : Msg} {p : Nat}

/-! ### The sender of a message after other effects -/

/-- What the sender has taken and is owed is as the taking of `m` left it. -/
structure SenderStands (s t : State) (m : Msg) : Prop where
  rsps : (t.func m.func).rsps = (s.func m.func).rsps
  taken : (t.func m.func).taken = (s.func m.func).taken ++ [takenFrom m]
  reqHead : (t.func m.func).reqHead = if m.boot then (s.func m.func).reqHead else ((s.func m.func).reqHead + 1) % 65536

theorem SenderStands.of_take (s : State) (m : Msg) : SenderStands s (take s m) m := by
  refine ⟨?_, ?_, ?_⟩ <;> rw [func_take_sender]

theorem SenderStands.of_spent (s : State) (m : Msg) : SenderStands s (spent s m) m := by
  refine ⟨?_, ?_, ?_⟩ <;> rw [func_spent_sender]

theorem SenderStands.of_funcs (h : SenderStands s t m) (hfuncs : u.funcs = t.funcs) : SenderStands s u m := by
  have hfunc : u.func m.func = t.func m.func := by rw [State.func, State.func, hfuncs]
  exact ⟨by rw [hfunc, h.rsps], by rw [hfunc, h.taken], by rw [hfunc, h.reqHead]⟩

/-- Event entries do not touch what a function is owed. -/
theorem SenderStands.of_funcEnds (h : SenderStands s t m) (hfunc : FuncEnds (t.func m.func) (u.func m.func)) : SenderStands s u m := by
  refine ⟨?_, ?_, ?_⟩ <;> rw [hfunc]
  exacts [h.rsps, h.taken, h.reqHead]

theorem SenderStands.pends (h : SenderStands s t m) : Pends s t m := ⟨h.rsps, h.taken⟩

theorem SenderStands.takenOf (h : SenderStands s t m) : takenOf t m.func m.tag = some (takenFrom m) := by
  rw [Machine.takenOf, h.taken, List.reverse_append]
  simp [takenFrom]

/-- A message is answered at once, whatever else its effect was. -/
theorem SenderStands.answered (h : SenderStands s t m) (status detail : Nat) (payload ext : List Byte) (waits : Bool) :
    ∃ fs, answerWith t m.func m.tag status detail payload ext waits = { t with funcs := fs }
      ∧ Answered s { t with funcs := fs } m (rspTo m status detail payload ext waits)
      ∧ (∀ g, g ≠ m.func → ({ t with funcs := fs } : State).func g = t.func g)
      ∧ ({ t with funcs := fs } : State).func m.func = { t.func m.func with
          taken := (({ t with funcs := fs } : State).func m.func).taken, rsps := (({ t with funcs := fs } : State).func m.func).rsps } := by
  have hans : answerWith t m.func m.tag status detail payload ext waits = t.modFunc m.func fun x =>
      { x with taken := x.taken.erase (takenFrom m), rsps := x.rsps ++ [rspTo m status detail payload ext waits] } := by
    rw [answerWith, h.takenOf]
    rfl
  refine ⟨_, answerWith_rest .., ?_, fun g hg => ?_, ?_⟩ <;> rw [← answerWith_rest, hans]
  · refine ⟨?_, ?_⟩ <;> rw [func_modFunc_self]
    · exact congrArg (· ++ _) h.rsps
    · exact h.reqHead
  · exact func_modFunc_ne _ _ hg
  · rw [func_modFunc_self]

/-- A request kept until now is answered. -/
theorem answerWith_answers {k : Taken} {f tag : Nat} (h : takenOf s f tag = some k) (status detail : Nat) (payload ext : List Byte)
    (waits : Bool) : ∃ r : Rsp, (∃ fs, answerWith s f tag status detail payload ext waits = { s with funcs := fs })
      ∧ ((answerWith s f tag status detail payload ext waits).func f).rsps = (s.func f).rsps ++ [r]
      ∧ (∀ g, g ≠ f → (answerWith s f tag status detail payload ext waits).func g = s.func g)
      ∧ r.opcode = k.opcode ∧ r.tag = tag ∧ r.status = BitVec.ofNat 16 status ∧ r.detail = BitVec.ofNat 64 detail ∧ r.payload = payload := by
  refine ⟨{ opcode := k.opcode, tag, critical := k.critical, status := BitVec.ofNat 16 status, detail := BitVec.ofNat 64 detail
            payload, ext, boot := k.boot, waits }, ⟨_, answerWith_rest ..⟩, ?_, fun g hg => ?_, rfl, rfl, rfl, rfl, rfl⟩ <;>
    simp only [answerWith, h]
  · rw [func_modFunc_self]
  · exact func_modFunc_ne _ _ hg

theorem takenOf_congr (h : t.func f = s.func f) (tag : Nat) : takenOf t f tag = takenOf s f tag := by rw [takenOf, takenOf, h]

/-! ### Memory cleared -/

theorem mread_filter {m : Mem} (keep : Nat → Bool) (a : Nat) :
    mread (m.filter fun c => keep c.1) a = if keep a then mread m a else 0 := by
  induction m with
  | nil => simp [mread]
  | cons c m ih =>
    obtain ⟨b, v⟩ := c
    by_cases hb : b = a
    · subst hb
      cases hk : keep b
      · simpa [List.filter_cons, hk] using ih
      · simp [hk, mread]
    · cases hk : keep b <;> simp [hk, mread, ih, Ne.symm hb]

theorem mread_mclear (m : Mem) (a n c : Nat) : mread (mclear m a n) c = if a ≤ c ∧ c < a + n then 0 else mread m c := by
  have h := mread_filter (m := m) (fun c => !(a ≤ c && c < a + n)) c
  refine h.trans ?_
  by_cases hin : a ≤ c ∧ c < a + n <;> simp [hin]

/-! ### Objects -/

/-- R286: a range that is found lies in object space, apart from every range in use. -/
theorem findRange_free {used : List (Nat × Nat)} {space start n a : Nat} (h : findRange used space start n = some a) :
    a + n ≤ space ∧ ∀ u ∈ used, a + n ≤ u.1 ∨ u.1 + u.2 ≤ a := by
  have hok : (decide (a + n ≤ space) && used.all fun u => decide (a + n ≤ u.1 ∨ u.1 + u.2 ≤ a)) = true := by
    unfold findRange at h
    extract_lets ok ends at h
    split at h
    · next b hb =>
      obtain rfl := Option.some.inj h
      have hmem := (List.mem_filter.1 (minBy_mem id hb)).2
      rw [Bool.and_eq_true] at hmem
      exact hmem.2
    · have hmem := (List.mem_filter.1 (minBy_mem id h)).2
      rw [Bool.and_eq_true] at hmem
      exact hmem.2
  simpa using hok

/-- The object that MEM_ALLOC makes (R286, R287). -/
def newObj (s : State) (m : Msg) (c i a : Nat) : MemObj :=
  { live := true, gen := (memObj s (namedPart m) i).gen, ctx := c, ctxGen := (s.ctx c).gen, base := a, bytes := fld m.payload 8 8
    shared := bitOf (fld m.payload 17 1) 0, hostMap := bitOf (fld m.payload 17 1) 2
    zeroTag := if bitOf (fld m.payload 17 1) 1 then some (m.func, m.tag) else none }

theorem memAlloc_places (h : Passes s (ownMsg s m 0x0307 18 [] (decide (fld m.payload 17 1 < 8))) m)
    (hctx : ctxOf s (namedPart m) (fld m.payload 4 4) = some c)
    (hfits : ¬ (fld m.payload 8 8 % 65536 ≠ 0 ∨ fld m.payload 8 8 < 65536 ∨ objSpace (s.part (namedPart m)) < fld m.payload 8 8
      ∨ (s.part (namedPart m)).qObjects ≤ ((s.part (namedPart m)).objs.filter fun e => e.2.live).length))
    (hstart : startGranule s (namedPart m) (fld m.payload 16 1) = some g)
    (hindex : freeIndex (s.part (namedPart m)).objs (·.live) (s.part (namedPart m)).qObjects = some i)
    (hrange : findRange (usedRanges s (namedPart m)) (objSpace (s.part (namedPart m))) (g * objPart (s.part (namedPart m)))
      (fld m.payload 8 8) = some a) :
    exec (.memAlloc m) s = .next (applyAns (take s m) m (
      let t := (take s m).modPart (namedPart m) fun x => { x with objs := tput x.objs i (newObj s m c i a) }
      if bitOf (fld m.payload 17 1) 1 then .later t else .reply t 0 (objHandle t (namedPart m) i) (toLe 8 a) [] false)) := by
  have hexec : execMemAlloc m s = _ := mbx_of_passes h rfl
  have hctx' : msgCtx (take s m) m = some c := hctx
  have hstart' : startGranule (take s m) (namedPart m) (fld m.payload 16 1) = some g := hstart
  have hindex' : freeIndex ((take s m).part (namedPart m)).objs (·.live) ((take s m).part (namedPart m)).qObjects = some i := hindex
  have hrange' : findRange (usedRanges (take s m) (namedPart m)) (objSpace ((take s m).part (namedPart m)))
    (g * objPart ((take s m).part (namedPart m))) (fld m.payload 8 8) = some a := hrange
  simp only [hctx', hstart', hindex', hrange'] at hexec
  have hfits' : ¬ (fld m.payload 8 8 % 65536 ≠ 0 ∨ fld m.payload 8 8 < 65536 ∨ objSpace ((take s m).part (namedPart m)) < fld m.payload 8 8
    ∨ ((take s m).part (namedPart m)).qObjects ≤ (((take s m).part (namedPart m)).objs.filter fun e => e.2.live).length) := hfits
  rw [if_neg hfits'] at hexec
  exact hexec

theorem memAlloc_refuses (h : Passes s (ownMsg s m 0x0307 18 [] (decide (fld m.payload 17 1 < 8))) m)
    (hctx : ctxOf s (namedPart m) (fld m.payload 4 4) = some c)
    (hbad : fld m.payload 8 8 % 65536 ≠ 0 ∨ fld m.payload 8 8 < 65536 ∨ objSpace (s.part (namedPart m)) < fld m.payload 8 8
      ∨ (s.part (namedPart m)).qObjects ≤ ((s.part (namedPart m)).objs.filter fun e => e.2.live).length) :
    exec (.memAlloc m) s = .next (applyAns (take s m) m (.refuse 0x0740)) := by
  have hexec : execMemAlloc m s = _ := mbx_of_passes h rfl
  have hctx' : msgCtx (take s m) m = some c := hctx
  simp only [hctx'] at hexec
  have hbad' : fld m.payload 8 8 % 65536 ≠ 0 ∨ fld m.payload 8 8 < 65536 ∨ objSpace ((take s m).part (namedPart m)) < fld m.payload 8 8
    ∨ ((take s m).part (namedPart m)).qObjects ≤ (((take s m).part (namedPart m)).objs.filter fun e => e.2.live).length := hbad
  rw [if_pos hbad'] at hexec
  exact hexec

theorem exec_memFree (h : Passes s (ownMsg s m 0x0308 12 [] true) m) (hctx : ctxOf s (namedPart m) (fld m.payload 4 4) = some c) :
    exec (.memFree m) s = .next (applyAns (take s m) m (match objFor s (namedPart m) c (fld m.payload 8 4) with
      | none => .refuse 0x0741
      | some i => .done (reap ((take s m).modPart (namedPart m) fun x =>
          { x with objs := tput x.objs i { (tget x.objs i {}) with freeing := true } }) (namedPart m)))) := by
  have hexec : execMemFree m s = _ := mbx_of_passes h rfl
  have hctx' : msgCtx (take s m) m = some c := hctx
  have hobj : objFor (take s m) (namedPart m) c (fld m.payload 8 4) = objFor s (namedPart m) c (fld m.payload 8 4) := rfl
  simp only [hctx'] at hexec
  rw [hobj] at hexec
  exact hexec.trans (by cases objFor s (namedPart m) c (fld m.payload 8 4) <;> rfl)

/-- Whether an object is held does not depend on its leaving. -/
theorem objHeld_freeing (s : State) (p i : Nat) :
    objHeld (s.modPart p fun x => { x with objs := tput x.objs i { (tget x.objs i {}) with freeing := true } }) p i = objHeld s p i := by
  have hobj : memObj (s.modPart p fun x => { x with objs := tput x.objs i { (tget x.objs i {}) with freeing := true } }) p i
      = { memObj s p i with freeing := true } := by rw [memObj, part_modPart_self, tget_tput_self, memObj]
  simp only [objHeld, hobj, part_modPart_self]
  rfl

/-- R289: an object that is to go is gone when nothing names it. -/
theorem memObj_freed (s : State) (p i : Nat) (hlive : (memObj s p i).live = true) :
    memObj (reap (s.modPart p fun x => { x with objs := tput x.objs i { (tget x.objs i {}) with freeing := true } }) p) p i
      = if objHeld s p i then { memObj s p i with freeing := true } else { gen := ((memObj s p i).gen + 1) % 256 } := by
  have hobj : memObj (s.modPart p fun x => { x with objs := tput x.objs i { (tget x.objs i {}) with freeing := true } }) p i
      = { memObj s p i with freeing := true } := by rw [memObj, part_modPart_self, tget_tput_self, memObj]
  rw [memObj_reap, objHeld_freeing, hobj]
  cases objHeld s p i <;> simp [hlive]

/-- Settles O54. -/
theorem objects : Obligations.Objects := by
  unfold Obligations.Objects
  refine ⟨fun s m c => ?_, fun s now p i f tag k hready hactive hzero hk => ?_, fun s m c => ?_⟩
  · intro p bytes flags h hctx
    refine ⟨fun g i a hround hsize hspace hquota hstart hindex hrange => ?_,
      fun hbad => ⟨_, memAlloc_refuses h hctx hbad, replies_refuse s m _⟩⟩
    obtain ⟨hin, hapart⟩ := findRange_free hrange
    refine ⟨hin, hapart, ?_⟩
    have hfits : ¬ (bytes % 65536 ≠ 0 ∨ bytes < 65536 ∨ objSpace (s.part p) < bytes
        ∨ (s.part p).qObjects ≤ ((s.part p).objs.filter fun e => e.2.live).length) := by omega
    have hexec := memAlloc_places h hctx hfits hstart hindex hrange
    dsimp only at hexec
    have hself : memObj ((take s m).modPart (namedPart m) fun x => { x with objs := tput x.objs i (newObj s m c i a) }) p i
        = newObj s m c i a := by rw [memObj, part_modPart_self, tget_tput_self]
    have hother : ∀ j, j ≠ i → memObj ((take s m).modPart (namedPart m) fun x => { x with objs := tput x.objs i (newObj s m c i a) }) p j
        = memObj s p j := fun j hj => by
      rw [memObj, part_modPart_self, tget_tput_ne _ _ _ hj]
      rfl
    have hfuncs : ((take s m).modPart (namedPart m) fun x => { x with objs := tput x.objs i (newObj s m c i a) }).funcs
        = (take s m).funcs := rfl
    have hhbm : ((take s m).modPart (namedPart m) fun x => { x with objs := tput x.objs i (newObj s m c i a) }).hbm = s.hbm := rfl
    generalize (take s m).modPart (namedPart m) (fun x => { x with objs := tput x.objs i (newObj s m c i a) }) = t at *
    have hsender := (SenderStands.of_take s m).of_funcs hfuncs
    cases hlater : bitOf (fld m.payload 17 1) 1
    · rw [hlater] at hexec
      obtain ⟨fs, hans, hanswered, -, -⟩ := hsender.answered 0 (objHandle t (namedPart m) i) (toLe 8 a) [] false
      have hhandle : objHandle t (namedPart m) i = i + 65536 * (memObj s p i).gen := by
        rw [objHandle, hself]
        rfl
      rw [hhandle] at hans hanswered
      have hexec' := hexec.trans (congrArg _ ((congrArg (fun d => answerWith t m.func m.tag 0 d (toLe 8 a) [] false) hhandle).trans hans))
      refine ⟨_, hexec', fun _ => hanswered, fun h => absurd h nofun, ?_, hother, hhbm⟩
      show memObj t p i = { newObj s m c i a with zeroTag := (memObj t p i).zeroTag }
      rw [hself]
    · rw [hlater] at hexec
      refine ⟨_, hexec, fun h => absurd h nofun, fun _ => ⟨hsender.pends, ?_⟩, ?_, hother, hhbm⟩
      · show (memObj t p i).zeroTag = _
        rw [hself, newObj, hlater]
        rfl
      · show memObj t p i = { newObj s m c i a with zeroTag := (memObj t p i).zeroTag }
        rw [hself]
  · have hexec : execZeroFillDone now p i s = _ := timed_of s (by
      have hactive' : active (advance s now) p = active s p := by rw [advance_eq]; rfl
      have hobj : memObj (advance s now) p i = memObj s p i := by rw [advance_eq]; rfl
      rw [ready_advance, hready, hactive', hactive, hobj, hzero]
      rfl)
    have hobj : memObj (advance s now) p i = memObj s p i := by rw [advance_eq]; rfl
    simp only [hobj, hzero] at hexec
    generalize hw : (hbmClear (advance s now) p (memObj s p i).base (memObj s p i).bytes).modPart p
      (fun x => { x with objs := tput x.objs i { memObj s p i with zeroTag := none } }) = w at hexec
    have hself : memObj w p i = { memObj s p i with zeroTag := none } := by
      rw [← hw, memObj, part_modPart_self, tget_tput_self]
    have hfunc : ∀ g, w.func g = s.func g := fun g => by
      rw [← hw]
      exact congrArg (fun l => tget l g {}) (advance_funcs s now)
    have hhbm : w.hbm = mclear s.hbm (hbmAddr p (memObj s p i).base) (memObj s p i).bytes := by
      rw [← hw]
      show mclear (advance s now).hbm _ _ = _
      rw [advance_hbm]
    obtain ⟨r, ⟨fs, hans⟩, hrsps, -, -, htag, hstatus, hdetail, hpayload⟩ := answerWith_answers
      ((takenOf_congr (hfunc f) tag).trans hk) 0 (objHandle w p i) (toLe 8 (memObj s p i).base) [] false
    rw [hfunc] at hrsps
    have hhandle : objHandle w p i = i + 65536 * (memObj s p i).gen := by rw [objHandle, hself]
    refine ⟨_, r, hexec, ?_, fun a ha => ?_, fun a ha => ?_, hrsps, htag, hstatus, by rw [hdetail, hhandle], hpayload⟩ <;> rw [hans]
    · exact hself
    · show mread w.hbm _ = 0
      rw [hhbm, mread_mclear, if_pos]
      simp only [hbmAddr]
      omega
    · show mread w.hbm _ = _
      rw [hhbm, mread_mclear, if_neg]
      simp only [hbmAddr] at ha ⊢
      omega
  · intro p h hctx
    have hexec := exec_memFree h hctx
    refine ⟨fun i hobj => ?_, fun hobj => ?_⟩
    · have hlive : (memObj s p i).live = true := by
        obtain ⟨hcur, -⟩ := Option.filter_eq_some_iff.1 hobj
        exact (objOf_some hcur).2.1
      rw [hobj] at hexec
      have hfreed := memObj_freed (take s m) p i hlive
      have hfuncs : (reap ((take s m).modPart (namedPart m) fun x =>
          { x with objs := tput x.objs i { (tget x.objs i {}) with freeing := true } }) (namedPart m)).funcs = (take s m).funcs := rfl
      have hrest : (reap ((take s m).modPart (namedPart m) fun x =>
          { x with objs := tput x.objs i { (tget x.objs i {}) with freeing := true } }) (namedPart m)).hbm = s.hbm
          ∧ (reap ((take s m).modPart (namedPart m) fun x =>
          { x with objs := tput x.objs i { (tget x.objs i {}) with freeing := true } }) (namedPart m)).steps = s.steps := ⟨rfl, rfl⟩
      dsimp only at hexec
      change memObj (reap ((take s m).modPart (namedPart m) fun x =>
        { x with objs := tput x.objs i { (tget x.objs i {}) with freeing := true } }) (namedPart m)) p i = _ at hfreed
      generalize reap _ (namedPart m) = t at *
      obtain ⟨fs, hans, hanswered, -⟩ := answered_done (s := s) (m := m) hfuncs
      have hheld : objHeld (take s m) p i = objHeld s p i := rfl
      rw [hheld] at hfreed
      refine ⟨_, hexec.trans (congrArg _ hans), hanswered, hrest.1, hrest.2, fun hh => ?_, fun hh => ?_⟩
      · rw [hh] at hfreed
        exact hfreed
      · rw [hh] at hfreed
        exact hfreed
    · rw [hobj] at hexec
      exact ⟨_, hexec, replies_refuse s m _⟩

end Sys2Proof.Machine

/-! PROOFS. Fences (R290 to R294). -/

namespace Sys2Proof.Machine

open Sys2Proof.Claims

variable {s t u : State} {m : Msg} {p : Nat}

/-! ### Lists of steps that fail -/

theorem forAll_failStep_failsWith {l : List Nat} {c : Code} {st : Step} (hk : k ∈ l) (hst : tfind s.steps k = some st)
    (h : Undecided st) : FailsWith (forAll l (fun s k => failStep s k c) s) k c :=
  forAll_failsWith (fun t k => failWith_onlySlot t k c 0) (fun _ _ h => failWith_of_failed c 0 h)
    (fun _ ht => failWith_failsWith c 0 ht h) hk hst

theorem mem_slotsWhere {c : Step → Bool} {st : Step} (hst : tfind s.steps k = some st) (hc : c st = true) : k ∈ slotsWhere s c :=
  List.mem_map.2 ⟨(k, st), List.mem_filter.2 ⟨mem_of_tfind hst, hc⟩, rfl⟩

theorem failAll_failsWith {c : Step → Bool} {status : Code} {st : Step} (hst : tfind s.steps k = some st) (hc : c st = true)
    (h : Undecided st) : FailsWith (failAll s c status) k status := forAll_failStep_failsWith (mem_slotsWhere hst hc) hst h

/-- A step that has failed stays failed when others, or it again, fail. -/
theorem failStep_failsWith_stands {c : Code} (h : FailsWith s k c) (j : Nat) (status : Code) : FailsWith (failStep s j status) k c :=
  failsWith_after (f := fun s j => failStep s j status) (fun t j => failWith_onlySlot t j status 0)
    (fun _ _ h => failWith_of_failed status 0 h) h

/-- What a change of every listed step leaves alone stands. -/
theorem map_forAll_modStep {α : Type} (g : Step → α) {f : Step → Step} (hf : ∀ x, g (f x) = g x) (l : List Nat) (s : State) (k : Nat) :
    (tfind (forAll l (fun s k => s.modStep k f) s).steps k).map g = (tfind s.steps k).map g := by
  induction l generalizing s with
  | nil => rfl
  | cons j l ih =>
    refine (ih _).trans ?_
    show (tfind (s.modStep j f).steps k).map g = _
    cases hst : tfind s.steps j with
    | none => simp only [State.modStep, hst]
    | some st =>
      rw [modStep_of_some s f hst]
      by_cases hk : k = j
      · subst hk
        rw [tfind_tput_self, hst, Option.map_some, Option.map_some, hf]
      · rw [tfind_tput_ne _ _ hk]

/-! ### A fence -/

/-- What a current handle names (R291). -/
theorem fenceFor_some {c h : Nat} (hfence : fenceFor s p c h = some i) :
    tfind (s.part p).fences i = some (tget (s.part p).fences i {}) ∧ (tget (s.part p).fences i {}).live = true
      ∧ (tget (s.part p).fences i {}).freeing = false := by
  obtain ⟨hcur, -⟩ := Option.filter_eq_some_iff.1 hfence
  unfold fenceOf at hcur
  split at hcur
  · next f hf =>
    split at hcur
    · next hok =>
      obtain rfl := Option.some.inj hcur
      rw [tget, hf]
      obtain ⟨-, hlive, -, hkept⟩ := hok
      exact ⟨rfl, hlive, by simpa using hkept⟩
    · exact absurd hcur nofun
  · exact absurd hcur nofun

theorem fenceWaiters_congr (hsteps : t.steps = s.steps)
    (hgen : (tget (t.part p).fences i {}).gen = (tget (s.part p).fences i {}).gen) : fenceWaiters t p i = fenceWaiters s p i := by
  have hnames : namesFence t p i = namesFence s p i := funext fun h => by simp only [namesFence, hgen]
  simp only [fenceWaiters, slotsWhere, hnames, hsteps]

/-- A fence with its state, its entry due and its waiters' view: the signalling but for the failing of steps. -/
def signalled (s : State) (p i : Nat) (f : Fence) (status : Nat) : State :=
  let ws := fenceWaiters s p i
  let s := s.modPart p fun x => { x with fences := tput x.fences i { f with status := some status } }
  let s := pushEntry s (s.part p).owner
    { cookie := f.cookie, handle := i + 65536 * f.gen, seq := ctxHandle f.ctx f.ctxGen, status := BitVec.ofNat 16 status,
      kind := 2, fenceVec := f.vector }
  forAll ws (fun s k => s.modStep k fun x => { x with waitView := viewAll x.waits i status x.waitView }) s

theorem signalFence_open {f : Fence} (hf : tfind (s.part p).fences i = some f) (hlive : f.live = true) (hopen : f.status = none)
    (status : Nat) : signalFence s p i status = if status = 0 then signalled s p i f status
      else forAll (fenceWaiters s p i) (fun s k => failStep s k 0x0754) (signalled s p i f status) := by
  have hgo : ¬ (!f.live || f.status.isSome) = true := by simp [hlive, hopen]
  rw [signalFence, hf]
  dsimp only
  rw [if_neg hgo]
  rfl

theorem signalFence_of_signalled {f : Fence} (hf : tfind (s.part p).fences i = some f) (hdone : f.status ≠ none) (status : Nat) :
    signalFence s p i status = s := by
  have hsome : f.status.isSome = true := Option.isSome_iff_ne_none.2 hdone
  simp [signalFence, hf, hsome]

theorem signalled_fences (s : State) (p i : Nat) (f : Fence) (status : Nat) :
    ((signalled s p i f status).part p).fences = tput (s.part p).fences i { f with status := some status } := by
  unfold signalled
  extract_lets ws w v
  have hparts : (forAll ws (fun s k => s.modStep k fun x => { x with waitView := viewAll x.waits i status x.waitView }) v).parts = v.parts :=
    forAll_keeps State.parts (fun t k => by unfold State.modStep; split <;> rfl) ws v
  have hv : v.parts = w.parts := rfl
  rw [State.part, hparts, hv]
  exact congrArg Part.fences (part_modPart_self s _ _)

theorem signalled_step (s : State) (p i : Nat) (f : Fence) (status : Nat) {st : Step} (hst : tfind s.steps k = some st)
    (hopen : Undecided st) : ∃ st', tfind (signalled s p i f status).steps k = some st' ∧ Undecided st' := by
  have hmap := map_forAll_modStep (fun st : Step => (st.fail, st.notedDone)) (f := fun x =>
    { x with waitView := viewAll x.waits i status x.waitView }) (fun _ => rfl) (fenceWaiters s p i)
    (pushEntry (s.modPart p fun x => { x with fences := tput x.fences i { f with status := some status } })
      ((s.modPart p fun x => { x with fences := tput x.fences i { f with status := some status } }).part p).owner
      { cookie := f.cookie, handle := i + 65536 * f.gen, seq := ctxHandle f.ctx f.ctxGen, status := BitVec.ofNat 16 status,
        kind := 2, fenceVec := f.vector }) k
  change (tfind (signalled s p i f status).steps k).map _ = (tfind s.steps k).map _ at hmap
  rw [hst] at hmap
  obtain ⟨st', hst', heq⟩ := Option.map_eq_some_iff.1 hmap
  exact ⟨st', hst', (congrArg Prod.fst heq).trans hopen.1, (congrArg Prod.snd heq).trans hopen.2⟩

theorem signalFence_fences {f : Fence} (hf : tfind (s.part p).fences i = some f) (hlive : f.live = true) (hopen : f.status = none)
    (status : Nat) : ((signalFence s p i status).part p).fences = tput (s.part p).fences i { f with status := some status } := by
  rw [signalFence_open hf hlive hopen, ← signalled_fences s p i f status]
  split
  · rfl
  · exact ((forAll_ends (fun t k => failStep_fails t k 0x0754) _ (signalled s p i f status)).part p).fences rfl

/-- R291: a status other than OK fails the steps that wait. -/
theorem signalFence_failsWith {f : Fence} (hf : tfind (s.part p).fences i = some f) (hlive : f.live = true) (hopen : f.status = none)
    {status : Nat} (hstatus : status ≠ 0) (hk : k ∈ fenceWaiters s p i) {st : Step} (hst : tfind s.steps k = some st)
    (hundecided : Undecided st) : FailsWith (signalFence s p i status) k 0x0754 := by
  obtain ⟨st', hst', hopen'⟩ := signalled_step s p i f status hst hundecided
  rw [signalFence_open hf hlive hopen, if_neg hstatus]
  exact forAll_failStep_failsWith hk hst' hopen'

/-- R291: the entry of a fence goes to the partition's owner. -/
theorem signalFence_due {f : Fence} (hf : tfind (s.part p).fences i = some f) (hlive : f.live = true) (hopen : f.status = none)
    (hflr : (s.func (s.part p).owner).inFlr = false) : Due s (signalFence s p i 0) (s.part p).owner
      { cookie := f.cookie, handle := i + 65536 * f.gen, seq := ctxHandle f.ctx f.ctxGen, status := 0, kind := 2, fenceVec := f.vector } := by
  rw [signalFence_open hf hlive hopen, if_pos rfl]
  unfold signalled
  extract_lets ws w v
  have howner : (w.part p).owner = (s.part p).owner := by rw [part_modPart_self]
  have hv : v.func (s.part p).owner = { s.func (s.part p).owner with evtQueue := (s.func (s.part p).owner).evtQueue ++
      [{ cookie := f.cookie, handle := i + 65536 * f.gen, seq := ctxHandle f.ctx f.ctxGen, status := 0, kind := 2, fenceVec := f.vector }] } := by
    have hfunc : w.func (s.part p).owner = s.func (s.part p).owner := rfl
    simp only [v, howner, pushEntry, func_modFunc_self, hfunc, hflr, Bool.false_eq_true, if_false]
    rfl
  have hfuncs : (forAll ws (fun s k => s.modStep k fun x => { x with waitView := viewAll x.waits i 0 x.waitView }) v).funcs = v.funcs :=
    forAll_keeps State.funcs (fun t k => by unfold State.modStep; split <;> rfl) ws v
  rw [Due, State.func, hfuncs]
  exact congrArg Func.evtQueue hv

/-- A fence that leaves is freed once no step waits on it (R294). -/
theorem fences_reap (s : State) (p i : Nat) : tfind ((reap s p).part p).fences i = (tfind (s.part p).fences i).map fun f =>
    if f.live && f.freeing && (fenceWaiters s p i).isEmpty then { gen := (f.gen + 1) % 256 } else f := by
  rw [reap, part_modPart_self, tfind_tmap]

/-- The fence leaves (R294). -/
def fenceLeft (s : State) (p i : Nat) : State :=
  reap (s.modPart p fun x => { x with fences := tput x.fences i { (tget x.fences i {}) with freeing := true } }) p

theorem fenceLeft_spec {f : Fence} (hf : tfind (s.part p).fences i = some f) (hlive : f.live = true) :
    tfind ((fenceLeft s p i).part p).fences i
      = some (if (fenceWaiters s p i).isEmpty then { gen := (f.gen + 1) % 256 } else { f with freeing := true }) := by
  have hget : tget (s.part p).fences i {} = f := by rw [tget, hf]; rfl
  have hleft : tfind ((s.modPart p fun x => { x with fences := tput x.fences i { (tget x.fences i {}) with freeing := true } }).part p).fences i
      = some { f with freeing := true } := by rw [part_modPart_self, tfind_tput_self, hget]
  have hwaiters : fenceWaiters (s.modPart p fun x => { x with fences := tput x.fences i { (tget x.fences i {}) with freeing := true } }) p i
      = fenceWaiters s p i := fenceWaiters_congr rfl (by rw [tget, hleft, hget]; rfl)
  rw [fenceLeft, fences_reap, hwaiters, hleft, Option.map_some]
  cases (fenceWaiters s p i).isEmpty <;> simp [hlive]

/-- The signalling of a fence without waiters changes no step. -/
theorem signalFence_steps {f : Fence} (hf : tfind (s.part p).fences i = some f) (hlive : f.live = true) (hopen : f.status = none)
    (hnone : fenceWaiters s p i = []) (status : Nat) : (signalFence s p i status).steps = s.steps := by
  rw [signalFence_open hf hlive hopen, signalled, hnone]
  split <;> rfl

/-! ### The messages -/

theorem flr_of_passes {sp : MsgSpec} (h : Passes s sp m) : (s.func m.func).inFlr = false := by
  obtain ⟨htakes, -⟩ := h
  split at htakes
  · simp only [canBoot, Bool.and_eq_true, Bool.not_eq_true'] at htakes
    tauto
  · simp only [canTake, wants, Bool.and_eq_true, Bool.not_eq_true'] at htakes
    tauto

theorem owner_of_passes {op len : Nat} {rsv : List (Nat × Nat)} {ranges : Bool} (h : Passes s (ownMsg s m op len rsv ranges) m) :
    active s (namedPart m) = true ∧ (s.part (namedPart m)).owner = m.func := by
  have hnamed : ownPart s m = true := h.2.2.1
  rw [ownPart, Bool.and_eq_true, beq_iff_eq] at hnamed
  exact hnamed

theorem fences_put (s : State) (p i : Nat) (g : Part → Fence) :
    ((s.modPart p fun x => { x with fences := tput x.fences i (g x) }).part p).fences = tput (s.part p).fences i (g (s.part p)) := by
  rw [part_modPart_self]

/-- The fence that FENCE_CREATE makes (R290). -/
def newFence (m : Msg) (gen ctx ctxGen : Nat) : Fence :=
  { live := true, gen, ctx, ctxGen, cookie := BitVec.ofNat 64 (fld m.payload 8 8), vector := fld m.payload 16 2
    timeout := fld m.payload 20 4, shared := bitOf (fld m.payload 24 1) 0, host := bitOf (fld m.payload 24 1) 1 }

theorem fenceCreate_exec (h : Passes s (ownMsg s m 0x0309 25 [(18, 2)] (decide (fld m.payload 24 1 < 4))) m)
    (hctx : ctxOf s (namedPart m) (fld m.payload 4 4) = some c) : exec (.fenceCreate m) s = .next (applyAns (take s m) m
      (if (s.part (namedPart m)).qFences ≤ ((s.part (namedPart m)).fences.filter fun e => e.2.live).length
          ∨ (fld m.payload 16 2 ≠ 0xFFFF ∧ vectorCount m.func ≤ fld m.payload 16 2) then .refuse 0x0750
        else match freeIndex (s.part (namedPart m)).fences (·.live) (s.part (namedPart m)).qFences with
          | none => .refuse 0x0750
          | some i => .detail ((take s m).modPart (namedPart m) fun x =>
              { x with fences := tput x.fences i (newFence m (tget (s.part (namedPart m)).fences i {}).gen c (s.ctx c).gen) })
              (i + 65536 * (tget (s.part (namedPart m)).fences i {}).gen))) := by
  have hexec : exec (.fenceCreate m) s = _ := mbx_of_passes h rfl
  have hctx' : msgCtx (take s m) m = some c := hctx
  rw [hctx'] at hexec
  exact hexec

theorem fenceMsg_eq {i : Nat} (hctx : ctxOf s (namedPart m) (fld m.payload 4 4) = some c)
    (hfence : fenceFor s (namedPart m) c (fld m.payload 8 4) = some i) (f : Nat → Ans) : fenceMsg (take s m) m f = f i := by
  have hctx' : msgCtx (take s m) m = some c := hctx
  have hfence' : fenceFor (take s m) (namedPart m) c (fld m.payload 8 4) = some i := hfence
  simp only [fenceMsg, hctx', hfence']

theorem fenceSignal_exec {i : Nat} (h : Passes s (ownMsg s m 0x030A 13 [] (decide (fld m.payload 12 1 ≤ 1))) m)
    (hctx : ctxOf s (namedPart m) (fld m.payload 4 4) = some c) (hfence : fenceFor s (namedPart m) c (fld m.payload 8 4) = some i) :
    exec (.fenceSignal m) s = .next (applyAns (take s m) m
      (if !(tget (s.part (namedPart m)).fences i {}).host || (tget (s.part (namedPart m)).fences i {}).status.isSome then .refuse 0x0753
        else .done (signalFence (take s m) (namedPart m) i (fld m.payload 12 1)))) := by
  have hexec : exec (.fenceSignal m) s = _ := mbx_of_passes h rfl
  rw [fenceMsg_eq hctx hfence] at hexec
  exact hexec

theorem fenceReset_exec {i : Nat} (h : Passes s (ownMsg s m 0x030B 12 [] true) m)
    (hctx : ctxOf s (namedPart m) (fld m.payload 4 4) = some c) (hfence : fenceFor s (namedPart m) c (fld m.payload 8 4) = some i) :
    exec (.fenceReset m) s = .next (applyAns (take s m) m
      (if waiterPending s (namedPart m) i || signallerPending s (namedPart m) i then .refuse 0x0752
        else .done ((take s m).modPart (namedPart m) fun x =>
          { x with fences := tput x.fences i { (tget x.fences i {}) with status := none } }))) := by
  have hexec : exec (.fenceReset m) s = _ := mbx_of_passes h rfl
  rw [fenceMsg_eq hctx hfence] at hexec
  exact hexec

theorem fenceDestroy_exec {i : Nat} (h : Passes s (ownMsg s m 0x030C 12 [] true) m)
    (hctx : ctxOf s (namedPart m) (fld m.payload 4 4) = some c) (hfence : fenceFor s (namedPart m) c (fld m.payload 8 4) = some i) :
    exec (.fenceDestroy m) s = .next (applyAns (take s m) m (if signallerPending s (namedPart m) i then .refuse 0x0752
      else .done (fenceLeft (signalFence (take s m) (namedPart m) i 2) (namedPart m) i))) := by
  have hexec : exec (.fenceDestroy m) s = _ := mbx_of_passes h rfl
  rw [fenceMsg_eq hctx hfence] at hexec
  exact hexec

/-- A step that fails for want of a fence in time (R293). -/
def waitExpired (s : State) (slot j : Nat) : State := s.modStep slot fun x => { x with waitView := setView x.waitView j 3 }

theorem fenceTimeout_exec {now slot j : Nat} {st : Step} (hready : ready s = true) (hst : tfind s.steps slot = some st)
    (hstate : st.state = 1) (hj : j < 4) (hwait : nth st.waits j 0xFFFFFF ≠ 0xFFFFFF)
    (hlive : (tget (s.part st.part).fences (nth st.waits j 0xFFFFFF % 65536) {}).live = true)
    (hopen : (tget (s.part st.part).fences (nth st.waits j 0xFFFFFF % 65536) {}).status = none)
    (htimeout : (tget (s.part st.part).fences (nth st.waits j 0xFFFFFF % 65536) {}).timeout ≠ 0)
    (hlate : st.queuedAt + 1000 * (tget (s.part st.part).fences (nth st.waits j 0xFFFFFF % 65536) {}).timeout < time (advance s now)) :
    exec (.fenceTimeout now slot j) s = .next (failStep (waitExpired (advance s now) slot j) slot 0x0755) := by
  have hpart : (advance s now).part st.part = s.part st.part := by rw [advance_eq]; rfl
  refine (timed_of s ?_ : execFenceTimeout now slot j s = _)
  simp only [ready_advance, hready, advance_steps, hst, hpart, hstate, hlive, hopen, Bool.true_and, Bool.and_eq_true, bne_iff_ne, ne_eq,
    decide_eq_true_eq, beq_iff_eq]
  exact ⟨⟨⟨⟨⟨⟨trivial, hwait⟩, hj⟩, trivial⟩, trivial⟩, htimeout⟩, hlate⟩

theorem part_waitExpired (now slot j p : Nat) : (waitExpired (advance s now) slot j).part p = s.part p := by
  rw [waitExpired, State.part, modStep_parts, advance_parts]
  rfl

/-- A fence that was signalled and then leaves, with its waiters failed (R294). -/
theorem fenceDestroyed_spec {i : Nat} {f : Fence} (hf : tfind (s.part p).fences i = some f) (hlive : f.live = true) :
    (fenceWaiters s p i = [] → tfind ((fenceLeft (signalFence s p i 2) p i).part p).fences i = some { gen := (f.gen + 1) % 256 })
    ∧ (fenceWaiters s p i ≠ [] → f.status ≠ none →
      tfind ((fenceLeft (signalFence s p i 2) p i).part p).fences i = some { f with freeing := true }) := by
  by_cases hopen : f.status = none
  · refine ⟨fun hnone => ?_, fun _ hdone => absurd hopen hdone⟩
    have hfences := signalFence_fences hf hlive hopen 2
    have hsignalled : tfind ((signalFence s p i 2).part p).fences i = some { f with status := some 2 } := by
      rw [hfences, tfind_tput_self]
    have hwaiters : fenceWaiters (signalFence s p i 2) p i = [] :=
      (fenceWaiters_congr (signalFence_steps hf hlive hopen hnone 2) (by rw [tget, tget, hsignalled, hf]; rfl)).trans hnone
    rw [fenceLeft_spec hsignalled hlive, hwaiters]
    rfl
  · rw [signalFence_of_signalled hf hopen]
    refine ⟨fun hnone => ?_, fun hsome _ => ?_⟩ <;> rw [fenceLeft_spec hf hlive]
    · rw [hnone]
      rfl
    · rw [if_neg (by simpa using hsome)]

/-- Settles O55. -/
theorem fences : Obligations.Fences := by
  unfold Obligations.Fences
  refine ⟨fun s m c => ?_, fun s m c i => ?_, fun s now slot j st hready hst hstate hundecided hj => ?_⟩
  · intro p v flags h hctx
    have hexec := fenceCreate_exec h hctx
    refine ⟨fun i hroom hvec hfree => ?_, fun hfull => ?_⟩
    · intro g
      rw [if_neg (by simp only [v] at hvec; simp only [p] at hroom; omega), hfree] at hexec
      dsimp only at hexec
      obtain ⟨fs, hans, hanswered, hothers⟩ := answered_detail (s := s) (m := m)
        (t := (take s m).modPart p fun x => { x with fences := tput x.fences i (newFence m g c (s.ctx c).gen) }) rfl (i + 65536 * g)
      have hput := fences_put (take s m) p i fun _ => newFence m g c (s.ctx c).gen
      exact ⟨_, hexec.trans (congrArg _ hans), hanswered, hothers, (congrArg (tfind · i) hput).trans (tfind_tput_self ..),
        fun j hj => (congrArg (tfind · j) hput).trans (tfind_tput_ne _ _ hj), rfl⟩
    · rw [if_pos hfull] at hexec
      exact ⟨_, hexec, replies_refuse s m _⟩
  · intro p f hctx hfence
    obtain ⟨hf, hlive, -⟩ := fenceFor_some hfence
    refine ⟨fun h => ?_, fun h => ?_, fun h => ?_⟩
    · have hexec := fenceSignal_exec h hctx hfence
      obtain ⟨-, howner⟩ := owner_of_passes h
      have hflr := flr_of_passes h
      refine ⟨fun hhost hopen => ?_, fun hbad => ?_⟩
      · have hgo : ¬ (!f.host || f.status.isSome) = true := by simp [hhost, hopen]
        rw [if_neg hgo] at hexec
        have hft : tfind ((take s m).part p).fences i = some f := hf
        have hstands := (SenderStands.of_take s m).of_funcEnds
          ((signalFence_ends (take s m) p i (fld m.payload 12 1)).func m.func)
        obtain ⟨fs, hans, hanswered, -, hself⟩ := hstands.answered 0 0 [] [] false
        refine ⟨_, hexec.trans (congrArg _ hans), hanswered, ?_, fun hok => ?_, fun hstatus k st hk hst hund => ?_⟩
        · have hfences := signalFence_fences hft hlive hopen (fld m.payload 12 1)
          exact (congrArg (tfind · i) hfences).trans (tfind_tput_self ..)
        · have htake : ((take s m).func m.func).inFlr = false := by rw [func_take_sender]; exact hflr
          have hdue := signalFence_due hft hlive hopen (by
            have : ((take s m).part p).owner = m.func := howner
            rw [this]; exact htake)
          have hown : ((take s m).part p).owner = m.func := howner
          rw [hown, Due, func_take_sender, ← hok] at hdue
          exact ⟨_, (congrArg Func.evtQueue hself).trans hdue, rfl, rfl, rfl, rfl, rfl⟩
        · exact signalFence_failsWith hft hlive hopen hstatus hk hst hund
      · have hgo : (!f.host || f.status.isSome) = true := by
          rcases hbad with hhost | hdone
          · simp [hhost]
          · simp [Option.isSome_iff_ne_none.2 hdone]
        rw [if_pos hgo] at hexec
        exact ⟨_, hexec, replies_refuse s m _⟩
    · have hexec := fenceReset_exec h hctx hfence
      refine ⟨fun hwaiter hsignaller => ?_, fun hpending => ?_⟩
      · rw [if_neg (by rw [hwaiter, hsignaller]; decide)] at hexec
        obtain ⟨fs, hans, hanswered, hothers⟩ := answered_done (s := s) (m := m)
          (t := (take s m).modPart p fun x => { x with fences := tput x.fences i { (tget x.fences i {}) with status := none } }) rfl
        have hput := fences_put (take s m) p i fun x => { (tget x.fences i {}) with status := none }
        exact ⟨_, hexec.trans (congrArg _ hans), hanswered, hothers, (congrArg (tfind · i) hput).trans (tfind_tput_self ..), rfl⟩
      · rw [if_pos (Bool.or_eq_true_iff.2 hpending)] at hexec
        exact ⟨_, hexec, replies_refuse s m _⟩
    · have hexec := fenceDestroy_exec h hctx hfence
      refine ⟨fun hsignaller => ?_, fun hsignaller => ?_⟩
      · rw [if_neg (by rw [hsignaller]; decide)] at hexec
        have hft : tfind ((take s m).part p).fences i = some f := hf
        have hstands := ((SenderStands.of_take s m).of_funcEnds ((signalFence_ends (take s m) p i 2).func m.func)).of_funcs
          (u := fenceLeft (signalFence (take s m) p i 2) p i) rfl
        obtain ⟨fs, hans, hanswered, -⟩ := hstands.answered 0 0 [] [] false
        obtain ⟨hfreed, hkept⟩ := fenceDestroyed_spec (s := take s m) hft hlive
        exact ⟨_, hexec.trans (congrArg _ hans), hanswered, hfreed, hkept,
          fun k st hopen hk hst hund => signalFence_failsWith hft hlive hopen (by decide) hk hst hund⟩
      · rw [if_pos hsignaller] at hexec
        exact ⟨_, hexec, replies_refuse s m _⟩
  · intro h f hwait hlive hopen htimeout hlate
    have hexec := fenceTimeout_exec hready hst hstate hj hwait hlive hopen htimeout hlate
    have hadv : tfind (advance s now).steps slot = some st := by rw [advance_steps]; exact hst
    have hexp : tfind (waitExpired (advance s now) slot j).steps slot = some { st with waitView := setView st.waitView j 3 } := by
      rw [waitExpired, tfind_modStep_self _ _ hadv]
    obtain ⟨st', hst', hfail⟩ : FailsWith (failStep (waitExpired (advance s now) slot j) slot 0x0755) slot 0x0755 :=
      failWith_failsWith 0x0755 0 hexp hundecided
    have hfails := failStep_fails (waitExpired (advance s now) slot j) slot 0x0755
    refine ⟨_, st', hexec, ⟨st', hst', hfail⟩, hst', ?_, ?_, fun k hk => ?_⟩
    · have hkept := hfails.step slot
      rw [hst', hexp] at hkept
      exact congrArg Step.waitView (Option.some.inj hkept)
    · exact ((hfails.part st.part).fences rfl).trans (congrArg Part.fences (part_waitExpired now slot j st.part))
    · refine ((failWith_onlySlot (waitExpired (advance s now) slot j) slot 0x0755 0).others k hk).trans ?_
      rw [waitExpired, tfind_modStep_ne _ _ hk,
        advance_steps]

end Sys2Proof.Machine

/-! PROOFS. Contexts (R282 to R285, R446, R467 to R469). -/

namespace Sys2Proof.Machine

open Sys2Proof.Claims

variable {s t u : State} {m : Msg} {p c : Nat}

/-! ### A context that is torn down -/

/-- Fences of a context of generation `g`. -/
def ownFences (s : State) (p c g : Nat) : List Nat :=
  ((s.part p).fences.filter fun e => e.2.live && e.2.ctx == c && e.2.ctxGen == g).map (·.1)

/-- The steps and the fences of a context end. -/
def workTorn (s : State) (p c : Nat) (status : Code) : State :=
  let failed := failAll s (fun st => st.part == p && st.ctx == c && st.ctxGen == (s.ctx c).gen) status
  forAll (ownFences failed p c (s.ctx c).gen) (fun s i => signalFence s p i 2) failed

/-- The trace into an object of a context ends. -/
def traceTorn (s : State) (p c g : Nat) : State :=
  if (s.part p).trace.on && (memObj s p ((s.part p).trace.obj % 65536)).ctx == c
    && (memObj s p ((s.part p).trace.obj % 65536)).ctxGen == g then traceOff s p else s

/-- What a context holds in its partition leaves. -/
def partTorn (c g : Nat) (owned : List Nat) (y : Part) : Part :=
  { y with
    fences := tmap y.fences fun i f => if owned.contains i then { f with freeing := true } else f
    objs := tmap y.objs fun _ o => if o.live && o.ctx == c && o.ctxGen == g then { o with freeing := true } else o
    reservs := y.reservs.map fun r => if r.ctx = c ∧ r.ctxGen = g then { r with leaving := true } else r }

/-- The reservations of contexts that left, and that nothing holds any more, end. -/
def reservsSwept (s : State) (y : Part) : Part :=
  { y with reservs := y.reservs.filter fun r => !(r.leaving && !(s.quar.any fun q => q.2.ctx == r.ctx && q.2.ctxGen == r.ctxGen)
      && !(s.steps.any fun e => e.2.ctx == r.ctx && e.2.ctxGen == r.ctxGen)) }

/-- What a context holds leaves, and its number is free again. -/
def holdingsTorn (s : State) (p c g : Nat) (owned : List Nat) : State :=
  let s := (s.modPart p (partTorn c g owned)).modCtx c fun y => { gen := (y.gen + 1) % 256 }
  let s := { s with ctxFree := s.ctxFree ++ [c] }
  reap (s.modPart p (reservsSwept s)) p

/-- A context torn down, its own draining not yet answered. -/
def tornDown (s : State) (p c : Nat) (status : Code) : State :=
  holdingsTorn (traceTorn (workTorn s p c status) p c (s.ctx c).gen) p c (s.ctx c).gen
    (ownFences (failAll s (fun st => st.part == p && st.ctx == c && st.ctxGen == (s.ctx c).gen) status) p c (s.ctx c).gen)

theorem teardown_eq (s : State) (p c : Nat) (status : Code) :
    teardown s p c status = answerOpt (tornDown s p c status) (s.ctx c).drainTag 0 0 := rfl

theorem workTorn_ends (s : State) (p c : Nat) (status : Code) : Ends s (workTorn s p c status) :=
  (failAll_ends s _ status).trans (forAll_ends (fun t i => signalFence_ends t p i 2) _ _)

theorem traceTorn_rest (s : State) (p c g : Nat) : traceTorn s p c g = { s with parts := (traceTorn s p c g).parts } := by
  unfold traceTorn
  split
  · unfold traceOff
    extract_lets i
    split <;> rfl
  · rfl

theorem memObj_traceTorn (s : State) (p c g i : Nat) :
    memObj (traceTorn s p c g) p i = { memObj s p i with traceRef := (memObj (traceTorn s p c g) p i).traceRef } := by
  unfold traceTorn
  split
  · exact memObj_traceOff s p i
  · rfl

theorem holdingsTorn_rest (s : State) (p c g : Nat) (owned : List Nat) : holdingsTorn s p c g owned
    = { s with parts := (holdingsTorn s p c g owned).parts, ctxs := (holdingsTorn s p c g owned).ctxs, ctxFree := s.ctxFree ++ [c] } := rfl

theorem ctx_holdingsTorn_self (s : State) (p c g : Nat) (owned : List Nat) :
    (holdingsTorn s p c g owned).ctx c = { gen := ((s.ctx c).gen + 1) % 256 } := ctx_modCtx_self (s.modPart p (partTorn c g owned)) c fun y => { gen := (y.gen + 1) % 256 }

theorem ctx_holdingsTorn_ne (s : State) {d : Nat} (h : d ≠ c) (p g : Nat) (owned : List Nat) :
    (holdingsTorn s p c g owned).ctx d = s.ctx d := 
  ctx_modCtx_ne (s.modPart p (partTorn c g owned)) (fun y => { gen := (y.gen + 1) % 256 }) h

theorem part_reap (s : State) (p q : Nat) : (reap s p).part q
    = { s.part q with objs := ((reap s p).part q).objs, fences := ((reap s p).part q).fences } := by
  by_cases hq : q = p
  · subst hq
    rw [reap, part_modPart_self]
  · rw [reap, part_modPart_ne _ _ hq]

/-- R287: what was marked as leaving is gone or still leaving after the sweep. -/
theorem memObj_reap_leaves (h : (memObj s p i).live = false ∨ (memObj s p i).freeing = true) :
    (memObj (reap s p) p i).live = false ∨ (memObj (reap s p) p i).freeing = true := by
  rw [memObj_reap]
  split
  · exact .inl rfl
  · exact h

/-- The objects of the context leave (R467). -/
theorem memObj_holdingsTorn {o : MemObj} {i : Nat} (hobj : memObj s p i = o) (hctx : o.ctx = c) (hgen : o.ctxGen = g) (owned : List Nat) :
    (memObj (holdingsTorn s p c g owned) p i).live = false ∨ (memObj (holdingsTorn s p c g owned) p i).freeing = true := by
  unfold holdingsTorn
  extract_lets gone freed
  have hgone : gone.part p = partTorn c g owned (s.part p) := part_modPart_self s p _
  have hfreed : freed.part p = gone.part p := rfl
  have hleft : memObj (freed.modPart p (reservsSwept freed)) p i = if o.live then { o with freeing := true } else o := by
    rw [memObj, part_modPart_self, hfreed, hgone]
    simp only [reservsSwept, partTorn, tget, tfind_tmap]
    rw [memObj, tget] at hobj
    cases hfind : tfind (s.part p).objs i with
    | none =>
      rw [hfind] at hobj
      subst hobj
      rfl
    | some x =>
      rw [hfind] at hobj
      obtain rfl : x = o := hobj
      simp [hctx, hgen]
  refine memObj_reap_leaves ?_
  rw [hleft]
  cases hlive : o.live
  · exact .inl hlive
  · exact .inr rfl

theorem answerOpt_rest (s : State) (r : Option (Nat × Nat)) (status detail : Nat) :
    answerOpt s r status detail = { s with funcs := (answerOpt s r status detail).funcs } := by
  unfold answerOpt
  split
  · rfl
  · exact answerWith_rest ..

theorem ctx_answerOpt (s : State) (r : Option (Nat × Nat)) (status detail d : Nat) : (answerOpt s r status detail).ctx d = s.ctx d := by
  rw [answerOpt_rest]
  rfl

theorem tornDown_eq_rest (s : State) (p c : Nat) (status : Code) : tornDown s p c status = { workTorn s p c status with
    parts := (tornDown s p c status).parts, ctxs := (tornDown s p c status).ctxs
    ctxFree := (workTorn s p c status).ctxFree ++ [c] } := by
  unfold tornDown
  rw [holdingsTorn_rest, traceTorn_rest]

theorem teardown_eq_rest (s : State) (p c : Nat) (status : Code) : teardown s p c status = { workTorn s p c status with
    funcs := (teardown s p c status).funcs, parts := (tornDown s p c status).parts, ctxs := (tornDown s p c status).ctxs
    ctxFree := (workTorn s p c status).ctxFree ++ [c] } := by
  rw [teardown_eq, answerOpt_rest, tornDown_eq_rest]

theorem funcEnds_tornDown (s : State) (p c : Nat) (status : Code) (f : Nat) : FuncEnds (s.func f) ((tornDown s p c status).func f) := by
  rw [tornDown_eq_rest]
  exact (workTorn_ends s p c status).func f

/-- The number of a context that is torn down is free, under the next generation (R284). -/
theorem ctx_tornDown_self (s : State) (p c : Nat) (status : Code) :
    (tornDown s p c status).ctx c = { gen := ((s.ctx c).gen + 1) % 256 } := by
  have hctx : (traceTorn (workTorn s p c status) p c (s.ctx c).gen).ctx c = (workTorn s p c status).ctx c := by rw [traceTorn_rest]; rfl
  rw [tornDown, ctx_holdingsTorn_self, hctx, (workTorn_ends s p c status).ctx c]

theorem ctxEnds_tornDown (s : State) {d : Nat} (h : d ≠ c) (p : Nat) (status : Code) :
    CtxEnds (s.ctx d) ((tornDown s p c status).ctx d) := by
  have hctx : (traceTorn (workTorn s p c status) p c (s.ctx c).gen).ctx d = (workTorn s p c status).ctx d := by rw [traceTorn_rest]; rfl
  rw [tornDown, ctx_holdingsTorn_ne _ h, hctx]
  exact (workTorn_ends s p c status).ctx d

theorem ctx_teardown_self (s : State) (p c : Nat) (status : Code) :
    (teardown s p c status).ctx c = { gen := ((s.ctx c).gen + 1) % 256 } := by
  rw [teardown_eq, ctx_answerOpt, ctx_tornDown_self]

theorem ctxEnds_teardown (s : State) {d : Nat} (h : d ≠ c) (p : Nat) (status : Code) :
    CtxEnds (s.ctx d) ((teardown s p c status).ctx d) := by
  rw [teardown_eq, ctx_answerOpt]
  exact ctxEnds_tornDown s h p status

/-- A step that has failed stays failed when a fence is signalled. -/
theorem signalFence_failsWith_stands {k : Nat} {e : Code} (h : FailsWith s k e) (p i status : Nat) :
    FailsWith (signalFence s p i status) k e := by
  unfold signalFence
  split
  · exact h
  next f hf =>
    split
    · exact h
    extract_lets ws signalled posted viewed
    obtain ⟨st, hst, hfail⟩ := h
    have hmap : (tfind viewed.steps k).map Step.fail = (tfind s.steps k).map Step.fail :=
      map_forAll_modStep Step.fail (f := fun x => { x with waitView := viewAll x.waits i status x.waitView }) (fun _ => rfl) ws posted k
    rw [hst, Option.map_some, hfail] at hmap
    obtain ⟨st', hst', hfail'⟩ := Option.map_eq_some_iff.1 hmap
    have hviewed : FailsWith viewed k e := ⟨st', hst', hfail'⟩
    split
    · exact hviewed
    · exact forAll_rel (R := fun a b => FailsWith a k e → FailsWith b k e) (fun _ => id) (fun h h' => h' ∘ h)
        (fun t j ht => failStep_failsWith_stands ht j 0x0754) ws viewed hviewed

/-- The steps of the context end (R467). -/
theorem tornDown_failsWith {status : Code} {k : Nat} {st : Step} (hst : tfind s.steps k = some st) (hpart : st.part = p) (hctx : st.ctx = c)
    (hgen : st.ctxGen = (s.ctx c).gen) (hopen : Undecided st) : FailsWith (tornDown s p c status) k status := by
  have hfailed : FailsWith (failAll s (fun st => st.part == p && st.ctx == c && st.ctxGen == (s.ctx c).gen) status) k status :=
    failAll_failsWith hst (by simp [hpart, hctx, hgen]) hopen
  rw [tornDown_eq_rest]
  exact forAll_rel (R := fun a b => FailsWith a k status → FailsWith b k status) (fun _ => id) (fun h h' => h' ∘ h)
    (fun t i ht => signalFence_failsWith_stands ht p i 2) _ _ hfailed

/-- The objects of the context leave (R467). -/
theorem memObj_tornDown {o : MemObj} {i : Nat} (hobj : memObj s p i = o) (hctx : o.ctx = c) (hgen : o.ctxGen = (s.ctx c).gen)
    (status : Code) : (memObj (tornDown s p c status) p i).live = false ∨ (memObj (tornDown s p c status) p i).freeing = true := by
  have hworked : memObj (workTorn s p c status) p i = o := by
    rw [← hobj]
    refine memObj_congr ?_ i
    rw [((workTorn_ends s p c status).part p).rest]
  have htraced := memObj_traceTorn (workTorn s p c status) p c (s.ctx c).gen i
  rw [hworked] at htraced
  exact memObj_holdingsTorn rfl (by rw [htraced]; exact hctx) (by rw [htraced]; exact hgen) _

/-! ### Several contexts torn down -/

theorem forAll_teardown_ctx {l : List Nat} (hl : l.Nodup) (hc : c ∈ l) (s : State) (p : Nat) (status : Code) :
    ((forAll l (fun s c => teardown s p c status) s).ctx c).part = none
      ∧ ((forAll l (fun s c => teardown s p c status) s).ctx c).gen = ((s.ctx c).gen + 1) % 256 := by
  induction l generalizing s with
  | nil => exact absurd hc nofun
  | cons d l ih =>
    obtain ⟨hd, hl⟩ := List.nodup_cons.1 hl
    show ((forAll l _ (teardown s p d status)).ctx c).part = none ∧ ((forAll l _ (teardown s p d status)).ctx c).gen = _
    by_cases hcd : c = d
    · subst hcd
      have hstands : ∀ (l : List Nat) (t : State), c ∉ l → CtxEnds (t.ctx c) ((forAll l (fun s c => teardown s p c status) t).ctx c) := by
        intro l
        induction l with
        | nil => exact fun t _ => rfl
        | cons e l ih =>
          intro t hmem
          obtain ⟨hne, hmem⟩ := not_or.1 (List.mem_cons.not.1 hmem)
          have h1 := ctxEnds_teardown t hne p status
          have h2 := ih (teardown t p e status) hmem
          show CtxEnds (t.ctx c) ((forAll l _ (teardown t p e status)).ctx c)
          rw [CtxEnds, h2, h1]
      rw [hstands l (teardown s p c status) hd, ctx_teardown_self]
      exact ⟨rfl, rfl⟩
    · have hmem : c ∈ l := (List.mem_cons.1 hc).resolve_left hcd
      obtain ⟨hpart, hgen⟩ := ih hl hmem (teardown s p d status)
      exact ⟨hpart, by rw [hgen, ctxEnds_teardown s hcd p status]⟩

/-- The request `m` is the last that its function has taken, and no context is being drained for it. -/
structure LastTaken (s : State) (m : Msg) : Prop where
  last : ∃ l, (s.func m.func).taken = l ++ [takenFrom m]
  drains : ∀ c, (s.ctx c).drainTag ≠ some (m.func, m.tag)

theorem LastTaken.of_take (h : ∀ c, (s.ctx c).drainTag ≠ some (m.func, m.tag)) : LastTaken (take s m) m :=
  ⟨⟨_, (SenderStands.of_take s m).taken⟩, h⟩

/-- The answer to another request leaves the last one taken. -/
theorem taken_answerWith_last {l : List Taken} {f tag : Nat} (h : (s.func m.func).taken = l ++ [takenFrom m])
    (hne : (f, tag) ≠ (m.func, m.tag)) (status detail : Nat) :
    ∃ l, ((answer s f tag status detail).func m.func).taken = l ++ [takenFrom m] := by
  unfold answer answerWith
  split
  · exact ⟨l, h⟩
  next k hk =>
    have htag : k.tag = tag := by
      have := List.find?_some hk
      simpa using this
    by_cases hf : m.func = f
    · subst hf
      have hother : takenFrom m ≠ k := fun heq => hne (by rw [← htag, ← heq]; rfl)
      rw [func_modFunc_self, h, List.erase_append]
      split
      · exact ⟨_, rfl⟩
      · exact ⟨l, by rw [List.erase_of_not_mem (by simpa using Ne.symm hother)]⟩
    · rw [func_modFunc_ne _ _ hf]
      exact ⟨l, h⟩

theorem LastTaken.teardown (h : LastTaken s m) (p c : Nat) (status : Code) : LastTaken (teardown s p c status) m := by
  refine ⟨?_, fun d => ?_⟩
  · obtain ⟨l, hl⟩ := h.last
    have htorn : ((tornDown s p c status).func m.func).taken = l ++ [takenFrom m] := by rw [funcEnds_tornDown s p c status m.func, ← hl]
    rw [teardown_eq]
    unfold answerOpt
    split
    · exact ⟨l, htorn⟩
    · next f tag hdrain => exact taken_answerWith_last htorn (fun heq => h.drains c (by rw [hdrain, heq])) 0 0
  · by_cases hd : d = c
    · subst hd
      rw [ctx_teardown_self]
      exact nofun
    · rw [ctxEnds_teardown s hd p status]
      exact h.drains d

theorem LastTaken.answered (h : LastTaken s m) : ((answerWith s m.func m.tag 0 0 [] [] false).func m.func).rsps.getLast? = some (okTo m 0) := by
  obtain ⟨l, hl⟩ := h.last
  have htaken : takenOf s m.func m.tag = some (takenFrom m) := by
    rw [takenOf, hl, List.reverse_append]
    simp [takenFrom]
  rw [answerWith, htaken]
  dsimp only
  rw [func_modFunc_self, List.getLast?_append]
  rfl

/-! ### The messages -/

/-- The state in which a number is taken for a new context. -/
def ctxTaken (s : State) (c p : Nat) : State :=
  (if s.ctxNext < 4096 then { s with ctxNext := s.ctxNext + 1 } else { s with ctxFree := s.ctxFree.drop 1 }).modCtx c
    fun x => { gen := x.gen, part := some p }

theorem ctxTaken_rest (s : State) (c p : Nat) : ctxTaken s c p
    = { s with ctxs := (ctxTaken s c p).ctxs, ctxNext := (ctxTaken s c p).ctxNext, ctxFree := (ctxTaken s c p).ctxFree } := by
  unfold ctxTaken
  split <;> rfl

theorem ctx_ctxTaken_self (s : State) (c p : Nat) : (ctxTaken s c p).ctx c = { gen := (s.ctx c).gen, part := some p } := by
  rw [ctxTaken, ctx_modCtx_self]
  split <;> rfl

theorem ctx_ctxTaken_ne (s : State) {c d : Nat} (h : d ≠ c) (p : Nat) : (ctxTaken s c p).ctx d = s.ctx d := by
  rw [ctxTaken, ctx_modCtx_ne _ _ h]
  split <;> rfl

theorem contextCreate_exec (h : Passes s (ownMsg s m 0x0303 4 [] true) m) : exec (.contextCreate m) s = .next (applyAns (take s m) m
    (if (s.part (namedPart m)).qContexts ≤ (partCtxs s (namedPart m)).length then .refuse 0x0730
      else match nextCtx s with
        | none => .refuse 0x0730
        | some c => .detail (ctxTaken (take s m) c (namedPart m))
            (ctxHandle c (((ctxTaken (take s m) c (namedPart m))).ctx c).gen))) := mbx_of_passes h rfl

theorem contextDestroy_exec (h : Passes s (ownMsg s m 0x0304 9 [] (decide (fld m.payload 8 1 ≤ 1))) m) :
    exec (.contextDestroy m) s = .next (applyAns (take s m) m (match ctxOf s (namedPart m) (fld m.payload 4 4) with
      | none => .refuse 0x0731
      | some c =>
        if fld m.payload 8 1 = 0 then .done (teardown (take s m) (namedPart m) c 0x0D04)
        else if (s.ctx c).draining then .refuse 0x0731
        else if ctxBusy s c then .later ((take s m).modCtx c fun x => { x with draining := true, drainTag := some (m.func, m.tag) })
        else .done (teardown (take s m) (namedPart m) c 0x0D04))) := mbx_of_passes h rfl

/-- The steps of a context fail in a context reset (R446). -/
def ctxFailed (s : State) (c : Nat) : State := failAll s (fun st => st.ctx == c && st.ctxGen == (s.ctx c).gen) 0x0D01

theorem contextReset_exec (h : Passes s (ownMsg s m 0x0305 8 [] true) m) (hctx : ctxOf s (namedPart m) (fld m.payload 4 4) = some c) :
    exec (.contextReset m) s = .next (applyAns (take s m) m
      (match ((ctxFailed (take s m) c).part (namedPart m)).resetTags with
        | some l => .later ((ctxFailed (take s m) c).modPart (namedPart m) fun x => { x with resetTags := some (l ++ [(m.func, m.tag, none)]) })
        | none => .done (ctxFailed (take s m) c))) := by
  have hexec : exec (.contextReset m) s = _ := mbx_of_passes h rfl
  have hctx' : ctxOf (take s m) (namedPart m) (fld m.payload 4 4) = some c := hctx
  rw [hctx'] at hexec
  exact hexec

/-- The contexts that PROCESS_END names, where current. -/
def endedCtxs (s : State) (m : Msg) : List (Option Nat) :=
  (List.range (fld m.payload 4 1)).map fun i => ctxOf s (namedPart m) (fld m.payload (8 + 4 * i) 4)

/-- The row of PROCESS_END. -/
def processEndRow (s : State) (m : Msg) : MsgSpec :=
  { opcode := 0x0306, len := none
    rsv := [(1, 3), (5, 3), (8 + 4 * fld m.payload 4 1, roundUp (8 + 4 * fld m.payload 4 1) 8 - (8 + 4 * fld m.payload 4 1))]
    ranges := decide (1 ≤ fld m.payload 4 1 ∧ fld m.payload 4 1 ≤ 40 ∧ m.inlineBytes = roundUp (8 + 4 * fld m.payload 4 1) 8)
    named := ownPart s m }

theorem processEnd_exec (h : Passes s (processEndRow s m) m) :
    exec (.processEnd m) s = .next (applyAns (take s m) m (if (endedCtxs s m).any (· == none) then .refuse 0x0731
      else .done (forAll ((endedCtxs s m).filterMap id).dedup (fun s c => teardown s (namedPart m) c 0x0D04) (take s m)))) :=
  mbx_of_passes h rfl

theorem part_of_ctxOf {h : Nat} (hctx : ctxOf s p h = some c) : (s.ctx c).part = some p := by
  unfold ctxOf at hctx
  dsimp only at hctx
  split at hctx
  · next hok =>
    obtain rfl := Option.some.inj hctx
    exact hok.2.1
  · exact absurd hctx nofun

/-- Settles O53. -/
theorem contexts : Obligations.Contexts := by
  unfold Obligations.Contexts
  refine ⟨fun s m => ?_, fun s m => ?_, fun s m c => ?_, fun s m => ?_⟩
  · intro p h
    have hexec := contextCreate_exec h
    refine ⟨fun c hroom hnext => ?_, fun hfull => ?_⟩
    · have hfree : nextCtx s = some c := by
        unfold nextCtx
        split at hnext
        · next hlow => rw [if_pos hlow, hnext]
        · next hhigh => rw [if_neg hhigh, hnext]
      rw [if_neg (by simpa using hroom), hfree] at hexec
      dsimp only at hexec
      have hself := ctx_ctxTaken_self (take s m) c p
      have hothers : ∀ d, d ≠ c → (ctxTaken (take s m) c p).ctx d = s.ctx d := fun d hd => ctx_ctxTaken_ne (take s m) hd p
      have hrest := ctxTaken_rest (take s m) c p
      rw [hself] at hexec
      generalize ctxTaken (take s m) c p = t at *
      have hfuncs : t.funcs = (take s m).funcs := by rw [hrest]
      obtain ⟨fs, hans, hanswered, hkeep⟩ := answered_detail (s := s) (m := m) hfuncs (ctxHandle c (s.ctx c).gen)
      refine ⟨_, hexec.trans (congrArg _ hans), hanswered, hkeep, hself, hothers, ?_⟩
      rw [hrest]
      rfl
    · rw [if_pos hfull] at hexec
      exact ⟨_, hexec, replies_refuse s m _⟩
  · intro p h
    have hexec := contextDestroy_exec h
    refine ⟨fun hnone => ?_, fun c hctx hnow hdrain => ?_, fun c hctx hlater hdraining hbusy => ?_⟩
    · rw [hnone] at hexec
      exact ⟨_, hexec, replies_refuse s m _⟩
    · rw [hctx] at hexec
      dsimp only at hexec
      have hdrain' : ((take s m).ctx c).drainTag = none := hdrain
      have hself := ctx_tornDown_self (take s m) p c 0x0D04
      have hfree : c ∈ (tornDown (take s m) p c 0x0D04).ctxFree := by
        rw [tornDown_eq_rest]
        exact List.mem_append_right _ (List.mem_singleton_self c)
      have hfails : ∀ k st, tfind s.steps k = some st → st.part = p → st.ctx = c → st.ctxGen = (s.ctx c).gen → Undecided st →
          FailsWith (tornDown (take s m) p c 0x0D04) k 0x0D04 := fun k st hst hpart hc hgen hopen =>
        tornDown_failsWith (s := take s m) hst hpart hc hgen hopen
      have hobjs : ∀ i o, tfind (s.part p).objs i = some o → o.live = true → o.ctx = c → o.ctxGen = (s.ctx c).gen →
          (memObj (tornDown (take s m) p c 0x0D04) p i).live = false ∨ (memObj (tornDown (take s m) p c 0x0D04) p i).freeing = true :=
        fun i o ho _ hc hgen => memObj_tornDown (s := take s m) (o := o)
          (by rw [memObj, tget]; exact congrArg (Option.getD · {}) ho) hc hgen 0x0D04
      have hstands := (SenderStands.of_take s m).of_funcEnds (funcEnds_tornDown (take s m) p c 0x0D04 m.func)
      rw [if_pos hnow, teardown_eq, hdrain'] at hexec
      change exec (.contextDestroy m) s = .next (answerWith (tornDown (take s m) p c 0x0D04) m.func m.tag 0 0 [] [] false) at hexec
      generalize tornDown (take s m) p c 0x0D04 = t at *
      obtain ⟨fs, hans, hanswered, -⟩ := hstands.answered 0 0 [] [] false
      refine ⟨_, hexec.trans (congrArg _ hans), hanswered, congrArg Ctx.part hself, congrArg Ctx.gen hself, hfree, hfails, hobjs⟩
    · rw [hctx] at hexec
      dsimp only at hexec
      rw [if_neg hlater, if_neg (by rw [hdraining]; decide), if_pos hbusy] at hexec
      refine ⟨_, hexec, ((SenderStands.of_take s m).of_funcs rfl).pends, fun g hg => func_take_ne s hg,
        ctx_modCtx_self (take s m) c fun x => { x with draining := true, drainTag := some (m.func, m.tag) },
        fun d hd => ctx_modCtx_ne (take s m) (fun x => { x with draining := true, drainTag := some (m.func, m.tag) }) hd, rfl⟩
  · intro p h hctx
    have hexec := contextReset_exec h hctx
    have hends : Ends (take s m) (ctxFailed (take s m) c) := failAll_ends _ _ _
    have hstands := (SenderStands.of_take s m).of_funcEnds (hends.func m.func)
    have hpart : (s.ctx c).part = some p := part_of_ctxOf hctx
    have hfailed : ∀ k st, tfind s.steps k = some st → st.ctx = c → st.ctxGen = (s.ctx c).gen → Undecided st →
        FailsWith (ctxFailed (take s m) c) k 0x0D01 := fun k st hst hc hgen hopen =>
      failAll_failsWith (s := take s m) hst (by rw [hc, hgen]; simp [show (take s m).ctx c = s.ctx c from rfl]) hopen
    have hctxs : CtxEnds (s.ctx c) ((ctxFailed (take s m) c).ctx c) := hends.ctx c
    have hparts : PartEnds true (s.part p) ((ctxFailed (take s m) c).part p) := hends.part p
    generalize ctxFailed (take s m) c = t at *
    have hholder : (t.ctx c).part = some p := by rw [hctxs, ← hpart]
    have hgen : (t.ctx c).gen = (s.ctx c).gen := by rw [hctxs]
    have htags : (t.part p).resetTags = (s.part p).resetTags := by rw [hparts.rest]
    have hobjs : (t.part p).objs = (s.part p).objs := by rw [hparts.rest]
    rw [htags] at hexec
    cases hreset : (s.part p).resetTags with
    | none =>
      rw [hreset] at hexec
      obtain ⟨fs, hans, hanswered, -⟩ := hstands.answered 0 0 [] [] false
      exact ⟨_, hexec.trans (congrArg _ hans), hholder, hgen,
        fun _ => hanswered, fun _ => nofun, hfailed, hobjs⟩
    | some l =>
      rw [hreset] at hexec
      refine ⟨_, hexec, hholder, hgen, nofun, fun l' hl' => ?_, hfailed, ?_⟩
      · obtain rfl := Option.some.inj hl'
        exact ⟨(hstands.of_funcs rfl).pends,
          congrArg Part.resetTags (part_modPart_self t p fun x => { x with resetTags := some (l ++ [(m.func, m.tag, none)]) })⟩
      · exact (congrArg Part.objs (part_modPart_self t p fun x => { x with resetTags := some (l ++ [(m.func, m.tag, none)]) })).trans hobjs
  · intro p n len h
    have hexec := processEnd_exec h
    refine ⟨fun hall hdrains => ?_, fun hone => ?_⟩
    · have hsome : ¬ (endedCtxs s m).any (· == none) = true := by
        simp only [endedCtxs, List.any_map, List.any_eq_true, List.mem_range, Function.comp, beq_iff_eq, not_exists, not_and]
        intro i hi hnone
        obtain ⟨c, hc⟩ := hall i hi
        exact absurd (hc.symm.trans hnone) nofun
      rw [if_neg hsome] at hexec
      have hlast : LastTaken (forAll ((endedCtxs s m).filterMap id).dedup (fun s c => teardown s (namedPart m) c 0x0D04) (take s m)) m :=
        forAll_rel (R := fun a b => LastTaken a m → LastTaken b m) (fun _ => id) (fun h h' => h' ∘ h)
          (fun t c ht => ht.teardown _ _ _) _ _ (LastTaken.of_take hdrains)
      have hctxs : ∀ i c, i < n → ctxOf s p (fld m.payload (8 + 4 * i) 4) = some c →
          ((forAll ((endedCtxs s m).filterMap id).dedup (fun s c => teardown s (namedPart m) c 0x0D04) (take s m)).ctx c).part = none
            ∧ ((forAll ((endedCtxs s m).filterMap id).dedup (fun s c => teardown s (namedPart m) c 0x0D04) (take s m)).ctx c).gen
              = ((s.ctx c).gen + 1) % 256 := fun i c hi hc =>
        forAll_teardown_ctx (List.nodup_dedup _) (List.mem_dedup.2 (List.mem_filterMap.2
          ⟨some c, List.mem_map.2 ⟨i, List.mem_range.2 hi, hc⟩, rfl⟩)) (take s m) p 0x0D04
      generalize forAll ((endedCtxs s m).filterMap id).dedup (fun s c => teardown s (namedPart m) c 0x0D04) (take s m) = t at *
      refine ⟨_, hexec, hlast.answered, fun i c hi hc => ?_⟩
      have hctx : (applyAns (take s m) m (.done t)).ctx c = t.ctx c := by
        show (answerWith t m.func m.tag 0 0 [] [] false).ctx c = _
        rw [answerWith_rest]
        rfl
      rw [hctx]
      exact hctxs i c hi hc
    · obtain ⟨i, hi, hnone⟩ := hone
      have hmissing : (endedCtxs s m).any (· == none) = true :=
        List.any_eq_true.2 ⟨none, List.mem_map.2 ⟨i, List.mem_range.2 hi, hnone⟩, rfl⟩
      rw [if_pos hmissing] at hexec
      exact ⟨_, hexec, replies_refuse s m _⟩

end Sys2Proof.Machine

/-! PROOFS. Partitions created and destroyed (R270 to R275, R499, R500). -/

namespace Sys2Proof.Machine

open Sys2Proof.Claims

variable {s t u : State} {m : Msg} {p c : Nat}

/-! ### What ends with a partition -/

/-- Between `s` and `t` contexts were destroyed and windows closed; generations, grants and queues stand. -/
structure Quits (s t : State) : Prop where
  partGen : t.partGen = s.partGen
  grants : t.grants = s.grants
  queues : t.queues = s.queues
  window : ∀ w, WindowEnds (s.window w) (t.window w)
  ctx : ∀ c, (t.ctx c).part = none ∨ (t.ctx c).part = (s.ctx c).part

theorem Quits.refl (s : State) : Quits s s := ⟨rfl, rfl, rfl, fun _ => .refl _, fun _ => .inr rfl⟩

theorem Quits.trans (h : Quits s t) (h' : Quits t u) : Quits s u where
  partGen := h'.partGen.trans h.partGen
  grants := h'.grants.trans h.grants
  queues := h'.queues.trans h.queues
  window w := (h.window w).trans (h'.window w)
  ctx c := (h'.ctx c).elim .inl fun hc => (h.ctx c).imp hc.trans hc.trans

theorem Quits.of_ends (h : Ends s t) : Quits s t where
  partGen := by rw [h.rest]
  grants := by rw [h.rest]
  queues := by rw [h.rest]
  window := h.window
  ctx c := .inr (by rw [h.ctx c])

/-- A change of partitions, functions, jobs and ports alone. -/
theorem Quits.of_eq (h : t = { s with parts := t.parts, funcs := t.funcs, jobs := t.jobs, ports := t.ports }) : Quits s t := by
  rw [h]
  exact ⟨rfl, rfl, rfl, fun _ => .refl _, fun _ => .inr rfl⟩

theorem forAll_quits {α : Type} {f : State → α → State} (hf : ∀ t x, Quits t (f t x)) (l : List α) (s : State) : Quits s (forAll l f s) :=
  forAll_rel Quits.refl Quits.trans hf l s

theorem teardown_quits (s : State) (p c : Nat) (status : Code) : Quits s (teardown s p c status) := by
  have hends := workTorn_ends s p c status
  have hrest := teardown_eq_rest s p c status
  refine ⟨?_, ?_, ?_, fun w => ?_, fun d => ?_⟩
  · rw [hrest, hends.rest]
  · rw [hrest, hends.rest]
  · rw [hrest, hends.rest]
  · have hwindow : (teardown s p c status).window w = (workTorn s p c status).window w := by rw [hrest]; rfl
    rw [hwindow]
    exact hends.window w
  · by_cases hd : d = c
    · subst hd
      exact .inl (by rw [ctx_teardown_self])
    · exact .inr (by rw [ctxEnds_teardown s hd p status])

theorem deleteJob_quits (s : State) (j : Nat) : Quits s (deleteJob s j) := by
  unfold deleteJob
  extract_lets failed closed
  have hfailed : Quits s failed := .of_ends (failAll_ends s _ _)
  have hclosed : Quits failed closed := .of_ends (closeWindows_ends failed _)
  exact (hfailed.trans hclosed).trans (.of_eq rfl)

theorem dropJob_quits (s : State) (j : Nat) : Quits s (dropJob s j) := by
  unfold dropJob
  extract_lets x
  exact (Quits.of_ends (forAll_ends (fun t k => sendCtl_ends t _ _ _ _) _ s)).trans (deleteJob_quits _ j)

theorem answer_quits (s : State) (f tag status detail : Nat) : Quits s (answer s f tag status detail) := by
  refine .of_eq ?_
  rw [answer, answerWith_rest]

theorem abandonRequests_quits (s : State) (p : Nat) : Quits s (abandonRequests s p) :=
  ((forAll_quits (fun t _ => answer_quits t _ _ _ _) _ s).trans (forAll_quits (fun t _ => answer_quits t _ _ _ _) _ _)).trans
    (forAll_quits (fun t _ => answer_quits t _ _ _ _) _ _)

theorem mem_partCtxs (h : (s.ctx c).part = some p) : c ∈ partCtxs s p := by
  rw [State.ctx, tget] at h
  cases hc : tfind s.ctxs c with
  | none =>
    rw [hc] at h
    exact absurd h nofun
  | some x =>
    rw [hc] at h
    exact List.mem_map.2 ⟨(c, x), List.mem_filter.2 ⟨mem_of_tfind hc, beq_iff_eq.2 h⟩, rfl⟩

/-- A context that is one of those torn down is in no partition. -/
theorem forAll_teardown_free {l : List Nat} (hc : c ∈ l) (s : State) (p : Nat) (status : Code) :
    ((forAll l (fun s c => teardown s p c status) s).ctx c).part = none := by
  induction l generalizing s with
  | nil => exact absurd hc nofun
  | cons d l ih =>
    rcases List.mem_cons.1 hc with rfl | hmem
    · have hquits := forAll_quits (fun t c => teardown_quits t p c status) l (teardown s p c status)
      exact (hquits.ctx c).elim id fun h => h.trans (by rw [ctx_teardown_self])
    · exact ih hmem _

/-- No context of the partition is left (R274). -/
theorem ctxs_torn (s : State) (p c : Nat) (status : Code) :
    ((forAll (partCtxs s p) (fun s c => teardown s p c status) s).ctx c).part ≠ some p := by
  by_cases hc : (s.ctx c).part = some p
  · rw [forAll_teardown_free (mem_partCtxs hc)]
    exact nofun
  · intro hpart
    rcases (forAll_quits (fun t c => teardown_quits t p c status) (partCtxs s p) s).ctx c with h | h
    · exact absurd (hpart.symm.trans h) nofun
    · exact hc (h.symm.trans hpart)

/-! ### Windows that close -/

theorem closeWindow_closes {w : Nat} (h : w ≠ 0x3FF) (s : State) : ((closeWindow s w).window w).isOpen = false := by
  unfold closeWindow
  split
  · next hkept => exact hkept.resolve_left h
  · show (tget (tput s.windows w _) w {}).isOpen = false
    rw [tget_tput_self]

theorem forAll_closeWindow_closed {w : Nat} (l : List (Nat × Window)) (hs : (s.window w).isOpen = false) :
    ((forAll l (fun s e => closeWindow s e.1) s).window w).isOpen = false := by
  have hends : Fails s (forAll l (fun s e => closeWindow s e.1) s) := forAll_ends (fun t (e : Nat × Window) => closeWindow_fails t e.1) l s
  rw [← Bool.not_eq_true]
  intro hopen
  rw [hends.window w hopen, hs] at hopen
  exact absurd hopen (by decide)

theorem forAll_closeWindow_closes {w : Nat} {x : Window} {l : List (Nat × Window)} (hw : w ≠ 0x3FF) (hx : (w, x) ∈ l) (s : State) :
    ((forAll l (fun s e => closeWindow s e.1) s).window w).isOpen = false := by
  induction l generalizing s with
  | nil => exact absurd hx nofun
  | cons e l ih =>
    rcases List.mem_cons.1 hx with rfl | hmem
    · exact forAll_closeWindow_closed l (closeWindow_closes hw s)
    · exact ih hmem _

/-- No window that was to close is open, but the control window (R458). -/
theorem closeWindows_closes {d : Window → Bool} {w : Nat} (hw : w ≠ 0x3FF) (hopen : ((closeWindows s d).window w).isOpen = true) :
    d ((closeWindows s d).window w) = false := by
  have hstands : (closeWindows s d).window w = s.window w := (closeWindows_ends s d).window w hopen
  rw [hstands] at hopen ⊢
  rw [← Bool.not_eq_true]
  intro hd
  have hmem : (w, s.window w) ∈ s.windows.filter fun e => e.2.isOpen && d e.2 := by
    refine List.mem_filter.2 ⟨mem_of_tfind ?_, by rw [hopen, hd]; rfl⟩
    rw [State.window, tget] at hopen ⊢
    cases htab : tfind s.windows w with
    | none =>
      rw [htab] at hopen
      exact absurd hopen (by decide)
    | some x => rfl
  have hclosed : ((closeWindows s d).window w).isOpen = false := forAll_closeWindow_closes hw hmem s
  rw [hstands, hopen] at hclosed
  exact absurd hclosed (by decide)

/-! ### Destruction -/

/-- The partition's next generation (R274). -/
def nextPartGen (s : State) (p : Nat) : State := { s with partGen := tput s.partGen p ((tget s.partGen p 0 + 1) % 256) }

/-- The requests and contexts of a partition have ended, and its jobs. -/
def partLeft (s : State) (p : Nat) : State :=
  let s := abandonRequests (closeGrants (traceOff (nextPartGen s p) p) p) p
  let s := forAll (partCtxs s p) (fun s c => teardown s p c 0x0D04) s
  forAll (jobsOf s p) dropJob s

theorem beginDestroy_eq (s : State) (p : Nat) (r : Nat × Nat) : beginDestroy s p r
    = (stopServing (closeWindows (dropQueues (partLeft s p) p) fun w => w.part == p) p).modPart p fun x =>
        { x with state := 3, reqTag := some r, fill := none, running := none, switchTo := none, switchReq := 0 } := rfl

theorem traceOff_eq (s : State) (p : Nat) : traceOff s p = { s with parts := (traceOff s p).parts } := by
  unfold traceOff
  extract_lets i
  split <;> rfl

theorem partLeft_spec (s : State) (p : Nat) : (∀ c, ((partLeft s p).ctx c).part ≠ some p)
    ∧ (partLeft s p).partGen = tput s.partGen p ((tget s.partGen p 0 + 1) % 256)
    ∧ p ∉ (partLeft s p).grants.trace ∧ p ∉ (partLeft s p).grants.scan ∧ p ∉ (partLeft s p).grants.memRead := by
  unfold partLeft
  extract_lets v w
  have hclosed : Quits (closeGrants (traceOff (nextPartGen s p) p) p) v := abandonRequests_quits _ p
  have htorn : Quits v w := forAll_quits (fun t c => teardown_quits t p c 0x0D04) _ v
  have hdropped : Quits w (forAll (jobsOf w p) dropJob w) := forAll_quits dropJob_quits _ w
  have hall := (hclosed.trans htorn).trans hdropped
  have hpartGen : (closeGrants (traceOff (nextPartGen s p) p) p).partGen = tput s.partGen p ((tget s.partGen p 0 + 1) % 256) := by
    rw [closeGrants, traceOff_eq]; rfl
  refine ⟨fun c hc => ?_, hall.partGen.trans hpartGen, ?_, ?_, ?_⟩
  · rcases hdropped.ctx c with h | h
    · exact absurd (hc.symm.trans h) nofun
    · exact ctxs_torn v p c 0x0D04 (h.symm.trans hc)
  all_goals rw [hall.grants]; simp [closeGrants]

theorem beginDestroy_spec (s : State) (p : Nat) (r : Nat × Nat) : ((beginDestroy s p r).part p).state = 3
    ∧ ((beginDestroy s p r).part p).reqTag = some r ∧ tget (beginDestroy s p r).partGen p 0 = (tget s.partGen p 0 + 1) % 256
    ∧ (∀ c, ((beginDestroy s p r).ctx c).part ≠ some p) ∧ (∀ e ∈ (beginDestroy s p r).queues, e.2.part ≠ p)
    ∧ p ∉ (beginDestroy s p r).grants.trace ∧ p ∉ (beginDestroy s p r).grants.scan ∧ p ∉ (beginDestroy s p r).grants.memRead
    ∧ (∀ w, w ≠ 0x3FF → ((beginDestroy s p r).window w).isOpen = true → ((beginDestroy s p r).window w).part ≠ p)
    ∧ ((beginDestroy s p r).part p).running = none ∧ ((beginDestroy s p r).part p).fill = none := by
  obtain ⟨hctx, hgen, htrace, hscan, hmem⟩ := partLeft_spec s p
  rw [beginDestroy_eq]
  generalize partLeft s p = v at *
  have hclosed : Quits (dropQueues v p) (closeWindows (dropQueues v p) fun w => w.part == p) := .of_ends (closeWindows_ends _ _)
  have hwindows := fun w (hw : w ≠ 0x3FF) => closeWindows_closes (s := dropQueues v p) (d := fun w => w.part == p) hw
  generalize closeWindows (dropQueues v p) (fun w => w.part == p) = x at *
  have hserved : Quits x (stopServing x p) := .of_eq rfl
  have hparts := part_modPart_self (stopServing x p) p fun x =>
    { x with state := 3, reqTag := some r, fill := none, running := none, switchTo := none, switchReq := 0 }
  have hgrants : x.grants = v.grants := hclosed.grants
  refine ⟨congrArg Part.state hparts, congrArg Part.reqTag hparts, ?_, fun c hc => ?_, fun e he => ?_, ?_, ?_, ?_, fun w hw hopen => ?_,
    congrArg Part.running hparts, congrArg Part.fill hparts⟩
  · exact (congrArg (tget · p 0) (hclosed.partGen.trans hgen)).trans (tget_tput_self ..)
  · rcases hclosed.ctx c with h | h
    · exact absurd (hc.symm.trans h) nofun
    · exact hctx c (h.symm.trans hc)
  · have hq : e ∈ (dropQueues v p).queues := hclosed.queues ▸ he
    simpa using (List.mem_filter.1 hq).2
  · exact fun h => htrace (hgrants ▸ h)
  · exact fun h => hscan (hgrants ▸ h)
  · exact fun h => hmem (hgrants ▸ h)
  · exact beq_eq_false_iff_ne.1 (hwindows w hw hopen)

/-- The row of PARTITION_DESTROY (R346). -/
def partitionDestroyRow (s : State) (m : Msg) : MsgSpec :=
  { opcode := 0x0302, critical := true, pfOnly := true, len := some 4, rsv := [(1, 3)], named := (s.part (namedPart m)).state != 0 }

theorem partitionDestroy_exec (h : Passes s (partitionDestroyRow s m) m) (hsigned : Signed s m) : exec (.partitionDestroy m) s
      = .next (applyAns (spent s m) m (if (s.part (namedPart m)).state ≠ 2 then .refuse 0x0710
          else .later (beginDestroy (spent s m) (namedPart m) (m.func, m.tag)))) := mbx_of_signed h rfl hsigned

/-! ### Creation -/

theorem enabled_spent (s : State) (m : Msg) (g : Nat) : ((spent s m).func g).enabled = (s.func g).enabled := by
  by_cases hg : g = m.func
  · subst hg
    rw [func_spent_sender]
  · rw [spent, func_modFunc_ne _ _ hg, func_take_ne s hg]

theorem createStatus_spent (s : State) (m : Msg) (p : Nat) (x : Part) : createStatus (spent s m) p x = createStatus s p x := by
  unfold createStatus
  rw [enabled_spent]
  rfl

/-- The row of PARTITION_CREATE (R346). -/
def partitionCreateRow (m : Msg) : MsgSpec :=
  { opcode := 0x0301, critical := true, pfOnly := true, len := some 32, rsv := [(26, 6)], ranges := decide (fld m.payload 7 1 < 2) }

theorem partitionCreate_exec (h : Passes s (partitionCreateRow m) m) (hsigned : Signed s m) : exec (.partitionCreate m) s
      = .next (applyAns (spent s m) m (if createStatus s (namedPart m) (requestedPart m.payload) ≠ 0
          then .refuse (createStatus s (namedPart m) (requestedPart m.payload))
          else .later (takeWays ((spent s m).modPart (namedPart m) fun _ => { requestedPart m.payload with reqTag := some (m.func, m.tag) })
            (namedPart m) (requestedPart m.payload)))) := by
  have hexec : exec (.partitionCreate m) s = _ := mbx_of_signed h rfl hsigned
  dsimp only at hexec
  rw [createStatus_spent] at hexec
  exact hexec

/-- A change of clocks at partition `k` writes no other partition. -/
theorem part_retune_ne (s : State) {k q : Nat} (h : q ≠ k) : (retune s k).part q = s.part q := by
  have hrails (w : State) (ds : List Nat) : (requestRails w ds).part q = w.part q :=
    forAll_keeps (fun s => s.part q) (fun w d => by rw [State.part, parts_requestRail]; rfl) ds w
  unfold retune
  extract_lets x n ok w
  split
  · refine (hrails _ _).trans ((forAll_keeps (fun s => s.part q) (fun w e => ?_) _ w).trans (part_modPart_ne s _ h))
    split <;> rfl
  · exact hrails s _

/-- A partition whose tables are built (R273). -/
def tablesBuilt (s : State) (p : Nat) : State :=
  firstTune (s.modPart p fun x => { x with state := 2, reqTag := none, lastIssue := time s }) p

theorem tablesBuilt_spec (s : State) (p : Nat) : ((tablesBuilt s p).part p).state = 2 ∧ ((tablesBuilt s p).part p).reqTag = none
    ∧ ((tablesBuilt s p).part p).lastIssue = time s ∧ (tablesBuilt s p).aon = s.aon ∧ (tablesBuilt s p).funcs = s.funcs
    ∧ ∀ q, q ≠ p → (tablesBuilt s p).part q = s.part q := by
  unfold tablesBuilt firstTune
  have hself := part_retune ((s.modPart p fun x => { x with state := 2, reqTag := none, lastIssue := time s }).modPart p
    fun x => { x with retuned := 0 }) p p
  have hbounds := (retune_bounds ((s.modPart p fun x => { x with state := 2, reqTag := none, lastIssue := time s }).modPart p
    fun x => { x with retuned := 0 }) p).rest
  refine ⟨?_, ?_, ?_, ?_, ?_, fun q hq => ?_⟩
  iterate 3 rw [hself, part_modPart_self, part_modPart_self]
  · rw [hbounds]; rfl
  · rw [hbounds]; rfl
  · rw [part_retune_ne _ hq, part_modPart_ne _ _ hq, part_modPart_ne _ _ hq]

theorem partitionTablesBuilt_exec {now : Nat} (hready : ready s = true) (hstate : (s.part p).state = 1) :
    exec (.partitionTablesBuilt now p) s = .next (answerOpt (tablesBuilt (advance s now) p) (s.part p).reqTag 0 0) := by
  have hpart : (advance s now).part p = s.part p := by rw [advance_eq]; rfl
  have hexec : execPartitionTablesBuilt now p s = _ := timed_of s (by rw [ready_advance, hready, hpart, hstate]; rfl)
  rw [hpart] at hexec
  exact hexec

/-! ### The scrub -/

theorem clearTiles_rest (s : State) (p : Nat) : clearTiles s p = { s with tiles := (clearTiles s p).tiles } :=
  forAll_rel (R := fun s t => t = { s with tiles := t.tiles }) (fun _ => rfl) (fun h h' => by rw [h', h]) (fun _ _ => rfl) _ s

/-- A tile is empty (R499). -/
def TileCleared (x : Tile) : Prop := x.scratch = [] ∧ x.bufs = [] ∧ x.run = none

theorem tile_clearTiles {e : Nat} (s : State) (he : e ∈ partTiles (s.part p)) : TileCleared ((clearTiles s p).tile e) := by
  have hkept : ∀ (l : List Nat) (t : State), TileCleared (t.tile e) → TileCleared ((forAll l (fun s t => s.modTile t fun x =>
      { x with scratch := [], poison := [], bufs := [], run := none, tails := [], lfsrSlot := none }) t).tile e) := fun l t ht =>
    forAll_rel (R := fun a b => TileCleared (a.tile e) → TileCleared (b.tile e)) (fun _ => id) (fun h h' => h' ∘ h)
      (fun a k ha => by
        by_cases hk : e = k
        · subst hk
          rw [tile_modTile_self]
          exact ⟨rfl, rfl, rfl⟩
        · rw [tile_modTile_ne _ _ hk]
          exact ha) l t ht
  unfold clearTiles
  generalize partTiles (s.part p) = l at he
  induction l generalizing s with
  | nil => exact absurd he nofun
  | cons k l ih =>
    rcases List.mem_cons.1 he with rfl | hmem
    · exact hkept l _ (by rw [tile_modTile_self]; exact ⟨rfl, rfl, rfl⟩)
    · exact ih _ hmem

theorem TileCleared.idle (h : TileCleared (s.tile e)) (p : Nat) : TileCleared ((idleTiles s p).tile e) := by
  rw [idleTiles, tile_forAll_setClock]
  split
  · unfold clocked
    split <;> exact h
  · exact h

/-- The memory and the tiles of a partition are clear (R499). -/
def memoryCleared (s : State) (p : Nat) : State :=
  hbmClear (idleTiles (clearTiles (s.modPower fun x => { x with lowered := x.lowered.filter (· != p) }) p) p) p 0 (2 ^ 40)

/-- The partition is FREE (R274). -/
def partFreed (s : State) (p : Nat) : State :=
  { s with
    parts := tdel s.parts p
    caches := s.caches.map fun e => (e.1, e.2.filter fun c => !(ownWays s p e.1).contains c.way)
    hbmPoison := s.hbmPoison.filter fun l => linePart s l != p
    dieWays := tmap s.dieWays fun _ l => l.filter fun e => e.2 != p }

/-- The partition is FREE, its memory and its tiles clear (R274, R499). -/
def scrubbed (s : State) (p : Nat) : State := requestRails (partFreed (memoryCleared s p) p) (partDies (s.part p))

theorem partitionScrubVerified_exec {now : Nat} (hready : ready s = true) (hstate : (s.part p).state = 3)
    (hreset : (s.part p).resetTags = none) : exec (.partitionScrubVerified now p true) s
      = .next (answerOpt (scrubRecord (scrubbed (advance s now) p) 1 p (partGranules ((advance s now).part p)))
          ((advance s now).part p).reqTag 0 0) := by
  have hpart : (advance s now).part p = s.part p := by rw [advance_eq]; rfl
  have hexec : execPartitionScrubVerified now p true s = _ := timed_of s (by rw [ready_advance, hready, hpart, hstate]; rfl)
  have hreset' : ((advance s now).part p).resetTags = none := by rw [hpart, hreset]
  rw [hreset'] at hexec
  exact hexec

theorem partitionScrubFailed_exec {now : Nat} (hready : ready s = true) (hstate : (s.part p).state = 3) :
    exec (.partitionScrubVerified now p false) s = .next (selfReset (advance s now) 7 0) := by
  have hpart : (advance s now).part p = s.part p := by rw [advance_eq]; rfl
  exact (timed_of s (by rw [ready_advance, hready, hpart, hstate]; rfl) : execPartitionScrubVerified now p false s = _)

theorem memoryCleared_rest (s : State) (p : Nat) : memoryCleared s p = { s with
    power := (memoryCleared s p).power, tiles := (memoryCleared s p).tiles
    hbm := mclear s.hbm (hbmAddr p 0) (2 ^ 40), hbmPoison := (memoryCleared s p).hbmPoison } := by
  unfold memoryCleared hbmClear idleTiles
  rw [forAll_setClock_shape, clearTiles_rest]
  rfl

theorem tile_hbmClear (s : State) (p off n e : Nat) : (hbmClear s p off n).tile e = s.tile e := rfl

theorem requestRails_rest (s : State) (ds : List Nat) :
    requestRails s ds = { s with rails := (requestRails s ds).rails, out := (requestRails s ds).out } :=
  forAll_rel (R := fun s t => t = { s with rails := t.rails, out := t.out }) (fun _ => rfl) (fun h h' => by rw [h', h])
    (fun t d => requestRail_shape t d _) ds s

theorem scrubbed_rest (s : State) (p : Nat) : scrubbed s p = { partFreed (memoryCleared s p) p with
    rails := (scrubbed s p).rails, out := (scrubbed s p).out } := requestRails_rest _ _

theorem scrubbed_spec (s : State) (p : Nat) : ((scrubbed s p).part p).state = 0 ∧ (scrubbed s p).funcs = s.funcs
    ∧ (scrubbed s p).aon = s.aon ∧ (scrubbed s p).hbm = mclear s.hbm (hbmAddr p 0) (2 ^ 40)
    ∧ (∀ e ∈ partTiles (s.part p), TileCleared ((scrubbed s p).tile e)) ∧ (∀ d w, (w, p) ∉ tget (scrubbed s p).dieWays d [])
    ∧ ∀ q, q ≠ p → (scrubbed s p).part q = s.part q := by
  have htile : ∀ e ∈ partTiles (s.part p), TileCleared ((memoryCleared s p).tile e) := fun e he => by
    rw [memoryCleared, tile_hbmClear]
    exact TileCleared.idle (tile_clearTiles (s.modPower fun x => { x with lowered := x.lowered.filter (· != p) }) he) p
  have hrest := memoryCleared_rest s p
  have hparts : (memoryCleared s p).parts = s.parts := by rw [hrest]
  rw [scrubbed_rest]
  generalize memoryCleared s p = w at *
  refine ⟨?_, ?_, ?_, ?_, htile, fun d k hmem => ?_, fun q hq => ?_⟩
  · show (tget (tdel w.parts p) p {}).state = 0
    rw [tget, tfind_tdel_self]
    rfl
  · show w.funcs = _
    rw [hrest]
  · show w.aon = _
    rw [hrest]
  · show w.hbm = _
    rw [hrest]
  · change (k, p) ∈ tget (tmap w.dieWays fun _ l => l.filter fun e => e.2 != p) d [] at hmem
    rw [tget, tfind_tmap] at hmem
    cases hd : tfind w.dieWays d with
    | none => simp [hd] at hmem
    | some l => simp [hd] at hmem
  · show tget (tdel w.parts p) q {} = _
    rw [tget, tfind_tdel_ne _ hq, hparts]
    rfl

theorem scrubRecord_rest (s : State) (kind p : Nat) (gs : List Nat) :
    scrubRecord s kind p gs = { s with scrubs := (scrubRecord s kind p gs).scrubs } := by
  simp only [scrubRecord]

theorem lastScrub (s : State) (kind p : Nat) (gs : List Nat) : (scrubRecord s kind p gs).scrubs.getLast?
    = some { kind, part := p, granules := gs, done := time s, startNo := s.life.startNo } := by
  simp only [scrubRecord]
  rw [List.getLast?_drop, if_neg (by rw [List.length_append, List.length_singleton]; omega), List.getLast?_append]
  rfl

/-- R274: a scrub that fails resets the block, which starts again with cause 7. -/
theorem selfReset_scrub (hup : s.mainReset = false) (haon : aonUp s = true) (hclock : s.aon.refclk = true) (hgood : s.aon.pwrGood = true)
    (hblk : s.aon.blkResetN = true) (hcycle : s.aon.needBlkCycle = false) : (selfReset s 7 0).parts = [] ∧ (selfReset s 7 0).ctxs = []
      ∧ (selfReset s 7 0).steps = [] ∧ (selfReset s 7 0).tiles = [] ∧ (selfReset s 7 0).hbm = [] ∧ (selfReset s 7 0).life.ready = false
      ∧ (selfReset s 7 0).life.cause = 7 ∧ (selfReset s 7 0).mainReset = false := by
  have hlife := enterReset_life s 7 0
  rw [selfReset_free _ _ haon hclock hgood hblk hcycle, withIbi_eq]
  have hempty : (enterReset s 7 0).parts = [] ∧ (enterReset s 7 0).ctxs = [] ∧ (enterReset s 7 0).steps = [] ∧ (enterReset s 7 0).tiles = []
      ∧ (enterReset s 7 0).hbm = [] := ⟨rfl, rfl, rfl, rfl, rfl⟩
  generalize enterReset s 7 0 = u at hlife hempty
  obtain ⟨hparts, hctxs, hsteps, htiles, hhbm⟩ := hempty
  have hcause : u.life.nextCause = 7 := by rw [hlife]; simp [firstReset, hup]
  have hready : (startLife u 0).ready = false := by
    simp only [startLife]
    rw [writeEntry_shape, hlife]
    rfl
  rw [beginStart_shape]
  exact ⟨hparts, hctxs, hsteps, htiles, hhbm, hready, (startLife_cause u 0).trans hcause, rfl⟩

/-- Settles O36. -/
theorem partitions : Obligations.Partitions := by
  unfold Obligations.Partitions
  refine ⟨fun s m h hsigned => ?_, fun s now p f tag k hready hstate htag htaken => ?_, fun s m => ?_,
    fun s now p f tag k hready hstate htag hreset htaken => ?_,
    fun s now p hready hstate haon hclock hgood hblk hcycle => ?_⟩
  · have hexec := partitionCreate_exec h hsigned
    refine ⟨fun hok => ?_, fun hbad => ?_⟩
    · rw [if_neg (by simpa using hok)] at hexec
      have hkept : ∀ g, g ≠ m.func → (spent s m).func g = s.func g := fun g hg => by
        rw [spent, func_modFunc_ne _ _ hg, func_take_ne s hg]
      refine ⟨_, hexec, ((SenderStands.of_spent s m).of_funcs rfl).pends, hkept, ?_, fun q hq => ?_, rfl⟩
      · exact part_modPart_self (spent s m) (namedPart m) fun _ => { requestedPart m.payload with reqTag := some (m.func, m.tag) }
      · exact part_modPart_ne (spent s m) (fun _ => { requestedPart m.payload with reqTag := some (m.func, m.tag) }) hq
    · rw [if_pos hbad] at hexec
      obtain ⟨u, hans, hreplies, -⟩ := signed_refuse s m (createStatus s (namedPart m) (requestedPart m.payload))
      exact ⟨u, hexec.trans (congrArg _ hans), hreplies⟩
  · have hexec := partitionTablesBuilt_exec (now := now) hready hstate
    obtain ⟨hstate', htag', hissue, haon, hfuncs, hothers⟩ := tablesBuilt_spec (advance s now) p
    rw [htag] at hexec
    generalize tablesBuilt (advance s now) p = t at *
    have hfunc : t.func f = s.func f := by rw [State.func, hfuncs, advance_funcs]; rfl
    obtain ⟨r, ⟨fs, hans⟩, hrsps, -, -, hrtag, hstatus, -⟩ := answerWith_answers ((takenOf_congr hfunc tag).trans htaken) 0 0 [] [] false
    refine ⟨_, r, hexec, ?_⟩
    simp only [answerOpt, answer]
    rw [hans] at hrsps ⊢
    have htime : time t = time (advance s now) := by rw [time, time, haon]
    exact ⟨hstate', htag', hissue.trans htime.symm, hrsps.trans (by rw [hfunc]), hrtag, hstatus,
      fun q hq => (hothers q hq).trans (by rw [advance_eq]; rfl)⟩
  · intro p h hsigned
    have hexec := partitionDestroy_exec h hsigned
    refine ⟨fun hactive => ?_, fun hother => ?_⟩
    · rw [if_neg (by simpa using hactive)] at hexec
      have hspec := beginDestroy_spec (spent s m) p (m.func, m.tag)
      have hgen : (spent s m).partGen = s.partGen := rfl
      rw [hgen] at hspec
      exact ⟨beginDestroy (spent s m) p (m.func, m.tag), hexec, hspec⟩
    · rw [if_pos hother] at hexec
      obtain ⟨u, hans, hreplies, -⟩ := signed_refuse s m 0x0710
      exact ⟨u, hexec.trans (congrArg _ hans), hreplies⟩
  · have hexec := partitionScrubVerified_exec (now := now) hready hstate hreset
    have hpart : (advance s now).part p = s.part p := by rw [advance_eq]; rfl
    obtain ⟨hstate', hfuncs, haon, hhbm, htiles, hways, hothers⟩ := scrubbed_spec (advance s now) p
    have hscrubs := lastScrub (scrubbed (advance s now) p) 1 p (partGranules (s.part p))
    rw [hpart] at hexec htiles
    rw [advance_hbm] at hhbm
    rw [htag] at hexec
    generalize scrubbed (advance s now) p = t at *
    have hfunc : (scrubRecord t 1 p (partGranules (s.part p))).func f = s.func f := by
      rw [State.func, scrubRecord_rest, hfuncs, advance_funcs]
      rfl
    obtain ⟨r, ⟨fs, hans⟩, hrsps, -, -, hrtag, hstatus, -⟩ := answerWith_answers ((takenOf_congr hfunc tag).trans htaken) 0 0 [] [] false
    refine ⟨_, r, hexec, ?_⟩
    simp only [answerOpt, answer]
    rw [hfunc, hans] at hrsps
    rw [hans]
    rw [scrubRecord_rest] at hrsps ⊢
    generalize (scrubRecord t 1 p (partGranules (s.part p))).scrubs = records at hscrubs hrsps ⊢
    refine ⟨hstate', hrsps, hrtag, hstatus, fun a ha => ?_, fun a ha => ?_, htiles, hways,
      fun q hq => (hothers q hq).trans (by rw [advance_eq]; rfl), _, hscrubs, rfl, rfl, rfl, rfl⟩
    · show mread t.hbm _ = 0
      rw [hhbm, mread_mclear, if_pos]
      simp only [hbmAddr]
      omega
    · show mread t.hbm _ = _
      rw [hhbm, mread_mclear, if_neg]
      simp only [hbmAddr] at ha ⊢
      omega
  · have hup : (advance s now).mainReset = false := by
      rw [advance_mainReset]
      simp only [ready, up, Bool.and_eq_true, Bool.not_eq_true'] at hready
      tauto
    have hspec := selfReset_scrub (s := advance s now) hup (by simp [haon]) (by simp [hclock]) (by simp [hgood]) (by simp [hblk])
      (by simp [hcycle])
    exact ⟨_, partitionScrubFailed_exec hready hstate, hspec⟩

end Sys2Proof.Machine

/-! PROOFS. Device memory seen from the host (R358 to R362, R582). -/

namespace Sys2Proof.Machine

open Sys2Proof.Claims

variable {s t u : State} {m : Msg} {p : Nat}

/-! ### Byte strings of object space -/

theorem mreadN_append (m : Mem) (a i j : Nat) : mreadN m a (i + j) = mreadN m a i ++ mreadN m (a + i) j := by
  induction i generalizing a with
  | zero => simp [mreadN]
  | succ i ih => rw [Nat.add_right_comm, mreadN, ih, mreadN, Nat.add_assoc, Nat.add_comm 1 i, List.cons_append]

theorem length_slice (l : List Byte) (a n : Nat) : (slice l a n).length = n := by
  simp only [slice, List.length_append, List.length_replicate, List.length_take, List.length_drop]
  omega

theorem nth_slice (l : List Byte) (a n k : Nat) : nth (slice l a n) k 0 = if k < n then nth l (a + k) 0 else 0 := by
  simp only [slice, nth, List.getD_eq_getElem?_getD, List.getElem?_append, List.getElem?_take, List.getElem?_drop, List.length_take,
    List.length_drop, List.getElem?_replicate]
  by_cases hkn : k < n
  · by_cases hin : a + k < l.length
    · simp only [hkn, if_true]
      rw [if_pos (by omega)]
    · have hnone : l[a + k]? = none := List.getElem?_eq_none (by omega)
      simp only [hkn, if_true, hnone]
      split
      · rfl
      · split <;> rfl
  · simp only [hkn, if_false]
    rw [if_neg (by omega), if_neg (by omega)]
    rfl

/-- A byte string is read where its bytes stand. -/
theorem mreadN_eq_of_nth {m : Mem} {a n : Nat} {l : List Byte} (hlen : l.length = n) (h : ∀ k, k < n → mread m (a + k) = nth l k 0) :
    mreadN m a n = l := by
  apply List.ext_getElem
  · rw [length_mreadN, hlen]
  · intro k hk hk'
    rw [length_mreadN] at hk
    have hget := nth_mreadN m a n k
    rw [if_pos hk, h k hk, nth, nth, List.getD_eq_getElem _ _ (by rw [length_mreadN]; exact hk), List.getD_eq_getElem _ _ hk'] at hget
    exact hget

/-! ### An access, line by line -/

/-- The service of one line of an access at `off` (R358, R360). -/
def devLine (p off : Nat) (write : Option (List Byte)) (grant : Bool) (a : State × List Byte × List Bool) (l : Nat × Nat) :
    State × List Byte × List Bool :=
  let s := a.1
  let ok := (List.range l.2).all fun i => served s p (l.1 + i) grant
  match write with
  | some bs => if ok then (hbmWrite s p l.1 (slice bs (l.1 - off) l.2), a.2) else (noteRefused s, a.2)
  | none =>
    if ok then (s, a.2.1 ++ hbmRead s p l.1 l.2, a.2.2 ++ List.replicate l.2 (hbmPoisoned s p l.1 l.2))
    else (noteRefused s, a.2.1 ++ List.replicate l.2 0xFF, a.2.2 ++ List.replicate l.2 true)

theorem devAccess_eq (s : State) (p off len : Nat) (write : Option (List Byte)) (grant : Bool) :
    devAccess s p off len write grant = (lines64 (len / 64 + 2) off len).foldl (devLine p off write grant) (s, [], []) := rfl

theorem lines64_cons {n off len : Nat} (hlen : len ≠ 0) : lines64 (n + 1) off len
    = (off, min len (64 - off % 64)) :: lines64 n (off + min len (64 - off % 64)) (len - min len (64 - off % 64)) := by
  rw [lines64, if_neg hlen]

theorem lines64_nil (n off : Nat) : lines64 n off 0 = [] := by
  cases n <;> rfl

/-- An access within one line. -/
theorem lines64_one {off len : Nat} (n : Nat) (hlen : 0 < len) (hfits : off % 64 + len ≤ 64) : lines64 (n + 1) off len = [(off, len)] := by
  have hmin : min len (64 - off % 64) = len := by omega
  rw [lines64_cons (by omega), hmin, Nat.sub_self, lines64_nil]

theorem devRead_served {grant : Bool} {o : Nat} (n off len : Nat) (hserved : ∀ i, i < len → served s p (off + i) grant = true)
    (hfits : len = 0 ∨ off % 64 + len ≤ 64 * n) (d : List Byte) (q : List Bool) : ∃ l : List Bool, l.length = len
      ∧ (lines64 n off len).foldl (devLine p o none grant) (s, d, q) = (s, d ++ hbmRead s p off len, q ++ l) := by
  induction n generalizing off len d q with
  | zero =>
    obtain rfl : len = 0 := by omega
    exact ⟨[], rfl, by simp [lines64, hbmRead, mreadN]⟩
  | succ n ih =>
    by_cases hlen : len = 0
    · subst hlen
      exact ⟨[], rfl, by simp [lines64, hbmRead, mreadN]⟩
    rw [lines64_cons hlen]
    generalize hk : min len (64 - off % 64) = k
    have hkl : k ≤ len := by omega
    have hok : ((List.range k).all fun i => served s p (off + i) grant) = true :=
      List.all_eq_true.2 fun i hi => hserved i (by have := List.mem_range.1 hi; omega)
    obtain ⟨l, hl, hfold⟩ := ih (off + k) (len - k) (fun i hi => by rw [Nat.add_assoc]; exact hserved _ (by omega)) (by omega)
      (d ++ hbmRead s p off k) (q ++ List.replicate k (hbmPoisoned s p off k))
    refine ⟨List.replicate k (hbmPoisoned s p off k) ++ l, by simp [hl]; omega, ?_⟩
    have hhead : devLine p o none grant (s, d, q) (off, k)
        = (s, d ++ hbmRead s p off k, q ++ List.replicate k (hbmPoisoned s p off k)) := by
      simp only [devLine, hok, if_true]
    have hread : hbmRead s p off len = hbmRead s p off k ++ hbmRead s p (off + k) (len - k) := by
      have hsum : len = k + (len - k) := by omega
      rw [hbmRead, hsum, mreadN_append, hbmRead, hbmRead, hbmAddr, hbmAddr, Nat.add_assoc, ← hsum]
    rw [List.foldl_cons, hhead, hfold, hread, List.append_assoc, List.append_assoc]

/-- Only object space and its poison changed. -/
def MemOnly (s t : State) : Prop := t = { s with hbm := t.hbm, hbmPoison := t.hbmPoison }

theorem served_of_memOnly (h : MemOnly s t) (p off : Nat) (grant : Bool) : served t p off grant = served s p off grant := by
  rw [h]
  rfl

theorem devWrite_served {grant : Bool} {o : Nat} {bs : List Byte} (n off len : Nat) (hoff : o ≤ off)
    (hserved : ∀ i, i < len → served s p (off + i) grant = true) (hfits : len = 0 ∨ off % 64 + len ≤ 64 * n) (hwf : memWf s.hbm = true)
    (d : List Byte × List Bool) : ∃ t, (lines64 n off len).foldl (devLine p o (some bs) grant) (s, d) = (t, d) ∧ MemOnly s t
      ∧ ∀ c, mread t.hbm c = if hbmAddr p off ≤ c ∧ c < hbmAddr p off + len then nth bs (c - hbmAddr p o) 0 else mread s.hbm c := by
  induction n generalizing s off len with
  | zero =>
    obtain rfl : len = 0 := by omega
    exact ⟨s, rfl, rfl, fun c => (if_neg (by omega)).symm⟩
  | succ n ih =>
    by_cases hlen : len = 0
    · subst hlen
      exact ⟨s, by rw [lines64_nil]; rfl, rfl, fun c => (if_neg (by omega)).symm⟩
    rw [lines64_cons hlen]
    generalize hk : min len (64 - off % 64) = k
    have hkl : k ≤ len := by omega
    have hok : ((List.range k).all fun i => served s p (off + i) grant) = true :=
      List.all_eq_true.2 fun i hi => hserved i (by have := List.mem_range.1 hi; omega)
    have hhead : devLine p o (some bs) grant (s, d) (off, k) = (hbmWrite s p off (slice bs (off - o) k), d) := by
      simp only [devLine, hok, if_true]
    have hone : MemOnly s (hbmWrite s p off (slice bs (off - o) k)) := rfl
    have hmem : (hbmWrite s p off (slice bs (off - o) k)).hbm = mwriteN s.hbm (hbmAddr p off) (slice bs (off - o) k) := rfl
    generalize hbmWrite s p off (slice bs (off - o) k) = w at *
    obtain ⟨t, hfold, honly, hread⟩ := ih (s := w) (off + k) (len - k) (by omega)
      (fun i hi => by rw [served_of_memOnly hone, Nat.add_assoc]; exact hserved _ (by omega)) (by omega)
      (by rw [hmem]; exact memWf_mwriteN _ _ hwf)
    refine ⟨t, by rw [List.foldl_cons, hhead, hfold], by rw [MemOnly, honly, hone], fun c => ?_⟩
    rw [hread, hmem, mread_mwriteN _ _ _ hwf, length_slice, nth_slice]
    have hstart : hbmAddr p off = hbmAddr p o + (off - o) := by
      simp only [hbmAddr]
      omega
    have hnext : hbmAddr p (off + k) = hbmAddr p o + (off - o) + k := by rw [hbmAddr, ← Nat.add_assoc, ← hbmAddr, hstart]
    rw [hnext, hstart]
    generalize hbmAddr p o = a
    by_cases hlate : a + (off - o) + k ≤ c ∧ c < a + (off - o) + k + (len - k)
    · rw [if_pos hlate, if_pos (by omega)]
    · rw [if_neg hlate]
      by_cases hfirst : a + (off - o) ≤ c ∧ c < a + (off - o) + k
      · rw [if_pos hfirst, if_pos (by omega), if_pos (by omega)]
        congr 1
        omega
      · rw [if_neg hfirst, if_neg (by omega)]

/-- A served write: its bytes stand at their place, and nothing else changed. -/
theorem devWrite_spec {grant : Bool} {bs : List Byte} {off len : Nat} (hserved : ∀ i, i < len → served s p (off + i) grant = true)
    (hwf : memWf s.hbm = true) : ∃ t, devAnswer (some bs) (devAccess s p off len (some bs) grant) = t ∧ MemOnly s t
      ∧ hbmRead t p off len = slice bs 0 len
      ∧ ∀ a, (∀ k, k < len → a ≠ hbmAddr p off + k) → mread t.hbm a = mread s.hbm a := by
  obtain ⟨t, hfold, honly, hread⟩ := devWrite_served (o := off) (bs := bs) (len / 64 + 2) off len le_rfl hserved (by omega) hwf ([], [])
  refine ⟨t, by rw [devAccess_eq, hfold]; rfl, honly, ?_, fun a ha => ?_⟩
  · refine mreadN_eq_of_nth (length_slice ..) fun k hk => ?_
    rw [hread, if_pos (by omega), nth_slice, if_pos hk, Nat.add_sub_cancel_left, Nat.zero_add]
  · rw [hread, if_neg]
    rintro ⟨hlow, hhigh⟩
    exact ha (a - hbmAddr p off) (by omega) (by omega)

/-- A served read returns the bytes. -/
theorem devRead_spec {grant : Bool} {off len : Nat} (hserved : ∀ i, i < len → served s p (off + i) grant = true) :
    ∃ l : List Bool, l.length = len ∧ devAnswer none (devAccess s p off len none grant) = emit s (.memRead (hbmRead s p off len) l) := by
  obtain ⟨l, hl, hfold⟩ := devRead_served (o := off) (len / 64 + 2) off len hserved (by omega) [] []
  exact ⟨l, hl, by rw [devAccess_eq, hfold]; rfl⟩

/-- A refused access within one line. -/
theorem devLine_refused {grant : Bool} {off len : Nat} (hlen : 0 < len) (hfits : off % 64 + len ≤ 64)
    (hrefused : ∃ i, i < len ∧ served s p (off + i) grant = false) (write : Option (List Byte)) :
    devAnswer write (devAccess s p off len write grant) = devForced (noteRefused s) len write 0xFF true := by
  have hbad : ((List.range len).all fun i => served s p (off + i) grant) = false := by
    obtain ⟨i, hi, hno⟩ := hrefused
    exact List.all_eq_false.2 ⟨i, List.mem_range.2 hi, by simp [hno]⟩
  rw [devAccess_eq, lines64_one _ hlen hfits, List.foldl_cons, List.foldl_nil]
  cases write <;> simp [devLine, hbad, devForced, devAnswer]

/-! ### Refusals noted (R360) -/

theorem quiet_6702 : QuietCode 0x6702 := by decide

theorem quiet_6401 : QuietCode 0x6401 := by decide

theorem quiet_A402 : QuietCode 0xA402 := by decide

/-- A corrected fault shows at no pin and in no message. -/
theorem out_reportCode {c : Code} (h : QuietCode c) (hclass : codeClass c = 1) (s : State) : (reportCode s c).out = s.out := by
  rw [reportCode_taken h]
  split
  · rfl
  have hpin : ¬ (c = 0xA501 ∨ c = 0xA502) := by
    rintro (rfl | rfl) <;> exact absurd hclass (by decide)
  have hlatched : latched s { code := c } = s.modColl fun x => latch (time s) { x with recs := x.recs ++ faultRecs s { code := c } } c := by
    simp only [latched, if_neg hpin]
  have hfault : faultN (latched s { code := c }) = faultN s := by
    rw [hlatched]
    simp only [faultN, aonUp, modColl_aon, modColl_mainReset, modColl_coll, modColl_fresh, latch_of_corrected hclass]
    rfl
  have haon : (latched s { code := c }).aon = s.aon := by rw [hlatched]; rfl
  rw [withIbi, hfault, haon]
  simp [hlatched]

/-- R420: a corrected fault counts once. -/
theorem corr_reportCode_self {c : Code} (h : QuietCode c) (hclass : codeClass c = 1) (hinit : s.coll.init = true) :
    tget (reportCode s c).coll.corr (codeUnit c) 0 = min 0xFFFF (tget s.coll.corr (codeUnit c) 0 + 1) := by
  rw [coll_reportCode h hinit, latch_of_corrected hclass]
  exact tget_tput_self ..

theorem noteRefused_stands (s : State) : (noteRefused s).out = s.out ∧ (noteRefused s).hbm = s.hbm ∧ time (noteRefused s) = time s := by
  unfold noteRefused
  split
  · exact ⟨rfl, rfl, rfl⟩
  · refine ⟨out_reportCode quiet_6702 (by decide) _, ?_, time_reportCode quiet_6702 _⟩
    rw [reportCode_shape quiet_6702]
    rfl

theorem noteRefused_counts (hinit : s.coll.init = true) : tget (noteRefused s).coll.corr 39 0
    = if s.coll.refusedMs = some (time s / 1000000) then tget s.coll.corr 39 0 else min 0xFFFF (tget s.coll.corr 39 0 + 1) := by
  unfold noteRefused
  split
  · rfl
  · exact corr_reportCode_self quiet_6702 (by decide) (s := s.modColl fun x => { x with refusedMs := some (time s / 1000000) }) hinit

/-! ### Bias (R361, R362) -/

/-- Lines written back change no object and no byte. -/
theorem cleanRange_stands (s : State) (p a n : Nat) : (cleanRange s p a n).funcs = s.funcs ∧ (cleanRange s p a n).hbm = s.hbm
    ∧ ∀ i, memObj (cleanRange s p a n) p i = memObj s p i := by
  unfold cleanRange
  extract_lets here s'
  have hone : ∀ (t : State) (c : CacheLine), (writeBack p t c).funcs = t.funcs ∧ (writeBack p t c).hbm = t.hbm
      ∧ ∀ i, memObj (writeBack p t c) p i = memObj t p i := fun t c => by
    have haside := Aside.writeBack 0 p t c
    exact ⟨by rw [haside.rest], by rw [haside.rest], fun i => memObj_congr (by rw [haside.part p]) i⟩
  have hall : s'.funcs = s.funcs ∧ s'.hbm = s.hbm ∧ ∀ i, memObj s' p i = memObj s p i :=
    forAll_rel (R := fun s t => t.funcs = s.funcs ∧ t.hbm = s.hbm ∧ ∀ i, memObj t p i = memObj s p i)
      (fun _ => ⟨rfl, rfl, fun _ => rfl⟩)
      (fun h h' => ⟨h'.1.trans h.1, h'.2.1.trans h.2.1, fun i => (h'.2.2 i).trans (h.2.2 i)⟩)
      (fun t e => forAll_rel (R := fun s t => t.funcs = s.funcs ∧ t.hbm = s.hbm ∧ ∀ i, memObj t p i = memObj s p i)
        (fun _ => ⟨rfl, rfl, fun _ => rfl⟩)
        (fun h h' => ⟨h'.1.trans h.1, h'.2.1.trans h.2.1, fun i => (h'.2.2 i).trans (h.2.2 i)⟩) hone _ t) s.caches s
  exact hall

/-- An object with the bias of whole pages changed. -/
def biased (o : MemObj) (off n b : Nat) : MemObj :=
  { o with pages := if b = 1 then ((List.range (n / 4096)).map (· + off / 4096)).foldl addNew o.pages
                    else o.pages.filter fun g => !((List.range (n / 4096)).map (· + off / 4096)).contains g }

theorem mem_foldl_addNew {l d : List Nat} {g : Nat} : g ∈ l.foldl addNew d ↔ g ∈ d ∨ g ∈ l := by
  induction l generalizing d with
  | nil => simp
  | cons x l ih =>
    rw [List.foldl_cons, ih, addNew]
    split
    · next hx =>
      rw [List.mem_cons]
      constructor
      · rintro (h | h)
        · exact .inl h
        · exact .inr (.inr h)
      · rintro (h | rfl | h)
        · exact .inl h
        · exact .inl hx
        · exact .inr h
    · rw [List.mem_append, List.mem_singleton, List.mem_cons, or_assoc]

theorem mem_biased (o : MemObj) {off n b g : Nat} :
    g ∈ (biased o off n b).pages ↔ if off / 4096 ≤ g ∧ g < off / 4096 + n / 4096 then b = 1 else g ∈ o.pages := by
  have hrange : g ∈ (List.range (n / 4096)).map (· + off / 4096) ↔ off / 4096 ≤ g ∧ g < off / 4096 + n / 4096 := by
    rw [List.mem_map]
    constructor
    · rintro ⟨i, hi, rfl⟩
      have := List.mem_range.1 hi
      omega
    · exact fun ⟨hlow, hhigh⟩ => ⟨g - off / 4096, List.mem_range.2 (by omega), by omega⟩
  unfold biased
  by_cases hb1 : b = 1
  · simp only [hb1, if_true]
    rw [mem_foldl_addNew, hrange]
    split <;> simp_all
  · simp only [hb1, if_false]
    rw [List.mem_filter, Bool.not_eq_true', List.contains_eq_mem, decide_eq_false_iff_not, hrange]
    split <;> simp_all

/-- The state that BIAS_SET leaves before its answer. -/
def biasSet (s : State) (p i off n b : Nat) : State :=
  (if b = 1 then cleanRange s p (hbmAddr p ((memObj s p i).base + off)) n else s).modPart p fun x =>
    { x with objs := tput x.objs i (biased (memObj s p i) off n b) }

theorem biasSet_spec (s : State) (p i off n b : Nat) : (biasSet s p i off n b).funcs = s.funcs ∧ (biasSet s p i off n b).hbm = s.hbm
    ∧ memObj (biasSet s p i off n b) p i = biased (memObj s p i) off n b
    ∧ ∀ j, j ≠ i → memObj (biasSet s p i off n b) p j = memObj s p j := by
  obtain ⟨hfuncs, hhbm, hobjs⟩ : (if b = 1 then cleanRange s p (hbmAddr p ((memObj s p i).base + off)) n else s).funcs = s.funcs
      ∧ (if b = 1 then cleanRange s p (hbmAddr p ((memObj s p i).base + off)) n else s).hbm = s.hbm
      ∧ ∀ i', memObj (if b = 1 then cleanRange s p (hbmAddr p ((memObj s p i).base + off)) n else s) p i' = memObj s p i' := by
    split
    · exact cleanRange_stands ..
    · exact ⟨rfl, rfl, fun _ => rfl⟩
  unfold biasSet
  generalize (if b = 1 then cleanRange s p (hbmAddr p ((memObj s p i).base + off)) n else s) = w at *
  refine ⟨hfuncs, hhbm, ?_, fun j hj => ?_⟩
  · rw [memObj, part_modPart_self]
    exact tget_tput_self ..
  · rw [memObj, part_modPart_self]
    exact (tget_tput_ne _ _ _ hj).trans (hobjs j)

/-- The row of BIAS_SET with a condition on the object for its range check (R346). -/
def biasRow (s : State) (m : Msg) (inside : Bool) : MsgSpec :=
  { opcode := 0x0502, len := some 25, rsv := [(1, 3)], named := ownPart s m
    ranges := fld m.payload 8 8 % 4096 == 0 && fld m.payload 16 8 % 4096 == 0 && decide (fld m.payload 24 1 ≤ 1) && inside }

theorem biasSet_exec (h : Passes s (biasRow s m (match objOf s (namedPart m) (fld m.payload 4 4) with
      | some i => decide (fld m.payload 8 8 + fld m.payload 16 8 ≤ (memObj s (namedPart m) i).bytes)
      | none => true)) m) :
    exec (.biasSet m) s = .next (applyAns (take s m) m (match objOf s (namedPart m) (fld m.payload 4 4) with
      | none => .refuse 0x0741
      | some i => .done (biasSet (take s m) (namedPart m) i (fld m.payload 8 8) (fld m.payload 16 8) (fld m.payload 24 1)))) :=
  mbx_of_passes h rfl

/-! ### What HBM returns (R31, R454) -/

/-- The request that a return belongs to is no longer open. -/
def hbmReturned (s : State) (port tag addr : Nat) : State :=
  { s with hbmReads := s.hbmReads.filter fun q => !(q.port == port && q.tag == tag && q.line == addr) }

/-- A return for a slot of an earlier generation closes one of the requests that keep the slot in quarantine. -/
def quarReturned (s : State) (slot g : Nat) : State :=
  match tfind s.quar slot with
  | some q => if g = tget s.slotGen slot 0 then s else { s with quar := tput s.quar slot { q with openReqs := q.openReqs - 1 } }
  | none => s

theorem quarReturned_rest (s : State) (slot g : Nat) : quarReturned s slot g = { s with quar := (quarReturned s slot g).quar } := by
  unfold quarReturned
  split
  · split <;> rfl
  · rfl

theorem hbmReadReturn_exec {now port tag slot g addr : Nat} (hup : s.mainReset = false) (hport : port / 4 < granuleCount s.variant)
    (hinj : s.coll.inject = []) (poison corrected : Bool) : exec (.hbmReadReturn now port tag slot g addr poison corrected) s = .next
      (quarReturned (let s := hbmReturned (advance s now) port tag addr
        let s := if poison then { s with hbmPoison := addNew s.hbmPoison (portLine s port addr) } else s
        let s := if corrected then reportCode s 0x6401 else s
        if poison then reportCode s 0xA402 else s) slot g) := by
  have hguard : (fun s => up s && decide (port / 4 < granuleCount s.variant)) (advance s now) = true := by
    simp [up, hup, hport]
  have harmed : armed (hbmReturned (advance s now) port tag addr) 36 0 port = false := by
    simp [armed, hbmReturned, hinj]
  have hexec : execHbmReadReturn now port tag slot g addr poison corrected s = _ := timed_of s hguard
  change _ = Host.Outcome.next (quarReturned (let s := hbmReturned (advance s now) port tag addr
    let inj := armed s 36 0 port
    let s := if inj then consume s 36 0 port else s
    let s := if poison || inj then { s with hbmPoison := addNew s.hbmPoison (portLine s port addr) } else s
    let s := if corrected then reportCode s 0x6401 else s
    if poison || inj then reportCode s 0xA402 else s) slot g) at hexec
  simp only [harmed, Bool.or_false, Bool.false_eq_true, if_false] at hexec
  exact hexec

/-- What a passing row of BIAS_SET says of an object that it names and that holds the range. -/
theorem biasRow_inside {inside : Bool} (h : Passes s (biasRow s m true) m) (hinside : inside = true) : Passes s (biasRow s m inside) m := by
  rw [hinside]
  exact h

theorem init_reportCode {c : Code} (h : QuietCode c) (s : State) : (reportCode s c).coll.init = s.coll.init := by
  rw [reportCode_taken h]
  split
  · rfl
  · rw [withIbi_coll, latched_coll]
    unfold latch
    extract_lets u x
    split
    · rfl
    · split <;> rfl

/-- What the collector counts when the reports of a return are taken. -/
theorem hbmReported_spec {c : Code} (h : QuietCode c) (s : State) : (reportCode s c).hbmPoison = s.hbmPoison ∧ (reportCode s c).steps = s.steps
    ∧ (reportCode s c).hbm = s.hbm ∧ (reportCode s c).coll.init = s.coll.init := by
  refine ⟨?_, ?_, ?_, init_reportCode h s⟩ <;> rw [reportCode_shape h]

theorem served_advance (now p off : Nat) (grant : Bool) : served (advance s now) p off grant = served s p off grant := by
  rw [advance_eq]
  rfl

theorem cxlMemAccess_exec {now addr len : Nat} (hlink : s.host.linkUp = true) (hlen : 0 < len) (hin : addr + len ≤ 2 ^ 46)
    (write : Option (List Byte)) : exec (.cxlMemAccess now addr len write) s = .next
      (if s.mainReset || s.coll.freeze then devForced (advance s now) len write 0xFF false
        else devAnswer write (devAccess (advance s now) (addr / 2 ^ 40) (addr % 2 ^ 40) len write false)) := by
  have hguard : (fun s : State => s.host.linkUp && decide (0 < len ∧ addr + len ≤ 2 ^ 46)) (advance s now) = true := by
    simp only [advance_host, hlink, Bool.true_and]
    exact decide_eq_true ⟨hlen, hin⟩
  have hexec : execCxlMemAccess now addr len write s = _ := timed_of s hguard
  simp only [advance_mainReset, advance_coll] at hexec
  exact hexec

theorem apertureAccess_exec {now off len : Nat} (hlink : s.host.linkUp = true) (hlen : 0 < len) (hin : off + len ≤ 2 ^ 28)
    (hup : s.mainReset = false) (hfreeze : s.coll.freeze = false) (hminimal : s.life.minimal = false) (hflr : (s.func 0).inFlr = false)
    (write : Option (List Byte)) : exec (.apertureAccess now off len write) s = .next
      (if !s.host.aperEnable then devForced (noteRefused (advance s now)) len write 0xFF true
        else devAnswer write (devAccess (advance s now) s.host.aperPart (s.host.aperOffset * 2 ^ 28 + off) len write write.isNone)) := by
  have hguard : (fun s : State => s.host.linkUp && decide (0 < len ∧ off + len ≤ 2 ^ 28)) (advance s now) = true := by
    simp only [advance_host, hlink, Bool.true_and]
    exact decide_eq_true ⟨hlen, hin⟩
  have hfunc : (advance s now).func 0 = s.func 0 := by rw [State.func, advance_funcs]; rfl
  have hexec : execApertureAccess now off len write s = _ := timed_of s hguard
  simp only [aperAccess, advance_mainReset, advance_coll, advance_life, advance_host, hfunc, hup, hfreeze, hminimal, hflr, Bool.or_false,
    Bool.false_eq_true, if_false] at hexec
  exact hexec

theorem memOnly_advance (h : MemOnly (advance s now) t) : t = { s with aon := t.aon, hbm := t.hbm, hbmPoison := t.hbmPoison } := by
  rw [h, advance_eq]

/-- Settles O42. -/
theorem deviceMemory : Obligations.DeviceMemory := by
  unfold Obligations.DeviceMemory
  refine ⟨fun s now addr len hlink hlen hin hup hfreeze => ?_, fun s now addr len hlink hlen hin hfreeze => ?_,
    fun s now off len hlink hlen hin hup hfreeze hminimal hflr => ?_, fun s m => ?_, fun s now port tag slot g addr hup hport hinj => ?_⟩
  · intro p off
    have hexec := fun write => cxlMemAccess_exec (now := now) hlink hlen hin write
    rw [hup, hfreeze] at hexec
    simp only [Bool.or_false, Bool.false_eq_true, if_false] at hexec
    refine ⟨fun hserved => ?_, fun hrefused hone hinit => ?_⟩
    · have hserved' : ∀ i, i < len → served (advance s now) p (off + i) false = true := fun i hi => by
        rw [served_advance]; exact hserved i hi
      refine ⟨?_, fun bs hwf => ?_⟩
      · obtain ⟨l, hl, hread⟩ := devRead_spec hserved'
        refine ⟨_, l, (hexec none).trans (congrArg _ hread), hl, ?_⟩
        rw [advance_eq]
        rfl
      · obtain ⟨t, ht, honly, hread, hothers⟩ := devWrite_spec (bs := bs) hserved' (by rw [advance_hbm]; exact hwf)
        rw [advance_hbm] at hothers
        exact ⟨t, (hexec (some bs)).trans (congrArg _ ht), hread, hothers, memOnly_advance honly⟩
    · have hrefused' : ∃ i, i < len ∧ served (advance s now) p (off + i) false = false := by
        obtain ⟨i, hi, hno⟩ := hrefused
        exact ⟨i, hi, by rw [served_advance]; exact hno⟩
      obtain ⟨hout, hhbm, htime⟩ := noteRefused_stands (advance s now)
      have hcount := noteRefused_counts (s := advance s now) (by rw [advance_coll]; exact hinit)
      rw [advance_coll, ← htime] at hcount
      rw [advance_out] at hout
      rw [advance_hbm] at hhbm
      have hans := fun write => (hexec write).trans (congrArg _ (devLine_refused hlen hone hrefused' write))
      generalize noteRefused (advance s now) = t at *
      exact ⟨⟨_, hans none, congrArg _ hout, hhbm, hcount⟩, fun bs => ⟨t, hans (some bs), hhbm, hout, hcount⟩⟩
  · have hexec := fun write => cxlMemAccess_exec (now := now) hlink hlen hin write
    rw [hfreeze, Bool.or_true] at hexec
    simp only [if_true] at hexec
    refine ⟨⟨_, hexec none, ?_⟩, fun bs => ⟨_, hexec (some bs), ?_⟩⟩
    · rw [advance_eq]
      rfl
    · rw [advance_eq]
      rfl
  · intro p o
    have hexec := fun write => apertureAccess_exec (now := now) hlink hlen hin hup hfreeze hminimal hflr write
    refine ⟨fun henable hserved => ?_, fun bs henable hserved hwf => ?_, fun hdisable => ?_⟩
    · have hread' := hexec none
      rw [henable] at hread'
      obtain ⟨l, hl, hread⟩ := devRead_spec (s := advance s now) (p := p) (off := o) (len := len) (grant := true)
        fun i hi => by rw [served_advance]; exact hserved i hi
      refine ⟨_, l, hread'.trans (congrArg _ hread), hl, ?_⟩
      rw [advance_eq]
      rfl
    · have hwrite := hexec (some bs)
      rw [henable] at hwrite
      obtain ⟨t, ht, honly, hread, hothers⟩ := devWrite_spec (s := advance s now) (p := p) (off := o) (len := len) (grant := false) (bs := bs)
        (fun i hi => by rw [served_advance]; exact hserved i hi) (by rw [advance_hbm]; exact hwf)
      rw [advance_hbm] at hothers
      exact ⟨t, hwrite.trans (congrArg _ ht), hread, hothers, memOnly_advance honly⟩
    · have hread := hexec none
      rw [hdisable] at hread
      obtain ⟨hout, hhbm, -⟩ := noteRefused_stands (advance s now)
      rw [advance_out] at hout
      rw [advance_hbm] at hhbm
      exact ⟨_, hread, hhbm, congrArg (_ :: ·) hout⟩
  · intro off n b p
    refine ⟨fun i hobj hn hoff h => ?_, fun hnone h => ?_⟩
    · have hrow : Passes s (biasRow s m (match objOf s (namedPart m) (fld m.payload 4 4) with
          | some i => decide (fld m.payload 8 8 + fld m.payload 16 8 ≤ (memObj s (namedPart m) i).bytes)
          | none => true)) m := biasRow_inside (by simpa only [biasRow, Bool.and_true] using h) (by
        rw [hobj]
        exact decide_eq_true (by simp only [off, n, p] at *; omega))
      have hexec := biasSet_exec hrow
      rw [hobj] at hexec
      obtain ⟨hfuncs, hhbm, hself, hothers⟩ := biasSet_spec (take s m) p i off n b
      have hmem : ∀ j, memObj (take s m) p j = memObj s p j := fun _ => rfl
      rw [hmem] at hself
      change exec (.biasSet m) s = .next (applyAns (take s m) m (.done (biasSet (take s m) p i off n b))) at hexec
      generalize biasSet (take s m) p i off n b = t at *
      obtain ⟨fs, hans, hanswered, hkeep⟩ := answered_done (s := s) (m := m) hfuncs
      refine ⟨_, hexec.trans (congrArg _ hans), hanswered, hkeep, fun g => ?_, ?_, hothers, hhbm⟩
      · have hpages : (memObj ({ t with funcs := fs } : State) p i).pages = (biased (memObj s p i) off n b).pages :=
          congrArg MemObj.pages hself
        rw [hpages]
        exact mem_biased _
      · show memObj t p i = { memObj s p i with pages := (memObj t p i).pages }
        rw [hself]
        rfl
    · have hrow : Passes s (biasRow s m (match objOf s (namedPart m) (fld m.payload 4 4) with
          | some i => decide (fld m.payload 8 8 + fld m.payload 16 8 ≤ (memObj s (namedPart m) i).bytes)
          | none => true)) m := biasRow_inside (by simpa only [biasRow, Bool.and_true] using h) (by rw [hnone])
      have hexec := biasSet_exec hrow
      rw [hnone] at hexec
      exact ⟨_, hexec, replies_refuse s m _⟩
  · have hexec := hbmReadReturn_exec (now := now) (tag := tag) (slot := slot) (g := g) (addr := addr) hup hport hinj
    have hreads : hbmReturned (advance s now) port tag addr = { advance s now with
        hbmReads := s.hbmReads.filter fun q => !(q.port == port && q.tag == tag && q.line == addr) } := by
      rw [hbmReturned, advance_eq]
    have hbase : (hbmReturned (advance s now) port tag addr).coll = s.coll ∧ (hbmReturned (advance s now) port tag addr).steps = s.steps
        ∧ (hbmReturned (advance s now) port tag addr).hbm = s.hbm ∧ (hbmReturned (advance s now) port tag addr).hbmPoison = s.hbmPoison
        ∧ (hbmReturned (advance s now) port tag addr).quar = s.quar ∧ (hbmReturned (advance s now) port tag addr).slotGen = s.slotGen
        ∧ portLine (hbmReturned (advance s now) port tag addr) port addr = portLine s port addr := by
      rw [hbmReturned, advance_eq]
      exact ⟨rfl, rfl, rfl, rfl, rfl, rfl, rfl⟩
    obtain ⟨hcoll, hsteps, hhbm, hpoison, hquar, hgen, hline⟩ := hbase
    refine ⟨fun hg => ?_, fun hinit => ?_, fun hinit corrected => ?_, fun q hq hg => ?_⟩
    · rw [hexec false false, ← hreads]
      simp only [Bool.false_eq_true, if_false]
      unfold quarReturned
      split
      · rw [hgen, if_pos hg]
      · rfl
    · have hone := hexec false true
      simp only [Bool.false_eq_true, if_false, if_true] at hone
      generalize hbmReturned (advance s now) port tag addr = v at *
      obtain ⟨hp, hs, -⟩ := hbmReported_spec quiet_6401 v
      have hcount := corr_reportCode_self quiet_6401 (by decide) (s := v) (by rw [hcoll]; exact hinit)
      rw [quarReturned_rest] at hone
      refine ⟨_, hone, ?_, hp.trans hpoison, hs.trans hsteps⟩
      rw [← hcoll]
      exact hcount
    · have hone := hexec true corrected
      simp only [if_true] at hone
      generalize hbmReturned (advance s now) port tag addr = v at *
      rw [hline] at hone
      generalize hx : ({ v with hbmPoison := addNew v.hbmPoison (portLine s port addr) } : State) = x at hone
      have hmem : portLine s port addr ∈ x.hbmPoison := by
        rw [← hx]
        simp only [addNew]
        split
        · assumption
        · exact List.mem_append_right _ (List.mem_singleton_self _)
      have hxs : x.steps = s.steps := by rw [← hx]; exact hsteps
      have hxh : x.hbm = s.hbm := by rw [← hx]; exact hhbm
      have hxi : x.coll.init = true := by rw [← hx, ← hinit, ← hcoll]
      obtain ⟨hp1, hs1, hh1, hi1⟩ : (if corrected = true then reportCode x 0x6401 else x).hbmPoison = x.hbmPoison
          ∧ (if corrected = true then reportCode x 0x6401 else x).steps = x.steps
          ∧ (if corrected = true then reportCode x 0x6401 else x).hbm = x.hbm
          ∧ (if corrected = true then reportCode x 0x6401 else x).coll.init = x.coll.init := by
        split
        · exact hbmReported_spec quiet_6401 x
        · exact ⟨rfl, rfl, rfl, rfl⟩
      generalize (if corrected = true then reportCode x 0x6401 else x) = y at *
      obtain ⟨hp2, hs2, hh2, -⟩ := hbmReported_spec quiet_A402 y
      have hlog := mem_log_reportCode quiet_A402 (by decide) (s := y) (hi1.trans hxi)
      rw [quarReturned_rest] at hone
      exact ⟨_, hone, hlog, by rw [← hp1, ← hp2] at hmem; exact hmem, hs2.trans (hs1.trans hxs), hh2.trans (hh1.trans hxh)⟩
    · have hone := hexec false false
      simp only [Bool.false_eq_true, if_false] at hone
      generalize hbmReturned (advance s now) port tag addr = v at *
      unfold quarReturned at hone
      rw [hquar, hq, hgen] at hone
      dsimp only at hone
      rw [if_neg hg] at hone
      exact ⟨_, hone, tfind_tput_self .., hsteps, hhbm⟩

end Sys2Proof.Machine

/-! PROOFS. A function in reset: what ends around it does not reach it (R281, R345). -/

namespace Sys2Proof.Machine

open Sys2Proof.Claims

variable {s t u : State} {f p : Nat}

/-! ### A function in reset stands -/

/-- Between `s` and `t` function `f` did not change, if it is in reset and holds no request and no entry. -/
def Mute (f : Nat) (s t : State) : Prop :=
  (s.func f).inFlr = true → (s.func f).taken = [] → (s.func f).evtQueue = [] → t.func f = s.func f

theorem Mute.refl (f : Nat) (s : State) : Mute f s s := fun _ _ _ => rfl

theorem Mute.trans (h : Mute f s t) (h' : Mute f t u) : Mute f s u := fun hflr htaken hqueue => by
  have heq := h hflr htaken hqueue
  rw [← heq] at hflr htaken hqueue
  rw [h' hflr htaken hqueue, heq]

theorem Mute.of_funcs (h : t.funcs = s.funcs) : Mute f s t := fun _ _ _ => by rw [State.func, State.func, h]

theorem forAll_mute {α : Type} {g : State → α → State} (hg : ∀ t x, Mute f t (g t x)) (l : List α) (s : State) : Mute f s (forAll l g s) :=
  forAll_rel (Mute.refl f) Mute.trans hg l s

/-- An entry for a function in reset is discarded (R281). -/
theorem pushEntry_mute (s : State) (g : Nat) (e : Entry) : Mute f s (pushEntry s g e) := fun hflr _ _ => by
  unfold pushEntry
  by_cases hg : f = g
  · subst hg
    rw [func_modFunc_self, if_pos hflr]
  · exact func_modFunc_ne s _ hg

/-- A function that holds no request is sent no answer. -/
theorem answer_mute (s : State) (g tag status detail : Nat) : Mute f s (answer s g tag status detail) := fun _ htaken _ => by
  unfold answer answerWith
  split
  · rfl
  next k hk =>
    by_cases hg : f = g
    · subst hg
      rw [takenOf, htaken] at hk
      exact absurd hk nofun
    · exact func_modFunc_ne s _ hg

theorem answerOpt_mute (s : State) (r : Option (Nat × Nat)) (status detail : Nat) : Mute f s (answerOpt s r status detail) := by
  unfold answerOpt
  split
  · exact .refl f s
  · exact answer_mute s _ _ _ _

theorem funcs_traces (h : Traces s t) : t.funcs = s.funcs := by rw [h.rest]

theorem funcs_modStep (s : State) (k : Nat) (g : Step → Step) : (s.modStep k g).funcs = s.funcs := by
  unfold State.modStep
  split <;> rfl

theorem funcs_accrue (s : State) (slot : Nat) : (accrue s slot).funcs = s.funcs := by
  cases hst : tfind s.steps slot with
  | none => simp [accrue, hst]
  | some st => rw [accrue_shape hst]

theorem funcs_setState (s : State) (slot n : Nat) : (setState s slot n).funcs = s.funcs := by
  rw [setState, funcs_modStep, funcs_accrue]

theorem funcs_watchRelease (s : State) (slot : Nat) (st : Step) : (watchRelease s slot st).funcs = s.funcs := by
  unfold watchRelease
  refine forAll_keeps State.funcs (fun t e => ?_) _ s
  split
  · extract_lets a w result counted placed written
    have hwritten : written.funcs = t.funcs := by
      unfold written
      split
      · rfl
      · exact funcs_modStep counted slot _
    split
    · exact (funcs_traces (traceTrigger_traces written _)).trans hwritten
    · exact hwritten
  · rfl

theorem funcs_closeWindows (s : State) (c : Window → Bool) : (closeWindows s c).funcs = s.funcs := by rw [closeWindows_shape]

theorem funcs_dropWork (s : State) (slot : Nat) : (dropWork s slot).funcs = s.funcs := by
  have hdrop : dropWork s slot = match tfind s.steps slot with
      | some st => match st.job with
        | some (j, _) => closeWindows (withoutWork s slot) fun w => w.job == j && w.part == st.part
        | none => withoutWork s slot
      | none => withoutWork s slot := rfl
  rw [hdrop]
  split
  · split
    · exact funcs_closeWindows _ _
    · rfl
  · rfl

theorem noteDone_mute (s : State) (slot : Nat) : Mute f s (noteDone s slot) := by
  unfold noteDone
  split
  · exact .refl f s
  next st hst =>
    split
    · exact .refl f s
    extract_lets released noted
    have hreleased : released.funcs = s.funcs := by
      unfold released
      split
      · rfl
      · exact funcs_watchRelease s slot st
    have hnoted : Mute f s noted := .of_funcs ((funcs_modStep released slot _).trans hreleased)
    split
    · split
      · exact hnoted.trans (pushEntry_mute _ _ _)
      · exact hnoted
    · exact hnoted.trans (pushEntry_mute _ _ _)

theorem failRaw_mute (s : State) (slot : Nat) (status : Code) : Mute f s (failRaw s slot status) := by
  cases hst : tfind s.steps slot with
  | none => simpa [failRaw, hst] using Mute.refl f s
  | some st =>
    rw [failRaw_of_some hst]
    split
    · exact .refl f s
    · refine Mute.trans (.of_funcs ?_) (noteDone_mute _ slot)
      rw [markFailed, funcs_modStep, funcs_setState, funcs_dropWork]

theorem failWith_mute (s : State) (slot : Nat) (status code : Code) : Mute f s (failWith s slot status code) := by
  unfold failWith
  split
  · exact .refl f s
  · split
    · exact .refl f s
    · extract_lets failed
      split
      · exact (failRaw_mute s slot status).trans (.of_funcs (by rw [(startAbort_aborts _ _ _ _ _ _ _).rest]))
      · exact failRaw_mute s slot status

theorem failStep_mute (s : State) (slot : Nat) (status : Code) : Mute f s (failStep s slot status) := failWith_mute s slot status 0

theorem failAll_mute (s : State) (c : Step → Bool) (status : Code) : Mute f s (failAll s c status) :=
  forAll_mute (fun t k => failStep_mute t k status) _ s

theorem signalFence_mute (s : State) (p i status : Nat) : Mute f s (signalFence s p i status) := by
  unfold signalFence
  split
  · exact .refl f s
  next x hx =>
    split
    · exact .refl f s
    extract_lets ws signalled posted viewed
    have hviewed : Mute f s viewed := by
      have hsignalled : Mute f s signalled := .of_funcs rfl
      exact (hsignalled.trans (pushEntry_mute _ _ _)).trans (.of_funcs (forAll_keeps State.funcs (fun t k => funcs_modStep t k _) ws posted))
    split
    · exact hviewed
    · exact hviewed.trans (forAll_mute (fun t k => failStep_mute t k _) _ _)

theorem workTorn_mute (s : State) (p c : Nat) (status : Code) : Mute f s (workTorn s p c status) :=
  (failAll_mute s _ status).trans (forAll_mute (fun t i => signalFence_mute t p i 2) _ _)

theorem teardown_mute (s : State) (p c : Nat) (status : Code) : Mute f s (teardown s p c status) := by
  rw [teardown_eq]
  refine Mute.trans ((workTorn_mute s p c status).trans (.of_funcs ?_)) (answerOpt_mute _ _ _ _)
  rw [tornDown_eq_rest]

/-! ### Steps, queues and contexts that end -/

/-- Between `s` and `t` steps, queues and contexts of partitions ended, and none began. -/
structure Ebbs (s t : State) : Prop where
  step : ∀ k st, tfind t.steps k = some st → ∃ st₀, tfind s.steps k = some st₀ ∧ st₀.part = st.part
  queues : ∀ e ∈ t.queues, e ∈ s.queues
  ctx : ∀ c, (t.ctx c).part = none ∨ (t.ctx c).part = (s.ctx c).part

theorem Ebbs.refl (s : State) : Ebbs s s := ⟨fun _ st h => ⟨st, h, rfl⟩, fun _ => id, fun _ => .inr rfl⟩

theorem Ebbs.trans (h : Ebbs s t) (h' : Ebbs t u) : Ebbs s u where
  step k st hst := by
    obtain ⟨st₁, hst₁, hpart₁⟩ := h'.step k st hst
    obtain ⟨st₀, hst₀, hpart₀⟩ := h.step k st₁ hst₁
    exact ⟨st₀, hst₀, hpart₀.trans hpart₁⟩
  queues e he := h.queues e (h'.queues e he)
  ctx c := (h'.ctx c).elim .inl fun hc => (h.ctx c).imp hc.trans hc.trans

theorem Ebbs.of_ends (h : Ends s t) : Ebbs s t where
  step k st hst := by
    have hcore := h.step k
    rw [hst, Option.map_some] at hcore
    obtain ⟨st₀, hst₀, heq⟩ := Option.map_eq_some_iff.1 hcore.symm
    exact ⟨st₀, hst₀, (congrArg Step.part heq : st₀.core.part = st.core.part)⟩
  queues := by rw [h.rest]; exact fun _ => id
  ctx c := .inr (by rw [h.ctx c])

/-- What changes no step, queue and context. -/
theorem Ebbs.of_eq (hsteps : t.steps = s.steps) (hqueues : t.queues = s.queues) (hctxs : t.ctxs = s.ctxs) : Ebbs s t where
  step k st hst := ⟨st, hsteps ▸ hst, rfl⟩
  queues e he := hqueues ▸ he
  ctx c := .inr (by rw [State.ctx, State.ctx, hctxs])

theorem forAll_ebbs {α : Type} {g : State → α → State} (hg : ∀ t x, Ebbs t (g t x)) (l : List α) (s : State) : Ebbs s (forAll l g s) :=
  forAll_rel Ebbs.refl Ebbs.trans hg l s

theorem teardown_ebbs (s : State) (p c : Nat) (status : Code) : Ebbs s (teardown s p c status) where
  step := by
    rw [teardown_eq_rest]
    exact (Ebbs.of_ends (workTorn_ends s p c status)).step
  queues := by
    rw [(teardown_quits s p c status).queues]
    exact fun _ => id
  ctx := (teardown_quits s p c status).ctx

/-- The step in a slot is posted, its records made and its fences signalled. -/
def stepPosted (s : State) (slot : Nat) (st : Step) (late : Bool) : State :=
  let s := traceStep s slot 0x09 (if late then 8 else 0) 0xFFF (st.fail.getD 0).toNat
  let s := accrue s slot
  let s := if (s.ctx st.ctx).gen = st.ctxGen ∧ (s.ctx st.ctx).part.isSome then
      s.modCtx st.ctx fun c => { c with steps := c.steps + 1, late := c.late + (if late then 1 else 0) } else s
  let s := armMonitor { s with
    steps := tdel s.steps slot
    slotGen := tput s.slotGen slot ((tget s.slotGen slot 0 + 1) % 256)
    quar := tput s.quar slot { part := st.part, since := time s, openReqs := st.requests, ctx := st.ctx, ctxGen := st.ctxGen } }
  forAll (st.signals.filter fun h => namesFence s st.part (h % 65536) h)
    (fun s h => signalFence s st.part (h % 65536) (if st.fail.isSome then 1 else 0)) s

/-- What referred to a posted step is swept, and a queue that waited for it goes. -/
def stepSwept (s : State) (st : Step) : State :=
  let s := sweepBobbins (reap s st.part) st.part
  if (s.queue st.queue).destroyed ∧ !(s.steps.any fun e => e.2.queue == st.queue) then { s with queues := tdel s.queues st.queue } else s

theorem finishStep_eq {slot : Nat} {st : Step} (hst : tfind s.steps slot = some st) (late : Bool) : finishStep s slot late
    = let t := stepSwept (stepPosted s slot st late) st
      if (t.ctx st.ctx).draining ∧ (t.ctx st.ctx).gen = st.ctxGen
          ∧ !(t.steps.any fun e => e.2.ctx == st.ctx && e.2.ctxGen == st.ctxGen)
        then teardown t st.part st.ctx 0x0D04 else t := by
  rw [finishStep, hst]
  rfl

theorem mem_of_mem_tdel {α : Type} {l : Tab α} {k : Nat} {e : Nat × α} (h : e ∈ tdel l k) : e ∈ l := by
  induction l with
  | nil => exact h
  | cons x l ih =>
    obtain ⟨k', v⟩ := x
    rw [tdel] at h
    split at h
    · exact List.mem_cons_of_mem _ (ih h)
    · rcases List.mem_cons.1 h with rfl | hmem
      · exact List.mem_cons_self
      · exact List.mem_cons_of_mem _ (ih hmem)

theorem stepSwept_spec (s : State) (st : Step) : Ebbs s (stepSwept s st) ∧ (stepSwept s st).funcs = s.funcs
    ∧ (stepSwept s st).steps = s.steps := by
  unfold stepSwept
  extract_lets swept
  have hswept : Ebbs s swept := .of_eq rfl rfl rfl
  split
  · refine ⟨hswept.trans ⟨fun k st h => ⟨st, h, rfl⟩, fun e he => ?_, fun _ => .inr rfl⟩, rfl, rfl⟩
    exact mem_of_mem_tdel he
  · exact ⟨hswept, rfl, rfl⟩

theorem stepPosted_spec (s : State) (slot : Nat) (st : Step) (late : Bool) : Ebbs s (stepPosted s slot st late)
    ∧ Mute f s (stepPosted s slot st late) ∧ tfind (stepPosted s slot st late).steps slot = none := by
  unfold stepPosted
  extract_lets traced charged counted armed
  have hcharged : Ends s charged := (traces_ends (traceStep_traces s slot _ _ _ _)).trans (accrue_ends traced slot)
  have hcounted : Ebbs charged counted := by
    unfold counted
    split
    · refine ⟨fun k st h => ⟨st, h, rfl⟩, fun _ => id, fun c => .inr ?_⟩
      by_cases hc : c = st.ctx
      · subst hc
        rw [ctx_modCtx_self]
      · rw [ctx_modCtx_ne _ _ hc]
    · exact .refl _
  have hfuncs : counted.funcs = s.funcs := by
    have htraced : charged.funcs = s.funcs := (funcs_accrue traced slot).trans (funcs_traces (traceStep_traces s slot _ _ _ _))
    unfold counted
    split <;> exact htraced
  have hsteps : armed.steps = tdel counted.steps slot := rfl
  have harmed : Ebbs counted armed := by
    refine ⟨fun k st h => ⟨st, ?_, rfl⟩, fun _ => id, fun _ => .inr rfl⟩
    rw [hsteps] at h
    by_cases hk : k = slot
    · subst hk
      rw [tfind_tdel_self] at h
      exact absurd h nofun
    · rwa [tfind_tdel_ne _ hk] at h
  have hmute : Mute f s armed := .of_funcs hfuncs
  have hsignalled := forAll_ends (fun t h => signalFence_ends t st.part (h % 65536) (if st.fail.isSome then 1 else 0))
    (st.signals.filter fun h => namesFence armed st.part (h % 65536) h) armed
  refine ⟨(((Ebbs.of_ends hcharged).trans hcounted).trans harmed).trans (.of_ends hsignalled),
    hmute.trans (forAll_mute (fun t h => signalFence_mute t _ _ _) _ armed), ?_⟩
  have hgone : tfind armed.steps slot = none := by rw [hsteps, tfind_tdel_self]
  have hstep := hsignalled.step slot
  rw [hgone] at hstep
  exact Option.map_eq_none_iff.1 hstep

/-- A step that is posted leaves its slot, and no other begins. -/
theorem finishStep_spec (s : State) (slot : Nat) (late : Bool) : Ebbs s (finishStep s slot late) ∧ Mute f s (finishStep s slot late)
    ∧ tfind (finishStep s slot late).steps slot = none := by
  cases hst : tfind s.steps slot with
  | none => simpa [finishStep, hst] using And.intro (Ebbs.refl s) (Mute.refl f s)
  | some st =>
    rw [finishStep_eq hst]
    obtain ⟨hebbs, hmute, hgone⟩ := stepPosted_spec (f := f) s slot st late
    obtain ⟨hswept, hfuncs, hsteps⟩ := stepSwept_spec (stepPosted s slot st late) st
    generalize stepPosted s slot st late = v at *
    generalize stepSwept v st = w at *
    dsimp only
    have hw : Ebbs s w ∧ Mute f s w ∧ tfind w.steps slot = none :=
      ⟨hebbs.trans hswept, hmute.trans (.of_funcs hfuncs), by rw [hsteps, hgone]⟩
    split
    · have htorn := teardown_ebbs w st.part st.ctx 0x0D04
      refine ⟨hw.1.trans htorn, hw.2.1.trans (teardown_mute _ _ _ _), ?_⟩
      cases hfind : tfind (teardown w st.part st.ctx 0x0D04).steps slot with
      | none => rfl
      | some x =>
        obtain ⟨x₀, hx₀, -⟩ := htorn.step slot x hfind
        rw [hw.2.2] at hx₀
        exact absurd hx₀ nofun
    · exact hw

/-- Nothing of a partition is left that a function's reset takes. -/
structure Bare (s : State) (p : Nat) : Prop where
  step : ∀ k st, tfind s.steps k = some st → st.part ≠ p
  queues : ∀ e ∈ s.queues, e.2.part ≠ p
  ctx : ∀ c, (s.ctx c).part ≠ some p

theorem Bare.of_ebbs (h : Bare s p) (hebbs : Ebbs s t) : Bare t p where
  step k st hst := by
    obtain ⟨st₀, hst₀, hpart⟩ := hebbs.step k st hst
    exact hpart ▸ h.step k st₀ hst₀
  queues e he := h.queues e (hebbs.queues e he)
  ctx c hc := by
    rcases hebbs.ctx c with hnone | hsame
    · exact absurd (hc.symm.trans hnone) nofun
    · exact h.ctx c (hsame.symm.trans hc)

theorem forAll_finishStep_none {l : List Nat} {k : Nat} (hk : k ∈ l) (s : State) :
    tfind (forAll l (fun s k => finishStep s k false) s).steps k = none := by
  induction l generalizing s with
  | nil => exact absurd hk nofun
  | cons j l ih =>
    rcases List.mem_cons.1 hk with rfl | hmem
    · have hebbs : Ebbs (finishStep s k false) (forAll l (fun s k => finishStep s k false) (finishStep s k false)) :=
        forAll_ebbs (fun t j => (finishStep_spec (f := 0) t j false).1) l _
      show tfind (forAll l (fun s k => finishStep s k false) (finishStep s k false)).steps k = none
      cases hfind : tfind (forAll l (fun s k => finishStep s k false) (finishStep s k false)).steps k with
      | none => rfl
      | some x =>
        obtain ⟨x₀, hx₀, -⟩ := hebbs.step k x hfind
        rw [(finishStep_spec (f := 0) s k false).2.2] at hx₀
        exact absurd hx₀ nofun
    · exact ih hmem _

/-- The steps and contexts of a partition have ended. -/
def partEnded (s : State) (p : Nat) : State :=
  let ks := slotsWhere s fun st => st.part == p
  let s := forAll ks (fun s k => failStep s k 0x0D04) s
  let s := forAll ks (fun s k => finishStep s k false) s
  forAll (partCtxs s p) (fun s c => teardown s p c 0x0D04) s

/-- What a function holds in a partition leaves (R281). -/
def flrHoldings (x : Part) : Part :=
  { x with
    objs := tmap x.objs fun _ o => if o.live then { o with freeing := true, traceRef := false } else o
    fences := tmap x.fences fun _ f => if f.live then { f with freeing := true } else f
    progs := tmap x.progs fun _ g => { g with hints := [], staged := none }
    watch := {} }

theorem flrPart_eq (s : State) (p : Nat) : flrPart s p = reap ((traceOff (dropQueues (partEnded s p) p) p).modPart p flrHoldings) p := rfl

theorem partEnded_spec (s : State) (p : Nat) : Ebbs s (partEnded s p) ∧ Mute f s (partEnded s p)
    ∧ (∀ k st, tfind (partEnded s p).steps k = some st → st.part ≠ p) ∧ ∀ c, ((partEnded s p).ctx c).part ≠ some p := by
  unfold partEnded
  extract_lets ks failed posted
  have hfailed : Ebbs s failed := .of_ends (forAll_ends (fun t k => failStep_ends t k _) ks s)
  have hposted : Ebbs failed posted := forAll_ebbs (fun t k => (finishStep_spec (f := f) t k false).1) ks failed
  have htorn := forAll_ebbs (fun t c => teardown_ebbs t p c 0x0D04) (partCtxs posted p) posted
  have hmute : Mute f s posted := (forAll_mute (fun t k => failStep_mute t k _) ks s).trans
    (forAll_mute (fun t k => (finishStep_spec t k false).2.1) ks failed)
  refine ⟨(hfailed.trans hposted).trans htorn, hmute.trans (forAll_mute (fun t c => teardown_mute t p c _) _ posted),
    fun k st hst hpart => ?_, fun c => ctxs_torn posted p c 0x0D04⟩
  obtain ⟨st₁, hst₁, hpart₁⟩ := htorn.step k st hst
  obtain ⟨st₀, hst₀, hpart₀⟩ := (hfailed.trans hposted).step k st₁ hst₁
  have hk : k ∈ ks := mem_slotsWhere hst₀ (beq_iff_eq.2 (hpart₀.trans (hpart₁.trans hpart)))
  rw [forAll_finishStep_none hk failed] at hst₁
  exact absurd hst₁ nofun

theorem flrPart_spec (s : State) (p : Nat) : Ebbs s (flrPart s p) ∧ Mute f s (flrPart s p) ∧ Bare (flrPart s p) p := by
  obtain ⟨hebbs, hmute, hstep, hctx⟩ := partEnded_spec (f := f) s p
  rw [flrPart_eq]
  generalize partEnded s p = v at *
  have hdropped : Ebbs v (dropQueues v p) := ⟨fun k st h => ⟨st, h, rfl⟩, fun e he => List.mem_of_mem_filter he, fun _ => .inr rfl⟩
  have hrest := traceOff_eq (dropQueues v p) p
  generalize traceOff (dropQueues v p) p = w at *
  have hleft : Ebbs (dropQueues v p) (reap (w.modPart p flrHoldings) p) := by
    rw [hrest]
    exact .of_eq rfl rfl rfl
  have hfuncs : (reap (w.modPart p flrHoldings) p).funcs = v.funcs := by rw [hrest]; rfl
  have hbare : Bare (dropQueues v p) p :=
    ⟨hstep, fun e he => by simpa using (List.mem_filter.1 he).2, hctx⟩
  exact ⟨(hebbs.trans hdropped).trans hleft, hmute.trans (.of_funcs hfuncs), hbare.of_ebbs hleft⟩

theorem forAll_flrPart_bare {l : List Nat} (hp : p ∈ l) (s : State) : Bare (forAll l flrPart s) p := by
  induction l generalizing s with
  | nil => exact absurd hp nofun
  | cons q l ih =>
    rcases List.mem_cons.1 hp with rfl | hmem
    · exact (flrPart_spec (f := 0) s p).2.2.of_ebbs (forAll_ebbs (fun t q => (flrPart_spec (f := 0) t q).1) l _)
    · exact ih hmem _

theorem flr_exec {now : Nat} (hup : s.mainReset = false) (henabled : (s.func f).enabled = true) : exec (.flr now f) s = .next
    (forAll ((s.parts.filter fun e => e.2.state == 2 && e.2.owner == f).map (·.1)) flrPart
      ((orphan (advance s now) f fun _ => true).modFunc f fun x =>
        flrFunc x ((s.parts.filter fun e => e.2.state == 2 && e.2.owner == f).map (·.1)))) := by
  have hfunc : (advance s now).func f = s.func f := by rw [State.func, advance_funcs]; rfl
  have hexec : execFlr now f s = _ := timed_of s (by simp [up, hup, hfunc, henabled])
  rw [advance_parts] at hexec
  exact hexec

/-- Of the function whose requests are orphaned the requests alone change. -/
theorem func_orphan_self (s : State) (f : Nat) (c : Taken → Bool) :
    (orphan s f c).func f = { s.func f with taken := (s.func f).taken.filter fun t => !c t } := by
  unfold orphan
  extract_lets
  exact func_modFunc_self _ f _

theorem mem_owned {f : Nat} (hactive : active s p = true) (howner : (s.part p).owner = f) :
    p ∈ (s.parts.filter fun e => e.2.state == 2 && e.2.owner == f).map (·.1) := by
  rw [active, State.part, tget] at hactive
  rw [State.part, tget] at howner
  cases hp : tfind s.parts p with
  | none =>
    rw [hp] at hactive
    exact absurd hactive (by decide)
  | some x =>
    rw [hp] at hactive howner
    refine List.mem_map.2 ⟨(p, x), List.mem_filter.2 ⟨mem_of_tfind hp, ?_⟩, rfl⟩
    exact Bool.and_eq_true_iff.2 ⟨hactive, beq_iff_eq.2 howner⟩

/-- R281: what a function's reset leaves it and takes from it. -/
theorem flr_spec {now : Nat} (hup : s.mainReset = false) (henabled : (s.func f).enabled = true) : ∃ t, exec (.flr now f) s = .next t
    ∧ t.func f = { enabled := true, gen := ((s.func f).gen + 1) % 256, inFlr := true, flrParts := (t.func f).flrParts
                   exhausted := (s.func f).exhausted, authFails := (s.func f).authFails, ctrLast := (s.func f).ctrLast
                   key := (s.func f).key }
    ∧ ∀ p, active s p = true → (s.part p).owner = f → p ∈ (t.func f).flrParts ∧ Bare t p := by
  have hexec := flr_exec (now := now) hup henabled
  have hfunc : (advance s now).func f = s.func f := by rw [State.func, advance_funcs]; rfl
  generalize hps : (s.parts.filter fun e => e.2.state == 2 && e.2.owner == f).map (·.1) = ps at hexec
  have hself := func_modFunc_self (orphan (advance s now) f fun _ => true) f fun x => flrFunc x ps
  rw [func_orphan_self, hfunc] at hself
  generalize (orphan (advance s now) f fun _ => true).modFunc f (fun x => flrFunc x ps) = v at *
  have hmute : Mute f v (forAll ps flrPart v) := forAll_mute (fun t q => (flrPart_spec t q).2.1) ps v
  have hstands : (forAll ps flrPart v).func f = v.func f := hmute (by rw [hself]; rfl) (by rw [hself]; rfl) (by rw [hself]; rfl)
  refine ⟨_, hexec, ?_, fun p hactive howner => ?_⟩ <;> rw [hstands, hself]
  · rw [flrFunc, henabled]
  · have hp : p ∈ ps := hps ▸ mem_owned hactive howner
    exact ⟨hp, forAll_flrPart_bare hp v⟩

end Sys2Proof.Machine

/-! PROOFS. The host link (R370 to R377) and function reset (R281, R345, R500). -/

namespace Sys2Proof.Machine

open Sys2Proof.Claims

variable {s t u : State} {f p q i k : Nat}

/-! ### A slot that stands -/

/-- Between `s` and `t` what the list of steps holds for slot `k` stands. -/
def SlotStands (k : Nat) (s t : State) : Prop := t.steps.filter (·.1 == k) = s.steps.filter (·.1 == k)

theorem SlotStands.refl (k : Nat) (s : State) : SlotStands k s s := rfl

theorem SlotStands.trans (h : SlotStands k s t) (h' : SlotStands k t u) : SlotStands k s u := Eq.trans h' h

theorem SlotStands.of_steps (h : t.steps = s.steps) : SlotStands k s t := by rw [SlotStands, h]

theorem tfind_filter_key {α : Type} (l : Tab α) (k : Nat) : tfind (l.filter (·.1 == k)) k = tfind l k := by
  induction l with
  | nil => rfl
  | cons e l ih =>
    obtain ⟨k', v⟩ := e
    by_cases hk : k' = k
    · subst hk
      simp [tfind]
    · simp [hk, tfind, ih, Ne.symm hk]

theorem SlotStands.tfind (h : SlotStands k s t) : tfind t.steps k = tfind s.steps k := by
  rw [← tfind_filter_key t.steps, h, tfind_filter_key]

theorem SlotStands.mem {st : Step} (h : SlotStands k s t) (hmem : (k, st) ∈ s.steps) : (k, st) ∈ t.steps := by
  have : (k, st) ∈ t.steps.filter (·.1 == k) := by
    rw [h]
    exact List.mem_filter.2 ⟨hmem, beq_self_eq_true k⟩
  exact List.mem_of_mem_filter this

theorem filter_tput_ne {α : Type} (l : Tab α) {j k : Nat} (h : j ≠ k) (v : α) :
    (tput l j v).filter (·.1 == k) = l.filter (·.1 == k) := by
  induction l with
  | nil => simp [tput, h]
  | cons e l ih =>
    obtain ⟨k', v'⟩ := e
    unfold tput
    split
    · simp [h]
    · split
      · next hj =>
        subst hj
        simp [h]
      · rw [List.filter_cons, List.filter_cons, ih]

theorem modStep_slotStands (s : State) {j : Nat} (h : j ≠ k) (g : Step → Step) : SlotStands k s (s.modStep j g) := by
  unfold State.modStep
  split
  · exact .refl k s
  · exact filter_tput_ne _ h _

theorem forAll_slotStands {α : Type} {g : State → α → State} {l : List α} (hg : ∀ t, ∀ x ∈ l, SlotStands k t (g t x)) (s : State) :
    SlotStands k s (forAll l g s) := by
  induction l generalizing s with
  | nil => exact .refl k s
  | cons x l ih => exact (hg s x List.mem_cons_self).trans (ih (fun t y hy => hg t y (List.mem_cons_of_mem _ hy)) (g s x))

theorem setState_slotStands (s : State) {j : Nat} (h : j ≠ k) (n : Nat) : SlotStands k s (setState s j n) := by
  cases hst : tfind s.steps j with
  | none => simpa [setState, accrue, State.modStep, hst] using SlotStands.refl k s
  | some st =>
    rw [setState_shape n hst]
    exact filter_tput_ne _ h _

theorem watchRelease_slotStands (s : State) {j : Nat} (h : j ≠ k) (st : Step) : SlotStands k s (watchRelease s j st) := by
  unfold watchRelease
  refine SlotStands.trans (forAll_slotStands (fun t e _ => ?_) s) (.of_steps rfl)
  split
  · extract_lets a w result counted placed written
    have hwritten : SlotStands k t written := by
      unfold written
      split
      · exact .refl k t
      · have hcounted : SlotStands k t counted := .of_steps rfl
        have hplaced : SlotStands k counted placed := modStep_slotStands counted h _
        exact (hcounted.trans hplaced).trans (.of_steps rfl)
    split
    · exact hwritten.trans (.of_steps (by rw [(traceTrigger_traces _ _).rest]))
    · exact hwritten
  · exact .refl k t

theorem noteDone_slotStands (s : State) {j : Nat} (h : j ≠ k) : SlotStands k s (noteDone s j) := by
  unfold noteDone
  split
  · exact .refl k s
  next st hst =>
    split
    · exact .refl k s
    extract_lets released noted
    have hreleased : SlotStands k s released := by
      unfold released
      split
      · exact .refl k s
      · exact watchRelease_slotStands s h st
    have hnoted : SlotStands k s noted := hreleased.trans (modStep_slotStands released h _)
    split
    · split
      · exact hnoted.trans (.of_steps rfl)
      · exact hnoted
    · exact hnoted.trans (.of_steps rfl)

theorem steps_dropWork (s : State) (slot : Nat) : (dropWork s slot).steps = s.steps := by
  have hdrop : dropWork s slot = match tfind s.steps slot with
      | some st => match st.job with
        | some (j, _) => closeWindows (withoutWork s slot) fun w => w.job == j && w.part == st.part
        | none => withoutWork s slot
      | none => withoutWork s slot := rfl
  rw [hdrop]
  split
  · split
    · rw [closeWindows_shape]; rfl
    · rfl
  · rfl

/-- A step that fails leaves the other slots alone. -/
theorem failStep_slotStands (s : State) {j : Nat} (h : j ≠ k) (status : Code) : SlotStands k s (failStep s j status) := by
  have hraw : SlotStands k s (failRaw s j status) := by
    cases hst : tfind s.steps j with
    | none => simpa [failRaw, hst] using SlotStands.refl k s
    | some st =>
      rw [failRaw_of_some hst]
      split
      · exact .refl k s
      · refine SlotStands.trans ?_ (noteDone_slotStands _ h)
        exact ((SlotStands.of_steps (steps_dropWork s j)).trans (setState_slotStands _ h _)).trans (modStep_slotStands _ h _)
  unfold failStep failWith
  split
  · exact .refl k s
  · split
    · exact .refl k s
    · extract_lets failed
      split
      · exact hraw.trans (.of_steps (by rw [(startAbort_aborts _ _ _ _ _ _ _).rest]))
      · exact hraw

/-! ### Fills when the host is gone -/

/-- Between `s` and `t` a fill lost its host source: bobbins left the store, steps failed, and peers were asked. -/
structure Loses (s t : State) : Prop where
  host : t.host = s.host
  coll : t.coll = s.coll
  aon : t.aon = s.aon
  func : ∀ f, FuncEnds (s.func f) (t.func f)
  backing : ∀ p i, (bobbin t p i).backing = (bobbin s p i).backing
  fails : ∀ k e, FailsWith s k e → FailsWith t k e

theorem Loses.refl (s : State) : Loses s s := ⟨rfl, rfl, rfl, fun _ => rfl, fun _ _ => rfl, fun _ _ => id⟩

theorem Loses.trans (h : Loses s t) (h' : Loses t u) : Loses s u where
  host := h'.host.trans h.host
  coll := h'.coll.trans h.coll
  aon := h'.aon.trans h.aon
  func f := by rw [FuncEnds, h'.func f, h.func f]
  backing p i := (h'.backing p i).trans (h.backing p i)
  fails k e hk := h'.fails k e (h.fails k e hk)

/-- A bobbin is what the partition's catalogue says. -/
theorem bobbin_congr (h : (t.part p).bobbins = (s.part p).bobbins) (i : Nat) : bobbin t p i = bobbin s p i := by
  rw [bobbin, bobbin, h]

/-- Steps that fail one after another. -/
theorem forAll_failStep_loses (l : List Nat) (status : Code) (s : State) : Loses s (forAll l (fun s k => failStep s k status) s) := by
  have hends : Fails s (forAll l (fun s k => failStep s k status) s) := forAll_ends (fun t k => failStep_fails t k status) l s
  have hstands : ∀ k e, FailsWith s k e → FailsWith (forAll l (fun s k => failStep s k status) s) k e := fun k e h =>
    forAll_rel (R := fun a b => FailsWith a k e → FailsWith b k e) (fun _ => id) (fun h h' => h' ∘ h)
      (fun t j ht => failStep_failsWith_stands ht j status) l s h
  refine ⟨?_, ?_, ?_, hends.func, fun p i => ?_, hstands⟩
  · rw [hends.rest]
  · rw [hends.rest]
  · rw [hends.rest]
  · exact congrArg Bobbin.backing (bobbin_congr (by rw [(hends.part p).rest]) i)

theorem backing_leaveStore (s : State) (p i q j : Nat) : (bobbin (leaveStore s p i) q j).backing = (bobbin s q j).backing := by
  rw [leaveStore, modBobbin, bobbin]
  by_cases hq : q = p
  · subst hq
    rw [part_modPart_self]
    by_cases hj : j = i
    · subst hj
      rw [tget_tput_self]
      rfl
    · rw [tget_tput_ne _ _ _ hj]
      rfl
  · rw [part_modPart_ne _ _ hq]
    rfl

/-- The state in which a fill has ended, before the steps that waited fail. -/
def fillEnded (s : State) (p i : Nat) : State :=
  leaveStore (s.modPart p fun x => { x with fill := x.fill.filter fun f => f.bobbin != i }) p i

theorem failFetch_eq (s : State) (p i : Nat) (status : Code) :
    failFetch s p i status = forAll (waitersOf s p i) (fun s k => failStep s k status) (fillEnded s p i) := rfl

theorem fillEnded_loses (s : State) (p i : Nat) : Loses s (fillEnded s p i) := by
  refine ⟨rfl, rfl, rfl, fun _ => rfl, fun q j => ?_, fun _ _ h => h⟩
  rw [fillEnded, backing_leaveStore]
  refine congrArg Bobbin.backing (bobbin_congr ?_ j)
  by_cases hq : q = p
  · subst hq
    rw [part_modPart_self]
  · rw [part_modPart_ne _ _ hq]

theorem failFetch_loses (s : State) (p i : Nat) (status : Code) : Loses s (failFetch s p i status) := by
  rw [failFetch_eq]
  exact (fillEnded_loses s p i).trans (forAll_failStep_loses _ _ _)

/-- What of partition `q` a fill of another leaves alone. -/
structure PartSpared (q : Nat) (s t : State) : Prop where
  fill : (t.part q).fill = (s.part q).fill
  bobbins : (t.part q).bobbins = (s.part q).bobbins

theorem PartSpared.trans (h : PartSpared q s t) (h' : PartSpared q t u) : PartSpared q s u :=
  ⟨h'.fill.trans h.fill, h'.bobbins.trans h.bobbins⟩

theorem PartSpared.of_fails (h : Fails s t) : PartSpared q s t := ⟨by rw [(h.part q).rest], by rw [(h.part q).rest]⟩

theorem failFetch_spares (s : State) {p : Nat} (h : q ≠ p) (i : Nat) (status : Code) : PartSpared q s (failFetch s p i status) := by
  rw [failFetch_eq]
  have hended : (fillEnded s p i).part q = s.part q := by
    rw [fillEnded, leaveStore, modBobbin, part_modPart_ne _ _ h, part_modPart_ne _ _ h]
  have hfirst : PartSpared q s (fillEnded s p i) := ⟨by rw [hended], by rw [hended]⟩
  exact hfirst.trans (.of_fails (forAll_ends (fun t k => failStep_fails t k status) _ _))

/-- The fill that fails is gone. -/
theorem fill_failFetch (s : State) (p i : Nat) (status : Code) :
    ((failFetch s p i status).part p).fill = (s.part p).fill.filter fun f => f.bobbin != i := by
  rw [failFetch_eq]
  have hends : Fails (fillEnded s p i) (forAll (waitersOf s p i) (fun s k => failStep s k status) (fillEnded s p i)) :=
    forAll_ends (fun t k => failStep_fails t k status) _ _
  rw [(hends.part p).rest, fillEnded, leaveStore, modBobbin, part_modPart_self, part_modPart_self]

/-- What the failing of a fill does to a slot: a waiter's step fails, any other stands. -/
theorem failFetch_slot (s : State) (p i : Nat) (status : Code) {st : Step} (hst : tfind s.steps k = some st) (hopen : Undecided st) :
    FailsWith (failFetch s p i status) k status ∨ (k ∉ waitersOf s p i ∧ SlotStands k s (failFetch s p i status)) := by
  rw [failFetch_eq]
  have hended : SlotStands k s (fillEnded s p i) := .of_steps rfl
  by_cases hk : k ∈ waitersOf s p i
  · exact .inl (forAll_failStep_failsWith hk (hended.tfind.trans hst) hopen)
  · refine .inr ⟨hk, hended.trans (forAll_slotStands (fun t j hj => failStep_slotStands t (fun h : j = k => hk (by rw [← h]; exact hj)) status) _)⟩

/-- Peers are asked, and a fill is dealt anew. -/
structure Asks (p : Nat) (s t : State) : Prop where
  rest : t = { s with parts := t.parts, ports := t.ports, pmc := t.pmc, out := t.out }
  part : ∀ q, t.part q = { s.part q with counters := (t.part q).counters, fill := (t.part q).fill }
  fill : ∀ q, q ≠ p → (t.part q).fill = (s.part q).fill

theorem Asks.loses (h : Asks p s t) : Loses s t where
  host := by rw [h.rest]
  coll := by rw [h.rest]
  aon := by rw [h.rest]
  func f := by
    have : t.func f = s.func f := by rw [h.rest]; rfl
    rw [FuncEnds, this]
  backing q i := congrArg Bobbin.backing (bobbin_congr (by rw [h.part q]) i)
  fails k e hk := by
    have : t.steps = s.steps := by rw [h.rest]
    rwa [FailsWith, this]

theorem modFill_asks (s : State) (p : Nat) (g : Fill → Fill) : Asks p s (modFill s p g) := by
  refine ⟨rfl, fun q => ?_, fun q hq => ?_⟩
  · by_cases hq : q = p
    · subst hq
      rw [modFill, part_modPart_self]
    · rw [modFill, part_modPart_ne _ _ hq]
  · rw [modFill, part_modPart_ne _ _ hq]

theorem Asks.sends (h : Asks p s t) (hsends : Sends t u) : Asks p s u where
  rest := by rw [hsends.rest, h.rest]
  part q := by rw [hsends.part q, h.part q]
  fill q hq := by rw [hsends.part q, h.fill q hq]

/-- How chunks can be dealt: they are asked for, or the fill fails for want of a source (R236). -/
theorem dealFill_cases (s : State) (p : Nat) (cs : List Nat) :
    (∃ i, dealFill s p cs = failFetch s p i 0x0602) ∨ Asks p s (dealFill s p cs) := by
  unfold dealFill
  split
  · exact .inr ⟨rfl, fun _ => rfl, fun _ _ => rfl⟩
  next x hx =>
    extract_lets b f
    split
    · refine .inr ((modFill_asks s p _).sends (forAll_sends (fun t j => ?_) _ _))
      extract_lets mine
      split
      · exact .refl t
      · exact sendCtl_sends ..
    · split
      · exact .inr (modFill_asks s p _)
      · exact .inl ⟨_, rfl⟩

theorem loseHost_cases (s : State) (p : Nat) : (∃ i, loseHost s p = failFetch s p i 0x0602) ∨ Asks p s (loseHost s p) := by
  have hself : Asks p s s := ⟨rfl, fun _ => rfl, fun _ _ => rfl⟩
  unfold loseHost
  split
  · exact .inr hself
  · split
    · exact .inl ⟨_, rfl⟩
    · extract_lets cs
      split
      · exact .inr hself
      · exact dealFill_cases s p cs

theorem loseHost_loses (s : State) (p : Nat) : Loses s (loseHost s p) := by
  obtain ⟨i, h⟩ | h := loseHost_cases s p
  · rw [h]
    exact failFetch_loses s p i 0x0602
  · exact h.loses

theorem loseHost_spares (s : State) {p : Nat} (h : q ≠ p) : PartSpared q s (loseHost s p) := by
  obtain ⟨i, hfail⟩ | hasks := loseHost_cases s p
  · rw [hfail]
    exact failFetch_spares s h i 0x0602
  · exact ⟨hasks.fill q h, by rw [hasks.part q]⟩

theorem loseHost_of_none (h : (s.part p).fill = none) : loseHost s p = s := by
  rw [loseHost, h]

theorem loseHost_of_backing {x : Fill} (h : (s.part p).fill = some x) (hbacking : x.backing = true) :
    loseHost s p = failFetch s p x.bobbin 0x0602 := by
  rw [loseHost, h]
  exact if_pos hbacking

theorem loseHost_slot (s : State) (p : Nat) {st : Step} (hst : tfind s.steps k = some st) (hopen : Undecided st) :
    FailsWith (loseHost s p) k 0x0602 ∨ SlotStands k s (loseHost s p) := by
  obtain ⟨i, h⟩ | h := loseHost_cases s p
  · rw [h]
    exact (failFetch_slot s p i 0x0602 hst hopen).imp id And.right
  · exact .inr (.of_steps (by rw [h.rest]))

/-- Who waits for a bobbin depends on the partition's catalogue and on what the slots hold. -/
theorem mem_waitersOf (hslot : SlotStands k s t) (hbobbins : ∀ j, (bobbin t p j).live = (bobbin s p j).live ∧ (bobbin t p j).state = (bobbin s p j).state)
    (h : k ∈ waitersOf s p i) : k ∈ waitersOf t p i := by
  have hresident : ∀ (w : State) (b : Nat), resident w p b = ((bobbin w p b).live && (bobbin w p b).state == 2) := fun w b => by
    rw [resident, bobbin, tget]
    cases tfind (w.part p).bobbins b <;> rfl
  obtain ⟨⟨k', st⟩, hmem, rfl⟩ := List.mem_map.1 h
  obtain ⟨hin, hcond⟩ := List.mem_filter.1 hmem
  refine List.mem_map.2 ⟨(k', st), List.mem_filter.2 ⟨hslot.mem hin, ?_⟩, rfl⟩
  dsimp only at hcond ⊢
  obtain ⟨hpart, hwaits⟩ := Bool.and_eq_true_iff.1 hcond
  obtain rfl : st.part = p := beq_iff_eq.1 hpart
  have hown : ownResident t st = ownResident s st := by
    unfold ownResident
    split
    · rfl
    · rw [hresident, hresident, (hbobbins _).1, (hbobbins _).2]
  refine Bool.and_eq_true_iff.2 ⟨hpart, ?_⟩
  rw [hown]
  simp only [(hbobbins _).2]
  exact hwaits

/-- R372, Table Placement-6: a fill from the backing copy fails with the host, and the steps that wait for it. -/
theorem forAll_loseHost_fill {l : List Nat} {x : Fill} (hq : q ∈ l) (hfill : (s.part q).fill = some x) (hbacking : x.backing = true) :
    ((forAll l loseHost s).part q).fill = none ∧ ∀ k st, k ∈ waitersOf s q x.bobbin → tfind s.steps k = some st → Undecided st →
      FailsWith (forAll l loseHost s) k 0x0602 := by
  have hstands : ∀ (l : List Nat) (t : State) (k : Nat), FailsWith t k 0x0602 → FailsWith (forAll l loseHost t) k 0x0602 :=
    fun l t k h => (forAll_rel Loses.refl Loses.trans loseHost_loses l t).fails k _ h
  have hgone : ∀ (l : List Nat) (t : State), (t.part q).fill = none → ((forAll l loseHost t).part q).fill = none := fun l t h =>
    forAll_rel (R := fun a b => (a.part q).fill = none → (b.part q).fill = none) (fun _ => id) (fun h h' => h' ∘ h)
      (fun t p ht => by
        by_cases hp : q = p
        · subst hp
          rw [loseHost_of_none ht, ht]
        · rw [(loseHost_spares t hp).fill, ht]) l t h
  induction l generalizing s with
  | nil => exact absurd hq nofun
  | cons p l ih =>
    show ((forAll l loseHost (loseHost s p)).part q).fill = none ∧ _
    by_cases hp : q = p
    · subst hp
      have hlost := loseHost_of_backing hfill hbacking
      refine ⟨hgone l _ ?_, fun k st hk hst hopen => hstands l _ k ?_⟩ <;> rw [hlost]
      · rw [fill_failFetch, hfill]
        simp
      · exact (failFetch_slot s q x.bobbin 0x0602 hst hopen).resolve_right fun h => h.1 hk
    · have hspared := loseHost_spares s hp
      obtain ⟨hnone, hfails⟩ := ih ((List.mem_cons.1 hq).resolve_left hp) (hspared.fill.trans hfill)
      refine ⟨hnone, fun k st hk hst hopen => ?_⟩
      rcases loseHost_slot s p hst hopen with hfailed | hslot
      · exact hstands l _ k hfailed
      · refine hfails k st (mem_waitersOf hslot (fun j => ?_) hk) (hslot.tfind.trans hst) hopen
        rw [bobbin_congr hspared.bobbins]
        exact ⟨rfl, rfl⟩

/-! ### The link goes down -/

/-- A step that had ended with writes not yet read back fails with them (R371). -/
def trafficMark (l : List Nat) (k : Nat) (st : Step) : Step :=
  if l.contains k && st.hostWrites && st.fail.isNone then { st with fail := some 0x0A01 } else st

/-- The steps whose host traffic was lost have failed (R371). -/
def trafficLost (s : State) (l : List Nat) : State :=
  let failed := forAll l (fun s k => failStep s k 0x0A01) s
  { failed with steps := tmap failed.steps (trafficMark l) }

theorem trafficLost_loses (s : State) (l : List Nat) : Loses s (trafficLost s l) := by
  have hfailed := forAll_failStep_loses l 0x0A01 s
  unfold trafficLost
  extract_lets failed
  refine hfailed.trans ⟨rfl, rfl, rfl, fun _ => rfl, fun _ _ => rfl, fun k e ⟨st, hst, hfail⟩ => ⟨st, ?_, hfail⟩⟩
  rw [tfind_tmap, hst, Option.map_some]
  simp [trafficMark, hfail]

theorem part_trafficLost (s : State) (l : List Nat) (q : Nat) : PartSpared q s (trafficLost s l) := by
  have hspared : PartSpared q s (forAll l (fun s k => failStep s k 0x0A01) s) :=
    .of_fails (forAll_ends (fun t k => failStep_fails t k 0x0A01) l s)
  exact ⟨hspared.fill, hspared.bobbins⟩

theorem filter_tmap_of_fixed {α : Type} (l : Tab α) {g : Nat → α → α} (h : ∀ v, g k v = v) :
    (tmap l g).filter (·.1 == k) = l.filter (·.1 == k) := by
  induction l with
  | nil => rfl
  | cons e l ih =>
    obtain ⟨k', v⟩ := e
    have hcons : tmap ((k', v) :: l) g = (k', g k' v) :: tmap l g := rfl
    rw [hcons, List.filter_cons, List.filter_cons, ih]
    by_cases hk : k' = k
    · subst hk
      simp [h]
    · simp [hk]

theorem trafficLost_slot {l : List Nat} (hk : k ∉ l) (s : State) : SlotStands k s (trafficLost s l) := by
  have hfailed : SlotStands k s (forAll l (fun s k => failStep s k 0x0A01) s) :=
    forAll_slotStands (fun t j hj => failStep_slotStands t (fun h : j = k => hk (by rw [← h]; exact hj)) _) s
  have hmarked := filter_tmap_of_fixed (k := k) (forAll l (fun s k => failStep s k 0x0A01) s).steps (g := trafficMark l)
    fun st => by simp [trafficMark, hk]
  exact hfailed.trans hmarked

theorem trafficLost_failsWith {l : List Nat} {st : Step} (hk : k ∈ l) (hst : tfind s.steps k = some st) (hopen : Undecided st) :
    FailsWith (trafficLost s l) k 0x0A01 := by
  obtain ⟨st', hst', hfail⟩ := forAll_failStep_failsWith (c := 0x0A01) hk hst hopen
  refine ⟨st', ?_, hfail⟩
  show tfind (tmap (forAll l (fun s k => failStep s k 0x0A01) s).steps (trafficMark l)) k = some st'
  rw [tfind_tmap, hst', Option.map_some]
  simp [trafficMark, hfail]

/-- Backing copies that were cut off are no longer valid (R245). -/
def copiesLost (s : State) (l : List (Nat × Nat)) : State :=
  forAll l (fun s c => modBobbin s c.1 c.2 fun b => { b with backing := false }) s

/-- One backing copy is no longer valid. -/
theorem bobbin_copyLost (s : State) (c : Nat × Nat) (p i : Nat) :
    bobbin (modBobbin s c.1 c.2 fun b => { b with backing := false }) p i
      = if c = (p, i) then { bobbin s p i with backing := false } else bobbin s p i := by
  obtain ⟨q, j⟩ := c
  rw [bobbin, modBobbin]
  by_cases hq : p = q
  · subst hq
    rw [part_modPart_self]
    by_cases hj : i = j
    · subst hj
      rw [tget_tput_self, if_pos rfl]
      rfl
    · rw [tget_tput_ne _ _ _ hj, if_neg (by simp [Ne.symm hj])]
      rfl
  · rw [part_modPart_ne _ _ hq, if_neg (by simp [Ne.symm hq])]
    rfl

theorem bobbin_copiesLost (l : List (Nat × Nat)) (s : State) (p i : Nat) :
    bobbin (copiesLost s l) p i = if (p, i) ∈ l then { bobbin s p i with backing := false } else bobbin s p i := by
  induction l generalizing s with
  | nil => simp [copiesLost, forAll]
  | cons c l ih =>
    refine (ih _).trans ?_
    rw [bobbin_copyLost]
    by_cases hc : c = (p, i)
    · simp [hc]
    · simp [hc, Ne.symm hc]

theorem copiesLost_rest (s : State) (l : List (Nat × Nat)) : copiesLost s l = { s with parts := (copiesLost s l).parts } :=
  forAll_rel (R := fun s t => t = { s with parts := t.parts }) (fun _ => rfl) (fun h h' => by rw [h', h]) (fun _ _ => rfl) l s

theorem fill_copiesLost (s : State) (l : List (Nat × Nat)) (q : Nat) : ((copiesLost s l).part q).fill = (s.part q).fill :=
  forAll_keeps (fun s => (s.part q).fill) (fun t c => by
    rw [modBobbin]
    by_cases hq : q = c.1
    · subst hq
      rw [part_modPart_self]
    · rw [part_modPart_ne _ _ hq]) l s

/-- How a function is detached (R370, R371). -/
def detached (now : Nat) (lost : List Nat) (x : Func) : Func :=
  { x with
    taken := x.taken.filter fun t => !(!t.boot)
    detached := true, enable := false, disabling := false, evtEnable := false, evtVectorDue := false
    rsps := x.rsps.filter (·.boot)
    evtHeld := ((x.evtRecent.filter fun r => decide (now < 20000 + r.1)).map fun r =>
      { r.2 with held := true, redelivered := true, posted := now }) ++ x.evtHeld.filter fun e => e.kind != 5
    evtRecent := []
    evtQueue := x.evtQueue.map fun e =>
      if e.waitsRb && (match e.slot with
          | some k => lost.contains k
          | none => false) then { e with waitsRb := false, status := 0x0A01 } else e }

/-- A function that was detached while entries were confirmed or not, from what it was before. -/
structure DetachedFrom (now : Nat) (x y : Func) : Prop where
  enabled : y.enabled = x.enabled
  detached : y.detached = true
  enable : y.enable = false
  disabling : y.disabling = false
  evtEnable : y.evtEnable = false
  evtRecent : y.evtRecent = []
  rsps : ∀ r ∈ y.rsps, r.boot = true
  taken : ∀ k ∈ y.taken, k.boot = true
  log2 : y.log2 = x.log2
  evtHeld : (∀ r ∈ x.evtRecent, r.2.kind ≠ 5) → y.evtHeld = ((x.evtRecent.filter fun r => decide (now < 20000 + r.1)).map fun r =>
    { r.2 with held := true, redelivered := true, posted := now }) ++ x.evtHeld.filter fun e => e.kind != 5

theorem detachedFrom_detached (now : Nat) (lost : List Nat) (x : Func) : DetachedFrom now x (detached now lost x) where
  enabled := rfl
  detached := rfl
  enable := rfl
  disabling := rfl
  evtEnable := rfl
  evtRecent := rfl
  rsps r hr := (List.mem_filter.1 hr).2
  taken k hk := by simpa [Machine.detached] using (List.mem_filter.1 hk).2
  log2 := rfl
  evtHeld _ := rfl

/-- To be detached again leaves a function as it is, but for tick entries. -/
theorem DetachedFrom.again {now : Nat} {x y : Func} (h : DetachedFrom now x y) (lost : List Nat) :
    DetachedFrom now x (Machine.detached now lost y) where
  enabled := h.enabled
  detached := rfl
  enable := rfl
  disabling := rfl
  evtEnable := rfl
  evtRecent := rfl
  rsps r hr := (List.mem_filter.1 hr).2
  taken k hk := by simpa [Machine.detached] using (List.mem_filter.1 hk).2
  log2 := h.log2
  evtHeld hkinds := by
    simp only [Machine.detached, h.evtRecent, h.evtHeld hkinds, List.filter_nil, List.map_nil, List.nil_append, List.filter_append,
      List.filter_filter, Bool.and_self]
    congr 1
    refine List.filter_eq_self.2 fun e he => ?_
    obtain ⟨r, hr, rfl⟩ := List.mem_map.1 he
    exact bne_iff_ne.2 (hkinds r (List.mem_of_mem_filter hr))

/-- What the detaching of a function leaves of everything else. -/
structure Detaches (s t : State) : Prop where
  host : t.host = s.host
  coll : t.coll = s.coll
  aon : t.aon = s.aon
  steps : t.steps = s.steps
  fill : ∀ q, (t.part q).fill = (s.part q).fill
  backing : ∀ p i, (bobbin t p i).backing = (bobbin s p i).backing

theorem Detaches.refl (s : State) : Detaches s s := ⟨rfl, rfl, rfl, rfl, fun _ => rfl, fun _ _ => rfl⟩

theorem Detaches.trans (h : Detaches s t) (h' : Detaches t u) : Detaches s u :=
  ⟨h'.host.trans h.host, h'.coll.trans h.coll, h'.aon.trans h.aon, h'.steps.trans h.steps, fun q => (h'.fill q).trans (h.fill q),
    fun p i => (h'.backing p i).trans (h.backing p i)⟩

/-- A partition with tags of its requests rewritten. -/
def orphanedPart (h : Option (Nat × Nat) → Option (Nat × Nat)) (k3 : List (Nat × Nat × Option Nat) → List (Nat × Nat × Option Nat))
    (x : Part) : Part :=
  { x with
    reqTag := h x.reqTag
    resetTags := x.resetTags.map k3
    objs := tmap x.objs fun _ o => { o with zeroTag := h o.zeroTag }
    progs := tmap x.progs fun _ o => { o with loading := h o.loading }
    bobbins := tmap x.bobbins fun _ o => { o with installing := h o.installing } }

theorem parts_orphan (s : State) (f : Nat) (c : Taken → Bool) :
    ∃ h k3, (orphan s f c).parts = tmap s.parts fun _ x => orphanedPart h k3 x := ⟨_, _, rfl⟩

theorem orphan_detaches (s : State) (f : Nat) (c : Taken → Bool) : Detaches s (orphan s f c) := by
  obtain ⟨h, k3, hparts⟩ := parts_orphan s f c
  refine ⟨rfl, rfl, rfl, rfl, fun q => ?_, fun q i => ?_⟩
  · rw [State.part, hparts, tget, tfind_tmap, State.part, tget]
    cases tfind s.parts q <;> rfl
  · rw [bobbin, State.part, hparts, bobbin, State.part]
    simp only [tget, tfind_tmap]
    cases tfind s.parts q with
    | none => rfl
    | some x =>
      simp only [Option.map_some, Option.getD_some, orphanedPart, tfind_tmap]
      cases tfind x.bobbins i <;> rfl

theorem detach_detaches (s : State) (lost : List Nat) (f : Nat) : Detaches s (detach s lost f) :=
  (orphan_detaches s f fun t => !t.boot).trans ⟨rfl, rfl, rfl, rfl, fun _ => rfl, fun _ _ => rfl⟩

theorem func_orphan_ne (s : State) {g : Nat} (h : g ≠ f) (c : Taken → Bool) : (orphan s f c).func g = s.func g := by
  unfold orphan
  extract_lets
  exact func_modFunc_ne _ _ h

theorem func_detach_self (s : State) (lost : List Nat) (f : Nat) : (detach s lost f).func f = detached (time s) lost (s.func f) := by
  have htime : time (orphan s f fun t => !t.boot) = time s := by rw [time, time, (orphan_detaches s f _).aon]
  have hself := func_orphan_self s f fun t => !t.boot
  unfold detach
  generalize orphan s f (fun t => !t.boot) = v at *
  refine (func_modFunc_self (openQueues v fun r => r.1 == f) f _).trans ?_
  have hfunc : (openQueues v fun r => r.1 == f).func f = v.func f := rfl
  have hwtime : time (openQueues v fun r => r.1 == f) = time v := rfl
  rw [hfunc, hself, redeliver, hwtime, htime]
  rfl

theorem func_detach_ne (s : State) (lost : List Nat) {g : Nat} (h : g ≠ f) : (detach s lost f).func g = s.func g := by
  unfold detach
  exact (func_modFunc_ne (openQueues (orphan s f fun t => !t.boot) fun r => r.1 == f) _ h).trans (func_orphan_ne s h _)

theorem forAll_detach_detaches (lost : List Nat) (l : List Nat) (s : State) : Detaches s (forAll l (fun s f => detach s lost f) s) :=
  forAll_rel Detaches.refl Detaches.trans (fun t f => detach_detaches t lost f) l s

theorem time_detach (s : State) (lost : List Nat) (f : Nat) : time (detach s lost f) = time s := by
  rw [time, time, (detach_detaches s lost f).aon]

/-- Each enabled function is detached. -/
theorem forAll_detach_func {lost l : List Nat} (hf : f ∈ l) (s : State) :
    DetachedFrom (time s) (s.func f) ((forAll l (fun s f => detach s lost f) s).func f) := by
  have hagain : ∀ (l : List Nat) (t : State), time t = time s → DetachedFrom (time s) (s.func f) (t.func f) →
      DetachedFrom (time s) (s.func f) ((forAll l (fun s f => detach s lost f) t).func f) := by
    intro l
    induction l with
    | nil => exact fun _ _ h => h
    | cons g l ih =>
      intro t htime h
      refine ih (detach t lost g) ((time_detach t lost g).trans htime) ?_
      by_cases hg : f = g
      · subst hg
        rw [func_detach_self, htime]
        exact h.again lost
      · rw [func_detach_ne t lost hg]
        exact h
  have hall : ∀ (l : List Nat) (t : State), f ∈ l → time t = time s → t.func f = s.func f →
      DetachedFrom (time s) (s.func f) ((forAll l (fun s f => detach s lost f) t).func f) := by
    intro l
    induction l with
    | nil => exact fun _ h => absurd h nofun
    | cons g l ih =>
      intro t hmem htime hfunc
      by_cases hg : f = g
      · subst hg
        refine hagain l (detach t lost f) ((time_detach t lost f).trans htime) ?_
        rw [func_detach_self, htime, hfunc]
        exact detachedFrom_detached _ _ _
      · exact ih (detach t lost g) ((List.mem_cons.1 hmem).resolve_left hg) ((time_detach t lost g).trans htime)
          ((func_detach_ne t lost hg).trans hfunc)
  exact hall l s hf rfl rfl

/-! ### The commands -/

/-- The host is gone, and nothing done about it yet. -/
def linkLost (s : State) : State := { s with host := { s.host with linkUp := false, atsValid := false } }

/-- The slots of a loss that had traffic with the host. -/
def lostSlots (s : State) (l : List Nat) : List Nat := l.filter fun k => (tfind s.steps k).any (touchesHost s)

/-- Lost writes are reported (R371). -/
def writesLost (s : State) (writes : Bool) : State := if writes then reportCode s 0xA701 else s

/-- The fills that need the host have ended. -/
def fillsLost (s : State) : State := forAll (s.parts.map (·.1)) loseHost s

theorem hostLinkDown_held {now : Nat} {writes : Bool} {lost : List Nat} {copies : List (Nat × Nat)} (hlink : s.host.linkUp = true)
    (hreset : s.mainReset = true) : exec (.hostLinkDown now writes ⟨lost, copies⟩) s = .next (linkLost (advance s now)) := by
  have hexec : execHostLinkDown now writes ⟨lost, copies⟩ s = _ := timed_of s (by simp [hlink])
  have hdown : up (linkLost (advance s now)) = false := by simp [up, linkLost, hreset]
  refine Eq.trans hexec (congrArg _ ?_)
  show (if !up (linkLost (advance s now)) then linkLost (advance s now) else _) = _
  rw [hdown]
  rfl

theorem hostLinkDown_exec {now : Nat} {writes : Bool} {lost : List Nat} {copies : List (Nat × Nat)} (hlink : s.host.linkUp = true)
    (hup : s.mainReset = false) : exec (.hostLinkDown now writes ⟨lost, copies⟩) s = .next
      (let w := linkLost (advance s now)
       let v := fillsLost (copiesLost (trafficLost (writesLost w writes) (lostSlots w lost)) copies)
       forAll ((v.funcs.filter fun e => e.2.enabled).map (·.1)) (fun s f => detach s (lostSlots w lost) f) v) := by
  have hexec : execHostLinkDown now writes ⟨lost, copies⟩ s = _ := timed_of s (by simp [hlink])
  have hup' : up (linkLost (advance s now)) = true := by simp [up, linkLost, hup]
  refine Eq.trans hexec (congrArg _ ?_)
  show (if !up (linkLost (advance s now)) then linkLost (advance s now) else _) = _
  rw [hup']
  rfl

theorem quiet_A701 : QuietCode 0xA701 := by decide

/-- A report of lost writes reaches the collector and the pins alone. -/
theorem writesLost_rest (s : State) (writes : Bool) : writesLost s writes = { s with
    aon := { s.aon with vmonBoot := (writesLost s writes).aon.vmonBoot, secalmN := (writesLost s writes).aon.secalmN
                        secalmAt := (writesLost s writes).aon.secalmAt }
    coll := (writesLost s writes).coll, out := (writesLost s writes).out } := by
  unfold writesLost
  split
  · exact reportCode_shape quiet_A701 s
  · rfl

theorem time_writesLost (s : State) (writes : Bool) : time (writesLost s writes) = time s := by
  unfold writesLost
  split
  · exact time_reportCode quiet_A701 s
  · rfl

theorem mem_parts_of_fill {x : Fill} (h : (s.part q).fill = some x) : q ∈ s.parts.map (·.1) := by
  rw [State.part, tget] at h
  cases hq : tfind s.parts q with
  | none =>
    rw [hq] at h
    exact absurd h nofun
  | some y => exact List.mem_map.2 ⟨(q, y), mem_of_tfind hq, rfl⟩

theorem mem_enabled (h : (s.func f).enabled = true) : f ∈ (s.funcs.filter fun e => e.2.enabled).map (·.1) := by
  rw [State.func, tget] at h
  cases hf : tfind s.funcs f with
  | none =>
    rw [hf] at h
    exact absurd h (by decide)
  | some x =>
    rw [hf] at h
    exact List.mem_map.2 ⟨(f, x), List.mem_filter.2 ⟨mem_of_tfind hf, h⟩, rfl⟩

/-- R371, R372: what the loss of the host link brings about, functions but for. -/
theorem fillsLost_spec (w : State) (writes : Bool) (l : List Nat) (copies : List (Nat × Nat)) :
    let v := fillsLost (copiesLost (trafficLost (writesLost w writes) l) copies)
    v.host = w.host ∧ v.coll = (writesLost w writes).coll ∧ time v = time w ∧ (∀ f, FuncEnds (w.func f) (v.func f))
      ∧ (∀ k st, k ∈ l → tfind w.steps k = some st → Undecided st → FailsWith v k 0x0A01)
      ∧ (∀ c ∈ copies, (bobbin v c.1 c.2).backing = false)
      ∧ ∀ q x, (w.part q).fill = some x → x.backing = true → (v.part q).fill = none
        ∧ ∀ k st, k ∈ waitersOf w q x.bobbin → k ∉ l → tfind w.steps k = some st → Undecided st → FailsWith v k 0x0602 := by
  intro v
  have hv : v = fillsLost (copiesLost (trafficLost (writesLost w writes) l) copies) := rfl
  clear_value v
  have hreport := writesLost_rest w writes
  have htime := time_writesLost w writes
  generalize hr : writesLost w writes = r at *
  have hrfunc : ∀ f, r.func f = w.func f := fun f => by rw [hreport]; rfl
  have hrsteps : r.steps = w.steps := by rw [hreport]
  have hrparts : r.parts = w.parts := by rw [hreport]
  have hrhost : r.host = w.host := by rw [hreport]
  have htraffic := trafficLost_loses r l
  have hcopies := copiesLost_rest (trafficLost r l) copies
  have hbobbins := bobbin_copiesLost copies (trafficLost r l)
  have hfills := fill_copiesLost (trafficLost r l) copies
  have hspared := part_trafficLost r l
  have hlost : ∀ k st, k ∈ l → tfind w.steps k = some st → Undecided st → FailsWith (trafficLost r l) k 0x0A01 := fun k st hk hst hopen =>
    trafficLost_failsWith hk (hrsteps ▸ hst) hopen
  have hslot : ∀ k, k ∉ l → SlotStands k r (trafficLost r l) := fun k hk => trafficLost_slot hk r
  generalize trafficLost r l = b at *
  generalize copiesLost b copies = c at *
  have hloses : Loses c v := by rw [hv]; exact forAll_rel Loses.refl Loses.trans loseHost_loses _ c
  have hcsteps : c.steps = b.steps := by rw [hcopies]
  refine ⟨?_, ?_, ?_, fun f => ?_, fun k st hk hst hopen => ?_, fun d hd => ?_, fun q x hfill hbacking => ?_⟩
  · rw [hloses.host, hcopies, ← hrhost, ← htraffic.host]
  · rw [hloses.coll, hcopies, ← htraffic.coll]
  · rw [time, hloses.aon, hcopies, ← htime, time, htraffic.aon]
  · have hcf : c.func f = b.func f := by rw [hcopies]; rfl
    rw [FuncEnds, hloses.func f, hcf, htraffic.func f, hrfunc]
  · refine hloses.fails k _ ?_
    rw [FailsWith, hcsteps]
    exact hlost k st hk hst hopen
  · rw [hloses.backing, hbobbins, if_pos hd]
  · have hrfill : (r.part q).fill = some x := by rw [State.part, hrparts]; exact hfill
    have hcfill : (c.part q).fill = some x := (hfills q).trans ((hspared q).fill.trans hrfill)
    obtain ⟨hnone, hfails⟩ := forAll_loseHost_fill (mem_parts_of_fill hcfill) hcfill hbacking
    have hall : forAll (c.parts.map (·.1)) loseHost c = v := hv.symm
    rw [hall] at hnone hfails
    refine ⟨hnone, fun k st hk hnot hst hopen => ?_⟩
    have hstand : SlotStands k w c := ((SlotStands.of_steps hrsteps).trans (hslot k hnot)).trans (.of_steps hcsteps)
    refine hfails k st (mem_waitersOf hstand (fun j => ?_) hk) (hstand.tfind.trans hst) hopen
    have hsame : bobbin b q j = bobbin w q j := (bobbin_congr (hspared q).bobbins j).trans (bobbin_congr (by rw [State.part, hrparts]; rfl) j)
    rw [hbobbins]
    split <;> rw [hsame] <;> exact ⟨rfl, rfl⟩

/-- R376: the link comes up with nothing else changed. -/
theorem hostLinkUp_exec {now : Nat} (h : s.host.linkUp = false) :
    exec (.hostLinkUp now) s = .next { advance s now with host := { (advance s now).host with linkUp := true } } :=
  (timed_of s (by simp [h]) : execHostLinkUp now s = _)

/-- R377: a host read without an answer fails its step. -/
theorem hostMasterReadTimeout_spec {now slot : Nat} {st : Step} (hup : s.mainReset = false) (hinit : s.coll.init = true)
    (hst : tfind s.steps slot = some st) (hopen : Undecided st) : ∃ t, exec (.hostMasterReadTimeout now slot) s = .next t
      ∧ (0xA703 : Code) ∈ t.coll.log ∧ FailsWith t slot 0x0A01 ∧ ∀ k, k ≠ slot → tfind t.steps k = tfind s.steps k := by
  generalize hr : ({ code := 0xA703, slots := [slot] } : Report) = r
  have hcode : r.code = 0xA703 := by rw [← hr]
  have hslots : r.slots = [slot] := by rw [← hr]
  have hclass : codeClass r.code = 2 := by rw [hcode]; decide
  have hunit : codeUnit r.code = 39 := by rw [hcode]; decide
  have hengine : faultEngine r = none := faultEngine_of_unit (by omega) (by omega)
  have hexec : execHostMasterReadTimeout now slot s = _ := timed_of s (by simp [up, hup])
  rw [hr, report_of_init (by omega) (by omega) (by simpa using hinit), reacted, if_neg (by omega), if_pos hclass,
    contain_of_no_engine hengine] at hexec
  have hst' : tfind (latched (advance s now) r).steps slot = some st := by rw [latched_steps, advance_steps, hst]
  have hpasses : passes (latched (advance s now) r) r st.part = true := by simp [passes, hunit]
  have hnamed : slot ∈ faultSteps (latched (advance s now) r) r :=
    (mem_faultSteps_of_no_engine hengine hst').2 ⟨by simp [hslots], hpasses⟩
  refine ⟨_, hexec, ?_, ?_, fun k hk => ?_⟩
  · rw [withIbi_coll, (stepsFailed_calm (latched (advance s now) r) r).collector, latched_coll, ← hcode]
    exact mem_latch_log (by omega)
  · have hfails := stepsFailed_failsWith hnamed hst' hopen
    rw [FailsWith, withIbi_steps]
    simpa [FailsWith, hcode, faultStatus] using hfails
  · have hother : k ∉ faultSteps (latched (advance s now) r) r := by
      simp only [faultSteps, hengine, hslots]
      intro hmem
      exact hk (List.mem_singleton.1 (List.mem_of_mem_filter hmem))
    rw [withIbi_steps, stepsFailed_other hother, latched_steps, advance_steps]

/-- The object part of a partition is clear (R281, R500). -/
def flrCleared (s : State) (p : Nat) : State :=
  if active s p then scrubRecord (hbmClear s p 0 (objSpace (s.part p))) 2 p (partGranules (s.part p)) else s

theorem flrComplete_exec {now : Nat} (hup : s.mainReset = false) (hflr : (s.func f).inFlr = true) : exec (.flrComplete now f) s = .next
    ((forAll (s.func f).flrParts flrCleared (advance s now)).modFunc f fun x => { x with inFlr := false, flrParts := [] }) := by
  have hfunc : (advance s now).func f = s.func f := by rw [State.func, advance_funcs]; rfl
  have hexec : execFlrComplete now f s = _ := timed_of s (by simp [up, hup, hfunc, hflr])
  rw [hfunc] at hexec
  exact hexec

/-- What clearing changes: object space, by clearing alone, and its records. -/
structure Clears (s t : State) : Prop where
  rest : t = { s with hbm := t.hbm, hbmPoison := t.hbmPoison, scrubs := t.scrubs }
  zero : ∀ a, mread s.hbm a = 0 → mread t.hbm a = 0

theorem Clears.refl (s : State) : Clears s s := ⟨rfl, fun _ => id⟩

theorem Clears.trans (h : Clears s t) (h' : Clears t u) : Clears s u := ⟨by rw [h'.rest, h.rest], fun a ha => h'.zero a (h.zero a ha)⟩

theorem flrCleared_eq (h : active s p = true) :
    flrCleared s p = scrubRecord (hbmClear s p 0 (objSpace (s.part p))) 2 p (partGranules (s.part p)) := if_pos h

theorem flrCleared_clears (s : State) (p : Nat) : Clears s (flrCleared s p) := by
  by_cases h : active s p = true
  · rw [flrCleared_eq h, scrubRecord_rest]
    generalize (scrubRecord (hbmClear s p 0 (objSpace (s.part p))) 2 p (partGranules (s.part p))).scrubs = records
    refine ⟨rfl, fun a ha => ?_⟩
    show mread (mclear s.hbm _ _) a = 0
    rw [mread_mclear]
    split
    · rfl
    · exact ha
  · rw [flrCleared, if_neg h]
    exact .refl s

theorem mread_flrCleared {a : Nat} (h : active s p = true) (ha : a < objSpace (s.part p)) :
    mread (flrCleared s p).hbm (hbmAddr p a) = 0 := by
  rw [flrCleared_eq h, scrubRecord_rest]
  show mread (mclear s.hbm _ _) _ = 0
  rw [mread_mclear, if_pos]
  simp only [hbmAddr]
  omega

theorem forAll_flrCleared_zero {l : List Nat} {a : Nat} (hp : p ∈ l) (h : active s p = true) (ha : a < objSpace (s.part p)) :
    mread (forAll l flrCleared s).hbm (hbmAddr p a) = 0 := by
  induction l generalizing s with
  | nil => exact absurd hp nofun
  | cons q l ih =>
    have hclears := flrCleared_clears s q
    have hpart : (flrCleared s q).part p = s.part p := by rw [hclears.rest]; rfl
    rcases List.mem_cons.1 hp with rfl | hmem
    · exact (forAll_rel Clears.refl Clears.trans flrCleared_clears l (flrCleared s p)).zero _ (mread_flrCleared h ha)
    · exact ih hmem (by rw [active, hpart]; exact h) (by rw [hpart]; exact ha)

/-- Settles O43. -/
theorem hostLinkAndFunctionReset : Obligations.HostLinkAndFunctionReset := by
  unfold Obligations.HostLinkAndFunctionReset
  refine ⟨fun s now writes lost copies hlink => ⟨fun hreset => ?_, fun hup => ?_⟩, fun s now hlink => ?_,
    fun s now slot st hup hinit hst hopen => ?_, fun s now f hup henabled => ?_, fun s now f hup hflr => ?_⟩
  · refine ⟨_, hostLinkDown_held hlink hreset, ?_⟩
    rw [linkLost, advance_eq]
  · have hexec := hostLinkDown_exec (now := now) (writes := writes) (lost := lost) (copies := copies) hlink hup
    generalize hw : linkLost (advance s now) = w at hexec
    have hhost : w.host = { s.host with linkUp := false, atsValid := false } := by rw [← hw, linkLost, advance_host]
    have hsteps : w.steps = s.steps := by rw [← hw, linkLost, advance_steps]
    have hparts : w.parts = s.parts := by rw [← hw, linkLost, advance_parts]
    have hfuncs : w.funcs = s.funcs := by rw [← hw, linkLost, advance_funcs]
    have hcoll : w.coll = s.coll := by rw [← hw, linkLost, advance_coll]
    have hfunc : ∀ f, w.func f = s.func f := fun f => by rw [State.func, hfuncs]; rfl
    have hpart : ∀ q, w.part q = s.part q := fun q => by rw [State.part, hparts]; rfl
    have hsub : ∀ k, k ∈ lostSlots w lost → k ∈ lost := fun k hk => List.mem_of_mem_filter hk
    have htouch : ∀ k st, k ∈ lost → tfind s.steps k = some st → touchesHost s st = true → k ∈ lostSlots w lost :=
      fun k st hk hst htouches => List.mem_filter.2 ⟨hk, by
        rw [hsteps, hst, Option.any_some, touchesHost]
        simp only [memObj, hpart]
        exact htouches⟩
    obtain ⟨hvhost, hvcoll, hvtime, hvfunc, hvlost, hvcopies, hvfill⟩ := fillsLost_spec w writes (lostSlots w lost) copies
    dsimp only at hexec
    generalize fillsLost (copiesLost (trafficLost (writesLost w writes) (lostSlots w lost)) copies) = v at *
    have hdet := forAll_detach_detaches (lostSlots w lost) ((v.funcs.filter fun e => e.2.enabled).map (·.1)) v
    have hfails : ∀ k e, FailsWith v k e → FailsWith (forAll ((v.funcs.filter fun e => e.2.enabled).map (·.1))
        (fun s f => detach s (lostSlots w lost) f) v) k e := fun k e h => by rwa [FailsWith, hdet.steps]
    refine ⟨_, hexec, hdet.host.trans (hvhost.trans hhost), fun hwrites hinit => ?_, fun k st hk hst htouches hopen => ?_,
      fun c hc => (hdet.backing c.1 c.2).trans (hvcopies c hc), fun q x hfill hbacking => ?_, fun f hf => ?_⟩
    · rw [hdet.coll, hvcoll, hwrites]
      exact mem_log_reportCode quiet_A701 (by decide) (by rw [hcoll]; exact hinit)
    · exact hfails k _ (hvlost k st (htouch k st hk hst htouches) (hsteps ▸ hst) hopen)
    · obtain ⟨hnone, hwait⟩ := hvfill q x (by rw [hpart]; exact hfill) hbacking
      refine ⟨(hdet.fill q).trans hnone, fun k st hk hnot hst hopen => hfails k _ (hwait k st ?_ (fun h => hnot (hsub k h)) (hsteps ▸ hst) hopen)⟩
      have hbobbin : ∀ j, bobbin w q j = bobbin s q j := bobbin_congr (by rw [hpart])
      exact mem_waitersOf (SlotStands.of_steps hsteps) (fun j => by rw [hbobbin]; exact ⟨rfl, rfl⟩) hk
    · have hends := hvfunc f
      rw [hfunc] at hends
      have hen : (v.func f).enabled = true := by rw [hends]; exact hf
      have hfrom := forAll_detach_func (lost := lostSlots w lost) (mem_enabled hen) v
      have htime : time (forAll ((v.funcs.filter fun e => e.2.enabled).map (·.1)) (fun s f => detach s (lostSlots w lost) f) v) = time v := by
        rw [time, time, hdet.aon]
      rw [htime]
      have hrecent : (v.func f).evtRecent = (s.func f).evtRecent := by rw [hends]
      have hheld : (v.func f).evtHeld = (s.func f).evtHeld := by rw [hends]
      have hlog : (v.func f).log2 = (s.func f).log2 := by rw [hends]
      refine ⟨hfrom.enabled.trans hen, hfrom.detached, hfrom.enable, hfrom.disabling, hfrom.evtEnable, hfrom.evtRecent, hfrom.rsps,
        hfrom.taken, hfrom.log2.trans hlog, fun hkinds => ?_⟩
      rw [← hrecent, ← hheld]
      exact hfrom.evtHeld (hrecent ▸ hkinds)
  · refine ⟨_, hostLinkUp_exec hlink, ?_⟩
    rw [advance_eq]
  · obtain ⟨t, hexec, hlog, hfails, hothers⟩ := hostMasterReadTimeout_spec (now := now) hup hinit hst hopen
    exact ⟨t, hexec, hlog, hfails, fun k hk => by rw [hothers k hk]⟩
  · obtain ⟨t, hexec, hself, hparts⟩ := flr_spec (now := now) hup henabled
    refine ⟨t, hexec, hself, fun p hactive howner => ?_⟩
    obtain ⟨hp, hbare⟩ := hparts p hactive howner
    exact ⟨hp, hbare.step, hbare.queues, hbare.ctx⟩
  · have hexec := flrComplete_exec (now := now) hup hflr
    have hclears := forAll_rel Clears.refl Clears.trans flrCleared_clears (s.func f).flrParts (advance s now)
    have hzero : ∀ p a, p ∈ (s.func f).flrParts → active s p = true → a < objSpace (s.part p) →
        mread (forAll (s.func f).flrParts flrCleared (advance s now)).hbm (hbmAddr p a) = 0 := fun p a hp hactive ha => by
      have hpart : (advance s now).part p = s.part p := by rw [State.part, advance_parts]; rfl
      exact forAll_flrCleared_zero hp (by rw [active, hpart]; exact hactive) (by rw [hpart]; exact ha)
    generalize forAll (s.func f).flrParts flrCleared (advance s now) = v at *
    have hfuncs : v.funcs = s.funcs := by rw [hclears.rest, advance_eq]
    have hfunc : ∀ g, v.func g = s.func g := fun g => by rw [State.func, hfuncs]; rfl
    refine ⟨_, hexec, ?_, hzero, ?_, ?_, fun g hg => ?_⟩
    · rw [func_modFunc_self, hfunc]
    · show v.parts = _
      rw [hclears.rest, advance_eq]
    · show v.steps = _
      rw [hclears.rest, advance_eq]
    · rw [func_modFunc_ne _ _ hg, hfunc]

end Sys2Proof.Machine

/-! PROOFS. The mailbox rings and the boot mailbox (R331 to R337). -/

namespace Sys2Proof.Machine

open Sys2Proof.Claims

variable {s t u : State} {f : Nat}

/-! ### The registers (R332 to R334, R337) -/

/-- A ring with nothing taken and unanswered reads 0 at once when it is stopped. -/
theorem settleDisable_idle {x : Func} (hdis : x.disabling = true) (htaken : ∀ k ∈ x.taken, k.boot = true) (hrsps : ∀ r ∈ x.rsps, r.boot = true) :
    settleDisable x = { x with enable := false, disabling := false } := by
  have ht : x.taken.any (fun t => !t.boot) = false := List.any_eq_false.2 fun k hk => by simp [htaken k hk]
  have hr : x.rsps.any (fun r => !r.boot) = false := List.any_eq_false.2 fun r hr => by simp [hrsps r hr]
  rw [settleDisable, hdis, ht, hr]
  rfl

theorem settleDisable_busy {x : Func} {k : Taken} (hk : k ∈ x.taken) (hboot : k.boot = false) : settleDisable x = x := by
  have ht : x.taken.any (fun t => !t.boot) = true := List.any_eq_true.2 ⟨k, hk, by simp [hboot]⟩
  rw [settleDisable, ht]
  simp

/-- The settling of a ring that stops writes `enable` and its own note alone. -/
theorem settleDisable_rest (x : Func) :
    settleDisable x = { x with enable := (settleDisable x).enable, disabling := (settleDisable x).disabling } := by
  unfold settleDisable
  split <;> rfl

theorem writeMbxCtrl_start {x : Func} (h : x.enable = false) (log2 v : Nat) : writeMbxCtrl false true log2 v x = { x with
    enable := true, disabling := false, overrun := false, reqHead := 0, tail := 0, rspHead := 0, rspCount := 0
    rspVector := v % 2048, log2 := if 4 ≤ log2 ∧ log2 ≤ 12 then log2 else x.log2 } := by
  simp [writeMbxCtrl, h]

theorem writeMbxCtrl_running {x : Func} (h : x.enable = true) (minimal : Bool) (log2 v : Nat) :
    writeMbxCtrl minimal true log2 v x = { x with rspVector := v % 2048 } := by
  cases minimal <;> simp [writeMbxCtrl, h]

theorem writeMbxCtrl_stop {x : Func} (h : x.enable = true) (log2 v : Nat) :
    writeMbxCtrl false false log2 v x = settleDisable { x with rspVector := v % 2048, disabling := true } := by
  simp [writeMbxCtrl, h]

/-- A write of one function's registers. -/
theorem modFunc_written (s : State) (f : Nat) (g : Func → Func) : s.modFunc f g = { s with funcs := (s.modFunc f g).funcs }
    ∧ (∀ k, k ≠ f → (s.modFunc f g).func k = s.func k) ∧ (s.modFunc f g).func f = g (s.func f) :=
  ⟨rfl, fun _ hk => func_modFunc_ne _ _ hk, func_modFunc_self _ _ _⟩

/-! ### Responses (R334, R337) -/

/-- A response that leaves its function's list. -/
def rspTaken (s : State) (f : Nat) (r : Rsp) : State := s.modFunc f fun x => { x with rsps := x.rsps.erase r }

theorem func_rspTaken (s : State) (f : Nat) (r : Rsp) : (rspTaken s f r).func f = { s.func f with rsps := (s.func f).rsps.erase r } :=
  func_modFunc_self _ _ _

theorem func_rspTaken_ne (s : State) {g : Nat} (h : g ≠ f) (r : Rsp) : (rspTaken s f r).func g = s.func g := func_modFunc_ne _ _ h

theorem postRsp_ring {r : Rsp} (h : r.boot = false) (s : State) (f : Nat) : postRsp s f r
    = openQueues (emit ((emit (rspTaken s f r) (.response f ((s.func f).rspCount % 2 ^ (s.func f).log2)
        ((s.func f).rspCount / 2 ^ (s.func f).log2 % 2 == 0) (time s) r)).modFunc f
          fun x => settleDisable { x with rspCount := ((s.func f).rspCount + 1) % 65536 }) (.msix f (s.func f).rspVector))
        fun c => c == (f, r.tag) && r.opcode == 0x0401 := by
  have hfunc := func_rspTaken s f r
  unfold postRsp
  rw [h]
  change openQueues (emit ((emit (rspTaken s f r) (.response f (((rspTaken s f r).func f).rspCount % 2 ^ ((rspTaken s f r).func f).log2)
    (((rspTaken s f r).func f).rspCount / 2 ^ ((rspTaken s f r).func f).log2 % 2 == 0) (time s) r)).modFunc f
    fun x => settleDisable { x with rspCount := (((rspTaken s f r).func f).rspCount + 1) % 65536 })
    (.msix f ((rspTaken s f r).func f).rspVector)) _ = _
  rw [hfunc]

/-- R334: a response of the ring in its entry, its vector after it. -/
theorem postRsp_ring_spec {r : Rsp} (h : r.boot = false) (s : State) (f : Nat) :
    ((postRsp s f r).func f).rsps = (s.func f).rsps.erase r ∧ ((postRsp s f r).func f).rspCount = ((s.func f).rspCount + 1) % 65536
    ∧ (postRsp s f r).out = .msix f (s.func f).rspVector :: .response f ((s.func f).rspCount % 2 ^ (s.func f).log2)
        ((s.func f).rspCount / 2 ^ (s.func f).log2 % 2 == 0) (time s) r :: s.out
    ∧ (∀ g, g ≠ f → (postRsp s f r).func g = s.func g) ∧ time (postRsp s f r) = time s
    ∧ ∀ q x, tfind s.queues q = some x → x.crTag = some (f, r.tag) → r.opcode = 0x0401 →
        ((postRsp s f r).queue q).openAt = some (time s) := by
  rw [postRsp_ring h]
  have hself : ∀ (w : State) (n : Nat), (((w.modFunc f fun x => settleDisable { x with rspCount := n }).func f).rsps = (w.func f).rsps)
      ∧ ((w.modFunc f fun x => settleDisable { x with rspCount := n }).func f).rspCount = n := fun w n => by
    rw [func_modFunc_self, settleDisable_rest]
    exact ⟨rfl, rfl⟩
  have hfunc := func_rspTaken s f r
  obtain ⟨hrsps, hcount⟩ := hself (emit (rspTaken s f r) (.response f ((s.func f).rspCount % 2 ^ (s.func f).log2)
    ((s.func f).rspCount / 2 ^ (s.func f).log2 % 2 == 0) (time s) r)) (((s.func f).rspCount + 1) % 65536)
  refine ⟨hrsps.trans (congrArg Func.rsps hfunc), hcount, rfl, fun g hg => ?_, rfl, fun q x hq hcr hop => ?_⟩
  · refine (func_modFunc_ne (emit (rspTaken s f r) (.response f ((s.func f).rspCount % 2 ^ (s.func f).log2)
      ((s.func f).rspCount / 2 ^ (s.func f).log2 % 2 == 0) (time s) r))
      (fun x => settleDisable { x with rspCount := ((s.func f).rspCount + 1) % 65536 }) hg).trans ?_
    exact func_rspTaken_ne s hg r
  · have hopen : ∀ w : State, w.queues = s.queues → ((openQueues w fun c => c == (f, r.tag) && r.opcode == 0x0401).queue q).openAt
        = some (time w) := fun w hw => by
      rw [State.queue, openQueues]
      simp [tget, tfind_tmap, hw, hq, hcr, hop]
    exact hopen _ rfl

/-- R337: a response of the boot mailbox. -/
theorem postRsp_boot_spec {r : Rsp} (h : r.boot = true) (s : State) (f : Nat) : ∃ phase, ((postRsp s f r).func f).bootBusy = false
    ∧ ((postRsp s f r).func f).bootDone = true ∧ ((postRsp s f r).func f).boot = slice (rspBytes r phase (time s)) 0 64
    ∧ (postRsp s f r).out = .response f 0 phase (time s) r :: s.out ∧ ((postRsp s f r).func f).rsps = (s.func f).rsps.erase r
    ∧ ((postRsp s f r).func f).rspCount = (s.func f).rspCount ∧ (∀ g, g ≠ f → (postRsp s f r).func g = s.func g)
    ∧ time (postRsp s f r) = time s := by
  generalize hw : ({ rspTaken s f r with fresh := s.fresh + 1 } : State) = w
  have hpost : postRsp s f r = emit (w.modFunc f fun x =>
      { x with boot := slice (rspBytes r (Config.freeNat s.fresh % 2 == 1) (time s)) 0 64, bootBusy := false, bootDone := true })
      (.response f 0 (Config.freeNat s.fresh % 2 == 1) (time s) r) := by
    unfold postRsp
    rw [h, ← hw]
    rfl
  have hself := func_modFunc_self w f fun x =>
    { x with boot := slice (rspBytes r (Config.freeNat s.fresh % 2 == 1) (time s)) 0 64, bootBusy := false, bootDone := true }
  have hne : ∀ g, g ≠ f → _ := fun g hg => func_modFunc_ne w (fun x =>
    { x with boot := slice (rspBytes r (Config.freeNat s.fresh % 2 == 1) (time s)) 0 64, bootBusy := false, bootDone := true }) hg
  have hfunc : w.func f = { s.func f with rsps := (s.func f).rsps.erase r } := by rw [← hw]; exact func_rspTaken s f r
  have hothers : ∀ g, g ≠ f → w.func g = s.func g := fun g hg => by rw [← hw]; exact func_rspTaken_ne s hg r
  have hout : w.out = s.out := by rw [← hw]; rfl
  have htime : time w = time s := by rw [← hw]; rfl
  rw [hfunc] at hself
  rw [hpost]
  generalize hv : w.modFunc f (fun x =>
    { x with boot := slice (rspBytes r (Config.freeNat s.fresh % 2 == 1) (time s)) 0 64, bootBusy := false, bootDone := true }) = v at *
  have hvout : v.out = s.out := by rw [← hv]; exact hout
  have hvtime : time v = time s := by rw [← hv]; exact htime
  refine ⟨_, ?_, ?_, ?_, congrArg (_ :: ·) hvout, ?_, ?_, fun g hg => (hne g hg).trans (hothers g hg), hvtime⟩
  · show (v.func f).bootBusy = false
    rw [hself]
  · show (v.func f).bootDone = true
    rw [hself]
  · show (v.func f).boot = _
    rw [hself]
  · show (v.func f).rsps = _
    rw [hself]
  · show (v.func f).rspCount = _
    rw [hself]

theorem mailboxResponsePost_exec {now : Nat} {r : Rsp} (hup : s.mainReset = false) (hfreeze : s.coll.freeze = false)
    (hflr : (s.func f).inFlr = false) (hnext : nextRsp s (s.func f) = some r) :
    exec (.mailboxResponsePost now f) s = .next (postRsp (advance s now) f r) := by
  have hfunc : (advance s now).func f = s.func f := by rw [State.func, advance_funcs]; rfl
  have hnext' : nextRsp (advance s now) ((advance s now).func f) = some r := by
    rw [hfunc, ← hnext]
    unfold nextRsp ringTakes
    rw [advance_host]
  have hexec : execMailboxResponsePost now f s = _ := timed_of s (by
    rw [hnext']
    simp [up, hup, hfreeze, hfunc, hflr])
  rw [hnext'] at hexec
  exact hexec

/-- Settles O44. -/
theorem mailboxRings : Obligations.MailboxRings := by
  unfold Obligations.MailboxRings
  refine ⟨fun s f log2 v hw => ?_, fun s now f r hup hfreeze hflr hnext => ?_⟩
  · refine ⟨fun hoff hminimal => ?_, fun hon => ?_, fun hon hminimal => ⟨fun htaken hrsps => ?_, fun ⟨k, hk, hboot⟩ => ?_⟩, fun n hon => ?_,
      fun n => ?_, fun b hidle => ?_, fun b hbusy => ?_, ?_⟩
    · obtain ⟨hrest, hothers, hself⟩ := modFunc_written s f (writeMbxCtrl s.life.minimal true log2 v)
      rw [hminimal, writeMbxCtrl_start hoff] at hself
      exact ⟨_, (untimed_of s hw : execMbxEnable f log2 v s = _), hrest, hothers, by rw [hminimal]; exact hself⟩
    · obtain ⟨hrest, hothers, hself⟩ := modFunc_written s f (writeMbxCtrl s.life.minimal true log2 v)
      exact ⟨_, (untimed_of s hw : execMbxEnable f log2 v s = _), hrest, hothers, hself.trans (writeMbxCtrl_running hon _ _ _)⟩
    · obtain ⟨hrest, hothers, hself⟩ := modFunc_written s f fun x => writeMbxCtrl s.life.minimal false x.log2 x.rspVector x
      have hstop : (s.modFunc f fun x => writeMbxCtrl s.life.minimal false x.log2 x.rspVector x).func f
          = { s.func f with rspVector := (s.func f).rspVector % 2048, enable := false, disabling := false } := by
        rw [hself, hminimal, writeMbxCtrl_stop hon]
        exact settleDisable_idle rfl htaken hrsps
      exact ⟨_, (untimed_of s hw : execMbxDisable f s = _), hrest, hothers, by rw [hstop], by rw [hstop], by rw [hstop]⟩
    · obtain ⟨hrest, hothers, hself⟩ := modFunc_written s f fun x => writeMbxCtrl s.life.minimal false x.log2 x.rspVector x
      have hstop : (s.modFunc f fun x => writeMbxCtrl s.life.minimal false x.log2 x.rspVector x).func f
          = { s.func f with rspVector := (s.func f).rspVector % 2048, disabling := true } := by
        rw [hself, hminimal, writeMbxCtrl_stop hon]
        exact settleDisable_busy hk hboot
      exact ⟨_, (untimed_of s hw : execMbxDisable f s = _), by rw [hstop]; exact hon, by rw [hstop], by rw [hstop],
        by rw [hstop], hothers⟩
    · obtain ⟨hrest, hothers, hself⟩ := modFunc_written s f (writeMbxTail n)
      refine ⟨_, (untimed_of s hw : execMbxTail f n s = _), hrest, hothers, hself.trans ?_⟩
      simp [writeMbxTail, hon]
    · obtain ⟨hrest, hothers, hself⟩ := modFunc_written s f fun x => { x with rspHead := n % 65536 }
      exact ⟨_, (untimed_of s hw : execMbxRspHead f n s = _), hrest, hself, hothers⟩
    · obtain ⟨hrest, hothers, hself⟩ := modFunc_written s f (writeBootCtrl true b)
      refine ⟨_, (untimed_of s hw : execMbxBootGo f b s = _), hrest, hothers, hself.trans ?_⟩
      simp [writeBootCtrl, hidle]
    · obtain ⟨hrest, hothers, hself⟩ := modFunc_written s f (writeBootCtrl true b)
      refine ⟨_, (untimed_of s hw : execMbxBootGo f b s = _), hself.trans ?_, hothers⟩
      simp [writeBootCtrl, hbusy]
    · obtain ⟨hrest, hothers, hself⟩ := modFunc_written s f (writeBootCtrl false true)
      refine ⟨_, (untimed_of s hw : execMbxBootDoneClear f s = _), hself.trans ?_, hrest, hothers⟩
      simp [writeBootCtrl]
  · have hexec := mailboxResponsePost_exec (now := now) hup hfreeze hflr hnext
    have hfunc : ∀ g, (advance s now).func g = s.func g := fun g => by rw [State.func, advance_funcs]; rfl
    refine ⟨fun hboot => ?_, fun hboot => ?_⟩
    · obtain ⟨hrsps, hcount, hout, hothers, htime, hqueues⟩ := postRsp_ring_spec hboot (advance s now) f
      rw [hfunc] at hrsps hcount hout
      rw [advance_out, ← htime] at hout
      rw [advance_queues, ← htime] at hqueues
      exact ⟨_, hexec, hrsps, hcount, hout, fun g hg => (hothers g hg).trans (hfunc g), hqueues⟩
    · obtain ⟨phase, hbusy, hdone, hbytes, hout, hrsps, hcount, hothers, htime⟩ := postRsp_boot_spec hboot (advance s now) f
      rw [hfunc] at hrsps hcount
      rw [advance_out, ← htime] at hout
      rw [← htime] at hbytes
      exact ⟨_, phase, hexec, hbusy, hdone, hbytes, hout, hrsps, hcount, fun g hg => (hothers g hg).trans (hfunc g)⟩

end Sys2Proof.Machine

/-! PROOFS. The event rings (R363 to R368, R371, R375). -/

namespace Sys2Proof.Machine

open Sys2Proof.Claims

variable {s t u : State} {m : Msg} {f : Nat}

/-! ### What the posting of a step leaves of a function -/

/-- A function gained or lost event entries, and requests of it were answered. -/
def FuncPosts (x y : Func) : Prop := y = { x with evtQueue := y.evtQueue, taken := y.taken, rsps := y.rsps }

/-- Between `s` and `t` steps were posted, as far as functions, time and ports show it. -/
structure Posts (s t : State) : Prop where
  func : ∀ g, FuncPosts (s.func g) (t.func g)
  time : time t = time s
  out : ∀ o ∈ s.out, o ∈ t.out

theorem Posts.refl (s : State) : Posts s s := ⟨fun _ => rfl, rfl, fun _ => id⟩

theorem Posts.trans (h : Posts s t) (h' : Posts t u) : Posts s u :=
  ⟨fun g => by rw [FuncPosts, h'.func g, h.func g], h'.time.trans h.time, fun o ho => h'.out o (h.out o ho)⟩

theorem Posts.of_ends (h : Ends s t) : Posts s t :=
  ⟨fun g => by rw [FuncPosts, h.func g], by rw [Machine.time, h.rest]; rfl, h.out⟩

theorem Posts.of_eq (hfuncs : t.funcs = s.funcs) (htime : Machine.time t = Machine.time s) (hout : t.out = s.out) : Posts s t :=
  ⟨fun g => by rw [FuncPosts, State.func, hfuncs]; rfl, htime, fun o ho => hout ▸ ho⟩

theorem answerOpt_posts (s : State) (r : Option (Nat × Nat)) (status detail : Nat) : Posts s (answerOpt s r status detail) := by
  refine ⟨fun g => ?_, by rw [answerOpt_rest]; rfl, by rw [answerOpt_rest]; exact fun _ => id⟩
  unfold answerOpt answer answerWith
  split
  · rfl
  next k tag =>
    split
    · rfl
    · by_cases hg : g = k
      · subst hg
        rw [func_modFunc_self]
        rfl
      · rw [func_modFunc_ne _ _ hg]
        rfl

theorem teardown_posts (s : State) (p c : Nat) (status : Code) : Posts s (teardown s p c status) := by
  have htorn : Posts (workTorn s p c status) (tornDown s p c status) := by
    rw [tornDown_eq_rest]
    exact .of_eq rfl rfl rfl
  rw [teardown_eq]
  exact ((Posts.of_ends (workTorn_ends s p c status)).trans htorn).trans (answerOpt_posts _ _ _ _)

theorem finishStep_posts (s : State) (slot : Nat) (late : Bool) : Posts s (finishStep s slot late) := by
  cases hst : tfind s.steps slot with
  | none => simpa [finishStep, hst] using Posts.refl s
  | some st =>
    rw [finishStep_eq hst]
    have hposted : Posts s (stepPosted s slot st late) := by
      unfold stepPosted
      extract_lets traced charged counted armed
      have hcharged : Ends s charged := (traces_ends (traceStep_traces s slot _ _ _ _)).trans (accrue_ends traced slot)
      have hcounted : Posts charged counted := by
        unfold counted
        split
        · exact .of_eq rfl rfl rfl
        · exact .refl _
      have harmed : Posts counted armed := .of_eq rfl rfl rfl
      exact (((Posts.of_ends hcharged).trans hcounted).trans harmed).trans (.of_ends (forAll_ends (fun t h => signalFence_ends t _ _ _) _ armed))
    have hswept : Posts (stepPosted s slot st late) (stepSwept (stepPosted s slot st late) st) := by
      unfold stepSwept
      extract_lets swept
      split <;> exact .of_eq rfl rfl rfl
    generalize stepPosted s slot st late = v at *
    generalize stepSwept v st = w at *
    dsimp only
    split
    · exact (hposted.trans hswept).trans (teardown_posts _ _ _ _)
    · exact hposted.trans hswept

theorem posted_posts (s : State) (e : Entry) : Posts s (posted s e) := by
  unfold posted
  split
  · exact finishStep_posts _ _ _
  · exact .refl s

/-- The posting of a step's entry frees its slot (R364). -/
theorem posted_frees (s : State) (e : Entry) {k : Nat} (h : e.slot = some k) : tfind (posted s e).steps k = none := by
  rw [posted, h]
  exact (finishStep_spec (f := 0) s k e.late).2.2

/-! ### Entries (R364 to R367) -/

/-- An entry as it stands in the ring. -/
def phased (x : Func) (e : Entry) : Entry := { e with phase := x.evtTail / 2 ^ x.evtLog2 % 2 == 0 }

theorem writeEvt_spec (s : State) (f : Nat) (e : Entry) : (writeEvt s f e).func f = { s.func f with
      evtTail := ((s.func f).evtTail + 1) % 2 ^ 32, evtVectorDue := true, evtRecent := ((writeEvt s f e).func f).evtRecent }
    ∧ (∀ g, g ≠ f → (writeEvt s f e).func g = s.func g)
    ∧ Out.event f ((s.func f).evtTail % 2 ^ (s.func f).evtLog2) (phased (s.func f) e) (entryBytes (phased (s.func f) e)) ∈ (writeEvt s f e).out
    ∧ (writeEvt s f e).steps = s.steps ∧ time (writeEvt s f e) = time s := by
  unfold writeEvt
  extract_lets x phase e' w port v
  have hself : w.func f = { x with evtTail := (x.evtTail + 1) % 2 ^ 32, evtVectorDue := true, evtRecent := (w.func f).evtRecent } := by
    simp only [w, func_modFunc_self]
    rfl
  have hne : ∀ g, g ≠ f → w.func g = s.func g := fun g hg => func_modFunc_ne s _ hg
  have hmem : Out.event f (x.evtTail % 2 ^ x.evtLog2) e' (entryBytes e') ∈ v.out := List.mem_cons_self
  have hvfuncs : v.funcs = w.funcs := rfl
  have hvfunc : ∀ g, v.func g = w.func g := fun g => by rw [State.func, hvfuncs]; rfl
  have hvself : v.func f = { x with evtTail := (x.evtTail + 1) % 2 ^ 32, evtVectorDue := true, evtRecent := (v.func f).evtRecent } := by
    rw [hvfunc]
    exact hself
  split
  · exact ⟨hvself, fun g hg => (hvfunc g).trans (hne g hg), List.mem_cons_of_mem _ hmem, rfl, rfl⟩
  · exact ⟨hvself, fun g hg => (hvfunc g).trans (hne g hg), hmem, rfl, rfl⟩

/-- The guard of EVENT_ENTRY_WRITE on a function that is not in reset. -/
def entryDue (s : State) (f : Nat) : Bool :=
  if (s.func f).evtEnable then ringRoom (s.func f) && s.host.linkUp && (!(s.func f).evtHeld.isEmpty || (nextEntry s (s.func f)).isSome)
  else (s.func f).detached && (nextEntry s (s.func f)).isSome

theorem eventEntryWrite_exec {now : Nat} (hup : s.mainReset = false) (hfreeze : s.coll.freeze = false) (hflr : (s.func f).inFlr = false)
    (hdue : entryDue (advance s now) f = true) : exec (.eventEntryWrite now f) s = .next
      (match ((advance s now).func f).evtEnable, ((advance s now).func f).evtHeld, nextEntry (advance s now) ((advance s now).func f) with
        | true, e :: l, _ =>
          writeEvt ((advance s now).modFunc f fun x => { x with evtHeld := l, detached := x.detached && !l.isEmpty }) f e
        | true, [], some e =>
          posted (writeEvt ((advance s now).modFunc f fun x => { x with evtQueue := x.evtQueue.erase e }) f (stamped (advance s now) e false))
            (stamped (advance s now) e false)
        | false, _, some e =>
          posted ((advance s now).modFunc f fun x => { x with
            evtQueue := x.evtQueue.erase e, evtHeld := x.evtHeld ++ [{ stamped (advance s now) e true with slot := none }] })
            (stamped (advance s now) e true)
        | _, _, _ => advance s now) := by
  have hfunc : (advance s now).func f = s.func f := by rw [State.func, advance_funcs]; rfl
  refine (timed_of s ?_ : execEventEntryWrite now f s = _)
  have hguard : (up (advance s now) && !(advance s now).coll.freeze && !((advance s now).func f).inFlr && entryDue (advance s now) f) = true := by
    rw [hdue, hfunc]
    simp [up, hup, hfreeze, hflr]
  exact hguard

/-! ### Registers of the ring -/

theorem evtFlush_exec {now : Nat} (hlink : s.host.linkUp = true) (henabled : (s.func f).enabled = true) : exec (.evtFlush now f) s = .next
    (readEffect (advance s now) f .evt (s.func f).evtTail ((advance s now).modFunc f fun x => { x with evtRecent := [] })) := by
  have hexec : execEvtFlush now f s = _ := timed_of s (by simp [hlink, henabled])
  rw [advance_func] at hexec
  exact hexec

theorem readForced_advance (now : Nat) (f : Nat) (r : Region) : readForced (advance s now) f r = readForced s f r := by
  rw [advance_eq]
  rfl

theorem writeEvtHead_in {x : Func} {now n : Nat} (hset : x.evtSetAt ≠ some now) (hle : n ≤ x.evtTail) (hwin : x.evtTail < n + 2 ^ 31)
    (htail : x.evtTail < 2 ^ 32) : writeEvtHead now n x = { x with evtHead := n } := by
  have hn : n % 2 ^ 32 = n := Nat.mod_eq_of_lt (by omega)
  have hgo : ¬ (x.evtSetAt = some now ∨ 2 ^ 31 ≤ (2 ^ 32 + x.evtTail - n % 2 ^ 32) % 2 ^ 32) := by
    rw [hn]
    rintro (h | h)
    · exact hset h
    · omega
  rw [writeEvtHead, if_neg hgo, hn]

theorem writeEvtHead_beyond {x : Func} {now n : Nat} (hlt : x.evtTail < n) (hwin : n < x.evtTail + 2 ^ 31) (hn : n < 2 ^ 32) :
    writeEvtHead now n x = x := by
  have hmod : n % 2 ^ 32 = n := Nat.mod_eq_of_lt hn
  rw [writeEvtHead, if_pos]
  rw [hmod]
  exact .inr (by omega)

theorem writeEvtHead_setting {x : Func} {now : Nat} (h : x.evtSetAt = some now) (n : Nat) : writeEvtHead now n x = x := by
  rw [writeEvtHead, if_pos (.inl h)]

theorem evtHead_exec {n : Nat} (hw : writable s f .evt = true) : exec (.evtHead f n) s = .next (s.modFunc f (writeEvtHead (time s) n)) :=
  (untimed_of s hw : execEvtHead f n s = _)

/-- What a read-back has confirmed (R367). -/
def confirmed (x : Func) : Func :=
  { x with rsps := x.rsps.map fun r => { r with waits := false }, evtQueue := x.evtQueue.map fun e => { e with waitsRb := false }
           evtRecent := [] }

theorem readBackComplete_exec {now : Nat} (hup : s.mainReset = false) (hfreeze : s.coll.freeze = false) (hlink : s.host.linkUp = true)
    (henabled : (s.func f).enabled = true) : exec (.readBackComplete now f) s = .next
      { (advance s now).modFunc f confirmed with
        steps := tmap s.steps fun _ st => if (s.part st.part).owner = f then { st with hostWrites := false } else st } := by
  have hexec : execReadBackComplete now f s = _ := timed_of s (by simp [up, hup, hfreeze, hlink, henabled])
  have hpart : ∀ p, ((advance s now).modFunc f confirmed).part p = s.part p := fun p => by
    show tget (advance s now).parts p {} = _
    rw [advance_parts]
    rfl
  have hsteps : ((advance s now).modFunc f confirmed).steps = s.steps := by
    show (advance s now).steps = _
    rw [advance_steps]
  change _ = Host.Outcome.next { (advance s now).modFunc f confirmed with
    steps := tmap ((advance s now).modFunc f confirmed).steps fun _ st =>
      if (((advance s now).modFunc f confirmed).part st.part).owner = f then { st with hostWrites := false } else st } at hexec
  rw [hsteps] at hexec
  simp only [hpart] at hexec
  exact hexec

/-- Settles O46. -/
theorem eventRings : Obligations.EventRings := by
  unfold Obligations.EventRings
  refine ⟨fun s m => ?_, fun s now f hup hfreeze hflr => ⟨fun e l hon hroom hlink hheld => ?_, fun e hon hroom hlink hheld hnext => ?_,
      fun e hoff hdet hnext => ?_, fun hlink hdue hon => ⟨fun hspaced => ?_, fun hlast hearly => ?_⟩⟩,
    fun s now f hlink henabled => ⟨fun hfree => ?_, fun hforced => ?_, fun hforced => ?_⟩,
    fun s f n hw => ⟨fun hset hle hwin htail => ?_, fun hset => ?_, fun hlt hwin hn => ?_⟩, fun s now f hup hfreeze hlink henabled => ?_⟩
  · intro n v x h
    have hexec : exec (.evtRingSet m) s = _ := mbx_of_passes h rfl
    have hself := func_modFunc_self (take s m) m.func (setRing (take s m) (fld m.payload 8 8) n v)
    rw [func_take_sender] at hself
    have hothers : ∀ g, g ≠ m.func → ((take s m).modFunc m.func (setRing (take s m) (fld m.payload 8 8) n v)).func g = s.func g :=
      fun g hg => (func_modFunc_ne (take s m) (setRing (take s m) (fld m.payload 8 8) n v) hg).trans (func_take_ne s hg)
    have hrest : (take s m).modFunc m.func (setRing (take s m) (fld m.payload 8 8) n v)
        = { s with funcs := ((take s m).modFunc m.func (setRing (take s m) (fld m.payload 8 8) n v)).funcs, lastTaken := (take s m).lastTaken } := rfl
    change exec (.evtRingSet m) s = .next (applyAns (take s m) m
      (.done ((take s m).modFunc m.func (setRing (take s m) (fld m.payload 8 8) n v)))) at hexec
    generalize (take s m).modFunc m.func (setRing (take s m) (fld m.payload 8 8) n v) = w at *
    have hstands : SenderStands s w m := by
      refine ⟨?_, ?_, ?_⟩ <;> rw [hself] <;> rfl
    obtain ⟨fs, hans, hanswered, hkeep, hsender⟩ := hstands.answered 0 0 [] [] false
    refine ⟨_, hexec.trans (congrArg _ hans), ⟨hanswered, fun g hg => (hkeep g hg).trans (hothers g hg), by rw [hrest]⟩, ?_⟩
    rw [hsender, hself]
    refine ⟨rfl, rfl, rfl, rfl, rfl, rfl, rfl, fun hdet => ?_, fun hdet => ?_⟩
    · have hdet' : (s.func m.func).detached = false := hdet
      simp [setRing, hdet', x]
    · have hdet' : (s.func m.func).detached = true := hdet
      exact ⟨attachEntry (take s m) (x.evtHeld.filter fun e => e.kind != 5).length, rfl, rfl, by simp [setRing, hdet', x]⟩
  · have hguard : entryDue (advance s now) f = true := by
      simp only [entryDue, advance_func, advance_host, hon, hroom, hlink, hheld]
      rfl
    have hexec := eventEntryWrite_exec hup hfreeze hflr hguard
    rw [advance_func, hon, hheld] at hexec
    dsimp only at hexec
    obtain ⟨hself, hothers, hout, hsteps, -⟩ := writeEvt_spec ((advance s now).modFunc f fun x =>
      { x with evtHeld := l, detached := x.detached && !l.isEmpty }) f e
    rw [func_modFunc_self, advance_func] at hself hout
    refine ⟨_, hexec, by rw [hself], by rw [hself], by rw [hself], by rw [hself], by rw [hself], hout, hsteps.trans (advance_steps ..),
      fun g hg => ?_⟩
    rw [hothers g hg, func_modFunc_ne _ _ hg, advance_func]
  · have hguard : entryDue (advance s now) f = true := by
      simp only [entryDue, advance_func, advance_host, hon, hroom, hlink, hheld, hnext]
      rfl
    have hexec := eventEntryWrite_exec hup hfreeze hflr hguard
    rw [advance_func, hon, hheld, hnext] at hexec
    dsimp only at hexec
    obtain ⟨hself, -, hout, -, htime⟩ := writeEvt_spec ((advance s now).modFunc f fun x => { x with evtQueue := x.evtQueue.erase e }) f
      (stamped (advance s now) e false)
    rw [func_modFunc_self, advance_func] at hself hout
    generalize writeEvt ((advance s now).modFunc f fun x => { x with evtQueue := x.evtQueue.erase e }) f (stamped (advance s now) e false)
      = w at *
    have hposts := posted_posts w (stamped (advance s now) e false)
    have hfrees := fun k => posted_frees (k := k) w (stamped (advance s now) e false)
    have hpost := hposts.func f
    rw [FuncPosts, hself] at hpost
    refine ⟨_, _, hexec, hposts.out _ hout, ?_, rfl, by rw [hpost], by rw [hpost], hfrees⟩
    exact (hposts.time.trans htime).symm
  · have hguard : entryDue (advance s now) f = true := by
      simp only [entryDue, advance_func, hoff, hdet, hnext]
      rfl
    have hexec := eventEntryWrite_exec hup hfreeze hflr hguard
    rw [advance_func, hoff, hnext] at hexec
    dsimp only at hexec
    have hself := func_modFunc_self (advance s now) f fun x => { x with
      evtQueue := x.evtQueue.erase e, evtHeld := x.evtHeld ++ [{ stamped (advance s now) e true with slot := none }] }
    have htime : time ((advance s now).modFunc f fun x => { x with
      evtQueue := x.evtQueue.erase e, evtHeld := x.evtHeld ++ [{ stamped (advance s now) e true with slot := none }] })
        = time (advance s now) := rfl
    rw [advance_func] at hself
    generalize (advance s now).modFunc f (fun x => { x with
      evtQueue := x.evtQueue.erase e, evtHeld := x.evtHeld ++ [{ stamped (advance s now) e true with slot := none }] }) = w at *
    have hposts := posted_posts w (stamped (advance s now) e true)
    have hfrees := fun k => posted_frees (k := k) w (stamped (advance s now) e true)
    have hpost := hposts.func f
    rw [FuncPosts, hself] at hpost
    exact ⟨_, _, hexec, by rw [hpost], (hposts.time.trans htime).symm, rfl, by rw [hpost], hfrees⟩
  · have hexec : execRingVectorSend now f s = _ := timed_of s (by
      simp only [up, advance_mainReset, advance_coll, advance_host, advance_func, hup, hfreeze, hlink, hdue, hon, Bool.not_false, Bool.true_and,
        Bool.or_eq_true, beq_iff_eq, decide_eq_true_eq]
      exact hspaced)
    refine ⟨_, hexec, ?_, ?_, fun g hg => ?_, ?_⟩
    · rw [advance_func, emit_out]
      exact congrArg (_ :: ·) (advance_out s now)
    · refine (func_modFunc_self (advance s now) f fun x => { x with evtVectorDue := false, evtVectorAt := time (advance s now) }).trans ?_
      rw [advance_func]
      rfl
    · exact (func_modFunc_ne (advance s now) (fun x => { x with evtVectorDue := false, evtVectorAt := time (advance s now) }) hg).trans
        (advance_func s now g)
    · rw [advance_eq]
      rfl
  · refine (timed_of_not ?_ : execRingVectorSend now f s = _)
    have hnot : (decide (1000 + (s.func f).evtVectorAt ≤ time (advance s now))) = false := decide_eq_false (by omega)
    have hnz : ((s.func f).evtVectorAt == 0) = false := beq_eq_false_iff_ne.2 hlast
    simp only [advance_func, hnot, hnz, Bool.or_false, Bool.and_false]
  · have hexec := evtFlush_exec (now := now) hlink henabled
    rw [readEffect, readForced_advance, hfree] at hexec
    refine ⟨_, hexec, ?_, ?_, fun g hg => ?_, ?_⟩
    · exact congrArg (_ :: ·) (advance_out s now)
    · refine (func_modFunc_self (advance s now) f fun x => { x with evtRecent := [] }).trans ?_
      rw [advance_func]
    · exact (func_modFunc_ne (advance s now) (fun x => { x with evtRecent := [] }) hg).trans (advance_func s now g)
    · rw [advance_eq]
      rfl
  · have hexec := evtFlush_exec (now := now) hlink henabled
    rw [readEffect, readForced_advance, hforced] at hexec
    refine ⟨_, hexec, ?_⟩
    rw [advance_eq]
    rfl
  · have hexec := evtFlush_exec (now := now) hlink henabled
    rw [readEffect, readForced_advance, hforced] at hexec
    refine ⟨_, hexec, ?_⟩
    rw [advance_eq]
    rfl
  · obtain ⟨hrest, hothers, hself⟩ := modFunc_written s f (writeEvtHead (time s) n)
    exact ⟨_, evtHead_exec hw, hrest, hself.trans (writeEvtHead_in hset hle hwin htail), hothers⟩
  · obtain ⟨-, hothers, hself⟩ := modFunc_written s f (writeEvtHead (time s) n)
    exact ⟨_, evtHead_exec hw, hself.trans (writeEvtHead_setting hset n), hothers⟩
  · obtain ⟨-, hothers, hself⟩ := modFunc_written s f (writeEvtHead (time s) n)
    exact ⟨_, evtHead_exec hw, hself.trans (writeEvtHead_beyond hlt hwin hn), hothers⟩
  · have hexec := readBackComplete_exec (now := now) hup hfreeze hlink henabled
    have hself := func_modFunc_self (advance s now) f confirmed
    have hne : ∀ g, g ≠ f → ((advance s now).modFunc f confirmed).func g = s.func g := fun g hg =>
      (func_modFunc_ne (advance s now) confirmed hg).trans (advance_func s now g)
    rw [advance_func] at hself
    generalize (advance s now).modFunc f confirmed = w at *
    refine ⟨_, hexec, fun r hr => ?_, fun e he => ?_, ?_, ?_, ?_, fun k st hst howner => ?_, hne⟩
    · change r ∈ (w.func f).rsps at hr
      rw [hself] at hr
      obtain ⟨r₀, -, rfl⟩ := List.mem_map.1 hr
      rfl
    · change e ∈ (w.func f).evtQueue at he
      rw [hself] at he
      obtain ⟨e₀, -, rfl⟩ := List.mem_map.1 he
      rfl
    · show (w.func f).evtRecent = []
      rw [hself]
      rfl
    · show (w.func f).rsps.length = _
      rw [hself]
      exact List.length_map ..
    · show (w.func f).evtQueue.length = _
      rw [hself]
      exact List.length_map ..
    · refine (tfind_tmap s.steps (fun _ st => if (s.part st.part).owner = f then { st with hostWrites := false } else st) k).trans ?_
      rw [hst, Option.map_some, if_pos howner]

end Sys2Proof.Machine

/-! PROOFS. The safety clock (R425 to R429, R503, R537). -/

namespace Sys2Proof.Machine

open Sys2Proof.Claims

variable {s t u : State} {c : Code}

/-! ### An item that failed its check is named -/

theorem mem_dropLast {α : Type} {p : α → Bool} {x : α} {l : List α} (hx : x ∈ l) (hp : p x = false) : x ∈ dropLast p l := by
  unfold dropLast
  split
  case h_1 i hi =>
    rw [List.mem_reverse, List.mem_eraseIdx_iff_getElem?]
    obtain ⟨j, hj⟩ := List.mem_iff_getElem?.1 (List.mem_reverse.2 hx)
    refine ⟨j, ?_, hj⟩
    rintro rfl
    obtain ⟨hlt, hpi, -⟩ := List.findIdx?_eq_some_iff_getElem.1 hi
    rw [List.getElem?_eq_getElem hlt, Option.some.injEq] at hj
    rw [hj, hp] at hpi
    exact absurd hpi (by decide)
  case h_2 => exact hx

theorem mem_sortIn_of_mem {d : Code} (n : Nat) {l : List Code} (hd : d ∈ l) : d ∈ sortIn c n l := by
  induction n generalizing l with
  | zero => exact List.mem_cons_of_mem _ hd
  | succ n ih =>
    cases l with
    | nil => exact absurd hd List.not_mem_nil
    | cons x l =>
      unfold sortIn
      split
      · rcases List.mem_cons.1 hd with rfl | hd
        · exact List.mem_cons_self
        · exact List.mem_cons_of_mem _ (ih hd)
      · exact List.mem_cons_of_mem _ hd

/-- R419: a corrected code displaces no other code. -/
theorem mem_latch_of_corrected {d : Code} {x : Collector} (hclass : codeClass c = 1) (hd : d ∈ x.log) (hdclass : codeClass d ≠ 1)
    (now : Nat) : d ∈ (latch now x c).log := by
  rw [latch_of_corrected hclass]
  show d ∈ logPut _ x.log c
  unfold logPut
  rw [if_pos hclass]
  split
  · exact mem_sortIn_of_mem _ hd
  · split
    · exact mem_sortIn_of_mem _ (mem_dropLast hd (by simpa using hdclass))
    · exact hd

theorem latch_shape (now : Nat) (x : Collector) (c : Code) : latch now x c = { x with
    corr := (latch now x c).corr, status := (latch now x c).status, fatal := (latch now x c).fatal, log := (latch now x c).log
    tickAt := (latch now x c).tickAt, tickLen := (latch now x c).tickLen } := by
  unfold latch
  extract_lets
  split
  · rfl
  · split <;> rfl

/-- What the collector holds of a failed item. -/
structure Exposed (s t : State) (c : Code) (u e last : Nat) : Prop where
  rest : t = { s with aon := t.aon, coll := t.coll, out := t.out }
  mem : c ∈ t.coll.log
  unit : t.coll.expUnit = u
  engine : t.coll.expEngine = e
  last : t.coll.exposure = last
  init : t.coll.init = s.coll.init
  pinTest : t.coll.pinTest = s.coll.pinTest

/-- R429: the failed item is logged, and named with the time of its last pass; codes of the always-on unit at once. -/
theorem expose_spec (h : QuietCode c) (hclass : codeClass c = 2) (htaken : s.coll.init = true ∨ codeUnit c = 41) (u e last : Nat) :
    Exposed s (expose s c u e last) c u e last := by
  have hcoll {w : State} (hw : w.coll.init = true ∨ codeUnit c = 41) : (reportCode w c).coll
      = latch (time w) { w.coll with recs := w.coll.recs ++ faultRecs w { code := c } } c :=
    hw.elim (coll_reportCode h) (fun hunit => coll_reportCode_alwaysOn h hunit w)
  have hnamed := hcoll (w := s.modColl fun c => { c with expUnit := u, expEngine := e, exposure := last }) htaken
  refine ⟨by rw [expose, reportCode_shape h]; rfl, ?_, ?_, ?_, ?_, ?_, ?_⟩ <;> rw [expose, hnamed]
  · exact mem_latch_log (by omega)
  all_goals rw [latch_shape]; rfl

theorem quiet_AB02 : QuietCode 0xAB02 := by decide

/-! ### Exercises of the checkers and of the error pins -/

theorem checkerExercise_passes (now u e k : Nat) (hup : s.mainReset = false) (hinit : s.coll.init = true) :
    ∃ t, exec (.checkerExercise now u e k true) s = .next t
      ∧ t = { s with aon := t.aon, coll := { s.coll with exercised := t.coll.exercised } }
      ∧ tget t.coll.exercised (checkerKey u e k) 0 = time t := by
  have hexec : execCheckerExercise now u e k true s = _ := timed_of s (by simp [up, hup, hinit])
  refine ⟨_, hexec, ?_, tget_tput_self ..⟩
  rw [if_pos rfl, advance_eq]
  rfl

theorem checkerExercise_fails (now u e k : Nat) (hup : s.mainReset = false) (hinit : s.coll.init = true) :
    ∃ t, exec (.checkerExercise now u e k false) s = .next t ∧ (0xAB04 : Code) ∈ t.coll.log ∧ t.coll.expUnit = u
      ∧ t.coll.expEngine = e ∧ t.coll.exposure = tget s.coll.exercised (checkerKey u e k) 0 ∧ t.steps = s.steps := by
  have hexec : execCheckerExercise now u e k false s = _ := timed_of s (by simp [up, hup, hinit])
  have hspec := expose_spec (s := advance s now) (c := 0xAB04) (by decide) (by decide) (.inl (by simp [hinit])) u e
    (tget (advance s now).coll.exercised (checkerKey u e k) 0)
  exact ⟨_, hexec, hspec.mem, hspec.unit, hspec.engine, hspec.last.trans (by simp), by
    rw [if_neg (by simp), hspec.rest]
    simp⟩

theorem errorPinTest_spec (now u : Nat) (hup : s.mainReset = false) (hinit : s.coll.init = true) (hu : u < 45) :
    (∃ t, exec (.errorPinTest now u true) s = .next t ∧ tfind t.coll.pinTest u = none ∧ tget t.coll.pinPass u 0 = time t
      ∧ t.coll.log = s.coll.log)
    ∧ (∃ t, exec (.errorPinTest now u false) s = .next t ∧ tfind t.coll.pinTest u = some (time t) ∧ t.coll.pinPass = s.coll.pinPass
      ∧ t.coll.log = s.coll.log) := by
  have hexec (answered : Bool) : execErrorPinTest now u answered s = _ := timed_of s (by simp [up, hup, hinit, hu])
  constructor
  · exact ⟨_, hexec true, tfind_tdel_self .., tget_tput_self .., by simp⟩
  · exact ⟨_, hexec false, tfind_tput_self .., by simp, by simp⟩

theorem errorPinTestTimeout_spec (now : Nat) {u a : Nat} (hup : s.mainReset = false) (htest : tfind s.coll.pinTest u = some a)
    (hlate : 10000 + a < time (advance s now)) :
    ∃ t, exec (.errorPinTestTimeout now u) s = .next t ∧ (0xA909 : Code) ∈ t.coll.log ∧ t.coll.expUnit = u
      ∧ t.coll.expEngine = 0xFFF ∧ t.coll.exposure = tget s.coll.pinPass u 0 ∧ tfind t.coll.pinTest u = none ∧ t.steps = s.steps := by
  have hexec : execErrorPinTestTimeout now u s = _ := timed_of s (by simp [up, hup, htest, hlate])
  have hspec := expose_spec (s := (advance s now).modColl fun c => { c with pinTest := tdel c.pinTest u }) (c := 0xA909) (by decide)
    (by decide) (.inr (by decide)) u 0xFFF (tget (advance s now).coll.pinPass u 0)
  refine ⟨_, hexec, hspec.mem, hspec.unit, hspec.engine, hspec.last.trans (by simp), ?_, ?_⟩
  · rw [hspec.pinTest]
    exact tfind_tdel_self ..
  · rw [hspec.rest]
    simp

theorem fatalCode_fatal (c : Code) (hfreeze : s.coll.freeze = false) : (fatal s c).coll.fatalCode = c := by
  rw [fatal_coll c hfreeze]
  rfl

/-- R428, R432: a watchdog not serviced is the first fatal fault of the block. -/
theorem watchdogExpiry_spec (now : Nat) (hready : ready s = true) (hinit : s.coll.init = true) (hfreeze : s.coll.freeze = false)
    (hlate : 500000 + s.coll.watchdog < time (advance s now)) :
    ∃ t, exec (.watchdogExpiry now) s = .next t ∧ (0xE005 : Code) ∈ t.coll.log ∧ t.coll.freeze = true ∧ t.coll.fatalCode = 0xE005 := by
  have hexec : execWatchdogExpiry now s = _ := timed_of s (by simp [hready, hlate])
  have hreport : reportCode (advance s now) 0xE005
      = withIbi (advance s now) (fatal (latched (advance s now) { code := 0xE005 }) 0xE005) :=
    report_of_init (by decide) (by decide) (by simp [hinit])
  refine ⟨_, hexec.trans (congrArg _ hreport), ?_, ?_, ?_⟩ <;> rw [withIbi_coll]
  · rw [fatal_log, latched_coll]
    exact mem_latch_log (by decide)
  · exact fatal_freeze ..
  · exact fatalCode_fatal _ (by rw [latched_coll, latch_freeze]; simpa using hfreeze)

/-- R427: a rotation not done in its time. -/
theorem analogueRotationMissed_spec (now : Nat) {item : Nat} (hready : ready s = true) (hinit : s.coll.init = true)
    (hlate : 1000000 + tget s.coll.analogue item s.life.startAt < time (advance s now)) :
    ∃ t, exec (.analogueRotationMissed now item) s = .next t ∧ (0xAB03 : Code) ∈ t.coll.log ∧ t.steps = s.steps ∧ t.tiles = s.tiles := by
  have hexec : execAnalogueRotationMissed now item s = _ := timed_of s (by simp [hready, hlate])
  have hshape := reportCode_shape (c := 0xAB03) (by decide) (advance s now)
  exact ⟨_, hexec, mem_log_reportCode (by decide) (by decide) (by simp [hinit]), by rw [hshape]; simp, by rw [hshape]; simp⟩

/-! ### The thermal throttle -/

/-- Between `s` and `t` clocks went down: only they, the free values drawn and the grants not exceeded moved. -/
structure Slows (s t : State) : Prop where
  rest : t = { s with parts := t.parts, tiles := t.tiles, fresh := t.fresh }
  part : ∀ p, (t.part p).retuned ≤ (s.part p).retuned

theorem Slows.refl (s : State) : Slows s s := ⟨rfl, fun _ => le_rfl⟩

theorem Slows.trans (h : Slows s t) (h' : Slows t u) : Slows s u :=
  ⟨by rw [h'.rest, h.rest], fun p => (h'.part p).trans (h.part p)⟩

theorem throttlePart_slows (s : State) (k : Nat) : Slows s (throttlePart s k) := by
  have htile (w : State) (e n : Nat) : Slows w
      (if (w.tile e).withdrawn = 0 then w.modTile e fun y => { y with clock := n } else w) := by
    split
    · exact ⟨rfl, fun _ => le_rfl⟩
    · exact .refl w
  let w : State := { s with fresh := s.fresh + 1 }
  let n := Config.freeNat s.fresh % ((w.part k).retuned + 1)
  refine Slows.trans (t := w.modPart k fun x => { x with retuned := n }) ⟨rfl, fun p => ?_⟩
    (forAll_rel (R := Slows) .refl .trans (fun w e => htile w e n) _ _)
  by_cases hp : p = k
  · subst hp
    rw [part_modPart_self]
    exact Nat.le_of_lt_succ (Nat.mod_lt _ (Nat.succ_pos _))
  · rw [part_modPart_ne _ _ hp]
    exact le_rfl

/-- R503: with the throttle off, the one corrected fault and slower clocks. -/
theorem throttle_slows (hoff : s.power.throttled = false) :
    Slows ((reportCode s 0x6906).modPower fun p => { p with throttled := true }) (throttle s) := by
  rw [throttle, hoff]
  exact forAll_rel (R := Slows) .refl .trans throttlePart_slows _ _

theorem thermalThrottleEngaged_spec (now : Nat) (hup : s.mainReset = false) (hoff : s.power.throttled = false) :
    ∃ t, exec (.thermalThrottleEngaged now) s = .next t ∧ t.power = { s.power with throttled := true } ∧ t.steps = s.steps
      ∧ tget t.coll.corr 41 0 = min 0xFFFF (tget s.coll.corr 41 0 + 1)
      ∧ ∀ p, active s p = true → (t.part p).retuned ≤ (s.part p).retuned := by
  have hexec : execThermalThrottleEngaged now s = _ := timed_of s (by simp [up, hup, hoff])
  have hslows := throttle_slows (s := advance s now) (by simpa using hoff)
  have hshape := reportCode_shape (c := 0x6906) (by decide) (advance s now)
  have hcount := (counted_alwaysOn (c := 0x6906) (by decide) (by decide) (by decide) (advance s now)).1
  refine ⟨_, hexec, ?_, ?_, ?_, fun p _ => (hslows.part p).trans ?_⟩
  · rw [hslows.rest, hshape]
    simp [State.modPower]
  · rw [hslows.rest, hshape]
    simp
  · rw [hslows.rest]
    exact hcount.trans (by simp)
  · rw [State.part, modPower_parts, hshape]
    exact le_of_eq (by rw [advance_eq]; rfl)

/-- Between `s` and `t` clocks and rail requests moved, and no running partition's clock. -/
structure Retunes (s t : State) : Prop where
  rest : t = { s with parts := t.parts, tiles := t.tiles, rails := t.rails, out := t.out }
  part : ∀ p, (s.part p).running ≠ none → t.part p = s.part p

theorem Retunes.trans (h : Retunes s t) (h' : Retunes t u) : Retunes s u :=
  ⟨by rw [h'.rest, h.rest], fun p hp => (h'.part p (by rw [h.part p hp]; exact hp)).trans (h.part p hp)⟩

/-- R81: a clock changes at a step boundary only. -/
theorem retune_retunes (s : State) (k : Nat) : Retunes s (retune s k) := by
  have hrails (w : State) (ds : List Nat) : Retunes w (requestRails w ds) :=
    ⟨by rw [requestRails_rest], fun p _ => by rw [requestRails_rest]; rfl⟩
  have htile (w : State) (e n : Nat) : Retunes w
      (if (w.tile e).withdrawn = 0 then w.modTile e fun y => { y with clock := n } else w) := by
    split <;> exact ⟨rfl, fun _ _ => rfl⟩
  unfold retune
  extract_lets x n ok w
  split
  case isTrue hnow =>
    refine (Retunes.trans ⟨rfl, fun p hp => part_modPart_ne _ _ ?_⟩
      (forAll_rel (R := Retunes) (fun _ => ⟨rfl, fun _ _ => rfl⟩) .trans (fun w e => htile w e n) _ w)).trans (hrails _ _)
    rintro rfl
    exact hp hnow.2.1
  case isFalse => exact hrails s _

theorem thermalThrottleReleased_spec (now : Nat) (hup : s.mainReset = false) (hon : s.power.throttled = true) :
    ∃ t, exec (.thermalThrottleReleased now) s = .next t ∧ t.power = { s.power with throttled := false } ∧ t.steps = s.steps
      ∧ t.coll = s.coll ∧ ∀ p, (s.part p).running ≠ none → t.part p = s.part p := by
  have hexec : execThermalThrottleReleased now s = _ := timed_of s (by simp [up, hup, hon])
  have hall (ps : List Nat) (w : State) : Retunes w (forAll ps retune w) :=
    forAll_rel (R := Retunes) (fun _ => ⟨rfl, fun _ _ => rfl⟩) .trans retune_retunes ps w
  have hpart (p : Nat) : ((advance s now).modPower fun q => { q with throttled := false }).part p = s.part p := by
    rw [advance_eq]; rfl
  have hretunes := hall (((advance s now).parts.filter fun e => e.2.state == 2).map (·.1))
    ((advance s now).modPower fun q => { q with throttled := false })
  refine ⟨_, hexec, ?_, ?_, ?_, fun p hp => (hretunes.part p (by rwa [hpart])).trans (hpart p)⟩ <;>
  · rw [hretunes.rest]
    simp [State.modPower]

/-! ### Analogue items -/

/-- Tiles once withdrawn stay withdrawn. -/
def WithdrawnStand (s t : State) : Prop := ∀ e, (s.tile e).withdrawn ≤ (t.tile e).withdrawn

theorem WithdrawnStand.refl (s : State) : WithdrawnStand s s := fun _ => le_rfl

theorem WithdrawnStand.trans (h : WithdrawnStand s t) (h' : WithdrawnStand t u) : WithdrawnStand s u :=
  fun e => (h e).trans (h' e)

theorem WithdrawnStand.of_tiles (h : t.tiles = s.tiles) : WithdrawnStand s t := fun e => by rw [State.tile, State.tile, h]

theorem EndsAs.withdrawnStand {core : Step → Step} {wide : Bool} (h : EndsAs core wide s t) : WithdrawnStand s t :=
  fun e => by rw [(h.tile e).rest]

theorem forAll_withdrawnStand {α : Type} {f : State → α → State} (hf : ∀ t x, WithdrawnStand t (f t x)) (l : List α) (s : State) :
    WithdrawnStand s (forAll l f s) := forAll_rel .refl .trans hf l s

theorem setWithdrawn_stand (s : State) (e w : Nat) : WithdrawnStand s (setWithdrawn s e w) := by
  intro q
  by_cases he : e < 2048
  · rw [setWithdrawn_tile he]
    by_cases hq : q = e
    · subst hq
      rw [tile_modTile_self]
      exact le_max_left ..
    · rw [tile_modTile_ne _ _ hq]
  · refine WithdrawnStand.of_tiles ?_ q
    simp only [setWithdrawn, if_neg he]
    split
    · rfl
    · split <;> rfl

theorem setTesting_stand (s : State) (e : Nat) (r : Option (List (Nat × Nat))) : WithdrawnStand s (setTesting s e r) := by
  intro q
  by_cases he : e < 2048
  · rw [setTesting, if_pos he]
    by_cases hq : q = e
    · subst hq
      rw [tile_modTile_self]
    · rw [tile_modTile_ne _ _ hq]
  · refine WithdrawnStand.of_tiles ?_ q
    simp only [setTesting, if_neg he]
    split
    · rfl
    · split <;> rfl

theorem beginEngineReset_stand (s : State) (e : Nat) (r : List (Nat × Nat)) : WithdrawnStand s (beginEngineReset s e r) := by
  have hfail := forAll_withdrawnStand (fun w k => (failStep_fails w k 0x0D02).withdrawnStand) (stepsIn s e) s
  unfold beginEngineReset
  extract_lets w
  split
  · exact hfail
  · exact (hfail.trans (setWithdrawn_stand _ _ _)).trans (setTesting_stand _ _ _)

/-- One tile that a check outside it found bad. -/
def withdrawTile (s : State) (e : Nat) : State :=
  let w := forAll (stepsIn s e) (fun s k => failWith s k 0x0C01 0xAB02) s
  if withdrawnOf w e = 2 then w
  else (setWithdrawn w e 1).modColl fun c => { c with openFaults := c.openFaults ++ [{ unit := 43, engine := e }] }

theorem withdrawTiles_eq (s : State) (ts : List Nat) : withdrawTiles s ts = forAll ts withdrawTile s := rfl

/-- Steps of the tile fail; the collector's log stands, and tiles stay withdrawn. -/
theorem withdrawTile_stand (s : State) (e : Nat) :
    WithdrawnStand s (withdrawTile s e) ∧ (withdrawTile s e).coll.log = s.coll.log := by
  have hfails : Fails s (forAll (stepsIn s e) (fun s k => failWith s k 0x0C01 0xAB02) s) :=
    forAll_rel .refl .trans (fun t k => failWith_fails t k 0x0C01 0xAB02) _ s
  have hset (w : State) : (setWithdrawn w e 1).coll = w.coll := by
    unfold setWithdrawn
    extract_lets
    split
    · rfl
    · split
      · rfl
      · split <;> rfl
  unfold withdrawTile
  extract_lets w
  split
  · exact ⟨hfails.withdrawnStand, congrArg (fun v => v.coll.log) hfails.rest⟩
  · refine ⟨(hfails.withdrawnStand.trans (setWithdrawn_stand w e 1)).trans (.of_tiles rfl), ?_⟩
    rw [modColl_coll, hset]
    exact congrArg (fun v => v.coll.log) hfails.rest

theorem withdrawTile_self (s : State) {e : Nat} (he : e < 2048) : 1 ≤ ((withdrawTile s e).tile e).withdrawn := by
  unfold withdrawTile
  extract_lets w
  split
  case isTrue hdead =>
    rw [withdrawnOf_tile he] at hdead
    omega
  case isFalse =>
    rw [setWithdrawn_tile he]
    show 1 ≤ ((w.modTile e fun x => { x with withdrawn := max x.withdrawn 1, clock := 0, gated := true }).tile e).withdrawn
    rw [tile_modTile_self]
    exact le_max_right ..

/-- R75: every tile named is withdrawn, and no log entry made. -/
theorem withdrawTiles_spec (s : State) (ts : List Nat) : (withdrawTiles s ts).coll.log = s.coll.log
    ∧ ∀ e ∈ ts, e < 2048 → 1 ≤ ((withdrawTiles s ts).tile e).withdrawn := by
  rw [withdrawTiles_eq]
  refine ⟨forAll_keeps (fun s => s.coll.log) (fun w e => (withdrawTile_stand w e).2) ts s, ?_⟩
  induction ts generalizing s with
  | nil => exact fun e he => absurd he List.not_mem_nil
  | cons a ts ih =>
    intro e he hlt
    rcases List.mem_cons.1 he with rfl | he
    · exact (withdrawTile_self s hlt).trans
        (forAll_withdrawnStand (fun w k => (withdrawTile_stand w k).1) ts (withdrawTile s e) e)
    · exact ih (withdrawTile s a) e he hlt

/-- An exposed state in which tiles are withdrawn still holds the code. -/
theorem Exposed.withdrawn {d e last : Nat} (h : Exposed s t c d e last) (ts : List Nat) : c ∈ (withdrawTiles t ts).coll.log := by
  rw [(withdrawTiles_spec t ts).1]
  exact h.mem

/-- The tiles of a die that the check of item 0 found bad also begin their resets. -/
theorem log_beginEngineReset (s : State) (e : Nat) (r : List (Nat × Nat)) :
    (if testingOf s e = none then beginEngineReset s e r else s).coll.log = s.coll.log := by
  have hfails : Fails s (forAll (stepsIn s e) (fun s k => failStep s k 0x0D02) s) :=
    forAll_rel .refl .trans (fun t k => failStep_fails t k 0x0D02) _ s
  have hset (w : State) (n : Nat) : (setWithdrawn w e n).coll = w.coll := by
    simp only [setWithdrawn, apply_ite State.coll, modTile_coll, modMover_coll, modSorter_coll, modReducer_coll, ite_self]
  have htest (w : State) (q : Option (List (Nat × Nat))) : (setTesting w e q).coll = w.coll := by
    simp only [setTesting, apply_ite State.coll, modTile_coll, modMover_coll, modSorter_coll, modReducer_coll, ite_self]
  split
  · unfold beginEngineReset
    extract_lets w
    have hw : w.coll.log = s.coll.log := congrArg (fun v => v.coll.log) hfails.rest
    split
    · exact hw
    · rw [htest, hset, hw]
  · rfl

theorem reset_stand (s : State) (e : Nat) (r : List (Nat × Nat)) :
    WithdrawnStand s (if testingOf s e = none then beginEngineReset s e r else s) := by
  split
  · exact beginEngineReset_stand s e r
  · exact .refl s

/-- Table Lifecycle-11: what an item out of tolerance brings. -/
theorem analogueFail_spec (hinit : s.coll.init = true) (die : Nat) {item : Nat} (hitem : item ≤ 4) (tiles : List Nat) :
    (item ≠ 3 → (0xAB02 : Code) ∈ (analogueFail s die item tiles).coll.log)
      ∧ (item = 0 → ∀ e ∈ tiles, tileDie e = die → e < 2048 → 1 ≤ ((analogueFail s die item tiles).tile e).withdrawn)
      ∧ (item = 1 → ∀ e, e < tileCount s.variant → tileDie e = die → 1 ≤ ((analogueFail s die item tiles).tile e).withdrawn)
      ∧ (item = 2 → (analogueFail s die item tiles).power.throttled = true)
      ∧ (item = 3 → tget (analogueFail s die item tiles).coll.corr 35 0 = min 0xFFFF (tget s.coll.corr 35 0 + 1)
          ∧ (analogueFail s die item tiles).tiles = s.tiles) := by
  have hexposed (u e last : Nat) := expose_spec (s := s) quiet_AB02 (by decide) (.inl hinit) u e last
  obtain rfl | rfl | rfl | rfl | rfl : item = 0 ∨ item = 1 ∨ item = 2 ∨ item = 3 ∨ item = 4 := by omega
  case inl =>
    let ts := tiles.filter fun t => tileDie t == die
    have hfail : analogueFail s die 0 tiles
        = forAll ts (fun s t => if testingOf s t = none then beginEngineReset s t [] else s)
            (withdrawTiles (expose s 0xAB02 die (ts.headD 0xFFF) (tget s.coll.analogue (itemKey die 0) 0)) ts) := rfl
    rw [hfail]
    refine ⟨fun _ => ?_, fun _ e he hdie hlt => ?_, by simp, by simp, by simp⟩
    · rw [forAll_keeps (fun s => s.coll.log) (fun w e => log_beginEngineReset w e [])]
      exact (hexposed _ _ _).withdrawn ts
    · have hbad : e ∈ ts := List.mem_filter.2 ⟨he, by simpa using hdie⟩
      exact le_trans ((withdrawTiles_spec _ _).2 e hbad hlt) (forAll_withdrawnStand (fun w k => reset_stand w k []) _ _ e)
  case inr.inl =>
    refine ⟨fun _ => (hexposed _ _ _).withdrawn _, by simp, fun _ e he hdie => ?_, by simp, by simp⟩
    have hdie' : e ∈ (List.range (tileCount s.variant)).filter fun t => tileDie t == die :=
      List.mem_filter.2 ⟨List.mem_range.2 he, by simpa using hdie⟩
    exact (withdrawTiles_spec _ _).2 e hdie' (lt_of_lt_of_le he (tileCount_le _))
  case inr.inr.inl =>
    have hfail : analogueFail s die 2 tiles
        = throttle (expose s 0xAB02 die 0xFFF (tget s.coll.analogue (itemKey die 2) 0)) := rfl
    have hspec := hexposed die 0xFFF (tget s.coll.analogue (itemKey die 2) 0)
    have hthrottle : (0xAB02 : Code) ∈ (analogueFail s die 2 tiles).coll.log
        ∧ (analogueFail s die 2 tiles).power.throttled = true := by
      rw [hfail]
      generalize expose s 0xAB02 die 0xFFF (tget s.coll.analogue (itemKey die 2) 0) = w at *
      cases hon : w.power.throttled
      · have hslows := throttle_slows hon
        rw [hslows.rest]
        refine ⟨?_, rfl⟩
        show (0xAB02 : Code) ∈ (reportCode w 0x6906).coll.log
        rw [coll_reportCode (by decide) (hspec.init.trans hinit)]
        exact mem_latch_of_corrected (c := 0x6906) (by decide) hspec.mem (by decide) _
      · rw [throttle, if_pos hon]
        exact ⟨hspec.mem, hon⟩
    exact ⟨fun _ => hthrottle.1, by simp, by simp, fun _ => hthrottle.2, by simp⟩
  case inr.inr.inr.inl =>
    refine ⟨by simp, by simp, by simp, by simp, fun _ => ⟨corr_reportCode_self (c := 0x6302) (by decide) (by decide) hinit, ?_⟩⟩
    show (reportCode s 0x6302).tiles = _
    rw [reportCode_shape (by decide)]
  case inr.inr.inr.inr =>
    exact ⟨fun _ => (hexposed _ _ _).mem, by simp, by simp, by simp, by simp⟩

/-- The slice that the check of an item completes. -/
def sliceDone (s : State) (die item : Nat) : State := if item = 4 then s else rotate s die

theorem sliceDone_rest (s : State) (die item : Nat) : sliceDone s die item = { s with life := (sliceDone s die item).life } := by
  unfold sliceDone
  split <;> rfl

/-- R537: the die's next slice, or with the twentieth a rotation more. -/
theorem sliceDone_life (s : State) (die : Nat) {item : Nat} (hitem : item ≠ 4) :
    (tget s.life.rotSlice die 0 + 1 < rotationSlices →
        tget (sliceDone s die item).life.rotSlice die 0 = tget s.life.rotSlice die 0 + 1
          ∧ (sliceDone s die item).life.rotations = s.life.rotations)
      ∧ (rotationSlices ≤ tget s.life.rotSlice die 0 + 1 →
        tget (sliceDone s die item).life.rotSlice die 0 = 0
          ∧ (sliceDone s die item).life.rotations = (s.life.rotations + 1) % 2 ^ 32) := by
  rw [sliceDone, if_neg hitem]
  simp only [rotate, State.modLife]
  constructor
  · intro hmore
    rw [if_pos hmore]
    exact ⟨tget_tput_self .., rfl⟩
  · intro hlast
    rw [if_neg (by omega)]
    exact ⟨tget_tput_self .., rfl⟩

theorem analogueSlice_exec (now : Nat) {die item : Nat} (tiles : List Nat) (ok : Bool) (hup : s.mainReset = false)
    (hinit : s.coll.init = true) (hitem : item ≤ 4) (hdie : item = 4 ∨ die < dies s.variant) (hinject : s.coll.inject = []) :
    exec (.analogueSlice now die item tiles ok) s = .next (
      if ok then (sliceDone (advance s now) die item).modColl fun c =>
        { c with analogue := tput c.analogue (itemKey die item) (time (sliceDone (advance s now) die item)) }
      else analogueFail (sliceDone (advance s now) die item) die item tiles) := by
  have hexec : execAnalogueSlice now die item tiles ok s = _ := timed_of s (by simpa [up, hup, hinit, hitem] using hdie)
  have hunarmed : (item == 3 && armed (advance s now) 35 0 die) = false := by simp [armed, hinject]
  rw [hunarmed] at hexec
  refine Eq.trans (b := execAnalogueSlice now die item tiles ok s) rfl (hexec.trans ?_)
  simp [sliceDone]

theorem analogueSlice_spec (now : Nat) {die item : Nat} (tiles : List Nat) (hup : s.mainReset = false) (hinit : s.coll.init = true)
    (hitem : item ≤ 4) (hdie : item = 4 ∨ die < dies s.variant) (hinject : s.coll.inject = []) :
    (∃ t, exec (.analogueSlice now die item tiles true) s = .next t ∧ tget t.coll.analogue (itemKey die item) 0 = time t
      ∧ t.coll.log = s.coll.log ∧ t.steps = s.steps
      ∧ (item ≠ 4 → tget s.life.rotSlice die 0 + 1 < rotationSlices →
          tget t.life.rotSlice die 0 = tget s.life.rotSlice die 0 + 1 ∧ t.life.rotations = s.life.rotations)
      ∧ (item ≠ 4 → rotationSlices ≤ tget s.life.rotSlice die 0 + 1 →
          tget t.life.rotSlice die 0 = 0 ∧ t.life.rotations = (s.life.rotations + 1) % 2 ^ 32))
    ∧ (∃ t, exec (.analogueSlice now die item tiles false) s = .next t
      ∧ (item ≠ 3 → (0xAB02 : Code) ∈ t.coll.log)
      ∧ (item = 0 → ∀ e ∈ tiles, tileDie e = die → e < 2048 → 1 ≤ (t.tile e).withdrawn)
      ∧ (item = 1 → ∀ e, e < tileCount s.variant → tileDie e = die → 1 ≤ (t.tile e).withdrawn)
      ∧ (item = 2 → t.power.throttled = true)
      ∧ (item = 3 → tget t.coll.corr 35 0 = min 0xFFFF (tget s.coll.corr 35 0 + 1) ∧ t.tiles = s.tiles)) := by
  have hexec (ok : Bool) := analogueSlice_exec now tiles ok hup hinit hitem hdie hinject
  have hrest := sliceDone_rest (advance s now) die item
  have hlife (h : item ≠ 4) := sliceDone_life (advance s now) die h
  rw [advance_life] at hlife
  have hcoll : (sliceDone (advance s now) die item).coll = s.coll := by rw [hrest]; simp
  have hsteps : (sliceDone (advance s now) die item).steps = s.steps := by rw [hrest]; simp
  have htiles : (sliceDone (advance s now) die item).tiles = s.tiles := by rw [hrest]; simp
  have hvariant : (sliceDone (advance s now) die item).variant = s.variant := by rw [hrest]; simp
  generalize sliceDone (advance s now) die item = t at *
  constructor
  · have hpass := hexec true
    rw [if_pos rfl] at hpass
    exact ⟨_, hpass, tget_tput_self .., show t.coll.log = _ by rw [hcoll], hsteps, fun h => (hlife h).1, fun h => (hlife h).2⟩
  · obtain ⟨hlog, htested, hlane, hthrottled, hcounted⟩ := analogueFail_spec (s := t) (by rw [hcoll]; exact hinit) die hitem tiles
    rw [hvariant] at hlane
    rw [hcoll, htiles] at hcounted
    exact ⟨_, hexec false, hlog, htested, hlane, hthrottled, hcounted⟩

/-- Settles O52. -/
theorem safetyClock : Obligations.SafetyClock := by
  unfold Obligations.SafetyClock
  refine ⟨fun s now u e k hup hinit => ?_, fun s now u hup hinit hu => ?_, fun s now u a hup htest hlate => ?_,
    fun s now hready hinit hfreeze hlate => ?_, fun s now die item tiles hup hinit hitem hdie hinject => ?_,
    fun s now item hready hinit hlate => ?_, fun s now hup => ⟨fun hoff => ?_, fun hon => ?_⟩⟩
  · exact ⟨checkerExercise_passes now u e k hup hinit, checkerExercise_fails now u e k hup hinit⟩
  · exact errorPinTest_spec now u hup hinit hu
  · exact errorPinTestTimeout_spec now hup htest hlate
  · exact watchdogExpiry_spec now hready hinit hfreeze hlate
  · exact analogueSlice_spec now tiles hup hinit hitem hdie hinject
  · exact analogueRotationMissed_spec now hready hinit hlate
  · exact thermalThrottleEngaged_spec now hup hoff
  · exact thermalThrottleReleased_spec now hup hon

end Sys2Proof.Machine

/-! PROOFS. Life cycle, firmware and sleep (R338, R347, R354, R513 to R516, R524, R525, R533, R534). -/

namespace Sys2Proof.Machine

open Sys2Proof.Claims

variable {s t u : State} {m : Msg}

/-! ### Capabilities -/

/-- The bytes of a CAP_QUERY response before their padding. -/
def capHead (s : State) : List Byte :=
  toLe 4 (identCap0 s.variant) ++ toLe 4 (identCap1 s.variant) ++ toLe 4 (identFwVer s) ++ toLe 2 1 ++ toLe 2 0
    ++ toLe 2 (tileCount s.variant) ++ toLe 2 (tilesUsable s) ++ toLe 1 (granulesUsable s) ++ toLe 1 64 ++ toLe 2 4096
    ++ toLe 2 (myPkg s)

theorem length_capHead (s : State) : (capHead s).length = 26 := by simp [capHead]

/-- R338: the boot mailbox gives the first 32 bytes. -/
theorem capQuery_bytes (s : State) (boot : Bool) : ∃ z : List Byte,
    (if boot then slice (capBytes s) 0 32 else capBytes s) = capHead s ++ z ∧ z.length = if boot then 6 else 38 := by
  have hcap : capBytes s = capHead s ++ List.replicate 38 0 := by
    rw [show capBytes s = padTo 64 (capHead s) from rfl, padTo, length_capHead]
  cases boot
  · exact ⟨_, hcap, rfl⟩
  · refine ⟨List.replicate 6 0, ?_, rfl⟩
    rw [if_pos rfl, hcap, slice_of_le (by simp [length_capHead]), List.drop_zero, List.take_append, length_capHead,
      List.take_of_length_le (by simp [length_capHead])]
    rfl

theorem fld_append_left {a b : List Byte} {off n : Nat} (h : off + n ≤ a.length) : fld (a ++ b) off n = fld a off n := by
  rw [fld, fld, List.drop_append_of_le_length (by omega), List.take_append_of_le_length (by rw [List.length_drop]; omega)]

/-- A little-endian field at the end. -/
theorem fld_append_toLe {a : List Byte} {off : Nat} (ha : a.length = off) (n v : Nat) : fld (a ++ toLe n v) off n = v % 256 ^ n := by
  rw [fld, List.drop_left' ha, List.take_of_length_le (by simp), leNat_toLe]

theorem fld_toLe (n v : Nat) : fld (toLe n v) 0 n = v % 256 ^ n := by
  rw [fld, List.drop_zero, List.take_of_length_le (by simp), leNat_toLe]

theorem capHead_fields (s : State) (z : List Byte) :
    fld (capHead s ++ z) 0 4 = (if s.variant = .rv9e then 0x78 else 0x7F) ∧ fld (capHead s ++ z) 16 2 = tileCount s.variant
      ∧ fld (capHead s ++ z) 18 2 = tilesUsable s ∧ fld (capHead s ++ z) 20 1 = granulesUsable s
      ∧ fld (capHead s ++ z) 21 1 = 64 ∧ fld (capHead s ++ z) 22 2 = 4096 := by
  have htiles := tileCount_le s.variant
  have hgranules : granuleCount s.variant ≤ 128 := by cases s.variant <;> decide
  have htilesUsable : tilesUsable s ≤ 2048 := by unfold tilesUsable; split <;> omega
  have hgranulesUsable : granulesUsable s ≤ 128 := by unfold granulesUsable; split <;> omega
  have hcap0 : identCap0 s.variant % 4294967296 = if s.variant = .rv9e then 0x78 else 0x7F := by cases s.variant <;> rfl
  simp (disch := simp) only [capHead, fld_append_left, fld_append_toLe, fld_toLe]
  omega

theorem capQuery_spec (h : Passes s { opcode := 0x0002, unbound := true, boot := 1 } m) :
    ∃ t b, exec (.capQuery m) s = .next t ∧ Replies s t m (rspTo m 0 0 b [] false) ∧ b.length = (if m.boot then 32 else 64)
      ∧ fld b 0 4 = (if s.variant = .rv9e then 0x78 else 0x7F) ∧ fld b 16 2 = tileCount s.variant
      ∧ fld b 18 2 = tilesUsable s ∧ fld b 20 1 = granulesUsable s ∧ fld b 21 1 = 64 ∧ fld b 22 2 = 4096 := by
  have hexec : exec (.capQuery m) s = _ := mbx_of_passes h rfl
  obtain ⟨z, hbytes, hz⟩ := capQuery_bytes s m.boot
  have hcap : capBytes (take s m) = capBytes s := rfl
  rw [hcap, hbytes] at hexec
  refine ⟨_, _, hexec, replies_answerWith s m 0 0 (capHead s ++ z) [] false, ?_, capHead_fields s z⟩
  rw [List.length_append, length_capHead, hz]
  cases m.boot <;> rfl

/-! ### Life-cycle transitions -/

/-- The life cycle with the regions of a transition erased and its slot being programmed (R514, R515). -/
def lcBegun (s : State) (m : Msg) : Life :=
  let r := slice m.ext 0 m.extBytes
  let row := (lcRow (priorOf s.life.slots) (fld r 4 1) (fld r 5 1)).getD (0, 0, 0, false, false)
  let l := lcErase s.life row.2.2.2.1 row.2.2.2.2
  { l with
    flashJob := some { kind := 0, func := m.func, boot := m.boot, tag := m.tag, opcode := 0x0705, target := fld r 4 1 }
    ownerCred := if fld r 4 1 = 2 then slice r 32 97 else l.ownerCred }

/-- R513: a busy flash and a status of Table Lifecycle-8 refuse the transition. -/
theorem lcTransition_refused (h : Passes s { opcode := 0x0705, critical := true, pfOnly := true, boot := 2 } m) (hsigned : Signed s m)
    {status : Nat} (hrefused : s.life.flashJob.isSome = true ∧ status = 0x090A
      ∨ s.life.flashJob = none ∧ lcStatus s.life (slice m.ext 0 m.extBytes) ≠ 0
        ∧ status = lcStatus s.life (slice m.ext 0 m.extBytes)) (b : Bool) :
    ∃ t, exec (.lcTransition m b) s = .next t ∧ Replies s t m (rspTo m status 0 [] [] false) := by
  have hexec : exec (.lcTransition m b) s = _ := mbx_of_signed h rfl hsigned
  have hlife : (spent s m).life = s.life := rfl
  simp only [hlife] at hexec
  obtain ⟨u, hans, hreplies, -⟩ := signed_refuse s m status
  refine ⟨u, hexec.trans (congrArg _ (.trans ?_ hans)), hreplies⟩
  rcases hrefused with ⟨hbusy, rfl⟩ | ⟨hfree, hst, rfl⟩
  · rw [if_pos hbusy]
  · rw [hfree, if_neg (by decide), if_pos hst]

theorem lcTransition_begins (h : Passes s { opcode := 0x0705, critical := true, pfOnly := true, boot := 2 } m) (hsigned : Signed s m)
    (hfree : s.life.flashJob = none) (hst : lcStatus s.life (slice m.ext 0 m.extBytes) = 0) :
    exec (.lcTransition m true) s = .next { spent s m with life := lcBegun s m, out := .flashWrite 1 :: s.out } := by
  have hexec : exec (.lcTransition m true) s = _ := mbx_of_signed h rfl hsigned
  have hlife : (spent s m).life = s.life := rfl
  simp only [hlife] at hexec
  rw [hfree, if_neg (by decide), hst, if_neg (by decide)] at hexec
  exact hexec

theorem lcErase_eq (l : Life) (key user : Bool) : lcErase l key user = { l with
    hasIdentity := if key then false else l.hasIdentity, hasCert := if key then false else l.hasCert
    ownerCred := if key then [] else l.ownerCred, devsets := if user then [] else l.devsets } := by
  cases key <;> cases user <;> rfl

theorem lcTransition_spec (h : Passes s { opcode := 0x0705, critical := true, pfOnly := true, boot := 2 } m) (hsigned : Signed s m)
    {row : Nat × Nat × Nat × Bool × Bool} (hfree : s.life.flashJob = none) (hst : lcStatus s.life (slice m.ext 0 m.extBytes) = 0)
    (hrow : lcRow (priorOf s.life.slots) (fld (slice m.ext 0 m.extBytes) 4 1) (fld (slice m.ext 0 m.extBytes) 5 1) = some row) :
    let r := slice m.ext 0 m.extBytes
    ∃ t, exec (.lcTransition m true) s = .next t ∧ Pends s t m ∧ OthersKeep s t m
      ∧ t = { s with lastTaken := t.lastTaken, funcs := t.funcs, life := t.life, out := .flashWrite 1 :: s.out }
      ∧ (∃ j, t.life.flashJob = some j ∧ j.kind = 0 ∧ j.target = fld r 4 1 ∧ j.func = m.func ∧ j.tag = m.tag)
      ∧ t.life.slots = s.life.slots ∧ t.life.lc = s.life.lc
      ∧ (row.2.2.2.1 = true → t.life.hasIdentity = false ∧ t.life.hasCert = false)
      ∧ (row.2.2.2.2 = true → t.life.devsets = [])
      ∧ (row.2.2.2.2 = false → t.life.devsets = s.life.devsets)
      ∧ (fld r 4 1 = 2 → t.life.ownerCred = slice r 32 97) := by
  intro r
  have hbegun : lcBegun s m = { lcErase s.life row.2.2.2.1 row.2.2.2.2 with
      flashJob := some { kind := 0, func := m.func, boot := m.boot, tag := m.tag, opcode := 0x0705, target := fld r 4 1 }
      ownerCred := if fld r 4 1 = 2 then slice r 32 97 else (lcErase s.life row.2.2.2.1 row.2.2.2.2).ownerCred } := by
    have hrow' : row = (lcRow (priorOf s.life.slots) (fld r 4 1) (fld r 5 1)).getD (0, 0, 0, false, false) :=
      (congrArg (·.getD (0, 0, 0, false, false)) hrow).symm
    rw [hrow']
    rfl
  rw [lcErase_eq] at hbegun
  refine ⟨_, lcTransition_begins h hsigned hfree hst, (SenderStands.of_spent s m).pends, fun g hg => ?_, rfl, ?_⟩
  · show (spent s m).func g = s.func g
    rw [spent, func_modFunc_ne _ _ hg, func_take_ne s hg]
  · dsimp only
    rw [hbegun]
    exact ⟨⟨_, rfl, rfl, rfl, rfl, rfl⟩, rfl, rfl, fun hkey => ⟨if_pos hkey, if_pos hkey⟩, fun huser => if_pos huser,
      fun huser => if_neg (by simp [huser]), fun ht => if_pos ht⟩

/-! ### Firmware images -/

/-- R531, R533: the checks of an image, then its writing. -/
theorem writeImage_spec (hfree : s.life.flashJob = none) (kind : Nat) :
    (imageStatus s.life (extIn m) = 0 → ∃ t j, applyAns (spent s m) m (writeImage (spent s m) m kind) = t ∧ Pends s t m
      ∧ t.life.flashJob = some j ∧ j.kind = kind ∧ j.tag = m.tag ∧ j.func = m.func
      ∧ j.image = (extIn m).take (fld (extIn m) 4 4) ∧ t.life.image = s.life.image ∧ t.out = .flashWrite 0 :: s.out)
    ∧ (imageStatus s.life (extIn m) ≠ 0 → ∃ t, applyAns (spent s m) m (writeImage (spent s m) m kind) = t
      ∧ Replies s t m (rspTo m (imageStatus s.life (extIn m)) 0 [] [] false)) := by
  have hlife : (spent s m).life = s.life := rfl
  simp only [writeImage, hlife, hfree, Option.isSome_none, Bool.false_eq_true, if_false]
  constructor
  · intro hst
    rw [if_neg (by simp [hst])]
    exact ⟨_, _, rfl, (SenderStands.of_spent s m).pends, rfl, rfl, rfl, rfl, rfl, rfl, rfl⟩
  · intro hst
    rw [if_pos hst]
    obtain ⟨u, hans, hreplies, -⟩ := signed_refuse s m (imageStatus s.life (extIn m))
    exact ⟨u, hans, hreplies⟩

/-! ### The end of a flash operation -/

theorem flashOperationDone_exec (now : Nat) (ok : Bool) {j : FlashJob} (hup : s.mainReset = false) (hjob : s.life.flashJob = some j) :
    exec (.flashOperationDone now ok) s = .next (
      if j.kind = 0 then slotDone ((advance s now).modLife fun l => { l with flashJob := none }) j ok
      else imageDone ((advance s now).modLife fun l => { l with flashJob := none }) j ok) := by
  have hexec : execFlashOperationDone now ok s = _ := timed_of s (by simp [up, hup, hjob])
  refine hexec.trans ?_
  rw [show (advance s now).life.flashJob = some j by simpa using hjob]

/-- An answered request leaves whorl time and the life cycle. -/
theorem answer_life (s : State) (f tag status : Nat) :
    (answer s f tag status 0).life = s.life ∧ time (answer s f tag status 0) = time s := by
  rw [answer, answerWith_rest]
  exact ⟨rfl, rfl⟩

/-- The state in which the operation has ended and nothing has come of it yet. -/
def flashEnded (s : State) (now : Nat) : State := (advance s now).modLife fun l => { l with flashJob := none }

theorem flashEnded_life (now : Nat) : (flashEnded s now).life = { s.life with flashJob := none } := by
  rw [flashEnded, modLife_life, advance_life]

/-- The request that began the operation is answered, whatever the operation has done to the life cycle. -/
theorem answer_flashEnded (now : Nat) {j : FlashJob} {k : Taken} (htaken : takenOf s j.func j.tag = some k) (l : Life) (n status : Nat) :
    ∃ r : Rsp, ((answer { flashEnded s now with life := l, fresh := n } j.func j.tag status 0).func j.func).rsps
      = (s.func j.func).rsps ++ [r] ∧ r.tag = j.tag ∧ r.status = BitVec.ofNat 16 status := by
  generalize hw : { flashEnded s now with life := l, fresh := n } = w
  have hfunc : w.func j.func = s.func j.func := by
    rw [← hw]
    exact advance_func s now j.func
  obtain ⟨r, -, hrsps, -, -, htag, hstatus, -⟩ := answerWith_answers ((takenOf_congr hfunc j.tag).trans htaken) status 0 [] [] false
  exact ⟨r, by rw [answer, hrsps, hfunc], htag, hstatus⟩

/-- The life cycle once the operation has been read back as it should (R515, R533, R534). -/
def flashDone (l : Life) (now : Nat) (j : FlashJob) : Life :=
  if j.kind = 0 then
    { l with slots := l.slots ++ [{ word := stateWord (tget lcMasks j.target 0), startNo := l.startNo }]
             resetAt := some (100000 + now), resetCause := 8 }
  else if j.kind = 2 then modEntry { l with image := j.image, resetAt := some now, resetCause := 9 } fun e => { e with done := 0 }
  else { l with image := j.image }

theorem flashOperationDone_ok (now : Nat) {j : FlashJob} (hup : s.mainReset = false) (hjob : s.life.flashJob = some j) :
    exec (.flashOperationDone now true) s = .next (answer { flashEnded s now with
      life := flashDone { s.life with flashJob := none } (time (advance s now)) j, fresh := s.fresh } j.func j.tag 0 0) := by
  refine (flashOperationDone_exec now true hup hjob).trans (congrArg _ ?_)
  have hfresh : s.fresh = (advance s now).fresh := by simp
  rw [← flashEnded, ← flashEnded_life now, hfresh]
  by_cases hkind : j.kind = 0
  · rw [if_pos hkind, flashDone, if_pos hkind]
    rfl
  · rw [if_neg hkind, flashDone, if_neg hkind]
    by_cases hrecover : j.kind = 2
    · simp only [imageDone, if_pos hrecover]
      rfl
    · simp only [imageDone, if_neg hrecover]
      rfl

/-- What a read-back that fails leaves of the life cycle; the slot is spoiled (log 34). -/
def flashSpoiled (l : Life) (v : Nat) (j : FlashJob) : Life :=
  if j.kind = 0 then { l with slots := l.slots ++ [{ word := List.replicate 16 0xFF, startNo := l.startNo }] }
  else { l with image := toLe 512 v }

/-- The status of an operation whose read-back failed; that of a transition is open (log 34). -/
def spoiledStatus (v : Nat) (j : FlashJob) : Nat := if j.kind = 0 then v % 65535 + 1 else 0x0E04

theorem flashOperationDone_bad (now : Nat) {j : FlashJob} (hup : s.mainReset = false) (hjob : s.life.flashJob = some j) :
    exec (.flashOperationDone now false) s = .next (answer { flashEnded s now with
      life := flashSpoiled { s.life with flashJob := none } (Config.freeNat s.fresh) j, fresh := s.fresh + 1 } j.func j.tag
        (spoiledStatus (Config.freeNat s.fresh) j) 0) := by
  refine (flashOperationDone_exec now false hup hjob).trans (congrArg _ ?_)
  have hfresh : s.fresh = (advance s now).fresh := by simp
  rw [← flashEnded, ← flashEnded_life now, hfresh]
  by_cases hkind : j.kind = 0
  · rw [if_pos hkind, flashSpoiled, if_pos hkind, spoiledStatus, if_pos hkind]
    rfl
  · rw [if_neg hkind, flashSpoiled, if_neg hkind, spoiledStatus, if_neg hkind]
    rfl

theorem spoiledStatus_ne (v : Nat) (j : FlashJob) : BitVec.ofNat 16 (spoiledStatus v j) ≠ 0 := by
  unfold spoiledStatus
  split
  · intro h
    have : (v % 65535 + 1) % 65536 = 0 := congrArg BitVec.toNat h
    omega
  · decide

/-- R515, R533, R534: the end of a flash operation answers its request. -/
theorem flashOperationDone_spec (now : Nat) {j : FlashJob} {k : Taken} (hup : s.mainReset = false) (hjob : s.life.flashJob = some j)
    (htaken : takenOf s j.func j.tag = some k) :
    ∃ t r, exec (.flashOperationDone now true) s = .next t ∧ t.life.flashJob = none
      ∧ (t.func j.func).rsps = (s.func j.func).rsps ++ [r] ∧ r.tag = j.tag ∧ r.status = 0
      ∧ (j.kind = 0 → t.life.slots = s.life.slots ++ [{ word := stateWord (tget lcMasks j.target 0), startNo := s.life.startNo }]
          ∧ t.life.resetAt = some (100000 + time t) ∧ t.life.resetCause = 8)
      ∧ (j.kind ≠ 0 → t.life.image = j.image ∧ t.life.slots = s.life.slots)
      ∧ (j.kind = 2 → t.life.resetAt = some (time t) ∧ t.life.resetCause = 9)
      ∧ ∃ t2 r2, exec (.flashOperationDone now false) s = .next t2 ∧ t2.life.flashJob = none
        ∧ (t2.func j.func).rsps = (s.func j.func).rsps ++ [r2] ∧ r2.tag = j.tag ∧ r2.status ≠ 0
        ∧ (j.kind ≠ 0 → r2.status = 0x0E04) := by
  obtain ⟨r, hrsps, htag, hstatus⟩ := answer_flashEnded now htaken
    (flashDone { s.life with flashJob := none } (time (advance s now)) j) s.fresh 0
  obtain ⟨r2, hrsps2, htag2, hstatus2⟩ := answer_flashEnded now htaken
    (flashSpoiled { s.life with flashJob := none } (Config.freeNat s.fresh) j) (s.fresh + 1)
    (spoiledStatus (Config.freeNat s.fresh) j)
  refine ⟨_, r, flashOperationDone_ok now hup hjob, ?_, hrsps, htag, hstatus, fun hkind => ?_, fun hkind => ?_, fun hkind => ?_,
    _, r2, flashOperationDone_bad now hup hjob, ?_, hrsps2, htag2, ?_, fun hkind => ?_⟩
  · rw [(answer_life ..).1]
    show (flashDone _ _ j).flashJob = none
    unfold flashDone
    split
    · rfl
    · split <;> rfl
  · rw [(answer_life ..).1, (answer_life ..).2]
    simp only [flashDone, if_pos hkind]
    exact ⟨trivial, rfl, trivial⟩
  · rw [(answer_life ..).1]
    simp only [flashDone, if_neg hkind]
    split <;> exact ⟨rfl, rfl⟩
  · rw [(answer_life ..).1, (answer_life ..).2]
    have hne : j.kind ≠ 0 := by omega
    simp only [flashDone, if_neg hne, if_pos hkind]
    exact ⟨rfl, rfl⟩
  · rw [(answer_life ..).1]
    show (flashSpoiled _ _ j).flashJob = none
    unfold flashSpoiled
    split <;> rfl
  · rw [hstatus2]
    exact spoiledStatus_ne _ _
  · rw [hstatus2, spoiledStatus, if_neg hkind]
    rfl

/-! ### Sleep -/

theorem sleepEnter_refused (h : Passes s { opcode := 0x0406, critical := true, pfOnly := true, len := some 16, rsv := [(0, 8)] } m)
    (hsigned : Signed s m) {status : Nat}
    (hrefused : (fld m.payload 8 8 ≠ 0 ∧ fld m.payload 8 8 < 50000000 + time s) ∧ status = 0x0903
      ∨ ¬ (fld m.payload 8 8 ≠ 0 ∧ fld m.payload 8 8 < 50000000 + time s) ∧ s.steps ≠ [] ∧ status = 0x0932) :
    ∃ t, exec (.sleepEnter m) s = .next t ∧ Replies s t m (rspTo m status 0 [] [] false) := by
  have hexec : exec (.sleepEnter m) s = _ := mbx_of_signed h rfl hsigned
  have htime : time (spent s m) = time s := rfl
  rw [htime] at hexec
  obtain ⟨u, hans, hreplies, -⟩ := signed_refuse s m status
  refine ⟨u, hexec.trans (congrArg _ (.trans ?_ hans)), hreplies⟩
  rcases hrefused with ⟨hsoon, rfl⟩ | ⟨hlater, hbusy, rfl⟩
  · rw [if_pos hsoon]
  · have hidle : idleForSleep (spent s m) m = false := by
      have : (spent s m).steps = s.steps := rfl
      simp [idleForSleep, this, hbusy]
    rw [if_neg hlater, hidle]
    rfl

theorem mem_funcs_spent {e : Nat × Func} (h : e ∈ (spent s m).funcs) :
    e = (m.func, (spent s m).func m.func) ∨ e = (m.func, (take s m).func m.func) ∨ e ∈ s.funcs := by
  rcases mem_tput h with rfl | h
  · exact .inl (by rw [spent, func_modFunc_self])
  · refine .inr ((mem_tput h).imp (fun he => ?_) id)
    rw [he, take, func_modFunc_self]

/-- R524: with nothing to do but the request itself the block is idle. -/
theorem idleForSleep_spent (hop : m.opcode = 0x0406) (hsteps : s.steps = [])
    (hparts : ∀ e ∈ s.parts, e.2.state ≠ 1 ∧ e.2.state ≠ 3 ∧ e.2.fill = none ∧ (∀ g ∈ e.2.progs, g.2.loading = none)
      ∧ ∀ b ∈ e.2.bobbins, b.2.installing = none)
    (hfuncs : ∀ e ∈ s.funcs, e.2.inFlr = false ∧ e.2.rsps = [] ∧ e.2.taken = []) (hflash : s.life.flashJob = none)
    (hbist : s.life.bistTag = none) (hgst : s.gst.stopped = false) : idleForSleep (spent s m) m = true := by
  have hsender : (s.func m.func).inFlr = false ∧ (s.func m.func).rsps = [] ∧ (s.func m.func).taken = [] := by
    cases hfind : tfind s.funcs m.func with
    | none => simp [State.func, tget, hfind]
    | some x => simpa [State.func, tget, hfind] using hfuncs _ (mem_of_tfind hfind)
  have hidleFunc : ∀ e ∈ (spent s m).funcs, (e.2.inFlr || !e.2.rsps.isEmpty
      || e.2.taken.any fun t => !(e.1 == m.func && t.tag == m.tag && t.opcode == 0x0406)) = false := by
    obtain ⟨hflr, hrsps, htaken⟩ := hsender
    intro e he
    rcases mem_funcs_spent he with rfl | rfl | he
    · simp [func_spent_sender, hflr, hrsps, htaken, takenFrom, hop]
    · simp [func_take_sender, hflr, hrsps, htaken, takenFrom, hop]
    · obtain ⟨hflr', hrsps', htaken'⟩ := hfuncs e he
      simp [hflr', hrsps', htaken']
  have hidlePart : ∀ e ∈ s.parts, (e.2.state == 1 || e.2.state == 3 || e.2.fill.isSome
      || e.2.progs.any (fun g => g.2.live && g.2.loading.isSome)
      || e.2.bobbins.any (fun b => b.2.live && b.2.installing.isSome)) = false := by
    intro e he
    obtain ⟨hcreating, hdestroying, hfill, hprogs, hbobbins⟩ := hparts e he
    have hloads : e.2.progs.any (fun g => g.2.live && g.2.loading.isSome) = false :=
      List.any_eq_false.2 fun g hg => by simp [hprogs g hg]
    have hinstalls : e.2.bobbins.any (fun b => b.2.live && b.2.installing.isSome) = false :=
      List.any_eq_false.2 fun b hb => by simp [hbobbins b hb]
    simp [hcreating, hdestroying, hfill, hloads, hinstalls]
  have hfuncsIdle := List.any_eq_false.2 fun e he => ne_true_of_eq_false (hidleFunc e he)
  have hpartsIdle := List.any_eq_false.2 fun e he => ne_true_of_eq_false (hidlePart e he)
  have hrest : (spent s m).steps = s.steps ∧ (spent s m).parts = s.parts ∧ (spent s m).life = s.life ∧ (spent s m).gst = s.gst :=
    ⟨rfl, rfl, rfl, rfl⟩
  obtain ⟨hs, hp, hl, hg⟩ := hrest
  rw [idleForSleep, hfuncsIdle, hs, hp, hpartsIdle, hl, hg, hsteps, hflash, hbist, hgst]
  rfl

theorem sleepEnter_accepted (h : Passes s { opcode := 0x0406, critical := true, pfOnly := true, len := some 16, rsv := [(0, 8)] } m)
    (hsigned : Signed s m) (htime : fld m.payload 8 8 = 0 ∨ 50000000 + time s ≤ fld m.payload 8 8)
    (hidle : idleForSleep (spent s m) m = true) :
    ∃ t, exec (.sleepEnter m) s = .next t ∧ Answered s t m (okTo m 0)
      ∧ t.power = { s.power with entering := true, wakeTime := fld m.payload 8 8, wakePending := false, admitting := false }
      ∧ t = { s with lastTaken := t.lastTaken, funcs := t.funcs, power := t.power } := by
  have hexec : exec (.sleepEnter m) s = _ := mbx_of_signed h rfl hsigned
  have hnow : time (spent s m) = time s := rfl
  rw [hnow, if_neg (by omega), hidle, if_neg (by decide)] at hexec
  obtain ⟨fs, hans, hanswered, -, -⟩ := signed_reply (s := s) (m := m) (t := { spent s m with
    power := { (spent s m).power with entering := true, wakeTime := fld m.payload 8 8, wakePending := false, admitting := false } })
    rfl 0 0 [] [] false
  exact ⟨_, hexec.trans (congrArg _ hans), hanswered, rfl, rfl⟩

/-- Settles O56. -/
theorem lifeCycle : Obligations.LifeCycle := by
  unfold Obligations.LifeCycle
  refine ⟨fun s m h => ?_, fun s m h => capQuery_spec h, fun s m h => ?_, fun s m h hsigned => ⟨fun hbusy b => ?_, fun hfree hst b => ?_,
    fun row hfree hst hrow => lcTransition_spec h hsigned hfree hst hrow⟩, fun s m => ⟨fun h hsigned => ?_, fun h hsigned => ?_⟩,
    fun s now j k hup hjob htaken => flashOperationDone_spec now hup hjob htaken, fun s m h hsigned => ⟨fun h0 hsoon => ?_, fun htime =>
      ⟨fun hbusy => ?_, fun hsteps hparts hfuncs hflash hbist hgst => ?_⟩⟩⟩
  · exact ⟨_, mbx_of_passes h rfl, replies_answerWith s m 0 0 _ [] false⟩
  · exact ⟨_, mbx_of_passes h rfl, replies_answerWith s m 0 0 _ [] false⟩
  · exact lcTransition_refused h hsigned (.inl ⟨hbusy, rfl⟩) b
  · exact lcTransition_refused h hsigned (.inr ⟨hfree, hst, rfl⟩) b
  · have hexec : exec (.fwUpdate m) s = _ := mbx_of_signed h rfl hsigned
    refine ⟨fun hfree hst => ?_, fun hfree hst => ?_⟩
    · obtain ⟨t, j, ht, hspec⟩ := (writeImage_spec hfree 1).1 hst
      exact ⟨t, j, hexec.trans (congrArg _ ht), hspec⟩
    · obtain ⟨t, ht, hspec⟩ := (writeImage_spec hfree 1).2 hst
      exact ⟨t, hexec.trans (congrArg _ ht), hspec⟩
  · have hexec : exec (.fwRecover m) s = _ := mbx_of_signed h rfl hsigned
    refine ⟨fun hfree hst => ?_, fun hfree hst => ?_⟩
    · obtain ⟨t, j, ht, hspec⟩ := (writeImage_spec hfree 2).1 hst
      exact ⟨t, j, hexec.trans (congrArg _ ht), hspec⟩
    · obtain ⟨t, ht, hspec⟩ := (writeImage_spec hfree 2).2 hst
      exact ⟨t, hexec.trans (congrArg _ ht), hspec⟩
  · exact sleepEnter_refused h hsigned (.inl ⟨⟨h0, hsoon⟩, rfl⟩)
  · exact sleepEnter_refused h hsigned (.inr ⟨by omega, hbusy, rfl⟩)
  · obtain ⟨-, -, -, hop⟩ := id h
    exact sleepEnter_accepted h hsigned htime (idleForSleep_spent hop hsteps hparts hfuncs hflash hbist hgst)

end Sys2Proof.Machine

/-! PROOFS. The trust processor (R39, R475, R489 to R494, R497, R506). -/

namespace Sys2Proof.Machine

open Sys2Proof.Claims

variable {s t u : State} {m : Msg}

/-! ### SPDM -/

theorem measurements_advance (s : State) (now i : Nat) : measurements (advance s now) i = measurements s i := by
  rw [advance_eq]
  rfl

theorem spdmRequest_reset (now : Nat) (q : SpdmReq) (haon : aonUp s = true) (hreset : s.mainReset = true) :
    ∃ t, exec (.spdmRequest now q) s = .next t ∧ t = { s with aon := t.aon, out := .spdm 1 [] :: s.out } := by
  have hexec : execSpdmRequest now q s = _ := timed_of s (by simpa using haon)
  refine ⟨_, hexec, ?_⟩
  rw [if_neg (by simp [up, hreset]), advance_eq]
  rfl

/-- An answer on MCTP, with what the session keeps of the request. -/
structure Talks (s t : State) (code : Nat) (data : List Byte) : Prop where
  out : t.out = .spdm code data :: s.out
  rest : t = { s with life := t.life, out := t.out }

/-- One answer leaves on MCTP. -/
def Talked (s t : State) : Prop := ∃ code data, Talks s t code data

theorem Talked.ans (s : State) (code : Nat) (data : List Byte) : Talked s (spdmAns s code data) := ⟨code, data, rfl, rfl⟩

theorem Talked.kept (s : State) (g : Life → Life) (code : Nat) (data : List Byte) : Talked s (spdmAns (s.modLife g) code data) :=
  ⟨code, data, rfl, rfl⟩

theorem Talked.ite {c : Prop} [Decidable c] (h : Talked s t) (h' : Talked s u) : Talked s (if c then t else u) := by
  split
  exacts [h, h']

/-- The code of a refusal (log 32). -/
def refusalCode : SpdmReq → Nat
  | .keyExchange _ | .pskExchange _ | .mailboxKey => 3
  | _ => 2

theorem refusalCode_ne (q : SpdmReq) : refusalCode q ≠ 0 := by cases q <;> exact nofun

theorem spdmReply_refused (q : SpdmReq) (h : spdmAllowed s q = false) : spdmReply s q = spdmAns s (refusalCode q) [] := by
  unfold spdmReply
  rw [h]
  cases q <;> rfl

/-- Every request has one answer, and only the life cycle keeps anything of it. -/
theorem spdmReply_talks (s : State) (q : SpdmReq) : Talked s (spdmReply s q) := by
  cases hallowed : spdmAllowed s q with
  | false => exact spdmReply_refused q hallowed ▸ .ans ..
  | true =>
    unfold spdmReply
    rw [hallowed, if_neg (by decide)]
    cases q with
    | getMeasurements | challenge => exact .ite (.ans ..) (.ans ..)
    | keyExchange | pskExchange => exact .ite (.ans ..) (.kept ..)
    | finish | pskFinish => exact .ite (.kept ..) (.ans ..)
    | endSession => exact .kept ..
    | mailboxKey => exact .ite (.ans ..) (.ite (.ans ..) (.kept ..))
    | _ => exact .ans ..

/-- What the answer is when the life-cycle state allows the request (R491, R497, R506). -/
theorem spdmReply_allowed {q : SpdmReq} (h : spdmAllowed s q = true) :
    (∀ i, q = .getMeasurements i → s.life.attestKey = true → spdmReply s q = spdmAns s 0 (measurements s i))
    ∧ (q = .keyExchange true → pskState s.life.lc = false → spdmReply s q = spdmAns (setSession s 1) 0 [])
    ∧ (q = .finish → s.life.session = 1 → spdmReply s q = spdmAns (setSession s 3) 0 [])
    ∧ (q = .pskExchange true → pskState s.life.lc = true → spdmReply s q = spdmAns (setSession s 2) 0 [])
    ∧ (q = .mailboxKey → s.life.session < 3 → spdmReply s q = spdmAns s 3 [])
    ∧ (q = .mailboxKey → 3 ≤ s.life.session → keyAvailable s = true →
        spdmReply s q = spdmAns (s.modLife fun l => { l with pfKeyFetched := true }) 0 []) := by
  unfold spdmReply
  rw [h, if_neg (by decide)]
  refine ⟨?_, ?_, ?_, ?_, ?_, ?_⟩
  · rintro i rfl hkey
    exact if_pos hkey
  · rintro rfl hpsk
    simp [hpsk]
  · rintro rfl hsession
    exact if_pos hsession
  · rintro rfl hpsk
    simp [hpsk]
  · rintro rfl hsession
    exact if_pos hsession
  · rintro rfl hsession hkey
    simp [hkey, Nat.not_lt.2 hsession]

theorem spdmRequest_up (now : Nat) (q : SpdmReq) (haon : aonUp s = true) (hup : s.mainReset = false) :
    ∃ t code data, exec (.spdmRequest now q) s = .next t ∧ t.out = .spdm code data :: s.out
      ∧ t = { s with aon := t.aon, life := t.life, out := t.out }
      ∧ (s.life.lc = 6 → q ≠ .getVersion → q ≠ .getCapabilities → code ≠ 0 ∧ t.life = s.life)
      ∧ (∀ i, q = .getMeasurements i → spdmAllowed s q = true → s.life.attestKey = true → code = 0
        ∧ data = if i = 0xFF then (List.range 8).flatMap fun k => measurement s (k + 1) else measurement s i)
      ∧ (∀ b, q = .keyExchange b → spdmAllowed s q = true → b = true → pskState s.life.lc = false → code = 0 ∧ t.life.session = 1)
      ∧ (q = .finish → spdmAllowed s q = true → s.life.session = 1 → code = 0 ∧ t.life.session = 3)
      ∧ (∀ b, q = .pskExchange b → spdmAllowed s q = true → b = true → pskState s.life.lc = true → code = 0 ∧ t.life.session = 2)
      ∧ (q = .mailboxKey → s.life.session < 3 → code ≠ 0 ∧ t.life.pfKeyFetched = s.life.pfKeyFetched)
      ∧ (q = .mailboxKey → spdmAllowed s q = true → 3 ≤ s.life.session → keyAvailable s = true →
          code = 0 ∧ data = [] ∧ t.life.pfKeyFetched = true) := by
  have hexec : execSpdmRequest now q s = _ := timed_of s (by simpa using haon)
  rw [if_pos (by simp [up, hup])] at hexec
  have hmeasured (i : Nat) := measurements_advance s now i
  have hlife := advance_life s now
  have hkey : keyAvailable (advance s now) = keyAvailable s := by rw [keyAvailable, hlife]; rfl
  have hallow : spdmAllowed (advance s now) q = spdmAllowed s q := by rw [spdmAllowed, hlife]; rfl
  have hout := advance_out s now
  have hrest : advance s now = { s with aon := (advance s now).aon } := advance_eq s now
  generalize advance s now = w at *
  obtain ⟨code, data, hanswer, htalks⟩ := spdmReply_talks w q
  have hsame {v : State} {c : Nat} {d : List Byte} (h : spdmReply w q = spdmAns v c d) (hv : v.out = w.out) :
      code = c ∧ data = d ∧ (spdmReply w q).life = v.life := by
    have hboth : Out.spdm code data :: w.out = .spdm c d :: w.out := by rw [← hanswer, h, ← hv]; rfl
    rw [List.cons.injEq, Out.spdm.injEq] at hboth
    exact ⟨hboth.1.1, hboth.1.2, by rw [h]; rfl⟩
  refine ⟨_, code, data, hexec, hanswer.trans (by rw [hout]), by rw [htalks, hrest], fun hlc hver hcap => ?_, fun i hq hok hattest => ?_,
    fun b hq hok hb hpsk => ?_, fun hq hok hsession => ?_, fun b hq hok hb hpsk => ?_, fun hq hsession => ?_,
    fun hq hok hsession hmail => ?_⟩
  · have hno : spdmAllowed w q = false := by
      rw [hallow]
      simp [spdmAllowed, hlc, hver, hcap]
    obtain ⟨rfl, -, hl⟩ := hsame (spdmReply_refused q hno) rfl
    exact ⟨refusalCode_ne q, hl.trans hlife⟩
  · obtain ⟨rfl, rfl, -⟩ := hsame ((spdmReply_allowed (hallow.trans hok)).1 i hq (by rwa [hlife])) rfl
    exact ⟨rfl, hmeasured i⟩
  · subst hb
    obtain ⟨rfl, -, hl⟩ := hsame ((spdmReply_allowed (hallow.trans hok)).2.1 hq (by rwa [hlife])) rfl
    exact ⟨rfl, by rw [hl]; rfl⟩
  · obtain ⟨rfl, -, hl⟩ := hsame ((spdmReply_allowed (hallow.trans hok)).2.2.1 hq (by rwa [hlife])) rfl
    exact ⟨rfl, by rw [hl]; rfl⟩
  · subst hb
    obtain ⟨rfl, -, hl⟩ := hsame ((spdmReply_allowed (hallow.trans hok)).2.2.2.1 hq (by rwa [hlife])) rfl
    exact ⟨rfl, by rw [hl]; rfl⟩
  · cases hok : spdmAllowed w q with
    | false =>
      obtain ⟨rfl, -, hl⟩ := hsame (spdmReply_refused q hok) rfl
      exact ⟨refusalCode_ne q, by rw [hl, hlife]⟩
    | true =>
      obtain ⟨rfl, -, hl⟩ := hsame ((spdmReply_allowed hok).2.2.2.2.1 hq (by rwa [hlife])) rfl
      exact ⟨by decide, by rw [hl, hlife]⟩
  · obtain ⟨rfl, rfl, hl⟩ := hsame ((spdmReply_allowed (hallow.trans hok)).2.2.2.2.2 hq (by rwa [hlife]) (hkey.trans hmail)) rfl
    exact ⟨rfl, rfl, by rw [hl]; rfl⟩

/-! ### Debug grants -/

theorem mem_setGrant {l ps : List Nat} {on : Bool} {k : Nat} :
    k ∈ setGrant l ps on ↔ if k ∈ ps then on = true else k ∈ l := by
  cases on
  · simp only [setGrant, Bool.false_eq_true, if_false, List.mem_filter]
    split <;> simp_all
  · simp only [setGrant, if_true, mem_foldl_addNew]
    split <;> simp_all

/-- The partitions that a debug request names. -/
def grantParts (s : State) (p : Nat) (whole : Bool) : List Nat :=
  if whole then (s.parts.filter fun e => e.2.state == 2).map (·.1) else [p]

theorem mem_grantParts {p k : Nat} {whole : Bool} :
    k ∈ grantParts s p whole ↔ if whole = true then ∃ e ∈ s.parts, e.1 = k ∧ e.2.state = 2 else k = p := by
  cases whole
  · simp [grantParts]
  · simp [grantParts, and_comm]

/-- The grants that a debug request leaves (R489). -/
def grantsSet (g : Grants) (ps : List Nat) (b : Nat) (on : Bool) : Grants :=
  { trace := if bitOf b 0 then setGrant g.trace ps on else g.trace
    stop := if bitOf b 1 then on else g.stop
    scan := if bitOf b 2 then setGrant g.scan ps on else g.scan
    memRead := if bitOf b 3 then setGrant g.memRead ps on else g.memRead }

/-- The state in which the grants are set and closed traces stopped. -/
def debugSet (s : State) (ps : List Nat) (b : Nat) (on : Bool) : State :=
  let w := { s with grants := grantsSet s.grants ps b on }
  if bitOf b 0 && !on then forAll ps (fun s p => reap (traceOff s p) p) w else w

theorem tracesOff_rest (ps : List Nat) (s : State) :
    forAll ps (fun s p => reap (traceOff s p) p) s = { s with parts := (forAll ps (fun s p => reap (traceOff s p) p) s).parts } :=
  forAll_rel (R := fun s t => t = { s with parts := t.parts }) (fun _ => rfl) (fun h h' => by rw [h', h])
    (fun t p => by rw [reap, traceOff_eq]; rfl) ps s

theorem tracesOff_off {ps : List Nat} {k : Nat} (h : k ∈ ps ∨ (s.part k).trace.on = false) :
    ((forAll ps (fun s p => reap (traceOff s p) p) s).part k).trace.on = false := by
  induction ps generalizing s with
  | nil => exact h.resolve_left List.not_mem_nil
  | cons p ps ih =>
    refine ih (s := reap (traceOff s p) p) ?_
    rw [part_reap]
    by_cases hk : k = p
    · exact .inr (hk ▸ traceOff_off s p)
    · refine (h.imp_left fun hmem => (List.mem_cons.1 hmem).resolve_left hk).imp_right fun hoff => ?_
      show ((traceOff s p).part k).trace.on = false
      unfold traceOff
      extract_lets i
      split
      · rwa [part_modPart_ne _ _ hk]
      · exact hoff

/-- The line of DEBUG_ENABLE in Table Mailbox-5. -/
def debugRow (s : State) (m : Msg) : MsgSpec :=
  { opcode := 0x0701, critical := true, len := some 6, rsv := [(1, 3)]
    ranges := decide (fld m.payload 4 1 < 16 ∧ fld m.payload 5 1 ≤ 1)
      && (m.func != 0 || !bitOf (fld m.payload 4 1) 1 || namedPart m == 0xFF)
    named := (m.func == 0 && namedPart m == 0xFF) || (if m.func = 0 then anyPart s m else ownPart s m) }

theorem debugEnable_refused (h : Passes s (debugRow s m) m) (hsigned : Signed s m) {status : Nat}
    (hrefused : (s.life.lc = 0x0F ∨ s.life.lc = 6) ∧ status = 0x0914
      ∨ ¬ (s.life.lc = 0x0F ∨ s.life.lc = 6) ∧ (m.func ≠ 0 ∧ 2 ≤ fld m.payload 4 1) ∧ status = 0x0906) :
    ∃ t, exec (.debugEnable m) s = .next t ∧ Replies s t m (rspTo m status 0 [] [] false) := by
  have hexec : exec (.debugEnable m) s = _ := mbx_of_signed h rfl hsigned
  have hlife : (spent s m).life = s.life := rfl
  rw [hlife] at hexec
  obtain ⟨u, hans, hreplies, -⟩ := signed_refuse s m status
  refine ⟨u, hexec.trans (congrArg _ (.trans ?_ hans)), hreplies⟩
  rcases hrefused with ⟨hlc, rfl⟩ | ⟨hlc, ⟨hvf, hbits⟩, rfl⟩
  · rw [if_pos hlc]
  · rw [if_neg hlc, if_pos ⟨hvf, by omega⟩]

theorem debugEnable_accepted (h : Passes s (debugRow s m) m) (hsigned : Signed s m) (hlc : ¬ (s.life.lc = 0x0F ∨ s.life.lc = 6))
    (hmay : m.func = 0 ∨ fld m.payload 4 1 < 2) :
    exec (.debugEnable m) s = .next (applyAns (spent s m) m (.done (debugSet (spent s m)
      (grantParts s (namedPart m) (m.func == 0 && namedPart m == 0xFF)) (fld m.payload 4 1) (fld m.payload 5 1 == 1)))) := by
  have hexec : exec (.debugEnable m) s = _ := mbx_of_signed h rfl hsigned
  have hlife : (spent s m).life = s.life := rfl
  rw [hlife, if_neg hlc, if_neg (by omega)] at hexec
  exact hexec

theorem debugEnable_spec (h : Passes s (debugRow s m) m) (hsigned : Signed s m) (hlc : ¬ (s.life.lc = 0x0F ∨ s.life.lc = 6))
    (hmay : m.func = 0 ∨ fld m.payload 4 1 < 2) {ps : List Nat}
    (hps : ps = grantParts s (namedPart m) (m.func == 0 && namedPart m == 0xFF)) {b : Nat} (hb : b = fld m.payload 4 1) {on : Bool}
    (hon : on = (fld m.payload 5 1 == 1)) :
    ∃ t, exec (.debugEnable m) s = .next t ∧ Answered s t m (okTo m 0)
      ∧ t.grants.stop = (if bitOf b 1 then on else s.grants.stop)
      ∧ (∀ k, k ∈ t.grants.trace ↔ if bitOf b 0 = true ∧ k ∈ ps then on = true else k ∈ s.grants.trace)
      ∧ (∀ k, k ∈ t.grants.scan ↔ if bitOf b 2 = true ∧ k ∈ ps then on = true else k ∈ s.grants.scan)
      ∧ (∀ k, k ∈ t.grants.memRead ↔ if bitOf b 3 = true ∧ k ∈ ps then on = true else k ∈ s.grants.memRead)
      ∧ (∀ k, bitOf b 0 = true → on = false → k ∈ ps → (t.part k).trace.on = false) ∧ t.steps = s.steps := by
  have hexec := debugEnable_accepted h hsigned hlc hmay
  rw [← hps, ← hb, ← hon] at hexec
  have hrest : debugSet (spent s m) ps b on
      = { spent s m with grants := grantsSet s.grants ps b on, parts := (debugSet (spent s m) ps b on).parts } := by
    unfold debugSet
    extract_lets w
    split
    · rw [tracesOff_rest]
      rfl
    · rfl
  have hoff (k : Nat) (hbit : bitOf b 0 = true) (hclosed : on = false) (hk : k ∈ ps) :
      ((debugSet (spent s m) ps b on).part k).trace.on = false := by
    unfold debugSet
    extract_lets w
    rw [if_pos (by simp [hbit, hclosed])]
    exact tracesOff_off (.inl hk)
  have hgrant (l : List Nat) (i k : Nat) : k ∈ (if bitOf b i then setGrant l ps on else l)
      ↔ if bitOf b i = true ∧ k ∈ ps then on = true else k ∈ l := by
    cases bitOf b i
    · simp
    · simp [mem_setGrant]
  have hgrants : (debugSet (spent s m) ps b on).grants = grantsSet s.grants ps b on := by rw [hrest]
  have hsteps : (debugSet (spent s m) ps b on).steps = s.steps := by rw [hrest]; rfl
  obtain ⟨fs, hans, hanswered, -, -⟩ := signed_reply (s := s) (m := m) (t := debugSet (spent s m) ps b on) (by rw [hrest]) 0 0 [] [] false
  refine ⟨_, hexec.trans (congrArg _ hans), hanswered, ?_, fun k => ?_, fun k => ?_, fun k => ?_, hoff, hsteps⟩
  · exact congrArg Grants.stop hgrants
  · exact (iff_of_eq (congrArg (fun g : Grants => k ∈ g.trace) hgrants)).trans (hgrant ..)
  · exact (iff_of_eq (congrArg (fun g : Grants => k ∈ g.scan) hgrants)).trans (hgrant ..)
  · exact (iff_of_eq (congrArg (fun g : Grants => k ∈ g.memRead) hgrants)).trans (hgrant ..)

/-! ### Device sets -/

/-- Every bobbin of the set in partition `p` has lost its pin and is leaving. -/
def LeftAt (s : State) (p set : Nat) : Prop :=
  ∀ e ∈ (s.part p).bobbins, e.2.live = true → e.2.setId = set → e.2.pinned = false ∧ e.2.removing = true

theorem LeftAt.bobbin {p set i : Nat} (h : LeftAt s p set) (hlive : (bobbin s p i).live = true) (hset : (bobbin s p i).setId = set) :
    (bobbin s p i).pinned = false ∧ (bobbin s p i).removing = true := by
  cases hfind : tfind (s.part p).bobbins i with
  | none =>
    rw [Machine.bobbin, tget, hfind] at hlive
    exact absurd hlive (by decide)
  | some b =>
    have hb : Machine.bobbin s p i = b := by rw [Machine.bobbin, tget, hfind]; rfl
    rw [hb] at hlive hset ⊢
    exact h _ (mem_of_tfind hfind) hlive hset

/-- A partition leaves a set: the installs for it stop. -/
def stopInstalls (s : State) (p set : Nat) : State :=
  forAll ((s.part p).bobbins.filter fun e => e.2.live && e.2.setId == set && e.2.installing.isSome) (fun s e =>
    answerOpt (s.modPart p fun x => { x with bobbins := tdel x.bobbins e.1 }) e.2.installing 0x0605 0) s

/-- A partition leaves a set: its bobbins lose their pins, and those that nothing refers to go. -/
def unpinSet (s : State) (p set : Nat) : State :=
  let s := s.modPart p fun x => { x with bobbins := tmap x.bobbins fun _ b =>
    if b.live && b.setId == set then { b with pinned := false, removing := true } else b }
  let gone := ((s.part p).bobbins.filter fun e => e.2.removing && bobbinRefs s p e.1 == 0 && !serving s p e.2).map (·.1)
  sweepBobbins (s.modPart p fun x => { x with fill := x.fill.filter fun f => !gone.contains f.bobbin }) p

theorem leaveSet_eq (s : State) (set : Nat) :
    leaveSet s set = forAll (s.parts.map (·.1)) (fun s p => unpinSet (stopInstalls s p set) p set) s := rfl

/-- The request `m` is the last its function has taken, and no install waits under it. -/
structure Spared (s : State) (m : Msg) : Prop where
  installs : ∀ p, ∀ e ∈ (s.part p).bobbins, e.2.installing ≠ some (m.func, m.tag)
  last : ∃ l, (s.func m.func).taken = l ++ [takenFrom m]

/-- A change of one catalogue that keeps no install the old one had not. -/
theorem Spared.of_modPart (h : Spared s m) (p : Nat) (g : Part → Part)
    (hg : ∀ e ∈ (g (s.part p)).bobbins, ∃ e' ∈ (s.part p).bobbins, e'.2.installing = e.2.installing) : Spared (s.modPart p g) m := by
  refine ⟨fun q e he => ?_, h.last⟩
  by_cases hq : q = p
  · subst hq
    rw [part_modPart_self] at he
    obtain ⟨e', he', hi⟩ := hg e he
    exact hi ▸ h.installs q e' he'
  · rw [part_modPart_ne _ _ hq] at he
    exact h.installs q e he

theorem Spared.answerOpt {r : Option (Nat × Nat)} (h : Spared s m) (hr : r ≠ some (m.func, m.tag)) (status : Nat) :
    Spared (answerOpt s r status 0) m := by
  refine ⟨fun p e he => h.installs p e ?_, ?_⟩
  · rwa [answerOpt_rest] at he
  · obtain ⟨l, hl⟩ := h.last
    unfold Machine.answerOpt
    split
    · exact ⟨l, hl⟩
    · next f tag => exact taken_answerWith_last hl (fun heq => hr (congrArg some heq)) status 0

theorem Spared.stopInstalls (h : Spared s m) (p set : Nat) : Spared (stopInstalls s p set) m := by
  have hstep (l : List (Nat × Bobbin)) (hl : ∀ e ∈ l, e.2.installing ≠ some (m.func, m.tag)) (w : State) (hw : Spared w m) :
      Spared (forAll l (fun s e => Machine.answerOpt (s.modPart p fun x => { x with bobbins := tdel x.bobbins e.1 })
        e.2.installing 0x0605 0) w) m := by
    induction l generalizing w with
    | nil => exact hw
    | cons e l ih =>
      refine ih (fun e' he' => hl e' (List.mem_cons_of_mem _ he')) _ ?_
      exact (hw.of_modPart p _ fun e' he' => ⟨e', mem_of_mem_tdel he', rfl⟩).answerOpt (hl e List.mem_cons_self) _
  exact hstep _ (fun e he => h.installs p e (List.mem_of_mem_filter he)) s h

theorem Spared.unpinSet (h : Spared s m) (p set : Nat) : Spared (unpinSet s p set) m := by
  unfold Machine.unpinSet
  extract_lets w gone
  have hw : Spared w m := h.of_modPart p _ fun e he => by
    obtain ⟨e', he', rfl⟩ := List.mem_map.1 he
    refine ⟨e', he', ?_⟩
    dsimp only
    split <;> rfl
  exact (hw.of_modPart p (fun x => { x with fill := x.fill.filter fun f => !gone.contains f.bobbin })
    fun e he => ⟨e, he, rfl⟩).of_modPart p _ fun e he => ⟨e, List.mem_of_mem_filter he, rfl⟩

theorem Spared.leaveSet (h : Spared s m) (set : Nat) : Spared (leaveSet s set) m := by
  rw [leaveSet_eq]
  exact forAll_rel (R := fun a b => Spared a m → Spared b m) (fun _ => id) (fun h h' => h' ∘ h)
    (fun w p hw => (hw.stopInstalls p set).unpinSet p set) _ s h

/-- R493: the request that was spared is answered. -/
theorem Spared.answered (h : Spared s m) (detail : Nat) :
    ((answerWith s m.func m.tag 0 detail [] [] false).func m.func).rsps.getLast? = some (okTo m detail) := by
  obtain ⟨l, hl⟩ := h.last
  have htaken : takenOf s m.func m.tag = some (takenFrom m) := by
    rw [takenOf, hl, List.reverse_append]
    simp [takenFrom]
  rw [answerWith, htaken]
  dsimp only
  rw [func_modFunc_self, List.getLast?_append]
  rfl

theorem Spared.of_spent (h : ∀ p, ∀ e ∈ (s.part p).bobbins, e.2.installing ≠ some (m.func, m.tag)) : Spared (spent s m) m :=
  ⟨h, _, (SenderStands.of_spent s m).taken⟩

theorem stopInstalls_rest (s : State) (p set : Nat) : stopInstalls s p set
    = { s with funcs := (stopInstalls s p set).funcs, parts := (stopInstalls s p set).parts } :=
  forAll_rel (R := fun s t => t = { s with funcs := t.funcs, parts := t.parts }) (fun _ => rfl) (fun h h' => by rw [h', h])
    (fun t e => by rw [answerOpt_rest]; rfl) _ s

theorem leaveSet_rest (s : State) (set : Nat) : leaveSet s set
    = { s with funcs := (leaveSet s set).funcs, parts := (leaveSet s set).parts } := by
  rw [leaveSet_eq]
  refine forAll_rel (R := fun s t => t = { s with funcs := t.funcs, parts := t.parts }) (fun _ => rfl) (fun h h' => by rw [h', h])
    (fun t p => ?_) _ s
  have hunpin : unpinSet (stopInstalls t p set) p set
      = { stopInstalls t p set with parts := (unpinSet (stopInstalls t p set) p set).parts } := rfl
  rw [hunpin, stopInstalls_rest]

/-- A partition that leaves a set leaves the others' catalogues. -/
theorem part_stopInstalls_ne (s : State) {p q : Nat} (h : q ≠ p) (set : Nat) : (stopInstalls s p set).part q = s.part q :=
  forAll_keeps (fun s => s.part q) (fun w e => by
    rw [answerOpt_rest]
    exact part_modPart_ne w (fun x => { x with bobbins := tdel x.bobbins e.1 }) h) _ s

theorem part_unpinSet_ne (s : State) {p q : Nat} (h : q ≠ p) (set : Nat) : (unpinSet s p set).part q = s.part q := by
  unfold unpinSet
  extract_lets w gone
  rw [sweepBobbins, part_modPart_ne _ _ h, part_modPart_ne _ _ h, part_modPart_ne _ _ h]

theorem leftAt_unpinSet (s : State) (p set : Nat) : LeftAt (unpinSet s p set) p set := by
  unfold unpinSet
  extract_lets w gone
  intro e he hlive hset
  rw [sweepBobbins, part_modPart_self] at he
  have hw : e ∈ (w.part p).bobbins := by
    rw [part_modPart_self] at he
    exact List.mem_of_mem_filter he
  rw [part_modPart_self] at hw
  obtain ⟨e', -, rfl⟩ := List.mem_map.1 hw
  dsimp only at hlive hset ⊢
  split at hlive
  case isTrue hbound => simp [hbound]
  case isFalse hfree =>
    rw [if_neg hfree] at hset
    exact absurd (by simp [hlive, hset]) hfree

/-- R494: every bobbin of the set leaves. -/
theorem leaveSet_left (s : State) (set p : Nat) : LeftAt (leaveSet s set) p set := by
  have hkeep (q : Nat) (w : State) (h : LeftAt w p set) : LeftAt (unpinSet (stopInstalls w q set) q set) p set := by
    by_cases hp : p = q
    · subst hp
      exact leftAt_unpinSet _ p set
    · rw [LeftAt, part_unpinSet_ne _ hp, part_stopInstalls_ne _ hp]
      exact h
  have hall (l : List Nat) (w : State) (h : p ∈ l ∨ LeftAt w p set) :
      LeftAt (forAll l (fun s p => unpinSet (stopInstalls s p set) p set) w) p set := by
    induction l generalizing w with
    | nil => exact h.resolve_left List.not_mem_nil
    | cons q l ih =>
      refine ih _ ?_
      rcases h with hmem | hleft
      · rcases List.mem_cons.1 hmem with rfl | hmem
        · exact .inr (leftAt_unpinSet _ p set)
        · exact .inl hmem
      · exact .inr (hkeep q w hleft)
  rw [leaveSet_eq]
  refine hall _ s ?_
  cases hfind : tfind s.parts p with
  | some x => exact .inl (List.mem_map_of_mem (mem_of_tfind hfind))
  | none =>
    refine .inr fun e he => ?_
    rw [State.part, tget, hfind] at he
    exact absurd he List.not_mem_nil

/-- The states in which device sets are enrolled and left (R493, R494). -/
theorem not_enrolling {lc : Nat} : (!(lc == 2 || lc == 3 || lc == 4)) = true ↔ ¬ (lc = 2 ∨ lc = 3 ∨ lc = 4) := by
  simp [not_or, and_assoc]

theorem devsetLeave_refused (h : Passes s { opcode := 0x0703, critical := true, pfOnly := true, len := some 8, rsv := [(0, 4)] } m)
    (hsigned : Signed s m) (hlc : s.life.lc = 2 ∨ s.life.lc = 3 ∨ s.life.lc = 4)
    (hnone : ∀ d ∈ s.life.devsets, d.2.setId ≠ fld m.payload 4 4) :
    ∃ t, exec (.devsetLeave m) s = .next t ∧ Replies s t m (rspTo m 0x0903 0 [] [] false) := by
  have hexec : exec (.devsetLeave m) s = _ := mbx_of_signed h rfl hsigned
  have hlife : (spent s m).life = s.life := rfl
  have hmissing : (s.life.devsets.any fun d => d.2.setId == fld m.payload 4 4) = false :=
    List.any_eq_false.2 fun d hd => by simpa using hnone d hd
  rw [hlife, if_neg (mt not_enrolling.1 (not_not.2 hlc)), hmissing] at hexec
  obtain ⟨u, hans, hreplies, -⟩ := signed_refuse s m 0x0903
  exact ⟨u, hexec.trans (congrArg _ hans), hreplies⟩

theorem devsetLeave_spec (h : Passes s { opcode := 0x0703, critical := true, pfOnly := true, len := some 8, rsv := [(0, 4)] } m)
    (hsigned : Signed s m) (hlc : s.life.lc = 2 ∨ s.life.lc = 3 ∨ s.life.lc = 4)
    (hsome : ∃ d ∈ s.life.devsets, d.2.setId = fld m.payload 4 4)
    (hinstalls : ∀ p, ∀ e ∈ (s.part p).bobbins, e.2.installing ≠ some (m.func, m.tag)) :
    ∃ t, exec (.devsetLeave m) s = .next t ∧ (t.func m.func).rsps.getLast? = some (okTo m 0)
      ∧ (∀ d, d ∈ t.life.devsets ↔ d ∈ s.life.devsets ∧ d.2.setId ≠ fld m.payload 4 4)
      ∧ (∀ p i, (bobbin t p i).live = true → (bobbin t p i).setId = fld m.payload 4 4 →
          (bobbin t p i).pinned = false ∧ (bobbin t p i).removing = true)
      ∧ t.steps = s.steps := by
  have hexec : exec (.devsetLeave m) s = _ := mbx_of_signed h rfl hsigned
  have hlife : (spent s m).life = s.life := rfl
  have hpresent : (s.life.devsets.any fun d => d.2.setId == fld m.payload 4 4) = true := by
    obtain ⟨d, hd, hset⟩ := hsome
    exact List.any_eq_true.2 ⟨d, hd, by simpa using hset⟩
  rw [hlife, if_neg (mt not_enrolling.1 (not_not.2 hlc)), hpresent, if_neg (by decide)] at hexec
  have hspared := (Spared.of_spent hinstalls).leaveSet (fld m.payload 4 4)
  have hleft := leaveSet_left (spent s m) (fld m.payload 4 4)
  have hrest := leaveSet_rest (spent s m) (fld m.payload 4 4)
  generalize leaveSet (spent s m) (fld m.payload 4 4) = w at *
  have hdevsets : w.life = s.life := by rw [hrest, hlife]
  have hsteps : w.steps = s.steps := by rw [hrest]; rfl
  have hspared' : Spared (w.modLife fun l => { l with devsets := l.devsets.filter fun d => d.2.setId != fld m.payload 4 4 }) m :=
    ⟨hspared.installs, hspared.last⟩
  have hans := answerWith_rest (w.modLife fun l => { l with devsets := l.devsets.filter fun d => d.2.setId != fld m.payload 4 4 })
    m.func m.tag 0 0 [] [] false
  refine ⟨_, hexec, hspared'.answered 0, fun d => ?_, fun p i hlive hset => ?_, ?_⟩
  · show d ∈ (answerWith _ _ _ _ _ _ _ _).life.devsets ↔ _
    rw [hans]
    show d ∈ w.life.devsets.filter _ ↔ _
    rw [hdevsets, List.mem_filter]
    simp
  · have hsame : bobbin (applyAns (spent s m) m (.done (w.modLife fun l =>
        { l with devsets := l.devsets.filter fun d => d.2.setId != fld m.payload 4 4 }))) p i = bobbin w p i := by
      show bobbin (answerWith _ _ _ _ _ _ _ _) p i = _
      rw [hans]
      rfl
    rw [hsame] at hlive hset ⊢
    exact (hleft p).bobbin hlive hset
  · show (answerWith _ _ _ _ _ _ _ _).steps = _
    rw [hans]
    exact hsteps

theorem devsetEnroll_refused (h : Passes s { opcode := 0x0702, critical := true, pfOnly := true } m) (hsigned : Signed s m)
    {status : Nat} (hrefused : ¬ (s.life.lc = 2 ∨ s.life.lc = 3 ∨ s.life.lc = 4) ∧ status = 0x0914
      ∨ (s.life.lc = 2 ∨ s.life.lc = 3 ∨ s.life.lc = 4) ∧ (Config.ecdsaVerify s.life.ownerCred (slice (extIn m) 0 176) (slice (extIn m) 176 96) = false
        ∨ fld (extIn m) 168 8 ≠ s.life.unitId ∨ Config.enrolUnwrap (slice (extIn m) 16 97) (slice (extIn m) 128 40) = none)
        ∧ status = 0x0903) :
    ∃ t, exec (.devsetEnroll m) s = .next t ∧ Replies s t m (rspTo m status 0 [] [] false) := by
  have hexec : exec (.devsetEnroll m) s = _ := mbx_of_signed h rfl hsigned
  have hlife : (spent s m).life = s.life := rfl
  rw [hlife] at hexec
  obtain ⟨u, hans, hreplies, -⟩ := signed_refuse s m status
  refine ⟨u, hexec.trans (congrArg _ (.trans ?_ hans)), hreplies⟩
  rcases hrefused with ⟨hlc, rfl⟩ | ⟨hlc, hbad, rfl⟩
  · rw [if_pos (not_enrolling.2 hlc)]
  · rw [if_neg (mt not_enrolling.1 (not_not.2 hlc))]
    dsimp only
    split
    · rfl
    next hok =>
      simp only [not_or] at hok
      obtain ⟨-, hsig, hunit, -⟩ := hok
      rw [hbad.resolve_left hsig |>.resolve_left hunit]

/-- R493: the key is stored in its slot and the request answered, whatever leaving the slot's old set has done. -/
theorem enrolled_spec {w : State} (hspared : Spared w m) (hlife : w.life = s.life) (slot set : Nat) (key : BitVec 256) :
    let t := applyAns (spent s m) m (.detail (w.modLife fun l => { l with devsets := tput l.devsets slot { setId := set, key := key } }) set)
    (t.func m.func).rsps.getLast? = some (okTo m set) ∧ tfind t.life.devsets slot = some { setId := set, key := key }
      ∧ ∀ k, k ≠ slot → tfind t.life.devsets k = tfind s.life.devsets k := by
  have hspared' : Spared (w.modLife fun l => { l with devsets := tput l.devsets slot { setId := set, key := key } }) m :=
    ⟨hspared.installs, hspared.last⟩
  have hdevsets : (answerWith (w.modLife fun l => { l with devsets := tput l.devsets slot { setId := set, key := key } })
      m.func m.tag 0 set [] [] false).life.devsets = tput s.life.devsets slot { setId := set, key := key } := by
    rw [answerWith_rest]
    show tput w.life.devsets slot _ = _
    rw [hlife]
  refine ⟨hspared'.answered set, ?_, fun k hk => ?_⟩
  · exact (congrArg (tfind · slot) hdevsets).trans (tfind_tput_self ..)
  · exact (congrArg (tfind · k) hdevsets).trans (tfind_tput_ne _ _ hk)

theorem devsetEnroll_spec (h : Passes s { opcode := 0x0702, critical := true, pfOnly := true } m) (hsigned : Signed s m)
    (hlc : s.life.lc = 2 ∨ s.life.lc = 3 ∨ s.life.lc = 4) {key : BitVec 256} (hext : 272 ≤ m.extBytes)
    (hsig : Config.ecdsaVerify s.life.ownerCred (slice (extIn m) 0 176) (slice (extIn m) 176 96) = true)
    (hunit : fld (extIn m) 168 8 = s.life.unitId) (hset : fld (extIn m) 0 4 ≠ 0) (hslot : fld (extIn m) 4 1 ≤ 63)
    (hkey : Config.enrolUnwrap (slice (extIn m) 16 97) (slice (extIn m) 128 40) = some key)
    (hinstalls : ∀ p, ∀ e ∈ (s.part p).bobbins, e.2.installing ≠ some (m.func, m.tag)) :
    ∃ t, exec (.devsetEnroll m) s = .next t ∧ (t.func m.func).rsps.getLast? = some (okTo m (fld (extIn m) 0 4))
      ∧ tfind t.life.devsets (fld (extIn m) 4 1) = some { setId := fld (extIn m) 0 4, key := key }
      ∧ (∀ k, k ≠ fld (extIn m) 4 1 → tfind t.life.devsets k = tfind s.life.devsets k) := by
  have hexec : exec (.devsetEnroll m) s = _ := mbx_of_signed h rfl hsigned
  have hlife : (spent s m).life = s.life := rfl
  rw [hlife, if_neg (mt not_enrolling.1 (not_not.2 hlc))] at hexec
  dsimp only at hexec
  rw [if_neg (by simp [hsig, hunit, hset]; omega), hkey] at hexec
  dsimp only at hexec
  have hspared : Spared (spent s m) m := .of_spent hinstalls
  cases hold : tfind s.life.devsets (fld (extIn m) 4 1) with
  | none =>
    rw [hold] at hexec
    exact ⟨_, hexec, enrolled_spec hspared hlife ..⟩
  | some d =>
    rw [hold] at hexec
    exact ⟨_, hexec, enrolled_spec (hspared.leaveSet d.setId) (by rw [leaveSet_rest, hlife]) ..⟩

/-! ### Mailbox keys -/

/-- The line of MBX_KEY_EXPORT in Table Mailbox-5. -/
def keyExportRow (s : State) (m : Msg) : MsgSpec :=
  { opcode := 0x0704, critical := true, pfOnly := true, len := some 5, rsv := [(0, 4)]
    ranges := fld m.payload 4 1 != 0 && decide (fld m.payload 4 1 < 64) && (s.func (fld m.payload 4 1)).enabled }

/-- Orders 3 and 5 of Table Mailbox-3: the request's values are in range, and a message of the PF comes from it. -/
theorem ranges_of_passes {sp : MsgSpec} (h : Passes s sp m) : sp.ranges = true ∧ (sp.pfOnly = true → m.func = 0) := by
  obtain ⟨-, hchecks, -, -⟩ := h
  unfold check8 at hchecks
  split at hchecks
  · omega
  split at hchecks
  · omega
  split at hchecks
  · omega
  next hform =>
    have hranges : sp.ranges = true := by
      simp only [formOk, Bool.and_eq_true, Bool.not_eq_true', Bool.not_eq_false] at hform
      exact hform.2
    refine ⟨hranges, fun hpf => ?_⟩
    split at hchecks
    · omega
    split at hchecks
    · omega
    next hsender =>
      by_contra hne
      exact hsender ⟨hne, hpf⟩

/-- The states in which keys are exported (R492). -/
theorem not_exporting {lc : Nat} : (!(lc == 2 || lc == 3 || lc == 4 || lc == 5)) = true ↔ ¬ (lc = 2 ∨ lc = 3 ∨ lc = 4 ∨ lc = 5) := by
  simp [not_or, and_assoc]

theorem mbxKeyExport_refused (h : Passes s (keyExportRow s m) m) (hsigned : Signed s m)
    (hlc : ¬ (s.life.lc = 2 ∨ s.life.lc = 3 ∨ s.life.lc = 4 ∨ s.life.lc = 5)) :
    ∃ t, exec (.mbxKeyExport m) s = .next t ∧ Replies s t m (rspTo m 0x0914 0 [] [] false) := by
  have hexec : exec (.mbxKeyExport m) s = _ := mbx_of_signed h rfl hsigned
  have hlife : (spent s m).life = s.life := rfl
  rw [hlife, if_pos (not_exporting.2 hlc)] at hexec
  obtain ⟨u, hans, hreplies, -⟩ := signed_refuse s m 0x0914
  exact ⟨u, hexec.trans (congrArg _ hans), hreplies⟩

/-- The state in which the key of function `f` has been replaced (R492, R504). -/
def rekeyed (s : State) (f : Nat) : State :=
  State.modFunc { s with fresh := s.fresh + 1 } f fun x =>
    { x with key := BitVec.ofNat 256 (Config.freeNat s.fresh), oldKey := some (time s, macKey s x) }

theorem mbxKeyExport_exec (h : Passes s (keyExportRow s m) m) (hsigned : Signed s m)
    (hlc : s.life.lc = 2 ∨ s.life.lc = 3 ∨ s.life.lc = 4 ∨ s.life.lc = 5) (hext : 137 ≤ m.extBytes) :
    exec (.mbxKeyExport m) s = .next (applyAns (spent s m) m (.output (rekeyed (spent s m) (fld m.payload 4 1)) 0
      (slice (Config.exportWrap (slice (extIn m) 0 97) (BitVec.ofNat 256 (Config.freeNat s.fresh))) 0 137))) := by
  have hexec : exec (.mbxKeyExport m) s = _ := mbx_of_signed h rfl hsigned
  have hlife : (spent s m).life = s.life := rfl
  rw [hlife, if_neg (mt not_exporting.1 (not_not.2 hlc)), if_neg (by omega)] at hexec
  exact hexec

theorem mbxKeyExport_spec (h : Passes s (keyExportRow s m) m) (hsigned : Signed s m)
    (hlc : s.life.lc = 2 ∨ s.life.lc = 3 ∨ s.life.lc = 4 ∨ s.life.lc = 5) (hext : 137 ≤ m.extBytes) {f : Nat}
    (hf : f = fld m.payload 4 1) :
    ∃ t, exec (.mbxKeyExport m) s = .next t
      ∧ Answered s t m (rspTo m 0 0 [] (slice (Config.exportWrap (slice (extIn m) 0 97) (t.func f).key) 0 137) true)
      ∧ t.func f = { s.func f with key := (t.func f).key, oldKey := some (time s, macKey s (s.func f)) }
      ∧ (∀ g, g ≠ f → g ≠ m.func → t.func g = s.func g)
      ∧ t = { s with lastTaken := t.lastTaken, funcs := t.funcs, fresh := t.fresh } := by
  have hexec := mbxKeyExport_exec h hsigned hlc hext
  rw [← hf] at hexec
  obtain ⟨hranges, hpf⟩ := ranges_of_passes h
  have hfn : f ≠ m.func := by
    rw [hpf rfl]
    simp only [keyExportRow, ← hf, Bool.and_eq_true, bne_iff_ne] at hranges
    exact hranges.1.1
  have hother (g : Nat) (hg : g ≠ f) (x : Func → Func) :
      (State.modFunc { spent s m with fresh := s.fresh + 1 } f x).func g = (spent s m).func g := func_modFunc_ne _ _ hg
  have hstands : SenderStands s (rekeyed (spent s m) f) m := by
    have hsame : (rekeyed (spent s m) f).func m.func = (spent s m).func m.func := hother _ (Ne.symm hfn) _
    obtain ⟨hrsps, htaken, hhead⟩ := SenderStands.of_spent s m
    exact ⟨by rw [hsame, hrsps], by rw [hsame, htaken], by rw [hsame, hhead]⟩
  obtain ⟨fs, hans, hanswered, hothers, -⟩ := hstands.answered 0 0 []
    (slice (Config.exportWrap (slice (extIn m) 0 97) (BitVec.ofNat 256 (Config.freeNat s.fresh))) 0 137) true
  have hspent (g : Nat) (hg : g ≠ m.func) : (spent s m).func g = s.func g := by
    rw [spent, func_modFunc_ne _ _ hg, func_take_ne s hg]
  have hkey : (rekeyed (spent s m) f).func f = { s.func f with
      key := BitVec.ofNat 256 (Config.freeNat s.fresh), oldKey := some (time s, macKey s (s.func f)) } := by
    have hself : (rekeyed (spent s m) f).func f = { (spent s m).func f with
        key := BitVec.ofNat 256 (Config.freeNat s.fresh), oldKey := some (time s, macKey s ((spent s m).func f)) } :=
      func_modFunc_self _ _ _
    rw [hself, hspent f hfn]
  have hnew : ({ rekeyed (spent s m) f with funcs := fs } : State).func f = _ := (hothers f hfn).trans hkey
  refine ⟨_, hexec.trans (congrArg _ hans), ?_, ?_, fun g hgf hgm => ?_, rfl⟩
  · rw [hnew]
    exact hanswered
  · rw [hnew]
  · exact (hothers g hgm).trans ((hother g hgf _).trans (hspent g hgm))

/-- Settles O57. -/
theorem security : Obligations.Security := by
  unfold Obligations.Security
  refine ⟨fun s now q haon => ⟨fun hreset => spdmRequest_reset now q haon hreset, fun hup => spdmRequest_up now q haon hup⟩,
    fun s m h hsigned => ⟨fun hlc => ?_, fun hdead hscrap hvf hbits => ?_, fun hdead hscrap hmay => ?_⟩,
    fun s m h hsigned => ⟨fun h2 h3 h4 => ?_, fun hlc => ⟨fun hbad => ?_, fun key hext hsig hunit hset hslot hkey hinstalls => ?_⟩⟩,
    fun s m h hsigned hlc => ⟨fun hsome hinstalls => ?_, fun hnone => ?_⟩,
    fun s m h hsigned => ⟨fun hlc hext => ?_, fun h2 h3 h4 h5 => ?_⟩⟩
  · exact debugEnable_refused h hsigned (.inl ⟨hlc, rfl⟩)
  · exact debugEnable_refused h hsigned (.inr ⟨by omega, ⟨hvf, hbits⟩, rfl⟩)
  · intro hit
    have hhit (k : Nat) : k ∈ grantParts s (namedPart m) (m.func == 0 && namedPart m == 0xFF) ↔ hit k := mem_grantParts
    obtain ⟨t, hexec, hanswered, hstop, htrace, hscan, hread, hoff, hsteps⟩ :=
      debugEnable_spec h hsigned (by omega) hmay rfl rfl rfl
    exact ⟨t, hexec, hanswered, hstop, fun k => by simpa only [hhit] using htrace k, fun k => by simpa only [hhit] using hscan k,
      fun k => by simpa only [hhit] using hread k, fun k hbit hclosed hk => hoff k hbit hclosed ((hhit k).2 hk), hsteps⟩
  · exact devsetEnroll_refused h hsigned (.inl ⟨by omega, rfl⟩)
  · exact devsetEnroll_refused h hsigned (.inr ⟨hlc, hbad, rfl⟩)
  · exact devsetEnroll_spec h hsigned hlc hext hsig hunit hset hslot hkey hinstalls
  · exact devsetLeave_spec h hsigned hlc hsome hinstalls
  · exact devsetLeave_refused h hsigned hlc hnone
  · exact mbxKeyExport_spec h hsigned hlc hext rfl
  · exact mbxKeyExport_refused h hsigned (by omega)

end Sys2Proof.Machine

/-! PROOFS. Engine, partition and block resets: a refutation (O58). -/

namespace Sys2Proof.Machine

open Sys2Proof.Claims

/-- A block with two tiles of die 0 withdrawn until block reset, and a third of the same die whose withdrawal the model holds as 3. -/
def overWithdrawn : State :=
  { mainReset := false
    aon := { pwrGood := true, aonResetN := true, blkResetN := true, whorl := 1000000 }
    coll := { init := true }, life := { ready := true, lc := 4, startNo := 1 }
    funcs := [(0, { enabled := true, enable := true, tail := 1 })]
    parts := [(0, { state := 2, width := 1, height := 1 })]
    tiles := [(0, { withdrawn := 3 }), (1, { withdrawn := 2 }), (2, { withdrawn := 2 })] }

/-- BIST_RUN of tile 0. -/
def bistOfTile0 : Msg := { func := 0, opcode := 0x0708, inlineBytes := 8, payload := [0, 0, 0, 0, 0, 0, 0, 0], tag := 7 }

/-- The self-test of tile 0 after a command. -/
def tile0Test : Res → Option (List (Nat × Nat))
  | .next t => testingOf t 0
  | _ => none

/-- Refutes O58: the clause of a BIST_RUN that does not quiesce puts no bound on how far its engine is already withdrawn. In
`overWithdrawn` the third tile out of service resets the partition, which begins an engine reset, with a self-test, of every tile
whose withdrawal is not exactly 2, among them the tile of the request. -/
theorem not_resets : ¬ Obligations.Resets := by
  unfold Obligations.Resets
  rintro ⟨-, -, -, -, -, -, hbist, -⟩
  obtain ⟨-, hruns⟩ := hbist overWithdrawn bistOfTile0 (by unfold Passes; decide)
  obtain ⟨-, -, -, hengine⟩ := hruns (by decide) (by decide)
  obtain ⟨-, t, hexec, -, -, htesting⟩ := hengine (by decide) (by decide)
  have hbegun : tile0Test (exec (.bistRun bistOfTile0 false) overWithdrawn) = some [] := by decide +kernel
  rw [hexec] at hbegun
  have hnone : testingOf t 0 = none := htesting
  rw [tile0Test, hnone] at hbegun
  cases hbegun

end Sys2Proof.Machine

/-! PROOFS. Jobs over several packages: a refutation (O35). -/

namespace Sys2Proof.Machine

open Sys2Proof.Claims

/-- Member 0 of a job, at whose package no step of the job is in flight. -/
def settledAtMember0 : State :=
  { State.reset with
    mainReset := false, life := { ready := true }
    jobs := [(0, { live := true, members := [{ pkg := myPkg State.reset, part := 0 }] })] }

/-- A notice for job step 0. -/
def lateNotice : Notice := { origin := 0, job := 0, jstep := 0, cause := 0, code := 0, detected := 0, lost := false, pgen := 0, startNo := 0 }

/-- The aborted job steps of job 0 after a command. -/
def abortedAfter : Res → List Nat
  | .next t => (t.job 0).aborted
  | _ => []

/-- Refutes O35: the clause on an abort notice asks that its job step be aborted wherever it is not yet, but member 0 ignores a notice
for a step whose completion is settled (R464), as in `settledAtMember0`, where no step of the job is left. -/
theorem not_jobs : ¬ Obligations.Jobs := by
  unfold Obligations.Jobs
  rintro ⟨-, -, -, -, -, hnotice, -⟩
  obtain ⟨-, hnew⟩ := hnotice settledAtMember0 0 lateNotice 0 (by decide) (by decide)
  obtain ⟨t, hexec, haborted, -⟩ := hnew (by decide)
  have hignored : abortedAfter (exec (.abortNotice 0 lateNotice) settledAtMember0) = [] := by decide
  rw [hexec, abortedAfter] at hignored
  rw [hignored] at haborted
  exact absurd haborted List.not_mem_nil

end Sys2Proof.Machine

/-! PROOFS. Plans of the in-transit reducers and of tiles in their place (O39; R156, R203, R407, R408, R412). -/

namespace Sys2Proof.Machine

open Sys2Proof.Claims

variable {s t u : State}

/-! ### Messages handed to a port -/

theorem mem_eraseIdx_or {α : Type} {m : α} {l : List α} (i : Nat) (d : α) (h : m ∈ l) : m ∈ l.eraseIdx i ∨ nth l i d = m := by
  obtain ⟨k, hk, rfl⟩ := List.mem_iff_getElem.1 h
  by_cases hki : k = i
  · subst hki
    exact .inr (by simp [nth, hk])
  · exact .inl (List.mem_eraseIdx_iff_getElem.2 ⟨k, hk, hki, rfl⟩)

theorem port_count (s : State) (p ev n q : Nat) : (count s p ev n).port q = s.port q := by
  unfold State.port
  rw [show (count s p ev n).ports = s.ports by unfold count; split <;> rfl]

theorem port_countGlobal (s : State) (j n q : Nat) : (countGlobal s j n).port q = s.port q := by
  unfold State.port
  rw [show (countGlobal s j n).ports = s.ports by unfold countGlobal; split <;> rfl]

/-- A message waits where it was, or it has left. -/
theorem handed_sendOne {q : Nat} {m : TxMsg} (p : Nat) (h : Handed s q m) : Handed (sendOne s p) q m := by
  rcases h with hq | ho
  · unfold sendOne
    split
    · exact .inl hq
    · next i _ =>
      extract_lets m' sent counted
      have hports : ∀ k, (emit counted (txOut p m')).port k = sent.port k := fun k =>
        (port_count _ m'.part _ _ k).trans (port_countGlobal sent _ _ k)
      unfold Handed
      by_cases hqp : q = p
      · subst hqp
        rcases mem_eraseIdx_or i {} hq with hstill | hgone
        · exact .inl (by rw [hports]; simpa [sent] using hstill)
        · exact .inr (by simp [m', hgone])
      · exact .inl (by rw [hports, port_modPort_ne _ _ hqp]; exact hq)
  · exact .inr ((sendOne_sends s p).out _ ho)

theorem handed_sendAll {m : TxMsg} {l : List TxMsg} (p : Nat) (h : m ∈ l) : Handed (sendAll s p l) p m := by
  have hin : Handed (s.modPort p fun x => { x with txq := x.txq ++ l }) p m := .inl (by simp [h])
  unfold sendAll drainTx
  generalize s.modPort p (fun x => { x with txq := x.txq ++ l }) = w at hin ⊢
  generalize List.range (w.port p).txq.length = n
  induction n generalizing w with
  | nil => exact hin
  | cons a n ih => exact ih _ (handed_sendOne p hin)

theorem up_sendOne (s : State) (p q : Nat) : ((sendOne s p).port q).up = (s.port q).up := by
  unfold sendOne
  split
  · rfl
  · extract_lets m sent counted
    rw [show (emit counted (txOut p m)).port q = sent.port q from (port_count _ m.part _ _ q).trans (port_countGlobal sent _ _ q)]
    by_cases hqp : q = p
    · subst hqp
      simp [sent]
    · rw [port_modPort_ne _ _ hqp]

theorem up_sendAll (s : State) (p : Nat) (l : List TxMsg) (q : Nat) : ((sendAll s p l).port q).up = (s.port q).up := by
  refine (forAll_keeps (fun w => (w.port q).up) (fun w _ => up_sendOne w p q) _ _).trans ?_
  by_cases hqp : q = p
  · subst hqp
    simp
  · rw [port_modPort_ne _ _ hqp]

/-! ### What an engine does for its plan -/

/-- Engine `e` runs the plan of one ring of operation `id`, and no piece waits for it. -/
def Turning (id : Nat) (rev : Bool) (e : Nat) (s : State) : Prop :=
  ∃ y c, y ∈ s.remOps ∧ y.id = id ∧ y.coll = some c ∧ (c.flow rev).eng = some e ∧ (c.flow rev).inbox = []

/-- Between `s` and `t` the plan of one ring of operation `id` wrote, sent and took pieces. -/
structure Flows (id : Nat) (rev : Bool) (s t : State) : Prop where
  rest : t = { s with
    parts := t.parts, steps := t.steps, ctxs := t.ctxs, engRecs := t.engRecs, caches := t.caches, hbmReads := t.hbmReads
    pmc := t.pmc, out := t.out, fresh := t.fresh, ports := t.ports, hbm := t.hbm, hbmPoison := t.hbmPoison, tiles := t.tiles
    remOps := t.remOps }
  run : ∀ k, (t.tile k).run = (s.tile k).run
  up : ∀ p, (t.port p).up = (s.port p).up
  turning : ∀ e, Turning id rev e s → Turning id rev e t

namespace Flows

variable {id : Nat} {rev : Bool}

theorem refl (s : State) : Flows id rev s s := ⟨rfl, fun _ => rfl, fun _ => rfl, fun _ h => h⟩

theorem trans (h : Flows id rev s t) (h' : Flows id rev t u) : Flows id rev s u :=
  ⟨by rw [h'.rest, h.rest], fun k => (h'.run k).trans (h.run k), fun p => (h'.up p).trans (h.up p), fun e x => h'.turning e (h.turning e x)⟩

theorem of_sends (h : Sends s t) (hup : ∀ p, (t.port p).up = (s.port p).up) : Flows id rev s t :=
  ⟨by rw [h.rest], fun k => by rw [State.tile, h.rest]; rfl, hup, fun e hx => by unfold Turning; rw [h.rest]; exact hx⟩

theorem of_aside {slot p : Nat} (h : Aside slot p s t) : Flows id rev s t :=
  ⟨by rw [h.rest], fun k => by rw [State.tile, h.rest]; rfl, fun k => by rw [State.port, h.rest]; rfl,
    fun e hx => by unfold Turning; rw [h.rest]; exact hx⟩

theorem of_puts {slot p : Nat} (h : PutFrame slot p s t) : Flows id rev s t :=
  ⟨by rw [h.rest], fun k => (h.work k).1, fun k => by rw [State.port, h.rest]; rfl,
    fun e hx => by unfold Turning; rw [h.rest]; exact hx⟩

theorem memberPort (h : Flows id rev s t) (j m : Nat) : memberPort t j m = memberPort s j m := by
  have hfirst : firstPort t j m = firstPort s j m := by
    unfold firstPort State.job
    rw [h.rest]
  have harmed : ∀ p, armed t 40 0 p = armed s 40 0 p := fun p => by
    unfold armed
    rw [h.rest]
  simp only [Machine.memberPort, hfirst, h.up, harmed]

end Flows

variable {id e : Nat} {rev : Bool} {o : RemOp} {c : Coll} {q' : Nat}

theorem writeUnits_flows (s : State) (o : RemOp) (c : Coll) (k : Nat) (us : List (List Byte × Bool)) :
    Flows id rev s (writeUnits s o c k us) := by
  unfold writeUnits
  split
  · exact .refl s
  · next st hst => exact (Flows.of_puts (putAll_laid _ _ hst).frame).trans (.of_aside (.touchLines o.slot c.part _ true _))

theorem sendUnits_eq (eng n pos : Nat) (us : List (List Byte × Bool)) (hport : memberPort s c.job (c.first + c.next rev) = some q') :
    sendUnits s eng o c rev n pos us
      = sendAll s q' (unitMsgs eng o c (tget (s.job c.job).routes (c.first + c.next rev) []) n pos us.length us) := by
  simp only [sendUnits, hport]

theorem sendUnits_flows (eng n pos : Nat) (us : List (List Byte × Bool)) (hport : memberPort s c.job (c.first + c.next rev) = some q') :
    Flows id rev s (sendUnits s eng o c rev n pos us) := by
  rw [sendUnits_eq eng n pos us hport]
  exact .of_sends (sendAll_sends _ _ _) (up_sendAll _ _ _)

theorem write_send_flows (eng k n pos : Nat) (us : List (List Byte × Bool))
    (hport : memberPort s c.job (c.first + c.next rev) = some q') :
    Flows id rev s (sendUnits (writeUnits s o c k us) eng o c rev n pos us) := by
  have hwrite : Flows id rev s (writeUnits s o c k us) := writeUnits_flows s o c k us
  exact hwrite.trans (sendUnits_flows eng n pos us ((hwrite.memberPort _ _).trans hport))

theorem flowStart_flows (eng : Nat) (hport : memberPort s c.job (c.first + c.next rev) = some q') :
    Flows id rev s (flowStart s eng o c rev) := by
  unfold flowStart
  split
  · exact sendUnits_flows _ _ _ _ hport
  · extract_lets i us k
    split
    · exact .refl s
    · exact write_send_flows _ _ _ _ _ hport

theorem takeSums_flows (eng k : Nat) (vs : List (Nat × Bool)) (hport : memberPort s c.job (c.first + c.next rev) = some q') :
    Flows id rev s (takeSums s eng o c rev k vs) := by
  unfold takeSums
  extract_lets sums us
  split
  · split
    · exact write_send_flows _ _ _ _ _ hport
    · exact writeUnits_flows _ _ _ _ _
  · exact sendUnits_flows _ _ _ _ hport

theorem takeUnits_flows (eng k : Nat) (us : List (List Byte × Bool)) (hport : memberPort s c.job (c.first + c.next rev) = some q') :
    Flows id rev s (takeUnits s eng o c rev k us) := by
  unfold takeUnits
  extract_lets w
  split
  · exact writeUnits_flows _ _ _ _ _
  · exact write_send_flows _ _ _ _ _ hport

@[simp] theorem flow_setFlow (c : Coll) (rev : Bool) (f : Flow) : (c.setFlow rev f).flow rev = f := by
  cases rev <;> rfl

theorem modColl'_flows (s : State) (id : Nat) {f : Coll → Coll} (hf : ∀ c, ((f c).flow rev).eng = (c.flow rev).eng
    ∧ ((f c).flow rev).inbox = (c.flow rev).inbox) : Flows id rev s (modColl' s id f) := by
  refine ⟨rfl, fun _ => rfl, fun _ => rfl, fun e hx => ?_⟩
  obtain ⟨y, c, hy, rfl, hc, heng, hinbox⟩ := hx
  refine ⟨{ y with coll := y.coll.map f }, f c, List.mem_map.2 ⟨y, hy, if_pos rfl⟩, rfl, by simp [hc], ?_, ?_⟩
  · rw [(hf c).1, heng]
  · rw [(hf c).2, hinbox]

theorem takeChunk_flows (eng : Nat) (x : Chunk) (hport : memberPort s c.job (c.first + c.next rev) = some q') :
    Flows o.id rev s (takeChunk s eng o c rev x) := by
  unfold takeChunk
  split
  next k sums _ =>
  extract_lets n us w
  have htaken : Flows o.id rev s w := by
    unfold w
    split
    · exact takeSums_flows _ _ _ hport
    · exact takeUnits_flows _ _ _ hport
  exact htaken.trans (modColl'_flows _ _ fun y => by simp)

theorem takeChunks_flows (eng : Nat) (xs : List Chunk) (hport : memberPort s c.job (c.first + c.next rev) = some q') :
    Flows o.id rev s (forAll xs (fun s x => takeChunk s eng o c rev x) s) := by
  induction xs generalizing s with
  | nil => exact .refl s
  | cons x xs ih =>
    have hx : Flows o.id rev s (takeChunk s eng o c rev x) := takeChunk_flows eng x hport
    exact hx.trans (ih ((hx.memberPort _ _).trans hport))

/-! ### A plan starts -/

/-- The state in which operation `id` knows that engine `eng` runs the plan of one of its rings. -/
def planOpened (s : State) (id eng : Nat) (rev : Bool) : State :=
  modColl' s id fun y => y.setFlow rev { y.flow rev with eng := some eng, inbox := [] }

variable {q : Plan}

theorem planRun_eq (eng : Nat) (ho : s.remOps.find? (fun o => o.id == q.op) = some o) (hc : o.coll = some c) :
    planRun s eng q = forAll (c.flow q.rev).inbox (fun s x => takeChunk s eng o c q.rev x)
      (flowStart (planOpened s o.id eng q.rev) eng o c q.rev) := by
  simp only [planRun, ho, hc]
  rfl

theorem planOpened_turning (eng : Nat) (ho : o ∈ s.remOps) (hc : o.coll = some c) :
    Turning o.id rev eng (planOpened s o.id eng rev) :=
  ⟨{ o with coll := o.coll.map fun y => y.setFlow rev { y.flow rev with eng := some eng, inbox := [] } }, _,
    List.mem_map.2 ⟨o, ho, if_pos rfl⟩, rfl, by rw [hc]; rfl, by rw [flow_setFlow], by rw [flow_setFlow]⟩

/-- A plan that starts leaves its engine to its caller. -/
theorem planRun_flows (eng : Nat) (ho : s.remOps.find? (fun o => o.id == q.op) = some o) (hc : o.coll = some c)
    (hport : memberPort s c.job (c.first + c.next q.rev) = some q') :
    Flows o.id q.rev (planOpened s o.id eng q.rev) (planRun s eng q) := by
  have hport' : memberPort (planOpened s o.id eng q.rev) c.job (c.first + c.next q.rev) = some q' := hport
  have hstart : Flows o.id q.rev (planOpened s o.id eng q.rev) (flowStart (planOpened s o.id eng q.rev) eng o c q.rev) :=
    flowStart_flows eng hport'
  rw [planRun_eq eng ho hc]
  exact hstart.trans (takeChunks_flows eng _ ((hstart.memberPort _ _).trans hport'))

theorem planRun_turning (eng : Nat) (ho : s.remOps.find? (fun o => o.id == q.op) = some o) (hc : o.coll = some c)
    (hport : memberPort s c.job (c.first + c.next q.rev) = some q') : Turning o.id q.rev eng (planRun s eng q) :=
  (planRun_flows eng ho hc hport).turning eng (planOpened_turning eng (List.mem_of_find?_eq_some ho) hc)

/-- A reduction with nothing received yet sends the partial sums of the segment that starts here. -/
theorem planRun_of_reduction (eng : Nat) (ho : s.remOps.find? (fun o => o.id == q.op) = some o) (hc : o.coll = some c)
    (hport : memberPort s c.job (c.first + c.next q.rev) = some q') (hred : c.pattern ≤ 1) (hnone : (c.flow q.rev).inbox = []) :
    planRun s eng q = sendAll (planOpened s o.id eng q.rev) q'
      (let h := c.half q.rev (c.prev q.rev)
       let us := c.pack c.wire c.wireBytes ((List.range (h.2 - h.1)).map fun k => c.contrib (h.1 + k))
       unitMsgs eng o c (tget (s.job c.job).routes (c.first + c.next q.rev) []) c.wireBytes (h.1 * c.wireBytes) us.length us) := by
  rw [planRun_eq eng ho hc, hnone]
  have hport' : memberPort (planOpened s o.id eng q.rev) c.job (c.first + c.next q.rev) = some q' := hport
  simp only [forAll, List.foldl_nil, flowStart, if_pos hred]
  rw [sendUnits_eq _ _ _ _ hport']
  rfl

/-! ### A tile takes a lowered plan (R203, R221) -/

theorem logPlace_rest (s : State) (st : Step) (skein tile : Nat) (retired replaced added : Bool) :
    logPlace s st skein tile retired replaced added = { s with
      parts := (logPlace s st skein tile retired replaced added).parts, hbm := (logPlace s st skein tile retired replaced added).hbm
      hbmPoison := (logPlace s st skein tile retired replaced added).hbmPoison
      ctxs := (logPlace s st skein tile retired replaced added).ctxs } := by
  unfold logPlace
  extract_lets c i w v
  split <;> rfl

theorem traceAdded_traces (s : State) (q : Plan) (kind t : Nat) : Traces s (traceAdded s q kind t) := by
  unfold traceAdded
  split
  · exact .refl s
  · exact traceRec_traces s _ _

/-- What a lowered plan runs as on a tile. -/
def addedRun (s : State) (q : Plan) : SkeinRun := { slot := q.slot, startAt := time s, skein := q.added, issued := true, plan := some q }

variable {st : Step}

theorem startAdded_rest (e : Nat) (hst : tfind s.steps q.slot = some st) : startAdded s e q = { s with
    addedWork := s.addedWork.erase q, tiles := tput s.tiles e { s.tile e with gated := false, run := some (addedRun s q) }
    parts := (startAdded s e q).parts, hbm := (startAdded s e q).hbm, hbmPoison := (startAdded s e q).hbmPoison
    ctxs := (startAdded s e q).ctxs } := by
  unfold startAdded
  simp only [hst]
  rw [(traceAdded_traces _ q 1 e).rest, logPlace_rest]
  rfl

/-! ### A plan completes (R407, R412) -/

theorem traceAdded_of_off (q : Plan) (kind t : Nat) (hst : tfind s.steps q.slot = some st) (hoff : (s.part st.part).trace.on = false) :
    traceAdded s q kind t = s := by
  simp only [traceAdded, hst, traceRec_of_off _ hoff]

theorem traceStep_of_off (slot kind flags engine status : Nat)
    (hoff : ∀ st, tfind s.steps slot = some st → (s.part st.part).trace.on = false) : traceStep s slot kind flags engine status = s := by
  unfold traceStep
  split
  · rfl
  · next st hst => rw [traceRec_of_off _ (hoff st hst)]

/-- The engine is rid of its plan. -/
def unplanned (s : State) (e : Nat) : State :=
  if e < 2048 then s.modTile e fun x => { x with run := none } else s.modReducer (e - 2112) fun x => { x with run := none }

theorem planOn_unplanned (s : State) (e : Nat) : planOn (unplanned s e) e = none := by
  unfold planOn unplanned
  by_cases he : e < 2048
  · simp [he]
  · simp [he, State.reducer, State.modReducer]

theorem unplanned_rest (s : State) (e : Nat) :
    unplanned s e = { s with tiles := (unplanned s e).tiles, reducers := (unplanned s e).reducers } := by
  unfold unplanned
  split <;> rfl

/-- The engine is rid of its plan, and its account is kept. -/
def planCharged (s : State) (e busy : Nat) (st : Step) (o : RemOp) : State :=
  let x := draw (unplanned s e)
  charge x.2 e st.ctx st.ctxGen busy ((o.coll.map fun c => c.els * c.wireBytes).getD 0) x.1

theorem planCharged_rest (s : State) (e busy : Nat) (st : Step) (o : RemOp) : planCharged s e busy st o = { unplanned s e with
    fresh := (planCharged s e busy st o).fresh, engRecs := (planCharged s e busy st o).engRecs
    ctxs := (planCharged s e busy st o).ctxs } := by
  unfold planCharged charge
  extract_lets x w r m
  split <;> rfl

theorem endPlan_eq (e busy : Nat) (hst : tfind s.steps q.slot = some st) (hoff : (s.part st.part).trace.on = false) :
    endPlan s e busy q st o
      = if planLeft (unplanned s e) q.op then planCharged s e busy st o else endOp (planCharged s e busy st o) o := by
  have hst' : tfind (unplanned s e).steps q.slot = some st := by
    rw [unplanned_rest]
    exact hst
  have hoff' : ((unplanned s e).part st.part).trace.on = false := by
    rw [unplanned_rest]
    exact hoff
  have hfreed : (if e < 2048 then traceAdded (s.modTile e fun x => { x with run := none }) q 2 e
      else traceStep (s.modReducer (e - 2112) fun x => { x with run := none }) q.slot 4 0 e 0) = unplanned s e := by
    unfold unplanned at hst' hoff' ⊢
    split
    · rw [if_pos ‹_›] at hst' hoff'
      exact traceAdded_of_off q 2 e hst' hoff'
    · rw [if_neg ‹_›] at hst' hoff'
      exact traceStep_of_off _ _ _ _ _ fun st' h' => by
        rw [hst'] at h'
        cases h'
        exact hoff'
  have hleft : planLeft (planCharged s e busy st o) q.op = planLeft (unplanned s e) q.op := by
    rw [planCharged_rest]
    rfl
  unfold endPlan
  rw [hfreed]
  show (if planLeft (planCharged s e busy st o) q.op then planCharged s e busy st o else endOp (planCharged s e busy st o) o) = _
  rw [hleft]

/-- The operation without its request, once nothing of it runs. -/
def opLanded (s : State) (o : RemOp) : State :=
  (modSkeinRun { s with remOps := s.remOps.filter fun x => x.id != o.id } o fun r => { r with opsOut := r.opsOut - 1 }).modStep o.slot
    fun x => { x with requests := x.requests - 1, lastOp := time s }

/-- The end of a collective that no split added neither traces nor tells the peers (R204, R550). -/
theorem endOp_of_coll (s : State) (hkind : o.kind = 2) (hadded : o.added = false) : endOp s o = opLanded s o := by
  have hmover : ∀ w, moverDone w o = w := fun w => by
    unfold moverDone
    split
    · rfl
    · exact if_pos (by omega)
  have hsplit : ∀ w, splitDone w o = w := fun w => by simp [splitDone, hadded]
  simp only [endOp, hmover, hsplit, hkind]
  rfl

/-- A skein's run once operation `o` that it issued has landed. -/
def runLanded (o : RemOp) (r : SkeinRun) : SkeinRun :=
  if r.slot = o.slot ∧ r.skein = o.skein then { r with opsOut := r.opsOut - 1 } else r

theorem run_opLanded_self (s : State) (o : RemOp) : ((opLanded s o).tile o.tile).run = (s.tile o.tile).run.map (runLanded o) := by
  rw [opLanded, tile_modStep, modSkeinRun, tile_modTile_self]
  rfl

theorem run_opLanded_ne (s : State) {k : Nat} (hk : k ≠ o.tile) : ((opLanded s o).tile k).run = (s.tile k).run := by
  rw [opLanded, tile_modStep, modSkeinRun, tile_modTile_ne _ _ hk]
  rfl

theorem opLanded_rest (s : State) (o : RemOp) : opLanded s o = { s with
    steps := (opLanded s o).steps, tiles := (opLanded s o).tiles, remOps := s.remOps.filter fun x => x.id != o.id } := by
  unfold opLanded State.modStep
  split <;> rfl

theorem planOn_opLanded (s : State) (e : Nat) (h : planOn s e = none) : planOn (opLanded s o) e = none := by
  unfold planOn at h ⊢
  split
  · rw [if_pos ‹_›] at h
    by_cases hk : e = o.tile
    · subst hk
      rw [run_opLanded_self]
      cases hr : (s.tile o.tile).run with
      | none => rfl
      | some r =>
        rw [hr] at h
        show (runLanded o r).plan = none
        unfold runLanded
        split <;> exact h
    · rw [run_opLanded_ne s hk]
      exact h
  · rw [if_neg ‹_›] at h
    rw [State.reducer, opLanded_rest]
    exact h

theorem tfind_opLanded (hst : tfind s.steps o.slot = some st) :
    tfind (opLanded s o).steps o.slot = some { st with requests := st.requests - 1, lastOp := time s } :=
  tfind_modStep_self _ (s := modSkeinRun { s with remOps := s.remOps.filter fun x => x.id != o.id } o _) hst

/-- A minimum stands in the list. -/
theorem ne_nil_of_minBy {α : Type} {f : α → Nat} {l : List α} {a : α} (h : minBy f l = some a) : l.isEmpty = false := by
  cases l with
  | nil => cases h
  | cons => rfl

/-- Reducer `p` holds plan `q` no more and runs it. -/
def reducerTook (s : State) (p : Nat) (q : Plan) : State :=
  s.modReducer p fun x => { x with plans := x.plans.erase q, run := some q }

theorem exec_planStart_reducer {p : Nat} (now : Nat) (hup : engines s = true) (hfree : reducerFree s p = true)
    (hq : minBy (fun q => deadlineRank q.deadline) ((s.reducer p).plans.take 8) = some q)
    (hoff : ∀ st, tfind s.steps q.slot = some st → (s.part st.part).trace.on = false) :
    exec (.planStart now (2112 + p)) s = .next (planRun (reducerTook (advance s now) p q) (2112 + p) q) := by
  have hfree' : reducerFree (advance s now) p = true := by
    rw [advance_eq]
    exact hfree
  have hq' : minBy (fun q => deadlineRank q.deadline) (((advance s now).reducer p).plans.take 8) = some q := by
    rw [advance_eq]
    exact hq
  have htrace : traceStep (reducerTook (advance s now) p q) q.slot 3 0 (2112 + p) 0 = reducerTook (advance s now) p q :=
    traceStep_of_off _ _ _ _ _ fun st hst => by
      rw [advance_eq] at hst ⊢
      exact hoff st hst
  refine (timed_of s (f := _) (by simp [hup, hfree', show ¬ 2112 + p < 2048 by omega]) : execPlanStart now (2112 + p) s = _).trans ?_
  simp only [show ¬ 2112 + p < 2048 by omega, ↓reduceIte, show 2112 + p - 2112 = p by omega, hq']
  rw [← reducerTook, htrace]

theorem exec_planStart_tile (now : Nat) (hup : engines s = true) (he : e < 2048)
    (hq : minBy (fun q => deadlineRank q.deadline) (addedFor s e) = some q) :
    exec (.planStart now e) s = .next (planRun (startAdded (advance s now) e q) e q) := by
  have hadded : addedFor (advance s now) e = addedFor s e := by
    rw [advance_eq]
    rfl
  refine (timed_of s (f := _) (by simp [engines_advance, hup, he, hadded, ne_nil_of_minBy hq]) : execPlanStart now e s = _).trans ?_
  simp only [he, ↓reduceIte, hadded, hq]

theorem exec_planComplete (now busy : Nat) (hup : engines s = true) (hq : planOn s e = some q) (hwhole : planWhole s q = true)
    (hst : tfind s.steps q.slot = some st) (ho : s.remOps.find? (fun o => o.id == q.op && o.slot == q.slot) = some o)
    (hinject : s.coll.inject = []) :
    exec (.planComplete now e busy) s = .next (endPlan (advance s now) e busy q st o) := by
  have hq' : planOn (advance s now) e = some q := by
    rw [advance_eq]
    exact hq
  have hwhole' : planWhole (advance s now) q = true := by
    rw [advance_eq]
    exact hwhole
  have hst' : tfind (advance s now).steps q.slot = some st := by
    rw [advance_eq]
    exact hst
  have ho' : (advance s now).remOps.find? (fun o => o.id == q.op && o.slot == q.slot) = some o := by
    rw [advance_eq]
    exact ho
  have harmed : ∀ k, armed (advance s now) 38 k e = false := fun k => by
    rw [armed, advance_eq]
    simp [hinject]
  refine (timed_of s (f := _) (by simp [engines_advance, hup, hq', hwhole']) : execPlanComplete now e busy s = _).trans ?_
  simp only [hq', hst', ho', harmed, List.find?_cons, List.find?_nil, ite_self]

theorem memberPort_advance (s : State) (now j m : Nat) : memberPort (advance s now) j m = memberPort s j m := by
  rw [advance_eq]
  rfl

theorem unplanned_advance (s : State) (now e : Nat) :
    unplanned (advance s now) e = { unplanned s e with aon := (advance s now).aon } := by
  rw [advance_eq]
  unfold unplanned
  split <;> rfl

theorem planCharged_advance (s : State) (now e busy : Nat) (st : Step) (o : RemOp) :
    planCharged (advance s now) e busy st o = { unplanned s e with
      aon := (advance s now).aon, fresh := (planCharged (advance s now) e busy st o).fresh
      engRecs := (planCharged (advance s now) e busy st o).engRecs, ctxs := (planCharged (advance s now) e busy st o).ctxs } := by
  rw [planCharged_rest, unplanned_advance]

/-- Settles O39. -/
theorem plans : Obligations.Plans := by
  unfold Obligations.Plans
  refine ⟨fun s now p q' q o c hup hfree hq ho hc hport hoff => ?_, fun s now e q' q st o c hup he hq hst ho hc hport => ?_,
    fun s u now e busy q st o hup hq hwhole hst ho hkind hadded hinject hoff hu => ?_⟩
  · let w := reducerTook (advance s now) p q
    have ho' : w.remOps.find? (fun o => o.id == q.op) = some o := by
      show (advance s now).remOps.find? _ = _
      rw [advance_eq]
      exact ho
    have hport' : memberPort w c.job (c.first + c.next q.rev) = some q' := (memberPort_advance s now _ _).trans hport
    have hflows := planRun_flows (2112 + p) ho' hc hport'
    have hreducers : (planRun w (2112 + p) q).reducers = w.reducers := by
      rw [hflows.rest]
      rfl
    refine ⟨_, exec_planStart_reducer now hup hfree hq hoff, ?_, fun k hk => ?_, planRun_turning _ ho' hc hport', fun hred hnone => ?_⟩
    · show tget (planRun w (2112 + p) q).reducers p {} = _
      rw [hreducers]
      simp only [w, reducerTook, State.modReducer, tget_tput_self]
      rw [advance_eq]
      rfl
    · show tget (planRun w (2112 + p) q).reducers k {} = _
      rw [hreducers]
      simp only [w, reducerTook, State.modReducer, tget_tput_ne _ _ _ hk]
      rw [advance_eq]
      rfl
    · extract_lets h us
      have hrun := planRun_of_reduction (2112 + p) ho' hc hport' hred hnone
      have hsends := sendAll_sends (planOpened w o.id (2112 + p) q.rev) q'
        (unitMsgs (2112 + p) o c (tget (w.job c.job).routes (c.first + c.next q.rev) []) c.wireBytes (h.1 * c.wireBytes) us.length us)
      rw [← hrun] at hsends
      refine ⟨?_, ?_, fun m hm => ?_⟩
      · rw [hsends.rest]
        exact advance_steps s now
      · rw [hsends.rest]
        exact advance_hbm s now
      · rw [show planRun (reducerTook (advance s now) p q) (2112 + p) q = _ from hrun]
        refine handed_sendAll q' ?_
        have hjob : w.job c.job = s.job c.job := by
          show (advance s now).job c.job = _
          rw [advance_eq]
          rfl
        rw [hjob]
        exact hm
  · let w := startAdded (advance s now) e q
    have hrest : w = _ := startAdded_rest (s := advance s now) e (by rw [advance_eq]; exact hst)
    have ho' : w.remOps.find? (fun o => o.id == q.op) = some o := by
      rw [hrest, advance_eq]
      exact ho
    have hport' : memberPort w c.job (c.first + c.next q.rev) = some q' := by
      rw [hrest]
      exact (memberPort_advance s now _ _).trans hport
    have hflows := planRun_flows e ho' hc hport'
    refine ⟨_, exec_planStart_tile now hup he hq, ?_, ?_, ?_, planRun_turning _ ho' hc hport'⟩
    · rw [hflows.run e]
      have htime : time (planRun w e q) = time (advance s now) := by
        rw [hflows.rest]
        show time w = _
        rw [hrest]
        rfl
      show (w.tile e).run = _
      rw [htime, hrest]
      simp [State.tile, addedRun]
    · rw [hflows.rest]
      show w.addedWork = _
      rw [hrest, advance_eq]
    · rw [hflows.rest]
      show w.reducers = _
      rw [hrest, advance_eq]
  · have hu' : u = unplanned s e := hu
    have hoff' : ((advance s now).part st.part).trace.on = false := by
      rw [advance_eq]
      exact hoff
    have hst' : tfind (advance s now).steps q.slot = some st := by
      rw [advance_eq]
      exact hst
    let v := planCharged (advance s now) e busy st o
    have hv : v = { unplanned s e with aon := (advance s now).aon, fresh := v.fresh, engRecs := v.engRecs, ctxs := v.ctxs } :=
      planCharged_advance s now e busy st o
    have hleft : planLeft (unplanned (advance s now) e) q.op = planLeft u q.op := by
      rw [hu', unplanned_advance]
      rfl
    have hslot : o.slot = q.slot := by
      have := List.find?_some ho
      simp_all
    have hend := exec_planComplete now busy hup hq hwhole hst ho hinject
    rw [endPlan_eq e busy hst' hoff', hleft] at hend
    have hoff : planOn v e = none := by
      rw [hv]
      exact planOn_unplanned s e
    have hvst : tfind v.steps q.slot = some st := by
      rw [hv, unplanned_rest]
      exact hst
    cases hpl : planLeft u q.op with
    | true =>
      rw [hpl, if_pos rfl] at hend
      refine ⟨v, st, hend, hoff, ?_, ?_, hvst, rfl, fun _ => ⟨?_, rfl⟩, nofun⟩
      all_goals rw [hv, unplanned_rest]
    | false =>
      rw [hpl, if_neg (by simp), endOp_of_coll _ hkind hadded] at hend
      have hlanded := tfind_opLanded (s := v) (o := o) (hslot ▸ hvst)
      rw [hslot] at hlanded
      refine ⟨opLanded v o, _, hend, planOn_opLanded v e hoff, ?_, ?_, hlanded, rfl, nofun, fun _ => ⟨?_, rfl, ?_, fun r hr hrs hrk => ?_⟩⟩
      · rw [opLanded_rest, hv, unplanned_rest]
      · rw [opLanded_rest, hv, unplanned_rest]
      · rw [opLanded_rest, hv, unplanned_rest]
      · rw [opLanded_rest]
        rfl
      · have hvrun : (v.tile o.tile).run = some r := by
          rw [hv, ← hu']
          exact hr
        rw [run_opLanded_self, hvrun]
        simp [runLanded, hrs, hrk]

end Sys2Proof.Machine

/-! PROOFS. Link ports, credits and remote operations without progress (O37; R391 to R394, R412, R483, R484). -/

namespace Sys2Proof.Machine

open Sys2Proof.Claims

variable {s t u : State} {p : Nat}

/-! ### A port that goes down -/

/-- What of a port stands when fills and steps lose the traffic on it. -/
def Drains (s t : State) : Prop := ∀ k, PortEnds (s.port k) (t.port k)

theorem Drains.refl (s : State) : Drains s s := fun _ => .refl _

theorem Drains.trans (h : Drains s t) (h' : Drains t u) : Drains s u := fun k => (h k).trans (h' k)

theorem failFetch_drains (s : State) (p i : Nat) (status : Code) : Drains s (failFetch s p i status) := by
  rw [failFetch_eq]
  have hended : Drains s (fillEnded s p i) := .refl s
  have hfails : Fails (fillEnded s p i) (forAll (waitersOf s p i) (fun s k => failStep s k status) (fillEnded s p i)) :=
    forAll_ends (fun t k => failStep_fails t k status) _ _
  exact hended.trans hfails.port

theorem askChunks_drains (s : State) (p : Nat) (b : Bobbin) (f : Fill) (cs : List Nat) : Drains s (askChunks s p b f cs) := by
  have hasks : Fails s (askChunks s p b f cs) := forAll_ends (fun t k => by
    extract_lets mine
    split
    · exact .refl t
    · exact sendCtl_fails ..) _ _
  exact hasks.port

theorem dealFill_drains (s : State) (p : Nat) (cs : List Nat) : Drains s (dealFill s p cs) := by
  unfold dealFill
  split
  · exact .refl s
  next x hx =>
    extract_lets b f
    split
    · have hmod : Drains s (modFill s p fun _ => f) := .refl s
      exact hmod.trans (askChunks_drains _ p b f cs)
    · split
      · exact .refl s
      · exact failFetch_drains s p x.bobbin 0x0602

theorem dealFill_loses (s : State) (p : Nat) (cs : List Nat) : Loses s (dealFill s p cs) := by
  obtain ⟨i, h⟩ | h := dealFill_cases s p cs
  · rw [h]
    exact failFetch_loses s p i 0x0602
  · exact h.loses

/-- What lost peers leave of a fill: at most it is dealt anew. -/
theorem losePeers_cases (s : State) (p : Nat) (gone : Nat → Bool) :
    losePeers s p gone = s ∨ ∃ f, losePeers s p gone = modFill s p f ∨ ∃ cs, losePeers s p gone = dealFill (modFill s p f) p cs := by
  unfold losePeers
  split
  · exact .inl rfl
  next f hf =>
    refine .inr ⟨fun _ => { f with probing := f.probing.filter fun k => !gone k, peers := f.peers.filter fun k => !gone k }, ?_⟩
    extract_lets g w cs
    split
    · split
      · unfold probed
        split
        · split
          · exact .inr ⟨_, rfl⟩
          · exact .inl rfl
        · exact .inl rfl
      · exact .inl rfl
    · split
      · exact .inl rfl
      · exact .inr ⟨_, rfl⟩

theorem losePeers_drains (s : State) (p : Nat) (gone : Nat → Bool) : Drains s (losePeers s p gone) := by
  obtain h | ⟨f, h | ⟨cs, h⟩⟩ := losePeers_cases s p gone
  · rw [h]
    exact .refl s
  · rw [h]
    exact .refl s
  · rw [h]
    exact dealFill_drains (modFill s p f) p cs

theorem losePeers_loses (s : State) (p : Nat) (gone : Nat → Bool) : Loses s (losePeers s p gone) := by
  obtain h | ⟨f, h | ⟨cs, h⟩⟩ := losePeers_cases s p gone
  · rw [h]
    exact .refl s
  · rw [h]
    exact (modFill_asks s p f).loses
  · rw [h]
    exact (modFill_asks s p f).loses.trans (dealFill_loses _ p cs)

theorem forAll_failWith_fails (l : List Nat) (status code : Code) (s : State) :
    Fails s (forAll l (fun s k => failWith s k status code) s) := forAll_ends (fun t k => failWith_fails t k status code) l s

theorem forAll_failWith_failsWith {l : List Nat} {k : Nat} {st : Step} (status code : Code) (hk : k ∈ l) (hst : tfind s.steps k = some st)
    (hopen : Undecided st) : FailsWith (forAll l (fun s k => failWith s k status code) s) k status :=
  forAll_failsWith (fun t k => failWith_onlySlot t k status code) (fun _ _ => failWith_of_failed status code)
    (fun _ ht => failWith_failsWith status code ht hopen) hk hst

/-- The port carries nothing and holds no credit. -/
def portOff (x : LinkPort) : LinkPort :=
  { x with up := false, keying := false, txq := [], cellHeld := 0, cellGranted := 0, bulkHeld := 0, bulkGranted := 0 }

/-- R394, R412: what a port that goes down leaves: the port off, with no more than control messages waiting, every other port as it
was, and the operations on it failed. -/
structure PortDropped (p : Nat) (s t : State) : Prop where
  coll : t.coll = s.coll
  here : PortEnds (portOff (s.port p)) (t.port p)
  others : ∀ k, k ≠ p → PortEnds (s.port k) (t.port k)
  fails : ∀ o ∈ s.remOps, o.port = p → o.kind ≠ 4 → ∀ st, tfind s.steps o.slot = some st → Undecided st → FailsWith t o.slot 0x0B04

theorem dropPort_dropped (s : State) (p : Nat) (code : Code) : PortDropped p s (dropPort s p code) := by
  unfold dropPort
  extract_lets s0 ks off failed gone
  have hfails : Fails off failed := forAll_failWith_fails ks 0x0B04 code off
  have hlost : Loses failed (forAll (failed.parts.map (·.1)) (fun s q => losePeers s q gone) failed) :=
    forAll_rel Loses.refl Loses.trans (fun t q => losePeers_loses t q gone) _ _
  have hdrains : Drains off (forAll (failed.parts.map (·.1)) (fun s q => losePeers s q gone) failed) :=
    Drains.trans (t := failed) hfails.port (forAll_rel Drains.refl Drains.trans (fun t q => losePeers_drains t q gone) _ _)
  refine ⟨hlost.coll.trans ?_, ?_, fun k hk => ?_, fun o ho hport hkind st hst hopen => hlost.fails _ _ ?_⟩
  · rw [hfails.rest]
    rfl
  · have := hdrains p
    rwa [show off.port p = portOff (s.port p) from port_modPort_self s p _] at this
  · have := hdrains k
    rwa [show off.port k = s.port k from port_modPort_ne s _ hk] at this
  · have hin : o.slot ∈ ks := List.mem_dedup.2 (List.mem_map.2 ⟨o, List.mem_filter.2 ⟨ho, by simp [hport, hkind]⟩, rfl⟩)
    exact forAll_failWith_failsWith 0x0B04 code hin hst hopen

namespace PortDropped

/-- The port as it is then. -/
theorem port (h : PortDropped p s t) : (t.port p).up = false ∧ (t.port p).keying = false ∧ (t.port p).cellHeld = 0
    ∧ (t.port p).cellGranted = 0 ∧ (t.port p).bulkHeld = 0 ∧ (t.port p).bulkGranted = 0 ∧ ∀ m ∈ (t.port p).txq, m.ctl.isSome = true := by
  obtain ⟨hrest, hcells, hbulks, hqueued⟩ := h.here
  refine ⟨?_, ?_, Nat.le_zero.1 hcells, ?_, Nat.le_zero.1 hbulks, ?_, fun m hm => (hqueued m hm).resolve_left nofun⟩
  all_goals
    rw [hrest]
    rfl

theorem up_ne (h : PortDropped p s t) {k : Nat} (hk : k ≠ p) : (t.port k).up = (s.port k).up := by
  rw [(h.others k hk).rest]

end PortDropped

/-- A quiet report leaves ports, operations and steps alone. -/
theorem work_reportCode {c : Code} (h : QuietCode c) (s : State) : (reportCode s c).ports = s.ports
    ∧ (reportCode s c).remOps = s.remOps ∧ (reportCode s c).steps = s.steps := by
  rw [reportCode_shape h]
  exact ⟨rfl, rfl, rfl⟩

theorem port_reportCode {c : Code} (h : QuietCode c) (s : State) (k : Nat) : (reportCode s c).port k = s.port k := by
  rw [State.port, (work_reportCode h s).1]
  rfl

/-- R33, R394, R412: a code is reported, and its port goes down. -/
theorem report_dropped {c : Code} (h : QuietCode c) (s : State) (p : Nat) : ∃ t, dropPort (reportCode s c) p c = t
    ∧ t.coll = (reportCode s c).coll ∧ PortDropped p s { t with coll := s.coll } := by
  obtain ⟨hports, hops, hsteps⟩ := work_reportCode h s
  have hdrop := dropPort_dropped (reportCode s c) p c
  refine ⟨_, rfl, hdrop.coll, rfl, ?_, fun k hk => ?_, ?_⟩
  · exact port_reportCode h s p ▸ hdrop.here
  · exact port_reportCode h s k ▸ hdrop.others k hk
  · exact hops ▸ hsteps ▸ hdrop.fails

/-! ### Commands -/

theorem hasPort_advance (s : State) (now p : Nat) : hasPort (advance s now) p = hasPort s p := by
  unfold advance
  split <;> rfl

/-- The port once its credits are there and its keys are to be agreed (R391, R483). -/
def portKeying (cells bulks : Nat) (x : LinkPort) : LinkPort :=
  { x with keying := true, cellHeld := cells, cellGranted := cells, bulkHeld := bulks, bulkGranted := bulks }

theorem exec_linkPortUp (now p cells bulks : Nat) (hup : s.mainReset = false) (hhas : hasPort s p = true) (hdown : (s.port p).up = false)
    (hkeying : (s.port p).keying = false) (hshut : (s.port p).shut = false) :
    exec (.linkPortUp now p cells bulks) s = .next (emit ((advance s now).modPort p (portKeying cells bulks)) (.keyFrame p)) :=
  (timed_of s (by simp [up, hup, hasPort_advance, hhas, hdown, hkeying, hshut]) : execLinkPortUp now p cells bulks s = _)

theorem exec_keyExchangeFrame (p peer : Nat) (chainOk sigOk last : Bool) (hup : s.mainReset = false) (hkeying : (s.port p).keying = true) :
    exec (.keyExchangeFrame p chainOk sigOk peer last) s = .next
      (if !chainOk || !sigOk || !(peer == 2 || peer == 3 || peer == 4) then
        reportCode (s.modPort p fun x => { x with keying := false }) 0xA801
      else if last then
        (drawKey (drawKey s).2).2.modPort p fun x =>
          { x with keying := false, up := true, txKey := (drawKey s).1, rxKey := (drawKey (drawKey s).2).1, txCtr := 0, rxCtr := 0 }
      else emit s (.keyFrame p)) :=
  (untimed_of s (by simp [up, hup, hkeying]) : execKeyExchangeFrame p chainOk sigOk peer last s = _)

theorem exec_linkPortDown (now p : Nat) (hup : s.mainReset = false) (h : (s.port p).up = true ∨ (s.port p).keying = true) :
    exec (.linkPortDown now p) s = .next (dropPort (reportCode (advance s now) 0xA801) p 0xA801) :=
  (timed_of s (by simp [up, hup, h]) : execLinkPortDown now p s = _)

/-- Credit beyond the grant. -/
def excess (x : LinkPort) (bulk : Bool) (n : Nat) : Bool :=
  if bulk then decide (x.bulkGranted < x.bulkHeld + n) else decide (x.cellGranted < x.cellHeld + n)

/-- The port once credit has come back. -/
def credited (x : LinkPort) (bulk : Bool) (n : Nat) : LinkPort :=
  if bulk then { x with bulkHeld := x.bulkHeld + n } else { x with cellHeld := x.cellHeld + n }

/-- What waits at the port leaves, as far as the credits go, while no global stop halts it. -/
def creditUsed (s : State) (p : Nat) : State :=
  if s.gst.stopped then s else forAll (s.parts.map (·.1)) sweepBobbins (drainTx s p)

theorem exec_creditReturn (now p n : Nat) (bulk : Bool) (hup : s.mainReset = false) (h : (s.port p).up = true) :
    exec (.creditReturn now p bulk n) s = .next (if excess (s.port p) bulk n then dropPort (reportCode (advance s now) 0xA802) p 0xA802
      else creditUsed ((advance s now).modPort p fun x => credited x bulk n) p) := by
  refine (timed_of s (by simp [up, hup, h]) : execCreditReturn now p bulk n s = _).trans ?_
  simp only [show (advance s now).port p = s.port p by rw [advance_eq]; rfl]
  rw [← excess]
  split
  · rfl
  · rfl

theorem swept_rest (l : List Nat) (s : State) : forAll l sweepBobbins s = { s with parts := (forAll l sweepBobbins s).parts } :=
  forAll_rel (R := fun s t => t = { s with parts := t.parts }) (fun _ => rfl) (fun h h' => by rw [h', h]) (fun _ _ => rfl) l s

/-- Credit that comes back shows in nothing but ports, counts and what leaves them. -/
theorem creditUsed_rest (s : State) (p : Nat) : creditUsed s p = { s with
    parts := (creditUsed s p).parts, ports := (creditUsed s p).ports, pmc := (creditUsed s p).pmc, out := (creditUsed s p).out } := by
  unfold creditUsed
  split
  · rfl
  · rw [swept_rest, (drainTx_sends s p).rest]

theorem port_creditUsed_of_empty (h : (s.port p).txq = []) : (creditUsed s p).port p = s.port p := by
  unfold creditUsed
  split
  · rfl
  · rw [State.port, swept_rest, drainTx, h]
    rfl

/-- R391, R392: the one message that waits goes as soon as its credits are there. -/
theorem nextTx_singleton {x : LinkPort} {m : TxMsg} (hq : x.txq = [m]) (hsend : canSend false x m = true) : nextTx false x = some 0 := by
  simp [nextTx, hq, hsend, minBy]

/-- The port once message `m`, all that waited there, has left. -/
def sentFrom (m : TxMsg) (x : LinkPort) : LinkPort :=
  { x with
    txq := x.txq.eraseIdx 0, lastEng := m.eng, txCtr := (x.txCtr + 1) % 2 ^ 96
    cellHeld := if m.bulk then x.cellHeld else x.cellHeld - 1
    bulkHeld := if m.bulk then x.bulkHeld - msgCost m else x.bulkHeld }

theorem creditUsed_of_one {m : TxMsg} (hq : (s.port p).txq = [m]) (hsend : canSend false (s.port p) m = true)
    (hfreeze : s.coll.freeze = false) (hstop : s.gst.stopped = false) :
    creditUsed s p = forAll (s.parts.map (·.1)) sweepBobbins (sendOne s p) ∧ txOut p m ∈ (creditUsed s p).out
      ∧ (creditUsed s p).port p = { s.port p with
        txq := [], lastEng := m.eng, txCtr := ((s.port p).txCtr + 1) % 2 ^ 96
        cellHeld := if m.bulk then (s.port p).cellHeld else (s.port p).cellHeld - 1
        bulkHeld := if m.bulk then (s.port p).bulkHeld - msgCost m else (s.port p).bulkHeld } := by
  have hused : creditUsed s p = forAll (s.parts.map (·.1)) sweepBobbins (sendOne s p) := by
    simp only [creditUsed, hstop, drainTx, hq]
    rfl
  have hsent : sendOne s p = emit (count (countGlobal (s.modPort p (sentFrom m)) (4 + p) (msgBytes m)) m.part 0x0D (msgBytes m))
      (txOut p m) := by
    unfold sendOne
    rw [hfreeze, nextTx_singleton hq hsend, hq]
    rfl
  refine ⟨hused, ?_, ?_⟩
  · rw [hused, swept_rest, hsent]
    exact List.mem_cons_self
  · rw [hused, State.port, swept_rest]
    show (sendOne s p).port p = _
    rw [hsent]
    refine ((port_count _ m.part _ _ p).trans (port_countGlobal _ _ _ p)).trans ?_
    rw [port_modPort_self, sentFrom, hq]
    rfl

theorem exec_remoteTimeout {o : RemOp} (now op : Nat) (hup : engines s = true)
    (ho : s.remOps.find? (fun o => o.id == op && o.kind != 4 && decide (1000000 + o.last < time (advance s now))) = some o) :
    exec (.remoteTimeout now op) s = .next (failWith (advance s now) o.slot 0x0B01 0) := by
  have ho' : (advance s now).remOps.find? (fun o => o.id == op && o.kind != 4 && decide (1000000 + o.last < time (advance s now)))
      = some o := by
    rw [advance_remOps]
    exact ho
  have hmatch := List.find?_some ho'
  refine (timed_of s ?_ : execRemoteTimeout now op s = _).trans ?_
  · simp only [engines_advance, hup, Bool.true_and]
    exact List.any_eq_true.2 ⟨o, List.mem_of_find?_eq_some ho', hmatch⟩
  · simp only [ho']

theorem remOps_dropWork (s : State) (k : Nat) : (dropWork s k).remOps = s.remOps.filter fun o => o.slot != k := by
  have hdrop : dropWork s k = match tfind s.steps k with
      | some st => match st.job with
        | some (j, _) => closeWindows (withoutWork s k) fun w => w.job == j && w.part == st.part
        | none => withoutWork s k
      | none => withoutWork s k := rfl
  rw [hdrop]
  split
  · split
    · rw [closeWindows_shape]
      rfl
    · rfl
  · rfl

/-- A step that fails has no operation left. -/
theorem remOps_failWith {k : Nat} {st : Step} (status code : Code) (hst : tfind s.steps k = some st) (hopen : Undecided st) :
    ∀ x ∈ (failWith s k status code).remOps, x.slot ≠ k := by
  have hraw : Fails (dropWork s k) (failRaw s k status) := by
    rw [failRaw_of_some hst, if_neg (by simp [hopen.1, hopen.2])]
    have hmark : Fails (dropWork s k) (markFailed s k status st) := (setState_fails _ k _).trans (.of_modStep _ k _ fun _ => rfl)
    exact hmark.trans (noteDone_fails _ k)
  have hfail : Fails (dropWork s k) (failWith s k status code) := by
    unfold failWith
    rw [hst]
    dsimp only
    rw [if_neg (by simp [hopen.1, hopen.2])]
    split
    · exact hraw.trans (startAbort_fails ..)
    · exact hraw
  intro x hx
  have hleft := hfail.remOps x hx
  rw [remOps_dropWork] at hleft
  simpa using (List.mem_filter.1 hleft).2

/-- Settles O37. -/
theorem linkPorts : Obligations.LinkPorts := by
  unfold Obligations.LinkPorts
  refine ⟨fun s now p cells bulks hup hhas hdown hkeying hshut => ?_, fun s p peer chainOk sigOk last hup hkeying => ⟨?_, ?_⟩,
    fun s now p hup hopen hinit => ?_, fun s now p n bulk hup hopen => ⟨?_, ?_, ?_⟩, fun s now op o st hup ho hst hopen => ?_,
    fun s now qp hup => ?_⟩
  · refine ⟨_, exec_linkPortUp now p cells bulks hup hhas hdown hkeying hshut, ?_, ?_, fun k hk => ?_⟩
    · rw [advance_eq]
      rfl
    · exact (port_modPort_self (advance s now) p (portKeying cells bulks)).trans (by rw [advance_port, portKeying])
    · exact (port_modPort_ne (advance s now) (portKeying cells bulks) hk).trans (advance_port s now k)
  · intro hbad hinit
    have hexec := exec_keyExchangeFrame p peer chainOk sigOk last hup hkeying
    rw [if_pos] at hexec
    · refine ⟨_, hexec, ?_, mem_log_reportCode (by decide) rfl hinit, (work_reportCode (by decide) _).2.2⟩
      rw [port_reportCode (by decide), port_modPort_self]
    · rcases hbad with hchain | hsig | hpeer
      · simp [hchain]
      · simp [hsig]
      · simp [hpeer]
  · intro hchain hsig hpeer
    have hexec := exec_keyExchangeFrame p peer chainOk sigOk last hup hkeying
    rw [if_neg (by rcases hpeer with h | h | h <;> simp [hchain, hsig, h])] at hexec
    refine ⟨fun hlast => ?_, fun hlast => ?_⟩
    · rw [if_pos hlast] at hexec
      exact ⟨_, _, _, hexec, rfl, port_modPort_self _ p _⟩
    · rw [if_neg (by simp [hlast])] at hexec
      exact hexec
  · have hinit' : (advance s now).coll.init = true := by
      rw [advance_eq]
      exact hinit
    obtain ⟨t, ht, hcoll, hdrop⟩ := report_dropped (c := 0xA801) (by decide) (advance s now) p
    have hlog : (0xA801 : Code) ∈ (reportCode (advance s now) 0xA801).coll.log := mem_log_reportCode (by decide) rfl hinit'
    obtain ⟨hup', hkeying, hcells, hgranted, hbulks, hbulkGranted, hqueued⟩ := hdrop.port
    refine ⟨t, ht ▸ exec_linkPortDown now p hup hopen, hcoll ▸ hlog, hup', hkeying, hcells, hgranted, hbulks, hbulkGranted, hqueued,
      fun k hk => (hdrop.up_ne hk).trans (by rw [advance_port]), ?_⟩
    intro o ho hport hkind st hst
    exact hdrop.fails o (by rw [advance_remOps]; exact ho) hport hkind st (by rw [advance_steps]; exact hst)
  · intro hle hq
    have hexec := exec_creditReturn now p n bulk hup hopen
    have hexcess : excess (s.port p) bulk n = false := by
      unfold excess
      cases bulk <;> simp_all
    rw [hexcess, if_neg (by simp)] at hexec
    have hport : ((advance s now).modPort p fun x => credited x bulk n).port p = credited (s.port p) bulk n := by
      rw [port_modPort_self, advance_port]
    refine ⟨_, hexec, ?_, ?_, ?_⟩
    · rw [creditUsed_rest, advance_eq]
      rfl
    · rw [creditUsed_rest, advance_eq]
      rfl
    · rw [port_creditUsed_of_empty, hport]
      · rfl
      · rw [hport, credited]
        split <;> exact hq
  · intro m hle hq hbulk hshut hfreeze hstop hcost
    have hexec := exec_creditReturn now p n bulk hup hopen
    have hexcess : excess (s.port p) bulk n = false := by
      unfold excess
      cases bulk <;> simp_all
    rw [hexcess, if_neg (by simp)] at hexec
    have hport : ((advance s now).modPort p fun x => credited x bulk n).port p = credited (s.port p) bulk n := by
      rw [port_modPort_self, advance_port]
    have hwaits : (credited (s.port p) bulk n).txq = [m] := by
      rw [credited]
      split <;> exact hq
    have hsend : canSend false (credited (s.port p) bulk n) m = true := by
      cases bulk <;> simp_all [canSend, credited]
    obtain ⟨-, hout, hafter⟩ := creditUsed_of_one (s := (advance s now).modPort p fun x => credited x bulk n) (p := p) (m := m)
      (by rw [hport, hwaits]) (by rw [hport, hsend]) (by rw [advance_eq]; exact hfreeze) (by rw [advance_eq]; exact hstop)
    refine ⟨_, hexec, hout, by rw [hafter], ?_, ?_⟩
    · rw [creditUsed_rest, advance_eq]
      rfl
    · rw [hafter, hport]
      cases bulk
      · have hone : msgCost m = 1 := by simp [msgCost, hbulk]
        simp_all [credited]
      · simp_all [credited]
  · intro hex hinit
    have hinit' : (advance s now).coll.init = true := by
      rw [advance_eq]
      exact hinit
    have hexcess : excess (s.port p) bulk n = true := by
      unfold excess
      cases bulk <;> simp_all
    obtain ⟨t, ht, hcoll, hdrop⟩ := report_dropped (c := 0xA802) (by decide) (advance s now) p
    have hlog : (0xA802 : Code) ∈ (reportCode (advance s now) 0xA802).coll.log := mem_log_reportCode (by decide) rfl hinit'
    have hexec := exec_creditReturn now p n bulk hup hopen
    rw [hexcess, if_pos rfl, ht] at hexec
    obtain ⟨hup', -, -, -, -, -, hqueued⟩ := hdrop.port
    exact ⟨t, hexec, hcoll ▸ hlog, hup', hqueued⟩
  · have hst' : tfind (advance s now).steps o.slot = some st := by
      rw [advance_steps]
      exact hst
    have hfails := failWith_fails (advance s now) o.slot 0x0B01 0
    refine ⟨_, exec_remoteTimeout now op hup ho, failWith_failsWith 0x0B01 0 hst' hopen, remOps_failWith 0x0B01 0 hst' hopen, ?_,
      fun k => ?_⟩
    · rw [hfails.rest, advance_eq]
    · rw [(hfails.port k).rest, advance_port]
  · have hexec : exec (.queuePairDown now qp) s = _ := timed_of s (by simp [up, hup])
    have hfails := forAll_failWith_fails
      (((advance s now).remOps.filter fun o => o.qp == qp && o.kind != 4).map (·.slot)).dedup 0x0B04 0 (advance s now)
    refine ⟨_, hexec, ?_, fun k => ?_, fun o ho hqp hkind st hst hopen => ?_⟩
    · rw [hfails.rest, advance_eq]
    · rw [(hfails.port k).rest, advance_port]
    · rw [advance_remOps]
      refine forAll_failWith_failsWith 0x0B04 0 (List.mem_dedup.2 (List.mem_map.2 ⟨o, List.mem_filter.2 ⟨ho, ?_⟩, rfl⟩)) ?_ hopen
      · simp [hqp, hkind]
      · rw [advance_steps]
        exact hst

end Sys2Proof.Machine

/-! PROOFS. The bobbin catalogue (O33; R223, R228 to R230, R234, R239 to R244, R496). -/

namespace Sys2Proof.Machine

open Sys2Proof.Claims

variable {s t u : State} {m : Msg} {p i : Nat}

/-! ### Entries -/

theorem bobbin_modBobbin_self (s : State) (p i : Nat) (f : Bobbin → Bobbin) : bobbin (modBobbin s p i f) p i = f (bobbin s p i) := by
  rw [bobbin, modBobbin, part_modPart_self, tget_tput_self]
  rfl

theorem bobbin_modBobbin_ne {j : Nat} (s : State) (p : Nat) (f : Bobbin → Bobbin) (h : j ≠ i) :
    bobbin (modBobbin s p i f) p j = bobbin s p j := by
  rw [bobbin, modBobbin, part_modPart_self, tget_tput_ne _ _ _ h]
  rfl

theorem bobbin_wantBobbin_ne {j : Nat} (s : State) (p : Nat) (h : j ≠ i) : bobbin (wantBobbin s p i) p j = bobbin s p j := by
  unfold wantBobbin
  extract_lets b
  split
  · rfl
  · rw [bobbin_congr (s := modBobbin s p i fun b => { b with state := 1, wanted := (s.part p).arrivals }) (by rw [part_modPart_self])]
    exact bobbin_modBobbin_ne s p _ h

/-- R240: an absent bobbin is wanted, and any other is as it was. -/
theorem bobbin_wantBobbin (hlive : (bobbin s p i).live = true) : bobbin (wantBobbin s p i) p i
    = if (bobbin s p i).state = 0 then { bobbin s p i with state := 1, wanted := (s.part p).arrivals } else bobbin s p i := by
  unfold wantBobbin
  extract_lets b
  by_cases h : (bobbin s p i).state = 0
  · rw [if_neg (by simp [b, hlive, h]), if_pos h]
    rw [bobbin_congr (s := modBobbin s p i fun b => { b with state := 1, wanted := (s.part p).arrivals }) (by rw [part_modPart_self])]
    exact bobbin_modBobbin_self s p i _
  · rw [if_pos (by simp [b, h]), if_neg h]

theorem live_of_hasBobbin (h : hasBobbin s p i = true) : (bobbin s p i).live = true := by
  unfold hasBobbin at h
  unfold bobbin tget
  split at h
  · next b hb =>
    rw [hb]
    exact (Bool.and_eq_true_iff.1 h).1
  · cases h

theorem bobbin_removeBobbin_ne {j : Nat} (s : State) (p : Nat) (h : j ≠ i) : bobbin (removeBobbin s p i) p j = bobbin s p j := by
  rw [bobbin, removeBobbin, part_modPart_self, tget, tfind_tdel_ne _ h]
  rfl

/-! ### Messages that change a partition alone -/

/-- A message answered at once whose effect is on partitions alone. -/
theorem answered_parts (ht : t = { take s m with parts := t.parts }) : ∃ u, applyAns (take s m) m (.done t) = u
    ∧ Answered s u m (okTo m 0) ∧ u.parts = t.parts ∧ u.steps = s.steps := by
  obtain ⟨fs, hans, hanswered, -⟩ := answered_done (s := s) (m := m) (t := t) (by rw [ht])
  refine ⟨_, hans, hanswered, rfl, ?_⟩
  show t.steps = _
  rw [ht]
  rfl

theorem bobbin_of_parts (h : u.parts = t.parts) (p i : Nat) : bobbin u p i = bobbin t p i := by
  rw [bobbin, State.part, h]
  rfl

theorem wantBobbin_rest (s : State) (p i : Nat) : wantBobbin s p i = { s with parts := (wantBobbin s p i).parts } := by
  unfold wantBobbin
  extract_lets b
  split <;> rfl

theorem exec_bobbinRemove (h : Passes s (ownMsg s m 0x0204 6 [] true) m) (hhas : hasBobbin s (namedPart m) (catIdx m) = true) :
    exec (.bobbinRemove m) s = .next (applyAns (take s m) m
      (if bobbinRefs s (namedPart m) (catIdx m) != 0 || (bobbin s (namedPart m) (catIdx m)).pinned
          || serving s (namedPart m) (bobbin s (namedPart m) (catIdx m)) then .refuse 0x0607
       else .done (removeBobbin (take s m) (namedPart m) (catIdx m)))) := by
  have hexec : exec (.bobbinRemove m) s = _ := mbx_of_passes h rfl
  have hhas' : hasBobbin (take s m) (namedPart m) (catIdx m) = true := hhas
  rw [hexec]
  simp only [hhas']
  rfl

theorem exec_bobbinPrefetch (h : Passes s (ownMsg s m 0x0205 6 [] true) m) (hhas : hasBobbin s (namedPart m) (catIdx m) = true) :
    exec (.bobbinPrefetch m) s = .next (applyAns (take s m) m (.done (wantBobbin (take s m) (namedPart m) (catIdx m)))) := by
  have hexec : exec (.bobbinPrefetch m) s = _ := mbx_of_passes h rfl
  have hhas' : hasBobbin (take s m) (namedPart m) (catIdx m) = true := hhas
  rw [hexec]
  simp only [hhas']
  rfl

theorem exec_bobbinEvict (h : Passes s (ownMsg s m 0x0206 6 [] true) m) (hhas : hasBobbin s (namedPart m) (catIdx m) = true) :
    exec (.bobbinEvict m) s = .next (applyAns (take s m) m
      (if bobbinRefs s (namedPart m) (catIdx m) != 0 || (bobbin s (namedPart m) (catIdx m)).pinned
          || serving s (namedPart m) (bobbin s (namedPart m) (catIdx m)) then .refuse 0x0607
       else if (bobbin s (namedPart m) (catIdx m)).state != 2 then .done (take s m)
       else .done (leaveStore (take s m) (namedPart m) (catIdx m)))) := by
  have hexec : exec (.bobbinEvict m) s = _ := mbx_of_passes h rfl
  have hhas' : hasBobbin (take s m) (namedPart m) (catIdx m) = true := hhas
  rw [hexec]
  simp only [hhas']
  rfl

/-- The catalogue with an entry pinned and, where it is absent, wanted. -/
def pinned (s : State) (p i : Nat) : State := wantBobbin (modBobbin s p i fun b => { b with pinned := true }) p i

theorem exec_bobbinPin (h : Passes s (ownMsg s m 0x0207 6 [] true) m) (hhas : hasBobbin s (namedPart m) (catIdx m) = true) :
    exec (.bobbinPin m) s = .next (applyAns (take s m) m
      (if (s.part (namedPart m)).storeBytes < pinnedBytes s (namedPart m) (catIdx m) + (bobbin s (namedPart m) (catIdx m)).bytes
       then .refuse 0x0606 else .done (pinned (take s m) (namedPart m) (catIdx m)))) := by
  have hexec : exec (.bobbinPin m) s = _ := mbx_of_passes h rfl
  have hhas' : hasBobbin (take s m) (namedPart m) (catIdx m) = true := hhas
  rw [hexec]
  simp only [hhas']
  rfl

theorem exec_bobbinUnpin (h : Passes s (ownMsg s m 0x0208 6 [] true) m) (hhas : hasBobbin s (namedPart m) (catIdx m) = true) :
    exec (.bobbinUnpin m) s = .next (applyAns (take s m) m
      (.done (modBobbin (take s m) (namedPart m) (catIdx m) fun b => { b with pinned := false }))) := by
  have hexec : exec (.bobbinUnpin m) s = _ := mbx_of_passes h rfl
  have hhas' : hasBobbin (take s m) (namedPart m) (catIdx m) = true := hhas
  rw [hexec]
  simp only [hhas']
  rfl

/-! ### An install that ends (R496) -/

/-- An image as the catalogue takes it up. -/
def ingested (img : List Byte) (b : Bobbin) : Bobbin :=
  { b with image := img, bytes := imgBytes img, installing := none, state := 0, source := 0 }

/-- Between `s` and `t` the store took up entry `i` of partition `p` and wrote its backing copy; no function changed. -/
structure Homes (p i : Nat) (s t : State) : Prop where
  funcs : t.funcs = s.funcs
  entry : bobbin t p i = { bobbin s p i with
    places := (bobbin t p i).places, backing := (bobbin t p i).backing, backStart := (bobbin t p i).backStart
    backFrame := (bobbin t p i).backFrame }

namespace Homes

theorem of_eq (hfuncs : t.funcs = s.funcs) (h : bobbin t p i = bobbin s p i) : Homes p i s t := ⟨hfuncs, by rw [h]⟩

theorem of_part (hfuncs : t.funcs = s.funcs) (h : (t.part p).bobbins = (s.part p).bobbins) : Homes p i s t :=
  .of_eq hfuncs (bobbin_congr h i)

theorem refl (s : State) : Homes p i s s := .of_eq rfl rfl

theorem trans (h : Homes p i s t) (h' : Homes p i t u) : Homes p i s u := ⟨h'.funcs.trans h.funcs, by rw [h'.entry, h.entry]⟩

theorem of_modBobbin {f : Bobbin → Bobbin}
    (h : ∀ b, f b = { b with places := (f b).places, backing := (f b).backing, backStart := (f b).backStart, backFrame := (f b).backFrame }) :
    Homes p i s (modBobbin s p i f) := ⟨rfl, by rw [bobbin_modBobbin_self]; exact h _⟩

theorem leaveStore {j : Nat} (h : i ≠ j) (s : State) : Homes p i s (leaveStore s p j) := .of_eq rfl (bobbin_modBobbin_ne s p _ h)

theorem forAll {α : Type} {f : State → α → State} (l : List α) (hf : ∀ t, ∀ x ∈ l, Homes p i t (f t x)) (s : State) :
    Homes p i s (forAll l f s) := by
  induction l generalizing s with
  | nil => exact .refl s
  | cons x l ih => exact (hf s x List.mem_cons_self).trans (ih (fun t y hy => hf t y (List.mem_cons_of_mem _ hy)) (f s x))

theorem count (s : State) (ev n : Nat) : Homes p i s (count s p ev n) := by
  refine .of_part ?_ (by rw [(count_sends s p ev n).part p])
  rw [(count_sends s p ev n).rest]

end Homes

/-- R241, R242: the bobbins that make room are others. -/
theorem makeRoom_homes {w : State} (h : makeRoom s p i = some w) : Homes p i s w := by
  unfold makeRoom at h
  extract_lets es at h
  split at h
  · cases h
  · obtain rfl := Option.some.inj h
    refine .forAll es (fun t e he => ?_) s
    split
    · exact .refl t
    · refine .leaveStore (fun heq => ?_) t
      have hmem := (List.mem_mergeSort.1 he)
      simp [heq] at hmem

/-- Evictions do not read the time. -/
theorem forAll_leaveStore_aon {c : State → Bool} (hc : ∀ s a, c { s with aon := a } = c s) (l : List (Nat × Bobbin)) (s : State) (p : Nat)
    (a : Aon) : forAll l (fun w e => if c w then w else leaveStore w p e.1) { s with aon := a }
      = { forAll l (fun w e => if c w then w else leaveStore w p e.1) s with aon := a } := by
  induction l generalizing s with
  | nil => rfl
  | cons e l ih =>
    show forAll l _ (if c { s with aon := a } then _ else _) = { forAll l _ (if c s then _ else _) with aon := a }
    rw [hc]
    split
    · exact ih s
    · exact ih (leaveStore s p e.1)

/-- The bobbins that can make room for entry `i`, earliest last use first (R241, R242). -/
def roomList (s : State) (p i : Nat) : List (Nat × Bobbin) :=
  ((s.part p).bobbins.filter fun e => evictable s p e.1 && e.1 != i).mergeSort fun a b => decide (a.2.lastUse ≤ b.2.lastUse)

/-- Room is made at any time in the same way. -/
theorem makeRoom_aon (s : State) (p i : Nat) (a : Aon) :
    makeRoom { s with aon := a } p i = (makeRoom s p i).map fun w => { w with aon := a } := by
  have hroom : ∀ (w : State) (b : Aon), roomFor { w with aon := b } p i = roomFor w p i := fun _ _ => rfl
  have hmake : ∀ w : State, (w.part p).bobbins = (s.part p).bobbins → w.steps = s.steps → w.ports = s.ports → makeRoom w p i
      = if !roomFor (forAll (roomList s p i) (fun w e => leaveStore w p e.1) w) p i then none
        else some (forAll (roomList s p i) (fun w e => if roomFor w p i then w else leaveStore w p e.1) w) := fun w hb hs hp => by
    have hev : ∀ j, evictable w p j = evictable s p j := fun j => by
      unfold evictable bobbinRefs serving
      rw [bobbin_congr hb, hs, hp]
    simp only [makeRoom, hev, hb]
    rfl
  have hall := forAll_leaveStore_aon (c := fun _ => false) (fun _ _ => rfl) (roomList s p i) s p a
  simp only [Bool.false_eq_true, if_false] at hall
  rw [hmake { s with aon := a } rfl rfl rfl, hmake s rfl rfl rfl, hall, hroom,
    forAll_leaveStore_aon (c := fun w => roomFor w p i) (fun w b => hroom w b)]
  split <;> rfl

/-- Whether room can be made does not depend on the time. -/
theorem makeRoom_isSome_aon (s : State) (p i : Nat) (a : Aon) :
    (makeRoom { s with aon := a } p i).isSome = (makeRoom s p i).isSome := by
  rw [makeRoom_aon, Option.isSome_map]

theorem funcs_countGlobal (s : State) (j n : Nat) : (countGlobal s j n).funcs = s.funcs := by rw [(countGlobal_sends s j n).rest]

theorem writeBacking_homes (s : State) (p i : Nat) : Homes p i s (writeBacking s p i) := by
  unfold writeBacking
  extract_lets img
  split
  · next a base _ =>
    split
    · exact .refl s
    · extract_lets frames kept
      have hkept : Homes p i s kept := .of_modBobbin fun _ => rfl
      refine hkept.trans (.of_part ?_ ?_)
      · exact funcs_countGlobal _ 2 _
      · show ((countGlobal _ 2 _).part p).bobbins = _
        rw [(countGlobal_sends _ 2 _).part p]
        rfl
  · exact .refl s

/-- The chunks of an entry have their places, and the entry is resident. -/
def resided (s : State) (p i n : Nat) : State :=
  modBobbin (takePlaces (count s p 0x0C n) p i) p i fun x => { x with state := 2, lastUse := time s }

/-- The image is in the store, where there was room for it, with its backing copy. -/
def stored (s : State) (p i : Nat) (img : List Byte) : State :=
  writeBacking (match makeRoom s p i with
    | some s => forAll (List.range (imgChunks img)) (fun s c => healChunk s p (bobbin s p i) c) (resided s p i img.length)
    | none => s) p i

theorem stored_entry (img : List Byte) (hroom : (makeRoom s p i).isSome = true) : (stored s p i img).funcs = s.funcs
    ∧ (bobbin (stored s p i img) p i).image = (bobbin s p i).image ∧ (bobbin (stored s p i img) p i).bytes = (bobbin s p i).bytes
    ∧ (bobbin (stored s p i img) p i).installing = (bobbin s p i).installing ∧ (bobbin (stored s p i img) p i).state = 2 := by
  obtain ⟨w, hw⟩ := Option.isSome_iff_exists.1 hroom
  have hplaced : Homes p i s (takePlaces (count w p 0x0C img.length) p i) :=
    ((makeRoom_homes hw).trans (.count w _ _)).trans (.of_modBobbin fun _ => rfl)
  have hhealed : Homes p i (resided w p i img.length)
      (forAll (List.range (imgChunks img)) (fun s c => healChunk s p (bobbin s p i) c) (resided w p i img.length)) :=
    .forAll (f := fun s c => healChunk s p (bobbin s p i) c) _ (fun t c _ => .of_part rfl rfl) _
  have hstored : Homes p i (resided w p i img.length) (stored s p i img) := by
    unfold stored
    rw [hw]
    exact hhealed.trans (writeBacking_homes _ p i)
  have hentry : bobbin (resided w p i img.length) p i = _ := bobbin_modBobbin_self (takePlaces (count w p 0x0C img.length) p i) p i _
  refine ⟨hstored.funcs.trans hplaced.funcs, ?_, ?_, ?_, ?_⟩ <;> rw [hstored.entry, hentry]
  all_goals rw [hplaced.entry]

variable {f tag : Nat} {key : BitVec 256} {img : List Byte}

/-- The state in which the request of an install is answered. -/
def installAnswered (s : State) (f tag idx : Nat) (digest : List Byte) : State := answerWith s f tag 0 idx digest [] false

theorem installAnswered_answers {k : Taken} (ht : t.funcs = s.funcs) (htaken : takenOf s f tag = some k) (idx : Nat) (digest : List Byte) :
    ∃ r : Rsp, (installAnswered t f tag idx digest).parts = t.parts
      ∧ ((installAnswered t f tag idx digest).func f).rsps = (s.func f).rsps ++ [r]
      ∧ r.tag = tag ∧ r.status = 0 ∧ r.detail = BitVec.ofNat 64 idx ∧ r.payload = digest := by
  have hfunc : t.func f = s.func f := by rw [State.func, ht]; rfl
  obtain ⟨r, ⟨fs, hrest⟩, hrsps, -, -, htag, hstatus, hdetail, hpayload⟩ := answerWith_answers
    ((takenOf_congr hfunc tag).trans htaken) 0 idx digest [] false
  refine ⟨r, ?_, hfunc ▸ hrsps, htag, hstatus, hdetail, hpayload⟩
  rw [installAnswered, hrest]

/-- The catalogue without an entry whose package did not open. -/
def unopened (s : State) (p i : Nat) : State := s.modPart p fun x => { x with bobbins := tdel x.bobbins i }

/-- An entry whose metadata does not hold (R132). -/
def badBobbin (b : Bobbin) : Bobbin := { b with bad := true }

/-- A package that opens: the image is taken up, its store and backing copy with it when it is good, and the request answered. -/
theorem exec_bobbinInstallDone (now : Nat) (hup : ready s = true) (hactive : active s p = true)
    (hinst : (bobbin s p i).installing = some (f, tag)) (hkey : contentKey s (bobbin s p i).image = some key) :
    exec (.bobbinInstallDone now p i) s = .next (match openPackage key (bobbin s p i).image with
      | none => answerWith (unopened (advance s now) p i) f tag 0x0604 0 [] [] false
      | some img =>
        let w := modBobbin (advance s now) p i (ingested img)
        installAnswered (if imageChecked img (List.range (imgChunks img)) then stored w p i img
          else modBobbin w p i badBobbin) f tag i (digestBytes (bobbin s p i).digest)) := by
  have hb : bobbin (advance s now) p i = bobbin s p i := by
    rw [advance_eq]
    rfl
  have hkey' : contentKey (advance s now) (bobbin s p i).image = some key := by
    rw [advance_eq]
    exact hkey
  have hactive' : active (advance s now) p = true := by
    rw [advance_eq]
    exact hactive
  refine (timed_of s (by simp [hup, hactive', hb, hinst]) : execBobbinInstallDone now p i s = _).trans ?_
  simp only [hb, hkey', hinst]
  cases openPackage key (bobbin s p i).image with
  | none => rfl
  | some img =>
    simp only
    cases imageChecked img (List.range (imgChunks img)) <;> rfl

/-- The catalogue with a package that is being opened. -/
def installing (s : State) (m : Msg) (i : Nat) : State :=
  modBobbin s (namedPart m) i fun _ =>
    { live := true, image := extIn m, digest := BitVec.ofNat 384 (leNat (slice (extIn m) 56 48)), state := 1
      peerShare := fld m.payload 4 1 == 1, setId := fld (extIn m) 4 4, installing := some (m.func, m.tag) }

theorem exec_bobbinInstall_new (h : Passes s (ownMsg s m 0x0203 5 [] (decide (fld m.payload 4 1 ≤ 1))) m)
    (hkey : (contentKey s (extIn m)).isSome = true)
    (hnew : ∀ e ∈ (s.part (namedPart m)).bobbins, e.2.digest ≠ BitVec.ofNat 384 (leNat (slice (extIn m) 56 48)))
    (hroom : ((s.part (namedPart m)).bobbins.filter (·.2.live)).length < 1024)
    (hi : (List.range 1024).find? (fun i => !(bobbin s (namedPart m) i).live) = some i) :
    exec (.bobbinInstall m) s = .next (installing (take s m) m i) := by
  have hexec : exec (.bobbinInstall m) s = _ := mbx_of_passes h rfl
  have hkey' : (contentKey (take s m) (extIn m)).isNone = false := by
    rw [← Option.not_isSome, show contentKey (take s m) (extIn m) = contentKey s (extIn m) from rfl, hkey]
    rfl
  have hpart : (take s m).part (namedPart m) = s.part (namedPart m) := rfl
  have hfind : (s.part (namedPart m)).bobbins.find? (fun e => e.2.live
      && e.2.digest == BitVec.ofNat 384 (leNat (slice (extIn m) 56 48)) && !e.2.removing) = none :=
    List.find?_eq_none.2 fun e he => by simp [hnew e he]
  have hidx : (List.range 1024).find? (fun i => !(tget (s.part (namedPart m)).bobbins i {}).live) = some i := hi
  simp only [hkey', hpart, hfind, Nat.not_le.2 hroom, if_false, hidx, Bool.false_eq_true, Option.getD_some] at hexec
  exact hexec

/-- R239: a region registered or removed, every backing copy gone. -/
def backingSet (m : Msg) (x : Part) : Part :=
  { x with
    backing := if fld m.payload 16 8 = 0 then none else some (fld m.payload 8 8, fld m.payload 16 8)
    bobbins := tmap x.bobbins fun _ b => { b with backing := false } }

/-- Settles O33. -/
theorem bobbinCatalogue : Obligations.BobbinCatalogue := by
  unfold Obligations.BobbinCatalogue
  refine ⟨fun s m h => ⟨fun hkey => ?_, fun hkey hnew hroom i hi => ?_⟩,
    fun s now p i f tag key img k hup hactive hinst htaken hkey => ⟨fun hopen hgood hroom => ?_, fun hopen hbad => ?_, fun hopen => ?_⟩,
    fun s m => ?_⟩
  · have hexec : exec (.bobbinInstall m) s = _ := mbx_of_passes h rfl
    have hnone : (contentKey (take s m) (extIn m)).isNone = true := Option.isNone_iff_eq_none.2 hkey
    simp only [hnone, if_true] at hexec
    exact ⟨_, hexec, replies_refuse s m 0x0605⟩
  · have hexec := exec_bobbinInstall_new h hkey hnew hroom hi
    have hstands : SenderStands s (installing (take s m) m i) m := (SenderStands.of_take s m).of_funcs rfl
    have hself : bobbin (installing (take s m) m i) (namedPart m) i = _ := bobbin_modBobbin_self (take s m) (namedPart m) i _
    refine ⟨_, hexec, hstands.pends, fun g hg => func_take_ne s hg, ?_, ?_, ?_, ?_, fun j hj => ?_⟩
    · rw [hself]
    · rw [hself]
    · rw [hself]
    · rw [hself]
    · exact bobbin_modBobbin_ne (take s m) _ _ hj
  · have hexec := exec_bobbinInstallDone now hup hactive hinst hkey
    rw [hopen] at hexec
    simp only [hgood, if_true] at hexec
    have hroom' : (makeRoom (modBobbin (advance s now) p i (ingested img)) p i).isSome = true := by
      rw [advance_eq]
      exact (makeRoom_isSome_aon (modBobbin s p i (ingested img)) p i _).trans hroom
    obtain ⟨hfuncs, himage, hbytes, hinstalling, hstate⟩ := stored_entry img hroom'
    rw [bobbin_modBobbin_self] at himage hbytes hinstalling
    obtain ⟨r, hanswer, hrsps⟩ := installAnswered_answers (k := k) (hfuncs.trans (advance_funcs s now)) htaken i (digestBytes (bobbin s p i).digest)
    exact ⟨_, hexec, (bobbin_of_parts hanswer p i).symm ▸ himage, (bobbin_of_parts hanswer p i).symm ▸ hinstalling,
      (bobbin_of_parts hanswer p i).symm ▸ hstate, (bobbin_of_parts hanswer p i).symm ▸ hbytes, r, hrsps⟩
  · have hexec := exec_bobbinInstallDone now hup hactive hinst hkey
    rw [hopen] at hexec
    simp only [hbad, Bool.false_eq_true, if_false] at hexec
    have hself : bobbin (modBobbin (modBobbin (advance s now) p i (ingested img)) p i badBobbin) p i
        = badBobbin (ingested img (bobbin (advance s now) p i)) := by
      rw [bobbin_modBobbin_self, bobbin_modBobbin_self]
    obtain ⟨r, hanswer, hrsps, htag, hstatus, hdetail, -⟩ := installAnswered_answers (k := k)
      (t := modBobbin (modBobbin (advance s now) p i (ingested img)) p i badBobbin)
      (advance_funcs s now) htaken i (digestBytes (bobbin s p i).digest)
    refine ⟨_, hexec, ?_, ?_, r, hrsps, htag, hstatus, hdetail⟩
    · rw [bobbin_of_parts hanswer, hself]
      rfl
    · rw [bobbin_of_parts hanswer, hself]
      rfl
  · have hexec := exec_bobbinInstallDone now hup hactive hinst hkey
    rw [hopen] at hexec
    obtain ⟨r, ⟨fs, hrest⟩, hrsps, -, -, htag, hstatus, -, -⟩ := answerWith_answers (k := k)
      (s := unopened (advance s now) p i) (f := f) (tag := tag)
      (by rw [advance_eq]; exact htaken) 0x0604 0 [] [] false
    refine ⟨_, hexec, ?_, r, hrsps.trans ?_, htag, hstatus⟩
    · rw [hrest]
      show tfind ((unopened (advance s now) p i).part p).bobbins i = none
      rw [unopened, part_modPart_self]
      exact tfind_tdel_self _ _
    · rw [advance_eq]
      rfl
  · extract_lets p
    refine ⟨fun h hhas => ⟨fun hrefs hpin hserve => ?_, fun hheld => ?_⟩, fun h hhas => ?_,
      fun h hhas => ⟨fun hev => ?_, fun hst hrefs hpin hserve => ?_, fun hheld => ?_⟩,
      fun h hhas => ⟨fun hfits => ?_, fun hover => ?_⟩, fun h hhas => ?_, fun h => ?_, fun h => ?_, fun h => ?_⟩
    · have hexec := exec_bobbinRemove h hhas
      rw [if_neg (by simp [p] at *; exact ⟨⟨hrefs, hpin⟩, hserve⟩)] at hexec
      obtain ⟨u, hans, hanswered, hparts, hsteps⟩ := answered_parts (s := s) (m := m) (t := removeBobbin (take s m) p (catIdx m)) rfl
      refine ⟨u, hexec.trans (congrArg _ hans), hanswered, ?_, fun j hj => ?_, hsteps⟩
      · rw [State.part, hparts, ← State.part, removeBobbin, part_modPart_self]
        exact tfind_tdel_self _ _
      · rw [bobbin_of_parts hparts]
        exact bobbin_removeBobbin_ne _ p hj
    · have hexec := exec_bobbinRemove h hhas
      rw [if_pos (by simp [p] at *; tauto)] at hexec
      exact ⟨_, hexec, replies_refuse s m 0x0607⟩
    · obtain ⟨u, hans, hanswered, hparts, -⟩ := answered_parts (s := s) (m := m) (t := wantBobbin (take s m) p (catIdx m))
        (wantBobbin_rest _ _ _)
      refine ⟨u, (exec_bobbinPrefetch h hhas).trans (congrArg _ hans), hanswered, ?_, fun j hj => ?_⟩
      · have hlive : (bobbin (take s m) p (catIdx m)).live = true := live_of_hasBobbin hhas
        rw [bobbin_of_parts hparts, bobbin_wantBobbin hlive]
        show (if (bobbin s p (catIdx m)).state = 0 then _ else _ : Bobbin).state = _
        split <;> rfl
      · rw [bobbin_of_parts hparts]
        exact bobbin_wantBobbin_ne _ p hj
    · obtain ⟨hlive, hstate, hpin, hrefs, hserve⟩ : (bobbin s p (catIdx m)).live = true ∧ (bobbin s p (catIdx m)).state = 2
          ∧ (bobbin s p (catIdx m)).pinned = false ∧ bobbinRefs s p (catIdx m) = 0 ∧ serving s p (bobbin s p (catIdx m)) = false := by
        simpa [evictable, and_assoc] using hev
      have hexec := exec_bobbinEvict h hhas
      rw [if_neg (by simp [p] at *; exact ⟨⟨hrefs, hpin⟩, hserve⟩), if_neg (by simpa using hstate)] at hexec
      obtain ⟨u, hans, hanswered, hparts, -⟩ := answered_parts (s := s) (m := m) (t := leaveStore (take s m) p (catIdx m)) rfl
      refine ⟨u, hexec.trans (congrArg _ hans), hanswered, ?_, fun j hj => ?_⟩
      · rw [bobbin_of_parts hparts, leaveStore, bobbin_modBobbin_self]
      · rw [bobbin_of_parts hparts]
        exact bobbin_modBobbin_ne (take s m) p _ hj
    · have hexec := exec_bobbinEvict h hhas
      rw [if_neg (by simp [p] at *; exact ⟨⟨hrefs, hpin⟩, hserve⟩), if_pos (by simpa using hst)] at hexec
      exact ⟨_, hexec, replies_answerWith s m 0 0 [] [] false⟩
    · have hexec := exec_bobbinEvict h hhas
      rw [if_pos (by simp [p] at *; tauto)] at hexec
      exact ⟨_, hexec, replies_refuse s m 0x0607⟩
    · have hexec := exec_bobbinPin h hhas
      rw [if_neg (Nat.not_lt.2 hfits)] at hexec
      obtain ⟨u, hans, hanswered, hparts, -⟩ := answered_parts (s := s) (m := m) (t := pinned (take s m) p (catIdx m))
        (wantBobbin_rest _ _ _)
      have hlive : (bobbin s p (catIdx m)).live = true := live_of_hasBobbin hhas
      have hself := bobbin_modBobbin_self (take s m) p (catIdx m) fun b => { b with pinned := true }
      have hwanted := bobbin_wantBobbin (s := modBobbin (take s m) p (catIdx m) fun b => { b with pinned := true }) (p := p)
        (i := catIdx m) (by rw [hself]; exact hlive)
      rw [hself] at hwanted
      refine ⟨u, hexec.trans (congrArg _ hans), hanswered, ?_, ?_, fun j hj => ?_⟩
      · rw [bobbin_of_parts hparts, pinned, hwanted]
        split <;> rfl
      · rw [bobbin_of_parts hparts, pinned, hwanted]
        split
        · exact Nat.one_ne_zero
        · assumption
      · rw [bobbin_of_parts hparts, pinned, bobbin_wantBobbin_ne _ p hj]
        exact bobbin_modBobbin_ne (take s m) p _ hj
    · have hexec := exec_bobbinPin h hhas
      rw [if_pos hover] at hexec
      exact ⟨_, hexec, replies_refuse s m 0x0606⟩
    · obtain ⟨u, hans, hanswered, hparts, -⟩ := answered_parts (s := s) (m := m)
        (t := modBobbin (take s m) p (catIdx m) fun b => { b with pinned := false }) rfl
      refine ⟨u, (exec_bobbinUnpin h hhas).trans (congrArg _ hans), hanswered, ?_, fun j hj => ?_⟩
      · rw [bobbin_of_parts hparts]
        exact bobbin_modBobbin_self (take s m) p (catIdx m) _
      · rw [bobbin_of_parts hparts]
        exact bobbin_modBobbin_ne (take s m) p _ hj
    · have hexec : exec (.bobbinList m) s = _ := mbx_of_passes h rfl
      exact ⟨_, hexec, replies_answerWith s m ..⟩
    · have hexec : exec (.bobbinSources m) s = _ := mbx_of_passes h rfl
      obtain ⟨u, hans, hanswered, hparts, -⟩ := answered_parts (s := s) (m := m)
        (t := (take s m).modPart p fun x => { x with sources := (List.range (fld m.payload 4 1)).map fun i => fld m.payload (8 + 2 * i) 2 }) rfl
      refine ⟨u, hexec.trans (congrArg _ hans), hanswered, ?_, fun q hq => ?_⟩
      · rw [State.part, hparts]
        exact part_modPart_self (take s m) p _
      · rw [State.part, hparts]
        exact part_modPart_ne (take s m) _ hq
    · have hexec : exec (.bobbinBacking m) s = _ := mbx_of_passes h rfl
      obtain ⟨u, hans, hanswered, hparts, -⟩ := answered_parts (s := s) (m := m) (t := (take s m).modPart p (backingSet m)) rfl
      have hself : u.part p = backingSet m (s.part p) := by
        rw [State.part, hparts]
        exact part_modPart_self (take s m) p _
      refine ⟨u, hexec.trans (congrArg _ hans), hanswered, ?_, fun j => ?_, fun q hq => ?_⟩
      · rw [hself]
        rfl
      · rw [bobbin, hself, backingSet, tget, tfind_tmap]
        cases tfind (s.part p).bobbins j <;> rfl
      · rw [State.part, hparts]
        exact part_modPart_ne (take s m) _ hq

end Sys2Proof.Machine

/-! PROOFS. Programs, hints and the placement log (O34; R206 to R209, R216 to R222, R348). -/

namespace Sys2Proof.Machine

open Sys2Proof.Claims

variable {s t u : State} {m : Msg} {p i : Nat}

/-! ### Programs of a partition -/

theorem prog_modProg_self (s : State) (p i : Nat) (f : Program → Program) : prog (modProg s p i f) p i = f (prog s p i) := by
  rw [prog, modProg, part_modPart_self, tget_tput_self]
  rfl

theorem prog_modProg_ne {j : Nat} (s : State) (p : Nat) (f : Program → Program) (h : j ≠ i) :
    prog (modProg s p i f) p j = prog s p j := by
  rw [prog, modProg, part_modPart_self, tget_tput_ne _ _ _ h]
  rfl

theorem prog_congr (h : (t.part p).progs = (s.part p).progs) (i : Nat) : prog t p i = prog s p i := by
  rw [prog, prog, h]

theorem prog_of_parts (h : u.parts = t.parts) (p i : Nat) : prog u p i = prog t p i := prog_congr (by rw [State.part, h]; rfl) i

/-- A program with one more reference, with one less, and with its load ended. -/
def refTaken (g : Program) : Program := { g with refs := g.refs + 1 }
/-- See `refTaken`. -/
def refDropped (g : Program) : Program := { g with refs := g.refs - 1 }
/-- See `refTaken`. -/
def loadEnded (g : Program) : Program := { g with loading := none }

/-- A program with hints that wait for a step boundary. -/
def hintsStaged (l : List Hint) (g : Program) : Program := { g with staged := some l }

/-! ### Loading -/

/-- A second load of a digest whose load still runs waits (Table Mailbox-8). -/
def stillLoading (s : State) (m : Msg) : Bool :=
  (s.part (namedPart m)).progs.any fun e => e.2.loading.isSome && (stage1 (extIn m)).isEmpty && e.2.upf.digest == (readUpf (extIn m)).digest

theorem exec_programLoad_waits (h : Passes s (ownMsg s m 0x0101 8 [] true) m) (hload : stillLoading s m = true) :
    exec (.programLoad m) s = .next s := by
  obtain ⟨-, hchecks, hnamed, -⟩ := h
  refine (if_pos ?_ : execProgramLoad m s = _)
  rw [Bool.and_eq_true, Bool.and_eq_true]
  exact ⟨⟨by rw [hchecks]; rfl, hnamed⟩, hload⟩

theorem exec_programLoad (h : Passes s (ownMsg s m 0x0101 8 [] true) m) (hload : stillLoading s m = false) :
    exec (.programLoad m) s = .next (applyAns (take s m) m (loadOwn m (take s m))) := by
  have hexec : mbx (ownMsg s m 0x0101 8 [] true) (loadOwn m) m s = _ := mbx_of_passes h rfl
  refine (if_neg ?_ : execProgramLoad m s = _).trans hexec
  rw [Bool.and_eq_true, not_and]
  intro _ hload'
  exact Bool.false_ne_true (hload.symm.trans hload')

theorem loadJob_take (s : State) (m : Msg) (p h : Nat) : loadJob (take s m) p h = loadJob s p h := rfl

theorem loadedDigest_take (s : State) (m : Msg) (p : Nat) (d : BitVec 384) : loadedDigest (take s m) p d = loadedDigest s p d := rfl

theorem stage6_take (s : State) (m : Msg) (p : Nat) (b : List Byte) (f : Upf.File) : stage6 (take s m) p b f = stage6 s p b f := rfl

theorem stage4_take (s : State) (m : Msg) (p : Nat) (b : List Byte) (f : Upf.File) : stage4 (take s m) p b f = stage4 s p b f := rfl

theorem upfBads_take (s : State) (m : Msg) (p : Nat) (b : List Byte) : upfBads (take s m) p b = upfBads s p b := by
  unfold upfBads
  simp only [stage4_take, stage6_take]
  rfl

/-- What a load is checked for once its job is known: the program that is there already, or the faults of the file. -/
theorem loadOwn_shared {job : Option Nat} {g : Program} (hjob : loadJob s (namedPart m) (fld m.payload 4 4) = some job)
    (hform : stage1 (extIn m) = []) (hknown : loadedDigest s (namedPart m) (readUpf (extIn m)).digest = some (i, g)) :
    loadOwn m (take s m) = .reply (modProg (take s m) (namedPart m) i refTaken) 0
      (progHandle s (namedPart m) i) (loadPayload g) [] false := by
  simp only [loadOwn, loadJob_take, hjob, hform, loadedDigest_take, hknown]
  rfl

theorem loadOwn_bad {job : Option Nat} {c w : Nat} {l : Bads} (hjob : loadJob s (namedPart m) (fld m.payload 4 4) = some job)
    (hnew : stage1 (extIn m) = [] → loadedDigest s (namedPart m) (readUpf (extIn m)).digest = none)
    (hbad : upfBads s (namedPart m) (extIn m) = (c, w) :: l) : loadOwn m (take s m) = .refuseAt c (w * 2 ^ 32) := by
  have hknown : (if (stage1 (extIn m)).isEmpty then loadedDigest s (namedPart m) (readUpf (extIn m)).digest else none) = none := by
    split
    · exact hnew (List.isEmpty_iff.1 ‹_›)
    · rfl
  simp only [loadOwn, loadJob_take, hjob, loadedDigest_take, hknown, upfBads_take, hbad]

/-- What a valid new program's load does, by the job it names (R247). -/
def newLoad (s : State) (m : Msg) : Option Nat → Ans
  | none => startLoad (take s m) (namedPart m) m (readUpf (extIn m)) none
  | some j => match splitParts s (namedPart m) (readUpf (extIn m)) (s.job j).members with
    | none => .refuse 0x0612
    | some parts => startLoad ((take s m).modJob j fun x => { x with parts }) (namedPart m) m (readUpf (extIn m)) (some j)

theorem loadOwn_new {job : Option Nat} (hjob : loadJob s (namedPart m) (fld m.payload 4 4) = some job)
    (hform : stage1 (extIn m) = []) (hknown : loadedDigest s (namedPart m) (readUpf (extIn m)).digest = none)
    (hgood : upfBads s (namedPart m) (extIn m) = []) : loadOwn m (take s m) = newLoad s m job := by
  simp only [loadOwn, loadJob_take, hjob, hform, loadedDigest_take, hknown, upfBads_take, hgood]
  cases job <;> rfl

/-- The most of the firmware area that a program can take (R266). -/
def loadMost (s : State) (p : Nat) (f : Upf.File) : Nat :=
  firmwareUsed s p + 65536 * (f.skeins.length + addedSkeins s f) + f.const.length

/-- A program that fits the firmware area takes its index. -/
theorem startLoad_fits (s : State) {p i : Nat} (m : Msg) (f : Upf.File) (job : Option Nat)
    (hfits : loadMost s p f ≤ 32 * 2 ^ 20 * ((s.part p).width * (s.part p).height))
    (hi : freeIndex (s.part p).progs (·.live) 65536 = some i) : ∃ t, startLoad s p m f job = .later t
      ∧ t = { s with parts := t.parts, fresh := t.fresh }
      ∧ (prog t p i).live = true ∧ (prog t p i).refs = 1 ∧ (prog t p i).upf = f ∧ (prog t p i).loading = some (m.func, m.tag)
      ∧ (prog t p i).job = job ∧ (∀ j, j ≠ i → prog t p j = prog s p j) := by
  unfold startLoad
  split
  next x w hw =>
  obtain rfl : w = (draw s).2 := (congrArg Prod.snd hw).symm
  extract_lets low fb
  have hlow : low ≤ 65536 * (f.skeins.length + addedSkeins s f) := Nat.le_of_lt_succ (Nat.mod_lt _ (Nat.succ_pos _))
  have hroom : ¬ 32 * 2 ^ 20 * ((s.part p).width * (s.part p).height) < firmwareUsed s p + low + f.const.length := by
    unfold loadMost at hfits
    omega
  have hroom' : ¬ 32 * 2 ^ 20 * (((draw s).2.part p).width * ((draw s).2.part p).height)
      < firmwareUsed (draw s).2 p + low + f.const.length := hroom
  have hi' : freeIndex ((draw s).2.part p).progs (·.live) 65536 = some i := hi
  rw [if_neg hroom', hi']
  refine ⟨_, rfl, rfl, ?_, ?_, ?_, ?_, ?_, fun j hj => prog_modProg_ne (draw s).2 p _ hj⟩
  all_goals rw [prog_modProg_self]

/-- What a load that is kept leaves. -/
theorem load_pends {c : Instr} {job : Option Nat} {w : State} (hrest : w = { take s m with parts := w.parts, jobs := w.jobs })
    (hexec : exec c s = .next (applyAns (take s m) m (startLoad w (namedPart m) m (readUpf (extIn m)) job)))
    (hprogs : w.parts = s.parts)
    (hfits : loadMost w (namedPart m) (readUpf (extIn m)) ≤ 32 * 2 ^ 20 * ((s.part (namedPart m)).width * (s.part (namedPart m)).height))
    (hi : freeIndex (s.part (namedPart m)).progs (·.live) 65536 = some i) :
    ∃ t, exec c s = .next t ∧ Pends s t m ∧ (prog t (namedPart m) i).live = true ∧ (prog t (namedPart m) i).refs = 1
      ∧ (prog t (namedPart m) i).upf = readUpf (extIn m) ∧ (prog t (namedPart m) i).loading = some (m.func, m.tag)
      ∧ (prog t (namedPart m) i).job = job ∧ (∀ j, j ≠ i → prog t (namedPart m) j = prog s (namedPart m) j)
      ∧ t.steps = s.steps ∧ t.jobs = w.jobs := by
  have hpart : w.part (namedPart m) = s.part (namedPart m) := by rw [State.part, hprogs]; rfl
  obtain ⟨t, hload, ht, hlive, hrefs, hupf, hloading, hjob, hothers⟩ := startLoad_fits w m (readUpf (extIn m)) job
    (by rw [hpart]; exact hfits) (by rw [hpart]; exact hi)
  have hstands : SenderStands s t m := (SenderStands.of_take s m).of_funcs (by rw [ht, hrest])
  rw [hload] at hexec
  refine ⟨t, hexec, hstands.pends, hlive, hrefs, hupf, hloading, hjob, fun j hj => (hothers j hj).trans (prog_of_parts hprogs _ j), ?_, ?_⟩
  · rw [ht, hrest]
    rfl
  · rw [ht]

theorem exec_programLoadDone {f tag : Nat} (now : Nat) (hup : ready s = true) (hactive : active s p = true)
    (hload : (prog s p i).loading = some (f, tag)) : exec (.programLoadDone now p i) s
      = .next (answerWith (modProg (advance s now) p i loadEnded) f tag 0 (progHandle s p i)
          (loadPayload (prog s p i)) [] false) := by
  have hg : prog (advance s now) p i = prog s p i := by
    rw [advance_eq]
    rfl
  have hactive' : active (advance s now) p = true := by
    rw [advance_eq]
    exact hactive
  refine (timed_of s (by simp [hup, hactive', hg, hload]) : execProgramLoadDone now p i s = _).trans ?_
  simp only [hg, hload]
  have hhandle : progHandle (modProg (advance s now) p i loadEnded) p i = progHandle s p i := by
    rw [progHandle, prog_modProg_self, hg]
    rfl
  exact congrArg (fun h => Host.Outcome.next (answerWith _ f tag 0 h (loadPayload (prog s p i)) [] false)) hhandle

/-! ### Unloading -/

theorem live_of_progOf {h : Nat} (hprog : progOf s p h = some i) : ∃ g, tfind (s.part p).progs i = some g ∧ g.live = true := by
  unfold progOf at hprog
  split at hprog
  · next g hg =>
    split at hprog
    · next hok => exact ⟨g, Option.some.inj hprog ▸ hg, hok.2.2.1⟩
    · cases hprog
  · cases hprog

theorem exec_programUnload (h : Passes s (ownMsg s m 0x0102 8 [] true) m) (hi : progOf s (namedPart m) (fld m.payload 4 4) = some i) :
    exec (.programUnload m) s = .next (applyAns (take s m) m
      (if (s.part (namedPart m)).progs.any fun e => e.2.live && e.2.fallback == some i then .refuse 0x0920
       else if s.steps.any fun e => e.2.part == namedPart m && (e.2.prog == i || e.2.fallback == some i) then .refuse 0x0921
       else if 1 < (prog s (namedPart m) i).refs then .done (modProg (take s m) (namedPart m) i refDropped)
       else .done (dropProgram (take s m) (namedPart m) i))) := by
  have hexec : exec (.programUnload m) s = _ := mbx_of_passes h rfl
  have hi' : progOf (take s m) (namedPart m) (fld m.payload 4 4) = some i := hi
  rw [hexec]
  simp only [hi']
  rfl

theorem prog_dropProgram {g : Program} (hg : tfind (s.part p).progs i = some g) :
    prog (dropProgram s p i) p i = { gen := ((prog s p i).gen + 1) % 256 } := by
  rw [prog, dropProgram, part_modPart_self, tget, tfind_tmap, hg, prog, tget, hg]
  simp

/-! ### Hints -/

theorem exec_placementHint (h : Passes s (ownMsg s m 0x0201 9 [] (decide (fld m.payload 8 1 ≤ 64 ∧ 48 * fld m.payload 8 1 ≤ m.extBytes))) m)
    (hi : progOf s (namedPart m) (fld m.payload 4 4) = some i) : exec (.placementHint m) s = .next (applyAns (take s m) m
      (if (List.range (fld m.payload 8 1)).all (hintOk (s.part (namedPart m)) (extIn m)) then
        .done (staged (modProg (take s m) (namedPart m) i (hintsStaged ((List.range (fld m.payload 8 1)).map (hintAt (extIn m))))) (namedPart m))
       else .refuse 0x0610)) := by
  have hexec : exec (.placementHint m) s = _ := mbx_of_passes h rfl
  have hi' : progOf (take s m) (namedPart m) (fld m.payload 4 4) = some i := hi
  rw [hexec]
  simp only [hi']
  rfl

/-- A program with the hints that were staged for it in force (R218). -/
def hinted (s : State) (p : Nat) (g : Program) : Program :=
  match g.staged with
  | some h => { g with hints := h, staged := none, derived := derivePoints s p { g with hints := h, staged := none } }
  | none => g

theorem progs_swapStaged (s : State) (p : Nat) : ((swapStaged s p).part p).progs = tmap (s.part p).progs fun _ g => hinted s p g := by
  unfold swapStaged
  extract_lets t w x
  rw [part_reap, part_retune]
  show (x.part p).progs = _
  simp only [x, part_modPart_self]
  show (w.part p).progs = _
  rw [part_swapWatch]
  show (t.part p).progs = _
  simp only [t, part_modPart_self]
  rfl

theorem prog_swapStaged {g : Program} (hg : tfind (s.part p).progs i = some g) : prog (swapStaged s p) p i = hinted s p g := by
  rw [prog, progs_swapStaged, tget, tfind_tmap, hg]
  rfl

theorem prog_retune (s : State) (k p i : Nat) : prog (retune s k) p i = prog s p i := prog_congr (by rw [part_retune]) i

theorem tfind_modProg_self (s : State) (p i : Nat) (f : Program → Program) :
    tfind ((modProg s p i f).part p).progs i = some (f (prog s p i)) := by
  rw [modProg, part_modPart_self]
  exact tfind_tput_self _ _ _

theorem partGranules_modProg (s : State) (p i : Nat) (f : Program → Program) :
    partGranules ((modProg s p i f).part p) = partGranules (s.part p) := by
  rw [modProg, part_modPart_self]
  rfl

/-- The derived points depend on the tiles of a partition, its program and the hints, not on what else it holds. -/
theorem derivePoints_modProg (s : State) (p i : Nat) (f : Program → Program) (g : Program) :
    derivePoints (modProg s p i f) p g = derivePoints s p g := by
  have husable : usableTiles (modProg s p i f) p = usableTiles s p := by
    unfold usableTiles partTiles
    rw [partGranules_modProg]
    rfl
  have hmask : ∀ k, maskTiles (modProg s p i f) p k = maskTiles s p k := fun k => by
    unfold maskTiles
    rw [partGranules_modProg]
    rfl
  unfold derivePoints
  simp only [husable, hmask]

theorem hinted_hintsStaged (s : State) (p i : Nat) (f : Program → Program) (l : List Hint) (g : Program) :
    hinted (modProg s p i f) p (hintsStaged l g)
      = { g with hints := l, staged := none, derived := derivePoints s p { g with hints := l } } := by
  have hpoints : derivePoints s p { g with hints := l, staged := none } = derivePoints s p { g with hints := l } := rfl
  simp only [hinted, hintsStaged, derivePoints_modProg, ← hpoints]

/-- R218: hints wait while a step runs. -/
theorem prog_staged_of_running (s : State) (p i : Nat) (l : List Hint) (h : (s.part p).running ≠ none) :
    prog (staged (modProg s p i (hintsStaged l)) p) p i = hintsStaged l (prog s p i) := by
  have hbusy : atBoundary (modProg s p i (hintsStaged l)) p = false := by
    rw [atBoundary, modProg, part_modPart_self]
    exact beq_eq_false_iff_ne.2 h
  rw [staged, hbusy, if_neg (by simp), prog_retune]
  exact prog_modProg_self s p i _

/-- R218: hints are in force at once while none runs. -/
theorem prog_staged_of_idle (s : State) (p i : Nat) (l : List Hint) (h : (s.part p).running = none) :
    prog (staged (modProg s p i (hintsStaged l)) p) p i
      = { prog s p i with hints := l, staged := none, derived := derivePoints s p { prog s p i with hints := l } } := by
  have hidle : atBoundary (modProg s p i (hintsStaged l)) p = true := by
    rw [atBoundary, modProg, part_modPart_self]
    exact beq_iff_eq.2 h
  rw [staged, hidle, if_pos rfl]
  rw [prog_swapStaged (tfind_modProg_self s p i (hintsStaged l)), hinted_hintsStaged]

/-! ### The placement log (R221, R222) -/

/-- A context without a placement log. -/
def unlogged (x : Ctx) : Ctx := { x with logOn := false }

/-- A context whose placement log starts. -/
def logged (m : Msg) (x : Ctx) : Ctx :=
  { x with logOn := true, logObj := fld m.payload 8 4, logCap := fld m.payload 12 4, logWritten := 0 }

/-- The header of a placement log that starts (R222). -/
def logHeader (m : Msg) : List Byte := toLe 8 0 ++ toLe 8 (fld m.payload 12 4) ++ List.replicate 48 0

theorem length_logHeader (m : Msg) : (logHeader m).length = 64 := by simp [logHeader, length_toLe]

theorem hbmRead_logHeader (m : Msg) (hwf : memWf s.hbm = true) :
    hbmRead (objWrite s p i 0 (logHeader m)) p (memObj s p i).base 16 = toLe 8 0 ++ toLe 8 (fld m.payload 12 4) := by
  rw [hbmRead_objWrite s p i hwf (by rw [length_logHeader]; omega), logHeader]
  exact List.take_left' (by simp [length_toLe])

theorem mread_logHeader (m : Msg) {a : Nat} (ha : ∀ k, k < 64 → a ≠ hbmAddr p ((memObj s p i).base + k)) :
    mread (objWrite s p i 0 (logHeader m)).hbm a = mread s.hbm a := by
  rw [(objWrite_rest s p i 0 _).2.2]
  refine mread_mwriteN_outside _ ?_
  rw [length_logHeader]
  by_contra hin
  refine ha (a - hbmAddr p (memObj s p i).base) ?_ ?_ <;> simp only [hbmAddr] at hin ⊢ <;> omega

theorem exec_placementLog {c : Nat} (h : Passes s (ownMsg s m 0x0202 17 []
      (decide (fld m.payload 16 1 ≤ 1 ∧ (fld m.payload 16 1 = 0 ∨ 1 ≤ fld m.payload 12 4)))) m)
    (hc : ctxOf s (namedPart m) (fld m.payload 4 4) = some c) : exec (.placementLog m) s = .next (applyAns (take s m) m
      (if fld m.payload 16 1 = 0 then .done ((take s m).modCtx c unlogged)
       else match objFor s (namedPart m) c (fld m.payload 8 4) with
        | none => .refuse 0x0741
        | some i =>
          if (memObj s (namedPart m) i).bytes < 64 + 8 * fld m.payload 12 4 then .refuse 0x0742
          else .done (objWrite ((take s m).modCtx c (logged m)) (namedPart m) i 0 (logHeader m)))) := by
  have hexec : exec (.placementLog m) s = _ := mbx_of_passes h rfl
  have hc' : ctxOf (take s m) (namedPart m) (fld m.payload 4 4) = some c := hc
  rw [hexec]
  simp only [hc']
  rfl

theorem ctx_objWrite (s : State) (p i off : Nat) (l : List Byte) (c : Nat) : (objWrite s p i off l).ctx c = s.ctx c := rfl

/-- R221, R222: a placement log that starts. -/
theorem placementLog_starts {c : Nat} (h : Passes s (ownMsg s m 0x0202 17 []
      (decide (fld m.payload 16 1 ≤ 1 ∧ (fld m.payload 16 1 = 0 ∨ 1 ≤ fld m.payload 12 4)))) m)
    (hc : ctxOf s (namedPart m) (fld m.payload 4 4) = some c) (hon : fld m.payload 16 1 ≠ 0)
    (hobj : objFor s (namedPart m) c (fld m.payload 8 4) = some i)
    (hfits : 64 + 8 * fld m.payload 12 4 ≤ (memObj s (namedPart m) i).bytes) :
    ∃ t, exec (.placementLog m) s = .next t ∧ Answered s t m (okTo m 0) ∧ t.ctx c = logged m (s.ctx c)
      ∧ (Memory.wf s = true → hbmRead t (namedPart m) (memObj s (namedPart m) i).base 16 = toLe 8 0 ++ toLe 8 (fld m.payload 12 4))
      ∧ (∀ a, (∀ k, k < 64 → a ≠ hbmAddr (namedPart m) ((memObj s (namedPart m) i).base + k)) → mread t.hbm a = mread s.hbm a) := by
  have hexec := exec_placementLog h hc
  rw [if_neg hon] at hexec
  simp only [hobj, Nat.not_lt.2 hfits, if_false] at hexec
  have hctx : (objWrite ((take s m).modCtx c (logged m)) (namedPart m) i 0 (logHeader m)).ctx c = logged m (s.ctx c) :=
    (ctx_objWrite _ _ _ _ _ c).trans (ctx_modCtx_self (s := take s m) c (logged m))
  have hread := hbmRead_logHeader (s := (take s m).modCtx c (logged m)) (p := namedPart m) (i := i) m
  have hkept := fun a => mread_logHeader (s := (take s m).modCtx c (logged m)) (p := namedPart m) (i := i) m (a := a)
  have hfuncs : (objWrite ((take s m).modCtx c (logged m)) (namedPart m) i 0 (logHeader m)).funcs = (take s m).funcs :=
    (objWrite_rest _ _ _ _ _).2.1
  generalize objWrite ((take s m).modCtx c (logged m)) (namedPart m) i 0 (logHeader m) = w at *
  obtain ⟨fs, hans, hanswered, -⟩ := answered_done (s := s) (m := m) (t := w) hfuncs
  exact ⟨_, hexec.trans (congrArg _ hans), hanswered, hctx, hread, hkept⟩

/-- Settles O34. -/
theorem programs : Obligations.Programs := by
  unfold Obligations.Programs
  refine ⟨fun s m => ?_, fun s m h hload => exec_programLoad_waits h hload, fun s now p i f tag k hup hactive hloading htaken => ?_,
    fun s m i => ?_, fun s m i => ?_, fun s m c => ?_⟩
  · intro p h hload
    have hexec := exec_programLoad h hload
    refine ⟨fun hjob => ?_, fun job i g hjob hform hknown => ?_, fun job c w l hjob hnew hbad => ?_, fun hjob hform hnew hgood hfits i hi => ?_,
      fun j hjob hform hnew hgood => ⟨fun hsplit => ?_, fun parts hsplit hfits i hi => ?_⟩⟩
    · have hown : loadOwn m (take s m) = .refuse 0x0924 := by
        have hjob : loadJob s (namedPart m) (fld m.payload 4 4) = none := hjob
        simp only [loadOwn, loadJob_take, hjob]
      rw [hown] at hexec
      exact ⟨_, hexec, replies_refuse s m 0x0924⟩
    · rw [loadOwn_shared hjob hform hknown] at hexec
      obtain ⟨fs, hans, hanswered, -⟩ := answered_reply (s := s) (m := m)
        (t := modProg (take s m) p i refTaken) rfl 0 (progHandle s p i) (loadPayload g) [] false
      exact ⟨_, hexec.trans (congrArg _ hans), hanswered, prog_modProg_self (take s m) p i refTaken,
        fun j hj => prog_modProg_ne (take s m) p refTaken hj⟩
    · rw [loadOwn_bad hjob hnew hbad] at hexec
      exact ⟨_, hexec, replies_answerWith s m ..⟩
    · rw [loadOwn_new hjob hform hnew hgood] at hexec
      obtain ⟨t, ht, hpends, hlive, hrefs, hupf, hload, -, hothers, hsteps, -⟩ := load_pends rfl hexec rfl hfits hi
      exact ⟨t, ht, hpends, hlive, hrefs, hupf, hload, hsteps, hothers⟩
    · have hown : newLoad s m (some j) = .refuse 0x0612 := by
        have hsplit : splitParts s (namedPart m) (readUpf (extIn m)) (s.job j).members = none := hsplit
        simp only [newLoad, hsplit]
      rw [loadOwn_new hjob hform hnew hgood, hown] at hexec
      exact ⟨_, hexec, replies_refuse s m 0x0612⟩
    · have hown : newLoad s m (some j) = startLoad ((take s m).modJob j fun x => { x with parts }) p m (readUpf (extIn m)) (some j) := by
        have hsplit : splitParts s (namedPart m) (readUpf (extIn m)) (s.job j).members = some parts := hsplit
        simp only [newLoad, hsplit]
        rfl
      rw [loadOwn_new hjob hform hnew hgood, hown] at hexec
      obtain ⟨t, ht, hpends, -, -, hupf, -, hjob', -, hsteps, hjobs⟩ := load_pends rfl hexec rfl hfits hi
      refine ⟨t, ht, hpends, hupf, hjob', ?_, hsteps, fun k hk => ?_⟩
      · rw [State.job, hjobs]
        exact tget_tput_self _ _ _ _
      · rw [State.job, hjobs]
        exact tget_tput_ne _ _ _ hk
  · obtain ⟨r, ⟨fs, hrest⟩, hrsps, -, -, htag, hstatus, hdetail, hpayload⟩ := answerWith_answers (k := k)
      (s := modProg (advance s now) p i loadEnded) (f := f) (tag := tag)
      (by rw [advance_eq]; exact htaken) 0 (progHandle s p i) (loadPayload (prog s p i)) [] false
    refine ⟨_, exec_programLoadDone now hup hactive hloading, ?_, ⟨r, hrsps.trans ?_, htag, hstatus, hdetail, hpayload⟩, fun j hj => ?_, ?_⟩
    · rw [hrest]
      refine (prog_modProg_self (advance s now) p i loadEnded).trans ?_
      rw [advance_eq]
      rfl
    · rw [advance_eq]
      rfl
    · rw [hrest]
      refine (prog_modProg_ne (advance s now) p loadEnded hj).trans ?_
      rw [advance_eq]
      rfl
    · rw [hrest, advance_eq]
      rfl
  · intro p h hi
    have hexec := exec_programUnload h hi
    have hnone (hfree : ∀ e ∈ (s.part p).progs, e.2.live = false ∨ e.2.fallback ≠ some i) :
        ¬ ((s.part p).progs.any fun e => e.2.live && e.2.fallback == some i) = true := by
      rw [List.any_eq_true]
      rintro ⟨e, he, hnamed⟩
      obtain ⟨hlive, hfb⟩ := Bool.and_eq_true_iff.1 hnamed
      exact (hfree e he).elim (fun h => Bool.false_ne_true (h.symm.trans hlive)) fun h => h (beq_iff_eq.1 hfb)
    refine ⟨fun ⟨e, he, hlive, hfb⟩ => ?_, fun hfree ⟨e, he, hpart, hprog⟩ => ?_, fun hfree hidle => ?_⟩
    · rw [if_pos (List.any_eq_true.2 ⟨e, he, by simp [hlive, hfb]⟩)] at hexec
      exact ⟨_, hexec, replies_refuse s m 0x0920⟩
    · rw [if_neg (hnone hfree), if_pos (List.any_eq_true.2 ⟨e, he, by simp [hpart, hprog, p]⟩)] at hexec
      exact ⟨_, hexec, replies_refuse s m 0x0921⟩
    · have hunused : ¬ (s.steps.any fun e => e.2.part == p && (e.2.prog == i || e.2.fallback == some i)) = true := by
        rw [List.any_eq_true]
        rintro ⟨e, he, hnamed⟩
        have := hidle e he
        simp at hnamed
        tauto
      rw [if_neg (hnone hfree), if_neg hunused] at hexec
      by_cases hrefs : 1 < (prog s p i).refs
      · rw [if_pos hrefs] at hexec
        obtain ⟨fs, hans, hanswered, -⟩ := answered_done (s := s) (m := m) (t := modProg (take s m) p i refDropped) rfl
        exact ⟨_, hexec.trans (congrArg _ hans), hanswered, rfl, fun _ => prog_modProg_self (take s m) p i refDropped,
          fun h => absurd hrefs (Nat.not_lt.2 h)⟩
      · rw [if_neg hrefs] at hexec
        obtain ⟨fs, hans, hanswered, -⟩ := answered_done (s := s) (m := m) (t := dropProgram (take s m) p i) rfl
        obtain ⟨g, hg, -⟩ := live_of_progOf hi
        have hgone : prog (dropProgram (take s m) p i) p i = _ := prog_dropProgram (s := take s m) hg
        refine ⟨_, hexec.trans (congrArg _ hans), hanswered, rfl, fun h => absurd h hrefs, fun _ => ⟨?_, ?_, fun r hr => ?_⟩⟩
        · exact congrArg Program.live hgone
        · exact congrArg Program.gen hgone
        · have hr' : r ∈ ((dropProgram (take s m) p i).part p).reservs := hr
          rw [dropProgram, part_modPart_self] at hr'
          simpa using (List.mem_filter.1 hr').2
  · intro p h hi
    have hexec := exec_placementHint h hi
    refine ⟨fun hok hrun => ?_, fun hok hrun => ?_, fun ⟨k, hk, hbad⟩ => ?_⟩
    · rw [if_pos (List.all_eq_true.2 fun k hk => hok k (List.mem_range.1 hk))] at hexec
      obtain ⟨-, -, hfuncs⟩ := staged_rest (modProg (take s m) p i (hintsStaged ((List.range (fld m.payload 8 1)).map (hintAt (extIn m))))) p
      obtain ⟨fs, hans, hanswered, -⟩ := answered_done (s := s) (m := m) hfuncs
      refine ⟨_, hexec.trans (congrArg _ hans), hanswered, ?_⟩
      exact prog_staged_of_running (take s m) p i _ hrun
    · rw [if_pos (List.all_eq_true.2 fun k hk => hok k (List.mem_range.1 hk))] at hexec
      obtain ⟨-, -, hfuncs⟩ := staged_rest (modProg (take s m) p i (hintsStaged ((List.range (fld m.payload 8 1)).map (hintAt (extIn m))))) p
      obtain ⟨fs, hans, hanswered, -⟩ := answered_done (s := s) (m := m) hfuncs
      have hafter := prog_staged_of_idle (take s m) p i ((List.range (fld m.payload 8 1)).map (hintAt (extIn m))) hrun
      refine ⟨_, hexec.trans (congrArg _ hans), hanswered, ?_, ?_, ?_⟩
      · exact congrArg Program.hints hafter
      · exact congrArg Program.staged hafter
      · exact congrArg Program.derived hafter
    · rw [if_neg] at hexec
      · exact ⟨_, hexec, replies_refuse s m 0x0610⟩
      · intro hall
        exact absurd (List.all_eq_true.1 hall k (List.mem_range.2 hk)) (by simp [p] at hbad ⊢; exact hbad)
  · intro p h hc
    have hexec := exec_placementLog h hc
    refine ⟨fun hoff => ?_, fun i hon hobj hfits => ?_⟩
    · rw [if_pos hoff] at hexec
      obtain ⟨fs, hans, hanswered, -⟩ := answered_done (s := s) (m := m) (t := (take s m).modCtx c unlogged) rfl
      exact ⟨_, hexec.trans (congrArg _ hans), hanswered, ctx_modCtx_self (s := take s m) c unlogged, rfl⟩
    · exact placementLog_starts h hc hon hobj hfits

end Sys2Proof.Machine

/-! PROOFS. Filling a bobbin (O32; R132, R214, R227, R230, R234 to R236, R240 to R243, R245). -/

namespace Sys2Proof.Machine

open Sys2Proof.Claims

variable {s t u w : State} {p i k : Nat} {status : Code}

/-! ### A fill that fails -/

/-- A fill that fails ends, its bobbin leaves the store, and what waits for it fails (Table Placement-5). -/
theorem failFetch_spec (s : State) (p i : Nat) (status : Code) (hfill : ∀ f, (s.part p).fill = some f → f.bobbin = i) :
    ((failFetch s p i status).part p).fill = none ∧ bobbin (failFetch s p i status) p i = { bobbin s p i with state := 0, places := [] }
      ∧ ∀ k st, k ∈ waitersOf s p i → tfind s.steps k = some st → Undecided st → FailsWith (failFetch s p i status) k status := by
  refine ⟨?_, ?_, fun k st hk hst hopen => (failFetch_slot s p i status hst hopen).resolve_right fun h => h.1 hk⟩
  · rw [fill_failFetch]
    cases hf : (s.part p).fill with
    | none => rfl
    | some f => simp [hfill f hf]
  · rw [failFetch_eq]
    have hends : Fails (fillEnded s p i) (forAll (waitersOf s p i) (fun s k => failStep s k status) (fillEnded s p i)) :=
      forAll_ends (fun t k => failStep_fails t k status) _ _
    rw [bobbin_congr (s := fillEnded s p i) (by rw [(hends.part p).rest])]
    refine (bobbin_modBobbin_self _ p i _).trans ?_
    rw [bobbin_congr (s := s) (by rw [part_modPart_self])]

/-- A bobbin's own steps wait for it until they start. -/
theorem mem_waitersOf_own {st : Step} (hst : tfind s.steps k = some st) (hpart : st.part = p) (hown : st.bobbin = some i)
    (hstate : st.state ≤ 2) : k ∈ waitersOf s p i :=
  List.mem_map.2 ⟨(k, st), List.mem_filter.2 ⟨mem_of_tfind hst, by simp [hpart, hown, hstate]⟩, rfl⟩

theorem resident_iff (s : State) (p b : Nat) : resident s p b = ((bobbin s p b).live && (bobbin s p b).state == 2) := by
  rw [resident, bobbin, tget]
  cases tfind (s.part p).bobbins b <;> rfl

/-- Who waits for a bobbin depends on the steps and on which bobbins are where. -/
theorem waitersOf_congr (hsteps : t.steps = s.steps)
    (hb : ∀ q b, (bobbin t q b).live = (bobbin s q b).live ∧ (bobbin t q b).state = (bobbin s q b).state) :
    waitersOf t p i = waitersOf s p i := by
  have hown : ∀ st, ownResident t st = ownResident s st := fun st => by
    unfold ownResident
    split
    · rfl
    · rw [resident_iff, resident_iff, (hb _ _).1, (hb _ _).2]
  unfold waitersOf slotsWhere
  simp only [hsteps, hown, (hb _ _).2]

theorem waitersOf_of_bobbins (hsteps : t.steps = s.steps) (hb : ∀ q, (t.part q).bobbins = (s.part q).bobbins) :
    waitersOf t p i = waitersOf s p i :=
  waitersOf_congr hsteps fun q b => by
    rw [bobbin_congr (hb q)]
    exact ⟨rfl, rfl⟩

theorem waitersOf_modBobbin (s : State) (p j i : Nat) {f : Bobbin → Bobbin} (hf : ∀ b, (f b).live = b.live ∧ (f b).state = b.state) :
    waitersOf (modBobbin s p j f) p i = waitersOf s p i := by
  refine waitersOf_congr rfl fun q b => ?_
  by_cases hq : q = p
  · subst hq
    by_cases hb : b = j
    · subst hb
      rw [bobbin_modBobbin_self]
      exact hf _
    · rw [bobbin_modBobbin_ne s q f hb]
      exact ⟨rfl, rfl⟩
  · rw [bobbin_congr (s := s) (by rw [modBobbin, part_modPart_ne _ _ hq])]
    exact ⟨rfl, rfl⟩

theorem waitersOf_advance (s : State) (now p i : Nat) : waitersOf (advance s now) p i = waitersOf s p i := by
  rw [advance_eq]
  rfl

/-! ### Messages to peers -/

/-- Control message `o` went into port `q`, and has left or waits there. -/
def CtlHanded (t : State) (q : Nat) (o : Out) : Prop := o ∈ t.out ∨ ∃ m ∈ (t.port q).txq, m.ctl = some o

theorem handed_forAll_sendOne {α : Type} {q : Nat} {m : TxMsg} (p : Nat) (l : List α) (h : Handed s q m) :
    Handed (forAll l (fun w _ => sendOne w p) s) q m := by
  induction l generalizing s with
  | nil => exact h
  | cons x l ih => exact ih (handed_sendOne p h)

/-- Messages that are handed to a port after this one leave it where it is, or let it go. -/
theorem Handed.sendAll {q : Nat} {m : TxMsg} (h : Handed s q m) (p : Nat) (l : List TxMsg) : Handed (sendAll s p l) q m := by
  refine handed_forAll_sendOne p _ ?_
  rcases h with hq | ho
  · refine .inl ?_
    by_cases hqp : q = p
    · subst hqp
      simp [hq]
    · rw [port_modPort_ne _ _ hqp]
      exact hq
  · exact .inr ho

theorem CtlHanded.of_handed {q : Nat} {m : TxMsg} {o : Out} (h : Handed s q m) (hm : m.ctl = some o) : CtlHanded s q o := by
  rcases h with hq | ho
  · exact .inr ⟨m, hq, hm⟩
  · exact .inl (by simpa [txOut, hm] using ho)

theorem CtlHanded.sendAll {q : Nat} {o : Out} (h : CtlHanded s q o) (p : Nat) (l : List TxMsg) : CtlHanded (Machine.sendAll s p l) q o := by
  rcases h with ho | ⟨m, hm, hctl⟩
  · exact .inl ((sendAll_sends s p l).out _ ho)
  · exact .of_handed (Handed.sendAll (.inl hm) p l) hctl

theorem CtlHanded.sendCtl {q : Nat} {o o' : Out} (h : CtlHanded s q o) (part pkg : Nat) (route : Option (List Nat)) :
    CtlHanded (Machine.sendCtl s part pkg route o') q o := by
  unfold Machine.sendCtl
  split
  · exact h.imp (List.mem_cons_of_mem _) id
  · split
    · exact h.sendAll _ _
    · exact h

theorem ctlHanded_sendCtl {part pkg hop : Nat} {r : List Nat} {o : Out} (hpkg : pkg ≠ myPkg s) :
    CtlHanded (sendCtl s part pkg (some (hop :: r)) o) (hopPort s.variant hop) o := by
  simp only [sendCtl, if_neg hpkg]
  exact .of_handed (handed_sendAll _ (List.mem_singleton.2 rfl)) rfl

theorem up_sendCtl (s : State) (part pkg : Nat) (route : Option (List Nat)) (o : Out) (q : Nat) :
    ((sendCtl s part pkg route o).port q).up = (s.port q).up := by
  unfold sendCtl
  split
  · rfl
  · split
    · exact up_sendAll _ _ _ q
    · rfl

theorem myPkg_of_sends (h : Sends s t) : myPkg t = myPkg s := by rw [myPkg, h.rest]; rfl

/-- Routes depend on the coordinates and on which ports are up. -/
theorem routeFrom_congr (haon : t.aon.coords = s.aon.coords) (hvariant : t.variant = s.variant) (hup : ∀ q, (t.port q).up = (s.port q).up)
    (src pkg : Nat) : routeFrom t src pkg = routeFrom s src pkg := by
  have hring : ∀ d, ringSize t d = ringSize s d := fun d => by rw [ringSize, ringSize, haon]
  have hnext : ∀ a b, nextPkg t a b = nextPkg s a b := fun a b => by rw [nextPkg, nextPkg, hring]
  have hmine : myPkg t = myPkg s := myPkg_congr haon
  have hdown : ∀ a b, linkDown t a b = linkDown s a b := fun a b => by
    simp only [linkDown, hmine, hup, hnext, hvariant]
  have hclear : ∀ l a, routeClear t a l = routeClear s a l := fun l => by
    induction l with
    | nil => intro a; rfl
    | cons x l ih =>
      intro a
      rw [routeClear, routeClear, hdown, hnext, ih]
  have hin : ∀ a, routeIn t a pkg = routeIn s a pkg := fun a => by
    funext o
    simp only [routeIn, hring]
  rw [routeFrom, routeFrom, funext (hclear · src), hin]

theorem routeTo_congr (haon : t.aon.coords = s.aon.coords) (hvariant : t.variant = s.variant) (hup : ∀ q, (t.port q).up = (s.port q).up) (pkg : Nat) :
    routeTo t pkg = routeTo s pkg := by
  rw [routeTo, routeTo, routeFrom_congr haon hvariant hup, myPkg_congr haon]

/-- What is sent to a list of packages, each by its route as it is then. -/
def tellAll (s : State) (p : Nat) (f : Nat → Out) (ks : List Nat) : State :=
  forAll ks (fun s k => sendCtl s p k (routeTo s k) (f k)) s

theorem tellAll_sends (s : State) (p : Nat) (f : Nat → Out) (ks : List Nat) : Sends s (tellAll s p f ks) :=
  forAll_sends (fun t k => sendCtl_sends t p k _ _) ks s

theorem ctlHanded_tellAll {f : Nat → Out} {ks : List Nat} {hop : Nat} {r : List Nat} (hk : k ∈ ks) (hmine : k ≠ myPkg s)
    (hroute : routeTo s k = some (hop :: r)) : CtlHanded (tellAll s p f ks) (hopPort s.variant hop) (f k) := by
  have hstands : ∀ (l : List Nat) (w : State) (q : Nat) (o : Out), CtlHanded w q o → CtlHanded (tellAll w p f l) q o := fun l w q o h =>
    forAll_rel (R := fun a b => CtlHanded a q o → CtlHanded b q o) (fun _ => id) (fun h h' => h' ∘ h)
      (fun t j h => h.sendCtl p j _) l w h
  induction ks generalizing s with
  | nil => exact absurd hk nofun
  | cons j ks ih =>
    show CtlHanded (tellAll (sendCtl s p j (routeTo s j) (f j)) p f ks) _ _
    by_cases hjk : k = j
    · subst hjk
      refine hstands ks _ _ _ ?_
      rw [hroute]
      exact ctlHanded_sendCtl hmine
    · have hsends := sendCtl_sends s p j (routeTo s j) (f j)
      have hvariant : (sendCtl s p j (routeTo s j) (f j)).variant = s.variant := by rw [hsends.rest]
      rw [← hvariant]
      refine ih ((List.mem_cons.1 hk).resolve_left hjk) ?_ ?_
      · rw [myPkg_of_sends hsends]
        exact hmine
      · rw [routeTo_congr (s := s) (by rw [hsends.rest]) hvariant (up_sendCtl s p j _ _)]
        exact hroute

/-! ### Room in the store -/

/-- What room being made leaves: entry `i` fits, and nothing but evictable bobbins has left the store (R241, R242). -/
structure Roomy (p i : Nat) (s w : State) : Prop where
  rest : w = { s with parts := w.parts }
  part : w.part p = { s.part p with bobbins := (w.part p).bobbins }
  fits : roomFor w p i = true
  kept : ∀ j, j = i ∨ evictable s p j = false → bobbin w p j = bobbin s p j

/-- Between `s` and `w` bobbins of the list left the store. -/
structure Evicts (p : Nat) (l : List (Nat × Bobbin)) (s w : State) : Prop where
  rest : w = { s with parts := w.parts }
  part : w.part p = { s.part p with bobbins := (w.part p).bobbins }
  kept : ∀ j, (∀ e ∈ l, e.1 ≠ j) → bobbin w p j = bobbin s p j

theorem Evicts.refl (p : Nat) (l : List (Nat × Bobbin)) (s : State) : Evicts p l s s := ⟨rfl, rfl, fun _ _ => rfl⟩

theorem Evicts.trans {l : List (Nat × Bobbin)} (h : Evicts p l s t) (h' : Evicts p l t u) : Evicts p l s u :=
  ⟨by rw [h'.rest, h.rest], by rw [h'.part, h.part], fun j hj => (h'.kept j hj).trans (h.kept j hj)⟩

theorem leaveStore_evicts {l : List (Nat × Bobbin)} {e : Nat × Bobbin} (s : State) (p : Nat) (he : e ∈ l) :
    Evicts p l s (leaveStore s p e.1) :=
  ⟨rfl, by rw [leaveStore, modBobbin, part_modPart_self], fun j hj => bobbin_modBobbin_ne s p _ (hj e he).symm⟩

theorem forAll_evicts {l m : List (Nat × Bobbin)} (c : State → Bool) (hl : ∀ e ∈ l, e ∈ m) (s : State) :
    Evicts p m s (forAll l (fun w e => if c w then w else leaveStore w p e.1) s) := by
  induction l generalizing s with
  | nil => exact .refl p m s
  | cons e l ih =>
    refine Evicts.trans ?_ (ih (fun x hx => hl x (List.mem_cons_of_mem _ hx)) _)
    show Evicts p m s (if c s then s else leaveStore s p e.1)
    split
    · exact .refl p m s
    · exact leaveStore_evicts s p (hl e List.mem_cons_self)

theorem forAll_of_fits {l : List (Nat × Bobbin)} (h : roomFor s p i = true) :
    forAll l (fun w e => if roomFor w p i then w else leaveStore w p e.1) s = s := by
  induction l with
  | nil => rfl
  | cons e l ih =>
    show forAll l _ (if roomFor s p i then s else _) = s
    rw [if_pos h]
    exact ih

/-- R242: evictions go on until the entry fits. -/
theorem fits_after_evictions {l : List (Nat × Bobbin)} (h : roomFor (forAll l (fun w e => leaveStore w p e.1) s) p i = true) :
    roomFor (forAll l (fun w e => if roomFor w p i then w else leaveStore w p e.1) s) p i = true := by
  induction l generalizing s with
  | nil => exact h
  | cons e l ih =>
    by_cases hfits : roomFor s p i = true
    · rw [forAll_of_fits hfits]
      exact hfits
    · show roomFor (forAll l _ (if roomFor s p i then s else leaveStore s p e.1)) p i = true
      rw [if_neg hfits]
      exact ih h

theorem makeRoom_roomy (h : makeRoom s p i = some w) : Roomy p i s w := by
  have hmake : makeRoom s p i = if !roomFor (forAll (roomList s p i) (fun w e => leaveStore w p e.1) s) p i then none
      else some (forAll (roomList s p i) (fun w e => if roomFor w p i then w else leaveStore w p e.1) s) := rfl
  rw [hmake] at h
  split at h
  · cases h
  · next hroom =>
    obtain rfl := Option.some.inj h
    obtain ⟨hrest, hpart, hkept⟩ := forAll_evicts (p := p) (m := roomList s p i) (fun w => roomFor w p i) (fun _ => id) s
    refine ⟨hrest, hpart, fits_after_evictions (by simpa using hroom), fun j hj => hkept j fun e he heq => ?_⟩
    have hcond := (List.mem_filter.1 (List.mem_mergeSort.1 he)).2
    rw [heq] at hcond
    rcases hj with rfl | hj
    · simp at hcond
    · simp [hj] at hcond

/-! ### A fill starts -/

/-- The state in which a fill has its places and asks `ps`. -/
def fillOpened (s : State) (p i : Nat) (ps : List Nat) : State :=
  (takePlaces s p i).modPart p fun x => { x with fill := some { bobbin := i, probing := ps, probeAt := time s } }

theorem exec_fillStart (now : Nat) (hup : engines s = true) (hactive : active s p = true) (hfill : (s.part p).fill = none)
    (hnext : nextFetch s p = some i) : exec (.fillStart now p) s = .next
      (if (bobbin s p i).bad then failFetch (advance s now) p i 0x0402
       else if (s.part p).storeBytes < (bobbin s p i).bytes + pinnedBytes s p i then failFetch (advance s now) p i 0x0603
       else match makeRoom (advance s now) p i with
        | none => advance s now
        | some w => probed (tellAll (fillOpened w p i (peerSources w p)) p
            (fun k => .probe k (askedDigest (bobbin s p i)) (heldChunks (bobbin s p i))) (peerSources w p)) p) := by
  have hactive' : active (advance s now) p = true := by
    rw [advance_eq]
    exact hactive
  have hnext' : nextFetch (advance s now) p = some i := by
    rw [advance_eq]
    exact hnext
  have hb : bobbin (advance s now) p i = bobbin s p i := by
    rw [advance_eq]
    rfl
  have hpin : pinnedBytes (advance s now) p i = pinnedBytes s p i := by
    rw [advance_eq]
    rfl
  have hstore : ((advance s now).part p).storeBytes = (s.part p).storeBytes := by
    rw [advance_eq]
    rfl
  refine (timed_of s (by simp [hup, hactive', hfill, hnext']) : execFillStart now p s = _).trans ?_
  simp only [hnext', hb, hpin, hstore]
  rfl

theorem part_fillOpened (s : State) (p i : Nat) (ps : List Nat) :
    ((fillOpened s p i ps).part p).fill = some { bobbin := i, probing := ps, probeAt := time s } := by
  rw [fillOpened, part_modPart_self]

theorem bobbin_fillOpened_self (s : State) (p i : Nat) (ps : List Nat) : bobbin (fillOpened s p i ps) p i
    = { bobbin s p i with places := (placeChunks (s.part p) i (bobbin s p i)).getD [] } := by
  rw [bobbin_congr (s := takePlaces s p i) (by rw [fillOpened, part_modPart_self])]
  exact bobbin_modBobbin_self s p i _

theorem bobbin_fillOpened_ne {j : Nat} (s : State) (p : Nat) (ps : List Nat) (h : j ≠ i) :
    bobbin (fillOpened s p i ps) p j = bobbin s p j := by
  rw [bobbin_congr (s := takePlaces s p i) (by rw [fillOpened, part_modPart_self])]
  exact bobbin_modBobbin_ne s p _ h

theorem fill_of_sends (h : Sends s t) (p : Nat) : (t.part p).fill = (s.part p).fill := by rw [h.part p]

theorem bobbin_of_sends (h : Sends s t) (p j : Nat) : bobbin t p j = bobbin s p j := bobbin_congr (by rw [h.part p]) j

/-- R214: the places of an entry that fits. -/
theorem places_of_fits (h : roomFor s p i = true) : placeChunks (s.part p) i (bobbin s p i)
    = some ((placeChunks (s.part p) i (bobbin s p i)).getD []) := by
  obtain ⟨l, hl⟩ := Option.isSome_iff_exists.1 h
  rw [hl]
  rfl

theorem probed_of_probing {f : Fill} (h : (s.part p).fill = some f) (hprobing : f.probing ≠ []) : probed s p = s := by
  simp only [probed, h]
  rw [if_neg (by simpa using hprobing)]

theorem probed_of_none {f : Fill} (h : (s.part p).fill = some f) (hprobing : f.probing = []) :
    probed s p = dealFill s p (openChunks (bobbin s p f.bobbin) f) := by
  simp only [probed, h, hprobing]
  rfl

theorem fill_modFill {f : Fill} (h : (s.part p).fill = some f) (g : Fill → Fill) : ((modFill s p g).part p).fill = some (g f) := by
  rw [modFill, part_modPart_self, h]
  rfl

theorem bobbin_modFill (s : State) (p : Nat) (g : Fill → Fill) (j : Nat) : bobbin (modFill s p g) p j = bobbin s p j :=
  bobbin_congr (by rw [modFill, part_modPart_self]) j

/-! ### Chunks are dealt -/

theorem dealFill_peers {f : Fill} (h : (s.part p).fill = some f) (hpeers : f.peers ≠ []) (cs : List Nat) :
    (dealFill s p cs).steps = s.steps
      ∧ ((dealFill s p cs).part p).fill = some { f with deal := dealTo (bobbin s p f.bobbin).image f cs } := by
  have hsends : Sends (modFill s p fun _ => { f with deal := dealTo (bobbin s p f.bobbin).image f cs }) (dealFill s p cs) := by
    simp only [dealFill, h]
    rw [if_pos (by simpa using hpeers)]
    exact forAll_sends (fun t k => by
      extract_lets mine
      split
      · exact .refl t
      · exact sendCtl_sends ..) _ _
  refine ⟨?_, ?_⟩
  · rw [hsends.rest]
    rfl
  · rw [fill_of_sends hsends, fill_modFill h]

/-- A fill's chunks come from the backing copy. -/
def fromHost (cs : List Nat) (f : Fill) : Fill := { f with backing := true, deal := cs.foldl (fun t c => tput t c hostSource) f.deal }

theorem dealFill_backing {f : Fill} (h : (s.part p).fill = some f) (hpeers : f.peers = [])
    (hbacking : backingOk s p (bobbin s p f.bobbin) = true) (cs : List Nat) : dealFill s p cs = modFill s p (fromHost cs) := by
  simp only [dealFill, h, hpeers, hbacking]
  rfl

theorem dealFill_none {f : Fill} (h : (s.part p).fill = some f) (hpeers : f.peers = [])
    (hbacking : backingOk s p (bobbin s p f.bobbin) = false) (cs : List Nat) : dealFill s p cs = failFetch s p f.bobbin 0x0602 := by
  simp only [dealFill, h, hpeers, hbacking]
  rfl

theorem openChunks_of_fresh (b : Bobbin) {f : Fill} (h : f.done = []) : openChunks b f = heldChunks b := by
  simp [openChunks, h]

theorem peerSources_congr (hsources : (t.part p).sources = (s.part p).sources) (hjobs : t.jobs = s.jobs) (hmine : myPkg t = myPkg s) :
    peerSources t p = peerSources s p := by
  simp only [peerSources, hsources, hjobs, hmine]

theorem myPkg_notMem_peerSources (s : State) (p : Nat) (h : k ∈ peerSources s p) : k ≠ myPkg s := by
  have := (List.mem_filter.1 (List.mem_dedup.1 h)).2
  simpa using this

/-- The partition once room has been made, at the time of the command. -/
structure FillRoom (now p i : Nat) (s s1 w : State) : Prop where
  made : makeRoom (advance s now) p i = some w
  rest : w = { s1 with aon := (advance s now).aon }
  roomy : Roomy p i s s1
  sources : peerSources w p = peerSources s p

theorem fillRoom (now : Nat) {s1 : State} (h : makeRoom s p i = some s1) :
    ∃ w, FillRoom now p i s s1 w := by
  have hroomy := makeRoom_roomy h
  refine ⟨{ s1 with aon := (advance s now).aon }, ?_, rfl, hroomy, ?_⟩
  · rw [advance_eq, makeRoom_aon, h]
    rfl
  · refine peerSources_congr ?_ ?_ ?_
    · show (s1.part p).sources = _
      rw [hroomy.part]
    · show s1.jobs = _
      rw [hroomy.rest]
    · exact myPkg_advance s now

theorem fillStart_peers {s1 : State} (now : Nat) (hup : engines s = true) (hactive : active s p = true) (hfill : (s.part p).fill = none)
    (hnext : nextFetch s p = some i) (hgood : (bobbin s p i).bad = false)
    (hfits : (bobbin s p i).bytes + pinnedBytes s p i ≤ (s.part p).storeBytes) (hroom : makeRoom s p i = some s1)
    (hpeers : peerSources s p ≠ []) : ∃ t, exec (.fillStart now p) s = .next t
      ∧ (t.part p).fill = some { bobbin := i, probing := peerSources s p, probeAt := time t }
      ∧ placeChunks (s1.part p) i (bobbin s1 p i) = some (bobbin t p i).places
      ∧ (∀ k ∈ peerSources s p, ∀ h r, routeTo s k = some (h :: r) →
          CtlHanded t (hopPort s.variant h) (.probe k (askedDigest (bobbin s p i)) (heldChunks (bobbin s p i))))
      ∧ (∀ j, j ≠ i → evictable s p j = false → bobbin t p j = bobbin s p j) ∧ t.steps = s.steps := by
  obtain ⟨w, hmade, hw, hroomy, hsources⟩ := fillRoom now hroom
  have hexec := exec_fillStart now hup hactive hfill hnext
  rw [if_neg (by simp [hgood]), if_neg (Nat.not_lt.2 hfits), hmade] at hexec
  simp only [hsources] at hexec
  have hsends := tellAll_sends (fillOpened w p i (peerSources s p)) p
    (fun k => .probe k (askedDigest (bobbin s p i)) (heldChunks (bobbin s p i))) (peerSources s p)
  have hopened : ((tellAll (fillOpened w p i (peerSources s p)) p
      (fun k => .probe k (askedDigest (bobbin s p i)) (heldChunks (bobbin s p i))) (peerSources s p)).part p).fill
        = some { bobbin := i, probing := peerSources s p, probeAt := time w } := (fill_of_sends hsends p).trans (part_fillOpened w p i _)
  rw [probed_of_probing hopened hpeers] at hexec
  have hparts : w.part p = s1.part p := by rw [hw]; rfl
  have hb : bobbin w p i = bobbin s1 p i := by rw [hw]; rfl
  refine ⟨_, hexec, hopened.trans ?_, ?_, fun k hk hop r hroute => ?_, fun j hj hev => ?_, ?_⟩
  · rw [time, hsends.rest]
    rfl
  · rw [bobbin_of_sends hsends, bobbin_fillOpened_self, hparts, hb]
    exact places_of_fits hroomy.fits
  · have hmine := myPkg_notMem_peerSources s p hk
    have hvariant : w.variant = s.variant := by rw [hw, hroomy.rest]
    have hcoords : (fillOpened w p i (peerSources s p)).aon.coords = s.aon.coords := by
      show w.aon.coords = _
      rw [hw]
      exact advance_aon_coords s now
    have hroute' : routeTo (fillOpened w p i (peerSources s p)) k = some (hop :: r) := by
      refine (routeTo_congr (t := fillOpened w p i (peerSources s p)) hcoords hvariant (fun q => ?_) k).trans hroute
      show (w.port q).up = _
      rw [hw, hroomy.rest]
      rfl
    have hmine' : k ≠ myPkg (fillOpened w p i (peerSources s p)) := fun h => hmine (h.trans (myPkg_congr hcoords))
    exact hvariant ▸ ctlHanded_tellAll hk hmine' hroute'
  · rw [bobbin_of_sends hsends, bobbin_fillOpened_ne w p _ hj, hw]
    exact hroomy.kept j (.inr hev)
  · rw [hsends.rest]
    show w.steps = _
    rw [hw, hroomy.rest]

theorem backingOk_congr (hbobbins : (t.part p).bobbins = (s.part p).bobbins) (hlife : t.life = s.life) (hhost : t.host = s.host) (b : Bobbin) :
    backingOk t p b = backingOk s p b := by
  rw [backingOk, backingOk, backedBy, backedBy, hbobbins, hlife, hhost]

/-- Without peers a fill is dealt at once. -/
theorem fillStart_alone {s1 : State} (now : Nat) (hup : engines s = true) (hactive : active s p = true) (hfill : (s.part p).fill = none)
    (hnext : nextFetch s p = some i) (hgood : (bobbin s p i).bad = false)
    (hfits : (bobbin s p i).bytes + pinnedBytes s p i ≤ (s.part p).storeBytes) (hroom : makeRoom s p i = some s1)
    (hpeers : peerSources s p = []) : ∃ v, exec (.fillStart now p) s = .next (dealFill v p (heldChunks (bobbin s p i)))
      ∧ (v.part p).fill = some { bobbin := i, probeAt := time v } ∧ v.steps = s.steps
      ∧ bobbin v p i = { bobbin s p i with places := (bobbin v p i).places }
      ∧ placeChunks (s1.part p) i (bobbin s1 p i) = some (bobbin v p i).places
      ∧ ∀ s2, s2 = takePlaces s1 p i → backingOk v p (bobbin v p i) = backingOk s2 p (bobbin s2 p i) := by
  obtain ⟨w, hmade, hw, hroomy, hsources⟩ := fillRoom now hroom
  have hexec := exec_fillStart now hup hactive hfill hnext
  rw [if_neg (by simp [hgood]), if_neg (Nat.not_lt.2 hfits), hmade] at hexec
  simp only [hsources, hpeers] at hexec
  have hopened : ((fillOpened w p i []).part p).fill = some { bobbin := i, probeAt := time w } := part_fillOpened w p i []
  have hparts : w.part p = s1.part p := by rw [hw]; rfl
  have hb : bobbin w p i = bobbin s p i := by
    rw [hw]
    exact hroomy.kept i (.inl rfl)
  have hself := bobbin_fillOpened_self w p i []
  have hs1 : bobbin s1 p i = bobbin s p i := hroomy.kept i (.inl rfl)
  have htold : probed (tellAll (fillOpened w p i []) p (fun k => .probe k (askedDigest (bobbin s p i)) (heldChunks (bobbin s p i))) []) p
      = dealFill (fillOpened w p i []) p (heldChunks (bobbin s p i)) := by
    refine (probed_of_none hopened rfl).trans ?_
    rw [openChunks_of_fresh _ rfl, hself, hb]
    rfl
  rw [htold] at hexec
  refine ⟨_, hexec, hopened, ?_, ?_, ?_, ?_⟩
  · show w.steps = _
    rw [hw, hroomy.rest]
  · rw [hself, hb]
  · rw [hself, hparts, hb, hs1]
    exact hs1 ▸ places_of_fits hroomy.fits
  · rintro s2 rfl
    have hbobbins : ((fillOpened w p i []).part p).bobbins = ((takePlaces s1 p i).part p).bobbins := by
      rw [fillOpened, part_modPart_self, hw]
      rfl
    rw [bobbin_congr hbobbins, backingOk_congr hbobbins]
    · show w.life = s1.life
      rw [hw]
    · show w.host = s1.host
      rw [hw]

/-! ### A probe that is not answered (R235) -/

theorem exec_peerProbeTimeout {f : Fill} {pkg : Nat} (now : Nat) (hup : engines s = true) (hfill : (s.part p).fill = some f)
    (hin : pkg ∈ f.probing) (hlate : 50000 + f.probeAt < time (advance s now)) : exec (.peerProbeTimeout now p pkg) s
      = .next (probed (modFill (advance s now) p fun f => { f with probing := f.probing.erase pkg }) p) := by
  have hfill' : ((advance s now).part p).fill = some f := by
    rw [advance_eq]
    exact hfill
  exact (timed_of s (by simp [hup, hfill, hin, hlate]) : execPeerProbeTimeout now p pkg s = _)

/-! ### A chunk arrives (R227, R234, R245) -/

/-- Between `s` and `t` traffic was counted and an engine's account kept. -/
structure Counts (s t : State) : Prop where
  rest : t = { s with parts := t.parts, pmc := t.pmc, fresh := t.fresh, engRecs := t.engRecs }
  part : ∀ q, t.part q = { s.part q with counters := (t.part q).counters }

theorem Counts.refl (s : State) : Counts s s := ⟨rfl, fun _ => rfl⟩

theorem Counts.trans (h : Counts s t) (h' : Counts t u) : Counts s u := ⟨by rw [h'.rest, h.rest], fun q => by rw [h'.part, h.part]⟩

theorem countGlobal_counts (s : State) (j n : Nat) : Counts s (countGlobal s j n) := by
  unfold countGlobal
  split
  · exact .refl s
  · exact ⟨rfl, fun _ => rfl⟩

theorem ingest_counts (s : State) (p n : Nat) : Counts s (ingest s p n).2 := by
  have hcount : Counts s (count s p 0x0C n) := by
    unfold count
    split
    · exact .refl s
    · refine ⟨rfl, fun q => ?_⟩
      by_cases hq : q = p
      · subst hq
        rw [part_modPart_self]
      · rw [part_modPart_ne _ _ hq]
  exact hcount.trans ⟨rfl, fun _ => rfl⟩

theorem ingest_die (s : State) (p n : Nat) (hdies : ∀ d ∈ partDies (s.part p), d < 32) : (ingest s p n).1 < 32 := by
  have hdie : ∀ (l : List Nat) (k : Nat), (∀ d ∈ l, d < 32) → nth l k 0 < 32 := fun l k hl => by
    unfold nth
    by_cases hk : k < l.length
    · rw [List.getD_eq_getElem _ _ hk]
      exact hl _ (List.getElem_mem hk)
    · rw [List.getD_eq_default _ _ (Nat.le_of_not_lt hk)]
      omega
  refine hdie (partDies ((draw (count s p 0x0C n)).2.part p)) _ fun d hd => hdies d ?_
  have hpart := (count_sends s p 0x0C n).part p
  rwa [show (draw (count s p 0x0C n)).2.part p = (count s p 0x0C n).part p from rfl, hpart] at hd

theorem Counts.fill (h : Counts s t) (p : Nat) : (t.part p).fill = (s.part p).fill := by rw [h.part p]

theorem Counts.bobbin (h : Counts s t) (p j : Nat) : bobbin t p j = bobbin s p j := bobbin_congr (by rw [h.part p]) j

theorem Counts.backingOk (h : Counts s t) (p : Nat) (b : Bobbin) : Machine.backingOk t p b = Machine.backingOk s p b :=
  backingOk_congr (by rw [h.part p]) (by rw [h.rest]) (by rw [h.rest]) b

/-- A chunk's data has been taken, and is in its place if it has its digest. -/
def chunkTaken (s : State) (p pkg n : Nat) : State := (ingest (if pkg = hostSource then countGlobal s 3 n else s) p n).2

theorem chunkTaken_counts (s : State) (p pkg n : Nat) : Counts s (chunkTaken s p pkg n) := by
  unfold chunkTaken
  refine Counts.trans ?_ (ingest_counts _ p n)
  split
  · exact countGlobal_counts s 3 n
  · exact .refl s

/-- The image with a chunk's data in its place. -/
def chunkWritten (b : Bobbin) (chunk : Nat) (d : List Byte) (x : Bobbin) : Bobbin :=
  { x with image := x.image.take (imgTables b.image + chunkOff b.image chunk) ++ d
      ++ x.image.drop (imgTables b.image + chunkOff b.image chunk + d.length) }

variable {f : Fill} {pkg chunk : Nat} {d : List Byte}

theorem exec_chunkArrival_stray (now gen : Nat) (data : List Byte) (hup : engines s = true) (hactive : active s p = true)
    (hfill : (s.part p).fill = some f)
    (hstray : gen ≠ tget s.partGen p 0 ∨ chunk ∈ f.done ∨ tfind f.deal chunk ≠ some pkg) :
    exec (.chunkArrival now p pkg chunk ⟨gen, data⟩) s = .next (advance s now) := by
  have hactive' : active (advance s now) p = true := by
    rw [advance_eq]
    exact hactive
  have hfill' : ((advance s now).part p).fill = some f := by
    rw [advance_eq]
    exact hfill
  have hgen : (advance s now).partGen = s.partGen := by rw [advance_eq]
  refine (timed_of s (by simp [hup, hactive', hfill]) : execChunkArrival now p pkg chunk ⟨gen, data⟩ s = _).trans ?_
  simp only [hfill', hgen]
  rw [if_pos (by simpa [or_assoc] using hstray)]

theorem chunkData_advance (s : State) (now p : Nat) (b : Bobbin) (pkg chunk : Nat) (data : List Byte) :
    chunkData (advance s now) p b pkg chunk data = chunkData s p b pkg chunk data := by
  rw [advance_eq]
  rfl

/-- The state in which a chunk is taken, but for time and traffic, is the one it was asked in. -/
structure ChunkStands (now : Nat) (s : State) (p : Nat) (f : Fill) : Prop where
  active : active (advance s now) p = true
  fill : ((advance s now).part p).fill = some f
  gen : (advance s now).partGen = s.partGen
  entry : bobbin (advance s now) p f.bobbin = bobbin s p f.bobbin
  quiet : ∀ u k e, armed (advance s now) u k e = false

theorem chunkStands (now : Nat) (hactive : active s p = true) (hfill : (s.part p).fill = some f) (hinject : s.coll.inject = []) :
    ChunkStands now s p f := by
  refine ⟨?_, ?_, ?_, ?_, fun u k e => ?_⟩
  · rw [advance_eq]
    exact hactive
  · rw [advance_eq]
    exact hfill
  · rw [advance_eq]
  · rw [advance_eq]
    rfl
  · rw [armed, advance_eq]
    simp [hinject]

/-- R486: a chunk of the backing copy that does not open ends the fill. -/
theorem exec_chunkArrival_sealed (now : Nat) (data : List Byte) (hup : engines s = true) (hactive : active s p = true)
    (hfill : (s.part p).fill = some f) (hnew : chunk ∉ f.done) (hasked : tfind f.deal chunk = some pkg) (hinject : s.coll.inject = [])
    (hdata : chunkData s p (bobbin s p f.bobbin) pkg chunk data = none) :
    exec (.chunkArrival now p pkg chunk ⟨tget s.partGen p 0, data⟩) s
      = .next (failFetch (reportCode (advance s now) 0xA501) p f.bobbin 0x0602) := by
  obtain ⟨hactive', hfill', hgen, hb, hquiet⟩ := chunkStands now hactive hfill hinject
  refine (timed_of s (by simp [hup, hactive', hfill]) : execChunkArrival now p pkg chunk _ s = _).trans ?_
  simp only [hfill', hgen, hb, chunkData_advance, hdata, hquiet]
  rw [if_neg (by simp [hnew, hasked])]
  rfl

/-- What becomes of a chunk that was asked of its source and has arrived whole. -/
theorem exec_chunkArrival_data (now : Nat) (data : List Byte) (hup : engines s = true) (hactive : active s p = true)
    (hfill : (s.part p).fill = some f) (hnew : chunk ∉ f.done) (hasked : tfind f.deal chunk = some pkg) (hinject : s.coll.inject = [])
    (hdata : chunkData s p (bobbin s p f.bobbin) pkg chunk data = some d) (hlen : d.length = chunkLen (bobbin s p f.bobbin).image chunk) :
    ∃ die, ((∀ e ∈ partDies (s.part p), e < 32) → die < 32) ∧ exec (.chunkArrival now p pkg chunk ⟨tget s.partGen p 0, data⟩) s = .next
      (if slice (chunkEntry (bobbin s p f.bobbin).image chunk) 16 48 = digestBytes (Config.sha384 d) then
        modFill (healChunk (modBobbin (chunkTaken (advance s now) p pkg d.length) p f.bobbin
          (chunkWritten (bobbin s p f.bobbin) chunk d)) p (bobbin s p f.bobbin) chunk) p fun f => { f with done := f.done ++ [chunk] }
      else if (tfind f.failed chunk).isSome then failFetch (chunkTaken (advance s now) p pkg d.length) p f.bobbin 0x0604
      else report (refetch (chunkTaken (advance s now) p pkg d.length) p chunk pkg) { code := mkCode 1 die 0x11, engine := 2048 + die }) := by
  obtain ⟨hactive', hfill', hgen, hb, hquiet⟩ := chunkStands now hactive hfill hinject
  let v := if pkg = hostSource then countGlobal (advance s now) 3 d.length else advance s now
  have hv : Counts (advance s now) v := by
    unfold v
    split
    · exact countGlobal_counts ..
    · exact .refl _
  have hchecked : ∀ w u k e, w.coll = (advance s now).coll → check w u k e [] = w := fun w u k e hw => by
    have := hquiet u k e
    rw [armed, ← hw] at this
    rw [check, armed, this]
    rfl
  refine ⟨(ingest v p d.length).1, fun hdies => ingest_die v p _ fun e he => hdies e ?_, ?_⟩
  · rw [hv.part p] at he
    rw [advance_eq] at he
    exact he
  · refine (timed_of s (by simp [hup, hactive', hfill]) : execChunkArrival now p pkg chunk _ s = _).trans ?_
    simp only [hfill', hgen, hb, chunkData_advance, hdata]
    rw [if_neg (by simp [hnew, hasked]), if_neg (by simp [hlen])]
    refine congrArg _ ?_
    show (if _ then check _ _ 11 _ [] else _) = _
    rw [hchecked]
    · rfl
    · show (ingest v p d.length).2.coll = _
      rw [(ingest_counts v p _).rest]
      show v.coll = _
      rw [hv.rest]

/-- A corrected fault shows in the collector, the pins and the messages alone. -/
theorem report_of_corrected (s : State) {r : Report} (hclass : codeClass r.code = 1) :
    report s r = { s with aon := (report s r).aon, coll := (report s r).coll, out := (report s r).out } := by
  unfold report
  extract_lets u v w
  split
  · rfl
  · split
    · rfl
    · rw [withIbi_eq]
      unfold w
      split <;> rfl

/-- Where a chunk that failed its digest is fetched from again (R227, R234). -/
def refetchFrom (s : State) (p : Nat) (f : Fill) (src : Nat) : Nat :=
  if src = hostSource then src
  else match f.peers.filter (· != src) with
    | k :: _ => k
    | [] => if backingOk s p (bobbin s p f.bobbin) then hostSource else src

theorem refetch_sends (hfill : (s.part p).fill = some f) (chunk src : Nat) :
    Sends (modFill s p fun _ => { f with failed := tput f.failed chunk src, deal := tput f.deal chunk (refetchFrom s p f src) })
      (refetch s p chunk src) := by
  simp only [refetch, hfill]
  exact forAll_sends (fun t k => by
    extract_lets mine
    split
    · exact .refl t
    · exact sendCtl_sends ..) _ _

/-- A fill complete: its image is resident (R230). -/
def filled (s : State) (p : Nat) (f : Fill) (x : Bobbin) : Bobbin :=
  { x with state := 2, source := if f.backing then 2 else 1
           lastUse := if (waitersOf s p f.bobbin).isEmpty then time s else x.lastUse }

theorem exec_fillComplete (now : Nat) (hup : engines s = true) (hactive : active s p = true) (hfill : (s.part p).fill = some f)
    (hwhole : openChunks (bobbin s p f.bobbin) f = []) : exec (.fillComplete now p) s = .next
      (if !imageChecked (bobbin s p f.bobbin).image (heldChunks (bobbin s p f.bobbin))
       then failFetch (modBobbin (advance s now) p f.bobbin badBobbin) p f.bobbin 0x0402
       else modBobbin ((advance s now).modPart p fun x => { x with fill := none }) p f.bobbin (filled (advance s now) p f)) := by
  have hactive' : active (advance s now) p = true := by
    rw [advance_eq]
    exact hactive
  have hfill' : ((advance s now).part p).fill = some f := by
    rw [advance_eq]
    exact hfill
  have hb : bobbin (advance s now) p f.bobbin = bobbin s p f.bobbin := by
    rw [advance_eq]
    rfl
  refine (timed_of s (by simp [hup, hactive', hfill, hb, hwhole]) : execFillComplete now p s = _).trans ?_
  simp only [hfill', hb]
  rfl

/-! ### A probe from a peer (R235) -/

theorem exec_peerProbe (now pkg asker : Nat) (digest : BitVec 384) (chunks : List Nat) (enrolled : Bool) (hup : engines s = true)
    (hactive : active s p = true) : exec (.peerProbe now p pkg ⟨asker, digest, chunks⟩ enrolled) s
      = .next (sendCtl (advance s now) p pkg (routeTo s pkg) (.ctl pkg (.probeAnswer asker (myPkg s) digest
          (if enrolled = true ∧ (servable s p pkg digest chunks).isSome = true then chunks else []) (serveRate (s.part p))))) := by
  have hactive' : active (advance s now) p = true := by
    rw [advance_eq]
    exact hactive
  have hroute : routeTo (advance s now) pkg = routeTo s pkg :=
    routeTo_congr (advance_aon_coords s now) (by rw [advance_eq]) (fun q => by rw [advance_port]) pkg
  have hservable : servable (advance s now) p pkg digest chunks = servable s p pkg digest chunks := by
    have hpart : (advance s now).part p = s.part p := by
      rw [advance_eq]
      rfl
    have hbacking : ∀ b, backingOk (advance s now) p b = backingOk s p b := fun b =>
      backingOk_congr (by rw [hpart]) (by rw [advance_eq]) (by rw [advance_eq]) b
    simp only [servable, hpart, myPkg_advance, hbacking, advance_jobs]
  have hrate : serveRate ((advance s now).part p) = serveRate (s.part p) := by
    rw [advance_eq]
    rfl
  refine (timed_of s (by simp [hup, hactive']) : execPeerProbe now p pkg ⟨asker, digest, chunks⟩ enrolled s = _).trans ?_
  simp only [hroute, hservable, hrate, myPkg_advance, Bool.and_eq_true]

/-- A fill that fails before it is begun. -/
theorem failFetch_of_none (t : State) (i : Nat) (status : Code) (hfill : (t.part p).fill = none)
    (hwaiters : waitersOf t p i = waitersOf s p i) (hsteps : t.steps = s.steps) :
    ((failFetch t p i status).part p).fill = none ∧ (bobbin (failFetch t p i status) p i).state = 0
      ∧ ∀ k st, k ∈ waitersOf s p i → tfind s.steps k = some st → Undecided st → FailsWith (failFetch t p i status) k status := by
  obtain ⟨hnone, hentry, hfails⟩ := failFetch_spec t p i status (fun f hf => by rw [hfill] at hf; cases hf)
  exact ⟨hnone, by rw [hentry], hwaiters ▸ hsteps ▸ hfails⟩

/-- R230: a whole and checked image is resident. -/
theorem fillComplete_good (now : Nat) (hup : engines s = true) (hactive : active s p = true) (hfill : (s.part p).fill = some f)
    (hwhole : openChunks (bobbin s p f.bobbin) f = [])
    (hgood : imageChecked (bobbin s p f.bobbin).image (heldChunks (bobbin s p f.bobbin)) = true) :
    ∃ t, exec (.fillComplete now p) s = .next t ∧ (t.part p).fill = none ∧ resident t p f.bobbin = (bobbin s p f.bobbin).live
      ∧ (bobbin t p f.bobbin).source = (if f.backing then 2 else 1) ∧ (bobbin t p f.bobbin).image = (bobbin s p f.bobbin).image
      ∧ t.steps = s.steps ∧ t.funcs = s.funcs := by
  have hexec := exec_fillComplete now hup hactive hfill hwhole
  rw [if_neg (by simp [hgood])] at hexec
  have hself := bobbin_modBobbin_self ((advance s now).modPart p fun x => { x with fill := none }) p f.bobbin (filled (advance s now) p f)
  have hentry : bobbin ((advance s now).modPart p fun x => { x with fill := none }) p f.bobbin = bobbin s p f.bobbin :=
    bobbin_congr (by rw [part_modPart_self, advance_part]) f.bobbin
  rw [hentry] at hself
  refine ⟨_, hexec, ?_, ?_, ?_, ?_, ?_, ?_⟩
  · rw [modBobbin, part_modPart_self, part_modPart_self]
  · rw [resident_iff, hself]
    simp [filled]
  · rw [hself]
    rfl
  · rw [hself]
    rfl
  · exact advance_steps s now
  · exact advance_funcs s now

/-- R132: a whole image that does not check is bad. -/
theorem fillComplete_bad (now : Nat) (hup : engines s = true) (hactive : active s p = true) (hfill : (s.part p).fill = some f)
    (hwhole : openChunks (bobbin s p f.bobbin) f = [])
    (hbad : imageChecked (bobbin s p f.bobbin).image (heldChunks (bobbin s p f.bobbin)) = false) :
    ∃ t, exec (.fillComplete now p) s = .next t ∧ (t.part p).fill = none ∧ (bobbin t p f.bobbin).bad = true
      ∧ (bobbin t p f.bobbin).state = 0
      ∧ ∀ k st, k ∈ waitersOf s p f.bobbin → tfind s.steps k = some st → Undecided st → FailsWith t k 0x0402 := by
  have hexec := exec_fillComplete now hup hactive hfill hwhole
  rw [if_pos (by simp [hbad])] at hexec
  have hself := bobbin_modBobbin_self (advance s now) p f.bobbin badBobbin
  have hwaiters : waitersOf (modBobbin (advance s now) p f.bobbin badBobbin) p f.bobbin = waitersOf s p f.bobbin :=
    (waitersOf_modBobbin (advance s now) p f.bobbin f.bobbin (f := badBobbin) fun _ => ⟨rfl, rfl⟩).trans (waitersOf_advance s now p f.bobbin)
  obtain ⟨hnone, hgone, hfails⟩ := failFetch_spec (modBobbin (advance s now) p f.bobbin badBobbin) p f.bobbin 0x0402 (fun g hg => by
    rw [modBobbin, part_modPart_self, advance_part] at hg
    exact Option.some.inj (hfill.symm.trans hg) ▸ rfl)
  have hsteps : (modBobbin (advance s now) p f.bobbin badBobbin).steps = s.steps := advance_steps s now
  refine ⟨_, hexec, hnone, ?_, ?_, hwaiters ▸ hsteps ▸ hfails⟩
  · rw [hgone, hself]
    rfl
  · rw [hgone]

/-- Settles O32. -/
theorem bobbinFills : Obligations.BobbinFills := by
  unfold Obligations.BobbinFills
  refine ⟨fun s now p i hup hactive hfill hnext => ⟨fun hbad => ?_, fun hgood hbig => ?_, fun hgood hfits => ⟨fun hroom => ?_,
      fun s1 s2 hroom hs2 => ⟨fun hpeers => ?_, fun hpeers hbacking => ?_, fun hpeers hbacking => ?_⟩⟩⟩,
    fun s now p pkg f hup hfill hin hlate => ?_,
    fun s now p pkg asker digest chunks enrolled hup hactive => ?_,
    fun s now p gen pkg chunk data f hup hactive hfill => ⟨fun hstray => ?_, fun hgen hnew hasked hinject hdies => ?_⟩,
    fun s now p f hup hactive hfill hwhole => ⟨fun hgood => ?_, fun hbad => ?_⟩⟩
  · have hexec := exec_fillStart now hup hactive hfill hnext
    rw [if_pos hbad] at hexec
    exact ⟨_, hexec, failFetch_of_none (advance s now) i 0x0402 (by rw [advance_part, hfill]) (waitersOf_advance s now p i)
      (advance_steps s now)⟩
  · have hexec := exec_fillStart now hup hactive hfill hnext
    rw [if_neg (by simp [hgood]), if_pos hbig] at hexec
    exact ⟨_, hexec, failFetch_of_none (advance s now) i 0x0603 (by rw [advance_part, hfill]) (waitersOf_advance s now p i)
      (advance_steps s now)⟩
  · have hexec := exec_fillStart now hup hactive hfill hnext
    rw [if_neg (by simp [hgood]), if_neg (Nat.not_lt.2 hfits)] at hexec
    have hnone : makeRoom (advance s now) p i = none := by
      rw [advance_eq, makeRoom_aon, hroom]
      rfl
    rw [hnone] at hexec
    exact hexec
  · exact fillStart_peers now hup hactive hfill hnext hgood hfits hroom hpeers
  · obtain ⟨v, hexec, hopened, hsteps, -, hplaces, hok⟩ := fillStart_alone now hup hactive hfill hnext hgood hfits hroom hpeers
    rw [dealFill_backing hopened rfl ((hok s2 hs2).trans hbacking)] at hexec
    refine ⟨_, hexec, hsteps, ?_, ?_⟩
    · rw [bobbin_modFill]
      exact hplaces
    · rw [fill_modFill hopened]
      rfl
  · obtain ⟨v, hexec, hopened, hsteps, -, -, hok⟩ := fillStart_alone now hup hactive hfill hnext hgood hfits hroom hpeers
    rw [dealFill_none hopened rfl ((hok s2 hs2).trans hbacking)] at hexec
    obtain ⟨hnone, hentry, hfails⟩ := failFetch_spec v p i 0x0602 (fun f hf => by rw [hopened] at hf; exact Option.some.inj hf ▸ rfl)
    refine ⟨_, hexec, hnone, by rw [hentry], fun k st hst hpart hown hstate => ?_⟩
    rw [← hsteps] at hst
    exact hfails k st (mem_waitersOf_own hst hpart hown hstate) hst
  · intro b
    have hexec := exec_peerProbeTimeout now hup hfill hin hlate
    have hfill' : ((advance s now).part p).fill = some f := by rw [advance_part, hfill]
    have hasked := fill_modFill hfill' fun f => { f with probing := f.probing.erase pkg }
    have hb : bobbin (modFill (advance s now) p fun f => { f with probing := f.probing.erase pkg }) p f.bobbin = b := by
      rw [bobbin_modFill, bobbin_congr (s := s) (by rw [advance_part])]
    have hbacking : backingOk (modFill (advance s now) p fun f => { f with probing := f.probing.erase pkg }) p b = backingOk s p b :=
      backingOk_congr (by rw [modFill, part_modPart_self, advance_part]) (by rw [advance_eq]; rfl) (by rw [advance_eq]; rfl) b
    have hsteps : (modFill (advance s now) p fun f => { f with probing := f.probing.erase pkg }).steps = s.steps := advance_steps s now
    have hout : (modFill (advance s now) p fun f => { f with probing := f.probing.erase pkg }).out = s.out := by
      rw [advance_eq]
      rfl
    have hwaiters : waitersOf (modFill (advance s now) p fun f => { f with probing := f.probing.erase pkg }) p f.bobbin
        = waitersOf s p f.bobbin := by
      refine (waitersOf_of_bobbins (s := advance s now) (t := modFill (advance s now) p _) rfl fun q => ?_).trans
        (waitersOf_advance s now p f.bobbin)
      by_cases hq : q = p
      · subst hq
        rw [modFill, part_modPart_self]
      · rw [modFill, part_modPart_ne _ _ hq]
    generalize modFill (advance s now) p (fun f => { f with probing := f.probing.erase pkg }) = w at *
    refine ⟨fun hleft => ?_, fun hlast hpeers => ?_, fun hlast hpeers hok => ?_, fun hlast hpeers hok => ?_⟩
    · rw [probed_of_probing hasked hleft] at hexec
      exact ⟨w, hexec, hasked, hsteps, hout⟩
    all_goals
      have hnone : f.probing.erase pkg = [] := by simp [hlast]
      rw [hnone] at hasked
      rw [probed_of_none hasked rfl, hb] at hexec
    · obtain ⟨hs, hf⟩ := dealFill_peers hasked hpeers (openChunks b { f with probing := [] })
      rw [hb] at hf
      exact ⟨_, hexec, hs.trans hsteps, hf⟩
    · rw [dealFill_backing hasked hpeers (by rw [hb, hbacking]; exact hok)] at hexec
      exact ⟨_, hexec, hsteps, hout, fill_modFill hasked _⟩
    · rw [dealFill_none hasked hpeers (by rw [hb, hbacking]; exact hok)] at hexec
      obtain ⟨hgone, hentry, hfails⟩ := failFetch_spec w p f.bobbin 0x0602 (fun g hg => by
        rw [hasked] at hg
        exact Option.some.inj hg ▸ rfl)
      exact ⟨_, hexec, hgone, by rw [hentry], hwaiters ▸ hsteps ▸ hfails⟩
  · intro got o
    have hexec := exec_peerProbe now pkg asker digest chunks enrolled hup hactive
    have hsends := sendCtl_sends (advance s now) p pkg (routeTo s pkg) o
    refine ⟨_, hexec, ?_, fun j => ?_, ?_, fun hmine => ?_, fun hop r hmine hroute => ?_⟩
    · rw [hsends.rest]
      exact advance_steps s now
    · rw [bobbin_of_sends hsends, bobbin_congr (s := s) (by rw [advance_part])]
    · rw [fill_of_sends hsends, advance_part]
    · unfold sendCtl
      rw [if_pos (hmine.trans (myPkg_advance s now).symm)]
      show o :: (advance s now).out = _
      rw [advance_out]
    · have hvariant : (advance s now).variant = s.variant := by rw [advance_eq]
      have hmine' : pkg ≠ myPkg (advance s now) := fun h => hmine (h.trans (myPkg_advance s now))
      have hhanded : CtlHanded (sendCtl (advance s now) p pkg (some (hop :: r)) o) (hopPort s.variant hop) o :=
        hvariant ▸ ctlHanded_sendCtl hmine'
      rw [hroute]
      exact hhanded
  · exact exec_chunkArrival_stray now gen data hup hactive hfill hstray
  · subst hgen
    intro b
    have hfill' : ((advance s now).part p).fill = some f := by rw [advance_part, hfill]
    refine ⟨fun hdata => ?_, fun d hdata hlen => ?_⟩
    · have hexec := exec_chunkArrival_sealed now data hup hactive hfill hnew hasked hinject hdata
      obtain ⟨hnone, hentry, -⟩ := failFetch_spec (reportCode (advance s now) 0xA501) p f.bobbin 0x0602 (fun g hg => by
        rw [reportCode_shape (by decide)] at hg
        exact Option.some.inj (hfill'.symm.trans hg) ▸ rfl)
      exact ⟨_, hexec, hnone, by rw [hentry]⟩
    · intro e o
      obtain ⟨die, hdie, hexec⟩ := exec_chunkArrival_data now data hup hactive hfill hnew hasked hinject hdata hlen
      have hcounts := chunkTaken_counts (advance s now) p pkg d.length
      have htaken : ((chunkTaken (advance s now) p pkg d.length).part p).fill = some f := (hcounts.fill p).trans hfill'
      have hentry : bobbin (chunkTaken (advance s now) p pkg d.length) p f.bobbin = b := by
        rw [hcounts.bobbin, bobbin_congr (s := s) (by rw [advance_part])]
      have hsteps : (chunkTaken (advance s now) p pkg d.length).steps = s.steps := by
        rw [hcounts.rest]
        exact advance_steps s now
      have hcoll : (chunkTaken (advance s now) p pkg d.length).coll = s.coll := by
        rw [hcounts.rest]
        exact advance_coll s now
      have hbacking : backingOk (chunkTaken (advance s now) p pkg d.length) p b = backingOk s p b := by
        rw [hcounts.backingOk]
        exact backingOk_congr (by rw [advance_part]) (by rw [advance_eq]) (by rw [advance_eq]) b
      have hwaiters : waitersOf (chunkTaken (advance s now) p pkg d.length) p f.bobbin = waitersOf s p f.bobbin :=
        waitersOf_of_bobbins hsteps fun q => by rw [hcounts.part q, advance_part]
      generalize chunkTaken (advance s now) p pkg d.length = v at *
      refine ⟨fun hdigest => ?_, fun hdigest hfirst => ?_, fun hdigest hagain => ?_⟩
      · rw [if_pos hdigest] at hexec
        have hwritten := bobbin_modBobbin_self v p f.bobbin (chunkWritten b chunk d)
        rw [hentry] at hwritten
        have hfilled : ((modBobbin v p f.bobbin (chunkWritten b chunk d)).part p).fill = some f := by
          rw [modBobbin, part_modPart_self]
          exact htaken
        have hwsteps : (modBobbin v p f.bobbin (chunkWritten b chunk d)).steps = s.steps := hsteps
        have hwcoll : (modBobbin v p f.bobbin (chunkWritten b chunk d)).coll = s.coll := hcoll
        generalize modBobbin v p f.bobbin (chunkWritten b chunk d) = w at *
        have hafter := (bobbin_modFill (healChunk w p b chunk) p (fun f => { f with done := f.done ++ [chunk] }) f.bobbin).trans hwritten
        refine ⟨_, hexec, fill_modFill (s := healChunk w p b chunk) hfilled _, ?_, ?_, hwcoll, hwsteps⟩
        · rw [hafter]
          rfl
        · rw [hafter]
          rfl
      · rw [if_neg hdigest, if_neg (by rw [hfirst]; simp)] at hexec
        have hsends := refetch_sends htaken chunk pkg
        have hreport := report_of_corrected (refetch v p chunk pkg) (r := { code := mkCode 1 die 0x11, engine := 2048 + die })
          (code_parts (by decide) (Nat.lt_trans (hdie hdies) (by decide)) (by decide)).1
        refine ⟨_, refetchFrom v p f pkg, hexec, ?_, fun hhost => if_pos hhost, fun k0 r hhost hpeers => ?_, fun hhost hpeers => ?_, ?_, ?_⟩
        · rw [hreport]
          exact (fill_of_sends hsends p).trans (fill_modFill htaken _)
        · rw [refetchFrom, if_neg hhost, hpeers]
        · rw [refetchFrom, if_neg hhost, hpeers, hentry, hbacking]
        · rw [hreport]
          refine congrArg Bobbin.image (((bobbin_of_sends hsends p f.bobbin).trans (bobbin_modFill v p _ f.bobbin)).trans hentry)
        · rw [hreport]
          show (refetch v p chunk pkg).steps = _
          rw [hsends.rest]
          exact hsteps
      · rw [if_neg hdigest, if_pos (Option.isSome_iff_ne_none.2 hagain)] at hexec
        obtain ⟨hnone, hgone, hfails⟩ := failFetch_spec v p f.bobbin 0x0604 (fun g hg => by
          rw [htaken] at hg
          exact Option.some.inj hg ▸ rfl)
        exact ⟨_, hexec, hnone, by rw [hgone], hwaiters ▸ hsteps ▸ hfails⟩
  · exact fillComplete_good now hup hactive hfill hwhole hgood
  · exact fillComplete_bad now hup hactive hfill hwhole hbad

end Sys2Proof.Machine

/-! PROOFS. What the link ports bring: frames, windows and payload (O38; R62, R382 to R384, R458, R485, R486). -/

namespace Sys2Proof.Machine

open Sys2Proof.Claims

variable {s t u w : State} {p n : Nat} {x : Brought} {o : RemOp}

/-! ### An accepted frame is counted -/

/-- Between `s` and `t` an accepted frame of port `p` was counted, on the port and in the counters. -/
structure Framed (p : Nat) (s t : State) : Prop where
  rest : t = { s with parts := t.parts, ports := t.ports, pmc := t.pmc }
  part : ∀ q, t.part q = { s.part q with counters := (t.part q).counters }
  port : ∀ q, t.port q = { s.port q with rxCtr := (t.port q).rxCtr }
  ctr : (t.port p).rxCtr = ((s.port p).rxCtr + 1) % 2 ^ 96

/-- The frame has been accepted. -/
def framed (s : State) (p bytes : Nat) : State :=
  countGlobal (s.modPort p fun x => { x with rxCtr := (x.rxCtr + 1) % 2 ^ 96 }) (10 + p) bytes

/-- What it carries lands. -/
def framedFor (s : State) (p window bytes : Nat) : State :=
  if window = 0x3FF then framed s p bytes else count (framed s p bytes) (s.window window).part 0x0E bytes

theorem framed_framed (s : State) (p bytes : Nat) : Framed p s (framed s p bytes) := by
  have hport : ∀ q, (framed s p bytes).port q = (s.modPort p fun x => { x with rxCtr := (x.rxCtr + 1) % 2 ^ 96 }).port q :=
    fun q => port_countGlobal _ _ _ q
  refine ⟨?_, fun q => ?_, fun q => ?_, ?_⟩
  · unfold framed countGlobal
    split <;> rfl
  · unfold framed countGlobal
    split <;> rfl
  · rw [hport]
    by_cases hq : q = p
    · subst hq
      rw [port_modPort_self]
    · rw [port_modPort_ne _ _ hq]
  · rw [hport, port_modPort_self]

theorem count_framed {q ev : Nat} (h : Framed p s t) : Framed p s (count t q ev n) := by
  have hcount := count_sends t q ev n
  refine ⟨?_, fun k => ?_, fun k => ?_, ?_⟩
  · rw [show count t q ev n = { t with parts := (count t q ev n).parts } by unfold count; split <;> rfl, h.rest]
  · rw [hcount.part k, h.part k]
  · rw [port_count]
    exact h.port k
  · rw [port_count]
    exact h.ctr

theorem framedFor_framed (s : State) (p window bytes : Nat) : Framed p s (framedFor s p window bytes) := by
  unfold framedFor
  split
  · exact framed_framed s p bytes
  · exact count_framed (framed_framed s p bytes)

namespace Framed

theorem here (h : Framed p s t) : t.port p = { s.port p with rxCtr := ((s.port p).rxCtr + 1) % 2 ^ 96 } := by
  rw [← h.ctr]
  exact h.port p

theorem sameStore (h : Framed p s t) : SameStore s t := by
  refine ⟨by rw [h.rest], fun k => ?_, fun k => ?_, fun q => by rw [h.part], fun q => by rw [h.part], fun q => by rw [h.part]⟩
  all_goals
    rw [State.tile, h.rest]
    rfl

theorem up (h : Framed p s t) (q : Nat) : (t.port q).up = (s.port q).up := by rw [h.port]

theorem txq (h : Framed p s t) (q : Nat) : (t.port q).txq = (s.port q).txq := by rw [h.port]

end Framed

/-! ### What is brought -/

/-- What is brought is taken at port `p`. -/
def brought (s : State) (p bytes : Nat) (x : Brought) : State := arrive s p x.qp x.kind x.gen x.window x.pos bytes x.data x.bad

/-- The landing of what is brought (R382, R458). -/
def landed (s : State) (x : Brought) : Landing := landing s x.qp x.kind x.gen x.window x.pos x.data.length

/-- A window's object-space offset where what is brought lands. -/
def landOff (s : State) (x : Brought) : Nat := (s.window x.window).base + x.pos

/-- What is brought is written (R62, R382). -/
def payloadPut (s w : State) (x : Brought) : State :=
  let p := (s.window x.window).part
  touchLines (poisonLines (hbmWrite w p (landOff s x) x.data) p (x.bad.map (· + landOff s x))) p true
    (rangeLines (hbmAddr p (landOff s x)) x.data.length)

theorem brought_eq (s : State) (p bytes : Nat) (x : Brought) : brought s p bytes x = match landed s x with
    | .stale => staleArrival (framed s p bytes) x.window
    | .bad => reportCode (framed s p bytes) 0xA803
    | .land => match s.remOps.find? fun o => o.qp == x.qp with
      | some o => progress (framedFor s p x.window bytes) o x.kind x.pos x.data x.bad
      | none => if x.kind = 0 ∧ x.window ≠ 0x3FF then payloadPut s (framedFor s p x.window bytes) x
        else framedFor s p x.window bytes := by
  have hframed := framed_framed s p bytes
  have hlanded : landing (framed s p bytes) x.qp x.kind x.gen x.window x.pos x.data.length = landed s x := by
    rw [hframed.rest]
    rfl
  have hwindow : (framed s p bytes).window = s.window := by
    funext k
    rw [State.window, hframed.rest]
    rfl
  have hfor : (if x.window = 0x3FF then framed s p bytes
      else count (framed s p bytes) ((framed s p bytes).window x.window).part 0x0E bytes) = framedFor s p x.window bytes := by
    rw [hwindow, framedFor]
  have hwindow' : (framedFor s p x.window bytes).window = s.window := by
    funext k
    rw [State.window, (framedFor_framed s p x.window bytes).rest]
    rfl
  have hops : (framedFor s p x.window bytes).remOps = s.remOps := by rw [(framedFor_framed s p x.window bytes).rest]
  have harrive : brought s p bytes x = match landing (framed s p bytes) x.qp x.kind x.gen x.window x.pos x.data.length with
      | .stale => staleArrival (framed s p bytes) x.window
      | .bad => reportCode (framed s p bytes) 0xA803
      | .land =>
        let w := if x.window = 0x3FF then framed s p bytes
          else count (framed s p bytes) ((framed s p bytes).window x.window).part 0x0E bytes
        match w.remOps.find? fun o => o.qp == x.qp with
        | some o => progress w o x.kind x.pos x.data x.bad
        | none => if x.kind = 0 ∧ x.window ≠ 0x3FF then payloadPut w w x else w := rfl
  rw [harrive, hlanded]
  cases landed s x with
  | stale => rfl
  | bad => rfl
  | land =>
    dsimp only
    rw [hfor, hops]
    split
    · rfl
    · split
      · unfold payloadPut landOff
        rw [hwindow']
      · rfl

theorem exec_arrives {i : Instr} {now : Nat} (hup : s.mainReset = false) (hport : (s.port p).up = true) (h : Arrives i now p x) :
    ∃ bytes, exec i s = .next (if frameOk s p x.ctr x.tagOk then brought (advance s now) p bytes x else frameFailure (advance s now) p) := by
  have hframe : ∀ c b, frameOk (advance s now) p c b = frameOk s p c b := fun c b => by
    rw [advance_eq]
    rfl
  obtain ⟨c, rfl, hctl, rfl⟩ | ⟨b, rfl, hlo, hhi, rfl⟩ := h
  · refine ⟨64, (timed_of s (by simp [up, hup, hport]) : execCellArrival now p c s = _).trans ?_⟩
    simp only [hctl, ite_self, hframe, Bool.not_eq_true', ← Bool.not_eq_true, ite_not]
    rfl
  · refine ⟨32 + b.length, (timed_of s (by simp [up, hup, hport, hlo, hhi]) : execBulkMessageArrival now p b s = _).trans ?_⟩
    simp only [hframe, Bool.not_eq_true', ← Bool.not_eq_true, ite_not]
    rfl

/-! ### Payload in object space (R62, R382) -/

/-- Between `s` and `u` lines passed a partition's caches. -/
def OnlyCaches (s u : State) : Prop :=
  u = { s with parts := u.parts, caches := u.caches, hbmReads := u.hbmReads, pmc := u.pmc, out := u.out, fresh := u.fresh }

theorem OnlyCaches.refl (s : State) : OnlyCaches s s := rfl

theorem OnlyCaches.trans {a b c : State} (h : OnlyCaches a b) (h' : OnlyCaches b c) : OnlyCaches a c := by
  unfold OnlyCaches at *
  rw [h', h]

theorem touchLine_onlyCaches (p : Nat) (write : Bool) (s : State) (line : Nat) : OnlyCaches s (touchLine p write s line) := by
  have hcount : ∀ (w : State) ev n, OnlyCaches w (count w p ev n) := fun w ev n => by
    unfold count
    split <;> rfl
  have hglobal : ∀ (w : State) j n, OnlyCaches w (countGlobal w j n) := fun w j n => by
    unfold countGlobal
    split <;> rfl
  have hback : ∀ (w : State) c, OnlyCaches w (writeBack p w c) := fun w c => by
    unfold writeBack
    split
    · rfl
    · exact ((hcount w 0x09 64).trans (hglobal _ 1 64)).trans rfl
  have hread : ∀ w : State, OnlyCaches w (readLine w p line) := fun w => ((hcount w 0x08 64).trans (hglobal _ 0 64)).trans rfl
  have hfill : ∀ (w : State) d way, OnlyCaches w (fillWay w p d line way write) := fun w d way =>
    (forAll_rel OnlyCaches.refl OnlyCaches.trans (fun v c => hback v c) _ w).trans rfl
  unfold touchLine
  extract_lets d hit miss w ways
  have hw : OnlyCaches s w := by
    unfold w
    split
    · exact hcount s 0x0B 1
    · exact (hcount s 0x0B 1).trans (hread miss)
  split
  · split
    · exact (hcount s 0x0A 1).trans rfl
    · exact hcount s 0x0A 1
  · split
    · exact hw.trans (hfill w d _)
    · split
      · exact hw
      · have hdrawn : OnlyCaches w (draw w).2 := rfl
        exact (hw.trans hdrawn).trans (hfill _ d _)

theorem touchLines_onlyCaches (p : Nat) (write : Bool) (s : State) (lines : List Nat) : OnlyCaches s (touchLines s p write lines) :=
  forAll_rel OnlyCaches.refl OnlyCaches.trans (fun w l => touchLine_onlyCaches p write w l) lines s

theorem steps_touchLines (p : Nat) (write : Bool) (s : State) (lines : List Nat) : (touchLines s p write lines).steps = s.steps := by
  rw [touchLines_onlyCaches p write s lines]

theorem payloadPut_rest (s w : State) (x : Brought) : payloadPut s w x = { w with
    hbm := mwriteN w.hbm (hbmAddr (s.window x.window).part (landOff s x)) x.data
    hbmPoison := (payloadPut s w x).hbmPoison
    parts := (payloadPut s w x).parts, ctxs := (payloadPut s w x).ctxs, engRecs := (payloadPut s w x).engRecs
    caches := (payloadPut s w x).caches, hbmReads := (payloadPut s w x).hbmReads, pmc := (payloadPut s w x).pmc
    out := (payloadPut s w x).out, fresh := (payloadPut s w x).fresh } := by
  unfold payloadPut
  extract_lets P
  have htouch := Aside.touchLines 0 P (poisonLines (hbmWrite w P (landOff s x) x.data) P (x.bad.map (· + landOff s x))) true
    (rangeLines (hbmAddr P (landOff s x)) x.data.length)
  rw [htouch.rest, steps_touchLines]
  rfl

theorem hbmRead_payloadPut (s : State) (x : Brought) (hwf : memWf w.hbm = true) :
    hbmRead (payloadPut s w x) (s.window x.window).part (landOff s x) x.data.length = x.data := by
  rw [hbmRead, payloadPut_rest]
  exact (mreadN_mwriteN_take _ hwf (Nat.le_refl _)).trans (List.take_length ..)

theorem mread_payloadPut (s : State) (x : Brought) {a : Nat}
    (ha : ∀ k, k < x.data.length → a ≠ hbmAddr (s.window x.window).part (landOff s x) + k) :
    mread (payloadPut s w x).hbm a = mread w.hbm a := by
  rw [payloadPut_rest]
  refine mread_mwriteN_outside x.data (Decidable.byContradiction fun h => ?_)
  have hin := ha (a - hbmAddr (s.window x.window).part (landOff s x)) (by omega)
  omega

theorem poison_payloadPut (s w : State) (x : Brought) {b : Nat} (hb : b ∈ x.bad) :
    hbmAddr (s.window x.window).part (b + landOff s x) / 64 ∈ (payloadPut s w x).hbmPoison := by
  unfold payloadPut
  extract_lets P
  rw [(Aside.touchLines 0 P _ true _).rest]
  refine List.mem_dedup.2 (List.mem_append_right _ (List.mem_map.2 ⟨b + landOff s x, ?_, rfl⟩))
  exact List.mem_map.2 ⟨b, hb, rfl⟩

/-- R62, R382, R458: payload that no operation awaits lands in the window's bytes. -/
theorem brought_payload {bytes : Nat} (hland : landed s x = .land) (hwindow : x.window ≠ 0x3FF) (hkind : x.kind = 0)
    (hops : ∀ o ∈ s.remOps, o.qp ≠ x.qp) : brought s p bytes x = payloadPut s (framedFor s p x.window bytes) x := by
  have hnone : s.remOps.find? (fun o => o.qp == x.qp) = none := List.find?_eq_none.2 fun o ho => by simp [hops o ho]
  simp only [brought_eq, hland, hnone]
  rw [if_pos ⟨hkind, hwindow⟩]

/-! ### A frame that fails (R486) -/

theorem secalmN_reportCode {c : Code} (h : QuietCode c) (hc : c = 0xA501 ∨ c = 0xA502) (hinit : s.coll.init = true) :
    (reportCode s c).aon.secalmN = false := by
  rw [reportCode_of_init h hinit, withIbi_eq]
  show (latched s { code := c }).aon.secalmN = false
  rw [latched, if_pos hc]
  rfl

theorem aon_dropPort (s : State) (p : Nat) (code : Code) : (dropPort s p code).aon = s.aon := by
  unfold dropPort
  extract_lets s0 ks off failed gone
  have hfails : Fails off failed := forAll_failWith_fails ks 0x0B04 code off
  have hlost : Loses failed (forAll (failed.parts.map (·.1)) (fun s q => losePeers s q gone) failed) :=
    forAll_rel Loses.refl Loses.trans (fun t q => losePeers_loses t q gone) _ _
  rw [hlost.aon, hfails.rest]
  rfl

/-- The port once new keys are asked for. -/
def portRekeyed (cells bulks : Nat) (y : LinkPort) : LinkPort :=
  { y with keying := true, cellHeld := cells, cellGranted := cells, bulkHeld := bulks, bulkGranted := bulks }

theorem frameFailure_eq (s : State) (p : Nat) : frameFailure s p
    = emit ((dropPort (reportCode s 0xA501) p 0xA501).modPort p (portRekeyed (s.port p).cellGranted (s.port p).bulkGranted)) (.keyFrame p) := rfl

theorem quiet_frameFailure : QuietCode 0xA501 := by decide

theorem frameFailure_reports (p : Nat) (hinit : s.coll.init = true) :
    (0xA501 : Code) ∈ (frameFailure s p).coll.log ∧ (frameFailure s p).aon.secalmN = false := by
  obtain ⟨t, hdrop, hcoll, -⟩ := report_dropped quiet_frameFailure s p
  have haon := aon_dropPort (reportCode s 0xA501) p 0xA501
  rw [frameFailure_eq]
  constructor
  · show _ ∈ (dropPort (reportCode s 0xA501) p 0xA501).coll.log
    rw [hdrop, hcoll]
    exact mem_log_reportCode quiet_frameFailure (by decide) hinit
  · show (dropPort (reportCode s 0xA501) p 0xA501).aon.secalmN = _
    rw [haon]
    exact secalmN_reportCode quiet_frameFailure (.inl rfl) hinit

theorem port_frameFailure (s : State) (p : Nat) : ((frameFailure s p).port p).up = false ∧ ((frameFailure s p).port p).keying = true
    ∧ ((frameFailure s p).port p).rxCtr = (s.port p).rxCtr ∧ ((frameFailure s p).port p).cellHeld = (s.port p).cellGranted := by
  obtain ⟨t, hdrop, -, hdropped⟩ := report_dropped quiet_frameFailure s p
  obtain ⟨hup, -⟩ := hdropped.port
  have hport : (frameFailure s p).port p = portRekeyed (s.port p).cellGranted (s.port p).bulkGranted (t.port p) := by
    rw [frameFailure_eq, hdrop]
    exact port_modPort_self t p _
  rw [hport]
  refine ⟨hup, rfl, ?_, rfl⟩
  show (t.port p).rxCtr = _
  obtain ⟨hrest, -⟩ := hdropped.here
  rw [show t.port p = _ from hrest]
  rfl

end Sys2Proof.Machine

/-! PROOFS. Progress of remote operations (O38; R183, R193 to R195, R393, R404 to R408). -/

namespace Sys2Proof.Machine

open Sys2Proof.Claims

variable {s t u w : State} {o : RemOp} {st : Step} {c : Coll}

/-! ### What progress notes -/

/-- The operation once something has come for it. -/
def progressed (s : State) (o : RemOp) (data : List Byte) (bad : List Nat) : RemOp :=
  { o with
    last := time s, data := if o.kind = 0 ∨ o.kind = 4 then o.data ++ data else o.data
    bad := if o.kind = 0 then o.bad ++ bad.map (· + o.data.length) else o.bad }

/-- The operation of that number is now `o`. -/
def opNoted (s : State) (o : RemOp) : State := { s with remOps := s.remOps.map fun x => if x.id = o.id then o else x }

theorem mem_opNoted {a : RemOp} (ha : a ∈ s.remOps) (hid : a.id = o.id) : o ∈ (opNoted s o).remOps :=
  List.mem_map.2 ⟨a, ha, if_pos hid⟩

theorem filter_opNoted (s : State) (o : RemOp) :
    (opNoted s o).remOps.filter (fun y => y.id != o.id) = s.remOps.filter fun y => y.id != o.id := by
  show (s.remOps.map fun x => if x.id = o.id then o else x).filter _ = _
  induction s.remOps with
  | nil => rfl
  | cons a l ih =>
    by_cases ha : a.id = o.id
    · simp [ha] at ih ⊢
      exact ih
    · simp [ha] at ih ⊢
      exact ih

variable {kind pos : Nat} {data : List Byte} {bad : List Nat}

theorem progress_fetch (hkind : o.kind = 0) : progress s o kind pos data bad
    = if o.want ≤ o.data.length + data.length then fetchDone (opNoted s (progressed s o data bad)) (progressed s o data bad)
      else opNoted s (progressed s o data bad) := by
  have hdata : (progressed s o data bad).data.length = o.data.length + data.length := by simp [progressed, hkind]
  rw [← hdata]
  exact if_pos hkind

theorem progress_send (hkind : o.kind = 1) : progress s o 2 pos data bad
    = endOp (opNoted s (progressed s o data bad)) (progressed s o data bad) :=
  (if_neg (by omega : ¬ o.kind = 0)).trans ((if_pos hkind).trans (if_pos rfl))

theorem progress_coll (hkind : o.kind = 2) : progress s o 1 pos data bad
    = collArrive (opNoted s (progressed s o data bad)) (progressed s o data bad) { pos, bytes := data, bad } :=
  (if_neg (by omega : ¬ o.kind = 0)).trans ((if_neg (by omega : ¬ o.kind = 1)).trans ((if_pos hkind).trans (if_pos rfl)))

/-! ### The end of an operation -/

theorem moverDone_rest (hoff : ∀ st, tfind s.steps o.slot = some st → (s.part st.part).trace.on = false) :
    moverDone s o = { s with
      fresh := (moverDone s o).fresh, engRecs := (moverDone s o).engRecs, ctxs := (moverDone s o).ctxs } := by
  unfold moverDone
  split
  · rfl
  · split
    · rfl
    · extract_lets e
      rw [traceStep_of_off _ _ _ _ _ hoff]
      dsimp only [draw]
      unfold charge
      extract_lets r m
      split <;> rfl

/-- A skein's run once operation `o` that it issued has ended. -/
def runEnded (o : RemOp) (r : SkeinRun) : SkeinRun :=
  if r.slot = o.slot ∧ r.skein = o.skein then
    (if o.kind = 0 then { r with fetchOut := r.fetchOut - 1 } else { r with opsOut := r.opsOut - 1 })
  else r

/-- The skein and the step once operation `o` has ended. -/
def opEnded (s : State) (o : RemOp) : State :=
  (s.modTile o.tile fun x => { x with run := x.run.map (runEnded o), tails := x.tails.map (runEnded o) }).modStep o.slot fun x =>
    { x with requests := x.requests - 1, lastOp := time s }

theorem opEnded_rest (s : State) (o : RemOp) :
    opEnded s o = { s with tiles := (opEnded s o).tiles, steps := (opEnded s o).steps } := by
  unfold opEnded State.modStep
  split <;> rfl

/-- The state in which the operation is no more and its mover has accounted for it. -/
def opMoved (s : State) (o : RemOp) : State := moverDone { s with remOps := s.remOps.filter fun x => x.id != o.id } o

theorem endOp_eq (s : State) (hadded : o.added = false) : endOp s o = opEnded (opMoved s o) o := by
  have hsplit : ∀ w, splitDone w o = w := fun w => by simp [splitDone, hadded]
  simp only [endOp, hsplit]
  rfl

section
variable (hadded : o.added = false) (hoff : ∀ st, tfind s.steps o.slot = some st → (s.part st.part).trace.on = false)
include hoff

theorem opMoved_rest : opMoved s o = { s with
    remOps := s.remOps.filter fun x => x.id != o.id, fresh := (opMoved s o).fresh, engRecs := (opMoved s o).engRecs
    ctxs := (opMoved s o).ctxs } := moverDone_rest (s := { s with remOps := s.remOps.filter fun x => x.id != o.id }) hoff

include hadded

theorem endOp_rest : endOp s o = { s with
    remOps := s.remOps.filter fun x => x.id != o.id, fresh := (endOp s o).fresh, engRecs := (endOp s o).engRecs
    ctxs := (endOp s o).ctxs, tiles := (endOp s o).tiles, steps := (endOp s o).steps } := by
  rw [endOp_eq s hadded, opEnded_rest, opMoved_rest hoff]

theorem run_endOp : ((endOp s o).tile o.tile).run = (s.tile o.tile).run.map (runEnded o) := by
  rw [endOp_eq s hadded, opEnded, tile_modStep, tile_modTile_self, opMoved_rest hoff]
  rfl

theorem tfind_endOp (hst : tfind s.steps o.slot = some st) :
    tfind (endOp s o).steps o.slot = some { st with requests := st.requests - 1, lastOp := time (endOp s o) } := by
  have htime : time (endOp s o) = time (opMoved s o) := by
    rw [endOp_rest hadded hoff, opMoved_rest hoff]
    rfl
  have hst' : tfind (opMoved s o).steps o.slot = some st := by
    rw [opMoved_rest hoff]
    exact hst
  rw [htime, endOp_eq s hadded]
  exact tfind_modStep_self _ _ hst'

theorem sameStore_endOp : SameStore s (endOp s o) := by
  have hmoved : SameStore s (opMoved s o) := by
    rw [opMoved_rest hoff]
    exact ⟨rfl, fun _ => rfl, fun _ => rfl, fun _ => rfl, fun _ => rfl, fun _ => rfl⟩
  rw [endOp_eq s hadded]
  exact hmoved.trans ((sameStore_modTile _ _ _).trans (sameStore_modStep _ _ _))

end

theorem runEnded_of_fetch {r : SkeinRun} (hkind : o.kind = 0) (hslot : r.slot = o.slot) (hskein : r.skein = o.skein) :
    runEnded o r = { r with fetchOut := r.fetchOut - 1 } := by
  rw [runEnded, if_pos ⟨hslot, hskein⟩, if_pos hkind]

theorem runEnded_of_op {r : SkeinRun} (hkind : o.kind ≠ 0) (hslot : r.slot = o.slot) (hskein : r.skein = o.skein) :
    runEnded o r = { r with opsOut := r.opsOut - 1 } := by
  rw [runEnded, if_pos ⟨hslot, hskein⟩, if_neg hkind]

/-! ### Writes of an operation -/

/-- Writes made between two states of one memory each. -/
theorem stores_of_putAll {slot k : Nat} {l : List Put} (hst : tfind w.steps slot = some st) (hs : SameStore s w)
    (hu : SameStore (putAll w k slot l) u) : Stores s u k slot st l := by
  have hlaid := putAll_laid k l hst
  obtain ⟨-, -, hbufs, -⟩ := hlaid.frame.work k
  refine stores_congr hs.symm hu ?_ (hbufs.trans rfl) hlaid.stores
  rw [hlaid.frame.part]

theorem stepFile_of_sameStore (h : SameStore s w) (st : Step) : stepFile w st = stepFile s st := by
  rw [stepFile, stepFile, h.progs]

/-- R194, R195: the data of a FETCH that is whole lands in its view, and the operation ends. -/
theorem fetchDone_spec {r : SkeinRun} (hst : tfind w.steps o.slot = some st) (hs : SameStore s w) (hadded : o.added = false)
    (hoff : (w.part st.part).trace.on = false) (hrun : (w.tile o.tile).run = some r) :
    Stores s (fetchDone w o) o.tile o.slot st (landPuts (viewBits (stepFile s st) o.dst) o.data o.bad)
      ∧ ((fetchDone w o).tile o.tile).run = some (runEnded o r) ∧ ∀ y ∈ (fetchDone w o).remOps, y.id ≠ o.id := by
  have heq : fetchDone w o
      = endOp (putAll w o.tile o.slot (landPuts (viewBits (stepFile s st) o.dst) o.data o.bad)) o := by
    simp only [fetchDone, hst, stepFile_of_sameStore hs]
  have hframe := (putAll_laid o.tile (landPuts (viewBits (stepFile s st) o.dst) o.data o.bad) hst).frame
  obtain ⟨b, hstep⟩ := hframe.step st hst
  obtain ⟨hwork, -⟩ := hframe.work o.tile
  have hstores : ∀ u, SameStore (putAll w o.tile o.slot (landPuts (viewBits (stepFile s st) o.dst) o.data o.bad)) u →
      Stores s u o.tile o.slot st (landPuts (viewBits (stepFile s st) o.dst) o.data o.bad) := fun u => stores_of_putAll hst hs
  have hoff' : ∀ y, tfind (putAll w o.tile o.slot (landPuts (viewBits (stepFile s st) o.dst) o.data o.bad)).steps o.slot = some y →
      ((putAll w o.tile o.slot (landPuts (viewBits (stepFile s st) o.dst) o.data o.bad)).part y.part).trace.on = false := by
    intro y hy
    rw [hstep] at hy
    cases hy
    rw [hframe.part]
    exact hoff
  rw [heq]
  generalize putAll w o.tile o.slot (landPuts (viewBits (stepFile s st) o.dst) o.data o.bad) = m at *
  refine ⟨?_, ?_, fun y hy => ?_⟩
  · exact hstores _ (sameStore_endOp hadded hoff')
  · rw [run_endOp hadded hoff', hwork, hrun]
    rfl
  · rw [endOp_rest hadded hoff'] at hy
    simpa using (List.mem_filter.1 hy).2

/-! ### Pieces of a collective (R404 to R407) -/

theorem writeUnits_frame (s : State) (o : RemOp) (c : Coll) (e : Nat) (us : List (List Byte × Bool)) :
    (writeUnits s o c e us).remOps = s.remOps := by
  unfold writeUnits
  split
  · rfl
  · next st hst =>
    have hlaid := (putAll_laid o.tile (unitPuts (stepFile s st) o.dst c e us) hst).frame
    extract_lets puts m
    rw [(Aside.touchLines o.slot c.part m true _).rest]
    show m.remOps = _
    rw [show m = _ from hlaid.rest]

theorem writeUnits_stores {e : Nat} {us : List (List Byte × Bool)} (hst : tfind w.steps o.slot = some st) (hs : SameStore s w)
    (hu : SameStore (writeUnits w o c e us) u) : Stores s u o.tile o.slot st (unitPuts (stepFile s st) o.dst c e us) := by
  have heq : writeUnits w o c e us = touchLines (putAll w o.tile o.slot (unitPuts (stepFile s st) o.dst c e us)) c.part true
      (bitLines (putAll w o.tile o.slot (unitPuts (stepFile s st) o.dst c e us)) o.slot st
        ((unitPuts (stepFile s st) o.dst c e us).map fun q => { tensor := q.tensor, off := q.off, width := q.width })) := by
    simp only [writeUnits, hst, stepFile_of_sameStore hs]
  refine stores_of_putAll hst hs (SameStore.trans ?_ hu)
  rw [heq]
  exact (Aside.touchLines o.slot c.part _ true _).sameStore

theorem mem_modColl' {a : RemOp} {id : Nat} {f : Coll → Coll} (ha : a ∈ s.remOps) (hid : a.id = id) (hc : a.coll = some c) :
    ∃ y ∈ (modColl' s id f).remOps, y.id = id ∧ y.coll = some (f c) :=
  ⟨{ a with coll := a.coll.map f }, List.mem_map.2 ⟨a, ha, if_pos hid⟩, hid, by simp [hc]⟩

variable {x : Chunk}

/-- A piece waits while no engine runs its plan (R404). -/
theorem collArrive_waits (hc : o.coll = some c) (heng : (c.flow (c.ringOf (c.place x.pos).1)).eng = none) : collArrive s o x
    = modColl' s o.id fun y => y.setFlow (c.ringOf (c.place x.pos).1)
      { y.flow (c.ringOf (c.place x.pos).1) with inbox := (y.flow (c.ringOf (c.place x.pos).1)).inbox ++ [x] } := by
  simp only [collArrive, hc, heng]

theorem collArrive_sums {eng : Nat} (hc : o.coll = some c) (heng : (c.flow (c.ringOf (c.place x.pos).1)).eng = some eng)
    (hsums : (c.place x.pos).2 = true) :
    let rev := c.ringOf (c.place x.pos).1
    let us := cutUnits c.wireBytes x
    collArrive s o x = modColl' (takeSums s eng o c rev (c.place x.pos).1 (us.map fun u => (leNat u.1, u.2))) o.id fun y =>
      y.setFlow rev { y.flow rev with got := (y.flow rev).got + us.length } := by
  intro rev us
  have hplace : c.place x.pos = ((c.place x.pos).1, true) := Prod.ext rfl hsums
  simp only [collArrive, hc, heng, takeChunk]
  rw [hplace]
  simp only [if_true, Nat.mul_one]
  rfl

/-- The owner of a segment of a reduce-scatter writes its sums. -/
theorem takeSums_own {eng e : Nat} {rev : Bool} {vs : List (Nat × Bool)} (hown : c.segOf e = c.own) (hpattern : c.pattern = 1) :
    takeSums s eng o c rev e vs = writeUnits s o c e (c.pack c.fmt c.unitBytes (c.sums e vs)) := by
  simp only [takeSums, if_pos hown]
  rw [if_neg (by omega)]

theorem takeSums_on {eng e : Nat} {rev : Bool} {vs : List (Nat × Bool)} (hown : c.segOf e ≠ c.own) : takeSums s eng o c rev e vs
    = sendUnits s eng o c rev c.wireBytes (e * c.wireBytes) (c.pack c.wire c.wireBytes (c.sums e vs)) := by
  simp only [takeSums, if_neg hown]

end Sys2Proof.Machine

/-! PROOFS. What an accepted frame does, and one that fails (O38; R62, R382, R393, R458, R486). -/

namespace Sys2Proof.Machine

open Sys2Proof.Claims

variable {s t u w : State} {o : RemOp} {st : Step} {c : Coll} {p bytes : Nat} {x : Brought}

theorem Framed.flows (h : Framed p s t) {id : Nat} {rev : Bool} : Flows id rev s t := by
  refine ⟨by rw [h.rest], fun k => by rw [State.tile, h.rest]; rfl, h.up, fun e he => ?_⟩
  unfold Turning
  rw [h.rest]
  exact he

/-- R62, R382, R458. -/
theorem brought_lands (hland : landed s x = .land) (hwindow : x.window ≠ 0x3FF) (hkind : x.kind = 0)
    (hops : ∀ o ∈ s.remOps, o.qp ≠ x.qp) (hwf : memWf s.hbm = true) :
    let t := brought s p bytes x
    let off := (s.window x.window).base + x.pos
    hbmRead t (s.window x.window).part off x.data.length = x.data
      ∧ (∀ a, (∀ k, k < x.data.length → a ≠ hbmAddr (s.window x.window).part off + k) → mread t.hbm a = mread s.hbm a)
      ∧ (∀ b ∈ x.bad, hbmAddr (s.window x.window).part (b + off) / 64 ∈ t.hbmPoison)
      ∧ t.port p = { s.port p with rxCtr := ((s.port p).rxCtr + 1) % 2 ^ 96 } ∧ t.coll = s.coll ∧ t.steps = s.steps := by
  intro t off
  have ht : t = payloadPut s (framedFor s p x.window bytes) x := brought_payload hland hwindow hkind hops
  have hframed := framedFor_framed s p x.window bytes
  have hhbm : (framedFor s p x.window bytes).hbm = s.hbm := by rw [hframed.rest]
  rw [ht]
  refine ⟨hbmRead_payloadPut s x (by rw [hhbm]; exact hwf), fun a ha => ?_, fun b hb => poison_payloadPut s _ x hb, ?_, ?_, ?_⟩
  · rw [mread_payloadPut s x ha, hhbm]
  · rw [State.port, payloadPut_rest]
    exact hframed.here
  · rw [payloadPut_rest, hframed.rest]
  · rw [payloadPut_rest, hframed.rest]

/-- R382, R458. -/
theorem brought_stale (hstale : landed s x = .stale) :
    let t := brought s p bytes x
    t.hbm = s.hbm ∧ t.coll = s.coll ∧ t.remOps = s.remOps
      ∧ tget t.stale (s.window x.window).part 0 = tget s.stale (s.window x.window).part 0 + 1 := by
  intro t
  have ht : t = staleArrival (framed s p bytes) x.window := by simp only [t, brought_eq, hstale]
  have hframed := framed_framed s p bytes
  have hwindow : (framed s p bytes).window x.window = s.window x.window := by
    rw [State.window, hframed.rest]
    rfl
  rw [ht, staleArrival, (count_sends _ _ 0x12 1).rest, hwindow, hframed.rest]
  exact ⟨rfl, rfl, rfl, tget_tput_self ..⟩

/-- R382. -/
theorem brought_bad (hbad : landed s x = .bad) (hinit : s.coll.init = true) :
    let t := brought s p bytes x
    t.hbm = s.hbm ∧ (0xA803 : Code) ∈ t.coll.log ∧ t.remOps = s.remOps ∧ t.steps = s.steps := by
  intro t
  have hquiet : QuietCode 0xA803 := by decide
  have hframed := framed_framed s p bytes
  have ht : t = reportCode (framed s p bytes) 0xA803 := by simp only [t, brought_eq, hbad]
  have hlog : (0xA803 : Code) ∈ (reportCode (framed s p bytes) 0xA803).coll.log :=
    mem_log_reportCode hquiet (by decide) (by rw [hframed.rest]; exact hinit)
  rw [ht]
  refine ⟨?_, hlog, ?_, ?_⟩
  all_goals rw [reportCode_shape hquiet, hframed.rest]

/-! ### What comes for an operation -/

/-- What an operation passes on bears its queue pair and its slot. -/
theorem unitMsgs_congr {a : RemOp} (hqp : a.qp = o.qp) (hslot : a.slot = o.slot) (eng : Nat) (c : Coll) (route : List Nat) (n k : Nat)
    (pos : Nat) (us : List (List Byte × Bool)) : unitMsgs eng a c route n pos k us = unitMsgs eng o c route n pos k us := by
  induction k generalizing pos us with
  | zero => rfl
  | succ k ih => simp only [unitMsgs, hqp, hslot, ih]

variable (hland : landed s x = .land) (ho : s.remOps.find? (fun o => o.qp == x.qp) = some o)

/-- The state in which what is brought is noted for its operation. -/
def broughtFor (s : State) (p bytes : Nat) (x : Brought) (o : RemOp) : State :=
  opNoted (framedFor s p x.window bytes) (progressed s o x.data x.bad)

theorem broughtFor_rest (s : State) (p bytes : Nat) (x : Brought) (o : RemOp) : broughtFor s p bytes x o = { s with
    parts := (broughtFor s p bytes x o).parts, ports := (broughtFor s p bytes x o).ports, pmc := (broughtFor s p bytes x o).pmc
    remOps := (opNoted s (progressed s o x.data x.bad)).remOps } := by
  unfold broughtFor opNoted
  rw [(framedFor_framed s p x.window bytes).rest]

theorem broughtFor_sameStore (s : State) (p bytes : Nat) (x : Brought) (o : RemOp) : SameStore s (broughtFor s p bytes x o) :=
  (framedFor_framed s p x.window bytes).sameStore.trans ⟨rfl, fun _ => rfl, fun _ => rfl, fun _ => rfl, fun _ => rfl, fun _ => rfl⟩

theorem trace_broughtFor (s : State) (p bytes : Nat) (x : Brought) (o : RemOp) (q : Nat) :
    ((broughtFor s p bytes x o).part q).trace = (s.part q).trace := by
  show ((framedFor s p x.window bytes).part q).trace = _
  rw [(framedFor_framed s p x.window bytes).part q]

theorem progressed_framed (h : Framed p s w) (o : RemOp) (data : List Byte) (bad : List Nat) :
    progressed w o data bad = progressed s o data bad := by
  unfold progressed time
  rw [h.rest]

include hland ho

theorem brought_progress : brought s p bytes x = progress (framedFor s p x.window bytes) o x.kind x.pos x.data x.bad := by
  simp only [brought_eq, hland, ho]

omit hland in
theorem mem_broughtFor : progressed s o x.data x.bad ∈ (broughtFor s p bytes x o).remOps := by
  have hmem : o ∈ (framedFor s p x.window bytes).remOps := by
    rw [(framedFor_framed s p x.window bytes).rest]
    exact List.mem_of_find?_eq_some ho
  exact mem_opNoted hmem rfl

/-- R193, R393: data of a FETCH is gathered. -/
theorem brought_gathers (hkind : o.kind = 0) (hless : o.data.length + x.data.length < o.want) :
    let t := brought s p bytes x
    t.hbm = s.hbm ∧ t.steps = s.steps ∧ ∃ y ∈ t.remOps, y.id = o.id ∧ y.data = o.data ++ x.data
      ∧ y.bad = o.bad ++ x.bad.map (· + o.data.length) ∧ y.last = time t := by
  intro t
  have hframed := framedFor_framed s p x.window bytes
  have ht : t = broughtFor s p bytes x o := by
    refine (brought_progress hland ho).trans ((progress_fetch hkind).trans ?_)
    rw [if_neg (by omega), progressed_framed hframed]
    rfl
  rw [ht]
  refine ⟨by rw [broughtFor_rest], by rw [broughtFor_rest], progressed s o x.data x.bad, mem_broughtFor ho, rfl, ?_, ?_, ?_⟩
  · exact if_pos (.inl hkind)
  · exact if_pos hkind
  · rw [broughtFor_rest]
    rfl

/-- R194, R195: a FETCH whose data is whole is written. -/
theorem brought_fetched {r : SkeinRun} (hkind : o.kind = 0) (hwhole : o.want ≤ o.data.length + x.data.length) (hadded : o.added = false)
    (hst : tfind s.steps o.slot = some st) (hoff : (s.part st.part).trace.on = false) (hrun : (s.tile o.tile).run = some r)
    (hslot : r.slot = o.slot) (hskein : r.skein = o.skein) :
    let t := brought s p bytes x
    Stores s t o.tile o.slot st (landPuts (viewBits (stepFile s st) o.dst) (o.data ++ x.data) (o.bad ++ x.bad.map (· + o.data.length)))
      ∧ (t.tile o.tile).run = some { r with fetchOut := r.fetchOut - 1 } ∧ ∀ y ∈ t.remOps, y.id ≠ o.id := by
  intro t
  have ht : t = fetchDone (broughtFor s p bytes x o) (progressed s o x.data x.bad) := by
    refine (brought_progress hland ho).trans ((progress_fetch hkind).trans ?_)
    rw [if_pos hwhole, progressed_framed (framedFor_framed s p x.window bytes)]
    rfl
  obtain ⟨hstores, hrun', hgone⟩ := fetchDone_spec (w := broughtFor s p bytes x o) (o := progressed s o x.data x.bad) (r := r) (st := st)
    (by rw [broughtFor_rest]; exact hst) (broughtFor_sameStore s p bytes x o) hadded (by rw [trace_broughtFor]; exact hoff)
    (by rw [broughtFor_rest]; exact hrun)
  rw [← ht] at hstores hrun' hgone
  refine ⟨?_, hrun'.trans (congrArg some (runEnded_of_fetch hkind hslot hskein)), hgone⟩
  simp only [progressed, hkind, true_or, if_true] at hstores
  exact hstores

/-- R193: an acknowledgement ends its SEND. -/
theorem brought_acknowledged {r : SkeinRun} (hkind : o.kind = 1) (hack : x.kind = 2) (hadded : o.added = false)
    (hst : tfind s.steps o.slot = some st) (hoff : (s.part st.part).trace.on = false) (hrun : (s.tile o.tile).run = some r)
    (hslot : r.slot = o.slot) (hskein : r.skein = o.skein) :
    let t := brought s p bytes x
    t.hbm = s.hbm ∧ t.remOps = s.remOps.filter (fun y => y.id != o.id)
      ∧ tfind t.steps o.slot = some { st with requests := st.requests - 1, lastOp := time t }
      ∧ (t.tile o.tile).run = some { r with opsOut := r.opsOut - 1 } := by
  intro t
  have ht : t = endOp (broughtFor s p bytes x o) (progressed s o x.data x.bad) := by
    refine (brought_progress hland ho).trans ?_
    rw [hack, progress_send hkind, progressed_framed (framedFor_framed s p x.window bytes)]
    rfl
  have hst' : tfind (broughtFor s p bytes x o).steps o.slot = some st := by
    rw [broughtFor_rest]
    exact hst
  have hoff' : ∀ y, tfind (broughtFor s p bytes x o).steps (progressed s o x.data x.bad).slot = some y →
      ((broughtFor s p bytes x o).part y.part).trace.on = false := fun y hy => by
    cases hst'.symm.trans hy
    rw [trace_broughtFor]
    exact hoff
  have hrun' : ((broughtFor s p bytes x o).tile o.tile).run = some r := by
    rw [broughtFor_rest]
    exact hrun
  have hrest := endOp_rest (o := progressed s o x.data x.bad) hadded hoff'
  rw [ht]
  refine ⟨?_, ?_, tfind_endOp (o := progressed s o x.data x.bad) hadded hoff' hst', ?_⟩
  · rw [hrest, broughtFor_rest]
  · rw [hrest, broughtFor_rest]
    exact filter_opNoted s (progressed s o x.data x.bad)
  · refine (run_endOp (o := progressed s o x.data x.bad) hadded hoff').trans ((congrArg (Option.map _) hrun').trans ?_)
    exact congrArg some (runEnded_of_op (by show o.kind ≠ 0; omega) hslot hskein)

section
variable (hkind : o.kind = 2) (hpiece : x.kind = 1) (hc : o.coll = some c)
include hkind hpiece

theorem brought_piece : brought s p bytes x = collArrive (broughtFor s p bytes x o) (progressed s o x.data x.bad) (pieceOf x) := by
  refine (brought_progress hland ho).trans ?_
  rw [hpiece, progress_coll hkind, progressed_framed (framedFor_framed s p x.window bytes)]
  rfl

include hc

/-- R404: a piece waits for its plan. -/
theorem brought_waits (heng : (c.flow (c.ringOf (c.place x.pos).1)).eng = none) :
    let rev := c.ringOf (c.place x.pos).1
    let t := brought s p bytes x
    t.hbm = s.hbm ∧ t.steps = s.steps ∧ ∃ y ∈ t.remOps, y.id = o.id
      ∧ y.coll = some (c.setFlow rev { c.flow rev with inbox := (c.flow rev).inbox ++ [pieceOf x] }) := by
  intro rev t
  have ht := (brought_piece (p := p) (bytes := bytes) hland ho hkind hpiece).trans
    (collArrive_waits (o := progressed s o x.data x.bad) (x := pieceOf x) hc heng)
  rw [show t = _ from ht]
  refine ⟨?_, ?_, mem_modColl' (mem_broughtFor ho) rfl hc⟩
  · show (broughtFor s p bytes x o).hbm = _
    rw [broughtFor_rest]
  · show (broughtFor s p bytes x o).steps = _
    rw [broughtFor_rest]

variable {eng : Nat} (heng : (c.flow (c.ringOf (c.place x.pos).1)).eng = some eng) (hsums : (c.place x.pos).2 = true)
include heng hsums

/-- R406, R407: the owner of a segment writes the sums. -/
theorem brought_owned (hown : c.segOf (c.place x.pos).1 = c.own) (hpattern : c.pattern = 1) (hst : tfind s.steps o.slot = some st) :
    let rev := c.ringOf (c.place x.pos).1
    let e := (c.place x.pos).1
    let us := cutUnits c.wireBytes (pieceOf x)
    let t := brought s p bytes x
    Stores s t o.tile o.slot st (unitPuts (stepFile s st) o.dst c e
        (c.pack c.fmt c.unitBytes (c.sums e (us.map fun u => (leNat u.1, u.2)))))
      ∧ ∃ y ∈ t.remOps, y.id = o.id ∧ y.coll = some (c.setFlow rev { c.flow rev with got := (c.flow rev).got + us.length }) := by
  intro rev e us t
  have ht := (brought_piece (p := p) (bytes := bytes) hland ho hkind hpiece).trans
    (collArrive_sums (s := broughtFor s p bytes x o) (o := progressed s o x.data x.bad) (x := pieceOf x) hc heng hsums)
  rw [takeSums_own (by exact hown) hpattern] at ht
  rw [show t = _ from ht]
  constructor
  · refine writeUnits_stores (w := broughtFor s p bytes x o) (o := progressed s o x.data x.bad) (st := st) ?_
      (broughtFor_sameStore s p bytes x o) ⟨rfl, fun _ => rfl, fun _ => rfl, fun _ => rfl, fun _ => rfl, fun _ => rfl⟩
    rw [broughtFor_rest]
    exact hst
  · refine mem_modColl' (a := progressed s o x.data x.bad) ?_ rfl hc
    rw [writeUnits_frame]
    exact mem_broughtFor ho

/-- R406, R407: any other member sends the sums on. -/
theorem brought_reduced {q : Nat} (hown : c.segOf (c.place x.pos).1 ≠ c.own)
    (hport : memberPort s c.job (c.first + c.next (c.ringOf (c.place x.pos).1)) = some q) :
    let rev := c.ringOf (c.place x.pos).1
    let e := (c.place x.pos).1
    let us := cutUnits c.wireBytes (pieceOf x)
    let out := c.pack c.wire c.wireBytes (c.sums e (us.map fun u => (leNat u.1, u.2)))
    let t := brought s p bytes x
    t.hbm = s.hbm ∧ t.steps = s.steps
      ∧ ∀ m ∈ unitMsgs eng o c (tget (s.job c.job).routes (c.first + c.next rev) []) c.wireBytes (e * c.wireBytes) out.length out,
          Handed t q m := by
  intro rev e us out t
  let f : Coll → Coll := fun y => y.setFlow rev { y.flow rev with got := (y.flow rev).got + us.length }
  have hport' : memberPort (broughtFor s p bytes x o) c.job (c.first + c.next rev) = some q :=
    ((framedFor_framed s p x.window bytes).flows (id := 0) (rev := rev)).memberPort c.job _ |>.trans hport
  have hjob : (broughtFor s p bytes x o).job c.job = s.job c.job := by
    rw [State.job, broughtFor_rest]
    rfl
  let msgs := unitMsgs eng o c (tget (s.job c.job).routes (c.first + c.next rev) []) c.wireBytes (e * c.wireBytes) out.length out
  have hsent : takeSums (broughtFor s p bytes x o) eng (progressed s o x.data x.bad) c rev e (us.map fun u => (leNat u.1, u.2))
      = sendAll (broughtFor s p bytes x o) q msgs := by
    rw [takeSums_on hown, sendUnits_eq _ _ _ _ hport', hjob]
    exact congrArg (sendAll _ q) (unitMsgs_congr (a := progressed s o x.data x.bad) (o := o) rfl rfl ..)
  have ht : t = modColl' (sendAll (broughtFor s p bytes x o) q msgs) o.id f := by
    rw [← hsent]
    exact (brought_piece (p := p) (bytes := bytes) hland ho hkind hpiece).trans
      (collArrive_sums (s := broughtFor s p bytes x o) (o := progressed s o x.data x.bad) (x := pieceOf x) hc heng hsums)
  rw [ht]
  refine ⟨?_, ?_, fun m hm => handed_sendAll (s := broughtFor s p bytes x o) q hm⟩
  · show (sendAll _ _ _).hbm = _
    rw [(sendAll_sends _ _ _).rest, broughtFor_rest]
  · show (sendAll _ _ _).steps = _
    rw [(sendAll_sends _ _ _).rest, broughtFor_rest]

end

end Sys2Proof.Machine

/-! PROOFS. What a control cell tells (O38; R194, R204, R235, R236, R246, R247, R251, R252, R465). -/

namespace Sys2Proof.Machine

open Sys2Proof.Claims

variable {s t u w : State} {p q j k : Nat} {st : Step}

/-! ### The state in which a control cell is taken -/

/-- `w` is `s` but for its time, and for what the arrival of a frame counts. -/
structure Heard (s w : State) : Prop where
  rest : w = { s with aon := w.aon, ports := w.ports, pmc := w.pmc }
  coords : w.aon.coords = s.aon.coords
  port : ∀ q, w.port q = { s.port q with rxCtr := (w.port q).rxCtr }

theorem heard_framed (s : State) (now p bytes : Nat) : Heard s (framed (advance s now) p bytes) := by
  have hframed := framed_framed (advance s now) p bytes
  have hrest : framed (advance s now) p bytes = { advance s now with
      ports := (framed (advance s now) p bytes).ports, pmc := (framed (advance s now) p bytes).pmc } := by
    unfold framed countGlobal
    split <;> rfl
  refine ⟨?_, ?_, fun q => ?_⟩
  · rw [hrest, advance_eq]
  · rw [hrest]
    exact advance_aon_coords s now
  · rw [hframed.port, advance_port]

namespace Heard

theorem partOf (h : Heard s w) (q : Nat) : w.part q = s.part q := by
  rw [State.part, h.rest]
  rfl

theorem steps (h : Heard s w) : w.steps = s.steps := by rw [h.rest]

theorem jobAt (h : Heard s w) (j : Nat) : w.job j = s.job j := by
  rw [State.job, h.rest]
  rfl

theorem jobOf (h : Heard s w) (n : Nat) : jobOf w n = jobOf s n := by
  rw [Machine.jobOf, h.rest]
  rfl

theorem funcAt (h : Heard s w) (f : Nat) : w.func f = s.func f := by
  rw [State.func, h.rest]
  rfl

theorem myPkg (h : Heard s w) : myPkg w = myPkg s := myPkg_congr h.coords

theorem variant (h : Heard s w) : w.variant = s.variant := by rw [h.rest]

theorem routeTo (h : Heard s w) (pkg : Nat) : routeTo w pkg = routeTo s pkg :=
  routeTo_congr h.coords h.variant (fun q => by rw [h.port]) pkg

theorem memberHere (h : Heard s w) (ms : List (Nat × Nat)) (i : Nat) : memberHere w ms i = memberHere s ms i := by
  rw [Machine.memberHere, Machine.memberHere, h.myPkg]

end Heard

/-- A control cell of the control window is taken by spindle firmware (R383). -/
theorem exec_controlCell {c : Cell} {x : Ctl} (now : Nat) (hup : s.mainReset = false) (hport : (s.port p).up = true)
    (hframe : frameOk s p c.frameCtr c.tagOk = true) (hwindow : c.window = 0x3FF) (hgen : c.gen = (s.window 0x3FF).gen) (hkind : c.kind = 2)
    (hctl : c.ctl = some x) (hops : ∀ o ∈ s.remOps, o.qp ≠ c.qp) :
    exec (.cellArrival now p c) s = .next (takeCtl (framed (advance s now) p 64) x) := by
  have hframe' : frameOk (advance s now) p c.frameCtr c.tagOk = true := by
    rw [advance_eq]
    exact hframe
  have hgen' : c.gen = ((advance s now).window 0x3FF).gen := by
    rw [advance_eq]
    exact hgen
  have hland : ∀ len, landing (advance s now) c.qp c.kind c.gen c.window (48 * c.index) len = .land := fun len => by
    simp only [landing, hwindow, if_true]
    rw [if_pos ⟨hgen', hkind⟩]
  have hops' : (advance s now).remOps.find? (fun o => o.qp == c.qp) = none := by
    rw [advance_remOps]
    exact List.find?_eq_none.2 fun o ho => by simp [hops o ho]
  have hbrought : arrive (advance s now) p c.qp c.kind c.gen c.window (48 * c.index) 64 (padTo 48 (c.payload.take 48)) (c.bad.filter (· < 48))
      = framed (advance s now) p 64 := by
    refine (brought_eq (advance s now) p 64 (cellBrings c)).trans ?_
    have hlanded : landed (advance s now) (cellBrings c) = .land := hland _
    have hnone : (advance s now).remOps.find? (fun o => o.qp == (cellBrings c).qp) = none := hops'
    rw [hlanded]
    simp only [hnone]
    rw [if_neg (fun h => h.2 hwindow), framedFor]
    exact if_pos hwindow
  refine (timed_of s (by simp [up, hup, hport]) : execCellArrival now p c s = _).trans ?_
  have hctl' : (if c.window = 0x3FF ∧ landing (advance s now) c.qp c.kind c.gen c.window (48 * c.index) 48 = .land then c.ctl else none)
      = some x := (if_pos ⟨hwindow, hland 48⟩).trans hctl
  simp only [hframe', hctl', hbrought, Bool.not_true, Bool.false_eq_true, if_false]

theorem mem_addNew_self (l : List Nat) (x : Nat) : x ∈ addNew l x := by
  unfold addNew
  split
  · assumption
  · simp

/-! ### Bobbins between packages (R235 to R237) -/

/-- R235: the peer serves. -/
def PeerServes (s : State) (q pkg : Nat) (chunks : List Nat) (f : Fill) : Prop :=
  heldChunks (bobbin s q f.bobbin) ≠ [] ∧ (∀ k ∈ heldChunks (bobbin s q f.bobbin), k ∈ chunks) ∧ f.peers.length < 6
    ∧ ∀ k ∈ f.peers, (routeTo s k).map (routePort s) ≠ (routeTo s pkg).map (routePort s)

theorem takeCtl_probeAnswer {pkg rate : Nat} {digest : BitVec 384} {chunks : List Nat} {f : Fill} (h : Heard s w) (hactive : active s q = true)
    (hfill : (s.part q).fill = some f) (hasked : pkg ∈ f.probing) (hleft : f.probing.erase pkg ≠ [])
    (hdigest : askedDigest (bobbin s q f.bobbin) = digest) :
    (takeCtl w (.probeAnswer q pkg digest chunks rate)).steps = s.steps
      ∧ (PeerServes s q pkg chunks f → ((takeCtl w (.probeAnswer q pkg digest chunks rate)).part q).fill
        = some { f with probing := f.probing.erase pkg, peers := f.peers ++ [pkg], rates := tput f.rates pkg rate })
      ∧ (¬ PeerServes s q pkg chunks f → ((takeCtl w (.probeAnswer q pkg digest chunks rate)).part q).fill
        = some { f with probing := f.probing.erase pkg }) := by
  have hactive' : active w q = true := by
    rw [active, h.partOf]
    exact hactive
  have hfill' : (w.part q).fill = some f := by
    rw [h.partOf]
    exact hfill
  have hbobbin : bobbin w q f.bobbin = bobbin s q f.bobbin := bobbin_congr (by rw [h.partOf]) _
  have hport : ∀ k, (routeTo w k).map (routePort w) = (routeTo s k).map (routePort s) := fun k => by
    rw [h.routeTo, show routePort w = routePort s by funext r; simp only [routePort, h.variant]]
  let serves := !(heldChunks (bobbin s q f.bobbin)).isEmpty && (heldChunks (bobbin s q f.bobbin)).all chunks.contains
    && decide (f.peers.length < 6) && !f.peers.any (fun k => (routeTo s k).map (routePort s) == (routeTo s pkg).map (routePort s))
  let g : Fill → Fill := fun f =>
    let f := { f with probing := f.probing.erase pkg }
    if serves then { f with peers := f.peers ++ [pkg], rates := tput f.rates pkg rate } else f
  have hserves : serves = true ↔ PeerServes s q pkg chunks f := by
    simp only [serves, PeerServes, Bool.and_eq_true, Bool.not_eq_true', List.isEmpty_eq_false_iff, List.all_eq_true, List.contains_iff_mem,
      decide_eq_true_eq, List.any_eq_false, beq_iff_eq, and_assoc, ne_eq]
  have hg : (g f).probing = f.probing.erase pkg := by
    simp only [g]
    split <;> rfl
  have heq : takeCtl w (.probeAnswer q pkg digest chunks rate) = probed (modFill w q g) q := by
    simp only [takeCtl, hactive', if_true, probeAnswered, hfill', hbobbin, hdigest, hport]
    simp only [List.contains_iff_mem.2 hasked, Bool.not_true, bne_self_eq_false, Bool.or_self, Bool.false_eq_true, if_false]
    rfl
  have hopen : probed (modFill w q g) q = modFill w q g := probed_of_probing (fill_modFill hfill' g) (by rw [hg]; exact hleft)
  rw [heq, hopen]
  refine ⟨h.steps, fun hs => ?_, fun hs => ?_⟩
  · rw [fill_modFill hfill' g]
    exact congrArg some (if_pos (hserves.2 hs))
  · rw [fill_modFill hfill' g]
    exact congrArg some (if_neg (hserves.not.2 hs))

theorem servable_heard (h : Heard s w) (q pkg : Nat) (digest : BitVec 384) (chunks : List Nat) :
    servable w q pkg digest chunks = servable s q pkg digest chunks := by
  have hok : backingOk w q = backingOk s q :=
    funext fun b => backingOk_congr (by rw [h.partOf]) (by rw [h.rest]) (by rw [h.rest]) b
  simp only [servable, h.partOf, h.myPkg, hok]
  rw [h.rest]

theorem takeCtl_request {pkg gen i hop : Nat} {digest : BitVec 384} {chunks r : List Nat} {b : Bobbin} (h : Heard s w)
    (hfound : s.parts.findSome? (fun e => if e.2.state = 2 then (servable s e.1 pkg digest chunks).map fun b => (e.1, b) else none)
      = some (k, i, b)) (hroute : routeTo s pkg = some (hop :: r)) :
    pkg ∈ (bobbin (takeCtl w (.request pkg q gen digest chunks)) k i).serving
      ∧ (takeCtl w (.request pkg q gen digest chunks)).steps = s.steps := by
  let v := modBobbin { w with fresh := w.fresh + 1 + 1 } k i fun x =>
    { x with serving := addNew (if serving { w with fresh := w.fresh + 1 + 1 } k x then x.serving else []) pkg }
  obtain ⟨l, heq⟩ : ∃ l, takeCtl w (.request pkg q gen digest chunks) = sendAll v (hopPort v.variant hop) l := by
    have hfound' : w.parts.findSome? (fun e => if e.2.state = 2 then (servable w e.1 pkg digest chunks).map fun b => (e.1, b) else none)
        = some (k, i, b) := by
      simp only [servable_heard h]
      rw [h.rest]
      exact hfound
    simp only [takeCtl, serveChunks, hfound', h.routeTo, hroute, draw]
    exact ⟨_, rfl⟩
  have hsent := sendAll_sends v (hopPort v.variant hop) l
  rw [heq]
  constructor
  · rw [bobbin_of_sends hsent, bobbin_modBobbin_self]
    exact mem_addNew_self _ pkg
  · rw [hsent.rest]
    exact h.steps

end Sys2Proof.Machine

/-! PROOFS. Control cells about jobs and windows (O38; R194, R204, R246, R247, R251, R252, R385, R391, R465). -/

namespace Sys2Proof.Machine

open Sys2Proof.Claims

variable {s t u w : State} {p q j k n : Nat} {st : Step}

theorem job_of_sends (h : Sends s t) (j : Nat) : t.job j = s.job j := by
  rw [State.job, h.rest]
  rfl

theorem live_of_jobOf (h : jobOf s n = some j) : (s.job j).live = true := by
  unfold jobOf at h
  extract_lets x at h
  split at h
  · next hx =>
    cases h
    exact hx.2.1
  · cases h

/-! ### A job is asked for, and answered (R246, R247, R465) -/

/-- A member that can takes the job. -/
theorem takeCtl_ask {ms : List (Nat × Nat)} {sets : List Nat} {i : Nat} (h : Heard s w) (hhere : memberHere s ms i = some q)
    (hactive : active s q = true) (hsets : enrolledAll s sets = true) (hfree : tfind s.jobs (n % 256) = none) :
    (takeCtl w (.ask n i ms sets)).steps = s.steps ∧ (takeCtl w (.ask n i ms sets)).job (n % 256)
      = { live := true, gen := n / 256 % 256, members := ms.map fun m => { pkg := m.1, part := m.2 } } := by
  have hhere' : memberHere w ms i = some q := (h.memberHere ms i).trans hhere
  have hactive' : active w q = true := by
    rw [active, h.partOf]
    exact hactive
  have hsets' : enrolledAll w sets = true := by
    rw [enrolledAll, h.rest]
    exact hsets
  have hfree' : tfind w.jobs (n % 256) = none := by
    rw [h.rest]
    exact hfree
  have hdead : (w.job (n % 256)).live = false := by
    rw [State.job, tget, hfree']
    rfl
  let v := w.modJob (n % 256) fun _ => { live := true, gen := n / 256 % 256, members := ms.map fun m => { pkg := m.1, part := m.2 } }
  obtain ⟨pkg, c, heq⟩ : ∃ pkg c, takeCtl w (.ask n i ms sets) = sendCtl v q pkg (routeTo v pkg) c := by
    simp only [takeCtl, takeAsk, hhere', hactive', hsets', hfree', hdead, Option.all_none, Bool.and_self, Bool.not_false, if_true]
    exact ⟨_, _, rfl⟩
  have hsent := sendCtl_sends v q pkg (routeTo v pkg) c
  rw [heq]
  constructor
  · rw [hsent.rest]
    exact h.steps
  · rw [job_of_sends hsent]
    exact job_modJob_self ..

theorem job_setTable (s : State) (j : Nat) (table : Tab (List Nat)) : ∃ n, (setTable s j table).job j
    = { s.job j with routes := table, tableBytes := n } := ⟨_, tget_tput_self ..⟩

/-- The job's routes are installed at every member; nothing else of the job changes. -/
theorem installRoutes_spec (s : State) (j : Nat) : ((installRoutes s j).job j).waiting = (s.job j).waiting
    ∧ ((installRoutes s j).job j).live = (s.job j).live ∧ (installRoutes s j).funcs = s.funcs := by
  unfold installRoutes
  extract_lets ms pairs v
  have hsends : Sends v _ := forAll_sends (fun (a : State) (e : Member × Nat) =>
    sendCtl_sends a (nth ms 0 {}).part e.1.pkg (tfind pairs e.2) (.ctl e.1.pkg (.routes (jobHandle a j) (tableOf pairs e.2))))
    (ms.zipIdx.filter fun e => e.1.pkg != myPkg v) v
  obtain ⟨n, hjob⟩ := job_setTable s j (tableOf pairs 0)
  have hv : v.job j = { (setTable s j (tableOf pairs 0)).job j with pairs } := job_modJob_self ..
  refine ⟨?_, ?_, ?_⟩
  · rw [job_of_sends hsends, hv, hjob]
  · rw [job_of_sends hsends, hv, hjob]
  · rw [hsends.rest]
    rfl

/-- Member `k` of job `j` has answered. -/
def jobAnswered (s : State) (j k pgen startNo store rest : Nat) : State := s.modJob j fun x =>
  { x with
    waiting := x.waiting.erase k
    members := x.members.zipIdx.map fun e => if e.2 = k then { e.1 with pgen, startNo, store, rest } else e.1 }

section
variable {f tag : Nat} {v : Taken} (h : Heard s w) (hjob : jobOf s n = some j) (hreq : (s.job j).crTag = some (f, tag))
  (htaken : takenOf s f tag = some v)
include h hjob hreq htaken

/-- With the last answer the job is there, and the request for it is answered with its handle. -/
theorem takeCtl_lastAnswer (pgen startNo store rest : Nat) (hwaiting : (s.job j).waiting = [k]) :
    ∃ r : Rsp, ((takeCtl w (.answer n k true pgen startNo store rest)).job j).waiting = []
      ∧ ((takeCtl w (.answer n k true pgen startNo store rest)).job j).live = true
      ∧ ((takeCtl w (.answer n k true pgen startNo store rest)).func f).rsps = (s.func f).rsps ++ [r]
      ∧ r.tag = tag ∧ r.status = 0 ∧ r.detail = BitVec.ofNat 64 (jobHandle s j) := by
  let y := jobAnswered w j k pgen startNo store rest
  have hy : y.job j = _ := job_modJob_self ..
  rw [h.jobAt] at hy
  have hnone : (y.job j).waiting = [] := by
    rw [hy]
    show (s.job j).waiting.erase k = []
    rw [hwaiting]
    simp
  have hhandle : jobHandle y j = jobHandle s j := by
    rw [jobHandle, hy]
    rfl
  have htaken' : takenOf y f tag = some v := by
    rw [takenOf, show y.func f = w.func f from rfl, h.funcAt]
    exact htaken
  have heq : takeCtl w (.answer n k true pgen startNo store rest)
      = installRoutes ((answerOpt y (some (f, tag)) 0 (jobHandle y j)).modJob j fun z => { z with crTag := none }) j := by
    have hwaits : (w.job j).waiting.contains k = true := by
      rw [h.jobAt, hwaiting]
      simp
    have hreq' : (w.job j).crTag = some (f, tag) := by
      rw [h.jobAt]
      exact hreq
    simp only [takeCtl, takeAnswer, h.jobOf, hjob, hwaits, hreq', Bool.not_true, Bool.false_eq_true, if_false]
    rw [← jobAnswered]
    exact if_pos (by rw [hnone]; rfl)
  obtain ⟨r, ⟨fs, hfs⟩, hrsps, -, -, htag, hstatus, hdetail, -⟩ := answerWith_answers htaken' 0 (jobHandle y j) [] [] false
  have hanswer : answerOpt y (some (f, tag)) 0 (jobHandle y j) = answerWith y f tag 0 (jobHandle y j) [] [] false := rfl
  obtain ⟨hwait, hlive, hfuncs⟩ := installRoutes_spec
    ((answerOpt y (some (f, tag)) 0 (jobHandle y j)).modJob j fun z => { z with crTag := none }) j
  have hjobs : (answerWith y f tag 0 (jobHandle y j) [] [] false).job j = y.job j := by
    rw [hfs]
    rfl
  rw [job_modJob_self, hanswer, hjobs] at hwait hlive
  refine ⟨r, ?_, ?_, ?_, htag, hstatus, hdetail.trans (by rw [hhandle])⟩
  · rw [heq, hanswer]
    exact hwait.trans hnone
  · rw [heq, hanswer]
    refine hlive.trans ?_
    rw [hy]
    exact live_of_jobOf hjob
  · rw [heq, State.func, hfuncs, hanswer]
    refine hrsps.trans ?_
    rw [show y.func f = w.func f from rfl, h.funcAt]

end

/-- The index of a job that has left takes its next generation. -/
def jobGone (s : State) (j : Nat) : State := { s with jobs := tmap s.jobs fun k x => if k = j then { gen := (x.gen + 1) % 256 } else x }

theorem live_jobGone (s : State) (j : Nat) : ((jobGone s j).job j).live = false := by
  rw [State.job, jobGone, tget, tfind_tmap]
  cases tfind s.jobs j with
  | none => rfl
  | some x => simp

theorem deleteJob_gone (s : State) (j : Nat) : ∃ u, Fails s u ∧ deleteJob s j = jobGone u j
    ∧ ∀ k st n, tfind s.steps k = some st → st.job = some (j, n) → Undecided st → FailsWith u k 0x0D10 := by
  refine ⟨_, (failAll_fails s _ 0x0D10).trans (closeWindows_fails _ fun w => w.job == j), rfl, fun k st n hst hjob hopen => ?_⟩
  obtain ⟨x, hx, hfail⟩ := failAll_failsWith (status := 0x0D10) (c := fun st => match st.job with
    | some (k, _) => k == j
    | none => false) hst (by simp [hjob]) hopen
  refine ⟨x, ?_, hfail⟩
  rw [closeWindows_shape]
  exact hx

theorem dropJob_gone (s : State) (j : Nat) : ∃ u, Fails s u ∧ dropJob s j = jobGone u j := by
  have htold := forAll_ends (core := Step.kept) (wide := false) (fun t k => sendCtl_fails t 0 k (routeTo t k) (.ctl k (.gone (jobHandle t j))))
    (((((s.job j).members.map (·.pkg)).filter (· != myPkg s)).dedup)) s
  obtain ⟨u, hfails, heq, -⟩ := deleteJob_gone (forAll (((s.job j).members.map (·.pkg)).filter (· != myPkg s)).dedup
    (fun s k => sendCtl s 0 k (routeTo s k) (.ctl k (.gone (jobHandle s j)))) s) j
  exact ⟨u, htold.trans hfails, heq⟩

/-- A refusal ends the job, and the request for it is answered with 0x0614. -/
theorem takeCtl_refusal {f tag : Nat} {v : Taken} (h : Heard s w) (hjob : jobOf s n = some j) (hreq : (s.job j).crTag = some (f, tag))
    (htaken : takenOf s f tag = some v) (pgen startNo store rest : Nat) (hwaiting : k ∈ (s.job j).waiting) :
    ∃ r : Rsp, ((takeCtl w (.answer n k false pgen startNo store rest)).job j).live = false
      ∧ ((takeCtl w (.answer n k false pgen startNo store rest)).func f).rsps = (s.func f).rsps ++ [r]
      ∧ r.tag = tag ∧ r.status = 0x0614 := by
  have heq : takeCtl w (.answer n k false pgen startNo store rest) = answerWith (dropJob w j) f tag 0x0614 0 [] [] false := by
    have hwaits : (w.job j).waiting.contains k = true := by
      rw [h.jobAt]
      simpa using hwaiting
    have hreq' : (w.job j).crTag = some (f, tag) := by
      rw [h.jobAt]
      exact hreq
    simp only [takeCtl, takeAnswer, h.jobOf, hjob, hwaits, hreq', Bool.not_true, Bool.false_eq_true, if_false]
    rfl
  obtain ⟨u, hfails, hdrop⟩ := dropJob_gone w j
  have hfunc : (dropJob w j).func f = { s.func f with evtQueue := ((dropJob w j).func f).evtQueue } := by
    have hu := hfails.func f
    rw [h.funcAt] at hu
    rw [hdrop]
    exact hu
  have htaken' : takenOf (dropJob w j) f tag = some v := by
    rw [takenOf, hfunc]
    exact htaken
  obtain ⟨r, ⟨fs, hfs⟩, hrsps, -, -, htag, hstatus, -⟩ := answerWith_answers htaken' 0x0614 0 [] [] false
  rw [heq]
  refine ⟨r, ?_, hrsps.trans ?_, htag, hstatus⟩
  · rw [State.job, hfs, hdrop]
    exact live_jobGone u j
  · rw [hfunc]

theorem takeCtl_gone (h : Heard s w) (hjob : jobOf s n = some j) : ((takeCtl w (.gone n)).job j).live = false
    ∧ ∀ k st n', tfind s.steps k = some st → st.job = some (j, n') → Undecided st → FailsWith (takeCtl w (.gone n)) k 0x0D10 := by
  have heq : takeCtl w (.gone n) = deleteJob w j := by simp only [takeCtl, h.jobOf, hjob]
  obtain ⟨u, -, hgone, hfails⟩ := deleteJob_gone w j
  rw [heq, hgone]
  refine ⟨live_jobGone u j, fun k st m hst hstep hopen => hfails k st m ?_ hstep hopen⟩
  rw [h.steps]
  exact hst

/-! ### Routes, gates and skeins of a job (R204, R251, R252) -/

theorem takeCtl_routes (h : Heard s w) (hjob : jobOf s n = some j) (table : Tab (List Nat)) :
    ((takeCtl w (.routes n table)).job j).routes = table ∧ (takeCtl w (.routes n table)).steps = s.steps := by
  have heq : takeCtl w (.routes n table) = setTable w j table := by simp only [takeCtl, h.jobOf, hjob]
  obtain ⟨m, hset⟩ := job_setTable w j table
  rw [heq]
  exact ⟨by rw [hset], h.steps⟩

theorem takeCtl_gate (h : Heard s w) (hjob : jobOf s n = some j) (jstep m : Nat) :
    (jstep, m) ∈ ((takeCtl w (.gate n jstep m)).job j).gates ∧ (takeCtl w (.gate n jstep m)).steps = s.steps := by
  have heq : takeCtl w (.gate n jstep m) = w.modJob j fun x => { x with gates := (x.gates ++ [(jstep, m)]).dedup } := by
    simp only [takeCtl, h.jobOf, hjob]
  rw [heq]
  refine ⟨?_, h.steps⟩
  rw [job_modJob_self]
  exact List.mem_dedup.2 (List.mem_append_right _ List.mem_cons_self)

/-- Between `s` and `t` every step kept its complete skeins. -/
def SkeinsKept (k : Nat) (s t : State) : Prop := ∀ slot st, tfind s.steps slot = some st →
  ∃ st', tfind t.steps slot = some st' ∧ (skDone st k = true → skDone st' k = true)

theorem SkeinsKept.refl (k : Nat) (s : State) : SkeinsKept k s s := fun _ st hst => ⟨st, hst, id⟩

theorem SkeinsKept.trans (h : SkeinsKept k s t) (h' : SkeinsKept k t u) : SkeinsKept k s u := fun slot st hst => by
  obtain ⟨x, hx, hdone⟩ := h slot st hst
  obtain ⟨y, hy, hdone'⟩ := h' slot x hx
  exact ⟨y, hy, hdone' ∘ hdone⟩

theorem settleSkeins_keeps (k : Nat) (s : State) (slot : Nat) : SkeinsKept k s (settleSkeins s slot) := by
  unfold settleSkeins
  split
  · exact .refl k s
  · next st hst =>
    split
    · obtain ⟨-, hsteps, -⟩ := lastDone_spec hst
      intro i x hx
      by_cases hi : i = slot
      · subst hi
        cases hst.symm.trans hx
        exact ⟨releasing s st, by rw [hsteps, tfind_tput_self], id⟩
      · exact ⟨x, by rw [hsteps, tfind_tput_ne _ _ hi]; exact hx, id⟩
    · exact .refl k s

/-- Skein `k` of the step in `slot` is complete (R177). -/
def skeinToldAt (k : Nat) (s : State) (slot : Nat) : State :=
  s.modStep slot fun x => { x with skeins := tput x.skeins k (max 4 (tget x.skeins k 0)) }

theorem skDone_told (st : Step) (k : Nat) : skDone { st with skeins := tput st.skeins k (max 4 (tget st.skeins k 0)) } k = true := by
  unfold skDone skState
  rw [tget_tput_self]
  simp

theorem skeinToldAt_keeps (k : Nat) (s : State) (slot : Nat) : SkeinsKept k s (skeinToldAt k s slot) := by
  intro i x hx
  by_cases hi : i = slot
  · subst hi
    exact ⟨_, tfind_modStep_self _ _ hx, fun _ => skDone_told x k⟩
  · exact ⟨x, (tfind_modStep_ne s _ hi).trans hx, id⟩

theorem takeCtl_skein {jstep slot : Nat} (h : Heard s w) (hjob : jobOf s n = some j) (hst : tfind s.steps slot = some st)
    (hstep : st.job = some (j, jstep)) : ∃ st', tfind (takeCtl w (.skein n jstep k)).steps slot = some st' ∧ skDone st' k = true := by
  have heq : takeCtl w (.skein n jstep k)
      = forAll (slotsWhere w fun st => st.job == some (j, jstep)) (fun s slot => settleSkeins (skeinToldAt k s slot) slot) w := by
    simp only [takeCtl, takeProgress, h.jobOf, hjob]
    rfl
  have hst' : tfind w.steps slot = some st := by
    rw [h.steps]
    exact hst
  have hmem : slot ∈ slotsWhere w fun st => st.job == some (j, jstep) := mem_slotsWhere hst' (by simp [hstep])
  have hone : ∀ v i, SkeinsKept k v (settleSkeins (skeinToldAt k v i) i) := fun v i =>
    (skeinToldAt_keeps k v i).trans (settleSkeins_keeps k _ i)
  have htold : ∀ (v : State) x, tfind v.steps slot = some x → ∃ y, tfind (settleSkeins (skeinToldAt k v slot) slot).steps slot = some y
      ∧ skDone y k = true := fun v x hx => by
    obtain ⟨y, hy, hdone⟩ := settleSkeins_keeps k (skeinToldAt k v slot) slot slot _ (tfind_modStep_self _ _ hx)
    exact ⟨y, hy, hdone (skDone_told x k)⟩
  rw [heq]
  generalize (slotsWhere w fun st => st.job == some (j, jstep)) = l at hmem
  clear heq hst h hstep
  induction l generalizing w st with
  | nil => cases hmem
  | cons a l ih =>
    show ∃ st', tfind (forAll l _ (settleSkeins (skeinToldAt k w a) a)).steps slot = some st' ∧ _
    by_cases ha : slot = a
    · subst ha
      obtain ⟨y, hy, hdone⟩ := htold w st hst'
      have hkeep : SkeinsKept k (settleSkeins (skeinToldAt k w slot) slot) _ :=
        forAll_rel (SkeinsKept.refl k) SkeinsKept.trans hone l _
      obtain ⟨z, hz, hdone'⟩ := hkeep slot y hy
      exact ⟨z, hz, hdone' hdone⟩
    · obtain ⟨y, hy, -⟩ := hone w a slot st hst'
      exact ih hy ((List.mem_cons.1 hmem).resolve_left ha)

/-! ### A FETCH from a window here (R194, R385, R391) -/

theorem sendOne_of_none (h : nextTx s.coll.freeze (s.port p) = none) : sendOne s p = s := by simp only [sendOne, h]

theorem forAll_sendOne_of_none {α : Type} (l : List α) (h : nextTx s.coll.freeze (s.port p) = none) :
    forAll l (fun w _ => sendOne w p) s = s := by
  induction l with
  | nil => rfl
  | cons a l ih =>
    show forAll l _ (sendOne s p) = s
    rw [sendOne_of_none h]
    exact ih

theorem msgCost_pos (m : TxMsg) : 0 < msgCost m := by
  unfold msgCost ceilDiv
  split <;> omega

/-- Without credits, or in an egress freeze with no abort notice waiting, nothing leaves. -/
theorem nextTx_of_waits {l : List TxMsg} (h : Waits s p) (hl : ∀ m ∈ l, isNotice m = false) :
    nextTx s.coll.freeze { s.port p with txq := (s.port p).txq ++ l } = none := by
  have hstays : ∀ m ∈ (s.port p).txq ++ l, canSend s.coll.freeze { s.port p with txq := (s.port p).txq ++ l } m = false := fun m hm => by
    have hnotice : isNotice m = false := (List.mem_append.1 hm).elim (h.2 m) (hl m)
    rcases h.1 with hfreeze | ⟨hcell, hbulk⟩
    · simp [canSend, hfreeze, hnotice]
    · simp [canSend, hcell, hbulk, Nat.not_le.2 (msgCost_pos m)]
  have hnone : ((s.port p).txq ++ l).zipIdx.filter (fun e => canSend s.coll.freeze { s.port p with txq := (s.port p).txq ++ l } e.1
      && (((s.port p).txq ++ l).take e.2).all fun m => m.eng != e.1.eng || (s.coll.freeze && !isNotice m)) = [] := by
    refine List.filter_eq_nil_iff.2 fun e he => ?_
    have hmem : e.1 ∈ (s.port p).txq ++ l := by
      obtain ⟨i, hi⟩ := List.mem_iff_getElem?.1 he
      rw [List.getElem?_zipIdx] at hi
      cases hget : ((s.port p).txq ++ l)[i]? with
      | none => simp [hget] at hi
      | some a =>
        rw [hget] at hi
        obtain rfl := Option.some.inj hi
        exact List.mem_of_getElem? hget
    simp [hstays _ hmem]
  show (minBy _ (((s.port p).txq ++ l).zipIdx.filter _)).map _ = none
  rw [hnone]
  rfl

theorem sendAll_of_waits {l : List TxMsg} (h : Waits s p) (hl : ∀ m ∈ l, isNotice m = false) :
    sendAll s p l = s.modPort p fun x => { x with txq := x.txq ++ l } := by
  refine forAll_sendOne_of_none (s := s.modPort p fun x => { x with txq := x.txq ++ l }) _ ?_
  rw [port_modPort_self]
  exact nextTx_of_waits h hl

/-- Data messages are no abort notices. -/
theorem isNotice_dataMsgs {eng qp kind v part : Nat} {route : List Nat} {l : List Run} {slot : Option Nat} {m : TxMsg}
    (hm : m ∈ dataMsgs eng qp kind v part route l slot) : isNotice m = false := by
  have hbulk : ∀ m ∈ l.flatMap (fun r => (pieces 8192 (ceilDiv r.bytes.length 8192) r.bytes).zipIdx.map fun e =>
      ({ bulk := true, eng, qp, kind, window := v % 1023, gen := v / 1023 % 256, part, slot, route, pos := r.pos + 8192 * e.2
         payload := e.1
         bad := (r.bad.filter fun b => decide (8192 * e.2 ≤ b ∧ b < 8192 * (e.2 + 1))).map (· - 8192 * e.2) } : TxMsg)),
      isNotice m = false := fun m hm => by
    obtain ⟨r, -, hr⟩ := List.mem_flatMap.1 hm
    obtain ⟨e, -, rfl⟩ := List.mem_map.1 hr
    rfl
  unfold dataMsgs at hm
  extract_lets window gen bulks at hm
  split at hm
  · split at hm
    · obtain rfl := List.mem_singleton.1 hm
      rfl
    · exact hbulk m hm
  · exact hbulk m hm

/-- The runs of bytes of a window that a FETCH asks for. -/
def fetchedRuns (s : State) (v : Window) (y : FetchAsk) : List Run := y.ranges.map fun q =>
  { pos := q.1, bytes := hbmRead s v.part (v.base + q.1) q.2
    bad := (List.range q.2).filter fun i => hbmPoisoned s v.part (v.base + q.1 + i) 1 }

/-- The messages that serve it. -/
def fetchedMsgs (s : State) (v : Window) (y : FetchAsk) (route : List Nat) : List TxMsg :=
  dataMsgs (2048 + ((partDies (s.part v.part))[0]?).getD 0) y.qp 0 y.back v.part route (fetchedRuns s v y)

theorem takeCtl_fetch {y : FetchAsk} {hop : Nat} {r : List Nat} (h : Heard s w) (hjob : jobOf s y.job = some j)
    (hopen : (s.window y.window).isOpen = true) (hgen : (s.window y.window).gen = y.gen) (howner : (s.window y.window).job = j)
    (hranges : ∀ q ∈ y.ranges, q.1 + q.2 ≤ (s.window y.window).size) (hroute : tfind (s.job j).routes y.member = some (hop :: r))
    (hwaits : Waits s (hopPort s.variant hop)) :
    let t := takeCtl w (.fetch y)
    t.hbm = s.hbm ∧ t.steps = s.steps ∧ (t.port (hopPort s.variant hop)).txq
      = (s.port (hopPort s.variant hop)).txq ++ fetchedMsgs s (s.window y.window) y (hop :: r) := by
  intro t
  have hwindow : w.window y.window = s.window y.window := by
    rw [State.window, h.rest]
    rfl
  let v := forAll y.ranges (fun s' q => touchLines s' (s.window y.window).part false
    (rangeLines (hbmAddr (s.window y.window).part ((s.window y.window).base + q.1)) q.2)) w
  have htouch : Aside 0 (s.window y.window).part w v := .foldl (fun a q => .touchLines _ _ a false _) y.ranges w
  have hsteps : v.steps = w.steps := forAll_keeps State.steps (fun a q => steps_touchLines _ false a _) y.ranges w
  have hports : ∀ q, v.port q = w.port q := fun q => by
    rw [State.port, htouch.rest]
    rfl
  have hmsgs : fetchedMsgs w (s.window y.window) y (hop :: r) = fetchedMsgs s (s.window y.window) y (hop :: r) := by
    rw [h.rest]
    rfl
  have heq : t = sendAll v (hopPort s.variant hop) (fetchedMsgs s (s.window y.window) y (hop :: r)) := by
    have hin : (y.ranges.any fun r => decide ((s.window y.window).size < r.1 + r.2)) = false :=
      List.any_eq_false.2 fun q hq => by
        have := hranges q hq
        simp
        omega
    rw [← hmsgs]
    simp only [t, takeCtl, serveFetch, h.jobOf, hjob, hwindow, hopen, hgen, howner, hin, h.jobAt, hroute]
    simp only [Bool.not_true, bne_self_eq_false, Bool.or_self, Bool.false_eq_true, if_false]
    rw [show hopPort s.variant hop = hopPort v.variant hop by rw [htouch.rest, h.rest]]
    rfl
  have hwaits' : Waits v (hopPort s.variant hop) := by
    unfold Waits
    rw [hports, h.port]
    have hfreeze : v.coll.freeze = s.coll.freeze := by rw [htouch.rest, h.rest]
    rw [hfreeze]
    exact hwaits
  have hdata : ∀ m ∈ fetchedMsgs s (s.window y.window) y (hop :: r), isNotice m = false := fun m hm => isNotice_dataMsgs hm
  rw [heq, sendAll_of_waits hwaits' hdata]
  refine ⟨?_, hsteps.trans h.steps, ?_⟩
  · show v.hbm = s.hbm
    rw [htouch.rest, h.rest]
  · rw [port_modPort_self, hports, h.port]

end Sys2Proof.Machine

/-! PROOFS. Arrivals at the link ports (O38). -/

namespace Sys2Proof.Machine

open Sys2Proof.Claims

variable {s : State} {p : Nat} {x : Brought}

section
variable {i : Instr} {now : Nat} (hup : s.mainReset = false) (hport : (s.port p).up = true) (h : Arrives i now p x)
include hup hport h

theorem exec_brought (hframe : frameOk s p x.ctr x.tagOk = true) : ∃ bytes, exec i s = .next (brought (advance s now) p bytes x) := by
  obtain ⟨bytes, hexec⟩ := exec_arrives hup hport h
  exact ⟨bytes, by rw [hexec, if_pos hframe]⟩

theorem exec_frameFailure (hframe : frameOk s p x.ctr x.tagOk = false) : exec i s = .next (frameFailure (advance s now) p) := by
  obtain ⟨bytes, hexec⟩ := exec_arrives hup hport h
  rw [hexec, if_neg (by simp [hframe])]

end

/-- R404, R406, R407: a piece of a collective waits, is written, or goes on. -/
theorem pieces_arrive {i : Instr} {a : Aon} {bytes : Nat} {o : RemOp} {c : Coll}
    (hexec : exec i s = .next (brought { s with aon := a } p bytes x)) (hland : landed { s with aon := a } x = .land)
    (ho : s.remOps.find? (fun o => o.qp == x.qp) = some o) (hkind : o.kind = 2) (hpiece : x.kind = 1) (hc : o.coll = some c) :
    let rev := c.ringOf (c.place x.pos).1
    let e := (c.place x.pos).1
    let us := cutUnits c.wireBytes (pieceOf x)
    let sums := c.sums e (us.map fun u => (leNat u.1, u.2))
    ((c.flow rev).eng = none →
      ∃ t, exec i s = .next t ∧ t.hbm = s.hbm ∧ t.steps = s.steps ∧ ∃ y ∈ t.remOps, y.id = o.id
        ∧ y.coll = some (c.setFlow rev { c.flow rev with inbox := (c.flow rev).inbox ++ [pieceOf x] }))
    ∧ (∀ eng st, (c.flow rev).eng = some eng → (c.place x.pos).2 = true → c.segOf e = c.own → c.pattern = 1 →
      tfind s.steps o.slot = some st →
      ∃ t, exec i s = .next t
        ∧ Stores s t o.tile o.slot st (unitPuts (stepFile s st) o.dst c e (c.pack c.fmt c.unitBytes sums))
        ∧ ∃ y ∈ t.remOps, y.id = o.id
          ∧ y.coll = some (c.setFlow rev { c.flow rev with got := (c.flow rev).got + us.length }))
    ∧ (∀ eng q, (c.flow rev).eng = some eng → (c.place x.pos).2 = true → c.segOf e ≠ c.own →
      memberPort s c.job (c.first + c.next rev) = some q →
      let out := c.pack c.wire c.wireBytes sums
      ∃ t, exec i s = .next t ∧ t.hbm = s.hbm ∧ t.steps = s.steps
        ∧ ∀ m ∈ unitMsgs eng o c (tget (s.job c.job).routes (c.first + c.next rev) []) c.wireBytes (e * c.wireBytes) out.length out,
            Handed t q m) := by
  intro rev e us sums
  refine ⟨fun heng => ?_, fun eng st heng hsums hown hpattern hst => ?_, fun eng q heng hsums hown hq => ?_⟩
  · exact ⟨_, hexec, brought_waits hland ho hkind hpiece hc heng⟩
  · have hstores := brought_owned (p := p) (bytes := bytes) hland ho hkind hpiece hc heng hsums hown hpattern hst
    exact ⟨_, hexec, hstores⟩
  · have hsent := brought_reduced (p := p) (bytes := bytes) hland ho hkind hpiece hc heng hsums hown hq
    exact ⟨_, hexec, hsent⟩

/-- Settles O38. -/
theorem arrivals : Obligations.Arrivals := by
  unfold Obligations.Arrivals
  refine ⟨fun s i now p x hup hport harr => ?_, fun s now p b hup hport hlo hhi hframe hkind hwindow hops hwf => ?_,
    fun s now p c x hup hport hframe hwindow hgen hkind hctl hops => ?_⟩
  · intro how
    obtain ⟨a, hadv⟩ : ∃ a, advance s now = { s with aon := a } := ⟨_, advance_eq s now⟩
    refine ⟨fun hframe => ?_, fun hframe hinit => ?_⟩
    · obtain ⟨bytes, hexec⟩ := exec_brought hup hport harr hframe
      have hland : ∀ l, how = l → landed { s with aon := a } x = l := fun l hl => by
        rw [← hadv]
        exact hl
      rw [hadv] at hexec
      refine ⟨fun hhow hwindow hkind hops hwf => ?_, fun hhow => ?_, fun hhow hinit => ?_, fun o hhow ho => ?_⟩
      · exact ⟨_, hexec, brought_lands (hland _ hhow) hwindow hkind hops hwf⟩
      · exact ⟨_, hexec, brought_stale (hland _ hhow)⟩
      · exact ⟨_, hexec, brought_bad (hland _ hhow) hinit⟩
      · intro bad
        have hl := hland _ hhow
        refine ⟨fun hkind hless => ?_, fun st r hkind hwhole hadded hst hoff hrun hslot hskein => ?_,
          fun st r hkind hack hadded hst hoff hrun hslot hskein => ?_, fun c hkind hpiece hc => ?_⟩
        · exact ⟨_, hexec, brought_gathers hl ho hkind hless⟩
        · exact ⟨_, hexec, brought_fetched hl ho hkind hwhole hadded hst hoff hrun hslot hskein⟩
        · exact ⟨_, hexec, brought_acknowledged hl ho hkind hack hadded hst hoff hrun hslot hskein⟩
        · exact pieces_arrive hexec hl ho hkind hpiece hc
    · have hexec := exec_frameFailure hup hport harr hframe
      have hinit' : (advance s now).coll.init = true := by
        rw [hadv]
        exact hinit
      obtain ⟨hlog, halarm⟩ := frameFailure_reports p hinit'
      obtain ⟨hdown, hkeying, hctr, hheld⟩ := port_frameFailure (advance s now) p
      rw [advance_port] at hctr hheld
      exact ⟨_, hexec, hlog, halarm, hdown, hkeying, hctr, hheld, List.mem_cons_self⟩
  · intro data hland
    have harr : Arrives (.bulkMessageArrival now p b) now p (bulkBrings b) := .inr ⟨b, rfl, hlo, hhi, rfl⟩
    obtain ⟨a, hadv⟩ : ∃ a, advance s now = { s with aon := a } := ⟨_, advance_eq s now⟩
    obtain ⟨bytes, hexec⟩ := exec_brought hup hport harr hframe
    rw [hadv] at hexec hland
    obtain ⟨hread, -, -, -, -, hsteps⟩ := brought_lands (s := { s with aon := a }) (p := p) (bytes := bytes) (x := bulkBrings b)
      hland hwindow hkind hops hwf
    exact ⟨_, hexec, hsteps, hread⟩
  · have hexec := exec_controlCell now hup hport hframe hwindow hgen hkind hctl hops
    have hheard := heard_framed s now p 64
    generalize framed (advance s now) p 64 = w at hexec hheard
    refine ⟨fun q pkg digest chunks rate f hx hactive hfill hasked hleft hdigest => ?_, fun pkg q gen digest chunks k i b hop r hx hfound hroute => ?_,
      fun n j ms sets q hx hhere hactive hsets hfree => ?_, fun n k pgen startNo store rest j f tag v hx hjob hwaiting hreq htaken => ?_,
      fun n k pgen startNo store rest j f tag v hx hjob hwaiting hreq htaken => ?_, fun n j table hx hjob => ?_, fun n j hx hjob => ?_,
      fun n j jstep m hx hjob => ?_, fun n j jstep k slot st hx hjob hst hstep => ?_, fun y j hop r hx hjob => ?_⟩
    all_goals subst hx
    · intro want serves
      obtain ⟨hsteps, hyes, hno⟩ := takeCtl_probeAnswer (rate := rate) (chunks := chunks) hheard hactive hfill hasked hleft hdigest
      exact ⟨fun hs => ⟨_, hexec, hsteps, hyes hs⟩, fun hs => ⟨_, hexec, hsteps, hno hs⟩⟩
    · exact ⟨_, hexec, takeCtl_request hheard hfound hroute⟩
    · exact ⟨_, hexec, takeCtl_ask hheard hhere hactive hsets hfree⟩
    · obtain ⟨r, hr⟩ := takeCtl_lastAnswer hheard hjob hreq htaken pgen startNo store rest hwaiting
      exact ⟨_, r, hexec, hr⟩
    · obtain ⟨r, hr⟩ := takeCtl_refusal hheard hjob hreq htaken pgen startNo store rest hwaiting
      exact ⟨_, r, hexec, hr⟩
    · exact ⟨_, hexec, takeCtl_routes hheard hjob table⟩
    · exact ⟨_, hexec, takeCtl_gone hheard hjob⟩
    · exact ⟨_, hexec, takeCtl_gate hheard hjob jstep m⟩
    · obtain ⟨st', hst', hdone⟩ := takeCtl_skein hheard hjob hst hstep
      exact ⟨_, st', hexec, hst', hdone⟩
    · intro v hopen hgen howner hranges hroute hwaits
      exact ⟨_, hexec, takeCtl_fetch hheard hjob hopen hgen howner hranges hroute hwaits⟩

end Sys2Proof.Machine

/-! PROOFS. What the operations of a skein that move data have in common: copies' reads, remote operations that open, headers that are
withheld (O23, O24; R60, R62, R193 to R195, R386 to R389, R550). -/

namespace Sys2Proof.Machine

open Sys2Proof.Claims

variable {s t u v w : State} {slot p k : Nat} {i : SkInsn} {r : SkeinRun} {st : Step}

/-! ### Faults that name their steps -/

/-- R430, R444: a contained fault of a shared unit that every partition's traffic can pass fails the step that it names. -/
theorem report_fails {c : Code} (hclass : codeClass c = 2) (hlow : 36 ≤ codeUnit c) (hhigh : codeUnit c ≤ 44) (hlink : codeUnit c ≠ 38)
    (hinit : s.coll.init = true) (hst : tfind s.steps slot = some st) (hopen : Undecided st) :
    FailsWith (report s { code := c, slots := [slot] }) slot (faultStatus c) ∧ c ∈ (report s { code := c, slots := [slot] }).coll.log := by
  generalize hr : ({ code := c, slots := [slot] } : Report) = r
  have hcode : r.code = c := by rw [← hr]
  have hslots : r.slots = [slot] := by rw [← hr]
  have hengine : faultEngine r = none := faultEngine_of_unit (by rw [hcode]; omega) (by rw [hcode]; exact hlink)
  have hst' : tfind (latched s r).steps slot = some st := by rw [latched_steps, hst]
  have hpasses : passes (latched s r) r st.part = true := by
    simp only [passes, hcode]
    rw [if_neg (by omega), if_neg (by omega), if_neg (by omega)]
  have hnamed : slot ∈ faultSteps (latched s r) r := (mem_faultSteps_of_no_engine hengine hst').2 ⟨by simp [hslots], hpasses⟩
  rw [report_of_init (by rw [hcode]; omega) (by rw [hcode]; omega) hinit, reacted, if_neg (by rw [hcode]; omega),
    if_pos (by rw [hcode]; exact hclass), contain_of_no_engine hengine]
  constructor
  · have hfails := stepsFailed_failsWith hnamed hst' hopen
    rw [FailsWith, withIbi_steps]
    rwa [hcode] at hfails
  · rw [withIbi_coll, (stepsFailed_calm (latched s r) r).collector, latched_coll, hcode]
    exact mem_latch_log (by omega)

/-- R389: a header that cannot be written is withheld, and its step fails. -/
theorem withholdOp_fails {j m : Nat} (hcalm : s.coll.inject = []) (hinit : s.coll.init = true) (hst : tfind s.steps slot = some st)
    (hopen : Undecided st) : FailsWith (withholdOp s j m slot) slot 0x0B03 ∧ (0xA804 : Code) ∈ (withholdOp s j m slot).coll.log := by
  have heq : withholdOp s j m slot = report s { code := 0xA804, slots := [slot] } := by
    unfold withholdOp withhold
    split
    · rw [armed_of_calm hcalm, if_neg (by decide)]
    · rfl
  rw [heq]
  exact report_fails (c := 0xA804) (by decide) (by decide) (by decide) (by decide) hinit hst hopen

/-! ### The read of a copy (R60, R62) -/

/-- Between `s` and `u` at most a fault of stored data was recorded. -/
structure Recorded (s u : State) : Prop where
  rest : u = { s with aon := u.aon, coll := u.coll, out := u.out }
  inject : u.coll.inject = s.coll.inject
  init : u.coll.init = s.coll.init
  coords : u.aon.coords = s.aon.coords

theorem inject_latch (now : Nat) (x : Collector) (c : Code) : (latch now x c).inject = x.inject ∧ (latch now x c).init = x.init := by
  unfold latch logCode
  dsimp only
  split
  · split <;> exact ⟨rfl, rfl⟩
  · split <;> split <;> exact ⟨rfl, rfl⟩

namespace Recorded

theorem refl (s : State) : Recorded s s := ⟨rfl, rfl, rfl, rfl⟩

theorem sameStore (h : Recorded s u) : SameStore s u := by
  rw [h.rest]
  exact ⟨rfl, fun _ => rfl, fun _ => rfl, fun _ => rfl, fun _ => rfl, fun _ => rfl⟩

theorem tileAt (h : Recorded s u) (k : Nat) : u.tile k = s.tile k := by
  rw [State.tile, h.rest]
  rfl

theorem partAt (h : Recorded s u) (q : Nat) : u.part q = s.part q := by
  rw [State.part, h.rest]
  rfl

end Recorded

/-- Poisoned stored data that no step is named for is recorded, and nothing more (Table Faults-5). -/
theorem report_stored_recorded {t : Nat} (s : State) (ht : t < 2048) :
    Recorded s (report s { code := mkCode 2 (tileDie t) 0x02, engine := t }) := by
  have hdie := tileDie_lt ht
  obtain ⟨hunit, hclass, hcause⟩ := code_of_stored hdie
  by_cases hinit : s.coll.init = true
  · have hsteps : ∀ v, stepsFailed v { code := mkCode 2 (tileDie t) 0x02, engine := t } = v := fun v => by
      have hengine : faultEngine { code := mkCode 2 (tileDie t) 0x02, engine := t } = some t :=
        faultEngine_of_tile (by simp only [hunit]; exact hdie) (by simp only [hcause]; decide)
      have hnone : faultSteps v { code := mkCode 2 (tileDie t) 0x02, engine := t } = [] := by
        simp [faultSteps, hengine, ht, hcause]
      simp only [stepsFailed, faultParts, hnone]
      rfl
    have heq : report s { code := mkCode 2 (tileDie t) 0x02, engine := t }
        = withIbi s (latched s { code := mkCode 2 (tileDie t) 0x02, engine := t }) := by
      rw [report_of_die [] ht (by decide) hinit, contain_stored _ _ (by rw [hunit]; exact hdie) hcause ht, hsteps]
    obtain ⟨hinject, hinit'⟩ := inject_latch (time s)
      { s.coll with recs := s.coll.recs ++ faultRecs s { code := mkCode 2 (tileDie t) 0x02, engine := t } } (mkCode 2 (tileDie t) 0x02)
    rw [heq]
    refine ⟨?_, ?_, ?_, ?_⟩
    · rw [withIbi_eq, latched_eq]
    · rw [withIbi_coll, latched_coll]
      exact hinject
    · rw [withIbi_coll, latched_coll]
      exact hinit'
    · rw [withIbi_eq, latched_eq]
  · have heq : report s { code := mkCode 2 (tileDie t) 0x02, engine := t }
        = s.modColl fun x => { x with early := x.early ++ [{ code := mkCode 2 (tileDie t) 0x02, engine := t }] } := by
      have htaken : ¬ (codeClass (mkCode 2 (tileDie t) 0x02) = 0 ∨ 44 < codeUnit (mkCode 2 (tileDie t) 0x02)) := by
        rw [hclass, hunit]
        omega
      have hcond : (!s.coll.init && codeUnit (mkCode 2 (tileDie t) 0x02) != 41) = true := by
        rw [hunit]
        simp [hinit]
        omega
      simp only [report, if_neg htaken, hcond, if_true]
    rw [heq]
    exact ⟨rfl, rfl, rfl, rfl⟩

theorem copyRead_eq {t : Nat} (hcalm : s.coll.inject = []) (slot : Nat) (st : Step) (a : Nat) : copyRead s t slot st a
    = if inScratch s slot st a && (readStored s t slot st a).any (·.2.2) then report s { code := mkCode 2 (tileDie t) 0x02, engine := t }
      else s := by
  unfold copyRead
  dsimp only
  rw [check_of_calm hcalm, armed_of_calm hcalm]
  cases inScratch s slot st a <;> rfl

theorem copyRead_recorded {t : Nat} (hcalm : s.coll.inject = []) (ht : t < 2048) (slot : Nat) (st : Step) (a : Nat) :
    Recorded s (copyRead s t slot st a) := by
  rw [copyRead_eq hcalm]
  split
  · exact report_stored_recorded s ht
  · exact .refl s

theorem copyRead_of_clean {t a : Nat} (hcalm : s.coll.inject = []) (hclean : Clean s t slot st a) : copyRead s t slot st a = s := by
  rw [copyRead_eq hcalm, show (readStored s t slot st a).any (·.2.2) = false from hclean, Bool.and_false]
  rfl

theorem readStored_recorded (h : Recorded s u) (t slot : Nat) (st : Step) (a : Nat) : readStored u t slot st a = readStored s t slot st a := by
  rw [h.rest]
  rfl

/-! ### A remote operation opens (R386, R550) -/

/-- Between `s` and `u` operation `op` opened for a step of partition `p`. -/
structure Opened (p : Nat) (op : RemOp) (s u : State) : Prop where
  rest : u = { s with
    fresh := u.fresh, parts := u.parts, hbm := u.hbm, hbmPoison := u.hbmPoison, windows := u.windows, opNext := u.opNext
    remOps := s.remOps ++ [op] }
  part : ∀ q, u.part q = { s.part q with counters := (u.part q).counters, trace := (u.part q).trace, obs := (u.part q).obs }
  others : ∀ q, q ≠ p → u.part q = s.part q
  untraced : op.kind = 2 ∨ (s.part p).trace.on = false → u.hbm = s.hbm ∧ u.hbmPoison = s.hbmPoison ∧ u.part p = s.part p
  windows : op.kind ≠ 1 → ∀ e ∈ u.windows, e.2.isOpen = true → some e.2.job = st.job.map (·.1) → op.qp ∈ e.2.qps

/-- The state in which the operation's queue pair has been chosen and its mover has written its record. -/
def opTraced (s : State) (slot t kind : Nat) : State :=
  if kind ≤ 1 then traceStep (draw s).2 slot 3 0 (2048 + tileDie t) 0 else (draw s).2

/-- The windows that accept a queue pair. -/
def pairedWindows (l : Tab Window) (job : Option Nat) (kind qp : Nat) : Tab Window :=
  if kind ≠ 1 then tmap l fun _ w => if w.isOpen ∧ some w.job = job then { w with qps := addNew w.qps qp } else w else l

theorem mem_pairedWindows {l : Tab Window} {job : Option Nat} {kind qp : Nat} {e : Nat × Window} (hkind : kind ≠ 1)
    (he : e ∈ pairedWindows l job kind qp) (hopen : e.2.isOpen = true) (hjob : some e.2.job = job) : qp ∈ e.2.qps := by
  rw [pairedWindows, if_pos hkind] at he
  obtain ⟨x, -, rfl⟩ := List.mem_map.1 he
  dsimp only at hopen hjob ⊢
  split at hopen <;> rename_i hx
  · rw [if_pos hx]
    exact mem_addNew_self _ _
  · rw [if_neg hx] at hjob
    exact absurd ⟨hopen, hjob⟩ hx

theorem opTraced_traces (s : State) (slot t kind : Nat) : Traces { s with fresh := s.fresh + 1 } (opTraced s slot t kind) := by
  unfold opTraced
  split
  · exact traceStep_traces ..
  · exact .refl _

theorem opTraced_of_untraced {t kind : Nat} (hst : tfind s.steps slot = some st) (h : kind = 2 ∨ (s.part st.part).trace.on = false) :
    opTraced s slot t kind = { s with fresh := s.fresh + 1 } := by
  unfold opTraced
  split
  · refine traceStep_of_off _ _ _ _ _ fun y hy => ?_
    cases hst.symm.trans hy
    exact h.resolve_left (by omega)
  · rfl

theorem part_opTraced_ne {t kind q : Nat} (hst : tfind s.steps slot = some st) (hq : q ≠ st.part) :
    (opTraced s slot t kind).part q = s.part q := by
  unfold opTraced traceStep
  split
  · rw [show tfind (draw s).2.steps slot = some st from hst]
    exact part_traceRec_ne _ _ hq
  · rfl

theorem newOp_opened {t skein kind member dst want port : Nat} {coll : Option Coll} (hst : tfind s.steps slot = some st) :
    ∃ qp u, newOp s slot t skein kind member dst want port false coll
        = ({ id := s.opNext, slot, tile := t, skein, kind, member, dst, want, qp, port, last := time s, coll }, u)
      ∧ Opened (st := st) st.part
        { id := s.opNext, slot, tile := t, skein, kind, member, dst, want, qp, port, last := time s, coll } s u := by
  have htraces := opTraced_traces s slot t kind
  have hothers := fun q => part_opTraced_ne (t := t) (kind := kind) (q := q) hst
  have hquiet := opTraced_of_untraced (t := t) (kind := kind) hst
  have hjob : ((tfind (opTraced s slot t kind).steps slot).bind (·.job)).map (·.1) = st.job.map (·.1) := by
    rw [htraces.rest, hst]
    rfl
  have heq : newOp s slot t skein kind member dst want port false coll
      = ({ id := s.opNext, slot, tile := t, skein, kind, member, dst, want, qp := (draw s).1 % 65536, port, last := time s, coll },
        { opTraced s slot t kind with
          windows := pairedWindows (opTraced s slot t kind).windows
            (((tfind (opTraced s slot t kind).steps slot).bind (·.job)).map (·.1)) kind ((draw s).1 % 65536)
          remOps := (opTraced s slot t kind).remOps ++
            [{ id := s.opNext, slot, tile := t, skein, kind, member, dst, want, qp := (draw s).1 % 65536, port, last := time s, coll }]
          opNext := ((opTraced s slot t kind).opNext + 1) % 65536 }) := by
    unfold newOp pairedWindows opTraced
    dsimp only [draw]
    by_cases hkind : kind = 1
    · subst hkind
      rfl
    · simp only [if_pos hkind]
      rfl
  generalize opTraced s slot t kind = v at *
  refine ⟨_, _, heq, ?_, fun q => htraces.part q, hothers, fun h => ?_, fun hkind e he hopen hwin => ?_⟩
  · rw [htraces.rest]
  · rw [hquiet h]
    exact ⟨rfl, rfl, rfl⟩
  · rw [hjob] at he
    exact mem_pairedWindows hkind he hopen hwin

end Sys2Proof.Machine

/-! PROOFS. FETCH and SEND within this package and to other members (O23; R85, R193 to R195, R384, R386). -/

namespace Sys2Proof.Machine

open Sys2Proof.Claims

variable {s u v w : State} {t slot p k a d member m : Nat} {i : SkInsn} {r : SkeinRun} {st : Step} {op : RemOp}

/-! ### What an issue leaves of members and routes -/

theorem memberOf_noteIssue (t : Nat) (i : SkInsn) (hst : tfind s.steps r.slot = some st) (n field : Nat) :
    memberOf (noteIssue s t i r st) st n field = memberOf s st n field := by
  rw [noteIssue_shape t i hst]
  rfl

theorem memberPort_noteIssue (t : Nat) (i : SkInsn) (hst : tfind s.steps r.slot = some st) (j m : Nat) :
    memberPort (noteIssue s t i r st) j m = memberPort s j m := by
  rw [noteIssue_shape t i hst]
  rfl

theorem job_noteIssue (t : Nat) (i : SkInsn) (hst : tfind s.steps r.slot = some st) (j : Nat) :
    (noteIssue s t i r st).job j = s.job j := by
  rw [State.job, noteIssue_shape t i hst]
  rfl

/-! ### Copies within this package -/

theorem copyView_eq (hst : tfind s.steps r.slot = some st) (hquiet : Untraced s r st)
    (hrecorded : Recorded (noteIssue s t i r st) (copyRead (noteIssue s t i r st) t r.slot st a)) :
    copyView (noteIssue s t i r st) t r.slot st a d
      = moved (moved (putAll (copyRead (noteIssue s t i r st) t r.slot st a) t r.slot (copyPuts (stepFile s st) d (readStored s t r.slot st a)))
          t r.slot st a (bitsLen (readStored s t r.slot st a)) false) t r.slot st d (bitsLen (readStored s t r.slot st a)) true := by
  have hread : readStored (copyRead (noteIssue s t i r st) t r.slot st a) t r.slot st a = readStored s t r.slot st a :=
    (readStored_recorded hrecorded t r.slot st a).trans (readStored_noteIssue t i hst hquiet r.slot a)
  have hfile : stepFile (copyRead (noteIssue s t i r st) t r.slot st a) st = stepFile s st := by
    rw [stepFile, hrecorded.partAt]
    exact stepFile_noteIssue t i hst
  unfold copyView
  dsimp only
  rw [hread, hfile]
  rfl

theorem moved_settled {m : State} (hcalm : m.coll.inject = []) (a d n k : Nat) :
    Settled slot st.part m (moved (moved m t slot st a n false) t slot st d k true) :=
  (moved_aside hcalm t slot st a n false).settled.moved hcalm t d k true

theorem copyView_clean (h : Issues s t i r st) (hquiet : Untraced s r st) (hclean : Clean s t r.slot st a) :
    IssueFrame s (copyView (noteIssue s t i r st) t r.slot st a d) r.slot st.part
      ∧ Stores s (copyView (noteIssue s t i r st) t r.slot st a d) t r.slot st (copyPuts (stepFile s st) d (readStored s t r.slot st a))
      ∧ ((copyView (noteIssue s t i r st) t r.slot st a d).tile t).run = some (stepRun r i)
      ∧ ∀ k, k ≠ t → SameWork ((copyView (noteIssue s t i r st) t r.slot st a d).tile k) (s.tile k) := by
  obtain ⟨-, -, hst, hcalm⟩ := id h
  have hclean' : Clean (noteIssue s t i r st) t r.slot st a := by
    rw [Clean, readStored_noteIssue t i hst hquiet]
    exact hclean
  have hsame := copyRead_of_clean (inject_noteIssue t i hst hcalm) hclean'
  have hrecorded : Recorded (noteIssue s t i r st) (copyRead (noteIssue s t i r st) t r.slot st a) := by
    rw [hsame]
    exact .refl _
  have heq := copyView_eq (d := d) hst hquiet hrecorded
  rw [hsame] at heq
  have hput : (putAll (noteIssue s t i r st) t r.slot (copyPuts (stepFile s st) d (readStored s t r.slot st a))).coll.inject = [] := by
    rw [(putAll_laid t _ (tfind_noteIssue_self t i hst)).frame.rest]
    exact inject_noteIssue t i hst hcalm
  obtain ⟨hframe, -, hstores, hrun, hothers, -⟩ := puts_ready hst (ready_noteIssue t i hst) (moved_settled (t := t) (st := st) hput a d _ _)
  rw [heq]
  exact ⟨hframe, hstores hquiet, hrun, hothers⟩

/-- Writes depend on a step by the places of its tensors. -/
theorem stores_of_places {st₁ : Step} {l : List Put} (hplaces : ∀ v j, tensorPlace v slot st₁ j = tensorPlace v slot st j)
    (h : Stores s u t slot st₁ l) : Stores s u t slot st l := by
  simp only [Stores, StoresOnly, Apart, Claims.Placed, Touches, TouchesScratch, bitsAt, startBit, hplaces] at h ⊢
  exact h

/-- R62, R195: a copy carries poison with it, and its skein does not fail for it. -/
theorem copyView_poisoned (h : Issues s t i r st) (hquiet : Untraced s r st) (ht : t < 2048) :
    ∃ st', Stores s (copyView (noteIssue s t i r st) t r.slot st a d) t r.slot st (copyPuts (stepFile s st) d (readStored s t r.slot st a))
      ∧ tfind (copyView (noteIssue s t i r st) t r.slot st a d).steps r.slot = some st' ∧ st'.fail = st.fail
      ∧ ((copyView (noteIssue s t i r st) t r.slot st a d).tile t).run = some (stepRun r i) := by
  obtain ⟨-, -, hst, hcalm⟩ := id h
  have hcalm' := inject_noteIssue t i hst hcalm
  have hrecorded := copyRead_recorded hcalm' ht r.slot st a
  have heq := copyView_eq (d := d) hst hquiet hrecorded
  have hstep : tfind (copyRead (noteIssue s t i r st) t r.slot st a).steps r.slot = some (notedStep s i r st) := by
    rw [hrecorded.rest]
    exact tfind_noteIssue_self t i hst
  have hstore := (sameStore_noteIssue t i hst hquiet).trans hrecorded.sameStore
  have htile : (copyRead (noteIssue s t i r st) t r.slot st a).tile t = notedTile s t (stepRun r i) :=
    (hrecorded.tileAt t).trans (tile_noteIssue_self t i hst)
  have hcalmw : (copyRead (noteIssue s t i r st) t r.slot st a).coll.inject = [] := hrecorded.inject.trans hcalm'
  rw [heq]
  generalize copyRead (noteIssue s t i r st) t r.slot st a = w at hstep hstore htile hcalmw
  generalize copyPuts (stepFile s st) d (readStored s t r.slot st a) = puts
  generalize bitsLen (readStored s t r.slot st a) = n
  have hlaid := putAll_laid t puts hstep
  have hput : (putAll w t r.slot puts).coll.inject = [] := by
    rw [hlaid.frame.rest]
    exact hcalmw
  have hfirst := moved_aside hput t r.slot st a n false
  have hcalmv : (moved (putAll w t r.slot puts) t r.slot st a n false).coll.inject = [] := by
    rw [hfirst.rest]
    exact hput
  have haside := hfirst.trans (moved_aside hcalmv t r.slot st d n true)
  obtain ⟨b, hb⟩ := hlaid.frame.step _ hstep
  obtain ⟨c, hc⟩ := haside.step _ hb
  obtain ⟨hrun, -⟩ := hlaid.frame.work t
  refine ⟨_, stores_of_places (st₁ := notedStep s i r st) (fun _ _ => rfl) (stores_of_putAll hstep hstore haside.sameStore), hc, rfl, ?_⟩
  rw [haside.tile, hrun, htile]
  rfl

/-! ### FETCH of another member's data -/

namespace Opened

theorem tileAt (h : Opened (st := st) p op s u) (k : Nat) : u.tile k = s.tile k := by
  rw [State.tile, h.rest]
  rfl

theorem issueFrame (h : Opened (st := st) p op s u) (slot : Nat) : IssueFrame s u slot p := by
  refine ⟨fun k _ => by rw [h.rest], h.others, by rw [h.part], by rw [h.part], by rw [h.part], ?_⟩
  rw [h.rest]
  exact ⟨rfl, rfl, rfl, rfl, rfl, rfl, rfl, rfl, rfl, rfl⟩

end Opened

/-- The operation counts among its step's requests, and the skein's run is `r`. -/
def opCounted (s : State) (t slot : Nat) (r : SkeinRun) : State :=
  (setRun s t r).modStep slot fun x => { x with requests := x.requests + 1 }

theorem opCounted_eq {y : Step} (t : Nat) (r : SkeinRun) (hy : tfind s.steps slot = some y) : opCounted s t slot r = { s with
    tiles := tput s.tiles t { s.tile t with run := some r }, steps := tput s.steps slot { y with requests := y.requests + 1 } } := by
  unfold opCounted
  rw [modStep_of_some (setRun s t r) _ hy]
  rfl

/-- The cell that asks a member for data (R194). -/
def askCell (s : State) (st : Step) (a qp w back : Nat) : Ctl :=
  .fetch
    { job := jobHandle s (jobIdx st), member := ownMember s st, window := w % 1023, gen := w / 1023 % 256
      ranges := askRanges (stepFile s st) (viewBits (stepFile s st) a), qp, back }

theorem askFetch_eq (s : State) (st : Step) (a m qp : Nat) : ∃ w back, askFetch s st a m qp
    = sendCtl { s with fresh := s.fresh + 2 } st.part ((s.job (jobIdx st)).members.getD m {}).pkg (tfind (s.job (jobIdx st)).routes m)
      (.ctl ((s.job (jobIdx st)).members.getD m {}).pkg (askCell s st a qp w back)) := ⟨_, _, rfl⟩

theorem job_of_memberOf {n field : Nat} (h : memberOf s st n field = some m) : st.job.map (·.1) = some (jobIdx st) := by
  unfold memberOf at h
  unfold jobIdx
  cases hjob : st.job with
  | none => simp [hjob] at h
  | some j => rfl

theorem route_of_memberPort {j : Nat} (h : memberPort s j m = some p) :
    ∃ hop rest, tfind (s.job j).routes m = some (hop :: rest) ∧ hopPort s.variant hop = p := by
  obtain ⟨hfirst, -⟩ := Option.filter_eq_some_iff.1 h
  unfold firstPort at hfirst
  split at hfirst
  · next hop rest hroute => exact ⟨hop, rest, hroute, Option.some.inj hfirst⟩
  · cases hfirst

theorem bitsLen_readStored (h : stepFile u st = stepFile s st) (t t' slot slot' d : Nat) :
    bitsLen (readStored u t slot st d) = bitsLen (readStored s t' slot' st d) := by
  simp only [bitsLen, readStored, h, List.map_map]
  rfl

/-- The messages wait at the port. -/
def queuedAt (s : State) (p : Nat) (l : List TxMsg) : State := s.modPort p fun x => { x with txq := x.txq ++ l }

/-- A control cell to a member of another package waits at its port while nothing can leave. -/
theorem sendCtl_of_waits {part pkg hop : Nat} {route : List Nat} {c : Out} (hpkg : pkg ≠ myPkg s)
    (hnotice : ∀ m : TxMsg, m.ctl = some c → isNotice m = false) (hwaits : Waits s (hopPort s.variant hop)) :
    ∃ m, sendCtl s part pkg (some (hop :: route)) c = queuedAt s (hopPort s.variant hop) [m] ∧ m.ctl = some c := by
  refine ⟨{ eng := 0xFFF, kind := 2, window := 0x3FF, part, route := hop :: route, ctl := some c }, ?_, rfl⟩
  simp only [sendCtl, if_neg hpkg]
  exact sendAll_of_waits hwaits fun m hm => hnotice m (by rw [List.mem_singleton.1 hm])

theorem issueFrame_queuedAt (s : State) (p q : Nat) (l : List TxMsg) (slot : Nat) : IssueFrame s (queuedAt s p l) slot q :=
  ⟨fun _ _ => rfl, fun _ _ => rfl, rfl, rfl, rfl, rfl, rfl, rfl, rfl, rfl, rfl, rfl, rfl, rfl, rfl⟩

theorem issueFrame_fresh (h : IssueFrame s u slot p) (n : Nat) : IssueFrame s { u with fresh := n } slot p := h

theorem issueFrame_opCounted {y : Step} (t q : Nat) (r : SkeinRun) (hy : tfind s.steps slot = some y) :
    IssueFrame s (opCounted s t slot r) slot q := by
  rw [opCounted_eq t r hy]
  exact ⟨fun k hk => tfind_tput_ne _ _ hk, fun _ _ => rfl, rfl, rfl, rfl, rfl, rfl, rfl, rfl, rfl, rfl, rfl, rfl, rfl, rfl⟩

/-- What a FETCH of another member's data leaves, before the member is asked for it. -/
structure Fetching (t d : Nat) (r : SkeinRun) (st : Step) (qp : Nat) (n v : State) : Prop where
  rest : v = { n with
    fresh := v.fresh, parts := v.parts, hbm := v.hbm, hbmPoison := v.hbmPoison, windows := v.windows, opNext := v.opNext
    remOps := v.remOps, tiles := v.tiles, steps := v.steps }
  frame : IssueFrame n v r.slot st.part
  hbm : (n.part st.part).trace.on = false → v.hbm = n.hbm
  run : (v.tile t).run = some { r with fetchOut := r.fetchOut + 1 }
  others : ∀ k, k ≠ t → v.tile k = n.tile k
  windows : ∀ e ∈ v.windows, e.2.isOpen = true → some e.2.job = st.job.map (·.1) → qp ∈ e.2.qps
  step : tfind v.steps r.slot = some { st with requests := st.requests + 1 }

theorem fetching_of_opened {n o : State} {qp : Nat} (hst : tfind n.steps r.slot = some st) (hop : op.kind = 0) (hqp : op.qp = qp)
    (h : Opened (st := st) st.part op n o) :
    Fetching t d r st qp n (opCounted o t r.slot { r with fetchOut := r.fetchOut + 1 })
      ∧ (opCounted o t r.slot { r with fetchOut := r.fetchOut + 1 }).remOps = n.remOps ++ [op] := by
  have hst' : tfind o.steps r.slot = some st := by
    rw [h.rest]
    exact hst
  have hrest := opCounted_eq t { r with fetchOut := r.fetchOut + 1 } hst'
  refine ⟨⟨?_, ?_, fun hoff => ?_, ?_, fun k hk => ?_, fun e he => ?_, ?_⟩, ?_⟩
  · rw [hrest, h.rest]
  · exact issueFrame_trans (h.issueFrame r.slot) (issueFrame_opCounted t st.part _ hst')
  · rw [hrest]
    exact (h.untraced (.inr hoff)).1
  · rw [hrest]
    simp [State.tile]
  · rw [State.tile, hrest]
    exact (tget_tput_ne _ _ _ hk).trans (h.tileAt k)
  · rw [hrest] at he
    exact hqp ▸ h.windows (by omega) e he
  · rw [hrest]
    exact tfind_tput_self _ _ _
  · rw [hrest, h.rest]

theorem exec_fetch_remote (h : Issues s t (.fetch a d member) r st) (hm : memberOf s st (stepFile s st).req.members member = some m)
    (hport : memberPort s (jobIdx st) m = some p) : ∃ qp v, exec (.fetch t a d member) s = .next (askFetch v st a m qp)
      ∧ Fetching t d (stepRun r (.fetch a d member)) (notedStep s (.fetch a d member) r st) qp (noteIssue s t (.fetch a d member) r st) v
      ∧ v.remOps = s.remOps ++
        [{ id := s.opNext, slot := r.slot, tile := t, skein := r.skein, kind := 0, member := m, dst := d,
           want := bitsLen (readStored s t r.slot st d), qp, port := p, last := time s }] := by
  obtain ⟨-, -, hst, -⟩ := id h
  have hstep := tfind_noteIssue_self t (.fetch a d member) hst
  have hfile := stepFile_noteIssue t (.fetch a d member) hst
  have hm' : memberOf (noteIssue s t (.fetch a d member) r st) st (stepFile (noteIssue s t (.fetch a d member) r st) st).req.members member
      = some m := by rw [memberOf_noteIssue t _ hst, hfile, hm]
  have hport' : memberPort (noteIssue s t (.fetch a d member) r st) (jobIdx st) m = some p := by
    rw [memberPort_noteIssue t _ hst, hport]
  have hwant := bitsLen_readStored hfile t t r.slot r.slot d
  obtain ⟨qp, o, hnew, hopened⟩ := newOp_opened (t := t) (skein := r.skein) (kind := 0) (member := m) (dst := d)
    (want := bitsLen (readStored s t r.slot st d)) (port := p) (coll := none) hstep
  have hshape := noteIssue_shape t (.fetch a d member) hst
  have hid : (noteIssue s t (.fetch a d member) r st).opNext = s.opNext := by rw [hshape]
  have htime : time (noteIssue s t (.fetch a d member) r st) = time s := by
    rw [hshape]
    rfl
  have hops : (noteIssue s t (.fetch a d member) r st).remOps = s.remOps := by rw [hshape]
  have hexec := skein_of_issues [9] (fun s slot st r =>
    match memberOf s st (stepFile s st).req.members member with
    | none => copyView s t slot st a d
    | some m => match memberPort s (jobIdx st) m with
      | none => withholdOp s (jobIdx st) m slot
      | some p =>
        let (op, s) := newOp s slot t r.skein 0 m d (bitsLen (readStored s t slot st d)) p
        let s := setRun s t { r with fetchOut := r.fetchOut + 1 }
        askFetch (s.modStep slot fun x => { x with requests := x.requests + 1 }) st a m op.qp) h
  generalize noteIssue s t (.fetch a d member) r st = n at *
  obtain ⟨hfetching, hremOps⟩ := fetching_of_opened (r := stepRun r (.fetch a d member)) (t := t) (d := d) hstep rfl rfl hopened
  rw [hops, hid, htime] at hremOps
  refine ⟨qp, _, ?_, hfetching, hremOps⟩
  refine (show execFetch t a d member s = _ from hexec).trans ?_
  simp only [hm', hport', hwant]
  rw [show (stepRun r (.fetch a d member)).skein = r.skein from rfl, hnew]
  rfl

theorem stepRun_fetch (r : SkeinRun) : stepRun r (.fetch a d member) = { r with code := r.code.drop 1 } := by
  simp [stepRun, isFetch, onMatrix, onVector]

/-- What a member's data being asked for does not depend on. -/
theorem Fetching.congr {n : State} {y : Step} {qp : Nat} (h : Fetching t d r y qp n v) : v.jobs = n.jobs ∧ v.aon = n.aon
    ∧ v.coll = n.coll ∧ v.ports = n.ports ∧ v.variant = n.variant := by
  rw [h.rest]
  exact ⟨rfl, rfl, rfl, rfl, rfl⟩

/-- R194: the cell that asks for the data waits at the port of the member's route. -/
theorem askFetch_waits {qp : Nat} (hport : memberPort v (jobIdx st) m = some p) (hwaits : Waits v p)
    (hpkg : ((v.job (jobIdx st)).members.getD m {}).pkg ≠ myPkg v) :
    ∃ c x, askFetch v st a m qp = queuedAt { v with fresh := v.fresh + 2 } p [c]
      ∧ c.ctl = some (.ctl ((v.job (jobIdx st)).members.getD m {}).pkg (.fetch x)) ∧ x.qp = qp
      ∧ x.job = jobHandle v (jobIdx st) ∧ x.member = ownMember v st ∧ x.ranges = askRanges (stepFile v st) (viewBits (stepFile v st) a) := by
  obtain ⟨hop, rest, hroute, rfl⟩ := route_of_memberPort hport
  obtain ⟨w, back, hask⟩ := askFetch_eq v st a m qp
  obtain ⟨c, hsent, hctl⟩ := sendCtl_of_waits (s := { v with fresh := v.fresh + 2 }) (part := st.part) (hop := hop) (route := rest)
    (c := .ctl ((v.job (jobIdx st)).members.getD m {}).pkg (askCell v st a qp w back)) hpkg
    (fun m hm => by unfold isNotice; rw [hm]) hwaits
  rw [hask, hroute]
  exact ⟨c, _, hsent, hctl, rfl, rfl, rfl, rfl⟩

theorem askFetch_sends (v : State) (st : Step) (a m qp : Nat) : Sends { v with fresh := v.fresh + 2 } (askFetch v st a m qp) := by
  obtain ⟨w, back, hask⟩ := askFetch_eq v st a m qp
  rw [hask]
  exact sendCtl_sends _ _ _ _ _

theorem fetch_remote (h : Issues s t (.fetch a d member) r st) (hm : memberOf s st (stepFile s st).req.members member = some m)
    (hport : memberPort s (jobIdx st) m = some p) :
    let pkg := ((s.job (jobIdx st)).members.getD m {}).pkg
    ∃ u qp, exec (.fetch t a d member) s = .next u
      ∧ ((s.part st.part).trace.on = false → u.hbm = s.hbm)
      ∧ (u.tile t).run = some { r with code := r.code.drop 1, fetchOut := r.fetchOut + 1 } ∧ (∀ k, k ≠ t → u.tile k = s.tile k)
      ∧ u.remOps = s.remOps ++
        [{ id := s.opNext, slot := r.slot, tile := t, skein := r.skein, kind := 0, member := m, dst := d,
           want := bitsLen (readStored s t r.slot st d), qp, port := p, last := time s }]
      ∧ (∀ e ∈ u.windows, e.2.isOpen = true → e.2.job = jobIdx st → qp ∈ e.2.qps)
      ∧ (∃ st', tfind u.steps r.slot = some st' ∧ st'.requests = st.requests + 1 ∧ st'.skeins = st.skeins)
      ∧ (Waits s p → pkg ≠ myPkg s → IssueFrame s u r.slot st.part
        ∧ ∃ c x, (u.port p).txq = (s.port p).txq ++ [c] ∧ c.ctl = some (.ctl pkg (.fetch x)) ∧ x.qp = qp
          ∧ x.job = jobHandle s (jobIdx st) ∧ x.member = ownMember s st
          ∧ x.ranges = askRanges (stepFile s st) (viewBits (stepFile s st) a)) := by
  intro pkg
  obtain ⟨-, -, hst, -⟩ := id h
  obtain ⟨qp, v, hexec, hfetching, hops⟩ := exec_fetch_remote h hm hport
  have hnoted := issueFrame_noteIssue t (.fetch a d member) hst
  have hquiet (h : Untraced s r st) := (sameStore_noteIssue t (.fetch a d member) hst h).hbm
  have hothers (k : Nat) (hk : k ≠ t) := tile_noteIssue_ne (.fetch a d member) hst hk
  have htrace : (s.part st.part).trace.on = false → ((noteIssue s t (.fetch a d member) r st).part st.part).trace.on = false := fun hoff => by
    rw [part_noteIssue t _ hst, if_pos rfl, issueTraced_of_untraced hst (.inl hoff)]
    exact hoff
  have hshape := noteIssue_shape t (.fetch a d member) hst
  have hframe := issueFrame_trans hnoted hfetching.frame
  obtain ⟨hjobs, haon, hcoll, hports, hvariant⟩ := hfetching.congr
  have hbase : v.jobs = s.jobs ∧ v.aon = s.aon ∧ v.coll = s.coll ∧ v.ports = s.ports ∧ v.variant = s.variant := by
    refine ⟨hjobs.trans ?_, haon.trans ?_, hcoll.trans ?_, hports.trans ?_, hvariant.trans ?_⟩ <;> rw [hshape]
  clear hjobs haon hcoll hports hvariant hshape
  obtain ⟨hjobs, haon, hcoll, hports, hvariant⟩ := hbase
  have hprogs : (v.part st.part).progs = (s.part st.part).progs := by
    obtain ⟨-, -, -, hprogs, -⟩ := hframe
    exact hprogs
  have hsends := askFetch_sends v st a m qp
  refine ⟨_, qp, hexec, fun hoff => ?_, ?_, fun k hk => ?_, ?_, fun e he hopen hjob => ?_, ?_, fun hwaits hpkg => ?_⟩
  · rw [hsends.rest]
    exact (hfetching.hbm (htrace hoff)).trans (hquiet (.inl hoff))
  · rw [State.tile, hsends.rest]
    refine hfetching.run.trans ?_
    rw [stepRun_fetch]
  · rw [State.tile, hsends.rest]
    exact (hfetching.others k hk).trans (hothers k hk)
  · rw [hsends.rest]
    exact hops
  · rw [hsends.rest] at he
    exact hfetching.windows e he hopen ((congrArg some hjob).trans (job_of_memberOf hm).symm)
  · rw [hsends.rest]
    exact ⟨_, hfetching.step, rfl, rfl⟩
  · have hport' : memberPort v (jobIdx st) m = some p := by
      rw [← hport]
      simp only [memberPort, firstPort, State.job, State.port, armed, hjobs, hvariant, hports, hcoll]
    have hwaits' : Waits v p := by
      simpa only [Waits, State.port, hports, hcoll] using hwaits
    have hjob : v.job (jobIdx st) = s.job (jobIdx st) := by rw [State.job, State.job, hjobs]
    have hhandles : jobHandle v (jobIdx st) = jobHandle s (jobIdx st) := by rw [jobHandle, jobHandle, hjob]
    have hown : ownMember v st = ownMember s st := by
      simp only [ownMember, stepMember, memberIdx, State.job, hjobs, myPkg, haon]
    have hfile : stepFile v st = stepFile s st := by rw [stepFile, stepFile, hprogs]
    obtain ⟨c, x, hask, hctl, hqp, hhandle, hmember, hranges⟩ := askFetch_waits (a := a) (qp := qp) hport' hwaits' (by
      rw [hjob, myPkg_congr (s := s) (by rw [haon])]
      exact hpkg)
    rw [hask]
    refine ⟨issueFrame_trans (issueFrame_fresh hframe _) (issueFrame_queuedAt _ _ _ _ _), c, x, ?_, by rw [hctl, hjob], hqp,
      hhandle.trans hhandles, hmember.trans hown, hfile ▸ hranges⟩
    rw [queuedAt, port_modPort_self, State.port, State.port, ← hports]

end Sys2Proof.Machine

/-! PROOFS. SEND to other members, and operations whose header is withheld (O23; R85, R193 to R195, R386 to R389). -/

namespace Sys2Proof.Machine

open Sys2Proof.Claims

variable {s u v w : State} {t slot p k a d member m : Nat} {i : SkInsn} {r : SkeinRun} {st : Step} {op : RemOp}

/-! ### FETCH and SEND within this package -/

theorem exec_fetch_local (h : Issues s t (.fetch a d member) r st) (hm : memberOf s st (stepFile s st).req.members member = none) :
    exec (.fetch t a d member) s = .next (copyView (noteIssue s t (.fetch a d member) r st) t r.slot st a d) := by
  obtain ⟨-, -, hst, -⟩ := id h
  have hm' : memberOf (noteIssue s t (.fetch a d member) r st) st (stepFile (noteIssue s t (.fetch a d member) r st) st).req.members member
      = none := by rw [memberOf_noteIssue t _ hst, stepFile_noteIssue t _ hst, hm]
  refine (show execFetch t a d member s = _ from skein_of_issues [9] _ h).trans ?_
  simp only [hm']

theorem exec_send_local (h : Issues s t (.send a d member) r st) (hm : memberOf s st (stepFile s st).req.members member = none) :
    exec (.send t a d member) s = .next (copyView (noteIssue s t (.send a d member) r st) t r.slot st a d) := by
  obtain ⟨-, -, hst, hcalm⟩ := id h
  have hm' : memberOf (noteIssue s t (.send a d member) r st) st (stepFile (noteIssue s t (.send a d member) r st) st).req.members member
      = none := by rw [memberOf_noteIssue t _ hst, stepFile_noteIssue t _ hst, hm]
  refine (show execSend t a d member s = _ from skein_of_issues [] _ h).trans ?_
  simp only [hm', armed_of_calm (inject_noteIssue t (.send a d member) hst hcalm), Bool.false_eq_true, if_false]

theorem stepRun_send (r : SkeinRun) : stepRun r (.send a d member) = consumed r := stepRun_control r rfl rfl rfl

theorem fetch_local (h : Issues s t (.fetch a d member) r st) (hm : memberOf s st (stepFile s st).req.members member = none) :
    let s1 := noteIssue s t (.fetch a d member) r st
    exec (.fetch t a d member) s = .next (copyView s1 t r.slot st a d)
    ∧ (Untraced s r st → Clean s t r.slot st a →
      ∃ u, exec (.fetch t a d member) s = .next u ∧ IssueFrame s u r.slot st.part
        ∧ Stores s u t r.slot st (copyPuts (stepFile s st) d (readStored s t r.slot st a))
        ∧ (u.tile t).run = some { r with code := r.code.drop 1 } ∧ (∀ k, k ≠ t → SameWork (u.tile k) (s.tile k)))
    ∧ (Untraced s r st → ¬ Clean s t r.slot st a → t < 2048 →
      ∃ u st', exec (.fetch t a d member) s = .next u
        ∧ Stores s u t r.slot st (copyPuts (stepFile s st) d (readStored s t r.slot st a))
        ∧ tfind u.steps r.slot = some st' ∧ st'.fail = st.fail ∧ (u.tile t).run = some { r with code := r.code.drop 1 }) := by
  have hexec := exec_fetch_local h hm
  have hrun : stepRun r (.fetch a d member) = { r with code := r.code.drop 1 } := stepRun_fetch r
  refine ⟨hexec, fun hquiet hclean => ⟨_, hexec, ?_⟩, fun hquiet _ ht => ?_⟩
  · rw [← hrun]
    exact copyView_clean h hquiet hclean
  · obtain ⟨st', hpoisoned⟩ := copyView_poisoned (a := a) (d := d) h hquiet ht
    rw [← hrun]
    exact ⟨_, st', hexec, hpoisoned⟩

theorem send_local (h : Issues s t (.send a d member) r st) (hm : memberOf s st (stepFile s st).req.members member = none) :
    let s1 := noteIssue s t (.send a d member) r st
    exec (.send t a d member) s = .next (copyView s1 t r.slot st a d)
    ∧ (Untraced s r st → Clean s t r.slot st a →
      ∃ u, exec (.send t a d member) s = .next u ∧ IssueFrame s u r.slot st.part
        ∧ Stores s u t r.slot st (copyPuts (stepFile s st) d (readStored s t r.slot st a))
        ∧ (u.tile t).run = some (consumed r) ∧ (∀ k, k ≠ t → SameWork (u.tile k) (s.tile k)))
    ∧ (Untraced s r st → ¬ Clean s t r.slot st a → t < 2048 →
      ∃ u st', exec (.send t a d member) s = .next u
        ∧ Stores s u t r.slot st (copyPuts (stepFile s st) d (readStored s t r.slot st a))
        ∧ tfind u.steps r.slot = some st' ∧ st'.fail = st.fail ∧ (u.tile t).run = some (consumed r)) := by
  have hexec := exec_send_local h hm
  have hrun : stepRun r (.send a d member) = consumed r := stepRun_send r
  refine ⟨hexec, fun hquiet hclean => ⟨_, hexec, ?_⟩, fun hquiet _ ht => ?_⟩
  · rw [← hrun]
    exact copyView_clean h hquiet hclean
  · obtain ⟨st', hpoisoned⟩ := copyView_poisoned (a := a) (d := d) h hquiet ht
    rw [← hrun]
    exact ⟨_, st', hexec, hpoisoned⟩

/-! ### Headers that are withheld (R389) -/

theorem init_noteIssue (t : Nat) (i : SkInsn) (hst : tfind s.steps r.slot = some st) : (noteIssue s t i r st).coll.init = s.coll.init := by
  rw [noteIssue_shape t i hst]

theorem withholdOp_noteIssue (j m : Nat) (h : Issues s t i r st) (hinit : s.coll.init = true) (hopen : Undecided st) :
    FailsWith (withholdOp (noteIssue s t i r st) j m r.slot) r.slot 0x0B03
      ∧ (0xA804 : Code) ∈ (withholdOp (noteIssue s t i r st) j m r.slot).coll.log := by
  obtain ⟨-, -, hst, hcalm⟩ := h
  exact withholdOp_fails (inject_noteIssue t i hst hcalm) ((init_noteIssue t i hst).trans hinit) (tfind_noteIssue_self t i hst)
    (undecided_notedStep s i r hopen)

theorem fetch_withheld (h : Issues s t (.fetch a d member) r st) (hm : memberOf s st (stepFile s st).req.members member = some m)
    (hport : memberPort s (jobIdx st) m = none) (hopen : Undecided st) (hinit : s.coll.init = true) :
    ∃ u, exec (.fetch t a d member) s = .next u ∧ FailsWith u r.slot 0x0B03 ∧ (0xA804 : Code) ∈ u.coll.log := by
  obtain ⟨-, -, hst, -⟩ := id h
  have hm' : memberOf (noteIssue s t (.fetch a d member) r st) st (stepFile (noteIssue s t (.fetch a d member) r st) st).req.members member
      = some m := by rw [memberOf_noteIssue t _ hst, stepFile_noteIssue t _ hst, hm]
  have hport' := (memberPort_noteIssue t (.fetch a d member) hst (jobIdx st) m).trans hport
  refine ⟨_, (show execFetch t a d member s = _ from skein_of_issues [9] _ h), ?_⟩
  simp only [hm', hport']
  exact withholdOp_noteIssue _ _ h hinit hopen

theorem send_withheld (h : Issues s t (.send a d member) r st) (hm : memberOf s st (stepFile s st).req.members member = some m)
    (hport : memberPort s (jobIdx st) m = none) (hopen : Undecided st) (hinit : s.coll.init = true) :
    ∃ u, exec (.send t a d member) s = .next u ∧ FailsWith u r.slot 0x0B03 ∧ (0xA804 : Code) ∈ u.coll.log := by
  obtain ⟨-, -, hst, -⟩ := id h
  have hm' : memberOf (noteIssue s t (.send a d member) r st) st (stepFile (noteIssue s t (.send a d member) r st) st).req.members member
      = some m := by rw [memberOf_noteIssue t _ hst, stepFile_noteIssue t _ hst, hm]
  have hport' := (memberPort_noteIssue t (.send a d member) hst (jobIdx st) m).trans hport
  refine ⟨_, (show execSend t a d member s = _ from skein_of_issues [] _ h), ?_⟩
  simp only [hm', hport']
  exact withholdOp_noteIssue _ _ h hinit hopen

/-! ### An operation that reads its source and opens (R195, R386) -/

/-- What an operation that has read its source and opened leaves, before its data goes anywhere. -/
structure Started (t : Nat) (r : SkeinRun) (st : Step) (op : RemOp) (n v : State) : Prop where
  rest : v = { n with
    fresh := v.fresh, parts := v.parts, hbm := v.hbm, hbmPoison := v.hbmPoison, windows := v.windows, opNext := v.opNext
    remOps := n.remOps ++ [op], tiles := v.tiles, steps := v.steps, ctxs := v.ctxs, engRecs := v.engRecs, caches := v.caches
    hbmReads := v.hbmReads, pmc := v.pmc, out := v.out }
  frame : IssueFrame n v r.slot st.part
  hbm : (n.part st.part).trace.on = false → v.hbm = n.hbm
  run : (v.tile t).run = some r
  others : ∀ k, k ≠ t → v.tile k = n.tile k
  step : ∃ st', tfind v.steps r.slot = some st' ∧ st'.requests = st.requests + 1 ∧ st'.part = st.part
  lowered : ∀ q, (v.part q).lowered = (n.part q).lowered

theorem started_of_opened {n o : State} (t : Nat) (hst : tfind n.steps r.slot = some st) (hcalm : n.coll.inject = [])
    (h : Opened (st := st) st.part op n o) (f : Nat) {st₁ : Step} (hpart : st₁.part = st.part) (a k : Nat) :
    Started t r st op n (opCounted (moved { o with fresh := f } t r.slot st₁ a k false) t r.slot r) := by
  have hst' : tfind o.steps r.slot = some st := by
    rw [h.rest]
    exact hst
  have hcalm' : o.coll.inject = [] := by
    rw [h.rest]
    exact hcalm
  have haside := moved_aside (s := { o with fresh := f }) hcalm' t r.slot st₁ a k false
  rw [hpart] at haside
  generalize moved { o with fresh := f } t r.slot st₁ a k false = v at haside
  obtain ⟨b, hb⟩ := haside.step st hst'
  have hrest := opCounted_eq t r hb
  refine ⟨?_, ?_, fun hoff => ?_, ?_, fun k hk => ?_, ?_, fun q => ?_⟩
  · rw [hrest, haside.rest, h.rest]
  · exact issueFrame_trans (issueFrame_trans (issueFrame_fresh (h.issueFrame r.slot) f) haside.issueFrame)
      (issueFrame_opCounted t st.part r hb)
  · rw [hrest]
    refine (show v.hbm = o.hbm from ?_).trans (h.untraced (.inr hoff)).1
    rw [haside.rest]
  · rw [hrest]
    simp [State.tile]
  · rw [State.tile, hrest]
    exact ((tget_tput_ne _ _ _ hk).trans (haside.tile k)).trans (h.tileAt k)
  · rw [hrest]
    exact ⟨_, tfind_tput_self _ _ _, rfl, rfl⟩
  · rw [hrest]
    refine (show (v.part q).lowered = _ from ?_)
    rw [haside.part q]
    refine (show (o.part q).lowered = _ from ?_)
    rw [h.part q]

end Sys2Proof.Machine

/-! PROOFS. SEND to another member (O23; R195, R384, R386). -/

namespace Sys2Proof.Machine

open Sys2Proof.Claims

variable {s u v w : State} {t slot p k a d member m : Nat} {i : SkInsn} {r : SkeinRun} {st : Step} {op : RemOp}

/-- What a SEND to another member puts into the port: the stored bits of the source at the places of the destination. -/
def sendMsgs (f : Upf.File) (t qp w part : Nat) (route : List Nat) (d slot : Nat) (src : List (Nat × Nat × Bool)) : List TxMsg :=
  dataMsgs (2048 + tileDie t) qp 0 w part route (runsOf f ((viewBits f d).zip src)) (some slot)

/-- The operation of a SEND. -/
def sendOp (s : State) (t : Nat) (r : SkeinRun) (m d qp p want : Nat) : RemOp :=
  { id := s.opNext, slot := r.slot, tile := t, skein := r.skein, kind := 1, member := m, dst := d, want, qp, port := p, last := time s }

theorem exec_send_remote (h : Issues s t (.send a d member) r st) (ht : t < 2048)
    (hm : memberOf s st (stepFile s st).req.members member = some m) (hport : memberPort s (jobIdx st) m = some p) :
    ∃ c qp want v x, Recorded (noteIssue s t (.send a d member) r st) c
      ∧ (Clean (noteIssue s t (.send a d member) r st) t r.slot st a → c = noteIssue s t (.send a d member) r st)
      ∧ Started t { consumed r with opsOut := r.opsOut + 1 } (notedStep s (.send a d member) r st) (sendOp c t r m d qp p want) c v
      ∧ exec (.send t a d member) s = .next (sendAll v p
        (sendMsgs (stepFile s st) t qp x st.part (tget (s.job (jobIdx st)).routes m []) d r.slot
          (readStored (noteIssue s t (.send a d member) r st) t r.slot st a))) := by
  obtain ⟨-, -, hst, hcalm⟩ := id h
  have hstep := tfind_noteIssue_self t (.send a d member) hst
  have hm' : memberOf (noteIssue s t (.send a d member) r st) st (stepFile (noteIssue s t (.send a d member) r st) st).req.members member
      = some m := by rw [memberOf_noteIssue t _ hst, stepFile_noteIssue t _ hst, hm]
  have hport' : memberPort (noteIssue s t (.send a d member) r st) (jobIdx st) m = some p := by
    rw [memberPort_noteIssue t _ hst, hport]
  have hcalm' := inject_noteIssue t (.send a d member) hst hcalm
  have hexec := skein_of_issues [] (fun s slot st r =>
    let f := stepFile s st
    match memberOf s st f.req.members member with
    | none =>
      let k := receiver s t slot st d
      if armed s (tileDie k) 9 k then check s (tileDie k) 9 k [slot] else copyView s t slot st a d
    | some m => match memberPort s (jobIdx st) m with
      | none => withholdOp s (jobIdx st) m slot
      | some p =>
        let s := copyRead s t slot st a
        let src := readStored s t slot st a
        let (op, s) := newOp s slot t r.skein 1 m d (bitsLen src) p
        let (w, s) := draw s
        let s := moved s t slot st a (bitsLen src) false
        let s := setRun s t { r with opsOut := r.opsOut + 1 }
        sendAll (s.modStep slot fun x => { x with requests := x.requests + 1 }) p
          (dataMsgs (2048 + tileDie t) op.qp 0 w st.part (tget (s.job (jobIdx st)).routes m []) (runsOf f ((viewBits f d).zip src)) (some slot))) h
  have hfile := stepFile_noteIssue t (.send a d member) hst
  have hjob := job_noteIssue t (.send a d member) hst (jobIdx st)
  have hpart : st.part = (notedStep s (.send a d member) r st).part := rfl
  generalize noteIssue s t (.send a d member) r st = n at *
  generalize notedStep s (.send a d member) r st = st₁ at *
  have hrecorded := copyRead_recorded hcalm' ht r.slot st a
  have hclean := copyRead_of_clean (a := a) (st := st) (slot := r.slot) (t := t) hcalm'
  have hstep' : tfind (copyRead n t r.slot st a).steps r.slot = some st₁ := by
    rw [hrecorded.rest]
    exact hstep
  have hread := readStored_recorded hrecorded t r.slot st a
  have hjob' : (copyRead n t r.slot st a).job (jobIdx st) = s.job (jobIdx st) := by
    rw [← hjob, State.job, hrecorded.rest]
    rfl
  simp only [hm', hport', hread] at hexec
  generalize copyRead n t r.slot st a = c at *
  obtain ⟨qp, o, hnew, hopened⟩ := newOp_opened (t := t) (skein := r.skein) (kind := 1) (member := m) (dst := d)
    (want := bitsLen (readStored n t r.slot st a)) (port := p) (coll := none) hstep'
  have hstarted := started_of_opened (r := { consumed r with opsOut := r.opsOut + 1 }) t hstep' (hrecorded.inject.trans hcalm') hopened
    (o.fresh + 1) hpart a (bitsLen (readStored n t r.slot st a))
  refine ⟨c, qp, _, _, (draw o).1, hrecorded, hclean, hstarted, ?_⟩
  refine (show execSend t a d member s = _ from hexec).trans ?_
  have hcalm'' : o.coll.inject = [] := by
    rw [hopened.rest]
    exact hrecorded.inject.trans hcalm'
  have hroute : (moved { o with fresh := o.fresh + 1 } t r.slot st a (bitsLen (readStored n t r.slot st a)) false).job (jobIdx st)
      = s.job (jobIdx st) := by
    rw [← hjob', State.job, (moved_aside (s := { o with fresh := o.fresh + 1 }) hcalm'' t r.slot st a _ false).rest, hopened.rest]
    rfl
  rw [show stepRun r (.send a d member) = consumed r from stepRun_send r, show (consumed r).skein = r.skein from rfl, hnew, sendMsgs, ← hroute, ← hfile]
  rfl

/-- The trace stays off while an operation issues and reads its source. -/
theorem trace_off_recorded (t : Nat) (i : SkInsn) (hst : tfind s.steps r.slot = some st) (hoff : (s.part st.part).trace.on = false)
    (hc : Recorded (noteIssue s t i r st) u) : (u.part st.part).trace.on = false := by
  rw [hc.partAt, part_noteIssue t i hst, if_pos rfl, issueTraced_of_untraced hst (.inl hoff)]
  exact hoff

theorem send_remote (h : Issues s t (.send a d member) r st) (ht : t < 2048)
    (hm : memberOf s st (stepFile s st).req.members member = some m) (hport : memberPort s (jobIdx st) m = some p) :
    ∃ u op st', exec (.send t a d member) s = .next u ∧ u.remOps = s.remOps ++ [op] ∧ op.kind = 1 ∧ op.member = m ∧ op.port = p
      ∧ op.dst = d ∧ op.slot = r.slot ∧ op.tile = t ∧ op.skein = r.skein ∧ op.id = s.opNext
      ∧ ((s.part st.part).trace.on = false → u.hbm = s.hbm)
      ∧ (u.tile t).run = some { consumed r with opsOut := r.opsOut + 1 } ∧ (∀ k, k ≠ t → u.tile k = s.tile k)
      ∧ tfind u.steps r.slot = some st' ∧ st'.requests = st.requests + 1
      ∧ (Waits s p → Clean s t r.slot st a → (s.part st.part).trace.on = false → IssueFrame s u r.slot st.part
          ∧ ∃ w, (u.port p).txq = (s.port p).txq ++ dataMsgs (2048 + tileDie t) op.qp 0 w st.part (tget (s.job (jobIdx st)).routes m [])
              (runsOf (stepFile s st) ((viewBits (stepFile s st) d).zip (readStored s t r.slot st a))) (some r.slot)) := by
  obtain ⟨-, -, hst, -⟩ := id h
  obtain ⟨c, qp, want, v, x, hrecorded, hclean, hstarted, hexec⟩ := exec_send_remote h ht hm hport
  have hshape := noteIssue_shape t (.send a d member) hst
  have hnoted := issueFrame_noteIssue t (.send a d member) hst
  have hsame (h : Untraced s r st) := (sameStore_noteIssue t (.send a d member) hst h).hbm
  have hothers (k : Nat) (hk : k ≠ t) := tile_noteIssue_ne (.send a d member) hst hk
  have htrace (hoff) := trace_off_recorded t (.send a d member) hst hoff hrecorded
  have hread (h : Untraced s r st) := readStored_noteIssue t (.send a d member) hst h r.slot a
  have hsends := sendAll_sends v p (sendMsgs (stepFile s st) t qp x st.part (tget (s.job (jobIdx st)).routes m []) d r.slot
          (readStored (noteIssue s t (.send a d member) r st) t r.slot st a))
  have hops : (noteIssue s t (.send a d member) r st).remOps = s.remOps := by rw [hshape]
  have hid : (noteIssue s t (.send a d member) r st).opNext = s.opNext := by rw [hshape]
  have hports : (noteIssue s t (.send a d member) r st).ports = s.ports := by rw [hshape]
  have hcoll : (noteIssue s t (.send a d member) r st).coll = s.coll := by rw [hshape]
  clear hshape
  generalize noteIssue s t (.send a d member) r st = n at *
  obtain ⟨st', hst', hrequests, -⟩ := hstarted.step
  refine ⟨_, sendOp c t r m d qp p want, st', hexec, ?_, rfl, rfl, rfl, rfl, rfl, rfl, rfl, ?_, fun hoff => ?_, ?_, fun k hk => ?_, ?_, hrequests,
    fun hwaits hunspoilt hoff => ?_⟩
  · rw [hsends.rest, hstarted.rest, hrecorded.rest, ← hops]
  · rw [sendOp, hrecorded.rest, ← hid]
  · rw [hsends.rest]
    refine ((hstarted.hbm (htrace hoff)).trans ?_).trans (hsame (.inl hoff))
    rw [hrecorded.rest]
  · rw [State.tile, hsends.rest]
    exact hstarted.run
  · rw [State.tile, hsends.rest]
    exact ((hstarted.others k hk).trans (hrecorded.tileAt k)).trans (hothers k hk)
  · rw [hsends.rest]
    exact hst'
  · have hread' := hread (.inl hoff)
    have hc : c = n := hclean (by rw [Clean, hread']; exact hunspoilt)
    subst hc
    have hwaits' : Waits v p := by
      have hrest := hstarted.rest
      rw [hrest]
      simpa only [Waits, State.port, hports, hcoll] using hwaits
    rw [hread', sendMsgs, sendAll_of_waits hwaits' fun m hm => isNotice_dataMsgs hm]
    refine ⟨issueFrame_trans (issueFrame_trans hnoted hstarted.frame) (issueFrame_queuedAt v p st.part _ r.slot), x, ?_⟩
    rw [port_modPort_self, State.port, State.port, hstarted.rest, hports]
    rfl

end Sys2Proof.Machine

/-! PROOFS. COLL (O23; R195, R203, R389, R407, R408, R449). -/

namespace Sys2Proof.Machine

open Sys2Proof.Claims

variable {s u v w : State} {t slot p p' k a d pattern red first count root : Nat} {i : SkInsn} {r : SkeinRun} {st : Step} {op : RemOp}

/-! ### Neighbours of a ring -/

/-- The next member of the ring that the step's own member is in. -/
def ringNext (s : State) (st : Step) (first count : Nat) : Nat := first + (ownMember s st - first + 1) % max 1 count

/-- The member before it. -/
def ringPrev (s : State) (st : Step) (first count : Nat) : Nat := first + (ownMember s st - first + count - 1) % max 1 count

theorem ownMember_congr (hjobs : u.jobs = s.jobs) (haon : u.aon.coords = s.aon.coords) (st : Step) : ownMember u st = ownMember s st := by
  simp only [ownMember, stepMember, memberIdx, State.job, hjobs, myPkg_congr haon]

theorem inPort_congr (hjobs : u.jobs = s.jobs) (haon : u.aon.coords = s.aon.coords) (hvariant : u.variant = s.variant)
    (hports : u.ports = s.ports) (j m : Nat) : inPort u j m = inPort s j m := by
  simp only [inPort, State.job, hjobs, myPkg_congr haon, hvariant,
    routeFrom_congr haon hvariant fun q => by rw [State.port, State.port, hports]]

theorem collOf_congr (hfile : stepFile u st = stepFile s st) (hview : readView u t slot st a = readView s t slot st a)
    (hraw : readStored u t slot st a = readStored s t slot st a) (hown : ownMember u st = ownMember s st) (w : Nat) :
    collOf u t slot st a d pattern red first count root w = collOf s t slot st a d pattern red first count root w := by
  simp only [collOf, hfile, hview, hraw, hown]

theorem readView_recorded (h : Recorded s u) (t slot : Nat) (st : Step) (a : Nat) : readView u t slot st a = readView s t slot st a := by
  rw [h.rest]
  rfl

/-! ### Plans go to their reducers (R203, R408, R449) -/

/-- The reducer of a port takes the plans of a partition. -/
def Reduces (s : State) (p i : Nat) : Prop := fullUnits s.variant = true ∧ i ∉ (s.part p).lowered

theorem addPlan_reduces {q : Plan} {x : Step} (hx : tfind s.steps q.slot = some x) (h : Reduces s x.part k) :
    addPlan s q k = s.modReducer k fun y => { y with plans := y.plans ++ [q] } := by
  obtain ⟨hfull, hports⟩ := h
  simp [addPlan, hx, hfull, hports]

theorem addPlan_of_not_reduces {q : Plan} {x : Step} (hx : tfind s.steps q.slot = some x) (h : ¬ Reduces s x.part k) :
    addPlan s q k = { s with addedWork := s.addedWork ++ [q] } := by
  refine if_neg fun hc => h ⟨hc.1, ?_⟩
  simpa [hx] using hc.2

theorem addPlan_rest (s : State) (q : Plan) (k : Nat) :
    addPlan s q k = { s with reducers := (addPlan s q k).reducers, addedWork := (addPlan s q k).addedWork } := by
  unfold addPlan
  split <;> rfl

theorem reducer_addPlan_ne {j : Nat} (s : State) (q : Plan) (h : j ≠ k) : (addPlan s q k).reducer j = s.reducer j := by
  unfold addPlan
  split
  · exact reducer_modReducer_ne _ _ h
  · rfl

theorem mem_plans_addPlan {j : Nat} (s : State) (q : Plan) (k : Nat) {x : Plan} (h : x ∈ (s.reducer j).plans) :
    x ∈ ((addPlan s q k).reducer j).plans := by
  by_cases hj : j = k
  · subst hj
    unfold addPlan
    split
    · rw [reducer_modReducer_self]
      exact List.mem_append_left _ h
    · exact h
  · rwa [reducer_addPlan_ne s q hj]

theorem mem_added_addPlan (s : State) (q : Plan) (k : Nat) {x : Plan} (h : x ∈ s.addedWork) : x ∈ (addPlan s q k).addedWork := by
  unfold addPlan
  split
  · exact h
  · exact List.mem_append_left _ h

/-- R203, R408, R449: each of the two plans of a collective is with the reducer of its port, or with firmware. -/
theorem both_planned {q q' : Plan} {i i' : Nat} {x : Step} (hslot : q'.slot = q.slot) (hx : tfind s.steps q.slot = some x) :
    (Reduces s x.part i → q ∈ ((addPlan (addPlan s q i) q' i').reducer i).plans)
      ∧ (Reduces s x.part i' → q' ∈ ((addPlan (addPlan s q i) q' i').reducer i').plans)
      ∧ (¬ Reduces s x.part i → q ∈ (addPlan (addPlan s q i) q' i').addedWork)
      ∧ (¬ Reduces s x.part i' → q' ∈ (addPlan (addPlan s q i) q' i').addedWork)
      ∧ (∀ k, k ≠ i → k ≠ i' → (addPlan (addPlan s q i) q' i').reducer k = s.reducer k)
      ∧ (Reduces s x.part i → i ≠ i' → ((addPlan (addPlan s q i) q' i').reducer i).plans = (s.reducer i).plans ++ [q])
      ∧ (Reduces s x.part i' → i ≠ i' → ((addPlan (addPlan s q i) q' i').reducer i').plans = (s.reducer i').plans ++ [q']) := by
  have hx' : tfind (addPlan s q i).steps q'.slot = some x := by
    rw [addPlan_rest, hslot]
    exact hx
  have hsame : ∀ k, Reduces (addPlan s q i) x.part k ↔ Reduces s x.part k := fun k => by
    rw [addPlan_rest]
    rfl
  have hfirst (h : Reduces s x.part i) : ((addPlan s q i).reducer i).plans = (s.reducer i).plans ++ [q] := by
    rw [addPlan_reduces hx h, reducer_modReducer_self]
  have hsecond (h : Reduces s x.part i') :
      ((addPlan (addPlan s q i) q' i').reducer i').plans = ((addPlan s q i).reducer i').plans ++ [q'] := by
    rw [addPlan_reduces hx' ((hsame i').2 h), reducer_modReducer_self]
  refine ⟨fun h => ?_, fun h => ?_, fun h => ?_, fun h => ?_, fun k hk hk' => ?_, fun h hne => ?_, fun h hne => ?_⟩
  · exact mem_plans_addPlan _ _ _ (by simp [hfirst h])
  · simp [hsecond h]
  · exact mem_added_addPlan _ _ _ (by simp [addPlan_of_not_reduces hx h])
  · simp [addPlan_of_not_reduces hx' (mt (hsame i').1 h)]
  · rw [reducer_addPlan_ne _ _ hk', reducer_addPlan_ne _ _ hk]
  · rw [reducer_addPlan_ne _ _ hne, hfirst h]
  · rw [hsecond h, reducer_addPlan_ne _ _ hne.symm]

/-! ### The collective issues -/

/-- The plan of a collective toward its next member. -/
def ringPlan (s : State) (t : Nat) (r : SkeinRun) (st : Step) : Plan :=
  { slot := r.slot, tile := t, skein := r.skein, op := s.opNext, deadline := st.deadline, part := st.part,
    added := (stepFile s st).skeins.length + 2 * collNumber (stepFile s st) r.skein (r.code.drop 1).length }

/-- The plan in the other direction. -/
def reversed (q : Plan) : Plan := { q with rev := true, added := q.added + 1 }

/-- The operation of a COLL. -/
def collOp (s : State) (t : Nat) (r : SkeinRun) (next d qp p : Nat) (c : Coll) : RemOp :=
  { id := s.opNext, slot := r.slot, tile := t, skein := r.skein, kind := 2, member := next, dst := d, want := 0, qp, port := p,
    last := time s, coll := some c }

theorem exec_coll (h : Issues s t (.coll a d pattern red first count root) r st) (ht : t < 2048)
    (hnext : memberPort s (jobIdx st) (ringNext s st first count) = some p)
    (hprev : memberPort s (jobIdx st) (ringPrev s st first count) = some p') :
    ∃ c qp v x, Recorded (noteIssue s t (.coll a d pattern red first count root) r st) c
      ∧ (Clean (noteIssue s t (.coll a d pattern red first count root) r st) t r.slot st a
        → c = noteIssue s t (.coll a d pattern red first count root) r st)
      ∧ Started t { consumed r with opsOut := r.opsOut + 1 } (notedStep s (.coll a d pattern red first count root) r st)
        (collOp c t r (ringNext s st first count) d qp p (collOf c t r.slot st a d pattern red first count root x)) c v
      ∧ exec (.coll t a d pattern red first count root) s = .next
        (addPlan (addPlan v (ringPlan s t r st) (inPort s (jobIdx st) (ringPrev s st first count))) (reversed (ringPlan s t r st))
          (inPort s (jobIdx st) (ringNext s st first count))) := by
  obtain ⟨-, -, hst, hcalm⟩ := id h
  have hstep := tfind_noteIssue_self t (.coll a d pattern red first count root) hst
  have hcalm' := inject_noteIssue t (.coll a d pattern red first count root) hst hcalm
  have hfile := stepFile_noteIssue t (.coll a d pattern red first count root) hst
  have hport := memberPort_noteIssue t (.coll a d pattern red first count root) hst
  have hexec := skein_of_issues [] (fun s slot st r =>
    let f := stepFile s st
    let j := jobIdx st
    let own := ownMember s st - first
    let next := first + (own + 1) % max 1 count
    let prev := first + (own + count - 1) % max 1 count
    match memberPort s j next, memberPort s j prev with
    | some p, some _ =>
      let s := copyRead s t slot st a
      let (w, s) := draw s
      let c := collOf s t slot st a d pattern red first count root w
      let (op, s) := newOp s slot t r.skein 2 next d 0 p (coll := some c)
      let s := moved s t slot st a (bitsLen (readStored s t slot st a)) false
      let s := setRun s t { r with opsOut := r.opsOut + 1 }
      let s := s.modStep slot fun x => { x with requests := x.requests + 1 }
      let k := f.skeins.length + 2 * collNumber f r.skein r.code.length
      let q : Plan := { slot, tile := t, skein := r.skein, op := op.id, deadline := st.deadline, part := st.part, added := k }
      addPlan (addPlan s q (inPort s j prev)) { q with rev := true, added := k + 1 } (inPort s j next)
    | none, _ => withholdOp s j next slot
    | _, none => withholdOp s j prev slot) h
  have hshape := noteIssue_shape t (.coll a d pattern red first count root) hst
  have hbase : (noteIssue s t (.coll a d pattern red first count root) r st).jobs = s.jobs
      ∧ (noteIssue s t (.coll a d pattern red first count root) r st).aon = s.aon
      ∧ (noteIssue s t (.coll a d pattern red first count root) r st).variant = s.variant
      ∧ (noteIssue s t (.coll a d pattern red first count root) r st).ports = s.ports
      ∧ (noteIssue s t (.coll a d pattern red first count root) r st).opNext = s.opNext := by
    refine ⟨?_, ?_, ?_, ?_, ?_⟩ <;> rw [hshape]
  clear hshape
  have hpart : st.part = (notedStep s (.coll a d pattern red first count root) r st).part := rfl
  generalize noteIssue s t (.coll a d pattern red first count root) r st = n at *
  generalize notedStep s (.coll a d pattern red first count root) r st = st₁ at *
  obtain ⟨hjobs, haon, hvariant, hports, hid⟩ := hbase
  have hown : ownMember n st = ownMember s st := ownMember_congr hjobs (by rw [haon]) st
  have hrecorded := copyRead_recorded hcalm' ht r.slot st a
  have hclean := copyRead_of_clean (a := a) (st := st) (slot := r.slot) (t := t) hcalm'
  have hstep' : tfind (copyRead n t r.slot st a).steps r.slot = some st₁ := by
    rw [hrecorded.rest]
    exact hstep
  have hcalm'' := hrecorded.inject.trans hcalm'
  have hsame : (copyRead n t r.slot st a).jobs = s.jobs ∧ (copyRead n t r.slot st a).aon.coords = s.aon.coords
      ∧ (copyRead n t r.slot st a).variant = s.variant ∧ (copyRead n t r.slot st a).ports = s.ports
      ∧ (copyRead n t r.slot st a).opNext = s.opNext := by
    refine ⟨?_, hrecorded.coords.trans (by rw [haon]), ?_, ?_, ?_⟩ <;> rw [hrecorded.rest] <;> assumption
  unfold ringNext ringPrev at *
  simp only [hown, hport, hnext, hprev] at hexec
  generalize copyRead n t r.slot st a = c at *
  obtain ⟨hjobs', hcoords', hvariant', hports', hid'⟩ := hsame
  obtain ⟨qp, o, hnew, hopened⟩ := newOp_opened (s := { c with fresh := c.fresh + 1 }) (t := t) (skein := r.skein) (kind := 2)
    (member := first + (ownMember s st - first + 1) % max 1 count) (dst := d) (want := 0) (port := p)
    (coll := some (collOf { c with fresh := c.fresh + 1 } t r.slot st a d pattern red first count root (draw c).1)) hstep'
  have hcoll : collOf { c with fresh := c.fresh + 1 } t r.slot st a d pattern red first count root (draw c).1
      = collOf c t r.slot st a d pattern red first count root (draw c).1 := collOf_congr rfl rfl rfl rfl _
  rw [hcoll] at hnew hopened
  have hstarted := started_of_opened (n := { c with fresh := c.fresh + 1 }) (r := { consumed r with opsOut := r.opsOut + 1 }) t hstep' hcalm''
    hopened o.fresh hpart a (bitsLen (readStored o t r.slot st a))
  obtain ⟨hrest, hframe, hhbm, hrun, hothers, hcounted, hlowered⟩ := hstarted
  have hin (m : Nat) : inPort (opCounted (moved o t r.slot st a (bitsLen (readStored o t r.slot st a)) false) t r.slot
      { consumed r with opsOut := r.opsOut + 1 }) (jobIdx st) m = inPort s (jobIdx st) m := by
    have hrest' : opCounted (moved o t r.slot st a (bitsLen (readStored o t r.slot st a)) false) t r.slot
      { consumed r with opsOut := r.opsOut + 1 } = _ := hrest
    refine inPort_congr ?_ ?_ ?_ ?_ _ _ <;> rw [hrest'] <;> assumption
  refine ⟨c, qp, _, (draw c).1, hrecorded, hclean, ⟨hrest, hframe, hhbm, hrun, hothers, hcounted, hlowered⟩, ?_⟩
  refine (show execColl t a d pattern red first count root s = _ from hexec).trans ?_
  rw [show stepRun r (.coll a d pattern red first count root) = consumed r from stepRun_control r rfl rfl rfl,
    show (consumed r).skein = r.skein from rfl]
  dsimp only [draw] at hcoll hnew ⊢
  rw [hcoll, hnew, ← hin, ← hin, ringPlan, ← hid', ← hfile]
  rfl

end Sys2Proof.Machine

/-! PROOFS. What a COLL leaves, and a COLL without a route (O23; R195, R203, R389, R407, R408). -/

namespace Sys2Proof.Machine

open Sys2Proof.Claims

variable {s u v w : State} {t slot p p' k a d pattern red first count root : Nat} {i : SkInsn} {r : SkeinRun} {st : Step} {op : RemOp}

theorem lowered_noteIssue (t : Nat) (i : SkInsn) (hst : tfind s.steps r.slot = some st) (q : Nat) :
    ((noteIssue s t i r st).part q).lowered = (s.part q).lowered := by
  rw [part_noteIssue t i hst]
  split
  · show ((issueTraced s t r st).part q).lowered = _
    rw [(issueTraced_traces s t r st).part]
  · rfl

theorem issueFrame_addPlan (q : Plan) (h : IssueFrame s u slot p) : IssueFrame s (addPlan u q k) slot p := by
  rw [addPlan_rest]
  exact h

theorem coll_spec (h : Issues s t (.coll a d pattern red first count root) r st) (ht : t < 2048)
    (hnext : memberPort s (jobIdx st) (ringNext s st first count) = some p)
    (hprev : memberPort s (jobIdx st) (ringPrev s st first count) = some p') :
    let i := inPort s (jobIdx st) (ringPrev s st first count)
    let i' := inPort s (jobIdx st) (ringNext s st first count)
    let q := ringPlan s t r st
    let q' := reversed (ringPlan s t r st)
    ∃ u op st', exec (.coll t a d pattern red first count root) s = .next u
      ∧ u.remOps = s.remOps ++ [op] ∧ op.kind = 2 ∧ op.member = ringNext s st first count ∧ op.port = p ∧ op.id = s.opNext
      ∧ op.slot = r.slot ∧ op.dst = d
      ∧ (Untraced s r st → ∃ w, op.coll = some (collOf s t r.slot st a d pattern red first count root w))
      ∧ (u.tile t).run = some { consumed r with opsOut := r.opsOut + 1 } ∧ (∀ k, k ≠ t → u.tile k = s.tile k)
      ∧ tfind u.steps r.slot = some st' ∧ st'.requests = st.requests + 1
      ∧ (Reduces s st.part i → q ∈ (u.reducer i).plans) ∧ (Reduces s st.part i' → q' ∈ (u.reducer i').plans)
      ∧ (¬ Reduces s st.part i → q ∈ u.addedWork) ∧ (¬ Reduces s st.part i' → q' ∈ u.addedWork)
      ∧ (∀ k, k ≠ i → k ≠ i' → u.reducer k = s.reducer k)
      ∧ (Reduces s st.part i → i ≠ i' → (u.reducer i).plans = (s.reducer i).plans ++ [q])
      ∧ (Reduces s st.part i' → i ≠ i' → (u.reducer i').plans = (s.reducer i').plans ++ [q'])
      ∧ (Untraced s r st → Clean s t r.slot st a → IssueFrame s u r.slot st.part) := by
  intro i i' q q'
  obtain ⟨-, -, hst, -⟩ := id h
  obtain ⟨c, qp, v, x, hrecorded, hclean, hstarted, hexec⟩ := exec_coll (a := a) (d := d) (pattern := pattern) (red := red) (root := root) h ht hnext hprev
  have hshape := noteIssue_shape t (.coll a d pattern red first count root) hst
  have hnoted := issueFrame_noteIssue t (.coll a d pattern red first count root) hst
  have hothers (k : Nat) (hk : k ≠ t) := tile_noteIssue_ne (.coll a d pattern red first count root) hst hk
  have hfile := stepFile_noteIssue t (.coll a d pattern red first count root) hst
  have hread (h : Untraced s r st) := readStored_noteIssue t (.coll a d pattern red first count root) hst h r.slot a
  have hview (h : Untraced s r st) := readView_noteIssue t (.coll a d pattern red first count root) hst h r.slot a
  have hlowered := lowered_noteIssue t (.coll a d pattern red first count root) hst
  have hbase : (noteIssue s t (.coll a d pattern red first count root) r st).remOps = s.remOps
      ∧ (noteIssue s t (.coll a d pattern red first count root) r st).opNext = s.opNext
      ∧ (noteIssue s t (.coll a d pattern red first count root) r st).reducers = s.reducers
      ∧ (noteIssue s t (.coll a d pattern red first count root) r st).variant = s.variant
      ∧ (noteIssue s t (.coll a d pattern red first count root) r st).jobs = s.jobs
      ∧ (noteIssue s t (.coll a d pattern red first count root) r st).aon = s.aon := by
    refine ⟨?_, ?_, ?_, ?_, ?_, ?_⟩ <;> rw [hshape]
  clear hshape
  generalize noteIssue s t (.coll a d pattern red first count root) r st = n at *
  obtain ⟨hops, hid, hreducers, hvariant, hjobs, haon⟩ := hbase
  obtain ⟨st', hst', hrequests, hpart⟩ := hstarted.step
  have hpart' : st'.part = st.part := hpart
  have hplans := both_planned (s := v) (q := q) (q' := q') (i := i) (i' := i') rfl hst'
  have hreduces (k : Nat) : Reduces v st'.part k ↔ Reduces s st.part k := by
    have hv : v.variant = s.variant := by rw [hstarted.rest, hrecorded.rest, ← hvariant]
    rw [Reduces, Reduces, hpart', hv, hstarted.lowered, hrecorded.partAt, hlowered]
  have hreducer (k : Nat) : v.reducer k = s.reducer k := by
    rw [State.reducer, State.reducer, hstarted.rest, hrecorded.rest, ← hreducers]
  simp only [hreduces, hreducer] at hplans
  have hrest : addPlan (addPlan v q i) q' i' = { v with
      reducers := (addPlan (addPlan v q i) q' i').reducers, addedWork := (addPlan (addPlan v q i) q' i').addedWork } := by
    rw [addPlan_rest, addPlan_rest v]
  have hframe : ∀ x, IssueFrame x v r.slot st.part → IssueFrame x (addPlan (addPlan v q i) q' i') r.slot st.part :=
    fun x h => issueFrame_addPlan q' (issueFrame_addPlan q h)
  obtain ⟨hq, hq', hadded, hadded', hk, happ, happ'⟩ := hplans
  have hexec' : exec (.coll t a d pattern red first count root) s = .next (addPlan (addPlan v q i) q' i') := hexec
  generalize addPlan (addPlan v q i) q' i' = u at *
  refine ⟨u, collOp c t r (ringNext s st first count) d qp p (collOf c t r.slot st a d pattern red first count root x), st', hexec', ?_, rfl, rfl, rfl, ?_, rfl, rfl, fun hquiet => ⟨x, congrArg some ?_⟩, ?_, fun k hk => ?_, ?_, hrequests,
    hq, hq', hadded, hadded', hk, happ, happ', fun hquiet hunspoilt => ?_⟩
  · rw [hrest]
    show v.remOps = _
    rw [hstarted.rest, hrecorded.rest, ← hops]
  · rw [collOp, hrecorded.rest, ← hid]
  · refine collOf_congr ?_ ?_ ?_ ?_ x
    · rw [stepFile, hrecorded.partAt]
      exact hfile
    · rw [readView_recorded hrecorded, hview hquiet]
    · rw [readStored_recorded hrecorded, hread hquiet]
    · refine ownMember_congr ?_ (hrecorded.coords.trans (by rw [haon])) st
      rw [hrecorded.rest, ← hjobs]
  · rw [State.tile, hrest]
    exact hstarted.run
  · rw [State.tile, hrest]
    exact ((hstarted.others k hk).trans (hrecorded.tileAt k)).trans (hothers k hk)
  · rw [hrest]
    exact hst'
  · have hc : c = n := hclean (by rw [Clean, hread hquiet]; exact hunspoilt)
    subst hc
    exact hframe s (issueFrame_trans hnoted hstarted.frame)

theorem coll_withheld (h : Issues s t (.coll a d pattern red first count root) r st)
    (hport : memberPort s (jobIdx st) (ringNext s st first count) = none ∨ memberPort s (jobIdx st) (ringPrev s st first count) = none)
    (hopen : Undecided st) (hinit : s.coll.init = true) :
    ∃ u, exec (.coll t a d pattern red first count root) s = .next u ∧ FailsWith u r.slot 0x0B03 ∧ (0xA804 : Code) ∈ u.coll.log := by
  obtain ⟨-, -, hst, -⟩ := id h
  have hports := memberPort_noteIssue t (.coll a d pattern red first count root) hst
  have hwithheld := fun j m => withholdOp_noteIssue j m h hinit hopen
  have hown : ownMember (noteIssue s t (.coll a d pattern red first count root) r st) st = ownMember s st := by
    refine ownMember_congr ?_ ?_ st <;> rw [noteIssue_shape t (.coll a d pattern red first count root) hst]
  refine ⟨_, (show execColl t a d pattern red first count root s = _ from skein_of_issues [] _ h), ?_⟩
  unfold ringNext ringPrev at hport
  simp only [hown, hports]
  split
  · next hnext hprev =>
    rw [hnext, hprev] at hport
    simp at hport
  · exact hwithheld _ _
  · exact hwithheld _ _

end Sys2Proof.Machine

/-! PROOFS. Sort requests reach a sorter (O23, O24; R138, R139, R156, R195, R449). -/

namespace Sys2Proof.Machine

open Sys2Proof.Claims

variable {s u v w : State} {t slot p k a d idx die : Nat} {i : SkInsn} {r : SkeinRun} {st : Step} {q : SortReq}

/-! ### Feeding a sorter (R138, R156) -/

/-- A sorter's queue takes a request that waited, and its skein waits for that no more. -/
def requestTaken (s : State) (die : Nat) (q : SortReq) : State :=
  sortAccepted ({ s with sortWait := s.sortWait.erase q }.modSorter die fun x => { x with reqs := x.reqs ++ [q] }) q

/-- One request goes to the sorter, when it has room. -/
def feedOne (s : State) (die : Nat) : State :=
  match s.sortWait.find? fun q => (partDies (s.part q.part)).contains die with
  | some q => if sorterRoom (s.sorter die) then requestTaken s die q else s
  | none => s

theorem feedSorter_eq (s : State) (die : Nat) : feedSorter s die = (List.range s.sortWait.length).foldl (fun s _ => feedOne s die) s := rfl

/-- Between `s` and `u` sorters took requests, and nothing else changed but what their skeins wait for. -/
structure Feeds (s u : State) : Prop where
  rest : u = { s with sortWait := u.sortWait, sorters := u.sorters, tiles := u.tiles }
  run : ∀ k, (u.sorter k).run = (s.sorter k).run
  kept : ∀ q : SortReq, (q ∈ s.sortWait ∨ ∃ k ∈ partDies (s.part q.part), q ∈ (s.sorter k).reqs) →
    q ∈ u.sortWait ∨ ∃ k ∈ partDies (s.part q.part), q ∈ (u.sorter k).reqs

namespace Feeds

theorem refl (s : State) : Feeds s s := ⟨rfl, fun _ => rfl, fun _ => id⟩

theorem partAt (h : Feeds s u) (p : Nat) : u.part p = s.part p := by
  rw [State.part, h.rest]
  rfl

theorem trans (h : Feeds s u) (h' : Feeds u v) : Feeds s v where
  rest := by rw [h'.rest, h.rest]
  run k := (h'.run k).trans (h.run k)
  kept q hq := by
    have hkept := h'.kept q
    rw [h.partAt] at hkept
    exact hkept (h.kept q hq)

end Feeds

theorem sorter_requestTaken_self (s : State) (die : Nat) (q : SortReq) :
    (requestTaken s die q).sorter die = { s.sorter die with reqs := (s.sorter die).reqs ++ [q] } := tget_tput_self _ _ _ _

theorem sorter_requestTaken_ne (s : State) (q : SortReq) (hk : k ≠ die) : (requestTaken s die q).sorter k = s.sorter k :=
  tget_tput_ne _ _ _ hk

theorem requestTaken_feeds (hdie : (partDies (s.part q.part)).contains die = true) : Feeds s (requestTaken s die q) := by
  refine ⟨rfl, fun k => ?_, fun x hx => ?_⟩
  · by_cases hk : k = die
    · rw [hk, sorter_requestTaken_self]
    · rw [sorter_requestTaken_ne s q hk]
  · have hreqs : ∀ k, ∀ y ∈ (s.sorter k).reqs, y ∈ ((requestTaken s die q).sorter k).reqs := fun k y hy => by
      by_cases hk : k = die
      · subst hk
        rw [sorter_requestTaken_self]
        exact List.mem_append_left _ hy
      · rwa [sorter_requestTaken_ne s q hk]
    rcases hx with hwait | ⟨k, hk, hheld⟩
    · by_cases hxq : x = q
      · subst hxq
        refine .inr ⟨die, List.contains_iff_mem.1 hdie, ?_⟩
        rw [sorter_requestTaken_self]
        exact List.mem_append_right _ (List.mem_singleton_self _)
      · exact .inl ((List.mem_erase_of_ne hxq).2 hwait)
    · exact .inr ⟨k, hk, hreqs k x hheld⟩

theorem feedOne_feeds (s : State) (die : Nat) : Feeds s (feedOne s die) := by
  unfold feedOne
  split
  · next q hq =>
    have hmem := List.find?_some hq
    split
    · exact requestTaken_feeds (q := q) (die := die) hmem
    · exact .refl s
  · exact .refl s

theorem feedSorter_feeds (s : State) (die : Nat) : Feeds s (feedSorter s die) := by
  rw [feedSorter_eq]
  exact forAll_rel Feeds.refl (fun h h' => h.trans h') (fun w _ => feedOne_feeds w die) _ s

/-- A single request that waits goes to a sorter of its partition with room. -/
theorem feedSorter_single (hwait : s.sortWait = [q]) (hdie : die ∈ partDies (s.part q.part)) (hroom : sorterRoom (s.sorter die) = true) :
    feedSorter s die = requestTaken s die q := by
  have hone : feedOne s die = requestTaken s die q := by
    unfold feedOne
    rw [hwait, List.find?_cons_of_pos (by simpa using hdie)]
    exact if_pos hroom
  rw [feedSorter_eq, hwait]
  exact hone

/-! ### The request of a SORT -/

/-- What a SORT asks for, with the descriptor that it has read. -/
def sortRequest (t : Nat) (r : SkeinRun) (st : Step) (idx : Nat) (src : List (Nat × Nat × Bool)) : SortReq :=
  { slot := r.slot, tile := t, skein := r.skein, idx, desc := packBits (src.map fun e => (e.1, e.2.1)), deadline := st.deadline
    part := st.part }

/-- The request waits with spindle firmware, and its skein for it. -/
def sortAsked (s : State) (t : Nat) (r : SkeinRun) (q : SortReq) : State :=
  { (setRun s t { r with sortsOut := r.sortsOut + 1 }).modStep r.slot fun x => { x with requests := x.requests + 1 } with
    sortWait := s.sortWait ++ [q] }

theorem sortAsked_eq {y : Step} (t : Nat) (q : SortReq) (hy : tfind s.steps r.slot = some y) : sortAsked s t r q = { s with
    tiles := tput s.tiles t { s.tile t with run := some { r with sortsOut := r.sortsOut + 1 } }
    steps := tput s.steps r.slot { y with requests := y.requests + 1 }
    sortWait := s.sortWait ++ [q] } := by
  unfold sortAsked
  rw [modStep_of_some (setRun s t { r with sortsOut := r.sortsOut + 1 }) _ hy]
  rfl

/-- What a die with room then does with it. -/
def sortPassed (s : State) (l : List Nat) : State :=
  let (d, s) := pickFree s l
  match d with
  | some d => feedSorter s d
  | none => s

theorem sortPassed_feeds (s : State) (l : List Nat) : ∃ n, Feeds { s with fresh := n } (sortPassed s l) := by
  unfold sortPassed pickFree
  cases l with
  | nil => exact ⟨s.fresh, .refl s⟩
  | cons d l =>
    refine ⟨s.fresh + 1, ?_⟩
    dsimp only
    split
    · exact feedSorter_feeds _ _
    · exact .refl _

theorem sortPassed_nil (s : State) : sortPassed s [] = s := rfl

/-- Some die of the list takes it. -/
theorem sortPassed_of_ne_nil {l : List Nat} (h : l ≠ []) : ∃ d ∈ l, sortPassed s l = feedSorter { s with fresh := s.fresh + 1 } d := by
  obtain ⟨x, m, rfl⟩ := List.exists_cons_of_ne_nil h
  have hlt : (draw s).1 % (x :: m).length < (x :: m).length := Nat.mod_lt _ (by simp)
  refine ⟨(x :: m)[(draw s).1 % (x :: m).length], List.getElem_mem hlt, ?_⟩
  unfold sortPassed pickFree
  dsimp only
  rw [List.getElem?_eq_getElem hlt]
  rfl

/-- The dies of a partition whose sorter has room. -/
def roomyDies (s : State) (p : Nat) : List Nat := (partDies (s.part p)).filter fun d => sorterRoom (s.sorter d)

/-- A SORT once it has issued. -/
def sortIssued (s : State) (t : Nat) (r : SkeinRun) (st : Step) (a idx : Nat) : State :=
  if (readStored s t r.slot st a).any (·.2.2) then skeinFault s t r.slot 0x02
  else if (partDies (s.part st.part)).all fun d => (s.sorter d).withdrawn == 2 then failStep s r.slot 0x0D06
  else sortPassed (sortAsked s t r (sortRequest t r st idx (readStored s t r.slot st a)))
    (roomyDies (sortAsked s t r (sortRequest t r st idx (readStored s t r.slot st a))) st.part)

theorem exec_sort (h : Issues s t (.sort a idx) r st) :
    exec (.sort t a idx) s = .next (sortIssued (noteIssue s t (.sort a idx) r st) t (consumed r) st a idx) := by
  refine (show execSort t a idx s = _ from skein_of_issues [] _ h).trans ?_
  rw [show stepRun r (.sort a idx) = consumed r from stepRun_control r rfl rfl rfl]
  rfl

end Sys2Proof.Machine

/-! PROOFS. SORT, and FETCH, SEND, COLL and SORT together (O23; R139, R156, R195, R449). -/

namespace Sys2Proof.Machine

open Sys2Proof.Claims

variable {s u v w : State} {t slot p k a d idx die : Nat} {i : SkInsn} {r : SkeinRun} {st : Step} {q : SortReq}

theorem partDies_noteIssue (t : Nat) (i : SkInsn) (hst : tfind s.steps r.slot = some st) :
    partDies ((noteIssue s t i r st).part st.part) = partDies (s.part st.part) := by
  obtain ⟨c, tr, o, hpart⟩ := part_noteIssue_self t i hst
  rw [hpart]
  rfl

theorem sorter_noteIssue (t : Nat) (i : SkInsn) (hst : tfind s.steps r.slot = some st) (k : Nat) :
    (noteIssue s t i r st).sorter k = s.sorter k := by
  rw [State.sorter, noteIssue_shape t i hst]
  rfl

theorem sortWait_noteIssue (t : Nat) (i : SkInsn) (hst : tfind s.steps r.slot = some st) : (noteIssue s t i r st).sortWait = s.sortWait := by
  rw [noteIssue_shape t i hst]

/-! ### Requests that are refused -/

theorem sort_poisoned (h : Issues s t (.sort a idx) r st) (hopen : Undecided st)
    (hpoisoned : ¬ Clean (noteIssue s t (.sort a idx) r st) t r.slot st a) (hinit : s.coll.init = true) (ht : t < 2048) :
    ∃ u, exec (.sort t a idx) s = .next u ∧ FailsWith u r.slot 0x0C01 ∧ mkCode 2 (tileDie t) 0x02 ∈ u.coll.log := by
  obtain ⟨-, -, hst, -⟩ := id h
  refine ⟨_, exec_sort h, ?_⟩
  have hany : (readStored (noteIssue s t (.sort a idx) r st) t (consumed r).slot st a).any (·.2.2) = true :=
    (Bool.not_eq_false _).mp hpoisoned
  rw [sortIssued, if_pos hany]
  exact skeinFault_poisoned (tfind_noteIssue_self t _ hst) (undecided_notedStep s _ r hopen) ((init_noteIssue t _ hst).trans hinit) ht

/-- R449: with every sorter of the partition withdrawn the step fails. -/
theorem sort_withdrawn (h : Issues s t (.sort a idx) r st) (hopen : Undecided st)
    (hclean : Clean (noteIssue s t (.sort a idx) r st) t r.slot st a) (hall : ∀ d ∈ partDies (s.part st.part), (s.sorter d).withdrawn = 2) :
    ∃ u, exec (.sort t a idx) s = .next u ∧ FailsWith u r.slot 0x0D06 := by
  obtain ⟨-, -, hst, -⟩ := id h
  refine ⟨_, exec_sort h, ?_⟩
  have hany : ¬ (readStored (noteIssue s t (.sort a idx) r st) t (consumed r).slot st a).any (·.2.2) = true :=
    Bool.eq_false_iff.1 hclean
  rw [sortIssued, if_neg hany, if_pos]
  · exact failWith_failsWith 0x0D06 0 (tfind_noteIssue_self t _ hst) (undecided_notedStep s _ r hopen)
  · rw [partDies_noteIssue t _ hst]
    simpa [sorter_noteIssue t _ hst] using hall

/-! ### Requests that are made -/

/-- A request is made of clean data while some sorter of the partition is not withdrawn. -/
theorem sortIssued_of_clean (hclean : Clean s t r.slot st a) (hsome : ∃ d ∈ partDies (s.part st.part), (s.sorter d).withdrawn ≠ 2) :
    sortIssued s t r st a idx = sortPassed (sortAsked s t r (sortRequest t r st idx (readStored s t r.slot st a)))
      (roomyDies (sortAsked s t r (sortRequest t r st idx (readStored s t r.slot st a))) st.part) := by
  obtain ⟨d, hd, hfree⟩ := hsome
  rw [sortIssued, if_neg (Bool.eq_false_iff.1 hclean), if_neg]
  intro hall
  exact hfree (by simpa using List.all_eq_true.1 hall d hd)

theorem roomyDies_sortAsked {y : Step} (t : Nat) (q : SortReq) (hy : tfind s.steps r.slot = some y) (p : Nat) :
    roomyDies (sortAsked s t r q) p = roomyDies s p := by
  rw [sortAsked_eq t q hy]
  rfl

theorem issueFrame_sortAsked {y : Step} (t p : Nat) (q : SortReq) (hy : tfind s.steps r.slot = some y) :
    IssueFrame s (sortAsked s t r q) r.slot p := by
  rw [sortAsked_eq t q hy]
  exact ⟨fun k hk => tfind_tput_ne _ _ hk, fun _ _ => rfl, rfl, rfl, rfl, rfl, rfl, rfl, rfl, rfl, rfl, rfl, rfl, rfl, rfl⟩

theorem Feeds.issueFrame (h : Feeds s u) (slot p : Nat) : IssueFrame s u slot p := by
  rw [h.rest]
  exact ⟨fun _ _ => rfl, fun _ _ => rfl, rfl, rfl, rfl, rfl, rfl, rfl, rfl, rfl, rfl, rfl, rfl, rfl, rfl⟩

/-- R156: the request waits, or stands with a sorter of its partition. -/
theorem sort_made (h : Issues s t (.sort a idx) r st) (hquiet : Untraced s r st) (hclean : Clean s t r.slot st a)
    (hsome : ∃ d ∈ partDies (s.part st.part), (s.sorter d).withdrawn ≠ 2) :
    ∃ u st', exec (.sort t a idx) s = .next u ∧ IssueFrame s u r.slot st.part ∧ u.hbm = s.hbm
      ∧ tfind u.steps r.slot = some st' ∧ st'.requests = st.requests + 1
      ∧ (sortRequest t r st idx (readStored s t r.slot st a) ∈ u.sortWait
        ∨ ∃ d ∈ partDies (s.part st.part), sortRequest t r st idx (readStored s t r.slot st a) ∈ (u.sorter d).reqs) := by
  obtain ⟨-, -, hst, -⟩ := id h
  have hstep := tfind_noteIssue_self t (.sort a idx) hst
  have hread := readStored_noteIssue t (.sort a idx) hst hquiet r.slot a
  have hframe := issueFrame_noteIssue t (.sort a idx) hst
  have hhbm := (sameStore_noteIssue t (.sort a idx) hst hquiet).hbm
  have hdies := partDies_noteIssue t (.sort a idx) hst
  have hissued := sortIssued_of_clean (s := noteIssue s t (.sort a idx) r st) (r := consumed r) (idx := idx)
    (show Clean _ t r.slot st a by rw [Clean, hread]; exact hclean) (by
      rw [hdies]
      simpa only [sorter_noteIssue t _ hst] using hsome)
  have hexec := exec_sort h
  rw [hissued, show (consumed r).slot = r.slot from rfl, hread] at hexec
  generalize noteIssue s t (.sort a idx) r st = n at *
  have hasked := sortAsked_eq (r := consumed r) t (sortRequest t (consumed r) st idx (readStored s t r.slot st a)) hstep
  have hasking := issueFrame_sortAsked (r := consumed r) t st.part (sortRequest t (consumed r) st idx (readStored s t r.slot st a)) hstep
  generalize sortAsked n t (consumed r) (sortRequest t (consumed r) st idx (readStored s t r.slot st a)) = w at *
  obtain ⟨m, hfeeds⟩ := sortPassed_feeds w (roomyDies w st.part)
  generalize sortPassed w (roomyDies w st.part) = u at *
  have hpart : (w.part st.part) = n.part st.part := by
    rw [State.part, hasked]
    rfl
  refine ⟨u, { notedStep s (.sort a idx) r st with requests := st.requests + 1 }, hexec, issueFrame_trans (issueFrame_trans hframe hasking) (hfeeds.issueFrame r.slot st.part), ?_, ?_, rfl, ?_⟩
  · rw [hfeeds.rest, ← hhbm]
    show w.hbm = _
    rw [hasked]
  · rw [hfeeds.rest]
    show tfind w.steps r.slot = _
    rw [hasked]
    exact tfind_tput_self _ _ _
  · have hkept := hfeeds.kept (sortRequest t r st idx (readStored s t r.slot st a)) (.inl (by
      show _ ∈ w.sortWait
      rw [hasked]
      exact List.mem_append_right _ (List.mem_singleton_self _)))
    rw [← hdies, ← hpart]
    exact hkept

/-- What a skein waits for once its request was taken. -/
theorem run_requestTaken (htile : q.tile = t) (hrun : (s.tile t).run = some r) (hmine : r.slot = q.slot ∧ r.skein = q.skein) :
    ((requestTaken s die q).tile t).run = some { r with sortsOut := r.sortsOut - 1 } := by
  subst htile
  show (tget (tput s.tiles q.tile _) q.tile {}).run = _
  rw [tget_tput_self]
  show (s.tile q.tile).run.map _ = _
  rw [hrun, Option.map_some, if_pos hmine]

theorem tile_requestTaken_ne (s : State) (die : Nat) (hk : k ≠ q.tile) : (requestTaken s die q).tile k = s.tile k :=
  tget_tput_ne _ _ _ hk

/-- R156: with room in a sorter of the partition and no request waiting the sorter takes it. -/
theorem sort_taken (h : Issues s t (.sort a idx) r st) (hquiet : Untraced s r st) (hclean : Clean s t r.slot st a)
    (hroom : ∃ d ∈ partDies (s.part st.part), sorterRoom (s.sorter d) = true) (hnone : s.sortWait = []) :
    ∃ u d, exec (.sort t a idx) s = .next u ∧ d ∈ partDies (s.part st.part) ∧ sorterRoom (s.sorter d) = true
      ∧ (u.sorter d).reqs = (s.sorter d).reqs ++ [sortRequest t r st idx (readStored s t r.slot st a)]
      ∧ (∀ k, k ≠ d → u.sorter k = s.sorter k) ∧ u.sortWait = []
      ∧ (u.tile t).run = some (consumed r) ∧ ∀ k, k ≠ t → u.tile k = s.tile k := by
  obtain ⟨-, -, hst, -⟩ := id h
  have hstep := tfind_noteIssue_self t (.sort a idx) hst
  have hread := readStored_noteIssue t (.sort a idx) hst hquiet r.slot a
  have hdies := partDies_noteIssue t (.sort a idx) hst
  have hsorters := sorter_noteIssue t (.sort a idx) hst
  have hwait := (sortWait_noteIssue t (.sort a idx) hst).trans hnone
  have hothers (k : Nat) (hk : k ≠ t) := tile_noteIssue_ne (.sort a idx) hst hk
  obtain ⟨x, hx, hxroom⟩ := hroom
  have hfree : (s.sorter x).withdrawn ≠ 2 := fun h2 => by simp [sorterRoom, h2] at hxroom
  have hissued := sortIssued_of_clean (s := noteIssue s t (.sort a idx) r st) (r := consumed r) (idx := idx)
    (show Clean _ t r.slot st a by rw [Clean, hread]; exact hclean) ⟨x, by rwa [hdies], by rwa [hsorters]⟩
  have hexec := exec_sort h
  rw [hissued, show (consumed r).slot = r.slot from rfl, hread] at hexec
  have hrooms : roomyDies (noteIssue s t (.sort a idx) r st) st.part = roomyDies s st.part := by
    simp only [roomyDies, hdies, hsorters]
  generalize noteIssue s t (.sort a idx) r st = n at *
  rw [show sortRequest t (consumed r) st idx (readStored s t r.slot st a) = sortRequest t r st idx (readStored s t r.slot st a) from rfl] at hexec
  generalize hreq : sortRequest t r st idx (readStored s t r.slot st a) = q at *
  rw [roomyDies_sortAsked (r := consumed r) t q hstep, hrooms] at hexec
  have hasked := sortAsked_eq (r := consumed r) t q hstep
  obtain ⟨d, hd, hpassed⟩ := sortPassed_of_ne_nil (s := sortAsked n t (consumed r) q) (l := roomyDies s st.part)
    (List.ne_nil_of_mem (List.mem_filter.2 ⟨hx, hxroom⟩))
  obtain ⟨hdie, hdroom⟩ := List.mem_filter.1 hd
  have hsorter (k : Nat) : (sortAsked n t (consumed r) q).sorter k = s.sorter k := by
    rw [State.sorter, hasked]
    exact hsorters k
  have hpart : (sortAsked n t (consumed r) q).part st.part = n.part st.part := by
    rw [State.part, hasked]
    rfl
  have hsingle : (sortAsked n t (consumed r) q).sortWait = [q] := by
    rw [hasked]
    show n.sortWait ++ [q] = _
    rw [hwait]
    rfl
  have hqpart : q.part = st.part := by rw [← hreq]; rfl
  have hqtile : q.tile = t := by rw [← hreq]; rfl
  have hqmine : r.slot = q.slot ∧ r.skein = q.skein := by rw [← hreq]; exact ⟨rfl, rfl⟩
  have hrun : ((sortAsked n t (consumed r) q).tile t).run = some { consumed r with sortsOut := r.sortsOut + 1 } := by
    rw [State.tile, hasked]
    show (tget (tput n.tiles t _) t {}).run = _
    rw [tget_tput_self]
    rfl
  have htile (k : Nat) (hk : k ≠ t) : (sortAsked n t (consumed r) q).tile k = s.tile k := by
    rw [State.tile, hasked]
    exact (tget_tput_ne _ _ _ hk).trans (hothers k hk)
  generalize sortAsked n t (consumed r) q = w at *
  rw [hpassed, feedSorter_single (s := { w with fresh := w.fresh + 1 }) (q := q) (die := d) hsingle
    (by rw [hqpart, State.part, show w.parts = w.parts from rfl]; exact (by rw [hpart, hdies]; exact hdie : d ∈ partDies (w.part st.part)))
    ((congrArg sorterRoom (hsorter d)).trans hdroom)] at hexec
  refine ⟨_, d, hexec, hdie, hdroom, ?_, fun k hk => ?_, ?_, ?_, fun k hk => ?_⟩
  · rw [sorter_requestTaken_self]
    show (w.sorter d).reqs ++ [q] = _
    rw [hsorter]
  · rw [sorter_requestTaken_ne _ _ hk]
    exact hsorter k
  · show w.sortWait.erase q = []
    rw [hsingle, List.erase_cons_head]
  · exact run_requestTaken (s := { w with fresh := w.fresh + 1 }) hqtile hrun hqmine
  · rw [tile_requestTaken_ne _ d (by rw [hqtile]; exact hk)]
    exact htile k hk

/-- R138: with no room in any sorter of the partition the request waits. -/
theorem sort_waits (h : Issues s t (.sort a idx) r st) (hquiet : Untraced s r st) (hclean : Clean s t r.slot st a)
    (hfull : ∀ d ∈ partDies (s.part st.part), sorterRoom (s.sorter d) = false)
    (hsome : ∃ d ∈ partDies (s.part st.part), (s.sorter d).withdrawn ≠ 2) :
    ∃ u, exec (.sort t a idx) s = .next u ∧ u.sortWait = s.sortWait ++ [sortRequest t r st idx (readStored s t r.slot st a)]
      ∧ u.sorters = s.sorters ∧ (u.tile t).run = some { consumed r with sortsOut := r.sortsOut + 1 } := by
  obtain ⟨-, -, hst, -⟩ := id h
  have hstep := tfind_noteIssue_self t (.sort a idx) hst
  have hread := readStored_noteIssue t (.sort a idx) hst hquiet r.slot a
  have hdies := partDies_noteIssue t (.sort a idx) hst
  have hsorters := sorter_noteIssue t (.sort a idx) hst
  have hwait := sortWait_noteIssue t (.sort a idx) hst
  have htable : (noteIssue s t (.sort a idx) r st).sorters = s.sorters := by rw [noteIssue_shape t (.sort a idx) hst]
  have hissued := sortIssued_of_clean (s := noteIssue s t (.sort a idx) r st) (r := consumed r) (idx := idx)
    (show Clean _ t r.slot st a by rw [Clean, hread]; exact hclean) (by
      rw [hdies]
      simpa only [hsorters] using hsome)
  have hexec := exec_sort h
  have hnone : roomyDies s st.part = [] := List.filter_eq_nil_iff.2 fun d hd => by simp [hfull d hd]
  have hrooms : roomyDies (noteIssue s t (.sort a idx) r st) st.part = [] := by
    rw [← hnone]
    simp only [roomyDies, hdies, hsorters]
  rw [hissued, show (consumed r).slot = r.slot from rfl, hread, roomyDies_sortAsked (r := consumed r) t _ hstep, hrooms, sortPassed_nil,
    sortAsked_eq (r := consumed r) t _ hstep] at hexec
  refine ⟨_, hexec, ?_, htable, ?_⟩
  · rw [← hwait]
    rfl
  · exact (congrArg Tile.run (tget_tput_self _ _ _ _)).trans rfl

/-- Settles O23: each operation is its row's body on the state in which it has issued. -/
theorem copiesCollectivesAndSorts : Obligations.CopiesCollectivesAndSorts := by
  unfold Obligations.CopiesCollectivesAndSorts
  refine ⟨fun s t a d member r st h hm => fetch_local h hm, fun s t a d member m p r st h hm hport => fetch_remote h hm hport,
    fun s t a d member r st h hm => send_local h hm, fun s t a d member m p r st h ht hm hport => send_remote h ht hm hport,
    fun s t a d member m r st hm hport hopen hinit =>
      ⟨fun h => fetch_withheld h hm hport hopen hinit, fun h => send_withheld h hm hport hopen hinit⟩,
    fun s t a d pattern red first count root p p' r st h ht => ?_,
    fun s t a d pattern red first count root r st h hport hopen hinit => coll_withheld h hport hopen hinit,
    fun s t a idx r st h hquiet hclean => ⟨sort_made h hquiet hclean, sort_taken h hquiet hclean, sort_waits h hquiet hclean⟩,
    fun s t a idx r st h hopen => ⟨fun hpoisoned hinit ht => sort_poisoned h hopen hpoisoned hinit ht, sort_withdrawn h hopen⟩⟩
  exact fun hnext hprev => coll_spec h ht hnext hprev

end Sys2Proof.Machine

/-! PROOFS. Retiring skeins and closing sorts (O24; R149, R150, R221, R222). -/

namespace Sys2Proof.Machine

open Sys2Proof.Claims

variable {s u v w : State} {t slot p k idx : Nat} {st x : Step}

/-! ### Skeins that never issue (R149) -/

/-- Skeins that had not started have retired, and no other has changed. -/
def SkeinsRetired (a b : Tab Nat) : Prop := ∀ k, tget b k 0 = tget a k 0 ∨ tget a k 0 = 0 ∧ tget b k 0 = 5

theorem SkeinsRetired.trans {a b c : Tab Nat} (h : SkeinsRetired a b) (h' : SkeinsRetired b c) : SkeinsRetired a c := fun k => by
  have := h k
  have := h' k
  omega

theorem skeinsRetired_tput {a : Tab Nat} (hk : tget a k 0 = 0 ∨ tget a k 0 = 5) : SkeinsRetired a (tput a k 5) := fun j => by
  by_cases hj : j = k
  · subst hj
    rw [tget_tput_self]
    omega
  · exact .inl (tget_tput_ne _ _ _ hj)

/-- Between `s` and `u` skeins of the step in `slot` retired and sorts of it closed; the retired ones were counted and logged. -/
structure Retired (slot : Nat) (s u : State) : Prop where
  rest : u = { s with parts := u.parts, steps := u.steps, ctxs := u.ctxs, hbm := u.hbm, hbmPoison := u.hbmPoison }
  part : ∀ p, u.part p = { s.part p with counters := (u.part p).counters, obs := (u.part p).obs }
  logOn : ∀ c, (u.ctx c).logOn = (s.ctx c).logOn
  others : ∀ k, k ≠ slot → tfind u.steps k = tfind s.steps k
  step : ∀ x, tfind s.steps slot = some x → ∃ sk se, tfind u.steps slot = some { x with skeins := sk, sortExperts := se }
    ∧ SkeinsRetired x.skeins sk
  unlogged : ∀ x, tfind s.steps slot = some x → (s.ctx x.ctx).logOn = false → u.hbm = s.hbm

namespace Retired

theorem refl (slot : Nat) (s : State) : Retired slot s s :=
  ⟨rfl, fun _ => rfl, fun _ => rfl, fun _ _ => rfl, fun x hx => ⟨x.skeins, x.sortExperts, hx, fun _ => .inl rfl⟩, fun _ _ _ => rfl⟩

theorem trans (h : Retired slot s u) (h' : Retired slot u v) : Retired slot s v where
  rest := by rw [h'.rest, h.rest]
  part p := by rw [h'.part, h.part]
  logOn c := (h'.logOn c).trans (h.logOn c)
  others k hk := (h'.others k hk).trans (h.others k hk)
  step x hx := by
    obtain ⟨sk, se, hu, hretired⟩ := h.step x hx
    obtain ⟨sk', se', hv, hretired'⟩ := h'.step _ hu
    exact ⟨sk', se', hv, hretired.trans hretired'⟩
  unlogged x hx hoff := by
    obtain ⟨sk, se, hu, -⟩ := h.step x hx
    exact (h'.unlogged _ hu ((h.logOn x.ctx).trans hoff)).trans (h.unlogged x hx hoff)

end Retired

theorem modStep_retired (hx : tfind s.steps slot = some x) (f : Step → Step) (sk : Tab Nat) (se : Tab Nat)
    (hf : f x = { x with skeins := sk, sortExperts := se }) (hsk : SkeinsRetired x.skeins sk) : Retired slot s (s.modStep slot f) := by
  rw [modStep_of_some s f hx, hf]
  refine ⟨rfl, fun _ => rfl, fun _ => rfl, fun k hk => tfind_tput_ne _ _ hk, fun y hy => ?_, fun _ _ _ => rfl⟩
  cases hx.symm.trans hy
  exact ⟨sk, se, tfind_tput_self _ _ _, hsk⟩

theorem count_retired (slot : Nat) (s : State) (p ev n : Nat) : Retired slot s (count s p ev n) := by
  unfold count
  split
  · exact .refl slot s
  · refine ⟨rfl, fun q => ?_, fun _ => rfl, fun _ _ => rfl, fun x hx => ⟨x.skeins, x.sortExperts, hx, fun _ => .inl rfl⟩, fun _ _ _ => rfl⟩
    by_cases hq : q = p
    · subst hq
      rw [part_modPart_self]
    · rw [part_modPart_ne _ _ hq]

theorem part_obsSpend (s : State) (p n q : Nat) : (obsSpend s p n).part q
    = { s.part q with counters := ((obsSpend s p n).part q).counters, obs := ((obsSpend s p n).part q).obs } := by
  unfold obsSpend
  by_cases hq : q = p
  · subst hq
    rw [part_modPart_self]
  · rw [part_modPart_ne _ _ hq]

theorem logPlace_retired (slot : Nat) (hx : ∀ x, tfind s.steps slot = some x → x.ctx = st.ctx) (k t : Nat) (retired replaced added : Bool) :
    Retired slot s (logPlace s st k t retired replaced added) := by
  unfold logPlace
  extract_lets c i w v
  split
  · exact .refl slot s
  · next hon =>
    refine ⟨rfl, fun q => ?_, fun d => ?_, fun _ _ => rfl, fun x hx => ⟨x.skeins, x.sortExperts, hx, fun _ => .inl rfl⟩, fun x hfind hoff => ?_⟩
    · exact part_obsSpend s st.part 8 q
    · by_cases hd : d = st.ctx
      · subst hd
        rw [ctx_modCtx_self]
        rfl
      · rw [ctx_modCtx_ne _ _ hd]
        rfl
    · rw [hx x hfind] at hoff
      simp [c, hoff] at hon

/-- One skein retires. -/
def retireOne (slot : Nat) (st : Step) (s : State) (k : Nat) : State :=
  let s := s.modStep slot fun x => { x with skeins := tput x.skeins k 5 }
  if ownSkein s st k then logPlace (count s st.part 0x07 1) st k 0 true false else s

theorem retireOne_retired (hx : tfind s.steps slot = some x) (hctx : x.ctx = st.ctx)
    (hk : skState x k = 0 ∨ skState x k = 5) : Retired slot s (retireOne slot st s k) := by
  have hmarked : Retired slot s (s.modStep slot fun x => { x with skeins := tput x.skeins k 5 }) :=
    modStep_retired hx _ (tput x.skeins k 5) x.sortExperts rfl (skeinsRetired_tput hk)
  unfold retireOne
  dsimp only
  split
  · have hcounted := hmarked.trans (count_retired slot _ st.part 0x07 1)
    refine hcounted.trans (logPlace_retired slot (fun y hy => ?_) _ _ _ _ _)
    obtain ⟨sk, se, hfind, -⟩ := hcounted.step x hx
    cases hfind.symm.trans hy
    exact hctx
  · exact hmarked

/-- The skeins of the list retire, one after the other. -/
def retireAll (s : State) (slot : Nat) (st : Step) (l : List Nat) : State :=
  l.foldl (retireOne slot st) s

theorem retireAll_retired {l : List Nat} (hx : tfind s.steps slot = some x) (hctx : x.ctx = st.ctx)
    (hl : ∀ k ∈ l, skState x k = 0 ∨ skState x k = 5) : Retired slot s (retireAll s slot st l) := by
  induction l generalizing s x with
  | nil => exact .refl slot s
  | cons k l ih =>
    have hone := retireOne_retired hx hctx (hl k List.mem_cons_self)
    obtain ⟨sk, se, hfind, hretired⟩ := hone.step x hx
    refine hone.trans (ih hfind hctx fun j hj => ?_)
    have := hretired j
    have hj' := hl j (List.mem_cons_of_mem _ hj)
    unfold skState at hj' ⊢
    dsimp only
    omega

/-- The conditional skeins of the listed sorts. -/
def skeinsOfSorts (f : Upf.File) (idx : List Nat) : List Nat :=
  (List.range f.skeins.length).filter fun k => (skeinOf f k).kind == 1 && idx.contains (skeinOf f k).predSort

theorem retire_cons (n : Nat) (hx : tfind s.steps slot = some x) {ks : List Nat} (hks : ks ≠ []) :
    ∃ l, (∀ k ∈ l, skState x k = 0) ∧ retire (n + 1) s slot ks
      = retire n ((retireAll s slot x l).modStep slot fun y => { y with
          sortExperts := (l.flatMap fun k => sortsOf (skeinOf (stepFile s x) k)).foldl (fun t i => tput t i 0) y.sortExperts }) slot
        (skeinsOfSorts (stepFile s x) (l.flatMap fun k => sortsOf (skeinOf (stepFile s x) k))) := by
  refine ⟨ks.filter fun k => skState x k == 0, fun k hk => by simpa using (List.mem_filter.1 hk).2, ?_⟩
  obtain ⟨k, l, rfl⟩ := List.exists_cons_of_ne_nil hks
  rw [retire]
  · simp only [hx]
    rfl
  · exact hks

theorem retire_retired (n : Nat) (s : State) (slot : Nat) (ks : List Nat) : Retired slot s (retire n s slot ks) := by
  induction n generalizing s ks with
  | zero => exact .refl slot s
  | succ n ih =>
    by_cases hks : ks = []
    · subst hks
      exact .refl slot s
    · cases hx : tfind s.steps slot with
      | none =>
        have hstays : retire (n + 1) s slot ks = s := by
          rw [retire]
          · simp only [hx]
          · exact hks
        rw [hstays]
        exact .refl slot s
      | some x =>
        obtain ⟨l, hl, heq⟩ := retire_cons n hx hks
        have hall := retireAll_retired (l := l) hx rfl fun k hk => .inl (hl k hk)
        obtain ⟨sk, se, hfind, -⟩ := hall.step x hx
        rw [heq]
        exact (hall.trans (modStep_retired hfind _ sk _ rfl fun _ => .inl rfl)).trans (ih _ _)

theorem retireFalse_retired (s : State) (slot idx : Nat) : Retired slot s (retireFalse s slot idx) := by
  unfold retireFalse
  split
  · exact .refl slot s
  · exact retire_retired _ _ _ _

theorem closeSort_retired (s : State) (slot idx : Nat) : Retired slot s (closeSort s slot idx) := by
  refine Retired.trans ?_ (retireFalse_retired _ slot idx)
  cases hx : tfind s.steps slot with
  | none =>
    rw [show s.modStep slot _ = s by simp only [State.modStep, hx]]
    exact .refl slot s
  | some x => exact modStep_retired hx _ x.skeins _ rfl fun _ => .inl rfl

theorem closeSkipped_retired (s : State) (slot : Nat) (idx : List Nat) : Retired slot s (closeSkipped s slot idx) := by
  refine forAll_rel (Retired.refl slot) Retired.trans (fun w i => ?_) idx s
  dsimp only
  split
  · split
    · exact .refl slot w
    · exact closeSort_retired w slot i
  · exact .refl slot w

/-! ### Counts are evaluated (R149, R154) -/

/-- The step once the counts are known. -/
def counted (idx experts : Nat) (l : List (Nat × Nat)) (st : Step) : Step := { st with
  sortExperts := tput st.sortExperts idx experts
  sortCounts := l.foldl (fun t e => tput t (sortKey idx e.1) e.2) st.sortCounts }

theorem evalCounts_retired (s : State) (slot idx experts : Nat) (l : List (Nat × Nat)) :
    Retired slot (s.modStep slot (counted idx experts l)) (evalCounts s slot idx experts l) := retireFalse_retired _ _ _

theorem sortKey_inj {idx e e' : Nat} : sortKey idx e = sortKey idx e' ↔ e = e' := by
  unfold sortKey
  omega

/-- A count that is listed once is what its expert's key then holds. -/
theorem tfind_counts {α : Type} {key : α → Nat} {val : α → Nat} {l : List α} {e : α} (he : e ∈ l)
    (huniq : ∀ x ∈ l, key x = key e → val x = val e) (t : Tab Nat) :
    tfind (l.foldl (fun t e => tput t (key e) (val e)) t) (key e) = some (val e) := by
  induction l using List.reverseRecOn with
  | nil => cases he
  | append_singleton l x ih =>
    rw [List.foldl_append]
    show tfind (tput _ (key x) (val x)) (key e) = _
    by_cases hx : key e = key x
    · rw [hx, tfind_tput_self, huniq x (by simp) hx.symm]
    · rw [tfind_tput_ne _ _ hx]
      have hne : e ≠ x := fun h => hx (congrArg key h)
      exact ih (by simpa [hne] using he) fun y hy => huniq y (by simp [hy])

end Sys2Proof.Machine

/-! PROOFS. A skein completes (O24; R73, R109, R150, R195, R204, R305, R322). -/

namespace Sys2Proof.Machine

open Sys2Proof.Claims

variable {s u v w : State} {t slot p k j now : Nat} {r : SkeinRun} {st x y : Step}

/-! ### Records of an operation that ends (R322, R550) -/

/-- Between `s` and `u` counts rose and records were charged. -/
structure Booked (s u : State) : Prop where
  rest : u = { s with parts := u.parts, ctxs := u.ctxs, engRecs := u.engRecs, fresh := u.fresh }
  part : ∀ p, u.part p = { s.part p with counters := (u.part p).counters }
  logOn : ∀ c, (u.ctx c).logOn = (s.ctx c).logOn

namespace Booked

theorem refl (s : State) : Booked s s := ⟨rfl, fun _ => rfl, fun _ => rfl⟩

theorem trans (h : Booked s u) (h' : Booked u v) : Booked s v :=
  ⟨by rw [h'.rest, h.rest], fun p => by rw [h'.part, h.part], fun c => (h'.logOn c).trans (h.logOn c)⟩

theorem drawn (s : State) (n : Nat) : Booked s { s with fresh := n } := ⟨rfl, fun _ => rfl, fun _ => rfl⟩

theorem count (s : State) (p ev n : Nat) : Booked s (count s p ev n) := by
  have hpart : (Machine.count s p ev n) = { s with parts := (Machine.count s p ev n).parts } := by
    unfold Machine.count
    split <;> rfl
  refine ⟨?_, fun q => (count_sends s p ev n).part q, fun c => ?_⟩
  · rw [hpart]
  · rw [State.ctx, hpart]
    rfl

theorem charge (s : State) (eng c cgen ns bytes e : Nat) : Booked s (charge s eng c cgen ns bytes e) := by
  unfold Machine.charge
  extract_lets r w
  split
  · refine ⟨rfl, fun _ => rfl, fun d => ?_⟩
    by_cases hd : d = c
    · rw [hd, ctx_modCtx_self]
      rfl
    · rw [ctx_modCtx_ne _ _ hd]
      rfl
  · exact ⟨rfl, fun _ => rfl, fun _ => rfl⟩

end Booked

/-! ### The step settles (R305) -/

theorem settleSkeins_of_past (hst : tfind s.steps slot = some st) (hstate : st.state = 3)
    (hall : ∀ j, j < (stepFile s st).skeins.length → skPast s st j = true) : settleSkeins s slot = lastDone s slot st := by
  simp only [settleSkeins, hst]
  exact if_pos ⟨hstate, List.all_eq_true.2 fun j hj => hall j (List.mem_range.1 hj)⟩

theorem settleSkeins_of_open (hst : tfind s.steps slot = some st)
    (hopen : st.state ≠ 3 ∨ ∃ j, j < (stepFile s st).skeins.length ∧ skPast s st j = false) : settleSkeins s slot = s := by
  simp only [settleSkeins, hst]
  refine if_neg fun h => ?_
  obtain ⟨hstate, hall⟩ := h
  rcases hopen with hne | ⟨j, hj, hpast⟩
  · exact hne hstate
  · rw [List.all_eq_true.1 hall j (List.mem_range.2 hj)] at hpast
    cases hpast

/-- What a step keeps when it settles. -/
structure Settling (slot : Nat) (st : Step) (s u : State) : Prop where
  rest : u = { s with parts := u.parts, ctxs := u.ctxs, steps := u.steps, tiles := u.tiles, rails := u.rails, out := u.out, hbm := u.hbm,
                      hbmPoison := u.hbmPoison }
  tile : ∀ e, u.tile e = { s.tile e with clock := (u.tile e).clock }
  others : ∀ i, i ≠ slot → tfind u.steps i = tfind s.steps i
  step : tfind u.steps slot = some st ∨ st.state = 3 ∧ tfind u.steps slot = some (releasing s st)

theorem settleSkeins_settling (hst : tfind s.steps slot = some st) : Settling slot st s (settleSkeins s slot) := by
  by_cases h : st.state = 3 ∧ ∀ j, j < (stepFile s st).skeins.length → skPast s st j = true
  · obtain ⟨hstate, hall⟩ := h
    obtain ⟨hrest, htile, -⟩ := lastDone_bounds hst
    have hshape := issueEnded_shape s slot st
    rw [settleSkeins_of_past hst hstate hall]
    have hsteps : (lastDone s slot st).steps = tput s.steps slot (releasing s st) := by rw [hrest, hshape]
    refine ⟨?_, fun e => ?_, fun i hi => ?_, .inr ⟨hstate, ?_⟩⟩
    · rw [hrest, hshape]
    · rw [htile e, hshape]
      rfl
    · rw [hsteps, tfind_tput_ne _ _ hi]
    · rw [hsteps, tfind_tput_self]
  · rw [settleSkeins_of_open hst]
    · exact ⟨rfl, fun _ => rfl, fun _ _ => rfl, .inl hst⟩
    · by_cases hstate : st.state = 3
      · refine .inr ?_
        by_contra hnone
        refine h ⟨hstate, fun j hj => ?_⟩
        by_contra hpast
        exact hnone ⟨j, hj, by simpa using hpast⟩
      · exact .inl hstate

/-! ### The skein's own completion (R73, R195, R322) -/

/-- The step once the skein of `r` is complete. -/
def completed (r : SkeinRun) (st : Step) : Step := { st with skeins := tput st.skeins r.skein 4, conv := st.conv ||| r.conv }

/-- The skein's tail has closed and its step notes it. -/
def tailClosed (s : State) (t : Nat) (r : SkeinRun) (st : Step) : State :=
  traceSkein ((s.modTile t fun x => { x with tails := x.tails.erase r }).modStep r.slot fun x =>
    { x with skeins := tput x.skeins r.skein 4, conv := x.conv ||| r.conv }) r.slot 2 t r.skein (if st.replaced.contains r.skein then 4 else 0) 0

/-- Its operations and its time are accounted for. -/
def skeinBooked (s : State) (t : Nat) (r : SkeinRun) (st : Step) : State :=
  let f := stepFile s st
  let k := skeinOf f r.skein
  let s := tailClosed s t r st
  let (a, s) := draw s
  let (b, s) := draw s
  let (e, s) := draw s
  let s := count (count (count s st.part 0x06 1) st.part 0x01 (a % (k.cost + 1))) st.part 0x02 (b % (k.cost + 1))
  charge s t st.ctx st.ctxGen (time s - r.startAt) 0 e

theorem skeinDone_eq (s : State) (t : Nat) (r : SkeinRun) (st : Step) : skeinDone s t r st
    = settleSkeins (splitSkein (closeSkipped (skeinBooked s t r st) r.slot (sortsOf (skeinOf (stepFile s st) r.skein))) t r.skein r.slot)
      r.slot := rfl

theorem skeinBooked_books (s : State) (t : Nat) (r : SkeinRun) (st : Step) : Booked (tailClosed s t r st) (skeinBooked s t r st) := by
  unfold skeinBooked
  dsimp only [draw]
  exact ((((Booked.drawn _ _).trans (.count ..)).trans (.count ..)).trans (.count ..)).trans (.charge ..)

/-- What completion leaves before its step settles. -/
structure Completing (t : Nat) (r : SkeinRun) (st : Step) (s u : State) : Prop where
  rest : u = { s with parts := u.parts, steps := u.steps, ctxs := u.ctxs, engRecs := u.engRecs, fresh := u.fresh, tiles := u.tiles
                      hbm := u.hbm, hbmPoison := u.hbmPoison }
  part : ∀ p, u.part p = { s.part p with counters := (u.part p).counters, trace := (u.part p).trace, obs := (u.part p).obs }
  tails : (u.tile t).tails = (s.tile t).tails.erase r
  others : ∀ k, k ≠ r.slot → tfind u.steps k = tfind s.steps k
  step : ∃ sk se, tfind u.steps r.slot = some { completed r st with skeins := sk, sortExperts := se }
    ∧ SkeinsRetired (tput st.skeins r.skein 4) sk

theorem completing_of_tail (t : Nat) (hst : tfind s.steps r.slot = some st) (idx : List Nat) :
    Completing t r st s (closeSkipped (skeinBooked s t r st) r.slot idx) := by
  have hclosed := closeSkipped_retired (skeinBooked s t r st) r.slot idx
  generalize closeSkipped (skeinBooked s t r st) r.slot idx = v at *
  have hbooked := skeinBooked_books s t r st
  generalize skeinBooked s t r st = n at *
  have hmarked : ((s.modTile t fun x => { x with tails := x.tails.erase r }).modStep r.slot fun x =>
      { x with skeins := tput x.skeins r.skein 4, conv := x.conv ||| r.conv })
      = { s with tiles := tput s.tiles t { s.tile t with tails := (s.tile t).tails.erase r }, steps := tput s.steps r.slot (completed r st) } := by
    rw [modStep_of_some (s.modTile t fun x => { x with tails := x.tails.erase r }) _ hst]
    rfl
  have htraced : Traces _ (tailClosed s t r st) := traceSkein_traces _ r.slot 2 t r.skein (if st.replaced.contains r.skein then 4 else 0) 0
  rw [hmarked] at htraced
  generalize tailClosed s t r st = c at *
  have hstep : tfind n.steps r.slot = some (completed r st) := by
    rw [hbooked.rest]
    show tfind c.steps r.slot = _
    rw [htraced.rest]
    exact tfind_tput_self _ _ _
  refine ⟨?_, fun p => ?_, ?_, fun k hk => ?_, ?_⟩
  · rw [hclosed.rest, hbooked.rest, htraced.rest]
  · rw [hclosed.part, hbooked.part, htraced.part]
    rfl
  · rw [State.tile, hclosed.rest]
    show (n.tile t).tails = _
    rw [State.tile, hbooked.rest]
    show (c.tile t).tails = _
    rw [State.tile, htraced.rest]
    exact congrArg Tile.tails (tget_tput_self _ _ _ _)
  · rw [hclosed.others k hk, hbooked.rest]
    show tfind c.steps k = _
    rw [htraced.rest]
    exact tfind_tput_ne _ _ hk
  · obtain ⟨sk, se, hfind, hretired⟩ := hclosed.step _ hstep
    exact ⟨sk, se, hfind, hretired⟩

end Sys2Proof.Machine

/-! PROOFS. SKEIN_COMPLETE (O24; R73, R109, R150, R195, R204, R305). -/

namespace Sys2Proof.Machine

open Sys2Proof.Claims

variable {s u v w : State} {t slot p k j now : Nat} {r : SkeinRun} {st x y : Step}

/-- R204: outside a split the completion of a skein tells nobody. -/
theorem splitSkein_of_whole (hst : tfind s.steps slot = some st) (hwhole : ∀ j n, st.job = some (j, n) → (s.job j).parts = []) (t k : Nat) :
    splitSkein s t k slot = s := by
  unfold splitSkein
  rw [hst]
  dsimp only
  split
  · rfl
  · next j n hjob =>
    have hparts := hwhole j n hjob
    have htargets : ∀ v, splitTargets s st j v = [] := fun v => by
      unfold splitTargets
      extract_lets
      rw [if_pos (by simp [hparts])]
    have hpeers : tellPeers s st (fun h k' => .skein h k' k) = s := by
      simp only [tellPeers, hjob, hparts]
      rw [List.filter_eq_nil_iff.2 (by simp)]
      rfl
    have hnone : ((writtenViews s st (skeinOf (stepFile s st) k)).flatMap fun v => (splitTargets s st j v).map fun m => (v, m)) = [] := by
      simp [htargets]
    rw [hnone]
    exact hpeers

namespace Completing

theorem fileAt (h : Completing t r st s u) : stepFile u st = stepFile s st := by
  rw [stepFile, stepFile, h.part]

theorem skPastAt (h : Completing t r st s u) {sk se : Tab Nat} (j : Nat) :
    skPast u { completed r st with skeins := sk, sortExperts := se } j = (decide (3 ≤ tget sk j 0) || !ownSkein s st j) := by
  have hown : ownSkein u { completed r st with skeins := sk, sortExperts := se } j = ownSkein s st j := by
    refine ownSkein_congr ?_ ?_ rfl rfl rfl rfl ?_ ?_ j
    · rw [h.rest]
    · rw [h.rest]
    · rw [h.part]
    · rw [h.part]
  rw [skPast, hown]
  rfl

end Completing

theorem tile_freeDead (s : State) (slot : Nat) (keep : Nat → Bool) (t : Nat) :
    (freeDead s slot keep).tile t = { s.tile t with bufs := (s.tile t).bufs.filter fun b => b.slot != slot || keep b.tensor } :=
  tile_tmap s _ (fun _ => rfl) t

/-- What settles of a step whose skein is complete. -/
theorem settle_completing (h : Completing t r st s w) : ∃ u st', settleSkeins w r.slot = u ∧ tfind u.steps r.slot = some st'
    ∧ tget st'.skeins r.skein 0 = 4 ∧ st'.conv = st.conv ||| r.conv ∧ (u.tile t).tails = (s.tile t).tails.erase r ∧ u.funcs = s.funcs
    ∧ (st.state ≠ 3 ∨ (∃ j, j < (stepFile s st).skeins.length ∧ j ≠ r.skein ∧ (skState st j = 1 ∨ skState st j = 2) ∧ ownSkein s st j = true) →
        st'.state = st.state)
    ∧ (st.state = 3 → (∀ j, j ≠ r.skein → j < (stepFile s st).skeins.length → skPast s st j = true) →
        st'.state = 5 ∧ st'.lastRan = some (time u) ∧ (u.part st.part).running ≠ some r.slot) := by
  obtain ⟨sk, se, hfind, hretired⟩ := h.step
  have hcomplete : tget sk r.skein 0 = 4 := by
    have := hretired r.skein
    rw [tget_tput_self] at this
    omega
  have hothers (j : Nat) (hj : j ≠ r.skein) : tget sk j 0 = skState st j ∨ skState st j = 0 ∧ tget sk j 0 = 5 := by
    have := hretired j
    rwa [tget_tput_ne _ _ _ hj] at this
  have hfile : stepFile w { completed r st with skeins := sk, sortExperts := se } = stepFile s st := h.fileAt
  have hsettling := settleSkeins_settling hfind
  have hfuncs : (settleSkeins w r.slot).funcs = s.funcs := by rw [hsettling.rest, h.rest]
  have htails : ((settleSkeins w r.slot).tile t).tails = (s.tile t).tails.erase r := by
    rw [hsettling.tile]
    exact h.tails
  by_cases hall : st.state = 3 ∧ ∀ j, j < (stepFile s st).skeins.length →
      skPast w { completed r st with skeins := sk, sortExperts := se } j = true
  · obtain ⟨hstate, hpast⟩ := hall
    have hdone := settleSkeins_of_past hfind hstate (by rw [hfile]; exact hpast)
    obtain ⟨hrunning, hsteps, -⟩ := lastDone_spec hfind
    have htime : time (settleSkeins w r.slot) = time w := by
      rw [hsettling.rest]
      rfl
    have hstep : tfind (settleSkeins w r.slot).steps r.slot = some (releasing w { completed r st with skeins := sk, sortExperts := se }) := by
      rw [hdone, hsteps, tfind_tput_self]
    refine ⟨_, _, rfl, hstep, hcomplete, rfl, htails, hfuncs, fun hopen => ?_, fun _ _ => ⟨rfl, ?_, ?_⟩⟩
    · rcases hopen with hne | ⟨j, hj, hjk, hstarted, hown⟩
      · exact absurd hstate hne
      · have hpj := hpast j hj
        rw [h.skPastAt, hown] at hpj
        have := hothers j hjk
        simp at hpj
        omega
    · rw [htime]
      rfl
    · rw [hdone]
      exact hrunning
  · have hopen : st.state ≠ 3 ∨ ∃ j, j < (stepFile s st).skeins.length ∧
        skPast w { completed r st with skeins := sk, sortExperts := se } j = false := by
      by_cases hstate : st.state = 3
      · right
        by_contra hnone
        exact hall ⟨hstate, fun j hj => by
          by_contra hpast
          exact hnone ⟨j, hj, by simpa using hpast⟩⟩
      · exact .inl hstate
    have hstays := settleSkeins_of_open hfind (by rw [hfile]; exact hopen)
    rw [hstays] at hfuncs htails ⊢
    refine ⟨_, _, rfl, hfind, hcomplete, rfl, htails, hfuncs, fun _ => rfl, fun hstate hpast => ?_⟩
    rcases hopen with hne | ⟨j, hj, hpj⟩
    · exact absurd hstate hne
    · rw [h.skPastAt] at hpj
      by_cases hjk : j = r.skein
      · subst hjk
        simp [hcomplete] at hpj
      · have hpast' := hpast j hjk hj
        have := hothers j hjk
        simp only [skPast, skIssued, Bool.or_eq_true, Bool.or_eq_false_iff, decide_eq_true_eq, decide_eq_false_iff_not] at hpast' hpj
        obtain ⟨hlow, hown⟩ := hpj
        rcases hpast' with hpast' | hpast'
        · omega
        · rw [hpast'] at hown
          cases hown

/-- Buffers that no live range keeps and no unfinished skein names leave the scratchpads. -/
def buffersSwept (s : State) (slot : Nat) : State :=
  match tfind s.steps slot with
  | none => s
  | some st =>
    let f := stepFile s st
    let named := ((f.skeins.zipIdx.filter fun e => !skDone st e.2).flatMap fun e => skeinBufs f e.1)
    freeDead s slot fun i => named.contains i

theorem buffersSwept_rest (s : State) (slot : Nat) : buffersSwept s slot = { s with tiles := (buffersSwept s slot).tiles } := by
  unfold buffersSwept
  split <;> rfl

theorem tails_buffersSwept (s : State) (slot t : Nat) : ((buffersSwept s slot).tile t).tails = (s.tile t).tails := by
  unfold buffersSwept
  split
  · rfl
  · dsimp only
    rw [tile_freeDead]

/-- A tail that may complete. -/
def passedTail (k : Nat) (r : SkeinRun) : Bool := r.skein == k && r.opsOut == 0 && r.sortsOut == 0 && !r.matWin && !r.vecWin

theorem skein_of_passedTail {l : List SkeinRun} (h : l.find? (passedTail k) = some r) : r.skein = k := by
  have hpassed := List.find?_some h
  unfold passedTail at hpassed
  simp only [Bool.and_eq_true, beq_iff_eq] at hpassed
  obtain ⟨⟨⟨⟨hrk, -⟩, -⟩, -⟩, -⟩ := hpassed
  exact hrk

theorem exec_skeinComplete (hup : engines s = true) (hfind : (s.tile t).tails.find? (passedTail k) = some r)
    (hst : tfind s.steps r.slot = some st) :
    exec (.skeinComplete now t k) s = .next (buffersSwept (skeinDone (advance s now) t r st) r.slot) := by
  have hstep : tfind (advance s now).steps r.slot = some st := by rw [advance_steps, hst]
  have htails : ((advance s now).tile t).tails.find? (passedTail k) = some r := by
    rw [show (advance s now).tile t = s.tile t by rw [advance_eq]; rfl, hfind]
  refine (timed_of s (by simp [hup]) : execSkeinComplete now t k s = _).trans ?_
  unfold passedTail at htails
  simp only [htails, hstep]
  rfl

/-- R73, R204, R305: outside a split a skein's completion tells nobody, and its step settles. -/
theorem skeinComplete_whole (hup : engines s = true) (hfind : (s.tile t).tails.find? (passedTail k) = some r)
    (hst : tfind s.steps r.slot = some st) (hwhole : ∀ j n, st.job = some (j, n) → (s.job j).parts = []) :
    ∃ u st', exec (.skeinComplete now t k) s = .next u ∧ tfind u.steps r.slot = some st' ∧ tget st'.skeins k 0 = 4
      ∧ st'.conv = st.conv ||| r.conv ∧ (u.tile t).tails = (s.tile t).tails.erase r ∧ u.funcs = s.funcs
      ∧ (st.state ≠ 3 ∨ (∃ j, j < (stepFile s st).skeins.length ∧ j ≠ k ∧ (skState st j = 1 ∨ skState st j = 2) ∧ ownSkein s st j = true) →
          st'.state = st.state)
      ∧ (st.state = 3 → (∀ j, j ≠ k → j < (stepFile s st).skeins.length → skPast s st j = true) →
          st'.state = 5 ∧ st'.lastRan = some (time u) ∧ (u.part st.part).running ≠ some r.slot) := by
  have hrk : r.skein = k := skein_of_passedTail hfind
  subst hrk
  have hexec := exec_skeinComplete (now := now) hup hfind hst
  have hstep : tfind (advance s now).steps r.slot = some st := by rw [advance_steps, hst]
  have hjob (j : Nat) : (advance s now).job j = s.job j := by rw [advance_eq]; rfl
  have htile : (advance s now).tile t = s.tile t := by rw [advance_eq]; rfl
  have hfile : stepFile (advance s now) st = stepFile s st := by rw [advance_eq]; rfl
  have hown := ownSkein_advance s now st
  have hpast (j : Nat) : skPast (advance s now) st j = skPast s st j := by rw [skPast, skPast, hown]
  have hfuncs : (advance s now).funcs = s.funcs := advance_funcs s now
  rw [skeinDone_eq] at hexec
  generalize advance s now = n at *
  have hcompleting := completing_of_tail t hstep (sortsOf (skeinOf (stepFile n st) r.skein))
  obtain ⟨sk, se, hfound, -⟩ := hcompleting.step
  rw [splitSkein_of_whole hfound (fun j m hj => by
    rw [State.job, hcompleting.rest]
    exact (congrArg Job.parts (hjob j)).trans (hwhole j m hj)) t r.skein] at hexec
  obtain ⟨u, st', hsettled, hst', hcomplete, hconv, htails, hfuncs', hopen, hended⟩ := settle_completing hcompleting
  rw [hsettled] at hexec
  simp only [hfile, hown, hpast] at hopen hended
  have hrest := buffersSwept_rest u r.slot
  refine ⟨_, st', hexec, ?_, hcomplete, hconv, ?_, ?_, hopen, fun hstate hall => ?_⟩
  · rw [hrest]
    exact hst'
  · rw [tails_buffersSwept, htails, htile]
  · rw [hrest]
    exact hfuncs'.trans hfuncs
  · obtain ⟨hfive, hran, hrunning⟩ := hended hstate hall
    rw [hrest]
    exact ⟨hfive, hran, hrunning⟩

end Sys2Proof.Machine

/-! PROOFS. What the end of a skein or a sort leaves of sorters and of complete skeins, whatever it tells (O24; R204, R389). -/

namespace Sys2Proof.Machine

open Sys2Proof.Claims

variable {s u v w : State} {t slot p k j now : Nat} {r : SkeinRun} {st x y : Step}

/-- Between `s` and `u` no idle sorter began a run, and every step kept its complete and its retired skeins. -/
structure Lasts (s u : State) : Prop where
  idle : ∀ k, (s.sorter k).run = none → (u.sorter k).run = none
  steps : ∀ slot st, tfind s.steps slot = some st →
    ∃ st', tfind u.steps slot = some st' ∧ ∀ k, 4 ≤ skState st k → skState st' k = skState st k

namespace Lasts

theorem of_eq (hsorters : u.sorters = s.sorters) (hsteps : u.steps = s.steps) : Lasts s u :=
  ⟨fun k h => by rw [State.sorter, hsorters]; exact h, fun slot st hst => ⟨st, by rw [hsteps]; exact hst, fun _ _ => rfl⟩⟩

theorem refl (s : State) : Lasts s s := of_eq rfl rfl

theorem trans (h : Lasts s u) (h' : Lasts u v) : Lasts s v where
  idle k hk := h'.idle k (h.idle k hk)
  steps slot st hst := by
    obtain ⟨x, hx, hkept⟩ := h.steps slot st hst
    obtain ⟨y, hy, hkept'⟩ := h'.steps slot x hx
    refine ⟨y, hy, fun k hk => ?_⟩
    have hxk := hkept k hk
    rw [hkept' k (by omega), hxk]

theorem of_sends (h : Sends s u) : Lasts s u := of_eq (by rw [h.rest]) (by rw [h.rest])

theorem of_traces (h : Traces s u) : Lasts s u := of_eq (by rw [h.rest]) (by rw [h.rest])

theorem of_retired (h : Retired slot s u) : Lasts s u where
  idle k hk := by
    rw [State.sorter, h.rest]
    exact hk
  steps i st hst := by
    by_cases hi : i = slot
    · subst hi
      obtain ⟨sk, se, hu, hretired⟩ := h.step st hst
      refine ⟨_, hu, fun k hk => ?_⟩
      have := hretired k
      unfold skState at hk ⊢
      dsimp only
      omega
    · exact ⟨st, (h.others i hi).trans hst, fun _ _ => rfl⟩

theorem of_feeds (h : Feeds s u) : Lasts s u :=
  ⟨fun k hk => (h.run k).trans hk, fun slot st hst => ⟨st, by rw [h.rest]; exact hst, fun _ _ => rfl⟩⟩

theorem forAll {α : Type} {f : State → α → State} (hf : ∀ w x, Lasts w (f w x)) (l : List α) (s : State) : Lasts s (forAll l f s) :=
  forAll_rel refl trans hf l s

/-- A change of one step that leaves its complete skeins. -/
theorem modStep (s : State) (slot : Nat) (f : Step → Step) (hf : ∀ st k, 4 ≤ skState st k → skState (f st) k = skState st k) :
    Lasts s (s.modStep slot f) where
  idle k hk := by
    rw [State.sorter, modStep_sorters]
    exact hk
  steps i st hst := by
    by_cases hi : i = slot
    · subst hi
      exact ⟨f st, tfind_modStep_self _ _ hst, hf st⟩
    · exact ⟨st, (tfind_modStep_ne s _ hi).trans hst, fun _ _ => rfl⟩

/-- What ends work and starts no sort. -/
theorem of_ends (h : Ends s u) (hidle : ∀ k, (s.sorter k).run = none → (u.sorter k).run = none) : Lasts s u where
  idle := hidle
  steps slot st hst := by
    have hcore := h.step slot
    rw [hst] at hcore
    obtain ⟨st', hst', hsame⟩ := Option.map_eq_some_iff.1 hcore
    refine ⟨st', hst', fun k _ => ?_⟩
    have hskeins : st'.core.skeins = st.core.skeins := congrArg Step.skeins hsame
    have hskeins' : st'.skeins = st.skeins := hskeins
    rw [skState, skState, hskeins']

end Lasts

/-! ### Failing a step starts no sort -/

theorem sorters_forAll {α : Type} {f : State → α → State} (hf : ∀ w x, (f w x).sorters = w.sorters) (l : List α) (s : State) :
    (forAll l f s).sorters = s.sorters := forAll_keeps State.sorters hf l s

theorem sorters_setState (s : State) (slot n : Nat) : (setState s slot n).sorters = s.sorters := by
  unfold setState accrue
  rw [modStep_sorters]
  split
  · rfl
  · dsimp only
    split
    · rw [modCtx_sorters, modStep_sorters]
    · rw [modStep_sorters]

theorem sorters_ite {c : Prop} [Decidable c] (hu : c → u.sorters = s.sorters) (hv : ¬ c → v.sorters = s.sorters) :
    (if c then u else v).sorters = s.sorters := by
  split
  · exact hu ‹_›
  · exact hv ‹_›

theorem sorters_traceTrigger (s : State) (p : Nat) : (traceTrigger s p).sorters = s.sorters := by rw [(traceTrigger_traces s p).rest]

theorem sorters_watchRelease (s : State) (slot : Nat) (st : Step) : (watchRelease s slot st).sorters = s.sorters := by
  refine (modPart_sorters _ _ _).trans (sorters_forAll (fun w e => ?_) _ s)
  refine sorters_ite (fun _ => ?_) fun _ => rfl
  dsimp only
  have hrow : ∀ c : Prop, ∀ _ : Decidable c, ∀ (f : Step → Step) (g : Part → Part) (v : State), v.sorters = w.sorters →
      (if c then w else (v.modStep slot f).modPart st.part g).sorters = w.sorters := fun c _ f g v hv =>
    sorters_ite (fun _ => rfl) fun _ => by rw [modPart_sorters, modStep_sorters, hv]
  refine sorters_ite (fun _ => (sorters_traceTrigger _ _).trans ?_) fun _ => ?_
  · exact hrow _ _ _ _ _ rfl
  · exact hrow _ _ _ _ _ rfl

theorem sorters_noteDone (s : State) (slot : Nat) : (noteDone s slot).sorters = s.sorters := by
  unfold noteDone
  split
  · rfl
  · next st _ =>
    refine sorters_ite (fun _ => rfl) fun _ => ?_
    have hwatched : (if st.passedAt.isSome then s else watchRelease s slot st).sorters = s.sorters :=
      sorters_ite (fun _ => rfl) fun _ => sorters_watchRelease s slot st
    have hnoted : ((if st.passedAt.isSome then s else watchRelease s slot st).modStep slot fun x => { x with notedDone := true }).sorters
        = s.sorters := by rw [modStep_sorters, hwatched]
    dsimp only
    split
    · exact sorters_ite (fun _ => hnoted) fun _ => hnoted
    · exact hnoted

theorem run_dropWork (s : State) (slot k : Nat) (h : (s.sorter k).run = none) : ((dropWork s slot).sorter k).run = none := by
  have hfiltered : ((dropWork s slot).sorter k) = tget (tmap s.sorters fun _ x =>
      { x with reqs := x.reqs.filter fun r => r.slot != slot, run := x.run.filter fun r => r.slot != slot }) k {} := by
    unfold dropWork
    dsimp only
    split
    · split
      · rw [State.sorter, closeWindows_shape]
      · rfl
    · rfl
  rw [hfiltered, tget, tfind_tmap]
  unfold State.sorter tget at h
  cases hfind : tfind s.sorters k with
  | none => rfl
  | some x =>
    rw [hfind] at h
    show (x.run.filter _) = none
    rw [show x.run = none from h]
    rfl

theorem run_failRaw (s : State) (slot : Nat) (status : Code) (k : Nat) (h : (s.sorter k).run = none) :
    ((failRaw s slot status).sorter k).run = none := by
  unfold failRaw
  split
  · exact h
  · split
    · exact h
    · dsimp only
      rw [State.sorter, sorters_noteDone, modStep_sorters, sorters_setState]
      exact run_dropWork s slot k h

theorem sorters_startAbort (s : State) (j n p : Nat) (cause code : Code) (lost : Bool) :
    (startAbort s j n p cause code lost).sorters = s.sorters := by
  unfold startAbort
  split
  · rfl
  · dsimp only
    rw [(sendNotice_sends _ _ _ _).rest]
    show (closeWindows _ _).sorters = _
    rw [closeWindows_shape]
    rfl

theorem run_failWith (s : State) (slot : Nat) (status code : Code) (k : Nat) (h : (s.sorter k).run = none) :
    ((failWith s slot status code).sorter k).run = none := by
  unfold failWith
  split
  · exact h
  · split
    · exact h
    · dsimp only
      split
      · rw [State.sorter, sorters_startAbort]
        exact run_failRaw s slot status k h
      · exact run_failRaw s slot status k h

theorem sorters_reopen (s : State) (slot : Nat) : (reopen s slot).sorters = s.sorters := by
  unfold reopen
  split
  · rfl
  · next st _ =>
    refine sorters_ite (fun _ => ?_) fun _ => rfl
    rw [modFunc_sorters, modStep_sorters]
    exact sorters_forAll (f := fun w a => objWrite w st.part ((s.part st.part).watch.obj % 65536) (a + 10) [1]) (fun _ _ => rfl) _ s

namespace Lasts

theorem failStep (s : State) (slot : Nat) (status : Code) : Lasts s (failStep s slot status) :=
  of_ends (failStep_ends s slot status) (run_failWith s slot status 0)

theorem failOpen (status code : Code) (s : State) (slot : Nat) : Lasts s (failOpen status code s slot) := by
  refine of_ends ((reopen_ends s slot).trans (failWith_ends _ _ _ _)) fun k hk => run_failWith _ slot status code k ?_
  rw [State.sorter, sorters_reopen]
  exact hk

theorem stepsFailed (s : State) (r : Report) : Lasts s (stepsFailed s r) :=
  (forAll (fun w p => of_traces (traceTrigger_traces w p)) _ s).trans (forAll (failOpen _ _) _ _)

/-- R389, R430: a contained fault that no engine reports fails steps and starts no sort. -/
theorem report {q : Report} (hclass : codeClass q.code = 2) (hunit : codeUnit q.code ≤ 44) (haon : codeUnit q.code ≠ 41)
    (hnone : faultEngine q = none) :
    Lasts s (report s q) := by
  by_cases hinit : s.coll.init = true
  · rw [report_of_init (by omega) (by omega) hinit, reacted, if_neg (by omega), if_pos hclass, contain_of_no_engine hnone]
    have hlatched : Lasts s (latched s q) := by
      rw [latched_eq]
      exact of_eq rfl rfl
    refine (hlatched.trans (stepsFailed _ q)).trans (of_eq ?_ (withIbi_steps _ _))
    rw [withIbi_eq]
  · have htaken : ¬ (codeClass q.code = 0 ∨ 44 < codeUnit q.code) := by omega
    have hearly : (!s.coll.init && codeUnit q.code != 41) = true := by simp [hinit, haon]
    simp only [Machine.report, if_neg htaken, hearly, if_true]
    exact of_eq rfl rfl

theorem withholdOp (s : State) (j m slot : Nat) : Lasts s (withholdOp s j m slot) := by
  have hreport : ∀ w, Lasts w (withhold w slot) := fun w =>
    report (q := { code := 0xA804, slots := [slot] }) (show codeClass (0xA804 : Code) = 2 by decide)
      (show codeUnit (0xA804 : Code) ≤ 44 by decide) (show codeUnit (0xA804 : Code) ≠ 41 by decide)
      (faultEngine_of_unit (show 32 ≤ codeUnit (0xA804 : Code) by decide) (show codeUnit (0xA804 : Code) ≠ 38 by decide))
  have hconsume : ∀ p, Lasts s (consume s 40 0 p) := fun p => of_eq rfl rfl
  unfold Machine.withholdOp
  split
  · split
    · exact (hconsume _).trans (hreport _)
    · exact hreport s
  · exact hreport s

theorem newOp (s : State) (slot t skein kind member dst want port : Nat) (added : Bool) (coll : Option Coll) :
    Lasts s (newOp s slot t skein kind member dst want port added coll).2 := by
  unfold Machine.newOp
  dsimp only
  have htraced : Lasts s (if kind ≤ 1 then traceStep (draw s).2 slot 3 (if added then 2 else 0) (2048 + tileDie t) 0 else (draw s).2) := by
    have hdrawn : Lasts s (draw s).2 := of_eq rfl rfl
    split
    · exact hdrawn.trans (of_traces (traceStep_traces ..))
    · exact hdrawn
  generalize (if kind ≤ 1 then traceStep (draw s).2 slot 3 (if added then 2 else 0) (2048 + tileDie t) 0 else (draw s).2) = w
    at htraced ⊢
  refine htraced.trans ?_
  split
  · exact of_eq rfl rfl
  · exact of_eq rfl rfl

theorem splitSend (s : State) (t skein slot : Nat) (st : Step) (j v m : Nat) : Lasts s (splitSend s t skein slot st j v m) := by
  unfold Machine.splitSend
  split
  · exact withholdOp s j m slot
  · next p _ =>
    have hopened := newOp s slot t skein 1 m v (bitsLen (readStored s t slot st v)) p true none
    have hdrawn : ∀ w : State, Lasts w (draw w).2 := fun _ => of_eq rfl rfl
    have hcounted := (hopened.trans (hdrawn _)).trans (modStep _ slot (fun x => { x with requests := x.requests + 1 }) fun _ _ _ => rfl)
    dsimp only
    exact hcounted.trans (of_sends (sendAll_sends _ _ _))

/-! ### What members are told (R204) -/

theorem settleSkeins (s : State) (slot : Nat) : Lasts s (settleSkeins s slot) := by
  cases hst : tfind s.steps slot with
  | none =>
    rw [show Machine.settleSkeins s slot = s by simp only [Machine.settleSkeins, hst]]
    exact refl s
  | some st =>
    have hsettling := settleSkeins_settling hst
    refine ⟨fun k hk => ?_, fun i x hx => ?_⟩
    · rw [State.sorter, hsettling.rest]
      exact hk
    · by_cases hi : i = slot
      · subst hi
        cases hst.symm.trans hx
        rcases hsettling.step with hstays | ⟨-, hreleasing⟩
        · exact ⟨st, hstays, fun _ _ => rfl⟩
        · exact ⟨_, hreleasing, fun _ _ => rfl⟩
      · exact ⟨x, (hsettling.others i hi).trans hx, fun _ _ => rfl⟩

theorem takeProgress {f : State → Nat → State} (hf : ∀ w slot, Lasts w (f w slot)) (s : State) (h n : Nat) :
    Lasts s (takeProgress s h n f) := by
  unfold Machine.takeProgress
  split
  · exact refl s
  · exact forAll (fun w slot => (hf w slot).trans (settleSkeins _ slot)) _ s

theorem skeinTold (s : State) (h n k : Nat) : Lasts s (takeCtl s (.skein h n k)) := by
  refine takeProgress (fun w slot => modStep w slot _ fun st i hi => ?_) s h n
  unfold skState at hi ⊢
  by_cases hik : i = k
  · subst hik
    rw [tget_tput_self]
    omega
  · exact tget_tput_ne _ _ _ hik

theorem evalCounts (s : State) (slot idx experts : Nat) (l : List (Nat × Nat)) : Lasts s (evalCounts s slot idx experts l) :=
  (modStep s slot (counted idx experts l) fun _ _ _ => rfl).trans (of_retired (evalCounts_retired s slot idx experts l))

theorem sortTold (s : State) (h n idx experts : Nat) (l : List (Nat × Nat)) : Lasts s (takeCtl s (.sorted h n idx experts l)) :=
  takeProgress (fun w slot => evalCounts w slot idx experts l) s h n

theorem tell (s : State) (p pkg : Nat) (route : Option (List Nat)) {c : Ctl} (hc : ∀ w, Lasts w (takeCtl w c)) : Lasts s (tell s p pkg route c) := by
  unfold Machine.tell
  split
  · exact hc s
  · exact of_sends (sendCtl_sends _ _ _ _ _)

theorem tellPeers (s : State) (st : Step) {c : Nat → Nat → Ctl} (hc : ∀ h n w, Lasts w (takeCtl w (c h n))) : Lasts s (tellPeers s st c) := by
  unfold Machine.tellPeers
  split
  · exact refl s
  · exact forAll (fun w e => tell w _ _ _ fun v => hc _ _ v) _ s

theorem splitSkein (s : State) (t k slot : Nat) : Lasts s (splitSkein s t k slot) := by
  unfold Machine.splitSkein
  split
  · exact refl s
  · split
    · exact refl s
    · dsimp only
      split
      · exact tellPeers s _ fun h n w => skeinTold w h n k
      · exact forAll (fun w (e : Nat × Nat) => splitSend w t k slot _ _ e.1 e.2) _ s

end Lasts

/-- R73: whatever the completion tells, the skein stands complete in its step. -/
theorem skeinComplete_marks (hup : engines s = true) (hfind : (s.tile t).tails.find? (passedTail k) = some r)
    (hst : tfind s.steps r.slot = some st) :
    ∃ u st', exec (.skeinComplete now t k) s = .next u ∧ tfind u.steps r.slot = some st' ∧ tget st'.skeins k 0 = 4 := by
  have hrk : r.skein = k := skein_of_passedTail hfind
  subst hrk
  have hexec := exec_skeinComplete (now := now) hup hfind hst
  have hstep : tfind (advance s now).steps r.slot = some st := by rw [advance_steps, hst]
  rw [skeinDone_eq] at hexec
  generalize advance s now = n at *
  obtain ⟨sk, se, hfound, hretired⟩ := (completing_of_tail t hstep (sortsOf (skeinOf (stepFile n st) r.skein))).step
  have hfour : tget sk r.skein 0 = 4 := by
    have := hretired r.skein
    rw [tget_tput_self] at this
    omega
  obtain ⟨st', hst', hkept⟩ := ((Lasts.splitSkein _ t r.skein r.slot).trans (.settleSkeins _ r.slot)).steps r.slot _ hfound
  refine ⟨_, st', hexec, ?_, ?_⟩
  · rw [buffersSwept_rest]
    exact hst'
  · exact (hkept r.skein (show 4 ≤ tget sk r.skein 0 by omega)).trans hfour

end Sys2Proof.Machine

/-! PROOFS. MANIFEST_ARRIVAL (O24; R153, R154). -/

namespace Sys2Proof.Machine

open Sys2Proof.Claims

variable {s u v w : State} {t slot p k j now idx expert src n first : Nat} {r : SkeinRun} {st x y : Step}

theorem manifestKey_inj {pkg pkg' : Nat} : manifestKey idx expert pkg = manifestKey idx expert pkg' ↔ pkg = pkg' := by
  unfold manifestKey
  omega

/-- The entries of an expert that each source package is known to send. -/
def knownEntries (s : State) (st : Step) (idx expert : Nat) : List (Option Nat) :=
  (sourcePkgs s st).map fun k => tfind st.manifests (manifestKey idx expert k)

theorem settleExpert_of_unknown (hst : tfind s.steps slot = some st) (hunknown : (knownEntries s st idx expert).all (·.isSome) = false) :
    settleExpert s slot idx expert = s := by
  unfold knownEntries at hunknown
  simp only [settleExpert, hst, hunknown]
  split
  · exact if_neg (by simp)
  · rfl

theorem settleExpert_of_known {m : Nat} (hst : tfind s.steps slot = some st) (hexperts : tfind st.sortExperts idx = some m)
    (hcounts : tfind st.sortCounts (sortKey idx expert) = none) (hknown : (knownEntries s st idx expert).all (·.isSome) = true) :
    settleExpert s slot idx expert
      = evalCounts s slot idx m [(expert, sumNat ((knownEntries s st idx expert).map (·.getD 0)))] := by
  unfold knownEntries at *
  simp only [settleExpert, hst, hexperts]
  exact if_pos ⟨by simp [hcounts], hknown⟩

theorem settleExpert_cases (s : State) (slot idx expert : Nat) : settleExpert s slot idx expert = s
    ∨ ∃ m l, settleExpert s slot idx expert = evalCounts s slot idx m l := by
  unfold settleExpert
  split
  · exact .inl rfl
  · dsimp only
    split
    · split
      · exact .inr ⟨_, _, rfl⟩
      · exact .inl rfl
    · exact .inl rfl

/-- What of a step the evaluation of counts leaves, and what it then settles to. -/
structure Evaluated (slot : Nat) (st : Step) (s u : State) : Prop where
  rest : u = { s with parts := u.parts, ctxs := u.ctxs, steps := u.steps, hbm := u.hbm, hbmPoison := u.hbmPoison }
  step : ∃ sk se sc, tfind u.steps slot = some { st with skeins := sk, sortExperts := se, sortCounts := sc }

theorem evaluated_refl (hst : tfind s.steps slot = some st) : Evaluated slot st s s := ⟨rfl, st.skeins, st.sortExperts, st.sortCounts, hst⟩

theorem evalCounts_step (hst : tfind s.steps slot = some st) (idx m : Nat) (l : List (Nat × Nat)) :
    ∃ sk se, tfind (evalCounts s slot idx m l).steps slot = some { st with
      skeins := sk, sortExperts := se, sortCounts := l.foldl (fun t e => tput t (sortKey idx e.1) e.2) st.sortCounts } := by
  obtain ⟨sk, se, hfind, -⟩ := (evalCounts_retired s slot idx m l).step _ (tfind_modStep_self _ _ hst)
  exact ⟨sk, se, hfind⟩

theorem evalCounts_evaluated (hst : tfind s.steps slot = some st) (idx m : Nat) (l : List (Nat × Nat)) :
    Evaluated slot st s (evalCounts s slot idx m l) := by
  have hrest := (evalCounts_retired s slot idx m l).rest
  rw [modStep_of_some s (counted idx m l) hst] at hrest
  obtain ⟨sk, se, hfind⟩ := evalCounts_step hst idx m l
  refine ⟨?_, sk, se, _, hfind⟩
  rw [hrest]

theorem settleExpert_evaluated (hst : tfind s.steps slot = some st) (idx expert : Nat) :
    Evaluated slot st s (settleExpert s slot idx expert) := by
  rcases settleExpert_cases s slot idx expert with heq | ⟨m, l, heq⟩
  · rw [heq]
    exact evaluated_refl hst
  · rw [heq]
    exact evalCounts_evaluated hst idx m l

/-- What a step that settles keeps of its record. -/
theorem settleSkeins_record (hst : tfind s.steps slot = some st) : ∃ a b c,
    tfind (settleSkeins s slot).steps slot = some { st with state := a, stateAt := b, lastRan := c } := by
  rcases (settleSkeins_settling hst).step with hstays | ⟨-, hreleasing⟩
  · exact ⟨st.state, st.stateAt, st.lastRan, hstays⟩
  · exact ⟨_, _, _, hreleasing⟩

/-- The manifest of a source package is noted. -/
def manifested (idx expert src n : Nat) (st : Step) : Step := { st with manifests := tput st.manifests (manifestKey idx expert src) n }

theorem exec_manifestArrival (hup : engines s = true) (hst : tfind s.steps slot = some st) :
    exec (.manifestArrival now slot idx expert ⟨src, n, first⟩) s = .next
      (if decide (expert < 1024) && (sourcePkgs s st).contains src && src != myPkg s && decide (max n 1 ≤ first + 5)
          && (tfind st.manifests (manifestKey idx expert src)).isNone then
        settleSkeins (settleExpert ((advance s now).modStep slot (manifested idx expert src n)) slot idx expert) slot
      else advance s now) := by
  have hstep : tfind (advance s now).steps slot = some st := by rw [advance_steps, hst]
  have hsources : sourcePkgs (advance s now) st = sourcePkgs s st := by
    have hjob (j : Nat) : (advance s now).job j = s.job j := by rw [advance_eq]; rfl
    simp only [sourcePkgs, myPkg_advance, hjob]
  refine (timed_of s (by simp [hup]) : execManifestArrival now slot idx expert ⟨src, n, first⟩ s = _).trans ?_
  simp only [hstep, hsources, myPkg_advance]
  rfl

theorem manifestArrival_ignored (hup : engines s = true) (hst : tfind s.steps slot = some st)
    (hold : tfind st.manifests (manifestKey idx expert src) ≠ none ∨ first + 5 < max n 1) :
    exec (.manifestArrival now slot idx expert ⟨src, n, first⟩) s = .next (advance s now) := by
  rw [exec_manifestArrival hup hst, if_neg]
  simp only [Bool.and_eq_true, decide_eq_true_eq, Option.isNone_iff_eq_none]
  rintro ⟨⟨-, hfirst⟩, hnone⟩
  rcases hold with hknown | hlate
  · exact hknown hnone
  · omega

/-- The entries that are known once the manifest is noted. -/
theorem knownEntries_manifested (hjobs : u.jobs = s.jobs) (hcoords : u.aon.coords = s.aon.coords) :
    knownEntries u (manifested idx expert src n st) idx expert
      = (sourcePkgs s st).map fun k => if k = src then some n else tfind st.manifests (manifestKey idx expert k) := by
  have hsources : sourcePkgs u (manifested idx expert src n st) = sourcePkgs s st := by
    simp only [sourcePkgs, myPkg_congr hcoords, State.job, hjobs]
    rfl
  rw [knownEntries, hsources]
  refine List.map_congr_left fun k _ => ?_
  show tfind (tput st.manifests (manifestKey idx expert src) n) (manifestKey idx expert k) = _
  by_cases hk : k = src
  · rw [hk, tfind_tput_self, if_pos rfl]
  · rw [tfind_tput_ne _ _ (mt manifestKey_inj.1 hk), if_neg hk]

/-- R153, R154: a source's last cell is noted; with the last source's the sum is the expert's count. -/
theorem manifestArrival_spec (hup : engines s = true) (hst : tfind s.steps slot = some st) (hexpert : expert < 1024)
    (hsrc : src ∈ sourcePkgs s st) (hother : src ≠ myPkg s) (hlast : max n 1 ≤ first + 5)
    (hnew : tfind st.manifests (manifestKey idx expert src) = none) :
    let known := fun k => if k = src then some n else tfind st.manifests (manifestKey idx expert k)
    ∃ u st', exec (.manifestArrival now slot idx expert ⟨src, n, first⟩) s = .next u ∧ tfind u.steps slot = some st'
      ∧ tfind st'.manifests (manifestKey idx expert src) = some n ∧ st'.fail = st.fail ∧ u.funcs = s.funcs
      ∧ ((∃ k ∈ sourcePkgs s st, known k = none) → st'.sortCounts = st.sortCounts)
      ∧ (∀ m, tfind st.sortExperts idx = some m → tfind st.sortCounts (sortKey idx expert) = none →
          (∀ k ∈ sourcePkgs s st, known k ≠ none) →
          tfind st'.sortCounts (sortKey idx expert) = some (sumNat ((sourcePkgs s st).map fun k => (known k).getD 0))
          ∧ ∀ j, j ≠ sortKey idx expert → tfind st'.sortCounts j = tfind st.sortCounts j) := by
  intro known
  have hexec := exec_manifestArrival (now := now) (idx := idx) (expert := expert) (src := src) (n := n) (first := first) hup hst
  rw [if_pos (by simp [hexpert, hsrc, hother, hlast, hnew])] at hexec
  have hstep : tfind (advance s now).steps slot = some st := by rw [advance_steps, hst]
  have hnoted := tfind_modStep_self (advance s now) (manifested idx expert src n) hstep
  have hbase : ((advance s now).modStep slot (manifested idx expert src n)).funcs = s.funcs
      ∧ ((advance s now).modStep slot (manifested idx expert src n)).jobs = s.jobs
      ∧ ((advance s now).modStep slot (manifested idx expert src n)).aon.coords = s.aon.coords := by
    rw [modStep_of_some (advance s now) _ hstep]
    exact ⟨advance_funcs s now, advance_jobs s now, advance_aon_coords s now⟩
  generalize (advance s now).modStep slot (manifested idx expert src n) = w at *
  obtain ⟨hfuncs, hjobs, hcoords⟩ := hbase
  have hentries := knownEntries_manifested (idx := idx) (expert := expert) (src := src) (n := n) (st := st) hjobs hcoords
  obtain ⟨hrest, sk, se, sc, hevaluated⟩ := settleExpert_evaluated hnoted idx expert
  have hsettling := settleSkeins_settling hevaluated
  obtain ⟨a, b, c, hrecord⟩ := settleSkeins_record hevaluated
  refine ⟨_, _, hexec, hrecord, tfind_tput_self _ _ _, rfl, ?_, fun hmissing => ?_, fun m hexperts hcounts hall => ?_⟩
  · rw [hsettling.rest]
    show (settleExpert w slot idx expert).funcs = _
    rw [hrest]
    exact hfuncs
  · obtain ⟨k, hk, hnone⟩ := hmissing
    have hunknown : (knownEntries w (manifested idx expert src n st) idx expert).all (·.isSome) = false := by
      rw [hentries]
      exact List.all_eq_false.2 ⟨none, List.mem_map.2 ⟨k, hk, hnone⟩, by simp⟩
    rw [settleExpert_of_unknown hnoted hunknown, hnoted] at hevaluated
    have hsame := Option.some.inj hevaluated
    exact (congrArg Step.sortCounts hsame).symm
  · have hknown : (knownEntries w (manifested idx expert src n st) idx expert).all (·.isSome) = true := by
      rw [hentries]
      refine List.all_eq_true.2 fun o ho => ?_
      obtain ⟨k, hk, rfl⟩ := List.mem_map.1 ho
      exact Option.isSome_iff_ne_none.2 (hall k hk)
    obtain ⟨sk', se', hfind⟩ := evalCounts_step hnoted idx m
      [(expert, sumNat ((knownEntries w (manifested idx expert src n st) idx expert).map (·.getD 0)))]
    rw [settleExpert_of_known hnoted hexperts hcounts hknown, hfind] at hevaluated
    have hsc : tput st.sortCounts (sortKey idx expert) (sumNat ((sourcePkgs s st).map fun k => (known k).getD 0)) = sc := by
      have hsame := congrArg Step.sortCounts (Option.some.inj hevaluated)
      rw [hentries, List.map_map] at hsame
      exact hsame
    show tfind sc _ = _ ∧ ∀ j, j ≠ _ → tfind sc j = _
    rw [← hsc]
    exact ⟨tfind_tput_self _ _ _, fun j hj => tfind_tput_ne _ _ hj⟩

end Sys2Proof.Machine

/-! PROOFS. SORT_START (O24; R141, R156). -/

namespace Sys2Proof.Machine

open Sys2Proof.Claims

variable {s u v w : State} {t slot p k j now die : Nat} {st x y : Step} {q : SortReq} {d : SortDesc}

/-- What the checks of a descriptor look at. -/
theorem sortStatus_congr (hhbm : u.hbm = s.hbm) (hparts : u.parts = s.parts) (hjobs : u.jobs = s.jobs)
    (hcoords : u.aon.coords = s.aon.coords) (p : Nat) (job : Option (Nat × Nat)) (d : SortDesc) :
    sortStatus u p job d = sortStatus s p job d := by
  have hread : ∀ a n, hbmRead u p a n = hbmRead s p a n := fun a n => by simp only [hbmRead, hhbm]
  have hhome : ∀ e, homeOf u p d e = homeOf s p d e := fun e => by simp only [homeOf, hread]
  have hremote : ∀ e, isRemote u p d e = isRemote s p d e := fun e => by simp only [isRemote, hhome, myPkg_congr hcoords]
  have hok : homeOk u p d = homeOk s p d := funext fun e => by simp only [homeOk, hhome, myPkg_congr hcoords]
  have hjob : ∀ i, u.job i = s.job i := fun i => by rw [State.job, State.job, hjobs]
  have hpart : u.part p = s.part p := by rw [State.part, State.part, hparts]
  have hmember : memberOn u = memberOn s := by
    funext i pkg
    rw [memberOn, memberOn, hjob]
  rcases job with _ | ⟨i, m⟩ <;> simp only [sortStatus, hpart, hok, hremote, hhome, hmember, hjob]

/-- The earliest request has left the sorter's queue. -/
def requestDrawn (s : State) (die : Nat) (q : SortReq) : State := s.modSorter die fun x => { x with reqs := x.reqs.erase q }

/-- What the sorter does with the request of the earliest deadline. -/
def sortBegun (s : State) (die : Nat) (q : SortReq) (st : Step) : State :=
  let c := sortStatus s q.part st.job (sortDesc q.desc)
  if c ≠ 0 then feedSorter (if q.skein = 0xFFFF then requestDone s q.slot else failStep s q.slot (BitVec.ofNat 16 c)) die
  else traceStep (s.modSorter die fun x => { x with run := some q }) q.slot 3 0 (2080 + die) 0

theorem exec_sortStart (hup : engines s = true) (hin : (s.sorter die).withdrawn = 0) (hidle : (s.sorter die).testing = none)
    (hrun : (s.sorter die).run = none) (hq : minBy (fun q => deadlineRank q.deadline) (s.sorter die).reqs = some q)
    (hst : tfind s.steps q.slot = some st) :
    exec (.sortStart now die) s = .next (sortBegun (requestDrawn (advance s now) die q) die q st) := by
  have hsorter : (advance s now).sorter die = s.sorter die := by rw [advance_eq]; rfl
  have hstep : tfind (requestDrawn (advance s now) die q).steps q.slot = some st := (congrArg (tfind · q.slot) (advance_steps s now)).trans hst
  have hsome : (s.sorter die).reqs.isEmpty = false := by
    cases hreqs : (s.sorter die).reqs with
    | nil => rw [hreqs] at hq; cases hq
    | cons a l => rfl
  refine (timed_of s (by simp [hup, hsorter, hin, hidle, hrun, hsome]) : execSortStart now die s = _).trans ?_
  unfold requestDrawn at hstep
  simp only [hsorter, hq, hstep]
  rfl

theorem sorter_requestDrawn (s : State) (die : Nat) (q : SortReq) :
    (requestDrawn s die q).sorter die = { s.sorter die with reqs := (s.sorter die).reqs.erase q } := tget_tput_self _ _ _ _

theorem sortStatus_requestDrawn (s : State) (now die : Nat) (q : SortReq) (job : Option (Nat × Nat)) (d : SortDesc) :
    sortStatus (requestDrawn (advance s now) die q) q.part job d = sortStatus s q.part job d :=
  sortStatus_congr (show (advance s now).hbm = _ from advance_hbm s now) (advance_parts s now) (advance_jobs s now) (advance_aon_coords s now) _ _ _

/-- R156: the sorter runs the request of the earliest deadline. -/
theorem sortStart_runs (hup : engines s = true) (hin : (s.sorter die).withdrawn = 0) (hidle : (s.sorter die).testing = none)
    (hrun : (s.sorter die).run = none) (hq : minBy (fun q => deadlineRank q.deadline) (s.sorter die).reqs = some q)
    (hst : tfind s.steps q.slot = some st) (hgood : sortStatus s q.part st.job (sortDesc q.desc) = 0) :
    ∃ u, exec (.sortStart now die) s = .next u ∧ u.steps = s.steps ∧ u.funcs = s.funcs
      ∧ u.sorter die = { s.sorter die with reqs := (s.sorter die).reqs.erase q, run := some q } := by
  have hexec := exec_sortStart (now := now) hup hin hidle hrun hq hst
  have hsorter : (advance s now).sorter die = s.sorter die := by rw [advance_eq]; rfl
  rw [sortBegun, sortStatus_requestDrawn, if_neg (by simp [hgood])] at hexec
  have htraces := traceStep_traces ((requestDrawn (advance s now) die q).modSorter die fun x => { x with run := some q }) q.slot 3 0
    (2080 + die) 0
  refine ⟨_, hexec, ?_, ?_, ?_⟩
  · rw [htraces.rest]
    exact advance_steps s now
  · rw [htraces.rest]
    exact advance_funcs s now
  · rw [State.sorter, htraces.rest]
    refine (tget_tput_self _ _ _ _).trans ?_
    rw [sorter_requestDrawn, hsorter]

/-- R141: a descriptor that fails a check fails its step. -/
theorem sortStart_refuses (hup : engines s = true) (hin : (s.sorter die).withdrawn = 0) (hidle : (s.sorter die).testing = none)
    (hrun : (s.sorter die).run = none) (hq : minBy (fun q => deadlineRank q.deadline) (s.sorter die).reqs = some q)
    (hst : tfind s.steps q.slot = some st) (hbad : sortStatus s q.part st.job (sortDesc q.desc) ≠ 0) (hskein : q.skein ≠ 0xFFFF)
    (hopen : Undecided st) :
    ∃ u, exec (.sortStart now die) s = .next u ∧ (u.sorter die).run = none
      ∧ FailsWith u q.slot (BitVec.ofNat 16 (sortStatus s q.part st.job (sortDesc q.desc))) := by
  have hexec := exec_sortStart (now := now) hup hin hidle hrun hq hst
  have hsorter : (advance s now).sorter die = s.sorter die := by rw [advance_eq]; rfl
  rw [sortBegun, sortStatus_requestDrawn, if_pos hbad, if_neg hskein] at hexec
  have hstep : tfind (requestDrawn (advance s now) die q).steps q.slot = some st := (congrArg (tfind · q.slot) (advance_steps s now)).trans hst
  have hfails := failWith_failsWith (BitVec.ofNat 16 (sortStatus s q.part st.job (sortDesc q.desc))) 0 hstep hopen
  have hstopped := (Lasts.failStep (requestDrawn (advance s now) die q) q.slot
    (BitVec.ofNat 16 (sortStatus s q.part st.job (sortDesc q.desc)))).idle die (by rw [sorter_requestDrawn, hsorter]; exact hrun)
  have hfeeds := feedSorter_feeds (failStep (requestDrawn (advance s now) die q) q.slot
    (BitVec.ofNat 16 (sortStatus s q.part st.job (sortDesc q.desc)))) die
  refine ⟨_, hexec, (hfeeds.run die).trans hstopped, ?_⟩
  rw [FailsWith, hfeeds.rest]
  exact hfails

end Sys2Proof.Machine

/-! PROOFS. SKEIN_PLACE (O24; R103, R210 to R213, R218, R220 to R222). -/

namespace Sys2Proof.Machine

open Sys2Proof.Claims

variable {s u v w : State} {t slot p k j now n : Nat} {bases : List (Nat × Nat)} {st x y : Step} {f : Upf.File}

/-! ### Time changes nothing that a placement asks -/

theorem mayStart_advance (s : State) (now slot k : Nat) (st : Step) : mayStart (advance s now) slot k st = mayStart s slot k st := by
  have hpart : (advance s now).part st.part = s.part st.part := by rw [State.part, advance_parts, State.part]
  have hfile : stepFile (advance s now) st = stepFile s st := by rw [advance_eq]; rfl
  have hgate : fbGate (advance s now) st k = fbGate s st k := by rw [advance_eq]; rfl
  simp only [mayStart, hpart, hfile, hgate, ownSkein_advance, nextPoint_advance]

/-- What SKEIN_PLACE does with a skein that may start. -/
def placing (s : State) (slot k t : Nat) (bases : List (Nat × Nat)) (st : Step) : State :=
  let f := stepFile s st
  let x := skeinOf f k
  let pins := pinnedGranules s st x
  if !pins.isEmpty && pins.all s.badGranules.contains then failStep s slot 0x0611
  else if (!pins.isEmpty && !pins.contains (tileGranule t)) || tileOwner s t != some st.part || !tileUsable s t
      || (s.tile t).run.isSome then s
  else match addBufs s t slot f bases (skeinBufs f x) with
    | none => s
    | some s =>
      let s := seedTile s t slot
      let n := if x.kind = 1 then predTokens x ((predCount st x).getD 0) else 0
      let r : SkeinRun := { slot, startAt := time s, skein := k, code := x.code, tokens := n }
      let s := s.modTile t fun x => { x with gated := false, run := some r }
      let s := logPlace s st k t false (st.replaced.contains k)
      s.modStep slot fun x => { x with skeins := tput x.skeins k 1 }

theorem exec_skeinPlace (hup : engines s = true) (hst : tfind s.steps slot = some st) (hmay : mayStart s slot k st = true) :
    exec (.skeinPlace now slot k t bases) s = .next (placing (advance s now) slot k t bases st) := by
  have hstep : tfind (advance s now).steps slot = some st := by rw [advance_steps, hst]
  refine (timed_of s (by simp [hup]) : execSkeinPlace now slot k t bases s = _).trans ?_
  simp only [hstep, mayStart_advance, hmay]
  rfl

/-- R218: with every granule it is pinned to unusable the step fails. -/
theorem skeinPlace_pinned (hup : engines s = true) (hst : tfind s.steps slot = some st) (hmay : mayStart s slot k st = true)
    (hopen : Undecided st) (hpins : pinnedGranules s st (skeinOf (stepFile s st) k) ≠ [])
    (hbad : ∀ g ∈ pinnedGranules s st (skeinOf (stepFile s st) k), g ∈ s.badGranules) :
    ∃ u, exec (.skeinPlace now slot k t bases) s = .next u ∧ FailsWith u slot 0x0611 := by
  have hstep : tfind (advance s now).steps slot = some st := by rw [advance_steps, hst]
  have hsame : pinnedGranules (advance s now) st (skeinOf (stepFile (advance s now) st) k) = pinnedGranules s st (skeinOf (stepFile s st) k)
      ∧ (advance s now).badGranules = s.badGranules := by
    rw [advance_eq]
    exact ⟨rfl, rfl⟩
  obtain ⟨hgranules, hlist⟩ := hsame
  refine ⟨_, exec_skeinPlace hup hst hmay, ?_⟩
  unfold placing
  dsimp only
  rw [hgranules, hlist, if_pos]
  · exact failWith_failsWith 0x0611 0 hstep hopen
  · simpa [hpins] using hbad

/-! ### Buffers are allocated (R83, R211 to R213) -/

/-- Between `s` and `u` buffers of the step in `slot` were allocated on tile `t`. -/
structure Allotted (t slot : Nat) (s u : State) : Prop where
  rest : u = { s with tiles := u.tiles }
  others : ∀ e, e ≠ t → SameWork (u.tile e) (s.tile e) ∧ (u.tile e).scratch = (s.tile e).scratch
  kept : ∀ i, (bufBase (s.tile t) slot i).isSome = true → (bufBase (u.tile t) slot i).isSome = true

namespace Allotted

theorem refl (t slot : Nat) (s : State) : Allotted t slot s s := ⟨rfl, fun _ _ => ⟨sameWork_refl _, rfl⟩, fun _ => id⟩

theorem trans (h : Allotted t slot s u) (h' : Allotted t slot u v) : Allotted t slot s v where
  rest := by rw [h'.rest, h.rest]
  others e he := by
    obtain ⟨hwork, hscratch⟩ := h.others e he
    obtain ⟨hwork', hscratch'⟩ := h'.others e he
    exact ⟨sameWork_trans hwork' hwork, hscratch'.trans hscratch⟩
  kept i hi := h'.kept i (h.kept i hi)

end Allotted

theorem bufBase_append (x : Tile) (b : ScratchBuf) (slot i : Nat) (h : (bufBase x slot i).isSome = true ∨ b.slot = slot ∧ b.tensor = i) :
    ((x.bufs ++ [b]).find? fun b => b.slot == slot && b.tensor == i).isSome = true := by
  rw [List.find?_isSome]
  rcases h with hold | ⟨hslot, htensor⟩
  · rw [bufBase, Option.isSome_map, List.find?_isSome] at hold
    obtain ⟨y, hy, hmatch⟩ := hold
    exact ⟨y, List.mem_append_left _ hy, hmatch⟩
  · exact ⟨b, by simp, by simp [hslot, htensor]⟩

/-- The tiles that hold the buffer wake. -/
def woken (slot i : Nat) (x : Tile) : Tile := if (bufBase x slot i).isSome then { x with gated := false } else x

theorem bufBase_addBuf (s : State) (t slot i base n j : Nat) (h : (bufBase (s.tile t) slot j).isSome = true ∨ i = j) :
    (bufBase ((addBuf s t slot i base n).tile t) slot j).isSome = true := by
  have hwoken : ({ s with tiles := tmap s.tiles fun _ x => woken slot i x } : State).tile t = woken slot i (s.tile t) :=
    tile_tmap s (fun _ => woken slot i) (fun _ => rfl) t
  have hbufs : ((addBuf s t slot i base n).tile t).bufs
      = (s.tile t).bufs ++ [{ slot := slot, tensor := i, base := base, bytes := n }] := by
    unfold addBuf
    dsimp only
    rw [tile_modTile_self]
    have hsame : (woken slot i (s.tile t)).bufs = (s.tile t).bufs := by unfold woken; split <;> rfl
    split
    · exact (congrArg (fun x : Tile => x.bufs ++ _) hwoken).trans (by rw [hsame])
    · exact (congrArg (fun x : Tile => x.bufs ++ _) hwoken).trans (by rw [hsame])
  rw [bufBase, Option.isSome_map, hbufs]
  exact bufBase_append (s.tile t) _ slot j (h.imp_right fun hij => ⟨rfl, hij⟩)

theorem addBuf_allotted (s : State) (t slot i base n : Nat) : Allotted t slot s (addBuf s t slot i base n) where
  rest := rfl
  others e he := by
    have htile : (addBuf s t slot i base n).tile e = woken slot i (s.tile e) :=
      (tile_modTile_ne _ _ he).trans (tile_tmap s (fun _ => woken slot i) (fun _ => rfl) e)
    rw [htile]
    unfold woken
    split
    · exact ⟨⟨rfl, rfl, rfl, rfl, rfl, rfl⟩, rfl⟩
    · exact ⟨sameWork_refl _, rfl⟩
  kept j hj := bufBase_addBuf s t slot i base n j (.inl hj)

/-- One buffer of a skein is found or allocated. -/
def addOne (t slot : Nat) (f : Upf.File) (bases : List (Nat × Nat)) (s : State) (i : Nat) : Option State :=
  if (bufBase (s.tile t) slot i).isSome then some s
  else match tfind bases i with
    | some b => if bufFits (s.tile t) b (tensorOf f i).bytes then some (addBuf s t slot i b (tensorOf f i).bytes) else none
    | none => none

theorem addBufs_cons (s : State) (t slot : Nat) (f : Upf.File) (bases : List (Nat × Nat)) (i : Nat) (l : List Nat) :
    addBufs s t slot f bases (i :: l) = (addOne t slot f bases s i).bind fun u => addBufs u t slot f bases l := by
  show l.foldl _ (addOne t slot f bases s i) = _
  cases addOne t slot f bases s i with
  | some u => rfl
  | none =>
    induction l with
    | nil => rfl
    | cons a l ih => exact ih

theorem addOne_allotted {i : Nat} (h : addOne t slot f bases s i = some u) :
    Allotted t slot s u ∧ (bufBase (u.tile t) slot i).isSome = true := by
  unfold addOne at h
  split at h
  · next hheld =>
    obtain rfl := Option.some.inj h
    exact ⟨.refl t slot s, hheld⟩
  · split at h
    · split at h
      · obtain rfl := Option.some.inj h
        exact ⟨addBuf_allotted s t slot i _ _, bufBase_addBuf s t slot i _ _ i (.inr rfl)⟩
      · cases h
    · cases h

theorem addBufs_allotted {l : List Nat} (h : addBufs s t slot f bases l = some u) :
    Allotted t slot s u ∧ ∀ i ∈ l, (bufBase (u.tile t) slot i).isSome = true := by
  induction l generalizing s with
  | nil =>
    obtain rfl := Option.some.inj h
    exact ⟨.refl t slot s, by simp⟩
  | cons i l ih =>
    rw [addBufs_cons] at h
    obtain ⟨v, hv, hrest⟩ := Option.bind_eq_some_iff.1 h
    obtain ⟨hfirst, hheld⟩ := addOne_allotted hv
    obtain ⟨hlater, hall⟩ := ih hrest
    refine ⟨hfirst.trans hlater, fun j hj => ?_⟩
    rcases List.mem_cons.1 hj with rfl | hj
    · exact hlater.kept _ hheld
    · exact hall j hj

/-- Allocation depends on the tiles alone. -/
theorem addBufs_aon (s : State) (a : Aon) (t slot : Nat) (f : Upf.File) (bases : List (Nat × Nat)) (l : List Nat) :
    addBufs { s with aon := a } t slot f bases l = (addBufs s t slot f bases l).map fun u => { u with aon := a } := by
  induction l generalizing s with
  | nil => rfl
  | cons i l ih =>
    have hone : addOne t slot f bases { s with aon := a } i = (addOne t slot f bases s i).map fun u => { u with aon := a } := by
      unfold addOne
      show (if (bufBase (s.tile t) slot i).isSome then _ else _) = _
      split
      · rfl
      · cases tfind bases i with
        | none => rfl
        | some b =>
          show (if bufFits (s.tile t) b (tensorOf f i).bytes then _ else _) = _
          dsimp only
          split <;> rfl
    rw [addBufs_cons, addBufs_cons, hone]
    cases addOne t slot f bases s i with
    | none => rfl
    | some u => exact ih u

end Sys2Proof.Machine

/-! PROOFS. What a placed skein finds on its tile (O24; R103, R210 to R213, R220 to R222). -/

namespace Sys2Proof.Machine

open Sys2Proof.Claims

variable {s u v w : State} {t slot p k j now n : Nat} {bases : List (Nat × Nat)} {st x y : Step} {f : Upf.File}

/-- The tile whose generator is seeded. -/
theorem seedTile_seeded (s : State) (t slot : Nat) : ∃ l, seedTile s t slot = { s with
    fresh := (seedTile s t slot).fresh, tiles := (seedTile s t slot).tiles }
    ∧ (seedTile s t slot).tile t = { s.tile t with lfsr := l, lfsrSlot := some slot }
    ∧ ∀ e, e ≠ t → (seedTile s t slot).tile e = s.tile e := by
  unfold seedTile
  split
  · next hseeded =>
    refine ⟨(s.tile t).lfsr, rfl, ?_, fun _ _ => rfl⟩
    rw [← hseeded]
  · exact ⟨_, rfl, tile_modTile_self _ _ _, fun e he => tile_modTile_ne _ _ he⟩

/-- The skein's run on the tile. -/
def placedRun (s : State) (slot k : Nat) (x : Upf.Skein) (st : Step) : SkeinRun :=
  { slot, startAt := time s, skein := k, code := x.code, tokens := if x.kind = 1 then predTokens x ((predCount st x).getD 0) else 0 }

/-- The tile takes the skein, with a record in the placement log. -/
def placed (s : State) (slot k t : Nat) (x : Upf.Skein) (st : Step) : State :=
  let s := seedTile s t slot
  let s := s.modTile t fun y => { y with gated := false, run := some (placedRun s slot k x st) }
  (logPlace s st k t false (st.replaced.contains k)).modStep slot fun y => { y with skeins := tput y.skeins k 1 }

theorem placing_of_room (hpins : pinnedGranules s st (skeinOf (stepFile s st) k) = []
      ∨ tileGranule t ∈ pinnedGranules s st (skeinOf (stepFile s st) k)
        ∧ ∃ g ∈ pinnedGranules s st (skeinOf (stepFile s st) k), g ∉ s.badGranules)
    (howner : tileOwner s t = some st.part) (husable : tileUsable s t = true) (hfree : (s.tile t).run = none)
    (hbufs : addBufs s t slot (stepFile s st) bases (skeinBufs (stepFile s st) (skeinOf (stepFile s st) k)) = some w) :
    placing s slot k t bases st = placed w slot k t (skeinOf (stepFile s st) k) st := by
  unfold placing
  dsimp only
  rw [if_neg, if_neg, hbufs]
  · rfl
  · simp only [howner, husable, hfree]
    rcases hpins with hnone | ⟨hhere, -⟩
    · simp [hnone]
    · simp [hhere]
  · rcases hpins with hnone | ⟨-, g, hg, hgood⟩
    · simp [hnone]
    · simp only [Bool.and_eq_true, Bool.not_eq_true', List.all_eq_true, not_and, not_forall]
      exact fun _ => ⟨g, hg, by simpa using hgood⟩

theorem placed_spec (x : Upf.Skein) (hst : tfind s.steps slot = some st) : ∃ l,
    (placed s slot k t x st).tile t
        = { s.tile t with lfsr := l, lfsrSlot := some slot, gated := false, run := some (placedRun (placed s slot k t x st) slot k x st) }
      ∧ (∀ e, e ≠ t → (placed s slot k t x st).tile e = s.tile e)
      ∧ tfind (placed s slot k t x st).steps slot = some { st with skeins := tput st.skeins k 1 } := by
  obtain ⟨l, hrest, hself, hothers⟩ := seedTile_seeded s t slot
  generalize hw : (seedTile s t slot).modTile t (fun y => { y with gated := false, run := some (placedRun (seedTile s t slot) slot k x st) }) = w
  have hlog := logPlace_rest w st k t false (st.replaced.contains k) false
  have hwstep : tfind (logPlace w st k t false (st.replaced.contains k)).steps slot = some st := by
    rw [hlog, ← hw]
    show tfind (seedTile s t slot).steps slot = _
    rw [hrest]
    exact hst
  have heq : placed s slot k t x st = (logPlace w st k t false (st.replaced.contains k)).modStep slot
      fun y => { y with skeins := tput y.skeins k 1 } := by
    rw [← hw]
    rfl
  rw [heq, modStep_of_some _ _ hwstep]
  have htile (e : Nat) : ({ logPlace w st k t false (st.replaced.contains k) with
      steps := tput (logPlace w st k t false (st.replaced.contains k)).steps slot { st with skeins := tput st.skeins k 1 } } : State).tile e
      = w.tile e := by
    rw [hlog]
    rfl
  refine ⟨l, ?_, fun e he => ?_, tfind_tput_self _ _ _⟩
  · rw [htile, ← hw, tile_modTile_self, hself]
    have htime : time (seedTile s t slot) = time (logPlace w st k t false (st.replaced.contains k)) := by
      rw [hlog, ← hw]
      rfl
    rw [hw]
    show _ = ({ s.tile t with lfsr := l, lfsrSlot := some slot, gated := false
                              run := some { placedRun (seedTile s t slot) slot k x st with
                                startAt := time (logPlace w st k t false (st.replaced.contains k)) } } : Tile)
    rw [← htime]
    rfl
  · rw [htile, ← hw, tile_modTile_ne _ _ he, hothers e he]

/-- R210 to R213: an idle usable tile of the partition takes the skein with its buffers. -/
theorem skeinPlace_places (hup : engines s = true) (hst : tfind s.steps slot = some st) (hmay : mayStart s slot k st = true)
    (hpins : pinnedGranules s st (skeinOf (stepFile s st) k) = []
      ∨ tileGranule t ∈ pinnedGranules s st (skeinOf (stepFile s st) k)
        ∧ ∃ g ∈ pinnedGranules s st (skeinOf (stepFile s st) k), g ∉ s.badGranules)
    (howner : tileOwner s t = some st.part) (husable : tileUsable s t = true) (hfree : (s.tile t).run = none)
    (hbufs : (addBufs s t slot (stepFile s st) bases (skeinBufs (stepFile s st) (skeinOf (stepFile s st) k))).isSome = true) :
    ∃ u r st', exec (.skeinPlace now slot k t bases) s = .next u ∧ (u.tile t).run = some r ∧ r.slot = slot ∧ r.skein = k
      ∧ r.code = (skeinOf (stepFile s st) k).code ∧ r.issued = false ∧ r.startAt = time u ∧ (u.tile t).gated = false
      ∧ (u.tile t).lfsrSlot = some slot ∧ (∀ e, e ≠ t → SameWork (u.tile e) (s.tile e) ∧ (u.tile e).scratch = (s.tile e).scratch)
      ∧ tfind u.steps slot = some st' ∧ st' = { st with skeins := tput st.skeins k 1 }
      ∧ (∀ i ∈ skeinBufs (stepFile s st) (skeinOf (stepFile s st) k), (bufBase (u.tile t) slot i).isSome = true) := by
  obtain ⟨w, hw⟩ := Option.isSome_iff_exists.1 hbufs
  have hexec := exec_skeinPlace (t := t) (bases := bases) (now := now) hup hst hmay
  obtain ⟨a, hadv⟩ : ∃ a, advance s now = { s with aon := a } := ⟨_, advance_eq s now⟩
  have hadded : addBufs { s with aon := a } t slot (stepFile s st) bases (skeinBufs (stepFile s st) (skeinOf (stepFile s st) k))
      = some { w with aon := a } := by
    rw [addBufs_aon, hw]
    rfl
  rw [hadv, placing_of_room (s := { s with aon := a }) (w := { w with aon := a }) hpins howner husable hfree hadded] at hexec
  obtain ⟨hallotted, hheld⟩ := addBufs_allotted hw
  have hstep : tfind w.steps slot = some st := by
    rw [hallotted.rest]
    exact hst
  obtain ⟨l, hself, hothers, hmine⟩ := placed_spec (s := { w with aon := a }) (k := k) (t := t) (skeinOf (stepFile s st) k) hstep
  refine ⟨_, placedRun (placed { w with aon := a } slot k t (skeinOf (stepFile s st) k) st) slot k (skeinOf (stepFile s st) k) st, _,
    hexec, ?_, rfl, rfl, rfl, rfl, rfl, ?_, ?_, fun e he => ?_, hmine, rfl, fun i hi => ?_⟩
  · exact congrArg Tile.run hself
  · exact congrArg Tile.gated hself
  · exact congrArg Tile.lfsrSlot hself
  · have hsame := hothers e he
    rw [show (placed { w with aon := a } slot k t (skeinOf (stepFile { s with aon := a } st) k) st).tile e = w.tile e from hsame]
    exact hallotted.others e he
  · have hbase : bufBase ((placed { w with aon := a } slot k t (skeinOf (stepFile s st) k) st).tile t) slot i = bufBase (w.tile t) slot i := by
      rw [hself]
      rfl
    exact (congrArg Option.isSome hbase).trans (hheld i hi)

end Sys2Proof.Machine

/-! PROOFS. What a sort writes and what a step boundary leaves of object space (O24; R147, R148, R305, R563). -/

namespace Sys2Proof.Machine

open Sys2Proof.Claims

variable {s u v w : State} {slot p k j n a : Nat} {st x y : Step} {q : SortReq} {d : SortDesc} {m m' : Mem}

/-! ### A step boundary without a staged watch -/

theorem hbm_swapWatch (hnone : (s.part p).watch.staged = none) : (swapWatch s p).hbm = s.hbm := by
  unfold swapWatch
  rw [hnone]
  dsimp only
  split
  · rfl
  · split <;> rfl

theorem hbm_swapStaged (hnone : (s.part p).watch.staged = none) : (swapStaged s p).hbm = s.hbm := by
  unfold swapStaged
  dsimp only
  refine (hbm_retune _ _).trans ((show _ = _ from hbm_swapWatch ?_).trans rfl)
  rw [part_modPart_self]
  exact hnone

theorem hbm_enterBoundary (hnone : (s.part p).watch.staged = none) (cut : Bool) : (enterBoundary s p cut).hbm = s.hbm := by
  have hwatch : ((swapBank s p cut).part p).watch = (s.part p).watch := by
    unfold swapBank
    split
    · rw [part_modPart_self]
    · rfl
  have hbank : (swapBank s p cut).hbm = s.hbm := by
    unfold swapBank
    split <;> rfl
  exact (hbm_swapStaged (by rw [hwatch, hnone])).trans hbank

theorem hbm_settleSkeins (hst : tfind s.steps slot = some st) (hnone : (s.part st.part).watch.staged = none) :
    (settleSkeins s slot).hbm = s.hbm := by
  have hset : (setState s slot 5).hbm = s.hbm := by rw [setState_shape 5 hst]
  have hparts : (setState s slot 5).part st.part = s.part st.part := by
    rw [State.part, setState_shape 5 hst]
    rfl
  have hlast : (lastDone s slot st).hbm = s.hbm := by
    unfold lastDone
    dsimp only
    have hfind : tfind (setState s slot 5).steps slot = some { st with stateAt := time s, state := 5 } := by
      rw [setState_shape 5 hst]
      exact tfind_tput_self _ _ _
    rw [modStep_of_some _ _ hfind]
    split
    · refine (hbm_enterBoundary ?_ false).trans hset
      rw [part_modPart_self]
      exact (congrArg (·.watch.staged) hparts).trans hnone
    · exact hset
  unfold settleSkeins
  rw [hst]
  dsimp only
  split
  · exact hlast
  · rfl

/-! ### Runs of bytes in object space -/

/-- A part of a byte string that was written. -/
theorem mreadN_mwriteN_slice (a i : Nat) {l : List Byte} (hwf : memWf m = true) (hn : i + n ≤ l.length) :
    mreadN (mwriteN m a l) (a + i) n = (l.drop i).take n := by
  apply List.ext_getElem
  · rw [length_mreadN, List.length_take, List.length_drop]
    omega
  · intro k hk hk'
    rw [length_mreadN] at hk
    have hget := nth_mreadN (mwriteN m a l) (a + i) n k
    rw [if_pos hk, mread_mwriteN a (a + i + k) l hwf, if_pos (by omega), show a + i + k - a = i + k by omega, nth, nth,
      List.getD_eq_getElem _ _ (by rw [length_mreadN]; exact hk), List.getD_eq_getElem _ _ (by omega)] at hget
    rw [hget, List.getElem_take, List.getElem_drop]

/-- Writes at a list of places leave the rest. -/
theorem mread_hbmWrites {p : Nat} {f : Nat × Nat → Nat} (l : List (Nat × Nat)) (s : State) {c : Nat}
    (hc : ∀ e ∈ l, c < hbmAddr p (f e) ∨ hbmAddr p (f e) + 8 ≤ c) :
    mread (forAll l (fun s e => hbmWrite s p (f e) (toLe 8 e.2)) s).hbm c = mread s.hbm c := by
  induction l generalizing s with
  | nil => rfl
  | cons e l ih =>
    refine (ih (hbmWrite s p (f e) (toLe 8 e.2)) fun x hx => hc x (List.mem_cons_of_mem _ hx)).trans ?_
    refine mread_mwriteN_outside _ ?_
    rw [length_toLe]
    exact hc e List.mem_cons_self

theorem le_roundUp (n : Nat) {k : Nat} (hk : 0 < k) : n ≤ roundUp n k := by
  unfold roundUp ceilDiv
  have := Nat.div_add_mod (n + k - 1) k
  have := Nat.mod_lt (n + k - 1) hk
  rw [Nat.mul_comm k] at *
  omega

/-! ### The output region (R147, R148) -/

/-- The summary of an output region. -/
def sortSummary (s : State) (p : Nat) (d : SortDesc) (cands : List (List Nat)) (r : SortRun) (remoteCells : Nat) : List Byte :=
  let unfilled := sumNat (cands.map fun c => d.k - c.length)
  let nans := ((List.range d.tokens).flatMap fun t => (tokenScores s p d t).filter (· == .nan)).length
  toLe 4 r.placed.length ++ toLe 4 r.dropped ++ toLe 4 (r.placed.filter (·.rerouted)).length
    ++ toLe 4 (r.placed.filter (·.spilled)).length ++ toLe 4 unfilled ++ toLe 4 nans ++ toLe 4 remoteCells ++ toLe 2 (sortCap d)
    ++ List.replicate 34 0

/-- The counts of the experts. -/
def sortTotals (d : SortDesc) (r : SortRun) : List Byte := (List.range d.experts).flatMap fun e => toLe 4 (tget r.counts e 0)

/-- The combine table. -/
def sortCombine (d : SortDesc) (r : SortRun) : List Byte := (List.range (d.tokens * d.k)).flatMap fun i =>
  toLe 4 (match r.placed.find? fun x => x.token * d.k + x.slot == i with
    | some x => combineWord x
    | none => 0)

/-- The bucket entries with their places. -/
def sortEntries (s : State) (p : Nat) (d : SortDesc) (cands : List (List Nat)) (r : SortRun) : List (Nat × Nat) :=
  r.placed.map fun x => (bucketStart d x.expert + x.pos, bucketEntry s p d cands x)

/-- Summary, counts and combine table are written. -/
def tablesWritten (s : State) (p : Nat) (d : SortDesc) (cands : List (List Nat)) (r : SortRun) (remoteCells : Nat) : State :=
  hbmWrite (hbmWrite (hbmWrite s p d.out (sortSummary s p d cands r remoteCells)) p (d.out + 64) (sortTotals d r)) p (d.out + combineOff d)
    (sortCombine d r)

theorem writeSort_eq (s : State) (p : Nat) (d : SortDesc) (cands : List (List Nat)) (r : SortRun) (remoteCells : Nat) :
    writeSort s p d cands r remoteCells
      = touchLines (touchLines (forAll (sortEntries s p d cands r) (fun s e => hbmWrite s p (d.out + bucketsOff d + 8 * e.1) (toLe 8 e.2))
          (tablesWritten s p d cands r remoteCells)) p false (sortReads p d)) p true
          (sortWrites p d ((sortEntries s p d cands r).map (·.1))) := rfl

theorem length_sortSummary (s : State) (p : Nat) (d : SortDesc) (cands : List (List Nat)) (r : SortRun) (c : Nat) :
    (sortSummary s p d cands r c).length = 64 := by
  simp [sortSummary]

theorem length_words {α : Type} (l : List α) (f : α → Nat) : (l.flatMap fun e => toLe 4 (f e)).length = 4 * l.length := by
  induction l with
  | nil => rfl
  | cons e l ih =>
    rw [List.flatMap_cons, List.length_append, ih, length_toLe, List.length_cons]
    omega

theorem length_sortTotals (d : SortDesc) (r : SortRun) : (sortTotals d r).length = 4 * d.experts := by
  rw [sortTotals, length_words, List.length_range]

theorem length_sortCombine (d : SortDesc) (r : SortRun) : (sortCombine d r).length = 4 * (d.tokens * d.k) := by
  rw [sortCombine, length_words, List.length_range]

/-- The counts lie before the combine table, and it before the buckets. -/
theorem table_bounds (d : SortDesc) : 64 + 4 * d.experts ≤ combineOff d ∧ combineOff d + 4 * (d.tokens * d.k) ≤ bucketsOff d := by
  have hcounts := le_roundUp (4 * d.experts) (k := 64) (by decide)
  have hcombine := le_roundUp (4 * d.tokens * d.k) (k := 64) (by decide)
  rw [Nat.mul_assoc] at hcombine
  unfold bucketsOff combineOff
  rw [Nat.mul_assoc]
  omega

theorem hbm_tablesWritten (s : State) (p : Nat) (d : SortDesc) (cands : List (List Nat)) (r : SortRun) (c : Nat) :
    (tablesWritten s p d cands r c).hbm = mwriteN (mwriteN (mwriteN s.hbm (hbmAddr p d.out) (sortSummary s p d cands r c))
      (hbmAddr p (d.out + 64)) (sortTotals d r)) (hbmAddr p (d.out + combineOff d)) (sortCombine d r) := by
  simp only [tablesWritten, hbmWrite]

theorem hbm_writeSort (s : State) (p : Nat) (d : SortDesc) (cands : List (List Nat)) (r : SortRun) (c : Nat) :
    (writeSort s p d cands r c).hbm
      = (forAll (sortEntries s p d cands r) (fun s e => hbmWrite s p (d.out + bucketsOff d + 8 * e.1) (toLe 8 e.2))
          (tablesWritten s p d cands r c)).hbm := by
  rw [writeSort_eq]
  generalize forAll (sortEntries s p d cands r) _ (tablesWritten s p d cands r c) = v
  rw [(Aside.touchLines 0 p _ true _).rest]
  show (touchLines v p false _).hbm = v.hbm
  rw [(Aside.touchLines 0 p v false _).rest]

/-- R147, R148: a sort writes its tables and the entries of what it placed, and nothing else. -/
theorem mread_writeSort_outside {p c a : Nat} {cands : List (List Nat)} {r : SortRun} (htables : ∀ k, k < bucketsOff d → a ≠ hbmAddr p (d.out + k))
    (hentries : ∀ x ∈ r.placed, ∀ k, k < 8 → a ≠ hbmAddr p (d.out + bucketsOff d + 8 * (bucketStart d x.expert + x.pos) + k)) :
    mread (writeSort s p d cands r c).hbm a = mread s.hbm a := by
  obtain ⟨hcounts, hcombine⟩ := table_bounds d
  have hout : a < hbmAddr p d.out ∨ hbmAddr p d.out + bucketsOff d ≤ a := by
    by_contra hin
    exact htables (a - hbmAddr p d.out) (by omega) (by unfold hbmAddr at *; omega)
  rw [hbm_writeSort, mread_hbmWrites (f := fun e => d.out + bucketsOff d + 8 * e.1)]
  · rw [hbm_tablesWritten, mread_mwriteN_outside, mread_mwriteN_outside, mread_mwriteN_outside]
    · rw [length_sortSummary]
      omega
    · rw [length_sortTotals]
      unfold hbmAddr at *
      omega
    · rw [length_sortCombine]
      unfold hbmAddr at *
      omega
  · intro e he
    obtain ⟨x, hx, rfl⟩ := List.mem_map.1 he
    by_contra hin
    refine hentries x hx (a - hbmAddr p (d.out + bucketsOff d + 8 * (bucketStart d x.expert + x.pos))) (by dsimp only at hin; omega) ?_
    unfold hbmAddr at *
    dsimp only at hin
    omega

/-- The summary stands at the start of the region. -/
theorem hbmRead_writeSort {p c i n : Nat} {cands : List (List Nat)} {r : SortRun} (hwf : memWf s.hbm = true) (hn : i + n ≤ 64) :
    hbmRead (writeSort s p d cands r c) p (d.out + i) n = ((sortSummary s p d cands r c).drop i).take n := by
  obtain ⟨hcounts, hcombine⟩ := table_bounds d
  have hlen := length_sortSummary s p d cands r c
  rw [← mreadN_mwriteN_slice (hbmAddr p d.out) i hwf (by omega)]
  refine mreadN_congr fun a ha => ?_
  have haddr : hbmAddr p (d.out + i) + a = hbmAddr p d.out + i + a := by
    unfold hbmAddr
    omega
  rw [hbm_writeSort, mread_hbmWrites (f := fun e => d.out + bucketsOff d + 8 * e.1), haddr]
  · rw [hbm_tablesWritten, mread_mwriteN_outside, mread_mwriteN_outside]
    · unfold hbmAddr
      omega
    · unfold hbmAddr
      omega
  · intro e _
    unfold hbmAddr
    omega

end Sys2Proof.Machine

/-! PROOFS. SORT_COMPLETE (O24; R147 to R154, R204). -/

namespace Sys2Proof.Machine

open Sys2Proof.Claims

variable {s u v w : State} {slot p k j n a now die : Nat} {st x y : Step} {q : SortReq} {d : SortDesc}

/-! ### The sorter lets the request go -/

/-- The sorter has let the request go, which counts no longer among its step's. -/
def sortReleased (s : State) (die : Nat) (q : SortReq) : State := requestDone (s.modSorter die fun x => { x with run := none }) q.slot

/-- The sort has ended, with its records. -/
def sortEnded (s : State) (die : Nat) (q : SortReq) (st : Step) : State :=
  let s := traceStep s q.slot 4 0 (2080 + die) 0
  let s := sortReleased s die q
  let (busy, s) := draw s
  let (e, s) := draw s
  let s := charge s (2080 + die) st.ctx st.ctxGen busy (outBytes (sortDesc q.desc)) e
  s.modStep q.slot fun x => { x with lastOp := time s }

/-- Cells of the buckets that live elsewhere. -/
def remoteCells (s : State) (p : Nat) (d : SortDesc) : Nat :=
  sumNat (((List.range d.experts).filter (isRemote s p d)).map fun e => cellsFor d (bucketOf (runSort s p d) e).length)

/-- The output region is written, and the buckets that live elsewhere are sent. -/
def sortOutput (s : State) (die : Nat) (q : SortReq) (st : Step) (d : SortDesc) : State :=
  let s' := writeSort s q.part d (sortCands s q.part d) (runSort s q.part d) (remoteCells s q.part d)
  match st.job with
  | some (j, _) => sendBuckets s' q die d (sortCands s q.part d) (runSort s q.part d) j
  | none => s'

/-- The counts decide, and the step's members learn them. -/
def sortFinished (s : State) (die : Nat) (q : SortReq) (st : Step) (d : SortDesc) : State :=
  let r := runSort s q.part d
  let s := settleSkeins (sortCounted (sortOutput s die q st d) q d r) q.slot
  feedSorter (if d.home = 0 then
      tellPeers s st fun h k => .sorted h k q.idx d.experts ((List.range d.experts).map fun e => (e, tget r.counts e 0))
    else s) die

theorem exec_sortComplete (hup : engines s = true) (hrun : (s.sorter die).run = some q) (hst : tfind s.steps q.slot = some st)
    (hcalm : s.coll.inject = []) (hskein : q.skein ≠ 0xFFFF) :
    exec (.sortComplete now die) s = .next
      (if sortPoisoned s q.part (sortDesc q.desc) then report (advance s now) { code := 0xA402, slots := [q.slot] }
      else sortFinished (sortEnded (advance s now) die q st) die q st (sortDesc q.desc)) := by
  have hsorter : (advance s now).sorter die = s.sorter die := by rw [advance_eq]; rfl
  have hstep : tfind (advance s now).steps q.slot = some st := by rw [advance_steps, hst]
  have hpoison : sortPoisoned (advance s now) q.part (sortDesc q.desc) = sortPoisoned s q.part (sortDesc q.desc) := by rw [advance_eq]; rfl
  have harmed : armed (advance s now) die 10 (2080 + die) = false := armed_of_calm ((advance_coll s now).symm ▸ hcalm) _ _ _
  refine (timed_of s (by simp [hup, hsorter, hrun]) : execSortComplete now die s = _).trans ?_
  simp only [hsorter, hrun, hstep, harmed, hpoison]
  by_cases hpoisoned : sortPoisoned s q.part (sortDesc q.desc) = true
  · simp only [hpoisoned, hskein, ne_eq, not_false_eq_true, and_self, if_true, Bool.false_eq_true, if_false]
  · simp only [hpoisoned, hskein, Bool.false_eq_true, and_false, if_false]
    rfl

/-- R444: a poisoned input fails the step. -/
theorem sortComplete_poisoned (hup : engines s = true) (hrun : (s.sorter die).run = some q) (hst : tfind s.steps q.slot = some st)
    (hcalm : s.coll.inject = []) (hskein : q.skein ≠ 0xFFFF) (hpoisoned : sortPoisoned s q.part (sortDesc q.desc) = true)
    (hopen : Undecided st) (hinit : s.coll.init = true) :
    ∃ u, exec (.sortComplete now die) s = .next u ∧ FailsWith u q.slot 0x0C01 ∧ (0xA402 : Code) ∈ u.coll.log := by
  have hexec := exec_sortComplete (now := now) hup hrun hst hcalm hskein
  rw [if_pos hpoisoned] at hexec
  exact ⟨_, hexec, report_fails (c := 0xA402) (by decide) (by decide) (by decide) (by decide) ((advance_coll s now).symm ▸ hinit)
    ((congrArg (tfind · q.slot) (advance_steps s now)).trans hst) hopen⟩

/-! ### What a sort's end leaves, whatever it sends -/

namespace Lasts

theorem sortReleased (s : State) (die : Nat) (q : SortReq) : Lasts s (sortReleased s die q) := by
  have hfreed : Lasts s (s.modSorter die fun x => { x with run := none }) := by
    refine ⟨fun k hk => ?_, fun slot st hst => ⟨st, hst, fun _ _ => rfl⟩⟩
    by_cases hkd : k = die
    · rw [hkd, sorter_modSorter_self]
    · rw [sorter_modSorter_ne _ _ hkd]
      exact hk
  exact hfreed.trans (modStep _ _ _ fun _ _ _ => rfl)

theorem booked (h : Booked s u) : Lasts s u := of_eq (by rw [h.rest]) (by rw [h.rest])

theorem touchLines (s : State) (p : Nat) (write : Bool) (l : List Nat) : Lasts s (touchLines s p write l) :=
  of_eq (by rw [(Aside.touchLines 0 p s write l).rest]) (steps_touchLines p write s l)

theorem hbmWrite (s : State) (p a : Nat) (l : List Byte) : Lasts s (hbmWrite s p a l) := of_eq rfl rfl

theorem writeSort (s : State) (p : Nat) (d : SortDesc) (cands : List (List Nat)) (r : SortRun) (c : Nat) :
    Lasts s (writeSort s p d cands r c) := by
  rw [writeSort_eq]
  have htables : Lasts s (tablesWritten s p d cands r c) := ((hbmWrite s _ _ _).trans (hbmWrite _ _ _ _)).trans (hbmWrite _ _ _ _)
  exact ((htables.trans (forAll (fun w e => hbmWrite w _ _ _) _ _)).trans (touchLines _ _ _ _)).trans (touchLines _ _ _ _)

theorem sendBuckets (s : State) (q : SortReq) (die : Nat) (d : SortDesc) (cands : List (List Nat)) (r : SortRun) (j : Nat) :
    Lasts s (sendBuckets s q die d cands r j) := by
  refine forAll (fun w e => ?_) _ s
  dsimp only
  split
  · have hdrawn : Lasts w (draw w).2 := of_eq rfl rfl
    exact hdrawn.trans (of_sends (sendAll_sends _ _ _))
  · exact withholdOp w _ _ _

theorem sortOutput (s : State) (die : Nat) (q : SortReq) (st : Step) (d : SortDesc) : Lasts s (sortOutput s die q st d) := by
  unfold Machine.sortOutput
  dsimp only
  split
  · exact (writeSort _ _ _ _ _ _).trans (sendBuckets _ _ _ _ _ _ _)
  · exact writeSort _ _ _ _ _ _

theorem settleExpert (s : State) (slot idx e : Nat) : Lasts s (settleExpert s slot idx e) := by
  rcases settleExpert_cases s slot idx e with heq | ⟨m, l, heq⟩
  · rw [heq]
    exact refl s
  · rw [heq]
    exact evalCounts _ _ _ _ _

theorem sortCounted (s : State) (q : SortReq) (d : SortDesc) (r : SortRun) : Lasts s (sortCounted s q d r) := by
  unfold Machine.sortCounted
  dsimp only
  split
  · exact evalCounts _ _ _ _ _
  · refine Lasts.trans ?_ (forAll (fun w e => settleExpert w q.slot q.idx e) _ _)
    refine Lasts.trans ?_ (evalCounts _ _ _ _ _)
    exact modStep _ _ _ fun _ _ _ => rfl

theorem sortFinished (s : State) (die : Nat) (q : SortReq) (st : Step) (d : SortDesc) : Lasts s (sortFinished s die q st d) := by
  unfold Machine.sortFinished
  dsimp only
  refine Lasts.trans ?_ (of_feeds (feedSorter_feeds _ _))
  have hsettled := ((sortOutput s die q st d).trans (sortCounted _ q d (runSort s q.part d))).trans (settleSkeins _ q.slot)
  split
  · exact hsettled.trans (tellPeers _ st fun h k w => sortTold w h k _ _ _)
  · exact hsettled

end Lasts

/-- What of the end of a sort is not its records. -/
theorem sortEnded_books (s : State) (die : Nat) (q : SortReq) (st : Step) : ∃ n, Booked
      (sortReleased (traceStep s q.slot 4 0 (2080 + die) 0) die q) n
    ∧ sortEnded s die q st = n.modStep q.slot fun x => { x with lastOp := time n } :=
  ⟨_, ((Booked.drawn _ _).trans (.drawn _ _)).trans (.charge ..), rfl⟩

theorem sortEnded_lasts (s : State) (die : Nat) (q : SortReq) (st : Step) : Lasts s (sortEnded s die q st)
    ∧ ((sortEnded s die q st).sorter die).run = none := by
  obtain ⟨n, hbooked, heq⟩ := sortEnded_books s die q st
  have htraced := Lasts.of_traces (traceStep_traces s q.slot 4 0 (2080 + die) 0)
  have hlater : Lasts (sortReleased (traceStep s q.slot 4 0 (2080 + die) 0) die q) (sortEnded s die q st) := by
    rw [heq]
    exact (Lasts.booked hbooked).trans (.modStep _ _ _ fun _ _ _ => rfl)
  refine ⟨(htraced.trans (.sortReleased _ die q)).trans hlater, hlater.idle die ?_⟩
  unfold sortReleased requestDone
  rw [State.sorter, modStep_sorters]
  exact congrArg Sorter.run (tget_tput_self _ _ _ _)

/-- R156: the sorter is free again, whatever the sort sends. -/
theorem sortComplete_frees (hup : engines s = true) (hrun : (s.sorter die).run = some q) (hst : tfind s.steps q.slot = some st)
    (hcalm : s.coll.inject = []) (hskein : q.skein ≠ 0xFFFF) (hclean : sortPoisoned s q.part (sortDesc q.desc) = false) :
    ∃ u st', exec (.sortComplete now die) s = .next u ∧ (u.sorter die).run = none ∧ tfind u.steps q.slot = some st' := by
  have hexec := exec_sortComplete (now := now) hup hrun hst hcalm hskein
  rw [if_neg (by simp [hclean])] at hexec
  obtain ⟨hended, hidle⟩ := sortEnded_lasts (advance s now) die q st
  have hfinished := Lasts.sortFinished (sortEnded (advance s now) die q st) die q st (sortDesc q.desc)
  obtain ⟨st', hst', -⟩ := (hended.trans hfinished).steps q.slot st ((congrArg (tfind · q.slot) (advance_steps s now)).trans hst)
  exact ⟨_, st', hexec, hfinished.idle die hidle, hst'⟩

end Sys2Proof.Machine

/-! PROOFS. The outputs of a local sort, and skeins and sorts together (O24; R139, R147 to R150, R154, R156, R305). -/

namespace Sys2Proof.Machine

open Sys2Proof.Claims

variable {s u v w : State} {slot p k j n a now die : Nat} {st x y : Step} {q : SortReq} {d : SortDesc}

/-- What a sort's records leave, with the trace off. -/
theorem sortEnded_quiet (hst : tfind s.steps q.slot = some st) (hoff : (s.part st.part).trace.on = false) :
    (sortEnded s die q st).hbm = s.hbm ∧ (∀ c, ((sortEnded s die q st).ctx c).logOn = (s.ctx c).logOn)
      ∧ ((sortEnded s die q st).part st.part).watch = (s.part st.part).watch
      ∧ ∃ b c, tfind (sortEnded s die q st).steps q.slot = some { st with requests := b, lastOp := c } := by
  obtain ⟨n, hbooked, heq⟩ := sortEnded_books s die q st
  rw [traceStep_of_off _ _ _ _ _ fun x hx => by cases hst.symm.trans hx; exact hoff] at hbooked
  have hreleased : sortReleased s die q = { s with
      sorters := tput s.sorters die { s.sorter die with run := none }
      steps := tput s.steps q.slot { st with requests := st.requests - 1 } } := by
    unfold sortReleased requestDone
    rw [modStep_of_some (s.modSorter die fun x => { x with run := none }) _ hst]
    rfl
  have hstep : tfind n.steps q.slot = some { st with requests := st.requests - 1 } := by
    rw [hbooked.rest, hreleased]
    exact tfind_tput_self _ _ _
  rw [heq, modStep_of_some _ _ hstep]
  refine ⟨?_, fun c => ?_, ?_, _, _, tfind_tput_self _ _ _⟩
  · rw [hbooked.rest, hreleased]
  · refine (hbooked.logOn c).trans ?_
    rw [hreleased]
    rfl
  · show (n.part st.part).watch = _
    rw [hbooked.part, hreleased]
    rfl

theorem runSort_congr (hhbm : u.hbm = s.hbm) (p : Nat) (d : SortDesc) : runSort u p d = runSort s p d := by
  have hread : ∀ a n, hbmRead u p a n = hbmRead s p a n := fun a n => by simp only [hbmRead, hhbm]
  simp only [runSort, sortCands, tokenScores, hread]

/-- A sort's output touches object space and caches alone. -/
theorem writeSort_quiet (s : State) (p : Nat) (d : SortDesc) (cands : List (List Nat)) (r : SortRun) (c : Nat) :
    (writeSort s p d cands r c).steps = s.steps ∧ (writeSort s p d cands r c).ctxs = s.ctxs
      ∧ ∀ k, ((writeSort s p d cands r c).part k).watch = (s.part k).watch := by
  rw [writeSort_eq]
  have hkeeps {β : Type} (g : State → β) (hg : ∀ w p a l, g (hbmWrite w p a l) = g w) :
      g (forAll (sortEntries s p d cands r) (fun s e => hbmWrite s p (d.out + bucketsOff d + 8 * e.1) (toLe 8 e.2))
        (tablesWritten s p d cands r c)) = g s := by
    rw [forAll_keeps g fun w e => hg _ _ _ _]
    simp only [tablesWritten, hg]
  have hsteps := hkeeps State.steps fun _ _ _ _ => rfl
  have hctxs := hkeeps State.ctxs fun _ _ _ _ => rfl
  have hparts := hkeeps State.parts fun _ _ _ _ => rfl
  generalize forAll (sortEntries s p d cands r) _ (tablesWritten s p d cands r c) = w at *
  have hpart (k : Nat) : w.part k = s.part k := by rw [State.part, State.part, hparts]
  have honly := (touchLines_onlyCaches p false w (sortReads p d)).trans
    (touchLines_onlyCaches p true _ (sortWrites p d ((sortEntries s p d cands r).map (·.1))))
  have haside := (Aside.touchLines 0 p w false (sortReads p d)).trans
    (.touchLines 0 p _ true (sortWrites p d ((sortEntries s p d cands r).map (·.1))))
  refine ⟨?_, ?_, fun k => ?_⟩
  · rw [honly]
    exact hsteps
  · rw [honly]
    exact hctxs
  · rw [haside.part, hpart]

theorem tellPeers_of_alone (s : State) (hjob : st.job = none) (c : Nat → Nat → Ctl) : tellPeers s st c = s := by
  simp only [tellPeers, hjob]

/-- The counts of a local sort. -/
def localCounts (d : SortDesc) (r : SortRun) : List (Nat × Nat) := (List.range d.experts).map fun e => (e, tget r.counts e 0)

theorem sortFinished_local (hjob : st.job = none) (hhome : d.home = 0) : sortFinished s die q st d
    = feedSorter (settleSkeins (evalCounts
        (writeSort s q.part d (sortCands s q.part d) (runSort s q.part d) (remoteCells s q.part d)) q.slot q.idx d.experts
        (localCounts d (runSort s q.part d))) q.slot) die := by
  unfold sortFinished
  dsimp only
  rw [if_pos hhome, tellPeers_of_alone _ hjob, sortOutput, sortCounted]
  simp only [hjob, hhome, if_true]
  rfl

/-- R147 to R149: a local sort decides the counts and writes its output region, and nothing else. -/
theorem sortFinished_writes (hst : tfind s.steps q.slot = some st) (hjob : st.job = none) (hhome : d.home = 0)
    (hlog : (s.ctx st.ctx).logOn = false) (hwatch : (s.part st.part).watch.staged = none) : ∃ st',
    tfind (sortFinished s die q st d).steps q.slot = some st'
      ∧ (∀ e, e < d.experts → tfind st'.sortCounts (sortKey q.idx e) = some (tget (runSort s q.part d).counts e 0))
      ∧ (sortFinished s die q st d).hbm
        = (writeSort s q.part d (sortCands s q.part d) (runSort s q.part d) (remoteCells s q.part d)).hbm := by
  rw [sortFinished_local hjob hhome]
  obtain ⟨hsteps, hctxs, hwatches⟩ := writeSort_quiet s q.part d (sortCands s q.part d) (runSort s q.part d) (remoteCells s q.part d)
  generalize writeSort s q.part d (sortCands s q.part d) (runSort s q.part d) (remoteCells s q.part d) = w at *
  have hstep : tfind w.steps q.slot = some st := by rw [hsteps, hst]
  have hretired := evalCounts_retired w q.slot q.idx d.experts (localCounts d (runSort s q.part d))
  obtain ⟨sk, se, hfind⟩ := evalCounts_step hstep q.idx d.experts (localCounts d (runSort s q.part d))
  have hmarked := modStep_of_some w (counted q.idx d.experts (localCounts d (runSort s q.part d))) hstep
  have hctx : ((w.modStep q.slot (counted q.idx d.experts (localCounts d (runSort s q.part d)))).ctx st.ctx).logOn = false := by
    rw [hmarked]
    show (w.ctx st.ctx).logOn = false
    rw [State.ctx, hctxs]
    exact hlog
  have hhbm : (evalCounts w q.slot q.idx d.experts (localCounts d (runSort s q.part d))).hbm = w.hbm :=
    (hretired.unlogged _ (tfind_modStep_self _ _ hstep) hctx).trans (by rw [hmarked])
  have hstaged : ((evalCounts w q.slot q.idx d.experts (localCounts d (runSort s q.part d))).part st.part).watch.staged = none := by
    rw [hretired.part, hmarked]
    show (w.part st.part).watch.staged = none
    rw [hwatches]
    exact hwatch
  generalize evalCounts w q.slot q.idx d.experts (localCounts d (runSort s q.part d)) = v at *
  obtain ⟨b, c, e, hrecord⟩ := settleSkeins_record hfind
  have hfeeds := feedSorter_feeds (settleSkeins v q.slot) die
  have hsame : (feedSorter (settleSkeins v q.slot) die).steps = (settleSkeins v q.slot).steps := by rw [hfeeds.rest]
  rw [← hsame] at hrecord
  refine ⟨_, hrecord, fun e he => ?_, ?_⟩
  · refine (tfind_counts (l := localCounts d (runSort s q.part d)) (key := fun e => sortKey q.idx e.1) (val := (·.2))
      (e := (e, tget (runSort s q.part d).counts e 0)) (List.mem_map.2 ⟨e, List.mem_range.2 he, rfl⟩) (fun x hx hkey => ?_) _)
    obtain ⟨e', -, rfl⟩ := List.mem_map.1 hx
    have hee : e' = e := sortKey_inj.1 hkey
    rw [hee]
  · rw [hfeeds.rest]
    exact (hbm_settleSkeins hfind hstaged).trans hhbm

/-- The summary begins with what was placed and what was dropped (R147). -/
theorem sortSummary_placed (s : State) (p : Nat) (d : SortDesc) (cands : List (List Nat)) (r : SortRun) (c : Nat) :
    ((sortSummary s p d cands r c).drop 0).take 4 = toLe 4 r.placed.length
      ∧ ((sortSummary s p d cands r c).drop 4).take 4 = toLe 4 r.dropped := by
  obtain ⟨l, hl⟩ : ∃ l, sortSummary s p d cands r c = toLe 4 r.placed.length ++ (toLe 4 r.dropped ++ l) := by
    unfold sortSummary
    simp only [List.append_assoc]
    exact ⟨_, rfl⟩
  have hplaced := length_toLe 4 r.placed.length
  have hdropped := length_toLe 4 r.dropped
  rw [hl]
  refine ⟨List.take_left' hplaced, ?_⟩
  rw [List.drop_left' hplaced, List.take_left' hdropped]

/-- R147 to R149, R156: a local sort completes. -/
theorem sortComplete_local (hup : engines s = true) (hrun : (s.sorter die).run = some q) (hst : tfind s.steps q.slot = some st)
    (hcalm : s.coll.inject = []) (hskein : q.skein ≠ 0xFFFF) (hclean : sortPoisoned s q.part (sortDesc q.desc) = false)
    (hoff : (s.part st.part).trace.on = false) (hjob : st.job = none) (hhome : (sortDesc q.desc).home = 0)
    (hlog : (s.ctx st.ctx).logOn = false) (hwatch : (s.part st.part).watch.staged = none) (hwf : memWf s.hbm = true) :
    let d := sortDesc q.desc
    let run := runSort s q.part d
    ∃ u st', exec (.sortComplete now die) s = .next u ∧ (u.sorter die).run = none ∧ tfind u.steps q.slot = some st'
      ∧ (∀ e, e < d.experts → tfind st'.sortCounts (sortKey q.idx e) = some (tget run.counts e 0))
      ∧ hbmRead u q.part d.out 4 = toLe 4 run.placed.length ∧ hbmRead u q.part (d.out + 4) 4 = toLe 4 run.dropped
      ∧ (∀ a, (∀ k, k < bucketsOff d → a ≠ hbmAddr q.part (d.out + k)) → (∀ x ∈ run.placed, ∀ k, k < 8 →
          a ≠ hbmAddr q.part (d.out + bucketsOff d + 8 * (bucketStart d x.expert + x.pos) + k)) → mread u.hbm a = mread s.hbm a) := by
  intro d run
  have hexec := exec_sortComplete (now := now) hup hrun hst hcalm hskein
  rw [if_neg (by simp [hclean])] at hexec
  obtain ⟨-, hidle⟩ := sortEnded_lasts (advance s now) die q st
  have hstep : tfind (advance s now).steps q.slot = some st := by rw [advance_steps, hst]
  have hpart : (advance s now).part st.part = s.part st.part := by rw [State.part, advance_parts, State.part]
  obtain ⟨hhbm, hlogs, hwatches, b, c, hended⟩ := sortEnded_quiet (die := die) hstep (by rw [hpart, hoff])
  have hhbm' : (sortEnded (advance s now) die q st).hbm = s.hbm := hhbm.trans (advance_hbm s now)
  have hlog' : ((sortEnded (advance s now) die q st).ctx st.ctx).logOn = false := by
    rw [hlogs, State.ctx, advance_ctxs]
    exact hlog
  have hwatch' : ((sortEnded (advance s now) die q st).part st.part).watch.staged = none := by rw [hwatches, hpart, hwatch]
  generalize sortEnded (advance s now) die q st = e at *
  have hsorted : runSort e q.part d = run := runSort_congr hhbm' q.part d
  obtain ⟨st', hst', hcounts, hmem⟩ := sortFinished_writes (die := die) (d := d) hended hjob hhome hlog' hwatch'
  have hstopped := (Lasts.sortFinished e die q st d).idle die hidle
  have hsame : sortFinished e die q { st with requests := b, lastOp := c } d = sortFinished e die q st d := by
    rw [sortFinished_local hjob hhome, sortFinished_local (st := { st with requests := b, lastOp := c }) hjob hhome]
  rw [hsame] at hst' hmem
  rw [hsorted] at hcounts hmem
  refine ⟨_, st', hexec, hstopped, hst', hcounts, ?_, ?_, fun a htables hentries => ?_⟩
  · rw [hbmRead, hmem]
    exact (hbmRead_writeSort (i := 0) (hhbm'.symm ▸ hwf) (by decide)).trans (sortSummary_placed ..).1
  · rw [hbmRead, hmem]
    exact (hbmRead_writeSort (i := 4) (hhbm'.symm ▸ hwf) (by decide)).trans (sortSummary_placed ..).2
  · rw [hmem, mread_writeSort_outside htables hentries, hhbm']

/-- Settles O24: a placement allots its buffers first, a completion retires skeins before its step settles, and a sort writes
its region before its counts decide. -/
theorem skeinsAndSorts : Obligations.SkeinsAndSorts := by
  unfold Obligations.SkeinsAndSorts
  refine ⟨fun s now slot k t bases st hup hst hmay hpins howner husable hfree hbufs =>
      skeinPlace_places hup hst hmay hpins howner husable hfree hbufs,
    fun s now slot k t bases st hup hst hmay hopen hpins hbad => skeinPlace_pinned hup hst hmay hopen hpins hbad,
    fun s now t k r st hup hfind hst => ⟨skeinComplete_whole hup hfind hst, skeinComplete_marks hup hfind hst⟩,
    fun s now die q st hup hin hidle hrun hq hst => ⟨sortStart_runs hup hin hidle hrun hq hst, sortStart_refuses hup hin hidle hrun hq hst⟩,
    fun s now die q st hup hrun hst hcalm hskein => ⟨fun hclean hoff hjob hhome _ hlog hwatch hwf =>
        sortComplete_local hup hrun hst hcalm hskein hclean hoff hjob hhome hlog hwatch hwf,
      sortComplete_frees hup hrun hst hcalm hskein, sortComplete_poisoned hup hrun hst hcalm hskein⟩,
    fun s now slot idx expert src n first st hup hst =>
      ⟨fun hexpert hsrc hother hlast hnew => manifestArrival_spec hup hst hexpert hsrc hother hlast hnew, manifestArrival_ignored hup hst⟩⟩

end Sys2Proof.Machine
